-- ==== Sys2Proof/Word.lean ====
section
/-! DEFINITION. The word types of the model: bytes, byte strings and the widths the spec
names most often (spec/00_scope.md, R2 and R3). -/
namespace Sys2Proof

/-- One byte of a 4812-defined format. -/
abbrev Byte := BitVec 8

/-- A byte string, first byte first; formats are most significant byte first (R2). -/
abbrev Bytes := List (BitVec 8)

/-- A timeline value: a 64-bit count of grains (R16). -/
abbrev Timeline := BitVec 64

/-- A swath counter value, 48 bits (R40). -/
abbrev SwathCount := BitVec 48

end Sys2Proof
end

