-- ==== Sys2Proof/Syntax.lean ====
section
/-! DEFINITION. The commands of the block: one constructor per row of spec/opcode_table.json,
with the operands its rule gives. The table gives no row any bits, so the operands are the
quantities that the row's rule says come from outside: which lane, what arrived, what was
measured. -/
namespace Sys2Proof

/-- Where an Icben command comes from (R532, R543, R510). -/
inductive CmdSrc
  | mailbox
  /-- A management lot: instance, LOT_ID, KEYIDX. -/
  | mgmt (inst : Fin 2) (lotId : BitVec 16) (keyIdx : BitVec 2)
  /-- A mirrored command held for its APPLY_SC (R510); true: on the chip that received it from
  its peer. -/
  | mirror (fromPeer : Bool)
  deriving DecidableEq, Repr

/-- An Icben command without its opcode: Table 20-3's TAG and FLAGS, and its payload. -/
structure Cmd where
  src : CmdSrc
  tag : BitVec 16
  mirror : Bool
  atSwath : Bool
  rsvd : BitVec 14
  payload : Bytes
  deriving DecidableEq, Repr

/-- A downstream field message: the group, lane and swath it came in, its index among the
header's messages, and its 48 bytes (Table 5-1). -/
structure FieldMsg where
  group : Fin 4
  lane : Fin 4
  sc : BitVec 48
  index : BitVec 6
  bytes : Bytes
  deriving DecidableEq, Repr

/-- A hardware thread: harrow, tine, thread (R333, R341). -/
structure ThreadId where
  harrow : Fin 12
  tine : Fin 16
  thread : Fin 8
  deriving DecidableEq, Repr

/-- The fields of an instruction word other than OP (Table 13-1). -/
structure TFields where
  vd : BitVec 4
  va : BitVec 4
  vb : BitVec 4
  fn : BitVec 4
  ra : Bool
  rb : Bool
  n : BitVec 6
  imm : BitVec 32
  deriving DecidableEq, Repr

/-- A received server frame as the PCS and MAC hand it over (R237), DA to FCS. -/
structure RxFrame where
  bytes : Bytes
  /-- Error characters and invalid blocks within the frame, and between frames before it
  (R239). -/
  blockErrs : Nat
  blockErrsBefore : Nat
  /-- The gap before it as the server sent it: idle characters, and ordered sets in their order. -/
  gapIdles : Nat
  gapSets : List (BitVec 32)
  /-- 4-character columns that the difference of the clocks asks the elastic buffer to insert and
  to delete in that gap (R228). -/
  idleInserted : Nat
  idleDeleted : Nat
  /-- RS-FEC codewords corrected, symbols corrected and codewords uncorrectable since the last
  frame (Table 8-8). -/
  fecCorrected : Nat
  fecSymbols : Nat
  fecUncorrectable : Nat
  deriving DecidableEq, Repr

/-- Body of a HELLO (Table 19-9). -/
structure HelloBody where
  serial : BitVec 64
  pairSerial : BitVec 64
  side : Bool
  fwVersion : BitVec 32
  schema : BitVec 16
  revMin : BitVec 16
  revMax : BitVec 16
  deriving DecidableEq, Repr

/-- Body of a HEALTH (Table 19-9). -/
structure HealthBody where
  sc : BitVec 48
  /-- Pair state coded as DEV_STAT.PAIR, with OUT_OF_STEP. -/
  state : Nat
  outOfStep : Bool
  roleOut : Bool
  /-- Every renewal condition of Table 19-2 holds. -/
  renewable : Bool
  /-- A lane of the group is in LOCK, MISS1 or MISS2, bit per group. -/
  locked : BitVec 4
  /-- The last FM_SEQ sent by instance P and by instance S. -/
  fmSeqP : BitVec 8
  fmSeqS : BitVec 8
  mirrorSeq : Option (BitVec 32)
  digest : BitVec 32
  fwVersion : BitVec 32
  forcePeer : Bool
  deriving DecidableEq, Repr

/-- An operation on the IEEE 1149.1 or debug access port (R456, R457). -/
inductive DebugOp
  | bypass | samplePreload | extest | idcode
  | haltReeve | resumeReeve
  | haltTine (h : Fin 12) (t : Fin 16) | resumeTine (h : Fin 12) (t : Fin 16)
  | readTineReg (h : Fin 12) (t : Fin 16) (th : Fin 8) (r : BitVec 4)
  | readSlot (slot : Fin 128)
  deriving DecidableEq, Repr

/-- What an optics module advertises for a lane (R154, R155). -/
structure Optics where
  tunable : Bool
  /-- Grid codes with their lowest and highest channel. -/
  grids : List (BitVec 8 × Int × Int)
  /-- Laser frequency read back, MHz. -/
  freq : BitVec 32
  deriving DecidableEq, Repr

/-- Result of a poll of page 12h (R156). -/
inductive TuneStatus | inProgress | complete (freq : BitVec 32) | fault
  deriving DecidableEq, Repr

/-- Outcome of the checks of a firmware image (R454), as CHECK reports it:
0 valid, 1 header, 2 hash, 3 key hash, 4 signature. -/
structure ImageCheck where
  result : BitVec 8
  fwVersion : BitVec 32
  deriving DecidableEq, Repr

/-- What the ROM finds in the boot flash (R454, R455): the images as the block's own commands have
left them there, or, where the flash was programmed by other means, the outcome of the checks of
images A and B. -/
inductive BootRead | stored | outside (a b : ImageCheck)
  deriving DecidableEq, Repr

/-- The commands, in the table's order. -/
inductive Instr
  /-- VDD_AON is first applied, and the timeline and era start from zero. (R16) -/
  | vddAonPowerOn
  /-- A low pulse on RESET_N is recognised, BEN falls within 1,063 grains and every ball takes its Reset state. (R590) -/
  | resetNAssert
  /-- RESET_N rises, the straps are sampled and the ROM boot begins. (R586) -/
  | resetNRelease (addr : BitVec 3) (testMode : Bool)
  /-- PWRGOOD goes low and holds the device in reset whatever RESET_N does. (R592) -/
  | pwrgoodFall
  /-- PWRGOOD rises while RESET_N is high, which acts as a release of RESET_N. (R592) -/
  | pwrgoodRise (addr : BitVec 3) (testMode : Bool)
  /-- The ROM finishes reading and checking the boot images and sets READY or FAILED with RECOVERY. (R455) -/
  | bootImageCheckDone (read : BootRead)
  /-- The root PLL reports lock, and firmware moves CLK_CTRL and CLK_PERI off the FIO. (R12) -/
  | rootPllLock
  /-- REFCLK is lost; EV_TIME_REFCLK_LOST is raised while the PLL runs, or the timeline halts while it is stopped. (R14) -/
  | refclkLost
  /-- REFCLK returns, and the root PLL or the halted timeline is referenced to it again. (R14) -/
  | refclkReturn
  /-- The timeline passes from all ones to zero, and the era counter increments. (R20) -/
  | timelineWrap
  /-- A host command moves the root PLL from HOLD to FREE and ramps the correction word to zero. (R14) -/
  | discardHoldover
  /-- The CDR of a receive lane locks. (R53) -/
  | cdrLock (lane : Fin 4) (ppb : Int)
  /-- The CDR of a receive lane loses lock, and codewords stop being counted. (R51) -/
  | cdrUnlock (lane : Fin 4)
  /-- A raw 64-bit MARKER match in HUNT or VERIFY opens a candidate slot. (R47) -/
  | rawMarkerMatch (lane : Fin 4) (lastBit : BitVec 64)
  /-- The TC engine completes decoding of a codeword on a lane, then checks its header, descrambles it and passes its payload or a gap marker on. (R37) -/
  | codewordDecoded (lane : Fin 4) (start : BitVec 64) (word : BitVec 5440)
  /-- The expected time of codeword 0 passes while the CDR is unlocked, which counts as a miss. (R51) -/
  | cw0NotReceived (lane : Fin 4) (start : BitVec 64)
  /-- A lane in RESUME gets no confirmation within 13,600,000 grains and returns to HUNT. (R47) -/
  | resumeTimeout (lane : Fin 4)
  /-- In ADAPT mode the receive CTLE code moves by at most one step once per swath. (R31) -/
  | ctleAdaptStep (lane : Fin 4) (up : Bool)
  /-- A deferred LINE_SET_EQ takes effect at the lane's next codeword-0 boundary. (R32) -/
  | lineSetEqApply (lane : Fin 4)
  /-- A bonding group's swath boundary arrives, and the changes waiting for it are applied. (R609) -/
  | swathBoundary (group : Fin 4) (sc : BitVec 48) (optics0 : Optics) (optics1 : Optics)
  /-- Once every included lane has decoded the codeword, a group's next lot header is released in key order, its BSEQ is checked and it passes the processing steps. (R82) -/
  | lotHeaderRelease (group : Fin 4)
  /-- A reassembly context is still open at the eighth swath boundary and is discarded. (R76) -/
  | fragReassemblyTimeout (lotId : BitVec 16)
  /-- A LABEL 0x08 plant report is checked and stored for its group. (R198) -/
  | plantReport (group : Fin 4)
  /-- A LABEL 0x09 lot carrying a command is checked and queued for the Reeve. (R543) -/
  | managementLot (group : Fin 4)
  /-- A furrow-map entry from the primary lane is checked for CRC, plot and validity, then executed or counted. (R92) -/
  | furrowMapEntry (group : Fin 4) (sc : BitVec 48) (entry : BitVec 128)
  /-- At S − 53,125 grains the burst header fields and the layout of every lot in the burst are fixed. (R109) -/
  | headerSamplePoint (ltx : Fin 2)
  /-- At S − 8 the burst logic raises its enable if every gate condition holds, and otherwise skips the furrow. (R122) -/
  | burstEnable (ltx : Fin 2)
  /-- At S + L + 8 the burst logic lowers its enable, and BEN falls. (R121) -/
  | burstEnd (ltx : Fin 2)
  /-- BEN has been high for 16,800 REFCLK edges, so the watchdog forces it low and latches a trip. (R123) -/
  | laserWatchdog (ltx : Fin 2)
  /-- No REFCLK edge arrives for 1 µs while BEN is high, so the watchdog trips. (R123) -/
  | watchdogRefclkTrip (ltx : Fin 2)
  /-- At the eighth upstream swath boundary the unsent fragments of a frame are discarded. (R115) -/
  | fragAbandonTx (queue : Fin 1024)
  /-- GASP_IN is high at two REFCLK edges, so the dying-gasp latch is set and a checkpoint is due. (R593) -/
  | gaspInAssert
  /-- GASP_IN has been low for 100 ms, and the latch clears. (R593) -/
  | gaspInClear
  /-- A head-end profile message is accepted, which may start announcing or restart TO_PROFILE. (R143) -/
  | heProfile (m : FieldMsg)
  /-- A TERMINAL_ID and ranging plot are assigned to the terminal with the matching serial number. (R143) -/
  | assignId (m : FieldMsg)
  /-- The EqD and RTT of a lane are stored from EFF_SC, possibly entering OPERATING. (R153) -/
  | rangingTime (m : FieldMsg)
  /-- A plot-table entry is added or removed after the checks of R141. (R141) -/
  | assignPlot (m : FieldMsg)
  /-- A LOT_ID-table entry is added, replaced or removed after the checks of R141. (R141) -/
  | assignLot (m : FieldMsg)
  /-- The instance is cleared and returns to LISTEN. (R143) -/
  | deactivate (m : FieldMsg)
  /-- The instance enters SILENCED and starts its DURATION timer. (R143) -/
  | silence (m : FieldMsg)
  /-- A SILENCED instance is released to OPERATING or LISTEN. (R143) -/
  | release (m : FieldMsg)
  /-- A wavelength tuning request starts TUNING or is answered with a failed TUNE_DONE. (R156) -/
  | tune (m : FieldMsg) (optics : Optics)
  /-- A head end requests a protection switch to the named instance. (R158) -/
  | switchParent (m : FieldMsg)
  /-- TO_PROFILE expires, and the instance goes to LISTEN or HOLDOVER. (R143) -/
  | toProfileExpiry (inst : Fin 2)
  /-- TO_RANGE expires, and the instance is cleared to LISTEN. (R143) -/
  | toRangeExpiry (inst : Fin 2)
  /-- TO_HOLD expires in HOLDOVER, and the instance is cleared to LISTEN. (R143) -/
  | toHoldExpiry (inst : Fin 2)
  /-- TO_TUNE expires, and tuning fails or the restore wait ends. (R156) -/
  | toTuneExpiry (inst : Fin 2)
  /-- The 1 ms poll of the module's page 12h status detects completion or a fault. (R156) -/
  | tunePoll (inst : Fin 2) (status : TuneStatus)
  /-- The SILENCED DURATION timer ends, and the instance leaves SILENCED. (R147) -/
  | silenceDurationExpiry (inst : Fin 2)
  /-- A lane has no signal for 53,125 grains, so LOS is raised. (R165) -/
  | losDeclare (lane : Fin 4)
  /-- A lane has signal for 6,800,000 grains, so LOS is cleared. (R165) -/
  | losClear (lane : Fin 4)
  /-- Delineation has been RESYNC or WAIT for 6,800,000 grains, so LOL is raised. (R165) -/
  | lolDeclare (lane : Fin 4)
  /-- The lane has been DELINEATED for 13,600,000 grains, so LOL is cleared. (R165) -/
  | lolClear (lane : Fin 4)
  /-- No sowing record is accepted for LTM_TIMEOUT swaths, so LTM is raised and a locked servo enters holdover. (R165) -/
  | ltmDeclare (dom : Fin 2)
  /-- Every 5,440 grains the RDI state of each instance is re-evaluated. (R174) -/
  | rdiEvaluation
  /-- The switch summary has held for HOLD_OFF, so a protection switch is requested. (R175) -/
  | holdOffExpiry (inst : Fin 2)
  /-- A 15-minute or day bin boundary is reached; the open bin closes and a new one opens. (R178) -/
  | binClose (day : Bool) (misreads : List Bool := [])
  /-- At the end of a bin-clock second the defect-second counts are incremented. (R185) -/
  | binSecondEnd
  /-- A sowing record is checked, then accepted and used to feed the domain servo. (R195) -/
  | timeSow (m : FieldMsg)
  /-- At the end of a fit window the DGD values are formed and the dispersion fit and SHARE are updated. (R203) -/
  | fitWindowEnd
  /-- A domain in HOLDOVER passes HOLD_VALID and becomes invalid. (R210) -/
  | holdValidExpiry (dom : Fin 2)
  /-- The output offset O reaches zero, and EV_TIME_SLEW_DONE is raised. (R214) -/
  | slewDone
  /-- A rising edge on PPS_IN is captured and compared, or ignored as a glitch. (R218) -/
  | ppsInEdge (edge : BitVec 64)
  /-- Two seconds pass without an accepted PPS_IN edge. (R219) -/
  | ppsInLost
  /-- A server frame's first byte arrives; the floor is checked and bushels are taken as bytes arrive. (R392) -/
  | rxFrameStart (port : Fin 8) (capture : BitVec 64)
  /-- A received server frame ends and is classified by length and FCS. (R237) -/
  | rxFrameEnd (port : Fin 8) (frame : RxFrame)
  /-- A pause time ends, and the port may start frames again. (R242) -/
  | pauseExpiry (port : Fin 8)
  /-- The PCS status of a port changes, which moves the link state. (R233) -/
  | pcsStatusChange (port : Fin 8) (up : Bool) (locks : BitVec 4)
  /-- The LINK_UP_DELAY timer expires in RISING, and the port may go UP. (R233) -/
  | linkUpDelayExpiry (port : Fin 8)
  /-- A Local or Remote Fault ordered set is received while UP, and the port enters FAULT. (R233) -/
  | faultOrderedSetRx (port : Fin 8) (remote : Bool)
  /-- 128 columns pass without a fault ordered set, and the port returns to UP. (R233) -/
  | faultCleared (port : Fin 8)
  /-- A lane of an enabled port loses block lock. (R234) -/
  | blockLockLoss (port : Fin 8) (lane : Fin 4)
  /-- A port enters hi_ber. (R234) -/
  | hiBer (port : Fin 8)
  /-- A server lane's CTLE code moves by at most one step per 1 ms. (R226) -/
  | slCtleAdapt (lane : Fin 8) (up : Bool)
  /-- HREFCLK is absent, and every enabled port goes DOWN. (R231) -/
  | hrefclkLost
  /-- HREFCLK returns, and the ports restart from DOWN. (R231) -/
  | hrefclkReturn
  /-- A port transmitter can start a frame, and its arbiter selects a queue subject to the shapers. (R406) -/
  | dsSchedulingDecision (port : Fin 8)
  /-- A frame's last byte has been sent, and its bushels are released. (R391) -/
  | txFrameDone (port : Fin 8)
  /-- A Delay_Req is timestamped and answered with a Delay_Resp. (R270) -/
  | delayReq (port : Fin 8)
  /-- A unicast Signaling TLV requests, cancels or acknowledges a grant. (R265) -/
  | signaling (port : Fin 8)
  /-- An ARP request for IP_ADDR is answered with PORT_MAC. (R262) -/
  | arpRequest (port : Fin 8)
  /-- A Neighbor Solicitation for IP_ADDR is answered with PORT_MAC. (R262) -/
  | neighborSolicitation (port : Fin 8)
  /-- An Announce message falls due and is sent on an instance. (R264) -/
  | ptpAnnounceTx (port : Fin 8) (instB : Bool) (client : Option (BitVec 128))
  /-- A Sync message falls due and is sent, timestamped in one-step operation. (R270) -/
  | ptpSyncTx (port : Fin 8) (instB : Bool) (client : Option (BitVec 128))
  /-- In two-step operation a Follow_Up carries the precise origin timestamp. (R270) -/
  | followUp (port : Fin 8) (instB : Bool) (client : Option (BitVec 128))
  /-- A unicast grant expires, and the client stops being served. (R266) -/
  | grantExpiry (port : Fin 8) (instB : Bool) (client : BitVec 128) (msgType : BitVec 4)
  /-- A scheduled second edge is reached, and PPS_OUT rises or the edge is suppressed. (R276) -/
  | ppsOutEdge
  /-- PPS_WIDTH after its edge, PPS_OUT falls. (R277) -/
  | ppsOutFall
  /-- One ms after an edge, the TOD_OUT message naming that second is sent. (R278) -/
  | todOutMessage
  /-- A packet is walked through the parse graph, its key is built and the ternary lookup and result selection follow. (R288) -/
  | coulterWalk (recirc : Bool)
  /-- An exact-match lookup completes, and a hit replaces the result and updates the entry counters. (R316) -/
  | emLookup (eccBad : List (Bool × Bool)) (eccCorr : Nat)
  /-- A rehash copy completes, the new bank becomes active and the staging command completes. (R323) -/
  | rehashDone (eccCorr : Nat := 0)
  /-- The sweep of the retired generation completes, and the state returns to ONE_LIVE. (R330) -/
  | sweepDone (eccCorr : Nat := 0)
  /-- The older generation is still live 10 ms after the commit. (R327) -/
  | retireSlow
  /-- A waiting packet is given to a free thread of a chosen harrow and tine. (R338) -/
  | tineDispatch
  /-- The tine instruction that does nothing. (R361) -/
  | nop (th : ThreadId) (f : TFields)
  /-- Adds modulo 2^32. (R361) -/
  | add (th : ThreadId) (f : TFields)
  /-- Subtracts modulo 2^32. (R361) -/
  | sub (th : ThreadId) (f : TFields)
  /-- Bitwise AND. (R361) -/
  | and (th : ThreadId) (f : TFields)
  /-- Bitwise OR. (R361) -/
  | or (th : ThreadId) (f : TFields)
  /-- Bitwise XOR. (R361) -/
  | xor (th : ThreadId) (f : TFields)
  /-- Shift left. (R361) -/
  | shl (th : ThreadId) (f : TFields)
  /-- Logical shift right. (R361) -/
  | shr (th : ThreadId) (f : TFields)
  /-- Arithmetic shift right. (R361) -/
  | sra (th : ThreadId) (f : TFields)
  /-- Low 32 bits of a product. (R361) -/
  | mul (th : ThreadId) (f : TFields)
  /-- Unsigned minimum. (R361) -/
  | minu (th : ThreadId) (f : TFields)
  /-- Unsigned maximum. (R361) -/
  | maxu (th : ThreadId) (f : TFields)
  /-- Moves an operand into a register. (R361) -/
  | mov (th : ThreadId) (f : TFields)
  /-- Sets a register to the truth of a condition code. (R360) -/
  | cmp (th : ThreadId) (f : TFields)
  /-- Ones'-complement 16-bit addition. (R361) -/
  | csadd (th : ThreadId) (f : TFields)
  /-- Extracts a bit field from a register. (R361) -/
  | ext (th : ThreadId) (f : TFields)
  /-- Inserts a bit field into a register. (R361) -/
  | ins (th : ThreadId) (f : TFields)
  /-- Conditional or unconditional branch. (R360) -/
  | br (th : ThreadId) (f : TFields)
  /-- Reads a field from the packet window. (R363) -/
  | ldw (th : ThreadId) (f : TFields)
  /-- Writes a field into the packet window. (R363) -/
  | stw (th : ThreadId) (f : TFields)
  /-- Inserts zero bytes into the window, spilling bytes as needed. (R364) -/
  | push (th : ThreadId) (f : TFields)
  /-- Removes bytes from the window. (R364) -/
  | pop (th : ThreadId) (f : TFields)
  /-- Copies a block between the constant area, the private area and the window. (R365) -/
  | bmov (th : ThreadId) (f : TFields)
  /-- Computes a CRC-32 over bytes of the window or private area. (R366) -/
  | hash (th : ThreadId) (f : TFields)
  /-- Loads from the private, constant, scratch or metadata space. (R367) -/
  | ld (th : ThreadId) (f : TFields)
  /-- Stores to the private or scratch space. (R367) -/
  | st (th : ThreadId) (f : TFields)
  /-- Atomically updates one scratch word. (R368) -/
  | atom (th : ThreadId) (f : TFields)
  /-- Requests a program-region read into the private area. (R368) -/
  | srd (th : ThreadId) (f : TFields)
  /-- Requests a program-region write from the private area. (R368) -/
  | swr (th : ThreadId) (f : TFields)
  /-- Requests an atomic update of a program-region word. (R368) -/
  | satom (th : ThreadId) (f : TFields)
  /-- Ternary lookup of a key that the program built. (R369) -/
  | tlook (th : ThreadId) (f : TFields)
  /-- Requests an exact-match lookup with a named profile. (R369) -/
  | elook (th : ThreadId) (f : TFields)
  /-- Meters the packet and sets COLOUR. (R370) -/
  | meter (th : ThreadId) (f : TFields)
  /-- Adds to a result counter. (R370) -/
  | count (th : ThreadId) (f : TFields)
  /-- Sets Q_VALID, DIR and QUEUE in the metadata. (R371) -/
  | setQueue (th : ThreadId) (f : TFields)
  /-- Reads the era and timeline into registers. (R344) -/
  | tsread (th : ThreadId) (f : TFields)
  /-- Reads a tine performance counter into registers. (R372) -/
  | pmcread (th : ThreadId) (f : TFields)
  /-- Requests a cipher operation on packet bytes. (R373) -/
  | cipher (th : ThreadId) (f : TFields)
  /-- Ends the pass and enqueues the packet after write-back and admission. (R374) -/
  | emit (th : ThreadId) (f : TFields)
  /-- Ends the pass and discards the packet. (R374) -/
  | drop (th : ThreadId) (f : TFields)
  /-- Ends the pass and returns the packet to the coulter. (R374) -/
  | recirculate (th : ThreadId) (f : TFields)
  /-- Ends the pass and hands the packet to the Reeve's trap queue. (R374) -/
  | trap (th : ThreadId) (f : TFields)
  /-- A service result returns to a waiting thread, which becomes ready. (R344) -/
  | serviceResult (th : ThreadId) (ecc : List (Bool × Bool)) (eccCorr : Nat := 0)
  /-- A PMC wraps, so OVF is set and, under FREEZE, the tine's PMCs stop. (R381) -/
  | pmcOverflow (harrow : Fin 12) (tine : Fin 16)
  /-- The sampling countdown reaches zero, and the next selected instruction is tagged. (R385) -/
  | sampleTag (harrow : Fin 12) (tine : Fin 16)
  /-- A cipher engine operation completes 40 core cycles after its last granule. (R422) -/
  | cipherOpComplete (client : Fin 3)
  /-- The DRBG reseeds after 65,536 requests or 1 s, and a failure raises EV_CRY_ENTROPY_FAIL. (R427) -/
  | drbgReseed (ok : Bool)
  /-- After 2^24 requests without a reseed, the random output and the engine stop. (R428) -/
  | entropyExhausted
  /-- A write to KEY_SEL selects a slot and clears KEY_DATA. (R436) -/
  | keySelWrite (value : BitVec 8)
  /-- KEY_CTRL OP LOAD requests a plain or wrapped key load into the selected slot. (R436) -/
  | keyLoad (wrapped : Bool) (size256 : Bool)
  /-- KEY_CTRL OP ERASE requests zeroisation of the selected slot. (R436) -/
  | keyErase
  /-- KEY_CTRL OP ERASE_ALL requests zeroisation of every slot. (R436) -/
  | keyEraseAll
  /-- A key request takes effect at one core cycle; GEN advances, operations are aborted and BUSY clears. (R436) -/
  | keyRequestCommit
  /-- Notices are sent or NOTICE_WAIT has elapsed and traffic has drained, so E2 is reached. (R471) -/
  | entryE2
  /-- NOTICE_WAIT elapses with notices unsent, and they are withdrawn. (R471) -/
  | noticeWaitExpiry
  /-- DRAIN_WAIT elapses while egress queues still hold frames. (R471) -/
  | drainWaitExpiry
  /-- The retention signatures complete, and E3 is reached. (R473) -/
  | entryE3
  /-- The pads of the domains are latched, and lanes enter DORMANT. (R471) -/
  | entryE4 (slSignal : BitVec 8)
  /-- At a REFCLK edge the domains are isolated and powered down, servos move to holdover and the PLL may stop. (R471) -/
  | entryE5
  /-- A server lane gains signal for 1 ms in a low state, which is a wake event. (R478) -/
  | slSignal (lane : Fin 8)
  /-- A dark LRX lane gains signal for 1 ms in a low state, which is a wake event. (R478) -/
  | lineLight (lane : Fin 4)
  /-- A lit LRX lane loses signal for 1 µs in FALLOW or DEEP_FALLOW, which is a wake event. (R478) -/
  | lineDark (lane : Fin 4)
  /-- WAKE_IN is high at eight REFCLK edges, which latches a wake. (R478) -/
  | wakeIn
  /-- A transfer addressed to the 4812 in DEEP_FALLOW is NACKed and latches a wake. (R478) -/
  | i3cWake
  /-- A downstream PWR_WAKE message for this terminal is a wake event in a low state. (R475) -/
  | pwrWake (m : FieldMsg)
  /-- Every 200 µs the rouse correlator decides on the pilot and may match ROUSE_CODE. (R479) -/
  | rouseDecision (chip : Bool)
  /-- 20 µs before a listening swath's predicted marker, the listening lane is powered into RESUME. (R477) -/
  | listenPowerUp (lane : Fin 4)
  /-- The restart completes; banks are checked, bins closed, RUN set and EV_PWR_WAKE raised. (R481) -/
  | wakeComplete (failedBanks : BitVec 64)
  /-- A BUF bank being gated off holds no bushel any more and is gated. (R487) -/
  | bufBankGated (bank : Fin 24)
  /-- Firmware renews the transmit lease when every renewal condition holds. (R496) -/
  | leaseRenewal
  /-- The lease timer expires, and the gate closes. (R497) -/
  | leaseExpiry
  /-- The lease has been invalid for 2 × LEASE_LEN, so hardware drops ROLE_OUT and the chip becomes STANDBY. (R497) -/
  | roleDrop
  /-- The synchronised ROLE_IN level changes. (R495) -/
  | roleInChange (level : Bool)
  /-- ROLE_IN has been low for ROLE_GUARD, so a STANDBY chip raises ROLE_OUT and enters CLAIM. (R498) -/
  | roleClaim
  /-- ROLE_IN has stayed low for 1 µs in CLAIM, and the chip becomes ACTIVE. (R500) -/
  | takeover
  /-- LOCK_YIELD_HOLD expires, and the active yields to the peer. (R507) -/
  | lockYieldExpiry
  /-- A tether HELLO is received and may bring the tether UP. (R516) -/
  | hello (crcOk : Bool) (seq : BitVec 32) (b : HelloBody)
  /-- Every 1 ms while the tether is not UP, a HELLO is sent. (R515) -/
  | helloTx
  /-- A tether HEALTH is received; the digest, FM_SEQ, wiring and version are compared. (R513) -/
  | health (crcOk : Bool) (seq : BitVec 32) (b : HealthBody)
  /-- A HEALTH message is sent at a marker arrival, or after 6,800,000 grains without one. (R515) -/
  | healthTx
  /-- The standby receives a mirrored command, checks it, holds it for APPLY_SC and acknowledges it. (R510) -/
  | mirrorCmd (crcOk : Bool) (seq : BitVec 32) (mirrorSeq : BitVec 32) (applySc : BitVec 48) (opcode : BitVec 16) (cmd : Cmd)
  /-- The active receives the standby's answer and completes the mirrored command. (R510) -/
  | mirrorAck (crcOk : Bool) (seq : BitVec 32) (mirrorSeq : BitVec 32) (status : BitVec 16)
  /-- No MIRROR_ACK arrives within 6,800,000 grains. (R510) -/
  | mirrorAckTimeout
  /-- A TIME_CMP exchange message is timestamped and PAIR_TIME_DIFF is updated. (R517) -/
  | timeCmp (crcOk : Bool) (seq : BitVec 32) (exchange : BitVec 32) (reply : Option (Int × Int)) (capture : BitVec 64) (left : BitVec 64)
  /-- Every 64 swaths a chip starts a TIME_CMP exchange. (R517) -/
  | timeCmpStart (left : BitVec 64)
  /-- The active receives a snapshot request and starts sending a snapshot. (R518) -/
  | snapReq (crcOk : Bool) (seq : BitVec 32) (schemaMin : BitVec 16) (schemaMax : BitVec 16)
  /-- The rejoiner receives a chunk of snapshot records. (R518) -/
  | snapData (crcOk : Bool) (seq : BitVec 32) (schema : BitVec 16) (offset : BitVec 32) (bytes : Bytes)
  /-- The rejoiner receives the end of the snapshot and applies it with the held commands. (R518) -/
  | snapEnd (crcOk : Bool) (seq : BitVec 32) (schema : BitVec 16) (sc : BitVec 48) (length : BitVec 32) (crc : BitVec 32) (optics0 : Optics) (optics1 : Optics)
  /-- SNAP_END does not arrive within 500 ms, and the rejoin attempt fails. (R519) -/
  | snapTimeout
  /-- No valid HEALTH arrives for 512 µs, and the tether goes down. (R516) -/
  | tetherHealthTimeout
  /-- The tether loses block lock and goes down. (R516) -/
  | tetherBlockLockLoss
  /-- The Reeve comparator detects a mismatch, and both cores halt. (R524) -/
  | lockstepMismatch
  /-- The Reeve watchdog expires after 100 ms, and both cores halt. (R524) -/
  | reeveWatchdogExpiry
  /-- A write of RESTART to REEVE_CTRL restarts a faulted Reeve as a SYS_RESET. (R525) -/
  | reeveRestart
  /-- A doorbell hands the inbound window to firmware, or is rejected. (R533) -/
  | mbDoorbell
  /-- A byte is written at MB_IN_PTR, which then advances. (R533) -/
  | mbInDataWrite (value : BitVec 8)
  /-- A byte is read at MB_OUT_PTR, which then advances. (R535) -/
  | mbOutDataRead
  /-- The host releases the outbound window and clears RESP_VALID. (R535) -/
  | mbRespAck
  /-- The head entry of the event FIFO is removed. (R537) -/
  | evtPop
  /-- A W1C write clears INT_STAT bits and ends their IBI repeats. (R539) -/
  | intStatClear (bits : BitVec 5)
  /-- The staged INT_EN and INT_CFG are applied together. (R531) -/
  | winCommit
  /-- A write to a window register that has no behaviour of its own. (R528) -/
  | registerWrite (addr : BitVec 8) (value : BitVec 8)
  /-- Firmware copies the inbound command, frees the window and starts processing. (R533) -/
  | commandTaken
  /-- A NACKed IBI request is repeated after at least 100 µs. (R539) -/
  | ibiRetry (ack : Bool)
  /-- Ten ms after a SYS_RESET response without acknowledgement, the device resets. (R549) -/
  | sysResetDeferred
  /-- A SYS_FW_ACTIVATE ERASE completes, and EV_SYS_FW_DONE is raised. (R550) -/
  | fwEraseDone (ok : Bool)
  /-- Once per second the on-die temperature is sampled into a lifetime bin. (R574) -/
  | tempSample (celsius : Int)
  /-- I3C CCC that assigns a dynamic address. (R526) -/
  | entdaa (addr : BitVec 7)
  /-- I3C CCC that sets the dynamic address from the static address. (R526) -/
  | setdasa (addr : BitVec 7)
  /-- I3C CCC that clears the dynamic address. (R527) -/
  | rstdaa
  /-- I3C CCC that enables IBIs. (R526) -/
  | enec
  /-- I3C CCC that disables IBIs. (R526) -/
  | disec
  /-- I3C CCC that sets the maximum write length. (R526) -/
  | setmwl (n : BitVec 16)
  /-- I3C CCC that sets the maximum read length. (R526) -/
  | setmrl (n : BitVec 16)
  /-- I3C CCC that returns the maximum write length. (R526) -/
  | getmwl
  /-- I3C CCC that returns the maximum read length. (R526) -/
  | getmrl
  /-- I3C CCC that returns the provisional ID. (R526) -/
  | getpid
  /-- I3C CCC that returns the BCR. (R526) -/
  | getbcr
  /-- I3C CCC that returns the DCR. (R526) -/
  | getdcr
  /-- I3C CCC that returns the target status. (R526) -/
  | getstatus
  /-- I3C CCC that returns the capabilities, HDR-DDR included. (R526) -/
  | getcaps
  /-- I3C CCC that enters HDR-DDR mode. (R529) -/
  | enthdr0
  /-- Returns the device identity, firmware, boot status, schema and revisions. (R562) -/
  | sysGetInfo (c : Cmd)
  /-- Posts ST_OK and then resets the device as RESET_N, with listed exceptions. (R549) -/
  | sysReset (c : Cmd)
  /-- Erases, writes, checks or activates a firmware image. (R550) -/
  | sysFwActivate (c : Cmd)
  /-- Requests a power state, starting an entry at E1 or a wake. (R469) -/
  | pwrSetState (c : Cmd)
  /-- Returns the power state, phase, domains, latched pads and power counters. (R488) -/
  | pwrGetState (c : Cmd)
  /-- Gates gateable domains on or off in RUN. (R487) -/
  | pwrSetDomains (c : Cmd) (failedBanks : BitVec 64)
  /-- Releases the latched pads of the named domains. (R484) -/
  | pwrReleasePads (c : Cmd)
  /-- Returns the report of the latest wake. (R485) -/
  | pwrGetWakeReport (c : Cmd)
  /-- Enables or disables lanes, sets media lanes and the timing lane. (R541) -/
  | lineConfigureLanes (c : Cmd) (optics0 : Optics) (optics1 : Optics)
  /-- Sets the CTLE mode and codes of a receive lane. (R32) -/
  | lineSetEq (c : Cmd)
  /-- Assigns a receive lane to a bonding group, or sets the upstream bonding mode. (R77) -/
  | lineSetGroup (c : Cmd)
  /-- Returns the acquisition and delineation state per lane. (R562) -/
  | lineGetLock (c : Cmd)
  /-- Reads line counters plainly or read-to-clear, and LOT_ID entries. (R55) -/
  | lineGetCounters (c : Cmd)
  /-- Enables activation and sets the timers and MGMT_MASK. (R144) -/
  | actStart (c : Cmd)
  /-- Clears an instance and disables activation. (R143) -/
  | actStop (c : Cmd)
  /-- Returns the activation state and counters of an instance. (R163) -/
  | actGetState (c : Cmd)
  /-- Switches the parenting mode or requests a host protection switch. (R129) -/
  | actSetParenting (c : Cmd)
  /-- Sets the consequent-action settings of an instance. (R172) -/
  | supSetActions (c : Cmd)
  /-- Returns the defects, masks, RDI and switch summaries. (R167) -/
  | supGetDefects (c : Cmd)
  /-- Returns a performance bin by kind, index and scope. (R182) -/
  | supGetBins (c : Cmd)
  /-- Sets the defect thresholds and the TCA thresholds. (R170) -/
  | supSetThresholds (c : Cmd)
  /-- Sets the domain sources and the time settings. (R189) -/
  | timeSetDomains (c : Cmd)
  /-- Selects a domain, optionally stepping the output time scale. (R215) -/
  | timeSelect (c : Cmd)
  /-- Sets the asymmetry mode, fibre priors and board delays. (R207) -/
  | timeSetAsym (c : Cmd)
  /-- Returns the dispersion-fit results. (R207) -/
  | timeGetFit (c : Cmd)
  /-- Sets PPS_IN, PPS_OUT, TOD_OUT and RCLK_OUT settings. (R275) -/
  | timeSetOutputs (c : Cmd)
  /-- Returns the time status, servos, captures and counters. (R221) -/
  | timeGetStatus (c : Cmd)
  /-- Sets the port mode and the port and lane settings. (R224) -/
  | portConfigure (c : Cmd)
  /-- Replaces a port's filter table and its defaults. (R244) -/
  | portSetFilters (c : Cmd)
  /-- Sets a port's sheaf expansion settings. (R248) -/
  | portSetSheaf (c : Cmd)
  /-- Reads port counters and link state. (R254) -/
  | portGetStats (c : Cmd)
  /-- Sets a port's precision-time settings. (R258) -/
  | ptpConfigurePort (c : Cmd)
  /-- Returns precision-time counters and client grants. (R280) -/
  | ptpGetPort (c : Cmd)
  /-- Loads a graph image in chunks into the staged generation. (R299) -/
  | clsLoadGraph (c : Cmd)
  /-- Writes the staged pattern-set header and slots. (R294) -/
  | clsSetPatterns (c : Cmd)
  /-- Applies a list of staging operations atomically to the staged generation. (R324) -/
  | clsStageRules (c : Cmd)
  /-- Makes the staged set live as a new generation, now or at a named SC. (R326) -/
  | clsCommit (c : Cmd)
  /-- Returns the generation state and table counters. (R331) -/
  | clsGetGeneration (c : Cmd)
  /-- Loads a program image in chunks into every harrow. (R349) -/
  | tineLoadProgram (c : Cmd)
  /-- Sets a program's permissions and clears DISABLED. (R336) -/
  | tineSetPerms (c : Cmd)
  /-- Returns and removes fault records, with tine counters. (R353) -/
  | tineGetFaults (c : Cmd)
  /-- Sets the counter settings of chosen tines at one core cycle. (R377) -/
  | pmcConfigure (c : Cmd)
  /-- Reads a tine's counters at one core cycle. (R382) -/
  | pmcRead (c : Cmd)
  /-- Starts or stops tagged sampling on a harrow. (R384) -/
  | pmcSampleStart (c : Cmd)
  /-- Returns and removes sample records. (R388) -/
  | pmcSampleRead (c : Cmd)
  /-- Sets a queue's settings between two arbiter decisions. (R396) -/
  | qosSetQueue (c : Cmd)
  /-- Sets plot scheduling or pool settings. (R410) -/
  | qosSetSched (c : Cmd)
  /-- Sets a shaper and resets its token count. (R414) -/
  | qosSetShaper (c : Cmd)
  /-- Sets a meter and fills its buckets, or sets a colour map entry. (R415) -/
  | qosSetMeter (c : Cmd)
  /-- Returns queue occupancy, watermarks, shaper tokens and counters. (R419) -/
  | qosGetQueue (c : Cmd)
  /-- Binds a key slot to a use, algorithm and target. (R439) -/
  | cryBindSlot (c : Cmd)
  /-- Encrypts host data under a GENERAL slot with a drawn nonce. (R440) -/
  | crySeal (c : Cmd)
  /-- Decrypts and verifies host data under a GENERAL slot. (R440) -/
  | cryUnseal (c : Cmd)
  /-- Returns a slot's binding, state and counters, never key material. (R440) -/
  | cryGetSlot (c : Cmd)
  /-- Returns the life-cycle and debug states and the fuse status. (R462) -/
  | secGetLifecycle (c : Cmd)
  /-- Burns fuses to advance the life-cycle state, then resets; `took`: the bits of the burned state
  field that read back set. (R447, R451) -/
  | secAdvance (c : Cmd) (took : BitVec 16)
  /-- Returns a fresh 32-byte debug challenge. (R458) -/
  | secDebugChallenge (c : Cmd)
  /-- Opens debug on a valid signed challenge, or ends a session with END. (R458) -/
  | secDebugUnlock (c : Cmd)
  /-- Sets the pair settings and enters or leaves the pair. (R491) -/
  | pairConfigure (c : Cmd)
  /-- Returns the pair state, role wires, lease and counters. (R500) -/
  | pairGetState (c : Cmd)
  /-- Yields the active role or isolates the chip, optionally with FORCE. (R506) -/
  | pairYield (c : Cmd)
  /-- Takes an ISOLATED chip back into the pair. (R500) -/
  | pairRejoin (c : Cmd)
  /-- Reads day bins, gap entries or marks from the lifetime store. (R579) -/
  | lifeRead (c : Cmd)
  /-- Returns the lifetime summary record. (R573) -/
  | lifeGetSummary (c : Cmd)
  /-- Writes a host mark to the lifetime store. (R578) -/
  | lifeMark (c : Cmd) (misreads : List Bool := [])
  /-- A servo has had no used sowing record for LTM_TIMEOUT swaths, so a LOCKED servo enters HOLDOVER and an ACQUIRING servo FREERUN. (R209) -/
  | usedRecordTimeout (dom : Fin 2)
  /-- A pending AT_SWATH commit takes effect at the last recorded arrival plus the whole swaths to the named SC, because no arrival is recorded for that SC. (R326) -/
  | atSwathExtrapolatedArrival
  /-- An IEEE 1149.1 or debug access port operation, such as EXTEST or halting the Reeve, is applied through the TAP. (R456) -/
  | debugPortAccess (op : DebugOp)
  /-- The Reeve consumes or reinjects a packet from its trap queue, which releases the bushels or starts a new packet under the newest generation. (R391) -/
  | trapQueueService (reinject : Bool)
  /-- A downstream field message of a reserved or undefined type is checked for tag and addressing, then ignored and possibly counted in FMSG_UNKNOWN_TYPE. (R136) -/
  | undefinedFieldMessage (m : FieldMsg)
  /-- The synchronised read-back of the chip's own ROLE_OUT ball changes level, for example because the wire is shorted, which can make the lease invalid. (R495) -/
  | roleOutReadbackChange (level : Bool)
  deriving DecidableEq, Repr

end Sys2Proof
end

