-- ==== Sys2Proof/Decode.lean ====
section
/-! DEFINITION. spec/opcode_table.json gives no row any bits: no word spells a command. -/
namespace Sys2Proof

/-- The command a word spells by the table's bits. The table gives no row bits, so every word
spells none. -/
def decodeTableWord (_nbits _w : Nat) : Option Instr := none

end Sys2Proof
end

