-- ==== Sys2Proof/Machine/Counters.lean ====
section
/-! DEFINITION. The counters of the spec's counter tables, numbered as R558 numbers them, with
the scope kind R608 gives each and its place in Table 6-6 when it is binned (R184). -/
namespace Sys2Proof.Machine

/-- A counter: chapter and number of its table, its number in the table (R558), and its place
among the binned counts of Table 6-6. -/
structure CtrId where
  ch : Nat
  tbl : Nat
  num : Nat
  bin : Option Nat := none
  deriving DecidableEq, Repr

/-- The half-range event of a table's counters (R55, R547 and the chapters' own words). -/
def ctrHalfEvent (ch : Nat) : BitVec 16 :=
  if ch = 2 then 0x0309 else
  if ch = 3 then 0x0309 else
  if ch = 4 then 0x0309 else
  if ch = 5 then 0x0408 else
  if ch = 20 then 0x0408 else
  if ch = 7 then 0x060A else
  if ch = 8 then 0x0704 else
  if ch = 9 then 0x0801 else
  if ch = 10 then 0x0906 else
  if ch = 11 then 0x0906 else
  if ch = 12 then 0x0A02 else
  if ch = 14 then 0x0B04 else
  if ch = 15 then 0x0C01 else
  if ch = 16 then 0x0D03 else
  if ch = 18 then 0x0206 else
  if ch = 19 then 0x0F0D else
  0

/-! Table 2-8 -/
/-- CW_RECEIVED. -/
def cCwReceived : CtrId := ⟨2, 8, 0, (some 0)⟩
/-- CW_CORRECTED. -/
def cCwCorrected : CtrId := ⟨2, 8, 1, (some 1)⟩
/-- SYM_CORRECTED. -/
def cSymCorrected : CtrId := ⟨2, 8, 2, (some 2)⟩
/-- CW_UNCORRECTABLE. -/
def cCwUncorrectable : CtrId := ⟨2, 8, 3, (some 3)⟩
/-- CW_HDR_ERR. -/
def cCwHdrErr : CtrId := ⟨2, 8, 4, (some 4)⟩
/-- SWATH_HDR_ERR. -/
def cSwathHdrErr : CtrId := ⟨2, 8, 5, none⟩
/-- SC_JUMP. -/
def cScJump : CtrId := ⟨2, 8, 6, none⟩
/-- NONPRI_COUNT_ERR. -/
def cNonpriCountErr : CtrId := ⟨2, 8, 7, none⟩
/-- MARKER_MISS. -/
def cMarkerMiss : CtrId := ⟨2, 8, 8, (some 5)⟩
/-- LOCK_GAINED. -/
def cLockGained : CtrId := ⟨2, 8, 9, none⟩
/-- LOCK_LOST. -/
def cLockLost : CtrId := ⟨2, 8, 10, (some 6)⟩
/-- CAND_REJECTED. -/
def cCandRejected : CtrId := ⟨2, 8, 11, none⟩
/-- CAND_OVERFLOW. -/
def cCandOverflow : CtrId := ⟨2, 8, 12, none⟩

/-! Table 3-10 -/
/-- HCS_ERR. -/
def cHcsErr : CtrId := ⟨3, 10, 0, (some 7)⟩
/-- HDR_IN_GAP. -/
def cHdrInGap : CtrId := ⟨3, 10, 1, none⟩
/-- LOT_OVERRUN. -/
def cLotOverrun : CtrId := ⟨3, 10, 2, none⟩
/-- LOT_GAP_DISCARD. -/
def cLotGapDiscard : CtrId := ⟨3, 10, 3, none⟩
/-- RESYNC_ENTER. -/
def cResyncEnter : CtrId := ⟨3, 10, 4, (some 8)⟩
/-- RESYNC_OK. -/
def cResyncOk : CtrId := ⟨3, 10, 5, none⟩
/-- IDLE_LOTS. -/
def cIdleLots : CtrId := ⟨3, 10, 6, none⟩
/-- PRBS_BITS. -/
def cPrbsBits : CtrId := ⟨3, 10, 7, none⟩
/-- PRBS_ERR. -/
def cPrbsErr : CtrId := ⟨3, 10, 8, none⟩
/-- BSEQ_GAP. -/
def cBseqGap : CtrId := ⟨3, 10, 9, (some 16)⟩
/-- BSEQ_LATE. -/
def cBseqLate : CtrId := ⟨3, 10, 10, (some 17)⟩
/-- FOREIGN_LOTS. -/
def cForeignLots : CtrId := ⟨3, 10, 11, (some 18)⟩
/-- LANE_EXCLUDE. -/
def cLaneExclude : CtrId := ⟨3, 10, 12, none⟩
/-- PRI_CONFLICT. -/
def cPriConflict : CtrId := ⟨3, 10, 13, none⟩
/-- PRI_ABSENT. -/
def cPriAbsent : CtrId := ⟨3, 10, 14, none⟩
/-- RSV_LABEL. -/
def cRsvLabel : CtrId := ⟨3, 10, 15, none⟩
/-- LOTS_OK. -/
def cLotsOk : CtrId := ⟨3, 10, 16, none⟩
/-- BYTES_OK. -/
def cBytesOk : CtrId := ⟨3, 10, 17, none⟩
/-- KEEPALIVE. -/
def cKeepalive : CtrId := ⟨3, 10, 18, none⟩
/-- UNEQUIPPED. -/
def cUnequipped : CtrId := ⟨3, 10, 19, none⟩
/-- PLM_LOTS. -/
def cPlmLots : CtrId := ⟨3, 10, 20, none⟩
/-- WRONG_GROUP. -/
def cWrongGroup : CtrId := ⟨3, 10, 21, none⟩
/-- NO_KEY. -/
def cNoKey : CtrId := ⟨3, 10, 22, none⟩
/-- AUTH_FAIL. -/
def cAuthFail : CtrId := ⟨3, 10, 23, none⟩
/-- CLEAR_REJECT. -/
def cClearReject : CtrId := ⟨3, 10, 24, none⟩
/-- LEN_ERR. -/
def cLenErr : CtrId := ⟨3, 10, 25, none⟩
/-- FCS_ERR. -/
def cFcsErr : CtrId := ⟨3, 10, 26, none⟩
/-- SHEAF_MALFORMED. -/
def cSheafMalformed : CtrId := ⟨3, 10, 27, none⟩
/-- FRAG_ERR. -/
def cFragErr : CtrId := ⟨3, 10, 28, none⟩
/-- FRAG_OVERSIZE. -/
def cFragOversize : CtrId := ⟨3, 10, 29, none⟩
/-- FRAG_ABANDON. -/
def cFragAbandon : CtrId := ⟨3, 10, 30, none⟩

/-! Table 4-7 -/
/-- BURSTS. -/
def cBursts : CtrId := ⟨4, 7, 0, (some 19)⟩
/-- STATUS_BURSTS. -/
def cStatusBursts : CtrId := ⟨4, 7, 1, (some 20)⟩
/-- CW_SENT. -/
def cCwSent : CtrId := ⟨4, 7, 2, none⟩
/-- LOTS_SENT. -/
def cLotsSent : CtrId := ⟨4, 7, 3, (some 21)⟩
/-- LOT_BYTES. -/
def cLotBytes : CtrId := ⟨4, 7, 4, (some 22)⟩
/-- FRAGS_SENT. -/
def cFragsSent : CtrId := ⟨4, 7, 5, none⟩
/-- FILL_BYTES. -/
def cFillBytes : CtrId := ⟨4, 7, 6, none⟩
/-- MSG_SENT. -/
def cMsgSent : CtrId := ⟨4, 7, 7, none⟩
/-- FURROW_SKIPPED. -/
def cFurrowSkipped : CtrId := ⟨4, 7, 8, (some 23)⟩
/-- BURST_CUT. -/
def cBurstCut : CtrId := ⟨4, 7, 9, (some 24)⟩
/-- FURROW_STORE_FULL. -/
def cFurrowStoreFull : CtrId := ⟨4, 7, 10, none⟩
/-- FURROW_OVERLAP. -/
def cFurrowOverlap : CtrId := ⟨4, 7, 11, none⟩
/-- WD_TRIP. -/
def cWdTrip : CtrId := ⟨4, 7, 12, (some 25)⟩
/-- LASER_ON_GRAINS. -/
def cLaserOnGrains : CtrId := ⟨4, 7, 13, none⟩
/-- FMAP_CRC_ERR. -/
def cFmapCrcErr : CtrId := ⟨4, 7, 14, none⟩
/-- FURROW_INVALID. -/
def cFurrowInvalid : CtrId := ⟨4, 7, 15, none⟩
/-- FURROW_WRONG_LANE. -/
def cFurrowWrongLane : CtrId := ⟨4, 7, 16, none⟩
/-- DNF_DEFERRED. -/
def cDnfDeferred : CtrId := ⟨4, 7, 17, none⟩
/-- DNF_DROPPED. -/
def cDnfDropped : CtrId := ⟨4, 7, 18, none⟩
/-- FRAG_ABANDON_TX. -/
def cFragAbandonTx : CtrId := ⟨4, 7, 19, none⟩

/-! Table 5-9 -/
/-- FMSG_RX. -/
def cFmsgRx : CtrId := ⟨5, 9, 0, none⟩
/-- FMSG_TAG_ERR. -/
def cFmsgTagErr : CtrId := ⟨5, 9, 1, (some 26)⟩
/-- FMSG_BAD_ADDR. -/
def cFmsgBadAddr : CtrId := ⟨5, 9, 2, none⟩
/-- FMSG_UNKNOWN_TYPE. -/
def cFmsgUnknownType : CtrId := ⟨5, 9, 3, none⟩
/-- FMSG_DUP. -/
def cFmsgDup : CtrId := ⟨5, 9, 4, none⟩
/-- FMSG_STALE. -/
def cFmsgStale : CtrId := ⟨5, 9, 5, (some 27)⟩
/-- MSG_TX_OVERFLOW. -/
def cMsgTxOverflow : CtrId := ⟨5, 9, 6, none⟩
/-- ANN_SENT. -/
def cAnnSent : CtrId := ⟨5, 9, 7, none⟩
/-- RNG_SENT. -/
def cRngSent : CtrId := ⟨5, 9, 8, none⟩
/-- RNG_WINDOW_UNUSABLE. -/
def cRngWindowUnusable : CtrId := ⟨5, 9, 9, none⟩
/-- REV_REJECT. -/
def cRevReject : CtrId := ⟨5, 9, 10, none⟩
/-- PARENT_SWITCH. -/
def cParentSwitch : CtrId := ⟨5, 9, 11, (some 28)⟩
/-- SWITCH_BLOCKED. -/
def cSwitchBlocked : CtrId := ⟨5, 9, 12, (some 29)⟩

/-! Table 7-14 -/
/-- SOW_UNUSED. -/
def cSowUnused : CtrId := ⟨7, 14, 0, none⟩
/-- SOW_AUTH_FAIL. -/
def cSowAuthFail : CtrId := ⟨7, 14, 1, none⟩
/-- SOW_INVALID. -/
def cSowInvalid : CtrId := ⟨7, 14, 2, none⟩
/-- SOW_NO_REF. -/
def cSowNoRef : CtrId := ⟨7, 14, 3, none⟩
/-- SOW_NO_DELAY. -/
def cSowNoDelay : CtrId := ⟨7, 14, 4, none⟩
/-- SOW_DNU. -/
def cSowDnu : CtrId := ⟨7, 14, 5, none⟩
/-- SOW_ACCEPTED. -/
def cSowAccepted : CtrId := ⟨7, 14, 6, none⟩
/-- SOW_USED. -/
def cSowUsed : CtrId := ⟨7, 14, 7, none⟩
/-- SERVO_STEP. -/
def cServoStep : CtrId := ⟨7, 14, 8, none⟩
/-- PLANT_OK. -/
def cPlantOk : CtrId := ⟨7, 14, 9, none⟩
/-- PLANT_AUTH_FAIL. -/
def cPlantAuthFail : CtrId := ⟨7, 14, 10, none⟩
/-- PPS_IN_EDGES. -/
def cPpsInEdges : CtrId := ⟨7, 14, 11, none⟩
/-- PPS_IN_GLITCH. -/
def cPpsInGlitch : CtrId := ⟨7, 14, 12, none⟩

/-! Table 8-8 -/
/-- RX_OCTETS. -/
def cRxOctets : CtrId := ⟨8, 8, 0, none⟩
/-- RX_OCTETS_OK. -/
def cRxOctetsOk : CtrId := ⟨8, 8, 1, none⟩
/-- RX_FRAMES_OK. -/
def cRxFramesOk : CtrId := ⟨8, 8, 2, none⟩
/-- RX_64, first of 9. -/
def cRx64 (i : Nat) : CtrId := ⟨8, 8, 3 + i, none⟩
/-- RX_UNICAST. -/
def cRxUnicast : CtrId := ⟨8, 8, 12, none⟩
/-- RX_MULTICAST. -/
def cRxMulticast : CtrId := ⟨8, 8, 13, none⟩
/-- RX_BROADCAST. -/
def cRxBroadcast : CtrId := ⟨8, 8, 14, none⟩
/-- RX_TIME. -/
def cRxTime : CtrId := ⟨8, 8, 15, none⟩
/-- RX_PAUSE. -/
def cRxPause : CtrId := ⟨8, 8, 16, none⟩
/-- RX_FCS_ERR. -/
def cRxFcsErr : CtrId := ⟨8, 8, 17, none⟩
/-- RX_RUNT. -/
def cRxRunt : CtrId := ⟨8, 8, 18, none⟩
/-- RX_FRAGMENT. -/
def cRxFragment : CtrId := ⟨8, 8, 19, none⟩
/-- RX_OVERSIZE. -/
def cRxOversize : CtrId := ⟨8, 8, 20, none⟩
/-- RX_JABBER. -/
def cRxJabber : CtrId := ⟨8, 8, 21, none⟩
/-- RX_BLOCK_ERR. -/
def cRxBlockErr : CtrId := ⟨8, 8, 22, none⟩
/-- RX_DROP_FILTER. -/
def cRxDropFilter : CtrId := ⟨8, 8, 23, none⟩
/-- RX_DROP_NOBUF. -/
def cRxDropNobuf : CtrId := ⟨8, 8, 24, none⟩
/-- RX_DROP_STANDBY. -/
def cRxDropStandby : CtrId := ⟨8, 8, 25, none⟩
/-- FILTER_HITS, first of 32. -/
def cFilterHits (i : Nat) : CtrId := ⟨8, 8, 26 + i, none⟩
/-- IDLE_INSERT. -/
def cIdleInsert : CtrId := ⟨8, 8, 58, none⟩
/-- IDLE_DELETE. -/
def cIdleDelete : CtrId := ⟨8, 8, 59, none⟩
/-- FEC_CW_CORRECTED. -/
def cFecCwCorrected : CtrId := ⟨8, 8, 60, none⟩
/-- FEC_SYM_CORRECTED. -/
def cFecSymCorrected : CtrId := ⟨8, 8, 61, none⟩
/-- FEC_CW_UNCORRECTABLE. -/
def cFecCwUncorrectable : CtrId := ⟨8, 8, 62, none⟩
/-- LINK_UP. -/
def cLinkUp : CtrId := ⟨8, 8, 63, none⟩
/-- LINK_DOWN. -/
def cLinkDown : CtrId := ⟨8, 8, 64, none⟩
/-- HI_BER. -/
def cHiBer : CtrId := ⟨8, 8, 65, none⟩
/-- BLOCK_LOCK_LOSS. -/
def cBlockLockLoss : CtrId := ⟨8, 8, 66, none⟩
/-- TX_OCTETS. -/
def cTxOctets : CtrId := ⟨8, 8, 67, none⟩
/-- TX_FRAMES. -/
def cTxFrames : CtrId := ⟨8, 8, 68, none⟩
/-- TX_64, first of 9. -/
def cTx64 (i : Nat) : CtrId := ⟨8, 8, 69 + i, none⟩
/-- TX_UNICAST. -/
def cTxUnicast : CtrId := ⟨8, 8, 78, none⟩
/-- TX_MULTICAST. -/
def cTxMulticast : CtrId := ⟨8, 8, 79, none⟩
/-- TX_BROADCAST. -/
def cTxBroadcast : CtrId := ⟨8, 8, 80, none⟩
/-- TX_TIME. -/
def cTxTime : CtrId := ⟨8, 8, 81, none⟩
/-- TX_PAUSE. -/
def cTxPause : CtrId := ⟨8, 8, 82, none⟩
/-- TX_PADDED. -/
def cTxPadded : CtrId := ⟨8, 8, 83, none⟩
/-- TX_DROP_OVERSIZE. -/
def cTxDropOversize : CtrId := ⟨8, 8, 84, none⟩
/-- TX_DROP_LINKDOWN. -/
def cTxDropLinkdown : CtrId := ⟨8, 8, 85, none⟩
/-- TX_DROP_STANDBY. -/
def cTxDropStandby : CtrId := ⟨8, 8, 86, none⟩
/-- TX_DROP_SHEAF. -/
def cTxDropSheaf : CtrId := ⟨8, 8, 87, none⟩
/-- TX_SHEAF_SEGMENTS. -/
def cTxSheafSegments : CtrId := ⟨8, 8, 88, none⟩

/-! Table 9-8 -/
/-- PTP_SYNC_TX. -/
def cPtpSyncTx : CtrId := ⟨9, 8, 0, none⟩
/-- PTP_FOLLOWUP_TX. -/
def cPtpFollowupTx : CtrId := ⟨9, 8, 1, none⟩
/-- PTP_ANNOUNCE_TX. -/
def cPtpAnnounceTx : CtrId := ⟨9, 8, 2, none⟩
/-- PTP_DELAY_RESP_TX. -/
def cPtpDelayRespTx : CtrId := ⟨9, 8, 3, none⟩
/-- PTP_DELAY_REQ_RX. -/
def cPtpDelayReqRx : CtrId := ⟨9, 8, 4, none⟩
/-- PTP_SIGNAL_RX. -/
def cPtpSignalRx : CtrId := ⟨9, 8, 5, none⟩
/-- PTP_GRANTS. -/
def cPtpGrants : CtrId := ⟨9, 8, 6, none⟩
/-- PTP_DENIED. -/
def cPtpDenied : CtrId := ⟨9, 8, 7, none⟩
/-- PTP_RX_IGNORED. -/
def cPtpRxIgnored : CtrId := ⟨9, 8, 8, none⟩
/-- PTP_RX_MALFORMED. -/
def cPtpRxMalformed : CtrId := ⟨9, 8, 9, none⟩
/-- PPS_OUT_SUPPRESSED. -/
def cPpsOutSuppressed : CtrId := ⟨9, 8, 10, none⟩

/-! Table 10-10 -/
/-- PARSED. -/
def cParsed : CtrId := ⟨10, 10, 0, none⟩
/-- STOP_DEPTH. -/
def cStopDepth : CtrId := ⟨10, 10, 1, none⟩
/-- STOP_WINDOW. -/
def cStopWindow : CtrId := ⟨10, 10, 2, none⟩
/-- STOP_TRUNC. -/
def cStopTrunc : CtrId := ⟨10, 10, 3, none⟩
/-- STOP_LEN. -/
def cStopLen : CtrId := ⟨10, 10, 4, none⟩
/-- STOP_FRAG. -/
def cStopFrag : CtrId := ⟨10, 10, 5, none⟩
/-- LIC_DROP. -/
def cLicDrop : CtrId := ⟨10, 10, 6, none⟩
/-- NO_START. -/
def cNoStart : CtrId := ⟨10, 10, 7, none⟩
/-- PAT_HIT, first of 64. -/
def cPatHit (i : Nat) : CtrId := ⟨10, 10, 8 + i, none⟩

/-! Table 11-10 -/
/-- TERN_LOOKUPS. -/
def cTernLookups : CtrId := ⟨11, 10, 0, none⟩
/-- TERN_MISS. -/
def cTernMiss : CtrId := ⟨11, 10, 1, none⟩
/-- EM_LOOKUPS. -/
def cEmLookups : CtrId := ⟨11, 10, 2, none⟩
/-- EM_HITS. -/
def cEmHits : CtrId := ⟨11, 10, 3, none⟩
/-- EM_STASH_HITS. -/
def cEmStashHits : CtrId := ⟨11, 10, 4, none⟩
/-- EM_STALL. -/
def cEmStall : CtrId := ⟨11, 10, 5, none⟩
/-- EM_ECC_CORR. -/
def cEmEccCorr : CtrId := ⟨11, 10, 6, none⟩
/-- EM_ECC_UNCORR. -/
def cEmEccUncorr : CtrId := ⟨11, 10, 7, none⟩
/-- EM_MOVES. -/
def cEmMoves : CtrId := ⟨11, 10, 8, none⟩
/-- REHASH. -/
def cRehash : CtrId := ⟨11, 10, 9, none⟩
/-- COMMITS. -/
def cCommits : CtrId := ⟨11, 10, 10, none⟩
/-- RETIRES. -/
def cRetires : CtrId := ⟨11, 10, 11, none⟩
/-- RECIRC_LIMIT. -/
def cRecircLimit : CtrId := ⟨11, 10, 12, none⟩

/-! Table 12-9 -/
/-- PASSES. -/
def cPasses : CtrId := ⟨12, 9, 0, none⟩
/-- INSNS. -/
def cInsns : CtrId := ⟨12, 9, 1, none⟩
/-- EMITS. -/
def cEmits : CtrId := ⟨12, 9, 2, none⟩
/-- DROPS. -/
def cDrops : CtrId := ⟨12, 9, 3, none⟩
/-- RECIRCS. -/
def cRecircs : CtrId := ⟨12, 9, 4, none⟩
/-- TRAPS. -/
def cTraps : CtrId := ⟨12, 9, 5, none⟩
/-- FAULTS. -/
def cFaults : CtrId := ⟨12, 9, 6, none⟩
/-- NO_PROG. -/
def cNoProg : CtrId := ⟨12, 9, 7, none⟩
/-- DISPATCH_STALL. -/
def cDispatchStall : CtrId := ⟨12, 9, 8, none⟩
/-- TRAP_DROP. -/
def cTrapDrop : CtrId := ⟨12, 9, 9, none⟩
/-- FAULT_LOG_LOST. -/
def cFaultLogLost : CtrId := ⟨12, 9, 10, none⟩

/-! Table 14-6 -/
/-- SAMPLES. -/
def cSamples : CtrId := ⟨14, 6, 0, none⟩
/-- SAMPLE_COLLIDE. -/
def cSampleCollide : CtrId := ⟨14, 6, 1, none⟩
/-- SAMPLE_LOST. -/
def cSampleLost : CtrId := ⟨14, 6, 2, none⟩

/-! Table 15-11 -/
/-- ENQ_FRAMES. -/
def cEnqFrames : CtrId := ⟨15, 11, 0, none⟩
/-- ENQ_BYTES. -/
def cEnqBytes : CtrId := ⟨15, 11, 1, none⟩
/-- DEQ_FRAMES. -/
def cDeqFrames : CtrId := ⟨15, 11, 2, none⟩
/-- DEQ_BYTES. -/
def cDeqBytes : CtrId := ⟨15, 11, 3, none⟩
/-- DROP_G. -/
def cDropG : CtrId := ⟨15, 11, 4, none⟩
/-- DROP_Y. -/
def cDropY : CtrId := ⟨15, 11, 5, none⟩
/-- DROP_R. -/
def cDropR : CtrId := ⟨15, 11, 6, none⟩
/-- FLUSHED. -/
def cFlushed : CtrId := ⟨15, 11, 7, none⟩
/-- TAIL_DISCARD. -/
def cTailDiscard : CtrId := ⟨15, 11, 8, none⟩
/-- FLOOR_DROP. -/
def cFloorDrop : CtrId := ⟨15, 11, 9, none⟩
/-- EMIT_NOBUF. -/
def cEmitNobuf : CtrId := ⟨15, 11, 10, none⟩
/-- QUEUE_REFUSED. -/
def cQueueRefused : CtrId := ⟨15, 11, 11, none⟩
/-- LINE_NOBUF. -/
def cLineNobuf : CtrId := ⟨15, 11, 12, none⟩
/-- METER_GREEN. -/
def cMeterGreen : CtrId := ⟨15, 11, 13, none⟩
/-- METER_YELLOW. -/
def cMeterYellow : CtrId := ⟨15, 11, 14, none⟩
/-- METER_RED. -/
def cMeterRed : CtrId := ⟨15, 11, 15, none⟩

/-! Table 16-8 -/
/-- CRY_RX_OVERRUN. -/
def cCryRxOverrun : CtrId := ⟨16, 8, 0, none⟩
/-- CRY_TX_LATE. -/
def cCryTxLate : CtrId := ⟨16, 8, 1, none⟩
/-- NONCE_DEFER. -/
def cNonceDefer : CtrId := ⟨16, 8, 2, none⟩
/-- CRY_ABORTED. -/
def cCryAborted : CtrId := ⟨16, 8, 3, none⟩
/-- KEY_LOADS. -/
def cKeyLoads : CtrId := ⟨16, 8, 4, none⟩
/-- KEY_UNWRAP_FAIL. -/
def cKeyUnwrapFail : CtrId := ⟨16, 8, 5, none⟩
/-- ENTROPY_FAIL. -/
def cEntropyFail : CtrId := ⟨16, 8, 6, none⟩

/-! Table 18-14 -/
/-- ENTRIES. -/
def cEntries : CtrId := ⟨18, 14, 0, none⟩
/-- ABANDONED. -/
def cAbandoned : CtrId := ⟨18, 14, 1, none⟩
/-- WAKES, first of 9. -/
def cWakes (i : Nat) : CtrId := ⟨18, 14, 2 + i, none⟩
/-- ROUSE_MATCH. -/
def cRouseMatch : CtrId := ⟨18, 14, 11, none⟩
/-- LISTENS. -/
def cListens : CtrId := ⟨18, 14, 12, none⟩
/-- NOTICE_UNSENT. -/
def cNoticeUnsent : CtrId := ⟨18, 14, 13, none⟩
/-- DRAIN_DROP. -/
def cDrainDrop : CtrId := ⟨18, 14, 14, none⟩
/-- BANK_FAIL. -/
def cBankFail : CtrId := ⟨18, 14, 15, none⟩
/-- RET_DISCARD. -/
def cRetDiscard : CtrId := ⟨18, 14, 16, none⟩

/-! Table 19-10 -/
/-- TAKEOVERS. -/
def cTakeovers : CtrId := ⟨19, 10, 0, none⟩
/-- YIELDS. -/
def cYields : CtrId := ⟨19, 10, 1, none⟩
/-- LEASE_LAPSE. -/
def cLeaseLapse : CtrId := ⟨19, 10, 2, none⟩
/-- ROLE_DROP. -/
def cRoleDrop : CtrId := ⟨19, 10, 3, none⟩
/-- CLAIM_BACKOFF. -/
def cClaimBackoff : CtrId := ⟨19, 10, 4, none⟩
/-- TETHER_DOWN. -/
def cTetherDown : CtrId := ⟨19, 10, 5, none⟩
/-- TETHER_CRC_ERR. -/
def cTetherCrcErr : CtrId := ⟨19, 10, 6, none⟩
/-- MIRROR_SENT. -/
def cMirrorSent : CtrId := ⟨19, 10, 7, none⟩
/-- MIRROR_REFUSED. -/
def cMirrorRefused : CtrId := ⟨19, 10, 8, none⟩
/-- MIRROR_NO_ACK. -/
def cMirrorNoAck : CtrId := ⟨19, 10, 9, none⟩
/-- OUT_OF_STEP. -/
def cOutOfStep : CtrId := ⟨19, 10, 10, none⟩
/-- REJOINS. -/
def cRejoins : CtrId := ⟨19, 10, 11, none⟩
/-- REJOIN_FAIL. -/
def cRejoinFail : CtrId := ⟨19, 10, 12, none⟩
/-- STANDBY_UP_DROP. -/
def cStandbyUpDrop : CtrId := ⟨19, 10, 13, none⟩
/-- STANDBY_FLUSH. -/
def cStandbyFlush : CtrId := ⟨19, 10, 14, none⟩

/-! Table 20-8 -/
/-- MGMT_RX. -/
def cMgmtRx : CtrId := ⟨20, 8, 0, none⟩
/-- MGMT_DENIED. -/
def cMgmtDenied : CtrId := ⟨20, 8, 1, none⟩
/-- MGMT_CLEAR. -/
def cMgmtClear : CtrId := ⟨20, 8, 2, none⟩
/-- MGMT_OVERFLOW. -/
def cMgmtOverflow : CtrId := ⟨20, 8, 3, none⟩
/-- EVENTS_LOST. -/
def cEventsLost : CtrId := ⟨20, 8, 4, none⟩

/-- The scope kind (Table 21-2) of each counter of a table, in number order; 0x1A stands for
both kinds of queue (R608). -/
def ctrKinds (ch tbl : Nat) : List Nat :=
  if ch = 2 ∧ tbl = 8 then List.replicate 13 0x01 else
  if ch = 3 ∧ tbl = 10 then List.replicate 9 0x01 ++ List.replicate 7 0x03 ++ List.replicate 15 0x08 else
  if ch = 4 ∧ tbl = 7 then List.replicate 14 0x02 ++ List.replicate 3 0x03 ++ List.replicate 3 0x0B else
  if ch = 5 ∧ tbl = 9 then List.replicate 13 0x04 else
  if ch = 7 ∧ tbl = 14 then List.replicate 1 0x04 ++ List.replicate 8 0x05 ++ List.replicate 2 0x03 ++ List.replicate 2 0x00 else
  if ch = 8 ∧ tbl = 8 then List.replicate 89 0x06 else
  if ch = 9 ∧ tbl = 8 then List.replicate 10 0x06 ++ List.replicate 1 0x00 else
  if ch = 10 ∧ tbl = 10 then List.replicate 72 0x00 else
  if ch = 11 ∧ tbl = 10 then List.replicate 13 0x00 else
  if ch = 12 ∧ tbl = 9 then List.replicate 8 0x0F ++ List.replicate 3 0x00 else
  if ch = 14 ∧ tbl = 6 then List.replicate 3 0x0D else
  if ch = 15 ∧ tbl = 11 then List.replicate 8 0x1A ++ List.replicate 4 0x00 ++ List.replicate 1 0x03 ++ List.replicate 3 0x00 else
  if ch = 16 ∧ tbl = 8 then List.replicate 1 0x03 ++ List.replicate 1 0x02 ++ List.replicate 1 0x0B ++ List.replicate 4 0x00 else
  if ch = 18 ∧ tbl = 14 then List.replicate 17 0x00 else
  if ch = 19 ∧ tbl = 10 then List.replicate 15 0x00 else
  if ch = 20 ∧ tbl = 8 then List.replicate 4 0x04 ++ List.replicate 1 0x00 else
  []

end Sys2Proof.Machine
end

