-- ==== Sys2Proof/Machine/Tab.lean ====
section
/-! DEFINITION. A sparse table keyed by numbers: the one shape of every array, memory and store
of the model. A listed key is never paired with the value an unlisted key reads as, and keys rise
strictly, so that equal tables are equal lists. -/
namespace Sys2Proof.Machine

/-- A sparse table from a number to `α`; an unlisted key reads as the table's default. -/
abbrev Tab (α : Type) := List (Nat × α)

variable {α : Type}

/-- What key `k` reads as in `t`, `d` being what an unlisted key reads as. -/
def tabGet (d : α) : Tab α → Nat → α
  | [], _ => d
  | (j, v) :: t, k => if j = k then v else tabGet d t k

/-- `t` without its entry for `k`. -/
def tabErase : Tab α → Nat → Tab α
  | [], _ => []
  | (j, v) :: t, k => if j = k then tabErase t k else (j, v) :: tabErase t k

/-- Put `(k, v)` before the first greater key. -/
def tabInsert (k : Nat) (v : α) : Tab α → Tab α
  | [] => [(k, v)]
  | (j, w) :: t => if k < j then (k, v) :: (j, w) :: t else (j, w) :: tabInsert k v t

/-- Give key `k` the value `v`; writing the default removes the entry. -/
def tabSet [DecidableEq α] (d : α) (t : Tab α) (k : Nat) (v : α) : Tab α :=
  if v = d then tabErase t k else tabInsert k v (tabErase t k)

/-- Apply `f` to what key `k` reads as. -/
def tabMod [DecidableEq α] (d : α) (t : Tab α) (k : Nat) (f : α → α) : Tab α :=
  tabSet d t k (f (tabGet d t k))

/-- Is `k` listed? -/
def tabHas (t : Tab α) (k : Nat) : Bool := t.any (fun p => p.1 == k)

/-- Do the keys rise strictly from above `lo`, no value being the default? -/
def tabWfFrom [DecidableEq α] (d : α) : Option Nat → Tab α → Bool
  | _, [] => true
  | lo, (k, v) :: t =>
    (match lo with
      | none => true
      | some l => decide (l < k)) && decide (v ≠ d) && tabWfFrom d (some k) t

/-- The canonical form of a table. -/
def tabWf [DecidableEq α] (d : α) (t : Tab α) : Bool := tabWfFrom d none t

/-- Read `n` consecutive keys from `k`. -/
def tabRange (d : α) (t : Tab α) (k : Nat) : Nat → List α
  | 0 => []
  | n + 1 => tabGet d t k :: tabRange d t (k + 1) n

/-- Write a list of values to consecutive keys from `k`. -/
def tabPut [DecidableEq α] (d : α) (t : Tab α) (k : Nat) : List α → Tab α
  | [] => t
  | v :: vs => tabPut d (tabSet d t k v) (k + 1) vs

end Sys2Proof.Machine
end

