-- ==== Sys2Proof/Machine/Settings.lean ====
section
/-! DEFINITION. The settings of the spec's settings tables: place (R555), range and encoding
(R556), default. A value is held as an integer count of the range's step. -/
namespace Sys2Proof.Machine

/-- How a range encodes a value (R556). -/
inductive SKind
  /-- A number from lo to hi steps; two's complement when lo is negative. -/
  | num (lo hi : Int)
  /-- The position of a listed name. -/
  | enum (n : Nat)
  /-- One of the listed numbers. -/
  | listed (vs : List Int)
  /-- An identifier, NONE being 0xFFFF. -/
  | ident (lo hi : Nat)
  /-- A byte string of one of these lengths; length 0 removes it where it can be removed.
  Held as 2^(8 length) plus its value; 0: removed. -/
  | bytes (lens : List Nat) (removable : Bool)
  /-- A bit mask of up to n bytes (KEY_MASK, wider than R556's 8 bytes). -/
  | mask (n : Nat)
  deriving DecidableEq, Repr

/-- A setting: table (chapter * 100 + number), row, position, range, default, number of
ITEM_INDEX values, and whether its table states device scope. -/
structure SSpec where
  tbl : Nat
  row : Nat
  pos : Nat
  kind : SKind
  dflt : Int
  idx : Nat
  dev : Bool
  deriving DecidableEq, Repr

/-- Table 2-1, row 1, position 0. -/
def sLaneEnable : SSpec := ⟨201, 1, 0, .enum 2, 0, 1, false⟩
/-- Table 2-1, row 2, position 0. -/
def sCtleMode : SSpec := ⟨201, 2, 0, .enum 2, 1, 1, false⟩
/-- Table 2-1, row 3, position 0. -/
def sCtleCode : SSpec := ⟨201, 3, 0, .num 0 36, 12, 1, false⟩
/-- Table 2-1, row 4, position 0. -/
def sAdaptMin : SSpec := ⟨201, 4, 0, .num 0 36, 0, 1, false⟩
/-- Table 2-1, row 5, position 0. -/
def sAdaptMax : SSpec := ⟨201, 5, 0, .num 0 36, 36, 1, false⟩
/-- Table 5-6, row 1, position 0. -/
def sToProfile : SSpec := ⟨506, 1, 0, .num 10 10000, 1000, 1, false⟩
/-- Table 5-6, row 2, position 0. -/
def sToRange : SSpec := ⟨506, 2, 0, .num 100 60000, 10000, 1, false⟩
/-- Table 5-6, row 3, position 0. -/
def sToHold : SSpec := ⟨506, 3, 0, .num 0 60000, 2000, 1, false⟩
/-- Table 5-6, row 4, position 0. -/
def sToTune : SSpec := ⟨506, 4, 0, .num 100 30000, 5000, 1, false⟩
/-- Table 6-2, row 1, position 0. -/
def sSdSet : SSpec := ⟨602, 1, 0, .num 1 5570560000, 5571, 1, true⟩
/-- Table 6-2, row 2, position 0. -/
def sSdClr : SSpec := ⟨602, 2, 0, .num 1 5570560000, 557, 1, true⟩
/-- Table 6-2, row 3, position 0. -/
def sSfSet : SSpec := ⟨602, 3, 0, .num 1 80000, 8, 1, true⟩
/-- Table 6-2, row 4, position 0. -/
def sSfClr : SSpec := ⟨602, 4, 0, .num 1 80000, 1, 1, true⟩
/-- Table 6-2, row 5, position 0. -/
def sSesUc : SSpec := ⟨602, 5, 0, .num 1 9765625, 977, 1, true⟩
/-- Table 6-2, row 6, position 0. -/
def sLtmTimeout : SSpec := ⟨602, 6, 0, .num 16 4096, 64, 1, true⟩
/-- Table 6-3, row 1, position 0. -/
def sRdiLos : SSpec := ⟨603, 1, 0, .enum 3, 1, 1, false⟩
/-- Table 6-3, row 1, position 1. -/
def sSwitchLos : SSpec := ⟨603, 1, 1, .enum 3, 2, 1, false⟩
/-- Table 6-3, row 2, position 0. -/
def sRdiLof : SSpec := ⟨603, 2, 0, .enum 3, 1, 1, false⟩
/-- Table 6-3, row 2, position 1. -/
def sSwitchLof : SSpec := ⟨603, 2, 1, .enum 3, 2, 1, false⟩
/-- Table 6-3, row 3, position 0. -/
def sRdiLol : SSpec := ⟨603, 3, 0, .enum 3, 1, 1, false⟩
/-- Table 6-3, row 3, position 1. -/
def sSwitchLol : SSpec := ⟨603, 3, 1, .enum 3, 2, 1, false⟩
/-- Table 6-3, row 4, position 0. -/
def sRdiSd : SSpec := ⟨603, 4, 0, .enum 3, 0, 1, false⟩
/-- Table 6-3, row 4, position 1. -/
def sSwitchSd : SSpec := ⟨603, 4, 1, .enum 3, 0, 1, false⟩
/-- Table 6-3, row 5, position 0. -/
def sRdiSf : SSpec := ⟨603, 5, 0, .enum 3, 1, 1, false⟩
/-- Table 6-3, row 5, position 1. -/
def sSwitchSf : SSpec := ⟨603, 5, 1, .enum 3, 2, 1, false⟩
/-- Table 6-3, row 6, position 0. -/
def sRdiPlm : SSpec := ⟨603, 6, 0, .enum 2, 0, 1, false⟩
/-- Table 6-3, row 6, position 1. -/
def sSwitchPlm : SSpec := ⟨603, 6, 1, .enum 2, 0, 1, false⟩
/-- Table 6-3, row 7, position 0. -/
def sRdiLtm : SSpec := ⟨603, 7, 0, .enum 2, 0, 1, false⟩
/-- Table 6-3, row 7, position 1. -/
def sSwitchLtm : SSpec := ⟨603, 7, 1, .enum 2, 0, 1, false⟩
/-- Table 6-3, row 8, position 0. -/
def sRdiTaf : SSpec := ⟨603, 8, 0, .enum 2, 0, 1, false⟩
/-- Table 6-3, row 8, position 1. -/
def sSwitchTaf : SSpec := ⟨603, 8, 1, .enum 2, 0, 1, false⟩
/-- Table 6-3, row 9, position 1. -/
def sSwitchHoldover : SSpec := ⟨603, 9, 1, .enum 2, 1, 1, false⟩
/-- Table 6-3, row 10, position 0. -/
def sForceRdi : SSpec := ⟨603, 10, 0, .listed [0, 1], 0, 1, false⟩
/-- Table 6-3, row 11, position 1. -/
def sHoldOff : SSpec := ⟨603, 11, 1, .num 0 1000, 50, 1, false⟩
/-- Table 7-2, row 1, position 0. -/
def sDomEnable : SSpec := ⟨702, 1, 0, .listed [0, 1], 1, 1, false⟩
/-- Table 7-2, row 2, position 0. -/
def sServoBw : SSpec := ⟨702, 2, 0, .num 1 100, 10, 1, false⟩
/-- Table 7-2, row 3, position 0. -/
def sLockThresh : SSpec := ⟨702, 3, 0, .num 27 5313, 266, 1, false⟩
/-- Table 7-2, row 4, position 0. -/
def sStepLimit : SSpec := ⟨702, 4, 0, .num 5313 5312500, 53125, 1, false⟩
/-- Table 7-2, row 5, position 0. -/
def sHoldAvg : SSpec := ⟨702, 5, 0, .num 16 4096, 1024, 1, false⟩
/-- Table 7-2, row 6, position 0. -/
def sHoldValid : SSpec := ⟨702, 6, 0, .num 0 86400, 3600, 1, false⟩
/-- Table 7-2, row 7, position 0. -/
def sSelectMode : SSpec := ⟨702, 7, 0, .enum 2, 1, 1, true⟩
/-- Table 7-2, row 8, position 0. -/
def sSlewRate : SSpec := ⟨702, 8, 0, .num 1 1000, 20, 1, true⟩
/-- Table 7-9, row 1, position 0. -/
def sAsymMode : SSpec := ⟨709, 1, 0, .enum 3, 0, 1, true⟩
/-- Table 7-9, row 2, position 0. -/
def sLambda0 : SSpec := ⟨709, 2, 0, .num 1300000 1324000, 1312000, 1, true⟩
/-- Table 7-9, row 3, position 0. -/
def sLambda0Sigma : SSpec := ⟨709, 3, 0, .num 1 120, 60, 1, true⟩
/-- Table 7-9, row 4, position 0. -/
def sS0 : SSpec := ⟨709, 4, 0, .num 700 920, 850, 1, true⟩
/-- Table 7-9, row 5, position 0. -/
def sS0Sigma : SSpec := ⟨709, 5, 0, .num 1 100, 50, 1, true⟩
/-- Table 7-9, row 6, position 0. -/
def sNg0 : SSpec := ⟨709, 6, 0, .num 14600 14800, 14676, 1, true⟩
/-- Table 7-9, row 7, position 0. -/
def sFixedShare : SSpec := ⟨709, 7, 0, .num 1717986919 2576980377, 2147483648, 1, true⟩
/-- Table 7-9, row 8, position 0. -/
def sFitWindow : SSpec := ⟨709, 8, 0, .num 1024 65536, 8192, 1, true⟩
/-- Table 7-9, row 9, position 0. -/
def sBRx : SSpec := ⟨709, 9, 0, .num (-1000000) 1000000, 0, 4, true⟩
/-- Table 7-9, row 9, position 1. -/
def sBTx : SSpec := ⟨709, 9, 1, .num (-1000000) 1000000, 0, 2, true⟩
/-- Table 8-2, row 1, position 0. -/
def sPortMode : SSpec := ⟨802, 1, 0, .enum 3, 0, 1, true⟩
/-- Table 8-2, row 2, position 0. -/
def sPortEnable : SSpec := ⟨802, 2, 0, .listed [0, 1], 0, 1, false⟩
/-- Table 8-2, row 3, position 0. -/
def sFec : SSpec := ⟨802, 3, 0, .enum 2, 0, 1, false⟩
/-- Table 8-2, row 4, position 0. -/
def sMaxFrame : SSpec := ⟨802, 4, 0, .num 1518 9600, 1518, 1, false⟩
/-- Table 8-2, row 5, position 0. -/
def sSTpid : SSpec := ⟨802, 5, 0, .num 0 65535, 34984, 1, false⟩
/-- Table 8-2, row 6, position 0. -/
def sPauseRx : SSpec := ⟨802, 6, 0, .enum 2, 0, 1, false⟩
/-- Table 8-2, row 7, position 0. -/
def sLinkdownTx : SSpec := ⟨802, 7, 0, .enum 2, 0, 1, false⟩
/-- Table 8-2, row 8, position 0. -/
def sLinkUpDelay : SSpec := ⟨802, 8, 0, .num 0 100, 10, 1, false⟩
/-- Table 8-2, row 9, position 0. -/
def sSlCtleMode : SSpec := ⟨802, 9, 0, .enum 2, 1, 8, false⟩
/-- Table 8-2, row 10, position 0. -/
def sSlCtleCode : SSpec := ⟨802, 10, 0, .num 0 12, 4, 8, false⟩
/-- Table 8-2, row 11, position 0. -/
def sSlAdaptMin : SSpec := ⟨802, 11, 0, .num 0 12, 0, 8, false⟩
/-- Table 8-2, row 11, position 1. -/
def sSlAdaptMax : SSpec := ⟨802, 11, 1, .num 0 12, 12, 8, false⟩
/-- Table 8-2, row 12, position 0. -/
def sTxPre : SSpec := ⟨802, 12, 0, .num 0 4, 0, 8, false⟩
/-- Table 8-2, row 13, position 0. -/
def sTxPost : SSpec := ⟨802, 13, 0, .num 0 8, 2, 8, false⟩
/-- Table 8-2, row 14, position 0. -/
def sTxAmp : SSpec := ⟨802, 14, 0, .num 8 20, 16, 8, false⟩
/-- Table 8-2, row 15, position 0. -/
def sRxInvert : SSpec := ⟨802, 15, 0, .listed [0, 1], 0, 8, false⟩
/-- Table 8-2, row 15, position 1. -/
def sTxInvert : SSpec := ⟨802, 15, 1, .listed [0, 1], 0, 8, false⟩
/-- Table 8-6, row 1, position 0. -/
def sSheafEnable : SSpec := ⟨806, 1, 0, .listed [0, 1], 1, 1, false⟩
/-- Table 8-6, row 2, position 0. -/
def sCutMode : SSpec := ⟨806, 2, 0, .enum 2, 0, 1, false⟩
/-- Table 9-1, row 1, position 0. -/
def sPtpProfile : SSpec := ⟨901, 1, 0, .enum 4, 0, 1, false⟩
/-- Table 9-1, row 2, position 0. -/
def sOffer : SSpec := ⟨901, 2, 0, .enum 4, 0, 1, false⟩
/-- Table 9-1, row 3, position 0. -/
def sDnA : SSpec := ⟨901, 3, 0, .num 0 127, (-1), 1, false⟩
/-- Table 9-1, row 3, position 1. -/
def sDnB : SSpec := ⟨901, 3, 1, .num 0 127, (-1), 1, false⟩
/-- Table 9-1, row 4, position 0. -/
def sStepMode : SSpec := ⟨901, 4, 0, .enum 2, 0, 1, false⟩
/-- Table 9-1, row 5, position 0. -/
def sMcastDa : SSpec := ⟨901, 5, 0, .bytes [6] false, (2 ^ 48 + 0x011B19000000), 1, false⟩
/-- Table 9-1, row 6, position 0. -/
def sPriority2 : SSpec := ⟨901, 6, 0, .num 0 255, 128, 1, false⟩
/-- Table 9-1, row 7, position 0. -/
def sPortMac : SSpec := ⟨901, 7, 0, .bytes [6] true, 0, 1, false⟩
/-- Table 9-1, row 8, position 0. -/
def sIpAddr : SSpec := ⟨901, 8, 0, .bytes [4, 16] true, 0, 1, false⟩
/-- Table 9-1, row 9, position 0. -/
def sMaxClients : SSpec := ⟨901, 9, 0, .num 1 64, 64, 1, false⟩
/-- Table 9-1, row 10, position 0. -/
def sGrantMax : SSpec := ⟨901, 10, 0, .num 10 1000, 300, 1, false⟩
/-- Table 9-1, row 11, position 0. -/
def sTsBoardRx : SSpec := ⟨901, 11, 0, .num (-53125) 53125, 0, 1, false⟩
/-- Table 9-1, row 11, position 1. -/
def sTsBoardTx : SSpec := ⟨901, 11, 1, .num (-53125) 53125, 0, 1, false⟩
/-- Table 9-6, row 1, position 0. -/
def sPpsInEnable : SSpec := ⟨906, 1, 0, .listed [0, 1], 0, 1, true⟩
/-- Table 9-6, row 2, position 0. -/
def sPpsOutEnable : SSpec := ⟨906, 2, 0, .listed [0, 1], 0, 1, true⟩
/-- Table 9-6, row 3, position 0. -/
def sPpsWidth : SSpec := ⟨906, 3, 0, .num 1 499, 100, 1, true⟩
/-- Table 9-6, row 4, position 0. -/
def sPpsOffset : SSpec := ⟨906, 4, 0, .num (-1000000) 1000000, 0, 1, true⟩
/-- Table 9-6, row 5, position 0. -/
def sPpsSquelch : SSpec := ⟨906, 5, 0, .enum 2, 1, 1, true⟩
/-- Table 9-6, row 6, position 0. -/
def sTodEnable : SSpec := ⟨906, 6, 0, .listed [0, 1], 0, 1, true⟩
/-- Table 9-6, row 7, position 0. -/
def sRclkMode : SSpec := ⟨906, 7, 0, .enum 3, 0, 1, true⟩
/-- Table 9-6, row 8, position 0. -/
def sRclkSquelch : SSpec := ⟨906, 8, 0, .enum 2, 1, 1, true⟩
/-- Table 12-2, row 6, position 0. -/
def sScrBase : SSpec := ⟨1202, 6, 0, .num 0 131071, 0, 1, false⟩
/-- Table 12-2, row 6, position 1. -/
def sScrLen : SSpec := ⟨1202, 6, 1, .num 0 131072, 0, 1, false⟩
/-- Table 12-2, row 7, position 0. -/
def sSramCh : SSpec := ⟨1202, 7, 0, .num 0 1, 0, 1, false⟩
/-- Table 12-2, row 7, position 1. -/
def sSramBase : SSpec := ⟨1202, 7, 1, .num 0 16777215, 0, 1, false⟩
/-- Table 12-2, row 7, position 2. -/
def sSramLen : SSpec := ⟨1202, 7, 2, .num 0 16777216, 0, 1, false⟩
/-- Table 12-2, row 8, position 0. -/
def sKeyMask : SSpec := ⟨1202, 8, 0, .mask 16, 0, 1, false⟩
/-- Table 12-2, row 9, position 0. -/
def sAllow : SSpec := ⟨1202, 9, 0, .num 0 63, 0, 1, false⟩
/-- Table 12-2, row 10, position 0. -/
def sAffinity : SSpec := ⟨1202, 10, 0, .enum 2, 0, 1, false⟩
/-- Table 12-2, row 11, position 0. -/
def sFaultAction : SSpec := ⟨1202, 11, 0, .enum 2, 0, 1, false⟩
/-- Table 14-2, row 1, position 0. -/
def sPmcEvent : SSpec := ⟨1402, 1, 0, .num 0 20, 0, 6, false⟩
/-- Table 14-2, row 2, position 0. -/
def sPmcMode : SSpec := ⟨1402, 2, 0, .enum 2, 0, 6, false⟩
/-- Table 14-2, row 3, position 0. -/
def sPmcThreadMask : SSpec := ⟨1402, 3, 0, .num 0 255, 255, 6, false⟩
/-- Table 14-2, row 4, position 0. -/
def sPmcProgEn : SSpec := ⟨1402, 4, 0, .listed [0, 1], 0, 6, false⟩
/-- Table 14-2, row 4, position 1. -/
def sPmcProg : SSpec := ⟨1402, 4, 1, .num 0 4095, 0, 6, false⟩
/-- Table 14-2, row 5, position 0. -/
def sUread : SSpec := ⟨1402, 5, 0, .listed [0, 1], 0, 7, false⟩
/-- Table 14-2, row 6, position 0. -/
def sOvfAction : SSpec := ⟨1402, 6, 0, .enum 2, 0, 6, false⟩
/-- Table 14-2, row 7, position 0. -/
def sPmcClear : SSpec := ⟨1402, 7, 0, .listed [0, 1], 0, 1, false⟩
/-- Table 14-4, row 1, position 0. -/
def sTineMask : SSpec := ⟨1404, 1, 0, .num 0 65535, 0, 1, false⟩
/-- Table 14-4, row 2, position 0. -/
def sSampleN : SSpec := ⟨1404, 2, 0, .num 64 16777216, 65536, 1, false⟩
/-- Table 14-4, row 3, position 0. -/
def sSampThreadMask : SSpec := ⟨1404, 3, 0, .num 0 255, 255, 1, false⟩
/-- Table 14-4, row 4, position 0. -/
def sSampProgEn : SSpec := ⟨1404, 4, 0, .listed [0, 1], 0, 1, false⟩
/-- Table 14-4, row 4, position 1. -/
def sSampProg : SSpec := ⟨1404, 4, 1, .num 0 4095, 0, 1, false⟩
/-- Table 14-4, row 5, position 0. -/
def sBufMode : SSpec := ⟨1404, 5, 0, .enum 2, 0, 1, false⟩
/-- Table 15-2, row 1, position 0. -/
def sIngFloor : SSpec := ⟨1502, 1, 0, .num 0 16384, 2048, 1, true⟩
/-- Table 15-2, row 2, position 0. -/
def sPoolFloorY : SSpec := ⟨1502, 2, 0, .num 0 98304, 8192, 1, true⟩
/-- Table 15-2, row 3, position 0. -/
def sPoolFloorR : SSpec := ⟨1502, 3, 0, .num 0 98304, 16384, 1, true⟩
/-- Table 15-4, row 1, position 0. -/
def sQEnable : SSpec := ⟨1504, 1, 0, .listed [0, 1], (-1), 1, false⟩
/-- Table 15-4, row 2, position 0. -/
def sQWeight : SSpec := ⟨1504, 2, 0, .num 1 65535, 1, 1, false⟩
/-- Table 15-4, row 3, position 0. -/
def sQStrict : SSpec := ⟨1504, 3, 0, .listed [0, 1], 0, 1, false⟩
/-- Table 15-4, row 4, position 0. -/
def sQOverhead : SSpec := ⟨1504, 4, 0, .num (-64) 255, (-65), 1, false⟩
/-- Table 15-4, row 5, position 0. -/
def sQMaxG : SSpec := ⟨1504, 5, 0, .num 0 98304, 8192, 1, false⟩
/-- Table 15-4, row 5, position 1. -/
def sQMaxY : SSpec := ⟨1504, 5, 1, .num 0 98304, 6144, 1, false⟩
/-- Table 15-4, row 5, position 2. -/
def sQMaxR : SSpec := ⟨1504, 5, 2, .num 0 98304, 4096, 1, false⟩
/-- Table 15-4, row 6, position 0. -/
def sPlotP : SSpec := ⟨1504, 6, 0, .ident 0 0x3FFE, 65535, 1, false⟩
/-- Table 15-4, row 7, position 0. -/
def sPlotS : SSpec := ⟨1504, 7, 0, .ident 0 0x3FFE, 65535, 1, false⟩
/-- Table 15-4, row 8, position 0. -/
def sQGroup : SSpec := ⟨1504, 8, 0, .num 0 7, 0, 1, false⟩
/-- Table 15-4, row 9, position 0. -/
def sQLotId : SSpec := ⟨1504, 9, 0, .num 0 65534, 0, 1, false⟩
/-- Table 15-4, row 10, position 0. -/
def sQLabel : SSpec := ⟨1504, 10, 0, .listed [1, 2, 3, 0x1F], 1, 1, false⟩
/-- Table 15-4, row 11, position 0. -/
def sQKeyIdx : SSpec := ⟨1504, 11, 0, .num 0 3, 0, 1, false⟩
/-- Table 15-4, row 12, position 0. -/
def sQDnf : SSpec := ⟨1504, 12, 0, .listed [0, 1], 0, 1, false⟩
/-- Table 15-5, row 1, position 0. -/
def sSchedMode : SSpec := ⟨1505, 1, 0, .enum 2, 0, 1, false⟩
/-- Table 15-5, row 2, position 0. -/
def sGw : SSpec := ⟨1505, 2, 0, .num 1 65535, 1, 8, false⟩
/-- Table 15-7, row 1, position 0. -/
def sShEnable : SSpec := ⟨1507, 1, 0, .listed [0, 1], 0, 1, false⟩
/-- Table 15-7, row 2, position 0. -/
def sShRate : SSpec := ⟨1507, 2, 0, .num 1 400000000, 1000000, 1, false⟩
/-- Table 15-7, row 3, position 0. -/
def sShBurst : SSpec := ⟨1507, 3, 0, .num 1 262144, 256, 1, false⟩
/-- Table 15-7, row 4, position 0. -/
def sShResetFull : SSpec := ⟨1507, 4, 0, .listed [0, 1], 1, 1, false⟩
/-- Table 15-8, row 1, position 0. -/
def sMtMode : SSpec := ⟨1508, 1, 0, .enum 3, 0, 1, false⟩
/-- Table 15-8, row 2, position 0. -/
def sMtAware : SSpec := ⟨1508, 2, 0, .enum 2, 0, 1, false⟩
/-- Table 15-8, row 3, position 0. -/
def sCaSrc : SSpec := ⟨1508, 3, 0, .enum 17, 0, 1, false⟩
/-- Table 15-8, row 4, position 0. -/
def sCir : SSpec := ⟨1508, 4, 0, .num 0 400000000, 0, 1, false⟩
/-- Table 15-8, row 5, position 0. -/
def sPir : SSpec := ⟨1508, 5, 0, .num 0 400000000, 0, 1, false⟩
/-- Table 15-8, row 6, position 0. -/
def sCbs : SSpec := ⟨1508, 6, 0, .num 0 16777215, 0, 1, false⟩
/-- Table 15-8, row 7, position 0. -/
def sEbs : SSpec := ⟨1508, 7, 0, .num 0 16777215, 0, 1, false⟩
/-- Table 18-3, row 1, position 0. -/
def sPwrTarget : SSpec := ⟨1803, 1, 0, .enum 4, 0, 1, true⟩
/-- Table 18-3, row 2, position 0. -/
def sListenN : SSpec := ⟨1803, 2, 0, .num 0 6, 4, 1, true⟩
/-- Table 18-3, row 3, position 0. -/
def sWakeMask : SSpec := ⟨1803, 3, 0, .num 0 65535, 574, 1, true⟩
/-- Table 18-3, row 4, position 0. -/
def sRouseCode : SSpec := ⟨1803, 4, 0, .num 0 4294967295, 0, 1, true⟩
/-- Table 18-3, row 5, position 0. -/
def sRouseErr : SSpec := ⟨1803, 5, 0, .num 0 3, 1, 1, true⟩
/-- Table 18-3, row 6, position 0. -/
def sNoticeWait : SSpec := ⟨1803, 6, 0, .num 0 1024, 64, 1, true⟩
/-- Table 18-3, row 7, position 0. -/
def sDrainWait : SSpec := ⟨1803, 7, 0, .num 0 100, 10, 1, true⟩
/-- Table 19-1, row 1, position 0. -/
def sPaired : SSpec := ⟨1901, 1, 0, .listed [0, 1], 0, 1, true⟩
/-- Table 19-1, row 2, position 0. -/
def sSide : SSpec := ⟨1901, 2, 0, .listed [0, 1], 0, 1, true⟩
/-- Table 19-1, row 3, position 0. -/
def sPairSerial : SSpec := ⟨1901, 3, 0, .bytes [8] true, 0, 1, true⟩
/-- Table 19-1, row 4, position 0. -/
def sLeaseLen : SSpec := ⟨1901, 4, 0, .num 128 8000, 512, 1, true⟩
/-- Table 19-1, row 5, position 0. -/
def sRoleGuard : SSpec := ⟨1901, 5, 0, .num 64 4000, 256, 1, true⟩
/-- Table 19-1, row 6, position 0. -/
def sMirrorLead : SSpec := ⟨1901, 6, 0, .num 2 64, 8, 1, true⟩
/-- Table 19-1, row 7, position 0. -/
def sStandbyPorts : SSpec := ⟨1901, 7, 0, .enum 2, 0, 1, true⟩
/-- Table 19-1, row 8, position 0. -/
def sStandbyPriority2 : SSpec := ⟨1901, 8, 0, .num 0 255, 129, 1, true⟩
/-- Table 19-1, row 9, position 0. -/
def sLockYieldHold : SSpec := ⟨1901, 9, 0, .num 0 1000, 50, 1, true⟩
/-- Table 19-1, row 10, position 0. -/
def sUpTrim : SSpec := ⟨1901, 10, 0, .num (-5313) 5313, 0, 1, true⟩
/-- Table 19-1, row 11, position 0. -/
def sTetherAsym : SSpec := ⟨1901, 11, 0, .num (-5313) 5313, 0, 1, true⟩
/-- Table 19-1, row 12, position 0. -/
def sTimeDiffLimit : SSpec := ⟨1901, 12, 0, .num 27 53125, 1063, 1, true⟩
/-- Table 21-7, row 0xf01, position 0. -/
def sMediaLane : SSpec := ⟨2107, 3841, 0, .num 1 8, 0, 1, false⟩
/-- Table 21-7, row 0xf02, position 0. -/
def sTimingLane : SSpec := ⟨2107, 3842, 0, .num 0 3, 0, 1, true⟩
/-- Table 21-7, row 0xf03, position 0. -/
def sLaneGroup : SSpec := ⟨2107, 3843, 0, .num 0 3, 0, 1, false⟩
/-- Table 21-7, row 0xf04, position 0. -/
def sUsMode : SSpec := ⟨2107, 3844, 0, .enum 2, 0, 1, true⟩
/-- Table 21-7, row 0xf05, position 0. -/
def sMgmtMask : SSpec := ⟨2107, 3845, 0, .num 0 65535, 2428, 1, false⟩
/-- Table 21-7, row 0xf06, position 0. -/
def sParenting : SSpec := ⟨2107, 3846, 0, .enum 2, 0, 1, true⟩
/-- Table 21-7, row 0xf07, position 0. -/
def sWorking : SSpec := ⟨2107, 3847, 0, .enum 2, 0, 1, true⟩
/-- Table 21-7, row 0xf08, position 0. -/
def sDomSrc : SSpec := ⟨2107, 3848, 0, .num 0 1, (-1), 1, false⟩
/-- Table 21-7, row 0xf09, position 0. -/
def sPmcTineMask : SSpec := ⟨2107, 3849, 0, .num 0 65535, 0, 1, false⟩
/-- Table 21-7, row 0xf0a, position 0. -/
def sMapEntry : SSpec := ⟨2107, 3850, 0, .num 0 3, 0, 65, false⟩
/-- Table 21-7, row 0xf0b, position 0. -/
def sSlotUse : SSpec := ⟨2107, 3851, 0, .num 0 255, 0, 1, false⟩
/-- Table 21-7, row 0xf0c, position 0. -/
def sSlotTarget : SSpec := ⟨2107, 3852, 0, .num 0 1, 0, 1, false⟩
/-- Table 21-7, row 0xf0d, position 0. -/
def sSlotKeyIdx : SSpec := ⟨2107, 3853, 0, .num 1 3, 0, 1, false⟩
/-- Table 21-7, row 0xf0e, position 0. -/
def sSlotAlg : SSpec := ⟨2107, 3854, 0, .enum 2, 0, 1, false⟩

/-- The settings of Table 2-1. -/
def settings201 : List SSpec :=
  [sLaneEnable, sCtleMode, sCtleCode, sAdaptMin, sAdaptMax]

/-- The settings of Table 5-6. -/
def settings506 : List SSpec :=
  [sToProfile, sToRange, sToHold, sToTune]

/-- The settings of Table 6-2. -/
def settings602 : List SSpec :=
  [sSdSet, sSdClr, sSfSet, sSfClr, sSesUc, sLtmTimeout]

/-- The settings of Table 6-3. -/
def settings603 : List SSpec :=
  [sRdiLos, sSwitchLos, sRdiLof, sSwitchLof, sRdiLol, sSwitchLol, sRdiSd, sSwitchSd, sRdiSf, sSwitchSf, sRdiPlm, sSwitchPlm, sRdiLtm, sSwitchLtm, sRdiTaf, sSwitchTaf, sSwitchHoldover, sForceRdi, sHoldOff]

/-- The settings of Table 7-2. -/
def settings702 : List SSpec :=
  [sDomEnable, sServoBw, sLockThresh, sStepLimit, sHoldAvg, sHoldValid, sSelectMode, sSlewRate]

/-- The settings of Table 7-9. -/
def settings709 : List SSpec :=
  [sAsymMode, sLambda0, sLambda0Sigma, sS0, sS0Sigma, sNg0, sFixedShare, sFitWindow, sBRx, sBTx]

/-- The settings of Table 8-2. -/
def settings802 : List SSpec :=
  [sPortMode, sPortEnable, sFec, sMaxFrame, sSTpid, sPauseRx, sLinkdownTx, sLinkUpDelay, sSlCtleMode, sSlCtleCode, sSlAdaptMin, sSlAdaptMax, sTxPre, sTxPost, sTxAmp, sRxInvert, sTxInvert]

/-- The settings of Table 8-6. -/
def settings806 : List SSpec :=
  [sSheafEnable, sCutMode]

/-- The settings of Table 9-1. -/
def settings901 : List SSpec :=
  [sPtpProfile, sOffer, sDnA, sDnB, sStepMode, sMcastDa, sPriority2, sPortMac, sIpAddr, sMaxClients, sGrantMax, sTsBoardRx, sTsBoardTx]

/-- The settings of Table 9-6. -/
def settings906 : List SSpec :=
  [sPpsInEnable, sPpsOutEnable, sPpsWidth, sPpsOffset, sPpsSquelch, sTodEnable, sRclkMode, sRclkSquelch]

/-- The settings of Table 12-2. -/
def settings1202 : List SSpec :=
  [sScrBase, sScrLen, sSramCh, sSramBase, sSramLen, sKeyMask, sAllow, sAffinity, sFaultAction]

/-- The settings of Table 14-2. -/
def settings1402 : List SSpec :=
  [sPmcEvent, sPmcMode, sPmcThreadMask, sPmcProgEn, sPmcProg, sUread, sOvfAction, sPmcClear]

/-- The settings of Table 14-4. -/
def settings1404 : List SSpec :=
  [sTineMask, sSampleN, sSampThreadMask, sSampProgEn, sSampProg, sBufMode]

/-- The settings of Table 15-2. -/
def settings1502 : List SSpec :=
  [sIngFloor, sPoolFloorY, sPoolFloorR]

/-- The settings of Table 15-4. -/
def settings1504 : List SSpec :=
  [sQEnable, sQWeight, sQStrict, sQOverhead, sQMaxG, sQMaxY, sQMaxR, sPlotP, sPlotS, sQGroup, sQLotId, sQLabel, sQKeyIdx, sQDnf]

/-- The settings of Table 15-5. -/
def settings1505 : List SSpec :=
  [sSchedMode, sGw]

/-- The settings of Table 15-7. -/
def settings1507 : List SSpec :=
  [sShEnable, sShRate, sShBurst, sShResetFull]

/-- The settings of Table 15-8. -/
def settings1508 : List SSpec :=
  [sMtMode, sMtAware, sCaSrc, sCir, sPir, sCbs, sEbs]

/-- The settings of Table 18-3. -/
def settings1803 : List SSpec :=
  [sPwrTarget, sListenN, sWakeMask, sRouseCode, sRouseErr, sNoticeWait, sDrainWait]

/-- The settings of Table 19-1. -/
def settings1901 : List SSpec :=
  [sPaired, sSide, sPairSerial, sLeaseLen, sRoleGuard, sMirrorLead, sStandbyPorts, sStandbyPriority2, sLockYieldHold, sUpTrim, sTetherAsym, sTimeDiffLimit]

end Sys2Proof.Machine
end

