-- ==== Sys2Proof/Machine/Operands.lean ====
section
/-! DEFINITION. Operand forms: byte strings most significant byte first (R2), bit fields (R3),
timeline differences (R22), scope fields (R554), setting items (R555, R556). -/
namespace Sys2Proof.Machine

/-- The number a byte string spells, most significant byte first (R2). -/
def beNat (b : Bytes) : Nat := b.foldl (fun a x => a * 256 + x.toNat) 0

/-- `n` bytes of `v`, most significant first; higher bits are dropped. -/
def natBytes : Nat → Nat → Bytes
  | 0, _ => []
  | n + 1, v => BitVec.ofNat 8 (v / 256 ^ n) :: natBytes n v

/-- Bytes `i` to `i + n - 1`; bytes past the end read as zero. -/
def slice (b : Bytes) (i n : Nat) : Bytes :=
  let t := (b.drop i).take n
  t ++ List.replicate (n - t.length) 0

/-- The number in `n` bytes from byte `i`. -/
def field (b : Bytes) (i n : Nat) : Nat := beNat (slice b i n)

/-- Byte `i`. -/
def byteAt (b : Bytes) (i : Nat) : BitVec 8 := b.getD i 0

/-- A bit as a number. -/
def bit (x : Bool) : Nat := if x then 1 else 0

/-- Bits `hi` to `lo` of a number (R3). -/
def bits (v hi lo : Nat) : Nat := v / 2 ^ lo % 2 ^ (hi + 1 - lo)

/-- Two's complement reading of the low `w` bits. -/
def signed (w v : Nat) : Int :=
  let m := v % 2 ^ w
  if m < 2 ^ (w - 1) then (m : Int) else (m : Int) - (2 ^ w : Nat)

/-- Two's complement of an integer in `w` bits. -/
def unsigned (w : Nat) (v : Int) : Nat := (v % ((2 ^ w : Nat) : Int)).toNat

/-- Replace the bytes from `i` by `new`, `b` keeping its length. -/
def patch (b : Bytes) (i : Nat) (new : Bytes) : Bytes :=
  b.take i ++ (new.take (b.length - i)) ++ b.drop (i + new.length)

/-- `b` made exactly `n` bytes: cut, or padded with zeros. -/
def fit (n : Nat) (b : Bytes) : Bytes := slice b 0 n

/-- The bits of a byte string, most significant bit of each byte first. -/
def bitsOf (b : Bytes) : List Bool :=
  b.flatMap (fun x => [x.getLsbD 7, x.getLsbD 6, x.getLsbD 5, x.getLsbD 4, x.getLsbD 3,
    x.getLsbD 2, x.getLsbD 1, x.getLsbD 0])

/-- One grain count later minus one earlier, as R22 compares them. -/
def tlDiff (a b : BitVec 64) : Int := (b - a).toInt

/-- `b` is later than `a` (R22). -/
def tlAfter (a b : BitVec 64) : Bool := decide (0 < tlDiff a b)

/-- `t` plus a signed number of grains. -/
def tlAdd (t : BitVec 64) (d : Int) : BitVec 64 := t + BitVec.ofInt 64 d

/-- One swath counter minus another, read as a signed 48-bit number (R40). -/
def scDiff (a b : BitVec 48) : Int := (b - a).toInt

/-- Grains of a swath, a codeword, a millisecond and a second (Table 1-1). -/
def swathGrains : Nat := 6800000
/-- See `swathGrains`. -/
def cwGrains : Nat := 5440
/-- See `swathGrains`. -/
def msGrains : Nat := 53125000
/-- See `swathGrains`. -/
def secGrains : Nat := 53125000000

/-- Nanoseconds to grains: times 425/8, halves towards positive infinity (R7). -/
def nsToGrains (ns : Int) : Int := (ns * 425 + 4) / 8

/-- Grains to nanoseconds: times 8/425, towards negative infinity (R7). -/
def grainsToNs (g : Int) : Int := g * 8 / 425

/-- A scope as one number: kind, INDEX and SUB of Table 21-1. -/
def scopeCode (kind index : Nat) (sub : Nat := 0) : Nat := kind * 2 ^ 20 + index * 16 + sub

/-- Scopes of Table 21-2. -/
def scDevice : Nat := scopeCode 0 0
/-- See `scDevice`. -/
def scLrx (l : Nat) : Nat := scopeCode 0x01 l
/-- See `scDevice`. -/
def scLtx (l : Nat) : Nat := scopeCode 0x02 l
/-- See `scDevice`. -/
def scGroup (g : Nat) : Nat := scopeCode 0x03 g
/-- See `scDevice`. -/
def scInst (i : Nat) : Nat := scopeCode 0x04 i
/-- See `scDevice`. -/
def scDom (d : Nat) : Nat := scopeCode 0x05 d
/-- See `scDevice`. -/
def scPort (p : Nat) : Nat := scopeCode 0x06 p
/-- See `scDevice`. -/
def scLot (l : Nat) : Nat := scopeCode 0x08 l
/-- See `scDevice`. -/
def scPlot (p : Nat) : Nat := scopeCode 0x09 p
/-- See `scDevice`. -/
def scDsQueue (q : Nat) : Nat := scopeCode 0x0A q
/-- See `scDevice`. -/
def scUsQueue (q : Nat) : Nat := scopeCode 0x0B q
/-- See `scDevice`. -/
def scClass (plot g : Nat) : Nat := scopeCode 0x0C plot g
/-- See `scDevice`. -/
def scHarrow (h : Nat) : Nat := scopeCode 0x0D h
/-- See `scDevice`. -/
def scTine (h t : Nat) : Nat := scopeCode 0x0E h t
/-- See `scDevice`. -/
def scProgram (p : Nat) : Nat := scopeCode 0x0F p
/-- See `scDevice`. -/
def scMeter (m : Nat) : Nat := scopeCode 0x10 m

/-- INDEX of a scope. -/
def scopeIndex (sc : Nat) : Nat := sc / 16 % 65536
/-- KIND of a scope. -/
def scopeKind (sc : Nat) : Nat := sc / 2 ^ 20
/-- SUB of a scope. -/
def scopeSub (sc : Nat) : Nat := sc % 16

/-- The scope field of Table 21-1 at the start of a payload. -/
def scopeField (b : Bytes) : Nat :=
  scopeCode (byteAt b 0).toNat (field b 2 2) ((byteAt b 1).toNat % 16)

/-- Is a scope field's INDEX and SUB inside its kind's range (Table 21-2)? `dual`: two
instances exist. SUB is 0 where the kind has none. -/
def scopeInRange (dual : Bool) (b : Bytes) : Bool :=
  let k := (byteAt b 0).toNat
  let sub := (byteAt b 1).toNat
  let i := field b 2 2
  let one (n : Nat) : Bool := decide (i < n) && decide (sub = 0)
  match k with
  | 0x00 => one 1
  | 0x01 => one 4
  | 0x02 => one 2
  | 0x03 => one 4
  | 0x04 => one (if dual then 2 else 1)
  | 0x05 => one 2
  | 0x06 => one 8
  | 0x07 => one 8
  | 0x08 => one 0xFFFF
  | 0x09 => one 0x3FFF
  | 0x0A => one 64
  | 0x0B => one 1024
  | 0x0C => decide (i < 0x3FFF) && decide (sub < 8)
  | 0x0D => one 12
  | 0x0E => decide (i < 12) && decide (sub < 16)
  | 0x0F => one 4096
  | 0x10 => one 65536
  | 0x11 => one 32768
  | 0x12 => one 1
  | 0x13 => one 128
  | 0x14 => one 8
  | 0x15 => one 8
  | _ => false

/-- A setting item (Table 21-3). -/
structure Item where
  row : Nat
  pos : Nat
  idx : Nat
  val : Bytes
  deriving DecidableEq, Repr

/-- The setting items of a payload; none where the lengths do not add up (R559). -/
def parseItems : Nat → Bytes → Option (List Item)
  | _, [] => some []
  | 0, _ :: _ => none
  | fuel + 1, b =>
    if b.length < 4 then none else
    let len := (byteAt b 3).toNat
    if b.length < 4 + len then none else
    match parseItems fuel (b.drop (4 + len)) with
    | none => none
    | some is =>
      some ({ row := field b 0 2 / 16, pos := field b 0 2 % 16, idx := (byteAt b 2).toNat,
              val := (b.drop 4).take len } :: is)

/-- The value an item spells in a range (R556); none: outside it, or an encoding R567
refuses. -/
def decodeValue (k : SKind) (v : Bytes) : Option Int :=
  let n := v.length
  let u : Int := beNat v
  let wide : Bool := decide (1 ≤ n) && decide (n ≤ 8)
  match k with
  | .num lo hi =>
    let x := if lo < 0 then signed (8 * n) (beNat v) else u
    if wide && decide (lo ≤ x) && decide (x ≤ hi) then some x else none
  | .enum m => if wide && decide (u < m) then some u else none
  | .listed vs => if wide && vs.contains u then some u else none
  | .ident lo hi =>
    if wide && (decide (u = 0xFFFF) || (decide ((lo : Int) ≤ u) && decide (u ≤ hi)))
    then some u else none
  | .bytes lens removable =>
    if n = 0 then (if removable then some 0 else none)
    else if lens.contains n then some (2 ^ (8 * n) + beNat v : Nat) else none
  | .mask m => if decide (1 ≤ n) && decide (n ≤ m) then some u else none

/-- The bytes of a value held as 2^(8 length) plus the string; removed reads as none. -/
def heldBytes (n : Nat) (v : Int) : Bytes := natBytes n v.toNat

end Sys2Proof.Machine
end

