-- ==== Sys2Proof/Machine/Crypto.lean ====
section
/-! DEFINITION. The cipher engine's algorithms (R421, R437, R454, R458): AES-128 and AES-256
(FIPS 197), GCM and GMAC with 96-bit nonces (SP 800-38D), CMAC (SP 800-38B), key unwrapping KW
(SP 800-38F), SHA-384 (FIPS 180-4), ECDSA verification on P-384 (FIPS 186). The standards are
the ones the spec names; a byte is a number below 256 inside this file. -/
namespace Sys2Proof.Machine

/-- The AES S-box, entry 0 in the most significant byte. -/
def aesSboxWord : Nat := 0x637C777BF26B6FC53001672BFED7AB76CA82C97DFA5947F0ADD4A2AF9CA472C0B7FD9326363FF7CC34A5E5F171D8311504C723C31896059A071280E2EB27B27509832C1A1B6E5AA0523BD6B329E32F8453D100ED20FCB15B6ACBBE394A4C58CFD0EFAAFB434D338545F9027F503C9FA851A3408F929D38F5BCB6DA2110FFF3D2CD0C13EC5F974417C4A77E3D645D197360814FDC222A908846EEB814DE5E0BDBE0323A0A4906245CC2D3AC629195E479E7C8376D8DD54EA96C56F4EA657AAE08BA78252E1CA6B4C6E8DD741F4BBD8B8A703EB5664803F60E613557B986C11D9EE1F8981169D98E949B1E87E9CE5528DF8CA1890DBFE6426841992D0FB054BB16

/-- The inverse S-box, entry 0 in the most significant byte. -/
def aesInvSboxWord : Nat := 0x52096AD53036A538BF40A39E81F3D7FB7CE339829B2FFF87348E4344C4DEE9CB547B9432A6C2233DEE4C950B42FAC34E082EA16628D924B2765BA2496D8BD12572F8F66486689816D4A45CCC5D65B6926C704850FDEDB9DA5E154657A78D9D8490D8AB008CBCD30AF7E45805B8B34506D02C1E8FCA3F0F02C1AFBD0301138A6B3A9111414F67DCEA97F2CFCEF0B4E67396AC7422E7AD3585E2F937E81C75DF6E47F11A711D29C5896FB7620EAA18BE1BFC563E4BC6D279209ADBC0FE78CD5AF41FDDA8338807C731B11210592780EC5F60517FA919B54A0D2DE57A9F93C99CEFA0E03B4DAE2AF5B0C8EBBB3C83539961172B047EBA77D626E169146355210C7D

/-- S-box lookup. -/
def aesSub (x : Nat) : Nat := aesSboxWord / 256 ^ (255 - x) % 256

/-- Inverse S-box lookup. -/
def aesInvSub (x : Nat) : Nat := aesInvSboxWord / 256 ^ (255 - x) % 256

/-- Multiply by x in GF(2^8) modulo x^8 + x^4 + x^3 + x + 1. -/
def aesX (a : Nat) : Nat := let d := a * 2; if d ≥ 256 then d ^^^ 0x11B else d

/-- Product in GF(2^8) by a constant below 16. -/
def aesMul (k a : Nat) : Nat :=
  let a2 := aesX a
  let a4 := aesX a2
  let a8 := aesX a4
  (if k.testBit 0 then a else 0) ^^^ (if k.testBit 1 then a2 else 0) ^^^
  (if k.testBit 2 then a4 else 0) ^^^ (if k.testBit 3 then a8 else 0)

/-- XOR of two byte lists. -/
def xorNats (a b : List Nat) : List Nat := List.zipWith (fun x y => x ^^^ y) a b

/-- Key expansion: the words of the schedule, newest first, each four bytes. `nk` is 4 or 8. -/
def aesExpand (nk : Nat) : Nat → Nat → Nat → List (List Nat) → List (List Nat)
  | 0, _, _, ws => ws
  | n + 1, i, rcon, ws =>
    let prev := ws.headD []
    let old := (ws.drop (nk - 1)).headD []
    let (t, rc) :=
      if i % nk = 0 then
        let r := (prev.drop 1 ++ prev.take 1).map aesSub
        (xorNats r [rcon, 0, 0, 0], aesX rcon)
      else if nk = 8 ∧ i % 8 = 4 then (prev.map aesSub, rcon)
      else (prev, rcon)
    aesExpand nk n (i + 1) rc (xorNats old t :: ws)

/-- Cut a list into pieces of `k`. -/
def chunks {α : Type} (k : Nat) : Nat → List α → List (List α)
  | 0, _ => []
  | n + 1, l => if l.isEmpty then [] else l.take k :: chunks k n (l.drop k)

/-- Round keys of a 16- or 32-byte key, 16 bytes each. -/
def aesKeys (key : List Nat) : List (List Nat) :=
  let nk := key.length / 4
  let words := (aesExpand nk (4 * (nk + 7) - nk) nk 1 (chunks 4 8 key).reverse).reverse
  (chunks 4 15 words).map (fun ws => ws.flatten)

/-- ShiftRows. -/
def aesShift (b : List Nat) : List Nat :=
  [0, 5, 10, 15, 4, 9, 14, 3, 8, 13, 2, 7, 12, 1, 6, 11].map (fun i => b.getD i 0)

/-- InvShiftRows. -/
def aesUnshift (b : List Nat) : List Nat :=
  [0, 13, 10, 7, 4, 1, 14, 11, 8, 5, 2, 15, 12, 9, 6, 3].map (fun i => b.getD i 0)

/-- MixColumns with the given row of coefficients. -/
def aesMix (k0 k1 k2 k3 : Nat) (b : List Nat) : List Nat :=
  (chunks 4 4 b).flatMap (fun c =>
    let a0 := c.getD 0 0
    let a1 := c.getD 1 0
    let a2 := c.getD 2 0
    let a3 := c.getD 3 0
    [aesMul k0 a0 ^^^ aesMul k1 a1 ^^^ aesMul k2 a2 ^^^ aesMul k3 a3,
     aesMul k3 a0 ^^^ aesMul k0 a1 ^^^ aesMul k1 a2 ^^^ aesMul k2 a3,
     aesMul k2 a0 ^^^ aesMul k3 a1 ^^^ aesMul k0 a2 ^^^ aesMul k1 a3,
     aesMul k1 a0 ^^^ aesMul k2 a1 ^^^ aesMul k3 a2 ^^^ aesMul k0 a3])

/-- The rounds after the first key. -/
def aesRounds : List (List Nat) → List Nat → List Nat
  | [], b => b
  | [k], b => xorNats (aesShift (b.map aesSub)) k
  | k :: ks, b => aesRounds ks (xorNats (aesMix 2 3 1 1 (aesShift (b.map aesSub))) k)

/-- AES of one block under round keys. -/
def aesBlock (ks : List (List Nat)) (b : List Nat) : List Nat :=
  aesRounds (ks.drop 1) (xorNats b (ks.headD []))

/-- The inverse rounds: keys in reverse order, the last key already removed. -/
def aesUnrounds : List (List Nat) → List Nat → List Nat
  | [], b => b
  | [k], b => xorNats ((aesUnshift b).map aesInvSub) k
  | k :: ks, b => aesUnrounds ks (aesMix 14 11 13 9 (xorNats ((aesUnshift b).map aesInvSub) k))

/-- Inverse AES of one block. -/
def aesUnblock (ks : List (List Nat)) (b : List Nat) : List Nat :=
  let rs := ks.reverse
  aesUnrounds (rs.drop 1) (xorNats b (rs.headD []))

/-- Bytes as numbers. -/
def toNats (b : Bytes) : List Nat := b.map (fun x => x.toNat)
/-- Numbers as bytes. -/
def ofNats (b : List Nat) : Bytes := b.map (BitVec.ofNat 8)

/-- A number as a list of `n` numbers below 256, most significant first. -/
def natsOf (n v : Nat) : List Nat := (natBytes n v).map (fun x => x.toNat)
/-- The number a list of bytes spells. -/
def natOf (b : List Nat) : Nat := b.foldl (fun a x => a * 256 + x) 0

/-- Product in GHASH's field, bit 127 being the coefficient of x^0. -/
def ghMul (x y : Nat) : Nat :=
  ((List.range 128).foldl (fun (p : Nat × Nat) i =>
    let z := if x.testBit (127 - i) then p.1 ^^^ p.2 else p.1
    let v := p.2 / 2 ^^^ (if p.2.testBit 0 then 0xE1000000000000000000000000000000 else 0)
    (z, v)) (0, y)).1

/-- GHASH of blocks. -/
def ghash (h : Nat) (bs : List Nat) : Nat := bs.foldl (fun a b => ghMul (a ^^^ b) h) 0

/-- 16-byte blocks of a string as numbers, the last padded with zeros. -/
def blocks16 (b : List Nat) : List Nat :=
  (chunks 16 (b.length / 16 + 1) b).map (fun c => natOf (c ++ List.replicate (16 - c.length) 0))

/-- CTR keystream applied to a string from counter block `c`. -/
def gcmCtr (ks : List (List Nat)) (nonce : List Nat) : Nat → Nat → List Nat → List Nat
  | 0, _, _ => []
  | n + 1, c, t =>
    if t.isEmpty then [] else
    xorNats (t.take 16) (aesBlock ks (nonce ++ natsOf 4 c)) ++ gcmCtr ks nonce n (c + 1) (t.drop 16)

/-- GCM tag of AAD and ciphertext. -/
def gcmTag (ks : List (List Nat)) (nonce aad ct : List Nat) : List Nat :=
  let h := natOf (aesBlock ks (List.replicate 16 0))
  let len := aad.length * 8 * 2 ^ 64 + ct.length * 8
  let g := ghash h (blocks16 aad ++ blocks16 ct ++ [len])
  xorNats (natsOf 16 g) (aesBlock ks (nonce ++ [0, 0, 0, 1]))

/-- GCM encryption: ciphertext and 16-byte tag. -/
def gcmSeal (key nonce aad text : Bytes) : Bytes × Bytes :=
  let ks := aesKeys (toNats key)
  let ct := gcmCtr ks (toNats nonce) (text.length / 16 + 1) 2 (toNats text)
  (ofNats ct, ofNats (gcmTag ks (toNats nonce) (toNats aad) ct))

/-- GCM decryption; none when the tag, which may be cut short, fails. -/
def gcmOpen (key nonce aad ct tag : Bytes) : Option Bytes :=
  let ks := aesKeys (toNats key)
  if (gcmTag ks (toNats nonce) (toNats aad) (toNats ct)).take tag.length = toNats tag then
    some (ofNats (gcmCtr ks (toNats nonce) (ct.length / 16 + 1) 2 (toNats ct)))
  else none

/-- GMAC: the tag of GCM over AAD alone. -/
def gmac (key nonce aad : Bytes) : Bytes := (gcmSeal key nonce aad []).2

/-- Doubling in CMAC's field. -/
def cmacDouble (v : Nat) : Nat :=
  let d := v * 2
  if d ≥ 2 ^ 128 then (d - 2 ^ 128) ^^^ 0x87 else d

/-- CMAC of a string. -/
def cmac (key text : Bytes) : Bytes :=
  let ks := aesKeys (toNats key)
  let l := natOf (aesBlock ks (List.replicate 16 0))
  let k1 := cmacDouble l
  let k2 := cmacDouble k1
  let t := toNats text
  let n := (t.length + 15) / 16
  let full := decide (n ≠ 0) && decide (t.length % 16 = 0)
  let lastAt := (if n = 0 then 0 else n - 1) * 16
  let tail := t.drop lastAt
  let last := if full then natOf tail ^^^ k1
    else natOf (tail ++ [0x80] ++ List.replicate (15 - tail.length) 0) ^^^ k2
  let body := (chunks 16 n (t.take lastAt)).map natOf
  let x := body.foldl (fun a b => natOf (aesBlock ks (natsOf 16 (a ^^^ b)))) 0
  ofNats (aesBlock ks (natsOf 16 (x ^^^ last)))

/-- One step of KW unwrapping: A and the registers, `t` counting down. -/
def kwStep (ks : List (List Nat)) (n : Nat) (st : Nat × List Nat) (t : Nat) : Nat × List Nat :=
  let i := (t - 1) % n
  let b := natOf (aesUnblock ks (natsOf 16 ((st.1 ^^^ t) * 2 ^ 64 + st.2.getD i 0)))
  (b / 2 ^ 64, st.2.set i (b % 2 ^ 64))

/-- KW unwrapping with the default integrity check value; none when it fails. -/
def kwUnwrap (kek wrapped : Bytes) : Option Bytes :=
  let ks := aesKeys (toNats kek)
  let w := (chunks 8 8 (toNats wrapped)).map natOf
  let n := w.length - 1
  let r := ((List.range (6 * n)).map (fun j => 6 * n - j)).foldl (kwStep ks n)
    (w.headD 0, w.drop 1)
  if r.1 = 0xA6A6A6A6A6A6A6A6 then some (ofNats (r.2.flatMap (natsOf 8))) else none

/-- The 80 round constants of SHA-384. -/
def sha512K : List Nat :=
  [0x428A2F98D728AE22, 0x7137449123EF65CD, 0xB5C0FBCFEC4D3B2F, 0xE9B5DBA58189DBBC, 0x3956C25BF348B538, 0x59F111F1B605D019, 0x923F82A4AF194F9B, 0xAB1C5ED5DA6D8118] ++
  [0xD807AA98A3030242, 0x12835B0145706FBE, 0x243185BE4EE4B28C, 0x550C7DC3D5FFB4E2, 0x72BE5D74F27B896F, 0x80DEB1FE3B1696B1, 0x9BDC06A725C71235, 0xC19BF174CF692694] ++
  [0xE49B69C19EF14AD2, 0xEFBE4786384F25E3, 0x0FC19DC68B8CD5B5, 0x240CA1CC77AC9C65, 0x2DE92C6F592B0275, 0x4A7484AA6EA6E483, 0x5CB0A9DCBD41FBD4, 0x76F988DA831153B5] ++
  [0x983E5152EE66DFAB, 0xA831C66D2DB43210, 0xB00327C898FB213F, 0xBF597FC7BEEF0EE4, 0xC6E00BF33DA88FC2, 0xD5A79147930AA725, 0x06CA6351E003826F, 0x142929670A0E6E70] ++
  [0x27B70A8546D22FFC, 0x2E1B21385C26C926, 0x4D2C6DFC5AC42AED, 0x53380D139D95B3DF, 0x650A73548BAF63DE, 0x766A0ABB3C77B2A8, 0x81C2C92E47EDAEE6, 0x92722C851482353B] ++
  [0xA2BFE8A14CF10364, 0xA81A664BBC423001, 0xC24B8B70D0F89791, 0xC76C51A30654BE30, 0xD192E819D6EF5218, 0xD69906245565A910, 0xF40E35855771202A, 0x106AA07032BBD1B8] ++
  [0x19A4C116B8D2D0C8, 0x1E376C085141AB53, 0x2748774CDF8EEB99, 0x34B0BCB5E19B48A8, 0x391C0CB3C5C95A63, 0x4ED8AA4AE3418ACB, 0x5B9CCA4F7763E373, 0x682E6FF3D6B2B8A3] ++
  [0x748F82EE5DEFB2FC, 0x78A5636F43172F60, 0x84C87814A1F0AB72, 0x8CC702081A6439EC, 0x90BEFFFA23631E28, 0xA4506CEBDE82BDE9, 0xBEF9A3F7B2C67915, 0xC67178F2E372532B] ++
  [0xCA273ECEEA26619C, 0xD186B8C721C0C207, 0xEADA7DD6CDE0EB1E, 0xF57D4F7FEE6ED178, 0x06F067AA72176FBA, 0x0A637DC5A2C898A6, 0x113F9804BEF90DAE, 0x1B710B35131C471B] ++
  [0x28DB77F523047D84, 0x32CAAB7B40C72493, 0x3C9EBE0A15C9BEBC, 0x431D67C49C100D4C, 0x4CC5D4BECB3E42B6, 0x597F299CFC657E2A, 0x5FCB6FAB3AD6FAEC, 0x6C44198C4A475817]

/-- The initial hash value of SHA-384. -/
def sha384H : List Nat :=
  [0xCBBB9D5DC1059ED8, 0x629A292A367CD507, 0x9159015A3070DD17, 0x152FECD8F70E5939, 0x67332667FFC00B31, 0x8EB44A8768581511, 0xDB0C2E0D64F98FA7, 0x47B5481DBEFA4FA4]

/-- Rotate right in 64 bits. -/
def ror64 (x n : Nat) : Nat := (x / 2 ^ n) ||| (x * 2 ^ (64 - n) % 2 ^ 64)

/-- Message schedule, newest word first. -/
def shaSchedule : Nat → List Nat → List Nat
  | 0, w => w
  | n + 1, w =>
    let a := w.getD 1 0
    let b := w.getD 14 0
    let s1 := ror64 a 19 ^^^ ror64 a 61 ^^^ (a / 2 ^ 6)
    let s0 := ror64 b 1 ^^^ ror64 b 8 ^^^ (b / 2 ^ 7)
    shaSchedule n (((s1 + w.getD 6 0 + s0 + w.getD 15 0) % 2 ^ 64) :: w)

/-- One round of SHA-384: the eight working variables with a constant plus a word. -/
def shaRound (v : List Nat) (kw : Nat) : List Nat :=
  match v with
  | [a, b, c, d, e, f, g, h] =>
    let s1 := ror64 e 14 ^^^ ror64 e 18 ^^^ ror64 e 41
    let ch := (e &&& f) ^^^ ((2 ^ 64 - 1 - e) &&& g)
    let t1 := h + s1 + ch + kw
    let s0 := ror64 a 28 ^^^ ror64 a 34 ^^^ ror64 a 39
    let mj := (a &&& b) ^^^ (a &&& c) ^^^ (b &&& c)
    [(t1 + s0 + mj) % 2 ^ 64, a, b, c, (d + t1) % 2 ^ 64, e, f, g]
  | _ => v

/-- Compress one 128-byte block. -/
def shaBlock (h : List Nat) (b : List Nat) : List Nat :=
  let w := (shaSchedule 64 ((chunks 8 16 b).map natOf).reverse).reverse
  let v := (List.zip sha512K w).foldl (fun v p => shaRound v (p.1 + p.2)) h
  List.zipWith (fun x y => (x + y) % 2 ^ 64) h v

/-- SHA-384 of a byte string, 48 bytes. -/
def sha384 (m : Bytes) : Bytes :=
  let z := (128 - (m.length + 17) % 128) % 128
  let p := toNats m ++ [0x80] ++ List.replicate z 0 ++ natsOf 16 (m.length * 8)
  let h := (chunks 128 (p.length / 128) p).foldl shaBlock sha384H
  ofNats ((h.take 6).flatMap (natsOf 8))

/-- The prime of P-384. -/
def p384 : Nat := 0xFFFFFFFFFFFFFFFFFFFFFFFFFFFFFFFFFFFFFFFFFFFFFFFFFFFFFFFFFFFFFFFEFFFFFFFF0000000000000000FFFFFFFF
/-- The coefficient b of P-384. -/
def p384b : Nat := 0xB3312FA7E23EE7E4988E056BE3F82D19181D9C6EFE8141120314088F5013875AC656398D8A2ED19D2A85C8EDD3EC2AEF
/-- The order of P-384's base point. -/
def p384n : Nat := 0xFFFFFFFFFFFFFFFFFFFFFFFFFFFFFFFFFFFFFFFFFFFFFFFFC7634D81F4372DDF581A0DB248B0A77AECEC196ACCC52973
/-- The base point of P-384. -/
def p384g : Nat × Nat :=
  (0xAA87CA22BE8B05378EB1C71EF320AD746E1D3B628BA79B9859F741E082542A385502F25DBF55296C3A545E3872760AB7,
   0x3617DE4A96262C6F5D9E98BF9292DC29F8F41DBD289A147CE9DA3113B5F0B8C00A60B1CE1D7E819D7A431D7C90EA0E5F)

/-- a^e mod m, over the low `k` bits of e, most significant first. -/
def powMod (m a e : Nat) : Nat → Nat
  | 0 => 1 % m
  | k + 1 =>
    -- bits of e above the lowest, then the lowest
    let h := powMod m a (e / 2) k
    let q := h * h % m
    if e % 2 = 1 then q * a % m else q

/-- Inverse modulo a prime. -/
def invMod (m a : Nat) : Nat := powMod m (a % m) (m - 2) 384

/-- A point in Jacobian coordinates; z = 0 is the point at infinity. -/
abbrev JPoint := Nat × Nat × Nat

/-- Subtract modulo the prime. -/
def subP (a b : Nat) : Nat := (a + p384 - b % p384) % p384

/-- Double a point (a = -3). -/
def ecDouble (p : JPoint) : JPoint :=
  let (x, y, z) := p
  if z = 0 ∨ y = 0 then (1, 1, 0) else
  let d := z * z % p384
  let y2 := y * y % p384
  let b := 4 * x * y2 % p384
  let a := 3 * (subP x d) * (x + d) % p384
  let x3 := subP (a * a) (2 * b)
  (x3, subP (a * subP b x3) (8 * y2 * y2), 2 * y * z % p384)

/-- Add two points. -/
def ecAdd (p q : JPoint) : JPoint :=
  let (x1, y1, z1) := p
  let (x2, y2, z2) := q
  if z1 = 0 then q else if z2 = 0 then p else
  let z11 := z1 * z1 % p384
  let z22 := z2 * z2 % p384
  let u1 := x1 * z22 % p384
  let u2 := x2 * z11 % p384
  let s1 := y1 * z22 * z2 % p384
  let s2 := y2 * z11 * z1 % p384
  if u1 = u2 then (if s1 = s2 then ecDouble p else (1, 1, 0)) else
  let h := subP u2 u1
  let r := subP s2 s1
  let h2 := h * h % p384
  let h3 := h2 * h % p384
  let v := u1 * h2 % p384
  let x3 := subP (subP (r * r) h3) (2 * v)
  (x3, subP (r * subP v x3) (s1 * h3), h * z1 * z2 % p384)

/-- k times a point, over the `n` low bits of k. -/
def ecMul (p : JPoint) : Nat → Nat → JPoint
  | 0, _ => (1, 1, 0)
  | n + 1, k =>
    let d := ecDouble (ecMul p n (k / 2))
    if k % 2 = 1 then ecAdd d p else d

/-- ECDSA verification on P-384: uncompressed public key of 97 bytes, digest of 48 bytes,
signature r then s, 48 bytes each. -/
def ecdsaVerify (pub digest sig : Bytes) : Bool :=
  let qx := field pub 1 48
  let qy := field pub 49 48
  let r := field sig 0 48
  let s := field sig 48 48
  let onCurve := byteAt pub 0 == 4 && decide (qx < p384) && decide (qy < p384) &&
    decide (qy * qy % p384 = (qx * qx * qx + (p384 - 3) * qx + p384b) % p384)
  if !onCurve || r == 0 || s == 0 || decide (p384n ≤ r) || decide (p384n ≤ s) then false else
  let e := beNat digest
  let w := invMod p384n s
  let (x, _, z) := ecAdd (ecMul (p384g.1, p384g.2, 1) 384 (e * w % p384n))
    (ecMul (qx, qy, 1) 384 (r * w % p384n))
  if z = 0 then false else
  let zi := invMod p384 z
  decide (x * zi * zi % p384 % p384n = r)

end Sys2Proof.Machine
end

