-- ==== Sys2Proof/Config.lean ====
section
/-! DEFINITION. What one device fixes (its fused number) and the FREE VALUES: constants
with no body, so that no proof can rest on what they are. A meaning applies a free value to the
model's own counter `freeCtr`, or to the operands it depends on. -/
namespace Sys2Proof.Config

/-- The 32-bit fused number of the serial number (R131); each device has its own. -/
opaque fusedNumber : BitVec 32

/-- A draw of the random generator (R426): RAND_DELAY, BACKOFF, salts, seeds, challenges and
the sampling countdown are taken from it, reduced to the range their rule gives. -/
opaque freeNat : Nat → Nat

/-- Mask bits: what the random bit generator gives for the mask refresh (R425, R426), by the number of
the draw. -/
opaque maskBits : Nat → BitVec 256

/-- A byte of a free byte string (a salt, a challenge): draw number and byte index. -/
opaque freeByte : Nat → Nat → BitVec 8

/-- A byte of an idle lot's payload or of a lot's padding, which no rule gives (R64, R113): the
timeline value of the burst's first bit, and the byte's place in the payload. -/
opaque fillByte : BitVec 64 → Nat → BitVec 8

/-- The proportional gain of a servo, "set from SERVO_BW and the record interval" (R208), in
2^-32. -/
opaque servoKp : Nat → Nat → Nat
/-- The integral gain of a servo (R208): units of 2^-48 of frequency for each 2^-8 grain of phase
error, in 2^-32. -/
opaque servoKi : Nat → Nat → Nat

/-- One weighted Gauss-Newton step of the asymmetry fit, whose weights the spec does not give (R204):
the change of λ0 in 0.001 nm and of S0 in 10^-7, from the length, λ0, S0, the frequencies and, for
each lane, its frequency, DGD, number of samples and scatter. -/
opaque gaussNewton : List Int → Int × Int

/-- FIT_SIGMA in 2^-8 grain, whose propagation the spec names without a formula (R206): from the fit's
inputs, its result, and the uncertainties of the priors. -/
opaque fitSigma : List Int → Nat

/-- The image of a vendor program in a boot image (R336), by image, firmware version and program
number; none where the boot image has none. -/
opaque vendorImage : Bool → BitVec 32 → Nat → Option (List (BitVec 8))
/-- What firmware gives the permissions of a vendor program (R336), reduced to their ranges. -/
opaque vendorPerm : Bool → BitVec 32 → Nat → Nat → Nat

/-- The JTAG IDCODE, which the spec does not give (R457). -/
opaque idcode : BitVec 32

end Sys2Proof.Config
end

