-- ==== Sys2Proof/Machine/Flags.lean ====
section
/-! DEFINITION. Check sequences and the scrambler: CW_HCRC, HCS, FM_CRC and BH_CRC, SH_CRC and
the Ethernet FCS, the field-message CRC-64, and the 31-bit register of R46. -/
namespace Sys2Proof.Machine

/-- A CRC over bits, first bit first, register of `w` bits shifted left. -/
def crcBits (w poly : Nat) (init : Nat) (bs : List Bool) : Nat :=
  bs.foldl (fun r b =>
    let top := (r / 2 ^ (w - 1) % 2 == 1) != b
    let s := r * 2 % 2 ^ w
    if top then s ^^^ poly else s) init

/-- The low `n` bits of a number, most significant first. -/
def bitsOfNat : Nat → Nat → List Bool
  | 0, _ => []
  | n + 1, v => (v / 2 ^ n % 2 == 1) :: bitsOfNat n v

/-- CW_HCRC over bits 19:7 (R36). -/
def crc7 (bits13 : Nat) : Nat := crcBits 7 0x09 0 (bitsOfNat 13 bits13)

/-- HCS over header bits 63:8 (R60). -/
def crc8 (bits56 : Nat) : Nat := crcBits 8 0x07 0 (bitsOfNat 56 bits56)

/-- FM_CRC and BH_CRC (R91). -/
def crc16 (bs : List Bool) : Nat := crcBits 16 0x1021 0xFFFF bs

/-- SH_CRC: most significant bit of each byte first, final inversion (R41). -/
def crc32 (b : Bytes) : Nat := crcBits 32 0x04C11DB7 0xFFFFFFFF (bitsOf b) ^^^ 0xFFFFFFFF

/-- The bits of a byte string in the order IEEE Std 802.3 sends them, least significant bit of
each byte first. -/
def bitsOfLsb (b : Bytes) : List Bool :=
  b.flatMap (fun x => [x.getLsbD 0, x.getLsbD 1, x.getLsbD 2, x.getLsbD 3, x.getLsbD 4,
    x.getLsbD 5, x.getLsbD 6, x.getLsbD 7])

/-- Reverse the 8 bits of a byte. -/
def revByte (v : Nat) : Nat :=
  (bitsOfNat 8 v).reverse.foldl (fun a b => a * 2 + bit b) 0

/-- The four FCS bytes of an Ethernet frame, as they stand after it (IEEE Std 802.3). -/
def fcsBytes (b : Bytes) : Bytes :=
  let r := crcBits 32 0x04C11DB7 0xFFFFFFFF (bitsOfLsb b) ^^^ 0xFFFFFFFF
  (natBytes 4 r).map (fun x => BitVec.ofNat 8 (revByte x.toNat))

/-- FM_TAG's CRC-64 form over bytes 0-39 (R134). -/
def crc64 (b : Bytes) : Nat :=
  crcBits 64 0x42F0E1EBA9EA3693 0xFFFFFFFFFFFFFFFF (bitsOf b) ^^^ 0xFFFFFFFFFFFFFFFF

/-- One step of the register of R46: the keystream bit and the next register. -/
def scrStep (s : BitVec 31) : Bool × BitVec 31 :=
  let k := s.getLsbD 30 != s.getLsbD 27
  (k, (s <<< 1) ||| (if k then 1 else 0))

/-- Run the register over one byte, most significant bit first. -/
def scrByte (s : BitVec 31) (x : BitVec 8) : BitVec 8 × BitVec 31 :=
  (List.range 8).foldl (fun (p : BitVec 8 × BitVec 31) i =>
    let (k, s') := scrStep p.2
    (if k then p.1 ^^^ (BitVec.ofNat 8 (2 ^ (7 - i))) else p.1, s')) (x, s)

/-- Scramble or descramble a byte string (R46, R104). -/
def scramble (s : BitVec 31) : Bytes → Bytes × BitVec 31
  | [] => ([], s)
  | x :: xs =>
    let (y, s1) := scrByte s x
    let (ys, s2) := scramble s1 xs
    (y :: ys, s2)

/-- Advance the register by `n` bits. -/
def scrSkip : Nat → BitVec 31 → BitVec 31
  | 0, s => s
  | n + 1, s => scrSkip n (scrStep s).2

/-- Seeds of Table 2-5. -/
def scrSeed (txLane : BitVec 2) : BitVec 31 :=
  match txLane.toNat with
  | 0 => 0x7A5C3E19
  | 1 => 0x1D8B604F
  | 2 => 0x4E27C5B3
  | _ => 0x33F09A6D

/-- Expected bytes of a PRBS-31 lot (R75): the register's bits themselves. -/
def prbsBytes : Nat → BitVec 31 → Bytes
  | 0, _ => []
  | n + 1, s =>
    let (y, s') := scrByte s 0
    y :: prbsBytes n s'

/-- Number of one bits of a byte. -/
def popByte (x : BitVec 8) : Nat := (bitsOf [x]).countP id

/-- Number of differing bits of two byte strings. -/
def bitDiff (a b : Bytes) : Nat := (List.zipWith (fun x y => popByte (x ^^^ y)) a b).sum

/-- The number of one bits of a number below 2^`w`. -/
def popNat (w v : Nat) : Nat := (bitsOfNat w v).countP id

end Sys2Proof.Machine
end

