-- ==== Sys2Proof/Machine/StCls.lean ====
section
/-! DEFINITION. State of classification and of the tines: the coulter, the match tables and rule
generations, programs, threads, performance counters and sampling (spec/10 to spec/14). Field
defaults are the values after reset. -/
namespace Sys2Proof.Machine

/-- A ternary entry (Table 11-1). -/
structure TernEntry where
  value : BitVec 320 := 0
  mask : BitVec 320 := 0
  live : BitVec 2 := 0
  result : Nat := 0
  deriving DecidableEq, Repr

/-- An exact-match entry (Table 11-4); LIVE 0b00: a free slot. -/
structure EmEntry where
  key : BitVec 128 := 0
  live : BitVec 2 := 0
  profile : Nat := 0
  result : Nat := 0
  pkts : BitVec 44 := 0
  bytes : BitVec 52 := 0
  deriving DecidableEq, Repr

/-- A pattern set (Tables 10-6 and 10-7): header and slots as written. -/
structure PatSet where
  searchLen : Nat := 512
  keyPos : Nat := 24
  keyBytes : Nat := 8
  onFrag : Bool := false
  slots : Tab Bytes := []
  deriving DecidableEq, Repr

/-- What a live generation holds of its own (R284, R325). No graph: the reset graph (R300). -/
structure RuleGen where
  graph : Option Bytes := none
  pats : PatSet := {}
  deflt : Nat := 0
  deriving DecidableEq, Repr

/-- Generation states (Table 11-8), coded as CLS_GET_GENERATION. -/
inductive GenState | oneLive | commitPending | twoLive | sweeping
  deriving DecidableEq, Repr

/-- A packet from its take-up by the coulter to the end of its last pass (R282, R328, R341). -/
structure Pkt where
  /-- SOURCE of this pass, and of the packet itself (Table 10-1). -/
  src : Nat
  osrc : Nat
  port : Nat
  cls : Nat
  recirc : Bool
  gen : BitVec 8
  lotId : BitVec 16
  label : BitVec 8
  keyIdx : BitVec 2
  era : BitVec 16
  tl : BitVec 64
  /-- The descriptor of a sheaf; empty for another packet. -/
  desc : Bytes
  /-- Bytes 0 to the frame end; of a sheaf, the template and the payload. -/
  body : Bytes
  /-- Template length of a sheaf. -/
  tpl : Nat
  /-- The FCS received with it; empty where there is none. -/
  fcs : Bytes
  colour : Nat := 3
  modified : Bool := false
  bushels : Nat
  /-- Start node a RECIRCULATE named. -/
  node : Option Nat := none
  /-- Its place in the order stage (R340). -/
  order : Nat := 0
  deriving DecidableEq, Repr

/-- What a walk gives beside the packet (R292, R341). -/
structure Walked where
  pkt : Pkt
  key : Bytes
  stack : List (BitVec 8 × Nat)
  pats : BitVec 64
  logEnd : Nat
  /-- The result so far: ternary, default or LIC_RESULT. -/
  result : Nat
  deriving DecidableEq, Repr

/-- A packet waiting for its exact-match lookup (R320). -/
structure EmWait where
  w : Walked
  profile : Nat
  emKey : BitVec 128
  deriving DecidableEq, Repr

/-- A rehash under way (R323): inserts to complete and the commands that wait for it. -/
structure Rehash where
  inserts : List EmEntry
  tags : List (BitVec 16 × Bool)
  deriving DecidableEq, Repr

/-- A commit waiting for a marker arrival (R326). -/
structure CommitWait where
  sc : BitVec 48
  tag : BitVec 16
  mgmt : Bool
  deriving DecidableEq, Repr

/-- The coulter and the tables. -/
structure Cls where
  st : GenState := .oneLive
  newest : BitVec 8 := 0
  cur : RuleGen := {}
  /-- The older live generation, in TWO_LIVE. -/
  old : RuleGen := {}
  stGraph : Option Bytes := none
  stPats : Option PatSet := none
  stDeflt : Option Nat := none
  inNew : Nat := 0
  inOld : Nat := 0
  commit : Option CommitWait := none
  retireSlow : Bool := false
  /-- The bytes of a graph load not yet complete (R299). -/
  load : Option Bytes := none
  tern : Tab TernEntry := []
  res : Tab (BitVec 128) := []
  rcount : Tab (BitVec 64 × BitVec 64) := []
  profiles : Tab (BitVec 128) := []
  /-- By ((channel * 2 + bank) * 131072 + bucket) * 2 + slot. -/
  em : Tab EmEntry := []
  stash : Tab EmEntry := []
  seedA : BitVec 32 := 0
  seedB : BitVec 32 := 0
  bank : Bool := false
  ternOps : Nat := 0
  emOps : Nat := 0
  /-- EM_MODIFY folds due at retirement: profile and key. -/
  folds : List (Nat × BitVec 128) := []
  rehash : Option Rehash := none
  recircQ : List Pkt := []
  emQ : List EmWait := []
  dispatchQ : List Walked := []
  nextOrder : Nat := 0
  deriving DecidableEq, Repr

/-- The image fields of a program descriptor (Table 12-2). -/
structure Prog where
  loaded : Bool := false
  /-- Instruction address of the image's index 0. -/
  base : Nat := 0
  entry : Nat := 0
  codeLen : Nat := 0
  constBase : Nat := 0
  constLen : Nat := 0
  limit : Nat := 512
  disabled : Bool := false
  deriving DecidableEq, Repr

/-- The descriptor a pass runs under, as it stood at dispatch (R351, Table 12-10). -/
structure ProgView where
  prog : Nat := 0
  /-- PARAM of the result record. -/
  param : BitVec 48 := 0
  base : Nat := 0
  entry : Nat := 0
  codeLen : Nat := 0
  constBase : Nat := 0
  constLen : Nat := 0
  limit : Nat := 512
  scrBase : Nat := 0
  scrLen : Nat := 0
  sramCh : Nat := 0
  sramBase : Nat := 0
  sramLen : Nat := 0
  keyMask : Nat := 0
  allow : Nat := 0
  faultDisable : Bool := false
  deriving DecidableEq, Repr

/-- What a thread waits for (R344). -/
inductive Wait
  /-- SRD: destination in the private area, address and length; `seq`: its place in the order of
  issue of program-region accesses (R335). -/
  | load (dst addr len seq : Nat)
  /-- SWR: address and bytes. -/
  | store (addr : Nat) (bytes : Bytes) (seq : Nat)
  /-- SATOM: VD and the word's address. -/
  | atom (vd addr seq : Nat)
  | elook (vd koff profile : Nat)
  /-- CIPHER: VD, private offset of the descriptor, packet offset of the text and of the tag,
  tag length, and the status once the engine has answered. -/
  | cipher (vd fn txt tag tagLen : Nat) (status : Option Nat)
  deriving DecidableEq, Repr

/-- A tagged instruction in flight (R387). -/
structure Tagged where
  era : BitVec 16
  tl : BitVec 64
  pc : Nat
  op : Nat
  readyOthers : Nat
  busy : Nat
  passInsn : Nat
  deriving DecidableEq, Repr

/-- A hardware thread (R333, R341). The private area outlives the pass (R334). -/
structure Thread where
  busy : Bool := false
  pc : Nat := 0
  v : Tab (BitVec 32) := []
  win : Bytes := []
  spill : Bytes := []
  tail : Bytes := []
  walked : Option Walked := none
  view : ProgView := {}
  qValid : Bool := false
  dir : Bool := false
  queue : Nat := 0
  colour : Nat := 3
  modified : Bool := false
  insns : Nat := 0
  /-- The word last issued. -/
  word : BitVec 64 := 0
  wait : Option Wait := none
  /-- Core cycles left of the last instruction's cost, and its event (Table 14-3). -/
  stall : Nat := 0
  stallEvent : Nat := 0
  tagged : Option Tagged := none
  priv : Tab (BitVec 8) := []
  deriving DecidableEq, Repr

/-- A frame emitted, on its way to its queue (R340, R398). -/
structure Emitted where
  ds : Bool
  queue : Nat
  colour : Nat
  gen : BitVec 8
  bytes : Bytes
  sheaf : Bool
  fcsKept : Bool
  modified : Bool
  bushels : Nat
  deriving DecidableEq, Repr

/-- A place in the order stage (R340): its stream, whether a thread has it, and the frame once
emitted. -/
structure OrderEnt where
  id : Nat
  stream : Nat
  given : Bool := false
  frame : Option Emitted := none
  deriving DecidableEq, Repr

/-- A packet in the Reeve's trap queue, with its window state and metadata (R347). -/
structure Trapped where
  pkt : Pkt
  win : Bytes
  spill : Bytes
  tail : Bytes
  meta_ : Bytes
  reason : BitVec 8
  deriving DecidableEq, Repr

/-- What a thread does in a core cycle, as the events of Table 14-3 see it. -/
structure ThStat where
  busy : Bool := false
  ready : Bool := false
  /-- Event of the service it waits on, and of the further cycles of its last instruction; 0: none. -/
  svc : Nat := 0
  stall : Nat := 0
  deriving DecidableEq, Repr

/-- A tine's performance counters (Table 14-1), and whose turn it is. CYC is the harrow clock's count
plus `cycOff`. -/
structure Pmc where
  cycOff : BitVec 64 := 0
  count : Tab (BitVec 48) := []
  ovf : BitVec 6 := 0
  frozen : Bool := false
  lastEvent : Option (BitVec 64) := none
  /-- The previous cycle (R379): its threads, and the thread that issued with its events. -/
  prev : Tab ThStat := []
  prevIssue : Option (Nat × List Nat) := none
  /-- The thread from which the next ready one is looked for (R333). -/
  turn : Nat := 0
  deriving DecidableEq, Repr

/-- Sampling of a harrow (R384-R388). -/
structure Samp where
  mask : BitVec 16 := 0
  countdown : Tab Nat := []
  /-- The next selected instruction of the tine is tagged. -/
  armed : BitVec 16 := 0
  buffer : List Bytes := []
  /-- SAMPLE_HALF may be raised. -/
  halfArmed : Bool := true
  deriving DecidableEq, Repr

/-- The tines. -/
structure Tine where
  /-- Program 0 is one DROP instruction from reset (R336). -/
  imem : Tab (BitVec 64) := [(0, 0xF100000000000000)]
  const_ : Tab (BitVec 8) := []
  progs : Tab Prog := [(0, { loaded := true, codeLen := 1 })]
  /-- By harrow * 131072 + offset. -/
  scratch : Tab (BitVec 8) := []
  /-- By channel * 2^24 + offset. -/
  sram : Tab (BitVec 8) := []
  /-- By harrow * 128 + tine * 8 + thread. -/
  threads : Tab Thread := []
  order : List OrderEnt := []
  trapQ : List Trapped := []
  faultLog : List Bytes := []
  /-- How many of its records, the oldest, have been read (R352). -/
  faultRead : Nat := 0
  /-- Program-region accesses issued (R335). -/
  sramSeq : Nat := 0
  /-- Scratch accesses of the present core cycle: cycle, tine, word (R335). -/
  scratchSeen : List (Nat × Nat × Nat) := []
  /-- Last EV_TINE_FAULT by program (R352). -/
  lastFault : Tab (Option (BitVec 64)) := []
  load : Option Bytes := none
  /-- Core cycles since reset while CLK_CORE runs, and by harrow those at which it was gated. -/
  cycles : BitVec 64 := 0
  gatedAt : Tab (Option (BitVec 64)) := []
  /-- By harrow * 16 + tine. -/
  pmc : Tab Pmc := []
  samp : Tab Samp := []
  deriving DecidableEq, Repr

end Sys2Proof.Machine
end

