-- ==== Sys2Proof/Machine/StLine.lean ====
section
/-! DEFINITION. State of the clocks, the receive lanes, lot delineation and the bonding groups
(spec/01, spec/02, spec/03). Field defaults are the values after reset. -/
namespace Sys2Proof.Machine

/-- Root PLL reference state (Table 1-3). -/
inductive PllRef | free | line | hold
  deriving DecidableEq, Repr

/-- Clocks and the timeline (R8-R20). -/
structure Clk where
  /-- The 64-bit timeline (R16). -/
  timeline : BitVec 64 := 0
  /-- Wraps of the timeline, 16 bits (R20). -/
  era : BitVec 16 := 0
  /-- The root PLL runs (R18). -/
  pllRunning : Bool := false
  /-- CLK_CTRL and CLK_PERI come from the FIO (R12). -/
  onFio : Bool := true
  /-- Root PLL reference (R14). -/
  ref : PllRef := .free
  /-- Correction word, the line-to-REFCLK offset it holds, in ppb (R14). -/
  corrWord : Int := 0
  /-- REFCLK is present (R9, R14). -/
  refclk : Bool := true
  /-- HREFCLK is present (R10, R231). -/
  hrefclk : Bool := true
  /-- The timeline halted while the root PLL was stopped (Table 1-4). -/
  tlGap : Bool := false
  /-- Timeline at which it last resumed after a halt. -/
  resumed : BitVec 64 := 0
  /-- Reading of the timing lane's lock at the last evaluation of Table 1-3. -/
  timingLocked : Bool := false
  /-- The timing lane at that evaluation. -/
  timingSeen : Nat := 0
  /-- Line frequency measured against REFCLK, in ppb, while referenced to the line. -/
  linePpb : Int := 0
  deriving DecidableEq, Repr

/-- Lane acquisition states (Table 2-6). -/
inductive LaneState | off | hunt | verify | lock | miss1 | miss2 | dormant | resume
  deriving DecidableEq, Repr

/-- Delineation states (Table 3-2). -/
inductive Delin | none | delineated | resync | wait
  deriving DecidableEq, Repr

/-- A candidate slot (R47, R49, R50). -/
structure Slot where
  /-- Start of the candidate's codeword 0 on the timeline. -/
  start : BitVec 64
  /-- First confirmation done; the index walk runs. -/
  confirmed : Bool := false
  /-- TX_LANE captured at the first confirmation. -/
  txLane : BitVec 2 := 0
  /-- CW_HCRC failures of the walk. -/
  hcrcFails : Nat := 0
  /-- The last SC before the candidate, then the SC of its first confirmation (R43). -/
  sc : BitVec 48 := 0
  deriving DecidableEq, Repr

/-- The key of the merge order (R81). -/
structure LotKey where
  sc : BitVec 48
  cw : Nat
  off : Nat
  txLane : Nat
  deriving DecidableEq, Repr

/-- A lot cut from a lane (R58, Table 3-1). -/
structure Lot where
  key : LotKey
  hdr : BitVec 64
  payload : Bytes
  /-- The receive lane it came on. -/
  lane : Nat := 0
  /-- Its payload is complete; until then only its header is known (R82). -/
  whole : Bool := true
  /-- Timeline at its release (R82). -/
  released : BitVec 64 := 0
  deriving DecidableEq, Repr

/-- A recorded marker arrival (R54). -/
structure Arrival where
  sc : BitVec 48
  at_ : BitVec 64
  extrapolated : Bool
  deriving DecidableEq, Repr

/-- A receive lane (spec/02, spec/03). -/
structure Lane where
  st : LaneState := .off
  /-- The clock recovery of the lane is locked (R53). -/
  cdrLocked : Bool := false
  /-- Recovered frequency against REFCLK, in ppb, at CDR lock (R14). -/
  ppb : Int := 0
  /-- The CTLE code in force (R30). -/
  ctleCode : Nat := 12
  /-- Timeline of ADAPT's last step (R31). -/
  ctleAt : Option (BitVec 64) := none
  /-- Rows and values of a LINE_SET_EQ waiting for the next codeword-0 boundary (R32). -/
  eqPending : List (Nat × Int) := []
  slots : List Slot := []
  /-- TX_LANE captured at lock. -/
  txLane : BitVec 2 := 0
  /-- Start of the current swath's codeword 0 at the held alignment. -/
  cw0 : BitVec 64 := 0
  /-- Position of the next codeword of the swath, 0 to 1,250. -/
  pos : Nat := 0
  /-- The SC of the current swath (R43, R44). -/
  sc : BitVec 48 := 0
  /-- Expected first marker bit while DORMANT or in RESUME (R47). -/
  expected : BitVec 64 := 0
  /-- The last recorded arrivals, newest first, at most 16 (R54, R196). -/
  arrivals : List Arrival := []
  /-- The descrambler register (R46). -/
  scr : BitVec 31 := 0
  /-- SH_CRC of the current swath's codeword 0 was valid (R41). -/
  shOk : Bool := false
  /-- PRI of the current swath (Table 2-4). -/
  pri : Bool := false
  /-- GROUP of the last valid SH_FLAGS (R78). -/
  shGroup : BitVec 2 := 0
  /-- A swath header with valid SH_CRC has been read since lock. -/
  shSeen : Bool := false
  /-- FMAP_COUNT and FMSG_COUNT of the current swath. -/
  fmapCount : Nat := 0
  fmsgCount : Nat := 0
  delin : Delin := .none
  /-- Timeline at which `delin` was entered (R165 LOL). -/
  delinSince : BitVec 64 := 0
  /-- Payload bytes of the swath not yet cut into lots; a gap byte is none (R37). -/
  buf : List (Option (BitVec 8)) := []
  /-- Swath byte position of the first byte of `buf`. -/
  bufAt : Nat := 0
  /-- The header of the lot that `buf` begins with has been handed to the merge (R82). -/
  hdrOut : Bool := false
  /-- Lots waiting for release (R80, R82). -/
  waiting : List Lot := []
  /-- Lots of an SC whose comparison of R80 is still open. -/
  undecided : List Lot := []
  /-- The comparison of R80 for the lane's last marker is still open. -/
  cmpOpen : Bool := false
  /-- PRI_CONFLICT has counted the lane in its current swath (R79). -/
  priCounted : Bool := false
  /-- The configured bonding group; none: never named, so group n (R77). -/
  group : Option (BitVec 2) := none
  included : Bool := false
  everIncluded : Bool := false
  /-- First SC of which the lane takes part (R84). -/
  inclFrom : BitVec 48 := 0
  /-- Consecutive swaths in which every condition of R78 held. -/
  okSwaths : Nat := 0
  /-- Signal detector reading (R165). -/
  signal : Bool := false
  deriving DecidableEq, Repr

/-- A plant report in force (R198). -/
structure Plant where
  bytes : Bytes
  deriving DecidableEq, Repr

/-- How far a released lot has come in Table 3-3: its payload still arrives or awaits step 4, it is
in the cipher engine (step 7), it is in the clear (step 8), or it has been discarded. -/
inductive RelStep
  | arriving
  | cipher
  | clear (payload : Bytes)
  | gone
  deriving DecidableEq, Repr

/-- A released lot of the merge order (R82): a gap was released before it, its step, and the swath
boundaries since its release (Table 3-6). -/
structure Rel where
  lot : Lot
  gap : Bool := false
  step : RelStep := .arriving
  boundaries : Nat := 0
  deriving DecidableEq, Repr

/-- A bonding group (R77-R84, R609). -/
structure Group where
  /-- Next BSEQ; none while the next release sets it (R83). -/
  expected : Option (BitVec 12) := none
  /-- Primary lane per recent SC, newest first (R79). -/
  primaries : List (BitVec 48 × Option Nat) := []
  /-- Greatest SC of which a header was released (R84). -/
  releasedSc : Option (BitVec 48) := none
  /-- Released lots that have not reached step 9 yet, in merge order (R76). -/
  released : List Rel := []
  /-- The SC whose primary lane was excluded in it (Table 3-11). -/
  lostPrimary : Option (BitVec 48) := none
  /-- Last swath boundary: SC and arrival (R609). -/
  boundary : Option (BitVec 48 × BitVec 64) := none
  /-- The plant report in force (R198). -/
  plant : Option Plant := none
  deriving DecidableEq, Repr

/-- An entry of the LOT_ID table (Table 3-4), with its owner (R130). -/
structure LotEntry where
  present : Bool := false
  expLabel : BitVec 8 := 0
  reqKey : Bool := false
  groupMask : BitVec 4 := 0
  cls : BitVec 8 := 0
  owner : Nat := 0
  deriving DecidableEq, Repr

/-- A reassembly context (R76). -/
structure Reasm where
  open_ : Bool := false
  label : BitVec 8 := 0
  keyIdx : BitVec 2 := 0
  bytes : Bytes := []
  group : Nat := 0
  /-- Swath boundaries passed since the first fragment's release. -/
  boundaries : Nat := 0
  bushels : Nat := 0
  deriving DecidableEq, Repr

/-- A lot handed on to the coulter, the time block or the Reeve (R74). -/
structure Delivered where
  lotId : BitVec 16
  label : BitVec 8
  keyIdx : BitVec 2
  group : Nat
  cls : BitVec 8
  /-- Place of the header of the lot that completed it (Table 16-3). -/
  key : LotKey
  bytes : Bytes
  deriving DecidableEq, Repr

/-- A packet handed to the coulter: a lot's payload, a server frame, or a reinjected packet. -/
structure InPkt where
  /-- SOURCE: 0 a server port, 1 the line (R287). -/
  line : Bool
  port : Nat
  group : Nat
  lotId : BitVec 16
  label : BitVec 8
  keyIdx : BitVec 2 := 0
  cls : BitVec 8
  bytes : Bytes
  fcsKept : Bool
  bushels : Nat
  /-- Capture time of a server frame (R238). -/
  capture : BitVec 64 := 0
  deriving DecidableEq, Repr

end Sys2Proof.Machine
end

