-- ==== Sys2Proof/Machine/StCry.lean ====
section
/-! DEFINITION. State of the cipher engine, the key slots and the key registers (spec/16).
Field defaults are the values after reset. -/
namespace Sys2Proof.Machine

/-- The exclusive or of two byte strings of one length. -/
def xorShares (a b : Bytes) : Bytes := List.zipWith (fun x y => x ^^^ y) a b

/-- A key slot (R431, R435, R439). It holds its key as two shares (R425). -/
structure KeySlot where
  share0 : Bytes := []
  share1 : Bytes := []
  loaded : Bool := false
  /-- SIZE of the loaded key: AES-256. -/
  size256 : Bool := false
  gen : BitVec 8 := 0
  salt : BitVec 32 := 0
  ctr : BitVec 64 := 0
  /-- USE, target, KEYIDX and ALG of Table 16-5. -/
  use : Nat := 0
  target : Nat := 0
  keyIdx : Nat := 0
  cmacAlg : Bool := false
  deriving DecidableEq, Repr

/-- The key that a slot's shares spell (R425). -/
def KeySlot.key (x : KeySlot) : Bytes := xorShares x.share0 x.share1

/-- The slot holding key `k` under the mask bits `m` (R425). -/
def KeySlot.withKey (k m : Bytes) (x : KeySlot) : KeySlot :=
  { x with share0 := xorShares k m, share1 := m }

/-- What an operation took at its start (R441): generation and shares of its slot's key, and the
number of its first draw of mask bits, one for each granule (R425). -/
structure CryStart where
  gen : BitVec 8
  share0 : Bytes
  share1 : Bytes
  mask : Nat
  deriving DecidableEq, Repr

/-- The key of an operation's start. -/
def CryStart.key (x : CryStart) : Bytes := xorShares x.share0 x.share1

/-- What an operation does. -/
inductive CryMode | seal | open_ | mac
  deriving DecidableEq, Repr

/-- Where an operation's outcome goes. -/
inductive CryDst
  /-- A downstream lot of a bonding group. -/
  | rxLot (group : Nat) (lot : Lot)
  /-- A lot laid out in a burst of an upstream lane. -/
  | txLot (ltx : Nat)
  /-- The tag of a field message laid out in a burst of an upstream lane. -/
  | txMsg (ltx : Nat)
  /-- A CIPHER call of a thread: harrow, tine, thread. -/
  | tine (h t th : Nat)
  /-- CRY_SEAL or CRY_UNSEAL, which the Reeve answers. -/
  | command
  deriving DecidableEq, Repr

/-- An operation of the engine, waiting or started (R423, R441). -/
structure CryOp where
  id : Nat
  /-- 0 LINE_RX, 1 LINE_TX, 2 OTHER (Table 16-1). -/
  client : Nat
  /-- The slot, once started, or the slot a CIPHER call names. -/
  slot : Nat
  /-- The binding looked up at the start: USE, target, KEYIDX; USE 5 takes the slot as is. -/
  use : Nat
  target : Nat
  keyIdx : Nat
  mode : CryMode
  nonce : Bytes
  aad : Bytes
  text : Bytes
  tag : Bytes
  started : Option CryStart := none
  dst : CryDst
  deriving DecidableEq, Repr

/-- A request of KEY_CTRL (R436). -/
inductive KeyReq | load (wrapped size256 : Bool) | erase | eraseAll
  deriving DecidableEq, Repr

/-- The cipher engine (spec/16). -/
structure Cry where
  slots : Tab KeySlot := []
  /-- KEY_SEL, KEY_DATA, BUSY with its request, RESULT (Table 16-4). -/
  sel : BitVec 7 := 0
  data : Bytes := List.replicate 40 0
  req : Option KeyReq := none
  result : BitVec 3 := 0
  /-- Operations, in order of arrival. -/
  ops : List CryOp := []
  nextId : Nat := 0
  /-- The next operation of OTHER is a command's: CIPHER and commands go by turns (Table 16-1). -/
  commandTurn : Bool := false
  /-- Draws of mask bits so far (R425). -/
  masks : Nat := 0
  /-- Generate requests since the last reseed, and its timeline value (R427); the last reseed failed;
  output stopped (R428). -/
  requests : Nat := 0
  reseedAt : BitVec 64 := 0
  entropyFailed : Bool := false
  stopped : Bool := false
  deriving DecidableEq, Repr

end Sys2Proof.Machine
end

