-- ==== Sys2Proof/Machine/StHost.lean ====
section
/-! DEFINITION. State of the Reeve, the mailbox, the event FIFO and the I3C target
(spec/20, spec/21). Field defaults are the values after reset. -/
namespace Sys2Proof.Machine

/-- An event entry (Table 20-5). -/
structure Event where
  code : BitVec 16
  seq : BitVec 16
  tag : Option (BitVec 16)
  mgmt : Bool
  alarm : Bool
  scope : BitVec 16
  era : BitVec 16
  tl : BitVec 64
  data : BitVec 32
  deriving DecidableEq, Repr

/-- A response (Table 20-4) with the way its command came. -/
structure Resp where
  src : CmdSrc
  opcode : BitVec 16
  tag : BitVec 16
  status : BitVec 16
  payload : Bytes
  deriving DecidableEq, Repr

/-- A command taken by firmware and not yet run (R533). -/
structure Taken where
  opcode : BitVec 16
  cmd : Cmd
  deriving DecidableEq, Repr

/-- A management command queued for firmware (R543, R545). -/
structure MgmtCmd where
  lotId : BitVec 16
  keyIdx : BitVec 2
  payload : Bytes
  deriving DecidableEq, Repr

/-- A change waiting for a swath boundary of the timing lane (R541, R542). -/
structure Deferred where
  opcode : BitVec 16
  cmd : Cmd
  /-- The SC named by AT_SWATH; none: the next boundary. -/
  sc : Option (BitVec 48)
  /-- The command's own payload, without the AT_SWATH field. -/
  body : Bytes
  deriving DecidableEq, Repr

/-- Counts of a counter: value and half-range flag (R55). -/
structure Ctr where
  value : BitVec 64 := 0
  half : Bool := false
  deriving DecidableEq, Repr

/-- The mailbox and the register window (R530-R535). -/
structure Win where
  /-- 0 ROM, 1 LOADING, 2 READY, 3 FAILED, 4 ACTIVATING. -/
  bootStatus : BitVec 8 := 0
  recovery : Bool := false
  fallback : Bool := false
  image : Bool := false
  fwVersion : BitVec 32 := 0
  /-- REEVE_FAULT, BOOT, ALARM, EVENT, RESP in bits 4 to 0. -/
  intStat : BitVec 5 := 0
  intEn : BitVec 5 := 0
  /-- [1] IBI_EN, [0] ALERT_EN. -/
  intCfg : BitVec 2 := 0
  intEnStg : BitVec 5 := 0
  intCfgStg : BitVec 2 := 0
  mbInPtr : BitVec 10 := 0
  mbOutPtr : BitVec 10 := 0
  /-- Inbound window: unwritten bytes read as zero (R534). -/
  inbound : Tab (BitVec 8) := []
  /-- Highest offset written, plus one; 0: nothing written. -/
  inHigh : Nat := 0
  outbound : Bytes := []
  dbReject : Bool := false
  respValid : Bool := false
  cmdBusy : Bool := false
  cmdFree : Bool := false
  /-- A doorbell was accepted and firmware has not copied the command yet. -/
  rung : Bool := false
  deriving DecidableEq, Repr

/-- The I3C target (R526-R529). -/
structure I3c where
  dynAddr : Option (BitVec 7) := none
  mwl : BitVec 16 := 1026
  mrl : BitVec 16 := 1026
  /-- IBIs enabled by ENEC. -/
  ibiEnabled : Bool := false
  /-- In HDR-DDR until the exit pattern. -/
  hdr : Bool := false
  winAddr : BitVec 8 := 0
  /-- Bytes returned by the last CCC or private read. -/
  lastRead : Bytes := []
  /-- Pending IBI requests, bit as in INT_STAT (R539). -/
  ibiPending : BitVec 5 := 0
  /-- Data byte of the last IBI that was accepted (Table 20-6). -/
  lastIbi : Option (BitVec 8) := none
  deriving DecidableEq, Repr

/-- The Reeve (R524, R541, R545, R549, R550). -/
structure Reeve where
  halted : Bool := false
  lockstepErr : Bool := false
  wdog : Bool := false
  taken : List Taken := []
  /-- Responses waiting for the outbound window (R535). -/
  responses : List Resp := []
  deferred : List Deferred := []
  /-- CRY_SEAL and CRY_UNSEAL whose operation the cipher engine has: its number, OPCODE, TAG. -/
  sealing : List (Nat × BitVec 16 × BitVec 16) := []
  /-- Management commands queued, oldest first, per instance (R545). -/
  mgmt0 : List MgmtCmd := []
  mgmt1 : List MgmtCmd := []
  /-- The last command taken came from the mailbox (R545). -/
  lastFromMailbox : Bool := false
  /-- A command has asked for the reset of R549: its OPCODE and TAG. The reset is due when its
  response is acknowledged, or 10 ms after posting. -/
  resetBy : Option (BitVec 16 × BitVec 16) := none
  /-- Event FIFO, oldest first (R537). -/
  events : List Event := []
  evSeq : BitVec 16 := 0
  /-- Events lost since the last EV_SYS_EVENTS_LOST. -/
  lost : Nat := 0
  deriving DecidableEq, Repr

end Sys2Proof.Machine
end

