-- ==== Sys2Proof/Machine/StTime.lean ====
section
/-! DEFINITION. State of supervision, the performance bins, the time block and its outputs
(spec/06, spec/07, spec/09). Field defaults are the values after reset. -/
namespace Sys2Proof.Machine

/-- A time of day (Table 1-5): TAI seconds, and grains of the second. -/
structure Tod where
  sec : BitVec 48
  grain : Nat
  deriving DecidableEq, Repr

/-- Defects of a receive lane and their windows (R165, R169, R185). -/
structure SupLane where
  los : Bool := false
  lof : Bool := false
  lol : Bool := false
  sd : Bool := false
  sf : Bool := false
  sdCount : Nat := 0
  sfCount : Nat := 0
  sdPartial : Bool := true
  sfPartial : Bool := true
  /-- Defects unmasked at any time in the current bin-clock second, code c at index c - 1. -/
  secSeen : BitVec 5 := 0
  /-- Uncorrectable codewords in the current second. -/
  secUc : Nat := 0
  deriving DecidableEq, Repr

/-- PLM of a LOT_ID (R165). -/
structure Plm where
  present : Bool := false
  plmRun : Nat := 0
  goodRun : Nat := 0
  deriving DecidableEq, Repr

/-- LTM and TAF of a time domain (R165). -/
structure SupDom where
  ltm : Bool := true
  taf : Bool := false
  /-- Timeline of the first of the two records that clear LTM. -/
  lastAccepted : Option (BitVec 64) := none
  /-- Consecutive authenticated records. -/
  tafRun : Nat := 0
  secLtm : Bool := false
  secTaf : Bool := false
  deriving DecidableEq, Repr

/-- Consequent actions of an activation instance (R172-R176). -/
structure SupInst where
  rdi : Bool := false
  /-- An RDI input has been true since the previous evaluation. -/
  rdiSeen : Bool := false
  /-- Start of the hold-off timer. -/
  holdStart : Option (BitVec 64) := none
  /-- A request was refused and the summary has stayed true since (R176). -/
  refused : Bool := false
  /-- The running summary has already made its request. -/
  fired : Bool := false
  secPlm : Bool := false
  secRdi : Bool := false
  deriving DecidableEq, Repr

/-- First instant of a bin (Table 6-5). -/
inductive BinStart | tod (t : Tod) | untimed (era : BitVec 16) (tl : BitVec 64)
  deriving DecidableEq, Repr

/-- A performance bin (R181). Counts are keyed by the count's place in Table 6-6 and its
scope. -/
structure Bin where
  start : BinStart := .untimed 0 0
  /-- In an open bin the bin-clock seconds that have ended in it; in a closed one BIN_SECONDS. -/
  seconds : Nat := 0
  partial_ : Bool := true
  timeStep : Bool := false
  leap : Bool := false
  lowPower : Bool := false
  restored : Bool := false
  tca : Bool := false
  counts : Tab Nat := []
  /-- Counts for which an alert was raised in this bin (R187). -/
  alerted : List Nat := []
  deriving DecidableEq, Repr

/-- Supervision (spec/06). -/
structure Sup where
  lane : Tab SupLane := []
  plm : Tab Plm := []
  dom : Tab SupDom := []
  inst : Tab SupInst := []
  open15 : Bin := {}
  closed15 : List Bin := []
  openDay : Bin := {}
  closedDay : List Bin := []
  /-- The bin clock is UTC of the selected domain (R178). -/
  timed : Bool := false
  deriving DecidableEq, Repr

/-- Servo states (R209). -/
inductive ServoState | disabled | freerun | acquiring | locked | holdover
  deriving DecidableEq, Repr

/-- A time domain's servo (R189-R210). Times are integers in 2^-8 grain, `y` in 2^-48. -/
structure Dom where
  st : ServoState := .freerun
  /-- TOD_ref at TL_ref, in 2^-8 grain since the epoch (R208). -/
  ref : Int := 0
  tlRef : BitVec 64 := 0
  /-- The domain has a value: it has left FREERUN since it was enabled (R209). -/
  hasValue : Bool := false
  y : Int := 0
  /-- Last phase error e, 2^-8 grain. -/
  lastE : Int := 0
  /-- Consecutive used records within LOCK_THRESH, beyond STEP_LIMIT, and while LOCKED. -/
  inRun : Nat := 0
  overRun : Nat := 0
  lockedRun : Nat := 0
  /-- y after each of the last used records, newest first (R209). -/
  yHist : List Int := []
  /-- TS_QUALITY of the latest used record (R196). -/
  quality : BitVec 8 := 0xF0
  utcOffset : Int := 0
  utcValid : Bool := false
  li61 : Bool := false
  li59 : Bool := false
  /-- TAI second at which the flagged UTC day ends and the offset changes (R197). -/
  leapAt : Option Int := none
  holdoverStart : BitVec 64 := 0
  /-- HOLD_VALID has passed in HOLDOVER (R210). -/
  holdExpired : Bool := false
  deriving DecidableEq, Repr

/-- A PPS_IN capture (R218), with its offsets from the second of each domain and the output. -/
structure PpsCapture where
  era : BitVec 16
  tl : BitVec 64
  off0 : Option Int
  off1 : Option Int
  offOut : Option Int
  deriving DecidableEq, Repr

/-- What a fit window gave for lane `t` against lane `p` (R203): the mean m[t] in 2^-8 grain, the
number of SCs and the variance of A_t - A_p in 2^-16 grain². -/
structure FitMean where
  t : Nat
  p : Nat
  m : Int
  n : Nat
  scatter : Nat
  deriving DecidableEq, Repr

/-- The fit of a domain's asymmetry (R203-R207). -/
structure Fit where
  /-- 0 FULL, 1 SLOPE, 2 PRIOR, 3 NONE, 4 OVERRIDE. -/
  mode : Nat := 3
  /-- 0 HIGH, 1 MEDIUM, 2 LOW, 3 none. -/
  confidence : Nat := 3
  bound : Bool := false
  /-- In 0.001 nm, 10^-7 ps/(nm2 km) and m. -/
  lambda0 : Nat := 1312000
  s0 : Nat := 850000
  length : Nat := 0
  /-- Share of the downstream in 2^-32, and the one before the last window (R205). -/
  share : Nat := 2147483648
  prevShare : Nat := 2147483648
  /-- In 2^-8 grain. -/
  fitSigma : Nat := 0
  residual : Nat := 0
  /-- Last SC of the last window. -/
  lastSc : BitVec 48 := 0
  /-- The means of the last window, by pair of lanes. -/
  means : List FitMean := []
  /-- Primary lane, ranging lane and RTT_f in grains of the latest used record (R200). -/
  px : Option (Nat × Nat × Int) := none
  deriving DecidableEq, Repr

/-- Sums of A_t - A_p of a pair of lanes in a domain's open fit window, and of the squares
(R203, R206). -/
structure FitLane where
  sum : Int := 0
  sq : Nat := 0
  n : Nat := 0
  excluded : Bool := false
  deriving DecidableEq, Repr

/-- An output that runs on without its domain (R213): its value at a timeline value, and the
rate. -/
structure RunOn where
  ref : Int
  tl : BitVec 64
  y : Int
  deriving DecidableEq, Repr

/-- The time block (spec/07) and the timed outputs (spec/09). -/
structure TimeBlk where
  dom : Tab Dom := []
  fit : Tab Fit := []
  /-- By domain * 16 + t * 4 + p. -/
  fitLane : Tab FitLane := []
  /-- Selected domain (R215). -/
  selected : Nat := 0
  /-- Output offset O in 2^-8 grain as it was at `offsetAt` (R213, R214). -/
  offset : Int := 0
  offsetAt : BitVec 64 := 0
  /-- The output time has had a value (R212). -/
  outHas : Bool := false
  runOn : Option RunOn := none
  /-- A host's step waits for the selected domain to leave FREERUN (R216). -/
  stepDue : Bool := false
  /-- PPS_IN captures, newest first, at most 16 (R218). -/
  captures : List PpsCapture := []
  ppsInLost : Bool := false
  lastPpsIn : Option (BitVec 64) := none
  /-- The output stepped since the last TOD_OUT message (R278). -/
  stepped : Bool := false
  /-- PPS_OUT (R277). -/
  ppsLevel : Bool := false
  lastEdge : Option (BitVec 64) := none
  /-- The TOD_OUT message due for the last edge (R278), and the last one sent. -/
  pendingTod : Option Bytes := none
  todSent : Option Bytes := none
  /-- TOD_SEQ of the next message (Table 9-7). -/
  todSeq : BitVec 16 := 0
  deriving DecidableEq, Repr

end Sys2Proof.Machine
end

