-- ==== Sys2Proof/Machine/StLife.lean ====
section
/-! DEFINITION. State of the lifetime store (spec/22), which survives every reset and loss of
power, and of the live summary beside it. -/
namespace Sys2Proof.Machine

/-- A gap entry or a mark: REC_SEQ and the body (R569). -/
structure Rec where
  seq : BitVec 32
  body : Bytes
  deriving DecidableEq, Repr

/-- The first authenticated acquisition (Table 22-2): time of day and UTC date. -/
structure FirstTod where
  tod : Tod
  year : Nat
  month : Nat
  day : Nat
  deriving DecidableEq, Repr

/-- The values of Table 22-2 that accumulate. -/
structure Summary where
  /-- Slots retired and skipped (R571). -/
  badSlots : Nat := 0
  first : Option FirstTod := none
  /-- Grains spent in RUN, DOZE, FALLOW, DEEP_FALLOW (R574). -/
  powerGrains : Tab Nat := []
  /-- Grains of the gap entries' spans (R576). -/
  unpowered : Nat := 0
  /-- Seconds per temperature bin (R574). -/
  tj : Tab Nat := []
  bursts : Tab Nat := []
  laser : Tab Nat := []
  boots : Nat := 0
  coldBoots : Nat := 0
  resets : Nat := 0
  sysResets : Nat := 0
  retFails : Nat := 0
  keyWrites : Nat := 0
  roleChanges : Nat := 0
  gaps : Nat := 0
  marks : Nat := 0
  deriving DecidableEq, Repr

/-- A checkpoint (R572): the summary, with era, timeline and output time of day at the
checkpoint, and the open day bin. -/
structure Checkpoint where
  seq : BitVec 32
  era : BitVec 16
  tl : BitVec 64
  tod : Option Tod
  summary : Summary
  dayBin : Bin
  deriving DecidableEq, Repr

/-- A stored day bin. -/
structure DayBin where
  seq : BitVec 32
  bin : Bin
  deriving DecidableEq, Repr

/-- One region of the store (R569, R571): the slot after the newest record, the slots that the remap
table redirects with the spare's offset, and the failed slots that have no spare. -/
structure Ring where
  next : Nat := 0
  remap : List (Nat × Nat) := []
  skipped : List Nat := []
  deriving DecidableEq, Repr

/-- The lifetime store: the rings of Table 22-1, newest first, and the live summary. -/
structure Life where
  live : Summary := {}
  /-- Timeline up to which `powerGrains` is counted. -/
  powerAt : BitVec 64 := 0
  checkpoints : List Checkpoint := []
  dayBins : List DayBin := []
  gaps : List Rec := []
  marks : List Rec := []
  /-- The regions' slots: 0 checkpoints, 1 day bins, 2 gap entries, 3 marks. -/
  rings : Tab Ring := []
  /-- Bytes of the spare slots in use (Table 22-1). -/
  spareUsed : Nat := 0
  /-- How the record writes to come read back, in order: true, a word does not (R571). The command
  that writes brings it; writes past its end read back. -/
  misreads : List Bool := []
  lastMark : Option (BitVec 64) := none
  /-- The timeline has restarted since the last boot (R16, Table 22-2). -/
  cold : Bool := false
  /-- The calendar has resumed since the last cold boot (R575). -/
  calendar : Bool := false
  /-- A gap entry is due: its cause, and the timeline at the restart or resume (R576). -/
  gap : Option (Bool × BitVec 64) := some (false, 0)
  deriving DecidableEq, Repr

end Sys2Proof.Machine
end

