-- ==== Sys2Proof/Machine/StQos.lean ====
section
/-! DEFINITION. State of the bushel pool, the queues, the arbiters, shapers and meters, and of
the server ports (spec/08, spec/15). Field defaults are the values after reset. -/
namespace Sys2Proof.Machine

/-- A frame in a queue or in transmission. -/
structure Frame where
  bytes : Bytes
  /-- Handed on as a sheaf (LABEL 0x03). -/
  sheaf : Bool := false
  /-- FCS retained in `bytes` (LABEL 0x02). -/
  fcsKept : Bool := false
  /-- The frame was modified on its way (R240, R400). -/
  modified : Bool := false
  bushels : Nat := 0
  /-- Bytes already laid out as fragments (R115). -/
  sent : Nat := 0
  /-- LTX lane of the first fragment (R115). -/
  fragLane : Nat := 0
  /-- A sheaf under way: segments sent and the cut size, `sent` counting payload bytes (R249). -/
  seg : Nat := 0
  cut : Nat := 0
  /-- A frame of the time engine or the CPU path, not of a user (R267). -/
  time : Bool := false
  deriving DecidableEq, Repr

/-- A queue and its frames, oldest first (R396). -/
structure Queue where
  frames : List Frame := []
  /-- Bushels held by frames and by fragments not yet sent. -/
  bushels : Nat := 0
  high : Nat := 0
  /-- EV_CRY_NO_TX_KEY has been raised for the queue (R440). -/
  noKeyRaised : Bool := false
  deriving DecidableEq, Repr

/-- A self-clocked fair arbiter (R404): virtual time, and start and finish tags by child. -/
structure Arbiter where
  v : BitVec 48 := 0
  tags : Tab (BitVec 48 × BitVec 48) := []
  deriving DecidableEq, Repr

/-- A token bucket (R412): T in 2^-32 byte. -/
structure Bucket where
  t : Int := 0
  last : BitVec 64 := 0
  /-- Set up since reset; before that it is full. -/
  live : Bool := false
  deriving DecidableEq, Repr

/-- A meter's buckets (R415), in 2^-32 byte. -/
structure Meter where
  tc : Int := 0
  te : Int := 0
  last : BitVec 64 := 0
  deriving DecidableEq, Repr

/-- Buffers and scheduling (spec/15). -/
structure Qos where
  free : Nat := 98304
  low : Nat := 98304
  ds : Tab Queue := []
  us : Tab Queue := []
  /-- Port arbiters 0-7; plot arbiters by PLOT_ID; group arbiters by PLOT_ID * 8 + group. -/
  portArb : Tab Arbiter := []
  plotArb : Tab Arbiter := []
  groupArb : Tab Arbiter := []
  /-- Shaper buckets by scope. -/
  shapers : Tab Bucket := []
  meters : Tab Meter := []
  deriving DecidableEq, Repr

/-- Link states (Table 8-3), coded as PORT_GET_STATS. -/
inductive LinkState | disabled | down | rising | up | fault
  deriving DecidableEq, Repr

/-- A frame in reception (R237, R392): what holds for it from its first byte. -/
structure RxState where
  /-- Timeline at the capture point (R268). -/
  capture : BitVec 64
  /-- The filter table in force for this frame (R244). -/
  filters : List (BitVec 128)
  defaultDrop : Bool
  defaultClass : BitVec 8
  maxFrame : Nat
  bushels : Nat
  /-- Refused by the floor or an empty pool (R393, R394). -/
  noBuf : Bool
  /-- Timeline at its first byte; its bushels are taken from there as its bytes arrive (R391). -/
  begun : BitVec 64 := 0
  /-- Intake had stopped at its first byte (Table 18-5). -/
  refused : Bool := false
  /-- Cut by the loss of PCS status (R239). -/
  cut : Bool := false
  deriving DecidableEq, Repr

/-- A frame being sent. -/
structure TxNow where
  bytes : Bytes
  /-- Its queue; none for a frame of the precision-time engine. -/
  queue : Option Nat
  /-- Bushels that its end releases, and L when it ends its stored frame (R391, R419). -/
  bushels : Nat := 0
  ends : Option Nat := none
  /-- A segment of a sheaf (R253). -/
  segment : Bool := false
  /-- Kind of a time message: 0 Sync, 1 Follow_Up, 2 Announce, 3 Delay_Resp, 4 other. -/
  kind : Nat := 4
  deriving DecidableEq, Repr

/-- A message of the precision-time engine waiting at its port, without FCS (R267). -/
structure TimeMsg where
  kind : Nat
  bytes : Bytes
  /-- A Sync is timestamped as it leaves: offset of its PTP header, instance, client, and
  whether in one step. -/
  ptpAt : Nat := 0
  instB : Bool := false
  ip : Option (BitVec 128) := none
  oneStep : Bool := false
  /-- The source of its instance, TS_BOARD_TX and the V6 checksum as they were when it was built
  (R258); no source for a message that is no instance's. -/
  src : Option (Option Nat) := none
  board : Int := 0
  v6 : Bool := false
  deriving DecidableEq, Repr

/-- A Follow_Up due (R270). -/
structure FollowDue where
  instB : Bool
  ip : Option (BitVec 128)
  seq : BitVec 16
  /-- Egress timestamp: seconds, nanoseconds and 2^-16 ns. -/
  sec : BitVec 48
  ns : BitVec 32
  frac : BitVec 64
  deriving DecidableEq, Repr

/-- A unicast grant (R265): instance, client, message type, period, end. -/
structure Grant where
  instB : Bool
  ip : BitVec 128
  mac : BitVec 48
  msgType : BitVec 4
  logPeriod : BitVec 8
  ends : BitVec 64
  deriving DecidableEq, Repr

/-- A claimed frame waiting for the engine (R261): 0 Delay_Req, 1 Signaling, 2 ARP request,
3 Neighbor Solicitation. -/
structure Claimed where
  kind : Nat
  bytes : Bytes
  capture : BitVec 64
  deriving DecidableEq, Repr

/-- A server port (spec/08, spec/09). -/
structure Port where
  link : LinkState := .disabled
  pcsUp : Bool := false
  /-- Block lock of the port's lanes, the lowest in bit 0. -/
  locks : BitVec 4 := 0
  hiBer : Bool := false
  /-- A fault ordered set within the last 128 columns, and its kind. -/
  faultSeen : Bool := false
  remoteFault : Bool := false
  /-- LINK_UP_DELAY has passed in RISING. -/
  delayDone : Bool := false
  /-- End of a pause (R242). -/
  pauseUntil : Option (BitVec 64) := none
  /-- pause_time of a PAUSE that came while a frame was being sent (Table 8-9). -/
  pauseNext : Option Nat := none
  /-- Columns that the elastic buffer has still to delete (R228). -/
  owed : Nat := 0
  /-- Filter entries from index 0 (Table 21-8). -/
  filters : List (BitVec 128) := []
  defaultDrop : Bool := false
  defaultClass : BitVec 8 := 0
  rx : Option RxState := none
  tx : Option TxNow := none
  timeIn : List Claimed := []
  timeQ : List TimeMsg := []
  follow : List FollowDue := []
  grants : List Grant := []
  /-- Delay_Req answered within the last second: sourcePortIdentity and capture (R264). -/
  answered : List (BitVec 80 × BitVec 64) := []
  /-- sequenceId of the next message, by instance, message type and client (IEEE 1588). -/
  seqs : Tab (BitVec 16) := []
  deriving DecidableEq, Repr

/-- A server lane (R226): the CTLE code in force. -/
structure SLane where
  code : Nat := 4
  deriving DecidableEq, Repr

end Sys2Proof.Machine
end

