-- ==== Sys2Proof/Machine/StSys.lean ====
section
/-! DEFINITION. State of power, the redundant pair, life cycle and debug, the lifetime store and
the balls (spec/17, spec/18, spec/19, spec/22, spec/23). Field defaults are the values after
reset. -/
namespace Sys2Proof.Machine

/-- Power states (R464), coded as DEV_STAT. -/
inductive PwrState | run | doze | fallow | deepFallow
  deriving DecidableEq, Repr

/-- Phase of a power change (R488). -/
inductive PwrPhase | stable | entering | waking
  deriving DecidableEq, Repr

/-- A latched wake (R480). -/
structure Wake where
  source : Nat
  index : BitVec 8
  others : BitVec 16
  era : BitVec 16
  tl : BitVec 64
  deriving DecidableEq, Repr

/-- Power (spec/18). -/
structure Pwr where
  st : PwrState := .run
  phase : PwrPhase := .stable
  target : PwrState := .run
  /-- Last point reached in the entry under way or just left: 0 none, E1 to E5. -/
  point : Nat := 0
  /-- TAG of the PWR_SET_STATE under way; of those that led to the present state; of those that
  asked for RUN since (Table 21-10). -/
  tag : Option (BitVec 16) := none
  stTags : List (BitVec 16) := []
  runTags : List (BitVec 16) := []
  /-- Domains on, as Table 21-6 numbers them. -/
  on : BitVec 64 := 0x0003FFFFFFFFFF00
  /-- Domains on when RUN was left (R481). -/
  onAtE1 : BitVec 64 := 0
  /-- Pads latched, as Table 21-6 numbers them, and as they were before the entry under way. -/
  latched : BitVec 64 := 0
  latchedWas : BitVec 64 := 0
  /-- Harrows and BUF banks being gated off that are still at work (R487). -/
  gating : BitVec 64 := 0
  /-- By BUF bank being gated off: bushels it still holds, and the TAG of the command. -/
  bufHeld : Tab Nat := []
  gatingTag : Tab (BitVec 16) := []
  /-- Retention signatures taken at E3. -/
  sigs : Bool := false
  wake : Option Wake := none
  /-- Signal readings kept at E4 (R478): SL lanes and LRX lanes that had signal. -/
  slAtE4 : BitVec 8 := 0
  lrxAtE4 : BitVec 4 := 0
  intakeStopped : Bool := false
  /-- Instances P, S: a notice has been queued for this entry and not withdrawn. -/
  noticeP : Bool := false
  noticeS : Bool := false
  /-- NOTICE_WAIT and DRAIN_WAIT run (R471). -/
  noticeWait : Bool := false
  drainWait : Bool := false
  /-- The rouse correlator's last 160 decisions, newest first (R479). -/
  chips : List Bool := []
  /-- The lanes on which the groups listen (R476). -/
  listening : BitVec 4 := 0
  /-- The wake report (Table 18-13). -/
  wrSeq : BitVec 16 := 0
  report : Bytes := []
  /-- Era and timeline at E5 (Table 18-13). -/
  entryEra : BitVec 16 := 0
  entryTl : BitVec 64 := 0
  deriving DecidableEq, Repr

/-- Pair states (R500). -/
inductive PairState | solo | standby | active | rejoining | isolated
  deriving DecidableEq, Repr

/-- A command held for its APPLY_SC (R510). -/
structure Held where
  mirrorSeq : BitVec 32
  applySc : BitVec 48
  opcode : BitVec 16
  cmd : Cmd
  /-- Sent by this chip and not yet acknowledged. -/
  awaitAck : Bool
  fromPeer : Bool
  /-- Its APPLY_SC has been reached. -/
  due : Bool := false
  deriving DecidableEq, Repr

/-- A tether message sent (Table 19-8), as its fields. -/
inductive TetherMsg
  | hello (b : HelloBody)
  | health (b : HealthBody)
  | mirrorCmd (seq : BitVec 32) (applySc : BitVec 48) (opcode : BitVec 16) (cmd : Cmd)
  | mirrorAck (seq : BitVec 32) (status : BitVec 16)
  | timeCmp (exchange : BitVec 32) (reply : Option (Int × Int))
  | snapReq (schemaMin schemaMax : BitVec 16)
  | snapData (schema : BitVec 16) (offset : BitVec 32) (bytes : Bytes)
  | snapEnd (schema : BitVec 16) (sc : BitVec 48) (length : BitVec 32) (crc : BitVec 32)
  deriving DecidableEq, Repr

/-- A yield under way (R506): made with FORCE, and on to ISOLATED. -/
structure Yield where
  force : Bool
  isolate : Bool
  deriving DecidableEq, Repr

/-- The redundant pair (spec/19). -/
structure Pair where
  st : PairState := .solo
  /-- CLAIM phase of STANDBY (R498). -/
  claim : Bool := false
  /-- End of the lease; none: not running (R496). -/
  lease : Option (BitVec 64) := none
  /-- ROLE_OUT as driven, its read-back, and ROLE_IN, synchronised (R495). -/
  roleOut : Bool := false
  roleIn : Bool := false
  readback : Bool := false
  outOfStep : Bool := false
  stale : Bool := false
  versionGap : Bool := false
  /-- FORCE armed for one claim or yield (R520); FORCE_PEER sent in HEALTH (R506). -/
  forceArmed : Bool := false
  forcePeer : Bool := false
  yielding : Option Yield := none
  tetherUp : Bool := false
  /-- T_SEQ of the next message (Table 19-8). -/
  txSeq : BitVec 32 := 0
  /-- The last HELLO and HEALTH received. -/
  hello : Option HelloBody := none
  health : Option HealthBody := none
  /-- The last MIRROR_SEQ given and the last one applied (R510). -/
  mirrorSeq : BitVec 32 := 0
  lastApplied : Option (BitVec 32) := none
  held : List Held := []
  /-- TIME_CMP: exchange under way and its t1; twice the last 8 offsets, newest first;
  PAIR_TIME_DIFF; all in 2^-8 grain (R517). -/
  exchange : BitVec 32 := 0
  cmpT1 : Option Int := none
  offsets : List Int := []
  timeDiff : Int := 0
  timeAlarmed : Bool := false
  /-- Rejoin attempts made since the last agreement, the snapshot's bytes received, and an attempt
  under way (R518, R519). -/
  attempts : Nat := 0
  snapshot : Bytes := []
  snapping : Bool := false
  /-- Consecutive HEALTH messages that disagree in STATE_DIGEST and in ROLE_OUT (R513, R499). -/
  digestRun : Nat := 0
  wiringRun : Nat := 0
  /-- Messages put on the tether, oldest first. -/
  sent : List (BitVec 32 × TetherMsg) := []
  deriving DecidableEq, Repr

/-- Fuses (R446-R449, R431). They survive reset. -/
structure Fuses where
  prov : BitVec 16 := 0
  sec : BitVec 16 := 0
  ret : BitVec 16 := 0
  kek : BitVec 256 := 0
  kekCrc : BitVec 32 := 0
  bootKeyHash : BitVec 384 := 0
  debugKeyHash : BitVec 384 := 0
  deriving DecidableEq, Repr

/-- Debug states (R456). -/
inductive Debug | locked | authenticated | open_
  deriving DecidableEq, Repr

/-- Life cycle, boot and debug (spec/17). -/
structure Sec where
  /-- Life-cycle state decoded at the last boot (R446), coded as in R458. -/
  lc : Nat := 0
  debug : Debug := .open_
  upstreamInhibit : Bool := false
  challenge : Option (Bytes × BitVec 64) := none
  unlockFail : BitVec 8 := 0
  extest : Bool := false
  reeveHalted : Bool := false
  tinesHalted : BitVec 192 := 0
  /-- Last value shifted out of the TAP. -/
  tapOut : BitVec 32 := 0
  deriving DecidableEq, Repr

/-- The boot flash behind the SPI bus (R452, R453, R550). It survives reset. A byte that nothing
has written reads as 0xFF. -/
structure Flash where
  /-- ACTIVE image of a valid boot control block: false A, true B; none: the block is invalid. -/
  active : Option Bool := none
  a : Tab (BitVec 8) := []
  b : Tab (BitVec 8) := []
  /-- The draw of free values that a region's bytes come from, after an ERASE that failed. -/
  freeA : Option Nat := none
  freeB : Option Nat := none
  /-- WRITE under way: region and bytes received so far (R299). -/
  load : Option (Bool × Nat) := none
  /-- ERASE under way: region and TAG. -/
  erasing : Option (Bool × BitVec 16) := none
  deriving DecidableEq, Repr

/-- The balls (spec/23). -/
structure Pins where
  resetN : Bool := true
  pwrGood : Bool := true
  /-- Reset in progress: RESET_N low or PWRGOOD low (R590, R592). -/
  inReset : Bool := false
  /-- TEST_MODE was high when RESET_N rose: the device stays in reset (Table 23-10). -/
  testHeld : Bool := false
  /-- The ADDR straps as sampled (R586). -/
  addr : BitVec 3 := 0
  /-- A dying gasp has been seen and not ended (R593). -/
  gasp : Bool := false
  deriving DecidableEq, Repr

end Sys2Proof.Machine
end

