-- ==== Sys2Proof/Machine/StUp.lean ====
section
/-! DEFINITION. State of upstream transmission and of activation (spec/04, spec/05). Field
defaults are the values after reset. -/
namespace Sys2Proof.Machine

/-- A stored furrow (R90, R95, R97). -/
structure Furrow where
  plot : BitVec 14
  so : Bool
  rr : Bool
  mp : Bool
  rw : Bool
  pre : BitVec 2
  dur : Nat
  /-- S: the timeline value of the first preamble bit. -/
  s : BitVec 64
  sc : BitVec 48
  eqd : Nat
  group : Nat
  /-- A(N), the arrival of the marker whose swath carried the map (R96, R434). -/
  arr : BitVec 64
  /-- 0 stored, 1 past its header sample point (R109), 2 past its enable (R122). -/
  stage : Nat := 0
  deriving DecidableEq, Repr

/-- A lot laid out in a burst (R113, R114). -/
structure TxLot where
  hdr : BitVec 64
  payload : Bytes
  /-- The queue it came from; none for idle fill and management responses. -/
  queue : Option Nat
  /-- The cipher operation of an encrypted lot: none when clear (R424). -/
  cipher : Option Nat := none
  /-- Encryption complete. -/
  ready : Bool := true
  /-- BSEQ is assigned (R118). -/
  num : Bool := false
  /-- Key and nonce of a completed operation whose lot has no BSEQ yet: its AAD is not known. -/
  keyNonce : Option (Bytes × Bytes) := none
  /-- Bushels released when the lot has been sent or lost, and the length of the frame it
  ends. -/
  bushels : Nat := 0
  ends : Option Nat := none
  deriving DecidableEq, Repr

/-- A burst fixed at its header sample point (R109). -/
structure Burst where
  furrow : Furrow
  /-- Burst header, 16 bytes (Table 4-3). -/
  hdr : Bytes
  /-- Field message at payload bytes 16-63, if any. -/
  msg : Option Bytes
  lots : List TxLot
  /-- The engine's operation that gives the message its tag, and the message as it was queued
  (Table 16-7). -/
  msgOp : Option Nat := none
  msgBack : Option (BitVec 8 × Bytes) := none
  /-- L in grains (R105). -/
  len : Nat
  /-- RAND_DELAY of an announce burst (R151). -/
  delay : Nat := 0
  /-- Full codewords and the shortened one's j. -/
  k : Nat
  j : Nat
  statusOnly : Bool
  announce : Bool := false
  ranging : Bool := false
  /-- Laid out since the latest start of the lane's numbering (R118). -/
  resync : Bool := false
  /-- BENx high: the burst is being sent (R121). -/
  sending : Bool := false
  deriving DecidableEq, Repr

/-- An upstream lane (spec/04). -/
structure UsLane where
  /-- Furrow store, in order of S (R95). -/
  furrows : List Furrow := []
  /-- EqD in force (R98). -/
  eqd : Nat := 0
  /-- Assignments waiting for their first SC, oldest message first. -/
  eqdPending : List (BitVec 48 × Nat) := []
  /-- EqD assigned since the instance entered RANGING, from the boundary of its first SC on (R139,
  R146). -/
  eqdAssigned : Bool := false
  /-- RTTs with the first SC they apply to, oldest first (R153, R202). -/
  rtts : List (BitVec 48 × Nat) := []
  /-- Lane enabled by LINE_CONFIGURE_LANES. -/
  enabled : Bool := false
  /-- Bursts laid out and not yet ended, oldest first (R109). -/
  bursts : List Burst := []
  /-- BENx (R121). -/
  ben : Bool := false
  /-- Watchdog trip latched (R123). -/
  wdTrip : Bool := false
  /-- BENx was high when REFCLK was lost, and it has not returned (R123). -/
  wdMonitor : Bool := false
  /-- BENx has been high since this timeline value; the watchdog's REFCLK edges count from it. -/
  benSince : BitVec 64 := 0
  /-- Encrypted lots laid out: SC of the map, LOT_ID and S of the burst (R433). -/
  encUsed : List (BitVec 48 × Nat × BitVec 64) := []
  /-- Channel, grid and frequency in force, as last read from the module (R156). -/
  grid : BitVec 8 := 0
  channel : BitVec 16 := 0
  freq : BitVec 32 := 0
  prevGrid : BitVec 8 := 0
  prevChannel : BitVec 16 := 0
  tunable : Bool := false
  /-- Transmitter disabled through page 10h while tuning (R156). -/
  txDisabled : Bool := false
  /-- Tuning step: 0 none, 1 tuning, 2 reverting. -/
  tuneStep : Nat := 0
  /-- RESULT of the failed attempt while reverting. -/
  tuneResult : BitVec 8 := 0
  deriving DecidableEq, Repr

/-- Upstream transmission (R117, R118). -/
structure UpS where
  lane : Tab UsLane := []
  /-- SPLIT mode (R117). -/
  split : Bool := false
  /-- BSEQ counter per upstream group; JOINT uses group 0 (R118). -/
  bseq0 : BitVec 12 := 0
  bseq1 : BitVec 12 := 0
  /-- RESYNC is due in the bursts of LTX0, LTX1 (R118). -/
  resync0 : Bool := true
  resync1 : Bool := true
  /-- Numbers due to lots that will not be sent: lane and grain of the header (R119). -/
  ghosts : List (Nat × BitVec 64) := []
  /-- Reset or takeover: earlier maps carry idle lots only (R434). -/
  freshFrom : Option (BitVec 64) := none
  deriving DecidableEq, Repr

/-- Activation states (Table 5-5), coded as ACT_STATE of Table 4-3. -/
inductive ActState | listen | announce | ranging | operating | holdover | silenced | tuning
  deriving DecidableEq, Repr

/-- What a field message leaves for a swath boundary (R139): the state and TERMINAL_ID come into
force for bursts; a timer (0 TO_PROFILE, 1 TO_RANGE, 2 TO_HOLD, 3 TO_TUNE) starts or stops;
DURATION starts; EqD is cleared; the instance enters OPERATING; tuning starts. -/
inductive ActDue
  | commit | timer (k : Nat) (start : Bool) | duration (d : BitVec 16) | clearEqd | operating
  | tune (lane : Nat) (grid : BitVec 8) (channel : BitVec 16)
  deriving DecidableEq, Repr

/-- One such change, the group that carried the message, and the SC it names. -/
structure ActTodo where
  group : Nat
  sc : Option (BitVec 48)
  what : ActDue
  deriving DecidableEq, Repr

/-- An activation instance (R127). -/
structure Inst where
  /-- State that messages are checked against (R139). -/
  st : ActState := .listen
  /-- State in force for furrows and bursts (R139). -/
  stBurst : ActState := .listen
  enabled : Bool := false
  terminalId : BitVec 16 := 0xFFFF
  /-- TERMINAL_ID in force for bursts (R139). -/
  tidBurst : BitVec 16 := 0xFFFF
  opRev : BitVec 16 := 0
  rangePlot : BitVec 14 := 0
  prior : ActState := .listen
  /-- Changes that messages left for a boundary, oldest first (R139). -/
  todo : List ActTodo := []
  toProfile : Bool := false
  toRange : Bool := false
  toHold : Bool := false
  toTune : Bool := false
  /-- DURATION timer running, and its length in units of 64 swaths (R147). -/
  durRunning : Bool := false
  duration : BitVec 16 := 0
  lastSeq : Option (BitVec 8) := none
  txSeq : BitVec 8 := 0
  /-- Pending upstream messages: bytes 2 (FM_TYPE) and 4-39 of each (R142). -/
  txQueue : List (BitVec 8 × Bytes) := []
  backoff : Nat := 0
  annOpen : Bool := false
  annBackoff : Nat := 0
  heId : BitVec 32 := 0
  /-- The ACK of the last accepted message: type, FM_SEQ, result (R138). -/
  lastAck : Option (BitVec 8 × BitVec 8 × BitVec 8) := none
  /-- A message key was bound at the latest swath boundary: addressed messages with the CRC-64 form
  are rejected (R164). -/
  keyed : Bool := false
  /-- SILENCE received during TUNING: its DURATION (R164). -/
  silencePending : Option (BitVec 16) := none
  /-- Lane being tuned. -/
  tuneLane : Nat := 0
  mgmtMask : BitVec 16 := 0x097C
  /-- Management responses waiting to be sent: LOT_ID, KEYIDX, payload (R546). -/
  mgmtOut : List (BitVec 16 × BitVec 2 × Bytes) := []
  deriving DecidableEq, Repr

/-- Activation (spec/05). -/
structure Act where
  dual : Bool := false
  /-- Working parent: 0 P, 1 S (R157). -/
  working : Nat := 0
  inst : Tab Inst := []
  /-- A protection switch has taken effect since parenting was set (R159). -/
  switched : Bool := false
  /-- Requested protection switch (R159, R160). -/
  pendingSwitch : Option Nat := none
  /-- Plot table: 1 + owning instance per PLOT_ID, 0 when absent (R89, R130). -/
  plots : Tab Nat := []
  deriving DecidableEq, Repr

end Sys2Proof.Machine
end

