-- ==== Sys2Proof/Machine/State.lean ====
section
/-! DEFINITION. The state of the block, its reasons to stop, and its state after reset. -/
namespace Sys2Proof.Machine

/-- Reasons for a fault. The spec gives every command an effect, so no meaning raises one;
the type is closed and has no constructor. -/
inductive Fault
  deriving DecidableEq

/-- Reasons for a refusal. -/
inductive Refusal
  /-- Raised by an arm of `exec` whose meaning is not written; no arm raises it. Safe: the
  machine stops where the hardware goes on. -/
  | notModelled (mnemonic : String)
  deriving DecidableEq, Repr

/-- The state of the block. -/
structure State where
  clk : Clk := {}
  lanes : Tab Lane := []
  groups : Tab Group := []
  lots : Tab LotEntry := []
  reasm : Tab Reasm := []
  /-- Lots handed to the time block and to the Reeve, oldest first (R74). -/
  toTime : List Delivered := []
  toReeve : List Delivered := []
  /-- Packets waiting for the coulter, oldest first (R74, R246). -/
  inQ : List InPkt := []
  us : UpS := {}
  act : Act := {}
  sup : Sup := {}
  time : TimeBlk := {}
  qos : Qos := {}
  cry : Cry := {}
  cls : Cls := {}
  tine : Tine := {}
  ports : Tab Port := []
  slanes : Tab SLane := []
  pwr : Pwr := {}
  pair : Pair := {}
  fuses : Fuses := {}
  sec : Sec := {}
  flash : Flash := {}
  life : Life := {}
  pins : Pins := {}
  win : Win := {}
  i3c : I3c := {}
  reeve : Reeve := {}
  /-- Settings given (R555); one never given reads as its table's default. -/
  settings : Tab (Option Int) := []
  /-- Counters (R55), keyed by table, number and scope. -/
  counters : Tab Ctr := []
  /-- The MODEL'S OWN counter of free values drawn; the spec names no such thing. -/
  freeCtr : Nat := 0
  /-- Commands waiting, first in, first out. -/
  pending : List Instr := []
  deriving DecidableEq, Repr

/-- The block right after reset. -/
def State.reset : State := {}

end Sys2Proof.Machine
end

