-- ==== Sys2Proof/Machine/Ops.lean ====
section
/-! DEFINITION. The named operations every meaning is built from: reading and writing the
state's tables, settings, counters and their bins, events and interrupts, free values. -/
namespace Sys2Proof.Machine

/-- What every meaning answers. -/
abbrev Out := Host.Outcome State Fault Refusal

/-- The present time: the timeline (R16). -/
def now (s : State) : BitVec 64 := s.clk.timeline

/-! Tables of the state. -/

/-- Receive lane `l`. -/
def laneOf (s : State) (l : Nat) : Lane := tabGet {} s.lanes l
/-- Change receive lane `l`. -/
def modLane (l : Nat) (f : Lane → Lane) (s : State) : State :=
  { s with lanes := tabMod {} s.lanes l f }
/-- Bonding group `g`. -/
def groupOf (s : State) (g : Nat) : Group := tabGet {} s.groups g
/-- Change bonding group `g`. -/
def modGroup (g : Nat) (f : Group → Group) (s : State) : State :=
  { s with groups := tabMod {} s.groups g f }
/-- Upstream lane `l`. -/
def usLaneOf (s : State) (l : Nat) : UsLane := tabGet {} s.us.lane l
/-- Change upstream lane `l`. -/
def modUsLane (l : Nat) (f : UsLane → UsLane) (s : State) : State :=
  { s with us := { s.us with lane := tabMod {} s.us.lane l f } }
/-- Activation instance `i`: 0 is P or the only one, 1 is S. -/
def instOf (s : State) (i : Nat) : Inst := tabGet {} s.act.inst i
/-- Change activation instance `i`. -/
def modInst (i : Nat) (f : Inst → Inst) (s : State) : State :=
  { s with act := { s.act with inst := tabMod {} s.act.inst i f } }
/-- Supervision of lane `l`. -/
def supLaneOf (s : State) (l : Nat) : SupLane := tabGet {} s.sup.lane l
/-- Change the supervision of lane `l`. -/
def modSupLane (l : Nat) (f : SupLane → SupLane) (s : State) : State :=
  { s with sup := { s.sup with lane := tabMod {} s.sup.lane l f } }
/-- Supervision of domain `d`. -/
def supDomOf (s : State) (d : Nat) : SupDom := tabGet {} s.sup.dom d
/-- Change the supervision of domain `d`. -/
def modSupDom (d : Nat) (f : SupDom → SupDom) (s : State) : State :=
  { s with sup := { s.sup with dom := tabMod {} s.sup.dom d f } }
/-- Consequent actions of instance `i`. -/
def supInstOf (s : State) (i : Nat) : SupInst := tabGet {} s.sup.inst i
/-- Change the consequent actions of instance `i`. -/
def modSupInst (i : Nat) (f : SupInst → SupInst) (s : State) : State :=
  { s with sup := { s.sup with inst := tabMod {} s.sup.inst i f } }
/-- Time domain `d`. -/
def domOf (s : State) (d : Nat) : Dom := tabGet {} s.time.dom d
/-- Change time domain `d`. -/
def modDom (d : Nat) (f : Dom → Dom) (s : State) : State :=
  { s with time := { s.time with dom := tabMod {} s.time.dom d f } }

/-! Settings (R555). -/

/-- The store's key of a setting. -/
def setKey (p : SSpec) (idx scope : Nat) : Nat :=
  (((p.tbl * 4096 + p.row) * 16 + p.pos) * 256 + idx) * 2 ^ 26 + scope

/-- A setting's value: the one given, or its table's default. -/
def setting (s : State) (p : SSpec) (scope : Nat) (idx : Nat := 0) : Int :=
  (tabGet none s.settings (setKey p idx (if p.dev then scDevice else scope))).getD p.dflt

/-- A setting as a number without sign. -/
def settingN (s : State) (p : SSpec) (scope : Nat) (idx : Nat := 0) : Nat :=
  (setting s p scope idx).toNat

/-- Is a 0, 1 or OFF, on setting set? -/
def settingB (s : State) (p : SSpec) (scope : Nat) (idx : Nat := 0) : Bool :=
  decide (setting s p scope idx = 1)

/-- Give a setting a value. -/
def putSetting (p : SSpec) (scope idx : Nat) (v : Int) (s : State) : State :=
  { s with settings :=
      tabSet none s.settings (setKey p idx (if p.dev then scDevice else scope)) (some v) }

/-! Free values. -/

/-- The next free number; nothing constrains it. -/
def freeNat (s : State) : Nat := Config.freeNat s.freeCtr
/-- `n` free bytes. -/
def freeBytes (s : State) (n : Nat) : Bytes :=
  (List.range n).map (fun i => Config.freeByte s.freeCtr i)
/-- One free value has been used. -/
def drawn (s : State) : State := { s with freeCtr := s.freeCtr + 1 }

/-! Interrupts and events (R537-R540). -/

/-- Bits of INT_STAT (Table 20-2). -/
def intReeveFault : BitVec 5 := 0b10000
/-- See `intReeveFault`. -/
def intBoot : BitVec 5 := 0b01000
/-- See `intReeveFault`. -/
def intAlarm : BitVec 5 := 0b00100
/-- See `intReeveFault`. -/
def intEvent : BitVec 5 := 0b00010
/-- See `intReeveFault`. -/
def intResp : BitVec 5 := 0b00001

/-- Ask for an IBI for each of `b`, if IBI_EN is 1 and ENEC enabled IBIs (R539). -/
def requestIbi (b : BitVec 5) (s : State) : State :=
  if s.win.intCfg.getLsbD 1 && s.i3c.ibiEnabled then
    { s with i3c := { s.i3c with ibiPending := s.i3c.ibiPending ||| b } }
  else s

/-- Set bits of INT_STAT; each that passes from 0 to 1 and is enabled asks for an IBI (R539). -/
def setInt (b : BitVec 5) (s : State) : State :=
  requestIbi (b &&& ~~~s.win.intStat &&& s.win.intEn)
    { s with win := { s.win with intStat := s.win.intStat ||| b } }

/-- ALERT_N is driven low (R540). -/
def alertLow (s : State) : Bool :=
  s.win.intCfg.getLsbD 0 && decide (s.win.intStat &&& s.win.intEn ≠ 0) && !s.pins.inReset

/-- The alarm class (R538). -/
def isAlarm (code : BitVec 16) : Bool :=
  [0x0501, 0x0307, 0x0F02, 0x0F03, 0x0F04, 0x0204, 0x0D01, 0x0905, 0x0E01, 0x0101].contains
    code.toNat

/-- The store's key of a counter. -/
def ctrKey (c : CtrId) (scope : Nat) : Nat :=
  ((c.ch * 32 + c.tbl) * 256 + c.num) * 2 ^ 26 + scope

/-- What a counter holds. -/
def ctrOf (s : State) (c : CtrId) (scope : Nat) : Ctr := tabGet {} s.counters (ctrKey c scope)

/-- A 48-bit counter increased by `n`, its half-range flag set when bit 47 becomes set (R55). -/
def ctrAdd (c : Ctr) (n : Nat) : Ctr :=
  let v := (c.value.toNat + n) % 2 ^ 48
  { value := BitVec.ofNat 64 v,
    half := c.half || (!c.value.getLsbD 47 && v.testBit 47) }

/-- Add to a counter without its event. -/
def bumpRaw (c : CtrId) (scope n : Nat) (s : State) : State :=
  { s with counters := tabMod {} s.counters (ctrKey c scope) (fun x => ctrAdd x n) }

/-- Put an entry at the FIFO's tail: sequence number, EVENT when it was empty, ALARM for an
alarm (R537, R539). -/
def pushEvent (e : Event) (s : State) : State :=
  let wasEmpty := s.reeve.events.isEmpty
  let e' := { e with seq := s.reeve.evSeq }
  let s1 := { s with reeve := { s.reeve with events := s.reeve.events ++ [e'],
                                             evSeq := s.reeve.evSeq + 1 } }
  setInt ((if wasEmpty then intEvent else 0) ||| (if e.alarm then intAlarm else 0)) s1

/-- An event arises: it is placed in the FIFO, or lost when 64 entries stand there (R537). -/
def postEvent (e : Event) (s : State) : State :=
  if s.reeve.events.length < 64 then pushEvent e s
  else bumpRaw cEventsLost scDevice 1
    { s with reeve := { s.reeve with lost := s.reeve.lost + 1 } }

/-- An event of this code, scope index and EV_DATA, at the present time. -/
def mkEvent (s : State) (code : BitVec 16) (idx data : Nat)
    (tag : Option (BitVec 16)) (mgmt : Bool) : Event :=
  { code := code, seq := 0, tag := tag, mgmt := mgmt, alarm := isAlarm code,
    scope := BitVec.ofNat 16 idx, era := s.clk.era, tl := s.clk.timeline,
    data := BitVec.ofNat 32 data }

/-- Raise an event (R568). -/
def raise (code : BitVec 16) (idx data : Nat) (s : State) : State :=
  postEvent (mkEvent s code idx data none false) s

/-- Raise an event that carries a command's TAG (R536). -/
def raiseTag (code : BitVec 16) (idx data : Nat) (tag : BitVec 16) (mgmt : Bool)
    (s : State) : State :=
  postEvent (mkEvent s code idx data (some tag) mgmt) s

/-! Counters and bins (R55, R185, R187). -/

/-- The threshold of a binned count: own item ROW 0xF10 + n of SUP_SET_THRESHOLDS. -/
def tcaSpec (n : Nat) : SSpec := ⟨2107, 0xF10 + n, 0, .num 0 (2 ^ 64 - 1), 0, 2, true⟩

/-- A bin's key of a count: its place in Table 6-6 and its scope. -/
def binKey (n scope : Nat) : Nat := n * 2 ^ 26 + scope

/-- Raise EV_SUP_TCA for a count that has reached its threshold, once per bin (R187). -/
def tcaCheck (day : Bool) (n scope : Nat) (s : State) : State :=
  let b := if day then s.sup.openDay else s.sup.open15
  let thr := settingN s (tcaSpec n) scDevice (bit day)
  let k := binKey n scope
  if thr ≠ 0 ∧ thr ≤ tabGet 0 b.counts k ∧ k ∉ b.alerted then
    let b' := { b with tca := true, alerted := k :: b.alerted }
    raise 0x0504 (scopeIndex scope) (n + bit day * 65536)
      { s with sup := if day then { s.sup with openDay := b' } else { s.sup with open15 := b' } }
  else s

/-- Increase a binned count of both open bins (R185). -/
def binAdd (n scope amount : Nat) (s : State) : State :=
  let add (b : Bin) : Bin :=
    { b with counts := tabMod 0 b.counts (binKey n scope) (fun x => x + amount) }
  tcaCheck true n scope (tcaCheck false n scope
    { s with sup := { s.sup with open15 := add s.sup.open15, openDay := add s.sup.openDay } })

/-- The lifetime summary's totals follow the counters of the same name (Table 22-2). -/
def lifeTotal (c : CtrId) (scope n : Nat) (s : State) : State :=
  let x := scopeIndex scope
  if c.ch = 4 ∧ c.num = 0 then
    { s with life := { s.life with
        live := { s.life.live with bursts := tabMod 0 s.life.live.bursts x (fun v => v + n) } } }
  else if c.ch = 4 ∧ c.num = 13 then
    { s with life := { s.life with
        live := { s.life.live with laser := tabMod 0 s.life.live.laser x (fun v => v + n) } } }
  else s

/-- A counter increments by `n`: the 48-bit value, its half-range flag and event whenever bit 47
becomes set (R55), and the bins when it is binned (R185) and the lifetime totals. -/
def bump (c : CtrId) (scope : Nat) (n : Nat) (s : State) : State :=
  if n = 0 then s else
  let old := ctrOf s c scope
  let s1 := lifeTotal c scope n (bumpRaw c scope n s)
  let s2 :=
    if !old.value.getLsbD 47 && (ctrOf s1 c scope).value.getLsbD 47 then
      raise (ctrHalfEvent c.ch) (scopeIndex scope) (c.ch * 2 ^ 24 + c.tbl * 2 ^ 16 + c.num) s1
    else s1
  match c.bin with
  | some k => binAdd k scope n s2
  | none => s2

/-- Apply `f` to the state for each element, in order. -/
def each {α : Type} (f : α → State → State) : List α → State → State
  | [], s => s
  | x :: xs, s => each f xs (f x s)

/-- Apply `f` when `c`. -/
def onlyIf (c : Bool) (f : State → State) (s : State) : State := if c then f s else s

/-! Who owns what (R127, R77). -/

/-- The bonding group a lane is configured in (R77). -/
def laneGroup (s : State) (l : Nat) : Nat :=
  match (laneOf s l).group with
  | some g => g.toNat
  | none => l

/-- Lane enabled by LINE_CONFIGURE_LANES. -/
def laneEnabled (s : State) (l : Nat) : Bool := settingB s sLaneEnable (scLrx l)

/-- The lane is in LOCK, MISS1 or MISS2. -/
def isLocked (x : Lane) : Bool := x.st == .lock || x.st == .miss1 || x.st == .miss2

/-- The lanes configured in group `g`. -/
def lanesOf (s : State) (g : Nat) : List Nat := (List.range 4).filter (fun l => laneGroup s l == g)

/-- The instance that owns group `g`: in dual-parented mode P owns the group of LRX0 and LRX1,
S that of LRX2 and LRX3 (R127). -/
def groupOwner (s : State) (g : Nat) : Nat :=
  if s.act.dual && decide (laneGroup s 0 ≠ g) then 1 else 0

/-- The instance that owns upstream lane `x` (R127). -/
def ltxOwner (s : State) (x : Nat) : Nat := if s.act.dual then x else 0

/-- The instances that exist. -/
def instances (s : State) : List Nat := if s.act.dual then [0, 1] else [0]

/-- The lanes of the groups an instance owns. -/
def instLanes (s : State) (i : Nat) : List Nat :=
  (List.range 4).filter (fun l => groupOwner s (laneGroup s l) == i)

/-- The upstream lanes an instance owns. -/
def instLtx (s : State) (i : Nat) : List Nat := (List.range 2).filter (fun x => ltxOwner s x == i)

/-- At least one lane of the instance's groups is in LOCK, MISS1 or MISS2 (R143); a DORMANT lane
counts as locked (Table 18-2), and so does one that is resuming from it until it fails
(DEDUCED, log entry 12). -/
def instLocked (s : State) (i : Nat) : Bool :=
  (instLanes s i).any (fun l =>
    let x := laneOf s l
    isLocked x || x.st == .dormant || x.st == .resume)

/-- Group `g` has a lane in LOCK, MISS1 or MISS2. -/
def groupLocked (s : State) (g : Nat) : Bool := (lanesOf s g).any (fun l => isLocked (laneOf s l))

/-- The included lanes of group `g` (R78). -/
def includedOf (s : State) (g : Nat) : List Nat :=
  (lanesOf s g).filter (fun l => (laneOf s l).included)

/-- The last recorded primary lane of group `g`, any SC (R79). -/
def lastPrimary (s : State) (g : Nat) : Option Nat :=
  (groupOf s g).primaries.findSome? (fun p => p.2)

/-- The timing lane (R13): TIMING_LANE, or in dual-parented mode the primary lane of the
working parent's group, or that group's lowest lane while it has had no primary. -/
def timingLane (s : State) : Nat :=
  if s.act.dual then
    let ls := instLanes s s.act.working
    let g := laneGroup s (ls.headD 0)
    (lastPrimary s g).getD (ls.headD 0)
  else settingN s sTimingLane scDevice

/-- The serial number (R131). -/
def serialBytes : Bytes := natBytes 4 0x4F564244 ++ natBytes 4 Config.fusedNumber.toNat

/-- The era of a timeline value captured at or before now (R21). -/
def eraOf (s : State) (t : BitVec 64) : BitVec 16 :=
  if (now s).toNat < t.toNat then s.clk.era - 1 else s.clk.era

/-- Advance the timeline by `d` grains, the era counting its wraps (R18, R20). -/
def advance (d : Nat) (s : State) : State :=
  let t := s.clk.timeline + BitVec.ofNat 64 d
  { s with clk := { s.clk with timeline := t,
                               era := if s.clk.timeline.toNat + d ≥ 2 ^ 64 then s.clk.era + 1
                                      else s.clk.era } }

end Sys2Proof.Machine
end

