-- ==== Sys2Proof/Machine/Supervise.lean ====
section
/-! DEFINITION. Defects, consequent actions and the second counts (spec/06). -/
namespace Sys2Proof.Machine

/-- Is defect `c` (Table 6-1's code) of a lane present? -/
def laneDefect (x : SupLane) (c : Nat) : Bool :=
  match c with
  | 1 => x.los
  | 2 => x.lof
  | 3 => x.lol
  | 4 => x.sd
  | 5 => x.sf
  | _ => false

/-- Is defect `c` masked on the lane (R167)? -/
def laneMasked (x : SupLane) (c : Nat) : Bool :=
  match c with
  | 1 => false
  | 2 => x.los
  | _ => x.los || x.lof

/-- Present and unmasked. -/
def laneUnmasked (x : SupLane) (c : Nat) : Bool := laneDefect x c && !laneMasked x c

/-- Codes of the lane defects. -/
def laneCodes : List Nat := [1, 2, 3, 4, 5]

/-- Set or clear defect `c`. -/
def withDefect (c : Nat) (v : Bool) (x : SupLane) : SupLane :=
  match c with
  | 1 => { x with los := v }
  | 2 => { x with lof := v }
  | 3 => { x with lol := v }
  | 4 => { x with sd := v }
  | 5 => { x with sf := v }
  | _ => x

/-- The lanes an instance's lane inputs cover: the enabled lanes of its groups (R172). -/
def coveredLanes (s : State) (i : Nat) : List Nat := (instLanes s i).filter (laneEnabled s)

/-- A lane input in mode OFF 0, ANY 1 or ALL 2 (R173). -/
def laneInput (s : State) (i mode c : Nat) : Bool :=
  let ls := coveredLanes s i
  match mode with
  | 1 => ls.any (fun l => laneUnmasked (supLaneOf s l) c)
  | 2 => !ls.isEmpty &&
      ls.all (fun l => laneDefect (supLaneOf s l) c || laneMasked (supLaneOf s l) c)
  | _ => false

/-- The domains an instance's domain inputs cover (R172): in dual-parented mode domain 0 follows
instance P and domain 1 instance S (Table 7-1). -/
def coveredDoms (s : State) (i : Nat) : List Nat := if s.act.dual then [i] else [0, 1]

/-- Any LOT_ID that instance `i` owns has PLM. -/
def instPlm (s : State) (i : Nat) : Bool :=
  s.lots.any (fun p => p.2.present && p.2.owner == i && (tabGet {} s.sup.plm p.1).present)

/-- The RDI inputs of an instance, without FORCE_RDI (R174). -/
def rdiInput (s : State) (i : Nat) : Bool :=
  let sc := scInst i
  laneInput s i (settingN s sRdiLos sc) 1 || laneInput s i (settingN s sRdiLof sc) 2 ||
  laneInput s i (settingN s sRdiLol sc) 3 || laneInput s i (settingN s sRdiSd sc) 4 ||
  laneInput s i (settingN s sRdiSf sc) 5 ||
  (settingB s sRdiPlm sc && instPlm s i) ||
  (settingB s sRdiLtm sc && (coveredDoms s i).any (fun d => (supDomOf s d).ltm)) ||
  (settingB s sRdiTaf sc && (coveredDoms s i).any (fun d => (supDomOf s d).taf))

/-- The switch summary of an instance (R175). -/
def switchSummary (s : State) (i : Nat) : Bool :=
  let sc := scInst i
  laneInput s i (settingN s sSwitchLos sc) 1 || laneInput s i (settingN s sSwitchLof sc) 2 ||
  laneInput s i (settingN s sSwitchLol sc) 3 || laneInput s i (settingN s sSwitchSd sc) 4 ||
  laneInput s i (settingN s sSwitchSf sc) 5 ||
  (settingB s sSwitchPlm sc && instPlm s i) ||
  (settingB s sSwitchLtm sc && (coveredDoms s i).any (fun d => (supDomOf s d).ltm)) ||
  (settingB s sSwitchTaf sc && (coveredDoms s i).any (fun d => (supDomOf s d).taf)) ||
  (settingB s sSwitchHoldover sc && (instOf s i).st == .holdover)

/-- Look at the inputs again after a change: RDI inputs that are true are remembered for the
next evaluation (R174), and the working parent's hold-off timer starts or is discarded (R175,
R177). -/
def supLookInst (i : Nat) (s : State) : State :=
  let summary := switchSummary s i && s.act.dual && s.act.working == i
  modSupInst i (fun x =>
    let x1 := if rdiInput s i then { x with rdiSeen := true } else x
    let x2 := if instPlm s i then { x1 with secPlm := true } else x1
    if summary then
      if x2.holdStart.isNone && !x2.fired then { x2 with holdStart := some (now s) } else x2
    else { x2 with holdStart := none, fired := false, refused := false }) s

/-- See `supLookInst`. -/
def supLook (s : State) : State := each supLookInst (instances s) s

/-- Remember the unmasked defects of a lane for the current second (R185). -/
def noteSecond (x : SupLane) : SupLane :=
  { x with secSeen := x.secSeen |||
      BitVec.ofNat 5 (laneCodes.foldl (fun a c => a + bit (laneUnmasked x c) * 2 ^ (c - 1)) 0) }

/-- Events of a lane's defects between two readings (R171): `chg` has changed; another defect
that is present and has become unmasked raises its event at that moment. -/
def defectEvents (l : Nat) (before after : SupLane) (chg : Nat) (s : State) : State :=
  each (fun c s =>
    if c = chg then
      if laneDefect after c && !laneDefect before c && !laneMasked after c then
        raise 0x0501 l c s
      else if laneDefect before c && !laneDefect after c && !laneMasked before c then
        raise 0x0502 l c s
      else s
    else if laneDefect after c && laneMasked before c && !laneMasked after c then
      raise 0x0501 l c s
    else s) laneCodes s

/-- A lane defect enters or leaves (R165, R167, R171). -/
def setLaneDefect (l c : Nat) (v : Bool) (s : State) : State :=
  let before := supLaneOf s l
  if laneDefect before c = v then s else
  let after := noteSecond (withDefect c v (noteSecond before))
  supLook (defectEvents l before after c (modSupLane l (fun _ => after) s))

/-- LOF enters: LOL, SD and SF are cleared without events and the open windows discarded
(R168). -/
def lofEntry (l : Nat) (s : State) : State :=
  setLaneDefect l 2 true
    (modSupLane l (fun x => { x with lol := false, sd := false, sf := false, sdCount := 0,
                                     sfCount := 0, sdPartial := true, sfPartial := true }) s)

/-- A lane is disabled: its defects are cleared without events (R166). -/
def clearLaneDefects (l : Nat) (s : State) : State :=
  supLook (modSupLane l (fun x =>
    { x with los := false, lof := false, lol := false, sd := false, sf := false, sdCount := 0,
             sfCount := 0, sdPartial := true, sfPartial := true }) s)

/-- Corrected symbols and uncorrectable codewords enter the SD and SF counts, and the defects
when a count reaches its SET value (R169). -/
def sdAccount (l sym uc : Nat) (s : State) : State :=
  let s1 := modSupLane l (fun x =>
    { x with sdCount := x.sdCount + sym + 16 * uc, sfCount := x.sfCount + uc,
             secUc := x.secUc + uc }) s
  let x := supLaneOf s1 l
  let s2 := if settingN s1 sSdSet scDevice ≤ x.sdCount then setLaneDefect l 4 true s1 else s1
  if settingN s2 sSfSet scDevice ≤ x.sfCount then setLaneDefect l 5 true s2 else s2

/-- A codeword-0 boundary with SC `sc`: the SF window ends at multiples of 64, the SD window at
multiples of 8,192; a jump makes the windows partial (R169). -/
def windowEnd (l : Nat) (sc : BitVec 48) (jump : Bool) (s : State) : State :=
  let s0 := if jump then
      modSupLane l (fun x => { x with sdPartial := true, sfPartial := true }) s else s
  let s1 :=
    if sc.toNat % 64 = 0 then
      let x := supLaneOf s0 l
      let a := if !x.sfPartial && decide (x.sfCount < settingN s0 sSfClr scDevice) then
          setLaneDefect l 5 false s0 else s0
      modSupLane l (fun x => { x with sfCount := 0, sfPartial := jump }) a
    else s0
  if sc.toNat % 8192 = 0 then
    let x := supLaneOf s1 l
    let a := if !x.sdPartial && decide (x.sdCount < settingN s1 sSdClr scDevice) then
        setLaneDefect l 4 false s1 else s1
    modSupLane l (fun x => { x with sdCount := 0, sdPartial := jump }) a
  else s1

/-- The lane enters LOCK: LOF leaves, and the first windows are partial (R165, R169). -/
def lockEntry (l : Nat) (s : State) : State :=
  setLaneDefect l 2 false
    (modSupLane l (fun x => { x with sdCount := 0, sfCount := 0, sdPartial := true,
                                     sfPartial := true }) s)

/-- A lot of a LOT_ID passed step 5, or was a PLM lot: three in a row clear or raise PLM
(R165). -/
def plmLot (lotId : Nat) (isPlm : Bool) (s : State) : State :=
  let x := tabGet {} s.sup.plm lotId
  let x1 : Plm := if isPlm then { x with plmRun := min 3 (x.plmRun + 1), goodRun := 0 }
    else { x with goodRun := min 3 (x.goodRun + 1), plmRun := 0 }
  let raised := decide (x1.plmRun = 3) && !x.present
  let cleared := decide (x1.goodRun = 3) && x.present
  let x2 := { x1 with present := (x.present || raised) && !cleared }
  let s1 := { s with sup := { s.sup with plm := tabSet {} s.sup.plm lotId x2 } }
  let s2 := if raised then raise 0x0501 lotId 6 s1 else s1
  supLook (if cleared then raise 0x0502 lotId 6 s2 else s2)

/-- A LOT_ID leaves the table: its PLM is cleared (R188). -/
def plmRemove (lotId : Nat) (s : State) : State :=
  let p := (tabGet {} s.sup.plm lotId).present
  let s1 := { s with sup := { s.sup with plm := tabSet {} s.sup.plm lotId {} } }
  supLook (if p then raise 0x0502 lotId 6 s1 else s1)

/-- LTM or TAF of a domain enters or leaves (R165, R171). -/
def setDomDefect (d : Nat) (taf : Bool) (v : Bool) (s : State) : State :=
  let x := supDomOf s d
  if (if taf then x.taf else x.ltm) = v then s else
  let x' : SupDom := if taf then { x with taf := v, secTaf := x.secTaf || v }
    else { x with ltm := v, secLtm := x.secLtm || v }
  supLook (raise (if v then 0x0501 else 0x0502) d (if taf then 8 else 7)
    (modSupDom d (fun _ => x') s))

/-- LOS enters after 53,125 grains without signal. -/
def execLosDeclare (lane : Fin 4) (s : State) : Out :=
  if laneEnabled s lane && (laneOf s lane).st != .dormant then
    .next (setLaneDefect lane 1 true (modLane lane (fun x => { x with signal := false }) s))
  else .next (modLane lane (fun x => { x with signal := false }) s)

/-- LOS leaves after 6,800,000 grains of signal. -/
def execLosClear (lane : Fin 4) (s : State) : Out :=
  if laneEnabled s lane && (laneOf s lane).st != .dormant then
    .next (setLaneDefect lane 1 false (modLane lane (fun x => { x with signal := true }) s))
  else .next (modLane lane (fun x => { x with signal := true }) s)

/-- LOL enters: the lane is locked and its delineation has been RESYNC or WAIT throughout. -/
def execLolDeclare (lane : Fin 4) (s : State) : Out :=
  let x := laneOf s lane
  if laneEnabled s lane && isLocked x && (x.delin == .resync || x.delin == .wait) then
    .next (setLaneDefect lane 3 true s)
  else .next s

/-- LOL leaves: delineation has been DELINEATED throughout. -/
def execLolClear (lane : Fin 4) (s : State) : Out :=
  let x := laneOf s lane
  if laneEnabled s lane && x.st != .dormant && x.delin == .delineated then
    .next (setLaneDefect lane 3 false s)
  else .next s

/-- RDI of an instance is evaluated (R174). -/
def rdiEvaluate (i : Nat) (s : State) : State :=
  let x := supInstOf s i
  let cur := rdiInput s i
  let new := settingB s sForceRdi (scInst i) || x.rdiSeen || cur
  let s1 := modSupInst i (fun x => { x with rdi := new, rdiSeen := cur,
                                            secRdi := x.secRdi || new }) s
  if new != x.rdi then raise 0x0503 i (bit new) s1 else s1

/-- The second counts of a lane (R185). A lane DORMANT throughout the second has nothing noted for it;
what a lane had before it was disabled counts. -/
def laneSecond (l : Nat) (s : State) : State :=
  let x := supLaneOf s l
  let seen (c : Nat) : Bool := x.secSeen.getLsbD (c - 1)
  let dormant := (laneOf s l).st == .dormant || !laneEnabled s l
  let es := decide (1 ≤ x.secUc) || seen 1 || seen 2 || seen 3
  let ses := seen 1 || seen 2 || decide (settingN s sSesUc scDevice ≤ x.secUc)
  let count (c : Bool) (n : Nat) (s : State) : State :=
    if c then binAdd n (scLrx l) 1 s else s
  let s1 := count es 9 (count ses 10 (count (seen 1) 11 (count (seen 2) 12 (count (seen 3) 13
    (count (seen 4) 14 (count (seen 5) 15 s))))))
  modSupLane l (fun x =>
    let y := { x with secSeen := 0, secUc := 0 }
    if dormant then y else noteSecond y) s1

/-- A bin-clock second ends: the second counts, and the seconds that have ended in the open bins
(R181, R185). -/
def execBinSecondEnd (s : State) : Out :=
  let s1 := each laneSecond (List.range 4) s
  let s2 := each (fun i s =>
    let x := supInstOf s i
    let a := if x.secRdi then binAdd 30 (scInst i) 1 s else s
    let b := if x.secPlm then binAdd 31 (scInst i) 1 a else a
    modSupInst i (fun x => { x with secRdi := false, secPlm := instPlm s i }) b) (instances s1) s1
  let s3 := each (fun d s =>
    let x := supDomOf s d
    let a := if x.secLtm || x.ltm then binAdd 32 (scDom d) 1 s else s
    let b := if x.secTaf || x.taf then binAdd 33 (scDom d) 1 a else a
    modSupDom d (fun x => { x with secLtm := x.ltm, secTaf := x.taf }) b) [0, 1] s2
  let low := s.pwr.st == .fallow || s.pwr.st == .deepFallow
  let sec (b : Bin) : Bin := { b with seconds := b.seconds + 1, lowPower := b.lowPower || low }
  .next { s3 with sup := { s3.sup with open15 := sec s3.sup.open15,
                                       openDay := sec s3.sup.openDay } }

end Sys2Proof.Machine
end

