-- ==== Sys2Proof/Machine/PwrOps.lean ====
section
/-! DEFINITION. Shared operations of the power states: domains in retention, wake events, notices
and the drain (spec/18). -/
namespace Sys2Proof.Machine

/-- Domains in retention in a power state (Table 18-1), as Table 21-6 numbers them. -/
def retDomains (p : PwrState) : BitVec 64 :=
  match p with
  | .run => 0
  | .doze => 0x30
  | .fallow => 0xFFFFFFFFFFFF
  | .deepFallow => 0x3FFFFFFFFFFFF

/-- Code of a power state (DEV_STAT). -/
def pwrCode (p : PwrState) : Nat :=
  match p with
  | .run => 0
  | .doze => 1
  | .fallow => 2
  | .deepFallow => 3

/-- The power state being entered, or the present one. -/
def pwrAim (s : State) : PwrState := if s.pwr.phase = .entering then s.pwr.target else s.pwr.st

/-- Change the power block. -/
def modPwr (f : Pwr → Pwr) (s : State) : State := { s with pwr := f s.pwr }

/-! Wake events (R478, R480). -/

/-- States in which a source is active (Table 18-10), as codes of DEV_STAT. -/
def wakeStates (code : Nat) : List Nat :=
  match code with
  | 3 => [2, 3]
  | 7 => [3]
  | 9 => [2]
  | _ => [1, 2, 3]

/-- A source is armed now and its event is a wake event. -/
def wakeArmed (s : State) (code : Nat) : Bool :=
  let entering := s.pwr.phase == .entering
  let maskable := [1, 2, 3, 4, 5, 9].contains code
  let early := [4, 5, 6, 8].contains code
  let aim := pwrAim s
  (!maskable || (settingN s sWakeMask scDevice).testBit code) &&
  (wakeStates code).contains (pwrCode aim) &&
  (!entering || early || decide (4 ≤ s.pwr.point)) &&
  (code != 4 || aim != .deepFallow || entering) && (code != 8 || aim != .deepFallow || entering) &&
  (s.clk.refclk || s.clk.pllRunning || code == 6 || code == 7)

/-- A source's event latches (R480): the first is SOURCE, a later one sets its bit in
OTHER_SOURCES, and WAKES of its code counts each once. A wake from a low state begins. -/
def wakeEvent (code index : Nat) (s : State) : State :=
  if !wakeArmed s code then s else
  let ctr := cWakes (code - 1)
  match s.pwr.wake with
  | none =>
    let w : Wake := { source := code, index := BitVec.ofNat 8 index, others := 0,
                      era := s.clk.era, tl := now s }
    bump ctr scDevice 1 (modPwr (fun p => { p with
      wake := some w, phase := if p.phase = .stable then .waking else p.phase }) s)
  | some w =>
    if w.source = code ∨ w.others.getLsbD code then s
    else bump ctr scDevice 1 (modPwr (fun p => { p with
      wake := some { w with others := w.others ||| (1#16 <<< code) } }) s)

/-! Notices (R471, R475). -/

/-- An upstream message is a notice of the entry under way: PWR_NOTICE with another TARGET than
RUN. -/
def isNotice (type : BitVec 8) (body0 : BitVec 8) : Bool :=
  type == 0x90 && decide (64 ≤ body0.toNat)

/-- Instance `i` still has a notice to send, in its queue or in a burst. -/
def noticePending (s : State) (i : Nat) : Bool :=
  (instOf s i).txQueue.any (fun m => isNotice m.1 (byteAt m.2 0)) ||
  (instLtx s i).any (fun x => (usLaneOf s x).bursts.any (fun b => match b.msg with
    | some m => isNotice (byteAt m 2) (byteAt m 4)
    | none => false))

/-- Every notice has been sent or withdrawn. -/
def noticesDone (s : State) : Bool := (instances s).all (fun i => !noticePending s i)

/-- When the notices are out or NOTICE_WAIT has elapsed, intake stops for FALLOW and DEEP_FALLOW,
and DRAIN_WAIT runs (Table 18-5). -/
def drainLook (s : State) : State :=
  if s.pwr.phase = .entering ∧ s.pwr.point = 1 ∧ (noticesDone s ∨ !s.pwr.noticeWait) then
    if 2 ≤ pwrCode s.pwr.target ∧ !s.pwr.intakeStopped then
      modPwr (fun p => { p with
        noticeWait := false, intakeStopped := true,
        drainWait := settingN s sDrainWait scDevice != 0 }) s
    else modPwr (fun p => { p with noticeWait := false }) s
  else s

/-! Bushels and the BUF banks (R391, R487). -/

/-- BUF banks whose bushels are in the pool, as Table 21-6 numbers them. -/
def poolBanks (s : State) : List Nat :=
  let on := if s.pwr.st = .run then s.pwr.on else s.pwr.on ||| s.pwr.onAtE1
  (List.range 24).filter (fun b => on.getLsbD (20 + b) && !s.pwr.gating.getLsbD (20 + b))

/-- Bushels of the pool in use. -/
def poolUsed (s : State) : Nat := 4096 * (poolBanks s).length - s.qos.free

/-- Bushels that banks being gated off still hold. -/
def gatingHeld (s : State) : Nat := (s.pwr.bufHeld.map (fun (p : Nat × Nat) => p.2)).sum

/-- `k` bushels return to banks being gated off, the lowest bank first. -/
def returnHeld : Nat → List Nat → State → State
  | _, [], s => s
  | k, b :: bs, s =>
    let h := tabGet 0 s.pwr.bufHeld b
    returnHeld (k - h) bs (modPwr (fun p => { p with bufHeld := tabSet 0 p.bufHeld b (h - k) }) s)

/-- Release bushels (R391). Which of them lie in a bank that is being gated off is not told: a free
number, within what the pool and those banks hold. -/
def freeBushels (n : Nat) (s : State) : State :=
  let held := gatingHeld s
  if held = 0 ∨ n = 0 then { s with qos := { s.qos with free := s.qos.free + n } }
  else
    let lo := n - poolUsed s
    let hi := max lo (min n held)
    let k := lo + freeNat s % (hi - lo + 1)
    let s1 := returnHeld k (List.range 24) (drawn s)
    { s1 with qos := { s1.qos with free := s1.qos.free + (n - k) } }

/-! Transfers on I3C (R467, R526). -/

/-- The I3C front end is out of reset. -/
def i3cUp (s : State) : Bool := !s.pins.inReset

/-- A transfer addressed to the 4812: no acknowledge in reset; in DEEP_FALLOW a NACK and a wake
event (R467). -/
def addressed (f : State → State) (s : State) : State :=
  if !i3cUp s then s
  else if s.pwr.st = .deepFallow then wakeEvent 7 0 s
  else f s

/-- A broadcast on the bus: not addressed to the 4812. -/
def broadcast (f : State → State) (s : State) : State :=
  if !i3cUp s || s.pwr.st == .deepFallow then s else f s

end Sys2Proof.Machine
end

