-- ==== Sys2Proof/Machine/Qos.lean ====
section
/-! DEFINITION. The bushel pool, queues, arbiters, shapers and meters (spec/15). -/
namespace Sys2Proof.Machine

/-- Bushels of a unit of `n` bytes (R391). -/
def bushelsOf (n : Nat) : Nat := (n + 255) / 256

/-- A new unit may start: more than ING_FLOOR bushels are free (R392). -/
def floorOk (s : State) : Bool := decide (settingN s sIngFloor scDevice < s.qos.free)

/-- Take bushels, watching the low-water mark (R391, R419). -/
def takeBushels (n : Nat) (s : State) : State :=
  let f := s.qos.free - n
  { s with qos := { s.qos with free := f, low := min s.qos.low f } }

/-- A unit that holds `held` bushels takes them one at a time up to `want`, until none is free
(R392). On a shortage all of its bushels return to the pool in that core cycle and TAIL_DISCARD
counts it (R393): none. -/
def takeUpTo (held want : Nat) (s : State) : Option Nat × State :=
  if s.qos.free < want - held then
    (none, bump cTailDiscard scDevice 1
      (freeBushels (held + s.qos.free) (takeBushels s.qos.free s)))
  else (some (max held want), takeBushels (want - held) s)

/-- Downstream queue `q`. -/
def dsOf (s : State) (q : Nat) : Queue := tabGet ({} : Queue) s.qos.ds q
/-- Change downstream queue `q`. -/
def modDs (q : Nat) (f : Queue → Queue) (s : State) : State :=
  { s with qos := { s.qos with ds := tabMod ({} : Queue) s.qos.ds q f } }
/-- Upstream queue `q`. -/
def usOf (s : State) (q : Nat) : Queue := tabGet ({} : Queue) s.qos.us q
/-- Change upstream queue `q`. -/
def modUs (q : Nat) (f : Queue → Queue) (s : State) : State :=
  { s with qos := { s.qos with us := tabMod ({} : Queue) s.qos.us q f } }

/-- Scope of a queue. -/
def scQueue (ds : Bool) (q : Nat) : Nat := if ds then scDsQueue q else scUsQueue q
/-- A queue of either direction. -/
def queueOf (s : State) (ds : Bool) (q : Nat) : Queue := if ds then dsOf s q else usOf s q
/-- Change a queue of either direction. -/
def modQueue (ds : Bool) (q : Nat) (f : Queue → Queue) (s : State) : State :=
  if ds then modDs q f s else modUs q f s

/-- 100G mode (Table 8-1). -/
def mode100 (s : State) : Bool := decide (setting s sPortMode scDevice = 2)

/-- A server port exists in the present mode (R224). -/
def portExists (s : State) (p : Nat) : Bool :=
  decide (p < 8) && (!mode100 s || p == 0 || p == 4)

/-- A queue exists (R395). -/
def queueExists (s : State) (ds : Bool) (q : Nat) : Bool :=
  if ds then decide (q < 64) && portExists s (q / 8) else decide (q < 1024)

/-- ENABLE of a queue: by default 1 downstream, 0 upstream (Table 15-4). -/
def queueEnabled (s : State) (ds : Bool) (q : Nat) : Bool :=
  let v := setting s sQEnable (scQueue ds q)
  if v < 0 then ds else decide (v = 1)

/-- OVERHEAD of a queue: by default 20 downstream, 8 upstream (Table 15-4). -/
def queueOverhead (s : State) (ds : Bool) (q : Nat) : Int :=
  let v := setting s sQOverhead (scQueue ds q)
  if v < -64 then (if ds then 20 else 8) else v

/-- Length of a plain frame as it leaves the ball: padded to 60 bytes with a new FCS, or as
retained (R240, R403). -/
def lenOut (f : Frame) : Nat :=
  if f.fcsKept && !f.modified then f.bytes.length
  else max 60 (if f.fcsKept then f.bytes.length - 4 else f.bytes.length) + 4

/-- Header template length and segment size of a sheaf (Table 3-9). -/
def sheafTpl (b : Bytes) : Nat := (byteAt b 1).toNat
/-- See `sheafTpl`. -/
def sheafSeg (b : Bytes) : Nat := field b 2 2 % 16384

/-- MAX_FRAME of a port. -/
def maxFrame (s : State) (p : Nat) : Nat := settingN s sMaxFrame (scPort p)

/-- Cut size of a sheaf at port `p` (R249): as it was cut so far, else from CUT_MODE. -/
def cutSize (s : State) (p : Nat) (f : Frame) : Int :=
  if f.cut ≠ 0 then f.cut
  else if settingB s sCutMode (scPort p) then
    min (sheafSeg f.bytes : Int) ((maxFrame s p : Int) - sheafTpl f.bytes - 4)
  else sheafSeg f.bytes

/-- Payload bytes of a sheaf. -/
def sheafPayload (f : Frame) : Nat := f.bytes.length - 16 - sheafTpl f.bytes

/-- L of a frame in queue `q` (R403): of a sheaf, its next segment. -/
def frameL (s : State) (ds : Bool) (q : Nat) (f : Frame) : Nat :=
  if ds then
    if f.sheaf then
      let n := min (cutSize s (q / 8) f).toNat (sheafPayload f - f.sent)
      max 60 (sheafTpl f.bytes + n) + 4
    else lenOut f
  else f.bytes.length

/-- Queued bytes (R401): a frame partly sent counts only its unsent bytes. -/
def queuedBytes (s : State) (ds : Bool) (q : Nat) (k : Queue) : Nat :=
  (k.frames.map (fun f => frameL s ds q f - (if ds then 0 else f.sent))).sum

/-! Arbiters (R404). -/

/-- The later of two 48-bit tags. -/
def laterTag (a b : BitVec 48) : BitVec 48 := if 0 < scDiff a b then b else a

/-- Tags of a child. -/
def arbTags (a : Arbiter) (k : Nat) : BitVec 48 × BitVec 48 := tabGet (0, 0) a.tags k

/-- A child becomes non-empty: its start tag. -/
def arbActivate (k : Nat) (a : Arbiter) : Arbiter :=
  let fl := (arbTags a k).2
  { a with tags := tabSet (0, 0) a.tags k (laterTag a.v fl, fl) }

/-- Finish tag of a child with this charge and weight. R404's code takes the charge as a 64-bit number
without sign before it shifts and divides it. -/
def arbFinish (a : Arbiter) (k : Nat) (charge : Int) (w : Nat) : BitVec 48 :=
  (arbTags a k).1 + BitVec.ofNat 48 ((unsigned 64 (charge * 65536) + (max 1 w - 1)) / max 1 w)

/-- The eligible child with the earliest finish tag, the lowest index on a tie; each is given
with its charge and weight, in rising order of index. -/
def arbPick (a : Arbiter) : List (Nat × Int × Nat) → Option (Nat × BitVec 48)
  | [] => none
  | (k, c, w) :: rest =>
    let f := arbFinish a k c w
    match arbPick a rest with
    | none => some (k, f)
    | some (k', f') => if scDiff f f' < 0 then some (k', f') else some (k, f)

/-- Child `k` has been selected with finish tag `f`. -/
def arbServe (k : Nat) (f : BitVec 48) (a : Arbiter) : Arbiter :=
  { v := f, tags := tabSet (0, 0) a.tags k (f, f) }

/-- Arbiter of port `p`. -/
def portArb (s : State) (p : Nat) : Arbiter := tabGet ({} : Arbiter) s.qos.portArb p
/-- Change the arbiter of port `p`. -/
def modPortArb (p : Nat) (f : Arbiter → Arbiter) (s : State) : State :=
  { s with qos := { s.qos with portArb := tabMod ({} : Arbiter) s.qos.portArb p f } }
/-- Plot arbiter. -/
def plotArb (s : State) (p : Nat) : Arbiter := tabGet ({} : Arbiter) s.qos.plotArb p
/-- Change a plot arbiter. -/
def modPlotArb (p : Nat) (f : Arbiter → Arbiter) (s : State) : State :=
  { s with qos := { s.qos with plotArb := tabMod ({} : Arbiter) s.qos.plotArb p f } }
/-- Arbiter of class group `g` of a plot. -/
def groupArb (s : State) (p g : Nat) : Arbiter := tabGet ({} : Arbiter) s.qos.groupArb (p * 8 + g)
/-- Change the arbiter of a class group. -/
def modGroupArb (p g : Nat) (f : Arbiter → Arbiter) (s : State) : State :=
  { s with qos := { s.qos with groupArb := tabMod ({} : Arbiter) s.qos.groupArb (p * 8 + g) f } }

/-! Shapers (R412-R414). -/

/-- BURST in 2^-32 byte. -/
def shaperBurst (s : State) (sc : Nat) : Int := setting s sShBurst sc * 64 * 2 ^ 32

/-- Growth of a bucket at `kbit` kbit/s over `dt` grains, in 2^-32 byte. -/
def bucketGrowth (kbit dt : Int) : Int := kbit * 125 * dt * 2 ^ 32 / secGrains

/-- A shaper's bucket becomes `b`. -/
def putBucket (sc : Nat) (b : Bucket) (s : State) : State :=
  { s with qos := { s.qos with shapers := tabSet ({} : Bucket) s.qos.shapers sc b } }

/-- A meter's buckets become `x`. -/
def putMeter (m : Nat) (x : Meter) (s : State) : State :=
  { s with qos := { s.qos with meters := tabSet ({} : Meter) s.qos.meters m x } }

/-- T of a shaper at the present time (R413). -/
def shaperT (s : State) (sc : Nat) : Int :=
  let b := tabGet ({} : Bucket) s.qos.shapers sc
  min (shaperBurst s sc)
    (b.t + bucketGrowth (setting s sShRate sc) (max 0 (tlDiff b.last (now s))))

/-- A shaper is open (R413); a disabled one always is. -/
def shaperOpen (s : State) (sc : Nat) : Bool :=
  !settingB s sShEnable sc || decide (0 ≤ shaperT s sc)

/-- A frame of charge `c` bytes is selected through a shaper. -/
def shaperCharge (sc : Nat) (c : Int) (s : State) : State :=
  if settingB s sShEnable sc then
    putBucket sc { t := shaperT s sc - c * 2 ^ 32, last := now s, live := true } s
  else s

/-! Meters (R415, R416). -/

/-- A meter operation on `b` bytes with incoming colour 0 green, 1 yellow, 2 red (already
chosen by AWARE and CA_SRC): the outgoing colour; none for MODE OFF. -/
def meterOp (m : Nat) (colour b : Nat) (s : State) : Option Nat × State :=
  let sc := scMeter m
  let mode := settingN s sMtMode sc
  if mode = 0 then (none, s) else
  let x := tabGet ({} : Meter) s.qos.meters m
  let dt := max 0 (tlDiff x.last (now s))
  let cbs : Int := setting s sCbs sc * 2 ^ 32
  let ebs : Int := setting s sEbs sc * 2 ^ 32
  let n : Int := (b : Int) * 2 ^ 32
  let put (tc te : Int) (c : Nat) : Option Nat × State :=
    let s1 := putMeter m { tc := tc, te := te, last := now s } s
    (some c, bump (if c = 0 then cMeterGreen else if c = 1 then cMeterYellow else cMeterRed)
      scDevice 1 s1)
  let tcRaw := x.tc + bucketGrowth (setting s sCir sc) dt
  if mode = 1 then
    let above := max 0 (tcRaw - cbs)
    let tc := min cbs tcRaw
    let te := min ebs (x.te + above)
    if colour = 0 ∧ n ≤ tc then put (tc - n) te 0
    else if colour ≤ 1 ∧ n ≤ te then put tc (te - n) 1
    else put tc te 2
  else
    let tc := min cbs tcRaw
    let tp := min ebs (x.te + bucketGrowth (setting s sPir sc) dt)
    if colour = 2 ∨ tp < n then put tc tp 2
    else if colour = 1 ∨ tc < n then put tc (tp - n) 1
    else put (tc - n) (tp - n) 0

/-! Queues (R397-R400). -/

/-- The plots a queue is attached to: PLOT_P, and PLOT_S in dual-parented mode. -/
def queuePlots (s : State) (q : Nat) : List Nat :=
  let p := settingN s sPlotP (scUsQueue q)
  let r := settingN s sPlotS (scUsQueue q)
  (if p = 0xFFFF then [] else [p]) ++ (if r = 0xFFFF || !s.act.dual || r = p then [] else [r])

/-- Class group of an upstream queue. -/
def queueGroup (s : State) (q : Nat) : Nat := settingN s sQGroup (scUsQueue q)

/-- Plot scheduling is FLAT (R411). -/
def plotFlat (s : State) (p : Nat) : Bool := settingB s sSchedMode (scPlot p)

/-- Another queue of the plot's class group holds a frame. -/
def groupBusy (s : State) (p g q : Nat) : Bool :=
  s.qos.us.any (fun e => e.1 != q && !e.2.frames.isEmpty && (queuePlots s e.1).contains p &&
    queueGroup s e.1 == g)

/-- A queue has become non-empty: start tags in its arbiters (R404). -/
def queueActivate (ds : Bool) (q : Nat) (s : State) : State :=
  if ds then modPortArb (q / 8) (arbActivate q) s
  else each (fun p s =>
    if plotFlat s p then modPlotArb p (arbActivate q) s
    else
      let g := queueGroup s q
      let s1 := modGroupArb p g (arbActivate q) s
      if groupBusy s p g q then s1 else modPlotArb p (arbActivate g) s1) (queuePlots s q) s

/-- Link a frame into its queue (R398 step 4). -/
def linkFrame (ds : Bool) (q : Nat) (f : Frame) (s : State) : State :=
  let was := (queueOf s ds q).frames.isEmpty
  let s1 := modQueue ds q (fun k => { k with
    frames := k.frames ++ [f], bushels := k.bushels + f.bushels,
    high := max k.high (k.bushels + f.bushels) }) s
  let s2 := bump cEnqFrames (scQueue ds q) 1 (bump cEnqBytes (scQueue ds q) (frameL s ds q f) s1)
  if was then queueActivate ds q s2 else s2

/-- Steps 2 to 4 of R398 on a packet already written back: existence, admission by colour
(R399), linking. Answers whether it was linked; a refused packet's bushels are freed. -/
def enqueue (ds : Bool) (q : Nat) (colour : Nat) (f : Frame) (s : State) : Bool × State :=
  if !(queueExists s ds q && queueEnabled s ds q) then
    (false, bump cQueueRefused scDevice 1 (freeBushels f.bushels s))
  else
  let c := if colour = 3 then 0 else colour
  let sc := scQueue ds q
  let max_ := settingN s (if c = 0 then sQMaxG else if c = 1 then sQMaxY else sQMaxR) sc
  let ok := decide ((queueOf s ds q).bushels + f.bushels ≤ max_) &&
    (c != 1 || decide (settingN s sPoolFloorY scDevice ≤ s.qos.free)) &&
    (c != 2 || decide (settingN s sPoolFloorR scDevice ≤ s.qos.free))
  if ok then (true, linkFrame ds q f s)
  else (false, bump (if c = 0 then cDropG else if c = 1 then cDropY else cDropR) sc 1
    (freeBushels f.bushels s))

/-- Discard every frame of a queue (R397). -/
def flushQueue (ds : Bool) (q : Nat) (s : State) : State :=
  let k := queueOf s ds q
  let parts := k.frames.countP (fun f => decide (0 < f.sent))
  let held := (k.frames.map (·.bushels)).sum
  let s1 := freeBushels held (modQueue ds q (fun k => { k with
    frames := [], bushels := k.bushels - held }) s)
  bump cFlushed (scQueue ds q) k.frames.length
    (if ds then s1 else bump cFragAbandonTx (scUsQueue q) parts s1)

/-- Discard the head frame of a queue. -/
def dropHead (ds : Bool) (q : Nat) (s : State) : State :=
  match (queueOf s ds q).frames with
  | [] => s
  | f :: rest =>
    freeBushels f.bushels (modQueue ds q (fun k => { k with
      frames := rest, bushels := k.bushels - f.bushels }) s)

end Sys2Proof.Machine
end

