-- ==== Sys2Proof/Machine/Sheaf.lean ====
section
/-! DEFINITION. Frames as they leave a server port: padding and FCS, and the segments of a sheaf
with their rewrites (spec/08 R240, R248-R252). -/
namespace Sys2Proof.Machine

/-- Ones'-complement sum of 16-bit words, an odd last byte padded with zero, not folded. -/
def wordSum : Bytes → Nat
  | [] => 0
  | [a] => a.toNat * 256
  | a :: b :: rest => a.toNat * 256 + b.toNat + wordSum rest

/-- Fold a sum to 16 bits. -/
def fold16 (v : Nat) : Nat :=
  let a := v / 65536 + v % 65536
  let b := a / 65536 + a % 65536
  b / 65536 + b % 65536

/-- The Internet checksum of a byte string. -/
def inetSum (b : Bytes) : Nat := 65535 - fold16 (wordSum b)

/-- Pad a frame without FCS to 60 bytes, and append the FCS (R240). -/
def withFcs (b : Bytes) : Bytes :=
  let p := b ++ List.replicate (60 - b.length) 0
  p ++ fcsBytes p

/-- A stored plain frame as it leaves: its bytes, and whether TX_PADDED counts it (R240). -/
def completed (f : Frame) : Bytes × Bool :=
  if f.fcsKept then
    if f.modified then (withFcs (f.bytes.take (f.bytes.length - 4)), false) else (f.bytes, false)
  else (withFcs f.bytes, decide (f.bytes.length < 60))

/-- The flags of a sheaf descriptor, bit n of bytes 4-5 (Table 3-9). -/
def sheafFlag (b : Bytes) (n : Nat) : Bool := (field b 4 2).testBit n
/-- L3_OFF. -/
def sheafL3 (b : Bytes) : Nat := (byteAt b 6).toNat
/-- L4_OFF. -/
def sheafL4 (b : Bytes) : Nat := (byteAt b 7).toNat
/-- The template. -/
def sheafTemplate (b : Bytes) : Bytes := slice b 16 (sheafTpl b)

/-- IP version at L3_OFF (R251). -/
def sheafVer (b : Bytes) : Nat := (byteAt (sheafTemplate b) (sheafL3 b)).toNat / 16

/-- The L4 protocol (R251); 0 where the version gives none. -/
def sheafProto (b : Bytes) : Nat :=
  let t := sheafTemplate b
  let l3 := sheafL3 b
  if sheafVer b = 4 then (byteAt t (l3 + 9)).toNat
  else if sheafVer b = 6 then (byteAt t (l3 + 6)).toNat else 0

/-- IHL x 4 of the template's IPv4 header. -/
def sheafIhl (b : Bytes) : Nat := (byteAt (sheafTemplate b) (sheafL3 b)).toNat % 16 * 4

/-- The sheaf is discarded whole (R252). -/
def sheafRefused (s : State) (p : Nat) (f : Frame) : Bool :=
  let b := f.bytes
  let tpl := sheafTpl b
  let l3 := sheafL3 b
  let l4 := sheafL4 b
  let v4 := decide (sheafVer b = 4)
  let v6 := decide (sheafVer b = 6)
  let tcp := decide (sheafProto b = 6)
  let udp := decide (sheafProto b = 17)
  let fl (n : Nat) : Bool := sheafFlag b n
  let above (n : Nat) : Bool := decide (tpl < n)
  let anyL4 := fl 11 || fl 10 || fl 9 || fl 8
  let c := cutSize s p f
  let fit_ := settingB s sCutMode (scPort p)
  !settingB s sSheafEnable (scPort p) ||
  ((fl 15 || fl 14 || fl 13) && !v4) || (fl 12 && !v6) ||
  ((fl 11 || fl 8) && !tcp) || (fl 10 && !udp) || (fl 9 && !(tcp || udp)) ||
  (fl 15 && above (l3 + 4)) || (fl 14 && above (l3 + 6)) ||
  (fl 13 && (above (l3 + 12) || above (l3 + sheafIhl b))) || (fl 12 && above (l3 + 6)) ||
  (anyL4 && above (if v4 then l3 + 10 else l3 + 7)) ||
  (fl 11 && above (l4 + 8)) || (fl 10 && above (l4 + 6)) || (fl 8 && above (l4 + 14)) ||
  (fl 9 && (above (if tcp then l4 + 18 else l4 + 8) || above (if v4 then l3 + 20 else l3 + 40))) ||
  (if fit_ then decide (c < 1)
   else decide ((maxFrame s p : Int) < (tpl : Int) + min c (sheafPayload f) + 4))

/-- Segments of a sheaf cut at `c`. -/
def sheafSegments (f : Frame) (c : Nat) : Nat := (sheafPayload f + c - 1) / max 1 c

/-- Write a number into `n` bytes at `i`. -/
def putField (b : Bytes) (i n v : Nat) : Bytes := patch b i (natBytes n v)

/-- Segment `i` of a sheaf cut at `c`, without FCS (R249-R251). -/
def sheafSegment (f : Frame) (c i : Nat) : Bytes :=
  let b := f.bytes
  let tpl := sheafTpl b
  let l3 := sheafL3 b
  let l4 := sheafL4 b
  let body := ((b.drop (16 + tpl)).drop (i * c)).take c
  let n := sheafSegments f c
  let sz := body.length
  let fl (k : Nat) : Bool := sheafFlag b k
  let t0 := sheafTemplate b
  let t1 := if fl 15 then putField t0 (l3 + 2) 2 (tpl - l3 + sz) else t0
  let t2 := if fl 14 then putField t1 (l3 + 4) 2 (field t0 (l3 + 4) 2 + i) else t1
  let t3 := if fl 12 then putField t2 (l3 + 4) 2 (unsigned 16 ((tpl : Int) - l3 - 40 + sz)) else t2
  let t4 := if fl 11 then putField t3 (l4 + 4) 4 (field t0 (l4 + 4) 4 + i * c) else t3
  let t5 := if fl 10 then putField t4 (l4 + 4) 2 (tpl - l4 + sz) else t4
  let t6 := if fl 8 && decide (i + 1 ≠ n) then
      patch t5 (l4 + 13) [byteAt t5 (l4 + 13) &&& 0xF6] else t5
  let t7 := if fl 13 then
      let z := putField t6 (l3 + 10) 2 0
      putField z (l3 + 10) 2 (inetSum (slice z l3 (sheafIhl b)))
    else t6
  let t8 := if fl 9 then
      let tcp := decide (sheafProto b = 6)
      let at_ := l4 + (if tcp then 16 else 6)
      let z := putField t7 at_ 2 0
      let len := tpl - l4 + sz
      let pseudo :=
        if sheafVer b = 4 then slice z (l3 + 12) 8 ++ natBytes 2 (sheafProto b) ++ natBytes 2 len
        else slice z (l3 + 8) 32 ++ natBytes 4 len ++ natBytes 4 (sheafProto b)
      let v := inetSum (pseudo ++ z.drop l4 ++ body)
      putField z at_ 2 (if v = 0 && !tcp then 0xFFFF else v)
    else t7
  t8 ++ body

end Sys2Proof.Machine
end

