-- ==== Sys2Proof/Machine/Links.lean ====
section
/-! DEFINITION. Link states of the server ports and what follows from them (spec/08 R232, R235;
spec/19 R503). -/
namespace Sys2Proof.Machine

/-- Server port `p`. -/
def portOf (s : State) (p : Nat) : Port := tabGet ({} : Port) s.ports p
/-- Change server port `p`. -/
def modPort (p : Nat) (f : Port → Port) (s : State) : State :=
  { s with ports := tabMod ({} : Port) s.ports p f }

/-! Link state (Table 8-3). -/

/-- The port runs: ENABLE is 1, it exists, and no standby holds it DISABLED (R503). -/
def portRuns (s : State) (p : Nat) : Bool :=
  settingB s sPortEnable (scPort p) && portExists s p &&
  !(s.pair.st == .standby && !settingB s sStandbyPorts scDevice)

/-- LINKDOWN_TX is FLUSH; a standby always takes it so (R503). -/
def linkFlushes (s : State) (p : Nat) : Bool :=
  decide (setting s sLinkdownTx (scPort p) = 0) || s.pair.st == .standby

/-- Frames a stored frame counts as when its port is down: the segments not yet sent (R253). -/
def framesLeft (s : State) (p : Nat) (f : Frame) : Nat :=
  if f.sheaf then
    if sheafRefused s p f && decide (f.seg = 0) then 1
    else max 1 (sheafSegments f (cutSize s p f).toNat - f.seg)
  else 1

/-- Discard a downstream queue's frames as they reach its head (R235). -/
def linkFlush (p q : Nat) (s : State) : State :=
  let k := dsOf s q
  each (fun _ s => dropHead true q s) k.frames
    (bump cTxDropLinkdown (scPort p) (k.frames.map (framesLeft s p)).sum s)

/-- While a port is not UP and LINKDOWN_TX is FLUSH, every frame at a queue's head goes. -/
def portFlushLook (p : Nat) (s : State) : State :=
  if (portOf s p).link != .up && linkFlushes s p then
    each (linkFlush p) ((List.range 8).map (fun c => p * 8 + c)) s
  else s

/-- The link state becomes `to`. Leaving UP for DOWN or FAULT counts LINK_DOWN; reaching UP counts
LINK_UP (Table 8-3). What the precision-time engine had ready is not sent (Table 9-9). -/
def setLink (p : Nat) (dest : LinkState) (s : State) : State :=
  let old := (portOf s p).link
  if old = dest then s else
  let s1 := modPort p (fun x => { x with link := dest, delayDone := false }) s
  if dest = .up then raise 0x0701 p 0 (bump cLinkUp (scPort p) 1 s1)
  else
    let s2 :=
      if old = .up then
        let s2 := modPort p (fun x => { x with timeQ := [], follow := [] }) s1
        if dest = .disabled then s2 else raise 0x0702 p 0 (bump cLinkDown (scPort p) 1 s2)
      else s1
    portFlushLook p s2

/-- The PCS status of a port has become false (Table 8-3, Table 8-9): a frame in reception is cut
(R239). -/
def pcsFalse (p : Nat) (s : State) : State :=
  let s1 := modPort p (fun x => { x with
    pcsUp := false, faultSeen := false, owed := 0,
    rx := x.rx.map (fun r => { r with cut := true }) }) s
  match (portOf s1 p).link with
  | .rising | .up | .fault => setLink p .down s1
  | _ => s1

/-- Hold the link state against ENABLE, the port mode and the pair state. -/
def portLook (p : Nat) (s : State) : State :=
  if portRuns s p then
    if (portOf s p).link = .disabled then
      setLink p .down (modPort p (fun x => { x with pcsUp := false, locks := 0, hiBer := false }) s)
    else s
  else
    if (portOf s p).link = .disabled then s
    else setLink p .disabled (modPort p (fun x => { x with
      pcsUp := false, locks := 0, hiBer := false, faultSeen := false, pauseUntil := none,
      pauseNext := none, owed := 0, rx := x.rx.map (fun r => { r with cut := true }) }) s)

/-- Look at every port. -/
def portsLook (s : State) : State := each portLook (List.range 8) s

/-! Bushels of a frame in reception (R391-R393). -/

/-- Bushels up to the stored length of a frame of which `n` bytes have come; a shortage discards
the unit (R238, R393). -/
def rxBushels (r : RxState) (n : Nat) (s : State) : RxState × State :=
  if r.noBuf || r.refused then (r, s) else
  match takeUpTo r.bushels (max 1 (bushelsOf (min n (r.maxFrame + 1)))) s with
  | (none, s1) => ({ r with bushels := 0, noBuf := true }, s1)
  | (some k, s1) => ({ r with bushels := k }, s1)

/-- Quarters of a grain per byte at the MAC rate of the port mode: 25, 10 and 100 Gbit/s. -/
def byteTime4 (s : State) : Nat :=
  match settingN s sPortMode scDevice with
  | 0 => 68
  | 1 => 170
  | _ => 17

/-- A frame in reception has taken the bushels of the bytes that have come by now (R391): one byte
at its start, the others at the MAC rate. DESIGN CHOICE, log entry 108: the spec gives the
arrival of a byte no step of its own, so it is read from the timeline. -/
def rxArrive (p : Nat) (s : State) : State :=
  match (portOf s p).rx with
  | none => s
  | some r =>
    let n := (now s - r.begun).toNat * 4 / byteTime4 s + 1
    if r.cut || decide (bushelsOf (min n (r.maxFrame + 1)) ≤ r.bushels) then s
    else
      let (r1, s1) := rxBushels r n s
      modPort p (fun x => { x with rx := some r1 }) s1

end Sys2Proof.Machine
end

