-- ==== Sys2Proof/Machine/Role.lean ====
section
/-! DEFINITION. Pair states, leaving the active role and yielding (spec/19 R500, R504, R506). -/
namespace Sys2Proof.Machine

/-- Change the pair block. -/
def modPair (f : Pair → Pair) (s : State) : State := { s with pair := f s.pair }

/-- Code of a pair state (DEV_STAT.PAIR). -/
def pairCode (p : PairState) : Nat :=
  match p with
  | .solo => 0
  | .active => 1
  | .standby => 2
  | .rejoining => 3
  | .isolated => 4

/-- The pair state changes: EV_PAIR_STATE, the role changes of the lifetime store (R500), and the
ports that a standby holds (R503, R505). -/
def setPair (dest : PairState) (s : State) : State :=
  let old := s.pair.st
  if old = dest then s else
  let role := old == .active || dest == .active
  let s1 := modPair (fun p => { p with st := dest }) s
  let s2 := if role then
      { s1 with life := { s1.life with
        live := { s1.life.live with roleChanges := s1.life.live.roleChanges + 1 } } }
    else s1
  portsLook (raise 0x0F01 0 (pairCode old * 256 + pairCode dest) s2)

/-- Discard every frame of a queue of a chip that leaves ACTIVE (R504). -/
def standbyFlush (ds : Bool) (q : Nat) (s : State) : State :=
  let k := queueOf s ds q
  bump cStandbyFlush scDevice k.frames.length (each (fun _ s => dropHead ds q s) k.frames s)

/-- The chip leaves ACTIVE for another state: its lease stops, ROLE_OUT falls, and its queues are
emptied (R504). -/
def leaveActive (dest : PairState) (s : State) : State :=
  let s1 := modPair (fun p => { p with lease := none, roleOut := false }) s
  let s2 := each (standbyFlush true) (s1.qos.ds.map (fun (e : Nat × Queue) => e.1)) s1
  let s3 := each (standbyFlush false) (s2.qos.us.map (fun (e : Nat × Queue) => e.1)) s2
  setPair dest s3

/-- The yield under way takes place (R506): to STANDBY without OUT_OF_STEP, and on to ISOLATED when
that was asked for. -/
def yieldNow (y : Yield) (s : State) : State :=
  let s1 := modPair (fun p => { p with
    yielding := none, outOfStep := false, forceArmed := false, forcePeer := y.force }) s
  let s2 := bump cYields scDevice 1 (leaveActive .standby s1)
  if y.isolate then setPair .isolated s2 else s2

/-- A yield waits for the bursts in progress to end (R506). -/
def yieldLook (s : State) : State :=
  match s.pair.yielding with
  | none => s
  | some y =>
    if [0, 1].any (fun x => match (usLaneOf s x).bursts with
        | b :: _ => b.sending
        | [] => false) then s
    else yieldNow y s

end Sys2Proof.Machine
end

