-- ==== Sys2Proof/Machine/Gate.lean ====
section
/-! DEFINITION. The burst gate (R120-R122, Table 4-6), upstream BSEQ numbering (R118), and what
a burst that ends has sent. -/
namespace Sys2Proof.Machine

/-- Preamble grains of a profile (Table 4-2). -/
def preGrains (pre : BitVec 2) : Nat := 1024 * 2 ^ pre.toNat

/-- The minimum burst of a profile (Table 4-2). -/
def minBurst (pre : BitVec 2) : Nat := preGrains pre + 64 + 640

/-- The condition "a valid transmit lease" (R495). -/
def leaseValid (s : State) : Bool :=
  s.pair.st == .solo ||
  (s.pair.st == .active && s.pair.lease.isSome && s.pair.roleOut && s.pair.readback &&
    !s.pair.roleIn)

/-- The condition "Power state RUN" for upstream lane `x` (R472, R484). -/
def pwrPermits (s : State) (x : Nat) : Bool :=
  s.pwr.st == .run && !(s.pwr.phase == .entering && decide (2 ≤ s.pwr.point)) &&
  s.pwr.phase != .waking && !s.pwr.latched.getLsbD (4 + x)

/-- The furrow is an announce window (R148). -/
def isAnnounce (f : Furrow) : Bool := f.rw && f.plot == 0x3FFF

/-- The furrow is a ranging window of the lane's instance (R148). -/
def isRanging (s : State) (x : Nat) (f : Furrow) : Bool :=
  f.rw && f.plot == (instOf s (ltxOwner s x)).rangePlot && f.plot != 0x3FFF

/-- The activation state permits this burst (Table 5-7). -/
def actPermits (s : State) (x : Nat) (f : Furrow) : Bool :=
  match (instOf s (ltxOwner s x)).stBurst with
  | .announce => isAnnounce f
  | .ranging => isRanging s x f
  | .operating => isRanging s x f || (!isAnnounce f && (usLaneOf s x).eqdAssigned)
  | _ => false

/-- D of a furrow's gate window (R120). -/
def furrowD (f : Furrow) : Nat :=
  if f.dur = 0 ∨ f.so then max f.dur (minBurst f.pre) else f.dur

/-- The gate window of a furrow has closed: the timeline has reached S + D + 8 (R120). -/
def windowClosed (s : State) (f : Furrow) : Bool :=
  decide (0 ≤ tlDiff (f.s + BitVec.ofNat 64 (furrowD f + 8)) (now s))

/-- Grains by which the timeline advances next: a root cycle, a REFCLK edge while the root PLL is
stopped, or none while it halts (R18). -/
def stepGrains (s : State) : Nat :=
  if s.clk.pllRunning then 25 else if s.clk.refclk then 500 else 0

/-- The grain `g` has come: it is before the timeline's next value. Within one root cycle the
timeline holds one value, so a grain of that cycle has come when it begins (R18). -/
def grainCome (s : State) (g : BitVec 64) : Bool :=
  decide (tlDiff (now s) g ≤ 0 ∨ tlDiff (now s) g < stepGrains s)

/-- The timeline is inside the gate window of a furrow: S - 8 to S + D + 8 (R120). -/
def windowOpen (s : State) (f : Furrow) : Bool := grainCome s (f.s - 8) && !windowClosed s f

/-- Every condition of Table 4-6 for a burst of furrow `f` on upstream lane `x`. -/
def gateConds (s : State) (x : Nat) (f : Furrow) : Bool :=
  let l := usLaneOf s x
  l.enabled && !l.wdTrip && s.clk.pllRunning && !s.clk.onFio && s.clk.refclk &&
  pwrPermits s x && actPermits s x f && s.sec.lc != 3 &&
  !s.sec.upstreamInhibit && leaseValid s &&
  groupLocked s f.group && !s.pins.inReset

/-- The lane's gate for a burst of furrow `f`: it opens only inside the furrow's window with all
conditions of Table 4-6 true (R120). -/
def gateOpen (s : State) (x : Nat) (f : Furrow) : Bool := windowOpen s f && gateConds s x f

/-- First bit of payload byte `p` of a burst, in grains after its first preamble bit. -/
def payloadGrain (pre p : Nat) : Nat := pre + 64 + p / 640 * 5440 + 20 + p % 640 * 8

/-- Occupied bytes of a lot of `len` payload bytes (R58). -/
def occupied (len : Nat) : Nat := 8 + 8 * ((len + 7) / 8)

/-- LEN of a lot header (Table 3-1). -/
def lotLen (h : BitVec 64) : Nat := bits h.toNat 47 34

/-- Is a lot header idle (R64)? -/
def lotIdle (h : BitVec 64) : Bool := decide (bits h.toNat 63 48 = 0xFFFF)

/-- The lots of a burst with the payload byte at which each starts. -/
def lotStarts : Nat → List TxLot → List (Nat × TxLot)
  | _, [] => []
  | p, t :: ts => (p, t) :: lotStarts (p + occupied (lotLen t.hdr)) ts

/-- A lot header (Table 3-1). -/
def lotHeader (id len label frag keyIdx bseq : Nat) : BitVec 64 :=
  let h := id % 65536 * 2 ^ 48 + len % 16384 * 2 ^ 34 + label % 256 * 2 ^ 26 + frag % 4 * 2 ^ 24 +
    keyIdx % 4 * 2 ^ 22 + bseq % 4096 * 2 ^ 10
  BitVec.ofNat 64 (h + crc8 (h / 256))

/-- An idle lot of LEN `len` (R64, R118); its payload carries nothing and is not kept. -/
def idleLot (len : Nat) : TxLot :=
  { hdr := lotHeader 0xFFFF len 0 3 0 0, payload := [], queue := none }

/-- A header with its BSEQ (R118). -/
def withBseq (h : BitVec 64) (b : Nat) : BitVec 64 :=
  let v := h.toNat
  lotHeader (bits v 63 48) (bits v 47 34) (bits v 33 26) (bits v 25 24) (bits v 23 22) b

/-- A lot receives its BSEQ; an encryption that waited for it is finished (R432). -/
def numberLot (b : Nat) (t : TxLot) : TxLot :=
  let h := withBseq t.hdr b
  match t.keyNonce with
  | none => { t with hdr := h, num := true }
  | some (key, nonce) =>
    let r := gcmSeal key nonce ((natBytes 8 h.toNat).take 7) t.payload
    { t with hdr := h, num := true, keyNonce := none, payload := r.1 ++ r.2 }

/-! Upstream numbering (R118, R119). -/

/-- First payload byte of a burst's lots. -/
def firstLotByte (b : Burst) : Nat := if b.msg.isSome then 64 else 16

/-- Timeline value of a burst's first preamble bit. -/
def burstStart (b : Burst) : BitVec 64 := b.furrow.s + BitVec.ofNat 64 b.delay

/-- Grain at which the header of each lot of a burst leaves. -/
def lotGrains (b : Burst) : List (BitVec 64 × TxLot) :=
  (lotStarts (firstLotByte b) b.lots).map (fun p =>
    (burstStart b + BitVec.ofNat 64 (payloadGrain (preGrains b.furrow.pre) p.1), p.2))

/-- A lot still to be numbered: its grain before `lim`, lane, and place in the lane's bursts;
none for a lot that will not be sent. -/
structure NumWait where
  before : Int
  lane : Nat
  place : Option (Nat × Nat)

/-- Order of numbering: by grain, LTX0 first on a tie. -/
def numBefore (a b : NumWait) : Bool :=
  decide (b.before < a.before) || (decide (a.before = b.before) && decide (a.lane < b.lane))

/-- Insert in the order of numbering, after equals. -/
def numInsert (a : NumWait) : List NumWait → List NumWait
  | [] => [a]
  | b :: bs => if numBefore a b then a :: b :: bs else b :: numInsert a bs

/-- The lots of the lanes `xs` that leave before `lim` and have no number, in order. -/
def numWaiting (s : State) (xs : List Nat) (lim : BitVec 64) : List NumWait :=
  let mine : List NumWait := xs.flatMap (fun x =>
    ((usLaneOf s x).bursts.zipIdx).flatMap (fun p =>
      ((lotGrains p.1).zipIdx).filterMap (fun q =>
        if q.1.2.num || lotIdle q.1.2.hdr then none
        else some ⟨tlDiff q.1.1 lim, x, some (p.2, q.2)⟩)))
  let lost : List NumWait := (s.us.ghosts.filter (fun g => xs.contains g.1)).map
    (fun g => (⟨tlDiff g.2 lim, g.1, none⟩ : NumWait))
  ((mine ++ lost).filter (fun w => decide (0 < w.before))).foldl (fun l w => numInsert w l) []

/-- Change lot `j` of burst `i` of a lane. -/
def modTxLot (x i j : Nat) (f : TxLot → TxLot) (s : State) : State :=
  modUsLane x (fun l =>
    { l with bursts := l.bursts.modify i (fun b => { b with lots := b.lots.modify j f }) }) s

/-- The next number of an upstream group. -/
def takeBseq (key : Nat) (s : State) : Nat × State :=
  if key = 0 then (s.us.bseq0.toNat, { s with us := { s.us with bseq0 := s.us.bseq0 + 1 } })
  else (s.us.bseq1.toNat, { s with us := { s.us with bseq1 := s.us.bseq1 + 1 } })

/-- Number the lots of one upstream group that leave before `lim`. -/
def numberGroup (key : Nat) (xs : List Nat) (lim : BitVec 64) (s : State) : State :=
  let ws := numWaiting s xs lim
  let s1 := each (fun w s =>
    let (b, s') := takeBseq key s
    match w.place with
    | some (i, j) => modTxLot w.lane i j (numberLot b) s'
    | none => s') ws s
  { s1 with us := { s1.us with ghosts := s1.us.ghosts.filter (fun g =>
      !(xs.contains g.1 && decide (0 < tlDiff g.2 lim))) } }

/-- Number every lot that leaves before `lim`: JOINT has one group, SPLIT one per lane (R117). -/
def numberUpTo (lim : BitVec 64) (s : State) : State :=
  if s.us.split then numberGroup 1 [1] lim (numberGroup 0 [0] lim s)
  else numberGroup 0 [0, 1] lim s

/-! What a burst has sent (R119, R125, R391). -/

/-- Lots whose first byte was due within `g` grains with their encryption still incomplete: an idle
lot of the same occupied length goes in their place (R424). The lots as sent, how many are late, and
the queues whose frame has further fragments, lost with it (R119). -/
def lateLots (b : Burst) (g : Nat) : List TxLot × Nat × List Nat :=
  let pre := preGrains b.furrow.pre
  let marked := (lotStarts (firstLotByte b) b.lots).map (fun p =>
    (!p.2.ready && decide (payloadGrain pre p.1 ≤ g), p.2))
  (marked.map (fun p =>
    if p.1 then { p.2 with hdr := (idleLot (occupied (lotLen p.2.hdr) - 8)).hdr, ends := none }
    else p.2), marked.countP (fun p => p.1),
    marked.filterMap (fun p =>
      if p.1 && decide (bits p.2.hdr.toNat 25 24 % 2 = 0) then p.2.queue else none))

/-- The rest of a frame one of whose fragments is lost is lost with it (R119): it leaves its
queue, and a last fragment already laid out no longer completes it. -/
def loseFrame (q : Nat) (s : State) : State :=
  let later (l : UsLane) : Bool := l.bursts.any (fun b => b.lots.any (fun t =>
    t.queue == some q && t.ends.isSome && decide (bits t.hdr.toNat 25 24 = 1)))
  if later (usLaneOf s 0) || later (usLaneOf s 1) then
    each (fun x s => modUsLane x (fun l => { l with bursts := l.bursts.map (fun b =>
      { b with lots := b.lots.map (fun t =>
        if t.queue == some q && decide (bits t.hdr.toNat 25 24 = 1) then { t with ends := none }
        else t) }) }) s) [0, 1] s
  else
    let k := tabGet ({} : Queue) s.qos.us q
    match k.frames with
    | f :: rest =>
      if 0 < f.sent then
        freeBushels f.bushels { s with qos := { s.qos with
          us := tabSet ({} : Queue) s.qos.us q
            { k with frames := rest, bushels := k.bushels - f.bushels } } }
      else s
    | [] => s

/-- What becomes of the frame of one lot: bushels released, and the frame counted when the lot
ends it and has been sent. -/
def lotDone (sent : Bool) (t : TxLot) (s : State) : State :=
  let s1 := freeBushels t.bushels s
  match t.queue with
  | none => s1
  | some n =>
    let s2 := { s1 with qos := { s1.qos with
        us := tabMod ({} : Queue) s1.qos.us n (fun k => { k with bushels := k.bushels - t.bushels }) } }
    let frag := bits t.hdr.toNat 25 24
    match t.ends with
    | some len =>
      if sent then bump cDeqFrames (scUsQueue n) 1 (bump cDeqBytes (scUsQueue n) len s2) else s2
    | none => if !sent && frag % 2 = 0 then loseFrame n s2 else s2

/-- Count what a burst that was sent for `g` grains from its first preamble bit has sent, and
release the bushels of its lots; lots without a number keep their place in the numbering. The
burst has left the lane's list. -/
def burstAccount (x : Nat) (b0 : Burst) (g : Nat) (s : State) : State :=
  let sc := scLtx x
  let pre := preGrains b0.furrow.pre
  let (late, nLate, cutQs) := lateLots b0 g
  let b := { b0 with lots := late }
  let cws := b.k + (if b.j = 0 then 0 else 1)
  let cwEnd (n : Nat) : Nat :=
    if n < b.k then pre + 64 + (n + 1) * 5440 else pre + 64 + b.k * 5440 + 320 + 320 * b.j
  let cwSent := (List.range cws).countP (fun n => decide (cwEnd n ≤ g))
  let lots := lotStarts (firstLotByte b) b.lots
  let done (q : Nat × TxLot) : Bool :=
    decide (payloadGrain pre (q.1 + 8 + lotLen q.2.hdr - 1) + 8 ≤ g)
  let sent := lots.filter done
  let data := sent.filter (fun q => !lotIdle q.2.hdr)
  let idle := sent.filter (fun q => lotIdle q.2.hdr)
  let frags := data.filter (fun q => decide (bits q.2.hdr.toNat 25 24 ≠ 3))
  let msg := bit (b.msg.isSome && decide (payloadGrain pre 63 + 8 ≤ g))
  let s1 := bump cCryTxLate sc nLate (bump cMsgSent sc msg
    (bump cCwSent sc cwSent (bump cLotsSent sc data.length
    (bump cLotBytes sc ((data.map (fun q => lotLen q.2.hdr)).sum)
    (bump cFragsSent sc frags.length
    (bump cFillBytes sc ((idle.map (fun q => occupied (lotLen q.2.hdr))).sum) s))))))
  let ghosts := ((lotGrains b0).filter (fun p => !p.2.num && !lotIdle p.2.hdr)).map
    (fun p => (x, p.1))
  let s2 := { s1 with us := { s1.us with ghosts := s1.us.ghosts ++ ghosts } }
  yieldLook (drainLook (each loseFrame cutQs
    (each (fun q s => lotDone (done q) q.2 s) lots s2)))

/-- BEN falls: the grains it was high are counted (R125). -/
def benLow (x : Nat) (s : State) : State :=
  let l := usLaneOf s x
  if l.ben then
    bump cLaserOnGrains (scLtx x) (tlDiff l.benSince (now s)).toNat
      (modUsLane x (fun l => { l with ben := false }) s)
  else s

/-- A condition of Table 4-6 became false during a burst: the gate closes and the burst ends
(R122). -/
def cutBurst (x : Nat) (s : State) : State :=
  let l := usLaneOf s x
  match l.bursts with
  | [] => s
  | b :: rest =>
    if b.sending then
      let g := (tlDiff (burstStart b) (now s)).toNat
      let s0 := numberUpTo (now s + 53125) s
      let b' := ((usLaneOf s0 x).bursts.head?).getD b
      let s1 := benLow x (modUsLane x (fun l => { l with bursts := rest }) s0)
      bump cBurstCut (scLtx x) 1 (burstAccount x b' (min g b.len) s1)
    else s

/-- The burst in front of the lane's list has been sent in full, or ended at `s` + L + 8. -/
def endBurst (x : Nat) (s : State) : State :=
  match (usLaneOf s x).bursts with
  | [] => s
  | b :: _ =>
    if !b.sending then s else
    let s0 := numberUpTo (burstStart b + BitVec.ofNat 64 (b.len + 53125)) s
    let b' := ((usLaneOf s0 x).bursts.head?).getD b
    let s1 := modUsLane x (fun l => { l with bursts := l.bursts.drop 1, ben := false }) s0
    burstAccount x b' b.len (bump cLaserOnGrains (scLtx x) (b.len + 16) s1)

/-- Look at Table 4-6 again for the burst being sent on each lane (R122). -/
def gateLook (s : State) : State :=
  each (fun x s =>
    match (usLaneOf s x).bursts with
    | b :: _ => if b.sending && !gateConds s x b.furrow then cutBurst x s else s
    | [] => s) [0, 1] s

/-- The gate of each lane closes at the end of the window, S + D + 8, whatever the burst logic
does (R120); the burst inside it, which lasts D grains at most (R105), has been sent. -/
def windowLook (s : State) : State :=
  each (fun x s =>
    match (usLaneOf s x).bursts with
    | b :: _ => if b.sending && windowClosed s b.furrow then endBurst x s else s
    | [] => s) [0, 1] s

/-- Root PLL reference codes of EV_TIME_REF_CHANGED. -/
def refCode (r : PllRef) : Nat :=
  match r with
  | .free => 0
  | .line => 1
  | .hold => 2

/-- The root PLL reference moves; EV_TIME_REF_CHANGED names the old and the new state (R14,
R568). Raised at every change of state: DEDUCED, log entry 4. -/
def setRef (r : PllRef) (s : State) : State :=
  if s.clk.ref = r then s
  else raise 0x0601 0 (refCode s.clk.ref * 256 + refCode r) { s with clk := { s.clk with ref := r } }

/-- Look at Table 1-3 again: the timing lane gained or lost swath lock, or changed. -/
def refLook (s : State) : State :=
  let t := timingLane s
  let x := laneOf s t
  let locked := isLocked x
  let gained := locked && (!s.clk.timingLocked || decide (s.clk.timingSeen ≠ t))
  let s1 := { s with clk := { s.clk with timingLocked := locked, timingSeen := t } }
  let inRange := decide (-60000 ≤ x.ppb) && decide (x.ppb ≤ 60000)
  match s.clk.ref with
  | .line =>
    if locked then { s1 with clk := { s1.clk with linePpb := x.ppb } }
    else setRef .hold { s1 with clk := { s1.clk with corrWord := s1.clk.linePpb } }
  | r =>
    if !gained then s1
    else if inRange then
      setRef .line { s1 with clk := { s1.clk with corrWord := 0, linePpb := x.ppb } }
    else raise 0x0601 0 (65536 + refCode r * 256 + refCode r) s1

end Sys2Proof.Machine
end

