-- ==== Sys2Proof/Machine/Clocks.lean ====
section
/-! DEFINITION. The clock commands (spec/01). The power-on, which resets everything, is with the
balls. -/
namespace Sys2Proof.Machine

/-- The root PLL reports lock: it carries the timeline from the next REFCLK edge (R19), and
firmware moves CLK_CTRL and CLK_PERI to it (R12). It locks to REFCLK, so REFCLK is present. -/
def execRootPllLock (s : State) : Out :=
  let stopped := s.pwr.st == .deepFallow && s.pwr.phase != .waking
  if s.clk.refclk && !s.pins.inReset && !stopped then
    .next (refLook { s with clk := { s.clk with pllRunning := true, onFio := false } })
  else .next s

/-- REFCLK is lost: EV_TIME_REFCLK_LOST while the root PLL runs, whatever the reference; while
it is stopped the timeline halts (R14, R18, Table 1-4). The gate closes (R122). -/
def execRefclkLost (s : State) : Out :=
  if !s.clk.refclk then .next s else
  let s0 := { s with clk := { s.clk with refclk := false } }
  -- the watchdogs of the lanes that are high keep watching for an edge (R123)
  let s1 := each (fun x s => modUsLane x (fun l => { l with wdMonitor := l.ben }) s) [0, 1] s0
  if s.clk.pllRunning then .next (gateLook (raise 0x0602 0 0 s1))
  else .next { s1 with clk := { s1.clk with tlGap := true } }

/-- REFCLK returns: the reference state is unchanged (Table 1-3), and a halted timeline resumes
from its held value (Table 1-4). -/
def execRefclkReturn (s : State) : Out :=
  let at_ := if s.clk.refclk || s.clk.pllRunning then s.clk.resumed else now s
  .next (each (fun x s => modUsLane x (fun l => { l with wdMonitor := false }) s) [0, 1]
    { s with clk := { s.clk with refclk := true, resumed := at_ } })

/-- The timeline passes from its greatest value to zero: the era counter increments at the same
root cycle and wraps silently (R20). The row is that cycle or edge; at any other value of the
timeline no wrap takes place. -/
def execTimelineWrap (s : State) : Out :=
  if 2 ^ 64 ≤ s.clk.timeline.toNat + stepGrains s then .next (advance (stepGrains s) s)
  else .next s

/-- A host command to discard holdover: HOLD to FREE, the correction word ramped to zero
(Table 1-3). -/
def execDiscardHoldover (s : State) : Out :=
  match s.clk.ref with
  | .hold => .next (setRef .free { s with clk := { s.clk with corrWord := 0 } })
  | _ => .next s

end Sys2Proof.Machine
end

