-- ==== Sys2Proof/Machine/ActOps.lean ====
section
/-! DEFINITION. Shared operations of activation (spec/05): state changes, Clear, loss of lock,
the request for a protection switch. -/
namespace Sys2Proof.Machine

/-- ACT_STATE's code (Table 4-3). -/
def actCode (a : ActState) : Nat :=
  match a with
  | .listen => 0
  | .announce => 1
  | .ranging => 2
  | .operating => 3
  | .holdover => 4
  | .silenced => 5
  | .tuning => 6

/-- Entry `id` of the LOT_ID table. -/
def lotOf (s : State) (id : Nat) : LotEntry := tabGet {} s.lots id

/-- The reassembly context of LOT_ID `id` (R76). -/
def reasmOf (s : State) (id : Nat) : Reasm := tabGet ({} : Reasm) s.reasm id

/-- The context of LOT_ID `id` becomes `r`. -/
def setReasm (id : Nat) (r : Reasm) (s : State) : State :=
  { s with reasm := tabSet ({} : Reasm) s.reasm id r }

/-- Discard the context of LOT_ID `id`, its bushels returning to the pool (R76, R391). -/
def dropReasm (id : Nat) (s : State) : State :=
  let b := (reasmOf s id).bushels
  setReasm id {} (freeBushels b s)

/-- A LOT_ID leaves the table: an open context is discarded and counted, and PLM cleared
(R88, R188). -/
def removeLot (id : Nat) (s : State) : State :=
  let s1 := { s with lots := tabSet {} s.lots id {} }
  let s2 :=
    if (reasmOf s1 id).open_ then bump cFragAbandon (scLot id) 1 (dropReasm id s1)
    else s1
  plmRemove id s2

/-- The LOT_IDs instance `i` owns. -/
def ownLots (s : State) (i : Nat) : List Nat :=
  (s.lots.filter (fun p => p.2.present && p.2.owner == i)).map (fun p => p.1)

/-- The plots instance `i` owns. -/
def ownPlots (s : State) (i : Nat) : List Nat :=
  (s.act.plots.filter (fun p => p.2 == i + 1)).map (fun p => p.1)

/-- The RTT of the instance's lanes goes, and with it the EqD values that wait for their first SC
(R143, R202). -/
def clearRtt (i : Nat) (s : State) : State :=
  each (fun x s => modUsLane x (fun l => { l with eqdPending := [], rtts := [] }) s) (instLtx s i) s

/-- EqD of the instance's lanes becomes zero (R143); a value assigned since then keeps its SC. -/
def clearEqd (i : Nat) (s : State) : State :=
  each (fun x s => modUsLane x (fun l => { l with eqd := 0, eqdAssigned := false }) s)
    (instLtx s i) s

/-- Leave a change for the next boundary of group `g`, or for the boundary of an SC (R139). -/
def leaveFor (i g : Nat) (sc : Option (BitVec 48)) (w : ActDue) (s : State) : State :=
  modInst i (fun x => { x with todo := x.todo ++ [⟨g, sc, w⟩] }) s

/-- Set or clear the running mark of a timer. -/
def setTimer (k : Nat) (v : Bool) (x : Inst) : Inst :=
  match k with
  | 0 => { x with toProfile := v }
  | 1 => { x with toRange := v }
  | 2 => { x with toHold := v }
  | _ => { x with toTune := v }

/-- Clear (R143). `msg`: by a field message of that group, so that furrows, bursts and timers
follow at the boundary (R139); assignments of EqD that wait for their SC and the RTT go at once
(R202). Changes left for a boundary are void, a DURATION to start excepted. -/
def actClear (i : Nat) (msg : Option Nat) (s : State) : State :=
  let keeps (d : ActTodo) : Bool :=
    match d.what with
    | .duration _ => true
    | _ => false
  let s1 := modInst i (fun x =>
    { x with terminalId := 0xFFFF, opRev := 0, txQueue := [], lastAck := none,
             todo := x.todo.filter keeps }) s
  let s2 := each removeLot (ownLots s1 i) s1
  let s3 := { s2 with act := { s2.act with
      plots := s2.act.plots.filter (fun p => p.2 != i + 1) } }
  match msg with
  | some g => each (fun k s => leaveFor i g none (.timer k false) s) [0, 1, 2, 3]
      (leaveFor i g none .clearEqd (clearRtt i s3))
  | none => clearEqd i (clearRtt i (modInst i (fun x =>
      { x with tidBurst := 0xFFFF, toProfile := false, toRange := false, toHold := false,
               toTune := false }) s3))

/-- A protection switch is requested (R158, R160); answers whether it is accepted. -/
def requestSwitch (target : Nat) (host : Bool) (s : State) : Bool × State :=
  if target = s.act.working then (true, s)
  else if !host && (instOf s target).st != .operating then
    (false, raise 0x0406 target 0 (bump cSwitchBlocked (scInst target) 1 s))
  else (true, { s with act := { s.act with pendingSwitch := some target } })

/-- The hold-off has run out: supervision requests the switch, once (R175, R176). -/
def holdOffRequest (i : Nat) (s : State) : State :=
  let (ok, s1) := requestSwitch (1 - i) false s
  modSupInst i (fun x => { x with holdStart := none, fired := true, refused := !ok }) s1

/-- A hold-off that has run out by the value now in force requests the switch at once (R175). -/
def holdOffLook (i : Nat) (s : State) : State :=
  match (supInstOf s i).holdStart with
  | some t =>
    if (settingN s sHoldOff (scInst i) * msGrains : Int) ≤ tlDiff t (now s) then
      holdOffRequest i s else s
  | none => s

/-- Every 5,440 grains the RDI state of every instance is evaluated (R174); with HOLD_OFF 0 the first
evaluation at which the summary is true makes the request (R175). -/
def execRdiEvaluation (s : State) : Out :=
  .next (each (fun i s => holdOffLook i (rdiEvaluate i s)) (instances s) s)

/-- Instance `i` has entered OPERATING: a refused request of supervision is repeated (R176). -/
def operatingEntered (i : Nat) (s : State) : State :=
  let w := s.act.working
  if w ≠ i ∧ (supInstOf s w).refused then
    let (ok, s1) := requestSwitch i false s
    modSupInst w (fun x => { x with refused := !ok }) s1
  else s

/-- The state of an instance changes (R143). A change that no message caused is in force at
once; one caused by a message of group `msg` comes into force for furrows and bursts at that
group's next boundary (R139). -/
def setAct (i : Nat) (dest : ActState) (msg : Option Nat) (s : State) : State :=
  let old := (instOf s i).st
  let s1 := modInst i (fun x => { x with st := dest }) s
  let s2 :=
    match msg with
    | some g => leaveFor i g none .commit s1
    | none => modInst i (fun x => { x with stBurst := dest, tidBurst := x.terminalId }) s1
  if old = dest then s2 else
  let s3 := raise 0x0401 i (actCode old * 256 + actCode dest) s2
  let s4 := if dest = .operating then operatingEntered i s3 else s3
  gateLook (supLook s4)

/-- The instance is cleared and returns to LISTEN. -/
def toListen (i : Nat) (msg : Option Nat) (s : State) : State :=
  setAct i .listen msg (actClear i msg s)

/-- A stop of timer `k` that a message left for a boundary is void: the timer has started anew. -/
def voidStop (k : Nat) (x : Inst) : Inst :=
  { x with todo := x.todo.filter (fun d => !decide (d.what = .timer k false)) }

/-- Lock of the instance's groups is gone, or TO_PROFILE has expired (Table 5-5). -/
def actLost (i : Nat) (s : State) : State :=
  match (instOf s i).st with
  | .announce | .ranging => toListen i none s
  | .operating =>
    let s1 := setAct i .holdover none
      (modInst i (fun x => voidStop 2 { x with toHold := true }) s)
    if settingN s1 sToHold (scInst i) = 0 then toListen i none s1 else s1
  | _ => s

/-- Look at "Locked" of every instance after a lane's lock has changed (R143). -/
def actLockLook (s : State) : State :=
  each (fun i s => if instLocked s i then s else actLost i s) (instances s) s

/-- Every consequence of a lane's gain or loss of lock outside the lane: root PLL reference,
gate, activation (R14, R122, R143). -/
def lockLook (s : State) : State := actLockLook (gateLook (refLook s))

/-- HOLD_OFF expires while the working parent's summary has stayed true (R175). -/
def execHoldOffExpiry (inst : Fin 2) (s : State) : Out :=
  if (supInstOf s inst).holdStart.isSome then .next (holdOffRequest inst s) else .next s

end Sys2Proof.Machine
end

