-- ==== Sys2Proof/Machine/CryOps.lean ====
section
/-! DEFINITION. Shared operations of the cipher engine: slots and bindings, nonces, operations
waiting and started (spec/16). -/
namespace Sys2Proof.Machine

/-- Key slot `k`. -/
def slotOf (s : State) (k : Nat) : KeySlot := tabGet ({} : KeySlot) s.cry.slots k
/-- Change key slot `k`. -/
def modSlot (k : Nat) (f : KeySlot → KeySlot) (s : State) : State :=
  { s with cry := { s.cry with slots := tabMod ({} : KeySlot) s.cry.slots k f } }

/-- The life-cycle state that the fuses spell (R446), coded as in R458: 0 BLANK, 1 PROVISIONED,
2 SECURED, 3 RETIRED. A field with any bit burned counts as burned. -/
def fuseState (s : State) : Nat :=
  if s.fuses.ret ≠ 0 then 3 else if s.fuses.sec ≠ 0 then 2 else if s.fuses.prov ≠ 0 then 1 else 0

/-- Life cycle: as the last boot decoded it (R446). -/
def lifeCycle (s : State) : Nat := s.sec.lc

/-- The KEK's CRC-32 agrees with it (R447). -/
def kekValid (s : State) : Bool :=
  decide (crc32 (natBytes 32 s.fuses.kek.toNat) = s.fuses.kekCrc.toNat)

/-- The slot bound to a target (Table 16-5), loaded or not. -/
def boundSlot (s : State) (use target keyIdx : Nat) : Option Nat :=
  (s.cry.slots.find? (fun p => p.2.use == use && p.2.target == target &&
    (use != 1 && use != 2 || p.2.keyIdx == keyIdx))).map (fun p => p.1)

/-- The slot of a target that counts as having a key (R440). -/
def keySlot (s : State) (use target keyIdx : Nat) : Option Nat :=
  match boundSlot s use target keyIdx with
  | some k => if (slotOf s k).loaded then some k else none
  | none => none

/-- The key of a target. -/
def targetKey (s : State) (use target keyIdx : Nat) : Option Bytes :=
  (keySlot s use target keyIdx).map (fun k => (slotOf s k).key)

/-- A line nonce (Table 16-3), 12 bytes. -/
def lineNonce (sc : BitVec 48) (pos lane : Nat) (up : Bool) (lotId : Nat) : Bytes :=
  natBytes 12 (sc.toNat * 2 ^ 48 + pos % 2 ^ 17 * 2 ^ 31 + lane % 4 * 2 ^ 29 + bit up * 2 ^ 28 +
    lotId % 2 ^ 16 * 2 ^ 12)

/-- Draw a nonce of a slot (R431); none when its counter is at its end. -/
def drawNonce (k : Nat) (s : State) : Option Bytes × State :=
  let x := slotOf s k
  if x.ctr = 0xFFFFFFFFFFFFFFFF then (none, s)
  else (some (natBytes 4 x.salt.toNat ++ natBytes 8 x.ctr.toNat),
    modSlot k (fun x => { x with ctr := x.ctr + 1 }) s)

/-- A use of the random bit generator (R426, R427): the free number, and the request counted. -/
def rngDraw (s : State) : Nat × State :=
  (freeNat s, { drawn s with cry := { s.cry with requests := s.cry.requests + 1 } })

/-- Granule slots of an operation (R422). -/
def granules (o : CryOp) : Nat := max 1 ((o.aad.length + o.text.length + 63) / 64)

/-- The mask bits of an operation's granules (R425). -/
def CryStart.maskBits (x : CryStart) (n : Nat) : List (BitVec 256) :=
  (List.range n).map (fun i => Config.maskBits (x.mask + i))

/-- Draw mask bits `n` times: each is a generate request (R425, R426; DESIGN CHOICE, log entry
115). -/
def maskDraw (n : Nat) (s : State) : State :=
  { s with cry := { s.cry with masks := s.cry.masks + n, requests := s.cry.requests + n } }

/-- The slot whose key an operation finds (R440). -/
def opKeySlot (s : State) (o : CryOp) : Option Nat :=
  if o.use = 5 then
    let x := slotOf s o.slot
    if x.loaded && x.use == 5 && x.cmacAlg == (o.mode == .mac) then some o.slot else none
  else keySlot s o.use o.target o.keyIdx

/-- An operation starts: it takes the key of its slot's generation at this moment (R441), and fresh
mask bits for each granule (R425). One that finds no key stays unstarted and ends as one on an erased
slot does; a stopped engine starts none (R428). -/
def startOp (o : CryOp) (s : State) : State :=
  if o.started.isSome || s.cry.stopped then s else
  match opKeySlot s o with
  | none => s
  | some k =>
    let x := slotOf s k
    let st : CryStart :=
      { gen := x.gen, share0 := x.share0, share1 := x.share1, mask := s.cry.masks }
    let o' : CryOp := { o with slot := k, started := some st }
    maskDraw (granules o) { s with cry := { s.cry with
      ops := s.cry.ops.map (fun p => if p.id == o.id then o' else p) } }

/-- Operations of a client, in order of arrival. -/
def clientOps (s : State) (c : Nat) : List CryOp := s.cry.ops.filter (fun o => o.client == c)

/-- The operation of a client that is next to end: the oldest; CIPHER calls and commands of OTHER are
served alternately (R423). -/
def nextOp (s : State) (c : Nat) : Option CryOp :=
  let os := clientOps s c
  match os.find? (fun o => o.started.isSome) with
  | some o => some o
  | none => (os.find? (fun o => (o.dst == .command) == s.cry.commandTurn)).or os.head?

/-- Start the operation of every client that is next. DESIGN CHOICE, log entry 11: one operation of
a client is started at a time. -/
def startOps (s : State) : State :=
  each (fun c s => match nextOp s c with
    | some o => startOp o s
    | none => s) [0, 1, 2] s

/-- Hand an operation to the engine; answers its number. -/
def issueOp (o : CryOp) (s : State) : Nat × State :=
  let id := s.cry.nextId
  (id, startOps { s with cry := { s.cry with ops := s.cry.ops ++ [{ o with id := id }],
                                             nextId := id + 1 } })

/-- Outcome of a started operation: its bytes and tag, or none when a tag fails. -/
def runOp (o : CryOp) (key : Bytes) : Option (Bytes × Bytes) :=
  match o.mode with
  | .seal => some (gcmSeal key o.nonce o.aad o.text)
  | .open_ => (gcmOpen key o.nonce o.aad o.text o.tag).map (fun t => (t, []))
  | .mac => some ([], cmac key o.text)

end Sys2Proof.Machine
end

