-- ==== Sys2Proof/Machine/Gens.lean ====
section
/-! DEFINITION. Rule generations: commit, in-flight counts, retirement (spec/11, R325-R328). -/
namespace Sys2Proof.Machine

/-- Change the classification state. -/
def modCls (f : Cls → Cls) (s : State) : State := { s with cls := f s.cls }

/-- The older generation retires when nothing of it is in flight (Table 11-8). -/
def retireLook (s : State) : State :=
  if s.cls.st = .twoLive ∧ s.cls.inOld = 0 then
    bump cRetires scDevice 1 (modCls (fun c => { c with st := .sweeping }) s)
  else s

/-- A packet of generation `g` has left classification (R328). -/
def genLeave (g : BitVec 8) (s : State) : State :=
  retireLook (modCls (fun c =>
    if g = c.newest then { c with inNew := c.inNew - 1 } else { c with inOld := c.inOld - 1 }) s)

/-- The staged set becomes generation newest + 1 (R325, Table 11-8). -/
def commitNow (tag : Option (BitVec 16 × Bool)) (s : State) : State :=
  let c := s.cls
  let next : RuleGen :=
    { graph := if c.stGraph.isSome then c.stGraph else c.cur.graph,
      pats := c.stPats.getD c.cur.pats, deflt := c.stDeflt.getD c.cur.deflt }
  let s1 := modCls (fun c => { c with
    st := .twoLive, newest := c.newest + 1, old := c.cur, cur := next, inOld := c.inNew, inNew := 0,
    stGraph := none, stPats := none, stDeflt := none, ternOps := 0, emOps := 0, commit := none,
    retireSlow := false }) s
  let s2 := bump cCommits scDevice 1 s1
  let s3 := match tag with
    | some (t, m) => raiseTag 0x0901 0 s1.cls.newest.toNat t m s2
    | none => raise 0x0901 0 s1.cls.newest.toNat s2
  retireLook s3

end Sys2Proof.Machine
end

