-- ==== Sys2Proof/Machine/Arrive.lean ====
section
/-! DEFINITION. What a marker arrival on the timing lane makes due elsewhere (R510, R326), and
what lock changes mean to a listening lane (R477). -/
namespace Sys2Proof.Machine

/-- Mirrored commands whose APPLY_SC has been reached become due (R510). -/
def heldDue (sc : BitVec 48) (s : State) : State :=
  { s with pair := { s.pair with held := s.pair.held.map (fun h =>
      if !h.awaitAck && decide (0 ≤ scDiff h.applySc sc) then { h with due := true } else h) } }

/-- A commit waiting for an SC takes effect at its arrival (R326). -/
def commitDue (sc : BitVec 48) (s : State) : State :=
  match s.cls.commit with
  | some w => if 0 ≤ scDiff w.sc sc then commitNow (some (w.tag, w.mgmt)) s else s
  | none => s

/-- A marker arrival with SC `sc` has been recorded on lane `l` (R54). -/
def arrived (l : Nat) (sc : BitVec 48) (s : State) : State :=
  if timingLane s = l then commitDue sc (heldDue sc s) else s

end Sys2Proof.Machine
end

