-- ==== Sys2Proof/Machine/Rs.lean ====
section
/-! DEFINITION. The RS(544,514) code over GF(2^10) (R34, R37, R103): encoder, and a decoder
that corrects up to 15 symbol errors. The generator polynomial is that of IEEE Std 802.3
Clause 91, with roots alpha^0 to alpha^29 (PRESUMED, log entry 3). -/
namespace Sys2Proof.Machine

/-- Multiply by alpha in GF(2^10), x^10 = x^3 + 1. -/
def gfDouble (a : Nat) : Nat := let d := a * 2; if d ≥ 1024 then d ^^^ 0x409 else d

/-- Product in GF(2^10). -/
def gfMul (a b : Nat) : Nat :=
  (List.range 10).foldl (fun (p : Nat × Nat) i =>
    (if b.testBit i then p.1 ^^^ p.2 else p.1, gfDouble p.2)) (0, a) |>.1

/-- `a` to the power `n`, square and multiply on the bits of `n` (n < 2^11). -/
def gfPow (a n : Nat) : Nat :=
  (bits11 n).foldl (fun r b => let q := gfMul r r; if b then gfMul q a else q) 1
where
  /-- The 11 low bits, most significant first. -/
  bits11 (n : Nat) : List Bool := (List.range 11).map (fun i => n.testBit (10 - i))

/-- Inverse: a^1022. -/
def gfInv (a : Nat) : Nat := gfPow a 1022

/-- alpha^n. -/
def gfAlpha (n : Nat) : Nat := gfPow 2 (n % 1023)

/-- Value at `x` of a polynomial given highest coefficient first. -/
def polyEval (p : List Nat) (x : Nat) : Nat := p.foldl (fun a c => gfMul a x ^^^ c) 0

/-- The generator polynomial's coefficients below x^30, highest first. -/
def rsGen : List Nat :=
  ((List.range 30).foldl (fun (g : List Nat) i =>
    let a := gfAlpha i
    List.zipWith (fun x y => x ^^^ y) (g ++ [0]) (0 :: g.map (gfMul a))) [1]).drop 1

/-- The 30 parity symbols of message symbols, first sent first (R34). -/
def rsParity (msg : List Nat) : List Nat :=
  let g := rsGen
  msg.foldl (fun (r : List Nat) m =>
    let f := m ^^^ r.headD 0
    List.zipWith (fun x y => x ^^^ gfMul f y) (r.drop 1 ++ [0]) g) (List.replicate 30 0)

/-- The 30 syndromes. -/
def rsSyndromes (w : List Nat) : List Nat := (List.range 30).map (fun j => polyEval w (gfAlpha j))

/-- Berlekamp-Massey: the error locator, lowest coefficient first, and its length. -/
def rsLocator (syn : List Nat) : List Nat × Nat :=
  let st := (List.range 30).foldl
    (fun (q : List Nat × List Nat × Nat × Nat × Nat) n =>
      let (c, b, l, m, bb) := q
      let d := (List.range (l + 1)).foldl
        (fun a i => a ^^^ gfMul (c.getD i 0) (syn.getD (n - i) 0)) 0
      if d = 0 then (c, b, l, m + 1, bb) else
      let k := gfMul d (gfInv bb)
      let t := List.replicate m 0 ++ b.map (gfMul k)
      let len := max c.length t.length
      let c' := (List.range len).map (fun i => c.getD i 0 ^^^ t.getD i 0)
      if 2 * l ≤ n then (c', c, n + 1 - l, 1, d) else (c', b, l, m + 1, bb))
    ([1], [1], 0, 1, 1)
  (st.1, st.2.2.1)

/-- Decode 544 symbols: the number of symbols corrected and the corrected word, or none when
it is marked uncorrectable (R37). -/
def rsDecode (w : List Nat) : Option (Nat × List Nat) :=
  let syn := rsSyndromes w
  if syn.all (· == 0) then some (0, w) else
  let (c, l) := rsLocator syn
  if 15 < l then none else
  -- omega = syndromes * locator mod x^30, lowest first
  let om := (List.range 30).map (fun n =>
    (List.range (n + 1)).foldl (fun a i => a ^^^ gfMul (c.getD i 0) (syn.getD (n - i) 0)) 0)
  let ev (p : List Nat) (x : Nat) : Nat := polyEval p.reverse x
  let cOdd := (List.range c.length).map (fun i => if i % 2 = 1 then c.getD i 0 else 0)
  let fixes := (List.range 544).filterMap (fun pos =>
    let e := 543 - pos
    let xi := gfAlpha (1023 - e)
    if ev c xi = 0 then
      -- error value X * omega(1/X) / (X/ x * odd part): roots start at alpha^0
      let num := ev om xi
      let den := ev cOdd xi
      some (pos, if den = 0 then 0 else gfMul num (gfInv den))
    else none)
  if fixes.length ≠ l then none else
  let w' := (List.zip (List.range 544) w).map (fun p =>
    match fixes.find? (fun f => f.1 == p.1) with
    | some f => p.2 ^^^ f.2
    | none => p.2)
  if (rsSyndromes w').all (· == 0) then some (l, w') else none

/-- The symbols of a 5,440-bit word, first sent first. -/
def wordSymbols (w : BitVec 5440) : List Nat :=
  (List.range 544).map (fun i => w.toNat / 2 ^ (10 * (543 - i)) % 1024)

/-- A codeword's message: its 20 header bits and its 640 payload bytes (Table 2-2). -/
def wordMessage (syms : List Nat) : Nat × Bytes :=
  let v := (syms.take 514).foldl (fun a x => a * 1024 + x) 0
  (v / 2 ^ 5120, natBytes 640 (v % 2 ^ 5120))

end Sys2Proof.Machine
end

