-- ==== Sys2Proof/Machine/Line.lean ====
section
/-! DEFINITION. Downstream lanes: codewords, acquisition, swath lock, delineation and bonding
inclusion (spec/02, spec/03). -/
namespace Sys2Proof.Machine

/-- The marker (Table 2-4). -/
def markerBytes : Bytes := natBytes 8 0x4F1BA6C35E82D90F

/-- The skew limit of a bonding group, 2 us (R80). -/
def skewLimit : Int := 106250

/-- Payload bytes of a swath. -/
def swathBytes : Nat := 800000

/-- A decoded codeword. -/
structure Decoded where
  corrected : Nat
  index : Nat
  txLane : BitVec 2
  hcrcOk : Bool
  payload : Bytes

/-- Decode a received word (R34, R37); none: uncorrectable. -/
def decodeWord (w : BitVec 5440) : Option Decoded :=
  match rsDecode (wordSymbols w) with
  | none => none
  | some (n, syms) =>
    let (h, p) := wordMessage syms
    some { corrected := n, index := bits h 19 9, txLane := BitVec.ofNat 2 (bits h 8 7),
           hcrcOk := decide (crc7 (bits h 19 7) = bits h 6 0), payload := p }

/-! Bonding inclusion (R78-R84). -/

/-- The primary lane of group `g` for SC `sc` (R79): the lowest included lane whose codeword 0
of that SC carries a valid SH_CRC with PRI = 1; for an earlier SC, the one recorded. An SC whose
primary lane was excluded in it has none left: another lane becomes primary from the next SC
(Table 3-11). -/
def primaryOf (s : State) (g : Nat) (sc : BitVec 48) : Option Nat :=
  if (groupOf s g).lostPrimary = some sc then none else
  match (includedOf s g).find? (fun l =>
      let x := laneOf s l
      x.shOk && x.pri && x.sc == sc) with
  | some l => some l
  | none => ((groupOf s g).primaries.find? (fun p => p.1 == sc)).bind (fun p => p.2)

/-- A lane leaves its group (R78); when none is left the next release restarts BSEQ (R83).
EV_SCOPE and EV_DATA both name the lane, as in the example of Table 21-12: DEDUCED, log
entry 91. -/
def excludeLane (l : Nat) (s : State) : State :=
  if !(laneOf s l).included then s else
  let g := laneGroup s l
  let sc := (laneOf s l).sc
  let s0 := if primaryOf s g sc = some l then
      modGroup g (fun y => { y with lostPrimary := some sc }) s else s
  let s1 := modLane l (fun x => { x with included := false, okSwaths := 0 }) s0
  let s2 := raise 0x0304 l l (bump cLaneExclude (scGroup g) 1 s1)
  if (includedOf s2 g).isEmpty then modGroup g (fun y => { y with expected := none }) s2 else s2

/-- A lane joins its group: it takes part from the first SC of which the group has released no
header yet (R84). Lots left from before a group had no included lane are never released
(Table 3-11). -/
def includeLane (l : Nat) (sc : BitVec 48) (s : State) : State :=
  let g := laneGroup s l
  let start := match (groupOf s g).releasedSc with
    | some r => if scDiff r sc ≤ 0 then r + 1 else sc
    | none => sc
  let s0 := if (includedOf s g).isEmpty then
      each (fun k => modLane k (fun x => { x with waiting := [] })) (lanesOf s g) s else s
  raise 0x0305 l l (modLane l (fun x =>
    { x with included := true, everIncluded := true, inclFrom := start }) s0)

/-- The candidate lanes of a group (R80). -/
def candidates (s : State) (g : Nat) : List Nat :=
  (lanesOf s g).filter (fun l =>
    let x := laneOf s l
    isLocked x && x.shSeen && decide (x.shGroup.toNat = g))

/-- Last arrival of a lane, as a timeline value. -/
def lastArrival (x : Lane) : BitVec 64 := (x.arrivals.head?.map (·.at_)).getD 0

/-- The reference SC of a comparison (R80): carried by most; on a tie by the lowest lane whose
codeword 0 has PRI = 1 under a valid SH_CRC among the tied, then by the lowest lane. -/
def referenceSc (s : State) (ls : List Nat) : BitVec 48 :=
  let scs := ls.map (fun l => (laneOf s l).sc)
  let top := (scs.map (fun v => scs.count v)).foldl max 0
  let tied := ls.filter (fun l => decide (scs.count (laneOf s l).sc = top))
  let distinct := (tied.map (fun l => (laneOf s l).sc)).eraseDups
  let pick :=
    if distinct.length ≤ 1 then tied.head?
    else
      match ls.find? (fun l => (laneOf s l).shOk && (laneOf s l).pri) with
      | some l => some l
      | none => ls.head?
  (pick.map (fun l => (laneOf s l).sc)).getD 0

/-- A lane meets R80 against the group's candidates: it carries the reference SC and its skew
is within the limit. -/
def bondOk (s : State) (cands : List Nat) (ref : BitVec 48) (l : Nat) : Bool :=
  let x := laneOf s l
  let peers := cands.filter (fun c => (laneOf s c).sc == ref)
  x.sc == ref &&
    peers.all (fun c => decide (tlDiff (lastArrival (laneOf s c)) (lastArrival x) ≤ skewLimit))

/-- A lane excluded by R80 is excluded from its present SC on: its lots of that SC are not
released (R84). -/
def excludeNow (l : Nat) (s : State) : State :=
  if (laneOf s l).included then
    modLane l (fun x => { x with
      waiting := x.waiting.filter (fun w => decide (0 < scDiff w.key.sc x.sc)) }) (excludeLane l s)
  else s

/-- The comparison of R80 for the last marker of lane `l`, and what it decides: who is excluded,
whether the lane joins (R84), and what becomes of its lots of the SC. -/
def bondCompare (l : Nat) (s : State) : State :=
  let g := laneGroup s l
  let cands := candidates s g
  if !cands.contains l then
    modLane l (fun x => { x with okSwaths := 0, cmpOpen := false, undecided := [] })
      (excludeLane l s)
  else
  let a := lastArrival (laneOf s l)
  let compared := cands.filter (fun c =>
    let d := tlDiff a (lastArrival (laneOf s c))
    decide (-skewLimit ≤ d) && decide (d ≤ skewLimit))
  let ref := referenceSc s compared
  let s1 := each (fun c s' => if bondOk s cands ref c then s' else excludeNow c s') compared s
  let ok := bondOk s cands ref l
  let s2 := modLane l (fun x => { x with okSwaths := if ok then x.okSwaths + 1 else 0 }) s1
  let x := laneOf s2 l
  let s3 := if ok && !x.included && !x.everIncluded then includeLane l x.sc s2 else s2
  modLane l (fun x => { x with
    cmpOpen := false, undecided := []
    waiting := x.waiting ++ (if x.included then
      x.undecided.filter (fun w => decide (0 ≤ scDiff x.inclFrom w.key.sc)) else []) }) s3

/-- No further marker can stand within the window of R80 around the last marker of lane `l`: every
other candidate has had its marker, or the window has passed. -/
def cmpReady (s : State) (l : Nat) : Bool :=
  let a := lastArrival (laneOf s l)
  let cands := candidates s (laneGroup s l)
  !cands.contains l || decide (skewLimit < tlDiff a (now s)) ||
  cands.all (fun c => c == l || decide (-skewLimit ≤ tlDiff a (lastArrival (laneOf s c))))

/-- Every open comparison of the group that is ready is made (R80). -/
def bondSettle (g : Nat) (s : State) : State :=
  each (fun l s => if (laneOf s l).cmpOpen && cmpReady s l then bondCompare l s else s)
    (lanesOf s g) s

/-- Look at the group again at a marker of lane `l` (R78, R80, R84). -/
def bondLook (l : Nat) (s : State) : State :=
  bondSettle (laneGroup s l) (modLane l (fun x => { x with cmpOpen := true }) s)

/-- A comparison still open at the lane's next codeword 0 is made first: its window has passed. -/
def bondClose (l : Nat) (s : State) : State :=
  if (laneOf s l).cmpOpen then bondCompare l s else s

/-- Count one lane in PRI_CONFLICT (R79). -/
def countConflict (g l : Nat) (s : State) : State :=
  raise 0x0306 l l (bump cPriConflict (scGroup g) 1
    (modLane l (fun x => { x with priCounted := true }) s))

/-- Every lane of group `g` but the primary whose codeword 0 of SC `sc` carries a valid SH_CRC with
PRI = 1, included or not, counts once in PRI_CONFLICT (R79). -/
def priConflict (g : Nat) (sc : BitVec 48) (s : State) : State :=
  match primaryOf s g sc with
  | none => s
  | some p =>
    let pris := (lanesOf s g).filter (fun l =>
      let x := laneOf s l
      isLocked x && x.shOk && x.pri && x.sc == sc)
    let counted := pris.countP (fun l => (laneOf s l).priCounted)
    let new := pris.filter (fun l => l != p && !(laneOf s l).priCounted)
    each (countConflict g) (new.take (pris.length - 1 - counted)) s

/-! Delineation (R62, R66, R67). -/

/-- What one look at the delineation does. -/
structure Cut where
  lane : Lane
  counts : List CtrId := []
  /-- The header of a non-idle lot has been found. -/
  found : Option (BitVec 64) := none
  /-- The lot that the buffer began with is complete: its payload, or none when a gap took it. -/
  done : Option (Option Bytes) := none

/-- Eight bytes as a header; none when one lies in a gap. -/
def headerAt (b : List (Option (BitVec 8))) : Option (BitVec 64) :=
  let h := b.take 8
  if h.length = 8 ∧ h.all (·.isSome) then
    some (BitVec.ofNat 64 (beNat (h.map (·.getD 0))))
  else none

/-- HCS of a header is valid (R60). -/
def hcsOk (h : BitVec 64) : Bool := decide (crc8 (bits h.toNat 63 8) = bits h.toNat 7 0)

/-- Drop the first `n` bytes of the lane's buffer. -/
def dropBuf (n : Nat) (x : Lane) : Lane := { x with buf := x.buf.drop n, bufAt := x.bufAt + n }

/-- Outcome of following a chain in RESYNC (R67). -/
inductive Chain | broken | unknown | confirmed (skip : Nat)

/-- Follow a chain from the buffer's position `off`, `k` headers still to find. -/
def followChain (x : Lane) : Nat → Nat → Chain
  | 0, _ => .unknown
  | k + 1, off =>
    if x.buf.length < off + 8 then .unknown else
    match headerAt (x.buf.drop off) with
    | none => .broken
    | some h =>
      let e := x.bufAt + off + occupied (lotLen h)
      if !hcsOk h || decide (swathBytes < e) then .broken
      else if k = 0 then .confirmed off
      else if e = swathBytes then .confirmed (off + occupied (lotLen h))
      else followChain x k (off + occupied (lotLen h))

/-- Key of the lot that the lane's buffer begins with (R81). -/
def bufKey (x : Lane) : LotKey := ⟨x.sc, x.bufAt / 640, x.bufAt % 640, x.txLane.toNat⟩

/-- One look at the lot stream; none: nothing more can be said from the bytes so far. -/
def cutOne (t : BitVec 64) (x : Lane) : Option Cut :=
  match x.delin with
  | .none | .wait => none
  | .delineated =>
    if x.buf.length < 8 then none else
    match headerAt x.buf with
    | none =>
      some { lane := dropBuf 8 { x with delin := .resync, delinSince := t },
             counts := [cHdrInGap, cResyncEnter] }
    | some h =>
      if !hcsOk h then
        some { lane := dropBuf 8 { x with delin := .resync, delinSince := t },
               counts := [cHcsErr, cResyncEnter] }
      else
        let n := occupied (lotLen h)
        if swathBytes < x.bufAt + n then
          some { lane := { x with delin := .wait, delinSince := t, buf := [] },
                 counts := [cLotOverrun] }
        else if !lotIdle h && !x.hdrOut then
          some { lane := { x with hdrOut := true }, found := some h }
        else if x.buf.length < n then none
        else if lotIdle h then some { lane := dropBuf n x, counts := [cIdleLots] }
        else
          let p := (x.buf.drop 8).take (lotLen h)
          let x1 := dropBuf n { x with hdrOut := false }
          if p.all (·.isSome) then some { lane := x1, done := some (some (p.map (·.getD 0))) }
          else some { lane := x1, counts := [cLotGapDiscard], done := some none }
  | .resync =>
    if x.buf.length < 8 then none else
    match followChain x 4 0 with
    | .unknown => none
    | .broken => some { lane := dropBuf 8 x }
    | .confirmed k =>
      some { lane := dropBuf k { x with delin := .delineated, delinSince := t },
             counts := [cResyncOk] }

/-- A header found on a lane enters the merge: its lot waits for release when the lane takes part,
for the comparison of its SC while that is open, and nowhere otherwise (R80, R82, R84). -/
def openLot (l : Nat) (h : BitVec 64) (x : Lane) : Lane :=
  let lot : Lot := { key := bufKey x, hdr := h, payload := [], lane := l, whole := false }
  if x.cmpOpen then { x with undecided := x.undecided ++ [lot] }
  else if x.included && decide (0 ≤ scDiff x.inclFrom x.sc) then
    { x with waiting := x.waiting ++ [lot] }
  else x

/-- The lot with key `k` in a list is complete, or is dropped when `p` is none. -/
def closeIn (k : LotKey) (p : Option Bytes) (ls : List Lot) : List Lot :=
  match p with
  | some b => ls.map (fun w => if w.key = k then { w with payload := b, whole := true } else w)
  | none => ls.filter (fun w => w.key ≠ k)

/-- The same for a lot whose header has been released. -/
def closeRel (k : LotKey) (p : Option Bytes) (r : Rel) : Rel :=
  if r.lot.key = k ∧ r.lot.whole = false then
    match p with
    | some b => { r with lot := { r.lot with payload := b, whole := true } }
    | none => { r with lot := { r.lot with whole := true }, step := .gone }
  else r

/-- The payload of lane `l`'s lot with key `k` is complete, or the lot is discarded. -/
def closeLot (l : Nat) (k : LotKey) (p : Option Bytes) (s : State) : State :=
  modGroup (laneGroup s l) (fun y => { y with released := y.released.map (closeRel k p) })
    (modLane l (fun x => { x with
      waiting := closeIn k p x.waiting, undecided := closeIn k p x.undecided }) s)

/-- The lot of which lane `l` has handed over the header alone is discarded: a partial lot
(R66, Table 2-6). -/
def dropPartial (l : Nat) (s : State) : State :=
  if (laneOf s l).hdrOut then
    modLane l (fun x => { x with hdrOut := false }) (closeLot l (bufKey (laneOf s l)) none s)
  else s

/-- What one look at the lot stream of lane `l` found is carried out. -/
def applyCut (l : Nat) (c : Cut) (s : State) : State :=
  let k := bufKey (laneOf s l)
  let s1 := each (fun n s => bump n (scLrx l) 1 s) c.counts (modLane l (fun _ => c.lane) s)
  let s2 := match c.found with
    | some h => modLane l (openLot l h) s1
    | none => s1
  match c.done with
  | some p => closeLot l k p s2
  | none => s2

/-- Cut every lot the bytes so far allow. -/
def cutLots (l : Nat) : Nat → State → State
  | 0, s => s
  | fuel + 1, s =>
    match cutOne (now s) (laneOf s l) with
    | none => s
    | some c => cutLots l fuel (applyCut l c s)

/-- Bytes of the swath from position `at_` reach the delineation; those before the position it
waits for are skipped. -/
def feed (l : Nat) (at_ : Nat) (b : List (Option (BitVec 8))) (s : State) : State :=
  let s1 := modLane l (fun x =>
    let have_ := x.bufAt + x.buf.length
    match x.delin with
    | .none | .wait => { x with buf := [], bufAt := at_ + b.length }
    | _ => { x with buf := x.buf ++ b.drop (have_ - at_) }) s
  cutLots l ((laneOf s1 l).buf.length + 2) s1

/-- A 640-byte gap marker (R37). -/
def gap : List (Option (BitVec 8)) := List.replicate 640 none

/-- The first codeword of a swath sets the delineation (Table 3-2): from `at_`, in state `d`. -/
def startDelin (l : Nat) (d : Delin) (at_ : Nat) (s0 : State) : State :=
  let s := dropPartial l s0
  let x := laneOf s l
  -- a listening lane delivers no lots (R477)
  let d : Delin := if s.pwr.listening.getLsbD l then .none else d
  let s1 := modLane l (fun x => { x with
    delin := d, buf := [], bufAt := at_,
    delinSince := if x.delin = d then x.delinSince else now s }) s
  if d = .resync ∧ x.delin = .delineated then bump cResyncEnter (scLrx l) 1 s1 else s1

/-- A power state powers a lane down: a locked lane keeps its expected marker (R47). Table 2-6 gives
the row for LOCK, MISS1 and MISS2 alone: that a lane in RESUME goes back to DORMANT, and one in
HUNT or VERIFY to HUNT with its slots cleared and counted nowhere, is a DESIGN CHOICE (log
entry 92). -/
def laneDown (l : Nat) (s0 : State) : State :=
  let s := dropPartial l s0
  let x := laneOf s l
  if isLocked x then
    excludeLane l (modLane l (fun x => { x with
      st := .dormant, cdrLocked := false, delin := .none, buf := [], waiting := [],
      undecided := [], cmpOpen := false,
      expected := lastArrival x + BitVec.ofNat 64 swathGrains }) s)
  else if x.st = .resume then
    modLane l (fun x => { x with st := .dormant, cdrLocked := false }) s
  else if x.st = .off ∨ x.st = .dormant then s
  else modLane l (fun x => { x with st := .hunt, slots := [], cdrLocked := false }) s

/-! Listening (R476, R477). -/

/-- The listening lane's work of the swath is done at its codeword `n`: the codeword that holds the
last byte of the swath header, or codeword 0 when SH_CRC failed. With LISTEN_N 0 it never ends
(Table 18-15). -/
def listenEnd (l n : Nat) (s : State) : State :=
  let x := laneOf s l
  let last := if x.shOk then (24 + 16 * x.fmapCount + 48 * x.fmsgCount - 1) / 640 else 0
  if s.pwr.listening.getLsbD l && settingN s sListenN scDevice != 0 && decide (last ≤ n) then
    refLook (laneDown l s)
  else s

/-- A listening swath is confirmed: LISTENS (Table 18-14). -/
def listenCount (l : Nat) (sc : BitVec 48) (s : State) : State :=
  if s.pwr.listening.getLsbD l && decide (sc.toNat % 2 ^ settingN s sListenN scDevice = 0) then
    bump cListens scDevice 1 s
  else s

/-! Swath headers and lock (R43, R44, R47). -/

/-- Record an arrival, the newest first, at most 16 (R54, R196). -/
def recordArrival (l : Nat) (a : Arrival) (s : State) : State :=
  arrived l a.sc (modLane l (fun x => { x with arrivals := (a :: x.arrivals).take 16 }) s)

/-- A codeword 0 is confirmed at `start` with this payload, first eight bytes unscrambled.
`inLock`: the lane held a lock, so an unexpected SC is a jump (R44), and the codeword-0 boundary
can end a window of R169; the first window after entry to LOCK stays partial. -/
def confirmCw0 (l : Nat) (start : BitVec 64) (txLane : BitVec 2) (payload : Bytes)
    (inLock : Bool) (s0 : State) : State :=
  let s := bondClose l s0
  let x := laneOf s l
  let (rest, scr) := scramble (scrSeed txLane) (payload.drop 8)
  let p := payload.take 8 ++ rest
  let ok := decide (crc32 (slice p 8 12) = field p 20 4)
  let sc := if ok then BitVec.ofNat 48 (field p 8 6) else x.sc + 1
  let jump := inLock && ok && sc != x.sc + 1
  let pri := ok && (byteAt p 14).getLsbD 7
  let fmap := field p 16 2 % 2048
  let fmsg := (byteAt p 18).toNat % 64
  let s1 := modLane l (fun x => { x with
    st := .lock, slots := [], txLane := txLane, cw0 := start, pos := 1, sc := sc, scr := scr,
    shOk := ok, pri := pri,
    shGroup := if ok then BitVec.ofNat 2 (bits (field p 14 2) 14 13) else x.shGroup,
    shSeen := x.shSeen || ok, priCounted := false,
    fmapCount := if ok then fmap else 0, fmsgCount := if ok then fmsg else 0 }) s
  let s2 := if ok then s1 else bump cSwathHdrErr (scLrx l) 1 s1
  let s3 := if jump then raise 0x0303 l (sc.toNat % 2 ^ 32) (bump cScJump (scLrx l) 1 s2) else s2
  let s4 := if ok && !pri && decide (fmap ≠ 0 ∨ fmsg ≠ 0) then
      bump cNonpriCountErr (scLrx l) 1 s3 else s3
  let s5 := recordArrival l ⟨sc, start + 20, false⟩ s4
  let s6 := priConflict (laneGroup s l) sc
    (bondLook l (if inLock then windowEnd l sc jump s5 else s5))
  let s7 := if ok then startDelin l .delineated (24 + 16 * fmap + 48 * fmsg) s6
    else startDelin l .resync 24 s6
  listenEnd l 0 (listenCount l sc (feed l 0 (p.map some) s7))

/-- The lane enters LOCK (R47). -/
def gainLock (l : Nat) (start : BitVec 64) (txLane : BitVec 2) (payload : Bytes)
    (sc : BitVec 48) (s : State) : State :=
  let s1 := modLane l (fun x => { x with st := .lock, sc := sc, txLane := txLane }) s
  let s2 := raise 0x0301 l 0 (bump cLockGained (scLrx l) 1 s1)
  lockLook (confirmCw0 l start txLane payload false (lockEntry l s2))

/-- The lane loses its alignment: no delineation, no partial lots, out of its group. -/
def dropAlignment (l : Nat) (st : LaneState) (s : State) : State :=
  excludeLane l (modLane l (fun x => { x with
    st := st, slots := [], delin := .none, buf := [], shSeen := false, shOk := false,
    pri := false, okSwaths := 0, cmpOpen := false, undecided := [] }) (dropPartial l s))

/-- The lane enters HUNT from MISS2 or RESUME (R47): LOF, and everything that follows lock. -/
def loseLock (l : Nat) (s : State) : State :=
  let s1 := raise 0x0302 l 0 (bump cLockLost (scLrx l) 1 (dropAlignment l .hunt s))
  let s2 := lockLook (lofEntry l s1)
  -- a listening lane that enters HUNT wakes the 4812 (R477)
  if s.pwr.listening.getLsbD l then wakeEvent 9 l s2 else s2

/-- A miss at codeword 0 (R51): the arrival extrapolated (R54) and one state further; in MISS2 lock
is lost. -/
def missCw0 (l : Nat) (s0 : State) : State :=
  let s := bondClose l s0
  let x := laneOf s l
  let sc := x.sc + 1
  let a : Arrival := ⟨sc, lastArrival x + BitVec.ofNat 64 swathGrains, true⟩
  let s1 := bump cMarkerMiss (scLrx l) 1 s
  if x.st = .miss2 then loseLock l (recordArrival l a (modLane l (fun x => { x with sc := sc }) s1))
  else
  let next : LaneState := if x.st = .lock then .miss1 else .miss2
  let s2 := modLane l (fun x => { x with
    st := next, cw0 := x.cw0 + BitVec.ofNat 64 swathGrains, pos := 1, sc := sc, shOk := false,
    pri := false, priCounted := false, fmapCount := 0, fmsgCount := 0,
    scr := scrSkip 5056 (scrSeed x.txLane) }) s1
  startDelin l .resync 640 (bondLook l (windowEnd l sc false (recordArrival l a s2)))

/-! Codewords in VERIFY (R47, R50). -/

/-- What a decoded codeword does to one slot. -/
inductive SlotStep | keep (x : Slot) | free | lock (x : Slot)

/-- The slot's judgement of a codeword that starts at `start` (R47, R48, R50). A first confirmation
whose SH_CRC fails takes the previous SC plus one (R43), which is the last one the lane held:
DEDUCED, log entry 93. -/
def slotStep (start : BitVec 64) (d : Option Decoded) (sl : Slot) : SlotStep :=
  let off := (start - sl.start).toNat
  if off % cwGrains ≠ 0 then .keep sl else
  let n := off / cwGrains
  let good := match d with
    | some d => d.hcrcOk && decide (d.index = 0) && decide (d.payload.take 8 = markerBytes)
    | none => false
  if !sl.confirmed then
    if n ≠ 0 then .keep sl
    else match d with
      | some d =>
        if good then
          let p := d.payload.take 8 ++ (scramble (scrSeed d.txLane) (d.payload.drop 8)).1
          let ok := decide (crc32 (slice p 8 12) = field p 20 4)
          .keep { sl with confirmed := true, txLane := d.txLane,
                          sc := if ok then BitVec.ofNat 48 (field p 8 6) else sl.sc + 1 }
        else .free
      | none => .free
  else if n = 0 ∨ 1250 < n then .keep sl
  else if n = 1250 then
    match d with
    | some d => if good && d.txLane == sl.txLane then .lock sl else .free
    | none => .free
  else match d with
    | none => .keep sl
    | some d =>
      if d.hcrcOk then
        if d.index = n ∧ d.txLane = sl.txLane then .keep sl else .free
      else if 17 ≤ sl.hcrcFails + 1 then .free
      else .keep { sl with hcrcFails := sl.hcrcFails + 1 }

/-- Run every slot of a lane over a codeword: the slots kept, the number freed by a failed
check, and the first slot that reached its second confirmation. -/
def runSlots (start : BitVec 64) (d : Option Decoded) :
    List Slot → List Slot × Nat × Option Slot
  | [] => ([], 0, none)
  | sl :: rest =>
    match slotStep start d sl with
    | .lock x => ([], 0, some x)
    | .keep x =>
      let (ks, n, r) := runSlots start d rest
      (x :: ks, n, r)
    | .free =>
      let (ks, n, r) := runSlots start d rest
      (ks, n + 1, r)

/-- The lane's slots become `ks`; the lane is in HUNT when none is open (R47). -/
def putSlots (l : Nat) (ks : List Slot) (s : State) : State :=
  modLane l (fun x => { x with slots := ks, st := if ks.isEmpty then .hunt else .verify }) s

/-- A codeword decoded on a lane in VERIFY. The codeword 0 that gives LOCK was completed in VERIFY, so
the "locked only" counts of a codeword (CW_RECEIVED, CW_CORRECTED, SYM_CORRECTED) leave it out;
SWATH_HDR_ERR and NONPRI_COUNT_ERR, which judge the swath that the lock delivers from, count it:
DEDUCED, log entry 94. -/
def verifyCodeword (l : Nat) (start : BitVec 64) (d : Option Decoded) (s : State) : State :=
  let (ks, freed, won) := runSlots start d (laneOf s l).slots
  let s1 := bump cCandRejected (scLrx l) freed s
  match won, d with
  | some sl, some d => gainLock l start sl.txLane d.payload (sl.sc) s1
  | _, _ =>
    let s2 := putSlots l ks s1
    -- a first confirmation records its arrival (R54)
    match ks.find? (fun k => k.confirmed && k.start == start) with
    | some k => recordArrival l ⟨k.sc, start + 20, false⟩ s2
    | none => s2

/-! Codewords at the held alignment (R38, R52, R56). -/

/-- Count a codeword (Table 2-8) and feed SD and SF (R169): `hdrErr` is the header error. -/
def countCodeword (l : Nat) (d : Option Decoded) (hdrErr : Bool) (supervised : Bool)
    (s : State) : State :=
  let sc := scLrx l
  let s1 := bump cCwReceived sc 1 s
  match d with
  | none =>
    let s2 := bump cCwUncorrectable sc 1 s1
    if supervised then sdAccount l 0 1 s2
    else modSupLane l (fun x => { x with secUc := x.secUc + 1 }) s2
  | some d =>
    let s2 := bump cSymCorrected sc d.corrected (bump cCwCorrected sc (min 1 d.corrected) s1)
    let s3 := if hdrErr then bump cCwHdrErr sc 1 s2 else s2
    if supervised then sdAccount l d.corrected 0 s3 else s3

/-- The header check of R38. -/
def headerOk (x : Lane) (n : Nat) (d : Decoded) : Bool :=
  d.hcrcOk && decide (d.index = n) && d.txLane == x.txLane

/-- The next codeword 0 of a locked lane (R51). One confirmed in MISS1 or MISS2 brings the lane to
LOCK, and R44's "In LOCK" is read to cover it, so an unexpected SC there is a jump: DEDUCED, log
entry 95. -/
def lockedCw0 (l : Nat) (start : BitVec 64) (d : Option Decoded) (s : State) : State :=
  let x := laneOf s l
  match d with
  | none => let s1 := missCw0 l s
    countCodeword l none false (isLocked (laneOf s1 l)) s1
  | some c =>
    let ok := headerOk x 0 c
    if ok && decide (c.payload.take 8 = markerBytes) then
      countCodeword l d false true (confirmCw0 l start x.txLane c.payload true s)
    else
      let s1 := missCw0 l s
      countCodeword l d (!ok) (isLocked (laneOf s1 l)) s1

/-- Positions that brought no codeword are gaps (R37): bring the lane to position `n`. -/
def catchUp (l n : Nat) (s : State) : State :=
  let x := laneOf s l
  if n ≤ x.pos then s else
  let k := n - x.pos
  feed l (640 * x.pos) (List.replicate (640 * k) none)
    (modLane l (fun x => { x with pos := n, scr := scrSkip (5120 * k) x.scr }) s)

/-- Codeword `n`, 1 to 1,249, of a locked lane. -/
def lockedCw (l n : Nat) (d : Option Decoded) (s : State) : State :=
  let s0 := catchUp l n s
  let x := laneOf s0 l
  let ok := match d with
    | some c => headerOk x n c
    | none => false
  let s1 := countCodeword l d (!ok) true s0
  listenEnd l n <| match d with
  | some c =>
    if ok then
      let (p, scr) := scramble x.scr c.payload
      feed l (640 * n) (p.map some) (modLane l (fun x => { x with pos := n + 1, scr := scr }) s1)
    else feed l (640 * n) gap
      (modLane l (fun x => { x with pos := n + 1, scr := scrSkip 5120 x.scr }) s1)
  | none => feed l (640 * n) gap
      (modLane l (fun x => { x with pos := n + 1, scr := scrSkip 5120 x.scr }) s1)

/-- Distance of a marker position from the expected ones, which recur every swath (R47). -/
def resumeOff (x : Lane) (start : BitVec 64) : Int :=
  let d := tlDiff x.expected (start + 20)
  let m := d % swathGrains
  if m ≤ 3400000 then m else m - swathGrains

/-- A codeword decoded on a lane in RESUME: a confirmation needs the window, the header and the
marker (R47). -/
def resumeCodeword (l : Nat) (start : BitVec 64) (d : Option Decoded) (s : State) : State :=
  let x := laneOf s l
  let off := resumeOff x start
  let inWin := decide (-8192 ≤ off) && decide (off ≤ 8192)
  match d with
  | some c =>
    let ok := headerOk x 0 c
    let s1 := countCodeword l d (!ok) false s
    if inWin && ok && decide (c.payload.take 8 = markerBytes) then
      gainLock l start x.txLane c.payload x.sc s1
    else s1
  | none => countCodeword l none false false s

/-- Codeword position of `start` at the held alignment; none when it does not lie there. -/
def heldPos (x : Lane) (start : BitVec 64) : Option Nat :=
  let off := (start - x.cw0).toNat
  if off % cwGrains = 0 ∧ x.pos ≤ off / cwGrains ∧ off / cwGrains ≤ 1250 then
    some (off / cwGrains)
  else none

/-- A codeword completes decoding. While the Reeve runs on the FIO nothing that counts grains is
clocked and no arrival is captured (R11). -/
def execCodewordDecoded (lane : Fin 4) (start : BitVec 64) (word : BitVec 5440)
    (s : State) : Out :=
  let x := laneOf s lane
  if !x.cdrLocked || s.clk.onFio then .next s else
  match x.st with
  | .off | .hunt | .dormant => .next s
  | .verify => .next (verifyCodeword lane start (decodeWord word) s)
  | .resume => .next (resumeCodeword lane start (decodeWord word) s)
  | .lock | .miss1 | .miss2 =>
    match heldPos x start with
    | none => .next s
    | some n =>
      if n = 1250 then .next (lockedCw0 lane start (decodeWord word) (catchUp lane 1250 s))
      else .next (lockedCw lane n (decodeWord word) s)

/-- A codeword 0 is not received because the CDR is unlocked: a slot is freed, a lock misses
(R47, R51). -/
def execCw0NotReceived (lane : Fin 4) (start : BitVec 64) (s : State) : Out :=
  let x := laneOf s lane
  if x.cdrLocked then .next s else
  match x.st with
  | .verify =>
    let hit (k : Slot) : Bool :=
      if k.confirmed then start == k.start + BitVec.ofNat 64 swathGrains else start == k.start
    let gone := x.slots.countP hit
    .next (putSlots lane (x.slots.filter (fun k => !hit k)) (bump cCandRejected (scLrx lane) gone s))
  | .lock | .miss1 | .miss2 =>
    if start = x.cw0 + BitVec.ofNat 64 swathGrains then
      .next (missCw0 lane (catchUp lane 1250 s))
    else .next s
  | _ => .next s

/-- A raw match of MARKER ends at `lastBit`: in HUNT or VERIFY it opens a slot, when one is
free (R47, R49). -/
def execRawMarkerMatch (lane : Fin 4) (lastBit : BitVec 64) (s : State) : Out :=
  let x := laneOf s lane
  match x.st with
  | .hunt | .verify =>
    if x.slots.length < 8 then
      .next (putSlots lane (x.slots ++ [{ start := lastBit - 83, sc := x.sc }]) s)
    else .next (bump cCandOverflow (scLrx lane) 1 s)
  | _ => .next s

/-- RESUME found no confirmation in time (R47). -/
def execResumeTimeout (lane : Fin 4) (s : State) : Out :=
  if (laneOf s lane).st = .resume then .next (loseLock lane s) else .next s

/-- The CDR of an enabled lane locks, at this offset from REFCLK, within its tracking range of
+-100 ppm (Table 2-1); a clock beyond it is not locked to. -/
def execCdrLock (lane : Fin 4) (ppb : Int) (s : State) : Out :=
  let st := (laneOf s lane).st
  if st = .off ∨ st = .dormant ∨ ppb < -100000 ∨ 100000 < ppb then .next s
  else .next (modLane lane (fun x => { x with cdrLocked := true, ppb := ppb }) s)

/-- The CDR loses lock: codewords stop being received (R51). -/
def execCdrUnlock (lane : Fin 4) (s : State) : Out :=
  .next (modLane lane (fun x => { x with cdrLocked := false }) s)

/-- ADAPT may take a step: none has been taken in the present swath (R31). A lane without swath
lock has no swath of its own; a swath's time must then have passed (DEDUCED, log entry 21). -/
def adaptDue (s : State) (x : Lane) : Bool :=
  match x.ctleAt with
  | none => true
  | some t =>
    if isLocked x then decide (tlDiff x.cw0 t < 0)
    else decide ((swathGrains : Int) ≤ tlDiff t (now s))

/-- In ADAPT mode the CTLE code moves by at most one step per swath, within the host's bounds, while
the CDR is locked (R30, R31). -/
def execCtleAdaptStep (lane : Fin 4) (up : Bool) (s : State) : Out :=
  let x := laneOf s lane
  let sc := scLrx lane
  if laneEnabled s lane && x.cdrLocked && settingB s sCtleMode sc && adaptDue s x then
    if up && decide (x.ctleCode < settingN s sAdaptMax sc) then
      .next (modLane lane (fun x => { x with ctleCode := x.ctleCode + 1, ctleAt := some (now s) }) s)
    else if !up && decide (settingN s sAdaptMin sc < x.ctleCode) then
      .next (modLane lane (fun x => { x with ctleCode := x.ctleCode - 1, ctleAt := some (now s) }) s)
    else .next s
  else .next s

/-- The CTLE code the settings in force ask for: the FIXED code, or the present one brought
within the ADAPT bounds. -/
def ctleFollow (l : Nat) (s : State) : State :=
  let sc := scLrx l
  let bounded (c : Nat) := max (settingN s sAdaptMin sc) (min (settingN s sAdaptMax sc) c)
  let adapt := settingB s sCtleMode sc
  modLane l (fun x => { x with
    ctleCode := if adapt then bounded x.ctleCode else settingN s sCtleCode sc }) s

/-- The settings of Table 2-1 rows 2-5 by row. -/
def eqSpec (row : Nat) : SSpec :=
  if row = 2 then sCtleMode else if row = 3 then sCtleCode else if row = 4 then sAdaptMin
  else sAdaptMax

/-- Put the values of a LINE_SET_EQ in force (R32). -/
def applyEq (l : Nat) (items : List (Nat × Int)) (s : State) : State :=
  ctleFollow l (each (fun p s => putSetting (eqSpec p.1) (scLrx l) 0 p.2 s) items s)

/-- The lane's next codeword-0 boundary puts a waiting LINE_SET_EQ in force (R32). -/
def execLineSetEqApply (lane : Fin 4) (s : State) : Out :=
  .next (applyEq lane (laneOf s lane).eqPending
    (modLane lane (fun x => { x with eqPending := [] }) s))

/-- A lane is enabled: HUNT from OFF, so LOF enters (R47, R165). -/
def enableLane (l : Nat) (s : State) : State :=
  if (laneOf s l).st = .off then
    lofEntry l (modLane l (fun x => { x with st := .hunt, slots := [], everIncluded := false,
                                             okSwaths := 0 }) s)
  else s

/-- A lane is disabled: OFF, all lane state discarded, its defects cleared (R47, R166). What Table 2-6's
"all lane state" leaves is a DESIGN CHOICE (log entry 96): the CTLE code in force, the signal
detector's reading and the bonding group, which LINE_SET_GROUP assigned, stay; a LINE_SET_EQ
waiting for the lane's next codeword 0 is dropped with the rest. -/
def disableLane (l : Nat) (s : State) : State :=
  let s1 := excludeLane l (dropPartial l s)
  let s2 := modLane l (fun x =>
    ({ ctleCode := x.ctleCode, group := x.group, signal := x.signal } : Lane)) s1
  lockLook (clearLaneDefects l s2)

/-- A DORMANT lane is powered up (R47): the defects it kept stand in the current second (R185). -/
def laneUp (l : Nat) (s : State) : State :=
  if (laneOf s l).st = .dormant then
    modSupLane l noteSecond (modLane l (fun x => { x with st := .resume }) s)
  else s

end Sys2Proof.Machine
end

