-- ==== Sys2Proof/Machine/Lots.lean ====
section
/-! DEFINITION. Lots from the bonding merge to their delivery (spec/03, Table 3-3 steps 3 to
10). -/
namespace Sys2Proof.Machine

/-- Order of the merge key (R81). -/
def keyBefore (a b : LotKey) : Bool :=
  let d := scDiff a.sc b.sc
  decide (0 < d) || (d == 0 &&
    (decide (a.cw < b.cw) || (a.cw == b.cw &&
      (decide (a.off < b.off) || (a.off == b.off && decide (a.txLane < b.txLane))))))

/-- The waiting lot of a group with the lowest key, and its lane. -/
def firstWaiting (s : State) (g : Nat) : Option (Nat × Lot) :=
  ((lanesOf s g).flatMap (fun l => (laneOf s l).waiting.map (fun w => (l, w)))).foldl
    (fun (best : Option (Nat × Lot)) w =>
      match best with
      | none => some w
      | some b => if keyBefore w.2.key b.2.key then some w else best) none

/-- Lane `l` lets the header with key `k` go: it has completed decoding of that codeword (R82), and
whether it takes part in that SC is decided (R80). -/
def lanePassed (s : State) (l : Nat) (k : LotKey) : Bool :=
  let x := laneOf s l
  if scDiff x.inclFrom k.sc < 0 then true else
  let ahead := scDiff k.sc x.sc
  decide (0 < ahead) || (ahead == 0 && decide (k.cw < x.pos) && !x.cmpOpen)

/-- Abandon every open context of a group after a gap (Table 3-6). -/
def abandonContexts (g : Nat) (s : State) : State :=
  each (fun id s => bump cFragAbandon (scLot id) 1 (dropReasm id s))
    ((s.reasm.filter (fun p => p.2.open_ && p.2.group == g)).map (fun p => p.1)) s

/-- A label outside Table 3-5. -/
def labelReserved (l : Nat) : Bool := !([0x00, 0x01, 0x02, 0x03, 0x08, 0x09, 0x10, 0x1F].contains l)

/-- Label 0x01, 0x02, 0x03 or 0x1F: delivered to the coulter. -/
def labelData (l : Nat) : Bool := [0x01, 0x02, 0x03, 0x1F].contains l

/-- R86: the sheaf is malformed. -/
def sheafBad (b : Bytes) : Bool :=
  let tpl := sheafTpl b
  let fl := field b 4 2
  let l3 := (byteAt b 6).toNat
  let l4 := (byteAt b 7).toNat
  decide (b.length < 16) || decide ((byteAt b 0).toNat / 16 ≠ 1) || decide (tpl < 14) ||
  decide (192 < tpl) || decide (sheafSeg b = 0) || decide (b.length < 16 + tpl + 1) ||
  (decide (bits fl 15 12 ≠ 0) && decide (tpl ≤ l3)) ||
  (decide (bits fl 11 8 ≠ 0) && (decide (tpl ≤ l4) || decide (tpl ≤ l3)))

/-- The label's check on a whole payload (Table 3-5): the counter of its failure. -/
def labelCheck (label : Nat) (b : Bytes) : Option CtrId :=
  match label with
  | 0x01 => if b.length < 60 then some cLenErr else none
  | 0x02 =>
    if b.length < 64 then some cLenErr
    else if fcsBytes (b.take (b.length - 4)) = b.drop (b.length - 4) then none else some cFcsErr
  | 0x03 => if sheafBad b then some cSheafMalformed else none
  | 0x08 => if b.length ≠ 64 ∨ byteAt b 0 ≠ 0x01 then some cLenErr else none
  | 0x09 => if b.length < 8 ∨ 1024 < b.length then some cLenErr else none
  | _ => none

/-- Delivery by label (step 10). Once intake has stopped a lot for the coulter is refused
(Table 18-5). `t`: the release of the lot that completed it (R82). -/
def deliverLot (id label keyIdx g : Nat) (key : LotKey) (t : BitVec 64) (b : Bytes)
    (bushels : Nat) (s : State) : State :=
  let e := lotOf s id
  let s1 := bump cLotsOk (scLot id) 1 (bump cBytesOk (scLot id) b.length s)
  if labelData label && s.pwr.intakeStopped then
    bump cDrainDrop scDevice 1 (freeBushels bushels s)
  else if labelData label then
    let p : InPkt := { line := true, port := 0, group := g, lotId := BitVec.ofNat 16 id,
                       label := BitVec.ofNat 8 label, keyIdx := BitVec.ofNat 2 keyIdx,
                       cls := e.cls, bytes := b, fcsKept := label == 2, bushels := bushels,
                       capture := t }
    { s1 with inQ := s1.inQ ++ [p] }
  else
    let d : Delivered := { lotId := BitVec.ofNat 16 id, label := BitVec.ofNat 8 label,
                           keyIdx := BitVec.ofNat 2 keyIdx, group := g, cls := e.cls, key := key,
                           bytes := b }
    let s2 := freeBushels bushels s1
    if label = 0x08 then { s2 with toTime := s2.toTime ++ [d] }
    else if label = 0x09 then { s2 with toReeve := s2.toReeve ++ [d] }
    else s2

/-- Take the bushels a lot payload of `n` more bytes needs (R392, R393): none when the floor or
an empty pool refuses it, the counts then made. `new`: the unit starts with it. -/
def lotBushels (g : Nat) (new : Bool) (held n : Nat) (s : State) : Option Nat × State :=
  if new && !floorOk s then (none, bump cFloorDrop scDevice 1 s)
  else match takeUpTo held (bushelsOf n) s with
  | (none, s1) => (none, bump cLineNobuf (scGroup g) 1 s1)
  | (some k, s1) => (some k, s1)

/-- Steps 9 and 10 for a lot (Table 3-6). `passed`: the swath boundaries since its release. -/
def reassemble (id label keyIdx frag g : Nat) (key : LotKey) (t : BitVec 64) (b : Bytes)
    (passed : Nat) (s : State) : State :=
  let c := reasmOf s id
  let sc := scLot id
  if frag = 3 then
    let s1 := if c.open_ then bump cFragErr sc 1 (dropReasm id s) else s
    match lotBushels g true 0 b.length s1 with
    | (none, s2) => s2
    | (some n, s2) => deliverLot id label keyIdx g key t b n s2
  else if frag = 2 then
    let s1 := if c.open_ then bump cFragErr sc 1 (dropReasm id s) else s
    match lotBushels g true 0 b.length s1 with
    | (none, s2) => s2
    | (some n, s2) =>
      setReasm id { open_ := true, label := BitVec.ofNat 8 label, keyIdx := BitVec.ofNat 2 keyIdx,
                    bytes := b, group := g, boundaries := passed, bushels := n } s2
  else if !c.open_ then bump cFragErr sc 1 s
  else if c.label.toNat ≠ label ∨ c.keyIdx.toNat ≠ keyIdx then
    bump cFragErr sc 1 (dropReasm id s)
  else if 65535 < c.bytes.length + b.length then bump cFragOversize sc 1 (dropReasm id s)
  else
    match lotBushels g false c.bushels (c.bytes.length + b.length) s with
    | (none, s1) => setReasm id {} s1
    | (some n, s1) =>
      let whole := c.bytes ++ b
      if frag = 1 then
        let s2 := setReasm id {} s1
        match labelCheck label whole with
        | some k => bump k sc 1 (freeBushels n s2)
        | none => deliverLot id label keyIdx g key t whole n s2
      else setReasm id { c with bytes := whole, bushels := n } s1

/-- Steps 8 to 10: the payload is in the clear. A PRBS-31 lot is counted on the lane it came on
(R75). -/
def lotClear (g : Nat) (lot : Lot) (b : Bytes) (passed : Nat) (s : State) : State :=
  let h := lot.hdr.toNat
  let id := bits h 63 48
  let label := bits h 33 26
  if label = 0x10 then
    bump cPrbsErr (scLrx lot.lane) (bitDiff b (prbsBytes b.length 0x7FFFFFFF))
      (bump cPrbsBits (scLrx lot.lane) (b.length * 8) s)
  else
    let frag := bits h 25 24
    match (if frag = 3 then labelCheck label b else none) with
    | some k => bump k (scLot id) 1 s
    | none => reassemble id label (bits h 23 22) frag g lot.key lot.released b passed s

/-- Step 7 of an encrypted lot (R71, R424, R432): it goes to the cipher engine, or is discarded. -/
def lotCipher (g : Nat) (lot : Lot) (s : State) : RelStep × State :=
  let h := lot.hdr.toNat
  let id := bits h 63 48
  let len := lot.payload.length
  let inst := groupOwner s g
  let key := bits h 23 22
  if len ≤ 16 then (.gone, bump cLenErr (scLot id) 1 s)
  else match keySlot s 1 inst key with
  | none => (.gone, bump cNoKey (scLot id) 1 s)
  | some k =>
    if 256 ≤ ((clientOps s 0).filter (fun o => o.started.isNone)).length then
      (.gone, bump cCryRxOverrun (scGroup g) 1 s)
    else
      let op : CryOp :=
        { id := 0, client := 0, slot := k, use := 1, target := inst, keyIdx := key, mode := .open_
          nonce := lineNonce lot.key.sc ((lot.key.cw * 640 + lot.key.off) / 8) lot.key.txLane false id
          aad := (natBytes 8 h).take 7, text := lot.payload.take (len - 16)
          tag := lot.payload.drop (len - 16), dst := .rxLot g lot }
      (.cipher, (issueOp op s).2)

/-- The groups a LOT_ID is accepted on: GROUP_MASK, and after a protection switch only the
working parent's group for data labels (R159). -/
def groupAccepted (s : State) (e : LotEntry) (g : Nat) : Bool :=
  e.groupMask.getLsbD g &&
  !(s.act.dual && s.act.switched && labelData e.expLabel.toNat &&
    decide (groupOwner s g ≠ s.act.working))

/-- Steps 4 to 7 of a released lot (Table 3-3): in the clear, in the cipher engine, or consumed. -/
def processLot (g : Nat) (lot : Lot) (s : State) : RelStep × State :=
  let h := lot.hdr.toNat
  let id := bits h 63 48
  let e := lotOf s id
  let label := bits h 33 26
  let sc := scLot id
  if !e.present then (.gone, bump cForeignLots (scGroup g) 1 s)
  else if !groupAccepted s e g then (.gone, bump cWrongGroup sc 1 s)
  else if label = 0 then (.gone, bump cUnequipped sc 1 s)
  else if labelReserved label then
    (.gone, plmLot id true (bump cPlmLots sc 1 (bump cRsvLabel (scGroup g) 1 s)))
  else if label ≠ e.expLabel.toNat then (.gone, plmLot id true (bump cPlmLots sc 1 s))
  else
    let s1 := plmLot id false s
    if lot.payload.isEmpty then (.gone, bump cKeepalive sc 1 s1)
    else if bits h 23 22 ≠ 0 then lotCipher g lot s1
    else if e.reqKey then (.gone, bump cClearReject sc 1 s1)
    else (.clear lot.payload, s1)

/-! The merge order after release (R76, R82). -/

/-- Released lots whose payload is complete pass steps 4 to 7. -/
def relStart (g : Nat) : List Rel → State → List Rel × State
  | [], s => ([], s)
  | r :: rs, s =>
    let (st, s1) :=
      if r.lot.whole ∧ r.step = .arriving then processLot g r.lot s else (r.step, s)
    let (rs', s2) := relStart g rs s1
    ({ r with step := st } :: rs', s2)

/-- Released lots take steps 8 to 10 in merge order; one whose payload still arrives or that is in
the cipher engine holds those after it. A gap abandons the open contexts in its own place. -/
def relDrain (g : Nat) : List Rel → State → List Rel × State
  | [], s => ([], s)
  | r :: rs, s =>
    let s1 := if r.gap then abandonContexts g s else s
    match r.step with
    | .gone => relDrain g rs s1
    | .clear b => relDrain g rs (lotClear g r.lot b r.boundaries s1)
    | _ => ({ r with gap := false } :: rs, s1)

/-- Look at the released lots of a group (R76): those that can go on do. -/
def relLook (g : Nat) (s : State) : State :=
  let (rs, s1) := relStart g (groupOf s g).released s
  let (rs', s2) := relDrain g rs s1
  modGroup g (fun y => { y with released := rs' }) s2

/-- The cipher engine has finished with a released lot: in the clear, or discarded. -/
def relCipherDone (g : Nat) (k : LotKey) (st : RelStep) (s : State) : State :=
  relLook g (modGroup g (fun y => { y with released := y.released.map (fun r =>
    if r.lot.key = k ∧ r.step = .cipher then { r with step := st } else r) }) s)

/-- How far a lot's BSEQ is ahead of the number the group expects; 0 while it expects none (R83). -/
def bseqAhead (y : Group) (lot : Lot) : Nat :=
  match y.expected with
  | some e => (BitVec.ofNat 12 (bits lot.hdr.toNat 21 10) - e).toNat
  | none => 0

/-- The greatest SC of which the group has released a header, with SC `sc` among them (R84). -/
def maxSc (y : Group) (sc : BitVec 48) : BitVec 48 :=
  match y.releasedSc with
  | some r => if 0 < scDiff r sc then sc else r
  | none => sc

/-- The BSEQ check at release (Table 3-7, R83). A lot that passes joins the merge order, with the gap
that its release showed. -/
def bseqRelease (g : Nat) (lot : Lot) (s : State) : State :=
  let rel := some (maxSc (groupOf s g) lot.key.sc)
  let next := some (BitVec.ofNat 12 (bits lot.hdr.toNat 21 10) + 1)
  let d := bseqAhead (groupOf s g) lot
  if d < 2048 then
    modGroup g (fun y => { y with expected := next, releasedSc := rel,
                                  released := y.released ++ [{ lot := lot, gap := d != 0 }] })
      (bump cBseqGap (scGroup g) d s)
  else bump cBseqLate (scGroup g) 1 (modGroup g (fun y => { y with releasedSc := rel }) s)

/-- The next lot header of the group in key order, when every included lane lets it go; with no
included lane nothing is released (Table 3-11). -/
def nextRelease (s : State) (g : Nat) : Option (Nat × Lot) :=
  if (includedOf s g).isEmpty then none else
  match firstWaiting s g with
  | none => none
  | some w => if (includedOf s g).all (fun l => lanePassed s l w.2.key) then some w else none

/-- The group's next header, if it may go, is released (R82). -/
def releaseHeader (g : Nat) (s : State) : State :=
  match nextRelease s g with
  | none => s
  | some (l, lot) =>
    bseqRelease g { lot with released := now s }
      (modLane l (fun x => { x with waiting := x.waiting.erase lot }) s)

/-- A group's next lot header is released in key order (R82), once the open comparisons of R80 that
can be decided are, and released lots whose payload is complete pass the steps of Table 3-3
(DEDUCED, log entry 5). -/
def execLotHeaderRelease (group : Fin 4) (s : State) : Out :=
  .next (relLook group (releaseHeader group (bondSettle group s)))

/-- The eighth swath boundary after the first fragment has passed with the context open: it is
discarded (Table 3-6). -/
def execFragReassemblyTimeout (lotId : BitVec 16) (s : State) : Out :=
  let c := reasmOf s lotId.toNat
  if c.open_ && decide (8 ≤ c.boundaries) then
    .next (bump cFragAbandon (scLot lotId.toNat) 1 (dropReasm lotId.toNat s))
  else .next s

end Sys2Proof.Machine
end

