-- ==== Sys2Proof/Machine/Upstream.lean ====
section
/-! DEFINITION. The furrow map, the furrow store, the layout of a burst at its header sample
point, and the enable, the end and the watchdog of a burst (spec/04). -/
namespace Sys2Proof.Machine

/-! The furrow store (R92-R97). -/

/-- A(N): the recorded arrival of swath `sc` on lane `l`, never an extrapolated one (R96). -/
def arrivalOf (s : State) (l : Nat) (sc : BitVec 48) : Option (BitVec 64) :=
  ((laneOf s l).arrivals.find? (fun a => a.sc == sc && !a.extrapolated)).map (·.at_)

/-- EqD of upstream lane `x` in force for the map of SC `sc` (R98, R153). -/
def eqdAt (s : State) (x : Nat) (sc : BitVec 48) : Nat :=
  let l := usLaneOf s x
  match (l.eqdPending.filter (fun p => decide (0 ≤ scDiff p.1 sc))).getLast? with
  | some p => p.2
  | none => l.eqd

/-- The gate windows of two furrows share a timeline value (R94). -/
def windowsOverlap (a b : Furrow) : Bool :=
  let d := tlDiff a.s b.s
  decide (d < furrowD a + 16) && decide (-d < furrowD b + 16)

/-- The new furrow `f` loses against the stored furrow `x` (R95). -/
def losesTo (s : State) (f x : Furrow) : Bool :=
  decide (x.stage ≠ 0) || decide (0 ≤ tlDiff (x.s - 53125) (now s)) || decide (0 ≤ tlDiff x.s f.s)

/-- Insert in order of S. -/
def insertFurrow (f : Furrow) : List Furrow → List Furrow
  | [] => [f]
  | x :: xs => if 0 < tlDiff f.s x.s then f :: x :: xs else x :: insertFurrow f xs

/-- Place a furrow in its lane's store (R95). A closed window leaves the store; its furrow is
remembered while another of its map is open, for the index of R430. -/
def storeFurrow (x : Nat) (f : Furrow) (s : State) : State :=
  let all := (usLaneOf s x).furrows
  let openF := all.filter (fun g => !windowClosed s g)
  let hits := openF.filter (windowsOverlap f)
  if hits.any (losesTo s f) then bump cFurrowOverlap (scLtx x) 1 s
  else
    let s1 := bump cFurrowOverlap (scLtx x) hits.length s
    let kept := openF.filter (fun g => !windowsOverlap f g)
    if 4096 ≤ kept.length then
      bump cFurrowStoreFull (scLtx x) 1
        (modUsLane x (fun l => { l with furrows := l.furrows.filter (fun g => !hits.contains g) }) s1)
    else
      let old := all.filter (fun g => windowClosed s g && (f :: kept).any (fun k => k.sc == g.sc))
      modUsLane x (fun l => { l with furrows := insertFurrow f (old ++ kept) }) s1

/-- The entry is invalid in one of the first three cases of R93. An entry that is invalid by one of
them and by the wrong lane too counts FURROW_INVALID alone (DESIGN CHOICE, log entry 99). -/
def entryInvalid (start dur plot : Nat) (so rw : Bool) (pre : BitVec 2) : Bool :=
  decide (swathGrains ≤ start) || (!so && decide (0 < dur) && decide (dur < minBurst pre)) ||
  (plot == 0x3FFF && !rw)

/-- The furrow of a valid entry: its fields (Table 4-1), and S by the assignment rule from the
arrival `a` of its map's marker (R96, R98). -/
def entryFurrow (s : State) (group : Nat) (sc : BitVec 48) (entry : BitVec 128) (a : BitVec 64) :
    Furrow :=
  let e := entry.toNat
  let eqd := eqdAt s (bits e 113 113) sc
  let origin := tlAdd (a + BitVec.ofNat 64 (1859375 + eqd)) (setting s sUpTrim scDevice)
  { plot := BitVec.ofNat 14 (bits e 127 114), so := entry.getLsbD 112, rr := entry.getLsbD 111,
    mp := entry.getLsbD 110, rw := entry.getLsbD 109, pre := BitVec.ofNat 2 (bits e 108 107),
    dur := bits e 83 61, s := origin + BitVec.ofNat 64 (bits e 106 84), sc := sc, eqd := eqd,
    group := group, arr := a }

/-- A furrow-map entry that stands in the header of SC `sc` on the group's primary lane passes
the three checks of R92 and its furrow is stored. -/
def execFurrowMapEntry (group : Fin 4) (sc : BitVec 48) (entry : BitVec 128) (s : State) : Out :=
  match primaryOf s group sc with
  | none => .next s
  | some l =>
  match arrivalOf s l sc with
  | none => .next s
  | some a =>
    let e := entry.toNat
    let f := entryFurrow s group sc entry a
    let plot := bits e 127 114
    let owner := groupOwner s group
    let lane := bits e 113 113
    if crc16 (bitsOfNat 112 (e / 65536)) ≠ bits e 15 0 then
      .next (bump cFmapCrcErr (scGroup group) 1 s)
    else if plot ≠ 0x3FFF ∧ tabGet 0 s.act.plots plot ≠ owner + 1 then .next s
    else if entryInvalid (bits e 106 84) f.dur plot f.so f.rw f.pre then
      .next (bump cFurrowInvalid (scGroup group) 1 s)
    else if s.act.dual ∧ lane ≠ owner then
      .next (bump cFurrowWrongLane (scGroup group) 1 s)
    else .next (storeFurrow lane f s)

/-! The burst and its header (R105-R110). -/

/-- Shape of a burst (R105): L, k, j. -/
def burstShape (pre : BitVec 2) (dur : Nat) (so : Bool) : Nat × Nat × Nat :=
  let p := preGrains pre
  if dur = 0 ∨ so then (p + 64 + 640, 0, 1)
  else
    let avail := dur - p - 64
    let k := avail / 5440
    let rem := avail - k * 5440
    let j := if 640 ≤ rem then (rem - 320) / 320 else 0
    (p + 64 + k * 5440 + (if j = 0 then 0 else 320 + 320 * j), k, j)

/-- The map of the furrow arrived after the latest reset or takeover (R434). -/
def freshMap (s : State) (f : Furrow) : Bool :=
  match s.us.freshFrom with
  | none => true
  | some t => decide (0 < tlDiff t f.arr)

/-- Queue `q` is attached to the furrow's plot (R408). -/
def attached (s : State) (x : Nat) (f : Furrow) (q : Nat) : Bool :=
  let i := ltxOwner s x
  decide (settingN s (if i = 0 then sPlotP else sPlotS) (scUsQueue q) = f.plot.toNat) &&
    (!s.act.dual || i == s.act.working)

/-- Queues that hold frames, in rising order. -/
def busyQueues (s : State) : List Nat :=
  (s.qos.us.filter (fun p => !p.2.frames.isEmpty)).map (fun p => p.1)

/-- OCC at the sample point: the plot's queued bytes in 64-byte units (R108). -/
def occUnits (s : State) (x : Nat) (f : Furrow) : Nat :=
  let n := (((busyQueues s).filter (attached s x f)).map
    (fun q => queuedBytes s false q (usOf s q))).sum
  min ((n + 63) / 64) 0xFFFFFFFF

/-- The tag that a field message of instance `i` has over its bytes 0 to 39 (R134). -/
def fmTag (s : State) (i : Nat) (nonce b : Bytes) : Bytes :=
  match targetKey s 3 i 0 with
  | some key => (gmac key nonce b).take 8
  | none => natBytes 8 (crc64 b)

/-- Nonce of an upstream message (R430): POS is the burst's index among those of its map. -/
def upMsgNonce (s : State) (x : Nat) (f : Furrow) : Bytes :=
  let n := (usLaneOf s x).furrows.countP (fun g => g.sc == f.sc && decide (0 < tlDiff g.s f.s))
  lineNonce f.sc n x true 0xFFFF

/-- An upstream field message: FM_SEQ advances with each (R142). Its CRC-64 stands at once; the tag
under a message key is an operation of LINE_TX (Table 16-1, R134), whose number is answered and which
appends it. -/
def upMessage (x : Nat) (f : Furrow) (type : BitVec 8) (body : Bytes) (s : State) :
    (Bytes × Option Nat) × State :=
  let i := ltxOwner s x
  let y := instOf s i
  let b := natBytes 2 y.tidBurst.toNat ++ [type, y.txSeq] ++ fit 36 body
  let s1 := modInst i (fun y => { y with txSeq := y.txSeq + 1 }) s
  if (targetKey s 3 i 0).isNone then ((b ++ natBytes 8 (crc64 b), none), s1)
  else
    let r := issueOp { id := 0, client := 1, slot := 0, use := 3, target := i, keyIdx := 0,
                       mode := .seal, nonce := upMsgNonce s x f, aad := b, text := [], tag := [],
                       dst := .txMsg x } s1
    ((b, some r.1), r.2)

/-- The serial number in field messages (R131, R492). -/
def lineSerial (s : State) : Bytes :=
  let v := setting s sPairSerial scDevice
  if settingB s sPaired scDevice && v != 0 then heldBytes 8 v else serialBytes

/-- The protocol revisions of the firmware (R161). -/
def ownRevMin : Nat := 0x0100
/-- See `ownRevMin`. -/
def ownRevMax : Nat := 0x0101

/-- REV_MIN and REV_MAX as reported (R161, R521). -/
def revRange (s : State) : Nat × Nat :=
  let up := s.pair.st == .active && s.pair.tetherUp &&
    decide ((s.pair.health.map (·.state)) = some 2)
  match s.pair.hello with
  | some p =>
    let lo := max ownRevMin p.revMin.toNat
    let hi := min ownRevMax p.revMax.toNat
    if up && decide (lo ≤ hi) then (lo, hi) else (ownRevMin, ownRevMax)
  | none => (ownRevMin, ownRevMax)

/-- The burst header (Table 4-3). -/
def burstHeader (s : State) (x : Nat) (f : Furrow) (resync msg rng status : Bool) : Bytes :=
  let i := ltxOwner s x
  let y := instOf s i
  let rpt := f.rr || status
  let b2 := bit (supInstOf s i).rdi * 128 + bit s.pins.gasp * 64 + bit resync * 32 + bit rpt * 16 +
    bit msg * 8 + bit rng * 4
  let b3 := actCode y.stBurst * 32 + bit ((domOf s s.time.selected).st == .locked) * 16 +
    bit (s.pair.st == .active) * 8
  let h := natBytes 2 y.tidBurst.toNat ++ natBytes 1 b2 ++ natBytes 1 b3 ++
    natBytes 2 f.plot.toNat ++ natBytes 2 (f.sc.toNat % 65536) ++
    natBytes 4 (if rpt then occUnits s x f else 0) ++ [0, 0]
  h ++ natBytes 2 (crc16 (bitsOf h))

/-! Decisions of the upstream schedulers (R408-R411). -/

/-- Encrypted lots of this LOT_ID went in another burst of the same map on the lane (R433). -/
def nonceUsed (s : State) (x : Nat) (f : Furrow) (q : Nat) : Bool :=
  let id := settingN s sQLotId (scUsQueue q)
  (usLaneOf s x).encUsed.any (fun e => e.1 == f.sc && e.2.1 == id && e.2.2 != f.s)

/-- KEYIDX of a queue. -/
def queueKeyIdx (s : State) (q : Nat) : Nat := settingN s sQKeyIdx (scUsQueue q)

/-- The queue's KEYIDX has a key (R440). -/
def queueKeyOk (s : State) (x q : Nat) : Bool :=
  queueKeyIdx s q == 0 || (keySlot s 2 (ltxOwner s x) (queueKeyIdx s q)).isSome

/-- The queue may send in this burst as far as encryption goes (R433, R440). -/
def cryptoOk (s : State) (x : Nat) (f : Furrow) (q : Nat) : Bool :=
  queueKeyOk s x q && !(queueKeyIdx s q != 0 && nonceUsed s x f q)

/-- A queue is eligible (R408). -/
def upEligible (s : State) (x : Nat) (f : Furrow) (passed : List Nat) (q : Nat) : Bool :=
  queueEnabled s false q && attached s x f q && shaperOpen s (scUsQueue q) &&
  shaperOpen s (scClass f.plot.toNat (queueGroup s q)) && !passed.contains q && cryptoOk s x f q

/-- Charge of a queue's head frame (R402, R403). -/
def upCharge (s : State) (q : Nat) : Int :=
  ((usOf s q).frames.head?.map (fun f => (f.bytes.length : Int))).getD 0 + queueOverhead s false q

/-- W_eff of a queue under FLAT (R411). -/
def weff (s : State) (x : Nat) (f : Furrow) (q : Nat) : Nat :=
  let en := (List.range 1024).filter (fun k => queueEnabled s false k && attached s x f k)
  let gs := (en.map (queueGroup s)).eraseDups
  let gw (g : Nat) : Nat := settingN s sGw (scPlot f.plot.toNat) g
  let w (k : Nat) : Nat := settingN s sQWeight (scUsQueue k)
  let sumG := (gs.map gw).sum
  let sumW := ((en.filter (fun k => queueGroup s k == queueGroup s q)).map w).sum
  let num := 65535 * gw (queueGroup s q) * w q
  let den := sumG * sumW
  if den = 0 then 1 else max 1 ((2 * num + den) / (2 * den))

/-- A decision: the queue, and the arbiters as the selection leaves them (R404, R409). -/
def upDecide (s : State) (x : Nat) (f : Furrow) (passed : List Nat) : Option (Nat × State) :=
  let p := f.plot.toNat
  let el := (busyQueues s).filter (upEligible s x f passed)
  let charge (q : Nat) (st : State) : State :=
    shaperCharge (scUsQueue q) (upCharge s q)
      (shaperCharge (scClass p (queueGroup s q)) (upCharge s q) st)
  if plotFlat s p then
    match arbPick (plotArb s p) (el.map (fun q => (q, upCharge s q, weff s x f q))) with
    | none => none
    | some (q, t) => some (q, charge q (modPlotArb p (arbServe q t) s))
  else
    let picks := (List.range 8).filterMap (fun g =>
      (arbPick (groupArb s p g) ((el.filter (fun q => queueGroup s q == g)).map
        (fun q => (q, upCharge s q, settingN s sQWeight (scUsQueue q))))).map (fun r => (g, r)))
    match arbPick (plotArb s p) (picks.map (fun r =>
        (r.1, upCharge s r.2.1, settingN s sGw (scPlot p) r.1))) with
    | none => none
    | some (g, tg) =>
      match picks.find? (fun r => r.1 == g) with
      | none => none
      | some (_, q, tq) =>
        some (q, charge q (modPlotArb p (arbServe g tg) (modGroupArb p g (arbServe q tq) s)))

/-! Filling a burst (R112-R116). -/

/-- Idle lots that fill `r` bytes (R113 steps 2 and 6). -/
def idleFill : Nat → Nat → List TxLot
  | 0, _ => []
  | fuel + 1, r =>
    if r < 8 then [] else
    let len := min (r - 8) 16376
    idleLot len :: idleFill fuel (r - 8 - len)

/-- The queue of the plot whose head frame has fragments still to send (R115). -/
def contQueue (s : State) (x : Nat) (f : Furrow) : Option Nat :=
  (busyQueues s).find? (fun q => attached s x f q &&
    ((usOf s q).frames.head?.map (fun k => decide (0 < k.sent))).getD false)

/-- Lay out `n` bytes of queue `q`'s head frame as a lot at payload byte `off`. -/
def layLot (x : Nat) (f : Furrow) (q off n : Nat) (s : State) : TxLot × State :=
  match (usOf s q).frames with
  | [] => (idleLot 0, s)
  | k :: rest =>
    let sc := scUsQueue q
    let id := settingN s sQLotId sc
    let label := settingN s sQLabel sc
    let key := queueKeyIdx s q
    let last := decide (k.bytes.length ≤ k.sent + n)
    let frag := if k.sent = 0 then (if last then 3 else 2) else if last then 1 else 0
    let len := n + (if key = 0 then 0 else 16)
    let s1 := modUs q (fun y => { y with
      frames := if last then rest
        else { k with sent := k.sent + n, fragLane := if k.sent = 0 then x else k.fragLane } :: rest }) s
    let lot : TxLot :=
      { hdr := lotHeader id len label frag key 0, payload := (k.bytes.drop k.sent).take n,
        queue := some q, bushels := if last then k.bushels else 0,
        ends := if last then some k.bytes.length else none }
    if key = 0 then (lot, s1)
    else
      let i := ltxOwner s x
      let (op, s2) := issueOp { id := 0, client := 1, slot := 0, use := 2, target := i, keyIdx := key,
                                mode := .seal, nonce := lineNonce f.sc (off / 8) x true id,
                                aad := (natBytes 8 lot.hdr.toNat).take 7, text := lot.payload,
                                tag := [], dst := .txLot x } s1
      ({ lot with ready := false, cipher := some op },
        modUsLane x (fun l => { l with encUsed :=
          (f.sc, id, f.s) :: l.encUsed.filter (fun e =>
            decide (scDiff e.1 f.sc < 64) && !(e == (f.sc, id, f.s))) }) s2)

/-- Fill `r` payload bytes from byte `off` (R113): lots in order. `first`: no lot has been laid
out yet in this burst. It stays so after a DNF frame has been dropped, so that the next DNF frame
that does not fit is dropped as well, and a management response is a lot like any other, so that a
DNF frame after it is passed over (DEDUCED, log entry 100). -/
def fillBurst (x : Nat) (f : Furrow) :
    Nat → Nat → Nat → Bool → List Nat → State → List TxLot × State
  | 0, off, r, _, _, s => let _ := off; (idleFill r r, s)
  | fuel + 1, off, r, first, passed, s =>
    if r ≤ 32 then (idleFill r r, s) else
    let cont := contQueue s x f
    let chosen : Option (Nat × State) :=
      match cont with
      | some q => if cryptoOk s x f q then some (q, s) else none
      | none => upDecide s x f passed
    match chosen with
    | none => (idleFill r r, s)
    | some (q, s1) =>
      let tag := if queueKeyIdx s q = 0 then 0 else 16
      let rem := ((usOf s q).frames.head?.map (fun k => k.bytes.length - k.sent)).getD 0
      if occupied (rem + tag) ≤ r ∧ rem + tag ≤ 16383 then
        let (lot, s2) := layLot x f q off rem s1
        let o := occupied (rem + tag)
        let (rest, s3) := fillBurst x f fuel (off + o) (r - o) false passed s2
        (lot :: rest, s3)
      else if cont.isNone && settingB s sQDnf (scUsQueue q) then
        if first then
          fillBurst x f fuel off r first passed
            (bump cDnfDropped (scUsQueue q) 1 (dropHead false q s))
        else
          fillBurst x f fuel off r first (q :: passed) (bump cDnfDeferred (scUsQueue q) 1 s)
      else
        let len := min (r - 8) 16376
        let (lot, s2) := layLot x f q off (len - tag) s1
        let (rest, s3) := fillBurst x f fuel (off + 8 + len) (r - 8 - len) false passed s2
        (lot :: rest, s3)

/-- Queues of the plot that cannot send for want of a key raise their event, once; those whose
nonces another burst of the map has used count (R433, R440). -/
def cryptoNotes (x : Nat) (f : Furrow) (s : State) : State :=
  each (fun q s =>
    if !(queueEnabled s false q && attached s x f q) then s
    else if !queueKeyOk s x q then
      if (usOf s q).noKeyRaised then s
      else raise 0x0D02 q q (modUs q (fun k => { k with noKeyRaised := true }) s)
    else if queueKeyIdx s q != 0 && nonceUsed s x f q then bump cNonceDefer (scUsQueue q) 1 s
    else s) (busyQueues s) s

/-- RESYNC is due in bursts of lane `x` (R118). -/
def resyncDue (s : State) (x : Nat) : Bool := if x = 0 then s.us.resync0 else s.us.resync1

/-- Put a burst in its lane's list, and number what can be numbered. -/
def addBurst (x : Nat) (b : Burst) (s : State) : State :=
  numberUpTo (if s.us.split then burstStart b + BitVec.ofNat 64 b.len else b.furrow.s)
    (modUsLane x (fun l => { l with bursts := l.bursts ++ [b] }) s)

/-- A burst of a window: header, its message, idle lots (R150). A furrow from a map of before the
reset or the takeover carries no message, and idle lots in its place (R434; DEDUCED, log entry 116). -/
def windowBurst (x : Nat) (f : Furrow) (announce : Bool) (delay : Nat) (type : BitVec 8)
    (body : Bytes) (s : State) : State :=
  let (len, k, j) := burstShape f.pre f.dur f.so
  let r := 640 * k + 40 * j - (if freshMap s f then 64 else 16)
  let b : Burst :=
    { furrow := f, hdr := burstHeader s x f (resyncDue s x) (freshMap s f) true false, msg := none,
      lots := idleFill r r, len := len, delay := delay, k := k, j := j, statusOnly := false,
      announce := announce, ranging := !announce, resync := resyncDue s x }
  if freshMap s f then
    let (m, s1) := upMessage x f type body s
    addBurst x { b with msg := some m.1, msgOp := m.2 } s1
  else addBurst x b s

/-- The window is usable (R149). -/
def windowUsable (f : Furrow) : Bool :=
  f.mp && !f.so && decide (minBurst f.pre + 320 ≤ f.dur)

/-- An announce window reaches its sample point (Table 5-5, R149, R151). -/
def announceSample (x : Nat) (f : Furrow) (s : State) : State :=
  let i := ltxOwner s x
  let y := instOf s i
  if !windowUsable f then bump cRngWindowUnusable (scInst i) 1 s
  else if y.stBurst ≠ .announce then s
  else if !y.annOpen then s
  else if 0 < y.backoff then modInst i (fun y => { y with backoff := y.backoff - 1 }) s
  else
    let (len, _, _) := burstShape f.pre f.dur f.so
    let (d, s1) := rngDraw s
    let (b, s2) := rngDraw s1
    let delay := 64 * (d % ((f.dur - len) / 64 + 1))
    let s3 := modInst i (fun y => { y with backoff := b % (y.annBackoff + 1) }) s2
    let (lo, hi) := revRange s
    let flags := bit (usLaneOf s x).tunable * 128 + bit s.act.dual * 64 +
      bit (settingB s sPaired scDevice) * 32 + i
    windowBurst x f true delay 0x20
      (lineSerial s ++ natBytes 2 lo ++ natBytes 2 hi ++ natBytes 4 delay ++ natBytes 1 flags) s3

/-- A ranging window reaches its sample point (R148-R150). -/
def rangingSample (x : Nat) (f : Furrow) (s : State) : State :=
  let i := ltxOwner s x
  let st := (instOf s i).stBurst
  if !windowUsable f then bump cRngWindowUnusable (scInst i) 1 s
  else if st ≠ .ranging ∧ st ≠ .operating then s
  else windowBurst x f false 0 0x21
    (lineSerial s ++ natBytes 4 f.eqd ++ natBytes 6 f.sc.toNat) s

/-- The next management response of the instance as a lot at payload byte `off` with room `r`
(R546); none while it does not fit, or is encrypted and has no key or no nonce of its own. -/
def mgmtLot (x : Nat) (f : Furrow) (off r : Nat) (s : State) : Option (TxLot × State) :=
  let i := ltxOwner s x
  match (instOf s i).mgmtOut with
  | [] => none
  | (id, key, b) :: rest =>
    let len := b.length + (if key = 0 then 0 else 16)
    if r < occupied len then none
    else
      let s1 := modInst i (fun y => { y with mgmtOut := rest }) s
      let lot : TxLot :=
        { hdr := lotHeader id.toNat len 0x09 3 key.toNat 0, payload := b, queue := none }
      if key = 0 then some (lot, s1)
      else if (keySlot s 2 i key.toNat).isNone || (usLaneOf s x).encUsed.any (fun e =>
          e.1 == f.sc && e.2.1 == id.toNat && e.2.2 != f.s) then none
      else
        let (op, s2) := issueOp { id := 0, client := 1, slot := 0, use := 2, target := i,
                                  keyIdx := key.toNat, mode := .seal,
                                  nonce := lineNonce f.sc (off / 8) x true id.toNat,
                                  aad := (natBytes 8 lot.hdr.toNat).take 7, text := lot.payload,
                                  tag := [], dst := .txLot x } s1
        some ({ lot with ready := false, cipher := some op },
          modUsLane x (fun l => { l with encUsed :=
            (f.sc, id.toNat, f.s) :: l.encUsed.filter (fun e => !(e == (f.sc, id.toNat, f.s))) }) s2)

/-- The remaining fragments of the plot's part-sent frame, which precede every other lot of the
burst (R115), in `r` payload bytes from byte `off`; no lot when no frame of the plot is part-sent. A
part-sent frame that may not be encrypted in this burst keeps every other lot out of it, and idle
lots fill the room. -/
def fragmentLots (x : Nat) (f : Furrow) : Nat → Nat → Nat → State → List TxLot × State
  | 0, _, r, s => (idleFill r r, s)
  | fuel + 1, off, r, s =>
    match contQueue s x f with
    | none => ([], s)
    | some q =>
      if r ≤ 32 || !cryptoOk s x f q then (idleFill r r, s)
      else
        let tag := if queueKeyIdx s q = 0 then 0 else 16
        let rem := ((usOf s q).frames.head?.map (fun k => k.bytes.length - k.sent)).getD 0
        let n := if occupied (rem + tag) ≤ r ∧ rem + tag ≤ 16383 then rem
          else min (r - 8) 16376 - tag
        let (lot, s1) := layLot x f q off n s
        let o := occupied (n + tag)
        let (lots, s2) := fragmentLots x f fuel (off + o) (r - o) s1
        (lot :: lots, s2)

/-- Any other furrow reaches its sample point (R109-R114): the header, a field message, the
fragments of a part-sent frame (R115), a management response (R546), then the frames that the
schedulers choose. The fragments stand before the response, which R546 calls the first lot (DESIGN
CHOICE, log entry 101). The message leaves the queue here: a burst that is then skipped or cut loses
it with its FM_SEQ (DESIGN CHOICE, log entry 102). -/
def dataSample (x : Nat) (f : Furrow) (s : State) : State :=
  let i := ltxOwner s x
  let (len, k, j) := burstShape f.pre f.dur f.so
  let status := decide (f.dur = 0) || f.so
  let total := 640 * k + 40 * j
  let queued := (instOf s i).txQueue
  let mkMsg := f.mp && !status && freshMap s f && decide (64 ≤ total) && !queued.isEmpty
  let h := burstHeader s x f (resyncDue s x) mkMsg false status
  let (msg, s1) : Option (Bytes × Option Nat) × State :=
    match queued with
    | (t, body) :: rest =>
      if mkMsg then
        let (m, s') := upMessage x f t body (modInst i (fun y => { y with txQueue := rest }) s)
        (some m, s')
      else (none, s)
    | [] => (none, s)
  let off0 := if mkMsg then 64 else 16
  let room (off : Nat) (lots : List TxLot) : Nat × Nat :=
    let o := (lots.map (fun t => occupied (lotLen t.hdr))).sum
    (off + o, total - (off + o))
  let (lots, s2) : List TxLot × State :=
    if status || !freshMap s f then (idleFill (total - off0) (total - off0), s1)
    else
      let (frags, sf) := fragmentLots x f (total / 8 + 1) off0 (total - off0) s1
      let (off1, r1) := room off0 frags
      let (mgmt, sm) : List TxLot × State :=
        if f.mp && (contQueue sf x f).isNone then
          match mgmtLot x f off1 r1 sf with
          | some (lot, s') => ([lot], s')
          | none => ([], sf)
        else ([], sf)
      let (off2, r2) := room off1 mgmt
      let frames := ((busyQueues sm).map (fun q => (usOf sm q).frames.length)).sum
      let (fill, sd) := fillBurst x f (r2 / 8 + 1025 + frames) off2 r2 (frags ++ mgmt).isEmpty []
        (if r2 ≤ 32 then sm else cryptoNotes x f sm)
      (frags ++ mgmt ++ fill, sd)
  let op := msg.bind (·.2)
  addBurst x { furrow := f, hdr := h, msg := msg.map (·.1), lots := lots, msgOp := op,
               msgBack := if op.isSome then queued.head? else none, len := len, k := k, j := j,
               statusOnly := status, resync := resyncDue s x } s2

/-- The furrow of lane `x` at `s0` enters stage `n`. -/
def setStage (x : Nat) (f : Furrow) (n : Nat) (s : State) : State :=
  modUsLane x (fun l => { l with furrows := l.furrows.map (fun g =>
    if g.s == f.s && g.sc == f.sc then { g with stage := n } else g) }) s

/-- The next stored furrow of a lane reaches its header sample point (R109). -/
def execHeaderSamplePoint (ltx : Fin 2) (s : State) : Out :=
  match (usLaneOf s ltx).furrows.find? (fun f => f.stage == 0) with
  | none => .next s
  | some f =>
    let s1 := setStage ltx f 1 s
    if isAnnounce f then .next (announceSample ltx f s1)
    else if isRanging s ltx f then .next (rangingSample ltx f s1)
    else .next (dataSample ltx f s1)

/-! Enable, end, watchdog (R121-R123). -/

/-- The burst logic raises its enable for a burst (R121): BENx rises and the burst is counted;
the first burst of a new numbering ends RESYNC (R118). -/
def startBurst (x : Nat) (b : Burst) (s : State) : State :=
  let i := ltxOwner s x
  let s1 := modUsLane x (fun l => { l with
    ben := true, benSince := burstStart b - 8,
    bursts := l.bursts.map (fun c =>
      if c.furrow.s == b.furrow.s && c.furrow.sc == b.furrow.sc then { c with sending := true }
      else c) }) s
  let s2 := if b.resync then
      { s1 with us := if x = 0 then { s1.us with resync0 := false }
                      else { s1.us with resync1 := false } }
    else s1
  bump cBursts (scLtx x) 1 (bump cStatusBursts (scLtx x) (bit b.statusOnly)
    (bump cAnnSent (scInst i) (bit b.announce) (bump cRngSent (scInst i) (bit b.ranging) s2)))

/-- The burst laid out for a furrow. -/
def burstOf (s : State) (x : Nat) (f : Furrow) : Option Burst :=
  (usLaneOf s x).bursts.find? (fun b => b.furrow.s == f.s && b.furrow.sc == f.sc)

/-- A furrow is skipped (R122): what had been laid out for it is lost. -/
def skipFurrow (x : Nat) (f : Furrow) (s : State) : State :=
  let s0 := bump cFurrowSkipped (scLtx x) 1 (numberUpTo (f.s - 8 + 53125) s)
  match burstOf s0 x f with
  | none => s0
  | some b =>
    burstAccount x b 0 (modUsLane x (fun l => { l with
      bursts := l.bursts.filter (fun c => !(c.furrow.s == f.s && c.furrow.sc == f.sc)) }) s0)

/-- The grain at which the burst logic would raise its enable: S - 8, or S + RAND_DELAY - 8 in an
announce window (R121, R122). -/
def enableGrain (s : State) (x : Nat) (f : Furrow) : BitVec 64 :=
  match burstOf s x f with
  | some b => burstStart b - 8
  | none => f.s - 8

/-- The burst logic would raise its enable for the next furrow past its sample point (R122). The row
is that grain: before it the burst logic does nothing. -/
def execBurstEnable (ltx : Fin 2) (s : State) : Out :=
  match (usLaneOf s ltx).furrows.find? (fun f => f.stage == 1) with
  | none => .next s
  | some f =>
    if !grainCome s (enableGrain s ltx f) then .next s else
    let s0 := setStage ltx f 2 (endBurst ltx s)
    if !gateOpen s0 ltx f then .next (skipFurrow ltx f s0)
    else
      match burstOf s0 ltx f with
      | none => .next s0
      | some b => .next (startBurst ltx b s0)

/-- The burst logic lowers its enable, and BEN falls (R121). -/
def execBurstEnd (ltx : Fin 2) (s : State) : Out := .next (endBurst ltx s)

/-- The watchdog trips (R123): BEN is forced low and the trip closes the lane's gate. -/
def wdTripLane (x : Nat) (s : State) : State :=
  let s1 := raise 0x0307 x 0 (bump cWdTrip (scLtx x) 1
    (modUsLane x (fun l => { l with wdTrip := true, wdMonitor := false }) s))
  benLow x (gateLook s1)

/-- BENx has been high for 16,800 REFCLK edges (R123). -/
def execLaserWatchdog (ltx : Fin 2) (s : State) : Out :=
  let l := usLaneOf s ltx
  if l.ben && !l.wdTrip then .next (wdTripLane ltx s) else .next s

/-- No REFCLK edge for 1 us with BENx high when REFCLK was lost (R123). -/
def execWatchdogRefclkTrip (ltx : Fin 2) (s : State) : Out :=
  let l := usLaneOf s ltx
  if (l.wdMonitor || (l.ben && !s.clk.refclk)) && !l.wdTrip then .next (wdTripLane ltx s)
  else .next s

/-- The eighth upstream swath boundary finds fragments of the queue's head frame not laid out:
they are discarded (R115). -/
def execFragAbandonTx (queue : Fin 1024) (s : State) : Out :=
  match (usOf s queue).frames with
  | f :: _ =>
    if 0 < f.sent then .next (bump cFragAbandonTx (scUsQueue queue) 1 (dropHead false queue s))
    else .next s
  | [] => .next s

end Sys2Proof.Machine
end

