-- ==== Sys2Proof/Machine/Activation.lean ====
section
/-! DEFINITION. Field messages and the activation of an instance (spec/05). -/
namespace Sys2Proof.Machine

/-! Acceptance of a downstream message (R134-R139). -/

/-- How a message may be addressed (Table 5-2). -/
inductive Addressing | broadcast | serial | addressed | either
  deriving DecidableEq

/-- FM_TYPE of a message. -/
def msgType (m : FieldMsg) : Nat := (byteAt m.bytes 2).toNat
/-- TERMINAL_ID of a message. -/
def msgTid (m : FieldMsg) : BitVec 16 := BitVec.ofNat 16 (field m.bytes 0 2)
/-- FM_SEQ of a message. -/
def msgSeq (m : FieldMsg) : BitVec 8 := byteAt m.bytes 3

/-- The message came on the group's primary lane of its swath (R79). -/
def msgPrimary (s : State) (m : FieldMsg) : Bool := primaryOf s m.group m.sc == some m.lane.val

/-- Nonce of a downstream message (R430). -/
def downMsgNonce (s : State) (m : FieldMsg) : Bytes :=
  let x := laneOf s m.lane
  lineNonce m.sc ((24 + 16 * x.fmapCount + 48 * m.index.toNat) / 8) x.txLane.toNat false 0xFFFF

/-- FM_TAG is valid: CRC-64 on a broadcast message, the instance's form on an addressed one
(R134, R135); in the swath in which the message key is bound the CRC-64 form is still taken (R164:
rejected from the next swath). Under a key the tag is an operation of LINE_RX, which fails while the
engine is stopped (R428, Table 16-7); it ends within the command that brings the message (DESIGN
CHOICE, log entry 118). -/
def tagOk (s : State) (i : Nat) (m : FieldMsg) : Bool :=
  let b := slice m.bytes 0 40
  let t := slice m.bytes 40 8
  let crc := t == natBytes 8 (crc64 b)
  if msgTid m = 0xFFFF then crc
  else (!(s.cry.stopped && (targetKey s 3 i 0).isSome) && t == fmTag s i (downMsgNonce s m) b) ||
    (crc && !(instOf s i).keyed)

/-- The message carries the terminal's serial number at bytes 4 to 11. -/
def serialMatches (s : State) (m : FieldMsg) : Bool := slice m.bytes 4 8 == lineSerial s

/-- A message enters the instance's upstream queue, or is discarded (R142). -/
def queueMsg (i : Nat) (type : BitVec 8) (body : Bytes) (s : State) : State :=
  if 32 ≤ (instOf s i).txQueue.length then bump cMsgTxOverflow (scInst i) 1 s
  else modInst i (fun x => { x with txQueue := x.txQueue ++ [(type, body)] }) s

/-- Queue the ACK of a message that was acted on; it is kept for a duplicate (R138, R139). -/
def queueAck (i : Nat) (type : Nat) (seq : BitVec 8) (result : Nat) (s : State) : State :=
  let t := BitVec.ofNat 8 type
  let r := BitVec.ofNat 8 result
  queueMsg i 0x22 [t, seq, r] (modInst i (fun x => { x with lastAck := some (t, seq, r) }) s)

/-- A message has been acted on with result `r`: it is counted, its FM_SEQ becomes the last one
unless it was broadcast, and a type that is answered is answered (R138, R139). -/
def msgDone (m : FieldMsg) (i : Nat) (ack : Bool) (r : Nat) (s : State) : State :=
  let cast_ := decide (msgTid m = 0xFFFF)
  let s2 := bump cFmsgRx (scInst i) 1 s
  let s3 := if cast_ then s2 else modInst i (fun x => { x with lastSeq := some (msgSeq m) }) s2
  if ack && !cast_ then queueAck i (msgType m) (msgSeq m) r s3 else s3

/-- A message of a defined type passes R134 to R138: tag, TERMINAL_ID, addressing, FM_SEQ and
state; `act` then acts on it and answers the RESULT of its ACK, none when the message is ignored
after all. -/
def acceptMsg (m : FieldMsg) (addr : Addressing) (states : ActState → Bool) (ack : Bool)
    (act : Nat → State → Option Nat × State) (s : State) : State :=
  let i := groupOwner s m.group
  let y := instOf s i
  let type := msgType m
  let tid := msgTid m
  let seq := msgSeq m
  let cast_ := decide (tid = 0xFFFF)
  if !msgPrimary s m || decide (s.pwr.listening ≠ 0) then s
  else if !cast_ && tid != y.terminalId then s
  else if !tagOk s i m then bump cFmsgTagErr (scInst i) 1 s
  else if (type == 0x09 || type == 0x0A) && y.opRev == 0x0100 then
    bump cFmsgUnknownType (scInst i) 1 s
  else if (addr == .addressed && cast_) || ((addr == .broadcast || addr == .serial) && !cast_) then
    bump cFmsgBadAddr (scInst i) 1 s
  else if cast_ && (addr == .serial || addr == .either) && !serialMatches s m then s
  else
    let d := match y.lastSeq with
      | some q => (seq - q).toNat
      | none => 1
    if !cast_ && d == 0 then
      let s1 := bump cFmsgDup (scInst i) 1 s
      match y.lastAck with
      | some (t, q, r) => if ack && q == seq then queueMsg i 0x22 [t, q, r] s1 else s1
      | none => s1
    else if !cast_ && decide (128 ≤ d) then bump cFmsgStale (scInst i) 1 s
    else if !states y.st then
      if ack && !cast_ then queueMsg i 0x22 [BitVec.ofNat 8 type, seq, 2] s else s
    else
      let (r, s1) := act i s
      match r with
      | none => s1
      | some r => msgDone m i ack r s1

/-- Every state. -/
def anyState (_ : ActState) : Bool := true

/-- RANGING or OPERATING. -/
def rangingOrOperating (a : ActState) : Bool := a == .ranging || a == .operating

/-! The messages (Table 5-2). -/

/-- What an accepted HE_PROFILE does (Table 5-5). -/
def actHeProfile (m : FieldMsg) (i : Nat) (s : State) : Option Nat × State :=
  let g := m.group.val
  let b := m.bytes
  let s1 := modInst i (fun x => { x with
    heId := BitVec.ofNat 32 (field b 4 4), annOpen := (byteAt b 12).getLsbD 7,
    annBackoff := (byteAt b 12).toNat % 16 }) s
  let (lo, hi) := revRange s
  let disjoint := decide (hi < field b 8 2) || decide (field b 10 2 < lo)
  let y := instOf s1 i
  let restart := leaveFor i g none (.timer 0 true)
  match y.st with
  | .listen =>
    if disjoint then (some 0, raise 0x0402 i 0 (bump cRevReject (scInst i) 1 s1))
    else if y.enabled && instLocked s1 i then
      (some 0, restart (setAct i .announce (some g) (modInst i (fun x => { x with backoff := 0 }) s1)))
    else (some 0, s1)
  | .announce | .ranging | .operating => (some 0, restart s1)
  | .holdover =>
    if instLocked s1 i then
      (some 0, restart (leaveFor i g none (.timer 2 false) (setAct i .operating (some g) s1)))
    else (some 0, restart s1)
  | _ => (some 0, s1)

/-- A head-end profile message. -/
def execHeProfile (m : FieldMsg) (s : State) : Out :=
  if msgType m ≠ 0x01 then .next s else
  .next (acceptMsg m .broadcast anyState false (actHeProfile m) s)

/-- Add a plot to the table, unless the other instance owns it or the table is full. -/
def addPlot (i p : Nat) (s : State) : State :=
  let o := tabGet 0 s.act.plots p
  if o = i + 1 then s
  else if o ≠ 0 ∨ 256 ≤ s.act.plots.length then s
  else { s with act := { s.act with plots := tabSet 0 s.act.plots p (i + 1) } }

/-- What ASSIGN_ID does (Table 5-5). -/
def actAssignId (m : FieldMsg) (i : Nat) (s : State) : Option Nat × State :=
  let b := m.bytes
  let newId := BitVec.ofNat 16 (field b 12 2)
  let plot := field b 14 2 % 16384
  let rev := field b 16 2
  let (lo, hi) := revRange s
  if newId = 0xFFFF then (none, bump cFmsgBadAddr (scInst i) 1 s)
  else if rev < lo ∨ hi < rev then (some 0, bump cRevReject (scInst i) 1 s)
  else
    let s1 := modInst i (fun x => { x with
      terminalId := newId, rangePlot := BitVec.ofNat 14 plot, opRev := BitVec.ofNat 16 rev,
      lastSeq := none }) s
    let s2 := if plot = 0x3FFF then s1 else addPlot i plot s1
    (some 0, leaveFor i m.group none (.timer 1 true) (setAct i .ranging (some m.group.val) s2))

/-- ASSIGN_ID with the own serial number. -/
def execAssignId (m : FieldMsg) (s : State) : Out :=
  if msgType m ≠ 0x02 then .next s else
  .next (acceptMsg m .serial (fun a => a == .announce) false (actAssignId m) s)

/-- The later of two SCs. -/
def laterSc (a b : BitVec 48) : BitVec 48 := if 0 ≤ scDiff a b then b else a

/-- RTTs that no record can need any more leave: a record's REF_SC lies at most 15 swaths before
the swath that carries it (Table 7-4). -/
def rttPrune (sc : BitVec 48) : List (BitVec 48 × Nat) → List (BitVec 48 × Nat)
  | a :: b :: rest =>
    if 15 ≤ scDiff b.1 sc then rttPrune sc (b :: rest) else a :: b :: rest
  | l => l

/-- What RANGING_TIME does (Table 5-5, R153): a later message with an earlier SC replaces the
pending values from that SC on (Table 5-10). A message that names a lane the instance does not own is
answered BAD_ARG (DESIGN CHOICE, log entry 104). -/
def actRangingTime (m : FieldMsg) (i : Nat) (s : State) : Option Nat × State :=
  let b := m.bytes
  let lane := (byteAt b 4).toNat % 2
  let final_ := (byteAt b 4).getLsbD 1
  let eqd := field b 8 4
  let rtt := field b 12 4
  let eff := laterSc (BitVec.ofNat 48 (field b 16 6)) (m.sc + 1)
  if 95200000 < eqd ∨ ltxOwner s lane ≠ i then (some 1, s)
  else
    let s1 := modUsLane lane (fun l => { l with
      eqdPending := l.eqdPending.filter (fun p => decide (0 < scDiff p.1 eff)) ++
        [(eff, eqd)],
      rtts := rttPrune m.sc (l.rtts.filter (fun p => decide (0 < scDiff p.1 eff)) ++
        [(eff, rtt)]) }) s
    let s2 := if final_ && (instOf s1 i).st == .ranging then
        leaveFor i m.group (some eff) .operating s1 else s1
    (some 0, s2)

/-- RANGING_TIME. -/
def execRangingTime (m : FieldMsg) (s : State) : Out :=
  if msgType m ≠ 0x03 then .next s else
  .next (acceptMsg m .addressed rangingOrOperating true (actRangingTime m) s)

/-- What ASSIGN_PLOT does (R141). -/
def actAssignPlot (m : FieldMsg) (i : Nat) (s : State) : Option Nat × State :=
  let add := (byteAt m.bytes 4).getLsbD 0
  let p := field m.bytes 6 2 % 16384
  let o := tabGet 0 s.act.plots p
  if p = 0x3FFF then (some 1, s)
  else if o ≠ 0 ∧ o ≠ i + 1 then (some 5, raise 0x0403 i p s)
  else if add then
    if o = 0 ∧ 256 ≤ s.act.plots.length then (some 3, s) else (some 0, addPlot i p s)
  else (some 0, { s with act := { s.act with plots := tabSet 0 s.act.plots p 0 } })

/-- ASSIGN_PLOT. -/
def execAssignPlot (m : FieldMsg) (s : State) : Out :=
  if msgType m ≠ 0x04 then .next s else
  .next (acceptMsg m .addressed rangingOrOperating true (actAssignPlot m) s)

/-- Instance `i` owns bonding group `g` (R127). -/
def ownsGroup (s : State) (i g : Nat) : Bool :=
  !s.act.dual || laneGroup s (if i = 0 then 0 else 2) == g

/-- GROUP_MASK without the groups the instance does not own (R141). -/
def ownMask (s : State) (i m : Nat) : BitVec 4 :=
  BitVec.ofNat 4 (((List.range 4).filter (fun g => ownsGroup s i g && m.testBit g)).map
    (fun g => 2 ^ g)).sum

/-- What ASSIGN_LOT does (R141). -/
def actAssignLot (m : FieldMsg) (i : Nat) (s : State) : Option Nat × State :=
  let b := m.bytes
  let add := (byteAt b 4).getLsbD 0
  let id := field b 6 2
  let label := byteAt b 8
  let e := lotOf s id
  if id = 0xFFFF ∨ (add ∧ (label = 0 ∨ labelReserved label.toNat)) then (some 1, s)
  else if e.present ∧ e.owner ≠ i then (some 5, raise 0x0403 i (65536 + id) s)
  else if !add then (some 0, if e.present then removeLot id s else s)
  else if !e.present ∧ 4096 ≤ s.lots.length then (some 3, s)
  else
    let e' : LotEntry :=
      { present := true, expLabel := label, reqKey := (byteAt b 4).getLsbD 1,
        groupMask := ownMask s i (byteAt b 9).toNat,
        cls := BitVec.ofNat 8 ((byteAt b 10).toNat % 8), owner := i }
    (some 0, supLook { s with lots := tabSet {} s.lots id e' })

/-- ASSIGN_LOT. -/
def execAssignLot (m : FieldMsg) (s : State) : Out :=
  if msgType m ≠ 0x05 then .next s else
  .next (acceptMsg m .addressed rangingOrOperating true (actAssignLot m) s)

/-- DEACTIVATE: cleared, to LISTEN. -/
def execDeactivate (m : FieldMsg) (s : State) : Out :=
  if msgType m ≠ 0x06 then .next s else
  .next (acceptMsg m .addressed
    (fun a => a == .ranging || a == .operating || a == .holdover || a == .silenced) false
    (fun i s => (some 0, toListen i (some m.group.val)
      (modInst i (fun x => { x with durRunning := false }) s))) s)

/-- What SILENCE does (Table 5-5, Table 5-10). -/
def actSilence (m : FieldMsg) (i : Nat) (s : State) : Option Nat × State :=
  let d := BitVec.ofNat 16 (field m.bytes 12 2)
  let g := m.group.val
  match (instOf s i).st with
  | .tuning => (some 0, modInst i (fun x => { x with silencePending := some d }) s)
  | .silenced => (some 0, leaveFor i g none (.duration d) s)
  | st =>
    (some 0, raise 0x0404 i 0 (leaveFor i g none (.duration d)
      (setAct i .silenced (some g) (modInst i (fun x => { x with prior := st }) s))))

/-- SILENCE. -/
def execSilence (m : FieldMsg) (s : State) : Out :=
  if msgType m ≠ 0x07 then .next s else
  .next (acceptMsg m .either (fun a => a == .announce || a == .ranging || a == .operating ||
    a == .silenced || a == .tuning) false (actSilence m) s)

/-- SILENCED ends (Table 5-5): to OPERATING when that was the prior state, lock being looked at
again, otherwise cleared to LISTEN. -/
def endSilence (i : Nat) (msg : Option Nat) (s : State) : State :=
  let s1 := modInst i (fun x => { x with durRunning := false }) s
  if (instOf s1 i).prior = .operating then
    let s2 := setAct i .operating msg s1
    if instLocked s2 i then s2 else actLost i s2
  else toListen i msg s1

/-- RELEASE. -/
def execRelease (m : FieldMsg) (s : State) : Out :=
  if msgType m ≠ 0x08 then .next s else
  .next (acceptMsg m .either (fun a => a == .silenced) false
    (fun i s => (some 0, endSilence i (some m.group.val) s)) s)

/-! Tuning (R154-R156). -/

/-- TUNE_DONE for lane `x` (Table 5-4). -/
def tuneDone (i x : Nat) (result : Nat) (reverted : Bool) (s : State) : State :=
  let l := usLaneOf s x
  queueMsg i 0x23 (natBytes 1 (bit reverted * 2 + x) ++ natBytes 1 result ++ [l.grid] ++
    natBytes 2 l.channel.toNat ++ natBytes 4 l.freq.toNat) s

/-- What TUNE does: the conditions of Table 5-5; a failing request touches nothing. -/
def actTune (m : FieldMsg) (o : Optics) (i : Nat) (s : State) : Option Nat × State :=
  let x := (byteAt m.bytes 4).toNat % 2
  let grid := byteAt m.bytes 5
  let ch := BitVec.ofNat 16 (field m.bytes 6 2)
  let tunable := o.tunable && !o.grids.isEmpty
  let s1 := modUsLane x (fun l => { l with tunable := tunable, freq := o.freq }) s
  let fits := o.grids.any (fun g =>
    g.1 == grid && decide (g.2.1 ≤ ch.toInt) && decide (ch.toInt ≤ g.2.2))
  if decide (ltxOwner s x = i) && tunable && fits then
    (some 0, leaveFor i m.group none (.tune x grid ch) (leaveFor i m.group none (.timer 3 true)
      (setAct i .tuning (some m.group.val) (modInst i (fun y => { y with tuneLane := x }) s1))))
  else (some 0, tuneDone i x 1 true s1)

/-- TUNE. -/
def execTune (m : FieldMsg) (optics : Optics) (s : State) : Out :=
  if msgType m ≠ 0x09 then .next s else
  .next (acceptMsg m .addressed (fun a => a == .operating) false (actTune m optics) s)

/-- Tuning has ended and the instance leaves TUNING: to OPERATING, or to SILENCED when SILENCE
came meanwhile (Table 5-10). `ok`: a channel is in force. -/
def leaveTuning (i : Nat) (ok : Bool) (s : State) : State :=
  let y := instOf s i
  let s0 := modInst i (fun y => { y with toTune := false, silencePending := none }) s
  let s1 := if ok then s0 else modInst i (fun y => { y with enabled := false }) (actClear i none s0)
  match y.silencePending with
  | some d =>
    raise 0x0404 i 0 (setAct i .silenced none (modInst i (fun y => { y with
      prior := if ok then .operating else .listen, duration := d, durRunning := d != 0 }) s1))
  | none =>
    if ok then
      let s2 := setAct i .operating none s1
      if instLocked s2 i then s2 else actLost i s2
    else setAct i .listen none s1

/-- A tuning attempt fails with RESULT `r`: the first time the previous channel is written and a
further TO_TUNE runs; failing again, it is not restored (R156). -/
def tuneFails (i : Nat) (r : BitVec 8) (s : State) : State :=
  let x := (instOf s i).tuneLane
  let l := usLaneOf s x
  if l.tuneStep = 1 then
    modInst i (fun y => { y with toTune := true })
      (modUsLane x (fun l => { l with tuneStep := 2, tuneResult := r, grid := l.prevGrid,
                                      channel := l.prevChannel }) s)
  else
    leaveTuning i false (raise 0x0405 i l.tuneResult.toNat
      (modUsLane x (fun l => { l with tuneStep := 0 }) s))

/-- A poll of page 12h while tuning (R156). -/
def execTunePoll (inst : Fin 2) (status : TuneStatus) (s : State) : Out :=
  let x := (instOf s inst).tuneLane
  let l := usLaneOf s x
  if (instOf s inst).st ≠ .tuning ∨ l.tuneStep = 0 then .next s else
  match status with
  | .inProgress => .next s
  | .fault => .next (tuneFails inst 1 s)
  | .complete freq =>
    let s1 := modUsLane x (fun l => { l with freq := freq, txDisabled := false, tuneStep := 0 }) s
    if l.tuneStep = 1 then
      -- on a different channel no RTT applies until the lane is ranged again (R202)
      let same := l.channel == l.prevChannel && l.grid == l.prevGrid
      let s2 := if same then s1 else modUsLane x (fun l => { l with rtts := [] }) s1
      .next (leaveTuning inst true (tuneDone inst x 0 false s2))
    else .next (leaveTuning inst true (raise 0x0405 inst l.tuneResult.toNat
      (tuneDone inst x l.tuneResult.toNat true s1)))

/-- The activation timers of Table 5-6 run (Table 18-2). -/
def actTimersRun (s : State) : Bool := s.pwr.st == .run || s.pwr.st == .doze

/-- TO_TUNE expires: a failure with RESULT 2, or the end of the wait for the previous channel. -/
def execToTuneExpiry (inst : Fin 2) (s : State) : Out :=
  let y := instOf s inst
  if actTimersRun s && y.toTune && y.st == .tuning then .next (tuneFails inst 2 s) else .next s

/-- SWITCH_PARENT (R158): accepted only in dual-parented mode. A request refused under R158 has been
acted on, so that its FM_SEQ is the last accepted one and a repeat is answered again (DEDUCED, log
entry 103). -/
def execSwitchParent (m : FieldMsg) (s : State) : Out :=
  if msgType m ≠ 0x0A then .next s else
  .next (acceptMsg m .addressed (fun a => a == .operating && s.act.dual) true (fun _ s =>
    let (ok, s1) := requestSwitch ((byteAt m.bytes 4).toNat % 2) false s
    (some (if ok then 0 else 2), s1)) s)

/-- Downstream types that are defined (Tables 5-2, 7-2, 18-7). -/
def msgDefined (t : Nat) : Bool :=
  (decide (1 ≤ t) && decide (t ≤ 0x0A)) || t == 0x40 || t == 0x80

/-- A message of a reserved or undefined type (R136). -/
def execUndefinedFieldMessage (m : FieldMsg) (s : State) : Out :=
  let i := groupOwner s m.group
  if msgDefined (msgType m) || !msgPrimary s m || decide (s.pwr.listening ≠ 0) then .next s
  else if msgTid m ≠ 0xFFFF ∧ msgTid m ≠ (instOf s i).terminalId then .next s
  else if !tagOk s i m then .next (bump cFmsgTagErr (scInst i) 1 s)
  else .next (bump cFmsgUnknownType (scInst i) 1 s)

/-! Timers (R144). -/

/-- TO_PROFILE expires. -/
def execToProfileExpiry (inst : Fin 2) (s : State) : Out :=
  let y := instOf s inst
  if actTimersRun s && y.toProfile then
    .next (actLost inst (modInst inst (fun y => { y with toProfile := false }) s))
  else .next s

/-- TO_RANGE expires in RANGING. -/
def execToRangeExpiry (inst : Fin 2) (s : State) : Out :=
  let y := instOf s inst
  if actTimersRun s && y.toRange then
    let s1 := modInst inst (fun y => { y with toRange := false }) s
    if y.st = .ranging then .next (toListen inst none s1) else .next s1
  else .next s

/-- TO_HOLD expires in HOLDOVER. -/
def execToHoldExpiry (inst : Fin 2) (s : State) : Out :=
  let y := instOf s inst
  if actTimersRun s && y.toHold then
    let s1 := modInst inst (fun y => { y with toHold := false }) s
    if y.st = .holdover then .next (toListen inst none s1) else .next s1
  else .next s

/-- DURATION ends (R147); it runs in every power state. -/
def execSilenceDurationExpiry (inst : Fin 2) (s : State) : Out :=
  let y := instOf s inst
  if y.durRunning && y.st == .silenced then .next (endSilence inst none s) else .next s

/-! What messages left for a boundary (R139). -/

/-- One such change is made. -/
def doDue (i : Nat) (w : ActDue) (s : State) : State :=
  match w with
  | .commit => gateLook (modInst i (fun x => { x with stBurst := x.st, tidBurst := x.terminalId }) s)
  | .timer k v => modInst i (setTimer k v) s
  | .duration d =>
    if (instOf s i).st = .silenced then
      modInst i (fun x => { x with duration := d, durRunning := d != 0 }) s
    else s
  | .clearEqd => clearEqd i s
  | .operating =>
    if (instOf s i).st = .ranging then
      setAct i .operating none (modInst i (fun x => { x with toRange := false }) s)
    else s
  | .tune x grid ch =>
    if (instOf s i).st = .tuning then
      modUsLane x (fun l => { l with
        txDisabled := true, tuneStep := 1, prevGrid := l.grid, prevChannel := l.channel,
        grid := grid, channel := ch }) s
    else s

/-- Make the changes of instance `i` that are due at group `g`'s boundary before SC `sc`. -/
def runTodo (g : Nat) (sc : BitVec 48) (i : Nat) (s : State) : State :=
  let due (d : ActTodo) : Bool := decide (d.group = g) &&
    (match d.sc with
      | none => true
      | some n => decide (0 ≤ scDiff n sc))
  let ds := (instOf s i).todo.filter due
  each (fun d s => doDue i d.what s) ds
    (modInst i (fun x => { x with todo := x.todo.filter (fun d => !due d) }) s)

end Sys2Proof.Machine
end

