-- ==== Sys2Proof/Machine/Pmc.lean ====
section
/-! DEFINITION. Hardware threads, the tines' performance counters, tagged sampling, and the tick
(spec/12, spec/14). -/
namespace Sys2Proof.Machine

/-! Threads. -/

/-- Key of a thread. -/
def thKey (h t n : Nat) : Nat := h * 128 + t * 8 + n
/-- Thread `n` of a tine. -/
def threadOf (s : State) (h t n : Nat) : Thread := tabGet ({} : Thread) s.tine.threads (thKey h t n)
/-- A thread becomes `x`. -/
def putThread (h t n : Nat) (x : Thread) (s : State) : State :=
  { s with tine := { s.tine with
      threads := tabSet ({} : Thread) s.tine.threads (thKey h t n) x } }
/-- Change a thread. -/
def modThread (h t n : Nat) (f : Thread → Thread) (s : State) : State :=
  putThread h t n (f (threadOf s h t n)) s

/-- CLK_CORE runs (Table 18-1, R376): not in FALLOW or DEEP_FALLOW, nor on the way there once E3 has
stopped the clocks (Table 18-5). -/
def coreRuns (s : State) : Bool :=
  s.clk.pllRunning && s.pwr.st != .fallow && s.pwr.st != .deepFallow &&
  !(s.pwr.sigs && decide (2 ≤ pwrCode s.pwr.target))

/-- A harrow is in service: its domain is on (R338, Table 21-6). -/
def harrowOn (s : State) (h : Nat) : Bool := decide (h < 12) && s.pwr.on.getLsbD (8 + h)

/-- A thread is ready (R333): it runs a pass, waits for nothing and its last instruction is
complete. -/
def threadReady (x : Thread) : Bool := x.busy && x.wait.isNone && decide (x.stall = 0)

/-- Thread `n` is the one whose turn it is among the ready threads of its tine (R333). -/
def inTurn (s : State) (h t n : Nat) : Bool :=
  let start := (tabGet ({} : Pmc) s.tine.pmc (h * 16 + t)).turn
  ((List.range 8).map (fun i => (start + i) % 8)).find? (fun m => threadReady (threadOf s h t m)) ==
    some n

/-! Counters (R376-R381). -/

/-- Counters of a tine. -/
def pmcOf (s : State) (h t : Nat) : Pmc := tabGet ({} : Pmc) s.tine.pmc (h * 16 + t)
/-- Change the counters of a tine. -/
def modPmc (h t : Nat) (f : Pmc → Pmc) (s : State) : State :=
  { s with tine := { s.tine with pmc := tabMod ({} : Pmc) s.tine.pmc (h * 16 + t) f } }

/-- Some PMCs of a tine wrap (R381): OVF, FREEZE, and EV_PMC_OVERFLOW at most once per ms. -/
def pmcWrap (h t : Nat) (mask : BitVec 6) (s : State) : State :=
  if mask = 0 then s else
  let freeze := (List.range 6).any (fun i =>
    mask.getLsbD i && settingB s sOvfAction (scTine h t) i)
  let x := pmcOf s h t
  let quiet := match x.lastEvent with
    | some e => decide (tlDiff e (now s) < msGrains)
    | none => false
  let s1 := modPmc h t (fun x => { x with
    ovf := x.ovf ||| mask, frozen := x.frozen || freeze,
    lastEvent := if quiet then x.lastEvent else some (now s) }) s
  if quiet then s1 else raise 0x0B01 h (x.ovf ||| mask).toNat s1

/-- PMC `i` adds `n`; it wraps at 2^48. -/
def pmcAdd (i n : Nat) (x : Pmc) : Pmc × Bool :=
  let v := (tabGet 0 x.count i).toNat + n
  ({ x with count := tabSet 0 x.count i (BitVec.ofNat 48 v) }, decide (2 ^ 48 ≤ v))

/-- Threads a PMC selects (R378). -/
def pmcSelected (s : State) (h t i : Nat) : BitVec 8 :=
  let sc := scTine h t
  let m : BitVec 8 := BitVec.ofNat 8 (settingN s sPmcThreadMask sc i)
  let prog := settingN s sPmcProg sc i
  if settingB s sPmcProgEn sc i then
    (List.range 8).foldl (fun (a : BitVec 8) n =>
      let x := threadOf s h t n
      if m.getLsbD n && x.busy && x.view.prog == prog then a ||| (1#8 <<< n) else a) 0
  else m

/-- What a thread does in this cycle. -/
def thStat (s : State) (h t n : Nat) : ThStat :=
  let x := threadOf s h t n
  { busy := x.busy, ready := threadReady x,
    svc := match x.wait with
      | some (.elook ..) => 0x07
      | some (.load ..) => 0x08
      | some (.store ..) => 0x08
      | some (.atom ..) => 0x08
      | some (.cipher ..) => 0x0A
      | none => 0,
    stall := if x.stall = 0 then 0 else x.stallEvent }

/-- A thread-scope event holds for thread `n`, which does `x`, in a cycle (Table 14-3). `issue`: the
thread that issues, with the events its instruction makes. -/
def eventHolds (x : ThStat) (n e : Nat) (issue : Option (Nat × List Nat)) : Bool :=
  match e with
  | 0x04 => x.ready && (match issue with
    | some (k, _) => k != n
    | none => false)
  | 0x05 => x.busy
  | 0x07 | 0x08 | 0x0A => x.svc == e
  | 0x06 | 0x09 | 0x0B | 0x0C => x.stall == e
  | _ => match issue with
    | some (k, es) => k == n && es.contains e
    | none => false

/-- Bits of the threads for which event `e` holds in a cycle; of a tine-scope event, bit 0. -/
def eventMask (th : Nat → ThStat) (e : Nat) (issue : Option (Nat × List Nat)) : BitVec 8 :=
  if e = 1 then 1
  else if e = 3 then (if issue.isNone then 1 else 0)
  else (List.range 8).foldl (fun (a : BitVec 8) n =>
    if eventHolds (th n) n e issue then a ||| (1#8 <<< n) else a) 0

/-- What PMC `i` of a tine adds in a core cycle (R378, R379): in EDGE mode against the cycle before,
whatever the PMC counted then. -/
def pmcHits (s : State) (h t : Nat) (issue : Option (Nat × List Nat)) (i : Nat) : Nat :=
  let sc := scTine h t
  let e := settingN s sPmcEvent sc i
  let x := pmcOf s h t
  if e = 0 ∨ x.frozen then 0 else
  let holds := eventMask (thStat s h t) e issue
  let sel := if e = 1 ∨ e = 3 then (0xFF : BitVec 8) else pmcSelected s h t i
  let old := eventMask (fun n => tabGet ({} : ThStat) x.prev n) e x.prevIssue
  popByte (if settingB s sPmcMode sc i then holds &&& ~~~old &&& sel else holds &&& sel)

/-- One core cycle of a tine's PMCs, all at once: should one wrap under FREEZE, every one has counted
this cycle and none counts the next (R381). -/
def pmcCycle (h t : Nat) (issue : Option (Nat × List Nat)) (s : State) : State :=
  let x := pmcOf s h t
  let sum (i : Nat) : Nat := (tabGet 0 x.count i).toNat + pmcHits s h t issue i
  let mask := (List.range 6).foldl (fun (m : BitVec 6) i =>
    if 2 ^ 48 ≤ sum i then m ||| (1#6 <<< i) else m) 0
  pmcWrap h t mask (modPmc h t (fun x => { x with
    count := (List.range 6).foldl (fun c i => tabSet 0 c i (BitVec.ofNat 48 (sum i))) x.count,
    prev := (List.range 8).foldl (fun p n => tabSet ({} : ThStat) p n (thStat s h t n)) x.prev,
    prevIssue := issue }) s)

/-- The threads of a tine come one cycle nearer to the end of their instructions' cost. -/
def stallCycle (h t : Nat) (s : State) : State :=
  each (fun n s =>
    if 0 < (threadOf s h t n).stall then
      modThread h t n (fun x => { x with stall := x.stall - 1 }) s
    else s) (List.range 8) s

/-- One core cycle of a tine (R376-R379). -/
def tineCycle (h t : Nat) (issue : Option (Nat × List Nat)) (s : State) : State :=
  stallCycle h t (pmcCycle h t issue s)

/-- The cycle in which a tine issues an instruction: CYC counts it too, and the turn passes to the
next thread. The commands carry no time, so it is a cycle of this tine alone. -/
def issueCycle (h t n : Nat) (events : List Nat) (s : State) : State :=
  tineCycle h t (some (n, events)) (modPmc h t (fun x => { x with
    cycOff := x.cycOff + 1, turn := (n + 1) % 8 }) s)

/-- An event that is no instruction's, such as a dispatch, counted at once. -/
def pmcInstant (h t n e : Nat) (s : State) : State :=
  each (fun i s =>
    if settingN s sPmcEvent (scTine h t) i = e ∧ !(pmcOf s h t).frozen ∧
        (pmcSelected s h t i).getLsbD n then
      let (x, w) := pmcAdd i 1 (pmcOf s h t)
      let s1 := modPmc h t (fun _ => x) s
      if w then pmcWrap h t (1#6 <<< i) s1 else s1
    else s) (List.range 6) s

/-- Tines at work: those with a record of their counters, with a thread, or with an EVENT set; in the
others no counter counts and no thread runs. -/
def tinesAtWork (s : State) : List Nat :=
  let named := s.settings.filterMap (fun (p : Nat × Option Int) =>
    if p.1 / 2 ^ 26 / 256 = setKey sPmcEvent 0 0 / 2 ^ 26 / 256 then
      some (scopeIndex (p.1 % 2 ^ 26) * 16 + scopeSub (p.1 % 2 ^ 26))
    else none)
  ((s.tine.pmc.map (fun (p : Nat × Pmc) => p.1)) ++
    (s.tine.threads.map (fun (p : Nat × Thread) => p.1 / 8)) ++ named).eraseDups

/-- The coulter stalls in this core cycle while a queue behind it is full (R320, R339). -/
def coulterStall (s : State) : State :=
  let s1 := if 1024 ≤ s.cls.dispatchQ.length then bump cDispatchStall scDevice 1 s else s
  if 512 ≤ s.cls.emQ.length then bump cEmStall scDevice 1 s1 else s1

/-- A core cycle in which no tine issues: the coulter and the tines at work that are in service. -/
def coreCycle (s : State) : State :=
  each (fun k s => if harrowOn s (k / 16) then tineCycle (k / 16) (k % 16) none s else s)
    (tinesAtWork s)
    (coulterStall { s with tine := { s.tine with cycles := s.tine.cycles + 1 } })

/-- CYC of a tine (Table 14-1): it holds while its harrow is gated. -/
def cycOf (s : State) (h t : Nat) : BitVec 64 :=
  (tabGet none s.tine.gatedAt h).getD s.tine.cycles + (pmcOf s h t).cycOff

/-- PMC `i` of a tine. -/
def pmcVal (s : State) (h t i : Nat) : BitVec 48 := tabGet 0 (pmcOf s h t).count i

/-- The PMCs of a tine that stand at 2^48 - 1 and count take an increment and wrap (R381). -/
def execPmcOverflow (harrow : Fin 12) (tine : Fin 16) (s : State) : Out :=
  let h := harrow.val
  let t := tine.val
  let x := pmcOf s h t
  if x.frozen || !harrowOn s h then .next s else
  let at_ := (List.range 6).filter (fun i =>
    settingN s sPmcEvent (scTine h t) i ≠ 0 && pmcVal s h t i == 0xFFFFFFFFFFFF)
  let mask := at_.foldl (fun (m : BitVec 6) i => m ||| (1#6 <<< i)) 0
  .next (pmcWrap h t mask (modPmc h t (fun x => { x with
    count := at_.foldl (fun c i => tabSet 0 c i 0) x.count }) s))

/-! Tagged sampling (R384-R388). -/

/-- Sampling of a harrow. -/
def sampOf (s : State) (h : Nat) : Samp := tabGet ({} : Samp) s.tine.samp h
/-- Change the sampling of a harrow. -/
def modSamp (h : Nat) (f : Samp → Samp) (s : State) : State :=
  { s with tine := { s.tine with samp := tabMod ({} : Samp) s.tine.samp h f } }

/-- Draw a tine's countdown (R385). -/
def drawCountdown (h t : Nat) (s : State) : State :=
  let n := settingN s sSampleN (scHarrow h)
  let c := n / 2 + freeNat s % (3 * n / 2 - n / 2 + 1)
  modSamp h (fun x => { x with countdown := tabSet 0 x.countdown t c }) (drawn s)

/-- A tine samples. -/
def sampling (s : State) (h t : Nat) : Bool := (sampOf s h).mask.getLsbD t

/-- The countdown of a tine has reached zero (R385, R386). -/
def countdownZero (h t : Nat) (s : State) : State :=
  if (List.range 8).any (fun n => (threadOf s h t n).tagged.isSome) then
    drawCountdown h t (bump cSampleCollide (scHarrow h) 1 s)
  else modSamp h (fun x => { x with armed := x.armed ||| (1#16 <<< t) }) s

/-- The sampling countdown of a tine reaches zero (R385). -/
def execSampleTag (harrow : Fin 12) (tine : Fin 16) (s : State) : Out :=
  let h := harrow.val
  let t := tine.val
  if sampling s h t && harrowOn s h && !(sampOf s h).armed.getLsbD t then
    .next (countdownZero h t
      (modSamp h (fun x => { x with countdown := tabSet 0 x.countdown t 0 }) s))
  else .next s

/-- A thread is selected for sampling (R385). -/
def sampSelected (s : State) (h n prog : Nat) : Bool :=
  (settingN s sSampThreadMask (scHarrow h)).testBit n &&
  (!settingB s sSampProgEn (scHarrow h) || settingN s sSampProg (scHarrow h) == prog)

/-- A selected thread issues an instruction: it is tagged, or the countdown falls (R385). -/
def sampIssue (h t n op : Nat) (s : State) : Option Tagged × State :=
  let x := threadOf s h t n
  if !(sampling s h t && sampSelected s h n x.view.prog) then (none, s)
  else if (sampOf s h).armed.getLsbD t then
    let others := ((List.range 8).filter (fun m => m != n && threadReady (threadOf s h t m))).length
    let busy := ((List.range 8).filter (fun m => (threadOf s h t m).busy)).length
    (some { era := s.clk.era, tl := now s, pc := x.pc, op := op, readyOthers := others,
            busy := busy, passInsn := x.insns + 1 },
     drawCountdown h t (modSamp h (fun x => { x with
       armed := x.armed &&& ~~~(1#16 <<< t) }) s))
  else
    let c := tabGet 0 (sampOf s h).countdown t
    let s1 := modSamp h (fun x => { x with countdown := tabSet 0 x.countdown t (c - 1) }) s
    (none, if c ≤ 1 then countdownZero h t s1 else s1)

/-- Under STOP a full buffer stops sampling on the harrow (R388). -/
def sampFullLook (h : Nat) (s : State) : State :=
  if settingB s sBufMode (scHarrow h) && decide (256 ≤ (sampOf s h).buffer.length) &&
      decide ((sampOf s h).mask ≠ 0) then
    raise 0x0B03 h 0 (modSamp h (fun x => { x with mask := 0, armed := 0 }) s)
  else s

/-- Write a sample record (Table 14-5, R387, R388). Stage times the spec gives no value for are
free; `cost`: D_RETIRE, the instruction's cost where it is fixed, else the core cycles from its issue
to its result (R362). -/
def sampRecord (h t n prog : Nat) (g : Tagged) (taken faulted ended service : Bool)
    (cost : Option Nat) (s : State) : State :=
  let v := freeNat s
  let cut (x : Nat) : Nat := min 0xFFFF x
  let d0 := v % 2 ^ 20
  let d1 := v / 2 ^ 20 % 2 ^ 20
  let d2 := if service then v / 2 ^ 40 % 2 ^ 20 else 0
  let d3 := if service then v / 2 ^ 60 % 2 ^ 20 else 0
  let d4 := cost.getD (v / 2 ^ 80 % 2 ^ 20)
  let sat := [d0, d1, d2, d3, d4].any (fun d => decide (0xFFFF < d))
  let rec_ := natBytes 2 g.era.toNat ++ natBytes 8 g.tl.toNat ++ natBytes 2 (prog % 4096) ++
    natBytes 1 (h * 16) ++ natBytes 1 (t * 16 + n) ++ natBytes 2 (g.pc % 8192) ++
    natBytes 1 g.op ++ natBytes 1 (128 * bit taken + 64 * bit faulted + 32 * bit ended +
      16 * bit service + 8 * bit sat) ++
    natBytes 1 (g.readyOthers * 16 + g.busy) ++ [0] ++ natBytes 2 (cut d0) ++ natBytes 2 (cut d1) ++
    natBytes 2 (cut d2) ++ natBytes 2 (cut d3) ++ natBytes 2 (cut d4) ++ natBytes 2 g.passInsn
  let stop := settingB s sBufMode (scHarrow h)
  let full := decide (256 ≤ (sampOf s h).buffer.length)
  if full && stop then sampFullLook h (drawn s) else
  let s1 := modSamp h (fun x => { x with
    buffer := (if full then x.buffer.drop 1 else x.buffer) ++ [rec_] }) (drawn s)
  let s2 := bump cSamples (scHarrow h) 1
    (if full then bump cSampleLost (scHarrow h) 1 s1 else s1)
  let len := (sampOf s2 h).buffer.length
  let s3 := if 128 ≤ len && (sampOf s2 h).halfArmed then
      raise 0x0B02 h 0 (modSamp h (fun x => { x with halfArmed := false }) s2)
    else s2
  sampFullLook h s3

/-! The tick. -/

/-- The block with no command waiting: one cycle of the root clock passes while the root PLL
runs, one cycle of REFCLK while it is stopped, none while REFCLK is absent too (R18,
Table 1-4). Every second root cycle is one of CLK_CORE. DESIGN CHOICE, log entry 2. -/
def tick (s : State) : State :=
  if s.clk.pllRunning then
    let s1 := each rxArrive (List.range 8) (windowLook (advance 25 s))
    if coreRuns s && decide ((now s1).toNat / 25 % 2 = 0) then coreCycle s1 else s1
  else if s.clk.refclk then windowLook (advance 500 s)
  else s

end Sys2Proof.Machine
end

