-- ==== Sys2Proof/Machine/Coulter.lean ====
section
/-! DEFINITION. The coulter's walk of the parse graph, the key and the pattern search
(spec/10). -/
namespace Sys2Proof.Machine

/-! The graph image (Tables 10-2 and 10-3). -/

/-- NODE_COUNT of an image. -/
def graphNodes (img : Bytes) : Nat := (byteAt img 6).toNat
/-- LIC_ACTION: 0 DROP, 1 CLASSIFY, 2 RESULT; the reset graph drops (R300). -/
def licAction : Option Bytes → Nat
  | some img => (byteAt img 7).toNat
  | none => 0
/-- LIC_RESULT. -/
def licResult : Option Bytes → Nat
  | some img => field img 8 4
  | none => 0
/-- START entry of a SOURCE: none when DROP is set; the reset graph drops all (R300). -/
def graphStart (g : Option Bytes) (src : Nat) : Option Nat :=
  match g with
  | none => none
  | some img =>
    let b := (byteAt img (12 + src)).toNat
    if 128 ≤ b then none else some (b % 64)

/-- Node record `n`. -/
def nodeRec (img : Bytes) (n : Nat) : Bytes := slice img (64 + 160 * n) 160

/-- A byte of a node record. -/
def nb (r : Bytes) (i : Nat) : Nat := (byteAt r i).toNat

/-- Multiplier of a SCALE code. -/
def scaleOf (c : Nat) : Nat := 2 ^ (c % 4)

/-- The 16-bit word at an offset of the packet (R287). -/
def word16 (p : Bytes) (i : Nat) : Nat := field p i 2

/-- What a walk has gathered (R288, R289). -/
structure WalkAcc where
  off : Nat := 0
  end_ : Nat
  depth : Nat := 0
  stack : List (BitVec 8 × Nat) := []
  area : Bytes := List.replicate 32 0

/-- Apply the extracts of a header at `off` (R291). -/
def extracts (r p : Bytes) (off : Nat) (area : Bytes) : Bytes :=
  (List.range 8).foldl (fun a k =>
    let at_ := 128 + 4 * k
    let c := nb r (at_ + 1)
    if c < 128 then a else
    let b := slice p (off + nb r at_) (nb r (at_ + 2) % 16 + 1)
    patch a (c % 32) ((byteAt b 0 &&& byteAt r (at_ + 3)) :: b.drop 1)) area

/-- The next node: none ends the walk (R290). -/
def selectNext (r p : Bytes) (off : Nat) : Option Nat :=
  let w := word16 p (off + nb r 14)
  let v := w / 2 ^ (nb r 15 / 16) % 2 ^ (nb r 15 % 16 + 1)
  let hit := (List.range (nb r 17)).find? (fun i =>
    decide (v &&& field r (34 + 6 * i) 2 = field r (32 + 6 * i) 2))
  let c := match hit with
    | some i => nb r (36 + 6 * i)
    | none => nb r 16
  if 128 ≤ c then none else some (c % 64)

/-- The walk of R288 from a node, with at most `fuel` headers more: STOP code and what was
gathered. -/
def walkGo (img p : Bytes) (source : Nat) : Nat → Nat → WalkAcc → Nat × WalkAcc
  | 0, _, a => (1, a)
  | fuel + 1, node, a =>
    let r := nodeRec img node
    let lenMin := nb r 2
    let flags := nb r 1
    let lenMode := flags.testBit 5
    if 256 < a.off + lenMin then (2, a)
    else if a.end_ < a.off + lenMin then (3, a)
    else
      let lf := word16 p (a.off + nb r 4) / 2 ^ (nb r 5 / 16) % 2 ^ (nb r 5 % 16 + 1)
      let len : Int :=
        if lenMode then (lf * scaleOf (nb r 6 / 64) : Nat) + signed 8 (nb r 7) else lenMin
      if lenMode && (decide (len < lenMin) || decide ((nb r 3 : Int) < len)) then (4, a)
      else
        let tot := flags.testBit 4 && source != 2
        let t : Int := (word16 p (a.off + nb r 8) * scaleOf (nb r 9 / 64) : Nat) +
          signed 8 (nb r 10)
        if tot && (decide (t < len) || decide ((a.end_ : Int) < a.off + t)) then (4, a)
        else
          let nend := if tot then a.off + t.toNat else a.end_
          let n := len.toNat
          if 256 < a.off + n then (2, a)
          else if nend < a.off + n then (3, a)
          else
            let mode := flags / 4 % 4
            let frag := mode == 2 ||
              (mode == 1 && word16 p (a.off + nb r 11) &&& field r 12 2 != 0)
            let a1 : WalkAcc :=
              { off := a.off + n, end_ := nend, depth := a.depth + 1,
                stack := a.stack ++ [(byteAt r 0, a.off)], area := extracts r p a.off a.area }
            if frag then (5, a1)
            else if flags.testBit 6 then (0, a1)
            else match selectNext r p a.off with
            | none => (0, a1)
            | some next => if a1.depth = 16 then (1, a1) else walkGo img p source fuel next a1

/-! Payload patterns (R294-R298). -/

/-- Slot `k` of a pattern set, 36 bytes. -/
def patSlot (ps : PatSet) (k : Nat) : Bytes := tabGet (List.replicate 36 0) ps.slots k

/-- A pattern matches the window at `p` (R296). -/
def patAt (slot w : Bytes) (p n : Nat) : Bool :=
  decide (p + n ≤ w.length) &&
  (List.range n).all (fun i =>
    decide ((byteAt w (p + i) ^^^ byteAt slot (4 + i)) &&& byteAt slot (20 + i) = 0))

/-- Slot `k` matches somewhere it may. -/
def patMatch (ps : PatSet) (w : Bytes) (k : Nat) : Bool :=
  let slot := patSlot ps k
  let f := nb slot 0
  let n := f % 16 + 1
  f.testBit 7 &&
  (if f.testBit 6 then
    decide (n ≤ w.length) && (List.range (w.length + 1 - n)).any (fun p => patAt slot w p n)
   else patAt slot w (field slot 2 2 % 512) n)

/-- The pattern vector over a window: bit 63 - k for slot k. -/
def patVector (ps : PatSet) (w : Bytes) : Nat :=
  (List.range 64).foldl (fun v k => v * 2 + bit (patMatch ps w k)) 0

/-! The walk of a packet. -/

/-- Bytes the walk sees: the template of a sheaf, else the packet to its frame end. -/
def walkBytes (p : Pkt) : Bytes := if p.desc.isEmpty then p.body else p.body.take p.tpl

/-- The counted length of a pass (R306). -/
def pktLen (p : Pkt) : Nat := p.body.length

/-- The key of Table 10-4, with the pattern bits of `ps` written (R297). -/
def buildKey (p : Pkt) (ps : PatSet) (stop : Nat) (a : WalkAcc) (vec : Nat) (padded cut : Bool) :
    Bytes :=
  let last := a.stack.getLast?.getD (0, 0)
  let area := patch a.area ps.keyPos ((natBytes 8 vec).take ps.keyBytes)
  area ++ natBytes 1 (p.src * 32 + bit p.recirc * 16 + p.port % 16) ++
    natBytes 1 (p.cls % 8 * 32 + a.depth) ++
    natBytes 1 (stop * 32 + bit padded * 16 + bit cut * 8) ++ [last.1] ++ natBytes 1 last.2 ++
    natBytes 1 (min 255 a.off) ++ [0, 0]

/-- Walk a packet from `start` under a generation (R288-R298): STOP and what the tables and the
program receive. -/
def walkPacket (g : RuleGen) (img : Bytes) (p : Pkt) (start : Nat) : Nat × Walked :=
  let b := walkBytes p
  let (stop, a) := walkGo img b p.src 17 start { end_ := b.length }
  let ps := g.pats
  let sheaf := !p.desc.isEmpty
  let w0 := if sheaf then p.body.drop p.tpl else (b.take a.end_).drop a.off
  let w := w0.take ps.searchLen
  let skip := (stop == 5 && !ps.onFrag) || (stop == 4 && licAction (some img) == 2)
  let vec := if skip then 0 else patVector ps w
  let key := buildKey p ps stop a vec (decide (a.end_ < b.length)) (decide (w.length < ps.searchLen))
  (stop, { pkt := p, key := key, stack := a.stack, pats := BitVec.ofNat 64 vec,
           logEnd := a.end_, result := licResult (some img) })

/-- Counters of a stopped walk (R302). -/
def countWalk (stop : Nat) (vec : BitVec 64) (s : State) : State :=
  let s1 := bump cParsed scDevice 1 s
  let s2 := match stop with
    | 1 => bump cStopDepth scDevice 1 s1
    | 2 => bump cStopWindow scDevice 1 s1
    | 3 => bump cStopTrunc scDevice 1 s1
    | 4 => bump cStopLen scDevice 1 s1
    | 5 => bump cStopFrag scDevice 1 s1
    | _ => s1
  each (fun k s => if vec.getLsbD (63 - k) then bump (cPatHit k) scDevice 1 s else s)
    (List.range 64) s2

end Sys2Proof.Machine
end

