-- ==== Sys2Proof/Machine/TimeOps.lean ====
section
/-! DEFINITION. Reading the time: time of day, domain time, the output time scale and UTC (spec/01
R25-R28, spec/07 R197, R208-R216). Times are integers in 2^-8 grain since the 1588 epoch. -/
namespace Sys2Proof.Machine

/-- One second in 2^-8 grain. -/
def secUnits : Int := 53125000000 * 256

/-- The time of day of a time in 2^-8 grain, whole grains towards the past. -/
def toTod (t : Int) : Tod :=
  let g := t / 256
  { sec := BitVec.ofInt 48 (g / 53125000000), grain := (g % 53125000000).toNat }

/-- The 12 bytes of a time of day (Table 1-5). -/
def todBytes (t : Tod) : Bytes := natBytes 12 (t.sec.toNat * 2 ^ 48 + t.grain % 2 ^ 36)

/-- The 12 bytes of an optional time of day; zeros where there is none. -/
def todOptBytes : Option Tod → Bytes
  | some t => todBytes t
  | none => List.replicate 12 0

/-- A running scale: `ref` at `tl0`, at the rate 1 + y, read at timeline `t` (R208). -/
def scaleAt (ref : Int) (tl0 : BitVec 64) (y : Int) (t : BitVec 64) : Int :=
  let d := tlDiff tl0 t * 256
  ref + d + d * y / 2 ^ 48

/-- The time of a domain at timeline `t`. -/
def domTimeOf (x : Dom) (t : BitVec 64) : Option Int :=
  if x.hasValue then some (scaleAt x.ref x.tlRef x.y t) else none

/-- The time of domain `d` at timeline `t`. -/
def domTime (s : State) (d : Nat) (t : BitVec 64) : Option Int := domTimeOf (domOf s d) t

/-- The output offset O at timeline `t`: it moves towards zero at SLEW_RATE ns/s (R214), which
is 13,600 units of 2^-8 grain per second for each ns/s. -/
def outOffset (s : State) (t : BitVec 64) : Int :=
  let o := s.time.offset
  let d := tlDiff s.time.offsetAt t * (settingN s sSlewRate scDevice * 13600) / 53125000000
  if 0 < o then max 0 (o - d) else min 0 (o + d)

/-- The output time scale at timeline `t`; none until it has had a value (R211-R213). -/
def outTime (s : State) (t : BitVec 64) : Option Int :=
  if !s.time.outHas then none else
  match s.time.runOn with
  | some r => some (scaleAt r.ref r.tl r.y t)
  | none => (domTime s s.time.selected t).map (fun v => v + outOffset s t)

/-- The output time of day now. -/
def outTod (s : State) : Option Tod := (outTime s (now s)).map toTod

/-- A domain is valid (R210). -/
def domValid (s : State) (d : Nat) : Bool :=
  let x := domOf s d
  match x.st with
  | .locked => true
  | .holdover => !x.holdExpired
  | _ => false

/-- Time of day is valid: the selected domain is (R210). -/
def timeValid (s : State) : Bool := domValid s s.time.selected

/-- Servo state codes (Table 9-7). -/
def servoCode (x : ServoState) : Nat :=
  match x with
  | .disabled => 0
  | .freerun => 1
  | .acquiring => 2
  | .locked => 3
  | .holdover => 4

/-- UTC of a domain at TAI second `sec` (R197): TAI - UTC, and LI61, LI59, UTC_VALID. -/
def utcAt (x : Dom) (sec : Int) : Int × Bool × Bool × Bool :=
  match x.leapAt with
  | some e =>
    if e ≤ sec then (x.utcOffset + (if x.li61 then 1 else -1), false, false, x.utcValid)
    else (x.utcOffset, x.li61, x.li59, x.utcValid)
  | none => (x.utcOffset, x.li61, x.li59, x.utcValid)

/-- UTC of the selected domain now. -/
def utcNow (s : State) : Int × Bool × Bool × Bool :=
  utcAt (domOf s s.time.selected) (((outTime s (now s)).getD 0) / secUnits)

/-- The instance whose head end a domain follows (Table 7-1). -/
def domInst (s : State) (d : Nat) : Nat := if s.act.dual then d else 0

/-- SRC of a domain: its own number by default in single-parent mode, 0 in dual-parented mode
(Table 7-1). -/
def domSrc (s : State) (d : Nat) : Nat :=
  let v := setting s sDomSrc (scDom d)
  if v < 0 then (if s.act.dual then 0 else d) else v.toNat

/-- The time group of a domain (R190). -/
def timeGroup (s : State) (d : Nat) : Nat :=
  if s.act.dual then laneGroup s (if d = 0 then 0 else 2) else laneGroup s (timingLane s)

/-- The domain is enabled. -/
def domEnabled (s : State) (d : Nat) : Bool := settingB s sDomEnable (scDom d)

/-- Year, month and day of a day number counted from 1970-01-01 (the proleptic Gregorian
calendar). -/
def civil (z0 : Int) : Nat × Nat × Nat :=
  let z := z0 + 719468
  let era := z / 146097
  let doe := (z % 146097).toNat
  let yoe := (doe - doe / 1460 + doe / 36524 - doe / 146096) / 365
  let doy := doe - (365 * yoe + yoe / 4 - yoe / 100)
  let mp := (5 * doy + 2) / 153
  let d := doy - (153 * mp + 2) / 5 + 1
  let m := if mp < 10 then mp + 3 else mp - 9
  let y := (yoe + era * 400).toNat + (if m ≤ 2 then 1 else 0)
  (y, m, d)

end Sys2Proof.Machine
end

