-- ==== Sys2Proof/Machine/PtpOps.lean ====
section
/-! DEFINITION. The precision-time engine: claims, timestamps, message building (spec/09). The
layouts of IEEE 1588 messages, IPv4, IPv6, UDP, ARP and Neighbor Discovery are those of their own
standards (PRESUMED, log entry 13); header fields that neither the spec nor the standard fixes are
free values. -/
namespace Sys2Proof.Machine

/-- PTP_PROFILE: 0 OFF, 1 G8275_1, 2 UNICAST_V4, 3 UNICAST_V6. -/
def ptpProfile (s : State) (p : Nat) : Nat := settingN s sPtpProfile (scPort p)

/-- PORT_MAC, by default from the fused number (Table 9-1). -/
def portMac (s : State) (p : Nat) : Bytes :=
  let v := setting s sPortMac (scPort p)
  if v = 0 then [0x02, 0x4F, 0x56] ++ natBytes 2 (Config.fusedNumber.toNat % 65536) ++ natBytes 1 p
  else heldBytes 6 v

/-- IP_ADDR as its bytes; empty when none is set. -/
def portIp (s : State) (p : Nat) : Bytes :=
  let v := setting s sIpAddr (scPort p)
  if v = 0 then [] else if v < 2 ^ 40 then heldBytes 4 v else heldBytes 16 v

/-- A standby in time-only mode (R503). -/
def timeOnly (s : State) : Bool :=
  s.pair.st == .standby && settingB s sStandbyPorts scDevice

/-- The instances of a port with their time source (R260): none is the output time scale. -/
def ptpInstances (s : State) (p : Nat) : List (Bool × Option Nat) :=
  if ptpProfile s p = 0 then [] else
  match settingN s sOffer (scPort p) with
  | 0 => [(false, none)]
  | 1 => [(false, some 0)]
  | 2 => [(false, some 1)]
  | _ => [(false, some 0), (true, some 1)]

/-- domainNumber of an instance; the default depends on the profile (Table 9-1). -/
def ptpDomain (s : State) (p : Nat) (b : Bool) : Nat :=
  let v := setting s (if b then sDnB else sDnA) (scPort p)
  if v < 0 then (if ptpProfile s p = 1 then 24 else 44) + bit b else v.toNat

/-- The running instance with a domainNumber. -/
def ptpInstance (s : State) (p dn : Nat) : Option (Bool × Option Nat) :=
  (ptpInstances s p).find? (fun i => ptpDomain s p i.1 == dn)

/-- The source of an instance; none when it does not run. -/
def ptpSource (s : State) (p : Nat) (b : Bool) : Option (Option Nat) :=
  ((ptpInstances s p).find? (fun i => i.1 == b)).map (fun i => i.2)

/-- Time of a source at a timeline value. -/
def srcTime (s : State) (src : Option Nat) (t : BitVec 64) : Option Int :=
  match src with
  | none => outTime s t
  | some d => domTime s d t

/-- The domain of a source: the selected one for OUTPUT (R273). -/
def srcDom (s : State) (src : Option Nat) : Nat := src.getD s.time.selected

/-! Claims (Table 9-2, R263). -/

/-- Where the precision-time message of a claimed frame starts, and the bytes it may have. -/
def ptpAt (s : State) (p : Nat) (b : Bytes) : Option (Nat × Nat) :=
  let n := b.length
  let ty := field b 12 2
  let udp (at_ : Nat) : Option (Nat × Nat) :=
    let dport := field b (at_ + 2) 2
    if decide (at_ + 8 ≤ n) && (dport == 319 || dport == 320) then
      some (at_ + 8, min (field b (at_ + 4) 2 - 8) (n - at_ - 8))
    else none
  match ptpProfile s p with
  | 1 =>
    let da := field b 0 6
    if ty = 0x88F7 ∧ (da = 0x011B19000000 ∨ da = 0x0180C200000E) then some (14, n - 14) else none
  | 2 =>
    if ty = 0x0800 ∧ (byteAt b 14).toNat / 16 = 4 ∧ byteAt b 23 = 17 ∧
        field b 20 2 % 8192 = 0 ∧ slice b 30 4 = portIp s p then
      udp (14 + (byteAt b 14).toNat % 16 * 4)
    else none
  | 3 =>
    if ty = 0x86DD ∧ byteAt b 20 = 17 ∧ slice b 38 16 = portIp s p then udp 54 else none
  | _ => none

/-- An ARP request for IP_ADDR. -/
def isArp (s : State) (p : Nat) (b : Bytes) : Bool :=
  ptpProfile s p == 2 && field b 12 2 == 0x0806 && field b 14 2 == 1 && field b 16 2 == 0x0800 &&
  field b 20 2 == 1 && slice b 38 4 == portIp s p

/-- A Neighbor Solicitation for IP_ADDR. -/
def isNs (s : State) (p : Nat) (b : Bytes) : Bool :=
  ptpProfile s p == 3 && field b 12 2 == 0x86DD && byteAt b 20 == 58 && byteAt b 54 == 135 &&
  slice b 62 16 == portIp s p

/-- Shortest message of a messageType (IEEE 1588). -/
def ptpMin (ty : Nat) : Nat :=
  if ty = 2 ∨ ty = 3 ∨ ty = 9 ∨ ty = 10 then 54
  else if ty = 11 then 64 else if ty = 13 then 48
  else if ty = 0 ∨ ty = 1 ∨ ty = 8 ∨ ty = 12 then 44 else 34

/-- The engine takes a claimed frame without its FCS (R261-R263); none when it is not
claimed. -/
def claimFrame (p : Nat) (b : Bytes) (capture : BitVec 64) (s : State) : Option State :=
  let keep (k : Nat) : State :=
    modPort p (fun x => { x with timeIn := x.timeIn ++ [⟨k, b, capture⟩] }) s
  if isArp s p b then some (keep 2)
  else if isNs s p b then some (keep 3)
  else match ptpAt s p b with
  | none => none
  | some (at_, avail) =>
    let m := slice b at_ avail
    let ty := (byteAt m 0).toNat % 16
    let len := field m 2 2
    if avail < 34 then some (bump cPtpRxMalformed (scPort p) 1 s)
    else if (byteAt m 1).toNat % 16 ≠ 2 then some (bump cPtpRxIgnored (scPort p) 1 s)
    else if avail < len ∨ len < ptpMin ty then some (bump cPtpRxMalformed (scPort p) 1 s)
    else if (ptpInstance s p (byteAt m 4).toNat).isNone then
      some (bump cPtpRxIgnored (scPort p) 1 s)
    else if ty = 1 then some (keep 0)
    else if ty = 12 ∧ ptpProfile s p ≠ 1 then some (keep 1)
    else some (bump cPtpRxIgnored (scPort p) 1 s)

/-! Timestamps (R268-R270). -/

/-- `n` line bits in units of 2^-8 grain, to the nearest unit, halves upward (R269). A bit of a
lane is 170/33 grains in 10G mode, 68/33 in 25G and 100G mode (Table 9-4). -/
def bitUnits (tenG : Bool) (n : Int) : Int :=
  (n * (if tenG then 170 else 68) * 256 * 2 + 33) / 66

/-- Capture-to-message-point distance in 2^-8 grain (R269): 68 bits where there is no RS-FEC. With
RS-FEC and in 100G mode the bits between the two blocks follow from their places in transcoding,
parity and lanes as they pass, which no command tells: the number of bits is a free value, log
entry 45. -/
def pointDistance (s : State) (p : Nat) : Int × State :=
  let mode := settingN s sPortMode scDevice
  if mode = 1 ∨ (mode = 0 ∧ settingN s sFec (scPort p) = 0) then
    (bitUnits (decide (mode = 1)) 68, s)
  else (bitUnits false (freeNat s), drawn s)

/-- A time in 2^-8 grain as seconds, nanoseconds and 2^-16 ns (R28, R270). -/
def ptpStamp (v : Int) : Nat × Nat × Nat :=
  let sec := (v / secUnits).toNat
  let x := (v % secUnits).toNat * 8
  let r := x % 108800
  (sec, x / 108800, (2 * r * 65536 + 108800) / 217600)

/-- The ten bytes of a timestamp. -/
def stampBytes (sec ns : Nat) : Bytes := natBytes 6 sec ++ natBytes 4 ns

/-- Timestamp of a source at a capture, moved by the board delay (R268). -/
def takeStamp (p : Nat) (src : Option Nat) (t : BitVec 64) (s : State) :
    Option (Nat × Nat × Nat) × State :=
  let (d, s1) := pointDistance s p
  ((srcTime s src t).map (fun v => ptpStamp (v + d)), s1)

/-! Messages. -/

/-- sourcePortIdentity of a port (R273). -/
def ptpPortId (p : Nat) : Bytes :=
  [0x4F, 0x56, 0x44, 0xFF, 0xFE] ++ natBytes 3 Config.fusedNumber.toNat ++ natBytes 2 (p + 1)

/-- Take the next sequenceId of a kind of message. -/
def takeSeq (p : Nat) (b : Bool) (ty : Nat) (ip : Option (BitVec 128)) (s : State) :
    BitVec 16 × State :=
  let k := (match ip with
    | some a => a.toNat + 1
    | none => 0) * 32 + bit b * 16 + ty
  let q := tabGet 0 (portOf s p).seqs k
  (q, modPort p (fun x => { x with seqs := tabSet 0 x.seqs k (q + 1) }) s)

/-- A message: header of 34 bytes and body (IEEE 1588-2019). -/
def ptpMessage (p ty dn flags corr seq log : Nat) (body : Bytes) : Bytes :=
  let control := if ty = 0 then 0 else if ty = 1 then 1 else if ty = 8 then 2
    else if ty = 9 then 3 else 5
  natBytes 1 ty ++ [0x12] ++ natBytes 2 (34 + body.length) ++ natBytes 1 dn ++ [0] ++
  natBytes 2 flags ++ natBytes 8 corr ++ natBytes 4 0 ++ ptpPortId p ++ natBytes 2 seq ++
  natBytes 1 control ++ natBytes 1 log ++ body

/-- UDP checksum, zero sent as 0xFFFF. -/
def udpSum (pseudo dgram : Bytes) : Nat :=
  let v := inetSum (pseudo ++ dgram)
  if v = 0 then 0xFFFF else v

/-- Put a message into a frame without FCS (R262, R271); answers the offset of the message.
`event`: port 319, else 320. `one`: a one-step Sync. -/
def ptpFrame (s : State) (p : Nat) (dst : Option (BitVec 48 × BitVec 128)) (event one : Bool)
    (m : Bytes) : Nat × Bytes :=
  let mac := portMac s p
  let free := freeBytes s 8
  let port := if event then 319 else 320
  match dst with
  | none => (14, heldBytes 6 (setting s sMcastDa (scPort p)) ++ mac ++ [0x88, 0xF7] ++ m)
  | some (dmac, ip) =>
    let eth := natBytes 6 dmac.toNat ++ mac
    if ptpProfile s p = 2 then
      let src := portIp s p
      let dip := natBytes 4 ip.toNat
      let u0 := natBytes 2 port ++ natBytes 2 port ++ natBytes 2 (8 + m.length)
      let ck := if one then 0
        else udpSum (src ++ dip ++ natBytes 2 17 ++ natBytes 2 (8 + m.length)) (u0 ++ [0, 0] ++ m)
      let h0 := [0x45] ++ free.take 1 ++ natBytes 2 (28 + m.length) ++ (free.drop 1).take 2 ++
        [0, 0] ++ (free.drop 3).take 1 ++ [17]
      let ipck := inetSum (h0 ++ [0, 0] ++ src ++ dip)
      (42, eth ++ [0x08, 0x00] ++ h0 ++ natBytes 2 ipck ++ src ++ dip ++ u0 ++ natBytes 2 ck ++ m)
    else
      let src := portIp s p
      let dip := natBytes 16 ip.toNat
      let m' := m ++ (if one then [0, 0] else [])
      let u0 := natBytes 2 port ++ natBytes 2 port ++ natBytes 2 (8 + m'.length)
      let ck := udpSum (src ++ dip ++ natBytes 4 (8 + m'.length) ++ natBytes 4 17)
        (u0 ++ [0, 0] ++ m')
      let label := [0x60 ||| ((byteAt free 0) &&& 0x0F)] ++ (free.drop 1).take 3
      (62, eth ++ [0x86, 0xDD] ++ label ++ natBytes 2 (8 + m'.length) ++ [17] ++
        (free.drop 4).take 1 ++ src ++ dip ++ u0 ++ natBytes 2 ck ++ m')

/-- The client's grant of a message type on an instance. -/
def grantOf (s : State) (p : Nat) (b : Bool) (ip : BitVec 128) (ty : Nat) : Option Grant :=
  (portOf s p).grants.find? (fun g => g.instB == b && g.ip == ip && g.msgType.toNat == ty)

/-- A message of the engine waits at its port (R267). -/
def queueTime (p : Nat) (m : TimeMsg) (s : State) : State :=
  modPort p (fun x => { x with timeQ := x.timeQ ++ [m] }) s

/-- A waiting message may still leave: its instance's source has a value (R260), and its client
holds the grant it was built under (R266, Table 9-9). -/
def mayLeave (s : State) (p : Nat) (m : TimeMsg) : Bool :=
  (match m.src with
    | none => true
    | some src => (srcTime s src (now s)).isSome) &&
  (match m.ip with
    | none => true
    | some ip =>
      let ty := if m.kind = 2 then 11 else if m.kind = 3 then 9 else 0
      decide (3 < m.kind) || (grantOf s p m.instB ip ty).isSome)

/-- Write the timestamp of a Sync as it leaves, the last two bytes keeping a V6 checksum
valid (R270, R271). -/
def stampSync (m : TimeMsg) (st : Nat × Nat × Nat) : Bytes :=
  let b1 := putField m.bytes (m.ptpAt + 8) 8 st.2.2
  let b2 := patch b1 (m.ptpAt + 34) (stampBytes st.1 st.2.1)
  if m.v6 then
    let inserted := fold16 (wordSum (natBytes 8 st.2.2 ++ stampBytes st.1 st.2.1))
    putField b2 (m.ptpAt + 44) 2 (65535 - inserted)
  else b2

end Sys2Proof.Machine
end

