-- ==== Sys2Proof/Machine/LifeOps.lean ====
section
/-! DEFINITION. Performance bins at their boundaries (spec/06 R178-R182) and the lifetime store's
writes: checkpoints, day bins, gap entries (spec/22). -/
namespace Sys2Proof.Machine

/-! Seconds of a bin (R181). -/

/-- Grains of the bin clock's current second that have passed, on the clock of bin `b`. -/
def secTail (s : State) (b : Bin) : Nat :=
  match b.start with
  | .untimed _ _ => (now s).toNat % secGrains
  | .tod _ => match outTime s (now s) with
    | some v => (v / 256 % 53125000000).toNat
    | none => 0

/-- BIN_SECONDS of an open bin, `tail` grains of the current second having passed: the whole seconds
it covers. A bin that opened within a second covers part of the first that ended in it. -/
def binWhole (b : Bin) (tail : Nat) : Nat :=
  let g := match b.start with
    | .untimed _ t => t.toNat % secGrains
    | .tod t => t.grain
  if g = 0 then b.seconds
  else if b.seconds = 0 then 0
  else b.seconds - 1 + (secGrains - g + tail) / secGrains

/-- Count the grains spent in the present power state up to now (R574). -/
def accrue (s : State) : State :=
  let k := match s.pwr.st with
    | .run => 0
    | .doze => 1
    | .fallow => 2
    | .deepFallow => 3
  let d := (tlDiff s.life.powerAt (now s)).toNat
  { s with life := { s.life with
      powerAt := now s
      live := { s.life.live with
        powerGrains := tabMod 0 s.life.live.powerGrains k (fun v => v + d) } } }

/-! The rings of the lifetime store (R569, R571). -/

/-- Slots of a region (Table 22-1). -/
def ringSlots (r : Nat) : Nat := [64, 32, 1024, 256].getD r 0
/-- Bytes of a region's slot (Table 22-1). -/
def slotSize (r : Nat) : Nat := [2048, 1024, 40, 72].getD r 0
/-- Region `r` of a store. -/
def ringOf (l : Life) (r : Nat) : Ring := tabGet ({} : Ring) l.rings r
/-- Records that a region holds: failed slots without a spare hold none. -/
def ringCap (l : Life) (r : Nat) : Nat := ringSlots r - (ringOf l r).skipped.length

/-- The slot that the next record of region `r` goes to: the first from `next` on that is not
skipped. -/
def nextSlot (l : Life) (r : Nat) : Option Nat :=
  let x := ringOf l r
  if !x.skipped.contains x.next then some x.next
  else ((List.range (ringSlots r)).map (fun k => (x.next + k) % ringSlots r)).find?
    (fun k => !x.skipped.contains k)

/-- Slot `k` of region `r` holds a word that did not read back (R571): it is retired to a spare slot of
its size, or skipped when none is left, and counted. The size of a spare is a DESIGN CHOICE, log entry
119. -/
def retireSlot (r k : Nat) (l : Life) : Life :=
  let spare := decide (l.spareUsed + slotSize r ≤ 296960)
  let l1 := { l with live := { l.live with badSlots := l.live.badSlots + 1 } }
  if spare then
    { l1 with
      rings := tabMod ({} : Ring) l.rings r (fun x => { x with
        remap := (k, l.spareUsed) :: x.remap.filter (fun p => p.1 != k) })
      spareUsed := l.spareUsed + slotSize r }
  else
    { l1 with rings := tabMod ({} : Ring) l.rings r (fun x => { x with skipped := k :: x.skipped }) }

/-- Write a record into region `r` until it reads back: `ms` says of each write whether a word does
not (R571). -/
def writeSlot (r : Nat) : List Bool → Life → Life
  | [], l =>
    match nextSlot l r with
    | none => { l with misreads := [] }
    | some k => { l with
        misreads := [], rings := tabMod ({} : Ring) l.rings r (fun x => { x with
          next := (k + 1) % ringSlots r }) }
  | bad :: ms, l =>
    match nextSlot l r with
    | none => { l with misreads := bad :: ms }
    | some k =>
      if bad then writeSlot r ms (retireSlot r k l)
      else { l with
        misreads := ms, rings := tabMod ({} : Ring) l.rings r (fun x => { x with
          next := (k + 1) % ringSlots r }) }

/-- A record of region `r` is written (R571). -/
def putRecord (r : Nat) (l : Life) : Life := writeSlot r l.misreads l

/-- REC_SEQ of the next record of a region (R569). -/
def nextSeq : Option (BitVec 32) → BitVec 32
  | some q => q + 1
  | none => 0

/-- A checkpoint is due; within 1 s of the previous one it is skipped, unless GASP_IN asks for
it (R572). -/
def checkpoint (gasp : Bool) (s : State) : State :=
  let recent := match s.life.checkpoints with
    | c :: _ => c.era == s.clk.era && decide (tlDiff c.tl (now s) < secGrains) &&
        decide (0 ≤ tlDiff c.tl (now s))
    | [] => false
  if recent && !gasp then s else
  let s1 := accrue s
  let c : Checkpoint :=
    { seq := nextSeq (s.life.checkpoints.head?.map (·.seq)), era := s.clk.era, tl := now s,
      tod := if timeValid s then outTod s else none, summary := s1.life.live,
      dayBin := { s.sup.openDay with
        seconds := binWhole s.sup.openDay (secTail s s.sup.openDay) } }
  -- a TL_GAP that a wake reported counts only until the next checkpoint (R576)
  let gap := match s.life.gap with
    | some (true, _) => none
    | g => g
  let l := putRecord 0 s1.life
  { s1 with life := { l with
      checkpoints := (c :: s1.life.checkpoints).take (ringCap l 0), gap := gap } }

/-- A closed day bin enters the lifetime store (R182). -/
def storeDay (b : Bin) (s : State) : State :=
  let r : DayBin := { seq := nextSeq (s.life.dayBins.head?.map (·.seq)), bin := b }
  let l := putRecord 1 s.life
  { s with life := { l with dayBins := (r :: s.life.dayBins).take (ringCap l 1) } }

/-- A record body enters the ring of gap entries. -/
def storeGap (b : Bytes) (s : State) : State :=
  let r : Rec := { seq := nextSeq (s.life.gaps.head?.map (·.seq)), body := b }
  let l := putRecord 2 s.life
  { s with life := { l with
      gaps := (r :: s.life.gaps).take (ringCap l 2)
      live := { l.live with gaps := l.live.gaps + 1 } } }

/-! Bins. -/

/-- First instant of a bin that opens now. -/
def binStartNow (s : State) : BinStart :=
  match (if timeValid s then outTod s else none) with
  | some t => .tod t
  | none => .untimed s.clk.era (now s)

/-- A bin that ends at TAI second `end_` and holds the positive leap second of the selected domain is
marked LEAP (R180). -/
def binLeap (s : State) (b : Bin) (end_ : Int) : Bool :=
  let x := domOf s s.time.selected
  match b.start, x.leapAt with
  | .tod t, some e => x.li61 && decide ((t.sec.toNat : Int) < e) && decide (e ≤ end_)
  | _, _ => false

/-- Close the open bin of a kind and open another (R179, R182): `part` marks the closed one
PARTIAL, `step` both TIME_STEP, `newPart` the new one PARTIAL; `s0` is the state on whose clock the
closed bin ends, `tail` the part of its last second. A day bin goes to the lifetime store; a
15-minute close writes a checkpoint (R572). -/
def closeBin (day part step newPart : Bool) (s0 : State) (tail : Nat) (s : State) : State :=
  let b := if day then s.sup.openDay else s.sup.open15
  let leap := match outTime s0 (now s0) with
    | some v => binLeap s0 b (v / secUnits)
    | none => false
  let closed := { b with partial_ := b.partial_ || part, timeStep := b.timeStep || step,
                         leap := b.leap || leap, seconds := binWhole b tail }
  let new : Bin := { start := binStartNow s, partial_ := newPart, timeStep := step }
  if day then
    storeDay closed { s with sup := { s.sup with
      openDay := new, closedDay := (closed :: s.sup.closedDay).take 31 } }
  else
    checkpoint false { s with sup := { s.sup with
      open15 := new, closed15 := (closed :: s.sup.closed15).take 96 } }

/-- The output time stands exactly at a multiple of `n` seconds of UTC. -/
def atUtc (s : State) (n : Int) : Bool :=
  match outTime s (now s) with
  | some v =>
    let g := v / 256
    decide (g % 53125000000 = 0) && decide ((g / 53125000000 - (utcNow s).1) % n = 0)
  | none => false

/-- The timeline stands exactly at a boundary of untimed bins of `n` seconds (R178). -/
def atTimeline (s : State) (n : Nat) : Bool := decide ((now s).toNat % (n * secGrains) = 0)

/-- Time of day is valid on the bin clock (R178). -/
def binTimed (s : State) : Bool := timeValid s && (outTime s (now s)).isSome

/-- The bin clock follows the validity of time of day: when it changes, the open bins close
PARTIAL and new ones open (R179). None closes in FALLOW and DEEP_FALLOW (Table 18-2): the wake
looks again. -/
def binsLook (s : State) : State :=
  let v := binTimed s
  if v = s.sup.timed ∨ s.pwr.st = .fallow ∨ s.pwr.st = .deepFallow then s else
  let s1 := { s with sup := { s.sup with timed := v } }
  let p (n : Nat) : Bool := !(if v then atUtc s n else atTimeline s n)
  closeBin false true false (p 900) s (secTail s s.sup.open15)
    (closeBin true true false (p 86400) s (secTail s s.sup.openDay) s1)

/-- A step that the host asked for closes the open bins (R179); `s0` is the state before it. A change
of validity that comes with it closes them no second time. -/
def binsStep (s0 s : State) : State :=
  closeBin false true true true s0 (secTail s0 s.sup.open15)
    (closeBin true true true true s0 (secTail s0 s.sup.openDay)
      { s with sup := { s.sup with timed := binTimed s } })

/-- A 15-minute or day boundary of the bin clock is reached (R178); none is closed in FALLOW and
DEEP_FALLOW (Table 18-2). `misreads` says how the records' writes read back (R571). -/
def execBinClose (day : Bool) (s : State) (misreads : List Bool := []) : Out :=
  if s.pwr.st = .fallow ∨ s.pwr.st = .deepFallow then .next s
  else
    let s1 := { s with life := { s.life with misreads := misreads } }
    .next (closeBin day false false false s 0 s1)

/-! Calendar (R575, R576). -/

/-- The first authenticated time of day, and the gap entry that is due (R575, R576). `v` is the
output time. -/
def calendarResume (v : Int) (s : State) : State :=
  let l := s.life
  let t := toTod v
  let s1 :=
    match l.live.first with
    | some _ => s
    | none =>
      let c := civil ((v / secUnits - (utcNow s).1) / 86400)
      let f : FirstTod := { tod := t, year := c.1, month := c.2.1, day := c.2.2 }
      { s with life := { l with live := { l.live with first := some f } } }
  let s2 := { s1 with life := { s1.life with calendar := true, gap := none } }
  match l.gap, (l.checkpoints.head?).bind (·.tod) with
  | some (halt, tl0), some t0 =>
    let endT := v - tlDiff tl0 (now s) * 256
    let e := toTod endT
    let span := endT / 256 - ((t0.sec.toNat : Int) * 53125000000 + t0.grain)
    let s3 := { s2 with life := { s2.life with
        live := { s2.life.live with unpowered := s2.life.live.unpowered + span.toNat } } }
    storeGap (todBytes t0 ++ todBytes e ++ natBytes 1 (bit halt * 128) ++ natBytes 3 0 ++
      natBytes 4 l.live.boots) s3
  | _, _ => s2

/-- Look whether the calendar resumes: the output has a value from a domain with a time key
(R575), after a cold boot or a wake that reported TL_GAP. -/
def calendarLook (s : State) : State :=
  if s.life.calendar && s.life.gap.isNone then s
  else if s.time.runOn.isSome || (targetKey s 4 s.time.selected 0).isNone then s
  else match outTime s (now s) with
    | some v => calendarResume v s
    | none => s

end Sys2Proof.Machine
end

