-- ==== Sys2Proof/Machine/Servo.lean ====
section
/-! DEFINITION. The output time scale's selection and offset, and the domain servos (spec/07,
R208-R216). -/
namespace Sys2Proof.Machine

/-- Give O a value from now on (R213). -/
def setOffset (o : Int) (s : State) : State :=
  { s with time := { s.time with offset := o, offsetAt := now s } }

/-- The output steps: EV_TIME_STEP (R212, R216). -/
def outStepped (s : State) : State :=
  raise 0x0606 0 0 { s with time := { s.time with stepped := true } }

/-- The output takes the selected domain's time with O = 0 (R212, R216). -/
def outTake (s : State) : State :=
  outStepped (setOffset 0 { s with time := { s.time with
    outHas := true, runOn := none, stepDue := false } })

/-- The output follows the selected domain again, with O the difference (R213). `out`: the output
before the change. -/
def outFollow (out : Option Int) (s : State) : State :=
  match out, domTime s s.time.selected (now s) with
  | some v, some d => setOffset (v - d) { s with time := { s.time with runOn := none } }
  | _, _ => s

/-- The output runs on from its value at the rate of the domain it followed (R213). -/
def outRunOn (out : Option Int) (y : Int) (s : State) : State :=
  match s.time.runOn, out with
  | some _, _ => s
  | none, some v =>
    setOffset 0 { s with time := { s.time with runOn := some { ref := v, tl := now s, y := y } } }
  | none, none => s

/-- Bins and calendar follow (R179, R575). -/
def timeLook (s : State) : State := calendarLook (binsLook s)

/-- The selected domain becomes `d` (R213, R215, R216). `step`: the host asked for a step. -/
def selectDomain (d : Nat) (step : Bool) (s : State) : State :=
  let old := s.time.selected
  if d = old && !step then s else
  let out := outTime s (now s)
  let y := (domOf s old).y
  let s1 := { s with time := { s.time with selected := d, stepDue := false } }
  let s2 := if d = old then s1 else raise 0x0608 0 d s1
  let has := (domTime s2 d (now s2)).isSome
  timeLook (
    if !s2.time.outHas then (if has then outTake s2 else s2)
    else if step then
      if has then binsStep s (outTake s2)
      else
        let s3 := outRunOn out y s2
        { s3 with time := { s3.time with stepDue := true } }
    else if has then outFollow out s2
    else outRunOn out y s2)

/-- AUTO selects the other domain when the selected one is not LOCKED and the other has been
LOCKED for 16 consecutive used records (R215). -/
def autoSelect (s : State) : State :=
  let d := s.time.selected
  let o := 1 - d
  if settingB s sSelectMode scDevice && decide ((domOf s d).st ≠ .locked) &&
      decide ((domOf s o).st = .locked) && decide (16 ≤ (domOf s o).lockedRun) then
    selectDomain o false s
  else s

/-- A servo changes state: EV_TIME_SERVO_STATE (Table 7-11). Raised at every change: DEDUCED, log
entry 6. -/
def setServo (d : Nat) (dest : ServoState) (s : State) : State :=
  let old := (domOf s d).st
  if old = dest then s else
  raise 0x0605 d (servoCode old * 256 + servoCode dest)
    (modDom d (fun x => { x with st := dest, inRun := 0, overRun := 0, lockedRun := 0 }) s)

/-- The selected domain's time has jumped by `delta`: O absorbs it (R213). -/
def outJump (d : Nat) (delta : Int) (s : State) : State :=
  if d = s.time.selected && s.time.outHas && s.time.runOn.isNone then
    setOffset (outOffset s (now s) - delta) s
  else s

/-- A domain step by e (R208, R209). -/
def domStep (d : Nat) (e : Int) (s : State) : State :=
  let o := outJump d e s
  bump cServoStep (scDom d) 1 (modDom d (fun x => { x with ref := x.ref + e }) o)

/-- The domain leaves FREERUN with the measurement as its reference pair (Table 7-11, R212,
R213). -/
def leaveFreerun (d : Nat) (a : BitVec 64) (tod : Int) (s : State) : State :=
  let before := domTime s d (now s)
  let out := outTime s (now s)
  let s1 := setServo d .acquiring (modDom d (fun x =>
    { x with ref := tod, tlRef := a, y := 0, hasValue := true, lastE := 0 }) s)
  if d ≠ s.time.selected then s1
  else if !s1.time.outHas then outTake s1
  else if s1.time.runOn.isSome then
    if s1.time.stepDue then binsStep s (outTake s1) else outFollow out s1
  else
    match before, domTime s1 d (now s1) with
    | some b, some n => setOffset (outOffset s1 (now s1) - (n - b)) s1
    | _, _ => s1

/-- The servo update of R208: y grows by ki * e and TOD_ref by kp * e, TL_ref staying (log entry 7).
The gains, which the spec does not give, are free values; each product is rounded down to its unit
(DESIGN CHOICE, log entry 38). -/
def servoUpdate (d : Nat) (e : Int) (interval : Nat) (s : State) : State :=
  let bw := settingN s sServoBw (scDom d)
  modDom d (fun x =>
    { x with
      ref := x.ref + Config.servoKp bw interval * e / 2 ^ 32
      y := x.y + Config.servoKi bw interval * e / 2 ^ 32 }) s

/-- A used record drives the servo (Table 7-11): arrival, TOD_arr and the interval in swaths. -/
def servoRecord (d : Nat) (a : BitVec 64) (tod : Int) (interval : Nat) (s : State) : State :=
  let x := domOf s d
  let e := tod - scaleAt x.ref x.tlRef x.y a
  let abs : Int := if e < 0 then -e else e
  let limit : Int := settingN s sStepLimit (scDom d) * 256
  let thresh : Int := settingN s sLockThresh (scDom d) * 256
  let acquiring (s : State) : State :=
    if limit < abs then domStep d e (modDom d (fun x => { x with inRun := 0 }) s)
    else
      let s1 := servoUpdate d e interval s
      if abs ≤ thresh then
        let n := (domOf s1 d).inRun + 1
        if 16 ≤ n then setServo d .locked s1 else modDom d (fun x => { x with inRun := n }) s1
      else modDom d (fun x => { x with inRun := 0 }) s1
  let s0 := if x.st = .freerun then s else modDom d (fun x => { x with lastE := e }) s
  let s1 :=
    match x.st with
    | .disabled => s
    | .freerun => leaveFreerun d a tod s0
    | .acquiring => acquiring s0
    | .locked =>
      let s2 := modDom d (fun x => { x with lockedRun := x.lockedRun + 1 }) s0
      if limit < abs then
        if 4 ≤ x.overRun + 1 then setServo d .acquiring (domStep d e s2)
        else modDom d (fun x => { x with overRun := x.overRun + 1 }) s2
      else servoUpdate d e interval (modDom d (fun x => { x with overRun := 0 }) s2)
    | .holdover =>
      if (supDomOf s d).ltm || (supDomOf s d).taf then s
      else acquiring (setServo d .acquiring s0)
  let keep := settingN s sHoldAvg (scDom d)
  autoSelect (timeLook (modDom d (fun x => { x with yHist := (x.y :: x.yHist).take keep }) s1))

/-- LTM or TAF raised, used records missing, or E5: a LOCKED servo holds over, an ACQUIRING one
returns to FREERUN keeping phase and y (Table 7-11). At the change of y the domain's time runs on from
its value (R217): DEDUCED, log entry 7. -/
def servoLose (d : Nat) (s : State) : State :=
  let x := domOf s d
  match x.st with
  | .locked =>
    let n := x.yHist.length
    let mean := if n = 0 then x.y else x.yHist.sum / (n : Int)
    let s1 := modDom d (fun x =>
      { x with ref := scaleAt x.ref x.tlRef x.y (now s), tlRef := now s, y := mean,
               holdoverStart := now s,
               holdExpired := decide (settingN s sHoldValid (scDom d) = 0) }) s
    autoSelect (timeLook (setServo d .holdover s1))
  | .acquiring => autoSelect (timeLook (setServo d .freerun s))
  | _ => s

/-- A domain is enabled: FREERUN without a value, and LTM present (Table 7-11, Table 6-1). -/
def domEnable (d : Nat) (s : State) : State :=
  let s1 := modSupDom d (fun x => { x with lastAccepted := none, tafRun := 0 }) (setServo d .freerun s)
  setDomDefect d false true s1

/-- A domain is disabled: its time, reference pair and y are discarded, LTM and TAF cleared
without events, its quality 0xF0 (Table 7-11, Table 6-7, R196, R213). -/
def domDisable (d : Nat) (s : State) : State :=
  let out := outTime s (now s)
  let y := (domOf s d).y
  let s1 := modSupDom d (fun x => { x with ltm := false, taf := false, lastAccepted := none,
                                           tafRun := 0 }) s
  let s2 := modDom d (fun x => { x with ref := 0, tlRef := 0, y := 0, hasValue := false,
                                        quality := 0xF0, yHist := [] }) s1
  let s3 := if d = s.time.selected && s.time.outHas then outRunOn out y s2 else s2
  supLook (autoSelect (timeLook (setServo d .disabled s3)))

end Sys2Proof.Machine
end

