-- ==== Sys2Proof/Machine/Ports.lean ====
section
/-! DEFINITION. Server ports: link state, reception, filters, transmission (spec/08, spec/15
R406, R407). -/
namespace Sys2Proof.Machine

/-! Link state (Table 8-3). -/

/-- Lanes of a port (Table 8-1). -/
def portLanes (s : State) (p : Nat) : List Nat :=
  if mode100 s then [p, p + 1, p + 2, p + 3] else [p]

/-- PCS status of a port (R232, R233). `locks`: block lock of its lanes; `up`: the rest of the
conjunction, alignment and FEC alignment where the mode has them, and no hi_ber. PCS status is true
when both hold of every lane. -/
def execPcsStatusChange (port : Fin 8) (up : Bool) (locks : BitVec 4) (s : State) : Out :=
  let x := portOf s port
  let need := (List.range (portLanes s port).length).all (fun i => locks.getLsbD i)
  if x.link = .disabled ∨ !s.clk.hrefclk then .next s
  else if up && need then
    let s1 := modPort port (fun x => { x with pcsUp := true, hiBer := false, locks := locks }) s
    .next (if x.link = .down then setLink port .rising s1 else s1)
  else .next (pcsFalse port (modPort port (fun x => { x with
    locks := locks, hiBer := x.hiBer && !up }) s))

/-- RISING or FAULT ends in UP when nothing stands against it (Table 8-3). -/
def linkUpLook (p : Nat) (s : State) : State :=
  let x := portOf s p
  if x.pcsUp && !x.faultSeen && (x.link == .fault || (x.link == .rising && x.delayDone)) then
    setLink p .up s
  else s

/-- The LINK_UP_DELAY timer expires in RISING (Table 8-3). With a fault ordered set in the last
128 columns the port waits for their end. -/
def execLinkUpDelayExpiry (port : Fin 8) (s : State) : Out :=
  if (portOf s port).link = .rising then
    .next (linkUpLook port (modPort port (fun x => { x with delayDone := true }) s))
  else .next s

/-- A Local or Remote Fault ordered set is received (Table 8-3). -/
def execFaultOrderedSetRx (port : Fin 8) (remote : Bool) (s : State) : Out :=
  let x := portOf s port
  if x.link = .disabled ∨ !x.pcsUp then .next s
  else
    let s1 := modPort port (fun x => { x with faultSeen := true, remoteFault := remote }) s
    .next (if x.link = .up then setLink port .fault s1 else s1)

/-- 128 columns without a fault ordered set (Table 8-3). -/
def execFaultCleared (port : Fin 8) (s : State) : Out :=
  .next (linkUpLook port (modPort port (fun x => { x with faultSeen := false }) s))

/-- A lane of an enabled port loses block lock (R234). -/
def execBlockLockLoss (port : Fin 8) (lane : Fin 4) (s : State) : Out :=
  let x := portOf s port
  if x.link = .disabled ∨ (portLanes s port).length ≤ lane.val ∨ !x.locks.getLsbD lane.val then
    .next s
  else
    .next (pcsFalse port (bump cBlockLockLoss (scPort port) 1
      (modPort port (fun x => { x with locks := x.locks &&& ~~~(1#4 <<< lane.val) }) s)))

/-- A port enters hi_ber (R234). -/
def execHiBer (port : Fin 8) (s : State) : Out :=
  let x := portOf s port
  if x.link = .disabled then .next s
  else
    .next (pcsFalse port (bump cHiBer (scPort port) 1
      (modPort port (fun x => { x with hiBer := true }) s)))

/-- The port of a server lane, and the lane's place in it. -/
def lanePort (s : State) (l : Nat) : Nat × Nat :=
  if mode100 s then (l / 4 * 4, l % 4) else (l, 0)

/-- Server lane `l`. -/
def slaneOf (s : State) (l : Nat) : SLane := tabGet ({} : SLane) s.slanes l
/-- Change server lane `l`. -/
def modSLane (l : Nat) (f : SLane → SLane) (s : State) : State :=
  { s with slanes := tabMod ({} : SLane) s.slanes l f }

/-- The scope under which a server lane's own settings stand. -/
def scSlane (l : Nat) : Nat := scopeCode 0x07 l

/-- In ADAPT mode a lane's CTLE code moves one step, only with block lock and within its limits
(R226). -/
def execSlCtleAdapt (lane : Fin 8) (up : Bool) (s : State) : Out :=
  let (p, i) := lanePort s lane
  let adapt := decide (setting s sSlCtleMode (scSlane lane) = 1)
  let lo := settingN s sSlAdaptMin (scSlane lane)
  let hi := settingN s sSlAdaptMax (scSlane lane)
  let c := (slaneOf s lane).code
  if adapt && (portOf s p).locks.getLsbD i && (if up then decide (c < hi) else decide (lo < c)) then
    .next (modSLane lane (fun x => { x with code := if up then c + 1 else c - 1 }) s)
  else .next s

/-- HREFCLK is absent: every enabled port DOWN, its lanes at electrical idle (R231). -/
def execHrefclkLost (s : State) : Out :=
  if !s.clk.hrefclk then .next s
  else
    let s1 := raise 0x0703 0 0 { s with clk := { s.clk with hrefclk := false } }
    .next (each (fun p s => pcsFalse p (modPort p (fun x => { x with locks := 0 }) s))
      (List.range 8) s1)

/-- HREFCLK returns; the ports restart from DOWN (R231). -/
def execHrefclkReturn (s : State) : Out :=
  .next { s with clk := { s.clk with hrefclk := true } }

/-- A pause time ends (R242). -/
def execPauseExpiry (port : Fin 8) (s : State) : Out :=
  .next (modPort port (fun x => { x with pauseUntil := none }) s)

/-! Reception. -/

/-- The capture that a frame carries: none is taken on the FIO (R11), and what it then carries is
free (log entry 107). -/
def rxCapture (capture : BitVec 64) (s : State) : BitVec 64 × State :=
  if s.clk.onFio then (BitVec.ofNat 64 (freeNat s), drawn s) else (capture, s)

/-- A frame's first byte (R392): the filter table, MAX_FRAME and capture that hold for it; the
floor. Once intake has stopped a frame takes no bushel: it is received to its end and refused there
(Table 18-5, log entry 105). -/
def execRxFrameStart (port : Fin 8) (capture : BitVec 64) (s : State) : Out :=
  let x := portOf s port
  if x.link = .disabled ∨ !x.pcsUp ∨ x.rx.isSome then .next s
  else
    let stopped := s.pwr.intakeStopped
    let ok := floorOk s
    let (cap, s0) := rxCapture capture s
    let rx : RxState :=
      { capture := cap, filters := x.filters, defaultDrop := x.defaultDrop,
        defaultClass := x.defaultClass, maxFrame := maxFrame s port,
        bushels := bit (ok && !stopped), noBuf := !ok && !stopped,
        begun := now s, refused := stopped }
    let s1 := modPort port (fun x => { x with rx := some rx }) s0
    .next (if stopped then s1 else if ok then takeBushels 1 s1 else bump cFloorDrop scDevice 1 s1)

/-- Size bin of a frame length (Table 8-8). -/
def sizeBin (n : Nat) : Nat :=
  if n ≤ 64 then 0 else if n ≤ 127 then 1 else if n ≤ 255 then 2 else if n ≤ 511 then 3
  else if n ≤ 1023 then 4 else if n ≤ 1518 then 5 else if n ≤ 2047 then 6 else if n ≤ 4095 then 7
  else 8

/-- The FCS of a frame is right. -/
def fcsOk (b : Bytes) : Bool :=
  decide (4 ≤ b.length) && b.drop (b.length - 4) == fcsBytes (b.take (b.length - 4))

/-- The tags of a frame (R245): outer kind (0 none, 1 C, 2 S), an inner tag, offset of the
EtherType after them. -/
def frameTags (s : State) (p : Nat) (b : Bytes) : Nat × Bool × Nat :=
  let e := field b 12 2
  let outer := if e = 0x8100 then 1 else if e = settingN s sSTpid (scPort p) then 2 else 0
  if outer = 0 then (0, false, 12)
  else if field b 16 2 = 0x8100 then (outer, true, 20)
  else (outer, false, 16)

/-- Compare under a mask; a tag the frame lacks matches only a zero mask (R245). -/
def maskEq (present : Bool) (v want mask : Nat) : Bool :=
  if present then decide (v &&& mask = want &&& mask) else decide (mask = 0)

/-- A filter entry matches a frame (Table 8-5; bits as Table 21-8 lays them out). -/
def filterMatch (s : State) (p : Nat) (b : Bytes) (e : BitVec 128) : Bool :=
  let f (hi lo : Nat) : Nat := bits e.toNat hi lo
  let (outer, inner, at_) := frameTags s p b
  let o := field b 14 2
  let i := field b 18 2
  e.getLsbD 127 &&
  (match f 126 125 with
    | 0 => true
    | 1 => outer == 0
    | 2 => outer == 1
    | _ => outer == 2) &&
  maskEq (outer != 0) (o % 4096) (f 124 113) (f 112 101) &&
  maskEq (outer != 0) (o / 8192) (f 100 98) (f 97 95) &&
  (match f 94 93 with
    | 0 => true
    | 1 => !inner
    | 2 => inner
    | _ => false) &&
  maskEq inner (i % 4096) (f 92 81) (f 80 69) &&
  maskEq inner (i / 8192) (f 68 66) (f 65 63) &&
  maskEq true (field b at_ 2) (f 62 47) (f 46 31)

/-- The lowest entry that matches, with its index. -/
def filterFind (s : State) (p : Nat) (b : Bytes) : Nat → List (BitVec 128) →
    Option (Nat × BitVec 128)
  | _, [] => none
  | n, e :: es => if filterMatch s p b e then some (n, e) else filterFind s p b (n + 1) es

/-- A pause starts: `n` times 512 bit times at the MAC rate (R242). -/
def startPause (p n : Nat) (s : State) : State :=
  modPort p (fun x => { x with
    pauseNext := none,
    pauseUntil := if n = 0 then none
      else some (tlAdd (now s) (n * (byteTime4 s * 16) : Nat)) }) s

/-- A PAUSE frame (R242): while a frame is being sent the pause starts after it (Table 8-9). -/
def takePause (p n : Nat) (s : State) : State :=
  if (portOf s p).tx.isSome then
    modPort p (fun x => { x with pauseNext := some n, pauseUntil := none }) s
  else startPause p n s

/-- The bushels of a frame in reception go back to the pool. -/
def rxRelease (r : RxState) (s : State) : State := freeBushels r.bushels s

/-- A frame passes the filters to its class or is dropped (R246, R247); once intake has stopped one
that would pass is refused (Table 18-5). -/
def filterFrame (p : Nat) (r : RxState) (b : Bytes) (s : State) : State :=
  let hit := filterFind s p b 0 r.filters
  let s1 := match hit with
    | some (n, _) => bump (cFilterHits n) (scPort p) 1 s
    | none => s
  let drop := match hit with
    | some (_, e) => e.getLsbD 30
    | none => r.defaultDrop
  let cls : BitVec 8 := match hit with
    | some (_, e) => BitVec.ofNat 8 (bits e.toNat 29 27)
    | none => r.defaultClass
  if drop then bump cRxDropFilter (scPort p) 1 (rxRelease r s1)
  else if r.refused then bump cDrainDrop scDevice 1 s1
  else if r.noBuf then bump cRxDropNobuf (scPort p) 1 (rxRelease r s1)
  else
    let pkt : InPkt :=
      { line := false, port := p, group := 0, lotId := 0, label := 0, cls := cls, bytes := b,
        fcsKept := true, bushels := r.bushels, capture := r.capture }
    { s1 with inQ := s1.inQ ++ [pkt] }

/-- The type counter of a data frame by its destination (Table 8-8); `rx` side or not. -/
def typeCtr (rx : Bool) (b : Bytes) : CtrId :=
  if field b 0 6 = 2 ^ 48 - 1 then (if rx then cRxBroadcast else cTxBroadcast)
  else if (byteAt b 0).getLsbD 0 then (if rx then cRxMulticast else cTxMulticast)
  else if rx then cRxUnicast else cTxUnicast

/-- A frame of the first row of Table 8-4 is consumed or goes to the filters (R242, R243). -/
def acceptFrame (p : Nat) (r : RxState) (b : Bytes) (s : State) : State :=
  let sc := scPort p
  let s1 := bump cRxFramesOk sc 1 (bump cRxOctetsOk sc b.length s)
  if field b 12 2 = 0x8808 then
    let s2 := bump cRxPause sc 1 (rxRelease r s1)
    if field b 14 2 = 1 ∧ settingB s sPauseRx sc then takePause p (field b 16 2) s2 else s2
  else
    let capture := tlAdd r.capture (-(setting s sTsBoardRx sc))
    match claimFrame p (b.take (b.length - 4)) capture s1 with
    | some s2 => bump cRxTime sc 1 (rxRelease r s2)
    | none =>
      let s2 := bump (typeCtr true b) sc 1 s1
      if timeOnly s then bump cRxDropStandby sc 1 (rxRelease r s2) else filterFrame p r b s2

/-- Ordered sets of a gap that repeat the one before them (R228). -/
def repeatedSets : List (BitVec 32) → Nat
  | [] => 0
  | [_] => 0
  | a :: b :: rest => bit (a == b) + repeatedSets (b :: rest)

/-- Columns that rate matching may delete in the gap before a frame: idle columns as long as 5 idle
characters remain, and ordered sets that repeat the one before (R228). -/
def deletable (frame : RxFrame) : Nat := (frame.gapIdles - 5) / 4 + repeatedSets frame.gapSets

/-- What the receiver has met up to the end of a frame, whatever becomes of the frame: columns that
rate matching inserted and deleted, invalid blocks, and RS-FEC codewords (R228, R239, Table 8-8).
Columns that the gap does not let go wait for the next gap; what the difference of the clocks asks
is the environment's (log entry 106). -/
def rxNoted (port : Nat) (frame : RxFrame) (s : State) : State :=
  let sc := scPort port
  let asked := (portOf s port).owed + frame.idleDeleted
  let gone := min asked (deletable frame)
  let s1 := modPort port (fun x => { x with owed := asked - gone }) s
  let s2 := bump cIdleInsert sc frame.idleInserted (bump cIdleDelete sc gone
    (bump cRxBlockErr sc (frame.blockErrs + frame.blockErrsBefore) s1))
  bump cFecCwCorrected sc frame.fecCorrected (bump cFecSymCorrected sc frame.fecSymbols
    (bump cFecCwUncorrectable sc frame.fecUncorrectable s2))

/-- A received frame leaves the receiver: the bushels it holds in the end, what was taken beyond
its length given back (R236, R237, R391). -/
def rxTaken (port : Nat) (frame : RxFrame) (r0 : RxState) (s : State) : RxState × State :=
  let n := frame.bytes.length
  let s1 := modPort port (fun x => { x with rx := none }) s
  let (r, s2) := rxBushels r0 n (bump cRxOctets (scPort port) (min n (r0.maxFrame + 1)) s1)
  let keep := min r.bushels (max 1 (bushelsOf (min n (r0.maxFrame + 1))))
  ({ r with bushels := keep }, freeBushels (r.bushels - keep) s2)

/-- A frame has no error indication and a right FCS: no error character or invalid block, no
uncorrectable RS-FEC codeword (R225), not cut by the loss of PCS status (R239). -/
def rxGood (r : RxState) (frame : RxFrame) : Bool :=
  frame.blockErrs == 0 && frame.fecUncorrectable == 0 && !r.cut && fcsOk frame.bytes

/-- A received frame ends: it is counted and classified (R237-R239, R254, R255). -/
def execRxFrameEnd (port : Fin 8) (frame : RxFrame) (s0 : State) : Out :=
  let s := if (portOf s0 port).link = .disabled then s0 else rxNoted port frame s0
  match (portOf s port).rx with
  | none => .next s
  | some r0 =>
    let sc := scPort port
    let b := frame.bytes
    let n := b.length
    let good := rxGood r0 frame
    let (r, s4) := rxTaken port frame r0 s
    if r.maxFrame < n then
      .next (bump (if good then cRxOversize else cRxJabber) sc 1 (rxRelease r s4))
    else if n < 64 then
      .next (if n = 0 then rxRelease r s4
        else bump (if good then cRxRunt else cRxFragment) sc 1 (rxRelease r s4))
    else
      let s5 := bump (cRx64 (sizeBin n)) sc 1 s4
      .next (if good then acceptFrame port r b s5 else bump cRxFcsErr sc 1 (rxRelease r s5))

/-! Transmission. -/

/-- The port can start a frame: UP, not paused, nothing in transmission. -/
def canStart (s : State) (p : Nat) : Bool :=
  s.pwr.st != .fallow && s.pwr.st != .deepFallow &&
  let x := portOf s p
  x.link == .up && x.pauseUntil.isNone && x.tx.isNone

/-- Start a frame of the precision-time engine: its FCS is appended, a Sync is timestamped as it
leaves (R267-R270), under the settings it was built with (R258). -/
def startTimeMsg (p : Nat) (m : TimeMsg) (s : State) : State :=
  let send (b : Bytes) (s : State) : State :=
    modPort p (fun x => { x with
      tx := some { bytes := withFcs b, queue := none, kind := m.kind } }) s
  if m.kind = 0 then
    match m.src with
    | none => s
    | some src =>
      let (st, s1) := takeStamp p src (tlAdd (now s) m.board) s
      match st with
      | none => s1
      | some st =>
        if m.oneStep then send (stampSync m st) s1
        else
          let due : FollowDue :=
            { instB := m.instB, ip := m.ip, seq := BitVec.ofNat 16 (field m.bytes (m.ptpAt + 30) 2),
              sec := BitVec.ofNat 48 st.1, ns := BitVec.ofNat 32 st.2.1,
              frac := BitVec.ofNat 64 st.2.2 }
          send m.bytes (modPort p (fun x => { x with follow := x.follow ++ [due] }) s1)
  else send m.bytes s

/-- Start the engine's next waiting frame, ahead of every queued frame (R267). Frames that may no
longer leave are dropped. -/
def startTime (p : Nat) (s : State) : State :=
  let q := (portOf s p).timeQ
  if canStart s p && !q.isEmpty then
    match q.dropWhile (fun m => !mayLeave s p m) with
    | [] => modPort p (fun x => { x with timeQ := [] }) s
    | m :: rest => startTimeMsg p m (modPort p (fun x => { x with timeQ := rest }) s)
  else s

/-- A frame built by the engine is ready; it goes nowhere while the port is not UP. -/
def sendTime (p : Nat) (m : TimeMsg) (s : State) : State :=
  if (portOf s p).link = .up then startTime p (queueTime p m s) else s

/-- The head of a downstream queue must be discarded (R240, R252, R503), and by which counter. -/
def headBad (s : State) (p q : Nat) : Option CtrId :=
  match (dsOf s q).frames with
  | [] => none
  | f :: _ =>
    if timeOnly s && !f.time then some cTxDropStandby
    else if f.sheaf then
      if f.seg = 0 ∧ sheafRefused s p f then some cTxDropSheaf
      else if maxFrame s p < frameL s true q f then some cTxDropOversize else none
    else if maxFrame s p < lenOut f then some cTxDropOversize
    else none

/-- Discard the head of a queue: a plain frame or a refused sheaf whole, of another sheaf its next
segment, the rest staying until its last (R253). -/
def dropNext (p q : Nat) (s : State) : State :=
  match (dsOf s q).frames with
  | [] => s
  | f :: rest =>
    let c := cutSize s p f
    let n := min c.toNat (sheafPayload f - f.sent)
    if !f.sheaf || (decide (f.seg = 0) && sheafRefused s p f) ||
        decide (c < 1 ∨ sheafPayload f ≤ f.sent + n) then dropHead true q s
    else
      let f' : Frame := { f with seg := f.seg + 1, cut := c.toNat, sent := f.sent + n }
      modDs q (fun k => { k with frames := f' :: rest }) s

/-- Discard bad heads of a queue, each segment of a sheaf a frame (R240, R253); at most `fuel` of
them. -/
def dropBad (p q : Nat) : Nat → State → State
  | 0, s => s
  | fuel + 1, s =>
    match headBad s p q with
    | none => s
    | some c => dropBad p q fuel (bump c (scPort p) 1 (dropNext p q s))

/-- A queue of the port with its head frame is eligible (R406). -/
def dsEligible (s : State) (q : Nat) : Bool :=
  queueExists s true q && queueEnabled s true q && !(dsOf s q).frames.isEmpty &&
  shaperOpen s (scDsQueue q)

/-- The charge of a queue's head frame (R402). -/
def dsCharge (s : State) (q : Nat) : Int :=
  match (dsOf s q).frames with
  | [] => 0
  | f :: _ => (frameL s true q f : Int) + queueOverhead s true q

/-- The queue the port's arbiter selects, and the port's arbiter after it (R406). -/
def dsPick (s : State) (p : Nat) : Option (Nat × Arbiter) :=
  let a := portArb s p
  let es := ((List.range 8).map (fun c => p * 8 + c)).filter (dsEligible s)
  match es.reverse.find? (fun q => settingB s sQStrict (scDsQueue q)) with
  | some q => some (q, a)
  | none =>
    (arbPick a (es.map (fun q => (q, dsCharge s q, settingN s sQWeight (scDsQueue q))))).map
      (fun (q, f) => (q, arbServe q f a))

/-- Put the head of queue `q` into transmission: a plain frame completed under R240, or the next
segment of a sheaf (R249, R253). -/
def startHead (p q : Nat) (s : State) : State :=
  match (dsOf s q).frames with
  | [] => s
  | f :: rest =>
    let len := frameL s true q f
    let put (t : TxNow) (s : State) : State := modPort p (fun x => { x with tx := some t }) s
    if f.sheaf then
      let c := (cutSize s p f).toNat
      let body := sheafSegment f c f.seg
      let n := min c (sheafPayload f - f.sent)
      let last := decide (sheafPayload f ≤ f.sent + n)
      let s1 := if body.length < 60 then bump cTxPadded (scPort p) 1 s else s
      let f' : Frame := { f with seg := f.seg + 1, cut := c, sent := f.sent + n }
      let s2 := modDs q (fun k => { k with frames := if last then rest else f' :: rest }) s1
      put { bytes := withFcs body, queue := some q, segment := true,
            bushels := if last then f.bushels else 0,
            ends := if last then some len else none } s2
    else
      let (b, padded) := completed f
      let s1 := if padded then bump cTxPadded (scPort p) 1 s else s
      put { bytes := b, queue := some q, bushels := f.bushels, ends := some len }
        (modDs q (fun k => { k with frames := rest }) s1)

/-- A port's transmitter can start a frame (R406, R407): a frame of the precision-time engine
first, else the queue its arbiter selects through the shapers. -/
def execDsSchedulingDecision (port : Fin 8) (s : State) : Out :=
  let s0 := startTime port s
  if !canStart s0 port then .next s0
  else
    let s1 := each (fun q s => dropBad port q ((dsOf s q).frames.map (framesLeft s port)).sum s)
      ((List.range 8).map (fun c => port.val * 8 + c)) s0
    if !shaperOpen s1 (scPort port) then .next s1
    else match dsPick s1 port with
    | none => .next s1
    | some (q, a) =>
      let c := dsCharge s1 q
      let s2 := shaperCharge (scPort port) c (shaperCharge (scDsQueue q) c
        (modPortArb port (fun _ => a) s1))
      .next (startHead port q s2)

/-- The counters of a frame sent (R255, Table 8-8, Table 9-8). -/
def countSent (p : Nat) (t : TxNow) (s : State) : State :=
  let sc := scPort p
  let b := t.bytes
  let s1 := bump (cTx64 (sizeBin b.length)) sc 1
    (bump cTxFrames sc 1 (bump cTxOctets sc b.length s))
  let s2 :=
    if field b 12 2 = 0x8808 then bump cTxPause sc 1 s1
    else if t.queue.isNone then bump cTxTime sc 1 s1
    else bump (typeCtr false b) sc 1 s1
  let s3 := if t.segment then bump cTxSheafSegments sc 1 s2 else s2
  if t.queue.isSome then s3
  else match t.kind with
  | 0 => bump cPtpSyncTx sc 1 s3
  | 1 => bump cPtpFollowupTx sc 1 s3
  | 2 => bump cPtpAnnounceTx sc 1 s3
  | 3 => bump cPtpDelayRespTx sc 1 s3
  | _ => s3

/-- The last byte of a frame has been sent; the bushels of its stored frame are released
(R391, R419); a pause that came meanwhile starts (Table 8-9). The engine's next frame starts at this boundary (R267). -/
def execTxFrameDone (port : Fin 8) (s : State) : Out :=
  match (portOf s port).tx with
  | none => .next s
  | some t =>
    let s0 := countSent port t (modPort port (fun x => { x with tx := none }) s)
    let s1 := match (portOf s0 port).pauseNext with
      | some n => startPause port n s0
      | none => s0
    let s2 := match t.queue, t.ends with
      | some q, some len =>
        bump cDeqFrames (scDsQueue q) 1 (bump cDeqBytes (scDsQueue q) len
          (freeBushels t.bushels (modDs q (fun k => { k with bushels := k.bushels - t.bushels }) s1)))
      | _, _ => s1
    .next (startTime port s2)

end Sys2Proof.Machine
end

