-- ==== Sys2Proof/Machine/Tables.lean ====
section
/-! DEFINITION. The match tables, results, meters' colours, and rule generations (spec/11). -/
namespace Sys2Proof.Machine

/-! Generations in flight (R327, R328). -/

/-- The rules of a packet's generation. -/
def genOf (s : State) (g : BitVec 8) : RuleGen :=
  if g = s.cls.newest then s.cls.cur else s.cls.old

/-! The order stage (R340). -/

/-- The ordering stream of a packet. -/
def streamOf (p : Pkt) : Nat := (p.osrc * 16 + p.port) * 2 + bit p.recirc

/-- A frame is linked into its queue under R398: existence, admission, link; a standby discards
what is emitted upstream (R503). Its in-flight count is released. -/
def linkEmitted (e : Emitted) (s : State) : State :=
  let f : Frame :=
    { bytes := e.bytes, sheaf := e.sheaf, fcsKept := e.fcsKept, modified := e.modified,
      bushels := e.bushels }
  let s1 :=
    if !e.ds && s.pair.st == .standby then
      bump cStandbyUpDrop scDevice 1 (freeBushels e.bushels s)
    else
      let s1 := (enqueue e.ds e.queue e.colour f s).2
      if e.ds && decide (e.queue < 64) then portFlushLook (e.queue / 8) s1 else s1
  genLeave e.gen s1

/-- The entries whose frame can be linked: the first of each stream, while it has its frame. -/
def nextLink : List Nat → List OrderEnt → Option (OrderEnt × Emitted)
  | _, [] => none
  | seen, o :: os =>
    if seen.contains o.stream then nextLink seen os
    else match o.frame with
    | some e => some (o, e)
    | none => nextLink (o.stream :: seen) os

/-- Link frames in take-up order as far as their streams allow. -/
def orderRun : Nat → State → State
  | 0, s => s
  | fuel + 1, s =>
    match nextLink [] s.tine.order with
    | none => s
    | some (o, e) =>
      orderRun fuel (linkEmitted e
        { s with tine := { s.tine with order := s.tine.order.erase o } })

/-- See `orderRun`. -/
def orderLook (s : State) : State := orderRun s.tine.order.length s

/-- A packet gives up its place. -/
def orderLeave (id : Nat) (s : State) : State :=
  orderLook { s with tine := { s.tine with order := s.tine.order.filter (fun o => o.id != id) } }

/-- A packet is discarded before or in its pass: its bushels, its generation, its place. -/
def discardPkt (p : Pkt) (s : State) : State :=
  orderLeave p.order (genLeave p.gen (freeBushels p.bushels s))

/-! Results (R308-R312). -/

/-- Result record `r`. -/
def resOf (s : State) (r : Nat) : Nat := (tabGet (0 : BitVec 128) s.cls.res (r % 32768)).toNat
/-- PROG of a record. -/
def resProg (r : Nat) : Nat := bits r 123 112
/-- M_EN, C_EN, Q_EN, EM_EN. -/
def resMEn (r : Nat) : Bool := r.testBit 111
/-- See `resMEn`. -/
def resCEn (r : Nat) : Bool := r.testBit 110
/-- See `resMEn`. -/
def resQEn (r : Nat) : Bool := r.testBit 109
/-- See `resMEn`. -/
def resEmEn (r : Nat) : Bool := r.testBit 108
/-- EM_PROFILE. -/
def resProfile (r : Nat) : Nat := bits r 107 105
/-- METER. -/
def resMeter (r : Nat) : Nat := bits r 95 80
/-- COUNTER. -/
def resCounter (r : Nat) : Nat := bits r 78 64
/-- DIR: upstream. -/
def resDir (r : Nat) : Bool := r.testBit 58
/-- QUEUE. -/
def resQueue (r : Nat) : Nat := bits r 57 48
/-- PARAM. -/
def resParam (r : Nat) : BitVec 48 := BitVec.ofNat 48 r

/-- Add to a result counter: one packet and `len` bytes, rolling over (R312). -/
def countResult (k len : Nat) (s : State) : State :=
  modCls (fun c => { c with
    rcount := tabMod (0, 0) c.rcount (k % 32768) (fun x => (x.1 + 1, x.2 + BitVec.ofNat 64 len)) }) s

/-! Incoming colours (R417). -/

/-- An outer tag for PCP_MAP. -/
def outerTag (s : State) (p : Pkt) (b : Bytes) : Bool :=
  let e := field b 12 2
  e == 0x8100 || e == 0x88A8 || (p.src == 0 && e == settingN s sSTpid (scPort p.port))

/-- Where the header after the last recognised tag starts (R245). -/
def afterTags (s : State) (p : Pkt) (b : Bytes) : Nat :=
  if p.src = 0 then (frameTags s p.port b).2.2 + 2
  else if !(field b 12 2 == 0x8100 || field b 12 2 == 0x88A8) then 14
  else if field b 16 2 = 0x8100 then 22 else 18

/-- The colour of a map entry, 3 being green. -/
def mapColour (s : State) (kind n i : Nat) : Nat :=
  let c := settingN s sMapEntry (scopeCode kind n) i
  if c = 3 then 0 else c

/-- The incoming colour of a meter operation on packet bytes `b` whose COLOUR is `colour`. -/
def meterColour (s : State) (m : Nat) (p : Pkt) (b : Bytes) (colour : Nat) : Nat :=
  if settingN s sMtAware (scMeter m) = 0 then 0 else
  let src := settingN s sCaSrc (scMeter m)
  if src = 0 then (if colour = 3 then 0 else colour)
  else if src ≤ 8 then
    mapColour s 0x14 (src - 1) (if outerTag s p b then field b 14 2 / 4096 else 16)
  else
    let at_ := afterTags s p b
    let ety := field b (at_ - 2) 2
    let ver := (byteAt b at_).toNat / 16
    let dscp :=
      if ety = 0x0800 ∧ ver = 4 then (byteAt b (at_ + 1)).toNat / 4
      else if ety = 0x86DD ∧ ver = 6 then field b at_ 2 / 64 % 64
      else 64
    mapColour s 0x15 (src - 9) dscp

/-- A meter operation: the packet's colour after it. -/
def meterPacket (m : Nat) (p : Pkt) (b : Bytes) (colour len : Nat) (s : State) : Nat × State :=
  match meterOp m (meterColour s m p b colour) len s with
  | (some c, s1) => (c, s1)
  | (none, s1) => (colour, s1)

/-! Lookups. -/

/-- LIVE bit of a generation (R304). -/
def livePar (l : BitVec 2) (g : BitVec 8) : Bool := l.getLsbD (g.toNat % 2)

/-- The first live ternary entry that matches (R307). -/
def ternFind (s : State) (g : BitVec 8) (key : Bytes) : Option TernEntry :=
  let k : BitVec 320 := BitVec.ofNat 320 (beNat (fit 40 key))
  (s.cls.tern.find? (fun e =>
    livePar e.2.live g && decide ((k ^^^ e.2.value) &&& e.2.mask = 0))).map (fun e => e.2)

/-- A ternary lookup with its counters: the result, and whether an entry matched. -/
def ternLookup (g : BitVec 8) (key : Bytes) (s : State) : (Bool × Nat) × State :=
  let s1 := bump cTernLookups scDevice 1 s
  match ternFind s g key with
  | some e => ((true, e.result), s1)
  | none => ((false, (genOf s g).deflt), bump cTernMiss scDevice 1 s1)

/-- The exact-match key of a profile (R313). -/
def emKeyOf (s : State) (profile : Nat) (key : Bytes) : BitVec 128 :=
  let sel := natBytes 16 (tabGet (0 : BitVec 128) s.cls.profiles (profile % 8)).toNat
  BitVec.ofNat 128 (beNat (sel.map (fun x =>
    if x.getLsbD 7 then byteAt key (x.toNat % 64) else 0)))

/-- A bucket hash (R315). -/
def emHash (poly : Nat) (seed : BitVec 32) (profile : Nat) (k : BitVec 128) : Nat :=
  crcBits 32 poly seed.toNat (bitsOf (natBytes 1 profile ++ natBytes 16 k.toNat)) % 131072

/-- The bucket of an entry on a channel: false QA, true QB. -/
def emBucket (c : Cls) (ch : Bool) (profile : Nat) (k : BitVec 128) : Nat :=
  if ch then emHash 0x04C11DB7 c.seedB profile k else emHash 0x1EDC6F41 c.seedA profile k

/-- Key of a slot in the store of entries. -/
def emAddr (ch bank : Bool) (bucket slot : Nat) : Nat :=
  ((bit ch * 2 + bit bank) * 131072 + bucket) * 2 + slot

/-- Where an entry stands: an SRAM slot or a stash slot. -/
inductive EmLoc | sram (addr : Nat) | stash (i : Nat)
  deriving DecidableEq, Repr

/-- The entry at a place. -/
def emAt (c : Cls) : EmLoc → EmEntry
  | .sram a => tabGet ({} : EmEntry) c.em a
  | .stash i => tabGet ({} : EmEntry) c.stash i

/-- Give a place an entry. -/
def emPut (l : EmLoc) (e : EmEntry) (c : Cls) : Cls :=
  match l with
  | .sram a => { c with em := tabSet ({} : EmEntry) c.em a e }
  | .stash i => { c with stash := tabSet ({} : EmEntry) c.stash i e }

/-- The places of an entry, in the order of R304: QA bucket, QB bucket, stash. -/
def emPlaces (c : Cls) (profile : Nat) (k : BitVec 128) : List EmLoc :=
  let a := emBucket c false profile k
  let b := emBucket c true profile k
  [.sram (emAddr false c.bank a 0), .sram (emAddr false c.bank a 1),
   .sram (emAddr true c.bank b 0), .sram (emAddr true c.bank b 1)] ++
  (List.range 64).map .stash

/-- The place of the entry that a generation sees; `bad`: slots an uncorrectable word
touches (R316, R317). -/
def emFind (c : Cls) (g : BitVec 8) (profile : Nat) (k : BitVec 128) (bad : List EmLoc) :
    Option EmLoc :=
  (emPlaces c profile k).find? (fun l =>
    let e := emAt c l
    !bad.contains l && livePar e.live g && e.profile == profile && e.key == k)

/-- The exact-match lookup answers: the found entry counts the packet. -/
def emFound (g : BitVec 8) (profile : Nat) (k : BitVec 128) (len : Nat) (bad : List EmLoc)
    (s : State) : Option Nat × State :=
  match emFind s.cls g profile k bad with
  | none => (none, s)
  | some l =>
    let e := emAt s.cls l
    let s1 := bump cEmHits scDevice 1 (modCls (emPut l { e with
      pkts := e.pkts + 1, bytes := e.bytes + BitVec.ofNat 52 len }) s)
    (some e.result, match l with
      | .stash _ => bump cEmStashHits scDevice 1 s1
      | .sram _ => s1)

/-- An exact-match lookup with its counters: the entry's RESULT on a hit, whose counts grow
(R316-R318). `ecc`: channel and slot of every slot that an uncorrectable word touches; each does
not match, is reported and freed. -/
def emLookupOp (g : BitVec 8) (profile : Nat) (k : BitVec 128) (len : Nat)
    (ecc : List (Bool × Bool)) (s : State) : Option Nat × State :=
  let at_ (e : Bool × Bool) : EmLoc :=
    .sram (emAddr e.1 s.cls.bank (emBucket s.cls e.1 profile k) (bit e.2))
  let bad := ecc.eraseDups
  emFound g profile k len (bad.map at_)
    (each (fun (e : Bool × Bool) u =>
      raise 0x0905 0 (bit e.1 * 2 ^ 18 + bit e.2 * 2 ^ 17 + emBucket s.cls e.1 profile k)
        (bump cEmEccUncorr scDevice 1 (modCls (emPut (at_ e) {}) u)))
      bad (bump cEmLookups scDevice 1 s))

/-- The final result of a pass is applied (R304, R305), and the packet waits for a thread. -/
def applyResult (w : Walked) (r : Nat) (s : State) : State :=
  let x := resOf s r
  let len := pktLen w.pkt
  let s1 := if resCEn x then countResult (resCounter x) len s else s
  let (c, s2) :=
    if resMEn x then meterPacket (resMeter x) w.pkt (walkBytes w.pkt) w.pkt.colour len s1
    else (w.pkt.colour, s1)
  let w' : Walked := { w with pkt := { w.pkt with colour := c }, result := r }
  modCls (fun k => { k with dispatchQ := k.dispatchQ ++ [w'] }) s2

/-! Take-up and walk. -/

/-- A packet as the coulter takes it up for its first pass (Table 10-1, R328). -/
def pktOf (s : State) (i : InPkt) : Pkt :=
  let sheaf := i.line && i.label == 3
  let src := if !i.line then 0 else if i.label = 3 then 2 else if i.label = 0x1F then 3 else 1
  let n := i.bytes.length - (if i.fcsKept then 4 else 0)
  { src := src, osrc := src, port := if i.line then i.group else i.port, cls := i.cls.toNat,
    recirc := false, gen := s.cls.newest, lotId := if i.line then i.lotId else 0xFFFF,
    label := if i.line then i.label else 0, keyIdx := i.keyIdx, era := eraOf s i.capture,
    tl := i.capture, desc := if sheaf then i.bytes.take 16 else [],
    body := if sheaf then i.bytes.drop 16 else i.bytes.take n,
    tpl := if sheaf then sheafTpl i.bytes else 0,
    fcs := if i.fcsKept then i.bytes.drop n else [], bushels := i.bushels,
    order := s.cls.nextOrder }

/-- A packet takes its place in the order stage. -/
def takePlace (p : Pkt) (s : State) : Pkt × State :=
  let id := s.cls.nextOrder
  let p' := { p with order := id }
  let s1 := modCls (fun c => { c with nextOrder := id + 1 }) s
  (p', { s1 with tine := { s1.tine with
    order := s1.tine.order ++ [{ id := id, stream := streamOf p' }] } })

/-- Walk a packet that has been taken up, look it up and select its result (R285, R288-R293,
R304). A SOURCE whose START entry has DROP loses every packet, whatever node it names; a start node
that the graph does not have discards the packet as DROP does. -/
def walkTaken (p : Pkt) (s : State) : State :=
  let g := genOf s p.gen
  let start := (graphStart g.graph p.src).map (fun n => p.node.getD n)
  match g.graph, start with
  | some img, some n =>
    if graphNodes img ≤ n then discardPkt p (bump cNoStart scDevice 1 s) else
    let (stop, w) := walkPacket g img p n
    let s1 := countWalk stop w.pats s
    if stop = 4 ∧ licAction g.graph = 0 then discardPkt p (bump cLicDrop scDevice 1 s1)
    else if stop = 4 ∧ licAction g.graph = 2 then applyResult w (licResult g.graph) s1
    else
      let ((_, r), s2) := ternLookup p.gen w.key s1
      let x := resOf s2 r
      if resEmEn x then
        let q : EmWait := { w := { w with result := r }, profile := resProfile x,
                            emKey := emKeyOf s2 (resProfile x) w.key }
        modCls (fun c => { c with emQ := c.emQ ++ [q] }) s2
      else applyResult w r s2
  | _, _ => discardPkt p (bump cNoStart scDevice 1 s)

/-- The coulter takes up the oldest packet of its input, or the oldest recirculated one, and walks
it (R282-R293, R328). It stalls while the dispatch queue or the lookup queue is full; the core
cycles for which it does count as they pass (R320, R339, `coulterStall`). -/
def execCoulterWalk (recirc : Bool) (s : State) : Out :=
  if 1024 ≤ s.cls.dispatchQ.length ∨ 512 ≤ s.cls.emQ.length then .next s
  else if recirc then
    match s.cls.recircQ with
    | [] => .next s
    | p :: rest =>
      let (p', s1) := takePlace p (modCls (fun c => { c with recircQ := rest }) s)
      .next (walkTaken p' s1)
  else
    match s.inQ with
    | [] => .next s
    | i :: rest =>
      let s0 := modCls (fun c => { c with inNew := c.inNew + 1 }) { s with inQ := rest }
      let (p, s1) := takePlace (pktOf s0 i) s0
      .next (walkTaken p s1)

/-- The oldest exact-match lookup completes (R316-R318): a hit replaces the result. `eccCorr`
words were corrected. While the dispatch queue is full it waits (R339). -/
def execEmLookup (eccBad : List (Bool × Bool)) (eccCorr : Nat) (s : State) : Out :=
  match s.cls.emQ with
  | [] => .next s
  | q :: rest =>
    if 1024 ≤ s.cls.dispatchQ.length then .next s else
    let s1 := bump cEmEccCorr scDevice eccCorr (modCls (fun c => { c with emQ := rest }) s)
    match emLookupOp q.w.pkt.gen q.profile q.emKey (pktLen q.w.pkt) eccBad s1 with
    | (some r, s2) => .next (applyResult q.w r s2)
    | (none, s2) => .next (applyResult q.w q.w.result s2)

/-- A mirrored CLS_COMMIT that waits for its APPLY_SC. -/
def commitHeld (s : State) : Option Held := s.pair.held.find? (fun h => h.opcode == 0x0904)

/-- The APPLY_SC of a mirrored commit has come without a recorded arrival (R326): the commit is due,
and with it what stands before it in MIRROR_SEQ order (R510; log entry 114). -/
def heldCommitDue (w : Held) (s : State) : State :=
  { s with pair := { s.pair with held := s.pair.held.map (fun h =>
      if !h.awaitAck && decide (h.mirrorSeq.toNat ≤ w.mirrorSeq.toNat) then { h with due := true }
      else h) } }

/-- A pending AT_SWATH commit takes effect without a recorded arrival of its SC (R326). -/
def execAtSwathExtrapolatedArrival (s : State) : Out :=
  match s.cls.commit, commitHeld s with
  | some w, _ => .next (commitNow (some (w.tag, w.mgmt)) s)
  | none, some h => .next (heldCommitDue h s)
  | none, none => .next s

/-- The older generation is still live 10 ms after the commit: EV_CLS_RETIRE_SLOW, once per
generation (Table 11-8). -/
def execRetireSlow (s : State) : Out :=
  if s.cls.st = .twoLive ∧ !s.cls.retireSlow then
    .next (raise 0x0903 0 (s.cls.newest - 1).toNat
      (modCls (fun c => { c with retireSlow := true }) s))
  else .next s

/-! Placement, rehash and sweep (R321-R323, R330). -/

/-- Occupied slots of the active bank and the stash (R322). -/
def emOccupied (c : Cls) : Nat := c.em.length + c.stash.length

/-- The free slot of a bucket, slot 0 first. -/
def freeSlot (c : Cls) (ch : Bool) (bucket : Nat) : Option EmLoc :=
  ([0, 1].map (fun i => EmLoc.sram (emAddr ch c.bank bucket i))).find?
    (fun l => decide ((emAt c l).live = 0))

/-- The slots of an entry's two buckets, with their channel. -/
def bucketSlots (c : Cls) (ch : Bool) (profile : Nat) (k : BitVec 128) : List (EmLoc × Bool) :=
  let b := emBucket c ch profile k
  [(.sram (emAddr ch c.bank b 0), ch), (.sram (emAddr ch c.bank b 1), ch)]

/-- A breadth-first search for a path of moves to a free slot (R321): the queue holds paths of
slots, newest first; a path's last entry moves to its bucket on the other channel. -/
def bfsPath (c : Cls) : Nat → List (List (EmLoc × Bool)) → List EmLoc → Option (List EmLoc)
  | 0, _, _ => none
  | _, [], _ => none
  | fuel + 1, path :: queue, seen =>
    match path with
    | [] => bfsPath c fuel queue seen
    | (l, ch) :: _ =>
      let e := emAt c l
      match freeSlot c (!ch) (emBucket c (!ch) e.profile e.key) with
      | some f => some (f :: path.map (fun x => x.1))
      | none =>
        let next := (bucketSlots c (!ch) e.profile e.key).filter
          (fun x => !seen.contains x.1 && decide (path.length < 128))
        bfsPath c fuel (queue ++ next.map (fun x => x :: path)) (seen ++ next.map (fun x => x.1))

/-- Move entries along a path, the last first: each into its new slot, then the old one freed. -/
def movePath : List EmLoc → Cls → Cls
  | dest :: from_ :: rest, c => movePath (from_ :: rest) (emPut from_ {} (emPut dest (emAt c from_) c))
  | _, c => c

/-- Place an entry (R321): its place, with the moves made; none when a rehash is needed. -/
def emPlace (e : EmEntry) (c : Cls) : Option (Cls × Nat) :=
  let a := emBucket c false e.profile e.key
  let b := emBucket c true e.profile e.key
  match freeSlot c false a, freeSlot c true b with
  | some l, _ => some (emPut l e c, 0)
  | none, some l => some (emPut l e c, 0)
  | none, none =>
    let roots := bucketSlots c false e.profile e.key ++ bucketSlots c true e.profile e.key
    match bfsPath c (2 * c.em.length + 4) (roots.map (fun x => [x])) (roots.map (fun x => x.1)) with
    | some path =>
      let c1 := movePath path c
      match path.getLast? with
      | some l => some (emPut l e c1, path.length - 1)
      | none => none
    | none =>
      ((List.range 64).find? (fun i => decide ((emAt c (.stash i)).live = 0))).map
        (fun i => (emPut (.stash i) e c, 0))

/-- Place entries one after another; those that find no place are answered. -/
def emPlaceAll : List EmEntry → Cls → Cls × List EmEntry × Nat
  | [], c => (c, [], 0)
  | e :: es, c =>
    match emPlace e c with
    | some (c1, m) =>
      let (c2, left, m2) := emPlaceAll es c1
      (c2, left, m + m2)
    | none =>
      let (c2, left, m2) := emPlaceAll es c
      (c2, e :: left, m2)

/-- A rehash copy completes (R323): new seeds, every occupied slot into the other bank, which
becomes active; the inserts that waited are completed. Should an entry find no place under the
new seeds, the rehash goes on with further ones. `eccCorr` words were corrected (R317). -/
def execRehashDone (s0 : State) (eccCorr : Nat := 0) : Out :=
  match s0.cls.rehash with
  | none => .next s0
  | some r =>
    let s := bump cEmEccCorr scDevice eccCorr s0
    let s1 := drawn (drawn s)
    let all := (s.cls.em.map (fun x => x.2)) ++ (s.cls.stash.map (fun x => x.2)) ++ r.inserts
    let fresh : Cls := { s1.cls with
      em := [], stash := [], bank := !s.cls.bank, seedA := BitVec.ofNat 32 (freeNat s),
      seedB := BitVec.ofNat 32 (freeNat (drawn s)), rehash := none }
    let (c, left, moves) := emPlaceAll all fresh
    let s2 := { s1 with cry := { s1.cry with requests := s1.cry.requests + 2 } }
    if left.isEmpty then
      let s3 := bump cRehash scDevice 1 (bump cEmMoves scDevice moves (modCls (fun _ => c) s2))
      .next (each (fun t s => raiseTag 0x0904 0 (bit c.bank) t.1 t.2 s) r.tags s3)
    else
      -- the old bank stays in use until a further attempt completes
      .next s2

/-- Both LIVE bits take the newest generation's (R330). -/
def sweptLive (g : BitVec 8) (l : BitVec 2) : BitVec 2 := if livePar l g then 3 else 0

/-- Apply the folds of EM_MODIFY: the counts of the copy that only the retired generation saw go
to the newest one's (R324, R330). -/
def foldCounts (g : BitVec 8) (f : Nat × BitVec 128) (c : Cls) : Cls :=
  match emFind c g f.1 f.2 [] with
  | none => c
  | some l =>
    let olds := (emPlaces c f.1 f.2).filter (fun m =>
      let e := emAt c m
      m != l && e.profile == f.1 && e.key == f.2 && decide (e.live ≠ 0) && !livePar e.live g)
    olds.foldl (fun c m =>
      let o := emAt c m
      let e := emAt c l
      emPut l { e with pkts := e.pkts + o.pkts, bytes := e.bytes + o.bytes } c) c

/-- Sweep a table of exact-match entries. -/
def sweepEm (g : BitVec 8) (t : Tab EmEntry) : Tab EmEntry :=
  t.filterMap (fun x =>
    let l := sweptLive g x.2.live
    if l = 0 then none else some (x.1, { x.2 with live := l }))

/-- The sweep of the retired generation completes (R330, Table 11-8). It follows a rehash that is
due (Table 11-11). `eccCorr` words were corrected (R317). -/
def execSweepDone (s0 : State) (eccCorr : Nat := 0) : Out :=
  if s0.cls.st ≠ .sweeping ∨ s0.cls.rehash.isSome then .next s0
  else
    let s := bump cEmEccCorr scDevice eccCorr s0
    let g := s.cls.newest
    let c := s.cls.folds.foldl (fun c f => foldCounts g f c) s.cls
    let s1 := modCls (fun _ => { c with
      st := .oneLive, folds := [], old := {}, em := sweepEm g c.em, stash := sweepEm g c.stash,
      tern := c.tern.filterMap (fun x =>
        let e : TernEntry := if sweptLive g x.2.live = 0 then {} else
          { x.2 with live := sweptLive g x.2.live }
        if e = {} then none else some (x.1, e)) }) s
    .next (raise 0x0902 0 (g - 1).toNat s1)

end Sys2Proof.Machine
end

