-- ==== Sys2Proof/Machine/Tine.lean ====
section
/-! DEFINITION. How action programs run: dispatch, what a thread starts with, the issue of an
instruction, faults, and the ends of a pass (spec/12, spec/13). -/
namespace Sys2Proof.Machine

/-- Change the tines' state. -/
def modTine (f : Tine → Tine) (s : State) : State := { s with tine := f s.tine }

/-- Program `p`. -/
def progOf (s : State) (p : Nat) : Prog := tabGet ({} : Prog) s.tine.progs p
/-- Change program `p`. -/
def modProg (p : Nat) (f : Prog → Prog) (s : State) : State :=
  modTine (fun t => { t with progs := tabMod ({} : Prog) t.progs p f }) s

/-- The descriptor of a program as it stands (Table 12-2). -/
def progView (s : State) (p : Nat) : ProgView :=
  let x := progOf s p
  let sc := scProgram p
  { prog := p, base := x.base, entry := x.entry, codeLen := x.codeLen, constBase := x.constBase,
    constLen := x.constLen, limit := x.limit, scrBase := settingN s sScrBase sc,
    scrLen := settingN s sScrLen sc, sramCh := settingN s sSramCh sc,
    sramBase := settingN s sSramBase sc, sramLen := settingN s sSramLen sc,
    keyMask := settingN s sKeyMask sc, allow := settingN s sAllow sc,
    faultDisable := settingB s sFaultAction sc }

/-! Threads at work. -/

/-- The current packet bytes of a thread: window, spill store, tail (R343). -/
def threadBytes (x : Thread) : Bytes := x.win ++ x.spill ++ x.tail

/-- Busy threads of a tine. -/
def tineBusy (s : State) (h t : Nat) : Nat :=
  ((List.range 8).filter (fun n => (threadOf s h t n).busy)).length
/-- Busy threads of a harrow. -/
def harrowBusy (s : State) (h : Nat) : Nat := ((List.range 16).map (tineBusy s h)).sum

/-- A harrow taken out of dispatch is gated once its threads are idle (R487): its counters hold
(R376), and a tag in flight leaves no record (Table 14-7). -/
def gateHarrow (h : Nat) (s : State) : State :=
  if s.pwr.gating.getLsbD (8 + h) && decide (harrowBusy s h = 0) then
    modPwr (fun p => { p with on := p.on &&& ~~~(1#64 <<< (8 + h)),
                              gating := p.gating &&& ~~~(1#64 <<< (8 + h)) })
      (modTine (fun t => { t with gatedAt := tabSet none t.gatedAt h (some t.cycles) }) s)
  else s

/-- The thread is free again; its private area stays (R334). -/
def freeThread (h t n : Nat) (s : State) : State :=
  gateHarrow h (modThread h t n (fun x => { priv := x.priv }) s)

/-- The packet of a thread as the program left it. -/
def threadPkt (x : Thread) : Option Pkt :=
  x.walked.map (fun w => { w.pkt with body := threadBytes x, colour := x.colour,
                                      modified := x.modified })

/-- The metadata block (Table 12-3). -/
def metaBytes (x : Thread) : Bytes :=
  match x.walked with
  | none => List.replicate 96 0
  | some w =>
    let p := w.pkt
    let r := w.result
    let flags := 8 * bit x.win.isEmpty + 4 * bit (p.label == 2 && p.osrc == 1) +
      2 * bit (p.src == 2) + bit x.modified
    let b0 := natBytes 2 x.view.prog ++ slice w.key 32 3 ++ natBytes 1 p.gen.toNat
    b0 ++ natBytes 6 x.view.param.toNat ++
      natBytes 2 (32768 * bit x.qValid + 1024 * bit x.dir + x.queue % 1024) ++
      natBytes 1 x.colour ++ natBytes 1 flags ++ natBytes 2 (threadBytes x).length ++
      natBytes 1 (x.win.length - 1) ++ natBytes 1 (min 255 w.logEnd) ++ natBytes 8 w.pats.toNat ++
      natBytes 2 p.era.toNat ++ natBytes 8 p.tl.toNat ++ natBytes 2 p.lotId.toNat ++ [p.label] ++
      natBytes 1 p.keyIdx.toNat ++ natBytes 2 (r % 32768) ++ List.replicate 20 0 ++
      fit 32 (w.stack.flatMap (fun e => [e.1, BitVec.ofNat 8 e.2]))

/-! Dispatch (R337-R341). -/

/-- The element with the least measure, the first on a tie. -/
def argMin (f : Nat → Nat) : List Nat → Option Nat
  | [] => none
  | x :: xs =>
    match argMin f xs with
    | none => some x
    | some y => if f y < f x then some y else some x

/-- The harrow of a packet (R338). -/
def pickHarrow (s : State) (flow : Bool) (key : Bytes) : Option Nat :=
  let hs := (List.range 12).filter (fun h => harrowOn s h && !s.pwr.gating.getLsbD (8 + h))
  if flow then
    if hs.isEmpty then none
    else hs[crc32 (key.take 33) % hs.length]?
  else argMin (harrowBusy s) hs

/-- The thread of a packet: the lowest free one of the tine with the fewest busy threads. -/
def pickThread (s : State) (flow : Bool) (key : Bytes) : Option (Nat × Nat × Nat) :=
  match pickHarrow s flow key with
  | none => none
  | some h =>
    match argMin (tineBusy s h) (List.range 16) with
    | none => none
    | some t =>
      ((List.range 8).find? (fun n => !(threadOf s h t n).busy)).map (fun n => (h, t, n))

/-- A waiting packet is given to a free thread (R338, R341). The order stage holds 4,096
packets (R340). -/
def execTineDispatch (s : State) : Out :=
  match s.cls.dispatchQ with
  | [] => .next s
  | w :: rest =>
    let x := resOf s w.result
    let named := resProg x
    let good := (progOf s named).loaded && !(progOf s named).disabled
    let prog := if good then named else 0
    let flow := settingB s sAffinity (scProgram prog)
    if 4096 ≤ (s.tine.order.filter (fun o => o.given)).length || !coreRuns s then .next s
    else match pickThread s flow w.key with
    | none => .next s
    | some (h, t, n) =>
      let p := w.pkt
      let b := walkBytes p
      let view := { progView s prog with param := resParam x }
      let th : Thread :=
        { busy := true, pc := view.entry, win := b.take 256,
          tail := b.drop 256 ++ p.body.drop b.length, walked := some w, view := view,
          qValid := resQEn x, dir := resDir x, queue := resQueue x, colour := p.colour,
          modified := p.modified, priv := (threadOf s h t n).priv }
      let s1 := modCls (fun c => { c with dispatchQ := rest }) s
      let s2 := modTine (fun t => { t with order := t.order.map (fun o =>
        if o.id == p.order then { o with given := true } else o) }) s1
      let s3 := if good then s2 else bump cNoProg (scProgram named) 1 s2
      .next (pmcInstant h t n 0x0E
        (putThread h t n th (bump cPasses (scProgram prog) 1 s3)))

/-! Instruction words (Table 13-1). -/

/-- The instruction word of an opcode and its fields. -/
def insnWord (op : Nat) (f : TFields) : BitVec 64 :=
  BitVec.ofNat 64 (op * 2 ^ 56 + f.vd.toNat * 2 ^ 52 + f.va.toNat * 2 ^ 48 + f.vb.toNat * 2 ^ 44 +
    f.fn.toNat * 2 ^ 40 + bit f.rb * 2 ^ 39 + bit f.ra * 2 ^ 38 + f.n.toNat * 2 ^ 32 +
    f.imm.toNat)

/-- Opcode of a word. -/
def wordOp (w : BitVec 64) : Nat := bits w.toNat 63 56

/-- The fields of a word. -/
def insnFields (w : BitVec 64) : TFields :=
  let v := w.toNat
  { vd := BitVec.ofNat 4 (bits v 55 52), va := BitVec.ofNat 4 (bits v 51 48),
    vb := BitVec.ofNat 4 (bits v 47 44), fn := BitVec.ofNat 4 (bits v 43 40),
    rb := v.testBit 39, ra := v.testBit 38, n := BitVec.ofNat 6 (bits v 37 32),
    imm := BitVec.ofNat 32 v }

/-- SHIFT, WIDTH of a field class immediate. -/
def immShift (f : TFields) : Nat := bits f.imm.toNat 31 27
/-- See `immShift`: the field width minus one. -/
def immWidth (f : TFields) : Nat := bits f.imm.toNat 26 22

/-- The encoding is defined: the fields that its opcode does not use are zero (R355, R358, R361, the
text under Table 13-4). A register field that the opcode uses may hold anything, also where RA or RB
leaves it out. Load check 4 and the ILLEGAL fault use this one test. -/
def insnDefined (op : Nat) (f : TFields) : Bool :=
  let fn := f.fn.toNat
  let n := f.n.toNat
  let i := f.imm.toNat
  let vdZ := f.vd == 0
  let vaZ := f.va == 0
  let vbZ := f.vb == 0
  let fnZ := f.fn == 0
  let nZ := f.n == 0
  let bOk := !f.rb || i == 0
  let alu := fnZ && !f.ra && nZ && bOk
  let immIn (hi lo : Nat) : Bool := decide (i % 2 ^ lo = 0) && decide (i / 2 ^ (hi + 1) = 0)
  match op with
  | 0x01 => vdZ && vaZ && vbZ && fnZ && !f.ra && !f.rb && nZ && i == 0
  | 0x10 | 0x11 | 0x12 | 0x13 | 0x14 | 0x15 | 0x16 | 0x17 | 0x18 | 0x19 | 0x1A | 0x1D => alu
  | 0x1B => alu && vaZ
  | 0x1C => decide (fn ≤ 11) && !f.ra && nZ && bOk
  | 0x1E | 0x1F => vbZ && fnZ && !f.ra && !f.rb && nZ && decide (i % 2 ^ 22 = 0) &&
      decide (immShift f + immWidth f ≤ 31)
  | 0x20 => vdZ && !f.ra && nZ && decide (bits i 15 13 = 0) &&
      (if fn = 15 then vaZ && vbZ && !f.rb && decide (i / 65536 = 0)
       else decide (fn ≤ 11))
  | 0x30 | 0x31 => vbZ && fnZ && !f.rb && decide (n ≤ 3) && decide (bits i 21 8 = 0) &&
      decide (immShift f + immWidth f < 8 * (n + 1))
  | 0x32 | 0x33 => vdZ && vbZ && fnZ && !f.rb && immIn 7 0
  | 0x34 => vdZ && decide (fn ≤ 5)
  | 0x35 => decide (fn ≤ 1) && !f.rb && immIn 16 0
  | 0x40 => vbZ && !f.rb && decide (fn ≤ 3) && (n == 0 || n == 1 || n == 3) && immIn 16 0
  | 0x41 => vbZ && !f.rb && (fn == 0 || fn == 2 || fn == 3) && (n == 0 || n == 1 || n == 3) &&
      immIn 16 0
  | 0x42 => !f.rb && nZ && decide (fn ≤ 5) && immIn 16 3
  | 0x43 | 0x44 => vdZ && vbZ && fnZ && !f.rb && decide (n ≤ 7) && decide (i % 8 = 0)
  | 0x45 => !f.rb && nZ && decide (fn ≤ 5) && immIn 23 3
  | 0x50 => vaZ && vbZ && fnZ && !f.ra && !f.rb && nZ && immIn 9 3
  | 0x51 => vaZ && vbZ && decide (fn ≤ 7) && !f.ra && !f.rb && nZ && immIn 9 3
  | 0x52 => fnZ && nZ && immIn 15 0
  | 0x53 => vdZ && fnZ && nZ && immIn 15 0
  | 0x54 => vdZ && vbZ && !f.rb && nZ && decide (fn ≤ 2) && immIn 15 0
  | 0x58 => decide (f.vd.toNat ≤ 13) && vaZ && vbZ && fnZ && !f.ra && !f.rb && nZ && i == 0
  | 0x59 => decide (f.vd.toNat ≤ 14) && vaZ && vbZ && decide (fn ≤ 6) && !f.ra && !f.rb && nZ &&
      i == 0
  | 0x60 => vbZ && !f.rb && nZ && decide (fn ≤ 5) && decide (bits i 15 7 = 0) &&
      decide (i / 2 ^ 26 = 0) && decide (bits i 18 16 = 0)
  | 0xF0 => vdZ && vaZ && vbZ && decide (fn ≤ 1) && !f.ra && !f.rb && nZ && i == 0
  | 0xF1 => vdZ && vaZ && vbZ && fnZ && !f.ra && !f.rb && nZ && i == 0
  | 0xF2 => vdZ && vaZ && vbZ && decide (fn ≤ 3) && !f.ra && !f.rb && nZ && immIn 5 0
  | 0xF3 => vdZ && vaZ && vbZ && fnZ && !f.ra && !f.rb && nZ && immIn 7 0
  | _ => false

/-- Cost of an instruction that waits for no service, and the event its further cycles make
(Tables 13-4 and 14-3). -/
def insnCost (op : Nat) (f : TFields) (taken : Bool) : Nat × Nat :=
  let block := 1 + (f.n.toNat + 16) / 16
  match op with
  | 0x18 => (2, 0)
  | 0x20 => (if taken then 3 else 1, 0)
  | 0x32 | 0x33 | 0x34 | 0x35 => (block, 0x0C)
  | 0x40 | 0x41 => (if f.fn == 2 then 4 else 1, 0x09)
  | 0x42 => (6, 0x09)
  | 0x50 => (12, 0x06)
  | 0x52 | 0x53 => (8, 0x0B)
  | 0x58 | 0x59 => (2, 0)
  | _ => (1, 0)

/-- The instruction uses a service of Table 12-4. -/
def insnService (op : Nat) : Bool :=
  [0x43, 0x44, 0x45, 0x50, 0x51, 0x52, 0x53, 0x58, 0x59, 0x60].contains op

/-! Faults (R352, R357). -/

/-- Write a fault record into the log (Table 12-8); a record replaced unread is lost. F_ADDR of a fault that has no offending
address or operand is free: the spec states none (log entry 14). -/
def logFault (h t n : Nat) (x : Thread) (code : Nat) (addr : Option Nat) (s0 : State) : State :=
  let s := if addr.isSome then s0 else drawn s0
  let rec_ := natBytes 2 s.clk.era.toNat ++ natBytes 8 (now s).toNat ++ natBytes 2 x.view.prog ++
    natBytes 1 code ++ natBytes 1 (h * 16) ++ natBytes 1 (t * 16 + n) ++
    natBytes 1 ((x.walked.map (fun w => w.pkt.gen.toNat)).getD 0) ++ natBytes 2 (x.pc % 8192) ++
    [(x.walked.map (fun w => byteAt w.key 32)).getD 0, 0] ++ natBytes 8 x.word.toNat ++
    natBytes 4 (addr.getD (freeNat s0))
  let full := decide (64 ≤ s.tine.faultLog.length)
  let s1 := modTine (fun t => { t with
    faultLog := (if full then t.faultLog.drop 1 else t.faultLog) ++ [rec_],
    faultRead := if full then t.faultRead - 1 else t.faultRead }) s
  if full && decide (s.tine.faultRead = 0) then bump cFaultLogLost scDevice 1 s1 else s1

/-- EV_TINE_FAULT, at most once per program in any millisecond. -/
def faultEvent (prog code : Nat) (s : State) : State :=
  let quiet := match tabGet none s.tine.lastFault prog with
    | some e => decide (tlDiff e (now s) < msGrains)
    | none => false
  if quiet then s
  else raise 0x0A01 prog (code * 256)
    (modTine (fun t => { t with lastFault := tabSet none t.lastFault prog (some (now s)) }) s)

/-- A fault ends the pass of a thread whose state is `x` (R352). The thread is not yet freed. -/
def faultPass (h t n : Nat) (x : Thread) (code : Nat) (addr : Option Nat) (s : State) : State :=
  let p := x.view.prog
  let s1 := bump cFaults (scProgram p) 1 (logFault h t n x code addr s)
  let s2 := if x.view.faultDisable then modProg p (fun d => { d with disabled := true }) s1 else s1
  let s3 := faultEvent p code s2
  match x.walked with
  | some w => discardPkt w.pkt s3
  | none => s3

/-! Issue (R333, R348, R356, R361). -/

/-- What an instruction does. -/
inductive TRes
  /-- A fault: code, and the offending address or operand where there is one. -/
  | fault (code : Nat) (addr : Option Nat)
  /-- It completes: the thread, the state, and whether a BR is taken. -/
  | ok (x : Thread) (s : State) (taken : Bool)
  /-- It waits for a service; the program counter stays on it until the result. -/
  | wait (x : Thread) (s : State)
  /-- It ends the pass; the event of Table 14-3. -/
  | stop (event : Nat) (s : State)

/-- The instruction completes and the next one follows. -/
def tDone (x : Thread) (s : State) : TRes := .ok { x with pc := x.pc + 1 } s false

/-! Scratch accesses (R335, R367, R368). -/

/-- Register `r`. -/
def vReg (x : Thread) (r : BitVec 4) : BitVec 32 := tabGet 0 x.v r.toNat
/-- An immediate offset or index, plus VA when RA is 1, in 32 bits (R359). -/
def plusVA (f : TFields) (x : Thread) (off : Nat) : Nat :=
  if f.ra then (BitVec.ofNat 32 off + vReg x f.va).toNat else off
/-- Key of a scratch offset of a program in a harrow. -/
def scratchAt (h : Nat) (x : Thread) (off : Nat) : Nat := h * 131072 + x.view.scrBase + off

/-- The scratch word that an instruction accesses, if it does. -/
def scratchWord (h op : Nat) (f : TFields) (x : Thread) : Option Nat :=
  if (op = 0x40 ∨ op = 0x41) ∧ f.fn = 2 then
    some (scratchAt h x (plusVA f x (bits f.imm.toNat 16 0)) / 8)
  else if op = 0x42 then some (scratchAt h x (plusVA f x (bits f.imm.toNat 16 3 * 8)) / 8)
  else none

/-- An access of another tine to the same word came earlier in this core cycle, so that this one is
held back (SCRATCH_CONFLICT of Table 14-3). Instructions that tines issue at one timeline value issue
in one core cycle, in the order of their commands. -/
def scratchHeld (s : State) (k : Nat) (word : Option Nat) : Bool :=
  match word with
  | none => false
  | some w => s.tine.scratchSeen.any (fun e => e.1 == (now s).toNat / 50 && e.2.1 != k && e.2.2 == w)

/-- A tine has accessed a scratch word in this core cycle. -/
def noteScratch (k : Nat) (word : Option Nat) (s : State) : State :=
  match word with
  | none => s
  | some w =>
    let c := (now s).toNat / 50
    modTine (fun t => { t with
      scratchSeen := t.scratchSeen.filter (fun e => e.1 == c) ++ [(c, k, w)] }) s

/-! Issue. -/

/-- The word that a thread has fetched: that at its instruction address. -/
def fetchedWord (s : State) (x : Thread) : BitVec 64 := tabGet 0 s.tine.imem (x.pc % 8192)

/-- A thread issues the instruction of opcode `op` with fields `f`; `body` is its effect. It does so
when it is ready and its turn has come, its tine is not halted, its harrow not gated (R333), and the
word it has fetched is that instruction. A fetched word with an undefined encoding is an ILLEGAL
fault whatever instruction the command names (R361); any other word is not the command's to issue. -/
def issue (op : Nat) (th : ThreadId) (f : TFields) (body : Thread → State → TRes) (s : State) :
    State :=
  let h := th.harrow.val
  let t := th.tine.val
  let n := th.thread.val
  let x0 := threadOf s h t n
  let w := fetchedWord s x0
  let named := w == insnWord op f
  if !(threadReady x0 && inTurn s h t n && harrowOn s h && coreRuns s) ||
      s.sec.tinesHalted.getLsbD (h * 16 + t) ||
      (!named && insnDefined (wordOp w) (insnFields w)) then s
  else
    let prog := x0.view.prog
    let o := if named then op else wordOp w
    let (tag, s1) := sampIssue h t n o s
    let s2 := bump cInsns (scProgram prog) 1 s1
    let x : Thread := { x0 with
      insns := x0.insns + 1, word := w, stall := 0, stallEvent := 0 }
    let record (taken faulted ended : Bool) (cost : Option Nat) (s : State) : State :=
      match tag with
      | some g => sampRecord h t n prog g taken faulted ended (insnService o) cost s
      | none => s
    let res := if x0.view.limit ≤ x0.insns then TRes.fault 0x09 none
      else if !(named && insnDefined op f) then TRes.fault 0x01 none
      else body x s2
    match res with
    | .fault code addr =>
      record false true false none
        (freeThread h t n (issueCycle h t n [0x02, 0x13] (faultPass h t n x code addr s2)))
    | .ok x' s' taken =>
      let (cost, ev) := insnCost op f taken
      let word := scratchWord h op f x
      let es := (if taken then [0x02, 0x0D] else [0x02]) ++
        (if scratchHeld s' (h * 16 + t) word then [0x14] else [])
      record taken false false (some cost)
        (putThread h t n { x' with stall := cost - 1, stallEvent := ev }
          (issueCycle h t n es (noteScratch (h * 16 + t) word s')))
    | .wait x' s' => putThread h t n { x' with tagged := tag } (issueCycle h t n [0x02] s')
    | .stop ev s' =>
      record false false true (some 1) (freeThread h t n (issueCycle h t n [0x02, ev] s'))

/-! Ends of a pass (R347, R374). -/

/-- The frame a thread emits, before its bushels are settled (R241, R374). A packet that came as
a sheaf stays one, with its descriptor, unless the program makes it another with FN 0x1. -/
def emitBytes (s : State) (x : Thread) (p : Pkt) (mark : Bool) : Bytes × Bool × Bool :=
  let b := threadBytes x
  if mark then (b, true, false)
  else if !p.desc.isEmpty then (p.desc ++ b, true, false)
  else if x.dir then
    if settingN s sQLabel (scUsQueue x.queue) = 2 then
      (b ++ (if p.fcs.isEmpty || x.modified then fcsBytes b else p.fcs), false, true)
    else (b, false, false)
  else if p.fcs.isEmpty then (b, false, false)
  else (b ++ p.fcs, false, true)

/-- EMIT (R393, R398): the packet is written back, taking or giving bushels; then it waits for its
turn in its stream and is enqueued. -/
def emitPass (x : Thread) (mark : Bool) (s : State) : State :=
  match x.walked with
  | none => s
  | some w =>
    let p := w.pkt
    let (b, sheaf, kept) := emitBytes s x p mark
    let need := bushelsOf b.length
    match takeUpTo p.bushels need s with
    | (none, s1) => bump cEmitNobuf scDevice 1 (discardPkt { p with bushels := 0 } s1)
    | (some k, s0) =>
      let s1 := freeBushels (k - need) s0
      let e : Emitted :=
        { ds := !x.dir, queue := x.queue, colour := x.colour, gen := p.gen, bytes := b,
          sheaf := sheaf, fcsKept := kept, modified := x.modified, bushels := need }
      orderLook (modTine (fun t => { t with order := t.order.map (fun o =>
        if o.id == p.order then { o with frame := some e } else o) }) s1)

/-- RECIRCULATE: the packet goes back to the coulter, or in a second pass is discarded
(R329, R374). -/
def recirculatePass (x : Thread) (sheaf : Bool) (node : Option Nat) (s : State) : State :=
  match threadPkt x with
  | none => s
  | some p =>
    if p.recirc then bump cRecircLimit scDevice 1 (discardPkt p s)
    else
      let p' : Pkt :=
        { p with
          recirc := true
          src := if sheaf then 2 else 4
          desc := if sheaf then p.body.take 16 else []
          body := if sheaf then p.body.drop 16 else p.body
          tpl := if sheaf then min (sheafTpl p.body) (p.body.length - 16) else 0
          node := node }
      modCls (fun c => { c with recircQ := c.recircQ ++ [p'] }) (orderLeave p.order s)

/-- TRAP: the packet goes to the Reeve's trap queue of 256 (R347). -/
def trapPass (x : Thread) (reason : BitVec 8) (s : State) : State :=
  match threadPkt x with
  | none => s
  | some p =>
    if 256 ≤ s.tine.trapQ.length then bump cTrapDrop scDevice 1 (discardPkt p s)
    else
      orderLeave p.order (genLeave p.gen (modTine (fun t => { t with
        trapQ := t.trapQ ++ [{ pkt := p, win := x.win, spill := x.spill, tail := x.tail,
                               meta_ := metaBytes x, reason := reason }] }) s))

/-- The Reeve serves the oldest entry of its trap queue: it releases the bushels, or injects the
packet again as a new one (R328, R391). -/
def execTrapQueueService (reinject : Bool) (s : State) : Out :=
  match s.tine.trapQ with
  | [] => .next s
  | e :: rest =>
    let s1 := modTine (fun t => { t with trapQ := rest }) s
    let p := e.pkt
    if !reinject then .next (freeBushels p.bushels s1)
    else
      let fcs := if p.fcs.isEmpty then [] else if p.modified then fcsBytes p.body else p.fcs
      let i : InPkt :=
        { line := p.osrc != 0, port := p.port, group := p.port, lotId := p.lotId, label := p.label,
          keyIdx := p.keyIdx, cls := BitVec.ofNat 8 p.cls, bytes := p.desc ++ p.body ++ fcs,
          fcsKept := !p.fcs.isEmpty, bushels := p.bushels, capture := p.tl }
      .next { s1 with inQ := s1.inQ ++ [i] }

end Sys2Proof.Machine
end

