-- ==== Sys2Proof/Machine/Image.lean ====
section
/-! DEFINITION. Program images: the checks before an image is loaded, its installation, and the vendor
programs of the boot image (spec/12 R336, R349, R351). -/
namespace Sys2Proof.Machine

/-! Program images (Tables 12-5 and 12-6). -/

/-- CODE_COUNT of an image. -/
def imgCode (b : Bytes) : Nat := field b 8 2
/-- CONST_BYTES of an image. -/
def imgConst (b : Bytes) : Nat := field b 10 2
/-- Instruction `i` of an image. -/
def imgWord (b : Bytes) (i : Nat) : BitVec 64 := BitVec.ofNat 64 (field b (64 + 8 * i) 8)
/-- Check 5 for an instruction: its branch target lies in the image. -/
def branchOk (n : Nat) (w : BitVec 64) : Bool :=
  decide (wordOp w ≠ 0x20) || decide (bits w.toNat 12 0 < n)

/-- A word that ends an image: an end of a pass or an unconditional branch. -/
def lastOk (w : BitVec 64) : Bool :=
  decide (0xF0 ≤ wordOp w) || (decide (wordOp w = 0x20) && decide (bits w.toNat 43 40 = 0xF))

/-- Check 6: immediate window and metadata offsets (R342, R359). -/
def windowOk (w : BitVec 64) : Bool :=
  let f := insnFields w
  let i := f.imm.toNat
  let n := f.n.toNat + 1
  let fits (off : Nat) : Bool := decide (off + n ≤ 256)
  match wordOp w with
  | 0x30 | 0x31 | 0x32 | 0x33 => f.ra || fits (bits i 7 0)
  | 0x34 =>
    let fn := f.fn.toNat
    (f.rb || !(fn == 2 || fn == 5) || fits (bits i 31 16)) &&
      (f.ra || !(fn == 0 || fn == 1 || fn == 5) || fits (bits i 15 0))
  | 0x35 => f.ra || f.fn == 0 || fits (bits i 15 0)
  | 0x40 => f.ra || f.fn != 3 || decide (bits i 16 0 + n ≤ 96)
  | 0x41 => f.ra || f.fn != 3
  | _ => true

/-- Check 7: immediate constant, scratch and program-region offsets. -/
def rangeOk (img : Bytes) (w : BitVec 64) : Bool :=
  let f := insnFields w
  let i := f.imm.toNat
  let n := f.n.toNat + 1
  let scr := field img 16 4
  let sram := field img 20 4
  match wordOp w with
  | 0x34 => f.rb || !(f.fn == 0 || f.fn == 3) || decide (bits i 31 16 + n ≤ imgConst img)
  | 0x40 | 0x41 => f.ra || (if f.fn = 1 then decide (bits i 16 0 + n ≤ imgConst img)
      else f.fn != 2 || decide (bits i 16 0 + n ≤ scr))
  | 0x42 => f.ra || decide (bits i 16 3 * 8 + 8 ≤ scr)
  | 0x43 | 0x44 => f.ra || decide (bits i 23 0 + 8 * n ≤ sram)
  | 0x45 => f.ra || decide (bits i 23 0 + 8 ≤ sram)
  | _ => true

/-- The ALLOW bit an instruction always needs (Table 13-4, R371): of SET_QUEUE, FN 0x1 does. EMIT
needs one only for DIR 1, which the code does not show. -/
def allowNeeded (w : BitVec 64) : Option Nat :=
  match wordOp w with
  | 0x54 => if (insnFields w).fn = 1 then some 3 else none
  | 0x50 => some 2
  | 0x51 => some 2
  | 0x52 => some 1
  | 0x53 => some 1
  | 0x58 => some 0
  | 0xF2 => some 4
  | 0xF3 => some 5
  | _ => none

/-- Check 8 for an instruction: its ALLOW bit is in USES. -/
def usesOk (img : Bytes) (w : BitVec 64) : Bool :=
  match allowNeeded w with
  | some b => (byteAt img 24).getLsbD b
  | none => true

/-- Ranges of instruction memory or of the constant area in use: those of loaded programs and of
the passes that still run (R351). -/
def usedRanges (code : Bool) (s : State) : List (Nat × Nat) :=
  (s.tine.progs.filterMap (fun (p : Nat × Prog) =>
    if p.2.loaded then some (if code then (p.2.base, p.2.codeLen) else (p.2.constBase, p.2.constLen))
    else none)) ++
  (s.tine.threads.filterMap (fun (p : Nat × Thread) =>
    let v := p.2.view
    if p.2.busy then some (if code then (v.base, v.codeLen) else (v.constBase, v.constLen))
    else none))

/-- The lowest free place for `n` units in a memory of `size`. -/
def freePlace (used : List (Nat × Nat)) (size n : Nat) : Option Nat :=
  let starts := 0 :: used.map (fun r => r.1 + r.2)
  (starts.filter (fun a => decide (a + n ≤ size) &&
    used.all (fun r => decide (r.2 = 0) || decide (a + n ≤ r.1) || decide (r.1 + r.2 ≤ a)))).foldl
    (fun m a => match m with
      | some b => some (min a b)
      | none => some a) none

/-- A check made of every instruction: status, code and index of the first that fails it. -/
def checkWords (img : Bytes) (code st : Nat) (ok : BitVec 64 → Bool) : Option (Nat × Nat × Nat) :=
  let i := ((List.range (imgCode img)).map (imgWord img)).findIdx (fun w => !ok w)
  if i < imgCode img then some (st, code, i) else none

/-- A check of the whole image. -/
def checkImage (code st : Nat) (ok : Bool) : Option (Nat × Nat × Nat) :=
  if ok then none else some (st, code, 0xFFFF)

/-- Check 2: the field ranges of Table 12-5 and the length. -/
def imageRanges (img : Bytes) : Bool :=
  let n := imgCode img
  let k := imgConst img
  let limit := field img 12 2
  decide (1 ≤ n) && decide (n ≤ 8192) && decide (k ≤ 8192) && decide (k % 8 = 0) &&
    decide (16 ≤ limit) && decide (limit ≤ 2048) && decide (field img 14 2 < n) &&
    decide (img.length = 64 + 8 * n + k)

/-- Check 10: there is room beside the code and constants in use. -/
def imageFits (img : Bytes) (s : State) : Bool :=
  (freePlace (usedRanges true s) 8192 (imgCode img)).isSome &&
    (decide (imgConst img = 0) || (freePlace (usedRanges false s) 8192 (imgConst img)).isSome)

/-- Check 9 and the second half of check 8: needs against the descriptor. -/
def needsOk (img : Bytes) (s : State) : Bool :=
  let sc := scProgram (field img 6 2 % 4096)
  decide (field img 16 4 ≤ settingN s sScrLen sc) && decide (field img 20 4 ≤ settingN s sSramLen sc)

/-- USES lies within ALLOW. -/
def usesAllowed (img : Bytes) (s : State) : Bool :=
  let uses := (byteAt img 24).toNat % 64
  decide (uses &&& settingN s sAllow (scProgram (field img 6 2 % 4096)) = uses)

/-- The first check that an image fails (Table 12-6): status, check code, instruction index. The
checks that read every instruction come only after the image's length has been found right. -/
def programOffence (img : Bytes) (s : State) : Option (Nat × Nat × Nat) :=
  match [checkImage 1 4 (decide (field img 0 4 = 0x54494E45) && decide (field img 4 2 = 1)),
      checkImage 2 4 (imageRanges img),
      checkImage 3 4 (decide (crc32 (patch img 60 [0, 0, 0, 0]) = field img 60 4))].findSome? id with
  | some e => some e
  | none =>
    let n := imgCode img
    [checkWords img 4 4 (fun w => insnDefined (wordOp w) (insnFields w)),
     checkWords img 5 4 (branchOk n),
     if lastOk (imgWord img (n - 1)) then none else some (4, 5, n - 1),
     checkWords img 6 4 windowOk, checkWords img 7 4 (rangeOk img), checkWords img 8 5 (usesOk img),
     checkImage 8 5 (usesAllowed img s), checkImage 9 5 (needsOk img s),
     checkImage 10 7 (imageFits img s)].findSome? id

/-- Write a checked image into every harrow and change its descriptor (R351). -/
def installProgram (img : Bytes) (s : State) : State :=
  let n := imgCode img
  let k := imgConst img
  let base := (freePlace (usedRanges true s) 8192 n).getD 0
  let cbase := if k = 0 then 0 else (freePlace (usedRanges false s) 8192 k).getD 0
  let consts := slice img (64 + 8 * n) k
  modProg (field img 6 2 % 4096) (fun p => { p with
      loaded := true
      base := base
      entry := base + field img 14 2
      codeLen := n
      constBase := cbase
      constLen := k
      limit := field img 12 2 })
    (modTine (fun t => { t with
      imem := tabPut 0 t.imem base ((List.range n).map (imgWord img))
      const_ := tabPut 0 t.const_ cbase consts }) s)

/-! Vendor programs (R336). -/

/-- Settings that firmware gives vendor program `i` from the boot image; their values, which the spec
does not give, are free within their ranges (Table 12-2; log entry 113). -/
def vendorPerms (img : Bool) (fw : BitVec 32) (i : Nat) (s : State) : State :=
  let v (k : Nat) : Nat := Config.vendorPerm img fw i k
  let base (k size : Nat) : Nat := v k % (size / 64 + 1) * 64
  let len (b k size : Nat) : Nat := v k % ((size - b) / 64 + 1) * 64
  let b0 := base 0 131072
  let b1 := base 3 16777216
  each (fun (g : SSpec × Nat) s => putSetting g.1 (scProgram i) 0 g.2 s)
    [(sScrBase, b0), (sScrLen, len b0 1 131072), (sSramCh, v 2 % 2), (sSramBase, b1),
     (sSramLen, len b1 4 16777216), (sKeyMask, v 5 % 2 ^ 128), (sAllow, v 6 % 64),
     (sAffinity, v 7 % 2), (sFaultAction, v 8 % 2)] s

/-- Firmware loads vendor program `i` from the boot image, where the image has one that passes the
checks of Table 12-6. -/
def vendorProgram (img : Bool) (fw : BitVec 32) (i : Nat) (s : State) : State :=
  match Config.vendorImage img fw i with
  | none => s
  | some b =>
    let s1 := vendorPerms img fw i s
    if (programOffence b s1).isNone && decide (field b 6 2 % 4096 = i) then installProgram b s1
    else s1

/-- Firmware loads the vendor programs 1 to 63 from the boot image. -/
def vendorPrograms (img : Bool) (fw : BitVec 32) (s : State) : State :=
  each (vendorProgram img fw) ((List.range 63).map (· + 1)) s

end Sys2Proof.Machine
end

