-- ==== Sys2Proof/Machine/Answer.lean ====
section
/-! DEFINITION. Replies and responses of the Icben commands (spec/20 R532, R533, R535). -/
namespace Sys2Proof.Machine

/-! Replies (R532, R557). -/

/-- What a command answers: STATUS (Table 20-4) and payload. `later`: nothing yet, the cipher engine
has the command's operation. -/
structure Reply where
  status : Nat
  payload : Bytes := []
  later : Bool := false
  deriving DecidableEq, Repr

/-- A command as its own chapter sees it: payload after any AT_SWATH field, the SC that field
named, TAG, and whether a management lot carried it. -/
structure Call where
  payload : Bytes
  sc : Option (BitVec 48) := none
  tag : BitVec 16 := 0
  mgmt : Bool := false
  deriving DecidableEq, Repr

/-- What a command does. With an error status it leaves the state as its chapter says, which is
unchanged unless a rule counts the refusal. -/
abbrev CmdBody := Call → State → Reply × State

/-- ST_OK with a payload. -/
def stOk (p : Bytes) (s : State) : Reply × State := ({ status := 0, payload := p }, s)
/-- ST_PENDING. -/
def stPending (s : State) : Reply × State := ({ status := 1 }, s)
/-- An error: statuses 4 to 7 carry the detail of Table 21-4. -/
def refuse (status code idx : Nat) (s : State) : Reply × State :=
  ({ status := status,
     payload := if 4 ≤ status ∧ status ≤ 7 then natBytes 1 code ++ [0] ++ natBytes 2 idx else [] }, s)
/-- ST_BUSY. -/
def stBusy (s : State) : Reply × State := refuse 2 0 0 s
/-- ST_BAD_LENGTH. -/
def badLength (s : State) : Reply × State := refuse 3 0 0 s
/-- ST_BAD_ARG with a detail. -/
def badArg (code idx : Nat) (s : State) : Reply × State := refuse 4 code idx s
/-- ST_DENIED. -/
def stDenied (s : State) : Reply × State := refuse 5 0 0 s
/-- ST_NOT_IN_STATE. -/
def notInState (s : State) : Reply × State := refuse 6 0 0 s
/-- ST_NO_RESOURCE with a detail. -/
def noResource (code idx : Nat) (s : State) : Reply × State := refuse 7 code idx s
/-- An error status. -/
def isError (r : Reply) : Bool := decide (2 ≤ r.status)

/-! Responses (R533, R535, R546). -/

/-- Change the mailbox. -/
def modWin (f : Win → Win) (s : State) : State := { s with win := f s.win }
/-- Change the Reeve. -/
def modReeve (f : Reeve → Reeve) (s : State) : State := { s with reeve := f s.reeve }
/-- A mailbox command is taken and its response is not yet posted (R535). -/
def mailboxOpen (s : State) : Bool :=
  s.win.rung || s.reeve.taken.any (fun t => t.cmd.src == .mailbox) || !s.reeve.responses.isEmpty ||
  s.reeve.deferred.any (fun d => d.cmd.src == .mailbox && d.sc.isNone) ||
  s.pair.held.any (fun h => h.awaitAck && h.cmd.src == .mailbox) || !s.reeve.sealing.isEmpty

/-- CMD_BUSY as R535 gives it. -/
def busyLook (s : State) : State := modWin (fun w => { w with cmdBusy := mailboxOpen s }) s

/-- A response as it stands in the outbound window. -/
def respBytes (r : Resp) : Bytes :=
  natBytes 2 r.opcode.toNat ++ natBytes 2 r.payload.length ++ natBytes 2 r.tag.toNat ++
    natBytes 2 r.status.toNat ++ r.payload

/-- Post the oldest response when the outbound window is free; a posted SYS_RESET or ACTIVATE
waits for the acknowledgement (R535, R549). -/
def postResponses (s : State) : State :=
  match s.reeve.responses with
  | [] => s
  | r :: rest =>
    if s.win.respValid then s
    else setInt intResp (modWin (fun w => { w with outbound := respBytes r, respValid := true })
      (modReeve (fun v => { v with responses := rest }) s))

/-- Answer a command by the way it came. -/
def answer (op : Nat) (c : Cmd) (r : Reply) (s : State) : State :=
  let x : Resp := { src := c.src, opcode := BitVec.ofNat 16 op, tag := c.tag,
                    status := BitVec.ofNat 16 r.status, payload := r.payload }
  match c.src with
  | .mailbox =>
    busyLook (postResponses (modReeve (fun v => { v with responses := v.responses ++ [x] }) s))
  | .mgmt i id key => modInst i (fun y => { y with mgmtOut := y.mgmtOut ++ [(id, key, respBytes x)] }) s
  | .mirror _ => s

/-- Firmware runs: neither a fault nor the debug port has halted the Reeve (R524, Table 17-4). -/
def reeveRuns (s : State) : Bool := !s.reeve.halted && !s.sec.reeveHalted

/-- ST_DENIED with a cipher status (R566): 1 tag, 2 NO_KEY, 3 aborted. -/
def cryDenied (st : Nat) (s : State) : Reply × State := refuse 5 st 0 s

/-- The operation of a CRY_SEAL or CRY_UNSEAL has ended: the command is answered, unless it has been
forgotten meanwhile (Table 18-12, REEVE_CTX). -/
def sealAnswer (id : Nat) (r : Reply) (s : State) : State :=
  match s.reeve.sealing.find? (fun p => p.1 == id) with
  | none => s
  | some (_, op, tag) =>
    answer op.toNat
      { src := .mailbox, tag := tag, mirror := false, atSwath := false, rsvd := 0, payload := [] } r
      (modReeve (fun v => { v with sealing := v.sealing.filter (fun p => p.1 != id) }) s)

end Sys2Proof.Machine
end

