-- ==== Sys2Proof/Machine/Keys.lean ====
section
/-! DEFINITION. The cipher engine's completions, the random bit generator and the key registers
(spec/16). -/
namespace Sys2Proof.Machine

/-! Ends of an operation. -/

/-- Change the lot of lane `x` that waits for operation `id`. -/
def modTxCipher (x id : Nat) (f : TxLot → TxLot) (s : State) : State :=
  modUsLane x (fun l => { l with bursts := l.bursts.map (fun b =>
    { b with lots := b.lots.map (fun t => if t.cipher == some id then f t else t) }) }) s

/-- The lots of lane `x` that wait for operation `id`, with the grain of their header. -/
def txCipherLots (s : State) (x id : Nat) : List (BitVec 64 × TxLot) :=
  (usLaneOf s x).bursts.flatMap (fun b =>
    (lotGrains b).filter (fun p => p.2.cipher == some id))

/-- The first byte of the lot that waits for operation `id` was due in the burst being sent before
this moment (R424). -/
def txCipherLate (s : State) (x id : Nat) : Bool :=
  (usLaneOf s x).bursts.any (fun b => b.sending && (lotGrains b).any (fun p =>
    p.2.cipher == some id && decide (0 < tlDiff p.1 (now s))))

/-- An upstream lot whose encryption was aborted, or completes too late: an idle lot of its occupied
length goes in its place and its frame is lost (Table 16-7, R424); a number it has not received yet stays due to it
(R119). -/
def loseTxLot (x id : Nat) (s : State) : State :=
  let lots := txCipherLots s x id
  let s1 := modTxCipher x id (fun t =>
    { t with hdr := (idleLot (occupied (lotLen t.hdr) - 8)).hdr, payload := [], cipher := none,
             ready := true, ends := none }) s
  each (fun (p : BitVec 64 × TxLot) s =>
    let s' := if p.2.num then s
      else { s with us := { s.us with ghosts := s.us.ghosts ++ [(x, p.1)] } }
    match p.2.queue with
    | some q => if bits p.2.hdr.toNat 25 24 % 2 = 0 then loseFrame q s' else s'
    | none => s') lots s1

/-- Change the burst of lane `x` whose message waits for operation `id`. -/
def modTxMsg (x id : Nat) (f : Burst → Burst) (s : State) : State :=
  modUsLane x (fun l => { l with bursts := l.bursts.map (fun b =>
    if b.msgOp == some id then f b else b) }) s

/-- The message of a burst has its tag. -/
def tagTxMsg (x id : Nat) (tag : Bytes) (s : State) : State :=
  modTxMsg x id (fun b => { b with msg := b.msg.map (fun m => m ++ tag.take 8), msgOp := none,
                                   msgBack := none }) s

/-- A burst header with MSG = 0 (Table 4-3). -/
def headerNoMsg (h : Bytes) : Bytes :=
  let b := (h.take 14).modify 2 (fun v => v &&& 0xF7)
  b ++ natBytes 2 (crc16 (bitsOf b))

/-- The tag of an upstream message was aborted: MSG = 0, an idle lot of LEN 40 at bytes 16 to 63, and
the message returns to the head of its queue (Table 16-7). -/
def loseTxMsg (x id : Nat) (s : State) : State :=
  match (usLaneOf s x).bursts.find? (fun b => b.msgOp == some id) with
  | none => s
  | some b =>
    modInst (ltxOwner s x) (fun y => { y with txQueue := b.msgBack.toList ++ y.txQueue })
      (modTxMsg x id (fun b => { b with hdr := headerNoMsg b.hdr, msg := none, msgOp := none,
                                        msgBack := none, lots := idleLot 40 :: b.lots }) s)

/-- A cipher call answers its thread. -/
def tineAnswer (h t n st : Nat) (f : Thread → Thread) (s : State) : State :=
  let x := threadOf s h t n
  match x.wait with
  | some (.cipher vd fn txt tag len none) =>
    putThread h t n { f x with wait := some (.cipher vd fn txt tag len (some st)) } s
  | _ => s

/-- An operation ends without output: `abort` when its slot was erased or the engine has stopped,
otherwise because its target has no key, where a field message takes CRC-64 (Table 16-7, R440). -/
def cryNoOutput (abort : Bool) (o : CryOp) (s : State) : State :=
  let s1 := if abort then bump cCryAborted scDevice 1 s else s
  match o.dst with
  | .rxLot g lot =>
    relCipherDone g lot.key .gone (bump cNoKey (scLot (bits lot.hdr.toNat 63 48)) 1 s1)
  | .txLot x => loseTxLot x o.id s1
  | .txMsg x => if abort then loseTxMsg x o.id s1 else tagTxMsg x o.id (natBytes 8 (crc64 o.aad)) s1
  | .tine h t n => tineAnswer h t n (if abort then 3 else 2) id s1
  | .command => sealAnswer o.id (cryDenied (if abort then 3 else 2) s1).1 s1

/-- Packet bytes replaced in the window, the spill store and the tail of a thread; `inWin`: a byte of
the window is among those rewritten (R342). -/
def setThreadBytes (inWin : Bool) (b : Bytes) (x : Thread) : Thread :=
  let w := x.win.length
  let p := x.spill.length
  { x with win := b.take w, spill := (b.drop w).take p, tail := b.drop (w + p),
           modified := x.modified || inWin }

/-- A cipher call has run: its output bytes and its status (Tables 13-8 and 13-9). -/
def tineCipherDone (h t n : Nat) (o : CryOp) (key : Bytes) (s : State) : State :=
  match (threadOf s h t n).wait with
  | some (.cipher _ fn txt tag len none) =>
    let put (i : Nat) (b : Bytes) (x : Thread) : Thread :=
      setThreadBytes (decide (i < x.win.length) && !b.isEmpty) (patch (threadBytes x) i b) x
    match runOp o key with
    | none => tineAnswer h t n 1 id s
    | some (text, g) =>
      if fn = 0 then tineAnswer h t n 0 (fun x => put tag (g.take len) (put txt text x)) s
      else if fn = 1 then tineAnswer h t n 0 (put txt text) s
      else if fn = 2 ∨ fn = 4 then tineAnswer h t n 0 (put tag (g.take len)) s
      else if fn = 3 then tineAnswer h t n 0 id s
      else tineAnswer h t n (if g.take len = o.tag then 0 else 1) id s
  | _ => s

/-- An operation completes under the key of its start (R441). -/
def cryDone (o : CryOp) (key : Bytes) (s : State) : State :=
  match o.dst with
  | .rxLot g lot =>
    match runOp o key with
    | none => relCipherDone g lot.key .gone (bump cAuthFail (scLot (bits lot.hdr.toNat 63 48)) 1 s)
    | some (b, _) => relCipherDone g lot.key (.clear b) s
  | .txLot x =>
    if txCipherLate s x o.id then loseTxLot x o.id (bump cCryTxLate (scLtx x) 1 s)
    else modTxCipher x o.id (fun t =>
      let t' := { t with cipher := none, ready := true, keyNonce := some (key, o.nonce) }
      if t.num then numberLot (bits t.hdr.toNat 21 10) t' else t') s
  | .txMsg x => tagTxMsg x o.id (((runOp o key).map (fun r => r.2)).getD []) s
  | .tine h t n => tineCipherDone h t n o key s
  | .command =>
    match runOp o key with
    | none => sealAnswer o.id (cryDenied 1 s).1 s
    | some (b, g) =>
      sealAnswer o.id { status := 0, payload := if o.mode = .seal then o.nonce ++ b ++ g else b } s

/-- The operation leaves the engine; of OTHER, the other kind is next (R423). -/
def dropOp (o : CryOp) (s : State) : State :=
  { s with cry := { s.cry with
      ops := s.cry.ops.filter (fun p => p.id != o.id)
      commandTurn := if o.client = 2 then o.dst != .command else s.cry.commandTurn } }

/-- The next operation of a client completes (R422, R423). One that found no key, or that the stopped
engine never started, ends without output. -/
def execCipherOpComplete (client : Fin 3) (s : State) : Out :=
  match nextOp s client with
  | none => .next s
  | some o =>
    let s1 := dropOp o s
    .next (startOps (match o.started with
      | some x => if s.cry.stopped then cryNoOutput true o s1 else cryDone o x.key s1
      | none => cryNoOutput s.cry.stopped o s1))

/-! The random bit generator (R427, R428). -/

/-- A reseed is due: 65,536 generate requests or 1 s since the last one, whichever comes first (R427),
or a retry (R428). -/
def reseedDue (s : State) : Bool :=
  s.cry.entropyFailed || decide (65536 ≤ s.cry.requests) ||
    decide (secGrains ≤ tlDiff s.cry.reseedAt (now s))

/-- The generator reseeds when that is due; `ok`: entropy that has passed the repetition count and
the adaptive proportion test was found (R427). A retry that fails again raises nothing more. -/
def execDrbgReseed (ok : Bool) (s : State) : Out :=
  if !reseedDue s then .next s
  else if ok then
    .next (startOps { s with cry := { s.cry with
      requests := 0, reseedAt := now s, entropyFailed := false, stopped := false } })
  else if s.cry.entropyFailed then .next s
  else .next (raise 0x0D01 0 0 (bump cEntropyFail scDevice 1
    { s with cry := { s.cry with entropyFailed := true } }))

/-- 2^24 generate requests have passed without a successful reseed: the engine stops, and every
operation it has ends. -/
def execEntropyExhausted (s : State) : Out :=
  if s.cry.entropyFailed && !s.cry.stopped && decide (2 ^ 24 ≤ s.cry.requests) then
    .next (each (cryNoOutput true) s.cry.ops
      { s with cry := { s.cry with stopped := true, ops := [] } })
  else .next s

/-! Slots (R436, R441-R443). -/

/-- The slot an operation has started on, or would start on now. -/
def opSlot (s : State) (o : CryOp) : Option Nat :=
  if o.started.isSome || o.use == 5 then some o.slot else boundSlot s o.use o.target o.keyIdx

/-- The instance whose key encrypts queue lots: the working one in dual-parented mode (R408). -/
def queueInst (s : State) : Nat := if s.act.dual then s.act.working else 0

/-- Look after keys have come or gone: NO_TX_KEY may be raised again for a queue whose index has
a key (R440); a domain without a time key has no TAF (Table 16-9); the calendar may resume (R575). -/
def keysLook (s : State) : State :=
  let s1 := each (fun (p : Nat × Queue) s =>
    if p.2.noKeyRaised && (keySlot s 2 (queueInst s) (queueKeyIdx s p.1)).isSome then
      modUs p.1 (fun k => { k with noKeyRaised := false }) s
    else s) s.qos.us s
  calendarLook (each (fun d s =>
    if (keySlot s 4 d 0).isNone then setDomDefect d true false s else s) [0, 1] s1)

/-- Zeroise the slots of `ks`, aborting what runs or waits on them (R436, R443). -/
def eraseSlots (ks : List Nat) (s : State) : State :=
  let hit := s.cry.ops.filter (fun o => match opSlot s o with
    | some k => ks.contains k
    | none => false)
  let s1 := { s with cry := { s.cry with
    ops := s.cry.ops.filter (fun o => !(hit.map (·.id)).contains o.id) } }
  let s2 := each (fun k => modSlot k (fun x =>
    { x with share0 := [], share1 := [], loaded := false, size256 := false, gen := x.gen + 1,
             salt := 0, ctr := 0 })) ks s1
  startOps (keysLook (each (cryNoOutput true) hit s2))

/-- ERASE_ALL. -/
def eraseAll (s : State) : State := eraseSlots (List.range 128) s

/-- Generations older than the current one under which started operations of a slot run. -/
def oldGens (s : State) (k : Nat) : List (BitVec 8) :=
  (s.cry.ops.filterMap (fun o => match o.started with
    | some x => if o.slot = k ∧ x.gen ≠ (slotOf s k).gen then some x.gen else none
    | none => none)).eraseDups

/-- A LOAD is refused (Table 16-6, R451, R460, R467). -/
def loadDenied (s : State) (wrapped : Bool) : Bool :=
  s.sec.upstreamInhibit || s.pwr.st == .fallow || s.pwr.st == .deepFallow || decide (lifeCycle s = 3) ||
  (if wrapped then decide (lifeCycle s = 0) || !kekValid s else decide (lifeCycle s = 2))

/-- What a LOAD does: its RESULT and the state (R436, R437, R442). The key enters the slot under fresh
mask bits (R425). -/
def loadKey (wrapped size256 : Bool) (s : State) : BitVec 3 × State :=
  let k := s.cry.sel.toNat
  let n := if size256 then 32 else 16
  if loadDenied s wrapped then (2, s)
  else
    let key : Option Bytes :=
      if wrapped then kwUnwrap (natBytes 32 s.fuses.kek.toNat) (s.cry.data.take (n + 8))
      else some (s.cry.data.take n)
    match key with
    | none => (3, bump cKeyUnwrapFail scDevice 1 s)
    | some b =>
      if 2 ≤ (oldGens s k).length then (5, s)
      else
        let (salt, s1) := rngDraw s
        let mask := natBytes b.length (Config.maskBits s1.cry.masks).toNat
        let s2 := modSlot k (fun x => { x.withKey b mask with
          loaded := true, size256 := size256, gen := x.gen + 1,
          salt := BitVec.ofNat 32 salt, ctr := 0 }) (maskDraw 1 s1)
        (0, startOps (keysLook (bump cKeyLoads scDevice 1 s2)))

/-- KEY_WRITES of the lifetime store (Table 22-2). -/
def keyWritten (s : State) : State :=
  { s with life := { s.life with
    live := { s.life.live with keyWrites := s.life.live.keyWrites + 1 } } }

/-- A key request takes effect: RESULT is set, KEY_DATA and BUSY are cleared. -/
def execKeyRequestCommit (s : State) : Out :=
  let fin (r : BitVec 3) (s : State) : State :=
    { s with cry := { s.cry with req := none, result := r, data := List.replicate 40 0 } }
  match s.cry.req with
  | none => .next s
  | some (.load w z) =>
    let (r, s1) := loadKey w z s
    .next (fin r (if r = 0 then keyWritten s1 else s1))
  | some .erase => .next (fin 0 (keyWritten (eraseSlots [s.cry.sel.toNat] s)))
  | some .eraseAll => .next (fin 0 (keyWritten (eraseAll s)))

/-! The registers (R435, R436). -/

/-- A write to a key register: while BUSY it is ignored and RESULT becomes BUSY. -/
def keyWrite (f : Cry → Cry) (s : State) : State :=
  { s with cry := if s.cry.req.isSome then { s.cry with result := 1 } else f s.cry }

/-- A write to a key register by its own command: SDR only (R529). -/
def keyAccess (f : State → State) (s : State) : State :=
  addressed (fun s => if s.i3c.hdr then s else f s) s

/-- KEY_SEL as written: the slot; KEY_DATA is cleared. -/
def keySelWrite (v : BitVec 8) (s : State) : State :=
  keyWrite (fun c => { c with sel := v.setWidth 7, data := List.replicate 40 0 }) s

/-- KEY_SEL. -/
def execKeySelWrite (value : BitVec 8) (s : State) : Out := .next (keyAccess (keySelWrite value) s)
/-- KEY_CTRL with OP LOAD and a defined SIZE. -/
def execKeyLoad (wrapped size256 : Bool) (s : State) : Out :=
  .next (keyAccess (keyWrite (fun c => { c with req := some (.load wrapped size256) })) s)
/-- KEY_CTRL with OP ERASE. -/
def execKeyErase (s : State) : Out :=
  .next (keyAccess (keyWrite (fun c => { c with req := some .erase })) s)
/-- KEY_CTRL with OP ERASE_ALL. -/
def execKeyEraseAll (s : State) : Out :=
  .next (keyAccess (keyWrite (fun c => { c with req := some .eraseAll })) s)

/-- KEY_CTRL as written through the window: a reserved OP or SIZE gives BAD_OP. -/
def keyCtrlWrite (v : BitVec 8) (s : State) : State :=
  let op := v.toNat / 16
  let size := v.toNat % 4
  let wrapped := v.getLsbD 3
  keyWrite (fun c =>
    if op = 0 ∨ 3 < op ∨ 1 < size then { c with result := 4 }
    else if op = 1 then { c with req := some (.load wrapped (size == 1)) }
    else if op = 2 then { c with req := some .erase }
    else { c with req := some .eraseAll }) s

/-- KEY_DATA byte `i`. -/
def keyDataWrite (i : Nat) (v : BitVec 8) (s : State) : State :=
  keyWrite (fun c => { c with data := c.data.set i v }) s

end Sys2Proof.Machine
end

