-- ==== Sys2Proof/Machine/Boot.lean ====
section
/-! DEFINITION. Reset, boot and the balls' events (spec/01 R16, R17; spec/17 R446, R451-R456;
spec/20 R548, R549; spec/22 R573; spec/23 R586-R593). -/
namespace Sys2Proof.Machine

/-! Firmware images (R452-R454). -/

/-- Bytes of an image region. A byte that nothing has written reads as 0xFF. -/
def flashBytes (s : State) (img : Bool) (off n : Nat) : Bytes :=
  match (if img then s.flash.freeB else s.flash.freeA) with
  | some k => (List.range n).map (fun i => Config.freeByte k (off + i))
  | none =>
    let t := if img then s.flash.b else s.flash.a
    (List.range n).map (fun i => tabGet 0xFF t (off + i))

/-- The first check of R454 that a header and payload fail, 0 when none; `header` is 320 bytes,
`payload` gives the first bytes after it. -/
def imageOffence (s : State) (header : Bytes) (payload : Nat → Bytes) : Nat :=
  let len := field header 12 4
  let key := slice header 16 97
  if field header 0 4 ≠ 0x4759524E ∨ field header 4 2 ≠ 1 ∨ len = 0 ∨ 786432 < len then 1
  else if sha384 (payload len) ≠ slice header 160 48 then 2
  else if lifeCycle s = 0 then 0
  else if beNat (sha384 key) ≠ s.fuses.bootKeyHash.toNat then 3
  else if !ecdsaVerify key (sha384 (header.take 208)) (slice header 208 96) then 4
  else 0

/-- The check of an image region (R454). -/
def imageCheck (s : State) (img : Bool) : ImageCheck :=
  let h := flashBytes s img 0 320
  { result := BitVec.ofNat 8 (imageOffence s h (flashBytes s img 320))
    fwVersion := BitVec.ofNat 32 (field h 8 4) }

/-! Reset. -/

/-- What a cleared instance keeps: SILENCED and its DURATION (R147). -/
def instCleared (x : Inst) : Inst :=
  if x.st = .silenced then
    match pendingDuration x.todo with
    | some d => { st := .silenced, stBurst := .silenced, prior := .listen, durRunning := d != 0,
                  duration := d }
    | none => { st := .silenced, stBurst := .silenced, prior := .listen,
                durRunning := x.durRunning, duration := x.duration }
  else {}
where
  /-- The DURATION that a SILENCE has left for a boundary the reset does away with: it runs from the
  reset on, since only RELEASE and the end of the DURATION end SILENCED (R147). -/
  pendingDuration (ds : List ActTodo) : Option (BitVec 16) :=
    ds.foldl (fun a d => match d.what with
      | .duration n => some n
      | _ => a) none

/-- Every function at its state after reset. Kept: the timeline and era, and the clocks present
(R16, R17); SILENCED (R147); fuses, boot flash and lifetime store; levels at the balls; after
SYS_RESET (`sys`) the dynamic address (R527) and the unlock failures (R459). -/
def deviceReset (sys : Bool) (s : State) : State :=
  { State.reset with
    clk :=
      { timeline := s.clk.timeline, era := s.clk.era, refclk := s.clk.refclk
        hrefclk := s.clk.hrefclk, tlGap := s.clk.tlGap || !s.clk.refclk
        resumed := s.clk.resumed }
    lanes := s.lanes.foldl (fun t (p : Nat × Lane) =>
      tabSet {} t p.1 { signal := p.2.signal }) []
    us := { freshFrom := some s.clk.timeline }
    act := { inst := tabSet {} (tabSet {} [] 0 (instCleared (instOf s 0))) 1
               (instCleared (instOf s 1)) }
    pair := { roleIn := s.pair.roleIn, readback := s.pair.readback }
    fuses := s.fuses
    sec := { unlockFail := if sys then s.sec.unlockFail else 0, lc := s.sec.lc }
    flash := { s.flash with load := none, erasing := none }
    life := s.life
    pins := { s.pins with gasp := false }
    i3c := { dynAddr := if sys then s.i3c.dynAddr else none }
    freeCtr := s.freeCtr
    pending := s.pending }

/-- The day bin of the last checkpoint closes at boot, and the stored day bins are restored
(R182, R573). -/
def restoreBins (s : State) : State :=
  let open_ : Bin := { start := .untimed s.clk.era (now s) }
  let s1 := match s.life.checkpoints with
    | c :: _ => storeDay { c.dayBin with partial_ := true, restored := true } s
    | [] => s
  { s1 with sup := { s1.sup with
      open15 := open_, openDay := open_
      closedDay := (s1.life.dayBins.map (fun r => r.bin)).take 31 } }

/-- What the ROM does before the bins are restored: the life cycle is decoded and the debug state
follows (R446, R456), and the lifetime summary goes on from the last checkpoint (R573). -/
def romStart (sys : Bool) (s : State) : State :=
  let lc := fuseState s
  let cp := match s.life.checkpoints with
    | c :: _ => c.summary
    | [] => {}
  let live := { cp with
    boots := cp.boots + 1
    coldBoots := cp.coldBoots + bit s.life.cold
    resets := cp.resets + bit (!sys)
    sysResets := cp.sysResets + bit sys }
  { s with
    sec := { s.sec with lc := lc, debug := if lc = 0 ∨ lc = 3 then .open_ else .locked }
    life := { s.life with live := live, cold := false, powerAt := now s }
    pins := { s.pins with inReset := false } }

/-- The ROM starts; a KEK that fails its check is told (R450). -/
def bootUp (sys : Bool) (s : State) : State :=
  let lc := fuseState s
  let s1 := restoreBins (romStart sys s)
  if (lc = 1 ∨ lc = 2) ∧ !kekValid s1 then raise 0x0E01 0 0 s1 else s1

/-- The reset of SYS_RESET, SYS_FW_ACTIVATE, SEC_ADVANCE and RESTART (R549, R451, R525): the straps
are not sampled again. -/
def sysReset (s : State) : State := bootUp true (deviceReset true s)

/-- RESET_N or PWRGOOD low is recognised (R590-R592). -/
def enterReset (s : State) : State :=
  let s1 := deviceReset false s
  { s1 with pins := { s1.pins with inReset := true } }

/-- RESET_N is released with the straps as read; TEST_MODE holds the device in reset. -/
def releaseReset (s : State) : State :=
  if s.pins.testHeld then enterReset s else bootUp false (deviceReset false s)

/-- VDD_AON is first applied (R16): all that is not in fuses, flash or MRAM starts anew, and the
device is in reset until PWRGOOD rises. -/
def execVddAonPowerOn (s : State) : Out :=
  .next { State.reset with
    clk := { refclk := s.clk.refclk, hrefclk := s.clk.hrefclk }
    pair := { roleIn := s.pair.roleIn }
    fuses := s.fuses
    flash := { s.flash with load := none, erasing := none }
    life := { s.life with cold := true, calendar := false, gap := some (false, 0), powerAt := 0
                          lastMark := none }
    pins := { resetN := s.pins.resetN, pwrGood := false, inReset := true }
    freeCtr := s.freeCtr
    pending := s.pending }

/-- RESET_N falls. -/
def execResetNAssert (s : State) : Out :=
  .next (enterReset { s with pins := { s.pins with resetN := false } })

/-- RESET_N rises: the straps are sampled (R586). -/
def execResetNRelease (addr : BitVec 3) (testMode : Bool) (s : State) : Out :=
  let s1 := { s with pins := { s.pins with resetN := true, addr := addr, testHeld := testMode } }
  .next (if s1.pins.pwrGood then releaseReset s1 else enterReset s1)

/-- PWRGOOD falls (R592). -/
def execPwrgoodFall (s : State) : Out :=
  .next (enterReset { s with pins := { s.pins with pwrGood := false } })

/-- PWRGOOD rises: with RESET_N high, a release of RESET_N (R592). -/
def execPwrgoodRise (addr : BitVec 3) (testMode : Bool) (s : State) : Out :=
  let s1 := { s with pins := { s.pins with pwrGood := true } }
  .next (if s1.pins.resetN then
    releaseReset { s1 with pins := { s1.pins with addr := addr, testHeld := testMode } }
  else enterReset s1)

/-- BOOT_STATUS changes (R539). -/
def setBoot (v : BitVec 8) (s : State) : State :=
  if s.win.bootStatus = v then s
  else setInt intBoot { s with win := { s.win with bootStatus := v } }

/-- The outcome of the checks of an image (R454, R455). -/
def bootCheck (read : BootRead) (s : State) (img : Bool) : ImageCheck :=
  match read with
  | .stored => imageCheck s img
  | .outside a b => if img then b else a

/-- An image is taken, with the seeds of the exact-match hashes drawn (R315). -/
def bootTake (img fallback : Bool) (fw : BitVec 32) (a b : Nat) (s : State) : State :=
  { s with
    cls := { s.cls with seedA := BitVec.ofNat 32 a, seedB := BitVec.ofNat 32 b }
    win := { s.win with image := img, fallback := fallback, cmdFree := true, fwVersion := fw } }

/-- BOOT_STATUS is READY with the image (R454, R455), its vendor programs loaded (R336). -/
def bootReady (img fallback : Bool) (fw : BitVec 32) (s : State) : State :=
  setBoot 2 (vendorPrograms img fw (bootTake img fallback fw (rngDraw s).1
    (rngDraw (rngDraw s).2).1 (rngDraw (rngDraw s).2).2))

/-- The ROM has checked the images (R455, R548): the first is the one ACTIVE names, A when the
control block is invalid. Without REFCLK the ROM waits (Table 23-10). -/
def execBootImageCheckDone (read : BootRead) (s : State) : Out :=
  let first := s.flash.active.getD false
  let c := bootCheck read s
  if 1 < s.win.bootStatus.toNat || s.pins.inReset || !s.clk.refclk then .next s
  else if (c first).result = 0 then .next (bootReady first false (c first).fwVersion s)
  else if (c (!first)).result = 0 then
    .next (raise 0x0E02 0 (bit (!first)) (bootReady (!first) true (c (!first)).fwVersion s))
  else .next (setBoot 3 { s with win := { s.win with recovery := true, cmdFree := true } })

/-! GASP_IN (R593). -/

/-- GASP_IN is asserted: the latch is set and a checkpoint written (R572); in reset it is
ignored. -/
def execGaspInAssert (s : State) : Out :=
  if s.pins.inReset then .next s
  else .next (checkpoint true { s with pins := { s.pins with gasp := true } })

/-- GASP_IN has been low for 100 ms. -/
def execGaspInClear (s : State) : Out := .next { s with pins := { s.pins with gasp := false } }

end Sys2Proof.Machine
end

