-- ==== Sys2Proof/Machine/Time.lean ====
section
/-! DEFINITION. Sowing records, plant reports, the asymmetry fit, PPS_IN and the time block's
timers (spec/07). -/
namespace Sys2Proof.Machine

/-! The share of the downstream (R199-R207). -/

/-- A positive fraction: numerator and denominator. -/
structure Ratio where
  num : Int
  den : Int

/-- Sum of two fractions. -/
def ratAdd (a b : Ratio) : Ratio := ⟨a.num * b.den + b.num * a.den, a.den * b.den⟩

/-- Nearest whole number to `a * k / b`, halves upward. -/
def ratRound (k : Int) (a b : Ratio) : Int :=
  let n := k * a.num * b.den
  let d := a.den * b.num
  (2 * n + d) / (2 * d)

/-- rel of R204 in ps/km at frequency `f` MHz, for λ0 in 0.001 nm and S0 in 10^-7: with
C = 299,792,458,000, u = (10^6 C^2 - λ0^2 f^2) / (10^6 C f). -/
def relDelay (f l0 s0 : Nat) : Ratio :=
  let c : Int := 299792458000
  let u : Int := 1000000 * c * c - (l0 : Int) * l0 * f * f
  let v : Int := 1000000 * c * f
  ⟨s0 * u * u, 80000000 * v * v⟩

/-- τ0 = NG0 / c in ps/km, NG0 in 10^-4. -/
def tau0 (ng0 : Nat) : Ratio := ⟨(ng0 : Int) * 100000000000, 299792458⟩

/-- td and td + tu of R204 in ps/km, for the settings' NG0. -/
def modelDelays (s : State) (fd fu l0 s0 : Nat) : Ratio × Ratio :=
  let t0 := tau0 (settingN s sNg0 scDevice)
  let td := ratAdd t0 (relDelay fd l0 s0)
  (td, ratAdd td (ratAdd t0 (relDelay fu l0 s0)))

/-- SHARE in 2^-32 for λ0 in 0.001 nm and S0 in 10^-7 (R204), rounded to its unit: DESIGN CHOICE, log
entry 8. -/
def modelShare (s : State) (fd fu l0 s0 : Nat) : Nat :=
  let (td, sum) := modelDelays s fd fu l0 s0
  (ratRound (2 ^ 32) td sum).toNat

/-- L in m for a fibre round trip in grains (R204), rounded to its unit: DESIGN CHOICE, log entry 8. -/
def modelLength (s : State) (fd fu l0 s0 : Nat) (rttF : Int) : Nat :=
  (ratRound 1000 ⟨rttF * 320, 17⟩ (modelDelays s fd fu l0 s0).2).toNat

/-- A 32-bit frequency of a plant report. -/
def plantFreq (p : Plant) (at_ i : Nat) : Nat := field p.bytes (at_ + 4 * i) 4

/-- Downstream and upstream frequency of the lanes p and x, where both are known (R199). -/
def pairFreq (s : State) (g p x : Nat) : Option (Nat × Nat) :=
  match (groupOf s g).plant with
  | none => none
  | some r =>
    let fd := plantFreq r 24 (laneOf s p).txLane.toNat
    let l := usLaneOf s x
    let fu0 := plantFreq r 40 x
    let fu := if fu0 = 0 then (if l.tunable then l.freq.toNat else 0) else fu0
    if fd = 0 ∨ fu = 0 then none else some (fd, fu)

/-- Fit of domain `d`. -/
def fitOf (s : State) (d : Nat) : Fit := tabGet ({} : Fit) s.time.fit d

/-- The fit of a domain becomes `f`; EV_TIME_FIT at a change of mode or confidence (R205). -/
def putFit (d : Nat) (f : Fit) (s : State) : State :=
  let old := fitOf s d
  let s1 := { s with time := { s.time with fit := tabSet ({} : Fit) s.time.fit d f } }
  if old.mode = f.mode ∧ old.confidence = f.confidence then s1
  else raise 0x0604 d (f.confidence * 256 + f.mode) s1

/-- Confidence of a FIT_SIGMA in 2^-8 grain (R206). -/
def confOf (sigma : Nat) (bound : Bool) : Nat :=
  if bound then 2 else if sigma ≤ 106 * 256 then 0 else if sigma ≤ 531 * 256 then 1 else 2

/-- LAUNCH_SKEW of a lane in grains (Table 7-6). -/
def launchSkew (s : State) (r : Plant) (l : Nat) : Int :=
  signed 32 (field r.bytes (8 + 4 * (laneOf s l).txLane.toNat) 4)

/-- DS_FREQ of a lane, 0 when the report gives it no wavelength. -/
def laneFreq (s : State) (r : Plant) (l : Nat) : Nat := plantFreq r 24 (laneOf s l).txLane.toNat

/-- The lanes t of the fit (R203, Table 7-8): the last window's pairs against the present p that have
a wavelength. -/
def fitPairs (s : State) (r : Plant) (f : Fit) (p : Nat) : List FitMean :=
  f.means.filter (fun x => x.p == p && laneFreq s r x.t != 0)

/-- DGD[t] in 2^-8 grain (R203). -/
def fitDgd (s : State) (r : Plant) (x : FitMean) : Int :=
  x.m - (launchSkew s r x.t - launchSkew s r x.p) * 256

/-- A parameter held within its bounds. -/
def clampTo (lo hi : Nat) (v : Int) : Nat := (max (lo : Int) (min (hi : Int) v)).toNat

/-- The loop of R204 from λ0, S0: L from the values before the step, then the step and the bounds of
Table 7-9. λ0 moves in FULL mode only. Answers λ0, S0 and the last L. -/
def fitLoop (s : State) (full : Bool) (fd fu : Nat) (rttF : Int) (lanes : List Int) :
    Nat → Nat → Nat → Nat → Nat × Nat × Nat
  | 0, l0, s0, len => (l0, s0, len)
  | n + 1, l0, s0, _ =>
    let len := modelLength s fd fu l0 s0 rttF
    let (dl, ds) := Config.gaussNewton ((len : Int) :: l0 :: s0 :: fd :: fu :: lanes)
    fitLoop s full fd fu rttF lanes n (if full then clampTo 1300000 1324000 (l0 + dl) else l0)
      (clampTo 700000 920000 (s0 + ds)) len

/-- Whole square root. -/
def isqrt (n : Nat) : Nat :=
  (List.range 80).foldl (fun r i => let x := r + 2 ^ (79 - i); if x * x ≤ n then x else r) 0

/-- The root mean square of DGD[t] - L (rel(t) - rel(p)) over the lanes t, in 2^-8 grain, each residual
rounded to its unit: DESIGN CHOICE, log entry 8. -/
def fitResidual (dgds : List (Int × Nat)) (fd l0 s0 len : Nat) : Nat :=
  let r (x : Int × Nat) : Int :=
    let a := relDelay x.2 l0 s0
    let b := relDelay fd l0 s0
    let num := (a.num * b.den - b.num * a.den) * (len * 17)
    let den := a.den * b.den * 320000
    x.1 - (2 * 256 * num + den) / (2 * den)
  let sum := (dgds.map (fun x => (r x).natAbs ^ 2)).sum
  if dgds.isEmpty then 0 else isqrt (sum / dgds.length)

/-- Look at Table 7-8 for domain `d`. `window`: at the end of a fit window with those means and that
last SC. At a window's end, and when another mode applies, FULL and SLOPE fit the last window's means
from the priors on (DESIGN CHOICE, log entry 8), by steps whose weights the spec does not give: free
values. The result applies to records after that window, what NONE, OVERRIDE and PRIOR compute without
a window to every record (R205). -/
def fitLook (d : Nat) (window : Option (List FitMean × BitVec 48)) (s : State) : State :=
  let old := fitOf s d
  let f0 : Fit := match window with
    | some (m, sc) => { old with means := m, lastSc := sc }
    | none => old
  let l0 := settingN s sLambda0 scDevice
  let s0 := settingN s sS0 scDevice * 1000
  let fixed (mode share len : Nat) : State :=
    putFit d { f0 with mode := mode, confidence := 3, bound := false, share := share,
                       prevShare := share, length := len, lambda0 := l0, s0 := s0, fitSigma := 0,
                       residual := 0 } s
  if settingN s sAsymMode scDevice = 2 then fixed 4 (settingN s sFixedShare scDevice) 0
  else match f0.px, (groupOf s (timeGroup s d)).plant with
  | some (p, x, rttF), some r =>
    match pairFreq s (timeGroup s d) p x with
    | none => fixed 3 2147483648 0
    | some (fd, fu) =>
      if settingN s sAsymMode scDevice = 1 then
        fixed 4 (modelShare s fd fu l0 s0) (modelLength s fd fu l0 s0 rttF)
      else
        let pairs := fitPairs s r f0 p
        let mode := if 3 ≤ pairs.length then 0 else if 1 ≤ pairs.length then 1 else 2
        if window.isNone && decide (old.mode = mode) && decide (mode ≠ 2) then putFit d f0 s
        else
          let dgds := pairs.map (fun y => (fitDgd s r y, laneFreq s r y.t))
          let lanes : List Int := pairs.flatMap (fun y =>
            [(laneFreq s r y.t : Int), fitDgd s r y, y.n, y.scatter])
          let (fl0, fs0, len) := if mode = 2 then (l0, s0, modelLength s fd fu l0 s0 rttF)
            else fitLoop s (mode == 0) fd fu rttF lanes 3 l0 s0 0
          let share := modelShare s fd fu fl0 fs0
          let bound := (mode == 0 && (fl0 == 1300000 || fl0 == 1324000)) ||
            (mode != 2 && (fs0 == 700000 || fs0 == 920000))
          let sigma := Config.fitSigma ((mode : Int) :: rttF :: share :: fl0 :: fs0 :: len ::
            settingN s sLambda0Sigma scDevice :: settingN s sS0Sigma scDevice :: fd :: fu :: lanes)
          putFit d { f0 with
            mode := mode, confidence := confOf sigma bound, bound := bound, lambda0 := fl0,
            s0 := fs0, fitSigma := sigma, length := len, share := share,
            residual := fitResidual dgds fd fl0 fs0 len,
            prevShare := if window.isSome then old.share
              else if mode = 2 then share else old.prevShare } s
  | _, _ => fixed 3 2147483648 0

/-! Fit windows (R203). -/

/-- Sums of lane `t` against lane `p` for domain `d`. -/
def fitLaneOf (s : State) (d t p : Nat) : FitLane :=
  tabGet ({} : FitLane) s.time.fitLane (d * 16 + t * 4 + p)

/-- A boundary of group `g` with SC `sc` passes: the arrivals of the SC before it enter the
window of each domain that takes its time from the group. -/
def fitAccumulate (g : Nat) (sc : BitVec 48) (s : State) : State :=
  let n := sc - 1
  let pairs := (lanesOf s g).flatMap (fun t =>
    ((lanesOf s g).filter (fun p => p != t)).map (fun p => (t, p)))
  each (fun d s =>
    each (fun (q : Nat × Nat) s =>
      let x := fitLaneOf s d q.1 q.2
      let y : FitLane :=
        match arrivalOf s q.1 n, arrivalOf s q.2 n with
        | some a, some b =>
          let v := tlDiff b a
          { x with sum := x.sum + v, sq := x.sq + v.natAbs ^ 2, n := x.n + 1 }
        | _, _ => x
      let z : FitLane := { y with excluded := y.excluded || !(laneOf s q.1).included }
      { s with time := { s.time with
          fitLane := tabSet ({} : FitLane) s.time.fitLane (d * 16 + q.1 * 4 + q.2) z } }) pairs s)
    ([0, 1].filter (fun d => domEnabled s d && timeGroup s d == g)) s

/-- The means of a domain's window (R203), rounded to the nearest unit, halves upward: DESIGN CHOICE,
log entry 8. A lane that was excluded from bonding in the window is left out. -/
def fitMeans (s : State) (d : Nat) : List FitMean :=
  (List.range 4).flatMap (fun t => (List.range 4).filterMap (fun p =>
    let x := fitLaneOf s d t p
    let n : Int := x.n
    if x.n = 0 ∨ x.excluded then none
    else some { t := t, p := p, m := (2 * 256 * x.sum + n) / (2 * n), n := x.n,
                scatter := ((n * x.sq - x.sum * x.sum) * 65536 / (n * n)).toNat }))

/-- A fit window ends (R203-R205) and the next begins. -/
def execFitWindowEnd (s : State) : Out :=
  .next (each (fun d s =>
    let sc := match (groupOf s (timeGroup s d)).boundary with
      | some (c, _) => c - 1
      | none => 0
    let s1 := { s with time := { s.time with
        fitLane := s.time.fitLane.filter (fun p => decide (p.1 / 16 ≠ d)) } }
    fitLook d (some (fitMeans s d, sc)) s1) ([0, 1].filter (domEnabled s)) s)

/-! Plant reports. -/

/-- The oldest lot of group `g` among `ds`, and the rest. -/
def takeLot (g : Nat) (ds : List Delivered) : Option (Delivered × List Delivered) :=
  match ds.find? (fun d => d.group == g) with
  | some d => some (d, ds.erase d)
  | none => none

/-- The TAG of a plant report holds: it is checked with the key of the domain that the group and
the report's source feed, and by no one where there is none (R198). While the engine is stopped it
fails (R428; log entry 118). -/
def plantOk (group : Nat) (d : Delivered) (s : State) : Bool :=
  let src := bit ((byteAt d.bytes 1).getLsbD 7)
  let dom := [0, 1].find? (fun d => timeGroup s d == group && domSrc s d == src)
  match dom.bind (fun d => targetKey s 4 d 0) with
  | none => true
  | some key => !s.cry.stopped && (gmac key (lineNonce d.key.sc ((d.key.cw * 640 + d.key.off) / 8) d.key.txLane
      false d.lotId.toNat) (slice d.bytes 0 56)).take 8 == slice d.bytes 56 8

/-- The group's oldest plant report is checked and stored (R198, R199). -/
def execPlantReport (group : Fin 4) (s : State) : Out :=
  match takeLot group s.toTime with
  | none => .next s
  | some (d, rest) =>
    let s1 := { s with toTime := rest }
    if !plantOk group d s1 then .next (bump cPlantAuthFail (scGroup group) 1 s1)
    else
      .next (each (fun d s => fitLook d none s) [0, 1] (bump cPlantOk (scGroup group) 1
        (modGroup group (fun y => { y with plant := some { bytes := d.bytes } }) s1)))

/-! Sowing records (Table 7-4). -/

/-- The ranging lane and its RTT for a record of domain `d` with REF_SC `ref` (R200, R202). -/
def rangingLane (s : State) (d : Nat) (ref : BitVec 48) : Option (Nat × Nat) :=
  let rtt (x : Nat) : Option (Nat × Nat) :=
    (((usLaneOf s x).rtts.filter (fun p => decide (0 ≤ scDiff p.1 ref))).getLast?).map
      (fun p => (x, p.2))
  if s.act.dual then rtt d else (rtt 0).or (rtt 1)

/-- D_down in 2^-8 grain (R200, R201), for the share that applies to REF_SC (R205). -/
def downDelay (s : State) (d p : Nat) (rttF : Int) (ref : BitVec 48) : Int :=
  let f := fitOf s d
  let share : Int := if 0 < scDiff f.lastSc ref then f.share else f.prevShare
  (share * rttF * 256 + 2147483648) / 4294967296 + setting s sBRx scDevice p * 256

/-- A record was accepted (R196): LTM leaves at the second within LTM_TIMEOUT of the first. -/
def sowAccepted (d : Nat) (s : State) : State :=
  let y := supDomOf s d
  let lim := settingN s sLtmTimeout scDevice * swathGrains
  let clear := match y.lastAccepted with
    | some t => y.ltm && decide (tlDiff t (now s) ≤ lim)
    | none => false
  let s1 := modSupDom d (fun y => { y with lastAccepted := some (now s) })
    (bump cSowAccepted (scDom d) 1 s)
  if clear then setDomDefect d false false s1 else s1

/-- What UTC a used record gives its domain (R197). A record launched in the second 23:59:60 of a
flagged day still belongs to that day. -/
def sowUtc (m : FieldMsg) (x : Dom) : Dom :=
  let f := byteAt m.bytes 26
  if !f.getLsbD 5 then x else
  let both := f.getLsbD 7 && f.getLsbD 6
  let off := signed 16 (field m.bytes 24 2)
  let l61 := f.getLsbD 7 && !both
  let l59 := f.getLsbD 6 && !both
  let sec : Int := field m.bytes 12 6
  let inLeap := l61 && x.li61 && decide (off = x.utcOffset) && decide (x.leapAt = some (sec + 1))
  let day := (sec - off) / 86400 - bit inLeap
  let end_ := (day + 1) * 86400 + off
  { x with utcOffset := off, utcValid := true, li61 := l61, li59 := l59,
           leapAt := if l61 then some (end_ + 1) else if l59 then some (end_ - 1) else none }

/-- Steps 6 to 8, and the use of the record. `free`: TAF was absent when it arrived (R209). -/
def sowUse (m : FieldMsg) (d : Nat) (free : Bool) (s : State) : State :=
  let ref := BitVec.ofNat 48 (field m.bytes 6 6)
  let g := m.group.val
  match primaryOf s g ref with
  | none => bump cSowNoRef (scDom d) 1 s
  | some p =>
    match arrivalOf s p ref with
    | none => bump cSowNoRef (scDom d) 1 s
    | some a =>
      match rangingLane s d ref with
      | none => bump cSowNoDelay (scDom d) 1 s
      | some (x, rtt) =>
        if byteAt m.bytes 5 = 0xF0 then bump cSowDnu (scDom d) 1 s
        else if !free then s
        else
          let s1 := bump cSowUsed (scDom d) 1 (modDom d (fun y =>
            { sowUtc m y with quality := byteAt m.bytes 5 }) s)
          let rttF : Int := (rtt : Int) - setting s sBRx scDevice p - setting s sBTx scDevice x
          let f := fitOf s1 d
          let s2 := { s1 with time := { s1.time with
              fit := tabSet ({} : Fit) s1.time.fit d { f with px := some (p, x, rttF) } } }
          let s3 := fitLook d none s2
          let tod := (((field m.bytes 12 6 : Int) * 53125000000 +
            (field m.bytes 18 6 % 2 ^ 36 : Nat)) * 256) + downDelay s3 d p rttF ref
          servoRecord d a tod ((byteAt m.bytes 27).toNat + 1) s3

/-- Steps 3 to 8 for one domain (a stopped engine fails the tag, R428; log entry 118); answers whether the record was accepted. -/
def sowDomain (m : FieldMsg) (d : Nat) (s : State) : Bool × State :=
  let taf := (supDomOf s d).taf
  let key := targetKey s 4 d 0
  let authentic := match key with
    | none => true
    | some k => !s.cry.stopped && (byteAt m.bytes 4).getLsbD 6 &&
        (gmac k (downMsgNonce s m) (slice m.bytes 0 32)).take 8 == slice m.bytes 32 8
  if !authentic then
    let s1 := modSupDom d (fun y => { y with tafRun := 0 }) (bump cSowAuthFail (scDom d) 1 s)
    (false, if taf then s1 else servoLose d (setDomDefect d true true s1))
  else
    let s1 := if key.isNone then s else modSupDom d (fun y => { y with tafRun := y.tafRun + 1 }) s
    let s2 := if taf && decide (8 ≤ (supDomOf s1 d).tafRun) then setDomDefect d true false s1 else s1
    let lag := (m.sc - BitVec.ofNat 48 (field m.bytes 6 6)).toNat
    if 53125000000 ≤ field m.bytes 18 6 % 2 ^ 36 ∨ 15 < lag then
      (false, bump cSowInvalid (scDom d) 1 s2)
    else (true, sowUse m d (!taf) (sowAccepted d s2))

/-- A sowing record that passed step 1, for every domain that takes it (step 2). -/
def actSow (m : FieldMsg) (i : Nat) (s : State) : Option Nat × State :=
  let src := bit ((byteAt m.bytes 4).getLsbD 7)
  let ds := [0, 1].filter (fun d =>
    domEnabled s d && domSrc s d == src && timeGroup s d == m.group.val)
  if ds.isEmpty then (none, bump cSowUnused (scInst i) 1 s)
  else
    let r := ds.foldl (fun (p : Bool × State) d =>
      let q := sowDomain m d p.2
      (p.1 || q.1, q.2)) (false, s)
    (if r.1 then some 0 else none, r.2)

/-- A sowing record (R191, R195). -/
def execTimeSow (m : FieldMsg) (s : State) : Out :=
  if msgType m ≠ 0x40 then .next s else
  .next (acceptMsg m .broadcast anyState false (actSow m) s)

/-! Timers. -/

/-- LTM_TIMEOUT without an accepted record: LTM (R165), and the servo holds over (R209). -/
def execLtmDeclare (dom : Fin 2) (s : State) : Out :=
  if domEnabled s dom && !(supDomOf s dom).ltm && actTimersRun s then
    .next (servoLose dom (setDomDefect dom false true s))
  else .next s

/-- LTM_TIMEOUT without a used record (R209). -/
def execUsedRecordTimeout (dom : Fin 2) (s : State) : Out := .next (servoLose dom s)

/-- HOLD_VALID has passed in HOLDOVER: the domain becomes invalid (R210). -/
def execHoldValidExpiry (dom : Fin 2) (s : State) : Out :=
  if (domOf s dom).st = .holdover then
    .next (timeLook (modDom dom (fun x => { x with holdExpired := true }) s))
  else .next s

/-- O has reached zero (R214). -/
def execSlewDone (s : State) : Out :=
  if s.time.offset ≠ 0 ∧ s.time.runOn.isNone then .next (raise 0x0607 0 0 (setOffset 0 s))
  else .next s

/-! PPS_IN (R218, R219). -/

/-- Signed offset in grains of time `v` from its nearest second. Rounded towards the past, and a
half counts as late: DESIGN CHOICE, log entry 9. -/
def nearestSecond (v : Int) : Int :=
  let r := v % secUnits
  (if 2 * r ≤ secUnits then r else r - secUnits) / 256

/-- A rising edge on PPS_IN, the fused input delay removed. Nothing is captured while the Reeve runs
on the FIO (R11). -/
def execPpsInEdge (edge : BitVec 64) (s : State) : Out :=
  if !settingB s sPpsInEnable scDevice || s.clk.onFio then .next s else
  let glitch := match s.time.lastPpsIn with
    | some t => decide (tlDiff t edge < 26562500000)
    | none => false
  if glitch then .next (bump cPpsInGlitch scDevice 1 s) else
  let off (d : Nat) : Option Int :=
    if domValid s d then (domTime s d edge).map nearestSecond else none
  let c : PpsCapture :=
    { era := eraOf s edge, tl := edge, off0 := off 0, off1 := off 1,
      offOut := (outTime s edge).map nearestSecond }
  .next (bump cPpsInEdges scDevice 1 { s with time := { s.time with
    captures := (c :: s.time.captures).take 16, lastPpsIn := some edge, ppsInLost := false } })

/-- Two seconds without an accepted edge: EV_TIME_PPS_IN_LOST, once (R219). -/
def execPpsInLost (s : State) : Out :=
  if settingB s sPpsInEnable scDevice && !s.time.ppsInLost then
    .next (raise 0x0609 0 0 { s with time := { s.time with ppsInLost := true } })
  else .next s

end Sys2Proof.Machine
end

