-- ==== Sys2Proof/Machine/Boundary.lean ====
section
/-! DEFINITION. What a swath boundary of a bonding group puts in force (spec/03 R84, R609; spec/05
R139, R159), the commands that wait for it excepted. -/
namespace Sys2Proof.Machine

/-- Consecutive swaths before SC `sc` in which a lane has met R78. -/
def okBefore (x : Lane) (sc : BitVec 48) : Nat :=
  if x.sc == sc && !x.cmpOpen then x.okSwaths - 1 else x.okSwaths

/-- Lanes that have met R78 in two consecutive swaths rejoin at the boundary that follows (R84). -/
def rejoinLanes (g : Nat) (sc : BitVec 48) (s : State) : State :=
  each (fun l s =>
    let x := laneOf s l
    if !x.included && x.everIncluded && isLocked x && decide (2 ≤ okBefore x sc) then
      includeLane l sc s
    else s) (lanesOf s g) s

/-- Record the primary lane of the new SC; none counts in PRI_ABSENT (R79). -/
def recordPrimary (g : Nat) (sc : BitVec 48) (s : State) : State :=
  let p := primaryOf s g sc
  let s1 := modGroup g (fun y => { y with primaries := ((sc, p) :: y.primaries).take 16 }) s
  if p.isNone then bump cPriAbsent (scGroup g) 1 s1 else priConflict g sc s1

/-- The marker arrival that is the boundary (R609). -/
def boundaryTime (s : State) (g : Nat) (sc : BitVec 48) : BitVec 64 :=
  let at_ (l : Nat) : Option (BitVec 64) :=
    ((laneOf s l).arrivals.find? (fun a => a.sc == sc)).map (·.at_)
  match (primaryOf s g sc).bind at_ with
  | some t => t
  | none =>
    match (includedOf s g).filterMap at_ with
    | [] => now s
    | t :: ts => ts.foldl (fun a b => if tlAfter b a then b else a) t

/-- Open contexts of the group, and its released lots that may yet open one, count the boundary
(R76). -/
def reasmBoundary (g : Nat) (s : State) : State :=
  modGroup g (fun y => { y with released := y.released.map (fun r =>
      { r with boundaries := r.boundaries + 1 }) })
    { s with reasm := s.reasm.map (fun p =>
        (p.1, if p.2.open_ ∧ p.2.group = g then { p.2 with boundaries := p.2.boundaries + 1 }
              else p.2)) }

/-- EqD assignments whose SC has come are in force (R153). -/
def foldEqd (i : Nat) (sc : BitVec 48) (s : State) : State :=
  each (fun x s => modUsLane x (fun l =>
    let due := l.eqdPending.filter (fun p => decide (0 ≤ scDiff p.1 sc))
    { l with eqd := (due.getLast?.map (·.2)).getD l.eqd
             eqdAssigned := l.eqdAssigned || !due.isEmpty
             eqdPending := l.eqdPending.filter (fun p => decide (scDiff p.1 sc < 0)) }) s)
    (instLtx s i) s

/-- The form of FM_TAG that addressed messages of instance `i` carry from this swath on (R164). -/
def tagForm (i : Nat) (s : State) : State :=
  modInst i (fun y => { y with keyed := (targetKey s 3 i 0).isSome }) s

/-- Frames partly sent are discarded: their fragments were due in a plot of the former working
parent (R159). -/
def dropPartSent (s : State) : State :=
  each (fun q s =>
    match (usOf s q).frames with
    | f :: _ =>
      if 0 < f.sent then bump cFragAbandonTx (scUsQueue q) 1 (dropHead false q s) else s
    | [] => s) (busyQueues s) s

/-- A protection switch takes effect (R159): queues, masks, timing lane, time domain. -/
def switchParent (t : Nat) (s : State) : State :=
  let s1 := dropPartSent { s with act := { s.act with
    working := t, switched := true, pendingSwitch := none } }
  let s2 := selectDomain t false s1
  let s3 := raise 0x0407 t t (bump cParentSwitch (scInst t) 1 s2)
  supLook (lockLook s3)

/-- The boundary of group `g` with SC `sc`, its lanes having rejoined and the Reeve's own waiting
commands excepted. -/
def boundaryOps (g : Nat) (sc : BitVec 48) (s : State) : State :=
  let s1 := recordPrimary g sc s
  let s2 := modGroup g (fun y => { y with boundary := some (sc, boundaryTime s1 g sc) }) s1
  let i := groupOwner s2 g
  let s3 := foldEqd i sc (runTodo g sc i (tagForm i (reasmBoundary g s2)))
  let s4 := fitAccumulate g sc s3
  let s5 :=
    match s4.act.pendingSwitch with
    | some t => if s4.act.dual && ownsGroup s4 t g then switchParent t s4 else s4
    | none => s4
  refLook s5

end Sys2Proof.Machine
end

