-- ==== Sys2Proof/Machine/Icben.lean ====
section
/-! DEFINITION. The Icben commands' common front: the checks every command passes,
classes in a pair, deferral, settings items and read requests (spec/20, spec/21, R509-R511). -/
namespace Sys2Proof.Machine

/-! Classes and permissions. -/

/-- Family of an opcode. -/
def opFamily (op : Nat) : Nat := op / 256

/-- Local commands of Table 19-6. -/
def isLocalOp (op : Nat) : Bool :=
  [0x01, 0x02, 0x0B, 0x0E, 0x0F, 0x10].contains (opFamily op) ||
  [0x0302, 0x0304, 0x0305, 0x0403, 0x0502, 0x0503, 0x0603, 0x0604, 0x0605, 0x0606, 0x0704, 0x0802,
   0x0905, 0x0A03, 0x0C05, 0x0D02, 0x0D03, 0x0D04].contains op

/-- Management lots may carry the command, as far as R544 goes. -/
def mgmtPermitted (op : Nat) : Bool :=
  [0x03, 0x04, 0x05, 0x09, 0x0C].contains (opFamily op) || [0x0604, 0x0606, 0x0704].contains op

/-- Effects that wait for a swath boundary of the timing lane (Table 20-7). -/
def isDeferredOp (op : Nat) : Bool := [0x0301, 0x0303, 0x0401, 0x0402, 0x0404].contains op

/-- The SC of the last marker arrival recorded on the timing lane (R542). -/
def currentSc (s : State) : Option (BitVec 48) :=
  ((laneOf s (timingLane s)).arrivals.head?).map (fun a => a.sc)

/-- The timing lane is in LOCK, MISS1 or MISS2. -/
def timingLocked (s : State) : Bool := isLocked (laneOf s (timingLane s))

/-- The command is carried out as a mirrored one (R509, R511). -/
def asMirrored (op : Nat) (c : Cmd) (s : State) : Bool :=
  !isLocalOp op && s.pair.st == .active &&
  (match c.src with
   | .mailbox => c.mirror
   | .mgmt _ _ _ => true
   | .mirror _ => false)

/-- The AT_SWATH field and the payload after it (R542). -/
def splitCall (c : Cmd) : Call :=
  let mgmt := match c.src with
    | .mgmt _ _ _ => true
    | _ => false
  if c.atSwath then
    { payload := c.payload.drop 8, sc := some (BitVec.ofNat 48 (field c.payload 2 6)), tag := c.tag,
      mgmt := mgmt }
  else { payload := c.payload, tag := c.tag, mgmt := mgmt }

/-! Domains in retention (R467). -/

/-- Domains in retention in the present power state (Table 18-1), as Table 21-6 numbers them. -/
def retained (s : State) : BitVec 64 := retDomains s.pwr.st

/-- Quad of a server port or lane: SL_A or SL_B. -/
def quadBit (i : Nat) : BitVec 64 := if i < 4 then 0x40 else 0x80

/-- Domains that a command needs (R467, by what Table 18-1 and Table 18-12 say a domain holds);
DEDUCED, log entry 15. -/
def cmdNeeds (op : Nat) (p : Bytes) : BitVec 64 :=
  let kind := (byteAt p 0).toNat
  let idx := field p 2 2
  let lane : BitVec 64 :=
    if kind = 1 ∧ idx < 4 then 1#64 <<< idx else if kind = 2 ∧ idx < 2 then 0x10#64 <<< idx else 0
  let cls : BitVec 64 := 0x100000000000
  let crypto : BitVec 64 := 0x200000000000
  let qdr : BitVec 64 := 0x400000000000
  let tether : BitVec 64 := 0x800000000000
  let harrows : BitVec 64 := 0xFFF00
  let port : BitVec 64 := if kind = 6 then quadBit idx else 0
  if op = 0x0301 ∨ op = 0x0302 then lane
  else if opFamily op = 0x07 ∨ opFamily op = 0x08 then port
  else if opFamily op = 0x09 then cls ||| qdr
  else if op = 0x0A01 then harrows
  else if opFamily op = 0x0B then harrows
  else if op = 0x0C04 then cls
  else if opFamily op = 0x0D then crypto
  else if op = 0x0F01 ∨ op = 0x0F04 then tether
  else 0

/-- Commands that release a pad latch or start a line function: PWR_RELEASE_PADS,
LINE_CONFIGURE_LANES, ACT_START. Firmware does neither before it has moved off the FIO (R12). -/
def waitsForPll (op : Nat) : Bool := [0x0204, 0x0301, 0x0401].contains op

/-- The machine is not in a state in which the command can act: a domain it needs is in retention
(R467), or the Reeve still runs on the FIO (R12). R12 gives no status for a command that comes too
early; ST_NOT_IN_STATE is a DESIGN CHOICE, log entry 98. -/
def notReady (op : Nat) (p : Bytes) (s : State) : Bool :=
  decide (retained s &&& cmdNeeds op p ≠ 0) || (s.clk.onFio && waitsForPll op)

/-- A command that changes the staged rules comes while a mirrored CLS_COMMIT waits for its APPLY_SC:
COMMIT_PENDING of Table 11-8, in which R327 answers ST_BUSY. A mirrored command that is being
applied does not meet this check, so that MIRROR_SEQ order holds (R510). -/
def commitBusy (op : Nat) (s : State) : Bool :=
  [0x0901, 0x0902, 0x0903, 0x0904].contains op && (commitHeld s).isSome

/-- The last of the common checks: the machine is ready, no mirrored commit stands in the way. -/
def lateCheck (op : Nat) (p : Bytes) (s : State) : Option Nat :=
  if notReady op p s then some 6 else if commitBusy op s then some 2 else none

/-! The checks before a command's own chapter (R534, R542, R544, R550, R509, R467). -/

/-- The first check that fails: its status. -/
def cmdCheck (op : Nat) (c : Cmd) (s : State) : Option Nat :=
  let mgmt := (splitCall c).mgmt
  let mask : BitVec 16 := match c.src with
    | .mgmt i _ _ => (instOf s i).mgmtMask
    | _ => 0xFFFF
  let paired := s.pair.st != .solo
  let atOk := op == 0x0301 || op == 0x0303 || op == 0x0904 || asMirrored op c s
  let sc := (splitCall c).sc
  if 1016 < c.payload.length then some 3
  else if c.rsvd ≠ 0 then some 4
  else if mgmt && !(mgmtPermitted op && mask.getLsbD (opFamily op - 1)) then some 5
  else if s.win.recovery && !(op == 0x0101 || op == 0x0103) then some 6
  else if c.mirror && !mgmt && isLocalOp op && (paired || op == 0x0E02) then some 4
  else if paired && !isLocalOp op && !asMirrored op c s then some 5
  else if c.atSwath && !atOk then some 4
  else if c.atSwath && decide (c.payload.length < 8) then some 3
  else if (c.atSwath || asMirrored op c s) && (currentSc s).isNone then some 6
  else
    match sc, currentSc s with
    | some x, some cur =>
      if scDiff cur x ≤ 0 ∨ 65536 < scDiff cur x ∨ (asMirrored op c s ∧ scDiff cur x < 2) then some 4
      else lateCheck op (splitCall c).payload s
    | _, _ => lateCheck op (splitCall c).payload s

/-! The tether's sending side (R515). -/

/-- Put a message on the tether. -/
def tetherSend (m : TetherMsg) (s : State) : State :=
  modPair (fun p => { p with sent := p.sent ++ [(p.txSeq, m)], txSeq := p.txSeq + 1 }) s

/-! Running a command. -/

/-- The command firmware had taken is no longer waiting. -/
def untake (op : Nat) (c : Cmd) (s : State) : State :=
  modReeve (fun v => { v with taken := v.taken.erase { opcode := BitVec.ofNat 16 op, cmd := c } }) s

/-- The active handles a mirrored command whose local check has passed (R510): it is numbered,
held for its APPLY_SC and sent; without the tether it is answered at once. -/
def mirrorOut (op : Nat) (c : Cmd) (s : State) : State :=
  let cur := (currentSc s).getD 0
  let apply := (splitCall c).sc.getD (cur + BitVec.ofNat 48 (settingN s sMirrorLead scDevice))
  let seq := s.pair.mirrorSeq + 1
  let up := s.pair.tetherUp
  let s1 := modPair (fun p => { p with
    mirrorSeq := seq,
    held := p.held ++ [{ mirrorSeq := seq, applySc := apply, opcode := BitVec.ofNat 16 op, cmd := c,
                         awaitAck := up, fromPeer := false }] }) s
  if up then tetherSend (.mirrorCmd seq apply (BitVec.ofNat 16 op) c) s1
  else answer op c { status := 1 } (bump cMirrorNoAck scDevice 1 s1)

/-- The mirrored command that is next to take effect: the due one of lowest MIRROR_SEQ. A
rejoiner holds the peer's until it has its snapshot (R518). -/
def nextHeld (s : State) : Option Held :=
  (s.pair.held.filter (fun h => h.due && !(h.fromPeer && s.pair.st == .rejoining))).foldl (fun m h =>
    match m with
    | some x => if h.mirrorSeq.toNat < x.mirrorSeq.toNat then some h else m
    | none => some h) none

/-- Events that a management command has caused carry MGMT (R546): those raised since `s0`. -/
def markMgmt (mgmt : Bool) (s0 s1 : State) : State :=
  if mgmt then
    let keep := s1.reeve.events.length - (s1.reeve.evSeq - s0.reeve.evSeq).toNat
    let late := (s1.reeve.events.drop keep).map (fun e => { e with mgmt := true })
    modReeve (fun v => { v with events := v.events.take keep ++ late }) s1
  else s1

/-- A mirrored command takes effect on this chip (R510). -/
def applyHeld (op : Nat) (b : CmdBody) (c : Cmd) (fromPeer : Bool) (s : State) : State :=
  match nextHeld s with
  | none => s
  | some h =>
    if h.opcode.toNat ≠ op ∨ h.fromPeer ≠ fromPeer ∨ { h.cmd with src := c.src } ≠ c then s
    else
      let s1 := modPair (fun p => { p with
        held := p.held.erase h, lastApplied := some h.mirrorSeq }) s
      let call := splitCall h.cmd
      let s2 := markMgmt call.mgmt s1 (b { call with sc := none } s1).2
      if fromPeer then s2
      else raiseTag 0x0F08 0 h.mirrorSeq.toNat c.tag call.mgmt s2

/-- Firmware runs a command: the common checks, its class, its moment of effect, its answer. A
halted Reeve runs none (R524). -/
def runCmd (op : Nat) (b : CmdBody) (c : Cmd) (s : State) : State :=
  if !reeveRuns s then s else
  match c.src with
  | .mirror fp => applyHeld op b c fp s
  | _ =>
    let s0 := untake op c s
    let call := splitCall c
    match cmdCheck op c s0 with
    | some st =>
      let s1 := match c.src with
        | .mgmt i _ _ =>
          if st = 5 then bump cMgmtDenied (scInst i) 1 s0 else s0
        | _ => s0
      answer op c (refuse st 0 0 s0).1 s1
    | none =>
      let (r, s1) := b call s0
      if isError r then answer op c r s1
      else if asMirrored op c s0 then mirrorOut op c s0
      else if isDeferredOp op && (call.sc.isSome || timingLocked s0) then
        let s2 := modReeve (fun v => { v with deferred := v.deferred ++
          [{ opcode := BitVec.ofNat 16 op, cmd := c, sc := call.sc, body := call.payload }] }) s0
        if call.sc.isSome then answer op c { status := 1 } s2 else busyLook s2
      else if r.later then busyLook s1
      else answer op c r (markMgmt call.mgmt s0 s1)

/-- A command has asked for the reset of R549; R451 has SEC_ADVANCE reset the same way. -/
def askReset (op : Nat) (c : Call) (s : State) : State :=
  modReeve (fun v => { v with resetBy := some (BitVec.ofNat 16 op, c.tag) }) s

/-! Settings commands (R554-R556). -/

/-- The scope of a payload, when it has one whose kind is in `kinds` and whose index exists. -/
def scopeOf (s : State) (kinds : List Nat) (p : Bytes) : Option Nat :=
  if kinds.contains (byteAt p 0).toNat && scopeInRange s.act.dual p then some (scopeField p)
  else none

/-- A carried setting: its place in the table, ITEM_INDEX, value. -/
abbrev Given := SSpec × Nat × Int

/-- Check items in order: the settings given, or detail code and index of the first offence. -/
def checkItems (specs : List SSpec) : Nat → List Given → List Item → Except (Nat × Nat) (List Given)
  | _, acc, [] => .ok acc
  | n, acc, i :: is =>
    match specs.find? (fun p => p.row == i.row && p.pos == i.pos) with
    | none => .error (1, n)
    | some p =>
      match decodeValue p.kind i.val with
      | none => .error (2, n)
      | some v =>
        if p.idx ≤ i.idx then .error (2, n)
        else if acc.any (fun g => g.1 == p && g.2.1 == i.idx) then .error (3, n)
        else checkItems specs (n + 1) (acc ++ [(p, i.idx, v)]) is

/-- Put every given setting. -/
def putGiven (sc : Nat) (gs : List Given) (s : State) : State :=
  each (fun (g : Given) s => putSetting g.1 sc g.2.1 g.2.2 s) gs s

/-- The value a setting will have: the one given, or the one in force. -/
def given (s : State) (gs : List Given) (p : SSpec) (sc : Nat) (idx : Nat := 0) : Int :=
  match gs.find? (fun g => g.1 == p && g.2.1 == idx) with
  | some g => g.2.2
  | none => setting s p sc idx
/-- A setting is carried. -/
def carried (gs : List Given) (p : SSpec) : Bool := gs.any (fun g => g.1 == p)
/-- Position of the first carried setting among `ps`. -/
def firstOf (gs : List Given) (ps : List SSpec) : Nat := gs.findIdx (fun g => ps.contains g.1)

/-- A settings command: scope, items, the chapter's own check and effect. -/
def settingsCmd (kinds : List Nat) (specs : Nat → List SSpec)
    (k : Nat → List Given → Call → State → Reply × State) : CmdBody := fun c s =>
  if c.payload.length < 4 then badLength s
  else match scopeOf s kinds c.payload with
  | none => badArg 5 0 s
  | some sc =>
    match parseItems c.payload.length (c.payload.drop 4) with
    | none => badLength s
    | some is =>
      match checkItems (specs (scopeKind sc)) 0 [] is with
      | .error e => badArg e.1 e.2 s
      | .ok gs => k sc gs c s

/-! Read requests (R558, R608). -/

/-- A counter table's number, counter number and scope: the counter's identity in the store. -/
def readKey (ch tbl n : Nat) : CtrId := ⟨ch, tbl, n, none⟩

/-- Does a counter whose scope kind is `k` belong to a request of kind `r`? -/
def kindServes (ch tbl n k r : Nat) : Bool :=
  k == r || (k == 0x1A && (r == 0x0A || r == 0x0B)) ||
  (ch == 9 && tbl == 8 && n == 10 && r == 0x06)

/-- The scope under which the counter is stored for a request's scope. -/
def readScope (k sc : Nat) : Nat := if k = 0 then scDevice else sc

/-- The eight bytes of a counter. -/
def ctrBytes (c : Ctr) : Bytes := natBytes 8 (bit c.half * 2 ^ 63 + c.value.toNat % 2 ^ 48)

/-- The counters `first` to `first + n - 1` of a table under a scope. -/
def readCounters (s : State) (ch tbl sc first n : Nat) : Bytes :=
  ((List.range n).map (fun i =>
    let k := (ctrKinds ch tbl).getD (first + i) 0
    if kindServes ch tbl (first + i) k (scopeKind sc) then
      ctrBytes (ctrOf s (readKey ch tbl (first + i)) (readScope k sc))
    else ctrBytes {})).flatten

/-- Read-to-clear subtracts the values returned (R254): the counters read as zero. -/
def clearCounters (ch tbl sc first n : Nat) (s : State) : State :=
  each (fun i s =>
    let k := (ctrKinds ch tbl).getD (first + i) 0
    if kindServes ch tbl (first + i) k (scopeKind sc) then
      let at_ := ctrKey (readKey ch tbl (first + i)) (readScope k sc)
      { s with counters := tabSet ({} : Ctr) s.counters at_ {} }
    else s) (List.range n) s

/-- A read request's RC bit. -/
def rcBit (p : Bytes) : Bool := (byteAt p 7).getLsbD 7

/-- A read command: the kinds and tables it accepts, the bytes after the 8-byte request, the
status block and what RC removes from it. -/
def readCmd (kinds : List Nat) (tables : List (Nat × Nat)) (extra : Nat)
    (block : Nat → Bytes → State → Bytes) (clear : Nat → Bytes → State → State) : CmdBody :=
  fun c s =>
  let p := c.payload
  if p.length ≠ 8 + extra then badLength s
  else match scopeOf s (0 :: kinds ++ tables.flatMap (fun t => (ctrKinds t.1 t.2).flatMap
      (fun k => if k = 0x1A then [0x0A, 0x0B] else [k]))) p with
  | none => badArg 5 0 s
  | some sc =>
    let ch := (byteAt p 4).toNat
    let tbl := (byteAt p 5).toNat
    let first := (byteAt p 6).toNat
    let n := (byteAt p 7).toNat % 128
    let b := block sc p s
    if !((ch == 0 && n == 0) || tables.contains (ch, tbl)) then badArg 0 0 s
    else if n ≠ 0 ∧ (ctrKinds ch tbl).length < first + n then badArg 0 0 s
    else if 1016 < b.length + 8 * n then badArg 0 0 s
    else
      let s1 := if rcBit p then clear sc p (clearCounters ch tbl sc first n s) else s
      stOk (b ++ readCounters s ch tbl sc first n) s1

/-- A command with a fixed layout of `n` bytes (R559). -/
def fixedCmd (n : Nat) (k : Bytes → Call → State → Reply × State) : CmdBody := fun c s =>
  if c.payload.length ≠ n then badLength s else k c.payload c s

end Sys2Proof.Machine
end

