-- ==== Sys2Proof/Machine/CmdLine.lean ====
section
/-! DEFINITION. The LINE_ and SUP_ commands (spec/01 R13, spec/02, spec/03 R77, spec/04 R117,
spec/06, spec/21). -/
namespace Sys2Proof.Machine

/-! LINE_ commands. -/

/-- ROLE_OUT of a SOLO chip is high while an LTX lane is enabled (R494). -/
def roleOutLook (s : State) : State :=
  if s.pair.st = .solo then
    modPair (fun p => { p with roleOut := (usLaneOf s 0).enabled || (usLaneOf s 1).enabled }) s
  else s

/-- A power domain is switched on by its lane or port settings (Table 18-1). -/
def domainOn (n : Nat) (s : State) : State :=
  { s with pwr := { s.pwr with on := s.pwr.on ||| (1#64 <<< n) } }

/-- A transmit lane is enabled: the module is read (R199), a latched trip ends when the lane had
been disabled (R123). -/
def enableLtx (x : Nat) (o : Optics) (s : State) : State :=
  let tunable := o.tunable && !o.grids.isEmpty
  if (usLaneOf s x).enabled then s
  else domainOn (4 + x) (modUsLane x (fun l =>
    { l with enabled := true, wdTrip := false, tunable := tunable,
             freq := if tunable then o.freq else 0 }) s)

/-- LINE_CONFIGURE_LANES at its moment of effect, the modules reading as `o0`, `o1`. -/
def lineConfigureLanesBody (o0 o1 : Optics) : CmdBody :=
  settingsCmd [0x00, 0x01, 0x02] (fun k => if k = 0 then [sTimingLane] else [sLaneEnable, sMediaLane])
    fun sc gs _ s =>
  let s1 := putGiven sc gs s
  let x := scopeIndex sc
  let on := decide (given s gs sLaneEnable sc = 1)
  if scopeKind sc = 0x00 then stOk [] (lockLook s1)
  else if !carried gs sLaneEnable then stOk [] s1
  else if scopeKind sc = 0x01 then
    stOk [] (supLook (if on then enableLane x (domainOn x s1) else disableLane x s1))
  else
    let s2 := if on then enableLtx x (if x = 0 then o0 else o1) s1
      else modUsLane x (fun l => { l with enabled := false }) s1
    stOk [] (gateLook (roleOutLook s2))

/-- LINE_CONFIGURE_LANES. -/
def execLineConfigureLanes (c : Cmd) (optics0 optics1 : Optics) (s : State) : Out :=
  .next (runCmd 0x0301 (lineConfigureLanesBody optics0 optics1) c s)

/-- A row's value as a LINE_SET_EQ leaves it: the one given, else the one that waits for the
next codeword 0, else the one in force. -/
def eqValue (s : State) (sc : Nat) (gs : List Given) (p : SSpec) : Int :=
  match gs.find? (fun g => g.1 == p) with
  | some g => g.2.2
  | none =>
    match ((laneOf s (scopeIndex sc)).eqPending.filter (fun i => i.1 == p.row)).getLast? with
    | some i => i.2
    | none => setting s p sc

/-- LINE_SET_EQ (R32): a lane in LOCK, MISS1 or MISS2 waits for its next codeword 0. -/
def lineSetEqBody : CmdBody :=
  settingsCmd [0x01] (fun _ => [sCtleMode, sCtleCode, sAdaptMin, sAdaptMax]) fun sc gs _ s =>
  let l := scopeIndex sc
  let items := gs.map (fun g => (g.1.row, g.2.2))
  if eqValue s sc gs sAdaptMax < eqValue s sc gs sAdaptMin then
    badArg 2 (firstOf gs [sAdaptMin, sAdaptMax]) s
  else if isLocked (laneOf s l) then
    stOk [] (modLane l (fun x => { x with eqPending := x.eqPending ++ items }) s)
  else stOk [] (applyEq l items s)

/-- LINE_SET_EQ. -/
def execLineSetEq (c : Cmd) (s : State) : Out := .next (runCmd 0x0302 lineSetEqBody c s)

/-- The group assignment that dual-parented mode requires (R77), `g` being lane `l`'s group. -/
def dualGroups (g : Nat → Nat) : Bool := g 0 == g 1 && g 2 == g 3 && g 0 != g 2

/-- A lane is assigned to a group (R77, R84). -/
def assignGroup (l : Nat) (g : BitVec 2) (s : State) : State :=
  let moved := decide (laneGroup s l ≠ g.toNat)
  let s1 := if moved then
      modLane l (fun x => { x with waiting := [], undecided := [], cmpOpen := false })
        (excludeLane l (dropPartial l s))
    else s
  supLook (lockLook (modLane l (fun x => { x with group := some g, everIncluded := false }) s1))

/-- Every upstream group starts its numbering again (R118): numbers due to lots that will not be
sent lapse with it. -/
def restartBseq (s : State) : State :=
  let s1 := each (fun x s => modUsLane x (fun l =>
    { l with bursts := l.bursts.map (fun b => { b with resync := false }) }) s) [0, 1] s
  { s1 with us := { s1.us with bseq0 := 0, bseq1 := 0, resync0 := true, resync1 := true,
                               ghosts := [] } }

/-- The upstream mode becomes JOINT or SPLIT (R117, R118). -/
def setUsMode (split : Bool) (s : State) : State :=
  if s.us.split = split then s
  else restartBseq { s with us := { s.us with split := split } }

/-- LINE_SET_GROUP at its moment of effect. -/
def lineSetGroupBody : CmdBody :=
  settingsCmd [0x00, 0x01] (fun k => if k = 0 then [sUsMode] else [sLaneGroup]) fun sc gs _ s =>
  let v := (gs.head?.map (·.2.2)).getD 0
  if gs.isEmpty then stOk [] s
  else if scopeKind sc = 0x00 then
    if s.act.dual && decide (v = 0) then notInState s
    else stOk [] (setUsMode (decide (v = 1)) (putGiven sc gs s))
  else
    let l := scopeIndex sc
    if s.act.dual && !dualGroups (fun i => if i = l then v.toNat else laneGroup s i) then
      notInState s
    else stOk [] (assignGroup l (BitVec.ofInt 2 v) (putGiven sc gs s))

/-- LINE_SET_GROUP. -/
def execLineSetGroup (c : Cmd) (s : State) : Out := .next (runCmd 0x0303 lineSetGroupBody c s)

/-- Code of a lane's state in LINE_GET_LOCK. -/
def laneCode (st : LaneState) : Nat :=
  match st with
  | .off => 0
  | .hunt => 1
  | .verify => 2
  | .lock => 3
  | .miss1 => 4
  | .miss2 => 5
  | .dormant => 6
  | .resume => 7

/-- Code of a delineation state. -/
def delinCode (d : Delin) : Nat :=
  match d with
  | .none => 0
  | .delineated => 1
  | .resync => 2
  | .wait => 3

/-- The 24 bytes of LINE_GET_LOCK for a lane. -/
def lockBytes (s : State) (l : Nat) : Bytes :=
  let x := laneOf s l
  let a : Option Arrival := x.arrivals.head?
  let t : BitVec 64 := (a.map (fun y => y.at_)).getD 0
  let sc : BitVec 48 := (a.map (fun y => y.sc)).getD 0
  natBytes 1 l ++ natBytes 1 (laneCode x.st) ++ natBytes 1 x.slots.length ++
    natBytes 1 (bit ((a.map (fun y => y.extrapolated)).getD false) * 128 + x.txLane.toNat) ++
    natBytes 1 x.ctleCode ++ natBytes 1 (delinCode x.delin) ++
    natBytes 6 sc.toNat ++
    natBytes 2 (if a.isSome then (eraOf s t).toNat else 0) ++ natBytes 8 t.toNat ++ natBytes 2 0

/-- Status block of LINE_GET_LOCK. -/
def lockBlock (sc : Nat) (_ : Bytes) (s : State) : Bytes :=
  if scopeKind sc = 0x01 then lockBytes s (scopeIndex sc)
  else (List.range 4).flatMap (lockBytes s)

/-- LINE_GET_LOCK. -/
def lineGetLockBody : CmdBody := readCmd [0x01] [] 0 lockBlock (fun _ _ s => s)

/-- LINE_GET_LOCK. -/
def execLineGetLock (c : Cmd) (s : State) : Out := .next (runCmd 0x0304 lineGetLockBody c s)

/-- Status block of LINE_GET_COUNTERS. -/
def lineBlock (sc : Nat) (_ : Bytes) (s : State) : Bytes :=
  if scopeKind sc = 0x08 then
    let e := lotOf s (scopeIndex sc)
    natBytes 2 (scopeIndex sc) ++ [e.expLabel] ++
      natBytes 1 (bit e.reqKey * 128 + e.groupMask.toNat) ++ [e.cls] ++ natBytes 1 e.owner ++
      natBytes 2 0
  else []

/-- LINE_GET_COUNTERS. -/
def lineGetCountersBody : CmdBody :=
  readCmd [0x08] [(2, 8), (3, 10), (4, 7)] 0 lineBlock (fun _ _ s => s)

/-- LINE_GET_COUNTERS. -/
def execLineGetCounters (c : Cmd) (s : State) : Out := .next (runCmd 0x0305 lineGetCountersBody c s)

/-! SUP_ commands. -/

/-- SUP_SET_ACTIONS. -/
def supSetActionsBody : CmdBody :=
  settingsCmd [0x04] (fun _ => settings603) fun sc gs _ s =>
    stOk [] (holdOffLook (scopeIndex sc) (supLook (putGiven sc gs s)))

/-- SUP_SET_ACTIONS. -/
def execSupSetActions (c : Cmd) (s : State) : Out := .next (runCmd 0x0501 supSetActionsBody c s)

/-- Defect bits of a lane: bit c - 1 for code c. -/
def defectBits (f : Nat → Bool) : Nat := laneCodes.foldl (fun a c => a + bit (f c) * 2 ^ (c - 1)) 0

/-- Whole milliseconds left of a running hold-off timer, rounded up. -/
def holdLeft (s : State) (i : Nat) : Nat :=
  match (supInstOf s i).holdStart with
  | some t =>
    (((settingN s sHoldOff (scInst i) * msGrains : Int) - tlDiff t (now s)).toNat + msGrains - 1) /
      msGrains
  | none => 0

/-- Status block of SUP_GET_DEFECTS. -/
def defectsBlock (_ : Nat) (_ : Bytes) (s : State) : Bytes :=
  let lanes := (List.range 4).flatMap (fun l =>
    let x := supLaneOf s l
    natBytes 1 (defectBits (laneDefect x)) ++ natBytes 1 (defectBits (fun c => laneDefect x c && laneMasked x c)) ++
      natBytes 2 0)
  let insts := [0, 1].flatMap (fun i =>
    if (instances s).contains i then
      natBytes 1 (bit (s.act.working == i) * 4 + bit (switchSummary s i) * 2 + bit (supInstOf s i).rdi) ++
        natBytes 1 0 ++ natBytes 2 (holdLeft s i)
    else natBytes 4 0)
  let doms := [0, 1].flatMap (fun d =>
    let x := supDomOf s d
    natBytes 1 (bit x.ltm * 64 + bit x.taf * 128) ++ natBytes 1 0)
  let plm := (s.sup.plm.filter (fun p => p.2.present)).map (fun p => p.1)
  lanes ++ insts ++ doms ++ natBytes 2 plm.length ++ natBytes 2 0 ++
    (plm.take 492).flatMap (natBytes 2)

/-- SUP_GET_DEFECTS. -/
def supGetDefectsBody : CmdBody := readCmd [] [] 0 defectsBlock (fun _ _ s => s)

/-- SUP_GET_DEFECTS. -/
def execSupGetDefects (c : Cmd) (s : State) : Out := .next (runCmd 0x0502 supGetDefectsBody c s)

/-- The 24-byte header of a bin in SUP_GET_BINS. -/
def binHeader (b : Bin) : Bytes :=
  let (start, untimed) := match b.start with
    | .tod t => (todBytes t, false)
    | .untimed e t => (natBytes 2 e.toNat ++ natBytes 8 t.toNat ++ natBytes 2 0, true)
  start ++ natBytes 4 b.seconds ++
    natBytes 1 (bit untimed * 128 + bit b.partial_ * 64 + bit b.timeStep * 32 + bit b.leap * 16 +
      bit b.lowPower * 8 + bit b.restored * 4 + bit b.tca * 2) ++ natBytes 7 0

/-- Places in Table 6-6 of the counts of a scope kind: first and number. -/
def binPlaces (kind : Nat) : Nat × Nat :=
  match kind with
  | 0x01 => (0, 16)
  | 0x03 => (16, 3)
  | 0x02 => (19, 7)
  | 0x04 => (26, 6)
  | 0x05 => (32, 2)
  | _ => (0, 0)

/-- The 64-bit counts of a bin under a scope. -/
def binCounts (b : Bin) (sc : Nat) : Bytes :=
  let (first, n) := binPlaces (scopeKind sc)
  (List.range n).flatMap (fun i => natBytes 8 (tabGet 0 b.counts (binKey (first + i) sc)))

/-- Bin `i` of a kind as it is read: 0 is the open one, whose BIN_SECONDS are those so far (R181,
R182). -/
def binRead (s : State) (kind i : Nat) : Option Bin :=
  let o := if kind = 0 then s.sup.open15 else s.sup.openDay
  ({ o with seconds := binWhole o (secTail s o) } ::
    (if kind = 0 then s.sup.closed15 else s.sup.closedDay))[i]?

/-- SUP_GET_BINS (R182, R567). -/
def supGetBinsBody : CmdBody := fixedCmd 8 fun p _ s =>
  match scopeOf s [0x01, 0x02, 0x03, 0x04, 0x05] p with
  | none => badArg 5 0 s
  | some sc =>
    let kind := (byteAt p 4).toNat
    let i := (byteAt p 5).toNat
    if 2 ≤ kind then badArg 0 0 s
    else
      if (if kind = 0 then 97 else 32) ≤ i then badArg 0 0 s
      else match binRead s kind i with
        | some b => stOk (binHeader b ++ binCounts b sc) s
        | none => badArg 0 0 s

/-- SUP_GET_BINS. -/
def execSupGetBins (c : Cmd) (s : State) : Out := .next (runCmd 0x0503 supGetBinsBody c s)

/-- Settings of SUP_SET_THRESHOLDS: Table 6-2, and a threshold for each binned count. -/
def thresholdSettings : List SSpec := settings602 ++ (List.range 34).map tcaSpec

/-- A threshold has changed: a count of the open bin that already meets it raises its alert
(R187). -/
def tcaLook (g : Given) (s : State) : State :=
  if 0xF10 ≤ g.1.row then
    let day := decide (g.2.1 = 1)
    let b := if day then s.sup.openDay else s.sup.open15
    let n := g.1.row - 0xF10
    each (fun k s => tcaCheck day n (k % 2 ^ 26) s)
      ((b.counts.filter (fun p => decide (p.1 / 2 ^ 26 = n))).map (fun p => p.1)) s
  else s

/-- SUP_SET_THRESHOLDS (R170, R187). -/
def supSetThresholdsBody : CmdBody :=
  settingsCmd [0x00] (fun _ => thresholdSettings) fun sc gs _ s =>
  if given s gs sSdSet sc < given s gs sSdClr sc then badArg 4 (firstOf gs [sSdSet, sSdClr]) s
  else if given s gs sSfSet sc < given s gs sSfClr sc then badArg 4 (firstOf gs [sSfSet, sSfClr]) s
  else stOk [] (each tcaLook gs (putGiven sc gs s))

/-- SUP_SET_THRESHOLDS. -/
def execSupSetThresholds (c : Cmd) (s : State) : Out :=
  .next (runCmd 0x0504 supSetThresholdsBody c s)

end Sys2Proof.Machine
end

