-- ==== Sys2Proof/Machine/CmdAct.lean ====
section
/-! DEFINITION. The ACT_ commands (spec/05, spec/21). -/
namespace Sys2Proof.Machine

/-- The instances a scope names: one, or every one that exists. -/
def scopeInsts (s : State) (sc : Nat) : List Nat :=
  if scopeKind sc = 0x04 then [scopeIndex sc] else instances s

/-- The families that MGMT_MASK may name (R552). -/
def mgmtMaskAll : Nat := 0x097C

/-- ACT_START (R144, R544, R552): a MGMT_MASK that a management lot carries is ignored. -/
def actStartBody : CmdBody :=
  settingsCmd [0x00, 0x04] (fun _ => settings506 ++ [sMgmtMask]) fun sc gs0 c s =>
  let gs := if c.mgmt then gs0.filter (fun g => g.1 != sMgmtMask) else gs0
  match gs.find? (fun g => g.1 == sMgmtMask && decide (g.2.2.toNat ||| mgmtMaskAll ≠ mgmtMaskAll)) with
  | some _ => badArg 2 (firstOf gs [sMgmtMask]) s
  | none =>
    let mask := (gs.find? (fun g => g.1 == sMgmtMask)).map (fun g => BitVec.ofInt 16 g.2.2)
    stOk [] (each (fun i s =>
      modInst i (fun x => { x with enabled := true, mgmtMask := mask.getD x.mgmtMask })
        (putGiven (scInst i) gs s)) (scopeInsts s sc) s)

/-- ACT_START. -/
def execActStart (c : Cmd) (s : State) : Out := .next (runCmd 0x0401 actStartBody c s)

/-- ACT_STOP of one instance (Table 5-5): a SILENCED instance stays SILENCED, at once for its bursts
too, and its DURATION runs on (R147). -/
def actStop (i : Nat) (s : State) : State :=
  let x := instOf s i
  let s1 := modInst i (fun x => { x with enabled := false, silencePending := none }) s
  if x.st = .silenced then
    gateLook (modInst i (fun x => { x with prior := .listen, stBurst := .silenced })
      (actClear i none s1))
  else
    let s2 := if x.st = .tuning then modUsLane x.tuneLane (fun l => { l with tuneStep := 0 }) s1
      else s1
    toListen i none s2

/-- ACT_STOP. -/
def actStopBody : CmdBody := fixedCmd 4 fun p _ s =>
  match scopeOf s [0x00, 0x04] p with
  | none => badArg 5 0 s
  | some sc => stOk [] (each actStop (scopeInsts s sc) s)

/-- ACT_STOP. -/
def execActStop (c : Cmd) (s : State) : Out := .next (runCmd 0x0402 actStopBody c s)

/-- Status block of ACT_GET_STATE. -/
def actBlock (sc : Nat) (_ : Bytes) (s : State) : Bytes :=
  let i := if scopeKind sc = 0x04 then scopeIndex sc else 0
  let x := instOf s i
  let (lo, hi) := revRange s
  let rtt (k : Nat) : Nat := ((usLaneOf s k).rtts.getLast?.map (fun p => p.2)).getD 0xFFFFFFFF
  natBytes 1 (actCode x.st) ++
    natBytes 1 (bit s.act.dual * 4 + bit (s.act.working == i) * 2 + bit x.enabled) ++
    natBytes 2 x.terminalId.toNat ++ natBytes 2 x.rangePlot.toNat ++ natBytes 2 x.opRev.toNat ++
    natBytes 2 lo ++ natBytes 2 hi ++
    natBytes 4 (usLaneOf s 0).eqd ++ natBytes 4 (usLaneOf s 1).eqd ++
    natBytes 4 (rtt 0) ++ natBytes 4 (rtt 1) ++
    natBytes 2 (ownPlots s i).length ++ natBytes 2 (ownLots s i).length ++
    natBytes 4 x.heId.toNat ++ natBytes 4 0

/-- ACT_GET_STATE. -/
def actGetStateBody : CmdBody := readCmd [] [(5, 9), (20, 8)] 0 actBlock (fun _ _ s => s)

/-- ACT_GET_STATE. -/
def execActGetState (c : Cmd) (s : State) : Out := .next (runCmd 0x0403 actGetStateBody c s)

/-- Every instance is stopped and in LISTEN (R129). -/
def allStopped (s : State) : Bool :=
  (instances s).all (fun i => !(instOf s i).enabled && (instOf s i).st == .listen)

/-- PLOT_S of every upstream queue becomes NONE (R129). -/
def plotsNone (s : State) : State :=
  each (fun q s => if setting s sPlotS (scUsQueue q) = 0xFFFF then s
    else putSetting sPlotS (scUsQueue q) 0 0xFFFF s) (List.range 1024) s

/-- The parenting mode changes: the working parent is P (R157); dual-parented mode is SPLIT
(R117), and single-parent mode takes US_MODE again. -/
def setParenting (dual : Bool) (s : State) : State :=
  let s1 := { s with act := { s.act with
    dual := dual, working := 0, switched := false, pendingSwitch := none } }
  let s2 := { s1 with us := { s1.us with split := dual || settingB s1 sUsMode scDevice } }
  supLook (lockLook (if dual then s2 else plotsNone s2))

/-- ACT_SET_PARENTING (R129, R158, R160). -/
def actSetParentingBody : CmdBody :=
  settingsCmd [0x00] (fun _ => [sParenting, sWorking]) fun sc gs _ s =>
  let dual := if carried gs sParenting then decide (given s gs sParenting sc = 1) else s.act.dual
  let w := (given s gs sWorking sc).toNat
  if dual ≠ s.act.dual ∧ (!allStopped s || (dual && !dualGroups (laneGroup s))) then notInState s
  else if carried gs sWorking ∧ !dual ∧ w ≠ 0 then notInState s
  else
    let s1 := if dual = s.act.dual then s else setParenting dual s
    let s2 := if carried gs sParenting then
        putSetting sParenting scDevice 0 (if dual then 1 else 0) s1 else s1
    stOk [] (if carried gs sWorking then (requestSwitch w true s2).2 else s2)

/-- ACT_SET_PARENTING. -/
def execActSetParenting (c : Cmd) (s : State) : Out :=
  .next (runCmd 0x0404 actSetParentingBody c s)

end Sys2Proof.Machine
end

