-- ==== Sys2Proof/Machine/CmdCls.lean ====
section
/-! DEFINITION. The CLS_ commands: loading a graph, patterns, staging, commit (spec/10 R294,
R299, R300; spec/11 R312, R322-R327; spec/21). -/
namespace Sys2Proof.Machine

/-! Loads in chunks (R560, R299). -/

/-- What a chunk does to a partial load: refused, taken with more to come, or the whole image. -/
inductive ChunkStep
  | bad | more (b : Bytes) | whole (b : Bytes)

/-- A chunk against what has been received so far (R299). -/
def chunkStep (open_ : Option Bytes) (p : Bytes) : ChunkStep :=
  let first := (byteAt p 4).getLsbD 7
  let last := (byteAt p 4).getLsbD 6
  match (if first then some [] else open_) with
  | none => .bad
  | some b =>
    if field p 0 4 ≠ b.length then .bad
    else if last then .whole (b ++ p.drop 8) else .more (b ++ p.drop 8)

/-! Checks of a graph image (Table 10-9). -/

/-- A field of a node lies within LEN_MIN and within its word: word offset, SHIFT and WIDTH
minus one. -/
def fieldOk (lenMin off shift width : Nat) : Bool :=
  decide (shift + width ≤ 15) && (decide (shift + width < 8) || decide (off < lenMin)) &&
  (decide (7 < shift) || decide (off + 1 < lenMin)) && decide (off < lenMin)

/-- Checks 7 to 12 of one node of an image of `n` nodes. -/
def nodeCheck (code n : Nat) (r : Bytes) : Bool :=
  let flags := nb r 1
  let lenMin := nb r 2
  let lenMode := flags.testBit 5
  let entries := List.range (min 16 (nb r 17))
  match code with
  | 7 => flags.testBit 7 && decide (flags / 4 % 4 ≠ 3)
  | 8 => decide (1 ≤ lenMin) && (!lenMode || decide (lenMin ≤ nb r 3))
  | 9 =>
    (!lenMode || fieldOk lenMin (nb r 4) (nb r 5 / 16) (nb r 5 % 16)) &&
    (flags.testBit 6 || fieldOk lenMin (nb r 14) (nb r 15 / 16) (nb r 15 % 16)) &&
    (decide (flags / 4 % 4 ≠ 1) || decide (nb r 11 + 1 < lenMin)) &&
    (!flags.testBit 4 || decide (nb r 8 + 1 < lenMin))
  | 10 => decide (nb r 17 ≤ 16) &&
    entries.all (fun i => (nb r (36 + 6 * i)).testBit 7 || decide (nb r (36 + 6 * i) % 64 < n)) &&
    ((nb r 16).testBit 7 || decide (nb r 16 % 64 < n))
  | 11 => entries.all (fun i =>
      let v := field r (32 + 6 * i) 2
      let m := field r (34 + 6 * i) 2
      decide (v &&& m = v) && decide (m < 2 ^ (nb r 15 % 16 + 1)))
  | _ => (List.range 8).all (fun k =>
      let a := 128 + 4 * k
      let c := nb r (a + 1)
      let m := nb r (a + 2) % 16 + 1
      decide (c < 128) || (decide (nb r a + m ≤ lenMin) && decide (c % 32 + m ≤ 32)))

/-- The first check that an image fails: its code and the node, 0xFF when none applies. -/
def graphOffence (img : Bytes) : Option (Nat × Nat) :=
  let n := graphNodes img
  if field img 0 4 ≠ 0x434C5452 then some (1, 0xFF)
  else if field img 4 2 ≠ 1 then some (2, 0xFF)
  else if n = 0 ∨ 64 < n ∨ img.length ≠ 64 + 160 * n then some (3, 0xFF)
  else if crc32 (patch img 60 [0, 0, 0, 0]) ≠ field img 60 4 then some (4, 0xFF)
  else if 2 < (byteAt img 7).toNat then some (5, 0xFF)
  else if (List.range 5).any (fun i =>
      let b := (byteAt img (12 + i)).toNat
      decide (b < 128) && decide (n ≤ b % 64)) then some (6, 0xFF)
  else ([7, 8, 9, 10, 11, 12].findSome? (fun code =>
    ((List.range n).find? (fun k => !nodeCheck code n (nodeRec img k))).map (fun k => (code, k))))

/-- CLS_LOAD_GRAPH (R299, R300, R327). -/
def clsLoadGraphBody : CmdBody := fun c s =>
  let p := c.payload
  let drop (s : State) : State := modCls (fun c => { c with load := none }) s
  if p.length < 8 then badLength s
  else if s.cls.st ≠ .oneLive then stBusy s
  else match chunkStep s.cls.load p with
  | .bad => badArg 0 0 (drop s)
  | .more b => stPending (modCls (fun c => { c with load := some b }) s)
  | .whole b =>
    match graphOffence b with
    | some e => badArg e.1 e.2 (drop s)
    | none => stOk [] (modCls (fun c => { c with stGraph := some b }) (drop s))

/-- CLS_LOAD_GRAPH. -/
def execClsLoadGraph (c : Cmd) (s : State) : Out := .next (runCmd 0x0901 clsLoadGraphBody c s)

/-! Patterns. -/

/-- A slot that R300 accepts: not a PVALID anchored slot that reaches beyond byte 512. -/
def patSlotOk (b : Bytes) : Bool :=
  let f := nb b 0
  !f.testBit 7 || f.testBit 6 || decide (field b 2 2 % 512 + (f % 16 + 1) ≤ 512)

/-- CLS_SET_PATTERNS (R294, R300, R327). -/
def clsSetPatternsBody : CmdBody := fun c s =>
  let p := c.payload
  let n := (byteAt p 9).toNat
  let first := (byteAt p 8).toNat
  let searchLen := field p 0 2 % 1024
  let keyPos := (byteAt p 2).toNat % 32
  let keyBytes := (byteAt p 3).toNat % 16
  let slots := (List.range n).map (fun i => slice p (12 + 36 * i) 36)
  if p.length < 12 ∨ p.length ≠ 12 + 36 * n then badLength s
  else if s.cls.st ≠ .oneLive then stBusy s
  else if 27 < n ∨ 64 < first + n ∨ 512 < searchLen ∨ 8 < keyBytes ∨ 32 < keyPos + keyBytes ∨
      !slots.all patSlotOk then badArg 0 0 s
  else
    let old := s.cls.stPats.getD s.cls.cur.pats
    let ps : PatSet := { searchLen := searchLen, keyPos := keyPos, keyBytes := keyBytes,
                         onFrag := (byteAt p 4).getLsbD 0,
                         slots := tabPut (List.replicate 36 0) old.slots first slots }
    stOk [] (modCls (fun c => { c with stPats := some ps }) s)

/-- CLS_SET_PATTERNS. -/
def execClsSetPatterns (c : Cmd) (s : State) : Out := .next (runCmd 0x0902 clsSetPatternsBody c s)

/-! Staging (R324, Table 11-7). -/

/-- What a staging command works on: the tables, the inserts that wait for a rehash, the moves
made, and whether this command needs the rehash. -/
structure Stage where
  cls : Cls
  waiting : List EmEntry
  moves : Nat := 0
  rehash : Bool := false

/-- The bit of LIVE that the staged generation reads (R324). -/
def stagedGen (c : Cls) : BitVec 8 := c.newest + 1

/-- Only the staged bit set. -/
def liveOnly (g : BitVec 8) : BitVec 2 := if g.toNat % 2 = 1 then 2 else 1

/-- LIVE without the bit of a generation. -/
def liveClear (g : BitVec 8) (l : BitVec 2) : BitVec 2 := l &&& ~~~liveOnly g

/-- Is the entry one of profile and key that the staged generation sees? -/
def stagedSees (c : Cls) (profile : Nat) (k : BitVec 128) (e : EmEntry) : Bool :=
  livePar e.live (stagedGen c) && e.profile == profile && e.key == k

/-- The key is visible to the staged generation. -/
def stagedVisible (t : Stage) (profile : Nat) (k : BitVec 128) : Bool :=
  (emFind t.cls (stagedGen t.cls) profile k []).isSome ||
    t.waiting.any (stagedSees t.cls profile k)

/-- EM_ADD: the search of R321; without a place the insert waits for a rehash, and from 262,144
occupied slots on it is refused (R322). -/
def stageAdd (profile : Nat) (k : BitVec 128) (result : Nat) (t : Stage) : Option Stage :=
  let e : EmEntry := { key := k, live := liveOnly (stagedGen t.cls), profile := profile,
                       result := result }
  match emPlace e t.cls with
  | some (c, m) => some { t with cls := c, moves := t.moves + m }
  | none =>
    if 262144 ≤ emOccupied t.cls + t.waiting.length then none
    else some { t with waiting := t.waiting ++ [e], rehash := true }

/-- EM_REMOVE: the staged bit of the visible entry is cleared; answers whether a live generation
still sees the entry. -/
def stageRemove (profile : Nat) (k : BitVec 128) (t : Stage) : Option (Bool × Stage) :=
  match emFind t.cls (stagedGen t.cls) profile k [] with
  | some l =>
    let e := emAt t.cls l
    let live := liveClear (stagedGen t.cls) e.live
    let e' : EmEntry := if live = 0 then {} else { e with live := live }
    some (decide (live ≠ 0), { t with cls := emPut l e' t.cls })
  | none =>
    match t.waiting.find? (stagedSees t.cls profile k) with
    | some e =>
      let live := liveClear (stagedGen t.cls) e.live
      let rest := t.waiting.erase e
      some (decide (live ≠ 0), { t with waiting :=
        if live = 0 then rest else rest ++ [{ e with live := live }] })
    | none => none

/-- A live generation uses a result record (Table 11-7). -/
def resInUse (c : Cls) (waiting : List EmEntry) (r : Nat) : Bool :=
  let g := c.newest
  c.tern.any (fun e => livePar e.2.live g && decide (e.2.result = r)) ||
  c.em.any (fun e => livePar e.2.live g && decide (e.2.result = r)) ||
  c.stash.any (fun e => livePar e.2.live g && decide (e.2.result = r)) ||
  waiting.any (fun e => livePar e.live g && decide (e.result = r)) ||
  decide (c.cur.deflt = r) ||
  (licAction c.cur.graph == 2 && decide (licResult c.cur.graph % 32768 = r))

/-- An entry of a profile occupies a slot. -/
def profileUsed (t : Stage) (n : Nat) : Bool :=
  t.cls.em.any (fun e => decide (e.2.profile = n)) ||
  t.cls.stash.any (fun e => decide (e.2.profile = n)) || t.waiting.any (fun e => decide (e.profile = n))

/-- What a refused operation answers: a status. -/
abbrev Staged := Except Nat Stage

/-- One more ternary or exact-match operation since the last commit (Table 11-7). -/
def countStage (em : Bool) (t : Stage) : Staged :=
  let c := t.cls
  if em then
    if 32768 ≤ c.emOps then .error 7 else .ok { t with cls := { c with emOps := c.emOps + 1 } }
  else
    if 4096 ≤ c.ternOps then .error 7 else .ok { t with cls := { c with ternOps := c.ternOps + 1 } }

/-- Bytes of a staging operation; none for a code without a row. -/
def stageBytes (code : Nat) : Option Nat :=
  match code with
  | 1 => some 88
  | 2 => some 4
  | 3 => some 20
  | 4 => some 20
  | 5 => some 20
  | 6 => some 20
  | 7 => some 4
  | 8 => some 20
  | _ => none

/-- TERN_ADD and TERN_REMOVE. -/
def stageTern (b : Bytes) (t : Stage) : Staged :=
  let i := field b 2 2
  let e := tabGet ({} : TernEntry) t.cls.tern i
  let g := stagedGen t.cls
  let put (e : TernEntry) : Stage :=
    { t with cls := { t.cls with tern := tabSet ({} : TernEntry) t.cls.tern i e } }
  if 4096 ≤ i then .error 4
  else if (byteAt b 0).toNat = 1 then
    if e.live ≠ 0 ∨ 32768 ≤ field b 6 2 then .error 4
    else .ok (put { value := BitVec.ofNat 320 (field b 8 40), mask := BitVec.ofNat 320 (field b 48 40),
                    live := liveOnly g, result := field b 6 2 })
  else if !livePar e.live g then .error 4
  else
    let live := liveClear g e.live
    .ok (put (if live = 0 then {} else { e with live := live }))

/-- EM_ADD, EM_REMOVE and EM_MODIFY. -/
def stageEm (b : Bytes) (t : Stage) : Staged :=
  let profile := (byteAt b 1).toNat
  let k := BitVec.ofNat 128 (field b 4 16)
  let r := field b 2 2
  let code := (byteAt b 0).toNat
  let added (t : Stage) : Staged :=
    match stageAdd profile k r t with
    | some t1 => .ok t1
    | none => .error 7
  if 8 ≤ profile ∨ (code ≠ 4 ∧ 32768 ≤ r) then .error 4
  else if code = 3 then
    if stagedVisible t profile k then .error 4 else added t
  else match stageRemove profile k t with
  | none => .error 4
  | some (kept, t1) =>
    if code = 4 then .ok t1
    else
      let folds := if kept then t1.cls.folds ++ [(profile, k)] else t1.cls.folds
      added { t1 with cls := { t1.cls with folds := folds } }

/-- RESULT_WRITE, SET_DEFAULT and SET_PROFILE. -/
def stageOther (b : Bytes) (t : Stage) : Staged :=
  let c := t.cls
  let i := field b 2 2
  let n := (byteAt b 1).toNat
  match (byteAt b 0).toNat with
  | 6 =>
    if 32768 ≤ i || resInUse c t.waiting i then .error 4
    else .ok { t with cls := { c with res := tabSet 0 c.res i (BitVec.ofNat 128 (field b 4 16)) } }
  | 7 => if 32768 ≤ i then .error 4 else .ok { t with cls := { c with stDeflt := some i } }
  | _ =>
    let sel := slice b 4 16
    if 8 ≤ n || profileUsed t n || sel.any (fun x => x.getLsbD 7 && decide (40 ≤ x.toNat % 64)) then
      .error 4
    else .ok { t with cls := { c with profiles := tabSet 0 c.profiles n (BitVec.ofNat 128 (beNat sel)) } }

/-- One operation. -/
def stageOp (b : Bytes) (t : Stage) : Staged :=
  let code := (byteAt b 0).toNat
  if code = 1 ∨ code = 2 then
    match countStage false t with
    | .ok t1 => stageTern b t1
    | e => e
  else if code = 3 ∨ code = 4 ∨ code = 5 then
    match countStage true t with
    | .ok t1 => stageEm b t1
    | e => e
  else stageOther b t

/-- The operations in order: status and index of the first that fails; the rest of the bytes. -/
def stageAll : Nat → Nat → Bytes → Stage → Except (Nat × Nat) (Bytes × Stage)
  | 0, _, b, t => .ok (b, t)
  | n + 1, i, b, t =>
    match stageBytes (byteAt b 0).toNat with
    | none => .error (4, i)
    | some len =>
      if b.length < len then .error (4, i)
      else match stageOp (b.take len) t with
      | .error st => .error (st, i)
      | .ok t1 => stageAll n (i + 1) (b.drop len) t1

/-- CLS_STAGE_RULES (R324, R323, R327). -/
def clsStageRulesBody : CmdBody := fun c s =>
  let p := c.payload
  if p.length < 4 then badLength s
  else if s.cls.st ≠ .oneLive then stBusy s
  else
    let waiting := (s.cls.rehash.map (fun r => r.inserts)).getD []
    match stageAll (field p 0 2) 0 (p.drop 4) { cls := s.cls, waiting := waiting } with
    | .error (st, i) => refuse st 0 i s
    | .ok (rest, t) =>
      if !rest.isEmpty then badLength s
      else
        let tags := (s.cls.rehash.map (fun r => r.tags)).getD []
        let rh : Option Rehash :=
          if t.rehash then some { inserts := t.waiting, tags := tags ++ [(c.tag, c.mgmt)] }
          else s.cls.rehash.map (fun r => { r with inserts := t.waiting })
        let s1 := bump cEmMoves scDevice t.moves (modCls (fun _ => { t.cls with rehash := rh }) s)
        if t.rehash then stPending s1 else stOk [] s1

/-- CLS_STAGE_RULES. -/
def execClsStageRules (c : Cmd) (s : State) : Out := .next (runCmd 0x0903 clsStageRulesBody c s)

/-- CLS_COMMIT (R325-R327). -/
def clsCommitBody : CmdBody := fun c s =>
  if !c.payload.isEmpty then badLength s
  else if s.cls.st ≠ .oneLive then stBusy s
  else match c.sc with
  | none => stOk [] (commitNow none s)
  | some sc => stPending (modCls (fun k => { k with
      st := .commitPending, commit := some { sc := sc, tag := c.tag, mgmt := c.mgmt } }) s)

/-- CLS_COMMIT. -/
def execClsCommit (c : Cmd) (s : State) : Out := .next (runCmd 0x0904 clsCommitBody c s)

/-! CLS_GET_GENERATION. -/

/-- Code of a generation state. -/
def genCode (g : GenState) : Nat :=
  match g with
  | .oneLive => 0
  | .commitPending => 1
  | .twoLive => 2
  | .sweeping => 3

/-- Status block of CLS_GET_GENERATION; a mirrored commit that waits shows as COMMIT_PENDING. -/
def clsBlock (_ : Nat) (_ : Bytes) (s : State) : Bytes :=
  let c := s.cls
  let two := c.st == .twoLive || c.st == .sweeping
  natBytes 1 (if c.st == .oneLive && (commitHeld s).isSome then 1 else genCode c.st) ++ natBytes 1 c.newest.toNat ++
    natBytes 1 (if two then c.newest - 1 else c.newest).toNat ++ natBytes 1 (bit c.bank) ++
    natBytes 4 c.inNew ++ natBytes 4 (if two then c.inOld else c.inNew) ++
    natBytes 4 (emOccupied c) ++ natBytes 4 c.seedA.toNat ++ natBytes 4 c.seedB.toNat ++
    natBytes 6 ((c.commit.map (fun w => w.sc.toNat)).getD
      (((commitHeld s).map (fun h => h.applySc.toNat)).getD 0)) ++ natBytes 2 0

/-- Packet and byte counts of a result counter or an exact-match entry, and what takes away those
of the two that are returned; none: no such entry. -/
def clsCounts (sc : Nat) (p : Bytes) (s : State) :
    Option (Nat × Nat × (Bool → Bool → State → State)) :=
  if scopeKind sc = 0x11 then
    let k := scopeIndex sc
    let v := tabGet ((0, 0) : BitVec 64 × BitVec 64) s.cls.rcount k
    some (v.1.toNat, v.2.toNat, fun a b => modCls (fun c => { c with
      rcount := tabSet (0, 0) c.rcount k (if a then 0 else v.1, if b then 0 else v.2) }))
  else
    (emFind s.cls s.cls.newest (byteAt p 8).toNat (BitVec.ofNat 128 (field p 12 16)) []).map
      (fun l =>
        let e := emAt s.cls l
        (e.pkts.toNat, e.bytes.toNat, fun a b => modCls (emPut l { e with
          pkts := if a then 0 else e.pkts
          bytes := if b then 0 else e.bytes })))

/-- CLS_GET_GENERATION: under RESULT_CTR and EM_ENTRY the counts of one (R312, R608). -/
def clsGetGenerationBody : CmdBody := fun c s =>
  let p := c.payload
  let kind := (byteAt p 0).toNat
  let extra := if kind = 0x12 then 20 else 0
  let first := (byteAt p 6).toNat
  let n := (byteAt p 7).toNat % 128
  if (kind = 0x11 ∨ kind = 0x12) ∧ field p 4 2 = 0 ∧ p.length = 8 + extra then
    match scopeOf s [0x11, 0x12] p with
    | none => badArg 5 0 s
    | some sc =>
      match clsCounts sc p s with
      | none => badArg 0 0 s
      | some (a, b, take) =>
        if 2 < first + n then badArg 0 0 s
        else
          let all := [natBytes 8 a, natBytes 8 b]
          let s2 := if rcBit p then take (first == 0 && n != 0) (decide (first + n = 2 ∧ n ≠ 0)) s
                    else s
          stOk (clsBlock sc p s ++ ((all.drop first).take n).flatten) s2
  else readCmd [0x11, 0x12] [(10, 10), (11, 10)] extra clsBlock (fun _ _ s => s) c s

/-- CLS_GET_GENERATION. -/
def execClsGetGeneration (c : Cmd) (s : State) : Out :=
  .next (runCmd 0x0905 clsGetGenerationBody c s)

end Sys2Proof.Machine
end

