-- ==== Sys2Proof/Machine/CmdLife.lean ====
section
/-! DEFINITION. The LIFE_ commands (spec/22). -/
namespace Sys2Proof.Machine

/-- A closed day bin as a record body (R577). -/
def dayRecord (b : Bin) : Bytes :=
  binHeader b ++
    (List.range 4).flatMap (fun l => binCounts b (scLrx l)) ++
    (List.range 4).flatMap (fun g => binCounts b (scGroup g)) ++
    (List.range 2).flatMap (fun x => binCounts b (scLtx x)) ++
    (List.range 2).flatMap (fun i => binCounts b (scInst i)) ++
    (List.range 2).flatMap (fun d => binCounts b (scDom d))

/-- Whole seconds in a number of grains (R574). -/
def wholeSeconds (g : Nat) : Nat := g / 53125000000

/-- The summary record (Table 22-2): the live values, and the CP_ fields of the last
checkpoint. -/
def summaryRecord (s0 : State) : Bytes :=
  let s := accrue s0
  let x := s.life.live
  let cp := s.life.checkpoints.head?
  let tod := cp.bind (fun c => c.tod)
  let first := match x.first with
    | some f => todBytes f.tod ++ natBytes 2 f.year ++ natBytes 1 f.month ++ natBytes 1 f.day
    | none => natBytes 16 0
  natBytes 2 1 ++ natBytes 2 x.badSlots ++
    (match cp with
      | some c => natBytes 4 c.seq.toNat ++ natBytes 2 c.era.toNat ++ natBytes 8 c.tl.toNat
      | none => natBytes 14 0) ++
    todOptBytes tod ++ natBytes 1 (bit tod.isSome * 128 + bit x.first.isSome * 64) ++ [0] ++ first ++
    (List.range 4).flatMap (fun k => natBytes 8 (wholeSeconds (tabGet 0 x.powerGrains k))) ++
    natBytes 8 (wholeSeconds x.unpowered) ++
    (List.range 17).flatMap (fun k => natBytes 4 (tabGet 0 x.tj k)) ++
    (List.range 2).flatMap (fun k => natBytes 8 (tabGet 0 x.bursts k)) ++
    (List.range 2).flatMap (fun k => natBytes 8 (tabGet 0 x.laser k)) ++
    [x.boots, x.coldBoots, x.resets, x.sysResets, x.retFails, x.keyWrites, x.roleChanges, x.gaps,
      x.marks].flatMap (natBytes 4) ++ natBytes 32 0

/-- LIFE_READ (R579): whole records of a kind, as many as fit. -/
def lifeReadBody : CmdBody := fixedCmd 6 fun p _ s =>
  let first := field p 2 2
  let count := field p 4 2
  let some_ (size : Nat) (rs : List Bytes) : Reply × State :=
    stOk ((rs.drop first).take (min count (1016 / size))).flatten s
  match (byteAt p 0).toNat with
  | 1 => some_ 872 (s.life.dayBins.map (fun r => dayRecord r.bin))
  | 2 => some_ 32 (s.life.gaps.map (fun r => r.body))
  | 3 => some_ 64 (s.life.marks.map (fun r => r.body))
  | _ => badArg 0 0 s

/-- LIFE_READ. -/
def execLifeRead (c : Cmd) (s : State) : Out := .next (runCmd 0x1001 lifeReadBody c s)

/-- LIFE_GET_SUMMARY. -/
def lifeGetSummaryBody : CmdBody := fixedCmd 0 fun _ _ s => stOk (summaryRecord s) s

/-- LIFE_GET_SUMMARY. -/
def execLifeGetSummary (c : Cmd) (s : State) : Out := .next (runCmd 0x1002 lifeGetSummaryBody c s)

/-- A mark was written within the last second (R578). -/
def markRecent (s : State) : Bool :=
  match s.life.lastMark with
  | some t => decide (0 ≤ tlDiff t (now s)) && decide (tlDiff t (now s) < secGrains)
  | none => false

/-- LIFE_MARK (R578, Table 22-4); `misreads` says how the writes of its record read back (R571). -/
def lifeMarkBody (misreads : List Bool) : CmdBody := fixedCmd 32 fun p _ s =>
  if markRecent s then stBusy s
  else
    let tod := if timeValid s then outTod s else none
    let at_ := natBytes 2 s.clk.era.toNat ++ natBytes 8 (now s).toNat
    let body := at_ ++ todOptBytes tod ++ natBytes 1 (bit tod.isSome * 128) ++ [0] ++ p ++ natBytes 8 0
    let r : Rec := { seq := nextSeq (s.life.marks.head?.map (fun m => m.seq)), body := body }
    let l := putRecord 3 { s.life with misreads := misreads }
    stOk at_ { s with life := { l with
      marks := (r :: s.life.marks).take (ringCap l 3)
      lastMark := some (now s)
      live := { l.live with marks := l.live.marks + 1 } } }

/-- LIFE_MARK. -/
def execLifeMark (c : Cmd) (s : State) (misreads : List Bool := []) : Out :=
  .next (runCmd 0x1003 (lifeMarkBody misreads) c s)

end Sys2Proof.Machine
end

