-- ==== Sys2Proof/Machine/CmdQos.lean ====
section
/-! DEFINITION. The QOS_ commands (spec/15). -/
namespace Sys2Proof.Machine

/-- Settings a downstream queue has (Table 15-4). -/
def dsQueueSettings : List SSpec := [sQEnable, sQWeight, sQStrict, sQOverhead, sQMaxG, sQMaxY, sQMaxR]
/-- Settings an upstream queue has. -/
def usQueueSettings : List SSpec := settings1504.erase sQStrict

/-- QOS_SET_QUEUE (R396, R397). -/
def qosSetQueueBody : CmdBody :=
  settingsCmd [0x0A, 0x0B] (fun k => if k = 0x0A then dsQueueSettings else usQueueSettings)
    fun sc gs _ s =>
  let ds := scopeKind sc == 0x0A
  let q := scopeIndex sc
  let g := given s gs sQMaxG sc
  let y := given s gs sQMaxY sc
  let r := given s gs sQMaxR sc
  if carried gs sPlotS && !s.act.dual then badArg 0 (firstOf gs [sPlotS]) s
  else if g < y ∨ y < r then badArg 4 (firstOf gs [sQMaxG, sQMaxY, sQMaxR]) s
  else
    let s1 := putGiven sc gs s
    let moved := queuePlots s q != queuePlots s1 q || queueGroup s q != queueGroup s1 q
    let s2 := if !ds && moved && !(usOf s q).frames.isEmpty then queueActivate false q s1 else s1
    stOk [] (if queueEnabled s2 ds q then s2 else flushQueue ds q s2)

/-- QOS_SET_QUEUE. -/
def execQosSetQueue (c : Cmd) (s : State) : Out := .next (runCmd 0x0C01 qosSetQueueBody c s)

/-- QOS_SET_SCHED (Table 15-2, R410). -/
def qosSetSchedBody : CmdBody :=
  settingsCmd [0x00, 0x09] (fun k => if k = 0 then settings1502 else settings1505) fun sc gs _ s =>
  if scopeKind sc = 0 then
    if given s gs sPoolFloorR sc < given s gs sPoolFloorY sc then
      badArg 2 (firstOf gs (if carried gs sPoolFloorR then [sPoolFloorR] else [sPoolFloorY])) s
    else stOk [] (putGiven sc gs s)
  else
    let p := scopeIndex sc
    let s1 := putGiven sc gs s
    let fresh (s : State) : State :=
      each (fun g s => modGroupArb p g (fun _ => {}) s) (List.range 8)
        (modPlotArb p (fun _ => {}) s)
    stOk [] (if plotFlat s p == plotFlat s1 p then s1 else fresh s1)

/-- QOS_SET_SCHED. -/
def execQosSetSched (c : Cmd) (s : State) : Out := .next (runCmd 0x0C02 qosSetSchedBody c s)

/-- Class-group shapers allocated (R412). -/
def classShapers (s : State) : Nat :=
  s.qos.shapers.countP (fun p => scopeKind p.1 == 0x0C && p.2.live)

/-- QOS_SET_SHAPER (R412, R414). -/
def qosSetShaperBody : CmdBody :=
  settingsCmd [0x0A, 0x06, 0x0B, 0x0C] (fun _ => settings1507) fun sc gs _ s =>
  if scopeKind sc = 0x0C ∧ !(tabGet ({} : Bucket) s.qos.shapers sc).live ∧ 2048 ≤ classShapers s then
    noResource 0 0 s
  else
    let s1 := putGiven sc gs s
    let t := if settingB s1 sShResetFull sc then shaperBurst s1 sc else 0
    stOk [] (putBucket sc { t := t, last := now s, live := true } s1)

/-- QOS_SET_METER (R415, R417). -/
def qosSetMeterBody : CmdBody :=
  settingsCmd [0x10, 0x14, 0x15] (fun k =>
    if k = 0x10 then settings1508 else [{ sMapEntry with idx := if k = 0x14 then 17 else 65 }])
    fun sc gs _ s =>
  if scopeKind sc ≠ 0x10 then stOk [] (putGiven sc gs s)
  else
    let mode := given s gs sMtMode sc
    if mode = 2 ∧ given s gs sPir sc < given s gs sCir sc then
      badArg 4 (firstOf gs [sMtMode, sPir, sCir]) s
    else if mode = 1 ∧ given s gs sCbs sc = 0 ∧ given s gs sEbs sc = 0 then
      badArg 4 (firstOf gs [sMtMode, sCbs, sEbs]) s
    else
      let s1 := putGiven sc gs s
      stOk [] (putMeter (scopeIndex sc) { tc := setting s1 sCbs sc * 2 ^ 32,
                                          te := setting s1 sEbs sc * 2 ^ 32, last := now s } s1)

/-- QOS_SET_METER. -/
def execQosSetMeter (c : Cmd) (s : State) : Out := .next (runCmd 0x0C04 qosSetMeterBody c s)

/-- The queue a request describes: its own, or downstream queue 0. -/
def blockQueue (sc : Nat) : Bool × Nat :=
  if scopeKind sc = 0x0B then (false, scopeIndex sc)
  else if scopeKind sc = 0x0A then (true, scopeIndex sc) else (true, 0)

/-- Status block of QOS_GET_QUEUE. -/
def qosBlock (sc : Nat) (_ : Bytes) (s : State) : Bytes :=
  let (ds, q) := blockQueue sc
  let k := queueOf s ds q
  let t : Int := if (scopeKind sc = 0x0A ∨ scopeKind sc = 0x0B) ∧ settingB s sShEnable sc then
    shaperT s sc / 2 ^ 32 else 0
  natBytes 4 k.bushels ++ natBytes 8 (queuedBytes s ds q k) ++ natBytes 4 k.high ++
    natBytes 4 s.qos.free ++ natBytes 4 s.qos.low ++ natBytes 8 (unsigned 64 t)

/-- RC resets both marks. -/
def qosClear (sc : Nat) (_ : Bytes) (s : State) : State :=
  let (ds, q) := blockQueue sc
  let s1 := modQueue ds q (fun k => { k with high := k.bushels }) s
  { s1 with qos := { s1.qos with low := s1.qos.free } }

/-- QOS_GET_QUEUE: Table 15-11, and for an upstream queue the queue-scope counters of Table 4-7
(R125). -/
def qosGetQueueBody : CmdBody := fun c s =>
  if c.payload.length = 8 ∧ (byteAt c.payload 0).toNat = 0x0B then
    readCmd [] [(15, 11), (4, 7)] 0 qosBlock qosClear c s
  else readCmd [] [(15, 11)] 0 qosBlock qosClear c s

/-- QOS_GET_QUEUE. -/
def execQosGetQueue (c : Cmd) (s : State) : Out := .next (runCmd 0x0C05 qosGetQueueBody c s)

end Sys2Proof.Machine
end

