-- ==== Sys2Proof/Machine/CmdPort.lean ====
section
/-! DEFINITION. The PORT_ and PTP_ commands (spec/08, spec/09 R258, spec/21). -/
namespace Sys2Proof.Machine

/-- A command that names a port the mode does not have completes with ST_BAD_ARG (R224). -/
def namesNoPort (mode100 : Bool) (sc : Nat) : Bool :=
  scopeKind sc == 0x06 && mode100 && decide (scopeIndex sc % 4 ≠ 0)

/-- Settings of a lane (Table 8-2): stored under the lane, ITEM_INDEX naming it. -/
def laneSettings : List SSpec :=
  [sSlCtleMode, sSlCtleCode, sSlAdaptMin, sSlAdaptMax, sTxPre, sTxPost, sTxAmp, sRxInvert, sTxInvert]

/-- Put the settings of a PORT_CONFIGURE. -/
def putPort (sc : Nat) (gs : List Given) (s : State) : State :=
  each (fun (g : Given) s =>
    if laneSettings.contains g.1 then putSetting g.1 (scSlane g.2.1) 0 g.2.2 s
    else putSetting g.1 sc g.2.1 g.2.2 s) gs s

/-- The CTLE code that a lane's settings ask for: FIXED, or the present code within the ADAPT
bounds. -/
def slFollow (l : Nat) (s : State) : State :=
  let lo := settingN s sSlAdaptMin (scSlane l)
  let hi := settingN s sSlAdaptMax (scSlane l)
  let c := if setting s sSlCtleMode (scSlane l) = 1 then max lo (min hi (slaneOf s l).code)
    else settingN s sSlCtleCode (scSlane l)
  modSLane l (fun x => { x with code := c }) s

/-- The first offence among the settings of a PORT_CONFIGURE, `s1` being the state they would
give (Table 8-1, Table 8-2, R567). -/
def portOffence (sc : Nat) (gs : List Given) (s1 : State) : Option (Nat × Nat) :=
  let lanes := portLanes s1 (scopeIndex sc)
  let outside (g : Given) : Bool := laneSettings.contains g.1 && !lanes.contains g.2.1
  let crossed (g : Given) : Bool := (g.1 == sSlAdaptMin || g.1 == sSlAdaptMax) &&
    decide (settingN s1 sSlAdaptMax (scSlane g.2.1) < settingN s1 sSlAdaptMin (scSlane g.2.1))
  let value (g : Given) : Bool := (g.1 == sSTpid && decide (g.2.2 = 0x8100)) ||
    (g.1 == sFec && decide (g.2.2 = 1) && decide (setting s1 sPortMode scDevice = 1))
  if gs.any (fun g => outside g || value g) then
    some (2, gs.findIdx (fun g => outside g || value g))
  else if gs.any crossed then some (4, gs.findIdx crossed) else none

/-- PORT_CONFIGURE (R224, R226). -/
def portConfigureBody : CmdBody :=
  settingsCmd [0x06] (fun _ => settings802) fun sc gs _ s =>
  let p := scopeIndex sc
  let s1 := putPort sc gs s
  let moved := decide (setting s sPortMode scDevice ≠ setting s1 sPortMode scDevice)
  if namesNoPort (mode100 s) sc then badArg 0 0 s
  else match portOffence sc gs s1 with
  | some e => badArg e.1 e.2 s
  | none =>
    if moved && (List.range 8).any (fun i => (portOf s i).link != .disabled) then notInState s
    else
      let s2 := each slFollow (portLanes s1 p) s1
      let s3 := if settingB s2 sPortEnable sc then domainOn (if p < 4 then 6 else 7) s2 else s2
      stOk [] (portFlushLook p (portsLook s3))

/-- PORT_CONFIGURE. -/
def execPortConfigure (c : Cmd) (s : State) : Out := .next (runCmd 0x0701 portConfigureBody c s)

/-- PORT_SET_FILTERS (R244): the frame being received keeps the old table. -/
def portSetFiltersBody : CmdBody := fun c s =>
  let p := c.payload
  let n := (byteAt p 6).toNat
  if p.length < 8 ∨ p.length ≠ 8 + 16 * n then badLength s
  else match scopeOf s [0x06] p with
  | none => badArg 5 0 s
  | some sc =>
    if namesNoPort (mode100 s) sc ∨ 32 < n ∨ 1 < (byteAt p 4).toNat ∨ 7 < (byteAt p 5).toNat then
      badArg 0 0 s
    else
      let es := (List.range n).map (fun i => BitVec.ofNat 128 (field p (8 + 16 * i) 16))
      stOk [] (modPort (scopeIndex sc) (fun x => { x with
        filters := es, defaultDrop := (byteAt p 4).getLsbD 0, defaultClass := byteAt p 5 }) s)

/-- PORT_SET_FILTERS. -/
def execPortSetFilters (c : Cmd) (s : State) : Out := .next (runCmd 0x0702 portSetFiltersBody c s)

/-- PORT_SET_SHEAF (R248). -/
def portSetSheafBody : CmdBody :=
  settingsCmd [0x06] (fun _ => settings806) fun sc gs _ s =>
    if namesNoPort (mode100 s) sc then badArg 0 0 s else stOk [] (putGiven sc gs s)

/-- PORT_SET_SHEAF. -/
def execPortSetSheaf (c : Cmd) (s : State) : Out := .next (runCmd 0x0703 portSetSheafBody c s)

/-- Code of a link state. -/
def linkCode (l : LinkState) : Nat :=
  match l with
  | .disabled => 0
  | .down => 1
  | .rising => 2
  | .up => 3
  | .fault => 4

/-- A read under a port scope that the mode does not have is refused (R224). -/
def portRead (b : CmdBody) : CmdBody := fun c s =>
  if 4 ≤ c.payload.length ∧ namesNoPort (mode100 s) (scopeField c.payload) then badArg 0 0 s
  else b c s

/-- Status block of PORT_GET_STATS. -/
def portBlock (sc : Nat) (_ : Bytes) (s : State) : Bytes :=
  let x := portOf s (if scopeKind sc = 0x06 then scopeIndex sc else 0)
  natBytes 1 (linkCode x.link) ++ natBytes 1 x.locks.toNat ++ natBytes 1 (bit x.hiBer) ++ [0]

/-- PORT_GET_STATS. -/
def portGetStatsBody : CmdBody := portRead (readCmd [] [(8, 8)] 0 portBlock (fun _ _ s => s))

/-- PORT_GET_STATS. -/
def execPortGetStats (c : Cmd) (s : State) : Out := .next (runCmd 0x0704 portGetStatsBody c s)

/-- QOS_SET_SHAPER names a port too, so R224 holds for it. -/
def qosSetShaperPortBody : CmdBody := portRead qosSetShaperBody

/-- QOS_SET_SHAPER. -/
def execQosSetShaper (c : Cmd) (s : State) : Out := .next (runCmd 0x0C03 qosSetShaperPortBody c s)

/-! PTP_ commands. -/

/-- Is an IP_ADDR a unicast address? -/
def ipUnicast (v : Int) : Bool :=
  if v = 0 then true
  else if v < 2 ^ 40 then
    let b := heldBytes 4 v
    decide ((byteAt b 0).toNat < 224) && decide (beNat b ≠ 0)
  else
    let b := heldBytes 16 v
    decide ((byteAt b 0).toNat ≠ 255) && decide (beNat b ≠ 0)

/-- The first offence among the settings of a PTP_CONFIGURE_PORT, `s1` being the state they would
give (Table 9-1, R259). -/
def ptpOffence (sc : Nat) (gs : List Given) (s1 : State) : Option (Nat × Nat) :=
  let p := scopeIndex sc
  let prof := ptpProfile s1 p
  let value (g : Given) : Bool :=
    (g.1 == sMcastDa && !(g.2.2 == 2 ^ 48 + 0x011B19000000 || g.2.2 == 2 ^ 48 + 0x0180C200000E)) ||
    (g.1 == sPortMac && decide (g.2.2 ≠ 0) && (byteAt (heldBytes 6 g.2.2) 0).getLsbD 0) ||
    (g.1 == sIpAddr && !ipUnicast g.2.2)
  let inRange (b : Bool) : Bool :=
    let n := ptpDomain s1 p b
    if prof = 1 then decide (24 ≤ n) && decide (n ≤ 43) else true
  let both := decide (prof ≠ 0) || (decide (0 ≤ setting s1 sDnA sc) && decide (0 ≤ setting s1 sDnB sc))
  let need := if prof = 2 then 4 else if prof = 3 then 16 else 0
  if gs.any value then some (2, gs.findIdx value)
  else if !(inRange false && inRange true) then some (2, firstOf gs [sPtpProfile, sDnA, sDnB])
  else if both && ptpDomain s1 p false == ptpDomain s1 p true then
    some (4, firstOf gs [sPtpProfile, sDnA, sDnB])
  else if need ≠ 0 ∧ (portIp s1 p).length ≠ need then some (4, firstOf gs [sPtpProfile, sIpAddr])
  else none

/-- Grants of instances that no longer run, or of another profile, end at once (Table 9-9). `s0`:
before the command; an instance runs on if its source stays the same (R260). -/
def grantsLook (p : Nat) (s0 s : State) : State :=
  let stays (b : Bool) : Bool :=
    (ptpSource s p b).isSome && ptpSource s p b == ptpSource s0 p b &&
    ptpProfile s p == ptpProfile s0 p
  modPort p (fun x => { x with grants := x.grants.filter (fun g => stays g.instB) }) s

/-- PTP_CONFIGURE_PORT (R258, R259). -/
def ptpConfigurePortBody : CmdBody :=
  settingsCmd [0x06] (fun _ => settings901) fun sc gs _ s =>
  let s1 := putGiven sc gs s
  if namesNoPort (mode100 s) sc then badArg 0 0 s
  else match ptpOffence sc gs s1 with
  | some e => badArg e.1 e.2 s
  | none => stOk [] (grantsLook (scopeIndex sc) s s1)

/-- PTP_CONFIGURE_PORT. -/
def execPtpConfigurePort (c : Cmd) (s : State) : Out :=
  .next (runCmd 0x0801 ptpConfigurePortBody c s)

/-- The 24 bytes of a client in PTP_GET_PORT. -/
def clientBytes (s : State) (p : Nat) (b : Bool) (ip : BitVec 128) : Bytes :=
  let period (ty : Nat) : Nat := ((grantOf s p b ip ty).map (fun g => g.logPeriod.toNat)).getD 0x7F
  let left := ((portOf s p).grants.filter (fun g => g.instB == b && g.ip == ip)).map
    (fun g => (tlDiff (now s) g.ends).toNat / secGrains)
  natBytes 16 ip.toNat ++ natBytes 1 (ptpDomain s p b) ++ natBytes 1 (period 0xB) ++
    natBytes 1 (period 0) ++ natBytes 1 (period 9) ++
    natBytes 4 (left.foldl min ((left.head?).getD 0))

/-- Status block of PTP_GET_PORT. -/
def ptpBlock (sc : Nat) (q : Bytes) (s : State) : Bytes :=
  let p := if scopeKind sc = 0x06 then scopeIndex sc else 0
  let b := (byteAt q 9).getLsbD 0
  let runs := ptpInstances s p
  let ips := (((portOf s p).grants.filter (fun g => g.instB == b)).map (fun g => g.ip)).eraseDups
  let show_ := (ips.drop (byteAt q 8).toNat).take 32
  natBytes 1 (bit (runs.any (fun i => !i.1)) + 2 * bit (runs.any (fun i => i.1))) ++
    natBytes 1 ips.length ++ natBytes 1 show_.length ++ [0] ++ show_.flatMap (clientBytes s p b)

/-- PTP_GET_PORT. -/
def ptpGetPortBody : CmdBody := portRead (fun c s =>
  if c.payload.length = 12 ∧ 1 < (byteAt c.payload 9).toNat then badArg 0 0 s
  else readCmd [] [(9, 8)] 4 ptpBlock (fun _ _ s => s) c s)

/-- PTP_GET_PORT. -/
def execPtpGetPort (c : Cmd) (s : State) : Out := .next (runCmd 0x0802 ptpGetPortBody c s)

end Sys2Proof.Machine
end

