-- ==== Sys2Proof/Machine/CmdSec.lean ====
section
/-! DEFINITION. The CRY_ and SEC_ commands and the debug port (spec/16 R431, R439-R441;
spec/17; spec/21). -/
namespace Sys2Proof.Machine

/-! CRY_BIND_SLOT. -/

/-- Items of CRY_BIND_SLOT. -/
def bindSettings : List SSpec := [sSlotUse, sSlotTarget, sSlotKeyIdx, sSlotAlg]

/-- The item of a binding, or what the slot holds. -/
def bindItem (gs : List Given) (p : SSpec) (held : Nat) : Nat :=
  match gs.find? (fun g => g.1 == p) with
  | some g => g.2.2.toNat
  | none => held

/-- CRY_BIND_SLOT (R439, Table 16-9). -/
def cryBindSlotBody : CmdBody :=
  settingsCmd [0x13] (fun _ => bindSettings) fun sc gs _ s =>
  let k := scopeIndex sc
  let x := slotOf s k
  let use := bindItem gs sSlotUse x.use
  let target := bindItem gs sSlotTarget x.target
  let keyIdx := bindItem gs sSlotKeyIdx x.keyIdx
  let alg := bindItem gs sSlotAlg (bit x.cmacAlg)
  let lot := use == 1 || use == 2
  let aimed := decide (1 ≤ use) && decide (use ≤ 4)
  if 5 < use then badArg 2 (firstOf gs [sSlotUse]) s
  else if (lot || use == 3) && decide (1 ≤ target) && !s.act.dual then
    badArg 2 (firstOf gs [sSlotTarget, sSlotUse]) s
  else if lot && keyIdx == 0 then badArg 4 (firstOf gs [sSlotKeyIdx, sSlotUse]) s
  else if aimed && alg == 1 then badArg 4 (firstOf gs [sSlotAlg, sSlotUse]) s
  else
    let s1 := match (if aimed then boundSlot s use target keyIdx else none) with
      | some j => if j = k then s else modSlot j (fun y => { y with use := 0 }) s
      | none => s
    let s2 := modSlot k (fun y => { y with
      use := use, target := target, keyIdx := keyIdx, cmacAlg := alg == 1 }) s1
    stOk [] (startOps (keysLook s2))

/-- CRY_BIND_SLOT. -/
def execCryBindSlot (c : Cmd) (s : State) : Out := .next (runCmd 0x0D01 cryBindSlotBody c s)

/-! CRY_SEAL and CRY_UNSEAL: operations of OTHER (Table 16-1), answered when they have ended. -/

/-- A slot that CRY_SEAL and CRY_UNSEAL may use (R440). -/
def sealSlot (s : State) (k : Nat) : Bool :=
  let x := slotOf s k
  x.use == 5 && x.loaded && !x.cmacAlg

/-- The engine gets a command's operation; the Reeve answers at its end. -/
def sealOp (op : Nat) (tag : BitVec 16) (o : CryOp) (s : State) : Reply × State :=
  let r := issueOp o s
  ({ status := 0, later := true }, modReeve (fun v => { v with
    sealing := v.sealing ++ [(r.1, BitVec.ofNat 16 op, tag)] }) r.2)

/-- CRY_SEAL (R423, R431, R440, R443, R566). -/
def crySealBody : CmdBody := fun c s =>
  let p := c.payload
  let k := (byteAt p 0).toNat
  let a := field p 2 2
  let t := field p 4 2
  if p.length < 8 ∨ 976 < a + t ∨ p.length ≠ 8 + a + t then badLength s
  else if 128 ≤ k then badArg 0 0 s
  else if s.cry.stopped then cryDenied 3 (bump cCryAborted scDevice 1 s)
  else if !sealSlot s k then cryDenied 2 s
  else match drawNonce k s with
    | (none, s1) => cryDenied 2 s1
    | (some n, s1) =>
      sealOp 0x0D02 c.tag { id := 0, client := 2, slot := k, use := 5, target := 0, keyIdx := 0,
                            mode := .seal, nonce := n, aad := slice p 8 a, text := slice p (8 + a) t,
                            tag := [], dst := .command } s1

/-- CRY_SEAL. -/
def execCrySeal (c : Cmd) (s : State) : Out := .next (runCmd 0x0D02 crySealBody c s)

/-- CRY_UNSEAL (R423, R440, R566). -/
def cryUnsealBody : CmdBody := fun c s =>
  let p := c.payload
  let k := (byteAt p 0).toNat
  let a := field p 2 2
  let t := field p 4 2
  if p.length < 8 ∨ 976 < a + t ∨ p.length ≠ 36 + a + t then badLength s
  else if 128 ≤ k then badArg 0 0 s
  else if s.cry.stopped then cryDenied 3 (bump cCryAborted scDevice 1 s)
  else if !sealSlot s k then cryDenied 2 s
  else sealOp 0x0D03 c.tag { id := 0, client := 2, slot := k, use := 5, target := 0, keyIdx := 0,
                             mode := .open_, nonce := slice p 8 12, aad := slice p 20 a,
                             text := slice p (20 + a) t, tag := slice p (20 + a + t) 16,
                             dst := .command } s

/-- CRY_UNSEAL. -/
def execCryUnseal (c : Cmd) (s : State) : Out := .next (runCmd 0x0D03 cryUnsealBody c s)

/-- Status block of CRY_GET_SLOT: never key material or SALT (R440). -/
def slotBlock (sc : Nat) (_ : Bytes) (s : State) : Bytes :=
  let x := slotOf s (if scopeKind sc = 0x13 then scopeIndex sc else 0)
  natBytes 1 x.use ++ natBytes 1 x.target ++ natBytes 1 x.keyIdx ++ natBytes 1 (bit x.cmacAlg) ++
    natBytes 1 (bit x.size256) ++ natBytes 1 (bit x.loaded) ++ natBytes 1 x.gen.toNat ++ [0] ++
    natBytes 8 x.ctr.toNat

/-- CRY_GET_SLOT. -/
def cryGetSlotBody : CmdBody := readCmd [0x13] [(16, 8)] 0 slotBlock (fun _ _ s => s)

/-- CRY_GET_SLOT. -/
def execCryGetSlot (c : Cmd) (s : State) : Out := .next (runCmd 0x0D04 cryGetSlotBody c s)

/-! Life cycle (R446-R451). -/

/-- A 16-bit field that is burned with fewer than 16 bits (R451). -/
def weakField (f : BitVec 16) : Bool := f != 0 && f != 0xFFFF

/-- FUSE_WEAK: F_PROV, F_SEC, F_RET in bits 0 to 2. -/
def fuseWeak (s : State) : Nat :=
  bit (weakField s.fuses.prov) + 2 * bit (weakField s.fuses.sec) + 4 * bit (weakField s.fuses.ret)

/-- Code of a debug state. -/
def debugCode (d : Debug) : Nat :=
  match d with
  | .locked => 0
  | .authenticated => 1
  | .open_ => 2

/-- SEC_GET_LIFECYCLE. -/
def secGetLifecycleBody : CmdBody := fixedCmd 0 fun _ _ s =>
  stOk (natBytes 1 (lifeCycle s) ++ natBytes 1 (debugCode s.sec.debug) ++
    natBytes 1 (2 * bit (kekValid s) + bit s.sec.upstreamInhibit) ++ natBytes 1 (fuseWeak s) ++
    natBytes 1 (bit s.win.image) ++ natBytes 1 (bit s.win.fallback) ++ [s.sec.unlockFail, 0]) s

/-- SEC_GET_LIFECYCLE. -/
def execSecGetLifecycle (c : Cmd) (s : State) : Out := .next (runCmd 0x0E01 secGetLifecycleBody c s)

/-- Burned bits that the request does not have: they conflict (R449). -/
def burnConflict (f n : Fuses) : Bool :=
  f.kek &&& ~~~n.kek != 0 || f.kekCrc &&& ~~~n.kekCrc != 0 ||
  f.bootKeyHash &&& ~~~n.bootKeyHash != 0 || f.debugKeyHash &&& ~~~n.debugKeyHash != 0

/-- The fuses that SEC_ADVANCE PROVISIONED burns (R447). -/
def provisionFuses (s : State) (p : Bytes) (took : BitVec 16) : Fuses :=
  let key := (slotOf s 127).key
  { s.fuses with
    kek := BitVec.ofNat 256 (beNat key)
    kekCrc := BitVec.ofNat 32 (crc32 key)
    bootKeyHash := BitVec.ofNat 384 (field p 8 48)
    debugKeyHash := BitVec.ofNat 384 (field p 56 48)
    prov := s.fuses.prov ||| took }

/-- SEC_ADVANCE has burned its fuses: FUSE_WEAK is answered, and the reset follows. -/
def advanced (c : Call) (s : State) : Reply × State :=
  stOk (natBytes 1 (fuseWeak s)) (askReset 0x0E02 c s)

/-- SEC_ADVANCE (R447-R451). -/
def secAdvanceBody (took : BitVec 16) : CmdBody := fun c s =>
  let p := c.payload
  let target := (byteAt p 0).toNat
  let lc := lifeCycle s
  let x := slotOf s 127
  if p.length ≠ (if target = 1 then 104 else 8) then badLength s
  else if s.pwr.phase ≠ .stable then stBusy s
  else if s.pwr.st ≠ .run then notInState s
  else if field p 4 4 ≠ 0x4C434144 ∨
      !((target == 1 && lc == 0) || (target == 2 && lc == 1) || (target == 3 && decide (lc < 3))) then
    badArg 0 0 s
  else if target = 1 then
    let f := provisionFuses s p took
    if !x.loaded || !x.size256 || x.use != 0 || burnConflict s.fuses f then stDenied s
    else advanced c (eraseSlots [127] { s with fuses := f })
  else if target = 2 then
    if s.sec.debug ≠ .locked ∨ !kekValid s then stDenied s
    else advanced c { s with fuses := { s.fuses with sec := s.fuses.sec ||| took } }
  else advanced c (eraseAll { s with fuses := { s.fuses with ret := s.fuses.ret ||| took } })

/-- SEC_ADVANCE. -/
def execSecAdvance (c : Cmd) (took : BitVec 16) (s : State) : Out :=
  .next (runCmd 0x0E02 (secAdvanceBody took) c s)

/-! Debug (R456-R461). -/

/-- SEC_DEBUG_CHALLENGE (R458, R459): the challenge is free. -/
def secDebugChallengeBody : CmdBody := fixedCmd 0 fun _ _ s =>
  if 8 ≤ s.sec.unlockFail.toNat then stDenied s
  else
    let b := freeBytes s 32
    let s1 := (rngDraw s).2
    stOk b { s1 with sec := { s1.sec with challenge := some (b, now s) } }

/-- SEC_DEBUG_CHALLENGE. -/
def execSecDebugChallenge (c : Cmd) (s : State) : Out :=
  .next (runCmd 0x0E03 secDebugChallengeBody c s)

/-- An unlock is valid: a challenge of at most 60 s, the right key, a signature that verifies
(R458). -/
def unlockValid (s : State) (p : Bytes) : Bool :=
  match s.sec.challenge with
  | none => false
  | some (b, t) =>
    let key := slice p 4 97
    decide (tlDiff t (now s) ≤ 60 * secGrains) &&
    decide (beNat (sha384 key) = s.fuses.debugKeyHash.toNat) &&
    ecdsaVerify key (sha384 (b ++ serialBytes ++ natBytes 1 (lifeCycle s))) (slice p 101 96)

/-- Debug opens (Table 17-5): in SECURED every key is erased and the upstream inhibited first. -/
def openDebug (s : State) : State :=
  let s1 := if lifeCycle s = 2 then
      let s2 := eraseAll s
      gateLook { s2 with sec := { s2.sec with upstreamInhibit := true } }
    else s
  raise 0x0E03 0 0 { s1 with sec := { s1.sec with debug := .authenticated } }

/-- SEC_DEBUG_UNLOCK (R458, R459, R461). -/
def secDebugUnlockBody : CmdBody := fun c s =>
  let p := c.payload
  let ends := (byteAt p 0).getLsbD 0
  if p.length ≠ (if ends then 4 else 197) then badLength s
  else if s.pwr.phase ≠ .stable then stBusy s
  else if s.pwr.st = .deepFallow then notInState s
  else if ends then
    if s.sec.debug ≠ .authenticated then notInState s
    else stOk [] (raise 0x0E04 0 0 { s with sec := { s.sec with debug := .locked } })
  else if s.sec.debug ≠ .locked then notInState s
  else
    let used := { s with sec := { s.sec with challenge := none } }
    if unlockValid s p then stOk [] (openDebug used)
    else stDenied { used with sec := { used.sec with
      unlockFail := if s.sec.unlockFail = 0xFF then 0xFF else s.sec.unlockFail + 1 } }

/-- SEC_DEBUG_UNLOCK. -/
def execSecDebugUnlock (c : Cmd) (s : State) : Out := .next (runCmd 0x0E04 secDebugUnlockBody c s)

/-- An operation on the IEEE 1149.1 or debug access port (Table 17-4, R457): EXTEST and the debug
access port answer only outside LOCKED, the port is unpowered in DEEP_FALLOW, and key slots are
never read. Another instruction takes EXTEST off the pins. -/
def execDebugPortAccess (op : DebugOp) (s : State) : Out :=
  let opened := s.sec.debug != .locked
  let upd (f : Sec → Sec) : State := { s with sec := f s.sec }
  if s.pwr.st = .deepFallow then .next s
  else match op with
    | .bypass => .next (upd (fun x => { x with extest := false }))
    | .idcode => .next (upd (fun x => { x with extest := false, tapOut := Config.idcode }))
    | .samplePreload => .next (upd (fun x => { x with extest := false }))
    | .extest => .next (if opened then upd (fun x => { x with extest := true }) else s)
    | .haltReeve => .next (if opened then upd (fun x => { x with reeveHalted := true }) else s)
    | .resumeReeve => .next (if opened then upd (fun x => { x with reeveHalted := false }) else s)
    | .haltTine h t => .next (if opened then
        upd (fun x => { x with tinesHalted := x.tinesHalted ||| (1#192 <<< (h.val * 16 + t.val)) })
      else s)
    | .resumeTine h t => .next (if opened then
        upd (fun x => { x with
          tinesHalted := x.tinesHalted &&& ~~~(1#192 <<< (h.val * 16 + t.val)) }) else s)
    | .readTineReg h t th r => .next (if opened then
        upd (fun x => { x with tapOut := tabGet 0 (threadOf s h.val t.val th.val).v r.toNat }) else s)
    | .readSlot _ => .next s

end Sys2Proof.Machine
end

