-- ==== Sys2Proof/Machine/CmdTime.lean ====
section
/-! DEFINITION. The TIME_ commands (spec/07, spec/09 R275, spec/21). -/
namespace Sys2Proof.Machine

/-- A change of SLEW_RATE bends a slew from now on: O is taken at its present value (R214). -/
def slewRebase (o : Int) (s : State) : State := if s.time.offset = 0 then s else setOffset o s

/-- HOLD_VALID as now in force is held against the time spent in HOLDOVER (R210). -/
def holdLook (d : Nat) (s : State) : State :=
  let x := domOf s d
  let limit : Int := settingN s sHoldValid (scDom d) * secGrains
  let gone := decide (limit ≤ tlDiff x.holdoverStart (now s))
  if x.st = .holdover then
    autoSelect (timeLook (modDom d (fun x => { x with holdExpired := gone }) s))
  else s

/-- ENABLE of a domain takes effect (Table 7-11). -/
def enableDomLook (d : Nat) (s : State) : State :=
  let on := domEnabled s d
  let dis := decide ((domOf s d).st = .disabled)
  if on && dis then domEnable d s else if !on && !dis then domDisable d s else s

/-- TIME_SET_DOMAINS (R189). -/
def timeSetDomainsBody : CmdBody :=
  settingsCmd [0x05] (fun _ => settings702 ++ [sDomSrc]) fun sc gs _ s =>
  let d := scopeIndex sc
  let s1 := slewRebase (outOffset s (now s)) (putGiven sc gs s)
  stOk [] (autoSelect (holdLook d (enableDomLook d s1)))

/-- TIME_SET_DOMAINS. -/
def execTimeSetDomains (c : Cmd) (s : State) : Out := .next (runCmd 0x0601 timeSetDomainsBody c s)

/-- TIME_SELECT (R215, R216). -/
def timeSelectBody : CmdBody := fixedCmd 4 fun p _ s =>
  let d := (byteAt p 0).toNat
  if 2 ≤ d then badArg 0 0 s
  else if (domOf s d).st = .disabled then notInState s
  else stOk [] (selectDomain d ((byteAt p 1).getLsbD 0) s)

/-- TIME_SELECT. -/
def execTimeSelect (c : Cmd) (s : State) : Out := .next (runCmd 0x0602 timeSelectBody c s)

/-- TIME_SET_ASYM (R207): the fit modes are looked at again (R205). -/
def timeSetAsymBody : CmdBody :=
  settingsCmd [0x00] (fun _ => settings709) fun sc gs _ s =>
    stOk [] (fitLook 1 none (fitLook 0 none (putGiven sc gs s)))

/-- TIME_SET_ASYM. -/
def execTimeSetAsym (c : Cmd) (s : State) : Out := .next (runCmd 0x0603 timeSetAsymBody c s)

/-- Status block of TIME_GET_FIT. -/
def fitBlock (sc : Nat) (_ : Bytes) (s : State) : Bytes :=
  let f := fitOf s (if scopeKind sc = 0x05 then scopeIndex sc else 0)
  natBytes 1 f.mode ++ natBytes 1 f.confidence ++ natBytes 1 (bit f.bound) ++ [0] ++
    natBytes 4 f.lambda0 ++ natBytes 4 f.s0 ++ natBytes 4 f.length ++ natBytes 4 f.share ++
    natBytes 4 f.fitSigma ++ natBytes 4 f.residual ++ natBytes 6 f.lastSc.toNat ++ natBytes 2 0

/-- TIME_GET_FIT. -/
def timeGetFitBody : CmdBody := readCmd [0x05] [] 0 fitBlock (fun _ _ s => s)

/-- TIME_GET_FIT. -/
def execTimeGetFit (c : Cmd) (s : State) : Out := .next (runCmd 0x0604 timeGetFitBody c s)

/-- TIME_SET_OUTPUTS (R275, R218): PPS_IN starts its 0.5 s and 2 s afresh when it is enabled or
disabled. -/
def timeSetOutputsBody : CmdBody :=
  settingsCmd [0x00] (fun _ => settings906) fun sc gs _ s =>
    let s1 := putGiven sc gs s
    stOk [] (if settingB s sPpsInEnable scDevice == settingB s1 sPpsInEnable scDevice then s1
      else { s1 with time := { s1.time with lastPpsIn := none, ppsInLost := false } })

/-- TIME_SET_OUTPUTS. -/
def execTimeSetOutputs (c : Cmd) (s : State) : Out := .next (runCmd 0x0605 timeSetOutputsBody c s)

/-- The 24 bytes of a domain in TIME_GET_STATUS. -/
def domStatus (s : State) (d : Nat) : Bytes :=
  let x := domOf s d
  let held := if x.st = .holdover then (tlDiff x.holdoverStart (now s)).toNat / secGrains else 0
  natBytes 1 (servoCode x.st) ++ [x.quality] ++ natBytes 2 0 ++ natBytes 8 (unsigned 64 x.lastE) ++
    natBytes 8 (unsigned 64 x.y) ++ natBytes 4 held

/-- An offset of a capture does not fit its four bytes. -/
def offWide (o : Option Int) : Bool :=
  match o with
  | some v => decide (v < -(2 ^ 31) + 1) || decide ((2 ^ 31 : Int) ≤ v)
  | none => false

/-- Four bytes of an offset: 0x8000_0000 when invalid, a free value when the offset does not fit
(the spec states none). -/
def offBytes (k : Nat) (o : Option Int) : Bytes :=
  match o with
  | some v => if offWide o then natBytes 4 (Config.freeNat k) else natBytes 4 (unsigned 32 v)
  | none => natBytes 4 0x80000000

/-- The 22 bytes of PPS_IN capture `i`, newest first; one not made is zero with no offset. -/
def captureBytes (s : State) (i : Nat) : Bytes :=
  let k := s.freeCtr + 3 * i
  match s.time.captures[i]? with
  | some c => natBytes 2 c.era.toNat ++ natBytes 8 c.tl.toNat ++ offBytes k c.off0 ++
      offBytes (k + 1) c.off1 ++ offBytes (k + 2) c.offOut
  | none => natBytes 10 0 ++ offBytes k none ++ offBytes k none ++ offBytes k none

/-- Status block of TIME_GET_STATUS. -/
def timeBlock (_ : Nat) (_ : Bytes) (s : State) : Bytes :=
  let o := outOffset s (now s)
  let (utc, li61, li59, ok) := utcNow s
  let slewing := s.time.runOn.isNone && decide (o ≠ 0)
  natBytes 1 s.time.selected ++
    natBytes 1 (bit (settingB s sSelectMode scDevice) * 4 + bit (timeValid s) * 2 + bit slewing) ++
    natBytes 1 (refCode s.clk.ref) ++ [0] ++ natBytes 8 (unsigned 64 o) ++ todOptBytes (outTod s) ++
    natBytes 2 s.clk.era.toNat ++ natBytes 8 (now s).toNat ++ natBytes 2 (unsigned 16 utc) ++
    natBytes 1 (bit li61 * 128 + bit li59 * 64 + bit ok * 32) ++ natBytes 3 0 ++
    domStatus s 0 ++ domStatus s 1 ++ (List.range 16).flatMap (captureBytes s)

/-- TIME_GET_STATUS. -/
def timeGetStatusBody : CmdBody := fun c s =>
  let (r, s1) := readCmd [] [(7, 14)] 0 timeBlock (fun _ _ s => s) c s
  (r, if s.time.captures.any (fun c => offWide c.off0 || offWide c.off1 || offWide c.offOut) then
    { s1 with freeCtr := s1.freeCtr + 48 } else s1)

/-- TIME_GET_STATUS. -/
def execTimeGetStatus (c : Cmd) (s : State) : Out := .next (runCmd 0x0606 timeGetStatusBody c s)

end Sys2Proof.Machine
end

