-- ==== Sys2Proof/Machine/TineIsa.lean ====
section
/-! DEFINITION. The tine instructions, one meaning each over the engine of Tine.lean
(spec/13). -/
namespace Sys2Proof.Machine

/-! Operands. -/

/-- Write register `r`. -/
def setV (r : Nat) (v : BitVec 32) (x : Thread) : Thread := { x with v := tabSet 0 x.v r v }
/-- Operand B of the ALU class. -/
def opB (f : TFields) (x : Thread) : BitVec 32 := if f.rb then vReg x f.vb else f.imm
/-- Operand B of BR: VB, or CMPV. -/
def brB (f : TFields) (x : Thread) : BitVec 32 :=
  if f.rb then vReg x f.vb else BitVec.ofNat 32 (bits f.imm.toNat 31 16)
/-- An immediate offset plus VB when RB is 1. -/
def plusVB (f : TFields) (x : Thread) (off : Nat) : Nat :=
  if f.rb then (BitVec.ofNat 32 off + vReg x f.vb).toNat else off

/-- Condition codes (Table 13-3). -/
def condHolds (fn : Nat) (a b : BitVec 32) : Bool :=
  match fn with
  | 0x0 => a == b
  | 0x1 => a != b
  | 0x2 => decide (a.toNat < b.toNat)
  | 0x3 => decide (b.toNat ≤ a.toNat)
  | 0x4 => decide (a.toNat ≤ b.toNat)
  | 0x5 => decide (b.toNat < a.toNat)
  | 0x6 => decide (a.toInt < b.toInt)
  | 0x7 => decide (b.toInt ≤ a.toInt)
  | 0x8 => decide (a.toInt ≤ b.toInt)
  | 0x9 => decide (b.toInt < a.toInt)
  | 0xA => a &&& b != 0
  | 0xB => a &&& b == 0
  | 0xF => true
  | _ => false

/-- An instruction whose whole effect is a new VD computed from VA, B and VD. -/
def aluOp (op : Nat) (th : ThreadId) (f : TFields) (g : BitVec 32 → BitVec 32 → BitVec 32)
    (s : State) : State :=
  issue op th f (fun x s => tDone (setV f.vd.toNat (g (vReg x f.va) (opB f x)) x) s) s

/-! NOP and the ALU (Table 13-4). -/

/-- NOP. -/
def execNop (th : ThreadId) (f : TFields) (s : State) : Out := .next (issue 0x01 th f tDone s)
/-- ADD. -/
def execAdd (th : ThreadId) (f : TFields) (s : State) : Out :=
  .next (aluOp 0x10 th f (fun a b => a + b) s)
/-- SUB. -/
def execSub (th : ThreadId) (f : TFields) (s : State) : Out :=
  .next (aluOp 0x11 th f (fun a b => a - b) s)
/-- AND. -/
def execAnd (th : ThreadId) (f : TFields) (s : State) : Out :=
  .next (aluOp 0x12 th f (fun a b => a &&& b) s)
/-- OR. -/
def execOr (th : ThreadId) (f : TFields) (s : State) : Out :=
  .next (aluOp 0x13 th f (fun a b => a ||| b) s)
/-- XOR. -/
def execXor (th : ThreadId) (f : TFields) (s : State) : Out :=
  .next (aluOp 0x14 th f (fun a b => a ^^^ b) s)
/-- SHL. -/
def execShl (th : ThreadId) (f : TFields) (s : State) : Out :=
  .next (aluOp 0x15 th f (fun a b => a <<< (b.toNat % 32)) s)
/-- SHR. -/
def execShr (th : ThreadId) (f : TFields) (s : State) : Out :=
  .next (aluOp 0x16 th f (fun a b => a >>> (b.toNat % 32)) s)
/-- SRA. -/
def execSra (th : ThreadId) (f : TFields) (s : State) : Out :=
  .next (aluOp 0x17 th f (fun a b => a.sshiftRight (b.toNat % 32)) s)
/-- MUL. -/
def execMul (th : ThreadId) (f : TFields) (s : State) : Out :=
  .next (aluOp 0x18 th f (fun a b => a * b) s)
/-- MINU. -/
def execMinu (th : ThreadId) (f : TFields) (s : State) : Out :=
  .next (aluOp 0x19 th f (fun a b => if a.toNat ≤ b.toNat then a else b) s)
/-- MAXU. -/
def execMaxu (th : ThreadId) (f : TFields) (s : State) : Out :=
  .next (aluOp 0x1A th f (fun a b => if a.toNat ≤ b.toNat then b else a) s)
/-- MOV. -/
def execMov (th : ThreadId) (f : TFields) (s : State) : Out :=
  .next (aluOp 0x1B th f (fun _ b => b) s)
/-- CMP (R360). -/
def execCmp (th : ThreadId) (f : TFields) (s : State) : Out :=
  .next (aluOp 0x1C th f (fun a b => if condHolds f.fn.toNat a b then 1 else 0) s)
/-- The ones'-complement sum of two halves, folded to 16 bits. -/
def csadd (a b : BitVec 32) : BitVec 32 :=
  let t := a.toNat % 65536 + b.toNat % 65536
  BitVec.ofNat 32 (if 65536 ≤ t then t - 65535 else t)
/-- CSADD. -/
def execCsadd (th : ThreadId) (f : TFields) (s : State) : Out := .next (aluOp 0x1D th f csadd s)
/-- EXT. -/
def execExt (th : ThreadId) (f : TFields) (s : State) : Out :=
  .next (issue 0x1E th f (fun x s =>
    tDone (setV f.vd.toNat (BitVec.ofNat 32
      ((vReg x f.va).toNat / 2 ^ immShift f % 2 ^ (immWidth f + 1))) x) s) s)
/-- The bits `shift` to `shift + width` of `old`, replaced by the low bits of `new`. -/
def insertField (shift width old new : Nat) : Nat :=
  old / 2 ^ (shift + width + 1) * 2 ^ (shift + width + 1) + new % 2 ^ (width + 1) * 2 ^ shift +
    old % 2 ^ shift
/-- INS. -/
def execIns (th : ThreadId) (f : TFields) (s : State) : Out :=
  .next (issue 0x1F th f (fun x s =>
    tDone (setV f.vd.toNat (BitVec.ofNat 32 (insertField (immShift f) (immWidth f)
      (vReg x f.vd).toNat (vReg x f.va).toNat)) x) s) s)
/-- BR (R360). TARGET is an index of the program's image. -/
def execBr (th : ThreadId) (f : TFields) (s : State) : Out :=
  .next (issue 0x20 th f (fun x s =>
    if condHolds f.fn.toNat (vReg x f.va) (brB f x) then
      .ok { x with pc := x.view.base + bits f.imm.toNat 12 0 } s true
    else tDone x s) s)

/-! The window (R363, R364). -/

/-- Bytes of an instruction: N + 1. -/
def nBytes (f : TFields) : Nat := f.n.toNat + 1
/-- The window offset or private offset in bits 7:0. -/
def winOff (f : TFields) (x : Thread) : Nat := plusVA f x (bits f.imm.toNat 7 0)
/-- The whole range lies in the valid window bytes. -/
def inWindow (x : Thread) (off n : Nat) : Bool := decide (off + n ≤ x.win.length)

/-- LDW. -/
def execLdw (th : ThreadId) (f : TFields) (s : State) : Out :=
  .next (issue 0x30 th f (fun x s =>
    let off := winOff f x
    if !inWindow x off (nBytes f) then .fault 0x02 (some off)
    else tDone (setV f.vd.toNat (BitVec.ofNat 32
      (field x.win off (nBytes f) / 2 ^ immShift f % 2 ^ (immWidth f + 1))) x) s) s)
/-- STW. -/
def execStw (th : ThreadId) (f : TFields) (s : State) : Out :=
  .next (issue 0x31 th f (fun x s =>
    let off := winOff f x
    if !inWindow x off (nBytes f) then .fault 0x02 (some off)
    else
      let v := insertField (immShift f) (immWidth f) (field x.win off (nBytes f))
        (vReg x f.vd).toNat
      tDone { x with win := patch x.win off (natBytes (nBytes f) v), modified := true } s) s)
/-- PUSH. -/
def execPush (th : ThreadId) (f : TFields) (s : State) : Out :=
  .next (issue 0x32 th f (fun x s =>
    let p := winOff f x
    let w := x.win.take p ++ List.replicate (nBytes f) 0 ++ x.win.drop p
    let spill := w.drop 256 ++ x.spill
    if decide (x.win.length < p) || decide (64 < spill.length) then
      .fault 0x02 (some p)
    else tDone { x with win := w.take 256, spill := spill, modified := true } s) s)
/-- POP. -/
def execPop (th : ThreadId) (f : TFields) (s : State) : Out :=
  .next (issue 0x33 th f (fun x s =>
    let p := winOff f x
    if !inWindow x p (nBytes f) then .fault 0x02 (some p)
    else tDone { x with win := x.win.take p ++ x.win.drop (p + nBytes f), modified := true } s) s)

/-! Spaces (R365-R367). -/

/-- The spaces that instructions address. -/
inductive Space | window | constant | priv
  deriving DecidableEq, Repr

/-- The fault of an access outside a space. -/
def spaceFault : Space → Nat
  | .window => 0x02
  | .constant => 0x03
  | .priv => 0x0B
/-- A range lies within a space. -/
def inSpace (sp : Space) (x : Thread) (off n : Nat) : Bool :=
  match sp with
  | .window => inWindow x off n
  | .constant => decide (off + n ≤ x.view.constLen)
  | .priv => decide (off + n ≤ 1024)
/-- Private bytes. -/
def privBytes (x : Thread) (off n : Nat) : Bytes := tabRange 0 x.priv off n
/-- Write private bytes. -/
def putPriv (off : Nat) (b : Bytes) (x : Thread) : Thread :=
  { x with priv := tabPut 0 x.priv off b }
/-- Bytes of a space. -/
def spaceBytes (s : State) (sp : Space) (x : Thread) (off n : Nat) : Bytes :=
  match sp with
  | .window => slice x.win off n
  | .constant => tabRange 0 s.tine.const_ (x.view.constBase + off) n
  | .priv => privBytes x off n

/-- Source and destination of a BMOV (Table 13-5). -/
def bmovSpaces (fn : Nat) : Space × Space :=
  match fn with
  | 0 => (.constant, .window)
  | 1 => (.priv, .window)
  | 2 => (.window, .priv)
  | 3 => (.constant, .priv)
  | 4 => (.priv, .priv)
  | _ => (.window, .window)

/-- BMOV. -/
def execBmov (th : ThreadId) (f : TFields) (s : State) : Out :=
  .next (issue 0x34 th f (fun x s =>
    let sp := bmovSpaces f.fn.toNat
    let src := plusVB f x (bits f.imm.toNat 31 16)
    let dst := plusVA f x (bits f.imm.toNat 15 0)
    if !inSpace sp.1 x src (nBytes f) then .fault (spaceFault sp.1) (some src)
    else if !inSpace sp.2 x dst (nBytes f) then .fault (spaceFault sp.2) (some dst)
    else
      let b := spaceBytes s sp.1 x src (nBytes f)
      match sp.2 with
      | .window => tDone { x with win := patch x.win dst b, modified := true } s
      | _ => tDone (putPriv dst b x) s) s)

/-- HASH. -/
def execHash (th : ThreadId) (f : TFields) (s : State) : Out :=
  .next (issue 0x35 th f (fun x s =>
    let sp : Space := if f.fn = 0 then .priv else .window
    let off := plusVA f x (bits f.imm.toNat 15 0)
    if !inSpace sp x off (nBytes f) then .fault (spaceFault sp) (some off)
    else
      let poly := if f.imm.toNat.testBit 16 then 0x1EDC6F41 else 0x04C11DB7
      tDone (setV f.vd.toNat (BitVec.ofNat 32
        (crcBits 32 poly (vReg x f.vb).toNat (bitsOf (spaceBytes s sp x off (nBytes f))))) x) s) s)

/-- A scratch access: within one 8-byte word and within the program's range. -/
def scratchOk (x : Thread) (off n : Nat) : Bool :=
  decide (off % 8 + n ≤ 8) && decide (off + n ≤ x.view.scrLen)
/-- Key of a program-region offset. -/
def sramAt (x : Thread) (off : Nat) : Nat := x.view.sramCh * 2 ^ 24 + x.view.sramBase + off

/-- LD. -/
def execLd (th : ThreadId) (f : TFields) (s : State) : Out :=
  .next (issue 0x40 th f (fun x s =>
    let off := plusVA f x (bits f.imm.toNat 16 0)
    let n := nBytes f
    let give (b : Bytes) := tDone (setV f.vd.toNat (BitVec.ofNat 32 (beNat b)) x) s
    if f.fn = 0 then
      if inSpace .priv x off n then give (privBytes x off n) else .fault 0x0B (some off)
    else if f.fn = 1 then
      if inSpace .constant x off n then give (spaceBytes s .constant x off n)
      else .fault 0x03 (some off)
    else if f.fn = 2 then
      if scratchOk x off n then
        give (tabRange 0 s.tine.scratch (scratchAt th.harrow.val x off) n)
      else .fault 0x04 (some off)
    else if off + n ≤ 96 then give (slice (metaBytes x) off n)
    else .fault 0x0A (some off)) s)
/-- ST. -/
def execSt (th : ThreadId) (f : TFields) (s : State) : Out :=
  .next (issue 0x41 th f (fun x s =>
    let off := plusVA f x (bits f.imm.toNat 16 0)
    let n := nBytes f
    let b := natBytes n (vReg x f.vd).toNat
    if f.fn = 0 then
      if inSpace .priv x off n then tDone (putPriv off b x) s else .fault 0x0B (some off)
    else if f.fn = 2 then
      if scratchOk x off n then
        tDone x (modTine (fun t => { t with
          scratch := tabPut 0 t.scratch (scratchAt th.harrow.val x off) b }) s)
      else .fault 0x04 (some off)
    else .fault 0x0A (some off)) s)

/-- The new word of an atomic operation (Table 13-6). -/
def atomicWord (fn : Nat) (w : BitVec 64) (vb vd : BitVec 32) : BitVec 64 :=
  let z : BitVec 64 := vb.setWidth 64
  match fn with
  | 0 => w + vb.signExtend 64
  | 1 => if w.toNat ≤ z.toNat then z else w
  | 2 => if w.toNat ≤ z.toNat then w else z
  | 3 => z
  | 4 => if w.setWidth 32 = vd then BitVec.ofNat 64 (w.toNat / 2 ^ 32 * 2 ^ 32 + vb.toNat) else w
  | _ => w ||| z

/-- ATOM (R368). -/
def execAtom (th : ThreadId) (f : TFields) (s : State) : Out :=
  .next (issue 0x42 th f (fun x s =>
    let off := plusVA f x (bits f.imm.toNat 16 3 * 8) / 8 * 8
    if !scratchOk x off 8 then .fault 0x04 (some off)
    else
      let a := scratchAt th.harrow.val x off
      let w := BitVec.ofNat 64 (beNat (tabRange 0 s.tine.scratch a 8))
      let w' := atomicWord f.fn.toNat w (vReg x f.vb) (vReg x f.vd)
      tDone (setV f.vd.toNat (w.setWidth 32) x)
        (modTine (fun t => { t with scratch := tabPut 0 t.scratch a (natBytes 8 w'.toNat) }) s)) s)

/-! The program region (R335, R368). An access is carried out when its service answers
(SERVICE_RESULT), accesses to one word in the order of their issue; one that meets an uncorrectable
word has no effect (R357). -/

/-- The order of issue of program-region accesses goes on. -/
def nextAccess (s : State) : State := modTine (fun t => { t with sramSeq := t.sramSeq + 1 }) s

/-- The program-region offset and the private offset of SRD and SWR, or the fault. -/
def regionArgs (f : TFields) (x : Thread) : Except (Nat × Nat) (Nat × Nat) :=
  let r := plusVA f x (bits f.imm.toNat 23 0)
  let p := bits f.imm.toNat 31 24 * 8
  let n := nBytes f * 8
  if r % 8 ≠ 0 ∨ x.view.sramLen < r + n then .error (0x05, r)
  else if 1024 < p + n then .error (0x0B, p)
  else .ok (r, p)

/-- SRD. -/
def execSrd (th : ThreadId) (f : TFields) (s : State) : Out :=
  .next (issue 0x43 th f (fun x s =>
    match regionArgs f x with
    | .error e => .fault e.1 (some e.2)
    | .ok (r, p) =>
      .wait { x with wait := some (.load p (sramAt x r) (nBytes f * 8) s.tine.sramSeq) }
        (nextAccess s)) s)
/-- SWR. -/
def execSwr (th : ThreadId) (f : TFields) (s : State) : Out :=
  .next (issue 0x44 th f (fun x s =>
    match regionArgs f x with
    | .error e => .fault e.1 (some e.2)
    | .ok (r, p) =>
      .wait { x with wait := some (.store (sramAt x r) (privBytes x p (nBytes f * 8))
        s.tine.sramSeq) } (nextAccess s)) s)
/-- SATOM. -/
def execSatom (th : ThreadId) (f : TFields) (s : State) : Out :=
  .next (issue 0x45 th f (fun x s =>
    let r := plusVA f x (bits f.imm.toNat 23 0) / 8 * 8
    if x.view.sramLen < r + 8 then .fault 0x05 (some r)
    else
      .wait { x with wait := some (.atom f.vd.toNat (sramAt x r) s.tine.sramSeq) }
        (nextAccess s)) s)

/-! Lookups, metering, counting, queues, times (R369-R372). -/

/-- ALLOW bit `b` of the pass. -/
def allowed (x : Thread) (b : Nat) : Bool := x.view.allow.testBit b
/-- GEN of the packet. -/
def genOfThread (x : Thread) : BitVec 8 := (x.walked.map (fun w => w.pkt.gen)).getD 0
/-- What a lookup leaves: VD and the result record in the private area. -/
def lookupDone (s : State) (vd koff : Nat) (hit : Bool) (r : Nat) (x : Thread) : Thread :=
  putPriv (koff + 40) (natBytes 16 (resOf s r))
    (setV vd (BitVec.ofNat 32 (bit hit * 2 ^ 31 + r % 32768)) x)

/-- TLOOK. -/
def execTlook (th : ThreadId) (f : TFields) (s : State) : Out :=
  .next (issue 0x50 th f (fun x s =>
    let k := bits f.imm.toNat 9 0
    if !allowed x 2 then .fault 0x07 none
    else if 1024 < k + 56 then .fault 0x0B (some k)
    else
      let r := ternLookup (genOfThread x) (privBytes x k 40) s
      tDone (lookupDone r.2 f.vd.toNat k r.1.1 r.1.2 x) r.2) s)
/-- ELOOK. The lookup is made when its result is returned. -/
def execElook (th : ThreadId) (f : TFields) (s : State) : Out :=
  .next (issue 0x51 th f (fun x s =>
    let k := bits f.imm.toNat 9 0
    if !allowed x 2 then .fault 0x07 none
    else if 1024 < k + 56 then .fault 0x0B (some k)
    else .wait { x with wait := some (.elook f.vd.toNat k f.fn.toNat) } s) s)
/-- The length METER and COUNT use. -/
def chargedLen (f : TFields) (x : Thread) : Nat :=
  if f.rb then (vReg x f.vb).toNat else (threadBytes x).length
/-- METER (R370). -/
def execMeter (th : ThreadId) (f : TFields) (s : State) : Out :=
  .next (issue 0x52 th f (fun x s =>
    match x.walked with
    | none => tDone x s
    | some w =>
      if !allowed x 1 then .fault 0x07 none
      else
        let m := plusVA f x (bits f.imm.toNat 15 0) % 65536
        let r := meterPacket m w.pkt (threadBytes x) x.colour (chargedLen f x) s
        tDone (setV f.vd.toNat (BitVec.ofNat 32 r.1) { x with colour := r.1 }) r.2) s)
/-- COUNT (R370). -/
def execCount (th : ThreadId) (f : TFields) (s : State) : Out :=
  .next (issue 0x53 th f (fun x s =>
    if !allowed x 1 then .fault 0x07 none
    else tDone x (countResult (plusVA f x (bits f.imm.toNat 15 0) % 32768) (chargedLen f x) s)) s)
/-- SET_QUEUE (R371). -/
def execSetQueue (th : ThreadId) (f : TFields) (s : State) : Out :=
  .next (issue 0x54 th f (fun x s =>
    if f.fn = 2 then tDone { x with qValid := false } s
    else tDone { x with qValid := true, dir := f.fn == 1,
                        queue := plusVA f x (bits f.imm.toNat 15 0) % 1024 } s) s)
/-- TSREAD. -/
def execTsread (th : ThreadId) (f : TFields) (s : State) : Out :=
  .next (issue 0x58 th f (fun x s =>
    if !allowed x 0 then .fault 0x07 none
    else
      let d := f.vd.toNat
      let t := (now s).toNat
      tDone (setV (d + 2) (BitVec.ofNat 32 t) (setV (d + 1) (BitVec.ofNat 32 (t / 2 ^ 32))
        (setV d (BitVec.ofNat 32 s.clk.era.toNat) x))) s) s)
/-- A counter of a tine as a program reads it: zero without its user-read enable (R372). -/
def userPmc (s : State) (h t fn : Nat) : Nat :=
  let idx := if fn = 0 then 6 else fn - 1
  if !settingB s sUread (scTine h t) idx then 0
  else if fn = 0 then (cycOf s h t).toNat else (pmcVal s h t (fn - 1)).toNat
/-- PMCREAD. -/
def execPmcread (th : ThreadId) (f : TFields) (s : State) : Out :=
  .next (issue 0x59 th f (fun x s =>
    let v := userPmc s th.harrow.val th.tine.val f.fn.toNat
    tDone (setV (f.vd.toNat + 1) (BitVec.ofNat 32 v)
      (setV f.vd.toNat (BitVec.ofNat 32 (v / 2 ^ 32)) x)) s) s)

/-! Cipher calls (R373). -/

/-- A cipher descriptor (Table 13-7). -/
structure CipherDesc where
  aadOff : Nat
  aadLen : Nat
  txtOff : Nat
  txtLen : Nat
  tagOff : Nat
  tagLen : Nat
  drawn : Bool
  /-- A reserved bit is set. -/
  rsvd : Bool
  nonce : Bytes

/-- Read a descriptor. -/
def cipherDesc (d : Bytes) : CipherDesc :=
  { aadOff := field d 0 2, aadLen := field d 2 2, txtOff := field d 4 2, txtLen := field d 6 2,
    tagOff := field d 8 2, tagLen := field d 10 1 % 32, drawn := field d 11 1 % 2 == 1,
    rsvd := field d 10 1 / 32 != 0 || field d 11 1 / 2 != 0 || field d 12 4 != 0 ||
      field d 28 4 != 0,
    nonce := slice d 16 12 }

/-- Status of a call before it runs, 0 where it can run (Table 13-9): BAD_DESC, RANGE, NO_KEY in
this order. -/
def cipherStatus (fn len : Nat) (d : CipherDesc) (key : Bool) : Nat :=
  let txt := decide (fn ≤ 1)
  if d.rsvd || decide (d.tagLen < 4) || decide (16 < d.tagLen) || (d.drawn && decide (4 ≤ fn)) then 5
  else if decide (len < d.aadOff + d.aadLen) || decide (len < d.tagOff + d.tagLen) ||
      (txt && decide (len < d.txtOff + d.txtLen)) ||
      (txt && decide (d.tagOff < d.txtOff + d.txtLen) && decide (d.txtOff < d.tagOff + d.tagLen) &&
        d.txtLen != 0) ||
      (!txt && d.txtLen != 0) then 4
  else if !key then 2 else 0

/-- The operation of a call that can run. -/
def cipherOp (th : ThreadId) (fn slot : Nat) (b : Bytes) (d : CipherDesc) (nonce : Bytes) : CryOp :=
  let aad := slice b d.aadOff d.aadLen
  { id := 0, client := 2, slot := slot, use := 5, target := 0, keyIdx := 0
    mode := if 4 ≤ fn then .mac else if fn % 2 = 0 then .seal else .open_
    nonce := nonce
    aad := if 4 ≤ fn then [] else aad
    text := if 4 ≤ fn then aad else if fn ≤ 1 then slice b d.txtOff d.txtLen else []
    tag := slice b d.tagOff d.tagLen
    dst := .tine th.harrow.val th.tine.val th.thread.val }

/-- CIPHER. A nonce under NONCE_SRC 1 is drawn whenever the slot can serve the operation, and
written back whatever the status. -/
def execCipher (th : ThreadId) (f : TFields) (s : State) : Out :=
  .next (issue 0x60 th f (fun x s =>
    let fn := f.fn.toNat
    let slot := plusVA f x (bits f.imm.toNat 6 0) % 128
    let doff := bits f.imm.toNat 25 16
    if !x.view.keyMask.testBit slot then .fault 0x07 (some slot)
    else if 1024 < doff + 32 then .fault 0x0B (some doff)
    else
      let d := cipherDesc (privBytes x doff 32)
      let b := threadBytes x
      let k := slotOf s slot
      let key := k.loaded && k.use == 5 && k.cmacAlg == decide (4 ≤ fn)
      let draw := key && d.drawn && decide (fn < 4)
      let (nonce, s1) := if draw then drawNonce slot s else (some d.nonce, s)
      let x1 := match draw, nonce with
        | true, some v => putPriv (doff + 16) v x
        | _, _ => x
      let st := cipherStatus fn b.length d (key && nonce.isSome)
      let w (status : Option Nat) : Thread :=
        { x1 with wait := some (.cipher f.vd.toNat fn d.txtOff d.tagOff d.tagLen status) }
      if st ≠ 0 then .wait (w (some st)) s1
      else .wait (w none) (issueOp (cipherOp th fn slot b d (nonce.getD [])) s1).2) s)

/-! The ends of a pass (R374). -/

/-- EMIT. -/
def execEmit (th : ThreadId) (f : TFields) (s : State) : Out :=
  .next (issue 0xF0 th f (fun x s =>
    if !x.qValid || (x.dir && !allowed x 3) then .fault 0x08 (some x.queue)
    else .stop 0x0F (emitPass x (f.fn == 1) (bump cEmits (scProgram x.view.prog) 1 s))) s)
/-- DROP. -/
def execDrop (th : ThreadId) (f : TFields) (s : State) : Out :=
  .next (issue 0xF1 th f (fun x s =>
    let s1 := bump cDrops (scProgram x.view.prog) 1 s
    .stop 0x10 (match x.walked with
      | some w => discardPkt w.pkt s1
      | none => s1)) s)
/-- RECIRCULATE. -/
def execRecirculate (th : ThreadId) (f : TFields) (s : State) : Out :=
  .next (issue 0xF2 th f (fun x s =>
    if !allowed x 4 then .fault 0x07 none
    else
      let node := if f.fn.getLsbD 0 then none else some (bits f.imm.toNat 5 0)
      .stop 0x11 (recirculatePass x (f.fn.getLsbD 1) node
        (bump cRecircs (scProgram x.view.prog) 1 s))) s)
/-- TRAP. -/
def execTrap (th : ThreadId) (f : TFields) (s : State) : Out :=
  .next (issue 0xF3 th f (fun x s =>
    if !allowed x 5 then .fault 0x07 none
    else .stop 0x12 (trapPass x (BitVec.ofNat 8 f.imm.toNat)
      (bump cTraps (scProgram x.view.prog) 1 s))) s)

/-! Results of services (R344). -/

/-- The program-region access a thread waits for: place in the order of issue, address, length. -/
def accessOf (x : Thread) : Option (Nat × Nat × Nat) :=
  match x.wait with
  | some (.load _ a n q) => some (q, a, n)
  | some (.store a b q) => some (q, a, b.length)
  | some (.atom _ a q) => some (q, a, 8)
  | _ => none

/-- An access that was issued earlier to one of the same words has not been carried out (R335). -/
def accessWaits (s : State) (x : Thread) : Bool :=
  match accessOf x with
  | none => false
  | some (q, a, n) => s.tine.threads.any (fun (p : Nat × Thread) =>
      match accessOf p.2 with
      | none => false
      | some (r, b, m) => decide (r < q) && decide (a < b + m) && decide (b < a + n))

/-- A service answers the thread that waits for it. `ecc`: the access met uncorrectable words, for an
exact-match lookup in the slots of these channels; `eccCorr` words were corrected (R317). A cipher
call answers once the engine has completed it. -/
def execServiceResult (th : ThreadId) (ecc : List (Bool × Bool)) (s0 : State) (eccCorr : Nat := 0) : Out :=
  let h := th.harrow.val
  let t := th.tine.val
  let n := th.thread.val
  let x := threadOf s0 h t n
  let prog := x.view.prog
  let s := bump cEmEccCorr scDevice eccCorr s0
  let record (faulted : Bool) (s : State) : State :=
    match x.tagged with
    | some g => sampRecord h t n prog g false faulted false true
        (some ((now s - g.tl).toNat / 50)) s
    | none => s
  let done (x' : Thread) (s : State) : State :=
    record false (putThread h t n { x' with pc := x.pc + 1, wait := none, tagged := none } s)
  let eccFault (addr : Option Nat) (s : State) : State :=
    record true (freeThread h t n (faultPass h t n x 0x06 addr (pmcInstant h t n 0x13 s)))
  if accessWaits s0 x then .next s0 else
  match x.wait with
  | none => .next s0
  | some (.load dst a len _) =>
    if ecc.isEmpty then .next (done (putPriv dst (tabRange 0 s.tine.sram a len) x) s)
    else .next (eccFault (some (a - x.view.sramCh * 2 ^ 24 - x.view.sramBase)) s)
  | some (.store a b _) =>
    .next (done x (modTine (fun t => { t with sram := tabPut 0 t.sram a b }) s0))
  | some (.atom vd a _) =>
    if ecc.isEmpty then
      let f := insnFields x.word
      let w := BitVec.ofNat 64 (beNat (tabRange 0 s.tine.sram a 8))
      let w' := atomicWord f.fn.toNat w (vReg x f.vb) (vReg x f.vd)
      .next (done (setV vd (w.setWidth 32) x)
        (modTine (fun t => { t with sram := tabPut 0 t.sram a (natBytes 8 w'.toNat) }) s))
    else .next (eccFault (some (a - x.view.sramCh * 2 ^ 24 - x.view.sramBase)) s)
  | some (.elook vd k profile) =>
    let key := privBytes x k 40
    let g := genOfThread x
    let em := emKeyOf s profile key
    let r := emLookupOp g profile em (threadBytes x).length ecc s
    let res := match r.1 with
      | some v => v
      | none => (genOf s g).deflt
    .next (done (lookupDone r.2 vd k r.1.isSome res x) r.2)
  | some (.cipher vd _ _ _ _ (some st)) => .next (done (setV vd (BitVec.ofNat 32 st) x) s0)
  | some (.cipher _ _ _ _ _ none) => .next s0

end Sys2Proof.Machine
end

