-- ==== Sys2Proof/Machine/CmdTine.lean ====
section
/-! DEFINITION. The TINE_ and PMC_ commands: loading programs, permissions, the fault log,
performance counters and sampling (spec/12 R336, R349-R353; spec/14; spec/21). -/
namespace Sys2Proof.Machine

/-! Programs. -/

/-- TINE_LOAD_PROGRAM (R349, R351). Programs 0 to 63 are refused. -/
def tineLoadProgramBody : CmdBody := fun c s =>
  let p := c.payload
  let drop (s : State) : State := modTine (fun t => { t with load := none }) s
  if p.length < 8 then badLength s
  else match chunkStep s.tine.load p with
  | .bad => badArg 0 0 (drop s)
  | .more b => stPending (modTine (fun t => { t with load := some b }) s)
  | .whole b =>
    match programOffence b s with
    | some (st, code, i) => refuse st code i (drop s)
    | none =>
      if field b 6 2 % 4096 < 64 then stDenied (drop s)
      else stOk [] (installProgram b (drop s))

/-- TINE_LOAD_PROGRAM. -/
def execTineLoadProgram (c : Cmd) (s : State) : Out :=
  .next (runCmd 0x0A01 tineLoadProgramBody c s)

/-! Permissions and faults. -/

/-- Settings that are ranges in multiples of 64 bytes (Table 12-2). -/
def blockRanges : List SSpec := [sScrBase, sScrLen, sSramBase, sSramLen]

/-- Rows 6 to 11 of Table 12-2. -/
def permSettings : List SSpec :=
  [sScrBase, sScrLen, sSramCh, sSramBase, sSramLen, sKeyMask, sAllow, sAffinity, sFaultAction]

/-- TINE_SET_PERMS (R336, Table 12-10). -/
def tineSetPermsBody : CmdBody :=
  settingsCmd [0x0F] (fun _ => permSettings) fun sc gs _ s =>
  let odd := gs.findIdx (fun g => blockRanges.contains g.1 && decide (g.2.2 % 64 ≠ 0))
  if odd < gs.length then badArg 2 odd s
  else if 131072 < given s gs sScrBase sc + given s gs sScrLen sc then
    badArg 4 (firstOf gs [sScrBase, sScrLen]) s
  else if 16777216 < given s gs sSramBase sc + given s gs sSramLen sc then
    badArg 4 (firstOf gs [sSramBase, sSramLen]) s
  else stOk [] (modProg (scopeIndex sc) (fun p => { p with disabled := false }) (putGiven sc gs s))

/-- TINE_SET_PERMS. -/
def execTineSetPerms (c : Cmd) (s : State) : Out := .next (runCmd 0x0A02 tineSetPermsBody c s)

/-- A count and records, after the request (TINE_GET_FAULTS, PMC_SAMPLE_READ). -/
def recordBlock (p : Bytes) (rs : List Bytes) : Bytes :=
  let out := rs.take (byteAt p 8).toNat
  natBytes 1 out.length ++ [0, 0, 0] ++ out.flatten

/-- The records that a TINE_GET_FAULTS returns have been read (R352). -/
def faultsSeen (p : Bytes) (s : State) : State :=
  modTine (fun t => { t with
    faultRead := max t.faultRead (min (byteAt p 8).toNat t.faultLog.length) }) s

/-- TINE_GET_FAULTS: the records returned leave the log under RC (R353, R558). -/
def tineGetFaultsBody : CmdBody := fun c s =>
  if 24 < (byteAt c.payload 8).toNat ∧ c.payload.length = 12 then badArg 0 0 s
  else
    let r := readCmd [] [(12, 9)] 4 (fun _ p s => recordBlock p s.tine.faultLog)
      (fun _ p s => modTine (fun t => { t with
        faultLog := t.faultLog.drop (byteAt p 8).toNat,
        faultRead := t.faultRead - (byteAt p 8).toNat }) s) c s
    if isError r.1 || rcBit c.payload then r else (r.1, faultsSeen c.payload r.2)

/-- TINE_GET_FAULTS. -/
def execTineGetFaults (c : Cmd) (s : State) : Out := .next (runCmd 0x0A03 tineGetFaultsBody c s)

/-! Performance counters. -/

/-- Settings that PMC_CONFIGURE keeps per tine. -/
def pmcKept : List SSpec :=
  [sPmcEvent, sPmcMode, sPmcThreadMask, sPmcProgEn, sPmcProg, sUread, sOvfAction]

/-- CLEAR: CYC, the PMCs and their flags read zero (R377). -/
def pmcClear (h t : Nat) (s : State) : State :=
  let base := (tabGet none s.tine.gatedAt h).getD s.tine.cycles
  modPmc h t (fun x => { x with cycOff := 0 - base, count := [], ovf := 0 }) s

/-- PMC_CONFIGURE (R377, R381). -/
def pmcConfigureBody : CmdBody :=
  settingsCmd [0x0D] (fun _ => sPmcTineMask :: settings1402) fun sc gs _ s =>
  let h := scopeIndex sc
  let mask := (given s gs sPmcTineMask sc).toNat
  let clear := gs.any (fun g => g.1 == sPmcClear && g.2.2 == 1)
  let kept := gs.filter (fun g => pmcKept.contains g.1)
  let one (t : Nat) (s : State) : State :=
    let s1 := putGiven (scTine h t) kept (modPmc h t (fun x => { x with frozen := false }) s)
    if clear then pmcClear h t s1 else s1
  stOk [] (each one ((List.range 16).filter (fun t => mask.testBit t))
    (putGiven sc (gs.filter (fun g => g.1 == sPmcTineMask)) s))

/-- PMC_CONFIGURE. -/
def execPmcConfigure (c : Cmd) (s : State) : Out := .next (runCmd 0x0B01 pmcConfigureBody c s)

/-- The tine a request describes. -/
def tineOfScope (sc : Nat) : Nat × Nat :=
  if scopeKind sc = 0x0E then (scopeIndex sc, scopeSub sc) else (0, 0)

/-- Status block of PMC_READ (R382). -/
def pmcBlock (sc : Nat) (_ : Bytes) (s : State) : Bytes :=
  let (h, t) := tineOfScope sc
  natBytes 8 (cycOf s h t).toNat ++
    ((List.range 6).flatMap (fun i => natBytes 8 (pmcVal s h t i).toNat)) ++
    natBytes 1 (pmcOf s h t).ovf.toNat ++ [0, 0, 0]

/-- PMC_READ (R382): RC subtracts the values returned. -/
def pmcReadBody : CmdBody :=
  readCmd [0x0E] [] 0 pmcBlock (fun sc _ s => pmcClear (tineOfScope sc).1 (tineOfScope sc).2 s)

/-- PMC_READ. -/
def execPmcRead (c : Cmd) (s : State) : Out := .next (runCmd 0x0B02 pmcReadBody c s)

/-! Sampling. -/

/-- PMC_SAMPLE_START (R384, R385). -/
def pmcSampleStartBody : CmdBody :=
  settingsCmd [0x0D] (fun _ => settings1404) fun sc gs _ s =>
  let h := scopeIndex sc
  let s1 := putGiven sc gs s
  let mask := settingN s1 sTineMask sc
  let s2 := modSamp h (fun x => { x with mask := BitVec.ofNat 16 mask, armed := 0 }) s1
  if mask = 0 then stOk [] s2
  else stOk [] (sampFullLook h (each (drawCountdown h)
    ((List.range 16).filter (fun t => mask.testBit t)) (rngDraw s2).2))

/-- PMC_SAMPLE_START. -/
def execPmcSampleStart (c : Cmd) (s : State) : Out :=
  .next (runCmd 0x0B03 pmcSampleStartBody c s)

/-- The harrow a request describes. -/
def harrowOfScope (sc : Nat) : Nat := if scopeKind sc = 0x0D then scopeIndex sc else 0

/-- PMC_SAMPLE_READ (R388, R389): the records returned leave the buffer under RC (R558). -/
def pmcSampleReadBody : CmdBody := fun c s =>
  if 31 < (byteAt c.payload 8).toNat ∧ c.payload.length = 12 then badArg 0 0 s
  else readCmd [0x0D] [(14, 6)] 4 (fun sc p s => recordBlock p (sampOf s (harrowOfScope sc)).buffer)
    (fun sc p s => modSamp (harrowOfScope sc) (fun x =>
      let rest := x.buffer.drop (byteAt p 8).toNat
      { x with buffer := rest, halfArmed := x.halfArmed || decide (rest.length < 128) }) s) c s

/-- PMC_SAMPLE_READ. -/
def execPmcSampleRead (c : Cmd) (s : State) : Out :=
  .next (runCmd 0x0B04 pmcSampleReadBody c s)

end Sys2Proof.Machine
end

