-- ==== Sys2Proof/Machine/BodyOf.lean ====
section
/-! DEFINITION. The mirrored commands by opcode (spec/19 Table 19-6): what a standby checks, and
what a swath boundary puts in force (spec/20 R541). -/
namespace Sys2Proof.Machine

/-- The chapter's own part of a mirrored command; the optics modules read as `o0`, `o1`. -/
def bodyOf (o0 o1 : Optics) (op : Nat) : Option CmdBody :=
  match op with
  | 0x0301 => some (lineConfigureLanesBody o0 o1)
  | 0x0303 => some lineSetGroupBody
  | 0x0401 => some actStartBody
  | 0x0402 => some actStopBody
  | 0x0404 => some actSetParentingBody
  | 0x0501 => some supSetActionsBody
  | 0x0504 => some supSetThresholdsBody
  | 0x0601 => some timeSetDomainsBody
  | 0x0602 => some timeSelectBody
  | 0x0701 => some portConfigureBody
  | 0x0702 => some portSetFiltersBody
  | 0x0703 => some portSetSheafBody
  | 0x0801 => some ptpConfigurePortBody
  | 0x0901 => some clsLoadGraphBody
  | 0x0902 => some clsSetPatternsBody
  | 0x0903 => some clsStageRulesBody
  | 0x0904 => some clsCommitBody
  | 0x0A01 => some tineLoadProgramBody
  | 0x0A02 => some tineSetPermsBody
  | 0x0C01 => some qosSetQueueBody
  | 0x0C02 => some qosSetSchedBody
  | 0x0C03 => some qosSetShaperPortBody
  | 0x0C04 => some qosSetMeterBody
  | 0x0D01 => some cryBindSlotBody
  | _ => none

/-- A module that is not read. -/
def noOptics : Optics := { tunable := false, grids := [], freq := 0 }

end Sys2Proof.Machine
end

