-- ==== Sys2Proof/Machine/PwrBanks.lean ====
section
/-! DEFINITION. Retention banks that fail their signature (spec/18 R483, Table 18-12). -/
namespace Sys2Proof.Machine

/-- Domain of a bank (Table 18-12), as Table 21-6 numbers it. -/
def bankDomain (k : Nat) : Nat :=
  if k = 0 then 49
  else if k ≤ 2 then 48
  else if k ≤ 0x0A then k - 3
  else if k ≤ 0x0C then 44
  else if k ≤ 0x0F then k + 32
  else if k ≤ 0x1B then k - 8
  else if 0x20 ≤ k ∧ k ≤ 0x37 then k - 12
  else 63

/-- The banks of domains. -/
def banksOf (d : BitVec 64) : List Nat := (List.range 56).filter (fun k => d.getLsbD (bankDomain k))

/-- Table, row and scope of a settings key. -/
def keyParts (k : Nat) : Nat × Nat × Nat :=
  (k / 2 ^ 26 / 256 / 16 / 4096, k / 2 ^ 26 / 256 / 16 % 4096, k % 2 ^ 26)

/-- The settings for which `p` holds of table, row and scope return to their defaults. -/
def dropSettings (p : Nat → Nat → Nat → Bool) (s : State) : State :=
  { s with settings := s.settings.filter (fun e =>
      let k := keyParts e.1
      !p k.1 k.2.1 k.2.2) }

/-- The counters of a chapter and scope become zero. -/
def dropCounters (p : Nat → Nat → Bool) (s : State) : State :=
  { s with counters := s.counters.filter (fun e =>
      !p (e.1 / 2 ^ 26 / 256 / 32) (e.1 % 2 ^ 26)) }

/-- Rows of Table 21-7's own items that belong to the line section: MEDIA_LANE to US_MODE,
MGMT_MASK, PARENTING, WORKING, SRC. -/
def lineRows : List Nat := [0xF01, 0xF02, 0xF03, 0xF04, 0xF05, 0xF06, 0xF07, 0xF08]

/-- AON_LINE: line, activation, time and supervision state. Lanes are OFF, instances in LISTEN or
SILENCED, domains DISABLED. -/
def clearAonLine (s : State) : State :=
  let held := (s.reasm.map (fun (p : Nat × Reasm) => p.2.bushels)).sum
  let s1 := freeBushels held (dropSettings (fun t r _ =>
    [201, 506, 602, 603, 702, 709, 906].contains t || (t == 2107 && (lineRows.contains r ||
      decide (0xF10 ≤ r)))) s)
  let light := s.lanes.map (fun (p : Nat × Lane) => (p.1, p.2.signal))
  let s2 := each (fun (p : Nat × Bool) s => modLane p.1 (fun x => { x with signal := p.2 }) s) light
    { s1 with
      lanes := [], groups := [], lots := [], reasm := [], toTime := []
      us := {}
      act := { inst := tabSet {} (tabSet {} [] 0 (instCleared (instOf s 0))) 1
                 (instCleared (instOf s 1)) }
      sup := { s1.sup with lane := [], plm := [], dom := [], inst := [] }
      time := {} }
  let s3 := each (fun d s => domDisable d (putSetting sDomEnable (scDom d) 0 0 s)) [0, 1] s2
  roleOutLook (supLook (refLook s3))

/-- REEVE_CTX and REEVE_RAM: command state, 15-minute history, fault log. Commands open at E1 get
no response. -/
def clearReeve (s : State) : State :=
  let s1 := modReeve (fun v => { v with
    taken := [], responses := [], deferred := [], sealing := [], mgmt0 := [], mgmt1 := [] }) s
  let s2 := modWin (fun w => { w with rung := false }) s1
  busyLook { s2 with
    pwr := { s2.pwr with tag := none, stTags := [], runTags := [] }
    tine := { s2.tine with faultLog := [], faultRead := 0 }
    sup := { s2.sup with closed15 := [], open15 := { start := binStartNow s2 } } }

/-- LRXn or LTXn: lane settings; the lane is OFF. -/
def clearLane (rx : Bool) (l : Nat) (s : State) : State :=
  let sc := if rx then scLrx l else scLtx l
  let s1 := dropSettings (fun t r k => k == sc && (t == 201 || (t == 2107 && r == 0xF01))) s
  if rx then supLook (lockLook (modLane l (fun x => { x with group := none }) (disableLane l s1)))
  else gateLook (roleOutLook (modUsLane l (fun x => { x with enabled := false }) s1))

/-- SL_A or SL_B: port, filter, sheaf and precision-time settings, and statistics; the ports are
DISABLED. -/
def clearQuad (q : Nat) (s : State) : State :=
  let ps := [q * 4, q * 4 + 1, q * 4 + 2, q * 4 + 3]
  let mine (k : Nat) : Bool := ps.any (fun p => k == scPort p || k == scSlane p)
  let held (p : Nat) : Nat :=
    let x := portOf s p
    ((x.rx.map (·.bushels)).getD 0) + ((x.tx.map (·.bushels)).getD 0)
  let s1 := dropCounters (fun ch k => (ch == 8 || ch == 9) && mine k)
    (dropSettings (fun t _ k => [802, 806, 901].contains t && mine k) s)
  let s2 := each (fun p s => freeBushels (held p) (modPort p (fun _ => {}) s)) ps s1
  each (fun l s => modSLane l (fun _ => {}) s) ps s2

/-- CLS: graph, patterns, ternary table, results, result counters, profiles, generations; the
exact-match banks are cleared. -/
def clearCls (s : State) : State :=
  { s with cls := { seedA := s.cls.seedA, seedB := s.cls.seedB, inNew := s.cls.inNew,
                    inOld := s.cls.inOld, nextOrder := s.cls.nextOrder } }

/-- METERS: meters OFF, map entries 0. -/
def clearMeters (s : State) : State :=
  let s1 := dropSettings (fun t r _ => t == 1508 || (t == 2107 && r == 0xF0A)) s
  { s1 with qos := { s1.qos with meters := [] } }

/-- CRYPTO: every slot zero, GEN advanced, USE NONE; the DRBG reseeded. -/
def clearCrypto (s : State) : State :=
  let s1 := each (fun k => modSlot k (fun x => { x with use := 0, target := 0, keyIdx := 0,
                                                        cmacAlg := false }))
    (List.range 128) (eraseAll s)
  keysLook { s1 with cry := { s1.cry with requests := 0, reseedAt := now s1, entropyFailed := false, stopped := false } }

/-- HARROWn: scratch and counters zero; instructions and constants are copied from a harrow that
passed. -/
def clearHarrow (h : Nat) (s : State) : State :=
  let t := s.tine
  let mineP (p : Nat × Pmc) : Bool := p.1 / 16 != h
  let cyc := (tabGet none t.gatedAt h).getD t.cycles
  let s1 := dropCounters (fun ch k => ch == 14 && k == scHarrow h) { s with tine := { t with
    scratch := t.scratch.filter (fun p => p.1 / 131072 != h), pmc := t.pmc.filter mineP } }
  each (fun i s => modPmc h i (fun x => { x with cycOff := 0 - cyc }) s) (List.range 16) s1

/-- Every harrow failed: programs 1 to 4,095 are unloaded; the boot image of this model carries no
vendor program (Table 18-15). -/
def unloadPrograms (s : State) : State :=
  modTine (fun t => { t with imem := [(0, 0xF100000000000000)], const_ := [],
                             progs := [(0, { loaded := true, codeLen := 1 })] }) s

/-- Frames of a list that have a bushel in a failed BUF bank. Which do is not told: free bits. -/
def keepFrames (n : Nat) (fs : List Frame) : List Frame :=
  ((fs.zipIdx).filter (fun p => !(decide (0 < p.1.bushels) &&
    decide (Config.freeNat (n + p.2) % 2 = 1)))).map (fun p => p.1)

/-- The frames of a queue that a failed bank costs are discarded and counted. -/
def loseFrames (ds : Bool) (q : Nat) (s : State) : State :=
  let k := queueOf s ds q
  let kept := keepFrames s.freeCtr k.frames
  let lost := k.frames.length - kept.length
  let gone := (k.frames.map (·.bushels)).sum - (kept.map (·.bushels)).sum
  let s1 := { s with freeCtr := s.freeCtr + k.frames.length }
  bump cRetDiscard scDevice lost (freeBushels gone (modQueue ds q (fun k => { k with
    frames := kept, bushels := k.bushels - gone }) s1))

/-- A reassembly in progress with a bushel in a failed bank is discarded. -/
def loseReasm (id : Nat) (s : State) : State :=
  if 0 < (reasmOf s id).bushels ∧ freeNat s % 2 = 1 then
    bump cRetDiscard scDevice 1 (dropReasm id (drawn s))
  else drawn s

/-- BUFn: every frame with a bushel in the bank is discarded, its bushels returned. -/
def clearBuf (s : State) : State :=
  let s1 := each (loseFrames true) (s.qos.ds.map (fun (p : Nat × Queue) => p.1)) s
  let s2 := each (loseFrames false) (s.qos.us.map (fun (p : Nat × Queue) => p.1)) s1
  each loseReasm (s.reasm.map (fun (p : Nat × Reasm) => p.1)) s2

/-- A bank fails its signature (R483): it is cleared, counted and reported. -/
def bankFail (k : Nat) (s : State) : State :=
  let s1 :=
    if k = 0 then clearAonLine s
    else if k ≤ 2 then clearReeve s
    else if k ≤ 6 then clearLane true (k - 3) s
    else if k ≤ 8 then clearLane false (k - 7) s
    else if k ≤ 0x0A then clearQuad (k - 9) s
    else if k = 0x0B then clearCls s
    else if k = 0x0C then clearMeters s
    else if k = 0x0D then clearCrypto s
    else if k = 0x0E then s
    else if k = 0x0F then
      modPair (fun p => { p with tetherUp := false })
        (dropSettings (fun t _ _ => t == 1901) s)
    else if k ≤ 0x1B then clearHarrow (k - 0x10) s
    else clearBuf s
  let s2 := { s1 with life := { s1.life with
    live := { s1.life.live with retFails := s1.life.live.retFails + 1 } } }
  raise 0x0204 0 k (bump cBankFail scDevice 1 s2)

/-- The failing banks among those of the domains `d`, cleared in order of ID. -/
def failBanks (failed d : BitVec 64) (s : State) : State :=
  let ks := (banksOf d).filter (fun k => failed.getLsbD k)
  let s1 := each bankFail ks s
  if (List.range 12).all (fun h => ks.contains (0x10 + h)) then unloadPrograms s1 else s1

end Sys2Proof.Machine
end

