-- ==== Sys2Proof/Machine/Snap.lean ====
section
/-! DEFINITION. What a snapshot carries and its application (spec/19 R513, R518). The layouts of
the snapshot's records and of the digest's input are not stated by the spec: both are free
functions. -/
namespace Sys2Proof.Machine

/-- What STATE_DIGEST covers (R513). -/
structure DigestIn where
  /-- Per instance: state and TERMINAL_ID. -/
  insts : List (ActState × BitVec 16)
  eqds : List Nat
  plots : Tab Nat
  lots : Tab LotEntry
  gens : List (BitVec 8)
  mirrorSeq : Option (BitVec 32)
  deriving DecidableEq, Repr

/-- The mirrored state that a snapshot holds (R518). -/
structure Snap where
  sc : BitVec 48
  settings : Tab (Option Int)
  /-- Group of each receive lane. -/
  groups : List (Option (BitVec 2))
  split : Bool
  act : Act
  /-- Per upstream lane: EqD, whether one was assigned, and the RTTs. -/
  eqds : List (Nat × Bool × List (BitVec 48 × Nat))
  lots : Tab LotEntry
  /-- Per port: filters, default DROP and class. -/
  filters : List (List (BitVec 128) × Bool × BitVec 8)
  genState : GenState
  newest : BitVec 8
  cur : RuleGen
  old : RuleGen
  tern : Tab TernEntry
  res : Tab (BitVec 128)
  profiles : Tab (BitVec 128)
  em : List EmEntry
  imem : Tab (BitVec 64)
  const_ : Tab (BitVec 8)
  progs : Tab Prog
  /-- Per key slot: USE, target, KEYIDX, ALG. -/
  bindings : List (Nat × Nat × Nat × Bool)
  selected : Nat
  /-- Per domain: the servo, and its time at the marker arrival of `sc`. -/
  doms : List (Dom × Option Int)
  fits : List Fit
  mirrorSeq : Option (BitVec 32)
  deriving DecidableEq, Repr

end Sys2Proof.Machine

namespace Sys2Proof

/-- STATE_DIGEST: a CRC-32 over a layout the spec does not state, so a free function. -/
opaque Config.digest : Machine.DigestIn → BitVec 32
/-- The bytes of a snapshot: a free function, the spec stating no layout. -/
opaque Config.snapEncode : Machine.Snap → Bytes
/-- What the bytes of a snapshot say: a free function; none where they cannot be read. -/
opaque Config.snapDecode : Bytes → Option Machine.Snap

end Sys2Proof

namespace Sys2Proof.Machine

/-- STATE_DIGEST (R513). -/
def stateDigest (s : State) : BitVec 32 :=
  Config.digest {
    insts := (instances s).map (fun i => ((instOf s i).st, (instOf s i).terminalId))
    eqds := [0, 1].map (fun x => (usLaneOf s x).eqd)
    plots := s.act.plots, lots := s.lots
    gens := [s.cls.newest, s.cls.newest - 1]
    mirrorSeq := s.pair.lastApplied }

/-- Settings that are not mirrored: those of local commands (Table 19-6), by table and row. -/
def localSetting (t r : Nat) : Bool :=
  [709, 906, 1402, 1404, 1803, 1901].contains t || (t == 201 && r != 1) || (t == 2107 && r == 0xF09)

/-- The mirrored settings given. -/
def mirroredSettings (s : State) : Tab (Option Int) :=
  s.settings.filter (fun e =>
    let k := keyParts e.1
    !localSetting k.1 k.2.1)

/-- The snapshot as of the current SC. -/
def takeSnap (s : State) : Snap :=
  let sc := (currentSc s).getD 0
  let at_ := (arrivalOf s (timingLane s) sc).getD (now s)
  { sc := sc
    settings := mirroredSettings s
    groups := (List.range 4).map (fun l => (laneOf s l).group)
    split := s.us.split
    act := s.act
    eqds := [0, 1].map (fun x =>
      ((usLaneOf s x).eqd, (usLaneOf s x).eqdAssigned, (usLaneOf s x).rtts))
    lots := s.lots
    filters := (List.range 8).map (fun p =>
      ((portOf s p).filters, (portOf s p).defaultDrop, (portOf s p).defaultClass))
    genState := s.cls.st, newest := s.cls.newest, cur := s.cls.cur, old := s.cls.old
    tern := s.cls.tern, res := s.cls.res, profiles := s.cls.profiles
    em := (s.cls.em.map (fun (e : Nat × EmEntry) => e.2)) ++
      (s.cls.stash.map (fun (e : Nat × EmEntry) => e.2))
    imem := s.tine.imem, const_ := s.tine.const_, progs := s.tine.progs
    bindings := (List.range 128).map (fun k =>
      ((slotOf s k).use, (slotOf s k).target, (slotOf s k).keyIdx, (slotOf s k).cmacAlg))
    selected := s.time.selected
    doms := [0, 1].map (fun d => (domOf s d, domTime s d at_))
    fits := [0, 1].map (fitOf s)
    mirrorSeq := s.pair.lastApplied }

/-- An instance takes the snapshot's state; what it has queued and sent stays its own. -/
def snapInst (own : Inst) (x : Inst) : Inst :=
  { x with txQueue := own.txQueue, txSeq := own.txSeq, mgmtOut := own.mgmtOut }

/-- A domain takes the snapshot's servo reference at the same marker arrival on this chip. -/
def snapDom (sc : BitVec 48) (d : Nat) (x : Dom × Option Int) (s : State) : State :=
  match arrivalOf s (timingLane s) sc, x.2 with
  | some a, some v => modDom d (fun _ => { x.1 with ref := v, tlRef := a }) s
  | _, _ => s

/-- A lane follows the snapshot's settings. -/
def snapLane (l : Nat) (g : Option (BitVec 2)) (s : State) : State :=
  let s1 := match g with
    | some g => if (laneOf s l).group = some g then s else assignGroup l g s
    | none => s
  if laneEnabled s1 l then enableLane l (domainOn l s1)
  else if (laneOf s1 l).st = .off then s1 else disableLane l s1

/-- The snapshot's settings, beside the chip's own settings of local commands. -/
def snapSettings (x : Snap) (s : State) : State :=
  let own := s.settings.filter (fun e =>
    let k := keyParts e.1
    localSetting k.1 k.2.1)
  { s with settings := x.settings.foldl (fun t e => tabSet none t e.1 e.2) own }

/-- The snapshot's activation state, plots and LOT_IDs. -/
def snapAct (x : Snap) (s : State) : State :=
  let gone := (s.lots.map (fun (e : Nat × LotEntry) => e.1)).filter
    (fun id => !(tabGet {} x.lots id).present)
  let s1 := each removeLot gone (setUsMode x.split s)
  let inst := [0, 1].foldl (fun t i =>
    tabSet {} t i (snapInst (instOf s1 i) (tabGet {} x.act.inst i))) []
  let act : Act := { x.act with inst := inst }
  { s1 with act := act, lots := x.lots }

/-- The snapshot's tables and programs; exact-match entries are inserted under the chip's own
seeds. -/
def snapTables (x : Snap) (s : State) : State :=
  let r := emPlaceAll (x.em.map (fun e => { e with pkts := 0, bytes := 0 }))
    { s.cls with em := [], stash := [], rehash := none }
  let cls : Cls := { r.1 with
    st := x.genState, newest := x.newest, cur := x.cur, old := x.old, tern := x.tern
    res := x.res, profiles := x.profiles, commit := none, load := none, stGraph := none
    stPats := none, stDeflt := none
    rehash := if r.2.1.isEmpty then none else some { inserts := r.2.1, tags := [] } }
  let tine : Tine := { s.tine with imem := x.imem, const_ := x.const_, progs := x.progs, load := none }
  bump cEmMoves scDevice r.2.2 { s with cls := cls, tine := tine }

/-- Queues that no longer exist or are disabled are emptied. -/
def snapEmpty (ds : Bool) (q : Nat) (s : State) : State :=
  if queueExists s ds q && queueEnabled s ds q then s else flushQueue ds q s

/-- The rejoiner replaces its mirrored state with a snapshot (R518 step 4). -/
def applySnap (o0 o1 : Optics) (x : Snap) (s : State) : State :=
  let s1 := each (fun (p : Option (BitVec 2) × Nat) s => snapLane p.2 p.1 s) x.groups.zipIdx
    (snapSettings x s)
  let s2 := each (fun l s => if settingB s sLaneEnable (scLtx l) then
      enableLtx l (if l = 0 then o0 else o1) s
    else modUsLane l (fun y => { y with enabled := false }) s) [0, 1] s1
  let s3 := each (fun (p : (Nat × Bool × List (BitVec 48 × Nat)) × Nat) =>
    modUsLane p.2 (fun y => { y with eqd := p.1.1, eqdAssigned := p.1.2.1, rtts := p.1.2.2,
                                     eqdPending := [] })) x.eqds.zipIdx (snapAct x s2)
  let s4 := each (fun (p : (List (BitVec 128) × Bool × BitVec 8) × Nat) =>
    modPort p.2 (fun y => { y with filters := p.1.1, defaultDrop := p.1.2.1,
                                   defaultClass := p.1.2.2 })) x.filters.zipIdx s3
  let s5 := each (fun (p : (Nat × Nat × Nat × Bool) × Nat) =>
    modSlot p.2 (fun y => { y with use := p.1.1, target := p.1.2.1, keyIdx := p.1.2.2.1,
                                   cmacAlg := p.1.2.2.2 })) x.bindings.zipIdx (snapTables x s4)
  let s6 := each (fun (p : (Dom × Option Int) × Nat) => snapDom x.sc p.2 p.1) x.doms.zipIdx s5
  let s7 := each (fun (p : Fit × Nat) => putFit p.2 p.1) x.fits.zipIdx s6
  let s8 := selectDomain x.selected false s7
  let s9 := each (snapEmpty false) (s8.qos.us.map (fun (e : Nat × Queue) => e.1))
    (each (snapEmpty true) (s8.qos.ds.map (fun (e : Nat × Queue) => e.1)) s8)
  let s10 := modPair (fun p => { p with
    lastApplied := x.mirrorSeq, mirrorSeq := x.mirrorSeq.getD 0 }) s9
  supLook (lockLook (startOps (keysLook (portsLook s10))))

end Sys2Proof.Machine
end

