-- ==== Sys2Proof/Machine/PairOps.lean ====
section
/-! DEFINITION. Shared operations of the redundant pair: renewal, claims, rejoining, the tether
(spec/19). -/
namespace Sys2Proof.Machine

/-! The lease and the role wires. -/

/-- Renewal conditions (Table 19-2). -/
def renewable (s : State) : Bool :=
  reeveRuns s && !s.reeve.lockstepErr && !s.reeve.wdog &&
  s.clk.pllRunning && !s.clk.onFio && s.clk.refclk && s.pwr.st == .run &&
  !s.sec.upstreamInhibit && s.pair.yielding.isNone

/-- LEASE_LEN in grains. -/
def leaseGrains (s : State) : Nat := settingN s sLeaseLen scDevice * 53125

/-- The lease timer restarts at LEASE_LEN (R496). -/
def startLease (s : State) : State :=
  modPair (fun p => { p with lease := some (now s + BitVec.ofNat 64 (leaseGrains s)) }) s

/-- The peer's firmware version as last reported; 0 when none has been. -/
def peerFw (s : State) : BitVec 32 :=
  match s.pair.health, s.pair.hello with
  | some h, _ => h.fwVersion
  | none, some h => h.fwVersion
  | none, none => 0

/-- EV_PAIR_VERSION_GAP. -/
def raiseGap (s : State) : State := raise 0x0F0B 0 (peerFw s).toNat s

/-- The version gap as a message's FW_VERSION tells it (R520). -/
def gapLook (fw : BitVec 32) (s : State) : State :=
  modPair (fun p => { p with versionGap := fw != s.win.fwVersion }) s

/-- The active stops claiming and holding anything: what every way out of the pair shares. -/
def dropClaim (s : State) : State :=
  modPair (fun p => { p with claim := false, roleOut := false, lease := none, yielding := none }) s

/-! The tether (R514-R516). -/

/-- The tether lanes run: the pair is configured and domain TETHER is powered. -/
def tetherOn (s : State) : Bool :=
  s.pair.st != .solo && s.pwr.on.getLsbD 47 && !(retained s).getLsbD 47

/-- A tether message received: one whose T_CRC fails is discarded (R515). -/
def tetherIn (crcOk : Bool) (f : State → State) (s : State) : State :=
  if !tetherOn s then s
  else if !crcOk then bump cTetherCrcErr scDevice 1 s
  else f s

/-! Rejoining (R518, R519). -/

/-- An attempt starts with SNAP_REQ; without the tether it waits for it. -/
def startAttempt (s : State) : State :=
  if s.pair.tetherUp then
    tetherSend (.snapReq 1 1) (modPair (fun p => { p with
      attempts := p.attempts + 1, snapping := true, snapshot := [] }) s)
  else modPair (fun p => { p with snapping := false, snapshot := [] }) s

/-- Rejoining is given up: ISOLATED (Table 19-3). -/
def rejoinFails (s : State) : State :=
  raise 0x0F0A 0 0 (bump cRejoinFail scDevice 1 (setPair .isolated (modPair (fun p => { p with
    snapping := false, snapshot := [], attempts := 0, digestRun := 0 }) s)))

/-- The attempt under way fails: a new one, or none after the third. -/
def failAttempt (s : State) : State :=
  if s.pair.attempts < 3 then startAttempt s else rejoinFails s

/-- REJOINING begins. -/
def startRejoin (s : State) : State :=
  startAttempt (setPair .rejoining (modPair (fun p => { p with digestRun := 0 }) s))

/-- The peer's last HEALTH names another MIRROR_SEQ than the last applied; a command this chip
still holds is no difference. -/
def mirrorDiffers (s : State) : Bool :=
  match s.pair.health with
  | none => false
  | some h => h.mirrorSeq != s.pair.lastApplied &&
      !s.pair.held.any (fun x => x.fromPeer && h.mirrorSeq == some x.mirrorSeq)

/-- A STANDBY chip that is out of step rejoins when it can (Table 19-3). -/
def rejoinLook (s : State) : State :=
  if s.pair.st == .standby && !s.pair.claim && s.pair.tetherUp && s.pair.roleIn &&
      (s.pair.outOfStep || mirrorDiffers s) then startRejoin s
  else s

/-- A mirrored command that will have no acknowledgement completes (Table 19-7). -/
def noAck (h : Held) (s : State) : State :=
  let s1 := modPair (fun p => { p with
    held := p.held.map (fun x => if x = h then { x with awaitAck := false } else x) }) s
  bump cMirrorNoAck scDevice 1 (answer h.opcode.toNat h.cmd { status := 1 } s1)

/-- The tether goes down (R516): an attempt under way fails, and no acknowledgement will come. -/
def tetherFall (s : State) : State :=
  if !s.pair.tetherUp then s else
  let s1 := raise 0x0F06 0 0 (bump cTetherDown scDevice 1 (modPair (fun p => { p with
    tetherUp := false, cmpT1 := none, wiringRun := 0, digestRun := 0 }) s))
  let s2 := each noAck (s1.pair.held.filter (fun h => h.awaitAck)) s1
  if s2.pair.st = .rejoining ∧ s2.pair.snapping then failAttempt s2 else s2

/-- The tether comes UP (R516). -/
def tetherRise (s : State) : State :=
  let s1 := raise 0x0F06 0 1 (modPair (fun p => { p with tetherUp := true }) s)
  if s1.pair.st = .rejoining then startAttempt s1 else rejoinLook s1

/-- PAIR_SERIAL as a number (R492). -/
def pairSerial (s : State) : Nat := field (lineSerial s) 0 8

/-- A HELLO is the peer's: PAIR_SERIAL agrees and SIDE is the other (R516). -/
def helloMatches (b : HelloBody) (s : State) : Bool :=
  decide (b.pairSerial.toNat = pairSerial s) && b.side != settingB s sSide scDevice

/-- The HELLO this chip sends (Table 19-9). -/
def ownHello (s : State) : HelloBody :=
  { serial := BitVec.ofNat 64 (field serialBytes 0 8), pairSerial := BitVec.ofNat 64 (pairSerial s)
    side := settingB s sSide scDevice, fwVersion := s.win.fwVersion, schema := 1
    revMin := BitVec.ofNat 16 ownRevMin, revMax := BitVec.ofNat 16 ownRevMax }

/-- Groups that have a locked lane, bit per group. -/
def groupLocks (s : State) : BitVec 4 :=
  BitVec.ofNat 4 ((List.range 4).map (fun g => bit (groupLocked s g) * 2 ^ g)).sum

/-- The HEALTH this chip sends (Table 19-9). -/
def ownHealth (s : State) : HealthBody :=
  { sc := (currentSc s).getD 0, state := pairCode s.pair.st, outOfStep := s.pair.outOfStep
    roleOut := s.pair.roleOut, renewable := renewable s, locked := groupLocks s
    fmSeqP := (instOf s 0).txSeq - 1, fmSeqS := (instOf s 1).txSeq - 1
    mirrorSeq := s.pair.lastApplied, digest := stateDigest s, fwVersion := s.win.fwVersion
    forcePeer := s.pair.forcePeer }

/-! What a HEALTH tells. -/

/-- The active's last FM_SEQ: the standby drops what has been sent (R512). -/
def dropSent (i : Nat) (last : BitVec 8) (s : State) : State :=
  modInst i (fun y =>
    let k := (last + 1 - y.txSeq).toNat
    { y with txQueue := if k < 128 then y.txQueue.drop k else y.txQueue, txSeq := last + 1 }) s

/-- ROLE_OUT as reported against ROLE_IN as read (R499). -/
def wiringLook (b : HealthBody) (s : State) : State :=
  let n := if b.roleOut = s.pair.roleIn then 0 else s.pair.wiringRun + 1
  let s1 := modPair (fun p => { p with wiringRun := n }) s
  if n = 4 then raise 0x0F04 0 0 s1 else s1

/-- The two digests (R513); eight disagreements after a snapshot fail its attempt (R519). -/
def digestLook (b : HealthBody) (s : State) : State :=
  if b.digest = stateDigest s then modPair (fun p => { p with digestRun := 0, attempts := 0 }) s
  else
    let n := s.pair.digestRun + 1
    let s1 := modPair (fun p => { p with digestRun := n }) s
    if n ≠ 8 then s1
    else
      let s2 := raise 0x0F09 0 0 (bump cOutOfStep scDevice 1
        (modPair (fun p => { p with outOfStep := true, digestRun := 0 }) s1))
      if 3 ≤ s2.pair.attempts then rejoinFails s2 else s2

/-! The time comparison (R517). -/

/-- PAIR_TIME_DIFF: the mean of the offsets held, rounded down to 2^-8 grain. -/
def meanOffset (ds : List Int) : Int := if ds.isEmpty then 0 else ds.sum / (2 * (ds.length : Int))

/-- An offset measured; `d` is twice it. -/
def takeOffset (d : Int) (s : State) : State :=
  let ds := (d :: s.pair.offsets).take 8
  let m := meanOffset ds
  let beyond := decide ((settingN s sTimeDiffLimit scDevice : Int) * 256 < m.natAbs)
  let s1 := modPair (fun p => { p with
    offsets := ds, timeDiff := m, timeAlarmed := beyond, cmpT1 := none }) s
  if beyond && !s.pair.timeAlarmed then raise 0x0F0C 0 (BitVec.ofInt 32 (m / 256)).toNat s1 else s1

end Sys2Proof.Machine
end

