-- ==== Sys2Proof/Machine/Power.lean ====
section
/-! DEFINITION. Power states, wake and gating (spec/18): the entry points, the wake sources, the
restart and the PWR_ commands. -/
namespace Sys2Proof.Machine

/-! Requesting and leaving a state. -/

/-- PWR_NOTICE's body (Table 18-9). -/
def noticeBody (s : State) (target : PwrState) (abandoned : Bool) (source : Nat) : Bytes :=
  natBytes 1 (pwrCode target * 64 + bit abandoned * 32 + settingN s sListenN scDevice) ++
    natBytes 3 0 ++ natBytes 4 (settingN s sRouseCode scDevice) ++ natBytes 1 source

/-- Queue PWR_NOTICE on an instance. -/
def queueNotice (target : PwrState) (abandoned : Bool) (source i : Nat) (s : State) : State :=
  queueMsg i 0x90 (noticeBody s target abandoned source) s

/-- A notice of the entry waits in the instance's queue. -/
def noticeQueued (s : State) (i : Nat) : Bool :=
  (instOf s i).txQueue.any (fun m => isNotice m.1 (byteAt m.2 0))

/-- Withdraw the instance's notices that no burst has taken. -/
def withdrawNotice (i : Nat) (s : State) : State :=
  modInst i (fun x => { x with
    txQueue := x.txQueue.filter (fun m => !isNotice m.1 (byteAt m.2 0)) }) s

/-- A notice has been queued on the instance in this entry. -/
def noticeFlag (s : State) (i : Nat) : Bool := if i = 0 then s.pwr.noticeP else s.pwr.noticeS

/-- Queue the notices of an entry from RUN on each OPERATING instance (Table 18-5, Table 18-15). -/
def startNotices (target : PwrState) (s : State) : State :=
  let is := (instances s).filter (fun i => (instOf s i).st == .operating)
  if settingN s sNoticeWait scDevice = 0 then bump cNoticeUnsent scDevice is.length s
  else
    let s1 := each (queueNotice target false 0) is s
    modPwr (fun p => { p with
      noticeP := is.contains 0 && noticeQueued s1 0
      noticeS := is.contains 1 && noticeQueued s1 1
      noticeWait := true }) s1

/-- E1 (Table 18-5). -/
def enterState (target : PwrState) (tag : BitVec 16) (s : State) : State :=
  let fromRun := s.pwr.st == .run
  let s1 := modPwr (fun p => { p with
    phase := .entering, target := target, point := 1, tag := some tag, runTags := []
    onAtE1 := if fromRun then p.on else p.onAtE1 ||| p.on
    latchedWas := p.latched, sigs := false, wake := none, intakeStopped := false
    noticeP := false, noticeS := false, noticeWait := false, drainWait := false
    chips := if fromRun then [] else p.chips }) s
  let s2 := raise 0x0201 0 (pwrCode target) s1
  drainLook (if fromRun then startNotices target s2 else s2)

/-- An event reaches the commands that wait for it: one event for each, or one without a TAG. -/
def pwrEvent (code : BitVec 16) (data : Nat) (tags : List (BitVec 16)) (s : State) : State :=
  if tags.isEmpty then raise code 0 data s
  else each (fun t => raiseTag code 0 data t false) tags s

/-- The entry is abandoned at point `n` (R474): the stages done are undone. -/
def abandonEntry (n : Nat) (s : State) : State :=
  let src := (s.pwr.wake.map (·.source)).getD 0
  let sent := (instances s).filter (fun i => noticeFlag s i && !noticeQueued s i)
  let awake := s.pwr.st == .run || s.pwr.st == .doze
  let s1 := if 4 ≤ n ∧ awake then each laneUp (List.range 4) s else s
  let s2 := each withdrawNotice (instances s1) s1
  let s3 := bump cAbandoned scDevice 1 (pwrEvent 0x0202 (n * 256 + src)
    (s.pwr.tag.toList ++ s.pwr.runTags) s2)
  let s4 := modPwr (fun p => { p with
    phase := .stable, target := p.st, point := n, tag := none, runTags := [], sigs := false
    latched := p.latchedWas, wake := none, intakeStopped := false, noticeP := false
    noticeS := false, noticeWait := false, drainWait := false }) s3
  each (queueNotice .run true src) sent s4

/-- A point is reached: the latch is sampled (R474). -/
def reachPoint (n : Nat) (cont : State → State) (s : State) : State :=
  if s.pwr.wake.isSome then abandonEntry n s else cont (modPwr (fun p => { p with point := n }) s)

/-- The work of E2 is done (Table 18-5). -/
def drained (s : State) : Bool :=
  !s.pwr.noticeWait &&
  (decide (pwrCode s.pwr.target < 2) ||
    (s.pwr.intakeStopped && s.cls.inNew == 0 && s.cls.inOld == 0 && s.inQ.isEmpty &&
      s.cry.ops.isEmpty &&
      (!s.pwr.drainWait ||
        (s.qos.ds.all (fun p => p.2.frames.isEmpty) && s.ports.all (fun p => p.2.tx.isNone)))))

/-- E2: traffic is drained. FALLOW and DEEP_FALLOW write a checkpoint (R572). -/
def execEntryE2 (s0 : State) : Out :=
  let s := drainLook s0
  if s.pwr.phase = .entering ∧ s.pwr.point = 1 ∧ drained s then
    let s1 := if pwrCode s.pwr.target < 2 then s else checkpoint false s
    .next (reachPoint 2 gateLook s1)
  else .next s

/-- NOTICE_WAIT has elapsed: the notices still queued are withdrawn. -/
def execNoticeWaitExpiry (s : State) : Out :=
  if s.pwr.phase = .entering ∧ s.pwr.point = 1 ∧ s.pwr.noticeWait then
    let unsent := (instances s).filter (noticeQueued s)
    let s1 := bump cNoticeUnsent scDevice unsent.length (each withdrawNotice unsent s)
    .next (drainLook (modPwr (fun p => { p with
      noticeWait := false
      noticeP := p.noticeP && !unsent.contains 0
      noticeS := p.noticeS && !unsent.contains 1 }) s1))
  else .next s

/-- DRAIN_WAIT has elapsed: what is queued stays queued. -/
def execDrainWaitExpiry (s : State) : Out :=
  .next (modPwr (fun p => { p with drainWait := false }) s)

/-- E3: the banks are signed (R473). -/
def execEntryE3 (s : State) : Out :=
  if s.pwr.phase = .entering ∧ s.pwr.point = 2 then
    .next (reachPoint 3 (modPwr (fun p => { p with sigs := true })) s)
  else .next s

/-- Domains with output pads that an entry latches: LTX, SL, QDR_IF, TETHER, REEVE (Table 23-3,
Table 23-6). -/
def padDomains : BitVec 64 := 0x1C000000000F0

/-- E4: pads latched, receive lanes DORMANT, signal readings kept (R471, R478, R588). -/
def latchPads (slSignal : BitVec 8) (s : State) : State :=
  let t := s.pwr.target
  let deep := t == .deepFallow
  let lit := (List.range 4).foldl (fun (m : BitVec 4) l =>
    if (laneOf s l).signal then m ||| (1#4 <<< l) else m) 0
  let s1 := modPwr (fun p => { p with
    latched := p.latched ||| (p.on &&& retDomains t &&& padDomains)
    slAtE4 := slSignal, lrxAtE4 := lit }) s
  let s2 := if 2 ≤ pwrCode t then refLook (each laneDown (List.range 4) s1) else s1
  let s3 := if deep then
      { s2 with time := { s2.time with ppsLevel := false, pendingTod := none } } else s2
  gateLook s3

/-- E4. `slSignal`: what the signal detectors of the server lanes read. -/
def execEntryE4 (slSignal : BitVec 8) (s : State) : Out :=
  if s.pwr.phase = .entering ∧ s.pwr.point = 3 then .next (reachPoint 4 id (latchPads slSignal s))
  else .next s

/-- The lanes on which the groups listen: in each, the last primary lane (R476). -/
def listenLanes (s : State) : BitVec 4 :=
  (List.range 4).foldl (fun (m : BitVec 4) g =>
    match lastPrimary s g with
    | some l => m ||| (1#4 <<< l)
    | none => m) 0

/-- E5: isolation (R471, R19, Table 7-11). -/
def isolate (s : State) : State :=
  let t := s.pwr.target
  let low := t == .fallow || t == .deepFallow
  let s1 := if low then refLook (each servoLose [0, 1] s) else s
  let s2 := accrue s1
  let s3 := modPwr (fun p => { p with
    st := t, phase := .stable, point := 5, tag := none
    stTags := p.stTags ++ p.tag.toList ++ p.runTags, runTags := [], on := p.on &&& ~~~retDomains t
    entryEra := s.clk.era, entryTl := now s
    listening := if t = .fallow then listenLanes s else 0 }) s2
  let s4 := if t = .deepFallow then
      { s3 with clk := { s3.clk with pllRunning := false, onFio := true } } else s3
  bump cEntries scDevice 1 s4

/-- E5, at a REFCLK edge. -/
def execEntryE5 (s : State) : Out :=
  if s.pwr.phase = .entering ∧ s.pwr.point = 4 ∧ s.clk.refclk then
    if s.pwr.wake.isSome then .next (abandonEntry 5 s) else .next (isolate s)
  else .next s

/-! Wake sources (Table 18-10). -/

/-- A server lane gains signal. -/
def execSlSignal (lane : Fin 8) (s : State) : Out :=
  if portRuns s (lanePort s lane).1 && !s.pwr.slAtE4.getLsbD lane then
    .next (wakeEvent 1 lane s)
  else .next s

/-- A dark receive lane gains signal. -/
def execLineLight (lane : Fin 4) (s : State) : Out :=
  if laneEnabled s lane && !s.pwr.lrxAtE4.getLsbD lane then
    .next (wakeEvent 2 lane (modLane lane (fun x => { x with signal := true }) s))
  else .next s

/-- A lit receive lane loses signal. -/
def execLineDark (lane : Fin 4) (s : State) : Out :=
  if laneEnabled s lane && s.pwr.lrxAtE4.getLsbD lane then
    .next (wakeEvent 3 lane (modLane lane (fun x => { x with signal := false }) s))
  else .next s

/-- WAKE_IN. -/
def execWakeIn (s : State) : Out := .next (wakeEvent 6 0 s)

/-- An I3C transfer addressed to the 4812 in DEEP_FALLOW is answered with a NACK and wakes it. -/
def execI3cWake (s : State) : Out :=
  if s.pins.inReset then .next s else .next (wakeEvent 7 0 s)

/-- What an accepted PWR_WAKE does: the addressee's wake event. -/
def actPwrWake (m : FieldMsg) (_ : Nat) (s : State) : Option Nat × State :=
  if (byteAt m.bytes 12).getLsbD 7 || serialMatches s m then
    (some 0, wakeEvent 4 m.group.val s)
  else (none, s)

/-- PWR_WAKE (R475). In a listening swath only the listening lane is scanned, and no FMSG_ counter
moves (R477). -/
def execPwrWake (m : FieldMsg) (s : State) : Out :=
  if msgType m ≠ 0x80 then .next s
  else if s.pwr.listening = 0 then .next (acceptMsg m .broadcast anyState false (actPwrWake m) s)
  else if s.pwr.listening.getLsbD m.lane && msgTid m == 0xFFFF && tagOk s (groupOwner s m.group) m then
    .next (actPwrWake m 0 s).2
  else .next s

/-- A chip: 1 when at least 3 of its 5 decisions found the pilot (R479). -/
def chipOf (ds : List Bool) : Bool := decide (3 ≤ (ds.take 5).countP id)

/-- Chips that differ from the code: chip `k` back in time against bit `k`. -/
def rouseDistance (code : Nat) : Nat → Nat → List Bool → Nat
  | 0, _, _ => 0
  | n + 1, k, ds => bit (chipOf ds != code.testBit k) + rouseDistance code n (k + 1) (ds.drop 5)

/-- The rouse correlator decides (R479). ROUSE_IN is ignored in RUN (Table 23-6). -/
def execRouseDecision (chip : Bool) (s : State) : Out :=
  if s.pwr.st = .run ∧ s.pwr.phase ≠ .entering then .next s else
  let s1 := modPwr (fun p => { p with chips := (chip :: p.chips).take 160 }) s
  let code := settingN s1 sRouseCode scDevice
  if code ≠ 0 ∧ rouseDistance code 32 0 s1.pwr.chips ≤ settingN s1 sRouseErr scDevice then
    .next (wakeEvent 5 0 (bump cRouseMatch scDevice 1 s1))
  else .next s1

/-- 20 us before a listening swath the listening lane is powered (R477). -/
def execListenPowerUp (lane : Fin 4) (s : State) : Out :=
  if s.pwr.st = .fallow ∧ s.pwr.listening.getLsbD lane then .next (laneUp lane s) else .next s

/-! Restart (R481). -/

/-- Seconds of a bin's clock: timeline seconds when untimed, otherwise TAI seconds; that in which the
bin started and that of now. -/
def binClock (s : State) (b : Bin) : Option (Int × Int) :=
  match b.start with
  | .untimed _ t => some ((t.toNat / secGrains : Nat), ((now s).toNat / secGrains : Nat))
  | .tod t => (outTime s (now s)).map (fun v => ((t.sec.toNat : Int), v / secUnits))

/-- Place of a clock second among bins of `n` seconds. A TAI second counts by the UTC of its own
moment (R197); the leap second 23:59:60 belongs to the bin it ends (R180). -/
def binPlace (s : State) (b : Bin) (n sec : Int) : Int :=
  match b.start with
  | .untimed _ _ => sec / n
  | .tod _ =>
    let x := domOf s s.time.selected
    let u := sec - (utcAt x sec).1
    if x.li61 && decide (x.leapAt = some (sec + 1)) then (u - 1) / n else u / n

/-- The clock second at which the bin of place `k` starts. -/
def placeStart (s : State) (b : Bin) (n k : Int) : Int :=
  match b.start with
  | .untimed _ _ => k * n
  | .tod _ =>
    let x := domOf s s.time.selected
    match x.leapAt with
    | some e =>
      let after := k * n + (utcAt x e).1
      if e ≤ after then after else k * n + x.utcOffset
    | none => k * n + x.utcOffset

/-- A bin's start from a clock second. -/
def binStartOf (s : State) (b : Bin) (sec : Int) : BinStart :=
  match b.start with
  | .untimed _ _ =>
    let t := BitVec.ofInt 64 (sec * secGrains)
    .untimed (if now s < t then s.clk.era - 1 else s.clk.era) t
  | .tod _ => .tod { sec := BitVec.ofInt 48 sec, grain := 0 }

/-- The bins of a kind that ended in a low state, and the one now open (R183). -/
def passedBins (s : State) (b : Bin) (n : Int) (depth : Nat) : List Bin × Bin :=
  match binClock s b with
  | none => ([], { b with lowPower := true })
  | some (start, cur) =>
    let first := binPlace s b n start
    let last := binPlace s b n cur
    if last ≤ first then ([], { b with lowPower := true, seconds := (cur - start).toNat })
    else
      let at_ (k : Int) : Int := placeStart s b n k
      let e := at_ (first + 1)
      let closed := { b with lowPower := true, leap := b.leap || binLeap s b e
                             seconds := binWhole { b with seconds := (e - start).toNat } 0 }
      let made := min (last - first - 1).toNat depth
      let mk (i : Nat) (end_ : Int) : Bin :=
        let k := last - (i : Int)
        let b' : Bin := { start := binStartOf s b (at_ k), seconds := (end_ - at_ k).toNat,
                          partial_ := false, lowPower := true }
        { b' with leap := binLeap s b' end_ }
      (closed :: ((List.range made).reverse.map (fun i => mk (i + 1) (at_ (last - (i : Int))))),
        mk 0 cur)

/-- On wake from FALLOW or DEEP_FALLOW the bins whose end has passed close in order (R183). -/
def wakeBins (s : State) : State :=
  let (days, day) := passedBins s s.sup.openDay 86400 31
  let s1 := each storeDay days { s with sup := { s.sup with
    openDay := day, closedDay := (days.reverse ++ s.sup.closedDay).take 31 } }
  let (quarters, quarter) := passedBins s1 s1.sup.open15 900 96
  let s2 := { s1 with sup := { s1.sup with
    open15 := quarter, closed15 := (quarters.reverse ++ s1.sup.closed15).take 96 } }
  if quarters.isEmpty then s2 else checkpoint false s2

/-- A halt of the timeline is reported (Table 1-4, R576). -/
def reportGap (s : State) : State :=
  if s.clk.tlGap then
    let gap := match s.life.gap with
      | some (false, t) => some (false, t)
      | _ => some (true, s.clk.resumed)
    raise 0x0603 0 0 { s with clk := { s.clk with tlGap := false }, life := { s.life with gap := gap } }
  else s

/-- The wake report (Table 18-13). -/
def wakeReport (s : State) (w : Wake) (failed : BitVec 64) (lost : Nat) : Bytes :=
  let p := s.pwr
  let hold := p.st == .deepFallow && s.clk.ref == .hold
  let reload := failed.getLsbD 1 || failed.getLsbD 2
  let ready := min 65535 ((tlDiff w.tl (now s)).toNat / 53125)
  natBytes 2 (p.wrSeq + 1).toNat ++
    natBytes 1 (pwrCode p.st * 64 + bit s.clk.tlGap * 32 + bit hold * 16 + bit reload * 8) ++
    natBytes 1 w.source ++ [w.index, 0] ++ natBytes 2 w.others.toNat ++
    natBytes 2 w.era.toNat ++ natBytes 8 w.tl.toNat ++ natBytes 2 p.entryEra.toNat ++
    natBytes 8 p.entryTl.toNat ++ natBytes 8 failed.toNat ++ natBytes 4 lost ++
    natBytes 2 ready ++ natBytes 6 0

/-- The restart completes (R481). `failed`: the banks whose signature does not match. -/
def completeWake (w : Wake) (failed : BitVec 64) (s : State) : State :=
  let st := s.pwr.st
  let deep := st == .deepFallow
  let s1 := if deep then { s with clk := { s.clk with pllRunning := true, onFio := false } } else s
  let before := (ctrOf s1 cRetDiscard scDevice).value
  let ks := (banksOf (retDomains st &&& s1.pwr.onAtE1)).filter (fun k => failed.getLsbD k)
  let bad := ks.foldl (fun (m : BitVec 64) k => m ||| (1#64 <<< k)) 0
  let s2 := failBanks failed (retDomains st &&& s1.pwr.onAtE1) s1
  let lost := ((ctrOf s2 cRetDiscard scDevice).value - before).toNat
  let s3 := modPwr (fun p => { p with
    on := p.on ||| p.onAtE1, listening := 0, report := wakeReport s2 w bad lost
    wrSeq := p.wrSeq + 1 }) s2
  let s4 := each laneUp (List.range 4) s3
  let s5 := if 2 ≤ pwrCode st then wakeBins s4 else s4
  let s6 := modPwr (fun p => { p with
    st := .run, phase := .stable, target := .run, wake := none, intakeStopped := false
    sigs := false, noticeP := false, noticeS := false }) (accrue s5)
  let s7 := pwrEvent 0x0203 w.source (s6.pwr.stTags ++ s6.pwr.runTags) (reportGap s6)
  let s8 := modPwr (fun p => { p with stTags := [], runTags := [] }) s7
  let ops := (instances s8).filter (fun i => (instOf s8 i).st == .operating)
  timeLook (refLook (each (queueNotice .run false w.source) ops s8))

/-- WAKE_COMPLETE. A root PLL that a power state stopped locks to REFCLK first. -/
def execWakeComplete (failedBanks : BitVec 64) (s : State) : Out :=
  match s.pwr.phase, s.pwr.wake with
  | .waking, some w =>
    if s.pwr.st = .deepFallow ∧ !s.clk.pllRunning ∧ !s.clk.refclk then .next s
    else .next (completeWake w failedBanks s)
  | _, _ => .next s

/-! Gating in RUN (R487). -/

/-- Domains that PWR_SET_DOMAINS gates (Table 18-1): LRX, LTX, SL, HARROW, BUF12 to BUF23,
TETHER. -/
def gateable : BitVec 64 := 0x8FFF000FFFFF

/-- Bits of a mask. -/
def maskBits (m : BitVec 64) : List Nat := (List.range 64).filter (fun i => m.getLsbD i)

/-- The condition under which a domain may be gated off (Table 18-1). -/
def gateOk (s : State) (n : Nat) : Bool :=
  if n < 4 then !laneEnabled s n
  else if n < 6 then !(usLaneOf s (n - 4)).enabled
  else if n < 8 then
    (List.range 4).all (fun i => (portOf s ((n - 6) * 4 + i)).link == .disabled)
  else if n = 47 then s.pair.st == .solo
  else true

/-- A BUF bank's bushels leave the pool. How many of them hold data is not told: a free number
within what the pool allows. -/
def gateBuf (b : Nat) (tag : BitVec 16) (s : State) : State :=
  let used := poolUsed s
  let lo := 4096 - s.qos.free
  let hi := max lo (min 4096 used)
  let held := if hi = 0 then 0 else lo + freeNat s % (hi - lo + 1)
  let s1 := takeBushels (4096 - held) (if hi = 0 then s else drawn s)
  if held = 0 then modPwr (fun p => { p with on := p.on &&& ~~~(1#64 <<< (20 + b)) }) s1
  else modPwr (fun p => { p with
    gating := p.gating ||| (1#64 <<< (20 + b)), bufHeld := tabSet 0 p.bufHeld b held
    gatingTag := tabSet 0 p.gatingTag b tag }) s1

/-- Gate a domain off that is on. -/
def gateOff (tag : BitVec 16) (n : Nat) (s : State) : State :=
  if !s.pwr.on.getLsbD n || s.pwr.gating.getLsbD n then s
  else if n < 8 ∨ n = 47 then
    modPwr (fun p => { p with
      on := p.on &&& ~~~(1#64 <<< n), latched := p.latched ||| ((1#64 <<< n) &&& padDomains) }) s
  else if n < 20 then
    gateHarrow (n - 8) (modPwr (fun p => { p with gating := p.gating ||| (1#64 <<< n) }) s)
  else gateBuf (n - 20) tag s

/-- Gate a domain on: one still at work goes on, another is powered and its banks are checked. -/
def gateOn (failed : BitVec 64) (n : Nat) (s : State) : State :=
  if s.pwr.gating.getLsbD n then
    let held := tabGet 0 s.pwr.bufHeld (n - 20)
    let s1 := modPwr (fun p => { p with
      gating := p.gating &&& ~~~(1#64 <<< n)
      bufHeld := if 20 ≤ n then tabSet 0 p.bufHeld (n - 20) 0 else p.bufHeld }) s
    if 20 ≤ n then { s1 with qos := { s1.qos with free := s1.qos.free + (4096 - held) } } else s1
  else if s.pwr.on.getLsbD n then s
  else
    let s1 := modPwr (fun p => { p with on := p.on ||| (1#64 <<< n) }) s
    let s2 := if 20 ≤ n ∧ n < 44 then { s1 with qos := { s1.qos with free := s1.qos.free + 4096 } }
      else s1
    let s3 := failBanks failed (1#64 <<< n) s2
    if 8 ≤ n ∧ n < 20 then
      match tabGet none s3.tine.gatedAt (n - 8) with
      | some t =>
        each (fun i => modPmc (n - 8) i (fun x => { x with
          cycOff := x.cycOff + t - s3.tine.cycles })) (List.range 16)
          (modTine (fun y => { y with gatedAt := tabSet none y.gatedAt (n - 8) none }) s3)
      | none => s3
    else s3

/-- A change of power state is in progress (R470). -/
def pwrChanging (s : State) : Bool := s.pwr.phase != .stable

/-- PWR_SET_DOMAINS. `failed`: the banks of newly powered domains whose signature does not
match. -/
def pwrSetDomainsBody (failed : BitVec 64) : CmdBody := fixedCmd 16 fun p c s =>
  let on := BitVec.ofNat 64 (field p 0 8) &&& 0x3FFFFFFFFFFFF
  let off := BitVec.ofNat 64 (field p 8 8) &&& 0x3FFFFFFFFFFFF
  if on &&& off ≠ 0 ∨ (on ||| off) &&& ~~~gateable ≠ 0 then badArg 0 0 s
  else if pwrChanging s then stBusy s
  else if s.pwr.st ≠ .run ∨ (maskBits off).any (fun n => !gateOk s n) then notInState s
  else
    let s1 := each (gateOff c.tag) (maskBits off) (each (gateOn failed) (maskBits on) s)
    if (off &&& s1.pwr.gating) >>> 20 ≠ 0 then stPending s1 else stOk [] s1

/-- PWR_SET_DOMAINS. -/
def execPwrSetDomains (c : Cmd) (failedBanks : BitVec 64) (s : State) : Out :=
  .next (runCmd 0x0203 (pwrSetDomainsBody failedBanks) c s)

/-- A BUF bank being gated off holds no bushel any more (R487). -/
def execBufBankGated (bank : Fin 24) (s : State) : Out :=
  let b := bank.val
  if s.pwr.gating.getLsbD (20 + b) && tabGet 0 s.pwr.bufHeld b == 0 then
    let tag := tabGet 0 s.pwr.gatingTag b
    .next (raiseTag 0x0205 b 0 tag false (modPwr (fun p => { p with
      gating := p.gating &&& ~~~(1#64 <<< (20 + b)), on := p.on &&& ~~~(1#64 <<< (20 + b))
      gatingTag := tabSet 0 p.gatingTag b 0 }) s))
  else .next s

/-! The other PWR_ commands. -/

/-- A power state by its code. -/
def pwrOfCode (n : Nat) : PwrState :=
  match n with
  | 0 => .run
  | 1 => .doze
  | 2 => .fallow
  | _ => .deepFallow

/-- An instance is in RANGING or TUNING. -/
def rangingOrTuning (s : State) : Bool :=
  (instances s).any (fun i => (instOf s i).st == .ranging || (instOf s i).st == .tuning)

/-- PWR_SET_STATE (R468-R470, Table 18-4). -/
def pwrSetStateBody : CmdBody :=
  settingsCmd [0x00] (fun _ => settings1803) fun sc gs c s =>
  let target := match gs.find? (fun g => g.1 == sPwrTarget) with
    | some g => pwrOfCode g.2.2.toNat
    | none => s.pwr.st
  let rouse := given s gs sRouseCode scDevice
  let ones := popNat 32 rouse.toNat
  let deep := target == .deepFallow
  if rouse ≠ 0 ∧ (ones < 12 ∨ 20 < ones) then badArg 2 (firstOf gs [sRouseCode]) s
  else if pwrChanging s then
    if target ≠ .run then stBusy s
    else if s.pwr.phase = .entering then
      stPending (modPwr (fun p => { p with runTags := p.runTags ++ [c.tag] }) (wakeEvent 8 0 s))
    else stOk [] s
  else if target = s.pwr.st then stOk [] s
  else if target = .run then
    stPending (modPwr (fun p => { p with runTags := p.runTags ++ [c.tag] }) (wakeEvent 8 0 s))
  else if pwrCode target < pwrCode s.pwr.st then notInState s
  else if s.pair.st ≠ .solo ∧ s.pair.st ≠ .isolated then notInState s
  else if rangingOrTuning s then notInState s
  else if deep && s.sec.debug == .authenticated then stDenied s
  else if deep && !s.clk.refclk then notInState (raise 0x0602 0 0 s)
  else stPending (enterState target c.tag (putGiven sc gs s))

/-- PWR_SET_STATE. -/
def execPwrSetState (c : Cmd) (s : State) : Out := .next (runCmd 0x0201 pwrSetStateBody c s)

/-- Status block of PWR_GET_STATE. -/
def pwrBlock (_ : Nat) (_ : Bytes) (s : State) : Bytes :=
  let phase := match s.pwr.phase with
    | .stable => 0
    | .entering => 1
    | .waking => 2
  natBytes 1 (pwrCode s.pwr.st) ++ natBytes 1 phase ++ natBytes 1 s.pwr.point ++ [0] ++
    natBytes 8 s.pwr.on.toNat ++ natBytes 8 s.pwr.latched.toNat

/-- PWR_GET_STATE. -/
def pwrGetStateBody : CmdBody := readCmd [] [(18, 14)] 0 pwrBlock (fun _ _ s => s)

/-- PWR_GET_STATE. -/
def execPwrGetState (c : Cmd) (s : State) : Out := .next (runCmd 0x0202 pwrGetStateBody c s)

/-- Domains in retention: by the power state, or gated off by PWR_SET_DOMAINS. -/
def inRetention (s : State) : BitVec 64 :=
  retDomains s.pwr.st ||| (~~~s.pwr.on &&& (s.pwr.latched ||| 0xFFFFFFFFF00))

/-- PWR_RELEASE_PADS (R484). -/
def pwrReleasePadsBody : CmdBody := fixedCmd 8 fun p _ s =>
  let m := BitVec.ofNat 64 (field p 0 8) &&& 0x3FFFFFFFFFFFF
  if pwrChanging s then stBusy s
  else if m &&& inRetention s ≠ 0 then notInState s
  else stOk [] (gateLook (modPwr (fun x => { x with latched := x.latched &&& ~~~m }) s))

/-- PWR_RELEASE_PADS. -/
def execPwrReleasePads (c : Cmd) (s : State) : Out := .next (runCmd 0x0204 pwrReleasePadsBody c s)

/-- PWR_GET_WAKE_REPORT (R485); zeros before the first wake. -/
def pwrGetWakeReportBody : CmdBody := fixedCmd 0 fun _ _ s => stOk (fit 48 s.pwr.report) s

/-- PWR_GET_WAKE_REPORT. -/
def execPwrGetWakeReport (c : Cmd) (s : State) : Out := .next (runCmd 0x0205 pwrGetWakeReportBody c s)

end Sys2Proof.Machine
end

