-- ==== Sys2Proof/Machine/Pair.lean ====
section
/-! DEFINITION. The redundant pair: lease, role wires, tether, rejoining and the PAIR_ commands
(spec/19). -/
namespace Sys2Proof.Machine

/-! The lease and the role wires (R495-R498). -/

/-- Firmware renews the lease (R496). -/
def execLeaseRenewal (s : State) : Out :=
  .next (if s.pair.st == .active && renewable s then startLease s else s)

/-- The lease timer expires (R497): the gate closes. -/
def execLeaseExpiry (s : State) : Out :=
  if s.pair.st == .active && s.pair.lease.isSome then
    let s1 := modPair (fun p => { p with lease := none }) s
    .next (yieldLook (gateLook (raise 0x0F03 0 0 (bump cLeaseLapse scDevice 1 s1))))
  else .next s

/-- The lease has been invalid for 2 × LEASE_LEN (R497). -/
def execRoleDrop (s : State) : Out :=
  if s.pair.st == .active && !leaseValid s then
    let s1 := leaveActive .standby (modPair (fun p => { p with
      yielding := none, outOfStep := true }) (bump cRoleDrop scDevice 1 s))
    .next (rejoinLook (gateLook s1))
  else .next s

/-- ROLE_IN, synchronised, changes (R495, R498). -/
def execRoleInChange (level : Bool) (s : State) : Out :=
  let s1 := modPair (fun p => { p with
    roleIn := level, forcePeer := p.forcePeer && !level }) s
  let s2 :=
    if level && s1.pair.claim && settingB s1 sSide scDevice then
      bump cClaimBackoff scDevice 1 (modPair (fun p => { p with claim := false, roleOut := false }) s1)
    else s1
  .next (rejoinLook (yieldLook (gateLook s2)))

/-- The read-back of ROLE_OUT changes (R495). -/
def execRoleOutReadbackChange (level : Bool) (s : State) : Out :=
  .next (yieldLook (gateLook (modPair (fun p => { p with readback := level }) s)))

/-- ROLE_IN has been low for ROLE_GUARD (R498): a STANDBY chip claims; a REJOINING one abandons its
rejoin first (Table 19-3). -/
def execRoleClaim (s : State) : Out :=
  if s.pair.roleIn then .next s else
  let s1 :=
    if s.pair.st = .rejoining then setPair .standby (modPair (fun p => { p with
      stale := true, snapping := false, snapshot := [], attempts := 0 }) s)
    else s
  if s1.pair.st == .standby && !s1.pair.claim && renewable s1 then
    if s1.pair.versionGap && !s1.pair.forceArmed then .next (raiseGap s1)
    else .next (modPair (fun p => { p with claim := true, roleOut := true }) s1)
  else .next s1

/-- ROLE_IN has stayed low for 1 µs in CLAIM: the chip becomes ACTIVE (Table 19-3, R502). -/
def execTakeover (s : State) : Out :=
  if s.pair.st == .standby && s.pair.claim && !s.pair.roleIn then
    let s1 := startLease (modPair (fun p => { p with
      claim := false, forceArmed := false, mirrorSeq := p.lastApplied.getD 0 }) s)
    let s2 := restartBseq { s1 with us := { s1.us with freshFrom := some (now s1) } }
    let s3 := setPair .active (bump cTakeovers scDevice 1 s2)
    .next (raise 0x0F02 0 (bit s3.pair.stale) s3)
  else .next s

/-- The peer is STANDBY without OUT_OF_STEP (Table 19-3). -/
def peerReady (s : State) : Bool :=
  s.pair.tetherUp && (match s.pair.health with
    | some h => decide (h.state = 2) && !h.outOfStep
    | none => false)

/-- A yield begins (R506). -/
def startYield (y : Yield) (s : State) : State :=
  yieldLook (modPair (fun p => { p with yielding := some y }) s)

/-- LOCK_YIELD_HOLD expires (R507). -/
def execLockYieldExpiry (s : State) : Out :=
  let peerLock := match s.pair.health with
    | some h => decide (h.locked ≠ 0)
    | none => false
  if s.pair.st == .active && settingN s sLockYieldHold scDevice != 0 && peerReady s &&
      !s.pair.versionGap && s.pair.yielding.isNone && groupLocks s == 0 && peerLock then
    .next (startYield { force := false, isolate := false } (raise 0x0F05 0 0 s))
  else .next s

/-! The tether (R514-R517). -/

/-- A HELLO is received (R516). T_SEQ only numbers messages; no rule has a receiver act on it. -/
def execHello (crcOk : Bool) (_ : BitVec 32) (b : HelloBody) (s : State) : Out :=
  .next (tetherIn crcOk (fun s =>
    if helloMatches b s then
      let s1 := gapLook b.fwVersion (modPair (fun p => { p with hello := some b }) s)
      if s1.pair.tetherUp then s1 else tetherRise s1
    else raise 0x0F07 0 0 s) s)

/-- A HELLO is sent while the tether is not UP (R515). -/
def execHelloTx (s : State) : Out :=
  .next (if tetherOn s && !s.pair.tetherUp then tetherSend (.hello (ownHello s)) s else s)

/-- A HEALTH is received (R499, R506, R512, R513, R520). -/
def execHealth (crcOk : Bool) (_ : BitVec 32) (b : HealthBody) (s : State) : Out :=
  .next (tetherIn crcOk (fun s =>
    if !s.pair.tetherUp then s else
    let s1 := wiringLook b (gapLook b.fwVersion (modPair (fun p => { p with health := some b }) s))
    let follower := s1.pair.st == .standby && decide (b.state = 1)
    let s2 := if follower then dropSent 1 b.fmSeqS (dropSent 0 b.fmSeqP s1) else s1
    let s3 := if follower then digestLook b s2 else s2
    let s4 := if b.forcePeer && !(s.pair.health.any (fun h => h.forcePeer)) && s3.pair.st == .standby
      then modPair (fun p => { p with forceArmed := true }) s3 else s3
    rejoinLook s4) s)

/-- A HEALTH is sent (R515). -/
def execHealthTx (s : State) : Out :=
  .next (if tetherOn s && s.pair.tetherUp then tetherSend (.health (ownHealth s)) s else s)

/-- No valid HEALTH for 512 µs (R516). -/
def execTetherHealthTimeout (s : State) : Out := .next (tetherFall s)

/-- Block lock is lost (R516). -/
def execTetherBlockLockLoss (s : State) : Out := .next (tetherFall s)

/-- A TIME_CMP exchange starts (R517); `left` is the timeline at which its first bit leaves. -/
def execTimeCmpStart (left : BitVec 64) (s : State) : Out :=
  if tetherOn s && s.pair.tetherUp then
    match outTime s left with
    | some t1 =>
      let n := s.pair.exchange + 1
      .next (tetherSend (.timeCmp n none) (modPair (fun p => { p with
        exchange := n, cmpT1 := some t1 }) s))
    | none => .next s
  else .next s

/-- A TIME_CMP is received at timeline `capture` (R517): a request is answered, the answer leaving
at `left`; an answer, which carries t2 and t3, completes the exchange. -/
def execTimeCmp (crcOk : Bool) (_ : BitVec 32) (exchange : BitVec 32) (reply : Option (Int × Int))
    (capture left : BitVec 64) (s : State) : Out :=
  .next (tetherIn crcOk (fun s =>
    if !s.pair.tetherUp then s else
    match reply with
    | none =>
      match outTime s capture, outTime s left with
      | some t2, some t3 => tetherSend (.timeCmp exchange (some (t2, t3))) s
      | _, _ => s
    | some (t2, t3) =>
      match s.pair.cmpT1, outTime s capture with
      | some t1, some t4 =>
        if exchange = s.pair.exchange then
          takeOffset ((t2 - t1) - (t4 - t3) - 512 * setting s sTetherAsym scDevice) s
        else s
      | _, _ => s) s)

/-! Mirrored commands (R510). -/

/-- The standby's answer to a mirrored command: its own check of it. -/
def mirrorCheck (op : Nat) (c : Cmd) (s : State) : Nat :=
  if s.pair.versionGap then 8
  else if s.pair.st = .rejoining then 0
  else match bodyOf noOptics noOptics op with
    | none => 4
    | some b =>
      let r := (b (splitCall c) s).1
      if isError r then r.status else 0

/-- The standby receives a mirrored command (R510, R518). -/
def execMirrorCmd (crcOk : Bool) (_ : BitVec 32) (mirrorSeq : BitVec 32) (applySc : BitVec 48)
    (opcode : BitVec 16) (cmd : Cmd) (s : State) : Out :=
  .next (tetherIn crcOk (fun s =>
    if !s.pair.tetherUp || !(s.pair.st == .standby || s.pair.st == .rejoining) then s else
    let have_ := s.pair.held.any (fun h => h.fromPeer && h.mirrorSeq == mirrorSeq)
    let st := if have_ then 0 else mirrorCheck opcode.toNat cmd s
    let h : Held := { mirrorSeq := mirrorSeq, applySc := applySc, opcode := opcode,
                      cmd := { cmd with src := .mirror true }, awaitAck := false, fromPeer := true }
    let s1 :=
      if have_ then s
      else if st = 0 then modPair (fun p => { p with held := p.held ++ [h] }) s
      else if st = 8 then s
      else modPair (fun p => { p with outOfStep := true }) s
    rejoinLook (tetherSend (.mirrorAck mirrorSeq (BitVec.ofNat 16 st)) s1)) s)

/-- The active receives the standby's answer (Table 19-7). -/
def execMirrorAck (crcOk : Bool) (_ : BitVec 32) (mirrorSeq : BitVec 32) (status : BitVec 16)
    (s : State) : Out :=
  .next (tetherIn crcOk (fun s =>
    match s.pair.held.find? (fun h => h.awaitAck && h.mirrorSeq == mirrorSeq) with
    | none => s
    | some h =>
      let op := h.opcode.toNat
      if status = 0 then
        let s1 := modPair (fun p => { p with
          held := p.held.map (fun x => if x = h then { x with awaitAck := false } else x) }) s
        bump cMirrorSent scDevice 1 (answer op h.cmd { status := 1 } s1)
      else
        let s1 := bump cMirrorRefused scDevice 1
          (modPair (fun p => { p with held := p.held.erase h }) s)
        if status = 8 then answer op h.cmd { status := 8 } s1
        else raise 0x0F09 0 0 (answer op h.cmd (refuse 5 0 0 s1).1 s1)) s)

/-- No MIRROR_ACK for the oldest command that waits for one (R510). -/
def execMirrorAckTimeout (s : State) : Out :=
  match s.pair.held.find? (fun h => h.awaitAck) with
  | some h => .next (noAck h s)
  | none => .next s

/-! Rejoining (R518, R519). -/

/-- A snapshot's bytes as messages of up to 4,080 bytes. -/
def snapMessages (b : Bytes) : List TetherMsg :=
  (List.range ((b.length + 4079) / 4080)).map (fun i =>
    .snapData 1 (BitVec.ofNat 32 (i * 4080)) ((b.drop (i * 4080)).take 4080))

/-- The active receives SNAP_REQ (R518): the snapshot, and the commands that follow it; without a
common schema an empty SNAP_END (R519). -/
def execSnapReq (crcOk : Bool) (_ : BitVec 32) (schemaMin schemaMax : BitVec 16) (s : State) : Out :=
  .next (tetherIn crcOk (fun s =>
    if s.pair.st ≠ .active ∨ !s.pair.tetherUp then s
    else if schemaMin.toNat ≤ 1 ∧ 1 ≤ schemaMax.toNat then
      let x := takeSnap s
      let b := Config.snapEncode x
      let s1 := each tetherSend (snapMessages b) s
      let s2 := tetherSend (.snapEnd 1 x.sc (BitVec.ofNat 32 b.length) (BitVec.ofNat 32 (crc32 b))) s1
      each (fun (h : Held) s => tetherSend (.mirrorCmd h.mirrorSeq h.applySc h.opcode h.cmd) s)
        (s2.pair.held.filter (fun h => decide (0 < scDiff x.sc h.applySc))) s2
    else raiseGap (tetherSend (.snapEnd 0 0 0 0) s)) s)

/-- The rejoiner receives a chunk; one that does not continue the last means a lost one. -/
def execSnapData (crcOk : Bool) (_ : BitVec 32) (schema : BitVec 16) (offset : BitVec 32)
    (bytes : Bytes) (s : State) : Out :=
  .next (tetherIn crcOk (fun s =>
    if !s.pair.snapping then s
    else if schema = 1 ∧ offset.toNat = s.pair.snapshot.length then
      modPair (fun p => { p with snapshot := p.snapshot ++ bytes }) s
    else failAttempt s) s)

/-- A held command of the peer whose APPLY_SC has passed takes effect (R518 step 4). -/
def applyLate (o0 o1 : Optics) (h : Held) (s : State) : State :=
  match bodyOf o0 o1 h.opcode.toNat with
  | none => s
  | some b =>
    let s1 := modPair (fun p => { p with
      held := p.held.erase h, lastApplied := some h.mirrorSeq }) s
    (b { splitCall h.cmd with sc := none } s1).2

/-- The snapshot replaces the mirrored state, and the held commands follow (R518 step 4). -/
def takeSnapshot (o0 o1 : Optics) (sc : BitVec 48) (x : Snap) (s : State) : State :=
  let s1 := applySnap o0 o1 x s
  let s2 := modPair (fun p => { p with
    held := p.held.filter (fun h => !h.fromPeer || decide (0 < scDiff sc h.applySc))
    snapping := false, snapshot := [], digestRun := 0 }) s1
  let reached (h : Held) : Bool := h.fromPeer && (match currentSc s2 with
    | some cur => decide (0 ≤ scDiff h.applySc cur)
    | none => false)
  let s3 := each (applyLate o0 o1) (s2.pair.held.filter reached) s2
  bump cRejoins scDevice 1 (setPair .standby (modPair (fun p => { p with
    outOfStep := false, stale := false }) s3))

/-- The rejoiner receives SNAP_END (R518, R519). -/
def execSnapEnd (crcOk : Bool) (_ : BitVec 32) (schema : BitVec 16) (sc : BitVec 48)
    (length crc : BitVec 32) (optics0 optics1 : Optics) (s : State) : Out :=
  .next (tetherIn crcOk (fun s =>
    if !s.pair.snapping then s
    else if length = 0 then rejoinFails (raiseGap s)
    else if schema ≠ 1 ∨ length.toNat ≠ s.pair.snapshot.length ∨
        crc.toNat ≠ crc32 s.pair.snapshot then failAttempt s
    else match Config.snapDecode s.pair.snapshot with
      | none => failAttempt s
      | some x => takeSnapshot optics0 optics1 sc x s) s)

/-- SNAP_END does not arrive within 500 ms (R519). -/
def execSnapTimeout (s : State) : Out :=
  .next (if s.pair.st == .rejoining && s.pair.snapping then failAttempt s else s)

/-! The PAIR_ commands. -/

/-- PAIRED becomes 1: SOLO to STANDBY (Table 19-3). -/
def enterPair (s : State) : State :=
  let s1 := domainOn 47 (setPair .standby (modPair (fun p => { p with
    roleOut := false, outOfStep := true, stale := false, lastApplied := none, mirrorSeq := 0 }) s))
  gateLook s1

/-- PAIRED becomes 0 (Table 19-3, R494). -/
def leavePair (s : State) : State :=
  let s1 := tetherFall (modPair (fun p => { p with snapping := false, snapshot := [] }) s)
  let s2 := dropClaim s1
  let s3 := if s2.pair.st = .active then leaveActive .solo s2 else setPair .solo s2
  gateLook (roleOutLook (modPair (fun p => { p with
    outOfStep := false, stale := false, versionGap := false, forcePeer := false, attempts := 0
    hello := none, health := none }) s3))

/-- A valid PAIR_SERIAL begins with "OVBD"; one not given is the chip's own (R491). -/
def pairSerialValid (v : Int) : Bool :=
  v == 0 || decide (v.toNat / 2 ^ 32 % 2 ^ 32 = 0x4F564244)

/-- PAIR_CONFIGURE (R491, R494, R501, R520). -/
def pairConfigureBody : CmdBody :=
  settingsCmd [0x00] (fun _ => settings1901) fun sc gs _ s =>
  let paired := given s gs sPaired sc
  let out := s.pair.st == .solo
  if carried gs sPaired && paired == 1 && !pairSerialValid (given s gs sPairSerial sc) then
    badArg 2 (firstOf gs (if carried gs sPairSerial then [sPairSerial] else [sPaired])) s
  else if paired = 0 ∧ !out ∧ !(s.pair.st == .active || !s.pair.roleIn) then notInState s
  else
    let s1 := modPair (fun p => { p with forceArmed := false }) (putGiven sc gs s)
    if out && paired == 1 then stOk [] (enterPair s1)
    else if !out && paired == 0 then stOk [] (leavePair s1)
    else stOk [] (portsLook s1)

/-- PAIR_CONFIGURE. -/
def execPairConfigure (c : Cmd) (s : State) : Out := .next (runCmd 0x0F01 pairConfigureBody c s)

/-- Status block of PAIR_GET_STATE. -/
def pairBlock (_ : Nat) (_ : Bytes) (s : State) : Bytes :=
  let p := s.pair
  let left := match p.lease with
    | some e => (tlDiff (now s) e).toNat
    | none => 0
  natBytes 1 (pairCode p.st) ++ natBytes 1 (bit p.claim) ++
    natBytes 1 (bit p.forceArmed * 64 + bit p.tetherUp * 32 + bit p.versionGap * 16 +
      bit p.stale * 8 + bit p.outOfStep * 4 + bit p.roleIn * 2 + bit p.roleOut) ++ [0] ++
    natBytes 4 left ++ natBytes 4 (peerFw s).toNat ++ natBytes 4 (BitVec.ofInt 32 p.timeDiff).toNat ++
    natBytes 4 (p.lastApplied.getD 0).toNat

/-- PAIR_GET_STATE. -/
def pairGetStateBody : CmdBody := readCmd [] [(19, 10)] 0 pairBlock (fun _ _ s => s)

/-- PAIR_GET_STATE. -/
def execPairGetState (c : Cmd) (s : State) : Out := .next (runCmd 0x0F02 pairGetStateBody c s)

/-- PAIR_YIELD YIELD (Table 19-3, R501, R520). -/
def yieldCmd (force : Bool) (s : State) : Reply × State :=
  if s.pair.st = .active then
    if !peerReady s then notInState s
    else if s.pair.versionGap && !force then refuse 8 0 0 s
    else stOk [] (startYield { force := force, isolate := false } s)
  else if s.pair.st = .standby ∧ force then
    stOk [] (modPair (fun p => { p with forceArmed := true }) s)
  else notInState s

/-- PAIR_YIELD ISOLATE (Table 19-3). -/
def isolateCmd (force : Bool) (s : State) : Reply × State :=
  match s.pair.st with
  | .active => stOk [] (startYield { force := force, isolate := true } s)
  | .standby | .rejoining =>
    stOk [] (setPair .isolated (dropClaim (modPair (fun p => { p with
      snapping := false, snapshot := [], attempts := 0 }) s)))
  | _ => notInState s

/-- PAIR_YIELD. -/
def pairYieldBody : CmdBody := fixedCmd 4 fun p _ s =>
  let force := (byteAt p 1).getLsbD 0
  match (byteAt p 0).toNat with
  | 0 => yieldCmd force s
  | 1 => isolateCmd force s
  | _ => badArg 0 0 s

/-- PAIR_YIELD. -/
def execPairYield (c : Cmd) (s : State) : Out := .next (runCmd 0x0F03 pairYieldBody c s)

/-- PAIR_REJOIN (Table 19-3). -/
def pairRejoinBody : CmdBody := fixedCmd 0 fun _ _ s =>
  if s.pair.st ≠ .isolated then notInState s
  else if !s.pair.roleIn then stOk [] (setPair .standby s)
  else if s.pair.tetherUp then stOk [] (startRejoin (modPair (fun p => { p with attempts := 0 }) s))
  else notInState s

/-- PAIR_REJOIN. -/
def execPairRejoin (c : Cmd) (s : State) : Out := .next (runCmd 0x0F04 pairRejoinBody c s)

end Sys2Proof.Machine
end

