-- ==== Sys2Proof/Machine/Ptp.lean ====
section
/-! DEFINITION. The precision-time engine's commands and the timed outputs (spec/09). -/
namespace Sys2Proof.Machine

/-! What is sent, to whom. -/

/-- Where an instance's message of type `ty` goes: nowhere (none), to the multicast address, or
to a client that holds a grant (R260, R264, R265). -/
def ptpDest (s : State) (p : Nat) (b : Bool) (client : Option (BitVec 128)) (ty : Nat) :
    Option (Option (BitVec 48 × BitVec 128)) :=
  match ptpSource s p b with
  | none => none
  | some src =>
    if (srcTime s src (now s)).isNone then none
    else if ptpProfile s p = 1 then (if client.isNone then some none else none)
    else match client with
    | none => none
    | some ip => (grantOf s p b ip ty).map (fun g => some (g.mac, g.ip))

/-- logMessageInterval: the multicast value, 0x7F in a unicast message (log entry 13). -/
def logField (dst : Option (BitVec 48 × BitVec 128)) (v : Nat) : Nat :=
  if dst.isNone then v else 0x7F

/-- unicastFlag. -/
def uniFlag (dst : Option (BitVec 48 × BitVec 128)) : Nat := if dst.isNone then 0 else 0x0400

/-- Build a message for a destination and hand it to the port (R262, R267). -/
def ptpSend (p kind : Nat) (b event one : Bool) (client : Option (BitVec 128))
    (dst : Option (BitVec 48 × BitVec 128)) (m : Bytes) (s : State) : State :=
  let (at_, f) := ptpFrame s p dst event one m
  let msg : TimeMsg :=
    { kind := kind, bytes := f, ptpAt := at_, instB := b, ip := client, oneStep := one,
      src := if kind = 4 then none else ptpSource s p b,
      board := setting s sTsBoardTx (scPort p), v6 := decide (ptpProfile s p = 3) }
  sendTime p msg (drawn s)

/-- clockClass, clockAccuracy, offsetScaledLogVariance, timeTraceable and timeSource of a domain
(Table 9-5). A DISABLED domain has no row: the OUTPUT scale may run on without it, and its values
are free. -/
def annQuality (s : State) (d : Nat) : Nat × Nat × Nat × Bool × Nat :=
  let x := domOf s d
  let q := x.quality.toNat
  match x.st with
  | .locked =>
    if q = 0 then (6, 0x21, 0x4E5D, true, 0x40)
    else if q = 0x10 then (7, 0x21, 0x4E5D, true, 0x40)
    else if q = 0x20 then (140, 0xFE, 0xFFFF, false, 0x40)
    else (248, 0xFE, 0xFFFF, false, 0x40)
  | .holdover =>
    if x.holdExpired then (165, 0xFE, 0xFFFF, false, 0xA0)
    else if q = 0 ∨ q = 0x10 then (135, 0xFE, 0xFFFF, true, 0xA0)
    else (165, 0xFE, 0xFFFF, false, 0xA0)
  | .disabled =>
    let v := freeNat s
    (v % 256, v / 256 % 256, v / 65536 % 65536, v.testBit 32, v / 2 ^ 33 % 256)
  | _ => (248, 0xFE, 0xFFFF, false, 0xA0)

/-- flagField and body of an Announce (R273). -/
def announceBody (s : State) (p : Nat) (src : Option Nat) : Nat × Bytes :=
  let d := srcDom s src
  let (cls, acc, var, trace, source) := annQuality s d
  let (utc, l61, l59, uv) := utcAt (domOf s d) (((srcTime s src (now s)).getD 0) / secUnits)
  let freq := s.clk.ref == .line || s.clk.ref == .hold
  let flags := bit l61 + 2 * bit l59 + 4 * bit uv + 8 + 16 * bit trace + 32 * bit freq
  let prio := if timeOnly s then settingN s sStandbyPriority2 scDevice
    else settingN s sPriority2 (scPort p)
  (flags, freeBytes s 10 ++ natBytes 2 (unsigned 16 utc) ++ [0, 128] ++ natBytes 1 cls ++
    natBytes 1 acc ++ natBytes 2 var ++ natBytes 1 prio ++ [0x4F, 0x56] ++
    natBytes 4 (instOf s (domInst s d)).heId.toNat ++ [0x00] ++ natBytes 1 (domSrc s d) ++
    natBytes 2 1 ++ natBytes 1 source)

/-- An Announce falls due (R264, R273). originTimestamp, which the spec does not state, is
free. -/
def execPtpAnnounceTx (port : Fin 8) (instB : Bool) (client : Option (BitVec 128)) (s : State) :
    Out :=
  match ptpDest s port instB client 11, ptpSource s port instB with
  | some dst, some src =>
    let (flags, body) := announceBody s port src
    let (seq, s1) := takeSeq port instB 11 client (drawn s)
    let m := ptpMessage port 11 (ptpDomain s port instB) (flags + uniFlag dst) 0 seq.toNat
      (logField dst 0xFD) body
    .next (ptpSend port 2 instB false false client dst m s1)
  | _, _ => .next s

/-- A Sync falls due: one-step, or with twoStepFlag and an originTimestamp of zero (R270). -/
def execPtpSyncTx (port : Fin 8) (instB : Bool) (client : Option (BitVec 128)) (s : State) : Out :=
  match ptpDest s port instB client 0 with
  | none => .next s
  | some dst =>
    let one := decide (setting s sStepMode (scPort port) = 0)
    let (seq, s1) := takeSeq port instB 0 client s
    let m := ptpMessage port 0 (ptpDomain s port instB)
      (uniFlag dst + (if one then 0 else 0x0200)) 0 seq.toNat (logField dst 0xFC)
      (List.replicate 10 0)
    .next (ptpSend port 0 instB true one client dst m s1)

/-- A Follow_Up carries the precise timestamp and remainder of a Sync sent (R270). -/
def execFollowUp (port : Fin 8) (instB : Bool) (client : Option (BitVec 128)) (s : State) : Out :=
  match (portOf s port).follow.find? (fun f => f.instB == instB && f.ip == client) with
  | none => .next s
  | some f =>
    let s1 := modPort port (fun x => { x with follow := x.follow.erase f }) s
    match ptpDest s port instB client 0 with
    | none => .next s1
    | some dst =>
      let m := ptpMessage port 8 (ptpDomain s port instB) (uniFlag dst) f.frac.toNat f.seq.toNat
        (logField dst 0xFC) (stampBytes f.sec.toNat f.ns.toNat)
      .next (ptpSend port 1 instB false false client dst m s1)

/-! Received messages. -/

/-- The oldest claimed frame of a kind. -/
def claimedOf (s : State) (p k : Nat) : Option Claimed :=
  (portOf s p).timeIn.find? (fun c => c.kind == k)

/-- The port without that frame. -/
def unclaim (p : Nat) (c : Claimed) (s : State) : State :=
  modPort p (fun x => { x with timeIn := x.timeIn.erase c }) s

/-- Source IP address of a claimed unicast frame. -/
def clientIp (s : State) (p : Nat) (b : Bytes) : BitVec 128 :=
  BitVec.ofNat 128 (if ptpProfile s p = 2 then field b 26 4 else field b 22 16)

/-- A claimed message whose instance runs: its bytes and instance; none when the port's settings
no longer claim it. -/
def claimedMsg (s : State) (p : Nat) (b : Bytes) : Option (Bytes × Bool × Option Nat) :=
  match ptpAt s p b with
  | none => none
  | some (at_, n) =>
    let m := slice b at_ n
    (ptpInstance s p (byteAt m 4).toNat).map (fun i => (m, i.1, i.2))

/-- A Delay_Req is answered with its ingress timestamp (R264, R266, R270). One without a value of
its source or without a grant is counted as ignored. -/
def execDelayReq (port : Fin 8) (s : State) : Out :=
  match claimedOf s port 0 with
  | none => .next s
  | some c =>
    let s1 := unclaim port c s
    let ignored : Out := .next (bump cPtpRxIgnored (scPort port) 1 s1)
    match claimedMsg s port c.bytes with
    | none => ignored
    | some (m, b, src) =>
      let uni := decide (ptpProfile s port ≠ 1)
      let ip := clientIp s port c.bytes
      let who : BitVec 80 := BitVec.ofNat 80 (field m 20 10)
      let recent := (portOf s port).answered.filter
        (fun a => decide (tlDiff a.2 c.capture < secGrains))
      let above := !uni && decide (128 ≤ (recent.filter (fun a => a.1 == who)).length)
      let dst : Option (Option (BitVec 48 × BitVec 128)) :=
        if uni then (grantOf s port b ip 9).map (fun g => some (g.mac, g.ip)) else some none
      match dst with
      | none => ignored
      | some dst =>
        let (st, s2) := takeStamp port src c.capture s1
        match st with
        | none => .next (bump cPtpRxIgnored (scPort port) 1 s2)
        | some st =>
          if above then ignored else
          let s3 := bump cPtpDelayReqRx (scPort port) 1 (modPort port (fun x => { x with
            answered := if uni then x.answered else (who, c.capture) :: recent }) s2)
          let corr := unsigned 64 (signed 64 (field m 8 8) - (st.2.2 : Int))
          let r := ptpMessage port 9 (byteAt m 4).toNat (uniFlag dst) corr (field m 30 2)
            (logField dst 0xFC) (stampBytes st.1 st.2.1 ++ slice m 20 10)
          .next (ptpSend port 3 b false false (if uni then some ip else none) dst r s3)

/-- The clients that hold grants on a port (R265). -/
def ptpClients (s : State) (p : Nat) : List (Bool × BitVec 128) :=
  ((portOf s p).grants.map (fun g => (g.instB, g.ip))).eraseDups

/-- A request's outcome: the duration granted, 0 when denied (Table 9-3). A period above 4 has no
row: whether it is granted is a free value. -/
def grantDecision (s : State) (p : Nat) (b : Bool) (src : Option Nat) (ip : BitVec 128)
    (ty : Nat) (period : Int) (dur : Nat) : Nat :=
  let known := decide (ty = 11 ∨ ty = 0 ∨ ty = 9)
  let fast := decide (period < (if ty = 11 then -3 else -7))
  let slow := decide (4 < period)
  let isNew := !(ptpClients s p).contains (b, ip)
  let full := isNew && decide (settingN s sMaxClients (scPort p) ≤ (ptpClients s p).length)
  if !known || fast || full || (srcTime s src (now s)).isNone || (slow && freeNat s % 2 == 0) then 0
  else min (settingN s sGrantMax (scPort p)) (max 10 dur)

/-- One TLV of a Signaling message; answers the TLV to send back (R265, IEEE 1588 Clause 16.1). A
request to an instance whose source has no value is answered with a denial all the same (Table 9-3,
Table 9-9; log entry 109). -/
def signalTlv (p : Nat) (b : Bool) (src : Option Nat) (mac : BitVec 48) (ip : BitVec 128)
    (ty : Nat) (v : Bytes) (s : State) : Bytes × State :=
  if ty = 0x0004 ∧ 6 ≤ v.length then
    let mt := (byteAt v 0).toNat / 16
    let dur := grantDecision s p b src ip mt (signed 8 (byteAt v 1).toNat) (field v 2 4)
    let reply := natBytes 2 5 ++ natBytes 2 8 ++ natBytes 1 (mt * 16) ++ [byteAt v 1] ++
      natBytes 4 dur ++ [0] ++ natBytes 1 (freeNat s % 4 / 2)
    let s1 := drawn s
    if dur = 0 then (reply, bump cPtpDenied (scPort p) 1 s1)
    else
      let g : Grant :=
        { instB := b, ip := ip, mac := mac, msgType := BitVec.ofNat 4 mt, logPeriod := byteAt v 1,
          ends := tlAdd (now s) (dur * secGrains : Nat) }
      (reply, bump cPtpGrants (scPort p) 1 (modPort p (fun x => { x with
        grants := x.grants.filter (fun h => !(h.instB == b && h.ip == ip && h.msgType == g.msgType))
          ++ [g] }) s1))
  else if ty = 0x0006 ∧ 2 ≤ v.length then
    let mt := (byteAt v 0).toNat / 16
    -- R260: an instance whose source has no value answers nothing
    (if (srcTime s src (now s)).isNone then [] else natBytes 2 7 ++ natBytes 2 2 ++ v.take 2,
      modPort p (fun x => { x with
        grants := x.grants.filter (fun h =>
          !(h.instB == b && h.ip == ip && h.msgType.toNat == mt)) }) s)
  else ([], s)

/-- The TLVs of a Signaling message in order. -/
def signalTlvs (p : Nat) (b : Bool) (src : Option Nat) (mac : BitVec 48) (ip : BitVec 128) :
    Nat → Bytes → State → Bytes × State
  | 0, _, s => ([], s)
  | fuel + 1, t, s =>
    if t.length < 4 ∨ t.length < 4 + field t 2 2 then ([], s) else
    let n := field t 2 2
    let (r, s1) := signalTlv p b src mac ip (field t 0 2) ((t.drop 4).take n) s
    let (rs, s2) := signalTlvs p b src mac ip fuel (t.drop (4 + n)) s1
    (r ++ rs, s2)

/-- A unicast Signaling message (R262, R265): its requests are granted or denied, and answered in
one Signaling message. -/
def execSignaling (port : Fin 8) (s : State) : Out :=
  match claimedOf s port 1 with
  | none => .next s
  | some c =>
    let s1 := unclaim port c s
    match claimedMsg s port c.bytes with
    | none => .next (bump cPtpRxIgnored (scPort port) 1 s1)
    | some (m, b, src) =>
      let ip := clientIp s port c.bytes
      let mac : BitVec 48 := BitVec.ofNat 48 (field c.bytes 6 6)
      let s2 := bump cPtpSignalRx (scPort port) 1 (modPort port (fun x => { x with
        grants := x.grants.map (fun g =>
          if g.instB == b && g.ip == ip then { g with mac := mac } else g) }) s1)
      let len := field m 2 2
      let (r, s3) := signalTlvs port b src mac ip len ((m.take len).drop 44) s2
      if r.isEmpty then .next s3 else
      let (seq, s4) := takeSeq port b 12 (some ip) s3
      let dst := some (mac, ip)
      let out := ptpMessage port 12 (byteAt m 4).toNat (uniFlag dst) 0 seq.toNat 0x7F
        (slice m 20 10 ++ r)
      .next (ptpSend port 4 b false false (some ip) dst out s4)

/-- A grant expires (R266). -/
def execGrantExpiry (port : Fin 8) (instB : Bool) (client : BitVec 128) (msgType : BitVec 4)
    (s : State) : Out :=
  .next (modPort port (fun x => { x with
    grants := x.grants.filter (fun g =>
      !(g.instB == instB && g.ip == client && g.msgType == msgType)) }) s)

/-- An ARP request for IP_ADDR is answered with PORT_MAC (R262). -/
def execArpRequest (port : Fin 8) (s : State) : Out :=
  match claimedOf s port 2 with
  | none => .next s
  | some c =>
    let s1 := unclaim port c s
    if !isArp s port c.bytes then .next s1 else
    let b := c.bytes
    let mac := portMac s port
    let reply := slice b 22 6 ++ mac ++ [0x08, 0x06, 0x00, 0x01, 0x08, 0x00, 0x06, 0x04, 0x00, 0x02] ++
      mac ++ portIp s port ++ slice b 22 6 ++ slice b 28 4
    .next (sendTime port { kind := 4, bytes := reply } s1)

/-- A Neighbor Solicitation for IP_ADDR is answered with PORT_MAC (R262). -/
def execNeighborSolicitation (port : Fin 8) (s : State) : Out :=
  match claimedOf s port 3 with
  | none => .next s
  | some c =>
    let s1 := unclaim port c s
    if !isNs s port c.bytes then .next s1 else
    let b := c.bytes
    let mac := portMac s port
    let ip := portIp s port
    -- from the unspecified address: to all nodes, without the Solicited flag
    let dad := decide (field b 22 16 = 0)
    let dmac : Bytes := if dad then [0x33, 0x33, 0, 0, 0, 1] else slice b 6 6
    let dip : Bytes := if dad then [0xFF, 0x02] ++ List.replicate 13 0 ++ [1] else slice b 22 16
    let na0 : Bytes := [136, 0]
    let na1 : Bytes := [if dad then 0x20 else 0x60, 0, 0, 0] ++ ip ++ [2, 1] ++ mac
    let ck := inetSum (ip ++ dip ++ natBytes 4 32 ++ natBytes 4 58 ++ na0 ++ [0, 0] ++ na1)
    let label : Bytes := [0x60 ||| (byteAt (freeBytes s 4) 0 &&& 0x0F)] ++ (freeBytes s 4).drop 1
    let f := dmac ++ mac ++ [0x86, 0xDD] ++ label ++ natBytes 2 32 ++ [58, 255] ++ ip ++ dip ++
      na0 ++ natBytes 2 ck ++ na1
    .next (sendTime port { kind := 4, bytes := f } (drawn s1))

/-! PPS_OUT and TOD_OUT (R276-R278). -/

/-- O in grains, saturating in 32 bits. -/
def satO (o : Int) : Nat := unsigned 32 (max (-(2 ^ 31)) (min (2 ^ 31 - 1) (o / 256)))

/-- The TOD_OUT message of an edge (Table 9-7). -/
def todMessage (s : State) (sec : Int) (pulsed : Bool) : Bytes :=
  let d := s.time.selected
  let x := domOf s d
  let (utc, l61, l59, uv) := utcAt x sec
  let o := outOffset s (now s)
  let flags := 128 * bit l61 + 64 * bit l59 + 32 * bit uv + 16 * bit (timeValid s) +
    8 * bit (decide (o ≠ 0)) + 4 * bit s.time.stepped + 2 * bit (!pulsed)
  let b := natBytes 2 0x4F47 ++ [1, 30] ++ todBytes ⟨BitVec.ofNat 48 sec.toNat, 0⟩ ++
    natBytes 2 (unsigned 16 utc) ++ natBytes 1 flags ++ natBytes 1 (d * 16 + servoCode x.st) ++
    [x.quality] ++ natBytes 1 (annQuality s d).1 ++ natBytes 4 (satO o) ++
    natBytes 2 s.time.todSeq.toNat
  b ++ natBytes 2 (crc16 (bitsOf b))

/-- A scheduled second edge (R276-R278): suppressed within 0.5 s of the last one, else PPS_OUT
rises unless it is disabled or squelched, and a TOD_OUT message is due. -/
def execPpsOutEdge (s : State) : Out :=
  match outTime s (now s) with
  | none => .next s
  | some v =>
    let close := match s.time.lastEdge with
      | some e => decide (tlDiff e (now s) < 26562500000)
      | none => false
    if s.pwr.st = .deepFallow ∨ s.clk.onFio then .next s
    else if close then .next (bump cPpsOutSuppressed scDevice 1 s)
    else
      let sec := (v - setting s sPpsOffset scDevice * 256 + secUnits / 2) / secUnits
      let pulse := settingB s sPpsOutEnable scDevice &&
        !(decide (setting s sPpsSquelch scDevice = 1) && !timeValid s)
      let tb := { s.time with
        lastEdge := some (now s),
        ppsLevel := s.time.ppsLevel || pulse }
      if settingB s sTodEnable scDevice then
        .next (drawn { s with time := { tb with
          pendingTod := some (todMessage s sec pulse),
          todSeq := tb.todSeq + 1,
          stepped := false } })
      else .next { s with time := tb }

/-- PPS_WIDTH after its edge, PPS_OUT falls (R277). -/
def execPpsOutFall (s : State) : Out :=
  .next { s with time := { s.time with ppsLevel := false } }

/-- The TOD_OUT message of the last edge is sent (R278). -/
def execTodOutMessage (s : State) : Out :=
  match s.time.pendingTod, s.clk.onFio with
  | none, _ => .next s
  | some _, true => .next s
  | some b, false => .next { s with time := { s.time with pendingTod := none, todSent := some b } }

/-- RCLK_OUT runs: enabled and not squelched (R279). -/
def rclkRuns (s : State) : Bool :=
  decide (setting s sRclkMode scDevice ≠ 0) && s.clk.pllRunning &&
  (decide (setting s sRclkSquelch scDevice = 0) || s.clk.ref == .line)

end Sys2Proof.Machine
end

