-- ==== Sys2Proof/Machine/Window.lean ====
section
/-! DEFINITION. The I3C target, the register window and the mailbox's window side (spec/20
R526-R540). -/
namespace Sys2Proof.Machine

/-- Change the I3C target. -/
def modI3c (f : I3c → I3c) (s : State) : State := { s with i3c := f s.i3c }

/-- Bytes returned to the controller. -/
def i3cAnswer (b : Bytes) (s : State) : State := modI3c (fun i => { i with lastRead := b, hdr := false }) s

/-! The registers' own behaviour. -/

/-- A write to MB_IN_DATA: stored while CMD_FREE is 1, at MB_IN_PTR, which then advances (R533,
Table 20-10). -/
def mbInWrite (v : BitVec 8) (s : State) : State :=
  if !s.win.cmdFree then s
  else modWin (fun w => { w with
    inbound := tabSet 0 w.inbound w.mbInPtr.toNat v
    inHigh := max w.inHigh (w.mbInPtr.toNat + 1)
    mbInPtr := w.mbInPtr + 1 }) s

/-- A read of MB_OUT_DATA (R535). -/
def mbOutRead (s : State) : State :=
  modI3c (fun i => { i with lastRead := [byteAt s.win.outbound s.win.mbOutPtr.toNat], winAddr := 0x48 })
    (modWin (fun w => { w with mbOutPtr := w.mbOutPtr + 1 }) s)

/-- The doorbell (R533). -/
def doorbell (s : State) : State :=
  if s.win.cmdFree then
    modWin (fun w => { w with cmdFree := false, cmdBusy := true, rung := true, dbReject := false }) s
  else modWin (fun w => { w with dbReject := true }) s

/-- The response that asks for a reset stands in the outbound window (R549). -/
def resetPosted (s : State) : Bool :=
  match s.reeve.resetBy with
  | some (op, tag) => s.win.respValid && decide (field s.win.outbound 0 2 = op.toNat) &&
      decide (field s.win.outbound 4 2 = tag.toNat)
  | none => false

/-- The reset that a command asked for, with the checkpoint before it (R549, R572). -/
def commandedReset (s : State) : State := sysReset (checkpoint false s)

/-- MB_RESP_ACK: the outbound window is released (R535), or the reset of R549 takes place. -/
def respAck (s : State) : State :=
  if !s.win.respValid then s
  else if resetPosted s then commandedReset s
  else busyLook (postResponses (modWin (fun w => { w with respValid := false }) s))

/-- Remove the FIFO's head; a place that becomes free takes EV_SYS_EVENTS_LOST when events were
lost (R537). -/
def popEvent (s : State) : State :=
  match s.reeve.events with
  | [] => s
  | _ :: rest =>
    let s1 := modReeve (fun v => { v with events := rest }) s
    if s1.reeve.lost = 0 then s1
    else pushEvent (mkEvent s1 0x0101 0 s1.reeve.lost none false)
      (modReeve (fun v => { v with lost := 0 }) s1)

/-- A write of ones to INT_STAT clears bits, and their requests end (R539). -/
def clearInt (bits : BitVec 5) (s : State) : State :=
  modI3c (fun i => { i with ibiPending := i.ibiPending &&& ~~~bits })
    (modWin (fun w => { w with intStat := w.intStat &&& ~~~bits }) s)

/-- COMMIT (R531): a bit that becomes enabled while set is signalled at once; when IBI_EN or
ALERT_EN becomes 1, every enabled bit that is set; a request of a disabled bit is withdrawn
(Table 20-10). -/
def winCommit (s : State) : State :=
  let w := s.win
  let opened := decide (w.intCfgStg &&& ~~~w.intCfg ≠ 0)
  let bits := w.intStat &&& w.intEnStg &&& (if opened then 0x1F else ~~~w.intEn)
  requestIbi bits (modI3c (fun i => { i with ibiPending := i.ibiPending &&& w.intEnStg })
    (modWin (fun w => { w with intEn := w.intEnStg, intCfg := w.intCfgStg }) s))

/-- RESTART: a faulted Reeve restarts as SYS_RESET does (R525). -/
def restartReeve (s : State) : State :=
  if s.reeve.lockstepErr || s.reeve.wdog then sysReset s else s

/-- Address after the byte at `a` (R528, R529): it stays at the two data registers, and wraps
within 0x00-0x7F in HDR-DDR. -/
def nextAddr (hdr : Bool) (a : BitVec 8) : BitVec 8 :=
  if a = 0x44 ∨ a = 0x48 then a
  else if hdr then (a + 1) &&& 0x7F
  else a + 1

/-- What a written byte does at a window address (Table 20-2, Table 16-4). Writes to RO and RSVD
addresses are ignored. -/
def windowWrite (a v : BitVec 8) (s : State) : State :=
  let one := v.getLsbD 0
  match a.toNat with
  | 0x18 => clearInt (v.setWidth 5) s
  | 0x1D => if one then popEvent s else s
  | 0x40 => if one then doorbell s else s
  | 0x42 => modWin (fun w => { w with mbInPtr := v.setWidth 2 ++ w.mbInPtr.setWidth 8 }) s
  | 0x43 => modWin (fun w => { w with mbInPtr := w.mbInPtr.extractLsb' 8 2 ++ v }) s
  | 0x44 => mbInWrite v s
  | 0x46 => modWin (fun w => { w with mbOutPtr := v.setWidth 2 ++ w.mbOutPtr.setWidth 8 }) s
  | 0x47 => modWin (fun w => { w with mbOutPtr := w.mbOutPtr.extractLsb' 8 2 ++ v }) s
  | 0x49 => if one then respAck s else s
  | 0x50 => modWin (fun w => { w with intEnStg := v.setWidth 5 }) s
  | 0x51 => modWin (fun w => { w with intCfgStg := v.setWidth 2 }) s
  | 0x52 => if one then winCommit s else s
  | 0x53 => if one then restartReeve s else s
  | 0xC0 => keySelWrite v s
  | 0xC1 => keyCtrlWrite v s
  | n => if 0xC8 ≤ n ∧ n < 0xF0 then keyDataWrite (n - 0xC8) v s else s

/-! The registers as they read (Table 20-2). -/

/-- DEV_STAT. -/
def devStat (s : State) : Nat :=
  let phase := match s.pwr.phase with
    | .stable => 0
    | .entering => 1
    | .waking => 2
  pwrCode s.pwr.st + 4 * phase + 16 * pairCode s.pair.st + 128 * bit s.reeve.lockstepErr + 256 * bit s.reeve.wdog +
    512 * bit s.sec.upstreamInhibit

/-- BOOT_INFO. -/
def bootInfo (s : State) : Nat := 4 * bit s.win.recovery + 2 * bit s.win.fallback + bit s.win.image

/-- MB_STAT. -/
def mbStat (s : State) : Nat :=
  8 * bit s.win.dbReject + 4 * bit s.win.respValid + 2 * bit s.win.cmdBusy + bit s.win.cmdFree

/-- The 24 bytes of an event entry (Table 20-5). -/
def eventBytes (e : Event) : Bytes :=
  natBytes 2 e.code.toNat ++ natBytes 2 e.seq.toNat ++
    natBytes 1 (128 * bit e.tag.isSome + 64 * bit e.mgmt + 32 * bit e.alarm) ++ [0] ++
    natBytes 2 ((e.tag.getD 0).toNat) ++ natBytes 2 e.scope.toNat ++ natBytes 2 e.era.toNat ++
    natBytes 8 e.tl.toNat ++ natBytes 4 e.data.toNat

/-- EVT_HEAD. -/
def evtHead (s : State) : Bytes :=
  match s.reeve.events with
  | [] => List.replicate 24 0
  | e :: _ => eventBytes e

/-- The window's registers below 0x80 as bytes; WO and RSVD addresses read as zero. A W1S bit (POP,
DB, ACK, COMMIT, RESTART) acts when 1 is written and reads as 0 at once: Table 0-3 does not say when
it clears (DESIGN CHOICE, log entry 120). -/
def windowBytes (s : State) : Bytes :=
  let w := s.win
  [0x48, 0x12, 0x00, 0xB0] ++ serialBytes ++ natBytes 4 w.fwVersion.toNat ++          -- 0x00-0x0F
    [w.bootStatus] ++ natBytes 1 (bootInfo s) ++ [0, 0] ++ natBytes 4 (devStat s) ++  -- 0x10-0x17
    natBytes 1 w.intStat.toNat ++ natBytes 1 w.intEn.toNat ++ natBytes 1 w.intCfg.toNat ++ [0] ++
    natBytes 1 s.reeve.events.length ++ [0, 0, 0] ++                                  -- 0x18-0x1F
    evtHead s ++ List.replicate 8 0 ++                                                -- 0x20-0x3F
    [0] ++ natBytes 1 (mbStat s) ++ natBytes 2 w.mbInPtr.toNat ++ [0, 0] ++
    natBytes 2 w.mbOutPtr.toNat ++ [byteAt w.outbound w.mbOutPtr.toNat] ++ List.replicate 7 0 ++
    natBytes 1 w.intEnStg.toNat ++ natBytes 1 w.intCfgStg.toNat ++ List.replicate 46 0

/-- KEY_STAT (Table 16-4). -/
def keyStat (s : State) : Nat :=
  let k := slotOf s s.cry.sel.toNat
  bit s.cry.req.isSome * 2 ^ 31 + s.cry.result.toNat * 2 ^ 28 + k.gen.toNat * 2 ^ 16 +
    bit k.loaded * 2 ^ 15 + bit (k.use != 0) * 2 ^ 14 + bit k.size256 * 2 ^ 12 + k.use * 2 ^ 8 +
    s.cry.sel.toNat

/-- What a read of the window returns. -/
def windowRead (s : State) (a : BitVec 8) : BitVec 8 :=
  if a.toNat < 0x80 then byteAt (windowBytes s) a.toNat
  else if 0xC4 ≤ a.toNat ∧ a.toNat < 0xC8 then byteAt (natBytes 4 (keyStat s)) (a.toNat - 0xC4)
  else 0

/-! The commands on the window. -/

/-- MB_IN_DATA is written. -/
def execMbInDataWrite (value : BitVec 8) (s : State) : Out :=
  .next (addressed (fun s => modI3c (fun i => { i with winAddr := 0x44 }) (mbInWrite value s)) s)

/-- MB_OUT_DATA is read. -/
def execMbOutDataRead (s : State) : Out := .next (addressed mbOutRead s)

/-- MB_DOORBELL. -/
def execMbDoorbell (s : State) : Out := .next (addressed doorbell s)

/-- MB_RESP_ACK. -/
def execMbRespAck (s : State) : Out := .next (addressed respAck s)

/-- EVT_POP. -/
def execEvtPop (s : State) : Out := .next (addressed popEvent s)

/-- INT_STAT. -/
def execIntStatClear (bits : BitVec 5) (s : State) : Out := .next (addressed (clearInt bits) s)

/-- WIN_COMMIT. -/
def execWinCommit (s : State) : Out := .next (addressed winCommit s)

/-- REEVE_CTRL. -/
def execReeveRestart (s : State) : Out := .next (addressed restartReeve s)

/-- A byte of a private write (R528) or of an HDR-DDR write, which reaches no address from 0x80 on
(R529). -/
def execRegisterWrite (addr value : BitVec 8) (s : State) : Out :=
  .next (addressed (fun s =>
    let hdr := s.i3c.hdr
    if hdr && addr.getLsbD 7 then s
    else
      let s1 := windowWrite addr value s
      modI3c (fun i => { i with winAddr := nextAddr hdr addr }) s1) s)

/-! Interrupts (R539). -/

/-- Pending requests in the order in which they are made, with their data bytes (Table 20-6). -/
def ibiOrder : List (Nat × BitVec 8) := [(4, 5), (2, 3), (0, 1), (3, 4), (1, 2)]

/-- The request that is next. -/
def nextIbi (s : State) : Option (Nat × BitVec 8) :=
  ibiOrder.find? (fun p => s.i3c.ibiPending.getLsbD p.1)

/-- An IBI request is made; a NACKed one stays pending. -/
def execIbiRetry (ack : Bool) (s : State) : Out :=
  if !i3cUp s || !s.win.intCfg.getLsbD 1 || !s.i3c.ibiEnabled || !ack then .next s else
  match nextIbi s with
  | some (b, v) => .next (modI3c (fun i => { i with
      ibiPending := i.ibiPending &&& ~~~(1#5 <<< b), lastIbi := some v }) s)
  | none => .next s

/-! Common command codes (Table 20-1). -/

/-- ENTDAA: an address for a target that has none. -/
def execEntdaa (addr : BitVec 7) (s : State) : Out :=
  .next (broadcast (modI3c (fun i => { i with
    dynAddr := if i.dynAddr.isSome then i.dynAddr else some addr, hdr := false })) s)
/-- SETDASA. -/
def execSetdasa (addr : BitVec 7) (s : State) : Out :=
  .next (addressed (modI3c (fun i => { i with
    dynAddr := if i.dynAddr.isSome then i.dynAddr else some addr, hdr := false })) s)
/-- RSTDAA (R527). -/
def execRstdaa (s : State) : Out :=
  .next (broadcast (modI3c (fun i => { i with dynAddr := none, hdr := false })) s)
/-- ENEC. -/
def execEnec (s : State) : Out :=
  .next (broadcast (modI3c (fun i => { i with ibiEnabled := true, hdr := false })) s)
/-- DISEC. -/
def execDisec (s : State) : Out :=
  .next (broadcast (modI3c (fun i => { i with ibiEnabled := false, hdr := false })) s)
/-- Lengths below 16 are taken as 16 (Table 20-1). -/
def atLeast16 (n : BitVec 16) : BitVec 16 := if n.toNat < 16 then 16 else n
/-- SETMWL. -/
def execSetmwl (n : BitVec 16) (s : State) : Out :=
  .next (broadcast (modI3c (fun i => { i with mwl := atLeast16 n, hdr := false })) s)
/-- SETMRL. -/
def execSetmrl (n : BitVec 16) (s : State) : Out :=
  .next (broadcast (modI3c (fun i => { i with mrl := atLeast16 n, hdr := false })) s)
/-- GETMWL. -/
def execGetmwl (s : State) : Out :=
  .next (addressed (fun s => i3cAnswer (natBytes 2 s.i3c.mwl.toNat) s) s)
/-- GETMRL. -/
def execGetmrl (s : State) : Out :=
  .next (addressed (fun s => i3cAnswer (natBytes 2 s.i3c.mrl.toNat) s) s)
/-- The provisional ID. -/
def provisionalId (s : State) : Nat :=
  0x2A5C * 2 ^ 33 + 0x4812 * 2 ^ 16 + s.pins.addr.toNat * 2 ^ 12 + 0x0B0
/-- GETPID. -/
def execGetpid (s : State) : Out :=
  .next (addressed (fun s => i3cAnswer (natBytes 6 (provisionalId s)) s) s)
/-- GETBCR. -/
def execGetbcr (s : State) : Out := .next (addressed (i3cAnswer [0x26]) s)
/-- GETDCR. -/
def execGetdcr (s : State) : Out := .next (addressed (i3cAnswer [0x00]) s)
/-- GETSTATUS: the spec does not state the bits, which are free. -/
def execGetstatus (s : State) : Out :=
  .next (addressed (fun s => drawn (i3cAnswer (freeBytes s 2) s)) s)
/-- GETCAPS reports HDR-DDR, bit 0 of the first byte; the other bits, which the spec does not
state, are free. -/
def execGetcaps (s : State) : Out :=
  .next (addressed (fun s =>
    let b := freeBytes s 4
    drawn (i3cAnswer ((byteAt b 0 ||| 1) :: b.drop 1) s)) s)
/-- ENTHDR0: HDR-DDR until the exit pattern, which precedes the next common command code. -/
def execEnthdr0 (s : State) : Out :=
  .next (broadcast (modI3c (fun i => { i with hdr := true })) s)

end Sys2Proof.Machine
end

