-- ==== Sys2Proof/Machine/Reeve.lean ====
section
/-! DEFINITION. The Reeve's side of the host interface: faults, taking commands, management lots,
the SYS_ commands (spec/20 R524, R525, R532-R535, R543-R550). -/
namespace Sys2Proof.Machine

/-! Faults (R524). -/

/-- Both cores halt: REEVE_FAULT is set and CMD_FREE held at 0. -/
def reeveFault (f : Reeve → Reeve) (s : State) : State :=
  setInt intReeveFault (modWin (fun w => { w with cmdFree := false })
    (modReeve (fun v => { f v with halted := true }) s))

/-- The comparator reports a mismatch. -/
def execLockstepMismatch (s : State) : Out :=
  .next (if s.pins.inReset then s else reeveFault (fun v => { v with lockstepErr := true }) s)

/-- The watchdog expires. -/
def execReeveWatchdogExpiry (s : State) : Out :=
  .next (if s.pins.inReset then s else reeveFault (fun v => { v with wdog := true }) s)

/-- The temperature is sampled: one second in its bin (R574, Table 22-2). Below −40 °C the lowest
bin counts. -/
def execTempSample (celsius : Int) (s : State) : Out :=
  let k := min 16 ((celsius + 40) / 10).toNat
  .next { s with life := { s.life with
    live := { s.life.live with tj := tabMod 0 s.life.live.tj k (fun v => v + 1) } } }

/-! Commands as they arrive (R532-R534, Table 20-3). -/

/-- Commands of each family (Table 20-11). -/
def familySize (f : Nat) : Nat :=
  match f with
  | 1 => 3
  | 2 => 5
  | 3 => 5
  | 4 => 4
  | 5 => 4
  | 6 => 6
  | 7 => 4
  | 8 => 2
  | 9 => 5
  | 10 => 3
  | 11 => 4
  | 12 => 5
  | 13 => 4
  | 14 => 4
  | 15 => 4
  | 16 => 3
  | _ => 0

/-- The opcode is defined. -/
def opDefined (op : Nat) : Bool :=
  decide (1 ≤ op % 256) && decide (op % 256 ≤ familySize (op / 256))

/-- Firmware has a command's bytes: the first two checks of R534, after which it is taken. `fits`:
the first check as the way it came makes it. -/
def takeCommand (src : CmdSrc) (b : Bytes) (fits : Nat → Bool) (s : State) : State :=
  let op := field b 0 2
  let len := field b 2 2
  let fl := field b 6 2
  let c : Cmd := { src := src, tag := BitVec.ofNat 16 (field b 4 2), mirror := fl.testBit 15
                   atSwath := fl.testBit 14, rsvd := BitVec.ofNat 14 fl, payload := slice b 8 len }
  if 1016 < len ∨ !fits len then answer op c { status := 3 } s
  else if !opDefined op || c.rsvd != 0 then answer op c (refuse 4 0 0 s).1 s
  else modReeve (fun v => { v with taken := v.taken ++ [{ opcode := BitVec.ofNat 16 op, cmd := c }] }) s

/-- The mailbox's command is copied and the inbound window freed (R533). -/
def takeMailbox (s : State) : State :=
  let w := s.win
  let b := (List.range 1024).map (fun i => tabGet (0 : BitVec 8) w.inbound i)
  let s1 := modReeve (fun v => { v with lastFromMailbox := true }) (modWin (fun w => { w with
    inbound := [], inHigh := 0, mbInPtr := 0, cmdFree := true, rung := false }) s)
  busyLook (takeCommand .mailbox b (fun len => decide (8 + len ≤ w.inHigh)) s1)

/-- The oldest command of an instance's management queue is taken (R545). -/
def takeMgmt (i : Fin 2) (m : MgmtCmd) (s : State) : State :=
  let s1 := modReeve (fun v => { v with
    lastFromMailbox := false
    mgmt0 := if i = 0 then v.mgmt0.drop 1 else v.mgmt0
    mgmt1 := if i = 1 then v.mgmt1.drop 1 else v.mgmt1 }) s
  takeCommand (.mgmt i m.lotId m.keyIdx) m.payload (fun len => decide (m.payload.length = 8 + len))
    (bump cMgmtRx (scInst i) 1 s1)

/-- The management command that is next: instance P's queue before S's. -/
def nextMgmt (s : State) : Option (Fin 2 × MgmtCmd) :=
  match s.reeve.mgmt0, s.reeve.mgmt1 with
  | m :: _, _ => some (0, m)
  | [], m :: _ => some (1, m)
  | [], [] => none

/-- Firmware takes the next command, from the mailbox and the management queues alternately
(R545). -/
def execCommandTaken (s : State) : Out :=
  if !reeveRuns s || s.pins.inReset then .next s else
  match s.win.rung, nextMgmt s with
  | true, some (i, m) => .next (if s.reeve.lastFromMailbox then takeMgmt i m s else takeMailbox s)
  | true, none => .next (takeMailbox s)
  | false, some (i, m) => .next (takeMgmt i m s)
  | false, none => .next s

/-! Management lots (R543-R545, R511). -/

/-- Commands queued for an instance. -/
def mgmtQueue (s : State) (i : Nat) : List MgmtCmd := if i = 0 then s.reeve.mgmt0 else s.reeve.mgmt1

/-- The group's oldest management lot is checked and queued. A paired chip that is not the active
discards its copy (R511). -/
def execManagementLot (group : Fin 4) (s : State) : Out :=
  if !reeveRuns s then .next s else
  match takeLot group s.toReeve with
  | none => .next s
  | some (d, rest) =>
    let s1 := { s with toReeve := rest }
    let i := groupOwner s1 group
    let m : MgmtCmd := { lotId := d.lotId, keyIdx := d.keyIdx, payload := d.bytes }
    if !(s1.pair.st == .solo || s1.pair.st == .active) then .next s1
    else if d.bytes.length < 8 ∨ 1024 < d.bytes.length then
      .next (bump cLenErr (scLot d.lotId.toNat) 1 s1)
    else if lifeCycle s1 = 2 ∧ d.keyIdx = 0 then .next (bump cMgmtClear (scInst i) 1 s1)
    else if 16 ≤ (mgmtQueue s1 i).length then .next (bump cMgmtOverflow (scInst i) 1 s1)
    else .next (modReeve (fun v =>
      if i = 0 then { v with mgmt0 := v.mgmt0 ++ [m] } else { v with mgmt1 := v.mgmt1 ++ [m] }) s1)

/-! The SYS_ commands. -/

/-- SYS_GET_INFO. -/
def sysGetInfoBody : CmdBody := fixedCmd 0 fun _ _ s =>
  stOk ([0x48, 0x12, 0x00, 0xB0] ++ serialBytes ++ natBytes 4 s.win.fwVersion.toNat ++
    [s.win.bootStatus] ++ natBytes 1 (bootInfo s) ++ natBytes 2 1 ++ natBytes 2 ownRevMin ++
    natBytes 2 ownRevMax) s

/-- SYS_GET_INFO. -/
def execSysGetInfo (c : Cmd) (s : State) : Out := .next (runCmd 0x0101 sysGetInfoBody c s)

/-- SYS_RESET (R549). -/
def sysResetBody : CmdBody := fixedCmd 0 fun _ c s => stOk [] (askReset 0x0102 c s)

/-- SYS_RESET. -/
def execSysReset (c : Cmd) (s : State) : Out := .next (runCmd 0x0102 sysResetBody c s)

/-- Ten ms after the response was posted, the reset takes place without acknowledgement (R549). -/
def execSysResetDeferred (s : State) : Out :=
  .next (if resetPosted s then commandedReset s else s)

/-- Change an image region. -/
def modRegion (img : Bool) (f : Tab (BitVec 8) → Tab (BitVec 8)) (s : State) : State :=
  { s with flash := if img then { s.flash with b := f s.flash.b } else { s.flash with a := f s.flash.a } }

/-- The region holds the running image (Table 20-9). -/
def regionRuns (s : State) (img : Bool) : Bool := s.win.bootStatus == 2 && s.win.image == img

/-- The region is erased: every byte reads 0xFF and no ERASE is under way. -/
def regionErased (s : State) (img : Bool) : Bool :=
  (if img then s.flash.b else s.flash.a).isEmpty &&
  (if img then s.flash.freeB else s.flash.freeA).isNone && !(s.flash.erasing.any (fun e => e.1 == img))

/-- SYS_FW_ACTIVATE WRITE: a chunk under the rules of R299. -/
def fwWrite (img : Bool) (p : Bytes) (s : State) : Reply × State :=
  let first := (byteAt p 4).getLsbD 7
  let last := (byteAt p 4).getLsbD 6
  let data := p.drop 8
  let off := field p 0 4
  let dropped := { s with flash := { s.flash with load := none } }
  let expect : Option Nat :=
    if first then some 0
    else match s.flash.load with
      | some (r, n) => if r = img then some n else none
      | none => none
  if first && !regionErased s img then notInState dropped
  else if expect ≠ some off ∨ 0x100000 < off + data.length then badArg 0 0 dropped
  else
    let s1 := modRegion img (fun t => data.zipIdx.foldl (fun t e => tabSet 0xFF t (off + e.2) e.1) t) s
    let s2 := { s1 with flash := { s1.flash with
      load := if last then none else some (img, off + data.length) } }
    if last then stOk [] s2 else stPending s2

/-- SYS_FW_ACTIVATE (R550, Table 20-9). -/
def sysFwActivateBody : CmdBody := fun c s =>
  let p := c.payload
  let op := (byteAt p 0).toNat
  let img := byteAt p 1 == 1
  let n := p.length
  if n < 8 ∨ (if op = 1 then n < 16 ∨ 1016 < n else n ≠ 8) then badLength s
  else if 3 < op ∨ 1 < (byteAt p 1).toNat then badArg 0 0 s
  else if op ≤ 1 ∧ regionRuns s img then stDenied s
  else if op = 0 then
    if s.flash.erasing.isSome then stBusy s
    else stPending { s with flash := { s.flash with load := none, erasing := some (img, c.tag) } }
  else if op = 1 then fwWrite img (p.drop 8) s
  else
    let k := imageCheck s img
    if op = 2 then stOk ([k.result, 0, 0, 0] ++ natBytes 4 k.fwVersion.toNat) s
    else if s.pwr.phase ≠ .stable then stBusy s
    else if k.result ≠ 0 then badArg 0 0 s
    else stOk [] (setBoot 4 (askReset 0x0103 c
      { s with flash := { s.flash with active := some img } }))

/-- SYS_FW_ACTIVATE. -/
def execSysFwActivate (c : Cmd) (s : State) : Out := .next (runCmd 0x0103 sysFwActivateBody c s)

/-- A region's free contents: the draw they come from, or none. -/
def setRegionFree (img : Bool) (f : Option Nat) (s : State) : State :=
  { s with flash := if img then { s.flash with freeB := f } else { s.flash with freeA := f } }

/-- An ERASE ends: EV_SYS_FW_DONE carries its TAG. What a failed one leaves in the region the spec
does not say: its bytes are free. -/
def execFwEraseDone (ok : Bool) (s : State) : Out :=
  match s.flash.erasing with
  | none => .next s
  | some (img, tag) =>
    let s1 := modRegion img (fun _ => []) { s with flash := { s.flash with erasing := none } }
    let s2 := if ok then setRegionFree img none s1
      else drawn (setRegionFree img (some s1.freeCtr) s1)
    .next (raiseTag 0x0102 (bit img) (bit (!ok)) tag false s2)

end Sys2Proof.Machine
end

