-- ==== Sys2Proof/Machine/Swath.lean ====
section
/-! DEFINITION. A swath boundary of a bonding group, with the commands that wait for one (spec/20
R541, R542; spec/03 R609). -/
namespace Sys2Proof.Machine

/-- A waiting change is due at the boundary of SC `sc`: the next boundary, or its AT_SWATH has been
reached. -/
def deferredDue (sc : BitVec 48) (d : Deferred) : Bool :=
  match d.sc with
  | none => true
  | some x => decide (0 ≤ scDiff x sc)

/-- A waiting command takes effect (R541). Without AT_SWATH it answers now; with it, the answer was
ST_PENDING and EV_LINE_APPLIED reports the effect (Table 21-10). -/
def applyDeferred (o0 o1 : Optics) (sc : BitVec 48) (d : Deferred) (s : State) : State :=
  match bodyOf o0 o1 d.opcode.toNat with
  | none => s
  | some b =>
    let op := d.opcode.toNat
    let call := splitCall d.cmd
    let s0 := modReeve (fun v => { v with deferred := v.deferred.erase d }) s
    let (r, s1) := b { call with payload := d.body, sc := none } s0
    let s2 := markMgmt call.mgmt s0 s1
    if d.sc.isSome then
      if isError r then s2 else raiseTag 0x0308 0 (sc.toNat % 2 ^ 32) d.cmd.tag call.mgmt s2
    else answer op d.cmd r s2

/-- The boundary of group `group` with SC `sc`. When it is the timing lane's, the Reeve's waiting
commands take effect, in order; the optics modules read as given if a lane is enabled. Lanes rejoin
first (R84); a group that then has no included lane has no boundary (R609). A lane that rejoins a
group without an included lane does so at its own marker, which is the group's boundary again:
DEDUCED, log entry 97. -/
def execSwathBoundary (group : Fin 4) (sc : BitVec 48) (optics0 optics1 : Optics) (s0 : State) : Out :=
  let s := rejoinLanes group sc (bondSettle group s0)
  if (includedOf s group).isEmpty then .next s
  else
    let timing := (lanesOf s group).contains (timingLane s)
    let s1 := boundaryOps group sc s
    if timing then
      .next (each (applyDeferred optics0 optics1 sc) (s1.reeve.deferred.filter (deferredDue sc)) s1)
    else .next s1

end Sys2Proof.Machine
end

