-- ==== Sys2Proof/Machine/Dispatch.lean ====
section
/-! DEFINITION. The dispatch: one arm per command. -/
namespace Sys2Proof.Machine

def exec (i : Instr) (s : State) : Host.Outcome State Fault Refusal :=
  match i with
  | .vddAonPowerOn => Sys2Proof.Machine.execVddAonPowerOn s
  | .resetNAssert => Sys2Proof.Machine.execResetNAssert s
  | .resetNRelease addr testMode => Sys2Proof.Machine.execResetNRelease addr testMode s
  | .pwrgoodFall => Sys2Proof.Machine.execPwrgoodFall s
  | .pwrgoodRise addr testMode => Sys2Proof.Machine.execPwrgoodRise addr testMode s
  | .bootImageCheckDone read => Sys2Proof.Machine.execBootImageCheckDone read s
  | .rootPllLock => Sys2Proof.Machine.execRootPllLock s
  | .refclkLost => Sys2Proof.Machine.execRefclkLost s
  | .refclkReturn => Sys2Proof.Machine.execRefclkReturn s
  | .timelineWrap => Sys2Proof.Machine.execTimelineWrap s
  | .discardHoldover => Sys2Proof.Machine.execDiscardHoldover s
  | .cdrLock lane ppb => Sys2Proof.Machine.execCdrLock lane ppb s
  | .cdrUnlock lane => Sys2Proof.Machine.execCdrUnlock lane s
  | .rawMarkerMatch lane lastBit => Sys2Proof.Machine.execRawMarkerMatch lane lastBit s
  | .codewordDecoded lane start word => Sys2Proof.Machine.execCodewordDecoded lane start word s
  | .cw0NotReceived lane start => Sys2Proof.Machine.execCw0NotReceived lane start s
  | .resumeTimeout lane => Sys2Proof.Machine.execResumeTimeout lane s
  | .ctleAdaptStep lane up => Sys2Proof.Machine.execCtleAdaptStep lane up s
  | .lineSetEqApply lane => Sys2Proof.Machine.execLineSetEqApply lane s
  | .swathBoundary group sc optics0 optics1 => Sys2Proof.Machine.execSwathBoundary group sc optics0 optics1 s
  | .lotHeaderRelease group => Sys2Proof.Machine.execLotHeaderRelease group s
  | .fragReassemblyTimeout lotId => Sys2Proof.Machine.execFragReassemblyTimeout lotId s
  | .plantReport group => Sys2Proof.Machine.execPlantReport group s
  | .managementLot group => Sys2Proof.Machine.execManagementLot group s
  | .furrowMapEntry group sc entry => Sys2Proof.Machine.execFurrowMapEntry group sc entry s
  | .headerSamplePoint ltx => Sys2Proof.Machine.execHeaderSamplePoint ltx s
  | .burstEnable ltx => Sys2Proof.Machine.execBurstEnable ltx s
  | .burstEnd ltx => Sys2Proof.Machine.execBurstEnd ltx s
  | .laserWatchdog ltx => Sys2Proof.Machine.execLaserWatchdog ltx s
  | .watchdogRefclkTrip ltx => Sys2Proof.Machine.execWatchdogRefclkTrip ltx s
  | .fragAbandonTx queue => Sys2Proof.Machine.execFragAbandonTx queue s
  | .gaspInAssert => Sys2Proof.Machine.execGaspInAssert s
  | .gaspInClear => Sys2Proof.Machine.execGaspInClear s
  | .heProfile m => Sys2Proof.Machine.execHeProfile m s
  | .assignId m => Sys2Proof.Machine.execAssignId m s
  | .rangingTime m => Sys2Proof.Machine.execRangingTime m s
  | .assignPlot m => Sys2Proof.Machine.execAssignPlot m s
  | .assignLot m => Sys2Proof.Machine.execAssignLot m s
  | .deactivate m => Sys2Proof.Machine.execDeactivate m s
  | .silence m => Sys2Proof.Machine.execSilence m s
  | .release m => Sys2Proof.Machine.execRelease m s
  | .tune m optics => Sys2Proof.Machine.execTune m optics s
  | .switchParent m => Sys2Proof.Machine.execSwitchParent m s
  | .toProfileExpiry inst => Sys2Proof.Machine.execToProfileExpiry inst s
  | .toRangeExpiry inst => Sys2Proof.Machine.execToRangeExpiry inst s
  | .toHoldExpiry inst => Sys2Proof.Machine.execToHoldExpiry inst s
  | .toTuneExpiry inst => Sys2Proof.Machine.execToTuneExpiry inst s
  | .tunePoll inst status => Sys2Proof.Machine.execTunePoll inst status s
  | .silenceDurationExpiry inst => Sys2Proof.Machine.execSilenceDurationExpiry inst s
  | .losDeclare lane => Sys2Proof.Machine.execLosDeclare lane s
  | .losClear lane => Sys2Proof.Machine.execLosClear lane s
  | .lolDeclare lane => Sys2Proof.Machine.execLolDeclare lane s
  | .lolClear lane => Sys2Proof.Machine.execLolClear lane s
  | .ltmDeclare dom => Sys2Proof.Machine.execLtmDeclare dom s
  | .rdiEvaluation => Sys2Proof.Machine.execRdiEvaluation s
  | .holdOffExpiry inst => Sys2Proof.Machine.execHoldOffExpiry inst s
  | .binClose day misreads => Sys2Proof.Machine.execBinClose day s misreads
  | .binSecondEnd => Sys2Proof.Machine.execBinSecondEnd s
  | .timeSow m => Sys2Proof.Machine.execTimeSow m s
  | .fitWindowEnd => Sys2Proof.Machine.execFitWindowEnd s
  | .holdValidExpiry dom => Sys2Proof.Machine.execHoldValidExpiry dom s
  | .slewDone => Sys2Proof.Machine.execSlewDone s
  | .ppsInEdge edge => Sys2Proof.Machine.execPpsInEdge edge s
  | .ppsInLost => Sys2Proof.Machine.execPpsInLost s
  | .rxFrameStart port capture => Sys2Proof.Machine.execRxFrameStart port capture s
  | .rxFrameEnd port frame => Sys2Proof.Machine.execRxFrameEnd port frame s
  | .pauseExpiry port => Sys2Proof.Machine.execPauseExpiry port s
  | .pcsStatusChange port up locks => Sys2Proof.Machine.execPcsStatusChange port up locks s
  | .linkUpDelayExpiry port => Sys2Proof.Machine.execLinkUpDelayExpiry port s
  | .faultOrderedSetRx port remote => Sys2Proof.Machine.execFaultOrderedSetRx port remote s
  | .faultCleared port => Sys2Proof.Machine.execFaultCleared port s
  | .blockLockLoss port lane => Sys2Proof.Machine.execBlockLockLoss port lane s
  | .hiBer port => Sys2Proof.Machine.execHiBer port s
  | .slCtleAdapt lane up => Sys2Proof.Machine.execSlCtleAdapt lane up s
  | .hrefclkLost => Sys2Proof.Machine.execHrefclkLost s
  | .hrefclkReturn => Sys2Proof.Machine.execHrefclkReturn s
  | .dsSchedulingDecision port => Sys2Proof.Machine.execDsSchedulingDecision port s
  | .txFrameDone port => Sys2Proof.Machine.execTxFrameDone port s
  | .delayReq port => Sys2Proof.Machine.execDelayReq port s
  | .signaling port => Sys2Proof.Machine.execSignaling port s
  | .arpRequest port => Sys2Proof.Machine.execArpRequest port s
  | .neighborSolicitation port => Sys2Proof.Machine.execNeighborSolicitation port s
  | .ptpAnnounceTx port instB client => Sys2Proof.Machine.execPtpAnnounceTx port instB client s
  | .ptpSyncTx port instB client => Sys2Proof.Machine.execPtpSyncTx port instB client s
  | .followUp port instB client => Sys2Proof.Machine.execFollowUp port instB client s
  | .grantExpiry port instB client msgType => Sys2Proof.Machine.execGrantExpiry port instB client msgType s
  | .ppsOutEdge => Sys2Proof.Machine.execPpsOutEdge s
  | .ppsOutFall => Sys2Proof.Machine.execPpsOutFall s
  | .todOutMessage => Sys2Proof.Machine.execTodOutMessage s
  | .coulterWalk recirc => Sys2Proof.Machine.execCoulterWalk recirc s
  | .emLookup eccBad eccCorr => Sys2Proof.Machine.execEmLookup eccBad eccCorr s
  | .rehashDone eccCorr => Sys2Proof.Machine.execRehashDone s eccCorr
  | .sweepDone eccCorr => Sys2Proof.Machine.execSweepDone s eccCorr
  | .retireSlow => Sys2Proof.Machine.execRetireSlow s
  | .tineDispatch => Sys2Proof.Machine.execTineDispatch s
  | .nop th f => Sys2Proof.Machine.execNop th f s
  | .add th f => Sys2Proof.Machine.execAdd th f s
  | .sub th f => Sys2Proof.Machine.execSub th f s
  | .and th f => Sys2Proof.Machine.execAnd th f s
  | .or th f => Sys2Proof.Machine.execOr th f s
  | .xor th f => Sys2Proof.Machine.execXor th f s
  | .shl th f => Sys2Proof.Machine.execShl th f s
  | .shr th f => Sys2Proof.Machine.execShr th f s
  | .sra th f => Sys2Proof.Machine.execSra th f s
  | .mul th f => Sys2Proof.Machine.execMul th f s
  | .minu th f => Sys2Proof.Machine.execMinu th f s
  | .maxu th f => Sys2Proof.Machine.execMaxu th f s
  | .mov th f => Sys2Proof.Machine.execMov th f s
  | .cmp th f => Sys2Proof.Machine.execCmp th f s
  | .csadd th f => Sys2Proof.Machine.execCsadd th f s
  | .ext th f => Sys2Proof.Machine.execExt th f s
  | .ins th f => Sys2Proof.Machine.execIns th f s
  | .br th f => Sys2Proof.Machine.execBr th f s
  | .ldw th f => Sys2Proof.Machine.execLdw th f s
  | .stw th f => Sys2Proof.Machine.execStw th f s
  | .push th f => Sys2Proof.Machine.execPush th f s
  | .pop th f => Sys2Proof.Machine.execPop th f s
  | .bmov th f => Sys2Proof.Machine.execBmov th f s
  | .hash th f => Sys2Proof.Machine.execHash th f s
  | .ld th f => Sys2Proof.Machine.execLd th f s
  | .st th f => Sys2Proof.Machine.execSt th f s
  | .atom th f => Sys2Proof.Machine.execAtom th f s
  | .srd th f => Sys2Proof.Machine.execSrd th f s
  | .swr th f => Sys2Proof.Machine.execSwr th f s
  | .satom th f => Sys2Proof.Machine.execSatom th f s
  | .tlook th f => Sys2Proof.Machine.execTlook th f s
  | .elook th f => Sys2Proof.Machine.execElook th f s
  | .meter th f => Sys2Proof.Machine.execMeter th f s
  | .count th f => Sys2Proof.Machine.execCount th f s
  | .setQueue th f => Sys2Proof.Machine.execSetQueue th f s
  | .tsread th f => Sys2Proof.Machine.execTsread th f s
  | .pmcread th f => Sys2Proof.Machine.execPmcread th f s
  | .cipher th f => Sys2Proof.Machine.execCipher th f s
  | .emit th f => Sys2Proof.Machine.execEmit th f s
  | .drop th f => Sys2Proof.Machine.execDrop th f s
  | .recirculate th f => Sys2Proof.Machine.execRecirculate th f s
  | .trap th f => Sys2Proof.Machine.execTrap th f s
  | .serviceResult th ecc eccCorr => Sys2Proof.Machine.execServiceResult th ecc s eccCorr
  | .pmcOverflow harrow tine => Sys2Proof.Machine.execPmcOverflow harrow tine s
  | .sampleTag harrow tine => Sys2Proof.Machine.execSampleTag harrow tine s
  | .cipherOpComplete client => Sys2Proof.Machine.execCipherOpComplete client s
  | .drbgReseed ok => Sys2Proof.Machine.execDrbgReseed ok s
  | .entropyExhausted => Sys2Proof.Machine.execEntropyExhausted s
  | .keySelWrite value => Sys2Proof.Machine.execKeySelWrite value s
  | .keyLoad wrapped size256 => Sys2Proof.Machine.execKeyLoad wrapped size256 s
  | .keyErase => Sys2Proof.Machine.execKeyErase s
  | .keyEraseAll => Sys2Proof.Machine.execKeyEraseAll s
  | .keyRequestCommit => Sys2Proof.Machine.execKeyRequestCommit s
  | .entryE2 => Sys2Proof.Machine.execEntryE2 s
  | .noticeWaitExpiry => Sys2Proof.Machine.execNoticeWaitExpiry s
  | .drainWaitExpiry => Sys2Proof.Machine.execDrainWaitExpiry s
  | .entryE3 => Sys2Proof.Machine.execEntryE3 s
  | .entryE4 slSignal => Sys2Proof.Machine.execEntryE4 slSignal s
  | .entryE5 => Sys2Proof.Machine.execEntryE5 s
  | .slSignal lane => Sys2Proof.Machine.execSlSignal lane s
  | .lineLight lane => Sys2Proof.Machine.execLineLight lane s
  | .lineDark lane => Sys2Proof.Machine.execLineDark lane s
  | .wakeIn => Sys2Proof.Machine.execWakeIn s
  | .i3cWake => Sys2Proof.Machine.execI3cWake s
  | .pwrWake m => Sys2Proof.Machine.execPwrWake m s
  | .rouseDecision chip => Sys2Proof.Machine.execRouseDecision chip s
  | .listenPowerUp lane => Sys2Proof.Machine.execListenPowerUp lane s
  | .wakeComplete failedBanks => Sys2Proof.Machine.execWakeComplete failedBanks s
  | .bufBankGated bank => Sys2Proof.Machine.execBufBankGated bank s
  | .leaseRenewal => Sys2Proof.Machine.execLeaseRenewal s
  | .leaseExpiry => Sys2Proof.Machine.execLeaseExpiry s
  | .roleDrop => Sys2Proof.Machine.execRoleDrop s
  | .roleInChange level => Sys2Proof.Machine.execRoleInChange level s
  | .roleClaim => Sys2Proof.Machine.execRoleClaim s
  | .takeover => Sys2Proof.Machine.execTakeover s
  | .lockYieldExpiry => Sys2Proof.Machine.execLockYieldExpiry s
  | .hello crcOk seq b => Sys2Proof.Machine.execHello crcOk seq b s
  | .helloTx => Sys2Proof.Machine.execHelloTx s
  | .health crcOk seq b => Sys2Proof.Machine.execHealth crcOk seq b s
  | .healthTx => Sys2Proof.Machine.execHealthTx s
  | .mirrorCmd crcOk seq mirrorSeq applySc opcode cmd => Sys2Proof.Machine.execMirrorCmd crcOk seq mirrorSeq applySc opcode cmd s
  | .mirrorAck crcOk seq mirrorSeq status => Sys2Proof.Machine.execMirrorAck crcOk seq mirrorSeq status s
  | .mirrorAckTimeout => Sys2Proof.Machine.execMirrorAckTimeout s
  | .timeCmp crcOk seq exchange reply capture left => Sys2Proof.Machine.execTimeCmp crcOk seq exchange reply capture left s
  | .timeCmpStart left => Sys2Proof.Machine.execTimeCmpStart left s
  | .snapReq crcOk seq schemaMin schemaMax => Sys2Proof.Machine.execSnapReq crcOk seq schemaMin schemaMax s
  | .snapData crcOk seq schema offset bytes => Sys2Proof.Machine.execSnapData crcOk seq schema offset bytes s
  | .snapEnd crcOk seq schema sc length crc optics0 optics1 => Sys2Proof.Machine.execSnapEnd crcOk seq schema sc length crc optics0 optics1 s
  | .snapTimeout => Sys2Proof.Machine.execSnapTimeout s
  | .tetherHealthTimeout => Sys2Proof.Machine.execTetherHealthTimeout s
  | .tetherBlockLockLoss => Sys2Proof.Machine.execTetherBlockLockLoss s
  | .lockstepMismatch => Sys2Proof.Machine.execLockstepMismatch s
  | .reeveWatchdogExpiry => Sys2Proof.Machine.execReeveWatchdogExpiry s
  | .reeveRestart => Sys2Proof.Machine.execReeveRestart s
  | .mbDoorbell => Sys2Proof.Machine.execMbDoorbell s
  | .mbInDataWrite value => Sys2Proof.Machine.execMbInDataWrite value s
  | .mbOutDataRead => Sys2Proof.Machine.execMbOutDataRead s
  | .mbRespAck => Sys2Proof.Machine.execMbRespAck s
  | .evtPop => Sys2Proof.Machine.execEvtPop s
  | .intStatClear bits => Sys2Proof.Machine.execIntStatClear bits s
  | .winCommit => Sys2Proof.Machine.execWinCommit s
  | .registerWrite addr value => Sys2Proof.Machine.execRegisterWrite addr value s
  | .commandTaken => Sys2Proof.Machine.execCommandTaken s
  | .ibiRetry ack => Sys2Proof.Machine.execIbiRetry ack s
  | .sysResetDeferred => Sys2Proof.Machine.execSysResetDeferred s
  | .fwEraseDone ok => Sys2Proof.Machine.execFwEraseDone ok s
  | .tempSample celsius => Sys2Proof.Machine.execTempSample celsius s
  | .entdaa addr => Sys2Proof.Machine.execEntdaa addr s
  | .setdasa addr => Sys2Proof.Machine.execSetdasa addr s
  | .rstdaa => Sys2Proof.Machine.execRstdaa s
  | .enec => Sys2Proof.Machine.execEnec s
  | .disec => Sys2Proof.Machine.execDisec s
  | .setmwl n => Sys2Proof.Machine.execSetmwl n s
  | .setmrl n => Sys2Proof.Machine.execSetmrl n s
  | .getmwl => Sys2Proof.Machine.execGetmwl s
  | .getmrl => Sys2Proof.Machine.execGetmrl s
  | .getpid => Sys2Proof.Machine.execGetpid s
  | .getbcr => Sys2Proof.Machine.execGetbcr s
  | .getdcr => Sys2Proof.Machine.execGetdcr s
  | .getstatus => Sys2Proof.Machine.execGetstatus s
  | .getcaps => Sys2Proof.Machine.execGetcaps s
  | .enthdr0 => Sys2Proof.Machine.execEnthdr0 s
  | .sysGetInfo c => Sys2Proof.Machine.execSysGetInfo c s
  | .sysReset c => Sys2Proof.Machine.execSysReset c s
  | .sysFwActivate c => Sys2Proof.Machine.execSysFwActivate c s
  | .pwrSetState c => Sys2Proof.Machine.execPwrSetState c s
  | .pwrGetState c => Sys2Proof.Machine.execPwrGetState c s
  | .pwrSetDomains c failedBanks => Sys2Proof.Machine.execPwrSetDomains c failedBanks s
  | .pwrReleasePads c => Sys2Proof.Machine.execPwrReleasePads c s
  | .pwrGetWakeReport c => Sys2Proof.Machine.execPwrGetWakeReport c s
  | .lineConfigureLanes c optics0 optics1 => Sys2Proof.Machine.execLineConfigureLanes c optics0 optics1 s
  | .lineSetEq c => Sys2Proof.Machine.execLineSetEq c s
  | .lineSetGroup c => Sys2Proof.Machine.execLineSetGroup c s
  | .lineGetLock c => Sys2Proof.Machine.execLineGetLock c s
  | .lineGetCounters c => Sys2Proof.Machine.execLineGetCounters c s
  | .actStart c => Sys2Proof.Machine.execActStart c s
  | .actStop c => Sys2Proof.Machine.execActStop c s
  | .actGetState c => Sys2Proof.Machine.execActGetState c s
  | .actSetParenting c => Sys2Proof.Machine.execActSetParenting c s
  | .supSetActions c => Sys2Proof.Machine.execSupSetActions c s
  | .supGetDefects c => Sys2Proof.Machine.execSupGetDefects c s
  | .supGetBins c => Sys2Proof.Machine.execSupGetBins c s
  | .supSetThresholds c => Sys2Proof.Machine.execSupSetThresholds c s
  | .timeSetDomains c => Sys2Proof.Machine.execTimeSetDomains c s
  | .timeSelect c => Sys2Proof.Machine.execTimeSelect c s
  | .timeSetAsym c => Sys2Proof.Machine.execTimeSetAsym c s
  | .timeGetFit c => Sys2Proof.Machine.execTimeGetFit c s
  | .timeSetOutputs c => Sys2Proof.Machine.execTimeSetOutputs c s
  | .timeGetStatus c => Sys2Proof.Machine.execTimeGetStatus c s
  | .portConfigure c => Sys2Proof.Machine.execPortConfigure c s
  | .portSetFilters c => Sys2Proof.Machine.execPortSetFilters c s
  | .portSetSheaf c => Sys2Proof.Machine.execPortSetSheaf c s
  | .portGetStats c => Sys2Proof.Machine.execPortGetStats c s
  | .ptpConfigurePort c => Sys2Proof.Machine.execPtpConfigurePort c s
  | .ptpGetPort c => Sys2Proof.Machine.execPtpGetPort c s
  | .clsLoadGraph c => Sys2Proof.Machine.execClsLoadGraph c s
  | .clsSetPatterns c => Sys2Proof.Machine.execClsSetPatterns c s
  | .clsStageRules c => Sys2Proof.Machine.execClsStageRules c s
  | .clsCommit c => Sys2Proof.Machine.execClsCommit c s
  | .clsGetGeneration c => Sys2Proof.Machine.execClsGetGeneration c s
  | .tineLoadProgram c => Sys2Proof.Machine.execTineLoadProgram c s
  | .tineSetPerms c => Sys2Proof.Machine.execTineSetPerms c s
  | .tineGetFaults c => Sys2Proof.Machine.execTineGetFaults c s
  | .pmcConfigure c => Sys2Proof.Machine.execPmcConfigure c s
  | .pmcRead c => Sys2Proof.Machine.execPmcRead c s
  | .pmcSampleStart c => Sys2Proof.Machine.execPmcSampleStart c s
  | .pmcSampleRead c => Sys2Proof.Machine.execPmcSampleRead c s
  | .qosSetQueue c => Sys2Proof.Machine.execQosSetQueue c s
  | .qosSetSched c => Sys2Proof.Machine.execQosSetSched c s
  | .qosSetShaper c => Sys2Proof.Machine.execQosSetShaper c s
  | .qosSetMeter c => Sys2Proof.Machine.execQosSetMeter c s
  | .qosGetQueue c => Sys2Proof.Machine.execQosGetQueue c s
  | .cryBindSlot c => Sys2Proof.Machine.execCryBindSlot c s
  | .crySeal c => Sys2Proof.Machine.execCrySeal c s
  | .cryUnseal c => Sys2Proof.Machine.execCryUnseal c s
  | .cryGetSlot c => Sys2Proof.Machine.execCryGetSlot c s
  | .secGetLifecycle c => Sys2Proof.Machine.execSecGetLifecycle c s
  | .secAdvance c took => Sys2Proof.Machine.execSecAdvance c took s
  | .secDebugChallenge c => Sys2Proof.Machine.execSecDebugChallenge c s
  | .secDebugUnlock c => Sys2Proof.Machine.execSecDebugUnlock c s
  | .pairConfigure c => Sys2Proof.Machine.execPairConfigure c s
  | .pairGetState c => Sys2Proof.Machine.execPairGetState c s
  | .pairYield c => Sys2Proof.Machine.execPairYield c s
  | .pairRejoin c => Sys2Proof.Machine.execPairRejoin c s
  | .lifeRead c => Sys2Proof.Machine.execLifeRead c s
  | .lifeGetSummary c => Sys2Proof.Machine.execLifeGetSummary c s
  | .lifeMark c misreads => Sys2Proof.Machine.execLifeMark c s misreads
  | .usedRecordTimeout dom => Sys2Proof.Machine.execUsedRecordTimeout dom s
  | .atSwathExtrapolatedArrival => Sys2Proof.Machine.execAtSwathExtrapolatedArrival s
  | .debugPortAccess op => Sys2Proof.Machine.execDebugPortAccess op s
  | .trapQueueService reinject => Sys2Proof.Machine.execTrapQueueService reinject s
  | .undefinedFieldMessage m => Sys2Proof.Machine.execUndefinedFieldMessage m s
  | .roleOutReadbackChange level => Sys2Proof.Machine.execRoleOutReadbackChange level s

end Sys2Proof.Machine
end

