-- ==== Sys2Proof/Machine/BurstBits.lean ====
section
/-! DEFINITION. The bits a burst puts on its LTX ball (R100-R104, R106, R112, R121): preamble,
delimiter and codewords, with the lead and the lag, one bit a grain. -/
namespace Sys2Proof.Machine

/-- The preamble pattern: 1 and 0 by turns, starting with 1 (R101). -/
def preambleBits (n : Nat) : List Bool := (List.range n).map (fun i => i % 2 == 0)

/-- The delimiter (R101). -/
def delimiter : Nat := 0xA4F21B7D3C96E058

/-- The register's value at the first payload bit of codeword 0 (R104). -/
def upSeed (x : Nat) : BitVec 31 := if x = 0 then 0x5B3D1E87 else 0x2C94F6A1

/-- The header of the codeword at position `n` of a burst of LTX`x`: CW_INDEX, TX_LANE, CW_HCRC
(R102, Table 2-3). -/
def upCwHeader (x n : Nat) : Nat :=
  let v := n % 2048 * 4 + x % 4
  v * 128 + crc7 v

/-- The symbols of a codeword's header and payload, first sent first: 20 header bits and `p`, whose
bits make whole symbols with them (R34, R103). -/
def cwSymbols (hdr : Nat) (p : Bytes) : List Nat :=
  let v := hdr * 2 ^ (8 * p.length) + beNat p
  let n := (20 + 8 * p.length) / 10
  (List.range n).map (fun i => v / 2 ^ (10 * (n - 1 - i)) % 1024)

/-- The codeword of header `hdr` and payload `p` (scrambled): its symbols and the 30 parity symbols.
The message symbols that a shortened codeword does not send are zero and stand ahead of the header
(R103). -/
def cwBits (hdr : Nat) (p : Bytes) : List Bool :=
  let m := cwSymbols hdr p
  (m ++ rsParity (List.replicate (514 - m.length) 0 ++ m)).flatMap (bitsOfNat 10)

/-- Codewords over a payload of whole codewords' bytes, the last possibly shortened. -/
def cwsBits (x : Nat) : Nat → Nat → Bytes → List Bool
  | 0, _, _ => []
  | fuel + 1, n, p =>
    if p.isEmpty then [] else cwBits (upCwHeader x n) (p.take 640) ++ cwsBits x fuel (n + 1) (p.drop 640)

/-- A lot's bytes from payload byte `off` on: header, payload, and padding to a whole granule. The
payload of an idle lot and the padding are free (DESIGN CHOICE, log entry 23). -/
def lotOut (b : Burst) (off : Nat) (t : TxLot) : Bytes :=
  let n := occupied (lotLen t.hdr)
  let body := natBytes 8 t.hdr.toNat ++ t.payload.take (lotLen t.hdr)
  body ++ (List.range (n - body.length)).map (fun i =>
    Config.fillByte (burstStart b) (off + body.length + i))

/-- The field message of a burst. The tag that an operation still owes is free: no rule says what is
sent in its place (DESIGN CHOICE, log entry 117). -/
def msgOut (b : Burst) : Bytes :=
  match b.msg with
  | none => []
  | some m => m ++ (List.range (48 - m.length)).map (fun i =>
      Config.fillByte (burstStart b) (16 + m.length + i))

/-- The payload of a burst before scrambling: burst header, field message, lots (R106, R112). -/
def burstPayload (b : Burst) : Bytes :=
  b.hdr ++ msgOut b ++
    (lotStarts (firstLotByte b) b.lots).flatMap (fun p => lotOut b p.1 p.2)

/-- The bits of a burst on LTX`x`, from its first preamble bit (R100, R101, R104). -/
def burstBits (x : Nat) (b : Burst) : List Bool :=
  let p := (scramble (upSeed x) (burstPayload b)).1
  preambleBits (preGrains b.furrow.pre) ++ bitsOfNat 64 delimiter ++ cwsBits x (b.k + 1) 0 p

/-- What LTX`x` carries while BEN is high, from S - 8: the burst between a lead and a lag of the
preamble pattern, 8 grains each (R121). The lag starts the pattern again (DEDUCED, log entry 23). -/
def benBits (x : Nat) (b : Burst) : List Bool :=
  preambleBits 8 ++ burstBits x b ++ preambleBits 8

/-- The bit at LTX`x` at the timeline's value; none is electrical idle (R121). A lot whose encryption
is incomplete when its first byte is due goes as an idle lot (R424). -/
def ltxBit (s : State) (x : Nat) : Option Bool :=
  let l := usLaneOf (numberUpTo (now s + 8) s) x
  match l.bursts with
  | b :: _ =>
    if l.ben && b.sending then
      let g := (tlDiff (burstStart b - 8) (now s)).toNat
      (benBits x { b with lots := (lateLots b (g - 8)).1 })[g]?
    else none
  | [] => none

end Sys2Proof.Machine
end

