-- ==== Sys2Proof/Machine/Balls.lean ====
section
/-! DEFINITION. What the balls show, as functions of the state (spec/23 Table 23-5, Table 23-6;
R121, R456, R457, R540). No command reads them but the boundary scan; statements may. -/
namespace Sys2Proof.Machine

/-- Codes of Table 23-5: operates, driven low, driven high, high impedance, electrical idle,
terminated, monitored, ignored, latched, QDR idle, sampled at RESET_N, passive. -/
inductive BallState
  | operates | low | high | hiZ | elecIdle | terminated | monitored | ignored | latched | qdrIdle
  | sampled | passive
  deriving DecidableEq, Repr

/-- Signals of Table 23-6, QDR outputs and inputs as one each. -/
inductive Signal
  | lrx (n : Fin 4) | ltx (n : Fin 2) | ben (n : Fin 2) | refclk | hrefclk | rouseIn
  | optBus | optResetN | optIntN | slRx (n : Fin 8) | tthRx | slTx (n : Fin 8) | tthTx
  | resetN | pwrgood | wakeIn | gaspIn | alertN | i3c | strap | roleOut | roleIn
  | ppsOut | ppsIn | todOut | rclkOut | spiClk | spiCsN | spiIo | tap | tdo | tdiode
  | qdrOut | qdrIn
  deriving DecidableEq, Repr

/-- Firmware has enabled the balls' functions after reset. -/
def firmwareUp (s : State) : Bool := decide (2 ≤ s.win.bootStatus.toNat) && !s.pins.inReset

/-- The column "Reset" of Table 23-6. -/
def resetBall (b : Signal) : BallState :=
  match b with
  | .lrx _ => .terminated
  | .ltx _ => .elecIdle
  | .ben _ => .low
  | .refclk => .monitored
  | .hrefclk => .monitored
  | .rouseIn => .ignored
  | .optBus => .hiZ
  | .optResetN => .low
  | .optIntN => .ignored
  | .slRx _ => .terminated
  | .tthRx => .terminated
  | .slTx _ => .elecIdle
  | .tthTx => .elecIdle
  | .resetN => .monitored
  | .pwrgood => .monitored
  | .wakeIn => .ignored
  | .gaspIn => .ignored
  | .alertN => .hiZ
  | .i3c => .hiZ
  | .strap => .sampled
  | .roleOut => .low
  | .roleIn => .ignored
  | .ppsOut => .low
  | .ppsIn => .ignored
  | .todOut => .high
  | .rclkOut => .low
  | .spiClk => .low
  | .spiCsN => .high
  | .spiIo => .hiZ
  | .tap => .monitored
  | .tdo => .hiZ
  | .tdiode => .passive
  | .qdrOut => .high
  | .qdrIn => .ignored

/-- Power-domain bit whose pads a latched output belongs to (Table 21-6). -/
def padBit (b : Signal) : Option Nat :=
  match b with
  | .ltx n => some (4 + n)
  | .ben n => some (4 + n)
  | .slTx n => some (if n.val < 4 then 6 else 7)
  | .qdrOut => some 46
  | .tthTx => some 47
  | .optBus => some 48
  | .optResetN => some 48
  | .spiClk => some 48
  | .spiCsN => some 48
  | .spiIo => some 48
  | _ => none

/-- The output's pad is latched (R484, R589). -/
def padLatched (s : State) (b : Signal) : Bool :=
  match padBit b with
  | some n => s.pwr.latched.getLsbD n
  | none => false

/-- The columns RUN to DEEP_FALLOW of Table 23-6 for a pad that is not latched; `p` is the code of
the power state. -/
def runBall (s : State) (p : Nat) (b : Signal) : BallState :=
  match b with
  | .lrx n => if p < 2 then (if laneEnabled s n then .operates else .terminated)
      else if p = 2 ∧ s.pwr.listening.getLsbD n then .operates else .terminated
  | .ltx n => if p = 0 ∧ (usLaneOf s n).ben then .operates else .elecIdle
  | .ben n => if p = 0 ∧ (usLaneOf s n).ben then .high else .low
  | .refclk => .monitored
  | .hrefclk => .monitored
  | .rouseIn => if p = 0 then .ignored else .monitored
  | .optBus => if p < 3 then .operates else .hiZ
  | .optResetN => .high
  | .optIntN => if p < 3 then .operates else .ignored
  | .slRx n => if p < 2 ∧ (portOf s (lanePort s n).1).link ≠ .disabled then .operates else .terminated
  | .tthRx => if p < 2 ∧ s.pair.st ≠ .solo then .operates else .terminated
  | .slTx n =>
    if p < 2 ∧ (portOf s (lanePort s n).1).link ≠ .disabled ∧ s.clk.hrefclk then .operates else .elecIdle
  | .tthTx => if p < 2 ∧ s.pair.st ≠ .solo then .operates else .elecIdle
  | .resetN => .monitored
  | .pwrgood => .monitored
  | .wakeIn => if p = 0 ∧ s.pwr.phase ≠ .entering then .ignored else .monitored
  | .gaspIn => .monitored
  | .alertN => if alertLow s then .low else .hiZ
  | .i3c => .operates
  | .strap => .ignored
  | .roleOut => if s.pair.roleOut then .high else .low
  | .roleIn => .monitored
  | .ppsOut => if p < 3 then (if s.time.ppsLevel then .high else .low) else .low
  | .ppsIn => if p < 3 ∧ settingB s sPpsInEnable scDevice then .operates else .ignored
  | .todOut => if p < 3 then .operates else .high
  | .rclkOut => if p < 3 then .operates else .low
  | .spiClk => if p < 2 then .operates else .low
  | .spiCsN => if p < 2 then .operates else .high
  | .spiIo => if p < 2 then .operates else .hiZ
  | .tap => if p < 3 then .monitored else .ignored
  | .tdo => .hiZ
  | .tdiode => .passive
  | .qdrOut => if p < 2 then .operates else .qdrIdle
  | .qdrIn => if p < 2 then .operates else .ignored

/-- What a ball shows. Until firmware has enabled a ball's function it keeps its Reset state (R587);
the ball groups that need no firmware follow the hardware from the release on. -/
def ballState (s : State) (b : Signal) : BallState :=
  let hw := match b with
    | .ben _ => true
    | .roleOut => true
    | .roleIn => true
    | .gaspIn => true
    | .alertN => true
    | .i3c => true
    | .strap => true
    | _ => false
  if s.pins.inReset then resetBall b
  else if !hw && !firmwareUp s then resetBall b
  else if padLatched s b then .latched
  else runBall s (pwrCode s.pwr.st) b

/-- The level at BENx: low in reset, while its pad is latched, and under EXTEST (R124, R457, R484,
R591). -/
def benLevel (s : State) (x : Nat) : Bool :=
  (usLaneOf s x).ben && !s.pins.inReset && !s.sec.extest && !s.pwr.latched.getLsbD (4 + x)

end Sys2Proof.Machine
end

