-- ==== Sys2Proof/Safety.lean ====
section
/-! DEFINITION. What counts as a safe state and a safe step, in the terms that statements use: the
stores in their canonical form, the rings and queues within the sizes the spec gives them, fuses
that only gain bits, enables that only BURST_ENABLE raises, keys that only a key request loads. -/
namespace Sys2Proof.Machine

/-- The stores that many commands write are canonical: settings, counters, scratch (R334), the
program region (R368), the inbound window (R534) and the two regions of the boot flash (R452). -/
def storesWf (s : State) : Bool :=
  tabWf none s.settings && tabWf ({} : Ctr) s.counters && tabWf 0 s.tine.scratch &&
  tabWf 0 s.tine.sram && tabWf 0 s.win.inbound && tabWf 0xFF s.flash.a && tabWf 0xFF s.flash.b

/-- The queues that firmware reads hold no more than the spec gives them room for: events (R537),
management commands (R545), trapped packets (R347), fault records (R352), captures (R218), rouse
decisions (R479). -/
def queuesBounded (s : State) : Bool :=
  decide (s.reeve.events.length ≤ 64) && decide (s.reeve.mgmt0.length ≤ 16) &&
  decide (s.reeve.mgmt1.length ≤ 16) && decide (s.tine.trapQ.length ≤ 256) &&
  decide (s.tine.faultLog.length ≤ 64) && decide (s.time.captures.length ≤ 16) &&
  decide (s.pwr.chips.length ≤ 160)

/-- The rings of closed bins (R182) and of the lifetime store (Table 22-1) hold no more than their
sizes. -/
def ringsBounded (s : State) : Bool :=
  decide (s.sup.closed15.length ≤ 96) && decide (s.sup.closedDay.length ≤ 31) &&
  decide (s.life.checkpoints.length ≤ 64) && decide (s.life.dayBins.length ≤ 32) &&
  decide (s.life.gaps.length ≤ 1024) && decide (s.life.marks.length ≤ 256)

/-- The invariant of every step: stores canonical, queues and rings within their sizes. -/
def Sound (s : State) : Prop :=
  storesWf s = true ∧ queuesBounded s = true ∧ ringsBounded s = true

/-- Every fuse burned in `a` is burned in `b` (R446). -/
def FusesKept (a b : Fuses) : Prop :=
  a.prov &&& b.prov = a.prov ∧ a.sec &&& b.sec = a.sec ∧ a.ret &&& b.ret = a.ret ∧
  a.kek &&& b.kek = a.kek ∧ a.kekCrc &&& b.kekCrc = a.kekCrc ∧
  a.bootKeyHash &&& b.bootKeyHash = a.bootKeyHash ∧
  a.debugKeyHash &&& b.debugKeyHash = a.debugKeyHash

/-- No transmit enable that was low is high (R121, R122). -/
def NoEnableRises (s t : State) : Prop :=
  ∀ x, (usLaneOf t x).ben = true → (usLaneOf s x).ben = true

/-- Every key slot holds the key it held, or none (R425, R435). -/
def NoKeyLoaded (s t : State) : Prop :=
  ∀ k, (slotOf t k).key = (slotOf s k).key ∨ (slotOf t k).key = []

/-- A downstream field message passes every check that R136 to R139 make before its own: it came
on the primary lane of a group that does not listen, it is for this terminal or for all, its TAG
holds, and, addressed to this terminal alone, its FM_SEQ is ahead of the last by less than 128. -/
def Admitted (m : FieldMsg) (s : State) : Prop :=
  let i := groupOwner s m.group
  msgPrimary s m = true ∧ s.pwr.listening = 0 ∧ tagOk s i m = true ∧
  (msgTid m = 0xFFFF ∨ msgTid m = (instOf s i).terminalId ∧
    ∀ q, (instOf s i).lastSeq = some q →
      (msgSeq m - q).toNat ≠ 0 ∧ (msgSeq m - q).toNat < 128)

/-- The parts of a state, one per field, the queue of commands apart. -/
inductive Part
  | clk | lanes | groups | lots | reasm | toTime | toReeve | inQ | us | act | sup | time | qos
  | cry | cls | tine | ports | slanes | pwr | pair | fuses | sec | flash | life | pins | win
  | i3c | reeve | settings | counters | freeCtr
  deriving DecidableEq, Repr

/-- Two states agree in a part. -/
def Same (p : Part) (s t : State) : Prop :=
  match p with
  | .clk => t.clk = s.clk
  | .lanes => t.lanes = s.lanes
  | .groups => t.groups = s.groups
  | .lots => t.lots = s.lots
  | .reasm => t.reasm = s.reasm
  | .toTime => t.toTime = s.toTime
  | .toReeve => t.toReeve = s.toReeve
  | .inQ => t.inQ = s.inQ
  | .us => t.us = s.us
  | .act => t.act = s.act
  | .sup => t.sup = s.sup
  | .time => t.time = s.time
  | .qos => t.qos = s.qos
  | .cry => t.cry = s.cry
  | .cls => t.cls = s.cls
  | .tine => t.tine = s.tine
  | .ports => t.ports = s.ports
  | .slanes => t.slanes = s.slanes
  | .pwr => t.pwr = s.pwr
  | .pair => t.pair = s.pair
  | .fuses => t.fuses = s.fuses
  | .sec => t.sec = s.sec
  | .flash => t.flash = s.flash
  | .life => t.life = s.life
  | .pins => t.pins = s.pins
  | .win => t.win = s.win
  | .i3c => t.i3c = s.i3c
  | .reeve => t.reeve = s.reeve
  | .settings => t.settings = s.settings
  | .counters => t.counters = s.counters
  | .freeCtr => t.freeCtr = s.freeCtr

/-- Two states agree in every part but `ps`. -/
def Only (ps : List Part) (s t : State) : Prop := ∀ p, p ∉ ps → Same p s t

/-- The command answers a next state of which `P` holds. -/
def Answers (i : Instr) (s : State) (P : State → Prop) : Prop := ∃ t, exec i s = .next t ∧ P t

/-- The parts that raising an event writes: the event queue, INT_STAT, requests for IBIs, the
count of lost events (R537-R539). -/
def raising : List Part := [.win, .i3c, .reeve, .counters]

/-- The parts that counting writes: those of an event (R55), the bins (R185), the lifetime totals
(Table 22-2). -/
def counting : List Part := raising ++ [.sup, .life]

/-- What a tick may write: the timeline, a burst whose window ends, frames that arrive, the tines'
counters and what each of these raises. -/
def ticking : List Part :=
  [.clk, .us, .sup, .qos, .ports, .pwr, .pair, .tine, .life, .win, .i3c, .reeve, .counters, .freeCtr]

/-- Every part. -/
def everything : List Part :=
  raising ++ [.sup, .life, .clk, .lanes, .groups, .lots, .reasm, .toTime, .toReeve, .inQ, .us,
   .act, .time, .qos, .cry, .cls, .tine, .ports, .slanes, .pwr, .pair, .fuses, .sec, .flash,
   .pins, .settings, .freeCtr]

/-- The parts of a state that a command may write. -/
def writes (i : Instr) : List Part :=
  match i with
  | .vddAonPowerOn | .resetNAssert | .resetNRelease _ _ | .pwrgoodFall | .pwrgoodRise _ _
  | .reeveRestart | .mbRespAck | .registerWrite _ _ | .sysResetDeferred => everything
  | .bootImageCheckDone _ => raising ++ [.cry, .cls, .tine, .settings, .freeCtr]
  | .rootPllLock | .discardHoldover => raising ++ [.clk]
  | .refclkLost => counting ++ [.clk, .us, .qos, .ports, .pwr, .pair, .freeCtr]
  | .refclkReturn => [.clk, .us]
  | .timelineWrap | .hrefclkReturn => [.clk]
  | .cdrLock _ _ | .cdrUnlock _ | .ctleAdaptStep _ _ => [.lanes]
  | .listenPowerUp _ => [.lanes, .sup]
  | .rawMarkerMatch _ _ => counting ++ [.lanes]
  | .codewordDecoded _ _ _ | .cw0NotReceived _ _ =>
    counting ++ [.clk, .lanes, .groups, .lots, .reasm, .us, .act, .qos, .cls, .ports, .pwr,
      .pair, .freeCtr]
  | .resumeTimeout _ =>
    counting ++ [.clk, .lanes, .groups, .lots, .reasm, .us, .act, .qos, .ports, .pwr, .pair,
      .freeCtr]
  | .lineSetEqApply _ => [.lanes, .settings]
  | .swathBoundary _ _ _ _ | .mirrorCmd _ _ _ _ _ _ | .snapEnd _ _ _ _ _ _ _ _ =>
    counting ++ [.clk, .lanes, .groups, .lots, .reasm, .us, .act, .time, .qos, .cry, .cls,
      .tine, .ports, .slanes, .pwr, .pair, .settings, .freeCtr]
  | .lotHeaderRelease _ =>
    counting ++ [.lanes, .groups, .reasm, .toTime, .toReeve, .inQ, .qos, .cry, .pwr, .freeCtr]
  | .fragReassemblyTimeout _ => counting ++ [.reasm, .qos, .pwr, .freeCtr]
  | .plantReport _ => counting ++ [.groups, .toTime, .time, .freeCtr]
  | .managementLot _ => counting ++ [.toReeve]
  | .furrowMapEntry _ _ _ => counting ++ [.us]
  | .headerSamplePoint _ => counting ++ [.us, .act, .qos, .cry, .pwr, .freeCtr]
  | .burstEnable _ | .burstEnd _ | .laserWatchdog _ | .watchdogRefclkTrip _ | .leaseExpiry
  | .roleDrop | .roleInChange _ | .roleClaim | .takeover | .hello _ _ _ | .snapData _ _ _ _ _
  | .snapTimeout | .roleOutReadbackChange _ =>
    counting ++ [.us, .qos, .ports, .pwr, .pair, .freeCtr]
  | .fragAbandonTx _ => counting ++ [.us, .qos, .pwr, .freeCtr]
  | .gaspInAssert => [.life, .pins]
  | .gaspInClear => [.pins]
  | .heProfile _ | .assignId _ | .silence _ | .tune _ _ | .health _ _ _ | .tetherHealthTimeout
  | .tetherBlockLockLoss | .pwrReleasePads _ | .pairRejoin _ =>
    counting ++ [.us, .act, .qos, .ports, .pwr, .pair, .freeCtr]
  | .rangingTime _ => counting ++ [.us, .act]
  | .assignPlot _ | .switchParent _ | .holdOffExpiry _ | .commandTaken => counting ++ [.act]
  | .assignLot _ => counting ++ [.lots, .reasm, .act, .qos, .cls, .pwr, .freeCtr]
  | .deactivate _ | .release _ | .toProfileExpiry _ | .toRangeExpiry _ | .toHoldExpiry _
  | .toTuneExpiry _ | .tunePoll _ _ | .silenceDurationExpiry _ | .actStop _ =>
    counting ++ [.lots, .reasm, .us, .act, .qos, .ports, .pwr, .pair, .freeCtr]
  | .losDeclare _ | .losClear _ => raising ++ [.lanes, .sup]
  | .lolDeclare _ | .lolClear _ | .binSecondEnd => raising ++ [.sup]
  | .rdiEvaluation => counting ++ [.act]
  | .ltmDeclare _ | .ppsInEdge _ | .usedRecordTimeout _ => counting ++ [.time]
  | .binClose _ _ => [.sup, .life]
  | .timeSow _ => counting ++ [.act, .time, .freeCtr]
  | .holdValidExpiry _ => [.sup, .time, .life]
  | .fitWindowEnd | .slewDone | .ppsInLost => raising ++ [.time]
  | .rxFrameStart _ _ => counting ++ [.qos, .ports, .freeCtr]
  | .rxFrameEnd _ _ => counting ++ [.inQ, .qos, .cls, .ports, .pwr, .freeCtr]
  | .pauseExpiry _ | .grantExpiry _ _ _ _ => [.ports]
  | .pcsStatusChange _ _ _ | .linkUpDelayExpiry _ | .faultOrderedSetRx _ _ | .faultCleared _
  | .blockLockLoss _ _ | .hiBer _ | .dsSchedulingDecision _ =>
    counting ++ [.us, .qos, .ports, .pwr, .freeCtr]
  | .slCtleAdapt _ _ => [.slanes]
  | .hrefclkLost => counting ++ [.clk, .us, .qos, .ports, .pwr, .freeCtr]
  | .txFrameDone _ => counting ++ [.qos, .ports, .pwr, .freeCtr]
  | .delayReq _ | .signaling _ => counting ++ [.ports, .freeCtr]
  | .arpRequest _ | .neighborSolicitation _ | .ptpAnnounceTx _ _ _ | .ptpSyncTx _ _ _
  | .followUp _ _ _ => [.ports, .freeCtr]
  | .ppsOutEdge => counting ++ [.time, .freeCtr]
  | .ppsOutFall | .todOutMessage => [.time]
  | .coulterWalk _ => counting ++ [.inQ, .us, .qos, .cls, .tine, .pwr, .freeCtr]
  | .emLookup _ _ => counting ++ [.qos, .cls]
  | .rehashDone _ => counting ++ [.cry, .cls, .freeCtr]
  | .sweepDone _ => counting ++ [.cls]
  | .retireSlow => raising ++ [.cls]
  | .tineDispatch => counting ++ [.cls, .tine]
  | .nop _ _ | .add _ _ | .sub _ _ | .and _ _ | .or _ _ | .xor _ _ | .shl _ _ | .shr _ _
  | .sra _ _ | .mul _ _ | .minu _ _ | .maxu _ _ | .mov _ _ | .cmp _ _ | .csadd _ _ | .ext _ _
  | .ins _ _ | .br _ _ | .ldw _ _ | .stw _ _ | .push _ _ | .pop _ _ | .bmov _ _ | .hash _ _
  | .ld _ _ | .st _ _ | .atom _ _ | .srd _ _ | .swr _ _ | .satom _ _ | .tlook _ _ | .elook _ _
  | .meter _ _ | .count _ _ | .setQueue _ _ | .tsread _ _ | .pmcread _ _ | .emit _ _
  | .drop _ _ | .recirculate _ _ | .trap _ _ | .serviceResult _ _ _ =>
    counting ++ [.us, .qos, .cls, .tine, .pwr, .freeCtr]
  | .cipher _ _ => counting ++ [.us, .qos, .cry, .cls, .tine, .pwr, .freeCtr]
  | .pmcOverflow _ _ => raising ++ [.tine]
  | .sampleTag _ _ => counting ++ [.tine, .freeCtr]
  | .cipherOpComplete _ =>
    counting ++ [.groups, .reasm, .toTime, .toReeve, .inQ, .us, .act, .qos, .cry, .tine, .pwr,
      .freeCtr]
  | .drbgReseed _ => counting ++ [.cry]
  | .entropyExhausted | .keyRequestCommit =>
    counting ++ [.groups, .reasm, .toTime, .toReeve, .inQ, .us, .act, .qos, .cry, .tine, .pwr,
      .freeCtr]
  | .keySelWrite _ | .keyLoad _ _ | .keyErase | .keyEraseAll => counting ++ [.cry, .pwr]
  | .entryE2 => counting ++ [.lanes, .us, .act, .qos, .ports, .pwr, .pair, .freeCtr]
  | .noticeWaitExpiry | .pwrWake _ => counting ++ [.act, .pwr]
  | .drainWaitExpiry => [.pwr]
  | .entryE3 => counting ++ [.lanes, .act, .pwr]
  | .entryE4 _ =>
    counting ++ [.clk, .lanes, .groups, .us, .act, .time, .qos, .ports, .pwr, .pair, .freeCtr]
  | .entryE5 => counting ++ [.clk, .lanes, .act, .time, .pwr]
  | .slSignal _ | .wakeIn | .i3cWake | .rouseDecision _ | .mbDoorbell | .mbInDataWrite _
  | .mbOutDataRead | .evtPop | .intStatClear _ | .winCommit | .setdasa _ | .getmwl | .getmrl
  | .getpid | .getbcr | .getdcr => counting ++ [.pwr]
  | .lineLight _ | .lineDark _ => counting ++ [.lanes, .pwr]
  | .wakeComplete _ =>
    counting ++ [.clk, .lanes, .groups, .lots, .reasm, .toTime, .toReeve, .inQ, .us, .act, .time,
      .qos, .cry, .cls, .tine, .ports, .slanes, .pwr, .pair, .sec, .settings, .freeCtr]
  | .bufBankGated _ => raising ++ [.pwr]
  | .leaseRenewal | .helloTx | .healthTx | .timeCmpStart _ => [.pair]
  | .lockYieldExpiry => counting ++ [.clk, .us, .time, .qos, .ports, .pwr, .pair, .freeCtr]
  | .mirrorAck _ _ _ _ | .mirrorAckTimeout | .sysGetInfo _ | .sysReset _ | .pwrGetState _
  | .pwrGetWakeReport _ | .lineGetLock _ | .lineGetCounters _ | .actGetState _
  | .supGetDefects _ | .supGetBins _ | .timeGetFit _ | .portGetStats _ | .ptpGetPort _
  | .cryGetSlot _ | .secGetLifecycle _ | .pairGetState _ | .lifeRead _
  | .lifeGetSummary _ | .lifeMark _ _ => counting ++ [.act, .pair]
  | .timeCmp _ _ _ _ _ _ | .snapReq _ _ _ _ => counting ++ [.pair]
  | .lockstepMismatch | .reeveWatchdogExpiry => [.win, .i3c, .reeve]
  | .ibiRetry _ | .entdaa _ | .rstdaa | .enec | .disec | .setmwl _ | .setmrl _ | .enthdr0 =>
    [.i3c]
  | .fwEraseDone _ => raising ++ [.flash, .freeCtr]
  | .tempSample _ => [.life]
  | .getstatus | .getcaps => counting ++ [.pwr, .freeCtr]
  | .sysFwActivate _ => counting ++ [.act, .pair, .flash]
  | .pwrSetState _ => counting ++ [.act, .pwr, .pair, .settings]
  | .pwrSetDomains _ _ =>
    counting ++ [.clk, .lanes, .groups, .lots, .reasm, .toTime, .toReeve, .inQ, .us, .act, .time,
      .qos, .cry, .cls, .tine, .ports, .slanes, .pwr, .pair, .settings, .freeCtr]
  | .lineConfigureLanes _ _ _ | .lineSetGroup _ =>
    counting ++ [.clk, .lanes, .groups, .lots, .reasm, .us, .act, .qos, .ports, .pwr, .pair,
      .settings, .freeCtr]
  | .lineSetEq _ => counting ++ [.lanes, .act, .pair, .settings]
  | .actStart _ | .supSetActions _ | .supSetThresholds _ | .portSetSheaf _ =>
    counting ++ [.act, .pair, .settings]
  | .actSetParenting _ =>
    counting ++ [.clk, .lots, .reasm, .us, .act, .qos, .ports, .pwr, .pair, .settings, .freeCtr]
  | .timeSetDomains _ | .timeSetOutputs _ => counting ++ [.act, .time, .pair, .settings]
  | .timeSelect _ => counting ++ [.act, .time, .pair]
  | .timeSetAsym _ => counting ++ [.act, .time, .pair, .settings, .freeCtr]
  | .timeGetStatus _ => counting ++ [.act, .pair, .freeCtr]
  | .portConfigure _ =>
    counting ++ [.us, .act, .qos, .ports, .slanes, .pwr, .pair, .settings, .freeCtr]
  | .portSetFilters _ => counting ++ [.act, .ports, .pair]
  | .ptpConfigurePort _ => counting ++ [.act, .ports, .pair, .settings]
  | .clsLoadGraph _ | .clsSetPatterns _ | .clsStageRules _ | .clsCommit _
  | .clsGetGeneration _ => counting ++ [.act, .cls, .pair]
  | .tineLoadProgram _ | .tineGetFaults _ | .pmcRead _ | .pmcSampleRead _ =>
    counting ++ [.act, .tine, .pair]
  | .tineSetPerms _ | .pmcConfigure _ => counting ++ [.act, .tine, .pair, .settings]
  | .pmcSampleStart _ => counting ++ [.act, .cry, .tine, .pair, .settings, .freeCtr]
  | .qosSetQueue _ => counting ++ [.us, .act, .qos, .pwr, .pair, .settings, .freeCtr]
  | .qosSetSched _ | .qosSetShaper _ | .qosSetMeter _ =>
    counting ++ [.act, .qos, .pair, .settings]
  | .qosGetQueue _ => counting ++ [.us, .act, .qos, .pair]
  | .cryBindSlot _ => counting ++ [.us, .act, .qos, .cry, .pair]
  | .crySeal _ | .cryUnseal _ => counting ++ [.act, .cry, .pair]
  | .secAdvance _ _ =>
    counting ++ [.groups, .reasm, .toTime, .toReeve, .inQ, .us, .act, .qos, .cry, .tine, .pwr,
      .pair, .fuses, .sec, .freeCtr]
  | .secDebugChallenge _ => counting ++ [.act, .cry, .pair, .sec, .freeCtr]
  | .secDebugUnlock _ =>
    counting ++ [.groups, .reasm, .toTime, .toReeve, .inQ, .us, .act, .qos, .cry, .tine, .ports,
      .pwr, .pair, .sec, .freeCtr]
  | .pairConfigure _ => counting ++ [.us, .act, .qos, .ports, .pwr, .pair, .settings, .freeCtr]
  | .pairYield _ => counting ++ [.clk, .us, .act, .time, .qos, .ports, .pwr, .pair, .freeCtr]
  | .atSwathExtrapolatedArrival => counting ++ [.cls, .pair]
  | .debugPortAccess _ => [.sec]
  | .trapQueueService _ => [.inQ, .qos, .cls, .tine, .pwr, .freeCtr]
  | .undefinedFieldMessage _ => counting

/-- The command answers a next state of which `P` holds, and writes only its own parts. -/
def Does (i : Instr) (s : State) (P : State → Prop) : Prop :=
  ∃ t, exec i s = .next t ∧ P t ∧ Only (writes i) s t

/-- A thread by its name. -/
def threadAt (s : State) (th : ThreadId) : Thread :=
  threadOf s th.harrow.val th.tine.val th.thread.val

/-- A thread, but for what only the counters and the sampling of Chapter 14 see. -/
def still (x : Thread) : Thread := { x with stall := 0, stallEvent := 0, tagged := none }

/-- The thread issues the instruction (R333): it runs a pass, waits for no service and for no earlier
instruction, its turn has come, its harrow and CLK_CORE run, its tine is not halted, the word it has
fetched is the instruction, the pass is below its LIMIT, the encoding is defined. -/
def Issues (op : Nat) (th : ThreadId) (f : TFields) (s : State) : Prop :=
  let x := threadAt s th
  threadReady x = true ∧ inTurn s th.harrow.val th.tine.val th.thread.val = true ∧
  harrowOn s th.harrow.val = true ∧ coreRuns s = true ∧
  s.sec.tinesHalted.getLsbD (th.harrow.val * 16 + th.tine.val) = false ∧
  fetchedWord s x = insnWord op f ∧ x.insns < x.view.limit ∧ insnDefined op f = true

/-- The thread with the instruction in hand, counted. -/
def fetched (op : Nat) (th : ThreadId) (f : TFields) (s : State) : Thread :=
  { threadAt s th with
    insns := (threadAt s th).insns + 1, word := insnWord op f, stall := 0, stallEvent := 0 }

/-- The thread has become `x`, scratch and the program region are as given, every other thread,
the constants and the instruction memory are as they were. -/
def Ran (th : ThreadId) (x : Thread) (scr sram : Tab (BitVec 8)) (s t : State) : Prop :=
  still (threadAt t th) = still x ∧
  (∀ o, o ≠ th → still (threadAt t o) = still (threadAt s o)) ∧
  t.tine.scratch = scr ∧ t.tine.sram = sram ∧ t.tine.const_ = s.tine.const_ ∧
  t.tine.imem = s.tine.imem

/-- As `Ran`, with nothing else changed outside the tine's own parts, the counters, what
they report and the parts `ps`. -/
def RanIn (ps : List Part) (th : ThreadId) (x : Thread) (scr sram : Tab (BitVec 8))
    (s t : State) : Prop :=
  Ran th x scr sram s t ∧ t.tine.progs = s.tine.progs ∧ t.tine.order = s.tine.order ∧
  t.tine.trapQ = s.tine.trapQ ∧ t.tine.faultLog = s.tine.faultLog ∧
  Only (counting ++ [.tine, .freeCtr] ++ ps) s t

/-- The thread has become `x`; no memory but its own has changed. -/
def Runs (th : ThreadId) (x : Thread) (s t : State) : Prop :=
  RanIn [] th x s.tine.scratch s.tine.sram s t

/-- The pass has ended and the thread is free; only its private area stays (R334). -/
def Ended (th : ThreadId) (s t : State) : Prop :=
  Ran th { priv := (threadAt s th).priv } s.tine.scratch s.tine.sram s t

/-- The pass has ended in a fault: the newest record of the log carries the code (Table 12-8). -/
def Faulted (th : ThreadId) (code : Nat) (s t : State) : Prop :=
  Ended th s t ∧ ∃ r, t.tine.faultLog.getLast? = some r ∧ byteAt r 12 = BitVec.ofNat 8 code

/-- Issued, the instruction makes its thread what `g` says and goes on to the next one; no memory
but the thread's own changes. -/
def Advances (op : Nat) (th : ThreadId) (f : TFields) (i : Instr) (g : Thread → Thread) : Prop :=
  ∀ s, Issues op th f s → Does i s fun t =>
    let x := fetched op th f s
    Runs th { g x with pc := x.pc + 1 } s t

/-- Issued where the thread `x` in hand meets `ok`, the instruction makes it `g s x`, scratch and the
program region what `scr` and `sram` say; otherwise the pass ends in a fault of that code with
neither changed (R357). -/
def Acts (op : Nat) (th : ThreadId) (f : TFields) (i : Instr) (ok : Thread → Bool)
    (g : State → Thread → Thread) (scr sram : State → Thread → Tab (BitVec 8)) (code : Nat) :
    Prop :=
  ∀ s, Issues op th f s →
    let x := fetched op th f s
    (ok x = true → Does i s fun t => RanIn [] th (g s x) (scr s x) (sram s x) s t) ∧
    (ok x = false → Does i s fun t => Faulted th code s t)

/-- As `Acts`, of an instruction that reads or writes no memory but its thread's. -/
def Reads (op : Nat) (th : ThreadId) (f : TFields) (i : Instr) (ok : Thread → Bool)
    (g : State → Thread → Thread) (code : Nat) : Prop :=
  Acts op th f i ok (fun s x => { g s x with pc := x.pc + 1 })
    (fun s _ => s.tine.scratch) (fun s _ => s.tine.sram) code

/-- The opcodes of Table 13-4 and the commands that issue them. -/
def tineOps : List (Nat × (ThreadId → TFields → Instr)) :=
  [(0x01, .nop), (0x10, .add), (0x11, .sub), (0x12, .and), (0x13, .or), (0x14, .xor),
   (0x15, .shl), (0x16, .shr), (0x17, .sra), (0x18, .mul), (0x19, .minu), (0x1A, .maxu),
   (0x1B, .mov), (0x1C, .cmp), (0x1D, .csadd), (0x1E, .ext), (0x1F, .ins), (0x20, .br),
   (0x30, .ldw), (0x31, .stw), (0x32, .push), (0x33, .pop), (0x34, .bmov), (0x35, .hash),
   (0x40, .ld), (0x41, .st), (0x42, .atom), (0x43, .srd), (0x44, .swr), (0x45, .satom),
   (0x50, .tlook), (0x51, .elook), (0x52, .meter), (0x53, .count), (0x54, .setQueue),
   (0x58, .tsread), (0x59, .pmcread), (0x60, .cipher), (0xF0, .emit), (0xF1, .drop),
   (0xF2, .recirculate), (0xF3, .trap)]

/-- A mailbox command that passes every common check (R534, R544, R509, R467) and takes effect at
once: firmware runs, the command is neither mirrored nor timed, the chip is in no pair or the
command is a local one, its domains are powered, the Reeve has left the FIO where the command waits
for that (R12), no mirrored commit stands in its way (R327), and no swath boundary is waited for
(R541). -/
def Accepted (op : Nat) (c : Cmd) (s : State) : Prop :=
  reeveRuns s = true ∧ c.src = .mailbox ∧ c.mirror = false ∧ c.atSwath = false ∧ c.rsvd = 0 ∧
  c.payload.length ≤ 1016 ∧ (s.win.recovery = false ∨ op = 0x0101 ∨ op = 0x0103) ∧
  (s.pair.st = .solo ∨ isLocalOp op = true) ∧ retained s &&& cmdNeeds op c.payload = 0 ∧
  (s.clk.onFio = false ∨ waitsForPll op = false) ∧ commitBusy op s = false ∧
  (isDeferredOp op = true → timingLocked s = false)

/-- The response to a mailbox command stands in the outbound window, or waits for it as the last
one (R535). -/
def Replied (op : Nat) (c : Cmd) (status : Nat) (payload : Bytes) (t : State) : Prop :=
  let x : Resp := { src := .mailbox, opcode := BitVec.ofNat 16 op, tag := c.tag,
                    status := BitVec.ofNat 16 status, payload := payload }
  t.win.outbound = respBytes x ∧ t.win.respValid = true ∨ t.reeve.responses.getLast? = some x

/-- The commands that Table 21-7 gives an opcode, with what each carries. -/
def asCommand (i : Instr) : Option (Nat × Cmd) :=
  match i with
  | .sysGetInfo c => some (0x0101, c)
  | .sysReset c => some (0x0102, c)
  | .sysFwActivate c => some (0x0103, c)
  | .pwrSetState c => some (0x0201, c)
  | .pwrGetState c => some (0x0202, c)
  | .pwrSetDomains c _ => some (0x0203, c)
  | .pwrReleasePads c => some (0x0204, c)
  | .pwrGetWakeReport c => some (0x0205, c)
  | .lineConfigureLanes c _ _ => some (0x0301, c)
  | .lineSetEq c => some (0x0302, c)
  | .lineSetGroup c => some (0x0303, c)
  | .lineGetLock c => some (0x0304, c)
  | .lineGetCounters c => some (0x0305, c)
  | .actStart c => some (0x0401, c)
  | .actStop c => some (0x0402, c)
  | .actGetState c => some (0x0403, c)
  | .actSetParenting c => some (0x0404, c)
  | .supSetActions c => some (0x0501, c)
  | .supGetDefects c => some (0x0502, c)
  | .supGetBins c => some (0x0503, c)
  | .supSetThresholds c => some (0x0504, c)
  | .timeSetDomains c => some (0x0601, c)
  | .timeSelect c => some (0x0602, c)
  | .timeSetAsym c => some (0x0603, c)
  | .timeGetFit c => some (0x0604, c)
  | .timeSetOutputs c => some (0x0605, c)
  | .timeGetStatus c => some (0x0606, c)
  | .portConfigure c => some (0x0701, c)
  | .portSetFilters c => some (0x0702, c)
  | .portSetSheaf c => some (0x0703, c)
  | .portGetStats c => some (0x0704, c)
  | .ptpConfigurePort c => some (0x0801, c)
  | .ptpGetPort c => some (0x0802, c)
  | .clsLoadGraph c => some (0x0901, c)
  | .clsSetPatterns c => some (0x0902, c)
  | .clsStageRules c => some (0x0903, c)
  | .clsCommit c => some (0x0904, c)
  | .clsGetGeneration c => some (0x0905, c)
  | .tineLoadProgram c => some (0x0A01, c)
  | .tineSetPerms c => some (0x0A02, c)
  | .tineGetFaults c => some (0x0A03, c)
  | .pmcConfigure c => some (0x0B01, c)
  | .pmcRead c => some (0x0B02, c)
  | .pmcSampleStart c => some (0x0B03, c)
  | .pmcSampleRead c => some (0x0B04, c)
  | .qosSetQueue c => some (0x0C01, c)
  | .qosSetSched c => some (0x0C02, c)
  | .qosSetShaper c => some (0x0C03, c)
  | .qosSetMeter c => some (0x0C04, c)
  | .qosGetQueue c => some (0x0C05, c)
  | .cryBindSlot c => some (0x0D01, c)
  | .crySeal c => some (0x0D02, c)
  | .cryUnseal c => some (0x0D03, c)
  | .cryGetSlot c => some (0x0D04, c)
  | .secGetLifecycle c => some (0x0E01, c)
  | .secAdvance c _ => some (0x0E02, c)
  | .secDebugChallenge c => some (0x0E03, c)
  | .secDebugUnlock c => some (0x0E04, c)
  | .pairConfigure c => some (0x0F01, c)
  | .pairGetState c => some (0x0F02, c)
  | .pairYield c => some (0x0F03, c)
  | .pairRejoin c => some (0x0F04, c)
  | .lifeRead c => some (0x1001, c)
  | .lifeGetSummary c => some (0x1002, c)
  | .lifeMark c _ => some (0x1003, c)
  | _ => none

/-- The command is answered with an error and applies nothing: no part but the host interface
changes (R541). A status from 4 to 7 has a detail of four bytes, ST_BUSY and ST_BAD_LENGTH none
(R557). -/
def Declines (i : Instr) (op : Nat) (c : Cmd) (status : Nat) (s : State) : Prop :=
  ∃ t d, exec i s = .next t ∧ Replied op c status d t ∧
    d.length = (if 4 ≤ status then 4 else 0) ∧ Only [.win, .i3c, .reeve] s t

/-- A settings command carries a scope and items that pass R554 to R556: these settings with these
values, by the tables of its kinds of scope. -/
def Carries (kinds : List Nat) (specs : Nat → List SSpec) (c : Cmd) (s : State) (sc : Nat)
    (gs : List Given) : Prop :=
  4 ≤ c.payload.length ∧ scopeOf s kinds c.payload = some sc ∧
  ∃ is, parseItems c.payload.length (c.payload.drop 4) = some is ∧
    checkItems (specs (scopeKind sc)) 0 [] is = .ok gs

/-- The settings given have the values given. -/
def InForce (gs : List Given) (sc : Nat) (t : State) : Prop :=
  ∀ g ∈ gs, setting t g.1 sc g.2.1 = g.2.2

/-- A settings command, accepted and carrying settings that meet `ok`, completes with ST_OK, its
settings in force and `more` as well. -/
def Sets (op : Nat) (kinds : List Nat) (specs : Nat → List SSpec) (i : Instr) (c : Cmd) (s : State)
    (ok : Nat → List Given → Prop) (more : Nat → List Given → State → Prop) : Prop :=
  Accepted op c s → ∀ sc gs, Carries kinds specs c s sc gs → ok sc gs →
    Does i s fun t => Replied op c 0 [] t ∧ InForce gs sc t ∧ more sc gs t

/-- A read request (R558) that its command serves: its length, its scope, its counter table. -/
def Asks (kinds : List Nat) (tables : List (Nat × Nat)) (extra : Nat)
    (block : Nat → Bytes → State → Bytes) (c : Cmd) (s : State) (sc : Nat) : Prop :=
  let p := c.payload
  let at_ := ((byteAt p 4).toNat, (byteAt p 5).toNat)
  let n := (byteAt p 7).toNat % 128
  p.length = 8 + extra ∧
  scopeOf s (0 :: kinds ++ tables.flatMap (fun t => (ctrKinds t.1 t.2).flatMap
    (fun k => if k = 0x1A then [0x0A, 0x0B] else [k]))) p = some sc ∧
  (at_.1 = 0 ∧ n = 0 ∨ at_ ∈ tables) ∧
  (n ≠ 0 → (byteAt p 6).toNat + n ≤ (ctrKinds at_.1 at_.2).length) ∧
  (block sc p s).length + 8 * n ≤ 1016

/-- A read command, accepted, answers a request it serves (and that meets `ok`) with its status block
and the counters asked for; without RC nothing but the host interface changes (R558, R608), with RC
the counters returned read as zero (R254), and `clear` holds. -/
def Inquires (op : Nat) (kinds : List Nat) (tables : List (Nat × Nat)) (extra : Nat)
    (block : Nat → Bytes → State → Bytes) (i : Instr) (c : Cmd) (s : State) (ok : Nat → Prop)
    (clear : Nat → State → Prop) : Prop :=
  Accepted op c s → ∀ sc, Asks kinds tables extra block c s sc → ok sc →
    let p := c.payload
    let n := (byteAt p 7).toNat % 128
    let first := (byteAt p 6).toNat
    let ch := (byteAt p 4).toNat
    let tbl := (byteAt p 5).toNat
    Does i s fun t =>
      Replied op c 0 (block sc p s ++ readCounters s ch tbl sc first n) t ∧
      (rcBit p = false → Only [.win, .i3c, .reeve, .freeCtr] s t) ∧
      (rcBit p = true → clear sc t ∧ ∀ j, j < n →
        let k := (ctrKinds ch tbl).getD (first + j) 0
        kindServes ch tbl (first + j) k (scopeKind sc) = true →
        ctrOf t (readKey ch tbl (first + j)) (readScope k sc) = {})

end Sys2Proof.Machine
end

