-- ==== Sys2Proof/WellFormed.lean ====
section
/-! DEFINITION. Which terms of the syntax are commands that can reach the block: the sizes and
ranges that the spec gives an operand and that its type leaves open. -/
namespace Sys2Proof

/-- A field message has 48 bytes (Table 5-1). -/
def FieldMsg.wf (m : FieldMsg) : Bool := m.bytes.length == 48

/-- An Icben payload's length fits the LENGTH field of 16 bits (Table 20-3). -/
def Cmd.wf (c : Cmd) : Bool := decide (c.payload.length < 65536)

/-- A HEALTH names one of the five pair states (Table 19-1). -/
def HealthBody.wf (b : HealthBody) : Bool := decide (b.state < 5)

/-- A module's grids have their lowest channel not above their highest (R154). -/
def Optics.wf (o : Optics) : Bool := o.grids.all (fun g => decide (g.2.1 ≤ g.2.2))

/-- The message types a unicast grant serves: Sync, Delay_Resp, Announce (R265). -/
def grantType (t : BitVec 4) : Bool := t == 0 || t == 9 || t == 11

/-- The I3C broadcast address is no target's address (R526). -/
def targetAddr (a : BitVec 7) : Bool := a != 0x7E

/-- A command whose operands have the sizes and ranges the spec gives them. -/
def Instr.wf (i : Instr) : Bool :=
  match i with
  | .heProfile m | .assignId m | .rangingTime m | .assignPlot m | .assignLot m | .deactivate m
  | .silence m | .release m | .switchParent m | .timeSow m | .pwrWake m
  | .undefinedFieldMessage m => m.wf
  | .tune m o => m.wf && o.wf
  | .swathBoundary _ _ a b => a.wf && b.wf
  | .snapEnd _ _ _ _ _ _ a b => a.wf && b.wf
  | .grantExpiry _ _ _ t => grantType t
  | .entdaa a | .setdasa a => targetAddr a
  | .health _ _ b => b.wf
  | .mirrorCmd _ _ _ _ _ c => decide (c.payload.length ≤ 1016)
  | .snapData _ _ _ _ b => decide (b.length ≤ 4080)
  | .lineConfigureLanes c a b => c.wf && a.wf && b.wf
  | .pwrSetDomains c _ | .secAdvance c _ => c.wf
  | .sysGetInfo c | .sysReset c | .sysFwActivate c | .pwrSetState c | .pwrGetState c
  | .pwrReleasePads c | .pwrGetWakeReport c | .lineSetEq c | .lineSetGroup c | .lineGetLock c
  | .lineGetCounters c | .actStart c | .actStop c | .actGetState c | .actSetParenting c
  | .supSetActions c | .supGetDefects c | .supGetBins c | .supSetThresholds c
  | .timeSetDomains c | .timeSelect c | .timeSetAsym c | .timeGetFit c | .timeSetOutputs c
  | .timeGetStatus c | .portConfigure c | .portSetFilters c | .portSetSheaf c | .portGetStats c
  | .ptpConfigurePort c | .ptpGetPort c | .clsLoadGraph c | .clsSetPatterns c
  | .clsStageRules c | .clsCommit c | .clsGetGeneration c | .tineLoadProgram c
  | .tineSetPerms c | .tineGetFaults c | .pmcConfigure c | .pmcRead c | .pmcSampleStart c
  | .pmcSampleRead c | .qosSetQueue c | .qosSetSched c | .qosSetShaper c | .qosSetMeter c
  | .qosGetQueue c | .cryBindSlot c | .crySeal c | .cryUnseal c | .cryGetSlot c
  | .secGetLifecycle c | .secDebugChallenge c | .secDebugUnlock c | .pairConfigure c
  | .pairGetState c | .pairYield c | .pairRejoin c | .lifeRead c | .lifeGetSummary c
  | .lifeMark c _ => c.wf
  | .vddAonPowerOn | .resetNAssert | .resetNRelease _ _ | .pwrgoodFall | .pwrgoodRise _ _
  | .bootImageCheckDone _ | .rootPllLock | .refclkLost | .refclkReturn | .timelineWrap
  | .discardHoldover | .cdrLock _ _ | .cdrUnlock _ | .rawMarkerMatch _ _ | .codewordDecoded _ _ _
  | .cw0NotReceived _ _ | .resumeTimeout _ | .ctleAdaptStep _ _ | .lineSetEqApply _
  | .lotHeaderRelease _ | .fragReassemblyTimeout _ | .plantReport _ | .managementLot _
  | .furrowMapEntry _ _ _ | .headerSamplePoint _ | .burstEnable _ | .burstEnd _
  | .laserWatchdog _ | .watchdogRefclkTrip _ | .fragAbandonTx _ | .gaspInAssert | .gaspInClear
  | .toProfileExpiry _ | .toRangeExpiry _ | .toHoldExpiry _ | .toTuneExpiry _ | .tunePoll _ _
  | .silenceDurationExpiry _ | .losDeclare _ | .losClear _ | .lolDeclare _ | .lolClear _
  | .ltmDeclare _ | .rdiEvaluation | .holdOffExpiry _ | .binClose _ _ | .binSecondEnd
  | .fitWindowEnd | .holdValidExpiry _ | .slewDone | .ppsInEdge _ | .ppsInLost
  | .rxFrameStart _ _ | .rxFrameEnd _ _ | .pauseExpiry _ | .pcsStatusChange _ _ _
  | .linkUpDelayExpiry _ | .faultOrderedSetRx _ _ | .faultCleared _ | .blockLockLoss _ _
  | .hiBer _ | .slCtleAdapt _ _ | .hrefclkLost | .hrefclkReturn | .dsSchedulingDecision _
  | .txFrameDone _ | .delayReq _ | .signaling _ | .arpRequest _ | .neighborSolicitation _
  | .ptpAnnounceTx _ _ _ | .ptpSyncTx _ _ _ | .followUp _ _ _ | .ppsOutEdge | .ppsOutFall
  | .todOutMessage | .coulterWalk _ | .emLookup _ _ | .rehashDone _ | .sweepDone _ | .retireSlow
  | .tineDispatch | .nop _ _ | .add _ _ | .sub _ _ | .and _ _ | .or _ _ | .xor _ _ | .shl _ _
  | .shr _ _ | .sra _ _ | .mul _ _ | .minu _ _ | .maxu _ _ | .mov _ _ | .cmp _ _ | .csadd _ _
  | .ext _ _ | .ins _ _ | .br _ _ | .ldw _ _ | .stw _ _ | .push _ _ | .pop _ _ | .bmov _ _
  | .hash _ _ | .ld _ _ | .st _ _ | .atom _ _ | .srd _ _ | .swr _ _ | .satom _ _ | .tlook _ _
  | .elook _ _ | .meter _ _ | .count _ _ | .setQueue _ _ | .tsread _ _ | .pmcread _ _
  | .cipher _ _ | .emit _ _ | .drop _ _ | .recirculate _ _ | .trap _ _ | .serviceResult _ _ _
  | .pmcOverflow _ _ | .sampleTag _ _ | .cipherOpComplete _ | .drbgReseed _ | .entropyExhausted
  | .keySelWrite _ | .keyLoad _ _ | .keyErase | .keyEraseAll | .keyRequestCommit | .entryE2
  | .noticeWaitExpiry | .drainWaitExpiry | .entryE3 | .entryE4 _ | .entryE5 | .slSignal _
  | .lineLight _ | .lineDark _ | .wakeIn | .i3cWake | .rouseDecision _ | .listenPowerUp _
  | .wakeComplete _ | .bufBankGated _ | .leaseRenewal | .leaseExpiry | .roleDrop
  | .roleInChange _ | .roleClaim | .takeover | .lockYieldExpiry | .hello _ _ _ | .helloTx
  | .healthTx | .mirrorAck _ _ _ _ | .mirrorAckTimeout | .timeCmp _ _ _ _ _ _ | .timeCmpStart _
  | .snapReq _ _ _ _ | .snapTimeout | .tetherHealthTimeout | .tetherBlockLockLoss
  | .lockstepMismatch | .reeveWatchdogExpiry | .reeveRestart | .mbDoorbell | .mbInDataWrite _
  | .mbOutDataRead | .mbRespAck | .evtPop | .intStatClear _ | .winCommit | .registerWrite _ _
  | .commandTaken | .ibiRetry _ | .sysResetDeferred | .fwEraseDone _ | .tempSample _ | .rstdaa
  | .enec | .disec | .setmwl _ | .setmrl _ | .getmwl | .getmrl | .getpid | .getbcr | .getdcr
  | .getstatus | .getcaps | .enthdr0 | .usedRecordTimeout _ | .atSwathExtrapolatedArrival
  | .debugPortAccess _ | .trapQueueService _ | .roleOutReadbackChange _ => true

end Sys2Proof
end

