-- ==== Sys2Proof/Certificates/Slice0/Obligations.lean ====
section
/-! DEFINITION. The statements for the provers. -/
open Sys2Proof Sys2Proof.Machine

/-- A step takes the command at the front of the queue. -/
def Obligations.StepRunsFrontCommand : Prop :=
  ∀ (c : Instr) (rest : List Instr) (s : State), s.pending = c :: rest →
    step s = exec c { s with pending := rest }

/-- What a step on an empty queue does, the model's choice (log entry 2). -/
def Obligations.EmptyQueueTicks : Prop :=
  ∀ s : State, s.pending = [] → ∃ t, step s = .next t ∧ t.pending = [] ∧
    Only ticking s t ∧
    (let d := if s.clk.pllRunning then 25 else if s.clk.refclk then 500 else 0
     t.clk = { s.clk with
       timeline := s.clk.timeline + BitVec.ofNat 64 d
       era := if 2 ^ 64 ≤ s.clk.timeline.toNat + d then s.clk.era + 1 else s.clk.era })

/-- The invariant holds at reset. -/
def Obligations.ResetStateIsSound : Prop :=
  Sound State.reset ∧ (∀ x, (usLaneOf State.reset x).ben = false) ∧
    (∀ k, (slotOf State.reset k).key = []) ∧ State.reset.pending = []

/-- Every command runs on every state. -/
def Obligations.EveryCommandAnswersANextState : Prop :=
  ∀ (i : Instr) (s : State), Answers i s fun t => t.pending = s.pending

/-- `Sound` is an invariant of the step. -/
def Obligations.EveryStepKeepsSoundness : Prop :=
  ∀ s t : State, Sound s → step s = .next t → Sound t

/-- Fuses only ever gain bits. -/
def Obligations.FusesOnlyGainBits : Prop :=
  ∀ s t : State, step s = .next t → FusesKept s.fuses t.fuses

/-- The transmit enables rise at S − 8 of a burst, and nowhere else. -/
def Obligations.EnablesRiseOnlyByBurstEnable : Prop :=
  (∀ s t : State, (∀ x rest, s.pending ≠ .burstEnable x :: rest) → step s = .next t →
    NoEnableRises s t) ∧
  ∀ (x : Fin 2) (s t : State), exec (.burstEnable x) s = .next t →
    ∀ y, y ≠ x.val → (usLaneOf t y).ben = true → (usLaneOf s y).ben = true

/-- Key material enters the slots by the key interface alone. -/
def Obligations.KeysEnterOnlyByKeyRequestCommit : Prop :=
  ∀ s t : State, (∀ rest, s.pending ≠ .keyRequestCommit :: rest) → step s = .next t →
    NoKeyLoaded s t

/-- The timeline and era across commands. That time passes only on an empty queue is the model's
choice (log entry 2). -/
def Obligations.CommandsLeaveTheTimeline : Prop :=
  (∀ (i : Instr) (s t : State), i ≠ .timelineWrap → i ≠ .vddAonPowerOn →
    exec i s = .next t → t.clk.timeline = s.clk.timeline ∧ t.clk.era = s.clk.era) ∧
  (∀ s : State, let d := if s.clk.pllRunning then 25 else if s.clk.refclk then 500 else 0
    (2 ^ 64 ≤ s.clk.timeline.toNat + d → Answers .timelineWrap s fun t =>
      t.clk.timeline = s.clk.timeline + BitVec.ofNat 64 d ∧ t.clk.era = s.clk.era + 1) ∧
    (s.clk.timeline.toNat + d < 2 ^ 64 → exec .timelineWrap s = .next s)) ∧
  ∀ s, Answers .vddAonPowerOn s fun t => t.clk.timeline = 0 ∧ t.clk.era = 0

/-- The frame of every command, part by part. The table of parts is the model's reading of the
rules (log entry 90). -/
def Obligations.EveryCommandWritesOnlyItsParts : Prop :=
  ∀ (i : Instr) (s t : State), exec i s = .next t → Only (writes i) s t

/-- The common checks of commands from the mailbox, in order: the model's reading where R534 gives
none (log entry 73), of what a command needs (log entry 15) and of what a command that comes too early
for R12 is answered (log entry 98). -/
def Obligations.CommandsThatFailACheckApplyNothing : Prop :=
  ∀ (i : Instr) (op : Nat) (c : Cmd) (s : State), asCommand i = some (op, c) →
    reeveRuns s = true → c.src = .mailbox →
    (1016 < c.payload.length → Declines i op c 3 s) ∧
    (c.payload.length ≤ 1016 → c.rsvd ≠ 0 → Declines i op c 4 s) ∧
    (c.payload.length ≤ 1016 → c.rsvd = 0 →
      (s.win.recovery = true → op ≠ 0x0101 → op ≠ 0x0103 → Declines i op c 6 s) ∧
      (s.win.recovery = false →
        (c.mirror = true → isLocalOp op = true → s.pair.st ≠ .solo ∨ op = 0x0E02 →
          Declines i op c 4 s) ∧
        (c.mirror = false →
          (s.pair.st ≠ .solo → isLocalOp op = false → Declines i op c 5 s) ∧
          (s.pair.st = .solo ∨ isLocalOp op = true →
            (c.atSwath = true → op ∉ [0x0301, 0x0303, 0x0904] → Declines i op c 4 s) ∧
            (c.atSwath = false →
              (retained s &&& cmdNeeds op c.payload ≠ 0 ∨
                s.clk.onFio = true ∧ op ∈ [0x0204, 0x0301, 0x0401] → Declines i op c 6 s) ∧
              (retained s &&& cmdNeeds op c.payload = 0 → op ∈ [0x0901, 0x0902, 0x0903, 0x0904] →
                (commitHeld s).isSome = true → Declines i op c 2 s))))))

/-- Reset and its release (R16, R446, R586, R590, R592). VDD_AON_POWER_ON holding the block in reset
is the model's reading (log entry 70). -/
def Obligations.ResetLinesHoldAndReleaseTheBlock : Prop :=
  ∀ s : State,
    (∀ i, i = Instr.resetNAssert ∨ i = Instr.pwrgoodFall → Answers i s fun t =>
      t.pins.inReset = true ∧ t.pins.resetN = (s.pins.resetN && i != .resetNAssert) ∧
      t.pins.pwrGood = (s.pins.pwrGood && i != .pwrgoodFall) ∧
      (∀ x, (usLaneOf t x).ben = false) ∧ t.settings = [] ∧ t.counters = [] ∧
      t.fuses = s.fuses ∧ t.flash.a = s.flash.a ∧ t.flash.b = s.flash.b ∧ t.life = s.life ∧
      t.clk.timeline = s.clk.timeline ∧ t.clk.era = s.clk.era) ∧
    (∀ a m, Answers (.resetNRelease a m) s fun t =>
      t.pins.resetN = true ∧ t.pins.addr = a ∧ t.pins.inReset = (!s.pins.pwrGood || m) ∧
      t.win.bootStatus = 0 ∧ t.fuses = s.fuses ∧ t.clk.timeline = s.clk.timeline ∧
      (t.pins.inReset = false → t.sec.lc = fuseState s)) ∧
    (∀ a m, Answers (.pwrgoodRise a m) s fun t =>
      t.pins.pwrGood = true ∧ t.pins.addr = (if s.pins.resetN then a else s.pins.addr) ∧
      t.pins.inReset = (!s.pins.resetN || m) ∧ t.win.bootStatus = 0 ∧ t.fuses = s.fuses ∧
      t.clk.timeline = s.clk.timeline ∧ (t.pins.inReset = false → t.sec.lc = fuseState s)) ∧
    Answers .vddAonPowerOn s fun t =>
      t.clk.timeline = 0 ∧ t.clk.era = 0 ∧ t.fuses = s.fuses ∧ t.flash.a = s.flash.a ∧
      t.flash.b = s.flash.b ∧ t.life.checkpoints = s.life.checkpoints ∧ t.settings = [] ∧
      t.pins.inReset = true ∧ ∀ x, (usLaneOf t x).ben = false

/-- The boot of R455. -/
def Obligations.BootTriesTheNamedImageThenTheOther : Prop :=
  ∀ (read : BootRead) (s : State), s.win.bootStatus.toNat ≤ 1 → s.pins.inReset = false →
    s.clk.refclk = true → Answers (.bootImageCheckDone read) s fun t =>
      let first := s.flash.active.getD false
      let ok (img : Bool) : Prop := (bootCheck read s img).result = 0
      Only (writes (.bootImageCheckDone read)) s t ∧
      (ok first → t.win.bootStatus = 2 ∧ t.win.image = first ∧ t.win.fallback = false ∧
        t.win.fwVersion = (bootCheck read s first).fwVersion) ∧
      (¬ ok first → ok (!first) → t.win.bootStatus = 2 ∧ t.win.image = !first ∧
        t.win.fallback = true ∧ t.win.fwVersion = (bootCheck read s (!first)).fwVersion ∧
        (s.reeve.events.length < 64 → (t.reeve.events.getLast?).map (·.code) = some 0x0E02)) ∧
      (¬ ok first → ¬ ok (!first) → t.win.bootStatus = 3 ∧ t.win.recovery = true)

/-- The clocks' references (R12, R14, R123, R231). -/
def Obligations.ClockReferencesComeAndGo : Prop :=
  ∀ s : State,
    (s.clk.refclk = true → s.pins.inReset = false →
      (s.pwr.st = .deepFallow → s.pwr.phase = .waking) →
      Answers .rootPllLock s fun t => t.clk.pllRunning = true ∧ t.clk.onFio = false ∧
        t.clk.refclk = true ∧ Only (raising ++ [.clk]) s t) ∧
    (s.clk.refclk = false ∨ s.pins.inReset = true ∨
      (s.pwr.st = .deepFallow ∧ s.pwr.phase ≠ .waking) → exec .rootPllLock s = .next s) ∧
    (s.clk.refclk = false → exec .refclkLost s = .next s) ∧
    (s.clk.refclk = true → Answers .refclkLost s fun t =>
      t.clk = { s.clk with refclk := false, tlGap := s.clk.tlGap || !s.clk.pllRunning } ∧
      NoEnableRises s t ∧ Only (writes .refclkLost) s t) ∧
    (s.clk.refclk = true → s.clk.pllRunning = true → (∀ x, (usLaneOf s x).bursts = []) →
      s.reeve.events.length < 64 →
      Answers .refclkLost s fun t => t.clk.refclk = false ∧ t.clk.tlGap = s.clk.tlGap ∧
        (t.reeve.events.getLast?).map (·.code) = some 0x0602 ∧
        (∀ x < 2, (usLaneOf t x).wdMonitor = (usLaneOf s x).ben) ∧
        Only (raising ++ [.clk, .us]) s t) ∧
    (s.clk.refclk = true → s.clk.pllRunning = false →
      Answers .refclkLost s fun t => t.clk.refclk = false ∧ t.clk.tlGap = true ∧
        (∀ x < 2, (usLaneOf t x).wdMonitor = (usLaneOf s x).ben) ∧ Only [.clk, .us] s t) ∧
    (Answers .refclkReturn s fun t => t.clk.refclk = true ∧
        (s.clk.refclk = false → s.clk.pllRunning = false → t.clk.resumed = s.clk.timeline) ∧
        (∀ x < 2, (usLaneOf t x).wdMonitor = false ∧ (usLaneOf t x).ben = (usLaneOf s x).ben) ∧
        Only [.clk, .us] s t) ∧
    (s.clk.ref = .hold → s.reeve.events.length < 64 →
      Answers .discardHoldover s fun t => t.clk.ref = .free ∧ t.clk.corrWord = 0 ∧
        (t.reeve.events.getLast?).map (fun e => (e.code, e.data)) = some (0x0601, 0x0200) ∧
        Only (raising ++ [.clk]) s t) ∧
    (s.clk.ref ≠ .hold → exec .discardHoldover s = .next s) ∧
    (s.clk.hrefclk = true → Answers .hrefclkLost s fun t => t.clk.hrefclk = false ∧
        (∀ p < 8, (portOf t p).pcsUp = false ∧ (portOf t p).locks = 0 ∧
          (portOf t p).link = if (portOf s p).link = .disabled then .disabled else .down) ∧
        Only (writes .hrefclkLost) s t) ∧
    Answers .hrefclkReturn s fun t => t.clk = { s.clk with hrefclk := true } ∧ Only [.clk] s t

/-- Acquisition up to the candidate slots, and the equaliser (R30-R32, R47, R51, R53). What R31's
step per swath means without swath lock is the model's reading (log entry 21). -/
def Obligations.AcquisitionStartsFromAMarker : Prop :=
  ∀ (l : Fin 4) (s : State), let x := laneOf s l
    (∀ ppb, x.st ≠ .off → x.st ≠ .dormant → -100000 ≤ ppb → ppb ≤ 100000 →
      Answers (.cdrLock l ppb) s fun t =>
      laneOf t l = { x with cdrLocked := true, ppb := ppb } ∧
      (∀ k, k ≠ l.val → laneOf t k = laneOf s k) ∧ Only [.lanes] s t) ∧
    (∀ ppb, x.st = .off ∨ x.st = .dormant ∨ ppb < -100000 ∨ 100000 < ppb →
      exec (.cdrLock l ppb) s = .next s) ∧
    (Answers (.cdrUnlock l) s fun t => laneOf t l = { x with cdrLocked := false } ∧
      (∀ k, k ≠ l.val → laneOf t k = laneOf s k) ∧ Only [.lanes] s t) ∧
    (∀ b, x.st = .hunt ∨ x.st = .verify → x.slots.length < 8 →
      Answers (.rawMarkerMatch l b) s fun t =>
        laneOf t l =
          { x with st := .verify, slots := x.slots ++ [{ start := b - 83, sc := x.sc }] } ∧
        (∀ k, k ≠ l.val → laneOf t k = laneOf s k) ∧ Only [.lanes] s t) ∧
    (∀ b, x.st = .hunt ∨ x.st = .verify → 8 ≤ x.slots.length →
      Answers (.rawMarkerMatch l b) s fun t =>
        ctrOf t cCandOverflow (scLrx l) = ctrAdd (ctrOf s cCandOverflow (scLrx l)) 1 ∧
        Only counting s t) ∧
    (∀ b, x.st ≠ .hunt → x.st ≠ .verify → exec (.rawMarkerMatch l b) s = .next s) ∧
    (x.st = .resume → Answers (.resumeTimeout l) s fun t =>
      (laneOf t l).st = .hunt ∧ (laneOf t l).slots = [] ∧
      (∀ k, k ≠ l.val → laneOf t k = laneOf s k) ∧ Only (writes (.resumeTimeout l)) s t) ∧
    (x.st ≠ .resume → exec (.resumeTimeout l) s = .next s) ∧
    (∀ up,
      let due := ∀ a, x.ctleAt = some a →
        if isLocked x = true then tlDiff x.cw0 a < 0 else (swathGrains : Int) ≤ tlDiff a (now s)
      let room := if up then x.ctleCode < settingN s sAdaptMax (scLrx l)
        else settingN s sAdaptMin (scLrx l) < x.ctleCode
      (laneEnabled s l = true → x.cdrLocked = true → settingB s sCtleMode (scLrx l) = true → due →
        room → Answers (.ctleAdaptStep l up) s fun t =>
          laneOf t l = { x with
            ctleCode := if up then x.ctleCode + 1 else x.ctleCode - 1, ctleAt := some (now s) } ∧
          (∀ k, k ≠ l.val → laneOf t k = laneOf s k) ∧ Only [.lanes] s t) ∧
      (laneEnabled s l = false ∨ x.cdrLocked = false ∨ settingB s sCtleMode (scLrx l) = false ∨
        ¬ due ∨ ¬ room → exec (.ctleAdaptStep l up) s = .next s)) ∧
    Answers (.lineSetEqApply l) s fun t => (laneOf t l).eqPending = [] ∧
      (∀ pre r v, x.eqPending = pre ++ [(r, v)] → setting t (eqSpec r) (scLrx l) = v) ∧
      (∀ k, k ≠ l.val → laneOf t k = laneOf s k) ∧ Only [.lanes, .settings] s t

/-- Codewords of a lane (R37, R41, R44, R46, R47, R51). -/
def Obligations.CodewordsKeepOrLoseTheAlignment : Prop :=
  ∀ (l : Fin 4) (start : BitVec 64) (word : BitVec 5440) (s : State),
    let x := laneOf s l
    let d := decodeWord word
    (x.cdrLocked = false ∨ s.clk.onFio = true ∨ x.st = .off ∨ x.st = .hunt ∨ x.st = .dormant →
      exec (.codewordDecoded l start word) s = .next s) ∧
    (∀ n, x.cdrLocked = true → s.clk.onFio = false → isLocked x = true → s.pwr.listening.getLsbD l = false →
      heldPos x start = some n → n < 1250 →
      Answers (.codewordDecoded l start word) s fun t =>
        (laneOf t l).pos = n + 1 ∧ (laneOf t l).st = x.st ∧ (laneOf t l).cw0 = x.cw0 ∧
        (laneOf t l).sc = x.sc ∧
        (x.pos = n → (laneOf t l).scr = match d with
          | some c => if headerOk x n c then (scramble x.scr c.payload).2 else scrSkip 5120 x.scr
          | none => scrSkip 5120 x.scr) ∧
        (∀ k, k ≠ l.val → laneOf t k = laneOf s k) ∧
        Only (counting ++ [.lanes, .groups]) s t) ∧
    (∀ c, x.cdrLocked = true → s.clk.onFio = false → isLocked x = true →
      s.pwr.listening.getLsbD l = false → heldPos x start = some 1250 → d = some c → headerOk x 0 c = true →
      c.payload.take 8 = markerBytes →
      Answers (.codewordDecoded l start word) s fun t =>
        (laneOf t l).st = .lock ∧ (laneOf t l).cw0 = start ∧ (laneOf t l).pos = 1 ∧
        (let p := c.payload.take 8 ++ (scramble (scrSeed x.txLane) (c.payload.drop 8)).1
         (laneOf t l).sc = if crc32 (slice p 8 12) = field p 20 4
           then BitVec.ofNat 48 (field p 8 6) else x.sc + 1) ∧
        Only (writes (.codewordDecoded l start word)) s t) ∧
    (x.cdrLocked = false → isLocked x = true →
      start = x.cw0 + BitVec.ofNat 64 swathGrains →
      Answers (.cw0NotReceived l start) s fun t =>
        (laneOf t l).st = (match x.st with | .lock => .miss1 | .miss1 => .miss2 | _ => .hunt) ∧
        (x.st ≠ .miss2 → (laneOf t l).cw0 = start ∧ (laneOf t l).pos = 1 ∧
          (laneOf t l).sc = x.sc + 1) ∧
        Only (writes (.cw0NotReceived l start)) s t) ∧
    (x.cdrLocked = true → exec (.cw0NotReceived l start) s = .next s) ∧
    (x.cdrLocked = true → s.clk.onFio = false → x.st = .verify →
      (runSlots start d x.slots).2.2 = none →
      Answers (.codewordDecoded l start word) s fun t =>
        (laneOf t l).slots = (runSlots start d x.slots).1 ∧
        (laneOf t l).st = (if (runSlots start d x.slots).1 = [] then .hunt else .verify) ∧
        (∀ k, k ≠ l.val → laneOf t k = laneOf s k))

/-- Release of lots in key order, and contexts that time out (R76, R81-R84, R88). -/
def Obligations.LotsAreReleasedInKeyOrder : Prop :=
  ∀ (g : Fin 4) (s : State),
    ((∀ l ∈ lanesOf s g, (laneOf s l).cmpOpen = false) →
      (includedOf s g = [] ∨ (∀ l ∈ lanesOf s g, (laneOf s l).waiting = []) ∨
        (∃ l ∈ includedOf s g, let x := laneOf s l
          ∀ m ∈ lanesOf s g, ∀ w ∈ (laneOf s m).waiting, 0 ≤ scDiff x.inclFrom w.key.sc ∧
            (scDiff w.key.sc x.sc < 0 ∨ scDiff w.key.sc x.sc = 0 ∧ x.pos ≤ w.key.cw)) →
        Answers (.lotHeaderRelease g) s fun t =>
          (∀ l, laneOf t l = laneOf s l) ∧ (groupOf t g).expected = (groupOf s g).expected ∧
          (groupOf t g).releasedSc = (groupOf s g).releasedSc ∧
          ((groupOf s g).released = [] → (∀ k, groupOf t k = groupOf s k) ∧ Only [.groups] s t) ∧
          Only (writes (.lotHeaderRelease g)) s t) ∧
      (∀ l ∈ lanesOf s g, ∀ lot ∈ (laneOf s l).waiting, includedOf s g ≠ [] →
        (∀ m ∈ lanesOf s g, ∀ w ∈ (laneOf s m).waiting, (m, w) ≠ (l, lot) →
          keyBefore lot.key w.key = true ∧ keyBefore w.key lot.key = false) →
        (∀ m ∈ includedOf s g, let x := laneOf s m
          scDiff x.inclFrom lot.key.sc < 0 ∨ 0 < scDiff lot.key.sc x.sc ∨
            scDiff lot.key.sc x.sc = 0 ∧ lot.key.cw < x.pos) →
        Answers (.lotHeaderRelease g) s fun t =>
          let b := BitVec.ofNat 12 (bits lot.hdr.toNat 21 10)
          let d := match (groupOf s g).expected with
            | some e => (b - e).toNat
            | none => 0
          (laneOf t l).waiting = (laneOf s l).waiting.erase lot ∧
          (∀ k, k ≠ l → laneOf t k = laneOf s k) ∧
          (groupOf t g).releasedSc = some (match (groupOf s g).releasedSc with
            | some r => if 0 < scDiff r lot.key.sc then lot.key.sc else r
            | none => lot.key.sc) ∧
          (∀ k, k ≠ g.val → groupOf t k = groupOf s k) ∧
          (d < 2048 → (groupOf t g).expected = some (b + 1) ∧
            (d = 0 → (groupOf s g).released = [] → lot.whole = false → t.reasm = s.reasm ∧
              (groupOf t g).released = [{ lot := { lot with released := now s } }])) ∧
          (2048 ≤ d → (groupOf t g).expected = (groupOf s g).expected ∧
            ((groupOf s g).released = [] → (groupOf t g).released = [] ∧
              ctrOf t cBseqLate (scGroup g) = ctrAdd (ctrOf s cBseqLate (scGroup g)) 1 ∧
              Only (counting ++ [.lanes, .groups]) s t)) ∧
          Only (writes (.lotHeaderRelease g)) s t)) ∧
    ∀ id : BitVec 16,
      ((reasmOf s id.toNat).open_ = true → 8 ≤ (reasmOf s id.toNat).boundaries →
        Answers (.fragReassemblyTimeout id) s fun t =>
          reasmOf t id.toNat = {} ∧ (∀ k, k ≠ id.toNat → reasmOf t k = reasmOf s k) ∧
          ctrOf t cFragAbandon (scLot id.toNat) =
            ctrAdd (ctrOf s cFragAbandon (scLot id.toNat)) 1 ∧
          Only (writes (.fragReassemblyTimeout id)) s t) ∧
      ((reasmOf s id.toNat).open_ = false ∨ (reasmOf s id.toNat).boundaries < 8 →
        exec (.fragReassemblyTimeout id) s = .next s)

/-- Plant reports and management lots (R198, R543, R545). -/
def Obligations.PlantReportsAndManagementLotsAreTaken : Prop :=
  ∀ (g : Fin 4) (s : State) (d : Delivered) (rest : List Delivered),
    (takeLot g s.toTime = some (d, rest) →
      (plantOk g d { s with toTime := rest } = true → Answers (.plantReport g) s fun t =>
        t.toTime = rest ∧ (groupOf t g).plant = some { bytes := d.bytes } ∧
        (∀ k, k ≠ g.val → groupOf t k = groupOf s k) ∧
        ctrOf t cPlantOk (scGroup g) = ctrAdd (ctrOf s cPlantOk (scGroup g)) 1 ∧
        Only (writes (.plantReport g)) s t) ∧
      (plantOk g d { s with toTime := rest } = false → Answers (.plantReport g) s fun t =>
        t.toTime = rest ∧ ctrOf t cPlantAuthFail (scGroup g) =
          ctrAdd (ctrOf s cPlantAuthFail (scGroup g)) 1 ∧ Only (counting ++ [.toTime]) s t)) ∧
    (takeLot g s.toReeve = some (d, rest) → reeveRuns s = true →
      s.pair.st = .solo ∨ s.pair.st = .active →
      let i := groupOwner s g
      let good := 8 ≤ d.bytes.length ∧ d.bytes.length ≤ 1024
      let clear := lifeCycle s = 2 ∧ d.keyIdx = 0
      (good → ¬ clear → (mgmtQueue s i).length < 16 → Answers (.managementLot g) s fun t =>
        t.toReeve = rest ∧ mgmtQueue t i = mgmtQueue s i ++ [⟨d.lotId, d.keyIdx, d.bytes⟩] ∧
        mgmtQueue t (1 - i) = mgmtQueue s (1 - i) ∧ Only [.toReeve, .reeve] s t) ∧
      (¬ good → Answers (.managementLot g) s fun t => t.toReeve = rest ∧
        ctrOf t cLenErr (scLot d.lotId.toNat) = ctrAdd (ctrOf s cLenErr (scLot d.lotId.toNat)) 1 ∧
        t.reeve.mgmt0 = s.reeve.mgmt0 ∧ t.reeve.mgmt1 = s.reeve.mgmt1) ∧
      (good → clear → Answers (.managementLot g) s fun t => t.toReeve = rest ∧
        ctrOf t cMgmtClear (scInst i) = ctrAdd (ctrOf s cMgmtClear (scInst i)) 1 ∧
        t.reeve.mgmt0 = s.reeve.mgmt0 ∧ t.reeve.mgmt1 = s.reeve.mgmt1) ∧
      (good → ¬ clear → 16 ≤ (mgmtQueue s i).length → Answers (.managementLot g) s fun t =>
        t.toReeve = rest ∧
        ctrOf t cMgmtOverflow (scInst i) = ctrAdd (ctrOf s cMgmtOverflow (scInst i)) 1 ∧
        t.reeve.mgmt0 = s.reeve.mgmt0 ∧ t.reeve.mgmt1 = s.reeve.mgmt1))

/-- The swath boundary of a group (R84, R609, R76, R79, R153, R541). -/
def Obligations.SwathBoundariesApplyWhatWaits : Prop :=
  ∀ (g : Fin 4) (sc : BitVec 48) (o0 o1 : Optics) (s : State),
    let open_ := ∃ l ∈ lanesOf s g, (laneOf s l).cmpOpen = true
    let rejoins (l : Nat) : Prop := (laneOf s l).included = false ∧
      (laneOf s l).everIncluded = true ∧ isLocked (laneOf s l) = true ∧ 2 ≤ okBefore (laneOf s l) sc
    let mine := (lanesOf s g).contains (timingLane s)
    (¬ open_ → (∀ l ∈ lanesOf s g, ¬ rejoins l) →
      (includedOf s g = [] → exec (.swathBoundary g sc o0 o1) s = .next s) ∧
      (includedOf s g ≠ [] → mine = true → Answers (.swathBoundary g sc o0 o1) s fun t =>
        (let u := boundaryOps g sc s
         t = each (applyDeferred o0 o1 sc) (u.reeve.deferred.filter (deferredDue sc)) u) ∧
        Only (writes (.swathBoundary g sc o0 o1)) s t) ∧
      (includedOf s g ≠ [] →
        mine = false ∨ ((boundaryOps g sc s).reeve.deferred.filter (deferredDue sc)) = [] →
        Answers (.swathBoundary g sc o0 o1) s fun t =>
          ((groupOf t g).boundary.map Prod.fst) = some sc ∧
          (groupOf t g).primaries.head? = some (sc, primaryOf s g sc) ∧
          (groupOf t g).released =
            (groupOf s g).released.map (fun r => { r with boundaries := r.boundaries + 1 }) ∧
          (∀ k, k ≠ g.val → groupOf t k = groupOf s k) ∧
          (∀ l, { laneOf t l with priCounted := (laneOf s l).priCounted } = laneOf s l) ∧
          Only (writes (.swathBoundary g sc o0 o1)) s t ∧
          (s.act.dual = false → (instOf s 0).todo = [] →
            (∀ id, reasmOf t id = if (reasmOf s id).open_ = true ∧ (reasmOf s id).group = g.val
              then { reasmOf s id with boundaries := (reasmOf s id).boundaries + 1 }
              else reasmOf s id) ∧
            ∀ x, x < 2 →
              (usLaneOf t x).eqdPending =
                (usLaneOf s x).eqdPending.filter (fun p => decide (scDiff p.1 sc < 0)) ∧
              (usLaneOf t x).eqd = ((((usLaneOf s x).eqdPending.filter
                (fun p => decide (0 ≤ scDiff p.1 sc))).getLast?).map (·.2)).getD
                  (usLaneOf s x).eqd))) ∧
    (¬ open_ → mine = false → ∀ l ∈ lanesOf s g, rejoins l →
      Answers (.swathBoundary g sc o0 o1) s fun t =>
        (laneOf t l).included = true ∧ (includedOf s g = [] → (laneOf t l).waiting = []))

/-- Furrow-map entries (R92-R98). -/
def Obligations.FurrowMapEntriesAreCheckedThenStored : Prop :=
  ∀ (g : Fin 4) (sc : BitVec 48) (entry : BitVec 128) (s : State),
    (primaryOf s g sc = none → exec (.furrowMapEntry g sc entry) s = .next s) ∧
    ∀ l, primaryOf s g sc = some l →
    (arrivalOf s l sc = none → exec (.furrowMapEntry g sc entry) s = .next s) ∧
    ∀ a, arrivalOf s l sc = some a →
    let e := entry.toNat
    let f := entryFurrow s g sc entry a
    let plot := bits e 127 114
    let lane := bits e 113 113
    let owner := groupOwner s g
    let crcOk := crc16 (bitsOfNat 112 (e / 65536)) = bits e 15 0
    let known := plot = 0x3FFF ∨ tabGet 0 s.act.plots plot = owner + 1
    let valid := entryInvalid (bits e 106 84) f.dur plot f.so f.rw f.pre = false
    let rightLane := s.act.dual = true → lane = owner
    (¬ crcOk → Answers (.furrowMapEntry g sc entry) s fun t => t.us = s.us ∧
      ctrOf t cFmapCrcErr (scGroup g) = ctrAdd (ctrOf s cFmapCrcErr (scGroup g)) 1 ∧
      Only counting s t) ∧
    (crcOk → ¬ known → exec (.furrowMapEntry g sc entry) s = .next s) ∧
    (crcOk → known → ¬ valid → Answers (.furrowMapEntry g sc entry) s fun t => t.us = s.us ∧
      ctrOf t cFurrowInvalid (scGroup g) = ctrAdd (ctrOf s cFurrowInvalid (scGroup g)) 1 ∧
      Only counting s t) ∧
    (crcOk → known → valid → ¬ rightLane → Answers (.furrowMapEntry g sc entry) s fun t =>
      t.us = s.us ∧
      ctrOf t cFurrowWrongLane (scGroup g) = ctrAdd (ctrOf s cFurrowWrongLane (scGroup g)) 1 ∧
      Only counting s t) ∧
    (crcOk → known → valid → rightLane →
      (let openF := (usLaneOf s lane).furrows.filter (fun k => !windowClosed s k)
       openF.length < 4096 ∧ ∀ k ∈ openF, windowsOverlap f k = false) →
      Answers (.furrowMapEntry g sc entry) s fun t =>
        f ∈ (usLaneOf t lane).furrows ∧
        (∀ k ∈ (usLaneOf s lane).furrows, windowClosed s k = false →
          k ∈ (usLaneOf t lane).furrows) ∧
        (∀ x, x ≠ lane → usLaneOf t x = usLaneOf s x) ∧ Only (counting ++ [.us]) s t)

/-- The life of a burst (R105, R109, R115, R120-R123, R149-R151). -/
def Obligations.BurstsOpenAndCloseTheGate : Prop :=
  ∀ (x : Fin 2) (s : State), let l := usLaneOf s x
    (l.furrows.find? (fun f => f.stage == 0) = none →
      exec (.headerSamplePoint x) s = .next s) ∧
    (∀ f, l.furrows.find? (fun f => f.stage == 0) = some f →
      let i := ltxOwner s x
      let y := instOf s i
      let shape := burstShape f.pre f.dur f.so
      let laid (t : State) (b : Burst) : Prop := b ∈ (usLaneOf t x).bursts ∧ b.furrow = f ∧
        b.sending = false ∧ (b.len, b.k, b.j) = shape ∧ Only (writes (.headerSamplePoint x)) s t
      let window := isAnnounce f = true ∨ isRanging s x f = true
      (window → windowUsable f = false → Answers (.headerSamplePoint x) s fun t =>
        ctrOf t cRngWindowUnusable (scInst i) = ctrAdd (ctrOf s cRngWindowUnusable (scInst i)) 1 ∧
        t.us = (setStage x f 1 s).us ∧ Only (counting ++ [.us]) s t) ∧
      (isAnnounce f = true → windowUsable f = true →
        (y.stBurst ≠ .announce ∨ y.annOpen = false →
          exec (.headerSamplePoint x) s = .next (setStage x f 1 s)) ∧
        (y.stBurst = .announce → y.annOpen = true → 0 < y.backoff →
          Answers (.headerSamplePoint x) s fun t =>
            instOf t i = { y with backoff := y.backoff - 1 } ∧ t.us = (setStage x f 1 s).us ∧
            Only [.us, .act] s t) ∧
        (y.stBurst = .announce → y.annOpen = true → y.backoff = 0 →
          Answers (.headerSamplePoint x) s fun t => (instOf t i).backoff ≤ y.annBackoff ∧
            ∃ b, laid t b ∧ b.announce = true ∧ b.delay % 64 = 0 ∧
              b.delay ≤ f.dur - shape.1)) ∧
      (isAnnounce f = false → isRanging s x f = true → windowUsable f = true →
        (y.stBurst ≠ .ranging → y.stBurst ≠ .operating →
          exec (.headerSamplePoint x) s = .next (setStage x f 1 s)) ∧
        (y.stBurst = .ranging ∨ y.stBurst = .operating → Answers (.headerSamplePoint x) s fun t =>
          ∃ b, laid t b ∧ b.ranging = true ∧ b.delay = 0)) ∧
      (isAnnounce f = false → isRanging s x f = false → Answers (.headerSamplePoint x) s fun t =>
        ∃ b, laid t b ∧ b.announce = false ∧ b.ranging = false ∧ b.delay = 0 ∧
          b.statusOnly = (decide (f.dur = 0) || f.so)) ∧
      (isAnnounce f = false → isRanging s x f = false → f.dur = 0 →
        Answers (.headerSamplePoint x) s fun t =>
          let s1 := setStage x f 1 s
          t = addBurst x { furrow := f, hdr := burstHeader s1 x f (resyncDue s x) false false true
                           msg := none, lots := idleFill 24 24
                           len := preGrains f.pre + 704, k := 0, j := 1, statusOnly := true
                           resync := resyncDue s x } s1)) ∧
    (l.furrows.find? (fun f => f.stage == 1) = none → exec (.burstEnable x) s = .next s) ∧
    (∀ f, l.furrows.find? (fun f => f.stage == 1) = some f →
      let s0 := setStage x f 2 (endBurst x s)
      (grainCome s (enableGrain s x f) = false → exec (.burstEnable x) s = .next s) ∧
      (grainCome s (enableGrain s x f) = true →
        (gateOpen s0 x f = false → l.ben = false → Answers (.burstEnable x) s fun t =>
          (usLaneOf t x).ben = false ∧ NoEnableRises s t ∧
          (l.bursts = [] → ctrOf t cFurrowSkipped (scLtx x) =
            ctrAdd (ctrOf s cFurrowSkipped (scLtx x)) 1) ∧ Only (writes (.burstEnable x)) s t) ∧
        (∀ b, gateOpen s0 x f = true → burstOf s0 x f = some b →
          Answers (.burstEnable x) s fun t =>
            (usLaneOf t x).ben = true ∧ (usLaneOf t x).benSince = burstStart b - 8 ∧
            (∀ y, y ≠ x.val → (usLaneOf t y).ben = (usLaneOf s0 y).ben) ∧
            (∀ c ∈ (usLaneOf t x).bursts, c.furrow.s = f.s → c.furrow.sc = f.sc →
              c.sending = true) ∧
            Only (writes (.burstEnable x)) s t))) ∧
    ((∀ b, l.bursts.head? = some b → b.sending = false) → exec (.burstEnd x) s = .next s) ∧
    (∀ b rest, l.bursts = b :: rest → b.sending = true → Answers (.burstEnd x) s fun t =>
      (usLaneOf t x).ben = false ∧ NoEnableRises s t ∧ Only (writes (.burstEnd x)) s t) ∧
    (l.ben = true → l.wdTrip = false → Answers (.laserWatchdog x) s fun t =>
      (usLaneOf t x).ben = false ∧ (usLaneOf t x).wdTrip = true ∧ NoEnableRises s t ∧
      Only (writes (.laserWatchdog x)) s t) ∧
    (l.ben = false ∨ l.wdTrip = true → exec (.laserWatchdog x) s = .next s) ∧
    (l.wdMonitor = true ∨ (l.ben = true ∧ s.clk.refclk = false) → l.wdTrip = false →
      Answers (.watchdogRefclkTrip x) s fun t =>
        (usLaneOf t x).ben = false ∧ (usLaneOf t x).wdTrip = true ∧ NoEnableRises s t ∧
        Only (writes (.watchdogRefclkTrip x)) s t) ∧
    (l.wdTrip = true ∨ l.wdMonitor = false ∧ (l.ben = false ∨ s.clk.refclk = true) →
      exec (.watchdogRefclkTrip x) s = .next s) ∧
    ∀ q : Fin 1024,
      (∀ f rest, (usOf s q).frames = f :: rest → 0 < f.sent →
        Answers (.fragAbandonTx q) s fun t =>
          (usOf t q).frames = rest ∧ (∀ k, k ≠ q.val → usOf t k = usOf s k) ∧
          ctrOf t cFragAbandonTx (scUsQueue q) = ctrAdd (ctrOf s cFragAbandonTx (scUsQueue q)) 1 ∧
          Only (writes (.fragAbandonTx q)) s t) ∧
      ((∀ f, (usOf s q).frames.head? = some f → f.sent = 0) →
        exec (.fragAbandonTx q) s = .next s)

/-- The checks common to the activation messages (R133-R138). -/
def Obligations.FieldMessagesAreCheckedBeforeTheyAct : Prop :=
  ∀ (m : FieldMsg) (o : Optics) (s : State),
    let i := groupOwner s m.group
    let y := instOf s i
    let cast := msgTid m = 0xFFFF
    (∀ p ∈ [(Instr.heProfile m, 1), (.assignId m, 2), (.rangingTime m, 3), (.assignPlot m, 4),
        (.assignLot m, 5), (.deactivate m, 6), (.silence m, 7), (.release m, 8), (.tune m o, 9),
        (.switchParent m, 10)],
      (msgType m ≠ p.2 ∨ msgPrimary s m = false ∨ s.pwr.listening ≠ 0 ∨
        (¬ cast ∧ msgTid m ≠ y.terminalId) → exec p.1 s = .next s) ∧
      (msgType m = p.2 → msgPrimary s m = true → s.pwr.listening = 0 →
        (cast ∨ msgTid m = y.terminalId) →
        (tagOk s i m = false → Answers p.1 s fun t =>
          ctrOf t cFmsgTagErr (scInst i) = ctrAdd (ctrOf s cFmsgTagErr (scInst i)) 1 ∧
          Only counting s t) ∧
        (tagOk s i m = true → ¬ cast → ∀ q, y.lastSeq = some q → 128 ≤ (msgSeq m - q).toNat →
          Answers p.1 s fun t => Only counting s t) ∧
        (tagOk s i m = true → ¬ cast → y.lastSeq = some (msgSeq m) → Answers p.1 s fun t =>
          (∀ k, (instOf t k).st = (instOf s k).st ∧ (instOf t k).todo = (instOf s k).todo ∧
            (instOf t k).terminalId = (instOf s k).terminalId) ∧
          t.act.plots = s.act.plots ∧ t.act.working = s.act.working ∧
          Only (counting ++ [.act]) s t))) ∧
    (msgDefined (msgType m) = false → msgPrimary s m = true → s.pwr.listening = 0 →
      cast ∨ msgTid m = y.terminalId → tagOk s i m = true →
      Answers (.undefinedFieldMessage m) s fun t =>
        ctrOf t cFmsgUnknownType (scInst i) = ctrAdd (ctrOf s cFmsgUnknownType (scInst i)) 1 ∧
        Only counting s t) ∧
    (msgDefined (msgType m) = true ∨ msgPrimary s m = false ∨ s.pwr.listening ≠ 0 ∨
      (¬ cast ∧ msgTid m ≠ y.terminalId) → exec (.undefinedFieldMessage m) s = .next s)

/-- Effects of admitted activation messages (R139-R164). -/
def Obligations.AdmittedMessagesAct : Prop :=
  ∀ (m : FieldMsg) (o : Optics) (s : State), Admitted m s →
    let i := groupOwner s m.group
    let y := instOf s i
    let b := m.bytes
    let cast := msgTid m = 0xFFFF
    let acked (t : State) := ∀ z, z = instOf t i → z.lastSeq = some (msgSeq m) ∧
      z.lastAck = some (BitVec.ofNat 8 (msgType m), msgSeq m, 0)
    (msgType m = 1 → cast → Does (.heProfile m) s fun t =>
      (instOf t i).heId = BitVec.ofNat 32 (field b 4 4) ∧
      (instOf t i).annBackoff = (byteAt b 12).toNat % 16 ∧
      (y.st = .listen → y.enabled = true → instLocked s i = true →
        field b 8 2 ≤ (revRange s).2 → (revRange s).1 ≤ field b 10 2 →
        (instOf t i).st = .announce) ∧
      (y.st = .holdover → instLocked s i = true → (instOf t i).st = .operating)) ∧
    (msgType m = 2 → cast → serialMatches s m = true → y.st = .announce →
      field b 12 2 ≠ 0xFFFF → (revRange s).1 ≤ field b 16 2 → field b 16 2 ≤ (revRange s).2 →
      Does (.assignId m) s fun t =>
        (instOf t i).st = .ranging ∧ (instOf t i).lastSeq = none ∧
        (instOf t i).terminalId = BitVec.ofNat 16 (field b 12 2) ∧
        (instOf t i).opRev = BitVec.ofNat 16 (field b 16 2) ∧
        (instOf t i).rangePlot = BitVec.ofNat 14 (field b 14 2 % 16384)) ∧
    (msgType m = 3 → ¬ cast → y.st = .ranging ∨ y.st = .operating → field b 8 4 ≤ 95200000 →
      ltxOwner s ((byteAt b 4).toNat % 2) = i → Does (.rangingTime m) s fun t =>
        let eff := laterSc (BitVec.ofNat 48 (field b 16 6)) (m.sc + 1)
        acked t ∧ (instOf t i).st = y.st ∧
        (let l := usLaneOf s ((byteAt b 4).toNat % 2)
         (usLaneOf t ((byteAt b 4).toNat % 2)).eqd = l.eqd ∧
         (usLaneOf t ((byteAt b 4).toNat % 2)).eqdAssigned = l.eqdAssigned) ∧
        (eff, field b 8 4) ∈ (usLaneOf t ((byteAt b 4).toNat % 2)).eqdPending ∧
        ((byteAt b 4).getLsbD 1 = true → y.st = .ranging →
          ⟨m.group.val, some eff, .operating⟩ ∈ (instOf t i).todo)) ∧
    (msgType m = 4 → ¬ cast → y.st = .ranging ∨ y.st = .operating →
      field b 6 2 % 16384 ≠ 0x3FFF →
      (tabGet 0 s.act.plots (field b 6 2 % 16384) = i + 1 ∨
        tabGet 0 s.act.plots (field b 6 2 % 16384) = 0 ∧ s.act.plots.length < 256) →
      Does (.assignPlot m) s fun t =>
        acked t ∧ (instOf t i).st = y.st ∧
        ∀ p, tabGet 0 t.act.plots p = if p = field b 6 2 % 16384 then
          (if (byteAt b 4).getLsbD 0 then i + 1 else 0) else tabGet 0 s.act.plots p) ∧
    (msgType m = 5 → ¬ cast → y.st = .ranging ∨ y.st = .operating → field b 6 2 ≠ 0xFFFF →
      (byteAt b 4).getLsbD 0 = true → byteAt b 8 ≠ 0 →
      labelReserved (byteAt b 8).toNat = false →
      ((lotOf s (field b 6 2)).present = true ∧ (lotOf s (field b 6 2)).owner = i ∨
        (lotOf s (field b 6 2)).present = false ∧ s.lots.length < 4096) →
      Does (.assignLot m) s fun t =>
        acked t ∧ ∀ k, lotOf t k = if k = field b 6 2 then
          { present := true, expLabel := byteAt b 8, reqKey := (byteAt b 4).getLsbD 1,
            groupMask := ownMask s i (byteAt b 9).toNat,
            cls := BitVec.ofNat 8 ((byteAt b 10).toNat % 8), owner := i }
          else lotOf s k) ∧
    (msgType m = 6 → ¬ cast → y.st = .ranging ∨ y.st = .operating ∨ y.st = .holdover ∨
      y.st = .silenced → Does (.deactivate m) s fun t =>
        (instOf t i).st = .listen ∧ (instOf t i).terminalId = 0xFFFF ∧
        (instOf t i).txQueue = [] ∧ (instOf t i).durRunning = false) ∧
    (msgType m = 7 → (cast → serialMatches s m = true) → y.st = .announce ∨ y.st = .ranging ∨
      y.st = .operating → Does (.silence m) s fun t =>
        (instOf t i).st = .silenced ∧ (instOf t i).prior = y.st ∧
        ⟨m.group.val, none, .duration (BitVec.ofNat 16 (field b 12 2))⟩ ∈ (instOf t i).todo) ∧
    (msgType m = 8 → (cast → serialMatches s m = true) → y.st = .silenced →
      Does (.release m) s fun t =>
        (y.prior ≠ .operating → (instOf t i).st = .listen) ∧
        (y.prior = .operating → instLocked s i = true → (instOf t i).st = .operating)) ∧
    (msgType m = 9 → ¬ cast → y.st = .operating → y.opRev ≠ 0x0100 →
      ltxOwner s ((byteAt b 4).toNat % 2) = i → o.tunable = true →
      (∃ g ∈ o.grids, g.1 = byteAt b 5 ∧ g.2.1 ≤ (BitVec.ofNat 16 (field b 6 2)).toInt ∧
        (BitVec.ofNat 16 (field b 6 2)).toInt ≤ g.2.2) →
      Does (.tune m o) s fun t =>
        (instOf t i).st = .tuning ∧ (instOf t i).tuneLane = (byteAt b 4).toNat % 2 ∧
        ⟨m.group.val, none, .tune ((byteAt b 4).toNat % 2) (byteAt b 5)
          (BitVec.ofNat 16 (field b 6 2))⟩ ∈ (instOf t i).todo) ∧
    (msgType m = 10 → ¬ cast → y.st = .operating → y.opRev ≠ 0x0100 → s.act.dual = true →
      (byteAt b 4).toNat % 2 ≠ s.act.working →
      (instOf s ((byteAt b 4).toNat % 2)).st = .operating →
      Does (.switchParent m) s fun t =>
        acked t ∧ t.act.pendingSwitch = some ((byteAt b 4).toNat % 2) ∧
        t.act.working = s.act.working ∧ (instOf t i).st = y.st)

/-- The expiries of activation's timers (R143-R147, R163, R164). -/
def Obligations.ActivationTimersExpire : Prop :=
  ∀ (n : Fin 2) (s : State),
    let y := instOf s n
    let run := s.pwr.st = .run ∨ s.pwr.st = .doze
    (run → y.toProfile = true → Does (.toProfileExpiry n) s fun t =>
      (instOf t n).toProfile = false ∧
      (instOf t n).st = if y.st = .announce ∨ y.st = .ranging then .listen
        else if y.st = .operating then
          if settingN s sToHold (scInst n) = 0 then .listen else .holdover
        else y.st) ∧
    (run → y.toRange = true → Does (.toRangeExpiry n) s fun t =>
      (instOf t n).toRange = false ∧
      (instOf t n).st = (if y.st = .ranging then .listen else y.st) ∧
      (y.st = .ranging → (instOf t n).terminalId = 0xFFFF)) ∧
    (run → y.toHold = true → Does (.toHoldExpiry n) s fun t =>
      (instOf t n).toHold = false ∧
      (instOf t n).st = (if y.st = .holdover then .listen else y.st) ∧
      (y.st = .holdover → (instOf t n).terminalId = 0xFFFF)) ∧
    (¬ run ∨ y.toProfile = false → exec (.toProfileExpiry n) s = .next s) ∧
    (¬ run ∨ y.toRange = false → exec (.toRangeExpiry n) s = .next s) ∧
    (¬ run ∨ y.toHold = false → exec (.toHoldExpiry n) s = .next s) ∧
    (¬ run ∨ y.toTune = false ∨ y.st ≠ .tuning → exec (.toTuneExpiry n) s = .next s) ∧
    (y.st = .tuning → ∀ i ∈ [(Instr.toTuneExpiry n, (2 : BitVec 8)),
        (.tunePoll n .fault, 1)],
      (i.2 = 2 → run ∧ y.toTune = true) →
      let l := usLaneOf s y.tuneLane
      (l.tuneStep = 1 → Does i.1 s fun t => (instOf t n).toTune = true ∧
        (instOf t n).st = .tuning ∧ usLaneOf t y.tuneLane =
          { l with tuneStep := 2, tuneResult := i.2, grid := l.prevGrid, channel := l.prevChannel }) ∧
      (l.tuneStep = 2 → y.silencePending = none → Does i.1 s fun t =>
        (instOf t n).st = .listen ∧ (instOf t n).enabled = false ∧
        (instOf t n).toTune = false ∧ (instOf t n).terminalId = 0xFFFF)) ∧
    (y.st = .tuning → (usLaneOf s y.tuneLane).tuneStep = 1 → y.silencePending = none →
      instLocked s n = true → ∀ f, Does (.tunePoll n (.complete f)) s fun t =>
        (instOf t n).st = .operating ∧ (instOf t n).toTune = false) ∧
    exec (.tunePoll n .inProgress) s = .next s ∧
    (y.durRunning = true → y.st = .silenced → Does (.silenceDurationExpiry n) s fun t =>
      (y.prior ≠ .operating → (instOf t n).st = .listen) ∧
      (y.prior = .operating → instLocked s n = true → (instOf t n).st = .operating)) ∧
    (y.durRunning = false ∨ y.st ≠ .silenced → exec (.silenceDurationExpiry n) s = .next s)

/-- Supervision's commands (R167-R183, R578). -/
def Obligations.SupervisionNotesDefects : Prop :=
  ∀ (l : Fin 4) (d : Fin 2) (s : State),
    (laneEnabled s l = true → (laneOf s l).st ≠ .dormant → (supLaneOf s l).los = false →
      s.reeve.events.length < 64 → Does (.losDeclare l) s fun t =>
        (laneOf t l).signal = false ∧ (supLaneOf t l).los = true ∧
        (supLaneOf t l).lof = (supLaneOf s l).lof ∧ (supLaneOf t l).lol = (supLaneOf s l).lol ∧
        (∀ k, k ≠ l.val → supLaneOf t k = supLaneOf s k ∧ laneOf t k = laneOf s k) ∧
        (t.reeve.events.getLast?).map (fun e => (e.code, e.scope, e.data)) =
          some (0x0501, BitVec.ofNat 16 l, 1)) ∧
    (laneEnabled s l = true → (laneOf s l).st ≠ .dormant → Does (.losClear l) s fun t =>
        (laneOf t l).signal = true ∧ (supLaneOf t l).los = false ∧
        (supLaneOf t l).lof = (supLaneOf s l).lof ∧ (supLaneOf t l).lol = (supLaneOf s l).lol ∧
        (∀ k, k ≠ l.val → supLaneOf t k = supLaneOf s k ∧ laneOf t k = laneOf s k)) ∧
    (laneEnabled s l = true → isLocked (laneOf s l) = true →
      ((laneOf s l).delin = .resync ∨ (laneOf s l).delin = .wait) →
      Does (.lolDeclare l) s fun t => (supLaneOf t l).lol = true ∧
        (supLaneOf t l).los = (supLaneOf s l).los ∧ (supLaneOf t l).lof = (supLaneOf s l).lof ∧
        (∀ k, k ≠ l.val → supLaneOf t k = supLaneOf s k) ∧
        ((supLaneOf s l).los = true → t.reeve = s.reeve)) ∧
    (laneEnabled s l = true → (laneOf s l).st ≠ .dormant → (laneOf s l).delin = .delineated →
      Does (.lolClear l) s fun t => (supLaneOf t l).lol = false ∧
        (supLaneOf t l).los = (supLaneOf s l).los ∧ (supLaneOf t l).lof = (supLaneOf s l).lof ∧
        (∀ k, k ≠ l.val → supLaneOf t k = supLaneOf s k)) ∧
    (domEnabled s d = true → (supDomOf s d).ltm = false → actTimersRun s = true →
      Does (.ltmDeclare d) s fun t => (supDomOf t d).ltm = true ∧
        (supDomOf t d).taf = (supDomOf s d).taf ∧
        (domOf t d).st = (if (domOf s d).st = .locked then .holdover
          else if (domOf s d).st = .acquiring then .freerun else (domOf s d).st)) ∧
    ((supDomOf s d).ltm = true → exec (.ltmDeclare d) s = .next s) ∧
    (Does .rdiEvaluation s fun t => (supInstOf t 0).rdi = (settingB s sForceRdi (scInst 0) ||
        (supInstOf s 0).rdiSeen || rdiInput s 0) ∧
      (s.act.dual = true → (supInstOf t 1).rdi = (settingB s sForceRdi (scInst 1) ||
        (supInstOf s 1).rdiSeen || rdiInput s 1))) ∧
    ((supInstOf s d).holdStart.isSome = true → s.act.working = d →
      Does (.holdOffExpiry d) s fun t =>
        (supInstOf t d).holdStart = none ∧ (supInstOf t d).fired = true ∧
        (supInstOf t d).refused = !decide ((instOf s (1 - d.val)).st = .operating) ∧
        t.act.working = s.act.working ∧ t.act.pendingSwitch =
          if (instOf s (1 - d.val)).st = .operating then some (1 - d.val)
          else s.act.pendingSwitch) ∧
    ((supInstOf s d).holdStart = none → exec (.holdOffExpiry d) s = .next s) ∧
    (s.pwr.st ≠ .fallow → s.pwr.st ≠ .deepFallow →
      ∀ ms, (Does (.binClose false ms) s fun t =>
        t.sup.closed15.length = min 96 (s.sup.closed15.length + 1) ∧
        (t.sup.closed15.head?).map (fun b => (b.start, b.counts)) =
          some (s.sup.open15.start, s.sup.open15.counts) ∧
        t.sup.open15.counts = [] ∧ t.sup.openDay = s.sup.openDay) ∧
      (Does (.binClose true ms) s fun t =>
        t.sup.closedDay.length = min 31 (s.sup.closedDay.length + 1) ∧
        (t.sup.closedDay.head?).map (fun b => (b.start, b.counts)) =
          some (s.sup.openDay.start, s.sup.openDay.counts) ∧
        (0 < ringCap t.life 1 → (t.life.dayBins.head?).map (·.bin) = t.sup.closedDay.head?) ∧
        (∀ more, ms = false :: more ∨ ms = [] → t.life.live.badSlots = s.life.live.badSlots) ∧
        (∀ more k, ms = true :: false :: more → nextSlot s.life 1 = some k →
          t.life.live.badSlots = s.life.live.badSlots + 1 ∧
          (s.life.spareUsed + 1024 ≤ 296960 →
            (k, s.life.spareUsed) ∈ (ringOf t.life 1).remap) ∧
          (296960 < s.life.spareUsed + 1024 → k ∈ (ringOf t.life 1).skipped)) ∧
        t.sup.openDay.counts = [] ∧ t.sup.open15 = s.sup.open15)) ∧
    (Does .binSecondEnd s fun t => t.sup.open15.seconds = s.sup.open15.seconds + 1 ∧
        t.sup.openDay.seconds = s.sup.openDay.seconds + 1 ∧ t.sup.closed15 = s.sup.closed15) ∧
    (s.pins.inReset = false → Does .gaspInAssert s fun t =>
        t.pins = { s.pins with gasp := true } ∧
        (0 < ringCap t.life 0 →
          (t.life.checkpoints.head?).map (fun c => (c.tl, c.era)) = some (now s, s.clk.era)) ∧
        t.life.checkpoints.length = min (ringCap t.life 0) (s.life.checkpoints.length + 1)) ∧
    (s.pins.inReset = true → exec .gaspInAssert s = .next s) ∧
    Does .gaspInClear s fun t => t.pins = { s.pins with gasp := false }

/-- The commands of time distribution (R10, R192-R219). -/
def Obligations.TimeIsKeptByItsEvents : Prop :=
  ∀ (m : FieldMsg) (d : Fin 2) (edge : BitVec 64) (s : State),
    (2 ^ 64 ≤ s.clk.timeline.toNat + stepGrains s → Does .timelineWrap s fun t =>
      t.clk = { s.clk with
        timeline := s.clk.timeline + BitVec.ofNat 64 (stepGrains s), era := s.clk.era + 1 }) ∧
    (Admitted m s → msgType m = 0x40 → msgTid m = 0xFFFF →
      ([0, 1].filter fun k => domEnabled s k &&
        domSrc s k == bit ((byteAt m.bytes 4).getLsbD 7) && timeGroup s k == m.group.val) = [d.val] →
      targetKey s 4 d 0 = none → (supDomOf s d).taf = false →
      field m.bytes 18 6 % 2 ^ 36 < 53125000000 →
      (m.sc - BitVec.ofNat 48 (field m.bytes 6 6)).toNat ≤ 15 →
      Does (.timeSow m) s fun t => (supDomOf t d).lastAccepted = some (now s) ∧
        (∀ p a r, primaryOf s m.group.val (BitVec.ofNat 48 (field m.bytes 6 6)) = some p →
          arrivalOf s p (BitVec.ofNat 48 (field m.bytes 6 6)) = some a →
          rangingLane s d (BitVec.ofNat 48 (field m.bytes 6 6)) = some r →
          byteAt m.bytes 5 ≠ 0xF0 → (domOf t d).quality = byteAt m.bytes 5)) ∧
    (Does .fitWindowEnd s fun t => ∀ k l p, l < 4 → p < 4 → fitLaneOf t k l p =
      if (k = 0 ∨ k = 1) ∧ domEnabled s k = true then {} else fitLaneOf s k l p) ∧
    ((domOf s d).st = .holdover → Does (.holdValidExpiry d) s fun t =>
      (domOf t d) = { domOf s d with holdExpired := true }) ∧
    ((domOf s d).st ≠ .holdover → exec (.holdValidExpiry d) s = .next s) ∧
    (s.time.offset ≠ 0 → s.time.runOn = none → s.reeve.events.length < 64 →
      Does .slewDone s fun t =>
        t.time = { s.time with offset := 0, offsetAt := now s } ∧
        (t.reeve.events.getLast?).map (·.code) = some 0x0607) ∧
    (s.time.offset = 0 ∨ s.time.runOn ≠ none → exec .slewDone s = .next s) ∧
    (settingB s sPpsInEnable scDevice = true →
      (s.clk.onFio = false → (∀ p, s.time.lastPpsIn = some p → 26562500000 ≤ tlDiff p edge) →
        Does (.ppsInEdge edge) s fun t =>
          t.time.lastPpsIn = some edge ∧ t.time.ppsInLost = false ∧
          t.time.captures.length = min 16 (s.time.captures.length + 1) ∧
          (t.time.captures.head?).map (fun c => (c.era, c.tl)) = some (eraOf s edge, edge) ∧
          ctrOf t cPpsInEdges scDevice = ctrAdd (ctrOf s cPpsInEdges scDevice) 1) ∧
      (s.clk.onFio = false → (∃ p, s.time.lastPpsIn = some p ∧ tlDiff p edge < 26562500000) →
        Does (.ppsInEdge edge) s fun t => t.time = s.time ∧
          ctrOf t cPpsInGlitch scDevice = ctrAdd (ctrOf s cPpsInGlitch scDevice) 1) ∧
      (s.time.ppsInLost = false → s.reeve.events.length < 64 → Does .ppsInLost s fun t =>
        t.time = { s.time with ppsInLost := true } ∧
        (t.reeve.events.getLast?).map (·.code) = some 0x0609) ∧
      (s.time.ppsInLost = true → exec .ppsInLost s = .next s)) ∧
    (settingB s sPpsInEnable scDevice = false →
      exec (.ppsInEdge edge) s = .next s ∧ exec .ppsInLost s = .next s) ∧
    (s.clk.onFio = true → exec (.ppsInEdge edge) s = .next s ∧ exec .ppsOutEdge s = .next s ∧
      exec .todOutMessage s = .next s) ∧
    ((domOf s d).st = .locked → Does (.usedRecordTimeout d) s fun t =>
      (domOf t d).st = .holdover ∧ supDomOf t d = supDomOf s d) ∧
    (∀ v, outTime s (now s) = some v → s.pwr.st ≠ .deepFallow → s.clk.onFio = false →
      (∀ e, s.time.lastEdge = some e → 26562500000 ≤ tlDiff e (now s)) →
      Does .ppsOutEdge s fun t => t.time.lastEdge = some (now s) ∧
        (settingB s sPpsOutEnable scDevice = true → setting s sPpsSquelch scDevice ≠ 1 →
          t.time.ppsLevel = true) ∧
        (settingB s sPpsOutEnable scDevice = false → t.time.ppsLevel = s.time.ppsLevel) ∧
        (settingB s sTodEnable scDevice = true → t.time.pendingTod.isSome = true ∧
          t.time.todSeq = s.time.todSeq + 1) ∧
        (settingB s sTodEnable scDevice = false → t.time.pendingTod = s.time.pendingTod)) ∧
    (Does .ppsOutFall s fun t => t.time = { s.time with ppsLevel := false }) ∧
    (∀ b, s.time.pendingTod = some b → s.clk.onFio = false → Does .todOutMessage s fun t =>
      t.time = { s.time with pendingTod := none, todSent := some b })

/-- Commands about links of Ethernet ports (R226-R238, R463). -/
def Obligations.PortsFollowTheirLinks : Prop :=
  ∀ (p : Fin 8) (s : State),
    let x := portOf s p
    let others (t : State) := ∀ q, q ≠ p.val → portOf t q = portOf s q
    (x.link ≠ .disabled → s.clk.hrefclk = true → ∀ locks,
      let all := ∀ i, i < (portLanes s p).length → locks.getLsbD i = true
      (all → Does (.pcsStatusChange p true locks) s fun t => others t ∧
        (portOf t p).pcsUp = true ∧ (portOf t p).hiBer = false ∧ (portOf t p).locks = locks ∧
        (portOf t p).link = if x.link = .down then .rising else x.link) ∧
      (∀ up, up = false ∨ ¬ all → Does (.pcsStatusChange p up locks) s fun t => others t ∧
        (portOf t p).pcsUp = false ∧ (portOf t p).locks = locks ∧ (portOf t p).link = .down)) ∧
    (x.link = .disabled ∨ s.clk.hrefclk = false → ∀ up locks,
      exec (.pcsStatusChange p up locks) s = .next s) ∧
    (x.link = .rising → Does (.linkUpDelayExpiry p) s fun t => others t ∧
      (portOf t p).link = if x.pcsUp = true ∧ x.faultSeen = false then .up else .rising) ∧
    (x.link ≠ .rising → exec (.linkUpDelayExpiry p) s = .next s) ∧
    (x.link ≠ .disabled → x.pcsUp = true → ∀ remote,
      Does (.faultOrderedSetRx p remote) s fun t => others t ∧
        (portOf t p).faultSeen = true ∧ (portOf t p).remoteFault = remote ∧
        (portOf t p).link = (if x.link = .up then .fault else x.link) ∧
        (x.link = .up → (portOf t p).timeQ = [])) ∧
    (Does (.faultCleared p) s fun t => others t ∧ (portOf t p).faultSeen = false ∧
      (x.link = .fault → x.pcsUp = true → (portOf t p).link = .up) ∧
      (x.link = .down ∨ x.link = .disabled → (portOf t p).link = x.link)) ∧
    (∀ l : Fin 4, x.link ≠ .disabled → l.val < (portLanes s p).length →
      x.locks.getLsbD l = true → Does (.blockLockLoss p l) s fun t => others t ∧
        (portOf t p).locks = x.locks &&& ~~~(1#4 <<< l.val) ∧ (portOf t p).pcsUp = false ∧
        (portOf t p).link = .down) ∧
    (x.link ≠ .disabled → Does (.hiBer p) s fun t => others t ∧ (portOf t p).hiBer = true ∧
      (portOf t p).pcsUp = false ∧ (portOf t p).link = .down) ∧
    (x.link = .disabled → exec (.hiBer p) s = .next s) ∧
    (Does (.pauseExpiry p) s fun t => others t ∧ portOf t p = { x with pauseUntil := none }) ∧
    (∀ capture, let stopped := s.pwr.intakeStopped
      (x.link ≠ .disabled → x.pcsUp = true → x.rx = none →
        Does (.rxFrameStart p capture) s fun t => others t ∧
          (∃ r, (portOf t p).rx = some r ∧ (s.clk.onFio = false → r.capture = capture) ∧
            r.filters = x.filters ∧ r.defaultDrop = x.defaultDrop ∧
            r.defaultClass = x.defaultClass ∧ r.maxFrame = maxFrame s p ∧ r.begun = now s ∧
            r.refused = stopped ∧ r.noBuf = (!floorOk s && !stopped)) ∧
          t.qos.free = if floorOk s = true ∧ stopped = false then s.qos.free - 1 else s.qos.free) ∧
      (x.link = .disabled ∨ x.pcsUp = false ∨ x.rx ≠ none →
        exec (.rxFrameStart p capture) s = .next s)) ∧
    (∀ (l : Fin 8) (up : Bool),
      let pi := lanePort s l
      let c := (slaneOf s l).code
      setting s sSlCtleMode (scSlane l) = 1 → (portOf s pi.1).locks.getLsbD pi.2 = true →
      (up = true → c < settingN s sSlAdaptMax (scSlane l)) →
      (up = false → settingN s sSlAdaptMin (scSlane l) < c) →
      Does (.slCtleAdapt l up) s fun t =>
        (slaneOf t l).code = (if up then c + 1 else c - 1) ∧
        ∀ k, k ≠ l.val → slaneOf t k = slaneOf s k)

/-- Frames of Ethernet ports and the trap queue (R236-R250, R347). -/
def Obligations.FramesEnterAndLeavePorts : Prop :=
  ∀ (p : Fin 8) (s : State),
    let x := portOf s p
    let others (t : State) := ∀ q, q ≠ p.val → portOf t q = portOf s q
    (∀ (f : RxFrame) (r : RxState), x.rx = some r →
      let b := f.bytes
      let good := f.blockErrs = 0 ∧ f.fecUncorrectable = 0 ∧ r.cut = false ∧ fcsOk b = true
      let ended (t : State) := others t ∧
        { portOf t p with owed := x.owed } = { x with rx := none }
      (r.maxFrame < b.length ∨ b.length < 64 ∨ ¬ good → Does (.rxFrameEnd p f) s fun t =>
        ended t ∧ t.inQ = s.inQ) ∧
      (64 ≤ b.length → b.length ≤ r.maxFrame → good → field b 12 2 = 0x8808 →
        Does (.rxFrameEnd p f) s fun t => others t ∧ t.inQ = s.inQ ∧ (portOf t p).rx = none ∧
          (field b 14 2 = 1 → settingB s sPauseRx (scPort p) = true → field b 16 2 ≠ 0 →
            (x.tx = none → (portOf t p).pauseUntil.isSome = true) ∧
            (x.tx ≠ none → (portOf t p).pauseNext = some (field b 16 2)))) ∧
      (64 ≤ b.length → b.length ≤ r.maxFrame → good → field b 12 2 ≠ 0x8808 →
        claimFrame p (b.take (b.length - 4)) (tlAdd r.capture (-(setting s sTsBoardRx (scPort p)))) s
          = none →
        timeOnly s = false → filterFind s p b 0 r.filters = none → r.defaultDrop = false →
        r.refused = false → r.noBuf = false → bushelsOf b.length ≤ r.bushels + s.qos.free →
        Does (.rxFrameEnd p f) s fun t => ended t ∧
          ∃ k, t.inQ = s.inQ ++ [k] ∧ k.line = false ∧ k.port = p.val ∧ k.bytes = b ∧
            k.fcsKept = true ∧ k.cls = r.defaultClass ∧ k.capture = r.capture ∧
            k.bushels = bushelsOf b.length)) ∧
    (x.rx = none → ∀ f, (x.link = .disabled → exec (.rxFrameEnd p f) s = .next s) ∧
      (x.link ≠ .disabled → Does (.rxFrameEnd p f) s fun t => others t ∧ t.inQ = s.inQ ∧
        { portOf t p with owed := x.owed } = x)) ∧
    (∀ n, x.tx = some n → x.timeQ = [] → Does (.txFrameDone p) s fun t => others t ∧
      (x.pauseNext = none → portOf t p = { x with tx := none }) ∧
      ∀ k, x.pauseNext = some k → (portOf t p).tx = none ∧ (portOf t p).pauseNext = none ∧
        (portOf t p).pauseUntil.isSome = decide (k ≠ 0)) ∧
    (x.tx = none → exec (.txFrameDone p) s = .next s) ∧
    (canStart s p = true →
      (∀ m rest, x.timeQ = m :: rest → m.kind ≠ 0 → mayLeave s p m = true → Does (.dsSchedulingDecision p) s fun t =>
        others t ∧ portOf t p = { x with
          timeQ := rest, tx := some { bytes := withFcs m.bytes, queue := none, kind := m.kind } }) ∧
      (∀ q a f rest, x.timeQ = [] → (∀ c < 8, headBad s p (p * 8 + c) = none) →
        shaperOpen s (scPort p) = true → dsPick s p = some (q, a) →
        (dsOf s q).frames = f :: rest → f.sheaf = false →
        Does (.dsSchedulingDecision p) s fun t => others t ∧
          (∃ n, (portOf t p).tx = some n ∧ n.bytes = (completed f).1 ∧ n.queue = some q) ∧
          (dsOf t q).frames = rest ∧ ∀ k, k ≠ q → (dsOf t k).frames = (dsOf s k).frames)) ∧
    (canStart s p = false → exec (.dsSchedulingDecision p) s = .next s) ∧
    (∀ e rest, s.tine.trapQ = e :: rest →
      (Does (.trapQueueService false) s fun t => t.tine = { s.tine with trapQ := rest } ∧
        t.inQ = s.inQ) ∧
      (Does (.trapQueueService true) s fun t => t.tine = { s.tine with trapQ := rest } ∧
        ∃ k, t.inQ = s.inQ ++ [k] ∧ k.port = e.pkt.port ∧ k.bushels = e.pkt.bushels ∧
          k.capture = e.pkt.tl ∧ k.bytes = e.pkt.desc ++ e.pkt.body ++
            (if e.pkt.fcs.isEmpty then [] else if e.pkt.modified then fcsBytes e.pkt.body
              else e.pkt.fcs))) ∧
    (s.tine.trapQ = [] → ∀ b, exec (.trapQueueService b) s = .next s)

/-- Announce, Sync and Follow_Up messages join their port's queue, or nothing is sent (spec/09). -/
def Obligations.PreciseTimeMessagesAreSentWhenDue : Prop :=
  ∀ (s : State) (port : Fin 8) (instB : Bool) (client : Option (BitVec 128)),
  let p := portOf s port
  let at_ := fun (t : State) => portOf t port
  let busy := p.link = .up ∧ p.tx.isSome = true
  let seq := fun (ty : Nat) => (takeSeq port instB ty client s).1
  let taken := fun (ty : Nat) => { p with seqs := (at_ (takeSeq port instB ty client s).2).seqs }
  let queued := fun (t : State) (x : Port) (kind : Nat) (event one : Bool)
      (dst : Option (BitVec 48 × BitVec 128)) (msg : Bytes) =>
    ∃ u f, u.settings = s.settings ∧ ptpFrame u port dst event one msg = f ∧
      at_ t = { x with timeQ := p.timeQ ++ [{
        kind := kind, bytes := f.2, ptpAt := f.1, instB := instB, ip := client, oneStep := one
        src := ptpSource s port instB, board := setting s sTsBoardTx (scPort port)
        v6 := decide (ptpProfile s port = 3) }] } ∧
      ∀ q, q ≠ port.val → portOf t q = portOf s q
  (ptpDest s port instB client 11 = none → exec (.ptpAnnounceTx port instB client) s = .next s) ∧
  (busy → ∀ dst src, ptpDest s port instB client 11 = some dst → ptpSource s port instB = some src →
    Does (.ptpAnnounceTx port instB client) s fun t =>
      let a := announceBody s port src
      queued t (taken 11) 2 false false dst
        (ptpMessage port 11 (ptpDomain s port instB) (a.1 + uniFlag dst) 0 (seq 11).toNat
          (logField dst 0xFD) a.2)) ∧
  (ptpDest s port instB client 0 = none → exec (.ptpSyncTx port instB client) s = .next s) ∧
  (busy → ∀ dst, ptpDest s port instB client 0 = some dst →
    Does (.ptpSyncTx port instB client) s fun t =>
      let one := decide (setting s sStepMode (scPort port) = 0)
      queued t (taken 0) 0 true one dst
        (ptpMessage port 0 (ptpDomain s port instB) (uniFlag dst + (if one then 0 else 0x0200)) 0
          (seq 0).toNat (logField dst 0xFC) (List.replicate 10 0))) ∧
  (∀ f, p.follow.find? (fun f => f.instB == instB && f.ip == client) = some f →
    (ptpDest s port instB client 0 = none → Does (.followUp port instB client) s fun t =>
      at_ t = { p with follow := p.follow.erase f }) ∧
    (busy → ∀ dst, ptpDest s port instB client 0 = some dst →
      Does (.followUp port instB client) s fun t =>
        queued t { p with follow := p.follow.erase f } 1 false false dst
          (ptpMessage port 8 (ptpDomain s port instB) (uniFlag dst) f.frac.toNat f.seq.toNat
            (logField dst 0xFC) (stampBytes f.sec.toNat f.ns.toNat)))) ∧
  (p.follow.find? (fun f => f.instB == instB && f.ip == client) = none →
    exec (.followUp port instB client) s = .next s) ∧
  (∀ ip ty, Does (.grantExpiry port instB ip ty) s fun t =>
    at_ t = { p with grants := p.grants.filter (fun g =>
      !(g.instB == instB && g.ip == ip && g.msgType == ty)) } ∧
    ∀ q, q ≠ port.val → portOf t q = portOf s q)

/-- Delay_Req, Signaling, ARP and Neighbor Solicitation messages are answered or ignored (spec/09). -/
def Obligations.ClaimedMessagesAreAnswered : Prop :=
  ∀ (s : State) (port : Fin 8),
  let p := portOf s port
  let busy := p.link = .up ∧ p.tx.isSome = true
  let without := fun (c : Claimed) => { p with timeIn := p.timeIn.erase c }
  let sent := fun (t : State) (m : TimeMsg) => (portOf t port).timeQ = p.timeQ ++ [m] ∧
    (portOf t port).link = .up ∧ (portOf t port).tx = p.tx
  (claimedOf s port 0 = none → exec (.delayReq port) s = .next s) ∧
  (claimedOf s port 1 = none → exec (.signaling port) s = .next s) ∧
  (claimedOf s port 2 = none → exec (.arpRequest port) s = .next s) ∧
  (claimedOf s port 3 = none → exec (.neighborSolicitation port) s = .next s) ∧
  (∀ c, claimedOf s port 0 = some c →
    (claimedMsg s port c.bytes = none → Does (.delayReq port) s fun t => portOf t port = without c) ∧
    (∀ m b src, claimedMsg s port c.bytes = some (m, b, src) →
      let uni := decide (ptpProfile s port ≠ 1)
      let ip := clientIp s port c.bytes
      let who : BitVec 80 := BitVec.ofNat 80 (field m 20 10)
      let before := p.answered.filter
        (fun a => decide (tlDiff a.2 c.capture < secGrains) && a.1 == who)
      let dst := (grantOf s port b ip 9).map (fun g => (g.mac, g.ip))
      (uni = true → dst = none → Does (.delayReq port) s fun t => portOf t port = without c) ∧
      ((takeStamp port src c.capture s).1 = none → (uni = true → dst.isSome = true) →
        Does (.delayReq port) s fun t => portOf t port = without c) ∧
      (∀ st, (takeStamp port src c.capture s).1 = some st → busy →
        (uni = true → dst.isSome = true) → (uni = false → before.length < 128) →
        Does (.delayReq port) s fun t => (portOf t port).timeIn = p.timeIn.erase c ∧
          ∃ u x, sent t x ∧ x.kind = 3 ∧ x.instB = b ∧ u.settings = s.settings ∧
          (x.ptpAt, x.bytes) = ptpFrame u port (if uni then dst else none) false false
            (ptpMessage port 9 (byteAt m 4).toNat (uniFlag (if uni then dst else none))
              (unsigned 64 (signed 64 (field m 8 8) - (st.2.2 : Int))) (field m 30 2)
              (logField (if uni then dst else none) 0xFC)
              (stampBytes st.1 st.2.1 ++ slice m 20 10))))) ∧
  (∀ c, claimedOf s port 1 = some c →
    (claimedMsg s port c.bytes = none → Does (.signaling port) s fun t => portOf t port = without c) ∧
    (∀ m b src, claimedMsg s port c.bytes = some (m, b, src) →
      let ip := clientIp s port c.bytes
      let mac : BitVec 48 := BitVec.ofNat 48 (field c.bytes 6 6)
      let met := modPort port (fun x => { x with grants := x.grants.map (fun g =>
        if g.instB == b && g.ip == ip then { g with mac := mac } else g) }) (unclaim port c s)
      let r := signalTlvs port b src mac ip (field m 2 2) ((m.take (field m 2 2)).drop 44)
        (bump cPtpSignalRx (scPort port) 1 met)
      (r.1 = [] → Does (.signaling port) s fun t => t = r.2) ∧
      (r.1 ≠ [] → busy → Does (.signaling port) s fun t =>
        (portOf t port).grants = (portOf r.2 port).grants ∧ ∃ u seq x, sent t x ∧ x.kind = 4 ∧
          x.ip = some ip ∧ u.settings = s.settings ∧
          (x.ptpAt, x.bytes) = ptpFrame u port (some (mac, ip)) false false
            (ptpMessage port 12 (byteAt m 4).toNat (uniFlag (some (mac, ip))) 0 seq 0x7F
              (slice m 20 10 ++ r.1))))) ∧
  (∀ c, claimedOf s port 2 = some c →
    (isArp s port c.bytes = false → Does (.arpRequest port) s fun t => portOf t port = without c) ∧
    (isArp s port c.bytes = true → busy → Does (.arpRequest port) s fun t =>
      (portOf t port).timeIn = p.timeIn.erase c ∧ ∃ x, sent t x ∧ x.kind = 4 ∧
      x.bytes = slice c.bytes 22 6 ++ portMac s port ++
        [0x08, 0x06, 0x00, 0x01, 0x08, 0x00, 0x06, 0x04, 0x00, 0x02] ++ portMac s port ++
        portIp s port ++ slice c.bytes 22 6 ++ slice c.bytes 28 4)) ∧
  (∀ c, claimedOf s port 3 = some c →
    (isNs s port c.bytes = false →
      Does (.neighborSolicitation port) s fun t => portOf t port = without c) ∧
    (isNs s port c.bytes = true → busy → Does (.neighborSolicitation port) s fun t =>
      (portOf t port).timeIn = p.timeIn.erase c ∧ ∃ x, sent t x ∧ x.kind = 4 ∧
      ∃ mid ck, x.bytes = (if field c.bytes 22 16 = 0 then [0x33, 0x33, 0, 0, 0, 1]
          else slice c.bytes 6 6) ++ portMac s port ++ [0x86, 0xDD] ++ mid ++ [136, 0] ++
        natBytes 2 ck ++ [if field c.bytes 22 16 = 0 then 0x20 else 0x60, 0, 0, 0] ++
        portIp s port ++ [2, 1] ++ portMac s port))

/-- The coulter, the tables and dispatch (R289-R342). -/
def Obligations.PacketsAreClassified : Prop :=
  ∀ s : State,
    (s.inQ = [] → exec (.coulterWalk false) s = .next s) ∧
    (s.cls.recircQ = [] → exec (.coulterWalk true) s = .next s) ∧
    (1024 ≤ s.cls.dispatchQ.length ∨ 512 ≤ s.cls.emQ.length →
      ∀ b, exec (.coulterWalk b) s = .next s) ∧
    (∀ i rest, s.inQ = i :: rest →
      (s.cls.dispatchQ.length < 1024 → s.cls.emQ.length < 512 →
        (Does (.coulterWalk false) s fun t => t.inQ = rest) ∧
        (∀ img n, let p := { pktOf s i with order := s.cls.nextOrder }
          (genOf s p.gen).graph = some img → graphStart (some img) p.src = some n →
          n < graphNodes img → (walkPacket (genOf s p.gen) img p n).1 ≠ 4 →
          Does (.coulterWalk false) s fun t => t.inQ = rest ∧
            t.cls.nextOrder = s.cls.nextOrder + 1 ∧ t.cls.inNew = s.cls.inNew + 1 ∧
            t.cls.dispatchQ.length + t.cls.emQ.length =
              s.cls.dispatchQ.length + s.cls.emQ.length + 1))) ∧
    (s.cls.emQ = [] ∨ 1024 ≤ s.cls.dispatchQ.length → ∀ b n, exec (.emLookup b n) s = .next s) ∧
    (∀ q rest b n, s.cls.emQ = q :: rest → s.cls.dispatchQ.length < 1024 → Does (.emLookup b n) s fun t =>
      t.cls.emQ = rest ∧ t.cls.dispatchQ.length = s.cls.dispatchQ.length + 1) ∧
    (s.cls.rehash = none → ∀ n, exec (.rehashDone n) s = .next s) ∧
    (∀ r n, s.cls.rehash = some r → Does (.rehashDone n) s fun t =>
      t.cry.requests = s.cry.requests + 2 ∧
      (t.cls = s.cls ∨ t.cls.rehash = none ∧ t.cls.bank = !s.cls.bank) ∧
      (s.cls.em = [] → s.cls.stash = [] → r.inserts = [] → t.cls.rehash = none)) ∧
    (∀ n, s.cls.st = .sweeping → s.cls.rehash = none → s.reeve.events.length < 63 →
      Does (.sweepDone n) s fun t => t.cls.st = .oneLive ∧ t.cls.folds = [] ∧ t.cls.old = {} ∧
        t.cls.newest = s.cls.newest ∧ t.cls.cur = s.cls.cur ∧
        (t.reeve.events.getLast?).map (·.code) = some 0x0902) ∧
    (s.cls.st ≠ .sweeping ∨ s.cls.rehash.isSome = true → ∀ n, exec (.sweepDone n) s = .next s) ∧
    (s.cls.st = .twoLive → s.cls.retireSlow = false → s.reeve.events.length < 64 →
      Does .retireSlow s fun t => t.cls = { s.cls with retireSlow := true } ∧
        (t.reeve.events.getLast?).map (·.code) = some 0x0903) ∧
    (s.cls.st ≠ .twoLive ∨ s.cls.retireSlow = true → exec .retireSlow s = .next s) ∧
    (∀ w, s.cls.commit = some w → Does .atSwathExtrapolatedArrival s fun t =>
      t.cls.newest = s.cls.newest + 1 ∧ t.cls.old = s.cls.cur ∧ t.cls.commit = none ∧
      t.cls.stGraph = none ∧ t.cls.stPats = none ∧ t.cls.stDeflt = none ∧
      t.cls.cur.graph = (if s.cls.stGraph.isSome then s.cls.stGraph else s.cls.cur.graph) ∧
      t.cls.cur.deflt = s.cls.stDeflt.getD s.cls.cur.deflt) ∧
    (∀ w, s.cls.commit = none → commitHeld s = some w → Does .atSwathExtrapolatedArrival s fun t =>
      t.cls = s.cls ∧ t.pair.held = s.pair.held.map (fun h =>
        if h.awaitAck = false ∧ h.mirrorSeq.toNat ≤ w.mirrorSeq.toNat then { h with due := true }
        else h)) ∧
    (s.cls.commit = none → commitHeld s = none → exec .atSwathExtrapolatedArrival s = .next s) ∧
    (s.cls.dispatchQ = [] → exec .tineDispatch s = .next s) ∧
    (∀ w rest h k n, s.cls.dispatchQ = w :: rest → coreRuns s = true →
      (s.tine.order.filter (fun o => o.given)).length < 4096 →
      let p := resProg (resOf s w.result)
      (progOf s p).loaded = true → (progOf s p).disabled = false →
      pickThread s (settingB s sAffinity (scProgram p)) w.key = some (h, k, n) →
      Does .tineDispatch s fun t => t.cls = { s.cls with dispatchQ := rest } ∧
        (threadOf t h k n).busy = true ∧ (threadOf t h k n).walked = some w ∧
        (threadOf t h k n).pc = (progView s p).entry ∧
        (threadOf t h k n).priv = (threadOf s h k n).priv)

/-- The ALU instructions write VD alone and go on; NOP changes no register (spec/13). -/
def Obligations.AluInstructionsWriteTheirRegister : Prop :=
  ∀ (th : ThreadId) (f : TFields),
  let vd := f.vd.toNat
  Advances 0x01 th f (.nop th f) (fun x => x) ∧
  Advances 0x10 th f (.add th f) (fun x => setV vd (vReg x f.va + opB f x) x) ∧
  Advances 0x11 th f (.sub th f) (fun x => setV vd (vReg x f.va - opB f x) x) ∧
  Advances 0x12 th f (.and th f) (fun x => setV vd (vReg x f.va &&& opB f x) x) ∧
  Advances 0x13 th f (.or th f) (fun x => setV vd (vReg x f.va ||| opB f x) x) ∧
  Advances 0x14 th f (.xor th f) (fun x => setV vd (vReg x f.va ^^^ opB f x) x) ∧
  Advances 0x15 th f (.shl th f) (fun x => setV vd (vReg x f.va <<< ((opB f x).toNat % 32)) x) ∧
  Advances 0x16 th f (.shr th f) (fun x => setV vd (vReg x f.va >>> ((opB f x).toNat % 32)) x) ∧
  Advances 0x17 th f (.sra th f) (fun x => setV vd ((vReg x f.va).sshiftRight ((opB f x).toNat % 32)) x) ∧
  Advances 0x18 th f (.mul th f) (fun x => setV vd (vReg x f.va * opB f x) x) ∧
  Advances 0x19 th f (.minu th f) (fun x => setV vd (if (vReg x f.va).toNat ≤ (opB f x).toNat then vReg x f.va else opB f x) x) ∧
  Advances 0x1A th f (.maxu th f) (fun x => setV vd (if (vReg x f.va).toNat ≤ (opB f x).toNat then opB f x else vReg x f.va) x) ∧
  Advances 0x1B th f (.mov th f) (fun x => setV vd (opB f x) x) ∧
  Advances 0x1C th f (.cmp th f) (fun x => setV vd (if condHolds f.fn.toNat (vReg x f.va) (opB f x) then 1 else 0) x) ∧
  Advances 0x1D th f (.csadd th f) (fun x => setV vd (csadd (vReg x f.va) (opB f x)) x) ∧
  Advances 0x1E th f (.ext th f) (fun x => setV vd (BitVec.ofNat 32
    ((vReg x f.va).toNat / 2 ^ immShift f % 2 ^ (immWidth f + 1))) x) ∧
  Advances 0x1F th f (.ins th f) (fun x => setV vd (BitVec.ofNat 32
    (insertField (immShift f) (immWidth f) (vReg x f.vd).toNat (vReg x f.va).toNat)) x) ∧
  (∀ s, Issues 0x20 th f s → Does (.br th f) s fun t =>
    let x := fetched 0x20 th f s
    let dest := if condHolds f.fn.toNat (vReg x f.va) (brB f x) then
      x.view.base + bits f.imm.toNat 12 0 else x.pc + 1
    Runs th { x with pc := dest } s t) ∧
  Advances 0x54 th f (.setQueue th f) (fun x =>
    if f.fn = 2 then { x with qValid := false }
    else
      let q := plusVA f x (bits f.imm.toNat 15 0) % 1024
      { x with qValid := true, dir := f.fn == 1, queue := q })

/-- The memory instructions reach the bytes they name, or fault and change nothing (spec/13). That
an access to the program region takes effect at issue is the model's choice (log entry 52). -/
def Obligations.MemoryInstructionsKeepToTheirSpace : Prop :=
  ∀ (th : ThreadId) (f : TFields),
  let vd := f.vd.toNat
  let n := nBytes f
  let scr := fun (s : State) (_ : Thread) => s.tine.scratch
  let sram := fun (s : State) (_ : Thread) => s.tine.sram
  let at_ := fun (x : Thread) => plusVA f x (bits f.imm.toNat 16 0)
  let val := fun (b : Bytes) => BitVec.ofNat 32 (beNat b)
  Reads 0x30 th f (.ldw th f) (fun x => inWindow x (winOff f x) n)
    (fun _ x => setV vd (BitVec.ofNat 32
      (field x.win (winOff f x) n / 2 ^ immShift f % 2 ^ (immWidth f + 1))) x) 0x02 ∧
  Reads 0x31 th f (.stw th f) (fun x => inWindow x (winOff f x) n)
    (fun _ x =>
      let v := insertField (immShift f) (immWidth f) (field x.win (winOff f x) n) (vReg x f.vd).toNat
      { x with win := patch x.win (winOff f x) (natBytes n v), modified := true }) 0x02 ∧
  (let all := fun (x : Thread) =>
     x.win.take (winOff f x) ++ List.replicate n 0 ++ x.win.drop (winOff f x)
   Reads 0x32 th f (.push th f)
    (fun x => decide (winOff f x ≤ x.win.length ∧
      ((all x).drop 256 ++ x.spill).length ≤ 64))
    (fun _ x => { x with win := (all x).take 256, spill := (all x).drop 256 ++ x.spill, modified := true })
    0x02) ∧
  Reads 0x33 th f (.pop th f) (fun x => inWindow x (winOff f x) n)
    (fun _ x => { x with win := x.win.take (winOff f x) ++ x.win.drop (winOff f x + n), modified := true })
    0x02 ∧
  (∀ s, Issues 0x34 th f s →
    let x := fetched 0x34 th f s
    let from_ := (bmovSpaces f.fn.toNat).1
    let dest := (bmovSpaces f.fn.toNat).2
    let src := plusVB f x (bits f.imm.toNat 31 16)
    let dst := plusVA f x (bits f.imm.toNat 15 0)
    let b := spaceBytes s from_ x src n
    (inSpace from_ x src n = false → Does (.bmov th f) s (Faulted th (spaceFault from_) s)) ∧
    (inSpace from_ x src n = true → inSpace dest x dst n = false →
      Does (.bmov th f) s (Faulted th (spaceFault dest) s)) ∧
    (inSpace from_ x src n = true → inSpace dest x dst n = true →
      let y := match dest with
        | .window => { x with win := patch x.win dst b, modified := true }
        | _ => putPriv dst b x
      Does (.bmov th f) s (Runs th { y with pc := x.pc + 1 } s))) ∧
  (let sp : Space := if f.fn = 0 then .priv else .window
   let off := fun (x : Thread) => plusVA f x (bits f.imm.toNat 15 0)
   Reads 0x35 th f (.hash th f) (fun x => inSpace sp x (off x) n)
    (fun s x => setV vd (BitVec.ofNat 32 (crcBits 32
      (if f.imm.toNat.testBit 16 then 0x1EDC6F41 else 0x04C11DB7) (vReg x f.vb).toNat
      (bitsOf (spaceBytes s sp x (off x) n)))) x) (spaceFault sp)) ∧
  (f.fn = 0 → Reads 0x40 th f (.ld th f) (fun x => inSpace .priv x (at_ x) n)
    (fun _ x => setV vd (val (privBytes x (at_ x) n)) x) 0x0B) ∧
  (f.fn = 1 → Reads 0x40 th f (.ld th f) (fun x => inSpace .constant x (at_ x) n)
    (fun s x => setV vd (val (spaceBytes s .constant x (at_ x) n)) x) 0x03) ∧
  (f.fn = 2 → Reads 0x40 th f (.ld th f) (fun x => scratchOk x (at_ x) n)
    (fun s x => setV vd (val (tabRange 0 s.tine.scratch (scratchAt th.harrow.val x (at_ x)) n)) x)
    0x04) ∧
  (f.fn = 3 → Reads 0x40 th f (.ld th f) (fun x => decide (at_ x + n ≤ 96))
    (fun _ x => setV vd (val (slice (metaBytes x) (at_ x) n)) x) 0x0A) ∧
  (f.fn = 0 → Reads 0x41 th f (.st th f) (fun x => inSpace .priv x (at_ x) n)
    (fun _ x => putPriv (at_ x) (natBytes n (vReg x f.vd).toNat) x) 0x0B) ∧
  (f.fn = 2 → Acts 0x41 th f (.st th f) (fun x => scratchOk x (at_ x) n)
    (fun _ x => { x with pc := x.pc + 1 })
    (fun s x => tabPut 0 s.tine.scratch (scratchAt th.harrow.val x (at_ x))
      (natBytes n (vReg x f.vd).toNat)) sram 0x04) ∧
  (f.fn = 3 → ∀ s, Issues 0x41 th f s → Does (.st th f) s (Faulted th 0x0A s)) ∧
  (let word := fun (x : Thread) => plusVA f x (bits f.imm.toNat 16 3 * 8) / 8 * 8
   let old := fun (s : State) (x : Thread) => BitVec.ofNat 64
     (beNat (tabRange 0 s.tine.scratch (scratchAt th.harrow.val x (word x)) 8))
   Acts 0x42 th f (.atom th f) (fun x => scratchOk x (word x) 8)
    (fun s x => { setV vd ((old s x).setWidth 32) x with pc := x.pc + 1 })
    (fun s x => tabPut 0 s.tine.scratch (scratchAt th.harrow.val x (word x))
      (natBytes 8 (atomicWord f.fn.toNat (old s x) (vReg x f.vb) (vReg x f.vd)).toNat)) sram 0x04)

/-- Program-region accesses, lookups, metering, counting, time and cipher calls (spec/12, spec/13).
That a program-region access and an exact-match lookup are made as their service answers is the
model's choice (log entry 52). -/
def Obligations.ServicesServeTheirThreads : Prop :=
  ∀ (th : ThreadId) (f : TFields),
  let vd := f.vd.toNat
  let n := nBytes f
  let word := fun (x : Thread) => plusVA f x (bits f.imm.toNat 23 0) / 8 * 8
  (∀ s, Issues 0x43 th f s → let x := fetched 0x43 th f s
    match regionArgs f x with
    | .error e => Does (.srd th f) s (Faulted th e.1 s)
    | .ok (r, p) => Does (.srd th f) s (Runs th
      { x with wait := some (.load p (sramAt x r) (n * 8) s.tine.sramSeq) } s)) ∧
  (∀ s, Issues 0x44 th f s → let x := fetched 0x44 th f s
    match regionArgs f x with
    | .error e => Does (.swr th f) s (Faulted th e.1 s)
    | .ok (r, p) => Does (.swr th f) s (Runs th
      { x with wait := some (.store (sramAt x r) (privBytes x p (n * 8)) s.tine.sramSeq) } s)) ∧
  Acts 0x45 th f (.satom th f) (fun x => decide (word x + 8 ≤ x.view.sramLen))
    (fun s x => { x with wait := some (.atom vd (sramAt x (word x)) s.tine.sramSeq) })
    (fun s _ => s.tine.scratch) (fun s _ => s.tine.sram) 0x05 ∧
  (let k := bits f.imm.toNat 9 0
   (∀ s, Issues 0x50 th f s → let x := fetched 0x50 th f s
    let r := (ternLookup (genOfThread x) (privBytes x k 40) s).1
    (allowed x 2 = false → Does (.tlook th f) s (Faulted th 0x07 s)) ∧
    (allowed x 2 = true → 1024 < k + 56 → Does (.tlook th f) s (Faulted th 0x0B s)) ∧
    (allowed x 2 = true → k + 56 ≤ 1024 → Does (.tlook th f) s
      (Runs th { lookupDone s vd k r.1 r.2 x with pc := x.pc + 1 } s))) ∧
   (∀ s, Issues 0x51 th f s → let x := fetched 0x51 th f s
    (allowed x 2 = false → Does (.elook th f) s (Faulted th 0x07 s)) ∧
    (allowed x 2 = true → 1024 < k + 56 → Does (.elook th f) s (Faulted th 0x0B s)) ∧
    (allowed x 2 = true → k + 56 ≤ 1024 → Does (.elook th f) s
      (Runs th { x with wait := some (.elook vd k f.fn.toNat) } s)))) ∧
  (∀ s, Issues 0x52 th f s → let x := fetched 0x52 th f s
    ∀ w, x.walked = some w →
    let m := plusVA f x (bits f.imm.toNat 15 0) % 65536
    let r := meterPacket m w.pkt (threadBytes x) x.colour (chargedLen f x) s
    (allowed x 1 = false → Does (.meter th f) s (Faulted th 0x07 s)) ∧
    (allowed x 1 = true → Does (.meter th f) s fun t =>
      RanIn [.qos] th { setV vd (BitVec.ofNat 32 r.1) x with pc := x.pc + 1, colour := r.1 }
        s.tine.scratch s.tine.sram s t ∧ t.qos = r.2.qos)) ∧
  (∀ s, Issues 0x53 th f s → let x := fetched 0x53 th f s
    let c := plusVA f x (bits f.imm.toNat 15 0) % 32768
    (allowed x 1 = false → Does (.count th f) s (Faulted th 0x07 s)) ∧
    (allowed x 1 = true → Does (.count th f) s fun t =>
      RanIn [.cls] th { x with pc := x.pc + 1 } s.tine.scratch s.tine.sram s t ∧
      t.cls = { s.cls with rcount := tabMod (0, 0) s.cls.rcount c fun y =>
        (y.1 + 1, y.2 + BitVec.ofNat 64 (chargedLen f x)) })) ∧
  (∀ s, Issues 0x58 th f s → let x := fetched 0x58 th f s
    (allowed x 0 = false → Does (.tsread th f) s (Faulted th 0x07 s)) ∧
    (allowed x 0 = true → Does (.tsread th f) s (Runs th
      { setV (vd + 2) (BitVec.ofNat 32 (now s).toNat)
          (setV (vd + 1) (BitVec.ofNat 32 ((now s).toNat / 2 ^ 32))
            (setV vd (BitVec.ofNat 32 s.clk.era.toNat) x)) with pc := x.pc + 1 } s))) ∧
  (∀ s, Issues 0x59 th f s → let x := fetched 0x59 th f s
    let v := userPmc s th.harrow.val th.tine.val f.fn.toNat
    Does (.pmcread th f) s (Runs th
      { setV (vd + 1) (BitVec.ofNat 32 v) (setV vd (BitVec.ofNat 32 (v / 2 ^ 32)) x) with
        pc := x.pc + 1 } s)) ∧
  (∀ s, Issues 0x60 th f s → let x := fetched 0x60 th f s
    let slot := plusVA f x (bits f.imm.toNat 6 0) % 128
    let at_ := bits f.imm.toNat 25 16
    let d := cipherDesc (privBytes x at_ 32)
    let k := slotOf s slot
    let fn := f.fn.toNat
    let key := k.loaded && k.use == 5 && k.cmacAlg == decide (4 ≤ fn)
    let st := cipherStatus fn (threadBytes x).length d key
    (x.view.keyMask.testBit slot = false → Does (.cipher th f) s (Faulted th 0x07 s)) ∧
    (x.view.keyMask.testBit slot = true → 1024 < at_ + 32 →
      Does (.cipher th f) s (Faulted th 0x0B s)) ∧
    (x.view.keyMask.testBit slot = true → at_ + 32 ≤ 1024 →
      (d.drawn = false ∨ key = false ∨ 4 ≤ fn) →
      (st ≠ 0 → Does (.cipher th f) s (Runs th
        { x with wait := some (.cipher vd fn d.txtOff d.tagOff d.tagLen (some st)) } s)) ∧
      (st = 0 → Does (.cipher th f) s fun t =>
        RanIn [.cry] th { x with wait := some (.cipher vd fn d.txtOff d.tagOff d.tagLen none) }
          s.tine.scratch s.tine.sram s t ∧
        t.cry.ops.map (·.id) = s.cry.ops.map (·.id) ++ [s.cry.nextId] ∧
        t.cry.slots = s.cry.slots))) ∧
  (∀ s ecc n, let x := threadAt s th
    let go := fun (y : Thread) => { y with pc := x.pc + 1, wait := none }
    let served := Instr.serviceResult th ecc n
    (accessWaits s x = true ∨ x.wait = none → exec served s = .next s) ∧
    (accessWaits s x = false →
      (∀ p a l q, x.wait = some (.load p a l q) →
        (ecc = [] → Does served s (Runs th (go (putPriv p (tabRange 0 s.tine.sram a l) x)) s)) ∧
        (ecc ≠ [] → Does served s (Faulted th 0x06 s))) ∧
      (∀ a b q, x.wait = some (.store a b q) → Does served s
        (RanIn [] th (go x) s.tine.scratch (tabPut 0 s.tine.sram a b) s)) ∧
      (∀ v a q, x.wait = some (.atom v a q) →
        let g := insnFields x.word
        let old := BitVec.ofNat 64 (beNat (tabRange 0 s.tine.sram a 8))
        let new := atomicWord g.fn.toNat old (vReg x g.vb) (vReg x g.vd)
        (ecc = [] → Does served s (RanIn [] th (go (setV v (old.setWidth 32) x)) s.tine.scratch
          (tabPut 0 s.tine.sram a (natBytes 8 new.toNat)) s)) ∧
        (ecc ≠ [] → Does served s (Faulted th 0x06 s)))) ∧
    (∀ v p q l g, x.wait = some (.cipher v p q l g none) → Does served s (Runs th x s)) ∧
    (∀ v p q l g st, x.wait = some (.cipher v p q l g (some st)) →
      Does served s (Runs th (go (setV v (BitVec.ofNat 32 st) x)) s)) ∧
    (∀ v k p, x.wait = some (.elook v k p) →
      let r := emLookupOp (genOfThread x) p (emKeyOf s p (privBytes x k 40)) (threadBytes x).length
        ecc (bump cEmEccCorr scDevice n s)
      let hit := match r.1 with
        | some y => y
        | none => (genOf s (genOfThread x)).deflt
      Does served s fun t =>
        RanIn [.cls] th (go (lookupDone r.2 v k r.1.isSome hit x)) s.tine.scratch s.tine.sram s t ∧
        t.cls = r.2.cls))

/-- Past its limit or on an undefined encoding an instruction only ends the pass; a word that is not
the command's is not the command's to issue (spec/12, spec/13). -/
def Obligations.LimitAndEncodingFaultFirst : Prop :=
  ∀ p ∈ tineOps, ∀ (th : ThreadId) (f : TFields) (s : State),
  let x := threadAt s th
  let w := fetchedWord s x
  let ready := threadReady x && inTurn s th.harrow.val th.tine.val th.thread.val &&
    harrowOn s th.harrow.val && coreRuns s &&
    !s.sec.tinesHalted.getLsbD (th.harrow.val * 16 + th.tine.val)
  let bad := insnDefined (wordOp w) (insnFields w) = false
  (ready = true → w = insnWord p.1 f ∨ bad → x.view.limit ≤ x.insns →
    Does (p.2 th f) s (Faulted th 0x09 s)) ∧
  (ready = true → w ≠ insnWord p.1 f ∧ bad ∨ w = insnWord p.1 f ∧ insnDefined p.1 f = false →
    x.insns < x.view.limit → Does (p.2 th f) s (Faulted th 0x01 s)) ∧
  (ready = true → w ≠ insnWord p.1 f → ¬ bad → exec (p.2 th f) s = .next s) ∧
  (ready = false → exec (p.2 th f) s = .next s)

/-- EMIT, DROP, RECIRCULATE and TRAP end the pass and settle its packet (spec/12, spec/13). -/
def Obligations.PassesEndAsTheProgramSays : Prop :=
  ∀ (th : ThreadId) (f : TFields) (s : State),
  let order := fun (o : List OrderEnt) =>
    (orderLook { s with tine := { s.tine with order := o } }).tine.order
  let left := fun (p : Pkt) => order (s.tine.order.filter (fun o => o.id != p.order))
  (Issues 0xF0 th f s → let x := fetched 0xF0 th f s
    ((x.qValid = false ∨ x.dir = true ∧ allowed x 3 = false) →
      Does (.emit th f) s (Faulted th 0x08 s)) ∧
    (x.qValid = true → (x.dir = true → allowed x 3 = true) → Does (.emit th f) s fun t =>
      Ended th s t ∧ t.tine.trapQ = s.tine.trapQ ∧ t.tine.faultLog = s.tine.faultLog ∧
      ∀ w, x.walked = some w →
        let e := emitBytes s x w.pkt (f.fn == 1)
        let need := bushelsOf e.1.length
        let out : Emitted :=
          ⟨!x.dir, x.queue, x.colour, w.pkt.gen, e.1, e.2.1, e.2.2, x.modified, need⟩
        t.tine.order = if w.pkt.bushels + s.qos.free < need then left w.pkt
          else order (s.tine.order.map (fun o => if o.id == w.pkt.order then
            { o with frame := some out } else o)))) ∧
  (Issues 0xF1 th f s → let x := fetched 0xF1 th f s
    Does (.drop th f) s fun t => Ended th s t ∧ t.tine.trapQ = s.tine.trapQ ∧
      t.tine.faultLog = s.tine.faultLog ∧
      ∀ w, x.walked = some w → t.tine.order = left w.pkt) ∧
  (Issues 0xF2 th f s → let x := fetched 0xF2 th f s
    (allowed x 4 = false → Does (.recirculate th f) s (Faulted th 0x07 s)) ∧
    (allowed x 4 = true → ∀ p, threadPkt x = some p → Does (.recirculate th f) s fun t =>
      Ended th s t ∧ t.tine.order = left p ∧
      (p.recirc = false → ∃ q, t.cls.recircQ = s.cls.recircQ ++ [q] ∧ q.recirc = true ∧
        q.src = (if f.fn.getLsbD 1 then 2 else 4) ∧
        q.body = (if f.fn.getLsbD 1 then p.body.drop 16 else p.body) ∧
        q.node = if f.fn.getLsbD 0 then none else some (bits f.imm.toNat 5 0)))) ∧
  (Issues 0xF3 th f s → let x := fetched 0xF3 th f s
    (allowed x 5 = false → Does (.trap th f) s (Faulted th 0x07 s)) ∧
    (allowed x 5 = true → ∀ p, threadPkt x = some p → Does (.trap th f) s fun t =>
      Ended th s t ∧ t.tine.order = left p ∧
      t.tine.trapQ = if 256 ≤ s.tine.trapQ.length then s.tine.trapQ
        else s.tine.trapQ ++ [⟨p, x.win, x.spill, x.tail, metaBytes x, BitVec.ofNat 8 f.imm.toNat⟩]))

/-- PMCs at their maximum wrap and mark their tine; a sampled tine is armed (spec/14). -/
def Obligations.CountersWrapAndSamplesAreTagged : Prop :=
  (∀ (s : State) (h : Fin 12) (t : Fin 16),
    let x := pmcOf s h t
    let at_ := fun (i : Nat) => settingN s sPmcEvent (scTine h t) i ≠ 0 ∧ pmcVal s h t i = 0xFFFFFFFFFFFF
    ((x.frozen = true ∨ harrowOn s h = false) → exec (.pmcOverflow h t) s = .next s) ∧
    (x.frozen = false → harrowOn s h = true → Does (.pmcOverflow h t) s fun u =>
      (∀ i : Fin 6, (at_ i → pmcVal u h t i = 0 ∧ (pmcOf u h t).ovf.getLsbD i = true) ∧
        (¬ at_ i → pmcVal u h t i = pmcVal s h t i ∧
          (pmcOf u h t).ovf.getLsbD i = x.ovf.getLsbD i)) ∧
      ((pmcOf u h t).frozen = true ↔
        ∃ i : Fin 6, at_ i ∧ settingB s sOvfAction (scTine h t) i = true))) ∧
  (∀ (s : State) (h : Fin 12) (t : Fin 16),
    let x := sampOf s h
    let runs := sampling s h t = true ∧ harrowOn s h = true ∧ x.armed.getLsbD t = false
    let tagged := (List.range 8).any (fun n => (threadOf s h t n).tagged.isSome)
    (¬ runs → exec (.sampleTag h t) s = .next s) ∧
    (runs → tagged = false → Does (.sampleTag h t) s fun u =>
      (sampOf u h).armed.getLsbD t = true ∧ tabGet 0 (sampOf u h).countdown t = 0 ∧
      (sampOf u h).buffer = x.buffer ∧ u.tine.threads = s.tine.threads) ∧
    (runs → tagged = true → Does (.sampleTag h t) s fun u =>
      (sampOf u h).armed = x.armed ∧ (sampOf u h).buffer = x.buffer ∧
      u.tine.threads = s.tine.threads))

/-- The next operation of a client leaves the engine with its result; CIPHER calls and commands of
OTHER take turns (R423). The generator reseeds when that is due, and without entropy it stops the
engine after 2^24 requests (spec/16). -/
def Obligations.CipherOperationsEndAsTheyRan : Prop :=
  (∀ (s : State) (client : Fin 3),
    (nextOp s client = none → exec (.cipherOpComplete client) s = .next s) ∧
    (∀ o, nextOp s client = some o →
      let gone := fun (u : State) => u.cry.ops.map (·.id) =
        (s.cry.ops.filter (fun p => p.id != o.id)).map (·.id)
      let done := fun (P : State → Prop) =>
        Does (.cipherOpComplete client) s fun u => gone u ∧ P u
      (∀ h t n vd fn txt tag len, o.dst = .tine h t n →
        let x := threadOf s h t n
        x.wait = some (.cipher vd fn txt tag len none) →
        let ends := fun (st : Nat) (y : Thread) => done fun u =>
          threadOf u h t n = { y with wait := some (.cipher vd fn txt tag len (some st)) }
        let put := fun (i : Nat) (b : Bytes) (y : Thread) =>
          setThreadBytes (decide (i < y.win.length) && !b.isEmpty) (patch (threadBytes y) i b) y
        (o.started = none → ends (if s.cry.stopped then 3 else 2) x) ∧
        (∀ k, o.started = some k →
          (s.cry.stopped = true → ends 3 x) ∧
          (s.cry.stopped = false → runOp o k.key = none → ends 1 x) ∧
          (s.cry.stopped = false → ∀ text mac, runOp o k.key = some (text, mac) →
            (fn = 0 → ends 0 (put tag (mac.take len) (put txt text x))) ∧
            (fn = 1 → ends 0 (put txt text x)) ∧
            (fn = 2 ∨ fn = 4 → ends 0 (put tag (mac.take len) x)) ∧
            (fn = 3 → ends 0 x) ∧
            (fn = 5 → ends (if mac.take len = o.tag then 0 else 1) x)))) ∧
      (∀ g lot k r, o.dst = .rxLot g lot → o.started = some k →
        (groupOf s g).released = [r] → r.lot.key = lot.key → r.step = .cipher → r.gap = false →
        (s.cry.stopped = true ∨ runOp o k.key = none → done fun u =>
          (groupOf u g).released = [] ∧ u.reasm = s.reasm ∧ u.toTime = s.toTime ∧
          u.toReeve = s.toReeve ∧ u.inQ = s.inQ) ∧
        (s.cry.stopped = false → ∀ b, runOp o k.key = some b → done fun u =>
          (groupOf u g).released = [])) ∧
      (∀ x k, o.dst = .txLot x → o.started = some k → s.cry.stopped = false → done fun u =>
        (∀ b ∈ (usLaneOf u x).bursts, ∀ l ∈ b.lots, l.cipher ≠ some o.id) ∧
        (txCipherLate s x o.id = false → (usLaneOf u x).bursts.map (·.lots.map (fun l =>
          (l.queue, l.ends))) = (usLaneOf s x).bursts.map (·.lots.map (fun l => (l.queue, l.ends)))))
      ∧
      (∀ x k a b, o.dst = .txMsg x → o.started = some k → s.cry.stopped = false →
        runOp o k.key = some (a, b) → done fun u =>
          (usLaneOf u x).bursts = (usLaneOf s x).bursts.map (fun y =>
            if y.msgOp = some o.id then
              { y with msg := y.msg.map (· ++ b.take 8), msgOp := none, msgBack := none }
            else y)) ∧
      (∀ op tag, o.dst = .command →
        s.reeve.sealing.find? (fun p => p.1 == o.id) = some (o.id, op, tag) →
        let c : Cmd := { src := .mailbox, tag := tag, mirror := false, atSwath := false, rsvd := 0,
                         payload := [] }
        let answers := fun (st : Nat) (p : Bytes) => done fun u => Replied op.toNat c st p u
        (o.started = none → answers 5 [if s.cry.stopped then 3 else 2, 0, 0, 0]) ∧
        (∀ k, o.started = some k →
          (s.cry.stopped = true → answers 5 [3, 0, 0, 0]) ∧
          (s.cry.stopped = false → runOp o k.key = none → answers 5 [1, 0, 0, 0]) ∧
          (s.cry.stopped = false → ∀ b g, runOp o k.key = some (b, g) →
            answers 0 (if o.mode = .seal then o.nonce ++ b ++ g else b)))))) ∧
  (∀ (s : State),
  (reseedDue s = false → ∀ ok, exec (.drbgReseed ok) s = .next s) ∧
  (reseedDue s = true →
    (Does (.drbgReseed true) s fun t => t.cry.reseedAt = now s ∧ t.cry.entropyFailed = false ∧
      t.cry.stopped = false ∧ t.cry.slots = s.cry.slots ∧
      t.cry.ops.map (·.id) = s.cry.ops.map (·.id) ∧ (s.cry.ops = [] → t.cry.requests = 0)) ∧
    (s.cry.entropyFailed = false → Does (.drbgReseed false) s fun t =>
      t.cry = { s.cry with entropyFailed := true }) ∧
    (s.cry.entropyFailed = true → exec (.drbgReseed false) s = .next s)) ∧
  (s.cry.entropyFailed = true → s.cry.stopped = false → 2 ^ 24 ≤ s.cry.requests →
    Does .entropyExhausted s fun t => t.cry.stopped = true ∧ t.cry.slots = s.cry.slots ∧
      ∀ o ∈ t.cry.ops, s.cry.nextId ≤ o.id) ∧
  (s.cry.entropyFailed = false ∨ s.cry.stopped = true ∨ s.cry.requests < 2 ^ 24 →
    exec .entropyExhausted s = .next s))

/-- KEY_SEL and KEY_CTRL record a request; its commit loads or erases the slots (spec/16, spec/17). -/
def Obligations.KeyRegistersAndKeyRequests : Prop :=
  ∀ (s : State),
  let c := s.cry
  let up := i3cUp s = true ∧ s.pwr.st ≠ .deepFallow ∧ s.i3c.hdr = false
  let deaf := i3cUp s = false ∨ s.pwr.st ≠ .deepFallow ∧ s.i3c.hdr = true
  let writes := fun (i : Instr) (d : Cry) =>
    (up → c.req = none → Does i s fun t => t.cry = d) ∧
    (up → c.req.isSome = true → Does i s fun t => t.cry = { c with result := 1 }) ∧
    (deaf → exec i s = .next s)
  let fin := fun (t : State) (r : BitVec 3) => t.cry.req = none ∧ t.cry.result = r ∧
    t.cry.data = List.replicate 40 0
  let blank := fun (x : KeySlot) => { x with
    share0 := [], share1 := [], loaded := false, size256 := false, gen := x.gen + 1, salt := 0, ctr := 0 }
  (∀ v, writes (.keySelWrite v) { c with sel := v.setWidth 7, data := List.replicate 40 0 }) ∧
  (∀ w z, writes (.keyLoad w z) { c with req := some (.load w z) }) ∧
  writes .keyErase { c with req := some .erase } ∧
  writes .keyEraseAll { c with req := some .eraseAll } ∧
  (c.req = none → exec .keyRequestCommit s = .next s) ∧
  (∀ w z, c.req = some (.load w z) →
    let k := c.sel.toNat
    let n := if z then 32 else 16
    let key := if w then kwUnwrap (natBytes 32 s.fuses.kek.toNat) (c.data.take (n + 8))
      else some (c.data.take n)
    (loadDenied s w = true → Does .keyRequestCommit s fun t =>
      fin t 2 ∧ ∀ j, slotOf t j = slotOf s j) ∧
    (loadDenied s w = false → key = none → Does .keyRequestCommit s fun t =>
      fin t 3 ∧ ∀ j, slotOf t j = slotOf s j) ∧
    (loadDenied s w = false → ∀ b, key = some b → 2 ≤ (oldGens s k).length →
      Does .keyRequestCommit s fun t => fin t 5 ∧ ∀ j, slotOf t j = slotOf s j) ∧
    (loadDenied s w = false → ∀ b, key = some b → (oldGens s k).length < 2 →
      Does .keyRequestCommit s fun t => fin t 0 ∧ (∀ j, j ≠ k → slotOf t j = slotOf s j) ∧
        (slotOf t k).key = b ∧ slotOf t k = { slotOf s k with
          share0 := (slotOf t k).share0, share1 := (slotOf t k).share1, loaded := true,
          size256 := z, ctr := 0, gen := (slotOf s k).gen + 1, salt := (slotOf t k).salt })) ∧
  (c.req = some .erase → Does .keyRequestCommit s fun t => fin t 0 ∧
    ∀ j, slotOf t j = if j = c.sel.toNat then blank (slotOf s j) else slotOf s j) ∧
  (c.req = some .eraseAll → Does .keyRequestCommit s fun t => fin t 0 ∧
    ∀ j, slotOf t j = if j < 128 then blank (slotOf s j) else slotOf s j)

/-- BYPASS, IDCODE and SAMPLE answer always; EXTEST and the debug port only when open (spec/17). The
identity code is a free value (log entry 64). -/
def Obligations.DebugPortAnswersByItsState : Prop :=
  ∀ (s : State) (op : DebugOp),
  let sec := s.sec
  let gives := fun (x : Sec) => Does (.debugPortAccess op) s fun t => t = { s with sec := x }
  (s.pwr.st = .deepFallow → exec (.debugPortAccess op) s = .next s) ∧
  (s.pwr.st ≠ .deepFallow →
    (op = .bypass ∨ op = .samplePreload → gives { sec with extest := false }) ∧
    (op = .idcode → gives { sec with extest := false, tapOut := Config.idcode }) ∧
    (sec.debug ≠ .locked →
      (op = .extest → gives { sec with extest := true }) ∧
      (op = .haltReeve → gives { sec with reeveHalted := true }) ∧
      (op = .resumeReeve → gives { sec with reeveHalted := false }) ∧
      (∀ h t, op = .haltTine h t → gives { sec with
        tinesHalted := sec.tinesHalted ||| (1#192 <<< (h.val * 16 + t.val)) }) ∧
      (∀ h t, op = .resumeTine h t → gives { sec with
        tinesHalted := sec.tinesHalted &&& ~~~(1#192 <<< (h.val * 16 + t.val)) }) ∧
      (∀ h t n r, op = .readTineReg h t n r →
        gives { sec with tapOut := tabGet 0 (threadOf s h.val t.val n.val).v r.toNat })) ∧
    (sec.debug = .locked → op ≠ .bypass → op ≠ .samplePreload → op ≠ .idcode →
      exec (.debugPortAccess op) s = .next s) ∧
    (∀ k, op = .readSlot k → exec (.debugPortAccess op) s = .next s))

/-- The entry points E2 to E5 and the two waits of an entry (R470-R474). -/
def Obligations.EntryPointsFollowInOrder : Prop :=
  ∀ s : State,
    let p := s.pwr
    let left (n : Nat) (t : State) :=
      t.pwr.phase = .stable ∧ t.pwr.st = p.st ∧ t.pwr.point = n ∧ t.pwr.wake = none ∧
      t.pwr.latched = p.latchedWas ∧ t.pwr.on = p.on
    (p.phase = .entering →
      (p.point = 1 → drained (drainLook s) = true →
        (p.wake = none → Does .entryE2 s fun t => t.pwr.phase = .entering ∧ t.pwr.point = 2 ∧
          t.pwr.target = p.target ∧ t.pwr.st = p.st ∧ t.pwr.on = p.on) ∧
        (p.wake ≠ none → Does .entryE2 s (left 2))) ∧
      (p.point = 1 → p.noticeWait = true → Does .noticeWaitExpiry s fun t =>
        t.pwr.noticeWait = false ∧ t.pwr.phase = .entering ∧ t.pwr.point = 1) ∧
      (p.point = 2 →
        (p.wake = none → Does .entryE3 s fun t =>
          t = { s with pwr := { p with sigs := true, point := 3 } }) ∧
        (p.wake ≠ none → Does .entryE3 s (left 3))) ∧
      (p.point = 3 → ∀ sl,
        (p.wake = none → Does (.entryE4 sl) s fun t => t.pwr.phase = .entering ∧
          t.pwr.point = 4 ∧ t.pwr.target = p.target ∧ t.pwr.st = p.st ∧ t.pwr.on = p.on ∧
          t.pwr.latched = p.latched ||| (p.on &&& retDomains p.target &&& padDomains) ∧
          t.pwr.slAtE4 = sl ∧
          ∀ l : Fin 4, t.pwr.lrxAtE4.getLsbD l = (laneOf s l).signal) ∧
        (p.wake ≠ none → Does (.entryE4 sl) s (left 4))) ∧
      (p.point = 4 → s.clk.refclk = true →
        (p.wake = none → Does .entryE5 s fun t => t.pwr.phase = .stable ∧ t.pwr.point = 5 ∧
          t.pwr.st = p.target ∧ t.pwr.on = p.on &&& ~~~retDomains p.target ∧
          t.pwr.entryEra = s.clk.era ∧ t.pwr.entryTl = now s ∧
          t.pwr.stTags = p.stTags ++ p.tag.toList ++ p.runTags ∧
          t.pwr.listening = (if p.target = .fallow then listenLanes s else 0) ∧
          (p.target = .deepFallow → t.clk.pllRunning = false) ∧
          t.clk.timeline = s.clk.timeline) ∧
        (p.wake ≠ none → Does .entryE5 s (left 5)))) ∧
    (p.phase ≠ .entering ∨ p.point ≠ 2 → exec .entryE3 s = .next s) ∧
    (p.phase ≠ .entering ∨ p.point ≠ 3 → ∀ sl, exec (.entryE4 sl) s = .next s) ∧
    (p.phase ≠ .entering ∨ p.point ≠ 4 ∨ s.clk.refclk = false → exec .entryE5 s = .next s) ∧
    (Does .drainWaitExpiry s fun t => t = { s with pwr := { p with drainWait := false } })

/-- What the wake sources do (R475-R480). -/
def Obligations.WakeSourcesLatch : Prop :=
  ∀ s : State,
    let p := s.pwr
    let noted (code index : Nat) (t : State) : Prop :=
      (p.wake = none →
        t.pwr.wake = some { source := code, index := BitVec.ofNat 8 index, others := 0,
                            era := s.clk.era, tl := now s } ∧
        t.pwr.phase = (if p.phase = .stable then .waking else p.phase)) ∧
      (∀ w, p.wake = some w → t.pwr.phase = p.phase ∧ t.pwr.wake = some (
        if w.source = code ∨ w.others.getLsbD code = true then w
        else { w with others := w.others ||| (1#16 <<< code) }))
    (∀ l : Fin 8, portRuns s (lanePort s l).1 = true → p.slAtE4.getLsbD l = false →
      wakeArmed s 1 = true → Does (.slSignal l) s (noted 1 l)) ∧
    (∀ l : Fin 4, laneEnabled s l = true → p.lrxAtE4.getLsbD l = false →
      wakeArmed s 2 = true → Does (.lineLight l) s fun t => noted 2 l t ∧
        laneOf t l = { laneOf s l with signal := true }) ∧
    (∀ l : Fin 4, laneEnabled s l = true → p.lrxAtE4.getLsbD l = true →
      wakeArmed s 3 = true → Does (.lineDark l) s fun t => noted 3 l t ∧
        laneOf t l = { laneOf s l with signal := false }) ∧
    (wakeArmed s 6 = true → Does .wakeIn s (noted 6 0)) ∧
    (s.pins.inReset = false → wakeArmed s 7 = true → Does .i3cWake s (noted 7 0)) ∧
    (∀ m : FieldMsg, msgType m = 0x80 → p.listening.getLsbD m.lane = true →
      msgTid m = 0xFFFF → tagOk s (groupOwner s m.group) m = true →
      (byteAt m.bytes 12).getLsbD 7 = true ∨ serialMatches s m = true →
      wakeArmed s 4 = true → Does (.pwrWake m) s (noted 4 m.group)) ∧
    (p.st ≠ .run ∨ p.phase = .entering → ∀ chip,
      let seen := (chip :: p.chips).take 160
      let code := settingN s sRouseCode scDevice
      (code ≠ 0 → rouseDistance code 32 0 seen ≤ settingN s sRouseErr scDevice →
        wakeArmed s 5 = true → Does (.rouseDecision chip) s fun t =>
          noted 5 0 t ∧ t.pwr.chips = seen) ∧
      (code = 0 ∨ settingN s sRouseErr scDevice < rouseDistance code 32 0 seen →
        Does (.rouseDecision chip) s fun t => t = { s with pwr := { p with chips := seen } })) ∧
    (p.st = .run → p.phase ≠ .entering → ∀ chip, exec (.rouseDecision chip) s = .next s) ∧
    (wakeArmed s 6 = false → exec .wakeIn s = .next s) ∧
    (∀ l : Fin 4, p.st = .fallow → p.listening.getLsbD l = true → (laneOf s l).st = .dormant →
      Does (.listenPowerUp l) s fun t => laneOf t l = { laneOf s l with st := .resume } ∧
        ∀ k, k ≠ l.val → laneOf t k = laneOf s k)

/-- The end of a wake and of gating a BUF bank off (R481, R487). -/
def Obligations.WakingRestoresRun : Prop :=
  ∀ s : State,
    let p := s.pwr
    (∀ w failed, p.phase = .waking → p.wake = some w →
      p.st ≠ .deepFallow ∨ s.clk.pllRunning = true ∨ s.clk.refclk = true →
      Does (.wakeComplete failed) s fun t =>
        t.pwr.st = .run ∧ t.pwr.phase = .stable ∧ t.pwr.target = .run ∧ t.pwr.wake = none ∧
        t.pwr.stTags = [] ∧ t.pwr.runTags = [] ∧ t.pwr.listening = 0 ∧
        t.pwr.noticeP = false ∧ t.pwr.noticeS = false ∧ t.pwr.intakeStopped = false ∧
        (failed = 0 → t.pwr.on = p.on ||| p.onAtE1 ∧ t.pwr.latched = p.latched ∧
          t.pwr.wrSeq = p.wrSeq + 1 ∧
          (p.st ≠ .deepFallow → t.pwr.report = wakeReport s w 0 0))) ∧
    (∀ failed, p.phase ≠ .waking ∨ p.wake = none →
      exec (.wakeComplete failed) s = .next s) ∧
    (∀ b : Fin 24, p.gating.getLsbD (20 + b.val) = true → tabGet 0 p.bufHeld b.val = 0 →
      Does (.bufBankGated b) s fun t =>
        t.pwr = { p with
          gating := p.gating &&& ~~~(1#64 <<< (20 + b.val))
          on := p.on &&& ~~~(1#64 <<< (20 + b.val))
          gatingTag := tabSet 0 p.gatingTag b.val 0 }) ∧
    (∀ b : Fin 24, p.gating.getLsbD (20 + b.val) = false ∨ tabGet 0 p.bufHeld b.val ≠ 0 →
      exec (.bufBankGated b) s = .next s)

/-- The lease, the role wires, claims, takeover and yields (R495-R507). -/
def Obligations.RolesFollowLeaseAndWires : Prop :=
  ∀ s : State,
    let p := s.pair
    (p.st = .active → renewable s = true → Does .leaseRenewal s fun t =>
      t = { s with pair := { p with lease := some (now s + BitVec.ofNat 64 (leaseGrains s)) } }) ∧
    (p.st ≠ .active ∨ renewable s = false → exec .leaseRenewal s = .next s) ∧
    (p.st = .active → p.lease ≠ none → p.yielding = none → Does .leaseExpiry s fun t =>
      t.pair = { p with lease := none }) ∧
    (p.st ≠ .active ∨ p.lease = none → exec .leaseExpiry s = .next s) ∧
    (p.st = .active → leaseValid s = false → Does .roleDrop s fun t =>
      t.pair.lease = none ∧ t.pair.roleOut = false ∧ t.pair.yielding = none ∧
      t.pair.outOfStep = true ∧
      t.pair.st = (if p.claim = false ∧ p.tetherUp = true ∧ p.roleIn = true then .rejoining
                   else .standby)) ∧
    (p.st ≠ .active ∨ leaseValid s = true → exec .roleDrop s = .next s) ∧
    (p.yielding = none → ∀ level,
      (Does (.roleInChange level) s fun t =>
        let back := level = true ∧ p.claim = true ∧ settingB s sSide scDevice = true
        t.pair.roleIn = level ∧ t.pair.forcePeer = (p.forcePeer && !level) ∧
        t.pair.claim = (if back then false else p.claim) ∧
        t.pair.roleOut = (if back then false else p.roleOut)) ∧
      (Does (.roleOutReadbackChange level) s fun t => t.pair = { p with readback := level })) ∧
    (p.roleIn = false → p.st = .standby → p.claim = false → renewable s = true →
      (p.versionGap = false ∨ p.forceArmed = true → Does .roleClaim s fun t =>
        t = { s with pair := { p with claim := true, roleOut := true } }) ∧
      (p.versionGap = true → p.forceArmed = false → Does .roleClaim s fun t =>
        t = raise 0x0F0B 0 (peerFw s).toNat s)) ∧
    (p.roleIn = false → p.st = .rejoining → Does .roleClaim s fun t =>
      t.pair.st = .standby ∧ t.pair.stale = true ∧ t.pair.snapping = false ∧
      t.pair.snapshot = [] ∧ t.pair.attempts = 0) ∧
    (p.roleIn = true → exec .roleClaim s = .next s) ∧
    (p.st = .standby → p.claim = true → p.roleIn = false → Does .takeover s fun t =>
      t.pair = { p with
        st := .active, claim := false, forceArmed := false, mirrorSeq := p.lastApplied.getD 0
        lease := some (now s + BitVec.ofNat 64 (leaseGrains s)) }) ∧
    (p.st ≠ .standby ∨ p.claim = false ∨ p.roleIn = true → exec .takeover s = .next s) ∧
    (p.st = .active → settingN s sLockYieldHold scDevice ≠ 0 → peerReady s = true →
      p.versionGap = false → p.yielding = none → groupLocks s = 0 →
      (∃ h, p.health = some h ∧ h.locked ≠ 0) →
      let quiet := ∀ x ∈ [0, 1], ∀ b ∈ (usLaneOf s x).bursts.head?, b.sending = false
      (quiet → Does .lockYieldExpiry s fun t => t.pair = { p with
        st := .standby, lease := none, roleOut := false, outOfStep := false
        forceArmed := false, forcePeer := false }) ∧
      (¬ quiet → Does .lockYieldExpiry s fun t => t.pair = { p with
        yielding := some { force := false, isolate := false } }))

/-- HELLO, HEALTH, mirrored commands and TIME_CMP (R499-R520). -/
def Obligations.TheTetherKeepsThePairInStep : Prop :=
  ∀ (s : State) (q : BitVec 32),
    let p := s.pair
    let up := tetherOn s = true ∧ p.tetherUp = true
    (tetherOn s = false → ∀ ok b x,
      exec (.hello ok q b) s = .next s ∧ exec (.health ok q x) s = .next s) ∧
    (tetherOn s = true → ∀ b x,
      Does (.hello false q b) s (fun t => t = bump cTetherCrcErr scDevice 1 s) ∧
      Does (.health false q x) s (fun t => t = bump cTetherCrcErr scDevice 1 s)) ∧
    (tetherOn s = true → ∀ b,
      (helloMatches b s = true → Does (.hello true q b) s fun t =>
        t.pair.hello = some b ∧ t.pair.tetherUp = true ∧
        t.pair.versionGap = (b.fwVersion != s.win.fwVersion)) ∧
      (helloMatches b s = false → Does (.hello true q b) s fun t => t = raise 0x0F07 0 0 s)) ∧
    (tetherOn s = true → p.tetherUp = false → Does .helloTx s fun t =>
      t.pair = { p with sent := p.sent ++ [(p.txSeq, .hello (ownHello s))], txSeq := p.txSeq + 1 }) ∧
    (up → ∀ b, Does (.health true q b) s fun t =>
      t.pair.health = some b ∧ t.pair.versionGap = (b.fwVersion != s.win.fwVersion) ∧
      t.pair.wiringRun = (if b.roleOut = p.roleIn then 0 else p.wiringRun + 1) ∧
      (p.st = .standby → b.state = 1 →
        (instOf t 0).txSeq = b.fmSeqP + 1 ∧ (instOf t 1).txSeq = b.fmSeqS + 1)) ∧
    (up → Does .healthTx s fun t =>
      t.pair = { p with sent := p.sent ++ [(p.txSeq, .health (ownHealth s))], txSeq := p.txSeq + 1 }) ∧
    (p.tetherUp = true → ∀ i, i = Instr.tetherHealthTimeout ∨ i = .tetherBlockLockLoss →
      Does i s fun t => t.pair.tetherUp = false ∧ t.pair.cmpT1 = none ∧ t.pair.wiringRun = 0) ∧
    (p.tetherUp = false → ∀ i, i = Instr.tetherHealthTimeout ∨ i = .tetherBlockLockLoss →
      exec i s = .next s) ∧
    (up → p.st = .standby ∨ p.st = .rejoining → ∀ seq sc op c,
      let known := p.held.any (fun h => h.fromPeer && h.mirrorSeq == seq)
      let st := if known = true then 0 else mirrorCheck op.toNat c s
      Does (.mirrorCmd true q seq sc op c) s fun t =>
        (∃ more, t.pair.sent = p.sent ++ (p.txSeq, .mirrorAck seq (BitVec.ofNat 16 st)) :: more) ∧
        t.pair.held = if known = false ∧ st = 0 then
          p.held ++ [{ mirrorSeq := seq, applySc := sc, opcode := op,
                       cmd := { c with src := .mirror true }, awaitAck := false, fromPeer := true }]
          else p.held) ∧
    (tetherOn s = true → ∀ seq st h,
      p.held.find? (fun h => h.awaitAck && h.mirrorSeq == seq) = some h →
      Does (.mirrorAck true q seq st) s fun t =>
        t.pair.held = if st = 0 then
          p.held.map (fun x => if x = h then { x with awaitAck := false } else x)
        else p.held.erase h) ∧
    (∀ h, p.held.find? (fun h => h.awaitAck) = some h → Does .mirrorAckTimeout s fun t =>
      t.pair.held = p.held.map (fun x => if x = h then { x with awaitAck := false } else x)) ∧
    (p.held.find? (fun h => h.awaitAck) = none → exec .mirrorAckTimeout s = .next s) ∧
    (up → ∀ left t1, outTime s left = some t1 → Does (.timeCmpStart left) s fun t =>
      t.pair = { p with
        exchange := p.exchange + 1, cmpT1 := some t1, txSeq := p.txSeq + 1
        sent := p.sent ++ [(p.txSeq, .timeCmp (p.exchange + 1) none)] }) ∧
    (up → ∀ n capture left,
      (∀ t2 t3, outTime s capture = some t2 → outTime s left = some t3 →
        Does (.timeCmp true q n none capture left) s fun t => t.pair = { p with
          sent := p.sent ++ [(p.txSeq, .timeCmp n (some (t2, t3)))], txSeq := p.txSeq + 1 }) ∧
      (∀ t1 t2 t3 t4, p.cmpT1 = some t1 → outTime s capture = some t4 → n = p.exchange →
        let ds := (((t2 - t1) - (t4 - t3) - 512 * setting s sTetherAsym scDevice) ::
          p.offsets).take 8
        Does (.timeCmp true q n (some (t2, t3)) capture left) s fun t =>
          t.pair = { p with
            offsets := ds, timeDiff := meanOffset ds, cmpT1 := none
            timeAlarmed := decide ((settingN s sTimeDiffLimit scDevice : Int) * 256 <
              (meanOffset ds).natAbs) }))

/-- Snapshots (R518, R519). -/
def Obligations.SnapshotsBringARejoinerBack : Prop :=
  ∀ (s : State) (q : BitVec 32),
    let p := s.pair
    let failed (t : State) :=
      (p.attempts < 3 → t.pair.snapshot = [] ∧ t.pair.snapping = p.tetherUp ∧ t.pair.st = p.st ∧
        t.pair.attempts = if p.tetherUp = true then p.attempts + 1 else p.attempts) ∧
      (3 ≤ p.attempts → t.pair.snapshot = [] ∧ t.pair.snapping = false ∧
        t.pair.st = .isolated ∧ t.pair.attempts = 0)
    (tetherOn s = true → p.tetherUp = true → p.st = .active → ∀ lo hi : BitVec 16,
      (lo.toNat ≤ 1 → 1 ≤ hi.toNat → Does (.snapReq true q lo hi) s fun t =>
        let x := takeSnap s
        let b := Config.snapEncode x
        t.pair.sent.map (·.2) = p.sent.map (·.2) ++ snapMessages b ++
          [.snapEnd 1 x.sc (BitVec.ofNat 32 b.length) (BitVec.ofNat 32 (crc32 b))] ++
          (p.held.filter (fun h => decide (0 < scDiff x.sc h.applySc))).map
            (fun h => .mirrorCmd h.mirrorSeq h.applySc h.opcode h.cmd)) ∧
      (1 < lo.toNat ∨ hi.toNat < 1 → Does (.snapReq true q lo hi) s fun t =>
        t.pair.sent = p.sent ++ [(p.txSeq, .snapEnd 0 0 0 0)])) ∧
    (tetherOn s = true → p.snapping = true → ∀ (schema : BitVec 16) (off : BitVec 32) bytes,
      (schema = 1 → off.toNat = p.snapshot.length → Does (.snapData true q schema off bytes) s
        fun t => t = { s with pair := { p with snapshot := p.snapshot ++ bytes } }) ∧
      (schema ≠ 1 ∨ off.toNat ≠ p.snapshot.length →
        Does (.snapData true q schema off bytes) s failed)) ∧
    (tetherOn s = true → p.snapping = true → ∀ (schema : BitVec 16) sc (len crc : BitVec 32) o0 o1,
      (len = 0 → Does (.snapEnd true q schema sc len crc o0 o1) s fun t =>
        t.pair.st = .isolated ∧ t.pair.snapping = false ∧ t.pair.snapshot = [] ∧
        t.pair.attempts = 0) ∧
      (len ≠ 0 → schema ≠ 1 ∨ len.toNat ≠ p.snapshot.length ∨ crc.toNat ≠ crc32 p.snapshot →
        Does (.snapEnd true q schema sc len crc o0 o1) s failed) ∧
      (len ≠ 0 → schema = 1 → len.toNat = p.snapshot.length → crc.toNat = crc32 p.snapshot →
        Does (.snapEnd true q schema sc len crc o0 o1) s fun t =>
          if (Config.snapDecode p.snapshot).isSome = true then
            t.pair.st = .standby ∧ t.pair.outOfStep = false ∧ t.pair.stale = false
          else failed t)) ∧
    (p.st = .rejoining → p.snapping = true → Does .snapTimeout s failed) ∧
    (p.st ≠ .rejoining ∨ p.snapping = false → exec .snapTimeout s = .next s) ∧
    (p.snapping = false → ∀ ok schema off bytes, ok = true →
      exec (.snapData ok q schema off bytes) s = .next s)

/-- The host's side of the Reeve (R524-R550) and the temperature bins (R574). -/
def Obligations.WindowAndMailboxFollowTheirRegisters : Prop :=
  ∀ s : State,
    let w := s.win
    let again (t : State) := t.settings = [] ∧ t.fuses = s.fuses ∧
      t.clk.timeline = s.clk.timeline ∧ t.i3c.dynAddr = s.i3c.dynAddr ∧ t.reeve.halted = false ∧
      t.win.bootStatus = 0
    (s.pins.inReset = false → s.pwr.st ≠ .deepFallow →
      (w.cmdFree = true → Does .mbDoorbell s fun t => t = { s with win := { w with
        cmdFree := false, cmdBusy := true, rung := true, dbReject := false } }) ∧
      (w.cmdFree = false → Does .mbDoorbell s fun t => t = { s with win := { w with dbReject := true } }) ∧
      (∀ v, (w.cmdFree = true → Does (.mbInDataWrite v) s fun t =>
          t.win = { w with
            inbound := tabSet 0 w.inbound w.mbInPtr.toNat v
            inHigh := max w.inHigh (w.mbInPtr.toNat + 1), mbInPtr := w.mbInPtr + 1 }) ∧
        (w.cmdFree = false → Does (.mbInDataWrite v) s fun t => t.win = w)) ∧
      (Does .mbOutDataRead s fun t => t.win = { w with mbOutPtr := w.mbOutPtr + 1 } ∧
        t.i3c.lastRead = [byteAt w.outbound w.mbOutPtr.toNat] ∧ t.i3c.winAddr = 0x48) ∧
      (w.respValid = false → exec .mbRespAck s = .next s) ∧
      (w.respValid = true → resetPosted s = false →
        (∀ r rest, s.reeve.responses = r :: rest → Does .mbRespAck s fun t =>
          t.win.outbound = respBytes r ∧ t.win.respValid = true ∧ t.reeve.responses = rest) ∧
        (s.reeve.responses = [] → Does .mbRespAck s fun t =>
          t.win.respValid = false ∧ t.win.outbound = w.outbound)) ∧
      (resetPosted s = true → Does .mbRespAck s again) ∧
      (∀ e rest, s.reeve.events = e :: rest →
        (s.reeve.lost = 0 → Does .evtPop s fun t =>
          t = { s with reeve := { s.reeve with events := rest } }) ∧
        (s.reeve.lost ≠ 0 → Does .evtPop s fun t => t.reeve.lost = 0 ∧
          ∃ n, t.reeve.events = rest ++ [n] ∧ n.code = 0x0101 ∧
            n.data = BitVec.ofNat 32 s.reeve.lost)) ∧
      (s.reeve.events = [] → exec .evtPop s = .next s) ∧
      (∀ b, Does (.intStatClear b) s fun t =>
        t = { s with win := { w with intStat := w.intStat &&& ~~~b }, i3c := { s.i3c with ibiPending := s.i3c.ibiPending &&& ~~~b } }) ∧
      (Does .winCommit s fun t => t.win = { w with intEn := w.intEnStg, intCfg := w.intCfgStg }) ∧
      (∀ v : BitVec 8, s.i3c.hdr = false →
        (Does (.registerWrite 0x50 v) s fun t =>
          t.win = { w with intEnStg := v.setWidth 5 } ∧ t.i3c.winAddr = 0x51) ∧
        (Does (.registerWrite 0x51 v) s fun t =>
          t.win = { w with intCfgStg := v.setWidth 2 } ∧ t.i3c.winAddr = 0x52) ∧
        (Does (.registerWrite 0x44 v) s fun t => t.i3c.winAddr = 0x44 ∧
          (w.cmdFree = true → t.win.inbound = tabSet 0 w.inbound w.mbInPtr.toNat v)) ∧
        (Does (.registerWrite 0x10 v) s fun t =>
          t = { s with i3c := { s.i3c with winAddr := 0x11 } })) ∧
      (s.reeve.lockstepErr = true ∨ s.reeve.wdog = true → Does .reeveRestart s again) ∧
      (s.reeve.lockstepErr = false → s.reeve.wdog = false → exec .reeveRestart s = .next s)) ∧
    (resetPosted s = true → Does .sysResetDeferred s again) ∧
    (resetPosted s = false → exec .sysResetDeferred s = .next s) ∧
    (s.pins.inReset = false → ∀ i, i = Instr.lockstepMismatch ∨ i = .reeveWatchdogExpiry →
      Does i s fun t => t.reeve.halted = true ∧ t.win.cmdFree = false ∧
        t.win.intStat = w.intStat ||| intReeveFault ∧
        t.reeve.lockstepErr = (s.reeve.lockstepErr || i == .lockstepMismatch) ∧
        t.reeve.wdog = (s.reeve.wdog || i == .reeveWatchdogExpiry)) ∧
    (reeveRuns s = true → s.pins.inReset = false →
      (w.rung = true → nextMgmt s = none →
        let b := (List.range 1024).map (fun i => tabGet (0 : BitVec 8) w.inbound i)
        let len := field b 2 2
        let flags := field b 6 2
        let op := field b 0 2
        len ≤ 1016 → 8 + len ≤ w.inHigh → opDefined op = true → BitVec.ofNat 14 flags = 0 →
        Does .commandTaken s fun t => t.win.cmdFree = true ∧ t.win.rung = false ∧
          t.win.inbound = [] ∧ t.reeve.taken = s.reeve.taken ++
            [{ opcode := BitVec.ofNat 16 op
               cmd := { src := .mailbox, tag := BitVec.ofNat 16 (field b 4 2)
                        mirror := flags.testBit 15, atSwath := flags.testBit 14, rsvd := 0
                        payload := slice b 8 len } }]) ∧
      (w.rung = false → ∀ i m, nextMgmt s = some (i, m) → m.payload.length = 8 + field m.payload 2 2 →
        field m.payload 2 2 ≤ 1016 → opDefined (field m.payload 0 2) = true →
        BitVec.ofNat 14 (field m.payload 6 2) = 0 →
        Does .commandTaken s fun t =>
          t.reeve.mgmt0 = (if i = 0 then s.reeve.mgmt0.drop 1 else s.reeve.mgmt0) ∧
          t.reeve.mgmt1 = (if i = 1 then s.reeve.mgmt1.drop 1 else s.reeve.mgmt1) ∧
          ∃ c : Cmd, c.src = .mgmt i m.lotId m.keyIdx ∧ c.payload = m.payload.drop 8 ∧
            t.reeve.taken = s.reeve.taken ++
              [{ opcode := BitVec.ofNat 16 (field m.payload 0 2), cmd := c }])) ∧
    (s.pins.inReset = false → w.intCfg.getLsbD 1 = true → s.i3c.ibiEnabled = true →
      ∀ b v, nextIbi s = some (b, v) → Does (.ibiRetry true) s fun t => t.i3c = { s.i3c with
        ibiPending := s.i3c.ibiPending &&& ~~~(1#5 <<< b), lastIbi := some v }) ∧
    (exec (.ibiRetry false) s = .next s) ∧
    (∀ img tag, s.flash.erasing = some (img, tag) →
      (Does (.fwEraseDone true) s fun t => t.flash.erasing = none ∧
        (if img then t.flash.b = [] ∧ t.flash.freeB = none
         else t.flash.a = [] ∧ t.flash.freeA = none)) ∧
      (Does (.fwEraseDone false) s fun t => t.flash.erasing = none ∧
        (if img then t.flash.freeB = some s.freeCtr else t.flash.freeA = some s.freeCtr))) ∧
    (s.flash.erasing = none → ∀ ok, exec (.fwEraseDone ok) s = .next s) ∧
    (∀ c : Int, Does (.tempSample c) s fun t => t = { s with life := { s.life with
      live := { s.life.live with tj := t.life.live.tj } } } ∧
      t.life.live.tj = tabMod 0 s.life.live.tj (min 16 ((c + 40) / 10).toNat) (fun v => v + 1))

/-- Events arise in order, and those that find no place are counted. -/
def Obligations.EventsQueueInOrderAndLossesAreCounted : Prop :=
  ∀ (code : BitVec 16) (idx data : Nat) (s : State),
    (s.reeve.events.length < 64 →
      let t := raise code idx data s
      t.reeve.events = s.reeve.events ++
        [{ code := code, seq := s.reeve.evSeq, tag := none, mgmt := false, alarm := isAlarm code,
           scope := BitVec.ofNat 16 idx, era := s.clk.era, tl := s.clk.timeline,
           data := BitVec.ofNat 32 data }] ∧
      t.reeve.evSeq = s.reeve.evSeq + 1 ∧ t.reeve.lost = s.reeve.lost ∧
      t.win.intStat = s.win.intStat ||| (if s.reeve.events = [] then intEvent else 0) |||
        (if isAlarm code then intAlarm else 0) ∧
      Only raising s t ∧ t.counters = s.counters) ∧
    (64 ≤ s.reeve.events.length →
      let t := raise code idx data s
      t.reeve = { s.reeve with lost := s.reeve.lost + 1 } ∧
      ctrOf t cEventsLost scDevice = ctrAdd (ctrOf s cEventsLost scDevice) 1 ∧
      Only [.reeve, .counters] s t)

/-- The common command codes (R526-R529, Table 20-1; R467 in low states). -/
def Obligations.CommonCommandCodesActAsTabled : Prop :=
  ∀ s : State,
    let x := s.i3c
    let reads (i : Instr) (b : Bytes) := Does i s fun t =>
      t = { s with i3c := { x with lastRead := b, hdr := false } }
    (s.pins.inReset = false → s.pwr.st ≠ .deepFallow →
      (∀ a i, i = Instr.entdaa a ∨ i = .setdasa a → Does i s fun t =>
        t = { s with i3c := { x with
          dynAddr := if x.dynAddr.isSome = true then x.dynAddr else some a, hdr := false } }) ∧
      (Does .rstdaa s fun t => t = { s with i3c := { x with dynAddr := none, hdr := false } }) ∧
      (Does .enec s fun t => t = { s with i3c := { x with ibiEnabled := true, hdr := false } }) ∧
      (Does .disec s fun t => t = { s with i3c := { x with ibiEnabled := false, hdr := false } }) ∧
      (∀ n, (Does (.setmwl n) s fun t => t = { s with i3c := { x with
          mwl := if n.toNat < 16 then 16 else n, hdr := false } }) ∧
        (Does (.setmrl n) s fun t => t = { s with i3c := { x with
          mrl := if n.toNat < 16 then 16 else n, hdr := false } })) ∧
      reads .getmwl (natBytes 2 x.mwl.toNat) ∧ reads .getmrl (natBytes 2 x.mrl.toNat) ∧
      reads .getpid (natBytes 6 (0x2A5C * 2 ^ 33 + 0x4812 * 2 ^ 16 + s.pins.addr.toNat * 2 ^ 12 +
        0x0B0)) ∧
      reads .getbcr [0x26] ∧ reads .getdcr [0x00] ∧
      (Does .getstatus s fun t => t.i3c.hdr = false ∧ t.i3c.lastRead.length = 2 ∧
        t.i3c.dynAddr = x.dynAddr ∧ t.i3c.ibiEnabled = x.ibiEnabled) ∧
      (Does .getcaps s fun t => t.i3c.hdr = false ∧ t.i3c.lastRead.length = 4 ∧
        (byteAt t.i3c.lastRead 0).getLsbD 0 = true ∧ t.i3c.dynAddr = x.dynAddr) ∧
      (Does .enthdr0 s fun t => t = { s with i3c := { x with hdr := true } })) ∧
    (s.pins.inReset = true → ∀ i ∈ [Instr.rstdaa, .enec, .disec, .getmwl, .getmrl, .getpid, .getbcr,
      .getdcr, .getstatus, .getcaps, .enthdr0], exec i s = .next s) ∧
    (s.pins.inReset = false → s.pwr.st = .deepFallow →
      (∀ i ∈ [Instr.rstdaa, .enec, .disec, .enthdr0], exec i s = .next s) ∧
      ∀ i ∈ [Instr.getmwl, .getmrl, .getpid, .getbcr, .getdcr, .getstatus, .getcaps],
        exec i s = exec .i3cWake s)

/-- Every read command answers a request it serves with its status block and counters; RC takes back what it returned (R558, R608, R254, R353, R377, R382, R388, R224, R467, R534, R535). -/
def Obligations.ReadCommandsAnswerAsAsked : Prop :=
  ∀ (c : Cmd) (s : State),
    let p := c.payload
    let no (_ : Nat) (_ : State) : Prop := True
    let all (_ : Nat) : Prop := True
    let port (_ : Nat) : Prop := namesNoPort (mode100 s) (scopeField p) = false
    let kind := (byteAt p 0).toNat
    let own := (kind = 0x11 ∨ kind = 0x12) ∧ field p 4 2 = 0
    Inquires 0x0202 [] [(18, 14)] 0 pwrBlock (.pwrGetState c) c s all no ∧
    Inquires 0x0304 [0x01] [] 0 lockBlock (.lineGetLock c) c s all no ∧
    Inquires 0x0305 [0x08] [(2, 8), (3, 10), (4, 7)] 0 lineBlock (.lineGetCounters c) c s all no ∧
    Inquires 0x0403 [] [(5, 9), (20, 8)] 0 actBlock (.actGetState c) c s all no ∧
    Inquires 0x0502 [] [] 0 defectsBlock (.supGetDefects c) c s all no ∧
    Inquires 0x0604 [0x05] [] 0 fitBlock (.timeGetFit c) c s all no ∧
    Inquires 0x0606 [] [(7, 14)] 0 timeBlock (.timeGetStatus c) c s all no ∧
    Inquires 0x0704 [] [(8, 8)] 0 portBlock (.portGetStats c) c s port no ∧
    Inquires 0x0802 [] [(9, 8)] 4 ptpBlock (.ptpGetPort c) c s
      (fun sc => port sc ∧ (byteAt p 9).toNat ≤ 1) no ∧
    Inquires 0x0905 [0x11, 0x12] [(10, 10), (11, 10)] (if kind = 0x12 then 20 else 0) clsBlock
      (.clsGetGeneration c) c s (fun _ => ¬own) no ∧
    (Accepted 0x0A03 c s → ∀ sc, (byteAt p 8).toNat ≤ 24 →
      Asks [] [(12, 9)] 4 (fun _ p s => recordBlock p s.tine.faultLog) c s sc →
      let x := s.tine
      let m := (byteAt p 8).toNat
      let ch := (byteAt p 4).toNat
      let tbl := (byteAt p 5).toNat
      let first := (byteAt p 6).toNat
      let n := (byteAt p 7).toNat % 128
      Does (.tineGetFaults c) s fun t =>
        Replied 0x0A03 c 0 (recordBlock p x.faultLog ++ readCounters s ch tbl sc first n) t ∧
        (rcBit p = false → Only [.win, .i3c, .reeve, .tine, .freeCtr] s t ∧
          t.tine = { x with faultRead := max x.faultRead (min m x.faultLog.length) }) ∧
        (rcBit p = true →
          t.tine = { x with faultLog := x.faultLog.drop m, faultRead := x.faultRead - m } ∧
          ∀ j, j < n →
            let k := (ctrKinds ch tbl).getD (first + j) 0
            kindServes ch tbl (first + j) k (scopeKind sc) = true →
            ctrOf t (readKey ch tbl (first + j)) (readScope k sc) = {})) ∧
    Inquires 0x0B02 [0x0E] [] 0 pmcBlock (.pmcRead c) c s all
      (fun sc t => let (h, n) := tineOfScope sc
        cycOf t h n = 0 ∧ (pmcOf t h n).count = [] ∧ (pmcOf t h n).ovf = 0) ∧
    Inquires 0x0B04 [0x0D] [(14, 6)] 4 (fun sc p s => recordBlock p (sampOf s (harrowOfScope sc)).buffer)
      (.pmcSampleRead c) c s (fun _ => (byteAt p 8).toNat ≤ 31)
      (fun sc t => (sampOf t (harrowOfScope sc)).buffer =
        (sampOf s (harrowOfScope sc)).buffer.drop (byteAt p 8).toNat) ∧
    Inquires 0x0C05 [] (if kind = 0x0B then [(15, 11), (4, 7)] else [(15, 11)]) 0 qosBlock
      (.qosGetQueue c) c s all
      (fun sc t => let (ds, q) := blockQueue sc
        (queueOf t ds q).high = (queueOf s ds q).bushels ∧ t.qos.low = s.qos.free) ∧
    Inquires 0x0D04 [0x13] [(16, 8)] 0 slotBlock (.cryGetSlot c) c s all no ∧
    Inquires 0x0F02 [] [(19, 10)] 0 pairBlock (.pairGetState c) c s all no

/-- Settings commands of supervision, time, ports, PTP, queues, tines and sampling put every setting they carry in force (R554, R555, R556, R244, R275, R412, R414, R415, R417, R384, R509, R534). -/
def Obligations.SettingsCommandsPutTheirSettings : Prop :=
  ∀ (c : Cmd) (s : State),
    let no (_ : Nat) (_ : List Given) (_ : State) : Prop := True
    let all (_ : Nat) (_ : List Given) : Prop := True
    let held (sc : Nat) (gs : List Given) : State := putGiven sc gs s
    let port (sc : Nat) (_ : List Given) : Prop := namesNoPort (mode100 s) sc = false
    Sets 0x0501 [0x04] (fun _ => settings603) (.supSetActions c) c s all no ∧
    Sets 0x0504 [0x00] (fun _ => thresholdSettings) (.supSetThresholds c) c s
      (fun sc gs => given s gs sSdClr sc ≤ given s gs sSdSet sc ∧
        given s gs sSfClr sc ≤ given s gs sSfSet sc) no ∧
    Sets 0x0601 [0x05] (fun _ => settings702 ++ [sDomSrc]) (.timeSetDomains c) c s all no ∧
    Sets 0x0603 [0x00] (fun _ => settings709) (.timeSetAsym c) c s all no ∧
    Sets 0x0605 [0x00] (fun _ => settings906) (.timeSetOutputs c) c s all
      (fun sc gs t => settingB s sPpsInEnable scDevice ≠ settingB (held sc gs) sPpsInEnable scDevice →
        t.time.lastPpsIn = none ∧ t.time.ppsInLost = false) ∧
    Sets 0x0703 [0x06] (fun _ => settings806) (.portSetSheaf c) c s port no ∧
    Sets 0x0801 [0x06] (fun _ => settings901) (.ptpConfigurePort c) c s
      (fun sc gs => port sc gs ∧ ptpOffence sc gs (held sc gs) = none)
      (fun sc gs t => ptpProfile (held sc gs) (scopeIndex sc) ≠ ptpProfile s (scopeIndex sc) →
        (portOf t (scopeIndex sc)).grants = []) ∧
    Sets 0x0C01 [0x0A, 0x0B] (fun k => if k = 0x0A then dsQueueSettings else usQueueSettings)
      (.qosSetQueue c) c s
      (fun sc gs => (carried gs sPlotS = true → s.act.dual = true) ∧
        given s gs sQMaxR sc ≤ given s gs sQMaxY sc ∧ given s gs sQMaxY sc ≤ given s gs sQMaxG sc)
      (fun sc gs t => queueEnabled (held sc gs) (scopeKind sc == 0x0A) (scopeIndex sc) = false →
        (queueOf t (scopeKind sc == 0x0A) (scopeIndex sc)).frames = []) ∧
    Sets 0x0C02 [0x00, 0x09] (fun k => if k = 0 then settings1502 else settings1505) (.qosSetSched c) c
      s (fun sc gs => scopeKind sc = 0 → given s gs sPoolFloorY sc ≤ given s gs sPoolFloorR sc) no ∧
    Sets 0x0C03 [0x0A, 0x06, 0x0B, 0x0C] (fun _ => settings1507) (.qosSetShaper c) c s
      (fun sc _ => namesNoPort (mode100 s) (scopeField c.payload) = false ∧
        (scopeKind sc = 0x0C → (tabGet ({} : Bucket) s.qos.shapers sc).live = true ∨
          classShapers s < 2048))
      (fun sc gs t => tabGet ({} : Bucket) t.qos.shapers sc =
        { t := if settingB (held sc gs) sShResetFull sc then shaperBurst (held sc gs) sc else 0,
          last := now s, live := true }) ∧
    Sets 0x0C04 [0x10, 0x14, 0x15]
      (fun k => if k = 0x10 then settings1508 else [{ sMapEntry with idx := if k = 0x14 then 17 else 65 }])
      (.qosSetMeter c) c s
      (fun sc gs => scopeKind sc = 0x10 →
        ¬(given s gs sMtMode sc = 2 ∧ given s gs sPir sc < given s gs sCir sc) ∧
        ¬(given s gs sMtMode sc = 1 ∧ given s gs sCbs sc = 0 ∧ given s gs sEbs sc = 0))
      (fun sc gs t => scopeKind sc = 0x10 →
        tabGet ({} : Meter) t.qos.meters (scopeIndex sc) =
          { tc := setting (held sc gs) sCbs sc * 2 ^ 32, te := setting (held sc gs) sEbs sc * 2 ^ 32,
            last := now s }) ∧
    Sets 0x0A02 [0x0F] (fun _ => permSettings) (.tineSetPerms c) c s
      (fun sc gs => (∀ g ∈ gs, blockRanges.contains g.1 = true → g.2.2 % 64 = 0) ∧
        given s gs sScrBase sc + given s gs sScrLen sc ≤ 131072 ∧
        given s gs sSramBase sc + given s gs sSramLen sc ≤ 16777216)
      (fun sc _ t => (progOf t (scopeIndex sc)).disabled = false) ∧
    Sets 0x0B03 [0x0D] (fun _ => settings1404) (.pmcSampleStart c) c s all
      (fun sc gs t => (sampOf t (scopeIndex sc)).mask =
        if settingB (held sc gs) sBufMode sc = true ∧ 256 ≤ (sampOf s (scopeIndex sc)).buffer.length
        then 0 else BitVec.ofNat 16 (settingN (held sc gs) sTineMask sc))

/-- Settings commands of lanes, groups, activation, ports, performance counters and the pair take effect (R554, R555, R556, R77, R128, R129, R377, R381, R499, R534, R544). -/
def Obligations.LineActivationAndPairSettingsTakeEffect : Prop :=
  ∀ (c : Cmd) (s : State),
    let all (_ : Nat) (_ : List Given) : Prop := True
    let eq (_ : Nat) : List SSpec := [sCtleMode, sCtleCode, sAdaptMin, sAdaptMax]
    let ordered (sc : Nat) (gs : List Given) : Prop :=
      eqValue s sc gs sAdaptMin ≤ eqValue s sc gs sAdaptMax
    (∀ o0 o1, Sets 0x0301 [0x00, 0x01, 0x02]
      (fun k => if k = 0 then [sTimingLane] else [sLaneEnable, sMediaLane])
      (.lineConfigureLanes c o0 o1) c s all (fun sc gs t => carried gs sLaneEnable = true →
        (scopeKind sc = 1 → ((laneOf t (scopeIndex sc)).st = .off ↔ given s gs sLaneEnable sc ≠ 1)) ∧
        (scopeKind sc = 2 → (∀ x, (usLaneOf s x).bursts = []) →
          ((usLaneOf t (scopeIndex sc)).enabled = true ↔ given s gs sLaneEnable sc = 1)))) ∧
    Sets 0x0302 [0x01] eq (.lineSetEq c) c s
      (fun sc gs => ordered sc gs ∧ isLocked (laneOf s (scopeIndex sc)) = false) (fun _ _ _ => True) ∧
    (Accepted 0x0302 c s → ∀ sc gs, Carries [0x01] eq c s sc gs → ordered sc gs →
      isLocked (laneOf s (scopeIndex sc)) = true → Does (.lineSetEq c) s fun t =>
        Replied 0x0302 c 0 [] t ∧ t.settings = s.settings ∧
        (laneOf t (scopeIndex sc)).eqPending =
          (laneOf s (scopeIndex sc)).eqPending ++ gs.map (fun g => (g.1.row, g.2.2))) ∧
    Sets 0x0303 [0x00, 0x01] (fun k => if k = 0 then [sUsMode] else [sLaneGroup]) (.lineSetGroup c) c s
      (fun sc gs => ∀ g, gs.head? = some g → s.act.dual = true → if scopeKind sc = 0 then g.2.2 ≠ 0 else
        dualGroups (fun i => if i = scopeIndex sc then g.2.2.toNat else laneGroup s i) = true)
      (fun sc gs t => ∀ g, gs.head? = some g → scopeKind sc = 1 →
        (laneOf t (scopeIndex sc)).group = some (BitVec.ofInt 2 g.2.2)) ∧
    (Accepted 0x0401 c s → ∀ sc gs, Carries [0x00, 0x04] (fun _ => settings506 ++ [sMgmtMask]) c s sc gs →
      (∀ g ∈ gs, g.1 = sMgmtMask → g.2.2.toNat ||| mgmtMaskAll = mgmtMaskAll) →
      Does (.actStart c) s fun t => Replied 0x0401 c 0 [] t ∧ ∀ i ∈ scopeInsts s sc,
        (instOf t i).enabled = true ∧ InForce gs (scInst i) t) ∧
    (Accepted 0x0404 c s → ∀ sc gs, Carries [0x00] (fun _ => [sParenting, sWorking]) c s sc gs →
      let dual := if carried gs sParenting then decide (given s gs sParenting sc = 1) else s.act.dual
      (dual = s.act.dual ∨ allStopped s = true ∧ (dual = true → dualGroups (laneGroup s) = true)) →
      (carried gs sWorking = true → dual = true ∨ (given s gs sWorking sc).toNat = 0) →
      Does (.actSetParenting c) s fun t => Replied 0x0404 c 0 [] t ∧ t.act.dual = dual) ∧
    (Accepted 0x0701 c s → ∀ sc gs, Carries [0x06] (fun _ => settings802) c s sc gs →
      let s1 := putPort sc gs s
      namesNoPort (mode100 s) sc = false → portOffence sc gs s1 = none →
      (setting s sPortMode scDevice = setting s1 sPortMode scDevice ∨
        ∀ p, p < 8 → (portOf s p).link = .disabled) →
      Does (.portConfigure c) s fun t => Replied 0x0701 c 0 [] t ∧ ∀ g ∈ gs,
        if laneSettings.contains g.1 then setting t g.1 (scSlane g.2.1) = g.2.2
        else setting t g.1 sc g.2.1 = g.2.2) ∧
    (Accepted 0x0B01 c s → ∀ sc gs, Carries [0x0D] (fun _ => sPmcTineMask :: settings1402) c s sc gs →
      Does (.pmcConfigure c) s fun t => Replied 0x0B01 c 0 [] t ∧
        ∀ n, n < 16 → (given s gs sPmcTineMask sc).toNat.testBit n = true →
          (∀ g ∈ gs, pmcKept.contains g.1 = true →
            setting t g.1 (scTine (scopeIndex sc) n) g.2.1 = g.2.2) ∧
          ((∃ g ∈ gs, g.1 = sPmcClear ∧ g.2.2 = 1) → (pmcOf t (scopeIndex sc) n).count = [] ∧
            cycOf t (scopeIndex sc) n = 0)) ∧
    Sets 0x0F01 [0x00] (fun _ => settings1901) (.pairConfigure c) c s
      (fun sc gs =>
        (carried gs sPaired = true → given s gs sPaired sc = 1 →
          pairSerialValid (given s gs sPairSerial sc) = true) ∧
        (given s gs sPaired sc = 0 → s.pair.st = .solo ∨ s.pair.st = .active ∨ s.pair.roleIn = false))
      (fun sc gs t => s.pair.yielding = none →
        (s.pair.st = .solo ∧ given s gs sPaired sc = 1 → t.pair.st = .standby) ∧
        (given s gs sPaired sc = 0 → t.pair.st = .solo))

/-- System, lifetime, life-cycle, debug and power commands do what their rules say and answer it (R531, R549, R579, R578, R447, R449, R451, R458, R459, R484, R485, R469). -/
def Obligations.SystemLifeSecurityAndPowerCommandsAct : Prop :=
  ∀ (c : Cmd) (s : State),
    let p := c.payload
    let did (op : Nat) (i : Instr) (st : Nat) (out : Bytes) (P : State → Prop) : Prop :=
      Accepted op c s → Does i s fun t => Replied op c st out t ∧ P t
    let host (t : State) : Prop := Only [.win, .i3c, .reeve] s t
    let some_ (size : Nat) (rs : List Bytes) : Bytes :=
      ((rs.drop (field p 2 2)).take (min (field p 4 2) (1016 / size))).flatten
    (p = [] → did 0x0101 (.sysGetInfo c) 0 ([0x48, 0x12, 0x00, 0xB0] ++ serialBytes ++
      natBytes 4 s.win.fwVersion.toNat ++ [s.win.bootStatus] ++ natBytes 1 (bootInfo s) ++
      natBytes 2 1 ++ natBytes 2 ownRevMin ++ natBytes 2 ownRevMax) host) ∧
    (p = [] → did 0x0102 (.sysReset c) 0 [] fun t =>
      host t ∧ t.reeve.resetBy = some (0x0102, c.tag)) ∧
    (p.length = 8 → (byteAt p 1).toNat ≤ 1 →
      let img := byteAt p 1 == 1
      let k := imageCheck s img
      ((byteAt p 0).toNat = 0 → regionRuns s img = false → s.flash.erasing = none →
        did 0x0103 (.sysFwActivate c) 1 [] fun t =>
          t.flash.load = none ∧ t.flash.erasing = some (img, c.tag)) ∧
      ((byteAt p 0).toNat = 2 →
        did 0x0103 (.sysFwActivate c) 0 ([k.result, 0, 0, 0] ++ natBytes 4 k.fwVersion.toNat) host) ∧
      ((byteAt p 0).toNat = 3 → s.pwr.phase = .stable → did 0x0103 (.sysFwActivate c)
        (if k.result ≠ 0 then 4 else 0) (if k.result ≠ 0 then [0, 0, 0, 0] else []) fun t =>
          k.result = 0 →
            t.flash.active = some img ∧ t.reeve.resetBy = some (0x0103, c.tag))) ∧
    (p.length = 6 →
      ((byteAt p 0).toNat = 1 → did 0x1001 (.lifeRead c) 0
        (some_ 872 (s.life.dayBins.map (fun r => dayRecord r.bin))) host) ∧
      ((byteAt p 0).toNat = 2 → did 0x1001 (.lifeRead c) 0
        (some_ 32 (s.life.gaps.map (fun r => r.body))) host) ∧
      ((byteAt p 0).toNat = 3 → did 0x1001 (.lifeRead c) 0
        (some_ 64 (s.life.marks.map (fun r => r.body))) host)) ∧
    (p = [] → did 0x1002 (.lifeGetSummary c) 0 (summaryRecord s) host) ∧
    (p.length = 32 → markRecent s = false →
      let tod := if timeValid s then outTod s else none
      let stamp := natBytes 2 s.clk.era.toNat ++ natBytes 8 (now s).toNat
      ∀ ms, did 0x1003 (.lifeMark c ms) 0 stamp fun t =>
        t.life.lastMark = some (now s) ∧ t.life.live.marks = s.life.live.marks + 1 ∧
        t.life.marks = ({ seq := nextSeq (s.life.marks.head?.map (fun m => m.seq))
                          body := stamp ++ todOptBytes tod ++ natBytes 1 (bit tod.isSome * 128) ++
                            [0] ++ p ++ natBytes 8 0 } :: s.life.marks).take (ringCap t.life 3)) ∧
    (p = [] → did 0x0E01 (.secGetLifecycle c) 0 (natBytes 1 (lifeCycle s) ++
      natBytes 1 (debugCode s.sec.debug) ++
      natBytes 1 (2 * bit (kekValid s) + bit s.sec.upstreamInhibit) ++ natBytes 1 (fuseWeak s) ++
      natBytes 1 (bit s.win.image) ++ natBytes 1 (bit s.win.fallback) ++ [s.sec.unlockFail, 0]) host) ∧
    (s.pwr.phase = .stable → s.pwr.st = .run → field p 4 4 = 0x4C434144 → ∀ took,
      let weak (f : Fuses) : Bytes := natBytes 1 (fuseWeak { s with fuses := f })
      let x := slotOf s 127
      let adv (f : Fuses) : Prop := did 0x0E02 (.secAdvance c took) 0 (weak f) fun t =>
        t.fuses = f ∧ t.reeve.resetBy = some (0x0E02, c.tag)
      ((byteAt p 0).toNat = 1 → p.length = 104 → lifeCycle s = 0 → x.loaded = true →
        x.size256 = true → x.use = 0 → burnConflict s.fuses (provisionFuses s p took) = false →
        adv (provisionFuses s p took)) ∧
      ((byteAt p 0).toNat = 2 → p.length = 8 → lifeCycle s = 1 → s.sec.debug = .locked →
        kekValid s = true → adv { s.fuses with sec := s.fuses.sec ||| took }) ∧
      ((byteAt p 0).toNat = 3 → p.length = 8 → lifeCycle s < 3 →
        adv { s.fuses with ret := s.fuses.ret ||| took })) ∧
    (p = [] → s.sec.unlockFail.toNat < 8 → did 0x0E03 (.secDebugChallenge c) 0 (freeBytes s 32) fun t =>
      t.sec.challenge = some (freeBytes s 32, now s)) ∧
    (s.pwr.phase = .stable → s.pwr.st ≠ .deepFallow →
      ((byteAt p 0).getLsbD 0 = true → p.length = 4 → s.sec.debug = .authenticated →
        did 0x0E04 (.secDebugUnlock c) 0 [] fun t => t.sec.debug = .locked) ∧
      ((byteAt p 0).getLsbD 0 = false → p.length = 197 → s.sec.debug = .locked →
        did 0x0E04 (.secDebugUnlock c) (if unlockValid s p then 0 else 5)
          (if unlockValid s p then [] else [0, 0, 0, 0]) fun t =>
          t.sec.challenge = none ∧ t.sec.debug = (if unlockValid s p then .authenticated else .locked) ∧
          (unlockValid s p = false → t.sec.unlockFail =
            if s.sec.unlockFail = 0xFF then 0xFF else s.sec.unlockFail + 1))) ∧
    (p = [] → did 0x0205 (.pwrGetWakeReport c) 0 (fit 48 s.pwr.report) host) ∧
    (let m := BitVec.ofNat 64 (field p 0 8) &&& 0x3FFFFFFFFFFFF
     p.length = 8 → pwrChanging s = false → m &&& inRetention s = 0 →
      (∀ x, (usLaneOf s x).bursts = []) → did 0x0204 (.pwrReleasePads c) 0 [] fun t =>
        t.pwr.latched = s.pwr.latched &&& ~~~m) ∧
    (Accepted 0x0201 c s → ∀ sc gs, Carries [0x00] (fun _ => settings1803) c s sc gs →
      let rouse := given s gs sRouseCode scDevice
      let target := match gs.find? (fun g => g.1 == sPwrTarget) with
        | some g => pwrOfCode g.2.2.toNat
        | none => s.pwr.st
      (rouse ≠ 0 → 12 ≤ popNat 32 rouse.toNat ∧ popNat 32 rouse.toNat ≤ 20) → pwrChanging s = false →
      pwrCode s.pwr.st < pwrCode target → (s.pair.st = .solo ∨ s.pair.st = .isolated) →
      rangingOrTuning s = false →
      (target = .deepFallow → s.sec.debug ≠ .authenticated ∧ s.clk.refclk = true) →
      Does (.pwrSetState c) s fun t => Replied 0x0201 c 1 [] t ∧ InForce gs sc t ∧
        t.pwr.phase = .entering ∧ t.pwr.point = 1 ∧ t.pwr.target = target ∧ t.pwr.tag = some c.tag) ∧
    (let on := BitVec.ofNat 64 (field p 0 8) &&& 0x3FFFFFFFFFFFF
     let off := BitVec.ofNat 64 (field p 8 8) &&& 0x3FFFFFFFFFFFF
     p.length = 16 → on &&& off = 0 → (on ||| off) &&& ~~~0x8000000000FF = 0 → s.pwr.st = .run →
     s.pwr.phase = .stable → s.pwr.gating &&& 0x8000000000FF = 0 →
     (∀ n, n < 64 → off.getLsbD n = true → gateOk s n = true) →
     did 0x0203 (.pwrSetDomains c 0) 0 [] fun t => t.pwr.on = (s.pwr.on ||| on) &&& ~~~off) ∧
    (∀ sc, p.length = 8 → scopeOf s [0x01, 0x02, 0x03, 0x04, 0x05] p = some sc →
      ∀ b, (byteAt p 4).toNat ≤ 1 → (byteAt p 5).toNat < (if (byteAt p 4).toNat = 0 then 97 else 32) →
        binRead s (byteAt p 4).toNat (byteAt p 5).toNat = some b →
        did 0x0503 (.supGetBins c) 0 (binHeader b ++ binCounts b sc) host)

/-- Loads, rule staging and commit, key slots, filters, domain selection, stopping and pair commands do what their rules say (R244, R299, R312, R325, R349, R351, R431, R439, R440, R216, R128, R520). -/
def Obligations.LoadsKeysSelectionsAndRolesCommandsAct : Prop :=
  ∀ (c : Cmd) (s : State),
    let p := c.payload
    let did (op : Nat) (i : Instr) (st : Nat) (out : Bytes) (P : State → Prop) : Prop :=
      Accepted op c s → Does i s fun t => Replied op c st out t ∧ P t
    let host (t : State) : Prop := Only [.win, .i3c, .reeve] s t
    let k := (byteAt p 0).toNat
    let a := field p 2 2
    let n := field p 4 2
    (k < 128 → a + n ≤ 976 →
      let given := fun (op : Nat) (i : Instr) (len : Nat) (g : CryOp → Prop)
          (ctr : BitVec 64) =>
        Accepted op c s → p.length = len →
        (s.cry.stopped = true → Does i s fun t => Replied op c 5 [3, 0, 0, 0] t ∧ t.cry = s.cry) ∧
        (s.cry.stopped = false → sealSlot s k = false →
          Does i s fun t => Replied op c 5 [2, 0, 0, 0] t ∧ t.cry = s.cry) ∧
        (s.cry.stopped = false → sealSlot s k = true → ctr ≠ 0 → Does i s fun t =>
          t.reeve.sealing = s.reeve.sealing ++ [(s.cry.nextId, BitVec.ofNat 16 op, c.tag)] ∧
          t.reeve.responses = s.reeve.responses ∧ t.win.outbound = s.win.outbound ∧
          t.cry.ops.map (·.id) = s.cry.ops.map (·.id) ++ [s.cry.nextId] ∧
          ∃ o ∈ t.cry.ops, o.id = s.cry.nextId ∧ o.client = 2 ∧ o.slot = k ∧ o.dst = .command ∧ g o)
      let x := slotOf s k
      given 0x0D02 (.crySeal c) (8 + a + n) (fun o => o.mode = .seal ∧
        o.nonce = natBytes 4 x.salt.toNat ++ natBytes 8 x.ctr.toNat ∧ o.aad = slice p 8 a ∧
        o.text = slice p (8 + a) n) (x.ctr + 1) ∧
      given 0x0D03 (.cryUnseal c) (36 + a + n) (fun o => o.mode = .open_ ∧ o.nonce = slice p 8 12 ∧
        o.aad = slice p 20 a ∧ o.text = slice p (20 + a) n ∧ o.tag = slice p (20 + a + n) 16) 1) ∧
    (∀ sc gs, Carries [0x13] (fun _ => bindSettings) c s sc gs →
      let x := slotOf s (scopeIndex sc)
      let use := bindItem gs sSlotUse x.use
      let target := bindItem gs sSlotTarget x.target
      let key := bindItem gs sSlotKeyIdx x.keyIdx
      let alg := bindItem gs sSlotAlg (bit x.cmacAlg)
      use ≤ 5 → (1 ≤ use ∧ use ≤ 3 → 1 ≤ target → s.act.dual = true) →
      (1 ≤ use ∧ use ≤ 2 → key ≠ 0) → (1 ≤ use ∧ use ≤ 4 → alg ≠ 1) →
      did 0x0D01 (.cryBindSlot c) 0 [] fun t =>
        slotOf t (scopeIndex sc) = { x with
          use := use, target := target, keyIdx := key, cmacAlg := alg == 1 }) ∧
    (8 ≤ p.length → s.cls.st = .oneLive →
      (∀ b, chunkStep s.cls.load p = .more b → did 0x0901 (.clsLoadGraph c) 1 [] fun t =>
        t.cls = { s.cls with load := some b }) ∧
      (∀ b, chunkStep s.cls.load p = .whole b → graphOffence b = none →
        did 0x0901 (.clsLoadGraph c) 0 [] fun t =>
          t.cls = { s.cls with load := none, stGraph := some b })) ∧
    (let m := (byteAt p 9).toNat
     let keyPos := (byteAt p 2).toNat % 32
     let keyBytes := (byteAt p 3).toNat % 16
     let slots := (List.range m).map (fun i => slice p (12 + 36 * i) 36)
     p.length = 12 + 36 * m → s.cls.st = .oneLive → m ≤ 27 → (byteAt p 8).toNat + m ≤ 64 →
     field p 0 2 % 1024 ≤ 512 → keyBytes ≤ 8 → keyPos + keyBytes ≤ 32 → slots.all patSlotOk = true →
     let old := (s.cls.stPats.getD s.cls.cur.pats).slots
     let pats : PatSet :=
       { searchLen := field p 0 2 % 1024, keyPos := keyPos, keyBytes := keyBytes,
         onFrag := (byteAt p 4).getLsbD 0,
         slots := tabPut (List.replicate 36 0) old (byteAt p 8).toNat slots }
     did 0x0902 (.clsSetPatterns c) 0 [] fun t => t.cls = { s.cls with stPats := some pats }) ∧
    (∀ t1, 4 ≤ p.length → s.cls.st = .oneLive →
      stageAll (field p 0 2) 0 (p.drop 4)
        { cls := s.cls, waiting := (s.cls.rehash.map (fun r => r.inserts)).getD [] } = .ok ([], t1) →
      did 0x0903 (.clsStageRules c) (if t1.rehash then 1 else 0) [] fun t =>
        ∃ r, t.cls = { t1.cls with rehash := r } ∧ (t1.rehash = true → r.isSome = true)) ∧
    (p = [] → s.cls.st = .oneLive → did 0x0904 (.clsCommit c) 0 [] fun t =>
      t.cls.newest = s.cls.newest + 1 ∧ t.cls.old = s.cls.cur ∧
      t.cls.cur = { graph := if s.cls.stGraph.isSome then s.cls.stGraph else s.cls.cur.graph
                    pats := s.cls.stPats.getD s.cls.cur.pats
                    deflt := s.cls.stDeflt.getD s.cls.cur.deflt } ∧
      t.cls.st = if s.cls.inNew = 0 then .sweeping else .twoLive) ∧
    (∀ sc pk by_ take, (k = 0x11 ∨ k = 0x12) → field p 4 2 = 0 →
      p.length = 8 + (if k = 0x12 then 20 else 0) → scopeOf s [0x11, 0x12] p = some sc →
      clsCounts sc p s = some (pk, by_, take) → (byteAt p 6).toNat + (byteAt p 7).toNat % 128 ≤ 2 →
      did 0x0905 (.clsGetGeneration c) 0 (clsBlock sc p s ++
        (([natBytes 8 pk, natBytes 8 by_].drop (byteAt p 6).toNat).take
          ((byteAt p 7).toNat % 128)).flatten) fun t => rcBit p = false → host t) ∧
    (8 ≤ p.length →
      (∀ b, chunkStep s.tine.load p = .more b → did 0x0A01 (.tineLoadProgram c) 1 [] fun t =>
        t.tine = { s.tine with load := some b }) ∧
      (∀ b, chunkStep s.tine.load p = .whole b → programOffence b s = none →
        64 ≤ field b 6 2 % 4096 → did 0x0A01 (.tineLoadProgram c) 0 [] fun t =>
          let x := progOf t (field b 6 2 % 4096)
          t.tine.load = none ∧ x.loaded = true ∧ x.codeLen = imgCode b ∧ x.constLen = imgConst b ∧
          x.entry = x.base + field b 14 2 ∧ x.limit = field b 12 2)) ∧
    (∀ sc, let m := (byteAt p 6).toNat
      p.length = 8 + 16 * m → scopeOf s [0x06] p = some sc → namesNoPort (mode100 s) sc = false →
      m ≤ 32 → (byteAt p 4).toNat ≤ 1 → (byteAt p 5).toNat ≤ 7 →
      did 0x0702 (.portSetFilters c) 0 [] fun t =>
        (portOf t (scopeIndex sc)).filters =
          (List.range m).map (fun i => BitVec.ofNat 128 (field p (8 + 16 * i) 16)) ∧
        (portOf t (scopeIndex sc)).defaultDrop = (byteAt p 4).getLsbD 0 ∧
        (portOf t (scopeIndex sc)).defaultClass = byteAt p 5) ∧
    (p.length = 4 → k < 2 → (domOf s k).st ≠ .disabled →
      did 0x0602 (.timeSelect c) 0 [] fun t => t.time.selected = k) ∧
    (∀ sc, p.length = 4 → scopeOf s [0x00, 0x04] p = some sc → did 0x0402 (.actStop c) 0 [] fun t =>
      ∀ i ∈ scopeInsts s sc, (instOf t i).enabled = false ∧
        (instOf t i).st = if (instOf s i).st = .silenced then .silenced else .listen) ∧
    (p.length = 4 →
      let force := (byteAt p 1).getLsbD 0
      (k = 0 → force = true → s.pair.st = .standby → did 0x0F03 (.pairYield c) 0 [] fun t =>
        t.pair = { s.pair with forceArmed := true }) ∧
      (k = 0 → s.pair.st = .active → peerReady s = true → (s.pair.versionGap = true → force = true) →
        (∃ x ∈ [0, 1], ∃ b ∈ (usLaneOf s x).bursts.head?, b.sending = true) →
        did 0x0F03 (.pairYield c) 0 [] fun t =>
          t.pair = { s.pair with yielding := some { force := force, isolate := false } }) ∧
      (k = 1 → s.pair.st = .standby ∨ s.pair.st = .rejoining → did 0x0F03 (.pairYield c) 0 [] fun t =>
        t.pair.st = .isolated)) ∧
    (p = [] → s.pair.st = .isolated →
      (s.pair.roleIn = false → did 0x0F04 (.pairRejoin c) 0 [] fun t => t.pair.st = .standby) ∧
      (s.pair.roleIn = true → s.pair.tetherUp = true → did 0x0F04 (.pairRejoin c) 0 [] fun t =>
        t.pair.st = .rejoining ∧ t.pair.snapping = true ∧ t.pair.attempts = 1))

/-- The era counter (R20). -/
def Obligations.EraCountsTheWrapsOfTheTimeline : Prop :=
  ∀ s, let d := stepGrains s
    (2 ^ 64 ≤ s.clk.timeline.toNat + d → Does .timelineWrap s fun t =>
      t.clk = { s.clk with timeline := s.clk.timeline + BitVec.ofNat 64 d, era := s.clk.era + 1 } ∧
      (s.clk.era = 0xFFFF → t.clk.era = 0) ∧ t = { s with clk := t.clk }) ∧
    (s.clk.timeline.toNat + d < 2 ^ 64 → exec .timelineWrap s = .next s)

/-- Comparison of timeline values (R22). -/
def Obligations.TimelineValuesCompareAsSignedDifferences : Prop :=
  ∀ a b : BitVec 64, tlDiff a b = (b - a).toInt ∧
    (tlAfter a b = true ↔ 0 < (b - a).toInt) ∧
    ∀ d : Nat, 0 < d → d < 2 ^ 63 →
      tlAfter a (a + BitVec.ofNat 64 d) = true ∧ tlAfter (a + BitVec.ofNat 64 d) a = false

/-- ALERT_N (R540). -/
def Obligations.AlertFollowsTheEnabledInterrupts : Prop :=
  ∀ s : State, alertLow s = true ↔
    s.win.intCfg.getLsbD 0 = true ∧
    (∃ b, s.win.intStat.getLsbD b = true ∧ s.win.intEn.getLsbD b = true) ∧ s.pins.inReset = false

/-- RESTART in REEVE_CTRL (R525). -/
def Obligations.OnlyAFaultedReeveIsRestarted : Prop :=
  ∀ s : State, s.pins.inReset = false → s.pwr.st ≠ .deepFallow →
    (s.reeve.lockstepErr = true ∨ s.reeve.wdog = true →
      (Does .reeveRestart s fun t => t = sysReset s ∧ t.reeve.lockstepErr = false ∧
        t.reeve.wdog = false ∧ t.reeve.halted = false ∧ t.i3c.dynAddr = s.i3c.dynAddr ∧
        t.clk.timeline = s.clk.timeline ∧ t.clk.era = s.clk.era ∧
        t.sec.unlockFail = s.sec.unlockFail) ∧
      (s.i3c.hdr = false → Does (.registerWrite 0x53 1) s fun t =>
        t = modI3c (fun i => { i with winAddr := 0x54 }) (sysReset s))) ∧
    (s.reeve.lockstepErr = false → s.reeve.wdog = false →
      (Does .reeveRestart s fun t => t = s) ∧
      (s.i3c.hdr = false → Does (.registerWrite 0x53 1) s fun t =>
        t = modI3c (fun i => { i with winAddr := 0x54 }) s))

/-- SUP_SET_THRESHOLDS (R170). -/
def Obligations.ThresholdsBelowTheirClearAreRefused : Prop :=
  ∀ (c : Cmd) (s : State), Accepted 0x0504 c s → ∀ sc gs,
    Carries [0x00] (fun _ => thresholdSettings) c s sc gs →
    scopeKind sc = 0 ∧
    let crossed := given s gs sSdSet sc < given s gs sSdClr sc ∨
      given s gs sSfSet sc < given s gs sSfClr sc
    (crossed → Declines (.supSetThresholds c) 0x0504 c 4 s) ∧
    (¬ crossed → Does (.supSetThresholds c) s fun t => Replied 0x0504 c 0 [] t ∧ InForce gs sc t)

/-- What PTP_CONFIGURE_PORT refuses (R259). -/
def Obligations.PreciseTimeSettingsMustFitTheProfile : Prop :=
  ∀ (c : Cmd) (s : State), Accepted 0x0801 c s →
    (∀ sc gs, Carries [0x06] (fun _ => settings901) c s sc gs →
      let t := putGiven sc gs s
      let p := scopeIndex sc
      let prof := ptpProfile t p
      let foreign (b : Bool) : Prop := ptpDomain t p b < 24 ∨ 43 < ptpDomain t p b
      (prof = 2 ∧ (portIp t p).length ≠ 4) ∨ (prof = 3 ∧ (portIp t p).length ≠ 16) ∨
        (prof ≠ 0 ∨ 0 ≤ setting t sDnA sc ∧ 0 ≤ setting t sDnB sc) ∧
          ptpDomain t p false = ptpDomain t p true ∨
        (prof = 1 ∧ (foreign false ∨ foreign true)) →
      Declines (.ptpConfigurePort c) 0x0801 c 4 s) ∧
    ∀ sc is, 4 ≤ c.payload.length → scopeOf s [0x06] c.payload = some sc →
      parseItems c.payload.length (c.payload.drop 4) = some is →
      (∃ i ∈ is, i.row = sDnA.row ∧ (i.pos = sDnA.pos ∨ i.pos = sDnB.pos) ∧ 127 < beNat i.val) →
      Declines (.ptpConfigurePort c) 0x0801 c 4 s
end

