-- ==== Sys2Proof/Laws/Tab.lean ====
section
/-! SUPPORT. Laws of the sparse table: a read after a write, and the canonical form kept by every
operation on it. -/
namespace Sys2Proof.Machine

variable {α : Type}

theorem tabGet_nil (d : α) (k : Nat) : tabGet d [] k = d := rfl

theorem tabGet_erase (d : α) (t : Tab α) (j k : Nat) :
    tabGet d (tabErase t k) j = if j = k then d else tabGet d t j := by
  induction t with
  | nil => simp [tabErase, tabGet]
  | cons p t ih =>
    obtain ⟨i, w⟩ := p
    by_cases h : i = k
    · subst h
      by_cases h2 : j = i
      · subst h2; simp [tabErase, ih]
      · simp [tabErase, tabGet, ih, h2, Ne.symm h2]
    · by_cases h2 : i = j
      · subst h2; simp [tabErase, tabGet, h]
      · simp [tabErase, tabGet, h, h2, ih]

theorem not_mem_erase (t : Tab α) (k : Nat) : k ∉ (tabErase t k).map Prod.fst := by
  induction t with
  | nil => simp [tabErase]
  | cons p t ih =>
    obtain ⟨i, w⟩ := p
    by_cases h : i = k
    · simpa [tabErase, h] using ih
    · simpa [tabErase, h, Ne.symm h] using ih

theorem tabGet_insert (d : α) (u : Tab α) (j k : Nat) (v : α) (hk : k ∉ u.map Prod.fst) :
    tabGet d (tabInsert k v u) j = if j = k then v else tabGet d u j := by
  induction u with
  | nil =>
    by_cases h : j = k
    · simp [tabInsert, tabGet, h]
    · simp [tabInsert, tabGet, h, Ne.symm h]
  | cons p u ih =>
    obtain ⟨i, w⟩ := p
    simp only [List.map_cons, List.mem_cons, not_or] at hk
    by_cases hlt : k < i
    · by_cases h : j = k
      · simp [tabInsert, tabGet, hlt, h]
      · simp [tabInsert, tabGet, hlt, h, Ne.symm h]
    · by_cases h2 : i = j
      · subst h2; simp [tabInsert, tabGet, hlt, Ne.symm hk.1]
      · simp [tabInsert, tabGet, hlt, h2, ih hk.2]

/-- What a key reads as after a write: the value written at its key, and every other key as
before. -/
theorem tabGet_set [DecidableEq α] (d : α) (t : Tab α) (j k : Nat) (v : α) :
    tabGet d (tabSet d t k v) j = if j = k then v else tabGet d t j := by
  by_cases h : v = d
  · subst h; simp [tabSet, tabGet_erase]
  · rw [tabSet, if_neg h, tabGet_insert _ _ _ _ _ (not_mem_erase t k), tabGet_erase]
    split <;> simp_all

theorem tabGet_mod [DecidableEq α] (d : α) (t : Tab α) (j k : Nat) (f : α → α) :
    tabGet d (tabMod d t k f) j = if j = k then f (tabGet d t k) else tabGet d t j := by
  rw [tabMod, tabGet_set]

/-- What a key reads as after a list is written from `k` on. -/
theorem tabGet_put [DecidableEq α] (d : α) (vs : List α) (t : Tab α) (j k : Nat) :
    tabGet d (tabPut d t k vs) j =
      if k ≤ j ∧ j < k + vs.length then vs.getD (j - k) d else tabGet d t j := by
  induction vs generalizing t k with
  | nil => simp [tabPut] <;> omega
  | cons v vs ih =>
    rw [tabPut, ih, tabGet_set]
    by_cases h : j = k
    · subst h
      rw [if_neg (by omega), if_pos rfl, if_pos (by simp), Nat.sub_self, List.getD_cons_zero]
    · by_cases h2 : k + 1 ≤ j ∧ j < k + 1 + vs.length
      · have h3 : k ≤ j ∧ j < k + (v :: vs).length := by simp; omega
        have h4 : j - k = (j - (k + 1)) + 1 := by omega
        rw [if_pos h2, if_pos h3, h4, List.getD_cons_succ]
      · have h3 : ¬(k ≤ j ∧ j < k + (v :: vs).length) := by simp at *; omega
        rw [if_neg h2, if_neg h3, if_neg h]

theorem tabRange_length (d : α) (t : Tab α) (k n : Nat) : (tabRange d t k n).length = n := by
  induction n generalizing k with
  | zero => rfl
  | succ n ih => simp [tabRange, ih]

section Wf
variable [DecidableEq α] {d : α}

theorem tabWfFrom_mono {t : Tab α} {a b : Nat} (hab : a ≤ b) (h : tabWfFrom d (some b) t = true) :
    tabWfFrom d (some a) t = true := by
  cases t with
  | nil => rfl
  | cons p t =>
    obtain ⟨i, w⟩ := p
    simp only [tabWfFrom, Bool.and_eq_true, decide_eq_true_eq] at *
    exact ⟨⟨by omega, h.1.2⟩, h.2⟩

theorem tabWfFrom_none {t : Tab α} {a : Nat} (h : tabWfFrom d (some a) t = true) :
    tabWfFrom d none t = true := by
  cases t with
  | nil => rfl
  | cons p t =>
    obtain ⟨i, w⟩ := p
    simp only [tabWfFrom, Bool.and_eq_true, decide_eq_true_eq, Bool.true_and] at *
    exact ⟨h.1.2, h.2⟩

theorem tabWfFrom_weaken {t : Tab α} {lo : Option Nat} {b : Nat}
    (hlo : ∀ l, lo = some l → l < b) (h : tabWfFrom d (some b) t = true) :
    tabWfFrom d lo t = true := by
  cases lo with
  | none => exact tabWfFrom_none h
  | some l => exact tabWfFrom_mono (Nat.le_of_lt (hlo l rfl)) h

theorem tabWfFrom_cons {lo : Option Nat} {i : Nat} {w : α} {t : Tab α} :
    tabWfFrom d lo ((i, w) :: t) = true ↔
      (∀ l, lo = some l → l < i) ∧ w ≠ d ∧ tabWfFrom d (some i) t = true := by
  cases lo <;> simp [tabWfFrom, and_assoc]

theorem tabWfFrom_filter {t : Tab α} {lo : Option Nat} (p : Nat × α → Bool)
    (h : tabWfFrom d lo t = true) : tabWfFrom d lo (t.filter p) = true := by
  induction t generalizing lo with
  | nil => rfl
  | cons e t ih =>
    obtain ⟨i, w⟩ := e
    obtain ⟨h1, h2, h3⟩ := tabWfFrom_cons.1 h
    by_cases hp : p (i, w) = true
    · rw [List.filter_cons_of_pos hp]
      exact tabWfFrom_cons.2 ⟨h1, h2, ih h3⟩
    · rw [List.filter_cons_of_neg hp]
      exact ih (tabWfFrom_weaken h1 h3)

theorem tabWfFrom_erase {t : Tab α} {lo : Option Nat} (k : Nat) (h : tabWfFrom d lo t = true) :
    tabWfFrom d lo (tabErase t k) = true := by
  induction t generalizing lo with
  | nil => rfl
  | cons e t ih =>
    obtain ⟨i, w⟩ := e
    obtain ⟨h1, h2, h3⟩ := tabWfFrom_cons.1 h
    by_cases hk : i = k
    · simp only [tabErase, hk, if_true]
      exact ih (tabWfFrom_weaken (hk ▸ h1) (hk ▸ h3))
    · simp only [tabErase, hk, if_false]
      exact tabWfFrom_cons.2 ⟨h1, h2, ih h3⟩

theorem tabWfFrom_insert {t : Tab α} {lo : Option Nat} {k : Nat} {v : α}
    (hlo : ∀ l, lo = some l → l < k) (hv : v ≠ d) (hk : k ∉ t.map Prod.fst)
    (h : tabWfFrom d lo t = true) : tabWfFrom d lo (tabInsert k v t) = true := by
  induction t generalizing lo with
  | nil => exact tabWfFrom_cons.2 ⟨hlo, hv, rfl⟩
  | cons e t ih =>
    obtain ⟨i, w⟩ := e
    obtain ⟨h1, h2, h3⟩ := tabWfFrom_cons.1 h
    simp only [List.map_cons, List.mem_cons, not_or] at hk
    by_cases hlt : k < i
    · simp only [tabInsert, hlt, if_true]
      exact tabWfFrom_cons.2 ⟨hlo, hv, tabWfFrom_cons.2 ⟨fun l hl => by simp_all, h2, h3⟩⟩
    · simp only [tabInsert, hlt, if_false]
      exact tabWfFrom_cons.2 ⟨h1, h2, ih (fun l hl => by simp at hl; omega) hk.2 h3⟩

/-- A write keeps the canonical form. -/
theorem tabWf_set {t : Tab α} (k : Nat) (v : α) (h : tabWf d t = true) :
    tabWf d (tabSet d t k v) = true := by
  unfold tabWf tabSet at *
  split
  · exact tabWfFrom_erase k h
  · exact tabWfFrom_insert (fun _ hl => by simp at hl) ‹_› (not_mem_erase t k)
      (tabWfFrom_erase k h)

theorem tabWf_mod {t : Tab α} (k : Nat) (f : α → α) (h : tabWf d t = true) :
    tabWf d (tabMod d t k f) = true := tabWf_set k _ h

theorem tabWf_put {t : Tab α} (vs : List α) (k : Nat) (h : tabWf d t = true) :
    tabWf d (tabPut d t k vs) = true := by
  induction vs generalizing t k with
  | nil => exact h
  | cons v vs ih => exact ih (k + 1) (tabWf_set k v h)

theorem tabWf_erase {t : Tab α} (k : Nat) (h : tabWf d t = true) : tabWf d (tabErase t k) = true :=
  tabWfFrom_erase k h

theorem tabWf_filter {t : Tab α} (p : Nat × α → Bool) (h : tabWf d t = true) :
    tabWf d (t.filter p) = true := tabWfFrom_filter p h

theorem tabWf_nil : tabWf d ([] : Tab α) = true := rfl

/-- Canonical tables that read alike are equal. -/
theorem tabWf_ext {t u : Tab α} (ht : tabWf d t = true) (hu : tabWf d u = true)
    (h : ∀ k, tabGet d t k = tabGet d u k) : t = u := by
  suffices hs : ∀ (t u : Tab α) (lo : Option Nat), tabWfFrom d lo t = true →
      tabWfFrom d lo u = true → (∀ k, tabGet d t k = tabGet d u k) → t = u from hs t u none ht hu h
  have low : ∀ (u : Tab α) (b k : Nat), tabWfFrom d (some b) u = true → k ≤ b → tabGet d u k = d := by
    intro u
    induction u with
    | nil => intros; rfl
    | cons e u ih =>
      intro b k hw hk
      obtain ⟨i, w⟩ := e
      obtain ⟨h1, _, h3⟩ := tabWfFrom_cons.1 hw
      have := h1 b rfl
      have hne : i ≠ k := by omega
      simp [tabGet, hne, ih i k h3 (by omega)]
  intro t
  induction t with
  | nil =>
    intro u lo _ hu h
    cases u with
    | nil => rfl
    | cons e u =>
      obtain ⟨i, w⟩ := e
      obtain ⟨_, h2, _⟩ := tabWfFrom_cons.1 hu
      have := h i
      simp [tabGet] at this
      exact absurd this.symm h2
  | cons e t ih =>
    intro u lo ht hu h
    obtain ⟨i, w⟩ := e
    obtain ⟨_, h2, h3⟩ := tabWfFrom_cons.1 ht
    cases u with
    | nil =>
      have := h i
      simp [tabGet] at this
      exact absurd this h2
    | cons e' u =>
      obtain ⟨j, x⟩ := e'
      obtain ⟨_, h2', h3'⟩ := tabWfFrom_cons.1 hu
      have hij : i = j := by
        rcases Nat.lt_trichotomy i j with hlt | he | hlt
        · have := h i
          simp [tabGet, Nat.ne_of_gt hlt, low u j i h3' (by omega)] at this
          exact absurd this h2
        · exact he
        · have := h j
          simp [tabGet, Nat.ne_of_gt hlt, low t i j h3 (by omega)] at this
          exact absurd this.symm h2'
      subst hij
      have hwx : w = x := by simpa [tabGet] using h i
      subst hwx
      have htu : t = u := by
        refine ih u (some i) h3 h3' (fun k => ?_)
        by_cases hk : i = k
        · subst hk; rw [low t i i h3 (Nat.le_refl _), low u i i h3' (Nat.le_refl _)]
        · simpa [tabGet, hk] using h k
      rw [htu]

end Wf

end Sys2Proof.Machine
end

