-- ==== Sys2Proof/Laws/Kept.lean ====
section
/-! SUPPORT. What every operation keeps, said once for each of them: the queue of commands and the
timeline as they are, soundness, burned fuses, low enables, and no key that was not there. -/
namespace Sys2Proof.Machine

/-- `b` comes from `a` by operations that leave the queue and the timeline, keep soundness, burn
fuses only, raise no enable and load no key. -/
def Kept (a b : State) : Prop :=
  b.pending = a.pending ∧ b.clk.timeline = a.clk.timeline ∧ (Sound a → Sound b) ∧
  FusesKept a.fuses b.fuses ∧ NoEnableRises a b ∧ NoKeyLoaded a b

/-- The parts of a state that `Kept` reads. -/
def keptView (s : State) :=
  ((s.pending, s.clk.timeline, s.fuses, s.us.lane, s.cry.slots),
   (s.settings, s.counters, s.tine.scratch, s.tine.sram, s.win.inbound, s.flash.a, s.flash.b),
   (s.reeve.events, s.reeve.mgmt0, s.reeve.mgmt1, s.tine.trapQ, s.tine.faultLog,
    s.time.captures, s.pwr.chips),
   (s.sup.closed15, s.sup.closedDay, s.life.checkpoints, s.life.dayBins, s.life.gaps,
    s.life.marks))

variable {s₀ s t : State} {α : Type}

theorem Kept.refl (s : State) : Kept s s :=
  ⟨rfl, rfl, id, ⟨BitVec.and_self, BitVec.and_self, BitVec.and_self, BitVec.and_self,
    BitVec.and_self, BitVec.and_self, BitVec.and_self⟩, fun _ h => h, fun _ => .inl rfl⟩

/-- An operation that leaves every part that `Kept` reads. -/
theorem Kept.same (h : Kept s₀ s) (e : keptView t = keptView s) : Kept s₀ t := by
  simp only [keptView, Prod.mk.injEq] at e
  obtain ⟨⟨e1, e2, e3, e4, e5⟩, ⟨e6, e7, e8, e9, e10, e11, e12⟩,
    ⟨e13, e14, e15, e16, e17, e18, e19⟩, e20, e21, e22, e23, e24, e25⟩ := e
  simpa only [Kept, Sound, storesWf, queuesBounded, ringsBounded, NoEnableRises, NoKeyLoaded,
    usLaneOf, slotOf, e1, e2, e3, e4, e5, e6, e7, e8, e9, e10, e11, e12, e13, e14, e15, e16, e17,
    e18, e19, e20, e21, e22, e23, e24, e25] using h

theorem Kept.trans {b c : State} (h : Kept s₀ b) (k : Kept b c) : Kept s₀ c := by
  obtain ⟨h1, h2, h3, ⟨f1, f2, f3, f4, f5, f6, f7⟩, h5, h6⟩ := h
  obtain ⟨k1, k2, k3, ⟨g1, g2, g3, g4, g5, g6, g7⟩, k5, k6⟩ := k
  have tr {w : Nat} {x y z : BitVec w} (p : x &&& y = x) (q : y &&& z = y) : x &&& z = x := by
    rw [← p, BitVec.and_assoc, q]
  exact ⟨k1.trans h1, k2.trans h2, k3 ∘ h3,
    ⟨tr f1 g1, tr f2 g2, tr f3 g3, tr f4 g4, tr f5 g5, tr f6 g6, tr f7 g7⟩,
    fun x e => h5 x (k5 x e), fun x => by rcases k6 x with e | e
                                          · rw [e]; exact h6 x
                                          · exact .inr e⟩

theorem kept_ite {c : Prop} [Decidable c] (hs : Kept s₀ s) (ht : Kept s₀ t) :
    Kept s₀ (if c then s else t) := by split <;> assumption

theorem kept_snd {p : α × State} {x : α} (e : p = (x, s)) (h : Kept s₀ p.2) : Kept s₀ s := by
  rw [e] at h; exact h

theorem kept_ite2 {c : Prop} [Decidable c] {p q : α × State} (hp : Kept s₀ p.2)
    (hq : Kept s₀ q.2) : Kept s₀ (if c then p else q).2 := by split <;> assumption

theorem kept_foldl {β : Type} {f : β × State → α → β × State} {l : List α} {p : β × State}
    (hf : ∀ p x, Kept s₀ p.2 → Kept s₀ (f p x).2) (h : Kept s₀ p.2) :
    Kept s₀ (l.foldl f p).2 := by
  induction l generalizing p with
  | nil => exact h
  | cons x l ih => exact ih (hf p x h)

theorem kept_fold {f : State → α → State} {l : List α}
    (hf : ∀ s x, Kept s₀ s → Kept s₀ (f s x)) (h : Kept s₀ s) : Kept s₀ (l.foldl f s) := by
  induction l generalizing s with
  | nil => exact h
  | cons x l ih => exact ih (hf s x h)

/-! Updates of one field. -/

theorem kept_lanes {x : Tab Lane} (h : Kept s₀ s) : Kept s₀ { s with lanes := x } := h.same rfl
theorem kept_groups {x : Tab Group} (h : Kept s₀ s) : Kept s₀ { s with groups := x } := h.same rfl
theorem kept_lots {x : Tab LotEntry} (h : Kept s₀ s) : Kept s₀ { s with lots := x } := h.same rfl
theorem kept_reasm {x : Tab Reasm} (h : Kept s₀ s) : Kept s₀ { s with reasm := x } := h.same rfl
theorem kept_toTime {x : List Delivered} (h : Kept s₀ s) : Kept s₀ { s with toTime := x } :=
  h.same rfl
theorem kept_toReeve {x : List Delivered} (h : Kept s₀ s) : Kept s₀ { s with toReeve := x } :=
  h.same rfl
theorem kept_inQ {x : List InPkt} (h : Kept s₀ s) : Kept s₀ { s with inQ := x } := h.same rfl
theorem kept_act {x : Act} (h : Kept s₀ s) : Kept s₀ { s with act := x } := h.same rfl
theorem kept_qos {x : Qos} (h : Kept s₀ s) : Kept s₀ { s with qos := x } := h.same rfl
theorem kept_cls {x : Cls} (h : Kept s₀ s) : Kept s₀ { s with cls := x } := h.same rfl
theorem kept_ports {x : Tab Port} (h : Kept s₀ s) : Kept s₀ { s with ports := x } := h.same rfl
theorem kept_slanes {x : Tab SLane} (h : Kept s₀ s) : Kept s₀ { s with slanes := x } := h.same rfl
theorem kept_pair {x : Pair} (h : Kept s₀ s) : Kept s₀ { s with pair := x } := h.same rfl
theorem kept_sec {x : Sec} (h : Kept s₀ s) : Kept s₀ { s with sec := x } := h.same rfl
theorem kept_pins {x : Pins} (h : Kept s₀ s) : Kept s₀ { s with pins := x } := h.same rfl
theorem kept_i3c {x : I3c} (h : Kept s₀ s) : Kept s₀ { s with i3c := x } := h.same rfl
theorem kept_freeCtr {x : Nat} (h : Kept s₀ s) : Kept s₀ { s with freeCtr := x } := h.same rfl

theorem kept_clk {x : Clk} (h : Kept s₀ s) (e : x.timeline = s.clk.timeline) :
    Kept s₀ { s with clk := x } := by
  refine h.same ?_
  simp only [keptView, e]
theorem kept_us {x : UpS} (h : Kept s₀ s) (e : x.lane = s.us.lane) :
    Kept s₀ { s with us := x } := by
  refine h.same ?_
  simp only [keptView, e]
theorem kept_time {x : TimeBlk} (h : Kept s₀ s) (e : x.captures = s.time.captures) :
    Kept s₀ { s with time := x } := by
  refine h.same ?_
  simp only [keptView, e]
theorem kept_cry {x : Cry} (h : Kept s₀ s) (e : x.slots = s.cry.slots) :
    Kept s₀ { s with cry := x } := by
  refine h.same ?_
  simp only [keptView, e]
theorem kept_tine {x : Tine} (h : Kept s₀ s)
    (e : x.scratch = s.tine.scratch ∧ x.sram = s.tine.sram ∧ x.trapQ = s.tine.trapQ ∧
      x.faultLog = s.tine.faultLog) : Kept s₀ { s with tine := x } := by
  refine h.same ?_
  simp only [keptView, e.1, e.2.1, e.2.2.1, e.2.2.2]
theorem kept_pwr {x : Pwr} (h : Kept s₀ s) (e : x.chips = s.pwr.chips) :
    Kept s₀ { s with pwr := x } := by
  refine h.same ?_
  simp only [keptView, e]
theorem kept_flash {x : Flash} (h : Kept s₀ s) (e : x.a = s.flash.a ∧ x.b = s.flash.b) :
    Kept s₀ { s with flash := x } := by
  refine h.same ?_
  simp only [keptView, e.1, e.2]
theorem kept_life {x : Life} (h : Kept s₀ s)
    (e : x.checkpoints = s.life.checkpoints ∧ x.dayBins = s.life.dayBins ∧
      x.gaps = s.life.gaps ∧ x.marks = s.life.marks) : Kept s₀ { s with life := x } := by
  refine h.same ?_
  simp only [keptView, e.1, e.2.1, e.2.2.1, e.2.2.2]
theorem kept_win {x : Win} (h : Kept s₀ s) (e : x.inbound = s.win.inbound) :
    Kept s₀ { s with win := x } := by
  refine h.same ?_
  simp only [keptView, e]
theorem kept_reeve {x : Reeve} (h : Kept s₀ s)
    (e : x.events = s.reeve.events ∧ x.mgmt0 = s.reeve.mgmt0 ∧ x.mgmt1 = s.reeve.mgmt1) :
    Kept s₀ { s with reeve := x } := by
  refine h.same ?_
  simp only [keptView, e.1, e.2.1, e.2.2]
theorem kept_sup {x : Sup} (h : Kept s₀ s)
    (e : x.closed15 = s.sup.closed15 ∧ x.closedDay = s.sup.closedDay) :
    Kept s₀ { s with sup := x } := by
  refine h.same ?_
  simp only [keptView, e.1, e.2]

/-- A change of the stores, queues and rings that keeps them sound. -/
theorem kept_sound (h : Kept s₀ s) (e1 : t.pending = s.pending)
    (e2 : t.clk.timeline = s.clk.timeline) (e3 : t.fuses = s.fuses) (e4 : t.us.lane = s.us.lane)
    (e5 : t.cry.slots = s.cry.slots) (k : Sound s → Sound t) : Kept s₀ t := by
  obtain ⟨h1, h2, h3, h4, h5, h6⟩ := h
  refine ⟨e1.trans h1, e2.trans h2, fun x => k (h3 x), e3 ▸ h4, fun x hx => h5 x ?_, fun x => ?_⟩
  · simpa only [usLaneOf, e4] using hx
  · simpa only [slotOf, e5] using h6 x

theorem sound_iff : Sound s ↔
    (tabWf none s.settings = true ∧ tabWf ({} : Ctr) s.counters = true ∧
      tabWf 0 s.tine.scratch = true ∧ tabWf 0 s.tine.sram = true ∧ tabWf 0 s.win.inbound = true ∧
      tabWf 0xFF s.flash.a = true ∧ tabWf 0xFF s.flash.b = true) ∧
    (s.reeve.events.length ≤ 64 ∧ s.reeve.mgmt0.length ≤ 16 ∧ s.reeve.mgmt1.length ≤ 16 ∧
      s.tine.trapQ.length ≤ 256 ∧ s.tine.faultLog.length ≤ 64 ∧ s.time.captures.length ≤ 16 ∧
      s.pwr.chips.length ≤ 160) ∧
    (s.sup.closed15.length ≤ 96 ∧ s.sup.closedDay.length ≤ 31 ∧ s.life.checkpoints.length ≤ 64 ∧
      s.life.dayBins.length ≤ 32 ∧ s.life.gaps.length ≤ 1024 ∧ s.life.marks.length ≤ 256) := by
  simp only [Sound, storesWf, queuesBounded, ringsBounded, Bool.and_eq_true, decide_eq_true_eq,
    and_assoc]

/-! Changes of a part that is bounded or canonical, within its bound or form. -/

theorem keep_sup {x : Sup} (h : Kept s₀ s)
    (e : s.sup.closed15.length ≤ 96 ∧ s.sup.closedDay.length ≤ 31 →
      x.closed15.length ≤ 96 ∧ x.closedDay.length ≤ 31) : Kept s₀ { s with sup := x } := by
  refine kept_sound h rfl rfl rfl rfl rfl fun k => ?_
  rw [sound_iff] at k ⊢
  have e' := e ⟨k.2.2.1, k.2.2.2.1⟩
  exact ⟨k.1, k.2.1, e'.1, e'.2, k.2.2.2.2⟩

theorem keep_life {x : Life} (h : Kept s₀ s)
    (e : s.life.checkpoints.length ≤ 64 ∧ s.life.dayBins.length ≤ 32 ∧ s.life.gaps.length ≤ 1024 ∧
      s.life.marks.length ≤ 256 → x.checkpoints.length ≤ 64 ∧ x.dayBins.length ≤ 32 ∧
      x.gaps.length ≤ 1024 ∧ x.marks.length ≤ 256) : Kept s₀ { s with life := x } := by
  refine kept_sound h rfl rfl rfl rfl rfl fun k => ?_
  rw [sound_iff] at k ⊢
  exact ⟨k.1, k.2.1, k.2.2.1, k.2.2.2.1, e k.2.2.2.2⟩

theorem keep_reeve {x : Reeve} (h : Kept s₀ s)
    (e : s.reeve.events.length ≤ 64 ∧ s.reeve.mgmt0.length ≤ 16 ∧ s.reeve.mgmt1.length ≤ 16 →
      x.events.length ≤ 64 ∧ x.mgmt0.length ≤ 16 ∧ x.mgmt1.length ≤ 16) :
    Kept s₀ { s with reeve := x } := by
  refine kept_sound h rfl rfl rfl rfl rfl fun k => ?_
  rw [sound_iff] at k ⊢
  have e' := e ⟨k.2.1.1, k.2.1.2.1, k.2.1.2.2.1⟩
  exact ⟨k.1, ⟨e'.1, e'.2.1, e'.2.2, k.2.1.2.2.2⟩, k.2.2⟩

theorem keep_tine {x : Tine} (h : Kept s₀ s)
    (e : (tabWf 0 s.tine.scratch = true ∧ tabWf 0 s.tine.sram = true) →
      tabWf 0 x.scratch = true ∧ tabWf 0 x.sram = true)
    (e' : s.tine.trapQ.length ≤ 256 ∧ s.tine.faultLog.length ≤ 64 →
      x.trapQ.length ≤ 256 ∧ x.faultLog.length ≤ 64) : Kept s₀ { s with tine := x } := by
  refine kept_sound h rfl rfl rfl rfl rfl fun k => ?_
  rw [sound_iff] at k ⊢
  have e1 := e ⟨k.1.2.2.1, k.1.2.2.2.1⟩
  have e2 := e' ⟨k.2.1.2.2.2.1, k.2.1.2.2.2.2.1⟩
  exact ⟨⟨k.1.1, k.1.2.1, e1.1, e1.2, k.1.2.2.2.2⟩,
    ⟨k.2.1.1, k.2.1.2.1, k.2.1.2.2.1, e2.1, e2.2, k.2.1.2.2.2.2.2⟩, k.2.2⟩

theorem keep_pwr {x : Pwr} (h : Kept s₀ s) (e : s.pwr.chips.length ≤ 160 → x.chips.length ≤ 160) :
    Kept s₀ { s with pwr := x } := by
  refine kept_sound h rfl rfl rfl rfl rfl fun k => ?_
  rw [sound_iff] at k ⊢
  exact ⟨k.1, ⟨k.2.1.1, k.2.1.2.1, k.2.1.2.2.1, k.2.1.2.2.2.1, k.2.1.2.2.2.2.1, k.2.1.2.2.2.2.2.1,
    e k.2.1.2.2.2.2.2.2⟩, k.2.2⟩

theorem keep_time {x : TimeBlk} (h : Kept s₀ s)
    (e : s.time.captures.length ≤ 16 → x.captures.length ≤ 16) : Kept s₀ { s with time := x } := by
  refine kept_sound h rfl rfl rfl rfl rfl fun k => ?_
  rw [sound_iff] at k ⊢
  exact ⟨k.1, ⟨k.2.1.1, k.2.1.2.1, k.2.1.2.2.1, k.2.1.2.2.2.1, k.2.1.2.2.2.2.1,
    e k.2.1.2.2.2.2.2.1, k.2.1.2.2.2.2.2.2⟩, k.2.2⟩

theorem keep_win {x : Win} (h : Kept s₀ s)
    (e : tabWf 0 s.win.inbound = true → tabWf 0 x.inbound = true) :
    Kept s₀ { s with win := x } := by
  refine kept_sound h rfl rfl rfl rfl rfl fun k => ?_
  rw [sound_iff] at k ⊢
  exact ⟨⟨k.1.1, k.1.2.1, k.1.2.2.1, k.1.2.2.2.1, e k.1.2.2.2.2.1, k.1.2.2.2.2.2⟩, k.2⟩

theorem keep_flash {x : Flash} (h : Kept s₀ s)
    (e : tabWf 0xFF s.flash.a = true ∧ tabWf 0xFF s.flash.b = true →
      tabWf 0xFF x.a = true ∧ tabWf 0xFF x.b = true) : Kept s₀ { s with flash := x } := by
  refine kept_sound h rfl rfl rfl rfl rfl fun k => ?_
  rw [sound_iff] at k ⊢
  exact ⟨⟨k.1.1, k.1.2.1, k.1.2.2.1, k.1.2.2.2.1, k.1.2.2.2.2.1, e k.1.2.2.2.2.2⟩, k.2⟩

theorem keep_settings {x : Tab (Option Int)} (h : Kept s₀ s)
    (e : tabWf none s.settings = true → tabWf none x = true) :
    Kept s₀ { s with settings := x } := by
  refine kept_sound h rfl rfl rfl rfl rfl fun k => ?_
  rw [sound_iff] at k ⊢
  exact ⟨⟨e k.1.1, k.1.2⟩, k.2⟩

theorem keep_counters {x : Tab Ctr} (h : Kept s₀ s)
    (e : tabWf ({} : Ctr) s.counters = true → tabWf ({} : Ctr) x = true) :
    Kept s₀ { s with counters := x } := by
  refine kept_sound h rfl rfl rfl rfl rfl fun k => ?_
  rw [sound_iff] at k ⊢
  exact ⟨⟨k.1.1, e k.1.2.1, k.1.2.2⟩, k.2⟩

/-- An upstream block whose enables are low wherever they were. -/
theorem keep_us {x : UpS} (h : Kept s₀ s)
    (e : ∀ l, (tabGet {} x.lane l).ben = true → (usLaneOf s l).ben = true) :
    Kept s₀ { s with us := x } :=
  h.trans ⟨rfl, rfl, id, (Kept.refl s).2.2.2.1, e, fun _ => .inl rfl⟩

/-- Fuses that gain bits. -/
theorem keep_fuses {x : Fuses} (h : Kept s₀ s) (e : FusesKept s.fuses x) :
    Kept s₀ { s with fuses := x } :=
  h.trans ⟨rfl, rfl, id, e, fun _ h => h, fun _ => .inl rfl⟩

/-! Operations of `Ops`. -/

theorem kept_modLane {l : Nat} {f : Lane → Lane} (h : Kept s₀ s) : Kept s₀ (modLane l f s) := h.same rfl
theorem kept_modGroup {l : Nat} {f : Group → Group} (h : Kept s₀ s) : Kept s₀ (modGroup l f s) :=
  h.same rfl
theorem kept_modUsLane {l : Nat} {f : UsLane → UsLane} (h : Kept s₀ s)
    (hf : ∀ x, (f x).ben = true → x.ben = true) : Kept s₀ (modUsLane l f s) := by
  refine h.trans ⟨rfl, rfl, id, (Kept.refl s).2.2.2.1, fun x hx => ?_, fun _ => .inl rfl⟩
  simp only [usLaneOf, modUsLane, tabGet_mod] at hx ⊢
  split at hx
  · subst_vars; exact hf _ hx
  · exact hx
theorem kept_modInst {i : Nat} {f : Inst → Inst} (h : Kept s₀ s) : Kept s₀ (modInst i f s) :=
  h.same rfl
theorem kept_modSupLane {l : Nat} {f : SupLane → SupLane} (h : Kept s₀ s) :
    Kept s₀ (modSupLane l f s) := h.same rfl
theorem kept_modSupDom {l : Nat} {f : SupDom → SupDom} (h : Kept s₀ s) :
    Kept s₀ (modSupDom l f s) := h.same rfl
theorem kept_modSupInst {l : Nat} {f : SupInst → SupInst} (h : Kept s₀ s) :
    Kept s₀ (modSupInst l f s) := h.same rfl
theorem kept_modDom {d : Nat} {f : Dom → Dom} (h : Kept s₀ s) : Kept s₀ (modDom d f s) := h.same rfl
theorem kept_drawn (h : Kept s₀ s) : Kept s₀ (drawn s) := h.same rfl

theorem kept_putSetting {p : SSpec} {scope idx : Nat} {v : Int} (h : Kept s₀ s) :
    Kept s₀ (putSetting p scope idx v s) := by
  exact keep_settings h fun k => tabWf_set _ _ k

theorem kept_bumpRaw {c : CtrId} {scope n : Nat} (h : Kept s₀ s) :
    Kept s₀ (bumpRaw c scope n s) := by
  exact keep_counters h fun k => tabWf_mod _ _ k

theorem kept_requestIbi {b : BitVec 5} (h : Kept s₀ s) : Kept s₀ (requestIbi b s) := by
  unfold requestIbi; split
  · exact h.same rfl
  · exact h

theorem kept_setInt {b : BitVec 5} (h : Kept s₀ s) : Kept s₀ (setInt b s) :=
  kept_requestIbi (kept_win h rfl)

theorem kept_postEvent {e : Event} (h : Kept s₀ s) : Kept s₀ (postEvent e s) := by
  unfold postEvent pushEvent
  split
  · rename_i hl
    refine kept_setInt (kept_sound h rfl rfl rfl rfl rfl fun k => ?_)
    rw [sound_iff] at k ⊢
    refine ⟨k.1, ⟨?_, k.2.1.2⟩, k.2.2⟩
    simp only [List.length_append, List.length_singleton]
    omega
  · exact kept_bumpRaw (kept_reeve h ⟨rfl, rfl, rfl⟩)

theorem kept_raise {code : BitVec 16} {idx data : Nat} (h : Kept s₀ s) :
    Kept s₀ (raise code idx data s) := kept_postEvent h
theorem kept_raiseTag {code : BitVec 16} {idx data : Nat} {tag : BitVec 16} {m : Bool}
    (h : Kept s₀ s) : Kept s₀ (raiseTag code idx data tag m s) := kept_postEvent h

theorem kept_tcaCheck {day : Bool} {n scope : Nat} (h : Kept s₀ s) :
    Kept s₀ (tcaCheck day n scope s) := by
  unfold tcaCheck
  refine kept_ite (kept_raise (kept_sup h ?_)) h
  cases day <;> exact ⟨rfl, rfl⟩

theorem kept_binAdd {n scope k : Nat} (h : Kept s₀ s) : Kept s₀ (binAdd n scope k s) :=
  kept_tcaCheck (kept_tcaCheck (kept_sup h ⟨rfl, rfl⟩))

theorem kept_lifeTotal {c : CtrId} {scope n : Nat} (h : Kept s₀ s) :
    Kept s₀ (lifeTotal c scope n s) := by
  unfold lifeTotal
  refine kept_ite (kept_life h ⟨rfl, rfl, rfl, rfl⟩) (kept_ite (kept_life h ⟨rfl, rfl, rfl, rfl⟩) h)

theorem kept_bump {c : CtrId} {scope n : Nat} (h : Kept s₀ s) : Kept s₀ (bump c scope n s) := by
  unfold bump
  refine kept_ite h ?_
  have h1 := kept_lifeTotal (c := c) (scope := scope) (n := n) (kept_bumpRaw (c := c) (scope := scope) (n := n) h)
  dsimp only
  split
  · exact kept_binAdd (kept_ite (kept_raise h1) h1)
  · exact kept_ite (kept_raise h1) h1

theorem kept_each {f : α → State → State} {xs : List α} (hf : ∀ x s, Kept s₀ s → Kept s₀ (f x s))
    (h : Kept s₀ s) : Kept s₀ (each f xs s) := by
  induction xs generalizing s with
  | nil => exact h
  | cons x xs ih => exact ih (hf x s h)

theorem kept_onlyIf {c : Bool} {f : State → State} (hf : ∀ s, Kept s₀ s → Kept s₀ (f s))
    (h : Kept s₀ s) : Kept s₀ (onlyIf c f s) := by
  unfold onlyIf; split
  · exact hf s h
  · exact h

end Sys2Proof.Machine
end

