-- ==== Sys2Proof/Laws/KeptLink.lean ====
section
/-! SUPPORT. What each operation keeps (`Kept`): the transmit and receive line. -/
-- One list of alternatives serves every lemma below; not every lemma uses each of them.
set_option linter.unusedTactic false
set_option linter.unreachableTactic false
namespace Sys2Proof.Machine
variable {s₀ s t : State}

/-! Operations of `Supervise`. -/

theorem kept_supLookInst {i : Nat} (hk : Kept s₀ s) :
    Kept s₀ (supLookInst i s) := by
  unfold supLookInst
  repeat' first
    | with_reducible assumption | with_reducible apply kept_modSupInst

theorem kept_supLook  (hk : Kept s₀ s) :
    Kept s₀ (supLook s) := by
  unfold supLook
  repeat' first
    | with_reducible assumption | intro _ | with_reducible apply kept_each
    | with_reducible apply kept_supLookInst

theorem kept_defectEvents {l : Nat} {before after : SupLane} {chg : Nat} (hk : Kept s₀ s) :
    Kept s₀ (defectEvents l before after chg s) := by
  unfold defectEvents
  repeat' first
    | with_reducible assumption | intro _ | with_reducible apply kept_ite
    | with_reducible apply kept_each | with_reducible apply kept_raise

theorem kept_setLaneDefect {l c : Nat} {v : Bool} (hk : Kept s₀ s) :
    Kept s₀ (setLaneDefect l c v s) := by
  unfold setLaneDefect
  repeat' first
    | with_reducible assumption | with_reducible apply kept_ite
    | with_reducible apply kept_defectEvents | with_reducible apply kept_modSupLane
    | with_reducible apply kept_supLook

theorem kept_lofEntry {l : Nat} (hk : Kept s₀ s) :
    Kept s₀ (lofEntry l s) := by
  unfold lofEntry
  repeat' first
    | with_reducible assumption | with_reducible apply kept_modSupLane
    | with_reducible apply kept_setLaneDefect

theorem kept_clearLaneDefects {l : Nat} (hk : Kept s₀ s) :
    Kept s₀ (clearLaneDefects l s) := by
  unfold clearLaneDefects
  repeat' first
    | with_reducible assumption | with_reducible apply kept_modSupLane
    | with_reducible apply kept_supLook

theorem kept_sdAccount {l sym uc : Nat} (hk : Kept s₀ s) :
    Kept s₀ (sdAccount l sym uc s) := by
  unfold sdAccount
  repeat' first
    | with_reducible assumption | with_reducible apply kept_ite
    | with_reducible apply kept_modSupLane | with_reducible apply kept_setLaneDefect

theorem kept_windowEnd {l : Nat} {sc : BitVec 48} {jump : Bool} (hk : Kept s₀ s) :
    Kept s₀ (windowEnd l sc jump s) := by
  unfold windowEnd
  repeat' first
    | with_reducible assumption | with_reducible apply kept_ite
    | with_reducible apply kept_modSupLane | with_reducible apply kept_setLaneDefect

theorem kept_lockEntry {l : Nat} (hk : Kept s₀ s) :
    Kept s₀ (lockEntry l s) := by
  unfold lockEntry
  repeat' first
    | with_reducible assumption | with_reducible apply kept_modSupLane
    | with_reducible apply kept_setLaneDefect

theorem kept_plmLot {lotId : Nat} {isPlm : Bool} (hk : Kept s₀ s) :
    Kept s₀ (plmLot lotId isPlm s) := by
  unfold plmLot
  repeat' first
    | with_reducible assumption | with_reducible apply kept_ite
    | with_reducible apply kept_raise | with_reducible apply kept_supLook
    | with_reducible exact ⟨rfl, rfl⟩ | split | dsimp only | with_reducible apply kept_sup

theorem kept_plmRemove {lotId : Nat} (hk : Kept s₀ s) :
    Kept s₀ (plmRemove lotId s) := by
  unfold plmRemove
  repeat' first
    | with_reducible assumption | with_reducible apply kept_ite
    | with_reducible apply kept_raise | with_reducible apply kept_supLook
    | with_reducible exact ⟨rfl, rfl⟩ | dsimp only | with_reducible apply kept_sup

theorem kept_setDomDefect {d : Nat} {taf : Bool} {v : Bool} (hk : Kept s₀ s) :
    Kept s₀ (setDomDefect d taf v s) := by
  unfold setDomDefect
  repeat' first
    | with_reducible assumption | with_reducible apply kept_ite
    | with_reducible apply kept_modSupDom | with_reducible apply kept_raise
    | with_reducible apply kept_supLook

theorem kept_rdiEvaluate {i : Nat} (hk : Kept s₀ s) :
    Kept s₀ (rdiEvaluate i s) := by
  unfold rdiEvaluate
  repeat' first
    | with_reducible assumption | with_reducible apply kept_ite
    | with_reducible apply kept_modSupInst | with_reducible apply kept_raise

theorem kept_laneSecond {l : Nat} (hk : Kept s₀ s) :
    Kept s₀ (laneSecond l s) := by
  unfold laneSecond
  repeat' first
    | with_reducible assumption | with_reducible exact fun _ h => h
    | with_reducible exact fun _ h => Bool.noConfusion h | intro _ | with_reducible apply kept_ite
    | with_reducible apply kept_ite2 | with_reducible apply kept_binAdd
    | with_reducible apply kept_modSupLane | with_reducible exact rfl
    | refine kept_snd (by assumption) ?_ | split | dsimp only

/-! Operations of `Answer`. -/

theorem kept_stOk {p : Bytes} (hk : Kept s₀ s) :
    Kept s₀ (stOk p s).2 := by
  unfold stOk
  repeat' first
    | with_reducible assumption

theorem kept_stPending  (hk : Kept s₀ s) :
    Kept s₀ (stPending s).2 := by
  unfold stPending
  repeat' first
    | with_reducible assumption

theorem kept_refuse {status code idx : Nat} (hk : Kept s₀ s) :
    Kept s₀ (refuse status code idx s).2 := by
  unfold refuse
  repeat' first
    | with_reducible assumption

theorem kept_stBusy  (hk : Kept s₀ s) :
    Kept s₀ (stBusy s).2 := by
  unfold stBusy
  repeat' first
    | with_reducible assumption | with_reducible apply kept_refuse

theorem kept_badLength  (hk : Kept s₀ s) :
    Kept s₀ (badLength s).2 := by
  unfold badLength
  repeat' first
    | with_reducible assumption | with_reducible apply kept_refuse

theorem kept_badArg {code idx : Nat} (hk : Kept s₀ s) :
    Kept s₀ (badArg code idx s).2 := by
  unfold badArg
  repeat' first
    | with_reducible assumption | with_reducible apply kept_refuse

theorem kept_stDenied  (hk : Kept s₀ s) :
    Kept s₀ (stDenied s).2 := by
  unfold stDenied
  repeat' first
    | with_reducible assumption | with_reducible apply kept_refuse

theorem kept_notInState  (hk : Kept s₀ s) :
    Kept s₀ (notInState s).2 := by
  unfold notInState
  repeat' first
    | with_reducible assumption | with_reducible apply kept_refuse

theorem kept_noResource {code idx : Nat} (hk : Kept s₀ s) :
    Kept s₀ (noResource code idx s).2 := by
  unfold noResource
  repeat' first
    | with_reducible assumption | with_reducible apply kept_refuse

theorem kept_modWin {f : Win → Win} (h : Kept s₀ s) (e : (f s.win).inbound = s.win.inbound) :
    Kept s₀ (modWin f s) := kept_win h e

theorem kept_modReeve {f : Reeve → Reeve} (h : Kept s₀ s)
    (e : (f s.reeve).events = s.reeve.events ∧ (f s.reeve).mgmt0 = s.reeve.mgmt0 ∧
      (f s.reeve).mgmt1 = s.reeve.mgmt1) : Kept s₀ (modReeve f s) := kept_reeve h e

theorem kept_busyLook  (hk : Kept s₀ s) :
    Kept s₀ (busyLook s) := by
  unfold busyLook
  repeat' first
    | with_reducible assumption | with_reducible apply kept_modWin | with_reducible exact rfl

theorem kept_postResponses  (hk : Kept s₀ s) :
    Kept s₀ (postResponses s) := by
  unfold postResponses
  repeat' first
    | with_reducible assumption | with_reducible apply kept_ite
    | with_reducible apply kept_modReeve | with_reducible apply kept_modWin
    | with_reducible apply kept_setInt | with_reducible exact rfl
    | with_reducible exact ⟨rfl, rfl, rfl⟩ | split

theorem kept_answer {op : Nat} {c : Cmd} {r : Reply} (hk : Kept s₀ s) :
    Kept s₀ (answer op c r s) := by
  unfold answer
  repeat' first
    | with_reducible assumption | with_reducible apply kept_busyLook
    | with_reducible apply kept_modInst | with_reducible apply kept_modReeve
    | with_reducible apply kept_postResponses | with_reducible exact ⟨rfl, rfl, rfl⟩ | split

theorem kept_cryDenied {st : Nat} (hk : Kept s₀ s) :
    Kept s₀ (cryDenied st s).2 := by
  unfold cryDenied
  repeat' first
    | with_reducible assumption | with_reducible apply kept_refuse

theorem kept_sealAnswer {id : Nat} {r : Reply} (hk : Kept s₀ s) : Kept s₀ (sealAnswer id r s) := by
  unfold sealAnswer
  split
  · exact hk
  · exact kept_answer (kept_modReeve hk ⟨rfl, rfl, rfl⟩)

/-! Operations of `PwrOps`. -/

theorem kept_modPwr {f : Pwr → Pwr} (h : Kept s₀ s) (e : (f s.pwr).chips = s.pwr.chips) :
    Kept s₀ (modPwr f s) := kept_pwr h e

theorem kept_wakeEvent {code index : Nat} (hk : Kept s₀ s) :
    Kept s₀ (wakeEvent code index s) := by
  unfold wakeEvent
  repeat' first
    | with_reducible assumption | with_reducible apply kept_ite | with_reducible apply kept_bump
    | with_reducible apply kept_modPwr | with_reducible exact rfl | split

theorem kept_drainLook  (hk : Kept s₀ s) :
    Kept s₀ (drainLook s) := by
  unfold drainLook
  repeat' first
    | with_reducible assumption | with_reducible apply kept_ite
    | with_reducible apply kept_modPwr | with_reducible exact rfl

theorem kept_returnHeld {n : Nat} {l : List Nat} (h : Kept s₀ s) : Kept s₀ (returnHeld n l s) := by
  induction l generalizing n s with
  | nil => exact h
  | cons b l ih =>
    unfold returnHeld
    exact ih (kept_modPwr h rfl)

theorem kept_freeBushels {n : Nat} (hk : Kept s₀ s) :
    Kept s₀ (freeBushels n s) := by
  unfold freeBushels
  repeat' first
    | with_reducible assumption | with_reducible apply kept_ite
    | with_reducible apply kept_drawn | with_reducible apply kept_returnHeld | dsimp only
    | with_reducible apply kept_qos

theorem kept_addressed {f : State → State} (hf : ∀ s, Kept s₀ s → Kept s₀ (f s)) (h : Kept s₀ s) :
    Kept s₀ (addressed f s) := by
  unfold addressed
  exact kept_ite h (kept_ite (kept_wakeEvent h) (hf _ h))

theorem kept_broadcast {f : State → State} (hf : ∀ s, Kept s₀ s → Kept s₀ (f s)) (h : Kept s₀ s) :
    Kept s₀ (broadcast f s) := by
  unfold broadcast
  exact kept_ite h (hf _ h)

/-! Operations of `Qos`. -/

theorem kept_takeBushels {n : Nat} (hk : Kept s₀ s) :
    Kept s₀ (takeBushels n s) := by
  unfold takeBushels
  repeat' first
    | with_reducible assumption | dsimp only | with_reducible apply kept_qos

theorem kept_takeUpTo {held want : Nat} (hk : Kept s₀ s) :
    Kept s₀ (takeUpTo held want s).2 := by
  unfold takeUpTo
  repeat' first
    | with_reducible assumption | with_reducible exact fun _ h => h
    | with_reducible exact fun _ h => Bool.noConfusion h | intro _ | with_reducible apply kept_ite
    | with_reducible apply kept_ite2 | with_reducible apply kept_bump
    | with_reducible apply kept_freeBushels | with_reducible apply kept_takeBushels
    | with_reducible exact rfl | refine kept_snd (by assumption) ?_ | split | dsimp only

theorem kept_modDs {q : Nat} {f : Queue → Queue} (hk : Kept s₀ s) :
    Kept s₀ (modDs q f s) := by
  unfold modDs
  repeat' first
    | with_reducible assumption | dsimp only | with_reducible apply kept_qos

theorem kept_modUs {q : Nat} {f : Queue → Queue} (hk : Kept s₀ s) :
    Kept s₀ (modUs q f s) := by
  unfold modUs
  repeat' first
    | with_reducible assumption | dsimp only | with_reducible apply kept_qos

theorem kept_modQueue {ds : Bool} {q : Nat} {f : Queue → Queue} (hk : Kept s₀ s) :
    Kept s₀ (modQueue ds q f s) := by
  unfold modQueue
  repeat' first
    | with_reducible assumption | with_reducible apply kept_ite
    | with_reducible apply kept_modDs | with_reducible apply kept_modUs

theorem kept_modPortArb {p : Nat} {f : Arbiter → Arbiter} (hk : Kept s₀ s) :
    Kept s₀ (modPortArb p f s) := by
  unfold modPortArb
  repeat' first
    | with_reducible assumption | dsimp only | with_reducible apply kept_qos

theorem kept_modPlotArb {p : Nat} {f : Arbiter → Arbiter} (hk : Kept s₀ s) :
    Kept s₀ (modPlotArb p f s) := by
  unfold modPlotArb
  repeat' first
    | with_reducible assumption | dsimp only | with_reducible apply kept_qos

theorem kept_modGroupArb {p g : Nat} {f : Arbiter → Arbiter} (hk : Kept s₀ s) :
    Kept s₀ (modGroupArb p g f s) := by
  unfold modGroupArb
  repeat' first
    | with_reducible assumption | dsimp only | with_reducible apply kept_qos

theorem kept_putBucket {sc : Nat} {b : Bucket} (hk : Kept s₀ s) :
    Kept s₀ (putBucket sc b s) := by
  unfold putBucket
  repeat' first
    | with_reducible assumption | dsimp only | with_reducible apply kept_qos

theorem kept_putMeter {m : Nat} {x : Meter} (hk : Kept s₀ s) :
    Kept s₀ (putMeter m x s) := by
  unfold putMeter
  repeat' first
    | with_reducible assumption | dsimp only | with_reducible apply kept_qos

theorem kept_shaperCharge {sc : Nat} {c : Int} (hk : Kept s₀ s) :
    Kept s₀ (shaperCharge sc c s) := by
  unfold shaperCharge
  repeat' first
    | with_reducible assumption | with_reducible apply kept_ite
    | with_reducible apply kept_putBucket

theorem kept_meterOp {m : Nat} {colour b : Nat} (hk : Kept s₀ s) :
    Kept s₀ (meterOp m colour b s).2 := by
  unfold meterOp
  repeat' first
    | with_reducible assumption | with_reducible apply kept_ite2
    | with_reducible apply kept_bump | with_reducible apply kept_putMeter

theorem kept_queueActivate {ds : Bool} {q : Nat} (hk : Kept s₀ s) :
    Kept s₀ (queueActivate ds q s) := by
  unfold queueActivate
  repeat' first
    | with_reducible assumption | intro _ | with_reducible apply kept_ite
    | with_reducible apply kept_each | with_reducible apply kept_modGroupArb
    | with_reducible apply kept_modPlotArb | with_reducible apply kept_modPortArb

theorem kept_linkFrame {ds : Bool} {q : Nat} {f : Frame} (hk : Kept s₀ s) :
    Kept s₀ (linkFrame ds q f s) := by
  unfold linkFrame
  repeat' first
    | with_reducible assumption | with_reducible apply kept_ite | with_reducible apply kept_bump
    | with_reducible apply kept_modQueue | with_reducible apply kept_queueActivate

theorem kept_enqueue {ds : Bool} {q : Nat} {colour : Nat} {f : Frame} (hk : Kept s₀ s) :
    Kept s₀ (enqueue ds q colour f s).2 := by
  unfold enqueue
  repeat' first
    | with_reducible assumption | with_reducible apply kept_ite2
    | with_reducible apply kept_bump | with_reducible apply kept_freeBushels
    | with_reducible apply kept_linkFrame

theorem kept_flushQueue {ds : Bool} {q : Nat} (hk : Kept s₀ s) :
    Kept s₀ (flushQueue ds q s) := by
  unfold flushQueue
  repeat' first
    | with_reducible assumption | with_reducible apply kept_ite | with_reducible apply kept_bump
    | with_reducible apply kept_freeBushels | with_reducible apply kept_modQueue

theorem kept_dropHead {ds : Bool} {q : Nat} (hk : Kept s₀ s) :
    Kept s₀ (dropHead ds q s) := by
  unfold dropHead
  repeat' first
    | with_reducible assumption | with_reducible apply kept_freeBushels
    | with_reducible apply kept_modQueue | split

/-! Operations of `Links`. -/

theorem kept_modPort {p : Nat} {f : Port → Port} (hk : Kept s₀ s) :
    Kept s₀ (modPort p f s) := by
  unfold modPort
  repeat' first
    | with_reducible assumption | with_reducible apply kept_ports

theorem kept_linkFlush {p q : Nat} (hk : Kept s₀ s) :
    Kept s₀ (linkFlush p q s) := by
  unfold linkFlush
  repeat' first
    | with_reducible assumption | intro _ | with_reducible apply kept_bump
    | with_reducible apply kept_dropHead | with_reducible apply kept_each

theorem kept_portFlushLook {p : Nat} (hk : Kept s₀ s) :
    Kept s₀ (portFlushLook p s) := by
  unfold portFlushLook
  repeat' first
    | with_reducible assumption | intro _ | with_reducible apply kept_ite
    | with_reducible apply kept_each | with_reducible apply kept_linkFlush

theorem kept_setLink {p : Nat} {dest : LinkState} (hk : Kept s₀ s) :
    Kept s₀ (setLink p dest s) := by
  unfold setLink
  repeat' first
    | with_reducible assumption | with_reducible apply kept_ite | with_reducible apply kept_bump
    | with_reducible apply kept_modPort | with_reducible apply kept_portFlushLook
    | with_reducible apply kept_raise

theorem kept_pcsFalse {p : Nat} (hk : Kept s₀ s) :
    Kept s₀ (pcsFalse p s) := by
  unfold pcsFalse
  repeat' first
    | with_reducible assumption | with_reducible exact fun _ h => h
    | with_reducible exact fun _ h => Bool.noConfusion h | intro _ | with_reducible apply kept_ite
    | with_reducible apply kept_ite2 | with_reducible apply kept_modPort
    | with_reducible apply kept_setLink | with_reducible exact rfl
    | refine kept_snd (by assumption) ?_ | split | dsimp only

theorem kept_portLook {p : Nat} (hk : Kept s₀ s) :
    Kept s₀ (portLook p s) := by
  unfold portLook
  repeat' first
    | with_reducible assumption | with_reducible exact fun _ h => h
    | with_reducible exact fun _ h => Bool.noConfusion h | intro _ | with_reducible apply kept_ite
    | with_reducible apply kept_ite2 | with_reducible apply kept_modPort
    | with_reducible apply kept_setLink | with_reducible exact rfl
    | refine kept_snd (by assumption) ?_ | split | dsimp only

theorem kept_portsLook  (hk : Kept s₀ s) :
    Kept s₀ (portsLook s) := by
  unfold portsLook
  repeat' first
    | with_reducible assumption | intro _ | with_reducible apply kept_each
    | with_reducible apply kept_portLook

theorem kept_rxBushels {r : RxState} {n : Nat} (hk : Kept s₀ s) :
    Kept s₀ (rxBushels r n s).2 := by
  unfold rxBushels
  repeat' first
    | with_reducible assumption | with_reducible exact fun _ h => h
    | with_reducible exact fun _ h => Bool.noConfusion h | intro _ | with_reducible apply kept_ite
    | with_reducible apply kept_ite2 | with_reducible apply kept_takeUpTo
    | with_reducible exact rfl | refine kept_snd (by assumption) ?_
    | with_reducible apply kept_bump | with_reducible apply kept_freeBushels
    | with_reducible apply kept_takeBushels | split | dsimp only

theorem kept_rxArrive {p : Nat} (hk : Kept s₀ s) :
    Kept s₀ (rxArrive p s) := by
  unfold rxArrive
  repeat' first
    | with_reducible assumption | with_reducible exact fun _ h => h
    | with_reducible exact fun _ h => Bool.noConfusion h | intro _ | with_reducible apply kept_ite
    | with_reducible apply kept_ite2 | with_reducible apply kept_modPort
    | with_reducible apply kept_rxBushels | with_reducible exact rfl
    | refine kept_snd (by assumption) ?_ | split | dsimp only

/-! Operations of `Role`. -/

theorem kept_modPair {f : Pair → Pair} (hk : Kept s₀ s) :
    Kept s₀ (modPair f s) := by
  unfold modPair
  repeat' first
    | with_reducible assumption | with_reducible apply kept_pair

theorem kept_setPair {dest : PairState} (hk : Kept s₀ s) :
    Kept s₀ (setPair dest s) := by
  unfold setPair
  repeat' first
    | with_reducible assumption | with_reducible apply kept_ite
    | with_reducible apply kept_modPair | with_reducible apply kept_portsLook
    | with_reducible apply kept_raise | with_reducible exact ⟨rfl, rfl, rfl, rfl⟩ | dsimp only
    | with_reducible apply kept_life

theorem kept_standbyFlush {ds : Bool} {q : Nat} (hk : Kept s₀ s) :
    Kept s₀ (standbyFlush ds q s) := by
  unfold standbyFlush
  repeat' first
    | with_reducible assumption | intro _ | with_reducible apply kept_bump
    | with_reducible apply kept_dropHead | with_reducible apply kept_each

theorem kept_leaveActive {dest : PairState} (hk : Kept s₀ s) :
    Kept s₀ (leaveActive dest s) := by
  unfold leaveActive
  repeat' first
    | with_reducible assumption | intro _ | with_reducible apply kept_each
    | with_reducible apply kept_modPair | with_reducible apply kept_setPair
    | with_reducible apply kept_standbyFlush

theorem kept_yieldNow {y : Yield} (hk : Kept s₀ s) :
    Kept s₀ (yieldNow y s) := by
  unfold yieldNow
  repeat' first
    | with_reducible assumption | with_reducible apply kept_ite | with_reducible apply kept_bump
    | with_reducible apply kept_leaveActive | with_reducible apply kept_modPair
    | with_reducible apply kept_setPair

theorem kept_yieldLook  (hk : Kept s₀ s) :
    Kept s₀ (yieldLook s) := by
  unfold yieldLook
  repeat' first
    | with_reducible assumption | with_reducible apply kept_ite
    | with_reducible apply kept_yieldNow | split

/-! Operations of `Gate`. -/

theorem kept_modTxLot {x i j : Nat} {f : TxLot → TxLot} (hk : Kept s₀ s) :
    Kept s₀ (modTxLot x i j f s) := by
  unfold modTxLot
  repeat' first
    | with_reducible assumption | with_reducible exact fun _ h => h
    | with_reducible apply kept_modUsLane

theorem kept_takeBseq {key : Nat} (hk : Kept s₀ s) :
    Kept s₀ (takeBseq key s).2 := by
  unfold takeBseq
  repeat' first
    | with_reducible assumption | with_reducible apply kept_ite2 | with_reducible exact rfl
    | dsimp only | with_reducible apply kept_us

theorem kept_numberGroup {key : Nat} {xs : List Nat} {lim : BitVec 64} (hk : Kept s₀ s) :
    Kept s₀ (numberGroup key xs lim s) := by
  unfold numberGroup
  repeat' first
    | with_reducible assumption | intro _ | with_reducible apply kept_each
    | with_reducible apply kept_modTxLot | with_reducible apply kept_takeBseq
    | with_reducible exact rfl | split | dsimp only | with_reducible apply kept_us

theorem kept_numberUpTo {lim : BitVec 64} (hk : Kept s₀ s) :
    Kept s₀ (numberUpTo lim s) := by
  unfold numberUpTo
  repeat' first
    | with_reducible assumption | with_reducible apply kept_ite
    | with_reducible apply kept_numberGroup

theorem kept_loseFrame {q : Nat} (hk : Kept s₀ s) :
    Kept s₀ (loseFrame q s) := by
  unfold loseFrame
  repeat' first
    | with_reducible assumption | with_reducible exact fun _ h => h | intro _
    | with_reducible apply kept_ite | with_reducible apply kept_each
    | with_reducible apply kept_freeBushels | with_reducible apply kept_modUsLane | split
    | dsimp only | with_reducible apply kept_qos

theorem kept_lotDone {sent : Bool} {t : TxLot} (hk : Kept s₀ s) :
    Kept s₀ (lotDone sent t s) := by
  unfold lotDone
  repeat' first
    | with_reducible assumption | with_reducible apply kept_ite | with_reducible apply kept_bump
    | with_reducible apply kept_freeBushels | with_reducible apply kept_loseFrame | split
    | dsimp only | with_reducible apply kept_qos

theorem kept_burstAccount {x : Nat} {b0 : Burst} {g : Nat} (hk : Kept s₀ s) :
    Kept s₀ (burstAccount x b0 g s) := by
  unfold burstAccount
  repeat' first
    | with_reducible assumption | with_reducible exact fun _ h => h
    | with_reducible exact fun _ h => Bool.noConfusion h | intro _ | with_reducible apply kept_ite
    | with_reducible apply kept_ite2 | with_reducible apply kept_each
    | with_reducible apply kept_bump | with_reducible apply kept_drainLook
    | with_reducible apply kept_each | with_reducible apply kept_loseFrame
    | with_reducible apply kept_lotDone | with_reducible apply kept_yieldLook
    | with_reducible exact rfl | refine kept_snd (by assumption) ?_ | split | dsimp only
    | with_reducible apply kept_us

theorem kept_benLow {x : Nat} (hk : Kept s₀ s) :
    Kept s₀ (benLow x s) := by
  unfold benLow
  repeat' first
    | with_reducible assumption | with_reducible exact fun _ h => Bool.noConfusion h
    | with_reducible apply kept_ite | with_reducible apply kept_bump
    | with_reducible apply kept_modUsLane

theorem kept_cutBurst {x : Nat} (hk : Kept s₀ s) :
    Kept s₀ (cutBurst x s) := by
  unfold cutBurst
  repeat' first
    | with_reducible assumption | with_reducible exact fun _ h => h
    | with_reducible apply kept_ite | with_reducible apply kept_benLow
    | with_reducible apply kept_bump | with_reducible apply kept_burstAccount
    | with_reducible apply kept_modUsLane | with_reducible apply kept_numberUpTo | split
    | dsimp only

theorem kept_endBurst {x : Nat} (hk : Kept s₀ s) :
    Kept s₀ (endBurst x s) := by
  unfold endBurst
  repeat' first
    | with_reducible assumption | with_reducible exact fun _ h => Bool.noConfusion h
    | with_reducible apply kept_ite | with_reducible apply kept_bump
    | with_reducible apply kept_burstAccount | with_reducible apply kept_modUsLane
    | with_reducible apply kept_numberUpTo | split

theorem kept_gateLook  (hk : Kept s₀ s) :
    Kept s₀ (gateLook s) := by
  unfold gateLook
  repeat' first
    | with_reducible assumption | with_reducible exact fun _ h => h
    | with_reducible exact fun _ h => Bool.noConfusion h | intro _ | with_reducible apply kept_ite
    | with_reducible apply kept_ite2 | with_reducible apply kept_each
    | with_reducible apply kept_cutBurst | with_reducible apply kept_each
    | with_reducible exact rfl | refine kept_snd (by assumption) ?_ | split | dsimp only

theorem kept_windowLook  (hk : Kept s₀ s) :
    Kept s₀ (windowLook s) := by
  unfold windowLook
  repeat' first
    | with_reducible assumption | with_reducible exact fun _ h => h
    | with_reducible exact fun _ h => Bool.noConfusion h | intro _ | with_reducible apply kept_ite
    | with_reducible apply kept_ite2 | with_reducible apply kept_each
    | with_reducible apply kept_each | with_reducible apply kept_endBurst
    | with_reducible exact rfl | refine kept_snd (by assumption) ?_ | split | dsimp only

theorem kept_setRef {r : PllRef} (hk : Kept s₀ s) :
    Kept s₀ (setRef r s) := by
  unfold setRef
  repeat' first
    | with_reducible assumption | with_reducible apply kept_ite
    | with_reducible apply kept_raise | with_reducible exact rfl | dsimp only
    | with_reducible apply kept_clk

theorem kept_refLook  (hk : Kept s₀ s) :
    Kept s₀ (refLook s) := by
  unfold refLook
  repeat' first
    | with_reducible assumption | with_reducible apply kept_ite
    | with_reducible apply kept_raise | with_reducible apply kept_setRef
    | with_reducible exact rfl | split | dsimp only | with_reducible apply kept_clk

/-! Operations of `ActOps`. -/

theorem kept_setReasm {id : Nat} {r : Reasm} (hk : Kept s₀ s) :
    Kept s₀ (setReasm id r s) := by
  unfold setReasm
  repeat' first
    | with_reducible assumption | with_reducible apply kept_reasm

theorem kept_dropReasm {id : Nat} (hk : Kept s₀ s) :
    Kept s₀ (dropReasm id s) := by
  unfold dropReasm
  repeat' first
    | with_reducible assumption | with_reducible apply kept_freeBushels
    | with_reducible apply kept_setReasm

theorem kept_removeLot {id : Nat} (hk : Kept s₀ s) :
    Kept s₀ (removeLot id s) := by
  unfold removeLot
  repeat' first
    | with_reducible assumption | with_reducible apply kept_ite | with_reducible apply kept_bump
    | with_reducible apply kept_dropReasm | with_reducible apply kept_plmRemove
    | with_reducible apply kept_lots

theorem kept_clearRtt {i : Nat} (hk : Kept s₀ s) :
    Kept s₀ (clearRtt i s) := by
  unfold clearRtt
  repeat' first
    | with_reducible assumption | with_reducible exact fun _ h => h
    | with_reducible exact fun _ h => Bool.noConfusion h | intro _ | with_reducible apply kept_ite
    | with_reducible apply kept_ite2 | with_reducible apply kept_each
    | with_reducible apply kept_each | with_reducible apply kept_modUsLane
    | with_reducible exact rfl | refine kept_snd (by assumption) ?_ | split | dsimp only

theorem kept_clearEqd {i : Nat} (hk : Kept s₀ s) :
    Kept s₀ (clearEqd i s) := by
  unfold clearEqd
  repeat' first
    | with_reducible assumption | with_reducible exact fun _ h => h
    | with_reducible exact fun _ h => Bool.noConfusion h | intro _ | with_reducible apply kept_ite
    | with_reducible apply kept_ite2 | with_reducible apply kept_each
    | with_reducible apply kept_each | with_reducible apply kept_modUsLane
    | with_reducible exact rfl | refine kept_snd (by assumption) ?_ | split | dsimp only

theorem kept_leaveFor {i g : Nat} {sc : Option (BitVec 48)} {w : ActDue} (hk : Kept s₀ s) :
    Kept s₀ (leaveFor i g sc w s) := by
  unfold leaveFor
  repeat' first
    | with_reducible assumption | with_reducible apply kept_modInst

theorem kept_actClear {i : Nat} {msg : Option Nat} (hk : Kept s₀ s) :
    Kept s₀ (actClear i msg s) := by
  unfold actClear
  repeat' first
    | with_reducible assumption | with_reducible exact fun _ h => h
    | with_reducible exact fun _ h => Bool.noConfusion h | intro _ | with_reducible apply kept_ite
    | with_reducible apply kept_ite2 | with_reducible apply kept_each
    | with_reducible apply kept_clearEqd | with_reducible apply kept_clearRtt
    | with_reducible apply kept_each | with_reducible apply kept_leaveFor
    | with_reducible apply kept_modInst | with_reducible apply kept_removeLot
    | with_reducible exact rfl | refine kept_snd (by assumption) ?_ | split | dsimp only
    | with_reducible apply kept_act

theorem kept_requestSwitch {target : Nat} {host : Bool} (hk : Kept s₀ s) :
    Kept s₀ (requestSwitch target host s).2 := by
  unfold requestSwitch
  repeat' first
    | with_reducible assumption | with_reducible apply kept_ite2
    | with_reducible apply kept_bump | with_reducible apply kept_raise | dsimp only
    | with_reducible apply kept_act

theorem kept_holdOffRequest {i : Nat} (hk : Kept s₀ s) :
    Kept s₀ (holdOffRequest i s) := by
  unfold holdOffRequest
  repeat' first
    | with_reducible assumption | with_reducible apply kept_modSupInst
    | with_reducible apply kept_requestSwitch

theorem kept_holdOffLook {i : Nat} (hk : Kept s₀ s) :
    Kept s₀ (holdOffLook i s) := by
  unfold holdOffLook
  repeat' first
    | with_reducible assumption | with_reducible apply kept_ite
    | with_reducible apply kept_holdOffRequest | split

theorem kept_operatingEntered {i : Nat} (hk : Kept s₀ s) :
    Kept s₀ (operatingEntered i s) := by
  unfold operatingEntered
  repeat' first
    | with_reducible assumption | with_reducible apply kept_ite
    | with_reducible apply kept_modSupInst | with_reducible apply kept_requestSwitch

theorem kept_setAct {i : Nat} {dest : ActState} {msg : Option Nat} (hk : Kept s₀ s) :
    Kept s₀ (setAct i dest msg s) := by
  unfold setAct
  repeat' first
    | with_reducible assumption | with_reducible apply kept_ite
    | with_reducible apply kept_gateLook | with_reducible apply kept_leaveFor
    | with_reducible apply kept_modInst | with_reducible apply kept_operatingEntered
    | with_reducible apply kept_raise | with_reducible apply kept_supLook | split

theorem kept_toListen {i : Nat} {msg : Option Nat} (hk : Kept s₀ s) :
    Kept s₀ (toListen i msg s) := by
  unfold toListen
  repeat' first
    | with_reducible assumption | with_reducible apply kept_actClear
    | with_reducible apply kept_setAct

theorem kept_actLost {i : Nat} (hk : Kept s₀ s) :
    Kept s₀ (actLost i s) := by
  unfold actLost
  repeat' first
    | with_reducible assumption | with_reducible exact fun _ h => h
    | with_reducible exact fun _ h => Bool.noConfusion h | intro _ | with_reducible apply kept_ite
    | with_reducible apply kept_ite2 | with_reducible apply kept_modInst
    | with_reducible apply kept_setAct | with_reducible apply kept_toListen
    | with_reducible exact rfl | refine kept_snd (by assumption) ?_ | split | dsimp only

theorem kept_actLockLook  (hk : Kept s₀ s) :
    Kept s₀ (actLockLook s) := by
  unfold actLockLook
  repeat' first
    | with_reducible assumption | intro _ | with_reducible apply kept_ite
    | with_reducible apply kept_actLost | with_reducible apply kept_each

theorem kept_lockLook  (hk : Kept s₀ s) :
    Kept s₀ (lockLook s) := by
  unfold lockLook
  repeat' first
    | with_reducible assumption | with_reducible apply kept_actLockLook
    | with_reducible apply kept_gateLook | with_reducible apply kept_refLook

/-! Operations of `Gens`. -/

theorem kept_modCls {f : Cls → Cls} (hk : Kept s₀ s) :
    Kept s₀ (modCls f s) := by
  unfold modCls
  repeat' first
    | with_reducible assumption | with_reducible apply kept_cls

theorem kept_retireLook  (hk : Kept s₀ s) :
    Kept s₀ (retireLook s) := by
  unfold retireLook
  repeat' first
    | with_reducible assumption | with_reducible apply kept_ite | with_reducible apply kept_bump
    | with_reducible apply kept_modCls

theorem kept_genLeave {g : BitVec 8} (hk : Kept s₀ s) :
    Kept s₀ (genLeave g s) := by
  unfold genLeave
  repeat' first
    | with_reducible assumption | with_reducible apply kept_modCls
    | with_reducible apply kept_retireLook

theorem kept_commitNow {tag : Option (BitVec 16 × Bool)} (hk : Kept s₀ s) :
    Kept s₀ (commitNow tag s) := by
  unfold commitNow
  repeat' first
    | with_reducible assumption | with_reducible apply kept_bump
    | with_reducible apply kept_modCls | with_reducible apply kept_raise
    | with_reducible apply kept_raiseTag | with_reducible apply kept_retireLook | split

/-! Operations of `Arrive`. -/

theorem kept_heldDue {sc : BitVec 48} (hk : Kept s₀ s) :
    Kept s₀ (heldDue sc s) := by
  unfold heldDue
  repeat' first
    | with_reducible assumption | dsimp only | with_reducible apply kept_pair

theorem kept_commitDue {sc : BitVec 48} (hk : Kept s₀ s) :
    Kept s₀ (commitDue sc s) := by
  unfold commitDue
  repeat' first
    | with_reducible assumption | with_reducible apply kept_ite
    | with_reducible apply kept_commitNow | split

theorem kept_arrived {l : Nat} {sc : BitVec 48} (hk : Kept s₀ s) :
    Kept s₀ (arrived l sc s) := by
  unfold arrived
  repeat' first
    | with_reducible assumption | with_reducible apply kept_ite
    | with_reducible apply kept_commitDue | with_reducible apply kept_heldDue

/-! Operations of `Line`. -/

theorem kept_excludeLane {l : Nat} (hk : Kept s₀ s) :
    Kept s₀ (excludeLane l s) := by
  unfold excludeLane
  repeat' first
    | with_reducible assumption | with_reducible exact fun _ h => h
    | with_reducible exact fun _ h => Bool.noConfusion h | intro _ | with_reducible apply kept_ite
    | with_reducible apply kept_ite2 | with_reducible apply kept_bump
    | with_reducible apply kept_modGroup | with_reducible apply kept_modLane
    | with_reducible apply kept_raise | with_reducible exact rfl
    | refine kept_snd (by assumption) ?_ | split | dsimp only

theorem kept_includeLane {l : Nat} {sc : BitVec 48} (hk : Kept s₀ s) :
    Kept s₀ (includeLane l sc s) := by
  unfold includeLane
  repeat' first
    | with_reducible assumption | with_reducible exact fun _ h => h
    | with_reducible exact fun _ h => Bool.noConfusion h | intro _ | with_reducible apply kept_ite
    | with_reducible apply kept_ite2 | with_reducible apply kept_each
    | with_reducible apply kept_each | with_reducible apply kept_modLane
    | with_reducible apply kept_raise | with_reducible exact rfl
    | refine kept_snd (by assumption) ?_ | split | dsimp only

theorem kept_excludeNow {l : Nat} (hk : Kept s₀ s) :
    Kept s₀ (excludeNow l s) := by
  unfold excludeNow
  repeat' first
    | with_reducible assumption | with_reducible exact fun _ h => h
    | with_reducible exact fun _ h => Bool.noConfusion h | intro _ | with_reducible apply kept_ite
    | with_reducible apply kept_ite2 | with_reducible apply kept_excludeLane
    | with_reducible apply kept_modLane | with_reducible exact rfl
    | refine kept_snd (by assumption) ?_ | split | dsimp only

theorem kept_bondCompare {l : Nat} (hk : Kept s₀ s) :
    Kept s₀ (bondCompare l s) := by
  unfold bondCompare
  repeat' first
    | with_reducible assumption | with_reducible exact fun _ h => h
    | with_reducible exact fun _ h => Bool.noConfusion h | intro _ | with_reducible apply kept_ite
    | with_reducible apply kept_ite2 | with_reducible apply kept_each
    | with_reducible apply kept_each | with_reducible apply kept_excludeLane
    | with_reducible apply kept_excludeNow | with_reducible apply kept_includeLane
    | with_reducible apply kept_modLane | with_reducible exact rfl
    | refine kept_snd (by assumption) ?_ | split | dsimp only

theorem kept_bondSettle {g : Nat} (hk : Kept s₀ s) :
    Kept s₀ (bondSettle g s) := by
  unfold bondSettle
  repeat' first
    | with_reducible assumption | with_reducible exact fun _ h => h
    | with_reducible exact fun _ h => Bool.noConfusion h | intro _ | with_reducible apply kept_ite
    | with_reducible apply kept_ite2 | with_reducible apply kept_each
    | with_reducible apply kept_bondCompare | with_reducible apply kept_each
    | with_reducible exact rfl | refine kept_snd (by assumption) ?_ | split | dsimp only

theorem kept_bondLook {l : Nat} (hk : Kept s₀ s) :
    Kept s₀ (bondLook l s) := by
  unfold bondLook
  repeat' first
    | with_reducible assumption | with_reducible exact fun _ h => h
    | with_reducible exact fun _ h => Bool.noConfusion h | intro _ | with_reducible apply kept_ite
    | with_reducible apply kept_ite2 | with_reducible apply kept_bondSettle
    | with_reducible apply kept_modLane | with_reducible exact rfl
    | refine kept_snd (by assumption) ?_ | with_reducible apply kept_each
    | with_reducible apply kept_excludeLane | with_reducible apply kept_includeLane | split
    | dsimp only

theorem kept_bondClose {l : Nat} (hk : Kept s₀ s) :
    Kept s₀ (bondClose l s) := by
  unfold bondClose
  repeat' first
    | with_reducible assumption | with_reducible exact fun _ h => h
    | with_reducible exact fun _ h => Bool.noConfusion h | intro _ | with_reducible apply kept_ite
    | with_reducible apply kept_ite2 | with_reducible apply kept_bondCompare
    | with_reducible exact rfl | refine kept_snd (by assumption) ?_ | split | dsimp only

theorem kept_countConflict {g l : Nat} (hk : Kept s₀ s) :
    Kept s₀ (countConflict g l s) := by
  unfold countConflict
  repeat' first
    | with_reducible assumption | with_reducible exact fun _ h => h
    | with_reducible exact fun _ h => Bool.noConfusion h | intro _ | with_reducible apply kept_ite
    | with_reducible apply kept_ite2 | with_reducible apply kept_bump
    | with_reducible apply kept_modLane | with_reducible apply kept_raise
    | with_reducible exact rfl | refine kept_snd (by assumption) ?_ | split | dsimp only

theorem kept_priConflict {g : Nat} {sc : BitVec 48} (hk : Kept s₀ s) :
    Kept s₀ (priConflict g sc s) := by
  unfold priConflict
  repeat' first
    | with_reducible assumption | with_reducible exact fun _ h => h
    | with_reducible exact fun _ h => Bool.noConfusion h | intro _ | with_reducible apply kept_ite
    | with_reducible apply kept_ite2 | with_reducible apply kept_each
    | with_reducible apply kept_countConflict | with_reducible apply kept_each
    | with_reducible exact rfl | refine kept_snd (by assumption) ?_ | split | dsimp only

theorem kept_closeLot {l : Nat} {k : LotKey} {p : Option Bytes} (hk : Kept s₀ s) :
    Kept s₀ (closeLot l k p s) := by
  unfold closeLot
  repeat' first
    | with_reducible assumption | with_reducible exact fun _ h => h
    | with_reducible exact fun _ h => Bool.noConfusion h | intro _ | with_reducible apply kept_ite
    | with_reducible apply kept_ite2 | with_reducible apply kept_modGroup
    | with_reducible apply kept_modLane | with_reducible exact rfl
    | refine kept_snd (by assumption) ?_ | split | dsimp only

theorem kept_dropPartial {l : Nat} (hk : Kept s₀ s) :
    Kept s₀ (dropPartial l s) := by
  unfold dropPartial
  repeat' first
    | with_reducible assumption | with_reducible exact fun _ h => h
    | with_reducible exact fun _ h => Bool.noConfusion h | intro _ | with_reducible apply kept_ite
    | with_reducible apply kept_ite2 | with_reducible apply kept_closeLot
    | with_reducible apply kept_modLane | with_reducible exact rfl
    | refine kept_snd (by assumption) ?_ | split | dsimp only

theorem kept_applyCut {l : Nat} {c : Cut} (hk : Kept s₀ s) :
    Kept s₀ (applyCut l c s) := by
  unfold applyCut
  repeat' first
    | with_reducible assumption | with_reducible exact fun _ h => h
    | with_reducible exact fun _ h => Bool.noConfusion h | intro _ | with_reducible apply kept_ite
    | with_reducible apply kept_ite2 | with_reducible apply kept_each
    | with_reducible apply kept_bump | with_reducible apply kept_closeLot
    | with_reducible apply kept_each | with_reducible apply kept_modLane | with_reducible exact rfl
    | refine kept_snd (by assumption) ?_ | split | dsimp only

theorem kept_cutLots {l n : Nat} (h : Kept s₀ s) : Kept s₀ (cutLots l n s) := by
  induction n generalizing s with
  | zero => exact h
  | succ n ih =>
    unfold cutLots
    split
    · exact h
    · exact ih (kept_applyCut h)

theorem kept_feed {l : Nat} {at_ : Nat} {b : List (Option (BitVec 8))} (hk : Kept s₀ s) :
    Kept s₀ (feed l at_ b s) := by
  unfold feed
  repeat' first
    | with_reducible assumption | with_reducible apply kept_cutLots
    | with_reducible apply kept_modLane

theorem kept_startDelin {l : Nat} {d : Delin} {at_ : Nat} (hk : Kept s₀ s) :
    Kept s₀ (startDelin l d at_ s) := by
  unfold startDelin
  repeat' first
    | with_reducible assumption | with_reducible exact fun _ h => h
    | with_reducible exact fun _ h => Bool.noConfusion h | intro _ | with_reducible apply kept_ite
    | with_reducible apply kept_ite2 | with_reducible apply kept_bump
    | with_reducible apply kept_dropPartial | with_reducible apply kept_modLane
    | with_reducible exact rfl | refine kept_snd (by assumption) ?_ | split | dsimp only

theorem kept_laneDown {l : Nat} (hk : Kept s₀ s) :
    Kept s₀ (laneDown l s) := by
  unfold laneDown
  repeat' first
    | with_reducible assumption | with_reducible exact fun _ h => h
    | with_reducible exact fun _ h => Bool.noConfusion h | intro _ | with_reducible apply kept_ite
    | with_reducible apply kept_ite2 | with_reducible apply kept_dropPartial
    | with_reducible apply kept_excludeLane | with_reducible apply kept_modLane
    | with_reducible exact rfl | refine kept_snd (by assumption) ?_ | split | dsimp only

theorem kept_listenEnd {l n : Nat} (hk : Kept s₀ s) :
    Kept s₀ (listenEnd l n s) := by
  unfold listenEnd
  repeat' first
    | with_reducible assumption | with_reducible exact fun _ h => h
    | with_reducible exact fun _ h => Bool.noConfusion h | intro _ | with_reducible apply kept_ite
    | with_reducible apply kept_ite2 | with_reducible apply kept_laneDown
    | with_reducible apply kept_refLook | with_reducible exact rfl
    | refine kept_snd (by assumption) ?_ | split | dsimp only

theorem kept_listenCount {l : Nat} {sc : BitVec 48} (hk : Kept s₀ s) :
    Kept s₀ (listenCount l sc s) := by
  unfold listenCount
  repeat' first
    | with_reducible assumption | with_reducible apply kept_ite | with_reducible apply kept_bump

theorem kept_recordArrival {l : Nat} {a : Arrival} (hk : Kept s₀ s) :
    Kept s₀ (recordArrival l a s) := by
  unfold recordArrival
  repeat' first
    | with_reducible assumption | with_reducible apply kept_arrived
    | with_reducible apply kept_modLane

theorem kept_confirmCw0 {l : Nat} {start : BitVec 64} {txLane : BitVec 2} {payload : Bytes} {inLock
    : Bool} (hk : Kept s₀ s) :
    Kept s₀ (confirmCw0 l start txLane payload inLock s) := by
  unfold confirmCw0
  repeat' first
    | with_reducible assumption | with_reducible exact fun _ h => h
    | with_reducible exact fun _ h => Bool.noConfusion h | intro _ | with_reducible apply kept_ite
    | with_reducible apply kept_ite2 | with_reducible apply kept_bondClose
    | with_reducible apply kept_bondLook | with_reducible apply kept_bump
    | with_reducible apply kept_feed | with_reducible apply kept_listenCount
    | with_reducible apply kept_listenEnd | with_reducible apply kept_modLane
    | with_reducible apply kept_priConflict | with_reducible apply kept_raise
    | with_reducible apply kept_recordArrival | with_reducible apply kept_startDelin
    | with_reducible apply kept_windowEnd | with_reducible exact rfl
    | refine kept_snd (by assumption) ?_ | split | dsimp only

theorem kept_gainLock {l : Nat} {start : BitVec 64} {txLane : BitVec 2} {payload : Bytes}
    {sc : BitVec 48} (hk : Kept s₀ s) :
    Kept s₀ (gainLock l start txLane payload sc s) := by
  unfold gainLock
  repeat' first
    | with_reducible assumption | with_reducible apply kept_bump
    | with_reducible apply kept_confirmCw0 | with_reducible apply kept_lockEntry
    | with_reducible apply kept_lockLook | with_reducible apply kept_modLane
    | with_reducible apply kept_raise

theorem kept_dropAlignment {l : Nat} {st : LaneState} (hk : Kept s₀ s) :
    Kept s₀ (dropAlignment l st s) := by
  unfold dropAlignment
  repeat' first
    | with_reducible assumption | with_reducible exact fun _ h => h
    | with_reducible exact fun _ h => Bool.noConfusion h | intro _ | with_reducible apply kept_ite
    | with_reducible apply kept_ite2 | with_reducible apply kept_dropPartial
    | with_reducible apply kept_excludeLane | with_reducible apply kept_modLane
    | with_reducible exact rfl | refine kept_snd (by assumption) ?_ | split | dsimp only

theorem kept_loseLock {l : Nat} (hk : Kept s₀ s) :
    Kept s₀ (loseLock l s) := by
  unfold loseLock
  repeat' first
    | with_reducible assumption | with_reducible apply kept_ite | with_reducible apply kept_bump
    | with_reducible apply kept_dropAlignment | with_reducible apply kept_lockLook
    | with_reducible apply kept_lofEntry | with_reducible apply kept_raise
    | with_reducible apply kept_wakeEvent

theorem kept_missCw0 {l : Nat} (hk : Kept s₀ s) :
    Kept s₀ (missCw0 l s) := by
  unfold missCw0
  repeat' first
    | with_reducible assumption | with_reducible exact fun _ h => h
    | with_reducible exact fun _ h => Bool.noConfusion h | intro _ | with_reducible apply kept_ite
    | with_reducible apply kept_ite2 | with_reducible apply kept_bondClose
    | with_reducible apply kept_bondLook | with_reducible apply kept_bump
    | with_reducible apply kept_loseLock | with_reducible apply kept_modLane
    | with_reducible apply kept_recordArrival | with_reducible apply kept_startDelin
    | with_reducible apply kept_windowEnd | with_reducible exact rfl
    | refine kept_snd (by assumption) ?_ | split | dsimp only

theorem kept_putSlots {l : Nat} {ks : List Slot} (hk : Kept s₀ s) :
    Kept s₀ (putSlots l ks s) := by
  unfold putSlots
  repeat' first
    | with_reducible assumption | with_reducible apply kept_modLane

theorem kept_verifyCodeword {l : Nat} {start : BitVec 64} {d : Option Decoded} (hk : Kept s₀ s) :
    Kept s₀ (verifyCodeword l start d s) := by
  unfold verifyCodeword
  repeat' first
    | with_reducible assumption | with_reducible apply kept_bump
    | with_reducible apply kept_gainLock | with_reducible apply kept_putSlots
    | with_reducible apply kept_recordArrival | split

theorem kept_countCodeword {l : Nat} {d : Option Decoded} {hdrErr : Bool} {supervised : Bool}
    (hk : Kept s₀ s) :
    Kept s₀ (countCodeword l d hdrErr supervised s) := by
  unfold countCodeword
  repeat' first
    | with_reducible assumption | with_reducible exact fun _ h => h
    | with_reducible exact fun _ h => Bool.noConfusion h | intro _ | with_reducible apply kept_ite
    | with_reducible apply kept_ite2 | with_reducible apply kept_bump
    | with_reducible apply kept_modSupLane | with_reducible apply kept_sdAccount
    | with_reducible exact rfl | refine kept_snd (by assumption) ?_ | split | dsimp only

theorem kept_lockedCw0 {l : Nat} {start : BitVec 64} {d : Option Decoded} (hk : Kept s₀ s) :
    Kept s₀ (lockedCw0 l start d s) := by
  unfold lockedCw0
  repeat' first
    | with_reducible assumption | with_reducible apply kept_ite
    | with_reducible apply kept_confirmCw0 | with_reducible apply kept_countCodeword
    | with_reducible apply kept_missCw0 | split

theorem kept_catchUp {l n : Nat} (hk : Kept s₀ s) :
    Kept s₀ (catchUp l n s) := by
  unfold catchUp
  repeat' first
    | with_reducible assumption | with_reducible apply kept_ite | with_reducible apply kept_feed
    | with_reducible apply kept_modLane

theorem kept_lockedCw {l n : Nat} {d : Option Decoded} (hk : Kept s₀ s) :
    Kept s₀ (lockedCw l n d s) := by
  unfold lockedCw
  repeat' first
    | with_reducible assumption | with_reducible apply kept_ite
    | with_reducible apply kept_catchUp | with_reducible apply kept_countCodeword
    | with_reducible apply kept_feed | with_reducible apply kept_listenEnd
    | with_reducible apply kept_modLane | split

theorem kept_resumeCodeword {l : Nat} {start : BitVec 64} {d : Option Decoded} (hk : Kept s₀ s) :
    Kept s₀ (resumeCodeword l start d s) := by
  unfold resumeCodeword
  repeat' first
    | with_reducible assumption | with_reducible apply kept_ite
    | with_reducible apply kept_countCodeword | with_reducible apply kept_gainLock | split

theorem kept_ctleFollow {l : Nat} (hk : Kept s₀ s) :
    Kept s₀ (ctleFollow l s) := by
  unfold ctleFollow
  repeat' first
    | with_reducible assumption | with_reducible apply kept_modLane

theorem kept_applyEq {l : Nat} {items : List (Nat × Int)} (hk : Kept s₀ s) :
    Kept s₀ (applyEq l items s) := by
  unfold applyEq
  repeat' first
    | with_reducible assumption | intro _ | with_reducible apply kept_ctleFollow
    | with_reducible apply kept_each | with_reducible apply kept_putSetting

theorem kept_enableLane {l : Nat} (hk : Kept s₀ s) :
    Kept s₀ (enableLane l s) := by
  unfold enableLane
  repeat' first
    | with_reducible assumption | with_reducible apply kept_ite
    | with_reducible apply kept_lofEntry | with_reducible apply kept_modLane

theorem kept_disableLane {l : Nat} (hk : Kept s₀ s) :
    Kept s₀ (disableLane l s) := by
  unfold disableLane
  repeat' first
    | with_reducible assumption | with_reducible exact fun _ h => h
    | with_reducible exact fun _ h => Bool.noConfusion h | intro _ | with_reducible apply kept_ite
    | with_reducible apply kept_ite2 | with_reducible apply kept_clearLaneDefects
    | with_reducible apply kept_dropPartial | with_reducible apply kept_excludeLane
    | with_reducible apply kept_lockLook | with_reducible apply kept_modLane
    | with_reducible exact rfl | refine kept_snd (by assumption) ?_ | split | dsimp only

theorem kept_laneUp {l : Nat} (hk : Kept s₀ s) :
    Kept s₀ (laneUp l s) := by
  unfold laneUp
  repeat' first
    | with_reducible assumption | with_reducible exact fun _ h => h
    | with_reducible exact fun _ h => Bool.noConfusion h | intro _ | with_reducible apply kept_ite
    | with_reducible apply kept_ite2 | with_reducible apply kept_modLane
    | with_reducible apply kept_modSupLane | with_reducible exact rfl
    | refine kept_snd (by assumption) ?_ | split | dsimp only

/-! Operations of `CryOps`. -/

theorem kept_modSlot {k : Nat} {f : KeySlot → KeySlot} (h : Kept s₀ s)
    (hf : ∀ x, (f x).key = x.key ∨ (f x).key = []) : Kept s₀ (modSlot k f s) := by
  refine h.trans ⟨rfl, rfl, id, (Kept.refl s).2.2.2.1, fun _ h => h, fun j => ?_⟩
  simp only [slotOf, modSlot, tabGet_mod]
  split
  · subst_vars; exact hf _
  · exact .inl rfl

theorem kept_drawNonce {k : Nat} (hk : Kept s₀ s) :
    Kept s₀ (drawNonce k s).2 := by
  unfold drawNonce
  repeat' first
    | with_reducible assumption | intro _ | with_reducible apply kept_ite2
    | with_reducible apply kept_modSlot | dsimp only | exact .inl rfl

theorem kept_rngDraw  (hk : Kept s₀ s) :
    Kept s₀ (rngDraw s).2 := by
  unfold rngDraw
  repeat' first
    | with_reducible assumption | with_reducible apply kept_drawn | dsimp only
    | with_reducible apply kept_cry | exact rfl

theorem kept_maskDraw {n : Nat} (hk : Kept s₀ s) :
    Kept s₀ (maskDraw n s) := by
  unfold maskDraw
  repeat' first
    | with_reducible assumption | with_reducible exact fun _ h => h
    | with_reducible exact fun _ h => Bool.noConfusion h | intro _ | with_reducible apply kept_ite
    | with_reducible apply kept_ite2 | with_reducible exact rfl
    | refine kept_snd (by assumption) ?_ | split | dsimp only | with_reducible apply kept_cry

theorem kept_startOp {o : CryOp} (hk : Kept s₀ s) : Kept s₀ (startOp o s) := by
  unfold startOp
  repeat' first
    | with_reducible assumption | with_reducible apply kept_ite | with_reducible apply kept_maskDraw
    | with_reducible exact rfl | split | dsimp only | with_reducible apply kept_cry

theorem kept_startOps (hk : Kept s₀ s) : Kept s₀ (startOps s) := by
  unfold startOps
  refine kept_each (fun c u h => ?_) hk
  split
  · exact kept_startOp h
  · exact h

theorem kept_issueOp {o : CryOp} (hk : Kept s₀ s) :
    Kept s₀ (issueOp o s).2 := by
  unfold issueOp
  repeat' first
    | with_reducible assumption | with_reducible apply kept_startOps | with_reducible exact rfl
    | dsimp only | with_reducible apply kept_cry

/-! Operations of `Lots`. -/

theorem kept_abandonContexts {g : Nat} (hk : Kept s₀ s) :
    Kept s₀ (abandonContexts g s) := by
  unfold abandonContexts
  repeat' first
    | with_reducible assumption | intro _ | with_reducible apply kept_bump
    | with_reducible apply kept_dropReasm | with_reducible apply kept_each

theorem kept_deliverLot {id label keyIdx g : Nat} {key : LotKey} {t : BitVec 64} {b : Bytes}
    {bushels : Nat} (hk : Kept s₀ s) :
    Kept s₀ (deliverLot id label keyIdx g key t b bushels s) := by
  unfold deliverLot
  repeat' first
    | with_reducible assumption | with_reducible exact fun _ h => h
    | with_reducible exact fun _ h => Bool.noConfusion h | intro _ | with_reducible apply kept_ite
    | with_reducible apply kept_ite2 | with_reducible apply kept_bump
    | with_reducible apply kept_freeBushels | with_reducible exact rfl
    | refine kept_snd (by assumption) ?_ | split | dsimp only | with_reducible apply kept_toTime
    | with_reducible apply kept_toReeve | with_reducible apply kept_inQ

theorem kept_lotBushels {g : Nat} {new : Bool} {held n : Nat} (hk : Kept s₀ s) :
    Kept s₀ (lotBushels g new held n s).2 := by
  unfold lotBushels
  repeat' first
    | with_reducible assumption | with_reducible exact fun _ h => h
    | with_reducible exact fun _ h => Bool.noConfusion h | intro _ | with_reducible apply kept_ite
    | with_reducible apply kept_ite2 | with_reducible apply kept_bump
    | with_reducible apply kept_takeUpTo | with_reducible exact rfl
    | refine kept_snd (by assumption) ?_ | with_reducible apply kept_freeBushels
    | with_reducible apply kept_takeBushels | split | dsimp only

theorem kept_reassemble {id label keyIdx frag g : Nat} {key : LotKey} {t : BitVec 64} {b : Bytes}
    {passed : Nat} (hk : Kept s₀ s) :
    Kept s₀ (reassemble id label keyIdx frag g key t b passed s) := by
  unfold reassemble
  repeat' first
    | with_reducible assumption | with_reducible exact fun _ h => h
    | with_reducible exact fun _ h => Bool.noConfusion h | intro _ | with_reducible apply kept_ite
    | with_reducible apply kept_ite2 | with_reducible apply kept_bump
    | with_reducible apply kept_deliverLot | with_reducible apply kept_dropReasm
    | with_reducible apply kept_freeBushels | with_reducible apply kept_lotBushels
    | with_reducible apply kept_setReasm | with_reducible exact rfl
    | refine kept_snd (by assumption) ?_ | split | dsimp only

theorem kept_lotClear {g : Nat} {lot : Lot} {b : Bytes} {passed : Nat} (hk : Kept s₀ s) :
    Kept s₀ (lotClear g lot b passed s) := by
  unfold lotClear
  repeat' first
    | with_reducible assumption | with_reducible exact fun _ h => h
    | with_reducible exact fun _ h => Bool.noConfusion h | intro _ | with_reducible apply kept_ite
    | with_reducible apply kept_ite2 | with_reducible apply kept_bump
    | with_reducible apply kept_reassemble | with_reducible exact rfl
    | refine kept_snd (by assumption) ?_ | split | dsimp only

theorem kept_lotCipher {g : Nat} {lot : Lot} (hk : Kept s₀ s) :
    Kept s₀ (lotCipher g lot s).2 := by
  unfold lotCipher
  repeat' first
    | with_reducible assumption | with_reducible exact fun _ h => h
    | with_reducible exact fun _ h => Bool.noConfusion h | intro _ | with_reducible apply kept_ite
    | with_reducible apply kept_ite2 | with_reducible apply kept_bump
    | with_reducible apply kept_issueOp | with_reducible exact rfl
    | refine kept_snd (by assumption) ?_ | split | dsimp only

theorem kept_processLot {g : Nat} {lot : Lot} (hk : Kept s₀ s) :
    Kept s₀ (processLot g lot s).2 := by
  unfold processLot
  repeat' first
    | with_reducible assumption | with_reducible exact fun _ h => h
    | with_reducible exact fun _ h => Bool.noConfusion h | intro _ | with_reducible apply kept_ite
    | with_reducible apply kept_ite2 | with_reducible apply kept_bump
    | with_reducible apply kept_lotCipher | with_reducible apply kept_plmLot
    | with_reducible exact rfl | refine kept_snd (by assumption) ?_ | split | dsimp only

theorem kept_relStart {g : Nat} {rs : List Rel} (h : Kept s₀ s) : Kept s₀ (relStart g rs s).2 := by
  induction rs generalizing s with
  | nil => exact h
  | cons r rs ih =>
    unfold relStart
    exact ih (kept_ite2 (kept_processLot h) h)

theorem kept_relDrain {g : Nat} {rs : List Rel} (h : Kept s₀ s) : Kept s₀ (relDrain g rs s).2 := by
  induction rs generalizing s with
  | nil => exact h
  | cons r rs ih =>
    unfold relDrain
    have h1 : Kept s₀ (if r.gap = true then abandonContexts g s else s) :=
      kept_ite (kept_abandonContexts h) h
    dsimp only
    split
    · exact ih h1
    · exact ih (kept_lotClear h1)
    · exact h1

theorem kept_relLook {g : Nat} (hk : Kept s₀ s) :
    Kept s₀ (relLook g s) := by
  unfold relLook
  repeat' first
    | with_reducible assumption | with_reducible exact fun _ h => h
    | with_reducible exact fun _ h => Bool.noConfusion h | intro _ | with_reducible apply kept_ite
    | with_reducible apply kept_ite2 | with_reducible apply kept_modGroup
    | with_reducible apply kept_relDrain | with_reducible apply kept_relStart
    | with_reducible exact rfl | refine kept_snd (by assumption) ?_ | split | dsimp only

theorem kept_relCipherDone {g : Nat} {k : LotKey} {st : RelStep} (hk : Kept s₀ s) :
    Kept s₀ (relCipherDone g k st s) := by
  unfold relCipherDone
  repeat' first
    | with_reducible assumption | with_reducible exact fun _ h => h
    | with_reducible exact fun _ h => Bool.noConfusion h | intro _ | with_reducible apply kept_ite
    | with_reducible apply kept_ite2 | with_reducible apply kept_modGroup
    | with_reducible apply kept_relLook | with_reducible exact rfl
    | refine kept_snd (by assumption) ?_ | split | dsimp only

theorem kept_bseqRelease {g : Nat} {lot : Lot} (hk : Kept s₀ s) :
    Kept s₀ (bseqRelease g lot s) := by
  unfold bseqRelease
  repeat' first
    | with_reducible assumption | with_reducible exact fun _ h => h
    | with_reducible exact fun _ h => Bool.noConfusion h | intro _ | with_reducible apply kept_ite
    | with_reducible apply kept_ite2 | with_reducible apply kept_bump
    | with_reducible apply kept_modGroup | with_reducible exact rfl
    | refine kept_snd (by assumption) ?_ | with_reducible apply kept_abandonContexts
    | with_reducible apply kept_processLot | split | dsimp only

theorem kept_releaseHeader {g : Nat} (hk : Kept s₀ s) :
    Kept s₀ (releaseHeader g s) := by
  unfold releaseHeader
  repeat' first
    | with_reducible assumption | with_reducible exact fun _ h => h
    | with_reducible exact fun _ h => Bool.noConfusion h | intro _ | with_reducible apply kept_ite
    | with_reducible apply kept_ite2 | with_reducible apply kept_bseqRelease
    | with_reducible apply kept_modLane | with_reducible exact rfl
    | refine kept_snd (by assumption) ?_ | split | dsimp only

end Sys2Proof.Machine
end

