-- ==== Sys2Proof/Laws/KeptUp.lean ====
section
/-! SUPPORT. What each operation keeps (`Kept`): upstream bursts, activation, the lifetime store, the servo, time. -/
-- One list of alternatives serves every lemma below; not every lemma uses each of them.
set_option linter.unusedTactic false
set_option linter.unreachableTactic false
namespace Sys2Proof.Machine
variable {s₀ s t : State}

/-! Operations of `Upstream`. -/

theorem kept_storeFurrow {x : Nat} {f : Furrow} (hk : Kept s₀ s) :
    Kept s₀ (storeFurrow x f s) := by
  unfold storeFurrow
  repeat' first
    | with_reducible assumption | with_reducible exact fun _ h => h
    | with_reducible apply kept_ite | with_reducible apply kept_bump
    | with_reducible apply kept_modUsLane

theorem kept_upMessage {x : Nat} {f : Furrow} {type : BitVec 8} {body : Bytes} (hk : Kept s₀ s) :
    Kept s₀ (upMessage x f type body s).2 := by
  unfold upMessage
  repeat' first
    | with_reducible assumption | with_reducible exact fun _ h => h
    | with_reducible exact fun _ h => Bool.noConfusion h | intro _ | with_reducible apply kept_ite
    | with_reducible apply kept_ite2 | with_reducible apply kept_issueOp
    | with_reducible apply kept_modInst | with_reducible exact rfl
    | refine kept_snd (by assumption) ?_ | split | dsimp only

theorem kept_upDecide {x q : Nat} {f : Furrow} {passed : List Nat}
    (e : upDecide s x f passed = some (q, t)) (h : Kept s₀ s) : Kept s₀ t := by
  unfold upDecide at e
  dsimp only at e
  repeat' split at e
  all_goals first
    | (cases e; done)
    | (cases e; exact kept_shaperCharge (kept_shaperCharge (kept_modPlotArb h)))
    | (cases e; exact kept_shaperCharge (kept_shaperCharge (kept_modPlotArb (kept_modGroupArb h))))

theorem kept_layLot {x : Nat} {f : Furrow} {q off n : Nat} (hk : Kept s₀ s) :
    Kept s₀ (layLot x f q off n s).2 := by
  unfold layLot
  repeat' first
    | with_reducible assumption | with_reducible exact fun _ h => h
    | with_reducible exact fun _ h => Bool.noConfusion h | intro _ | with_reducible apply kept_ite
    | with_reducible apply kept_ite2 | with_reducible apply kept_issueOp
    | with_reducible apply kept_modUs | with_reducible apply kept_modUsLane
    | with_reducible exact rfl | refine kept_snd (by assumption) ?_ | split | dsimp only

theorem kept_fillBurst {x off r n : Nat} {f : Furrow} {first : Bool} {passed : List Nat}
    (h : Kept s₀ s) : Kept s₀ (fillBurst x f n off r first passed s).2 := by
  induction n generalizing off r first passed s with
  | zero => exact h
  | succ n ih =>
    unfold fillBurst
    dsimp only
    split
    · exact h
    · split
      · exact h
      · rename_i q s1 heq
        have h1 : Kept s₀ s1 := by
          split at heq
          · split at heq <;> cases heq
            exact h
          · exact kept_upDecide heq h
        have h2 (a b : Nat) : Kept s₀ (layLot x f q a b s1).2 := kept_layLot h1
        exact kept_ite2 (ih (h2 _ _)) (kept_ite2 (kept_ite2 (ih (kept_bump (kept_dropHead h)))
          (ih (kept_bump h))) (ih (h2 _ _)))

theorem kept_cryptoNotes {x : Nat} {f : Furrow} (hk : Kept s₀ s) :
    Kept s₀ (cryptoNotes x f s) := by
  unfold cryptoNotes
  repeat' first
    | with_reducible assumption | intro _ | with_reducible apply kept_ite
    | with_reducible apply kept_bump | with_reducible apply kept_each
    | with_reducible apply kept_modUs | with_reducible apply kept_raise

theorem kept_addBurst {x : Nat} {b : Burst} (hk : Kept s₀ s) :
    Kept s₀ (addBurst x b s) := by
  unfold addBurst
  repeat' first
    | with_reducible assumption | with_reducible exact fun _ h => h
    | with_reducible apply kept_modUsLane | with_reducible apply kept_numberUpTo

theorem kept_windowBurst {x : Nat} {f : Furrow} {announce : Bool} {delay : Nat} {type : BitVec 8}
    {body : Bytes} (hk : Kept s₀ s) :
    Kept s₀ (windowBurst x f announce delay type body s) := by
  unfold windowBurst
  repeat' first
    | with_reducible assumption | with_reducible exact fun _ h => h
    | with_reducible exact fun _ h => Bool.noConfusion h | intro _ | with_reducible apply kept_ite
    | with_reducible apply kept_ite2 | with_reducible apply kept_addBurst
    | with_reducible apply kept_upMessage | with_reducible exact rfl
    | refine kept_snd (by assumption) ?_ | split | dsimp only

theorem kept_announceSample {x : Nat} {f : Furrow} (hk : Kept s₀ s) :
    Kept s₀ (announceSample x f s) := by
  unfold announceSample
  repeat' first
    | with_reducible assumption | with_reducible exact fun _ h => h
    | with_reducible exact fun _ h => Bool.noConfusion h | intro _ | with_reducible apply kept_ite
    | with_reducible apply kept_ite2 | with_reducible apply kept_bump
    | with_reducible apply kept_modInst | with_reducible apply kept_rngDraw
    | with_reducible apply kept_windowBurst | with_reducible exact rfl
    | refine kept_snd (by assumption) ?_ | split | dsimp only

theorem kept_rangingSample {x : Nat} {f : Furrow} (hk : Kept s₀ s) :
    Kept s₀ (rangingSample x f s) := by
  unfold rangingSample
  repeat' first
    | with_reducible assumption | with_reducible exact fun _ h => h
    | with_reducible exact fun _ h => Bool.noConfusion h | intro _ | with_reducible apply kept_ite
    | with_reducible apply kept_ite2 | with_reducible apply kept_bump
    | with_reducible apply kept_windowBurst | with_reducible exact rfl
    | refine kept_snd (by assumption) ?_ | split | dsimp only

theorem kept_mgmtLot {x off r : Nat} {f : Furrow} {l : TxLot}
    (e : mgmtLot x f off r s = some (l, t)) (h : Kept s₀ s) : Kept s₀ t := by
  unfold mgmtLot at e
  dsimp only at e
  repeat' split at e
  all_goals first
    | (cases e; done)
    | (cases e; with_reducible exact kept_modInst h)
    | (cases e; with_reducible refine kept_modUsLane (kept_issueOp (kept_modInst h)) ?_
       exact fun _ h => h)

theorem kept_fragmentLots {x : Nat} {f : Furrow} {n off r : Nat} (h : Kept s₀ s) :
    Kept s₀ (fragmentLots x f n off r s).2 := by
  induction n generalizing off r s with
  | zero => exact h
  | succ n ih =>
    unfold fragmentLots
    split
    · exact h
    · exact kept_ite2 h (ih (kept_layLot h))

theorem kept_dataSample {x : Nat} {f : Furrow} (hk : Kept s₀ s) :
    Kept s₀ (dataSample x f s) := by
  unfold dataSample
  repeat' first
    | with_reducible assumption | with_reducible exact fun _ h => h
    | with_reducible exact fun _ h => Bool.noConfusion h | intro _ | with_reducible apply kept_ite
    | with_reducible apply kept_ite2 | with_reducible apply kept_addBurst
    | with_reducible apply kept_cryptoNotes | with_reducible apply kept_fillBurst
    | with_reducible apply kept_fragmentLots | with_reducible apply kept_modInst
    | with_reducible apply kept_upMessage | with_reducible exact rfl
    | refine kept_snd (by assumption) ?_ | refine kept_mgmtLot (by assumption) ?_ | split
    | dsimp only

theorem kept_setStage {x : Nat} {f : Furrow} {n : Nat} (hk : Kept s₀ s) :
    Kept s₀ (setStage x f n s) := by
  unfold setStage
  repeat' first
    | with_reducible assumption | with_reducible exact fun _ h => h
    | with_reducible apply kept_modUsLane

theorem kept_startBurst {x : Nat} {b : Burst} :
    ∃ f, Kept (modUsLane x f s) (startBurst x b s) := by
  unfold startBurst
  dsimp only
  refine ⟨_, kept_bump (kept_bump (kept_bump (kept_bump (kept_ite ?_ (Kept.refl _)))))⟩
  exact kept_us (Kept.refl _) (by split <;> rfl)

theorem kept_skipFurrow {x : Nat} {f : Furrow} (hk : Kept s₀ s) :
    Kept s₀ (skipFurrow x f s) := by
  unfold skipFurrow
  repeat' first
    | with_reducible assumption | with_reducible exact fun _ h => h
    | with_reducible exact fun _ h => Bool.noConfusion h | intro _ | with_reducible apply kept_ite
    | with_reducible apply kept_ite2 | with_reducible apply kept_bump
    | with_reducible apply kept_burstAccount | with_reducible apply kept_modUsLane
    | with_reducible apply kept_numberUpTo | with_reducible exact rfl
    | refine kept_snd (by assumption) ?_ | split | dsimp only

theorem kept_wdTripLane {x : Nat} (hk : Kept s₀ s) :
    Kept s₀ (wdTripLane x s) := by
  unfold wdTripLane
  repeat' first
    | with_reducible assumption | with_reducible exact fun _ h => h
    | with_reducible apply kept_benLow | with_reducible apply kept_bump
    | with_reducible apply kept_gateLook | with_reducible apply kept_modUsLane
    | with_reducible apply kept_raise

/-! Operations of `Activation`. -/

theorem kept_queueMsg {i : Nat} {type : BitVec 8} {body : Bytes} (hk : Kept s₀ s) :
    Kept s₀ (queueMsg i type body s) := by
  unfold queueMsg
  repeat' first
    | with_reducible assumption | with_reducible apply kept_ite | with_reducible apply kept_bump
    | with_reducible apply kept_modInst

theorem kept_queueAck {i : Nat} {type : Nat} {seq : BitVec 8} {result : Nat} (hk : Kept s₀ s) :
    Kept s₀ (queueAck i type seq result s) := by
  unfold queueAck
  repeat' first
    | with_reducible assumption | with_reducible exact fun _ h => h
    | with_reducible exact fun _ h => Bool.noConfusion h | intro _ | with_reducible apply kept_ite
    | with_reducible apply kept_ite2 | with_reducible apply kept_modInst
    | with_reducible apply kept_queueMsg | with_reducible exact rfl
    | refine kept_snd (by assumption) ?_ | split | dsimp only

theorem kept_msgDone {m : FieldMsg} {i : Nat} {ack : Bool} {r : Nat} (hk : Kept s₀ s) :
    Kept s₀ (msgDone m i ack r s) := by
  unfold msgDone
  repeat' first
    | with_reducible assumption | with_reducible apply kept_ite | with_reducible apply kept_bump
    | with_reducible apply kept_modInst | with_reducible apply kept_queueAck

theorem kept_acceptMsg {m : FieldMsg} {addr : Addressing} {p : ActState → Bool} {ack : Bool}
    {act : Nat → State → Option Nat × State} (hf : ∀ i s, Kept s₀ s → Kept s₀ (act i s).2)
    (h : Kept s₀ s) : Kept s₀ (acceptMsg m addr p ack act s) := by
  unfold acceptMsg
  repeat' first
    | with_reducible assumption | with_reducible exact fun _ h => h
    | with_reducible exact fun _ h => Bool.noConfusion h | intro _ | with_reducible apply kept_ite
    | with_reducible apply kept_ite2 | with_reducible apply kept_bump
    | with_reducible apply kept_msgDone | with_reducible apply kept_queueMsg
    | with_reducible exact rfl | refine kept_snd (by assumption) ?_
    | with_reducible apply kept_queueAck | split | dsimp only | exact hf _ _ ‹_›

theorem kept_actHeProfile {m : FieldMsg} {i : Nat} (hk : Kept s₀ s) :
    Kept s₀ (actHeProfile m i s).2 := by
  unfold actHeProfile
  repeat' first
    | with_reducible assumption | with_reducible apply kept_ite2
    | with_reducible apply kept_bump | with_reducible apply kept_leaveFor
    | with_reducible apply kept_modInst | with_reducible apply kept_raise
    | with_reducible apply kept_setAct | split | dsimp only

theorem kept_addPlot {i p : Nat} (hk : Kept s₀ s) :
    Kept s₀ (addPlot i p s) := by
  unfold addPlot
  repeat' first
    | with_reducible assumption | with_reducible apply kept_ite | dsimp only
    | with_reducible apply kept_act

theorem kept_actAssignId {m : FieldMsg} {i : Nat} (hk : Kept s₀ s) :
    Kept s₀ (actAssignId m i s).2 := by
  unfold actAssignId
  repeat' first
    | with_reducible assumption | with_reducible apply kept_ite | with_reducible apply kept_ite2
    | with_reducible apply kept_addPlot | with_reducible apply kept_bump
    | with_reducible apply kept_leaveFor | with_reducible apply kept_modInst
    | with_reducible apply kept_setAct

theorem kept_actRangingTime {m : FieldMsg} {i : Nat} (hk : Kept s₀ s) :
    Kept s₀ (actRangingTime m i s).2 := by
  unfold actRangingTime
  repeat' first
    | with_reducible assumption | with_reducible exact fun _ h => h
    | with_reducible exact fun _ h => Bool.noConfusion h | intro _ | with_reducible apply kept_ite
    | with_reducible apply kept_ite2 | with_reducible apply kept_leaveFor
    | with_reducible apply kept_modUsLane | with_reducible exact rfl
    | refine kept_snd (by assumption) ?_ | split | dsimp only

theorem kept_actAssignPlot {m : FieldMsg} {i : Nat} (hk : Kept s₀ s) :
    Kept s₀ (actAssignPlot m i s).2 := by
  unfold actAssignPlot
  repeat' first
    | with_reducible assumption | with_reducible apply kept_ite2
    | with_reducible apply kept_addPlot | with_reducible apply kept_raise | dsimp only
    | with_reducible apply kept_act

theorem kept_actAssignLot {m : FieldMsg} {i : Nat} (hk : Kept s₀ s) :
    Kept s₀ (actAssignLot m i s).2 := by
  unfold actAssignLot
  repeat' first
    | with_reducible assumption | with_reducible apply kept_ite | with_reducible apply kept_ite2
    | with_reducible apply kept_raise | with_reducible apply kept_removeLot
    | with_reducible apply kept_supLook | with_reducible apply kept_lots

theorem kept_actSilence {m : FieldMsg} {i : Nat} (hk : Kept s₀ s) :
    Kept s₀ (actSilence m i s).2 := by
  unfold actSilence
  repeat' first
    | with_reducible assumption | with_reducible apply kept_leaveFor
    | with_reducible apply kept_modInst | with_reducible apply kept_raise
    | with_reducible apply kept_setAct | split

theorem kept_endSilence {i : Nat} {msg : Option Nat} (hk : Kept s₀ s) :
    Kept s₀ (endSilence i msg s) := by
  unfold endSilence
  repeat' first
    | with_reducible assumption | with_reducible apply kept_ite
    | with_reducible apply kept_actLost | with_reducible apply kept_modInst
    | with_reducible apply kept_setAct | with_reducible apply kept_toListen

theorem kept_tuneDone {i x : Nat} {result : Nat} {reverted : Bool} (hk : Kept s₀ s) :
    Kept s₀ (tuneDone i x result reverted s) := by
  unfold tuneDone
  repeat' first
    | with_reducible assumption | with_reducible apply kept_queueMsg

theorem kept_actTune {m : FieldMsg} {o : Optics} {i : Nat} (hk : Kept s₀ s) :
    Kept s₀ (actTune m o i s).2 := by
  unfold actTune
  repeat' first
    | with_reducible assumption | with_reducible exact fun _ h => h
    | with_reducible apply kept_ite2 | with_reducible apply kept_leaveFor
    | with_reducible apply kept_modInst | with_reducible apply kept_modUsLane
    | with_reducible apply kept_setAct | with_reducible apply kept_tuneDone

theorem kept_leaveTuning {i : Nat} {ok : Bool} (hk : Kept s₀ s) :
    Kept s₀ (leaveTuning i ok s) := by
  unfold leaveTuning
  repeat' first
    | with_reducible assumption | with_reducible apply kept_ite
    | with_reducible apply kept_actClear | with_reducible apply kept_actLost
    | with_reducible apply kept_modInst | with_reducible apply kept_raise
    | with_reducible apply kept_setAct | split | dsimp only

theorem kept_tuneFails {i : Nat} {r : BitVec 8} (hk : Kept s₀ s) :
    Kept s₀ (tuneFails i r s) := by
  unfold tuneFails
  repeat' first
    | with_reducible assumption | with_reducible exact fun _ h => h
    | with_reducible apply kept_ite | with_reducible apply kept_leaveTuning
    | with_reducible apply kept_modInst | with_reducible apply kept_modUsLane
    | with_reducible apply kept_raise

theorem kept_doDue {i : Nat} {w : ActDue} (hk : Kept s₀ s) :
    Kept s₀ (doDue i w s) := by
  unfold doDue
  repeat' first
    | with_reducible assumption | with_reducible exact fun _ h => h
    | with_reducible apply kept_ite | with_reducible apply kept_clearEqd
    | with_reducible apply kept_gateLook | with_reducible apply kept_modInst
    | with_reducible apply kept_modUsLane | with_reducible apply kept_setAct | split

theorem kept_runTodo {g : Nat} {sc : BitVec 48} {i : Nat} (hk : Kept s₀ s) :
    Kept s₀ (runTodo g sc i s) := by
  unfold runTodo
  repeat' first
    | with_reducible assumption | intro _ | with_reducible apply kept_doDue
    | with_reducible apply kept_each | with_reducible apply kept_modInst

/-! Operations of `LifeOps`. -/

theorem kept_accrue  (hk : Kept s₀ s) :
    Kept s₀ (accrue s) := by
  unfold accrue
  repeat' first
    | with_reducible assumption | with_reducible exact ⟨rfl, rfl, rfl, rfl⟩ | split | dsimp only
    | with_reducible apply kept_life

/-- Writing a record into its slot leaves the records themselves. -/
theorem writeSlot_records {r : Nat} {ms : List Bool} {l : Life} :
    (writeSlot r ms l).checkpoints = l.checkpoints ∧ (writeSlot r ms l).dayBins = l.dayBins ∧
    (writeSlot r ms l).gaps = l.gaps ∧ (writeSlot r ms l).marks = l.marks := by
  induction ms generalizing l with
  | nil => unfold writeSlot; split <;> exact ⟨rfl, rfl, rfl, rfl⟩
  | cons m ms ih =>
    unfold writeSlot
    split
    · exact ⟨rfl, rfl, rfl, rfl⟩
    · split
      · have e : ∀ k, (retireSlot r k l).checkpoints = l.checkpoints ∧
            (retireSlot r k l).dayBins = l.dayBins ∧ (retireSlot r k l).gaps = l.gaps ∧
            (retireSlot r k l).marks = l.marks := by
          intro k; unfold retireSlot; dsimp only; split <;> exact ⟨rfl, rfl, rfl, rfl⟩
        rename_i k _ _
        obtain ⟨e1, e2, e3, e4⟩ := e k
        obtain ⟨i1, i2, i3, i4⟩ := ih (l := retireSlot r k l)
        exact ⟨i1.trans e1, i2.trans e2, i3.trans e3, i4.trans e4⟩
      · exact ⟨rfl, rfl, rfl, rfl⟩

theorem ringCap_le {l : Life} {r : Nat} : ringCap l r ≤ ringSlots r := Nat.sub_le _ _

theorem kept_checkpoint {g : Bool} (h : Kept s₀ s) : Kept s₀ (checkpoint g s) := by
  unfold checkpoint
  dsimp only
  refine kept_ite h (keep_life (kept_accrue h) fun k => ?_)
  obtain ⟨-, e2, e3, e4⟩ := writeSlot_records (r := 0) (ms := (accrue s).life.misreads)
    (l := (accrue s).life)
  refine ⟨?_, ?_, ?_, ?_⟩
  · have := ringCap_le (l := putRecord 0 (accrue s).life) (r := 0)
    simp only [List.length_take, ringSlots, List.getD_cons_zero] at *; omega
  · dsimp only [putRecord]; rw [e2]; exact k.2.1
  · dsimp only [putRecord]; rw [e3]; exact k.2.2.1
  · dsimp only [putRecord]; rw [e4]; exact k.2.2.2

theorem kept_storeDay {b : Bin} (h : Kept s₀ s) : Kept s₀ (storeDay b s) := by
  unfold storeDay
  refine keep_life h fun k => ?_
  obtain ⟨e1, -, e3, e4⟩ := writeSlot_records (r := 1) (ms := s.life.misreads) (l := s.life)
  refine ⟨?_, ?_, ?_, ?_⟩
  · dsimp only [putRecord]; rw [e1]; exact k.1
  · have : ringCap (putRecord 1 s.life) 1 ≤ 32 := ringCap_le
    simp only [List.length_take]; omega
  · dsimp only [putRecord]; rw [e3]; exact k.2.2.1
  · dsimp only [putRecord]; rw [e4]; exact k.2.2.2

theorem kept_storeGap {b : Bytes} (h : Kept s₀ s) : Kept s₀ (storeGap b s) := by
  unfold storeGap
  refine keep_life h fun k => ?_
  obtain ⟨e1, e2, -, e4⟩ := writeSlot_records (r := 2) (ms := s.life.misreads) (l := s.life)
  refine ⟨?_, ?_, ?_, ?_⟩
  · dsimp only [putRecord]; rw [e1]; exact k.1
  · dsimp only [putRecord]; rw [e2]; exact k.2.1
  · have : ringCap (putRecord 2 s.life) 2 ≤ 1024 := ringCap_le
    simp only [List.length_take]; omega
  · dsimp only [putRecord]; rw [e4]; exact k.2.2.2

theorem kept_closeBin {day part step new : Bool} {s0 : State} {n : Nat} (h : Kept s₀ s) :
    Kept s₀ (closeBin day part step new s0 n s) := by
  unfold closeBin
  exact kept_ite (kept_storeDay (keep_sup h fun k => ⟨k.1, by simp only [List.length_take]; omega⟩))
    (kept_checkpoint (keep_sup h fun k => ⟨by simp only [List.length_take]; omega, k.2⟩))

theorem kept_binsLook  (hk : Kept s₀ s) :
    Kept s₀ (binsLook s) := by
  unfold binsLook
  repeat' first
    | with_reducible assumption | with_reducible exact fun _ h => h
    | with_reducible exact fun _ h => Bool.noConfusion h | intro _ | with_reducible apply kept_ite
    | with_reducible apply kept_ite2 | with_reducible apply kept_closeBin
    | with_reducible exact rfl | refine kept_snd (by assumption) ?_ | split | dsimp only
    | with_reducible apply kept_sup | with_reducible exact ⟨rfl, rfl⟩
    | with_reducible exact ⟨rfl, rfl⟩

theorem kept_binsStep {s0 : State} (hk : Kept s₀ s) :
    Kept s₀ (binsStep s0 s) := by
  unfold binsStep
  repeat' first
    | with_reducible assumption | with_reducible exact fun _ h => h
    | with_reducible exact fun _ h => Bool.noConfusion h | intro _ | with_reducible apply kept_ite
    | with_reducible apply kept_ite2 | with_reducible apply kept_closeBin
    | with_reducible exact rfl | refine kept_snd (by assumption) ?_ | split | dsimp only
    | with_reducible apply kept_sup | with_reducible exact ⟨rfl, rfl⟩

theorem kept_calendarResume {v : Int} (hk : Kept s₀ s) :
    Kept s₀ (calendarResume v s) := by
  unfold calendarResume
  repeat' first
    | with_reducible assumption | with_reducible apply kept_storeGap
    | with_reducible exact ⟨rfl, rfl, rfl, rfl⟩ | split | dsimp only
    | with_reducible apply kept_life

theorem kept_calendarLook  (hk : Kept s₀ s) :
    Kept s₀ (calendarLook s) := by
  unfold calendarLook
  repeat' first
    | with_reducible assumption | with_reducible apply kept_ite
    | with_reducible apply kept_calendarResume | split

/-! Operations of `Servo`. -/

theorem kept_setOffset {o : Int} (hk : Kept s₀ s) :
    Kept s₀ (setOffset o s) := by
  unfold setOffset
  repeat' first
    | with_reducible assumption | with_reducible exact rfl | dsimp only
    | with_reducible apply kept_time

theorem kept_outStepped  (hk : Kept s₀ s) :
    Kept s₀ (outStepped s) := by
  unfold outStepped
  repeat' first
    | with_reducible assumption | with_reducible apply kept_raise | with_reducible exact rfl
    | dsimp only | with_reducible apply kept_time

theorem kept_outTake  (hk : Kept s₀ s) :
    Kept s₀ (outTake s) := by
  unfold outTake
  repeat' first
    | with_reducible assumption | with_reducible apply kept_outStepped
    | with_reducible apply kept_setOffset | with_reducible exact rfl | dsimp only
    | with_reducible apply kept_time

theorem kept_outFollow {out : Option Int} (hk : Kept s₀ s) :
    Kept s₀ (outFollow out s) := by
  unfold outFollow
  repeat' first
    | with_reducible assumption | with_reducible apply kept_setOffset | with_reducible exact rfl
    | split | dsimp only | with_reducible apply kept_time

theorem kept_outRunOn {out : Option Int} {y : Int} (hk : Kept s₀ s) :
    Kept s₀ (outRunOn out y s) := by
  unfold outRunOn
  repeat' first
    | with_reducible assumption | with_reducible apply kept_setOffset | with_reducible exact rfl
    | split | dsimp only | with_reducible apply kept_time

theorem kept_timeLook  (hk : Kept s₀ s) :
    Kept s₀ (timeLook s) := by
  unfold timeLook
  repeat' first
    | with_reducible assumption | with_reducible apply kept_binsLook
    | with_reducible apply kept_calendarLook

theorem kept_selectDomain {d : Nat} {step : Bool} (hk : Kept s₀ s) :
    Kept s₀ (selectDomain d step s) := by
  unfold selectDomain
  repeat' first
    | with_reducible assumption | with_reducible exact fun _ h => h
    | with_reducible exact fun _ h => Bool.noConfusion h | intro _ | with_reducible apply kept_ite
    | with_reducible apply kept_ite2 | with_reducible apply kept_binsStep
    | with_reducible apply kept_outFollow | with_reducible apply kept_outRunOn
    | with_reducible apply kept_outTake | with_reducible apply kept_raise
    | with_reducible apply kept_timeLook | with_reducible exact rfl
    | refine kept_snd (by assumption) ?_ | split | dsimp only | with_reducible apply kept_time

theorem kept_autoSelect  (hk : Kept s₀ s) :
    Kept s₀ (autoSelect s) := by
  unfold autoSelect
  repeat' first
    | with_reducible assumption | with_reducible apply kept_ite
    | with_reducible apply kept_selectDomain

theorem kept_setServo {d : Nat} {dest : ServoState} (hk : Kept s₀ s) :
    Kept s₀ (setServo d dest s) := by
  unfold setServo
  repeat' first
    | with_reducible assumption | with_reducible apply kept_ite
    | with_reducible apply kept_modDom | with_reducible apply kept_raise

theorem kept_outJump {d : Nat} {delta : Int} (hk : Kept s₀ s) :
    Kept s₀ (outJump d delta s) := by
  unfold outJump
  repeat' first
    | with_reducible assumption | with_reducible apply kept_ite
    | with_reducible apply kept_setOffset

theorem kept_domStep {d : Nat} {e : Int} (hk : Kept s₀ s) :
    Kept s₀ (domStep d e s) := by
  unfold domStep
  repeat' first
    | with_reducible assumption | with_reducible apply kept_bump
    | with_reducible apply kept_modDom | with_reducible apply kept_outJump

theorem kept_leaveFreerun {d : Nat} {a : BitVec 64} {tod : Int} (hk : Kept s₀ s) :
    Kept s₀ (leaveFreerun d a tod s) := by
  unfold leaveFreerun
  repeat' first
    | with_reducible assumption | with_reducible exact fun _ h => h
    | with_reducible exact fun _ h => Bool.noConfusion h | intro _ | with_reducible apply kept_ite
    | with_reducible apply kept_ite2 | with_reducible apply kept_binsStep
    | with_reducible apply kept_modDom | with_reducible apply kept_outFollow
    | with_reducible apply kept_outTake | with_reducible apply kept_setOffset
    | with_reducible apply kept_setServo | with_reducible exact rfl
    | refine kept_snd (by assumption) ?_ | split | dsimp only

theorem kept_servoUpdate {d : Nat} {e : Int} {interval : Nat} (hk : Kept s₀ s) :
    Kept s₀ (servoUpdate d e interval s) := by
  unfold servoUpdate
  repeat' first
    | with_reducible assumption | with_reducible exact fun _ h => h
    | with_reducible exact fun _ h => Bool.noConfusion h | intro _ | with_reducible apply kept_ite
    | with_reducible apply kept_ite2 | with_reducible apply kept_modDom | with_reducible exact rfl
    | refine kept_snd (by assumption) ?_ | split | dsimp only

theorem kept_servoRecord {d : Nat} {a : BitVec 64} {tod : Int} {interval : Nat} (hk : Kept s₀ s) :
    Kept s₀ (servoRecord d a tod interval s) := by
  unfold servoRecord
  repeat' first
    | with_reducible assumption | with_reducible exact fun _ h => h
    | with_reducible exact fun _ h => Bool.noConfusion h | intro _ | with_reducible apply kept_ite
    | with_reducible apply kept_ite2 | with_reducible apply kept_autoSelect
    | with_reducible apply kept_domStep | with_reducible apply kept_leaveFreerun
    | with_reducible apply kept_modDom | with_reducible apply kept_servoUpdate
    | with_reducible apply kept_setServo | with_reducible apply kept_timeLook
    | with_reducible exact rfl | refine kept_snd (by assumption) ?_ | split | dsimp only

theorem kept_servoLose {d : Nat} (hk : Kept s₀ s) :
    Kept s₀ (servoLose d s) := by
  unfold servoLose
  repeat' first
    | with_reducible assumption | with_reducible apply kept_autoSelect
    | with_reducible apply kept_modDom | with_reducible apply kept_setServo
    | with_reducible apply kept_timeLook | split | dsimp only

theorem kept_domEnable {d : Nat} (hk : Kept s₀ s) :
    Kept s₀ (domEnable d s) := by
  unfold domEnable
  repeat' first
    | with_reducible assumption | with_reducible apply kept_modSupDom
    | with_reducible apply kept_setDomDefect | with_reducible apply kept_setServo

theorem kept_domDisable {d : Nat} (hk : Kept s₀ s) :
    Kept s₀ (domDisable d s) := by
  unfold domDisable
  repeat' first
    | with_reducible assumption | with_reducible apply kept_ite
    | with_reducible apply kept_autoSelect | with_reducible apply kept_modDom
    | with_reducible apply kept_modSupDom | with_reducible apply kept_outRunOn
    | with_reducible apply kept_setServo | with_reducible apply kept_supLook
    | with_reducible apply kept_timeLook

/-! Operations of `Time`. -/

theorem kept_putFit {d : Nat} {f : Fit} (hk : Kept s₀ s) :
    Kept s₀ (putFit d f s) := by
  unfold putFit
  repeat' first
    | with_reducible assumption | with_reducible apply kept_ite
    | with_reducible apply kept_raise | with_reducible exact rfl | dsimp only
    | with_reducible apply kept_time

theorem kept_fitLook {d : Nat} {window : Option (List FitMean × BitVec 48)} (hk : Kept s₀ s) :
    Kept s₀ (fitLook d window s) := by
  unfold fitLook
  repeat' first
    | with_reducible assumption | with_reducible exact fun _ h => h
    | with_reducible exact fun _ h => Bool.noConfusion h | intro _ | with_reducible apply kept_ite
    | with_reducible apply kept_ite2 | with_reducible apply kept_putFit | with_reducible exact rfl
    | refine kept_snd (by assumption) ?_ | split | dsimp only

theorem kept_fitAccumulate {g : Nat} {sc : BitVec 48} (hk : Kept s₀ s) :
    Kept s₀ (fitAccumulate g sc s) := by
  unfold fitAccumulate
  repeat' first
    | with_reducible assumption | with_reducible exact fun _ h => h
    | with_reducible exact fun _ h => Bool.noConfusion h | intro _ | with_reducible apply kept_ite
    | with_reducible apply kept_ite2 | with_reducible apply kept_each
    | with_reducible apply kept_each | with_reducible exact rfl
    | refine kept_snd (by assumption) ?_ | split | dsimp only | with_reducible apply kept_time

theorem kept_sowAccepted {d : Nat} (hk : Kept s₀ s) :
    Kept s₀ (sowAccepted d s) := by
  unfold sowAccepted
  repeat' first
    | with_reducible assumption | with_reducible apply kept_ite | with_reducible apply kept_bump
    | with_reducible apply kept_modSupDom | with_reducible apply kept_setDomDefect

theorem kept_sowUse {m : FieldMsg} {d : Nat} {free : Bool} (hk : Kept s₀ s) :
    Kept s₀ (sowUse m d free s) := by
  unfold sowUse
  repeat' first
    | with_reducible assumption | with_reducible apply kept_bump
    | with_reducible apply kept_fitLook | with_reducible apply kept_modDom
    | with_reducible apply kept_servoRecord | with_reducible exact rfl | split | dsimp only
    | with_reducible apply kept_time

theorem kept_sowDomain {m : FieldMsg} {d : Nat} (hk : Kept s₀ s) :
    Kept s₀ (sowDomain m d s).2 := by
  unfold sowDomain
  repeat' first
    | with_reducible assumption | with_reducible exact fun _ h => h
    | with_reducible exact fun _ h => Bool.noConfusion h | intro _ | with_reducible apply kept_ite
    | with_reducible apply kept_ite2 | with_reducible apply kept_bump
    | with_reducible apply kept_modSupDom | with_reducible apply kept_servoLose
    | with_reducible apply kept_setDomDefect | with_reducible apply kept_sowAccepted
    | with_reducible apply kept_sowUse | with_reducible exact rfl
    | refine kept_snd (by assumption) ?_ | split | dsimp only

theorem kept_actSow {m : FieldMsg} {i : Nat} (hk : Kept s₀ s) :
    Kept s₀ (actSow m i s).2 := by
  unfold actSow
  repeat' first
    | with_reducible assumption | intro _ | with_reducible apply kept_ite2
    | with_reducible apply kept_bump | with_reducible apply kept_sowDomain
    | with_reducible apply kept_foldl

/-! Operations of `Boundary`. -/

theorem kept_rejoinLanes {g : Nat} {sc : BitVec 48} (hk : Kept s₀ s) :
    Kept s₀ (rejoinLanes g sc s) := by
  unfold rejoinLanes
  repeat' first
    | with_reducible assumption | with_reducible exact fun _ h => h
    | with_reducible exact fun _ h => Bool.noConfusion h | intro _ | with_reducible apply kept_ite
    | with_reducible apply kept_ite2 | with_reducible apply kept_each
    | with_reducible apply kept_each | with_reducible apply kept_includeLane
    | with_reducible exact rfl | refine kept_snd (by assumption) ?_ | split | dsimp only

theorem kept_recordPrimary {g : Nat} {sc : BitVec 48} (hk : Kept s₀ s) :
    Kept s₀ (recordPrimary g sc s) := by
  unfold recordPrimary
  repeat' first
    | with_reducible assumption | with_reducible exact fun _ h => h
    | with_reducible exact fun _ h => Bool.noConfusion h | intro _ | with_reducible apply kept_ite
    | with_reducible apply kept_ite2 | with_reducible apply kept_bump
    | with_reducible apply kept_modGroup | with_reducible apply kept_priConflict
    | with_reducible exact rfl | refine kept_snd (by assumption) ?_ | split | dsimp only

theorem kept_reasmBoundary {g : Nat} (hk : Kept s₀ s) :
    Kept s₀ (reasmBoundary g s) := by
  unfold reasmBoundary
  repeat' first
    | with_reducible assumption | with_reducible exact fun _ h => h
    | with_reducible exact fun _ h => Bool.noConfusion h | intro _ | with_reducible apply kept_ite
    | with_reducible apply kept_ite2 | with_reducible apply kept_modGroup
    | with_reducible exact rfl | refine kept_snd (by assumption) ?_ | split | dsimp only
    | with_reducible apply kept_reasm

theorem kept_foldEqd {i : Nat} {sc : BitVec 48} (hk : Kept s₀ s) :
    Kept s₀ (foldEqd i sc s) := by
  unfold foldEqd
  repeat' first
    | with_reducible assumption | with_reducible exact fun _ h => h
    | with_reducible exact fun _ h => Bool.noConfusion h | intro _ | with_reducible apply kept_ite
    | with_reducible apply kept_ite2 | with_reducible apply kept_each
    | with_reducible apply kept_each | with_reducible apply kept_modUsLane
    | with_reducible exact rfl | refine kept_snd (by assumption) ?_ | split | dsimp only

theorem kept_tagForm {i : Nat} (hk : Kept s₀ s) :
    Kept s₀ (tagForm i s) := by
  unfold tagForm
  repeat' first
    | with_reducible assumption | with_reducible exact fun _ h => h
    | with_reducible exact fun _ h => Bool.noConfusion h | intro _ | with_reducible apply kept_ite
    | with_reducible apply kept_ite2 | with_reducible apply kept_modInst | with_reducible exact rfl
    | refine kept_snd (by assumption) ?_ | split | dsimp only

theorem kept_dropPartSent  (hk : Kept s₀ s) :
    Kept s₀ (dropPartSent s) := by
  unfold dropPartSent
  repeat' first
    | with_reducible assumption | intro _ | with_reducible apply kept_ite
    | with_reducible apply kept_bump | with_reducible apply kept_dropHead
    | with_reducible apply kept_each | split

theorem kept_switchParent {t : Nat} (hk : Kept s₀ s) :
    Kept s₀ (switchParent t s) := by
  unfold switchParent
  repeat' first
    | with_reducible assumption | with_reducible apply kept_bump
    | with_reducible apply kept_dropPartSent | with_reducible apply kept_lockLook
    | with_reducible apply kept_raise | with_reducible apply kept_selectDomain
    | with_reducible apply kept_supLook | dsimp only | with_reducible apply kept_act

theorem kept_boundaryOps {g : Nat} {sc : BitVec 48} (hk : Kept s₀ s) :
    Kept s₀ (boundaryOps g sc s) := by
  unfold boundaryOps
  repeat' first
    | with_reducible assumption | with_reducible exact fun _ h => h
    | with_reducible exact fun _ h => Bool.noConfusion h | intro _ | with_reducible apply kept_ite
    | with_reducible apply kept_ite2 | with_reducible apply kept_fitAccumulate
    | with_reducible apply kept_foldEqd | with_reducible apply kept_modGroup
    | with_reducible apply kept_reasmBoundary | with_reducible apply kept_recordPrimary
    | with_reducible apply kept_refLook | with_reducible apply kept_runTodo
    | with_reducible apply kept_switchParent | with_reducible apply kept_tagForm
    | with_reducible exact rfl | refine kept_snd (by assumption) ?_
    | with_reducible apply kept_rejoinLanes | split | dsimp only

end Sys2Proof.Machine
end

