-- ==== Sys2Proof/Laws/KeptPkt.lean ====
section
/-! SUPPORT. What each operation keeps (`Kept`): ports, PTP, the classifier, tines, keys. -/
-- One list of alternatives serves every lemma below; not every lemma uses each of them.
set_option linter.unusedTactic false
set_option linter.unreachableTactic false
namespace Sys2Proof.Machine
variable {s₀ s t : State}

/-! Operations of `Pmc`. -/

theorem kept_putThread {h t n : Nat} {x : Thread} (hk : Kept s₀ s) :
    Kept s₀ (putThread h t n x s) := by
  unfold putThread
  repeat' first
    | with_reducible assumption | with_reducible exact ⟨rfl, rfl, rfl, rfl⟩ | dsimp only
    | with_reducible apply kept_tine

theorem kept_modThread {h t n : Nat} {f : Thread → Thread} (hk : Kept s₀ s) :
    Kept s₀ (modThread h t n f s) := by
  unfold modThread
  repeat' first
    | with_reducible assumption | with_reducible apply kept_putThread

theorem kept_modPmc {h t : Nat} {f : Pmc → Pmc} (hk : Kept s₀ s) :
    Kept s₀ (modPmc h t f s) := by
  unfold modPmc
  repeat' first
    | with_reducible assumption | with_reducible exact ⟨rfl, rfl, rfl, rfl⟩ | dsimp only
    | with_reducible apply kept_tine

theorem kept_pmcWrap {h t : Nat} {mask : BitVec 6} (hk : Kept s₀ s) :
    Kept s₀ (pmcWrap h t mask s) := by
  unfold pmcWrap
  repeat' first
    | with_reducible assumption | with_reducible apply kept_ite
    | with_reducible apply kept_modPmc | with_reducible apply kept_raise

theorem kept_pmcCycle {h t : Nat} {issue : Option (Nat × List Nat)} (hk : Kept s₀ s) :
    Kept s₀ (pmcCycle h t issue s) := by
  unfold pmcCycle
  repeat' first
    | with_reducible assumption | with_reducible exact fun _ h => h
    | with_reducible exact fun _ h => Bool.noConfusion h | intro _ | with_reducible apply kept_ite
    | with_reducible apply kept_ite2 | with_reducible apply kept_modPmc
    | with_reducible apply kept_pmcWrap | with_reducible exact rfl
    | refine kept_snd (by assumption) ?_ | split | dsimp only

theorem kept_stallCycle {h t : Nat} (hk : Kept s₀ s) :
    Kept s₀ (stallCycle h t s) := by
  unfold stallCycle
  repeat' first
    | with_reducible assumption | intro _ | with_reducible apply kept_ite
    | with_reducible apply kept_each | with_reducible apply kept_modThread

theorem kept_tineCycle {h t : Nat} {issue : Option (Nat × List Nat)} (hk : Kept s₀ s) :
    Kept s₀ (tineCycle h t issue s) := by
  unfold tineCycle
  repeat' first
    | with_reducible assumption | with_reducible exact fun _ h => h
    | with_reducible exact fun _ h => Bool.noConfusion h | intro _ | with_reducible apply kept_ite
    | with_reducible apply kept_ite2 | with_reducible apply kept_pmcCycle
    | with_reducible apply kept_stallCycle | with_reducible exact rfl
    | refine kept_snd (by assumption) ?_ | with_reducible apply kept_each | split | dsimp only

theorem kept_issueCycle {h t n : Nat} {events : List Nat} (hk : Kept s₀ s) :
    Kept s₀ (issueCycle h t n events s) := by
  unfold issueCycle
  repeat' first
    | with_reducible assumption | with_reducible exact fun _ h => h
    | with_reducible exact fun _ h => Bool.noConfusion h | intro _ | with_reducible apply kept_ite
    | with_reducible apply kept_ite2 | with_reducible apply kept_modPmc
    | with_reducible apply kept_tineCycle | with_reducible exact rfl
    | refine kept_snd (by assumption) ?_ | split | dsimp only

theorem kept_pmcInstant {h t n e : Nat} (hk : Kept s₀ s) :
    Kept s₀ (pmcInstant h t n e s) := by
  unfold pmcInstant
  repeat' first
    | with_reducible assumption | intro _ | with_reducible apply kept_ite
    | with_reducible apply kept_each | with_reducible apply kept_modPmc
    | with_reducible apply kept_pmcWrap

theorem kept_coulterStall  (hk : Kept s₀ s) :
    Kept s₀ (coulterStall s) := by
  unfold coulterStall
  repeat' first
    | with_reducible assumption | with_reducible exact fun _ h => h
    | with_reducible exact fun _ h => Bool.noConfusion h | intro _ | with_reducible apply kept_ite
    | with_reducible apply kept_ite2 | with_reducible apply kept_bump | with_reducible exact rfl
    | refine kept_snd (by assumption) ?_ | split | dsimp only

theorem kept_coreCycle  (hk : Kept s₀ s) :
    Kept s₀ (coreCycle s) := by
  unfold coreCycle
  repeat' first
    | with_reducible assumption | with_reducible exact fun _ h => h
    | with_reducible exact fun _ h => Bool.noConfusion h | intro _ | with_reducible apply kept_ite
    | with_reducible apply kept_ite2 | with_reducible apply kept_each
    | with_reducible apply kept_coulterStall | with_reducible apply kept_each
    | with_reducible apply kept_tineCycle | with_reducible exact rfl
    | refine kept_snd (by assumption) ?_ | split | dsimp only | with_reducible apply kept_tine
    | with_reducible exact ⟨rfl, rfl, rfl, rfl⟩ | with_reducible exact ⟨rfl, rfl, rfl, rfl⟩

theorem kept_modSamp {h : Nat} {f : Samp → Samp} (hk : Kept s₀ s) :
    Kept s₀ (modSamp h f s) := by
  unfold modSamp
  repeat' first
    | with_reducible assumption | with_reducible exact ⟨rfl, rfl, rfl, rfl⟩ | dsimp only
    | with_reducible apply kept_tine

theorem kept_drawCountdown {h t : Nat} (hk : Kept s₀ s) :
    Kept s₀ (drawCountdown h t s) := by
  unfold drawCountdown
  repeat' first
    | with_reducible assumption | with_reducible apply kept_drawn
    | with_reducible apply kept_modSamp

theorem kept_countdownZero {h t : Nat} (hk : Kept s₀ s) :
    Kept s₀ (countdownZero h t s) := by
  unfold countdownZero
  repeat' first
    | with_reducible assumption | with_reducible apply kept_ite | with_reducible apply kept_bump
    | with_reducible apply kept_drawCountdown | with_reducible apply kept_modSamp

theorem kept_sampIssue {h t n op : Nat} (hk : Kept s₀ s) :
    Kept s₀ (sampIssue h t n op s).2 := by
  unfold sampIssue
  repeat' first
    | with_reducible assumption | with_reducible apply kept_ite | with_reducible apply kept_ite2
    | with_reducible apply kept_countdownZero | with_reducible apply kept_drawCountdown
    | with_reducible apply kept_modSamp

theorem kept_sampFullLook {h : Nat} (hk : Kept s₀ s) :
    Kept s₀ (sampFullLook h s) := by
  unfold sampFullLook
  repeat' first
    | with_reducible assumption | with_reducible exact fun _ h => h
    | with_reducible exact fun _ h => Bool.noConfusion h | intro _ | with_reducible apply kept_ite
    | with_reducible apply kept_ite2 | with_reducible apply kept_modSamp
    | with_reducible apply kept_raise | with_reducible exact rfl
    | refine kept_snd (by assumption) ?_ | split | dsimp only

theorem kept_sampRecord {h t n prog : Nat} {g : Tagged} {taken faulted ended service : Bool}
    {cost : Option Nat} (hk : Kept s₀ s) :
    Kept s₀ (sampRecord h t n prog g taken faulted ended service cost s) := by
  unfold sampRecord
  repeat' first
    | with_reducible assumption | with_reducible exact fun _ h => h
    | with_reducible exact fun _ h => Bool.noConfusion h | intro _ | with_reducible apply kept_ite
    | with_reducible apply kept_ite2 | with_reducible apply kept_bump
    | with_reducible apply kept_drawn | with_reducible apply kept_modSamp
    | with_reducible apply kept_raise | with_reducible apply kept_sampFullLook
    | with_reducible exact rfl | refine kept_snd (by assumption) ?_ | split | dsimp only

/-! Operations of `Coulter`. -/

theorem kept_countWalk {stop : Nat} {vec : BitVec 64} (hk : Kept s₀ s) :
    Kept s₀ (countWalk stop vec s) := by
  unfold countWalk
  repeat' first
    | with_reducible assumption | intro _ | with_reducible apply kept_ite
    | with_reducible apply kept_bump | with_reducible apply kept_each | split

/-! Operations of `PtpOps`. -/

theorem kept_claimFrame {p : Nat} {b : Bytes} {capture : BitVec 64}
    (e : claimFrame p b capture s = some t) (h : Kept s₀ s) : Kept s₀ t := by
  unfold claimFrame at e
  dsimp only at e
  repeat' split at e
  all_goals first
    | (cases e; done)
    | (cases e; with_reducible exact kept_modPort h)
    | (cases e; with_reducible exact kept_bump h)

theorem kept_pointDistance {p : Nat} (hk : Kept s₀ s) :
    Kept s₀ (pointDistance s p).2 := by
  unfold pointDistance
  repeat' first
    | with_reducible assumption | with_reducible exact fun _ h => h
    | with_reducible exact fun _ h => Bool.noConfusion h | intro _ | with_reducible apply kept_ite
    | with_reducible apply kept_ite2 | with_reducible apply kept_drawn | with_reducible exact rfl
    | refine kept_snd (by assumption) ?_ | split | dsimp only

theorem kept_takeStamp {p : Nat} {src : Option Nat} {t : BitVec 64} (hk : Kept s₀ s) :
    Kept s₀ (takeStamp p src t s).2 := by
  unfold takeStamp
  repeat' first
    | with_reducible assumption | with_reducible apply kept_pointDistance

theorem kept_takeSeq {p : Nat} {b : Bool} {ty : Nat} {ip : Option (BitVec 128)} (hk : Kept s₀ s) :
    Kept s₀ (takeSeq p b ty ip s).2 := by
  unfold takeSeq
  repeat' first
    | with_reducible assumption | with_reducible apply kept_modPort

theorem kept_queueTime {p : Nat} {m : TimeMsg} (hk : Kept s₀ s) :
    Kept s₀ (queueTime p m s) := by
  unfold queueTime
  repeat' first
    | with_reducible assumption | with_reducible apply kept_modPort

/-! Operations of `Ports`. -/

theorem kept_linkUpLook {p : Nat} (hk : Kept s₀ s) :
    Kept s₀ (linkUpLook p s) := by
  unfold linkUpLook
  repeat' first
    | with_reducible assumption | with_reducible apply kept_ite
    | with_reducible apply kept_setLink

theorem kept_modSLane {l : Nat} {f : SLane → SLane} (hk : Kept s₀ s) :
    Kept s₀ (modSLane l f s) := by
  unfold modSLane
  repeat' first
    | with_reducible assumption | with_reducible apply kept_slanes

theorem kept_rxCapture {capture : BitVec 64} (hk : Kept s₀ s) :
    Kept s₀ (rxCapture capture s).2 := by
  unfold rxCapture
  repeat' first
    | with_reducible assumption | with_reducible exact fun _ h => h
    | with_reducible exact fun _ h => Bool.noConfusion h | intro _ | with_reducible apply kept_ite
    | with_reducible apply kept_ite2 | with_reducible apply kept_drawn | with_reducible exact rfl
    | refine kept_snd (by assumption) ?_ | split | dsimp only

theorem kept_startPause {p n : Nat} (hk : Kept s₀ s) :
    Kept s₀ (startPause p n s) := by
  unfold startPause
  repeat' first
    | with_reducible assumption | with_reducible exact fun _ h => h
    | with_reducible exact fun _ h => Bool.noConfusion h | intro _ | with_reducible apply kept_ite
    | with_reducible apply kept_ite2 | with_reducible apply kept_modPort | with_reducible exact rfl
    | refine kept_snd (by assumption) ?_ | split | dsimp only

theorem kept_takePause {p n : Nat} (hk : Kept s₀ s) :
    Kept s₀ (takePause p n s) := by
  unfold takePause
  repeat' first
    | with_reducible assumption | with_reducible exact fun _ h => h
    | with_reducible exact fun _ h => Bool.noConfusion h | intro _ | with_reducible apply kept_ite
    | with_reducible apply kept_ite2 | with_reducible apply kept_modPort
    | with_reducible apply kept_startPause | with_reducible exact rfl
    | refine kept_snd (by assumption) ?_ | split | dsimp only

theorem kept_rxRelease {r : RxState} (hk : Kept s₀ s) :
    Kept s₀ (rxRelease r s) := by
  unfold rxRelease
  repeat' first
    | with_reducible assumption | with_reducible apply kept_freeBushels

theorem kept_filterFrame {p : Nat} {r : RxState} {b : Bytes} (hk : Kept s₀ s) :
    Kept s₀ (filterFrame p r b s) := by
  unfold filterFrame
  repeat' first
    | with_reducible assumption | with_reducible exact fun _ h => h
    | with_reducible exact fun _ h => Bool.noConfusion h | intro _ | with_reducible apply kept_ite
    | with_reducible apply kept_ite2 | with_reducible apply kept_bump
    | with_reducible apply kept_rxRelease | with_reducible exact rfl
    | refine kept_snd (by assumption) ?_ | split | dsimp only | with_reducible apply kept_inQ

theorem kept_acceptFrame {p : Nat} {r : RxState} {b : Bytes} (hk : Kept s₀ s) :
    Kept s₀ (acceptFrame p r b s) := by
  unfold acceptFrame
  repeat' first
    | with_reducible assumption | with_reducible apply kept_ite | with_reducible apply kept_bump
    | with_reducible apply kept_filterFrame | with_reducible apply kept_rxRelease
    | with_reducible apply kept_takePause | refine kept_claimFrame (by assumption) ?_ | split
    | dsimp only

theorem kept_rxNoted {port : Nat} {frame : RxFrame} (hk : Kept s₀ s) :
    Kept s₀ (rxNoted port frame s) := by
  unfold rxNoted
  repeat' first
    | with_reducible assumption | with_reducible exact fun _ h => h
    | with_reducible exact fun _ h => Bool.noConfusion h | intro _ | with_reducible apply kept_ite
    | with_reducible apply kept_ite2 | with_reducible apply kept_bump
    | with_reducible apply kept_modPort | with_reducible exact rfl
    | refine kept_snd (by assumption) ?_ | split | dsimp only

theorem kept_rxTaken {port : Nat} {frame : RxFrame} {r0 : RxState} (hk : Kept s₀ s) :
    Kept s₀ (rxTaken port frame r0 s).2 := by
  unfold rxTaken
  repeat' first
    | with_reducible assumption | with_reducible exact fun _ h => h
    | with_reducible exact fun _ h => Bool.noConfusion h | intro _ | with_reducible apply kept_ite
    | with_reducible apply kept_ite2 | with_reducible apply kept_bump
    | with_reducible apply kept_freeBushels | with_reducible apply kept_modPort
    | with_reducible apply kept_rxBushels | with_reducible exact rfl
    | refine kept_snd (by assumption) ?_ | split | dsimp only

theorem kept_startTimeMsg {p : Nat} {m : TimeMsg} (hk : Kept s₀ s) :
    Kept s₀ (startTimeMsg p m s) := by
  unfold startTimeMsg
  repeat' first
    | with_reducible assumption | with_reducible exact fun _ h => h
    | with_reducible exact fun _ h => Bool.noConfusion h | intro _ | with_reducible apply kept_ite
    | with_reducible apply kept_ite2 | with_reducible apply kept_modPort
    | with_reducible apply kept_takeStamp | with_reducible exact rfl
    | refine kept_snd (by assumption) ?_ | split | dsimp only

theorem kept_startTime {p : Nat} (hk : Kept s₀ s) :
    Kept s₀ (startTime p s) := by
  unfold startTime
  repeat' first
    | with_reducible assumption | with_reducible exact fun _ h => h
    | with_reducible exact fun _ h => Bool.noConfusion h | intro _ | with_reducible apply kept_ite
    | with_reducible apply kept_ite2 | with_reducible apply kept_modPort
    | with_reducible apply kept_startTimeMsg | with_reducible exact rfl
    | refine kept_snd (by assumption) ?_ | split | dsimp only

theorem kept_sendTime {p : Nat} {m : TimeMsg} (hk : Kept s₀ s) :
    Kept s₀ (sendTime p m s) := by
  unfold sendTime
  repeat' first
    | with_reducible assumption | with_reducible apply kept_ite
    | with_reducible apply kept_queueTime | with_reducible apply kept_startTime

theorem kept_dropNext {p q : Nat} (hk : Kept s₀ s) :
    Kept s₀ (dropNext p q s) := by
  unfold dropNext
  repeat' first
    | with_reducible assumption | with_reducible exact fun _ h => h
    | with_reducible exact fun _ h => Bool.noConfusion h | intro _ | with_reducible apply kept_ite
    | with_reducible apply kept_ite2 | with_reducible apply kept_dropHead
    | with_reducible apply kept_modDs | with_reducible exact rfl
    | refine kept_snd (by assumption) ?_ | split | dsimp only

theorem kept_dropBad {p q n : Nat} (h : Kept s₀ s) : Kept s₀ (dropBad p q n s) := by
  induction n generalizing s with
  | zero => exact h
  | succ n ih =>
    unfold dropBad
    repeat' first
    | with_reducible assumption | apply ih | with_reducible apply kept_bump
    | with_reducible apply kept_dropNext | split

theorem kept_startHead {p q : Nat} (hk : Kept s₀ s) :
    Kept s₀ (startHead p q s) := by
  unfold startHead
  repeat' first
    | with_reducible assumption | with_reducible apply kept_ite | with_reducible apply kept_bump
    | with_reducible apply kept_modDs | with_reducible apply kept_modPort | split

theorem kept_countSent {p : Nat} {t : TxNow} (hk : Kept s₀ s) :
    Kept s₀ (countSent p t s) := by
  unfold countSent
  repeat' first
    | with_reducible assumption | with_reducible apply kept_ite | with_reducible apply kept_bump
    | split

/-! Operations of `Tables`. -/

theorem kept_linkEmitted {e : Emitted} (hk : Kept s₀ s) :
    Kept s₀ (linkEmitted e s) := by
  unfold linkEmitted
  repeat' first
    | with_reducible assumption | with_reducible apply kept_ite | with_reducible apply kept_bump
    | with_reducible apply kept_enqueue | with_reducible apply kept_freeBushels
    | with_reducible apply kept_genLeave | with_reducible apply kept_portFlushLook

theorem kept_orderRun {n : Nat} (h : Kept s₀ s) : Kept s₀ (orderRun n s) := by
  induction n generalizing s with
  | zero => exact h
  | succ n ih =>
    unfold orderRun
    split
    · exact h
    · exact ih (kept_linkEmitted (kept_tine h ⟨rfl, rfl, rfl, rfl⟩))

theorem kept_orderLook  (hk : Kept s₀ s) :
    Kept s₀ (orderLook s) := by
  unfold orderLook
  repeat' first
    | with_reducible assumption | with_reducible apply kept_orderRun

theorem kept_orderLeave {id : Nat} (hk : Kept s₀ s) :
    Kept s₀ (orderLeave id s) := by
  unfold orderLeave
  repeat' first
    | with_reducible assumption | with_reducible apply kept_orderLook
    | with_reducible exact ⟨rfl, rfl, rfl, rfl⟩ | dsimp only | with_reducible apply kept_tine

theorem kept_discardPkt {p : Pkt} (hk : Kept s₀ s) :
    Kept s₀ (discardPkt p s) := by
  unfold discardPkt
  repeat' first
    | with_reducible assumption | with_reducible apply kept_freeBushels
    | with_reducible apply kept_genLeave | with_reducible apply kept_orderLeave

theorem kept_countResult {k len : Nat} (hk : Kept s₀ s) :
    Kept s₀ (countResult k len s) := by
  unfold countResult
  repeat' first
    | with_reducible assumption | with_reducible apply kept_modCls

theorem kept_meterPacket {m : Nat} {p : Pkt} {b : Bytes} {colour len : Nat} (hk : Kept s₀ s) :
    Kept s₀ (meterPacket m p b colour len s).2 := by
  unfold meterPacket
  repeat' first
    | with_reducible assumption | with_reducible apply kept_meterOp
    | refine kept_snd (by assumption) ?_ | split

theorem kept_ternLookup {g : BitVec 8} {key : Bytes} (hk : Kept s₀ s) :
    Kept s₀ (ternLookup g key s).2 := by
  unfold ternLookup
  repeat' first
    | with_reducible assumption | with_reducible apply kept_bump | split

theorem kept_emFound {g : BitVec 8} {profile : Nat} {k : BitVec 128} {len : Nat}
    {bad : List EmLoc} (hk : Kept s₀ s) :
    Kept s₀ (emFound g profile k len bad s).2 := by
  unfold emFound
  repeat' first
    | with_reducible assumption | with_reducible apply kept_bump
    | with_reducible apply kept_modCls | split

theorem kept_emLookupOp {g : BitVec 8} {profile : Nat} {k : BitVec 128} {len : Nat}
    {ecc : List (Bool × Bool)} (h : Kept s₀ s) :
    Kept s₀ (emLookupOp g profile k len ecc s).2 := by
  unfold emLookupOp
  exact kept_emFound (kept_each (fun _ _ k => kept_raise (kept_bump (kept_modCls k))) (kept_bump h))

theorem kept_applyResult {w : Walked} {r : Nat} (hk : Kept s₀ s) :
    Kept s₀ (applyResult w r s) := by
  unfold applyResult
  repeat' first
    | with_reducible assumption | with_reducible apply kept_ite | with_reducible apply kept_ite2
    | with_reducible apply kept_countResult | with_reducible apply kept_meterPacket
    | with_reducible apply kept_modCls

theorem kept_takePlace {p : Pkt} (hk : Kept s₀ s) :
    Kept s₀ (takePlace p s).2 := by
  unfold takePlace
  repeat' first
    | with_reducible assumption | with_reducible apply kept_modCls
    | with_reducible exact ⟨rfl, rfl, rfl, rfl⟩ | dsimp only | with_reducible apply kept_tine

theorem kept_walkTaken {p : Pkt} (hk : Kept s₀ s) :
    Kept s₀ (walkTaken p s) := by
  unfold walkTaken
  repeat' first
    | with_reducible assumption | with_reducible exact fun _ h => h
    | with_reducible exact fun _ h => Bool.noConfusion h | intro _ | with_reducible apply kept_ite
    | with_reducible apply kept_ite2 | with_reducible apply kept_applyResult
    | with_reducible apply kept_bump | with_reducible apply kept_countWalk
    | with_reducible apply kept_discardPkt | with_reducible apply kept_modCls
    | with_reducible apply kept_ternLookup | with_reducible exact rfl
    | refine kept_snd (by assumption) ?_ | split | dsimp only

theorem kept_heldCommitDue {w : Held} (hk : Kept s₀ s) :
    Kept s₀ (heldCommitDue w s) := by
  unfold heldCommitDue
  repeat' first
    | with_reducible assumption | with_reducible exact fun _ h => h
    | with_reducible exact fun _ h => Bool.noConfusion h | intro _ | with_reducible apply kept_ite
    | with_reducible apply kept_ite2 | with_reducible exact rfl
    | refine kept_snd (by assumption) ?_ | split | dsimp only | with_reducible apply kept_pair

/-! Operations of `Tine`. -/

theorem kept_modTine {f : Tine → Tine} (h : Kept s₀ s)
    (e : (f s.tine).scratch = s.tine.scratch ∧ (f s.tine).sram = s.tine.sram ∧
      (f s.tine).trapQ = s.tine.trapQ ∧ (f s.tine).faultLog = s.tine.faultLog) :
    Kept s₀ (modTine f s) := kept_tine h e

theorem kept_modProg {p : Nat} {f : Prog → Prog} (hk : Kept s₀ s) :
    Kept s₀ (modProg p f s) := by
  unfold modProg
  repeat' first
    | with_reducible assumption | with_reducible apply kept_modTine
    | with_reducible exact ⟨rfl, rfl, rfl, rfl⟩

theorem kept_gateHarrow {h : Nat} (hk : Kept s₀ s) :
    Kept s₀ (gateHarrow h s) := by
  unfold gateHarrow
  repeat' first
    | with_reducible assumption | with_reducible apply kept_ite
    | with_reducible apply kept_modPwr | with_reducible apply kept_modTine
    | with_reducible exact rfl | with_reducible exact ⟨rfl, rfl, rfl, rfl⟩

theorem kept_freeThread {h t n : Nat} (hk : Kept s₀ s) :
    Kept s₀ (freeThread h t n s) := by
  unfold freeThread
  repeat' first
    | with_reducible assumption | with_reducible apply kept_gateHarrow
    | with_reducible apply kept_modThread

theorem kept_logFault {h t n : Nat} {x : Thread} {code : Nat} {addr : Option Nat}
    (hk : Kept s₀ s) : Kept s₀ (logFault h t n x code addr s) := by
  have h1 (u : State) (hu : Kept s₀ u) (r : Bytes) : Kept s₀ (modTine (fun t => { t with
      faultLog := (if decide (64 ≤ u.tine.faultLog.length) = true then t.faultLog.drop 1
        else t.faultLog) ++ [r] }) u) :=
    keep_tine hu id fun k => ⟨k.1, by
      simp only [decide_eq_true_eq]
      split <;> simp only [List.length_append, List.length_drop, List.length_singleton] <;> omega⟩
  have h2 : Kept s₀ (if addr.isSome = true then s else drawn s) := kept_ite hk (kept_drawn hk)
  exact kept_ite (kept_bump (h1 _ h2 _)) (h1 _ h2 _)

theorem kept_faultEvent {prog code : Nat} (hk : Kept s₀ s) :
    Kept s₀ (faultEvent prog code s) := by
  unfold faultEvent
  repeat' first
    | with_reducible assumption | with_reducible apply kept_ite
    | with_reducible apply kept_modTine | with_reducible apply kept_raise
    | with_reducible exact ⟨rfl, rfl, rfl, rfl⟩

theorem kept_faultPass {h t n : Nat} {x : Thread} {code : Nat} {addr : Option Nat}
    (hk : Kept s₀ s) :
    Kept s₀ (faultPass h t n x code addr s) := by
  unfold faultPass
  repeat' first
    | with_reducible assumption | with_reducible apply kept_bump
    | with_reducible apply kept_discardPkt | with_reducible apply kept_faultEvent
    | with_reducible apply kept_logFault | with_reducible apply kept_modProg | split

theorem kept_noteScratch {k : Nat} {word : Option Nat} (hk : Kept s₀ s) :
    Kept s₀ (noteScratch k word s) := by
  unfold noteScratch
  split
  · exact hk
  · exact kept_modTine hk ⟨rfl, rfl, rfl, rfl⟩

/-- A result of an instruction leaves a state that is kept. -/
def ResKept (s₀ : State) : TRes → Prop
  | .fault _ _ => True
  | .ok _ s _ => Kept s₀ s
  | .wait _ s => Kept s₀ s
  | .stop _ s => Kept s₀ s

theorem res_ite {c : Prop} [Decidable c] {p q : TRes} (hp : ResKept s₀ p) (hq : ResKept s₀ q) :
    ResKept s₀ (if c then p else q) := by split <;> assumption

theorem res_eq {p q : TRes} (e : p = q) (h : ResKept s₀ p) : ResKept s₀ q := e ▸ h

theorem res_ok {x : Thread} {w : Bool} (h : Kept s₀ s) : ResKept s₀ (.ok x s w) := h
theorem res_wait {x : Thread} (h : Kept s₀ s) : ResKept s₀ (.wait x s) := h
theorem res_stop {n : Nat} (h : Kept s₀ s) : ResKept s₀ (.stop n s) := h
theorem res_done {x : Thread} (h : Kept s₀ s) : ResKept s₀ (tDone x s) := h
theorem res_fault {n : Nat} {o : Option Nat} : ResKept s₀ (.fault n o) := trivial

/-- Bytes put into scratch. -/
theorem kept_putScratch {a : Nat} {b : Bytes} (h : Kept s₀ s) : Kept s₀ (modTine (fun t =>
    { t with scratch := tabPut 0 t.scratch a b }) s) :=
  keep_tine h (fun k => ⟨tabWf_put _ _ k.1, k.2⟩) id

/-- Bytes put into the program region. -/
theorem kept_putSram {a : Nat} {b : Bytes} (h : Kept s₀ s) : Kept s₀ (modTine (fun t =>
    { t with sram := tabPut 0 t.sram a b }) s) :=
  keep_tine h (fun k => ⟨k.1, tabWf_put _ _ k.2⟩) id

theorem kept_issue {op : Nat} {th : ThreadId} {f : TFields} {body : Thread → State → TRes}
    (hb : ∀ x s, Kept s₀ s → ResKept s₀ (body x s)) (hk : Kept s₀ s) :
    Kept s₀ (issue op th f body s) := by
  unfold issue
  dsimp only
  generalize th.harrow.val = h
  generalize th.tine.val = t
  generalize th.thread.val = n
  generalize threadOf s h t n = x0
  generalize fetchedWord s x0 = w
  generalize (if (w == insnWord op f) = true then op else wordOp w) = o
  have h1 : Kept s₀ (sampIssue h t n o s).2 := kept_sampIssue hk
  generalize sampIssue h t n o s = r at h1 ⊢
  obtain ⟨tag, s1⟩ := r
  refine kept_ite hk ?_
  dsimp only at h1 ⊢
  have h2 : Kept s₀ (bump cInsns (scProgram x0.view.prog) 1 s1) := kept_bump h1
  generalize bump cInsns (scProgram x0.view.prog) 1 s1 = s2 at h2 ⊢
  split
  · cases tag with
    | none => exact kept_freeThread (kept_issueCycle (kept_faultPass h2))
    | some g => exact kept_sampRecord (kept_freeThread (kept_issueCycle (kept_faultPass h2)))
  all_goals
    rename_i heq
    have h3 := res_eq heq (res_ite (s₀ := s₀) trivial (res_ite trivial (hb _ _ h2)))
  · cases tag with
    | none => exact kept_putThread (kept_issueCycle (kept_noteScratch h3))
    | some g => exact kept_sampRecord (kept_putThread (kept_issueCycle (kept_noteScratch h3)))
  · exact kept_putThread (kept_issueCycle h3)
  · cases tag with
    | none => exact kept_freeThread (kept_issueCycle h3)
    | some g => exact kept_sampRecord (kept_freeThread (kept_issueCycle h3))

theorem kept_emitPass {x : Thread} {mark : Bool} (hk : Kept s₀ s) :
    Kept s₀ (emitPass x mark s) := by
  unfold emitPass
  repeat' first
    | with_reducible assumption | with_reducible exact fun _ h => h
    | with_reducible exact fun _ h => Bool.noConfusion h | intro _ | with_reducible apply kept_ite
    | with_reducible apply kept_ite2 | with_reducible apply kept_bump
    | with_reducible apply kept_discardPkt | with_reducible apply kept_freeBushels
    | with_reducible apply kept_modTine | with_reducible apply kept_orderLook
    | with_reducible apply kept_takeUpTo | with_reducible exact rfl
    | refine kept_snd (by assumption) ?_ | with_reducible apply kept_takeBushels | split
    | dsimp only | with_reducible exact ⟨rfl, rfl, rfl, rfl⟩

theorem kept_recirculatePass {x : Thread} {sheaf : Bool} {node : Option Nat} (hk : Kept s₀ s) :
    Kept s₀ (recirculatePass x sheaf node s) := by
  unfold recirculatePass
  repeat' first
    | with_reducible assumption | with_reducible apply kept_ite | with_reducible apply kept_bump
    | with_reducible apply kept_discardPkt | with_reducible apply kept_modCls
    | with_reducible apply kept_orderLeave | split

theorem kept_trapPass {x : Thread} {reason : BitVec 8} (hk : Kept s₀ s) :
    Kept s₀ (trapPass x reason s) := by
  unfold trapPass
  split
  · exact hk
  · split
    · exact kept_bump (kept_discardPkt hk)
    · exact kept_orderLeave (kept_genLeave (keep_tine hk id fun k =>
        ⟨by simp only [List.length_append, List.length_singleton]; omega, k.2⟩))

/-! Operations of `Image`. -/

theorem kept_installProgram {img : Bytes} (hk : Kept s₀ s) :
    Kept s₀ (installProgram img s) := by
  unfold installProgram
  repeat' first
    | with_reducible assumption | with_reducible apply kept_modProg
    | with_reducible apply kept_modTine | with_reducible exact ⟨rfl, rfl, rfl, rfl⟩

theorem kept_vendorPerms {img : Bool} {fw : BitVec 32} {i : Nat} (hk : Kept s₀ s) :
    Kept s₀ (vendorPerms img fw i s) := by
  unfold vendorPerms
  repeat' first
    | with_reducible assumption | with_reducible exact fun _ h => h
    | with_reducible exact fun _ h => Bool.noConfusion h | intro _ | with_reducible apply kept_ite
    | with_reducible apply kept_ite2 | with_reducible apply kept_each
    | with_reducible apply kept_each | with_reducible apply kept_putSetting
    | with_reducible exact rfl | refine kept_snd (by assumption) ?_ | split | dsimp only

theorem kept_vendorProgram {img : Bool} {fw : BitVec 32} {i : Nat} (hk : Kept s₀ s) :
    Kept s₀ (vendorProgram img fw i s) := by
  unfold vendorProgram
  repeat' first
    | with_reducible assumption | with_reducible exact fun _ h => h
    | with_reducible exact fun _ h => Bool.noConfusion h | intro _ | with_reducible apply kept_ite
    | with_reducible apply kept_ite2 | with_reducible apply kept_installProgram
    | with_reducible apply kept_vendorPerms | with_reducible exact rfl
    | refine kept_snd (by assumption) ?_ | split | dsimp only

theorem kept_vendorPrograms {img : Bool} {fw : BitVec 32} (hk : Kept s₀ s) :
    Kept s₀ (vendorPrograms img fw s) := by
  unfold vendorPrograms
  repeat' first
    | with_reducible assumption | with_reducible exact fun _ h => h
    | with_reducible exact fun _ h => Bool.noConfusion h | intro _ | with_reducible apply kept_ite
    | with_reducible apply kept_ite2 | with_reducible apply kept_each
    | with_reducible apply kept_each | with_reducible apply kept_vendorProgram
    | with_reducible exact rfl | refine kept_snd (by assumption) ?_ | split | dsimp only

/-! Operations of `Keys`. -/

theorem kept_modTxCipher {x id : Nat} {f : TxLot → TxLot} (hk : Kept s₀ s) :
    Kept s₀ (modTxCipher x id f s) := by
  unfold modTxCipher
  repeat' first
    | with_reducible assumption | with_reducible exact fun _ h => h
    | with_reducible apply kept_modUsLane

theorem kept_loseTxLot {x id : Nat} (hk : Kept s₀ s) :
    Kept s₀ (loseTxLot x id s) := by
  unfold loseTxLot
  repeat' first
    | with_reducible assumption | intro _ | with_reducible apply kept_ite
    | with_reducible apply kept_each | with_reducible apply kept_loseFrame
    | with_reducible apply kept_modTxCipher | with_reducible exact rfl | split | dsimp only
    | with_reducible apply kept_us

theorem kept_modTxMsg {x id : Nat} {f : Burst → Burst} (hk : Kept s₀ s) :
    Kept s₀ (modTxMsg x id f s) := by
  unfold modTxMsg
  repeat' first
    | with_reducible assumption | with_reducible exact fun _ h => h
    | with_reducible exact fun _ h => Bool.noConfusion h | intro _ | with_reducible apply kept_ite
    | with_reducible apply kept_ite2 | with_reducible apply kept_modUsLane
    | with_reducible exact rfl | refine kept_snd (by assumption) ?_ | split | dsimp only

theorem kept_tagTxMsg {x id : Nat} {tag : Bytes} (hk : Kept s₀ s) :
    Kept s₀ (tagTxMsg x id tag s) := by
  unfold tagTxMsg
  repeat' first
    | with_reducible assumption | with_reducible exact fun _ h => h
    | with_reducible exact fun _ h => Bool.noConfusion h | intro _ | with_reducible apply kept_ite
    | with_reducible apply kept_ite2 | with_reducible apply kept_modTxMsg
    | with_reducible exact rfl | refine kept_snd (by assumption) ?_ | split | dsimp only

theorem kept_loseTxMsg {x id : Nat} (hk : Kept s₀ s) :
    Kept s₀ (loseTxMsg x id s) := by
  unfold loseTxMsg
  repeat' first
    | with_reducible assumption | with_reducible exact fun _ h => h
    | with_reducible exact fun _ h => Bool.noConfusion h | intro _ | with_reducible apply kept_ite
    | with_reducible apply kept_ite2 | with_reducible apply kept_modInst
    | with_reducible apply kept_modTxMsg | with_reducible exact rfl
    | refine kept_snd (by assumption) ?_ | split | dsimp only

theorem kept_tineAnswer {h t n st : Nat} {f : Thread → Thread} (hk : Kept s₀ s) :
    Kept s₀ (tineAnswer h t n st f s) := by
  unfold tineAnswer
  repeat' first
    | with_reducible assumption | with_reducible apply kept_putThread | split | dsimp only

theorem kept_cryNoOutput {abort : Bool} {o : CryOp} (hk : Kept s₀ s) :
    Kept s₀ (cryNoOutput abort o s) := by
  unfold cryNoOutput
  repeat' first
    | with_reducible assumption | with_reducible exact fun _ h => h
    | with_reducible exact fun _ h => Bool.noConfusion h | intro _ | with_reducible apply kept_ite
    | with_reducible apply kept_ite2 | with_reducible apply kept_bump
    | with_reducible apply kept_cryDenied | with_reducible apply kept_loseTxLot
    | with_reducible apply kept_loseTxMsg | with_reducible apply kept_relCipherDone
    | with_reducible apply kept_sealAnswer | with_reducible apply kept_tagTxMsg
    | with_reducible apply kept_tineAnswer | with_reducible exact rfl
    | refine kept_snd (by assumption) ?_ | split | dsimp only

theorem kept_tineCipherDone {h t n : Nat} {o : CryOp} {key : Bytes} (hk : Kept s₀ s) :
    Kept s₀ (tineCipherDone h t n o key s) := by
  unfold tineCipherDone
  repeat' first
    | with_reducible assumption | with_reducible exact fun _ h => h
    | with_reducible exact fun _ h => Bool.noConfusion h | intro _ | with_reducible apply kept_ite
    | with_reducible apply kept_ite2 | with_reducible apply kept_tineAnswer
    | with_reducible exact rfl | refine kept_snd (by assumption) ?_ | split | dsimp only

theorem kept_cryDone {o : CryOp} {key : Bytes} (hk : Kept s₀ s) :
    Kept s₀ (cryDone o key s) := by
  unfold cryDone
  repeat' first
    | with_reducible assumption | with_reducible exact fun _ h => h
    | with_reducible exact fun _ h => Bool.noConfusion h | intro _ | with_reducible apply kept_ite
    | with_reducible apply kept_ite2 | with_reducible apply kept_bump
    | with_reducible apply kept_cryDenied | with_reducible apply kept_loseTxLot
    | with_reducible apply kept_modTxCipher | with_reducible apply kept_relCipherDone
    | with_reducible apply kept_sealAnswer | with_reducible apply kept_tagTxMsg
    | with_reducible apply kept_tineCipherDone | with_reducible exact rfl
    | refine kept_snd (by assumption) ?_ | with_reducible apply kept_lotClear | split | dsimp only

theorem kept_dropOp {o : CryOp} (hk : Kept s₀ s) :
    Kept s₀ (dropOp o s) := by
  unfold dropOp
  repeat' first
    | with_reducible assumption | with_reducible exact fun _ h => h
    | with_reducible exact fun _ h => Bool.noConfusion h | intro _ | with_reducible apply kept_ite
    | with_reducible apply kept_ite2 | with_reducible exact rfl
    | refine kept_snd (by assumption) ?_ | split | dsimp only | with_reducible apply kept_cry

theorem kept_keysLook  (hk : Kept s₀ s) :
    Kept s₀ (keysLook s) := by
  unfold keysLook
  repeat' first
    | with_reducible assumption | with_reducible exact fun _ h => h
    | with_reducible exact fun _ h => Bool.noConfusion h | intro _ | with_reducible apply kept_ite
    | with_reducible apply kept_ite2 | with_reducible apply kept_each
    | with_reducible apply kept_calendarLook | with_reducible apply kept_each
    | with_reducible apply kept_modUs | with_reducible apply kept_setDomDefect
    | with_reducible exact rfl | refine kept_snd (by assumption) ?_ | split | dsimp only

theorem kept_eraseSlots {ks : List Nat} (hk : Kept s₀ s) :
    Kept s₀ (eraseSlots ks s) := by
  unfold eraseSlots
  repeat' first
    | with_reducible assumption | with_reducible exact fun _ h => h
    | with_reducible exact fun _ h => Bool.noConfusion h | intro _ | with_reducible apply kept_ite
    | with_reducible apply kept_ite2 | with_reducible apply kept_each
    | with_reducible apply kept_cryNoOutput | with_reducible apply kept_each
    | with_reducible apply kept_keysLook | with_reducible apply kept_modSlot
    | with_reducible apply kept_startOps | with_reducible exact rfl
    | refine kept_snd (by assumption) ?_ | split | dsimp only | with_reducible apply kept_cry
    | exact .inr rfl

theorem kept_eraseAll  (hk : Kept s₀ s) :
    Kept s₀ (eraseAll s) := by
  unfold eraseAll
  repeat' first
    | with_reducible assumption | with_reducible apply kept_eraseSlots

/-- A drawn salt and a changed slot touch the keys alone. -/
theorem kept_drawSlot {k : Nat} {f : KeySlot → KeySlot} :
    Kept { s with cry := (modSlot k f (rngDraw s).2).cry } (modSlot k f (rngDraw s).2) :=
  Kept.same (Kept.refl _) rfl


theorem kept_loadKey {w z : Bool} : ∃ x, Kept { s with cry := x } (loadKey w z s).2 := by
  unfold loadKey
  dsimp only
  split
  · exact ⟨s.cry, Kept.refl s⟩
  · split
    · exact ⟨s.cry, kept_bump (Kept.refl s)⟩
    · split
      · exact ⟨s.cry, Kept.refl s⟩
      · with_reducible
          exact ⟨_, kept_startOps (kept_keysLook (kept_bump kept_drawSlot))⟩

theorem kept_keyWritten  (hk : Kept s₀ s) :
    Kept s₀ (keyWritten s) := by
  unfold keyWritten
  repeat' first
    | with_reducible assumption | with_reducible exact ⟨rfl, rfl, rfl, rfl⟩ | dsimp only
    | with_reducible apply kept_life

theorem kept_keyWrite {f : Cry → Cry} (h : Kept s₀ s) (e : (f s.cry).slots = s.cry.slots) :
    Kept s₀ (keyWrite f s) := by
  unfold keyWrite
  refine kept_cry h ?_
  split
  · rfl
  · exact e

theorem kept_keyAccess {f : State → State} (hf : ∀ s, Kept s₀ s → Kept s₀ (f s))
    (h : Kept s₀ s) : Kept s₀ (keyAccess f s) := by
  unfold keyAccess
  exact kept_addressed (fun _ h => kept_ite h (hf _ h)) h

theorem kept_keySelWrite {v : BitVec 8} (hk : Kept s₀ s) :
    Kept s₀ (keySelWrite v s) := by
  unfold keySelWrite
  repeat' first
    | with_reducible assumption | with_reducible apply kept_keyWrite | with_reducible exact rfl

theorem kept_keyCtrlWrite {v : BitVec 8} (hk : Kept s₀ s) :
    Kept s₀ (keyCtrlWrite v s) := by
  unfold keyCtrlWrite
  repeat' first
    | with_reducible assumption | with_reducible apply kept_keyWrite | with_reducible exact rfl
    | split

theorem kept_keyDataWrite {i : Nat} {v : BitVec 8} (hk : Kept s₀ s) :
    Kept s₀ (keyDataWrite i v s) := by
  unfold keyDataWrite
  repeat' first
    | with_reducible assumption | with_reducible apply kept_keyWrite | with_reducible exact rfl

end Sys2Proof.Machine
end

