-- ==== Sys2Proof/Laws/KeptCmd.lean ====
section
/-! SUPPORT. What each operation keeps (`Kept`): the command front end and the command bodies. -/
-- One list of alternatives serves every lemma below; not every lemma uses each of them.
set_option linter.unusedTactic false
set_option linter.unreachableTactic false
namespace Sys2Proof.Machine
variable {s₀ s t : State}

/-! Operations of `Icben`. -/

theorem kept_tetherSend {m : TetherMsg} (hk : Kept s₀ s) :
    Kept s₀ (tetherSend m s) := by
  unfold tetherSend
  repeat' first
    | with_reducible assumption | with_reducible apply kept_modPair

theorem kept_untake {op : Nat} {c : Cmd} (hk : Kept s₀ s) :
    Kept s₀ (untake op c s) := by
  unfold untake
  repeat' first
    | with_reducible assumption | with_reducible apply kept_modReeve
    | with_reducible exact ⟨rfl, rfl, rfl⟩

theorem kept_mirrorOut {op : Nat} {c : Cmd} (hk : Kept s₀ s) :
    Kept s₀ (mirrorOut op c s) := by
  unfold mirrorOut
  repeat' first
    | with_reducible assumption | with_reducible apply kept_ite
    | with_reducible apply kept_answer | with_reducible apply kept_bump
    | with_reducible apply kept_modPair | with_reducible apply kept_tetherSend

theorem kept_markMgmt {m : Bool} {s0 : State} (h : Kept s₀ s) : Kept s₀ (markMgmt m s0 s) := by
  unfold markMgmt
  refine kept_ite (keep_reeve h fun k => ⟨?_, k.2⟩) h
  simp only [List.length_append, List.length_map, List.length_take, List.length_drop]
  omega

theorem kept_applyHeld {op : Nat} {b : CmdBody} {c : Cmd} {fp : Bool}
    (hb : ∀ c s, Kept s₀ s → Kept s₀ (b c s).2) (h : Kept s₀ s) :
    Kept s₀ (applyHeld op b c fp s) := by
  unfold applyHeld
  repeat' first
    | with_reducible assumption | apply hb | with_reducible apply kept_ite
    | with_reducible apply kept_markMgmt | with_reducible apply kept_modPair
    | with_reducible apply kept_raiseTag | split

theorem kept_runCmd {op : Nat} {b : CmdBody} {c : Cmd}
    (hb : ∀ c s, Kept s₀ s → Kept s₀ (b c s).2) (hk : Kept s₀ s) :
    Kept s₀ (runCmd op b c s) := by
  have h1 : ∀ s, Kept s₀ s → Kept s₀ (b (splitCall c) s).2 := hb _
  unfold runCmd
  repeat' first
    | with_reducible assumption | apply h1 | with_reducible apply kept_ite
    | with_reducible apply kept_answer | with_reducible apply kept_applyHeld
    | with_reducible apply kept_bump | with_reducible apply kept_busyLook
    | with_reducible apply kept_markMgmt | with_reducible apply kept_mirrorOut
    | with_reducible apply kept_modReeve | with_reducible apply kept_untake
    | with_reducible exact ⟨rfl, rfl, rfl⟩ | split | dsimp only

theorem kept_askReset {op : Nat} {c : Call} (hk : Kept s₀ s) :
    Kept s₀ (askReset op c s) := by
  unfold askReset
  repeat' first
    | with_reducible assumption | with_reducible apply kept_modReeve
    | with_reducible exact ⟨rfl, rfl, rfl⟩

theorem kept_putGiven {sc : Nat} {gs : List Given} (hk : Kept s₀ s) :
    Kept s₀ (putGiven sc gs s) := by
  unfold putGiven
  repeat' first
    | with_reducible assumption | intro _ | with_reducible apply kept_each
    | with_reducible apply kept_putSetting

theorem kept_settingsCmd {ks : List Nat} {specs : Nat → List SSpec} {c : Call}
    {k : Nat → List Given → Call → State → Reply × State}
    (hf : ∀ sc gs c s, Kept s₀ s → Kept s₀ (k sc gs c s).2) (hk : Kept s₀ s) :
    Kept s₀ (settingsCmd ks specs k c s).2 := by
  unfold settingsCmd
  repeat' first
    | with_reducible assumption | apply hf | with_reducible apply kept_ite2
    | with_reducible apply kept_badArg | with_reducible apply kept_badLength | split

theorem kept_clearCounters {ch tbl sc first n : Nat} (hk : Kept s₀ s) :
    Kept s₀ (clearCounters ch tbl sc first n s) := by
  unfold clearCounters
  exact kept_each (fun i s h => kept_ite (keep_counters h fun k => tabWf_set _ _ k) h) hk

theorem kept_readCmd {ks : List Nat} {ts : List (Nat × Nat)} {n : Nat} {c : Call}
    {block : Nat → Bytes → State → Bytes} {clear : Nat → Bytes → State → State}
    (hf : ∀ sc p s, Kept s₀ s → Kept s₀ (clear sc p s)) (hk : Kept s₀ s) :
    Kept s₀ (readCmd ks ts n block clear c s).2 := by
  unfold readCmd
  repeat' first
    | with_reducible assumption | apply hf | with_reducible apply kept_ite
    | with_reducible apply kept_ite2 | with_reducible apply kept_badArg
    | with_reducible apply kept_badLength | with_reducible apply kept_clearCounters
    | with_reducible apply kept_stOk | split

theorem kept_fixedCmd {n : Nat} {c : Call} {k : Bytes → Call → State → Reply × State}
    (hf : ∀ p c s, Kept s₀ s → Kept s₀ (k p c s).2) (hk : Kept s₀ s) :
    Kept s₀ (fixedCmd n k c s).2 := by
  unfold fixedCmd
  repeat' first
    | with_reducible assumption | apply hf | with_reducible apply kept_ite2
    | with_reducible apply kept_badLength

/-! Operations of `CmdLine`. -/

theorem kept_roleOutLook  (hk : Kept s₀ s) :
    Kept s₀ (roleOutLook s) := by
  unfold roleOutLook
  repeat' first
    | with_reducible assumption | with_reducible apply kept_ite
    | with_reducible apply kept_modPair

theorem kept_domainOn {n : Nat} (hk : Kept s₀ s) :
    Kept s₀ (domainOn n s) := by
  unfold domainOn
  repeat' first
    | with_reducible assumption | with_reducible exact rfl | dsimp only
    | with_reducible apply kept_pwr

theorem kept_enableLtx {x : Nat} {o : Optics} (hk : Kept s₀ s) :
    Kept s₀ (enableLtx x o s) := by
  unfold enableLtx
  repeat' first
    | with_reducible assumption | with_reducible exact fun _ h => h
    | with_reducible apply kept_ite | with_reducible apply kept_domainOn
    | with_reducible apply kept_modUsLane

theorem kept_lineConfigureLanesBody {o0 o1 : Optics} {c : Call} (hk : Kept s₀ s) :
    Kept s₀ (lineConfigureLanesBody o0 o1 c s).2 := by
  unfold lineConfigureLanesBody
  repeat' first
    | with_reducible assumption | with_reducible exact fun _ h => h | intro _
    | with_reducible apply kept_ite | with_reducible apply kept_ite2
    | with_reducible apply kept_disableLane | with_reducible apply kept_domainOn
    | with_reducible apply kept_enableLane | with_reducible apply kept_enableLtx
    | with_reducible apply kept_gateLook | with_reducible apply kept_lockLook
    | with_reducible apply kept_modUsLane | with_reducible apply kept_putGiven
    | with_reducible apply kept_roleOutLook | with_reducible apply kept_settingsCmd
    | with_reducible apply kept_stOk | with_reducible apply kept_supLook

theorem kept_lineSetEqBody {c : Call} (hk : Kept s₀ s) :
    Kept s₀ (lineSetEqBody c s).2 := by
  unfold lineSetEqBody
  repeat' first
    | with_reducible assumption | intro _ | with_reducible apply kept_ite2
    | with_reducible apply kept_applyEq | with_reducible apply kept_badArg
    | with_reducible apply kept_modLane | with_reducible apply kept_settingsCmd
    | with_reducible apply kept_stOk

theorem kept_assignGroup {l : Nat} {g : BitVec 2} (hk : Kept s₀ s) :
    Kept s₀ (assignGroup l g s) := by
  unfold assignGroup
  repeat' first
    | with_reducible assumption | with_reducible exact fun _ h => h
    | with_reducible exact fun _ h => Bool.noConfusion h | intro _ | with_reducible apply kept_ite
    | with_reducible apply kept_ite2 | with_reducible apply kept_dropPartial
    | with_reducible apply kept_excludeLane | with_reducible apply kept_lockLook
    | with_reducible apply kept_modLane | with_reducible apply kept_supLook
    | with_reducible exact rfl | refine kept_snd (by assumption) ?_ | split | dsimp only

theorem kept_restartBseq  (hk : Kept s₀ s) :
    Kept s₀ (restartBseq s) := by
  unfold restartBseq
  repeat' first
    | with_reducible assumption | with_reducible exact fun _ h => h | intro _
    | with_reducible apply kept_each | with_reducible apply kept_modUsLane
    | with_reducible exact rfl | dsimp only | with_reducible apply kept_us

theorem kept_setUsMode {split : Bool} (hk : Kept s₀ s) :
    Kept s₀ (setUsMode split s) := by
  unfold setUsMode
  repeat' first
    | with_reducible assumption | with_reducible apply kept_ite
    | with_reducible apply kept_restartBseq | with_reducible exact rfl | dsimp only
    | with_reducible apply kept_us

theorem kept_lineSetGroupBody {c : Call} (hk : Kept s₀ s) :
    Kept s₀ (lineSetGroupBody c s).2 := by
  unfold lineSetGroupBody
  repeat' first
    | with_reducible assumption | intro _ | with_reducible apply kept_ite2
    | with_reducible apply kept_assignGroup | with_reducible apply kept_notInState
    | with_reducible apply kept_putGiven | with_reducible apply kept_setUsMode
    | with_reducible apply kept_settingsCmd | with_reducible apply kept_stOk

theorem kept_lineGetLockBody {c : Call} (hk : Kept s₀ s) :
    Kept s₀ (lineGetLockBody c s).2 := by
  unfold lineGetLockBody
  repeat' first
    | with_reducible assumption | with_reducible exact fun _ h => h | intro _
    | with_reducible apply kept_readCmd

theorem kept_lineGetCountersBody {c : Call} (hk : Kept s₀ s) :
    Kept s₀ (lineGetCountersBody c s).2 := by
  unfold lineGetCountersBody
  repeat' first
    | with_reducible assumption | with_reducible exact fun _ h => h | intro _
    | with_reducible apply kept_readCmd

theorem kept_supSetActionsBody {c : Call} (hk : Kept s₀ s) :
    Kept s₀ (supSetActionsBody c s).2 := by
  unfold supSetActionsBody
  repeat' first
    | with_reducible assumption | intro _ | with_reducible apply kept_holdOffLook
    | with_reducible apply kept_putGiven | with_reducible apply kept_settingsCmd
    | with_reducible apply kept_stOk | with_reducible apply kept_supLook

theorem kept_supGetDefectsBody {c : Call} (hk : Kept s₀ s) :
    Kept s₀ (supGetDefectsBody c s).2 := by
  unfold supGetDefectsBody
  repeat' first
    | with_reducible assumption | with_reducible exact fun _ h => h | intro _
    | with_reducible apply kept_readCmd

theorem kept_supGetBinsBody {c : Call} (hk : Kept s₀ s) :
    Kept s₀ (supGetBinsBody c s).2 := by
  unfold supGetBinsBody
  repeat' first
    | with_reducible assumption | with_reducible exact fun _ h => h
    | with_reducible exact fun _ h => Bool.noConfusion h | intro _ | with_reducible apply kept_ite
    | with_reducible apply kept_ite2 | with_reducible apply kept_badArg
    | with_reducible apply kept_fixedCmd | with_reducible apply kept_stOk
    | with_reducible exact rfl | refine kept_snd (by assumption) ?_ | split | dsimp only

theorem kept_tcaLook {g : Given} (hk : Kept s₀ s) :
    Kept s₀ (tcaLook g s) := by
  unfold tcaLook
  repeat' first
    | with_reducible assumption | intro _ | with_reducible apply kept_ite
    | with_reducible apply kept_each | with_reducible apply kept_tcaCheck

theorem kept_supSetThresholdsBody {c : Call} (hk : Kept s₀ s) :
    Kept s₀ (supSetThresholdsBody c s).2 := by
  unfold supSetThresholdsBody
  repeat' first
    | with_reducible assumption | intro _ | with_reducible apply kept_ite2
    | with_reducible apply kept_badArg | with_reducible apply kept_each
    | with_reducible apply kept_putGiven | with_reducible apply kept_settingsCmd
    | with_reducible apply kept_stOk | with_reducible apply kept_tcaLook

/-! Operations of `CmdAct`. -/

theorem kept_actStartBody {c : Call} (hk : Kept s₀ s) :
    Kept s₀ (actStartBody c s).2 := by
  unfold actStartBody
  repeat' first
    | with_reducible assumption | intro _ | with_reducible apply kept_badArg
    | with_reducible apply kept_each | with_reducible apply kept_modInst
    | with_reducible apply kept_putGiven | with_reducible apply kept_settingsCmd
    | with_reducible apply kept_stOk | split | dsimp only

theorem kept_actStop {i : Nat} (hk : Kept s₀ s) :
    Kept s₀ (actStop i s) := by
  unfold actStop
  repeat' first
    | with_reducible assumption | with_reducible exact fun _ h => h
    | with_reducible exact fun _ h => Bool.noConfusion h | intro _ | with_reducible apply kept_ite
    | with_reducible apply kept_ite2 | with_reducible apply kept_actClear
    | with_reducible apply kept_gateLook | with_reducible apply kept_modInst
    | with_reducible apply kept_modUsLane | with_reducible apply kept_toListen
    | with_reducible exact rfl | refine kept_snd (by assumption) ?_ | split | dsimp only

theorem kept_actStopBody {c : Call} (hk : Kept s₀ s) :
    Kept s₀ (actStopBody c s).2 := by
  unfold actStopBody
  repeat' first
    | with_reducible assumption | intro _ | with_reducible apply kept_actStop
    | with_reducible apply kept_badArg | with_reducible apply kept_each
    | with_reducible apply kept_fixedCmd | with_reducible apply kept_stOk | split

theorem kept_actGetStateBody {c : Call} (hk : Kept s₀ s) :
    Kept s₀ (actGetStateBody c s).2 := by
  unfold actGetStateBody
  repeat' first
    | with_reducible assumption | with_reducible exact fun _ h => h | intro _
    | with_reducible apply kept_readCmd

theorem kept_plotsNone  (hk : Kept s₀ s) :
    Kept s₀ (plotsNone s) := by
  unfold plotsNone
  repeat' first
    | with_reducible assumption | intro _ | with_reducible apply kept_ite
    | with_reducible apply kept_each | with_reducible apply kept_putSetting

theorem kept_setParenting {dual : Bool} (hk : Kept s₀ s) :
    Kept s₀ (setParenting dual s) := by
  unfold setParenting
  repeat' first
    | with_reducible apply kept_ite | with_reducible apply kept_lockLook
    | with_reducible apply kept_plotsNone | with_reducible apply kept_supLook | dsimp only
    | exact Kept.same (by assumption) rfl

theorem kept_actSetParentingBody {c : Call} (hk : Kept s₀ s) :
    Kept s₀ (actSetParentingBody c s).2 := by
  unfold actSetParentingBody
  repeat' first
    | with_reducible assumption | intro _ | with_reducible apply kept_ite
    | with_reducible apply kept_ite2 | with_reducible apply kept_notInState
    | with_reducible apply kept_putSetting | with_reducible apply kept_requestSwitch
    | with_reducible apply kept_setParenting | with_reducible apply kept_settingsCmd
    | with_reducible apply kept_stOk

/-! Operations of `CmdQos`. -/

theorem kept_qosSetQueueBody {c : Call} (hk : Kept s₀ s) :
    Kept s₀ (qosSetQueueBody c s).2 := by
  unfold qosSetQueueBody
  repeat' first
    | with_reducible assumption | intro _ | with_reducible apply kept_ite
    | with_reducible apply kept_ite2 | with_reducible apply kept_badArg
    | with_reducible apply kept_flushQueue | with_reducible apply kept_putGiven
    | with_reducible apply kept_queueActivate | with_reducible apply kept_settingsCmd
    | with_reducible apply kept_stOk

theorem kept_qosSetSchedBody {c : Call} (hk : Kept s₀ s) :
    Kept s₀ (qosSetSchedBody c s).2 := by
  unfold qosSetSchedBody
  repeat' first
    | with_reducible assumption | intro _ | with_reducible apply kept_ite
    | with_reducible apply kept_ite2 | with_reducible apply kept_badArg
    | with_reducible apply kept_each | with_reducible apply kept_modGroupArb
    | with_reducible apply kept_modPlotArb | with_reducible apply kept_putGiven
    | with_reducible apply kept_settingsCmd | with_reducible apply kept_stOk

theorem kept_qosSetShaperBody {c : Call} (hk : Kept s₀ s) :
    Kept s₀ (qosSetShaperBody c s).2 := by
  unfold qosSetShaperBody
  repeat' first
    | with_reducible assumption | intro _ | with_reducible apply kept_ite2
    | with_reducible apply kept_noResource | with_reducible apply kept_putBucket
    | with_reducible apply kept_putGiven | with_reducible apply kept_settingsCmd
    | with_reducible apply kept_stOk

theorem kept_qosSetMeterBody {c : Call} (hk : Kept s₀ s) :
    Kept s₀ (qosSetMeterBody c s).2 := by
  unfold qosSetMeterBody
  repeat' first
    | with_reducible assumption | intro _ | with_reducible apply kept_ite2
    | with_reducible apply kept_badArg | with_reducible apply kept_putGiven
    | with_reducible apply kept_putMeter | with_reducible apply kept_settingsCmd
    | with_reducible apply kept_stOk

theorem kept_qosClear {sc : Nat} {_u1 : Bytes} (hk : Kept s₀ s) :
    Kept s₀ (qosClear sc _u1 s) := by
  unfold qosClear
  repeat' first
    | with_reducible assumption | with_reducible apply kept_modQueue | split | dsimp only
    | with_reducible apply kept_qos

theorem kept_qosGetQueueBody {c : Call} (hk : Kept s₀ s) :
    Kept s₀ (qosGetQueueBody c s).2 := by
  unfold qosGetQueueBody
  repeat' first
    | with_reducible assumption | with_reducible exact fun _ h => h
    | with_reducible exact fun _ h => Bool.noConfusion h | intro _ | with_reducible apply kept_ite
    | with_reducible apply kept_ite2 | with_reducible apply kept_qosClear
    | with_reducible apply kept_readCmd | with_reducible exact rfl
    | refine kept_snd (by assumption) ?_ | split | dsimp only

/-! Operations of `CmdPort`. -/

theorem kept_putPort {sc : Nat} {gs : List Given} (hk : Kept s₀ s) :
    Kept s₀ (putPort sc gs s) := by
  unfold putPort
  repeat' first
    | with_reducible assumption | intro _ | with_reducible apply kept_ite
    | with_reducible apply kept_each | with_reducible apply kept_putSetting

theorem kept_slFollow {l : Nat} (hk : Kept s₀ s) :
    Kept s₀ (slFollow l s) := by
  unfold slFollow
  repeat' first
    | with_reducible assumption | with_reducible apply kept_modSLane

theorem kept_portConfigureBody {c : Call} (hk : Kept s₀ s) :
    Kept s₀ (portConfigureBody c s).2 := by
  unfold portConfigureBody
  repeat' first
    | with_reducible assumption | with_reducible exact fun _ h => h
    | with_reducible exact fun _ h => Bool.noConfusion h | intro _ | with_reducible apply kept_ite
    | with_reducible apply kept_ite2 | with_reducible apply kept_each
    | with_reducible apply kept_badArg | with_reducible apply kept_domainOn
    | with_reducible apply kept_each | with_reducible apply kept_notInState
    | with_reducible apply kept_portFlushLook | with_reducible apply kept_portsLook
    | with_reducible apply kept_putPort | with_reducible apply kept_settingsCmd
    | with_reducible apply kept_slFollow | with_reducible apply kept_stOk
    | with_reducible exact rfl | refine kept_snd (by assumption) ?_ | split | dsimp only

theorem kept_portSetFiltersBody {c : Call} (hk : Kept s₀ s) :
    Kept s₀ (portSetFiltersBody c s).2 := by
  unfold portSetFiltersBody
  repeat' first
    | with_reducible assumption | with_reducible apply kept_ite2
    | with_reducible apply kept_badArg | with_reducible apply kept_badLength
    | with_reducible apply kept_modPort | with_reducible apply kept_stOk | split

theorem kept_portSetSheafBody {c : Call} (hk : Kept s₀ s) :
    Kept s₀ (portSetSheafBody c s).2 := by
  unfold portSetSheafBody
  repeat' first
    | with_reducible assumption | intro _ | with_reducible apply kept_ite2
    | with_reducible apply kept_badArg | with_reducible apply kept_putGiven
    | with_reducible apply kept_settingsCmd | with_reducible apply kept_stOk

theorem kept_portRead {b : CmdBody} {c : Call} (hb : ∀ c s, Kept s₀ s → Kept s₀ (b c s).2)
    (hk : Kept s₀ s) : Kept s₀ (portRead b c s).2 := by
  unfold portRead
  repeat' first
    | with_reducible assumption | apply hb | with_reducible apply kept_ite2
    | with_reducible apply kept_badArg

theorem kept_portGetStatsBody {c : Call} (hk : Kept s₀ s) :
    Kept s₀ (portGetStatsBody c s).2 := by
  unfold portGetStatsBody
  repeat' first
    | with_reducible assumption | with_reducible exact fun _ h => h | intro _
    | with_reducible apply kept_portRead | with_reducible apply kept_readCmd

theorem kept_qosSetShaperPortBody {c : Call} (hk : Kept s₀ s) :
    Kept s₀ (qosSetShaperPortBody c s).2 := by
  unfold qosSetShaperPortBody
  repeat' first
    | with_reducible assumption | intro _ | with_reducible apply kept_portRead
    | with_reducible apply kept_qosSetShaperBody

theorem kept_grantsLook {p : Nat} {s0 : State} (hk : Kept s₀ s) :
    Kept s₀ (grantsLook p s0 s) := by
  unfold grantsLook
  repeat' first
    | with_reducible assumption | with_reducible exact fun _ h => h
    | with_reducible exact fun _ h => Bool.noConfusion h | intro _ | with_reducible apply kept_ite
    | with_reducible apply kept_ite2 | with_reducible apply kept_modPort | with_reducible exact rfl
    | refine kept_snd (by assumption) ?_ | split | dsimp only

theorem kept_ptpConfigurePortBody {c : Call} (hk : Kept s₀ s) :
    Kept s₀ (ptpConfigurePortBody c s).2 := by
  unfold ptpConfigurePortBody
  repeat' first
    | with_reducible assumption | with_reducible exact fun _ h => h
    | with_reducible exact fun _ h => Bool.noConfusion h | intro _ | with_reducible apply kept_ite
    | with_reducible apply kept_ite2 | with_reducible apply kept_badArg
    | with_reducible apply kept_grantsLook | with_reducible apply kept_putGiven
    | with_reducible apply kept_settingsCmd | with_reducible apply kept_stOk
    | with_reducible exact rfl | refine kept_snd (by assumption) ?_ | split | dsimp only

theorem kept_ptpGetPortBody {c : Call} (hk : Kept s₀ s) :
    Kept s₀ (ptpGetPortBody c s).2 := by
  unfold ptpGetPortBody
  repeat' first
    | with_reducible assumption | with_reducible exact fun _ h => h | intro _
    | with_reducible apply kept_ite2 | with_reducible apply kept_badArg
    | with_reducible apply kept_portRead | with_reducible apply kept_readCmd

/-! Operations of `CmdTime`. -/

theorem kept_slewRebase {o : Int} (hk : Kept s₀ s) :
    Kept s₀ (slewRebase o s) := by
  unfold slewRebase
  repeat' first
    | with_reducible assumption | with_reducible apply kept_ite
    | with_reducible apply kept_setOffset

theorem kept_holdLook {d : Nat} (hk : Kept s₀ s) :
    Kept s₀ (holdLook d s) := by
  unfold holdLook
  repeat' first
    | with_reducible assumption | with_reducible apply kept_ite
    | with_reducible apply kept_autoSelect | with_reducible apply kept_modDom
    | with_reducible apply kept_timeLook

theorem kept_enableDomLook {d : Nat} (hk : Kept s₀ s) :
    Kept s₀ (enableDomLook d s) := by
  unfold enableDomLook
  repeat' first
    | with_reducible assumption | with_reducible apply kept_ite
    | with_reducible apply kept_domDisable | with_reducible apply kept_domEnable

theorem kept_timeSetDomainsBody {c : Call} (hk : Kept s₀ s) :
    Kept s₀ (timeSetDomainsBody c s).2 := by
  unfold timeSetDomainsBody
  repeat' first
    | with_reducible assumption | intro _ | with_reducible apply kept_autoSelect
    | with_reducible apply kept_enableDomLook | with_reducible apply kept_holdLook
    | with_reducible apply kept_putGiven | with_reducible apply kept_settingsCmd
    | with_reducible apply kept_slewRebase | with_reducible apply kept_stOk

theorem kept_timeSelectBody {c : Call} (hk : Kept s₀ s) :
    Kept s₀ (timeSelectBody c s).2 := by
  unfold timeSelectBody
  repeat' first
    | with_reducible assumption | intro _ | with_reducible apply kept_ite2
    | with_reducible apply kept_badArg | with_reducible apply kept_fixedCmd
    | with_reducible apply kept_notInState | with_reducible apply kept_selectDomain
    | with_reducible apply kept_stOk

theorem kept_timeSetAsymBody {c : Call} (hk : Kept s₀ s) :
    Kept s₀ (timeSetAsymBody c s).2 := by
  unfold timeSetAsymBody
  repeat' first
    | with_reducible assumption | intro _ | with_reducible apply kept_fitLook
    | with_reducible apply kept_putGiven | with_reducible apply kept_settingsCmd
    | with_reducible apply kept_stOk

theorem kept_timeGetFitBody {c : Call} (hk : Kept s₀ s) :
    Kept s₀ (timeGetFitBody c s).2 := by
  unfold timeGetFitBody
  repeat' first
    | with_reducible assumption | with_reducible exact fun _ h => h | intro _
    | with_reducible apply kept_readCmd

theorem kept_timeSetOutputsBody {c : Call} (hk : Kept s₀ s) :
    Kept s₀ (timeSetOutputsBody c s).2 := by
  unfold timeSetOutputsBody
  repeat' first
    | with_reducible assumption | intro _ | with_reducible apply kept_ite
    | with_reducible apply kept_putGiven | with_reducible apply kept_settingsCmd
    | with_reducible apply kept_stOk | with_reducible exact rfl | dsimp only
    | with_reducible apply kept_time

theorem kept_timeGetStatusBody {c : Call} (hk : Kept s₀ s) :
    Kept s₀ (timeGetStatusBody c s).2 := by
  unfold timeGetStatusBody
  repeat' first
    | with_reducible assumption | with_reducible exact fun _ h => h | intro _
    | with_reducible apply kept_ite | with_reducible apply kept_readCmd
    | with_reducible apply kept_freeCtr

/-! Operations of `CmdCls`. -/

theorem kept_clsLoadGraphBody {c : Call} (hk : Kept s₀ s) :
    Kept s₀ (clsLoadGraphBody c s).2 := by
  unfold clsLoadGraphBody
  repeat' first
    | with_reducible assumption | with_reducible apply kept_ite2
    | with_reducible apply kept_badArg | with_reducible apply kept_badLength
    | with_reducible apply kept_modCls | with_reducible apply kept_stBusy
    | with_reducible apply kept_stOk | with_reducible apply kept_stPending | split

theorem kept_clsSetPatternsBody {c : Call} (hk : Kept s₀ s) :
    Kept s₀ (clsSetPatternsBody c s).2 := by
  unfold clsSetPatternsBody
  repeat' first
    | with_reducible assumption | with_reducible apply kept_ite2
    | with_reducible apply kept_badArg | with_reducible apply kept_badLength
    | with_reducible apply kept_modCls | with_reducible apply kept_stBusy
    | with_reducible apply kept_stOk

theorem kept_clsStageRulesBody {c : Call} (hk : Kept s₀ s) :
    Kept s₀ (clsStageRulesBody c s).2 := by
  unfold clsStageRulesBody
  repeat' first
    | with_reducible assumption | with_reducible apply kept_ite2
    | with_reducible apply kept_badLength | with_reducible apply kept_bump
    | with_reducible apply kept_modCls | with_reducible apply kept_refuse
    | with_reducible apply kept_stBusy | with_reducible apply kept_stOk
    | with_reducible apply kept_stPending | split | dsimp only

theorem kept_clsCommitBody {c : Call} (hk : Kept s₀ s) :
    Kept s₀ (clsCommitBody c s).2 := by
  unfold clsCommitBody
  repeat' first
    | with_reducible assumption | with_reducible apply kept_ite2
    | with_reducible apply kept_badLength | with_reducible apply kept_commitNow
    | with_reducible apply kept_modCls | with_reducible apply kept_stBusy
    | with_reducible apply kept_stOk | with_reducible apply kept_stPending | split

theorem kept_clsCounts {sc a b : Nat} {p : Bytes} {f : Bool → Bool → State → State}
    (e : clsCounts sc p t = some (a, b, f)) {x y : Bool} (h : Kept s₀ s) : Kept s₀ (f x y s) := by
  unfold clsCounts at e
  dsimp only at e
  split at e
  · cases e; exact kept_modCls h
  · obtain ⟨l, _, e2⟩ := Option.map_eq_some_iff.1 e
    cases e2; exact kept_modCls h

theorem kept_clsGetGenerationBody {c : Call} (hk : Kept s₀ s) :
    Kept s₀ (clsGetGenerationBody c s).2 := by
  unfold clsGetGenerationBody
  dsimp only
  refine kept_ite2 ?_ (kept_readCmd (fun _ _ _ h => h) hk)
  split
  · exact kept_badArg hk
  · split
    · exact kept_badArg hk
    · rename_i e
      exact kept_ite2 (kept_badArg hk) (kept_stOk (kept_ite (kept_clsCounts e hk) hk))

/-! Operations of `TineIsa`. -/

theorem kept_aluOp {op : Nat} {th : ThreadId} {f : TFields}
    {g : BitVec 32 → BitVec 32 → BitVec 32} (hk : Kept s₀ s) :
    Kept s₀ (aluOp op th f g s) := by
  unfold aluOp
  repeat' first
    | with_reducible assumption | intro _ | with_reducible apply kept_issue
    | exact Kept.same (by assumption) rfl

theorem kept_nextAccess  (hk : Kept s₀ s) :
    Kept s₀ (nextAccess s) := by
  unfold nextAccess
  exact kept_modTine hk ⟨rfl, rfl, rfl, rfl⟩

/-! Operations of `CmdTine`. -/

theorem kept_tineLoadProgramBody {c : Call} (hk : Kept s₀ s) :
    Kept s₀ (tineLoadProgramBody c s).2 := by
  unfold tineLoadProgramBody
  repeat' first
    | with_reducible assumption | with_reducible apply kept_ite2
    | with_reducible apply kept_badArg | with_reducible apply kept_badLength
    | with_reducible apply kept_installProgram | with_reducible apply kept_modTine
    | with_reducible apply kept_refuse | with_reducible apply kept_stDenied
    | with_reducible apply kept_stOk | with_reducible apply kept_stPending
    | with_reducible exact ⟨rfl, rfl, rfl, rfl⟩ | split

theorem kept_tineSetPermsBody {c : Call} (hk : Kept s₀ s) :
    Kept s₀ (tineSetPermsBody c s).2 := by
  unfold tineSetPermsBody
  repeat' first
    | with_reducible assumption | intro _ | with_reducible apply kept_ite2
    | with_reducible apply kept_badArg | with_reducible apply kept_modProg
    | with_reducible apply kept_putGiven | with_reducible apply kept_settingsCmd
    | with_reducible apply kept_stOk

theorem kept_faultsSeen {p : Bytes} (hk : Kept s₀ s) :
    Kept s₀ (faultsSeen p s) := by
  unfold faultsSeen
  exact kept_modTine hk ⟨rfl, rfl, rfl, rfl⟩

theorem kept_tineGetFaultsBody {c : Call} (hk : Kept s₀ s) :
    Kept s₀ (tineGetFaultsBody c s).2 := by
  unfold tineGetFaultsBody
  have h1 := kept_readCmd (ks := []) (ts := [(12, 9)]) (n := 4) (c := c)
    (block := fun _ p s => recordBlock p s.tine.faultLog)
    (clear := fun _ p s => modTine (fun t => { t with
        faultLog := t.faultLog.drop (byteAt p 8).toNat,
        faultRead := t.faultRead - (byteAt p 8).toNat }) s)
    (fun _ _ _ h => keep_tine h id fun k => ⟨k.1, by simp only [List.length_drop]; omega⟩) hk
  refine kept_ite2 (kept_badArg hk) ?_
  dsimp only
  split
  · exact h1
  · exact kept_faultsSeen h1

theorem kept_pmcClear {h t : Nat} (hk : Kept s₀ s) :
    Kept s₀ (pmcClear h t s) := by
  unfold pmcClear
  repeat' first
    | with_reducible assumption | with_reducible apply kept_modPmc

theorem kept_pmcConfigureBody {c : Call} (hk : Kept s₀ s) :
    Kept s₀ (pmcConfigureBody c s).2 := by
  unfold pmcConfigureBody
  repeat' first
    | with_reducible assumption | intro _ | with_reducible apply kept_ite
    | with_reducible apply kept_each | with_reducible apply kept_modPmc
    | with_reducible apply kept_pmcClear | with_reducible apply kept_putGiven
    | with_reducible apply kept_settingsCmd | with_reducible apply kept_stOk

theorem kept_pmcReadBody {c : Call} (hk : Kept s₀ s) :
    Kept s₀ (pmcReadBody c s).2 := by
  unfold pmcReadBody
  repeat' first
    | with_reducible assumption | intro _ | with_reducible apply kept_pmcClear
    | with_reducible apply kept_readCmd

theorem kept_pmcSampleStartBody {c : Call} (hk : Kept s₀ s) :
    Kept s₀ (pmcSampleStartBody c s).2 := by
  unfold pmcSampleStartBody
  repeat' first
    | with_reducible assumption | with_reducible exact fun _ h => h
    | with_reducible exact fun _ h => Bool.noConfusion h | intro _ | with_reducible apply kept_ite
    | with_reducible apply kept_ite2 | with_reducible apply kept_each
    | with_reducible apply kept_drawCountdown | with_reducible apply kept_each
    | with_reducible apply kept_modSamp | with_reducible apply kept_putGiven
    | with_reducible apply kept_rngDraw | with_reducible apply kept_sampFullLook
    | with_reducible apply kept_settingsCmd | with_reducible apply kept_stOk
    | with_reducible exact rfl | refine kept_snd (by assumption) ?_ | split | dsimp only

theorem kept_pmcSampleReadBody {c : Call} (hk : Kept s₀ s) :
    Kept s₀ (pmcSampleReadBody c s).2 := by
  unfold pmcSampleReadBody
  repeat' first
    | with_reducible assumption | intro _ | with_reducible apply kept_ite2
    | with_reducible apply kept_badArg | with_reducible apply kept_modSamp
    | with_reducible apply kept_readCmd

/-! Operations of `CmdSec`. -/

theorem kept_cryBindSlotBody {c : Call} (hk : Kept s₀ s) :
    Kept s₀ (cryBindSlotBody c s).2 := by
  unfold cryBindSlotBody
  repeat' first
    | with_reducible assumption | intro _ | with_reducible apply kept_ite
    | with_reducible apply kept_ite2 | with_reducible apply kept_badArg
    | with_reducible apply kept_keysLook | with_reducible apply kept_modSlot
    | with_reducible apply kept_settingsCmd | with_reducible apply kept_stOk
    | with_reducible apply kept_startOps | split | dsimp only | exact .inl rfl

theorem kept_sealOp {op : Nat} {tag : BitVec 16} {o : CryOp} (hk : Kept s₀ s) :
    Kept s₀ (sealOp op tag o s).2 := by
  unfold sealOp
  exact kept_modReeve (kept_issueOp hk) ⟨rfl, rfl, rfl⟩

theorem kept_crySealBody {c : Call} (hk : Kept s₀ s) :
    Kept s₀ (crySealBody c s).2 := by
  unfold crySealBody
  repeat' first
    | with_reducible assumption | with_reducible exact fun _ h => h
    | with_reducible exact fun _ h => Bool.noConfusion h | intro _ | with_reducible apply kept_ite
    | with_reducible apply kept_ite2 | with_reducible apply kept_badArg
    | with_reducible apply kept_badLength | with_reducible apply kept_bump
    | with_reducible apply kept_cryDenied | with_reducible apply kept_drawNonce
    | with_reducible apply kept_sealOp | with_reducible exact rfl
    | refine kept_snd (by assumption) ?_ | with_reducible apply kept_stOk | split | dsimp only

theorem kept_cryUnsealBody {c : Call} (hk : Kept s₀ s) :
    Kept s₀ (cryUnsealBody c s).2 := by
  unfold cryUnsealBody
  repeat' first
    | with_reducible assumption | with_reducible exact fun _ h => h
    | with_reducible exact fun _ h => Bool.noConfusion h | intro _ | with_reducible apply kept_ite
    | with_reducible apply kept_ite2 | with_reducible apply kept_badArg
    | with_reducible apply kept_badLength | with_reducible apply kept_bump
    | with_reducible apply kept_cryDenied | with_reducible apply kept_sealOp
    | with_reducible exact rfl | refine kept_snd (by assumption) ?_
    | with_reducible apply kept_stOk | split | dsimp only

theorem kept_cryGetSlotBody {c : Call} (hk : Kept s₀ s) :
    Kept s₀ (cryGetSlotBody c s).2 := by
  unfold cryGetSlotBody
  repeat' first
    | with_reducible assumption | with_reducible exact fun _ h => h | intro _
    | with_reducible apply kept_readCmd

theorem kept_secGetLifecycleBody {c : Call} (hk : Kept s₀ s) :
    Kept s₀ (secGetLifecycleBody c s).2 := by
  unfold secGetLifecycleBody
  repeat' first
    | with_reducible assumption | intro _ | with_reducible apply kept_fixedCmd
    | with_reducible apply kept_stOk

theorem kept_advanced {c : Call} (hk : Kept s₀ s) :
    Kept s₀ (advanced c s).2 := by
  unfold advanced
  repeat' first
    | with_reducible assumption | with_reducible apply kept_askReset
    | with_reducible apply kept_stOk

theorem kept_secAdvanceBody {took : BitVec 16} {c : Call} (hk : Kept s₀ s) :
    Kept s₀ (secAdvanceBody took c s).2 := by
  have inc {w : Nat} (x y : BitVec w) : x &&& (x ||| y) = x := by
    ext i hi; simp only [BitVec.getElem_and, BitVec.getElem_or]; cases x[i] <;> simp
  have cl {w : Nat} (x y : BitVec w) (h : (x &&& ~~~y != 0) = false) : x &&& y = x := by
    simp only [bne_eq_false_iff_eq] at h
    ext i hi
    have h1 : (x &&& ~~~y)[i] = false := by rw [h]; simp
    simp only [BitVec.getElem_and, BitVec.getElem_not] at h1 ⊢
    cases hx : x[i] <;> cases hy : y[i] <;> simp_all
  have self {w : Nat} (x : BitVec w) : x &&& x = x := BitVec.and_self
  unfold secAdvanceBody
  dsimp only
  refine kept_ite2 (kept_badLength hk) (kept_ite2 (kept_stBusy hk) (kept_ite2 (kept_notInState hk)
    (kept_ite2 (kept_badArg hk) (kept_ite2 ?_ (kept_ite2 (kept_ite2 (kept_stDenied hk) (kept_advanced
      (keep_fuses hk ⟨self _, inc _ _, self _, self _, self _, self _, self _⟩)))
      (kept_advanced (kept_eraseAll (keep_fuses hk
        ⟨self _, self _, inc _ _, self _, self _, self _, self _⟩))))))))
  split
  · exact kept_stDenied hk
  · rename_i hc
    refine kept_advanced (kept_eraseSlots (keep_fuses hk ?_))
    simp only [Bool.or_eq_true, not_or, Bool.not_eq_true, burnConflict, Bool.or_eq_false_iff] at hc
    obtain ⟨_, ⟨⟨h1, h2⟩, h3⟩, h4⟩ := hc
    exact ⟨inc _ _, self _, self _, cl _ _ h1, cl _ _ h2, cl _ _ h3, cl _ _ h4⟩

theorem kept_secDebugChallengeBody {c : Call} (hk : Kept s₀ s) :
    Kept s₀ (secDebugChallengeBody c s).2 := by
  unfold secDebugChallengeBody
  repeat' first
    | with_reducible assumption | intro _ | with_reducible apply kept_ite2
    | with_reducible apply kept_fixedCmd | with_reducible apply kept_rngDraw
    | with_reducible apply kept_stDenied | with_reducible apply kept_stOk | dsimp only
    | with_reducible apply kept_sec

theorem kept_openDebug  (hk : Kept s₀ s) :
    Kept s₀ (openDebug s) := by
  unfold openDebug
  repeat' first
    | with_reducible assumption | with_reducible apply kept_eraseAll
    | with_reducible apply kept_gateLook | with_reducible apply kept_raise | split | dsimp only
    | with_reducible apply kept_sec

theorem kept_secDebugUnlockBody {c : Call} (hk : Kept s₀ s) :
    Kept s₀ (secDebugUnlockBody c s).2 := by
  unfold secDebugUnlockBody
  repeat' first
    | with_reducible assumption | with_reducible apply kept_ite2
    | with_reducible apply kept_badLength | with_reducible apply kept_notInState
    | with_reducible apply kept_openDebug | with_reducible apply kept_raise
    | with_reducible apply kept_stBusy | with_reducible apply kept_stDenied
    | with_reducible apply kept_stOk | split | dsimp only | with_reducible apply kept_sec

/-! Operations of `BodyOf`. -/

theorem kept_bodyOf {o0 o1 : Optics} {op : Nat} {b : CmdBody} {c : Call}
    (e : bodyOf o0 o1 op = some b) (h : Kept s₀ s) : Kept s₀ (b c s).2 := by
  unfold bodyOf at e
  split at e <;> cases e
  all_goals first | with_reducible exact kept_lineConfigureLanesBody h | with_reducible exact kept_lineSetGroupBody h | with_reducible exact kept_actStartBody h | with_reducible exact kept_actStopBody h | with_reducible exact kept_actSetParentingBody h | with_reducible exact kept_supSetActionsBody h | with_reducible exact kept_supSetThresholdsBody h | with_reducible exact kept_timeSetDomainsBody h | with_reducible exact kept_timeSelectBody h | with_reducible exact kept_portConfigureBody h | with_reducible exact kept_portSetFiltersBody h | with_reducible exact kept_portSetSheafBody h | with_reducible exact kept_ptpConfigurePortBody h | with_reducible exact kept_clsLoadGraphBody h | with_reducible exact kept_clsSetPatternsBody h | with_reducible exact kept_clsStageRulesBody h | with_reducible exact kept_clsCommitBody h | with_reducible exact kept_tineLoadProgramBody h | with_reducible exact kept_tineSetPermsBody h | with_reducible exact kept_qosSetQueueBody h | with_reducible exact kept_qosSetSchedBody h | with_reducible exact kept_qosSetShaperPortBody h | with_reducible exact kept_qosSetMeterBody h | with_reducible exact kept_cryBindSlotBody h

end Sys2Proof.Machine
end

