-- ==== Sys2Proof/Laws/KeptSys.lean ====
section
/-! SUPPORT. What each operation keeps (`Kept`): boot, registers, power, pairing, management. -/
-- One list of alternatives serves every lemma below; not every lemma uses each of them.
set_option linter.unusedTactic false
set_option linter.unreachableTactic false
namespace Sys2Proof.Machine
variable {s₀ s t : State}

/-! Operations of `Swath`. -/

theorem kept_applyDeferred {o0 o1 : Optics} {sc : BitVec 48} {d : Deferred} (hk : Kept s₀ s) :
    Kept s₀ (applyDeferred o0 o1 sc d s) := by
  unfold applyDeferred
  split
  · exact hk
  · rename_i b e
    have h1 := kept_bodyOf (c := { splitCall d.cmd with payload := d.body, sc := none }) e
      (kept_modReeve (f := fun v => { v with deferred := v.deferred.erase d }) hk ⟨rfl, rfl, rfl⟩)
    dsimp only
    exact kept_ite (kept_ite (kept_markMgmt h1) (kept_raiseTag (kept_markMgmt h1)))
      (kept_answer (kept_markMgmt h1))

/-! Operations of `Boot`. -/

theorem kept_deviceReset {sys : Bool} (hk : Kept s₀ s) : Kept s₀ (deviceReset sys s) := by
  refine hk.trans ⟨rfl, rfl, fun k => ?_, (Kept.refl s).2.2.2.1, fun _ h => ?_, fun _ => .inr rfl⟩
  · rw [sound_iff] at k ⊢
    exact ⟨⟨rfl, rfl, rfl, rfl, rfl, k.1.2.2.2.2.2⟩,
      ⟨Nat.zero_le _, Nat.zero_le _, Nat.zero_le _, Nat.zero_le _, Nat.zero_le _, Nat.zero_le _,
        Nat.zero_le _⟩, Nat.zero_le _, Nat.zero_le _, k.2.2.2.2⟩
  · exact Bool.noConfusion h

theorem kept_restoreBins (hk : Kept s₀ s) : Kept s₀ (restoreBins s) := by
  unfold restoreBins
  dsimp only
  split
  · exact keep_sup (kept_storeDay hk) fun k => ⟨k.1, by simp only [List.length_take]; omega⟩
  · exact keep_sup hk fun k => ⟨k.1, by simp only [List.length_take]; omega⟩

theorem kept_romStart {sys : Bool} (hk : Kept s₀ s) :
    Kept s₀ (romStart sys s) := by
  unfold romStart
  repeat' first
    | split | dsimp only | exact Kept.same (by assumption) rfl

theorem kept_bootUp {sys : Bool} (hk : Kept s₀ s) :
    Kept s₀ (bootUp sys s) := by
  unfold bootUp
  repeat' first
    | with_reducible assumption | with_reducible apply kept_ite
    | with_reducible apply kept_raise | with_reducible apply kept_restoreBins
    | with_reducible apply kept_romStart

theorem kept_sysReset  (hk : Kept s₀ s) :
    Kept s₀ (sysReset s) := by
  unfold sysReset
  repeat' first
    | with_reducible assumption | with_reducible apply kept_bootUp
    | with_reducible apply kept_deviceReset

theorem kept_enterReset  (hk : Kept s₀ s) :
    Kept s₀ (enterReset s) := by
  unfold enterReset
  repeat' first
    | with_reducible assumption | with_reducible apply kept_deviceReset | dsimp only
    | with_reducible apply kept_pins

theorem kept_releaseReset  (hk : Kept s₀ s) :
    Kept s₀ (releaseReset s) := by
  unfold releaseReset
  repeat' first
    | with_reducible assumption | with_reducible apply kept_ite
    | with_reducible apply kept_bootUp | with_reducible apply kept_deviceReset
    | with_reducible apply kept_enterReset

theorem kept_setBoot {v : BitVec 8} (hk : Kept s₀ s) :
    Kept s₀ (setBoot v s) := by
  unfold setBoot
  repeat' first
    | with_reducible assumption | with_reducible apply kept_ite
    | with_reducible apply kept_setInt | with_reducible exact rfl | dsimp only
    | with_reducible apply kept_win

theorem kept_bootTake {img fallback : Bool} {fw : BitVec 32} {a b : Nat} (hk : Kept s₀ s) :
    Kept s₀ (bootTake img fallback fw a b s) := by
  unfold bootTake
  repeat' first
    | dsimp only | exact Kept.same (by assumption) rfl

theorem kept_bootReady {img fallback : Bool} {fw : BitVec 32} (hk : Kept s₀ s) :
    Kept s₀ (bootReady img fallback fw s) := by
  unfold bootReady
  repeat' first
    | with_reducible assumption | with_reducible exact fun _ h => h
    | with_reducible exact fun _ h => Bool.noConfusion h | intro _ | with_reducible apply kept_ite
    | with_reducible apply kept_ite2 | with_reducible apply kept_bootTake
    | with_reducible apply kept_rngDraw | with_reducible apply kept_setBoot
    | with_reducible apply kept_vendorPrograms | with_reducible exact rfl
    | refine kept_snd (by assumption) ?_ | split | dsimp only

/-! Operations of `Window`. -/

theorem kept_modI3c {f : I3c → I3c} (hk : Kept s₀ s) :
    Kept s₀ (modI3c f s) := by
  unfold modI3c
  repeat' first
    | with_reducible assumption | with_reducible apply kept_i3c

theorem kept_i3cAnswer {b : Bytes} (hk : Kept s₀ s) :
    Kept s₀ (i3cAnswer b s) := by
  unfold i3cAnswer
  repeat' first
    | with_reducible assumption | with_reducible apply kept_modI3c

theorem kept_mbInWrite {v : BitVec 8} (hk : Kept s₀ s) : Kept s₀ (mbInWrite v s) := by
  unfold mbInWrite
  exact kept_ite hk (keep_win hk fun k => tabWf_set _ _ k)

theorem kept_mbOutRead  (hk : Kept s₀ s) :
    Kept s₀ (mbOutRead s) := by
  unfold mbOutRead
  repeat' first
    | with_reducible assumption | with_reducible apply kept_modI3c
    | with_reducible apply kept_modWin | with_reducible exact rfl

theorem kept_doorbell  (hk : Kept s₀ s) :
    Kept s₀ (doorbell s) := by
  unfold doorbell
  repeat' first
    | with_reducible assumption | with_reducible apply kept_ite
    | with_reducible apply kept_modWin | with_reducible exact rfl

theorem kept_commandedReset  (hk : Kept s₀ s) :
    Kept s₀ (commandedReset s) := by
  unfold commandedReset
  repeat' first
    | with_reducible assumption | with_reducible apply kept_checkpoint
    | with_reducible apply kept_sysReset

theorem kept_respAck  (hk : Kept s₀ s) :
    Kept s₀ (respAck s) := by
  unfold respAck
  repeat' first
    | with_reducible assumption | with_reducible apply kept_ite
    | with_reducible apply kept_busyLook | with_reducible apply kept_commandedReset
    | with_reducible apply kept_modWin | with_reducible apply kept_postResponses
    | with_reducible exact rfl

theorem kept_popEvent (hk : Kept s₀ s) : Kept s₀ (popEvent s) := by
  unfold popEvent
  split
  · exact hk
  · rename_i e
    rename_i x rest
    refine kept_ite (keep_reeve hk fun k => ⟨?_, k.2⟩)
      (kept_setInt (show Kept s₀ { s with reeve := _ } from keep_reeve hk fun k => ⟨?_, k.2⟩))
    · rw [e] at k
      exact Nat.le_of_succ_le k.1
    · rw [e] at k
      show (rest ++ [_]).length ≤ 64
      simpa using k.1

theorem kept_clearInt {bits : BitVec 5} (hk : Kept s₀ s) :
    Kept s₀ (clearInt bits s) := by
  unfold clearInt
  repeat' first
    | with_reducible assumption | with_reducible apply kept_modI3c
    | with_reducible apply kept_modWin | with_reducible exact rfl

theorem kept_winCommit  (hk : Kept s₀ s) :
    Kept s₀ (winCommit s) := by
  unfold winCommit
  repeat' first
    | with_reducible assumption | with_reducible apply kept_modI3c
    | with_reducible apply kept_modWin | with_reducible apply kept_requestIbi
    | with_reducible exact rfl

theorem kept_restartReeve  (hk : Kept s₀ s) :
    Kept s₀ (restartReeve s) := by
  unfold restartReeve
  repeat' first
    | with_reducible assumption | with_reducible apply kept_ite
    | with_reducible apply kept_sysReset

theorem kept_windowWrite {a v : BitVec 8} (hk : Kept s₀ s) :
    Kept s₀ (windowWrite a v s) := by
  unfold windowWrite
  repeat' first
    | with_reducible assumption | with_reducible apply kept_ite
    | with_reducible apply kept_clearInt | with_reducible apply kept_doorbell
    | with_reducible apply kept_keyCtrlWrite | with_reducible apply kept_keyDataWrite
    | with_reducible apply kept_keySelWrite | with_reducible apply kept_mbInWrite
    | with_reducible apply kept_modWin | with_reducible apply kept_popEvent
    | with_reducible apply kept_respAck | with_reducible apply kept_restartReeve
    | with_reducible apply kept_winCommit | with_reducible exact rfl | split

/-! Operations of `CmdLife`. -/

theorem kept_lifeReadBody {c : Call} (hk : Kept s₀ s) :
    Kept s₀ (lifeReadBody c s).2 := by
  unfold lifeReadBody
  repeat' first
    | with_reducible assumption | intro _ | with_reducible apply kept_badArg
    | with_reducible apply kept_fixedCmd | with_reducible apply kept_stOk | split

theorem kept_lifeGetSummaryBody {c : Call} (hk : Kept s₀ s) :
    Kept s₀ (lifeGetSummaryBody c s).2 := by
  unfold lifeGetSummaryBody
  repeat' first
    | with_reducible assumption | intro _ | with_reducible apply kept_fixedCmd
    | with_reducible apply kept_stOk

theorem kept_lifeMarkBody {ms : List Bool} {c : Call} (hk : Kept s₀ s) :
    Kept s₀ (lifeMarkBody ms c s).2 := by
  unfold lifeMarkBody
  refine kept_fixedCmd (fun _ _ u h => kept_ite2 (kept_stBusy h) (kept_stOk (keep_life h fun k => ?_))) hk
  obtain ⟨e1, e2, e3, -⟩ := writeSlot_records (r := 3) (ms := ms)
    (l := { u.life with misreads := ms })
  refine ⟨?_, ?_, ?_, ?_⟩
  · dsimp only [putRecord]; rw [e1]; exact k.1
  · dsimp only [putRecord]; rw [e2]; exact k.2.1
  · dsimp only [putRecord]; rw [e3]; exact k.2.2.1
  · exact (List.length_take_le _ _).trans ringCap_le

/-! Operations of `PwrBanks`. -/

theorem kept_dropSettings {p : Nat → Nat → Nat → Bool} (h : Kept s₀ s) :
    Kept s₀ (dropSettings p s) := keep_settings h fun k => tabWf_filter _ k

theorem kept_dropCounters {p : Nat → Nat → Bool} (h : Kept s₀ s) : Kept s₀ (dropCounters p s) :=
  keep_counters h fun k => tabWf_filter _ k

theorem clearAon_view {u : State} {x : Act} (h : Kept s₀ u) : Kept s₀ { u with
      lanes := [], groups := [], lots := [], reasm := [], toTime := [], us := {}
      act := x, sup := { u.sup with lane := [], plm := [], dom := [], inst := [] }, time := {} } := by
  have h1 : Kept s₀ { u with us := {} } := keep_us h fun _ h => Bool.noConfusion h
  have h2 : Kept s₀ { u with us := {}, time := {} } := keep_time h1 fun _ => Nat.zero_le _
  exact h2.same rfl

theorem kept_clearAonLine (hk : Kept s₀ s) : Kept s₀ (clearAonLine s) := by
  unfold clearAonLine
  exact kept_roleOutLook (kept_supLook (kept_refLook (kept_each
    (fun _ _ h => kept_domDisable (kept_putSetting h)) (kept_each (fun _ _ h => kept_modLane h)
    (clearAon_view (kept_freeBushels (kept_dropSettings hk)))))))

theorem clearReeve_view {u : State} {x : Pwr} {b : Bin} (e : x.chips = u.pwr.chips)
    (h : Kept s₀ u) : Kept s₀ { u with
      pwr := x, tine := { u.tine with faultLog := [] }
      sup := { u.sup with closed15 := [], open15 := b } } := by
  have h1 : Kept s₀ { u with pwr := x } := kept_pwr h e
  have h2 : Kept s₀ { u with pwr := x, tine := { u.tine with faultLog := [] } } :=
    keep_tine h1 id fun k => ⟨k.1, Nat.zero_le _⟩
  exact keep_sup h2 fun k => ⟨Nat.zero_le _, k.2⟩

theorem kept_clearReeve (hk : Kept s₀ s) : Kept s₀ (clearReeve s) := by
  unfold clearReeve
  exact kept_busyLook (clearReeve_view rfl (kept_modWin (keep_reeve hk fun k =>
    ⟨k.1, Nat.zero_le _, Nat.zero_le _⟩) rfl))

theorem kept_clearLane {rx : Bool} {l : Nat} (hk : Kept s₀ s) :
    Kept s₀ (clearLane rx l s) := by
  unfold clearLane
  repeat' first
    | with_reducible assumption | with_reducible exact fun _ h => h
    | with_reducible exact fun _ h => Bool.noConfusion h | intro _ | with_reducible apply kept_ite
    | with_reducible apply kept_ite2 | with_reducible apply kept_disableLane
    | with_reducible apply kept_dropSettings | with_reducible apply kept_gateLook
    | with_reducible apply kept_lockLook | with_reducible apply kept_modLane
    | with_reducible apply kept_modUsLane | with_reducible apply kept_roleOutLook
    | with_reducible apply kept_supLook | with_reducible exact rfl
    | refine kept_snd (by assumption) ?_ | split | dsimp only

theorem kept_clearQuad {q : Nat} (hk : Kept s₀ s) :
    Kept s₀ (clearQuad q s) := by
  unfold clearQuad
  repeat' first
    | with_reducible assumption | intro _ | with_reducible apply kept_dropCounters
    | with_reducible apply kept_dropSettings | with_reducible apply kept_each
    | with_reducible apply kept_freeBushels | with_reducible apply kept_modPort
    | with_reducible apply kept_modSLane

theorem kept_clearCls  (hk : Kept s₀ s) :
    Kept s₀ (clearCls s) := by
  unfold clearCls
  repeat' first
    | with_reducible assumption | with_reducible apply kept_cls

theorem kept_clearMeters  (hk : Kept s₀ s) :
    Kept s₀ (clearMeters s) := by
  unfold clearMeters
  repeat' first
    | with_reducible assumption | with_reducible apply kept_dropSettings | dsimp only
    | with_reducible apply kept_qos

theorem kept_clearCrypto  (hk : Kept s₀ s) :
    Kept s₀ (clearCrypto s) := by
  unfold clearCrypto
  repeat' first
    | with_reducible assumption | with_reducible exact fun _ h => h
    | with_reducible exact fun _ h => Bool.noConfusion h | intro _ | with_reducible apply kept_ite
    | with_reducible apply kept_ite2 | with_reducible apply kept_each
    | with_reducible apply kept_each | with_reducible apply kept_eraseAll
    | with_reducible apply kept_keysLook | with_reducible apply kept_modSlot
    | with_reducible exact rfl | refine kept_snd (by assumption) ?_ | split | dsimp only
    | with_reducible apply kept_cry | exact .inl rfl

theorem kept_clearHarrow {h : Nat} (hk : Kept s₀ s) : Kept s₀ (clearHarrow h s) := by
  unfold clearHarrow
  exact kept_each (fun _ _ h => kept_modPmc h) (kept_dropCounters (keep_tine hk
    (fun k => ⟨tabWf_filter _ k.1, k.2⟩) id))

theorem kept_unloadPrograms  (hk : Kept s₀ s) :
    Kept s₀ (unloadPrograms s) := by
  unfold unloadPrograms
  repeat' first
    | with_reducible assumption | with_reducible apply kept_modTine
    | with_reducible exact ⟨rfl, rfl, rfl, rfl⟩

theorem kept_loseFrames {ds : Bool} {q : Nat} (hk : Kept s₀ s) :
    Kept s₀ (loseFrames ds q s) := by
  unfold loseFrames
  repeat' first
    | with_reducible assumption | with_reducible apply kept_bump
    | with_reducible apply kept_freeBushels | with_reducible apply kept_modQueue
    | with_reducible apply kept_freeCtr

theorem kept_loseReasm {id : Nat} (hk : Kept s₀ s) :
    Kept s₀ (loseReasm id s) := by
  unfold loseReasm
  repeat' first
    | with_reducible assumption | with_reducible apply kept_ite | with_reducible apply kept_bump
    | with_reducible apply kept_drawn | with_reducible apply kept_dropReasm

theorem kept_clearBuf  (hk : Kept s₀ s) :
    Kept s₀ (clearBuf s) := by
  unfold clearBuf
  repeat' first
    | with_reducible assumption | intro _ | with_reducible apply kept_each
    | with_reducible apply kept_loseFrames | with_reducible apply kept_loseReasm

theorem kept_bankFail {k : Nat} (hk : Kept s₀ s) :
    Kept s₀ (bankFail k s) := by
  unfold bankFail
  repeat' first
    | with_reducible assumption | with_reducible apply kept_ite | with_reducible apply kept_bump
    | with_reducible apply kept_clearAonLine | with_reducible apply kept_clearBuf
    | with_reducible apply kept_clearCls | with_reducible apply kept_clearCrypto
    | with_reducible apply kept_clearHarrow | with_reducible apply kept_clearLane
    | with_reducible apply kept_clearMeters | with_reducible apply kept_clearQuad
    | with_reducible apply kept_clearReeve | with_reducible apply kept_dropSettings
    | with_reducible apply kept_modPair | with_reducible apply kept_raise
    | with_reducible exact ⟨rfl, rfl, rfl, rfl⟩ | dsimp only | with_reducible apply kept_life

theorem kept_failBanks {failed d : BitVec 64} (hk : Kept s₀ s) :
    Kept s₀ (failBanks failed d s) := by
  unfold failBanks
  repeat' first
    | with_reducible assumption | intro _ | with_reducible apply kept_ite
    | with_reducible apply kept_bankFail | with_reducible apply kept_each
    | with_reducible apply kept_unloadPrograms

/-! Operations of `Snap`. -/

theorem kept_snapDom {sc : BitVec 48} {d : Nat} {x : Dom × Option Int} (hk : Kept s₀ s) :
    Kept s₀ (snapDom sc d x s) := by
  unfold snapDom
  repeat' first
    | with_reducible assumption | with_reducible apply kept_modDom | split

theorem kept_snapLane {l : Nat} {g : Option (BitVec 2)} (hk : Kept s₀ s) :
    Kept s₀ (snapLane l g s) := by
  unfold snapLane
  repeat' first
    | with_reducible assumption | with_reducible apply kept_ite
    | with_reducible apply kept_assignGroup | with_reducible apply kept_disableLane
    | with_reducible apply kept_domainOn | with_reducible apply kept_enableLane | split

theorem kept_snapSettings {x : Snap} (hk : Kept s₀ s) : Kept s₀ (snapSettings x s) := by
  have hs : ∀ (l : Tab (Option Int)) (t : Tab (Option Int)), tabWf none t = true →
      tabWf none (l.foldl (fun t e => tabSet none t e.1 e.2) t) = true := by
    intro l
    induction l with
    | nil => exact fun _ h => h
    | cons e l ih => exact fun t h => ih _ (tabWf_set _ _ h)
  exact keep_settings hk fun k => hs _ _ (tabWf_filter _ k)

theorem kept_snapAct {x : Snap} (hk : Kept s₀ s) : Kept s₀ (snapAct x s) :=
  kept_lots (x := x.lots) (kept_act (kept_each (fun _ _ h => kept_removeLot h) (kept_setUsMode hk)))

theorem kept_snapTables {x : Snap} (hk : Kept s₀ s) : Kept s₀ (snapTables x s) :=
  kept_bump (kept_tine (kept_cls hk) ⟨rfl, rfl, rfl, rfl⟩)

theorem kept_snapEmpty {ds : Bool} {q : Nat} (hk : Kept s₀ s) :
    Kept s₀ (snapEmpty ds q s) := by
  unfold snapEmpty
  repeat' first
    | with_reducible assumption | with_reducible apply kept_ite
    | with_reducible apply kept_flushQueue

theorem kept_applySnap {o0 o1 : Optics} {x : Snap} (hk : Kept s₀ s) :
    Kept s₀ (applySnap o0 o1 x s) := by
  unfold applySnap
  repeat' first
    | with_reducible assumption | with_reducible exact fun _ h => h | intro _
    | with_reducible apply kept_ite | with_reducible apply kept_each
    | with_reducible apply kept_enableLtx | with_reducible apply kept_keysLook
    | with_reducible apply kept_lockLook | with_reducible apply kept_modPair
    | with_reducible apply kept_modPort | with_reducible apply kept_modSlot
    | with_reducible apply kept_modUsLane | with_reducible apply kept_portsLook
    | with_reducible apply kept_putFit | with_reducible apply kept_selectDomain
    | with_reducible apply kept_snapAct | with_reducible apply kept_snapDom
    | with_reducible apply kept_snapEmpty | with_reducible apply kept_snapLane
    | with_reducible apply kept_snapSettings | with_reducible apply kept_snapTables
    | with_reducible apply kept_startOps | with_reducible apply kept_supLook | dsimp only
    | exact .inl rfl

/-! Operations of `PairOps`. -/

theorem kept_startLease  (hk : Kept s₀ s) :
    Kept s₀ (startLease s) := by
  unfold startLease
  repeat' first
    | with_reducible assumption | with_reducible apply kept_modPair

theorem kept_raiseGap  (hk : Kept s₀ s) :
    Kept s₀ (raiseGap s) := by
  unfold raiseGap
  repeat' first
    | with_reducible assumption | with_reducible apply kept_raise

theorem kept_gapLook {fw : BitVec 32} (hk : Kept s₀ s) :
    Kept s₀ (gapLook fw s) := by
  unfold gapLook
  repeat' first
    | with_reducible assumption | with_reducible apply kept_modPair

theorem kept_dropClaim  (hk : Kept s₀ s) :
    Kept s₀ (dropClaim s) := by
  unfold dropClaim
  repeat' first
    | with_reducible assumption | with_reducible apply kept_modPair

theorem kept_tetherIn {ok : Bool} {f : State → State} (hf : ∀ s, Kept s₀ s → Kept s₀ (f s))
    (hk : Kept s₀ s) : Kept s₀ (tetherIn ok f s) := by
  unfold tetherIn
  repeat' first
    | with_reducible assumption | apply hf | with_reducible apply kept_ite
    | with_reducible apply kept_bump

theorem kept_startAttempt  (hk : Kept s₀ s) :
    Kept s₀ (startAttempt s) := by
  unfold startAttempt
  repeat' first
    | with_reducible assumption | with_reducible apply kept_ite
    | with_reducible apply kept_modPair | with_reducible apply kept_tetherSend

theorem kept_rejoinFails  (hk : Kept s₀ s) :
    Kept s₀ (rejoinFails s) := by
  unfold rejoinFails
  repeat' first
    | with_reducible assumption | with_reducible apply kept_bump
    | with_reducible apply kept_modPair | with_reducible apply kept_raise
    | with_reducible apply kept_setPair

theorem kept_failAttempt  (hk : Kept s₀ s) :
    Kept s₀ (failAttempt s) := by
  unfold failAttempt
  repeat' first
    | with_reducible assumption | with_reducible apply kept_ite
    | with_reducible apply kept_rejoinFails | with_reducible apply kept_startAttempt

theorem kept_startRejoin  (hk : Kept s₀ s) :
    Kept s₀ (startRejoin s) := by
  unfold startRejoin
  repeat' first
    | with_reducible assumption | with_reducible apply kept_modPair
    | with_reducible apply kept_setPair | with_reducible apply kept_startAttempt

theorem kept_rejoinLook  (hk : Kept s₀ s) :
    Kept s₀ (rejoinLook s) := by
  unfold rejoinLook
  repeat' first
    | with_reducible assumption | with_reducible apply kept_ite
    | with_reducible apply kept_startRejoin

theorem kept_noAck {h : Held} (hk : Kept s₀ s) :
    Kept s₀ (noAck h s) := by
  unfold noAck
  repeat' first
    | with_reducible assumption | with_reducible apply kept_answer
    | with_reducible apply kept_bump | with_reducible apply kept_modPair

theorem kept_tetherFall  (hk : Kept s₀ s) :
    Kept s₀ (tetherFall s) := by
  unfold tetherFall
  repeat' first
    | with_reducible assumption | intro _ | with_reducible apply kept_ite
    | with_reducible apply kept_bump | with_reducible apply kept_each
    | with_reducible apply kept_failAttempt | with_reducible apply kept_modPair
    | with_reducible apply kept_noAck | with_reducible apply kept_raise

theorem kept_tetherRise  (hk : Kept s₀ s) :
    Kept s₀ (tetherRise s) := by
  unfold tetherRise
  repeat' first
    | with_reducible assumption | with_reducible apply kept_ite
    | with_reducible apply kept_modPair | with_reducible apply kept_raise
    | with_reducible apply kept_rejoinLook | with_reducible apply kept_startAttempt

theorem kept_dropSent {i : Nat} {last : BitVec 8} (hk : Kept s₀ s) :
    Kept s₀ (dropSent i last s) := by
  unfold dropSent
  repeat' first
    | with_reducible assumption | with_reducible apply kept_modInst

theorem kept_wiringLook {b : HealthBody} (hk : Kept s₀ s) :
    Kept s₀ (wiringLook b s) := by
  unfold wiringLook
  repeat' first
    | with_reducible assumption | with_reducible apply kept_ite
    | with_reducible apply kept_modPair | with_reducible apply kept_raise

theorem kept_digestLook {b : HealthBody} (hk : Kept s₀ s) :
    Kept s₀ (digestLook b s) := by
  unfold digestLook
  repeat' first
    | with_reducible assumption | with_reducible apply kept_ite | with_reducible apply kept_bump
    | with_reducible apply kept_modPair | with_reducible apply kept_raise
    | with_reducible apply kept_rejoinFails

theorem kept_takeOffset {d : Int} (hk : Kept s₀ s) :
    Kept s₀ (takeOffset d s) := by
  unfold takeOffset
  repeat' first
    | with_reducible assumption | with_reducible apply kept_ite
    | with_reducible apply kept_modPair | with_reducible apply kept_raise

/-! Operations of `Power`. -/

theorem kept_queueNotice {target : PwrState} {abandoned : Bool} {source i : Nat} (hk : Kept s₀ s) :
    Kept s₀ (queueNotice target abandoned source i s) := by
  unfold queueNotice
  repeat' first
    | with_reducible assumption | with_reducible apply kept_queueMsg

theorem kept_withdrawNotice {i : Nat} (hk : Kept s₀ s) :
    Kept s₀ (withdrawNotice i s) := by
  unfold withdrawNotice
  repeat' first
    | with_reducible assumption | with_reducible apply kept_modInst

theorem kept_startNotices {target : PwrState} (hk : Kept s₀ s) :
    Kept s₀ (startNotices target s) := by
  unfold startNotices
  repeat' first
    | with_reducible assumption | intro _ | with_reducible apply kept_ite
    | with_reducible apply kept_bump | with_reducible apply kept_each
    | with_reducible apply kept_modPwr | with_reducible apply kept_queueNotice
    | with_reducible exact rfl

theorem kept_enterState {target : PwrState} {tag : BitVec 16} (hk : Kept s₀ s) :
    Kept s₀ (enterState target tag s) := by
  have h1 : Kept s₀ (raise 0x0201 0 (pwrCode target) (modPwr (fun p => { p with
      phase := .entering, target := target, point := 1, tag := some tag, runTags := []
      onAtE1 := if s.pwr.st == .run then p.on else p.onAtE1 ||| p.on
      latchedWas := p.latched, sigs := false, wake := none, intakeStopped := false
      noticeP := false, noticeS := false, noticeWait := false, drainWait := false
      chips := if s.pwr.st == .run then [] else p.chips }) s)) :=
    kept_raise (keep_pwr hk fun k => by dsimp only; split <;> first | exact Nat.zero_le _ | exact k)
  exact kept_drainLook (kept_ite (kept_startNotices h1) h1)

theorem kept_pwrEvent {code : BitVec 16} {data : Nat} {tags : List (BitVec 16)} (hk : Kept s₀ s) :
    Kept s₀ (pwrEvent code data tags s) := by
  unfold pwrEvent
  repeat' first
    | with_reducible assumption | intro _ | with_reducible apply kept_ite
    | with_reducible apply kept_each | with_reducible apply kept_raise
    | with_reducible apply kept_raiseTag

theorem kept_abandonEntry {n : Nat} (hk : Kept s₀ s) :
    Kept s₀ (abandonEntry n s) := by
  unfold abandonEntry
  repeat' first
    | with_reducible assumption | intro _ | with_reducible apply kept_ite
    | with_reducible apply kept_bump | with_reducible apply kept_each
    | with_reducible apply kept_laneUp | with_reducible apply kept_modPwr
    | with_reducible apply kept_pwrEvent | with_reducible apply kept_queueNotice
    | with_reducible apply kept_withdrawNotice | with_reducible exact rfl

theorem kept_reachPoint {n : Nat} {f : State → State} (hf : ∀ s, Kept s₀ s → Kept s₀ (f s))
    (hk : Kept s₀ s) : Kept s₀ (reachPoint n f s) := by
  unfold reachPoint
  repeat' first
    | with_reducible assumption | apply hf | with_reducible apply kept_ite
    | with_reducible apply kept_abandonEntry | with_reducible apply kept_modPwr
    | with_reducible exact rfl

theorem kept_latchPads {slSignal : BitVec 8} (hk : Kept s₀ s) :
    Kept s₀ (latchPads slSignal s) := by
  unfold latchPads
  repeat' first
    | with_reducible assumption | with_reducible exact fun _ h => h
    | with_reducible exact fun _ h => Bool.noConfusion h | intro _ | with_reducible apply kept_ite
    | with_reducible apply kept_ite2 | with_reducible apply kept_each
    | with_reducible apply kept_each | with_reducible apply kept_gateLook
    | with_reducible apply kept_laneDown | with_reducible apply kept_modPwr
    | with_reducible apply kept_refLook | with_reducible exact rfl
    | refine kept_snd (by assumption) ?_ | split | dsimp only | with_reducible apply kept_time

theorem kept_isolate  (hk : Kept s₀ s) :
    Kept s₀ (isolate s) := by
  unfold isolate
  repeat' first
    | with_reducible assumption | intro _ | with_reducible apply kept_ite
    | with_reducible apply kept_accrue | with_reducible apply kept_bump
    | with_reducible apply kept_each | with_reducible apply kept_modPwr
    | with_reducible apply kept_refLook | with_reducible apply kept_servoLose
    | with_reducible exact rfl | split | dsimp only | with_reducible apply kept_clk

theorem kept_actPwrWake {m : FieldMsg} {_u1 : Nat} (hk : Kept s₀ s) :
    Kept s₀ (actPwrWake m _u1 s).2 := by
  unfold actPwrWake
  repeat' first
    | with_reducible assumption | with_reducible apply kept_ite2
    | with_reducible apply kept_wakeEvent

theorem kept_wakeBins (hk : Kept s₀ s) : Kept s₀ (wakeBins s) := by
  unfold wakeBins
  dsimp only
  have h1 : ∀ u, Kept s₀ u → Kept s₀ (each storeDay (passedBins s s.sup.openDay 86400 31).1 u) :=
    fun u h => kept_each (fun _ _ h => kept_storeDay h) h
  have h2 := h1 _ (keep_sup (x := { s.sup with
    openDay := (passedBins s s.sup.openDay 86400 31).2
    closedDay := ((passedBins s s.sup.openDay 86400 31).1.reverse ++ s.sup.closedDay).take 31 })
    hk fun k => ⟨k.1, by simp only [List.length_take]; omega⟩)
  exact kept_ite (keep_sup h2 fun k => ⟨by simp only [List.length_take]; omega, k.2⟩)
    (kept_checkpoint (keep_sup h2 fun k => ⟨by simp only [List.length_take]; omega, k.2⟩))

theorem kept_reportGap  (hk : Kept s₀ s) :
    Kept s₀ (reportGap s) := by
  unfold reportGap
  repeat' first
    | with_reducible assumption | with_reducible apply kept_ite
    | with_reducible apply kept_raise | split | dsimp only | exact Kept.same (by assumption) rfl

theorem kept_completeWake {w : Wake} {failed : BitVec 64} (hk : Kept s₀ s) :
    Kept s₀ (completeWake w failed s) := by
  unfold completeWake
  repeat' first
    | with_reducible assumption | intro _ | with_reducible apply kept_ite
    | with_reducible apply kept_accrue | with_reducible apply kept_each
    | with_reducible apply kept_failBanks | with_reducible apply kept_laneUp
    | with_reducible apply kept_modPwr | with_reducible apply kept_pwrEvent
    | with_reducible apply kept_queueNotice | with_reducible apply kept_refLook
    | with_reducible apply kept_reportGap | with_reducible apply kept_timeLook
    | with_reducible apply kept_wakeBins | with_reducible exact rfl | dsimp only
    | with_reducible apply kept_clk

theorem kept_gateBuf {b : Nat} {tag : BitVec 16} (hk : Kept s₀ s) :
    Kept s₀ (gateBuf b tag s) := by
  unfold gateBuf
  repeat' first
    | with_reducible assumption | with_reducible apply kept_ite
    | with_reducible apply kept_drawn | with_reducible apply kept_modPwr
    | with_reducible apply kept_takeBushels | with_reducible exact rfl

theorem kept_gateOff {tag : BitVec 16} {n : Nat} (hk : Kept s₀ s) :
    Kept s₀ (gateOff tag n s) := by
  unfold gateOff
  repeat' first
    | with_reducible assumption | with_reducible apply kept_ite
    | with_reducible apply kept_gateBuf | with_reducible apply kept_gateHarrow
    | with_reducible apply kept_modPwr | with_reducible exact rfl

theorem kept_gateOn {failed : BitVec 64} {n : Nat} (hk : Kept s₀ s) :
    Kept s₀ (gateOn failed n s) := by
  unfold gateOn
  repeat' first
    | with_reducible assumption | intro _ | with_reducible apply kept_ite
    | with_reducible apply kept_each | with_reducible apply kept_failBanks
    | with_reducible apply kept_modPmc | with_reducible apply kept_modPwr
    | with_reducible apply kept_modTine | with_reducible exact rfl
    | with_reducible exact ⟨rfl, rfl, rfl, rfl⟩ | split | dsimp only
    | with_reducible apply kept_qos

theorem kept_pwrSetDomainsBody {failed : BitVec 64} {c : Call} (hk : Kept s₀ s) :
    Kept s₀ (pwrSetDomainsBody failed c s).2 := by
  unfold pwrSetDomainsBody
  repeat' first
    | with_reducible assumption | intro _ | with_reducible apply kept_ite2
    | with_reducible apply kept_badArg | with_reducible apply kept_each
    | with_reducible apply kept_fixedCmd | with_reducible apply kept_gateOff
    | with_reducible apply kept_gateOn | with_reducible apply kept_notInState
    | with_reducible apply kept_stBusy | with_reducible apply kept_stOk
    | with_reducible apply kept_stPending

theorem kept_pwrSetStateBody {c : Call} (hk : Kept s₀ s) :
    Kept s₀ (pwrSetStateBody c s).2 := by
  unfold pwrSetStateBody
  repeat' first
    | with_reducible assumption | with_reducible exact fun _ h => h
    | with_reducible exact fun _ h => Bool.noConfusion h | intro _ | with_reducible apply kept_ite
    | with_reducible apply kept_ite2 | with_reducible apply kept_badArg
    | with_reducible apply kept_enterState | with_reducible apply kept_modPwr
    | with_reducible apply kept_notInState | with_reducible apply kept_putGiven
    | with_reducible apply kept_raise | with_reducible apply kept_settingsCmd
    | with_reducible apply kept_stBusy | with_reducible apply kept_stDenied
    | with_reducible apply kept_stOk | with_reducible apply kept_stPending
    | with_reducible apply kept_wakeEvent | with_reducible exact rfl
    | refine kept_snd (by assumption) ?_ | split | dsimp only

theorem kept_pwrGetStateBody {c : Call} (hk : Kept s₀ s) :
    Kept s₀ (pwrGetStateBody c s).2 := by
  unfold pwrGetStateBody
  repeat' first
    | with_reducible assumption | with_reducible exact fun _ h => h | intro _
    | with_reducible apply kept_readCmd

theorem kept_pwrReleasePadsBody {c : Call} (hk : Kept s₀ s) :
    Kept s₀ (pwrReleasePadsBody c s).2 := by
  unfold pwrReleasePadsBody
  repeat' first
    | with_reducible assumption | intro _ | with_reducible apply kept_ite2
    | with_reducible apply kept_fixedCmd | with_reducible apply kept_gateLook
    | with_reducible apply kept_modPwr | with_reducible apply kept_notInState
    | with_reducible apply kept_stBusy | with_reducible apply kept_stOk
    | with_reducible exact rfl

theorem kept_pwrGetWakeReportBody {c : Call} (hk : Kept s₀ s) :
    Kept s₀ (pwrGetWakeReportBody c s).2 := by
  unfold pwrGetWakeReportBody
  repeat' first
    | with_reducible assumption | intro _ | with_reducible apply kept_fixedCmd
    | with_reducible apply kept_stOk

/-! Operations of `Pair`. -/

theorem kept_startYield {y : Yield} (hk : Kept s₀ s) :
    Kept s₀ (startYield y s) := by
  unfold startYield
  repeat' first
    | with_reducible assumption | with_reducible apply kept_modPair
    | with_reducible apply kept_yieldLook

theorem kept_applyLate {o0 o1 : Optics} {h : Held} (hk : Kept s₀ s) :
    Kept s₀ (applyLate o0 o1 h s) := by
  unfold applyLate
  split
  · exact hk
  · exact kept_bodyOf (by assumption) (kept_modPair hk)

theorem kept_takeSnapshot {o0 o1 : Optics} {sc : BitVec 48} {x : Snap} (hk : Kept s₀ s) :
    Kept s₀ (takeSnapshot o0 o1 sc x s) := by
  unfold takeSnapshot
  repeat' first
    | with_reducible assumption | intro _ | with_reducible apply kept_applyLate
    | with_reducible apply kept_applySnap | with_reducible apply kept_bump
    | with_reducible apply kept_each | with_reducible apply kept_modPair
    | with_reducible apply kept_setPair

theorem kept_enterPair  (hk : Kept s₀ s) :
    Kept s₀ (enterPair s) := by
  unfold enterPair
  repeat' first
    | with_reducible assumption | with_reducible apply kept_domainOn
    | with_reducible apply kept_gateLook | with_reducible apply kept_modPair
    | with_reducible apply kept_setPair

theorem kept_leavePair  (hk : Kept s₀ s) :
    Kept s₀ (leavePair s) := by
  unfold leavePair
  repeat' first
    | with_reducible assumption | with_reducible apply kept_ite
    | with_reducible apply kept_dropClaim | with_reducible apply kept_gateLook
    | with_reducible apply kept_leaveActive | with_reducible apply kept_modPair
    | with_reducible apply kept_roleOutLook | with_reducible apply kept_setPair
    | with_reducible apply kept_tetherFall

theorem kept_pairConfigureBody {c : Call} (hk : Kept s₀ s) :
    Kept s₀ (pairConfigureBody c s).2 := by
  unfold pairConfigureBody
  repeat' first
    | with_reducible assumption | intro _ | with_reducible apply kept_ite2
    | with_reducible apply kept_badArg | with_reducible apply kept_enterPair
    | with_reducible apply kept_leavePair | with_reducible apply kept_modPair
    | with_reducible apply kept_notInState | with_reducible apply kept_portsLook
    | with_reducible apply kept_putGiven | with_reducible apply kept_settingsCmd
    | with_reducible apply kept_stOk

theorem kept_pairGetStateBody {c : Call} (hk : Kept s₀ s) :
    Kept s₀ (pairGetStateBody c s).2 := by
  unfold pairGetStateBody
  repeat' first
    | with_reducible assumption | with_reducible exact fun _ h => h | intro _
    | with_reducible apply kept_readCmd

theorem kept_yieldCmd {force : Bool} (hk : Kept s₀ s) :
    Kept s₀ (yieldCmd force s).2 := by
  unfold yieldCmd
  repeat' first
    | with_reducible assumption | with_reducible apply kept_ite2
    | with_reducible apply kept_modPair | with_reducible apply kept_notInState
    | with_reducible apply kept_refuse | with_reducible apply kept_stOk
    | with_reducible apply kept_startYield

theorem kept_isolateCmd {force : Bool} (hk : Kept s₀ s) :
    Kept s₀ (isolateCmd force s).2 := by
  unfold isolateCmd
  repeat' first
    | with_reducible assumption | with_reducible apply kept_dropClaim
    | with_reducible apply kept_modPair | with_reducible apply kept_notInState
    | with_reducible apply kept_setPair | with_reducible apply kept_stOk
    | with_reducible apply kept_startYield | split

theorem kept_pairYieldBody {c : Call} (hk : Kept s₀ s) :
    Kept s₀ (pairYieldBody c s).2 := by
  unfold pairYieldBody
  repeat' first
    | with_reducible assumption | intro _ | with_reducible apply kept_badArg
    | with_reducible apply kept_fixedCmd | with_reducible apply kept_isolateCmd
    | with_reducible apply kept_yieldCmd | split

theorem kept_pairRejoinBody {c : Call} (hk : Kept s₀ s) :
    Kept s₀ (pairRejoinBody c s).2 := by
  unfold pairRejoinBody
  repeat' first
    | with_reducible assumption | intro _ | with_reducible apply kept_ite2
    | with_reducible apply kept_fixedCmd | with_reducible apply kept_modPair
    | with_reducible apply kept_notInState | with_reducible apply kept_setPair
    | with_reducible apply kept_stOk | with_reducible apply kept_startRejoin

/-! Operations of `Ptp`. -/

theorem kept_ptpSend {p kind : Nat} {b event one : Bool} {client : Option (BitVec 128)}
    {dst : Option (BitVec 48 × BitVec 128)} {m : Bytes} (hk : Kept s₀ s) :
    Kept s₀ (ptpSend p kind b event one client dst m s) := by
  unfold ptpSend
  repeat' first
    | with_reducible assumption | with_reducible exact fun _ h => h
    | with_reducible exact fun _ h => Bool.noConfusion h | intro _ | with_reducible apply kept_ite
    | with_reducible apply kept_ite2 | with_reducible apply kept_drawn
    | with_reducible apply kept_sendTime | with_reducible exact rfl
    | refine kept_snd (by assumption) ?_ | split | dsimp only

theorem kept_unclaim {p : Nat} {c : Claimed} (hk : Kept s₀ s) :
    Kept s₀ (unclaim p c s) := by
  unfold unclaim
  repeat' first
    | with_reducible assumption | with_reducible apply kept_modPort

theorem kept_signalTlv {p : Nat} {b : Bool} {src : Option Nat} {mac : BitVec 48} {ip : BitVec 128}
    {ty : Nat} {v : Bytes} (hk : Kept s₀ s) :
    Kept s₀ (signalTlv p b src mac ip ty v s).2 := by
  unfold signalTlv
  repeat' first
    | with_reducible assumption | with_reducible exact fun _ h => h
    | with_reducible exact fun _ h => Bool.noConfusion h | intro _ | with_reducible apply kept_ite
    | with_reducible apply kept_ite2 | with_reducible apply kept_bump
    | with_reducible apply kept_drawn | with_reducible apply kept_modPort
    | with_reducible exact rfl | refine kept_snd (by assumption) ?_ | split | dsimp only

/-! Operations of `Reeve`. -/

theorem kept_reeveFault {f : Reeve → Reeve} (hk : Kept s₀ s)
    (e : (f s.reeve).events = s.reeve.events ∧ (f s.reeve).mgmt0 = s.reeve.mgmt0 ∧
      (f s.reeve).mgmt1 = s.reeve.mgmt1) : Kept s₀ (reeveFault f s) :=
  kept_setInt (kept_modWin (kept_modReeve hk e) rfl)

theorem kept_takeCommand {src : CmdSrc} {b : Bytes} {fits : Nat → Bool} (hk : Kept s₀ s) :
    Kept s₀ (takeCommand src b fits s) := by
  unfold takeCommand
  repeat' first
    | with_reducible assumption | with_reducible apply kept_ite
    | with_reducible apply kept_answer | with_reducible apply kept_modReeve
    | with_reducible exact ⟨rfl, rfl, rfl⟩

theorem kept_takeMailbox (hk : Kept s₀ s) : Kept s₀ (takeMailbox s) := by
  unfold takeMailbox
  exact kept_busyLook (kept_takeCommand (kept_modReeve (keep_win hk fun _ => rfl) ⟨rfl, rfl, rfl⟩))

theorem kept_takeMgmt {i : Fin 2} {m : MgmtCmd} (hk : Kept s₀ s) : Kept s₀ (takeMgmt i m s) := by
  have hd (l : List MgmtCmd) (c : Prop) [Decidable c] (h : l.length ≤ 16) :
      (if c then l.drop 1 else l).length ≤ 16 := by
    split
    · simp only [List.length_drop]; omega
    · exact h
  unfold takeMgmt
  exact kept_takeCommand (kept_bump (keep_reeve hk fun k => ⟨k.1, hd _ _ k.2.1, hd _ _ k.2.2⟩))

theorem kept_sysGetInfoBody {c : Call} (hk : Kept s₀ s) :
    Kept s₀ (sysGetInfoBody c s).2 := by
  unfold sysGetInfoBody
  repeat' first
    | with_reducible assumption | intro _ | with_reducible apply kept_fixedCmd
    | with_reducible apply kept_stOk

theorem kept_sysResetBody {c : Call} (hk : Kept s₀ s) :
    Kept s₀ (sysResetBody c s).2 := by
  unfold sysResetBody
  repeat' first
    | with_reducible assumption | intro _ | with_reducible apply kept_askReset
    | with_reducible apply kept_fixedCmd | with_reducible apply kept_stOk

theorem kept_modRegion {img : Bool} {f : Tab (BitVec 8) → Tab (BitVec 8)}
    (hf : ∀ t, tabWf 0xFF t = true → tabWf 0xFF (f t) = true) (hk : Kept s₀ s) :
    Kept s₀ (modRegion img f s) := by
  refine keep_flash hk fun k => ?_
  cases img
  · exact ⟨hf _ k.1, k.2⟩
  · exact ⟨k.1, hf _ k.2⟩

theorem tabWf_write {xs : List (BitVec 8 × Nat)} {off : Nat} {t : Tab (BitVec 8)}
    (h : tabWf 0xFF t = true) :
    tabWf 0xFF (xs.foldl (fun t e => tabSet 0xFF t (off + e.2) e.1) t) = true := by
  induction xs generalizing t with
  | nil => exact h
  | cons x xs ih => exact ih (tabWf_set _ _ h)

theorem kept_fwWrite {img : Bool} {p : Bytes} (hk : Kept s₀ s) : Kept s₀ (fwWrite img p s).2 := by
  have h1 : Kept s₀ { s with flash := { s.flash with load := none } } := kept_flash hk ⟨rfl, rfl⟩
  unfold fwWrite
  dsimp only
  have h2 (xs : List (BitVec 8 × Nat)) (off : Nat) (l : Option (Bool × Nat)) : Kept s₀
      { modRegion img (fun t => xs.foldl (fun t e => tabSet 0xFF t (off + e.2) e.1) t) s with
        flash := { (modRegion img (fun t =>
          xs.foldl (fun t e => tabSet 0xFF t (off + e.2) e.1) t) s).flash with load := l } } :=
    kept_flash (kept_modRegion (fun _ h => tabWf_write h) hk) ⟨rfl, rfl⟩
  exact kept_ite2 (kept_notInState h1) (kept_ite2 (kept_badArg h1)
    (kept_ite2 (kept_stOk (h2 _ _ _)) (kept_stPending (h2 _ _ _))))

theorem kept_sysFwActivateBody {c : Call} (hk : Kept s₀ s) :
    Kept s₀ (sysFwActivateBody c s).2 := by
  unfold sysFwActivateBody
  repeat' first
    | with_reducible assumption | with_reducible apply kept_ite2
    | with_reducible apply kept_askReset | with_reducible apply kept_badArg
    | with_reducible apply kept_badLength | with_reducible apply kept_fwWrite
    | with_reducible apply kept_setBoot | with_reducible apply kept_stBusy
    | with_reducible apply kept_stDenied | with_reducible apply kept_stOk
    | with_reducible apply kept_stPending | with_reducible exact ⟨rfl, rfl⟩ | dsimp only
    | with_reducible apply kept_flash

theorem kept_setRegionFree {img : Bool} {f : Option Nat} (hk : Kept s₀ s) :
    Kept s₀ (setRegionFree img f s) := by
  unfold setRegionFree
  repeat' first
    | with_reducible assumption | with_reducible exact ⟨rfl, rfl⟩ | split | dsimp only
    | with_reducible apply kept_flash

end Sys2Proof.Machine
end

