-- ==== Sys2Proof/Laws/Only.lean ====
section
/-! SUPPORT. Which parts of the state an operation may write (`Only`): the rules that the lemmas of
the operations are built from. -/
namespace Sys2Proof.Machine
variable {ps qs : List Part} {s₀ s t : State} {α : Type}

theorem Only.refl (s : State) : Only ps s s := fun p _ => by cases p <;> rfl

/-- A further step that writes parts among `ps` only. -/
theorem Only.step (hq : qs ⊆ ps) (h : Only ps s₀ s) (e : Only qs s t) : Only ps s₀ t := by
  intro p hp
  have h1 := h p hp
  have h2 := e p (fun k => hp (hq k))
  cases p <;> exact Eq.trans h2 h1

theorem Only.mono (hq : qs ⊆ ps) (h : Only qs s₀ s) : Only ps s₀ s :=
  Only.step hq (Only.refl s₀) h

theorem only_ite {c : Prop} [Decidable c] (hs : Only ps s₀ s) (ht : Only ps s₀ t) :
    Only ps s₀ (if c then s else t) := by split <;> assumption

theorem only_snd {p : α × State} {x : α} (e : p = (x, s)) (h : Only ps s₀ p.2) : Only ps s₀ s := by
  rw [e] at h; exact h

theorem only_ite2 {c : Prop} [Decidable c] {p q : α × State} (hp : Only ps s₀ p.2)
    (hq : Only ps s₀ q.2) : Only ps s₀ (if c then p else q).2 := by split <;> assumption

theorem only_foldl {β : Type} {f : β × State → α → β × State} {l : List α} {p : β × State}
    (hf : ∀ p x, Only ps s₀ p.2 → Only ps s₀ (f p x).2) (h : Only ps s₀ p.2) :
    Only ps s₀ (l.foldl f p).2 := by
  induction l generalizing p with
  | nil => exact h
  | cons x l ih => exact ih (hf p x h)

theorem only_fold {f : State → α → State} {l : List α}
    (hf : ∀ s x, Only ps s₀ s → Only ps s₀ (f s x)) (h : Only ps s₀ s) :
    Only ps s₀ (l.foldl f s) := by
  induction l generalizing s with
  | nil => exact h
  | cons x l ih => exact ih (hf s x h)

theorem only_each {f : α → State → State} {xs : List α}
    (hf : ∀ x s, Only ps s₀ s → Only ps s₀ (f x s)) (h : Only ps s₀ s) :
    Only ps s₀ (each f xs s) := by
  induction xs generalizing s with
  | nil => exact h
  | cons x xs ih => exact ih (hf x s h)

theorem only_onlyIf {c : Bool} {f : State → State} (hf : ∀ s, Only ps s₀ s → Only ps s₀ (f s))
    (h : Only ps s₀ s) : Only ps s₀ (onlyIf c f s) := by
  unfold onlyIf; split
  · exact hf s h
  · exact h

/-! Updates of one part. -/

theorem only_one {a : Part} (ha : a ∈ ps) (h : Only ps s₀ s) (e : ∀ p, p ≠ a → Same p s t) :
    Only ps s₀ t :=
  Only.step (qs := [a]) (List.cons_subset.2 ⟨ha, List.nil_subset _⟩) h fun p hp =>
    e p fun k => hp (k ▸ List.mem_singleton.2 rfl)

theorem only_f_clk {x : Clk} (hp : .clk ∈ ps) (h : Only ps s₀ s) :
    Only ps s₀ { s with clk := x } :=
  only_one hp h fun p q => by cases p <;> first | rfl | exact absurd rfl q
theorem only_f_lanes {x : Tab Lane} (hp : .lanes ∈ ps) (h : Only ps s₀ s) :
    Only ps s₀ { s with lanes := x } :=
  only_one hp h fun p q => by cases p <;> first | rfl | exact absurd rfl q
theorem only_f_groups {x : Tab Group} (hp : .groups ∈ ps) (h : Only ps s₀ s) :
    Only ps s₀ { s with groups := x } :=
  only_one hp h fun p q => by cases p <;> first | rfl | exact absurd rfl q
theorem only_f_lots {x : Tab LotEntry} (hp : .lots ∈ ps) (h : Only ps s₀ s) :
    Only ps s₀ { s with lots := x } :=
  only_one hp h fun p q => by cases p <;> first | rfl | exact absurd rfl q
theorem only_f_reasm {x : Tab Reasm} (hp : .reasm ∈ ps) (h : Only ps s₀ s) :
    Only ps s₀ { s with reasm := x } :=
  only_one hp h fun p q => by cases p <;> first | rfl | exact absurd rfl q
theorem only_f_toTime {x : List Delivered} (hp : .toTime ∈ ps) (h : Only ps s₀ s) :
    Only ps s₀ { s with toTime := x } :=
  only_one hp h fun p q => by cases p <;> first | rfl | exact absurd rfl q
theorem only_f_toReeve {x : List Delivered} (hp : .toReeve ∈ ps) (h : Only ps s₀ s) :
    Only ps s₀ { s with toReeve := x } :=
  only_one hp h fun p q => by cases p <;> first | rfl | exact absurd rfl q
theorem only_f_inQ {x : List InPkt} (hp : .inQ ∈ ps) (h : Only ps s₀ s) :
    Only ps s₀ { s with inQ := x } :=
  only_one hp h fun p q => by cases p <;> first | rfl | exact absurd rfl q
theorem only_f_us {x : UpS} (hp : .us ∈ ps) (h : Only ps s₀ s) :
    Only ps s₀ { s with us := x } :=
  only_one hp h fun p q => by cases p <;> first | rfl | exact absurd rfl q
theorem only_f_act {x : Act} (hp : .act ∈ ps) (h : Only ps s₀ s) :
    Only ps s₀ { s with act := x } :=
  only_one hp h fun p q => by cases p <;> first | rfl | exact absurd rfl q
theorem only_f_sup {x : Sup} (hp : .sup ∈ ps) (h : Only ps s₀ s) :
    Only ps s₀ { s with sup := x } :=
  only_one hp h fun p q => by cases p <;> first | rfl | exact absurd rfl q
theorem only_f_time {x : TimeBlk} (hp : .time ∈ ps) (h : Only ps s₀ s) :
    Only ps s₀ { s with time := x } :=
  only_one hp h fun p q => by cases p <;> first | rfl | exact absurd rfl q
theorem only_f_qos {x : Qos} (hp : .qos ∈ ps) (h : Only ps s₀ s) :
    Only ps s₀ { s with qos := x } :=
  only_one hp h fun p q => by cases p <;> first | rfl | exact absurd rfl q
theorem only_f_cry {x : Cry} (hp : .cry ∈ ps) (h : Only ps s₀ s) :
    Only ps s₀ { s with cry := x } :=
  only_one hp h fun p q => by cases p <;> first | rfl | exact absurd rfl q
theorem only_f_cls {x : Cls} (hp : .cls ∈ ps) (h : Only ps s₀ s) :
    Only ps s₀ { s with cls := x } :=
  only_one hp h fun p q => by cases p <;> first | rfl | exact absurd rfl q
theorem only_f_tine {x : Tine} (hp : .tine ∈ ps) (h : Only ps s₀ s) :
    Only ps s₀ { s with tine := x } :=
  only_one hp h fun p q => by cases p <;> first | rfl | exact absurd rfl q
theorem only_f_ports {x : Tab Port} (hp : .ports ∈ ps) (h : Only ps s₀ s) :
    Only ps s₀ { s with ports := x } :=
  only_one hp h fun p q => by cases p <;> first | rfl | exact absurd rfl q
theorem only_f_slanes {x : Tab SLane} (hp : .slanes ∈ ps) (h : Only ps s₀ s) :
    Only ps s₀ { s with slanes := x } :=
  only_one hp h fun p q => by cases p <;> first | rfl | exact absurd rfl q
theorem only_f_pwr {x : Pwr} (hp : .pwr ∈ ps) (h : Only ps s₀ s) :
    Only ps s₀ { s with pwr := x } :=
  only_one hp h fun p q => by cases p <;> first | rfl | exact absurd rfl q
theorem only_f_pair {x : Pair} (hp : .pair ∈ ps) (h : Only ps s₀ s) :
    Only ps s₀ { s with pair := x } :=
  only_one hp h fun p q => by cases p <;> first | rfl | exact absurd rfl q
theorem only_f_fuses {x : Fuses} (hp : .fuses ∈ ps) (h : Only ps s₀ s) :
    Only ps s₀ { s with fuses := x } :=
  only_one hp h fun p q => by cases p <;> first | rfl | exact absurd rfl q
theorem only_f_sec {x : Sec} (hp : .sec ∈ ps) (h : Only ps s₀ s) :
    Only ps s₀ { s with sec := x } :=
  only_one hp h fun p q => by cases p <;> first | rfl | exact absurd rfl q
theorem only_f_flash {x : Flash} (hp : .flash ∈ ps) (h : Only ps s₀ s) :
    Only ps s₀ { s with flash := x } :=
  only_one hp h fun p q => by cases p <;> first | rfl | exact absurd rfl q
theorem only_f_life {x : Life} (hp : .life ∈ ps) (h : Only ps s₀ s) :
    Only ps s₀ { s with life := x } :=
  only_one hp h fun p q => by cases p <;> first | rfl | exact absurd rfl q
theorem only_f_pins {x : Pins} (hp : .pins ∈ ps) (h : Only ps s₀ s) :
    Only ps s₀ { s with pins := x } :=
  only_one hp h fun p q => by cases p <;> first | rfl | exact absurd rfl q
theorem only_f_win {x : Win} (hp : .win ∈ ps) (h : Only ps s₀ s) :
    Only ps s₀ { s with win := x } :=
  only_one hp h fun p q => by cases p <;> first | rfl | exact absurd rfl q
theorem only_f_i3c {x : I3c} (hp : .i3c ∈ ps) (h : Only ps s₀ s) :
    Only ps s₀ { s with i3c := x } :=
  only_one hp h fun p q => by cases p <;> first | rfl | exact absurd rfl q
theorem only_f_reeve {x : Reeve} (hp : .reeve ∈ ps) (h : Only ps s₀ s) :
    Only ps s₀ { s with reeve := x } :=
  only_one hp h fun p q => by cases p <;> first | rfl | exact absurd rfl q
theorem only_f_settings {x : Tab (Option Int)} (hp : .settings ∈ ps) (h : Only ps s₀ s) :
    Only ps s₀ { s with settings := x } :=
  only_one hp h fun p q => by cases p <;> first | rfl | exact absurd rfl q
theorem only_f_counters {x : Tab Ctr} (hp : .counters ∈ ps) (h : Only ps s₀ s) :
    Only ps s₀ { s with counters := x } :=
  only_one hp h fun p q => by cases p <;> first | rfl | exact absurd rfl q
theorem only_f_freeCtr {x : Nat} (hp : .freeCtr ∈ ps) (h : Only ps s₀ s) :
    Only ps s₀ { s with freeCtr := x } :=
  only_one hp h fun p q => by cases p <;> first | rfl | exact absurd rfl q

end Sys2Proof.Machine
end

