-- ==== Sys2Proof/Laws/OnlyLink.lean ====
section
/-! SUPPORT. Which parts each operation writes (`Only`): the transmit and receive line. -/
-- One list of alternatives serves every lemma below; not every lemma uses each of them.
set_option linter.unusedTactic false
set_option linter.unreachableTactic false
namespace Sys2Proof.Machine
variable {ps : List Part} {s₀ s t : State}

/-! Operations of `Ops`. -/

theorem only_modLane {l : Nat} {f : Lane → Lane} (hp : [.lanes] ⊆ ps)
    (_hk : Only ps s₀ s) : Only ps s₀ (modLane l f s) := by
  unfold modLane
  repeat' first
    | with_reducible assumption | with_reducible apply only_f_lanes | exact hp (by decide)

theorem only_modGroup {g : Nat} {f : Group → Group} (hp : [.groups] ⊆ ps)
    (_hk : Only ps s₀ s) : Only ps s₀ (modGroup g f s) := by
  unfold modGroup
  repeat' first
    | with_reducible assumption | with_reducible apply only_f_groups | exact hp (by decide)

theorem only_modUsLane {l : Nat} {f : UsLane → UsLane} (hp : [.us] ⊆ ps)
    (_hk : Only ps s₀ s) : Only ps s₀ (modUsLane l f s) := by
  unfold modUsLane
  repeat' first
    | with_reducible assumption | dsimp only | with_reducible apply only_f_us
    | exact hp (by decide)

theorem only_modInst {i : Nat} {f : Inst → Inst} (hp : [.act] ⊆ ps)
    (_hk : Only ps s₀ s) : Only ps s₀ (modInst i f s) := by
  unfold modInst
  repeat' first
    | with_reducible assumption | dsimp only | with_reducible apply only_f_act
    | exact hp (by decide)

theorem only_modSupLane {l : Nat} {f : SupLane → SupLane} (hp : [.sup] ⊆ ps)
    (_hk : Only ps s₀ s) : Only ps s₀ (modSupLane l f s) := by
  unfold modSupLane
  repeat' first
    | with_reducible assumption | dsimp only | with_reducible apply only_f_sup
    | exact hp (by decide)

theorem only_modSupDom {d : Nat} {f : SupDom → SupDom} (hp : [.sup] ⊆ ps)
    (_hk : Only ps s₀ s) : Only ps s₀ (modSupDom d f s) := by
  unfold modSupDom
  repeat' first
    | with_reducible assumption | dsimp only | with_reducible apply only_f_sup
    | exact hp (by decide)

theorem only_modSupInst {i : Nat} {f : SupInst → SupInst} (hp : [.sup] ⊆ ps)
    (_hk : Only ps s₀ s) : Only ps s₀ (modSupInst i f s) := by
  unfold modSupInst
  repeat' first
    | with_reducible assumption | dsimp only | with_reducible apply only_f_sup
    | exact hp (by decide)

theorem only_modDom {d : Nat} {f : Dom → Dom} (hp : [.time] ⊆ ps)
    (_hk : Only ps s₀ s) : Only ps s₀ (modDom d f s) := by
  unfold modDom
  repeat' first
    | with_reducible assumption | dsimp only | with_reducible apply only_f_time
    | exact hp (by decide)

theorem only_putSetting {p : SSpec} {scope idx : Nat} {v : Int} (hp : [.settings] ⊆ ps)
    (_hk : Only ps s₀ s) : Only ps s₀ (putSetting p scope idx v s) := by
  unfold putSetting
  repeat' first
    | with_reducible assumption | split | with_reducible apply only_f_settings
    | exact hp (by decide)

theorem only_drawn  (hp : [.freeCtr] ⊆ ps)
    (_hk : Only ps s₀ s) : Only ps s₀ (drawn s) := by
  unfold drawn
  repeat' first
    | with_reducible assumption | with_reducible apply only_f_freeCtr | exact hp (by decide)

theorem only_requestIbi {b : BitVec 5} (hp : [.i3c] ⊆ ps)
    (_hk : Only ps s₀ s) : Only ps s₀ (requestIbi b s) := by
  unfold requestIbi
  repeat' first
    | with_reducible assumption | with_reducible apply only_ite | dsimp only
    | with_reducible apply only_f_i3c | exact hp (by decide)

theorem only_setInt {b : BitVec 5} (hp : [.win, .i3c] ⊆ ps)
    (_hk : Only ps s₀ s) : Only ps s₀ (setInt b s) := by
  unfold setInt
  repeat' first
    | with_reducible assumption | with_reducible apply only_requestIbi | dsimp only
    | with_reducible apply only_f_win | exact List.Subset.trans (by decide) hp
    | exact hp (by decide)

theorem only_bumpRaw {c : CtrId} {scope n : Nat} (hp : [.counters] ⊆ ps)
    (_hk : Only ps s₀ s) : Only ps s₀ (bumpRaw c scope n s) := by
  unfold bumpRaw
  repeat' first
    | with_reducible assumption | with_reducible apply only_f_counters | exact hp (by decide)

theorem only_pushEvent {e : Event} (hp : [.win, .i3c, .reeve] ⊆ ps)
    (_hk : Only ps s₀ s) : Only ps s₀ (pushEvent e s) := by
  unfold pushEvent
  repeat' first
    | with_reducible assumption | with_reducible apply only_setInt | dsimp only
    | with_reducible apply only_f_reeve | exact List.Subset.trans (by decide) hp
    | exact hp (by decide)

theorem only_postEvent {e : Event} (hp : [.win, .i3c, .reeve, .counters] ⊆ ps)
    (_hk : Only ps s₀ s) : Only ps s₀ (postEvent e s) := by
  unfold postEvent
  repeat' first
    | with_reducible assumption | with_reducible apply only_ite
    | with_reducible apply only_bumpRaw | with_reducible apply only_pushEvent | dsimp only
    | with_reducible apply only_f_reeve | exact List.Subset.trans (by decide) hp
    | exact hp (by decide)

theorem only_raise {code : BitVec 16} {idx data : Nat} (_hp : [.win, .i3c, .reeve, .counters] ⊆ ps)
    (_hk : Only ps s₀ s) : Only ps s₀ (raise code idx data s) := by
  unfold raise
  repeat' first
    | with_reducible assumption | with_reducible apply only_postEvent

theorem only_raiseTag {code : BitVec 16} {idx data : Nat} {tag : BitVec 16} {mgmt : Bool}
    (_hp : [.win, .i3c, .reeve, .counters] ⊆ ps)
    (_hk : Only ps s₀ s) : Only ps s₀ (raiseTag code idx data tag mgmt s) := by
  unfold raiseTag
  repeat' first
    | with_reducible assumption | with_reducible apply only_postEvent

theorem only_tcaCheck {day : Bool} {n scope : Nat} (hp : [.sup, .win, .i3c, .reeve, .counters] ⊆ ps)
    (_hk : Only ps s₀ s) : Only ps s₀ (tcaCheck day n scope s) := by
  unfold tcaCheck
  repeat' first
    | with_reducible assumption | with_reducible apply only_ite
    | with_reducible apply only_raise | split | dsimp only | with_reducible apply only_f_sup
    | exact List.Subset.trans (by decide) hp | exact hp (by decide)

theorem only_binAdd {n scope amount : Nat} (hp : [.sup, .win, .i3c, .reeve, .counters] ⊆ ps)
    (_hk : Only ps s₀ s) : Only ps s₀ (binAdd n scope amount s) := by
  unfold binAdd
  repeat' first
    | with_reducible assumption | with_reducible apply only_tcaCheck | dsimp only
    | with_reducible apply only_f_sup | exact hp (by decide)

theorem only_lifeTotal {c : CtrId} {scope n : Nat} (hp : [.life] ⊆ ps)
    (_hk : Only ps s₀ s) : Only ps s₀ (lifeTotal c scope n s) := by
  unfold lifeTotal
  repeat' first
    | with_reducible assumption | with_reducible apply only_ite | dsimp only
    | with_reducible apply only_f_life | exact hp (by decide)

theorem only_bump {c : CtrId} {scope : Nat} {n : Nat}
    (hp : [.sup, .life, .win, .i3c, .reeve, .counters] ⊆ ps)
    (_hk : Only ps s₀ s) : Only ps s₀ (bump c scope n s) := by
  unfold bump
  repeat' first
    | with_reducible assumption | with_reducible intro _ | with_reducible apply only_ite
    | with_reducible apply only_ite2 | with_reducible apply only_binAdd
    | with_reducible apply only_bumpRaw | with_reducible apply only_lifeTotal
    | with_reducible apply only_raise | refine only_snd (by assumption) ?_ | split | dsimp only
    | exact List.Subset.trans (by decide) hp | exact hp (by decide)

theorem only_advance {d : Nat} (hp : [.clk] ⊆ ps)
    (_hk : Only ps s₀ s) : Only ps s₀ (advance d s) := by
  unfold advance
  repeat' first
    | with_reducible assumption | split | dsimp only | with_reducible apply only_f_clk
    | exact hp (by decide)

/-! Operations of `Answer`. -/

theorem only_stOk {p : Bytes} (_hp : [] ⊆ ps)
    (_hk : Only ps s₀ s) : Only ps s₀ (stOk p s).2 := by
  unfold stOk
  repeat' first
    | with_reducible assumption

theorem only_stPending  (_hp : [] ⊆ ps)
    (_hk : Only ps s₀ s) : Only ps s₀ (stPending s).2 := by
  unfold stPending
  repeat' first
    | with_reducible assumption

theorem only_refuse {status code idx : Nat} (_hp : [] ⊆ ps)
    (_hk : Only ps s₀ s) : Only ps s₀ (refuse status code idx s).2 := by
  unfold refuse
  repeat' first
    | with_reducible assumption

theorem only_stBusy  (_hp : [] ⊆ ps)
    (_hk : Only ps s₀ s) : Only ps s₀ (stBusy s).2 := by
  unfold stBusy
  repeat' first
    | with_reducible assumption | with_reducible apply only_refuse

theorem only_badLength  (_hp : [] ⊆ ps)
    (_hk : Only ps s₀ s) : Only ps s₀ (badLength s).2 := by
  unfold badLength
  repeat' first
    | with_reducible assumption | with_reducible apply only_refuse

theorem only_badArg {code idx : Nat} (_hp : [] ⊆ ps)
    (_hk : Only ps s₀ s) : Only ps s₀ (badArg code idx s).2 := by
  unfold badArg
  repeat' first
    | with_reducible assumption | with_reducible apply only_refuse

theorem only_stDenied  (_hp : [] ⊆ ps)
    (_hk : Only ps s₀ s) : Only ps s₀ (stDenied s).2 := by
  unfold stDenied
  repeat' first
    | with_reducible assumption | with_reducible apply only_refuse

theorem only_notInState  (_hp : [] ⊆ ps)
    (_hk : Only ps s₀ s) : Only ps s₀ (notInState s).2 := by
  unfold notInState
  repeat' first
    | with_reducible assumption | with_reducible apply only_refuse

theorem only_noResource {code idx : Nat} (_hp : [] ⊆ ps)
    (_hk : Only ps s₀ s) : Only ps s₀ (noResource code idx s).2 := by
  unfold noResource
  repeat' first
    | with_reducible assumption | with_reducible apply only_refuse

theorem only_modWin {f : Win → Win} (hp : [.win] ⊆ ps)
    (_hk : Only ps s₀ s) : Only ps s₀ (modWin f s) := by
  unfold modWin
  repeat' first
    | with_reducible assumption | with_reducible apply only_f_win | exact hp (by decide)

theorem only_modReeve {f : Reeve → Reeve} (hp : [.reeve] ⊆ ps)
    (_hk : Only ps s₀ s) : Only ps s₀ (modReeve f s) := by
  unfold modReeve
  repeat' first
    | with_reducible assumption | with_reducible apply only_f_reeve | exact hp (by decide)

theorem only_busyLook  (_hp : [.win] ⊆ ps)
    (_hk : Only ps s₀ s) : Only ps s₀ (busyLook s) := by
  unfold busyLook
  repeat' first
    | with_reducible assumption | with_reducible apply only_modWin

theorem only_postResponses  (hp : [.win, .i3c, .reeve] ⊆ ps)
    (_hk : Only ps s₀ s) : Only ps s₀ (postResponses s) := by
  unfold postResponses
  repeat' first
    | with_reducible assumption | with_reducible apply only_ite
    | with_reducible apply only_modReeve | with_reducible apply only_modWin
    | with_reducible apply only_setInt | split | exact List.Subset.trans (by decide) hp

theorem only_answer {op : Nat} {c : Cmd} {r : Reply} (hp : [.act, .win, .i3c, .reeve] ⊆ ps)
    (_hk : Only ps s₀ s) : Only ps s₀ (answer op c r s) := by
  unfold answer
  repeat' first
    | with_reducible assumption | with_reducible apply only_busyLook
    | with_reducible apply only_modInst | with_reducible apply only_modReeve
    | with_reducible apply only_postResponses | split | exact List.Subset.trans (by decide) hp

theorem only_cryDenied {st : Nat} (_hp : [] ⊆ ps)
    (_hk : Only ps s₀ s) : Only ps s₀ (cryDenied st s).2 := by
  unfold cryDenied
  repeat' first
    | with_reducible assumption | with_reducible apply only_refuse

theorem only_sealAnswer {id : Nat} {r : Reply} (hp : [.act, .win, .i3c, .reeve] ⊆ ps)
    (_hk : Only ps s₀ s) : Only ps s₀ (sealAnswer id r s) := by
  unfold sealAnswer
  repeat' first
    | with_reducible assumption | with_reducible intro _ | with_reducible apply only_ite
    | with_reducible apply only_ite2 | with_reducible apply only_answer
    | with_reducible apply only_modReeve | refine only_snd (by assumption) ?_ | split | dsimp only
    | exact List.Subset.trans (by decide) hp | exact hp (by decide)

/-! Operations of `Supervise`. -/

theorem only_supLookInst {i : Nat} (_hp : [.sup] ⊆ ps)
    (_hk : Only ps s₀ s) : Only ps s₀ (supLookInst i s) := by
  unfold supLookInst
  repeat' first
    | with_reducible assumption | with_reducible apply only_modSupInst

theorem only_supLook  (_hp : [.sup] ⊆ ps)
    (_hk : Only ps s₀ s) : Only ps s₀ (supLook s) := by
  unfold supLook
  repeat' first
    | with_reducible assumption | with_reducible intro _ | with_reducible apply only_each
    | with_reducible apply only_supLookInst

theorem only_defectEvents {l : Nat} {before after : SupLane} {chg : Nat}
    (_hp : [.win, .i3c, .reeve, .counters] ⊆ ps)
    (_hk : Only ps s₀ s) : Only ps s₀ (defectEvents l before after chg s) := by
  unfold defectEvents
  repeat' first
    | with_reducible assumption | with_reducible intro _ | with_reducible apply only_ite
    | with_reducible apply only_each | with_reducible apply only_raise

theorem only_setLaneDefect {l c : Nat} {v : Bool} (hp : [.sup, .win, .i3c, .reeve, .counters] ⊆ ps)
    (_hk : Only ps s₀ s) : Only ps s₀ (setLaneDefect l c v s) := by
  unfold setLaneDefect
  repeat' first
    | with_reducible assumption | with_reducible apply only_ite
    | with_reducible apply only_defectEvents | with_reducible apply only_modSupLane
    | with_reducible apply only_supLook | exact List.Subset.trans (by decide) hp

theorem only_lofEntry {l : Nat} (hp : [.sup, .win, .i3c, .reeve, .counters] ⊆ ps)
    (_hk : Only ps s₀ s) : Only ps s₀ (lofEntry l s) := by
  unfold lofEntry
  repeat' first
    | with_reducible assumption | with_reducible apply only_modSupLane
    | with_reducible apply only_setLaneDefect | exact List.Subset.trans (by decide) hp

theorem only_clearLaneDefects {l : Nat} (_hp : [.sup] ⊆ ps)
    (_hk : Only ps s₀ s) : Only ps s₀ (clearLaneDefects l s) := by
  unfold clearLaneDefects
  repeat' first
    | with_reducible assumption | with_reducible apply only_modSupLane
    | with_reducible apply only_supLook

theorem only_sdAccount {l sym uc : Nat} (hp : [.sup, .win, .i3c, .reeve, .counters] ⊆ ps)
    (_hk : Only ps s₀ s) : Only ps s₀ (sdAccount l sym uc s) := by
  unfold sdAccount
  repeat' first
    | with_reducible assumption | with_reducible apply only_ite
    | with_reducible apply only_modSupLane | with_reducible apply only_setLaneDefect
    | exact List.Subset.trans (by decide) hp

theorem only_windowEnd {l : Nat} {sc : BitVec 48} {jump : Bool}
    (hp : [.sup, .win, .i3c, .reeve, .counters] ⊆ ps)
    (_hk : Only ps s₀ s) : Only ps s₀ (windowEnd l sc jump s) := by
  unfold windowEnd
  repeat' first
    | with_reducible assumption | with_reducible apply only_ite
    | with_reducible apply only_modSupLane | with_reducible apply only_setLaneDefect
    | exact List.Subset.trans (by decide) hp

theorem only_lockEntry {l : Nat} (hp : [.sup, .win, .i3c, .reeve, .counters] ⊆ ps)
    (_hk : Only ps s₀ s) : Only ps s₀ (lockEntry l s) := by
  unfold lockEntry
  repeat' first
    | with_reducible assumption | with_reducible apply only_modSupLane
    | with_reducible apply only_setLaneDefect | exact List.Subset.trans (by decide) hp

theorem only_plmLot {lotId : Nat} {isPlm : Bool} (hp : [.sup, .win, .i3c, .reeve, .counters] ⊆ ps)
    (_hk : Only ps s₀ s) : Only ps s₀ (plmLot lotId isPlm s) := by
  unfold plmLot
  repeat' first
    | with_reducible assumption | with_reducible apply only_ite
    | with_reducible apply only_raise | with_reducible apply only_supLook | split | dsimp only
    | with_reducible apply only_f_sup | exact List.Subset.trans (by decide) hp
    | exact hp (by decide)

theorem only_plmRemove {lotId : Nat} (hp : [.sup, .win, .i3c, .reeve, .counters] ⊆ ps)
    (_hk : Only ps s₀ s) : Only ps s₀ (plmRemove lotId s) := by
  unfold plmRemove
  repeat' first
    | with_reducible assumption | with_reducible apply only_ite
    | with_reducible apply only_raise | with_reducible apply only_supLook | dsimp only
    | with_reducible apply only_f_sup | exact List.Subset.trans (by decide) hp
    | exact hp (by decide)

theorem only_setDomDefect {d : Nat} {taf : Bool} {v : Bool}
    (hp : [.sup, .win, .i3c, .reeve, .counters] ⊆ ps)
    (_hk : Only ps s₀ s) : Only ps s₀ (setDomDefect d taf v s) := by
  unfold setDomDefect
  repeat' first
    | with_reducible assumption | with_reducible apply only_ite
    | with_reducible apply only_modSupDom | with_reducible apply only_raise
    | with_reducible apply only_supLook | exact List.Subset.trans (by decide) hp

theorem only_rdiEvaluate {i : Nat} (hp : [.sup, .win, .i3c, .reeve, .counters] ⊆ ps)
    (_hk : Only ps s₀ s) : Only ps s₀ (rdiEvaluate i s) := by
  unfold rdiEvaluate
  repeat' first
    | with_reducible assumption | with_reducible apply only_ite
    | with_reducible apply only_modSupInst | with_reducible apply only_raise
    | exact List.Subset.trans (by decide) hp

theorem only_laneSecond {l : Nat} (hp : [.sup, .win, .i3c, .reeve, .counters] ⊆ ps)
    (_hk : Only ps s₀ s) : Only ps s₀ (laneSecond l s) := by
  unfold laneSecond
  repeat' first
    | with_reducible assumption | with_reducible intro _ | with_reducible apply only_ite
    | with_reducible apply only_ite2 | with_reducible apply only_binAdd
    | with_reducible apply only_modSupLane | refine only_snd (by assumption) ?_ | split
    | dsimp only | exact List.Subset.trans (by decide) hp | exact hp (by decide)

/-! Operations of `PwrOps`. -/

theorem only_modPwr {f : Pwr → Pwr} (hp : [.pwr] ⊆ ps)
    (_hk : Only ps s₀ s) : Only ps s₀ (modPwr f s) := by
  unfold modPwr
  repeat' first
    | with_reducible assumption | with_reducible apply only_f_pwr | exact hp (by decide)

theorem only_wakeEvent {code index : Nat}
    (hp : [.sup, .pwr, .life, .win, .i3c, .reeve, .counters] ⊆ ps)
    (_hk : Only ps s₀ s) : Only ps s₀ (wakeEvent code index s) := by
  unfold wakeEvent
  repeat' first
    | with_reducible assumption | with_reducible apply only_ite | with_reducible apply only_bump
    | with_reducible apply only_modPwr | split | exact List.Subset.trans (by decide) hp

theorem only_drainLook  (_hp : [.pwr] ⊆ ps)
    (_hk : Only ps s₀ s) : Only ps s₀ (drainLook s) := by
  unfold drainLook
  repeat' first
    | with_reducible assumption | with_reducible apply only_ite
    | with_reducible apply only_modPwr

theorem only_returnHeld {n : Nat} {l : List Nat} (hp : [.pwr] ⊆ ps) (h : Only ps s₀ s) :
    Only ps s₀ (returnHeld n l s) := by
  induction l generalizing n s with
  | nil => exact h
  | cons b l ih =>
    unfold returnHeld
    exact ih (only_modPwr hp h)

theorem only_freeBushels {n : Nat} (hp : [.qos, .pwr, .freeCtr] ⊆ ps)
    (_hk : Only ps s₀ s) : Only ps s₀ (freeBushels n s) := by
  unfold freeBushels
  repeat' first
    | with_reducible assumption | with_reducible apply only_ite
    | with_reducible apply only_drawn | with_reducible apply only_returnHeld | dsimp only
    | with_reducible apply only_f_qos | exact List.Subset.trans (by decide) hp
    | exact hp (by decide)

theorem only_addressed {f : State → State}
    (hp : [.sup, .pwr, .life, .win, .i3c, .reeve, .counters] ⊆ ps)
    (hf : ∀ s, Only ps s₀ s → Only ps s₀ (f s)) (h : Only ps s₀ s) :
    Only ps s₀ (addressed f s) := by
  unfold addressed
  exact only_ite h (only_ite (only_wakeEvent hp h) (hf _ h))

theorem only_broadcast {f : State → State} (hf : ∀ s, Only ps s₀ s → Only ps s₀ (f s))
    (h : Only ps s₀ s) : Only ps s₀ (broadcast f s) := by
  unfold broadcast
  exact only_ite h (hf _ h)

/-! Operations of `Qos`. -/

theorem only_takeBushels {n : Nat} (hp : [.qos] ⊆ ps)
    (_hk : Only ps s₀ s) : Only ps s₀ (takeBushels n s) := by
  unfold takeBushels
  repeat' first
    | with_reducible assumption | dsimp only | with_reducible apply only_f_qos
    | exact hp (by decide)

theorem only_takeUpTo {held want : Nat} (hp : [.sup, .qos, .pwr, .life, .win, .i3c, .reeve,
    .counters, .freeCtr] ⊆ ps)
    (_hk : Only ps s₀ s) : Only ps s₀ (takeUpTo held want s).2 := by
  unfold takeUpTo
  repeat' first
    | with_reducible assumption | with_reducible intro _ | with_reducible apply only_ite
    | with_reducible apply only_ite2 | with_reducible apply only_bump
    | with_reducible apply only_freeBushels | with_reducible apply only_takeBushels
    | refine only_snd (by assumption) ?_ | split | dsimp only
    | exact List.Subset.trans (by decide) hp | exact hp (by decide)

theorem only_modDs {q : Nat} {f : Queue → Queue} (hp : [.qos] ⊆ ps)
    (_hk : Only ps s₀ s) : Only ps s₀ (modDs q f s) := by
  unfold modDs
  repeat' first
    | with_reducible assumption | dsimp only | with_reducible apply only_f_qos
    | exact hp (by decide)

theorem only_modUs {q : Nat} {f : Queue → Queue} (hp : [.us, .qos] ⊆ ps)
    (_hk : Only ps s₀ s) : Only ps s₀ (modUs q f s) := by
  unfold modUs
  repeat' first
    | with_reducible assumption | dsimp only | with_reducible apply only_f_qos
    | exact hp (by decide)

theorem only_modQueue {ds : Bool} {q : Nat} {f : Queue → Queue} (hp : [.us, .qos] ⊆ ps)
    (_hk : Only ps s₀ s) : Only ps s₀ (modQueue ds q f s) := by
  unfold modQueue
  repeat' first
    | with_reducible assumption | with_reducible apply only_ite
    | with_reducible apply only_modDs | with_reducible apply only_modUs
    | exact List.Subset.trans (by decide) hp

theorem only_modPortArb {p : Nat} {f : Arbiter → Arbiter} (hp : [.qos] ⊆ ps)
    (_hk : Only ps s₀ s) : Only ps s₀ (modPortArb p f s) := by
  unfold modPortArb
  repeat' first
    | with_reducible assumption | dsimp only | with_reducible apply only_f_qos
    | exact hp (by decide)

theorem only_modPlotArb {p : Nat} {f : Arbiter → Arbiter} (hp : [.qos] ⊆ ps)
    (_hk : Only ps s₀ s) : Only ps s₀ (modPlotArb p f s) := by
  unfold modPlotArb
  repeat' first
    | with_reducible assumption | dsimp only | with_reducible apply only_f_qos
    | exact hp (by decide)

theorem only_modGroupArb {p g : Nat} {f : Arbiter → Arbiter} (hp : [.qos] ⊆ ps)
    (_hk : Only ps s₀ s) : Only ps s₀ (modGroupArb p g f s) := by
  unfold modGroupArb
  repeat' first
    | with_reducible assumption | dsimp only | with_reducible apply only_f_qos
    | exact hp (by decide)

theorem only_putBucket {sc : Nat} {b : Bucket} (hp : [.qos] ⊆ ps)
    (_hk : Only ps s₀ s) : Only ps s₀ (putBucket sc b s) := by
  unfold putBucket
  repeat' first
    | with_reducible assumption | dsimp only | with_reducible apply only_f_qos
    | exact hp (by decide)

theorem only_putMeter {m : Nat} {x : Meter} (hp : [.qos] ⊆ ps)
    (_hk : Only ps s₀ s) : Only ps s₀ (putMeter m x s) := by
  unfold putMeter
  repeat' first
    | with_reducible assumption | dsimp only | with_reducible apply only_f_qos
    | exact hp (by decide)

theorem only_shaperCharge {sc : Nat} {c : Int} (_hp : [.qos] ⊆ ps)
    (_hk : Only ps s₀ s) : Only ps s₀ (shaperCharge sc c s) := by
  unfold shaperCharge
  repeat' first
    | with_reducible assumption | with_reducible apply only_ite
    | with_reducible apply only_putBucket

theorem only_meterOp {m : Nat} {colour b : Nat}
    (hp : [.sup, .qos, .life, .win, .i3c, .reeve, .counters] ⊆ ps)
    (_hk : Only ps s₀ s) : Only ps s₀ (meterOp m colour b s).2 := by
  unfold meterOp
  repeat' first
    | with_reducible assumption | with_reducible apply only_ite2
    | with_reducible apply only_bump | with_reducible apply only_putMeter
    | exact List.Subset.trans (by decide) hp

theorem only_queueActivate {ds : Bool} {q : Nat} (_hp : [.qos] ⊆ ps)
    (_hk : Only ps s₀ s) : Only ps s₀ (queueActivate ds q s) := by
  unfold queueActivate
  repeat' first
    | with_reducible assumption | with_reducible intro _ | with_reducible apply only_ite
    | with_reducible apply only_each | with_reducible apply only_modGroupArb
    | with_reducible apply only_modPlotArb | with_reducible apply only_modPortArb

theorem only_linkFrame {ds : Bool} {q : Nat} {f : Frame}
    (hp : [.us, .sup, .qos, .life, .win, .i3c, .reeve, .counters] ⊆ ps)
    (_hk : Only ps s₀ s) : Only ps s₀ (linkFrame ds q f s) := by
  unfold linkFrame
  repeat' first
    | with_reducible assumption | with_reducible apply only_ite | with_reducible apply only_bump
    | with_reducible apply only_modQueue | with_reducible apply only_queueActivate
    | exact List.Subset.trans (by decide) hp

theorem only_enqueue {ds : Bool} {q : Nat} {colour : Nat} {f : Frame}
    (hp : [.us, .sup, .qos, .pwr, .life, .win, .i3c, .reeve, .counters, .freeCtr] ⊆ ps)
    (_hk : Only ps s₀ s) : Only ps s₀ (enqueue ds q colour f s).2 := by
  unfold enqueue
  repeat' first
    | with_reducible assumption | with_reducible apply only_ite2
    | with_reducible apply only_bump | with_reducible apply only_freeBushels
    | with_reducible apply only_linkFrame | exact List.Subset.trans (by decide) hp

theorem only_flushQueue {ds : Bool} {q : Nat}
    (hp : [.us, .sup, .qos, .pwr, .life, .win, .i3c, .reeve, .counters, .freeCtr] ⊆ ps)
    (_hk : Only ps s₀ s) : Only ps s₀ (flushQueue ds q s) := by
  unfold flushQueue
  repeat' first
    | with_reducible assumption | with_reducible apply only_ite | with_reducible apply only_bump
    | with_reducible apply only_freeBushels | with_reducible apply only_modQueue
    | exact List.Subset.trans (by decide) hp

theorem only_dropHead {ds : Bool} {q : Nat} (hp : [.us, .qos, .pwr, .freeCtr] ⊆ ps)
    (_hk : Only ps s₀ s) : Only ps s₀ (dropHead ds q s) := by
  unfold dropHead
  repeat' first
    | with_reducible assumption | with_reducible apply only_freeBushels
    | with_reducible apply only_modQueue | split | exact List.Subset.trans (by decide) hp

/-! Operations of `Links`. -/

theorem only_modPort {p : Nat} {f : Port → Port} (hp : [.ports] ⊆ ps)
    (_hk : Only ps s₀ s) : Only ps s₀ (modPort p f s) := by
  unfold modPort
  repeat' first
    | with_reducible assumption | with_reducible apply only_f_ports | exact hp (by decide)

theorem only_linkFlush {p q : Nat}
    (hp : [.us, .sup, .qos, .pwr, .life, .win, .i3c, .reeve, .counters, .freeCtr] ⊆ ps)
    (_hk : Only ps s₀ s) : Only ps s₀ (linkFlush p q s) := by
  unfold linkFlush
  repeat' first
    | with_reducible assumption | with_reducible intro _ | with_reducible apply only_bump
    | with_reducible apply only_dropHead | with_reducible apply only_each
    | exact List.Subset.trans (by decide) hp

theorem only_portFlushLook {p : Nat}
    (_hp : [.us, .sup, .qos, .pwr, .life, .win, .i3c, .reeve, .counters, .freeCtr] ⊆ ps)
    (_hk : Only ps s₀ s) : Only ps s₀ (portFlushLook p s) := by
  unfold portFlushLook
  repeat' first
    | with_reducible assumption | with_reducible intro _ | with_reducible apply only_ite
    | with_reducible apply only_each | with_reducible apply only_linkFlush

theorem only_setLink {p : Nat} {dest : LinkState}
    (hp : [.us, .sup, .qos, .ports, .pwr, .life, .win, .i3c, .reeve, .counters, .freeCtr] ⊆ ps)
    (_hk : Only ps s₀ s) : Only ps s₀ (setLink p dest s) := by
  unfold setLink
  repeat' first
    | with_reducible assumption | with_reducible apply only_ite | with_reducible apply only_bump
    | with_reducible apply only_modPort | with_reducible apply only_portFlushLook
    | with_reducible apply only_raise | exact List.Subset.trans (by decide) hp

theorem only_pcsFalse {p : Nat}
    (hp : [.us, .sup, .qos, .ports, .pwr, .life, .win, .i3c, .reeve, .counters, .freeCtr] ⊆ ps)
    (_hk : Only ps s₀ s) : Only ps s₀ (pcsFalse p s) := by
  unfold pcsFalse
  repeat' first
    | with_reducible assumption | with_reducible intro _ | with_reducible apply only_ite
    | with_reducible apply only_ite2 | with_reducible apply only_modPort
    | with_reducible apply only_setLink | refine only_snd (by assumption) ?_ | split | dsimp only
    | exact List.Subset.trans (by decide) hp | exact hp (by decide)

theorem only_portLook {p : Nat}
    (hp : [.us, .sup, .qos, .ports, .pwr, .life, .win, .i3c, .reeve, .counters, .freeCtr] ⊆ ps)
    (_hk : Only ps s₀ s) : Only ps s₀ (portLook p s) := by
  unfold portLook
  repeat' first
    | with_reducible assumption | with_reducible intro _ | with_reducible apply only_ite
    | with_reducible apply only_ite2 | with_reducible apply only_modPort
    | with_reducible apply only_setLink | refine only_snd (by assumption) ?_ | split | dsimp only
    | exact List.Subset.trans (by decide) hp | exact hp (by decide)

theorem only_portsLook 
    (_hp : [.us, .sup, .qos, .ports, .pwr, .life, .win, .i3c, .reeve, .counters, .freeCtr] ⊆ ps)
    (_hk : Only ps s₀ s) : Only ps s₀ (portsLook s) := by
  unfold portsLook
  repeat' first
    | with_reducible assumption | with_reducible intro _ | with_reducible apply only_each
    | with_reducible apply only_portLook

theorem only_rxBushels {r : RxState} {n : Nat}
    (hp : [.sup, .qos, .pwr, .life, .win, .i3c, .reeve, .counters, .freeCtr] ⊆ ps)
    (_hk : Only ps s₀ s) : Only ps s₀ (rxBushels r n s).2 := by
  unfold rxBushels
  repeat' first
    | with_reducible assumption | with_reducible intro _ | with_reducible apply only_ite
    | with_reducible apply only_ite2 | with_reducible apply only_takeUpTo
    | refine only_snd (by assumption) ?_ | split | dsimp only
    | exact List.Subset.trans (by decide) hp | exact hp (by decide)

theorem only_rxArrive {p : Nat} (hp : [.sup, .qos, .ports, .pwr, .life, .win, .i3c, .reeve,
    .counters, .freeCtr] ⊆ ps)
    (_hk : Only ps s₀ s) : Only ps s₀ (rxArrive p s) := by
  unfold rxArrive
  repeat' first
    | with_reducible assumption | with_reducible intro _ | with_reducible apply only_ite
    | with_reducible apply only_ite2 | with_reducible apply only_modPort
    | with_reducible apply only_rxBushels | refine only_snd (by assumption) ?_ | split | dsimp only
    | exact List.Subset.trans (by decide) hp | exact hp (by decide)

/-! Operations of `Role`. -/

theorem only_modPair {f : Pair → Pair} (hp : [.pair] ⊆ ps)
    (_hk : Only ps s₀ s) : Only ps s₀ (modPair f s) := by
  unfold modPair
  repeat' first
    | with_reducible assumption | with_reducible apply only_f_pair | exact hp (by decide)

theorem only_setPair {dest : PairState}
    (hp : [.us, .sup, .qos, .ports, .pwr, .pair, .life, .win, .i3c, .reeve, .counters,
    .freeCtr] ⊆ ps)
    (_hk : Only ps s₀ s) : Only ps s₀ (setPair dest s) := by
  unfold setPair
  repeat' first
    | with_reducible assumption | with_reducible apply only_ite
    | with_reducible apply only_modPair | with_reducible apply only_portsLook
    | with_reducible apply only_raise | dsimp only | with_reducible apply only_f_life
    | exact List.Subset.trans (by decide) hp | exact hp (by decide)

theorem only_standbyFlush {ds : Bool} {q : Nat}
    (hp : [.us, .sup, .qos, .pwr, .life, .win, .i3c, .reeve, .counters, .freeCtr] ⊆ ps)
    (_hk : Only ps s₀ s) : Only ps s₀ (standbyFlush ds q s) := by
  unfold standbyFlush
  repeat' first
    | with_reducible assumption | with_reducible intro _ | with_reducible apply only_bump
    | with_reducible apply only_dropHead | with_reducible apply only_each
    | exact List.Subset.trans (by decide) hp

theorem only_leaveActive {dest : PairState}
    (hp : [.us, .sup, .qos, .ports, .pwr, .pair, .life, .win, .i3c, .reeve, .counters,
    .freeCtr] ⊆ ps)
    (_hk : Only ps s₀ s) : Only ps s₀ (leaveActive dest s) := by
  unfold leaveActive
  repeat' first
    | with_reducible assumption | with_reducible intro _ | with_reducible apply only_each
    | with_reducible apply only_modPair | with_reducible apply only_setPair
    | with_reducible apply only_standbyFlush | exact List.Subset.trans (by decide) hp

theorem only_yieldNow {y : Yield}
    (hp : [.us, .sup, .qos, .ports, .pwr, .pair, .life, .win, .i3c, .reeve, .counters,
    .freeCtr] ⊆ ps)
    (_hk : Only ps s₀ s) : Only ps s₀ (yieldNow y s) := by
  unfold yieldNow
  repeat' first
    | with_reducible assumption | with_reducible apply only_ite | with_reducible apply only_bump
    | with_reducible apply only_leaveActive | with_reducible apply only_modPair
    | with_reducible apply only_setPair | exact List.Subset.trans (by decide) hp

theorem only_yieldLook 
    (_hp : [.us, .sup, .qos, .ports, .pwr, .pair, .life, .win, .i3c, .reeve, .counters,
    .freeCtr] ⊆ ps)
    (_hk : Only ps s₀ s) : Only ps s₀ (yieldLook s) := by
  unfold yieldLook
  repeat' first
    | with_reducible assumption | with_reducible apply only_ite
    | with_reducible apply only_yieldNow | split

/-! Operations of `Gate`. -/

theorem only_modTxLot {x i j : Nat} {f : TxLot → TxLot} (_hp : [.us] ⊆ ps)
    (_hk : Only ps s₀ s) : Only ps s₀ (modTxLot x i j f s) := by
  unfold modTxLot
  repeat' first
    | with_reducible assumption | with_reducible apply only_modUsLane

theorem only_takeBseq {key : Nat} (hp : [.us] ⊆ ps)
    (_hk : Only ps s₀ s) : Only ps s₀ (takeBseq key s).2 := by
  unfold takeBseq
  repeat' first
    | with_reducible assumption | with_reducible apply only_ite2 | dsimp only
    | with_reducible apply only_f_us | exact hp (by decide)

theorem only_numberGroup {key : Nat} {xs : List Nat} {lim : BitVec 64} (hp : [.us] ⊆ ps)
    (_hk : Only ps s₀ s) : Only ps s₀ (numberGroup key xs lim s) := by
  unfold numberGroup
  repeat' first
    | with_reducible assumption | with_reducible intro _ | with_reducible apply only_each
    | with_reducible apply only_modTxLot | with_reducible apply only_takeBseq | split
    | dsimp only | with_reducible apply only_f_us | exact hp (by decide)

theorem only_numberUpTo {lim : BitVec 64} (_hp : [.us] ⊆ ps)
    (_hk : Only ps s₀ s) : Only ps s₀ (numberUpTo lim s) := by
  unfold numberUpTo
  repeat' first
    | with_reducible assumption | with_reducible apply only_ite
    | with_reducible apply only_numberGroup

theorem only_loseFrame {q : Nat} (hp : [.us, .qos, .pwr, .freeCtr] ⊆ ps)
    (_hk : Only ps s₀ s) : Only ps s₀ (loseFrame q s) := by
  unfold loseFrame
  repeat' first
    | with_reducible assumption | with_reducible intro _ | with_reducible apply only_ite
    | with_reducible apply only_each | with_reducible apply only_freeBushels
    | with_reducible apply only_modUsLane | split | dsimp only | with_reducible apply only_f_qos
    | exact List.Subset.trans (by decide) hp | exact hp (by decide)

theorem only_lotDone {sent : Bool} {t : TxLot}
    (hp : [.us, .sup, .qos, .pwr, .life, .win, .i3c, .reeve, .counters, .freeCtr] ⊆ ps)
    (_hk : Only ps s₀ s) : Only ps s₀ (lotDone sent t s) := by
  unfold lotDone
  repeat' first
    | with_reducible assumption | with_reducible apply only_ite | with_reducible apply only_bump
    | with_reducible apply only_freeBushels | with_reducible apply only_loseFrame | split
    | dsimp only | with_reducible apply only_f_qos | exact List.Subset.trans (by decide) hp
    | exact hp (by decide)

theorem only_burstAccount {x : Nat} {b0 : Burst} {g : Nat}
    (hp : [.us, .sup, .qos, .ports, .pwr, .pair, .life, .win, .i3c, .reeve, .counters, .freeCtr] ⊆ ps)
    (_hk : Only ps s₀ s) : Only ps s₀ (burstAccount x b0 g s) := by
  unfold burstAccount
  repeat' first
    | with_reducible assumption | with_reducible intro _ | with_reducible apply only_ite
    | with_reducible apply only_ite2 | with_reducible apply only_each
    | with_reducible apply only_bump | with_reducible apply only_drainLook
    | with_reducible apply only_loseFrame | with_reducible apply only_lotDone
    | with_reducible apply only_yieldLook | refine only_snd (by assumption) ?_ | split | dsimp only
    | with_reducible apply only_f_us | exact List.Subset.trans (by decide) hp
    | exact hp (by decide)

theorem only_benLow {x : Nat} (hp : [.us, .sup, .life, .win, .i3c, .reeve, .counters] ⊆ ps)
    (_hk : Only ps s₀ s) : Only ps s₀ (benLow x s) := by
  unfold benLow
  repeat' first
    | with_reducible assumption | with_reducible apply only_ite | with_reducible apply only_bump
    | with_reducible apply only_modUsLane | exact List.Subset.trans (by decide) hp

theorem only_cutBurst {x : Nat}
    (hp : [.us, .sup, .qos, .ports, .pwr, .pair, .life, .win, .i3c, .reeve, .counters,
    .freeCtr] ⊆ ps)
    (_hk : Only ps s₀ s) : Only ps s₀ (cutBurst x s) := by
  unfold cutBurst
  repeat' first
    | with_reducible assumption | with_reducible apply only_ite
    | with_reducible apply only_benLow | with_reducible apply only_bump
    | with_reducible apply only_burstAccount | with_reducible apply only_modUsLane
    | with_reducible apply only_numberUpTo | split | dsimp only
    | exact List.Subset.trans (by decide) hp

theorem only_endBurst {x : Nat}
    (hp : [.us, .sup, .qos, .ports, .pwr, .pair, .life, .win, .i3c, .reeve, .counters,
    .freeCtr] ⊆ ps)
    (_hk : Only ps s₀ s) : Only ps s₀ (endBurst x s) := by
  unfold endBurst
  repeat' first
    | with_reducible assumption | with_reducible apply only_ite | with_reducible apply only_bump
    | with_reducible apply only_burstAccount | with_reducible apply only_modUsLane
    | with_reducible apply only_numberUpTo | split | exact List.Subset.trans (by decide) hp

theorem only_gateLook 
    (hp : [.us, .sup, .qos, .ports, .pwr, .pair, .life, .win, .i3c, .reeve, .counters, .freeCtr] ⊆ ps)
    (_hk : Only ps s₀ s) : Only ps s₀ (gateLook s) := by
  unfold gateLook
  repeat' first
    | with_reducible assumption | with_reducible intro _ | with_reducible apply only_ite
    | with_reducible apply only_ite2 | with_reducible apply only_each
    | with_reducible apply only_cutBurst | refine only_snd (by assumption) ?_ | split | dsimp only
    | exact List.Subset.trans (by decide) hp | exact hp (by decide)

theorem only_windowLook  (hp : [.us, .sup, .qos, .ports, .pwr, .pair, .life, .win, .i3c, .reeve,
    .counters, .freeCtr] ⊆ ps)
    (_hk : Only ps s₀ s) : Only ps s₀ (windowLook s) := by
  unfold windowLook
  repeat' first
    | with_reducible assumption | with_reducible intro _ | with_reducible apply only_ite
    | with_reducible apply only_ite2 | with_reducible apply only_each
    | with_reducible apply only_endBurst | refine only_snd (by assumption) ?_ | split | dsimp only
    | exact List.Subset.trans (by decide) hp | exact hp (by decide)

theorem only_setRef {r : PllRef} (hp : [.clk, .win, .i3c, .reeve, .counters] ⊆ ps)
    (_hk : Only ps s₀ s) : Only ps s₀ (setRef r s) := by
  unfold setRef
  repeat' first
    | with_reducible assumption | with_reducible apply only_ite
    | with_reducible apply only_raise | dsimp only | with_reducible apply only_f_clk
    | exact List.Subset.trans (by decide) hp | exact hp (by decide)

theorem only_refLook  (hp : [.clk, .win, .i3c, .reeve, .counters] ⊆ ps)
    (_hk : Only ps s₀ s) : Only ps s₀ (refLook s) := by
  unfold refLook
  repeat' first
    | with_reducible assumption | with_reducible apply only_ite
    | with_reducible apply only_raise | with_reducible apply only_setRef | split | dsimp only
    | with_reducible apply only_f_clk | exact List.Subset.trans (by decide) hp
    | exact hp (by decide)

/-! Operations of `ActOps`. -/

theorem only_setReasm {id : Nat} {r : Reasm} (hp : [.reasm] ⊆ ps)
    (_hk : Only ps s₀ s) : Only ps s₀ (setReasm id r s) := by
  unfold setReasm
  repeat' first
    | with_reducible assumption | with_reducible apply only_f_reasm | exact hp (by decide)

theorem only_dropReasm {id : Nat} (hp : [.reasm, .qos, .pwr, .freeCtr] ⊆ ps)
    (_hk : Only ps s₀ s) : Only ps s₀ (dropReasm id s) := by
  unfold dropReasm
  repeat' first
    | with_reducible assumption | with_reducible apply only_freeBushels
    | with_reducible apply only_setReasm | exact List.Subset.trans (by decide) hp

theorem only_removeLot {id : Nat}
    (hp : [.lots, .reasm, .sup, .qos, .pwr, .life, .win, .i3c, .reeve, .counters, .freeCtr] ⊆ ps)
    (_hk : Only ps s₀ s) : Only ps s₀ (removeLot id s) := by
  unfold removeLot
  repeat' first
    | with_reducible assumption | with_reducible apply only_ite | with_reducible apply only_bump
    | with_reducible apply only_dropReasm | with_reducible apply only_plmRemove
    | with_reducible apply only_f_lots | exact List.Subset.trans (by decide) hp
    | exact hp (by decide)

theorem only_clearRtt {i : Nat} (hp : [.us] ⊆ ps)
    (_hk : Only ps s₀ s) : Only ps s₀ (clearRtt i s) := by
  unfold clearRtt
  repeat' first
    | with_reducible assumption | with_reducible intro _ | with_reducible apply only_ite
    | with_reducible apply only_ite2 | with_reducible apply only_each
    | with_reducible apply only_modUsLane | refine only_snd (by assumption) ?_ | split | dsimp only
    | exact List.Subset.trans (by decide) hp | exact hp (by decide)

theorem only_clearEqd {i : Nat} (hp : [.us] ⊆ ps)
    (_hk : Only ps s₀ s) : Only ps s₀ (clearEqd i s) := by
  unfold clearEqd
  repeat' first
    | with_reducible assumption | with_reducible intro _ | with_reducible apply only_ite
    | with_reducible apply only_ite2 | with_reducible apply only_each
    | with_reducible apply only_modUsLane | refine only_snd (by assumption) ?_ | split | dsimp only
    | exact List.Subset.trans (by decide) hp | exact hp (by decide)

theorem only_leaveFor {i g : Nat} {sc : Option (BitVec 48)} {w : ActDue} (_hp : [.act] ⊆ ps)
    (_hk : Only ps s₀ s) : Only ps s₀ (leaveFor i g sc w s) := by
  unfold leaveFor
  repeat' first
    | with_reducible assumption | with_reducible apply only_modInst

theorem only_actClear {i : Nat} {msg : Option Nat}
    (hp : [.lots, .reasm, .us, .act, .sup, .qos, .pwr, .life, .win, .i3c, .reeve, .counters, .freeCtr] ⊆ ps)
    (_hk : Only ps s₀ s) : Only ps s₀ (actClear i msg s) := by
  unfold actClear
  repeat' first
    | with_reducible assumption | with_reducible intro _ | with_reducible apply only_ite
    | with_reducible apply only_ite2 | with_reducible apply only_each
    | with_reducible apply only_clearEqd | with_reducible apply only_clearRtt
    | with_reducible apply only_leaveFor | with_reducible apply only_modInst
    | with_reducible apply only_removeLot | refine only_snd (by assumption) ?_ | split | dsimp only
    | with_reducible apply only_f_act | exact List.Subset.trans (by decide) hp
    | exact hp (by decide)

theorem only_requestSwitch {target : Nat} {host : Bool}
    (hp : [.act, .sup, .life, .win, .i3c, .reeve, .counters] ⊆ ps)
    (_hk : Only ps s₀ s) : Only ps s₀ (requestSwitch target host s).2 := by
  unfold requestSwitch
  repeat' first
    | with_reducible assumption | with_reducible apply only_ite2
    | with_reducible apply only_bump | with_reducible apply only_raise | dsimp only
    | with_reducible apply only_f_act | exact List.Subset.trans (by decide) hp
    | exact hp (by decide)

theorem only_holdOffRequest {i : Nat} (hp : [.act, .sup, .life, .win, .i3c, .reeve, .counters] ⊆ ps)
    (_hk : Only ps s₀ s) : Only ps s₀ (holdOffRequest i s) := by
  unfold holdOffRequest
  repeat' first
    | with_reducible assumption | with_reducible apply only_modSupInst
    | with_reducible apply only_requestSwitch | exact List.Subset.trans (by decide) hp

theorem only_holdOffLook {i : Nat} (_hp : [.act, .sup, .life, .win, .i3c, .reeve, .counters] ⊆ ps)
    (_hk : Only ps s₀ s) : Only ps s₀ (holdOffLook i s) := by
  unfold holdOffLook
  repeat' first
    | with_reducible assumption | with_reducible apply only_ite
    | with_reducible apply only_holdOffRequest | split

theorem only_operatingEntered {i : Nat}
    (hp : [.act, .sup, .life, .win, .i3c, .reeve, .counters] ⊆ ps)
    (_hk : Only ps s₀ s) : Only ps s₀ (operatingEntered i s) := by
  unfold operatingEntered
  repeat' first
    | with_reducible assumption | with_reducible apply only_ite
    | with_reducible apply only_modSupInst | with_reducible apply only_requestSwitch
    | exact List.Subset.trans (by decide) hp

theorem only_setAct {i : Nat} {dest : ActState} {msg : Option Nat}
    (hp : [.us, .act, .sup, .qos, .ports, .pwr, .pair, .life, .win, .i3c, .reeve, .counters,
    .freeCtr] ⊆ ps)
    (_hk : Only ps s₀ s) : Only ps s₀ (setAct i dest msg s) := by
  unfold setAct
  repeat' first
    | with_reducible assumption | with_reducible apply only_ite
    | with_reducible apply only_gateLook | with_reducible apply only_leaveFor
    | with_reducible apply only_modInst | with_reducible apply only_operatingEntered
    | with_reducible apply only_raise | with_reducible apply only_supLook | split
    | exact List.Subset.trans (by decide) hp

theorem only_toListen {i : Nat} {msg : Option Nat}
    (hp : [.lots, .reasm, .us, .act, .sup, .qos, .ports, .pwr, .pair, .life, .win, .i3c, .reeve,
    .counters, .freeCtr] ⊆ ps)
    (_hk : Only ps s₀ s) : Only ps s₀ (toListen i msg s) := by
  unfold toListen
  repeat' first
    | with_reducible assumption | with_reducible apply only_actClear
    | with_reducible apply only_setAct | exact List.Subset.trans (by decide) hp

theorem only_actLost {i : Nat}
    (hp : [.lots, .reasm, .us, .act, .sup, .qos, .ports, .pwr, .pair, .life, .win, .i3c, .reeve, .counters, .freeCtr] ⊆ ps)
    (_hk : Only ps s₀ s) : Only ps s₀ (actLost i s) := by
  unfold actLost
  repeat' first
    | with_reducible assumption | with_reducible intro _ | with_reducible apply only_ite
    | with_reducible apply only_ite2 | with_reducible apply only_modInst
    | with_reducible apply only_setAct | with_reducible apply only_toListen
    | refine only_snd (by assumption) ?_ | split | dsimp only
    | exact List.Subset.trans (by decide) hp | exact hp (by decide)

theorem only_actLockLook 
    (_hp : [.lots, .reasm, .us, .act, .sup, .qos, .ports, .pwr, .pair, .life, .win, .i3c, .reeve,
    .counters, .freeCtr] ⊆ ps)
    (_hk : Only ps s₀ s) : Only ps s₀ (actLockLook s) := by
  unfold actLockLook
  repeat' first
    | with_reducible assumption | with_reducible intro _ | with_reducible apply only_ite
    | with_reducible apply only_actLost | with_reducible apply only_each

theorem only_lockLook 
    (hp : [.clk, .lots, .reasm, .us, .act, .sup, .qos, .ports, .pwr, .pair, .life, .win, .i3c,
    .reeve, .counters, .freeCtr] ⊆ ps)
    (_hk : Only ps s₀ s) : Only ps s₀ (lockLook s) := by
  unfold lockLook
  repeat' first
    | with_reducible assumption | with_reducible apply only_actLockLook
    | with_reducible apply only_gateLook | with_reducible apply only_refLook
    | exact List.Subset.trans (by decide) hp

/-! Operations of `Gens`. -/

theorem only_modCls {f : Cls → Cls} (hp : [.cls] ⊆ ps)
    (_hk : Only ps s₀ s) : Only ps s₀ (modCls f s) := by
  unfold modCls
  repeat' first
    | with_reducible assumption | with_reducible apply only_f_cls | exact hp (by decide)

theorem only_retireLook  (hp : [.sup, .cls, .life, .win, .i3c, .reeve, .counters] ⊆ ps)
    (_hk : Only ps s₀ s) : Only ps s₀ (retireLook s) := by
  unfold retireLook
  repeat' first
    | with_reducible assumption | with_reducible apply only_ite | with_reducible apply only_bump
    | with_reducible apply only_modCls | exact List.Subset.trans (by decide) hp

theorem only_genLeave {g : BitVec 8} (hp : [.sup, .cls, .life, .win, .i3c, .reeve, .counters] ⊆ ps)
    (_hk : Only ps s₀ s) : Only ps s₀ (genLeave g s) := by
  unfold genLeave
  repeat' first
    | with_reducible assumption | with_reducible apply only_modCls
    | with_reducible apply only_retireLook | exact List.Subset.trans (by decide) hp

theorem only_commitNow {tag : Option (BitVec 16 × Bool)}
    (hp : [.sup, .cls, .life, .win, .i3c, .reeve, .counters] ⊆ ps)
    (_hk : Only ps s₀ s) : Only ps s₀ (commitNow tag s) := by
  unfold commitNow
  repeat' first
    | with_reducible assumption | with_reducible apply only_bump
    | with_reducible apply only_modCls | with_reducible apply only_raise
    | with_reducible apply only_raiseTag | with_reducible apply only_retireLook | split
    | exact List.Subset.trans (by decide) hp

/-! Operations of `Arrive`. -/

theorem only_heldDue {sc : BitVec 48} (hp : [.pair] ⊆ ps)
    (_hk : Only ps s₀ s) : Only ps s₀ (heldDue sc s) := by
  unfold heldDue
  repeat' first
    | with_reducible assumption | dsimp only | with_reducible apply only_f_pair
    | exact hp (by decide)

theorem only_commitDue {sc : BitVec 48}
    (_hp : [.sup, .cls, .life, .win, .i3c, .reeve, .counters] ⊆ ps)
    (_hk : Only ps s₀ s) : Only ps s₀ (commitDue sc s) := by
  unfold commitDue
  repeat' first
    | with_reducible assumption | with_reducible apply only_ite
    | with_reducible apply only_commitNow | split

theorem only_arrived {l : Nat} {sc : BitVec 48}
    (hp : [.sup, .cls, .pair, .life, .win, .i3c, .reeve, .counters] ⊆ ps)
    (_hk : Only ps s₀ s) : Only ps s₀ (arrived l sc s) := by
  unfold arrived
  repeat' first
    | with_reducible assumption | with_reducible apply only_ite
    | with_reducible apply only_commitDue | with_reducible apply only_heldDue
    | exact List.Subset.trans (by decide) hp

/-! Operations of `Line`. -/

theorem only_excludeLane {l : Nat}
    (hp : [.lanes, .groups, .sup, .life, .win, .i3c, .reeve, .counters] ⊆ ps)
    (_hk : Only ps s₀ s) : Only ps s₀ (excludeLane l s) := by
  unfold excludeLane
  repeat' first
    | with_reducible assumption | with_reducible intro _ | with_reducible apply only_ite
    | with_reducible apply only_ite2 | with_reducible apply only_bump
    | with_reducible apply only_modGroup | with_reducible apply only_modLane
    | with_reducible apply only_raise | refine only_snd (by assumption) ?_ | split | dsimp only
    | exact List.Subset.trans (by decide) hp | exact hp (by decide)

theorem only_includeLane {l : Nat} {sc : BitVec 48}
    (hp : [.lanes, .win, .i3c, .reeve, .counters] ⊆ ps)
    (_hk : Only ps s₀ s) : Only ps s₀ (includeLane l sc s) := by
  unfold includeLane
  repeat' first
    | with_reducible assumption | with_reducible intro _ | with_reducible apply only_ite
    | with_reducible apply only_ite2 | with_reducible apply only_each
    | with_reducible apply only_modLane | with_reducible apply only_raise
    | refine only_snd (by assumption) ?_ | split | dsimp only
    | exact List.Subset.trans (by decide) hp | exact hp (by decide)

theorem only_excludeNow {l : Nat} (hp : [.lanes, .groups, .sup, .life, .win, .i3c, .reeve,
    .counters] ⊆ ps)
    (_hk : Only ps s₀ s) : Only ps s₀ (excludeNow l s) := by
  unfold excludeNow
  repeat' first
    | with_reducible assumption | with_reducible intro _ | with_reducible apply only_ite
    | with_reducible apply only_ite2 | with_reducible apply only_excludeLane
    | with_reducible apply only_modLane | refine only_snd (by assumption) ?_ | split | dsimp only
    | exact List.Subset.trans (by decide) hp | exact hp (by decide)

theorem only_bondCompare {l : Nat} (hp : [.lanes, .groups, .sup, .life, .win, .i3c, .reeve,
    .counters] ⊆ ps)
    (_hk : Only ps s₀ s) : Only ps s₀ (bondCompare l s) := by
  unfold bondCompare
  repeat' first
    | with_reducible assumption | with_reducible intro _ | with_reducible apply only_ite
    | with_reducible apply only_ite2 | with_reducible apply only_each
    | with_reducible apply only_excludeLane | with_reducible apply only_excludeNow
    | with_reducible apply only_includeLane | with_reducible apply only_modLane
    | refine only_snd (by assumption) ?_ | split | dsimp only
    | exact List.Subset.trans (by decide) hp | exact hp (by decide)

theorem only_bondSettle {g : Nat} (hp : [.lanes, .groups, .sup, .life, .win, .i3c, .reeve,
    .counters] ⊆ ps)
    (_hk : Only ps s₀ s) : Only ps s₀ (bondSettle g s) := by
  unfold bondSettle
  repeat' first
    | with_reducible assumption | with_reducible intro _ | with_reducible apply only_ite
    | with_reducible apply only_ite2 | with_reducible apply only_each
    | with_reducible apply only_bondCompare | refine only_snd (by assumption) ?_ | split
    | dsimp only | exact List.Subset.trans (by decide) hp | exact hp (by decide)

theorem only_bondLook {l : Nat}
    (hp : [.lanes, .groups, .sup, .life, .win, .i3c, .reeve, .counters] ⊆ ps)
    (_hk : Only ps s₀ s) : Only ps s₀ (bondLook l s) := by
  unfold bondLook
  repeat' first
    | with_reducible assumption | with_reducible intro _ | with_reducible apply only_ite
    | with_reducible apply only_ite2 | with_reducible apply only_bondSettle
    | with_reducible apply only_modLane | refine only_snd (by assumption) ?_ | split | dsimp only
    | exact List.Subset.trans (by decide) hp | exact hp (by decide)

theorem only_bondClose {l : Nat} (hp : [.lanes, .groups, .sup, .life, .win, .i3c, .reeve, .counters]
    ⊆ ps)
    (_hk : Only ps s₀ s) : Only ps s₀ (bondClose l s) := by
  unfold bondClose
  repeat' first
    | with_reducible assumption | with_reducible intro _ | with_reducible apply only_ite
    | with_reducible apply only_ite2 | with_reducible apply only_bondCompare
    | refine only_snd (by assumption) ?_ | split | dsimp only
    | exact List.Subset.trans (by decide) hp | exact hp (by decide)

theorem only_countConflict {g l : Nat} (hp : [.lanes, .sup, .life, .win, .i3c, .reeve, .counters] ⊆
    ps)
    (_hk : Only ps s₀ s) : Only ps s₀ (countConflict g l s) := by
  unfold countConflict
  repeat' first
    | with_reducible assumption | with_reducible intro _ | with_reducible apply only_ite
    | with_reducible apply only_ite2 | with_reducible apply only_bump
    | with_reducible apply only_modLane | with_reducible apply only_raise
    | refine only_snd (by assumption) ?_ | split | dsimp only
    | exact List.Subset.trans (by decide) hp | exact hp (by decide)

theorem only_priConflict {g : Nat} {sc : BitVec 48} (hp : [.lanes, .sup, .life, .win, .i3c, .reeve,
    .counters] ⊆ ps)
    (_hk : Only ps s₀ s) : Only ps s₀ (priConflict g sc s) := by
  unfold priConflict
  repeat' first
    | with_reducible assumption | with_reducible intro _ | with_reducible apply only_ite
    | with_reducible apply only_ite2 | with_reducible apply only_each
    | with_reducible apply only_countConflict | refine only_snd (by assumption) ?_ | split
    | dsimp only | exact List.Subset.trans (by decide) hp | exact hp (by decide)

theorem only_closeLot {l : Nat} {k : LotKey} {p : Option Bytes} (hp : [.lanes, .groups] ⊆ ps)
    (_hk : Only ps s₀ s) : Only ps s₀ (closeLot l k p s) := by
  unfold closeLot
  repeat' first
    | with_reducible assumption | with_reducible intro _ | with_reducible apply only_ite
    | with_reducible apply only_ite2 | with_reducible apply only_modGroup
    | with_reducible apply only_modLane | refine only_snd (by assumption) ?_ | split | dsimp only
    | exact List.Subset.trans (by decide) hp | exact hp (by decide)

theorem only_dropPartial {l : Nat} (hp : [.lanes, .groups] ⊆ ps)
    (_hk : Only ps s₀ s) : Only ps s₀ (dropPartial l s) := by
  unfold dropPartial
  repeat' first
    | with_reducible assumption | with_reducible intro _ | with_reducible apply only_ite
    | with_reducible apply only_ite2 | with_reducible apply only_closeLot
    | with_reducible apply only_modLane | refine only_snd (by assumption) ?_ | split | dsimp only
    | exact List.Subset.trans (by decide) hp | exact hp (by decide)

theorem only_applyCut {l : Nat} {c : Cut} (hp : [.lanes, .groups, .sup, .life, .win, .i3c, .reeve,
    .counters] ⊆ ps)
    (_hk : Only ps s₀ s) : Only ps s₀ (applyCut l c s) := by
  unfold applyCut
  repeat' first
    | with_reducible assumption | with_reducible intro _ | with_reducible apply only_ite
    | with_reducible apply only_ite2 | with_reducible apply only_each
    | with_reducible apply only_bump | with_reducible apply only_closeLot
    | with_reducible apply only_modLane | refine only_snd (by assumption) ?_ | split | dsimp only
    | exact List.Subset.trans (by decide) hp | exact hp (by decide)

theorem only_cutLots {l n : Nat}
    (hp : [.lanes, .groups, .sup, .life, .win, .i3c, .reeve, .counters] ⊆ ps) (h : Only ps s₀ s) :
    Only ps s₀ (cutLots l n s) := by
  induction n generalizing s with
  | zero => exact h
  | succ n ih =>
    unfold cutLots
    split
    · exact h
    · exact ih (only_applyCut hp h)

theorem only_feed {l : Nat} {at_ : Nat} {b : List (Option (BitVec 8))}
    (hp : [.lanes, .groups, .sup, .life, .win, .i3c, .reeve, .counters] ⊆ ps)
    (_hk : Only ps s₀ s) : Only ps s₀ (feed l at_ b s) := by
  unfold feed
  repeat' first
    | with_reducible assumption | with_reducible apply only_cutLots
    | with_reducible apply only_modLane | exact List.Subset.trans (by decide) hp

theorem only_startDelin {l : Nat} {d : Delin} {at_ : Nat} (hp : [.lanes, .groups, .sup, .life, .win,
    .i3c, .reeve, .counters] ⊆ ps)
    (_hk : Only ps s₀ s) : Only ps s₀ (startDelin l d at_ s) := by
  unfold startDelin
  repeat' first
    | with_reducible assumption | with_reducible intro _ | with_reducible apply only_ite
    | with_reducible apply only_ite2 | with_reducible apply only_bump
    | with_reducible apply only_dropPartial | with_reducible apply only_modLane
    | refine only_snd (by assumption) ?_ | split | dsimp only
    | exact List.Subset.trans (by decide) hp | exact hp (by decide)

theorem only_laneDown {l : Nat} (hp : [.lanes, .groups, .sup, .life, .win, .i3c, .reeve, .counters]
    ⊆ ps)
    (_hk : Only ps s₀ s) : Only ps s₀ (laneDown l s) := by
  unfold laneDown
  repeat' first
    | with_reducible assumption | with_reducible intro _ | with_reducible apply only_ite
    | with_reducible apply only_ite2 | with_reducible apply only_dropPartial
    | with_reducible apply only_excludeLane | with_reducible apply only_modLane
    | refine only_snd (by assumption) ?_ | split | dsimp only
    | exact List.Subset.trans (by decide) hp | exact hp (by decide)

theorem only_listenEnd {l n : Nat}
    (hp : [.clk, .lanes, .groups, .sup, .life, .win, .i3c, .reeve, .counters] ⊆ ps)
    (_hk : Only ps s₀ s) : Only ps s₀ (listenEnd l n s) := by
  unfold listenEnd
  repeat' first
    | with_reducible assumption | with_reducible intro _ | with_reducible apply only_ite
    | with_reducible apply only_ite2 | with_reducible apply only_laneDown
    | with_reducible apply only_refLook | refine only_snd (by assumption) ?_ | split | dsimp only
    | exact List.Subset.trans (by decide) hp | exact hp (by decide)

theorem only_listenCount {l : Nat} {sc : BitVec 48}
    (_hp : [.sup, .life, .win, .i3c, .reeve, .counters] ⊆ ps)
    (_hk : Only ps s₀ s) : Only ps s₀ (listenCount l sc s) := by
  unfold listenCount
  repeat' first
    | with_reducible assumption | with_reducible apply only_ite | with_reducible apply only_bump

theorem only_recordArrival {l : Nat} {a : Arrival}
    (hp : [.lanes, .sup, .cls, .pair, .life, .win, .i3c, .reeve, .counters] ⊆ ps)
    (_hk : Only ps s₀ s) : Only ps s₀ (recordArrival l a s) := by
  unfold recordArrival
  repeat' first
    | with_reducible assumption | with_reducible apply only_arrived
    | with_reducible apply only_modLane | exact List.Subset.trans (by decide) hp

theorem only_confirmCw0 {l : Nat} {start : BitVec 64} {txLane : BitVec 2} {payload : Bytes} {inLock
    : Bool} (hp : [.clk, .lanes, .groups, .sup, .cls, .pair, .life, .win, .i3c, .reeve, .counters] ⊆
    ps)
    (_hk : Only ps s₀ s) : Only ps s₀ (confirmCw0 l start txLane payload inLock s) := by
  unfold confirmCw0
  repeat' first
    | with_reducible assumption | with_reducible intro _ | with_reducible apply only_ite
    | with_reducible apply only_ite2 | with_reducible apply only_bondClose
    | with_reducible apply only_bondLook | with_reducible apply only_bump
    | with_reducible apply only_feed | with_reducible apply only_listenCount
    | with_reducible apply only_listenEnd | with_reducible apply only_modLane
    | with_reducible apply only_priConflict | with_reducible apply only_raise
    | with_reducible apply only_recordArrival | with_reducible apply only_startDelin
    | with_reducible apply only_windowEnd | refine only_snd (by assumption) ?_ | split | dsimp only
    | exact List.Subset.trans (by decide) hp | exact hp (by decide)

theorem only_gainLock {l : Nat} {start : BitVec 64} {txLane : BitVec 2} {payload : Bytes}
    {sc : BitVec 48}
    (hp : [.clk, .lanes, .groups, .lots, .reasm, .us, .act, .sup, .qos, .cls, .ports, .pwr,
    .pair, .life, .win, .i3c, .reeve, .counters, .freeCtr] ⊆ ps)
    (_hk : Only ps s₀ s) : Only ps s₀ (gainLock l start txLane payload sc s) := by
  unfold gainLock
  repeat' first
    | with_reducible assumption | with_reducible apply only_bump
    | with_reducible apply only_confirmCw0 | with_reducible apply only_lockEntry
    | with_reducible apply only_lockLook | with_reducible apply only_modLane
    | with_reducible apply only_raise | exact List.Subset.trans (by decide) hp

theorem only_dropAlignment {l : Nat} {st : LaneState}
    (hp : [.lanes, .groups, .sup, .life, .win, .i3c, .reeve, .counters] ⊆ ps)
    (_hk : Only ps s₀ s) : Only ps s₀ (dropAlignment l st s) := by
  unfold dropAlignment
  repeat' first
    | with_reducible assumption | with_reducible intro _ | with_reducible apply only_ite
    | with_reducible apply only_ite2 | with_reducible apply only_dropPartial
    | with_reducible apply only_excludeLane | with_reducible apply only_modLane
    | refine only_snd (by assumption) ?_ | split | dsimp only
    | exact List.Subset.trans (by decide) hp | exact hp (by decide)

theorem only_loseLock {l : Nat}
    (hp : [.clk, .lanes, .groups, .lots, .reasm, .us, .act, .sup, .qos, .ports, .pwr, .pair,
    .life, .win, .i3c, .reeve, .counters, .freeCtr] ⊆ ps)
    (_hk : Only ps s₀ s) : Only ps s₀ (loseLock l s) := by
  unfold loseLock
  repeat' first
    | with_reducible assumption | with_reducible apply only_ite | with_reducible apply only_bump
    | with_reducible apply only_dropAlignment | with_reducible apply only_lockLook
    | with_reducible apply only_lofEntry | with_reducible apply only_raise
    | with_reducible apply only_wakeEvent | exact List.Subset.trans (by decide) hp

theorem only_missCw0 {l : Nat} (hp : [.clk, .lanes, .groups, .lots, .reasm, .us, .act, .sup, .qos,
    .cls, .ports, .pwr, .pair, .life, .win, .i3c, .reeve, .counters, .freeCtr] ⊆ ps)
    (_hk : Only ps s₀ s) : Only ps s₀ (missCw0 l s) := by
  unfold missCw0
  repeat' first
    | with_reducible assumption | with_reducible intro _ | with_reducible apply only_ite
    | with_reducible apply only_ite2 | with_reducible apply only_bondClose
    | with_reducible apply only_bondLook | with_reducible apply only_bump
    | with_reducible apply only_loseLock | with_reducible apply only_modLane
    | with_reducible apply only_recordArrival | with_reducible apply only_startDelin
    | with_reducible apply only_windowEnd | refine only_snd (by assumption) ?_ | split | dsimp only
    | exact List.Subset.trans (by decide) hp | exact hp (by decide)

theorem only_putSlots {l : Nat} {ks : List Slot} (_hp : [.lanes] ⊆ ps)
    (_hk : Only ps s₀ s) : Only ps s₀ (putSlots l ks s) := by
  unfold putSlots
  repeat' first
    | with_reducible assumption | with_reducible apply only_modLane

theorem only_verifyCodeword {l : Nat} {start : BitVec 64} {d : Option Decoded}
    (hp : [.clk, .lanes, .groups, .lots, .reasm, .us, .act, .sup, .qos, .cls, .ports, .pwr,
    .pair, .life, .win, .i3c, .reeve, .counters, .freeCtr] ⊆ ps)
    (_hk : Only ps s₀ s) : Only ps s₀ (verifyCodeword l start d s) := by
  unfold verifyCodeword
  repeat' first
    | with_reducible assumption | with_reducible apply only_bump
    | with_reducible apply only_gainLock | with_reducible apply only_putSlots
    | with_reducible apply only_recordArrival | split | exact List.Subset.trans (by decide) hp

theorem only_countCodeword {l : Nat} {d : Option Decoded} {hdrErr : Bool} {supervised : Bool}
    (hp : [.sup, .life, .win, .i3c, .reeve, .counters] ⊆ ps)
    (_hk : Only ps s₀ s) : Only ps s₀ (countCodeword l d hdrErr supervised s) := by
  unfold countCodeword
  repeat' first
    | with_reducible assumption | with_reducible intro _ | with_reducible apply only_ite
    | with_reducible apply only_ite2 | with_reducible apply only_bump
    | with_reducible apply only_modSupLane | with_reducible apply only_sdAccount
    | refine only_snd (by assumption) ?_ | split | dsimp only
    | exact List.Subset.trans (by decide) hp | exact hp (by decide)

theorem only_lockedCw0 {l : Nat} {start : BitVec 64} {d : Option Decoded}
    (hp : [.clk, .lanes, .groups, .lots, .reasm, .us, .act, .sup, .qos, .cls, .ports, .pwr,
    .pair, .life, .win, .i3c, .reeve, .counters, .freeCtr] ⊆ ps)
    (_hk : Only ps s₀ s) : Only ps s₀ (lockedCw0 l start d s) := by
  unfold lockedCw0
  repeat' first
    | with_reducible assumption | with_reducible apply only_ite
    | with_reducible apply only_confirmCw0 | with_reducible apply only_countCodeword
    | with_reducible apply only_missCw0 | split | exact List.Subset.trans (by decide) hp

theorem only_catchUp {l n : Nat} (hp : [.lanes, .groups, .sup, .life, .win, .i3c, .reeve, .counters] ⊆ ps)
    (_hk : Only ps s₀ s) : Only ps s₀ (catchUp l n s) := by
  unfold catchUp
  repeat' first
    | with_reducible assumption | with_reducible apply only_ite | with_reducible apply only_feed
    | with_reducible apply only_modLane | exact List.Subset.trans (by decide) hp

theorem only_lockedCw {l n : Nat} {d : Option Decoded}
    (hp : [.clk, .lanes, .groups, .sup, .life, .win, .i3c, .reeve, .counters] ⊆ ps)
    (_hk : Only ps s₀ s) : Only ps s₀ (lockedCw l n d s) := by
  unfold lockedCw
  repeat' first
    | with_reducible assumption | with_reducible apply only_ite
    | with_reducible apply only_catchUp | with_reducible apply only_countCodeword
    | with_reducible apply only_feed | with_reducible apply only_listenEnd
    | with_reducible apply only_modLane | split | exact List.Subset.trans (by decide) hp

theorem only_resumeCodeword {l : Nat} {start : BitVec 64} {d : Option Decoded}
    (hp : [.clk, .lanes, .groups, .lots, .reasm, .us, .act, .sup, .qos, .cls, .ports, .pwr,
    .pair, .life, .win, .i3c, .reeve, .counters, .freeCtr] ⊆ ps)
    (_hk : Only ps s₀ s) : Only ps s₀ (resumeCodeword l start d s) := by
  unfold resumeCodeword
  repeat' first
    | with_reducible assumption | with_reducible apply only_ite
    | with_reducible apply only_countCodeword | with_reducible apply only_gainLock | split
    | exact List.Subset.trans (by decide) hp

theorem only_ctleFollow {l : Nat} (_hp : [.lanes] ⊆ ps)
    (_hk : Only ps s₀ s) : Only ps s₀ (ctleFollow l s) := by
  unfold ctleFollow
  repeat' first
    | with_reducible assumption | with_reducible apply only_modLane

theorem only_applyEq {l : Nat} {items : List (Nat × Int)} (hp : [.lanes, .settings] ⊆ ps)
    (_hk : Only ps s₀ s) : Only ps s₀ (applyEq l items s) := by
  unfold applyEq
  repeat' first
    | with_reducible assumption | with_reducible intro _ | with_reducible apply only_ctleFollow
    | with_reducible apply only_each | with_reducible apply only_putSetting
    | exact List.Subset.trans (by decide) hp

theorem only_enableLane {l : Nat} (hp : [.lanes, .sup, .win, .i3c, .reeve, .counters] ⊆ ps)
    (_hk : Only ps s₀ s) : Only ps s₀ (enableLane l s) := by
  unfold enableLane
  repeat' first
    | with_reducible assumption | with_reducible apply only_ite
    | with_reducible apply only_lofEntry | with_reducible apply only_modLane
    | exact List.Subset.trans (by decide) hp

theorem only_disableLane {l : Nat}
    (hp : [.clk, .lanes, .groups, .lots, .reasm, .us, .act, .sup, .qos, .ports, .pwr, .pair, .life, .win, .i3c, .reeve, .counters, .freeCtr] ⊆ ps)
    (_hk : Only ps s₀ s) : Only ps s₀ (disableLane l s) := by
  unfold disableLane
  repeat' first
    | with_reducible assumption | with_reducible intro _ | with_reducible apply only_ite
    | with_reducible apply only_ite2 | with_reducible apply only_clearLaneDefects
    | with_reducible apply only_dropPartial | with_reducible apply only_excludeLane
    | with_reducible apply only_lockLook | with_reducible apply only_modLane
    | refine only_snd (by assumption) ?_ | split | dsimp only
    | exact List.Subset.trans (by decide) hp | exact hp (by decide)

theorem only_laneUp {l : Nat} (hp : [.lanes, .sup] ⊆ ps)
    (_hk : Only ps s₀ s) : Only ps s₀ (laneUp l s) := by
  unfold laneUp
  repeat' first
    | with_reducible assumption | with_reducible intro _ | with_reducible apply only_ite
    | with_reducible apply only_ite2 | with_reducible apply only_modLane
    | with_reducible apply only_modSupLane | refine only_snd (by assumption) ?_ | split
    | dsimp only | exact List.Subset.trans (by decide) hp | exact hp (by decide)

/-! Operations of `CryOps`. -/

theorem only_modSlot {k : Nat} {f : KeySlot → KeySlot} (hp : [.cry] ⊆ ps)
    (_hk : Only ps s₀ s) : Only ps s₀ (modSlot k f s) := by
  unfold modSlot
  repeat' first
    | with_reducible assumption | dsimp only | with_reducible apply only_f_cry
    | exact hp (by decide)

theorem only_drawNonce {k : Nat} (_hp : [.cry] ⊆ ps)
    (_hk : Only ps s₀ s) : Only ps s₀ (drawNonce k s).2 := by
  unfold drawNonce
  repeat' first
    | with_reducible assumption | with_reducible apply only_ite2
    | with_reducible apply only_modSlot

theorem only_rngDraw  (hp : [.cry, .freeCtr] ⊆ ps)
    (_hk : Only ps s₀ s) : Only ps s₀ (rngDraw s).2 := by
  unfold rngDraw
  repeat' first
    | with_reducible assumption | with_reducible apply only_drawn | dsimp only
    | with_reducible apply only_f_cry | exact List.Subset.trans (by decide) hp
    | exact hp (by decide)

theorem only_maskDraw {n : Nat} (hp : [.cry] ⊆ ps)
    (_hk : Only ps s₀ s) : Only ps s₀ (maskDraw n s) := by
  unfold maskDraw
  repeat' first
    | with_reducible assumption | with_reducible intro _ | with_reducible apply only_ite
    | with_reducible apply only_ite2 | refine only_snd (by assumption) ?_ | split | dsimp only
    | with_reducible apply only_f_cry | exact List.Subset.trans (by decide) hp
    | exact hp (by decide)

theorem only_startOp {o : CryOp} (hp : [.cry] ⊆ ps) (_hk : Only ps s₀ s) :
    Only ps s₀ (startOp o s) := by
  unfold startOp
  repeat' first
    | with_reducible assumption | with_reducible apply only_ite | with_reducible apply only_maskDraw
    | split | dsimp only | with_reducible apply only_f_cry | exact List.Subset.trans (by decide) hp
    | exact hp (by decide)

theorem only_startOps (hp : [.cry] ⊆ ps) (hk : Only ps s₀ s) : Only ps s₀ (startOps s) := by
  unfold startOps
  refine only_each (fun c u h => ?_) hk
  split
  · exact only_startOp hp h
  · exact h

theorem only_issueOp {o : CryOp} (hp : [.cry] ⊆ ps)
    (_hk : Only ps s₀ s) : Only ps s₀ (issueOp o s).2 := by
  unfold issueOp
  repeat' first
    | with_reducible assumption | with_reducible apply only_startOps | dsimp only
    | with_reducible apply only_f_cry | exact hp (by decide)

/-! Operations of `Lots`. -/

theorem only_abandonContexts {g : Nat}
    (hp : [.reasm, .sup, .qos, .pwr, .life, .win, .i3c, .reeve, .counters, .freeCtr] ⊆ ps)
    (_hk : Only ps s₀ s) : Only ps s₀ (abandonContexts g s) := by
  unfold abandonContexts
  repeat' first
    | with_reducible assumption | with_reducible intro _ | with_reducible apply only_bump
    | with_reducible apply only_dropReasm | with_reducible apply only_each
    | exact List.Subset.trans (by decide) hp

theorem only_deliverLot {id label keyIdx g : Nat} {key : LotKey} {t : BitVec 64} {b : Bytes}
    {bushels : Nat}
    (hp : [.toTime, .toReeve, .inQ, .sup, .qos, .pwr, .life, .win, .i3c, .reeve, .counters, .freeCtr] ⊆ ps)
    (_hk : Only ps s₀ s) : Only ps s₀ (deliverLot id label keyIdx g key t b bushels s) := by
  unfold deliverLot
  repeat' first
    | with_reducible assumption | with_reducible intro _ | with_reducible apply only_ite
    | with_reducible apply only_ite2 | with_reducible apply only_bump
    | with_reducible apply only_freeBushels | refine only_snd (by assumption) ?_ | split
    | dsimp only | with_reducible apply only_f_toTime | with_reducible apply only_f_toReeve
    | with_reducible apply only_f_inQ | exact List.Subset.trans (by decide) hp
    | exact hp (by decide)

theorem only_lotBushels {g : Nat} {new : Bool} {held n : Nat}
    (hp : [.sup, .qos, .pwr, .life, .win, .i3c, .reeve, .counters, .freeCtr] ⊆ ps)
    (_hk : Only ps s₀ s) : Only ps s₀ (lotBushels g new held n s).2 := by
  unfold lotBushels
  repeat' first
    | with_reducible assumption | with_reducible intro _ | with_reducible apply only_ite
    | with_reducible apply only_ite2 | with_reducible apply only_bump
    | with_reducible apply only_takeUpTo | refine only_snd (by assumption) ?_ | split | dsimp only
    | exact List.Subset.trans (by decide) hp | exact hp (by decide)

theorem only_reassemble {id label keyIdx frag g : Nat} {key : LotKey} {t : BitVec 64} {b : Bytes}
    {passed : Nat} (hp : [.reasm, .toTime, .toReeve, .inQ, .sup, .qos, .pwr, .life, .win, .i3c,
    .reeve, .counters, .freeCtr] ⊆ ps)
    (_hk : Only ps s₀ s) : Only ps s₀ (reassemble id label keyIdx frag g key t b passed s) := by
  unfold reassemble
  repeat' first
    | with_reducible assumption | with_reducible intro _ | with_reducible apply only_ite
    | with_reducible apply only_ite2 | with_reducible apply only_bump
    | with_reducible apply only_deliverLot | with_reducible apply only_dropReasm
    | with_reducible apply only_freeBushels | with_reducible apply only_lotBushels
    | with_reducible apply only_setReasm | refine only_snd (by assumption) ?_ | split | dsimp only
    | exact List.Subset.trans (by decide) hp | exact hp (by decide)

theorem only_lotClear {g : Nat} {lot : Lot} {b : Bytes} {passed : Nat} (hp : [.reasm, .toTime,
    .toReeve, .inQ, .sup, .qos, .pwr, .life, .win, .i3c, .reeve, .counters, .freeCtr] ⊆ ps)
    (_hk : Only ps s₀ s) : Only ps s₀ (lotClear g lot b passed s) := by
  unfold lotClear
  repeat' first
    | with_reducible assumption | with_reducible intro _ | with_reducible apply only_ite
    | with_reducible apply only_ite2 | with_reducible apply only_bump
    | with_reducible apply only_reassemble | refine only_snd (by assumption) ?_ | split
    | dsimp only | exact List.Subset.trans (by decide) hp | exact hp (by decide)

theorem only_lotCipher {g : Nat} {lot : Lot} (hp : [.sup, .cry, .life, .win, .i3c, .reeve,
    .counters] ⊆ ps)
    (_hk : Only ps s₀ s) : Only ps s₀ (lotCipher g lot s).2 := by
  unfold lotCipher
  repeat' first
    | with_reducible assumption | with_reducible intro _ | with_reducible apply only_ite
    | with_reducible apply only_ite2 | with_reducible apply only_bump
    | with_reducible apply only_issueOp | refine only_snd (by assumption) ?_ | split | dsimp only
    | exact List.Subset.trans (by decide) hp | exact hp (by decide)

theorem only_processLot {g : Nat} {lot : Lot} (hp : [.sup, .cry, .life, .win, .i3c, .reeve,
    .counters] ⊆ ps)
    (_hk : Only ps s₀ s) : Only ps s₀ (processLot g lot s).2 := by
  unfold processLot
  repeat' first
    | with_reducible assumption | with_reducible intro _ | with_reducible apply only_ite
    | with_reducible apply only_ite2 | with_reducible apply only_bump
    | with_reducible apply only_lotCipher | with_reducible apply only_plmLot
    | refine only_snd (by assumption) ?_ | split | dsimp only
    | exact List.Subset.trans (by decide) hp | exact hp (by decide)

theorem only_relStart {g : Nat} {rs : List Rel} (hp : [.sup, .cry, .life, .win, .i3c, .reeve, .counters] ⊆ ps)
    (h : Only ps s₀ s) : Only ps s₀ (relStart g rs s).2 := by
  induction rs generalizing s with
  | nil => exact h
  | cons r rs ih =>
    unfold relStart
    exact ih (only_ite2 (only_processLot (List.Subset.trans (by decide) hp) h) h)

theorem only_relDrain {g : Nat} {rs : List Rel}
    (hp : [.reasm, .toTime, .toReeve, .inQ, .sup, .qos, .pwr, .life, .win, .i3c, .reeve,
      .counters, .freeCtr] ⊆ ps) (h : Only ps s₀ s) :
    Only ps s₀ (relDrain g rs s).2 := by
  induction rs generalizing s with
  | nil => exact h
  | cons r rs ih =>
    unfold relDrain
    have h1 : Only ps s₀ (if r.gap = true then abandonContexts g s else s) :=
      only_ite (only_abandonContexts (List.Subset.trans (by decide) hp) h) h
    dsimp only
    split
    · exact ih h1
    · exact ih (only_lotClear (List.Subset.trans (by decide) hp) h1)
    · exact h1

theorem only_relLook {g : Nat} (hp : [.groups, .reasm, .toTime, .toReeve, .inQ, .sup, .qos, .cry,
    .pwr, .life, .win, .i3c, .reeve, .counters, .freeCtr] ⊆ ps)
    (_hk : Only ps s₀ s) : Only ps s₀ (relLook g s) := by
  unfold relLook
  repeat' first
    | with_reducible assumption | with_reducible intro _ | with_reducible apply only_ite
    | with_reducible apply only_ite2 | with_reducible apply only_modGroup
    | with_reducible apply only_relDrain | with_reducible apply only_relStart
    | refine only_snd (by assumption) ?_ | split | dsimp only
    | exact List.Subset.trans (by decide) hp | exact hp (by decide)

theorem only_relCipherDone {g : Nat} {k : LotKey} {st : RelStep} (hp : [.groups, .reasm, .toTime,
    .toReeve, .inQ, .sup, .qos, .cry, .pwr, .life, .win, .i3c, .reeve, .counters, .freeCtr] ⊆ ps)
    (_hk : Only ps s₀ s) : Only ps s₀ (relCipherDone g k st s) := by
  unfold relCipherDone
  repeat' first
    | with_reducible assumption | with_reducible intro _ | with_reducible apply only_ite
    | with_reducible apply only_ite2 | with_reducible apply only_modGroup
    | with_reducible apply only_relLook | refine only_snd (by assumption) ?_ | split | dsimp only
    | exact List.Subset.trans (by decide) hp | exact hp (by decide)

theorem only_bseqRelease {g : Nat} {lot : Lot}
    (hp : [.groups, .sup, .life, .win, .i3c, .reeve, .counters] ⊆ ps)
    (_hk : Only ps s₀ s) : Only ps s₀ (bseqRelease g lot s) := by
  unfold bseqRelease
  repeat' first
    | with_reducible assumption | with_reducible intro _ | with_reducible apply only_ite
    | with_reducible apply only_ite2 | with_reducible apply only_bump
    | with_reducible apply only_modGroup | refine only_snd (by assumption) ?_ | split | dsimp only
    | exact List.Subset.trans (by decide) hp | exact hp (by decide)

theorem only_releaseHeader {g : Nat} (hp : [.lanes, .groups, .sup, .life, .win, .i3c, .reeve,
    .counters] ⊆ ps)
    (_hk : Only ps s₀ s) : Only ps s₀ (releaseHeader g s) := by
  unfold releaseHeader
  repeat' first
    | with_reducible assumption | with_reducible intro _ | with_reducible apply only_ite
    | with_reducible apply only_ite2 | with_reducible apply only_bseqRelease
    | with_reducible apply only_modLane | refine only_snd (by assumption) ?_ | split | dsimp only
    | exact List.Subset.trans (by decide) hp | exact hp (by decide)

end Sys2Proof.Machine
end

