-- ==== Sys2Proof/Laws/OnlyUp.lean ====
section
/-! SUPPORT. Which parts each operation writes (`Only`): upstream bursts, activation, the lifetime store, the servo, time. -/
-- One list of alternatives serves every lemma below; not every lemma uses each of them.
set_option linter.unusedTactic false
set_option linter.unreachableTactic false
namespace Sys2Proof.Machine
variable {ps : List Part} {s₀ s t : State}

/-! Operations of `Upstream`. -/

theorem only_storeFurrow {x : Nat} {f : Furrow}
    (hp : [.us, .sup, .life, .win, .i3c, .reeve, .counters] ⊆ ps)
    (_hk : Only ps s₀ s) : Only ps s₀ (storeFurrow x f s) := by
  unfold storeFurrow
  repeat' first
    | with_reducible assumption | with_reducible apply only_ite | with_reducible apply only_bump
    | with_reducible apply only_modUsLane | exact List.Subset.trans (by decide) hp

theorem only_upMessage {x : Nat} {f : Furrow} {type : BitVec 8} {body : Bytes} (hp : [.act, .cry] ⊆
    ps)
    (_hk : Only ps s₀ s) : Only ps s₀ (upMessage x f type body s).2 := by
  unfold upMessage
  repeat' first
    | with_reducible assumption | with_reducible intro _ | with_reducible apply only_ite
    | with_reducible apply only_ite2 | with_reducible apply only_issueOp
    | with_reducible apply only_modInst | refine only_snd (by assumption) ?_ | split | dsimp only
    | exact List.Subset.trans (by decide) hp | exact hp (by decide)

theorem only_upDecide {x q : Nat} {f : Furrow} {passed : List Nat} (hp : [.qos] ⊆ ps)
    (e : upDecide s x f passed = some (q, t)) (h : Only ps s₀ s) : Only ps s₀ t := by
  unfold upDecide at e
  dsimp only at e
  repeat' split at e
  all_goals first
    | (cases e; done)
    | (cases e; exact only_shaperCharge (List.Subset.trans (by decide) hp)
        (only_shaperCharge (List.Subset.trans (by decide) hp)
          (only_modPlotArb (List.Subset.trans (by decide) hp) h)))
    | (cases e; exact only_shaperCharge (List.Subset.trans (by decide) hp)
        (only_shaperCharge (List.Subset.trans (by decide) hp)
          (only_modPlotArb (List.Subset.trans (by decide) hp)
            (only_modGroupArb (List.Subset.trans (by decide) hp) h))))

theorem only_layLot {x : Nat} {f : Furrow} {q off n : Nat} (hp : [.us, .qos, .cry] ⊆ ps)
    (_hk : Only ps s₀ s) : Only ps s₀ (layLot x f q off n s).2 := by
  unfold layLot
  repeat' first
    | with_reducible assumption | with_reducible intro _ | with_reducible apply only_ite
    | with_reducible apply only_ite2 | with_reducible apply only_issueOp
    | with_reducible apply only_modUs | with_reducible apply only_modUsLane
    | refine only_snd (by assumption) ?_ | split | dsimp only
    | exact List.Subset.trans (by decide) hp | exact hp (by decide)

theorem only_fillBurst {x off r n : Nat} {f : Furrow} {first : Bool} {passed : List Nat}
    (hp : [.us, .sup, .qos, .cry, .pwr, .life, .win, .i3c, .reeve, .counters,
      .freeCtr] ⊆ ps) (h : Only ps s₀ s) : Only ps s₀ (fillBurst x f n off r first passed s).2 := by
  induction n generalizing off r first passed s with
  | zero => exact h
  | succ n ih =>
    unfold fillBurst
    dsimp only
    split
    · exact h
    · split
      · exact h
      · rename_i q s1 heq
        have h1 : Only ps s₀ s1 := by
          split at heq
          · split at heq <;> cases heq
            exact h
          · exact only_upDecide (List.Subset.trans (by decide) hp) heq h
        have h2 (a b : Nat) : Only ps s₀ (layLot x f q a b s1).2 :=
          only_layLot (List.Subset.trans (by decide) hp) h1
        have bu {c : CtrId} {k n : Nat} {u : State} (h : Only ps s₀ u) :
            Only ps s₀ (bump c k n u) := only_bump (List.Subset.trans (by decide) hp) h
        exact only_ite2 (ih (h2 _ _)) (only_ite2 (only_ite2
          (ih (bu (only_dropHead (List.Subset.trans (by decide) hp) h))) (ih (bu h)))
          (ih (h2 _ _)))

theorem only_cryptoNotes {x : Nat} {f : Furrow}
    (hp : [.us, .sup, .qos, .life, .win, .i3c, .reeve, .counters] ⊆ ps)
    (_hk : Only ps s₀ s) : Only ps s₀ (cryptoNotes x f s) := by
  unfold cryptoNotes
  repeat' first
    | with_reducible assumption | with_reducible intro _ | with_reducible apply only_ite
    | with_reducible apply only_bump | with_reducible apply only_each
    | with_reducible apply only_modUs | with_reducible apply only_raise
    | exact List.Subset.trans (by decide) hp

theorem only_addBurst {x : Nat} {b : Burst} (_hp : [.us] ⊆ ps)
    (_hk : Only ps s₀ s) : Only ps s₀ (addBurst x b s) := by
  unfold addBurst
  repeat' first
    | with_reducible assumption | with_reducible apply only_modUsLane
    | with_reducible apply only_numberUpTo

theorem only_windowBurst {x : Nat} {f : Furrow} {announce : Bool} {delay : Nat} {type : BitVec 8}
    {body : Bytes} (hp : [.us, .act, .cry] ⊆ ps)
    (_hk : Only ps s₀ s) : Only ps s₀ (windowBurst x f announce delay type body s) := by
  unfold windowBurst
  repeat' first
    | with_reducible assumption | with_reducible intro _ | with_reducible apply only_ite
    | with_reducible apply only_ite2 | with_reducible apply only_addBurst
    | with_reducible apply only_upMessage | refine only_snd (by assumption) ?_ | split | dsimp only
    | exact List.Subset.trans (by decide) hp | exact hp (by decide)

theorem only_announceSample {x : Nat} {f : Furrow}
    (hp : [.us, .act, .sup, .cry, .life, .win, .i3c, .reeve, .counters, .freeCtr] ⊆ ps)
    (_hk : Only ps s₀ s) : Only ps s₀ (announceSample x f s) := by
  unfold announceSample
  repeat' first
    | with_reducible assumption | with_reducible intro _ | with_reducible apply only_ite
    | with_reducible apply only_ite2 | with_reducible apply only_bump
    | with_reducible apply only_modInst | with_reducible apply only_rngDraw
    | with_reducible apply only_windowBurst | refine only_snd (by assumption) ?_ | split
    | dsimp only | exact List.Subset.trans (by decide) hp | exact hp (by decide)

theorem only_rangingSample {x : Nat} {f : Furrow}
    (hp : [.us, .act, .sup, .cry, .life, .win, .i3c, .reeve, .counters] ⊆ ps)
    (_hk : Only ps s₀ s) : Only ps s₀ (rangingSample x f s) := by
  unfold rangingSample
  repeat' first
    | with_reducible assumption | with_reducible intro _ | with_reducible apply only_ite
    | with_reducible apply only_ite2 | with_reducible apply only_bump
    | with_reducible apply only_windowBurst | refine only_snd (by assumption) ?_ | split
    | dsimp only | exact List.Subset.trans (by decide) hp | exact hp (by decide)

theorem only_mgmtLot {x off r : Nat} {f : Furrow} {l : TxLot} (hp : [.us, .act, .cry] ⊆ ps)
    (e : mgmtLot x f off r s = some (l, t)) (h : Only ps s₀ s) : Only ps s₀ t := by
  have mi {i : Nat} {f : Inst → Inst} {u : State} (h : Only ps s₀ u) : Only ps s₀ (modInst i f u) :=
    only_modInst (List.Subset.trans (by decide) hp) h
  have mu {i : Nat} {f : UsLane → UsLane} {u : State} (h : Only ps s₀ u) :
      Only ps s₀ (modUsLane i f u) := only_modUsLane (List.Subset.trans (by decide) hp) h
  have io {o : Sys2Proof.Machine.CryOp} {u : State} (h : Only ps s₀ u) :
      Only ps s₀ (issueOp o u).2 :=
    only_issueOp (List.Subset.trans (by decide) hp) h
  unfold mgmtLot at e
  dsimp only at e
  repeat' split at e
  all_goals first
    | (cases e; done)
    | (cases e; with_reducible exact mi h)
    | (cases e; with_reducible exact mu (io (mi h)))

theorem only_fragmentLots {x : Nat} {f : Furrow} {n off r : Nat} (hp : [.us, .qos, .cry] ⊆ ps)
    (h : Only ps s₀ s) : Only ps s₀ (fragmentLots x f n off r s).2 := by
  induction n generalizing off r s with
  | zero => exact h
  | succ n ih =>
    unfold fragmentLots
    split
    · exact h
    · exact only_ite2 h (ih (only_layLot (List.Subset.trans (by decide) hp) h))

theorem only_dataSample {x : Nat} {f : Furrow}
    (hp : [.us, .act, .sup, .qos, .cry, .pwr, .life, .win, .i3c, .reeve, .counters, .freeCtr] ⊆ ps)
    (_hk : Only ps s₀ s) : Only ps s₀ (dataSample x f s) := by
  unfold dataSample
  repeat' first
    | with_reducible assumption | with_reducible intro _ | with_reducible apply only_ite
    | with_reducible apply only_ite2 | with_reducible apply only_addBurst
    | with_reducible apply only_cryptoNotes | with_reducible apply only_fillBurst
    | with_reducible apply only_fragmentLots | with_reducible apply only_modInst
    | with_reducible apply only_upMessage | refine only_snd (by assumption) ?_
    | refine only_mgmtLot (List.Subset.trans (by decide) hp) (by assumption) ?_ | split
    | dsimp only | exact List.Subset.trans (by decide) hp | exact hp (by decide)

theorem only_setStage {x : Nat} {f : Furrow} {n : Nat} (_hp : [.us] ⊆ ps)
    (_hk : Only ps s₀ s) : Only ps s₀ (setStage x f n s) := by
  unfold setStage
  repeat' first
    | with_reducible assumption | with_reducible apply only_modUsLane

theorem only_startBurst {x : Nat} {b : Burst}
    (hp : [.us, .sup, .life, .win, .i3c, .reeve, .counters] ⊆ ps)
    (_hk : Only ps s₀ s) : Only ps s₀ (startBurst x b s) := by
  unfold startBurst
  repeat' first
    | with_reducible assumption | with_reducible apply only_ite | with_reducible apply only_bump
    | with_reducible apply only_modUsLane | split | dsimp only | with_reducible apply only_f_us
    | exact List.Subset.trans (by decide) hp | exact hp (by decide)

theorem only_skipFurrow {x : Nat} {f : Furrow}
    (hp : [.us, .sup, .qos, .ports, .pwr, .pair, .life, .win, .i3c, .reeve, .counters, .freeCtr] ⊆ ps)
    (_hk : Only ps s₀ s) : Only ps s₀ (skipFurrow x f s) := by
  unfold skipFurrow
  repeat' first
    | with_reducible assumption | with_reducible intro _ | with_reducible apply only_ite
    | with_reducible apply only_ite2 | with_reducible apply only_bump
    | with_reducible apply only_burstAccount | with_reducible apply only_modUsLane
    | with_reducible apply only_numberUpTo | refine only_snd (by assumption) ?_ | split
    | dsimp only | exact List.Subset.trans (by decide) hp | exact hp (by decide)

theorem only_wdTripLane {x : Nat}
    (hp : [.us, .sup, .qos, .ports, .pwr, .pair, .life, .win, .i3c, .reeve, .counters,
    .freeCtr] ⊆ ps)
    (_hk : Only ps s₀ s) : Only ps s₀ (wdTripLane x s) := by
  unfold wdTripLane
  repeat' first
    | with_reducible assumption | with_reducible apply only_benLow
    | with_reducible apply only_bump | with_reducible apply only_gateLook
    | with_reducible apply only_modUsLane | with_reducible apply only_raise
    | exact List.Subset.trans (by decide) hp

/-! Operations of `Activation`. -/

theorem only_queueMsg {i : Nat} {type : BitVec 8} {body : Bytes}
    (hp : [.act, .sup, .life, .win, .i3c, .reeve, .counters] ⊆ ps)
    (_hk : Only ps s₀ s) : Only ps s₀ (queueMsg i type body s) := by
  unfold queueMsg
  repeat' first
    | with_reducible assumption | with_reducible apply only_ite | with_reducible apply only_bump
    | with_reducible apply only_modInst | exact List.Subset.trans (by decide) hp

theorem only_queueAck {i : Nat} {type : Nat} {seq : BitVec 8} {result : Nat}
    (hp : [.act, .sup, .life, .win, .i3c, .reeve, .counters] ⊆ ps)
    (_hk : Only ps s₀ s) : Only ps s₀ (queueAck i type seq result s) := by
  unfold queueAck
  repeat' first
    | with_reducible assumption | with_reducible intro _ | with_reducible apply only_ite
    | with_reducible apply only_ite2 | with_reducible apply only_modInst
    | with_reducible apply only_queueMsg | refine only_snd (by assumption) ?_ | split | dsimp only
    | exact List.Subset.trans (by decide) hp | exact hp (by decide)

theorem only_msgDone {m : FieldMsg} {i : Nat} {ack : Bool} {r : Nat}
    (hp : [.act, .sup, .life, .win, .i3c, .reeve, .counters] ⊆ ps)
    (_hk : Only ps s₀ s) : Only ps s₀ (msgDone m i ack r s) := by
  unfold msgDone
  repeat' first
    | with_reducible assumption | with_reducible apply only_ite | with_reducible apply only_bump
    | with_reducible apply only_modInst | with_reducible apply only_queueAck
    | exact List.Subset.trans (by decide) hp

theorem only_acceptMsg {m : FieldMsg} {addr : Addressing} {p : ActState → Bool} {ack : Bool}
    {act : Nat → State → Option Nat × State} (hp : [.act, .sup, .life, .win, .i3c, .reeve, .counters] ⊆ ps)
    (hf : ∀ i s, Only ps s₀ s → Only ps s₀ (act i s).2) (h : Only ps s₀ s) :
    Only ps s₀ (acceptMsg m addr p ack act s) := by
  unfold acceptMsg
  repeat' first
    | with_reducible assumption | with_reducible intro _ | with_reducible apply only_ite
    | with_reducible apply only_ite2 | with_reducible apply only_bump
    | with_reducible apply only_msgDone | with_reducible apply only_queueMsg
    | refine only_snd (by assumption) ?_ | exact hf _ _ ‹_› | split | dsimp only
    | exact List.Subset.trans (by decide) hp | exact hp (by decide)

theorem only_actHeProfile {m : FieldMsg} {i : Nat}
    (hp : [.us, .act, .sup, .qos, .ports, .pwr, .pair, .life, .win, .i3c, .reeve, .counters,
    .freeCtr] ⊆ ps)
    (_hk : Only ps s₀ s) : Only ps s₀ (actHeProfile m i s).2 := by
  unfold actHeProfile
  repeat' first
    | with_reducible assumption | with_reducible apply only_ite2
    | with_reducible apply only_bump | with_reducible apply only_leaveFor
    | with_reducible apply only_modInst | with_reducible apply only_raise
    | with_reducible apply only_setAct | split | dsimp only
    | exact List.Subset.trans (by decide) hp

theorem only_addPlot {i p : Nat} (hp : [.act] ⊆ ps)
    (_hk : Only ps s₀ s) : Only ps s₀ (addPlot i p s) := by
  unfold addPlot
  repeat' first
    | with_reducible assumption | with_reducible apply only_ite | dsimp only
    | with_reducible apply only_f_act | exact hp (by decide)

theorem only_actAssignId {m : FieldMsg} {i : Nat}
    (hp : [.us, .act, .sup, .qos, .ports, .pwr, .pair, .life, .win, .i3c, .reeve, .counters,
    .freeCtr] ⊆ ps)
    (_hk : Only ps s₀ s) : Only ps s₀ (actAssignId m i s).2 := by
  unfold actAssignId
  repeat' first
    | with_reducible assumption | with_reducible apply only_ite | with_reducible apply only_ite2
    | with_reducible apply only_addPlot | with_reducible apply only_bump
    | with_reducible apply only_leaveFor | with_reducible apply only_modInst
    | with_reducible apply only_setAct | exact List.Subset.trans (by decide) hp

theorem only_actRangingTime {m : FieldMsg} {i : Nat} (hp : [.us, .act] ⊆ ps)
    (_hk : Only ps s₀ s) : Only ps s₀ (actRangingTime m i s).2 := by
  unfold actRangingTime
  repeat' first
    | with_reducible assumption | with_reducible intro _ | with_reducible apply only_ite
    | with_reducible apply only_ite2 | with_reducible apply only_leaveFor
    | with_reducible apply only_modUsLane | refine only_snd (by assumption) ?_ | split | dsimp only
    | exact List.Subset.trans (by decide) hp | exact hp (by decide)

theorem only_actAssignPlot {m : FieldMsg} {i : Nat}
    (hp : [.act, .win, .i3c, .reeve, .counters] ⊆ ps)
    (_hk : Only ps s₀ s) : Only ps s₀ (actAssignPlot m i s).2 := by
  unfold actAssignPlot
  repeat' first
    | with_reducible assumption | with_reducible apply only_ite2
    | with_reducible apply only_addPlot | with_reducible apply only_raise | dsimp only
    | with_reducible apply only_f_act | exact List.Subset.trans (by decide) hp
    | exact hp (by decide)

theorem only_actAssignLot {m : FieldMsg} {i : Nat}
    (hp : [.lots, .reasm, .sup, .qos, .cls, .pwr, .life, .win, .i3c, .reeve, .counters,
    .freeCtr] ⊆ ps)
    (_hk : Only ps s₀ s) : Only ps s₀ (actAssignLot m i s).2 := by
  unfold actAssignLot
  repeat' first
    | with_reducible assumption | with_reducible apply only_ite | with_reducible apply only_ite2
    | with_reducible apply only_raise | with_reducible apply only_removeLot
    | with_reducible apply only_supLook | with_reducible apply only_f_lots
    | exact List.Subset.trans (by decide) hp | exact hp (by decide)

theorem only_actSilence {m : FieldMsg} {i : Nat}
    (hp : [.us, .act, .sup, .qos, .ports, .pwr, .pair, .life, .win, .i3c, .reeve, .counters,
    .freeCtr] ⊆ ps)
    (_hk : Only ps s₀ s) : Only ps s₀ (actSilence m i s).2 := by
  unfold actSilence
  repeat' first
    | with_reducible assumption | with_reducible apply only_leaveFor
    | with_reducible apply only_modInst | with_reducible apply only_raise
    | with_reducible apply only_setAct | split | exact List.Subset.trans (by decide) hp

theorem only_endSilence {i : Nat} {msg : Option Nat}
    (hp : [.lots, .reasm, .us, .act, .sup, .qos, .ports, .pwr, .pair, .life, .win, .i3c, .reeve,
    .counters, .freeCtr] ⊆ ps)
    (_hk : Only ps s₀ s) : Only ps s₀ (endSilence i msg s) := by
  unfold endSilence
  repeat' first
    | with_reducible assumption | with_reducible apply only_ite
    | with_reducible apply only_actLost | with_reducible apply only_modInst
    | with_reducible apply only_setAct | with_reducible apply only_toListen
    | exact List.Subset.trans (by decide) hp

theorem only_tuneDone {i x : Nat} {result : Nat} {reverted : Bool}
    (_hp : [.act, .sup, .life, .win, .i3c, .reeve, .counters] ⊆ ps)
    (_hk : Only ps s₀ s) : Only ps s₀ (tuneDone i x result reverted s) := by
  unfold tuneDone
  repeat' first
    | with_reducible assumption | with_reducible apply only_queueMsg

theorem only_actTune {m : FieldMsg} {o : Optics} {i : Nat}
    (hp : [.us, .act, .sup, .qos, .ports, .pwr, .pair, .life, .win, .i3c, .reeve, .counters,
    .freeCtr] ⊆ ps)
    (_hk : Only ps s₀ s) : Only ps s₀ (actTune m o i s).2 := by
  unfold actTune
  repeat' first
    | with_reducible assumption | with_reducible apply only_ite2
    | with_reducible apply only_leaveFor | with_reducible apply only_modInst
    | with_reducible apply only_modUsLane | with_reducible apply only_setAct
    | with_reducible apply only_tuneDone | exact List.Subset.trans (by decide) hp

theorem only_leaveTuning {i : Nat} {ok : Bool}
    (hp : [.lots, .reasm, .us, .act, .sup, .qos, .ports, .pwr, .pair, .life, .win, .i3c, .reeve,
    .counters, .freeCtr] ⊆ ps)
    (_hk : Only ps s₀ s) : Only ps s₀ (leaveTuning i ok s) := by
  unfold leaveTuning
  repeat' first
    | with_reducible assumption | with_reducible apply only_ite
    | with_reducible apply only_actClear | with_reducible apply only_actLost
    | with_reducible apply only_modInst | with_reducible apply only_raise
    | with_reducible apply only_setAct | split | dsimp only
    | exact List.Subset.trans (by decide) hp

theorem only_tuneFails {i : Nat} {r : BitVec 8}
    (hp : [.lots, .reasm, .us, .act, .sup, .qos, .ports, .pwr, .pair, .life, .win, .i3c, .reeve,
    .counters, .freeCtr] ⊆ ps)
    (_hk : Only ps s₀ s) : Only ps s₀ (tuneFails i r s) := by
  unfold tuneFails
  repeat' first
    | with_reducible assumption | with_reducible apply only_ite
    | with_reducible apply only_leaveTuning | with_reducible apply only_modInst
    | with_reducible apply only_modUsLane | with_reducible apply only_raise
    | exact List.Subset.trans (by decide) hp

theorem only_doDue {i : Nat} {w : ActDue}
    (hp : [.us, .act, .sup, .qos, .ports, .pwr, .pair, .life, .win, .i3c, .reeve, .counters,
    .freeCtr] ⊆ ps)
    (_hk : Only ps s₀ s) : Only ps s₀ (doDue i w s) := by
  unfold doDue
  repeat' first
    | with_reducible assumption | with_reducible apply only_ite
    | with_reducible apply only_clearEqd | with_reducible apply only_gateLook
    | with_reducible apply only_modInst | with_reducible apply only_modUsLane
    | with_reducible apply only_setAct | split | exact List.Subset.trans (by decide) hp

theorem only_runTodo {g : Nat} {sc : BitVec 48} {i : Nat}
    (hp : [.us, .act, .sup, .qos, .ports, .pwr, .pair, .life, .win, .i3c, .reeve, .counters,
    .freeCtr] ⊆ ps)
    (_hk : Only ps s₀ s) : Only ps s₀ (runTodo g sc i s) := by
  unfold runTodo
  repeat' first
    | with_reducible assumption | with_reducible intro _ | with_reducible apply only_doDue
    | with_reducible apply only_each | with_reducible apply only_modInst
    | exact List.Subset.trans (by decide) hp

/-! Operations of `LifeOps`. -/

theorem only_accrue  (hp : [.life] ⊆ ps)
    (_hk : Only ps s₀ s) : Only ps s₀ (accrue s) := by
  unfold accrue
  repeat' first
    | with_reducible assumption | split | dsimp only | with_reducible apply only_f_life
    | exact hp (by decide)

theorem only_checkpoint {gasp : Bool} (hp : [.life] ⊆ ps)
    (_hk : Only ps s₀ s) : Only ps s₀ (checkpoint gasp s) := by
  unfold checkpoint
  repeat' first
    | with_reducible assumption | with_reducible intro _ | with_reducible apply only_ite
    | with_reducible apply only_ite2 | with_reducible apply only_accrue
    | refine only_snd (by assumption) ?_ | split | dsimp only | with_reducible apply only_f_life
    | exact List.Subset.trans (by decide) hp | exact hp (by decide)

theorem only_storeDay {b : Bin} (hp : [.life] ⊆ ps)
    (_hk : Only ps s₀ s) : Only ps s₀ (storeDay b s) := by
  unfold storeDay
  repeat' first
    | with_reducible assumption | with_reducible intro _ | with_reducible apply only_ite
    | with_reducible apply only_ite2 | refine only_snd (by assumption) ?_ | split | dsimp only
    | with_reducible apply only_f_life | exact List.Subset.trans (by decide) hp
    | exact hp (by decide)

theorem only_storeGap {b : Bytes} (hp : [.life] ⊆ ps)
    (_hk : Only ps s₀ s) : Only ps s₀ (storeGap b s) := by
  unfold storeGap
  repeat' first
    | with_reducible assumption | with_reducible intro _ | with_reducible apply only_ite
    | with_reducible apply only_ite2 | refine only_snd (by assumption) ?_ | split | dsimp only
    | with_reducible apply only_f_life | exact List.Subset.trans (by decide) hp
    | exact hp (by decide)

theorem only_closeBin {day part step newPart : Bool} {tail : Nat} {s0 : State} (hp : [.sup, .life] ⊆
    ps)
    (_hk : Only ps s₀ s) : Only ps s₀ (closeBin day part step newPart s0 tail s) := by
  unfold closeBin
  repeat' first
    | with_reducible assumption | with_reducible intro _ | with_reducible apply only_ite
    | with_reducible apply only_ite2 | with_reducible apply only_checkpoint
    | with_reducible apply only_storeDay | refine only_snd (by assumption) ?_ | split | dsimp only
    | with_reducible apply only_f_sup | exact List.Subset.trans (by decide) hp
    | exact hp (by decide)

theorem only_binsLook  (hp : [.sup, .life] ⊆ ps)
    (_hk : Only ps s₀ s) : Only ps s₀ (binsLook s) := by
  unfold binsLook
  repeat' first
    | with_reducible assumption | with_reducible intro _ | with_reducible apply only_ite
    | with_reducible apply only_ite2 | with_reducible apply only_closeBin
    | refine only_snd (by assumption) ?_ | split | dsimp only | with_reducible apply only_f_sup
    | exact List.Subset.trans (by decide) hp | exact hp (by decide)

theorem only_binsStep {s0 : State} (hp : [.sup, .life] ⊆ ps)
    (_hk : Only ps s₀ s) : Only ps s₀ (binsStep s0 s) := by
  unfold binsStep
  repeat' first
    | with_reducible assumption | with_reducible intro _ | with_reducible apply only_ite
    | with_reducible apply only_ite2 | with_reducible apply only_closeBin
    | refine only_snd (by assumption) ?_ | split | dsimp only | with_reducible apply only_f_sup
    | exact List.Subset.trans (by decide) hp | exact hp (by decide)

theorem only_calendarResume {v : Int} (hp : [.life] ⊆ ps)
    (_hk : Only ps s₀ s) : Only ps s₀ (calendarResume v s) := by
  unfold calendarResume
  repeat' first
    | with_reducible assumption | with_reducible apply only_storeGap | split | dsimp only
    | with_reducible apply only_f_life | exact hp (by decide)

theorem only_calendarLook  (_hp : [.life] ⊆ ps)
    (_hk : Only ps s₀ s) : Only ps s₀ (calendarLook s) := by
  unfold calendarLook
  repeat' first
    | with_reducible assumption | with_reducible apply only_ite
    | with_reducible apply only_calendarResume | split

/-! Operations of `Servo`. -/

theorem only_setOffset {o : Int} (hp : [.time] ⊆ ps)
    (_hk : Only ps s₀ s) : Only ps s₀ (setOffset o s) := by
  unfold setOffset
  repeat' first
    | with_reducible assumption | dsimp only | with_reducible apply only_f_time
    | exact hp (by decide)

theorem only_outStepped  (hp : [.time, .win, .i3c, .reeve, .counters] ⊆ ps)
    (_hk : Only ps s₀ s) : Only ps s₀ (outStepped s) := by
  unfold outStepped
  repeat' first
    | with_reducible assumption | with_reducible apply only_raise | dsimp only
    | with_reducible apply only_f_time | exact List.Subset.trans (by decide) hp
    | exact hp (by decide)

theorem only_outTake  (hp : [.time, .win, .i3c, .reeve, .counters] ⊆ ps)
    (_hk : Only ps s₀ s) : Only ps s₀ (outTake s) := by
  unfold outTake
  repeat' first
    | with_reducible assumption | with_reducible apply only_outStepped
    | with_reducible apply only_setOffset | dsimp only | with_reducible apply only_f_time
    | exact List.Subset.trans (by decide) hp | exact hp (by decide)

theorem only_outFollow {out : Option Int} (hp : [.time] ⊆ ps)
    (_hk : Only ps s₀ s) : Only ps s₀ (outFollow out s) := by
  unfold outFollow
  repeat' first
    | with_reducible assumption | with_reducible apply only_setOffset | split | dsimp only
    | with_reducible apply only_f_time | exact hp (by decide)

theorem only_outRunOn {out : Option Int} {y : Int} (hp : [.time] ⊆ ps)
    (_hk : Only ps s₀ s) : Only ps s₀ (outRunOn out y s) := by
  unfold outRunOn
  repeat' first
    | with_reducible assumption | with_reducible apply only_setOffset | split | dsimp only
    | with_reducible apply only_f_time | exact hp (by decide)

theorem only_timeLook  (hp : [.sup, .life] ⊆ ps)
    (_hk : Only ps s₀ s) : Only ps s₀ (timeLook s) := by
  unfold timeLook
  repeat' first
    | with_reducible assumption | with_reducible apply only_binsLook
    | with_reducible apply only_calendarLook | exact List.Subset.trans (by decide) hp

theorem only_selectDomain {d : Nat} {step : Bool}
    (hp : [.sup, .time, .life, .win, .i3c, .reeve, .counters] ⊆ ps)
    (_hk : Only ps s₀ s) : Only ps s₀ (selectDomain d step s) := by
  unfold selectDomain
  repeat' first
    | with_reducible assumption | with_reducible intro _ | with_reducible apply only_ite
    | with_reducible apply only_ite2 | with_reducible apply only_binsStep
    | with_reducible apply only_outFollow | with_reducible apply only_outRunOn
    | with_reducible apply only_outTake | with_reducible apply only_raise
    | with_reducible apply only_timeLook | refine only_snd (by assumption) ?_ | split | dsimp only
    | with_reducible apply only_f_time | exact List.Subset.trans (by decide) hp
    | exact hp (by decide)

theorem only_autoSelect  (_hp : [.sup, .time, .life, .win, .i3c, .reeve, .counters] ⊆ ps)
    (_hk : Only ps s₀ s) : Only ps s₀ (autoSelect s) := by
  unfold autoSelect
  repeat' first
    | with_reducible assumption | with_reducible apply only_ite
    | with_reducible apply only_selectDomain

theorem only_setServo {d : Nat} {dest : ServoState} (hp : [.time, .win, .i3c, .reeve, .counters] ⊆ ps)
    (_hk : Only ps s₀ s) : Only ps s₀ (setServo d dest s) := by
  unfold setServo
  repeat' first
    | with_reducible assumption | with_reducible apply only_ite
    | with_reducible apply only_modDom | with_reducible apply only_raise
    | exact List.Subset.trans (by decide) hp

theorem only_outJump {d : Nat} {delta : Int} (_hp : [.time] ⊆ ps)
    (_hk : Only ps s₀ s) : Only ps s₀ (outJump d delta s) := by
  unfold outJump
  repeat' first
    | with_reducible assumption | with_reducible apply only_ite
    | with_reducible apply only_setOffset

theorem only_domStep {d : Nat} {e : Int}
    (hp : [.sup, .time, .life, .win, .i3c, .reeve, .counters] ⊆ ps)
    (_hk : Only ps s₀ s) : Only ps s₀ (domStep d e s) := by
  unfold domStep
  repeat' first
    | with_reducible assumption | with_reducible apply only_bump
    | with_reducible apply only_modDom | with_reducible apply only_outJump
    | exact List.Subset.trans (by decide) hp

theorem only_leaveFreerun {d : Nat} {a : BitVec 64} {tod : Int}
    (hp : [.sup, .time, .life, .win, .i3c, .reeve, .counters] ⊆ ps)
    (_hk : Only ps s₀ s) : Only ps s₀ (leaveFreerun d a tod s) := by
  unfold leaveFreerun
  repeat' first
    | with_reducible assumption | with_reducible intro _ | with_reducible apply only_ite
    | with_reducible apply only_ite2 | with_reducible apply only_binsStep
    | with_reducible apply only_modDom | with_reducible apply only_outFollow
    | with_reducible apply only_outTake | with_reducible apply only_setOffset
    | with_reducible apply only_setServo | refine only_snd (by assumption) ?_ | split | dsimp only
    | exact List.Subset.trans (by decide) hp | exact hp (by decide)

theorem only_servoUpdate {d : Nat} {e : Int} {interval : Nat} (hp : [.time] ⊆ ps)
    (_hk : Only ps s₀ s) : Only ps s₀ (servoUpdate d e interval s) := by
  unfold servoUpdate
  repeat' first
    | with_reducible assumption | with_reducible intro _ | with_reducible apply only_ite
    | with_reducible apply only_ite2 | with_reducible apply only_modDom
    | refine only_snd (by assumption) ?_ | split | dsimp only
    | exact List.Subset.trans (by decide) hp | exact hp (by decide)

theorem only_servoRecord {d : Nat} {a : BitVec 64} {tod : Int} {interval : Nat}
    (hp : [.sup, .time, .life, .win, .i3c, .reeve, .counters] ⊆ ps)
    (_hk : Only ps s₀ s) : Only ps s₀ (servoRecord d a tod interval s) := by
  unfold servoRecord
  repeat' first
    | with_reducible assumption | with_reducible intro _ | with_reducible apply only_ite
    | with_reducible apply only_ite2 | with_reducible apply only_autoSelect
    | with_reducible apply only_domStep | with_reducible apply only_leaveFreerun
    | with_reducible apply only_modDom | with_reducible apply only_servoUpdate
    | with_reducible apply only_setServo | with_reducible apply only_timeLook
    | refine only_snd (by assumption) ?_ | split | dsimp only
    | exact List.Subset.trans (by decide) hp | exact hp (by decide)

theorem only_servoLose {d : Nat} (hp : [.sup, .time, .life, .win, .i3c, .reeve, .counters] ⊆ ps)
    (_hk : Only ps s₀ s) : Only ps s₀ (servoLose d s) := by
  unfold servoLose
  repeat' first
    | with_reducible assumption | with_reducible apply only_autoSelect
    | with_reducible apply only_modDom | with_reducible apply only_setServo
    | with_reducible apply only_timeLook | split | dsimp only
    | exact List.Subset.trans (by decide) hp

theorem only_domEnable {d : Nat} (hp : [.sup, .time, .win, .i3c, .reeve, .counters] ⊆ ps)
    (_hk : Only ps s₀ s) : Only ps s₀ (domEnable d s) := by
  unfold domEnable
  repeat' first
    | with_reducible assumption | with_reducible apply only_modSupDom
    | with_reducible apply only_setDomDefect | with_reducible apply only_setServo
    | exact List.Subset.trans (by decide) hp

theorem only_domDisable {d : Nat} (hp : [.sup, .time, .life, .win, .i3c, .reeve, .counters] ⊆ ps)
    (_hk : Only ps s₀ s) : Only ps s₀ (domDisable d s) := by
  unfold domDisable
  repeat' first
    | with_reducible assumption | with_reducible apply only_ite
    | with_reducible apply only_autoSelect | with_reducible apply only_modDom
    | with_reducible apply only_modSupDom | with_reducible apply only_outRunOn
    | with_reducible apply only_setServo | with_reducible apply only_supLook
    | with_reducible apply only_timeLook | exact List.Subset.trans (by decide) hp

/-! Operations of `Time`. -/

theorem only_putFit {d : Nat} {f : Fit} (hp : [.time, .win, .i3c, .reeve, .counters] ⊆ ps)
    (_hk : Only ps s₀ s) : Only ps s₀ (putFit d f s) := by
  unfold putFit
  repeat' first
    | with_reducible assumption | with_reducible apply only_ite
    | with_reducible apply only_raise | dsimp only | with_reducible apply only_f_time
    | exact List.Subset.trans (by decide) hp | exact hp (by decide)

theorem only_fitLook {d : Nat} {window : Option (List FitMean × BitVec 48)} (hp : [.time, .win,
    .i3c, .reeve, .counters] ⊆ ps)
    (_hk : Only ps s₀ s) : Only ps s₀ (fitLook d window s) := by
  unfold fitLook
  repeat' first
    | with_reducible assumption | with_reducible intro _ | with_reducible apply only_ite
    | with_reducible apply only_ite2 | with_reducible apply only_putFit
    | refine only_snd (by assumption) ?_ | split | dsimp only
    | exact List.Subset.trans (by decide) hp | exact hp (by decide)

theorem only_fitAccumulate {g : Nat} {sc : BitVec 48} (hp : [.time] ⊆ ps)
    (_hk : Only ps s₀ s) : Only ps s₀ (fitAccumulate g sc s) := by
  unfold fitAccumulate
  repeat' first
    | with_reducible assumption | with_reducible intro _ | with_reducible apply only_ite
    | with_reducible apply only_ite2 | with_reducible apply only_each
    | refine only_snd (by assumption) ?_ | split | dsimp only | with_reducible apply only_f_time
    | exact List.Subset.trans (by decide) hp | exact hp (by decide)

theorem only_sowAccepted {d : Nat} (hp : [.sup, .life, .win, .i3c, .reeve, .counters] ⊆ ps)
    (_hk : Only ps s₀ s) : Only ps s₀ (sowAccepted d s) := by
  unfold sowAccepted
  repeat' first
    | with_reducible assumption | with_reducible apply only_ite | with_reducible apply only_bump
    | with_reducible apply only_modSupDom | with_reducible apply only_setDomDefect
    | exact List.Subset.trans (by decide) hp

theorem only_sowUse {m : FieldMsg} {d : Nat} {free : Bool}
    (hp : [.sup, .time, .life, .win, .i3c, .reeve, .counters, .freeCtr] ⊆ ps)
    (_hk : Only ps s₀ s) : Only ps s₀ (sowUse m d free s) := by
  unfold sowUse
  repeat' first
    | with_reducible assumption | with_reducible apply only_bump
    | with_reducible apply only_fitLook | with_reducible apply only_modDom
    | with_reducible apply only_servoRecord | split | dsimp only
    | with_reducible apply only_f_time | exact List.Subset.trans (by decide) hp
    | exact hp (by decide)

theorem only_sowDomain {m : FieldMsg} {d : Nat}
    (hp : [.sup, .time, .life, .win, .i3c, .reeve, .counters, .freeCtr] ⊆ ps)
    (_hk : Only ps s₀ s) : Only ps s₀ (sowDomain m d s).2 := by
  unfold sowDomain
  repeat' first
    | with_reducible assumption | with_reducible intro _ | with_reducible apply only_ite
    | with_reducible apply only_ite2 | with_reducible apply only_bump
    | with_reducible apply only_modSupDom | with_reducible apply only_servoLose
    | with_reducible apply only_setDomDefect | with_reducible apply only_sowAccepted
    | with_reducible apply only_sowUse | refine only_snd (by assumption) ?_ | split | dsimp only
    | exact List.Subset.trans (by decide) hp | exact hp (by decide)

theorem only_actSow {m : FieldMsg} {i : Nat}
    (hp : [.sup, .time, .life, .win, .i3c, .reeve, .counters, .freeCtr] ⊆ ps)
    (_hk : Only ps s₀ s) : Only ps s₀ (actSow m i s).2 := by
  unfold actSow
  repeat' first
    | with_reducible assumption | with_reducible intro _ | with_reducible apply only_ite2
    | with_reducible apply only_bump | with_reducible apply only_sowDomain
    | with_reducible apply only_foldl | exact List.Subset.trans (by decide) hp

/-! Operations of `Boundary`. -/

theorem only_rejoinLanes {g : Nat} {sc : BitVec 48}
    (hp : [.lanes, .win, .i3c, .reeve, .counters] ⊆ ps)
    (_hk : Only ps s₀ s) : Only ps s₀ (rejoinLanes g sc s) := by
  unfold rejoinLanes
  repeat' first
    | with_reducible assumption | with_reducible intro _ | with_reducible apply only_ite
    | with_reducible apply only_ite2 | with_reducible apply only_each
    | with_reducible apply only_includeLane | refine only_snd (by assumption) ?_ | split
    | dsimp only | exact List.Subset.trans (by decide) hp | exact hp (by decide)

theorem only_recordPrimary {g : Nat} {sc : BitVec 48}
    (hp : [.lanes, .groups, .sup, .life, .win, .i3c, .reeve, .counters] ⊆ ps)
    (_hk : Only ps s₀ s) : Only ps s₀ (recordPrimary g sc s) := by
  unfold recordPrimary
  repeat' first
    | with_reducible assumption | with_reducible intro _ | with_reducible apply only_ite
    | with_reducible apply only_ite2 | with_reducible apply only_bump
    | with_reducible apply only_modGroup | with_reducible apply only_priConflict
    | refine only_snd (by assumption) ?_ | split | dsimp only
    | exact List.Subset.trans (by decide) hp | exact hp (by decide)

theorem only_reasmBoundary {g : Nat} (hp : [.groups, .reasm] ⊆ ps)
    (_hk : Only ps s₀ s) : Only ps s₀ (reasmBoundary g s) := by
  unfold reasmBoundary
  repeat' first
    | with_reducible assumption | with_reducible intro _ | with_reducible apply only_ite
    | with_reducible apply only_ite2 | with_reducible apply only_modGroup
    | refine only_snd (by assumption) ?_ | split | dsimp only | with_reducible apply only_f_reasm
    | exact List.Subset.trans (by decide) hp | exact hp (by decide)

theorem only_foldEqd {i : Nat} {sc : BitVec 48} (hp : [.us] ⊆ ps)
    (_hk : Only ps s₀ s) : Only ps s₀ (foldEqd i sc s) := by
  unfold foldEqd
  repeat' first
    | with_reducible assumption | with_reducible intro _ | with_reducible apply only_ite
    | with_reducible apply only_ite2 | with_reducible apply only_each
    | with_reducible apply only_modUsLane | refine only_snd (by assumption) ?_ | split | dsimp only
    | exact List.Subset.trans (by decide) hp | exact hp (by decide)

theorem only_tagForm {i : Nat} (hp : [.act] ⊆ ps)
    (_hk : Only ps s₀ s) : Only ps s₀ (tagForm i s) := by
  unfold tagForm
  repeat' first
    | with_reducible assumption | with_reducible intro _ | with_reducible apply only_ite
    | with_reducible apply only_ite2 | with_reducible apply only_modInst
    | refine only_snd (by assumption) ?_ | split | dsimp only
    | exact List.Subset.trans (by decide) hp | exact hp (by decide)

theorem only_dropPartSent 
    (hp : [.us, .sup, .qos, .pwr, .life, .win, .i3c, .reeve, .counters, .freeCtr] ⊆ ps)
    (_hk : Only ps s₀ s) : Only ps s₀ (dropPartSent s) := by
  unfold dropPartSent
  repeat' first
    | with_reducible assumption | with_reducible intro _ | with_reducible apply only_ite
    | with_reducible apply only_bump | with_reducible apply only_dropHead
    | with_reducible apply only_each | split | exact List.Subset.trans (by decide) hp

theorem only_switchParent {t : Nat}
    (hp : [.clk, .lots, .reasm, .us, .act, .sup, .time, .qos, .ports, .pwr, .pair, .life, .win,
    .i3c, .reeve, .counters, .freeCtr] ⊆ ps)
    (_hk : Only ps s₀ s) : Only ps s₀ (switchParent t s) := by
  unfold switchParent
  repeat' first
    | with_reducible assumption | with_reducible apply only_bump
    | with_reducible apply only_dropPartSent | with_reducible apply only_lockLook
    | with_reducible apply only_raise | with_reducible apply only_selectDomain
    | with_reducible apply only_supLook | dsimp only | with_reducible apply only_f_act
    | exact List.Subset.trans (by decide) hp | exact hp (by decide)

theorem only_boundaryOps {g : Nat} {sc : BitVec 48}
    (hp : [.clk, .lanes, .groups, .lots, .reasm, .us, .act, .sup, .time, .qos, .ports, .pwr,
    .pair, .life, .win, .i3c, .reeve, .counters, .freeCtr] ⊆ ps) (hk : Only ps s₀ s) :
    Only ps s₀ (boundaryOps g sc s) := by
  unfold boundaryOps
  dsimp only
  have h1 : Only ps s₀ (recordPrimary g sc s) :=
    only_recordPrimary (List.Subset.trans (by decide) hp) hk
  generalize recordPrimary g sc s = s1 at h1 ⊢
  have h2 : Only ps s₀ (modGroup g
      (fun y => { y with boundary := some (sc, boundaryTime s1 g sc) }) s1) :=
    only_modGroup (List.Subset.trans (by decide) hp) h1
  generalize modGroup g (fun y => { y with boundary := some (sc, boundaryTime s1 g sc) }) s1 = s2
    at h2 ⊢
  have h4 : Only ps s₀ (fitAccumulate g sc (foldEqd (groupOwner s2 g) sc
      (runTodo g sc (groupOwner s2 g) (tagForm (groupOwner s2 g) (reasmBoundary g s2))))) :=
    only_fitAccumulate (List.Subset.trans (by decide) hp)
      (only_foldEqd (List.Subset.trans (by decide) hp)
        (only_runTodo (List.Subset.trans (by decide) hp)
          (only_tagForm (List.Subset.trans (by decide) hp)
            (only_reasmBoundary (List.Subset.trans (by decide) hp) h2))))
  generalize fitAccumulate g sc (foldEqd (groupOwner s2 g) sc
      (runTodo g sc (groupOwner s2 g) (tagForm (groupOwner s2 g) (reasmBoundary g s2)))) = s4 at h4 ⊢
  refine only_refLook (List.Subset.trans (by decide) hp) ?_
  split
  · exact only_ite (only_switchParent (List.Subset.trans (by decide) hp) h4) h4
  · exact h4

end Sys2Proof.Machine
end

