-- ==== Sys2Proof/Laws/OnlyPkt.lean ====
section
/-! SUPPORT. Which parts each operation writes (`Only`): ports, PTP, the classifier, tines, keys. -/
-- One list of alternatives serves every lemma below; not every lemma uses each of them.
set_option linter.unusedTactic false
set_option linter.unreachableTactic false
namespace Sys2Proof.Machine
variable {ps : List Part} {s₀ s t : State}

/-! Operations of `Pmc`. -/

theorem only_putThread {h t n : Nat} {x : Thread} (hp : [.tine] ⊆ ps)
    (_hk : Only ps s₀ s) : Only ps s₀ (putThread h t n x s) := by
  unfold putThread
  repeat' first
    | with_reducible assumption | dsimp only | with_reducible apply only_f_tine
    | exact hp (by decide)

theorem only_modThread {h t n : Nat} {f : Thread → Thread} (_hp : [.tine] ⊆ ps)
    (_hk : Only ps s₀ s) : Only ps s₀ (modThread h t n f s) := by
  unfold modThread
  repeat' first
    | with_reducible assumption | with_reducible apply only_putThread

theorem only_modPmc {h t : Nat} {f : Pmc → Pmc} (hp : [.tine] ⊆ ps)
    (_hk : Only ps s₀ s) : Only ps s₀ (modPmc h t f s) := by
  unfold modPmc
  repeat' first
    | with_reducible assumption | dsimp only | with_reducible apply only_f_tine
    | exact hp (by decide)

theorem only_pmcWrap {h t : Nat} {mask : BitVec 6}
    (hp : [.tine, .win, .i3c, .reeve, .counters] ⊆ ps)
    (_hk : Only ps s₀ s) : Only ps s₀ (pmcWrap h t mask s) := by
  unfold pmcWrap
  repeat' first
    | with_reducible assumption | with_reducible apply only_ite
    | with_reducible apply only_modPmc | with_reducible apply only_raise
    | exact List.Subset.trans (by decide) hp

theorem only_pmcCycle {h t : Nat} {issue : Option (Nat × List Nat)} (hp : [.tine, .win, .i3c,
    .reeve, .counters] ⊆ ps)
    (_hk : Only ps s₀ s) : Only ps s₀ (pmcCycle h t issue s) := by
  unfold pmcCycle
  repeat' first
    | with_reducible assumption | with_reducible intro _ | with_reducible apply only_ite
    | with_reducible apply only_ite2 | with_reducible apply only_modPmc
    | with_reducible apply only_pmcWrap | refine only_snd (by assumption) ?_ | split | dsimp only
    | exact List.Subset.trans (by decide) hp | exact hp (by decide)

theorem only_stallCycle {h t : Nat} (_hp : [.tine] ⊆ ps)
    (_hk : Only ps s₀ s) : Only ps s₀ (stallCycle h t s) := by
  unfold stallCycle
  repeat' first
    | with_reducible assumption | with_reducible intro _ | with_reducible apply only_ite
    | with_reducible apply only_each | with_reducible apply only_modThread

theorem only_tineCycle {h t : Nat} {issue : Option (Nat × List Nat)}
    (hp : [.tine, .win, .i3c, .reeve, .counters] ⊆ ps)
    (_hk : Only ps s₀ s) : Only ps s₀ (tineCycle h t issue s) := by
  unfold tineCycle
  repeat' first
    | with_reducible assumption | with_reducible intro _ | with_reducible apply only_ite
    | with_reducible apply only_ite2 | with_reducible apply only_pmcCycle
    | with_reducible apply only_stallCycle | refine only_snd (by assumption) ?_ | split
    | dsimp only | exact List.Subset.trans (by decide) hp | exact hp (by decide)

theorem only_issueCycle {h t n : Nat} {events : List Nat}
    (hp : [.tine, .win, .i3c, .reeve, .counters] ⊆ ps)
    (_hk : Only ps s₀ s) : Only ps s₀ (issueCycle h t n events s) := by
  unfold issueCycle
  repeat' first
    | with_reducible assumption | with_reducible intro _ | with_reducible apply only_ite
    | with_reducible apply only_ite2 | with_reducible apply only_modPmc
    | with_reducible apply only_tineCycle | refine only_snd (by assumption) ?_ | split | dsimp only
    | exact List.Subset.trans (by decide) hp | exact hp (by decide)

theorem only_pmcInstant {h t n e : Nat} (hp : [.tine, .win, .i3c, .reeve, .counters] ⊆ ps)
    (_hk : Only ps s₀ s) : Only ps s₀ (pmcInstant h t n e s) := by
  unfold pmcInstant
  repeat' first
    | with_reducible assumption | with_reducible intro _ | with_reducible apply only_ite
    | with_reducible apply only_each | with_reducible apply only_modPmc
    | with_reducible apply only_pmcWrap | exact List.Subset.trans (by decide) hp

theorem only_coulterStall  (hp : [.sup, .life, .win, .i3c, .reeve, .counters] ⊆ ps)
    (_hk : Only ps s₀ s) : Only ps s₀ (coulterStall s) := by
  unfold coulterStall
  repeat' first
    | with_reducible assumption | with_reducible intro _ | with_reducible apply only_ite
    | with_reducible apply only_ite2 | with_reducible apply only_bump
    | refine only_snd (by assumption) ?_ | split | dsimp only
    | exact List.Subset.trans (by decide) hp | exact hp (by decide)

theorem only_coreCycle  (hp : [.sup, .tine, .life, .win, .i3c, .reeve, .counters] ⊆ ps)
    (_hk : Only ps s₀ s) : Only ps s₀ (coreCycle s) := by
  unfold coreCycle
  repeat' first
    | with_reducible assumption | with_reducible intro _ | with_reducible apply only_ite
    | with_reducible apply only_ite2 | with_reducible apply only_each
    | with_reducible apply only_coulterStall | with_reducible apply only_tineCycle
    | refine only_snd (by assumption) ?_ | split | dsimp only | with_reducible apply only_f_tine
    | exact List.Subset.trans (by decide) hp | exact hp (by decide)

theorem only_modSamp {h : Nat} {f : Samp → Samp} (hp : [.tine] ⊆ ps)
    (_hk : Only ps s₀ s) : Only ps s₀ (modSamp h f s) := by
  unfold modSamp
  repeat' first
    | with_reducible assumption | dsimp only | with_reducible apply only_f_tine
    | exact hp (by decide)

theorem only_drawCountdown {h t : Nat} (hp : [.tine, .freeCtr] ⊆ ps)
    (_hk : Only ps s₀ s) : Only ps s₀ (drawCountdown h t s) := by
  unfold drawCountdown
  repeat' first
    | with_reducible assumption | with_reducible apply only_drawn
    | with_reducible apply only_modSamp | exact List.Subset.trans (by decide) hp

theorem only_countdownZero {h t : Nat}
    (hp : [.sup, .tine, .life, .win, .i3c, .reeve, .counters, .freeCtr] ⊆ ps)
    (_hk : Only ps s₀ s) : Only ps s₀ (countdownZero h t s) := by
  unfold countdownZero
  repeat' first
    | with_reducible assumption | with_reducible apply only_ite | with_reducible apply only_bump
    | with_reducible apply only_drawCountdown | with_reducible apply only_modSamp
    | exact List.Subset.trans (by decide) hp

theorem only_sampIssue {h t n op : Nat}
    (hp : [.sup, .tine, .life, .win, .i3c, .reeve, .counters, .freeCtr] ⊆ ps)
    (_hk : Only ps s₀ s) : Only ps s₀ (sampIssue h t n op s).2 := by
  unfold sampIssue
  repeat' first
    | with_reducible assumption | with_reducible apply only_ite | with_reducible apply only_ite2
    | with_reducible apply only_countdownZero | with_reducible apply only_drawCountdown
    | with_reducible apply only_modSamp | exact List.Subset.trans (by decide) hp

theorem only_sampFullLook {h : Nat} (hp : [.tine, .win, .i3c, .reeve, .counters] ⊆ ps)
    (_hk : Only ps s₀ s) : Only ps s₀ (sampFullLook h s) := by
  unfold sampFullLook
  repeat' first
    | with_reducible assumption | with_reducible intro _ | with_reducible apply only_ite
    | with_reducible apply only_ite2 | with_reducible apply only_modSamp
    | with_reducible apply only_raise | refine only_snd (by assumption) ?_ | split | dsimp only
    | exact List.Subset.trans (by decide) hp | exact hp (by decide)

theorem only_sampRecord {h t n prog : Nat} {g : Tagged} {taken faulted ended service : Bool}
    {cost : Option Nat} (hp : [.sup, .tine, .life, .win, .i3c, .reeve, .counters, .freeCtr] ⊆ ps)
    (_hk : Only ps s₀ s) :
      Only ps s₀ (sampRecord h t n prog g taken faulted ended service cost s) := by
  unfold sampRecord
  repeat' first
    | with_reducible assumption | with_reducible intro _ | with_reducible apply only_ite
    | with_reducible apply only_ite2 | with_reducible apply only_bump
    | with_reducible apply only_drawn | with_reducible apply only_modSamp
    | with_reducible apply only_raise | with_reducible apply only_sampFullLook
    | refine only_snd (by assumption) ?_ | split | dsimp only
    | exact List.Subset.trans (by decide) hp | exact hp (by decide)

/-! Operations of `Coulter`. -/

theorem only_countWalk {stop : Nat} {vec : BitVec 64}
    (_hp : [.sup, .life, .win, .i3c, .reeve, .counters] ⊆ ps)
    (_hk : Only ps s₀ s) : Only ps s₀ (countWalk stop vec s) := by
  unfold countWalk
  repeat' first
    | with_reducible assumption | with_reducible intro _ | with_reducible apply only_ite
    | with_reducible apply only_bump | with_reducible apply only_each | split

/-! Operations of `PtpOps`. -/

theorem only_claimFrame {p : Nat} {b : Bytes} {capture : BitVec 64}
    (hp : [.sup, .ports, .life, .win, .i3c, .reeve, .counters] ⊆ ps)
    (e : claimFrame p b capture s = some t) (h : Only ps s₀ s) : Only ps s₀ t := by
  have mp {i : Nat} {f : Port → Port} {u : State} (h : Only ps s₀ u) : Only ps s₀ (modPort i f u) :=
    only_modPort (List.Subset.trans (by decide) hp) h
  have bu {c : CtrId} {k n : Nat} {u : State} (h : Only ps s₀ u) : Only ps s₀ (bump c k n u) :=
    only_bump (List.Subset.trans (by decide) hp) h
  unfold claimFrame at e
  dsimp only at e
  repeat' split at e
  all_goals first
    | (cases e; done)
    | (cases e; with_reducible exact mp h)
    | (cases e; with_reducible exact bu h)

theorem only_pointDistance {p : Nat} (hp : [.freeCtr] ⊆ ps)
    (_hk : Only ps s₀ s) : Only ps s₀ (pointDistance s p).2 := by
  unfold pointDistance
  repeat' first
    | with_reducible assumption | with_reducible intro _ | with_reducible apply only_ite
    | with_reducible apply only_ite2 | with_reducible apply only_drawn
    | refine only_snd (by assumption) ?_ | split | dsimp only
    | exact List.Subset.trans (by decide) hp | exact hp (by decide)

theorem only_takeStamp {p : Nat} {src : Option Nat} {t : BitVec 64} (_hp : [.freeCtr] ⊆ ps)
    (_hk : Only ps s₀ s) : Only ps s₀ (takeStamp p src t s).2 := by
  unfold takeStamp
  repeat' first
    | with_reducible assumption | with_reducible apply only_pointDistance

theorem only_takeSeq {p : Nat} {b : Bool} {ty : Nat} {ip : Option (BitVec 128)}
    (_hp : [.ports] ⊆ ps)
    (_hk : Only ps s₀ s) : Only ps s₀ (takeSeq p b ty ip s).2 := by
  unfold takeSeq
  repeat' first
    | with_reducible assumption | with_reducible apply only_modPort

theorem only_queueTime {p : Nat} {m : TimeMsg} (_hp : [.ports] ⊆ ps)
    (_hk : Only ps s₀ s) : Only ps s₀ (queueTime p m s) := by
  unfold queueTime
  repeat' first
    | with_reducible assumption | with_reducible apply only_modPort

/-! Operations of `Ports`. -/

theorem only_linkUpLook {p : Nat}
    (_hp : [.us, .sup, .qos, .ports, .pwr, .life, .win, .i3c, .reeve, .counters, .freeCtr] ⊆ ps)
    (_hk : Only ps s₀ s) : Only ps s₀ (linkUpLook p s) := by
  unfold linkUpLook
  repeat' first
    | with_reducible assumption | with_reducible apply only_ite
    | with_reducible apply only_setLink

theorem only_modSLane {l : Nat} {f : SLane → SLane} (hp : [.slanes] ⊆ ps)
    (_hk : Only ps s₀ s) : Only ps s₀ (modSLane l f s) := by
  unfold modSLane
  repeat' first
    | with_reducible assumption | with_reducible apply only_f_slanes | exact hp (by decide)

theorem only_rxCapture {capture : BitVec 64} (hp : [.freeCtr] ⊆ ps)
    (_hk : Only ps s₀ s) : Only ps s₀ (rxCapture capture s).2 := by
  unfold rxCapture
  repeat' first
    | with_reducible assumption | with_reducible intro _ | with_reducible apply only_ite
    | with_reducible apply only_ite2 | with_reducible apply only_drawn
    | refine only_snd (by assumption) ?_ | split | dsimp only
    | exact List.Subset.trans (by decide) hp | exact hp (by decide)

theorem only_startPause {p n : Nat} (hp : [.ports] ⊆ ps)
    (_hk : Only ps s₀ s) : Only ps s₀ (startPause p n s) := by
  unfold startPause
  repeat' first
    | with_reducible assumption | with_reducible intro _ | with_reducible apply only_ite
    | with_reducible apply only_ite2 | with_reducible apply only_modPort
    | refine only_snd (by assumption) ?_ | split | dsimp only
    | exact List.Subset.trans (by decide) hp | exact hp (by decide)

theorem only_takePause {p n : Nat} (hp : [.ports] ⊆ ps)
    (_hk : Only ps s₀ s) : Only ps s₀ (takePause p n s) := by
  unfold takePause
  repeat' first
    | with_reducible assumption | with_reducible intro _ | with_reducible apply only_ite
    | with_reducible apply only_ite2 | with_reducible apply only_modPort
    | with_reducible apply only_startPause | refine only_snd (by assumption) ?_ | split
    | dsimp only | exact List.Subset.trans (by decide) hp | exact hp (by decide)

theorem only_rxRelease {r : RxState} (_hp : [.qos, .pwr, .freeCtr] ⊆ ps)
    (_hk : Only ps s₀ s) : Only ps s₀ (rxRelease r s) := by
  unfold rxRelease
  repeat' first
    | with_reducible assumption | with_reducible apply only_freeBushels

theorem only_filterFrame {p : Nat} {r : RxState} {b : Bytes}
    (hp : [.inQ, .sup, .qos, .pwr, .life, .win, .i3c, .reeve, .counters, .freeCtr] ⊆ ps)
    (_hk : Only ps s₀ s) : Only ps s₀ (filterFrame p r b s) := by
  unfold filterFrame
  repeat' first
    | with_reducible assumption | with_reducible intro _ | with_reducible apply only_ite
    | with_reducible apply only_ite2 | with_reducible apply only_bump
    | with_reducible apply only_rxRelease | refine only_snd (by assumption) ?_ | split | dsimp only
    | with_reducible apply only_f_inQ | exact List.Subset.trans (by decide) hp
    | exact hp (by decide)

theorem only_acceptFrame {p : Nat} {r : RxState} {b : Bytes}
    (hp : [.inQ, .sup, .qos, .cls, .ports, .pwr, .life, .win, .i3c, .reeve, .counters,
    .freeCtr] ⊆ ps)
    (_hk : Only ps s₀ s) : Only ps s₀ (acceptFrame p r b s) := by
  unfold acceptFrame
  repeat' first
    | with_reducible assumption | with_reducible apply only_ite | with_reducible apply only_bump
    | with_reducible apply only_filterFrame | with_reducible apply only_rxRelease
    | with_reducible apply only_takePause
    | refine only_claimFrame (List.Subset.trans (by decide) hp) (by assumption) ?_ | split
    | dsimp only | exact List.Subset.trans (by decide) hp

theorem only_rxNoted {port : Nat} {frame : RxFrame} (hp : [.sup, .ports, .life, .win, .i3c, .reeve,
    .counters] ⊆ ps)
    (_hk : Only ps s₀ s) : Only ps s₀ (rxNoted port frame s) := by
  unfold rxNoted
  repeat' first
    | with_reducible assumption | with_reducible intro _ | with_reducible apply only_ite
    | with_reducible apply only_ite2 | with_reducible apply only_bump
    | with_reducible apply only_modPort | refine only_snd (by assumption) ?_ | split | dsimp only
    | exact List.Subset.trans (by decide) hp | exact hp (by decide)

theorem only_rxTaken {port : Nat} {frame : RxFrame} {r0 : RxState}
    (hp : [.sup, .qos, .ports, .pwr, .life, .win, .i3c, .reeve, .counters, .freeCtr] ⊆ ps)
    (_hk : Only ps s₀ s) : Only ps s₀ (rxTaken port frame r0 s).2 := by
  unfold rxTaken
  repeat' first
    | with_reducible assumption | with_reducible intro _ | with_reducible apply only_ite
    | with_reducible apply only_ite2 | with_reducible apply only_bump
    | with_reducible apply only_freeBushels | with_reducible apply only_modPort
    | with_reducible apply only_rxBushels | refine only_snd (by assumption) ?_ | split | dsimp only
    | exact List.Subset.trans (by decide) hp | exact hp (by decide)

theorem only_startTimeMsg {p : Nat} {m : TimeMsg} (hp : [.ports, .freeCtr] ⊆ ps)
    (_hk : Only ps s₀ s) : Only ps s₀ (startTimeMsg p m s) := by
  unfold startTimeMsg
  repeat' first
    | with_reducible assumption | with_reducible intro _ | with_reducible apply only_ite
    | with_reducible apply only_ite2 | with_reducible apply only_modPort
    | with_reducible apply only_takeStamp | refine only_snd (by assumption) ?_ | split | dsimp only
    | exact List.Subset.trans (by decide) hp | exact hp (by decide)

theorem only_startTime {p : Nat} (hp : [.ports, .freeCtr] ⊆ ps)
    (_hk : Only ps s₀ s) : Only ps s₀ (startTime p s) := by
  unfold startTime
  repeat' first
    | with_reducible assumption | with_reducible intro _ | with_reducible apply only_ite
    | with_reducible apply only_ite2 | with_reducible apply only_modPort
    | with_reducible apply only_startTimeMsg | refine only_snd (by assumption) ?_ | split
    | dsimp only | exact List.Subset.trans (by decide) hp | exact hp (by decide)

theorem only_sendTime {p : Nat} {m : TimeMsg} (hp : [.ports, .freeCtr] ⊆ ps)
    (_hk : Only ps s₀ s) : Only ps s₀ (sendTime p m s) := by
  unfold sendTime
  repeat' first
    | with_reducible assumption | with_reducible apply only_ite
    | with_reducible apply only_queueTime | with_reducible apply only_startTime
    | exact List.Subset.trans (by decide) hp

theorem only_dropNext {p q : Nat} (hp : [.us, .qos, .pwr, .freeCtr] ⊆ ps)
    (_hk : Only ps s₀ s) : Only ps s₀ (dropNext p q s) := by
  unfold dropNext
  repeat' first
    | with_reducible assumption | with_reducible intro _ | with_reducible apply only_ite
    | with_reducible apply only_ite2 | with_reducible apply only_dropHead
    | with_reducible apply only_modDs | refine only_snd (by assumption) ?_ | split | dsimp only
    | exact List.Subset.trans (by decide) hp | exact hp (by decide)

theorem only_dropBad {p q n : Nat}
    (hp : [.us, .sup, .qos, .pwr, .life, .win, .i3c, .reeve, .counters,
    .freeCtr] ⊆ ps) (h : Only ps s₀ s) :
    Only ps s₀ (dropBad p q n s) := by
  induction n generalizing s with
  | zero => exact h
  | succ n ih =>
    unfold dropBad
    repeat' first
      | with_reducible assumption | with_reducible apply ih | with_reducible apply only_bump
      | with_reducible apply only_dropNext | split | exact List.Subset.trans (by decide) hp

theorem only_startHead {p q : Nat}
    (hp : [.sup, .qos, .ports, .life, .win, .i3c, .reeve, .counters] ⊆ ps)
    (_hk : Only ps s₀ s) : Only ps s₀ (startHead p q s) := by
  unfold startHead
  repeat' first
    | with_reducible assumption | with_reducible apply only_ite | with_reducible apply only_bump
    | with_reducible apply only_modDs | with_reducible apply only_modPort | split
    | exact List.Subset.trans (by decide) hp

theorem only_countSent {p : Nat} {t : TxNow}
    (_hp : [.sup, .life, .win, .i3c, .reeve, .counters] ⊆ ps)
    (_hk : Only ps s₀ s) : Only ps s₀ (countSent p t s) := by
  unfold countSent
  repeat' first
    | with_reducible assumption | with_reducible apply only_ite | with_reducible apply only_bump
    | split

/-! Operations of `Tables`. -/

theorem only_linkEmitted {e : Emitted}
    (hp : [.us, .sup, .qos, .cls, .pwr, .life, .win, .i3c, .reeve, .counters, .freeCtr] ⊆ ps)
    (_hk : Only ps s₀ s) : Only ps s₀ (linkEmitted e s) := by
  unfold linkEmitted
  repeat' first
    | with_reducible assumption | with_reducible apply only_ite | with_reducible apply only_bump
    | with_reducible apply only_enqueue | with_reducible apply only_freeBushels
    | with_reducible apply only_genLeave | with_reducible apply only_portFlushLook
    | exact List.Subset.trans (by decide) hp

theorem only_orderRun {n : Nat}
    (hp : [.us, .sup, .qos, .cls, .tine, .pwr, .life, .win, .i3c, .reeve, .counters,
    .freeCtr] ⊆ ps) (h : Only ps s₀ s) :
    Only ps s₀ (orderRun n s) := by
  induction n generalizing s with
  | zero => exact h
  | succ n ih =>
    unfold orderRun
    repeat' first
      | with_reducible assumption | with_reducible apply ih
      | with_reducible apply only_linkEmitted | split | dsimp only
      | with_reducible apply only_f_tine | exact List.Subset.trans (by decide) hp
      | exact hp (by decide)

theorem only_orderLook 
    (_hp : [.us, .sup, .qos, .cls, .tine, .pwr, .life, .win, .i3c, .reeve, .counters,
    .freeCtr] ⊆ ps)
    (_hk : Only ps s₀ s) : Only ps s₀ (orderLook s) := by
  unfold orderLook
  repeat' first
    | with_reducible assumption | with_reducible apply only_orderRun

theorem only_orderLeave {id : Nat}
    (hp : [.us, .sup, .qos, .cls, .tine, .pwr, .life, .win, .i3c, .reeve, .counters, .freeCtr] ⊆ ps)
    (_hk : Only ps s₀ s) : Only ps s₀ (orderLeave id s) := by
  unfold orderLeave
  repeat' first
    | with_reducible assumption | with_reducible apply only_orderLook | dsimp only
    | with_reducible apply only_f_tine | exact hp (by decide)

theorem only_discardPkt {p : Pkt}
    (hp : [.us, .sup, .qos, .cls, .tine, .pwr, .life, .win, .i3c, .reeve, .counters, .freeCtr] ⊆ ps)
    (_hk : Only ps s₀ s) : Only ps s₀ (discardPkt p s) := by
  unfold discardPkt
  repeat' first
    | with_reducible assumption | with_reducible apply only_freeBushels
    | with_reducible apply only_genLeave | with_reducible apply only_orderLeave
    | exact List.Subset.trans (by decide) hp

theorem only_countResult {k len : Nat} (_hp : [.cls] ⊆ ps)
    (_hk : Only ps s₀ s) : Only ps s₀ (countResult k len s) := by
  unfold countResult
  repeat' first
    | with_reducible assumption | with_reducible apply only_modCls

theorem only_meterPacket {m : Nat} {p : Pkt} {b : Bytes} {colour len : Nat}
    (_hp : [.sup, .qos, .life, .win, .i3c, .reeve, .counters] ⊆ ps)
    (_hk : Only ps s₀ s) : Only ps s₀ (meterPacket m p b colour len s).2 := by
  unfold meterPacket
  repeat' first
    | with_reducible assumption | with_reducible apply only_meterOp
    | refine only_snd (by assumption) ?_ | split

theorem only_ternLookup {g : BitVec 8} {key : Bytes}
    (_hp : [.sup, .life, .win, .i3c, .reeve, .counters] ⊆ ps)
    (_hk : Only ps s₀ s) : Only ps s₀ (ternLookup g key s).2 := by
  unfold ternLookup
  repeat' first
    | with_reducible assumption | with_reducible apply only_bump | split

theorem only_emFound {g : BitVec 8} {profile : Nat} {k : BitVec 128} {len : Nat}
    {bad : List EmLoc} (hp : [.sup, .cls, .life, .win, .i3c, .reeve, .counters] ⊆ ps)
    (_hk : Only ps s₀ s) : Only ps s₀ (emFound g profile k len bad s).2 := by
  unfold emFound
  repeat' first
    | with_reducible assumption | with_reducible apply only_bump
    | with_reducible apply only_modCls | split | exact List.Subset.trans (by decide) hp

theorem only_emLookupOp {g : BitVec 8} {profile : Nat} {k : BitVec 128} {len : Nat}
    {ecc : List (Bool × Bool)} (hp : [.sup, .cls, .life, .win, .i3c, .reeve,
      .counters] ⊆ ps) (h : Only ps s₀ s) :
    Only ps s₀ (emLookupOp g profile k len ecc s).2 := by
  have bu {c : CtrId} {k n : Nat} {u : State} (h : Only ps s₀ u) : Only ps s₀ (bump c k n u) :=
    only_bump (List.Subset.trans (by decide) hp) h
  unfold emLookupOp
  exact only_emFound hp (only_each (fun _ _ k => only_raise (List.Subset.trans (by decide) hp)
    (bu (only_modCls (List.Subset.trans (by decide) hp) k))) (bu h))

theorem only_applyResult {w : Walked} {r : Nat}
    (hp : [.sup, .qos, .cls, .life, .win, .i3c, .reeve, .counters] ⊆ ps)
    (_hk : Only ps s₀ s) : Only ps s₀ (applyResult w r s) := by
  unfold applyResult
  repeat' first
    | with_reducible assumption | with_reducible apply only_ite | with_reducible apply only_ite2
    | with_reducible apply only_countResult | with_reducible apply only_meterPacket
    | with_reducible apply only_modCls | exact List.Subset.trans (by decide) hp

theorem only_takePlace {p : Pkt} (hp : [.cls, .tine] ⊆ ps)
    (_hk : Only ps s₀ s) : Only ps s₀ (takePlace p s).2 := by
  unfold takePlace
  repeat' first
    | with_reducible assumption | with_reducible apply only_modCls | dsimp only
    | with_reducible apply only_f_tine | exact List.Subset.trans (by decide) hp
    | exact hp (by decide)

theorem only_walkTaken {p : Pkt}
    (hp : [.us, .sup, .qos, .cls, .tine, .pwr, .life, .win, .i3c, .reeve, .counters, .freeCtr] ⊆ ps)
    (_hk : Only ps s₀ s) : Only ps s₀ (walkTaken p s) := by
  unfold walkTaken
  repeat' first
    | with_reducible assumption | with_reducible intro _ | with_reducible apply only_ite
    | with_reducible apply only_ite2 | with_reducible apply only_applyResult
    | with_reducible apply only_bump | with_reducible apply only_countWalk
    | with_reducible apply only_discardPkt | with_reducible apply only_modCls
    | with_reducible apply only_ternLookup | refine only_snd (by assumption) ?_ | split
    | dsimp only | exact List.Subset.trans (by decide) hp | exact hp (by decide)

theorem only_heldCommitDue {w : Held} (hp : [.pair] ⊆ ps)
    (_hk : Only ps s₀ s) : Only ps s₀ (heldCommitDue w s) := by
  unfold heldCommitDue
  repeat' first
    | with_reducible assumption | with_reducible intro _ | with_reducible apply only_ite
    | with_reducible apply only_ite2 | refine only_snd (by assumption) ?_ | split | dsimp only
    | with_reducible apply only_f_pair | exact List.Subset.trans (by decide) hp
    | exact hp (by decide)

/-! Operations of `Tine`. -/

theorem only_modTine {f : Tine → Tine} (hp : [.tine] ⊆ ps)
    (_hk : Only ps s₀ s) : Only ps s₀ (modTine f s) := by
  unfold modTine
  repeat' first
    | with_reducible assumption | with_reducible apply only_f_tine | exact hp (by decide)

theorem only_modProg {p : Nat} {f : Prog → Prog} (_hp : [.tine] ⊆ ps)
    (_hk : Only ps s₀ s) : Only ps s₀ (modProg p f s) := by
  unfold modProg
  repeat' first
    | with_reducible assumption | with_reducible apply only_modTine

theorem only_gateHarrow {h : Nat} (hp : [.tine, .pwr] ⊆ ps)
    (_hk : Only ps s₀ s) : Only ps s₀ (gateHarrow h s) := by
  unfold gateHarrow
  repeat' first
    | with_reducible assumption | with_reducible apply only_ite
    | with_reducible apply only_modPwr | with_reducible apply only_modTine
    | exact List.Subset.trans (by decide) hp

theorem only_freeThread {h t n : Nat} (hp : [.tine, .pwr] ⊆ ps)
    (_hk : Only ps s₀ s) : Only ps s₀ (freeThread h t n s) := by
  unfold freeThread
  repeat' first
    | with_reducible assumption | with_reducible apply only_gateHarrow
    | with_reducible apply only_modThread | exact List.Subset.trans (by decide) hp

theorem only_logFault {h t n : Nat} {x : Thread} {code : Nat} {addr : Option Nat}
    (hp : [.sup, .tine, .life, .win, .i3c, .reeve, .counters, .freeCtr] ⊆ ps) (hk :
      Only ps s₀ s) : Only ps s₀ (logFault h t n x code addr s) := by
  unfold logFault
  dsimp only
  have h1 : Only ps s₀ (if addr.isSome = true then s else drawn s) :=
    only_ite hk (only_drawn (List.Subset.trans (by decide) hp) hk)
  generalize (if addr.isSome = true then s else drawn s) = u at h1 ⊢
  exact only_ite (only_bump (List.Subset.trans (by decide) hp)
    (only_modTine (List.Subset.trans (by decide) hp) h1))
    (only_modTine (List.Subset.trans (by decide) hp) h1)

theorem only_faultEvent {prog code : Nat} (hp : [.tine, .win, .i3c, .reeve, .counters] ⊆ ps)
    (_hk : Only ps s₀ s) : Only ps s₀ (faultEvent prog code s) := by
  unfold faultEvent
  repeat' first
    | with_reducible assumption | with_reducible apply only_ite
    | with_reducible apply only_modTine | with_reducible apply only_raise
    | exact List.Subset.trans (by decide) hp

theorem only_faultPass {h t n : Nat} {x : Thread} {code : Nat} {addr : Option Nat}
    (hp : [.us, .sup, .qos, .cls, .tine, .pwr, .life, .win, .i3c, .reeve, .counters,
      .freeCtr] ⊆ ps) (hk : Only ps s₀ s) : Only ps s₀ (faultPass h t n x code addr s) := by
  unfold faultPass
  dsimp only
  have h1 : Only ps s₀ (bump cFaults (scProgram x.view.prog) 1 (logFault h t n x code addr s)) :=
    only_bump (List.Subset.trans (by decide) hp) (only_logFault (List.Subset.trans (by decide) hp) hk)
  generalize bump cFaults (scProgram x.view.prog) 1 (logFault h t n x code addr s) = s1 at h1 ⊢
  have h2 : Only ps s₀ (if x.view.faultDisable = true then
      modProg x.view.prog (fun d => { d with disabled := true }) s1 else s1) :=
    only_ite (only_modProg (List.Subset.trans (by decide) hp) h1) h1
  have h3 : Only ps s₀ (faultEvent x.view.prog code (if x.view.faultDisable = true then
      modProg x.view.prog (fun d => { d with disabled := true }) s1 else s1)) :=
    only_faultEvent (List.Subset.trans (by decide) hp) h2
  split
  · exact only_discardPkt (List.Subset.trans (by decide) hp) h3
  · exact h3

theorem only_noteScratch {k : Nat} {word : Option Nat} (hp : [.tine] ⊆ ps)
    (_hk : Only ps s₀ s) : Only ps s₀ (noteScratch k word s) := by
  unfold noteScratch
  repeat' first
    | with_reducible assumption | with_reducible intro _ | with_reducible apply only_ite
    | with_reducible apply only_ite2 | with_reducible apply only_modTine
    | refine only_snd (by assumption) ?_ | split | dsimp only
    | exact List.Subset.trans (by decide) hp | exact hp (by decide)

/-- A result of an instruction leaves a state that differs in `ps` only. -/
def ResOnly (ps : List Part) (s₀ : State) : TRes → Prop
  | .fault _ _ => True
  | .ok _ s _ => Only ps s₀ s
  | .wait _ s => Only ps s₀ s
  | .stop _ s => Only ps s₀ s

theorem resOnly_ite {c : Prop} [Decidable c] {p q : TRes} (hp : ResOnly ps s₀ p)
    (hq : ResOnly ps s₀ q) : ResOnly ps s₀ (if c then p else q) := by split <;> assumption

theorem resOnly_eq {p q : TRes} (e : p = q) (h : ResOnly ps s₀ p) : ResOnly ps s₀ q := e ▸ h
theorem resOnly_ok {x : Thread} {w : Bool} (h : Only ps s₀ s) : ResOnly ps s₀ (.ok x s w) := h
theorem resOnly_wait {x : Thread} (h : Only ps s₀ s) : ResOnly ps s₀ (.wait x s) := h
theorem resOnly_stop {n : Nat} (h : Only ps s₀ s) : ResOnly ps s₀ (.stop n s) := h
theorem resOnly_done {x : Thread} (h : Only ps s₀ s) : ResOnly ps s₀ (tDone x s) := h
theorem resOnly_fault {n : Nat} {o : Option Nat} : ResOnly ps s₀ (.fault n o) := trivial


theorem only_issue {op : Nat} {th : ThreadId} {f : TFields} {body : Thread → State → TRes}
    (hp : [.us, .sup, .qos, .cls, .tine, .pwr, .life, .win, .i3c, .reeve, .counters,
      .freeCtr] ⊆ ps) (hb : ∀ x s, Only ps s₀ s → ResOnly ps s₀ (body x s)) (hk : Only ps s₀ s) :
    Only ps s₀ (issue op th f body s) := by
  have sr {h t n p : Nat} {g : Tagged} {a b c d : Bool} {e : Option Nat} {u : State}
      (k : Only ps s₀ u) : Only ps s₀ (sampRecord h t n p g a b c d e u) :=
    only_sampRecord (List.Subset.trans (by decide) hp) k
  have ft {h t n : Nat} {u : State} (k : Only ps s₀ u) : Only ps s₀ (freeThread h t n u) :=
    only_freeThread (List.Subset.trans (by decide) hp) k
  have pt {h t n : Nat} {x : Thread} {u : State} (k : Only ps s₀ u) :
      Only ps s₀ (putThread h t n x u) := only_putThread (List.Subset.trans (by decide) hp) k
  have fp {h t n c : Nat} {x : Thread} {a : Option Nat} {u : State} (k : Only ps s₀ u) :
      Only ps s₀ (faultPass h t n x c a u) := only_faultPass (List.Subset.trans (by decide) hp) k
  have ic {h t n : Nat} {es : List Nat} {u : State} (k : Only ps s₀ u) :
      Only ps s₀ (issueCycle h t n es u) := only_issueCycle (List.Subset.trans (by decide) hp) k
  have ns {k : Nat} {o : Option Nat} {u : State} (h : Only ps s₀ u) :
      Only ps s₀ (noteScratch k o u) := only_noteScratch (List.Subset.trans (by decide) hp) h
  unfold issue
  dsimp only
  generalize th.harrow.val = h
  generalize th.tine.val = t
  generalize th.thread.val = n
  generalize threadOf s h t n = x0
  generalize fetchedWord s x0 = w
  generalize (if (w == insnWord op f) = true then op else wordOp w) = o
  have h1 : Only ps s₀ (sampIssue h t n o s).2 :=
    only_sampIssue (List.Subset.trans (by decide) hp) hk
  generalize sampIssue h t n o s = r at h1 ⊢
  obtain ⟨tag, s1⟩ := r
  refine only_ite hk ?_
  dsimp only at h1 ⊢
  have h2 : Only ps s₀ (bump cInsns (scProgram x0.view.prog) 1 s1) :=
    only_bump (List.Subset.trans (by decide) hp) h1
  generalize bump cInsns (scProgram x0.view.prog) 1 s1 = s2 at h2 ⊢
  split
  · cases tag with
    | none => exact ft (ic (fp h2))
    | some g => exact sr (ft (ic (fp h2)))
  all_goals
    rename_i heq
    have h3 := resOnly_eq heq (resOnly_ite (s₀ := s₀) trivial (resOnly_ite trivial (hb _ _ h2)))
  · cases tag with
    | none => exact pt (ic (ns h3))
    | some g => exact sr (pt (ic (ns h3)))
  · exact pt (ic h3)
  · cases tag with
    | none => exact ft (ic h3)
    | some g => exact sr (ft (ic h3))

theorem only_emitPass {x : Thread} {mark : Bool}
    (hp : [.us, .sup, .qos, .cls, .tine, .pwr, .life, .win, .i3c, .reeve, .counters, .freeCtr] ⊆ ps)
    (_hk : Only ps s₀ s) : Only ps s₀ (emitPass x mark s) := by
  unfold emitPass
  repeat' first
    | with_reducible assumption | with_reducible intro _ | with_reducible apply only_ite
    | with_reducible apply only_ite2 | with_reducible apply only_bump
    | with_reducible apply only_discardPkt | with_reducible apply only_freeBushels
    | with_reducible apply only_modTine | with_reducible apply only_orderLook
    | with_reducible apply only_takeUpTo | refine only_snd (by assumption) ?_ | split | dsimp only
    | exact List.Subset.trans (by decide) hp | exact hp (by decide)

theorem only_recirculatePass {x : Thread} {sheaf : Bool} {node : Option Nat}
    (hp : [.us, .sup, .qos, .cls, .tine, .pwr, .life, .win, .i3c, .reeve, .counters, .freeCtr] ⊆ ps)
    (_hk : Only ps s₀ s) : Only ps s₀ (recirculatePass x sheaf node s) := by
  unfold recirculatePass
  repeat' first
    | with_reducible assumption | with_reducible apply only_ite | with_reducible apply only_bump
    | with_reducible apply only_discardPkt | with_reducible apply only_modCls
    | with_reducible apply only_orderLeave | split | exact List.Subset.trans (by decide) hp

theorem only_trapPass {x : Thread} {reason : BitVec 8}
    (hp : [.us, .sup, .qos, .cls, .tine, .pwr, .life, .win, .i3c, .reeve, .counters, .freeCtr] ⊆ ps)
    (_hk : Only ps s₀ s) : Only ps s₀ (trapPass x reason s) := by
  unfold trapPass
  repeat' first
    | with_reducible assumption | with_reducible apply only_ite | with_reducible apply only_bump
    | with_reducible apply only_discardPkt | with_reducible apply only_genLeave
    | with_reducible apply only_modTine | with_reducible apply only_orderLeave | split
    | exact List.Subset.trans (by decide) hp

/-! Operations of `Image`. -/

theorem only_installProgram {img : Bytes} (_hp : [.tine] ⊆ ps)
    (_hk : Only ps s₀ s) : Only ps s₀ (installProgram img s) := by
  unfold installProgram
  repeat' first
    | with_reducible assumption | with_reducible apply only_modProg
    | with_reducible apply only_modTine

theorem only_vendorPerms {img : Bool} {fw : BitVec 32} {i : Nat} (hp : [.settings] ⊆ ps)
    (_hk : Only ps s₀ s) : Only ps s₀ (vendorPerms img fw i s) := by
  unfold vendorPerms
  repeat' first
    | with_reducible assumption | with_reducible intro _ | with_reducible apply only_ite
    | with_reducible apply only_ite2 | with_reducible apply only_each
    | with_reducible apply only_putSetting | refine only_snd (by assumption) ?_ | split
    | dsimp only | exact List.Subset.trans (by decide) hp | exact hp (by decide)

theorem only_vendorProgram {img : Bool} {fw : BitVec 32} {i : Nat} (hp : [.tine, .settings] ⊆ ps)
    (_hk : Only ps s₀ s) : Only ps s₀ (vendorProgram img fw i s) := by
  unfold vendorProgram
  repeat' first
    | with_reducible assumption | with_reducible intro _ | with_reducible apply only_ite
    | with_reducible apply only_ite2 | with_reducible apply only_installProgram
    | with_reducible apply only_vendorPerms | refine only_snd (by assumption) ?_ | split
    | dsimp only | exact List.Subset.trans (by decide) hp | exact hp (by decide)

theorem only_vendorPrograms {img : Bool} {fw : BitVec 32} (hp : [.tine, .settings] ⊆ ps)
    (_hk : Only ps s₀ s) : Only ps s₀ (vendorPrograms img fw s) := by
  unfold vendorPrograms
  repeat' first
    | with_reducible assumption | with_reducible intro _ | with_reducible apply only_ite
    | with_reducible apply only_ite2 | with_reducible apply only_each
    | with_reducible apply only_vendorProgram | refine only_snd (by assumption) ?_ | split
    | dsimp only | exact List.Subset.trans (by decide) hp | exact hp (by decide)

/-! Operations of `Keys`. -/

theorem only_modTxCipher {x id : Nat} {f : TxLot → TxLot} (_hp : [.us] ⊆ ps)
    (_hk : Only ps s₀ s) : Only ps s₀ (modTxCipher x id f s) := by
  unfold modTxCipher
  repeat' first
    | with_reducible assumption | with_reducible apply only_modUsLane

theorem only_loseTxLot {x id : Nat} (hp : [.us, .qos, .pwr, .freeCtr] ⊆ ps)
    (_hk : Only ps s₀ s) : Only ps s₀ (loseTxLot x id s) := by
  unfold loseTxLot
  repeat' first
    | with_reducible assumption | with_reducible intro _ | with_reducible apply only_ite
    | with_reducible apply only_each | with_reducible apply only_loseFrame
    | with_reducible apply only_modTxCipher | split | dsimp only
    | with_reducible apply only_f_us | exact List.Subset.trans (by decide) hp
    | exact hp (by decide)

theorem only_modTxMsg {x id : Nat} {f : Burst → Burst} (hp : [.us] ⊆ ps)
    (_hk : Only ps s₀ s) : Only ps s₀ (modTxMsg x id f s) := by
  unfold modTxMsg
  repeat' first
    | with_reducible assumption | with_reducible intro _ | with_reducible apply only_ite
    | with_reducible apply only_ite2 | with_reducible apply only_modUsLane
    | refine only_snd (by assumption) ?_ | split | dsimp only
    | exact List.Subset.trans (by decide) hp | exact hp (by decide)

theorem only_tagTxMsg {x id : Nat} {tag : Bytes} (hp : [.us] ⊆ ps)
    (_hk : Only ps s₀ s) : Only ps s₀ (tagTxMsg x id tag s) := by
  unfold tagTxMsg
  repeat' first
    | with_reducible assumption | with_reducible intro _ | with_reducible apply only_ite
    | with_reducible apply only_ite2 | with_reducible apply only_modTxMsg
    | refine only_snd (by assumption) ?_ | split | dsimp only
    | exact List.Subset.trans (by decide) hp | exact hp (by decide)

theorem only_loseTxMsg {x id : Nat} (hp : [.us, .act] ⊆ ps)
    (_hk : Only ps s₀ s) : Only ps s₀ (loseTxMsg x id s) := by
  unfold loseTxMsg
  repeat' first
    | with_reducible assumption | with_reducible intro _ | with_reducible apply only_ite
    | with_reducible apply only_ite2 | with_reducible apply only_modInst
    | with_reducible apply only_modTxMsg | refine only_snd (by assumption) ?_ | split | dsimp only
    | exact List.Subset.trans (by decide) hp | exact hp (by decide)

theorem only_tineAnswer {h t n st : Nat} {f : Thread → Thread} (_hp : [.tine] ⊆ ps)
    (_hk : Only ps s₀ s) : Only ps s₀ (tineAnswer h t n st f s) := by
  unfold tineAnswer
  repeat' first
    | with_reducible assumption | with_reducible apply only_putThread | split | dsimp only

theorem only_cryNoOutput {abort : Bool} {o : CryOp}
    (hp : [.groups, .reasm, .toTime, .toReeve, .inQ, .us, .act, .sup, .qos, .cry, .tine, .pwr, .life, .win, .i3c, .reeve, .counters, .freeCtr] ⊆ ps)
    (_hk : Only ps s₀ s) : Only ps s₀ (cryNoOutput abort o s) := by
  unfold cryNoOutput
  repeat' first
    | with_reducible assumption | with_reducible intro _ | with_reducible apply only_ite
    | with_reducible apply only_ite2 | with_reducible apply only_bump
    | with_reducible apply only_cryDenied | with_reducible apply only_loseTxLot
    | with_reducible apply only_loseTxMsg | with_reducible apply only_relCipherDone
    | with_reducible apply only_sealAnswer | with_reducible apply only_tagTxMsg
    | with_reducible apply only_tineAnswer | refine only_snd (by assumption) ?_ | split
    | dsimp only | exact List.Subset.trans (by decide) hp | exact hp (by decide)

theorem only_tineCipherDone {h t n : Nat} {o : CryOp} {key : Bytes} (hp : [.tine] ⊆ ps)
    (_hk : Only ps s₀ s) : Only ps s₀ (tineCipherDone h t n o key s) := by
  unfold tineCipherDone
  repeat' first
    | with_reducible assumption | with_reducible intro _ | with_reducible apply only_ite
    | with_reducible apply only_ite2 | with_reducible apply only_tineAnswer
    | refine only_snd (by assumption) ?_ | split | dsimp only
    | exact List.Subset.trans (by decide) hp | exact hp (by decide)

theorem only_cryDone {o : CryOp} {key : Bytes}
    (hp : [.groups, .reasm, .toTime, .toReeve, .inQ, .us, .act, .sup, .qos, .cry, .tine, .pwr, .life, .win, .i3c, .reeve, .counters, .freeCtr] ⊆ ps)
    (_hk : Only ps s₀ s) : Only ps s₀ (cryDone o key s) := by
  unfold cryDone
  repeat' first
    | with_reducible assumption | with_reducible intro _ | with_reducible apply only_ite
    | with_reducible apply only_ite2 | with_reducible apply only_bump
    | with_reducible apply only_cryDenied | with_reducible apply only_loseTxLot
    | with_reducible apply only_modTxCipher | with_reducible apply only_relCipherDone
    | with_reducible apply only_sealAnswer | with_reducible apply only_tagTxMsg
    | with_reducible apply only_tineCipherDone | refine only_snd (by assumption) ?_ | split
    | dsimp only | exact List.Subset.trans (by decide) hp | exact hp (by decide)

theorem only_dropOp {o : CryOp} (hp : [.cry] ⊆ ps)
    (_hk : Only ps s₀ s) : Only ps s₀ (dropOp o s) := by
  unfold dropOp
  repeat' first
    | with_reducible assumption | with_reducible intro _ | with_reducible apply only_ite
    | with_reducible apply only_ite2 | refine only_snd (by assumption) ?_ | split | dsimp only
    | with_reducible apply only_f_cry | exact List.Subset.trans (by decide) hp
    | exact hp (by decide)

theorem only_keysLook  (hp : [.us, .sup, .qos, .life, .win, .i3c, .reeve, .counters] ⊆ ps)
    (_hk : Only ps s₀ s) : Only ps s₀ (keysLook s) := by
  unfold keysLook
  repeat' first
    | with_reducible assumption | with_reducible intro _ | with_reducible apply only_ite
    | with_reducible apply only_ite2 | with_reducible apply only_each
    | with_reducible apply only_calendarLook | with_reducible apply only_modUs
    | with_reducible apply only_setDomDefect | refine only_snd (by assumption) ?_ | split
    | dsimp only | exact List.Subset.trans (by decide) hp | exact hp (by decide)

theorem only_eraseSlots {ks : List Nat}
    (hp : [.groups, .reasm, .toTime, .toReeve, .inQ, .us, .act, .sup, .qos, .cry, .tine, .pwr, .life, .win, .i3c, .reeve, .counters, .freeCtr] ⊆ ps)
    (_hk : Only ps s₀ s) : Only ps s₀ (eraseSlots ks s) := by
  unfold eraseSlots
  repeat' first
    | with_reducible assumption | with_reducible intro _ | with_reducible apply only_ite
    | with_reducible apply only_ite2 | with_reducible apply only_each
    | with_reducible apply only_cryNoOutput | with_reducible apply only_keysLook
    | with_reducible apply only_modSlot | with_reducible apply only_startOps
    | refine only_snd (by assumption) ?_ | split | dsimp only | with_reducible apply only_f_cry
    | exact List.Subset.trans (by decide) hp | exact hp (by decide)

theorem only_eraseAll 
    (_hp : [.groups, .reasm, .toTime, .toReeve, .inQ, .us, .act, .sup, .qos, .cry, .tine, .pwr, .life, .win, .i3c, .reeve, .counters, .freeCtr] ⊆ ps)
    (_hk : Only ps s₀ s) : Only ps s₀ (eraseAll s) := by
  unfold eraseAll
  repeat' first
    | with_reducible assumption | with_reducible apply only_eraseSlots

theorem only_loadKey {wrapped size256 : Bool}
    (hp : [.us, .sup, .qos, .cry, .life, .win, .i3c, .reeve, .counters, .freeCtr] ⊆ ps)
    (_hk : Only ps s₀ s) : Only ps s₀ (loadKey wrapped size256 s).2 := by
  unfold loadKey
  repeat' first
    | with_reducible assumption | with_reducible intro _ | with_reducible apply only_ite
    | with_reducible apply only_ite2 | with_reducible apply only_bump
    | with_reducible apply only_keysLook | with_reducible apply only_maskDraw
    | with_reducible apply only_modSlot | with_reducible apply only_rngDraw
    | with_reducible apply only_startOps | refine only_snd (by assumption) ?_ | split | dsimp only
    | exact List.Subset.trans (by decide) hp | exact hp (by decide)

theorem only_keyWritten  (hp : [.life] ⊆ ps)
    (_hk : Only ps s₀ s) : Only ps s₀ (keyWritten s) := by
  unfold keyWritten
  repeat' first
    | with_reducible assumption | dsimp only | with_reducible apply only_f_life
    | exact hp (by decide)

theorem only_keyWrite {f : Cry → Cry} (hp : [.cry] ⊆ ps)
    (_hk : Only ps s₀ s) : Only ps s₀ (keyWrite f s) := by
  unfold keyWrite
  repeat' first
    | with_reducible assumption | split | dsimp only | with_reducible apply only_f_cry
    | exact hp (by decide)

theorem only_keyAccess {f : State → State}
    (hp : [.sup, .pwr, .life, .win, .i3c, .reeve, .counters] ⊆ ps)
    (hf : ∀ s, Only ps s₀ s → Only ps s₀ (f s)) (h : Only ps s₀ s) :
    Only ps s₀ (keyAccess f s) := by
  unfold keyAccess
  exact only_addressed hp (fun _ h => only_ite h (hf _ h)) h

theorem only_keySelWrite {v : BitVec 8} (_hp : [.cry] ⊆ ps)
    (_hk : Only ps s₀ s) : Only ps s₀ (keySelWrite v s) := by
  unfold keySelWrite
  repeat' first
    | with_reducible assumption | with_reducible apply only_keyWrite

theorem only_keyCtrlWrite {v : BitVec 8} (_hp : [.cry] ⊆ ps)
    (_hk : Only ps s₀ s) : Only ps s₀ (keyCtrlWrite v s) := by
  unfold keyCtrlWrite
  repeat' first
    | with_reducible assumption | with_reducible apply only_keyWrite

theorem only_keyDataWrite {i : Nat} {v : BitVec 8} (_hp : [.cry] ⊆ ps)
    (_hk : Only ps s₀ s) : Only ps s₀ (keyDataWrite i v s) := by
  unfold keyDataWrite
  repeat' first
    | with_reducible assumption | with_reducible apply only_keyWrite

end Sys2Proof.Machine
end

