-- ==== Sys2Proof/Laws/OnlyCmd.lean ====
section
/-! SUPPORT. Which parts each operation writes (`Only`): the command front end and the command bodies. -/
-- One list of alternatives serves every lemma below; not every lemma uses each of them.
set_option linter.unusedTactic false
set_option linter.unreachableTactic false
namespace Sys2Proof.Machine
variable {ps : List Part} {s₀ s t : State}

/-! Operations of `Icben`. -/

theorem only_tetherSend {m : TetherMsg} (_hp : [.pair] ⊆ ps)
    (_hk : Only ps s₀ s) : Only ps s₀ (tetherSend m s) := by
  unfold tetherSend
  repeat' first
    | with_reducible assumption | with_reducible apply only_modPair

theorem only_untake {op : Nat} {c : Cmd} (_hp : [.reeve] ⊆ ps)
    (_hk : Only ps s₀ s) : Only ps s₀ (untake op c s) := by
  unfold untake
  repeat' first
    | with_reducible assumption | with_reducible apply only_modReeve

theorem only_mirrorOut {op : Nat} {c : Cmd}
    (hp : [.act, .sup, .pair, .life, .win, .i3c, .reeve, .counters] ⊆ ps)
    (_hk : Only ps s₀ s) : Only ps s₀ (mirrorOut op c s) := by
  unfold mirrorOut
  repeat' first
    | with_reducible assumption | with_reducible apply only_ite
    | with_reducible apply only_answer | with_reducible apply only_bump
    | with_reducible apply only_modPair | with_reducible apply only_tetherSend
    | exact List.Subset.trans (by decide) hp

theorem only_markMgmt {mgmt : Bool} {s0 : State} (_hp : [.reeve] ⊆ ps)
    (_hk : Only ps s₀ s) : Only ps s₀ (markMgmt mgmt s0 s) := by
  unfold markMgmt
  repeat' first
    | with_reducible assumption | with_reducible apply only_ite
    | with_reducible apply only_modReeve

theorem only_applyHeld {op : Nat} {b : CmdBody} {c : Cmd} {fp : Bool}
    (hp : [.pair, .win, .i3c, .reeve, .counters] ⊆ ps)
    (hb : ∀ c s, Only ps s₀ s → Only ps s₀ (b c s).2) (h : Only ps s₀ s) :
    Only ps s₀ (applyHeld op b c fp s) := by
  unfold applyHeld
  repeat' first
      | with_reducible assumption | apply hb | with_reducible apply only_ite
      | with_reducible apply only_markMgmt | with_reducible apply only_modPair
      | with_reducible apply only_raiseTag | split | exact List.Subset.trans (by decide) hp

theorem only_runCmd {op : Nat} {b : CmdBody} {c : Cmd}
    (hp : [.act, .sup, .pair, .life, .win, .i3c, .reeve, .counters] ⊆ ps)
    (hb : ∀ c s, Only ps s₀ s → Only ps s₀ (b c s).2) (_hk : Only ps s₀ s) :
    Only ps s₀ (runCmd op b c s) := by
  have h1 : ∀ s, Only ps s₀ s → Only ps s₀ (b (splitCall c) s).2 := hb _
  unfold runCmd
  repeat' first
      | with_reducible assumption | apply h1 | with_reducible apply only_ite
      | with_reducible apply only_answer | with_reducible apply only_applyHeld
      | with_reducible apply only_bump | with_reducible apply only_busyLook
      | with_reducible apply only_markMgmt | with_reducible apply only_mirrorOut
      | with_reducible apply only_modReeve | with_reducible apply only_untake | split | dsimp only
      | exact List.Subset.trans (by decide) hp

theorem only_askReset {op : Nat} {c : Call} (_hp : [.reeve] ⊆ ps)
    (_hk : Only ps s₀ s) : Only ps s₀ (askReset op c s) := by
  unfold askReset
  repeat' first
    | with_reducible assumption | with_reducible apply only_modReeve

theorem only_putGiven {sc : Nat} {gs : List Given} (_hp : [.settings] ⊆ ps)
    (_hk : Only ps s₀ s) : Only ps s₀ (putGiven sc gs s) := by
  unfold putGiven
  repeat' first
    | with_reducible assumption | with_reducible intro _ | with_reducible apply only_each
    | with_reducible apply only_putSetting

theorem only_settingsCmd {ks : List Nat} {specs : Nat → List SSpec} {c : Call}
    {k : Nat → List Given → Call → State → Reply × State} (_hp : [] ⊆ ps)
    (hf : ∀ sc gs c s, Only ps s₀ s → Only ps s₀ (k sc gs c s).2) (_hk : Only ps s₀ s) :
    Only ps s₀ (settingsCmd ks specs k c s).2 := by
  unfold settingsCmd
  repeat' first
      | with_reducible assumption | apply hf | with_reducible apply only_ite2
      | with_reducible apply only_badArg | with_reducible apply only_badLength | split

theorem only_clearCounters {ch tbl sc first n : Nat} (hp : [.counters] ⊆ ps)
    (_hk : Only ps s₀ s) : Only ps s₀ (clearCounters ch tbl sc first n s) := by
  unfold clearCounters
  repeat' first
    | with_reducible assumption | with_reducible intro _ | with_reducible apply only_ite
    | with_reducible apply only_each | dsimp only | with_reducible apply only_f_counters
    | exact hp (by decide)

theorem only_readCmd {ks : List Nat} {ts : List (Nat × Nat)} {n : Nat} {c : Call}

         {block : Nat → Bytes → State → Bytes} {clear : Nat → Bytes → State → State} (hp : [.counters] ⊆ ps)
    (hf : ∀ sc p s, Only ps s₀ s → Only ps s₀ (clear sc p s)) (_hk : Only ps s₀ s) :
    Only ps s₀ (readCmd ks ts n block clear c s).2 := by
  unfold readCmd
  repeat' first
      | with_reducible assumption | apply hf | with_reducible apply only_ite
      | with_reducible apply only_ite2 | with_reducible apply only_badArg
      | with_reducible apply only_badLength | with_reducible apply only_clearCounters
      | with_reducible apply only_stOk | split | exact List.Subset.trans (by decide) hp

theorem only_fixedCmd {n : Nat} {c : Call} {k : Bytes → Call → State → Reply × State}
    (_hp : [] ⊆ ps) (hf : ∀ p c s, Only ps s₀ s → Only ps s₀ (k p c s).2) (_hk : Only ps s₀ s) :
    Only ps s₀ (fixedCmd n k c s).2 := by
  unfold fixedCmd
  repeat' first
      | with_reducible assumption | apply hf | with_reducible apply only_ite2
      | with_reducible apply only_badLength

/-! Operations of `CmdLine`. -/

theorem only_roleOutLook  (_hp : [.pair] ⊆ ps)
    (_hk : Only ps s₀ s) : Only ps s₀ (roleOutLook s) := by
  unfold roleOutLook
  repeat' first
    | with_reducible assumption | with_reducible apply only_ite
    | with_reducible apply only_modPair

theorem only_domainOn {n : Nat} (hp : [.pwr] ⊆ ps)
    (_hk : Only ps s₀ s) : Only ps s₀ (domainOn n s) := by
  unfold domainOn
  repeat' first
    | with_reducible assumption | dsimp only | with_reducible apply only_f_pwr
    | exact hp (by decide)

theorem only_enableLtx {x : Nat} {o : Optics} (hp : [.us, .pwr] ⊆ ps)
    (_hk : Only ps s₀ s) : Only ps s₀ (enableLtx x o s) := by
  unfold enableLtx
  repeat' first
    | with_reducible assumption | with_reducible apply only_ite
    | with_reducible apply only_domainOn | with_reducible apply only_modUsLane
    | exact List.Subset.trans (by decide) hp

theorem only_lineConfigureLanesBody {o0 o1 : Optics} {c : Call}
    (hp : [.clk, .lanes, .groups, .lots, .reasm, .us, .act, .sup, .qos, .ports, .pwr, .pair,
    .life, .win, .i3c, .reeve, .settings, .counters, .freeCtr] ⊆ ps)
    (_hk : Only ps s₀ s) : Only ps s₀ (lineConfigureLanesBody o0 o1 c s).2 := by
  unfold lineConfigureLanesBody
  repeat' first
    | with_reducible assumption | with_reducible intro _ | with_reducible apply only_ite
    | with_reducible apply only_ite2 | with_reducible apply only_disableLane
    | with_reducible apply only_domainOn | with_reducible apply only_enableLane
    | with_reducible apply only_enableLtx | with_reducible apply only_gateLook
    | with_reducible apply only_lockLook | with_reducible apply only_modUsLane
    | with_reducible apply only_putGiven | with_reducible apply only_roleOutLook
    | with_reducible apply only_settingsCmd | with_reducible apply only_stOk
    | with_reducible apply only_supLook | exact List.Subset.trans (by decide) hp

theorem only_lineSetEqBody {c : Call} (hp : [.lanes, .settings] ⊆ ps)
    (_hk : Only ps s₀ s) : Only ps s₀ (lineSetEqBody c s).2 := by
  unfold lineSetEqBody
  repeat' first
    | with_reducible assumption | with_reducible intro _ | with_reducible apply only_ite2
    | with_reducible apply only_applyEq | with_reducible apply only_badArg
    | with_reducible apply only_modLane | with_reducible apply only_settingsCmd
    | with_reducible apply only_stOk | exact List.Subset.trans (by decide) hp

theorem only_assignGroup {l : Nat} {g : BitVec 2}
    (hp : [.clk, .lanes, .groups, .lots, .reasm, .us, .act, .sup, .qos, .ports, .pwr, .pair, .life, .win, .i3c, .reeve, .counters, .freeCtr] ⊆ ps)
    (_hk : Only ps s₀ s) : Only ps s₀ (assignGroup l g s) := by
  unfold assignGroup
  repeat' first
    | with_reducible assumption | with_reducible intro _ | with_reducible apply only_ite
    | with_reducible apply only_ite2 | with_reducible apply only_dropPartial
    | with_reducible apply only_excludeLane | with_reducible apply only_lockLook
    | with_reducible apply only_modLane | with_reducible apply only_supLook
    | refine only_snd (by assumption) ?_ | split | dsimp only
    | exact List.Subset.trans (by decide) hp | exact hp (by decide)

theorem only_restartBseq  (hp : [.us] ⊆ ps)
    (_hk : Only ps s₀ s) : Only ps s₀ (restartBseq s) := by
  unfold restartBseq
  repeat' first
    | with_reducible assumption | with_reducible intro _ | with_reducible apply only_each
    | with_reducible apply only_modUsLane | dsimp only | with_reducible apply only_f_us
    | exact hp (by decide)

theorem only_setUsMode {split : Bool} (hp : [.us] ⊆ ps)
    (_hk : Only ps s₀ s) : Only ps s₀ (setUsMode split s) := by
  unfold setUsMode
  repeat' first
    | with_reducible assumption | with_reducible apply only_ite
    | with_reducible apply only_restartBseq | dsimp only | with_reducible apply only_f_us
    | exact hp (by decide)

theorem only_lineSetGroupBody {c : Call}
    (hp : [.clk, .lanes, .groups, .lots, .reasm, .us, .act, .sup, .qos, .ports, .pwr, .pair,
    .life, .win, .i3c, .reeve, .settings, .counters, .freeCtr] ⊆ ps)
    (_hk : Only ps s₀ s) : Only ps s₀ (lineSetGroupBody c s).2 := by
  unfold lineSetGroupBody
  repeat' first
    | with_reducible assumption | with_reducible intro _ | with_reducible apply only_ite2
    | with_reducible apply only_assignGroup | with_reducible apply only_notInState
    | with_reducible apply only_putGiven | with_reducible apply only_setUsMode
    | with_reducible apply only_settingsCmd | with_reducible apply only_stOk
    | exact List.Subset.trans (by decide) hp

theorem only_lineGetLockBody {c : Call} (_hp : [.counters] ⊆ ps)
    (_hk : Only ps s₀ s) : Only ps s₀ (lineGetLockBody c s).2 := by
  unfold lineGetLockBody
  repeat' first
    | with_reducible assumption | with_reducible exact fun _ h => h | with_reducible intro _
    | with_reducible apply only_readCmd

theorem only_lineGetCountersBody {c : Call} (_hp : [.counters] ⊆ ps)
    (_hk : Only ps s₀ s) : Only ps s₀ (lineGetCountersBody c s).2 := by
  unfold lineGetCountersBody
  repeat' first
    | with_reducible assumption | with_reducible exact fun _ h => h | with_reducible intro _
    | with_reducible apply only_readCmd

theorem only_supSetActionsBody {c : Call}
    (hp : [.act, .sup, .life, .win, .i3c, .reeve, .settings, .counters] ⊆ ps)
    (_hk : Only ps s₀ s) : Only ps s₀ (supSetActionsBody c s).2 := by
  unfold supSetActionsBody
  repeat' first
    | with_reducible assumption | with_reducible intro _ | with_reducible apply only_holdOffLook
    | with_reducible apply only_putGiven | with_reducible apply only_settingsCmd
    | with_reducible apply only_stOk | with_reducible apply only_supLook
    | exact List.Subset.trans (by decide) hp

theorem only_supGetDefectsBody {c : Call} (_hp : [.counters] ⊆ ps)
    (_hk : Only ps s₀ s) : Only ps s₀ (supGetDefectsBody c s).2 := by
  unfold supGetDefectsBody
  repeat' first
    | with_reducible assumption | with_reducible exact fun _ h => h | with_reducible intro _
    | with_reducible apply only_readCmd

theorem only_supGetBinsBody {c : Call} (hp : [] ⊆ ps)
    (_hk : Only ps s₀ s) : Only ps s₀ (supGetBinsBody c s).2 := by
  unfold supGetBinsBody
  repeat' first
    | with_reducible assumption | with_reducible intro _ | with_reducible apply only_ite
    | with_reducible apply only_ite2 | with_reducible apply only_badArg
    | with_reducible apply only_fixedCmd | with_reducible apply only_stOk
    | refine only_snd (by assumption) ?_ | split | dsimp only
    | exact List.Subset.trans (by decide) hp | exact hp (by decide)

theorem only_tcaLook {g : Given} (_hp : [.sup, .win, .i3c, .reeve, .counters] ⊆ ps)
    (_hk : Only ps s₀ s) : Only ps s₀ (tcaLook g s) := by
  unfold tcaLook
  repeat' first
    | with_reducible assumption | with_reducible intro _ | with_reducible apply only_ite
    | with_reducible apply only_each | with_reducible apply only_tcaCheck

theorem only_supSetThresholdsBody {c : Call}
    (hp : [.sup, .win, .i3c, .reeve, .settings, .counters] ⊆ ps)
    (_hk : Only ps s₀ s) : Only ps s₀ (supSetThresholdsBody c s).2 := by
  unfold supSetThresholdsBody
  repeat' first
    | with_reducible assumption | with_reducible intro _ | with_reducible apply only_ite2
    | with_reducible apply only_badArg | with_reducible apply only_each
    | with_reducible apply only_putGiven | with_reducible apply only_settingsCmd
    | with_reducible apply only_stOk | with_reducible apply only_tcaLook
    | exact List.Subset.trans (by decide) hp

/-! Operations of `CmdAct`. -/

theorem only_actStartBody {c : Call} (hp : [.act, .settings] ⊆ ps)
    (_hk : Only ps s₀ s) : Only ps s₀ (actStartBody c s).2 := by
  unfold actStartBody
  repeat' first
    | with_reducible assumption | with_reducible intro _ | with_reducible apply only_badArg
    | with_reducible apply only_each | with_reducible apply only_modInst
    | with_reducible apply only_putGiven | with_reducible apply only_settingsCmd
    | with_reducible apply only_stOk | split | dsimp only
    | exact List.Subset.trans (by decide) hp

theorem only_actStop {i : Nat}
    (hp : [.lots, .reasm, .us, .act, .sup, .qos, .ports, .pwr, .pair, .life, .win, .i3c, .reeve, .counters, .freeCtr] ⊆ ps)
    (_hk : Only ps s₀ s) : Only ps s₀ (actStop i s) := by
  unfold actStop
  repeat' first
    | with_reducible assumption | with_reducible intro _ | with_reducible apply only_ite
    | with_reducible apply only_ite2 | with_reducible apply only_actClear
    | with_reducible apply only_gateLook | with_reducible apply only_modInst
    | with_reducible apply only_modUsLane | with_reducible apply only_toListen
    | refine only_snd (by assumption) ?_ | split | dsimp only
    | exact List.Subset.trans (by decide) hp | exact hp (by decide)

theorem only_actStopBody {c : Call}
    (hp : [.lots, .reasm, .us, .act, .sup, .qos, .ports, .pwr, .pair, .life, .win, .i3c, .reeve,
    .counters, .freeCtr] ⊆ ps)
    (_hk : Only ps s₀ s) : Only ps s₀ (actStopBody c s).2 := by
  unfold actStopBody
  repeat' first
    | with_reducible assumption | with_reducible intro _ | with_reducible apply only_actStop
    | with_reducible apply only_badArg | with_reducible apply only_each
    | with_reducible apply only_fixedCmd | with_reducible apply only_stOk | split
    | exact List.Subset.trans (by decide) hp

theorem only_actGetStateBody {c : Call} (_hp : [.counters] ⊆ ps)
    (_hk : Only ps s₀ s) : Only ps s₀ (actGetStateBody c s).2 := by
  unfold actGetStateBody
  repeat' first
    | with_reducible assumption | with_reducible exact fun _ h => h | with_reducible intro _
    | with_reducible apply only_readCmd

theorem only_plotsNone  (_hp : [.settings] ⊆ ps)
    (_hk : Only ps s₀ s) : Only ps s₀ (plotsNone s) := by
  unfold plotsNone
  repeat' first
    | with_reducible assumption | with_reducible intro _ | with_reducible apply only_ite
    | with_reducible apply only_each | with_reducible apply only_putSetting

theorem only_setParenting {dual : Bool}
    (hp : [.clk, .lots, .reasm, .us, .act, .sup, .qos, .ports, .pwr, .pair, .life, .win, .i3c,
    .reeve, .settings, .counters, .freeCtr] ⊆ ps)
    (_hk : Only ps s₀ s) : Only ps s₀ (setParenting dual s) := by
  unfold setParenting
  repeat' first
    | with_reducible apply only_ite | with_reducible apply only_lockLook
    | with_reducible apply only_plotsNone | with_reducible apply only_supLook | dsimp only
    | exact List.Subset.trans (by decide) hp
    | exact Only.step hp (by assumption) (fun p q => by cases p <;> first | rfl | exact absurd (by decide) q)

theorem only_actSetParentingBody {c : Call}
    (hp : [.clk, .lots, .reasm, .us, .act, .sup, .qos, .ports, .pwr, .pair, .life, .win, .i3c,
    .reeve, .settings, .counters, .freeCtr] ⊆ ps)
    (_hk : Only ps s₀ s) : Only ps s₀ (actSetParentingBody c s).2 := by
  unfold actSetParentingBody
  repeat' first
    | with_reducible assumption | with_reducible intro _ | with_reducible apply only_ite
    | with_reducible apply only_ite2 | with_reducible apply only_notInState
    | with_reducible apply only_putSetting | with_reducible apply only_requestSwitch
    | with_reducible apply only_setParenting | with_reducible apply only_settingsCmd
    | with_reducible apply only_stOk | exact List.Subset.trans (by decide) hp

/-! Operations of `CmdQos`. -/

theorem only_qosSetQueueBody {c : Call}
    (hp : [.us, .sup, .qos, .pwr, .life, .win, .i3c, .reeve, .settings, .counters, .freeCtr] ⊆ ps)
    (_hk : Only ps s₀ s) : Only ps s₀ (qosSetQueueBody c s).2 := by
  unfold qosSetQueueBody
  repeat' first
    | with_reducible assumption | with_reducible intro _ | with_reducible apply only_ite
    | with_reducible apply only_ite2 | with_reducible apply only_badArg
    | with_reducible apply only_flushQueue | with_reducible apply only_putGiven
    | with_reducible apply only_queueActivate | with_reducible apply only_settingsCmd
    | with_reducible apply only_stOk | exact List.Subset.trans (by decide) hp

theorem only_qosSetSchedBody {c : Call} (hp : [.qos, .settings] ⊆ ps)
    (_hk : Only ps s₀ s) : Only ps s₀ (qosSetSchedBody c s).2 := by
  unfold qosSetSchedBody
  repeat' first
    | with_reducible assumption | with_reducible intro _ | with_reducible apply only_ite
    | with_reducible apply only_ite2 | with_reducible apply only_badArg
    | with_reducible apply only_each | with_reducible apply only_modGroupArb
    | with_reducible apply only_modPlotArb | with_reducible apply only_putGiven
    | with_reducible apply only_settingsCmd | with_reducible apply only_stOk
    | exact List.Subset.trans (by decide) hp

theorem only_qosSetShaperBody {c : Call} (hp : [.qos, .settings] ⊆ ps)
    (_hk : Only ps s₀ s) : Only ps s₀ (qosSetShaperBody c s).2 := by
  unfold qosSetShaperBody
  repeat' first
    | with_reducible assumption | with_reducible intro _ | with_reducible apply only_ite2
    | with_reducible apply only_noResource | with_reducible apply only_putBucket
    | with_reducible apply only_putGiven | with_reducible apply only_settingsCmd
    | with_reducible apply only_stOk | exact List.Subset.trans (by decide) hp

theorem only_qosSetMeterBody {c : Call} (hp : [.qos, .settings] ⊆ ps)
    (_hk : Only ps s₀ s) : Only ps s₀ (qosSetMeterBody c s).2 := by
  unfold qosSetMeterBody
  repeat' first
    | with_reducible assumption | with_reducible intro _ | with_reducible apply only_ite2
    | with_reducible apply only_badArg | with_reducible apply only_putGiven
    | with_reducible apply only_putMeter | with_reducible apply only_settingsCmd
    | with_reducible apply only_stOk | exact List.Subset.trans (by decide) hp

theorem only_qosClear {sc : Nat} {_u1 : Bytes} (hp : [.us, .qos] ⊆ ps)
    (_hk : Only ps s₀ s) : Only ps s₀ (qosClear sc _u1 s) := by
  unfold qosClear
  repeat' first
    | with_reducible assumption | with_reducible apply only_modQueue | split | dsimp only
    | with_reducible apply only_f_qos | exact hp (by decide)

theorem only_qosGetQueueBody {c : Call} (hp : [.us, .qos, .counters] ⊆ ps)
    (_hk : Only ps s₀ s) : Only ps s₀ (qosGetQueueBody c s).2 := by
  unfold qosGetQueueBody
  repeat' first
    | with_reducible assumption | with_reducible intro _ | with_reducible apply only_ite
    | with_reducible apply only_ite2 | with_reducible apply only_qosClear
    | with_reducible apply only_readCmd | refine only_snd (by assumption) ?_ | split | dsimp only
    | exact List.Subset.trans (by decide) hp | exact hp (by decide)

/-! Operations of `CmdPort`. -/

theorem only_putPort {sc : Nat} {gs : List Given} (_hp : [.settings] ⊆ ps)
    (_hk : Only ps s₀ s) : Only ps s₀ (putPort sc gs s) := by
  unfold putPort
  repeat' first
    | with_reducible assumption | with_reducible intro _ | with_reducible apply only_ite
    | with_reducible apply only_each | with_reducible apply only_putSetting

theorem only_slFollow {l : Nat} (_hp : [.slanes] ⊆ ps)
    (_hk : Only ps s₀ s) : Only ps s₀ (slFollow l s) := by
  unfold slFollow
  repeat' first
    | with_reducible assumption | with_reducible apply only_modSLane

theorem only_portConfigureBody {c : Call}
    (hp : [.us, .sup, .qos, .ports, .slanes, .pwr, .life, .win, .i3c, .reeve, .settings, .counters, .freeCtr] ⊆ ps)
    (_hk : Only ps s₀ s) : Only ps s₀ (portConfigureBody c s).2 := by
  unfold portConfigureBody
  repeat' first
    | with_reducible assumption | with_reducible intro _ | with_reducible apply only_ite
    | with_reducible apply only_ite2 | with_reducible apply only_each
    | with_reducible apply only_badArg | with_reducible apply only_domainOn
    | with_reducible apply only_notInState | with_reducible apply only_portFlushLook
    | with_reducible apply only_portsLook | with_reducible apply only_putPort
    | with_reducible apply only_settingsCmd | with_reducible apply only_slFollow
    | with_reducible apply only_stOk | refine only_snd (by assumption) ?_ | split | dsimp only
    | exact List.Subset.trans (by decide) hp | exact hp (by decide)

theorem only_portSetFiltersBody {c : Call} (hp : [.ports] ⊆ ps)
    (_hk : Only ps s₀ s) : Only ps s₀ (portSetFiltersBody c s).2 := by
  unfold portSetFiltersBody
  repeat' first
    | with_reducible assumption | with_reducible apply only_ite2
    | with_reducible apply only_badArg | with_reducible apply only_badLength
    | with_reducible apply only_modPort | with_reducible apply only_stOk | split
    | exact List.Subset.trans (by decide) hp

theorem only_portSetSheafBody {c : Call} (hp : [.settings] ⊆ ps)
    (_hk : Only ps s₀ s) : Only ps s₀ (portSetSheafBody c s).2 := by
  unfold portSetSheafBody
  repeat' first
    | with_reducible assumption | with_reducible intro _ | with_reducible apply only_ite2
    | with_reducible apply only_badArg | with_reducible apply only_putGiven
    | with_reducible apply only_settingsCmd | with_reducible apply only_stOk
    | exact List.Subset.trans (by decide) hp

theorem only_portRead {b : CmdBody} {c : Call} (_hp : [] ⊆ ps)
    (hb : ∀ c s, Only ps s₀ s → Only ps s₀ (b c s).2) (_hk : Only ps s₀ s) :
    Only ps s₀ (portRead b c s).2 := by
  unfold portRead
  repeat' first
      | with_reducible assumption | apply hb | with_reducible apply only_ite2
      | with_reducible apply only_badArg

theorem only_portGetStatsBody {c : Call} (hp : [.counters] ⊆ ps)
    (_hk : Only ps s₀ s) : Only ps s₀ (portGetStatsBody c s).2 := by
  unfold portGetStatsBody
  repeat' first
    | with_reducible assumption | with_reducible exact fun _ h => h | with_reducible intro _
    | with_reducible apply only_portRead | with_reducible apply only_readCmd
    | exact List.Subset.trans (by decide) hp

theorem only_qosSetShaperPortBody {c : Call} (hp : [.qos, .settings] ⊆ ps)
    (_hk : Only ps s₀ s) : Only ps s₀ (qosSetShaperPortBody c s).2 := by
  unfold qosSetShaperPortBody
  repeat' first
    | with_reducible assumption | with_reducible intro _ | with_reducible apply only_portRead
    | with_reducible apply only_qosSetShaperBody | exact List.Subset.trans (by decide) hp

theorem only_grantsLook {p : Nat} {s0 : State} (hp : [.ports] ⊆ ps)
    (_hk : Only ps s₀ s) : Only ps s₀ (grantsLook p s0 s) := by
  unfold grantsLook
  repeat' first
    | with_reducible assumption | with_reducible intro _ | with_reducible apply only_ite
    | with_reducible apply only_ite2 | with_reducible apply only_modPort
    | refine only_snd (by assumption) ?_ | split | dsimp only
    | exact List.Subset.trans (by decide) hp | exact hp (by decide)

theorem only_ptpConfigurePortBody {c : Call} (hp : [.ports, .settings] ⊆ ps)
    (_hk : Only ps s₀ s) : Only ps s₀ (ptpConfigurePortBody c s).2 := by
  unfold ptpConfigurePortBody
  repeat' first
    | with_reducible assumption | with_reducible intro _ | with_reducible apply only_ite
    | with_reducible apply only_ite2 | with_reducible apply only_badArg
    | with_reducible apply only_grantsLook | with_reducible apply only_putGiven
    | with_reducible apply only_settingsCmd | with_reducible apply only_stOk
    | refine only_snd (by assumption) ?_ | split | dsimp only
    | exact List.Subset.trans (by decide) hp | exact hp (by decide)

theorem only_ptpGetPortBody {c : Call} (hp : [.counters] ⊆ ps)
    (_hk : Only ps s₀ s) : Only ps s₀ (ptpGetPortBody c s).2 := by
  unfold ptpGetPortBody
  repeat' first
    | with_reducible assumption | with_reducible exact fun _ h => h | with_reducible intro _
    | with_reducible apply only_ite2 | with_reducible apply only_badArg
    | with_reducible apply only_portRead | with_reducible apply only_readCmd
    | exact List.Subset.trans (by decide) hp

/-! Operations of `CmdTime`. -/

theorem only_slewRebase {o : Int} (_hp : [.time] ⊆ ps)
    (_hk : Only ps s₀ s) : Only ps s₀ (slewRebase o s) := by
  unfold slewRebase
  repeat' first
    | with_reducible assumption | with_reducible apply only_ite
    | with_reducible apply only_setOffset

theorem only_holdLook {d : Nat} (hp : [.sup, .time, .life, .win, .i3c, .reeve, .counters] ⊆ ps)
    (_hk : Only ps s₀ s) : Only ps s₀ (holdLook d s) := by
  unfold holdLook
  repeat' first
    | with_reducible assumption | with_reducible apply only_ite
    | with_reducible apply only_autoSelect | with_reducible apply only_modDom
    | with_reducible apply only_timeLook | exact List.Subset.trans (by decide) hp

theorem only_enableDomLook {d : Nat} (hp : [.sup, .time, .life, .win, .i3c, .reeve, .counters] ⊆ ps)
    (_hk : Only ps s₀ s) : Only ps s₀ (enableDomLook d s) := by
  unfold enableDomLook
  repeat' first
    | with_reducible assumption | with_reducible apply only_ite
    | with_reducible apply only_domDisable | with_reducible apply only_domEnable
    | exact List.Subset.trans (by decide) hp

theorem only_timeSetDomainsBody {c : Call}
    (hp : [.sup, .time, .life, .win, .i3c, .reeve, .settings, .counters] ⊆ ps)
    (_hk : Only ps s₀ s) : Only ps s₀ (timeSetDomainsBody c s).2 := by
  unfold timeSetDomainsBody
  repeat' first
    | with_reducible assumption | with_reducible intro _ | with_reducible apply only_autoSelect
    | with_reducible apply only_enableDomLook | with_reducible apply only_holdLook
    | with_reducible apply only_putGiven | with_reducible apply only_settingsCmd
    | with_reducible apply only_slewRebase | with_reducible apply only_stOk
    | exact List.Subset.trans (by decide) hp

theorem only_timeSelectBody {c : Call}
    (hp : [.sup, .time, .life, .win, .i3c, .reeve, .counters] ⊆ ps)
    (_hk : Only ps s₀ s) : Only ps s₀ (timeSelectBody c s).2 := by
  unfold timeSelectBody
  repeat' first
    | with_reducible assumption | with_reducible intro _ | with_reducible apply only_ite2
    | with_reducible apply only_badArg | with_reducible apply only_fixedCmd
    | with_reducible apply only_notInState | with_reducible apply only_selectDomain
    | with_reducible apply only_stOk | exact List.Subset.trans (by decide) hp

theorem only_timeSetAsymBody {c : Call}
    (hp : [.time, .win, .i3c, .reeve, .settings, .counters, .freeCtr] ⊆ ps)
    (_hk : Only ps s₀ s) : Only ps s₀ (timeSetAsymBody c s).2 := by
  unfold timeSetAsymBody
  repeat' first
    | with_reducible assumption | with_reducible intro _ | with_reducible apply only_fitLook
    | with_reducible apply only_putGiven | with_reducible apply only_settingsCmd
    | with_reducible apply only_stOk | exact List.Subset.trans (by decide) hp

theorem only_timeGetFitBody {c : Call} (_hp : [.counters] ⊆ ps)
    (_hk : Only ps s₀ s) : Only ps s₀ (timeGetFitBody c s).2 := by
  unfold timeGetFitBody
  repeat' first
    | with_reducible assumption | with_reducible exact fun _ h => h | with_reducible intro _
    | with_reducible apply only_readCmd

theorem only_timeSetOutputsBody {c : Call} (hp : [.time, .settings] ⊆ ps)
    (_hk : Only ps s₀ s) : Only ps s₀ (timeSetOutputsBody c s).2 := by
  unfold timeSetOutputsBody
  repeat' first
    | with_reducible assumption | with_reducible intro _ | with_reducible apply only_ite
    | with_reducible apply only_putGiven | with_reducible apply only_settingsCmd
    | with_reducible apply only_stOk | dsimp only | with_reducible apply only_f_time
    | exact List.Subset.trans (by decide) hp | exact hp (by decide)

theorem only_timeGetStatusBody {c : Call} (hp : [.counters, .freeCtr] ⊆ ps)
    (_hk : Only ps s₀ s) : Only ps s₀ (timeGetStatusBody c s).2 := by
  unfold timeGetStatusBody
  repeat' first
    | with_reducible assumption | with_reducible exact fun _ h => h | with_reducible intro _
    | with_reducible apply only_ite | with_reducible apply only_readCmd
    | with_reducible apply only_f_freeCtr | exact List.Subset.trans (by decide) hp
    | exact hp (by decide)

/-! Operations of `CmdCls`. -/

theorem only_clsLoadGraphBody {c : Call} (hp : [.cls] ⊆ ps)
    (_hk : Only ps s₀ s) : Only ps s₀ (clsLoadGraphBody c s).2 := by
  unfold clsLoadGraphBody
  repeat' first
    | with_reducible assumption | with_reducible apply only_ite2
    | with_reducible apply only_badArg | with_reducible apply only_badLength
    | with_reducible apply only_modCls | with_reducible apply only_stBusy
    | with_reducible apply only_stOk | with_reducible apply only_stPending | split
    | exact List.Subset.trans (by decide) hp

theorem only_clsSetPatternsBody {c : Call} (hp : [.cls] ⊆ ps)
    (_hk : Only ps s₀ s) : Only ps s₀ (clsSetPatternsBody c s).2 := by
  unfold clsSetPatternsBody
  repeat' first
    | with_reducible assumption | with_reducible apply only_ite2
    | with_reducible apply only_badArg | with_reducible apply only_badLength
    | with_reducible apply only_modCls | with_reducible apply only_stBusy
    | with_reducible apply only_stOk | exact List.Subset.trans (by decide) hp

theorem only_clsStageRulesBody {c : Call}
    (hp : [.sup, .cls, .life, .win, .i3c, .reeve, .counters] ⊆ ps)
    (_hk : Only ps s₀ s) : Only ps s₀ (clsStageRulesBody c s).2 := by
  unfold clsStageRulesBody
  repeat' first
    | with_reducible assumption | with_reducible apply only_ite2
    | with_reducible apply only_badLength | with_reducible apply only_bump
    | with_reducible apply only_modCls | with_reducible apply only_refuse
    | with_reducible apply only_stBusy | with_reducible apply only_stOk
    | with_reducible apply only_stPending | split | dsimp only
    | exact List.Subset.trans (by decide) hp

theorem only_clsCommitBody {c : Call} (hp : [.sup, .cls, .life, .win, .i3c, .reeve, .counters] ⊆ ps)
    (_hk : Only ps s₀ s) : Only ps s₀ (clsCommitBody c s).2 := by
  unfold clsCommitBody
  repeat' first
    | with_reducible assumption | with_reducible apply only_ite2
    | with_reducible apply only_badLength | with_reducible apply only_commitNow
    | with_reducible apply only_modCls | with_reducible apply only_stBusy
    | with_reducible apply only_stOk | with_reducible apply only_stPending | split
    | exact List.Subset.trans (by decide) hp

theorem only_clsCounts {sc a b : Nat} {p : Bytes} {f : Bool → Bool → State → State}
    (hp : [.cls] ⊆ ps) (e : clsCounts sc p t = some (a, b, f)) {x y : Bool} (h : Only ps s₀ s) :
    Only ps s₀ (f x y s) := by
  unfold clsCounts at e
  dsimp only at e
  split at e
  · cases e; exact only_modCls hp h
  · obtain ⟨l, _, e2⟩ := Option.map_eq_some_iff.1 e
    cases e2; exact only_modCls hp h

theorem only_clsGetGenerationBody {c : Call} (hp : [.cls, .counters] ⊆ ps)
    (_hk : Only ps s₀ s) : Only ps s₀ (clsGetGenerationBody c s).2 := by
  unfold clsGetGenerationBody
  repeat' first
    | with_reducible assumption | with_reducible exact fun _ h => h | with_reducible intro _
    | with_reducible apply only_ite | with_reducible apply only_ite2
    | with_reducible apply only_badArg | with_reducible apply only_readCmd
    | with_reducible apply only_stOk
    | refine only_clsCounts (List.Subset.trans (by decide) hp) (by assumption) ?_ | split
    | exact List.Subset.trans (by decide) hp

/-! Operations of `TineIsa`. -/

theorem only_aluOp {op : Nat} {th : ThreadId} {f : TFields}
    {g : BitVec 32 → BitVec 32 → BitVec 32}
    (hp : [.us, .sup, .qos, .cls, .tine, .pwr, .life, .win, .i3c, .reeve, .counters, .freeCtr] ⊆ ps)
    (_hk : Only ps s₀ s) : Only ps s₀ (aluOp op th f g s) := by
  unfold aluOp
  repeat' first
    | with_reducible assumption | with_reducible intro _ | with_reducible apply only_issue
    | exact Only.step hp (by assumption) (fun p q => by cases p <;> first | rfl | exact absurd (by decide) q)

theorem only_nextAccess  (hp : [.tine] ⊆ ps)
    (_hk : Only ps s₀ s) : Only ps s₀ (nextAccess s) := by
  unfold nextAccess
  repeat' first
    | with_reducible assumption | with_reducible intro _ | with_reducible apply only_ite
    | with_reducible apply only_ite2 | with_reducible apply only_modTine
    | refine only_snd (by assumption) ?_ | split | dsimp only
    | exact List.Subset.trans (by decide) hp | exact hp (by decide)

/-! Operations of `CmdTine`. -/

theorem only_tineLoadProgramBody {c : Call} (hp : [.tine] ⊆ ps)
    (_hk : Only ps s₀ s) : Only ps s₀ (tineLoadProgramBody c s).2 := by
  unfold tineLoadProgramBody
  repeat' first
    | with_reducible assumption | with_reducible apply only_ite2
    | with_reducible apply only_badArg | with_reducible apply only_badLength
    | with_reducible apply only_installProgram | with_reducible apply only_modTine
    | with_reducible apply only_refuse | with_reducible apply only_stDenied
    | with_reducible apply only_stOk | with_reducible apply only_stPending | split
    | exact List.Subset.trans (by decide) hp

theorem only_tineSetPermsBody {c : Call} (hp : [.tine, .settings] ⊆ ps)
    (_hk : Only ps s₀ s) : Only ps s₀ (tineSetPermsBody c s).2 := by
  unfold tineSetPermsBody
  repeat' first
    | with_reducible assumption | with_reducible intro _ | with_reducible apply only_ite2
    | with_reducible apply only_badArg | with_reducible apply only_modProg
    | with_reducible apply only_putGiven | with_reducible apply only_settingsCmd
    | with_reducible apply only_stOk | exact List.Subset.trans (by decide) hp

theorem only_faultsSeen {p : Bytes} (hp : [.tine] ⊆ ps)
    (_hk : Only ps s₀ s) : Only ps s₀ (faultsSeen p s) := by
  unfold faultsSeen
  repeat' first
    | with_reducible assumption | with_reducible intro _ | with_reducible apply only_ite
    | with_reducible apply only_ite2 | with_reducible apply only_modTine
    | refine only_snd (by assumption) ?_ | split | dsimp only
    | exact List.Subset.trans (by decide) hp | exact hp (by decide)

theorem only_tineGetFaultsBody {c : Call} (hp : [.tine, .counters] ⊆ ps)
    (_hk : Only ps s₀ s) : Only ps s₀ (tineGetFaultsBody c s).2 := by
  unfold tineGetFaultsBody
  repeat' first
    | with_reducible assumption | with_reducible intro _ | with_reducible apply only_ite
    | with_reducible apply only_ite2 | with_reducible apply only_badArg
    | with_reducible apply only_faultsSeen | with_reducible apply only_modTine
    | with_reducible apply only_readCmd | refine only_snd (by assumption) ?_ | split | dsimp only
    | exact List.Subset.trans (by decide) hp | exact hp (by decide)

theorem only_pmcClear {h t : Nat} (_hp : [.tine] ⊆ ps)
    (_hk : Only ps s₀ s) : Only ps s₀ (pmcClear h t s) := by
  unfold pmcClear
  repeat' first
    | with_reducible assumption | with_reducible apply only_modPmc

theorem only_pmcConfigureBody {c : Call} (hp : [.tine, .settings] ⊆ ps)
    (_hk : Only ps s₀ s) : Only ps s₀ (pmcConfigureBody c s).2 := by
  unfold pmcConfigureBody
  repeat' first
    | with_reducible assumption | with_reducible intro _ | with_reducible apply only_ite
    | with_reducible apply only_each | with_reducible apply only_modPmc
    | with_reducible apply only_pmcClear | with_reducible apply only_putGiven
    | with_reducible apply only_settingsCmd | with_reducible apply only_stOk
    | exact List.Subset.trans (by decide) hp

theorem only_pmcReadBody {c : Call} (hp : [.tine, .counters] ⊆ ps)
    (_hk : Only ps s₀ s) : Only ps s₀ (pmcReadBody c s).2 := by
  unfold pmcReadBody
  repeat' first
    | with_reducible assumption | with_reducible intro _ | with_reducible apply only_pmcClear
    | with_reducible apply only_readCmd | exact List.Subset.trans (by decide) hp

theorem only_pmcSampleStartBody {c : Call} (hp : [.cry, .tine, .win, .i3c, .reeve, .settings, .counters, .freeCtr] ⊆ ps)
    (_hk : Only ps s₀ s) : Only ps s₀ (pmcSampleStartBody c s).2 := by
  unfold pmcSampleStartBody
  repeat' first
    | with_reducible assumption | with_reducible intro _ | with_reducible apply only_ite
    | with_reducible apply only_ite2 | with_reducible apply only_each
    | with_reducible apply only_drawCountdown | with_reducible apply only_modSamp
    | with_reducible apply only_putGiven | with_reducible apply only_rngDraw
    | with_reducible apply only_sampFullLook | with_reducible apply only_settingsCmd
    | with_reducible apply only_stOk | refine only_snd (by assumption) ?_ | split | dsimp only
    | exact List.Subset.trans (by decide) hp | exact hp (by decide)

theorem only_pmcSampleReadBody {c : Call} (hp : [.tine, .counters] ⊆ ps)
    (_hk : Only ps s₀ s) : Only ps s₀ (pmcSampleReadBody c s).2 := by
  unfold pmcSampleReadBody
  repeat' first
    | with_reducible assumption | with_reducible intro _ | with_reducible apply only_ite2
    | with_reducible apply only_badArg | with_reducible apply only_modSamp
    | with_reducible apply only_readCmd | exact List.Subset.trans (by decide) hp

/-! Operations of `CmdSec`. -/

theorem only_cryBindSlotBody {c : Call}
    (hp : [.us, .sup, .qos, .cry, .life, .win, .i3c, .reeve, .counters] ⊆ ps)
    (_hk : Only ps s₀ s) : Only ps s₀ (cryBindSlotBody c s).2 := by
  unfold cryBindSlotBody
  repeat' first
    | with_reducible assumption | with_reducible intro _ | with_reducible apply only_ite
    | with_reducible apply only_ite2 | with_reducible apply only_badArg
    | with_reducible apply only_keysLook | with_reducible apply only_modSlot
    | with_reducible apply only_settingsCmd | with_reducible apply only_stOk
    | with_reducible apply only_startOps | split | exact List.Subset.trans (by decide) hp

theorem only_sealOp {op : Nat} {tag : BitVec 16} {o : CryOp} (hp : [.cry, .reeve] ⊆ ps)
    (_hk : Only ps s₀ s) : Only ps s₀ (sealOp op tag o s).2 := by
  unfold sealOp
  repeat' first
    | with_reducible assumption | with_reducible intro _ | with_reducible apply only_ite
    | with_reducible apply only_ite2 | with_reducible apply only_issueOp
    | with_reducible apply only_modReeve | refine only_snd (by assumption) ?_ | split | dsimp only
    | exact List.Subset.trans (by decide) hp | exact hp (by decide)

theorem only_crySealBody {c : Call} (hp : [.sup, .cry, .life, .win, .i3c, .reeve, .counters] ⊆ ps)
    (_hk : Only ps s₀ s) : Only ps s₀ (crySealBody c s).2 := by
  unfold crySealBody
  repeat' first
    | with_reducible assumption | with_reducible intro _ | with_reducible apply only_ite
    | with_reducible apply only_ite2 | with_reducible apply only_badArg
    | with_reducible apply only_badLength | with_reducible apply only_bump
    | with_reducible apply only_cryDenied | with_reducible apply only_drawNonce
    | with_reducible apply only_sealOp | refine only_snd (by assumption) ?_ | split | dsimp only
    | exact List.Subset.trans (by decide) hp | exact hp (by decide)

theorem only_cryUnsealBody {c : Call} (hp : [.sup, .cry, .life, .win, .i3c, .reeve, .counters] ⊆ ps)
    (_hk : Only ps s₀ s) : Only ps s₀ (cryUnsealBody c s).2 := by
  unfold cryUnsealBody
  repeat' first
    | with_reducible assumption | with_reducible intro _ | with_reducible apply only_ite
    | with_reducible apply only_ite2 | with_reducible apply only_badArg
    | with_reducible apply only_badLength | with_reducible apply only_bump
    | with_reducible apply only_cryDenied | with_reducible apply only_sealOp
    | refine only_snd (by assumption) ?_ | split | dsimp only
    | exact List.Subset.trans (by decide) hp | exact hp (by decide)

theorem only_cryGetSlotBody {c : Call} (_hp : [.counters] ⊆ ps)
    (_hk : Only ps s₀ s) : Only ps s₀ (cryGetSlotBody c s).2 := by
  unfold cryGetSlotBody
  repeat' first
    | with_reducible assumption | with_reducible exact fun _ h => h | with_reducible intro _
    | with_reducible apply only_readCmd

theorem only_secGetLifecycleBody {c : Call} (_hp : [] ⊆ ps)
    (_hk : Only ps s₀ s) : Only ps s₀ (secGetLifecycleBody c s).2 := by
  unfold secGetLifecycleBody
  repeat' first
    | with_reducible assumption | with_reducible intro _ | with_reducible apply only_fixedCmd
    | with_reducible apply only_stOk

theorem only_advanced {c : Call} (hp : [.reeve] ⊆ ps)
    (_hk : Only ps s₀ s) : Only ps s₀ (advanced c s).2 := by
  unfold advanced
  repeat' first
    | with_reducible assumption | with_reducible apply only_askReset
    | with_reducible apply only_stOk | exact List.Subset.trans (by decide) hp

theorem only_secAdvanceBody {took : BitVec 16} {c : Call}
    (hp : [.groups, .reasm, .toTime, .toReeve, .inQ, .us, .act, .sup, .qos, .cry, .tine, .pwr, .fuses, .sec, .life, .win, .i3c, .reeve, .counters, .freeCtr] ⊆ ps)
    (_hk : Only ps s₀ s) : Only ps s₀ (secAdvanceBody took c s).2 := by
  unfold secAdvanceBody
  repeat' first
    | with_reducible assumption | with_reducible apply only_ite2
    | with_reducible apply only_advanced | with_reducible apply only_badArg
    | with_reducible apply only_badLength | with_reducible apply only_eraseAll
    | with_reducible apply only_eraseSlots | with_reducible apply only_notInState
    | with_reducible apply only_stBusy | with_reducible apply only_stDenied | dsimp only
    | with_reducible apply only_f_fuses | exact List.Subset.trans (by decide) hp
    | exact hp (by decide)

theorem only_secDebugChallengeBody {c : Call} (hp : [.cry, .sec, .freeCtr] ⊆ ps)
    (_hk : Only ps s₀ s) : Only ps s₀ (secDebugChallengeBody c s).2 := by
  unfold secDebugChallengeBody
  repeat' first
    | with_reducible assumption | with_reducible intro _ | with_reducible apply only_ite2
    | with_reducible apply only_fixedCmd | with_reducible apply only_rngDraw
    | with_reducible apply only_stDenied | with_reducible apply only_stOk | dsimp only
    | with_reducible apply only_f_sec | exact List.Subset.trans (by decide) hp
    | exact hp (by decide)

theorem only_openDebug 
    (hp : [.groups, .reasm, .toTime, .toReeve, .inQ, .us, .act, .sup, .qos, .cry, .tine, .ports, .pwr, .pair, .sec, .life, .win, .i3c, .reeve, .counters, .freeCtr] ⊆ ps)
    (_hk : Only ps s₀ s) : Only ps s₀ (openDebug s) := by
  unfold openDebug
  repeat' first
    | with_reducible assumption | with_reducible apply only_eraseAll
    | with_reducible apply only_gateLook | with_reducible apply only_raise | split | dsimp only
    | with_reducible apply only_f_sec | exact List.Subset.trans (by decide) hp
    | exact hp (by decide)

theorem only_secDebugUnlockBody {c : Call}
    (hp : [.groups, .reasm, .toTime, .toReeve, .inQ, .us, .act, .sup, .qos, .cry, .tine, .ports, .pwr, .pair, .sec, .life, .win, .i3c, .reeve, .counters, .freeCtr] ⊆ ps)
    (_hk : Only ps s₀ s) : Only ps s₀ (secDebugUnlockBody c s).2 := by
  unfold secDebugUnlockBody
  repeat' first
    | with_reducible assumption | with_reducible apply only_ite2
    | with_reducible apply only_badLength | with_reducible apply only_notInState
    | with_reducible apply only_openDebug | with_reducible apply only_raise
    | with_reducible apply only_stBusy | with_reducible apply only_stDenied
    | with_reducible apply only_stOk | split | dsimp only | with_reducible apply only_f_sec
    | exact List.Subset.trans (by decide) hp | exact hp (by decide)

/-! Operations of `BodyOf`. -/

theorem only_bodyOf {o0 o1 : Optics} {op : Nat} {b : CmdBody} {c : Call}
    (hp : [.clk, .lanes, .groups, .lots, .reasm, .us, .act, .sup, .time, .qos, .cry, .cls, .tine,
    .ports, .slanes, .pwr, .pair, .life, .win, .i3c, .reeve, .settings, .counters, .freeCtr] ⊆ ps)
    (e : bodyOf o0 o1 op = some b) (h : Only ps s₀ s) : Only ps s₀ (b c s).2 := by
  unfold bodyOf at e
  split at e <;> cases e
  all_goals with_reducible first | exact only_lineConfigureLanesBody (List.Subset.trans (by decide) hp) h | exact only_lineSetGroupBody (List.Subset.trans (by decide) hp) h | exact only_actStartBody (List.Subset.trans (by decide) hp) h | exact only_actStopBody (List.Subset.trans (by decide) hp) h | exact only_actSetParentingBody (List.Subset.trans (by decide) hp) h | exact only_supSetActionsBody (List.Subset.trans (by decide) hp) h | exact only_supSetThresholdsBody (List.Subset.trans (by decide) hp) h | exact only_timeSetDomainsBody (List.Subset.trans (by decide) hp) h | exact only_timeSelectBody (List.Subset.trans (by decide) hp) h | exact only_portConfigureBody (List.Subset.trans (by decide) hp) h | exact only_portSetFiltersBody (List.Subset.trans (by decide) hp) h | exact only_portSetSheafBody (List.Subset.trans (by decide) hp) h | exact only_ptpConfigurePortBody (List.Subset.trans (by decide) hp) h | exact only_clsLoadGraphBody (List.Subset.trans (by decide) hp) h | exact only_clsSetPatternsBody (List.Subset.trans (by decide) hp) h | exact only_clsStageRulesBody (List.Subset.trans (by decide) hp) h | exact only_clsCommitBody (List.Subset.trans (by decide) hp) h | exact only_tineLoadProgramBody (List.Subset.trans (by decide) hp) h | exact only_tineSetPermsBody (List.Subset.trans (by decide) hp) h | exact only_qosSetQueueBody (List.Subset.trans (by decide) hp) h | exact only_qosSetSchedBody (List.Subset.trans (by decide) hp) h | exact only_qosSetShaperPortBody (List.Subset.trans (by decide) hp) h | exact only_qosSetMeterBody (List.Subset.trans (by decide) hp) h | exact only_cryBindSlotBody (List.Subset.trans (by decide) hp) h

end Sys2Proof.Machine
end

