-- ==== Sys2Proof/Laws/OnlySys.lean ====
section
/-! SUPPORT. Which parts each operation writes (`Only`): boot, registers, power, pairing, management. -/
-- One list of alternatives serves every lemma below; not every lemma uses each of them.
set_option linter.unusedTactic false
set_option linter.unreachableTactic false
namespace Sys2Proof.Machine
variable {ps : List Part} {s₀ s t : State}

/-! Operations of `Swath`. -/

theorem only_applyDeferred {o0 o1 : Optics} {sc : BitVec 48} {d : Deferred}
    (hp : [.clk, .lanes, .groups, .lots, .reasm, .us, .act, .sup, .time, .qos, .cry, .cls, .tine,
    .ports, .slanes, .pwr, .pair, .life, .win, .i3c, .reeve, .settings, .counters, .freeCtr] ⊆ ps)
    (_hk : Only ps s₀ s) : Only ps s₀ (applyDeferred o0 o1 sc d s) := by
  unfold applyDeferred
  repeat' first
    | with_reducible assumption | with_reducible apply only_ite
    | with_reducible apply only_answer | with_reducible apply only_markMgmt
    | with_reducible apply only_modReeve | with_reducible apply only_raiseTag
    | refine only_bodyOf (List.Subset.trans (by decide) hp) (by assumption) ?_ | split
    | exact List.Subset.trans (by decide) hp

/-! Operations of `Boot`. -/

theorem only_deviceReset {sys : Bool}
    (hp : [.clk, .lanes, .groups, .lots, .reasm, .toTime, .toReeve, .inQ, .us, .act, .sup, .time,
    .qos, .cry, .cls, .tine, .ports, .slanes, .pwr, .pair, .fuses, .sec, .flash, .life, .pins,
    .win, .i3c, .reeve, .settings, .counters, .freeCtr] ⊆ ps)
    (_hk : Only ps s₀ s) : Only ps s₀ (deviceReset sys s)
      := fun p q => absurd (hp (by cases p <;> decide)) q

theorem only_restoreBins  (hp : [.sup, .life] ⊆ ps)
    (_hk : Only ps s₀ s) : Only ps s₀ (restoreBins s) := by
  unfold restoreBins
  repeat' first
    | with_reducible assumption | with_reducible apply only_storeDay | split | dsimp only
    | with_reducible apply only_f_sup | exact List.Subset.trans (by decide) hp
    | exact hp (by decide)

theorem only_romStart {sys : Bool} (hp : [.sec, .life, .pins] ⊆ ps)
    (_hk : Only ps s₀ s) : Only ps s₀ (romStart sys s) := by
  unfold romStart
  repeat' first
    | split | dsimp only
    | exact Only.step hp (by assumption) (fun p q => by cases p <;> first | rfl | exact absurd (by decide) q)

theorem only_bootUp {sys : Bool}
    (hp : [.sup, .sec, .life, .pins, .win, .i3c, .reeve, .counters] ⊆ ps)
    (_hk : Only ps s₀ s) : Only ps s₀ (bootUp sys s) := by
  unfold bootUp
  repeat' first
    | with_reducible assumption | with_reducible apply only_ite
    | with_reducible apply only_raise | with_reducible apply only_restoreBins
    | with_reducible apply only_romStart | exact List.Subset.trans (by decide) hp

theorem only_sysReset 
    (hp : [.clk, .lanes, .groups, .lots, .reasm, .toTime, .toReeve, .inQ, .us, .act, .sup, .time,
    .qos, .cry, .cls, .tine, .ports, .slanes, .pwr, .pair, .fuses, .sec, .flash, .life, .pins,
    .win, .i3c, .reeve, .settings, .counters, .freeCtr] ⊆ ps)
    (_hk : Only ps s₀ s) : Only ps s₀ (sysReset s)
      := fun p q => absurd (hp (by cases p <;> decide)) q

theorem only_enterReset 
    (hp : [.clk, .lanes, .groups, .lots, .reasm, .toTime, .toReeve, .inQ, .us, .act, .sup, .time,
    .qos, .cry, .cls, .tine, .ports, .slanes, .pwr, .pair, .fuses, .sec, .flash, .life, .pins,
    .win, .i3c, .reeve, .settings, .counters, .freeCtr] ⊆ ps)
    (_hk : Only ps s₀ s) : Only ps s₀ (enterReset s)
      := fun p q => absurd (hp (by cases p <;> decide)) q

theorem only_releaseReset 
    (hp : [.clk, .lanes, .groups, .lots, .reasm, .toTime, .toReeve, .inQ, .us, .act, .sup, .time,
    .qos, .cry, .cls, .tine, .ports, .slanes, .pwr, .pair, .fuses, .sec, .flash, .life, .pins,
    .win, .i3c, .reeve, .settings, .counters, .freeCtr] ⊆ ps)
    (_hk : Only ps s₀ s) : Only ps s₀ (releaseReset s)
      := fun p q => absurd (hp (by cases p <;> decide)) q

theorem only_setBoot {v : BitVec 8} (hp : [.win, .i3c] ⊆ ps)
    (_hk : Only ps s₀ s) : Only ps s₀ (setBoot v s) := by
  unfold setBoot
  repeat' first
    | with_reducible assumption | with_reducible apply only_ite
    | with_reducible apply only_setInt | dsimp only | with_reducible apply only_f_win
    | exact hp (by decide)

theorem only_bootTake {img fallback : Bool} {fw : BitVec 32} {a b : Nat} (hp : [.cls, .win] ⊆ ps)
    (_hk : Only ps s₀ s) : Only ps s₀ (bootTake img fallback fw a b s) := by
  unfold bootTake
  repeat' first
    | dsimp only
    | exact Only.step hp (by assumption) (fun p q => by cases p <;> first | rfl | exact absurd (by decide) q)

theorem only_bootReady {img fallback : Bool} {fw : BitVec 32}
    (hp : [.cry, .cls, .tine, .win, .i3c, .settings, .freeCtr] ⊆ ps)
    (_hk : Only ps s₀ s) : Only ps s₀ (bootReady img fallback fw s) := by
  unfold bootReady
  repeat' first
    | with_reducible assumption | with_reducible intro _ | with_reducible apply only_ite
    | with_reducible apply only_ite2 | with_reducible apply only_bootTake
    | with_reducible apply only_rngDraw | with_reducible apply only_setBoot
    | with_reducible apply only_vendorPrograms | refine only_snd (by assumption) ?_ | split
    | dsimp only | exact List.Subset.trans (by decide) hp | exact hp (by decide)

/-! Operations of `Window`. -/

theorem only_modI3c {f : I3c → I3c} (hp : [.i3c] ⊆ ps)
    (_hk : Only ps s₀ s) : Only ps s₀ (modI3c f s) := by
  unfold modI3c
  repeat' first
    | with_reducible assumption | with_reducible apply only_f_i3c | exact hp (by decide)

theorem only_i3cAnswer {b : Bytes} (_hp : [.i3c] ⊆ ps)
    (_hk : Only ps s₀ s) : Only ps s₀ (i3cAnswer b s) := by
  unfold i3cAnswer
  repeat' first
    | with_reducible assumption | with_reducible apply only_modI3c

theorem only_mbInWrite {v : BitVec 8} (_hp : [.win] ⊆ ps)
    (_hk : Only ps s₀ s) : Only ps s₀ (mbInWrite v s) := by
  unfold mbInWrite
  repeat' first
    | with_reducible assumption | with_reducible apply only_ite
    | with_reducible apply only_modWin

theorem only_mbOutRead  (hp : [.win, .i3c] ⊆ ps)
    (_hk : Only ps s₀ s) : Only ps s₀ (mbOutRead s) := by
  unfold mbOutRead
  repeat' first
    | with_reducible assumption | with_reducible apply only_modI3c
    | with_reducible apply only_modWin | exact List.Subset.trans (by decide) hp

theorem only_doorbell  (_hp : [.win] ⊆ ps)
    (_hk : Only ps s₀ s) : Only ps s₀ (doorbell s) := by
  unfold doorbell
  repeat' first
    | with_reducible assumption | with_reducible apply only_ite
    | with_reducible apply only_modWin

theorem only_commandedReset 
    (hp : [.clk, .lanes, .groups, .lots, .reasm, .toTime, .toReeve, .inQ, .us, .act, .sup, .time,
    .qos, .cry, .cls, .tine, .ports, .slanes, .pwr, .pair, .fuses, .sec, .flash, .life, .pins,
    .win, .i3c, .reeve, .settings, .counters, .freeCtr] ⊆ ps)
    (_hk : Only ps s₀ s) : Only ps s₀ (commandedReset s)
      := fun p q => absurd (hp (by cases p <;> decide)) q

theorem only_respAck 
    (hp : [.clk, .lanes, .groups, .lots, .reasm, .toTime, .toReeve, .inQ, .us, .act, .sup, .time,
    .qos, .cry, .cls, .tine, .ports, .slanes, .pwr, .pair, .fuses, .sec, .flash, .life, .pins,
    .win, .i3c, .reeve, .settings, .counters, .freeCtr] ⊆ ps)
    (_hk : Only ps s₀ s) : Only ps s₀ (respAck s)
      := fun p q => absurd (hp (by cases p <;> decide)) q

theorem only_popEvent  (hp : [.win, .i3c, .reeve] ⊆ ps)
    (_hk : Only ps s₀ s) : Only ps s₀ (popEvent s) := by
  unfold popEvent
  repeat' first
    | with_reducible assumption | with_reducible apply only_ite
    | with_reducible apply only_modReeve | with_reducible apply only_pushEvent | split
    | exact List.Subset.trans (by decide) hp

theorem only_clearInt {bits : BitVec 5} (hp : [.win, .i3c] ⊆ ps)
    (_hk : Only ps s₀ s) : Only ps s₀ (clearInt bits s) := by
  unfold clearInt
  repeat' first
    | with_reducible assumption | with_reducible apply only_modI3c
    | with_reducible apply only_modWin | exact List.Subset.trans (by decide) hp

theorem only_winCommit  (hp : [.win, .i3c] ⊆ ps)
    (_hk : Only ps s₀ s) : Only ps s₀ (winCommit s) := by
  unfold winCommit
  repeat' first
    | with_reducible assumption | with_reducible apply only_modI3c
    | with_reducible apply only_modWin | with_reducible apply only_requestIbi
    | exact List.Subset.trans (by decide) hp

theorem only_restartReeve 
    (hp : [.clk, .lanes, .groups, .lots, .reasm, .toTime, .toReeve, .inQ, .us, .act, .sup, .time,
    .qos, .cry, .cls, .tine, .ports, .slanes, .pwr, .pair, .fuses, .sec, .flash, .life, .pins,
    .win, .i3c, .reeve, .settings, .counters, .freeCtr] ⊆ ps)
    (_hk : Only ps s₀ s) : Only ps s₀ (restartReeve s)
      := fun p q => absurd (hp (by cases p <;> decide)) q

theorem only_windowWrite {a v : BitVec 8}
    (hp : [.clk, .lanes, .groups, .lots, .reasm, .toTime, .toReeve, .inQ, .us, .act, .sup, .time,
    .qos, .cry, .cls, .tine, .ports, .slanes, .pwr, .pair, .fuses, .sec, .flash, .life, .pins,
    .win, .i3c, .reeve, .settings, .counters, .freeCtr] ⊆ ps)
    (_hk : Only ps s₀ s) : Only ps s₀ (windowWrite a v s)
      := fun p q => absurd (hp (by cases p <;> decide)) q

/-! Operations of `CmdLife`. -/

theorem only_lifeReadBody {c : Call} (_hp : [] ⊆ ps)
    (_hk : Only ps s₀ s) : Only ps s₀ (lifeReadBody c s).2 := by
  unfold lifeReadBody
  repeat' first
    | with_reducible assumption | with_reducible intro _ | with_reducible apply only_badArg
    | with_reducible apply only_fixedCmd | with_reducible apply only_stOk | split

theorem only_lifeGetSummaryBody {c : Call} (hp : [.life] ⊆ ps)
    (_hk : Only ps s₀ s) : Only ps s₀ (lifeGetSummaryBody c s).2 := by
  unfold lifeGetSummaryBody
  repeat' first
    | with_reducible assumption | with_reducible intro _ | with_reducible apply only_fixedCmd
    | with_reducible apply only_stOk | exact List.Subset.trans (by decide) hp

theorem only_lifeMarkBody {misreads : List Bool} {c : Call} (hp : [.life] ⊆ ps)
    (_hk : Only ps s₀ s) : Only ps s₀ (lifeMarkBody misreads c s).2 := by
  unfold lifeMarkBody
  repeat' first
    | with_reducible assumption | with_reducible intro _ | with_reducible apply only_ite
    | with_reducible apply only_ite2 | with_reducible apply only_fixedCmd
    | with_reducible apply only_stBusy | with_reducible apply only_stOk
    | refine only_snd (by assumption) ?_ | split | dsimp only | with_reducible apply only_f_life
    | exact List.Subset.trans (by decide) hp | exact hp (by decide)

/-! Operations of `PwrBanks`. -/

theorem only_dropSettings {p : Nat → Nat → Nat → Bool} (hp : [.settings] ⊆ ps)
    (_hk : Only ps s₀ s) : Only ps s₀ (dropSettings p s) := by
  unfold dropSettings
  repeat' first
    | with_reducible assumption | dsimp only | with_reducible apply only_f_settings
    | exact hp (by decide)

theorem only_dropCounters {p : Nat → Nat → Bool} (hp : [.counters] ⊆ ps)
    (_hk : Only ps s₀ s) : Only ps s₀ (dropCounters p s) := by
  unfold dropCounters
  repeat' first
    | with_reducible assumption | with_reducible apply only_f_counters | exact hp (by decide)

theorem only_clearAonLine
    (hp : [.clk, .lanes, .groups, .lots, .reasm, .toTime, .us, .act, .sup, .time, .qos, .pwr,
    .pair, .life, .win, .i3c, .reeve, .settings, .counters,
    .freeCtr] ⊆ ps) (hk : Only ps s₀ s) : Only ps s₀ (clearAonLine s) := by
  unfold clearAonLine
  exact only_roleOutLook (List.Subset.trans (by decide) hp) (only_supLook (List.Subset.trans (by decide) hp)
    (only_refLook (List.Subset.trans (by decide) hp) (only_each (fun _ _ h =>
      only_domDisable (List.Subset.trans (by decide) hp)
        (only_putSetting (List.Subset.trans (by decide) hp) h)) (only_each
      (fun _ _ h => only_modLane (List.Subset.trans (by decide) hp) h)
      (Only.step (qs := [.lanes, .groups, .lots, .reasm, .toTime, .us, .act, .sup, .time])
        (List.Subset.trans (by decide) hp) (only_freeBushels (List.Subset.trans (by decide) hp)
          (only_dropSettings (List.Subset.trans (by decide) hp) hk))
        (fun p q => by cases p <;> first | rfl | exact absurd (by decide) q))))))

theorem only_clearReeve  (hp : [.sup, .tine, .pwr, .win, .reeve] ⊆ ps)
    (hk : Only ps s₀ s) : Only ps s₀ (clearReeve s) := by
  unfold clearReeve
  have h2 : Only ps s₀ (modWin (fun w => { w with rung := false }) (modReeve (fun v => { v with
      taken := [], responses := [], deferred := [], sealing := [], mgmt0 := [], mgmt1 := [] }) s)) :=
    only_modWin (List.Subset.trans (by decide) hp)
      (only_modReeve (List.Subset.trans (by decide) hp) hk)
  dsimp only
  generalize modWin (fun w => { w with rung := false }) (modReeve (fun v => { v with
      taken := [], responses := [], deferred := [], sealing := [], mgmt0 := [], mgmt1 := [] }) s) = s2
    at h2 ⊢
  exact only_busyLook (List.Subset.trans (by decide) hp)
    (Only.step (qs := [.sup, .tine, .pwr]) (List.Subset.trans (by decide) hp) h2
      (fun p q => by cases p <;> first | rfl | exact absurd (by decide) q))

theorem only_clearLane {rx : Bool} {l : Nat}
    (hp : [.clk, .lanes, .groups, .lots, .reasm, .us, .act, .sup, .qos, .ports, .pwr, .pair, .life, .win, .i3c, .reeve, .settings, .counters, .freeCtr] ⊆ ps)
    (_hk : Only ps s₀ s) : Only ps s₀ (clearLane rx l s) := by
  unfold clearLane
  repeat' first
    | with_reducible assumption | with_reducible intro _ | with_reducible apply only_ite
    | with_reducible apply only_ite2 | with_reducible apply only_disableLane
    | with_reducible apply only_dropSettings | with_reducible apply only_gateLook
    | with_reducible apply only_lockLook | with_reducible apply only_modLane
    | with_reducible apply only_modUsLane | with_reducible apply only_roleOutLook
    | with_reducible apply only_supLook | refine only_snd (by assumption) ?_ | split | dsimp only
    | exact List.Subset.trans (by decide) hp | exact hp (by decide)

theorem only_clearQuad {q : Nat}
    (hp : [.qos, .ports, .slanes, .pwr, .settings, .counters, .freeCtr] ⊆ ps)
    (_hk : Only ps s₀ s) : Only ps s₀ (clearQuad q s) := by
  unfold clearQuad
  repeat' first
    | with_reducible assumption | with_reducible intro _
    | with_reducible apply only_dropCounters | with_reducible apply only_dropSettings
    | with_reducible apply only_each | with_reducible apply only_freeBushels
    | with_reducible apply only_modPort | with_reducible apply only_modSLane
    | exact List.Subset.trans (by decide) hp

theorem only_clearCls  (hp : [.cls] ⊆ ps)
    (_hk : Only ps s₀ s) : Only ps s₀ (clearCls s) := by
  unfold clearCls
  repeat' first
    | with_reducible assumption | with_reducible apply only_f_cls | exact hp (by decide)

theorem only_clearMeters  (hp : [.qos, .settings] ⊆ ps)
    (_hk : Only ps s₀ s) : Only ps s₀ (clearMeters s) := by
  unfold clearMeters
  repeat' first
    | with_reducible assumption | with_reducible apply only_dropSettings | dsimp only
    | with_reducible apply only_f_qos | exact List.Subset.trans (by decide) hp
    | exact hp (by decide)

theorem only_clearCrypto 
    (hp : [.groups, .reasm, .toTime, .toReeve, .inQ, .us, .act, .sup, .qos, .cry, .tine, .pwr, .life, .win, .i3c, .reeve, .counters, .freeCtr] ⊆ ps)
    (_hk : Only ps s₀ s) : Only ps s₀ (clearCrypto s) := by
  unfold clearCrypto
  repeat' first
    | with_reducible assumption | with_reducible intro _ | with_reducible apply only_ite
    | with_reducible apply only_ite2 | with_reducible apply only_each
    | with_reducible apply only_eraseAll | with_reducible apply only_keysLook
    | with_reducible apply only_modSlot | refine only_snd (by assumption) ?_ | split | dsimp only
    | with_reducible apply only_f_cry | exact List.Subset.trans (by decide) hp
    | exact hp (by decide)

theorem only_clearHarrow {h : Nat} (hp : [.tine, .counters] ⊆ ps)
    (_hk : Only ps s₀ s) : Only ps s₀ (clearHarrow h s) := by
  unfold clearHarrow
  repeat' first
    | with_reducible assumption | with_reducible intro _
    | with_reducible apply only_dropCounters | with_reducible apply only_each
    | with_reducible apply only_modPmc | with_reducible apply only_f_tine
    | exact List.Subset.trans (by decide) hp | exact hp (by decide)

theorem only_unloadPrograms  (_hp : [.tine] ⊆ ps)
    (_hk : Only ps s₀ s) : Only ps s₀ (unloadPrograms s) := by
  unfold unloadPrograms
  repeat' first
    | with_reducible assumption | with_reducible apply only_modTine

theorem only_loseFrames {ds : Bool} {q : Nat}
    (hp : [.us, .sup, .qos, .pwr, .life, .win, .i3c, .reeve, .counters, .freeCtr] ⊆ ps)
    (_hk : Only ps s₀ s) : Only ps s₀ (loseFrames ds q s) := by
  unfold loseFrames
  repeat' first
    | with_reducible assumption | with_reducible apply only_bump
    | with_reducible apply only_freeBushels | with_reducible apply only_modQueue
    | with_reducible apply only_f_freeCtr | exact List.Subset.trans (by decide) hp
    | exact hp (by decide)

theorem only_loseReasm {id : Nat}
    (hp : [.reasm, .sup, .qos, .pwr, .life, .win, .i3c, .reeve, .counters, .freeCtr] ⊆ ps)
    (_hk : Only ps s₀ s) : Only ps s₀ (loseReasm id s) := by
  unfold loseReasm
  repeat' first
    | with_reducible assumption | with_reducible apply only_ite | with_reducible apply only_bump
    | with_reducible apply only_drawn | with_reducible apply only_dropReasm
    | exact List.Subset.trans (by decide) hp

theorem only_clearBuf 
    (hp : [.reasm, .us, .sup, .qos, .pwr, .life, .win, .i3c, .reeve, .counters, .freeCtr] ⊆ ps)
    (_hk : Only ps s₀ s) : Only ps s₀ (clearBuf s) := by
  unfold clearBuf
  repeat' first
    | with_reducible assumption | with_reducible intro _ | with_reducible apply only_each
    | with_reducible apply only_loseFrames | with_reducible apply only_loseReasm
    | exact List.Subset.trans (by decide) hp

theorem only_bankFail {k : Nat}
    (hp : [.clk, .lanes, .groups, .lots, .reasm, .toTime, .toReeve, .inQ, .us, .act, .sup, .time, .qos, .cry, .cls, .tine, .ports, .slanes, .pwr, .pair, .life, .win, .i3c, .reeve, .settings, .counters, .freeCtr] ⊆ ps)
    (_hk : Only ps s₀ s) : Only ps s₀ (bankFail k s) := by
  unfold bankFail
  repeat' first
    | with_reducible assumption | with_reducible apply only_ite | with_reducible apply only_bump
    | with_reducible apply only_clearAonLine | with_reducible apply only_clearBuf
    | with_reducible apply only_clearCls | with_reducible apply only_clearCrypto
    | with_reducible apply only_clearHarrow | with_reducible apply only_clearLane
    | with_reducible apply only_clearMeters | with_reducible apply only_clearQuad
    | with_reducible apply only_clearReeve | with_reducible apply only_dropSettings
    | with_reducible apply only_modPair | with_reducible apply only_raise | dsimp only
    | with_reducible apply only_f_life | exact List.Subset.trans (by decide) hp
    | exact hp (by decide)

theorem only_failBanks {failed d : BitVec 64}
    (hp : [.clk, .lanes, .groups, .lots, .reasm, .toTime, .toReeve, .inQ, .us, .act, .sup, .time, .qos, .cry, .cls, .tine, .ports, .slanes, .pwr, .pair, .life, .win, .i3c, .reeve, .settings, .counters, .freeCtr] ⊆ ps)
    (_hk : Only ps s₀ s) : Only ps s₀ (failBanks failed d s) := by
  unfold failBanks
  repeat' first
    | with_reducible assumption | with_reducible intro _ | with_reducible apply only_ite
    | with_reducible apply only_bankFail | with_reducible apply only_each
    | with_reducible apply only_unloadPrograms | exact List.Subset.trans (by decide) hp

/-! Operations of `Snap`. -/

theorem only_snapDom {sc : BitVec 48} {d : Nat} {x : Dom × Option Int} (_hp : [.time] ⊆ ps)
    (_hk : Only ps s₀ s) : Only ps s₀ (snapDom sc d x s) := by
  unfold snapDom
  repeat' first
    | with_reducible assumption | with_reducible apply only_modDom | split

theorem only_snapLane {l : Nat} {g : Option (BitVec 2)}
    (hp : [.clk, .lanes, .groups, .lots, .reasm, .us, .act, .sup, .qos, .ports, .pwr, .pair,
    .life, .win, .i3c, .reeve, .counters, .freeCtr] ⊆ ps)
    (_hk : Only ps s₀ s) : Only ps s₀ (snapLane l g s) := by
  unfold snapLane
  repeat' first
    | with_reducible assumption | with_reducible apply only_ite
    | with_reducible apply only_assignGroup | with_reducible apply only_disableLane
    | with_reducible apply only_domainOn | with_reducible apply only_enableLane | split
    | exact List.Subset.trans (by decide) hp

theorem only_snapSettings {x : Snap} (hp : [.settings] ⊆ ps)
    (_hk : Only ps s₀ s) : Only ps s₀ (snapSettings x s) := by
  unfold snapSettings
  repeat' first
    | with_reducible assumption | dsimp only | with_reducible apply only_f_settings
    | exact hp (by decide)

theorem only_snapAct {x : Snap}
    (hp : [.lots, .reasm, .us, .act, .sup, .qos, .pwr, .life, .win, .i3c, .reeve, .counters,
    .freeCtr] ⊆ ps) (hk : Only ps s₀ s) : Only ps s₀ (snapAct x s) :=
  Only.step (qs := [.act, .lots]) (List.Subset.trans (by decide) hp) (only_each
    (fun _ _ h => only_removeLot (List.Subset.trans (by decide) hp) h)
    (only_setUsMode (List.Subset.trans (by decide) hp) hk))
    (fun p q => by cases p <;> first | rfl | exact absurd (by decide) q)

theorem only_snapTables {x : Snap}
    (hp : [.sup, .cls, .tine, .life, .win, .i3c, .reeve, .counters] ⊆ ps)
    (_hk : Only ps s₀ s) : Only ps s₀ (snapTables x s) := by
  unfold snapTables
  repeat' first
    | with_reducible apply only_bump | split | dsimp only
    | exact List.Subset.trans (by decide) hp
    | exact Only.step hp (by assumption) (fun p q => by cases p <;> first | rfl | exact absurd (by decide) q)

theorem only_snapEmpty {ds : Bool} {q : Nat}
    (_hp : [.us, .sup, .qos, .pwr, .life, .win, .i3c, .reeve, .counters, .freeCtr] ⊆ ps)
    (_hk : Only ps s₀ s) : Only ps s₀ (snapEmpty ds q s) := by
  unfold snapEmpty
  repeat' first
    | with_reducible assumption | with_reducible apply only_ite
    | with_reducible apply only_flushQueue

theorem only_applySnap {o0 o1 : Optics} {x : Snap}
    (hp : [.clk, .lanes, .groups, .lots, .reasm, .us, .act, .sup, .time, .qos, .cry, .cls, .tine,
    .ports, .pwr, .pair, .life, .win, .i3c, .reeve, .settings, .counters, .freeCtr] ⊆ ps)
    (_hk : Only ps s₀ s) : Only ps s₀ (applySnap o0 o1 x s) := by
  unfold applySnap
  repeat' first
    | with_reducible assumption | with_reducible intro _ | with_reducible apply only_ite
    | with_reducible apply only_each | with_reducible apply only_enableLtx
    | with_reducible apply only_keysLook | with_reducible apply only_lockLook
    | with_reducible apply only_modPair | with_reducible apply only_modPort
    | with_reducible apply only_modSlot | with_reducible apply only_modUsLane
    | with_reducible apply only_portsLook | with_reducible apply only_putFit
    | with_reducible apply only_selectDomain | with_reducible apply only_snapAct
    | with_reducible apply only_snapDom | with_reducible apply only_snapEmpty
    | with_reducible apply only_snapLane | with_reducible apply only_snapSettings
    | with_reducible apply only_snapTables | with_reducible apply only_startOps
    | with_reducible apply only_supLook | exact List.Subset.trans (by decide) hp

/-! Operations of `PairOps`. -/

theorem only_startLease  (_hp : [.pair] ⊆ ps)
    (_hk : Only ps s₀ s) : Only ps s₀ (startLease s) := by
  unfold startLease
  repeat' first
    | with_reducible assumption | with_reducible apply only_modPair

theorem only_raiseGap  (_hp : [.win, .i3c, .reeve, .counters] ⊆ ps)
    (_hk : Only ps s₀ s) : Only ps s₀ (raiseGap s) := by
  unfold raiseGap
  repeat' first
    | with_reducible assumption | with_reducible apply only_raise

theorem only_gapLook {fw : BitVec 32} (_hp : [.pair] ⊆ ps)
    (_hk : Only ps s₀ s) : Only ps s₀ (gapLook fw s) := by
  unfold gapLook
  repeat' first
    | with_reducible assumption | with_reducible apply only_modPair

theorem only_dropClaim  (_hp : [.pair] ⊆ ps)
    (_hk : Only ps s₀ s) : Only ps s₀ (dropClaim s) := by
  unfold dropClaim
  repeat' first
    | with_reducible assumption | with_reducible apply only_modPair

theorem only_tetherIn {ok : Bool} {f : State → State}
    (_hp : [.sup, .life, .win, .i3c, .reeve, .counters] ⊆ ps)
    (hf : ∀ s, Only ps s₀ s → Only ps s₀ (f s)) (_hk : Only ps s₀ s) :
    Only ps s₀ (tetherIn ok f s) := by
  unfold tetherIn
  repeat' first
      | with_reducible assumption | apply hf | with_reducible apply only_ite
      | with_reducible apply only_bump

theorem only_startAttempt  (_hp : [.pair] ⊆ ps)
    (_hk : Only ps s₀ s) : Only ps s₀ (startAttempt s) := by
  unfold startAttempt
  repeat' first
    | with_reducible assumption | with_reducible apply only_ite
    | with_reducible apply only_modPair | with_reducible apply only_tetherSend

theorem only_rejoinFails 
    (hp : [.us, .sup, .qos, .ports, .pwr, .pair, .life, .win, .i3c, .reeve, .counters,
    .freeCtr] ⊆ ps)
    (_hk : Only ps s₀ s) : Only ps s₀ (rejoinFails s) := by
  unfold rejoinFails
  repeat' first
    | with_reducible assumption | with_reducible apply only_bump
    | with_reducible apply only_modPair | with_reducible apply only_raise
    | with_reducible apply only_setPair | exact List.Subset.trans (by decide) hp

theorem only_failAttempt 
    (hp : [.us, .sup, .qos, .ports, .pwr, .pair, .life, .win, .i3c, .reeve, .counters,
    .freeCtr] ⊆ ps)
    (_hk : Only ps s₀ s) : Only ps s₀ (failAttempt s) := by
  unfold failAttempt
  repeat' first
    | with_reducible assumption | with_reducible apply only_ite
    | with_reducible apply only_rejoinFails | with_reducible apply only_startAttempt
    | exact List.Subset.trans (by decide) hp

theorem only_startRejoin 
    (hp : [.us, .sup, .qos, .ports, .pwr, .pair, .life, .win, .i3c, .reeve, .counters,
    .freeCtr] ⊆ ps)
    (_hk : Only ps s₀ s) : Only ps s₀ (startRejoin s) := by
  unfold startRejoin
  repeat' first
    | with_reducible assumption | with_reducible apply only_modPair
    | with_reducible apply only_setPair | with_reducible apply only_startAttempt
    | exact List.Subset.trans (by decide) hp

theorem only_rejoinLook 
    (_hp : [.us, .sup, .qos, .ports, .pwr, .pair, .life, .win, .i3c, .reeve, .counters,
    .freeCtr] ⊆ ps)
    (_hk : Only ps s₀ s) : Only ps s₀ (rejoinLook s) := by
  unfold rejoinLook
  repeat' first
    | with_reducible assumption | with_reducible apply only_ite
    | with_reducible apply only_startRejoin

theorem only_noAck {h : Held} (hp : [.act, .sup, .pair, .life, .win, .i3c, .reeve, .counters] ⊆ ps)
    (_hk : Only ps s₀ s) : Only ps s₀ (noAck h s) := by
  unfold noAck
  repeat' first
    | with_reducible assumption | with_reducible apply only_answer
    | with_reducible apply only_bump | with_reducible apply only_modPair
    | exact List.Subset.trans (by decide) hp

theorem only_tetherFall 
    (hp : [.us, .act, .sup, .qos, .ports, .pwr, .pair, .life, .win, .i3c, .reeve, .counters,
    .freeCtr] ⊆ ps)
    (_hk : Only ps s₀ s) : Only ps s₀ (tetherFall s) := by
  unfold tetherFall
  repeat' first
    | with_reducible assumption | with_reducible intro _ | with_reducible apply only_ite
    | with_reducible apply only_bump | with_reducible apply only_each
    | with_reducible apply only_failAttempt | with_reducible apply only_modPair
    | with_reducible apply only_noAck | with_reducible apply only_raise
    | exact List.Subset.trans (by decide) hp

theorem only_tetherRise 
    (hp : [.us, .sup, .qos, .ports, .pwr, .pair, .life, .win, .i3c, .reeve, .counters,
    .freeCtr] ⊆ ps)
    (_hk : Only ps s₀ s) : Only ps s₀ (tetherRise s) := by
  unfold tetherRise
  repeat' first
    | with_reducible assumption | with_reducible apply only_ite
    | with_reducible apply only_modPair | with_reducible apply only_raise
    | with_reducible apply only_rejoinLook | with_reducible apply only_startAttempt
    | exact List.Subset.trans (by decide) hp

theorem only_dropSent {i : Nat} {last : BitVec 8} (_hp : [.act] ⊆ ps)
    (_hk : Only ps s₀ s) : Only ps s₀ (dropSent i last s) := by
  unfold dropSent
  repeat' first
    | with_reducible assumption | with_reducible apply only_modInst

theorem only_wiringLook {b : HealthBody} (hp : [.pair, .win, .i3c, .reeve, .counters] ⊆ ps)
    (_hk : Only ps s₀ s) : Only ps s₀ (wiringLook b s) := by
  unfold wiringLook
  repeat' first
    | with_reducible assumption | with_reducible apply only_ite
    | with_reducible apply only_modPair | with_reducible apply only_raise
    | exact List.Subset.trans (by decide) hp

theorem only_digestLook {b : HealthBody}
    (hp : [.us, .sup, .qos, .ports, .pwr, .pair, .life, .win, .i3c, .reeve, .counters,
    .freeCtr] ⊆ ps)
    (_hk : Only ps s₀ s) : Only ps s₀ (digestLook b s) := by
  unfold digestLook
  repeat' first
    | with_reducible assumption | with_reducible apply only_ite | with_reducible apply only_bump
    | with_reducible apply only_modPair | with_reducible apply only_raise
    | with_reducible apply only_rejoinFails | exact List.Subset.trans (by decide) hp

theorem only_takeOffset {d : Int} (hp : [.pair, .win, .i3c, .reeve, .counters] ⊆ ps)
    (_hk : Only ps s₀ s) : Only ps s₀ (takeOffset d s) := by
  unfold takeOffset
  repeat' first
    | with_reducible assumption | with_reducible apply only_ite
    | with_reducible apply only_modPair | with_reducible apply only_raise
    | exact List.Subset.trans (by decide) hp

/-! Operations of `Power`. -/

theorem only_queueNotice {target : PwrState} {abandoned : Bool} {source i : Nat}
    (_hp : [.act, .sup, .life, .win, .i3c, .reeve, .counters] ⊆ ps)
    (_hk : Only ps s₀ s) : Only ps s₀ (queueNotice target abandoned source i s) := by
  unfold queueNotice
  repeat' first
    | with_reducible assumption | with_reducible apply only_queueMsg

theorem only_withdrawNotice {i : Nat} (_hp : [.act] ⊆ ps)
    (_hk : Only ps s₀ s) : Only ps s₀ (withdrawNotice i s) := by
  unfold withdrawNotice
  repeat' first
    | with_reducible assumption | with_reducible apply only_modInst

theorem only_startNotices {target : PwrState}
    (hp : [.act, .sup, .pwr, .life, .win, .i3c, .reeve, .counters] ⊆ ps)
    (_hk : Only ps s₀ s) : Only ps s₀ (startNotices target s) := by
  unfold startNotices
  repeat' first
    | with_reducible assumption | with_reducible intro _ | with_reducible apply only_ite
    | with_reducible apply only_bump | with_reducible apply only_each
    | with_reducible apply only_modPwr | with_reducible apply only_queueNotice
    | exact List.Subset.trans (by decide) hp

theorem only_enterState {target : PwrState} {tag : BitVec 16}
    (hp : [.act, .sup, .pwr, .life, .win, .i3c, .reeve, .counters] ⊆ ps)
    (_hk : Only ps s₀ s) : Only ps s₀ (enterState target tag s) := by
  unfold enterState
  repeat' first
    | with_reducible assumption | with_reducible apply only_ite
    | with_reducible apply only_drainLook | with_reducible apply only_modPwr
    | with_reducible apply only_raise | with_reducible apply only_startNotices
    | exact List.Subset.trans (by decide) hp

theorem only_pwrEvent {code : BitVec 16} {data : Nat} {tags : List (BitVec 16)}
    (_hp : [.win, .i3c, .reeve, .counters] ⊆ ps)
    (_hk : Only ps s₀ s) : Only ps s₀ (pwrEvent code data tags s) := by
  unfold pwrEvent
  repeat' first
    | with_reducible assumption | with_reducible intro _ | with_reducible apply only_ite
    | with_reducible apply only_each | with_reducible apply only_raise
    | with_reducible apply only_raiseTag

theorem only_abandonEntry {n : Nat}
    (hp : [.lanes, .act, .sup, .pwr, .life, .win, .i3c, .reeve, .counters] ⊆ ps)
    (_hk : Only ps s₀ s) : Only ps s₀ (abandonEntry n s) := by
  unfold abandonEntry
  repeat' first
    | with_reducible assumption | with_reducible intro _ | with_reducible apply only_ite
    | with_reducible apply only_bump | with_reducible apply only_each
    | with_reducible apply only_laneUp | with_reducible apply only_modPwr
    | with_reducible apply only_pwrEvent | with_reducible apply only_queueNotice
    | with_reducible apply only_withdrawNotice | exact List.Subset.trans (by decide) hp

theorem only_reachPoint {n : Nat} {f : State → State}
    (hp : [.lanes, .act, .sup, .pwr, .life, .win, .i3c, .reeve, .counters] ⊆ ps)
    (hf : ∀ s, Only ps s₀ s → Only ps s₀ (f s)) (_hk : Only ps s₀ s) :
    Only ps s₀ (reachPoint n f s) := by
  unfold reachPoint
  repeat' first
      | with_reducible assumption | apply hf | with_reducible apply only_ite
      | with_reducible apply only_abandonEntry | with_reducible apply only_modPwr
      | exact List.Subset.trans (by decide) hp

theorem only_latchPads {slSignal : BitVec 8}
    (hp : [.clk, .lanes, .groups, .us, .sup, .time, .qos, .ports, .pwr, .pair, .life, .win, .i3c, .reeve, .counters, .freeCtr] ⊆ ps)
    (_hk : Only ps s₀ s) : Only ps s₀ (latchPads slSignal s) := by
  unfold latchPads
  repeat' first
    | with_reducible assumption | with_reducible intro _ | with_reducible apply only_ite
    | with_reducible apply only_ite2 | with_reducible apply only_each
    | with_reducible apply only_gateLook | with_reducible apply only_laneDown
    | with_reducible apply only_modPwr | with_reducible apply only_refLook
    | refine only_snd (by assumption) ?_ | split | dsimp only | with_reducible apply only_f_time
    | exact List.Subset.trans (by decide) hp | exact hp (by decide)

theorem only_isolate  (hp : [.clk, .sup, .time, .pwr, .life, .win, .i3c, .reeve, .counters] ⊆ ps)
    (_hk : Only ps s₀ s) : Only ps s₀ (isolate s) := by
  unfold isolate
  repeat' first
    | with_reducible assumption | with_reducible intro _ | with_reducible apply only_ite
    | with_reducible apply only_accrue | with_reducible apply only_bump
    | with_reducible apply only_each | with_reducible apply only_modPwr
    | with_reducible apply only_refLook | with_reducible apply only_servoLose | split
    | dsimp only | with_reducible apply only_f_clk | exact List.Subset.trans (by decide) hp
    | exact hp (by decide)

theorem only_actPwrWake {m : FieldMsg} {_u1 : Nat}
    (_hp : [.sup, .pwr, .life, .win, .i3c, .reeve, .counters] ⊆ ps)
    (_hk : Only ps s₀ s) : Only ps s₀ (actPwrWake m _u1 s).2 := by
  unfold actPwrWake
  repeat' first
    | with_reducible assumption | with_reducible apply only_ite2
    | with_reducible apply only_wakeEvent

theorem only_wakeBins  (hp : [.sup, .sec, .life] ⊆ ps)
    (_hk : Only ps s₀ s) : Only ps s₀ (wakeBins s) := by
  unfold wakeBins
  repeat' first
    | with_reducible assumption | with_reducible intro _ | with_reducible apply only_ite
    | with_reducible apply only_checkpoint | with_reducible apply only_each
    | with_reducible apply only_storeDay | dsimp only | with_reducible apply only_f_sup
    | exact List.Subset.trans (by decide) hp | exact hp (by decide)

theorem only_reportGap  (hp : [.clk, .life, .win, .i3c, .reeve, .counters] ⊆ ps)
    (_hk : Only ps s₀ s) : Only ps s₀ (reportGap s) := by
  unfold reportGap
  repeat' first
    | with_reducible assumption | with_reducible apply only_ite
    | with_reducible apply only_raise | split | dsimp only
    | exact List.Subset.trans (by decide) hp
    | exact Only.step hp (by assumption) (fun p q => by cases p <;> first | rfl | exact absurd (by decide) q)

theorem only_completeWake {w : Wake} {failed : BitVec 64}
    (hp : [.clk, .lanes, .groups, .lots, .reasm, .toTime, .toReeve, .inQ, .us, .act, .sup, .time, .qos, .cry, .cls, .tine, .ports, .slanes, .pwr, .pair, .sec, .life, .win, .i3c, .reeve, .settings, .counters, .freeCtr] ⊆ ps)
    (_hk : Only ps s₀ s) : Only ps s₀ (completeWake w failed s) := by
  unfold completeWake
  repeat' first
    | with_reducible assumption | with_reducible intro _ | with_reducible apply only_ite
    | with_reducible apply only_accrue | with_reducible apply only_each
    | with_reducible apply only_failBanks | with_reducible apply only_laneUp
    | with_reducible apply only_modPwr | with_reducible apply only_pwrEvent
    | with_reducible apply only_queueNotice | with_reducible apply only_refLook
    | with_reducible apply only_reportGap | with_reducible apply only_timeLook
    | with_reducible apply only_wakeBins | dsimp only | with_reducible apply only_f_clk
    | exact List.Subset.trans (by decide) hp | exact hp (by decide)

theorem only_gateBuf {b : Nat} {tag : BitVec 16} (hp : [.qos, .pwr, .freeCtr] ⊆ ps)
    (_hk : Only ps s₀ s) : Only ps s₀ (gateBuf b tag s) := by
  unfold gateBuf
  repeat' first
    | with_reducible assumption | with_reducible apply only_ite
    | with_reducible apply only_drawn | with_reducible apply only_modPwr
    | with_reducible apply only_takeBushels | exact List.Subset.trans (by decide) hp

theorem only_gateOff {tag : BitVec 16} {n : Nat} (hp : [.qos, .tine, .pwr, .freeCtr] ⊆ ps)
    (_hk : Only ps s₀ s) : Only ps s₀ (gateOff tag n s) := by
  unfold gateOff
  repeat' first
    | with_reducible assumption | with_reducible apply only_ite
    | with_reducible apply only_gateBuf | with_reducible apply only_gateHarrow
    | with_reducible apply only_modPwr | exact List.Subset.trans (by decide) hp

theorem only_gateOn {failed : BitVec 64} {n : Nat}
    (hp : [.clk, .lanes, .groups, .lots, .reasm, .toTime, .toReeve, .inQ, .us, .act, .sup, .time, .qos, .cry, .cls, .tine, .ports, .slanes, .pwr, .pair, .life, .win, .i3c, .reeve, .settings, .counters, .freeCtr] ⊆ ps)
    (_hk : Only ps s₀ s) : Only ps s₀ (gateOn failed n s) := by
  unfold gateOn
  repeat' first
    | with_reducible assumption | with_reducible intro _ | with_reducible apply only_ite
    | with_reducible apply only_each | with_reducible apply only_failBanks
    | with_reducible apply only_modPmc | with_reducible apply only_modPwr
    | with_reducible apply only_modTine | split | dsimp only | with_reducible apply only_f_qos
    | exact List.Subset.trans (by decide) hp | exact hp (by decide)

theorem only_pwrSetDomainsBody {failed : BitVec 64} {c : Call}
    (hp : [.clk, .lanes, .groups, .lots, .reasm, .toTime, .toReeve, .inQ, .us, .act, .sup, .time, .qos, .cry, .cls, .tine, .ports, .slanes, .pwr, .pair, .life, .win, .i3c, .reeve, .settings, .counters, .freeCtr] ⊆ ps)
    (_hk : Only ps s₀ s) : Only ps s₀ (pwrSetDomainsBody failed c s).2 := by
  unfold pwrSetDomainsBody
  repeat' first
    | with_reducible assumption | with_reducible intro _ | with_reducible apply only_ite2
    | with_reducible apply only_badArg | with_reducible apply only_each
    | with_reducible apply only_fixedCmd | with_reducible apply only_gateOff
    | with_reducible apply only_gateOn | with_reducible apply only_notInState
    | with_reducible apply only_stBusy | with_reducible apply only_stOk
    | with_reducible apply only_stPending | exact List.Subset.trans (by decide) hp

theorem only_pwrSetStateBody {c : Call}
    (hp : [.act, .sup, .pwr, .life, .win, .i3c, .reeve, .settings, .counters] ⊆ ps)
    (_hk : Only ps s₀ s) : Only ps s₀ (pwrSetStateBody c s).2 := by
  unfold pwrSetStateBody
  repeat' first
    | with_reducible assumption | with_reducible intro _ | with_reducible apply only_ite
    | with_reducible apply only_ite2 | with_reducible apply only_badArg
    | with_reducible apply only_enterState | with_reducible apply only_modPwr
    | with_reducible apply only_notInState | with_reducible apply only_putGiven
    | with_reducible apply only_raise | with_reducible apply only_settingsCmd
    | with_reducible apply only_stBusy | with_reducible apply only_stDenied
    | with_reducible apply only_stOk | with_reducible apply only_stPending
    | with_reducible apply only_wakeEvent | refine only_snd (by assumption) ?_ | split | dsimp only
    | exact List.Subset.trans (by decide) hp | exact hp (by decide)

theorem only_pwrGetStateBody {c : Call} (_hp : [.counters] ⊆ ps)
    (_hk : Only ps s₀ s) : Only ps s₀ (pwrGetStateBody c s).2 := by
  unfold pwrGetStateBody
  repeat' first
    | with_reducible assumption | with_reducible exact fun _ h => h | with_reducible intro _
    | with_reducible apply only_readCmd

theorem only_pwrReleasePadsBody {c : Call}
    (hp : [.us, .sup, .qos, .ports, .pwr, .pair, .life, .win, .i3c, .reeve, .counters,
    .freeCtr] ⊆ ps)
    (_hk : Only ps s₀ s) : Only ps s₀ (pwrReleasePadsBody c s).2 := by
  unfold pwrReleasePadsBody
  repeat' first
    | with_reducible assumption | with_reducible intro _ | with_reducible apply only_ite2
    | with_reducible apply only_fixedCmd | with_reducible apply only_gateLook
    | with_reducible apply only_modPwr | with_reducible apply only_notInState
    | with_reducible apply only_stBusy | with_reducible apply only_stOk
    | exact List.Subset.trans (by decide) hp

theorem only_pwrGetWakeReportBody {c : Call} (_hp : [] ⊆ ps)
    (_hk : Only ps s₀ s) : Only ps s₀ (pwrGetWakeReportBody c s).2 := by
  unfold pwrGetWakeReportBody
  repeat' first
    | with_reducible assumption | with_reducible intro _ | with_reducible apply only_fixedCmd
    | with_reducible apply only_stOk

/-! Operations of `Pair`. -/

theorem only_startYield {y : Yield}
    (hp : [.us, .sup, .qos, .ports, .pwr, .pair, .life, .win, .i3c, .reeve, .counters,
    .freeCtr] ⊆ ps)
    (_hk : Only ps s₀ s) : Only ps s₀ (startYield y s) := by
  unfold startYield
  repeat' first
    | with_reducible assumption | with_reducible apply only_modPair
    | with_reducible apply only_yieldLook | exact List.Subset.trans (by decide) hp

theorem only_applyLate {o0 o1 : Optics} {h : Held}
    (hp : [.clk, .lanes, .groups, .lots, .reasm, .us, .act, .sup, .time, .qos, .cry, .cls, .tine,
    .ports, .slanes, .pwr, .pair, .life, .win, .i3c, .reeve, .settings, .counters, .freeCtr] ⊆ ps)
    (_hk : Only ps s₀ s) : Only ps s₀ (applyLate o0 o1 h s) := by
  unfold applyLate
  repeat' first
    | with_reducible assumption | with_reducible apply only_modPair
    | refine only_bodyOf (List.Subset.trans (by decide) hp) (by assumption) ?_ | split
    | exact List.Subset.trans (by decide) hp

theorem only_takeSnapshot {o0 o1 : Optics} {sc : BitVec 48} {x : Snap}
    (hp : [.clk, .lanes, .groups, .lots, .reasm, .us, .act, .sup, .time, .qos, .cry, .cls, .tine,
    .ports, .slanes, .pwr, .pair, .life, .win, .i3c, .reeve, .settings, .counters, .freeCtr] ⊆ ps)
    (_hk : Only ps s₀ s) : Only ps s₀ (takeSnapshot o0 o1 sc x s) := by
  unfold takeSnapshot
  repeat' first
    | with_reducible assumption | with_reducible intro _ | with_reducible apply only_applyLate
    | with_reducible apply only_applySnap | with_reducible apply only_bump
    | with_reducible apply only_each | with_reducible apply only_modPair
    | with_reducible apply only_setPair | exact List.Subset.trans (by decide) hp

theorem only_enterPair 
    (hp : [.us, .sup, .qos, .ports, .pwr, .pair, .life, .win, .i3c, .reeve, .counters,
    .freeCtr] ⊆ ps)
    (_hk : Only ps s₀ s) : Only ps s₀ (enterPair s) := by
  unfold enterPair
  repeat' first
    | with_reducible assumption | with_reducible apply only_domainOn
    | with_reducible apply only_gateLook | with_reducible apply only_modPair
    | with_reducible apply only_setPair | exact List.Subset.trans (by decide) hp

theorem only_leavePair 
    (hp : [.us, .act, .sup, .qos, .ports, .pwr, .pair, .life, .win, .i3c, .reeve, .counters,
    .freeCtr] ⊆ ps)
    (_hk : Only ps s₀ s) : Only ps s₀ (leavePair s) := by
  unfold leavePair
  repeat' first
    | with_reducible assumption | with_reducible apply only_ite
    | with_reducible apply only_dropClaim | with_reducible apply only_gateLook
    | with_reducible apply only_leaveActive | with_reducible apply only_modPair
    | with_reducible apply only_roleOutLook | with_reducible apply only_setPair
    | with_reducible apply only_tetherFall | exact List.Subset.trans (by decide) hp

theorem only_pairConfigureBody {c : Call}
    (hp : [.us, .act, .sup, .qos, .ports, .pwr, .pair, .life, .win, .i3c, .reeve, .settings,
    .counters, .freeCtr] ⊆ ps)
    (_hk : Only ps s₀ s) : Only ps s₀ (pairConfigureBody c s).2 := by
  unfold pairConfigureBody
  repeat' first
    | with_reducible assumption | with_reducible intro _ | with_reducible apply only_ite2
    | with_reducible apply only_badArg | with_reducible apply only_enterPair
    | with_reducible apply only_leavePair | with_reducible apply only_modPair
    | with_reducible apply only_notInState | with_reducible apply only_portsLook
    | with_reducible apply only_putGiven | with_reducible apply only_settingsCmd
    | with_reducible apply only_stOk | exact List.Subset.trans (by decide) hp

theorem only_pairGetStateBody {c : Call} (_hp : [.counters] ⊆ ps)
    (_hk : Only ps s₀ s) : Only ps s₀ (pairGetStateBody c s).2 := by
  unfold pairGetStateBody
  repeat' first
    | with_reducible assumption | with_reducible exact fun _ h => h | with_reducible intro _
    | with_reducible apply only_readCmd

theorem only_yieldCmd {force : Bool}
    (hp : [.clk, .us, .sup, .time, .qos, .ports, .pwr, .pair, .life, .win, .i3c, .reeve,
    .counters, .freeCtr] ⊆ ps)
    (_hk : Only ps s₀ s) : Only ps s₀ (yieldCmd force s).2 := by
  unfold yieldCmd
  repeat' first
    | with_reducible assumption | with_reducible apply only_ite2
    | with_reducible apply only_modPair | with_reducible apply only_notInState
    | with_reducible apply only_refuse | with_reducible apply only_stOk
    | with_reducible apply only_startYield | exact List.Subset.trans (by decide) hp

theorem only_isolateCmd {force : Bool}
    (hp : [.clk, .us, .sup, .time, .qos, .ports, .pwr, .pair, .life, .win, .i3c, .reeve,
    .counters, .freeCtr] ⊆ ps)
    (_hk : Only ps s₀ s) : Only ps s₀ (isolateCmd force s).2 := by
  unfold isolateCmd
  repeat' first
    | with_reducible assumption | with_reducible apply only_dropClaim
    | with_reducible apply only_modPair | with_reducible apply only_notInState
    | with_reducible apply only_setPair | with_reducible apply only_stOk
    | with_reducible apply only_startYield | split | exact List.Subset.trans (by decide) hp

theorem only_pairYieldBody {c : Call}
    (hp : [.clk, .us, .sup, .time, .qos, .ports, .pwr, .pair, .life, .win, .i3c, .reeve,
    .counters, .freeCtr] ⊆ ps)
    (_hk : Only ps s₀ s) : Only ps s₀ (pairYieldBody c s).2 := by
  unfold pairYieldBody
  repeat' first
    | with_reducible assumption | with_reducible intro _ | with_reducible apply only_badArg
    | with_reducible apply only_fixedCmd | with_reducible apply only_isolateCmd
    | with_reducible apply only_yieldCmd | split | exact List.Subset.trans (by decide) hp

theorem only_pairRejoinBody {c : Call}
    (hp : [.us, .sup, .qos, .ports, .pwr, .pair, .life, .win, .i3c, .reeve, .counters,
    .freeCtr] ⊆ ps)
    (_hk : Only ps s₀ s) : Only ps s₀ (pairRejoinBody c s).2 := by
  unfold pairRejoinBody
  repeat' first
    | with_reducible assumption | with_reducible intro _ | with_reducible apply only_ite2
    | with_reducible apply only_fixedCmd | with_reducible apply only_modPair
    | with_reducible apply only_notInState | with_reducible apply only_setPair
    | with_reducible apply only_stOk | with_reducible apply only_startRejoin
    | exact List.Subset.trans (by decide) hp

/-! Operations of `Ptp`. -/

theorem only_ptpSend {p kind : Nat} {b event one : Bool} {client : Option (BitVec 128)}
    {dst : Option (BitVec 48 × BitVec 128)} {m : Bytes} (hp : [.ports, .freeCtr] ⊆ ps)
    (_hk : Only ps s₀ s) : Only ps s₀ (ptpSend p kind b event one client dst m s) := by
  unfold ptpSend
  repeat' first
    | with_reducible assumption | with_reducible intro _ | with_reducible apply only_ite
    | with_reducible apply only_ite2 | with_reducible apply only_drawn
    | with_reducible apply only_sendTime | refine only_snd (by assumption) ?_ | split | dsimp only
    | exact List.Subset.trans (by decide) hp | exact hp (by decide)

theorem only_unclaim {p : Nat} {c : Claimed} (_hp : [.ports] ⊆ ps)
    (_hk : Only ps s₀ s) : Only ps s₀ (unclaim p c s) := by
  unfold unclaim
  repeat' first
    | with_reducible assumption | with_reducible apply only_modPort

theorem only_signalTlv {p : Nat} {b : Bool} {src : Option Nat} {mac : BitVec 48} {ip : BitVec 128}
    {ty : Nat} {v : Bytes}
    (hp : [.sup, .ports, .life, .win, .i3c, .reeve, .counters, .freeCtr] ⊆ ps)
    (_hk : Only ps s₀ s) : Only ps s₀ (signalTlv p b src mac ip ty v s).2 := by
  unfold signalTlv
  repeat' first
    | with_reducible assumption | with_reducible intro _ | with_reducible apply only_ite
    | with_reducible apply only_ite2 | with_reducible apply only_bump
    | with_reducible apply only_drawn | with_reducible apply only_modPort
    | refine only_snd (by assumption) ?_ | split | dsimp only
    | exact List.Subset.trans (by decide) hp | exact hp (by decide)

/-! Operations of `Reeve`. -/

theorem only_reeveFault {f : Reeve → Reeve} (hp : [.win, .i3c, .reeve] ⊆ ps)
    (_hk : Only ps s₀ s) : Only ps s₀ (reeveFault f s) := by
  unfold reeveFault
  repeat' first
    | with_reducible assumption | with_reducible apply only_modReeve
    | with_reducible apply only_modWin | with_reducible apply only_setInt
    | exact List.Subset.trans (by decide) hp

theorem only_takeCommand {src : CmdSrc} {b : Bytes} {fits : Nat → Bool}
    (hp : [.act, .win, .i3c, .reeve] ⊆ ps)
    (_hk : Only ps s₀ s) : Only ps s₀ (takeCommand src b fits s) := by
  unfold takeCommand
  repeat' first
    | with_reducible assumption | with_reducible apply only_ite
    | with_reducible apply only_answer | with_reducible apply only_modReeve
    | exact List.Subset.trans (by decide) hp

theorem only_takeMailbox  (hp : [.act, .win, .i3c, .reeve] ⊆ ps)
    (_hk : Only ps s₀ s) : Only ps s₀ (takeMailbox s) := by
  unfold takeMailbox
  repeat' first
    | with_reducible assumption | with_reducible apply only_busyLook
    | with_reducible apply only_modReeve | with_reducible apply only_modWin
    | with_reducible apply only_takeCommand | exact List.Subset.trans (by decide) hp

theorem only_takeMgmt {i : Fin 2} {m : MgmtCmd}
    (hp : [.act, .sup, .life, .win, .i3c, .reeve, .counters] ⊆ ps)
    (_hk : Only ps s₀ s) : Only ps s₀ (takeMgmt i m s) := by
  unfold takeMgmt
  repeat' first
    | with_reducible assumption | with_reducible apply only_bump
    | with_reducible apply only_modReeve | with_reducible apply only_takeCommand
    | exact List.Subset.trans (by decide) hp

theorem only_sysGetInfoBody {c : Call} (_hp : [] ⊆ ps)
    (_hk : Only ps s₀ s) : Only ps s₀ (sysGetInfoBody c s).2 := by
  unfold sysGetInfoBody
  repeat' first
    | with_reducible assumption | with_reducible intro _ | with_reducible apply only_fixedCmd
    | with_reducible apply only_stOk

theorem only_sysResetBody {c : Call} (hp : [.reeve] ⊆ ps)
    (_hk : Only ps s₀ s) : Only ps s₀ (sysResetBody c s).2 := by
  unfold sysResetBody
  repeat' first
    | with_reducible assumption | with_reducible intro _ | with_reducible apply only_askReset
    | with_reducible apply only_fixedCmd | with_reducible apply only_stOk
    | exact List.Subset.trans (by decide) hp

theorem only_modRegion {img : Bool} {f : Tab (BitVec 8) → Tab (BitVec 8)} (hp : [.flash] ⊆ ps)
    (_hk : Only ps s₀ s) : Only ps s₀ (modRegion img f s) := by
  unfold modRegion
  repeat' first
    | with_reducible assumption | split | dsimp only | with_reducible apply only_f_flash
    | exact hp (by decide)

theorem only_fwWrite {img : Bool} {p : Bytes} (hp : [.flash] ⊆ ps)
    (_hk : Only ps s₀ s) : Only ps s₀ (fwWrite img p s).2 := by
  unfold fwWrite
  repeat' first
    | with_reducible assumption | with_reducible apply only_ite2
    | with_reducible apply only_badArg | with_reducible apply only_modRegion
    | with_reducible apply only_notInState | with_reducible apply only_stOk
    | with_reducible apply only_stPending | split | dsimp only
    | with_reducible apply only_f_flash | exact List.Subset.trans (by decide) hp
    | exact hp (by decide)

theorem only_sysFwActivateBody {c : Call} (hp : [.flash, .win, .i3c, .reeve] ⊆ ps)
    (_hk : Only ps s₀ s) : Only ps s₀ (sysFwActivateBody c s).2 := by
  unfold sysFwActivateBody
  repeat' first
    | with_reducible assumption | with_reducible apply only_ite2
    | with_reducible apply only_askReset | with_reducible apply only_badArg
    | with_reducible apply only_badLength | with_reducible apply only_fwWrite
    | with_reducible apply only_setBoot | with_reducible apply only_stBusy
    | with_reducible apply only_stDenied | with_reducible apply only_stOk
    | with_reducible apply only_stPending | dsimp only | with_reducible apply only_f_flash
    | exact List.Subset.trans (by decide) hp | exact hp (by decide)

theorem only_setRegionFree {img : Bool} {f : Option Nat} (hp : [.flash] ⊆ ps)
    (_hk : Only ps s₀ s) : Only ps s₀ (setRegionFree img f s) := by
  unfold setRegionFree
  repeat' first
    | with_reducible assumption | split | dsimp only | with_reducible apply only_f_flash
    | exact hp (by decide)

end Sys2Proof.Machine
end

