-- ==== Sys2Proof/Laws/State.lean ====
section
/-! SUPPORT. What each update of the state leaves alone, field by field, and what reading back a
changed entry gives: true by unfolding, and said once so that no later proof unfolds an update. -/
namespace Sys2Proof.Machine
variable {s : State}

/-! Updates of one part: every other field reads as before. -/

@[simp] theorem modLane_rest {l : Nat} {f : Lane → Lane} :
    (modLane l f s).clk = s.clk ∧ (modLane l f s).groups = s.groups ∧
    (modLane l f s).lots = s.lots ∧ (modLane l f s).reasm = s.reasm ∧
    (modLane l f s).toTime = s.toTime ∧ (modLane l f s).toReeve = s.toReeve ∧
    (modLane l f s).inQ = s.inQ ∧ (modLane l f s).us = s.us ∧ (modLane l f s).act = s.act ∧
    (modLane l f s).sup = s.sup ∧ (modLane l f s).time = s.time ∧ (modLane l f s).qos = s.qos ∧
    (modLane l f s).cry = s.cry ∧ (modLane l f s).cls = s.cls ∧ (modLane l f s).tine = s.tine ∧
    (modLane l f s).ports = s.ports ∧ (modLane l f s).slanes = s.slanes ∧
    (modLane l f s).pwr = s.pwr ∧ (modLane l f s).pair = s.pair ∧
    (modLane l f s).fuses = s.fuses ∧ (modLane l f s).sec = s.sec ∧
    (modLane l f s).flash = s.flash ∧ (modLane l f s).life = s.life ∧
    (modLane l f s).pins = s.pins ∧ (modLane l f s).win = s.win ∧ (modLane l f s).i3c = s.i3c ∧
    (modLane l f s).reeve = s.reeve ∧ (modLane l f s).settings = s.settings ∧
    (modLane l f s).counters = s.counters ∧ (modLane l f s).freeCtr = s.freeCtr ∧
    (modLane l f s).pending = s.pending := by
  refine ⟨?_, ?_, ?_, ?_, ?_, ?_, ?_, ?_, ?_, ?_, ?_, ?_, ?_, ?_, ?_, ?_, ?_, ?_, ?_, ?_, ?_, ?_, ?_, ?_, ?_, ?_, ?_, ?_, ?_, ?_, ?_⟩ <;> rfl

@[simp] theorem modGroup_rest {g : Nat} {f : Group → Group} :
    (modGroup g f s).clk = s.clk ∧ (modGroup g f s).lanes = s.lanes ∧
    (modGroup g f s).lots = s.lots ∧ (modGroup g f s).reasm = s.reasm ∧
    (modGroup g f s).toTime = s.toTime ∧ (modGroup g f s).toReeve = s.toReeve ∧
    (modGroup g f s).inQ = s.inQ ∧ (modGroup g f s).us = s.us ∧ (modGroup g f s).act = s.act ∧
    (modGroup g f s).sup = s.sup ∧ (modGroup g f s).time = s.time ∧
    (modGroup g f s).qos = s.qos ∧ (modGroup g f s).cry = s.cry ∧ (modGroup g f s).cls = s.cls ∧
    (modGroup g f s).tine = s.tine ∧ (modGroup g f s).ports = s.ports ∧
    (modGroup g f s).slanes = s.slanes ∧ (modGroup g f s).pwr = s.pwr ∧
    (modGroup g f s).pair = s.pair ∧ (modGroup g f s).fuses = s.fuses ∧
    (modGroup g f s).sec = s.sec ∧ (modGroup g f s).flash = s.flash ∧
    (modGroup g f s).life = s.life ∧ (modGroup g f s).pins = s.pins ∧
    (modGroup g f s).win = s.win ∧ (modGroup g f s).i3c = s.i3c ∧
    (modGroup g f s).reeve = s.reeve ∧ (modGroup g f s).settings = s.settings ∧
    (modGroup g f s).counters = s.counters ∧ (modGroup g f s).freeCtr = s.freeCtr ∧
    (modGroup g f s).pending = s.pending := by
  refine ⟨?_, ?_, ?_, ?_, ?_, ?_, ?_, ?_, ?_, ?_, ?_, ?_, ?_, ?_, ?_, ?_, ?_, ?_, ?_, ?_, ?_, ?_, ?_, ?_, ?_, ?_, ?_, ?_, ?_, ?_, ?_⟩ <;> rfl

@[simp] theorem modUsLane_rest {l : Nat} {f : UsLane → UsLane} :
    (modUsLane l f s).clk = s.clk ∧ (modUsLane l f s).lanes = s.lanes ∧
    (modUsLane l f s).groups = s.groups ∧ (modUsLane l f s).lots = s.lots ∧
    (modUsLane l f s).reasm = s.reasm ∧ (modUsLane l f s).toTime = s.toTime ∧
    (modUsLane l f s).toReeve = s.toReeve ∧ (modUsLane l f s).inQ = s.inQ ∧
    (modUsLane l f s).act = s.act ∧ (modUsLane l f s).sup = s.sup ∧
    (modUsLane l f s).time = s.time ∧ (modUsLane l f s).qos = s.qos ∧
    (modUsLane l f s).cry = s.cry ∧ (modUsLane l f s).cls = s.cls ∧
    (modUsLane l f s).tine = s.tine ∧ (modUsLane l f s).ports = s.ports ∧
    (modUsLane l f s).slanes = s.slanes ∧ (modUsLane l f s).pwr = s.pwr ∧
    (modUsLane l f s).pair = s.pair ∧ (modUsLane l f s).fuses = s.fuses ∧
    (modUsLane l f s).sec = s.sec ∧ (modUsLane l f s).flash = s.flash ∧
    (modUsLane l f s).life = s.life ∧ (modUsLane l f s).pins = s.pins ∧
    (modUsLane l f s).win = s.win ∧ (modUsLane l f s).i3c = s.i3c ∧
    (modUsLane l f s).reeve = s.reeve ∧ (modUsLane l f s).settings = s.settings ∧
    (modUsLane l f s).counters = s.counters ∧ (modUsLane l f s).freeCtr = s.freeCtr ∧
    (modUsLane l f s).pending = s.pending := by
  refine ⟨?_, ?_, ?_, ?_, ?_, ?_, ?_, ?_, ?_, ?_, ?_, ?_, ?_, ?_, ?_, ?_, ?_, ?_, ?_, ?_, ?_, ?_, ?_, ?_, ?_, ?_, ?_, ?_, ?_, ?_, ?_⟩ <;> rfl

@[simp] theorem modInst_rest {i : Nat} {f : Inst → Inst} :
    (modInst i f s).clk = s.clk ∧ (modInst i f s).lanes = s.lanes ∧
    (modInst i f s).groups = s.groups ∧ (modInst i f s).lots = s.lots ∧
    (modInst i f s).reasm = s.reasm ∧ (modInst i f s).toTime = s.toTime ∧
    (modInst i f s).toReeve = s.toReeve ∧ (modInst i f s).inQ = s.inQ ∧
    (modInst i f s).us = s.us ∧ (modInst i f s).sup = s.sup ∧ (modInst i f s).time = s.time ∧
    (modInst i f s).qos = s.qos ∧ (modInst i f s).cry = s.cry ∧ (modInst i f s).cls = s.cls ∧
    (modInst i f s).tine = s.tine ∧ (modInst i f s).ports = s.ports ∧
    (modInst i f s).slanes = s.slanes ∧ (modInst i f s).pwr = s.pwr ∧
    (modInst i f s).pair = s.pair ∧ (modInst i f s).fuses = s.fuses ∧
    (modInst i f s).sec = s.sec ∧ (modInst i f s).flash = s.flash ∧
    (modInst i f s).life = s.life ∧ (modInst i f s).pins = s.pins ∧ (modInst i f s).win = s.win ∧
    (modInst i f s).i3c = s.i3c ∧ (modInst i f s).reeve = s.reeve ∧
    (modInst i f s).settings = s.settings ∧ (modInst i f s).counters = s.counters ∧
    (modInst i f s).freeCtr = s.freeCtr ∧ (modInst i f s).pending = s.pending := by
  refine ⟨?_, ?_, ?_, ?_, ?_, ?_, ?_, ?_, ?_, ?_, ?_, ?_, ?_, ?_, ?_, ?_, ?_, ?_, ?_, ?_, ?_, ?_, ?_, ?_, ?_, ?_, ?_, ?_, ?_, ?_, ?_⟩ <;> rfl

@[simp] theorem modSupLane_rest {l : Nat} {f : SupLane → SupLane} :
    (modSupLane l f s).clk = s.clk ∧ (modSupLane l f s).lanes = s.lanes ∧
    (modSupLane l f s).groups = s.groups ∧ (modSupLane l f s).lots = s.lots ∧
    (modSupLane l f s).reasm = s.reasm ∧ (modSupLane l f s).toTime = s.toTime ∧
    (modSupLane l f s).toReeve = s.toReeve ∧ (modSupLane l f s).inQ = s.inQ ∧
    (modSupLane l f s).us = s.us ∧ (modSupLane l f s).act = s.act ∧
    (modSupLane l f s).time = s.time ∧ (modSupLane l f s).qos = s.qos ∧
    (modSupLane l f s).cry = s.cry ∧ (modSupLane l f s).cls = s.cls ∧
    (modSupLane l f s).tine = s.tine ∧ (modSupLane l f s).ports = s.ports ∧
    (modSupLane l f s).slanes = s.slanes ∧ (modSupLane l f s).pwr = s.pwr ∧
    (modSupLane l f s).pair = s.pair ∧ (modSupLane l f s).fuses = s.fuses ∧
    (modSupLane l f s).sec = s.sec ∧ (modSupLane l f s).flash = s.flash ∧
    (modSupLane l f s).life = s.life ∧ (modSupLane l f s).pins = s.pins ∧
    (modSupLane l f s).win = s.win ∧ (modSupLane l f s).i3c = s.i3c ∧
    (modSupLane l f s).reeve = s.reeve ∧ (modSupLane l f s).settings = s.settings ∧
    (modSupLane l f s).counters = s.counters ∧ (modSupLane l f s).freeCtr = s.freeCtr ∧
    (modSupLane l f s).pending = s.pending := by
  refine ⟨?_, ?_, ?_, ?_, ?_, ?_, ?_, ?_, ?_, ?_, ?_, ?_, ?_, ?_, ?_, ?_, ?_, ?_, ?_, ?_, ?_, ?_, ?_, ?_, ?_, ?_, ?_, ?_, ?_, ?_, ?_⟩ <;> rfl

@[simp] theorem modSupDom_rest {d : Nat} {f : SupDom → SupDom} :
    (modSupDom d f s).clk = s.clk ∧ (modSupDom d f s).lanes = s.lanes ∧
    (modSupDom d f s).groups = s.groups ∧ (modSupDom d f s).lots = s.lots ∧
    (modSupDom d f s).reasm = s.reasm ∧ (modSupDom d f s).toTime = s.toTime ∧
    (modSupDom d f s).toReeve = s.toReeve ∧ (modSupDom d f s).inQ = s.inQ ∧
    (modSupDom d f s).us = s.us ∧ (modSupDom d f s).act = s.act ∧
    (modSupDom d f s).time = s.time ∧ (modSupDom d f s).qos = s.qos ∧
    (modSupDom d f s).cry = s.cry ∧ (modSupDom d f s).cls = s.cls ∧
    (modSupDom d f s).tine = s.tine ∧ (modSupDom d f s).ports = s.ports ∧
    (modSupDom d f s).slanes = s.slanes ∧ (modSupDom d f s).pwr = s.pwr ∧
    (modSupDom d f s).pair = s.pair ∧ (modSupDom d f s).fuses = s.fuses ∧
    (modSupDom d f s).sec = s.sec ∧ (modSupDom d f s).flash = s.flash ∧
    (modSupDom d f s).life = s.life ∧ (modSupDom d f s).pins = s.pins ∧
    (modSupDom d f s).win = s.win ∧ (modSupDom d f s).i3c = s.i3c ∧
    (modSupDom d f s).reeve = s.reeve ∧ (modSupDom d f s).settings = s.settings ∧
    (modSupDom d f s).counters = s.counters ∧ (modSupDom d f s).freeCtr = s.freeCtr ∧
    (modSupDom d f s).pending = s.pending := by
  refine ⟨?_, ?_, ?_, ?_, ?_, ?_, ?_, ?_, ?_, ?_, ?_, ?_, ?_, ?_, ?_, ?_, ?_, ?_, ?_, ?_, ?_, ?_, ?_, ?_, ?_, ?_, ?_, ?_, ?_, ?_, ?_⟩ <;> rfl

@[simp] theorem modSupInst_rest {i : Nat} {f : SupInst → SupInst} :
    (modSupInst i f s).clk = s.clk ∧ (modSupInst i f s).lanes = s.lanes ∧
    (modSupInst i f s).groups = s.groups ∧ (modSupInst i f s).lots = s.lots ∧
    (modSupInst i f s).reasm = s.reasm ∧ (modSupInst i f s).toTime = s.toTime ∧
    (modSupInst i f s).toReeve = s.toReeve ∧ (modSupInst i f s).inQ = s.inQ ∧
    (modSupInst i f s).us = s.us ∧ (modSupInst i f s).act = s.act ∧
    (modSupInst i f s).time = s.time ∧ (modSupInst i f s).qos = s.qos ∧
    (modSupInst i f s).cry = s.cry ∧ (modSupInst i f s).cls = s.cls ∧
    (modSupInst i f s).tine = s.tine ∧ (modSupInst i f s).ports = s.ports ∧
    (modSupInst i f s).slanes = s.slanes ∧ (modSupInst i f s).pwr = s.pwr ∧
    (modSupInst i f s).pair = s.pair ∧ (modSupInst i f s).fuses = s.fuses ∧
    (modSupInst i f s).sec = s.sec ∧ (modSupInst i f s).flash = s.flash ∧
    (modSupInst i f s).life = s.life ∧ (modSupInst i f s).pins = s.pins ∧
    (modSupInst i f s).win = s.win ∧ (modSupInst i f s).i3c = s.i3c ∧
    (modSupInst i f s).reeve = s.reeve ∧ (modSupInst i f s).settings = s.settings ∧
    (modSupInst i f s).counters = s.counters ∧ (modSupInst i f s).freeCtr = s.freeCtr ∧
    (modSupInst i f s).pending = s.pending := by
  refine ⟨?_, ?_, ?_, ?_, ?_, ?_, ?_, ?_, ?_, ?_, ?_, ?_, ?_, ?_, ?_, ?_, ?_, ?_, ?_, ?_, ?_, ?_, ?_, ?_, ?_, ?_, ?_, ?_, ?_, ?_, ?_⟩ <;> rfl

@[simp] theorem modDom_rest {d : Nat} {f : Dom → Dom} :
    (modDom d f s).clk = s.clk ∧ (modDom d f s).lanes = s.lanes ∧
    (modDom d f s).groups = s.groups ∧ (modDom d f s).lots = s.lots ∧
    (modDom d f s).reasm = s.reasm ∧ (modDom d f s).toTime = s.toTime ∧
    (modDom d f s).toReeve = s.toReeve ∧ (modDom d f s).inQ = s.inQ ∧ (modDom d f s).us = s.us ∧
    (modDom d f s).act = s.act ∧ (modDom d f s).sup = s.sup ∧ (modDom d f s).qos = s.qos ∧
    (modDom d f s).cry = s.cry ∧ (modDom d f s).cls = s.cls ∧ (modDom d f s).tine = s.tine ∧
    (modDom d f s).ports = s.ports ∧ (modDom d f s).slanes = s.slanes ∧
    (modDom d f s).pwr = s.pwr ∧ (modDom d f s).pair = s.pair ∧ (modDom d f s).fuses = s.fuses ∧
    (modDom d f s).sec = s.sec ∧ (modDom d f s).flash = s.flash ∧ (modDom d f s).life = s.life ∧
    (modDom d f s).pins = s.pins ∧ (modDom d f s).win = s.win ∧ (modDom d f s).i3c = s.i3c ∧
    (modDom d f s).reeve = s.reeve ∧ (modDom d f s).settings = s.settings ∧
    (modDom d f s).counters = s.counters ∧ (modDom d f s).freeCtr = s.freeCtr ∧
    (modDom d f s).pending = s.pending := by
  refine ⟨?_, ?_, ?_, ?_, ?_, ?_, ?_, ?_, ?_, ?_, ?_, ?_, ?_, ?_, ?_, ?_, ?_, ?_, ?_, ?_, ?_, ?_, ?_, ?_, ?_, ?_, ?_, ?_, ?_, ?_, ?_⟩ <;> rfl

@[simp] theorem modDs_rest {q : Nat} {f : Queue → Queue} :
    (modDs q f s).clk = s.clk ∧ (modDs q f s).lanes = s.lanes ∧ (modDs q f s).groups = s.groups ∧
    (modDs q f s).lots = s.lots ∧ (modDs q f s).reasm = s.reasm ∧
    (modDs q f s).toTime = s.toTime ∧ (modDs q f s).toReeve = s.toReeve ∧
    (modDs q f s).inQ = s.inQ ∧ (modDs q f s).us = s.us ∧ (modDs q f s).act = s.act ∧
    (modDs q f s).sup = s.sup ∧ (modDs q f s).time = s.time ∧ (modDs q f s).cry = s.cry ∧
    (modDs q f s).cls = s.cls ∧ (modDs q f s).tine = s.tine ∧ (modDs q f s).ports = s.ports ∧
    (modDs q f s).slanes = s.slanes ∧ (modDs q f s).pwr = s.pwr ∧ (modDs q f s).pair = s.pair ∧
    (modDs q f s).fuses = s.fuses ∧ (modDs q f s).sec = s.sec ∧ (modDs q f s).flash = s.flash ∧
    (modDs q f s).life = s.life ∧ (modDs q f s).pins = s.pins ∧ (modDs q f s).win = s.win ∧
    (modDs q f s).i3c = s.i3c ∧ (modDs q f s).reeve = s.reeve ∧
    (modDs q f s).settings = s.settings ∧ (modDs q f s).counters = s.counters ∧
    (modDs q f s).freeCtr = s.freeCtr ∧ (modDs q f s).pending = s.pending := by
  refine ⟨?_, ?_, ?_, ?_, ?_, ?_, ?_, ?_, ?_, ?_, ?_, ?_, ?_, ?_, ?_, ?_, ?_, ?_, ?_, ?_, ?_, ?_, ?_, ?_, ?_, ?_, ?_, ?_, ?_, ?_, ?_⟩ <;> rfl

@[simp] theorem modUs_rest {q : Nat} {f : Queue → Queue} :
    (modUs q f s).clk = s.clk ∧ (modUs q f s).lanes = s.lanes ∧ (modUs q f s).groups = s.groups ∧
    (modUs q f s).lots = s.lots ∧ (modUs q f s).reasm = s.reasm ∧
    (modUs q f s).toTime = s.toTime ∧ (modUs q f s).toReeve = s.toReeve ∧
    (modUs q f s).inQ = s.inQ ∧ (modUs q f s).us = s.us ∧ (modUs q f s).act = s.act ∧
    (modUs q f s).sup = s.sup ∧ (modUs q f s).time = s.time ∧ (modUs q f s).cry = s.cry ∧
    (modUs q f s).cls = s.cls ∧ (modUs q f s).tine = s.tine ∧ (modUs q f s).ports = s.ports ∧
    (modUs q f s).slanes = s.slanes ∧ (modUs q f s).pwr = s.pwr ∧ (modUs q f s).pair = s.pair ∧
    (modUs q f s).fuses = s.fuses ∧ (modUs q f s).sec = s.sec ∧ (modUs q f s).flash = s.flash ∧
    (modUs q f s).life = s.life ∧ (modUs q f s).pins = s.pins ∧ (modUs q f s).win = s.win ∧
    (modUs q f s).i3c = s.i3c ∧ (modUs q f s).reeve = s.reeve ∧
    (modUs q f s).settings = s.settings ∧ (modUs q f s).counters = s.counters ∧
    (modUs q f s).freeCtr = s.freeCtr ∧ (modUs q f s).pending = s.pending := by
  refine ⟨?_, ?_, ?_, ?_, ?_, ?_, ?_, ?_, ?_, ?_, ?_, ?_, ?_, ?_, ?_, ?_, ?_, ?_, ?_, ?_, ?_, ?_, ?_, ?_, ?_, ?_, ?_, ?_, ?_, ?_, ?_⟩ <;> rfl

@[simp] theorem modPortArb_rest {p : Nat} {f : Arbiter → Arbiter} :
    (modPortArb p f s).clk = s.clk ∧ (modPortArb p f s).lanes = s.lanes ∧
    (modPortArb p f s).groups = s.groups ∧ (modPortArb p f s).lots = s.lots ∧
    (modPortArb p f s).reasm = s.reasm ∧ (modPortArb p f s).toTime = s.toTime ∧
    (modPortArb p f s).toReeve = s.toReeve ∧ (modPortArb p f s).inQ = s.inQ ∧
    (modPortArb p f s).us = s.us ∧ (modPortArb p f s).act = s.act ∧
    (modPortArb p f s).sup = s.sup ∧ (modPortArb p f s).time = s.time ∧
    (modPortArb p f s).cry = s.cry ∧ (modPortArb p f s).cls = s.cls ∧
    (modPortArb p f s).tine = s.tine ∧ (modPortArb p f s).ports = s.ports ∧
    (modPortArb p f s).slanes = s.slanes ∧ (modPortArb p f s).pwr = s.pwr ∧
    (modPortArb p f s).pair = s.pair ∧ (modPortArb p f s).fuses = s.fuses ∧
    (modPortArb p f s).sec = s.sec ∧ (modPortArb p f s).flash = s.flash ∧
    (modPortArb p f s).life = s.life ∧ (modPortArb p f s).pins = s.pins ∧
    (modPortArb p f s).win = s.win ∧ (modPortArb p f s).i3c = s.i3c ∧
    (modPortArb p f s).reeve = s.reeve ∧ (modPortArb p f s).settings = s.settings ∧
    (modPortArb p f s).counters = s.counters ∧ (modPortArb p f s).freeCtr = s.freeCtr ∧
    (modPortArb p f s).pending = s.pending := by
  refine ⟨?_, ?_, ?_, ?_, ?_, ?_, ?_, ?_, ?_, ?_, ?_, ?_, ?_, ?_, ?_, ?_, ?_, ?_, ?_, ?_, ?_, ?_, ?_, ?_, ?_, ?_, ?_, ?_, ?_, ?_, ?_⟩ <;> rfl

@[simp] theorem modPlotArb_rest {p : Nat} {f : Arbiter → Arbiter} :
    (modPlotArb p f s).clk = s.clk ∧ (modPlotArb p f s).lanes = s.lanes ∧
    (modPlotArb p f s).groups = s.groups ∧ (modPlotArb p f s).lots = s.lots ∧
    (modPlotArb p f s).reasm = s.reasm ∧ (modPlotArb p f s).toTime = s.toTime ∧
    (modPlotArb p f s).toReeve = s.toReeve ∧ (modPlotArb p f s).inQ = s.inQ ∧
    (modPlotArb p f s).us = s.us ∧ (modPlotArb p f s).act = s.act ∧
    (modPlotArb p f s).sup = s.sup ∧ (modPlotArb p f s).time = s.time ∧
    (modPlotArb p f s).cry = s.cry ∧ (modPlotArb p f s).cls = s.cls ∧
    (modPlotArb p f s).tine = s.tine ∧ (modPlotArb p f s).ports = s.ports ∧
    (modPlotArb p f s).slanes = s.slanes ∧ (modPlotArb p f s).pwr = s.pwr ∧
    (modPlotArb p f s).pair = s.pair ∧ (modPlotArb p f s).fuses = s.fuses ∧
    (modPlotArb p f s).sec = s.sec ∧ (modPlotArb p f s).flash = s.flash ∧
    (modPlotArb p f s).life = s.life ∧ (modPlotArb p f s).pins = s.pins ∧
    (modPlotArb p f s).win = s.win ∧ (modPlotArb p f s).i3c = s.i3c ∧
    (modPlotArb p f s).reeve = s.reeve ∧ (modPlotArb p f s).settings = s.settings ∧
    (modPlotArb p f s).counters = s.counters ∧ (modPlotArb p f s).freeCtr = s.freeCtr ∧
    (modPlotArb p f s).pending = s.pending := by
  refine ⟨?_, ?_, ?_, ?_, ?_, ?_, ?_, ?_, ?_, ?_, ?_, ?_, ?_, ?_, ?_, ?_, ?_, ?_, ?_, ?_, ?_, ?_, ?_, ?_, ?_, ?_, ?_, ?_, ?_, ?_, ?_⟩ <;> rfl

@[simp] theorem modGroupArb_rest {p g : Nat} {f : Arbiter → Arbiter} :
    (modGroupArb p g f s).clk = s.clk ∧ (modGroupArb p g f s).lanes = s.lanes ∧
    (modGroupArb p g f s).groups = s.groups ∧ (modGroupArb p g f s).lots = s.lots ∧
    (modGroupArb p g f s).reasm = s.reasm ∧ (modGroupArb p g f s).toTime = s.toTime ∧
    (modGroupArb p g f s).toReeve = s.toReeve ∧ (modGroupArb p g f s).inQ = s.inQ ∧
    (modGroupArb p g f s).us = s.us ∧ (modGroupArb p g f s).act = s.act ∧
    (modGroupArb p g f s).sup = s.sup ∧ (modGroupArb p g f s).time = s.time ∧
    (modGroupArb p g f s).cry = s.cry ∧ (modGroupArb p g f s).cls = s.cls ∧
    (modGroupArb p g f s).tine = s.tine ∧ (modGroupArb p g f s).ports = s.ports ∧
    (modGroupArb p g f s).slanes = s.slanes ∧ (modGroupArb p g f s).pwr = s.pwr ∧
    (modGroupArb p g f s).pair = s.pair ∧ (modGroupArb p g f s).fuses = s.fuses ∧
    (modGroupArb p g f s).sec = s.sec ∧ (modGroupArb p g f s).flash = s.flash ∧
    (modGroupArb p g f s).life = s.life ∧ (modGroupArb p g f s).pins = s.pins ∧
    (modGroupArb p g f s).win = s.win ∧ (modGroupArb p g f s).i3c = s.i3c ∧
    (modGroupArb p g f s).reeve = s.reeve ∧ (modGroupArb p g f s).settings = s.settings ∧
    (modGroupArb p g f s).counters = s.counters ∧ (modGroupArb p g f s).freeCtr = s.freeCtr ∧
    (modGroupArb p g f s).pending = s.pending := by
  refine ⟨?_, ?_, ?_, ?_, ?_, ?_, ?_, ?_, ?_, ?_, ?_, ?_, ?_, ?_, ?_, ?_, ?_, ?_, ?_, ?_, ?_, ?_, ?_, ?_, ?_, ?_, ?_, ?_, ?_, ?_, ?_⟩ <;> rfl

@[simp] theorem modSlot_rest {k : Nat} {f : KeySlot → KeySlot} :
    (modSlot k f s).clk = s.clk ∧ (modSlot k f s).lanes = s.lanes ∧
    (modSlot k f s).groups = s.groups ∧ (modSlot k f s).lots = s.lots ∧
    (modSlot k f s).reasm = s.reasm ∧ (modSlot k f s).toTime = s.toTime ∧
    (modSlot k f s).toReeve = s.toReeve ∧ (modSlot k f s).inQ = s.inQ ∧
    (modSlot k f s).us = s.us ∧ (modSlot k f s).act = s.act ∧ (modSlot k f s).sup = s.sup ∧
    (modSlot k f s).time = s.time ∧ (modSlot k f s).qos = s.qos ∧ (modSlot k f s).cls = s.cls ∧
    (modSlot k f s).tine = s.tine ∧ (modSlot k f s).ports = s.ports ∧
    (modSlot k f s).slanes = s.slanes ∧ (modSlot k f s).pwr = s.pwr ∧
    (modSlot k f s).pair = s.pair ∧ (modSlot k f s).fuses = s.fuses ∧
    (modSlot k f s).sec = s.sec ∧ (modSlot k f s).flash = s.flash ∧
    (modSlot k f s).life = s.life ∧ (modSlot k f s).pins = s.pins ∧ (modSlot k f s).win = s.win ∧
    (modSlot k f s).i3c = s.i3c ∧ (modSlot k f s).reeve = s.reeve ∧
    (modSlot k f s).settings = s.settings ∧ (modSlot k f s).counters = s.counters ∧
    (modSlot k f s).freeCtr = s.freeCtr ∧ (modSlot k f s).pending = s.pending := by
  refine ⟨?_, ?_, ?_, ?_, ?_, ?_, ?_, ?_, ?_, ?_, ?_, ?_, ?_, ?_, ?_, ?_, ?_, ?_, ?_, ?_, ?_, ?_, ?_, ?_, ?_, ?_, ?_, ?_, ?_, ?_, ?_⟩ <;> rfl

@[simp] theorem modPort_rest {p : Nat} {f : Port → Port} :
    (modPort p f s).clk = s.clk ∧ (modPort p f s).lanes = s.lanes ∧
    (modPort p f s).groups = s.groups ∧ (modPort p f s).lots = s.lots ∧
    (modPort p f s).reasm = s.reasm ∧ (modPort p f s).toTime = s.toTime ∧
    (modPort p f s).toReeve = s.toReeve ∧ (modPort p f s).inQ = s.inQ ∧
    (modPort p f s).us = s.us ∧ (modPort p f s).act = s.act ∧ (modPort p f s).sup = s.sup ∧
    (modPort p f s).time = s.time ∧ (modPort p f s).qos = s.qos ∧ (modPort p f s).cry = s.cry ∧
    (modPort p f s).cls = s.cls ∧ (modPort p f s).tine = s.tine ∧
    (modPort p f s).slanes = s.slanes ∧ (modPort p f s).pwr = s.pwr ∧
    (modPort p f s).pair = s.pair ∧ (modPort p f s).fuses = s.fuses ∧
    (modPort p f s).sec = s.sec ∧ (modPort p f s).flash = s.flash ∧
    (modPort p f s).life = s.life ∧ (modPort p f s).pins = s.pins ∧ (modPort p f s).win = s.win ∧
    (modPort p f s).i3c = s.i3c ∧ (modPort p f s).reeve = s.reeve ∧
    (modPort p f s).settings = s.settings ∧ (modPort p f s).counters = s.counters ∧
    (modPort p f s).freeCtr = s.freeCtr ∧ (modPort p f s).pending = s.pending := by
  refine ⟨?_, ?_, ?_, ?_, ?_, ?_, ?_, ?_, ?_, ?_, ?_, ?_, ?_, ?_, ?_, ?_, ?_, ?_, ?_, ?_, ?_, ?_, ?_, ?_, ?_, ?_, ?_, ?_, ?_, ?_, ?_⟩ <;> rfl

@[simp] theorem modSLane_rest {l : Nat} {f : SLane → SLane} :
    (modSLane l f s).clk = s.clk ∧ (modSLane l f s).lanes = s.lanes ∧
    (modSLane l f s).groups = s.groups ∧ (modSLane l f s).lots = s.lots ∧
    (modSLane l f s).reasm = s.reasm ∧ (modSLane l f s).toTime = s.toTime ∧
    (modSLane l f s).toReeve = s.toReeve ∧ (modSLane l f s).inQ = s.inQ ∧
    (modSLane l f s).us = s.us ∧ (modSLane l f s).act = s.act ∧ (modSLane l f s).sup = s.sup ∧
    (modSLane l f s).time = s.time ∧ (modSLane l f s).qos = s.qos ∧
    (modSLane l f s).cry = s.cry ∧ (modSLane l f s).cls = s.cls ∧
    (modSLane l f s).tine = s.tine ∧ (modSLane l f s).ports = s.ports ∧
    (modSLane l f s).pwr = s.pwr ∧ (modSLane l f s).pair = s.pair ∧
    (modSLane l f s).fuses = s.fuses ∧ (modSLane l f s).sec = s.sec ∧
    (modSLane l f s).flash = s.flash ∧ (modSLane l f s).life = s.life ∧
    (modSLane l f s).pins = s.pins ∧ (modSLane l f s).win = s.win ∧
    (modSLane l f s).i3c = s.i3c ∧ (modSLane l f s).reeve = s.reeve ∧
    (modSLane l f s).settings = s.settings ∧ (modSLane l f s).counters = s.counters ∧
    (modSLane l f s).freeCtr = s.freeCtr ∧ (modSLane l f s).pending = s.pending := by
  refine ⟨?_, ?_, ?_, ?_, ?_, ?_, ?_, ?_, ?_, ?_, ?_, ?_, ?_, ?_, ?_, ?_, ?_, ?_, ?_, ?_, ?_, ?_, ?_, ?_, ?_, ?_, ?_, ?_, ?_, ?_, ?_⟩ <;> rfl

@[simp] theorem modCls_rest {f : Cls → Cls} :
    (modCls f s).clk = s.clk ∧ (modCls f s).lanes = s.lanes ∧ (modCls f s).groups = s.groups ∧
    (modCls f s).lots = s.lots ∧ (modCls f s).reasm = s.reasm ∧ (modCls f s).toTime = s.toTime ∧
    (modCls f s).toReeve = s.toReeve ∧ (modCls f s).inQ = s.inQ ∧ (modCls f s).us = s.us ∧
    (modCls f s).act = s.act ∧ (modCls f s).sup = s.sup ∧ (modCls f s).time = s.time ∧
    (modCls f s).qos = s.qos ∧ (modCls f s).cry = s.cry ∧ (modCls f s).tine = s.tine ∧
    (modCls f s).ports = s.ports ∧ (modCls f s).slanes = s.slanes ∧ (modCls f s).pwr = s.pwr ∧
    (modCls f s).pair = s.pair ∧ (modCls f s).fuses = s.fuses ∧ (modCls f s).sec = s.sec ∧
    (modCls f s).flash = s.flash ∧ (modCls f s).life = s.life ∧ (modCls f s).pins = s.pins ∧
    (modCls f s).win = s.win ∧ (modCls f s).i3c = s.i3c ∧ (modCls f s).reeve = s.reeve ∧
    (modCls f s).settings = s.settings ∧ (modCls f s).counters = s.counters ∧
    (modCls f s).freeCtr = s.freeCtr ∧ (modCls f s).pending = s.pending := by
  refine ⟨?_, ?_, ?_, ?_, ?_, ?_, ?_, ?_, ?_, ?_, ?_, ?_, ?_, ?_, ?_, ?_, ?_, ?_, ?_, ?_, ?_, ?_, ?_, ?_, ?_, ?_, ?_, ?_, ?_, ?_, ?_⟩ <;> rfl

@[simp] theorem modTine_rest {f : Tine → Tine} :
    (modTine f s).clk = s.clk ∧ (modTine f s).lanes = s.lanes ∧ (modTine f s).groups = s.groups ∧
    (modTine f s).lots = s.lots ∧ (modTine f s).reasm = s.reasm ∧
    (modTine f s).toTime = s.toTime ∧ (modTine f s).toReeve = s.toReeve ∧
    (modTine f s).inQ = s.inQ ∧ (modTine f s).us = s.us ∧ (modTine f s).act = s.act ∧
    (modTine f s).sup = s.sup ∧ (modTine f s).time = s.time ∧ (modTine f s).qos = s.qos ∧
    (modTine f s).cry = s.cry ∧ (modTine f s).cls = s.cls ∧ (modTine f s).ports = s.ports ∧
    (modTine f s).slanes = s.slanes ∧ (modTine f s).pwr = s.pwr ∧ (modTine f s).pair = s.pair ∧
    (modTine f s).fuses = s.fuses ∧ (modTine f s).sec = s.sec ∧ (modTine f s).flash = s.flash ∧
    (modTine f s).life = s.life ∧ (modTine f s).pins = s.pins ∧ (modTine f s).win = s.win ∧
    (modTine f s).i3c = s.i3c ∧ (modTine f s).reeve = s.reeve ∧
    (modTine f s).settings = s.settings ∧ (modTine f s).counters = s.counters ∧
    (modTine f s).freeCtr = s.freeCtr ∧ (modTine f s).pending = s.pending := by
  refine ⟨?_, ?_, ?_, ?_, ?_, ?_, ?_, ?_, ?_, ?_, ?_, ?_, ?_, ?_, ?_, ?_, ?_, ?_, ?_, ?_, ?_, ?_, ?_, ?_, ?_, ?_, ?_, ?_, ?_, ?_, ?_⟩ <;> rfl

@[simp] theorem modProg_rest {p : Nat} {f : Prog → Prog} :
    (modProg p f s).clk = s.clk ∧ (modProg p f s).lanes = s.lanes ∧
    (modProg p f s).groups = s.groups ∧ (modProg p f s).lots = s.lots ∧
    (modProg p f s).reasm = s.reasm ∧ (modProg p f s).toTime = s.toTime ∧
    (modProg p f s).toReeve = s.toReeve ∧ (modProg p f s).inQ = s.inQ ∧
    (modProg p f s).us = s.us ∧ (modProg p f s).act = s.act ∧ (modProg p f s).sup = s.sup ∧
    (modProg p f s).time = s.time ∧ (modProg p f s).qos = s.qos ∧ (modProg p f s).cry = s.cry ∧
    (modProg p f s).cls = s.cls ∧ (modProg p f s).ports = s.ports ∧
    (modProg p f s).slanes = s.slanes ∧ (modProg p f s).pwr = s.pwr ∧
    (modProg p f s).pair = s.pair ∧ (modProg p f s).fuses = s.fuses ∧
    (modProg p f s).sec = s.sec ∧ (modProg p f s).flash = s.flash ∧
    (modProg p f s).life = s.life ∧ (modProg p f s).pins = s.pins ∧ (modProg p f s).win = s.win ∧
    (modProg p f s).i3c = s.i3c ∧ (modProg p f s).reeve = s.reeve ∧
    (modProg p f s).settings = s.settings ∧ (modProg p f s).counters = s.counters ∧
    (modProg p f s).freeCtr = s.freeCtr ∧ (modProg p f s).pending = s.pending := by
  refine ⟨?_, ?_, ?_, ?_, ?_, ?_, ?_, ?_, ?_, ?_, ?_, ?_, ?_, ?_, ?_, ?_, ?_, ?_, ?_, ?_, ?_, ?_, ?_, ?_, ?_, ?_, ?_, ?_, ?_, ?_, ?_⟩ <;> rfl

@[simp] theorem modThread_rest {h t n : Nat} {f : Thread → Thread} :
    (modThread h t n f s).clk = s.clk ∧ (modThread h t n f s).lanes = s.lanes ∧
    (modThread h t n f s).groups = s.groups ∧ (modThread h t n f s).lots = s.lots ∧
    (modThread h t n f s).reasm = s.reasm ∧ (modThread h t n f s).toTime = s.toTime ∧
    (modThread h t n f s).toReeve = s.toReeve ∧ (modThread h t n f s).inQ = s.inQ ∧
    (modThread h t n f s).us = s.us ∧ (modThread h t n f s).act = s.act ∧
    (modThread h t n f s).sup = s.sup ∧ (modThread h t n f s).time = s.time ∧
    (modThread h t n f s).qos = s.qos ∧ (modThread h t n f s).cry = s.cry ∧
    (modThread h t n f s).cls = s.cls ∧ (modThread h t n f s).ports = s.ports ∧
    (modThread h t n f s).slanes = s.slanes ∧ (modThread h t n f s).pwr = s.pwr ∧
    (modThread h t n f s).pair = s.pair ∧ (modThread h t n f s).fuses = s.fuses ∧
    (modThread h t n f s).sec = s.sec ∧ (modThread h t n f s).flash = s.flash ∧
    (modThread h t n f s).life = s.life ∧ (modThread h t n f s).pins = s.pins ∧
    (modThread h t n f s).win = s.win ∧ (modThread h t n f s).i3c = s.i3c ∧
    (modThread h t n f s).reeve = s.reeve ∧ (modThread h t n f s).settings = s.settings ∧
    (modThread h t n f s).counters = s.counters ∧ (modThread h t n f s).freeCtr = s.freeCtr ∧
    (modThread h t n f s).pending = s.pending := by
  refine ⟨?_, ?_, ?_, ?_, ?_, ?_, ?_, ?_, ?_, ?_, ?_, ?_, ?_, ?_, ?_, ?_, ?_, ?_, ?_, ?_, ?_, ?_, ?_, ?_, ?_, ?_, ?_, ?_, ?_, ?_, ?_⟩ <;> rfl

@[simp] theorem modPmc_rest {h t : Nat} {f : Pmc → Pmc} :
    (modPmc h t f s).clk = s.clk ∧ (modPmc h t f s).lanes = s.lanes ∧
    (modPmc h t f s).groups = s.groups ∧ (modPmc h t f s).lots = s.lots ∧
    (modPmc h t f s).reasm = s.reasm ∧ (modPmc h t f s).toTime = s.toTime ∧
    (modPmc h t f s).toReeve = s.toReeve ∧ (modPmc h t f s).inQ = s.inQ ∧
    (modPmc h t f s).us = s.us ∧ (modPmc h t f s).act = s.act ∧ (modPmc h t f s).sup = s.sup ∧
    (modPmc h t f s).time = s.time ∧ (modPmc h t f s).qos = s.qos ∧
    (modPmc h t f s).cry = s.cry ∧ (modPmc h t f s).cls = s.cls ∧
    (modPmc h t f s).ports = s.ports ∧ (modPmc h t f s).slanes = s.slanes ∧
    (modPmc h t f s).pwr = s.pwr ∧ (modPmc h t f s).pair = s.pair ∧
    (modPmc h t f s).fuses = s.fuses ∧ (modPmc h t f s).sec = s.sec ∧
    (modPmc h t f s).flash = s.flash ∧ (modPmc h t f s).life = s.life ∧
    (modPmc h t f s).pins = s.pins ∧ (modPmc h t f s).win = s.win ∧
    (modPmc h t f s).i3c = s.i3c ∧ (modPmc h t f s).reeve = s.reeve ∧
    (modPmc h t f s).settings = s.settings ∧ (modPmc h t f s).counters = s.counters ∧
    (modPmc h t f s).freeCtr = s.freeCtr ∧ (modPmc h t f s).pending = s.pending := by
  refine ⟨?_, ?_, ?_, ?_, ?_, ?_, ?_, ?_, ?_, ?_, ?_, ?_, ?_, ?_, ?_, ?_, ?_, ?_, ?_, ?_, ?_, ?_, ?_, ?_, ?_, ?_, ?_, ?_, ?_, ?_, ?_⟩ <;> rfl

@[simp] theorem modSamp_rest {h : Nat} {f : Samp → Samp} :
    (modSamp h f s).clk = s.clk ∧ (modSamp h f s).lanes = s.lanes ∧
    (modSamp h f s).groups = s.groups ∧ (modSamp h f s).lots = s.lots ∧
    (modSamp h f s).reasm = s.reasm ∧ (modSamp h f s).toTime = s.toTime ∧
    (modSamp h f s).toReeve = s.toReeve ∧ (modSamp h f s).inQ = s.inQ ∧
    (modSamp h f s).us = s.us ∧ (modSamp h f s).act = s.act ∧ (modSamp h f s).sup = s.sup ∧
    (modSamp h f s).time = s.time ∧ (modSamp h f s).qos = s.qos ∧ (modSamp h f s).cry = s.cry ∧
    (modSamp h f s).cls = s.cls ∧ (modSamp h f s).ports = s.ports ∧
    (modSamp h f s).slanes = s.slanes ∧ (modSamp h f s).pwr = s.pwr ∧
    (modSamp h f s).pair = s.pair ∧ (modSamp h f s).fuses = s.fuses ∧
    (modSamp h f s).sec = s.sec ∧ (modSamp h f s).flash = s.flash ∧
    (modSamp h f s).life = s.life ∧ (modSamp h f s).pins = s.pins ∧ (modSamp h f s).win = s.win ∧
    (modSamp h f s).i3c = s.i3c ∧ (modSamp h f s).reeve = s.reeve ∧
    (modSamp h f s).settings = s.settings ∧ (modSamp h f s).counters = s.counters ∧
    (modSamp h f s).freeCtr = s.freeCtr ∧ (modSamp h f s).pending = s.pending := by
  refine ⟨?_, ?_, ?_, ?_, ?_, ?_, ?_, ?_, ?_, ?_, ?_, ?_, ?_, ?_, ?_, ?_, ?_, ?_, ?_, ?_, ?_, ?_, ?_, ?_, ?_, ?_, ?_, ?_, ?_, ?_, ?_⟩ <;> rfl

@[simp] theorem modPwr_rest {f : Pwr → Pwr} :
    (modPwr f s).clk = s.clk ∧ (modPwr f s).lanes = s.lanes ∧ (modPwr f s).groups = s.groups ∧
    (modPwr f s).lots = s.lots ∧ (modPwr f s).reasm = s.reasm ∧ (modPwr f s).toTime = s.toTime ∧
    (modPwr f s).toReeve = s.toReeve ∧ (modPwr f s).inQ = s.inQ ∧ (modPwr f s).us = s.us ∧
    (modPwr f s).act = s.act ∧ (modPwr f s).sup = s.sup ∧ (modPwr f s).time = s.time ∧
    (modPwr f s).qos = s.qos ∧ (modPwr f s).cry = s.cry ∧ (modPwr f s).cls = s.cls ∧
    (modPwr f s).tine = s.tine ∧ (modPwr f s).ports = s.ports ∧ (modPwr f s).slanes = s.slanes ∧
    (modPwr f s).pair = s.pair ∧ (modPwr f s).fuses = s.fuses ∧ (modPwr f s).sec = s.sec ∧
    (modPwr f s).flash = s.flash ∧ (modPwr f s).life = s.life ∧ (modPwr f s).pins = s.pins ∧
    (modPwr f s).win = s.win ∧ (modPwr f s).i3c = s.i3c ∧ (modPwr f s).reeve = s.reeve ∧
    (modPwr f s).settings = s.settings ∧ (modPwr f s).counters = s.counters ∧
    (modPwr f s).freeCtr = s.freeCtr ∧ (modPwr f s).pending = s.pending := by
  refine ⟨?_, ?_, ?_, ?_, ?_, ?_, ?_, ?_, ?_, ?_, ?_, ?_, ?_, ?_, ?_, ?_, ?_, ?_, ?_, ?_, ?_, ?_, ?_, ?_, ?_, ?_, ?_, ?_, ?_, ?_, ?_⟩ <;> rfl

@[simp] theorem modPair_rest {f : Pair → Pair} :
    (modPair f s).clk = s.clk ∧ (modPair f s).lanes = s.lanes ∧ (modPair f s).groups = s.groups ∧
    (modPair f s).lots = s.lots ∧ (modPair f s).reasm = s.reasm ∧
    (modPair f s).toTime = s.toTime ∧ (modPair f s).toReeve = s.toReeve ∧
    (modPair f s).inQ = s.inQ ∧ (modPair f s).us = s.us ∧ (modPair f s).act = s.act ∧
    (modPair f s).sup = s.sup ∧ (modPair f s).time = s.time ∧ (modPair f s).qos = s.qos ∧
    (modPair f s).cry = s.cry ∧ (modPair f s).cls = s.cls ∧ (modPair f s).tine = s.tine ∧
    (modPair f s).ports = s.ports ∧ (modPair f s).slanes = s.slanes ∧ (modPair f s).pwr = s.pwr ∧
    (modPair f s).fuses = s.fuses ∧ (modPair f s).sec = s.sec ∧ (modPair f s).flash = s.flash ∧
    (modPair f s).life = s.life ∧ (modPair f s).pins = s.pins ∧ (modPair f s).win = s.win ∧
    (modPair f s).i3c = s.i3c ∧ (modPair f s).reeve = s.reeve ∧
    (modPair f s).settings = s.settings ∧ (modPair f s).counters = s.counters ∧
    (modPair f s).freeCtr = s.freeCtr ∧ (modPair f s).pending = s.pending := by
  refine ⟨?_, ?_, ?_, ?_, ?_, ?_, ?_, ?_, ?_, ?_, ?_, ?_, ?_, ?_, ?_, ?_, ?_, ?_, ?_, ?_, ?_, ?_, ?_, ?_, ?_, ?_, ?_, ?_, ?_, ?_, ?_⟩ <;> rfl

@[simp] theorem modRegion_rest {b : Bool} {f : Tab (BitVec 8) → Tab (BitVec 8)} :
    (modRegion b f s).clk = s.clk ∧ (modRegion b f s).lanes = s.lanes ∧
    (modRegion b f s).groups = s.groups ∧ (modRegion b f s).lots = s.lots ∧
    (modRegion b f s).reasm = s.reasm ∧ (modRegion b f s).toTime = s.toTime ∧
    (modRegion b f s).toReeve = s.toReeve ∧ (modRegion b f s).inQ = s.inQ ∧
    (modRegion b f s).us = s.us ∧ (modRegion b f s).act = s.act ∧ (modRegion b f s).sup = s.sup ∧
    (modRegion b f s).time = s.time ∧ (modRegion b f s).qos = s.qos ∧
    (modRegion b f s).cry = s.cry ∧ (modRegion b f s).cls = s.cls ∧
    (modRegion b f s).tine = s.tine ∧ (modRegion b f s).ports = s.ports ∧
    (modRegion b f s).slanes = s.slanes ∧ (modRegion b f s).pwr = s.pwr ∧
    (modRegion b f s).pair = s.pair ∧ (modRegion b f s).fuses = s.fuses ∧
    (modRegion b f s).sec = s.sec ∧ (modRegion b f s).life = s.life ∧
    (modRegion b f s).pins = s.pins ∧ (modRegion b f s).win = s.win ∧
    (modRegion b f s).i3c = s.i3c ∧ (modRegion b f s).reeve = s.reeve ∧
    (modRegion b f s).settings = s.settings ∧ (modRegion b f s).counters = s.counters ∧
    (modRegion b f s).freeCtr = s.freeCtr ∧ (modRegion b f s).pending = s.pending := by
  refine ⟨?_, ?_, ?_, ?_, ?_, ?_, ?_, ?_, ?_, ?_, ?_, ?_, ?_, ?_, ?_, ?_, ?_, ?_, ?_, ?_, ?_, ?_, ?_, ?_, ?_, ?_, ?_, ?_, ?_, ?_, ?_⟩ <;> rfl

@[simp] theorem modWin_rest {f : Win → Win} :
    (modWin f s).clk = s.clk ∧ (modWin f s).lanes = s.lanes ∧ (modWin f s).groups = s.groups ∧
    (modWin f s).lots = s.lots ∧ (modWin f s).reasm = s.reasm ∧ (modWin f s).toTime = s.toTime ∧
    (modWin f s).toReeve = s.toReeve ∧ (modWin f s).inQ = s.inQ ∧ (modWin f s).us = s.us ∧
    (modWin f s).act = s.act ∧ (modWin f s).sup = s.sup ∧ (modWin f s).time = s.time ∧
    (modWin f s).qos = s.qos ∧ (modWin f s).cry = s.cry ∧ (modWin f s).cls = s.cls ∧
    (modWin f s).tine = s.tine ∧ (modWin f s).ports = s.ports ∧ (modWin f s).slanes = s.slanes ∧
    (modWin f s).pwr = s.pwr ∧ (modWin f s).pair = s.pair ∧ (modWin f s).fuses = s.fuses ∧
    (modWin f s).sec = s.sec ∧ (modWin f s).flash = s.flash ∧ (modWin f s).life = s.life ∧
    (modWin f s).pins = s.pins ∧ (modWin f s).i3c = s.i3c ∧ (modWin f s).reeve = s.reeve ∧
    (modWin f s).settings = s.settings ∧ (modWin f s).counters = s.counters ∧
    (modWin f s).freeCtr = s.freeCtr ∧ (modWin f s).pending = s.pending := by
  refine ⟨?_, ?_, ?_, ?_, ?_, ?_, ?_, ?_, ?_, ?_, ?_, ?_, ?_, ?_, ?_, ?_, ?_, ?_, ?_, ?_, ?_, ?_, ?_, ?_, ?_, ?_, ?_, ?_, ?_, ?_, ?_⟩ <;> rfl

@[simp] theorem modReeve_rest {f : Reeve → Reeve} :
    (modReeve f s).clk = s.clk ∧ (modReeve f s).lanes = s.lanes ∧
    (modReeve f s).groups = s.groups ∧ (modReeve f s).lots = s.lots ∧
    (modReeve f s).reasm = s.reasm ∧ (modReeve f s).toTime = s.toTime ∧
    (modReeve f s).toReeve = s.toReeve ∧ (modReeve f s).inQ = s.inQ ∧ (modReeve f s).us = s.us ∧
    (modReeve f s).act = s.act ∧ (modReeve f s).sup = s.sup ∧ (modReeve f s).time = s.time ∧
    (modReeve f s).qos = s.qos ∧ (modReeve f s).cry = s.cry ∧ (modReeve f s).cls = s.cls ∧
    (modReeve f s).tine = s.tine ∧ (modReeve f s).ports = s.ports ∧
    (modReeve f s).slanes = s.slanes ∧ (modReeve f s).pwr = s.pwr ∧
    (modReeve f s).pair = s.pair ∧ (modReeve f s).fuses = s.fuses ∧ (modReeve f s).sec = s.sec ∧
    (modReeve f s).flash = s.flash ∧ (modReeve f s).life = s.life ∧
    (modReeve f s).pins = s.pins ∧ (modReeve f s).win = s.win ∧ (modReeve f s).i3c = s.i3c ∧
    (modReeve f s).settings = s.settings ∧ (modReeve f s).counters = s.counters ∧
    (modReeve f s).freeCtr = s.freeCtr ∧ (modReeve f s).pending = s.pending := by
  refine ⟨?_, ?_, ?_, ?_, ?_, ?_, ?_, ?_, ?_, ?_, ?_, ?_, ?_, ?_, ?_, ?_, ?_, ?_, ?_, ?_, ?_, ?_, ?_, ?_, ?_, ?_, ?_, ?_, ?_, ?_, ?_⟩ <;> rfl

@[simp] theorem modI3c_rest {f : I3c → I3c} :
    (modI3c f s).clk = s.clk ∧ (modI3c f s).lanes = s.lanes ∧ (modI3c f s).groups = s.groups ∧
    (modI3c f s).lots = s.lots ∧ (modI3c f s).reasm = s.reasm ∧ (modI3c f s).toTime = s.toTime ∧
    (modI3c f s).toReeve = s.toReeve ∧ (modI3c f s).inQ = s.inQ ∧ (modI3c f s).us = s.us ∧
    (modI3c f s).act = s.act ∧ (modI3c f s).sup = s.sup ∧ (modI3c f s).time = s.time ∧
    (modI3c f s).qos = s.qos ∧ (modI3c f s).cry = s.cry ∧ (modI3c f s).cls = s.cls ∧
    (modI3c f s).tine = s.tine ∧ (modI3c f s).ports = s.ports ∧ (modI3c f s).slanes = s.slanes ∧
    (modI3c f s).pwr = s.pwr ∧ (modI3c f s).pair = s.pair ∧ (modI3c f s).fuses = s.fuses ∧
    (modI3c f s).sec = s.sec ∧ (modI3c f s).flash = s.flash ∧ (modI3c f s).life = s.life ∧
    (modI3c f s).pins = s.pins ∧ (modI3c f s).win = s.win ∧ (modI3c f s).reeve = s.reeve ∧
    (modI3c f s).settings = s.settings ∧ (modI3c f s).counters = s.counters ∧
    (modI3c f s).freeCtr = s.freeCtr ∧ (modI3c f s).pending = s.pending := by
  refine ⟨?_, ?_, ?_, ?_, ?_, ?_, ?_, ?_, ?_, ?_, ?_, ?_, ?_, ?_, ?_, ?_, ?_, ?_, ?_, ?_, ?_, ?_, ?_, ?_, ?_, ?_, ?_, ?_, ?_, ?_, ?_⟩ <;> rfl

@[simp] theorem putSetting_rest {p : SSpec} {scope idx : Nat} {v : Int} :
    (putSetting p scope idx v s).clk = s.clk ∧ (putSetting p scope idx v s).lanes = s.lanes ∧
    (putSetting p scope idx v s).groups = s.groups ∧ (putSetting p scope idx v s).lots = s.lots ∧
    (putSetting p scope idx v s).reasm = s.reasm ∧
    (putSetting p scope idx v s).toTime = s.toTime ∧
    (putSetting p scope idx v s).toReeve = s.toReeve ∧ (putSetting p scope idx v s).inQ = s.inQ ∧
    (putSetting p scope idx v s).us = s.us ∧ (putSetting p scope idx v s).act = s.act ∧
    (putSetting p scope idx v s).sup = s.sup ∧ (putSetting p scope idx v s).time = s.time ∧
    (putSetting p scope idx v s).qos = s.qos ∧ (putSetting p scope idx v s).cry = s.cry ∧
    (putSetting p scope idx v s).cls = s.cls ∧ (putSetting p scope idx v s).tine = s.tine ∧
    (putSetting p scope idx v s).ports = s.ports ∧
    (putSetting p scope idx v s).slanes = s.slanes ∧ (putSetting p scope idx v s).pwr = s.pwr ∧
    (putSetting p scope idx v s).pair = s.pair ∧ (putSetting p scope idx v s).fuses = s.fuses ∧
    (putSetting p scope idx v s).sec = s.sec ∧ (putSetting p scope idx v s).flash = s.flash ∧
    (putSetting p scope idx v s).life = s.life ∧ (putSetting p scope idx v s).pins = s.pins ∧
    (putSetting p scope idx v s).win = s.win ∧ (putSetting p scope idx v s).i3c = s.i3c ∧
    (putSetting p scope idx v s).reeve = s.reeve ∧
    (putSetting p scope idx v s).counters = s.counters ∧
    (putSetting p scope idx v s).freeCtr = s.freeCtr ∧
    (putSetting p scope idx v s).pending = s.pending := by
  refine ⟨?_, ?_, ?_, ?_, ?_, ?_, ?_, ?_, ?_, ?_, ?_, ?_, ?_, ?_, ?_, ?_, ?_, ?_, ?_, ?_, ?_, ?_, ?_, ?_, ?_, ?_, ?_, ?_, ?_, ?_, ?_⟩ <;> rfl

@[simp] theorem drawn_rest :
    (drawn s).clk = s.clk ∧ (drawn s).lanes = s.lanes ∧ (drawn s).groups = s.groups ∧
    (drawn s).lots = s.lots ∧ (drawn s).reasm = s.reasm ∧ (drawn s).toTime = s.toTime ∧
    (drawn s).toReeve = s.toReeve ∧ (drawn s).inQ = s.inQ ∧ (drawn s).us = s.us ∧
    (drawn s).act = s.act ∧ (drawn s).sup = s.sup ∧ (drawn s).time = s.time ∧
    (drawn s).qos = s.qos ∧ (drawn s).cry = s.cry ∧ (drawn s).cls = s.cls ∧
    (drawn s).tine = s.tine ∧ (drawn s).ports = s.ports ∧ (drawn s).slanes = s.slanes ∧
    (drawn s).pwr = s.pwr ∧ (drawn s).pair = s.pair ∧ (drawn s).fuses = s.fuses ∧
    (drawn s).sec = s.sec ∧ (drawn s).flash = s.flash ∧ (drawn s).life = s.life ∧
    (drawn s).pins = s.pins ∧ (drawn s).win = s.win ∧ (drawn s).i3c = s.i3c ∧
    (drawn s).reeve = s.reeve ∧ (drawn s).settings = s.settings ∧
    (drawn s).counters = s.counters ∧ (drawn s).pending = s.pending := by
  refine ⟨?_, ?_, ?_, ?_, ?_, ?_, ?_, ?_, ?_, ?_, ?_, ?_, ?_, ?_, ?_, ?_, ?_, ?_, ?_, ?_, ?_, ?_, ?_, ?_, ?_, ?_, ?_, ?_, ?_, ?_, ?_⟩ <;> rfl

@[simp] theorem bumpRaw_rest {c : CtrId} {scope n : Nat} :
    (bumpRaw c scope n s).clk = s.clk ∧ (bumpRaw c scope n s).lanes = s.lanes ∧
    (bumpRaw c scope n s).groups = s.groups ∧ (bumpRaw c scope n s).lots = s.lots ∧
    (bumpRaw c scope n s).reasm = s.reasm ∧ (bumpRaw c scope n s).toTime = s.toTime ∧
    (bumpRaw c scope n s).toReeve = s.toReeve ∧ (bumpRaw c scope n s).inQ = s.inQ ∧
    (bumpRaw c scope n s).us = s.us ∧ (bumpRaw c scope n s).act = s.act ∧
    (bumpRaw c scope n s).sup = s.sup ∧ (bumpRaw c scope n s).time = s.time ∧
    (bumpRaw c scope n s).qos = s.qos ∧ (bumpRaw c scope n s).cry = s.cry ∧
    (bumpRaw c scope n s).cls = s.cls ∧ (bumpRaw c scope n s).tine = s.tine ∧
    (bumpRaw c scope n s).ports = s.ports ∧ (bumpRaw c scope n s).slanes = s.slanes ∧
    (bumpRaw c scope n s).pwr = s.pwr ∧ (bumpRaw c scope n s).pair = s.pair ∧
    (bumpRaw c scope n s).fuses = s.fuses ∧ (bumpRaw c scope n s).sec = s.sec ∧
    (bumpRaw c scope n s).flash = s.flash ∧ (bumpRaw c scope n s).life = s.life ∧
    (bumpRaw c scope n s).pins = s.pins ∧ (bumpRaw c scope n s).win = s.win ∧
    (bumpRaw c scope n s).i3c = s.i3c ∧ (bumpRaw c scope n s).reeve = s.reeve ∧
    (bumpRaw c scope n s).settings = s.settings ∧ (bumpRaw c scope n s).freeCtr = s.freeCtr ∧
    (bumpRaw c scope n s).pending = s.pending := by
  refine ⟨?_, ?_, ?_, ?_, ?_, ?_, ?_, ?_, ?_, ?_, ?_, ?_, ?_, ?_, ?_, ?_, ?_, ?_, ?_, ?_, ?_, ?_, ?_, ?_, ?_, ?_, ?_, ?_, ?_, ?_, ?_⟩ <;> rfl

/-! Interrupts, events, bins and counters: every field that none of them touches. -/

@[simp] theorem requestIbi_rest {b : BitVec 5} :
    (requestIbi b s).clk = s.clk ∧ (requestIbi b s).lanes = s.lanes ∧
    (requestIbi b s).groups = s.groups ∧ (requestIbi b s).lots = s.lots ∧
    (requestIbi b s).reasm = s.reasm ∧ (requestIbi b s).toTime = s.toTime ∧
    (requestIbi b s).toReeve = s.toReeve ∧ (requestIbi b s).inQ = s.inQ ∧
    (requestIbi b s).us = s.us ∧ (requestIbi b s).act = s.act ∧ (requestIbi b s).sup = s.sup ∧
    (requestIbi b s).time = s.time ∧ (requestIbi b s).qos = s.qos ∧
    (requestIbi b s).cry = s.cry ∧ (requestIbi b s).cls = s.cls ∧
    (requestIbi b s).tine = s.tine ∧ (requestIbi b s).ports = s.ports ∧
    (requestIbi b s).slanes = s.slanes ∧ (requestIbi b s).pwr = s.pwr ∧
    (requestIbi b s).pair = s.pair ∧ (requestIbi b s).fuses = s.fuses ∧
    (requestIbi b s).sec = s.sec ∧ (requestIbi b s).flash = s.flash ∧
    (requestIbi b s).life = s.life ∧ (requestIbi b s).pins = s.pins ∧
    (requestIbi b s).win = s.win ∧ (requestIbi b s).reeve = s.reeve ∧
    (requestIbi b s).settings = s.settings ∧ (requestIbi b s).counters = s.counters ∧
    (requestIbi b s).freeCtr = s.freeCtr ∧ (requestIbi b s).pending = s.pending := by
  unfold requestIbi
  split <;> (refine ⟨?_, ?_, ?_, ?_, ?_, ?_, ?_, ?_, ?_, ?_, ?_, ?_, ?_, ?_, ?_, ?_, ?_, ?_, ?_, ?_, ?_, ?_, ?_, ?_, ?_, ?_, ?_, ?_, ?_, ?_, ?_⟩ <;> rfl)

@[simp] theorem setInt_rest {b : BitVec 5} :
    (setInt b s).clk = s.clk ∧ (setInt b s).lanes = s.lanes ∧ (setInt b s).groups = s.groups ∧
    (setInt b s).lots = s.lots ∧ (setInt b s).reasm = s.reasm ∧ (setInt b s).toTime = s.toTime ∧
    (setInt b s).toReeve = s.toReeve ∧ (setInt b s).inQ = s.inQ ∧ (setInt b s).us = s.us ∧
    (setInt b s).act = s.act ∧ (setInt b s).sup = s.sup ∧ (setInt b s).time = s.time ∧
    (setInt b s).qos = s.qos ∧ (setInt b s).cry = s.cry ∧ (setInt b s).cls = s.cls ∧
    (setInt b s).tine = s.tine ∧ (setInt b s).ports = s.ports ∧ (setInt b s).slanes = s.slanes ∧
    (setInt b s).pwr = s.pwr ∧ (setInt b s).pair = s.pair ∧ (setInt b s).fuses = s.fuses ∧
    (setInt b s).sec = s.sec ∧ (setInt b s).flash = s.flash ∧ (setInt b s).life = s.life ∧
    (setInt b s).pins = s.pins ∧ (setInt b s).reeve = s.reeve ∧
    (setInt b s).settings = s.settings ∧ (setInt b s).counters = s.counters ∧
    (setInt b s).freeCtr = s.freeCtr ∧ (setInt b s).pending = s.pending := by
  unfold setInt requestIbi
  split <;> (refine ⟨?_, ?_, ?_, ?_, ?_, ?_, ?_, ?_, ?_, ?_, ?_, ?_, ?_, ?_, ?_, ?_, ?_, ?_, ?_, ?_, ?_, ?_, ?_, ?_, ?_, ?_, ?_, ?_, ?_, ?_⟩ <;> rfl)

@[simp] theorem postEvent_rest {e : Event} :
    (postEvent e s).clk = s.clk ∧ (postEvent e s).lanes = s.lanes ∧
    (postEvent e s).groups = s.groups ∧ (postEvent e s).lots = s.lots ∧
    (postEvent e s).reasm = s.reasm ∧ (postEvent e s).toTime = s.toTime ∧
    (postEvent e s).toReeve = s.toReeve ∧ (postEvent e s).inQ = s.inQ ∧
    (postEvent e s).us = s.us ∧ (postEvent e s).act = s.act ∧ (postEvent e s).sup = s.sup ∧
    (postEvent e s).time = s.time ∧ (postEvent e s).qos = s.qos ∧ (postEvent e s).cry = s.cry ∧
    (postEvent e s).cls = s.cls ∧ (postEvent e s).tine = s.tine ∧
    (postEvent e s).ports = s.ports ∧ (postEvent e s).slanes = s.slanes ∧
    (postEvent e s).pwr = s.pwr ∧ (postEvent e s).pair = s.pair ∧
    (postEvent e s).fuses = s.fuses ∧ (postEvent e s).sec = s.sec ∧
    (postEvent e s).flash = s.flash ∧ (postEvent e s).life = s.life ∧
    (postEvent e s).pins = s.pins ∧ (postEvent e s).settings = s.settings ∧
    (postEvent e s).freeCtr = s.freeCtr ∧ (postEvent e s).pending = s.pending := by
  unfold postEvent pushEvent
  split
  · simp only [setInt_rest, and_self]
  · refine ⟨?_, ?_, ?_, ?_, ?_, ?_, ?_, ?_, ?_, ?_, ?_, ?_, ?_, ?_, ?_, ?_, ?_, ?_, ?_, ?_, ?_, ?_, ?_, ?_, ?_, ?_, ?_, ?_⟩ <;> rfl

@[simp] theorem raise_rest {code : BitVec 16} {idx data : Nat} :
    (raise code idx data s).clk = s.clk ∧ (raise code idx data s).lanes = s.lanes ∧
    (raise code idx data s).groups = s.groups ∧ (raise code idx data s).lots = s.lots ∧
    (raise code idx data s).reasm = s.reasm ∧ (raise code idx data s).toTime = s.toTime ∧
    (raise code idx data s).toReeve = s.toReeve ∧ (raise code idx data s).inQ = s.inQ ∧
    (raise code idx data s).us = s.us ∧ (raise code idx data s).act = s.act ∧
    (raise code idx data s).sup = s.sup ∧ (raise code idx data s).time = s.time ∧
    (raise code idx data s).qos = s.qos ∧ (raise code idx data s).cry = s.cry ∧
    (raise code idx data s).cls = s.cls ∧ (raise code idx data s).tine = s.tine ∧
    (raise code idx data s).ports = s.ports ∧ (raise code idx data s).slanes = s.slanes ∧
    (raise code idx data s).pwr = s.pwr ∧ (raise code idx data s).pair = s.pair ∧
    (raise code idx data s).fuses = s.fuses ∧ (raise code idx data s).sec = s.sec ∧
    (raise code idx data s).flash = s.flash ∧ (raise code idx data s).life = s.life ∧
    (raise code idx data s).pins = s.pins ∧ (raise code idx data s).settings = s.settings ∧
    (raise code idx data s).freeCtr = s.freeCtr ∧ (raise code idx data s).pending = s.pending := by
  exact postEvent_rest

@[simp] theorem raiseTag_rest {code : BitVec 16} {idx data : Nat} {tag : BitVec 16} {m : Bool} :
    (raiseTag code idx data tag m s).clk = s.clk ∧
    (raiseTag code idx data tag m s).lanes = s.lanes ∧
    (raiseTag code idx data tag m s).groups = s.groups ∧
    (raiseTag code idx data tag m s).lots = s.lots ∧
    (raiseTag code idx data tag m s).reasm = s.reasm ∧
    (raiseTag code idx data tag m s).toTime = s.toTime ∧
    (raiseTag code idx data tag m s).toReeve = s.toReeve ∧
    (raiseTag code idx data tag m s).inQ = s.inQ ∧ (raiseTag code idx data tag m s).us = s.us ∧
    (raiseTag code idx data tag m s).act = s.act ∧ (raiseTag code idx data tag m s).sup = s.sup ∧
    (raiseTag code idx data tag m s).time = s.time ∧
    (raiseTag code idx data tag m s).qos = s.qos ∧ (raiseTag code idx data tag m s).cry = s.cry ∧
    (raiseTag code idx data tag m s).cls = s.cls ∧
    (raiseTag code idx data tag m s).tine = s.tine ∧
    (raiseTag code idx data tag m s).ports = s.ports ∧
    (raiseTag code idx data tag m s).slanes = s.slanes ∧
    (raiseTag code idx data tag m s).pwr = s.pwr ∧
    (raiseTag code idx data tag m s).pair = s.pair ∧
    (raiseTag code idx data tag m s).fuses = s.fuses ∧
    (raiseTag code idx data tag m s).sec = s.sec ∧
    (raiseTag code idx data tag m s).flash = s.flash ∧
    (raiseTag code idx data tag m s).life = s.life ∧
    (raiseTag code idx data tag m s).pins = s.pins ∧
    (raiseTag code idx data tag m s).settings = s.settings ∧
    (raiseTag code idx data tag m s).freeCtr = s.freeCtr ∧
    (raiseTag code idx data tag m s).pending = s.pending := by
  exact postEvent_rest

@[simp] theorem tcaCheck_rest {day : Bool} {n scope : Nat} :
    (tcaCheck day n scope s).clk = s.clk ∧ (tcaCheck day n scope s).lanes = s.lanes ∧
    (tcaCheck day n scope s).groups = s.groups ∧ (tcaCheck day n scope s).lots = s.lots ∧
    (tcaCheck day n scope s).reasm = s.reasm ∧ (tcaCheck day n scope s).toTime = s.toTime ∧
    (tcaCheck day n scope s).toReeve = s.toReeve ∧ (tcaCheck day n scope s).inQ = s.inQ ∧
    (tcaCheck day n scope s).us = s.us ∧ (tcaCheck day n scope s).act = s.act ∧
    (tcaCheck day n scope s).time = s.time ∧ (tcaCheck day n scope s).qos = s.qos ∧
    (tcaCheck day n scope s).cry = s.cry ∧ (tcaCheck day n scope s).cls = s.cls ∧
    (tcaCheck day n scope s).tine = s.tine ∧ (tcaCheck day n scope s).ports = s.ports ∧
    (tcaCheck day n scope s).slanes = s.slanes ∧ (tcaCheck day n scope s).pwr = s.pwr ∧
    (tcaCheck day n scope s).pair = s.pair ∧ (tcaCheck day n scope s).fuses = s.fuses ∧
    (tcaCheck day n scope s).sec = s.sec ∧ (tcaCheck day n scope s).flash = s.flash ∧
    (tcaCheck day n scope s).life = s.life ∧ (tcaCheck day n scope s).pins = s.pins ∧
    (tcaCheck day n scope s).settings = s.settings ∧
    (tcaCheck day n scope s).freeCtr = s.freeCtr ∧ (tcaCheck day n scope s).pending = s.pending := by
  unfold tcaCheck
  dsimp only
  generalize (if day = true then s.sup.openDay else s.sup.open15) = b
  split
  · simp only [raise_rest, and_self]
  · simp only [and_self]

@[simp] theorem binAdd_rest {k scope n : Nat} :
    (binAdd k scope n s).clk = s.clk ∧ (binAdd k scope n s).lanes = s.lanes ∧
    (binAdd k scope n s).groups = s.groups ∧ (binAdd k scope n s).lots = s.lots ∧
    (binAdd k scope n s).reasm = s.reasm ∧ (binAdd k scope n s).toTime = s.toTime ∧
    (binAdd k scope n s).toReeve = s.toReeve ∧ (binAdd k scope n s).inQ = s.inQ ∧
    (binAdd k scope n s).us = s.us ∧ (binAdd k scope n s).act = s.act ∧
    (binAdd k scope n s).time = s.time ∧ (binAdd k scope n s).qos = s.qos ∧
    (binAdd k scope n s).cry = s.cry ∧ (binAdd k scope n s).cls = s.cls ∧
    (binAdd k scope n s).tine = s.tine ∧ (binAdd k scope n s).ports = s.ports ∧
    (binAdd k scope n s).slanes = s.slanes ∧ (binAdd k scope n s).pwr = s.pwr ∧
    (binAdd k scope n s).pair = s.pair ∧ (binAdd k scope n s).fuses = s.fuses ∧
    (binAdd k scope n s).sec = s.sec ∧ (binAdd k scope n s).flash = s.flash ∧
    (binAdd k scope n s).life = s.life ∧ (binAdd k scope n s).pins = s.pins ∧
    (binAdd k scope n s).settings = s.settings ∧ (binAdd k scope n s).freeCtr = s.freeCtr ∧
    (binAdd k scope n s).pending = s.pending := by
  simp only [binAdd, tcaCheck_rest, and_self]

@[simp] theorem lifeTotal_rest {c : CtrId} {scope n : Nat} :
    (lifeTotal c scope n s).clk = s.clk ∧ (lifeTotal c scope n s).lanes = s.lanes ∧
    (lifeTotal c scope n s).groups = s.groups ∧ (lifeTotal c scope n s).lots = s.lots ∧
    (lifeTotal c scope n s).reasm = s.reasm ∧ (lifeTotal c scope n s).toTime = s.toTime ∧
    (lifeTotal c scope n s).toReeve = s.toReeve ∧ (lifeTotal c scope n s).inQ = s.inQ ∧
    (lifeTotal c scope n s).us = s.us ∧ (lifeTotal c scope n s).act = s.act ∧
    (lifeTotal c scope n s).sup = s.sup ∧ (lifeTotal c scope n s).time = s.time ∧
    (lifeTotal c scope n s).qos = s.qos ∧ (lifeTotal c scope n s).cry = s.cry ∧
    (lifeTotal c scope n s).cls = s.cls ∧ (lifeTotal c scope n s).tine = s.tine ∧
    (lifeTotal c scope n s).ports = s.ports ∧ (lifeTotal c scope n s).slanes = s.slanes ∧
    (lifeTotal c scope n s).pwr = s.pwr ∧ (lifeTotal c scope n s).pair = s.pair ∧
    (lifeTotal c scope n s).fuses = s.fuses ∧ (lifeTotal c scope n s).sec = s.sec ∧
    (lifeTotal c scope n s).flash = s.flash ∧ (lifeTotal c scope n s).pins = s.pins ∧
    (lifeTotal c scope n s).win = s.win ∧ (lifeTotal c scope n s).i3c = s.i3c ∧
    (lifeTotal c scope n s).reeve = s.reeve ∧ (lifeTotal c scope n s).settings = s.settings ∧
    (lifeTotal c scope n s).counters = s.counters ∧ (lifeTotal c scope n s).freeCtr = s.freeCtr ∧
    (lifeTotal c scope n s).pending = s.pending := by
  unfold lifeTotal
  dsimp only
  split
  · simp only [and_self]
  · split <;> simp only [and_self]

@[simp] theorem bump_rest {c : CtrId} {scope n : Nat} :
    (bump c scope n s).clk = s.clk ∧ (bump c scope n s).lanes = s.lanes ∧
    (bump c scope n s).groups = s.groups ∧ (bump c scope n s).lots = s.lots ∧
    (bump c scope n s).reasm = s.reasm ∧ (bump c scope n s).toTime = s.toTime ∧
    (bump c scope n s).toReeve = s.toReeve ∧ (bump c scope n s).inQ = s.inQ ∧
    (bump c scope n s).us = s.us ∧ (bump c scope n s).act = s.act ∧
    (bump c scope n s).time = s.time ∧ (bump c scope n s).qos = s.qos ∧
    (bump c scope n s).cry = s.cry ∧ (bump c scope n s).cls = s.cls ∧
    (bump c scope n s).tine = s.tine ∧ (bump c scope n s).ports = s.ports ∧
    (bump c scope n s).slanes = s.slanes ∧ (bump c scope n s).pwr = s.pwr ∧
    (bump c scope n s).pair = s.pair ∧ (bump c scope n s).fuses = s.fuses ∧
    (bump c scope n s).sec = s.sec ∧ (bump c scope n s).flash = s.flash ∧
    (bump c scope n s).pins = s.pins ∧ (bump c scope n s).settings = s.settings ∧
    (bump c scope n s).freeCtr = s.freeCtr ∧ (bump c scope n s).pending = s.pending := by
  unfold bump
  dsimp only
  split
  · simp only [and_self]
  · split <;> split <;>
      simp only [binAdd_rest, raise_rest, lifeTotal_rest, bumpRaw_rest, and_self]

/-! Reading back. -/

@[simp] theorem laneOf_modLane (l j : Nat) (f : Lane → Lane) :
    laneOf (modLane l f s) j = if j = l then f (laneOf s l) else laneOf s j :=
  tabGet_mod _ _ _ _ _

@[simp] theorem groupOf_modGroup (l j : Nat) (f : Group → Group) :
    groupOf (modGroup l f s) j = if j = l then f (groupOf s l) else groupOf s j :=
  tabGet_mod _ _ _ _ _

@[simp] theorem usLaneOf_modUsLane (l j : Nat) (f : UsLane → UsLane) :
    usLaneOf (modUsLane l f s) j = if j = l then f (usLaneOf s l) else usLaneOf s j :=
  tabGet_mod _ _ _ _ _

@[simp] theorem instOf_modInst (l j : Nat) (f : Inst → Inst) :
    instOf (modInst l f s) j = if j = l then f (instOf s l) else instOf s j :=
  tabGet_mod _ _ _ _ _

@[simp] theorem supLaneOf_modSupLane (l j : Nat) (f : SupLane → SupLane) :
    supLaneOf (modSupLane l f s) j = if j = l then f (supLaneOf s l) else supLaneOf s j :=
  tabGet_mod _ _ _ _ _

@[simp] theorem supDomOf_modSupDom (l j : Nat) (f : SupDom → SupDom) :
    supDomOf (modSupDom l f s) j = if j = l then f (supDomOf s l) else supDomOf s j :=
  tabGet_mod _ _ _ _ _

@[simp] theorem supInstOf_modSupInst (l j : Nat) (f : SupInst → SupInst) :
    supInstOf (modSupInst l f s) j = if j = l then f (supInstOf s l) else supInstOf s j :=
  tabGet_mod _ _ _ _ _

@[simp] theorem domOf_modDom (l j : Nat) (f : Dom → Dom) :
    domOf (modDom l f s) j = if j = l then f (domOf s l) else domOf s j :=
  tabGet_mod _ _ _ _ _

@[simp] theorem dsOf_modDs (l j : Nat) (f : Queue → Queue) :
    dsOf (modDs l f s) j = if j = l then f (dsOf s l) else dsOf s j :=
  tabGet_mod _ _ _ _ _

@[simp] theorem usOf_modUs (l j : Nat) (f : Queue → Queue) :
    usOf (modUs l f s) j = if j = l then f (usOf s l) else usOf s j :=
  tabGet_mod _ _ _ _ _

@[simp] theorem slotOf_modSlot (l j : Nat) (f : KeySlot → KeySlot) :
    slotOf (modSlot l f s) j = if j = l then f (slotOf s l) else slotOf s j :=
  tabGet_mod _ _ _ _ _

@[simp] theorem portOf_modPort (l j : Nat) (f : Port → Port) :
    portOf (modPort l f s) j = if j = l then f (portOf s l) else portOf s j :=
  tabGet_mod _ _ _ _ _

@[simp] theorem slaneOf_modSLane (l j : Nat) (f : SLane → SLane) :
    slaneOf (modSLane l f s) j = if j = l then f (slaneOf s l) else slaneOf s j :=
  tabGet_mod _ _ _ _ _

@[simp] theorem progOf_modProg (l j : Nat) (f : Prog → Prog) :
    progOf (modProg l f s) j = if j = l then f (progOf s l) else progOf s j :=
  tabGet_mod _ _ _ _ _

@[simp] theorem ctrOf_bumpRaw (c d : CtrId) (a b n : Nat) :
    ctrOf (bumpRaw c a n s) d b =
      if ctrKey d b = ctrKey c a then ctrAdd (ctrOf s c a) n else ctrOf s d b :=
  by simp only [ctrOf, bumpRaw, tabGet_mod]

@[simp] theorem setInt_win {b : BitVec 5} :
    (setInt b s).win = { s.win with intStat := s.win.intStat ||| b } := by
  unfold setInt requestIbi
  split <;> rfl

/-- An event changes INT_STAT alone in the window. -/
theorem postEvent_win {e : Event} :
    (postEvent e s).win = { s.win with intStat := (postEvent e s).win.intStat } := by
  unfold postEvent pushEvent
  split
  · simp only [setInt_win]
  · rfl

theorem raise_win {code : BitVec 16} {idx data : Nat} :
    (raise code idx data s).win =
      { s.win with intStat := (raise code idx data s).win.intStat } := postEvent_win

/-- An event changes the queue of events, the sequence number and the count of lost events alone
in the Reeve. -/
theorem postEvent_reeve {e : Event} :
    (postEvent e s).reeve = { s.reeve with
      events := (postEvent e s).reeve.events
      evSeq := (postEvent e s).reeve.evSeq
      lost := (postEvent e s).reeve.lost } := by
  unfold postEvent pushEvent
  split
  · simp only [setInt_rest]
  · rfl

theorem raise_reeve {code : BitVec 16} {idx data : Nat} :
    (raise code idx data s).reeve = { s.reeve with
      events := (raise code idx data s).reeve.events
      evSeq := (raise code idx data s).reeve.evSeq
      lost := (raise code idx data s).reeve.lost } := postEvent_reeve

/-- An event changes the IBIs asked for alone in the I3C target. -/
theorem postEvent_i3c {e : Event} :
    (postEvent e s).i3c = { s.i3c with ibiPending := (postEvent e s).i3c.ibiPending } := by
  unfold postEvent pushEvent setInt requestIbi
  split
  · dsimp only
    split <;> rfl
  · rfl

theorem raise_i3c {code : BitVec 16} {idx data : Nat} :
    (raise code idx data s).i3c =
      { s.i3c with ibiPending := (raise code idx data s).i3c.ibiPending } := postEvent_i3c

/-- A setting is read from the settings alone. -/
theorem setting_congr {t : State} (h : t.settings = s.settings) (p : SSpec) (scope idx : Nat) :
    setting t p scope idx = setting s p scope idx := by
  simp only [setting, h]

/-- An event that finds room stands at the queue's tail. -/
theorem raise_events {code : BitVec 16} {idx data : Nat} (h : s.reeve.events.length < 64) :
    (raise code idx data s).reeve.events =
      s.reeve.events ++ [{ mkEvent s code idx data none false with seq := s.reeve.evSeq }] := by
  unfold raise postEvent pushEvent
  rw [if_pos h]
  simp only [setInt_rest]

/-- An event that finds no room is lost and counted (R537). -/
theorem raise_lost {code : BitVec 16} {idx data : Nat} (h : ¬ s.reeve.events.length < 64) :
    (raise code idx data s).reeve = { s.reeve with lost := s.reeve.lost + 1 } := by
  unfold raise postEvent
  rw [if_neg h]
  rfl

/-- The counter an event may count, of events lost (R537). -/
def lostKey : Nat := ctrKey cEventsLost scDevice

/-- An event leaves every counter but that of events lost. -/
theorem ctrOf_postEvent {e : Event} {c : CtrId} {a : Nat} (h : ctrKey c a ≠ lostKey) :
    ctrOf (postEvent e s) c a = ctrOf s c a := by
  unfold postEvent pushEvent
  split
  · simp only [ctrOf, setInt_rest]
  · exact (ctrOf_bumpRaw _ _ _ _ _).trans (if_neg h)

theorem ctrOf_raise {code : BitVec 16} {idx data : Nat} {c : CtrId} {a : Nat}
    (h : ctrKey c a ≠ lostKey) : ctrOf (raise code idx data s) c a = ctrOf s c a :=
  ctrOf_postEvent h

theorem ctrOf_binAdd {k x n : Nat} {c : CtrId} {a : Nat} (h : ctrKey c a ≠ lostKey) :
    ctrOf (binAdd k x n s) c a = ctrOf s c a := by
  have ht (day : Bool) (u : State) : ctrOf (tcaCheck day k x u) c a = ctrOf u c a := by
    cases day <;>
    · unfold tcaCheck
      simp only [if_true, if_false, Bool.false_eq_true]
      split
      · exact ctrOf_raise h
      · rfl
  unfold binAdd
  rw [ht, ht]
  rfl

/-- What counting does to the counters: the one named rises, every other but that of events lost
stands (R55). -/
theorem ctrOf_bump {c d : CtrId} {a b n : Nat} (h : ctrKey d b ≠ lostKey) (hn : n ≠ 0) :
    ctrOf (bump c a n s) d b =
      if ctrKey d b = ctrKey c a then ctrAdd (ctrOf s c a) n else ctrOf s d b := by
  have hl : ctrOf (lifeTotal c a n (bumpRaw c a n s)) d b = ctrOf (bumpRaw c a n s) d b := by
    unfold lifeTotal
    dsimp only
    split
    · rfl
    · split <;> rfl
  rw [← ctrOf_bumpRaw, ← hl]
  unfold bump
  rw [if_neg hn]
  dsimp only
  split <;> split <;> simp only [ctrOf_binAdd h, ctrOf_raise h]

/-- An operation that leaves the counters leaves what each counts. -/
theorem ctrOf_congr {t : State} (h : t.counters = s.counters) (c : CtrId) (a : Nat) :
    ctrOf t c a = ctrOf s c a := by
  simp only [ctrOf, h]

end Sys2Proof.Machine
end

