-- ==== Sys2Proof/Laws/Facts.lean ====
section
/-! SUPPORT. What single operations do to single fields, said once, for proofs about commands. -/
namespace Sys2Proof.Machine
variable {s₀ s t : State}

/-! Reading an accessor through the events and the counters. -/

@[simp] theorem laneOf_raise {code : BitVec 16} {idx data k : Nat} :
    laneOf (raise code idx data s) k = laneOf s k := by simp only [laneOf, raise_rest]
@[simp] theorem laneOf_bump {c : CtrId} {a n k : Nat} : laneOf (bump c a n s) k = laneOf s k := by
  simp only [laneOf, bump_rest]
@[simp] theorem groupOf_raise {code : BitVec 16} {idx data k : Nat} :
    groupOf (raise code idx data s) k = groupOf s k := by simp only [groupOf, raise_rest]
@[simp] theorem groupOf_bump {c : CtrId} {a n k : Nat} : groupOf (bump c a n s) k = groupOf s k := by
  simp only [groupOf, bump_rest]
@[simp] theorem usLaneOf_raise {code : BitVec 16} {idx data k : Nat} :
    usLaneOf (raise code idx data s) k = usLaneOf s k := by simp only [usLaneOf, raise_rest]
@[simp] theorem usLaneOf_bump {c : CtrId} {a n k : Nat} : usLaneOf (bump c a n s) k = usLaneOf s k := by
  simp only [usLaneOf, bump_rest]
@[simp] theorem instOf_raise {code : BitVec 16} {idx data k : Nat} :
    instOf (raise code idx data s) k = instOf s k := by simp only [instOf, raise_rest]
@[simp] theorem instOf_bump {c : CtrId} {a n k : Nat} : instOf (bump c a n s) k = instOf s k := by
  simp only [instOf, bump_rest]
@[simp] theorem domOf_raise {code : BitVec 16} {idx data k : Nat} :
    domOf (raise code idx data s) k = domOf s k := by simp only [domOf, raise_rest]
@[simp] theorem domOf_bump {c : CtrId} {a n k : Nat} : domOf (bump c a n s) k = domOf s k := by
  simp only [domOf, bump_rest]
@[simp] theorem dsOf_raise {code : BitVec 16} {idx data k : Nat} :
    dsOf (raise code idx data s) k = dsOf s k := by simp only [dsOf, raise_rest]
@[simp] theorem dsOf_bump {c : CtrId} {a n k : Nat} : dsOf (bump c a n s) k = dsOf s k := by
  simp only [dsOf, bump_rest]
@[simp] theorem usOf_raise {code : BitVec 16} {idx data k : Nat} :
    usOf (raise code idx data s) k = usOf s k := by simp only [usOf, raise_rest]
@[simp] theorem usOf_bump {c : CtrId} {a n k : Nat} : usOf (bump c a n s) k = usOf s k := by
  simp only [usOf, bump_rest]
@[simp] theorem slotOf_raise {code : BitVec 16} {idx data k : Nat} :
    slotOf (raise code idx data s) k = slotOf s k := by simp only [slotOf, raise_rest]
@[simp] theorem slotOf_bump {c : CtrId} {a n k : Nat} : slotOf (bump c a n s) k = slotOf s k := by
  simp only [slotOf, bump_rest]
@[simp] theorem portOf_raise {code : BitVec 16} {idx data k : Nat} :
    portOf (raise code idx data s) k = portOf s k := by simp only [portOf, raise_rest]
@[simp] theorem portOf_bump {c : CtrId} {a n k : Nat} : portOf (bump c a n s) k = portOf s k := by
  simp only [portOf, bump_rest]
@[simp] theorem slaneOf_raise {code : BitVec 16} {idx data k : Nat} :
    slaneOf (raise code idx data s) k = slaneOf s k := by simp only [slaneOf, raise_rest]
@[simp] theorem slaneOf_bump {c : CtrId} {a n k : Nat} : slaneOf (bump c a n s) k = slaneOf s k := by
  simp only [slaneOf, bump_rest]
@[simp] theorem progOf_raise {code : BitVec 16} {idx data k : Nat} :
    progOf (raise code idx data s) k = progOf s k := by simp only [progOf, raise_rest]
@[simp] theorem progOf_bump {c : CtrId} {a n k : Nat} : progOf (bump c a n s) k = progOf s k := by
  simp only [progOf, bump_rest]
@[simp] theorem reasmOf_raise {code : BitVec 16} {idx data k : Nat} :
    reasmOf (raise code idx data s) k = reasmOf s k := by simp only [reasmOf, raise_rest]
@[simp] theorem reasmOf_bump {c : CtrId} {a n k : Nat} : reasmOf (bump c a n s) k = reasmOf s k := by
  simp only [reasmOf, bump_rest]
@[simp] theorem lotOf_raise {code : BitVec 16} {idx data k : Nat} :
    lotOf (raise code idx data s) k = lotOf s k := by simp only [lotOf, raise_rest]
@[simp] theorem lotOf_bump {c : CtrId} {a n k : Nat} : lotOf (bump c a n s) k = lotOf s k := by
  simp only [lotOf, bump_rest]
@[simp] theorem fitOf_raise {code : BitVec 16} {idx data k : Nat} :
    fitOf (raise code idx data s) k = fitOf s k := by simp only [fitOf, raise_rest]
@[simp] theorem fitOf_bump {c : CtrId} {a n k : Nat} : fitOf (bump c a n s) k = fitOf s k := by
  simp only [fitOf, bump_rest]

theorem last_raise {code : BitVec 16} {i d : Nat} {s : State} (h : s.reeve.events.length < 64) :
    (raise code i d s).reeve.events.getLast? =
      some { mkEvent s code i d none false with seq := s.reeve.evSeq } := by
  rw [raise_events h]; simp

theorem refLook_clk (s : State) : (refLook s).clk.pllRunning = s.clk.pllRunning ∧
    (refLook s).clk.onFio = s.clk.onFio ∧ (refLook s).clk.refclk = s.clk.refclk := by
  unfold refLook setRef
  dsimp only
  repeat' split
  all_goals simp only [raise_rest, and_self]

theorem gateLook_none {s : State} (h : ∀ x, (usLaneOf s x).bursts = []) : gateLook s = s := by
  simp only [gateLook, each, h]

theorem portFlushLook_ports (p : Nat) (s : State) : (portFlushLook p s).ports = s.ports :=
  (only_portFlushLook (List.Subset.refl _) (Only.refl s)) .ports (by decide)

theorem pcsFalse_ports (p q : Nat) (s : State) :
    (q ≠ p → portOf (pcsFalse p s) q = portOf s q) ∧
    ((portOf (pcsFalse p s) p).pcsUp = false ∧ (portOf (pcsFalse p s) p).locks = (portOf s p).locks ∧
     (portOf (pcsFalse p s) p).link = if (portOf s p).link = .disabled then .disabled else .down) := by
  have hb (k : Nat) (u : State) (c : CtrId) (a n : Nat) (code : BitVec 16) (i d : Nat) :
      portOf (raise code i d (bump c a n u)) k = portOf u k := by
    simp only [portOf, raise_rest, bump_rest]
  have hf (k p : Nat) (u : State) : portOf (portFlushLook p u) k = portOf u k := by
    simp only [portOf, portFlushLook_ports]
  unfold pcsFalse setLink
  refine ⟨fun hq => ?_, ?_⟩ <;>
  rcases hl : (portOf s p).link <;> simp [hl, hf, hb]
  all_goals first | (intro e; exact absurd e hq) | simp [if_neg hq]

theorem each_fun {β : Type} {f : Nat → State → State} {get : State → Nat → β} {P : β → β → Prop}
    (h1 : ∀ p q s, q ≠ p → get (f p s) q = get s q) (h2 : ∀ p s, P (get s p) (get (f p s) p)) :
    ∀ (ps : List Nat) (u : State), ps.Nodup → (∀ q, q ∉ ps → get (each f ps u) q = get u q) ∧
      ∀ q, q ∈ ps → P (get u q) (get (each f ps u) q) := by
  intro ps
  induction ps with
  | nil => intro u _; exact ⟨fun _ _ => rfl, fun _ h => absurd h (by simp)⟩
  | cons a l ih =>
    intro u hn
    rw [List.nodup_cons] at hn
    obtain ⟨i1, i2⟩ := ih (f a u) hn.2
    refine ⟨fun q hq => ?_, fun q hq => ?_⟩
    · rw [List.mem_cons, not_or] at hq
      rw [each, i1 q hq.2, h1 _ _ _ hq.1]
    · rw [each]
      by_cases e : q = a
      · subst e; rw [i1 q hn.1]; exact h2 _ _
      · rw [List.mem_cons] at hq
        have := i2 q (hq.resolve_left e)
        rw [h1 _ _ _ e] at this; exact this

theorem bootUp_facts {sys : Bool} {s : State} :
    (bootUp sys s).pins = { s.pins with inReset := false } ∧ (bootUp sys s).fuses = s.fuses ∧
    (bootUp sys s).clk = s.clk ∧ (bootUp sys s).win.bootStatus = s.win.bootStatus ∧
    (bootUp sys s).sec.lc = fuseState s := by
  have h : Only [.sup, .life] (romStart sys s) (restoreBins (romStart sys s)) :=
    only_restoreBins (by decide) (Only.refl _)
  have a1 : (restoreBins (romStart sys s)).pins = (romStart sys s).pins := h .pins (by decide)
  have a2 : (restoreBins (romStart sys s)).fuses = s.fuses := h .fuses (by decide)
  have a3 : (restoreBins (romStart sys s)).clk = s.clk := h .clk (by decide)
  have a4 : (restoreBins (romStart sys s)).win = s.win := h .win (by decide)
  have a5 : (restoreBins (romStart sys s)).sec = (romStart sys s).sec := h .sec (by decide)
  unfold bootUp
  dsimp only
  split
  · simp only [raise_rest]
    rw [raise_win, a1, a2, a3, a4, a5]
    exact ⟨rfl, rfl, rfl, rfl, rfl⟩
  · rw [a1, a2, a3, a4, a5]
    exact ⟨rfl, rfl, rfl, rfl, rfl⟩

theorem setBoot_facts {v : BitVec 8} {s : State} (h : s.win.bootStatus ≠ v) :
    (setBoot v s).win.bootStatus = v ∧ (setBoot v s).win.image = s.win.image ∧
    (setBoot v s).win.fallback = s.win.fallback ∧ (setBoot v s).win.fwVersion = s.win.fwVersion ∧
    (setBoot v s).win.recovery = s.win.recovery ∧ (setBoot v s).reeve = s.reeve := by
  unfold setBoot
  rw [if_neg h]
  simp only [setInt_win, setInt_rest]
  simp

theorem next_self {s t : State} (h : s = t) : (Host.Outcome.next s : Out) = .next t := by rw [h]

theorem putSlots_lane (l k : Nat) (ks : List Slot) (s : State) :
    laneOf (putSlots l ks s) k = if k = l then { laneOf s l with slots := ks, st := if ks.isEmpty then .hunt else .verify }
      else laneOf s k := by
  unfold putSlots; exact laneOf_modLane _ _ _

theorem lanes_of_only {ps : List Part} {s t : State} (h : Only ps s t) (hn : Part.lanes ∉ ps) (k : Nat) :
    laneOf t k = laneOf s k := by
  have : t.lanes = s.lanes := h .lanes hn
  simp only [laneOf, this]

theorem excludeLane_lane (l k : Nat) (s : State) :
    laneOf (excludeLane l s) k = if k = l ∧ (laneOf s l).included then
      { laneOf s l with included := false, okSwaths := 0 } else laneOf s k := by
  unfold excludeLane
  by_cases hi : (laneOf s l).included
  · simp only [hi, Bool.not_true, Bool.false_eq_true, if_false, and_true]
    have hm (u : State) (g : Nat) (f : Group → Group) : laneOf (modGroup g f u) k = laneOf u k := rfl
    have h0 : ∀ j, laneOf (if primaryOf s (laneGroup s l) (laneOf s l).sc = some l then
        modGroup (laneGroup s l) (fun y => { y with lostPrimary := some (laneOf s l).sc }) s
        else s) j = laneOf s j := fun j => by split <;> rfl
    generalize (if primaryOf s (laneGroup s l) (laneOf s l).sc = some l then
        modGroup (laneGroup s l) (fun y => { y with lostPrimary := some (laneOf s l).sc }) s
        else s) = s0 at h0 ⊢
    split <;> simp [hm, h0]
  · simp [hi]

theorem wake_lanes (i l k : Nat) (s : State) : laneOf (wakeEvent i l s) k = laneOf s k :=
  lanes_of_only (only_wakeEvent (List.Subset.refl _) (Only.refl s)) (by decide) k

theorem loseLock_lane (l k : Nat) (s : State) :
    laneOf (loseLock l s) k = laneOf (dropAlignment l .hunt s) k := by
  unfold loseLock
  have h1 (u : State) : laneOf (lockLook (lofEntry l u)) k = laneOf u k :=
    lanes_of_only (only_lockLook (ps := [.clk, .lots, .reasm, .us, .act, .sup, .qos, .ports, .pwr, .pair, .life, .win, .i3c,
    .reeve, .counters, .freeCtr]) (by decide) (only_lofEntry (by decide) (Only.refl u))) (by decide) k
  dsimp only
  split
  · rw [wake_lanes, h1]; simp only [laneOf, raise_rest, bump_rest]
  · rw [h1]; simp only [laneOf, raise_rest, bump_rest]

theorem each_put_last {l : Nat} : ∀ (pre : List (Nat × Int)) (r : Nat) (v : Int) (s : State),
    setting (each (fun p s => putSetting (eqSpec p.1) (scLrx l) 0 p.2 s) (pre ++ [(r, v)]) s) (eqSpec r) (scLrx l) = v := by
  intro pre
  induction pre with
  | nil => intro r v s; simp [each, setting, putSetting, tabGet_set]
  | cons a pre ih => intro r v s; exact ih r v _

/-- The alignment of a lane. -/
def acqOf (x : Lane) := ((x.st, x.cdrLocked, x.txLane), x.cw0, x.pos, x.sc)

theorem acq_congr {x y : Lane} (h : acqOf x = acqOf y) : x.st = y.st ∧ x.cdrLocked = y.cdrLocked ∧
    x.txLane = y.txLane ∧ x.cw0 = y.cw0 ∧ x.pos = y.pos ∧ x.sc = y.sc := by
  simp only [acqOf, Prod.mk.injEq] at h
  obtain ⟨⟨a, b, c⟩, d, e, f⟩ := h
  exact ⟨a, b, c, d, e, f⟩

theorem acq_modLane {l k : Nat} {f : Lane → Lane} {s : State} (h : ∀ x, acqOf (f x) = acqOf x) :
    acqOf (laneOf (modLane l f s) k) = acqOf (laneOf s k) := by
  rw [laneOf_modLane]; split
  · rename_i e; rw [e, h]
  · rfl

theorem acq_excludeLane {l k : Nat} {s : State} :
    acqOf (laneOf (excludeLane l s) k) = acqOf (laneOf s k) := by
  rw [excludeLane_lane]; split
  · rename_i h; rw [h.1]; rfl
  · rfl

theorem acq_each {α : Type} {f : α → State → State} {k : Nat}
    (h : ∀ x s, acqOf (laneOf (f x s) k) = acqOf (laneOf s k)) :
    ∀ (xs : List α) (s : State), acqOf (laneOf (each f xs s) k) = acqOf (laneOf s k) := by
  intro xs; induction xs with
  | nil => intro s; rfl
  | cons a xs ih => intro s; rw [each, ih, h]

theorem acq_includeLane {l k : Nat} {sc : BitVec 48} {s : State} :
    acqOf (laneOf (includeLane l sc s) k) = acqOf (laneOf s k) := by
  unfold includeLane
  dsimp only
  rw [laneOf_raise]
  refine Eq.trans (acq_modLane fun _ => rfl) ?_
  split
  · exact acq_each (fun x u => by refine acq_modLane fun _ => ?_; rfl) _ _
  · rfl

theorem acq_excludeNow {l k : Nat} {s : State} :
    acqOf (laneOf (excludeNow l s) k) = acqOf (laneOf s k) := by
  unfold excludeNow
  split
  · exact Eq.trans (acq_modLane fun _ => rfl) acq_excludeLane
  · rfl

theorem acq_bondCompare {l k : Nat} {s : State} :
    acqOf (laneOf (bondCompare l s) k) = acqOf (laneOf s k) := by
  have he (xs : List Nat) (c : Nat → Bool) (u : State) :
      acqOf (laneOf (each (fun c' s' => if c c' then s' else excludeNow c' s') xs u) k) =
      acqOf (laneOf u k) :=
    acq_each (fun x s => by split <;> first | rfl | exact acq_excludeNow) xs u
  unfold bondCompare
  extract_lets g cands a compared ref s1 ok s2 x s3
  have h1 : acqOf (laneOf s1 k) = acqOf (laneOf s k) := he _ _ _
  have h2 : acqOf (laneOf s2 k) = acqOf (laneOf s k) := Eq.trans (acq_modLane fun _ => rfl) h1
  have h3 : acqOf (laneOf s3 k) = acqOf (laneOf s k) := by
    unfold s3
    split
    · exact acq_includeLane.trans h2
    · exact h2
  split
  · exact Eq.trans (acq_modLane fun _ => rfl) acq_excludeLane
  · exact Eq.trans (acq_modLane fun _ => rfl) h3

theorem acq_bondLook {l k : Nat} {s : State} :
    acqOf (laneOf (bondLook l s) k) = acqOf (laneOf s k) := by
  unfold bondLook bondSettle
  exact (acq_each (fun _ _ => by split <;> first | rfl | exact acq_bondCompare) _ _).trans
    (acq_modLane fun _ => rfl)

theorem acq_bondClose {l k : Nat} {s : State} :
    acqOf (laneOf (bondClose l s) k) = acqOf (laneOf s k) := by
  unfold bondClose
  split
  · exact acq_bondCompare
  · rfl

theorem acq_priConflict {g k : Nat} {sc : BitVec 48} {s : State} :
    acqOf (laneOf (priConflict g sc s) k) = acqOf (laneOf s k) := by
  unfold priConflict
  split
  · rfl
  · refine acq_each (fun x u => ?_) _ _
    unfold countConflict
    rw [laneOf_raise, laneOf_bump]
    exact acq_modLane fun _ => rfl

/-- Alignment and scrambler of every lane stay, and every lane but `l` stays whole. -/
def LaneKept (l : Nat) (s t : State) : Prop := ∀ k, acqOf (laneOf t k) = acqOf (laneOf s k) ∧
  (laneOf t k).scr = (laneOf s k).scr ∧ (k ≠ l → laneOf t k = laneOf s k)

theorem LaneKept.refl {l : Nat} (s : State) : LaneKept l s s := fun _ => ⟨rfl, rfl, fun _ => rfl⟩

theorem LaneKept.trans {l : Nat} {s t u : State} (h : LaneKept l s t) (k : LaneKept l t u) :
    LaneKept l s u := fun j =>
  ⟨(k j).1.trans (h j).1, (k j).2.1.trans (h j).2.1, fun e => ((k j).2.2 e).trans ((h j).2.2 e)⟩

theorem LaneKept.mod {l : Nat} {f : Lane → Lane} {s : State}
    (h : acqOf (f (laneOf s l)) = acqOf (laneOf s l) ∧ (f (laneOf s l)).scr = (laneOf s l).scr) :
    LaneKept l s (modLane l f s) := by
  intro k
  rw [laneOf_modLane]
  split
  · rename_i e; subst e; exact ⟨h.1, h.2, fun e => absurd rfl e⟩
  · exact ⟨rfl, rfl, fun _ => rfl⟩

theorem LaneKept.lanes {l : Nat} {s t : State} (h : ∀ k, laneOf t k = laneOf s k) :
    LaneKept l s t := fun k => by rw [h]; exact ⟨rfl, rfl, fun _ => rfl⟩

theorem closeLot_lane {l : Nat} {q : LotKey} {p : Option Bytes} {s : State} :
    LaneKept l s (closeLot l q p s) := by
  unfold closeLot
  refine LaneKept.trans (t := modLane l (fun x => { x with
      waiting := closeIn q p x.waiting, undecided := closeIn q p x.undecided }) s)
    (LaneKept.mod ⟨rfl, rfl⟩) (LaneKept.lanes fun _ => rfl)

theorem dropPartial_lane {l : Nat} {s : State} : LaneKept l s (dropPartial l s) := by
  unfold dropPartial
  split
  · exact closeLot_lane.trans (LaneKept.mod ⟨rfl, rfl⟩)
  · exact LaneKept.refl s

theorem acq_startDelin {l k n : Nat} {d : Delin} {s : State} :
    acqOf (laneOf (startDelin l d n s) k) = acqOf (laneOf s k) := by
  have h := (dropPartial_lane (l := l) (s := s) k).1
  unfold startDelin
  dsimp only
  generalize dropPartial l s = u at h ⊢
  rw [← h]
  repeat' split
  all_goals first | (rw [laneOf_bump]; exact acq_modLane (fun _ => rfl)) | exact acq_modLane (fun _ => rfl)

theorem cutOne_keeps {t : BitVec 64} {x : Lane} {c : Cut} (h : cutOne t x = some c) :
    acqOf c.lane = acqOf x ∧ c.lane.scr = x.scr := by
  unfold cutOne at h
  repeat' (first | split at h | dsimp only at h)
  all_goals cases h
  all_goals exact ⟨rfl, rfl⟩

theorem applyCut_lane {l : Nat} {c : Cut} {s : State}
    (h : acqOf c.lane = acqOf (laneOf s l) ∧ c.lane.scr = (laneOf s l).scr) :
    LaneKept l s (applyCut l c s) := by
  have ho (h : BitVec 64) (x : Lane) : acqOf (openLot l h x) = acqOf x ∧ (openLot l h x).scr = x.scr := by
    unfold openLot; repeat' split
    all_goals exact ⟨rfl, rfl⟩
  unfold applyCut
  dsimp only
  have h1 : LaneKept l s (each (fun n s => bump n (scLrx l) 1 s) c.counts (modLane l (fun _ => c.lane) s)) :=
    (LaneKept.mod h).trans (LaneKept.lanes (lanes_of_only (only_each (ps := counting)
      (fun _ _ h => only_bump (by decide) h) (Only.refl _)) (by decide)))
  generalize each (fun n s => bump n (scLrx l) 1 s) c.counts (modLane l (fun _ => c.lane) s) = s1
    at h1 ⊢
  have h2 : LaneKept l s (match c.found with
      | some h => modLane l (openLot l h) s1
      | none => s1) := by
    split
    · exact h1.trans (LaneKept.mod (ho _ _))
    · exact h1
  split
  · exact h2.trans closeLot_lane
  · exact h2

theorem cutLots_lane {l : Nat} : ∀ (n : Nat) (s : State), LaneKept l s (cutLots l n s) := by
  intro n
  induction n with
  | zero => intro s; exact LaneKept.refl s
  | succ n ih =>
    intro s
    unfold cutLots
    split
    · exact LaneKept.refl s
    · rename_i c hc
      exact (applyCut_lane (cutOne_keeps hc)).trans (ih _)

theorem feed_lane {l at_ k : Nat} {b : List (Option (BitVec 8))} {s : State} :
    acqOf (laneOf (feed l at_ b s) k) = acqOf (laneOf s k) ∧
    (laneOf (feed l at_ b s) k).scr = (laneOf s k).scr ∧
    (k ≠ l → laneOf (feed l at_ b s) k = laneOf s k) := by
  unfold feed
  dsimp only
  exact ((LaneKept.mod (by split <;> exact ⟨rfl, rfl⟩)).trans (cutLots_lane _ _)) k

theorem listenEnd_off {l n : Nat} {s : State} (h : s.pwr.listening.getLsbD l = false) : listenEnd l n s = s := by
  unfold listenEnd; simp [h]

theorem countCodeword_lane {l k : Nat} {d : Option Decoded} {a b : Bool} {s : State} :
    laneOf (countCodeword l d a b s) k = laneOf s k :=
  lanes_of_only (only_countCodeword (List.Subset.refl _) (Only.refl s)) (by decide) k

theorem recordArrival_lane {l k : Nat} {a : Arrival} {s : State} :
    acqOf (laneOf (recordArrival l a s) k) = acqOf (laneOf s k) ∧ (laneOf (recordArrival l a s) k).slots = (laneOf s k).slots
    ∧ (k ≠ l → laneOf (recordArrival l a s) k = laneOf s k) := by
  unfold recordArrival
  have h (u : State) : laneOf (arrived l a.sc u) k = laneOf u k :=
    lanes_of_only (only_arrived (List.Subset.refl _) (Only.refl u)) (by decide) k
  rw [h]
  refine ⟨acq_modLane fun _ => rfl, ?_, fun e => ?_⟩
  · rw [laneOf_modLane]; split
    · rename_i e; rw [e]
    · rfl
  · rw [laneOf_modLane, if_neg e]

theorem windowEnd_lane {l k : Nat} {sc : BitVec 48} {j : Bool} {s : State} : laneOf (windowEnd l sc j s) k = laneOf s k :=
  lanes_of_only (only_windowEnd (List.Subset.refl _) (Only.refl s)) (by decide) k



theorem catchUp_lane {l n k : Nat} {s : State} :
    acqOf (laneOf (catchUp l n s) l) = acqOf { laneOf s l with pos := max n (laneOf s l).pos } ∧
    (n ≤ (laneOf s l).pos → catchUp l n s = s) ∧ (k ≠ l → laneOf (catchUp l n s) k = laneOf s k) := by
  unfold catchUp
  dsimp only
  split
  · rename_i h; exact ⟨by rw [Nat.max_eq_right h], fun _ => rfl, fun _ => rfl⟩
  · rename_i h
    refine ⟨?_, fun e => absurd e h, fun e => ?_⟩
    · rw [feed_lane.1, laneOf_modLane, if_pos rfl, Nat.max_eq_left (by omega)]; rfl
    · rw [(feed_lane (k := k)).2.2 e, laneOf_modLane, if_neg e]

theorem lockedCw_facts {l n : Nat} {d : Option Decoded} {s : State} (hn : (laneOf s l).pos ≤ n)
    (hl : s.pwr.listening.getLsbD l = false) :
    acqOf (laneOf (lockedCw l n d s) l) = acqOf { laneOf s l with pos := n + 1 } ∧
    ((laneOf s l).pos = n → (laneOf (lockedCw l n d s) l).scr = match d with
          | some c => if headerOk (laneOf s l) n c then (scramble (laneOf s l).scr c.payload).2 else scrSkip 5120 (laneOf s l).scr
          | none => scrSkip 5120 (laneOf s l).scr) ∧
    (∀ k, k ≠ l → laneOf (lockedCw l n d s) k = laneOf s k) := by
  have hO : Only [.lanes, .groups, .sup, .life, .win, .i3c, .reeve, .counters] s (catchUp l n s) := only_catchUp (by decide) (Only.refl s)
  obtain ⟨c1, c2, c3⟩ := catchUp_lane (l := l) (n := n) (k := l) (s := s)
  have c4 := fun k => (catchUp_lane (l := l) (n := n) (k := k) (s := s)).2.2
  obtain ⟨q1, q2, q3, q4, q5, q6⟩ := acq_congr c1
  have key : ∀ (a : Bool) (b : List (Option (BitVec 8))) (r : Lane → BitVec 31),
      let u := feed l (640 * n) b (modLane l (fun x => { x with pos := n + 1, scr := r x }) (countCodeword l d a true (catchUp l n s)))
      listenEnd l n u = u ∧ acqOf (laneOf u l) = acqOf { laneOf s l with pos := n + 1 } ∧
      (laneOf u l).scr = r (laneOf (catchUp l n s) l) ∧ (∀ k, k ≠ l → laneOf u k = laneOf s k) := by
    intro a b r u
    refine ⟨listenEnd_off ?_, ?_, ?_, fun k e => ?_⟩
    · have : u.pwr = s.pwr := (only_feed (List.Subset.refl _) (only_modLane (by decide) (only_countCodeword (by decide) hO))) .pwr (by decide)
      rw [this]; exact hl
    · rw [feed_lane.1, laneOf_modLane, if_pos rfl, countCodeword_lane]
      simp only [acqOf, q1, q2, q3, q4, q6]
    · rw [feed_lane.2.1, laneOf_modLane, if_pos rfl, countCodeword_lane]
    · rw [(feed_lane (k := k)).2.2 e, laneOf_modLane, if_neg e, countCodeword_lane, c4 k e]
  have hh : ∀ c, headerOk (laneOf (catchUp l n s) l) n c = headerOk (laneOf s l) n c := by
    intro c; unfold headerOk; rw [q3]
  have hcat : ∀ c, countCodeword l d c true (catchUp l n s) = countCodeword l d c true (catchUp l n s) := fun _ => rfl
  unfold lockedCw
  dsimp only
  cases d with
  | none =>
    dsimp only
    obtain ⟨k1, k2, k3, k4⟩ := key true gap (fun x => scrSkip 5120 x.scr)
    dsimp only at k1 k2 k3 k4
    simp only [Bool.not_false]
    rw [k1]
    exact ⟨k2, fun e => k3.trans (by rw [c2 (by omega)]), k4⟩
  | some c =>
    dsimp only
    have hhc := hh c
    by_cases hk : headerOk (laneOf s l) n c = true
    · simp only [hhc.trans hk, hk, if_true, Bool.not_true]
      obtain ⟨k1, k2, k3, k4⟩ := key false ((scramble (laneOf (catchUp l n s) l).scr c.payload).1.map some) (fun _ => (scramble (laneOf (catchUp l n s) l).scr c.payload).2)
      dsimp only at k1 k2 k3 k4
      rw [k1]
      exact ⟨k2, fun e => k3.trans (by rw [c2 (by omega)]), k4⟩
    · simp only [hhc.trans (Bool.eq_false_iff.2 hk), Bool.eq_false_iff.2 hk, Bool.false_eq_true, if_false, Bool.not_false]
      obtain ⟨k1, k2, k3, k4⟩ := key true gap (fun x => scrSkip 5120 x.scr)
      dsimp only at k1 k2 k3 k4
      rw [k1]
      exact ⟨k2, fun e => k3.trans (by rw [c2 (by omega)]), k4⟩

theorem bondClose_pwr {l : Nat} {s : State} : (bondClose l s).pwr = s.pwr :=
  only_bondClose (List.Subset.refl _) (Only.refl s) .pwr (by decide)

/-- What follows the header of a confirmed codeword 0 leaves the alignment. -/
theorem cw0Tail_lane {l n g : Nat} {d : Delin} {sc sc1 : BitVec 48} {j jump : Bool} {a : Arrival}
    {q : List (Option (BitVec 8))} {u : State} (hl : u.pwr.listening.getLsbD l = false) :
    acqOf (laneOf (listenEnd l 0 (listenCount l sc (feed l 0 q (startDelin l d n (priConflict g sc1
      (bondLook l (if j then windowEnd l sc jump (recordArrival l a u)
        else recordArrival l a u))))))) l) = acqOf (laneOf u l) := by
  have h1 : Only (counting ++ [.clk, .lanes, .groups, .cls, .pair]) u
      (if j then windowEnd l sc jump (recordArrival l a u) else recordArrival l a u) :=
    only_ite (only_windowEnd (by decide) (only_recordArrival (by decide) (Only.refl u)))
      (only_recordArrival (by decide) (Only.refl u))
  have h2 : acqOf (laneOf (if j then windowEnd l sc jump (recordArrival l a u)
      else recordArrival l a u) l) = acqOf (laneOf u l) := by
    split
    · rw [windowEnd_lane, recordArrival_lane.1]
    · exact recordArrival_lane.1
  generalize (if j then windowEnd l sc jump (recordArrival l a u) else recordArrival l a u) = w
    at h1 h2 ⊢
  have h3 : (listenCount l sc (feed l 0 q (startDelin l d n (priConflict g sc1
      (bondLook l w))))).pwr = u.pwr :=
    (only_listenCount (by decide) (only_feed (by decide) (only_startDelin (by decide)
      (only_priConflict (by decide) (only_bondLook (by decide) h1))))) .pwr (by decide)
  rw [listenEnd_off (by rw [h3]; exact hl),
    lanes_of_only (only_listenCount (List.Subset.refl _) (Only.refl _)) (by decide) l,
    feed_lane.1, acq_startDelin, acq_priConflict, acq_bondLook, h2]

theorem confirmCw0_facts {l : Nat} {start : BitVec 64} {tx : BitVec 2} {pl : Bytes} {j : Bool} {s : State}
    (hl : s.pwr.listening.getLsbD l = false) :
    let p := pl.take 8 ++ (scramble (scrSeed tx) (pl.drop 8)).1
    acqOf (laneOf (confirmCw0 l start tx pl j s) l) = ((.lock, (laneOf s l).cdrLocked, tx), start, 1,
      if crc32 (slice p 8 12) = field p 20 4 then BitVec.ofNat 48 (field p 8 6) else (laneOf s l).sc + 1) := by
  intro p
  have h0 : (bondClose l s).pwr.listening.getLsbD l = false := by rw [bondClose_pwr]; exact hl
  obtain ⟨-, e2, -, -, -, e6⟩ := acq_congr (acq_bondClose (l := l) (k := l) (s := s))
  unfold confirmCw0
  dsimp only
  generalize bondClose l s = s' at h0 e2 e6 ⊢
  let Good (u : State) : Prop := u.pwr.listening.getLsbD l = false ∧
    acqOf (laneOf u l) = ((.lock, (laneOf s l).cdrLocked, tx), start, 1,
      if crc32 (slice p 8 12) = field p 20 4 then BitVec.ofNat 48 (field p 8 6) else (laneOf s l).sc + 1)
  have gi : ∀ (c : Prop) [Decidable c] (a b : State), Good a → Good b → Good (if c then a else b) :=
    fun c _ a b h1 h2 => by split <;> assumption
  have gb : ∀ (c : CtrId) (n m : Nat) (a : State), Good a → Good (bump c n m a) := by
    intro c n m a h
    exact ⟨by simpa only [bump_rest] using h.1, by simpa only [laneOf_bump] using h.2⟩
  have gr : ∀ (c : BitVec 16) (n m : Nat) (a : State), Good a → Good (raise c n m a) := by
    intro c n m a h
    exact ⟨by simpa only [raise_rest] using h.1, by simpa only [laneOf_raise] using h.2⟩
  have fin {n g : Nat} {d : Delin} {sc sc1 : BitVec 48} {jump : Bool} {a : Arrival}
      {q : List (Option (BitVec 8))} {u : State} (h : Good u) :
      acqOf (laneOf (listenEnd l 0 (listenCount l sc (feed l 0 q (startDelin l d n
        (priConflict g sc1 (bondLook l (if j then windowEnd l sc jump (recordArrival l a u)
          else recordArrival l a u))))))) l) = ((.lock, (laneOf s l).cdrLocked, tx), start, 1,
      if crc32 (slice p 8 12) = field p 20 4 then BitVec.ofNat 48 (field p 8 6) else (laneOf s l).sc + 1) :=
    (cw0Tail_lane h.1).trans h.2
  by_cases hok : crc32 (slice p 8 12) = field p 20 4
  all_goals
    have hok' := hok
    simp only [p] at hok
    simp only [hok, decide_true, decide_false, Bool.and_true, Bool.true_and, Bool.and_false, Bool.false_and, if_true, if_false, Bool.or_true, Bool.or_false, Bool.false_eq_true]
    refine fin ?_
    repeat' first | with_reducible apply gi | with_reducible apply gb | with_reducible apply gr
    all_goals
      refine ⟨h0, ?_⟩
      rw [laneOf_modLane, if_pos rfl]; simp only [acqOf, e2, e6, hok', p, if_true, if_false]

theorem missCw0_facts {l : Nat} {s : State} :
    (laneOf (missCw0 l s) l).st = (if (laneOf s l).st = .miss2 then .hunt else if (laneOf s l).st = .lock then .miss1 else .miss2) ∧
    ((laneOf s l).st ≠ .miss2 → (laneOf (missCw0 l s) l).cw0 = (laneOf s l).cw0 + BitVec.ofNat 64 swathGrains ∧
      (laneOf (missCw0 l s) l).pos = 1 ∧ (laneOf (missCw0 l s) l).sc = (laneOf s l).sc + 1) := by
  obtain ⟨e1, -, -, e4, -, e6⟩ := acq_congr (acq_bondClose (l := l) (k := l) (s := s))
  unfold missCw0
  dsimp only
  generalize bondClose l s = s' at e1 e4 e6 ⊢
  rw [← e1, ← e4, ← e6]
  by_cases h : (laneOf s' l).st = .miss2
  · simp only [h, if_true, ne_eq, not_true_eq_false, false_implies, and_true]
    rw [loseLock_lane]; unfold dropAlignment; rw [excludeLane_lane]; split <;> simp
  · simp only [h, if_false, ne_eq, not_false_eq_true, true_implies]
    have hq : ∀ (n : Nat) (d : Delin) (sc : BitVec 48) (a : Arrival) (u : State), acqOf (laneOf (startDelin l d n (bondLook l (windowEnd l sc false (recordArrival l a u)))) l) = acqOf (laneOf u l) := by
      intro n d sc a u
      rw [acq_startDelin, acq_bondLook, windowEnd_lane, recordArrival_lane.1]
    obtain ⟨a1, a2, a3, a4, a5, a6⟩ := acq_congr (hq 640 .resync ((laneOf s' l).sc + 1) ⟨(laneOf s' l).sc + 1, lastArrival (laneOf s' l) + BitVec.ofNat 64 swathGrains, true⟩
      (modLane l (fun x => { x with
        st := if (laneOf s' l).st = .lock then .miss1 else .miss2, cw0 := x.cw0 + BitVec.ofNat 64 swathGrains, pos := 1, sc := (laneOf s' l).sc + 1, shOk := false,
        pri := false, priCounted := false, fmapCount := 0, fmsgCount := 0,
        scr := scrSkip 5056 (scrSeed x.txLane) }) (bump cMarkerMiss (scLrx l) 1 s')))
    refine ⟨a1.trans ?_, a4.trans ?_, a5.trans ?_, a6.trans ?_⟩ <;> simp

theorem key_ne {x y a : Nat} (ha : a < 67108864) (h : x ≠ y) : x * 67108864 + a ≠ y * 67108864 := by
  omega

theorem lostKey_eq : lostKey = ((cEventsLost.ch * 32 + cEventsLost.tbl) * 256 + cEventsLost.num) * 67108864 := rfl

theorem cKey_ne {c : CtrId} {a : Nat} (ha : a < 67108864) (h : (c.ch * 32 + c.tbl) * 256 + c.num ≠
    (cEventsLost.ch * 32 + cEventsLost.tbl) * 256 + cEventsLost.num) : ctrKey c a ≠ lostKey := by
  rw [lostKey_eq]
  exact key_ne ha h

theorem scGroup_lt (g : Fin 4) : scGroup g < 67108864 := by revert g; decide

theorem bseqRelease_facts {g : Nat} {x : Lot} {u : State} :
    (∀ k, laneOf (bseqRelease g x u) k = laneOf u k) ∧
    groupOf (bseqRelease g x u) g = { groupOf u g with
      expected := if bseqAhead (groupOf u g) x < 2048 then some (BitVec.ofNat 12 (bits x.hdr.toNat 21 10) + 1) else (groupOf u g).expected
      releasedSc := some (maxSc (groupOf u g) x.key.sc)
      released := if bseqAhead (groupOf u g) x < 2048 then
        (groupOf u g).released ++ [{ lot := x, gap := bseqAhead (groupOf u g) x != 0 }] else (groupOf u g).released } ∧
    (∀ k, k ≠ g → groupOf (bseqRelease g x u) k = groupOf u k) ∧
    (2048 ≤ bseqAhead (groupOf u g) x → bseqRelease g x u = bump cBseqLate (scGroup g) 1 (modGroup g (fun y => { y with releasedSc := some (maxSc (groupOf u g) x.key.sc) }) u)) := by
  have hm (f : Group → Group) (k : Nat) (u : State) : laneOf (modGroup g f u) k = laneOf u k := rfl
  unfold bseqRelease; dsimp only
  by_cases h1 : bseqAhead (groupOf u g) x < 2048
  · simp only [h1, if_true, hm, groupOf_modGroup, laneOf_bump, groupOf_bump]
    exact ⟨fun _ => trivial, trivial, fun k hk => if_neg hk, fun h => absurd h (by omega)⟩
  · simp only [h1, if_false, hm, groupOf_modGroup, laneOf_bump, groupOf_bump]
    exact ⟨fun _ => trivial, if_pos trivial, fun k hk => if_neg hk, fun _ => trivial⟩

theorem bump_mgmt {c : CtrId} {a n : Nat} {s : State} : (bump c a n s).reeve.mgmt0 = s.reeve.mgmt0 ∧ (bump c a n s).reeve.mgmt1 = s.reeve.mgmt1 := by
  have hp (e : Event) (u : State) : (postEvent e u).reeve.mgmt0 = u.reeve.mgmt0 ∧ (postEvent e u).reeve.mgmt1 = u.reeve.mgmt1 := by
    rw [postEvent_reeve]; exact ⟨rfl, rfl⟩
  have hr (code : BitVec 16) (i d : Nat) (u : State) : (raise code i d u).reeve.mgmt0 = u.reeve.mgmt0 ∧ (raise code i d u).reeve.mgmt1 = u.reeve.mgmt1 := hp _ u
  have ht (day : Bool) (k x : Nat) (u : State) : (tcaCheck day k x u).reeve.mgmt0 = u.reeve.mgmt0 ∧ (tcaCheck day k x u).reeve.mgmt1 = u.reeve.mgmt1 := by
    cases day <;>
    · unfold tcaCheck
      simp only [if_true, if_false, Bool.false_eq_true]
      split
      · exact hr _ _ _ _
      · exact ⟨rfl, rfl⟩
  have hb (k x m : Nat) (u : State) : (binAdd k x m u).reeve.mgmt0 = u.reeve.mgmt0 ∧ (binAdd k x m u).reeve.mgmt1 = u.reeve.mgmt1 := by
    unfold binAdd
    rw [(ht _ _ _ _).1, (ht _ _ _ _).1, (ht _ _ _ _).2, (ht _ _ _ _).2]; exact ⟨rfl, rfl⟩
  unfold bump
  split
  · exact ⟨rfl, rfl⟩
  · dsimp only
    split <;> split <;> simp [hb, hr, lifeTotal_rest]

theorem ctrOf_putFit {d : Nat} {f : Fit} {s : State} {c : CtrId} {a : Nat} (h : ctrKey c a ≠ lostKey) :
    ctrOf (putFit d f s) c a = ctrOf s c a := by
  unfold putFit
  dsimp only
  split
  · rfl
  · exact ctrOf_raise h

theorem ctrOf_fitLook {d : Nat} {w : Option (List FitMean × BitVec 48)} {s : State} {c : CtrId} {a : Nat} (h : ctrKey c a ≠ lostKey) :
    ctrOf (fitLook d w s) c a = ctrOf s c a := by
  unfold fitLook
  dsimp only
  repeat' split
  all_goals first | exact ctrOf_putFit h | exact (ctrOf_putFit h).trans rfl

theorem fitLook_groups (d : Nat) (w : Option (List FitMean × BitVec 48)) (s : State) : (fitLook d w s).groups = s.groups ∧ (fitLook d w s).toTime = s.toTime := by
  have := only_fitLook (d := d) (window := w) (List.Subset.refl _) (Only.refl s)
  exact ⟨this .groups (by decide), this .toTime (by decide)⟩

theorem tabGet_map {α : Type} (d : α) (f : α → α) (hd : f d = d) (l : Tab α) (k : Nat) :
    tabGet d (l.map fun p => (p.1, f p.2)) k = f (tabGet d l k) := by
  induction l with
  | nil => exact hd.symm
  | cons p l ih => simp only [List.map, tabGet]; split
                   · rfl
                   · exact ih

theorem reasmBoundary_reasm (g id : Nat) (s : State) :
    reasmOf (reasmBoundary g s) id = if (reasmOf s id).open_ = true ∧ (reasmOf s id).group = g
            then { reasmOf s id with boundaries := (reasmOf s id).boundaries + 1 }
            else reasmOf s id := by
  unfold reasmBoundary reasmOf
  exact tabGet_map {} (fun p => if p.open_ = true ∧ p.group = g then { p with boundaries := p.boundaries + 1 } else p) (by simp) s.reasm id

theorem includeLane_groups {l k : Nat} {sc : BitVec 48} {s : State} : groupOf (includeLane l sc s) k = groupOf s k := by
  have h : (includeLane l sc s).groups = s.groups :=
    only_includeLane (List.Subset.refl _) (Only.refl s) .groups (by decide)
  unfold groupOf; rw [h]

theorem rejoinLanes_groups {g k : Nat} {sc : BitVec 48} {s : State} : groupOf (rejoinLanes g sc s) k = groupOf s k := by
  have h : (rejoinLanes g sc s).groups = s.groups :=
    only_rejoinLanes (List.Subset.refl _) (Only.refl s) .groups (by decide)
  unfold groupOf; rw [h]

theorem mem_insertFurrow {f k : Furrow} {l : List Furrow} : k ∈ insertFurrow f l ↔ k = f ∨ k ∈ l := by
  induction l with
  | nil => simp [insertFurrow]
  | cons a l ih => unfold insertFurrow; split
                   · simp
                   · simp only [List.mem_cons, ih]
                     constructor
                     · rintro (h | h | h) <;> simp [h]
                     · rintro (h | h | h) <;> simp [h]

theorem ben_low_of_kept {s t : State} {x : Nat} (h : Kept s t) (hb : (usLaneOf s x).ben = false) : (usLaneOf t x).ben = false := by
  have := h.2.2.2.2.1 x
  cases he : (usLaneOf t x).ben
  · rfl
  · rw [this he] at hb; exact hb

theorem benLow_low {s : State} {x : Nat} : (usLaneOf (benLow x s) x).ben = false := by
  unfold benLow; dsimp only
  split
  · simp
  · rename_i h; simpa using h

theorem startBurst_lane {x : Nat} {b : Burst} {s : State} (y : Nat) :
    (usLaneOf (startBurst x b s) y).ben = (if y = x then true else (usLaneOf s y).ben) ∧
    (y = x → (usLaneOf (startBurst x b s) y).benSince = burstStart b - 8) := by
  unfold startBurst
  dsimp only
  simp only [usLaneOf_bump]
  have hu (u : State) (c : Prop) [Decidable c] : usLaneOf { u with us := if c then { u.us with resync0 := false } else { u.us with resync1 := false } } y = usLaneOf u y := by
    by_cases h : c <;> simp only [h, if_true, if_false, usLaneOf]
  constructor
  · split
    · refine (congrArg UsLane.ben (hu _ _)).trans ?_
      rw [usLaneOf_modUsLane]; split <;> rfl
    · rw [usLaneOf_modUsLane]; split <;> rfl
  · intro e
    split
    · refine (congrArg UsLane.benSince (hu _ _)).trans ?_
      rw [usLaneOf_modUsLane, if_pos e]
    · rw [usLaneOf_modUsLane, if_pos e]

theorem endBurst_low {x : Nat} {s : State} {b : Burst} {rest : List Burst} (h : (usLaneOf s x).bursts = b :: rest) (hb : b.sending = true) :
    (usLaneOf (endBurst x s) x).ben = false := by
  unfold endBurst
  rw [h]; simp only [hb, Bool.not_true, Bool.false_eq_true, if_false]
  refine ben_low_of_kept (kept_burstAccount (kept_bump (Kept.refl _))) ?_
  rw [usLaneOf_modUsLane, if_pos rfl]

theorem freeBushels_queues {n : Nat} {u : State} (k : Nat) :
    usOf (freeBushels n u) k = usOf u k ∧ dsOf (freeBushels n u) k = dsOf u k := by
  have h (j : Nat) (l : List Nat) (v : State) : (returnHeld j l v).qos = v.qos :=
    (only_returnHeld (List.Subset.refl _) (Only.refl v)) .qos (by decide)
  unfold freeBushels
  dsimp only
  split
  · exact ⟨rfl, rfl⟩
  · simp only [usOf, dsOf, h]
    exact ⟨rfl, rfl⟩

theorem scInst_lt (s : State) (g : Nat) : scInst (groupOwner s g) < 67108864 := by
  unfold groupOwner; split <;> decide

theorem accept_same {m : FieldMsg} {addr : Addressing} {p : ActState → Bool} {ack : Bool}
    {act : Nat → State → Option Nat × State} {s : State}
    (h : msgPrimary s m = false ∨ s.pwr.listening ≠ 0 ∨ (msgTid m ≠ 0xFFFF ∧ msgTid m ≠ (instOf s (groupOwner s m.group)).terminalId)) :
    acceptMsg m addr p ack act s = s := by
  unfold acceptMsg; dsimp only
  rcases h with h | h | ⟨h1, h2⟩
  · rw [if_pos (by rw [h]; rfl)]
  · rw [if_pos (by rw [decide_eq_true h, Bool.or_true])]
  · split
    · rfl
    · rw [if_pos (by rw [decide_eq_false h1]; simpa using h2)]

theorem queueMsg_inst {i : Nat} {t : BitVec 8} {b : Bytes} {s : State} (k : Nat) :
    ∃ Q, instOf (queueMsg i t b s) k = { instOf s k with txQueue := Q } ∧ (queueMsg i t b s).act.plots = s.act.plots ∧ (queueMsg i t b s).act.working = s.act.working := by
  unfold queueMsg
  split
  · exact ⟨(instOf s k).txQueue, by simp⟩
  · by_cases e : k = i
    · exact ⟨(instOf s k).txQueue ++ [(t, b)], by rw [instOf_modInst, if_pos e, e], rfl, rfl⟩
    · exact ⟨(instOf s k).txQueue, by rw [instOf_modInst, if_neg e], rfl, rfl⟩

@[simp] theorem modInst_act {i : Nat} {f : Inst → Inst} {s : State} : (modInst i f s).act.plots = s.act.plots ∧ (modInst i f s).act.working = s.act.working ∧ (modInst i f s).act.pendingSwitch = s.act.pendingSwitch ∧ (modInst i f s).act.dual = s.act.dual := ⟨rfl, rfl, rfl, rfl⟩

@[simp] theorem instOf_modUsLane {x k : Nat} {f : UsLane → UsLane} {s : State} : instOf (modUsLane x f s) k = instOf s k := rfl

@[simp] theorem usLaneOf_modInst {x k : Nat} {f : Inst → Inst} {s : State} : usLaneOf (modInst x f s) k = usLaneOf s k := rfl

theorem act_of {ps : List Part} {s t : State} (h : Only ps s t) (p : Part.act ∉ ps) : t.act = s.act := h .act p

theorem inst_of_act {s t : State} (h : t.act.inst = s.act.inst) (k : Nat) : instOf t k = instOf s k := by
  unfold instOf; rw [h]

theorem opEntered_inst {i : Nat} {s : State} : (operatingEntered i s).act.inst = s.act.inst := by
  unfold operatingEntered; dsimp only
  split
  · rw [show (modSupInst _ _ _).act = _ from by rfl]
    unfold requestSwitch
    repeat' split
    all_goals simp
  · rfl

theorem opEntered_plots {i : Nat} {s : State} : (operatingEntered i s).act.plots = s.act.plots ∧ (operatingEntered i s).act.working = s.act.working := by
  unfold operatingEntered; dsimp only
  split
  · rw [show (modSupInst _ _ _).act = _ from by rfl]
    unfold requestSwitch
    repeat' split
    all_goals simp
  · exact ⟨rfl, rfl⟩

theorem gateSup_act {s : State} : (gateLook (supLook s)).act = s.act :=
  act_of (only_gateLook (ps := [.us, .sup, .qos, .ports, .pwr, .pair, .life, .win, .i3c, .reeve, .counters, .freeCtr]) (by decide) (only_supLook (by decide) (Only.refl s))) (by decide)

theorem setAct_inst {i : Nat} {dest : ActState} {msg : Option Nat} {s : State} :
    (∀ k, k ≠ i → instOf (setAct i dest msg s) k = instOf s k) ∧
    ∃ td sb tb, instOf (setAct i dest msg s) i = { instOf s i with st := dest, todo := (instOf s i).todo ++ td, stBurst := sb, tidBurst := tb } ∧
      (setAct i dest msg s).act.plots = s.act.plots ∧ (setAct i dest msg s).act.working = s.act.working := by
  have key : ∀ u : State, ((∀ k, k ≠ i → instOf u k = instOf s k) ∧ ∃ td sb tb, instOf u i = { instOf s i with st := dest, todo := (instOf s i).todo ++ td, stBurst := sb, tidBurst := tb } ∧ u.act.plots = s.act.plots ∧ u.act.working = s.act.working) →
      ∀ v : State, v.act.inst = u.act.inst → v.act.plots = u.act.plots → v.act.working = u.act.working → ((∀ k, k ≠ i → instOf v k = instOf s k) ∧ ∃ td sb tb, instOf v i = { instOf s i with st := dest, todo := (instOf s i).todo ++ td, stBurst := sb, tidBurst := tb } ∧ v.act.plots = s.act.plots ∧ v.act.working = s.act.working) := by
    intro u hu v h1 h2 h3
    have hv := inst_of_act h1
    refine ⟨fun k hk => (hv k).trans (hu.1 k hk), ?_⟩
    obtain ⟨td, sb, tb, h4, h5, h6⟩ := hu.2
    exact ⟨td, sb, tb, (hv i).trans h4, h2.trans h5, h3.trans h6⟩
  have base : (∀ k, k ≠ i → instOf (match msg with
    | some g => leaveFor i g none .commit (modInst i (fun x => { x with st := dest }) s)
    | none => modInst i (fun x => { x with stBurst := dest, tidBurst := x.terminalId }) (modInst i (fun x => { x with st := dest }) s)) k = instOf s k) ∧ ∃ td sb tb, instOf (match msg with
    | some g => leaveFor i g none .commit (modInst i (fun x => { x with st := dest }) s)
    | none => modInst i (fun x => { x with stBurst := dest, tidBurst := x.terminalId }) (modInst i (fun x => { x with st := dest }) s)) i = { instOf s i with st := dest, todo := (instOf s i).todo ++ td, stBurst := sb, tidBurst := tb } ∧ (match msg with
    | some g => leaveFor i g none .commit (modInst i (fun x => { x with st := dest }) s)
    | none => modInst i (fun x => { x with stBurst := dest, tidBurst := x.terminalId }) (modInst i (fun x => { x with st := dest }) s)).act.plots = s.act.plots ∧ (match msg with
    | some g => leaveFor i g none .commit (modInst i (fun x => { x with st := dest }) s)
    | none => modInst i (fun x => { x with stBurst := dest, tidBurst := x.terminalId }) (modInst i (fun x => { x with st := dest }) s)).act.working = s.act.working := by
    cases msg with
    | some g =>
      refine ⟨fun k hk => by simp [leaveFor, hk], [⟨g, none, .commit⟩], (instOf s i).stBurst, (instOf s i).tidBurst, by simp [leaveFor], rfl, rfl⟩
    | none =>
      refine ⟨fun k hk => by simp [hk], [], dest, (instOf s i).terminalId, by simp, rfl, rfl⟩
  unfold setAct
  dsimp only
  split
  · exact base
  · refine key _ base _ ?_ ?_ ?_
    · rw [gateSup_act]; split
      · rw [opEntered_inst]; cases msg <;> simp
      · cases msg <;> simp
    · rw [gateSup_act]; split
      · rw [opEntered_plots.1]; cases msg <;> simp
      · cases msg <;> simp
    · rw [gateSup_act]; split
      · rw [opEntered_plots.2]; cases msg <;> simp
      · cases msg <;> simp

theorem setAct_st {i : Nat} {dest : ActState} {msg : Option Nat} {s : State} : (instOf (setAct i dest msg s) i).st = dest := by
  obtain ⟨_, td, sb, tb, h, _⟩ := @setAct_inst i dest msg s
  rw [h]

theorem removeLots_act {L : List Nat} {s : State} : (each removeLot L s).act = s.act := by
  induction L generalizing s with
  | nil => rfl
  | cons a l ih =>
    rw [each, ih]
    exact act_of (only_removeLot (ps := [.lots, .reasm, .sup, .qos, .pwr, .life, .win, .i3c, .reeve, .counters, .freeCtr]) (by decide) (Only.refl s)) (by decide)

theorem clearRtt_inst {i : Nat} (u : State) (k : Nat) : instOf (clearRtt i u) k = instOf u k :=
  inst_of_act (congrArg _ (act_of (only_clearRtt (ps := [.us]) (by decide) (Only.refl u)) (by decide))) k

theorem actClear_inst {i : Nat} {msg : Option Nat} {s : State} :
    (instOf (actClear i msg s) i).terminalId = 0xFFFF ∧ (instOf (actClear i msg s) i).txQueue = [] ∧
    (instOf (actClear i msg s) i).durRunning = (instOf s i).durRunning ∧ (instOf (actClear i msg s) i).lastAck = none ∧
    (instOf (actClear i msg s) i).enabled = (instOf s i).enabled := by
  unfold actClear
  dsimp only
  have h : ∀ (u : State) (pl : Tab Nat), instOf ({ u with act := { u.act with plots := pl } } : State) i = instOf u i := fun _ _ => rfl
  have h2 : ∀ (keeps : ActTodo → Bool) (L : List Nat), instOf (each removeLot L (modInst i (fun x => { x with terminalId := 0xFFFF, opRev := 0, txQueue := [], lastAck := none, todo := x.todo.filter keeps }) s)) i = { instOf s i with terminalId := 0xFFFF, opRev := 0, txQueue := [], lastAck := none, todo := (instOf s i).todo.filter keeps } := by
    intro keeps L
    rw [inst_of_act (congrArg _ removeLots_act)]; simp
  cases msg with
  | some g =>
    simp only [each, leaveFor, instOf_modInst, if_true, clearRtt_inst, h, h2]
    simp
  | none =>
    simp only
    have hc : ∀ u, instOf (clearEqd i u) i = instOf u i := fun u =>
      inst_of_act (congrArg _ (act_of (only_clearEqd (ps := [.us]) (by decide) (Only.refl u)) (by decide))) i
    simp only [hc, instOf_modInst, if_true, clearRtt_inst, h, h2]
    simp

theorem opEntered_dual {i : Nat} {s : State} : (operatingEntered i s).act.dual = s.act.dual := by
  unfold operatingEntered; dsimp only
  split
  · rw [show (modSupInst _ _ _).act = _ from by rfl]
    unfold requestSwitch
    repeat' split
    all_goals simp
  · rfl

theorem setAct_dual {i : Nat} {dest : ActState} {msg : Option Nat} {s : State} : (setAct i dest msg s).act.dual = s.act.dual := by
  unfold setAct; dsimp only
  split
  · cases msg <;> rfl
  · rw [gateSup_act]; split
    · rw [opEntered_dual]; cases msg <;> simp [leaveFor]
    · cases msg <;> simp [leaveFor]

theorem slice_length (b : Bytes) (i n : Nat) : (slice b i n).length = n := by
  simp only [slice, List.length_append, List.length_replicate, List.length_take, List.length_drop]; omega

theorem field_lt (b : Bytes) (i n : Nat) : field b i n < 256 ^ n := by
  unfold field
  have h : ∀ (l : Bytes) (a k : Nat), a < 256 ^ k → l.foldl (fun a x => a * 256 + x.toNat) a < 256 ^ (k + l.length) := by
    intro l; induction l with
    | nil => intro a k h; simpa using h
    | cons x l ih =>
      intro a k h
      have := ih (a * 256 + x.toNat) (k + 1) (by have := x.isLt; rw [Nat.pow_succ]; omega)
      simp only [List.foldl_cons, List.length_cons]
      rwa [show k + (l.length + 1) = k + 1 + l.length by omega]
  have := h (slice b i n) 0 0 (by simp)
  rw [slice_length, Nat.zero_add] at this; exact this

theorem instLocked_congr {s t : State} (h : t.lanes = s.lanes) (hd : t.act.dual = s.act.dual) (k : Nat) : instLocked t k = instLocked s k := by
  have h1 : ∀ l, laneGroup t l = laneGroup s l := fun l => by unfold laneGroup laneOf; rw [h]
  have h2 : ∀ g, groupOwner t g = groupOwner s g := fun g => by unfold groupOwner; rw [h1, hd]
  unfold instLocked instLanes
  simp only [h1, h2, laneOf, h]

theorem instLocked_setAct {i k : Nat} {dest : ActState} {msg : Option Nat} {s : State} : instLocked (setAct i dest msg s) k = instLocked s k := by
  have h := only_setAct (ps := [.us, .act, .qos, .ports, .sup, .life, .win, .i3c, .reeve, .counters, .pwr, .pair, .freeCtr]) (i := i) (dest := dest) (msg := msg) (by decide) (Only.refl s)
  exact instLocked_congr (h .lanes (by decide)) setAct_dual k

theorem setAct_settings {i : Nat} {dest : ActState} {msg : Option Nat} {s : State} : (setAct i dest msg s).settings = s.settings :=
  only_setAct (ps := [.us, .act, .qos, .ports, .sup, .life, .win, .i3c, .reeve, .counters, .pwr, .pair, .freeCtr]) (i := i) (dest := dest) (msg := msg) (by decide) (Only.refl s) .settings (by decide)

theorem toListen_inst {i : Nat} {msg : Option Nat} {s : State} :
    (instOf (toListen i msg s) i).st = .listen ∧ (instOf (toListen i msg s) i).terminalId = 0xFFFF ∧ (instOf (toListen i msg s) i).enabled = (instOf s i).enabled := by
  unfold toListen
  obtain ⟨_, td, sb, tb, h', _⟩ := @setAct_inst i .listen msg (actClear i msg s)
  obtain ⟨a, b, c, d, e⟩ := @actClear_inst i msg s
  rw [h']; exact ⟨rfl, a, e⟩

theorem actClear_none {i : Nat} {s : State} :
    (instOf (actClear i none s) i).toProfile = false ∧ (instOf (actClear i none s) i).toRange = false ∧
    (instOf (actClear i none s) i).toHold = false ∧ (instOf (actClear i none s) i).toTune = false := by
  unfold actClear
  dsimp only
  have hc : ∀ u, instOf (clearEqd i u) i = instOf u i := fun u =>
    inst_of_act (congrArg _ (act_of (only_clearEqd (ps := [.us]) (by decide) (Only.refl u)) (by decide))) i
  rw [hc, clearRtt_inst, instOf_modInst, if_pos rfl]
  exact ⟨rfl, rfl, rfl, rfl⟩

theorem toListen_none {i : Nat} {s : State} :
    (instOf (toListen i none s) i).toProfile = false ∧ (instOf (toListen i none s) i).toRange = false ∧
    (instOf (toListen i none s) i).toHold = false ∧ (instOf (toListen i none s) i).toTune = false := by
  unfold toListen
  obtain ⟨_, td, sb, tb, h', _⟩ := @setAct_inst i .listen none (actClear i none s)
  rw [h']; exact actClear_none

theorem supLook_sup {s : State} : (supLook s).sup.lane = s.sup.lane ∧ (supLook s).sup.dom = s.sup.dom ∧ (supLook s).sup.open15 = s.sup.open15 ∧ (supLook s).sup.openDay = s.sup.openDay ∧ (supLook s).sup.closed15 = s.sup.closed15 := by
  unfold supLook instances
  split <;> exact ⟨rfl, rfl, rfl, rfl, rfl⟩

theorem supLook_lane {s : State} (k : Nat) : supLaneOf (supLook s) k = supLaneOf s k := by unfold supLaneOf; rw [supLook_sup.1]

theorem supLook_dom {s : State} (k : Nat) : supDomOf (supLook s) k = supDomOf s k := by unfold supDomOf; rw [supLook_sup.2.1]

theorem raise_sup {c : BitVec 16} {i n : Nat} {s : State} : (raise c i n s).sup = s.sup := only_raise (ps := raising) (by decide) (Only.refl s) .sup (by decide)

theorem closeBin_dom {a b c d : Bool} {s0 : State} {n : Nat} {s : State} :
    (closeBin a b c d s0 n s).sup.dom = s.sup.dom := by
  have hc : ∀ (g : Bool) (u : State), (checkpoint g u).sup = u.sup := fun g u => only_checkpoint (ps := [.life]) (by decide) (Only.refl u) .sup (by decide)
  unfold closeBin; dsimp only
  split
  · rfl
  · rw [hc]

theorem timeLook_dom {s : State} : (timeLook s).sup.dom = s.sup.dom ∧ (timeLook s).time = s.time := by
  refine ⟨?_, only_timeLook (ps := [.sup, .life]) (by decide) (Only.refl s) .time (by decide)⟩
  have hc : ∀ u, (calendarLook u).sup = u.sup := fun u => only_calendarLook (ps := [.life]) (by decide) (Only.refl u) .sup (by decide)
  unfold timeLook binsLook; dsimp only
  rw [hc]
  split
  · rfl
  · rw [closeBin_dom, closeBin_dom]

theorem out_dom {s : State} : (outTake s).time.dom = s.time.dom ∧ (∀ o, (outFollow o s).time.dom = s.time.dom) ∧ ∀ o y, (outRunOn o y s).time.dom = s.time.dom := by
  refine ⟨?_, fun o => ?_, fun o y => ?_⟩
  · unfold outTake outStepped; rw [show ∀ (c : BitVec 16) (i n : Nat) (u : State), (raise c i n u).time = u.time from fun c i n u => only_raise (ps := raising) (by decide) (Only.refl u) .time (by decide)]; rfl
  · unfold outFollow; split <;> rfl
  · unfold outRunOn; split <;> rfl

theorem autoSelect_dom {s : State} : (autoSelect s).time.dom = s.time.dom := by
  unfold autoSelect selectDomain timeLook
  have ht : ∀ u : State, (calendarLook (binsLook u)).time = u.time := fun u =>
    only_timeLook (ps := [.sup, .life]) (by decide) (Only.refl u) .time (by decide)
  have hb : ∀ (u v : State), (binsStep v u).time.dom = u.time.dom := fun u v => by
    have := only_binsStep (ps := [.sup, .life]) (s0 := v) (by decide) (Only.refl u) .time (by decide)
    exact congrArg _ this
  have hr : ∀ (c : BitVec 16) (i n : Nat) (u : State), (raise c i n u).time = u.time := fun c i n u => only_raise (ps := raising) (by decide) (Only.refl u) .time (by decide)
  dsimp only
  split
  · split
    · rfl
    · rw [ht]
      simp only [Bool.false_eq_true, if_false]
      repeat' split
      all_goals (try rw [hb])
      all_goals (try rw [out_dom.1])
      all_goals (try rw [out_dom.2.1])
      all_goals (try rw [out_dom.2.2])
      all_goals first | rfl | (rw [hr]; done)
  · rfl

theorem autoSelect_sup {s : State} : (autoSelect s).sup.dom = s.sup.dom := by
  have h1 : ∀ u : State, (outTake u).sup = u.sup := fun u => by unfold outTake outStepped; rw [raise_sup]; rfl
  have h2 : ∀ o (u : State), (outFollow o u).sup = u.sup := fun o u => by unfold outFollow; split <;> rfl
  have h3 : ∀ o y (u : State), (outRunOn o y u).sup = u.sup := fun o y u => by unfold outRunOn; split <;> rfl
  unfold autoSelect selectDomain; dsimp only
  split
  · split
    · rfl
    · rw [timeLook_dom.1]
      simp only [Bool.false_eq_true, if_false]
      repeat' split
      all_goals (try rw [h1])
      all_goals (try rw [h2])
      all_goals (try rw [h3])
      all_goals first | rfl | (rw [raise_sup]; done)
  · rfl

theorem setServo_facts (d : Nat) (dest : ServoState) (s : State) : (setServo d dest s).sup = s.sup ∧ (domOf (setServo d dest s) d).st = dest := by
  unfold setServo; dsimp only
  split
  · rename_i h; exact ⟨rfl, h⟩
  · refine ⟨by rw [raise_sup]; rfl, ?_⟩
    have : ∀ (c : BitVec 16) (i n : Nat) (u : State), (raise c i n u).time = u.time := fun c i n u => only_raise (ps := raising) (by decide) (Only.refl u) .time (by decide)
    simp [domOf, this, modDom, tabGet_mod]

theorem servoLose_facts (d : Nat) (s : State) : supDomOf (servoLose d s) d = supDomOf s d ∧
    (domOf (servoLose d s) d).st = (if (domOf s d).st = .locked then .holdover
      else if (domOf s d).st = .acquiring then .freerun else (domOf s d).st) := by
  have key : ∀ (dest : ServoState) (u : State), u.sup.dom = s.sup.dom →
      supDomOf (autoSelect (timeLook (setServo d dest u))) d = supDomOf s d ∧
      (domOf (autoSelect (timeLook (setServo d dest u))) d).st = dest := by
    intro dest u hu
    refine ⟨?_, ?_⟩
    · unfold supDomOf; rw [autoSelect_sup, timeLook_dom.1, (setServo_facts _ _ _).1, hu]
    · unfold domOf; rw [autoSelect_dom, timeLook_dom.2]; exact (setServo_facts _ _ _).2
  unfold servoLose; dsimp only
  cases h : (domOf s d).st with
  | disabled => simp [h]
  | freerun => simp [h]
  | holdover => simp [h]
  | acquiring => exact key .freerun s rfl
  | locked => exact key .holdover _ rfl

theorem rdiInput_congr {s t : State} (h1 : t.settings = s.settings) (h2 : t.lots = s.lots) (h3 : t.sup.lane = s.sup.lane) (h4 : t.sup.dom = s.sup.dom)
    (h5 : t.sup.plm = s.sup.plm) (h6 : t.act.dual = s.act.dual) (h7 : t.lanes = s.lanes) (i : Nat) : rdiInput t i = rdiInput s i := by
  have g1 : ∀ l, laneGroup t l = laneGroup s l := fun l => by unfold laneGroup laneOf; rw [h7]
  have g2 : ∀ g, groupOwner t g = groupOwner s g := fun g => by unfold groupOwner; rw [g1, h6]
  have g3 : ∀ (p : SSpec) (a b : Nat), setting t p a b = setting s p a b := setting_congr h1
  have g4 : laneEnabled t = laneEnabled s := funext fun l => by unfold laneEnabled settingB; rw [g3]
  simp only [rdiInput, laneInput, coveredLanes, instLanes, g1, g2, g4, settingB, settingN, g3, instPlm, h2, h5, coveredDoms, h6, supDomOf, h4, supLaneOf, h3]

theorem queueMsg_pend {i : Nat} {ty : BitVec 8} {b : Bytes} {s : State} : (queueMsg i ty b s).act.pendingSwitch = s.act.pendingSwitch := by
  unfold queueMsg; split
  · simp
  · rfl

theorem queueAck_inst {i : Nat} {ty : Nat} {q : BitVec 8} {r : Nat} {s : State} (k : Nat) :
    ∃ Q A, instOf (queueAck i ty q r s) k = { instOf s k with txQueue := Q, lastAck := A } ∧ (k = i → A = some (BitVec.ofNat 8 ty, q, BitVec.ofNat 8 r)) ∧
      (queueAck i ty q r s).act.plots = s.act.plots ∧ (queueAck i ty q r s).act.working = s.act.working ∧ (queueAck i ty q r s).act.pendingSwitch = s.act.pendingSwitch := by
  unfold queueAck
  dsimp only
  obtain ⟨Q, h, h1, h2⟩ := @queueMsg_inst i 0x22 [BitVec.ofNat 8 ty, q, BitVec.ofNat 8 r] (modInst i (fun x => { x with lastAck := some (BitVec.ofNat 8 ty, q, BitVec.ofNat 8 r) }) s) k
  by_cases e : k = i
  · refine ⟨Q, some (BitVec.ofNat 8 ty, q, BitVec.ofNat 8 r), ?_, fun _ => rfl, h1, h2, (queueMsg_pend).trans (by first | rfl | simp)⟩
    rw [h, instOf_modInst, if_pos e, e]
  · refine ⟨Q, (instOf s k).lastAck, ?_, fun h => absurd h e, h1, h2, (queueMsg_pend).trans (by first | rfl | simp)⟩
    rw [h, instOf_modInst, if_neg e]

theorem msgDone_inst {m : FieldMsg} {i : Nat} {ack : Bool} {r : Nat} {s : State} :
    ∃ Q L A, instOf (msgDone m i ack r s) i = { instOf s i with txQueue := Q, lastSeq := L, lastAck := A } ∧
      (msgTid m = 0xFFFF → Q = (instOf s i).txQueue ∧ L = (instOf s i).lastSeq ∧ A = (instOf s i).lastAck) ∧
      (ack = false → Q = (instOf s i).txQueue) ∧
      (msgTid m ≠ 0xFFFF → L = some (msgSeq m) ∧ (ack = true → A = some (BitVec.ofNat 8 (msgType m), msgSeq m, BitVec.ofNat 8 r))) ∧
      (msgDone m i ack r s).act.plots = s.act.plots ∧ (msgDone m i ack r s).act.working = s.act.working ∧ (msgDone m i ack r s).act.pendingSwitch = s.act.pendingSwitch := by
  unfold msgDone
  dsimp only
  by_cases hc : msgTid m = 0xFFFF
  · rw [decide_eq_true hc]
    exact ⟨(instOf s i).txQueue, (instOf s i).lastSeq, (instOf s i).lastAck, by simp, fun _ => ⟨rfl, rfl, rfl⟩, fun _ => rfl, fun h => absurd hc h, by simp, by simp, by simp⟩
  · rw [decide_eq_false hc]
    simp only [Bool.not_false, Bool.and_true, Bool.false_eq_true, if_false]
    cases ack with
    | false => exact ⟨(instOf s i).txQueue, some (msgSeq m), (instOf s i).lastAck, by simp, fun h => absurd h hc, fun _ => rfl, fun _ => ⟨rfl, fun h => absurd h (by decide)⟩, by simp, by simp, by simp⟩
    | true =>
      obtain ⟨Q, A, h, hA, h1, h2, h3⟩ := @queueAck_inst i (msgType m) (msgSeq m) r (modInst i (fun x => { x with lastSeq := some (msgSeq m) }) (bump cFmsgRx (scInst i) 1 s)) i
      exact ⟨Q, some (msgSeq m), A, by simp only [if_true]; rw [h]; simp, fun h => absurd h hc, fun h => by simp at h, fun _ => ⟨rfl, fun _ => hA rfl⟩, by simp [h1], by simp [h2], by simp [h3]⟩

theorem acceptMsg_ok {m : FieldMsg} {addr : Addressing} {p : ActState → Bool} {ack : Bool}
    {act : Nat → State → Option Nat × State} {s : State} (h : Admitted m s)
    (ha : if msgTid m = 0xFFFF then (addr = .broadcast ∨ (addr = .serial ∨ addr = .either) ∧ serialMatches s m = true) else addr = .addressed ∨ addr = .either)
    (ht : msgType m = 9 ∨ msgType m = 10 → (instOf s (groupOwner s m.group)).opRev ≠ 0x0100)
    (hp : p (instOf s (groupOwner s m.group)).st = true) :
    acceptMsg m addr p ack act s = (act (groupOwner s m.group) s).1.elim (act (groupOwner s m.group) s).2
      (fun r => msgDone m (groupOwner s m.group) ack r (act (groupOwner s m.group) s).2) := by
  obtain ⟨h1, h2, h3, h4⟩ := h
  unfold acceptMsg; dsimp only
  rw [if_neg (by simp [h1, h2]), if_neg (by rcases h4 with h4 | h4 <;> simp [h4]), if_neg (by simp [h3])]
  rw [if_neg (by
    intro hh; simp only [Bool.and_eq_true, Bool.or_eq_true, beq_iff_eq] at hh
    exact ht hh.1 hh.2)]
  by_cases hc : msgTid m = 0xFFFF
  · rw [if_pos hc] at ha
    rw [decide_eq_true hc]
    rw [if_neg (by rcases ha with rfl | ⟨rfl | rfl, _⟩ <;> decide)]
    rw [if_neg (by rcases ha with rfl | ⟨rfl | rfl, e⟩ <;> simp_all)]
    simp only [Bool.not_true, Bool.false_and, Bool.false_eq_true, if_false, hp]
    generalize act (groupOwner s m.group) s = w
    obtain ⟨r, s1⟩ := w
    cases r <;> rfl
  · rw [if_neg hc] at ha
    rw [decide_eq_false hc]
    rw [if_neg (by rcases ha with rfl | rfl <;> decide)]
    rw [if_neg (by simp)]
    have h5 := (h4.resolve_left hc).2
    have hd : ∀ d, (match (instOf s (groupOwner s m.group)).lastSeq with | some q => (msgSeq m - q).toNat | none => 1) = d → d ≠ 0 ∧ d < 128 := by
      intro d e; cases hl : (instOf s (groupOwner s m.group)).lastSeq with
      | none => rw [hl] at e; simp only at e; omega
      | some q => rw [hl] at e; simp only at e; rw [← e]; exact h5 q hl
    have hd' := hd _ rfl
    simp only [Bool.not_false, Bool.true_and, hp, Bool.not_true, Bool.false_eq_true, if_false]
    rw [if_neg (by simp only [beq_iff_eq]; exact hd'.1), if_neg (by simp only [decide_eq_true_eq]; exact Nat.not_le.mpr hd'.2)]
    generalize act (groupOwner s m.group) s = w
    obtain ⟨r, s1⟩ := w
    cases r <;> rfl

theorem frame_msgDone {m : FieldMsg} {i : Nat} {ack : Bool} {r : Nat} {s : State} : Only [.act, .sup, .life, .win, .i3c, .reeve, .counters] s (msgDone m i ack r s) := by
  unfold msgDone; dsimp only
  split
  · apply only_queueAck (by decide); split
    · exact only_bump (by decide) (Only.refl s)
    · exact only_modInst (by decide) (only_bump (by decide) (Only.refl s))
  · split
    · exact only_bump (by decide) (Only.refl s)
    · exact only_modInst (by decide) (only_bump (by decide) (Only.refl s))

theorem raise_time {c : BitVec 16} {i n : Nat} {u : State} : (raise c i n u).time = u.time := only_raise (ps := raising) (by decide) (Only.refl u) .time (by decide)

theorem binAdd_dom {n c a : Nat} {s : State} : (binAdd n c a s).sup.dom = s.sup.dom := by
  have h : ∀ (day : Bool) (u : State), (tcaCheck day n c u).sup.dom = u.sup.dom := by
    intro day u
    cases day <;> (unfold tcaCheck; dsimp only; simp only [Bool.false_eq_true, if_false, if_true]; split)
    all_goals first | rfl | (rw [raise_sup])
  unfold binAdd; dsimp only
  rw [h, h]

theorem bump_sup_dom {c : CtrId} {a n : Nat} {s : State} : (bump c a n s).sup.dom = s.sup.dom := by
  have h1 : (lifeTotal c a n (bumpRaw c a n s)).sup = s.sup := by unfold lifeTotal; dsimp only; repeat' split
                                                                  all_goals rfl
  unfold bump; dsimp only
  split
  · rfl
  · repeat' split
    all_goals (try rw [binAdd_dom])
    all_goals (try rw [raise_sup])
    all_goals rw [h1]

theorem primaryOf_congr {s t : State} (h : t.lanes = s.lanes) (g : t.groups = s.groups) (e : t.settings = s.settings) (k : Nat) (sc : BitVec 48) : primaryOf t k sc = primaryOf s k sc := by
  have h1 : ∀ l, laneGroup t l = laneGroup s l := fun l => by unfold laneGroup laneOf; rw [h]
  have h2 : ∀ l, laneOf t l = laneOf s l := fun l => by unfold laneOf; rw [h]
  unfold primaryOf includedOf lanesOf groupOf
  simp only [h1, h2, g]

theorem freeBushels_facts {n : Nat} {s : State} : (freeBushels n s).ports = s.ports ∧ (freeBushels n s).inQ = s.inQ ∧ (freeBushels n s).settings = s.settings ∧ (freeBushels n s).clk = s.clk ∧ (freeBushels n s).tine = s.tine ∧ (freeBushels n s).qos.ds = s.qos.ds := by
  have h := only_freeBushels (ps := [.qos, .pwr, .freeCtr]) (n := n) (by decide) (Only.refl s)
  refine ⟨h .ports (by decide), h .inQ (by decide), h .settings (by decide), h .clk (by decide), h .tine (by decide), ?_⟩
  have hr : ∀ (L : List Nat) (k : Nat) (u : State), (returnHeld k L u).qos = u.qos := by
    intro L; induction L with
    | nil => intro k u; rfl
    | cons a l ih => intro k u; rw [returnHeld, ih]; rfl
  unfold freeBushels; dsimp only
  split
  · rfl
  · rw [hr]; rfl

theorem bump_keeps (c : CtrId) (a n : Nat) (u : State) : (bump c a n u).ports = u.ports ∧ (bump c a n u).inQ = u.inQ ∧ (bump c a n u).settings = u.settings ∧ (bump c a n u).clk = u.clk ∧ (bump c a n u).qos = u.qos ∧ (bump c a n u).pair = u.pair ∧ (bump c a n u).sec = u.sec ∧ (bump c a n u).time = u.time := by
  have h := only_bump (ps := counting) (c := c) (scope := a) (n := n) (by decide) (Only.refl u)
  exact ⟨h .ports (by decide), h .inQ (by decide), h .settings (by decide), h .clk (by decide), h .qos (by decide), h .pair (by decide), h .sec (by decide), h .time (by decide)⟩

theorem each_same {f : Nat → State → State} {s : State} : ∀ {L : List Nat}, (∀ k ∈ L, f k s = s) → each f L s = s := by
  intro L; induction L with
  | nil => intro _; rfl
  | cons a l ih => intro h; rw [each, h a (by simp)]; exact ih (fun k hk => h k (by simp [hk]))

theorem bump_cls {c : CtrId} {a n : Nat} {s : State} : (bump c a n s).cls = s.cls := only_bump (ps := counting) (by decide) (Only.refl s) .cls (by decide)

theorem raise_cls {c : BitVec 16} {a n : Nat} {s : State} : (raise c a n s).cls = s.cls := only_raise (ps := raising) (by decide) (Only.refl s) .cls (by decide)

theorem pmcInstant_threads {h t n e : Nat} {s : State} : (pmcInstant h t n e s).tine.threads = s.tine.threads := by
  have hr : ∀ (c : BitVec 16) (a n : Nat) (u : State), (raise c a n u).tine = u.tine := fun c a n u => only_raise (ps := raising) (by decide) (Only.refl u) .tine (by decide)
  have hw : ∀ (m : BitVec 6) (u : State), (pmcWrap h t m u).tine.threads = u.tine.threads := by
    intro m u; unfold pmcWrap; dsimp only; split
    · rfl
    · repeat' split
      all_goals first | rfl | (rw [hr]; rfl)
  have he : ∀ (L : List Nat) (f : Nat → State → State), (∀ i u, (f i u).tine.threads = u.tine.threads) → ∀ u, (each f L u).tine.threads = u.tine.threads := by
    intro L f hf; induction L with
    | nil => intro u; rfl
    | cons a l ih => intro u; rw [each, ih, hf]
  unfold pmcInstant
  apply he
  intro i u
  dsimp only
  repeat' split
  all_goals first | rfl | (rw [hw]; rfl)

theorem keepPair {ps : List Part} {s t : State} (h : Only ps s t) (hp : .pair ∉ ps) : t.pair = s.pair := h .pair hp

theorem bump_pair (c : CtrId) (a n : Nat) (s : State) : (bump c a n s).pair = s.pair := only_bump (ps := counting) (by decide) (Only.refl s) .pair (by decide)

theorem raise_pair (c : BitVec 16) (a n : Nat) (s : State) : (raise c a n s).pair = s.pair := only_raise (ps := raising) (by decide) (Only.refl s) .pair (by decide)

theorem portsLook_pair (s : State) : (portsLook s).pair = s.pair := keepPair (ps := counting ++ [.us, .qos, .ports, .pwr, .freeCtr]) (only_portsLook (by decide) (Only.refl s)) (by decide)

theorem setPair_pair (dest : PairState) (s : State) : (setPair dest s).pair = { s.pair with st := dest } := by
  unfold setPair; dsimp only
  split
  · rename_i h; rw [← h]
  · rw [portsLook_pair, raise_pair]; split <;> rfl

theorem standbyFlush_pair (ds : Bool) (q : Nat) (s : State) : (standbyFlush ds q s).pair = s.pair := keepPair (ps := counting ++ [.us, .qos, .pwr, .freeCtr]) (only_standbyFlush (by decide) (Only.refl s)) (by decide)

theorem each_pair {α : Type} {f : α → State → State} (h : ∀ x s, (f x s).pair = s.pair) : ∀ (l : List α) (s : State), (each f l s).pair = s.pair
  | [], _ => rfl
  | x :: l, s => (each_pair h l _).trans (h x s)

theorem leaveActive_pair (dest : PairState) (s : State) : (leaveActive dest s).pair = { s.pair with lease := none, roleOut := false, st := dest } := by
  unfold leaveActive; dsimp only
  rw [setPair_pair, each_pair (fun _ _ => standbyFlush_pair _ _ _), each_pair (fun _ _ => standbyFlush_pair _ _ _)]; rfl

theorem yieldLook_none {s : State} (h : s.pair.yielding = none) : yieldLook s = s := by unfold yieldLook; rw [h]

theorem burstAccount_pair {x : Nat} {b0 : Burst} {g : Nat} {s : State} (h : s.pair.yielding = none) : (burstAccount x b0 g s).pair = s.pair := by
  unfold burstAccount; dsimp only
  generalize hv : drainLook _ = v
  have e : v.pair = s.pair := by
    rw [← hv]
    refine keepPair (ps := counting ++ [.us, .qos, .pwr, .freeCtr]) (only_drainLook (by decide) (only_each (fun _ _ h => only_loseFrame (by decide) h) (only_each (fun _ _ h => only_lotDone (by decide) h) (only_f_us ?_ ?_)))) (by decide)
    · decide
    · repeat' first | exact Only.refl s | (refine only_bump ?_ ?_; · decide)
  rw [yieldLook_none (by rw [e, h]), e]

theorem cutBurst_pair {x : Nat} {s : State} (h : s.pair.yielding = none) : (cutBurst x s).pair = s.pair := by
  unfold cutBurst; dsimp only
  split
  · rfl
  · split
    · generalize hv : benLow x _ = v
      have e : v.pair = s.pair := by
        rw [← hv]
        exact keepPair (ps := counting ++ [.us]) (only_benLow (by decide) (only_modUsLane (by decide) (only_numberUpTo (by decide) (Only.refl s)))) (by decide)
      rw [bump_pair, burstAccount_pair (by rw [e, h]), e]
    · rfl

theorem gateLook_pair {s : State} (h : s.pair.yielding = none) : (gateLook s).pair = s.pair := by
  unfold gateLook
  have step : ∀ (x : Nat) (u : State), u.pair = s.pair → ((fun x s => match (usLaneOf s x).bursts with
    | b :: _ => if b.sending && !gateConds s x b.furrow then cutBurst x s else s
    | [] => s) x u).pair = s.pair := by
    intro x u hu; dsimp only; split
    · split
      · rw [cutBurst_pair (by rw [hu, h]), hu]
      · exact hu
    · exact hu
  exact step 1 _ (step 0 _ rfl)

theorem yieldLook_quiet {s : State} {y : Yield} (hy : s.pair.yielding = some y) (h : ∀ x ∈ [0, 1], ∀ b ∈ (usLaneOf s x).bursts.head?, b.sending = false) : yieldLook s = yieldNow y s := by
  have h0 := h 0 (by decide); have h1 := h 1 (by decide)
  unfold yieldLook; rw [hy]; dsimp only
  split
  · rename_i hc
    exfalso
    simp only [List.any_cons, List.any_nil, Bool.or_false, Bool.or_eq_true] at hc
    rcases hc with hc | hc
    · revert hc h0; cases (usLaneOf s 0).bursts <;> simp
    · revert hc h1; cases (usLaneOf s 1).bursts <;> simp
  · rfl

theorem yieldLook_busy {s : State} (h : ¬ ∀ x ∈ [0, 1], ∀ b ∈ (usLaneOf s x).bursts.head?, b.sending = false) : yieldLook s = s := by
  unfold yieldLook; split
  · rfl
  · split
    · rfl
    · rename_i hc
      exfalso; apply h
      simp only [List.any_cons, List.any_nil, Bool.or_false, Bool.not_eq_true, Bool.or_eq_false_iff] at hc
      intro x hx
      simp only [List.mem_cons, List.not_mem_nil, or_false] at hx
      rcases hx with rfl | rfl
      · have := hc.1; revert this; cases (usLaneOf s 0).bursts <;> simp
      · have := hc.2; revert this; cases (usLaneOf s 1).bursts <;> simp

theorem answer_mailbox {op : Nat} {c : Cmd} {r : Reply} {s : State} (hc : c.src = .mailbox) :
    Replied op c r.status r.payload (answer op c r s) ∧ Only [.win, .i3c, .reeve] s (answer op c r s) := by
  obtain ⟨st, pl, lt⟩ := r
  have ho : Only [.act, .win, .i3c, .reeve] s (answer op c ⟨st, pl, lt⟩ s) := only_answer (List.Subset.refl _) (Only.refl s)
  have ha : (answer op c ⟨st, pl, lt⟩ s).act = s.act := by
    unfold answer; rw [hc]; dsimp only
    exact (only_busyLook (ps := [.win]) (by decide) (Only.refl _) .act (by decide)).trans ((only_postResponses (ps := [.win, .i3c, .reeve]) (by decide) (Only.refl _) .act (by decide)).trans rfl)
  refine ⟨?_, ?_⟩
  · unfold Replied answer; rw [hc]; dsimp only
    generalize hx : ({ src := .mailbox, opcode := BitVec.ofNat 16 op, tag := c.tag, status := BitVec.ofNat 16 st, payload := pl } : Resp) = x
    unfold busyLook postResponses
    have e : (modReeve (fun v => { v with responses := v.responses ++ [x] }) s).reeve.responses = s.reeve.responses ++ [x] := rfl
    rw [e]
    cases hr : s.reeve.responses with
    | nil =>
      dsimp only [List.nil_append]
      split
      · right; simp only [modWin, e, hr]; rfl
      · left
        simp only [modWin]
        unfold setInt requestIbi; dsimp only
        split <;> exact ⟨rfl, rfl⟩
    | cons r rest =>
      dsimp only [List.cons_append]
      split
      · right; simp only [modWin, e]; simp
      · right
        simp only [modWin]
        have : (setInt intResp { modReeve (fun v => { v with responses := rest ++ [x] }) (modReeve (fun v => { v with responses := v.responses ++ [x] }) s) with win := { (modReeve (fun v => { v with responses := rest ++ [x] }) (modReeve (fun v => { v with responses := v.responses ++ [x] }) s)).win with outbound := respBytes r, respValid := true } }).reeve.responses = rest ++ [x] := by
          unfold setInt requestIbi; dsimp only; split <;> rfl
        rw [this]; simp
  · intro p hp
    by_cases hq : p = .act
    · subst hq; exact ha
    · refine ho p ?_
      simp only [List.mem_cons, List.not_mem_nil, or_false] at hp ⊢
      rintro (h | h)
      · exact hq h
      · exact hp h

theorem cmdCheck_none {op : Nat} {c : Cmd} {s : State} (h : Accepted op c s) (v : Reeve) : cmdCheck op c { s with reeve := v } = none := by
  obtain ⟨h1, h2, h3, h4, h5, h6, h7, h8, h9, hP, hC, h10⟩ := h
  have hsp : splitCall c = { payload := c.payload, tag := c.tag, mgmt := false } := by unfold splitCall; rw [h4, h2]; rfl
  have ham : asMirrored op c { s with reeve := v } = false := by unfold asMirrored; rw [h2, h3]; simp
  unfold cmdCheck; dsimp only
  rw [hsp]; dsimp only
  rw [if_neg (by omega), if_neg (by simp [h5]), if_neg (by simp), if_neg (by rcases h7 with h | h | h <;> simp [h]), if_neg (by simp [h3]), if_neg (by rw [ham]; rcases h8 with h | h <;> simp [h]), if_neg (by simp [h4]), if_neg (by simp [h4]), if_neg (by rw [ham]; simp [h4])]
  unfold lateCheck
  rw [if_neg, if_neg]
  · rw [show commitBusy op { s with reeve := v } = commitBusy op s from rfl, hC]; decide
  · rw [show notReady op c.payload { s with reeve := v } = notReady op c.payload s from rfl]
    unfold notReady
    rw [h9]
    rcases hP with h | h <;> simp [h]

theorem runCmd_accepted {op : Nat} {b : CmdBody} {c : Cmd} {s s1 : State} {r : Reply} (h : Accepted op c s)
    (hb : b { payload := c.payload, tag := c.tag } (untake op c s) = (r, s1)) (hr : r.status < 2)
    (hl : r.later = false) :
    runCmd op b c s = answer op c r s1 := by
  have hk : cmdCheck op c (untake op c s) = none := cmdCheck_none h _
  obtain ⟨h1, h2, h3, h4, h5, h6, h7, h8, h9, hP, hC, h10⟩ := h
  have hsp : splitCall c = { payload := c.payload, tag := c.tag, mgmt := false } := by unfold splitCall; rw [h4, h2]; rfl
  have ham : asMirrored op c (untake op c s) = false := by unfold asMirrored; rw [h2, h3]; simp
  have hd : (isDeferredOp op && ((none : Option (BitVec 48)).isSome || timingLocked (untake op c s))) = false := by
    cases hx : isDeferredOp op with
    | false => rfl
    | true => rw [show timingLocked (untake op c s) = timingLocked s from rfl, h10 hx]; rfl
  unfold runCmd
  rw [h1, h2]; dsimp only
  rw [hk, hsp]; dsimp only
  rw [hb]; dsimp only
  rw [ham, hd, show isError r = false from by unfold isError; simpa using hr, hl]
  rfl

theorem each_stay {f : Nat → State → State} {P : State → Prop} (h1 : ∀ i s, P s → P (f i s)) : ∀ (L : List Nat) (s : State), P s → P (each f L s)
  | [], _, h => h
  | i :: L, s, h => each_stay h1 L _ (h1 i s h)

theorem each_once {f : Nat → State → State} {P : State → Prop} {j : Nat} (h1 : ∀ i s, P s → P (f i s)) (h2 : ∀ s, P (f j s))
    (L : List Nat) : ∀ (s : State), j ∈ L → P (each f L s) := by
  induction L with
  | nil => intro s h; exact absurd h (List.not_mem_nil)
  | cons i L ih =>
    intro s h
    rw [each]
    rcases List.mem_cons.mp h with h | h
    · subst h; exact each_stay h1 L _ (h2 s)
    · exact ih _ h

theorem Only.of_reeve (s : State) (v : Reeve) : Only [.reeve] s { s with reeve := v } := by
  intro p hp; cases p <;> first | rfl | exact absurd (List.mem_singleton.mpr rfl) hp

theorem Only.of_freeCtr (s : State) (v : Nat) : Only [.freeCtr] s { s with freeCtr := v } := by
  intro p hp; cases p <;> first | rfl | exact absurd (List.mem_singleton.mpr rfl) hp

theorem find_mem {α : Type} {f : α → Bool} {l : List α} {a : α} (h : l.find? f = some a) : f a = true := List.find?_some h

theorem key_inj {p q : SSpec} {i j x y : Nat} (hi : i < 256) (hj : j < 256) (hp : p.row < 4096) (hq : q.row < 4096) (hpp : p.pos < 16) (hqp : q.pos < 16)
    (hx : x < 2 ^ 26) (hy : y < 2 ^ 26) (h : setKey p i x = setKey q j y) : p.row = q.row ∧ p.pos = q.pos ∧ i = j ∧ x = y := by
  unfold setKey at h; omega

theorem parseItems_bounds : ∀ (n : Nat) (b : Bytes) (is : List Item), parseItems n b = some is → ∀ i ∈ is, i.row < 4096 ∧ i.pos < 16 ∧ i.idx < 256 := by
  intro n
  induction n with
  | zero => intro b is h; cases b <;> simp [parseItems] at h; subst h; simp
  | succ n ih =>
    intro b is h
    cases b with
    | nil => simp [parseItems] at h; subst h; simp
    | cons a b =>
      unfold parseItems at h
      split at h
      · cases h
      dsimp only at h
      split at h
      · cases h
      split at h
      · cases h
      · rename_i js hj
        cases h
        intro i hi
        rcases List.mem_cons.mp hi with rfl | hi
        · dsimp only
          have : field (a :: b) 0 2 < 65536 := field_lt _ _ 2
          refine ⟨by omega, by omega, (byteAt (a :: b) 2).isLt⟩
        · exact ih _ _ hj i hi

theorem checkItems_facts {specs : List SSpec} : ∀ (is : List Item) (n : Nat) (acc gs : List Given), checkItems specs n acc is = .ok gs →
    (∀ i ∈ is, i.row < 4096 ∧ i.pos < 16 ∧ i.idx < 256) →
    (∀ g ∈ acc, g.2.1 < 256 ∧ g.1.row < 4096 ∧ g.1.pos < 16 ∧ g.2.1 < g.1.idx ∧ g.1 ∈ specs ∧ specs.find? (fun p => p.row == g.1.row && p.pos == g.1.pos) = some g.1) →
    acc.Pairwise (fun g h => ¬(g.1 = h.1 ∧ g.2.1 = h.2.1)) →
    (∀ g ∈ gs, g.2.1 < 256 ∧ g.1.row < 4096 ∧ g.1.pos < 16 ∧ g.2.1 < g.1.idx ∧ g.1 ∈ specs ∧ specs.find? (fun p => p.row == g.1.row && p.pos == g.1.pos) = some g.1) ∧
    gs.Pairwise (fun g h => ¬(g.1 = h.1 ∧ g.2.1 = h.2.1)) := by
  intro is
  induction is with
  | nil => intro n acc gs h _ h1 h2; unfold checkItems at h; cases h; exact ⟨h1, h2⟩
  | cons i is ih =>
    intro n acc gs h hb h1 h2
    unfold checkItems at h
    split at h
    · cases h
    rename_i p hp
    split at h
    · cases h
    rename_i v hv
    split at h
    · cases h
    rename_i hi
    split at h
    · cases h
    rename_i ha
    have hbi := hb i (by simp)
    have hm := List.find?_some hp
    simp only [Bool.and_eq_true, beq_iff_eq] at hm
    refine ih (n + 1) _ gs h (fun j hj => hb j (by simp [hj])) ?_ ?_
    · intro g hg
      rcases List.mem_append.mp hg with hg | hg
      · exact h1 g hg
      · rw [List.mem_singleton] at hg; subst hg
        dsimp only
        refine ⟨hbi.2.2, by omega, by omega, by omega, List.mem_of_find?_eq_some hp, ?_⟩
        rw [hm.1, hm.2]; exact hp
    · rw [List.pairwise_append]
      refine ⟨h2, List.pairwise_singleton _ _, ?_⟩
      intro g hg x hx
      rw [List.mem_singleton] at hx; subst hx
      dsimp only
      rintro ⟨e1, e2⟩
      apply ha
      rw [List.any_eq_true]
      exact ⟨g, hg, by simp [e1, e2]⟩

theorem carries_facts {kinds : List Nat} {specs : Nat → List SSpec} {c : Cmd} {s : State} {sc : Nat} {gs : List Given} (h : Carries kinds specs c s sc gs) :
    (∀ g ∈ gs, g.2.1 < g.1.idx ∧ g.1 ∈ specs (scopeKind sc)) ∧
    ∀ (f : Given → Nat), (∀ g ∈ gs, f g < 2 ^ 26) → gs.Pairwise (fun g h => setKey g.1 g.2.1 (f g) ≠ setKey h.1 h.2.1 (f h)) := by
  obtain ⟨_, _, is, hi, hc⟩ := h
  obtain ⟨h1, h2⟩ := checkItems_facts is 0 [] gs hc (parseItems_bounds _ _ _ hi) (by simp) List.Pairwise.nil
  refine ⟨fun g hg => ⟨(h1 g hg).2.2.2.1, (h1 g hg).2.2.2.2.1⟩, fun f hf => ?_⟩
  rw [List.pairwise_iff_forall_sublist] at h2 ⊢
  intro g x hs e
  have hg : g ∈ gs := hs.subset (by simp)
  have hx : x ∈ gs := hs.subset (by simp)
  obtain ⟨a1, a2, a3, a4, a5, a6⟩ := h1 g hg
  obtain ⟨b1, b2, b3, b4, b5, b6⟩ := h1 x hx
  obtain ⟨e1, e2, e3, _⟩ := key_inj a1 b1 a2 b2 a3 b3 (hf g hg) (hf x hx) e
  rw [e1, e2, b6] at a6
  exact h2 hs ⟨(Option.some.inj a6).symm, e3⟩

theorem each_put {f : Given → Nat} : ∀ (gs : List Given) (s : State), gs.Pairwise (fun g h => setKey g.1 g.2.1 (f g) ≠ setKey h.1 h.2.1 (f h)) →
    ∀ g ∈ gs, tabGet none (each (fun (g : Given) s => { s with settings := tabSet none s.settings (setKey g.1 g.2.1 (f g)) (some g.2.2) }) gs s).settings (setKey g.1 g.2.1 (f g)) = some g.2.2 := by
  have keep : ∀ (gs : List Given) (s : State) (k : Nat), (∀ g ∈ gs, setKey g.1 g.2.1 (f g) ≠ k) →
      tabGet none (each (fun (g : Given) s => { s with settings := tabSet none s.settings (setKey g.1 g.2.1 (f g)) (some g.2.2) }) gs s).settings k = tabGet none s.settings k := by
    intro gs
    induction gs with
    | nil => intro s k _; rfl
    | cons a gs ih =>
      intro s k h
      rw [each, ih _ k (fun g hg => h g (by simp [hg]))]
      dsimp only
      rw [tabGet_set, if_neg (fun e => h a (by simp) e.symm)]
  intro gs
  induction gs with
  | nil => intro s _ g hg; cases hg
  | cons a gs ih =>
    intro s h g hg
    obtain ⟨h1, h2⟩ := List.pairwise_cons.mp h
    rw [each]
    rcases List.mem_cons.mp hg with rfl | hg
    · rw [keep gs _ _ (fun x hx e => h1 x hx e.symm)]
      dsimp only
      rw [tabGet_set, if_pos rfl]
    · exact ih _ h2 g hg

theorem putGiven_each (sc : Nat) (gs : List Given) (s : State) : putGiven sc gs s = each (fun (g : Given) s => { s with settings := tabSet none s.settings (setKey g.1 g.2.1 (if g.1.dev then scDevice else sc)) (some g.2.2) }) gs s := rfl

theorem putGiven_inForce {kinds : List Nat} {specs : Nat → List SSpec} {c : Cmd} {s s' : State} {sc : Nat} {gs : List Given} (h : Carries kinds specs c s sc gs)
    (sc' : Nat) (hs : sc' < 2 ^ 26) {t : State} (ht : t.settings = (putGiven sc' gs s').settings) : InForce gs sc' t := by
  intro g hg
  unfold setting
  rw [ht, putGiven_each, each_put (f := fun g => if g.1.dev then scDevice else sc') gs s' ((carries_facts h).2 _ ?_) g hg]
  · rfl
  · intro g _; split
    · decide
    · exact hs

theorem carries_scope {kinds : List Nat} {specs : Nat → List SSpec} {c : Cmd} {s : State} {sc : Nat} {gs : List Given} (h : Carries kinds specs c s sc gs)
    (hk : ∀ k ∈ kinds, k < 64) : sc < 2 ^ 26 ∧ scopeKind sc ∈ kinds := by
  obtain ⟨_, h, _⟩ := h
  unfold scopeOf at h
  split at h
  · rename_i hc
    cases h
    simp only [Bool.and_eq_true, List.contains_iff_mem] at hc
    have h1 := hk _ hc.1
    have h2 : field c.payload 2 2 < 65536 := field_lt _ _ 2
    have e : scopeKind (scopeField c.payload) = (byteAt c.payload 0).toNat := by unfold scopeKind scopeField scopeCode; omega
    refine ⟨by unfold scopeField scopeCode; omega, e ▸ hc.1⟩
  · cases h

theorem settingsCmd_runs {kinds : List Nat} {specs : Nat → List SSpec} {k : Nat → List Given → Call → State → Reply × State} {c : Cmd} {s : State} {sc : Nat} {gs : List Given}
    (h : Carries kinds specs c s sc gs) (v : Reeve) :
    settingsCmd kinds specs k { payload := c.payload, tag := c.tag } { s with reeve := v } = k sc gs { payload := c.payload, tag := c.tag } { s with reeve := v } := by
  obtain ⟨h1, h2, is, h3, h4⟩ := h
  unfold settingsCmd; dsimp only
  rw [if_neg (by omega), show scopeOf { s with reeve := v } kinds c.payload = some sc from h2]; dsimp only
  rw [h3]; dsimp only
  rw [h4]

theorem untake_reeve (op : Nat) (c : Cmd) (s : State) : ∃ v, untake op c s = { s with reeve := v } := ⟨_, rfl⟩

theorem putGiven_only {sc : Nat} {gs : List Given} {s : State} : Only [.settings] s (putGiven sc gs s) := only_putGiven (List.Subset.refl _) (Only.refl s)

theorem putGiven_reeve {sc : Nat} {gs : List Given} {s : State} {v : Reeve} : putGiven sc gs { s with reeve := v } = { putGiven sc gs s with reeve := v } := by
  rw [putGiven_each, putGiven_each]
  induction gs generalizing s with
  | nil => rfl
  | cons g gs ih => rw [each, each]; exact ih (s := { s with settings := tabSet none s.settings (setKey g.1 g.2.1 (if g.1.dev then scDevice else sc)) (some g.2.2) })

theorem portRead_ok {b : CmdBody} {c : Call} {s : State} (h : namesNoPort (mode100 s) (scopeField c.payload) = false) : portRead b c s = b c s := by
  unfold portRead; rw [if_neg (by simp [h])]

theorem flushQueue_empty (ds : Bool) (q : Nat) (s : State) : (if ds then tabGet ({} : Queue) (flushQueue ds q s).qos.ds q else tabGet ({} : Queue) (flushQueue ds q s).qos.us q).frames = [] := by
  unfold flushQueue; dsimp only
  have hb : ∀ (c : CtrId) (a n : Nat) (u : State), (bump c a n u).qos = u.qos := fun c a n u => (bump_keeps c a n u).2.2.2.2.1
  rw [hb]
  have hf : ∀ (n : Nat) (u : State), (freeBushels n u).qos.us = u.qos.us ∧ (freeBushels n u).qos.ds = u.qos.ds := by
    intro n u
    have hr : ∀ (L : List Nat) (k : Nat) (u : State), (returnHeld k L u).qos = u.qos := by
      intro L; induction L with
      | nil => intro k u; rfl
      | cons a l ih => intro k u; rw [returnHeld, ih]; rfl
    unfold freeBushels; dsimp only
    split
    · exact ⟨rfl, rfl⟩
    · rw [hr]; exact ⟨rfl, rfl⟩
  cases ds
  · simp only [Bool.false_eq_true, if_false]
    rw [hb, (hf _ _).1]
    unfold modQueue modUs; simp only [Bool.false_eq_true, if_false]
    rw [tabGet_mod, if_pos rfl]
  · simp only [if_true]
    rw [(hf _ _).2]
    unfold modQueue modDs; simp only [if_true]
    rw [tabGet_mod, if_pos rfl]

theorem given_reeve {gs : List Given} {s : State} {v : Reeve} {p : SSpec} {sc i : Nat} : given { s with reeve := v } gs p sc i = given s gs p sc i := rfl

theorem runCmd_answers {op : Nat} {b : CmdBody} {c : Cmd} {s s1 : State} {r : Reply} (h : Accepted op c s)
    (hb : b { payload := c.payload, tag := c.tag } (untake op c s) = (r, s1))
    (hl : r.later = false) : runCmd op b c s = answer op c r s1 := by
  have hk : cmdCheck op c (untake op c s) = none := cmdCheck_none h _
  obtain ⟨h1, h2, h3, h4, h5, h6, h7, h8, h9, hP, hC, h10⟩ := h
  have hsp : splitCall c = { payload := c.payload, tag := c.tag, mgmt := false } := by unfold splitCall; rw [h4, h2]; rfl
  have ham : asMirrored op c (untake op c s) = false := by unfold asMirrored; rw [h2, h3]; simp
  have hd : (isDeferredOp op && ((none : Option (BitVec 48)).isSome || timingLocked (untake op c s))) = false := by
    cases hx : isDeferredOp op with
    | false => rfl
    | true => rw [show timingLocked (untake op c s) = timingLocked s from rfl, h10 hx]; rfl
  unfold runCmd
  rw [h1, h2]; dsimp only
  rw [hk, hsp]; dsimp only
  rw [hb]; dsimp only
  rw [ham, hd, hl]
  simp only [Bool.not_true, Bool.false_eq_true, if_false]
  exact ite_self _

theorem answer_reeve {op : Nat} {c : Cmd} {r : Reply} {s : State} (hc : c.src = .mailbox) : ∃ q, (answer op c r s).reeve = { s.reeve with responses := q } := by
  unfold answer; rw [hc]; dsimp only
  unfold busyLook postResponses
  split
  · exact ⟨_, rfl⟩
  · split
    · exact ⟨_, rfl⟩
    · unfold setInt requestIbi; dsimp only; split <;> exact ⟨_, rfl⟩

theorem host_of {s : State} {v : Reeve} {t : State} (h : Only [.win, .i3c, .reeve] { s with reeve := v } t) : Only [.win, .i3c, .reeve] s t :=
  Only.step (by decide) ((Only.of_reeve s v).mono (by decide)) h

theorem fixed_ok {n : Nat} {k : Bytes → Call → State → Reply × State} {c : Call} {s : State} (h : c.payload.length = n) : fixedCmd n k c s = k c.payload c s := by
  unfold fixedCmd; rw [if_neg (by simpa using h)]

/-- Every part but the settings. -/
def noset : List Part := [.clk, .lanes, .groups, .lots, .reasm, .toTime, .toReeve, .inQ, .us, .act, .sup, .time, .qos,
  .cry, .cls, .tine, .ports, .slanes, .pwr, .pair, .fuses, .sec, .flash, .life, .pins, .win, .i3c, .reeve, .counters, .freeCtr]

/-- A command that answers a next state does what is true of that state, its frame given. -/
theorem does_of {i : Instr} {s t : State} {P : State → Prop}
    (hf : ∀ t, exec i s = .next t → Only (writes i) s t) (h : exec i s = .next t) (p : P t) :
    Does i s P := ⟨t, h, p, hf t h⟩

end Sys2Proof.Machine
end

