-- ==== Sys2Proof/Laws/Threads.lean ====
section
/-! SUPPORT. What the engine of the tines does with an instruction it issues: which parts it
leaves alone, and the thread it leaves. -/
namespace Sys2Proof.Machine

/-- What happens before the body of an instruction: samples and counters. -/
def Pre (s u : State) : Prop := { u.tine with samp := s.tine.samp } = s.tine ∧ Only (counting ++ [.tine, .freeCtr]) s u
/-- What a core cycle of a tine does: counters, and the threads' costs. -/
def Cyc (u v : State) : Prop := { v.tine with threads := u.tine.threads, pmc := u.tine.pmc } = u.tine ∧ (∀ h t n, still (threadOf v h t n) = still (threadOf u h t n)) ∧ Only (counting ++ [.tine, .freeCtr]) u v
theorem raise_tine {c : BitVec 16} {a n : Nat} {u : State} : (raise c a n u).tine = u.tine := only_raise (ps := raising) (by decide) (Only.refl u) .tine (by decide)
theorem bump_tine {c : CtrId} {a n : Nat} {u : State} : (bump c a n u).tine = u.tine := only_bump (ps := counting) (by decide) (Only.refl u) .tine (by decide)
theorem Pre.refl (s : State) : Pre s s := ⟨rfl, Only.refl s⟩
theorem only_trans {ps : List Part} {a b c : State} (h : Only ps a b) (h' : Only ps b c) : Only ps a c := by
  intro p hp; have x := h p hp; have y := h' p hp; cases p <;> exact y.trans x
theorem Pre.trans {a b c : State} (h : Pre a b) (h' : Pre b c) : Pre a c := by
  refine ⟨?_, only_trans h.2 h'.2⟩
  have x := h.1; have y := h'.1; rw [← y] at x; exact x
theorem pre_bump {c : CtrId} {a n : Nat} {u : State} : Pre u (bump c a n u) :=
  ⟨by rw [bump_tine], only_bump (by decide) (Only.refl u)⟩
theorem pre_raise {c : BitVec 16} {a n : Nat} {u : State} : Pre u (raise c a n u) :=
  ⟨by rw [raise_tine], only_raise (by decide) (Only.refl u)⟩
theorem pre_modSamp {h : Nat} {f : Samp → Samp} {u : State} : Pre u (modSamp h f u) :=
  ⟨rfl, by unfold modSamp; intro p hp; cases p <;> first | rfl | exact absurd (by decide) hp⟩
theorem pre_drawn {u : State} : Pre u (drawn u) :=
  ⟨rfl, by unfold drawn; intro p hp; cases p <;> first | rfl | exact absurd (by decide) hp⟩
theorem pre_drawCountdown {h t : Nat} {u : State} : Pre u (drawCountdown h t u) := by
  unfold drawCountdown; exact pre_drawn.trans pre_modSamp
theorem pre_sampIssue {h t n op : Nat} {u : State} : Pre u (sampIssue h t n op u).2 := by
  unfold sampIssue; dsimp only
  split
  · exact .refl u
  · split
    · exact pre_modSamp.trans pre_drawCountdown
    · dsimp only; split
      · unfold countdownZero; split
        · exact (pre_modSamp.trans pre_bump).trans pre_drawCountdown
        · exact pre_modSamp.trans pre_modSamp
      · exact pre_modSamp
theorem pre_ite {c : Prop} [Decidable c] {u a b : State} (h : Pre u a) (h' : Pre u b) : Pre u (if c then a else b) := by
  split
  · exact h
  · exact h'
theorem pre_sampFullLook {h : Nat} {u : State} : Pre u (sampFullLook h u) := by
  unfold sampFullLook
  exact pre_ite (pre_modSamp.trans pre_raise) (.refl u)
theorem pre_sampRecord {h t n prog : Nat} {g : Tagged} {a b c d : Bool} {e : Option Nat} {u : State} : Pre u (sampRecord h t n prog g a b c d e u) := by
  unfold sampRecord; dsimp only
  apply pre_ite
  · exact pre_drawn.trans pre_sampFullLook
  · have h2 : ∀ (k : Prop) [Decidable k] (f : Samp → Samp), Pre u (bump cSamples (scHarrow h) 1 (if k then bump cSampleLost (scHarrow h) 1 (modSamp h f (drawn u)) else modSamp h f (drawn u))) := fun k _ f =>
      Pre.trans (pre_ite ((pre_drawn.trans pre_modSamp).trans pre_bump) (pre_drawn.trans pre_modSamp)) pre_bump
    have h3 : ∀ (k : Prop) [Decidable k] (w : State) (c : BitVec 16) (f : Samp → Samp), Pre u w → Pre u (if k then raise c h 0 (modSamp h f w) else w) := fun k _ w c f hw =>
      pre_ite ((hw.trans pre_modSamp).trans pre_raise) hw
    exact (h3 _ _ _ _ (h2 _ _)).trans pre_sampFullLook
theorem Pre.threads {s u : State} (h : Pre s u) (a b c : Nat) : threadOf u a b c = threadOf s a b c := by
  unfold threadOf; rw [← h.1]
theorem Cyc.refl (s : State) : Cyc s s := ⟨rfl, fun _ _ _ => rfl, Only.refl s⟩
theorem Cyc.trans {a b c : State} (h : Cyc a b) (h' : Cyc b c) : Cyc a c := by
  refine ⟨?_, fun x y z => (h'.2.1 x y z).trans (h.2.1 x y z), only_trans h.2.2 h'.2.2⟩
  have x := h.1; have y := h'.1; rw [← y] at x; exact x
theorem cyc_modPmc {h t : Nat} {f : Pmc → Pmc} {u : State} : Cyc u (modPmc h t f u) :=
  ⟨rfl, fun _ _ _ => rfl, by unfold modPmc; intro p hp; cases p <;> first | rfl | exact absurd (by decide) hp⟩
theorem cyc_raise {c : BitVec 16} {a n : Nat} {u : State} : Cyc u (raise c a n u) :=
  ⟨by rw [raise_tine], fun _ _ _ => by unfold threadOf; rw [raise_tine], only_raise (by decide) (Only.refl u)⟩
theorem cyc_ite {c : Prop} [Decidable c] {u a b : State} (h : Cyc u a) (h' : Cyc u b) : Cyc u (if c then a else b) := by
  split
  · exact h
  · exact h'
theorem cyc_pmcWrap {h t : Nat} {m : BitVec 6} {u : State} : Cyc u (pmcWrap h t m u) := by
  unfold pmcWrap; dsimp only
  exact cyc_ite (.refl u) (cyc_ite cyc_modPmc (cyc_modPmc.trans cyc_raise))
theorem cyc_each {f : Nat → State → State} (hf : ∀ i u, Cyc u (f i u)) (L : List Nat) : ∀ u, Cyc u (each f L u) := by
  induction L with
  | nil => intro u; exact .refl u
  | cons a l ih => intro u; exact (hf a u).trans (ih _)
theorem cyc_pmcCycle {h t : Nat} {is : Option (Nat × List Nat)} {u : State} : Cyc u (pmcCycle h t is u) := by
  unfold pmcCycle; dsimp only
  exact cyc_modPmc.trans cyc_pmcWrap
theorem cyc_stall {h t n : Nat} {u : State} : Cyc u (if 0 < (threadOf u h t n).stall then modThread h t n (fun x => { x with stall := x.stall - 1 }) u else u) := by
  refine cyc_ite ⟨rfl, ?_, ?_⟩ (.refl u)
  · intro a b c; unfold modThread putThread threadOf; dsimp only
    rw [tabGet_set]; split
    · rename_i e; rw [e]; rfl
    · rfl
  · unfold modThread putThread; intro p hp; cases p <;> first | rfl | exact absurd (by decide) hp
theorem cyc_issueCycle {h t n : Nat} {L : List Nat} {u : State} : Cyc u (issueCycle h t n L u) := by
  unfold issueCycle tineCycle stallCycle
  exact (cyc_modPmc.trans cyc_pmcCycle).trans (cyc_each (fun _ _ => cyc_stall) _ _)
/-- The memories and queues of the tines agree. -/
def Post (v t : State) : Prop :=
  t.tine.scratch = v.tine.scratch ∧ t.tine.sram = v.tine.sram ∧ t.tine.const_ = v.tine.const_ ∧ t.tine.imem = v.tine.imem ∧
  t.tine.progs = v.tine.progs ∧ t.tine.order = v.tine.order ∧ t.tine.trapQ = v.tine.trapQ ∧ t.tine.faultLog = v.tine.faultLog
theorem Post.trans {a b c : State} (h : Post a b) (h' : Post b c) : Post a c := by
  obtain ⟨a1, a2, a3, a4, a5, a6, a7, a8⟩ := h
  obtain ⟨b1, b2, b3, b4, b5, b6, b7, b8⟩ := h'
  exact ⟨b1.trans a1, b2.trans a2, b3.trans a3, b4.trans a4, b5.trans a5, b6.trans a6, b7.trans a7, b8.trans a8⟩
theorem Pre.post {s u : State} (h : Pre s u) : Post s u := by
  unfold Post; rw [← h.1]; exact ⟨rfl, rfl, rfl, rfl, rfl, rfl, rfl, rfl⟩
theorem Cyc.post {s u : State} (h : Cyc s u) : Post s u := by
  unfold Post; rw [← h.1]; exact ⟨rfl, rfl, rfl, rfl, rfl, rfl, rfl, rfl⟩
/-- As `Cyc`, by what the memories, queues and threads show. -/
def Cyc2 (u v : State) : Prop := Post u v ∧ (∀ h t n, threadOf v h t n = threadOf u h t n) ∧
  Only (counting ++ [.tine, .freeCtr]) u v
theorem Cyc2.refl (u : State) : Cyc2 u u :=
  ⟨⟨rfl, rfl, rfl, rfl, rfl, rfl, rfl, rfl⟩, fun _ _ _ => rfl, Only.refl u⟩
theorem thKey_inj {a b : ThreadId} (h : thKey a.harrow.val a.tine.val a.thread.val = thKey b.harrow.val b.tine.val b.thread.val) : a = b := by
  obtain ⟨⟨a1, h1⟩, ⟨a2, h2⟩, ⟨a3, h3⟩⟩ := a
  obtain ⟨⟨b1, k1⟩, ⟨b2, k2⟩, ⟨b3, k3⟩⟩ := b
  unfold thKey at h; dsimp only at h
  obtain ⟨e1, e2, e3⟩ : a1 = b1 ∧ a2 = b2 ∧ a3 = b3 := by omega
  subst e1 e2 e3; rfl
/-- A thread put back, the others as they were. -/
theorem put_ran {th : ThreadId} {x : Thread} {v : State} :
    threadAt (putThread th.harrow.val th.tine.val th.thread.val x v) th = x ∧
    ∀ o, o ≠ th → threadAt (putThread th.harrow.val th.tine.val th.thread.val x v) o = threadAt v o := by
  unfold threadAt threadOf putThread; dsimp only
  refine ⟨by rw [tabGet_set, if_pos rfl], fun o ho => ?_⟩
  rw [tabGet_set, if_neg (fun h => ho (thKey_inj h))]
theorem post_put {h t n : Nat} {x : Thread} {v : State} : Post v (putThread h t n x v) := ⟨rfl, rfl, rfl, rfl, rfl, rfl, rfl, rfl⟩
/-- A record of a tagged instruction's pass through the tine. -/
theorem pre_record {h t n prog : Nat} {tag : Option Tagged} {a b c d : Bool} {e : Option Nat} {w : State} :
    Pre w (match tag with | some g => sampRecord h t n prog g a b c d e w | none => w) := by
  cases tag
  · exact .refl w
  · exact pre_sampRecord
theorem cyc_noteScratch {k : Nat} {word : Option Nat} {u : State} : Cyc2 u (noteScratch k word u) := by
  unfold noteScratch
  split
  · exact .refl u
  · exact ⟨⟨rfl, rfl, rfl, rfl, rfl, rfl, rfl, rfl⟩, fun _ _ _ => rfl, only_modTine (by decide) (Only.refl u)⟩
/-- The state in which the body of an issued instruction runs. -/
def issueAt (op : Nat) (th : ThreadId) (s : State) : State :=
  bump cInsns (scProgram (threadAt s th).view.prog) 1
    (sampIssue th.harrow.val th.tine.val th.thread.val op s).2
theorem pre_issueAt {op : Nat} {th : ThreadId} {s : State} : Pre s (issueAt op th s) :=
  pre_sampIssue.trans pre_bump
/-- What an issued instruction does with what its body answers. -/
def issueWith (op : Nat) (th : ThreadId) (f : TFields) (s : State) (r : TRes) : State :=
  let h := th.harrow.val
  let t := th.tine.val
  let n := th.thread.val
  let tag := (sampIssue h t n op s).1
  let prog := (threadAt s th).view.prog
  let x := fetched op th f s
  match r with
  | .fault code addr =>
    let w := freeThread h t n (issueCycle h t n [0x02, 0x13]
      (faultPass h t n x code addr (issueAt op th s)))
    match tag with | some g => sampRecord h t n prog g false true false (insnService op) none w | none => w
  | .ok x' v k =>
    let word := scratchWord h op f x
    let w := putThread h t n { x' with stall := (insnCost op f k).1 - 1, stallEvent := (insnCost op f k).2 }
      (issueCycle h t n ((if k then [0x02, 0x0D] else [0x02]) ++
        (if scratchHeld v (h * 16 + t) word then [0x14] else [])) (noteScratch (h * 16 + t) word v))
    match tag with | some g => sampRecord h t n prog g k false false (insnService op) (some (insnCost op f k).1) w | none => w
  | .wait x' v => putThread h t n { x' with tagged := tag } (issueCycle h t n [0x02] v)
  | .stop ev v =>
    let w := freeThread h t n (issueCycle h t n [0x02, ev] v)
    match tag with | some g => sampRecord h t n prog g false false true (insnService op) (some 1) w | none => w
theorem issue_of {op : Nat} {th : ThreadId} {f : TFields} {body : Thread → State → TRes} {s : State} (hI : Issues op th f s) :
    issue op th f body s = issueWith op th f s (body (fetched op th f s) (issueAt op th s)) := by
  obtain ⟨h1, h2, h3, h4, h5, h6, h7, h8⟩ := hI
  unfold issueWith fetched issueAt threadAt
  unfold threadAt at h1 h6 h7
  unfold issue; dsimp only
  rw [h6, show (insnWord op f == insnWord op f) = true from beq_self_eq_true _, h1, h2, h3, h4, h5]
  simp only [if_true, Bool.and_self, Bool.not_true, Bool.or_self, Bool.false_and, Bool.false_eq_true, if_false]
  rw [if_neg (by omega), h8]
  simp only [Bool.and_self, Bool.not_true, Bool.false_eq_true, if_false]
  all_goals
    generalize body _ _ = r
    cases r with
    | fault c a => dsimp only; cases (sampIssue th.harrow.val th.tine.val th.thread.val op s).1 <;> rfl
    | ok x v k => dsimp only; cases (sampIssue th.harrow.val th.tine.val th.thread.val op s).1 <;> rfl
    | wait x v => rfl
    | stop e v => dsimp only; cases (sampIssue th.harrow.val th.tine.val th.thread.val op s).1 <;> rfl
/-- A thread put back after its instruction, and its record. -/
theorem ends_put {th : ThreadId} {L : List Nat} {tag : Option Tagged} {prog k co : Nat} {a d : Bool}
    {word : Option Nat} {y x' : Thread} {s u v z : State} (hy : still y = still x')
    (hv : v.tine.threads = u.tine.threads) (ht : ∀ a b c, threadOf u a b c = threadOf s a b c)
    (hk : z = (match tag with
      | some g => sampRecord th.harrow.val th.tine.val th.thread.val prog g a false false d (some co)
          (putThread th.harrow.val th.tine.val th.thread.val y
            (issueCycle th.harrow.val th.tine.val th.thread.val L (noteScratch k word v)))
      | none => putThread th.harrow.val th.tine.val th.thread.val y
          (issueCycle th.harrow.val th.tine.val th.thread.val L (noteScratch k word v)))) :
    still (threadAt z th) = still x' ∧
    (∀ o, o ≠ th → still (threadAt z o) = still (threadAt s o)) ∧
    Post v z ∧ Only (counting ++ [.tine, .freeCtr]) v z := by
  have no := cyc_noteScratch (k := k) (word := word) (u := v)
  have cy := cyc_issueCycle (h := th.harrow.val) (t := th.tine.val) (n := th.thread.val) (L := L)
    (u := noteScratch k word v)
  have q : Pre (putThread th.harrow.val th.tine.val th.thread.val y
      (issueCycle th.harrow.val th.tine.val th.thread.val L (noteScratch k word v))) z := by
    rw [hk]; cases tag
    · exact .refl _
    · exact pre_sampRecord
  have qt := q.threads
  clear hk
  generalize issueCycle th.harrow.val th.tine.val th.thread.val L (noteScratch k word v) = w at cy q qt
  have hz : ∀ o, threadAt z o = threadAt (putThread th.harrow.val th.tine.val th.thread.val y w) o := by
    intro o; unfold threadAt; rw [qt]
  refine ⟨?_, ?_, (no.1.trans (cy.post.trans post_put)).trans q.post, ?_⟩
  · rw [hz, put_ran.1, hy]
  · intro o ho
    rw [hz, put_ran.2 o ho]
    unfold threadAt; rw [cy.2.1, no.2.1]
    unfold threadOf; rw [hv]; exact congrArg still (ht _ _ _)
  · exact only_trans (only_trans (only_trans no.2.2 cy.2.2) (only_putThread (by decide) (Only.refl _))) q.2
theorem with_ends {op : Nat} {th : ThreadId} {f : TFields} {x' : Thread} {k : Bool} {s u v : State}
    (hv : v.tine.threads = u.tine.threads) (ht : ∀ a b c, threadOf u a b c = threadOf s a b c) :
    still (threadAt (issueWith op th f s (.ok x' v k)) th) = still x' ∧
    (∀ o, o ≠ th → still (threadAt (issueWith op th f s (.ok x' v k)) o) = still (threadAt s o)) ∧
    Post v (issueWith op th f s (.ok x' v k)) ∧
    Only (counting ++ [.tine, .freeCtr]) v (issueWith op th f s (.ok x' v k)) :=
  ends_put (tag := (sampIssue th.harrow.val th.tine.val th.thread.val op s).1) (word := scratchWord th.harrow.val op f (fetched op th f s))
    (k := th.harrow.val * 16 + th.tine.val)
    (y := { x' with stall := (insnCost op f k).1 - 1, stallEvent := (insnCost op f k).2 }) rfl hv ht rfl
/-- What a thread's instruction leaves once it is issued. -/
theorem issue_ends {op : Nat} {th : ThreadId} {f : TFields} {body : Thread → State → TRes} {s : State} (hI : Issues op th f s) :
    ∃ u, Pre s u ∧
    (∀ x' v k, body (fetched op th f s) u = .ok x' v k → v.tine.threads = u.tine.threads →
      still (threadAt (issue op th f body s) th) = still x' ∧
      (∀ o, o ≠ th → still (threadAt (issue op th f body s) o) = still (threadAt s o)) ∧
      Post v (issue op th f body s) ∧ Only (counting ++ [.tine, .freeCtr]) v (issue op th f body s)) ∧
    (∀ x' v, body (fetched op th f s) u = .wait x' v → v.tine.threads = u.tine.threads →
      still (threadAt (issue op th f body s) th) = still x' ∧
      (∀ o, o ≠ th → still (threadAt (issue op th f body s) o) = still (threadAt s o)) ∧
      Post v (issue op th f body s) ∧ Only (counting ++ [.tine, .freeCtr]) v (issue op th f body s)) := by
  have hp := pre_issueAt (op := op) (th := th) (s := s)
  have ht := hp.threads
  rw [issue_of hI]
  refine ⟨issueAt op th s, hp, ?_, ?_⟩
  · intro x' v k hb hv
    rw [hb]
    exact with_ends hv ht
  · intro x' v hb hv
    rw [hb]
    have cy := cyc_issueCycle (h := th.harrow.val) (t := th.tine.val) (n := th.thread.val) (L := [0x02]) (u := v)
    refine ⟨(congrArg still (put_ran (th := th)).1).trans rfl, ?_, cy.post.trans post_put, only_trans cy.2.2 (only_putThread (by decide) (Only.refl _))⟩
    intro o ho
    refine (congrArg still ((put_ran (th := th)).2 o ho)).trans ?_
    unfold threadAt; rw [cy.2.1]
    unfold threadOf; rw [hv]; exact congrArg still (ht _ _ _)
theorem gateHarrow_facts {h : Nat} {v : State} : Post v (gateHarrow h v) ∧ (gateHarrow h v).tine.threads = v.tine.threads ∧ Only [.tine, .pwr] v (gateHarrow h v) := by
  refine ⟨?_, ?_, only_gateHarrow (by decide) (Only.refl v)⟩
  · unfold gateHarrow; split <;> exact ⟨rfl, rfl, rfl, rfl, rfl, rfl, rfl, rfl⟩
  · unfold gateHarrow; split <;> rfl
theorem freeThread_facts {th : ThreadId} {v : State} :
    threadAt (freeThread th.harrow.val th.tine.val th.thread.val v) th = { priv := (threadAt v th).priv } ∧
    (∀ o, o ≠ th → threadAt (freeThread th.harrow.val th.tine.val th.thread.val v) o = threadAt v o) ∧
    Post v (freeThread th.harrow.val th.tine.val th.thread.val v) := by
  unfold freeThread modThread
  refine ⟨?_, fun o ho => ?_, post_put.trans gateHarrow_facts.1⟩
  · unfold threadAt threadOf; rw [gateHarrow_facts.2.1]
    exact (put_ran (th := th)).1
  · unfold threadAt threadOf; rw [gateHarrow_facts.2.1]
    exact (put_ran (th := th)).2 o ho
theorem still_priv {x : Thread} : (still x).priv = x.priv := rfl
theorem still_free {b : Tab (BitVec 8)} : still { priv := b } = { priv := b } := rfl
/-- The end of a pass, from the state its last instruction leaves. -/
theorem ends_pass {th : ThreadId} {L : List Nat} {tag : Option Tagged} {prog : Nat} {a b c d : Bool} {co : Option Nat} {s v z : State}
    (hv : v.tine.threads = s.tine.threads)
    (hk : z = (match tag with | some g => sampRecord th.harrow.val th.tine.val th.thread.val prog g a b c d co (freeThread th.harrow.val th.tine.val th.thread.val (issueCycle th.harrow.val th.tine.val th.thread.val L v)) | none => freeThread th.harrow.val th.tine.val th.thread.val (issueCycle th.harrow.val th.tine.val th.thread.val L v))) :
    still (threadAt z th) = { priv := (threadAt s th).priv } ∧
    (∀ o, o ≠ th → still (threadAt z o) = still (threadAt s o)) ∧
    Post v z ∧ Only (counting ++ [.tine, .freeCtr, .pwr]) v z := by
  have q : Pre (freeThread th.harrow.val th.tine.val th.thread.val (issueCycle th.harrow.val th.tine.val th.thread.val L v)) z := by
    rw [hk]; cases tag
    · exact .refl _
    · exact pre_sampRecord
  have qt := q.threads
  have cy := cyc_issueCycle (h := th.harrow.val) (t := th.tine.val) (n := th.thread.val) (L := L) (u := v)
  have hp : ∀ o, threadAt v o = threadAt s o := by intro o; unfold threadAt threadOf; rw [hv]
  have hz : ∀ o, threadAt z o = threadAt (freeThread th.harrow.val th.tine.val th.thread.val (issueCycle th.harrow.val th.tine.val th.thread.val L v)) o := by
    intro o; unfold threadAt; rw [qt]
  refine ⟨?_, ?_, (cy.post.trans freeThread_facts.2.2).trans q.post, ?_⟩
  · rw [hz, freeThread_facts.1]
    have := congrArg Thread.priv (cy.2.1 th.harrow.val th.tine.val th.thread.val)
    rw [still_priv, still_priv] at this
    unfold threadAt at hp ⊢
    rw [this, hp]; exact still_free
  · intro o ho
    rw [hz, freeThread_facts.2.1 o ho]
    exact (show still (threadAt (issueCycle th.harrow.val th.tine.val th.thread.val L v) o) = still (threadAt v o) by unfold threadAt; exact cy.2.1 _ _ _).trans (congrArg still (hp o))
  · refine only_trans (only_trans (cy.2.2.mono (by decide)) ?_) (q.2.mono (by decide))
    exact only_freeThread (by decide) (Only.refl _)
theorem issue_stops {op : Nat} {th : ThreadId} {f : TFields} {body : Thread → State → TRes} {s : State} (hI : Issues op th f s) :
    ∃ u, Pre s u ∧
    (∀ ev v, body (fetched op th f s) u = .stop ev v → v.tine.threads = u.tine.threads →
      still (threadAt (issue op th f body s) th) = { priv := (threadAt s th).priv } ∧
      (∀ o, o ≠ th → still (threadAt (issue op th f body s) o) = still (threadAt s o)) ∧
      Post v (issue op th f body s) ∧ Only (counting ++ [.tine, .freeCtr, .pwr]) v (issue op th f body s)) := by
  have hp := pre_issueAt (op := op) (th := th) (s := s)
  refine ⟨_, hp, fun ev v hb hv => ?_⟩
  have ht : v.tine.threads = s.tine.threads := by rw [hv, ← hp.1]
  refine ends_pass (L := [0x02, ev]) (tag := (sampIssue th.harrow.val th.tine.val th.thread.val op s).1) (prog := (threadAt s th).view.prog) (a := false) (b := false) (c := true) (d := insnService op) (co := some 1) ht ?_
  rw [issue_of hI, hb]; rfl
/-- Only the order of the tine's packets changes. -/
def Ord (u v : State) : Prop := { v.tine with order := u.tine.order } = u.tine
theorem Ord.refl (u : State) : Ord u u := rfl
theorem Ord.trans {a b c : State} (h : Ord a b) (h' : Ord b c) : Ord a c := by
  unfold Ord at *; rw [← h'] at h; exact h
theorem ord_of_same {u v : State} (h : v.tine = u.tine) : Ord u v := by unfold Ord; rw [h]
theorem tine_linkEmitted {e : Emitted} {u : State} : (linkEmitted e u).tine = u.tine := only_linkEmitted (ps := [.us, .sup, .qos, .cls, .pwr, .life, .win, .i3c, .reeve, .counters, .freeCtr]) (by decide) (Only.refl u) .tine (by decide)
theorem tine_freeBushels {n : Nat} {u : State} : (freeBushels n u).tine = u.tine := only_freeBushels (ps := [.qos, .pwr, .freeCtr]) (by decide) (Only.refl u) .tine (by decide)
theorem tine_genLeave {g : BitVec 8} {u : State} : (genLeave g u).tine = u.tine := only_genLeave (ps := [.sup, .cls, .life, .win, .i3c, .reeve, .counters]) (by decide) (Only.refl u) .tine (by decide)
theorem ord_orderLook {u : State} : Ord u (orderLook u) := by
  have : ∀ (n : Nat) (u : State), Ord u (orderRun n u) := by
    intro n; induction n with
    | zero => intro u; exact .refl u
    | succ n ih =>
      intro u; unfold orderRun; split
      · exact .refl u
      · refine Ord.trans ?_ (ih _)
        unfold Ord; rw [tine_linkEmitted]
  exact this _ u
theorem ord_orderLeave {id : Nat} {u : State} : Ord u (orderLeave id u) := by
  unfold orderLeave; exact Ord.trans (b := { u with tine := { u.tine with order := u.tine.order.filter (fun o => o.id != id) } }) rfl ord_orderLook
theorem ord_discardPkt {p : Pkt} {u : State} : Ord u (discardPkt p u) := by
  unfold discardPkt; exact ((ord_of_same tine_freeBushels).trans (ord_of_same tine_genLeave)).trans ord_orderLeave
theorem faultPass_facts {h t n : Nat} {x : Thread} {code : Nat} {addr : Option Nat} {u : State} (hc : code < 256) :
    (faultPass h t n x code addr u).tine.threads = u.tine.threads ∧
    (faultPass h t n x code addr u).tine.scratch = u.tine.scratch ∧
    (faultPass h t n x code addr u).tine.sram = u.tine.sram ∧
    (faultPass h t n x code addr u).tine.const_ = u.tine.const_ ∧
    (faultPass h t n x code addr u).tine.imem = u.tine.imem ∧
    ∃ r, (faultPass h t n x code addr u).tine.faultLog.getLast? = some r ∧ byteAt r 12 = BitVec.ofNat 8 code := by
  have hl : (logFault h t n x code addr u).tine.threads = u.tine.threads ∧ (logFault h t n x code addr u).tine.scratch = u.tine.scratch ∧
      (logFault h t n x code addr u).tine.sram = u.tine.sram ∧ (logFault h t n x code addr u).tine.const_ = u.tine.const_ ∧
      (logFault h t n x code addr u).tine.imem = u.tine.imem ∧
      ∃ r, (logFault h t n x code addr u).tine.faultLog.getLast? = some r ∧ byteAt r 12 = BitVec.ofNat 8 code := by
    have hd : (if addr.isSome = true then u else drawn u).tine = u.tine := by split <;> rfl
    unfold logFault; dsimp only
    generalize (if addr.isSome = true then u else drawn u) = w at hd ⊢
    rw [← hd]
    split
    · rw [bump_tine]
      refine ⟨rfl, rfl, rfl, rfl, rfl, ?_⟩
      unfold modTine; dsimp only
      refine ⟨_, List.getLast?_concat, ?_⟩
      simp [natBytes, byteAt]
    · refine ⟨rfl, rfl, rfl, rfl, rfl, ?_⟩
      unfold modTine; dsimp only
      refine ⟨_, List.getLast?_concat, ?_⟩
      simp [natBytes, byteAt]
  have he : ∀ (p : Nat) (v : State), (faultEvent p code v).tine.threads = v.tine.threads ∧ (faultEvent p code v).tine.scratch = v.tine.scratch ∧ (faultEvent p code v).tine.sram = v.tine.sram ∧ (faultEvent p code v).tine.const_ = v.tine.const_ ∧ (faultEvent p code v).tine.imem = v.tine.imem ∧ (faultEvent p code v).tine.faultLog = v.tine.faultLog := by
    intro p v; unfold faultEvent; dsimp only; split <;> split <;> (try rw [raise_tine]) <;> exact ⟨rfl, rfl, rfl, rfl, rfl, rfl⟩
  have hm : ∀ (c : Bool) (p : Nat) (v : State), (if c then modProg p (fun d => { d with disabled := true }) v else v).tine.threads = v.tine.threads ∧ (if c then modProg p (fun d => { d with disabled := true }) v else v).tine.scratch = v.tine.scratch ∧ (if c then modProg p (fun d => { d with disabled := true }) v else v).tine.sram = v.tine.sram ∧ (if c then modProg p (fun d => { d with disabled := true }) v else v).tine.const_ = v.tine.const_ ∧ (if c then modProg p (fun d => { d with disabled := true }) v else v).tine.imem = v.tine.imem ∧ (if c then modProg p (fun d => { d with disabled := true }) v else v).tine.faultLog = v.tine.faultLog := by
    intro c p v; split <;> exact ⟨rfl, rfl, rfl, rfl, rfl, rfl⟩
  have hk : ∃ w, w.tine.threads = u.tine.threads ∧ w.tine.scratch = u.tine.scratch ∧ w.tine.sram = u.tine.sram ∧ w.tine.const_ = u.tine.const_ ∧ w.tine.imem = u.tine.imem ∧ w.tine.faultLog = (logFault h t n x code addr u).tine.faultLog ∧ Ord w (faultPass h t n x code addr u) := by
    obtain ⟨a1, a2, a3, a4, a5, a6⟩ := hl
    let w1 := bump cFaults (scProgram x.view.prog) 1 (logFault h t n x code addr u)
    obtain ⟨b1, b2, b3, b4, b5, b6⟩ := hm x.view.faultDisable x.view.prog w1
    obtain ⟨c1, c2, c3, c4, c5, c6⟩ := he x.view.prog (if x.view.faultDisable then modProg x.view.prog (fun d => { d with disabled := true }) w1 else w1)
    refine ⟨faultEvent x.view.prog code (if x.view.faultDisable then modProg x.view.prog (fun d => { d with disabled := true }) w1 else w1), ?_, ?_, ?_, ?_, ?_, ?_, ?_⟩
    · rw [c1, b1, bump_tine, a1]
    · rw [c2, b2, bump_tine, a2]
    · rw [c3, b3, bump_tine, a3]
    · rw [c4, b4, bump_tine, a4]
    · rw [c5, b5, bump_tine, a5]
    · rw [c6, b6, bump_tine]
    · unfold faultPass; dsimp only
      cases x.walked with
      | none => exact .refl _
      | some w => exact ord_discardPkt
  obtain ⟨w, w1, w2, w3, w4, w5, w6, w7⟩ := hk
  have q : ∀ {β : Type} (g : Tine → β), (∀ (z : Tine) (o : List OrderEnt), g { z with order := o } = g z) → g (faultPass h t n x code addr u).tine = g w.tine := by
    intro β g hg; exact (hg _ _).symm.trans (congrArg g w7)
  refine ⟨(q (·.threads) fun _ _ => rfl).trans w1, (q (·.scratch) fun _ _ => rfl).trans w2, (q (·.sram) fun _ _ => rfl).trans w3, (q (·.const_) fun _ _ => rfl).trans w4, (q (·.imem) fun _ _ => rfl).trans w5, ?_⟩
  rw [q (·.faultLog) fun _ _ => rfl, w6]; exact hl.2.2.2.2.2

theorem fault_ends {th : ThreadId} {x : Thread} {code : Nat} {addr : Option Nat} {s u z : State} {tag : Option Tagged} {b d : Bool} (hc : code < 256) (hp : Pre s u)
    (hk : z = (match tag with | some g => sampRecord th.harrow.val th.tine.val th.thread.val (threadAt s th).view.prog g false true false d none (freeThread th.harrow.val th.tine.val th.thread.val (issueCycle th.harrow.val th.tine.val th.thread.val [0x02, 0x13] (faultPass th.harrow.val th.tine.val th.thread.val x code addr u))) | none => (freeThread th.harrow.val th.tine.val th.thread.val (issueCycle th.harrow.val th.tine.val th.thread.val [0x02, 0x13] (faultPass th.harrow.val th.tine.val th.thread.val x code addr u))))) : Faulted th code s z := by
  obtain ⟨f1, f2, f3, f4, f5, f6⟩ := faultPass_facts (h := th.harrow.val) (t := th.tine.val) (n := th.thread.val) (x := x) (addr := addr) (u := u) hc
  have hs : ∀ {β : Type} (g : Tine → β), (∀ (z : Tine) (o : Tab Samp), g { z with samp := o } = g z) → g u.tine = g s.tine := fun g hg => (hg _ _).symm.trans (congrArg g hp.1)
  obtain ⟨e1, e2, e3, e4⟩ := ends_pass (v := faultPass th.harrow.val th.tine.val th.thread.val x code addr u) (s := s) (f1.trans (hs (·.threads) fun _ _ => rfl)) hk
  obtain ⟨p1, p2, p3, p4, p5, p6, p7, p8⟩ := e3
  refine ⟨⟨e1.trans still_free.symm, e2, (p1.trans f2).trans (hs (·.scratch) fun _ _ => rfl), (p2.trans f3).trans (hs (·.sram) fun _ _ => rfl), (p3.trans f4).trans (hs (·.const_) fun _ _ => rfl), (p4.trans f5).trans (hs (·.imem) fun _ _ => rfl)⟩, ?_⟩
  rw [p8]; exact f6
/-- A fault of the instruction itself. -/
theorem issue_faults {op : Nat} {th : ThreadId} {f : TFields} {body : Thread → State → TRes} {s : State} {code : Nat} {addr : State → Option Nat} (hc : code < 256)
    (hb : ∀ u, Pre s u → body (fetched op th f s) u = .fault code (addr u)) (hI : Issues op th f s) : Faulted th code s (issue op th f body s) := by
  have hp := pre_issueAt (op := op) (th := th) (s := s)
  refine fault_ends (b := false) (d := insnService op) (tag := (sampIssue th.harrow.val th.tine.val th.thread.val op s).1) (addr := addr (issueAt op th s)) (x := fetched op th f s) hc hp ?_
  rw [issue_of hI, hb _ hp]; rfl
/-- LIMIT, ILLEGAL. -/
theorem issue_refused {op : Nat} {th : ThreadId} {f : TFields} {body : Thread → State → TRes} {s : State} {code : Nat}
    (h1 : threadReady (threadAt s th) = true) (h2 : inTurn s th.harrow.val th.tine.val th.thread.val = true) (h3 : harrowOn s th.harrow.val = true) (h4 : coreRuns s = true)
    (h5 : s.sec.tinesHalted.getLsbD (th.harrow.val * 16 + th.tine.val) = false)
    (hw : fetchedWord s (threadAt s th) = insnWord op f ∨
      insnDefined (wordOp (fetchedWord s (threadAt s th))) (insnFields (fetchedWord s (threadAt s th))) = false)
    (h : (threadAt s th).view.limit ≤ (threadAt s th).insns ∧ code = 0x09 ∨ (threadAt s th).insns < (threadAt s th).view.limit ∧
      (fetchedWord s (threadAt s th) = insnWord op f → insnDefined op f = false) ∧ code = 0x01) :
    Faulted th code s (issue op th f body s) := by
  unfold threadAt at h1 hw h
  have key : ∀ o, Faulted th code s (match (sampIssue th.harrow.val th.tine.val th.thread.val o s).1 with
      | some g => sampRecord th.harrow.val th.tine.val th.thread.val (threadAt s th).view.prog g false true false (insnService o) none (freeThread th.harrow.val th.tine.val th.thread.val (issueCycle th.harrow.val th.tine.val th.thread.val [0x02, 0x13] (faultPass th.harrow.val th.tine.val th.thread.val
        { threadAt s th with insns := (threadAt s th).insns + 1, word := fetchedWord s (threadAt s th), stall := 0, stallEvent := 0 } code none (issueAt o th s))))
      | none => freeThread th.harrow.val th.tine.val th.thread.val (issueCycle th.harrow.val th.tine.val th.thread.val [0x02, 0x13] (faultPass th.harrow.val th.tine.val th.thread.val
        { threadAt s th with insns := (threadAt s th).insns + 1, word := fetchedWord s (threadAt s th), stall := 0, stallEvent := 0 } code none (issueAt o th s)))) := fun o =>
    fault_ends (b := false) (d := insnService o) (tag := (sampIssue th.harrow.val th.tine.val th.thread.val o s).1) (addr := none) (by rcases h with h | h <;> omega) pre_issueAt rfl
  unfold issue; dsimp only
  rw [if_neg (by
    simp only [h1, h2, h3, h4, h5, Bool.and_self, Bool.not_true, Bool.false_or, Bool.and_eq_true, Bool.not_eq_true', beq_eq_false_iff_ne, not_and, Bool.not_eq_true]
    intro hn; exact hw.resolve_left hn)]
  rcases h with ⟨h, rfl⟩ | ⟨h, h', rfl⟩
  · rw [if_pos h]
    exact key _
  · rw [if_neg (by omega), if_pos (by
      simp only [Bool.not_eq_true', Bool.and_eq_false_iff]
      by_cases e : fetchedWord s (threadOf s th.harrow.val th.tine.val th.thread.val) = insnWord op f
      · exact .inr (h' e)
      · exact .inl (by simpa using e))]
    exact key _
/-- An instruction that completes, or waits, and keeps the rest. -/
theorem issue_ran {ps : List Part} {op : Nat} {th : ThreadId} {f : TFields} {body : Thread → State → TRes} {s : State} {x' : Thread} {scr sram : Tab (BitVec 8)} (hI : Issues op th f s)
    (hb : ∀ u, Pre s u → ∃ x v k, still x = still x' ∧ (body (fetched op th f s) u = .ok x v k ∨ body (fetched op th f s) u = .wait x v) ∧ v.tine.scratch = scr ∧ v.tine.sram = sram ∧ { v.tine with scratch := u.tine.scratch, sram := u.tine.sram } = u.tine ∧ Only (counting ++ [.tine, .freeCtr] ++ ps) u v) :
    RanIn ps th x' scr sram s (issue op th f body s) := by
  obtain ⟨u, hp, h1, h2⟩ := issue_ends (body := body) hI
  obtain ⟨x, v, k, hx, hk, v1, v2, v3, v4⟩ := hb u hp
  have hv : ∀ {β : Type} (g : Tine → β), (∀ (z : Tine) (a b : Tab (BitVec 8)), g { z with scratch := a, sram := b } = g z) → g v.tine = g u.tine := fun g hg => (hg _ _ _).symm.trans (congrArg g v3)
  have hs : ∀ {β : Type} (g : Tine → β), (∀ (z : Tine) (o : Tab Samp), g { z with samp := o } = g z) → g u.tine = g s.tine := fun g hg => (hg _ _).symm.trans (congrArg g hp.1)
  have key : still (threadAt (issue op th f body s) th) = still x ∧
      (∀ o, o ≠ th → still (threadAt (issue op th f body s) o) = still (threadAt s o)) ∧
      Post v (issue op th f body s) ∧ Only (counting ++ [.tine, .freeCtr]) v (issue op th f body s) := by
    rcases hk with hk | hk
    · exact h1 _ _ _ hk (hv (·.threads) fun _ _ _ => rfl)
    · exact h2 _ _ hk (hv (·.threads) fun _ _ _ => rfl)
  obtain ⟨k1, k2, ⟨p1, p2, p3, p4, p5, p6, p7, p8⟩, k4⟩ := key
  refine ⟨⟨k1.trans hx, k2, p1.trans v1, p2.trans v2, (p3.trans (hv (·.const_) fun _ _ _ => rfl)).trans (hs (·.const_) fun _ _ => rfl), (p4.trans (hv (·.imem) fun _ _ _ => rfl)).trans (hs (·.imem) fun _ _ => rfl)⟩,
    (p5.trans (hv (·.progs) fun _ _ _ => rfl)).trans (hs (·.progs) fun _ _ => rfl), (p6.trans (hv (·.order) fun _ _ _ => rfl)).trans (hs (·.order) fun _ _ => rfl), (p7.trans (hv (·.trapQ) fun _ _ _ => rfl)).trans (hs (·.trapQ) fun _ _ => rfl), (p8.trans (hv (·.faultLog) fun _ _ _ => rfl)).trans (hs (·.faultLog) fun _ _ => rfl), ?_⟩
  exact only_trans (only_trans (hp.2.mono (fun p h => List.mem_append_left _ h)) v4) (k4.mono (fun p h => List.mem_append_left _ h))
/-- An instruction that changes its thread alone. -/
theorem issue_runs {op : Nat} {th : ThreadId} {f : TFields} {body : Thread → State → TRes} {s : State} {x' : Thread} (hI : Issues op th f s)
    (hb : ∀ u, Pre s u → ∃ x k, still x = still x' ∧ (body (fetched op th f s) u = .ok x u k ∨ body (fetched op th f s) u = .wait x u)) :
    Runs th x' s (issue op th f body s) := by
  refine issue_ran hI (fun u hu => ?_)
  obtain ⟨x, k, h1, h2⟩ := hb u hu
  exact ⟨x, u, k, h1, h2, hu.post.1, hu.post.2.1, rfl, Only.refl u⟩

theorem only_modTine_tine {f : Tine → Tine} {u : State} : Only (counting ++ [.tine, .freeCtr]) u (modTine f u) := by
  unfold modTine; intro p hp; cases p <;> first | rfl | exact absurd (by decide) hp
theorem Pre.same {s u : State} (h : Pre s u) : u.settings = s.settings ∧ u.clk = s.clk ∧ u.qos = s.qos ∧ u.cls = s.cls ∧ u.cry = s.cry :=
  ⟨h.2 .settings (by decide), h.2 .clk (by decide), h.2 .qos (by decide), h.2 .cls (by decide), h.2 .cry (by decide)⟩
theorem issue_ran2 {ps : List Part} {op : Nat} {th : ThreadId} {f : TFields} {body : Thread → State → TRes} {s : State} {x' : Thread} {scr sram : Tab (BitVec 8)} {P : State → Prop} (hI : Issues op th f s)
    (hb : ∀ u, Pre s u → ∃ x v k, still x = still x' ∧ (body (fetched op th f s) u = .ok x v k ∨ body (fetched op th f s) u = .wait x v) ∧ v.tine.scratch = scr ∧ v.tine.sram = sram ∧ { v.tine with scratch := u.tine.scratch, sram := u.tine.sram } = u.tine ∧ Only (counting ++ [.tine, .freeCtr] ++ ps) u v ∧ ∀ t, Only (counting ++ [.tine, .freeCtr]) v t → P t) :
    RanIn ps th x' scr sram s (issue op th f body s) ∧ P (issue op th f body s) := by
  refine ⟨issue_ran hI fun u hu => ?_, ?_⟩
  · obtain ⟨x, v, k, a, b, c, d, e, g, _⟩ := hb u hu
    exact ⟨x, v, k, a, b, c, d, e, g⟩
  · obtain ⟨u, hp, h1, h2⟩ := issue_ends (body := body) hI
    obtain ⟨x, v, k, a, b, c, d, e, g, hP⟩ := hb u hp
    have ht : v.tine.threads = u.tine.threads := by rw [← e]
    rcases b with b | b
    · exact hP _ (h1 _ _ _ b ht).2.2.2
    · exact hP _ (h2 _ _ b ht).2.2.2
theorem regionArgs_code {f : TFields} {x : Thread} {e : Nat × Nat} (h : regionArgs f x = .error e) : e.1 < 256 := by
  unfold regionArgs at h; dsimp only at h
  split at h
  · injection h with h; subst h; show (5:Nat) < 256; omega
  · split at h
    · injection h with h; subst h; show (11:Nat) < 256; omega
    · exact absurd h (by simp)
theorem tern_congr {s u : State} {g : BitVec 8} {k : Bytes} (h : u.cls = s.cls) : (ternLookup g k u).1 = (ternLookup g k s).1 := by
  unfold ternLookup; dsimp only
  have : ∀ w : State, (bump cTernLookups scDevice 1 w).cls = w.cls := fun w => bump_cls
  unfold ternFind genOf
  rw [h]
  split <;> rfl
theorem tine_ternLookup {g : BitVec 8} {k : Bytes} {u : State} : (ternLookup g k u).2.tine = u.tine := only_ternLookup (ps := [.sup, .life, .win, .i3c, .reeve, .counters]) (by decide) (Only.refl u) .tine (by decide)
theorem cls_ternLookup {g : BitVec 8} {k : Bytes} {u : State} : (ternLookup g k u).2.cls = u.cls := only_ternLookup (ps := [.sup, .life, .win, .i3c, .reeve, .counters]) (by decide) (Only.refl u) .cls (by decide)
theorem meterOp_congr {s u : State} {m c n : Nat} (h1 : u.settings = s.settings) (h2 : u.clk = s.clk) (h3 : u.qos = s.qos) :
    (meterOp m c n u).1 = (meterOp m c n s).1 ∧ (meterOp m c n u).2.qos = (meterOp m c n s).2.qos := by
  have hs : ∀ (p : SSpec) (a b : Nat), setting u p a b = setting s p a b := by intro p a b; unfold setting; rw [h1]
  have hn : ∀ (p : SSpec) (a b : Nat), settingN u p a b = settingN s p a b := by intro p a b; unfold settingN; rw [hs]
  have hq : ∀ (c : CtrId) (a n : Nat) (u : State), (bump c a n u).qos = u.qos := fun c a n u => (bump_keeps c a n u).2.2.2.2.1
  unfold meterOp
  simp only [hs, hn, h3, show now u = now s from by unfold now; rw [h2]]
  repeat' split
  all_goals first
    | exact ⟨rfl, h3⟩
    | exact ⟨rfl, by dsimp only; rw [hq, hq]; unfold putMeter; dsimp only; rw [h3]⟩
theorem meterColour_congr {s u : State} {m : Nat} {p : Pkt} {b : Bytes} {c : Nat} (h1 : u.settings = s.settings) : meterColour u m p b c = meterColour s m p b c := by
  have hs : ∀ (p : SSpec) (a b : Nat), setting u p a b = setting s p a b := by intro p a b; unfold setting; rw [h1]
  have hn : ∀ (p : SSpec) (a b : Nat), settingN u p a b = settingN s p a b := by intro p a b; unfold settingN; rw [hs]
  have hf : ∀ (a : Nat) (b : Bytes), frameTags u a b = frameTags s a b := by intro a b; unfold frameTags; simp only [hn]
  unfold meterColour mapColour outerTag afterTags
  simp only [hn, hf]
theorem meterPacket_congr {s u : State} {m : Nat} {p : Pkt} {b : Bytes} {c n : Nat} (h1 : u.settings = s.settings) (h2 : u.clk = s.clk) (h3 : u.qos = s.qos) :
    (meterPacket m p b c n u).1 = (meterPacket m p b c n s).1 ∧ (meterPacket m p b c n u).2.qos = (meterPacket m p b c n s).2.qos := by
  unfold meterPacket
  have := meterOp_congr (m := m) (c := meterColour s m p b c) (n := n) h1 h2 h3
  rw [meterColour_congr h1]
  generalize meterOp m (meterColour s m p b c) n u = x at this ⊢
  generalize meterOp m (meterColour s m p b c) n s = y at this ⊢
  obtain ⟨x1, x2⟩ := x; obtain ⟨y1, y2⟩ := y
  dsimp only at this
  obtain ⟨rfl, e⟩ := this
  cases x1 <;> exact ⟨rfl, e⟩
theorem tine_meterPacket {m : Nat} {p : Pkt} {b : Bytes} {c n : Nat} {u : State} : Only ([.sup, .qos, .life, .win, .i3c, .reeve, .counters]) u (meterPacket m p b c n u).2 := only_meterPacket (by decide) (Only.refl u)
/-- A start keeps the numbers of the operations and every slot. -/
theorem startOp_ids {o : CryOp} {s : State} :
    (startOp o s).cry.ops.map CryOp.id = s.cry.ops.map CryOp.id ∧ (startOp o s).cry.slots = s.cry.slots := by
  unfold startOp
  split
  · exact ⟨rfl, rfl⟩
  · split
    · exact ⟨rfl, rfl⟩
    · refine ⟨?_, rfl⟩
      unfold maskDraw; dsimp only
      rw [List.map_map]
      refine List.map_congr_left fun p _ => ?_
      dsimp only [Function.comp]; split
      · rename_i h; exact (beq_iff_eq.1 h).symm
      · rfl
theorem startOps_ids {s : State} :
    (startOps s).cry.ops.map CryOp.id = s.cry.ops.map CryOp.id ∧ (startOps s).cry.slots = s.cry.slots := by
  unfold startOps
  have h : ∀ (L : List Nat) (u : State),
      (each (fun c s => match nextOp s c with | some o => startOp o s | none => s) L u).cry.ops.map CryOp.id = u.cry.ops.map CryOp.id ∧
      (each (fun c s => match nextOp s c with | some o => startOp o s | none => s) L u).cry.slots = u.cry.slots := by
    intro L; induction L with
    | nil => intro u; exact ⟨rfl, rfl⟩
    | cons a l ih =>
      intro u
      obtain ⟨i1, i2⟩ := ih (match nextOp u a with | some o => startOp o u | none => u)
      have k : ∀ m : Option CryOp,
          (match m with | some o => startOp o u | none => u).cry.ops.map CryOp.id = u.cry.ops.map CryOp.id ∧
          (match m with | some o => startOp o u | none => u).cry.slots = u.cry.slots := by
        intro m; cases m
        · exact ⟨rfl, rfl⟩
        · exact startOp_ids
      exact ⟨i1.trans (k _).1, i2.trans (k _).2⟩
  exact h _ _
theorem issueOp_facts {o : CryOp} {s : State} : (issueOp o s).2.cry.ops.map CryOp.id = s.cry.ops.map CryOp.id ++ [s.cry.nextId] ∧ (issueOp o s).2.cry.slots = s.cry.slots ∧ Only [.cry] s (issueOp o s).2 := by
  refine ⟨startOps_ids.1.trans ?_, startOps_ids.2, only_issueOp (by decide) (Only.refl s)⟩
  exact List.map_append

theorem only_trans_sub {ps qs : List Part} {a b c : State} (h : Only ps a b) (h' : Only qs b c) (hs : ∀ p, p ∈ ps → p ∈ qs) : Only qs a c := only_trans (h.mono hs) h'
/-- A thread put back by a service. -/
theorem service_ran {ps : List Part} {th : ThreadId} {y : Thread} {s v z : State} {tag : Option Tagged} {prog : Nat}
    (h1 : v.tine = s.tine) (h2 : Only (counting ++ [.tine, .freeCtr] ++ ps) s v)
    (hk : z = (match tag with | some g => sampRecord th.harrow.val th.tine.val th.thread.val prog g false false false true none (putThread th.harrow.val th.tine.val th.thread.val y v) | none => putThread th.harrow.val th.tine.val th.thread.val y v)) :
    RanIn ps th y s.tine.scratch s.tine.sram s z ∧ Only (counting ++ [.tine, .freeCtr]) v z := by
  have q : Pre (putThread th.harrow.val th.tine.val th.thread.val y v) z := by
    rw [hk]; cases tag
    · exact .refl _
    · exact pre_sampRecord
  have qt := q.threads
  have ho : Only (counting ++ [.tine, .freeCtr]) v z := only_trans (only_putThread (by decide) (Only.refl _)) q.2
  obtain ⟨p1, p2, p3, p4, p5, p6, p7, p8⟩ := (post_put (h := th.harrow.val) (t := th.tine.val) (n := th.thread.val) (x := y) (v := v)).trans q.post
  rw [h1] at p1 p2 p3 p4 p5 p6 p7 p8
  refine ⟨⟨⟨?_, ?_, p1, p2, p3, p4⟩, p5, p6, p7, p8, only_trans h2 (ho.mono (fun p h => List.mem_append_left _ h))⟩, ho⟩
  · unfold threadAt; rw [qt]; exact congrArg still (put_ran (th := th)).1
  · intro o hne; unfold threadAt; rw [qt]
    refine (congrArg still ((put_ran (th := th)).2 o hne)).trans ?_
    unfold threadAt threadOf; rw [h1]
theorem still_go {y : Thread} {pc : Nat} : still { y with pc := pc, wait := none, tagged := none } = still { y with pc := pc, wait := none } := rfl
theorem RanIn.still {ps : List Part} {th : ThreadId} {x y : Thread} {a b : Tab (BitVec 8)} {s t : State} (h : RanIn ps th x a b s t) (e : still x = still y) : RanIn ps th y a b s t :=
  ⟨⟨h.1.1.trans e, h.1.2⟩, h.2⟩
theorem only_emLookup {g : BitVec 8} {p : Nat} {k : BitVec 128} {l : Nat} {e : List (Bool × Bool)} {u : State} : Only [.sup, .cls, .life, .win, .i3c, .reeve, .counters] u (emLookupOp g p k l e u).2 := only_emLookupOp (by decide) (Only.refl u)

end Sys2Proof.Machine
end

