-- ==== Sys2Proof/Laws/CommandFacts.lean ====
section
/-! SUPPORT. What the commands of Table 21-7 and the instructions of a tine do where all of them go
the same way, and the operations behind single commands. A lemma that ends in `Does` takes the frame
of its command (`hf`). -/
namespace Sys2Proof.Machine

theorem reads {op : Nat} {th : ThreadId} {f : TFields} {i : Instr} {ok : Thread → Bool} {g : State → Thread → Thread} {code : Nat} {body : Thread → State → TRes} (addr : Thread → Option Nat)
    (hc : code < 256) (hf : ∀ s t, exec i s = .next t → Only (writes i) s t) (hi : ∀ s, exec i s = .next (issue op th f body s))
    (h1 : ∀ s u, Pre s u → ok (fetched op th f s) = true → body (fetched op th f s) u = .ok { g s (fetched op th f s) with pc := (fetched op th f s).pc + 1 } u false)
    (h2 : ∀ s u, Pre s u → ok (fetched op th f s) = false → body (fetched op th f s) u = .fault code (addr (fetched op th f s))) : Reads op th f i ok g code := by
  intro s hI x
  refine ⟨fun ho => does_of (hf s) (hi s) (issue_runs hI fun u hu => ⟨_, _, rfl, .inl (h1 s u hu ho)⟩), fun ho => does_of (hf s) (hi s) (issue_faults (addr := fun _ => addr (fetched op th f s)) hc (fun u hu => h2 s u hu ho) hI)⟩

theorem acts {op : Nat} {th : ThreadId} {f : TFields} {i : Instr} {ok : Thread → Bool} {g : State → Thread → Thread} {scr sram : State → Thread → Tab (BitVec 8)} {code : Nat} {body : Thread → State → TRes} (addr : Thread → Option Nat)
    (hc : code < 256) (hf : ∀ s t, exec i s = .next t → Only (writes i) s t) (hi : ∀ s, exec i s = .next (issue op th f body s))
    (h1 : ∀ s u, Pre s u → ok (fetched op th f s) = true → ∃ v, (body (fetched op th f s) u = .ok (g s (fetched op th f s)) v false ∨ body (fetched op th f s) u = .wait (g s (fetched op th f s)) v) ∧ v.tine.scratch = scr s (fetched op th f s) ∧ v.tine.sram = sram s (fetched op th f s) ∧ { v.tine with scratch := u.tine.scratch, sram := u.tine.sram } = u.tine ∧ Only (counting ++ [.tine, .freeCtr]) u v)
    (h2 : ∀ s u, Pre s u → ok (fetched op th f s) = false → body (fetched op th f s) u = .fault code (addr (fetched op th f s))) : Acts op th f i ok g scr sram code := by
  intro s hI x
  refine ⟨fun ho => does_of (hf s) (hi s) (issue_ran hI fun u hu => ?_), fun ho => does_of (hf s) (hi s) (issue_faults (addr := fun _ => addr (fetched op th f s)) hc (fun u hu => h2 s u hu ho) hI)⟩
  obtain ⟨v, hv⟩ := h1 s u hu ho
  exact ⟨_, v, _, rfl, hv⟩

theorem commands {op : Nat} {b : CmdBody} {i : Instr} {c : Cmd} {s s1 : State} {r : Reply} {P : State → Prop}
    (hf : ∀ t, exec i s = .next t → Only (writes i) s t) (hi : exec i s = .next (runCmd op b c s)) (ha : Accepted op c s)
    (hb : b { payload := c.payload, tag := c.tag } (untake op c s) = (r, s1)) (hr : r.status < 2)
    (hP : ∀ t, Replied op c r.status r.payload t → Only [.win, .i3c, .reeve] s1 t → P t)
    (hl : r.later = false := by rfl) : Does i s P := by
  obtain ⟨t, ht⟩ : ∃ t, answer op c r s1 = t := ⟨_, rfl⟩
  obtain ⟨hA, hO⟩ := answer_mailbox (op := op) (r := r) (s := s1) ha.2.1
  rw [ht] at hA hO
  refine does_of hf (t := t) (by rw [hi, runCmd_accepted ha hb hr hl, ht]) (hP t hA hO)

theorem sets {op : Nat} {kinds : List Nat} {specs : Nat → List SSpec} {i : Instr} {c : Cmd} {s : State} {b : CmdBody}
    {k : Nat → List Given → Call → State → Reply × State} {ok : Nat → List Given → Prop} {more : Nat → List Given → State → Prop}
    (hf : ∀ t, exec i s = .next t → Only (writes i) s t) (hi : exec i s = .next (runCmd op b c s)) (hb : ∀ sc gs v, Carries kinds specs c s sc gs → ok sc gs → b { payload := c.payload, tag := c.tag } { s with reeve := v } = settingsCmd kinds specs k { payload := c.payload, tag := c.tag } { s with reeve := v })
    (hk : ∀ k ∈ kinds, k < 64)
    (hK : ∀ sc gs v, Carries kinds specs c s sc gs → ok sc gs → ∃ u, k sc gs { payload := c.payload, tag := c.tag } { s with reeve := v } = ({ status := 0 }, u) ∧
      u.settings = (putGiven sc gs { s with reeve := v }).settings ∧ ∀ t, Only [.win, .i3c, .reeve] u t → more sc gs t) :
    Sets op kinds specs i c s ok more := by
  intro ha sc gs hc ho
  obtain ⟨v, hv⟩ := untake_reeve op c s
  obtain ⟨u, hu, hs, hm⟩ := hK sc gs v hc ho
  refine commands hf hi ha (r := { status := 0 }) (s1 := u) (by rw [hv, hb sc gs v hc ho, settingsCmd_runs hc v, hu]) (by show (0:Nat) < 2; decide) ?_
  intro t hA hO
  exact ⟨hA, putGiven_inForce hc sc (carries_scope hc hk).1 ((hO .settings (by decide)).trans hs), hm t hO⟩

/-- An accepted command answers as its own part says. -/
theorem answers {op : Nat} {b : CmdBody} {i : Instr} {c : Cmd} {s s1 : State} {st : Nat} {out : Bytes} {P : State → Prop} {v : Reeve}
    (hf : ∀ t, exec i s = .next t → Only (writes i) s t) (hi : exec i s = .next (runCmd op b c s)) (ha : Accepted op c s) (hv : untake op c s = { s with reeve := v })
    (hb : b { payload := c.payload, tag := c.tag } { s with reeve := v } = ({ status := st, payload := out }, s1))
    (hP : ∀ t q, Only [.win, .i3c, .reeve] s1 t → t.reeve = { s1.reeve with responses := q } → P t) : Does i s fun t => Replied op c st out t ∧ P t := by
  obtain ⟨r, hr⟩ : ∃ r : Reply, r = { status := st, payload := out } := ⟨_, rfl⟩
  rw [← hr] at hb
  rw [show st = r.status from by rw [hr], show out = r.payload from by rw [hr]]
  obtain ⟨t, ht⟩ : ∃ t, answer op c r s1 = t := ⟨_, rfl⟩
  obtain ⟨hA, hO⟩ := answer_mailbox (op := op) (r := r) (s := s1) ha.2.1
  obtain ⟨q, hq⟩ := answer_reeve (op := op) (r := r) (s := s1) ha.2.1
  rw [ht] at hA hO hq
  exact does_of hf (t := t) (by rw [hi, runCmd_answers (r := r) (s1 := s1) ha (hv.symm ▸ hb) (by rw [hr]), ht]) ⟨hA, hP t q hO hq⟩

theorem ctr_set {s : State} {k : Nat} {v : Ctr} {c : CtrId} {sc : Nat} :
    ctrOf { s with counters := tabSet ({} : Ctr) s.counters k v } c sc = if ctrKey c sc = k then v else ctrOf s c sc := by
  unfold ctrOf; rw [tabGet_set]

theorem clearCounters_zero {ch tbl sc first n : Nat} {j : Nat} (hk : kindServes ch tbl (first + j) ((ctrKinds ch tbl).getD (first + j) 0) (scopeKind sc) = true)
    (s : State) (hj : j < n) :
    ctrOf (clearCounters ch tbl sc first n s) (readKey ch tbl (first + j)) (readScope ((ctrKinds ch tbl).getD (first + j) 0) sc) = {} := by
  unfold clearCounters
  refine each_once (P := fun u => ctrOf u (readKey ch tbl (first + j)) (readScope ((ctrKinds ch tbl).getD (first + j) 0) sc) = {}) (j := j) ?_ ?_ _ _ (by simpa using hj)
  · intro i s h; dsimp only
    split
    · rw [ctr_set, h]; exact ite_self _
    · exact h
  · intro s; dsimp only
    rw [if_pos hk, ctr_set, if_pos rfl]

theorem clearCounters_keeps (ch tbl sc first n : Nat) (s : State) : ∃ u, clearCounters ch tbl sc first n s = { s with counters := u } := by
  unfold clearCounters
  refine each_stay (P := fun t => ∃ u, t = { s with counters := u }) ?_ _ _ ⟨s.counters, rfl⟩
  rintro i t ⟨u, rfl⟩; dsimp only
  split
  · exact ⟨_, rfl⟩
  · exact ⟨_, rfl⟩

theorem readCounters_reeve (s : State) (v : Reeve) (ch tbl sc first n : Nat) :
    readCounters { s with reeve := v } ch tbl sc first n = readCounters s ch tbl sc first n := rfl

theorem readCmd_runs {kinds : List Nat} {tables : List (Nat × Nat)} {extra : Nat} {block : Nat → Bytes → State → Bytes}
    {clear : Nat → Bytes → State → State} {c : Cmd} {s : State} {sc : Nat} (h : Asks kinds tables extra block c s sc) (v : Reeve)
    (hblk : block sc c.payload { s with reeve := v } = block sc c.payload s) :
    readCmd kinds tables extra block clear { payload := c.payload, tag := c.tag } { s with reeve := v } =
      ({ status := 0, payload := block sc c.payload s ++ readCounters s (byteAt c.payload 4).toNat (byteAt c.payload 5).toNat sc (byteAt c.payload 6).toNat ((byteAt c.payload 7).toNat % 128) },
       if rcBit c.payload then clear sc c.payload (clearCounters (byteAt c.payload 4).toNat (byteAt c.payload 5).toNat sc (byteAt c.payload 6).toNat ((byteAt c.payload 7).toNat % 128) { s with reeve := v }) else { s with reeve := v }) := by
  obtain ⟨h1, h2, h3, h4, h5⟩ := h
  dsimp only at h1 h2 h3 h4 h5
  unfold readCmd; dsimp only
  rw [if_neg (by simp [h1])]
  have e : scopeOf { s with reeve := v } (0 :: kinds ++ tables.flatMap (fun t => (ctrKinds t.1 t.2).flatMap (fun k => if k = 0x1A then [0x0A, 0x0B] else [k]))) c.payload = some sc := h2
  rw [e]; dsimp only
  rw [hblk]
  have h3' : (!((byteAt c.payload 4).toNat == 0 && (byteAt c.payload 7).toNat % 128 == 0 || tables.contains ((byteAt c.payload 4).toNat, (byteAt c.payload 5).toNat))) = false := by
    rcases h3 with ⟨a, b⟩ | h
    · simp [a, b]
    · simp [h]
  rw [h3']
  simp only [Bool.false_eq_true, if_false]
  rw [if_neg (by rintro ⟨a, b⟩; have := h4 a; omega), if_neg (by omega)]
  unfold stOk
  rw [readCounters_reeve]

theorem inquires {op : Nat} {kinds : List Nat} {tables : List (Nat × Nat)} {extra : Nat} {block : Nat → Bytes → State → Bytes}
    {i : Instr} {c : Cmd} {s : State} {body : CmdBody} {clear : Nat → Bytes → State → State} {ok : Nat → Prop} {P : Nat → State → Prop}
    (hf : ∀ t, exec i s = .next t → Only (writes i) s t) (hi : exec i s = .next (runCmd op body c s))
    (hb : ∀ sc v, ok sc → Asks kinds tables extra block c s sc → ∃ k, body { payload := c.payload, tag := c.tag } { s with reeve := v } = ((readCmd kinds tables extra block clear { payload := c.payload, tag := c.tag } { s with reeve := v }).1, { (readCmd kinds tables extra block clear { payload := c.payload, tag := c.tag } { s with reeve := v }).2 with freeCtr := k }))
    (hblk : ∀ sc v, block sc c.payload { s with reeve := v } = block sc c.payload s)
    (hcl : ∀ sc u, (clear sc c.payload u).counters = u.counters)
    (hP : ∀ sc v u t, Only [.win, .i3c, .reeve, .freeCtr] (clear sc c.payload { s with reeve := v, counters := u }) t → P sc t) :
    Inquires op kinds tables extra block i c s ok P := by
  intro ha sc hq hok
  obtain ⟨v, hv⟩ : ∃ v, untake op c s = { s with reeve := v } := ⟨_, rfl⟩
  obtain ⟨k, hr⟩ := hb sc v hok hq
  rw [readCmd_runs (clear := clear) hq v (hblk sc v), ← hv] at hr
  obtain ⟨ss, hss⟩ : ∃ ss, (if rcBit c.payload then clear sc c.payload (clearCounters (byteAt c.payload 4).toNat (byteAt c.payload 5).toNat sc (byteAt c.payload 6).toNat ((byteAt c.payload 7).toNat % 128) (untake op c s)) else (untake op c s)) = ss := ⟨_, rfl⟩
  rw [hss] at hr; dsimp only at hr
  have hg : Only [.freeCtr] ss { ss with freeCtr := k } := Only.of_freeCtr ss k
  obtain ⟨hA, hO⟩ := answer_mailbox (op := op) (r := { status := 0, payload := block sc c.payload s ++ readCounters s (byteAt c.payload 4).toNat (byteAt c.payload 5).toNat sc (byteAt c.payload 6).toNat ((byteAt c.payload 7).toNat % 128) })
    (s := { ss with freeCtr := k }) ha.2.1
  obtain ⟨t, ht⟩ : ∃ t, answer op c { status := 0, payload := block sc c.payload s ++ readCounters s (byteAt c.payload 4).toNat (byteAt c.payload 5).toNat sc (byteAt c.payload 6).toNat ((byteAt c.payload 7).toNat % 128) } { ss with freeCtr := k } = t := ⟨_, rfl⟩
  rw [ht] at hA hO
  have hO : Only [.win, .i3c, .reeve, .freeCtr] ss t := only_trans_sub hg (hO.mono (by decide)) (by decide)
  refine does_of hf (t := t) (by rw [hi, runCmd_accepted ha hr (by show (0:Nat) < 2; decide) rfl, ht]) ?_
  refine ⟨hA, ?_, ?_⟩
  · intro hc
    rw [hc] at hss; simp only [Bool.false_eq_true, if_false] at hss
    rw [← hss, hv] at hO
    exact only_trans_sub (qs := [.win, .i3c, .reeve, .freeCtr]) (b := { s with reeve := v }) (Only.of_reeve s v) hO (by decide)
  · intro hc
    rw [hc] at hss; simp only [if_true] at hss
    obtain ⟨u, hu⟩ := clearCounters_keeps (byteAt c.payload 4).toNat (byteAt c.payload 5).toNat sc (byteAt c.payload 6).toNat ((byteAt c.payload 7).toNat % 128) { s with reeve := v }
    refine ⟨hP sc v u _ (by rw [← hu, ← hv, hss]; exact hO), ?_⟩
    intro j hj
    dsimp only
    intro hk
    have e : t.counters = ss.counters := hO .counters (by decide)
    unfold ctrOf; rw [e, ← hss, hcl]
    exact clearCounters_zero hk _ hj

/-- A read command with no condition of its own. -/
theorem inquires_plain {op : Nat} {kinds : List Nat} {tables : List (Nat × Nat)} {extra : Nat} {block : Nat → Bytes → State → Bytes}
    {i : Instr} {c : Cmd} {s : State} 
    (hf : ∀ t, exec i s = .next t → Only (writes i) s t) (hi : exec i s = .next (runCmd op (readCmd kinds tables extra block (fun _ _ s => s)) c s))
    (hblk : ∀ sc v, block sc c.payload { s with reeve := v } = block sc c.payload s) :
    Inquires op kinds tables extra block i c s (fun _ => True) (fun _ _ => True) :=
  inquires hf (clear := fun _ _ s => s) hi (fun _ _ _ _ => ⟨_, rfl⟩) hblk (fun _ _ => rfl) (fun _ _ _ _ _ => trivial)

theorem pmcClear_reads (h n : Nat) (s : State) : cycOf (pmcClear h n s) h n = 0 ∧ (pmcOf (pmcClear h n s) h n).count = [] ∧ (pmcOf (pmcClear h n s) h n).ovf = 0 := by
  unfold pmcClear cycOf pmcOf modPmc; dsimp only
  rw [tabGet_mod, if_pos rfl]
  refine ⟨?_, rfl, rfl⟩
  dsimp only
  generalize (tabGet none s.tine.gatedAt h).getD s.tine.cycles = x
  bv_omega

theorem queue_reset (ds : Bool) (q : Nat) (s : State) : (queueOf (modQueue ds q (fun k => { k with high := k.bushels }) s) ds q).high = (queueOf s ds q).bushels ∧ (modQueue ds q (fun k => { k with high := k.bushels }) s).qos = { (modQueue ds q (fun k => { k with high := k.bushels }) s).qos with free := s.qos.free } := by
  unfold queueOf modQueue
  cases ds
  · simp only [Bool.false_eq_true, if_false]
    unfold modUs usOf; dsimp only; rw [tabGet_mod, if_pos rfl]; exact ⟨rfl, rfl⟩
  · simp only [if_true]
    unfold modDs dsOf; dsimp only; rw [tabGet_mod, if_pos rfl]; exact ⟨rfl, rfl⟩

theorem sets_plain {op : Nat} {kinds : List Nat} {specs : Nat → List SSpec} {i : Instr} {c : Cmd} {s : State}
    {k : Nat → List Given → Call → State → Reply × State} {ok : Nat → List Given → Prop} {more : Nat → List Given → State → Prop}
    (hf : ∀ t, exec i s = .next t → Only (writes i) s t) (hi : exec i s = .next (runCmd op (settingsCmd kinds specs k) c s))
    (hk : ∀ k ∈ kinds, k < 64)
    (hK : ∀ sc gs v, Carries kinds specs c s sc gs → ok sc gs → ∃ u, k sc gs { payload := c.payload, tag := c.tag } { s with reeve := v } = ({ status := 0 }, u) ∧
      Only noset (putGiven sc gs { s with reeve := v }) u ∧ ∀ t, Only [.win, .i3c, .reeve] u t → more sc gs t) :
    Sets op kinds specs i c s ok more :=
  sets hf hi (fun _ _ _ _ _ => rfl) hk (fun sc gs v h1 h2 => (hK sc gs v h1 h2).imp (fun u h => ⟨h.1, h.2.1 .settings (by decide), h.2.2⟩))

theorem drawCountdown_mask (h t : Nat) (s : State) : (sampOf (drawCountdown h t s) h).mask = (sampOf s h).mask := by
  unfold drawCountdown modSamp sampOf; dsimp only
  rw [tabGet_mod, if_pos rfl]
  rfl

theorem lofEntry_lane (l : Nat) (s : State) (k : Nat) : laneOf (lofEntry l s) k = laneOf s k := by
  unfold laneOf; rw [only_lofEntry (ps := [.sup, .win, .i3c, .reeve, .counters]) (by decide) (Only.refl s) .lanes (by decide)]

theorem enableLane_on (l : Nat) (s : State) : (laneOf (enableLane l s) l).st ≠ .off := by
  unfold enableLane
  split
  · rw [lofEntry_lane]; unfold modLane laneOf; dsimp only; rw [tabGet_mod, if_pos rfl]; dsimp only; decide
  · assumption

theorem disableLane_off (l : Nat) (s : State) : (laneOf (disableLane l s) l).st = .off := by
  unfold disableLane; dsimp only
  have e : ∀ w, (lockLook w).lanes = w.lanes := fun w => only_lockLook (ps := noset.erase .lanes) (by decide) (Only.refl w) .lanes (by decide)
  have e2 : ∀ w, (clearLaneDefects l w).lanes = w.lanes := fun w => only_clearLaneDefects (ps := [.sup]) (by decide) (Only.refl w) .lanes (by decide)
  unfold laneOf; rw [e, e2]
  unfold modLane; dsimp only; rw [tabGet_mod, if_pos rfl]

theorem enableLtx_on (x : Nat) (o : Optics) (s : State) : (usLaneOf (enableLtx x o s) x).enabled = true := by
  unfold enableLtx; dsimp only
  by_cases h : (usLaneOf s x).enabled = true
  · rw [if_pos h]; exact h
  · rw [if_neg h]; unfold domainOn modUsLane usLaneOf; dsimp only; rw [tabGet_mod, if_pos rfl]

theorem usBursts_mod {x : Nat} {f : UsLane → UsLane} {s : State} (hf : ∀ l, (f l).bursts = l.bursts) (h : ∀ x, (usLaneOf s x).bursts = []) : ∀ y, (usLaneOf (modUsLane x f s) y).bursts = [] := by
  intro y
  have := h y
  unfold usLaneOf modUsLane at *; dsimp only; rw [tabGet_mod]
  split
  · rename_i hy; rw [hf]; exact hy ▸ this
  · exact this

theorem carries_line {specs : Nat → List SSpec} {c : Cmd} {s : State} {sc : Nat} {gs : List Given} (h : Carries [0x01] specs c s sc gs) : sc = scLrx (scopeIndex sc) := by
  obtain ⟨_, h, _⟩ := h
  unfold scopeOf at h
  split at h
  · rename_i hc
    cases h
    simp only [Bool.and_eq_true, List.contains_iff_mem, List.mem_singleton] at hc
    have h1 := hc.1
    have h2 := hc.2
    unfold scopeInRange at h2; dsimp only at h2
    rw [h1] at h2
    simp only [Bool.and_eq_true, decide_eq_true_eq] at h2
    have h3 : field c.payload 2 2 < 65536 := field_lt _ _ 2
    unfold scopeIndex scopeField scLrx scopeCode
    rw [h1, h2.2]
    omega
  · cases h

theorem eachEq {l : Nat} : ∀ {gs : List Given} {s : State}, (∀ g ∈ gs, g.2.1 < g.1.idx ∧ g.1 ∈ [sCtleMode, sCtleCode, sAdaptMin, sAdaptMax]) →
    each (fun (p : Nat × Int) s => putSetting (eqSpec p.1) (scLrx l) 0 p.2 s) (gs.map (fun g => (g.1.row, g.2.2))) s = putGiven (scLrx l) gs s := by
  intro gs
  induction gs with
  | nil => intro s _; rfl
  | cons g gs ih =>
    intro s h
    rw [List.map_cons, each, ih (fun x hx => h x (List.mem_cons_of_mem _ hx))]
    unfold putGiven; rw [each]
    obtain ⟨h1, h2⟩ := h g (by simp)
    obtain ⟨p, i, v⟩ := g
    dsimp only at h1 h2 ⊢
    simp only [List.mem_cons, List.not_mem_nil, or_false] at h2
    rcases h2 with rfl | rfl | rfl | rfl
    all_goals
      obtain rfl : i = 0 := by
        have : i < 1 := h1
        omega
      rfl

theorem putGiven_keep {sc k : Nat} : ∀ (gs : List Given) (s : State), (∀ g ∈ gs, setKey g.1 g.2.1 (if g.1.dev then scDevice else sc) ≠ k) →
      tabGet none (putGiven sc gs s).settings k = tabGet none s.settings k := by
  intro gs
  induction gs with
  | nil => intro s _; rfl
  | cons a gs ih =>
    intro s h
    rw [putGiven_each, each, ← putGiven_each, ih _ (fun g hg => h g (by simp [hg]))]
    dsimp only
    rw [tabGet_set, if_neg (fun e => h a (by simp) e.symm)]

theorem startEach {c : Cmd} {s0 : State} {sc : Nat} {gs : List Given} {mask : Inst → BitVec 16} (hc : Carries [0x00, 0x04] (fun _ => settings506 ++ [sMgmtMask]) c s0 sc gs)
    (L : List Nat) (s : State) (hn : L.Nodup) (hb : ∀ i ∈ L, i < 65536) : ∀ i ∈ L,
    let t := each (fun i s => modInst i (fun x => { x with enabled := true, mgmtMask := mask x }) (putGiven (scInst i) gs s)) L s
    (instOf t i).enabled = true ∧ InForce gs (scInst i) t := by
  have hsp : ∀ p ∈ settings506 ++ [sMgmtMask], p.row < 4096 ∧ p.pos < 16 ∧ p.idx ≤ 256 ∧ p.dev = false := by decide
  have hg := (carries_facts hc).1
  have hscope : ∀ i, i < 65536 → scInst i < 2 ^ 26 := by intro i hi; unfold scInst scopeCode; omega
  induction L generalizing s with
  | nil => intro i hi; cases hi
  | cons a L ih =>
    obtain ⟨hn1, hn2⟩ := List.nodup_cons.mp hn
    intro i hi
    dsimp only
    rw [each]
    rcases List.mem_cons.mp hi with rfl | hi
    · -- the others leave instance i alone
      have keep : ∀ (L : List Nat) (u : State), i ∉ L → (∀ j ∈ L, j < 65536) → (instOf u i).enabled = true → InForce gs (scInst i) u →
          (instOf (each (fun i s => modInst i (fun x => { x with enabled := true, mgmtMask := mask x }) (putGiven (scInst i) gs s)) L u) i).enabled = true ∧
          InForce gs (scInst i) (each (fun i s => modInst i (fun x => { x with enabled := true, mgmtMask := mask x }) (putGiven (scInst i) gs s)) L u) := by
        intro L
        induction L with
        | nil => intro u _ _ h1 h2; exact ⟨h1, h2⟩
        | cons b L ih2 =>
          intro u hb1 hb2 h1 h2
          rw [each]
          have hne : b ≠ i := fun e => hb1 (by simp [e])
          refine ih2 _ (fun h => hb1 (by simp [h])) (fun j hj => hb2 j (by simp [hj])) ?_ ?_
          · unfold instOf modInst; dsimp only; rw [tabGet_mod, if_neg (fun e => hne e.symm)]
            rw [show (putGiven (scInst b) gs u).act = u.act from putGiven_only .act (by decide)]
            exact h1
          · intro g hgm
            have := h2 g hgm
            unfold setting at this ⊢
            rw [show (modInst b (fun x => { x with enabled := true, mgmtMask := mask x }) (putGiven (scInst b) gs u)).settings = (putGiven (scInst b) gs u).settings from rfl]
            obtain ⟨q1, q2⟩ := hg g hgm
            obtain ⟨r1, r2, r3, r4⟩ := hsp g.1 q2
            rw [putGiven_keep gs u ?_]
            · exact this
            · intro g' hg' e
              obtain ⟨q1', q2'⟩ := hg g' hg'
              obtain ⟨r1', r2', r3', r4'⟩ := hsp g'.1 q2'
              rw [r4, r4'] at e
              simp only [Bool.false_eq_true, if_false] at e
              have := (key_inj (by omega) (by omega) r1' r1 r2' r2 (hscope b (hb2 b (by simp))) (hscope i (hb i (by simp))) e).2.2.2
              unfold scInst scopeCode at this; omega
      refine keep L _ hn1 (fun j hj => hb j (by simp [hj])) ?_ ?_
      · unfold instOf modInst; dsimp only; rw [tabGet_mod, if_pos rfl]
      · exact putGiven_inForce (s' := s) hc (scInst i) (hscope i (hb i (by simp))) rfl
    · exact ih _ hn2 (fun j hj => hb j (by simp [hj])) i hi

theorem clearRtt_act {i : Nat} {u : State} : (clearRtt i u).act = u.act :=
  only_clearRtt (ps := [.us]) (by decide) (Only.refl u) .act (by decide)
theorem actClear_dual (i : Nat) (msg : Option Nat) (s : State) : (actClear i msg s).act.dual = s.act.dual := by
  have hr : ∀ (L : List _) (u : State), (each removeLot L u).act = u.act := by
    intro L u
    exact only_each (ps := noset.erase .act) (fun _ _ h => only_removeLot (by decide) h) (Only.refl u) .act (by decide)
  unfold actClear; dsimp only
  cases msg with
  | some g =>
    simp only [each, leaveFor, modInst_act]
    rw [clearRtt_act]; dsimp only
    rw [hr]; exact modInst_act.2.2.2
  | none =>
    dsimp only
    have hc : ∀ u, (clearEqd i u).act = u.act := fun u => only_clearEqd (ps := [.us]) (by decide) (Only.refl u) .act (by decide)
    rw [hc, clearRtt_act]
    simp only [modInst_act]
    rw [hr]; exact modInst_act.2.2.2

theorem actLost_dual (i : Nat) (s : State) : (actLost i s).act.dual = s.act.dual := by
  unfold actLost
  split
  · unfold toListen; rw [setAct_dual, actClear_dual]
  · unfold toListen; rw [setAct_dual, actClear_dual]
  · dsimp only
    split
    · unfold toListen; rw [setAct_dual, actClear_dual, setAct_dual]; exact modInst_act.2.2.2
    · rw [setAct_dual]; exact modInst_act.2.2.2
  · rfl

theorem lockLook_dual (s : State) : (lockLook s).act.dual = s.act.dual := by
  have h : ∀ (L : List Nat) (u : State), (each (fun i s => if instLocked s i then s else actLost i s) L u).act.dual = u.act.dual := by
    intro L; induction L with
    | nil => intro u; rfl
    | cons a L ih =>
      intro u; rw [each, ih]; split
      · rfl
      · exact actLost_dual _ _
  unfold lockLook actLockLook
  rw [h]
  exact congrArg (·.dual) ((only_gateLook (ps := noset.erase .act) (by decide) (only_refLook (by decide) (Only.refl s))) .act (by decide))

theorem setParenting_dual (d : Bool) (s : State) : (setParenting d s).act.dual = d := by
  unfold setParenting; dsimp only
  rw [show ∀ w, (supLook w).act = w.act from fun w => only_supLook (ps := [.sup]) (by decide) (Only.refl w) .act (by decide), lockLook_dual]
  split
  · rfl
  · rw [show ∀ w, (plotsNone w).act = w.act from fun w => only_plotsNone (ps := [.settings]) (by decide) (Only.refl w) .act (by decide)]

theorem putPort_reeve {sc : Nat} {gs : List Given} {s : State} {v : Reeve} : putPort sc gs { s with reeve := v } = { putPort sc gs s with reeve := v } := by
  unfold putPort
  induction gs generalizing s with
  | nil => rfl
  | cons g gs ih =>
    rw [each, each]
    by_cases h : laneSettings.contains g.1 = true
    · rw [if_pos h, if_pos h]; exact ih (s := putSetting g.1 (scSlane g.2.1) 0 g.2.2 s)
    · rw [if_neg h, if_neg h]; exact ih (s := putSetting g.1 sc g.2.1 g.2.2 s)

theorem each_put_key {key : Given → Nat} : ∀ (gs : List Given) (s : State), gs.Pairwise (fun g h => key g ≠ key h) →
    ∀ g ∈ gs, tabGet none (each (fun (g : Given) s => { s with settings := tabSet none s.settings (key g) (some g.2.2) }) gs s).settings (key g) = some g.2.2 := by
  have keep : ∀ (gs : List Given) (s : State) (k : Nat), (∀ g ∈ gs, key g ≠ k) →
      tabGet none (each (fun (g : Given) s => { s with settings := tabSet none s.settings (key g) (some g.2.2) }) gs s).settings k = tabGet none s.settings k := by
    intro gs
    induction gs with
    | nil => intro s k _; rfl
    | cons a gs ih =>
      intro s k h
      rw [each, ih _ k (fun g hg => h g (by simp [hg]))]
      dsimp only
      rw [tabGet_set, if_neg (fun e => h a (by simp) e.symm)]
  intro gs
  induction gs with
  | nil => intro s _ g hg; cases hg
  | cons a gs ih =>
    intro s h g hg
    obtain ⟨h1, h2⟩ := List.pairwise_cons.mp h
    rw [each]
    rcases List.mem_cons.mp hg with rfl | hg
    · rw [keep gs _ _ (fun x hx e => h1 x hx e.symm)]
      dsimp only
      rw [tabGet_set, if_pos rfl]
    · exact ih _ h2 g hg

theorem putPort_puts {c : Cmd} {s0 : State} {sc : Nat} {gs : List Given} (hc : Carries [0x06] (fun _ => settings802) c s0 sc gs) (s : State) : ∀ g ∈ gs,
    tabGet none (putPort sc gs s).settings (if laneSettings.contains g.1 then setKey g.1 0 (scSlane g.2.1) else setKey g.1 g.2.1 (if g.1.dev then scDevice else sc)) = some g.2.2 := by
  have hsc := (carries_scope hc (by decide)).1
  obtain ⟨_, _, is, hi, hck⟩ := hc
  obtain ⟨h1, h2⟩ := checkItems_facts is 0 [] gs hck (parseItems_bounds _ _ _ hi) (by simp) List.Pairwise.nil
  have hd : ∀ p ∈ laneSettings, p.dev = false := by decide
  have e : putPort sc gs s = each (fun (g : Given) s => { s with settings := tabSet none s.settings (if laneSettings.contains g.1 then setKey g.1 0 (scSlane g.2.1) else setKey g.1 g.2.1 (if g.1.dev then scDevice else sc)) (some g.2.2) }) gs s := by
    unfold putPort
    congr 1
    funext g u
    split
    · rename_i hl
      unfold putSetting; rw [hd g.1 (by simpa using hl)]; rfl
    · rfl
  rw [e]
  refine each_put_key gs s ?_
  rw [List.pairwise_iff_forall_sublist] at h2 ⊢
  intro g x hs e
  have hg : g ∈ gs := hs.subset (by simp)
  have hx : x ∈ gs := hs.subset (by simp)
  obtain ⟨a1, a2, a3, a4, a5, a6⟩ := h1 g hg
  obtain ⟨b1, b2, b3, b4, b5, b6⟩ := h1 x hx
  have bound : ∀ y : Given, (if y.1.dev = true then scDevice else sc) < 2 ^ 26 := by
    intro y; split
    · decide
    · exact hsc
  have bs : ∀ y : Given, y.2.1 < 256 → scSlane y.2.1 < 2 ^ 26 := by intro y hy; unfold scSlane scopeCode; omega
  by_cases hl : laneSettings.contains g.1 = true
  · rw [if_pos hl] at e
    by_cases hm : laneSettings.contains x.1 = true
    · rw [if_pos hm] at e
      obtain ⟨e1, e2, _, e4⟩ := key_inj (by decide) (by decide) a2 b2 a3 b3 (bs g a1) (bs x b1) e
      rw [e1, e2, b6] at a6
      exact h2 hs ⟨(Option.some.inj a6).symm, by unfold scSlane scopeCode at e4; omega⟩
    · rw [if_neg hm] at e
      obtain ⟨e1, e2, _, _⟩ := key_inj (by decide) b1 a2 b2 a3 b3 (bs g a1) (bound x) e
      rw [e1, e2, b6] at a6
      exact hm (Option.some.inj a6 ▸ hl)
  · rw [if_neg hl] at e
    by_cases hm : laneSettings.contains x.1 = true
    · rw [if_pos hm] at e
      obtain ⟨e1, e2, _, _⟩ := key_inj a1 (by decide) a2 b2 a3 b3 (bound g) (bs x b1) e
      rw [e1, e2, b6] at a6
      exact hl (Option.some.inj a6 ▸ hm)
    · rw [if_neg hm] at e
      obtain ⟨e1, e2, e3, _⟩ := key_inj a1 b1 a2 b2 a3 b3 (bound g) (bound x) e
      rw [e1, e2, b6] at a6
      exact h2 hs ⟨(Option.some.inj a6).symm, e3⟩

theorem each_all {f : Nat → State → State} {P : Nat → State → Prop} {B : Nat → Prop} (h2 : ∀ n s, B n → P n (f n s)) (h1 : ∀ m n s, B m → B n → m ≠ n → P n s → P n (f m s)) :
    ∀ (L : List Nat) (s : State), (∀ n ∈ L, B n) → ∀ n ∈ L, P n (each f L s) := by
  have keep : ∀ (L : List Nat) (n : Nat) (s : State), B n → (∀ n ∈ L, B n) → P n s → P n (each f L s) := by
    intro L; induction L with
    | nil => intro n s _ _ h; exact h
    | cons a L ih =>
      intro n s hn hL h
      rw [each]
      refine ih n _ hn (fun m hm => hL m (by simp [hm])) ?_
      by_cases e : a = n
      · subst e; exact h2 a s hn
      · exact h1 a n s (hL a (by simp)) hn e h
  intro L
  induction L with
  | nil => intro s _ n hn; cases hn
  | cons a L ih =>
    intro s hL n hn
    rw [each]
    rcases List.mem_cons.mp hn with rfl | hn
    · exact keep L n _ (hL n (by simp)) (fun m hm => hL m (by simp [hm])) (h2 n s (hL n (by simp)))
    · exact ih _ (fun m hm => hL m (by simp [hm])) n hn

/-- What PMC_CONFIGURE does on one tine. -/
def pmcOne (sc : Nat) (gs : List Given) (t : Nat) (s : State) : State :=
  let s1 := putGiven (scTine (scopeIndex sc) t) (gs.filter (fun g => pmcKept.contains g.1)) (modPmc (scopeIndex sc) t (fun x => { x with frozen := false }) s)
  if gs.any (fun g => g.1 == sPmcClear && g.2.2 == 1) then pmcClear (scopeIndex sc) t s1 else s1

theorem pmcOne_settings (sc : Nat) (gs : List Given) (n : Nat) (s : State) : (pmcOne sc gs n s).settings = (putGiven (scTine (scopeIndex sc) n) (gs.filter (fun g => pmcKept.contains g.1)) (modPmc (scopeIndex sc) n (fun x => { x with frozen := false }) s)).settings := by
  unfold pmcOne; dsimp only; split <;> rfl

theorem putGiven_tine {sc : Nat} {gs : List Given} {s : State} : (putGiven sc gs s).tine = s.tine := putGiven_only .tine (by decide)

theorem pmcEach {c : Cmd} {s0 : State} {sc : Nat} {gs : List Given} (hc : Carries [0x0D] (fun _ => sPmcTineMask :: settings1402) c s0 sc gs) (s : State)
    (L : List Nat) (hL : ∀ n ∈ L, n < 16) : ∀ n ∈ L,
      (∀ g ∈ gs, pmcKept.contains g.1 = true → setting (each (pmcOne sc gs) L s) g.1 (scTine (scopeIndex sc) n) g.2.1 = g.2.2) ∧
      ((∃ g ∈ gs, g.1 = sPmcClear ∧ g.2.2 = 1) → (pmcOf (each (pmcOne sc gs) L s) (scopeIndex sc) n).count = [] ∧ cycOf (each (pmcOne sc gs) L s) (scopeIndex sc) n = 0) := by
  have hsp : ∀ p ∈ pmcKept, p.row < 4096 ∧ p.pos < 16 ∧ p.idx ≤ 256 ∧ p.dev = false := by decide
  have hg := (carries_facts hc).1
  have hpw := (carries_facts hc).2
  have hi : scopeIndex sc < 65536 := by unfold scopeIndex; omega
  have hs : ∀ n, n < 16 → scTine (scopeIndex sc) n < 2 ^ 26 := by intro n hn; unfold scTine scopeCode; omega
  have hkey : ∀ m n, m < 16 → n < 16 → m ≠ n → ∀ g ∈ gs, pmcKept.contains g.1 = true → ∀ h ∈ gs, pmcKept.contains h.1 = true →
      setKey g.1 g.2.1 (scTine (scopeIndex sc) m) ≠ setKey h.1 h.2.1 (scTine (scopeIndex sc) n) := by
    intro m n hm hn hne g hgm hgk x hxm hxk e
    obtain ⟨r1, r2, r3, r4⟩ := hsp g.1 (by simpa using hgk)
    obtain ⟨q1, q2, q3, q4⟩ := hsp x.1 (by simpa using hxk)
    have := (key_inj (by have := (hg g hgm).1; omega) (by have := (hg x hxm).1; omega) r1 q1 r2 q2 (hs m hm) (hs n hn) e).2.2.2
    unfold scTine scopeCode at this; omega
  refine each_all (f := pmcOne sc gs) (B := fun n => n < 16) (P := fun n t => (∀ g ∈ gs, pmcKept.contains g.1 = true → setting t g.1 (scTine (scopeIndex sc) n) g.2.1 = g.2.2) ∧
      ((∃ g ∈ gs, g.1 = sPmcClear ∧ g.2.2 = 1) → (pmcOf t (scopeIndex sc) n).count = [] ∧ cycOf t (scopeIndex sc) n = 0)) ?_ ?_ L s hL
  · intro n u hn
    refine ⟨fun g hgm hk => ?_, fun hcl => ?_⟩
    · unfold setting
      rw [pmcOne_settings, putGiven_each]
      rw [each_put (f := fun g => if g.1.dev then scDevice else scTine (scopeIndex sc) n) _ _ ?_ g (List.mem_filter.mpr ⟨hgm, hk⟩)]
      · rfl
      · refine List.Pairwise.sublist (List.filter_sublist) (hpw _ ?_)
        intro g _; split
        · decide
        · exact hs n hn
    · unfold pmcOne; dsimp only
      rw [if_pos (by
        rw [List.any_eq_true]
        obtain ⟨g, h1, h2, h3⟩ := hcl
        exact ⟨g, h1, by rw [h2, h3]; decide⟩)]
      have := pmcClear_reads (scopeIndex sc) n (putGiven (scTine (scopeIndex sc) n) (gs.filter (fun g => pmcKept.contains g.1)) (modPmc (scopeIndex sc) n (fun x => { x with frozen := false }) u))
      exact ⟨this.2.1, this.1⟩
  · intro m n u hm hn hne h
    refine ⟨fun g hgm hk => ?_, fun hcl => ?_⟩
    · have := h.1 g hgm hk
      have hdv := (hsp g.1 (by simpa using hk)).2.2.2
      unfold setting at this ⊢
      rw [pmcOne_settings, putGiven_keep _ _ ?_]
      · exact this
      · intro x hx
        obtain ⟨hx1, hx2⟩ := List.mem_filter.mp hx
        rw [hdv, (hsp x.1 (by simpa using hx2)).2.2.2]
        exact hkey m n hm hn hne x hx1 hx2 g hgm hk
    · have := h.2 hcl
      unfold cycOf pmcOf at this ⊢
      have e : ∀ k : Nat, k = scopeIndex sc * 16 + n → tabGet ({} : Pmc) (pmcOne sc gs m u).tine.pmc k = tabGet ({} : Pmc) u.tine.pmc k ∧ (pmcOne sc gs m u).tine.gatedAt = u.tine.gatedAt ∧ (pmcOne sc gs m u).tine.cycles = u.tine.cycles := by
        intro k hk
        unfold pmcOne pmcClear; dsimp only
        split
        · unfold modPmc; dsimp only
          rw [putGiven_tine]; dsimp only
          rw [tabGet_mod, if_neg (by omega), tabGet_mod, if_neg (by omega)]
          exact ⟨rfl, rfl, rfl⟩
        · rw [putGiven_tine]
          unfold modPmc; dsimp only
          rw [tabGet_mod, if_neg (by omega)]
          exact ⟨rfl, rfl, rfl⟩
      obtain ⟨e1, e2, e3⟩ := e _ rfl
      rw [e1, e2, e3]; exact this

theorem enterPair_st {s : State} (h : s.pair.yielding = none) : (enterPair s).pair.st = .standby := by
  unfold enterPair; dsimp only
  have e : (domainOn 47 (setPair .standby (modPair (fun p => { p with roleOut := false, outOfStep := true, stale := false, lastApplied := none, mirrorSeq := 0 }) s))).pair = { (modPair (fun p => { p with roleOut := false, outOfStep := true, stale := false, lastApplied := none, mirrorSeq := 0 }) s).pair with st := .standby } := setPair_pair _ _
  rw [gateLook_pair (by rw [e]; exact h), e]

theorem leavePair_st (s : State) : (leavePair s).pair.st = .solo := by
  unfold leavePair; dsimp only
  obtain ⟨s2, hs2⟩ : ∃ x, dropClaim (tetherFall (modPair (fun p => { p with snapping := false, snapshot := [] }) s)) = x := ⟨_, rfl⟩
  have hy : s2.pair.yielding = none := by rw [← hs2]; rfl
  rw [hs2]
  obtain ⟨s3, hs3⟩ : ∃ x, (if s2.pair.st = .active then leaveActive .solo s2 else setPair .solo s2) = x := ⟨_, rfl⟩
  have h3 : s3.pair.yielding = none ∧ s3.pair.st = .solo := by
    rw [← hs3]; split
    · rw [leaveActive_pair]; exact ⟨hy, rfl⟩
    · rw [setPair_pair]; exact ⟨hy, rfl⟩
  rw [hs3]
  have hr : ∀ u, (roleOutLook u).pair.yielding = u.pair.yielding ∧ (roleOutLook u).pair.st = u.pair.st := by
    intro u; unfold roleOutLook; split <;> exact ⟨rfl, rfl⟩
  rw [gateLook_pair (by rw [(hr _).1]; exact h3.1), (hr _).2]
  exact h3.2

theorem openDebug_sec (s : State) : (openDebug s).sec.challenge = s.sec.challenge ∧ (openDebug s).sec.debug = .authenticated := by
  unfold openDebug; dsimp only
  rw [show ∀ u, (raise 0x0E03 0 0 u).sec = u.sec from fun u => only_raise (ps := counting) (by decide) (Only.refl u) .sec (by decide)]
  refine ⟨?_, rfl⟩
  dsimp only
  split
  · rw [show ∀ u, (gateLook u).sec = u.sec from fun u => only_gateLook (ps := noset.erase .sec) (by decide) (Only.refl u) .sec (by decide)]
    dsimp only
    rw [show ∀ u, (eraseAll u).sec = u.sec from fun u => only_eraseSlots (ps := noset.erase .sec) (by decide) (Only.refl u) .sec (by decide)]
  · rfl

theorem drainLook_pwr (s : State) : (drainLook s).pwr.phase = s.pwr.phase ∧ (drainLook s).pwr.point = s.pwr.point ∧ (drainLook s).pwr.target = s.pwr.target ∧ (drainLook s).pwr.tag = s.pwr.tag := by
  unfold drainLook
  split
  · split <;> exact ⟨rfl, rfl, rfl, rfl⟩
  · exact ⟨rfl, rfl, rfl, rfl⟩

theorem enterState_pwr (target : PwrState) (tag : BitVec 16) (s : State) : (enterState target tag s).pwr.phase = .entering ∧ (enterState target tag s).pwr.point = 1 ∧ (enterState target tag s).pwr.target = target ∧ (enterState target tag s).pwr.tag = some tag := by
  unfold enterState; dsimp only
  obtain ⟨w, hw⟩ : ∃ w, raise 0x0201 0 (pwrCode target) (modPwr (fun p => { p with
    phase := .entering, target := target, point := 1, tag := some tag, runTags := []
    onAtE1 := if s.pwr.st == .run then p.on else p.onAtE1 ||| p.on
    latchedWas := p.latched, sigs := false, wake := none, intakeStopped := false
    noticeP := false, noticeS := false, noticeWait := false, drainWait := false
    chips := if s.pwr.st == .run then [] else p.chips }) s) = w := ⟨_, rfl⟩
  have h : w.pwr.phase = .entering ∧ w.pwr.point = 1 ∧ w.pwr.target = target ∧ w.pwr.tag = some tag := by
    rw [← hw, show ∀ u, (raise 0x0201 0 (pwrCode target) u).pwr = u.pwr from fun u => only_raise (ps := counting) (by decide) (Only.refl u) .pwr (by decide)]
    exact ⟨rfl, rfl, rfl, rfl⟩
  rw [hw]
  obtain ⟨h1, h2, h3, h4⟩ := drainLook_pwr (if (s.pwr.st == .run) = true then startNotices target w else w)
  rw [h1, h2, h3, h4]
  split
  · unfold startNotices; dsimp only
    split
    · rw [show ∀ (a : CtrId) b n u, (bump a b n u).pwr = u.pwr from fun a b n u => only_bump (ps := counting) (by decide) (Only.refl u) .pwr (by decide)]; exact h
    · have hq : ∀ L u, (each (queueNotice target false 0) L u).pwr = u.pwr := fun L u => only_each (ps := noset.erase .pwr) (fun _ _ h => only_queueNotice (by decide) h) (Only.refl u) .pwr (by decide)
      unfold modPwr; dsimp only; rw [hq]; exact h
  · exact h

theorem mem_maskBits {m : BitVec 64} {n : Nat} : n ∈ maskBits m ↔ n < 64 ∧ m.getLsbD n = true := by
  unfold maskBits; simp

theorem gating_bit {g : BitVec 64} (hg : g &&& 0x8000000000FF = 0) {n : Nat} (hn : n < 8 ∨ n = 47) : g.getLsbD n = false := by
  have h := congrArg (·.getLsbD n) hg
  have hM : ∀ k : Nat, k < 48 → (k < 8 ∨ k = 47) → (0x8000000000FF#64).getLsbD k = true := by decide
  have hm := hM n (by omega) hn
  simp only [BitVec.getLsbD_and, BitVec.getLsbD_zero] at h
  rw [show (0x8000000000FF : BitVec 64).getLsbD n = true from hm] at h
  simpa using h

theorem bit_or {a : BitVec 64} {n i : Nat} (hi : i < 64) : (a ||| (1#64 <<< n)).getLsbD i = (a.getLsbD i || decide (i = n)) := by
  simp only [BitVec.getLsbD_or, BitVec.getLsbD_shiftLeft, hi, decide_true, Bool.true_and, BitVec.getLsbD_one]
  congr 1
  by_cases h : i = n
  · subst h; simp
  · by_cases h2 : i < n
    · simp [h, h2]
    · simp [h]; omega

theorem bit_clear {a : BitVec 64} {n i : Nat} (hi : i < 64) : (a &&& ~~~(1#64 <<< n)).getLsbD i = (a.getLsbD i && !decide (i = n)) := by
  have := bit_or (a := 0#64) (n := n) hi
  simp only [BitVec.getLsbD_and, BitVec.getLsbD_not, hi, decide_true, Bool.true_and]
  rw [show (0#64 ||| (1#64 <<< n)) = 1#64 <<< n from by simp] at this
  rw [this]; simp

theorem gateOn_pad {failed : BitVec 64} (hz : failed = 0) {n : Nat} {s : State} (hn : n < 8 ∨ n = 47) (hg : s.pwr.gating &&& 0x8000000000FF = 0) :
    (gateOn failed n s).pwr.gating = s.pwr.gating ∧ (gateOn failed n s).pwr.on = s.pwr.on ||| (1#64 <<< n) := by
  unfold gateOn
  rw [if_neg (by rw [gating_bit hg hn]; exact Bool.false_ne_true)]
  split
  · rename_i h
    refine ⟨rfl, ?_⟩
    apply BitVec.eq_of_getLsbD_eq
    intro i hi
    rw [bit_or hi]
    by_cases e : i = n
    · subst e; rw [h]; rfl
    · simp [e]
  · dsimp only
    rw [if_neg (by omega), if_neg (by omega)]
    unfold failBanks
    subst hz
    rw [show ∀ d, (banksOf d).filter (fun k => (0 : BitVec 64).getLsbD k) = [] from fun d => by simp]
    exact ⟨rfl, rfl⟩

theorem gateOff_pad {tag : BitVec 16} {n : Nat} {s : State} (hn : n < 8 ∨ n = 47) (hg : s.pwr.gating &&& 0x8000000000FF = 0) :
    (gateOff tag n s).pwr.gating = s.pwr.gating ∧ (gateOff tag n s).pwr.on = s.pwr.on &&& ~~~(1#64 <<< n) := by
  unfold gateOff
  rw [gating_bit hg hn]
  split
  · rename_i h
    refine ⟨rfl, ?_⟩
    apply BitVec.eq_of_getLsbD_eq
    intro i hi
    rw [bit_clear hi]
    have h : s.pwr.on.getLsbD n = false := by simpa using h
    by_cases e : i = n
    · subst e; rw [h]; rfl
    · simp [e]
  · exact ⟨rfl, rfl⟩

theorem gateOn_each {failed : BitVec 64} (hz : failed = 0) : ∀ (L : List Nat) (s : State), (∀ n ∈ L, n < 8 ∨ n = 47) → s.pwr.gating &&& 0x8000000000FF = 0 →
    (each (gateOn failed) L s).pwr.gating = s.pwr.gating ∧ ∀ i, i < 64 → (each (gateOn failed) L s).pwr.on.getLsbD i = (s.pwr.on.getLsbD i || decide (i ∈ L)) := by
  intro L
  induction L with
  | nil => intro s _ _; exact ⟨rfl, fun i _ => by simp [each]⟩
  | cons n L ih =>
    intro s hL hg
    obtain ⟨h1, h2⟩ := gateOn_pad (failed := failed) hz (hL n (by simp)) hg
    obtain ⟨h3, h4⟩ := ih (gateOn failed n s) (fun m hm => hL m (by simp [hm])) (by rw [h1]; exact hg)
    rw [each]
    refine ⟨h3.trans h1, fun i hi => ?_⟩
    rw [h4 i hi, h2, bit_or hi]
    simp [Bool.or_assoc]

theorem gateOff_each {tag : BitVec 16} : ∀ (L : List Nat) (s : State), (∀ n ∈ L, n < 8 ∨ n = 47) → s.pwr.gating &&& 0x8000000000FF = 0 →
    (each (gateOff tag) L s).pwr.gating = s.pwr.gating ∧ ∀ i, i < 64 → (each (gateOff tag) L s).pwr.on.getLsbD i = (s.pwr.on.getLsbD i && !decide (i ∈ L)) := by
  intro L
  induction L with
  | nil => intro s _ _; exact ⟨rfl, fun i _ => by simp [each]⟩
  | cons n L ih =>
    intro s hL hg
    obtain ⟨h1, h2⟩ := gateOff_pad (tag := tag) (hL n (by simp)) hg
    obtain ⟨h3, h4⟩ := ih (gateOff tag n s) (fun m hm => hL m (by simp [hm])) (by rw [h1]; exact hg)
    rw [each]
    refine ⟨h3.trans h1, fun i hi => ?_⟩
    rw [h4 i hi, h2, bit_clear hi]
    simp [Bool.and_assoc]

theorem commitNow_cls (s : State) (v : Reeve) : let c := (commitNow none { s with reeve := v }).cls
    c.newest = s.cls.newest + 1 ∧ c.old = s.cls.cur ∧
      c.cur = { graph := if s.cls.stGraph.isSome then s.cls.stGraph else s.cls.cur.graph, pats := s.cls.stPats.getD s.cls.cur.pats, deflt := s.cls.stDeflt.getD s.cls.cur.deflt } ∧
      c.st = if s.cls.inNew = 0 then .sweeping else .twoLive := by
  unfold commitNow; dsimp only
  obtain ⟨w, hw⟩ : ∃ w, raise 0x0901 0 (modCls (fun c => { c with
    st := .twoLive, newest := c.newest + 1, old := c.cur, cur := { graph := if s.cls.stGraph.isSome then s.cls.stGraph else s.cls.cur.graph, pats := s.cls.stPats.getD s.cls.cur.pats, deflt := s.cls.stDeflt.getD s.cls.cur.deflt }, inOld := c.inNew, inNew := 0,
    stGraph := none, stPats := none, stDeflt := none, ternOps := 0, emOps := 0, commit := none,
    retireSlow := false }) { s with reeve := v }).cls.newest.toNat (bump cCommits scDevice 1 (modCls (fun c => { c with
    st := .twoLive, newest := c.newest + 1, old := c.cur, cur := { graph := if s.cls.stGraph.isSome then s.cls.stGraph else s.cls.cur.graph, pats := s.cls.stPats.getD s.cls.cur.pats, deflt := s.cls.stDeflt.getD s.cls.cur.deflt }, inOld := c.inNew, inNew := 0,
    stGraph := none, stPats := none, stDeflt := none, ternOps := 0, emOps := 0, commit := none,
    retireSlow := false }) { s with reeve := v })) = w := ⟨_, rfl⟩
  rw [show (raise 0x0901 0 _ _) = w from hw]
  have hc : w.cls.newest = s.cls.newest + 1 ∧ w.cls.old = s.cls.cur ∧ w.cls.cur = { graph := if s.cls.stGraph.isSome then s.cls.stGraph else s.cls.cur.graph, pats := s.cls.stPats.getD s.cls.cur.pats, deflt := s.cls.stDeflt.getD s.cls.cur.deflt } ∧ w.cls.st = .twoLive ∧ w.cls.inOld = s.cls.inNew := by
    rw [← hw, show ∀ (a : BitVec 16) b d u, (raise a b d u).cls = u.cls from fun a b d u => only_raise (ps := counting) (by decide) (Only.refl u) .cls (by decide), bump_cls]
    exact ⟨rfl, rfl, rfl, rfl, rfl⟩
  obtain ⟨h1, h2, h3, h4, h5⟩ := hc
  unfold retireLook
  rw [h4, h5]
  by_cases hi : s.cls.inNew = 0
  · rw [if_pos ⟨rfl, hi⟩, if_pos hi, bump_cls]
    exact ⟨h1, h2, h3, rfl⟩
  · rw [if_neg (fun h => hi h.2), if_neg hi]
    exact ⟨h1, h2, h3, h4⟩

theorem outFollow_selected (o : Option Int) (u : State) : (outFollow o u).time.selected = u.time.selected := by
  unfold outFollow; split <;> rfl

theorem outRunOn_selected (o : Option Int) (y : Int) (u : State) : (outRunOn o y u).time.selected = u.time.selected := by
  unfold outRunOn; split <;> rfl

theorem raise_selected (a : BitVec 16) (b d : Nat) (u : State) : (raise a b d u).time = u.time := only_raise (ps := counting) (by decide) (Only.refl u) .time (by decide)

theorem outTake_selected (u : State) : (outTake u).time.selected = u.time.selected := by
  unfold outTake outStepped; rw [raise_selected]; rfl

theorem binsStep_selected (v u : State) : (binsStep v u).time = u.time := only_binsStep (ps := noset.erase .time) (by decide) (Only.refl u) .time (by decide)

theorem selectDomain_selected (d : Nat) (step : Bool) (s : State) : (selectDomain d step s).time.selected = d := by
  unfold selectDomain; dsimp only
  split
  · rename_i h
    rw [Bool.and_eq_true, decide_eq_true_iff] at h
    exact h.1.symm
  rw [timeLook_dom.2]
  obtain ⟨s2, hs2⟩ : ∃ s2, (if d = s.time.selected then { s with time := { s.time with selected := d, stepDue := false } } else raise 0x0608 0 d { s with time := { s.time with selected := d, stepDue := false } }) = s2 := ⟨_, rfl⟩
  have h2 : s2.time.selected = d := by
    rw [← hs2]; split
    · rfl
    · rw [raise_selected]
  rw [hs2]
  split
  · split
    · rw [outTake_selected]; exact h2
    · exact h2
  · split
    · split
      · rw [binsStep_selected, outTake_selected]; exact h2
      · dsimp only; rw [outRunOn_selected]; exact h2
    · split
      · rw [outFollow_selected]; exact h2
      · rw [outRunOn_selected]; exact h2

theorem actClear_insts (i : Nat) (s : State) : ∀ k, instOf (actClear i none s) k = if k = i then { instOf s i with terminalId := 0xFFFF, opRev := 0, txQueue := [], lastAck := none, todo := (instOf (actClear i none s) i).todo, tidBurst := 0xFFFF, toProfile := false, toRange := false, toHold := false, toTune := false } else instOf s k := by
  intro k
  unfold actClear; dsimp only
  have hc : ∀ u k, instOf (clearEqd i u) k = instOf u k := fun u k =>
    inst_of_act (congrArg _ (act_of (only_clearEqd (ps := [.us]) (by decide) (Only.refl u)) (by decide))) k
  have hr : ∀ L u k, instOf (each removeLot L u) k = instOf u k := fun L u k => inst_of_act (congrArg _ removeLots_act) k
  have h : ∀ (u : State) (pl : Tab Nat) k, instOf ({ u with act := { u.act with plots := pl } } : State) k = instOf u k := fun _ _ _ => rfl
  simp only [hc, clearRtt_inst, hr, h, instOf_modInst]
  by_cases e : k = i
  · simp [e]
  · simp [e]

theorem gateLook_insts {s : State} (k : Nat) : instOf (gateLook s) k = instOf s k :=
  inst_of_act (congrArg _ (act_of (only_gateLook (ps := [.us, .sup, .qos, .ports, .pwr, .pair, .life, .win, .i3c, .reeve, .counters, .freeCtr]) (by decide) (Only.refl s)) (by decide))) k

theorem actStop_insts (i : Nat) (s : State) : (∀ k, k ≠ i → instOf (actStop i s) k = instOf s k) ∧
    (instOf (actStop i s) i).enabled = false ∧ (instOf (actStop i s) i).st = if (instOf s i).st = .silenced then .silenced else .listen := by
  obtain ⟨s1, hs1⟩ : ∃ s1, modInst i (fun x => { x with enabled := false, silencePending := none }) s = s1 := ⟨_, rfl⟩
  have h1 : (∀ k, k ≠ i → instOf s1 k = instOf s k) ∧ (instOf s1 i).enabled = false ∧ (instOf s1 i).st = (instOf s i).st := by
    rw [← hs1]
    refine ⟨fun k hk => by rw [instOf_modInst, if_neg hk], ?_, ?_⟩
    · rw [instOf_modInst, if_pos rfl]
    · rw [instOf_modInst, if_pos rfl]
  unfold actStop; dsimp only
  rw [hs1]
  by_cases hx : (instOf s i).st = .silenced
  · rw [if_pos hx, if_pos hx]
    refine ⟨fun k hk => ?_, ?_, ?_⟩
    · rw [gateLook_insts, instOf_modInst, if_neg hk, actClear_insts, if_neg hk]; exact h1.1 k hk
    · rw [gateLook_insts, instOf_modInst, if_pos rfl, actClear_insts, if_pos rfl]; exact h1.2.1
    · rw [gateLook_insts, instOf_modInst, if_pos rfl, actClear_insts, if_pos rfl]; exact h1.2.2.trans hx
  · rw [if_neg hx, if_neg hx]
    obtain ⟨s2, hs2⟩ : ∃ s2, (if (instOf s i).st = .tuning then modUsLane (instOf s i).tuneLane (fun l => { l with tuneStep := 0 }) s1 else s1) = s2 := ⟨_, rfl⟩
    rw [hs2]
    have h2 : ∀ k, instOf s2 k = instOf s1 k := by
      intro k; rw [← hs2]; split <;> rfl
    unfold toListen
    obtain ⟨ha, td, sb, tb, hb, _⟩ := @setAct_inst i .listen none (actClear i none s2)
    refine ⟨fun k hk => ?_, ?_, ?_⟩
    · rw [ha k hk, actClear_insts, if_neg hk, h2]; exact h1.1 k hk
    · rw [hb]; dsimp only; rw [actClear_insts, if_pos rfl]; dsimp only; rw [h2]; exact h1.2.1
    · rw [hb]

theorem stopEach : ∀ (L : List Nat) (s : State), L.Nodup → ∀ i ∈ L, (instOf (each actStop L s) i).enabled = false ∧ (instOf (each actStop L s) i).st = if (instOf s i).st = .silenced then .silenced else .listen := by
  have keep : ∀ (L : List Nat) (s : State) (i : Nat), i ∉ L → instOf (each actStop L s) i = instOf s i := by
    intro L; induction L with
    | nil => intro s i _; rfl
    | cons a L ih =>
      intro s i hi
      rw [each, ih _ i (fun h => hi (by simp [h])), (actStop_insts a s).1 i (fun e => hi (by simp [e]))]
  intro L; induction L with
  | nil => intro s _ i hi; cases hi
  | cons a L ih =>
    intro s hn i hi
    obtain ⟨n1, n2⟩ := List.nodup_cons.mp hn
    rw [each]
    rcases List.mem_cons.mp hi with rfl | hi
    · rw [keep L _ i n1]; exact (actStop_insts i s).2
    · have := ih (actStop a s) n2 i hi
      rw [(actStop_insts a s).1 i (fun e => n1 (e ▸ hi))] at this
      exact this

theorem declines {op : Nat} {b : CmdBody} {i : Instr} {c : Cmd} {s : State} {st : Nat}
    (hi : exec i s = .next (runCmd op b c s)) (hr : reeveRuns s = true) (hm : c.src = .mailbox)
    (h3 : 2 ≤ st ∧ st ≤ 7) (hc : ∀ v, cmdCheck op c { s with reeve := v } = some st) : Declines i op c st s := by
  obtain ⟨v, hv⟩ := untake_reeve op c s
  obtain ⟨r, hrr⟩ : ∃ r, (refuse st 0 0 s).1 = r := ⟨_, rfl⟩
  have hrun : runCmd op b c s = answer op c r (untake op c s) := by
    unfold runCmd
    rw [hr, hm]; dsimp only
    rw [hv, hc v]; dsimp only
    rw [← hrr]
    rfl
  obtain ⟨hA, hO⟩ := answer_mailbox (op := op) (r := r) (s := untake op c s) hm
  refine ⟨_, r.payload, by rw [hi, hrun], ?_, ?_, ?_⟩
  · have : r.status = st := by rw [← hrr]; rfl
    rw [this] at hA; exact hA
  · rw [← hrr]; unfold refuse; dsimp only
    by_cases h : 4 ≤ st
    · rw [if_pos ⟨h, h3.2⟩, if_pos h]; rfl
    · rw [if_neg (by omega), if_neg h]; rfl
  · rw [hv] at hO ⊢; exact host_of hO

theorem asCommand_runs {i : Instr} {op : Nat} {c : Cmd} (h : asCommand i = some (op, c)) : ∃ b : CmdBody, ∀ s, exec i s = .next (runCmd op b c s) := by
  cases i <;> first | (cases h; done) | (cases h; exact ⟨_, fun _ => rfl⟩)

theorem raise_faults (code : BitVec 16) (idx data : Nat) (s : State) : (raise code idx data s).i3c.dynAddr = s.i3c.dynAddr ∧
    (raise code idx data s).reeve.lockstepErr = s.reeve.lockstepErr ∧ (raise code idx data s).reeve.wdog = s.reeve.wdog ∧ (raise code idx data s).reeve.halted = s.reeve.halted := by
  unfold raise postEvent
  split
  · unfold pushEvent setInt requestIbi; dsimp only; split <;> exact ⟨rfl, rfl, rfl, rfl⟩
  · exact ⟨rfl, rfl, rfl, rfl⟩

theorem sysReset_keeps (s : State) : (sysReset s).i3c.dynAddr = s.i3c.dynAddr ∧ (sysReset s).clk.timeline = s.clk.timeline ∧
    (sysReset s).clk.era = s.clk.era ∧ (sysReset s).sec.unlockFail = s.sec.unlockFail ∧ (sysReset s).reeve.lockstepErr = false ∧
    (sysReset s).reeve.wdog = false ∧ (sysReset s).reeve.halted = false := by
  obtain ⟨d, hd⟩ : ∃ d, romStart true (deviceReset true s) = d := ⟨_, rfl⟩
  have d1 : d.i3c.dynAddr = s.i3c.dynAddr ∧ d.clk.timeline = s.clk.timeline ∧ d.clk.era = s.clk.era ∧ d.sec.unlockFail = s.sec.unlockFail ∧
      d.reeve.lockstepErr = false ∧ d.reeve.wdog = false ∧ d.reeve.halted = false := by
    rw [← hd]; exact ⟨rfl, rfl, rfl, rfl, rfl, rfl, rfl⟩
  obtain ⟨r, hr⟩ : ∃ r, restoreBins d = r := ⟨_, rfl⟩
  have ho : Only [.sup, .life] d r := hr ▸ only_restoreBins (List.Subset.refl _) (Only.refl d)
  have hi : r.i3c = d.i3c := ho .i3c (by decide)
  have hc : r.clk = d.clk := ho .clk (by decide)
  have hs : r.sec = d.sec := ho .sec (by decide)
  have hv : r.reeve = d.reeve := ho .reeve (by decide)
  have e : sysReset s = r ∨ sysReset s = raise 0x0E01 0 0 r := by
    unfold sysReset bootUp; dsimp only
    rw [hd, hr]
    split
    · exact .inr rfl
    · exact .inl rfl
  obtain ⟨f1, f2, f3, f4⟩ := raise_faults 0x0E01 0 0 r
  have fo : Only raising r (raise 0x0E01 0 0 r) := only_raise (List.Subset.refl _) (Only.refl r)
  rcases e with e | e <;> rw [e]
  · rw [hi, hc, hs, hv]; exact d1
  · rw [f1, f2, f3, f4, show (raise 0x0E01 0 0 r).clk = r.clk from fo .clk (by decide), show (raise 0x0E01 0 0 r).sec = r.sec from fo .sec (by decide), hi, hc, hs, hv]; exact d1

theorem fails {op : Nat} {b : CmdBody} {i : Instr} {c : Cmd} {s : State} {st code idx : Nat}
    (hi : exec i s = .next (runCmd op b c s)) (ha : Accepted op c s) (h3 : 2 ≤ st ∧ st ≤ 7)
    (hb : ∀ v, b { payload := c.payload, tag := c.tag } { s with reeve := v } = refuse st code idx { s with reeve := v }) : Declines i op c st s := by
  obtain ⟨v, hv⟩ := untake_reeve op c s
  obtain ⟨r, hrr⟩ : ∃ r, (refuse st code idx { s with reeve := v }).1 = r := ⟨_, rfl⟩
  have hrun : runCmd op b c s = answer op c r { s with reeve := v } := by
    refine runCmd_answers ha ?_ (by rw [← hrr]; rfl)
    rw [hv, hb v, ← hrr]; rfl
  obtain ⟨hA, hO⟩ := answer_mailbox (op := op) (r := r) (s := { s with reeve := v }) ha.2.1
  refine ⟨_, r.payload, by rw [hi, hrun], ?_, ?_, ?_⟩
  · have : r.status = st := by rw [← hrr]; rfl
    rw [this] at hA; exact hA
  · rw [← hrr]; unfold refuse; dsimp only
    by_cases h : 4 ≤ st
    · rw [if_pos ⟨h, h3.2⟩, if_pos h]; simp [natBytes]
    · rw [if_neg (by omega), if_neg h]; rfl
  · exact host_of hO

theorem four_none {α : Type} {a b c d : Prop} [Decidable a] [Decidable b] [Decidable c] [Decidable d] {w x y z : α}
    (h : (if a then some w else if b then some x else if c then some y else if d then some z else none) = none) : ¬ a ∧ ¬ b ∧ ¬ c ∧ ¬ d := by
  split at h; · cases h
  split at h; · cases h
  split at h; · cases h
  split at h; · cases h
  exact ⟨‹_›, ‹_›, ‹_›, ‹_›⟩

end Sys2Proof.Machine
end

