-- ==== Sys2Proof/Laws/Frame1.lean ====
section
/-! SUPPORT. The frames of the commands, part 1 of 5, LosDeclare to LinkUpDelayExpiry: which parts of the
state each may change. -/
-- One list of alternatives serves every lemma below; not every lemma uses each of them.
set_option linter.unusedTactic false
set_option linter.unreachableTactic false
namespace Sys2Proof.Machine
variable {ps : List Part} {s t : State}

theorem only_execLosDeclare {lane : Fin 4} (hp : [.lanes, .sup, .win, .i3c, .reeve, .counters] ⊆ ps) (h : execLosDeclare lane s = .next t) :
    Only ps s t := by
  have hk : Only ps s s := Only.refl s
  unfold execLosDeclare at h
  (try dsimp only at h)
  all_goals (repeat' split at h)
  all_goals (have h := Host.Outcome.next.inj h; subst h; repeat' first
      | with_reducible assumption | with_reducible exact fun _ h => h | with_reducible intro _
      | exact trivial | with_reducible apply only_ite | with_reducible apply only_ite2
      | with_reducible apply only_modLane | with_reducible apply only_setLaneDefect
      | refine only_snd (by assumption) ?_ | split | dsimp only
      | exact List.Subset.trans (by decide) hp | exact hp (by decide)
      | exact Only.step hp (by assumption) (fun p q => by cases p <;> first | rfl | exact absurd (by decide) q))

theorem only_execLosClear {lane : Fin 4} (hp : [.lanes, .sup, .win, .i3c, .reeve, .counters] ⊆ ps) (h : execLosClear lane s = .next t) :
    Only ps s t := by
  have hk : Only ps s s := Only.refl s
  unfold execLosClear at h
  (try dsimp only at h)
  all_goals (repeat' split at h)
  all_goals (have h := Host.Outcome.next.inj h; subst h; repeat' first
      | with_reducible assumption | with_reducible exact fun _ h => h | with_reducible intro _
      | exact trivial | with_reducible apply only_ite | with_reducible apply only_ite2
      | with_reducible apply only_modLane | with_reducible apply only_setLaneDefect
      | refine only_snd (by assumption) ?_ | split | dsimp only
      | exact List.Subset.trans (by decide) hp | exact hp (by decide)
      | exact Only.step hp (by assumption) (fun p q => by cases p <;> first | rfl | exact absurd (by decide) q))

theorem only_execLolDeclare {lane : Fin 4} (hp : [.sup, .win, .i3c, .reeve, .counters] ⊆ ps) (h : execLolDeclare lane s = .next t) :
    Only ps s t := by
  have hk : Only ps s s := Only.refl s
  unfold execLolDeclare at h
  (try dsimp only at h)
  all_goals (repeat' split at h)
  all_goals (have h := Host.Outcome.next.inj h; subst h; repeat' first
      | with_reducible assumption | with_reducible exact fun _ h => h | with_reducible intro _
      | exact trivial | with_reducible apply only_ite | with_reducible apply only_ite2
      | with_reducible apply only_setLaneDefect | refine only_snd (by assumption) ?_ | split
      | dsimp only | exact List.Subset.trans (by decide) hp | exact hp (by decide)
      | exact Only.step hp (by assumption) (fun p q => by cases p <;> first | rfl | exact absurd (by decide) q))

theorem only_execLolClear {lane : Fin 4} (hp : [.sup, .win, .i3c, .reeve, .counters] ⊆ ps) (h : execLolClear lane s = .next t) :
    Only ps s t := by
  have hk : Only ps s s := Only.refl s
  unfold execLolClear at h
  (try dsimp only at h)
  all_goals (repeat' split at h)
  all_goals (have h := Host.Outcome.next.inj h; subst h; repeat' first
      | with_reducible assumption | with_reducible exact fun _ h => h | with_reducible intro _
      | exact trivial | with_reducible apply only_ite | with_reducible apply only_ite2
      | with_reducible apply only_setLaneDefect | refine only_snd (by assumption) ?_ | split
      | dsimp only | exact List.Subset.trans (by decide) hp | exact hp (by decide)
      | exact Only.step hp (by assumption) (fun p q => by cases p <;> first | rfl | exact absurd (by decide) q))

theorem only_execRdiEvaluation  (hp : [.act, .sup, .life, .win, .i3c, .reeve, .counters] ⊆ ps) (h : (execRdiEvaluation s) = .next t) :
    Only ps s t := by
  have hk : Only ps s s := Only.refl s
  unfold execRdiEvaluation at h
  (try dsimp only at h)
  all_goals (repeat' split at h)
  all_goals (have h := Host.Outcome.next.inj h; subst h; repeat' first
      | with_reducible assumption | with_reducible exact fun _ h => h | with_reducible intro _
      | exact trivial | with_reducible apply only_ite | with_reducible apply only_ite2
      | with_reducible apply only_each | with_reducible apply only_holdOffLook
      | with_reducible apply only_rdiEvaluate | refine only_snd (by assumption) ?_ | split
      | dsimp only | exact List.Subset.trans (by decide) hp | exact hp (by decide)
      | exact Only.step hp (by assumption) (fun p q => by cases p <;> first | rfl | exact absurd (by decide) q))

theorem only_execBinSecondEnd  (hp : [.sup, .win, .i3c, .reeve, .counters] ⊆ ps)
    (h : execBinSecondEnd s = .next t) : Only ps s t := by
  have hk : Only ps s s := Only.refl s
  unfold execBinSecondEnd at h
  have h := Host.Outcome.next.inj h
  subst h
  refine only_f_sup (hp (by decide)) ?_
  repeat' first
    | with_reducible assumption | with_reducible intro _ | with_reducible apply only_ite
    | with_reducible apply only_each | with_reducible apply only_binAdd
    | with_reducible apply only_laneSecond | with_reducible apply only_modSupDom
    | with_reducible apply only_modSupInst | dsimp only
    | exact List.Subset.trans (by decide) hp

theorem only_execRootPllLock  (hp : [.clk, .win, .i3c, .reeve, .counters] ⊆ ps) (h : execRootPllLock s = .next t) :
    Only ps s t := by
  have hk : Only ps s s := Only.refl s
  unfold execRootPllLock at h
  (try dsimp only at h)
  all_goals (repeat' split at h)
  all_goals (have h := Host.Outcome.next.inj h; subst h; repeat' first
      | with_reducible assumption | with_reducible exact fun _ h => h | with_reducible intro _
      | exact trivial | with_reducible apply only_ite | with_reducible apply only_ite2
      | with_reducible apply only_refLook | refine only_snd (by assumption) ?_ | split
      | dsimp only | with_reducible apply only_f_clk | exact List.Subset.trans (by decide) hp
      | exact hp (by decide)
      | exact Only.step hp (by assumption) (fun p q => by cases p <;> first | rfl | exact absurd (by decide) q))

theorem only_execRefclkLost  (hp : [.clk, .us, .sup, .qos, .ports, .pwr, .pair, .life, .win, .i3c, .reeve, .counters, .freeCtr] ⊆ ps) (h : execRefclkLost s = .next t) :
    Only ps s t := by
  have hk : Only ps s s := Only.refl s
  unfold execRefclkLost at h
  (try dsimp only at h)
  all_goals (repeat' split at h)
  all_goals (have h := Host.Outcome.next.inj h; subst h; repeat' first
      | with_reducible assumption | with_reducible exact fun _ h => h | with_reducible intro _
      | exact trivial | with_reducible apply only_ite | with_reducible apply only_ite2
      | with_reducible apply only_each | with_reducible apply only_gateLook
      | with_reducible apply only_modUsLane | with_reducible apply only_raise
      | refine only_snd (by assumption) ?_ | split | dsimp only | with_reducible apply only_f_clk
      | exact List.Subset.trans (by decide) hp | exact hp (by decide)
      | exact Only.step hp (by assumption) (fun p q => by cases p <;> first | rfl | exact absurd (by decide) q))

theorem only_execRefclkReturn  (hp : [.clk, .us] ⊆ ps) (h : execRefclkReturn s = .next t) :
    Only ps s t := by
  have hk : Only ps s s := Only.refl s
  unfold execRefclkReturn at h
  (try dsimp only at h)
  all_goals (repeat' split at h)
  all_goals (have h := Host.Outcome.next.inj h; subst h; repeat' first
      | with_reducible assumption | with_reducible exact fun _ h => h | with_reducible intro _
      | exact trivial | with_reducible apply only_ite | with_reducible apply only_ite2
      | with_reducible apply only_each | with_reducible apply only_modUsLane
      | refine only_snd (by assumption) ?_ | split | dsimp only | with_reducible apply only_f_clk
      | exact List.Subset.trans (by decide) hp | exact hp (by decide)
      | exact Only.step hp (by assumption) (fun p q => by cases p <;> first | rfl | exact absurd (by decide) q))

theorem only_execTimelineWrap  (hp : [.clk] ⊆ ps) (h : (execTimelineWrap s) = .next t) :
    Only ps s t := by
  have hk : Only ps s s := Only.refl s
  unfold execTimelineWrap at h
  (try dsimp only at h)
  all_goals (repeat' split at h)
  all_goals (have h := Host.Outcome.next.inj h; subst h; repeat' first
      | with_reducible assumption | with_reducible exact fun _ h => h | with_reducible intro _
      | exact trivial | with_reducible apply only_ite | with_reducible apply only_ite2
      | with_reducible apply only_advance | refine only_snd (by assumption) ?_ | split | dsimp only
      | exact List.Subset.trans (by decide) hp | exact hp (by decide)
      | exact Only.step hp (by assumption) (fun p q => by cases p <;> first | rfl | exact absurd (by decide) q))

theorem only_execDiscardHoldover  (hp : [.clk, .win, .i3c, .reeve, .counters] ⊆ ps) (h : execDiscardHoldover s = .next t) :
    Only ps s t := by
  have hk : Only ps s s := Only.refl s
  unfold execDiscardHoldover at h
  (try dsimp only at h)
  all_goals (repeat' split at h)
  all_goals (have h := Host.Outcome.next.inj h; subst h; repeat' first
      | with_reducible assumption | with_reducible exact fun _ h => h | with_reducible intro _
      | exact trivial | with_reducible apply only_ite | with_reducible apply only_ite2
      | with_reducible apply only_setRef | refine only_snd (by assumption) ?_ | split | dsimp only
      | with_reducible apply only_f_clk | exact List.Subset.trans (by decide) hp
      | exact hp (by decide)
      | exact Only.step hp (by assumption) (fun p q => by cases p <;> first | rfl | exact absurd (by decide) q))

theorem only_execHoldOffExpiry {inst : Fin 2} (hp : [.act, .sup, .life, .win, .i3c, .reeve, .counters] ⊆ ps) (h : execHoldOffExpiry inst s = .next t) :
    Only ps s t := by
  have hk : Only ps s s := Only.refl s
  unfold execHoldOffExpiry at h
  (try dsimp only at h)
  all_goals (repeat' split at h)
  all_goals (have h := Host.Outcome.next.inj h; subst h; repeat' first
      | with_reducible assumption | with_reducible exact fun _ h => h | with_reducible intro _
      | exact trivial | with_reducible apply only_ite | with_reducible apply only_ite2
      | with_reducible apply only_holdOffRequest | refine only_snd (by assumption) ?_ | split
      | dsimp only | exact List.Subset.trans (by decide) hp | exact hp (by decide)
      | exact Only.step hp (by assumption) (fun p q => by cases p <;> first | rfl | exact absurd (by decide) q))

theorem only_execCodewordDecoded {lane : Fin 4} {start : BitVec 64} {word : BitVec 5440} (hp :
    [.clk, .lanes, .groups, .lots, .reasm, .us, .act, .sup, .qos, .cls, .ports, .pwr, .pair, .life,
    .win, .i3c, .reeve, .counters, .freeCtr] ⊆ ps) (h : (execCodewordDecoded lane start word s) = .next t) :
    Only ps s t := by
  have hk : Only ps s s := Only.refl s
  unfold execCodewordDecoded at h
  (try dsimp only at h)
  all_goals (repeat' split at h)
  all_goals (have h := Host.Outcome.next.inj h; subst h; repeat' first
      | with_reducible assumption | with_reducible exact fun _ h => h | with_reducible intro _
      | exact trivial | with_reducible apply only_ite | with_reducible apply only_ite2
      | with_reducible apply only_catchUp | with_reducible apply only_lockedCw
      | with_reducible apply only_lockedCw0 | with_reducible apply only_resumeCodeword
      | with_reducible apply only_verifyCodeword | refine only_snd (by assumption) ?_ | split
      | dsimp only | exact List.Subset.trans (by decide) hp | exact hp (by decide)
      | exact Only.step hp (by assumption) (fun p q => by cases p <;> first | rfl | exact absurd (by decide) q))

theorem only_execCw0NotReceived {lane : Fin 4} {start : BitVec 64} (hp : [.clk, .lanes, .groups, .lots, .reasm, .us, .act, .sup, .qos, .cls, .ports, .pwr, .pair, .life, .win, .i3c, .reeve, .counters, .freeCtr] ⊆ ps) (h : execCw0NotReceived lane start s = .next t) :
    Only ps s t := by
  have hk : Only ps s s := Only.refl s
  unfold execCw0NotReceived at h
  (try dsimp only at h)
  all_goals (repeat' split at h)
  all_goals (have h := Host.Outcome.next.inj h; subst h; repeat' first
      | with_reducible assumption | with_reducible exact fun _ h => h | with_reducible intro _
      | exact trivial | with_reducible apply only_ite | with_reducible apply only_ite2
      | with_reducible apply only_bump | with_reducible apply only_catchUp
      | with_reducible apply only_missCw0 | with_reducible apply only_putSlots
      | refine only_snd (by assumption) ?_ | split | dsimp only
      | exact List.Subset.trans (by decide) hp | exact hp (by decide)
      | exact Only.step hp (by assumption) (fun p q => by cases p <;> first | rfl | exact absurd (by decide) q))

theorem only_execRawMarkerMatch {lane : Fin 4} {lastBit : BitVec 64} (hp : [.lanes, .sup, .life,
    .win, .i3c, .reeve, .counters] ⊆ ps) (h : (execRawMarkerMatch lane lastBit s) = .next t) :
    Only ps s t := by
  have hk : Only ps s s := Only.refl s
  unfold execRawMarkerMatch at h
  (try dsimp only at h)
  all_goals (repeat' split at h)
  all_goals (have h := Host.Outcome.next.inj h; subst h; repeat' first
      | with_reducible assumption | with_reducible exact fun _ h => h | with_reducible intro _
      | exact trivial | with_reducible apply only_ite | with_reducible apply only_ite2
      | with_reducible apply only_bump | with_reducible apply only_putSlots
      | refine only_snd (by assumption) ?_ | split | dsimp only
      | exact List.Subset.trans (by decide) hp | exact hp (by decide)
      | exact Only.step hp (by assumption) (fun p q => by cases p <;> first | rfl | exact absurd (by decide) q))

theorem only_execResumeTimeout {lane : Fin 4} (hp : [.clk, .lanes, .groups, .lots, .reasm, .us, .act, .sup, .qos, .ports, .pwr, .pair, .life, .win, .i3c, .reeve, .counters, .freeCtr] ⊆ ps) (h : execResumeTimeout lane s = .next t) :
    Only ps s t := by
  have hk : Only ps s s := Only.refl s
  unfold execResumeTimeout at h
  (try dsimp only at h)
  all_goals (repeat' split at h)
  all_goals (have h := Host.Outcome.next.inj h; subst h; repeat' first
      | with_reducible assumption | with_reducible exact fun _ h => h | with_reducible intro _
      | exact trivial | with_reducible apply only_ite | with_reducible apply only_ite2
      | with_reducible apply only_loseLock | refine only_snd (by assumption) ?_ | split
      | dsimp only | exact List.Subset.trans (by decide) hp | exact hp (by decide)
      | exact Only.step hp (by assumption) (fun p q => by cases p <;> first | rfl | exact absurd (by decide) q))

theorem only_execCdrLock {lane : Fin 4} {ppb : Int} (hp : [.lanes] ⊆ ps) (h : (execCdrLock lane ppb s) = .next t) :
    Only ps s t := by
  have hk : Only ps s s := Only.refl s
  unfold execCdrLock at h
  (try dsimp only at h)
  all_goals (repeat' split at h)
  all_goals (have h := Host.Outcome.next.inj h; subst h; repeat' first
      | with_reducible assumption | with_reducible exact fun _ h => h | with_reducible intro _
      | exact trivial | with_reducible apply only_ite | with_reducible apply only_ite2
      | with_reducible apply only_modLane | refine only_snd (by assumption) ?_ | split | dsimp only
      | exact List.Subset.trans (by decide) hp | exact hp (by decide)
      | exact Only.step hp (by assumption) (fun p q => by cases p <;> first | rfl | exact absurd (by decide) q))

theorem only_execCdrUnlock {lane : Fin 4} (hp : [.lanes] ⊆ ps) (h : execCdrUnlock lane s = .next t) :
    Only ps s t := by
  have hk : Only ps s s := Only.refl s
  unfold execCdrUnlock at h
  (try dsimp only at h)
  all_goals (repeat' split at h)
  all_goals (have h := Host.Outcome.next.inj h; subst h; repeat' first
      | with_reducible assumption | with_reducible exact fun _ h => h | with_reducible intro _
      | exact trivial | with_reducible apply only_ite | with_reducible apply only_ite2
      | with_reducible apply only_modLane | refine only_snd (by assumption) ?_ | split
      | dsimp only | exact List.Subset.trans (by decide) hp | exact hp (by decide)
      | exact Only.step hp (by assumption) (fun p q => by cases p <;> first | rfl | exact absurd (by decide) q))

theorem only_execCtleAdaptStep {lane : Fin 4} {up : Bool} (hp : [.lanes] ⊆ ps) (h : (execCtleAdaptStep lane up s) = .next t) :
    Only ps s t := by
  have hk : Only ps s s := Only.refl s
  unfold execCtleAdaptStep at h
  (try dsimp only at h)
  all_goals (repeat' split at h)
  all_goals (have h := Host.Outcome.next.inj h; subst h; repeat' first
      | with_reducible assumption | with_reducible exact fun _ h => h | with_reducible intro _
      | exact trivial | with_reducible apply only_ite | with_reducible apply only_ite2
      | with_reducible apply only_modLane | refine only_snd (by assumption) ?_ | split | dsimp only
      | exact List.Subset.trans (by decide) hp | exact hp (by decide)
      | exact Only.step hp (by assumption) (fun p q => by cases p <;> first | rfl | exact absurd (by decide) q))

theorem only_execLineSetEqApply {lane : Fin 4} (hp : [.lanes, .settings] ⊆ ps) (h : execLineSetEqApply lane s = .next t) :
    Only ps s t := by
  have hk : Only ps s s := Only.refl s
  unfold execLineSetEqApply at h
  (try dsimp only at h)
  all_goals (repeat' split at h)
  all_goals (have h := Host.Outcome.next.inj h; subst h; repeat' first
      | with_reducible assumption | with_reducible exact fun _ h => h | with_reducible intro _
      | exact trivial | with_reducible apply only_ite | with_reducible apply only_ite2
      | with_reducible apply only_applyEq | with_reducible apply only_modLane
      | refine only_snd (by assumption) ?_ | split | dsimp only
      | exact List.Subset.trans (by decide) hp | exact hp (by decide)
      | exact Only.step hp (by assumption) (fun p q => by cases p <;> first | rfl | exact absurd (by decide) q))

theorem only_execLotHeaderRelease {group : Fin 4} (hp : [.lanes, .groups, .reasm, .toTime, .toReeve,
    .inQ, .sup, .qos, .cry, .pwr, .life, .win, .i3c, .reeve, .counters, .freeCtr] ⊆ ps) (h : (execLotHeaderRelease group s) = .next t) :
    Only ps s t := by
  have hk : Only ps s s := Only.refl s
  unfold execLotHeaderRelease at h
  (try dsimp only at h)
  all_goals (repeat' split at h)
  all_goals (have h := Host.Outcome.next.inj h; subst h; repeat' first
      | with_reducible assumption | with_reducible exact fun _ h => h | with_reducible intro _
      | exact trivial | with_reducible apply only_ite | with_reducible apply only_ite2
      | with_reducible apply only_bondSettle | with_reducible apply only_relLook
      | with_reducible apply only_releaseHeader | refine only_snd (by assumption) ?_ | split
      | dsimp only | exact List.Subset.trans (by decide) hp | exact hp (by decide)
      | exact Only.step hp (by assumption) (fun p q => by cases p <;> first | rfl | exact absurd (by decide) q))

theorem only_execFragReassemblyTimeout {lotId : BitVec 16} (hp : [.reasm, .sup, .qos, .pwr, .life, .win, .i3c, .reeve, .counters, .freeCtr] ⊆ ps) (h : execFragReassemblyTimeout lotId s = .next t) :
    Only ps s t := by
  have hk : Only ps s s := Only.refl s
  unfold execFragReassemblyTimeout at h
  (try dsimp only at h)
  all_goals (repeat' split at h)
  all_goals (have h := Host.Outcome.next.inj h; subst h; repeat' first
      | with_reducible assumption | with_reducible exact fun _ h => h | with_reducible intro _
      | exact trivial | with_reducible apply only_ite | with_reducible apply only_ite2
      | with_reducible apply only_bump | with_reducible apply only_dropReasm
      | refine only_snd (by assumption) ?_ | split | dsimp only
      | exact List.Subset.trans (by decide) hp | exact hp (by decide)
      | exact Only.step hp (by assumption) (fun p q => by cases p <;> first | rfl | exact absurd (by decide) q))

theorem only_execFurrowMapEntry {group : Fin 4} {sc : BitVec 48} {entry : BitVec 128} (hp : [.us, .sup, .life, .win, .i3c, .reeve, .counters] ⊆ ps) (h : execFurrowMapEntry group sc entry s = .next t) :
    Only ps s t := by
  have hk : Only ps s s := Only.refl s
  unfold execFurrowMapEntry at h
  (try dsimp only at h)
  all_goals (repeat' split at h)
  all_goals (have h := Host.Outcome.next.inj h; subst h; repeat' first
      | with_reducible assumption | with_reducible exact fun _ h => h | with_reducible intro _
      | exact trivial | with_reducible apply only_ite | with_reducible apply only_ite2
      | with_reducible apply only_bump | with_reducible apply only_storeFurrow
      | refine only_snd (by assumption) ?_ | split | dsimp only
      | exact List.Subset.trans (by decide) hp | exact hp (by decide)
      | exact Only.step hp (by assumption) (fun p q => by cases p <;> first | rfl | exact absurd (by decide) q))

theorem only_execHeaderSamplePoint {ltx : Fin 2} (hp : [.us, .act, .sup, .qos, .cry, .pwr, .life, .win, .i3c, .reeve, .counters, .freeCtr] ⊆ ps) (h : execHeaderSamplePoint ltx s = .next t) :
    Only ps s t := by
  have hk : Only ps s s := Only.refl s
  unfold execHeaderSamplePoint at h
  (try dsimp only at h)
  all_goals (repeat' split at h)
  all_goals (have h := Host.Outcome.next.inj h; subst h; repeat' first
      | with_reducible assumption | with_reducible exact fun _ h => h | with_reducible intro _
      | exact trivial | with_reducible apply only_ite | with_reducible apply only_ite2
      | with_reducible apply only_announceSample | with_reducible apply only_dataSample
      | with_reducible apply only_rangingSample | with_reducible apply only_setStage
      | refine only_snd (by assumption) ?_ | split | dsimp only
      | exact List.Subset.trans (by decide) hp | exact hp (by decide)
      | exact Only.step hp (by assumption) (fun p q => by cases p <;> first | rfl | exact absurd (by decide) q))

theorem only_execBurstEnable {ltx : Fin 2} (hp : [.us, .sup, .qos, .ports, .pwr, .pair, .life, .win,
    .i3c, .reeve, .counters, .freeCtr] ⊆ ps) (h : (execBurstEnable ltx s) = .next t) :
    Only ps s t := by
  have hk : Only ps s s := Only.refl s
  unfold execBurstEnable at h
  (try dsimp only at h)
  all_goals (repeat' split at h)
  all_goals (have h := Host.Outcome.next.inj h; subst h; repeat' first
      | with_reducible assumption | with_reducible exact fun _ h => h | with_reducible intro _
      | exact trivial | with_reducible apply only_ite | with_reducible apply only_ite2
      | with_reducible apply only_endBurst | with_reducible apply only_setStage
      | with_reducible apply only_skipFurrow | with_reducible apply only_startBurst
      | refine only_snd (by assumption) ?_ | split | dsimp only
      | exact List.Subset.trans (by decide) hp | exact hp (by decide)
      | exact Only.step hp (by assumption) (fun p q => by cases p <;> first | rfl | exact absurd (by decide) q))

theorem only_execBurstEnd {ltx : Fin 2} (hp : [.us, .sup, .qos, .ports, .pwr, .pair, .life, .win, .i3c, .reeve, .counters, .freeCtr] ⊆ ps) (h : execBurstEnd ltx s = .next t) :
    Only ps s t := by
  have hk : Only ps s s := Only.refl s
  unfold execBurstEnd at h
  (try dsimp only at h)
  all_goals (repeat' split at h)
  all_goals (have h := Host.Outcome.next.inj h; subst h; repeat' first
      | with_reducible assumption | with_reducible exact fun _ h => h | with_reducible intro _
      | exact trivial | with_reducible apply only_ite | with_reducible apply only_ite2
      | with_reducible apply only_endBurst | refine only_snd (by assumption) ?_ | split
      | dsimp only | exact List.Subset.trans (by decide) hp | exact hp (by decide)
      | exact Only.step hp (by assumption) (fun p q => by cases p <;> first | rfl | exact absurd (by decide) q))

theorem only_execLaserWatchdog {ltx : Fin 2} (hp : [.us, .sup, .qos, .ports, .pwr, .pair, .life, .win, .i3c, .reeve, .counters, .freeCtr] ⊆ ps) (h : execLaserWatchdog ltx s = .next t) :
    Only ps s t := by
  have hk : Only ps s s := Only.refl s
  unfold execLaserWatchdog at h
  (try dsimp only at h)
  all_goals (repeat' split at h)
  all_goals (have h := Host.Outcome.next.inj h; subst h; repeat' first
      | with_reducible assumption | with_reducible exact fun _ h => h | with_reducible intro _
      | exact trivial | with_reducible apply only_ite | with_reducible apply only_ite2
      | with_reducible apply only_wdTripLane | refine only_snd (by assumption) ?_ | split
      | dsimp only | exact List.Subset.trans (by decide) hp | exact hp (by decide)
      | exact Only.step hp (by assumption) (fun p q => by cases p <;> first | rfl | exact absurd (by decide) q))

theorem only_execWatchdogRefclkTrip {ltx : Fin 2} (hp : [.us, .sup, .qos, .ports, .pwr, .pair, .life, .win, .i3c, .reeve, .counters, .freeCtr] ⊆ ps) (h : execWatchdogRefclkTrip ltx s = .next t) :
    Only ps s t := by
  have hk : Only ps s s := Only.refl s
  unfold execWatchdogRefclkTrip at h
  (try dsimp only at h)
  all_goals (repeat' split at h)
  all_goals (have h := Host.Outcome.next.inj h; subst h; repeat' first
      | with_reducible assumption | with_reducible exact fun _ h => h | with_reducible intro _
      | exact trivial | with_reducible apply only_ite | with_reducible apply only_ite2
      | with_reducible apply only_wdTripLane | refine only_snd (by assumption) ?_ | split
      | dsimp only | exact List.Subset.trans (by decide) hp | exact hp (by decide)
      | exact Only.step hp (by assumption) (fun p q => by cases p <;> first | rfl | exact absurd (by decide) q))

theorem only_execFragAbandonTx {queue : Fin 1024} (hp : [.us, .sup, .qos, .pwr, .life, .win, .i3c, .reeve, .counters, .freeCtr] ⊆ ps) (h : execFragAbandonTx queue s = .next t) :
    Only ps s t := by
  have hk : Only ps s s := Only.refl s
  unfold execFragAbandonTx at h
  (try dsimp only at h)
  all_goals (repeat' split at h)
  all_goals (have h := Host.Outcome.next.inj h; subst h; repeat' first
      | with_reducible assumption | with_reducible exact fun _ h => h | with_reducible intro _
      | exact trivial | with_reducible apply only_ite | with_reducible apply only_ite2
      | with_reducible apply only_bump | with_reducible apply only_dropHead
      | refine only_snd (by assumption) ?_ | split | dsimp only
      | exact List.Subset.trans (by decide) hp | exact hp (by decide)
      | exact Only.step hp (by assumption) (fun p q => by cases p <;> first | rfl | exact absurd (by decide) q))

theorem only_execHeProfile {m : FieldMsg} (hp : [.us, .act, .sup, .qos, .ports, .pwr, .pair, .life, .win, .i3c, .reeve, .counters, .freeCtr] ⊆ ps) (h : execHeProfile m s = .next t) :
    Only ps s t := by
  have hk : Only ps s s := Only.refl s
  unfold execHeProfile at h
  (try dsimp only at h)
  all_goals (repeat' split at h)
  all_goals (have h := Host.Outcome.next.inj h; subst h; repeat' first
      | with_reducible assumption | with_reducible exact fun _ h => h | with_reducible intro _
      | exact trivial | with_reducible apply only_ite | with_reducible apply only_ite2
      | with_reducible apply only_acceptMsg | with_reducible apply only_actHeProfile
      | refine only_snd (by assumption) ?_ | split | dsimp only
      | exact List.Subset.trans (by decide) hp | exact hp (by decide)
      | exact Only.step hp (by assumption) (fun p q => by cases p <;> first | rfl | exact absurd (by decide) q))

theorem only_execAssignId {m : FieldMsg} (hp : [.us, .act, .sup, .qos, .ports, .pwr, .pair, .life, .win, .i3c, .reeve, .counters, .freeCtr] ⊆ ps) (h : execAssignId m s = .next t) :
    Only ps s t := by
  have hk : Only ps s s := Only.refl s
  unfold execAssignId at h
  (try dsimp only at h)
  all_goals (repeat' split at h)
  all_goals (have h := Host.Outcome.next.inj h; subst h; repeat' first
      | with_reducible assumption | with_reducible exact fun _ h => h | with_reducible intro _
      | exact trivial | with_reducible apply only_ite | with_reducible apply only_ite2
      | with_reducible apply only_acceptMsg | with_reducible apply only_actAssignId
      | refine only_snd (by assumption) ?_ | split | dsimp only
      | exact List.Subset.trans (by decide) hp | exact hp (by decide)
      | exact Only.step hp (by assumption) (fun p q => by cases p <;> first | rfl | exact absurd (by decide) q))

theorem only_execRangingTime {m : FieldMsg} (hp : [.us, .act, .sup, .life, .win, .i3c, .reeve, .counters] ⊆ ps) (h : execRangingTime m s = .next t) :
    Only ps s t := by
  have hk : Only ps s s := Only.refl s
  unfold execRangingTime at h
  (try dsimp only at h)
  all_goals (repeat' split at h)
  all_goals (have h := Host.Outcome.next.inj h; subst h; repeat' first
      | with_reducible assumption | with_reducible exact fun _ h => h | with_reducible intro _
      | exact trivial | with_reducible apply only_ite | with_reducible apply only_ite2
      | with_reducible apply only_acceptMsg | with_reducible apply only_actRangingTime
      | refine only_snd (by assumption) ?_ | split | dsimp only
      | exact List.Subset.trans (by decide) hp | exact hp (by decide)
      | exact Only.step hp (by assumption) (fun p q => by cases p <;> first | rfl | exact absurd (by decide) q))

theorem only_execAssignPlot {m : FieldMsg} (hp : [.act, .sup, .life, .win, .i3c, .reeve, .counters] ⊆ ps) (h : execAssignPlot m s = .next t) :
    Only ps s t := by
  have hk : Only ps s s := Only.refl s
  unfold execAssignPlot at h
  (try dsimp only at h)
  all_goals (repeat' split at h)
  all_goals (have h := Host.Outcome.next.inj h; subst h; repeat' first
      | with_reducible assumption | with_reducible exact fun _ h => h | with_reducible intro _
      | exact trivial | with_reducible apply only_ite | with_reducible apply only_ite2
      | with_reducible apply only_acceptMsg | with_reducible apply only_actAssignPlot
      | refine only_snd (by assumption) ?_ | split | dsimp only
      | exact List.Subset.trans (by decide) hp | exact hp (by decide)
      | exact Only.step hp (by assumption) (fun p q => by cases p <;> first | rfl | exact absurd (by decide) q))

theorem only_execAssignLot {m : FieldMsg} (hp : [.lots, .reasm, .act, .sup, .qos, .cls, .pwr, .life, .win, .i3c, .reeve, .counters, .freeCtr] ⊆ ps) (h : execAssignLot m s = .next t) :
    Only ps s t := by
  have hk : Only ps s s := Only.refl s
  unfold execAssignLot at h
  (try dsimp only at h)
  all_goals (repeat' split at h)
  all_goals (have h := Host.Outcome.next.inj h; subst h; repeat' first
      | with_reducible assumption | with_reducible exact fun _ h => h | with_reducible intro _
      | exact trivial | with_reducible apply only_ite | with_reducible apply only_ite2
      | with_reducible apply only_acceptMsg | with_reducible apply only_actAssignLot
      | refine only_snd (by assumption) ?_ | split | dsimp only
      | exact List.Subset.trans (by decide) hp | exact hp (by decide)
      | exact Only.step hp (by assumption) (fun p q => by cases p <;> first | rfl | exact absurd (by decide) q))

theorem only_execDeactivate {m : FieldMsg} (hp : [.lots, .reasm, .us, .act, .sup, .qos, .ports, .pwr, .pair, .life, .win, .i3c, .reeve, .counters, .freeCtr] ⊆ ps) (h : execDeactivate m s = .next t) :
    Only ps s t := by
  have hk : Only ps s s := Only.refl s
  unfold execDeactivate at h
  (try dsimp only at h)
  all_goals (repeat' split at h)
  all_goals (have h := Host.Outcome.next.inj h; subst h; repeat' first
      | with_reducible assumption | with_reducible exact fun _ h => h | with_reducible intro _
      | exact trivial | with_reducible apply only_ite | with_reducible apply only_ite2
      | with_reducible apply only_acceptMsg | with_reducible apply only_modInst
      | with_reducible apply only_toListen | refine only_snd (by assumption) ?_ | split
      | dsimp only | exact List.Subset.trans (by decide) hp | exact hp (by decide)
      | exact Only.step hp (by assumption) (fun p q => by cases p <;> first | rfl | exact absurd (by decide) q))

theorem only_execSilence {m : FieldMsg} (hp : [.us, .act, .sup, .qos, .ports, .pwr, .pair, .life, .win, .i3c, .reeve, .counters, .freeCtr] ⊆ ps) (h : execSilence m s = .next t) :
    Only ps s t := by
  have hk : Only ps s s := Only.refl s
  unfold execSilence at h
  (try dsimp only at h)
  all_goals (repeat' split at h)
  all_goals (have h := Host.Outcome.next.inj h; subst h; repeat' first
      | with_reducible assumption | with_reducible exact fun _ h => h | with_reducible intro _
      | exact trivial | with_reducible apply only_ite | with_reducible apply only_ite2
      | with_reducible apply only_acceptMsg | with_reducible apply only_actSilence
      | refine only_snd (by assumption) ?_ | split | dsimp only
      | exact List.Subset.trans (by decide) hp | exact hp (by decide)
      | exact Only.step hp (by assumption) (fun p q => by cases p <;> first | rfl | exact absurd (by decide) q))

theorem only_execRelease {m : FieldMsg} (hp : [.lots, .reasm, .us, .act, .sup, .qos, .ports, .pwr, .pair, .life, .win, .i3c, .reeve, .counters, .freeCtr] ⊆ ps) (h : execRelease m s = .next t) :
    Only ps s t := by
  have hk : Only ps s s := Only.refl s
  unfold execRelease at h
  (try dsimp only at h)
  all_goals (repeat' split at h)
  all_goals (have h := Host.Outcome.next.inj h; subst h; repeat' first
      | with_reducible assumption | with_reducible exact fun _ h => h | with_reducible intro _
      | exact trivial | with_reducible apply only_ite | with_reducible apply only_ite2
      | with_reducible apply only_acceptMsg | with_reducible apply only_endSilence
      | refine only_snd (by assumption) ?_ | split | dsimp only
      | exact List.Subset.trans (by decide) hp | exact hp (by decide)
      | exact Only.step hp (by assumption) (fun p q => by cases p <;> first | rfl | exact absurd (by decide) q))

theorem only_execTune {m : FieldMsg} {optics : Optics} (hp : [.us, .act, .sup, .qos, .ports, .pwr, .pair, .life, .win, .i3c, .reeve, .counters, .freeCtr] ⊆ ps) (h : execTune m optics s = .next t) :
    Only ps s t := by
  have hk : Only ps s s := Only.refl s
  unfold execTune at h
  (try dsimp only at h)
  all_goals (repeat' split at h)
  all_goals (have h := Host.Outcome.next.inj h; subst h; repeat' first
      | with_reducible assumption | with_reducible exact fun _ h => h | with_reducible intro _
      | exact trivial | with_reducible apply only_ite | with_reducible apply only_ite2
      | with_reducible apply only_acceptMsg | with_reducible apply only_actTune
      | refine only_snd (by assumption) ?_ | split | dsimp only
      | exact List.Subset.trans (by decide) hp | exact hp (by decide)
      | exact Only.step hp (by assumption) (fun p q => by cases p <;> first | rfl | exact absurd (by decide) q))

theorem only_execTunePoll {inst : Fin 2} {status : TuneStatus} (hp : [.lots, .reasm, .us, .act, .sup, .qos, .ports, .pwr, .pair, .life, .win, .i3c, .reeve, .counters, .freeCtr] ⊆ ps) (h : execTunePoll inst status s = .next t) :
    Only ps s t := by
  have hk : Only ps s s := Only.refl s
  unfold execTunePoll at h
  (try dsimp only at h)
  all_goals (repeat' split at h)
  all_goals (have h := Host.Outcome.next.inj h; subst h; repeat' first
      | with_reducible assumption | with_reducible exact fun _ h => h | with_reducible intro _
      | exact trivial | with_reducible apply only_ite | with_reducible apply only_ite2
      | with_reducible apply only_leaveTuning | with_reducible apply only_modUsLane
      | with_reducible apply only_raise | with_reducible apply only_tuneDone
      | with_reducible apply only_tuneFails | refine only_snd (by assumption) ?_ | split
      | dsimp only | exact List.Subset.trans (by decide) hp | exact hp (by decide)
      | exact Only.step hp (by assumption) (fun p q => by cases p <;> first | rfl | exact absurd (by decide) q))

theorem only_execToTuneExpiry {inst : Fin 2} (hp : [.lots, .reasm, .us, .act, .sup, .qos, .ports, .pwr, .pair, .life, .win, .i3c, .reeve, .counters, .freeCtr] ⊆ ps) (h : execToTuneExpiry inst s = .next t) :
    Only ps s t := by
  have hk : Only ps s s := Only.refl s
  unfold execToTuneExpiry at h
  (try dsimp only at h)
  all_goals (repeat' split at h)
  all_goals (have h := Host.Outcome.next.inj h; subst h; repeat' first
      | with_reducible assumption | with_reducible exact fun _ h => h | with_reducible intro _
      | exact trivial | with_reducible apply only_ite | with_reducible apply only_ite2
      | with_reducible apply only_tuneFails | refine only_snd (by assumption) ?_ | split
      | dsimp only | exact List.Subset.trans (by decide) hp | exact hp (by decide)
      | exact Only.step hp (by assumption) (fun p q => by cases p <;> first | rfl | exact absurd (by decide) q))

theorem only_execSwitchParent {m : FieldMsg} (hp : [.act, .sup, .life, .win, .i3c, .reeve, .counters] ⊆ ps) (h : execSwitchParent m s = .next t) :
    Only ps s t := by
  have hk : Only ps s s := Only.refl s
  unfold execSwitchParent at h
  (try dsimp only at h)
  all_goals (repeat' split at h)
  all_goals (have h := Host.Outcome.next.inj h; subst h; repeat' first
      | with_reducible assumption | with_reducible exact fun _ h => h | with_reducible intro _
      | exact trivial | with_reducible apply only_ite | with_reducible apply only_ite2
      | with_reducible apply only_acceptMsg | with_reducible apply only_requestSwitch
      | refine only_snd (by assumption) ?_ | split | dsimp only
      | exact List.Subset.trans (by decide) hp | exact hp (by decide)
      | exact Only.step hp (by assumption) (fun p q => by cases p <;> first | rfl | exact absurd (by decide) q))

theorem only_execUndefinedFieldMessage {m : FieldMsg} (hp : [.sup, .life, .win, .i3c, .reeve, .counters] ⊆ ps) (h : execUndefinedFieldMessage m s = .next t) :
    Only ps s t := by
  have hk : Only ps s s := Only.refl s
  unfold execUndefinedFieldMessage at h
  (try dsimp only at h)
  all_goals (repeat' split at h)
  all_goals (have h := Host.Outcome.next.inj h; subst h; repeat' first
      | with_reducible assumption | with_reducible exact fun _ h => h | with_reducible intro _
      | exact trivial | with_reducible apply only_ite | with_reducible apply only_ite2
      | with_reducible apply only_bump | refine only_snd (by assumption) ?_ | split | dsimp only
      | exact List.Subset.trans (by decide) hp | exact hp (by decide)
      | exact Only.step hp (by assumption) (fun p q => by cases p <;> first | rfl | exact absurd (by decide) q))

theorem only_execToProfileExpiry {inst : Fin 2} (hp : [.lots, .reasm, .us, .act, .sup, .qos, .ports, .pwr, .pair, .life, .win, .i3c, .reeve, .counters, .freeCtr] ⊆ ps) (h : execToProfileExpiry inst s = .next t) :
    Only ps s t := by
  have hk : Only ps s s := Only.refl s
  unfold execToProfileExpiry at h
  (try dsimp only at h)
  all_goals (repeat' split at h)
  all_goals (have h := Host.Outcome.next.inj h; subst h; repeat' first
      | with_reducible assumption | with_reducible exact fun _ h => h | with_reducible intro _
      | exact trivial | with_reducible apply only_ite | with_reducible apply only_ite2
      | with_reducible apply only_actLost | with_reducible apply only_modInst
      | refine only_snd (by assumption) ?_ | split | dsimp only
      | exact List.Subset.trans (by decide) hp | exact hp (by decide)
      | exact Only.step hp (by assumption) (fun p q => by cases p <;> first | rfl | exact absurd (by decide) q))

theorem only_execToRangeExpiry {inst : Fin 2} (hp : [.lots, .reasm, .us, .act, .sup, .qos, .ports, .pwr, .pair, .life, .win, .i3c, .reeve, .counters, .freeCtr] ⊆ ps) (h : execToRangeExpiry inst s = .next t) :
    Only ps s t := by
  have hk : Only ps s s := Only.refl s
  unfold execToRangeExpiry at h
  (try dsimp only at h)
  all_goals (repeat' split at h)
  all_goals (have h := Host.Outcome.next.inj h; subst h; repeat' first
      | with_reducible assumption | with_reducible exact fun _ h => h | with_reducible intro _
      | exact trivial | with_reducible apply only_ite | with_reducible apply only_ite2
      | with_reducible apply only_modInst | with_reducible apply only_toListen
      | refine only_snd (by assumption) ?_ | split | dsimp only
      | exact List.Subset.trans (by decide) hp | exact hp (by decide)
      | exact Only.step hp (by assumption) (fun p q => by cases p <;> first | rfl | exact absurd (by decide) q))

theorem only_execToHoldExpiry {inst : Fin 2} (hp : [.lots, .reasm, .us, .act, .sup, .qos, .ports, .pwr, .pair, .life, .win, .i3c, .reeve, .counters, .freeCtr] ⊆ ps) (h : execToHoldExpiry inst s = .next t) :
    Only ps s t := by
  have hk : Only ps s s := Only.refl s
  unfold execToHoldExpiry at h
  (try dsimp only at h)
  all_goals (repeat' split at h)
  all_goals (have h := Host.Outcome.next.inj h; subst h; repeat' first
      | with_reducible assumption | with_reducible exact fun _ h => h | with_reducible intro _
      | exact trivial | with_reducible apply only_ite | with_reducible apply only_ite2
      | with_reducible apply only_modInst | with_reducible apply only_toListen
      | refine only_snd (by assumption) ?_ | split | dsimp only
      | exact List.Subset.trans (by decide) hp | exact hp (by decide)
      | exact Only.step hp (by assumption) (fun p q => by cases p <;> first | rfl | exact absurd (by decide) q))

theorem only_execSilenceDurationExpiry {inst : Fin 2} (hp : [.lots, .reasm, .us, .act, .sup, .qos, .ports, .pwr, .pair, .life, .win, .i3c, .reeve, .counters, .freeCtr] ⊆ ps) (h : execSilenceDurationExpiry inst s = .next t) :
    Only ps s t := by
  have hk : Only ps s s := Only.refl s
  unfold execSilenceDurationExpiry at h
  (try dsimp only at h)
  all_goals (repeat' split at h)
  all_goals (have h := Host.Outcome.next.inj h; subst h; repeat' first
      | with_reducible assumption | with_reducible exact fun _ h => h | with_reducible intro _
      | exact trivial | with_reducible apply only_ite | with_reducible apply only_ite2
      | with_reducible apply only_endSilence | refine only_snd (by assumption) ?_ | split
      | dsimp only | exact List.Subset.trans (by decide) hp | exact hp (by decide)
      | exact Only.step hp (by assumption) (fun p q => by cases p <;> first | rfl | exact absurd (by decide) q))

theorem only_execBinClose {day : Bool} {misreads : List Bool} (hp : [.sup, .life] ⊆ ps) (h : (execBinClose day s misreads) = .next t) :
    Only ps s t := by
  have hk : Only ps s s := Only.refl s
  unfold execBinClose at h
  (try dsimp only at h)
  all_goals (repeat' split at h)
  all_goals (have h := Host.Outcome.next.inj h; subst h; repeat' first
      | with_reducible assumption | with_reducible exact fun _ h => h | with_reducible intro _
      | exact trivial | with_reducible apply only_ite | with_reducible apply only_ite2
      | with_reducible apply only_closeBin | refine only_snd (by assumption) ?_ | split
      | dsimp only | exact List.Subset.trans (by decide) hp | exact hp (by decide)
      | exact Only.step hp (by assumption) (fun p q => by cases p <;> first | rfl | exact absurd (by decide) q))

theorem only_execFitWindowEnd  (hp : [.time, .win, .i3c, .reeve, .counters] ⊆ ps) (h : (execFitWindowEnd s) = .next t) :
    Only ps s t := by
  have hk : Only ps s s := Only.refl s
  unfold execFitWindowEnd at h
  (try dsimp only at h)
  all_goals (repeat' split at h)
  all_goals (have h := Host.Outcome.next.inj h; subst h; repeat' first
      | with_reducible assumption | with_reducible exact fun _ h => h | with_reducible intro _
      | exact trivial | with_reducible apply only_ite | with_reducible apply only_ite2
      | with_reducible apply only_each | with_reducible apply only_fitLook
      | refine only_snd (by assumption) ?_ | split | dsimp only
      | exact List.Subset.trans (by decide) hp | exact hp (by decide)
      | exact Only.step hp (by assumption) (fun p q => by cases p <;> first | rfl | exact absurd (by decide) q))

theorem only_execPlantReport {group : Fin 4} (hp : [.groups, .toTime, .sup, .time, .life, .win, .i3c, .reeve, .counters, .freeCtr] ⊆ ps) (h : execPlantReport group s = .next t) :
    Only ps s t := by
  have hk : Only ps s s := Only.refl s
  unfold execPlantReport at h
  (try dsimp only at h)
  all_goals (repeat' split at h)
  all_goals (have h := Host.Outcome.next.inj h; subst h; repeat' first
      | with_reducible assumption | with_reducible exact fun _ h => h | with_reducible intro _
      | exact trivial | with_reducible apply only_ite | with_reducible apply only_ite2
      | with_reducible apply only_bump | with_reducible apply only_each
      | with_reducible apply only_fitLook | with_reducible apply only_modGroup
      | refine only_snd (by assumption) ?_ | split | dsimp only
      | with_reducible apply only_f_toTime | exact List.Subset.trans (by decide) hp
      | exact hp (by decide)
      | exact Only.step hp (by assumption) (fun p q => by cases p <;> first | rfl | exact absurd (by decide) q))

theorem only_execTimeSow {m : FieldMsg} (hp : [.act, .sup, .time, .life, .win, .i3c, .reeve, .counters, .freeCtr] ⊆ ps) (h : execTimeSow m s = .next t) :
    Only ps s t := by
  have hk : Only ps s s := Only.refl s
  unfold execTimeSow at h
  (try dsimp only at h)
  all_goals (repeat' split at h)
  all_goals (have h := Host.Outcome.next.inj h; subst h; repeat' first
      | with_reducible assumption | with_reducible exact fun _ h => h | with_reducible intro _
      | exact trivial | with_reducible apply only_ite | with_reducible apply only_ite2
      | with_reducible apply only_acceptMsg | with_reducible apply only_actSow
      | refine only_snd (by assumption) ?_ | split | dsimp only
      | exact List.Subset.trans (by decide) hp | exact hp (by decide)
      | exact Only.step hp (by assumption) (fun p q => by cases p <;> first | rfl | exact absurd (by decide) q))

theorem only_execLtmDeclare {dom : Fin 2} (hp : [.sup, .time, .life, .win, .i3c, .reeve, .counters] ⊆ ps) (h : execLtmDeclare dom s = .next t) :
    Only ps s t := by
  have hk : Only ps s s := Only.refl s
  unfold execLtmDeclare at h
  (try dsimp only at h)
  all_goals (repeat' split at h)
  all_goals (have h := Host.Outcome.next.inj h; subst h; repeat' first
      | with_reducible assumption | with_reducible exact fun _ h => h | with_reducible intro _
      | exact trivial | with_reducible apply only_ite | with_reducible apply only_ite2
      | with_reducible apply only_servoLose | with_reducible apply only_setDomDefect
      | refine only_snd (by assumption) ?_ | split | dsimp only
      | exact List.Subset.trans (by decide) hp | exact hp (by decide)
      | exact Only.step hp (by assumption) (fun p q => by cases p <;> first | rfl | exact absurd (by decide) q))

theorem only_execUsedRecordTimeout {dom : Fin 2} (hp : [.sup, .time, .life, .win, .i3c, .reeve, .counters] ⊆ ps) (h : execUsedRecordTimeout dom s = .next t) :
    Only ps s t := by
  have hk : Only ps s s := Only.refl s
  unfold execUsedRecordTimeout at h
  (try dsimp only at h)
  all_goals (repeat' split at h)
  all_goals (have h := Host.Outcome.next.inj h; subst h; repeat' first
      | with_reducible assumption | with_reducible exact fun _ h => h | with_reducible intro _
      | exact trivial | with_reducible apply only_ite | with_reducible apply only_ite2
      | with_reducible apply only_servoLose | refine only_snd (by assumption) ?_ | split
      | dsimp only | exact List.Subset.trans (by decide) hp | exact hp (by decide)
      | exact Only.step hp (by assumption) (fun p q => by cases p <;> first | rfl | exact absurd (by decide) q))

theorem only_execHoldValidExpiry {dom : Fin 2} (hp : [.sup, .time, .life] ⊆ ps) (h : execHoldValidExpiry dom s = .next t) :
    Only ps s t := by
  have hk : Only ps s s := Only.refl s
  unfold execHoldValidExpiry at h
  (try dsimp only at h)
  all_goals (repeat' split at h)
  all_goals (have h := Host.Outcome.next.inj h; subst h; repeat' first
      | with_reducible assumption | with_reducible exact fun _ h => h | with_reducible intro _
      | exact trivial | with_reducible apply only_ite | with_reducible apply only_ite2
      | with_reducible apply only_modDom | with_reducible apply only_timeLook
      | refine only_snd (by assumption) ?_ | split | dsimp only
      | exact List.Subset.trans (by decide) hp | exact hp (by decide)
      | exact Only.step hp (by assumption) (fun p q => by cases p <;> first | rfl | exact absurd (by decide) q))

theorem only_execSlewDone  (hp : [.time, .win, .i3c, .reeve, .counters] ⊆ ps) (h : execSlewDone s = .next t) :
    Only ps s t := by
  have hk : Only ps s s := Only.refl s
  unfold execSlewDone at h
  (try dsimp only at h)
  all_goals (repeat' split at h)
  all_goals (have h := Host.Outcome.next.inj h; subst h; repeat' first
      | with_reducible assumption | with_reducible exact fun _ h => h | with_reducible intro _
      | exact trivial | with_reducible apply only_ite | with_reducible apply only_ite2
      | with_reducible apply only_raise | with_reducible apply only_setOffset
      | refine only_snd (by assumption) ?_ | split | dsimp only
      | exact List.Subset.trans (by decide) hp | exact hp (by decide)
      | exact Only.step hp (by assumption) (fun p q => by cases p <;> first | rfl | exact absurd (by decide) q))

theorem only_execPpsInEdge {edge : BitVec 64} (hp : [.sup, .time, .life, .win, .i3c, .reeve,
    .counters] ⊆ ps) (h : (execPpsInEdge edge s) = .next t) :
    Only ps s t := by
  have hk : Only ps s s := Only.refl s
  unfold execPpsInEdge at h
  (try dsimp only at h)
  all_goals (repeat' split at h)
  all_goals (have h := Host.Outcome.next.inj h; subst h; repeat' first
      | with_reducible assumption | with_reducible exact fun _ h => h | with_reducible intro _
      | exact trivial | with_reducible apply only_ite | with_reducible apply only_ite2
      | with_reducible apply only_bump | refine only_snd (by assumption) ?_ | split | dsimp only
      | exact List.Subset.trans (by decide) hp | exact hp (by decide)
      | exact Only.step hp (by assumption) (fun p q => by cases p <;> first | rfl | exact absurd (by decide) q))

theorem only_execPpsInLost  (hp : [.time, .win, .i3c, .reeve, .counters] ⊆ ps) (h : execPpsInLost s = .next t) :
    Only ps s t := by
  have hk : Only ps s s := Only.refl s
  unfold execPpsInLost at h
  (try dsimp only at h)
  all_goals (repeat' split at h)
  all_goals (have h := Host.Outcome.next.inj h; subst h; repeat' first
      | with_reducible assumption | with_reducible exact fun _ h => h | with_reducible intro _
      | exact trivial | with_reducible apply only_ite | with_reducible apply only_ite2
      | with_reducible apply only_raise | refine only_snd (by assumption) ?_ | split | dsimp only
      | with_reducible apply only_f_time | exact List.Subset.trans (by decide) hp
      | exact hp (by decide)
      | exact Only.step hp (by assumption) (fun p q => by cases p <;> first | rfl | exact absurd (by decide) q))

theorem only_execPmcOverflow {harrow : Fin 12} {tine : Fin 16} (hp : [.tine, .win, .i3c, .reeve, .counters] ⊆ ps) (h : execPmcOverflow harrow tine s = .next t) :
    Only ps s t := by
  have hk : Only ps s s := Only.refl s
  unfold execPmcOverflow at h
  (try dsimp only at h)
  all_goals (repeat' split at h)
  all_goals (have h := Host.Outcome.next.inj h; subst h; repeat' first
      | with_reducible assumption | with_reducible exact fun _ h => h | with_reducible intro _
      | exact trivial | with_reducible apply only_ite | with_reducible apply only_ite2
      | with_reducible apply only_modPmc | with_reducible apply only_pmcWrap
      | with_reducible apply only_foldl | with_reducible apply only_fold
      | refine only_snd (by assumption) ?_ | split | dsimp only
      | exact List.Subset.trans (by decide) hp | exact hp (by decide)
      | exact Only.step hp (by assumption) (fun p q => by cases p <;> first | rfl | exact absurd (by decide) q))

theorem only_execSampleTag {harrow : Fin 12} {tine : Fin 16} (hp : [.sup, .tine, .life, .win, .i3c, .reeve, .counters, .freeCtr] ⊆ ps) (h : execSampleTag harrow tine s = .next t) :
    Only ps s t := by
  have hk : Only ps s s := Only.refl s
  unfold execSampleTag at h
  (try dsimp only at h)
  all_goals (repeat' split at h)
  all_goals (have h := Host.Outcome.next.inj h; subst h; repeat' first
      | with_reducible assumption | with_reducible exact fun _ h => h | with_reducible intro _
      | exact trivial | with_reducible apply only_ite | with_reducible apply only_ite2
      | with_reducible apply only_countdownZero | with_reducible apply only_modSamp
      | refine only_snd (by assumption) ?_ | split | dsimp only
      | exact List.Subset.trans (by decide) hp | exact hp (by decide)
      | exact Only.step hp (by assumption) (fun p q => by cases p <;> first | rfl | exact absurd (by decide) q))

theorem only_execPcsStatusChange {port : Fin 8} {up : Bool} {locks : BitVec 4} (hp : [.us, .sup,
    .qos, .ports, .pwr, .life, .win, .i3c, .reeve, .counters, .freeCtr] ⊆ ps) (h : (execPcsStatusChange port up locks s) = .next t) :
    Only ps s t := by
  have hk : Only ps s s := Only.refl s
  unfold execPcsStatusChange at h
  (try dsimp only at h)
  all_goals (repeat' split at h)
  all_goals (have h := Host.Outcome.next.inj h; subst h; repeat' first
      | with_reducible assumption | with_reducible exact fun _ h => h | with_reducible intro _
      | exact trivial | with_reducible apply only_ite | with_reducible apply only_ite2
      | with_reducible apply only_modPort | with_reducible apply only_pcsFalse
      | with_reducible apply only_setLink | refine only_snd (by assumption) ?_ | split | dsimp only
      | exact List.Subset.trans (by decide) hp | exact hp (by decide)
      | exact Only.step hp (by assumption) (fun p q => by cases p <;> first | rfl | exact absurd (by decide) q))

theorem only_execLinkUpDelayExpiry {port : Fin 8} (hp : [.us, .sup, .qos, .ports, .pwr, .life, .win, .i3c, .reeve, .counters, .freeCtr] ⊆ ps) (h : execLinkUpDelayExpiry port s = .next t) :
    Only ps s t := by
  have hk : Only ps s s := Only.refl s
  unfold execLinkUpDelayExpiry at h
  (try dsimp only at h)
  all_goals (repeat' split at h)
  all_goals (have h := Host.Outcome.next.inj h; subst h; repeat' first
      | with_reducible assumption | with_reducible exact fun _ h => h | with_reducible intro _
      | exact trivial | with_reducible apply only_ite | with_reducible apply only_ite2
      | with_reducible apply only_linkUpLook | with_reducible apply only_modPort
      | refine only_snd (by assumption) ?_ | split | dsimp only
      | exact List.Subset.trans (by decide) hp | exact hp (by decide)
      | exact Only.step hp (by assumption) (fun p q => by cases p <;> first | rfl | exact absurd (by decide) q))

end Sys2Proof.Machine
end

