-- ==== Sys2Proof/Laws/Frame2.lean ====
section
/-! SUPPORT. The frames of the commands, part 2 of 5, FaultOrderedSetRx to ClsSetPatterns: which parts of the
state each may change. -/
-- One list of alternatives serves every lemma below; not every lemma uses each of them.
set_option linter.unusedTactic false
set_option linter.unreachableTactic false
namespace Sys2Proof.Machine
variable {ps : List Part} {s t : State}

theorem only_execFaultOrderedSetRx {port : Fin 8} {remote : Bool} (hp : [.us, .sup, .qos, .ports, .pwr, .life, .win, .i3c, .reeve, .counters, .freeCtr] ⊆ ps) (h : execFaultOrderedSetRx port remote s = .next t) :
    Only ps s t := by
  have hk : Only ps s s := Only.refl s
  unfold execFaultOrderedSetRx at h
  (try dsimp only at h)
  all_goals (repeat' split at h)
  all_goals (have h := Host.Outcome.next.inj h; subst h; repeat' first
      | with_reducible assumption | with_reducible exact fun _ h => h | with_reducible intro _
      | exact trivial | with_reducible apply only_ite | with_reducible apply only_ite2
      | with_reducible apply only_modPort | with_reducible apply only_setLink
      | refine only_snd (by assumption) ?_ | split | dsimp only
      | exact List.Subset.trans (by decide) hp | exact hp (by decide)
      | exact Only.step hp (by assumption) (fun p q => by cases p <;> first | rfl | exact absurd (by decide) q))

theorem only_execFaultCleared {port : Fin 8} (hp : [.us, .sup, .qos, .ports, .pwr, .life, .win, .i3c, .reeve, .counters, .freeCtr] ⊆ ps) (h : execFaultCleared port s = .next t) :
    Only ps s t := by
  have hk : Only ps s s := Only.refl s
  unfold execFaultCleared at h
  (try dsimp only at h)
  all_goals (repeat' split at h)
  all_goals (have h := Host.Outcome.next.inj h; subst h; repeat' first
      | with_reducible assumption | with_reducible exact fun _ h => h | with_reducible intro _
      | exact trivial | with_reducible apply only_ite | with_reducible apply only_ite2
      | with_reducible apply only_linkUpLook | with_reducible apply only_modPort
      | refine only_snd (by assumption) ?_ | split | dsimp only
      | exact List.Subset.trans (by decide) hp | exact hp (by decide)
      | exact Only.step hp (by assumption) (fun p q => by cases p <;> first | rfl | exact absurd (by decide) q))

theorem only_execBlockLockLoss {port : Fin 8} {lane : Fin 4} (hp : [.us, .sup, .qos, .ports, .pwr, .life, .win, .i3c, .reeve, .counters, .freeCtr] ⊆ ps) (h : execBlockLockLoss port lane s = .next t) :
    Only ps s t := by
  have hk : Only ps s s := Only.refl s
  unfold execBlockLockLoss at h
  (try dsimp only at h)
  all_goals (repeat' split at h)
  all_goals (have h := Host.Outcome.next.inj h; subst h; repeat' first
      | with_reducible assumption | with_reducible exact fun _ h => h | with_reducible intro _
      | exact trivial | with_reducible apply only_ite | with_reducible apply only_ite2
      | with_reducible apply only_bump | with_reducible apply only_modPort
      | with_reducible apply only_pcsFalse | refine only_snd (by assumption) ?_ | split
      | dsimp only | exact List.Subset.trans (by decide) hp | exact hp (by decide)
      | exact Only.step hp (by assumption) (fun p q => by cases p <;> first | rfl | exact absurd (by decide) q))

theorem only_execHiBer {port : Fin 8} (hp : [.us, .sup, .qos, .ports, .pwr, .life, .win, .i3c,
    .reeve, .counters, .freeCtr] ⊆ ps) (h : (execHiBer port s) = .next t) :
    Only ps s t := by
  have hk : Only ps s s := Only.refl s
  unfold execHiBer at h
  (try dsimp only at h)
  all_goals (repeat' split at h)
  all_goals (have h := Host.Outcome.next.inj h; subst h; repeat' first
      | with_reducible assumption | with_reducible exact fun _ h => h | with_reducible intro _
      | exact trivial | with_reducible apply only_ite | with_reducible apply only_ite2
      | with_reducible apply only_bump | with_reducible apply only_modPort
      | with_reducible apply only_pcsFalse | refine only_snd (by assumption) ?_ | split
      | dsimp only | exact List.Subset.trans (by decide) hp | exact hp (by decide)
      | exact Only.step hp (by assumption) (fun p q => by cases p <;> first | rfl | exact absurd (by decide) q))

theorem only_execSlCtleAdapt {lane : Fin 8} {up : Bool} (hp : [.slanes] ⊆ ps) (h : execSlCtleAdapt lane up s = .next t) :
    Only ps s t := by
  have hk : Only ps s s := Only.refl s
  unfold execSlCtleAdapt at h
  (try dsimp only at h)
  all_goals (repeat' split at h)
  all_goals (have h := Host.Outcome.next.inj h; subst h; repeat' first
      | with_reducible assumption | with_reducible exact fun _ h => h | with_reducible intro _
      | exact trivial | with_reducible apply only_ite | with_reducible apply only_ite2
      | with_reducible apply only_modSLane | refine only_snd (by assumption) ?_ | split
      | dsimp only | exact List.Subset.trans (by decide) hp | exact hp (by decide)
      | exact Only.step hp (by assumption) (fun p q => by cases p <;> first | rfl | exact absurd (by decide) q))

theorem only_execHrefclkLost  (hp : [.clk, .us, .sup, .qos, .ports, .pwr, .life, .win, .i3c, .reeve, .counters, .freeCtr] ⊆ ps) (h : execHrefclkLost s = .next t) :
    Only ps s t := by
  have hk : Only ps s s := Only.refl s
  unfold execHrefclkLost at h
  (try dsimp only at h)
  all_goals (repeat' split at h)
  all_goals (have h := Host.Outcome.next.inj h; subst h; repeat' first
      | with_reducible assumption | with_reducible exact fun _ h => h | with_reducible intro _
      | exact trivial | with_reducible apply only_ite | with_reducible apply only_ite2
      | with_reducible apply only_each | with_reducible apply only_modPort
      | with_reducible apply only_pcsFalse | with_reducible apply only_raise
      | refine only_snd (by assumption) ?_ | split | dsimp only | with_reducible apply only_f_clk
      | exact List.Subset.trans (by decide) hp | exact hp (by decide)
      | exact Only.step hp (by assumption) (fun p q => by cases p <;> first | rfl | exact absurd (by decide) q))

theorem only_execHrefclkReturn  (hp : [.clk] ⊆ ps) (h : execHrefclkReturn s = .next t) :
    Only ps s t := by
  have hk : Only ps s s := Only.refl s
  unfold execHrefclkReturn at h
  (try dsimp only at h)
  all_goals (repeat' split at h)
  all_goals (have h := Host.Outcome.next.inj h; subst h; repeat' first
      | with_reducible assumption | with_reducible exact fun _ h => h | with_reducible intro _
      | exact trivial | with_reducible apply only_ite | with_reducible apply only_ite2
      | refine only_snd (by assumption) ?_ | split | dsimp only | with_reducible apply only_f_clk
      | exact List.Subset.trans (by decide) hp | exact hp (by decide)
      | exact Only.step hp (by assumption) (fun p q => by cases p <;> first | rfl | exact absurd (by decide) q))

theorem only_execPauseExpiry {port : Fin 8} (hp : [.ports] ⊆ ps) (h : execPauseExpiry port s = .next t) :
    Only ps s t := by
  have hk : Only ps s s := Only.refl s
  unfold execPauseExpiry at h
  (try dsimp only at h)
  all_goals (repeat' split at h)
  all_goals (have h := Host.Outcome.next.inj h; subst h; repeat' first
      | with_reducible assumption | with_reducible exact fun _ h => h | with_reducible intro _
      | exact trivial | with_reducible apply only_ite | with_reducible apply only_ite2
      | with_reducible apply only_modPort | refine only_snd (by assumption) ?_ | split
      | dsimp only | exact List.Subset.trans (by decide) hp | exact hp (by decide)
      | exact Only.step hp (by assumption) (fun p q => by cases p <;> first | rfl | exact absurd (by decide) q))

theorem only_execRxFrameStart {port : Fin 8} {capture : BitVec 64} (hp : [.sup, .qos, .ports, .life,
    .win, .i3c, .reeve, .counters, .freeCtr] ⊆ ps) (h : (execRxFrameStart port capture s) = .next t) :
    Only ps s t := by
  have hk : Only ps s s := Only.refl s
  unfold execRxFrameStart at h
  (try dsimp only at h)
  all_goals (repeat' split at h)
  all_goals (have h := Host.Outcome.next.inj h; subst h; repeat' first
      | with_reducible assumption | with_reducible exact fun _ h => h | with_reducible intro _
      | exact trivial | with_reducible apply only_ite | with_reducible apply only_ite2
      | with_reducible apply only_bump | with_reducible apply only_modPort
      | with_reducible apply only_rxCapture | with_reducible apply only_takeBushels
      | refine only_snd (by assumption) ?_ | split | dsimp only
      | exact List.Subset.trans (by decide) hp | exact hp (by decide)
      | exact Only.step hp (by assumption) (fun p q => by cases p <;> first | rfl | exact absurd (by decide) q))

theorem only_execRxFrameEnd {port : Fin 8} {frame : RxFrame} (hp : [.inQ, .sup, .qos, .cls, .ports,
    .pwr, .life, .win, .i3c, .reeve, .counters, .freeCtr] ⊆ ps) (h : (execRxFrameEnd port frame s) = .next t) :
    Only ps s t := by
  have hk : Only ps s s := Only.refl s
  unfold execRxFrameEnd at h
  (try dsimp only at h)
  all_goals (repeat' split at h)
  all_goals (have h := Host.Outcome.next.inj h; subst h; repeat' first
      | with_reducible assumption | with_reducible exact fun _ h => h | with_reducible intro _
      | exact trivial | with_reducible apply only_ite | with_reducible apply only_ite2
      | with_reducible apply only_acceptFrame | with_reducible apply only_bump
      | with_reducible apply only_rxNoted | with_reducible apply only_rxRelease
      | with_reducible apply only_rxTaken | refine only_snd (by assumption) ?_ | split | dsimp only
      | exact List.Subset.trans (by decide) hp | exact hp (by decide)
      | exact Only.step hp (by assumption) (fun p q => by cases p <;> first | rfl | exact absurd (by decide) q))

theorem only_execDsSchedulingDecision {port : Fin 8} (hp : [.us, .sup, .qos, .ports, .pwr, .life,
    .win, .i3c, .reeve, .counters, .freeCtr] ⊆ ps) (h : execDsSchedulingDecision port s = .next t) :
    Only ps s t := by
  unfold execDsSchedulingDecision at h
  dsimp only at h
  have h0 : Only ps s (startTime port.val s) :=
    only_startTime (List.Subset.trans (by decide) hp) (Only.refl s)
  generalize startTime port.val s = s0 at h h0
  split at h
  · have h := Host.Outcome.next.inj h; subst h; exact h0
  · have e1 : Only ps s (each (fun q s => dropBad port.val q
        ((dsOf s q).frames.map (framesLeft s port.val)).sum s)
        ((List.range 8).map (fun c => port.val * 8 + c)) s0) :=
      only_each (fun _ _ hu => only_dropBad (List.Subset.trans (by decide) hp) hu) h0
    generalize each (fun q s => dropBad port.val q
        ((dsOf s q).frames.map (framesLeft s port.val)).sum s)
        ((List.range 8).map (fun c => port.val * 8 + c)) s0 = s1 at h e1
    split at h
    · have h := Host.Outcome.next.inj h; subst h; exact e1
    · generalize dsPick s1 port.val = w at h
      cases w with
      | none => have h := Host.Outcome.next.inj h; subst h; exact e1
      | some qa =>
        have h := Host.Outcome.next.inj h; subst h
        exact only_startHead (List.Subset.trans (by decide) hp)
          (only_shaperCharge (List.Subset.trans (by decide) hp)
            (only_shaperCharge (List.Subset.trans (by decide) hp)
              (only_modPortArb (List.Subset.trans (by decide) hp) e1)))

theorem only_execTxFrameDone {port : Fin 8} (hp : [.sup, .qos, .ports, .pwr, .life, .win, .i3c,
    .reeve, .counters, .freeCtr] ⊆ ps) (h : (execTxFrameDone port s) = .next t) :
    Only ps s t := by
  have hk : Only ps s s := Only.refl s
  unfold execTxFrameDone at h
  (try dsimp only at h)
  all_goals (repeat' split at h)
  all_goals (have h := Host.Outcome.next.inj h; subst h; repeat' first
      | with_reducible assumption | with_reducible exact fun _ h => h | with_reducible intro _
      | exact trivial | with_reducible apply only_ite | with_reducible apply only_ite2
      | with_reducible apply only_bump | with_reducible apply only_countSent
      | with_reducible apply only_freeBushels | with_reducible apply only_modDs
      | with_reducible apply only_modPort | with_reducible apply only_startPause
      | with_reducible apply only_startTime | refine only_snd (by assumption) ?_ | split
      | dsimp only | exact List.Subset.trans (by decide) hp | exact hp (by decide)
      | exact Only.step hp (by assumption) (fun p q => by cases p <;> first | rfl | exact absurd (by decide) q))

theorem only_execCoulterWalk {recirc : Bool} (hp : [.inQ, .us, .sup, .qos, .cls, .tine, .pwr, .life,
    .win, .i3c, .reeve, .counters, .freeCtr] ⊆ ps) (h : (execCoulterWalk recirc s) = .next t) :
    Only ps s t := by
  have hk : Only ps s s := Only.refl s
  unfold execCoulterWalk at h
  (try dsimp only at h)
  all_goals (repeat' split at h)
  all_goals (have h := Host.Outcome.next.inj h; subst h; repeat' first
      | with_reducible assumption | with_reducible exact fun _ h => h | with_reducible intro _
      | exact trivial | with_reducible apply only_ite | with_reducible apply only_ite2
      | with_reducible apply only_modCls | with_reducible apply only_takePlace
      | with_reducible apply only_walkTaken | refine only_snd (by assumption) ?_ | split
      | dsimp only | exact List.Subset.trans (by decide) hp | exact hp (by decide)
      | exact Only.step hp (by assumption) (fun p q => by cases p <;> first | rfl | exact absurd (by decide) q))

theorem only_execEmLookup {eccBad : List (Bool × Bool)} {eccCorr : Nat} (hp : [.sup, .qos, .cls,
    .life, .win, .i3c, .reeve, .counters] ⊆ ps) (h : (execEmLookup eccBad eccCorr s) = .next t) :
    Only ps s t := by
  have hk : Only ps s s := Only.refl s
  unfold execEmLookup at h
  (try dsimp only at h)
  all_goals (repeat' split at h)
  all_goals (have h := Host.Outcome.next.inj h; subst h; repeat' first
      | with_reducible assumption | with_reducible exact fun _ h => h | with_reducible intro _
      | exact trivial | with_reducible apply only_ite | with_reducible apply only_ite2
      | with_reducible apply only_applyResult | with_reducible apply only_bump
      | with_reducible apply only_emLookupOp | with_reducible apply only_modCls
      | refine only_snd (by assumption) ?_ | split | dsimp only
      | exact List.Subset.trans (by decide) hp | exact hp (by decide)
      | exact Only.step hp (by assumption) (fun p q => by cases p <;> first | rfl | exact absurd (by decide) q))

theorem only_execAtSwathExtrapolatedArrival  (hp : [.sup, .cls, .pair, .life, .win, .i3c, .reeve,
    .counters] ⊆ ps) (h : (execAtSwathExtrapolatedArrival s) = .next t) :
    Only ps s t := by
  have hk : Only ps s s := Only.refl s
  unfold execAtSwathExtrapolatedArrival at h
  (try dsimp only at h)
  all_goals (repeat' split at h)
  all_goals (have h := Host.Outcome.next.inj h; subst h; repeat' first
      | with_reducible assumption | with_reducible exact fun _ h => h | with_reducible intro _
      | exact trivial | with_reducible apply only_ite | with_reducible apply only_ite2
      | with_reducible apply only_commitNow | with_reducible apply only_heldCommitDue
      | refine only_snd (by assumption) ?_ | split | dsimp only
      | exact List.Subset.trans (by decide) hp | exact hp (by decide)
      | exact Only.step hp (by assumption) (fun p q => by cases p <;> first | rfl | exact absurd (by decide) q))

theorem only_execRetireSlow  (hp : [.cls, .win, .i3c, .reeve, .counters] ⊆ ps) (h : execRetireSlow s = .next t) :
    Only ps s t := by
  have hk : Only ps s s := Only.refl s
  unfold execRetireSlow at h
  (try dsimp only at h)
  all_goals (repeat' split at h)
  all_goals (have h := Host.Outcome.next.inj h; subst h; repeat' first
      | with_reducible assumption | with_reducible exact fun _ h => h | with_reducible intro _
      | exact trivial | with_reducible apply only_ite | with_reducible apply only_ite2
      | with_reducible apply only_modCls | with_reducible apply only_raise
      | refine only_snd (by assumption) ?_ | split | dsimp only
      | exact List.Subset.trans (by decide) hp | exact hp (by decide)
      | exact Only.step hp (by assumption) (fun p q => by cases p <;> first | rfl | exact absurd (by decide) q))

theorem only_execRehashDone {eccCorr : Nat} (hp : [.sup, .cry, .cls, .life, .win, .i3c, .reeve,
    .counters, .freeCtr] ⊆ ps) (h : execRehashDone s eccCorr = .next t) :
    Only ps s t := by
  have bu {c : CtrId} {k n : Nat} {u : State} (h : Only ps s u) : Only ps s (bump c k n u) :=
    only_bump (List.Subset.trans (by decide) hp) h
  unfold execRehashDone at h
  split at h
  · have h := Host.Outcome.next.inj h; subst h; exact Only.refl s
  · dsimp only at h
    have h1 : Only ps s (bump cEmEccCorr scDevice eccCorr s) := bu (Only.refl s)
    generalize bump cEmEccCorr scDevice eccCorr s = u at h h1
    have h2 : Only ps s (drawn (drawn u)) :=
      only_drawn (List.Subset.trans (by decide) hp) (only_drawn (List.Subset.trans (by decide) hp) h1)
    generalize drawn (drawn u) = u1 at h h2
    have h3 : Only ps s { u1 with cry := { u1.cry with requests := u1.cry.requests + 2 } } :=
      only_f_cry (hp (by decide)) h2
    split at h
    · have h := Host.Outcome.next.inj h; subst h
      exact only_each (fun _ _ k => only_raiseTag (List.Subset.trans (by decide) hp) k)
        (bu (bu (only_modCls (List.Subset.trans (by decide) hp) h3)))
    · have h := Host.Outcome.next.inj h; subst h; exact h3

theorem only_execSweepDone {eccCorr : Nat} (hp : [.sup, .cls, .life, .win, .i3c, .reeve, .counters]
    ⊆ ps) (h : (execSweepDone s eccCorr) = .next t) :
    Only ps s t := by
  have hk : Only ps s s := Only.refl s
  unfold execSweepDone at h
  (try dsimp only at h)
  all_goals (repeat' split at h)
  all_goals (have h := Host.Outcome.next.inj h; subst h; repeat' first
      | with_reducible assumption | with_reducible exact fun _ h => h | with_reducible intro _
      | exact trivial | with_reducible apply only_ite | with_reducible apply only_ite2
      | with_reducible apply only_bump | with_reducible apply only_modCls
      | with_reducible apply only_raise | refine only_snd (by assumption) ?_ | split | dsimp only
      | exact List.Subset.trans (by decide) hp | exact hp (by decide)
      | exact Only.step hp (by assumption) (fun p q => by cases p <;> first | rfl | exact absurd (by decide) q))

theorem only_execTineDispatch  (hp : [.sup, .cls, .tine, .life, .win, .i3c, .reeve, .counters] ⊆ ps) (h : execTineDispatch s = .next t) :
    Only ps s t := by
  have hk : Only ps s s := Only.refl s
  unfold execTineDispatch at h
  (try dsimp only at h)
  all_goals (repeat' split at h)
  all_goals (have h := Host.Outcome.next.inj h; subst h; repeat' first
      | with_reducible assumption | with_reducible exact fun _ h => h | with_reducible intro _
      | exact trivial | with_reducible apply only_ite | with_reducible apply only_ite2
      | with_reducible apply only_bump | with_reducible apply only_modCls
      | with_reducible apply only_modTine | with_reducible apply only_pmcInstant
      | with_reducible apply only_putThread | refine only_snd (by assumption) ?_ | split
      | dsimp only | with_reducible apply only_f_win | exact List.Subset.trans (by decide) hp
      | exact hp (by decide)
      | exact Only.step hp (by assumption) (fun p q => by cases p <;> first | rfl | exact absurd (by decide) q))

theorem only_execTrapQueueService {reinject : Bool} (hp : [.inQ, .qos, .cls, .tine, .pwr, .freeCtr] ⊆ ps) (h : execTrapQueueService reinject s = .next t) :
    Only ps s t := by
  have hk : Only ps s s := Only.refl s
  unfold execTrapQueueService at h
  (try dsimp only at h)
  all_goals (repeat' split at h)
  all_goals (have h := Host.Outcome.next.inj h; subst h; repeat' first
      | with_reducible assumption | with_reducible exact fun _ h => h | with_reducible intro _
      | exact trivial | with_reducible apply only_ite | with_reducible apply only_ite2
      | with_reducible apply only_freeBushels | with_reducible apply only_modTine
      | refine only_snd (by assumption) ?_ | split | dsimp only | with_reducible apply only_f_inQ
      | with_reducible apply only_f_cls | exact List.Subset.trans (by decide) hp
      | exact hp (by decide)
      | exact Only.step hp (by assumption) (fun p q => by cases p <;> first | rfl | exact absurd (by decide) q))

theorem only_execCipherOpComplete {client : Fin 3} (hp : [.groups, .reasm, .toTime, .toReeve, .inQ,
    .us, .act, .sup, .qos, .cry, .tine, .pwr, .life, .win, .i3c, .reeve, .counters, .freeCtr] ⊆ ps) (h : (execCipherOpComplete client s) = .next t) :
    Only ps s t := by
  have hk : Only ps s s := Only.refl s
  unfold execCipherOpComplete at h
  (try dsimp only at h)
  all_goals (repeat' split at h)
  all_goals (have h := Host.Outcome.next.inj h; subst h; repeat' first
      | with_reducible assumption | with_reducible exact fun _ h => h | with_reducible intro _
      | exact trivial | with_reducible apply only_ite | with_reducible apply only_ite2
      | with_reducible apply only_cryDone | with_reducible apply only_cryNoOutput
      | with_reducible apply only_dropOp | with_reducible apply only_startOps
      | refine only_snd (by assumption) ?_ | split | dsimp only
      | exact List.Subset.trans (by decide) hp | exact hp (by decide)
      | exact Only.step hp (by assumption) (fun p q => by cases p <;> first | rfl | exact absurd (by decide) q))

theorem only_execDrbgReseed {ok : Bool} (hp : [.sup, .cry, .life, .win, .i3c, .reeve, .counters] ⊆
    ps) (h : (execDrbgReseed ok s) = .next t) :
    Only ps s t := by
  have hk : Only ps s s := Only.refl s
  unfold execDrbgReseed at h
  (try dsimp only at h)
  all_goals (repeat' split at h)
  all_goals (have h := Host.Outcome.next.inj h; subst h; repeat' first
      | with_reducible assumption | with_reducible exact fun _ h => h | with_reducible intro _
      | exact trivial | with_reducible apply only_ite | with_reducible apply only_ite2
      | with_reducible apply only_bump | with_reducible apply only_raise
      | with_reducible apply only_startOps | refine only_snd (by assumption) ?_ | split
      | dsimp only | exact List.Subset.trans (by decide) hp | exact hp (by decide)
      | exact Only.step hp (by assumption) (fun p q => by cases p <;> first | rfl | exact absurd (by decide) q))

theorem only_execEntropyExhausted  (hp : [.groups, .reasm, .toTime, .toReeve, .inQ, .us, .act, .sup,
    .qos, .cry, .tine, .pwr, .life, .win, .i3c, .reeve, .counters, .freeCtr] ⊆ ps) (h : (execEntropyExhausted s) = .next t) :
    Only ps s t := by
  have hk : Only ps s s := Only.refl s
  unfold execEntropyExhausted at h
  (try dsimp only at h)
  all_goals (repeat' split at h)
  all_goals (have h := Host.Outcome.next.inj h; subst h; repeat' first
      | with_reducible assumption | with_reducible exact fun _ h => h | with_reducible intro _
      | exact trivial | with_reducible apply only_ite | with_reducible apply only_ite2
      | with_reducible apply only_each | with_reducible apply only_cryNoOutput
      | refine only_snd (by assumption) ?_ | split | dsimp only
      | exact List.Subset.trans (by decide) hp | exact hp (by decide)
      | exact Only.step hp (by assumption) (fun p q => by cases p <;> first | rfl | exact absurd (by decide) q))

theorem only_execKeyRequestCommit  (hp : [.groups, .reasm, .toTime, .toReeve, .inQ, .us, .act, .sup, .qos, .cry, .tine, .pwr, .life, .win, .i3c, .reeve, .counters, .freeCtr] ⊆ ps) (h : execKeyRequestCommit s = .next t) :
    Only ps s t := by
  have hk : Only ps s s := Only.refl s
  unfold execKeyRequestCommit at h
  (try dsimp only at h)
  all_goals (repeat' split at h)
  all_goals (have h := Host.Outcome.next.inj h; subst h; repeat' first
      | with_reducible assumption | with_reducible exact fun _ h => h | with_reducible intro _
      | exact trivial | with_reducible apply only_ite | with_reducible apply only_ite2
      | with_reducible apply only_eraseAll | with_reducible apply only_eraseSlots
      | with_reducible apply only_keyWritten | with_reducible apply only_loadKey
      | refine only_snd (by assumption) ?_ | split | dsimp only | with_reducible apply only_f_cry
      | exact List.Subset.trans (by decide) hp | exact hp (by decide)
      | exact Only.step hp (by assumption) (fun p q => by cases p <;> first | rfl | exact absurd (by decide) q))

theorem only_execKeySelWrite {value : BitVec 8} (hp : [.sup, .cry, .pwr, .life, .win, .i3c, .reeve, .counters] ⊆ ps) (h : execKeySelWrite value s = .next t) :
    Only ps s t := by
  have hk : Only ps s s := Only.refl s
  unfold execKeySelWrite at h
  (try dsimp only at h)
  all_goals (repeat' split at h)
  all_goals (have h := Host.Outcome.next.inj h; subst h; repeat' first
      | with_reducible assumption | with_reducible exact fun _ h => h | with_reducible intro _
      | exact trivial | with_reducible apply only_ite | with_reducible apply only_ite2
      | with_reducible apply only_keyAccess | with_reducible apply only_keySelWrite
      | refine only_snd (by assumption) ?_ | split | dsimp only
      | exact List.Subset.trans (by decide) hp | exact hp (by decide)
      | exact Only.step hp (by assumption) (fun p q => by cases p <;> first | rfl | exact absurd (by decide) q))

theorem only_execKeyLoad {wrapped : Bool} {size256 : Bool} (hp : [.sup, .cry, .pwr, .life, .win, .i3c, .reeve, .counters] ⊆ ps) (h : execKeyLoad wrapped size256 s = .next t) :
    Only ps s t := by
  have hk : Only ps s s := Only.refl s
  unfold execKeyLoad at h
  (try dsimp only at h)
  all_goals (repeat' split at h)
  all_goals (have h := Host.Outcome.next.inj h; subst h; repeat' first
      | with_reducible assumption | with_reducible exact fun _ h => h | with_reducible intro _
      | exact trivial | with_reducible apply only_ite | with_reducible apply only_ite2
      | with_reducible apply only_keyAccess | with_reducible apply only_keyWrite
      | refine only_snd (by assumption) ?_ | split | dsimp only
      | exact List.Subset.trans (by decide) hp | exact hp (by decide)
      | exact Only.step hp (by assumption) (fun p q => by cases p <;> first | rfl | exact absurd (by decide) q))

theorem only_execKeyErase  (hp : [.sup, .cry, .pwr, .life, .win, .i3c, .reeve, .counters] ⊆ ps) (h : execKeyErase s = .next t) :
    Only ps s t := by
  have hk : Only ps s s := Only.refl s
  unfold execKeyErase at h
  (try dsimp only at h)
  all_goals (repeat' split at h)
  all_goals (have h := Host.Outcome.next.inj h; subst h; repeat' first
      | with_reducible assumption | with_reducible exact fun _ h => h | with_reducible intro _
      | exact trivial | with_reducible apply only_ite | with_reducible apply only_ite2
      | with_reducible apply only_keyAccess | with_reducible apply only_keyWrite
      | refine only_snd (by assumption) ?_ | split | dsimp only
      | exact List.Subset.trans (by decide) hp | exact hp (by decide)
      | exact Only.step hp (by assumption) (fun p q => by cases p <;> first | rfl | exact absurd (by decide) q))

theorem only_execKeyEraseAll  (hp : [.sup, .cry, .pwr, .life, .win, .i3c, .reeve, .counters] ⊆ ps) (h : execKeyEraseAll s = .next t) :
    Only ps s t := by
  have hk : Only ps s s := Only.refl s
  unfold execKeyEraseAll at h
  (try dsimp only at h)
  all_goals (repeat' split at h)
  all_goals (have h := Host.Outcome.next.inj h; subst h; repeat' first
      | with_reducible assumption | with_reducible exact fun _ h => h | with_reducible intro _
      | exact trivial | with_reducible apply only_ite | with_reducible apply only_ite2
      | with_reducible apply only_keyAccess | with_reducible apply only_keyWrite
      | refine only_snd (by assumption) ?_ | split | dsimp only
      | exact List.Subset.trans (by decide) hp | exact hp (by decide)
      | exact Only.step hp (by assumption) (fun p q => by cases p <;> first | rfl | exact absurd (by decide) q))

theorem only_execLineConfigureLanes {c : Cmd} {optics0 : Optics} {optics1 : Optics} (hp : [.clk, .lanes, .groups, .lots, .reasm, .us, .act, .sup, .qos, .ports, .pwr, .pair, .life, .win, .i3c, .reeve, .settings, .counters, .freeCtr] ⊆ ps) (h : execLineConfigureLanes c optics0 optics1 s = .next t) :
    Only ps s t := by
  have hk : Only ps s s := Only.refl s
  unfold execLineConfigureLanes at h
  (try dsimp only at h)
  all_goals (repeat' split at h)
  all_goals (have h := Host.Outcome.next.inj h; subst h; repeat' first
      | with_reducible assumption | with_reducible exact fun _ h => h | with_reducible intro _
      | exact trivial | with_reducible apply only_ite | with_reducible apply only_ite2
      | with_reducible apply only_lineConfigureLanesBody | with_reducible apply only_runCmd
      | refine only_snd (by assumption) ?_ | split | dsimp only
      | exact List.Subset.trans (by decide) hp | exact hp (by decide)
      | exact Only.step hp (by assumption) (fun p q => by cases p <;> first | rfl | exact absurd (by decide) q))

theorem only_execLineSetEq {c : Cmd} (hp : [.lanes, .act, .sup, .pair, .life, .win, .i3c, .reeve, .settings, .counters] ⊆ ps) (h : execLineSetEq c s = .next t) :
    Only ps s t := by
  have hk : Only ps s s := Only.refl s
  unfold execLineSetEq at h
  (try dsimp only at h)
  all_goals (repeat' split at h)
  all_goals (have h := Host.Outcome.next.inj h; subst h; repeat' first
      | with_reducible assumption | with_reducible exact fun _ h => h | with_reducible intro _
      | exact trivial | with_reducible apply only_ite | with_reducible apply only_ite2
      | with_reducible apply only_lineSetEqBody | with_reducible apply only_runCmd
      | refine only_snd (by assumption) ?_ | split | dsimp only
      | exact List.Subset.trans (by decide) hp | exact hp (by decide)
      | exact Only.step hp (by assumption) (fun p q => by cases p <;> first | rfl | exact absurd (by decide) q))

theorem only_execLineSetGroup {c : Cmd} (hp : [.clk, .lanes, .groups, .lots, .reasm, .us, .act, .sup, .qos, .ports, .pwr, .pair, .life, .win, .i3c, .reeve, .settings, .counters, .freeCtr] ⊆ ps) (h : execLineSetGroup c s = .next t) :
    Only ps s t := by
  have hk : Only ps s s := Only.refl s
  unfold execLineSetGroup at h
  (try dsimp only at h)
  all_goals (repeat' split at h)
  all_goals (have h := Host.Outcome.next.inj h; subst h; repeat' first
      | with_reducible assumption | with_reducible exact fun _ h => h | with_reducible intro _
      | exact trivial | with_reducible apply only_ite | with_reducible apply only_ite2
      | with_reducible apply only_lineSetGroupBody | with_reducible apply only_runCmd
      | refine only_snd (by assumption) ?_ | split | dsimp only
      | exact List.Subset.trans (by decide) hp | exact hp (by decide)
      | exact Only.step hp (by assumption) (fun p q => by cases p <;> first | rfl | exact absurd (by decide) q))

theorem only_execLineGetLock {c : Cmd} (hp : [.act, .sup, .pair, .life, .win, .i3c, .reeve, .counters] ⊆ ps) (h : execLineGetLock c s = .next t) :
    Only ps s t := by
  have hk : Only ps s s := Only.refl s
  unfold execLineGetLock at h
  (try dsimp only at h)
  all_goals (repeat' split at h)
  all_goals (have h := Host.Outcome.next.inj h; subst h; repeat' first
      | with_reducible assumption | with_reducible exact fun _ h => h | with_reducible intro _
      | exact trivial | with_reducible apply only_ite | with_reducible apply only_ite2
      | with_reducible apply only_lineGetLockBody | with_reducible apply only_runCmd
      | refine only_snd (by assumption) ?_ | split | dsimp only
      | exact List.Subset.trans (by decide) hp | exact hp (by decide)
      | exact Only.step hp (by assumption) (fun p q => by cases p <;> first | rfl | exact absurd (by decide) q))

theorem only_execLineGetCounters {c : Cmd} (hp : [.act, .sup, .pair, .life, .win, .i3c, .reeve, .counters] ⊆ ps) (h : execLineGetCounters c s = .next t) :
    Only ps s t := by
  have hk : Only ps s s := Only.refl s
  unfold execLineGetCounters at h
  (try dsimp only at h)
  all_goals (repeat' split at h)
  all_goals (have h := Host.Outcome.next.inj h; subst h; repeat' first
      | with_reducible assumption | with_reducible exact fun _ h => h | with_reducible intro _
      | exact trivial | with_reducible apply only_ite | with_reducible apply only_ite2
      | with_reducible apply only_lineGetCountersBody | with_reducible apply only_runCmd
      | refine only_snd (by assumption) ?_ | split | dsimp only
      | exact List.Subset.trans (by decide) hp | exact hp (by decide)
      | exact Only.step hp (by assumption) (fun p q => by cases p <;> first | rfl | exact absurd (by decide) q))

theorem only_execSupSetActions {c : Cmd} (hp : [.act, .sup, .pair, .life, .win, .i3c, .reeve, .settings, .counters] ⊆ ps) (h : execSupSetActions c s = .next t) :
    Only ps s t := by
  have hk : Only ps s s := Only.refl s
  unfold execSupSetActions at h
  (try dsimp only at h)
  all_goals (repeat' split at h)
  all_goals (have h := Host.Outcome.next.inj h; subst h; repeat' first
      | with_reducible assumption | with_reducible exact fun _ h => h | with_reducible intro _
      | exact trivial | with_reducible apply only_ite | with_reducible apply only_ite2
      | with_reducible apply only_runCmd | with_reducible apply only_supSetActionsBody
      | refine only_snd (by assumption) ?_ | split | dsimp only
      | exact List.Subset.trans (by decide) hp | exact hp (by decide)
      | exact Only.step hp (by assumption) (fun p q => by cases p <;> first | rfl | exact absurd (by decide) q))

theorem only_execSupGetDefects {c : Cmd} (hp : [.act, .sup, .pair, .life, .win, .i3c, .reeve, .counters] ⊆ ps) (h : execSupGetDefects c s = .next t) :
    Only ps s t := by
  have hk : Only ps s s := Only.refl s
  unfold execSupGetDefects at h
  (try dsimp only at h)
  all_goals (repeat' split at h)
  all_goals (have h := Host.Outcome.next.inj h; subst h; repeat' first
      | with_reducible assumption | with_reducible exact fun _ h => h | with_reducible intro _
      | exact trivial | with_reducible apply only_ite | with_reducible apply only_ite2
      | with_reducible apply only_runCmd | with_reducible apply only_supGetDefectsBody
      | refine only_snd (by assumption) ?_ | split | dsimp only
      | exact List.Subset.trans (by decide) hp | exact hp (by decide)
      | exact Only.step hp (by assumption) (fun p q => by cases p <;> first | rfl | exact absurd (by decide) q))

theorem only_execSupGetBins {c : Cmd} (hp : [.act, .sup, .pair, .life, .win, .i3c, .reeve, .counters] ⊆ ps) (h : execSupGetBins c s = .next t) :
    Only ps s t := by
  have hk : Only ps s s := Only.refl s
  unfold execSupGetBins at h
  (try dsimp only at h)
  all_goals (repeat' split at h)
  all_goals (have h := Host.Outcome.next.inj h; subst h; repeat' first
      | with_reducible assumption | with_reducible exact fun _ h => h | with_reducible intro _
      | exact trivial | with_reducible apply only_ite | with_reducible apply only_ite2
      | with_reducible apply only_runCmd | with_reducible apply only_supGetBinsBody
      | refine only_snd (by assumption) ?_ | split | dsimp only
      | exact List.Subset.trans (by decide) hp | exact hp (by decide)
      | exact Only.step hp (by assumption) (fun p q => by cases p <;> first | rfl | exact absurd (by decide) q))

theorem only_execSupSetThresholds {c : Cmd} (hp : [.act, .sup, .pair, .life, .win, .i3c, .reeve, .settings, .counters] ⊆ ps) (h : execSupSetThresholds c s = .next t) :
    Only ps s t := by
  have hk : Only ps s s := Only.refl s
  unfold execSupSetThresholds at h
  (try dsimp only at h)
  all_goals (repeat' split at h)
  all_goals (have h := Host.Outcome.next.inj h; subst h; repeat' first
      | with_reducible assumption | with_reducible exact fun _ h => h | with_reducible intro _
      | exact trivial | with_reducible apply only_ite | with_reducible apply only_ite2
      | with_reducible apply only_runCmd | with_reducible apply only_supSetThresholdsBody
      | refine only_snd (by assumption) ?_ | split | dsimp only
      | exact List.Subset.trans (by decide) hp | exact hp (by decide)
      | exact Only.step hp (by assumption) (fun p q => by cases p <;> first | rfl | exact absurd (by decide) q))

theorem only_execActStart {c : Cmd} (hp : [.act, .sup, .pair, .life, .win, .i3c, .reeve, .settings, .counters] ⊆ ps) (h : execActStart c s = .next t) :
    Only ps s t := by
  have hk : Only ps s s := Only.refl s
  unfold execActStart at h
  (try dsimp only at h)
  all_goals (repeat' split at h)
  all_goals (have h := Host.Outcome.next.inj h; subst h; repeat' first
      | with_reducible assumption | with_reducible exact fun _ h => h | with_reducible intro _
      | exact trivial | with_reducible apply only_ite | with_reducible apply only_ite2
      | with_reducible apply only_actStartBody | with_reducible apply only_runCmd
      | refine only_snd (by assumption) ?_ | split | dsimp only
      | exact List.Subset.trans (by decide) hp | exact hp (by decide)
      | exact Only.step hp (by assumption) (fun p q => by cases p <;> first | rfl | exact absurd (by decide) q))

theorem only_execActStop {c : Cmd} (hp : [.lots, .reasm, .us, .act, .sup, .qos, .ports, .pwr, .pair, .life, .win, .i3c, .reeve, .counters, .freeCtr] ⊆ ps) (h : execActStop c s = .next t) :
    Only ps s t := by
  have hk : Only ps s s := Only.refl s
  unfold execActStop at h
  (try dsimp only at h)
  all_goals (repeat' split at h)
  all_goals (have h := Host.Outcome.next.inj h; subst h; repeat' first
      | with_reducible assumption | with_reducible exact fun _ h => h | with_reducible intro _
      | exact trivial | with_reducible apply only_ite | with_reducible apply only_ite2
      | with_reducible apply only_actStopBody | with_reducible apply only_runCmd
      | refine only_snd (by assumption) ?_ | split | dsimp only
      | exact List.Subset.trans (by decide) hp | exact hp (by decide)
      | exact Only.step hp (by assumption) (fun p q => by cases p <;> first | rfl | exact absurd (by decide) q))

theorem only_execActGetState {c : Cmd} (hp : [.act, .sup, .pair, .life, .win, .i3c, .reeve, .counters] ⊆ ps) (h : execActGetState c s = .next t) :
    Only ps s t := by
  have hk : Only ps s s := Only.refl s
  unfold execActGetState at h
  (try dsimp only at h)
  all_goals (repeat' split at h)
  all_goals (have h := Host.Outcome.next.inj h; subst h; repeat' first
      | with_reducible assumption | with_reducible exact fun _ h => h | with_reducible intro _
      | exact trivial | with_reducible apply only_ite | with_reducible apply only_ite2
      | with_reducible apply only_actGetStateBody | with_reducible apply only_runCmd
      | refine only_snd (by assumption) ?_ | split | dsimp only
      | exact List.Subset.trans (by decide) hp | exact hp (by decide)
      | exact Only.step hp (by assumption) (fun p q => by cases p <;> first | rfl | exact absurd (by decide) q))

theorem only_execActSetParenting {c : Cmd} (hp : [.clk, .lots, .reasm, .us, .act, .sup, .qos, .ports, .pwr, .pair, .life, .win, .i3c, .reeve, .settings, .counters, .freeCtr] ⊆ ps) (h : execActSetParenting c s = .next t) :
    Only ps s t := by
  have hk : Only ps s s := Only.refl s
  unfold execActSetParenting at h
  (try dsimp only at h)
  all_goals (repeat' split at h)
  all_goals (have h := Host.Outcome.next.inj h; subst h; repeat' first
      | with_reducible assumption | with_reducible exact fun _ h => h | with_reducible intro _
      | exact trivial | with_reducible apply only_ite | with_reducible apply only_ite2
      | with_reducible apply only_actSetParentingBody | with_reducible apply only_runCmd
      | refine only_snd (by assumption) ?_ | split | dsimp only
      | exact List.Subset.trans (by decide) hp | exact hp (by decide)
      | exact Only.step hp (by assumption) (fun p q => by cases p <;> first | rfl | exact absurd (by decide) q))

theorem only_execQosSetQueue {c : Cmd} (hp : [.us, .act, .sup, .qos, .pwr, .pair, .life, .win, .i3c, .reeve, .settings, .counters, .freeCtr] ⊆ ps) (h : execQosSetQueue c s = .next t) :
    Only ps s t := by
  have hk : Only ps s s := Only.refl s
  unfold execQosSetQueue at h
  (try dsimp only at h)
  all_goals (repeat' split at h)
  all_goals (have h := Host.Outcome.next.inj h; subst h; repeat' first
      | with_reducible assumption | with_reducible exact fun _ h => h | with_reducible intro _
      | exact trivial | with_reducible apply only_ite | with_reducible apply only_ite2
      | with_reducible apply only_qosSetQueueBody | with_reducible apply only_runCmd
      | refine only_snd (by assumption) ?_ | split | dsimp only
      | exact List.Subset.trans (by decide) hp | exact hp (by decide)
      | exact Only.step hp (by assumption) (fun p q => by cases p <;> first | rfl | exact absurd (by decide) q))

theorem only_execQosSetSched {c : Cmd} (hp : [.act, .sup, .qos, .pair, .life, .win, .i3c, .reeve, .settings, .counters] ⊆ ps) (h : execQosSetSched c s = .next t) :
    Only ps s t := by
  have hk : Only ps s s := Only.refl s
  unfold execQosSetSched at h
  (try dsimp only at h)
  all_goals (repeat' split at h)
  all_goals (have h := Host.Outcome.next.inj h; subst h; repeat' first
      | with_reducible assumption | with_reducible exact fun _ h => h | with_reducible intro _
      | exact trivial | with_reducible apply only_ite | with_reducible apply only_ite2
      | with_reducible apply only_qosSetSchedBody | with_reducible apply only_runCmd
      | refine only_snd (by assumption) ?_ | split | dsimp only
      | exact List.Subset.trans (by decide) hp | exact hp (by decide)
      | exact Only.step hp (by assumption) (fun p q => by cases p <;> first | rfl | exact absurd (by decide) q))

theorem only_execQosSetMeter {c : Cmd} (hp : [.act, .sup, .qos, .pair, .life, .win, .i3c, .reeve, .settings, .counters] ⊆ ps) (h : execQosSetMeter c s = .next t) :
    Only ps s t := by
  have hk : Only ps s s := Only.refl s
  unfold execQosSetMeter at h
  (try dsimp only at h)
  all_goals (repeat' split at h)
  all_goals (have h := Host.Outcome.next.inj h; subst h; repeat' first
      | with_reducible assumption | with_reducible exact fun _ h => h | with_reducible intro _
      | exact trivial | with_reducible apply only_ite | with_reducible apply only_ite2
      | with_reducible apply only_qosSetMeterBody | with_reducible apply only_runCmd
      | refine only_snd (by assumption) ?_ | split | dsimp only
      | exact List.Subset.trans (by decide) hp | exact hp (by decide)
      | exact Only.step hp (by assumption) (fun p q => by cases p <;> first | rfl | exact absurd (by decide) q))

theorem only_execQosGetQueue {c : Cmd} (hp : [.us, .act, .sup, .qos, .pair, .life, .win, .i3c, .reeve, .counters] ⊆ ps) (h : execQosGetQueue c s = .next t) :
    Only ps s t := by
  have hk : Only ps s s := Only.refl s
  unfold execQosGetQueue at h
  (try dsimp only at h)
  all_goals (repeat' split at h)
  all_goals (have h := Host.Outcome.next.inj h; subst h; repeat' first
      | with_reducible assumption | with_reducible exact fun _ h => h | with_reducible intro _
      | exact trivial | with_reducible apply only_ite | with_reducible apply only_ite2
      | with_reducible apply only_qosGetQueueBody | with_reducible apply only_runCmd
      | refine only_snd (by assumption) ?_ | split | dsimp only
      | exact List.Subset.trans (by decide) hp | exact hp (by decide)
      | exact Only.step hp (by assumption) (fun p q => by cases p <;> first | rfl | exact absurd (by decide) q))

theorem only_execPortConfigure {c : Cmd} (hp : [.us, .act, .sup, .qos, .ports, .slanes, .pwr, .pair, .life, .win, .i3c, .reeve, .settings, .counters, .freeCtr] ⊆ ps) (h : execPortConfigure c s = .next t) :
    Only ps s t := by
  have hk : Only ps s s := Only.refl s
  unfold execPortConfigure at h
  (try dsimp only at h)
  all_goals (repeat' split at h)
  all_goals (have h := Host.Outcome.next.inj h; subst h; repeat' first
      | with_reducible assumption | with_reducible exact fun _ h => h | with_reducible intro _
      | exact trivial | with_reducible apply only_ite | with_reducible apply only_ite2
      | with_reducible apply only_portConfigureBody | with_reducible apply only_runCmd
      | refine only_snd (by assumption) ?_ | split | dsimp only
      | exact List.Subset.trans (by decide) hp | exact hp (by decide)
      | exact Only.step hp (by assumption) (fun p q => by cases p <;> first | rfl | exact absurd (by decide) q))

theorem only_execPortSetFilters {c : Cmd} (hp : [.act, .sup, .ports, .pair, .life, .win, .i3c, .reeve, .counters] ⊆ ps) (h : execPortSetFilters c s = .next t) :
    Only ps s t := by
  have hk : Only ps s s := Only.refl s
  unfold execPortSetFilters at h
  (try dsimp only at h)
  all_goals (repeat' split at h)
  all_goals (have h := Host.Outcome.next.inj h; subst h; repeat' first
      | with_reducible assumption | with_reducible exact fun _ h => h | with_reducible intro _
      | exact trivial | with_reducible apply only_ite | with_reducible apply only_ite2
      | with_reducible apply only_portSetFiltersBody | with_reducible apply only_runCmd
      | refine only_snd (by assumption) ?_ | split | dsimp only
      | exact List.Subset.trans (by decide) hp | exact hp (by decide)
      | exact Only.step hp (by assumption) (fun p q => by cases p <;> first | rfl | exact absurd (by decide) q))

theorem only_execPortSetSheaf {c : Cmd} (hp : [.act, .sup, .pair, .life, .win, .i3c, .reeve, .settings, .counters] ⊆ ps) (h : execPortSetSheaf c s = .next t) :
    Only ps s t := by
  have hk : Only ps s s := Only.refl s
  unfold execPortSetSheaf at h
  (try dsimp only at h)
  all_goals (repeat' split at h)
  all_goals (have h := Host.Outcome.next.inj h; subst h; repeat' first
      | with_reducible assumption | with_reducible exact fun _ h => h | with_reducible intro _
      | exact trivial | with_reducible apply only_ite | with_reducible apply only_ite2
      | with_reducible apply only_portSetSheafBody | with_reducible apply only_runCmd
      | refine only_snd (by assumption) ?_ | split | dsimp only
      | exact List.Subset.trans (by decide) hp | exact hp (by decide)
      | exact Only.step hp (by assumption) (fun p q => by cases p <;> first | rfl | exact absurd (by decide) q))

theorem only_execPortGetStats {c : Cmd} (hp : [.act, .sup, .pair, .life, .win, .i3c, .reeve, .counters] ⊆ ps) (h : execPortGetStats c s = .next t) :
    Only ps s t := by
  have hk : Only ps s s := Only.refl s
  unfold execPortGetStats at h
  (try dsimp only at h)
  all_goals (repeat' split at h)
  all_goals (have h := Host.Outcome.next.inj h; subst h; repeat' first
      | with_reducible assumption | with_reducible exact fun _ h => h | with_reducible intro _
      | exact trivial | with_reducible apply only_ite | with_reducible apply only_ite2
      | with_reducible apply only_portGetStatsBody | with_reducible apply only_runCmd
      | refine only_snd (by assumption) ?_ | split | dsimp only
      | exact List.Subset.trans (by decide) hp | exact hp (by decide)
      | exact Only.step hp (by assumption) (fun p q => by cases p <;> first | rfl | exact absurd (by decide) q))

theorem only_execQosSetShaper {c : Cmd} (hp : [.act, .sup, .qos, .pair, .life, .win, .i3c, .reeve, .settings, .counters] ⊆ ps) (h : execQosSetShaper c s = .next t) :
    Only ps s t := by
  have hk : Only ps s s := Only.refl s
  unfold execQosSetShaper at h
  (try dsimp only at h)
  all_goals (repeat' split at h)
  all_goals (have h := Host.Outcome.next.inj h; subst h; repeat' first
      | with_reducible assumption | with_reducible exact fun _ h => h | with_reducible intro _
      | exact trivial | with_reducible apply only_ite | with_reducible apply only_ite2
      | with_reducible apply only_qosSetShaperPortBody | with_reducible apply only_runCmd
      | refine only_snd (by assumption) ?_ | split | dsimp only
      | exact List.Subset.trans (by decide) hp | exact hp (by decide)
      | exact Only.step hp (by assumption) (fun p q => by cases p <;> first | rfl | exact absurd (by decide) q))

theorem only_execPtpConfigurePort {c : Cmd} (hp : [.act, .sup, .ports, .pair, .life, .win, .i3c, .reeve, .settings, .counters] ⊆ ps) (h : execPtpConfigurePort c s = .next t) :
    Only ps s t := by
  have hk : Only ps s s := Only.refl s
  unfold execPtpConfigurePort at h
  (try dsimp only at h)
  all_goals (repeat' split at h)
  all_goals (have h := Host.Outcome.next.inj h; subst h; repeat' first
      | with_reducible assumption | with_reducible exact fun _ h => h | with_reducible intro _
      | exact trivial | with_reducible apply only_ite | with_reducible apply only_ite2
      | with_reducible apply only_ptpConfigurePortBody | with_reducible apply only_runCmd
      | refine only_snd (by assumption) ?_ | split | dsimp only
      | exact List.Subset.trans (by decide) hp | exact hp (by decide)
      | exact Only.step hp (by assumption) (fun p q => by cases p <;> first | rfl | exact absurd (by decide) q))

theorem only_execPtpGetPort {c : Cmd} (hp : [.act, .sup, .pair, .life, .win, .i3c, .reeve, .counters] ⊆ ps) (h : execPtpGetPort c s = .next t) :
    Only ps s t := by
  have hk : Only ps s s := Only.refl s
  unfold execPtpGetPort at h
  (try dsimp only at h)
  all_goals (repeat' split at h)
  all_goals (have h := Host.Outcome.next.inj h; subst h; repeat' first
      | with_reducible assumption | with_reducible exact fun _ h => h | with_reducible intro _
      | exact trivial | with_reducible apply only_ite | with_reducible apply only_ite2
      | with_reducible apply only_ptpGetPortBody | with_reducible apply only_runCmd
      | refine only_snd (by assumption) ?_ | split | dsimp only
      | exact List.Subset.trans (by decide) hp | exact hp (by decide)
      | exact Only.step hp (by assumption) (fun p q => by cases p <;> first | rfl | exact absurd (by decide) q))

theorem only_execTimeSetDomains {c : Cmd} (hp : [.act, .sup, .time, .pair, .life, .win, .i3c, .reeve, .settings, .counters] ⊆ ps) (h : execTimeSetDomains c s = .next t) :
    Only ps s t := by
  have hk : Only ps s s := Only.refl s
  unfold execTimeSetDomains at h
  (try dsimp only at h)
  all_goals (repeat' split at h)
  all_goals (have h := Host.Outcome.next.inj h; subst h; repeat' first
      | with_reducible assumption | with_reducible exact fun _ h => h | with_reducible intro _
      | exact trivial | with_reducible apply only_ite | with_reducible apply only_ite2
      | with_reducible apply only_runCmd | with_reducible apply only_timeSetDomainsBody
      | refine only_snd (by assumption) ?_ | split | dsimp only
      | exact List.Subset.trans (by decide) hp | exact hp (by decide)
      | exact Only.step hp (by assumption) (fun p q => by cases p <;> first | rfl | exact absurd (by decide) q))

theorem only_execTimeSelect {c : Cmd} (hp : [.act, .sup, .time, .pair, .life, .win, .i3c, .reeve, .counters] ⊆ ps) (h : execTimeSelect c s = .next t) :
    Only ps s t := by
  have hk : Only ps s s := Only.refl s
  unfold execTimeSelect at h
  (try dsimp only at h)
  all_goals (repeat' split at h)
  all_goals (have h := Host.Outcome.next.inj h; subst h; repeat' first
      | with_reducible assumption | with_reducible exact fun _ h => h | with_reducible intro _
      | exact trivial | with_reducible apply only_ite | with_reducible apply only_ite2
      | with_reducible apply only_runCmd | with_reducible apply only_timeSelectBody
      | refine only_snd (by assumption) ?_ | split | dsimp only
      | exact List.Subset.trans (by decide) hp | exact hp (by decide)
      | exact Only.step hp (by assumption) (fun p q => by cases p <;> first | rfl | exact absurd (by decide) q))

theorem only_execTimeSetAsym {c : Cmd} (hp : [.act, .sup, .time, .pair, .life, .win, .i3c, .reeve, .settings, .counters, .freeCtr] ⊆ ps) (h : execTimeSetAsym c s = .next t) :
    Only ps s t := by
  have hk : Only ps s s := Only.refl s
  unfold execTimeSetAsym at h
  (try dsimp only at h)
  all_goals (repeat' split at h)
  all_goals (have h := Host.Outcome.next.inj h; subst h; repeat' first
      | with_reducible assumption | with_reducible exact fun _ h => h | with_reducible intro _
      | exact trivial | with_reducible apply only_ite | with_reducible apply only_ite2
      | with_reducible apply only_runCmd | with_reducible apply only_timeSetAsymBody
      | refine only_snd (by assumption) ?_ | split | dsimp only
      | exact List.Subset.trans (by decide) hp | exact hp (by decide)
      | exact Only.step hp (by assumption) (fun p q => by cases p <;> first | rfl | exact absurd (by decide) q))

theorem only_execTimeGetFit {c : Cmd} (hp : [.act, .sup, .pair, .life, .win, .i3c, .reeve, .counters] ⊆ ps) (h : execTimeGetFit c s = .next t) :
    Only ps s t := by
  have hk : Only ps s s := Only.refl s
  unfold execTimeGetFit at h
  (try dsimp only at h)
  all_goals (repeat' split at h)
  all_goals (have h := Host.Outcome.next.inj h; subst h; repeat' first
      | with_reducible assumption | with_reducible exact fun _ h => h | with_reducible intro _
      | exact trivial | with_reducible apply only_ite | with_reducible apply only_ite2
      | with_reducible apply only_runCmd | with_reducible apply only_timeGetFitBody
      | refine only_snd (by assumption) ?_ | split | dsimp only
      | exact List.Subset.trans (by decide) hp | exact hp (by decide)
      | exact Only.step hp (by assumption) (fun p q => by cases p <;> first | rfl | exact absurd (by decide) q))

theorem only_execTimeSetOutputs {c : Cmd} (hp : [.act, .sup, .time, .pair, .life, .win, .i3c, .reeve, .settings, .counters] ⊆ ps) (h : execTimeSetOutputs c s = .next t) :
    Only ps s t := by
  have hk : Only ps s s := Only.refl s
  unfold execTimeSetOutputs at h
  (try dsimp only at h)
  all_goals (repeat' split at h)
  all_goals (have h := Host.Outcome.next.inj h; subst h; repeat' first
      | with_reducible assumption | with_reducible exact fun _ h => h | with_reducible intro _
      | exact trivial | with_reducible apply only_ite | with_reducible apply only_ite2
      | with_reducible apply only_runCmd | with_reducible apply only_timeSetOutputsBody
      | refine only_snd (by assumption) ?_ | split | dsimp only
      | exact List.Subset.trans (by decide) hp | exact hp (by decide)
      | exact Only.step hp (by assumption) (fun p q => by cases p <;> first | rfl | exact absurd (by decide) q))

theorem only_execTimeGetStatus {c : Cmd} (hp : [.act, .sup, .pair, .life, .win, .i3c, .reeve, .counters, .freeCtr] ⊆ ps) (h : execTimeGetStatus c s = .next t) :
    Only ps s t := by
  have hk : Only ps s s := Only.refl s
  unfold execTimeGetStatus at h
  (try dsimp only at h)
  all_goals (repeat' split at h)
  all_goals (have h := Host.Outcome.next.inj h; subst h; repeat' first
      | with_reducible assumption | with_reducible exact fun _ h => h | with_reducible intro _
      | exact trivial | with_reducible apply only_ite | with_reducible apply only_ite2
      | with_reducible apply only_runCmd | with_reducible apply only_timeGetStatusBody
      | refine only_snd (by assumption) ?_ | split | dsimp only
      | exact List.Subset.trans (by decide) hp | exact hp (by decide)
      | exact Only.step hp (by assumption) (fun p q => by cases p <;> first | rfl | exact absurd (by decide) q))

theorem only_execClsLoadGraph {c : Cmd} (hp : [.act, .sup, .cls, .pair, .life, .win, .i3c, .reeve, .counters] ⊆ ps) (h : execClsLoadGraph c s = .next t) :
    Only ps s t := by
  have hk : Only ps s s := Only.refl s
  unfold execClsLoadGraph at h
  (try dsimp only at h)
  all_goals (repeat' split at h)
  all_goals (have h := Host.Outcome.next.inj h; subst h; repeat' first
      | with_reducible assumption | with_reducible exact fun _ h => h | with_reducible intro _
      | exact trivial | with_reducible apply only_ite | with_reducible apply only_ite2
      | with_reducible apply only_clsLoadGraphBody | with_reducible apply only_runCmd
      | refine only_snd (by assumption) ?_ | split | dsimp only
      | exact List.Subset.trans (by decide) hp | exact hp (by decide)
      | exact Only.step hp (by assumption) (fun p q => by cases p <;> first | rfl | exact absurd (by decide) q))

theorem only_execClsSetPatterns {c : Cmd} (hp : [.act, .sup, .cls, .pair, .life, .win, .i3c, .reeve, .counters] ⊆ ps) (h : execClsSetPatterns c s = .next t) :
    Only ps s t := by
  have hk : Only ps s s := Only.refl s
  unfold execClsSetPatterns at h
  (try dsimp only at h)
  all_goals (repeat' split at h)
  all_goals (have h := Host.Outcome.next.inj h; subst h; repeat' first
      | with_reducible assumption | with_reducible exact fun _ h => h | with_reducible intro _
      | exact trivial | with_reducible apply only_ite | with_reducible apply only_ite2
      | with_reducible apply only_clsSetPatternsBody | with_reducible apply only_runCmd
      | refine only_snd (by assumption) ?_ | split | dsimp only
      | exact List.Subset.trans (by decide) hp | exact hp (by decide)
      | exact Only.step hp (by assumption) (fun p q => by cases p <;> first | rfl | exact absurd (by decide) q))

end Sys2Proof.Machine
end

