-- ==== Sys2Proof/Laws/Frame3.lean ====
section
/-! SUPPORT. The frames of the commands, part 3 of 5, ClsStageRules to SecDebugChallenge: which parts of the
state each may change. -/
-- One list of alternatives serves every lemma below; not every lemma uses each of them.
set_option linter.unusedTactic false
set_option linter.unreachableTactic false
namespace Sys2Proof.Machine
variable {ps : List Part} {s t : State}

theorem only_execClsStageRules {c : Cmd} (hp : [.act, .sup, .cls, .pair, .life, .win, .i3c, .reeve, .counters] ⊆ ps) (h : execClsStageRules c s = .next t) :
    Only ps s t := by
  have hk : Only ps s s := Only.refl s
  unfold execClsStageRules at h
  (try dsimp only at h)
  all_goals (repeat' split at h)
  all_goals (have h := Host.Outcome.next.inj h; subst h; repeat' first
      | with_reducible assumption | with_reducible exact fun _ h => h | with_reducible intro _
      | exact trivial | with_reducible apply only_ite | with_reducible apply only_ite2
      | with_reducible apply only_clsStageRulesBody | with_reducible apply only_runCmd
      | refine only_snd (by assumption) ?_ | split | dsimp only
      | exact List.Subset.trans (by decide) hp | exact hp (by decide)
      | exact Only.step hp (by assumption) (fun p q => by cases p <;> first | rfl | exact absurd (by decide) q))

theorem only_execClsCommit {c : Cmd} (hp : [.act, .sup, .cls, .pair, .life, .win, .i3c, .reeve, .counters] ⊆ ps) (h : execClsCommit c s = .next t) :
    Only ps s t := by
  have hk : Only ps s s := Only.refl s
  unfold execClsCommit at h
  (try dsimp only at h)
  all_goals (repeat' split at h)
  all_goals (have h := Host.Outcome.next.inj h; subst h; repeat' first
      | with_reducible assumption | with_reducible exact fun _ h => h | with_reducible intro _
      | exact trivial | with_reducible apply only_ite | with_reducible apply only_ite2
      | with_reducible apply only_clsCommitBody | with_reducible apply only_runCmd
      | refine only_snd (by assumption) ?_ | split | dsimp only
      | exact List.Subset.trans (by decide) hp | exact hp (by decide)
      | exact Only.step hp (by assumption) (fun p q => by cases p <;> first | rfl | exact absurd (by decide) q))

theorem only_execClsGetGeneration {c : Cmd} (hp : [.act, .sup, .cls, .pair, .life, .win, .i3c, .reeve, .counters] ⊆ ps) (h : execClsGetGeneration c s = .next t) :
    Only ps s t := by
  have hk : Only ps s s := Only.refl s
  unfold execClsGetGeneration at h
  (try dsimp only at h)
  all_goals (repeat' split at h)
  all_goals (have h := Host.Outcome.next.inj h; subst h; repeat' first
      | with_reducible assumption | with_reducible exact fun _ h => h | with_reducible intro _
      | exact trivial | with_reducible apply only_ite | with_reducible apply only_ite2
      | with_reducible apply only_clsGetGenerationBody | with_reducible apply only_runCmd
      | refine only_snd (by assumption) ?_ | split | dsimp only
      | exact List.Subset.trans (by decide) hp | exact hp (by decide)
      | exact Only.step hp (by assumption) (fun p q => by cases p <;> first | rfl | exact absurd (by decide) q))

theorem only_execNop {th : ThreadId} {f : TFields} (hp : [.us, .sup, .qos, .cls, .tine, .pwr, .life, .win, .i3c, .reeve, .counters, .freeCtr] ⊆ ps) (h : execNop th f s = .next t) :
    Only ps s t := by
  have hk : Only ps s s := Only.refl s
  unfold execNop at h
  (try dsimp only at h)
  all_goals (repeat' split at h)
  all_goals (have h := Host.Outcome.next.inj h; subst h; repeat' first
      | with_reducible assumption | with_reducible exact fun _ h => h | with_reducible intro _
      | with_reducible apply resOnly_fault | with_reducible apply resOnly_ok
      | with_reducible apply resOnly_wait | with_reducible apply resOnly_stop
      | with_reducible apply resOnly_done | with_reducible exact (trivial : True)
      | with_reducible apply only_ite | with_reducible apply only_ite2
      | with_reducible apply only_issue | refine only_snd (by assumption) ?_ | split | dsimp only
      | exact List.Subset.trans (by decide) hp | exact hp (by decide)
      | exact Only.step hp (by assumption) (fun p q => by cases p <;> first | rfl | exact absurd (by decide) q))

theorem only_execAdd {th : ThreadId} {f : TFields} (hp : [.us, .sup, .qos, .cls, .tine, .pwr, .life, .win, .i3c, .reeve, .counters, .freeCtr] ⊆ ps) (h : execAdd th f s = .next t) :
    Only ps s t := by
  have hk : Only ps s s := Only.refl s
  unfold execAdd at h
  (try dsimp only at h)
  all_goals (repeat' split at h)
  all_goals (have h := Host.Outcome.next.inj h; subst h; repeat' first
      | with_reducible assumption | with_reducible exact fun _ h => h | with_reducible intro _
      | exact trivial | with_reducible apply only_ite | with_reducible apply only_ite2
      | with_reducible apply only_aluOp | refine only_snd (by assumption) ?_ | split | dsimp only
      | exact List.Subset.trans (by decide) hp | exact hp (by decide)
      | exact Only.step hp (by assumption) (fun p q => by cases p <;> first | rfl | exact absurd (by decide) q))

theorem only_execSub {th : ThreadId} {f : TFields} (hp : [.us, .sup, .qos, .cls, .tine, .pwr, .life, .win, .i3c, .reeve, .counters, .freeCtr] ⊆ ps) (h : execSub th f s = .next t) :
    Only ps s t := by
  have hk : Only ps s s := Only.refl s
  unfold execSub at h
  (try dsimp only at h)
  all_goals (repeat' split at h)
  all_goals (have h := Host.Outcome.next.inj h; subst h; repeat' first
      | with_reducible assumption | with_reducible exact fun _ h => h | with_reducible intro _
      | exact trivial | with_reducible apply only_ite | with_reducible apply only_ite2
      | with_reducible apply only_aluOp | refine only_snd (by assumption) ?_ | split | dsimp only
      | exact List.Subset.trans (by decide) hp | exact hp (by decide)
      | exact Only.step hp (by assumption) (fun p q => by cases p <;> first | rfl | exact absurd (by decide) q))

theorem only_execAnd {th : ThreadId} {f : TFields} (hp : [.us, .sup, .qos, .cls, .tine, .pwr, .life, .win, .i3c, .reeve, .counters, .freeCtr] ⊆ ps) (h : execAnd th f s = .next t) :
    Only ps s t := by
  have hk : Only ps s s := Only.refl s
  unfold execAnd at h
  (try dsimp only at h)
  all_goals (repeat' split at h)
  all_goals (have h := Host.Outcome.next.inj h; subst h; repeat' first
      | with_reducible assumption | with_reducible exact fun _ h => h | with_reducible intro _
      | exact trivial | with_reducible apply only_ite | with_reducible apply only_ite2
      | with_reducible apply only_aluOp | refine only_snd (by assumption) ?_ | split | dsimp only
      | exact List.Subset.trans (by decide) hp | exact hp (by decide)
      | exact Only.step hp (by assumption) (fun p q => by cases p <;> first | rfl | exact absurd (by decide) q))

theorem only_execOr {th : ThreadId} {f : TFields} (hp : [.us, .sup, .qos, .cls, .tine, .pwr, .life, .win, .i3c, .reeve, .counters, .freeCtr] ⊆ ps) (h : execOr th f s = .next t) :
    Only ps s t := by
  have hk : Only ps s s := Only.refl s
  unfold execOr at h
  (try dsimp only at h)
  all_goals (repeat' split at h)
  all_goals (have h := Host.Outcome.next.inj h; subst h; repeat' first
      | with_reducible assumption | with_reducible exact fun _ h => h | with_reducible intro _
      | exact trivial | with_reducible apply only_ite | with_reducible apply only_ite2
      | with_reducible apply only_aluOp | refine only_snd (by assumption) ?_ | split | dsimp only
      | exact List.Subset.trans (by decide) hp | exact hp (by decide)
      | exact Only.step hp (by assumption) (fun p q => by cases p <;> first | rfl | exact absurd (by decide) q))

theorem only_execXor {th : ThreadId} {f : TFields} (hp : [.us, .sup, .qos, .cls, .tine, .pwr, .life, .win, .i3c, .reeve, .counters, .freeCtr] ⊆ ps) (h : execXor th f s = .next t) :
    Only ps s t := by
  have hk : Only ps s s := Only.refl s
  unfold execXor at h
  (try dsimp only at h)
  all_goals (repeat' split at h)
  all_goals (have h := Host.Outcome.next.inj h; subst h; repeat' first
      | with_reducible assumption | with_reducible exact fun _ h => h | with_reducible intro _
      | exact trivial | with_reducible apply only_ite | with_reducible apply only_ite2
      | with_reducible apply only_aluOp | refine only_snd (by assumption) ?_ | split | dsimp only
      | exact List.Subset.trans (by decide) hp | exact hp (by decide)
      | exact Only.step hp (by assumption) (fun p q => by cases p <;> first | rfl | exact absurd (by decide) q))

theorem only_execShl {th : ThreadId} {f : TFields} (hp : [.us, .sup, .qos, .cls, .tine, .pwr, .life, .win, .i3c, .reeve, .counters, .freeCtr] ⊆ ps) (h : execShl th f s = .next t) :
    Only ps s t := by
  have hk : Only ps s s := Only.refl s
  unfold execShl at h
  (try dsimp only at h)
  all_goals (repeat' split at h)
  all_goals (have h := Host.Outcome.next.inj h; subst h; repeat' first
      | with_reducible assumption | with_reducible exact fun _ h => h | with_reducible intro _
      | exact trivial | with_reducible apply only_ite | with_reducible apply only_ite2
      | with_reducible apply only_aluOp | refine only_snd (by assumption) ?_ | split | dsimp only
      | exact List.Subset.trans (by decide) hp | exact hp (by decide)
      | exact Only.step hp (by assumption) (fun p q => by cases p <;> first | rfl | exact absurd (by decide) q))

theorem only_execShr {th : ThreadId} {f : TFields} (hp : [.us, .sup, .qos, .cls, .tine, .pwr, .life, .win, .i3c, .reeve, .counters, .freeCtr] ⊆ ps) (h : execShr th f s = .next t) :
    Only ps s t := by
  have hk : Only ps s s := Only.refl s
  unfold execShr at h
  (try dsimp only at h)
  all_goals (repeat' split at h)
  all_goals (have h := Host.Outcome.next.inj h; subst h; repeat' first
      | with_reducible assumption | with_reducible exact fun _ h => h | with_reducible intro _
      | exact trivial | with_reducible apply only_ite | with_reducible apply only_ite2
      | with_reducible apply only_aluOp | refine only_snd (by assumption) ?_ | split | dsimp only
      | exact List.Subset.trans (by decide) hp | exact hp (by decide)
      | exact Only.step hp (by assumption) (fun p q => by cases p <;> first | rfl | exact absurd (by decide) q))

theorem only_execSra {th : ThreadId} {f : TFields} (hp : [.us, .sup, .qos, .cls, .tine, .pwr, .life, .win, .i3c, .reeve, .counters, .freeCtr] ⊆ ps) (h : execSra th f s = .next t) :
    Only ps s t := by
  have hk : Only ps s s := Only.refl s
  unfold execSra at h
  (try dsimp only at h)
  all_goals (repeat' split at h)
  all_goals (have h := Host.Outcome.next.inj h; subst h; repeat' first
      | with_reducible assumption | with_reducible exact fun _ h => h | with_reducible intro _
      | exact trivial | with_reducible apply only_ite | with_reducible apply only_ite2
      | with_reducible apply only_aluOp | refine only_snd (by assumption) ?_ | split | dsimp only
      | exact List.Subset.trans (by decide) hp | exact hp (by decide)
      | exact Only.step hp (by assumption) (fun p q => by cases p <;> first | rfl | exact absurd (by decide) q))

theorem only_execMul {th : ThreadId} {f : TFields} (hp : [.us, .sup, .qos, .cls, .tine, .pwr, .life, .win, .i3c, .reeve, .counters, .freeCtr] ⊆ ps) (h : execMul th f s = .next t) :
    Only ps s t := by
  have hk : Only ps s s := Only.refl s
  unfold execMul at h
  (try dsimp only at h)
  all_goals (repeat' split at h)
  all_goals (have h := Host.Outcome.next.inj h; subst h; repeat' first
      | with_reducible assumption | with_reducible exact fun _ h => h | with_reducible intro _
      | exact trivial | with_reducible apply only_ite | with_reducible apply only_ite2
      | with_reducible apply only_aluOp | refine only_snd (by assumption) ?_ | split | dsimp only
      | exact List.Subset.trans (by decide) hp | exact hp (by decide)
      | exact Only.step hp (by assumption) (fun p q => by cases p <;> first | rfl | exact absurd (by decide) q))

theorem only_execMinu {th : ThreadId} {f : TFields} (hp : [.us, .sup, .qos, .cls, .tine, .pwr, .life, .win, .i3c, .reeve, .counters, .freeCtr] ⊆ ps) (h : execMinu th f s = .next t) :
    Only ps s t := by
  have hk : Only ps s s := Only.refl s
  unfold execMinu at h
  (try dsimp only at h)
  all_goals (repeat' split at h)
  all_goals (have h := Host.Outcome.next.inj h; subst h; repeat' first
      | with_reducible assumption | with_reducible exact fun _ h => h | with_reducible intro _
      | exact trivial | with_reducible apply only_ite | with_reducible apply only_ite2
      | with_reducible apply only_aluOp | refine only_snd (by assumption) ?_ | split | dsimp only
      | exact List.Subset.trans (by decide) hp | exact hp (by decide)
      | exact Only.step hp (by assumption) (fun p q => by cases p <;> first | rfl | exact absurd (by decide) q))

theorem only_execMaxu {th : ThreadId} {f : TFields} (hp : [.us, .sup, .qos, .cls, .tine, .pwr, .life, .win, .i3c, .reeve, .counters, .freeCtr] ⊆ ps) (h : execMaxu th f s = .next t) :
    Only ps s t := by
  have hk : Only ps s s := Only.refl s
  unfold execMaxu at h
  (try dsimp only at h)
  all_goals (repeat' split at h)
  all_goals (have h := Host.Outcome.next.inj h; subst h; repeat' first
      | with_reducible assumption | with_reducible exact fun _ h => h | with_reducible intro _
      | exact trivial | with_reducible apply only_ite | with_reducible apply only_ite2
      | with_reducible apply only_aluOp | refine only_snd (by assumption) ?_ | split | dsimp only
      | exact List.Subset.trans (by decide) hp | exact hp (by decide)
      | exact Only.step hp (by assumption) (fun p q => by cases p <;> first | rfl | exact absurd (by decide) q))

theorem only_execMov {th : ThreadId} {f : TFields} (hp : [.us, .sup, .qos, .cls, .tine, .pwr, .life, .win, .i3c, .reeve, .counters, .freeCtr] ⊆ ps) (h : execMov th f s = .next t) :
    Only ps s t := by
  have hk : Only ps s s := Only.refl s
  unfold execMov at h
  (try dsimp only at h)
  all_goals (repeat' split at h)
  all_goals (have h := Host.Outcome.next.inj h; subst h; repeat' first
      | with_reducible assumption | with_reducible exact fun _ h => h | with_reducible intro _
      | exact trivial | with_reducible apply only_ite | with_reducible apply only_ite2
      | with_reducible apply only_aluOp | refine only_snd (by assumption) ?_ | split | dsimp only
      | exact List.Subset.trans (by decide) hp | exact hp (by decide)
      | exact Only.step hp (by assumption) (fun p q => by cases p <;> first | rfl | exact absurd (by decide) q))

theorem only_execCmp {th : ThreadId} {f : TFields} (hp : [.us, .sup, .qos, .cls, .tine, .pwr, .life, .win, .i3c, .reeve, .counters, .freeCtr] ⊆ ps) (h : execCmp th f s = .next t) :
    Only ps s t := by
  have hk : Only ps s s := Only.refl s
  unfold execCmp at h
  (try dsimp only at h)
  all_goals (repeat' split at h)
  all_goals (have h := Host.Outcome.next.inj h; subst h; repeat' first
      | with_reducible assumption | with_reducible exact fun _ h => h | with_reducible intro _
      | exact trivial | with_reducible apply only_ite | with_reducible apply only_ite2
      | with_reducible apply only_aluOp | refine only_snd (by assumption) ?_ | split | dsimp only
      | exact List.Subset.trans (by decide) hp | exact hp (by decide)
      | exact Only.step hp (by assumption) (fun p q => by cases p <;> first | rfl | exact absurd (by decide) q))

theorem only_execCsadd {th : ThreadId} {f : TFields} (hp : [.us, .sup, .qos, .cls, .tine, .pwr, .life, .win, .i3c, .reeve, .counters, .freeCtr] ⊆ ps) (h : execCsadd th f s = .next t) :
    Only ps s t := by
  have hk : Only ps s s := Only.refl s
  unfold execCsadd at h
  (try dsimp only at h)
  all_goals (repeat' split at h)
  all_goals (have h := Host.Outcome.next.inj h; subst h; repeat' first
      | with_reducible assumption | with_reducible exact fun _ h => h | with_reducible intro _
      | exact trivial | with_reducible apply only_ite | with_reducible apply only_ite2
      | with_reducible apply only_aluOp | refine only_snd (by assumption) ?_ | split | dsimp only
      | exact List.Subset.trans (by decide) hp | exact hp (by decide)
      | exact Only.step hp (by assumption) (fun p q => by cases p <;> first | rfl | exact absurd (by decide) q))

theorem only_execExt {th : ThreadId} {f : TFields} (hp : [.us, .sup, .qos, .cls, .tine, .pwr, .life, .win, .i3c, .reeve, .counters, .freeCtr] ⊆ ps) (h : execExt th f s = .next t) :
    Only ps s t := by
  have hk : Only ps s s := Only.refl s
  unfold execExt at h
  (try dsimp only at h)
  all_goals (repeat' split at h)
  all_goals (have h := Host.Outcome.next.inj h; subst h; repeat' first
      | with_reducible assumption | with_reducible exact fun _ h => h | with_reducible intro _
      | with_reducible apply resOnly_fault | with_reducible apply resOnly_ok
      | with_reducible apply resOnly_wait | with_reducible apply resOnly_stop
      | with_reducible apply resOnly_done | with_reducible exact (trivial : True)
      | with_reducible apply only_ite | with_reducible apply only_ite2
      | with_reducible apply only_issue | refine only_snd (by assumption) ?_ | split | dsimp only
      | exact List.Subset.trans (by decide) hp | exact hp (by decide)
      | exact Only.step hp (by assumption) (fun p q => by cases p <;> first | rfl | exact absurd (by decide) q))

theorem only_execIns {th : ThreadId} {f : TFields} (hp : [.us, .sup, .qos, .cls, .tine, .pwr, .life, .win, .i3c, .reeve, .counters, .freeCtr] ⊆ ps) (h : execIns th f s = .next t) :
    Only ps s t := by
  have hk : Only ps s s := Only.refl s
  unfold execIns at h
  (try dsimp only at h)
  all_goals (repeat' split at h)
  all_goals (have h := Host.Outcome.next.inj h; subst h; repeat' first
      | with_reducible assumption | with_reducible exact fun _ h => h | with_reducible intro _
      | with_reducible apply resOnly_fault | with_reducible apply resOnly_ok
      | with_reducible apply resOnly_wait | with_reducible apply resOnly_stop
      | with_reducible apply resOnly_done | with_reducible exact (trivial : True)
      | with_reducible apply only_ite | with_reducible apply only_ite2
      | with_reducible apply only_issue | refine only_snd (by assumption) ?_ | split | dsimp only
      | exact List.Subset.trans (by decide) hp | exact hp (by decide)
      | exact Only.step hp (by assumption) (fun p q => by cases p <;> first | rfl | exact absurd (by decide) q))

theorem only_execBr {th : ThreadId} {f : TFields} (hp : [.us, .sup, .qos, .cls, .tine, .pwr, .life, .win, .i3c, .reeve, .counters, .freeCtr] ⊆ ps) (h : execBr th f s = .next t) :
    Only ps s t := by
  have hk : Only ps s s := Only.refl s
  unfold execBr at h
  (try dsimp only at h)
  all_goals (repeat' split at h)
  all_goals (have h := Host.Outcome.next.inj h; subst h; repeat' first
      | with_reducible assumption | with_reducible exact fun _ h => h | with_reducible intro _
      | with_reducible apply resOnly_fault | with_reducible apply resOnly_ok
      | with_reducible apply resOnly_wait | with_reducible apply resOnly_stop
      | with_reducible apply resOnly_done | with_reducible exact (trivial : True)
      | with_reducible apply only_ite | with_reducible apply only_ite2
      | with_reducible apply only_issue | refine only_snd (by assumption) ?_ | split | dsimp only
      | exact List.Subset.trans (by decide) hp | exact hp (by decide)
      | exact Only.step hp (by assumption) (fun p q => by cases p <;> first | rfl | exact absurd (by decide) q))

theorem only_execLdw {th : ThreadId} {f : TFields} (hp : [.us, .sup, .qos, .cls, .tine, .pwr, .life, .win, .i3c, .reeve, .counters, .freeCtr] ⊆ ps) (h : execLdw th f s = .next t) :
    Only ps s t := by
  have hk : Only ps s s := Only.refl s
  unfold execLdw at h
  (try dsimp only at h)
  all_goals (repeat' split at h)
  all_goals (have h := Host.Outcome.next.inj h; subst h; repeat' first
      | with_reducible assumption | with_reducible exact fun _ h => h | with_reducible intro _
      | with_reducible apply resOnly_fault | with_reducible apply resOnly_ok
      | with_reducible apply resOnly_wait | with_reducible apply resOnly_stop
      | with_reducible apply resOnly_done | with_reducible exact (trivial : True)
      | with_reducible apply only_ite | with_reducible apply only_ite2
      | with_reducible apply only_issue | refine only_snd (by assumption) ?_ | split | dsimp only
      | exact List.Subset.trans (by decide) hp | exact hp (by decide)
      | exact Only.step hp (by assumption) (fun p q => by cases p <;> first | rfl | exact absurd (by decide) q))

theorem only_execStw {th : ThreadId} {f : TFields} (hp : [.us, .sup, .qos, .cls, .tine, .pwr, .life, .win, .i3c, .reeve, .counters, .freeCtr] ⊆ ps) (h : execStw th f s = .next t) :
    Only ps s t := by
  have hk : Only ps s s := Only.refl s
  unfold execStw at h
  (try dsimp only at h)
  all_goals (repeat' split at h)
  all_goals (have h := Host.Outcome.next.inj h; subst h; repeat' first
      | with_reducible assumption | with_reducible exact fun _ h => h | with_reducible intro _
      | with_reducible apply resOnly_fault | with_reducible apply resOnly_ok
      | with_reducible apply resOnly_wait | with_reducible apply resOnly_stop
      | with_reducible apply resOnly_done | with_reducible exact (trivial : True)
      | with_reducible apply only_ite | with_reducible apply only_ite2
      | with_reducible apply only_issue | refine only_snd (by assumption) ?_ | split | dsimp only
      | with_reducible apply only_f_win | exact List.Subset.trans (by decide) hp
      | exact hp (by decide)
      | exact Only.step hp (by assumption) (fun p q => by cases p <;> first | rfl | exact absurd (by decide) q))

theorem only_execPush {th : ThreadId} {f : TFields} (hp : [.us, .sup, .qos, .cls, .tine, .pwr,
    .life, .win, .i3c, .reeve, .counters, .freeCtr] ⊆ ps) (h : (execPush th f s) = .next t) :
    Only ps s t := by
  have hk : Only ps s s := Only.refl s
  unfold execPush at h
  (try dsimp only at h)
  all_goals (repeat' split at h)
  all_goals (have h := Host.Outcome.next.inj h; subst h; repeat' first
      | with_reducible assumption | with_reducible exact fun _ h => h | with_reducible intro _
      | exact trivial | with_reducible apply only_ite | with_reducible apply only_ite2
      | with_reducible apply only_issue | refine only_snd (by assumption) ?_ | split | dsimp only
      | exact List.Subset.trans (by decide) hp | exact hp (by decide)
      | exact Only.step hp (by assumption) (fun p q => by cases p <;> first | rfl | exact absurd (by decide) q))

theorem only_execPop {th : ThreadId} {f : TFields} (hp : [.us, .sup, .qos, .cls, .tine, .pwr, .life, .win, .i3c, .reeve, .counters, .freeCtr] ⊆ ps) (h : execPop th f s = .next t) :
    Only ps s t := by
  have hk : Only ps s s := Only.refl s
  unfold execPop at h
  (try dsimp only at h)
  all_goals (repeat' split at h)
  all_goals (have h := Host.Outcome.next.inj h; subst h; repeat' first
      | with_reducible assumption | with_reducible exact fun _ h => h | with_reducible intro _
      | with_reducible apply resOnly_fault | with_reducible apply resOnly_ok
      | with_reducible apply resOnly_wait | with_reducible apply resOnly_stop
      | with_reducible apply resOnly_done | with_reducible exact (trivial : True)
      | with_reducible apply only_ite | with_reducible apply only_ite2
      | with_reducible apply only_issue | refine only_snd (by assumption) ?_ | split | dsimp only
      | with_reducible apply only_f_win | exact List.Subset.trans (by decide) hp
      | exact hp (by decide)
      | exact Only.step hp (by assumption) (fun p q => by cases p <;> first | rfl | exact absurd (by decide) q))

theorem only_execBmov {th : ThreadId} {f : TFields} (hp : [.us, .sup, .qos, .cls, .tine, .pwr, .life, .win, .i3c, .reeve, .counters, .freeCtr] ⊆ ps) (h : execBmov th f s = .next t) :
    Only ps s t := by
  have hk : Only ps s s := Only.refl s
  unfold execBmov at h
  (try dsimp only at h)
  all_goals (repeat' split at h)
  all_goals (have h := Host.Outcome.next.inj h; subst h; repeat' first
      | with_reducible assumption | with_reducible exact fun _ h => h | with_reducible intro _
      | with_reducible apply resOnly_fault | with_reducible apply resOnly_ok
      | with_reducible apply resOnly_wait | with_reducible apply resOnly_stop
      | with_reducible apply resOnly_done | with_reducible exact (trivial : True)
      | with_reducible apply only_ite | with_reducible apply only_ite2
      | with_reducible apply only_issue | refine only_snd (by assumption) ?_ | split | dsimp only
      | with_reducible apply only_f_win | exact List.Subset.trans (by decide) hp
      | exact hp (by decide)
      | exact Only.step hp (by assumption) (fun p q => by cases p <;> first | rfl | exact absurd (by decide) q))

theorem only_execHash {th : ThreadId} {f : TFields} (hp : [.us, .sup, .qos, .cls, .tine, .pwr, .life, .win, .i3c, .reeve, .counters, .freeCtr] ⊆ ps) (h : execHash th f s = .next t) :
    Only ps s t := by
  have hk : Only ps s s := Only.refl s
  unfold execHash at h
  (try dsimp only at h)
  all_goals (repeat' split at h)
  all_goals (have h := Host.Outcome.next.inj h; subst h; repeat' first
      | with_reducible assumption | with_reducible exact fun _ h => h | with_reducible intro _
      | with_reducible apply resOnly_fault | with_reducible apply resOnly_ok
      | with_reducible apply resOnly_wait | with_reducible apply resOnly_stop
      | with_reducible apply resOnly_done | with_reducible exact (trivial : True)
      | with_reducible apply only_ite | with_reducible apply only_ite2
      | with_reducible apply only_issue | refine only_snd (by assumption) ?_ | split | dsimp only
      | exact List.Subset.trans (by decide) hp | exact hp (by decide)
      | exact Only.step hp (by assumption) (fun p q => by cases p <;> first | rfl | exact absurd (by decide) q))

theorem only_execLd {th : ThreadId} {f : TFields} (hp : [.us, .sup, .qos, .cls, .tine, .pwr, .life, .win, .i3c, .reeve, .counters, .freeCtr] ⊆ ps) (h : execLd th f s = .next t) :
    Only ps s t := by
  have hk : Only ps s s := Only.refl s
  unfold execLd at h
  (try dsimp only at h)
  all_goals (repeat' split at h)
  all_goals (have h := Host.Outcome.next.inj h; subst h; repeat' first
      | with_reducible assumption | with_reducible exact fun _ h => h | with_reducible intro _
      | with_reducible apply resOnly_fault | with_reducible apply resOnly_ok
      | with_reducible apply resOnly_wait | with_reducible apply resOnly_stop
      | with_reducible apply resOnly_done | with_reducible exact (trivial : True)
      | with_reducible apply only_ite | with_reducible apply only_ite2
      | with_reducible apply only_issue | refine only_snd (by assumption) ?_ | split | dsimp only
      | exact List.Subset.trans (by decide) hp | exact hp (by decide)
      | exact Only.step hp (by assumption) (fun p q => by cases p <;> first | rfl | exact absurd (by decide) q))

theorem only_execSt {th : ThreadId} {f : TFields} (hp : [.us, .sup, .qos, .cls, .tine, .pwr, .life, .win, .i3c, .reeve, .counters, .freeCtr] ⊆ ps) (h : execSt th f s = .next t) :
    Only ps s t := by
  have hk : Only ps s s := Only.refl s
  unfold execSt at h
  (try dsimp only at h)
  all_goals (repeat' split at h)
  all_goals (have h := Host.Outcome.next.inj h; subst h; repeat' first
      | with_reducible assumption | with_reducible exact fun _ h => h | with_reducible intro _
      | with_reducible apply resOnly_fault | with_reducible apply resOnly_ok
      | with_reducible apply resOnly_wait | with_reducible apply resOnly_stop
      | with_reducible apply resOnly_done | with_reducible exact (trivial : True)
      | with_reducible apply only_ite | with_reducible apply only_ite2
      | with_reducible apply only_issue | with_reducible apply only_modTine
      | refine only_snd (by assumption) ?_ | split | dsimp only
      | exact List.Subset.trans (by decide) hp | exact hp (by decide)
      | exact Only.step hp (by assumption) (fun p q => by cases p <;> first | rfl | exact absurd (by decide) q))

theorem only_execAtom {th : ThreadId} {f : TFields} (hp : [.us, .sup, .qos, .cls, .tine, .pwr, .life, .win, .i3c, .reeve, .counters, .freeCtr] ⊆ ps) (h : execAtom th f s = .next t) :
    Only ps s t := by
  have hk : Only ps s s := Only.refl s
  unfold execAtom at h
  (try dsimp only at h)
  all_goals (repeat' split at h)
  all_goals (have h := Host.Outcome.next.inj h; subst h; repeat' first
      | with_reducible assumption | with_reducible exact fun _ h => h | with_reducible intro _
      | with_reducible apply resOnly_fault | with_reducible apply resOnly_ok
      | with_reducible apply resOnly_wait | with_reducible apply resOnly_stop
      | with_reducible apply resOnly_done | with_reducible exact (trivial : True)
      | with_reducible apply only_ite | with_reducible apply only_ite2
      | with_reducible apply only_issue | with_reducible apply only_modTine
      | refine only_snd (by assumption) ?_ | split | dsimp only
      | exact List.Subset.trans (by decide) hp | exact hp (by decide)
      | exact Only.step hp (by assumption) (fun p q => by cases p <;> first | rfl | exact absurd (by decide) q))

theorem only_execSrd {th : ThreadId} {f : TFields} (hp : [.us, .sup, .qos, .cls, .tine, .pwr, .life,
    .win, .i3c, .reeve, .counters, .freeCtr] ⊆ ps) (h : (execSrd th f s) = .next t) :
    Only ps s t := by
  have hk : Only ps s s := Only.refl s
  unfold execSrd at h
  (try dsimp only at h)
  all_goals (repeat' split at h)
  all_goals (have h := Host.Outcome.next.inj h; subst h; repeat' first
      | with_reducible assumption | with_reducible exact fun _ h => h | with_reducible intro _
      | exact trivial | with_reducible apply only_ite | with_reducible apply only_ite2
      | with_reducible apply only_issue | with_reducible apply only_nextAccess
      | refine only_snd (by assumption) ?_ | split | dsimp only
      | exact List.Subset.trans (by decide) hp | exact hp (by decide)
      | exact Only.step hp (by assumption) (fun p q => by cases p <;> first | rfl | exact absurd (by decide) q))

theorem only_execSwr {th : ThreadId} {f : TFields} (hp : [.us, .sup, .qos, .cls, .tine, .pwr, .life,
    .win, .i3c, .reeve, .counters, .freeCtr] ⊆ ps) (h : (execSwr th f s) = .next t) :
    Only ps s t := by
  have hk : Only ps s s := Only.refl s
  unfold execSwr at h
  (try dsimp only at h)
  all_goals (repeat' split at h)
  all_goals (have h := Host.Outcome.next.inj h; subst h; repeat' first
      | with_reducible assumption | with_reducible exact fun _ h => h | with_reducible intro _
      | exact trivial | with_reducible apply only_ite | with_reducible apply only_ite2
      | with_reducible apply only_issue | with_reducible apply only_nextAccess
      | refine only_snd (by assumption) ?_ | split | dsimp only
      | exact List.Subset.trans (by decide) hp | exact hp (by decide)
      | exact Only.step hp (by assumption) (fun p q => by cases p <;> first | rfl | exact absurd (by decide) q))

theorem only_execSatom {th : ThreadId} {f : TFields} (hp : [.us, .sup, .qos, .cls, .tine, .pwr,
    .life, .win, .i3c, .reeve, .counters, .freeCtr] ⊆ ps) (h : (execSatom th f s) = .next t) :
    Only ps s t := by
  have hk : Only ps s s := Only.refl s
  unfold execSatom at h
  (try dsimp only at h)
  all_goals (repeat' split at h)
  all_goals (have h := Host.Outcome.next.inj h; subst h; repeat' first
      | with_reducible assumption | with_reducible exact fun _ h => h | with_reducible intro _
      | exact trivial | with_reducible apply only_ite | with_reducible apply only_ite2
      | with_reducible apply only_issue | with_reducible apply only_nextAccess
      | refine only_snd (by assumption) ?_ | split | dsimp only
      | exact List.Subset.trans (by decide) hp | exact hp (by decide)
      | exact Only.step hp (by assumption) (fun p q => by cases p <;> first | rfl | exact absurd (by decide) q))

theorem only_execTlook {th : ThreadId} {f : TFields} (hp : [.us, .sup, .qos, .cls, .tine, .pwr, .life, .win, .i3c, .reeve, .counters, .freeCtr] ⊆ ps) (h : execTlook th f s = .next t) :
    Only ps s t := by
  have hk : Only ps s s := Only.refl s
  unfold execTlook at h
  (try dsimp only at h)
  all_goals (repeat' split at h)
  all_goals (have h := Host.Outcome.next.inj h; subst h; repeat' first
      | with_reducible assumption | with_reducible exact fun _ h => h | with_reducible intro _
      | with_reducible apply resOnly_fault | with_reducible apply resOnly_ok
      | with_reducible apply resOnly_wait | with_reducible apply resOnly_stop
      | with_reducible apply resOnly_done | with_reducible exact (trivial : True)
      | with_reducible apply only_ite | with_reducible apply only_ite2
      | with_reducible apply only_issue | with_reducible apply only_ternLookup
      | refine only_snd (by assumption) ?_ | split | dsimp only
      | exact List.Subset.trans (by decide) hp | exact hp (by decide)
      | exact Only.step hp (by assumption) (fun p q => by cases p <;> first | rfl | exact absurd (by decide) q))

theorem only_execElook {th : ThreadId} {f : TFields} (hp : [.us, .sup, .qos, .cls, .tine, .pwr, .life, .win, .i3c, .reeve, .counters, .freeCtr] ⊆ ps) (h : execElook th f s = .next t) :
    Only ps s t := by
  have hk : Only ps s s := Only.refl s
  unfold execElook at h
  (try dsimp only at h)
  all_goals (repeat' split at h)
  all_goals (have h := Host.Outcome.next.inj h; subst h; repeat' first
      | with_reducible assumption | with_reducible exact fun _ h => h | with_reducible intro _
      | with_reducible apply resOnly_fault | with_reducible apply resOnly_ok
      | with_reducible apply resOnly_wait | with_reducible apply resOnly_stop
      | with_reducible apply resOnly_done | with_reducible exact (trivial : True)
      | with_reducible apply only_ite | with_reducible apply only_ite2
      | with_reducible apply only_issue | refine only_snd (by assumption) ?_ | split | dsimp only
      | exact List.Subset.trans (by decide) hp | exact hp (by decide)
      | exact Only.step hp (by assumption) (fun p q => by cases p <;> first | rfl | exact absurd (by decide) q))

theorem only_execMeter {th : ThreadId} {f : TFields} (hp : [.us, .sup, .qos, .cls, .tine, .pwr, .life, .win, .i3c, .reeve, .counters, .freeCtr] ⊆ ps) (h : execMeter th f s = .next t) :
    Only ps s t := by
  have hk : Only ps s s := Only.refl s
  unfold execMeter at h
  (try dsimp only at h)
  all_goals (repeat' split at h)
  all_goals (have h := Host.Outcome.next.inj h; subst h; repeat' first
      | with_reducible assumption | with_reducible exact fun _ h => h | with_reducible intro _
      | with_reducible apply resOnly_fault | with_reducible apply resOnly_ok
      | with_reducible apply resOnly_wait | with_reducible apply resOnly_stop
      | with_reducible apply resOnly_done | with_reducible exact (trivial : True)
      | with_reducible apply only_ite | with_reducible apply only_ite2
      | with_reducible apply only_issue | with_reducible apply only_meterPacket
      | refine only_snd (by assumption) ?_ | split | dsimp only
      | exact List.Subset.trans (by decide) hp | exact hp (by decide)
      | exact Only.step hp (by assumption) (fun p q => by cases p <;> first | rfl | exact absurd (by decide) q))

theorem only_execCount {th : ThreadId} {f : TFields} (hp : [.us, .sup, .qos, .cls, .tine, .pwr, .life, .win, .i3c, .reeve, .counters, .freeCtr] ⊆ ps) (h : execCount th f s = .next t) :
    Only ps s t := by
  have hk : Only ps s s := Only.refl s
  unfold execCount at h
  (try dsimp only at h)
  all_goals (repeat' split at h)
  all_goals (have h := Host.Outcome.next.inj h; subst h; repeat' first
      | with_reducible assumption | with_reducible exact fun _ h => h | with_reducible intro _
      | with_reducible apply resOnly_fault | with_reducible apply resOnly_ok
      | with_reducible apply resOnly_wait | with_reducible apply resOnly_stop
      | with_reducible apply resOnly_done | with_reducible exact (trivial : True)
      | with_reducible apply only_ite | with_reducible apply only_ite2
      | with_reducible apply only_countResult | with_reducible apply only_issue
      | refine only_snd (by assumption) ?_ | split | dsimp only
      | exact List.Subset.trans (by decide) hp | exact hp (by decide)
      | exact Only.step hp (by assumption) (fun p q => by cases p <;> first | rfl | exact absurd (by decide) q))

theorem only_execSetQueue {th : ThreadId} {f : TFields} (hp : [.us, .sup, .qos, .cls, .tine, .pwr, .life, .win, .i3c, .reeve, .counters, .freeCtr] ⊆ ps) (h : execSetQueue th f s = .next t) :
    Only ps s t := by
  have hk : Only ps s s := Only.refl s
  unfold execSetQueue at h
  (try dsimp only at h)
  all_goals (repeat' split at h)
  all_goals (have h := Host.Outcome.next.inj h; subst h; repeat' first
      | with_reducible assumption | with_reducible exact fun _ h => h | with_reducible intro _
      | with_reducible apply resOnly_fault | with_reducible apply resOnly_ok
      | with_reducible apply resOnly_wait | with_reducible apply resOnly_stop
      | with_reducible apply resOnly_done | with_reducible exact (trivial : True)
      | with_reducible apply only_ite | with_reducible apply only_ite2
      | with_reducible apply only_issue | refine only_snd (by assumption) ?_ | split | dsimp only
      | exact List.Subset.trans (by decide) hp | exact hp (by decide)
      | exact Only.step hp (by assumption) (fun p q => by cases p <;> first | rfl | exact absurd (by decide) q))

theorem only_execTsread {th : ThreadId} {f : TFields} (hp : [.us, .sup, .qos, .cls, .tine, .pwr, .life, .win, .i3c, .reeve, .counters, .freeCtr] ⊆ ps) (h : execTsread th f s = .next t) :
    Only ps s t := by
  have hk : Only ps s s := Only.refl s
  unfold execTsread at h
  (try dsimp only at h)
  all_goals (repeat' split at h)
  all_goals (have h := Host.Outcome.next.inj h; subst h; repeat' first
      | with_reducible assumption | with_reducible exact fun _ h => h | with_reducible intro _
      | with_reducible apply resOnly_fault | with_reducible apply resOnly_ok
      | with_reducible apply resOnly_wait | with_reducible apply resOnly_stop
      | with_reducible apply resOnly_done | with_reducible exact (trivial : True)
      | with_reducible apply only_ite | with_reducible apply only_ite2
      | with_reducible apply only_issue | refine only_snd (by assumption) ?_ | split | dsimp only
      | exact List.Subset.trans (by decide) hp | exact hp (by decide)
      | exact Only.step hp (by assumption) (fun p q => by cases p <;> first | rfl | exact absurd (by decide) q))

theorem only_execPmcread {th : ThreadId} {f : TFields} (hp : [.us, .sup, .qos, .cls, .tine, .pwr, .life, .win, .i3c, .reeve, .counters, .freeCtr] ⊆ ps) (h : execPmcread th f s = .next t) :
    Only ps s t := by
  have hk : Only ps s s := Only.refl s
  unfold execPmcread at h
  (try dsimp only at h)
  all_goals (repeat' split at h)
  all_goals (have h := Host.Outcome.next.inj h; subst h; repeat' first
      | with_reducible assumption | with_reducible exact fun _ h => h | with_reducible intro _
      | with_reducible apply resOnly_fault | with_reducible apply resOnly_ok
      | with_reducible apply resOnly_wait | with_reducible apply resOnly_stop
      | with_reducible apply resOnly_done | with_reducible exact (trivial : True)
      | with_reducible apply only_ite | with_reducible apply only_ite2
      | with_reducible apply only_issue | refine only_snd (by assumption) ?_ | split | dsimp only
      | exact List.Subset.trans (by decide) hp | exact hp (by decide)
      | exact Only.step hp (by assumption) (fun p q => by cases p <;> first | rfl | exact absurd (by decide) q))

theorem only_execCipher {th : ThreadId} {f : TFields} (hp : [.us, .sup, .qos, .cry, .cls, .tine, .pwr, .life, .win, .i3c, .reeve, .counters, .freeCtr] ⊆ ps) (h : execCipher th f s = .next t) :
    Only ps s t := by
  have hk : Only ps s s := Only.refl s
  unfold execCipher at h
  (try dsimp only at h)
  all_goals (repeat' split at h)
  all_goals (have h := Host.Outcome.next.inj h; subst h; repeat' first
      | with_reducible assumption | with_reducible exact fun _ h => h | with_reducible intro _
      | with_reducible apply resOnly_fault | with_reducible apply resOnly_ok
      | with_reducible apply resOnly_wait | with_reducible apply resOnly_stop
      | with_reducible apply resOnly_done | with_reducible exact (trivial : True)
      | with_reducible apply only_ite | with_reducible apply only_ite2
      | with_reducible apply only_drawNonce | with_reducible apply only_issue
      | with_reducible apply only_issueOp | refine only_snd (by assumption) ?_ | split
      | dsimp only | exact List.Subset.trans (by decide) hp | exact hp (by decide)
      | exact Only.step hp (by assumption) (fun p q => by cases p <;> first | rfl | exact absurd (by decide) q))

theorem only_execEmit {th : ThreadId} {f : TFields} (hp : [.us, .sup, .qos, .cls, .tine, .pwr, .life, .win, .i3c, .reeve, .counters, .freeCtr] ⊆ ps) (h : execEmit th f s = .next t) :
    Only ps s t := by
  have hk : Only ps s s := Only.refl s
  unfold execEmit at h
  (try dsimp only at h)
  all_goals (repeat' split at h)
  all_goals (have h := Host.Outcome.next.inj h; subst h; repeat' first
      | with_reducible assumption | with_reducible exact fun _ h => h | with_reducible intro _
      | with_reducible apply resOnly_fault | with_reducible apply resOnly_ok
      | with_reducible apply resOnly_wait | with_reducible apply resOnly_stop
      | with_reducible apply resOnly_done | with_reducible exact (trivial : True)
      | with_reducible apply only_ite | with_reducible apply only_ite2
      | with_reducible apply only_bump | with_reducible apply only_emitPass
      | with_reducible apply only_issue | refine only_snd (by assumption) ?_ | split | dsimp only
      | exact List.Subset.trans (by decide) hp | exact hp (by decide)
      | exact Only.step hp (by assumption) (fun p q => by cases p <;> first | rfl | exact absurd (by decide) q))

theorem only_execDrop {th : ThreadId} {f : TFields} (hp : [.us, .sup, .qos, .cls, .tine, .pwr, .life, .win, .i3c, .reeve, .counters, .freeCtr] ⊆ ps) (h : execDrop th f s = .next t) :
    Only ps s t := by
  have hk : Only ps s s := Only.refl s
  unfold execDrop at h
  (try dsimp only at h)
  all_goals (repeat' split at h)
  all_goals (have h := Host.Outcome.next.inj h; subst h; repeat' first
      | with_reducible assumption | with_reducible exact fun _ h => h | with_reducible intro _
      | with_reducible apply resOnly_fault | with_reducible apply resOnly_ok
      | with_reducible apply resOnly_wait | with_reducible apply resOnly_stop
      | with_reducible apply resOnly_done | with_reducible exact (trivial : True)
      | with_reducible apply only_ite | with_reducible apply only_ite2
      | with_reducible apply only_bump | with_reducible apply only_discardPkt
      | with_reducible apply only_issue | refine only_snd (by assumption) ?_ | split | dsimp only
      | exact List.Subset.trans (by decide) hp | exact hp (by decide)
      | exact Only.step hp (by assumption) (fun p q => by cases p <;> first | rfl | exact absurd (by decide) q))

theorem only_execRecirculate {th : ThreadId} {f : TFields} (hp : [.us, .sup, .qos, .cls, .tine, .pwr, .life, .win, .i3c, .reeve, .counters, .freeCtr] ⊆ ps) (h : execRecirculate th f s = .next t) :
    Only ps s t := by
  have hk : Only ps s s := Only.refl s
  unfold execRecirculate at h
  (try dsimp only at h)
  all_goals (repeat' split at h)
  all_goals (have h := Host.Outcome.next.inj h; subst h; repeat' first
      | with_reducible assumption | with_reducible exact fun _ h => h | with_reducible intro _
      | with_reducible apply resOnly_fault | with_reducible apply resOnly_ok
      | with_reducible apply resOnly_wait | with_reducible apply resOnly_stop
      | with_reducible apply resOnly_done | with_reducible exact (trivial : True)
      | with_reducible apply only_ite | with_reducible apply only_ite2
      | with_reducible apply only_bump | with_reducible apply only_issue
      | with_reducible apply only_recirculatePass | refine only_snd (by assumption) ?_ | split
      | dsimp only | exact List.Subset.trans (by decide) hp | exact hp (by decide)
      | exact Only.step hp (by assumption) (fun p q => by cases p <;> first | rfl | exact absurd (by decide) q))

theorem only_execTrap {th : ThreadId} {f : TFields} (hp : [.us, .sup, .qos, .cls, .tine, .pwr, .life, .win, .i3c, .reeve, .counters, .freeCtr] ⊆ ps) (h : execTrap th f s = .next t) :
    Only ps s t := by
  have hk : Only ps s s := Only.refl s
  unfold execTrap at h
  (try dsimp only at h)
  all_goals (repeat' split at h)
  all_goals (have h := Host.Outcome.next.inj h; subst h; repeat' first
      | with_reducible assumption | with_reducible exact fun _ h => h | with_reducible intro _
      | with_reducible apply resOnly_fault | with_reducible apply resOnly_ok
      | with_reducible apply resOnly_wait | with_reducible apply resOnly_stop
      | with_reducible apply resOnly_done | with_reducible exact (trivial : True)
      | with_reducible apply only_ite | with_reducible apply only_ite2
      | with_reducible apply only_bump | with_reducible apply only_issue
      | with_reducible apply only_trapPass | refine only_snd (by assumption) ?_ | split
      | dsimp only | exact List.Subset.trans (by decide) hp | exact hp (by decide)
      | exact Only.step hp (by assumption) (fun p q => by cases p <;> first | rfl | exact absurd (by decide) q))

theorem only_execServiceResult {th : ThreadId} {ecc : List (Bool × Bool)} {eccCorr : Nat} (hp :
    [.us, .sup, .qos, .cls, .tine, .pwr, .life, .win, .i3c, .reeve, .counters, .freeCtr] ⊆ ps) (h : (execServiceResult th ecc s eccCorr) = .next t) :
    Only ps s t := by
  have hk : Only ps s s := Only.refl s
  unfold execServiceResult at h
  (try dsimp only at h)
  all_goals (repeat' split at h)
  all_goals (have h := Host.Outcome.next.inj h; subst h; repeat' first
      | with_reducible assumption | with_reducible exact fun _ h => h | with_reducible intro _
      | exact trivial | with_reducible apply only_ite | with_reducible apply only_ite2
      | with_reducible apply only_bump | with_reducible apply only_emLookupOp
      | with_reducible apply only_faultPass | with_reducible apply only_freeThread
      | with_reducible apply only_modTine | with_reducible apply only_pmcInstant
      | with_reducible apply only_putThread | with_reducible apply only_sampRecord
      | refine only_snd (by assumption) ?_ | split | dsimp only
      | exact List.Subset.trans (by decide) hp | exact hp (by decide)
      | exact Only.step hp (by assumption) (fun p q => by cases p <;> first | rfl | exact absurd (by decide) q))

theorem only_execTineLoadProgram {c : Cmd} (hp : [.act, .sup, .tine, .pair, .life, .win, .i3c, .reeve, .counters] ⊆ ps) (h : execTineLoadProgram c s = .next t) :
    Only ps s t := by
  have hk : Only ps s s := Only.refl s
  unfold execTineLoadProgram at h
  (try dsimp only at h)
  all_goals (repeat' split at h)
  all_goals (have h := Host.Outcome.next.inj h; subst h; repeat' first
      | with_reducible assumption | with_reducible exact fun _ h => h | with_reducible intro _
      | exact trivial | with_reducible apply only_ite | with_reducible apply only_ite2
      | with_reducible apply only_runCmd | with_reducible apply only_tineLoadProgramBody
      | refine only_snd (by assumption) ?_ | split | dsimp only
      | exact List.Subset.trans (by decide) hp | exact hp (by decide)
      | exact Only.step hp (by assumption) (fun p q => by cases p <;> first | rfl | exact absurd (by decide) q))

theorem only_execTineSetPerms {c : Cmd} (hp : [.act, .sup, .tine, .pair, .life, .win, .i3c, .reeve, .settings, .counters] ⊆ ps) (h : execTineSetPerms c s = .next t) :
    Only ps s t := by
  have hk : Only ps s s := Only.refl s
  unfold execTineSetPerms at h
  (try dsimp only at h)
  all_goals (repeat' split at h)
  all_goals (have h := Host.Outcome.next.inj h; subst h; repeat' first
      | with_reducible assumption | with_reducible exact fun _ h => h | with_reducible intro _
      | exact trivial | with_reducible apply only_ite | with_reducible apply only_ite2
      | with_reducible apply only_runCmd | with_reducible apply only_tineSetPermsBody
      | refine only_snd (by assumption) ?_ | split | dsimp only
      | exact List.Subset.trans (by decide) hp | exact hp (by decide)
      | exact Only.step hp (by assumption) (fun p q => by cases p <;> first | rfl | exact absurd (by decide) q))

theorem only_execTineGetFaults {c : Cmd} (hp : [.act, .sup, .tine, .pair, .life, .win, .i3c, .reeve, .counters] ⊆ ps) (h : execTineGetFaults c s = .next t) :
    Only ps s t := by
  have hk : Only ps s s := Only.refl s
  unfold execTineGetFaults at h
  (try dsimp only at h)
  all_goals (repeat' split at h)
  all_goals (have h := Host.Outcome.next.inj h; subst h; repeat' first
      | with_reducible assumption | with_reducible exact fun _ h => h | with_reducible intro _
      | exact trivial | with_reducible apply only_ite | with_reducible apply only_ite2
      | with_reducible apply only_runCmd | with_reducible apply only_tineGetFaultsBody
      | refine only_snd (by assumption) ?_ | split | dsimp only
      | exact List.Subset.trans (by decide) hp | exact hp (by decide)
      | exact Only.step hp (by assumption) (fun p q => by cases p <;> first | rfl | exact absurd (by decide) q))

theorem only_execPmcConfigure {c : Cmd} (hp : [.act, .sup, .tine, .pair, .life, .win, .i3c, .reeve, .settings, .counters] ⊆ ps) (h : execPmcConfigure c s = .next t) :
    Only ps s t := by
  have hk : Only ps s s := Only.refl s
  unfold execPmcConfigure at h
  (try dsimp only at h)
  all_goals (repeat' split at h)
  all_goals (have h := Host.Outcome.next.inj h; subst h; repeat' first
      | with_reducible assumption | with_reducible exact fun _ h => h | with_reducible intro _
      | exact trivial | with_reducible apply only_ite | with_reducible apply only_ite2
      | with_reducible apply only_pmcConfigureBody | with_reducible apply only_runCmd
      | refine only_snd (by assumption) ?_ | split | dsimp only
      | exact List.Subset.trans (by decide) hp | exact hp (by decide)
      | exact Only.step hp (by assumption) (fun p q => by cases p <;> first | rfl | exact absurd (by decide) q))

theorem only_execPmcRead {c : Cmd} (hp : [.act, .sup, .tine, .pair, .life, .win, .i3c, .reeve, .counters] ⊆ ps) (h : execPmcRead c s = .next t) :
    Only ps s t := by
  have hk : Only ps s s := Only.refl s
  unfold execPmcRead at h
  (try dsimp only at h)
  all_goals (repeat' split at h)
  all_goals (have h := Host.Outcome.next.inj h; subst h; repeat' first
      | with_reducible assumption | with_reducible exact fun _ h => h | with_reducible intro _
      | exact trivial | with_reducible apply only_ite | with_reducible apply only_ite2
      | with_reducible apply only_pmcReadBody | with_reducible apply only_runCmd
      | refine only_snd (by assumption) ?_ | split | dsimp only
      | exact List.Subset.trans (by decide) hp | exact hp (by decide)
      | exact Only.step hp (by assumption) (fun p q => by cases p <;> first | rfl | exact absurd (by decide) q))

theorem only_execPmcSampleStart {c : Cmd} (hp : [.act, .sup, .cry, .tine, .pair, .life, .win, .i3c, .reeve, .settings, .counters, .freeCtr] ⊆ ps) (h : execPmcSampleStart c s = .next t) :
    Only ps s t := by
  have hk : Only ps s s := Only.refl s
  unfold execPmcSampleStart at h
  (try dsimp only at h)
  all_goals (repeat' split at h)
  all_goals (have h := Host.Outcome.next.inj h; subst h; repeat' first
      | with_reducible assumption | with_reducible exact fun _ h => h | with_reducible intro _
      | exact trivial | with_reducible apply only_ite | with_reducible apply only_ite2
      | with_reducible apply only_pmcSampleStartBody | with_reducible apply only_runCmd
      | refine only_snd (by assumption) ?_ | split | dsimp only
      | exact List.Subset.trans (by decide) hp | exact hp (by decide)
      | exact Only.step hp (by assumption) (fun p q => by cases p <;> first | rfl | exact absurd (by decide) q))

theorem only_execPmcSampleRead {c : Cmd} (hp : [.act, .sup, .tine, .pair, .life, .win, .i3c, .reeve, .counters] ⊆ ps) (h : execPmcSampleRead c s = .next t) :
    Only ps s t := by
  have hk : Only ps s s := Only.refl s
  unfold execPmcSampleRead at h
  (try dsimp only at h)
  all_goals (repeat' split at h)
  all_goals (have h := Host.Outcome.next.inj h; subst h; repeat' first
      | with_reducible assumption | with_reducible exact fun _ h => h | with_reducible intro _
      | exact trivial | with_reducible apply only_ite | with_reducible apply only_ite2
      | with_reducible apply only_pmcSampleReadBody | with_reducible apply only_runCmd
      | refine only_snd (by assumption) ?_ | split | dsimp only
      | exact List.Subset.trans (by decide) hp | exact hp (by decide)
      | exact Only.step hp (by assumption) (fun p q => by cases p <;> first | rfl | exact absurd (by decide) q))

theorem only_execCryBindSlot {c : Cmd} (hp : [.us, .act, .sup, .qos, .cry, .pair, .life, .win, .i3c, .reeve, .counters] ⊆ ps) (h : execCryBindSlot c s = .next t) :
    Only ps s t := by
  have hk : Only ps s s := Only.refl s
  unfold execCryBindSlot at h
  (try dsimp only at h)
  all_goals (repeat' split at h)
  all_goals (have h := Host.Outcome.next.inj h; subst h; repeat' first
      | with_reducible assumption | with_reducible exact fun _ h => h | with_reducible intro _
      | exact trivial | with_reducible apply only_ite | with_reducible apply only_ite2
      | with_reducible apply only_cryBindSlotBody | with_reducible apply only_runCmd
      | refine only_snd (by assumption) ?_ | split | dsimp only
      | exact List.Subset.trans (by decide) hp | exact hp (by decide)
      | exact Only.step hp (by assumption) (fun p q => by cases p <;> first | rfl | exact absurd (by decide) q))

theorem only_execCrySeal {c : Cmd} (hp : [.act, .sup, .cry, .pair, .life, .win, .i3c, .reeve, .counters] ⊆ ps) (h : execCrySeal c s = .next t) :
    Only ps s t := by
  have hk : Only ps s s := Only.refl s
  unfold execCrySeal at h
  (try dsimp only at h)
  all_goals (repeat' split at h)
  all_goals (have h := Host.Outcome.next.inj h; subst h; repeat' first
      | with_reducible assumption | with_reducible exact fun _ h => h | with_reducible intro _
      | exact trivial | with_reducible apply only_ite | with_reducible apply only_ite2
      | with_reducible apply only_crySealBody | with_reducible apply only_runCmd
      | refine only_snd (by assumption) ?_ | split | dsimp only
      | exact List.Subset.trans (by decide) hp | exact hp (by decide)
      | exact Only.step hp (by assumption) (fun p q => by cases p <;> first | rfl | exact absurd (by decide) q))

theorem only_execCryUnseal {c : Cmd} (hp : [.act, .sup, .cry, .pair, .life, .win, .i3c, .reeve, .counters] ⊆ ps) (h : execCryUnseal c s = .next t) :
    Only ps s t := by
  have hk : Only ps s s := Only.refl s
  unfold execCryUnseal at h
  (try dsimp only at h)
  all_goals (repeat' split at h)
  all_goals (have h := Host.Outcome.next.inj h; subst h; repeat' first
      | with_reducible assumption | with_reducible exact fun _ h => h | with_reducible intro _
      | exact trivial | with_reducible apply only_ite | with_reducible apply only_ite2
      | with_reducible apply only_cryUnsealBody | with_reducible apply only_runCmd
      | refine only_snd (by assumption) ?_ | split | dsimp only
      | exact List.Subset.trans (by decide) hp | exact hp (by decide)
      | exact Only.step hp (by assumption) (fun p q => by cases p <;> first | rfl | exact absurd (by decide) q))

theorem only_execCryGetSlot {c : Cmd} (hp : [.act, .sup, .pair, .life, .win, .i3c, .reeve, .counters] ⊆ ps) (h : execCryGetSlot c s = .next t) :
    Only ps s t := by
  have hk : Only ps s s := Only.refl s
  unfold execCryGetSlot at h
  (try dsimp only at h)
  all_goals (repeat' split at h)
  all_goals (have h := Host.Outcome.next.inj h; subst h; repeat' first
      | with_reducible assumption | with_reducible exact fun _ h => h | with_reducible intro _
      | exact trivial | with_reducible apply only_ite | with_reducible apply only_ite2
      | with_reducible apply only_cryGetSlotBody | with_reducible apply only_runCmd
      | refine only_snd (by assumption) ?_ | split | dsimp only
      | exact List.Subset.trans (by decide) hp | exact hp (by decide)
      | exact Only.step hp (by assumption) (fun p q => by cases p <;> first | rfl | exact absurd (by decide) q))

theorem only_execSecGetLifecycle {c : Cmd} (hp : [.act, .sup, .pair, .life, .win, .i3c, .reeve, .counters] ⊆ ps) (h : execSecGetLifecycle c s = .next t) :
    Only ps s t := by
  have hk : Only ps s s := Only.refl s
  unfold execSecGetLifecycle at h
  (try dsimp only at h)
  all_goals (repeat' split at h)
  all_goals (have h := Host.Outcome.next.inj h; subst h; repeat' first
      | with_reducible assumption | with_reducible exact fun _ h => h | with_reducible intro _
      | exact trivial | with_reducible apply only_ite | with_reducible apply only_ite2
      | with_reducible apply only_runCmd | with_reducible apply only_secGetLifecycleBody
      | refine only_snd (by assumption) ?_ | split | dsimp only
      | exact List.Subset.trans (by decide) hp | exact hp (by decide)
      | exact Only.step hp (by assumption) (fun p q => by cases p <;> first | rfl | exact absurd (by decide) q))

theorem only_execSecAdvance {c : Cmd} {took : BitVec 16} (hp : [.groups, .reasm, .toTime, .toReeve, .inQ, .us, .act, .sup, .qos, .cry, .tine, .pwr, .pair, .fuses, .sec, .life, .win, .i3c, .reeve, .counters, .freeCtr] ⊆ ps) (h : execSecAdvance c took s = .next t) :
    Only ps s t := by
  have hk : Only ps s s := Only.refl s
  unfold execSecAdvance at h
  (try dsimp only at h)
  all_goals (repeat' split at h)
  all_goals (have h := Host.Outcome.next.inj h; subst h; repeat' first
      | with_reducible assumption | with_reducible exact fun _ h => h | with_reducible intro _
      | exact trivial | with_reducible apply only_ite | with_reducible apply only_ite2
      | with_reducible apply only_runCmd | with_reducible apply only_secAdvanceBody
      | refine only_snd (by assumption) ?_ | split | dsimp only
      | exact List.Subset.trans (by decide) hp | exact hp (by decide)
      | exact Only.step hp (by assumption) (fun p q => by cases p <;> first | rfl | exact absurd (by decide) q))

theorem only_execSecDebugChallenge {c : Cmd} (hp : [.act, .sup, .cry, .pair, .sec, .life, .win, .i3c, .reeve, .counters, .freeCtr] ⊆ ps) (h : execSecDebugChallenge c s = .next t) :
    Only ps s t := by
  have hk : Only ps s s := Only.refl s
  unfold execSecDebugChallenge at h
  (try dsimp only at h)
  all_goals (repeat' split at h)
  all_goals (have h := Host.Outcome.next.inj h; subst h; repeat' first
      | with_reducible assumption | with_reducible exact fun _ h => h | with_reducible intro _
      | exact trivial | with_reducible apply only_ite | with_reducible apply only_ite2
      | with_reducible apply only_runCmd | with_reducible apply only_secDebugChallengeBody
      | refine only_snd (by assumption) ?_ | split | dsimp only
      | exact List.Subset.trans (by decide) hp | exact hp (by decide)
      | exact Only.step hp (by assumption) (fun p q => by cases p <;> first | rfl | exact absurd (by decide) q))

end Sys2Proof.Machine
end

