-- ==== Sys2Proof/Laws/Frame4.lean ====
section
/-! SUPPORT. The frames of the commands, part 4 of 5, SecDebugUnlock to PwrGetWakeReport: which parts of the
state each may change. -/
-- One list of alternatives serves every lemma below; not every lemma uses each of them.
set_option linter.unusedTactic false
set_option linter.unreachableTactic false
namespace Sys2Proof.Machine
variable {ps : List Part} {s t : State}

theorem only_execSecDebugUnlock {c : Cmd} (hp : [.groups, .reasm, .toTime, .toReeve, .inQ, .us, .act, .sup, .qos, .cry, .tine, .ports, .pwr, .pair, .sec, .life, .win, .i3c, .reeve, .counters, .freeCtr] ⊆ ps) (h : execSecDebugUnlock c s = .next t) :
    Only ps s t := by
  have hk : Only ps s s := Only.refl s
  unfold execSecDebugUnlock at h
  (try dsimp only at h)
  all_goals (repeat' split at h)
  all_goals (have h := Host.Outcome.next.inj h; subst h; repeat' first
      | with_reducible assumption | with_reducible exact fun _ h => h | with_reducible intro _
      | exact trivial | with_reducible apply only_ite | with_reducible apply only_ite2
      | with_reducible apply only_runCmd | with_reducible apply only_secDebugUnlockBody
      | refine only_snd (by assumption) ?_ | split | dsimp only
      | exact List.Subset.trans (by decide) hp | exact hp (by decide)
      | exact Only.step hp (by assumption) (fun p q => by cases p <;> first | rfl | exact absurd (by decide) q))

theorem only_execDebugPortAccess {op : DebugOp} (hp : [.sec] ⊆ ps) (h : execDebugPortAccess op s = .next t) :
    Only ps s t := by
  have hk : Only ps s s := Only.refl s
  unfold execDebugPortAccess at h
  (try dsimp only at h)
  all_goals (repeat' split at h)
  all_goals (have h := Host.Outcome.next.inj h; subst h; repeat' first
      | with_reducible assumption | with_reducible exact fun _ h => h | with_reducible intro _
      | exact trivial | with_reducible apply only_ite | with_reducible apply only_ite2
      | refine only_snd (by assumption) ?_ | split | dsimp only | with_reducible apply only_f_sec
      | exact List.Subset.trans (by decide) hp | exact hp (by decide)
      | exact Only.step hp (by assumption) (fun p q => by cases p <;> first | rfl | exact absurd (by decide) q))

theorem only_execSwathBoundary {group : Fin 4} {sc : BitVec 48} {optics0 optics1 : Optics} (hp :
    [.clk, .lanes, .groups, .lots, .reasm, .us, .act, .sup, .time, .qos, .cry, .cls, .tine, .ports,
    .slanes, .pwr, .pair, .life, .win, .i3c, .reeve, .settings, .counters, .freeCtr] ⊆ ps) (h : (execSwathBoundary group sc optics0 optics1 s) = .next t) :
    Only ps s t := by
  have hk : Only ps s s := Only.refl s
  unfold execSwathBoundary at h
  (try dsimp only at h)
  all_goals (repeat' split at h)
  all_goals (have h := Host.Outcome.next.inj h; subst h; repeat' first
      | with_reducible assumption | with_reducible exact fun _ h => h | with_reducible intro _
      | exact trivial | with_reducible apply only_ite | with_reducible apply only_ite2
      | with_reducible apply only_each | with_reducible apply only_applyDeferred
      | with_reducible apply only_bondSettle | with_reducible apply only_boundaryOps
      | with_reducible apply only_rejoinLanes | refine only_snd (by assumption) ?_ | split
      | dsimp only | exact List.Subset.trans (by decide) hp | exact hp (by decide)
      | exact Only.step hp (by assumption) (fun p q => by cases p <;> first | rfl | exact absurd (by decide) q))

theorem only_execVddAonPowerOn  (hp : [.clk, .lanes, .groups, .lots, .reasm, .toTime, .toReeve, .inQ, .us, .act, .sup, .time, .qos, .cry, .cls, .tine, .ports, .slanes, .pwr, .pair, .fuses, .sec, .flash, .life, .pins, .win, .i3c, .reeve, .settings, .counters, .freeCtr] ⊆ ps) (h : execVddAonPowerOn s = .next t) :
    Only ps s t := by
  have hk : Only ps s s := Only.refl s
  unfold execVddAonPowerOn at h
  (try dsimp only at h)
  all_goals (repeat' split at h)
  all_goals (have h := Host.Outcome.next.inj h; subst h; repeat' first
      | with_reducible assumption | with_reducible exact fun _ h => h | with_reducible intro _
      | exact trivial | with_reducible apply only_ite | with_reducible apply only_ite2
      | refine only_snd (by assumption) ?_ | split | dsimp only | with_reducible apply only_f_clk
      | with_reducible apply only_f_pair | with_reducible apply only_f_fuses
      | with_reducible apply only_f_flash | with_reducible apply only_f_life
      | with_reducible apply only_f_pins | with_reducible apply only_f_freeCtr
      | exact List.Subset.trans (by decide) hp | exact hp (by decide)
      | exact Only.step hp (by assumption) (fun p q => by cases p <;> first | rfl | exact absurd (by decide) q))

theorem only_execResetNAssert  (hp : [.clk, .lanes, .groups, .lots, .reasm, .toTime, .toReeve, .inQ, .us, .act, .sup, .time, .qos, .cry, .cls, .tine, .ports, .slanes, .pwr, .pair, .fuses, .sec, .flash, .life, .pins, .win, .i3c, .reeve, .settings, .counters, .freeCtr] ⊆ ps) (h : execResetNAssert s = .next t) :
    Only ps s t := by
  have hk : Only ps s s := Only.refl s
  unfold execResetNAssert at h
  (try dsimp only at h)
  all_goals (repeat' split at h)
  all_goals (have h := Host.Outcome.next.inj h; subst h; repeat' first
      | with_reducible assumption | with_reducible exact fun _ h => h | with_reducible intro _
      | exact trivial | with_reducible apply only_ite | with_reducible apply only_ite2
      | with_reducible apply only_enterReset | refine only_snd (by assumption) ?_ | split
      | dsimp only | with_reducible apply only_f_pins | exact List.Subset.trans (by decide) hp
      | exact hp (by decide)
      | exact Only.step hp (by assumption) (fun p q => by cases p <;> first | rfl | exact absurd (by decide) q))

theorem only_execResetNRelease {addr : BitVec 3} {testMode : Bool} (hp : [.clk, .lanes, .groups, .lots, .reasm, .toTime, .toReeve, .inQ, .us, .act, .sup, .time, .qos, .cry, .cls, .tine, .ports, .slanes, .pwr, .pair, .fuses, .sec, .flash, .life, .pins, .win, .i3c, .reeve, .settings, .counters, .freeCtr] ⊆ ps) (h : execResetNRelease addr testMode s = .next t) :
    Only ps s t := by
  have hk : Only ps s s := Only.refl s
  unfold execResetNRelease at h
  (try dsimp only at h)
  all_goals (repeat' split at h)
  all_goals (have h := Host.Outcome.next.inj h; subst h; repeat' first
      | with_reducible assumption | with_reducible exact fun _ h => h | with_reducible intro _
      | exact trivial | with_reducible apply only_ite | with_reducible apply only_ite2
      | with_reducible apply only_enterReset | with_reducible apply only_releaseReset
      | refine only_snd (by assumption) ?_ | split | dsimp only | with_reducible apply only_f_pins
      | exact List.Subset.trans (by decide) hp | exact hp (by decide)
      | exact Only.step hp (by assumption) (fun p q => by cases p <;> first | rfl | exact absurd (by decide) q))

theorem only_execPwrgoodFall  (hp : [.clk, .lanes, .groups, .lots, .reasm, .toTime, .toReeve, .inQ, .us, .act, .sup, .time, .qos, .cry, .cls, .tine, .ports, .slanes, .pwr, .pair, .fuses, .sec, .flash, .life, .pins, .win, .i3c, .reeve, .settings, .counters, .freeCtr] ⊆ ps) (h : execPwrgoodFall s = .next t) :
    Only ps s t := by
  have hk : Only ps s s := Only.refl s
  unfold execPwrgoodFall at h
  (try dsimp only at h)
  all_goals (repeat' split at h)
  all_goals (have h := Host.Outcome.next.inj h; subst h; repeat' first
      | with_reducible assumption | with_reducible exact fun _ h => h | with_reducible intro _
      | exact trivial | with_reducible apply only_ite | with_reducible apply only_ite2
      | with_reducible apply only_enterReset | refine only_snd (by assumption) ?_ | split
      | dsimp only | with_reducible apply only_f_pins | exact List.Subset.trans (by decide) hp
      | exact hp (by decide)
      | exact Only.step hp (by assumption) (fun p q => by cases p <;> first | rfl | exact absurd (by decide) q))

theorem only_execPwrgoodRise {addr : BitVec 3} {testMode : Bool} (hp : [.clk, .lanes, .groups, .lots, .reasm, .toTime, .toReeve, .inQ, .us, .act, .sup, .time, .qos, .cry, .cls, .tine, .ports, .slanes, .pwr, .pair, .fuses, .sec, .flash, .life, .pins, .win, .i3c, .reeve, .settings, .counters, .freeCtr] ⊆ ps) (h : execPwrgoodRise addr testMode s = .next t) :
    Only ps s t := by
  have hk : Only ps s s := Only.refl s
  unfold execPwrgoodRise at h
  (try dsimp only at h)
  all_goals (repeat' split at h)
  all_goals (have h := Host.Outcome.next.inj h; subst h; repeat' first
      | with_reducible assumption | with_reducible exact fun _ h => h | with_reducible intro _
      | exact trivial | with_reducible apply only_ite | with_reducible apply only_ite2
      | with_reducible apply only_enterReset | with_reducible apply only_releaseReset
      | refine only_snd (by assumption) ?_ | split | dsimp only | with_reducible apply only_f_pins
      | exact List.Subset.trans (by decide) hp | exact hp (by decide)
      | exact Only.step hp (by assumption) (fun p q => by cases p <;> first | rfl | exact absurd (by decide) q))

theorem only_execBootImageCheckDone {read : BootRead} (hp : [.cry, .cls, .tine, .win, .i3c, .reeve, .settings, .counters, .freeCtr] ⊆ ps) (h : execBootImageCheckDone read s = .next t) :
    Only ps s t := by
  have hk : Only ps s s := Only.refl s
  unfold execBootImageCheckDone at h
  (try dsimp only at h)
  all_goals (repeat' split at h)
  all_goals (have h := Host.Outcome.next.inj h; subst h; repeat' first
      | with_reducible assumption | with_reducible exact fun _ h => h | with_reducible intro _
      | exact trivial | with_reducible apply only_ite | with_reducible apply only_ite2
      | with_reducible apply only_bootReady | with_reducible apply only_raise
      | with_reducible apply only_setBoot | refine only_snd (by assumption) ?_ | split
      | dsimp only | with_reducible apply only_f_win | exact List.Subset.trans (by decide) hp
      | exact hp (by decide)
      | exact Only.step hp (by assumption) (fun p q => by cases p <;> first | rfl | exact absurd (by decide) q))

theorem only_execGaspInAssert  (hp : [.life, .pins] ⊆ ps) (h : execGaspInAssert s = .next t) :
    Only ps s t := by
  have hk : Only ps s s := Only.refl s
  unfold execGaspInAssert at h
  (try dsimp only at h)
  all_goals (repeat' split at h)
  all_goals (have h := Host.Outcome.next.inj h; subst h; repeat' first
      | with_reducible assumption | with_reducible exact fun _ h => h | with_reducible intro _
      | exact trivial | with_reducible apply only_ite | with_reducible apply only_ite2
      | with_reducible apply only_checkpoint | refine only_snd (by assumption) ?_ | split
      | dsimp only | with_reducible apply only_f_pins | exact List.Subset.trans (by decide) hp
      | exact hp (by decide)
      | exact Only.step hp (by assumption) (fun p q => by cases p <;> first | rfl | exact absurd (by decide) q))

theorem only_execGaspInClear  (hp : [.pins] ⊆ ps) (h : execGaspInClear s = .next t) :
    Only ps s t := by
  have hk : Only ps s s := Only.refl s
  unfold execGaspInClear at h
  (try dsimp only at h)
  all_goals (repeat' split at h)
  all_goals (have h := Host.Outcome.next.inj h; subst h; repeat' first
      | with_reducible assumption | with_reducible exact fun _ h => h | with_reducible intro _
      | exact trivial | with_reducible apply only_ite | with_reducible apply only_ite2
      | refine only_snd (by assumption) ?_ | split | dsimp only | with_reducible apply only_f_pins
      | exact List.Subset.trans (by decide) hp | exact hp (by decide)
      | exact Only.step hp (by assumption) (fun p q => by cases p <;> first | rfl | exact absurd (by decide) q))

theorem only_execMbInDataWrite {value : BitVec 8} (hp : [.sup, .pwr, .life, .win, .i3c, .reeve, .counters] ⊆ ps) (h : execMbInDataWrite value s = .next t) :
    Only ps s t := by
  have hk : Only ps s s := Only.refl s
  unfold execMbInDataWrite at h
  (try dsimp only at h)
  all_goals (repeat' split at h)
  all_goals (have h := Host.Outcome.next.inj h; subst h; repeat' first
      | with_reducible assumption | with_reducible exact fun _ h => h | with_reducible intro _
      | exact trivial | with_reducible apply only_ite | with_reducible apply only_ite2
      | with_reducible apply only_addressed | with_reducible apply only_mbInWrite
      | with_reducible apply only_modI3c | refine only_snd (by assumption) ?_ | split | dsimp only
      | exact List.Subset.trans (by decide) hp | exact hp (by decide)
      | exact Only.step hp (by assumption) (fun p q => by cases p <;> first | rfl | exact absurd (by decide) q))

theorem only_execMbOutDataRead  (hp : [.sup, .pwr, .life, .win, .i3c, .reeve, .counters] ⊆ ps) (h : execMbOutDataRead s = .next t) :
    Only ps s t := by
  have hk : Only ps s s := Only.refl s
  unfold execMbOutDataRead at h
  (try dsimp only at h)
  all_goals (repeat' split at h)
  all_goals (have h := Host.Outcome.next.inj h; subst h; repeat' first
      | with_reducible assumption | with_reducible exact fun _ h => h | with_reducible intro _
      | exact trivial | with_reducible apply only_ite | with_reducible apply only_ite2
      | with_reducible apply only_addressed | with_reducible apply only_mbOutRead
      | refine only_snd (by assumption) ?_ | split | dsimp only
      | exact List.Subset.trans (by decide) hp | exact hp (by decide)
      | exact Only.step hp (by assumption) (fun p q => by cases p <;> first | rfl | exact absurd (by decide) q))

theorem only_execMbDoorbell  (hp : [.sup, .pwr, .life, .win, .i3c, .reeve, .counters] ⊆ ps) (h : execMbDoorbell s = .next t) :
    Only ps s t := by
  have hk : Only ps s s := Only.refl s
  unfold execMbDoorbell at h
  (try dsimp only at h)
  all_goals (repeat' split at h)
  all_goals (have h := Host.Outcome.next.inj h; subst h; repeat' first
      | with_reducible assumption | with_reducible exact fun _ h => h | with_reducible intro _
      | exact trivial | with_reducible apply only_ite | with_reducible apply only_ite2
      | with_reducible apply only_addressed | with_reducible apply only_doorbell
      | refine only_snd (by assumption) ?_ | split | dsimp only
      | exact List.Subset.trans (by decide) hp | exact hp (by decide)
      | exact Only.step hp (by assumption) (fun p q => by cases p <;> first | rfl | exact absurd (by decide) q))

theorem only_execMbRespAck  (hp : [.clk, .lanes, .groups, .lots, .reasm, .toTime, .toReeve, .inQ, .us, .act, .sup, .time, .qos, .cry, .cls, .tine, .ports, .slanes, .pwr, .pair, .fuses, .sec, .flash, .life, .pins, .win, .i3c, .reeve, .settings, .counters, .freeCtr] ⊆ ps) (h : execMbRespAck s = .next t) :
    Only ps s t := by
  have hk : Only ps s s := Only.refl s
  unfold execMbRespAck at h
  (try dsimp only at h)
  all_goals (repeat' split at h)
  all_goals (have h := Host.Outcome.next.inj h; subst h; repeat' first
      | with_reducible assumption | with_reducible exact fun _ h => h | with_reducible intro _
      | exact trivial | with_reducible apply only_ite | with_reducible apply only_ite2
      | with_reducible apply only_addressed | with_reducible apply only_respAck
      | refine only_snd (by assumption) ?_ | split | dsimp only
      | exact List.Subset.trans (by decide) hp | exact hp (by decide)
      | exact Only.step hp (by assumption) (fun p q => by cases p <;> first | rfl | exact absurd (by decide) q))

theorem only_execEvtPop  (hp : [.sup, .pwr, .life, .win, .i3c, .reeve, .counters] ⊆ ps) (h : execEvtPop s = .next t) :
    Only ps s t := by
  have hk : Only ps s s := Only.refl s
  unfold execEvtPop at h
  (try dsimp only at h)
  all_goals (repeat' split at h)
  all_goals (have h := Host.Outcome.next.inj h; subst h; repeat' first
      | with_reducible assumption | with_reducible exact fun _ h => h | with_reducible intro _
      | exact trivial | with_reducible apply only_ite | with_reducible apply only_ite2
      | with_reducible apply only_addressed | with_reducible apply only_popEvent
      | refine only_snd (by assumption) ?_ | split | dsimp only
      | exact List.Subset.trans (by decide) hp | exact hp (by decide)
      | exact Only.step hp (by assumption) (fun p q => by cases p <;> first | rfl | exact absurd (by decide) q))

theorem only_execIntStatClear {bits : BitVec 5} (hp : [.sup, .pwr, .life, .win, .i3c, .reeve, .counters] ⊆ ps) (h : execIntStatClear bits s = .next t) :
    Only ps s t := by
  have hk : Only ps s s := Only.refl s
  unfold execIntStatClear at h
  (try dsimp only at h)
  all_goals (repeat' split at h)
  all_goals (have h := Host.Outcome.next.inj h; subst h; repeat' first
      | with_reducible assumption | with_reducible exact fun _ h => h | with_reducible intro _
      | exact trivial | with_reducible apply only_ite | with_reducible apply only_ite2
      | with_reducible apply only_addressed | with_reducible apply only_clearInt
      | refine only_snd (by assumption) ?_ | split | dsimp only
      | exact List.Subset.trans (by decide) hp | exact hp (by decide)
      | exact Only.step hp (by assumption) (fun p q => by cases p <;> first | rfl | exact absurd (by decide) q))

theorem only_execWinCommit  (hp : [.sup, .pwr, .life, .win, .i3c, .reeve, .counters] ⊆ ps) (h : execWinCommit s = .next t) :
    Only ps s t := by
  have hk : Only ps s s := Only.refl s
  unfold execWinCommit at h
  (try dsimp only at h)
  all_goals (repeat' split at h)
  all_goals (have h := Host.Outcome.next.inj h; subst h; repeat' first
      | with_reducible assumption | with_reducible exact fun _ h => h | with_reducible intro _
      | exact trivial | with_reducible apply only_ite | with_reducible apply only_ite2
      | with_reducible apply only_addressed | with_reducible apply only_winCommit
      | refine only_snd (by assumption) ?_ | split | dsimp only
      | exact List.Subset.trans (by decide) hp | exact hp (by decide)
      | exact Only.step hp (by assumption) (fun p q => by cases p <;> first | rfl | exact absurd (by decide) q))

theorem only_execReeveRestart  (hp : [.clk, .lanes, .groups, .lots, .reasm, .toTime, .toReeve, .inQ, .us, .act, .sup, .time, .qos, .cry, .cls, .tine, .ports, .slanes, .pwr, .pair, .fuses, .sec, .flash, .life, .pins, .win, .i3c, .reeve, .settings, .counters, .freeCtr] ⊆ ps) (h : execReeveRestart s = .next t) :
    Only ps s t := by
  have hk : Only ps s s := Only.refl s
  unfold execReeveRestart at h
  (try dsimp only at h)
  all_goals (repeat' split at h)
  all_goals (have h := Host.Outcome.next.inj h; subst h; repeat' first
      | with_reducible assumption | with_reducible exact fun _ h => h | with_reducible intro _
      | exact trivial | with_reducible apply only_ite | with_reducible apply only_ite2
      | with_reducible apply only_addressed | with_reducible apply only_restartReeve
      | refine only_snd (by assumption) ?_ | split | dsimp only
      | exact List.Subset.trans (by decide) hp | exact hp (by decide)
      | exact Only.step hp (by assumption) (fun p q => by cases p <;> first | rfl | exact absurd (by decide) q))

theorem only_execRegisterWrite {addr : BitVec 8} {value : BitVec 8} (hp : [.clk, .lanes, .groups, .lots, .reasm, .toTime, .toReeve, .inQ, .us, .act, .sup, .time, .qos, .cry, .cls, .tine, .ports, .slanes, .pwr, .pair, .fuses, .sec, .flash, .life, .pins, .win, .i3c, .reeve, .settings, .counters, .freeCtr] ⊆ ps) (h : execRegisterWrite addr value s = .next t) :
    Only ps s t := by
  have hk : Only ps s s := Only.refl s
  unfold execRegisterWrite at h
  (try dsimp only at h)
  all_goals (repeat' split at h)
  all_goals (have h := Host.Outcome.next.inj h; subst h; repeat' first
      | with_reducible assumption | with_reducible exact fun _ h => h | with_reducible intro _
      | exact trivial | with_reducible apply only_ite | with_reducible apply only_ite2
      | with_reducible apply only_addressed | with_reducible apply only_modI3c
      | with_reducible apply only_windowWrite | refine only_snd (by assumption) ?_ | split
      | dsimp only | exact List.Subset.trans (by decide) hp | exact hp (by decide)
      | exact Only.step hp (by assumption) (fun p q => by cases p <;> first | rfl | exact absurd (by decide) q))

theorem only_execIbiRetry {ack : Bool} (hp : [.i3c] ⊆ ps) (h : execIbiRetry ack s = .next t) :
    Only ps s t := by
  have hk : Only ps s s := Only.refl s
  unfold execIbiRetry at h
  (try dsimp only at h)
  all_goals (repeat' split at h)
  all_goals (have h := Host.Outcome.next.inj h; subst h; repeat' first
      | with_reducible assumption | with_reducible exact fun _ h => h | with_reducible intro _
      | exact trivial | with_reducible apply only_ite | with_reducible apply only_ite2
      | with_reducible apply only_modI3c | refine only_snd (by assumption) ?_ | split | dsimp only
      | exact List.Subset.trans (by decide) hp | exact hp (by decide)
      | exact Only.step hp (by assumption) (fun p q => by cases p <;> first | rfl | exact absurd (by decide) q))

theorem only_execEntdaa {addr : BitVec 7} (hp : [.i3c] ⊆ ps) (h : execEntdaa addr s = .next t) :
    Only ps s t := by
  have hk : Only ps s s := Only.refl s
  unfold execEntdaa at h
  (try dsimp only at h)
  all_goals (repeat' split at h)
  all_goals (have h := Host.Outcome.next.inj h; subst h; repeat' first
      | with_reducible assumption | with_reducible exact fun _ h => h | with_reducible intro _
      | exact trivial | with_reducible apply only_ite | with_reducible apply only_ite2
      | with_reducible apply only_broadcast | with_reducible apply only_modI3c
      | refine only_snd (by assumption) ?_ | split | dsimp only
      | exact List.Subset.trans (by decide) hp | exact hp (by decide)
      | exact Only.step hp (by assumption) (fun p q => by cases p <;> first | rfl | exact absurd (by decide) q))

theorem only_execSetdasa {addr : BitVec 7} (hp : [.sup, .pwr, .life, .win, .i3c, .reeve, .counters] ⊆ ps) (h : execSetdasa addr s = .next t) :
    Only ps s t := by
  have hk : Only ps s s := Only.refl s
  unfold execSetdasa at h
  (try dsimp only at h)
  all_goals (repeat' split at h)
  all_goals (have h := Host.Outcome.next.inj h; subst h; repeat' first
      | with_reducible assumption | with_reducible exact fun _ h => h | with_reducible intro _
      | exact trivial | with_reducible apply only_ite | with_reducible apply only_ite2
      | with_reducible apply only_addressed | with_reducible apply only_modI3c
      | refine only_snd (by assumption) ?_ | split | dsimp only
      | exact List.Subset.trans (by decide) hp | exact hp (by decide)
      | exact Only.step hp (by assumption) (fun p q => by cases p <;> first | rfl | exact absurd (by decide) q))

theorem only_execRstdaa  (hp : [.i3c] ⊆ ps) (h : execRstdaa s = .next t) :
    Only ps s t := by
  have hk : Only ps s s := Only.refl s
  unfold execRstdaa at h
  (try dsimp only at h)
  all_goals (repeat' split at h)
  all_goals (have h := Host.Outcome.next.inj h; subst h; repeat' first
      | with_reducible assumption | with_reducible exact fun _ h => h | with_reducible intro _
      | exact trivial | with_reducible apply only_ite | with_reducible apply only_ite2
      | with_reducible apply only_broadcast | with_reducible apply only_modI3c
      | refine only_snd (by assumption) ?_ | split | dsimp only
      | exact List.Subset.trans (by decide) hp | exact hp (by decide)
      | exact Only.step hp (by assumption) (fun p q => by cases p <;> first | rfl | exact absurd (by decide) q))

theorem only_execEnec  (hp : [.i3c] ⊆ ps) (h : execEnec s = .next t) :
    Only ps s t := by
  have hk : Only ps s s := Only.refl s
  unfold execEnec at h
  (try dsimp only at h)
  all_goals (repeat' split at h)
  all_goals (have h := Host.Outcome.next.inj h; subst h; repeat' first
      | with_reducible assumption | with_reducible exact fun _ h => h | with_reducible intro _
      | exact trivial | with_reducible apply only_ite | with_reducible apply only_ite2
      | with_reducible apply only_broadcast | with_reducible apply only_modI3c
      | refine only_snd (by assumption) ?_ | split | dsimp only
      | exact List.Subset.trans (by decide) hp | exact hp (by decide)
      | exact Only.step hp (by assumption) (fun p q => by cases p <;> first | rfl | exact absurd (by decide) q))

theorem only_execDisec  (hp : [.i3c] ⊆ ps) (h : execDisec s = .next t) :
    Only ps s t := by
  have hk : Only ps s s := Only.refl s
  unfold execDisec at h
  (try dsimp only at h)
  all_goals (repeat' split at h)
  all_goals (have h := Host.Outcome.next.inj h; subst h; repeat' first
      | with_reducible assumption | with_reducible exact fun _ h => h | with_reducible intro _
      | exact trivial | with_reducible apply only_ite | with_reducible apply only_ite2
      | with_reducible apply only_broadcast | with_reducible apply only_modI3c
      | refine only_snd (by assumption) ?_ | split | dsimp only
      | exact List.Subset.trans (by decide) hp | exact hp (by decide)
      | exact Only.step hp (by assumption) (fun p q => by cases p <;> first | rfl | exact absurd (by decide) q))

theorem only_execSetmwl {n : BitVec 16} (hp : [.i3c] ⊆ ps) (h : execSetmwl n s = .next t) :
    Only ps s t := by
  have hk : Only ps s s := Only.refl s
  unfold execSetmwl at h
  (try dsimp only at h)
  all_goals (repeat' split at h)
  all_goals (have h := Host.Outcome.next.inj h; subst h; repeat' first
      | with_reducible assumption | with_reducible exact fun _ h => h | with_reducible intro _
      | exact trivial | with_reducible apply only_ite | with_reducible apply only_ite2
      | with_reducible apply only_broadcast | with_reducible apply only_modI3c
      | refine only_snd (by assumption) ?_ | split | dsimp only
      | exact List.Subset.trans (by decide) hp | exact hp (by decide)
      | exact Only.step hp (by assumption) (fun p q => by cases p <;> first | rfl | exact absurd (by decide) q))

theorem only_execSetmrl {n : BitVec 16} (hp : [.i3c] ⊆ ps) (h : execSetmrl n s = .next t) :
    Only ps s t := by
  have hk : Only ps s s := Only.refl s
  unfold execSetmrl at h
  (try dsimp only at h)
  all_goals (repeat' split at h)
  all_goals (have h := Host.Outcome.next.inj h; subst h; repeat' first
      | with_reducible assumption | with_reducible exact fun _ h => h | with_reducible intro _
      | exact trivial | with_reducible apply only_ite | with_reducible apply only_ite2
      | with_reducible apply only_broadcast | with_reducible apply only_modI3c
      | refine only_snd (by assumption) ?_ | split | dsimp only
      | exact List.Subset.trans (by decide) hp | exact hp (by decide)
      | exact Only.step hp (by assumption) (fun p q => by cases p <;> first | rfl | exact absurd (by decide) q))

theorem only_execGetmwl  (hp : [.sup, .pwr, .life, .win, .i3c, .reeve, .counters] ⊆ ps) (h : execGetmwl s = .next t) :
    Only ps s t := by
  have hk : Only ps s s := Only.refl s
  unfold execGetmwl at h
  (try dsimp only at h)
  all_goals (repeat' split at h)
  all_goals (have h := Host.Outcome.next.inj h; subst h; repeat' first
      | with_reducible assumption | with_reducible exact fun _ h => h | with_reducible intro _
      | exact trivial | with_reducible apply only_ite | with_reducible apply only_ite2
      | with_reducible apply only_addressed | with_reducible apply only_i3cAnswer
      | refine only_snd (by assumption) ?_ | split | dsimp only
      | exact List.Subset.trans (by decide) hp | exact hp (by decide)
      | exact Only.step hp (by assumption) (fun p q => by cases p <;> first | rfl | exact absurd (by decide) q))

theorem only_execGetmrl  (hp : [.sup, .pwr, .life, .win, .i3c, .reeve, .counters] ⊆ ps) (h : execGetmrl s = .next t) :
    Only ps s t := by
  have hk : Only ps s s := Only.refl s
  unfold execGetmrl at h
  (try dsimp only at h)
  all_goals (repeat' split at h)
  all_goals (have h := Host.Outcome.next.inj h; subst h; repeat' first
      | with_reducible assumption | with_reducible exact fun _ h => h | with_reducible intro _
      | exact trivial | with_reducible apply only_ite | with_reducible apply only_ite2
      | with_reducible apply only_addressed | with_reducible apply only_i3cAnswer
      | refine only_snd (by assumption) ?_ | split | dsimp only
      | exact List.Subset.trans (by decide) hp | exact hp (by decide)
      | exact Only.step hp (by assumption) (fun p q => by cases p <;> first | rfl | exact absurd (by decide) q))

theorem only_execGetpid  (hp : [.sup, .pwr, .life, .win, .i3c, .reeve, .counters] ⊆ ps) (h : execGetpid s = .next t) :
    Only ps s t := by
  have hk : Only ps s s := Only.refl s
  unfold execGetpid at h
  (try dsimp only at h)
  all_goals (repeat' split at h)
  all_goals (have h := Host.Outcome.next.inj h; subst h; repeat' first
      | with_reducible assumption | with_reducible exact fun _ h => h | with_reducible intro _
      | exact trivial | with_reducible apply only_ite | with_reducible apply only_ite2
      | with_reducible apply only_addressed | with_reducible apply only_i3cAnswer
      | refine only_snd (by assumption) ?_ | split | dsimp only
      | exact List.Subset.trans (by decide) hp | exact hp (by decide)
      | exact Only.step hp (by assumption) (fun p q => by cases p <;> first | rfl | exact absurd (by decide) q))

theorem only_execGetbcr  (hp : [.sup, .pwr, .life, .win, .i3c, .reeve, .counters] ⊆ ps) (h : execGetbcr s = .next t) :
    Only ps s t := by
  have hk : Only ps s s := Only.refl s
  unfold execGetbcr at h
  (try dsimp only at h)
  all_goals (repeat' split at h)
  all_goals (have h := Host.Outcome.next.inj h; subst h; repeat' first
      | with_reducible assumption | with_reducible exact fun _ h => h | with_reducible intro _
      | exact trivial | with_reducible apply only_ite | with_reducible apply only_ite2
      | with_reducible apply only_addressed | with_reducible apply only_i3cAnswer
      | refine only_snd (by assumption) ?_ | split | dsimp only
      | exact List.Subset.trans (by decide) hp | exact hp (by decide)
      | exact Only.step hp (by assumption) (fun p q => by cases p <;> first | rfl | exact absurd (by decide) q))

theorem only_execGetdcr  (hp : [.sup, .pwr, .life, .win, .i3c, .reeve, .counters] ⊆ ps) (h : execGetdcr s = .next t) :
    Only ps s t := by
  have hk : Only ps s s := Only.refl s
  unfold execGetdcr at h
  (try dsimp only at h)
  all_goals (repeat' split at h)
  all_goals (have h := Host.Outcome.next.inj h; subst h; repeat' first
      | with_reducible assumption | with_reducible exact fun _ h => h | with_reducible intro _
      | exact trivial | with_reducible apply only_ite | with_reducible apply only_ite2
      | with_reducible apply only_addressed | with_reducible apply only_i3cAnswer
      | refine only_snd (by assumption) ?_ | split | dsimp only
      | exact List.Subset.trans (by decide) hp | exact hp (by decide)
      | exact Only.step hp (by assumption) (fun p q => by cases p <;> first | rfl | exact absurd (by decide) q))

theorem only_execGetstatus  (hp : [.sup, .pwr, .life, .win, .i3c, .reeve, .counters, .freeCtr] ⊆ ps) (h : execGetstatus s = .next t) :
    Only ps s t := by
  have hk : Only ps s s := Only.refl s
  unfold execGetstatus at h
  (try dsimp only at h)
  all_goals (repeat' split at h)
  all_goals (have h := Host.Outcome.next.inj h; subst h; repeat' first
      | with_reducible assumption | with_reducible exact fun _ h => h | with_reducible intro _
      | exact trivial | with_reducible apply only_ite | with_reducible apply only_ite2
      | with_reducible apply only_addressed | with_reducible apply only_drawn
      | with_reducible apply only_i3cAnswer | refine only_snd (by assumption) ?_ | split
      | dsimp only | exact List.Subset.trans (by decide) hp | exact hp (by decide)
      | exact Only.step hp (by assumption) (fun p q => by cases p <;> first | rfl | exact absurd (by decide) q))

theorem only_execGetcaps  (hp : [.sup, .pwr, .life, .win, .i3c, .reeve, .counters, .freeCtr] ⊆ ps) (h : execGetcaps s = .next t) :
    Only ps s t := by
  have hk : Only ps s s := Only.refl s
  unfold execGetcaps at h
  (try dsimp only at h)
  all_goals (repeat' split at h)
  all_goals (have h := Host.Outcome.next.inj h; subst h; repeat' first
      | with_reducible assumption | with_reducible exact fun _ h => h | with_reducible intro _
      | exact trivial | with_reducible apply only_ite | with_reducible apply only_ite2
      | with_reducible apply only_addressed | with_reducible apply only_drawn
      | with_reducible apply only_i3cAnswer | refine only_snd (by assumption) ?_ | split
      | dsimp only | exact List.Subset.trans (by decide) hp | exact hp (by decide)
      | exact Only.step hp (by assumption) (fun p q => by cases p <;> first | rfl | exact absurd (by decide) q))

theorem only_execEnthdr0  (hp : [.i3c] ⊆ ps) (h : execEnthdr0 s = .next t) :
    Only ps s t := by
  have hk : Only ps s s := Only.refl s
  unfold execEnthdr0 at h
  (try dsimp only at h)
  all_goals (repeat' split at h)
  all_goals (have h := Host.Outcome.next.inj h; subst h; repeat' first
      | with_reducible assumption | with_reducible exact fun _ h => h | with_reducible intro _
      | exact trivial | with_reducible apply only_ite | with_reducible apply only_ite2
      | with_reducible apply only_broadcast | with_reducible apply only_modI3c
      | refine only_snd (by assumption) ?_ | split | dsimp only
      | exact List.Subset.trans (by decide) hp | exact hp (by decide)
      | exact Only.step hp (by assumption) (fun p q => by cases p <;> first | rfl | exact absurd (by decide) q))

theorem only_execLifeRead {c : Cmd} (hp : [.act, .sup, .pair, .life, .win, .i3c, .reeve, .counters] ⊆ ps) (h : execLifeRead c s = .next t) :
    Only ps s t := by
  have hk : Only ps s s := Only.refl s
  unfold execLifeRead at h
  (try dsimp only at h)
  all_goals (repeat' split at h)
  all_goals (have h := Host.Outcome.next.inj h; subst h; repeat' first
      | with_reducible assumption | with_reducible exact fun _ h => h | with_reducible intro _
      | exact trivial | with_reducible apply only_ite | with_reducible apply only_ite2
      | with_reducible apply only_lifeReadBody | with_reducible apply only_runCmd
      | refine only_snd (by assumption) ?_ | split | dsimp only
      | exact List.Subset.trans (by decide) hp | exact hp (by decide)
      | exact Only.step hp (by assumption) (fun p q => by cases p <;> first | rfl | exact absurd (by decide) q))

theorem only_execLifeGetSummary {c : Cmd} (hp : [.act, .sup, .pair, .life, .win, .i3c, .reeve, .counters] ⊆ ps) (h : execLifeGetSummary c s = .next t) :
    Only ps s t := by
  have hk : Only ps s s := Only.refl s
  unfold execLifeGetSummary at h
  (try dsimp only at h)
  all_goals (repeat' split at h)
  all_goals (have h := Host.Outcome.next.inj h; subst h; repeat' first
      | with_reducible assumption | with_reducible exact fun _ h => h | with_reducible intro _
      | exact trivial | with_reducible apply only_ite | with_reducible apply only_ite2
      | with_reducible apply only_lifeGetSummaryBody | with_reducible apply only_runCmd
      | refine only_snd (by assumption) ?_ | split | dsimp only
      | exact List.Subset.trans (by decide) hp | exact hp (by decide)
      | exact Only.step hp (by assumption) (fun p q => by cases p <;> first | rfl | exact absurd (by decide) q))

theorem only_execLifeMark {c : Cmd} {misreads : List Bool} (hp : [.act, .sup, .pair, .life, .win,
    .i3c, .reeve, .counters] ⊆ ps) (h : (execLifeMark c s misreads) = .next t) :
    Only ps s t := by
  have hk : Only ps s s := Only.refl s
  unfold execLifeMark at h
  (try dsimp only at h)
  all_goals (repeat' split at h)
  all_goals (have h := Host.Outcome.next.inj h; subst h; repeat' first
      | with_reducible assumption | with_reducible exact fun _ h => h | with_reducible intro _
      | exact trivial | with_reducible apply only_ite | with_reducible apply only_ite2
      | with_reducible apply only_lifeMarkBody | with_reducible apply only_runCmd
      | refine only_snd (by assumption) ?_ | split | dsimp only
      | exact List.Subset.trans (by decide) hp | exact hp (by decide)
      | exact Only.step hp (by assumption) (fun p q => by cases p <;> first | rfl | exact absurd (by decide) q))

theorem only_execEntryE2  (hp : [.lanes, .us, .act, .sup, .qos, .ports, .pwr, .pair, .life, .win, .i3c, .reeve, .counters, .freeCtr] ⊆ ps) (h : execEntryE2 s = .next t) :
    Only ps s t := by
  have hk : Only ps s s := Only.refl s
  unfold execEntryE2 at h
  (try dsimp only at h)
  all_goals (repeat' split at h)
  all_goals (have h := Host.Outcome.next.inj h; subst h; repeat' first
      | with_reducible assumption | with_reducible exact fun _ h => h | with_reducible intro _
      | exact trivial | with_reducible apply only_ite | with_reducible apply only_ite2
      | with_reducible apply only_checkpoint | with_reducible apply only_drainLook
      | with_reducible apply only_gateLook | with_reducible apply only_reachPoint
      | refine only_snd (by assumption) ?_ | split | dsimp only
      | exact List.Subset.trans (by decide) hp | exact hp (by decide)
      | exact Only.step hp (by assumption) (fun p q => by cases p <;> first | rfl | exact absurd (by decide) q))

theorem only_execNoticeWaitExpiry  (hp : [.act, .sup, .pwr, .life, .win, .i3c, .reeve, .counters] ⊆ ps) (h : execNoticeWaitExpiry s = .next t) :
    Only ps s t := by
  have hk : Only ps s s := Only.refl s
  unfold execNoticeWaitExpiry at h
  (try dsimp only at h)
  all_goals (repeat' split at h)
  all_goals (have h := Host.Outcome.next.inj h; subst h; repeat' first
      | with_reducible assumption | with_reducible exact fun _ h => h | with_reducible intro _
      | exact trivial | with_reducible apply only_ite | with_reducible apply only_ite2
      | with_reducible apply only_bump | with_reducible apply only_drainLook
      | with_reducible apply only_each | with_reducible apply only_modPwr
      | with_reducible apply only_withdrawNotice | refine only_snd (by assumption) ?_ | split
      | dsimp only | exact List.Subset.trans (by decide) hp | exact hp (by decide)
      | exact Only.step hp (by assumption) (fun p q => by cases p <;> first | rfl | exact absurd (by decide) q))

theorem only_execDrainWaitExpiry  (hp : [.pwr] ⊆ ps) (h : execDrainWaitExpiry s = .next t) :
    Only ps s t := by
  have hk : Only ps s s := Only.refl s
  unfold execDrainWaitExpiry at h
  (try dsimp only at h)
  all_goals (repeat' split at h)
  all_goals (have h := Host.Outcome.next.inj h; subst h; repeat' first
      | with_reducible assumption | with_reducible exact fun _ h => h | with_reducible intro _
      | exact trivial | with_reducible apply only_ite | with_reducible apply only_ite2
      | with_reducible apply only_modPwr | refine only_snd (by assumption) ?_ | split | dsimp only
      | exact List.Subset.trans (by decide) hp | exact hp (by decide)
      | exact Only.step hp (by assumption) (fun p q => by cases p <;> first | rfl | exact absurd (by decide) q))

theorem only_execEntryE3  (hp : [.lanes, .act, .sup, .pwr, .life, .win, .i3c, .reeve, .counters] ⊆ ps) (h : execEntryE3 s = .next t) :
    Only ps s t := by
  have hk : Only ps s s := Only.refl s
  unfold execEntryE3 at h
  (try dsimp only at h)
  all_goals (repeat' split at h)
  all_goals (have h := Host.Outcome.next.inj h; subst h; repeat' first
      | with_reducible assumption | with_reducible exact fun _ h => h | with_reducible intro _
      | exact trivial | with_reducible apply only_ite | with_reducible apply only_ite2
      | with_reducible apply only_modPwr | with_reducible apply only_reachPoint
      | refine only_snd (by assumption) ?_ | split | dsimp only
      | exact List.Subset.trans (by decide) hp | exact hp (by decide)
      | exact Only.step hp (by assumption) (fun p q => by cases p <;> first | rfl | exact absurd (by decide) q))

theorem only_execEntryE4 {slSignal : BitVec 8} (hp : [.clk, .lanes, .groups, .us, .act, .sup, .time, .qos, .ports, .pwr, .pair, .life, .win, .i3c, .reeve, .counters, .freeCtr] ⊆ ps) (h : execEntryE4 slSignal s = .next t) :
    Only ps s t := by
  have hk : Only ps s s := Only.refl s
  unfold execEntryE4 at h
  (try dsimp only at h)
  all_goals (repeat' split at h)
  all_goals (have h := Host.Outcome.next.inj h; subst h; repeat' first
      | with_reducible assumption | with_reducible exact fun _ h => h | with_reducible intro _
      | exact trivial | with_reducible apply only_ite | with_reducible apply only_ite2
      | with_reducible apply only_latchPads | with_reducible apply only_reachPoint
      | refine only_snd (by assumption) ?_ | split | dsimp only
      | exact List.Subset.trans (by decide) hp | exact hp (by decide)
      | exact Only.step hp (by assumption) (fun p q => by cases p <;> first | rfl | exact absurd (by decide) q))

theorem only_execEntryE5  (hp : [.clk, .lanes, .act, .sup, .time, .pwr, .life, .win, .i3c, .reeve, .counters] ⊆ ps) (h : execEntryE5 s = .next t) :
    Only ps s t := by
  have hk : Only ps s s := Only.refl s
  unfold execEntryE5 at h
  (try dsimp only at h)
  all_goals (repeat' split at h)
  all_goals (have h := Host.Outcome.next.inj h; subst h; repeat' first
      | with_reducible assumption | with_reducible exact fun _ h => h | with_reducible intro _
      | exact trivial | with_reducible apply only_ite | with_reducible apply only_ite2
      | with_reducible apply only_abandonEntry | with_reducible apply only_isolate
      | refine only_snd (by assumption) ?_ | split | dsimp only
      | exact List.Subset.trans (by decide) hp | exact hp (by decide)
      | exact Only.step hp (by assumption) (fun p q => by cases p <;> first | rfl | exact absurd (by decide) q))

theorem only_execSlSignal {lane : Fin 8} (hp : [.sup, .pwr, .life, .win, .i3c, .reeve, .counters] ⊆ ps) (h : execSlSignal lane s = .next t) :
    Only ps s t := by
  have hk : Only ps s s := Only.refl s
  unfold execSlSignal at h
  (try dsimp only at h)
  all_goals (repeat' split at h)
  all_goals (have h := Host.Outcome.next.inj h; subst h; repeat' first
      | with_reducible assumption | with_reducible exact fun _ h => h | with_reducible intro _
      | exact trivial | with_reducible apply only_ite | with_reducible apply only_ite2
      | with_reducible apply only_wakeEvent | refine only_snd (by assumption) ?_ | split
      | dsimp only | exact List.Subset.trans (by decide) hp | exact hp (by decide)
      | exact Only.step hp (by assumption) (fun p q => by cases p <;> first | rfl | exact absurd (by decide) q))

theorem only_execLineLight {lane : Fin 4} (hp : [.lanes, .sup, .pwr, .life, .win, .i3c, .reeve, .counters] ⊆ ps) (h : execLineLight lane s = .next t) :
    Only ps s t := by
  have hk : Only ps s s := Only.refl s
  unfold execLineLight at h
  (try dsimp only at h)
  all_goals (repeat' split at h)
  all_goals (have h := Host.Outcome.next.inj h; subst h; repeat' first
      | with_reducible assumption | with_reducible exact fun _ h => h | with_reducible intro _
      | exact trivial | with_reducible apply only_ite | with_reducible apply only_ite2
      | with_reducible apply only_modLane | with_reducible apply only_wakeEvent
      | refine only_snd (by assumption) ?_ | split | dsimp only
      | exact List.Subset.trans (by decide) hp | exact hp (by decide)
      | exact Only.step hp (by assumption) (fun p q => by cases p <;> first | rfl | exact absurd (by decide) q))

theorem only_execLineDark {lane : Fin 4} (hp : [.lanes, .sup, .pwr, .life, .win, .i3c, .reeve, .counters] ⊆ ps) (h : execLineDark lane s = .next t) :
    Only ps s t := by
  have hk : Only ps s s := Only.refl s
  unfold execLineDark at h
  (try dsimp only at h)
  all_goals (repeat' split at h)
  all_goals (have h := Host.Outcome.next.inj h; subst h; repeat' first
      | with_reducible assumption | with_reducible exact fun _ h => h | with_reducible intro _
      | exact trivial | with_reducible apply only_ite | with_reducible apply only_ite2
      | with_reducible apply only_modLane | with_reducible apply only_wakeEvent
      | refine only_snd (by assumption) ?_ | split | dsimp only
      | exact List.Subset.trans (by decide) hp | exact hp (by decide)
      | exact Only.step hp (by assumption) (fun p q => by cases p <;> first | rfl | exact absurd (by decide) q))

theorem only_execWakeIn  (hp : [.sup, .pwr, .life, .win, .i3c, .reeve, .counters] ⊆ ps) (h : execWakeIn s = .next t) :
    Only ps s t := by
  have hk : Only ps s s := Only.refl s
  unfold execWakeIn at h
  (try dsimp only at h)
  all_goals (repeat' split at h)
  all_goals (have h := Host.Outcome.next.inj h; subst h; repeat' first
      | with_reducible assumption | with_reducible exact fun _ h => h | with_reducible intro _
      | exact trivial | with_reducible apply only_ite | with_reducible apply only_ite2
      | with_reducible apply only_wakeEvent | refine only_snd (by assumption) ?_ | split
      | dsimp only | exact List.Subset.trans (by decide) hp | exact hp (by decide)
      | exact Only.step hp (by assumption) (fun p q => by cases p <;> first | rfl | exact absurd (by decide) q))

theorem only_execI3cWake  (hp : [.sup, .pwr, .life, .win, .i3c, .reeve, .counters] ⊆ ps) (h : execI3cWake s = .next t) :
    Only ps s t := by
  have hk : Only ps s s := Only.refl s
  unfold execI3cWake at h
  (try dsimp only at h)
  all_goals (repeat' split at h)
  all_goals (have h := Host.Outcome.next.inj h; subst h; repeat' first
      | with_reducible assumption | with_reducible exact fun _ h => h | with_reducible intro _
      | exact trivial | with_reducible apply only_ite | with_reducible apply only_ite2
      | with_reducible apply only_wakeEvent | refine only_snd (by assumption) ?_ | split
      | dsimp only | exact List.Subset.trans (by decide) hp | exact hp (by decide)
      | exact Only.step hp (by assumption) (fun p q => by cases p <;> first | rfl | exact absurd (by decide) q))

theorem only_execPwrWake {m : FieldMsg} (hp : [.act, .sup, .pwr, .life, .win, .i3c, .reeve, .counters] ⊆ ps) (h : execPwrWake m s = .next t) :
    Only ps s t := by
  have hk : Only ps s s := Only.refl s
  unfold execPwrWake at h
  (try dsimp only at h)
  all_goals (repeat' split at h)
  all_goals (have h := Host.Outcome.next.inj h; subst h; repeat' first
      | with_reducible assumption | with_reducible exact fun _ h => h | with_reducible intro _
      | exact trivial | with_reducible apply only_ite | with_reducible apply only_ite2
      | with_reducible apply only_acceptMsg | with_reducible apply only_actPwrWake
      | refine only_snd (by assumption) ?_ | split | dsimp only
      | exact List.Subset.trans (by decide) hp | exact hp (by decide)
      | exact Only.step hp (by assumption) (fun p q => by cases p <;> first | rfl | exact absurd (by decide) q))

theorem only_execRouseDecision {chip : Bool} (hp : [.sup, .pwr, .life, .win, .i3c, .reeve, .counters] ⊆ ps) (h : execRouseDecision chip s = .next t) :
    Only ps s t := by
  have hk : Only ps s s := Only.refl s
  unfold execRouseDecision at h
  (try dsimp only at h)
  all_goals (repeat' split at h)
  all_goals (have h := Host.Outcome.next.inj h; subst h; repeat' first
      | with_reducible assumption | with_reducible exact fun _ h => h | with_reducible intro _
      | exact trivial | with_reducible apply only_ite | with_reducible apply only_ite2
      | with_reducible apply only_bump | with_reducible apply only_modPwr
      | with_reducible apply only_wakeEvent | refine only_snd (by assumption) ?_ | split
      | dsimp only | exact List.Subset.trans (by decide) hp | exact hp (by decide)
      | exact Only.step hp (by assumption) (fun p q => by cases p <;> first | rfl | exact absurd (by decide) q))

theorem only_execListenPowerUp {lane : Fin 4} (hp : [.lanes, .sup] ⊆ ps) (h : execListenPowerUp lane s = .next t) :
    Only ps s t := by
  have hk : Only ps s s := Only.refl s
  unfold execListenPowerUp at h
  (try dsimp only at h)
  all_goals (repeat' split at h)
  all_goals (have h := Host.Outcome.next.inj h; subst h; repeat' first
      | with_reducible assumption | with_reducible exact fun _ h => h | with_reducible intro _
      | exact trivial | with_reducible apply only_ite | with_reducible apply only_ite2
      | with_reducible apply only_laneUp | refine only_snd (by assumption) ?_ | split | dsimp only
      | exact List.Subset.trans (by decide) hp | exact hp (by decide)
      | exact Only.step hp (by assumption) (fun p q => by cases p <;> first | rfl | exact absurd (by decide) q))

theorem only_execWakeComplete {failedBanks : BitVec 64} (hp : [.clk, .lanes, .groups, .lots, .reasm, .toTime, .toReeve, .inQ, .us, .act, .sup, .time, .qos, .cry, .cls, .tine, .ports, .slanes, .pwr, .pair, .sec, .life, .win, .i3c, .reeve, .settings, .counters, .freeCtr] ⊆ ps) (h : execWakeComplete failedBanks s = .next t) :
    Only ps s t := by
  have hk : Only ps s s := Only.refl s
  unfold execWakeComplete at h
  (try dsimp only at h)
  all_goals (repeat' split at h)
  all_goals (have h := Host.Outcome.next.inj h; subst h; repeat' first
      | with_reducible assumption | with_reducible exact fun _ h => h | with_reducible intro _
      | exact trivial | with_reducible apply only_ite | with_reducible apply only_ite2
      | with_reducible apply only_completeWake | refine only_snd (by assumption) ?_ | split
      | dsimp only | exact List.Subset.trans (by decide) hp | exact hp (by decide)
      | exact Only.step hp (by assumption) (fun p q => by cases p <;> first | rfl | exact absurd (by decide) q))

theorem only_execPwrSetDomains {c : Cmd} {failedBanks : BitVec 64} (hp : [.clk, .lanes, .groups, .lots, .reasm, .toTime, .toReeve, .inQ, .us, .act, .sup, .time, .qos, .cry, .cls, .tine, .ports, .slanes, .pwr, .pair, .life, .win, .i3c, .reeve, .settings, .counters, .freeCtr] ⊆ ps) (h : execPwrSetDomains c failedBanks s = .next t) :
    Only ps s t := by
  have hk : Only ps s s := Only.refl s
  unfold execPwrSetDomains at h
  (try dsimp only at h)
  all_goals (repeat' split at h)
  all_goals (have h := Host.Outcome.next.inj h; subst h; repeat' first
      | with_reducible assumption | with_reducible exact fun _ h => h | with_reducible intro _
      | exact trivial | with_reducible apply only_ite | with_reducible apply only_ite2
      | with_reducible apply only_pwrSetDomainsBody | with_reducible apply only_runCmd
      | refine only_snd (by assumption) ?_ | split | dsimp only
      | exact List.Subset.trans (by decide) hp | exact hp (by decide)
      | exact Only.step hp (by assumption) (fun p q => by cases p <;> first | rfl | exact absurd (by decide) q))

theorem only_execBufBankGated {bank : Fin 24} (hp : [.pwr, .win, .i3c, .reeve, .counters] ⊆ ps) (h : execBufBankGated bank s = .next t) :
    Only ps s t := by
  have hk : Only ps s s := Only.refl s
  unfold execBufBankGated at h
  (try dsimp only at h)
  all_goals (repeat' split at h)
  all_goals (have h := Host.Outcome.next.inj h; subst h; repeat' first
      | with_reducible assumption | with_reducible exact fun _ h => h | with_reducible intro _
      | exact trivial | with_reducible apply only_ite | with_reducible apply only_ite2
      | with_reducible apply only_modPwr | with_reducible apply only_raiseTag
      | refine only_snd (by assumption) ?_ | split | dsimp only
      | exact List.Subset.trans (by decide) hp | exact hp (by decide)
      | exact Only.step hp (by assumption) (fun p q => by cases p <;> first | rfl | exact absurd (by decide) q))

theorem only_execPwrSetState {c : Cmd} (hp : [.act, .sup, .pwr, .pair, .life, .win, .i3c, .reeve, .settings, .counters] ⊆ ps) (h : execPwrSetState c s = .next t) :
    Only ps s t := by
  have hk : Only ps s s := Only.refl s
  unfold execPwrSetState at h
  (try dsimp only at h)
  all_goals (repeat' split at h)
  all_goals (have h := Host.Outcome.next.inj h; subst h; repeat' first
      | with_reducible assumption | with_reducible exact fun _ h => h | with_reducible intro _
      | exact trivial | with_reducible apply only_ite | with_reducible apply only_ite2
      | with_reducible apply only_pwrSetStateBody | with_reducible apply only_runCmd
      | refine only_snd (by assumption) ?_ | split | dsimp only
      | exact List.Subset.trans (by decide) hp | exact hp (by decide)
      | exact Only.step hp (by assumption) (fun p q => by cases p <;> first | rfl | exact absurd (by decide) q))

theorem only_execPwrGetState {c : Cmd} (hp : [.act, .sup, .pair, .life, .win, .i3c, .reeve, .counters] ⊆ ps) (h : execPwrGetState c s = .next t) :
    Only ps s t := by
  have hk : Only ps s s := Only.refl s
  unfold execPwrGetState at h
  (try dsimp only at h)
  all_goals (repeat' split at h)
  all_goals (have h := Host.Outcome.next.inj h; subst h; repeat' first
      | with_reducible assumption | with_reducible exact fun _ h => h | with_reducible intro _
      | exact trivial | with_reducible apply only_ite | with_reducible apply only_ite2
      | with_reducible apply only_pwrGetStateBody | with_reducible apply only_runCmd
      | refine only_snd (by assumption) ?_ | split | dsimp only
      | exact List.Subset.trans (by decide) hp | exact hp (by decide)
      | exact Only.step hp (by assumption) (fun p q => by cases p <;> first | rfl | exact absurd (by decide) q))

theorem only_execPwrReleasePads {c : Cmd} (hp : [.us, .act, .sup, .qos, .ports, .pwr, .pair, .life, .win, .i3c, .reeve, .counters, .freeCtr] ⊆ ps) (h : execPwrReleasePads c s = .next t) :
    Only ps s t := by
  have hk : Only ps s s := Only.refl s
  unfold execPwrReleasePads at h
  (try dsimp only at h)
  all_goals (repeat' split at h)
  all_goals (have h := Host.Outcome.next.inj h; subst h; repeat' first
      | with_reducible assumption | with_reducible exact fun _ h => h | with_reducible intro _
      | exact trivial | with_reducible apply only_ite | with_reducible apply only_ite2
      | with_reducible apply only_pwrReleasePadsBody | with_reducible apply only_runCmd
      | refine only_snd (by assumption) ?_ | split | dsimp only
      | exact List.Subset.trans (by decide) hp | exact hp (by decide)
      | exact Only.step hp (by assumption) (fun p q => by cases p <;> first | rfl | exact absurd (by decide) q))

theorem only_execPwrGetWakeReport {c : Cmd} (hp : [.act, .sup, .pair, .life, .win, .i3c, .reeve, .counters] ⊆ ps) (h : execPwrGetWakeReport c s = .next t) :
    Only ps s t := by
  have hk : Only ps s s := Only.refl s
  unfold execPwrGetWakeReport at h
  (try dsimp only at h)
  all_goals (repeat' split at h)
  all_goals (have h := Host.Outcome.next.inj h; subst h; repeat' first
      | with_reducible assumption | with_reducible exact fun _ h => h | with_reducible intro _
      | exact trivial | with_reducible apply only_ite | with_reducible apply only_ite2
      | with_reducible apply only_pwrGetWakeReportBody | with_reducible apply only_runCmd
      | refine only_snd (by assumption) ?_ | split | dsimp only
      | exact List.Subset.trans (by decide) hp | exact hp (by decide)
      | exact Only.step hp (by assumption) (fun p q => by cases p <;> first | rfl | exact absurd (by decide) q))

end Sys2Proof.Machine
end

