-- ==== Sys2Proof/Laws/Frame5.lean ====
section
/-! SUPPORT. The frames of the commands, part 5 of 5, LeaseRenewal to FwEraseDone: which parts of the
state each may change. -/
-- One list of alternatives serves every lemma below; not every lemma uses each of them.
set_option linter.unusedTactic false
set_option linter.unreachableTactic false
namespace Sys2Proof.Machine
variable {ps : List Part} {s t : State}

theorem only_execLeaseRenewal  (hp : [.pair] ⊆ ps) (h : execLeaseRenewal s = .next t) :
    Only ps s t := by
  have hk : Only ps s s := Only.refl s
  unfold execLeaseRenewal at h
  (try dsimp only at h)
  all_goals (repeat' split at h)
  all_goals (have h := Host.Outcome.next.inj h; subst h; repeat' first
      | with_reducible assumption | with_reducible exact fun _ h => h | with_reducible intro _
      | exact trivial | with_reducible apply only_ite | with_reducible apply only_ite2
      | with_reducible apply only_startLease | refine only_snd (by assumption) ?_ | split
      | dsimp only | exact List.Subset.trans (by decide) hp | exact hp (by decide)
      | exact Only.step hp (by assumption) (fun p q => by cases p <;> first | rfl | exact absurd (by decide) q))

theorem only_execLeaseExpiry  (hp : [.us, .sup, .qos, .ports, .pwr, .pair, .life, .win, .i3c, .reeve, .counters, .freeCtr] ⊆ ps) (h : execLeaseExpiry s = .next t) :
    Only ps s t := by
  have hk : Only ps s s := Only.refl s
  unfold execLeaseExpiry at h
  (try dsimp only at h)
  all_goals (repeat' split at h)
  all_goals (have h := Host.Outcome.next.inj h; subst h; repeat' first
      | with_reducible assumption | with_reducible exact fun _ h => h | with_reducible intro _
      | exact trivial | with_reducible apply only_ite | with_reducible apply only_ite2
      | with_reducible apply only_bump | with_reducible apply only_gateLook
      | with_reducible apply only_modPair | with_reducible apply only_raise
      | with_reducible apply only_yieldLook | refine only_snd (by assumption) ?_ | split
      | dsimp only | exact List.Subset.trans (by decide) hp | exact hp (by decide)
      | exact Only.step hp (by assumption) (fun p q => by cases p <;> first | rfl | exact absurd (by decide) q))

theorem only_execRoleDrop  (hp : [.us, .sup, .qos, .ports, .pwr, .pair, .life, .win, .i3c, .reeve, .counters, .freeCtr] ⊆ ps) (h : execRoleDrop s = .next t) :
    Only ps s t := by
  have hk : Only ps s s := Only.refl s
  unfold execRoleDrop at h
  (try dsimp only at h)
  all_goals (repeat' split at h)
  all_goals (have h := Host.Outcome.next.inj h; subst h; repeat' first
      | with_reducible assumption | with_reducible exact fun _ h => h | with_reducible intro _
      | exact trivial | with_reducible apply only_ite | with_reducible apply only_ite2
      | with_reducible apply only_bump | with_reducible apply only_gateLook
      | with_reducible apply only_leaveActive | with_reducible apply only_modPair
      | with_reducible apply only_rejoinLook | refine only_snd (by assumption) ?_ | split
      | dsimp only | exact List.Subset.trans (by decide) hp | exact hp (by decide)
      | exact Only.step hp (by assumption) (fun p q => by cases p <;> first | rfl | exact absurd (by decide) q))

theorem only_execRoleInChange {level : Bool} (hp : [.us, .sup, .qos, .ports, .pwr, .pair, .life, .win, .i3c, .reeve, .counters, .freeCtr] ⊆ ps) (h : execRoleInChange level s = .next t) :
    Only ps s t := by
  have hk : Only ps s s := Only.refl s
  unfold execRoleInChange at h
  (try dsimp only at h)
  all_goals (repeat' split at h)
  all_goals (have h := Host.Outcome.next.inj h; subst h; repeat' first
      | with_reducible assumption | with_reducible exact fun _ h => h | with_reducible intro _
      | exact trivial | with_reducible apply only_ite | with_reducible apply only_ite2
      | with_reducible apply only_bump | with_reducible apply only_gateLook
      | with_reducible apply only_modPair | with_reducible apply only_rejoinLook
      | with_reducible apply only_yieldLook | refine only_snd (by assumption) ?_ | split
      | dsimp only | exact List.Subset.trans (by decide) hp | exact hp (by decide)
      | exact Only.step hp (by assumption) (fun p q => by cases p <;> first | rfl | exact absurd (by decide) q))

theorem only_execRoleOutReadbackChange {level : Bool} (hp : [.us, .sup, .qos, .ports, .pwr, .pair, .life, .win, .i3c, .reeve, .counters, .freeCtr] ⊆ ps) (h : execRoleOutReadbackChange level s = .next t) :
    Only ps s t := by
  have hk : Only ps s s := Only.refl s
  unfold execRoleOutReadbackChange at h
  (try dsimp only at h)
  all_goals (repeat' split at h)
  all_goals (have h := Host.Outcome.next.inj h; subst h; repeat' first
      | with_reducible assumption | with_reducible exact fun _ h => h | with_reducible intro _
      | exact trivial | with_reducible apply only_ite | with_reducible apply only_ite2
      | with_reducible apply only_gateLook | with_reducible apply only_modPair
      | with_reducible apply only_yieldLook | refine only_snd (by assumption) ?_ | split
      | dsimp only | exact List.Subset.trans (by decide) hp | exact hp (by decide)
      | exact Only.step hp (by assumption) (fun p q => by cases p <;> first | rfl | exact absurd (by decide) q))

theorem only_execRoleClaim  (hp : [.us, .sup, .qos, .ports, .pwr, .pair, .life, .win, .i3c, .reeve, .counters, .freeCtr] ⊆ ps) (h : execRoleClaim s = .next t) :
    Only ps s t := by
  have hk : Only ps s s := Only.refl s
  unfold execRoleClaim at h
  (try dsimp only at h)
  all_goals (repeat' split at h)
  all_goals (have h := Host.Outcome.next.inj h; subst h; repeat' first
      | with_reducible assumption | with_reducible exact fun _ h => h | with_reducible intro _
      | exact trivial | with_reducible apply only_ite | with_reducible apply only_ite2
      | with_reducible apply only_modPair | with_reducible apply only_raiseGap
      | with_reducible apply only_setPair | refine only_snd (by assumption) ?_ | split
      | dsimp only | exact List.Subset.trans (by decide) hp | exact hp (by decide)
      | exact Only.step hp (by assumption) (fun p q => by cases p <;> first | rfl | exact absurd (by decide) q))

theorem only_execTakeover  (hp : [.us, .sup, .qos, .ports, .pwr, .pair, .life, .win, .i3c, .reeve, .counters, .freeCtr] ⊆ ps) (h : execTakeover s = .next t) :
    Only ps s t := by
  have hk : Only ps s s := Only.refl s
  unfold execTakeover at h
  (try dsimp only at h)
  all_goals (repeat' split at h)
  all_goals (have h := Host.Outcome.next.inj h; subst h; repeat' first
      | with_reducible assumption | with_reducible exact fun _ h => h | with_reducible intro _
      | exact trivial | with_reducible apply only_ite | with_reducible apply only_ite2
      | with_reducible apply only_bump | with_reducible apply only_modPair
      | with_reducible apply only_raise | with_reducible apply only_restartBseq
      | with_reducible apply only_setPair | with_reducible apply only_startLease
      | refine only_snd (by assumption) ?_ | split | dsimp only | with_reducible apply only_f_us
      | exact List.Subset.trans (by decide) hp | exact hp (by decide)
      | exact Only.step hp (by assumption) (fun p q => by cases p <;> first | rfl | exact absurd (by decide) q))

theorem only_execLockYieldExpiry  (hp : [.clk, .us, .sup, .time, .qos, .ports, .pwr, .pair, .life, .win, .i3c, .reeve, .counters, .freeCtr] ⊆ ps) (h : execLockYieldExpiry s = .next t) :
    Only ps s t := by
  have hk : Only ps s s := Only.refl s
  unfold execLockYieldExpiry at h
  (try dsimp only at h)
  all_goals (repeat' split at h)
  all_goals (have h := Host.Outcome.next.inj h; subst h; repeat' first
      | with_reducible assumption | with_reducible exact fun _ h => h | with_reducible intro _
      | exact trivial | with_reducible apply only_ite | with_reducible apply only_ite2
      | with_reducible apply only_isolate | with_reducible apply only_raise
      | with_reducible apply only_startYield | refine only_snd (by assumption) ?_ | split
      | dsimp only | exact List.Subset.trans (by decide) hp | exact hp (by decide)
      | exact Only.step hp (by assumption) (fun p q => by cases p <;> first | rfl | exact absurd (by decide) q))

theorem only_execHello {crcOk : Bool} {_u0 : BitVec 32} {b : HelloBody} (hp : [.us, .sup, .qos, .ports, .pwr, .pair, .life, .win, .i3c, .reeve, .counters, .freeCtr] ⊆ ps) (h : execHello crcOk _u0 b s = .next t) :
    Only ps s t := by
  have hk : Only ps s s := Only.refl s
  unfold execHello at h
  (try dsimp only at h)
  all_goals (repeat' split at h)
  all_goals (have h := Host.Outcome.next.inj h; subst h; repeat' first
      | with_reducible assumption | with_reducible exact fun _ h => h | with_reducible intro _
      | exact trivial | with_reducible apply only_ite | with_reducible apply only_ite2
      | with_reducible apply only_gapLook | with_reducible apply only_modPair
      | with_reducible apply only_raise | with_reducible apply only_tetherIn
      | with_reducible apply only_tetherRise | refine only_snd (by assumption) ?_ | split
      | dsimp only | exact List.Subset.trans (by decide) hp | exact hp (by decide)
      | exact Only.step hp (by assumption) (fun p q => by cases p <;> first | rfl | exact absurd (by decide) q))

theorem only_execHelloTx  (hp : [.pair] ⊆ ps) (h : execHelloTx s = .next t) :
    Only ps s t := by
  have hk : Only ps s s := Only.refl s
  unfold execHelloTx at h
  (try dsimp only at h)
  all_goals (repeat' split at h)
  all_goals (have h := Host.Outcome.next.inj h; subst h; repeat' first
      | with_reducible assumption | with_reducible exact fun _ h => h | with_reducible intro _
      | exact trivial | with_reducible apply only_ite | with_reducible apply only_ite2
      | with_reducible apply only_tetherSend | refine only_snd (by assumption) ?_ | split
      | dsimp only | exact List.Subset.trans (by decide) hp | exact hp (by decide)
      | exact Only.step hp (by assumption) (fun p q => by cases p <;> first | rfl | exact absurd (by decide) q))

theorem only_execHealth {crcOk : Bool} {_u0 : BitVec 32} {b : HealthBody} (hp : [.us, .act, .sup, .qos, .ports, .pwr, .pair, .life, .win, .i3c, .reeve, .counters, .freeCtr] ⊆ ps) (h : execHealth crcOk _u0 b s = .next t) :
    Only ps s t := by
  have hk : Only ps s s := Only.refl s
  unfold execHealth at h
  (try dsimp only at h)
  all_goals (repeat' split at h)
  all_goals (have h := Host.Outcome.next.inj h; subst h; repeat' first
      | with_reducible assumption | with_reducible exact fun _ h => h | with_reducible intro _
      | exact trivial | with_reducible apply only_ite | with_reducible apply only_ite2
      | with_reducible apply only_digestLook | with_reducible apply only_dropSent
      | with_reducible apply only_gapLook | with_reducible apply only_modPair
      | with_reducible apply only_rejoinLook | with_reducible apply only_tetherIn
      | with_reducible apply only_wiringLook | refine only_snd (by assumption) ?_ | split
      | dsimp only | exact List.Subset.trans (by decide) hp | exact hp (by decide)
      | exact Only.step hp (by assumption) (fun p q => by cases p <;> first | rfl | exact absurd (by decide) q))

theorem only_execHealthTx  (hp : [.pair] ⊆ ps) (h : execHealthTx s = .next t) :
    Only ps s t := by
  have hk : Only ps s s := Only.refl s
  unfold execHealthTx at h
  (try dsimp only at h)
  all_goals (repeat' split at h)
  all_goals (have h := Host.Outcome.next.inj h; subst h; repeat' first
      | with_reducible assumption | with_reducible exact fun _ h => h | with_reducible intro _
      | exact trivial | with_reducible apply only_ite | with_reducible apply only_ite2
      | with_reducible apply only_tetherSend | refine only_snd (by assumption) ?_ | split
      | dsimp only | exact List.Subset.trans (by decide) hp | exact hp (by decide)
      | exact Only.step hp (by assumption) (fun p q => by cases p <;> first | rfl | exact absurd (by decide) q))

theorem only_execTetherHealthTimeout  (hp : [.us, .act, .sup, .qos, .ports, .pwr, .pair, .life, .win, .i3c, .reeve, .counters, .freeCtr] ⊆ ps) (h : execTetherHealthTimeout s = .next t) :
    Only ps s t := by
  have hk : Only ps s s := Only.refl s
  unfold execTetherHealthTimeout at h
  (try dsimp only at h)
  all_goals (repeat' split at h)
  all_goals (have h := Host.Outcome.next.inj h; subst h; repeat' first
      | with_reducible assumption | with_reducible exact fun _ h => h | with_reducible intro _
      | exact trivial | with_reducible apply only_ite | with_reducible apply only_ite2
      | with_reducible apply only_tetherFall | refine only_snd (by assumption) ?_ | split
      | dsimp only | exact List.Subset.trans (by decide) hp | exact hp (by decide)
      | exact Only.step hp (by assumption) (fun p q => by cases p <;> first | rfl | exact absurd (by decide) q))

theorem only_execTetherBlockLockLoss  (hp : [.us, .act, .sup, .qos, .ports, .pwr, .pair, .life, .win, .i3c, .reeve, .counters, .freeCtr] ⊆ ps) (h : execTetherBlockLockLoss s = .next t) :
    Only ps s t := by
  have hk : Only ps s s := Only.refl s
  unfold execTetherBlockLockLoss at h
  (try dsimp only at h)
  all_goals (repeat' split at h)
  all_goals (have h := Host.Outcome.next.inj h; subst h; repeat' first
      | with_reducible assumption | with_reducible exact fun _ h => h | with_reducible intro _
      | exact trivial | with_reducible apply only_ite | with_reducible apply only_ite2
      | with_reducible apply only_tetherFall | refine only_snd (by assumption) ?_ | split
      | dsimp only | exact List.Subset.trans (by decide) hp | exact hp (by decide)
      | exact Only.step hp (by assumption) (fun p q => by cases p <;> first | rfl | exact absurd (by decide) q))

theorem only_execTimeCmpStart {left : BitVec 64} (hp : [.pair] ⊆ ps) (h : execTimeCmpStart left s = .next t) :
    Only ps s t := by
  have hk : Only ps s s := Only.refl s
  unfold execTimeCmpStart at h
  (try dsimp only at h)
  all_goals (repeat' split at h)
  all_goals (have h := Host.Outcome.next.inj h; subst h; repeat' first
      | with_reducible assumption | with_reducible exact fun _ h => h | with_reducible intro _
      | exact trivial | with_reducible apply only_ite | with_reducible apply only_ite2
      | with_reducible apply only_modPair | with_reducible apply only_tetherSend
      | refine only_snd (by assumption) ?_ | split | dsimp only
      | exact List.Subset.trans (by decide) hp | exact hp (by decide)
      | exact Only.step hp (by assumption) (fun p q => by cases p <;> first | rfl | exact absurd (by decide) q))

theorem only_execTimeCmp {crcOk : Bool} {_u0 : BitVec 32} {exchange : BitVec 32} {reply : Option (Int × Int)} {capture : BitVec 64} {left : BitVec 64} (hp : [.sup, .pair, .life, .win, .i3c, .reeve, .counters] ⊆ ps) (h : execTimeCmp crcOk _u0 exchange reply capture left s = .next t) :
    Only ps s t := by
  have hk : Only ps s s := Only.refl s
  unfold execTimeCmp at h
  (try dsimp only at h)
  all_goals (repeat' split at h)
  all_goals (have h := Host.Outcome.next.inj h; subst h; repeat' first
      | with_reducible assumption | with_reducible exact fun _ h => h | with_reducible intro _
      | exact trivial | with_reducible apply only_ite | with_reducible apply only_ite2
      | with_reducible apply only_takeOffset | with_reducible apply only_tetherIn
      | with_reducible apply only_tetherSend | refine only_snd (by assumption) ?_ | split
      | dsimp only | exact List.Subset.trans (by decide) hp | exact hp (by decide)
      | exact Only.step hp (by assumption) (fun p q => by cases p <;> first | rfl | exact absurd (by decide) q))

theorem only_execMirrorCmd {crcOk : Bool} {_u0 : BitVec 32} {mirrorSeq : BitVec 32} {applySc : BitVec 48} {opcode : BitVec 16} {cmd : Cmd} (hp : [.clk, .lanes, .groups, .lots, .reasm, .us, .act, .sup, .time, .qos, .cry, .cls, .tine, .ports, .slanes, .pwr, .pair, .life, .win, .i3c, .reeve, .settings, .counters, .freeCtr] ⊆ ps) (h : execMirrorCmd crcOk _u0 mirrorSeq applySc opcode cmd s = .next t) :
    Only ps s t := by
  have hk : Only ps s s := Only.refl s
  unfold execMirrorCmd at h
  (try dsimp only at h)
  all_goals (repeat' split at h)
  all_goals (have h := Host.Outcome.next.inj h; subst h; repeat' first
      | with_reducible assumption | with_reducible exact fun _ h => h | with_reducible intro _
      | exact trivial | with_reducible apply only_ite | with_reducible apply only_ite2
      | with_reducible apply only_modPair | with_reducible apply only_rejoinLook
      | with_reducible apply only_tetherIn | with_reducible apply only_tetherSend
      | refine only_snd (by assumption) ?_ | split | dsimp only
      | exact List.Subset.trans (by decide) hp | exact hp (by decide)
      | exact Only.step hp (by assumption) (fun p q => by cases p <;> first | rfl | exact absurd (by decide) q))

theorem only_execMirrorAck {crcOk : Bool} {_u0 : BitVec 32} {mirrorSeq : BitVec 32} {status : BitVec 16} (hp : [.act, .sup, .pair, .life, .win, .i3c, .reeve, .counters] ⊆ ps) (h : execMirrorAck crcOk _u0 mirrorSeq status s = .next t) :
    Only ps s t := by
  have hk : Only ps s s := Only.refl s
  unfold execMirrorAck at h
  (try dsimp only at h)
  all_goals (repeat' split at h)
  all_goals (have h := Host.Outcome.next.inj h; subst h; repeat' first
      | with_reducible assumption | with_reducible exact fun _ h => h | with_reducible intro _
      | exact trivial | with_reducible apply only_ite | with_reducible apply only_ite2
      | with_reducible apply only_answer | with_reducible apply only_bump
      | with_reducible apply only_modPair | with_reducible apply only_raise
      | with_reducible apply only_refuse | with_reducible apply only_tetherIn
      | refine only_snd (by assumption) ?_ | split | dsimp only
      | exact List.Subset.trans (by decide) hp | exact hp (by decide)
      | exact Only.step hp (by assumption) (fun p q => by cases p <;> first | rfl | exact absurd (by decide) q))

theorem only_execMirrorAckTimeout  (hp : [.act, .sup, .pair, .life, .win, .i3c, .reeve, .counters] ⊆ ps) (h : execMirrorAckTimeout s = .next t) :
    Only ps s t := by
  have hk : Only ps s s := Only.refl s
  unfold execMirrorAckTimeout at h
  (try dsimp only at h)
  all_goals (repeat' split at h)
  all_goals (have h := Host.Outcome.next.inj h; subst h; repeat' first
      | with_reducible assumption | with_reducible exact fun _ h => h | with_reducible intro _
      | exact trivial | with_reducible apply only_ite | with_reducible apply only_ite2
      | with_reducible apply only_noAck | refine only_snd (by assumption) ?_ | split | dsimp only
      | exact List.Subset.trans (by decide) hp | exact hp (by decide)
      | exact Only.step hp (by assumption) (fun p q => by cases p <;> first | rfl | exact absurd (by decide) q))

theorem only_execSnapReq {crcOk : Bool} {_u0 : BitVec 32} {schemaMin : BitVec 16} {schemaMax : BitVec 16} (hp : [.sup, .pair, .life, .win, .i3c, .reeve, .counters] ⊆ ps) (h : execSnapReq crcOk _u0 schemaMin schemaMax s = .next t) :
    Only ps s t := by
  have hk : Only ps s s := Only.refl s
  unfold execSnapReq at h
  (try dsimp only at h)
  all_goals (repeat' split at h)
  all_goals (have h := Host.Outcome.next.inj h; subst h; repeat' first
      | with_reducible assumption | with_reducible exact fun _ h => h | with_reducible intro _
      | exact trivial | with_reducible apply only_ite | with_reducible apply only_ite2
      | with_reducible apply only_each | with_reducible apply only_raiseGap
      | with_reducible apply only_tetherIn | with_reducible apply only_tetherSend
      | refine only_snd (by assumption) ?_ | split | dsimp only
      | exact List.Subset.trans (by decide) hp | exact hp (by decide)
      | exact Only.step hp (by assumption) (fun p q => by cases p <;> first | rfl | exact absurd (by decide) q))

theorem only_execSnapData {crcOk : Bool} {_u0 : BitVec 32} {schema : BitVec 16} {offset : BitVec 32} {bytes : Bytes} (hp : [.us, .sup, .qos, .ports, .pwr, .pair, .life, .win, .i3c, .reeve, .counters, .freeCtr] ⊆ ps) (h : execSnapData crcOk _u0 schema offset bytes s = .next t) :
    Only ps s t := by
  have hk : Only ps s s := Only.refl s
  unfold execSnapData at h
  (try dsimp only at h)
  all_goals (repeat' split at h)
  all_goals (have h := Host.Outcome.next.inj h; subst h; repeat' first
      | with_reducible assumption | with_reducible exact fun _ h => h | with_reducible intro _
      | exact trivial | with_reducible apply only_ite | with_reducible apply only_ite2
      | with_reducible apply only_failAttempt | with_reducible apply only_modPair
      | with_reducible apply only_tetherIn | refine only_snd (by assumption) ?_ | split
      | dsimp only | exact List.Subset.trans (by decide) hp | exact hp (by decide)
      | exact Only.step hp (by assumption) (fun p q => by cases p <;> first | rfl | exact absurd (by decide) q))

theorem only_execSnapEnd {crcOk : Bool} {_u0 : BitVec 32} {schema : BitVec 16} {sc : BitVec 48} {length : BitVec 32} {crc : BitVec 32} {optics0 : Optics} {optics1 : Optics} (hp : [.clk, .lanes, .groups, .lots, .reasm, .us, .act, .sup, .time, .qos, .cry, .cls, .tine, .ports, .slanes, .pwr, .pair, .life, .win, .i3c, .reeve, .settings, .counters, .freeCtr] ⊆ ps) (h : execSnapEnd crcOk _u0 schema sc length crc optics0 optics1 s = .next t) :
    Only ps s t := by
  have hk : Only ps s s := Only.refl s
  unfold execSnapEnd at h
  (try dsimp only at h)
  all_goals (repeat' split at h)
  all_goals (have h := Host.Outcome.next.inj h; subst h; repeat' first
      | with_reducible assumption | with_reducible exact fun _ h => h | with_reducible intro _
      | exact trivial | with_reducible apply only_ite | with_reducible apply only_ite2
      | with_reducible apply only_failAttempt | with_reducible apply only_raiseGap
      | with_reducible apply only_rejoinFails | with_reducible apply only_takeSnapshot
      | with_reducible apply only_tetherIn | refine only_snd (by assumption) ?_ | split
      | dsimp only | exact List.Subset.trans (by decide) hp | exact hp (by decide)
      | exact Only.step hp (by assumption) (fun p q => by cases p <;> first | rfl | exact absurd (by decide) q))

theorem only_execSnapTimeout  (hp : [.us, .sup, .qos, .ports, .pwr, .pair, .life, .win, .i3c, .reeve, .counters, .freeCtr] ⊆ ps) (h : execSnapTimeout s = .next t) :
    Only ps s t := by
  have hk : Only ps s s := Only.refl s
  unfold execSnapTimeout at h
  (try dsimp only at h)
  all_goals (repeat' split at h)
  all_goals (have h := Host.Outcome.next.inj h; subst h; repeat' first
      | with_reducible assumption | with_reducible exact fun _ h => h | with_reducible intro _
      | exact trivial | with_reducible apply only_ite | with_reducible apply only_ite2
      | with_reducible apply only_failAttempt | refine only_snd (by assumption) ?_ | split
      | dsimp only | exact List.Subset.trans (by decide) hp | exact hp (by decide)
      | exact Only.step hp (by assumption) (fun p q => by cases p <;> first | rfl | exact absurd (by decide) q))

theorem only_execPairConfigure {c : Cmd} (hp : [.us, .act, .sup, .qos, .ports, .pwr, .pair, .life, .win, .i3c, .reeve, .settings, .counters, .freeCtr] ⊆ ps) (h : execPairConfigure c s = .next t) :
    Only ps s t := by
  have hk : Only ps s s := Only.refl s
  unfold execPairConfigure at h
  (try dsimp only at h)
  all_goals (repeat' split at h)
  all_goals (have h := Host.Outcome.next.inj h; subst h; repeat' first
      | with_reducible assumption | with_reducible exact fun _ h => h | with_reducible intro _
      | exact trivial | with_reducible apply only_ite | with_reducible apply only_ite2
      | with_reducible apply only_pairConfigureBody | with_reducible apply only_runCmd
      | refine only_snd (by assumption) ?_ | split | dsimp only
      | exact List.Subset.trans (by decide) hp | exact hp (by decide)
      | exact Only.step hp (by assumption) (fun p q => by cases p <;> first | rfl | exact absurd (by decide) q))

theorem only_execPairGetState {c : Cmd} (hp : [.act, .sup, .pair, .life, .win, .i3c, .reeve, .counters] ⊆ ps) (h : execPairGetState c s = .next t) :
    Only ps s t := by
  have hk : Only ps s s := Only.refl s
  unfold execPairGetState at h
  (try dsimp only at h)
  all_goals (repeat' split at h)
  all_goals (have h := Host.Outcome.next.inj h; subst h; repeat' first
      | with_reducible assumption | with_reducible exact fun _ h => h | with_reducible intro _
      | exact trivial | with_reducible apply only_ite | with_reducible apply only_ite2
      | with_reducible apply only_pairGetStateBody | with_reducible apply only_runCmd
      | refine only_snd (by assumption) ?_ | split | dsimp only
      | exact List.Subset.trans (by decide) hp | exact hp (by decide)
      | exact Only.step hp (by assumption) (fun p q => by cases p <;> first | rfl | exact absurd (by decide) q))

theorem only_execPairYield {c : Cmd} (hp : [.clk, .us, .act, .sup, .time, .qos, .ports, .pwr, .pair, .life, .win, .i3c, .reeve, .counters, .freeCtr] ⊆ ps) (h : execPairYield c s = .next t) :
    Only ps s t := by
  have hk : Only ps s s := Only.refl s
  unfold execPairYield at h
  (try dsimp only at h)
  all_goals (repeat' split at h)
  all_goals (have h := Host.Outcome.next.inj h; subst h; repeat' first
      | with_reducible assumption | with_reducible exact fun _ h => h | with_reducible intro _
      | exact trivial | with_reducible apply only_ite | with_reducible apply only_ite2
      | with_reducible apply only_pairYieldBody | with_reducible apply only_runCmd
      | refine only_snd (by assumption) ?_ | split | dsimp only
      | exact List.Subset.trans (by decide) hp | exact hp (by decide)
      | exact Only.step hp (by assumption) (fun p q => by cases p <;> first | rfl | exact absurd (by decide) q))

theorem only_execPairRejoin {c : Cmd} (hp : [.us, .act, .sup, .qos, .ports, .pwr, .pair, .life, .win, .i3c, .reeve, .counters, .freeCtr] ⊆ ps) (h : execPairRejoin c s = .next t) :
    Only ps s t := by
  have hk : Only ps s s := Only.refl s
  unfold execPairRejoin at h
  (try dsimp only at h)
  all_goals (repeat' split at h)
  all_goals (have h := Host.Outcome.next.inj h; subst h; repeat' first
      | with_reducible assumption | with_reducible exact fun _ h => h | with_reducible intro _
      | exact trivial | with_reducible apply only_ite | with_reducible apply only_ite2
      | with_reducible apply only_pairRejoinBody | with_reducible apply only_runCmd
      | refine only_snd (by assumption) ?_ | split | dsimp only
      | exact List.Subset.trans (by decide) hp | exact hp (by decide)
      | exact Only.step hp (by assumption) (fun p q => by cases p <;> first | rfl | exact absurd (by decide) q))

theorem only_execPtpAnnounceTx {port : Fin 8} {instB : Bool} {client : Option (BitVec 128)} (hp : [.ports, .freeCtr] ⊆ ps) (h : execPtpAnnounceTx port instB client s = .next t) :
    Only ps s t := by
  have hk : Only ps s s := Only.refl s
  unfold execPtpAnnounceTx at h
  (try dsimp only at h)
  all_goals (repeat' split at h)
  all_goals (have h := Host.Outcome.next.inj h; subst h; repeat' first
      | with_reducible assumption | with_reducible exact fun _ h => h | with_reducible intro _
      | exact trivial | with_reducible apply only_ite | with_reducible apply only_ite2
      | with_reducible apply only_drawn | with_reducible apply only_ptpSend
      | with_reducible apply only_takeSeq | refine only_snd (by assumption) ?_ | split
      | dsimp only | exact List.Subset.trans (by decide) hp | exact hp (by decide)
      | exact Only.step hp (by assumption) (fun p q => by cases p <;> first | rfl | exact absurd (by decide) q))

theorem only_execPtpSyncTx {port : Fin 8} {instB : Bool} {client : Option (BitVec 128)} (hp : [.ports, .freeCtr] ⊆ ps) (h : execPtpSyncTx port instB client s = .next t) :
    Only ps s t := by
  have hk : Only ps s s := Only.refl s
  unfold execPtpSyncTx at h
  (try dsimp only at h)
  all_goals (repeat' split at h)
  all_goals (have h := Host.Outcome.next.inj h; subst h; repeat' first
      | with_reducible assumption | with_reducible exact fun _ h => h | with_reducible intro _
      | exact trivial | with_reducible apply only_ite | with_reducible apply only_ite2
      | with_reducible apply only_ptpSend | with_reducible apply only_takeSeq
      | refine only_snd (by assumption) ?_ | split | dsimp only
      | exact List.Subset.trans (by decide) hp | exact hp (by decide)
      | exact Only.step hp (by assumption) (fun p q => by cases p <;> first | rfl | exact absurd (by decide) q))

theorem only_execFollowUp {port : Fin 8} {instB : Bool} {client : Option (BitVec 128)} (hp : [.ports, .freeCtr] ⊆ ps) (h : execFollowUp port instB client s = .next t) :
    Only ps s t := by
  have hk : Only ps s s := Only.refl s
  unfold execFollowUp at h
  (try dsimp only at h)
  all_goals (repeat' split at h)
  all_goals (have h := Host.Outcome.next.inj h; subst h; repeat' first
      | with_reducible assumption | with_reducible exact fun _ h => h | with_reducible intro _
      | exact trivial | with_reducible apply only_ite | with_reducible apply only_ite2
      | with_reducible apply only_modPort | with_reducible apply only_ptpSend
      | refine only_snd (by assumption) ?_ | split | dsimp only
      | exact List.Subset.trans (by decide) hp | exact hp (by decide)
      | exact Only.step hp (by assumption) (fun p q => by cases p <;> first | rfl | exact absurd (by decide) q))

theorem only_execDelayReq {port : Fin 8} (hp : [.sup, .ports, .life, .win, .i3c, .reeve, .counters, .freeCtr] ⊆ ps) (h : execDelayReq port s = .next t) :
    Only ps s t := by
  have hk : Only ps s s := Only.refl s
  unfold execDelayReq at h
  (try dsimp only at h)
  all_goals (repeat' split at h)
  all_goals (have h := Host.Outcome.next.inj h; subst h; repeat' first
      | with_reducible assumption | with_reducible exact fun _ h => h | with_reducible intro _
      | exact trivial | with_reducible apply only_ite | with_reducible apply only_ite2
      | with_reducible apply only_bump | with_reducible apply only_modPort
      | with_reducible apply only_ptpSend | with_reducible apply only_takeStamp
      | with_reducible apply only_unclaim | refine only_snd (by assumption) ?_ | split
      | dsimp only | exact List.Subset.trans (by decide) hp | exact hp (by decide)
      | exact Only.step hp (by assumption) (fun p q => by cases p <;> first | rfl | exact absurd (by decide) q))

theorem only_execSignaling {port : Fin 8} (hp : [.sup, .ports, .life, .win, .i3c, .reeve, .counters, .freeCtr] ⊆ ps) (h : execSignaling port s = .next t) :
    Only ps s t := by
  have hk : Only ps s s := Only.refl s
  have e : ∀ (n : Nat) (b : Bool) (src : Option Nat) (mac : BitVec 48) (ip : BitVec 128) (x : Bytes) (u : State), Only ps s u → Only ps s (signalTlvs port b src mac ip n x u).2 := by
    intro n b src mac ip
    induction n with
    | zero => intro x u hu; exact hu
    | succ n ih =>
      intro x u hu
      unfold signalTlvs
      dsimp only
      split
      · exact hu
      · exact ih _ _ (only_signalTlv hp hu)
  unfold execSignaling at h
  dsimp only at h
  split at h
  · have h := Host.Outcome.next.inj h; subst h; exact hk
  · split at h
    · have h := Host.Outcome.next.inj h; subst h
      exact only_bump (List.Subset.trans (by decide) hp) (only_unclaim (List.Subset.trans (by decide) hp) hk)
    · split at h
      · have h := Host.Outcome.next.inj h; subst h
        exact e _ _ _ _ _ _ _ (only_bump (List.Subset.trans (by decide) hp) (only_modPort (List.Subset.trans (by decide) hp) (only_unclaim (List.Subset.trans (by decide) hp) hk)))
      · have h := Host.Outcome.next.inj h; subst h
        exact only_ptpSend (List.Subset.trans (by decide) hp) (only_takeSeq (List.Subset.trans (by decide) hp) (e _ _ _ _ _ _ _ (only_bump (List.Subset.trans (by decide) hp) (only_modPort (List.Subset.trans (by decide) hp) (only_unclaim (List.Subset.trans (by decide) hp) hk)))))

theorem only_execGrantExpiry {port : Fin 8} {instB : Bool} {client : BitVec 128} {msgType : BitVec 4} (hp : [.ports] ⊆ ps) (h : execGrantExpiry port instB client msgType s = .next t) :
    Only ps s t := by
  have hk : Only ps s s := Only.refl s
  unfold execGrantExpiry at h
  (try dsimp only at h)
  all_goals (repeat' split at h)
  all_goals (have h := Host.Outcome.next.inj h; subst h; repeat' first
      | with_reducible assumption | with_reducible exact fun _ h => h | with_reducible intro _
      | exact trivial | with_reducible apply only_ite | with_reducible apply only_ite2
      | with_reducible apply only_modPort | refine only_snd (by assumption) ?_ | split
      | dsimp only | exact List.Subset.trans (by decide) hp | exact hp (by decide)
      | exact Only.step hp (by assumption) (fun p q => by cases p <;> first | rfl | exact absurd (by decide) q))

theorem only_execArpRequest {port : Fin 8} (hp : [.ports, .freeCtr] ⊆ ps) (h : execArpRequest port s = .next t) :
    Only ps s t := by
  have hk : Only ps s s := Only.refl s
  unfold execArpRequest at h
  (try dsimp only at h)
  all_goals (repeat' split at h)
  all_goals (have h := Host.Outcome.next.inj h; subst h; repeat' first
      | with_reducible assumption | with_reducible exact fun _ h => h | with_reducible intro _
      | exact trivial | with_reducible apply only_ite | with_reducible apply only_ite2
      | with_reducible apply only_sendTime | with_reducible apply only_unclaim
      | refine only_snd (by assumption) ?_ | split | dsimp only
      | exact List.Subset.trans (by decide) hp | exact hp (by decide)
      | exact Only.step hp (by assumption) (fun p q => by cases p <;> first | rfl | exact absurd (by decide) q))

theorem only_execNeighborSolicitation {port : Fin 8} (hp : [.ports, .freeCtr] ⊆ ps) (h : execNeighborSolicitation port s = .next t) :
    Only ps s t := by
  have hk : Only ps s s := Only.refl s
  unfold execNeighborSolicitation at h
  (try dsimp only at h)
  all_goals (repeat' split at h)
  all_goals (have h := Host.Outcome.next.inj h; subst h; repeat' first
      | with_reducible assumption | with_reducible exact fun _ h => h | with_reducible intro _
      | exact trivial | with_reducible apply only_ite | with_reducible apply only_ite2
      | with_reducible apply only_drawn | with_reducible apply only_sendTime
      | with_reducible apply only_unclaim | refine only_snd (by assumption) ?_ | split
      | dsimp only | exact List.Subset.trans (by decide) hp | exact hp (by decide)
      | exact Only.step hp (by assumption) (fun p q => by cases p <;> first | rfl | exact absurd (by decide) q))

theorem only_execPpsOutEdge  (hp : [.sup, .time, .life, .win, .i3c, .reeve, .counters, .freeCtr] ⊆
    ps) (h : (execPpsOutEdge s) = .next t) :
    Only ps s t := by
  have hk : Only ps s s := Only.refl s
  unfold execPpsOutEdge at h
  (try dsimp only at h)
  all_goals (repeat' split at h)
  all_goals (have h := Host.Outcome.next.inj h; subst h; repeat' first
      | with_reducible assumption | with_reducible exact fun _ h => h | with_reducible intro _
      | exact trivial | with_reducible apply only_ite | with_reducible apply only_ite2
      | with_reducible apply only_bump | with_reducible apply only_drawn
      | refine only_snd (by assumption) ?_ | split | dsimp only
      | exact List.Subset.trans (by decide) hp | exact hp (by decide)
      | exact Only.step hp (by assumption) (fun p q => by cases p <;> first | rfl | exact absurd (by decide) q))

theorem only_execPpsOutFall  (hp : [.time] ⊆ ps) (h : execPpsOutFall s = .next t) :
    Only ps s t := by
  have hk : Only ps s s := Only.refl s
  unfold execPpsOutFall at h
  (try dsimp only at h)
  all_goals (repeat' split at h)
  all_goals (have h := Host.Outcome.next.inj h; subst h; repeat' first
      | with_reducible assumption | with_reducible exact fun _ h => h | with_reducible intro _
      | exact trivial | with_reducible apply only_ite | with_reducible apply only_ite2
      | refine only_snd (by assumption) ?_ | split | dsimp only | with_reducible apply only_f_time
      | exact List.Subset.trans (by decide) hp | exact hp (by decide)
      | exact Only.step hp (by assumption) (fun p q => by cases p <;> first | rfl | exact absurd (by decide) q))

theorem only_execTodOutMessage  (hp : [.time] ⊆ ps) (h : (execTodOutMessage s) = .next t) :
    Only ps s t := by
  have hk : Only ps s s := Only.refl s
  unfold execTodOutMessage at h
  (try dsimp only at h)
  all_goals (repeat' split at h)
  all_goals (have h := Host.Outcome.next.inj h; subst h; repeat' first
      | with_reducible assumption | with_reducible exact fun _ h => h | with_reducible intro _
      | exact trivial | with_reducible apply only_ite | with_reducible apply only_ite2
      | refine only_snd (by assumption) ?_ | split | dsimp only
      | exact List.Subset.trans (by decide) hp | exact hp (by decide)
      | exact Only.step hp (by assumption) (fun p q => by cases p <;> first | rfl | exact absurd (by decide) q))

theorem only_execLockstepMismatch  (hp : [.win, .i3c, .reeve] ⊆ ps) (h : execLockstepMismatch s = .next t) :
    Only ps s t := by
  have hk : Only ps s s := Only.refl s
  unfold execLockstepMismatch at h
  (try dsimp only at h)
  all_goals (repeat' split at h)
  all_goals (have h := Host.Outcome.next.inj h; subst h; repeat' first
      | with_reducible assumption | with_reducible exact fun _ h => h | with_reducible intro _
      | exact trivial | with_reducible apply only_ite | with_reducible apply only_ite2
      | with_reducible apply only_reeveFault | refine only_snd (by assumption) ?_ | split
      | dsimp only | exact List.Subset.trans (by decide) hp | exact hp (by decide)
      | exact Only.step hp (by assumption) (fun p q => by cases p <;> first | rfl | exact absurd (by decide) q))

theorem only_execReeveWatchdogExpiry  (hp : [.win, .i3c, .reeve] ⊆ ps) (h : execReeveWatchdogExpiry s = .next t) :
    Only ps s t := by
  have hk : Only ps s s := Only.refl s
  unfold execReeveWatchdogExpiry at h
  (try dsimp only at h)
  all_goals (repeat' split at h)
  all_goals (have h := Host.Outcome.next.inj h; subst h; repeat' first
      | with_reducible assumption | with_reducible exact fun _ h => h | with_reducible intro _
      | exact trivial | with_reducible apply only_ite | with_reducible apply only_ite2
      | with_reducible apply only_reeveFault | refine only_snd (by assumption) ?_ | split
      | dsimp only | exact List.Subset.trans (by decide) hp | exact hp (by decide)
      | exact Only.step hp (by assumption) (fun p q => by cases p <;> first | rfl | exact absurd (by decide) q))

theorem only_execTempSample {celsius : Int} (hp : [.life] ⊆ ps) (h : execTempSample celsius s = .next t) :
    Only ps s t := by
  have hk : Only ps s s := Only.refl s
  unfold execTempSample at h
  (try dsimp only at h)
  all_goals (repeat' split at h)
  all_goals (have h := Host.Outcome.next.inj h; subst h; repeat' first
      | with_reducible assumption | with_reducible exact fun _ h => h | with_reducible intro _
      | exact trivial | with_reducible apply only_ite | with_reducible apply only_ite2
      | refine only_snd (by assumption) ?_ | split | dsimp only | with_reducible apply only_f_life
      | exact List.Subset.trans (by decide) hp | exact hp (by decide)
      | exact Only.step hp (by assumption) (fun p q => by cases p <;> first | rfl | exact absurd (by decide) q))

theorem only_execCommandTaken  (hp : [.act, .sup, .life, .win, .i3c, .reeve, .counters] ⊆ ps) (h : execCommandTaken s = .next t) :
    Only ps s t := by
  have hk : Only ps s s := Only.refl s
  unfold execCommandTaken at h
  (try dsimp only at h)
  all_goals (repeat' split at h)
  all_goals (have h := Host.Outcome.next.inj h; subst h; repeat' first
      | with_reducible assumption | with_reducible exact fun _ h => h | with_reducible intro _
      | exact trivial | with_reducible apply only_ite | with_reducible apply only_ite2
      | with_reducible apply only_takeMailbox | with_reducible apply only_takeMgmt
      | refine only_snd (by assumption) ?_ | split | dsimp only
      | exact List.Subset.trans (by decide) hp | exact hp (by decide)
      | exact Only.step hp (by assumption) (fun p q => by cases p <;> first | rfl | exact absurd (by decide) q))

theorem only_execManagementLot {group : Fin 4} (hp : [.toReeve, .sup, .life, .win, .i3c, .reeve, .counters] ⊆ ps) (h : execManagementLot group s = .next t) :
    Only ps s t := by
  have hk : Only ps s s := Only.refl s
  unfold execManagementLot at h
  (try dsimp only at h)
  all_goals (repeat' split at h)
  all_goals (have h := Host.Outcome.next.inj h; subst h; repeat' first
      | with_reducible assumption | with_reducible exact fun _ h => h | with_reducible intro _
      | exact trivial | with_reducible apply only_ite | with_reducible apply only_ite2
      | with_reducible apply only_bump | with_reducible apply only_modReeve
      | refine only_snd (by assumption) ?_ | split | dsimp only
      | with_reducible apply only_f_toReeve | exact List.Subset.trans (by decide) hp
      | exact hp (by decide)
      | exact Only.step hp (by assumption) (fun p q => by cases p <;> first | rfl | exact absurd (by decide) q))

theorem only_execSysGetInfo {c : Cmd} (hp : [.act, .sup, .pair, .life, .win, .i3c, .reeve, .counters] ⊆ ps) (h : execSysGetInfo c s = .next t) :
    Only ps s t := by
  have hk : Only ps s s := Only.refl s
  unfold execSysGetInfo at h
  (try dsimp only at h)
  all_goals (repeat' split at h)
  all_goals (have h := Host.Outcome.next.inj h; subst h; repeat' first
      | with_reducible assumption | with_reducible exact fun _ h => h | with_reducible intro _
      | exact trivial | with_reducible apply only_ite | with_reducible apply only_ite2
      | with_reducible apply only_runCmd | with_reducible apply only_sysGetInfoBody
      | refine only_snd (by assumption) ?_ | split | dsimp only
      | exact List.Subset.trans (by decide) hp | exact hp (by decide)
      | exact Only.step hp (by assumption) (fun p q => by cases p <;> first | rfl | exact absurd (by decide) q))

theorem only_execSysReset {c : Cmd} (hp : [.act, .sup, .pair, .life, .win, .i3c, .reeve, .counters] ⊆ ps) (h : execSysReset c s = .next t) :
    Only ps s t := by
  have hk : Only ps s s := Only.refl s
  unfold execSysReset at h
  (try dsimp only at h)
  all_goals (repeat' split at h)
  all_goals (have h := Host.Outcome.next.inj h; subst h; repeat' first
      | with_reducible assumption | with_reducible exact fun _ h => h | with_reducible intro _
      | exact trivial | with_reducible apply only_ite | with_reducible apply only_ite2
      | with_reducible apply only_runCmd | with_reducible apply only_sysResetBody
      | refine only_snd (by assumption) ?_ | split | dsimp only
      | exact List.Subset.trans (by decide) hp | exact hp (by decide)
      | exact Only.step hp (by assumption) (fun p q => by cases p <;> first | rfl | exact absurd (by decide) q))

theorem only_execSysResetDeferred  (hp : [.clk, .lanes, .groups, .lots, .reasm, .toTime, .toReeve, .inQ, .us, .act, .sup, .time, .qos, .cry, .cls, .tine, .ports, .slanes, .pwr, .pair, .fuses, .sec, .flash, .life, .pins, .win, .i3c, .reeve, .settings, .counters, .freeCtr] ⊆ ps) (h : execSysResetDeferred s = .next t) :
    Only ps s t := by
  have hk : Only ps s s := Only.refl s
  unfold execSysResetDeferred at h
  (try dsimp only at h)
  all_goals (repeat' split at h)
  all_goals (have h := Host.Outcome.next.inj h; subst h; repeat' first
      | with_reducible assumption | with_reducible exact fun _ h => h | with_reducible intro _
      | exact trivial | with_reducible apply only_ite | with_reducible apply only_ite2
      | with_reducible apply only_commandedReset | refine only_snd (by assumption) ?_ | split
      | dsimp only | exact List.Subset.trans (by decide) hp | exact hp (by decide)
      | exact Only.step hp (by assumption) (fun p q => by cases p <;> first | rfl | exact absurd (by decide) q))

theorem only_execSysFwActivate {c : Cmd} (hp : [.act, .sup, .pair, .flash, .life, .win, .i3c, .reeve, .counters] ⊆ ps) (h : execSysFwActivate c s = .next t) :
    Only ps s t := by
  have hk : Only ps s s := Only.refl s
  unfold execSysFwActivate at h
  (try dsimp only at h)
  all_goals (repeat' split at h)
  all_goals (have h := Host.Outcome.next.inj h; subst h; repeat' first
      | with_reducible assumption | with_reducible exact fun _ h => h | with_reducible intro _
      | exact trivial | with_reducible apply only_ite | with_reducible apply only_ite2
      | with_reducible apply only_runCmd | with_reducible apply only_sysFwActivateBody
      | refine only_snd (by assumption) ?_ | split | dsimp only
      | exact List.Subset.trans (by decide) hp | exact hp (by decide)
      | exact Only.step hp (by assumption) (fun p q => by cases p <;> first | rfl | exact absurd (by decide) q))

theorem only_execFwEraseDone {ok : Bool} (hp : [.flash, .win, .i3c, .reeve, .counters, .freeCtr] ⊆ ps) (h : execFwEraseDone ok s = .next t) :
    Only ps s t := by
  have hk : Only ps s s := Only.refl s
  unfold execFwEraseDone at h
  (try dsimp only at h)
  all_goals (repeat' split at h)
  all_goals (have h := Host.Outcome.next.inj h; subst h; repeat' first
      | with_reducible assumption | with_reducible exact fun _ h => h | with_reducible intro _
      | exact trivial | with_reducible apply only_ite | with_reducible apply only_ite2
      | with_reducible apply only_drawn | with_reducible apply only_modRegion
      | with_reducible apply only_raiseTag | with_reducible apply only_setRegionFree
      | refine only_snd (by assumption) ?_ | split | dsimp only
      | with_reducible apply only_f_flash | exact List.Subset.trans (by decide) hp
      | exact hp (by decide)
      | exact Only.step hp (by assumption) (fun p q => by cases p <;> first | rfl | exact absurd (by decide) q))

end Sys2Proof.Machine
end

