-- ==== Sys2Proof/Laws/LinkFacts.lean ====
section
/-! SUPPORT. What the operations of the line, the burst path, activation and supervision do, one lemma
for each. -/
namespace Sys2Proof.Machine

theorem tick_only (s : State) : Only ticking s (tick s) := by
  have ha (d : Nat) : Only ticking s (windowLook (advance d s)) := by
    refine only_windowLook (by decide) ?_
    unfold advance; intro p hp; cases p <;> first | rfl | exact absurd (by decide) hp
  have hr (d : Nat) : Only ticking s (each rxArrive (List.range 8) (windowLook (advance d s))) :=
    only_each (fun _ _ h => only_rxArrive (by decide) h) (ha d)
  unfold tick
  split
  · extract_lets s1
    split
    · exact only_coreCycle (by decide) (hr _)
    · exact hr _
  · split
    · exact ha _
    · exact Only.refl s

theorem only_clk {ps : List Part} {s u : State} {c : Clk} (hp : [.clk] ⊆ ps) (h : Only ps s u) :
    Only ps s { u with clk := c } :=
  Only.step (qs := [.clk]) hp h (fun p q => by cases p <;> first | rfl | exact absurd (by decide) q)

theorem acq_dropBuf (n : Nat) (x : Lane) : acqOf (dropBuf n x) = acqOf x := rfl

theorem exists_mem {L : List (BitVec 48 × Nat)} {a : BitVec 48 × Nat} : a ∈ L ++ [a] := by simp

theorem instLocked_modInst {i k : Nat} {f : Inst → Inst} {s : State} : instLocked (modInst k f s) i = instLocked s i := rfl

theorem rangingTime_act {m : FieldMsg} {i : Nat} {s : State} (h4 : field m.bytes 8 4 ≤ 95200000) (h5 : ltxOwner s ((byteAt m.bytes 4).toNat % 2) = i) :
    ∃ u, actRangingTime m i s = (some 0, u) ∧ (instOf u i).st = (instOf s i).st ∧
      (laterSc (BitVec.ofNat 48 (field m.bytes 16 6)) (m.sc + 1), field m.bytes 8 4) ∈ (usLaneOf u ((byteAt m.bytes 4).toNat % 2)).eqdPending ∧
      ((byteAt m.bytes 4).getLsbD 1 = true → (instOf s i).st = .ranging →
          ⟨m.group.val, some (laterSc (BitVec.ofNat 48 (field m.bytes 16 6)) (m.sc + 1)), .operating⟩ ∈ (instOf u i).todo) ∧ True := by
  unfold actRangingTime; dsimp only
  rw [if_neg (by rintro (h | h); omega; exact h h5)]
  refine ⟨_, rfl, ?_, ?_, ?_, trivial⟩
  · split
    · simp [leaveFor]
    · simp
  · split
    · simp [leaveFor, usLaneOf_modUsLane]
    · simp [usLaneOf_modUsLane]
  · intro h6 h7
    rw [if_pos (by simp [h6, h7])]
    simp [leaveFor]

theorem defectEvents_sup {l c : Nat} {b a : SupLane} {s : State} : (defectEvents l b a c s).sup = s.sup ∧ (defectEvents l b a c s).lanes = s.lanes := by
  have h := only_defectEvents (ps := raising) (l := l) (before := b) (after := a) (chg := c) (by decide) (Only.refl s)
  exact ⟨h .sup (by decide), h .lanes (by decide)⟩

theorem setLaneDefect_sup {l c : Nat} {v : Bool} {s : State} :
    (∀ k, k ≠ l → supLaneOf (setLaneDefect l c v s) k = supLaneOf s k) ∧
    (laneDefect (supLaneOf s l) c = v → setLaneDefect l c v s = s) ∧
    (laneDefect (supLaneOf s l) c ≠ v → supLaneOf (setLaneDefect l c v s) l = noteSecond (withDefect c v (noteSecond (supLaneOf s l)))) ∧
    (setLaneDefect l c v s).lanes = s.lanes := by
  unfold setLaneDefect; dsimp only
  split
  · rename_i h; exact ⟨fun _ _ => rfl, fun _ => rfl, fun hn => absurd h hn, rfl⟩
  · rename_i h
    refine ⟨fun k hk => ?_, fun hn => absurd hn h, fun _ => ?_, ?_⟩
    · rw [supLook_lane]; unfold supLaneOf; rw [defectEvents_sup.1]; simp [modSupLane, tabGet_mod, hk]
    · rw [supLook_lane]; unfold supLaneOf; rw [defectEvents_sup.1]; simp [modSupLane, tabGet_mod]
    · exact (only_supLook (ps := [.sup]) (by decide) (Only.refl _) .lanes (by decide)).trans defectEvents_sup.2

/-- The seconds of the two running bins and the ring of closed ones are the same. -/
def Rings (s t : State) : Prop := t.sup.open15.seconds = s.sup.open15.seconds ∧ t.sup.openDay.seconds = s.sup.openDay.seconds ∧ t.sup.closed15 = s.sup.closed15

theorem Rings.trans {s t u : State} (a : Rings s t) (b : Rings t u) : Rings s u := ⟨b.1.trans a.1, b.2.1.trans a.2.1, b.2.2.trans a.2.2⟩

theorem Rings.of {s t : State} (h : (t.sup.open15, t.sup.openDay, t.sup.closed15) = (s.sup.open15, s.sup.openDay, s.sup.closed15)) : Rings s t := by
  simp only [Prod.mk.injEq] at h; exact ⟨by rw [h.1], by rw [h.2.1], h.2.2⟩

theorem tcaCheck_rings (day : Bool) (n scope : Nat) (s : State) : Rings s (tcaCheck day n scope s) := by
  cases day <;> (unfold tcaCheck; dsimp only; simp only [Bool.false_eq_true, if_false, if_true]; split)
  all_goals first | exact ⟨rfl, rfl, rfl⟩ | (unfold Rings; rw [raise_sup]; exact ⟨rfl, rfl, rfl⟩)

theorem binAdd_rings (n scope a : Nat) (s : State) : Rings s (binAdd n scope a s) := by
  unfold binAdd; dsimp only
  refine Rings.trans ?_ (tcaCheck_rings true n scope _)
  refine Rings.trans ?_ (tcaCheck_rings false n scope _)
  exact ⟨rfl, rfl, rfl⟩

theorem Rings.refl (s : State) : Rings s s := ⟨rfl, rfl, rfl⟩

theorem rings_add {n c a : Nat} {s t : State} (h : Rings s t) : Rings s (binAdd n c a t) := h.trans (binAdd_rings _ _ _ _)

theorem rings_ite {c : Prop} [Decidable c] {s t u : State} (h : Rings s t) (k : Rings s u) : Rings s (if c then t else u) := by split <;> assumption

theorem rings_lane {l : Nat} {f : SupLane → SupLane} {s t : State} (h : Rings s t) : Rings s (modSupLane l f t) := h.trans ⟨rfl, rfl, rfl⟩

theorem rings_inst {l : Nat} {f : SupInst → SupInst} {s t : State} (h : Rings s t) : Rings s (modSupInst l f t) := h.trans ⟨rfl, rfl, rfl⟩

theorem rings_dom {l : Nat} {f : SupDom → SupDom} {s t : State} (h : Rings s t) : Rings s (modSupDom l f t) := h.trans ⟨rfl, rfl, rfl⟩

theorem rdiEvaluate_facts (i : Nat) (s : State) :
    (supInstOf (rdiEvaluate i s) i).rdi = (settingB s sForceRdi (scInst i) || (supInstOf s i).rdiSeen || rdiInput s i) ∧
    (∀ k, k ≠ i → supInstOf (rdiEvaluate i s) k = supInstOf s k) ∧
    (∀ k, rdiInput (rdiEvaluate i s) k = rdiInput s k) ∧ (rdiEvaluate i s).settings = s.settings := by
  have e : (rdiEvaluate i s).sup = { s.sup with inst := tabMod {} s.sup.inst i (fun x => { x with rdi := settingB s sForceRdi (scInst i) || (supInstOf s i).rdiSeen || rdiInput s i, rdiSeen := rdiInput s i, secRdi := x.secRdi || (settingB s sForceRdi (scInst i) || (supInstOf s i).rdiSeen || rdiInput s i) }) } := by
    unfold rdiEvaluate; dsimp only
    split
    · rw [raise_sup]; rfl
    · rfl
  have o := only_rdiEvaluate (ps := raising ++ [.sup]) (i := i) (by decide) (Only.refl s)
  refine ⟨?_, fun k hk => ?_, fun k => ?_, o .settings (by decide)⟩
  · simp [supInstOf, e, tabGet_mod]
  · simp [supInstOf, e, tabGet_mod, hk]
  · exact rdiInput_congr (o .settings (by decide)) (o .lots (by decide)) (by rw [e]) (by rw [e]) (by rw [e]) (congrArg _ (o .act (by decide))) (o .lanes (by decide)) k

theorem rings_each {f : Nat → State → State} (hf : ∀ i u, Rings u (f i u)) (L : List Nat) (u : State) : Rings u (each f L u) := by
  induction L generalizing u with
  | nil => exact Rings.refl u
  | cons a l ih => exact (hf a u).trans (ih _)

theorem secondEnd (s : State) : ∃ u, Rings s u ∧ execBinSecondEnd s =
    .next { u with sup := { u.sup with open15 := { u.sup.open15 with seconds := u.sup.open15.seconds + 1, lowPower := u.sup.open15.lowPower || (s.pwr.st == .fallow || s.pwr.st == .deepFallow) }, openDay := { u.sup.openDay with seconds := u.sup.openDay.seconds + 1, lowPower := u.sup.openDay.lowPower || (s.pwr.st == .fallow || s.pwr.st == .deepFallow) } } } := by
  refine ⟨_, ?_, rfl⟩
  refine Rings.trans ?_ (rings_each (fun i u => ?_) _ _)
  refine Rings.trans ?_ (rings_each (fun i u => ?_) _ _)
  refine rings_each (fun i u => ?_) _ _
  · unfold laneSecond; dsimp only
    repeat' first | with_reducible exact Rings.refl _ | with_reducible apply rings_lane | with_reducible apply rings_add | with_reducible apply rings_ite
  · (try dsimp only)
    repeat' first | with_reducible exact Rings.refl _ | with_reducible apply rings_inst | with_reducible apply rings_add | with_reducible apply rings_ite
  · (try dsimp only)
    repeat' first | with_reducible exact Rings.refl _ | with_reducible apply rings_dom | with_reducible apply rings_add | with_reducible apply rings_ite

end Sys2Proof.Machine
end

