-- ==== Sys2Proof/Laws/PacketFacts.lean ====
section
/-! SUPPORT. What the operations of the ports, the coulter and its tables and the passes of a tine
do. -/
namespace Sys2Proof.Machine

theorem setLink_ports (p : Nat) (dest : LinkState) (s : State) :
    (∀ q, q ≠ p → portOf (setLink p dest s) q = portOf s q) ∧
    (portOf (setLink p dest s) p).link = dest ∧
    (portOf (setLink p dest s) p).pcsUp = (portOf s p).pcsUp ∧ (portOf (setLink p dest s) p).faultSeen = (portOf s p).faultSeen ∧
    (portOf (setLink p dest s) p).remoteFault = (portOf s p).remoteFault ∧ (portOf (setLink p dest s) p).hiBer = (portOf s p).hiBer ∧ (portOf (setLink p dest s) p).locks = (portOf s p).locks ∧
    ((portOf s p).link = .up → dest ≠ .up → (portOf (setLink p dest s) p).timeQ = []) := by
  have hb (k : Nat) (u : State) (c : CtrId) (a n : Nat) (code : BitVec 16) (i d : Nat) :
      portOf (raise code i d (bump c a n u)) k = portOf u k := by
    simp only [portOf, raise_rest, bump_rest]
  have hf (k p : Nat) (u : State) : portOf (portFlushLook p u) k = portOf u k := by
    simp only [portOf, portFlushLook_ports]
  unfold setLink; dsimp only
  split
  · rename_i h; exact ⟨fun _ _ => rfl, h, rfl, rfl, rfl, rfl, rfl, fun a b => absurd (a.symm.trans h) (Ne.symm b)⟩
  · refine ⟨fun q hq => ?_, ?_⟩
    · repeat' split
      all_goals simp [hb, hf, hq]
    · repeat' split
      all_goals simp_all

/-- What receiving leaves alone. -/
def RxStays (v u : State) : Prop := u.ports = v.ports ∧ u.inQ = v.inQ ∧ u.settings = v.settings ∧ u.clk = v.clk ∧ u.pair = v.pair

theorem rx_bump {c : CtrId} {a n : Nat} {v u : State} (h : RxStays v u) : RxStays v (bump c a n u) := by
  obtain ⟨h1, h2, h3, h4, _, h5, _⟩ := bump_keeps c a n u
  exact ⟨h1.trans h.1, h2.trans h.2.1, h3.trans h.2.2.1, h4.trans h.2.2.2.1, h5.trans h.2.2.2.2⟩

theorem rx_free {n : Nat} {v u : State} (h : RxStays v u) : RxStays v (freeBushels n u) := by
  have k := only_freeBushels (ps := [.qos, .pwr, .freeCtr]) (n := n) (by decide) (Only.refl u)
  exact ⟨(k .ports (by decide)).trans h.1, (k .inQ (by decide)).trans h.2.1, (k .settings (by decide)).trans h.2.2.1, (k .clk (by decide)).trans h.2.2.2.1, (k .pair (by decide)).trans h.2.2.2.2⟩

theorem rx_release {r : RxState} {v u : State} (h : RxStays v u) : RxStays v (rxRelease r u) := rx_free h

theorem rx_ite {c : Prop} [Decidable c] {v x y : State} (h : RxStays v x) (k : RxStays v y) : RxStays v (if c then x else y) := by split <;> assumption

theorem rx_take {held want : Nat} {v u : State} (h : RxStays v u) : RxStays v (takeUpTo held want u).2 := by
  have ht : ∀ n, RxStays v (takeBushels n u) := fun n => ⟨h.1, h.2.1, h.2.2.1, h.2.2.2.1, h.2.2.2.2⟩
  unfold takeUpTo; split
  · exact rx_bump (rx_free (ht _))
  · exact ht _

theorem takeUpTo_held {held want : Nat} {u : State} (h : want ≤ held) : (takeUpTo held want u).1 = some held := by
  unfold takeUpTo; rw [if_neg (by omega)]; dsimp only; rw [Nat.max_eq_left h]

theorem rxBushels_facts (r : RxState) (n : Nat) {v u : State} (h : RxStays v u) :
    RxStays v (rxBushels r n u).2 ∧ (rxBushels r n u).1.maxFrame = r.maxFrame ∧
    (max 1 (bushelsOf (min n (r.maxFrame + 1))) ≤ r.bushels → (rxBushels r n u).1 = r) := by
  unfold rxBushels
  split
  · exact ⟨h, rfl, fun _ => rfl⟩
  · have ht := rx_take (held := r.bushels) (want := max 1 (bushelsOf (min n (r.maxFrame + 1)))) h
    have hk := @takeUpTo_held r.bushels (max 1 (bushelsOf (min n (r.maxFrame + 1)))) u
    generalize takeUpTo r.bushels (max 1 (bushelsOf (min n (r.maxFrame + 1)))) u = y at ht hk
    obtain ⟨y1, y2⟩ := y
    cases y1 with
    | none => exact ⟨ht, rfl, fun h' => absurd (hk h') (by simp)⟩
    | some k =>
      refine ⟨ht, rfl, fun h' => ?_⟩
      have := hk h'; dsimp only at this
      injection this with this; subst this; rfl

/-- A frame that leaves the receiver with enough bushels keeps those of its bytes. -/
theorem rxTaken_facts (p : Nat) (f : RxFrame) (r : RxState) (s : State) :
    RxStays (modPort p (fun x => { x with rx := none }) s) (rxTaken p f r s).2 ∧ (rxTaken p f r s).1.maxFrame = r.maxFrame ∧
    (max 1 (bushelsOf (min f.bytes.length (r.maxFrame + 1))) ≤ r.bushels →
      (rxTaken p f r s).1 = { r with bushels := max 1 (bushelsOf (min f.bytes.length (r.maxFrame + 1))) }) := by
  have h1 : RxStays (modPort p (fun x => { x with rx := none }) s) (bump cRxOctets (scPort p) (min f.bytes.length (r.maxFrame + 1)) (modPort p (fun x => { x with rx := none }) s)) :=
    rx_bump ⟨rfl, rfl, rfl, rfl, rfl⟩
  unfold rxTaken; dsimp only
  obtain ⟨a, b, c⟩ := rxBushels_facts r f.bytes.length h1
  generalize rxBushels r f.bytes.length (bump cRxOctets (scPort p) (min f.bytes.length (r.maxFrame + 1)) (modPort p (fun x => { x with rx := none }) s)) = y at a b c
  obtain ⟨y1, y2⟩ := y
  dsimp only at a b c ⊢
  refine ⟨rx_free a, b, fun h => ?_⟩
  rw [c h, Nat.min_eq_right h]

theorem claimFrame_none {p : Nat} {b : Bytes} {c : BitVec 64} {s t : State} (h : t.settings = s.settings) (hp : t.pair = s.pair) (e : claimFrame p b c s = none) : claimFrame p b c t = none := by
  have g : ∀ (q : SSpec) (a i : Nat), setting t q a i = setting s q a i := setting_congr h
  have h1 : ptpProfile t p = ptpProfile s p := by unfold ptpProfile settingN; rw [g]
  have h2 : portIp t p = portIp s p := by unfold portIp; simp only [g, h1, settingN]
  have h3 : isArp t p b = isArp s p b := by unfold isArp; rw [h1, h2]
  have h4 : isNs t p b = isNs s p b := by unfold isNs; rw [h1, h2]
  have h5 : ptpAt t p b = ptpAt s p b := by unfold ptpAt; simp only [h1, h2]
  unfold claimFrame at *; dsimp only at *
  rw [h3, h4, h5]
  split at e
  · exact absurd e (by simp)
  · rename_i k1; rw [if_neg k1]
    split at e
    · exact absurd e (by simp)
    · rename_i k2; rw [if_neg k2]
      cases hq : ptpAt s p b with
      | none => rfl
      | some w =>
        rw [hq] at e; dsimp only at e
        repeat' split at e
        all_goals exact absurd e (by simp)

theorem filterFind_congr {s t : State} {p : Nat} {b : Bytes} (h : t.settings = s.settings) : ∀ {L : List (BitVec 128)} {n : Nat}, filterFind t p b n L = filterFind s p b n L := by
  have hf : frameTags t p b = frameTags s p b := by
    unfold frameTags settingN; rw [setting_congr h]
  have hm : ∀ e, filterMatch t p b e = filterMatch s p b e := fun e => by unfold filterMatch; rw [hf]
  intro L; induction L with
  | nil => intro n; rfl
  | cons a l ih => intro n; unfold filterFind; rw [hm, ih]

theorem walkTaken_inQ {p : Pkt} {s : State} : (walkTaken p s).inQ = s.inQ :=
  only_walkTaken (ps := [.us, .sup, .qos, .cls, .tine, .pwr, .life, .win, .i3c, .reeve, .counters, .freeCtr]) (by decide) (Only.refl s) .inQ (by decide)

theorem applyResult_cls {w : Walked} {r : Nat} {s : State} : (applyResult w r s).cls.nextOrder = s.cls.nextOrder ∧ (applyResult w r s).cls.inNew = s.cls.inNew ∧
    (applyResult w r s).cls.emQ = s.cls.emQ ∧ (applyResult w r s).cls.dispatchQ.length = s.cls.dispatchQ.length + 1 := by
  have hm : ∀ (m : Nat) (p : Pkt) (b : Bytes) (c l : Nat) (u : State), (meterPacket m p b c l u).2.cls = u.cls := by
    intro m p b c l u
    exact only_meterPacket (ps := [.sup, .qos, .life, .win, .i3c, .reeve, .counters]) (by decide) (Only.refl u) .cls (by decide)
  unfold applyResult; dsimp only
  split
  · unfold modCls; dsimp only; rw [hm]
    split <;> exact ⟨rfl, rfl, rfl, by simp [countResult, modCls]⟩
  · unfold modCls; dsimp only
    split <;> exact ⟨rfl, rfl, rfl, by simp [countResult, modCls]⟩

theorem emPut_keeps (l : EmLoc) (e : EmEntry) (c : Cls) : (emPut l e c).rehash = c.rehash ∧ (emPut l e c).bank = c.bank := by
  unfold emPut; split <;> exact ⟨rfl, rfl⟩

theorem movePath_keeps : ∀ (L : List EmLoc) (c : Cls), (movePath L c).rehash = c.rehash ∧ (movePath L c).bank = c.bank := by
  intro L; induction L with
  | nil => intro c; exact ⟨rfl, rfl⟩
  | cons a l ih =>
    intro c
    cases l with
    | nil => exact ⟨rfl, rfl⟩
    | cons b m =>
      rw [movePath]
      exact ⟨(ih _).1.trans ((emPut_keeps _ _ _).1.trans (emPut_keeps _ _ _).1), (ih _).2.trans ((emPut_keeps _ _ _).2.trans (emPut_keeps _ _ _).2)⟩

theorem place_keeps {e : EmEntry} {c d : Cls} {n : Nat} (h : emPlace e c = some (d, n)) : d.rehash = c.rehash ∧ d.bank = c.bank := by
  unfold emPlace at h; dsimp only at h
  repeat' split at h
  · simp only [Option.some.injEq, Prod.mk.injEq] at h; rw [← h.1]; exact emPut_keeps _ _ _
  · simp only [Option.some.injEq, Prod.mk.injEq] at h; rw [← h.1]; exact emPut_keeps _ _ _
  · simp only [Option.some.injEq, Prod.mk.injEq] at h; rw [← h.1]
    exact ⟨(emPut_keeps _ _ _).1.trans (movePath_keeps _ _).1, (emPut_keeps _ _ _).2.trans (movePath_keeps _ _).2⟩
  · exact absurd h (by simp)
  · simp only [Option.map_eq_some_iff, Prod.mk.injEq] at h
    obtain ⟨i, _, h1, _⟩ := h
    rw [← h1]; exact emPut_keeps _ _ _

theorem placeAll_keeps : ∀ (L : List EmEntry) (c : Cls), (emPlaceAll L c).1.rehash = c.rehash ∧ (emPlaceAll L c).1.bank = c.bank := by
  intro L; induction L with
  | nil => intro c; exact ⟨rfl, rfl⟩
  | cons e l ih =>
    intro c
    unfold emPlaceAll
    split
    · rename_i h; exact ⟨(ih _).1.trans (place_keeps h).1, (ih _).2.trans (place_keeps h).2⟩
    · exact ih c

theorem service_faults {th : ThreadId} {x : Thread} {addr : Option Nat} {s z : State} {tag : Option Tagged} {prog : Nat}
    (hk : z = (match tag with | some g => sampRecord th.harrow.val th.tine.val th.thread.val prog g false true false true none (freeThread th.harrow.val th.tine.val th.thread.val (faultPass th.harrow.val th.tine.val th.thread.val x 0x06 addr s)) | none => freeThread th.harrow.val th.tine.val th.thread.val (faultPass th.harrow.val th.tine.val th.thread.val x 0x06 addr s))) : Faulted th 0x06 s z := by
  obtain ⟨f1, f2, f3, f4, f5, f6⟩ := faultPass_facts (h := th.harrow.val) (t := th.tine.val) (n := th.thread.val) (x := x) (addr := addr) (u := s) (code := 0x06) (by decide)
  generalize faultPass th.harrow.val th.tine.val th.thread.val x 0x06 addr s = v at *
  have q : Pre (freeThread th.harrow.val th.tine.val th.thread.val v) z := by
    rw [hk]; cases tag
    · exact .refl _
    · exact pre_sampRecord
  have qt := q.threads
  have hp : ∀ o, threadAt v o = threadAt s o := by intro o; unfold threadAt threadOf; rw [f1]
  have hz : ∀ o, threadAt z o = threadAt (freeThread th.harrow.val th.tine.val th.thread.val v) o := by
    intro o; unfold threadAt; rw [qt]
  obtain ⟨p1, p2, p3, p4, p5, p6, p7, p8⟩ := freeThread_facts.2.2.trans q.post
  refine ⟨⟨?_, ?_, p1.trans f2, p2.trans f3, p3.trans f4, p4.trans f5⟩, ?_⟩
  · rw [hz, freeThread_facts.1, hp]
  · intro o ho; rw [hz, freeThread_facts.2.1 o ho, hp]
  · rw [p8]; exact f6

theorem putPriv_pc {a : Nat} {b : Bytes} {y : Thread} : (putPriv a b y).pc = y.pc := rfl

theorem setV_pc {a : Nat} {b : BitVec 32} {y : Thread} : (setV a b y).pc = y.pc := rfl

theorem lookupDone_pc {s : State} {a b d : Nat} {c : Bool} {y : Thread} : (lookupDone s a b c d y).pc = y.pc := by
  rw [lookupDone, putPriv_pc, setV_pc]

theorem issue_first {op : Nat} {th : ThreadId} {f : TFields} {i : Instr} {body : Thread → State → TRes} {s : State} (hf : ∀ t, exec i s = .next t → Only (writes i) s t) (hi : exec i s = .next (issue op th f body s)) :
    let x := threadAt s th
    let w := fetchedWord s x
    let ready := threadReady x && inTurn s th.harrow.val th.tine.val th.thread.val && harrowOn s th.harrow.val && coreRuns s &&
      !s.sec.tinesHalted.getLsbD (th.harrow.val * 16 + th.tine.val)
    let bad := insnDefined (wordOp w) (insnFields w) = false
    (ready = true → w = insnWord op f ∨ bad → x.view.limit ≤ x.insns → Does i s (Faulted th 0x09 s)) ∧
    (ready = true → w ≠ insnWord op f ∧ bad ∨ w = insnWord op f ∧ insnDefined op f = false → x.insns < x.view.limit →
      Does i s (Faulted th 0x01 s)) ∧
    (ready = true → w ≠ insnWord op f → ¬ bad → exec i s = .next s) ∧
    (ready = false → exec i s = .next s) := by
  intro x w ready bad
  have hr : ready = true → threadReady x = true ∧ inTurn s th.harrow.val th.tine.val th.thread.val = true ∧ harrowOn s th.harrow.val = true ∧ coreRuns s = true ∧ s.sec.tinesHalted.getLsbD (th.harrow.val * 16 + th.tine.val) = false := by
    intro h; simp only [ready, Bool.and_eq_true, Bool.not_eq_true'] at h
    exact ⟨h.1.1.1.1, h.1.1.1.2, h.1.1.2, h.1.2, h.2⟩
  refine ⟨fun h hw h' => ?_, fun h hw h' => ?_, fun h h1 h2 => ?_, fun h => ?_⟩
  · obtain ⟨a, b, c, d, e⟩ := hr h
    exact does_of hf hi (issue_refused a b c d e hw (.inl ⟨h', rfl⟩))
  · obtain ⟨a, b, c, d, e⟩ := hr h
    refine does_of hf hi (issue_refused a b c d e (hw.elim (fun k => .inr k.2) (fun k => .inl k.1)) (.inr ⟨h', fun k => ?_, rfl⟩))
    exact hw.elim (fun q => absurd k q.1) (·.2)
  · obtain ⟨a, b, c, d, e⟩ := hr h
    rw [hi]; unfold issue; dsimp only
    rw [if_pos]
    simp only [x, threadAt] at a
    simp only [w, bad, x, threadAt] at h1 h2
    simp [a, b, c, d, e, h1, h2]
  · rw [hi]; unfold issue; dsimp only
    rw [if_pos]
    simp only [ready, x, threadAt, Bool.and_eq_false_iff, Bool.not_eq_false'] at h
    simp only [Bool.or_eq_true, Bool.not_eq_true', Bool.and_eq_false_iff]
    exact .inl h

theorem orderLook_congr {u v : State} (h : u.tine.order = v.tine.order) : (orderLook u).tine.order = (orderLook v).tine.order := by
  have : ∀ (n : Nat) (u v : State), u.tine.order = v.tine.order → (orderRun n u).tine.order = (orderRun n v).tine.order := by
    intro n; induction n with
    | zero => intro u v h; exact h
    | succ n ih =>
      intro u v h; unfold orderRun; rw [h]
      split
      · exact h
      · apply ih; rw [tine_linkEmitted, tine_linkEmitted]
  unfold orderLook; rw [h]; exact this _ _ _ h

theorem discard_order {p : Pkt} {u s : State} (h : u.tine.order = s.tine.order) : (discardPkt p u).tine.order = (orderLook { s with tine := { s.tine with order := s.tine.order.filter (fun o => o.id != p.order) } }).tine.order := by
  unfold discardPkt orderLeave
  apply orderLook_congr
  dsimp only; rw [tine_genLeave, tine_freeBushels, h]

theorem recirc_genLeave {g : BitVec 8} {u : State} : (genLeave g u).cls.recircQ = u.cls.recircQ := by
  unfold genLeave retireLook
  split
  · rw [bump_cls]; unfold modCls; dsimp only; split <;> rfl
  · unfold modCls; dsimp only; split <;> rfl

theorem recirc_linkEmitted {e : Emitted} {u : State} : (linkEmitted e u).cls.recircQ = u.cls.recircQ := by
  unfold linkEmitted; dsimp only
  rw [recirc_genLeave]
  split
  · rw [bump_cls]; rw [show (freeBushels e.bushels u).cls = u.cls from only_freeBushels (ps := [.qos, .pwr, .freeCtr]) (by decide) (Only.refl u) .cls (by decide)]
  · have he : (enqueue e.ds e.queue e.colour { bytes := e.bytes, sheaf := e.sheaf, fcsKept := e.fcsKept, modified := e.modified, bushels := e.bushels } u).2.cls = u.cls := only_enqueue (ps := [.us, .sup, .qos, .pwr, .life, .win, .i3c, .reeve, .counters, .freeCtr]) (by decide) (Only.refl u) .cls (by decide)
    split
    · rw [show ∀ p (v : State), (portFlushLook p v).cls = v.cls from fun p v => only_portFlushLook (ps := [.us, .sup, .qos, .pwr, .life, .win, .i3c, .reeve, .counters, .freeCtr]) (by decide) (Only.refl v) .cls (by decide)]; rw [he]
    · rw [he]

theorem recirc_orderLook {u : State} : (orderLook u).cls.recircQ = u.cls.recircQ := by
  have : ∀ (n : Nat) (u : State), (orderRun n u).cls.recircQ = u.cls.recircQ := by
    intro n; induction n with
    | zero => intro u; rfl
    | succ n ih =>
      intro u; unfold orderRun; split
      · rfl
      · rw [ih, recirc_linkEmitted]
  exact this _ u

theorem takeBushels_tine {n : Nat} {u : State} : (takeBushels n u).tine = u.tine := rfl

theorem bump_qos {c : CtrId} {a n : Nat} {u : State} : (bump c a n u).qos = u.qos := (bump_keeps c a n u).2.2.2.2.1

theorem bump_settings {c : CtrId} {a n : Nat} {u : State} : (bump c a n u).settings = u.settings := (bump_keeps c a n u).2.2.1

theorem emitPass_order {x : Thread} {w : Walked} {m : Bool} {u s : State} (hw : x.walked = some w) (h : u.tine.order = s.tine.order) (h1 : u.settings = s.settings) (h2 : u.qos = s.qos) :
    let order := fun (o : List OrderEnt) => (orderLook { s with tine := { s.tine with order := o } }).tine.order
    let e := emitBytes s x w.pkt m
    let need := bushelsOf e.1.length
    let out : Emitted := ⟨!x.dir, x.queue, x.colour, w.pkt.gen, e.1, e.2.1, e.2.2, x.modified, need⟩
    (emitPass x m u).tine.order = if w.pkt.bushels + s.qos.free < need then order (s.tine.order.filter (fun o => o.id != w.pkt.order))
      else order (s.tine.order.map (fun o => if o.id == w.pkt.order then { o with frame := some out } else o)) := by
  intro order e need out
  have he : emitBytes u x w.pkt m = e := by
    simp only [e]; unfold emitBytes settingN setting; rw [h1]
  unfold emitPass; rw [hw]; dsimp only; rw [he]
  generalize hx : e = y at he
  obtain ⟨y1, y2, y3⟩ := y
  dsimp only
  have hn : bushelsOf y1.length = need := by simp only [need]; rw [hx]
  rw [hn]; unfold takeUpTo; rw [h2]
  by_cases hb : w.pkt.bushels + s.qos.free < need
  · rw [if_pos hb, if_pos (by omega)]; dsimp only; rw [bump_tine]
    exact discard_order (p := { w.pkt with bushels := 0 }) (by rw [bump_tine, tine_freeBushels, takeBushels_tine, h])
  · rw [if_neg hb, if_neg (by omega)]
    apply orderLook_congr
    unfold modTine; dsimp only
    have ho : out = ⟨!x.dir, x.queue, x.colour, w.pkt.gen, y1, y2, y3, x.modified, need⟩ := by simp only [out]; rw [hx]
    rw [ho, tine_freeBushels, takeBushels_tine, h]

theorem pass_ended {th : ThreadId} {s u v t : State} (hp : Pre s u) (h : Ord u v ∨ ∃ q, Ord { u with tine := { u.tine with trapQ := q } } v)
    (h1 : still (threadAt t th) = { priv := (threadAt s th).priv }) (h2 : ∀ o, o ≠ th → still (threadAt t o) = still (threadAt s o)) (h3 : Post v t) : Ended th s t ∧ t.tine.faultLog = s.tine.faultLog ∧ t.tine.order = v.tine.order ∧ t.tine.trapQ = v.tine.trapQ := by
  obtain ⟨p1, p2, p3, p4, p5, p6, p7, p8⟩ := h3
  have hs : ∀ {β : Type} (g : Tine → β), (∀ (z : Tine) (o : Tab Samp), g { z with samp := o } = g z) → g u.tine = g s.tine := fun g hg => (hg _ _).symm.trans (congrArg g hp.1)
  have ho : ∀ {β : Type} (g : Tine → β), (∀ (z : Tine) (o : List OrderEnt), g { z with order := o } = g z) → (∀ (z : Tine) (q : List Trapped), g { z with trapQ := q } = g z) → g v.tine = g u.tine := by
    intro β g hg hg'
    rcases h with h | ⟨q, h⟩
    · exact (hg _ _).symm.trans (congrArg g h)
    · exact ((hg _ _).symm.trans (congrArg g h)).trans (hg' _ _)
  refine ⟨⟨h1.trans still_free.symm, h2, ?_, ?_, ?_, ?_⟩, ?_, p6, p7⟩
  · exact (p1.trans (ho (·.scratch) (fun _ _ => rfl) fun _ _ => rfl)).trans (hs (·.scratch) fun _ _ => rfl)
  · exact (p2.trans (ho (·.sram) (fun _ _ => rfl) fun _ _ => rfl)).trans (hs (·.sram) fun _ _ => rfl)
  · exact (p3.trans (ho (·.const_) (fun _ _ => rfl) fun _ _ => rfl)).trans (hs (·.const_) fun _ _ => rfl)
  · exact (p4.trans (ho (·.imem) (fun _ _ => rfl) fun _ _ => rfl)).trans (hs (·.imem) fun _ _ => rfl)
  · exact (p8.trans (ho (·.faultLog) (fun _ _ => rfl) fun _ _ => rfl)).trans (hs (·.faultLog) fun _ _ => rfl)

theorem Ord.get {u v : State} (h : Ord u v) {β : Type} (g : Tine → β) (hg : ∀ (z : Tine) (o : List OrderEnt), g { z with order := o } = g z) : g v.tine = g u.tine := (hg _ _).symm.trans (congrArg g h)

theorem ord_bump {c : CtrId} {a n : Nat} {u : State} : Ord u (bump c a n u) := ord_of_same bump_tine

theorem ord_emitPass {x : Thread} {m : Bool} {u : State} : Ord u (emitPass x m u) := by
  unfold emitPass; split
  · exact .refl u
  · dsimp only
    generalize emitBytes u x _ m = y
    obtain ⟨y1, y2, y3⟩ := y
    dsimp only
    rename_i w _
    have ht : (takeUpTo w.pkt.bushels (bushelsOf y1.length) u).2.tine = u.tine :=
      only_takeUpTo (ps := [.sup, .qos, .pwr, .life, .win, .i3c, .reeve, .counters, .freeCtr]) (by decide) (Only.refl u) .tine (by decide)
    generalize takeUpTo w.pkt.bushels (bushelsOf y1.length) u = q at ht
    obtain ⟨q1, q2⟩ := q
    have hq : Ord u q2 := ord_of_same ht
    cases q1 with
    | none => exact hq.trans (ord_discardPkt.trans ord_bump)
    | some k =>
      refine Ord.trans ?_ ord_orderLook
      refine hq.trans ?_
      unfold Ord modTine; dsimp only; rw [tine_freeBushels]

end Sys2Proof.Machine
end

