-- ==== Sys2Proof/Laws/SysFacts.lean ====
section
/-! SUPPORT. What the operations of the crypto block, power, the pair and the host interface do. -/
namespace Sys2Proof.Machine

theorem sampOf_mod {h : Nat} {f : Samp → Samp} {s : State} : sampOf (modSamp h f s) h = f (sampOf s h) := by
  unfold sampOf modSamp; dsimp only; rw [tabGet_mod, if_pos rfl]

theorem pmcOf_mod {h t : Nat} {f : Pmc → Pmc} {s : State} : pmcOf (modPmc h t f s) h t = f (pmcOf s h t) := by
  unfold pmcOf modPmc; dsimp only; rw [tabGet_mod, if_pos rfl]

theorem foldl_set (L : List Nat) : ∀ (c : Tab (BitVec 48)) (i : Nat), tabGet 0 (L.foldl (fun c i => tabSet 0 c i 0) c) i = if i ∈ L then 0 else tabGet 0 c i := by
  induction L with
  | nil => intro c i; simp
  | cons a l ih =>
    intro c i; rw [List.foldl_cons, ih, tabGet_set]
    by_cases h : i = a <;> by_cases h' : i ∈ l <;> simp [h, h']

theorem foldl_mask (p : Nat → Bool) (i : Fin 6) : (((List.range 6).filter p).foldl (fun (m : BitVec 6) i => m ||| (1#6 <<< i)) 0).getLsbD i.val = p i.val := by
  have : List.range 6 = [0, 1, 2, 3, 4, 5] := rfl
  rw [this]
  obtain ⟨i, hi⟩ := i
  dsimp only
  rcases (by omega : i = 0 ∨ i = 1 ∨ i = 2 ∨ i = 3 ∨ i = 4 ∨ i = 5) with rfl | rfl | rfl | rfl | rfl | rfl <;>
    cases h0 : p 0 <;> cases h1 : p 1 <;> cases h2 : p 2 <;> cases h3 : p 3 <;> cases h4 : p 4 <;> cases h5 : p 5 <;> simp [List.filter, h0, h1, h2, h3, h4, h5]

/-- A start of operations touches the crypto block alone. -/
theorem startOps_rest {s : State} : Only [.cry] s (startOps s) := only_startOps (by decide) (Only.refl s)

theorem tineAnswer_facts {h t n st vd fn txt tag len : Nat} {f : Thread → Thread} {s : State} (hw : (threadOf s h t n).wait = some (.cipher vd fn txt tag len none)) :
    (tineAnswer h t n st f s).cry = s.cry ∧ threadOf (tineAnswer h t n st f s) h t n = { f (threadOf s h t n) with wait := some (.cipher vd fn txt tag len (some st)) } := by
  unfold tineAnswer; dsimp only; rw [hw]; dsimp only
  refine ⟨rfl, ?_⟩
  unfold threadOf putThread; dsimp only; rw [tabGet_set, if_pos rfl]

theorem threadOf_bump {c : CtrId} {a n : Nat} {s : State} : threadOf (bump c a n s) = threadOf s := by funext x y z; unfold threadOf; rw [bump_tine]

theorem bump_cry {c : CtrId} {a n : Nat} {u : State} : (bump c a n u).cry = u.cry := only_bump (ps := counting) (by decide) (Only.refl u) .cry (by decide)

theorem threadOf_startOps {s : State} : threadOf (startOps s) = threadOf s := by
  funext x y z; unfold threadOf; rw [startOps_rest .tine (by decide)]

/-- A call's answer, the operation gone. -/
theorem cipher_ends {s v : State} {o : CryOp} {h t n st vd fn txt tag len : Nat} {f : Thread → Thread}
    (hv : v.cry.ops.map (·.id) = (s.cry.ops.filter (fun p => p.id != o.id)).map (·.id)) (ht : threadOf v = threadOf s)
    (hw : (threadOf s h t n).wait = some (.cipher vd fn txt tag len none)) :
    (startOps (tineAnswer h t n st f v)).cry.ops.map (·.id) = (s.cry.ops.filter (fun p => p.id != o.id)).map (·.id) ∧
    threadOf (startOps (tineAnswer h t n st f v)) h t n = { f (threadOf s h t n) with wait := some (.cipher vd fn txt tag len (some st)) } := by
  have hk := tineAnswer_facts (h := h) (t := t) (n := n) (st := st) (f := f) (s := v) (by rw [ht]; exact hw)
  rw [startOps_ids.1, hk.1, threadOf_startOps, hk.2, ht]
  exact ⟨hv, rfl⟩

theorem numberLot_facts {b : Nat} {t : TxLot} : (numberLot b t).queue = t.queue ∧ (numberLot b t).ends = t.ends ∧ (numberLot b t).cipher = t.cipher := by
  unfold numberLot; dsimp only; split <;> exact ⟨rfl, rfl, rfl⟩

theorem slots_keysLook {s : State} : (keysLook s).cry = s.cry := only_keysLook (ps := [.us, .sup, .qos, .life, .win, .i3c, .reeve, .counters]) (by decide) (Only.refl s) .cry (by decide)

theorem slotOf_startOps {s : State} {j : Nat} : slotOf (startOps s) j = slotOf s j := by
  unfold slotOf; rw [startOps_ids.2]

/-! What leaves every key slot as it was. -/

theorem slots_only {ps : List Part} {s t : State} (h : Only ps s t) (hp : .cry ∉ ps) : t.cry.slots = s.cry.slots := by
  rw [h .cry hp]

theorem slots_lotCipher {g : Nat} {lot : Lot} {s : State} : (lotCipher g lot s).2.cry.slots = s.cry.slots := by
  have hb : ∀ c a n, (bump c a n s).cry.slots = s.cry.slots := fun c a n =>
    slots_only (ps := counting) (only_bump (by decide) (Only.refl s)) (by decide)
  unfold lotCipher; dsimp only
  split
  · exact hb _ _ _
  · split
    · exact hb _ _ _
    · split
      · exact hb _ _ _
      · exact issueOp_facts.2.1

theorem slots_processLot {g : Nat} {lot : Lot} {s : State} : (processLot g lot s).2.cry.slots = s.cry.slots := by
  have hb : ∀ c a n (u : State), (bump c a n u).cry.slots = u.cry.slots := fun c a n u =>
    slots_only (ps := counting) (only_bump (by decide) (Only.refl u)) (by decide)
  have hp : ∀ (i : Nat) (b : Bool) (u : State), (plmLot i b u).cry.slots = u.cry.slots := fun i b u =>
    slots_only (ps := [.sup, .life, .win, .i3c, .reeve, .counters]) (only_plmLot (ps := [.sup, .life, .win, .i3c, .reeve, .counters]) (by decide) (Only.refl u)) (by decide)
  unfold processLot; dsimp only
  repeat' split
  all_goals simp only [slots_lotCipher, hp, hb]

theorem slots_relStart {g : Nat} : ∀ (L : List Rel) (s : State), (relStart g L s).2.cry.slots = s.cry.slots
  | [], s => rfl
  | r :: rs, s => by
    unfold relStart
    have h : (if r.lot.whole = true ∧ r.step = .arriving then processLot g r.lot s else (r.step, s)).2.cry.slots = s.cry.slots := by
      split
      · exact slots_processLot
      · rfl
    exact (slots_relStart rs _).trans h

theorem slots_relDrain {g : Nat} : ∀ (L : List Rel) (s : State), (relDrain g L s).2.cry.slots = s.cry.slots
  | [], s => rfl
  | r :: rs, s => by
    have h : (if r.gap = true then abandonContexts g s else s).cry.slots = s.cry.slots := by
      split
      · exact slots_only (ps := [.reasm, .sup, .qos, .pwr, .life, .win, .i3c, .reeve, .counters, .freeCtr]) (only_abandonContexts (by decide) (Only.refl s)) (by decide)
      · rfl
    unfold relDrain; dsimp only
    generalize (if r.gap = true then abandonContexts g s else s) = u at h ⊢
    split
    · exact (slots_relDrain rs u).trans h
    · exact (slots_relDrain rs _).trans ((slots_only (ps := [.reasm, .toTime, .toReeve, .inQ, .sup, .qos, .pwr, .life, .win, .i3c, .reeve, .counters, .freeCtr]) (only_lotClear (by decide) (Only.refl u)) (by decide)).trans h)
    · exact h

theorem slots_relLook {g : Nat} {s : State} : (relLook g s).cry.slots = s.cry.slots := by
  unfold relLook
  exact (slots_relDrain _ _).trans (slots_relStart _ _)

theorem slots_cryNoOutput {abort : Bool} {o : CryOp} {s : State} : (cryNoOutput abort o s).cry.slots = s.cry.slots := by
  have h1 : (if abort = true then bump cCryAborted scDevice 1 s else s).cry.slots = s.cry.slots := by
    split
    · exact slots_only (ps := counting) (only_bump (by decide) (Only.refl s)) (by decide)
    · rfl
  unfold cryNoOutput; dsimp only
  generalize (if abort = true then bump cCryAborted scDevice 1 s else s) = u at h1 ⊢
  rw [← h1]
  cases o.dst with
  | rxLot g lot =>
    unfold relCipherDone
    refine slots_relLook.trans ?_
    exact slots_only (ps := counting) (s := u) (t := bump cNoKey (scLot (bits lot.hdr.toNat 63 48)) 1 u) (only_bump (by decide) (Only.refl u)) (by decide)
  | txLot x => exact slots_only (ps := [.us, .qos, .pwr, .freeCtr]) (only_loseTxLot (by decide) (Only.refl u)) (by decide)
  | txMsg x =>
    dsimp only; split
    · exact slots_only (ps := [.us, .act]) (only_loseTxMsg (by decide) (Only.refl u)) (by decide)
    · exact slots_only (ps := [.us]) (only_tagTxMsg (by decide) (Only.refl u)) (by decide)
  | tine h t n => exact slots_only (ps := [.tine]) (only_tineAnswer (by decide) (Only.refl u)) (by decide)
  | command => exact slots_only (ps := [.act, .win, .i3c, .reeve]) (only_sealAnswer (by decide) (Only.refl u)) (by decide)

theorem slotOf_mod {k j : Nat} {f : KeySlot → KeySlot} {s : State} : slotOf (modSlot k f s) j = if j = k then f (slotOf s k) else slotOf s j := by
  unfold slotOf modSlot; dsimp only; rw [tabGet_mod]

theorem slotOf_cry {s t : State} (h : t.cry.slots = s.cry.slots) {j : Nat} : slotOf t j = slotOf s j := by unfold slotOf; rw [h]

theorem eraseSlots_slots {ks : List Nat} (hk : ks.Nodup) {s : State} {j : Nat} : slotOf (eraseSlots ks s) j = if j ∈ ks then { slotOf s j with share0 := [], share1 := [], loaded := false, size256 := false, gen := (slotOf s j).gen + 1, salt := 0, ctr := 0 } else slotOf s j := by
  unfold eraseSlots; dsimp only
  rw [slotOf_startOps]
  have hko : ∀ (L : List CryOp) (v : State), slotOf (keysLook (each (cryNoOutput true) L v)) j = slotOf v j := by
    intro L v; apply slotOf_cry; rw [slots_keysLook]
    have : ∀ (L : List CryOp) (v : State), (each (cryNoOutput true) L v).cry.slots = v.cry.slots := by
      intro L; induction L with
      | nil => intro v; rfl
      | cons a l ih => intro v; rw [each, ih, slots_cryNoOutput]
    rw [this]
  rw [hko]
  · have he : ∀ (L : List Nat) (v : State), L.Nodup → slotOf (each (fun k => modSlot k (fun x => { x with share0 := [], share1 := [], loaded := false, size256 := false, gen := x.gen + 1, salt := 0, ctr := 0 })) L v) j = if j ∈ L then { slotOf v j with share0 := [], share1 := [], loaded := false, size256 := false, gen := (slotOf v j).gen + 1, salt := 0, ctr := 0 } else slotOf v j := by
      intro L; induction L with
      | nil => intro v _; simp [each]
      | cons a l ih =>
        intro v hn
        have hn := List.nodup_cons.mp hn
        rw [each, ih _ hn.2, slotOf_mod]
        by_cases h : j = a
        · subst h; simp [hn.1]
        · simp [h]
    rw [he _ _ hk]; rfl

/-- A power state, but for what frames and notices change. -/
def pwrKey (p : Pwr) : Pwr := { p with bufHeld := [], noticeWait := false, intakeStopped := false, drainWait := false }

/-- Two states agree in `pwrKey`. -/
def PwrStays (s t : State) : Prop := pwrKey t.pwr = pwrKey s.pwr

theorem PwrStays.eq {s t : State} (h : t.pwr = s.pwr) : PwrStays s t := by unfold PwrStays; rw [h]

theorem PwrStays.rfl {s : State} : PwrStays s s := Eq.refl _

theorem PwrStays.tr {a b c : State} (h : PwrStays a b) (k : PwrStays b c) : PwrStays a c := Eq.trans k h

theorem PwrStays.buf {b : List (Nat × Nat)} {s : State} : PwrStays s (modPwr (fun p => { p with bufHeld := b }) s) := Eq.refl _

theorem PwrStays.only {ps : List Part} {s t : State} (hp : .pwr ∉ ps) (h : Only ps s t) : PwrStays s t := by
  unfold PwrStays; rw [h .pwr hp]

theorem PwrStays.each {α : Type} {f : α → State → State} (hf : ∀ x s, PwrStays s (f x s)) : ∀ (l : List α) (s : State), PwrStays s (each f l s)
  | [], s => PwrStays.rfl
  | x :: l, s => (hf x s).tr (PwrStays.each hf l _)

theorem pk_bump {c : CtrId} {a n : Nat} {s : State} : PwrStays s (bump c a n s) := .only (ps := counting) (by decide) (only_bump (by decide) (Only.refl s))

theorem pk_raise {c : BitVec 16} {a n : Nat} {s : State} : PwrStays s (raise c a n s) := .only (ps := raising) (by decide) (only_raise (by decide) (Only.refl s))

theorem pk_returnHeld (n : Nat) (l : List Nat) (s : State) : PwrStays s (returnHeld n l s) := by
  induction l generalizing n s with
  | nil => exact PwrStays.rfl
  | cons b l ih => exact PwrStays.tr PwrStays.buf (ih _ _)

theorem pk_free {n : Nat} {s : State} : PwrStays s (freeBushels n s) := by
  unfold freeBushels; dsimp only
  split
  · exact PwrStays.rfl
  · refine PwrStays.tr (PwrStays.tr (PwrStays.only (ps := [.freeCtr]) (by decide) (only_drawn (by decide) (Only.refl s))) (pk_returnHeld ?_ ?_ _)) (PwrStays.eq ?_)
    rotate_left 2
    rfl

theorem pk_dropHead {ds : Bool} {q : Nat} {s : State} : PwrStays s (dropHead ds q s) := by
  unfold dropHead; split
  · exact PwrStays.rfl
  · exact (PwrStays.only (ps := [.qos, .us]) (by decide) (only_modQueue (by decide) (Only.refl s))).tr pk_free

theorem pk_linkFlush {p q : Nat} {s : State} : PwrStays s (linkFlush p q s) := by
  unfold linkFlush; exact pk_bump.tr (PwrStays.each (fun _ _ => pk_dropHead) _ _)

theorem pk_portFlush {p : Nat} {s : State} : PwrStays s (portFlushLook p s) := by
  unfold portFlushLook; split
  · exact PwrStays.each (fun _ _ => pk_linkFlush) _ _
  · exact PwrStays.rfl

theorem pk_modPort {p : Nat} {f : Port → Port} {s : State} : PwrStays s (modPort p f s) := PwrStays.eq rfl

theorem pk_setLink {p : Nat} {dest : LinkState} {s : State} : PwrStays s (setLink p dest s) := by
  unfold setLink; dsimp only
  split
  · exact PwrStays.rfl
  · split
    · exact (pk_modPort.tr pk_bump).tr pk_raise
    · refine PwrStays.tr ?_ pk_portFlush
      split
      · split
        · exact pk_modPort.tr pk_modPort
        · exact ((pk_modPort.tr pk_modPort).tr pk_bump).tr pk_raise
      · exact pk_modPort

theorem pk_portsLook {s : State} : PwrStays s (portsLook s) := by
  unfold portsLook
  refine PwrStays.each (fun p s => ?_) _ _
  unfold portLook
  split
  · split
    · exact pk_modPort.tr pk_setLink
    · exact PwrStays.rfl
  · split
    · exact PwrStays.rfl
    · exact pk_modPort.tr pk_setLink

theorem pk_setPair {dest : PairState} {s : State} : PwrStays s (setPair dest s) := by
  unfold setPair; dsimp only
  split
  · exact PwrStays.rfl
  · refine PwrStays.tr (PwrStays.tr ?_ pk_raise) pk_portsLook
    split <;> exact PwrStays.eq rfl

theorem pk_standbyFlush {ds : Bool} {q : Nat} {s : State} : PwrStays s (standbyFlush ds q s) := by
  unfold standbyFlush; exact (PwrStays.each (fun _ _ => pk_dropHead) _ _).tr pk_bump

theorem pk_leaveActive {dest : PairState} {s : State} : PwrStays s (leaveActive dest s) := by
  unfold leaveActive
  refine PwrStays.tr (PwrStays.tr (PwrStays.tr (PwrStays.eq ?_) (PwrStays.each (fun _ _ => pk_standbyFlush) _ _)) (PwrStays.each (fun _ _ => pk_standbyFlush) _ _)) pk_setPair
  rfl

theorem pk_yieldLook {s : State} : PwrStays s (yieldLook s) := by
  unfold yieldLook; split
  · exact PwrStays.rfl
  · split
    · exact PwrStays.rfl
    · unfold yieldNow; dsimp only
      have h (u : State) : PwrStays u (bump cYields scDevice 1 (leaveActive .standby u)) := PwrStays.tr pk_leaveActive pk_bump
      split
      · refine PwrStays.tr (PwrStays.tr (PwrStays.eq ?_) (h _)) pk_setPair; rfl
      · refine PwrStays.tr (PwrStays.eq ?_) (h _); rfl

theorem pk_drainLook {s : State} : PwrStays s (drainLook s) := by
  unfold drainLook; split
  · split <;> exact Eq.refl _
  · exact PwrStays.rfl

theorem pk_loseFrame {q : Nat} {s : State} : PwrStays s (loseFrame q s) := by
  unfold loseFrame; dsimp only
  split
  · refine PwrStays.each (fun _ _ => PwrStays.eq ?_) _ _; rfl
  · split
    · split
      · exact (show PwrStays s _ from PwrStays.eq rfl).tr pk_free
      · exact PwrStays.rfl
    · exact PwrStays.rfl

theorem pk_lotDone {sent : Bool} {t : TxLot} {s : State} : PwrStays s (lotDone sent t s) := by
  unfold lotDone; dsimp only
  split
  · exact pk_free
  · have h (g : List (Nat × Queue)) : PwrStays s { freeBushels t.bushels s with qos := { (freeBushels t.bushels s).qos with us := g } } := pk_free.tr (PwrStays.eq rfl)
    split
    · split
      · exact ((h _).tr pk_bump).tr pk_bump
      · exact h _
    · split
      · exact (h _).tr pk_loseFrame
      · exact h _

theorem pk_burstAccount {x : Nat} {b0 : Burst} {g : Nat} {s : State} : PwrStays s (burstAccount x b0 g s) := by
  unfold burstAccount
  refine PwrStays.tr (PwrStays.tr (PwrStays.tr (PwrStays.tr ?_ (PwrStays.each (fun _ _ => pk_lotDone) _ _))
    (PwrStays.each (fun _ _ => pk_loseFrame) _ _)) pk_drainLook) pk_yieldLook
  exact ((((((pk_bump.tr pk_bump).tr pk_bump).tr pk_bump).tr pk_bump).tr pk_bump).tr pk_bump).tr (PwrStays.eq rfl)

theorem pk_cutBurst {x : Nat} {s : State} : PwrStays s (cutBurst x s) := by
  unfold cutBurst; dsimp only
  split
  · exact PwrStays.rfl
  · split
    · refine PwrStays.tr (PwrStays.tr ?_ pk_burstAccount) pk_bump
      refine PwrStays.only (ps := [.us, .sup, .life, .win, .i3c, .reeve, .counters]) (by decide) ?_
      exact only_benLow (by decide) (only_modUsLane (by decide) (only_numberUpTo (by decide) (Only.refl s)))
    · exact PwrStays.rfl

theorem pk_gateLook {s : State} : PwrStays s (gateLook s) := by
  unfold gateLook
  refine PwrStays.each (fun x s => ?_) _ _
  split
  · split
    · exact pk_cutBurst
    · exact PwrStays.rfl
  · exact PwrStays.rfl

theorem PwrStays.get {s t : State} (h : PwrStays s t) : t.pwr.phase = s.pwr.phase ∧ t.pwr.point = s.pwr.point ∧ t.pwr.target = s.pwr.target ∧ t.pwr.st = s.pwr.st ∧ t.pwr.on = s.pwr.on ∧ t.pwr.wake = s.pwr.wake ∧ t.pwr.latched = s.pwr.latched ∧ t.pwr.latchedWas = s.pwr.latchedWas ∧ t.pwr.slAtE4 = s.pwr.slAtE4 ∧ t.pwr.lrxAtE4 = s.pwr.lrxAtE4 := by
  have h' : pwrKey t.pwr = pwrKey s.pwr := h
  exact ⟨(congrArg Pwr.phase h' : (pwrKey t.pwr).phase = _), (congrArg Pwr.point h' : (pwrKey t.pwr).point = _), (congrArg Pwr.target h' : (pwrKey t.pwr).target = _), (congrArg Pwr.st h' : (pwrKey t.pwr).st = _), (congrArg Pwr.on h' : (pwrKey t.pwr).on = _), (congrArg Pwr.wake h' : (pwrKey t.pwr).wake = _), (congrArg Pwr.latched h' : (pwrKey t.pwr).latched = _), (congrArg Pwr.latchedWas h' : (pwrKey t.pwr).latchedWas = _), (congrArg Pwr.slAtE4 h' : (pwrKey t.pwr).slAtE4 = _), (congrArg Pwr.lrxAtE4 h' : (pwrKey t.pwr).lrxAtE4 = _)⟩

theorem abandonEntry_pwr (n : Nat) (s : State) : (abandonEntry n s).pwr.phase = .stable ∧ (abandonEntry n s).pwr.st = s.pwr.st ∧ (abandonEntry n s).pwr.point = n ∧ (abandonEntry n s).pwr.wake = none ∧ (abandonEntry n s).pwr.latched = s.pwr.latchedWas ∧ (abandonEntry n s).pwr.on = s.pwr.on := by
  unfold abandonEntry; dsimp only
  have e (u : State) (l : List Nat) (x : Nat) : (each (queueNotice .run true x) l u).pwr = u.pwr := only_each (ps := [.act, .sup, .life, .win, .i3c, .reeve, .counters]) (fun _ _ h => only_queueNotice (by decide) h) (Only.refl u) .pwr (by decide)
  have b (u : State) : (bump cAbandoned scDevice 1 u).pwr = u.pwr := only_bump (ps := counting) (by decide) (Only.refl u) .pwr (by decide)
  have v (c : BitVec 16) (d : Nat) (tg : List (BitVec 16)) (u : State) : (pwrEvent c d tg u).pwr = u.pwr := only_pwrEvent (ps := raising) (by decide) (Only.refl u) .pwr (by decide)
  have w (l : List Nat) (u : State) : (each withdrawNotice l u).pwr = u.pwr := only_each (ps := [.act]) (fun _ _ h => only_withdrawNotice (by decide) h) (Only.refl u) .pwr (by decide)
  have k (l : List Nat) (u : State) : (each laneUp l u).pwr = u.pwr := only_each (ps := [.lanes, .sup]) (fun _ _ h => only_laneUp (by decide) h) (Only.refl u) .pwr (by decide)
  rw [e]
  simp only [modPwr, b, v, w]
  have q : (if 4 ≤ n ∧ ((s.pwr.st == .run || s.pwr.st == .doze) = true) then each laneUp (List.range 4) s else s).pwr = s.pwr := by
    split
    · rw [k]
    · rfl
  rw [q]; simp

theorem foldl_lit (g : Nat → Bool) (l : Fin 4) : ((List.range 4).foldl (fun (m : BitVec 4) l => if g l then m ||| (1#4 <<< l) else m) 0).getLsbD l.val = g l.val := by
  have : (List.range 4) = [0, 1, 2, 3] := rfl
  rw [this]; simp only [List.foldl]
  rcases l with ⟨l, hl⟩
  have h4 : l = 0 ∨ l = 1 ∨ l = 2 ∨ l = 3 := by omega
  generalize h0 : g 0 = a; generalize h1 : g 1 = b; generalize h2 : g 2 = c; generalize h3 : g 3 = d
  rcases h4 with e | e | e | e <;> subst e <;> simp only [h0, h1, h2, h3] <;> clear h0 h1 h2 h3 <;> revert a b c d <;> decide

theorem latchPads_pk (sl : BitVec 8) (s : State) : ∃ u, PwrStays u (latchPads sl s) ∧ u.pwr = { s.pwr with latched := s.pwr.latched ||| (s.pwr.on &&& retDomains s.pwr.target &&& padDomains), slAtE4 := sl, lrxAtE4 := (List.range 4).foldl (fun (m : BitVec 4) l => if (laneOf s l).signal then m ||| (1#4 <<< l) else m) 0 } := by
  unfold latchPads; dsimp only
  refine ⟨_, pk_gateLook, ?_⟩
  have k (l : List Nat) (u : State) : (each laneDown l u).pwr = u.pwr := only_each (ps := [.lanes, .groups, .sup, .life, .win, .i3c, .reeve, .counters]) (fun _ _ h => only_laneDown (by decide) h) (Only.refl u) .pwr (by decide)
  have r (u : State) : (refLook u).pwr = u.pwr := only_refLook (ps := [.clk, .win, .i3c, .reeve, .counters]) (by decide) (Only.refl u) .pwr (by decide)
  split <;> split <;> (try (rw [r, k])) <;> rfl

theorem isolate_facts (s : State) : (isolate s).pwr.phase = .stable ∧ (isolate s).pwr.point = 5 ∧
          (isolate s).pwr.st = s.pwr.target ∧ (isolate s).pwr.on = s.pwr.on &&& ~~~retDomains s.pwr.target ∧
          (isolate s).pwr.entryEra = s.clk.era ∧ (isolate s).pwr.entryTl = now s ∧
          (isolate s).pwr.stTags = s.pwr.stTags ++ s.pwr.tag.toList ++ s.pwr.runTags ∧
          (isolate s).pwr.listening = (if s.pwr.target = .fallow then listenLanes s else 0) ∧
          (s.pwr.target = .deepFallow → (isolate s).clk.pllRunning = false) ∧
          (isolate s).clk.timeline = s.clk.timeline := by
  unfold isolate; dsimp only
  have b (c : CtrId) (a n : Nat) (u : State) : (bump c a n u).pwr = u.pwr ∧ (bump c a n u).clk = u.clk := ⟨only_bump (ps := counting) (by decide) (Only.refl u) .pwr (by decide), only_bump (ps := counting) (by decide) (Only.refl u) .clk (by decide)⟩
  generalize hv : (if (s.pwr.target == .fallow || s.pwr.target == .deepFallow) = true then refLook (each servoLose [0, 1] s) else s) = v
  have ho : Only [.clk, .sup, .time, .life, .win, .i3c, .reeve, .counters] s v := by
    rw [← hv]; split
    · exact only_refLook (by decide) (only_each (fun _ _ h => only_servoLose (by decide) h) (Only.refl s))
    · exact Only.refl s
  have ha := only_accrue (ps := [.clk, .sup, .time, .life, .win, .i3c, .reeve, .counters]) (by decide) ho
  have hc : (accrue v).clk.timeline = s.clk.timeline ∧ (accrue v).clk.era = s.clk.era := by
    have e1 : (accrue v).clk = v.clk := only_accrue (ps := [.life]) (by decide) (Only.refl v) .clk (by decide)
    rw [e1, ← hv]; split
    · have e2 : (each servoLose [0, 1] s).clk = s.clk := only_each (ps := [.sup, .time, .life, .win, .i3c, .reeve, .counters]) (fun _ _ h => only_servoLose (by decide) h) (Only.refl s) .clk (by decide)
      rw [← e2]
      generalize each servoLose [0, 1] s = w
      have hs (r : PllRef) (u : State) : (setRef r u).clk.timeline = u.clk.timeline ∧ (setRef r u).clk.era = u.clk.era := by
        unfold setRef; split
        · exact ⟨rfl, rfl⟩
        · have q : ∀ c a n (u : State), (raise c a n u).clk = u.clk := fun c a n u => only_raise (ps := raising) (by decide) (Only.refl u) .clk (by decide)
          rw [q]; exact ⟨rfl, rfl⟩
      unfold refLook; dsimp only
      have q : ∀ c a n (u : State), (raise c a n u).clk = u.clk := fun c a n u => only_raise (ps := raising) (by decide) (Only.refl u) .clk (by decide)
      split
      · split
        · exact ⟨rfl, rfl⟩
        · exact hs _ _
      · split
        · exact ⟨rfl, rfl⟩
        · split
          · exact hs _ _
          · rw [q]; exact ⟨rfl, rfl⟩
    · exact ⟨rfl, rfl⟩
  have ep : (accrue v).pwr = s.pwr := ha .pwr (by decide)
  have el : listenLanes (accrue v) = listenLanes s := by
    have q : (accrue v).lanes = s.lanes ∧ (accrue v).groups = s.groups ∧ (accrue v).settings = s.settings := ⟨ha .lanes (by decide), ha .groups (by decide), ha .settings (by decide)⟩
    simp only [listenLanes, lastPrimary, groupOf, q.2.1]
  rw [(b _ _ _ _).1, (b _ _ _ _).2]
  split
  · rename_i hd
    refine ⟨rfl, rfl, rfl, by simp only [modPwr, ep], by simp only [modPwr, hc.2], by simp only [modPwr, now, hc.1], by simp only [modPwr, ep], by simp only [modPwr, el], fun _ => rfl, hc.1⟩
  · rename_i hd
    refine ⟨rfl, rfl, rfl, by simp only [modPwr, ep], by simp only [modPwr, hc.2], by simp only [modPwr, now, hc.1], by simp only [modPwr, ep], by simp only [modPwr, el], fun e => absurd e hd, hc.1⟩

theorem wakeEvent_pwr {code index : Nat} {s : State} (h : wakeArmed s code = true) :
    (s.pwr.wake = none → (wakeEvent code index s).pwr.wake = some { source := code, index := BitVec.ofNat 8 index, others := 0, era := s.clk.era, tl := now s } ∧
        (wakeEvent code index s).pwr.phase = (if s.pwr.phase = .stable then .waking else s.pwr.phase)) ∧
      (∀ w, s.pwr.wake = some w → (wakeEvent code index s).pwr.phase = s.pwr.phase ∧ (wakeEvent code index s).pwr.wake = some (
        if w.source = code ∨ w.others.getLsbD code = true then w
        else { w with others := w.others ||| (1#16 <<< code) })) := by
  have b (c : CtrId) (a n : Nat) (u : State) : (bump c a n u).pwr = u.pwr := only_bump (ps := counting) (by decide) (Only.refl u) .pwr (by decide)
  refine ⟨fun hw => ?_, fun w hw => ?_⟩
  · unfold wakeEvent; rw [if_neg (by simp [h])]; dsimp only
    rw [hw]; dsimp only
    rw [b]; exact ⟨rfl, rfl⟩
  · unfold wakeEvent; rw [if_neg (by simp [h])]; dsimp only
    rw [hw]; dsimp only
    split
    · exact ⟨rfl, hw⟩
    · rw [b]; exact ⟨rfl, rfl⟩

theorem wake_lane {code index l : Nat} {f : Lane → Lane} {s : State} (h : wakeArmed s code = true) :
    ((s.pwr.wake = none → (wakeEvent code index (modLane l f s)).pwr.wake = some { source := code, index := BitVec.ofNat 8 index, others := 0, era := s.clk.era, tl := now s } ∧
        (wakeEvent code index (modLane l f s)).pwr.phase = (if s.pwr.phase = .stable then .waking else s.pwr.phase)) ∧
      (∀ w, s.pwr.wake = some w → (wakeEvent code index (modLane l f s)).pwr.phase = s.pwr.phase ∧ (wakeEvent code index (modLane l f s)).pwr.wake = some (
        if w.source = code ∨ w.others.getLsbD code = true then w
        else { w with others := w.others ||| (1#16 <<< code) }))) ∧
    ∀ k, laneOf (wakeEvent code index (modLane l f s)) k = if k = l then f (laneOf s l) else laneOf s k := by
  refine ⟨wakeEvent_pwr (s := modLane l f s) h, fun k => ?_⟩
  unfold laneOf
  rw [only_wakeEvent (ps := counting ++ [.pwr]) (by decide) (Only.refl (modLane l f s)) .lanes (by decide)]
  have := laneOf_modLane (s := s) l k f
  unfold laneOf at this; exact this

theorem wakeEvent_chips {code index : Nat} {s : State} : (wakeEvent code index s).pwr.chips = s.pwr.chips := by
  have b (c : CtrId) (a n : Nat) (u : State) : (bump c a n u).pwr = u.pwr := only_bump (ps := counting) (by decide) (Only.refl u) .pwr (by decide)
  unfold wakeEvent; dsimp only
  split
  · rfl
  · split
    · rw [b]; rfl
    · split
      · rfl
      · rw [b]; rfl

theorem wakeEvent_lanes {code index k : Nat} {s : State} : laneOf (wakeEvent code index s) k = laneOf s k := by
  unfold laneOf
  rw [only_wakeEvent (ps := counting ++ [.pwr]) (by decide) (Only.refl s) .lanes (by decide)]

theorem failBanks_none (d : BitVec 64) (s : State) : failBanks 0 d s = s := by
  have h : (banksOf d).filter (fun k => (0 : BitVec 64).getLsbD k) = [] := by
    rw [List.filter_eq_nil_iff]; intro a _; simp
  unfold failBanks; rw [h]; rfl

theorem keepPwr {s t : State} {ps : List Part} (h : Only ps s t) (hp : .pwr ∉ ps) : t.pwr = s.pwr := h .pwr hp

theorem tetherSend_pair (m : TetherMsg) (s : State) : ∃ q n, (tetherSend m s).pair = { s.pair with sent := q, txSeq := n } := ⟨_, _, rfl⟩

theorem rejoinLook_pair (s : State) : ∃ q n a b c d, (rejoinLook s).pair = { s.pair with sent := q, txSeq := n, snapping := a, attempts := b, snapshot := c, digestRun := d, st := if s.pair.st = .standby ∧ s.pair.claim = false ∧ s.pair.tetherUp = true ∧ s.pair.roleIn = true ∧ (s.pair.outOfStep || mirrorDiffers s) = true then .rejoining else s.pair.st } := by
  unfold rejoinLook
  split
  · rename_i hc
    rw [if_pos (by simp only [Bool.and_eq_true, beq_iff_eq, Bool.not_eq_true'] at hc; simp_all)]
    unfold startRejoin startAttempt
    split
    · obtain ⟨q, n, e⟩ := tetherSend_pair (.snapReq 1 1) (modPair (fun p => { p with attempts := p.attempts + 1, snapping := true, snapshot := [] }) (setPair .rejoining (modPair (fun p => { p with digestRun := 0 }) s)))
      rw [e]
      refine ⟨q, n, true, s.pair.attempts + 1, [], 0, ?_⟩
      simp only [modPair, setPair_pair]
    · refine ⟨s.pair.sent, s.pair.txSeq, false, s.pair.attempts, [], 0, ?_⟩
      simp only [modPair, setPair_pair]
  · rename_i hc
    rw [if_neg (by intro h; apply hc; simp only [h]; simp_all)]
    exact ⟨_, _, _, _, _, _, rfl⟩

theorem answer_pair (op : Nat) (c : Cmd) (r : Reply) (s : State) : (answer op c r s).pair = s.pair := keepPair (ps := counting ++ [.act]) (only_answer (by decide) (Only.refl s)) (by decide)

theorem rejoinLook_pair' (s : State) : ∃ q n a b c d e, (rejoinLook s).pair = { s.pair with sent := s.pair.sent ++ q, txSeq := n, snapping := a, attempts := b, snapshot := c, digestRun := d, st := e } := by
  unfold rejoinLook
  split
  · unfold startRejoin startAttempt
    split
    · refine ⟨[(s.pair.txSeq, .snapReq 1 1)], s.pair.txSeq + 1, true, s.pair.attempts + 1, [], 0, .rejoining, ?_⟩
      unfold tetherSend
      simp only [modPair, setPair_pair]
    · refine ⟨[], s.pair.txSeq, false, s.pair.attempts, [], 0, .rejoining, ?_⟩
      simp only [modPair, setPair_pair, List.append_nil]
  · exact ⟨[], _, _, _, _, _, _, by rw [List.append_nil]⟩

theorem portsLook_act (s : State) : (portsLook s).act = s.act := only_portsLook (ps := counting ++ [.us, .qos, .ports, .pwr, .freeCtr]) (by decide) (Only.refl s) .act (by decide)

theorem rejoinLook_act (s : State) : (rejoinLook s).act = s.act := only_rejoinLook (ps := counting ++ [.us, .qos, .ports, .pwr, .pair, .freeCtr]) (by decide) (Only.refl s) .act (by decide)

theorem digestLook_facts (b : HealthBody) (s : State) : (digestLook b s).act = s.act ∧ ∃ o a d n e f, (digestLook b s).pair = { s.pair with outOfStep := o, attempts := a, digestRun := d, snapping := n, snapshot := e, st := f } := by
  refine ⟨only_digestLook (ps := counting ++ [.us, .qos, .ports, .pwr, .pair, .freeCtr]) (by decide) (Only.refl s) .act (by decide), ?_⟩
  unfold digestLook; dsimp only
  split
  · exact ⟨_, _, _, _, _, _, rfl⟩
  · split
    · exact ⟨_, _, _, _, _, _, rfl⟩
    · generalize hv : raise 0x0F09 0 0 _ = v
      have e : v.pair = { s.pair with digestRun := 0, outOfStep := true } := by rw [← hv, raise_pair]; simp only [modPair, bump_pair]
      split
      · unfold rejoinFails; rw [raise_pair, bump_pair, setPair_pair]
        exact ⟨true, 0, 0, false, [], .isolated, by simp only [modPair, e]⟩
      · exact ⟨true, _, 0, _, _, _, by rw [e]⟩

theorem failAttempt_facts (s : State) :
    (s.pair.attempts < 3 → (failAttempt s).pair.snapshot = [] ∧ (failAttempt s).pair.snapping = s.pair.tetherUp ∧ (failAttempt s).pair.st = s.pair.st ∧
        (failAttempt s).pair.attempts = if s.pair.tetherUp = true then s.pair.attempts + 1 else s.pair.attempts) ∧
      (3 ≤ s.pair.attempts → (failAttempt s).pair.snapshot = [] ∧ (failAttempt s).pair.snapping = false ∧
        (failAttempt s).pair.st = .isolated ∧ (failAttempt s).pair.attempts = 0) := by
  refine ⟨fun h => ?_, fun h => ?_⟩
  · unfold failAttempt startAttempt; rw [if_pos h]
    split
    · rename_i hu; simp [hu, tetherSend, modPair]
    · rename_i hu; simp [hu, modPair]
  · unfold failAttempt rejoinFails; rw [if_neg (by omega), raise_pair, bump_pair, setPair_pair]; exact ⟨rfl, rfl, rfl, rfl⟩

theorem each_send {α : Type} (g : α → TetherMsg) : ∀ (l : List α) (s : State), (each (fun x s => tetherSend (g x) s) l s).pair.sent.map (·.2) = s.pair.sent.map (·.2) ++ l.map g ∧ (each (fun x s => tetherSend (g x) s) l s).pair.held = s.pair.held
  | [], s => by simp [each]
  | x :: l, s => by
    have e : (tetherSend (g x) s).pair.sent.map (·.2) = s.pair.sent.map (·.2) ++ [g x] := by simp [tetherSend, modPair]
    obtain ⟨h1, h2⟩ := each_send g l (tetherSend (g x) s)
    refine ⟨?_, h2.trans rfl⟩
    show (each (fun x s => tetherSend (g x) s) l (tetherSend (g x) s)).pair.sent.map (·.2) = _
    rw [h1, e]; simp

theorem setInt_ext (b : BitVec 5) (s : State) : (setInt b s).i3c.dynAddr = s.i3c.dynAddr ∧ (setInt b s).reeve = s.reeve := by
  unfold setInt requestIbi; dsimp only; split <;> exact ⟨rfl, rfl⟩

theorem post_ext (e : Event) (s : State) : (postEvent e s).i3c.dynAddr = s.i3c.dynAddr ∧ (postEvent e s).reeve.halted = s.reeve.halted ∧ (postEvent e s).reeve.mgmt0 = s.reeve.mgmt0 ∧ (postEvent e s).reeve.mgmt1 = s.reeve.mgmt1 ∧ (postEvent e s).reeve.taken = s.reeve.taken := by
  unfold postEvent pushEvent; dsimp only; split
  · rw [(setInt_ext _ _).1, (setInt_ext _ _).2]; exact ⟨rfl, rfl, rfl, rfl, rfl⟩
  · exact ⟨rfl, rfl, rfl, rfl, rfl⟩

theorem raise_ext (c : BitVec 16) (i n : Nat) (s : State) : (raise c i n s).i3c.dynAddr = s.i3c.dynAddr ∧ (raise c i n s).reeve.halted = s.reeve.halted ∧ (raise c i n s).reeve.mgmt0 = s.reeve.mgmt0 ∧ (raise c i n s).reeve.mgmt1 = s.reeve.mgmt1 ∧ (raise c i n s).reeve.taken = s.reeve.taken := post_ext _ _

theorem bump_ext {c : CtrId} {a n : Nat} {s : State} (hb : c.bin = none) : (bump c a n s).reeve.mgmt0 = s.reeve.mgmt0 ∧ (bump c a n s).reeve.mgmt1 = s.reeve.mgmt1 ∧ (bump c a n s).reeve.taken = s.reeve.taken := by
  unfold bump; dsimp only; split
  · exact ⟨rfl, rfl, rfl⟩
  · rw [hb]; dsimp only
    have hl : (lifeTotal c a n (bumpRaw c a n s)).reeve = s.reeve := (only_lifeTotal (ps := [.life]) (by decide) (Only.refl (bumpRaw c a n s)) .reeve (by decide)).trans rfl
    split
    · rw [(raise_ext _ _ _ _).2.2.1, (raise_ext _ _ _ _).2.2.2.1, (raise_ext _ _ _ _).2.2.2.2, hl]; exact ⟨rfl, rfl, rfl⟩
    · rw [hl]; exact ⟨rfl, rfl, rfl⟩

theorem sysReset_again (s u : State) (h : u.fuses = s.fuses ∧ u.clk.timeline = s.clk.timeline ∧ u.i3c.dynAddr = s.i3c.dynAddr) : (sysReset u).settings = [] ∧ (sysReset u).fuses = s.fuses ∧
      (sysReset u).clk.timeline = s.clk.timeline ∧ (sysReset u).i3c.dynAddr = s.i3c.dynAddr ∧ (sysReset u).reeve.halted = false ∧ (sysReset u).win.bootStatus = 0 := by
  have ho := only_bootUp (sys := true) (ps := raising ++ [.sup, .sec, .life, .pins]) (by decide) (Only.refl (deviceReset true u))
  have e : (bootUp true (deviceReset true u)).i3c.dynAddr = u.i3c.dynAddr ∧ (bootUp true (deviceReset true u)).reeve.halted = false := by
    have h : Only [.sup, .life] (romStart true (deviceReset true u)) (restoreBins (romStart true (deviceReset true u))) := only_restoreBins (by decide) (Only.refl _)
    have e1 : (restoreBins (romStart true (deviceReset true u))).i3c = (romStart true (deviceReset true u)).i3c := h .i3c (by decide)
    have e2 : (restoreBins (romStart true (deviceReset true u))).reeve = (romStart true (deviceReset true u)).reeve := h .reeve (by decide)
    unfold bootUp; dsimp only
    split
    · rw [(raise_ext _ _ _ _).1, (raise_ext _ _ _ _).2.1, e1, e2]; exact ⟨rfl, rfl⟩
    · rw [e1, e2]; exact ⟨rfl, rfl⟩
  unfold sysReset
  rw [ho .settings (by decide), ho .fuses (by decide), ho .clk (by decide), e.1, e.2, (bootUp_facts).2.2.2.1]
  simp [deviceReset, State.reset, h]

theorem commandedReset_again (s : State) : (commandedReset s).settings = [] ∧ (commandedReset s).fuses = s.fuses ∧
      (commandedReset s).clk.timeline = s.clk.timeline ∧ (commandedReset s).i3c.dynAddr = s.i3c.dynAddr ∧ (commandedReset s).reeve.halted = false ∧ (commandedReset s).win.bootStatus = 0 := by
  have hc := only_checkpoint (gasp := false) (ps := [.life]) (by decide) (Only.refl s)
  exact sysReset_again s _ ⟨hc .fuses (by decide), by rw [hc .clk (by decide)], by rw [hc .i3c (by decide)]⟩

theorem setInt_facts (b : BitVec 5) (s : State) : (setInt b s).win = { s.win with intStat := s.win.intStat ||| b } ∧ (setInt b s).reeve = s.reeve := by
  unfold setInt requestIbi; dsimp only; split <;> exact ⟨rfl, rfl⟩

theorem freeBytes_length (s : State) : ∀ n, (freeBytes s n).length = n := by
  intro n; unfold freeBytes; simp

end Sys2Proof.Machine
end

