-- ==== Sys2Proof/Laws/TimeFacts.lean ====
section
/-! SUPPORT. What the operations of the time domains, the output time scale and the precision-time
engine do. -/
namespace Sys2Proof.Machine

/-- A domain's quality stays. -/
def QualityStays (d : Nat) (s t : State) : Prop := (domOf t d).quality = (domOf s d).quality

theorem QualityStays.refl (d : Nat) (s : State) : QualityStays d s s := rfl

theorem q_ite {d : Nat} {c : Prop} [Decidable c] {s t u : State} (h : QualityStays d s t) (k : QualityStays d s u) : QualityStays d s (if c then t else u) := by split <;> assumption

theorem q_modDom {d k : Nat} {f : Dom → Dom} {s t : State} (hf : ∀ x, (f x).quality = x.quality) (h : QualityStays d s t) : QualityStays d s (modDom k f t) := by
  unfold QualityStays at *; rw [← h]; unfold domOf modDom; dsimp only; rw [tabGet_mod]; split
  · rw [hf]; rename_i e; rw [e]
  · rfl

theorem q_time {d : Nat} {s t u : State} (h : QualityStays d s t) (e : u.time.dom = t.time.dom) : QualityStays d s u := by
  unfold QualityStays domOf at *; rw [e]; exact h

theorem q_raise {d : Nat} {c : BitVec 16} {i n : Nat} {s t : State} (h : QualityStays d s t) : QualityStays d s (raise c i n t) := q_time h (by rw [raise_time])

theorem q_setServo {d k : Nat} {dest : ServoState} {s t : State} (h : QualityStays d s t) : QualityStays d s (setServo k dest t) := by
  unfold setServo; dsimp only; split
  · exact h
  · refine q_raise (q_modDom (hf := ?_) h); intro _; rfl

theorem q_timeLook {d : Nat} {s t : State} (h : QualityStays d s t) : QualityStays d s (timeLook t) := q_time h (by rw [timeLook_dom.2])

theorem q_autoSelect {d : Nat} {s t : State} (h : QualityStays d s t) : QualityStays d s (autoSelect t) := q_time h autoSelect_dom

theorem outJump_dom (d : Nat) (e : Int) (s : State) : (outJump d e s).time.dom = s.time.dom := by
  unfold outJump; split <;> rfl

theorem q_binsStep {d : Nat} {s t v : State} (h : QualityStays d s t) : QualityStays d s (binsStep v t) :=
  q_time h (congrArg (·.dom) (only_binsStep (ps := [.sup, .life]) (by decide) (Only.refl t) .time (by decide)))

theorem q_out {d : Nat} {s t : State} (h : QualityStays d s t) : QualityStays d s (outTake t) ∧ (∀ o, QualityStays d s (outFollow o t)) ∧ (∀ o, QualityStays d s (setOffset o t)) :=
  ⟨q_time h out_dom.1, fun o => q_time h (out_dom.2.1 o), fun o => q_time h rfl⟩

theorem q_domStep {d k : Nat} {e : Int} {s u : State} (hu : QualityStays d s u) : QualityStays d s (domStep k e u) := by
  unfold domStep; dsimp only
  refine q_time (t := modDom k (fun x => { x with ref := x.ref + e }) (outJump k e u)) ?_ ?_
  · refine q_modDom (hf := ?_) ?_
    · intro _; rfl
    · exact q_time hu (outJump_dom k e u)
  · rw [only_bump (ps := counting) (by decide) (Only.refl _) .time (by decide)]

theorem q_leaveFreerun {d k : Nat} {a : BitVec 64} {tod : Int} {s u : State} (hu : QualityStays d s u) : QualityStays d s (leaveFreerun k a tod u) := by
  unfold leaveFreerun; dsimp only
  have h1 : QualityStays d s (setServo k .acquiring (modDom k (fun x => { x with ref := tod, tlRef := a, y := 0, hasValue := true, lastE := 0 }) u)) := by
    refine q_setServo (q_modDom (hf := ?_) hu); intro _; rfl
  generalize setServo k .acquiring (modDom k (fun x => { x with ref := tod, tlRef := a, y := 0, hasValue := true, lastE := 0 }) u) = v at h1
  repeat' split
  · exact h1
  · exact (q_out h1).1
  · exact q_binsStep (q_out h1).1
  · exact (q_out h1).2.1 _
  · exact (q_out h1).2.2 _
  · exact h1

theorem q_servoUpdate {d k : Nat} {e : Int} {n : Nat} {s u : State} (hu : QualityStays d s u) : QualityStays d s (servoUpdate k e n u) := by
  unfold servoUpdate; dsimp only; refine q_modDom (hf := ?_) hu; intro _; rfl

theorem q_servoRecord {d k : Nat} {a : BitVec 64} {tod : Int} {n : Nat} {s t : State} (h : QualityStays d s t) : QualityStays d s (servoRecord k a tod n t) := by
  unfold servoRecord; dsimp only
  apply q_autoSelect; apply q_timeLook; refine q_modDom (hf := ?_) ?_
  · intro _; rfl
  split
  all_goals repeat' (first | with_reducible exact h | with_reducible apply q_domStep | with_reducible apply q_leaveFreerun | with_reducible apply q_servoUpdate | with_reducible apply q_setServo | (with_reducible refine q_modDom (hf := ?_) ?_; (intro _; rfl)) | with_reducible apply q_ite)

theorem servoRecord_sup {d : Nat} {a : BitVec 64} {tod : Int} {n : Nat} {s : State} : (servoRecord d a tod n s).sup.dom = s.sup.dom := by
  have h : ∀ (t u : State), u.sup.dom = t.sup.dom → (autoSelect (timeLook u)).sup.dom = t.sup.dom := fun t u e => by
    rw [autoSelect_sup, timeLook_dom.1, e]
  unfold servoRecord; dsimp only
  apply h
  have hm : ∀ (f : Dom → Dom) (t : State), (modDom d f t).sup.dom = t.sup.dom := fun _ _ => rfl
  have hs : ∀ (dest : ServoState) (t : State), (setServo d dest t).sup.dom = t.sup.dom := fun dest t => by rw [(setServo_facts d dest t).1]
  have hj : ∀ (e : Int) (t : State), (outJump d e t).sup = t.sup := fun e t => by unfold outJump; split <;> rfl
  have hd : ∀ (e : Int) (t : State), (domStep d e t).sup.dom = t.sup.dom := fun e t => by
    unfold domStep; dsimp only
    have := @bump_sup_dom cServoStep (scDom d) 1 (modDom d (fun x => { x with ref := x.ref + e }) (outJump d e t))
    rw [this, hm, hj]
  have hb : ∀ v t : State, (binsStep v t).sup.dom = t.sup.dom := fun v t => by unfold binsStep; rw [closeBin_dom, closeBin_dom]
  have hl : ∀ t : State, (leaveFreerun d a tod t).sup.dom = t.sup.dom := fun t => by
    unfold leaveFreerun; dsimp only
    have h1 : (setServo d .acquiring (modDom d (fun x => { x with ref := tod, tlRef := a, y := 0, hasValue := true, lastE := 0 }) t)).sup.dom = t.sup.dom := by rw [hs, hm]
    generalize setServo d .acquiring (modDom d (fun x => { x with ref := tod, tlRef := a, y := 0, hasValue := true, lastE := 0 }) t) = v at h1
    have ho : (outTake v).sup = v.sup := by unfold outTake outStepped; rw [raise_sup]; rfl
    repeat' split
    · exact h1
    · rw [ho, h1]
    · rw [hb, ho, h1]
    · unfold outFollow; split <;> exact h1
    · exact h1
    · exact h1
  have hu : ∀ (e : Int) (t : State), (servoUpdate d e n t).sup.dom = t.sup.dom := fun _ _ => rfl
  have hi : ∀ {c : Prop} [Decidable c] {x y : State} {w : Tab SupDom}, x.sup.dom = w → y.sup.dom = w → (if c then x else y).sup.dom = w := by
    intro c _ x y w h1 h2; split <;> assumption
  rw [hm]
  split
  all_goals repeat' (first | with_reducible rfl | with_reducible apply hi | rw [hd] | rw [hl] | rw [hu] | rw [hs] | rw [hm])

theorem setDomDefect_accepted (d : Nat) (a v : Bool) (u : State) : (supDomOf (setDomDefect d a v u) d).lastAccepted = (supDomOf u d).lastAccepted := by
  cases a <;> (unfold setDomDefect; dsimp only; simp only [Bool.false_eq_true, if_false, if_true]; split)
  all_goals first
    | rfl
    | (rw [supLook_dom]; unfold supDomOf; rw [raise_sup]; simp [modSupDom, tabGet_mod])

theorem sowAccepted_facts {d : Nat} {s : State} (h : (supDomOf s d).taf = false) : (supDomOf (sowAccepted d s) d).lastAccepted = some (now s) := by
  have h1 : (supDomOf (modSupDom d (fun y => { y with lastAccepted := some (now s) }) (bump cSowAccepted (scDom d) 1 s)) d).lastAccepted = some (now s) := by
    simp [supDomOf, modSupDom, tabGet_mod]
  unfold sowAccepted; dsimp only
  generalize modSupDom d (fun y => { y with lastAccepted := some (now s) }) (bump cSowAccepted (scDom d) 1 s) = u at h1
  have h2 := (setDomDefect_accepted d false false u).trans h1
  split <;> split <;> first | exact h1 | exact h2

theorem fitLook_time {d : Nat} {w : Option (List FitMean × BitVec 48)} {s : State} : (fitLook d w s).time.dom = s.time.dom ∧ (fitLook d w s).time.fitLane = s.time.fitLane ∧ (fitLook d w s).sup = s.sup := by
  have hp : ∀ (f : Fit) (u : State), (putFit d f u).time.dom = u.time.dom ∧ (putFit d f u).time.fitLane = u.time.fitLane ∧ (putFit d f u).sup = u.sup := by
    intro f u; unfold putFit; dsimp only; split
    · exact ⟨rfl, rfl, rfl⟩
    · rw [raise_time, raise_sup]; exact ⟨rfl, rfl, rfl⟩
  unfold fitLook; dsimp only
  repeat' split
  all_goals exact hp _ _

theorem sow_facts {m : FieldMsg} {d : Nat} {s : State} (h : (supDomOf s d).taf = false) :
    (supDomOf (sowUse m d true (sowAccepted d s)) d).lastAccepted = some (now s) ∧ ∀ p a r, primaryOf s m.group.val (BitVec.ofNat 48 (field m.bytes 6 6)) = some p →
          arrivalOf s p (BitVec.ofNat 48 (field m.bytes 6 6)) = some a → rangingLane s d (BitVec.ofNat 48 (field m.bytes 6 6)) = some r →
          byteAt m.bytes 5 ≠ 0xF0 → (domOf (sowUse m d true (sowAccepted d s)) d).quality = byteAt m.bytes 5 := by
  have ho := only_sowAccepted (ps := counting) (d := d) (by decide) (Only.refl s)
  have ha := @sowAccepted_facts d s h
  have hp := fun k sc => primaryOf_congr (ho .lanes (by decide)) (ho .groups (by decide)) (ho .settings (by decide)) k sc
  have hr : ∀ p sc, arrivalOf (sowAccepted d s) p sc = arrivalOf s p sc := fun p sc => by unfold arrivalOf laneOf; rw [ho .lanes (by decide)]
  have hl : ∀ sc, rangingLane (sowAccepted d s) d sc = rangingLane s d sc := fun sc => by unfold rangingLane usLaneOf; rw [ho .us (by decide), ho .act (by decide)]
  have hd : ∀ t u : State, t.sup.dom = u.sup.dom → supDomOf t d = supDomOf u d := fun t u e => by unfold supDomOf; rw [e]
  generalize sowAccepted d s = u at *
  refine ⟨?_, ?_⟩
  · rw [hd _ u ?_]
    · exact ha
    · unfold sowUse; dsimp only
      repeat' split
      all_goals first | with_reducible rfl | with_reducible exact bump_sup_dom | skip
      rw [servoRecord_sup, fitLook_time.2.2]
      dsimp only
      rw [bump_sup_dom]; rfl
  · intro p a r h1 h2 h3 h4
    obtain ⟨x, rtt⟩ := r
    unfold sowUse; dsimp only
    rw [hp, h1]; dsimp only
    rw [hr, h2]; dsimp only
    rw [hl, h3]; dsimp only
    rw [if_neg h4, if_neg (by decide)]
    refine (q_servoRecord (QualityStays.refl d _)).trans ?_
    unfold domOf
    rw [fitLook_time.1]
    dsimp only
    rw [only_bump (ps := counting) (by decide) (Only.refl _) .time (by decide)]
    simp [modDom, tabGet_mod]

theorem fitLane_each (k l p : Nat) (hl : l < 4) (hp : p < 4) : ∀ (L : List Nat) (u : State),
    fitLaneOf (each (fun d s =>
    let sc := match (groupOf s (timeGroup s d)).boundary with
      | some (c, _) => c - 1
      | none => 0
    let s1 := { s with time := { s.time with
        fitLane := s.time.fitLane.filter (fun p => decide (p.1 / 16 ≠ d)) } }
    fitLook d (some (fitMeans s d, sc)) s1) L u) k l p = if k ∈ L then {} else fitLaneOf u k l p := by
  intro L
  induction L with
  | nil => intro u; simp [each]
  | cons a L ih =>
    intro u
    rw [each, ih]
    have hf : ∀ t : Tab FitLane, tabGet ({} : FitLane) (t.filter (fun p => decide (p.1 / 16 ≠ a))) (k * 16 + l * 4 + p) = if k = a then {} else tabGet {} t (k * 16 + l * 4 + p) := by
      intro t
      induction t with
      | nil => simp [tabGet]
      | cons p t iht =>
        by_cases e : p.1 / 16 = a
        · rw [List.filter_cons_of_neg (by simp [e]), iht]
          split
          · rfl
          · rename_i hk
            rw [tabGet, if_neg]
            intro hp; rw [hp] at e; omega
        · rw [List.filter_cons_of_pos (by simp [e]), tabGet, tabGet, iht]
          split
          · rename_i hp
            rw [if_neg]; intro hk; apply e; rw [hp, hk]; omega
          · rfl
    unfold fitLaneOf
    rw [fitLook_time.2.1]; dsimp only
    rw [hf]
    by_cases e : k = a <;> simp [e]

theorem portOf_mod {p q : Nat} {f : Port → Port} {s : State} : portOf (modPort p f s) q = if q = p then f (portOf s p) else portOf s q := by
  unfold portOf modPort; dsimp only; rw [tabGet_mod]

theorem send_busy {p : Nat} {m : TimeMsg} {s : State} (h : (portOf s p).link = .up) (h' : (portOf s p).tx.isSome = true) : sendTime p m s = modPort p (fun x => { x with timeQ := x.timeQ ++ [m] }) s := by
  unfold sendTime; rw [if_pos h]; unfold startTime queueTime
  rw [portOf_mod, if_pos rfl]; dsimp only
  have hc : ∀ f : Port → Port, (∀ x, (f x).tx = x.tx) → canStart (modPort p f s) p = false := by
    intro f hf; unfold canStart; rw [portOf_mod, if_pos rfl]; dsimp only; rw [hf]
    cases hx : (portOf s p).tx with
    | none => rw [hx] at h'; exact absurd h' (by decide)
    | some v => simp
  exact if_neg (by rw [hc (fun x => { x with timeQ := x.timeQ ++ [m] }) (fun _ => rfl), Bool.false_and]; exact Bool.false_ne_true)

theorem ptpSend_facts {p kind : Nat} {b event one : Bool} {client : Option (BitVec 128)} {dst : Option (BitVec 48 × BitVec 128)} {m : Bytes} {s : State} (h : (portOf s p).link = .up) (h' : (portOf s p).tx.isSome = true) :
    portOf (ptpSend p kind b event one client dst m s) p = { portOf s p with timeQ := (portOf s p).timeQ ++ [⟨kind, (ptpFrame s p dst event one m).2, (ptpFrame s p dst event one m).1, b, client, one, if kind = 4 then none else ptpSource s p b, setting s sTsBoardTx (scPort p), decide (ptpProfile s p = 3)⟩] } ∧
    ∀ q, q ≠ p → portOf (ptpSend p kind b event one client dst m s) q = portOf s q := by
  unfold ptpSend
  generalize ptpFrame s p dst event one m = y
  obtain ⟨y1, y2⟩ := y; dsimp only
  rw [send_busy (s := drawn s) h h']
  refine ⟨by rw [portOf_mod, if_pos rfl]; rfl, fun q hq => by rw [portOf_mod, if_neg hq]; rfl⟩

theorem takeSeq_facts {p ty : Nat} {b : Bool} {ip : Option (BitVec 128)} {s : State} : portOf (takeSeq p b ty ip s).2 p = { portOf s p with seqs := (portOf (takeSeq p b ty ip s).2 p).seqs } ∧ (∀ q, q ≠ p → portOf (takeSeq p b ty ip s).2 q = portOf s q) ∧ (takeSeq p b ty ip s).2.settings = s.settings := by
  unfold takeSeq; dsimp only
  refine ⟨by rw [portOf_mod, if_pos rfl], fun q hq => by rw [portOf_mod, if_neg hq], rfl⟩

theorem source_congr {s v : State} (h : v.settings = s.settings) (p : Nat) (b : Bool) :
    ptpSource v p b = ptpSource s p b ∧ setting v sTsBoardTx (scPort p) = setting s sTsBoardTx (scPort p) ∧
    ptpProfile v p = ptpProfile s p := by
  have hs : ∀ (q : SSpec) (a b : Nat), setting v q a b = setting s q a b := by intro q a b; unfold setting; rw [h]
  unfold ptpSource ptpInstances ptpProfile settingN
  simp only [hs, and_self]

theorem queued_take {p kind ty : Nat} {b event one : Bool} {client : Option (BitVec 128)} {dst : Option (BitVec 48 × BitVec 128)} {m : Bytes} {s v : State} (h : (portOf s p).link = .up) (h' : (portOf s p).tx.isSome = true)
    (hv : portOf v = portOf (takeSeq p b ty client s).2) (hs : v.settings = s.settings) :
    ∃ u f, u.settings = s.settings ∧ ptpFrame u p dst event one m = f ∧
      portOf (ptpSend p kind b event one client dst m v) p = { portOf s p with seqs := (portOf (takeSeq p b ty client s).2 p).seqs, timeQ := (portOf s p).timeQ ++ [⟨kind, f.2, f.1, b, client, one, if kind = 4 then none else ptpSource s p b, setting s sTsBoardTx (scPort p), decide (ptpProfile s p = 3)⟩] } ∧
      ∀ q, q ≠ p → portOf (ptpSend p kind b event one client dst m v) q = portOf s q := by
  obtain ⟨k1, k2, k3⟩ := takeSeq_facts (p := p) (ty := ty) (b := b) (ip := client) (s := s)
  have hq := ptpSend_facts (p := p) (kind := kind) (b := b) (event := event) (one := one) (client := client) (dst := dst) (m := m) (s := v) (by rw [hv, k1]; exact h) (by rw [hv, k1]; exact h')
  refine ⟨v, _, hs, rfl, ?_, fun q h => (hq.2 q h).trans (by rw [hv]; exact k2 q h)⟩
  refine hq.1.trans ?_
  rw [hv, (source_congr hs p b).1, (source_congr hs p b).2.1, (source_congr hs p b).2.2]
  generalize portOf (takeSeq p b ty client s).2 p = z at k1 ⊢
  rw [k1]

theorem unclaim_port {p : Nat} {c : Claimed} {s : State} : portOf (unclaim p c s) p = { portOf s p with timeIn := (portOf s p).timeIn.erase c } := by
  unfold unclaim; rw [portOf_mod, if_pos rfl]

theorem bump_port {c : CtrId} {a n p : Nat} {u : State} : portOf (bump c a n u) p = portOf u p := by unfold portOf; rw [(bump_keeps c a n u).1]

theorem bump_set {c : CtrId} {a n : Nat} {u : State} : (bump c a n u).settings = u.settings := (bump_keeps c a n u).2.2.1

theorem takeStamp_unclaim {p : Nat} {c : Claimed} {s : State} {src : Option Nat} {x : BitVec 64} : ∃ v, takeStamp p src x (unclaim p c s) = ((takeStamp p src x s).1, v) ∧ portOf v = portOf (unclaim p c s) ∧ v.settings = s.settings := by
  have hk : ∃ d v, pointDistance (unclaim p c s) p = (d, v) ∧ (pointDistance s p).1 = d ∧ v.ports = (unclaim p c s).ports ∧ v.settings = s.settings := by
    unfold pointDistance
    rw [show settingN (unclaim p c s) sPortMode scDevice = settingN s sPortMode scDevice from rfl, show settingN (unclaim p c s) sFec (scPort p) = settingN s sFec (scPort p) from rfl]
    dsimp only
    split
    · exact ⟨_, _, rfl, rfl, rfl, rfl⟩
    · exact ⟨_, _, rfl, rfl, rfl, rfl⟩
  obtain ⟨d, v, h1, h2, h3, h4⟩ := hk
  refine ⟨v, ?_, by unfold portOf; rw [h3], h4⟩
  unfold takeStamp; rw [h1]
  generalize pointDistance s p = y at h2 ⊢
  obtain ⟨y1, y2⟩ := y
  dsimp only at h2; subst h2; rfl

theorem signalTlv_keeps {p : Nat} {b : Bool} {src : Option Nat} {mac : BitVec 48} {ip : BitVec 128} {ty : Nat} {v : Bytes} {s : State} :
    (portOf (signalTlv p b src mac ip ty v s).2 p).timeQ = (portOf s p).timeQ ∧ (portOf (signalTlv p b src mac ip ty v s).2 p).link = (portOf s p).link ∧ (portOf (signalTlv p b src mac ip ty v s).2 p).tx = (portOf s p).tx ∧ (signalTlv p b src mac ip ty v s).2.settings = s.settings := by
  have hd : ∀ v : State, portOf (drawn v) = portOf v := fun _ => rfl
  unfold signalTlv
  split
  · dsimp only; split
    · dsimp only; rw [bump_port, hd, bump_set]; exact ⟨rfl, rfl, rfl, rfl⟩
    · dsimp only; rw [bump_port, portOf_mod, if_pos rfl, hd, bump_set]; exact ⟨rfl, rfl, rfl, rfl⟩
  · split
    · dsimp only; rw [portOf_mod, if_pos rfl]; exact ⟨rfl, rfl, rfl, rfl⟩
    · exact ⟨rfl, rfl, rfl, rfl⟩

theorem signalTlvs_keeps {p : Nat} {b : Bool} {src : Option Nat} {mac : BitVec 48} {ip : BitVec 128} (n : Nat) : ∀ (t : Bytes) (s : State),
    (portOf (signalTlvs p b src mac ip n t s).2 p).timeQ = (portOf s p).timeQ ∧ (portOf (signalTlvs p b src mac ip n t s).2 p).link = (portOf s p).link ∧ (portOf (signalTlvs p b src mac ip n t s).2 p).tx = (portOf s p).tx ∧ (signalTlvs p b src mac ip n t s).2.settings = s.settings := by
  induction n with
  | zero => intro t s; exact ⟨rfl, rfl, rfl, rfl⟩
  | succ n ih =>
    intro t s; unfold signalTlvs
    split
    · exact ⟨rfl, rfl, rfl, rfl⟩
    · dsimp only
      have a := signalTlv_keeps (p := p) (b := b) (src := src) (mac := mac) (ip := ip) (ty := field t 0 2) (v := (t.drop 4).take (field t 2 2)) (s := s)
      generalize signalTlv p b src mac ip (field t 0 2) ((t.drop 4).take (field t 2 2)) s = y at a ⊢
      obtain ⟨r, s1⟩ := y; dsimp only at a ⊢
      have c := ih (t.drop (4 + field t 2 2)) s1
      generalize signalTlvs p b src mac ip n (t.drop (4 + field t 2 2)) s1 = z at c ⊢
      obtain ⟨rs, s2⟩ := z; dsimp only at c ⊢
      exact ⟨c.1.trans a.1, c.2.1.trans a.2.1, c.2.2.1.trans a.2.2.1, c.2.2.2.trans a.2.2.2⟩

end Sys2Proof.Machine
end

