-- ==== Sys2Proof/Tests/Slice0.lean ====
section
/-! SUPPORT. Tests: for each statement a state and operands that meet its hypotheses, an ill-formed
term for each check of WellFormed, the spec's worked examples, one step of each family. -/
namespace Sys2Proof.Tests
open Sys2Proof.Machine

/-! StepRunsFrontCommand: its hypotheses are met. -/

/-- Hypothesis of StepRunsFrontCommand. -/
theorem test_meets_step_front :
    ({ State.reset with pending := [.gaspInClear, .wakeIn] } : State).pending =
      .gaspInClear :: [.wakeIn] := by decide

/-! EmptyQueueTicks: its hypotheses are met. -/

/-- The three cases of EmptyQueueTicks. -/
theorem test_meets_tick :
    ({ State.reset with clk := { pllRunning := true } } : State).pending = [] ∧
    (State.reset.clk.pllRunning = false ∧ State.reset.clk.refclk = true) ∧
    (tick { State.reset with clk := { refclk := false } }).clk.timeline = 0 ∧
    (tick { State.reset with clk := { timeline := 0 - 100 } }).clk.era = 1 := by decide

/-! EveryStepKeepsSoundness: its hypotheses are met. -/

/-- Hypotheses of EveryStepKeepsSoundness. -/
theorem test_meets_step_sound :
    Sound { State.reset with pending := [.gaspInClear] } ∧
    (∃ t, step { State.reset with pending := [.gaspInClear] } = .next t) :=
  ⟨by unfold Sound; decide, _, rfl⟩

/-! FusesOnlyGainBits: its hypotheses are met. -/

/-- Hypothesis of FusesOnlyGainBits, with fuses burned and the reset row at the front. -/
theorem test_meets_fuses :
    (∃ t, step { State.reset with fuses := { prov := 0xFFF }, pending := [.resetNAssert] } =
      .next t ∧ t.fuses.prov = 0xFFF) := ⟨_, rfl, rfl⟩

/-! EnablesRiseOnlyByBurstEnable: its hypotheses are met. -/

/-- Hypotheses of EnablesRiseOnlyByBurstEnable. -/
theorem test_meets_enables :
    (∀ x rest, ({ State.reset with pending := [.gaspInClear] } : State).pending ≠
      .burstEnable x :: rest) ∧
    (∃ t, step { State.reset with pending := [.gaspInClear] } = .next t) :=
  ⟨by simp, _, rfl⟩

/-! KeysEnterOnlyByKeyRequestCommit: its hypotheses are met. -/

/-- Hypotheses of KeysEnterOnlyByKeyRequestCommit. -/
theorem test_meets_keys :
    (∀ rest, ({ State.reset with pending := [.keyErase] } : State).pending ≠
      .keyRequestCommit :: rest) ∧
    (∃ t, step { State.reset with pending := [.keyErase] } = .next t) :=
  ⟨by simp, _, rfl⟩

/-! CommandsLeaveTheTimeline: its hypotheses are met. -/

/-- Hypotheses of CommandsLeaveTheTimeline. -/
theorem test_meets_timeline :
    Instr.resetNAssert ≠ .timelineWrap ∧ Instr.resetNAssert ≠ .vddAonPowerOn ∧
    (∃ t, exec .resetNAssert State.reset = .next t) := ⟨by decide, by decide, _, rfl⟩

/-! BootTriesTheNamedImageThenTheOther: its hypotheses are met. -/

/-- Hypotheses of BootTriesTheNamedImageThenTheOther: both outcomes of the first image, and none. -/
theorem test_meets_boot :
    (State.reset.win.bootStatus.toNat ≤ 1 ∧ State.reset.pins.inReset = false ∧
      State.reset.clk.refclk = true) ∧
    (bootCheck (.outside ⟨0, 7⟩ ⟨1, 0⟩) State.reset false).result = 0 ∧
    ((bootCheck (.outside ⟨2, 7⟩ ⟨0, 9⟩) State.reset false).result ≠ 0 ∧
      (bootCheck (.outside ⟨2, 7⟩ ⟨0, 9⟩) State.reset true).result = 0) ∧
    (bootCheck (.outside ⟨1, 0⟩ ⟨4, 0⟩) State.reset false).result ≠ 0 ∧
    (bootCheck (.outside ⟨1, 0⟩ ⟨4, 0⟩) State.reset true).result ≠ 0 := by decide

/-! ClockReferencesComeAndGo: its hypotheses are met. -/

/-- Hypotheses of ClockReferencesComeAndGo, clause by clause. -/
theorem test_meets_clocks :
    (State.reset.clk.refclk = true ∧ State.reset.pins.inReset = false ∧
      (State.reset.pwr.st = .deepFallow → State.reset.pwr.phase = .waking)) ∧
    (({ pllRunning := true } : Clk).refclk = true) ∧ (∀ x, (usLaneOf State.reset x).bursts = []) ∧
    State.reset.reeve.events.length < 64 ∧ State.reset.clk.pllRunning = false ∧
    ({ ref := .hold } : Clk).ref = .hold ∧ State.reset.clk.ref ≠ .hold ∧
    State.reset.clk.hrefclk = true := by
  refine ⟨by decide, by decide, fun _ => rfl, by decide⟩

/-! CodewordsKeepOrLoseTheAlignment: its hypotheses are met. -/

/-- A lane in a state given. -/
def laneIn (x : Lane) : State := { State.reset with lanes := [(0, x)] }
/-- Hypotheses of AcquisitionStartsFromAMarker: a lane of each kind. -/
theorem test_meets_acquisition :
    ((laneOf (laneIn { st := .hunt }) 0).st ≠ .off ∧ (laneOf (laneIn { st := .hunt }) 0).st ≠ .dormant) ∧
    (laneOf State.reset 0).st = .off ∧ (laneOf (laneIn { st := .hunt }) 0).st = .hunt ∧
    (laneOf (laneIn { st := .hunt }) 0).slots.length < 8 ∧
    8 ≤ (laneOf (laneIn { st := .verify, slots := List.replicate 8 { start := 0 } }) 0).slots.length ∧
    (laneOf (laneIn { st := .resume }) 0).st = .resume ∧ (laneOf State.reset 0).st ≠ .resume ∧
    (let s := putSetting sLaneEnable (scLrx 0) 0 1 (putSetting sCtleMode (scLrx 0) 0 1
        (laneIn { st := .hunt, cdrLocked := true }))
     laneEnabled s 0 = true ∧ (laneOf s 0).cdrLocked = true ∧
       settingB s sCtleMode (scLrx 0) = true) := by decide
set_option maxRecDepth 20000 in
/-- Hypotheses of CodewordsKeepOrLoseTheAlignment about a lane, beside those about the word. -/
theorem test_meets_codewords :
    (laneOf State.reset 0).cdrLocked = false ∧
    (let x : Lane := { st := .lock, cdrLocked := true, pos := 3 }
     isLocked x = true ∧ x.cdrLocked = true ∧ heldPos x (BitVec.ofNat 64 (3 * cwGrains)) = some 3 ∧
     heldPos x (BitVec.ofNat 64 (1250 * cwGrains)) = some 1250) ∧
    State.reset.pwr.listening.getLsbD 0 = false ∧
    (let x : Lane := { st := .miss2 }
     isLocked x = true ∧ x.cdrLocked = false) ∧
    (laneOf (laneIn { st := .verify, cdrLocked := true }) 0).st = .verify ∧
    (runSlots 0 none [{ start := 0 }]).2.2 = none ∧ (runSlots 0 none [{ start := 0 }]).1 = [] := by decide
/-- A codeword 0 with a valid header and marker satisfies the hypotheses on the word's decoding. -/
theorem test_meets_codeword0 :
    headerOk { txLane := 1 } 0 { corrected := 0, index := 0, txLane := 1, hcrcOk := true, payload := markerBytes } = true ∧
    markerBytes.take 8 = markerBytes := by decide

/-! LotsAreReleasedInKeyOrder: its hypotheses are met. -/

/-- A lane holding one complete lot of group 0 with BSEQ 5, everything before it decoded. -/
def oneLot : State :=
  { State.reset with lanes := [(0, { st := .lock, included := true, everIncluded := true, sc := 1, group := some 0
                                     waiting := [{ key := ⟨0, 0, 24, 0⟩, hdr := 5120, payload := [] }] }),
                               (1, { group := some 1 }), (2, { group := some 2 }), (3, { group := some 3 })] }
/-- Hypotheses of LotsAreReleasedInKeyOrder: a release, none, and both contexts. -/
theorem test_meets_release :
    nextRelease State.reset 0 = none ∧
    nextRelease oneLot 0 = some (0, { key := ⟨0, 0, 24, 0⟩, hdr := 5120, payload := [] }) ∧
    bseqAhead { expected := some 5 } { key := ⟨0, 0, 24, 0⟩, hdr := 5120, payload := [] } = 0 ∧
    bseqAhead { expected := some 6 } { key := ⟨0, 0, 24, 0⟩, hdr := 5120, payload := [] } = 4095 ∧
    (let s := { State.reset with reasm := [(7, { open_ := true, boundaries := 8 })] }
     (reasmOf s 7).open_ = true ∧ 8 ≤ (reasmOf s 7).boundaries) ∧
    (reasmOf State.reset 7).open_ = false := by decide

/-! PlantReportsAndManagementLotsAreTaken: its hypotheses are met. -/

/-- A lot for the Reeve or the time block, of group 0. -/
def boxed (n : Nat) : Delivered :=
  { lotId := 9, label := 8, keyIdx := 0, group := 0, cls := 0, key := ⟨0, 0, 24, 0⟩, bytes := List.replicate n 0 }
/-- Hypotheses of PlantReportsAndManagementLotsAreTaken. -/
theorem test_meets_taken :
    (takeLot 0 [boxed 64] = some (boxed 64, []) ∧ plantOk 0 (boxed 64) State.reset = true) ∧
    (takeLot 0 [boxed 8] = some (boxed 8, []) ∧ reeveRuns State.reset = true ∧
      State.reset.pair.st = .solo ∧ (boxed 8).bytes.length = 8 ∧ (boxed 7).bytes.length = 7 ∧
      lifeCycle State.reset ≠ 2 ∧ (mgmtQueue State.reset 0).length < 16) ∧
    (lifeCycle { State.reset with sec := { lc := 2 } } = 2 ∧ (boxed 8).keyIdx = 0) ∧
    16 ≤ (mgmtQueue { State.reset with reeve := { mgmt0 := List.replicate 16 ⟨0, 0, []⟩ } } 0).length := by
  decide

/-! SwathBoundariesApplyWhatWaits: its hypotheses are met. -/

/-- Hypotheses of SwathBoundariesApplyWhatWaits. -/
theorem test_meets_boundary :
    (includedOf State.reset 0).isEmpty = true ∧ (includedOf oneLot 0).isEmpty = false ∧
    (lanesOf oneLot 0).contains (timingLane oneLot) = true ∧
    (let s := { oneLot with lanes := [(0, { included := true })], settings := tabSet none [] (setKey sTimingLane 0 scDevice) (some 2) }
     (includedOf s 0).isEmpty = false ∧ (lanesOf s 0).contains (timingLane s) = false ∧ s.act.dual = false ∧
       (instOf s 0).todo = [] ∧ s.act.pendingSwitch = none) := by decide

/-! FurrowMapEntriesAreCheckedThenStored: its hypotheses are met. -/

/-- A group whose swath 5 came in on lane 0, and plot 7 in the plot table. -/
def mapped : State :=
  { State.reset with
    lanes := [(0, { st := .lock, included := true, arrivals := [⟨5, 1000, false⟩] })]
    groups := [(0, { primaries := [(5, some 0)] })]
    act := { plots := [(7, 1)] } }
/-- An entry with its CRC: PLOT_ID, LANE, START, DURATION. -/
def mapEntry (plot lane start dur : Nat) : BitVec 128 :=
  let w := plot * 2 ^ 98 + lane * 2 ^ 97 + start * 2 ^ 68 + dur * 2 ^ 45
  BitVec.ofNat 128 (w * 65536 + crc16 (bitsOfNat 112 w))
set_option maxRecDepth 100000 in
/-- Hypotheses of FurrowMapEntriesAreCheckedThenStored, clause by clause. -/
theorem test_meets_furrow_map :
    primaryOf State.reset 0 5 = none ∧ primaryOf mapped 0 5 = some 0 ∧
    arrivalOf mapped 0 6 = none ∧ arrivalOf mapped 0 5 = some 1000 ∧
    (let e := (mapEntry 7 0 100 20000).toNat
     crc16 (bitsOfNat 112 (e / 65536)) = bits e 15 0 ∧ bits e 127 114 = 7 ∧ bits e 83 61 = 20000) ∧
    crc16 (bitsOfNat 112 (1 / 65536)) ≠ bits 1 15 0 ∧
    tabGet 0 mapped.act.plots 7 = groupOwner mapped 0 + 1 ∧
    entryInvalid 100 20000 7 false false 0 = false ∧ entryInvalid 100 1 7 false false 0 = true ∧
    groupOwner mapped 0 = 0 ∧ (usLaneOf mapped 0).furrows = [] := by decide

/-! BurstsOpenAndCloseTheGate: its hypotheses are met. -/

/-- An upstream lane in a state given. -/
def ltxIn (l : UsLane) : State := { State.reset with us := { lane := [(0, l)] } }
/-- A furrow at a stage, of plot `p`. -/
def furrowAt (p : BitVec 14) (rw : Bool) (dur stage : Nat) : Furrow :=
  { plot := p, so := false, rr := false, mp := rw, rw := rw, pre := 0, dur := dur, s := 100000, sc := 5,
    eqd := 0, group := 0, arr := 0, stage := stage }
/-- A burst of a furrow, with nothing in it. -/
def burstAt (f : Furrow) (sending : Bool) : Burst :=
  { furrow := f, hdr := [], msg := none, lots := [], len := 1000, k := 0, j := 1, statusOnly := true, sending := sending }
/-- Hypotheses of BurstsOpenAndCloseTheGate. -/
theorem test_meets_bursts :
    (usLaneOf State.reset 0).furrows.find? (fun f => f.stage == 0) = none ∧
    (let f := furrowAt 0x3FFF true 60000 0
     (usLaneOf (ltxIn { furrows := [f] }) 0).furrows.find? (fun f => f.stage == 0) = some f ∧
     isAnnounce f = true ∧ (instOf State.reset 0).stBurst ≠ .announce ∧ windowUsable f = true ∧
     freshMap State.reset f = true) ∧
    (let s := { State.reset with act := { inst := [(0, { stBurst := .announce, annOpen := true, backoff := 3 })] } }
     (instOf s 0).stBurst = .announce ∧ (instOf s 0).annOpen = true ∧ 0 < (instOf s 0).backoff) ∧
    (let f := furrowAt 0 true 20000 0
     isAnnounce f = false ∧ isRanging State.reset 0 f = true ∧ (instOf State.reset 0).stBurst ≠ .ranging ∧
     (instOf State.reset 0).stBurst ≠ .operating) ∧
    (let f := furrowAt 7 false 0 0
     isAnnounce f = false ∧ isRanging State.reset 0 f = false ∧ f.dur = 0) := by decide
/-- The enable and the watchdogs. -/
theorem test_meets_enable :
    (let f := furrowAt 7 false 0 1
     let s := ltxIn { furrows := [f] }
     (usLaneOf s 0).furrows.find? (fun f => f.stage == 1) = some f ∧
     gateOpen (setStage 0 f 2 (endBurst 0 s)) 0 f = false ∧ (usLaneOf s 0).ben = false) ∧
    (∀ b, (usLaneOf State.reset 0).bursts.head? = some b → b.sending = false) ∧
    (usLaneOf (ltxIn { bursts := [burstAt (furrowAt 7 false 0 2) true], ben := true }) 0).bursts =
      burstAt (furrowAt 7 false 0 2) true :: [] ∧
    ((usLaneOf (ltxIn { ben := true }) 0).ben = true ∧ (usLaneOf (ltxIn { ben := true }) 0).wdTrip = false) ∧
    (usLaneOf (ltxIn { wdMonitor := true }) 0).wdMonitor = true := by
  refine ⟨by decide, fun b h => by simp [usLaneOf, State.reset, tabGet] at h, by decide⟩
/-- The gate open at the enable of a burst laid out, and a frame part sent. -/
theorem test_meets_gate :
    (let f := furrowAt 7 false 0 1
     let s := { ltxIn { enabled := true, eqdAssigned := true, furrows := [f], bursts := [burstAt f false] } with
       clk := { timeline := 99990, pllRunning := true, onFio := false }
       lanes := [(0, { st := .lock, cdrLocked := true, group := some 0 })]
       act := { plots := [(7, 1)], inst := [(0, { st := .operating, stBurst := .operating, enabled := true })] } }
     let s0 := setStage 0 f 2 (endBurst 0 s)
     grainCome s (enableGrain s 0 f) = true ∧ gateOpen s0 0 f = true ∧ (burstOf s0 0 f).isSome = true ∧
     grainCome State.reset (enableGrain State.reset 0 f) = false) ∧
    (let s := { State.reset with qos := { us := [(3, { frames := [{ bytes := [1, 2], bushels := 1, sent := 1 }] })] } }
     (usOf s 3).frames = { bytes := [1, 2], bushels := 1, sent := 1 } :: [] ∧
     ∀ f, (usOf s 4).frames.head? = some f → f.sent = 0) := by
  refine ⟨by decide, by decide, fun f h => by simp [usOf, tabGet] at h⟩

/-! FieldMessagesAreCheckedBeforeTheyAct: its hypotheses are met. -/

/-- The first 40 bytes of a message to all, and its CRC as TAG (R134). -/
def bcast (b : Bytes) : Bytes :=
  let b40 := (b ++ List.replicate 40 0).take 40
  b40 ++ natBytes 8 (crc64 b40)
/-- A message of swath 5 on lane 0 of group 0. -/
def msgOf (b : Bytes) : FieldMsg := { group := 0, lane := 0, sc := 5, index := 0, bytes := b }
/-- A message to TERMINAL_ID 7 of the type and sequence given, with the TAG its receiver forms. -/
def msgTo (s : State) (type seq : BitVec 8) (b : Bytes) : FieldMsg :=
  let b40 := ([0, 7, type, seq] ++ b ++ List.replicate 40 0).take 40
  msgOf (b40 ++ fmTag s 0 (downMsgNonce s (msgOf b40)) b40)
/-- The instance of `mapped` as TERMINAL_ID 7, in a state given. -/
def asSeven (y : Inst) : State :=
  { mapped with act := { mapped.act with inst := [(0, { y with terminalId := 7, opRev := 0x0200 })] } }
set_option maxRecDepth 100000 in
/-- Hypotheses of FieldMessagesAreCheckedBeforeTheyAct. -/
theorem test_meets_checks :
    (let m := msgOf (bcast [0xFF, 0xFF, 1, 0])
     msgType m = 1 ∧ msgPrimary mapped m = true ∧ mapped.pwr.listening = 0 ∧ msgTid m = 0xFFFF ∧
     tagOk mapped 0 m = true ∧ tagOk mapped 0 (msgOf (bcast [0xFF, 0xFF, 1, 0] ++ [1])) = true ∧
     tagOk mapped 0 (msgOf [0xFF, 0xFF, 1, 0]) = false ∧
     msgPrimary State.reset m = false ∧ msgDefined 0x3F = false ∧ msgDefined 1 = true) := by decide
/-- The sequence checks, whatever the TAG. -/
theorem test_meets_sequence :
    (instOf (asSeven { lastSeq := some 9 }) 0).lastSeq = some 9 ∧ 128 ≤ ((5 : BitVec 8) - 9).toNat ∧
    msgTid (msgTo (asSeven {}) 4 9 []) = 7 ∧ msgSeq (msgTo (asSeven {}) 4 9 []) = 9 := by
  refine ⟨by decide, by decide, ?_, ?_⟩ <;> rfl

/-! AdmittedMessagesAct: its hypotheses are met. -/

/-- The line serial 77 of a pair (R492). -/
def serial77 (s : State) : State := putSetting sPairSerial scDevice 0 77 (putSetting sPaired scDevice 0 1 s)
/-- `Admitted` of a message to all in `mapped`, whatever its instance. -/
theorem admitted_all (y : Inst) (b : Bytes) (h1 : msgTid (msgOf (bcast b)) = 0xFFFF)
    (h2 : tagOk (asSeven y) 0 (msgOf (bcast b)) = true) : Admitted (msgOf (bcast b)) (asSeven y) :=
  ⟨rfl, rfl, h2, .inl h1⟩
/-- `Admitted` of a message to TERMINAL_ID 7 that has heard none before. -/
theorem admitted_seven (st p : ActState) (m : FieldMsg) (h0 : m.group = 0 ∧ m.lane = 0 ∧ m.sc = 5)
    (h1 : msgTid m = 7) (h2 : tagOk (asSeven { st := st, prior := p }) 0 m = true) :
    Admitted m (asSeven { st := st, prior := p }) := by
  obtain ⟨g, l, sc, ix, b⟩ := m
  obtain ⟨rfl, rfl, rfl⟩ := h0
  exact ⟨rfl, rfl, h2, .inr ⟨h1, fun q h => by cases h⟩⟩
set_option maxRecDepth 100000 in
/-- Hypotheses of AdmittedMessagesAct for the two messages to all. -/
theorem test_meets_to_all :
    (let b := [0xFF, 0xFF, 1, 0, 0, 0, 0, 9, 0, 0, 0xFF, 0xFF, 3]
     let s := asSeven { enabled := true }
     Admitted (msgOf (bcast b)) s ∧ msgType (msgOf (bcast b)) = 1 ∧ (instOf s 0).st = .listen ∧
     instLocked s 0 = true ∧ field (bcast b) 8 2 ≤ (revRange s).2 ∧
     (revRange s).1 ≤ field (bcast b) 10 2 ∧
     Admitted (msgOf (bcast b)) (asSeven { st := .holdover }) ∧
     instLocked (asSeven { st := .holdover }) 0 = true) ∧
    (let s := serial77 (asSeven { st := .announce })
     let b := [0xFF, 0xFF, 2, 0] ++ lineSerial s ++ [0, 7, 0, 9, 1, 0]
     Admitted (msgOf (bcast b)) s ∧ msgType (msgOf (bcast b)) = 2 ∧
     serialMatches s (msgOf (bcast b)) = true ∧ field (bcast b) 12 2 = 7 ∧
     (revRange s).1 ≤ field (bcast b) 16 2 ∧ field (bcast b) 16 2 ≤ (revRange s).2) ∧
    (let s := serial77 (asSeven { st := .silenced, prior := .operating })
     let b := [0xFF, 0xFF, 8, 0] ++ lineSerial s
     Admitted (msgOf (bcast b)) s ∧ serialMatches s (msgOf (bcast b)) = true) := by
  refine ⟨⟨admitted_all _ _ (by decide) (by decide), by decide, by decide, by decide, by decide, by decide, admitted_all _ _ (by decide) (by decide), by decide⟩, ⟨⟨by decide, by decide, by decide, .inl (by decide)⟩, by decide, by decide, by decide, by decide, by decide⟩, ⟨by decide, by decide, by decide, .inl (by decide)⟩, by decide⟩
set_option maxRecDepth 100000 in
/-- Hypotheses of AdmittedMessagesAct for RANGING_TIME, ASSIGN_PLOT and ASSIGN_LOT. -/
theorem test_meets_assigned :
    (let s := asSeven { st := .ranging }
     let m := msgTo s 3 1 [2, 0, 0, 0, 0x05, 0xAC, 0xA3, 0]
     Admitted m s ∧ msgType m = 3 ∧ msgTid m ≠ 0xFFFF ∧ field m.bytes 8 4 = 95200000 ∧
     ltxOwner s ((byteAt m.bytes 4).toNat % 2) = 0 ∧ (byteAt m.bytes 4).getLsbD 1 = true) ∧
    (let s := asSeven { st := .operating }
     let m := msgTo s 4 1 [1, 0, 0, 8]
     Admitted m s ∧ msgType m = 4 ∧ field m.bytes 6 2 % 16384 = 8 ∧
     tabGet 0 s.act.plots 8 = 0 ∧ s.act.plots.length < 256 ∧ tabGet 0 s.act.plots 7 = 0 + 1) ∧
    (let s := asSeven { st := .operating }
     let m := msgTo s 5 1 [1, 0, 0, 12, 8, 1, 0]
     Admitted m s ∧ msgType m = 5 ∧ field m.bytes 6 2 = 12 ∧ (byteAt m.bytes 4).getLsbD 0 = true ∧
     byteAt m.bytes 8 ≠ 0 ∧ labelReserved (byteAt m.bytes 8).toNat = false ∧
     (lotOf s 12).present = false ∧ s.lots.length < 4096) := by
  refine ⟨⟨admitted_seven _ _ _ ⟨rfl, rfl, rfl⟩ (by decide) (by decide), by decide, by decide, by decide, by decide, by decide⟩,
    ⟨admitted_seven _ _ _ ⟨rfl, rfl, rfl⟩ (by decide) (by decide), by decide, by decide, by decide, by decide, by decide⟩,
    ⟨admitted_seven _ _ _ ⟨rfl, rfl, rfl⟩ (by decide) (by decide), by decide, by decide, by decide, by decide, by decide, by decide, by decide⟩⟩
set_option maxRecDepth 100000 in
/-- Hypotheses of AdmittedMessagesAct for DEACTIVATE, SILENCE, RELEASE, TUNE and SWITCH_PARENT. -/
theorem test_meets_changes :
    (let s := asSeven { st := .operating }
     Admitted (msgTo s 6 1 []) s ∧ msgType (msgTo s 6 1 []) = 6 ∧
     Admitted (msgTo s 7 1 []) s ∧ msgType (msgTo s 7 1 []) = 7 ∧ msgTid (msgTo s 7 1 []) = 7) ∧
    (let s := asSeven { st := .silenced, prior := .operating }
     Admitted (msgTo s 8 1 []) s ∧ msgType (msgTo s 8 1 []) = 8 ∧ instLocked s 0 = true) ∧
    (let s := asSeven { st := .operating }
     let m := msgTo s 9 1 [0, 3, 0, 5]
     Admitted m s ∧ msgType m = 9 ∧ (instOf s 0).opRev ≠ 0x0100 ∧ byteAt m.bytes 5 = 3 ∧
     (BitVec.ofNat 16 (field m.bytes 6 2)).toInt = 5 ∧
     ltxOwner s ((byteAt m.bytes 4).toNat % 2) = 0) ∧
    (let s0 := asSeven { st := .operating }
     let s := { s0 with act := { s0.act with
       dual := true, inst := [(0, { st := .operating, terminalId := 7, opRev := 0x0200 }), (1, { st := .operating })] } }
     let m := msgTo s 10 1 [1]
     Admitted m s ∧ msgType m = 10 ∧ groupOwner s m.group = 0 ∧ s.act.dual = true ∧
     (byteAt m.bytes 4).toNat % 2 = 1 ∧ s.act.working = 0 ∧ (instOf s 1).st = .operating) := by
  refine ⟨⟨admitted_seven _ _ _ ⟨rfl, rfl, rfl⟩ (by decide) (by decide), by decide, admitted_seven _ _ _ ⟨rfl, rfl, rfl⟩ (by decide) (by decide), by decide, by decide⟩,
    ⟨admitted_seven _ _ _ ⟨rfl, rfl, rfl⟩ (by decide) (by decide), by decide, by decide⟩,
    ⟨admitted_seven _ _ _ ⟨rfl, rfl, rfl⟩ (by decide) (by decide), by decide, by decide, by decide, by decide, by decide⟩,
    ⟨⟨by decide, by decide, by decide, .inr ⟨by decide, fun q h => ?_⟩⟩, by decide, by decide, by decide, by decide, by decide, by decide⟩⟩
  cases h

/-! ActivationTimersExpire: its hypotheses are met. -/

/-- Hypotheses of ActivationTimersExpire, clause by clause. -/
theorem test_meets_act_timers :
    (State.reset.pwr.st = .run) ∧ ({ toProfile := true } : Inst).toProfile = true ∧
    (instOf (asSeven { st := .ranging, toRange := true, toHold := false }) 0).toRange = true ∧
    (instOf (asSeven { st := .holdover, toHold := true }) 0).toHold = true ∧
    (let s := asSeven { st := .tuning, toTune := true }
     let u := { s with us := { s.us with lane := [(0, { tuneStep := 1 })] } }
     (instOf u 0).st = .tuning ∧ (instOf u 0).toTune = true ∧ (instOf u 0).silencePending = none ∧
     (usLaneOf u 0).tuneStep = 1 ∧ instLocked u 0 = true) ∧
    (let s := asSeven { st := .tuning, toTune := true }
     (usLaneOf { s with us := { s.us with lane := [(0, { tuneStep := 2 })] } } 0).tuneStep = 2) ∧
    (let s := asSeven { st := .silenced, durRunning := true, prior := .operating }
     (instOf s 0).durRunning = true ∧ (instOf s 0).st = .silenced ∧ instLocked s 0 = true ∧
     (instOf s 0).prior = .operating) ∧
    (instOf State.reset 0).durRunning = false ∧ (instOf State.reset 0).toTune = false := by decide

/-! SupervisionNotesDefects: its hypotheses are met. -/

/-- A lane whose equipment is enabled, in the lane state given. -/
def laneOn (x : Lane) : State := putSetting sLaneEnable (scLrx 0) 0 1 (laneIn x)
/-- Hypotheses of SupervisionNotesDefects, clause by clause. -/
theorem test_meets_defects :
    (let s := laneOn { st := .lock, delin := .wait }
     laneEnabled s 0 = true ∧ (laneOf s 0).st ≠ .dormant ∧ (supLaneOf s 0).los = false ∧
     s.reeve.events.length < 64 ∧ isLocked (laneOf s 0) = true ∧ (laneOf s 0).delin = .wait ∧
     ({ delin := .delineated } : Lane).delin = .delineated) ∧
    (let s0 := putSetting sDomEnable (scDom 0) 0 1 State.reset
     let s := { s0 with sup := { s0.sup with dom := [(0, { ltm := false })] } }
     domEnabled s 0 = true ∧ (supDomOf s 0).ltm = false ∧ actTimersRun s = true ∧
     (supDomOf State.reset 0).ltm = true) ∧
    (let s := { State.reset with sup := { State.reset.sup with inst := [(0, { holdStart := some 9 })] } }
     (supInstOf s 0).holdStart.isSome = true ∧ s.act.working = 0 ∧
     (supInstOf State.reset 0).holdStart = none) ∧
    State.reset.pwr.st ≠ .fallow ∧ State.reset.pwr.st ≠ .deepFallow ∧
    State.reset.pins.inReset = false ∧ ({ inReset := true } : Pins).inReset = true := by
  refine ⟨⟨by decide, by decide, by decide, by decide, by decide, by decide, by decide⟩, ⟨by decide, by decide, by decide, by decide⟩, ⟨by decide, by decide, by decide⟩, by decide, by decide, by decide, by decide⟩

/-! TimeIsKeptByItsEvents: its hypotheses are met. -/

/-- Domain 0 enabled from source 0, its TAF clear, and a lane that is ranged. -/
def timed : State :=
  let s := putSetting sDomEnable (scDom 0) 0 1 { mapped with sup := { mapped.sup with dom := [(0, { ltm := false, taf := false })] } }
  { s with us := { s.us with lane := [(0, { rtts := [(1, 5)] })] } }
/-- TIME_SOW to all, of reference swath 5. -/
def sowMsg : FieldMsg :=
  msgOf (bcast ([0xFF, 0xFF, 0x40, 0, 0, 1] ++ natBytes 6 5 ++ List.replicate 12 0))
set_option maxRecDepth 100000 in
/-- Hypotheses of TimeIsKeptByItsEvents: TIME_SOW. -/
theorem test_meets_sow :
    Admitted sowMsg timed ∧ msgType sowMsg = 0x40 ∧ msgTid sowMsg = 0xFFFF ∧
    ([0, 1].filter fun k => domEnabled timed k &&
        domSrc timed k == bit ((byteAt sowMsg.bytes 4).getLsbD 7) &&
        timeGroup timed k == sowMsg.group.val) = [0] ∧
    targetKey timed 4 0 0 = none ∧ (supDomOf timed 0).taf = false ∧
    field sowMsg.bytes 18 6 % 2 ^ 36 < 53125000000 ∧
    (sowMsg.sc - BitVec.ofNat 48 (field sowMsg.bytes 6 6)).toNat ≤ 15 ∧
    primaryOf timed 0 5 = some 0 ∧ arrivalOf timed 0 5 = some 1000 ∧
    rangingLane timed 0 5 = some (0, 5) ∧ byteAt sowMsg.bytes 5 ≠ 0xF0 := by
  refine ⟨⟨by decide, by decide, by decide, .inl (by decide)⟩, by decide, by decide, by decide, by decide, by decide, by decide, by decide, by decide, by decide, by decide, by decide⟩
/-- Hypotheses of TimeIsKeptByItsEvents: the other clauses. -/
theorem test_meets_time :
    (let s := { State.reset with time := { State.reset.time with dom := [(0, { st := .holdover }), (1, { st := .locked })], offset := 3 } }
     (domOf s 0).st = .holdover ∧ (domOf s 1).st = .locked ∧ s.time.offset ≠ 0 ∧ s.time.runOn = none ∧
     s.reeve.events.length < 64) ∧
    (let s := putSetting sPpsInEnable scDevice 0 1 State.reset
     settingB s sPpsInEnable scDevice = true ∧ s.time.lastPpsIn = none ∧ s.time.ppsInLost = false ∧
     tlDiff 5 9 < 26562500000) ∧
    settingB State.reset sPpsInEnable scDevice = false ∧
    (let s := { State.reset with time := { State.reset.time with dom := [(0, { hasValue := true })], outHas := true, pendingTod := some [] } }
     (outTime s (now s)).isSome = true ∧ s.pwr.st ≠ .deepFallow ∧ s.time.lastEdge = none ∧
     s.time.pendingTod = some []) := by decide

/-! PortsFollowTheirLinks: its hypotheses are met. -/

/-- Port 0 in a state given. -/
def portIn (x : Port) : State := { State.reset with ports := [(0, x)] }
/-- Hypotheses of PortsFollowTheirLinks, clause by clause. -/
theorem test_meets_links :
    (let s := portIn { link := .down }
     (portOf s 0).link ≠ .disabled ∧ s.clk.hrefclk = true) ∧
    (portOf (portIn { link := .disabled }) 0).link = .disabled ∧
    (portOf (portIn { link := .rising, pcsUp := true }) 0).link = .rising ∧
    (let s := portIn { link := .up, pcsUp := true, locks := 1 }
     (portOf s 0).link = .up ∧ (portOf s 0).pcsUp = true ∧ (portOf s 0).rx = none ∧
     s.pwr.intakeStopped = false ∧ (portLanes s 0).length = 1 ∧
     (portOf s 0).locks.getLsbD 0 = true ∧ (portOf s 0).hiBer = false ∧
     lanePort s 0 = (0, 0)) ∧
    (portOf (portIn { link := .fault, pcsUp := true }) 0).link = .fault ∧
    (let s := putSetting sSlCtleMode (scSlane 0) 0 1 (portIn { locks := 1 })
     setting s sSlCtleMode (scSlane 0) = 1 ∧ (slaneOf s 0).code < settingN s sSlAdaptMax (scSlane 0) ∧
     settingN s sSlAdaptMin (scSlane 0) <
       (slaneOf { s with slanes := [(0, { code := settingN s sSlAdaptMin (scSlane 0) + 1 })] } 0).code) := by
  decide

/-! FramesEnterAndLeavePorts: its hypotheses are met. -/

/-- A receiver that took `b` bushels. -/
def rxWith (b : Nat) : RxState :=
  { capture := 0, filters := [], defaultDrop := false, defaultClass := 0, maxFrame := 1518, bushels := b, noBuf := false }
/-- Port 0 with a frame in reception. -/
def rxIn (b : Nat) : State :=
  portIn { link := .up, pcsUp := true, rx := some (rxWith b) }
/-- A frame of 64 bytes with its FCS, of the EtherType given. -/
def frame64 (ty : Nat) : RxFrame :=
  { bytes := withFcs (List.replicate 12 0 ++ natBytes 2 ty ++ [0, 1, 0, 9] ++ List.replicate 42 0), blockErrs := 0,
    blockErrsBefore := 0, gapIdles := 0, gapSets := [], idleInserted := 0, idleDeleted := 0, fecCorrected := 0, fecSymbols := 0, fecUncorrectable := 0 }
set_option maxRecDepth 100000 in
/-- Hypotheses of FramesEnterAndLeavePorts: reception. -/
theorem test_meets_received :
    (portOf (rxIn 1) 0).rx = some (rxWith 1) ∧
    (let f := frame64 0x0800
     f.bytes.length = 64 ∧ f.blockErrs = 0 ∧ (portOf (rxIn 1) 0).pcsUp = true ∧
     fcsOk f.bytes = true ∧ field f.bytes 12 2 ≠ 0x8808 ∧
     claimFrame 0 (f.bytes.take (f.bytes.length - 4))
       (tlAdd 0 (-(setting (rxIn 1) sTsBoardRx (scPort 0)))) (rxIn 1) = none ∧
     timeOnly (rxIn 1) = false ∧ filterFind (rxIn 1) 0 f.bytes 0 [] = none ∧
     bushelsOf f.bytes.length ≤ 1) ∧
    (let f := frame64 0x8808
     let s := putSetting sPauseRx (scPort 0) 0 1 (rxIn 1)
     f.bytes.length = 64 ∧ fcsOk f.bytes = true ∧ field f.bytes 12 2 = 0x8808 ∧
     field f.bytes 14 2 = 1 ∧ field f.bytes 16 2 ≠ 0 ∧ settingB s sPauseRx (scPort 0) = true) ∧
    fcsOk [1, 2, 3, 4] = false ∧ (portOf State.reset 0).rx = none := by
  refine ⟨rfl, ⟨by decide, by decide, by decide, by decide, by decide, rfl, by decide, by decide, by decide⟩, ⟨by decide, by decide, by decide, by decide, by decide, by decide⟩, by decide, by decide⟩
/-- A packet of port 0, with 64 bytes. -/
def pkt0 : Pkt :=
  { src := 0, osrc := 0, port := 0, cls := 0, recirc := false, gen := 0, lotId := 0, label := 0, keyIdx := 0, era := 0,
    tl := 0, desc := [], body := List.replicate 64 0, tpl := 0, fcs := [], bushels := 1 }
/-- A queue of port 0 with one frame, and its port. -/
def txIn : State :=
  let s := portIn { link := .up, pcsUp := true }
  { s with qos := { s.qos with ds := [(0, { frames := [{ bytes := List.replicate 60 0 }] })] } }
set_option maxRecDepth 100000 in
/-- Hypotheses of FramesEnterAndLeavePorts: transmission and the trap queue. -/
theorem test_meets_sent :
    ((portOf (portIn { tx := some { bytes := [], queue := none } }) 0).tx.isSome = true) ∧
    (portOf State.reset 0).tx = none ∧ canStart State.reset 0 = false ∧
    (let s := portIn { link := .up, timeQ := [{ kind := 2, bytes := [], ptpAt := 0, instB := false }] }
     canStart s 0 = true ∧ (portOf s 0).timeQ.length = 1) ∧
    (canStart txIn 0 = true ∧ (portOf txIn 0).timeQ = [] ∧
     (∀ c < 8, headBad txIn 0 (0 * 8 + c) = none) ∧ shaperOpen txIn (scPort 0) = true ∧
     (dsPick txIn 0).map (·.1) = some 0 ∧ (dsOf txIn 0).frames = [{ bytes := List.replicate 60 0 }]) ∧
    (State.reset.tine.trapQ = [] ∧
     ∃ e : Trapped, ({ State.reset with tine := { State.reset.tine with trapQ := [e] } } : State).tine.trapQ = e :: []) := by
  refine ⟨by decide, by decide, by decide, ⟨by decide, by decide⟩, ⟨by decide, by decide, by decide, by decide, by decide, by decide⟩, by decide, ?_⟩
  exact ⟨⟨pkt0, [], [], [], [], 1⟩, rfl⟩

/-! PacketsAreClassified: its hypotheses are met. -/

/-- Two waiting packets, and a loaded graph of one node that ends there. -/
def packetsIn : State :=
  let i : InPkt := { line := false, port := 0, group := 0, lotId := 0, label := 0, cls := 0, bytes := List.replicate 64 0, fcsKept := false, bushels := 1, capture := 0 }
  { State.reset with inQ := [i, i] }
/-- Hypotheses of PacketsAreClassified: the walk. -/
theorem test_meets_walk :
    State.reset.inQ = [] ∧ State.reset.cls.recircQ = [] ∧ packetsIn.inQ.length = 2 ∧
    packetsIn.cls.dispatchQ.length < 1024 ∧ packetsIn.cls.emQ.length < 512 ∧
    State.reset.cls.emQ = [] ∧
    State.reset.cls.dispatchQ = [] := by decide
set_option maxRecDepth 100000 in
/-- Hypotheses of PacketsAreClassified: a walk that reaches a queue. -/
theorem test_meets_walk_ends :
    let img := List.replicate 6 0 ++ [1] ++ List.replicate 200 0
    let s := { packetsIn with cls := { packetsIn.cls with cur := { graph := some img } } }
    ∃ i, s.inQ.head? = some i ∧
    (let p := { pktOf s i with order := s.cls.nextOrder }
     (genOf s p.gen).graph = some img ∧ graphStart (some img) p.src = some 0 ∧
     0 < graphNodes img ∧ (walkPacket (genOf s p.gen) img p 0).1 ≠ 4) := by
  refine ⟨_, rfl, rfl, by decide, by decide, by decide⟩
/-- What a walk gave for `pkt0`. -/
def walked0 : Walked := { pkt := pkt0, key := [], stack := [], pats := 0, logEnd := 64, result := 0 }
set_option maxRecDepth 100000 in
/-- Hypotheses of PacketsAreClassified: the tables and dispatch. -/
theorem test_meets_tables :
    (let s := { State.reset with cls := { State.reset.cls with emQ := [⟨walked0, 0, 0⟩], rehash := some ⟨[], []⟩ } }
     s.cls.emQ = [⟨walked0, 0, 0⟩] ∧ s.cls.rehash = some ⟨[], []⟩ ∧ s.cls.em = [] ∧ s.cls.stash = []) ∧
    (({ st := .sweeping } : Cls).st = .sweeping ∧ ({} : Cls).rehash = none ∧
     ({ st := .twoLive } : Cls).st = .twoLive ∧ ({} : Cls).retireSlow = false ∧ ({} : Cls).st ≠ .twoLive ∧
     State.reset.reeve.events.length < 64) ∧
    (({ commit := some ⟨5, 1, false⟩ } : Cls).commit = some ⟨5, 1, false⟩ ∧ State.reset.cls.commit = none) ∧
    (let s := { State.reset with clk := { State.reset.clk with pllRunning := true }, cls := { State.reset.cls with dispatchQ := [walked0] } }
     s.cls.dispatchQ = [walked0] ∧ coreRuns s = true ∧
     (s.tine.order.filter (fun o => o.given)).length < 4096 ∧
     (progOf s (resProg (resOf s walked0.result))).loaded = true ∧
     (progOf s (resProg (resOf s walked0.result))).disabled = false ∧
     pickThread s (settingB s sAffinity (scProgram (resProg (resOf s walked0.result)))) walked0.key = some (0, 0, 0)) := by
  refine ⟨by decide, by decide, by decide, by decide, by decide, by decide, by decide, by decide, by decide⟩
/-- Hypotheses of PacketsAreClassified: a full queue. -/
theorem test_meets_full :
    1024 ≤ ({ packetsIn with cls := { packetsIn.cls with dispatchQ := List.replicate 1024 walked0 } } : State).cls.dispatchQ.length ∧
    512 ≤ ({ packetsIn with cls := { packetsIn.cls with emQ := List.replicate 512 ⟨walked0, 0, 0⟩ } } : State).cls.emQ.length :=
  ⟨by rw [List.length_replicate], by rw [List.length_replicate]⟩

/-! AluInstructionsWriteTheirRegister: its hypotheses are met. -/

/-- Thread 0 of tine 0 of harrow 0 runs a pass of program 1 on a packet of one zero byte. -/
def th0 : ThreadId := ⟨0, 0, 0⟩
/-- See `th0`. -/
def threadIn : State :=
  let x : Thread := { busy := true, win := [0], walked := some walked0, view := { prog := 1, limit := 100, constLen := 8, scrLen := 8, sramLen := 8, allow := 63 } }
  { State.reset with clk := { State.reset.clk with pllRunning := true }, tine := { State.reset.tine with threads := [(0, x)] } }
/-- `threadIn` with its thread changed. -/
def threadWith (g : Thread → Thread) : State := modThread 0 0 0 g threadIn
/-- The instruction at the thread's counter is the one given. -/
def onWord (op : Nat) (f : TFields) (s : State) : State :=
  { s with tine := { s.tine with imem := [(0, insnWord op f)] } }
/-- The thread of `threadWith g` issues the instruction, and in hand it meets `P`. -/
abbrev Meets (op : Nat) (f : TFields) (P : Thread → Prop) (g : Thread → Thread := id) : Prop :=
  let s := onWord op f (threadWith g)
  Issues op th0 f s ∧ P (fetched op th0 f s)
set_option maxRecDepth 100000 in
/-- Hypotheses of the statements about tine instructions: every opcode can issue. -/
theorem test_meets_issues : ∀ op ∈ [0x01, 0x10, 0x11, 0x12, 0x13, 0x14, 0x15, 0x16, 0x17, 0x18, 0x19, 0x1A, 0x1B, 0x1C, 0x1D, 0x1E, 0x1F, 0x20, 0x30, 0x31, 0x32, 0x33, 0x34, 0x35, 0x40, 0x41, 0x42, 0x43, 0x44, 0x45, 0x50, 0x51, 0x52, 0x53, 0x54, 0x58, 0x59, 0x60, 0xF0, 0xF1, 0xF2, 0xF3],
    Meets op ⟨0, 0, 0, 0, false, false, 0, 0⟩ (fun x => x.insns = 1) := by
  unfold Meets Issues; decide

/-! MemoryInstructionsKeepToTheirSpace: its hypotheses are met. -/

/-- Fields with FN, N and IMM alone. -/
def fw (fn : BitVec 4) (n : BitVec 6) (imm : BitVec 32) : TFields := ⟨0, 0, 0, fn, false, false, n, imm⟩
set_option maxRecDepth 100000 in
/-- Hypotheses of MemoryInstructionsKeepToTheirSpace: within the spaces. -/
theorem test_meets_in_space :
    (∀ op ∈ [0x30, 0x31, 0x33], Meets op (fw 0 0 0) fun x => inWindow x (winOff (fw 0 0 0) x) 1 = true) ∧
    Meets 0x32 (fw 0 0 1) (fun x => winOff (fw 0 0 1) x ≤ x.win.length) ∧
    (let f : TFields := ⟨0, 1, 0, 0, true, false, 0, 0⟩
     Meets 0x32 f (fun x => winOff f x = 256 ∧ x.win.length = 256 ∧ x.spill = []) (fun x => { x with win := List.replicate 256 0, v := [(1, 256)] })) ∧
    Meets 0x34 (fw 0 0 0) (fun x => inSpace .constant x 0 1 = true ∧ inSpace .window x 0 1 = true) ∧
    Meets 0x40 (fw 2 0 7) (fun x => scratchOk x 7 1 = true) ∧
    Meets 0x40 (fw 1 0 7) (fun x => inSpace .constant x 7 1 = true) ∧
    Meets 0x42 (fw 5 0 0) (fun x => scratchOk x 0 8 = true) := by
  unfold Meets Issues; refine ⟨?_, ?_, ?_, ?_, ?_, ?_, ?_⟩ <;> decide
set_option maxRecDepth 100000 in
/-- Hypotheses of MemoryInstructionsKeepToTheirSpace: the first bytes outside them. -/
theorem test_meets_out_of_space :
    (∀ op ∈ [0x30, 0x31, 0x33], Meets op (fw 0 0 1) fun x => inWindow x (winOff (fw 0 0 1) x) 1 = false) ∧
    Meets 0x32 (fw 0 0 2) (fun x => ¬ winOff (fw 0 0 2) x ≤ x.win.length) ∧
    Meets 0x34 (fw 0 0 0x80000) (fun x => inSpace .constant x 8 1 = false) ∧
    Meets 0x34 (fw 0 0 1) (fun x => inSpace .window x 1 1 = false) ∧
    (∀ op ∈ [0x35, 0x40, 0x41], Meets op (fw 0 0 1024) fun x => inSpace .priv x 1024 1 = false) ∧
    (∀ op ∈ [0x40, 0x41], Meets op (fw 2 0 8) fun x => scratchOk x 8 1 = false) ∧
    Meets 0x40 (fw 1 0 8) (fun x => inSpace .constant x 8 1 = false) ∧
    (∀ op ∈ [0x40, 0x41], Meets op (fw 3 0 96) fun x => plusVA (fw 3 0 96) x 96 = 96) ∧
    Meets 0x42 (fw 5 0 8) (fun x => scratchOk x 8 8 = false) := by
  unfold Meets Issues; refine ⟨?_, ?_, ?_, ?_, ?_, ?_, ?_, ?_, ?_⟩ <;> decide

/-! ServicesServeTheirThreads: its hypotheses are met. -/

set_option maxRecDepth 100000 in
/-- Hypotheses of ServicesServeTheirThreads: the program region and the lookups. -/
theorem test_meets_services :
    Meets 0x43 (fw 0 0 0) (fun x => (regionArgs (fw 0 0 0) x).toOption = some (0, 0)) ∧
    Meets 0x44 (fw 0 0 8) (fun x => (regionArgs (fw 0 0 8) x).toOption = none) ∧
    Meets 0x45 (fw 0 0 0) (fun x => 0 + 8 ≤ x.view.sramLen) ∧ Meets 0x45 (fw 0 0 8) (fun x => ¬ 8 + 8 ≤ x.view.sramLen) ∧
    (∀ op ∈ [0x50, 0x51], Meets op (fw 0 0 968) (fun x => 968 + 56 ≤ 1024 ∧ allowed x 2 = true) ∧
      Meets op (fw 0 0 976) (fun _ => 1024 < 976 + 56) ∧
      Meets op (fw 0 0 0) (fun x => allowed x 2 = false) (fun x => { x with view := { x.view with allow := 0 } })) ∧
    (∀ op ∈ [0x52, 0x53, 0x58, 0x59], Meets op (fw 0 0 0) fun x => x.walked = some walked0) := by
  unfold Meets Issues; refine ⟨?_, ?_, ?_, ?_, ?_, ?_⟩ <;> decide
/-- A thread that waits for what is given. -/
def waiting (w : Wait) : State := threadWith fun x => { x with wait := some w }
set_option maxRecDepth 100000 in
/-- Hypotheses of ServicesServeTheirThreads: cipher calls and results. -/
theorem test_meets_cipher :
    (let s := { onWord 0x60 (fw 0 0 0) (threadWith (fun x => { x with view := { x.view with keyMask := 1 }, win := [0, 0, 0, 0], priv := [(10, 4)] })) with
        cry := { State.reset.cry with slots := [(0, { loaded := true, use := 5 })] } }
     Issues 0x60 th0 (fw 0 0 0) s ∧ (fetched 0x60 th0 (fw 0 0 0) s).view.keyMask.testBit 0 = true ∧
     (cipherDesc (privBytes (fetched 0x60 th0 (fw 0 0 0) s) 0 32)).drawn = false ∧
     cipherStatus 0 4 (cipherDesc (privBytes (fetched 0x60 th0 (fw 0 0 0) s) 0 32)) true = 0 ∧
     cipherStatus 0 4 (cipherDesc (privBytes (fetched 0x60 th0 (fw 0 0 0) s) 0 32)) false = 2) ∧
    Meets 0x60 (fw 0 0 0) (fun x => x.view.keyMask.testBit 0 = false) ∧
    (∀ w ∈ [Wait.load 0 8 8 0, .store 8 [1] 0, .atom 1 8 0, .elook 1 0 0, .cipher 1 0 0 0 4 (some 2), .cipher 1 0 0 0 4 none],
      (threadAt (waiting w) th0).wait = some w ∧ accessWaits (waiting w) (threadAt (waiting w) th0) = false) ∧
    (let s := modThread 0 0 1 (fun x => { x with busy := true, wait := some (.store 8 [1] 0) }) (waiting (.load 0 8 8 1))
     accessWaits s (threadAt s th0) = true) := by
  unfold Meets Issues; refine ⟨?_, ?_, ?_, ?_⟩ <;> decide

/-! LimitAndEncodingFaultFirst: its hypotheses are met. -/

/-- Thread 0 is ready to issue in `s`. -/
def readyIn (s : State) : Bool :=
  threadReady (threadAt s th0) && inTurn s 0 0 0 && harrowOn s 0 && coreRuns s && !s.sec.tinesHalted.getLsbD 0
set_option maxRecDepth 100000 in
/-- Hypotheses of LimitAndEncodingFaultFirst. -/
theorem test_meets_limit :
    (0x10, Instr.add) ∈ tineOps ∧
    (let s := onWord 0x10 (fw 0 0 0) (threadWith fun x => { x with insns := 100 })
     readyIn s = true ∧ fetchedWord s (threadAt s th0) = insnWord 0x10 (fw 0 0 0) ∧
     (threadAt s th0).view.limit ≤ (threadAt s th0).insns) ∧
    (let s := onWord 0x10 (fw 1 0 0) threadIn
     readyIn s = true ∧ fetchedWord s (threadAt s th0) = insnWord 0x10 (fw 1 0 0) ∧
     (threadAt s th0).insns < (threadAt s th0).view.limit ∧ insnDefined 0x10 (fw 1 0 0) = false) ∧
    (let s := onWord 0 (fw 0 0 0) threadIn
     let w := fetchedWord s (threadAt s th0)
     readyIn s = true ∧ w ≠ insnWord 0x10 (fw 0 0 0) ∧ insnDefined (wordOp w) (insnFields w) = false) ∧
    (let s := onWord 0x11 (fw 0 0 0) threadIn
     let w := fetchedWord s (threadAt s th0)
     readyIn s = true ∧ w ≠ insnWord 0x10 (fw 0 0 0) ∧ insnDefined (wordOp w) (insnFields w) = true) ∧
    readyIn State.reset = false := by
  refine ⟨?_, ?_, ?_, ?_, ?_, ?_⟩
  · unfold tineOps; exact List.mem_cons_of_mem _ (List.mem_cons_self ..)
  all_goals decide

/-! PassesEndAsTheProgramSays: its hypotheses are met. -/

set_option maxRecDepth 100000 in
/-- Hypotheses of PassesEndAsTheProgramSays. -/
theorem test_meets_ends :
    Meets 0xF0 (fw 1 0 0) (fun x => x.qValid = true ∧ x.dir = false ∧ x.walked = some walked0) (fun x => { x with qValid := true }) ∧
    Meets 0xF0 (fw 1 0 0) (fun x => x.qValid = false) ∧ Meets 0xF1 (fw 0 0 0) (fun x => x.walked = some walked0) ∧
    Meets 0xF2 (fw 3 0 0) (fun x => allowed x 4 = true ∧ (threadPkt x).map (·.recirc) = some false) ∧
    Meets 0xF3 (fw 0 0 0x21) (fun x => allowed x 5 = true) ∧
    Meets 0xF2 (fw 0 0 0) (fun x => allowed x 4 = false) (fun x => { x with view := { x.view with allow := 0 } }) ∧
    Meets 0xF3 (fw 0 0 0) (fun x => allowed x 5 = false) (fun x => { x with view := { x.view with allow := 0 } }) := by
  unfold Meets Issues; refine ⟨?_, ?_, ?_, ?_, ?_, ?_, ?_⟩ <;> decide

/-! PreciseTimeMessagesAreSentWhenDue: its hypotheses are met. -/

/-- Port 0 up and transmitting, in the multicast profile, domain 0 as its source with time. -/
def ptpIn (x : Port) : State :=
  let s := putSetting sOffer (scPort 0) 0 1 (putSetting sPtpProfile (scPort 0) 0 1 timed)
  { s with ports := [(0, { x with link := .up, pcsUp := true, tx := some { bytes := [], queue := none } })], time := { s.time with dom := [(0, { st := .locked, hasValue := true })] } }
set_option maxRecDepth 100000 in
/-- Hypotheses of PreciseTimeMessagesAreSentWhenDue. -/
theorem test_meets_ptp_due :
    (let s := ptpIn {}
     (portOf s 0).link = .up ∧ (portOf s 0).tx.isSome = true ∧ ptpSource s 0 false = some (some 0)) ∧
    (ptpDest (ptpIn {}) 0 false none 11 = some none ∧ ptpDest (ptpIn {}) 0 false none 0 = some none) ∧
    (ptpDest State.reset 0 false none 11 = none ∧ ptpDest State.reset 0 false none 0 = none) ∧
    ((ptpIn { follow := [⟨false, none, 7, 1, 2, 3⟩] }).ports.length = 1 ∧
     ((portOf (ptpIn { follow := [⟨false, none, 7, 1, 2, 3⟩] }) 0).follow.find? (fun f => f.instB == false && f.ip == none)).isSome = true) ∧
    ((portOf { ptpIn {} with ports := [(0, { follow := [⟨false, none, 7, 1, 2, 3⟩] })], settings := [] } 0).follow.length = 1 ∧
     ptpDest { ptpIn {} with ports := [(0, { follow := [⟨false, none, 7, 1, 2, 3⟩] })], settings := [] } 0 false none 0 = none) ∧
    (portOf State.reset 0).follow.find? (fun f => f.instB == false && f.ip == none) = none := by
  refine ⟨?_, ?_, ?_, ?_, ?_, ?_⟩ <;> decide

/-! ClaimedMessagesAreAnswered: its hypotheses are met. -/

/-- A Delay_Req of the multicast profile for domainNumber 24. -/
def delayReq0 : Bytes :=
  [0x01, 0x80, 0xC2, 0, 0, 0x0E] ++ List.replicate 6 0 ++ [0x88, 0xF7] ++ [1, 0x12, 0, 44, 24, 0] ++ List.replicate 38 0
set_option maxRecDepth 100000 in
/-- Hypotheses of ClaimedMessagesAreAnswered: a Delay_Req. -/
theorem test_meets_delay_req :
    (let s := ptpIn { timeIn := [⟨0, delayReq0, 0⟩] }
     claimedOf s 0 0 = some ⟨0, delayReq0, 0⟩ ∧
     (claimedMsg s 0 delayReq0).map (fun m => (m.2.1, m.2.2)) = some (false, some 0) ∧
     decide (ptpProfile s 0 ≠ 1) = false ∧ (takeStamp 0 (some 0) 0 s).1.isSome = true ∧
     (portOf s 0).answered = []) ∧
    (let s := { State.reset with ports := [(0, { timeIn := [⟨0, delayReq0, 0⟩] })] }
     claimedOf s 0 0 = some ⟨0, delayReq0, 0⟩ ∧ claimedMsg s 0 delayReq0 = none) ∧
    (claimedOf State.reset 0 0 = none ∧ claimedOf State.reset 0 1 = none ∧ claimedOf State.reset 0 2 = none ∧
      claimedOf State.reset 0 3 = none) := by
  refine ⟨?_, ?_, ?_⟩ <;> decide
/-- `ptpIn` in the UNICAST_V4 profile with the address 10.0.0.1. -/
def ptp4 (x : Port) : State :=
  putSetting sIpAddr (scPort 0) 0 0x10A000001 (putSetting sPtpProfile (scPort 0) 0 2 (ptpIn x))
/-- An ARP request for 10.0.0.1. -/
def arp0 : Bytes :=
  List.replicate 12 0 ++ [8, 6, 0, 1, 8, 0, 6, 4, 0, 1] ++ List.replicate 16 0 ++ [10, 0, 0, 1]
set_option maxRecDepth 100000 in
/-- Hypotheses of ClaimedMessagesAreAnswered: an ARP request. -/
theorem test_meets_arp :
    (let s := ptp4 { timeIn := [⟨2, arp0, 0⟩] }
     claimedOf s 0 2 = some ⟨2, arp0, 0⟩ ∧ isArp s 0 arp0 = true ∧ (portOf s 0).link = .up ∧ (portOf s 0).tx.isSome = true) ∧
    (let s := ptpIn { timeIn := [⟨2, arp0, 0⟩] }
     claimedOf s 0 2 = some ⟨2, arp0, 0⟩ ∧ isArp s 0 arp0 = false) := by
  refine ⟨?_, ?_⟩ <;> decide
/-- An Announce request in a Signaling message to 10.0.0.1, UDP port 320. -/
def signal0 : Bytes :=
  List.replicate 12 0 ++ [8, 0, 0x45, 0, 0, 82, 0, 0, 0, 0, 0, 17, 0, 0, 10, 0, 0, 2, 10, 0, 0, 1] ++
  [1, 64, 1, 64, 0, 62, 0, 0] ++ [12, 0x12, 0, 54, 44, 0] ++ List.replicate 38 0 ++ [0, 4, 0, 6, 0xB0, 0, 0, 0, 0, 60]
set_option maxRecDepth 100000 in
/-- Hypotheses of ClaimedMessagesAreAnswered: Signaling. -/
theorem test_meets_signaling :
    (let s := ptp4 { timeIn := [⟨1, signal0, 0⟩] }
     claimedOf s 0 1 = some ⟨1, signal0, 0⟩ ∧ (portOf s 0).link = .up ∧
     ∃ m b src, claimedMsg s 0 signal0 = some (m, b, src) ∧
       let ip := clientIp s 0 signal0
       let mac : BitVec 48 := BitVec.ofNat 48 (field signal0 6 6)
       let met := modPort 0 (fun x => { x with grants := x.grants.map (fun g => if g.instB == b && g.ip == ip then { g with mac := mac } else g) }) (unclaim 0 ⟨1, signal0, 0⟩ s)
       (signalTlvs 0 b src mac ip (field m 2 2) ((m.take (field m 2 2)).drop 44) (bump cPtpSignalRx (scPort 0) 1 met)).1.isEmpty = false) ∧
    (let s := { State.reset with ports := [(0, { timeIn := [⟨1, signal0, 0⟩] })] }
     claimedOf s 0 1 = some ⟨1, signal0, 0⟩ ∧ claimedMsg s 0 signal0 = none) := by
  refine ⟨⟨by decide, by decide, _, _, _, rfl, ?_⟩, ⟨by decide, by decide⟩⟩
  intro ip mac met
  have e1 : field (slice signal0 42 54) 2 2 = 54 := by decide
  have e2 : ((slice signal0 42 54).take 54).drop 44 = [0, 4, 0, 6, 0xB0, 0, 0, 0, 0, 60] := by decide
  show (signalTlvs 0 _ _ mac ip (field (slice signal0 42 54) 2 2) (((slice signal0 42 54).take (field (slice signal0 42 54) 2 2)).drop 44) _).1.isEmpty = false
  rw [e1, e2]
  unfold signalTlvs
  rw [if_neg (by decide)]
  dsimp only
  unfold signalTlv
  rw [if_pos (by decide)]
  dsimp only
  split <;> simp [natBytes]
/-- A Neighbor Solicitation for 2001:db8::1 from the unspecified address. -/
def ns0 : Bytes :=
  List.replicate 12 0 ++ [0x86, 0xDD, 0x60, 0, 0, 0, 0, 24, 58, 255] ++ List.replicate 32 0 ++
  [135, 0, 0, 0, 0, 0, 0, 0] ++ [0x20, 0x01, 0x0D, 0xB8, 0, 0, 0, 0, 0, 0, 0, 0, 0, 0, 0, 1]
set_option maxRecDepth 100000 in
/-- Hypotheses of ClaimedMessagesAreAnswered: a Neighbor Solicitation. -/
theorem test_meets_ns :
    (let s := putSetting sIpAddr (scPort 0) 0 (2 ^ 128 + 0x20010DB8000000000000000000000001) (putSetting sPtpProfile (scPort 0) 0 3 (ptpIn { timeIn := [⟨3, ns0, 0⟩] }))
     claimedOf s 0 3 = some ⟨3, ns0, 0⟩ ∧ isNs s 0 ns0 = true ∧ (portOf s 0).link = .up) ∧
    (let s := ptpIn { timeIn := [⟨3, ns0, 0⟩] }
     claimedOf s 0 3 = some ⟨3, ns0, 0⟩ ∧ isNs s 0 ns0 = false) := by
  refine ⟨?_, ?_⟩ <;> decide

/-! CountersWrapAndSamplesAreTagged: its hypotheses are met. -/

set_option maxRecDepth 100000 in
/-- Hypotheses of CountersWrapAndSamplesAreTagged. -/
theorem test_meets_pmc :
    (let s := { State.reset with tine := { State.reset.tine with pmc := [(0, { count := [(2, 0xFFFFFFFFFFFF)] })] } }
     (pmcOf s 0 0).frozen = false ∧ harrowOn s 0 = true ∧ pmcVal s 0 0 2 = 0xFFFFFFFFFFFF ∧
     settingN (putSetting sPmcEvent (scTine 0 0) 2 2 s) sPmcEvent (scTine 0 0) 2 ≠ 0) ∧
    (let s := { State.reset with tine := { State.reset.tine with pmc := [(0, { frozen := true })] } }
     (pmcOf s 0 0).frozen = true) ∧
    (let s := { State.reset with tine := { State.reset.tine with samp := [(0, { mask := 1 })] } }
     sampling s 0 0 = true ∧ harrowOn s 0 = true ∧ (sampOf s 0).armed.getLsbD 0 = false ∧
     (List.range 8).any (fun n => (threadOf s 0 0 n).tagged.isSome) = false) ∧
    (let s := { State.reset with tine := { State.reset.tine with samp := [(0, { mask := 1 })], threads := [(3, { busy := true, tagged := some ⟨0, 0, 0, 1, 0, 1, 1⟩ })] } }
     sampling s 0 0 = true ∧ (List.range 8).any (fun n => (threadOf s 0 0 n).tagged.isSome) = true) ∧
    sampling State.reset 0 0 = false := by
  refine ⟨?_, ?_, ?_, ?_, ?_⟩ <;> decide

/-! CipherOperationsEndAsTheyRan: its hypotheses are met. -/

/-- An operation for thread 0 of tine 0 of harrow 0, waiting or started. -/
def op0 (dst : CryDst) (mode : CryMode) (started : Option CryStart) : CryOp :=
  { id := 4, client := 2, slot := 0, use := 5, target := 0, keyIdx := 0, mode := mode, nonce := [], aad := [], text := [],
    tag := [], started := started, dst := dst }
/-- `threadIn` with its thread waiting for operation 4. -/
def cipherIn (fn : Nat) (stopped : Bool) (o : CryOp) : State :=
  let s := threadWith fun x => { x with wait := some (.cipher 1 fn 0 0 4 none) }
  { s with cry := { s.cry with ops := [o], stopped := stopped } }
/-- What an operation took from a slot of zeros. -/
def start0 : CryStart := { gen := 0, share0 := [], share1 := [], mask := 0 }
/-- The engine with one operation, perhaps stopped. -/
def opIn (stopped : Bool) (o : CryOp) : State :=
  { State.reset with cry := { State.reset.cry with ops := [o], stopped := stopped } }
/-- A lot for group 0. -/
def lot0 : Lot := { key := ⟨0, 0, 24, 0⟩, hdr := 5120, payload := [] }
set_option maxRecDepth 100000 in
/-- Hypotheses of CipherOperationsEndAsTheyRan. -/
theorem test_meets_cipher_ops :
    (∀ st ∈ [none, some start0], ∀ stop ∈ [false, true],
      nextOp (cipherIn 0 stop (op0 (.tine 0 0 0) .seal st)) 2 = some (op0 (.tine 0 0 0) .seal st) ∧
      (threadOf (cipherIn 0 stop (op0 (.tine 0 0 0) .seal st)) 0 0 0).wait = some (.cipher 1 0 0 0 4 none)) ∧
    (∀ d ∈ [CryDst.rxLot 0 lot0, .txLot 0, .txMsg 0],
      (nextOp (opIn false { op0 d .open_ (some start0) with client := 0 }) 0).map (·.dst) = some d) ∧
    (let s := { opIn false (op0 .command .seal none) with reeve := { State.reset.reeve with sealing := [(4, 0x0D02, 9)] } }
     (nextOp s 2).map (·.dst) = some .command ∧ s.reeve.sealing.find? (fun p => p.1 == 4) = some (4, 0x0D02, 9)) ∧
    (let r : Rel := { lot := lot0, step := .cipher }
     let s := { opIn false (op0 (.rxLot 0 lot0) .open_ (some start0)) with groups := [(0, { released := [r] })] }
     (groupOf s 0).released = [r] ∧ r.lot.key = lot0.key ∧ r.step = .cipher ∧ r.gap = false) ∧
    (nextOp State.reset 0 = none ∧ txCipherLate State.reset 0 4 = false) := by
  refine ⟨?_, ?_, ?_, ?_, ?_⟩ <;> decide
/-- Hypotheses of CipherOperationsEndAsTheyRan: the random number generator. -/
theorem test_meets_random :
    (reseedDue State.reset = true ∨ reseedDue State.reset = false) ∧ State.reset.cry.entropyFailed = false ∧
    (let c : Cry := { entropyFailed := true, requests := 2 ^ 24 }
     c.entropyFailed = true ∧ c.stopped = false ∧ 2 ^ 24 ≤ c.requests) ∧ ({ stopped := true } : Cry).stopped = true := by
  refine ⟨?_, ?_, ?_, ?_⟩
  · cases reseedDue State.reset <;> simp
  all_goals decide
/-- Hypotheses of CipherOperationsEndAsTheyRan: an operation runs. -/
theorem test_meets_run_op (key : Bytes) :
    runOp (op0 (.tine 0 0 0) .mac none) key = some ([], cmac key []) ∧
    runOp (op0 (.tine 0 0 0) .seal none) key = some (gcmSeal key [] [] []) := ⟨rfl, rfl⟩
/-- Hypotheses of CipherOperationsEndAsTheyRan: a tag that does not verify, under whatever key, as
no tag has 17 bytes. -/
theorem test_meets_run_op_fails (key : Bytes) :
    runOp { op0 (.tine 0 0 0) .open_ none with tag := List.replicate 17 0 } key = none := by
  have h : ∀ ks n a c, (gcmTag ks n a c).take 17 ≠ toNats (List.replicate 17 0) := by
    intro ks n a c e
    have l := congrArg List.length e
    simp [gcmTag, xorNats, natsOf, toNats, natBytes] at l
    omega
  simp only [runOp, op0, gcmOpen, List.length_replicate, if_neg (h _ _ _ _), Option.map_none]

/-! KeyRegistersAndKeyRequests: its hypotheses are met. -/

set_option maxRecDepth 100000 in
/-- Hypotheses of KeyRegistersAndKeyRequests. -/
theorem test_meets_key_registers :
    (i3cUp State.reset = true ∧ State.reset.pwr.st ≠ .deepFallow ∧ State.reset.i3c.hdr = false ∧ State.reset.cry.req = none) ∧
    (({ req := some .erase } : Cry).req.isSome = true ∧ ({ hdr := true } : I3c).hdr = true) ∧
    (loadDenied State.reset false = false ∧ loadDenied State.reset true = true ∧ (oldGens State.reset 0).length < 2) ∧
    ({ req := some (.load false true) } : Cry).req = some (.load false true) := by
  refine ⟨?_, ?_, ?_, ?_⟩ <;> decide

/-! DebugPortAnswersByItsState: its hypotheses are met. -/

/-- Hypotheses of DebugPortAnswersByItsState. -/
theorem test_meets_debug_port :
    State.reset.pwr.st ≠ .deepFallow ∧ ({ debug := .authenticated } : Sec).debug ≠ .locked ∧
    ({ debug := .locked } : Sec).debug = .locked ∧ ({ st := .deepFallow } : Pwr).st = .deepFallow := by decide

/-! EntryPointsFollowInOrder: its hypotheses are met. -/

/-- A block whose entry into a low state has reached a point. -/
def entryAt (p : Nat) (dest : PwrState) (w : Option Wake) : State :=
  { State.reset with pwr := { State.reset.pwr with phase := .entering, target := dest, point := p, wake := w, noticeWait := p == 1 && w.isNone } }
/-- The hypotheses at E2: with no notice wait the DOZE entry is drained; FALLOW with intake stopped. -/
theorem test_meets_e2 :
    drained (drainLook { (entryAt 1 .doze none) with pwr := { (entryAt 1 .doze none).pwr with noticeWait := false } }) = true ∧
    drained (drainLook (entryAt 1 .fallow (some ⟨6, 0, 0, 0, 0⟩))) = true ∧
    (entryAt 1 .doze none).pwr.noticeWait = true := by decide
/-- The hypotheses at E3, E4 and E5, each with and without a wake event. -/
theorem test_meets_e345 : ∀ p ∈ [2, 3, 4], ∀ w ∈ [none, some (⟨6, 0, 0, 0, 0⟩ : Wake)],
    (entryAt p .deepFallow w).pwr.phase = .entering ∧ (entryAt p .deepFallow w).pwr.point = p ∧
    (entryAt p .deepFallow w).pwr.wake = w ∧ (entryAt p .deepFallow w).clk.refclk = true := by decide
/-- Points out of order. -/
theorem test_meets_points_out : State.reset.pwr.phase ≠ .entering ∧ (entryAt 4 .doze none).pwr.point ≠ 2 ∧
    (entryAt 2 .doze none).pwr.point ≠ 3 := by decide

/-! WakeSourcesLatch: its hypotheses are met. -/

/-- A block in stable FALLOW that listens on lane 0, with line lanes, a port and every source set up. -/
def fallowed : State :=
  { State.reset with pwr := { State.reset.pwr with st := .fallow, listening := 1, lrxAtE4 := 2 }, pins := { State.reset.pins with inReset := false }, lanes := [(0, { (laneOf State.reset 0) with st := .dormant })], settings := (tabSet none (tabSet none (tabSet none (tabSet none (tabSet none (tabSet none [] (setKey sWakeMask 0 scDevice) (some 0xFFFF)) (setKey sLaneEnable 0 (scLrx 0)) (some 1)) (setKey sLaneEnable 0 (scLrx 1)) (some 1)) (setKey sPortEnable 0 (scPort 0)) (some 1)) (setKey sRouseCode 0 scDevice) (some 0xFFF)) (setKey sRouseErr 0 scDevice) (some 31)) }
/-- Hypotheses of WakeSourcesLatch, source by source. -/
theorem test_meets_sources :
    portRuns fallowed (lanePort fallowed 0).1 = true ∧ fallowed.pwr.slAtE4.getLsbD 0 = false ∧
    laneEnabled fallowed 0 = true ∧ fallowed.pwr.lrxAtE4.getLsbD 0 = false ∧
    laneEnabled fallowed 1 = true ∧ fallowed.pwr.lrxAtE4.getLsbD 1 = true ∧
    (∀ c ∈ [1, 2, 3, 4, 5, 6], wakeArmed fallowed c = true) ∧ fallowed.pins.inReset = false ∧
    wakeArmed { fallowed with pwr := { fallowed.pwr with st := .deepFallow } } 7 = true ∧
    (laneOf fallowed 0).st = .dormant := by decide

/-! WakingRestoresRun: its hypotheses are met. -/

/-- A wake under way. -/
def wakingIn (st : PwrState) : State :=
  { State.reset with pwr := { State.reset.pwr with st := st, phase := .waking, wake := some ⟨6, 0, 0, 0, 0⟩, gating := 1#64 <<< 20 } }
/-- Hypotheses of WakingRestoresRun. -/
theorem test_meets_waking : (wakingIn .doze).pwr.phase = .waking ∧ (wakingIn .deepFallow).clk.refclk = true ∧
    (wakingIn .doze).pwr.gating.getLsbD 20 = true ∧ tabGet 0 (wakingIn .doze).pwr.bufHeld 0 = 0 ∧
    State.reset.pwr.phase ≠ .waking ∧ State.reset.pwr.gating.getLsbD 43 = false := by decide

/-! RolesFollowLeaseAndWires: its hypotheses are met. -/

/-- A paired chip whose lease may be renewed. -/
def paired (f : Pair → Pair) : State :=
  { State.reset with clk := { State.reset.clk with pllRunning := true, onFio := false, refclk := true }, reeve := { State.reset.reeve with halted := false }, sec := { State.reset.sec with upstreamInhibit := false, reeveHalted := false }, settings := tabSet none (tabSet none [] (setKey sLockYieldHold 0 scDevice) (some 3)) (setKey sSide 0 scDevice) (some 1), pair := f { State.reset.pair with st := .standby, tetherUp := true } }
/-- A HEALTH of a peer in a state. -/
def healthOf (st : Nat) (locked : BitVec 4) : HealthBody :=
  { sc := 0, state := st, outOfStep := false, roleOut := true, renewable := true, locked := locked, fmSeqP := 0, fmSeqS := 0, mirrorSeq := none, digest := 0, fwVersion := 0, forcePeer := false }
/-- Hypotheses about the lease: valid, and lapsed. -/
theorem test_meets_lease :
    renewable (paired fun p => { p with st := .active }) = true ∧
    leaseValid (paired fun p => { p with st := .active, lease := none }) = false ∧
    leaseValid (paired fun p => { p with st := .active, lease := some 9, roleOut := true, readback := true }) = true ∧
    renewable (paired id) = true ∧ (paired id).pair.yielding = none := by decide
/-- Hypotheses about claims and yields. -/
theorem test_meets_claims :
    (let s := paired fun p => { p with roleIn := false }
     s.pair.roleIn = false ∧ s.pair.st = .standby ∧ s.pair.claim = false ∧ renewable s = true ∧ s.pair.versionGap = false) ∧
    (let s := paired fun p => { p with st := .active, health := some (healthOf 2 1) }
     settingN s sLockYieldHold scDevice ≠ 0 ∧ peerReady s = true ∧ s.pair.versionGap = false ∧ groupLocks s = 0 ∧
     (healthOf 2 1).locked ≠ 0 ∧ (usLaneOf s 0).bursts = [] ∧ (usLaneOf s 1).bursts = []) ∧
    (∃ b, (usLaneOf (ltxIn { bursts := [burstAt (furrowAt 0x3FFF true 60000 0) true] }) 0).bursts.head? = some b ∧ b.sending = true) := by
  refine ⟨by decide, by decide, burstAt (furrowAt 0x3FFF true 60000 0) true, by decide, rfl⟩

/-! TheTetherKeepsThePairInStep: its hypotheses are met. -/

/-- A STANDBY chip whose tether is up, with an output time. -/
def tethered (f : Pair → Pair) : State :=
  let s := paired f
  { s with pwr := { s.pwr with on := 1#64 <<< 47 }, time := { s.time with outHas := true, runOn := some { ref := 0, tl := 0, y := 0 } } }
/-- A mirrored command that awaits its acknowledgement. -/
def held0 : Held := { mirrorSeq := 5, applySc := 9, opcode := 0x0101, cmd := { src := .mailbox, tag := 1, mirror := true, atSwath := false, rsvd := 0, payload := [] }, awaitAck := true, fromPeer := false }
/-- Hypotheses of TheTetherKeepsThePairInStep. -/
theorem test_meets_tether :
    tetherOn (tethered id) = true ∧ (tethered id).pair.tetherUp = true ∧ (tethered id).pair.st = .standby ∧
    tetherOn State.reset = false ∧ State.reset.pair.tetherUp = false ∧
    (let s := tethered fun p => { p with held := [held0], cmpT1 := some 7 }
     s.pair.held.find? (fun h => h.awaitAck && h.mirrorSeq == 5) = some held0 ∧
     s.pair.held.find? (fun h => h.awaitAck) = some held0 ∧ s.pair.cmpT1 = some 7) ∧
    (tethered id).pair.held.find? (fun h => h.awaitAck) = none ∧
    (tethered id).pair.exchange = 0 := by decide
/-- The output time is known. -/
theorem test_meets_out_time : ∃ v, outTime (tethered id) 100 = some v := ⟨_, rfl⟩
/-- A HELLO of the other side matches, one of the same side does not. -/
theorem test_meets_hello :
    let s := { tethered id with settings := tabSet none (tabSet none (tabSet none [] (setKey sPairSerial 0 scDevice) (some 0x4F56424400000001)) (setKey sPaired 0 scDevice) (some 1)) (setKey sSide 0 scDevice) (some 1) }
    helloMatches { serial := 1, pairSerial := 0x4F56424400000001, side := false, fwVersion := 0, schema := 1, revMin := 0, revMax := 0 } s = true ∧
    helloMatches { serial := 1, pairSerial := 0x4F56424400000001, side := true, fwVersion := 0, schema := 1, revMin := 0, revMax := 0 } s = false := by decide

/-! SnapshotsBringARejoinerBack: its hypotheses are met. -/

/-- Hypotheses of SnapshotsBringARejoinerBack; the decoded snapshot is whatever Config.snapDecode gives. -/
theorem test_meets_snap :
    (let s := tethered fun p => { p with st := .active }
     tetherOn s = true ∧ s.pair.tetherUp = true ∧ s.pair.st = .active) ∧
    (let s := tethered fun p => { p with st := .rejoining, snapping := true, snapshot := [1, 2] }
     tetherOn s = true ∧ s.pair.snapping = true ∧ s.pair.attempts < 3 ∧
     s.pair.snapshot = [1, 2]) ∧
    (tethered fun p => { p with attempts := 3 }).pair.attempts = 3 := by
  refine ⟨by decide, ⟨by decide, rfl, by decide, rfl⟩, rfl⟩
set_option maxRecDepth 8192 in
/-- A CRC that agrees. -/
theorem test_meets_snap_crc : (0x24D36130#32).toNat = crc32 [1, 2] := by decide

/-! WindowAndMailboxFollowTheirRegisters: its hypotheses are met. -/

/-- A running block out of reset, with its mailbox as given. -/
def hosted (w : Win) (v : Reeve) : State :=
  { State.reset with win := w, reeve := v, pins := { State.reset.pins with inReset := false } }
/-- A response that waits. -/
def resp0 : Resp := { src := .mailbox, opcode := 0x0101, tag := 1, status := 0, payload := [] }
/-- Hypotheses about the mailbox and the FIFO. -/
theorem test_meets_mailbox :
    (hosted {} {}).pins.inReset = false ∧ (hosted {} {}).pwr.st ≠ .deepFallow ∧
    (hosted { cmdFree := true } {}).win.cmdFree = true ∧
    resetPosted (hosted { respValid := true } { responses := [resp0] }) = false ∧
    resetPosted (hosted { respValid := true, outbound := respBytes { resp0 with opcode := 0x0102 } } { resetBy := some (0x0102, 1) }) = true ∧
    (hosted {} { events := [mkEvent State.reset 1 0 0 none false], lost := 3 }).reeve.events ≠ [] ∧
    (hosted {} {}).i3c.hdr = false ∧ (hosted {} { wdog := true }).reeve.wdog = true := by decide
/-- A management command: ACT_START. -/
def mgmt1 : MgmtCmd := { lotId := 1, keyIdx := 1, payload := [4, 1, 0, 0, 7, 0, 0, 0] }
/-- Hypotheses about commands taken. -/
theorem test_meets_taken_too :
    (let s := hosted {} { mgmt1 := [mgmt1] }
     reeveRuns s = true ∧ s.win.rung = false ∧ nextMgmt s = some (1, mgmt1) ∧
     mgmt1.payload.length = 8 + field mgmt1.payload 2 2 ∧ opDefined (field mgmt1.payload 0 2) = true ∧
     BitVec.ofNat 14 (field mgmt1.payload 6 2) = 0) ∧
    nextMgmt (hosted { rung := true } {}) = none ∧
    nextIbi { hosted { intCfg := 2 } {} with i3c := { ibiEnabled := true, ibiPending := 1 } } = some (0, 1) := by decide
set_option maxRecDepth 20000 in
/-- Hypotheses about a mailbox command, byte by byte of its header. -/
theorem test_meets_taken_mailbox :
    let w : Win := { rung := true, inHigh := 8, inbound := tabSet 0 (tabSet 0 [] 0 1) 1 1 }
    let b := (List.range 1024).map (fun i => tabGet (0 : BitVec 8) w.inbound i)
    field b 0 2 = 0x0101 ∧ field b 2 2 = 0 ∧ field b 6 2 = 0 ∧ opDefined 0x0101 = true := by
  decide

/-! CommonCommandCodesActAsTabled: its hypotheses are met. -/

/-- Hypotheses of CommonCommandCodesActAsTabled. -/
theorem test_meets_ccc :
    (hosted {} {}).pins.inReset = false ∧ (hosted {} {}).pwr.st ≠ .deepFallow ∧
    ({ State.reset with pins := { State.reset.pins with inReset := true } } : State).pins.inReset = true ∧
    ({ hosted {} {} with pwr := { State.reset.pwr with st := .deepFallow } } : State).pwr.st = .deepFallow := by decide

/-! ReadCommandsAnswerAsAsked: its hypotheses are met. -/

/-- A mailbox command. -/
def sent (p : Bytes) : Cmd := { src := .mailbox, tag := 0, mirror := false, atSwath := false, rsvd := 0, payload := p }
/-- A part of the states below. -/
def readReq (kind idx ch tbl first n : Nat) : Bytes := natBytes 1 kind ++ [0] ++ natBytes 2 idx ++ natBytes 1 ch ++ natBytes 1 tbl ++ natBytes 1 first ++ natBytes 1 n
/-- A chip whose firmware takes commands. -/
def commanded : State :=
  { State.reset with clk := { State.reset.clk with onFio := false }, reeve := { State.reset.reeve with halted := false } }
set_option maxRecDepth 8192 in
theorem test_meets_read_power : Accepted 0x0202 (sent (readReq 0 0 18 14 16 0x81)) commanded ∧
    Asks [] [(18, 14)] 0 pwrBlock (sent (readReq 0 0 18 14 16 0x81)) commanded (scopeField (readReq 0 0 18 14 16 0x81)) := by
  unfold Accepted Asks; decide
set_option maxRecDepth 8192 in
theorem test_meets_read_lock : Accepted 0x0304 (sent (readReq 1 3 0 0 0 0)) commanded ∧
    Asks [0x01] [] 0 lockBlock (sent (readReq 1 3 0 0 0 0)) commanded (scopeField (readReq 1 3 0 0 0 0)) := by
  unfold Accepted Asks; decide
set_option maxRecDepth 8192 in
theorem test_meets_read_counters : Accepted 0x0305 (sent (readReq 8 255 3 10 30 0x81)) commanded ∧
    Asks [0x08] [(2, 8), (3, 10), (4, 7)] 0 lineBlock (sent (readReq 8 255 3 10 30 0x81)) commanded (scopeField (readReq 8 255 3 10 30 0x81)) := by
  unfold Accepted Asks; decide
set_option maxRecDepth 8192 in
theorem test_meets_read_act : Accepted 0x0403 (sent (readReq 4 0 5 9 12 1)) commanded ∧
    Asks [] [(5, 9), (20, 8)] 0 actBlock (sent (readReq 4 0 5 9 12 1)) commanded (scopeField (readReq 4 0 5 9 12 1)) := by
  unfold Accepted Asks; decide
set_option maxRecDepth 8192 in
theorem test_meets_read_defects : Accepted 0x0502 (sent (readReq 0 0 0 0 0 0x80)) commanded ∧
    Asks [] [] 0 defectsBlock (sent (readReq 0 0 0 0 0 0x80)) commanded (scopeField (readReq 0 0 0 0 0 0x80)) := by
  unfold Accepted Asks; decide
set_option maxRecDepth 8192 in
theorem test_meets_read_fit : Accepted 0x0604 (sent (readReq 5 1 0 0 0 0)) commanded ∧
    Asks [0x05] [] 0 fitBlock (sent (readReq 5 1 0 0 0 0)) commanded (scopeField (readReq 5 1 0 0 0 0)) := by
  unfold Accepted Asks; decide
set_option maxRecDepth 8192 in
theorem test_meets_read_time : Accepted 0x0606 (sent (readReq 0 0 7 14 12 0x81)) commanded ∧
    Asks [] [(7, 14)] 0 timeBlock (sent (readReq 0 0 7 14 12 0x81)) commanded (scopeField (readReq 0 0 7 14 12 0x81)) := by
  unfold Accepted Asks; decide
set_option maxRecDepth 8192 in
theorem test_meets_read_port : Accepted 0x0704 (sent (readReq 6 7 8 8 0 0xD9)) commanded ∧
    Asks [] [(8, 8)] 0 portBlock (sent (readReq 6 7 8 8 0 0xD9)) commanded (scopeField (readReq 6 7 8 8 0 0xD9)) ∧ namesNoPort (mode100 commanded) (scopeField (readReq 6 7 8 8 0 0xD9)) = false := by
  unfold Accepted Asks; decide
set_option maxRecDepth 8192 in
theorem test_meets_read_ptp : Accepted 0x0802 (sent (readReq 6 0 9 8 0 0x8B ++ [0, 1, 0, 0])) commanded ∧
    Asks [] [(9, 8)] 4 ptpBlock (sent (readReq 6 0 9 8 0 0x8B ++ [0, 1, 0, 0])) commanded (scopeField (readReq 6 0 9 8 0 0x8B ++ [0, 1, 0, 0])) ∧ namesNoPort (mode100 commanded) (scopeField (readReq 6 0 9 8 0 0x8B ++ [0, 1, 0, 0])) = false ∧ (byteAt (readReq 6 0 9 8 0 0x8B ++ [0, 1, 0, 0]) 9).toNat ≤ 1 := by
  unfold Accepted Asks; decide
set_option maxRecDepth 8192 in
theorem test_meets_read_cls : Accepted 0x0905 (sent (readReq 0 0 10 10 71 0x81)) commanded ∧
    Asks [0x11, 0x12] [(10, 10), (11, 10)] 0 clsBlock (sent (readReq 0 0 10 10 71 0x81)) commanded (scopeField (readReq 0 0 10 10 71 0x81)) ∧ ¬(((byteAt (readReq 0 0 10 10 71 0x81) 0).toNat = 0x11 ∨ (byteAt (readReq 0 0 10 10 71 0x81) 0).toNat = 0x12) ∧ field (readReq 0 0 10 10 71 0x81) 4 2 = 0) := by
  unfold Accepted Asks; decide
set_option maxRecDepth 8192 in
theorem test_meets_read_faults : Accepted 0x0A03 (sent (readReq 15 63 12 9 7 0x81 ++ [24, 0, 0, 0])) commanded ∧
    Asks [] [(12, 9)] 4 (fun _ p s => recordBlock p s.tine.faultLog) (sent (readReq 15 63 12 9 7 0x81 ++ [24, 0, 0, 0])) commanded (scopeField (readReq 15 63 12 9 7 0x81 ++ [24, 0, 0, 0])) ∧ (byteAt (readReq 15 63 12 9 7 0x81 ++ [24, 0, 0, 0]) 8).toNat ≤ 24 := by
  unfold Accepted Asks; decide
set_option maxRecDepth 8192 in
theorem test_meets_read_pmc : Accepted 0x0B02 (sent ([14, 15, 0, 11, 0, 0, 0, 0x80])) commanded ∧
    Asks [0x0E] [] 0 pmcBlock (sent ([14, 15, 0, 11, 0, 0, 0, 0x80])) commanded (scopeField ([14, 15, 0, 11, 0, 0, 0, 0x80])) := by
  unfold Accepted Asks; decide
set_option maxRecDepth 8192 in
theorem test_meets_read_samples : Accepted 0x0B04 (sent (readReq 13 11 14 6 2 0x81 ++ [31, 0, 0, 0])) commanded ∧
    Asks [0x0D] [(14, 6)] 4 (fun sc p s => recordBlock p (sampOf s (harrowOfScope sc)).buffer) (sent (readReq 13 11 14 6 2 0x81 ++ [31, 0, 0, 0])) commanded (scopeField (readReq 13 11 14 6 2 0x81 ++ [31, 0, 0, 0])) ∧ (byteAt (readReq 13 11 14 6 2 0x81 ++ [31, 0, 0, 0]) 8).toNat ≤ 31 := by
  unfold Accepted Asks; decide
set_option maxRecDepth 8192 in
theorem test_meets_read_queue : Accepted 0x0C05 (sent (readReq 11 1023 15 11 7 0x81)) commanded ∧
    Asks [] [(15, 11)] 0 qosBlock (sent (readReq 11 1023 15 11 7 0x81)) commanded (scopeField (readReq 11 1023 15 11 7 0x81)) := by
  unfold Accepted Asks; decide
set_option maxRecDepth 8192 in
theorem test_meets_read_slot : Accepted 0x0D04 (sent (readReq 0x13 15 0 0 0 0)) commanded ∧
    Asks [0x13] [(16, 8)] 0 slotBlock (sent (readReq 0x13 15 0 0 0 0)) commanded (scopeField (readReq 0x13 15 0 0 0 0)) := by
  unfold Accepted Asks; decide
set_option maxRecDepth 8192 in
theorem test_meets_read_pair : Accepted 0x0F02 (sent (readReq 0 0 19 10 14 0x81)) commanded ∧
    Asks [] [(19, 10)] 0 pairBlock (sent (readReq 0 0 19 10 14 0x81)) commanded (scopeField (readReq 0 0 19 10 14 0x81)) := by
  unfold Accepted Asks; decide

/-! SettingsCommandsPutTheirSettings: its hypotheses are met. -/

/-- An item of a settings command. -/
def itemOf (p : SSpec) (i : Nat) (v : Bytes) : Bytes :=
  natBytes 2 (p.row * 16 + p.pos) ++ natBytes 1 i ++ natBytes 1 v.length ++ v
/-- A scope field. -/
def scopeBytes (kind idx : Nat) : Bytes := natBytes 1 kind ++ [0] ++ natBytes 2 idx
set_option maxRecDepth 8192 in
theorem test_meets_set_actions : Accepted 0x0501 (sent (scopeBytes 4 0 ++ itemOf sHoldOff 0 [0x03, 0xE8])) commanded ∧
    Carries [0x04] (fun _ => settings603) (sent (scopeBytes 4 0 ++ itemOf sHoldOff 0 [0x03, 0xE8])) commanded 4194304 [(sHoldOff, 0, 1000)] :=
  ⟨by unfold Accepted; decide, ⟨by decide, by decide, _, rfl, rfl⟩⟩
set_option maxRecDepth 8192 in
theorem test_meets_set_thresholds : Accepted 0x0504 (sent (scopeBytes 0 0 ++ itemOf sSdSet 0 [2, 45])) commanded ∧
    Carries [0x00] (fun _ => thresholdSettings) (sent (scopeBytes 0 0 ++ itemOf sSdSet 0 [2, 45])) commanded 0 [(sSdSet, 0, 557)] ∧ given commanded [(sSdSet, 0, 557)] sSdClr 0 ≤ given commanded [(sSdSet, 0, 557)] sSdSet 0 ∧ given commanded [(sSdSet, 0, 557)] sSfClr 0 ≤ given commanded [(sSdSet, 0, 557)] sSfSet 0 :=
  ⟨by unfold Accepted; decide, ⟨by decide, by decide, _, rfl, rfl⟩, by decide⟩
set_option maxRecDepth 8192 in
theorem test_meets_set_domains : Accepted 0x0601 (sent (scopeBytes 5 1 ++ itemOf sDomSrc 0 [1])) commanded ∧
    Carries [0x05] (fun _ => settings702 ++ [sDomSrc]) (sent (scopeBytes 5 1 ++ itemOf sDomSrc 0 [1])) commanded 5242896 [(sDomSrc, 0, 1)] :=
  ⟨by unfold Accepted; decide, ⟨by decide, by decide, _, rfl, rfl⟩⟩
set_option maxRecDepth 8192 in
theorem test_meets_set_asym : Accepted 0x0603 (sent (scopeBytes 0 0 ++ itemOf sAsymMode 0 [2])) commanded ∧
    Carries [0x00] (fun _ => settings709) (sent (scopeBytes 0 0 ++ itemOf sAsymMode 0 [2])) commanded 0 [(sAsymMode, 0, 2)] :=
  ⟨by unfold Accepted; decide, ⟨by decide, by decide, _, rfl, rfl⟩⟩
set_option maxRecDepth 8192 in
theorem test_meets_set_outputs : Accepted 0x0605 (sent (scopeBytes 0 0 ++ itemOf sPpsInEnable 0 [1])) commanded ∧
    Carries [0x00] (fun _ => settings906) (sent (scopeBytes 0 0 ++ itemOf sPpsInEnable 0 [1])) commanded 0 [(sPpsInEnable, 0, 1)] ∧ settingB commanded sPpsInEnable scDevice ≠ settingB (putGiven 0 [(sPpsInEnable, 0, 1)] commanded) sPpsInEnable scDevice :=
  ⟨by unfold Accepted; decide, ⟨by decide, by decide, _, rfl, rfl⟩, by decide⟩
set_option maxRecDepth 8192 in
theorem test_meets_set_sheaf : Accepted 0x0703 (sent (scopeBytes 6 7 ++ itemOf sSheafEnable 0 [0])) commanded ∧
    Carries [0x06] (fun _ => settings806) (sent (scopeBytes 6 7 ++ itemOf sSheafEnable 0 [0])) commanded 6291568 [(sSheafEnable, 0, 0)] ∧ namesNoPort (mode100 commanded) 6291568 = false :=
  ⟨by unfold Accepted; decide, ⟨by decide, by decide, _, rfl, rfl⟩, by decide⟩
set_option maxRecDepth 8192 in
theorem test_meets_set_ptp : Accepted 0x0801 (sent (scopeBytes 6 3 ++ itemOf sDnA 0 [1])) commanded ∧
    Carries [0x06] (fun _ => settings901) (sent (scopeBytes 6 3 ++ itemOf sDnA 0 [1])) commanded 6291504 [(sDnA, 0, 1)] ∧ namesNoPort (mode100 commanded) 6291504 = false ∧ ptpOffence 6291504 [(sDnA, 0, 1)] (putGiven 6291504 [(sDnA, 0, 1)] commanded) = none :=
  ⟨by unfold Accepted; decide, ⟨by decide, by decide, _, rfl, rfl⟩, by decide⟩
set_option maxRecDepth 8192 in
theorem test_meets_set_queue : Accepted 0x0C01 (sent (scopeBytes 11 1023 ++ itemOf sQEnable 0 [0] ++ itemOf sQMaxR 0 [0])) commanded ∧
    Carries [0x0A, 0x0B] (fun k => if k = 0x0A then dsQueueSettings else usQueueSettings) (sent (scopeBytes 11 1023 ++ itemOf sQEnable 0 [0] ++ itemOf sQMaxR 0 [0])) commanded 11550704 [(sQEnable, 0, 0), (sQMaxR, 0, 0)] ∧ (carried [(sQEnable, 0, 0), (sQMaxR, 0, 0)] sPlotS = true → commanded.act.dual = true) ∧ given commanded [(sQEnable, 0, 0), (sQMaxR, 0, 0)] sQMaxR 11550704 ≤ given commanded [(sQEnable, 0, 0), (sQMaxR, 0, 0)] sQMaxY 11550704 ∧ given commanded [(sQEnable, 0, 0), (sQMaxR, 0, 0)] sQMaxY 11550704 ≤ given commanded [(sQEnable, 0, 0), (sQMaxR, 0, 0)] sQMaxG 11550704 ∧ queueEnabled (putGiven 11550704 [(sQEnable, 0, 0), (sQMaxR, 0, 0)] commanded) (scopeKind 11550704 == 0x0A) (scopeIndex 11550704) = false :=
  ⟨by unfold Accepted; decide, ⟨by decide, by decide, _, rfl, rfl⟩, by decide⟩
set_option maxRecDepth 8192 in
theorem test_meets_set_sched : Accepted 0x0C02 (sent (scopeBytes 0 0 ++ itemOf sPoolFloorY 0 [0x40, 0])) commanded ∧
    Carries [0x00, 0x09] (fun k => if k = 0 then settings1502 else settings1505) (sent (scopeBytes 0 0 ++ itemOf sPoolFloorY 0 [0x40, 0])) commanded 0 [(sPoolFloorY, 0, 16384)] ∧ given commanded [(sPoolFloorY, 0, 16384)] sPoolFloorY 0 ≤ given commanded [(sPoolFloorY, 0, 16384)] sPoolFloorR 0 :=
  ⟨by unfold Accepted; decide, ⟨by decide, by decide, _, rfl, rfl⟩, by decide⟩
set_option maxRecDepth 8192 in
theorem test_meets_set_shaper : Accepted 0x0C03 (sent (scopeBytes 12 16382 ++ itemOf sShResetFull 0 [0])) commanded ∧
    Carries [0x0A, 0x06, 0x0B, 0x0C] (fun _ => settings1507) (sent (scopeBytes 12 16382 ++ itemOf sShResetFull 0 [0])) commanded 12845024 [(sShResetFull, 0, 0)] ∧ namesNoPort (mode100 commanded) (scopeField (scopeBytes 0xC 0x3FFE)) = false ∧ classShapers commanded < 2048 :=
  ⟨by unfold Accepted; decide, ⟨by decide, by decide, _, rfl, rfl⟩, by decide⟩
set_option maxRecDepth 8192 in
theorem test_meets_set_meter : Accepted 0x0C04 (sent (scopeBytes 16 65535 ++ itemOf sMtMode 0 [1] ++ itemOf sCbs 0 [1])) commanded ∧
    Carries [0x10, 0x14, 0x15] (fun k => if k = 0x10 then settings1508 else [{ sMapEntry with idx := if k = 0x14 then 17 else 65 }]) (sent (scopeBytes 16 65535 ++ itemOf sMtMode 0 [1] ++ itemOf sCbs 0 [1])) commanded 17825776 [(sMtMode, 0, 1), (sCbs, 0, 1)] ∧ ¬(given commanded [(sMtMode, 0, 1), (sCbs, 0, 1)] sMtMode 17825776 = 2 ∧ given commanded [(sMtMode, 0, 1), (sCbs, 0, 1)] sPir 17825776 < given commanded [(sMtMode, 0, 1), (sCbs, 0, 1)] sCir 17825776) ∧ ¬(given commanded [(sMtMode, 0, 1), (sCbs, 0, 1)] sMtMode 17825776 = 1 ∧ given commanded [(sMtMode, 0, 1), (sCbs, 0, 1)] sCbs 17825776 = 0 ∧ given commanded [(sMtMode, 0, 1), (sCbs, 0, 1)] sEbs 17825776 = 0) :=
  ⟨by unfold Accepted; decide, ⟨by decide, by decide, _, rfl, rfl⟩, by decide⟩
set_option maxRecDepth 8192 in
theorem test_meets_set_perms : Accepted 0x0A02 (sent (scopeBytes 15 4095 ++ itemOf sScrBase 0 [1, 0, 0] ++ itemOf sScrLen 0 [1, 0, 0])) commanded ∧
    Carries [0x0F] (fun _ => permSettings) (sent (scopeBytes 15 4095 ++ itemOf sScrBase 0 [1, 0, 0] ++ itemOf sScrLen 0 [1, 0, 0])) commanded 15794160 [(sScrBase, 0, 65536), (sScrLen, 0, 65536)] ∧ (∀ g ∈ ([(sScrBase, 0, 65536), (sScrLen, 0, 65536)] : List Given), blockRanges.contains g.1 = true → g.2.2 % 64 = 0) ∧ given commanded [(sScrBase, 0, 65536), (sScrLen, 0, 65536)] sScrBase 15794160 + given commanded [(sScrBase, 0, 65536), (sScrLen, 0, 65536)] sScrLen 15794160 ≤ 131072 ∧ given commanded [(sScrBase, 0, 65536), (sScrLen, 0, 65536)] sSramBase 15794160 + given commanded [(sScrBase, 0, 65536), (sScrLen, 0, 65536)] sSramLen 15794160 ≤ 16777216 :=
  ⟨by unfold Accepted; decide, ⟨by decide, by decide, _, rfl, rfl⟩, by decide⟩
set_option maxRecDepth 8192 in
theorem test_meets_set_sampling : Accepted 0x0B03 (sent (scopeBytes 13 11 ++ itemOf sTineMask 0 [0x80, 1])) commanded ∧
    Carries [0x0D] (fun _ => settings1404) (sent (scopeBytes 13 11 ++ itemOf sTineMask 0 [0x80, 1])) commanded 13631664 [(sTineMask, 0, 32769)] :=
  ⟨by unfold Accepted; decide, ⟨by decide, by decide, _, rfl, rfl⟩⟩

/-! LineActivationAndPairSettingsTakeEffect: its hypotheses are met. -/

/-- Two lanes in each of two groups. -/
def grouped : State := { commanded with lanes := [(0, { group := some 0 }), (1, { group := some 0 }), (2, { group := some 2 }), (3, { group := some 2 })] }
/-- As `grouped`, dual-parented. -/
def dualled : State := { grouped with act := { grouped.act with dual := true } }
/-- Line lane 1 in lock, the timing lane off. -/
def lockedLane : State := { commanded with lanes := [(1, { st := .lock })] }
set_option maxRecDepth 8192 in
theorem test_meets_set_lanes : Accepted 0x0301 (sent (scopeBytes 1 3 ++ itemOf sLaneEnable 0 [1])) commanded ∧
    Carries [0x00, 0x01, 0x02] (fun k => if k = 0 then [sTimingLane] else [sLaneEnable, sMediaLane]) (sent (scopeBytes 1 3 ++ itemOf sLaneEnable 0 [1])) commanded 1048624 [(sLaneEnable, 0, 1)] :=
  ⟨by unfold Accepted; decide, ⟨by decide, by decide, _, rfl, rfl⟩⟩
set_option maxRecDepth 8192 in
theorem test_meets_set_us_lanes : Accepted 0x0301 (sent (scopeBytes 2 1 ++ itemOf sLaneEnable 0 [0])) commanded ∧
    Carries [0x00, 0x01, 0x02] (fun k => if k = 0 then [sTimingLane] else [sLaneEnable, sMediaLane]) (sent (scopeBytes 2 1 ++ itemOf sLaneEnable 0 [0])) commanded 2097168 [(sLaneEnable, 0, 0)] :=
  ⟨by unfold Accepted; decide, ⟨by decide, by decide, _, rfl, rfl⟩⟩
set_option maxRecDepth 8192 in
theorem test_meets_set_eq : Accepted 0x0302 (sent (scopeBytes 1 2 ++ itemOf sAdaptMax 0 [1] ++ itemOf sAdaptMin 0 [1])) commanded ∧
    Carries [0x01] (fun _ => [sCtleMode, sCtleCode, sAdaptMin, sAdaptMax]) (sent (scopeBytes 1 2 ++ itemOf sAdaptMax 0 [1] ++ itemOf sAdaptMin 0 [1])) commanded 1048608 [(sAdaptMax, 0, 1), (sAdaptMin, 0, 1)] ∧ eqValue commanded 1048608 [(sAdaptMax, 0, 1), (sAdaptMin, 0, 1)] sAdaptMin ≤ eqValue commanded 1048608 [(sAdaptMax, 0, 1), (sAdaptMin, 0, 1)] sAdaptMax ∧ isLocked (laneOf commanded (scopeIndex 1048608)) = false :=
  ⟨by unfold Accepted; decide, ⟨by decide, by decide, _, rfl, rfl⟩, by decide⟩
set_option maxRecDepth 8192 in
theorem test_meets_set_eq_later : Accepted 0x0302 (sent (scopeBytes 1 1 ++ itemOf sCtleCode 0 [36])) lockedLane ∧
    Carries [0x01] (fun _ => [sCtleMode, sCtleCode, sAdaptMin, sAdaptMax]) (sent (scopeBytes 1 1 ++ itemOf sCtleCode 0 [36])) lockedLane 1048592 [(sCtleCode, 0, 36)] ∧ eqValue lockedLane 1048592 [(sCtleCode, 0, 36)] sAdaptMin ≤ eqValue lockedLane 1048592 [(sCtleCode, 0, 36)] sAdaptMax ∧ isLocked (laneOf lockedLane (scopeIndex 1048592)) = true :=
  ⟨by unfold Accepted; decide, ⟨by decide, by decide, _, rfl, rfl⟩, by decide⟩
set_option maxRecDepth 8192 in
theorem test_meets_set_group : Accepted 0x0303 (sent (scopeBytes 1 1 ++ itemOf sLaneGroup 0 [0])) dualled ∧
    Carries [0x00, 0x01] (fun k => if k = 0 then [sUsMode] else [sLaneGroup]) (sent (scopeBytes 1 1 ++ itemOf sLaneGroup 0 [0])) dualled 1048592 [(sLaneGroup, 0, 0)] ∧ (dualGroups (fun i => if i = scopeIndex 1048592 then (0 : Int).toNat else laneGroup dualled i)) = true :=
  ⟨by unfold Accepted; decide, ⟨by decide, by decide, _, rfl, rfl⟩, by decide⟩
set_option maxRecDepth 8192 in
theorem test_meets_set_us_mode : Accepted 0x0303 (sent (scopeBytes 0 0 ++ itemOf sUsMode 0 [1])) dualled ∧
    Carries [0x00, 0x01] (fun k => if k = 0 then [sUsMode] else [sLaneGroup]) (sent (scopeBytes 0 0 ++ itemOf sUsMode 0 [1])) dualled 0 [(sUsMode, 0, 1)] :=
  ⟨by unfold Accepted; decide, ⟨by decide, by decide, _, rfl, rfl⟩⟩
set_option maxRecDepth 8192 in
theorem test_meets_set_start : Accepted 0x0401 (sent (scopeBytes 0 0 ++ itemOf sToHold 0 [0xEA, 0x60] ++ itemOf sMgmtMask 0 [8, 0x7C])) dualled ∧
    Carries [0x00, 0x04] (fun _ => settings506 ++ [sMgmtMask]) (sent (scopeBytes 0 0 ++ itemOf sToHold 0 [0xEA, 0x60] ++ itemOf sMgmtMask 0 [8, 0x7C])) dualled 0 [(sToHold, 0, 60000), (sMgmtMask, 0, 2172)] ∧ (∀ g ∈ ([(sToHold, 0, 60000), (sMgmtMask, 0, 2172)] : List Given), g.1 = sMgmtMask → g.2.2.toNat ||| mgmtMaskAll = mgmtMaskAll) ∧ scopeInsts dualled 0 = [0, 1] :=
  ⟨by unfold Accepted; decide, ⟨by decide, by decide, _, rfl, rfl⟩, by decide⟩
set_option maxRecDepth 8192 in
theorem test_meets_set_parenting : Accepted 0x0404 (sent (scopeBytes 0 0 ++ itemOf sParenting 0 [1] ++ itemOf sWorking 0 [1])) grouped ∧
    Carries [0x00] (fun _ => [sParenting, sWorking]) (sent (scopeBytes 0 0 ++ itemOf sParenting 0 [1] ++ itemOf sWorking 0 [1])) grouped 0 [(sParenting, 0, 1), (sWorking, 0, 1)] ∧ given grouped [(sParenting, 0, 1), (sWorking, 0, 1)] sParenting 0 = 1 ∧ allStopped grouped = true ∧ dualGroups (laneGroup grouped) = true :=
  ⟨by unfold Accepted; decide, ⟨by decide, by decide, _, rfl, rfl⟩, by decide⟩
set_option maxRecDepth 8192 in
theorem test_meets_set_single : Accepted 0x0404 (sent (scopeBytes 0 0 ++ itemOf sParenting 0 [0] ++ itemOf sWorking 0 [0])) dualled ∧
    Carries [0x00] (fun _ => [sParenting, sWorking]) (sent (scopeBytes 0 0 ++ itemOf sParenting 0 [0] ++ itemOf sWorking 0 [0])) dualled 0 [(sParenting, 0, 0), (sWorking, 0, 0)] ∧ given dualled [(sParenting, 0, 0), (sWorking, 0, 0)] sParenting 0 ≠ 1 ∧ allStopped dualled = true ∧ (given dualled [(sParenting, 0, 0), (sWorking, 0, 0)] sWorking 0).toNat = 0 :=
  ⟨by unfold Accepted; decide, ⟨by decide, by decide, _, rfl, rfl⟩, by decide⟩
set_option maxRecDepth 8192 in
theorem test_meets_set_port : Accepted 0x0701 (sent (scopeBytes 6 0 ++ itemOf sPortMode 0 [2] ++ itemOf sRxInvert 3 [1] ++ itemOf sPortEnable 0 [1])) commanded ∧
    Carries [0x06] (fun _ => settings802) (sent (scopeBytes 6 0 ++ itemOf sPortMode 0 [2] ++ itemOf sRxInvert 3 [1] ++ itemOf sPortEnable 0 [1])) commanded 6291456 [(sPortMode, 0, 2), (sRxInvert, 3, 1), (sPortEnable, 0, 1)] ∧ namesNoPort (mode100 (putPort 6291456 [(sPortMode, 0, 2), (sRxInvert, 3, 1), (sPortEnable, 0, 1)] commanded)) 6291456 = false ∧ portOffence 6291456 [(sPortMode, 0, 2), (sRxInvert, 3, 1), (sPortEnable, 0, 1)] (putPort 6291456 [(sPortMode, 0, 2), (sRxInvert, 3, 1), (sPortEnable, 0, 1)] commanded) = none ∧ ∀ p, p < 8 → (portOf commanded p).link = .disabled :=
  ⟨by unfold Accepted; decide, ⟨by decide, by decide, _, rfl, rfl⟩, by decide⟩
set_option maxRecDepth 8192 in
theorem test_meets_set_pmc : Accepted 0x0B01 (sent (scopeBytes 13 11 ++ itemOf sPmcTineMask 0 [0x80, 1] ++ itemOf sPmcClear 0 [1] ++ itemOf sUread 0 [1])) commanded ∧
    Carries [0x0D] (fun _ => sPmcTineMask :: settings1402) (sent (scopeBytes 13 11 ++ itemOf sPmcTineMask 0 [0x80, 1] ++ itemOf sPmcClear 0 [1] ++ itemOf sUread 0 [1])) commanded 13631664 [(sPmcTineMask, 0, 32769), (sPmcClear, 0, 1), (sUread, 0, 1)] ∧ (given commanded [(sPmcTineMask, 0, 32769), (sPmcClear, 0, 1), (sUread, 0, 1)] sPmcTineMask 13631664).toNat.testBit 15 = true ∧ pmcKept.contains sUread = true :=
  ⟨by unfold Accepted; decide, ⟨by decide, by decide, _, rfl, rfl⟩, by decide⟩
set_option maxRecDepth 8192 in
theorem test_meets_set_pair : Accepted 0x0F01 (sent (scopeBytes 0 0 ++ itemOf sPaired 0 [1])) commanded ∧
    Carries [0x00] (fun _ => settings1901) (sent (scopeBytes 0 0 ++ itemOf sPaired 0 [1])) commanded 0 [(sPaired, 0, 1)] ∧ pairSerialValid (given commanded [(sPaired, 0, 1)] sPairSerial 0) = true ∧ commanded.pair.st = .solo ∧ commanded.pair.yielding = none :=
  ⟨by unfold Accepted; decide, ⟨by decide, by decide, _, rfl, rfl⟩, by decide⟩

/-! SystemLifeSecurityAndPowerCommandsAct: its hypotheses are met. -/

theorem test_meets_sys_info : Accepted 0x0101 (sent []) commanded := by unfold Accepted; decide
theorem test_meets_sys_reset : Accepted 0x0102 (sent []) commanded := by unfold Accepted; decide
theorem test_meets_sys_summary : Accepted 0x1002 (sent []) commanded := by unfold Accepted; decide
theorem test_meets_sys_lifecycle : Accepted 0x0E01 (sent []) commanded := by unfold Accepted; decide
theorem test_meets_sys_report : Accepted 0x0205 (sent []) commanded := by unfold Accepted; decide
theorem test_meets_sys_challenge : Accepted 0x0E03 (sent []) commanded := by unfold Accepted; decide
theorem test_meets_sys_unlock : commanded.sec.unlockFail.toNat < 8 := by decide
theorem test_meets_sys_fw : Accepted 0x0103 (sent [0, 1, 0, 0, 0, 0, 0, 0]) commanded ∧ regionRuns commanded true = false ∧
    commanded.flash.erasing = none ∧ Accepted 0x0103 (sent [2, 1, 0, 0, 0, 0, 0, 0]) commanded ∧
    Accepted 0x0103 (sent [3, 1, 0, 0, 0, 0, 0, 0]) commanded ∧ commanded.pwr.phase = .stable := by
  unfold Accepted; decide
set_option maxRecDepth 8192 in
theorem test_meets_life : Accepted 0x1001 (sent [1, 0, 0, 0, 0, 2]) commanded ∧ Accepted 0x1001 (sent [2, 0, 0, 1, 0, 2]) commanded ∧
    Accepted 0x1001 (sent [3, 0, 0, 0, 0xFF, 0xFF]) commanded ∧ Accepted 0x1003 (sent (List.replicate 32 7)) commanded ∧
    markRecent commanded = false := by
  unfold Accepted; refine ⟨?_, ?_, ?_, ?_, ?_⟩ <;> decide
/-- SEC_ADVANCE's payload. -/
def advanceTo (n : BitVec 8) : Bytes := [n, 0, 0, 0, 0x4C, 0x43, 0x41, 0x44]
/-- Slot 127 holds a 256-bit key, bound to nothing. -/
def keyed : State := { commanded with cry := { commanded.cry with slots := [(127, { loaded := true, size256 := true, share0 := List.replicate 32 1, share1 := List.replicate 32 0 })] } }
/-- A provisioned chip. -/
def provisioned : State := { keyed with fuses := provisionFuses keyed (advanceTo 1 ++ List.replicate 96 9) 0xFFFF, sec := { keyed.sec with lc := 1, debug := .locked } }
set_option maxRecDepth 32768 in
theorem test_meets_sec_provision : Accepted 0x0E02 (sent (advanceTo 1 ++ List.replicate 96 9)) keyed ∧ keyed.pwr.phase = .stable ∧ keyed.pwr.st = .run ∧
    field (advanceTo 1 ++ List.replicate 96 9) 4 4 = 0x4C434144 ∧ lifeCycle keyed = 0 ∧ (slotOf keyed 127).loaded = true ∧
    (slotOf keyed 127).size256 = true ∧ (slotOf keyed 127).use = 0 := by
  unfold Accepted; decide
theorem test_meets_sec_burn : burnConflict keyed.fuses (provisionFuses keyed (advanceTo 1 ++ List.replicate 96 9) 0xFFFF) = false := by
  have h : ∀ n : Fuses, burnConflict keyed.fuses n = false := by
    intro n; unfold burnConflict; simp [keyed, commanded, State.reset]
  exact h _
set_option maxRecDepth 32768 in
theorem test_meets_sec_secure : Accepted 0x0E02 (sent (advanceTo 2)) provisioned ∧ lifeCycle provisioned = 1 ∧ provisioned.sec.debug = .locked ∧
    kekValid provisioned = true ∧ Accepted 0x0E02 (sent (advanceTo 3)) provisioned ∧ lifeCycle provisioned < 3 := by
  unfold Accepted; decide
set_option maxRecDepth 32768 in
theorem test_meets_sec_debug : Accepted 0x0E04 (sent [1, 0, 0, 0]) { commanded with sec := { commanded.sec with debug := .authenticated } } ∧
    Accepted 0x0E04 (sent (List.replicate 197 0)) provisioned ∧ provisioned.sec.debug = .locked ∧ commanded.pwr.st ≠ .deepFallow := by
  unfold Accepted; decide
set_option maxRecDepth 8192 in
theorem test_meets_pwr_pads : Accepted 0x0204 (sent (natBytes 8 0xF0)) commanded ∧ pwrChanging commanded = false ∧
    BitVec.ofNat 64 (field (natBytes 8 0xF0) 0 8) &&& 0x3FFFFFFFFFFFF &&& inRetention commanded = 0 := by
  unfold Accepted; decide
theorem test_meets_pwr_pads_quiet : ∀ x, (usLaneOf commanded x).bursts = [] := fun _ => rfl
set_option maxRecDepth 8192 in
theorem test_meets_pwr_state : Accepted 0x0201 (sent (scopeBytes 0 0 ++ itemOf sPwrTarget 0 [3] ++ itemOf sRouseCode 0 [0, 0, 0x0F, 0xFF])) { commanded with clk := { commanded.clk with refclk := true } } ∧
    Carries [0x00] (fun _ => settings1803) (sent (scopeBytes 0 0 ++ itemOf sPwrTarget 0 [3] ++ itemOf sRouseCode 0 [0, 0, 0x0F, 0xFF])) { commanded with clk := { commanded.clk with refclk := true } } 0 [(sPwrTarget, 0, 3), (sRouseCode, 0, 0xFFF)] ∧
    popNat 32 0xFFF = 12 ∧ pwrCode commanded.pwr.st < pwrCode (pwrOfCode 3) ∧ commanded.pair.st = .solo ∧ rangingOrTuning commanded = false ∧ commanded.sec.debug ≠ .authenticated :=
  ⟨by unfold Accepted; decide, ⟨by decide, by decide, _, rfl, rfl⟩, by decide⟩
set_option maxRecDepth 8192 in
theorem test_meets_pwr_domains : Accepted 0x0203 (sent (natBytes 8 0x800000000008 ++ natBytes 8 0x31)) commanded ∧ commanded.pwr.st = .run ∧ commanded.pwr.phase = .stable ∧
    commanded.pwr.gating &&& 0x8000000000FF = 0 ∧ ((BitVec.ofNat 64 (field (natBytes 8 0x800000000008 ++ natBytes 8 0x31) 8 8)) &&& 0x3FFFFFFFFFFFF = 0x31#64) ∧
    ∀ n, n < 64 → (0x31#64).getLsbD n = true → gateOk commanded n = true := by
  unfold Accepted; decide
theorem test_meets_sup_bins : Accepted 0x0503 (sent (scopeBytes 2 1 ++ [0, 0, 0, 0])) commanded ∧ scopeOf commanded [0x01, 0x02, 0x03, 0x04, 0x05] (scopeBytes 2 1 ++ [0, 0, 0, 0]) = some (scopeField (scopeBytes 2 1)) ∧
    (commanded.sup.open15 :: commanded.sup.closed15)[0]? = some commanded.sup.open15 ∧ Accepted 0x0503 (sent (scopeBytes 2 1 ++ [1, 0, 0, 0])) commanded ∧
    (commanded.sup.openDay :: commanded.sup.closedDay)[0]? = some commanded.sup.openDay := by
  unfold Accepted; decide

/-! LoadsKeysSelectionsAndRolesCommandsAct: its hypotheses are met. -/

/-- Slot 3 holds a key for CRY_SEAL, slot 127 too, its counter exhausted but for one. -/
def sealed : State := { commanded with cry := { commanded.cry with slots := [(3, { use := 5, loaded := true, share0 := List.replicate 16 1, share1 := List.replicate 16 0 }), (127, { use := 5, loaded := true, ctr := 0xFFFFFFFFFFFFFFFE })] } }
theorem test_meets_seal : Accepted 0x0D02 (sent ([3, 0, 0, 1, 0, 2, 0, 0] ++ [9, 9, 9])) sealed ∧ sealed.cry.stopped = false ∧ sealSlot sealed 3 = true ∧
    (slotOf sealed 3).ctr ≠ 0xFFFFFFFFFFFFFFFF ∧ sealSlot sealed 127 = true ∧ (slotOf sealed 127).ctr ≠ 0xFFFFFFFFFFFFFFFF ∧ field ([3, 0, 0, 1, 0, 2, 0, 0] ++ [9, 9, 9]) 2 2 = 1 := by
  unfold Accepted; decide
set_option maxRecDepth 8192 in
theorem test_meets_unseal : Accepted 0x0D03 (sent ([127, 0, 0, 0, 0, 0, 0, 0] ++ List.replicate 28 0)) sealed ∧ ([127, 0, 0, 0, 0, 0, 0, 0] ++ List.replicate 28 0 : Bytes).length = 36 := by
  unfold Accepted; decide
set_option maxRecDepth 8192 in
theorem test_meets_bind : Accepted 0x0D01 (sent (scopeBytes 0x13 127 ++ itemOf sSlotUse 0 [5])) sealed ∧
    Carries [0x13] (fun _ => bindSettings) (sent (scopeBytes 0x13 127 ++ itemOf sSlotUse 0 [5])) sealed 19924976 [(sSlotUse, 0, 5)] ∧
    bindItem [(sSlotUse, 0, 5)] sSlotUse (slotOf sealed 127).use = 5 :=
  ⟨by unfold Accepted; decide, ⟨by decide, by decide, _, rfl, rfl⟩, by decide⟩
/-- A graph image of one node that ends every walk (Table 10-9). -/
def oneNode : Bytes :=
  [0x43, 0x4C, 0x54, 0x52, 0, 1, 1] ++ List.replicate 53 0 ++ natBytes 4 0x5BFC74C2 ++
    [0, 0xC0, 1] ++ List.replicate 13 0 ++ [0x80] ++ List.replicate 143 0
/-- A chunk of an image: its offset, and whether it is the first and the last. -/
def chunkOf (off flags : Nat) (b : Bytes) : Bytes := natBytes 4 off ++ natBytes 1 flags ++ [0, 0, 0] ++ b
set_option maxRecDepth 32768 in
theorem test_meets_graph_more : Accepted 0x0901 (sent (chunkOf 0 0x80 (oneNode.take 100))) commanded ∧ commanded.cls.st = .oneLive ∧
    8 ≤ (chunkOf 0 0x80 (oneNode.take 100)).length := by unfold Accepted; decide
set_option maxRecDepth 32768 in
theorem test_meets_graph_chunk : chunkStep commanded.cls.load (chunkOf 0 0x80 (oneNode.take 100)) = .more (oneNode.take 100) := rfl
set_option maxRecDepth 32768 in
theorem test_meets_graph_whole : Accepted 0x0901 (sent (chunkOf 0 0xC0 oneNode)) commanded := by unfold Accepted; decide
set_option maxRecDepth 32768 in
theorem test_meets_graph_last : chunkStep commanded.cls.load (chunkOf 0 0xC0 oneNode) = .whole oneNode := rfl
set_option maxRecDepth 65536 in
theorem test_meets_graph_ok : graphOffence oneNode = none := by decide +kernel
set_option maxRecDepth 8192 in
theorem test_meets_patterns : Accepted 0x0902 (sent ([2, 0, 24, 8, 1, 0, 0, 0, 63, 1, 0, 0] ++ List.replicate 36 0)) commanded ∧
    patSlotOk (List.replicate 36 0) = true ∧ field [2, 0] 0 2 % 1024 ≤ 512 := by unfold Accepted; decide
theorem test_meets_stage : Accepted 0x0903 (sent ([0, 1, 0, 0] ++ [7, 0, 0x7F, 0xFF])) commanded := by unfold Accepted; decide
theorem test_meets_staged : ∃ t1, stageAll (field ([0, 1, 0, 0] ++ [7, 0, 0x7F, 0xFF]) 0 2) 0 [7, 0, 0x7F, 0xFF]
    { cls := commanded.cls, waiting := (commanded.cls.rehash.map (fun r => r.inserts)).getD [] } = .ok ([], t1) := ⟨_, rfl⟩
theorem test_meets_commit : Accepted 0x0904 (sent []) commanded ∧ commanded.cls.st = .oneLive ∧ commanded.cls.inNew = 0 := by
  unfold Accepted; decide
set_option maxRecDepth 8192 in
theorem test_meets_counts : Accepted 0x0905 (sent (readReq 0x11 32767 0 0 0 2)) commanded ∧
    scopeOf commanded [0x11, 0x12] (readReq 0x11 32767 0 0 0 2) = some (scopeField (readReq 0x11 32767 0 0 0 2)) ∧
    field (readReq 0x11 32767 0 0 0 2) 4 2 = 0 := by unfold Accepted; decide
theorem test_meets_counts_some : ∃ take, clsCounts 18350064 (readReq 0x11 32767 0 0 0 2) commanded = some (0, 0, take) := ⟨_, rfl⟩
/-- A program image of one instruction, DROP, for program 64 (Tables 12-5 and 12-6). -/
def dropProgram : Bytes :=
  [0x54, 0x49, 0x4E, 0x45, 0, 1, 0, 64, 0, 1, 0, 0, 0, 16] ++ List.replicate 46 0 ++ natBytes 4 0x227DCA46 ++ [0xF1, 0, 0, 0, 0, 0, 0, 0]
set_option maxRecDepth 32768 in
theorem test_meets_program : Accepted 0x0A01 (sent (chunkOf 0 0xC0 dropProgram)) commanded ∧ 64 ≤ field dropProgram 6 2 % 4096 := by unfold Accepted; decide
set_option maxRecDepth 32768 in
theorem test_meets_program_chunk : chunkStep commanded.tine.load (chunkOf 0 0xC0 dropProgram) = .whole dropProgram ∧
    chunkStep commanded.tine.load (chunkOf 0 0x80 dropProgram) = .more dropProgram := ⟨rfl, rfl⟩
set_option maxRecDepth 65536 in
theorem test_meets_program_ok : programOffence dropProgram commanded = none := by decide
set_option maxRecDepth 8192 in
theorem test_meets_filters : Accepted 0x0702 (sent (scopeBytes 6 7 ++ [1, 7, 1, 0] ++ List.replicate 16 0xFF)) commanded ∧
    scopeOf commanded [0x06] (scopeBytes 6 7 ++ [1, 7, 1, 0] ++ List.replicate 16 0xFF) = some 6291568 ∧ namesNoPort (mode100 commanded) 6291568 = false := by
  unfold Accepted; decide
theorem test_meets_select : Accepted 0x0602 (sent [1, 1, 0, 0]) { commanded with time := { commanded.time with dom := [(1, { st := .holdover })] } } ∧
    (domOf { commanded with time := { commanded.time with dom := [(1, { st := .holdover })] } } 1).st ≠ .disabled := by unfold Accepted; decide
theorem test_meets_stop : Accepted 0x0402 (sent (scopeBytes 4 1)) dualled ∧ scopeOf dualled [0x00, 0x04] (scopeBytes 4 1) = some 4194320 ∧
    Accepted 0x0402 (sent (scopeBytes 0 0)) dualled ∧ scopeOf dualled [0x00, 0x04] (scopeBytes 0 0) = some 0 ∧ scopeInsts dualled 0 = [0, 1] := by
  unfold Accepted; decide
theorem test_meets_yield : Accepted 0x0F03 (sent [0, 1, 0, 0]) (paired fun p => { p with st := .standby }) ∧
    Accepted 0x0F03 (sent [1, 0, 0, 0]) (paired fun p => { p with st := .rejoining }) := by unfold Accepted; decide
/-- An active chip whose peer is ready, a burst leaving on lane 1. -/
def yielding : State :=
  let s := paired fun p => { p with st := .active, tetherUp := true, health := some (healthOf 2 0) }
  { s with us := { s.us with lane := [(1, { enabled := true, bursts := [burstAt (furrowAt 5 false 10 2) true] })] } }
theorem test_meets_yield_active : Accepted 0x0F03 (sent [0, 0, 0, 0]) yielding ∧ yielding.pair.st = .active ∧ peerReady yielding = true ∧
    yielding.pair.versionGap = false ∧ ∃ b ∈ (usLaneOf yielding 1).bursts.head?, b.sending = true :=
  ⟨by unfold Accepted; decide, by decide, by decide, by decide, _, rfl, rfl⟩
theorem test_meets_rejoin : Accepted 0x0F04 (sent []) (paired fun p => { p with st := .isolated, roleIn := false }) ∧
    Accepted 0x0F04 (sent []) (paired fun p => { p with st := .isolated, roleIn := true, tetherUp := true }) := by unfold Accepted; decide

/-! EveryCommandWritesOnlyItsParts: its hypotheses are met. -/

/-- Hypothesis of EveryCommandWritesOnlyItsParts. -/
theorem test_meets_writes : (∃ t, exec .gaspInClear State.reset = .next t) ∧ writes .gaspInClear = [.pins] := ⟨⟨_, rfl⟩, rfl⟩

/-! CommandsThatFailACheckApplyNothing: its hypotheses are met. -/

theorem test_meets_declines_long : asCommand (.lineSetEq (sent (List.replicate 1017 0))) = some (0x0302, sent (List.replicate 1017 0)) ∧
    reeveRuns commanded = true ∧ 1016 < (sent (List.replicate 1017 0)).payload.length := by
  refine ⟨rfl, by decide, ?_⟩
  show 1016 < (List.replicate 1017 (0 : BitVec 8)).length
  rw [List.length_replicate]; decide
theorem test_meets_declines_flags : asCommand (.lifeMark { sent [] with rsvd := 1 } []) = some (0x1003, { sent [] with rsvd := 1 }) ∧ ({ sent [] with rsvd := 1 } : Cmd).rsvd ≠ 0 ∧
    asCommand (.pairRejoin { sent [] with mirror := true }) = some (0x0F04, { sent [] with mirror := true }) ∧ isLocalOp 0x0F04 = true := by decide
theorem test_meets_declines_states : reeveRuns { commanded with win := { commanded.win with recovery := true } } = true ∧
    reeveRuns (paired (fun p => p)) = true ∧ (paired (fun p => p)).pair.st ≠ .solo ∧ (paired (fun p => p)).win.recovery = false ∧ isLocalOp 0x0401 = false := by decide
theorem test_meets_declines_power : retained { commanded with pwr := { commanded.pwr with st := .fallow } } &&& cmdNeeds 0x0901 [] ≠ 0 ∧ commanded.pair.st = .solo ∧
    reeveRuns { commanded with pwr := { commanded.pwr with st := .fallow } } = true ∧ 0x0901 ∉ [0x0301, 0x0303, 0x0904] := by decide

/-! EventsQueueInOrderAndLossesAreCounted: its hypotheses are met. -/

theorem test_meets_events : State.reset.reeve.events.length < 64 ∧
    64 ≤ ({ State.reset with reeve := { State.reset.reeve with events := List.replicate 64 (mkEvent State.reset 1 0 0 none false) } } : State).reeve.events.length := by decide

/-! EraCountsTheWrapsOfTheTimeline: its hypotheses are met. -/

theorem test_meets_era : ({ State.reset with clk := { State.reset.clk with era := 0xFFFF } } : State).clk.era = 0xFFFF := rfl

/-! TimelineValuesCompareAsSignedDifferences: its hypotheses are met. -/

theorem test_meets_compare : tlAfter (0 - 100) 100 = true ∧ tlAfter 100 (0 - 100) = false ∧ (0 : Nat) < 200 ∧ 200 < 2 ^ 63 := by decide

/-! AlertFollowsTheEnabledInterrupts: its hypotheses are met. -/

theorem test_meets_alert : alertLow { State.reset with win := { State.reset.win with intCfg := 1, intStat := 6, intEn := 4 } } = true ∧
    alertLow { State.reset with win := { State.reset.win with intCfg := 1, intStat := 2, intEn := 4 } } = false := by decide

/-! OnlyAFaultedReeveIsRestarted: its hypotheses are met. -/

theorem test_meets_restart : State.reset.pins.inReset = false ∧ State.reset.pwr.st ≠ .deepFallow ∧ State.reset.i3c.hdr = false ∧
    State.reset.reeve.lockstepErr = false ∧ State.reset.reeve.wdog = false ∧
    ({ State.reset with reeve := { State.reset.reeve with wdog := true } } : State).reeve.wdog = true := by decide

/-! ThresholdsBelowTheirClearAreRefused: its hypotheses are met. -/

set_option maxRecDepth 8192 in
theorem test_meets_crossed : Carries [0x00] (fun _ => thresholdSettings) (sent (scopeBytes 0 0 ++ itemOf sSdSet 0 [2, 44])) commanded 0 [(sSdSet, 0, 556)] ∧
    given commanded [(sSdSet, 0, 556)] sSdSet 0 < given commanded [(sSdSet, 0, 556)] sSdClr 0 :=
  ⟨⟨by decide, by decide, _, rfl, rfl⟩, by decide⟩

/-! PreciseTimeSettingsMustFitTheProfile: its hypotheses are met. -/

set_option maxRecDepth 8192 in
theorem test_meets_ptp_unicast : Accepted 0x0801 (sent (scopeBytes 6 1 ++ itemOf sPtpProfile 0 [2])) commanded ∧
    Carries [0x06] (fun _ => settings901) (sent (scopeBytes 6 1 ++ itemOf sPtpProfile 0 [2])) commanded 6291472 [(sPtpProfile, 0, 2)] ∧
    (let t := putGiven 6291472 [(sPtpProfile, 0, 2)] commanded; ptpProfile t 1 = 2 ∧ (portIp t 1).length ≠ 4) :=
  ⟨by unfold Accepted; decide, ⟨by decide, by decide, _, rfl, rfl⟩, by decide⟩
set_option maxRecDepth 8192 in
theorem test_meets_ptp_domains : Carries [0x06] (fun _ => settings901) (sent (scopeBytes 6 1 ++ itemOf sDnA 0 [43] ++ itemOf sDnB 0 [43])) commanded 6291472 [(sDnA, 0, 43), (sDnB, 0, 43)] ∧
    (let t := putGiven 6291472 [(sDnA, 0, 43), (sDnB, 0, 43)] commanded; 0 ≤ setting t sDnA 6291472 ∧ 0 ≤ setting t sDnB 6291472 ∧ ptpDomain t 1 false = ptpDomain t 1 true) ∧
    (let t := putGiven 6291472 [(sPtpProfile, 0, 1), (sDnB, 0, 44)] commanded; ptpProfile t 1 = 1 ∧ 43 < ptpDomain t 1 true) ∧
    (let t := putGiven 6291472 [(sPtpProfile, 0, 1), (sDnA, 0, 23)] commanded; ptpDomain t 1 false < 24) :=
  ⟨⟨by decide, by decide, _, rfl, rfl⟩, by decide⟩
set_option maxRecDepth 8192 in
theorem test_meets_ptp_value : parseItems 9 (itemOf sDnB 0 [128]) = some [{ row := sDnA.row, pos := sDnB.pos, idx := 0, val := [128] }] ∧ 127 < beNat [128] := by decide


/-! Ill-formed terms, one for each check of `Instr.wf`. -/

/-! Boundary cases of the hypotheses of several statements. -/

/-- CommandsLeaveTheTimeline, TimeIsKeptByItsEvents and EraCountsTheWrapsOfTheTimeline: the step that
passes 2^64, and the last that does not. -/
theorem test_meets_wrap :
    (let s := { State.reset with clk := { timeline := 0 - 500 } }
     stepGrains s = 500 ∧ 2 ^ 64 ≤ s.clk.timeline.toNat + stepGrains s) ∧
    (let s := { State.reset with clk := { timeline := 0 - 501 } }
     s.clk.timeline.toNat + stepGrains s < 2 ^ 64) := by decide
set_option maxRecDepth 8192 in
/-- CommandsThatFailACheckApplyNothing: too early for R12, and a commit held. -/
theorem test_meets_declines_early :
    (let s := { commanded with clk := { commanded.clk with onFio := true } }
     reeveRuns s = true ∧ s.win.recovery = false ∧ s.pair.st = .solo ∧ s.clk.onFio = true ∧
     retained s &&& cmdNeeds 0x0401 [] = 0) ∧
    (let s := { commanded with pair := { commanded.pair with held := [{ held0 with opcode := 0x0904 }] } }
     reeveRuns s = true ∧ (commitHeld s).isSome = true ∧ retained s &&& cmdNeeds 0x0904 [] = 0) := by decide
/-- ClockReferencesComeAndGo: the clauses of a block that has no clock or cannot lock. -/
theorem test_meets_no_clock :
    ({ refclk := false } : Clk).refclk = false ∧ ({ hrefclk := true } : Clk).hrefclk = true ∧
    (let s := { State.reset with pwr := { State.reset.pwr with st := .deepFallow } }
     s.pwr.st = .deepFallow ∧ s.pwr.phase ≠ .waking) ∧
    (let s := { State.reset with pwr := { State.reset.pwr with st := .deepFallow, phase := .waking } }
     s.clk.refclk = true ∧ s.pins.inReset = false ∧ s.pwr.phase = .waking) := by decide
/-- AcquisitionStartsFromAMarker: the CDR's range, and steps of the CTLE that are due or have room. -/
theorem test_meets_ctle :
    ((-100000 : Int) ≤ 100000 ∧ (100000 : Int) < 100001 ∧ (-100001 : Int) < -100000) ∧
    (({} : Lane).ctleAt = none ∧
     isLocked { st := .lock, cw0 := 100 } = true ∧ tlDiff 100 99 < 0 ∧ ¬ tlDiff 100 100 < 0) ∧
    (isLocked { st := .hunt } = false ∧ (swathGrains : Int) ≤ tlDiff 0 (BitVec.ofNat 64 swathGrains) ∧
     ¬ (swathGrains : Int) ≤ tlDiff 0 (BitVec.ofNat 64 (swathGrains - 1))) ∧
    (settingN State.reset sAdaptMin (scLrx 0) < 1 ∧ 0 < settingN State.reset sAdaptMax (scLrx 0)) ∧
    (∃ pre r v, ({ eqPending := [(1, 2), (3, 4)] } : Lane).eqPending = pre ++ [(r, v)]) := by
  refine ⟨by decide, by decide, by decide, by decide, [(1, 2)], 3, 4, rfl⟩
/-- LotsAreReleasedInKeyOrder: the first lot in order with its codeword decoded, and one not decoded yet. -/
theorem test_meets_release_order :
    (∀ s ∈ [oneLot, { oneLot with lanes := [(0, { laneOf oneLot 0 with sc := 0, pos := 0 }), (1, { group := some 1 }), (2, { group := some 2 }), (3, { group := some 3 })] }],
      (∀ l ∈ lanesOf s 0, (laneOf s l).cmpOpen = false) ∧ includedOf s 0 ≠ []) ∧
    (0 ∈ lanesOf oneLot 0 ∧ lot0 ∈ (laneOf oneLot 0).waiting ∧
     (∀ m ∈ lanesOf oneLot 0, ∀ w ∈ (laneOf oneLot m).waiting, m = 0 ∧ w = lot0) ∧
     (∀ m ∈ includedOf oneLot 0, 0 < scDiff lot0.key.sc (laneOf oneLot m).sc)) ∧
    (let s := { oneLot with lanes := [(0, { laneOf oneLot 0 with sc := 0, pos := 0 }), (1, { group := some 1 }), (2, { group := some 2 }), (3, { group := some 3 })] }
     0 ∈ includedOf s 0 ∧ let x := laneOf s 0
     ∀ m ∈ lanesOf s 0, ∀ w ∈ (laneOf s m).waiting, 0 ≤ scDiff x.inclFrom w.key.sc ∧
       (scDiff w.key.sc x.sc < 0 ∨ scDiff w.key.sc x.sc = 0 ∧ x.pos ≤ w.key.cw)) ∧
    (groupOf oneLot 0).released = [] ∧ { lot0 with whole := false }.whole = false := by
  refine ⟨?_, ?_, ?_, ?_, ?_⟩ <;> decide
/-- SwathBoundariesApplyWhatWaits: no comparison open and no lane that rejoins; a lane that does. -/
theorem test_meets_rejoin_lane :
    (∀ l ∈ lanesOf oneLot 0, (laneOf oneLot l).cmpOpen = false ∧ (laneOf oneLot l).included = true) ∧
    (let x : Lane := { st := .lock, included := false, everIncluded := true, sc := 5, okSwaths := 3, group := some 0 }
     let s := putSetting sTimingLane scDevice 0 2 { State.reset with lanes := [(0, x), (2, { group := some 2 })] }
     0 ∈ lanesOf s 0 ∧ (∀ l ∈ lanesOf s 0, (laneOf s l).cmpOpen = false) ∧ isLocked (laneOf s 0) = true ∧
     2 ≤ okBefore (laneOf s 0) 5 ∧ (lanesOf s 0).contains (timingLane s) = false) := by decide
/-- BurstsOpenAndCloseTheGate: windows too short, a count that has run out, a ranging window in use,
and furrows that are neither. -/
theorem test_meets_windows :
    (let f := furrowAt 0x3FFF true 100 0
     isAnnounce f = true ∧ windowUsable f = false) ∧
    (let s := { State.reset with act := { inst := [(0, { stBurst := .announce, annOpen := true, backoff := 0 })] } }
     (instOf s 0).stBurst = .announce ∧ (instOf s 0).annOpen = true ∧ (instOf s 0).backoff = 0) ∧
    (let f := furrowAt 0 true 60000 0
     let s := { State.reset with act := { inst := [(0, { stBurst := .ranging })] } }
     isAnnounce f = false ∧ isRanging s 0 f = true ∧ windowUsable f = true ∧ (instOf s 0).stBurst = .ranging) ∧
    (let l : UsLane := { ben := true }
     l.ben = true ∧ ({ refclk := false } : Clk).refclk = false ∧ l.wdTrip = false) ∧
    ({ wdTrip := true } : UsLane).wdTrip = true ∧ (usLaneOf State.reset 0).ben = false := by decide
/-- SupervisionNotesDefects: a day bin whose slot does not read back, with a spare slot and with none. -/
theorem test_meets_day_slots :
    (0 < ringCap State.reset.life 1 ∧ 0 < ringCap State.reset.life 0) ∧ nextSlot State.reset.life 1 = some 0 ∧
    State.reset.life.spareUsed + 1024 ≤ 296960 ∧
    (let l : Life := { spareUsed := 296000 }
     nextSlot l 1 = some 0 ∧ 296960 < l.spareUsed + 1024) := by decide
/-- TimeIsKeptByItsEvents: the PPS input on the free oscillator and off it. -/
theorem test_meets_pps :
    (let s := putSetting sPpsInEnable scDevice 0 1 commanded
     settingB s sPpsInEnable scDevice = true ∧ s.clk.onFio = false ∧ s.time.lastPpsIn = none) ∧
    State.reset.clk.onFio = true ∧ tlDiff 0 26562500000 = 26562500000 := by decide
/-- PortsFollowTheirLinks: the locks of a port of four lanes, and a first frame. -/
theorem test_meets_locks :
    (let s := putSetting sPortMode (scPort 0) 0 2 (portIn { link := .down })
     (∀ i, i < (portLanes s 0).length → (0xF#4).getLsbD i = true) ∧
     ¬ ∀ i, i < (portLanes s 0).length → (0x7#4).getLsbD i = true) ∧
    (floorOk State.reset = true ∧ State.reset.pwr.intakeStopped = false) := by
  refine ⟨⟨?_, ?_⟩, by decide⟩ <;> decide
/-- FramesEnterAndLeavePorts: no frame in reception; a pause that waits; a message that may leave. -/
theorem test_meets_pauses :
    ((portOf State.reset 0).rx = none ∧ (portOf (portIn { link := .up }) 0).rx = none ∧
     (portOf State.reset 0).link = .disabled) ∧
    (let x : Port := { tx := some { bytes := [], queue := none }, pauseNext := some 3 }
     x.tx ≠ none ∧ x.timeQ = [] ∧ x.pauseNext = some 3) ∧
    mayLeave State.reset 0 { kind := 2, bytes := [], ptpAt := 0, instB := false } = true ∧
    ((rxWith 1).refused = false ∧ (rxWith 1).noBuf = false ∧ (rxWith 1).cut = false) := by decide
/-- PacketsAreClassified: a commit that is held, and the two events a sweep's end may raise. -/
theorem test_meets_held_commit :
    (let s := { State.reset with pair := { State.reset.pair with held := [{ held0 with opcode := 0x0904 }] } }
     s.cls.commit = none ∧ commitHeld s = some { held0 with opcode := 0x0904 }) ∧
    commitHeld State.reset = none ∧ State.reset.reeve.events.length < 63 := by decide
/-- LoadsKeysSelectionsAndRolesCommandsAct: the seal commands of an engine stopped, and of a slot not loaded. -/
theorem test_meets_seal_refused :
    ({ stopped := true } : Cry).stopped = true ∧ commanded.cry.stopped = false ∧ sealSlot commanded 3 = false := by decide

/-- A field message of 47 bytes. -/
def shortMsg : FieldMsg := { bytes := List.replicate 47 0, lane := 0, group := 0, sc := 0, index := 0 }
theorem test_wf_message : (Instr.heProfile shortMsg).wf = false ∧
    (Instr.heProfile { shortMsg with bytes := List.replicate 48 0 }).wf = true := by decide
set_option maxRecDepth 100000 in
theorem test_wf_payload : (Instr.sysReset (sent (List.replicate 65536 0))).wf = false := by
  show decide ((List.replicate 65536 (0 : BitVec 8)).length < 65536) = false
  rw [List.length_replicate]; rfl
theorem test_wf_grant_type : (Instr.grantExpiry 0 false 0 1).wf = false ∧
    (Instr.grantExpiry 0 false 0 11).wf = true := by decide
theorem test_wf_address : (Instr.entdaa 0x7E).wf = false ∧ (Instr.entdaa 0x12).wf = true ∧
    (Instr.setdasa 0x7E).wf = false := by decide

/-! Worked examples of the spec. -/

/-- The example after R7. -/
theorem test_nanoseconds : nsToGrains 1 = 53 ∧ grainsToNs 53 = 0 ∧ nsToGrains 20000 = 1062500 := by decide
/-- The example after R22. -/
theorem test_difference_across_a_wrap : tlDiff 0xFFFFFFFFFFFFF000 0x1000 = 8192 := by decide
/-- The example after R27. -/
theorem test_carry_into_seconds :
    toTod ((1800000000 * 53125000000 + 52593750000 + 2125000000) * 256) =
      { sec := 1800000001, grain := 1593750000 } := by decide
/-- The example after R28. -/
theorem test_time_stamp : ptpStamp (26562500053 * 256) = (0, 500000000, 65382) := by decide
/-- The example after R99. -/
theorem test_furrow_start :
    (entryFurrow { State.reset with us := { State.reset.us with lane := [(0, { eqd := 1234567 })] } } 0
      7 (BitVec.ofNat 128 (1 * 2 ^ 107 + 1062500 * 2 ^ 84 + 106250 * 2 ^ 61)) 987654321000).s =
      987658477442 := by decide
/-- The examples after R119 and in "Joining the network". -/
theorem test_burst_lengths : burstShape 1 106250 false = (106112, 19, 1) ∧
    burstShape 2 10000 false = (9600, 1, 0) := by decide
/-- The example after R434. -/
theorem test_line_nonce : lineNonce 5000 252 2 false 0x421 = natBytes 12 0x1388007E40421000 := by decide
/-- Words of Table 13-10, each field written from the text below it. -/
theorem test_instruction_words :
    insnWord 0x30 ⟨2, 0, 0, 0, false, false, 0, 0x01C00016⟩ = 0x3020000001C00016 ∧
    insnWord 0x20 ⟨0, 2, 0, 4, false, false, 0, 0x0001000D⟩ = 0x200204000001000D ∧
    insnWord 0x31 ⟨4, 0, 0, 0, false, false, 1, 0x03C00016⟩ = 0x3140000103C00016 ∧
    insnWord 0x1D ⟨5, 5, 6, 0, false, true, 0, 0⟩ = 0x1D55608000000000 ∧
    insnWord 0xF3 ⟨0, 0, 0, 0, false, false, 0, 1⟩ = 0xF300000000000001 := by decide
/-- The sums of the example after Table 13-10. -/
theorem test_checksum_update : csadd 0x479E 0xBFEE = 0x078D ∧ csadd 0x078D 0x3F11 = 0x469E := by decide
/-- The meter of Table 15-10. -/
def tableMeter (tc tp last t : Nat) : State :=
  let s := putSetting sMtMode (scMeter 0) 0 2 (putSetting sCir (scMeter 0) 0 1000000 (putSetting sPir (scMeter 0) 0 2000000
    (putSetting sCbs (scMeter 0) 0 3000 (putSetting sEbs (scMeter 0) 0 6000 State.reset))))
  putMeter 0 { tc := tc * 2 ^ 32, te := tp * 2 ^ 32, last := BitVec.ofNat 64 last }
    { s with clk := { s.clk with timeline := BitVec.ofNat 64 t } }
set_option maxRecDepth 8192 in
theorem test_meter_yellow : (meterOp 0 0 1500 (tableMeter 150 3300 63750 127500)).1 = some 1 ∧
    tabGet ({} : Meter) (meterOp 0 0 1500 (tableMeter 150 3300 63750 127500)).2.qos.meters 0 =
      { tc := 300 * 2 ^ 32, te := 2100 * 2 ^ 32, last := 127500 } := by decide
set_option maxRecDepth 8192 in
theorem test_meter_red : (meterOp 0 0 1500 (tableMeter 450 900 191250 255000)).1 = some 2 ∧
    tabGet ({} : Meter) (meterOp 0 0 1500 (tableMeter 450 900 191250 255000)).2.qos.meters 0 =
      { tc := 600 * 2 ^ 32, te := 1200 * 2 ^ 32, last := 255000 } := by decide
/-- The shaper example after R564. -/
def shaperBytes : Bytes :=
  [0x0B, 0x00, 0x01, 0x2C, 0x00, 0x10, 0x00, 0x01, 0x01, 0x00, 0x20, 0x00, 0x04, 0x00, 0x1E, 0x84, 0x80,
   0x00, 0x30, 0x00, 0x02, 0x02, 0x00, 0x00, 0x40, 0x00, 0x01, 0x00]
/-- The state that a command leaves. -/
def after (i : Instr) (s : State) : State :=
  match exec i s with
  | .next t => t
  | _ => s
set_option maxRecDepth 8192 in
theorem test_shaper_command :
    (let t := after (.qosSetShaper (sent shaperBytes)) commanded
     setting t sShRate (scUsQueue 300) = 2000000 ∧ setting t sShBurst (scUsQueue 300) = 512) := by decide

/-! Check sequences over the characters 1 to 9, the values that published lists of CRC parameters
give for these parameters (R36, R60, R91, R41, R134). -/

/-- The characters 1 to 9. -/
def nine : Bytes := [0x31, 0x32, 0x33, 0x34, 0x35, 0x36, 0x37, 0x38, 0x39]
set_option maxRecDepth 8192 in
theorem test_check_sequences : crcBits 7 0x09 0 (bitsOf nine) = 0x75 ∧ crcBits 8 0x07 0 (bitsOf nine) = 0xF4 ∧
    crc16 (bitsOf nine) = 0x29B1 ∧ crc32 nine = 0xFC891918 := by decide
set_option maxRecDepth 8192 in
theorem test_message_check : crc64 nine = 0x62EC59E3F1A4F00A := by decide

/-! One step of each family. -/

theorem test_timeline_wraps : (after .timelineWrap { State.reset with clk := { timeline := 0 - 1, era := 0xFFFF } }).clk.era = 0 := by decide
theorem test_cdr_lock : (laneOf (after (.cdrLock 0 5) (laneIn { st := .hunt })) 0).cdrLocked = true := by decide
theorem test_marker_opens_a_slot : (laneOf (after (.rawMarkerMatch 0 1083) (laneIn { st := .hunt })) 0).slots = [{ start := 1000 }] := by decide
theorem test_power_on_starts_the_timeline : (after .vddAonPowerOn { State.reset with clk := { timeline := 7, era := 3 } }).clk.timeline = 0 := by decide
theorem test_reset_clears_the_address : (after .resetNAssert { State.reset with i3c := { dynAddr := some 9 } }).i3c.dynAddr = none := by decide
theorem test_mailbox_pointer_stays : (after (.registerWrite 0x44 0x12) { State.reset with win := { State.reset.win with cmdFree := true } }).i3c.winAddr = 0x44 ∧
    (after (.registerWrite 0x43 0) State.reset).i3c.winAddr = 0x44 := by decide
theorem test_mailbox_stores : (after (.mbInDataWrite 0x12) { State.reset with win := { State.reset.win with cmdFree := true } }).win.inbound = [(0, 0x12)] := by decide
theorem test_doorbell_rejected : (after .mbDoorbell State.reset).win.dbReject = true := by decide
theorem test_pop_of_an_empty_fifo : exec .evtPop State.reset = .next State.reset := rfl
theorem test_gasp : (after .gaspInAssert State.reset).pins.gasp = true := by decide
theorem test_key_select : (after (.keySelWrite 0x85) State.reset).cry.sel.toNat = 5 := by decide
theorem test_enthdr0 : (after .enthdr0 State.reset).i3c.hdr = true := by decide
theorem test_pps_capture : (after (.ppsInEdge 100) { State.reset with time := { State.reset.time with lastPpsIn := some 50 } }).time.captures = [] := by decide
set_option maxRecDepth 100000 in
theorem test_add : (threadAt (after (.add th0 ⟨1, 0, 0, 0, false, false, 0, 7⟩)
    (onWord 0x10 ⟨1, 0, 0, 0, false, false, 0, 7⟩ threadIn)) th0).pc = 1 := by decide

end Sys2Proof.Tests
end

/-! PROOFS. The clocks, the timeline and the time block (spec/01, spec/07). -/

namespace Sys2Proof.Machine
variable {s t : State}

/-- Every command writes only the parts that `writes` gives it, row by row from the frame of its
own arm. -/
theorem only_exec (i : Instr) (h : exec i s = .next t) : Only (writes i) s t := by
  cases i
  case vddAonPowerOn => exact only_execVddAonPowerOn (by dsimp only [writes]; decide) h
  case resetNAssert => exact only_execResetNAssert (by dsimp only [writes]; decide) h
  case resetNRelease => exact only_execResetNRelease (by dsimp only [writes]; decide) h
  case pwrgoodFall => exact only_execPwrgoodFall (by dsimp only [writes]; decide) h
  case pwrgoodRise => exact only_execPwrgoodRise (by dsimp only [writes]; decide) h
  case bootImageCheckDone => exact only_execBootImageCheckDone (by dsimp only [writes]; decide) h
  case rootPllLock => exact only_execRootPllLock (by dsimp only [writes]; decide) h
  case refclkLost => exact only_execRefclkLost (by dsimp only [writes]; decide) h
  case refclkReturn => exact only_execRefclkReturn (by dsimp only [writes]; decide) h
  case timelineWrap => exact only_execTimelineWrap (by dsimp only [writes]; decide) h
  case discardHoldover => exact only_execDiscardHoldover (by dsimp only [writes]; decide) h
  case cdrLock => exact only_execCdrLock (by dsimp only [writes]; decide) h
  case cdrUnlock => exact only_execCdrUnlock (by dsimp only [writes]; decide) h
  case rawMarkerMatch => exact only_execRawMarkerMatch (by dsimp only [writes]; decide) h
  case codewordDecoded => exact only_execCodewordDecoded (by dsimp only [writes]; decide) h
  case cw0NotReceived => exact only_execCw0NotReceived (by dsimp only [writes]; decide) h
  case resumeTimeout => exact only_execResumeTimeout (by dsimp only [writes]; decide) h
  case ctleAdaptStep => exact only_execCtleAdaptStep (by dsimp only [writes]; decide) h
  case lineSetEqApply => exact only_execLineSetEqApply (by dsimp only [writes]; decide) h
  case swathBoundary => exact only_execSwathBoundary (by dsimp only [writes]; decide) h
  case lotHeaderRelease => exact only_execLotHeaderRelease (by dsimp only [writes]; decide) h
  case fragReassemblyTimeout =>
      exact only_execFragReassemblyTimeout (by dsimp only [writes]; decide) h
  case plantReport => exact only_execPlantReport (by dsimp only [writes]; decide) h
  case managementLot => exact only_execManagementLot (by dsimp only [writes]; decide) h
  case furrowMapEntry => exact only_execFurrowMapEntry (by dsimp only [writes]; decide) h
  case headerSamplePoint => exact only_execHeaderSamplePoint (by dsimp only [writes]; decide) h
  case burstEnable => exact only_execBurstEnable (by dsimp only [writes]; decide) h
  case burstEnd => exact only_execBurstEnd (by dsimp only [writes]; decide) h
  case laserWatchdog => exact only_execLaserWatchdog (by dsimp only [writes]; decide) h
  case watchdogRefclkTrip => exact only_execWatchdogRefclkTrip (by dsimp only [writes]; decide) h
  case fragAbandonTx => exact only_execFragAbandonTx (by dsimp only [writes]; decide) h
  case gaspInAssert => exact only_execGaspInAssert (by dsimp only [writes]; decide) h
  case gaspInClear => exact only_execGaspInClear (by dsimp only [writes]; decide) h
  case heProfile => exact only_execHeProfile (by dsimp only [writes]; decide) h
  case assignId => exact only_execAssignId (by dsimp only [writes]; decide) h
  case rangingTime => exact only_execRangingTime (by dsimp only [writes]; decide) h
  case assignPlot => exact only_execAssignPlot (by dsimp only [writes]; decide) h
  case assignLot => exact only_execAssignLot (by dsimp only [writes]; decide) h
  case deactivate => exact only_execDeactivate (by dsimp only [writes]; decide) h
  case silence => exact only_execSilence (by dsimp only [writes]; decide) h
  case release => exact only_execRelease (by dsimp only [writes]; decide) h
  case tune => exact only_execTune (by dsimp only [writes]; decide) h
  case switchParent => exact only_execSwitchParent (by dsimp only [writes]; decide) h
  case toProfileExpiry => exact only_execToProfileExpiry (by dsimp only [writes]; decide) h
  case toRangeExpiry => exact only_execToRangeExpiry (by dsimp only [writes]; decide) h
  case toHoldExpiry => exact only_execToHoldExpiry (by dsimp only [writes]; decide) h
  case toTuneExpiry => exact only_execToTuneExpiry (by dsimp only [writes]; decide) h
  case tunePoll => exact only_execTunePoll (by dsimp only [writes]; decide) h
  case silenceDurationExpiry =>
      exact only_execSilenceDurationExpiry (by dsimp only [writes]; decide) h
  case losDeclare => exact only_execLosDeclare (by dsimp only [writes]; decide) h
  case losClear => exact only_execLosClear (by dsimp only [writes]; decide) h
  case lolDeclare => exact only_execLolDeclare (by dsimp only [writes]; decide) h
  case lolClear => exact only_execLolClear (by dsimp only [writes]; decide) h
  case ltmDeclare => exact only_execLtmDeclare (by dsimp only [writes]; decide) h
  case rdiEvaluation => exact only_execRdiEvaluation (by dsimp only [writes]; decide) h
  case holdOffExpiry => exact only_execHoldOffExpiry (by dsimp only [writes]; decide) h
  case binClose => exact only_execBinClose (by dsimp only [writes]; decide) h
  case binSecondEnd => exact only_execBinSecondEnd (by dsimp only [writes]; decide) h
  case timeSow => exact only_execTimeSow (by dsimp only [writes]; decide) h
  case fitWindowEnd => exact only_execFitWindowEnd (by dsimp only [writes]; decide) h
  case holdValidExpiry => exact only_execHoldValidExpiry (by dsimp only [writes]; decide) h
  case slewDone => exact only_execSlewDone (by dsimp only [writes]; decide) h
  case ppsInEdge => exact only_execPpsInEdge (by dsimp only [writes]; decide) h
  case ppsInLost => exact only_execPpsInLost (by dsimp only [writes]; decide) h
  case rxFrameStart => exact only_execRxFrameStart (by dsimp only [writes]; decide) h
  case rxFrameEnd => exact only_execRxFrameEnd (by dsimp only [writes]; decide) h
  case pauseExpiry => exact only_execPauseExpiry (by dsimp only [writes]; decide) h
  case pcsStatusChange => exact only_execPcsStatusChange (by dsimp only [writes]; decide) h
  case linkUpDelayExpiry => exact only_execLinkUpDelayExpiry (by dsimp only [writes]; decide) h
  case faultOrderedSetRx => exact only_execFaultOrderedSetRx (by dsimp only [writes]; decide) h
  case faultCleared => exact only_execFaultCleared (by dsimp only [writes]; decide) h
  case blockLockLoss => exact only_execBlockLockLoss (by dsimp only [writes]; decide) h
  case hiBer => exact only_execHiBer (by dsimp only [writes]; decide) h
  case slCtleAdapt => exact only_execSlCtleAdapt (by dsimp only [writes]; decide) h
  case hrefclkLost => exact only_execHrefclkLost (by dsimp only [writes]; decide) h
  case hrefclkReturn => exact only_execHrefclkReturn (by dsimp only [writes]; decide) h
  case dsSchedulingDecision =>
      exact only_execDsSchedulingDecision (by dsimp only [writes]; decide) h
  case txFrameDone => exact only_execTxFrameDone (by dsimp only [writes]; decide) h
  case delayReq => exact only_execDelayReq (by dsimp only [writes]; decide) h
  case signaling => exact only_execSignaling (by dsimp only [writes]; decide) h
  case arpRequest => exact only_execArpRequest (by dsimp only [writes]; decide) h
  case neighborSolicitation =>
      exact only_execNeighborSolicitation (by dsimp only [writes]; decide) h
  case ptpAnnounceTx => exact only_execPtpAnnounceTx (by dsimp only [writes]; decide) h
  case ptpSyncTx => exact only_execPtpSyncTx (by dsimp only [writes]; decide) h
  case followUp => exact only_execFollowUp (by dsimp only [writes]; decide) h
  case grantExpiry => exact only_execGrantExpiry (by dsimp only [writes]; decide) h
  case ppsOutEdge => exact only_execPpsOutEdge (by dsimp only [writes]; decide) h
  case ppsOutFall => exact only_execPpsOutFall (by dsimp only [writes]; decide) h
  case todOutMessage => exact only_execTodOutMessage (by dsimp only [writes]; decide) h
  case coulterWalk => exact only_execCoulterWalk (by dsimp only [writes]; decide) h
  case emLookup => exact only_execEmLookup (by dsimp only [writes]; decide) h
  case rehashDone => exact only_execRehashDone (by dsimp only [writes]; decide) h
  case sweepDone => exact only_execSweepDone (by dsimp only [writes]; decide) h
  case retireSlow => exact only_execRetireSlow (by dsimp only [writes]; decide) h
  case tineDispatch => exact only_execTineDispatch (by dsimp only [writes]; decide) h
  case nop => exact only_execNop (by dsimp only [writes]; decide) h
  case add => exact only_execAdd (by dsimp only [writes]; decide) h
  case sub => exact only_execSub (by dsimp only [writes]; decide) h
  case and => exact only_execAnd (by dsimp only [writes]; decide) h
  case or => exact only_execOr (by dsimp only [writes]; decide) h
  case xor => exact only_execXor (by dsimp only [writes]; decide) h
  case shl => exact only_execShl (by dsimp only [writes]; decide) h
  case shr => exact only_execShr (by dsimp only [writes]; decide) h
  case sra => exact only_execSra (by dsimp only [writes]; decide) h
  case mul => exact only_execMul (by dsimp only [writes]; decide) h
  case minu => exact only_execMinu (by dsimp only [writes]; decide) h
  case maxu => exact only_execMaxu (by dsimp only [writes]; decide) h
  case mov => exact only_execMov (by dsimp only [writes]; decide) h
  case cmp => exact only_execCmp (by dsimp only [writes]; decide) h
  case csadd => exact only_execCsadd (by dsimp only [writes]; decide) h
  case ext => exact only_execExt (by dsimp only [writes]; decide) h
  case ins => exact only_execIns (by dsimp only [writes]; decide) h
  case br => exact only_execBr (by dsimp only [writes]; decide) h
  case ldw => exact only_execLdw (by dsimp only [writes]; decide) h
  case stw => exact only_execStw (by dsimp only [writes]; decide) h
  case push => exact only_execPush (by dsimp only [writes]; decide) h
  case pop => exact only_execPop (by dsimp only [writes]; decide) h
  case bmov => exact only_execBmov (by dsimp only [writes]; decide) h
  case hash => exact only_execHash (by dsimp only [writes]; decide) h
  case ld => exact only_execLd (by dsimp only [writes]; decide) h
  case st => exact only_execSt (by dsimp only [writes]; decide) h
  case atom => exact only_execAtom (by dsimp only [writes]; decide) h
  case srd => exact only_execSrd (by dsimp only [writes]; decide) h
  case swr => exact only_execSwr (by dsimp only [writes]; decide) h
  case satom => exact only_execSatom (by dsimp only [writes]; decide) h
  case tlook => exact only_execTlook (by dsimp only [writes]; decide) h
  case elook => exact only_execElook (by dsimp only [writes]; decide) h
  case meter => exact only_execMeter (by dsimp only [writes]; decide) h
  case count => exact only_execCount (by dsimp only [writes]; decide) h
  case setQueue => exact only_execSetQueue (by dsimp only [writes]; decide) h
  case tsread => exact only_execTsread (by dsimp only [writes]; decide) h
  case pmcread => exact only_execPmcread (by dsimp only [writes]; decide) h
  case cipher => exact only_execCipher (by dsimp only [writes]; decide) h
  case emit => exact only_execEmit (by dsimp only [writes]; decide) h
  case drop => exact only_execDrop (by dsimp only [writes]; decide) h
  case recirculate => exact only_execRecirculate (by dsimp only [writes]; decide) h
  case trap => exact only_execTrap (by dsimp only [writes]; decide) h
  case serviceResult => exact only_execServiceResult (by dsimp only [writes]; decide) h
  case pmcOverflow => exact only_execPmcOverflow (by dsimp only [writes]; decide) h
  case sampleTag => exact only_execSampleTag (by dsimp only [writes]; decide) h
  case cipherOpComplete => exact only_execCipherOpComplete (by dsimp only [writes]; decide) h
  case drbgReseed => exact only_execDrbgReseed (by dsimp only [writes]; decide) h
  case entropyExhausted => exact only_execEntropyExhausted (by dsimp only [writes]; decide) h
  case keySelWrite => exact only_execKeySelWrite (by dsimp only [writes]; decide) h
  case keyLoad => exact only_execKeyLoad (by dsimp only [writes]; decide) h
  case keyErase => exact only_execKeyErase (by dsimp only [writes]; decide) h
  case keyEraseAll => exact only_execKeyEraseAll (by dsimp only [writes]; decide) h
  case keyRequestCommit => exact only_execKeyRequestCommit (by dsimp only [writes]; decide) h
  case entryE2 => exact only_execEntryE2 (by dsimp only [writes]; decide) h
  case noticeWaitExpiry => exact only_execNoticeWaitExpiry (by dsimp only [writes]; decide) h
  case drainWaitExpiry => exact only_execDrainWaitExpiry (by dsimp only [writes]; decide) h
  case entryE3 => exact only_execEntryE3 (by dsimp only [writes]; decide) h
  case entryE4 => exact only_execEntryE4 (by dsimp only [writes]; decide) h
  case entryE5 => exact only_execEntryE5 (by dsimp only [writes]; decide) h
  case slSignal => exact only_execSlSignal (by dsimp only [writes]; decide) h
  case lineLight => exact only_execLineLight (by dsimp only [writes]; decide) h
  case lineDark => exact only_execLineDark (by dsimp only [writes]; decide) h
  case wakeIn => exact only_execWakeIn (by dsimp only [writes]; decide) h
  case i3cWake => exact only_execI3cWake (by dsimp only [writes]; decide) h
  case pwrWake => exact only_execPwrWake (by dsimp only [writes]; decide) h
  case rouseDecision => exact only_execRouseDecision (by dsimp only [writes]; decide) h
  case listenPowerUp => exact only_execListenPowerUp (by dsimp only [writes]; decide) h
  case wakeComplete => exact only_execWakeComplete (by dsimp only [writes]; decide) h
  case bufBankGated => exact only_execBufBankGated (by dsimp only [writes]; decide) h
  case leaseRenewal => exact only_execLeaseRenewal (by dsimp only [writes]; decide) h
  case leaseExpiry => exact only_execLeaseExpiry (by dsimp only [writes]; decide) h
  case roleDrop => exact only_execRoleDrop (by dsimp only [writes]; decide) h
  case roleInChange => exact only_execRoleInChange (by dsimp only [writes]; decide) h
  case roleClaim => exact only_execRoleClaim (by dsimp only [writes]; decide) h
  case takeover => exact only_execTakeover (by dsimp only [writes]; decide) h
  case lockYieldExpiry => exact only_execLockYieldExpiry (by dsimp only [writes]; decide) h
  case hello _ seq _ => exact only_execHello (_u0 := seq) (by dsimp only [writes]; decide) h
  case helloTx => exact only_execHelloTx (by dsimp only [writes]; decide) h
  case health _ seq _ => exact only_execHealth (_u0 := seq) (by dsimp only [writes]; decide) h
  case healthTx => exact only_execHealthTx (by dsimp only [writes]; decide) h
  case mirrorCmd _ seq _ _ _ _ =>
      exact only_execMirrorCmd (_u0 := seq) (by dsimp only [writes]; decide) h
  case mirrorAck _ seq _ _ =>
      exact only_execMirrorAck (_u0 := seq) (by dsimp only [writes]; decide) h
  case mirrorAckTimeout => exact only_execMirrorAckTimeout (by dsimp only [writes]; decide) h
  case timeCmp _ seq _ _ _ _ =>
      exact only_execTimeCmp (_u0 := seq) (by dsimp only [writes]; decide) h
  case timeCmpStart => exact only_execTimeCmpStart (by dsimp only [writes]; decide) h
  case snapReq _ seq _ _ => exact only_execSnapReq (_u0 := seq) (by dsimp only [writes]; decide) h
  case snapData _ seq _ _ _ =>
      exact only_execSnapData (_u0 := seq) (by dsimp only [writes]; decide) h
  case snapEnd _ seq _ _ _ _ _ _ =>
      exact only_execSnapEnd (_u0 := seq) (by dsimp only [writes]; decide) h
  case snapTimeout => exact only_execSnapTimeout (by dsimp only [writes]; decide) h
  case tetherHealthTimeout => exact only_execTetherHealthTimeout (by dsimp only [writes]; decide) h
  case tetherBlockLockLoss => exact only_execTetherBlockLockLoss (by dsimp only [writes]; decide) h
  case lockstepMismatch => exact only_execLockstepMismatch (by dsimp only [writes]; decide) h
  case reeveWatchdogExpiry => exact only_execReeveWatchdogExpiry (by dsimp only [writes]; decide) h
  case reeveRestart => exact only_execReeveRestart (by dsimp only [writes]; decide) h
  case mbDoorbell => exact only_execMbDoorbell (by dsimp only [writes]; decide) h
  case mbInDataWrite => exact only_execMbInDataWrite (by dsimp only [writes]; decide) h
  case mbOutDataRead => exact only_execMbOutDataRead (by dsimp only [writes]; decide) h
  case mbRespAck => exact only_execMbRespAck (by dsimp only [writes]; decide) h
  case evtPop => exact only_execEvtPop (by dsimp only [writes]; decide) h
  case intStatClear => exact only_execIntStatClear (by dsimp only [writes]; decide) h
  case winCommit => exact only_execWinCommit (by dsimp only [writes]; decide) h
  case registerWrite => exact only_execRegisterWrite (by dsimp only [writes]; decide) h
  case commandTaken => exact only_execCommandTaken (by dsimp only [writes]; decide) h
  case ibiRetry => exact only_execIbiRetry (by dsimp only [writes]; decide) h
  case sysResetDeferred => exact only_execSysResetDeferred (by dsimp only [writes]; decide) h
  case fwEraseDone => exact only_execFwEraseDone (by dsimp only [writes]; decide) h
  case tempSample => exact only_execTempSample (by dsimp only [writes]; decide) h
  case entdaa => exact only_execEntdaa (by dsimp only [writes]; decide) h
  case setdasa => exact only_execSetdasa (by dsimp only [writes]; decide) h
  case rstdaa => exact only_execRstdaa (by dsimp only [writes]; decide) h
  case enec => exact only_execEnec (by dsimp only [writes]; decide) h
  case disec => exact only_execDisec (by dsimp only [writes]; decide) h
  case setmwl => exact only_execSetmwl (by dsimp only [writes]; decide) h
  case setmrl => exact only_execSetmrl (by dsimp only [writes]; decide) h
  case getmwl => exact only_execGetmwl (by dsimp only [writes]; decide) h
  case getmrl => exact only_execGetmrl (by dsimp only [writes]; decide) h
  case getpid => exact only_execGetpid (by dsimp only [writes]; decide) h
  case getbcr => exact only_execGetbcr (by dsimp only [writes]; decide) h
  case getdcr => exact only_execGetdcr (by dsimp only [writes]; decide) h
  case getstatus => exact only_execGetstatus (by dsimp only [writes]; decide) h
  case getcaps => exact only_execGetcaps (by dsimp only [writes]; decide) h
  case enthdr0 => exact only_execEnthdr0 (by dsimp only [writes]; decide) h
  case sysGetInfo => exact only_execSysGetInfo (by dsimp only [writes]; decide) h
  case sysReset => exact only_execSysReset (by dsimp only [writes]; decide) h
  case sysFwActivate => exact only_execSysFwActivate (by dsimp only [writes]; decide) h
  case pwrSetState => exact only_execPwrSetState (by dsimp only [writes]; decide) h
  case pwrGetState => exact only_execPwrGetState (by dsimp only [writes]; decide) h
  case pwrSetDomains => exact only_execPwrSetDomains (by dsimp only [writes]; decide) h
  case pwrReleasePads => exact only_execPwrReleasePads (by dsimp only [writes]; decide) h
  case pwrGetWakeReport => exact only_execPwrGetWakeReport (by dsimp only [writes]; decide) h
  case lineConfigureLanes => exact only_execLineConfigureLanes (by dsimp only [writes]; decide) h
  case lineSetEq => exact only_execLineSetEq (by dsimp only [writes]; decide) h
  case lineSetGroup => exact only_execLineSetGroup (by dsimp only [writes]; decide) h
  case lineGetLock => exact only_execLineGetLock (by dsimp only [writes]; decide) h
  case lineGetCounters => exact only_execLineGetCounters (by dsimp only [writes]; decide) h
  case actStart => exact only_execActStart (by dsimp only [writes]; decide) h
  case actStop => exact only_execActStop (by dsimp only [writes]; decide) h
  case actGetState => exact only_execActGetState (by dsimp only [writes]; decide) h
  case actSetParenting => exact only_execActSetParenting (by dsimp only [writes]; decide) h
  case supSetActions => exact only_execSupSetActions (by dsimp only [writes]; decide) h
  case supGetDefects => exact only_execSupGetDefects (by dsimp only [writes]; decide) h
  case supGetBins => exact only_execSupGetBins (by dsimp only [writes]; decide) h
  case supSetThresholds => exact only_execSupSetThresholds (by dsimp only [writes]; decide) h
  case timeSetDomains => exact only_execTimeSetDomains (by dsimp only [writes]; decide) h
  case timeSelect => exact only_execTimeSelect (by dsimp only [writes]; decide) h
  case timeSetAsym => exact only_execTimeSetAsym (by dsimp only [writes]; decide) h
  case timeGetFit => exact only_execTimeGetFit (by dsimp only [writes]; decide) h
  case timeSetOutputs => exact only_execTimeSetOutputs (by dsimp only [writes]; decide) h
  case timeGetStatus => exact only_execTimeGetStatus (by dsimp only [writes]; decide) h
  case portConfigure => exact only_execPortConfigure (by dsimp only [writes]; decide) h
  case portSetFilters => exact only_execPortSetFilters (by dsimp only [writes]; decide) h
  case portSetSheaf => exact only_execPortSetSheaf (by dsimp only [writes]; decide) h
  case portGetStats => exact only_execPortGetStats (by dsimp only [writes]; decide) h
  case ptpConfigurePort => exact only_execPtpConfigurePort (by dsimp only [writes]; decide) h
  case ptpGetPort => exact only_execPtpGetPort (by dsimp only [writes]; decide) h
  case clsLoadGraph => exact only_execClsLoadGraph (by dsimp only [writes]; decide) h
  case clsSetPatterns => exact only_execClsSetPatterns (by dsimp only [writes]; decide) h
  case clsStageRules => exact only_execClsStageRules (by dsimp only [writes]; decide) h
  case clsCommit => exact only_execClsCommit (by dsimp only [writes]; decide) h
  case clsGetGeneration => exact only_execClsGetGeneration (by dsimp only [writes]; decide) h
  case tineLoadProgram => exact only_execTineLoadProgram (by dsimp only [writes]; decide) h
  case tineSetPerms => exact only_execTineSetPerms (by dsimp only [writes]; decide) h
  case tineGetFaults => exact only_execTineGetFaults (by dsimp only [writes]; decide) h
  case pmcConfigure => exact only_execPmcConfigure (by dsimp only [writes]; decide) h
  case pmcRead => exact only_execPmcRead (by dsimp only [writes]; decide) h
  case pmcSampleStart => exact only_execPmcSampleStart (by dsimp only [writes]; decide) h
  case pmcSampleRead => exact only_execPmcSampleRead (by dsimp only [writes]; decide) h
  case qosSetQueue => exact only_execQosSetQueue (by dsimp only [writes]; decide) h
  case qosSetSched => exact only_execQosSetSched (by dsimp only [writes]; decide) h
  case qosSetShaper => exact only_execQosSetShaper (by dsimp only [writes]; decide) h
  case qosSetMeter => exact only_execQosSetMeter (by dsimp only [writes]; decide) h
  case qosGetQueue => exact only_execQosGetQueue (by dsimp only [writes]; decide) h
  case cryBindSlot => exact only_execCryBindSlot (by dsimp only [writes]; decide) h
  case crySeal => exact only_execCrySeal (by dsimp only [writes]; decide) h
  case cryUnseal => exact only_execCryUnseal (by dsimp only [writes]; decide) h
  case cryGetSlot => exact only_execCryGetSlot (by dsimp only [writes]; decide) h
  case secGetLifecycle => exact only_execSecGetLifecycle (by dsimp only [writes]; decide) h
  case secAdvance => exact only_execSecAdvance (by dsimp only [writes]; decide) h
  case secDebugChallenge => exact only_execSecDebugChallenge (by dsimp only [writes]; decide) h
  case secDebugUnlock => exact only_execSecDebugUnlock (by dsimp only [writes]; decide) h
  case pairConfigure => exact only_execPairConfigure (by dsimp only [writes]; decide) h
  case pairGetState => exact only_execPairGetState (by dsimp only [writes]; decide) h
  case pairYield => exact only_execPairYield (by dsimp only [writes]; decide) h
  case pairRejoin => exact only_execPairRejoin (by dsimp only [writes]; decide) h
  case lifeRead => exact only_execLifeRead (by dsimp only [writes]; decide) h
  case lifeGetSummary => exact only_execLifeGetSummary (by dsimp only [writes]; decide) h
  case lifeMark => exact only_execLifeMark (by dsimp only [writes]; decide) h
  case usedRecordTimeout => exact only_execUsedRecordTimeout (by dsimp only [writes]; decide) h
  case atSwathExtrapolatedArrival =>
      exact only_execAtSwathExtrapolatedArrival (by dsimp only [writes]; decide) h
  case debugPortAccess => exact only_execDebugPortAccess (by dsimp only [writes]; decide) h
  case trapQueueService => exact only_execTrapQueueService (by dsimp only [writes]; decide) h
  case undefinedFieldMessage =>
      exact only_execUndefinedFieldMessage (by dsimp only [writes]; decide) h
  case roleOutReadbackChange =>
      exact only_execRoleOutReadbackChange (by dsimp only [writes]; decide) h

end Sys2Proof.Machine

/-! What leaves the timeline and the era (R16, R18, R20): the operations of the line. An operation
that writes no clock at all has its frame (`Only`) for that; the lemmas are about the others. -/

namespace Sys2Proof.Machine
variable {ps : List Part} {s₀ s t u : State} {α : Type}

/-- `t` shows the timeline and the era of `s`. -/
def TimeStays (s t : State) : Prop :=
  t.clk.timeline = s.clk.timeline ∧ t.clk.era = s.clk.era

/-- Every part but the clocks. -/
def offClk : List Part := everything.erase .clk

theorem TimeStays.refl (s : State) : TimeStays s s := ⟨rfl, rfl⟩

theorem TimeStays.same (h : TimeStays s₀ s) (e : t.clk = s.clk) : TimeStays s₀ t := by
  unfold TimeStays; rw [e]; exact h

/-- An operation that is known to write other parts only. -/
theorem TimeStays.frame (h : TimeStays s₀ s) (k : Only offClk s s → Only offClk s t) :
    TimeStays s₀ t := h.same (k (Only.refl s) .clk (by decide))

theorem TimeStays.ite {c : Prop} [Decidable c] (h : TimeStays s₀ s) (k : TimeStays s₀ t) :
    TimeStays s₀ (if c then s else t) := by split <;> assumption

theorem TimeStays.ite_snd {c : Prop} [Decidable c] {p q : α × State} (h : TimeStays s₀ p.2)
    (k : TimeStays s₀ q.2) : TimeStays s₀ (if c then p else q).2 := by split <;> assumption

/-- A condition under which an operation follows. -/
theorem only_ite_step {c : Prop} [Decidable c] (f : Only ps s₀ s → Only ps s₀ t)
    (g : Only ps s₀ s → Only ps s₀ u) (h : Only ps s₀ s) : Only ps s₀ (if c then t else u) :=
  only_ite (f h) (g h)

theorem time_each {f : α → State → State} (hf : ∀ x s, TimeStays s₀ s → TimeStays s₀ (f x s))
    (xs : List α) (h : TimeStays s₀ s) : TimeStays s₀ (each f xs s) := by
  induction xs generalizing s with
  | nil => exact h
  | cons x xs ih => exact ih (hf x s h)

theorem time_setRef {r : PllRef} (h : TimeStays s₀ s) : TimeStays s₀ (setRef r s) := by
  unfold setRef
  exact h.ite (TimeStays.frame (s := { s with clk := { s.clk with ref := r } }) h
    (only_raise (by decide)))

theorem time_refLook (h : TimeStays s₀ s) : TimeStays s₀ (refLook s) := by
  unfold refLook
  dsimp only
  split
  · exact TimeStays.ite h (time_setRef h)
  · refine TimeStays.ite h (TimeStays.ite (time_setRef h)
      (TimeStays.frame ?_ (only_raise (by decide))))
    exact h

theorem time_lockLook (h : TimeStays s₀ s) : TimeStays s₀ (lockLook s) :=
  ((time_refLook h).frame (only_gateLook (by decide))).frame (only_actLockLook (by decide))

theorem time_listenEnd {l n : Nat} (h : TimeStays s₀ s) : TimeStays s₀ (listenEnd l n s) := by
  unfold listenEnd
  exact (time_refLook (h.frame (only_laneDown (by decide)))).ite h

theorem time_loseLock {l : Nat} (h : TimeStays s₀ s) : TimeStays s₀ (loseLock l s) := by
  have h1 : TimeStays s₀ (lofEntry l (raise 0x0302 l 0 (bump cLockLost (scLrx l) 1
      (dropAlignment l .hunt s)))) := h.frame fun k => only_lofEntry (by decide)
    (only_raise (by decide) (only_bump (by decide) (only_dropAlignment (by decide) k)))
  unfold loseLock
  exact ((time_lockLook h1).frame (only_wakeEvent (by decide))).ite (time_lockLook h1)

theorem time_confirmCw0 {l : Nat} {start : BitVec 64} {tx : BitVec 2} {p : Bytes} {b : Bool}
    (h : TimeStays s₀ s) : TimeStays s₀ (confirmCw0 l start tx p b s) := by
  unfold confirmCw0
  refine time_listenEnd (TimeStays.frame h fun k => only_listenCount (by decide)
    (only_feed (by decide) ?_))
  refine only_ite_step (only_startDelin (by decide)) (only_startDelin (by decide)) ?_
  refine only_priConflict (by decide) (only_bondLook (by decide)
    (only_ite_step (only_windowEnd (by decide)) id (only_recordArrival (by decide) ?_)))
  refine only_ite_step (only_bump (by decide)) id
    (only_ite_step (fun k => only_raise (by decide) (only_bump (by decide) k)) id ?_)
  exact only_ite_step id (only_bump (by decide)) (only_modLane (by decide)
    (only_bondClose (by decide) k))

theorem time_gainLock {l : Nat} {start : BitVec 64} {tx : BitVec 2} {p : Bytes} {sc : BitVec 48}
    (h : TimeStays s₀ s) : TimeStays s₀ (gainLock l start tx p sc s) := by
  unfold gainLock
  exact time_lockLook (time_confirmCw0 (h.frame fun k => only_lockEntry (by decide)
    (only_raise (by decide) (only_bump (by decide) (only_modLane (by decide) k)))))

theorem time_missCw0 {l : Nat} (h : TimeStays s₀ s) : TimeStays s₀ (missCw0 l s) := by
  have h1 : TimeStays s₀ (bump cMarkerMiss (scLrx l) 1 (bondClose l s)) :=
    h.frame fun k => only_bump (by decide) (only_bondClose (by decide) k)
  unfold missCw0
  refine TimeStays.ite (time_loseLock (h1.frame fun k => only_recordArrival (by decide)
    (only_modLane (by decide) k))) (h1.frame fun k => only_startDelin (by decide) ?_)
  exact only_bondLook (by decide) (only_windowEnd (by decide) (only_recordArrival (by decide)
    (only_modLane (by decide) k)))

theorem time_verifyCodeword {l : Nat} {start : BitVec 64} {d : Option Decoded}
    (h : TimeStays s₀ s) : TimeStays s₀ (verifyCodeword l start d s) := by
  have h1 {n : Nat} : TimeStays s₀ (bump cCandRejected (scLrx l) n s) :=
    h.frame (only_bump (by decide))
  have h2 {n : Nat} {ks : List Slot} :
      TimeStays s₀ (putSlots l ks (bump cCandRejected (scLrx l) n s)) :=
    h1.frame (only_putSlots (by decide))
  unfold verifyCodeword
  dsimp only
  split
  · exact time_gainLock h1
  · split
    · exact h2.frame (only_recordArrival (by decide))
    · exact h2

theorem time_lockedCw0 {l : Nat} {start : BitVec 64} {d : Option Decoded} (h : TimeStays s₀ s) :
    TimeStays s₀ (lockedCw0 l start d s) := by
  have hm {d : Option Decoded} {a b : Bool} : TimeStays s₀ (countCodeword l d a b (missCw0 l s)) :=
    (time_missCw0 h).frame (only_countCodeword (by decide))
  unfold lockedCw0
  cases d with
  | none => exact hm
  | some c => exact TimeStays.ite ((time_confirmCw0 h).frame (only_countCodeword (by decide))) hm

theorem time_lockedCw {l n : Nat} {d : Option Decoded} (h : TimeStays s₀ s) :
    TimeStays s₀ (lockedCw l n d s) := by
  have h1 {a : Bool} : TimeStays s₀ (countCodeword l d a true (catchUp l n s)) :=
    h.frame fun k => only_countCodeword (by decide) (only_catchUp (by decide) k)
  have h2 {a : Bool} {b : List (Option (BitVec 8))} {f : Lane → Lane} :
      TimeStays s₀ (feed l (640 * n) b (modLane l f (countCodeword l d a true (catchUp l n s)))) :=
    h1.frame fun k => only_feed (by decide) (only_modLane (by decide) k)
  unfold lockedCw
  refine time_listenEnd ?_
  cases d with
  | none => exact h2
  | some c => exact TimeStays.ite h2 h2

theorem time_resumeCodeword {l : Nat} {start : BitVec 64} {d : Option Decoded}
    (h : TimeStays s₀ s) : TimeStays s₀ (resumeCodeword l start d s) := by
  have h1 {a : Bool} : TimeStays s₀ (countCodeword l d a false s) :=
    h.frame (only_countCodeword (by decide))
  unfold resumeCodeword
  cases d with
  | none => exact h1
  | some c => exact TimeStays.ite (time_gainLock h1) h1

theorem time_disableLane {l : Nat} (h : TimeStays s₀ s) : TimeStays s₀ (disableLane l s) := by
  unfold disableLane
  exact time_lockLook (h.frame fun k => only_clearLaneDefects (by decide) (only_modLane (by decide)
    (only_excludeLane (by decide) (only_dropPartial (by decide) k))))

theorem time_assignGroup {l : Nat} {g : BitVec 2} (h : TimeStays s₀ s) :
    TimeStays s₀ (assignGroup l g s) := by
  unfold assignGroup
  refine TimeStays.frame (time_lockLook (h.frame fun k => only_modLane (by decide) ?_))
    (only_supLook (by decide))
  exact only_ite_step (fun k => only_modLane (by decide) (only_excludeLane (by decide)
    (only_dropPartial (by decide) k))) id k

theorem time_setParenting {dual : Bool} (h : TimeStays s₀ s) :
    TimeStays s₀ (setParenting dual s) := by
  unfold setParenting
  extract_lets a s1 b s2
  have h2 : TimeStays s₀ s2 := h
  exact (time_lockLook (h2.ite (h2.frame (only_plotsNone (by decide))))).frame
    (only_supLook (by decide))

theorem time_switchParent {n : Nat} (h : TimeStays s₀ s) : TimeStays s₀ (switchParent n s) := by
  unfold switchParent
  extract_lets a s1 s2 s3
  have h1 : TimeStays s₀ s1 := h.frame fun k => only_dropPartSent (by decide)
    (only_f_act (by decide) k)
  have h3 : TimeStays s₀ s3 := h1.frame fun k => only_raise (by decide) (only_bump (by decide)
    (only_selectDomain (by decide) k))
  exact (time_lockLook h3).frame (only_supLook (by decide))

theorem time_boundaryOps {g : Nat} {sc : BitVec 48} (h : TimeStays s₀ s) :
    TimeStays s₀ (boundaryOps g sc s) := by
  unfold boundaryOps
  extract_lets s1 s2 i s3 s4 s5
  have h4 : TimeStays s₀ s4 := h.frame fun k => only_fitAccumulate (by decide)
    (only_foldEqd (by decide) (only_runTodo (by decide) (only_tagForm (by decide)
      (only_reasmBoundary (by decide) (only_modGroup (by decide)
        (only_recordPrimary (by decide) k))))))
  refine time_refLook ?_
  unfold s5
  split
  · exact (time_switchParent h4).ite h4
  · exact h4

end Sys2Proof.Machine

/-! What leaves the timeline and the era: the commands of the host. -/

namespace Sys2Proof.Machine
variable {s₀ s : State}

theorem time_settingsCmd {ks : List Nat} {specs : Nat → List SSpec} {c : Call}
    {k : Nat → List Given → Call → State → Reply × State}
    (hk : ∀ sc gs, TimeStays s₀ (k sc gs c s).2) (h : TimeStays s₀ s) :
    TimeStays s₀ (settingsCmd ks specs k c s).2 := by
  have hl : TimeStays s₀ (badLength s).2 := h.frame (only_badLength (by decide))
  have ha {a b : Nat} : TimeStays s₀ (badArg a b s).2 := h.frame (only_badArg (by decide))
  unfold settingsCmd
  refine hl.ite_snd ?_
  split
  · exact ha
  · split
    · exact hl
    · split
      · exact ha
      · exact hk _ _

theorem time_fixedCmd {n : Nat} {c : Call} {k : Bytes → Call → State → Reply × State}
    (hk : ∀ p, TimeStays s₀ (k p c s).2) (h : TimeStays s₀ s) :
    TimeStays s₀ (fixedCmd n k c s).2 := by
  unfold fixedCmd
  exact (h.frame (only_badLength (by decide))).ite_snd (hk _)

theorem time_lineConfigureLanesBody {o0 o1 : Optics} {c : Call} (h : TimeStays s₀ s) :
    TimeStays s₀ (lineConfigureLanesBody o0 o1 c s).2 := by
  refine time_settingsCmd (fun sc gs => ?_) h
  have h1 : TimeStays s₀ (putGiven sc gs s) := h.frame (only_putGiven (by decide))
  have h2 {x : Nat} : TimeStays s₀ (enableLane x (domainOn x (putGiven sc gs s))) :=
    h1.frame fun k => only_enableLane (by decide) (only_domainOn (by decide) k)
  refine TimeStays.ite_snd (time_lockLook h1) (TimeStays.ite_snd h1 (TimeStays.ite_snd ?_ ?_))
  · exact (h2.ite (time_disableLane h1)).frame (only_supLook (by decide))
  · exact h1.frame fun k => only_gateLook (by decide) (only_roleOutLook (by decide)
      (only_ite_step (only_enableLtx (by decide)) (only_modUsLane (by decide)) k))

theorem time_lineSetGroupBody {c : Call} (h : TimeStays s₀ s) :
    TimeStays s₀ (lineSetGroupBody c s).2 := by
  refine time_settingsCmd (fun sc gs => ?_) h
  have h1 : TimeStays s₀ (putGiven sc gs s) := h.frame (only_putGiven (by decide))
  have hn : TimeStays s₀ (notInState s).2 := h.frame (only_notInState (by decide))
  exact TimeStays.ite_snd h (TimeStays.ite_snd
    (TimeStays.ite_snd hn (h1.frame (only_setUsMode (by decide))))
    (TimeStays.ite_snd hn (time_assignGroup h1)))

theorem time_actSetParentingBody {c : Call} (h : TimeStays s₀ s) :
    TimeStays s₀ (actSetParentingBody c s).2 := by
  refine time_settingsCmd (fun sc gs => ?_) h
  have hn : TimeStays s₀ (notInState s).2 := h.frame (only_notInState (by decide))
  refine TimeStays.ite_snd hn (TimeStays.ite_snd hn ?_)
  extract_lets s1 s2
  have h1 : TimeStays s₀ s1 := h.ite (time_setParenting h)
  have h2 : TimeStays s₀ s2 := (h1.frame (only_putSetting (by decide))).ite h1
  exact (h2.frame (only_requestSwitch (by decide))).ite h2

/-- The commands that take effect at a boundary. -/
theorem time_bodyOf {o0 o1 : Optics} {op : Nat} {b : CmdBody} {c : Call}
    (e : bodyOf o0 o1 op = some b) (h : TimeStays s₀ s) : TimeStays s₀ (b c s).2 := by
  unfold bodyOf at e
  split at e <;> cases e
  · exact time_lineConfigureLanesBody h
  · exact time_lineSetGroupBody h
  · exact h.frame (only_actStartBody (by decide))
  · exact h.frame (only_actStopBody (by decide))
  · exact time_actSetParentingBody h
  · exact h.frame (only_supSetActionsBody (by decide))
  · exact h.frame (only_supSetThresholdsBody (by decide))
  · exact h.frame (only_timeSetDomainsBody (by decide))
  · exact h.frame (only_timeSelectBody (by decide))
  · exact h.frame (only_portConfigureBody (by decide))
  · exact h.frame (only_portSetFiltersBody (by decide))
  · exact h.frame (only_portSetSheafBody (by decide))
  · exact h.frame (only_ptpConfigurePortBody (by decide))
  · exact h.frame (only_clsLoadGraphBody (by decide))
  · exact h.frame (only_clsSetPatternsBody (by decide))
  · exact h.frame (only_clsStageRulesBody (by decide))
  · exact h.frame (only_clsCommitBody (by decide))
  · exact h.frame (only_tineLoadProgramBody (by decide))
  · exact h.frame (only_tineSetPermsBody (by decide))
  · exact h.frame (only_qosSetQueueBody (by decide))
  · exact h.frame (only_qosSetSchedBody (by decide))
  · exact h.frame (only_qosSetShaperPortBody (by decide))
  · exact h.frame (only_qosSetMeterBody (by decide))
  · exact h.frame (only_cryBindSlotBody (by decide))

theorem time_applyDeferred {o0 o1 : Optics} {sc : BitVec 48} {d : Deferred}
    (h : TimeStays s₀ s) : TimeStays s₀ (applyDeferred o0 o1 sc d s) := by
  unfold applyDeferred
  split
  · exact h
  · next b e =>
    have h1 {c : Call} {f : Reeve → Reeve} : TimeStays s₀ (b c (modReeve f s)).2 :=
      time_bodyOf e (h.frame (only_modReeve (by decide)))
    have h2 {m : Bool} {c : Call} {f : Reeve → Reeve} :
        TimeStays s₀ (markMgmt m (modReeve f s) (b c (modReeve f s)).2) :=
      h1.frame (only_markMgmt (by decide))
    exact TimeStays.ite (h2.ite (h2.frame (only_raiseTag (by decide))))
      (h2.frame (only_answer (by decide)))

/-! Commands of the host. -/

theorem time_applyHeld {op : Nat} {b : CmdBody} {c : Cmd} {fp : Bool}
    (hb : ∀ c s, TimeStays s₀ s → TimeStays s₀ (b c s).2) (h : TimeStays s₀ s) :
    TimeStays s₀ (applyHeld op b c fp s) := by
  unfold applyHeld
  split
  · exact h
  · refine h.ite ?_
    extract_lets s1 call s2
    have h1 : TimeStays s₀ s1 := h.frame (only_modPair (by decide))
    have h2 : TimeStays s₀ s2 := (hb _ _ h1).frame (only_markMgmt (by decide))
    exact h2.ite (h2.frame (only_raiseTag (by decide)))

theorem time_runCmd {op : Nat} {b : CmdBody} {c : Cmd}
    (hb : ∀ c s, TimeStays s₀ s → TimeStays s₀ (b c s).2) (h : TimeStays s₀ s) :
    TimeStays s₀ (runCmd op b c s) := by
  unfold runCmd
  refine h.ite ?_
  split
  · exact time_applyHeld hb h
  · extract_lets s0 call
    have h0 : TimeStays s₀ s0 := h.frame (only_untake (by decide))
    have h1 : TimeStays s₀ (b call s0).2 := hb _ _ h0
    split
    · refine TimeStays.frame ?_ (only_answer (by decide))
      split
      · exact (h0.frame (only_bump (by decide))).ite h0
      · exact h0
    · refine (h1.frame (only_answer (by decide))).ite
        ((h0.frame (only_mirrorOut (by decide))).ite (TimeStays.ite ?_ ?_))
      · exact (h0.frame fun k => only_answer (by decide) (only_modReeve (by decide) k)).ite
          (h0.frame fun k => only_busyLook (by decide) (only_modReeve (by decide) k))
      · exact (h1.frame (only_busyLook (by decide))).ite
          (h1.frame fun k => only_answer (by decide) (only_markMgmt (by decide) k))

end Sys2Proof.Machine

/-! What leaves the timeline and the era: power states, snapshots, resets. -/

namespace Sys2Proof.Machine
variable {s₀ s : State}

/-! Retention banks and power states. -/

theorem time_clearAonLine (h : TimeStays s₀ s) : TimeStays s₀ (clearAonLine s) := by
  unfold clearAonLine
  extract_lets held s1 light sup s2 s3
  have h1 : TimeStays s₀ s1 :=
    h.frame fun k => only_freeBushels (by decide) (only_dropSettings (by decide) k)
  have h2 : TimeStays s₀ s2 := time_each (fun _ _ k => k.frame (only_modLane (by decide))) _ h1
  have h3 : TimeStays s₀ s3 := time_each (fun _ _ k => k.frame fun k => only_domDisable (by decide)
    (only_putSetting (by decide) k)) _ h2
  exact (time_refLook h3).frame fun k => only_roleOutLook (by decide) (only_supLook (by decide) k)

theorem time_clearLane {rx : Bool} {l : Nat} (h : TimeStays s₀ s) :
    TimeStays s₀ (clearLane rx l s) := by
  unfold clearLane
  extract_lets sc s1
  have h1 : TimeStays s₀ s1 := h.frame (only_dropSettings (by decide))
  refine TimeStays.ite ?_ (h1.frame fun k => only_gateLook (by decide)
    (only_roleOutLook (by decide) (only_modUsLane (by decide) k)))
  exact (time_lockLook ((time_disableLane h1).frame (only_modLane (by decide)))).frame
    (only_supLook (by decide))

theorem time_bankFail {n : Nat} (h : TimeStays s₀ s) : TimeStays s₀ (bankFail n s) := by
  unfold bankFail
  extract_lets s1
  have h1 : TimeStays s₀ s1 :=
    TimeStays.ite (time_clearAonLine h) (TimeStays.ite (h.frame (only_clearReeve (by decide)))
      (TimeStays.ite (time_clearLane h) (TimeStays.ite (time_clearLane h)
      (TimeStays.ite (h.frame (only_clearQuad (by decide)))
      (TimeStays.ite (h.frame (only_clearCls (by decide)))
      (TimeStays.ite (h.frame (only_clearMeters (by decide)))
      (TimeStays.ite (h.frame (only_clearCrypto (by decide))) (h.ite
      (TimeStays.ite (h.frame fun k => only_modPair (by decide) (only_dropSettings (by decide) k))
      (TimeStays.ite (h.frame (only_clearHarrow (by decide)))
        (h.frame (only_clearBuf (by decide)))))))))))))
  exact h1.frame fun k => only_raise (by decide) (only_bump (by decide)
    (only_f_life (by decide) k))

theorem time_failBanks {failed d : BitVec 64} (h : TimeStays s₀ s) :
    TimeStays s₀ (failBanks failed d s) := by
  have h1 {ks : List Nat} : TimeStays s₀ (each bankFail ks s) :=
    time_each (fun _ _ k => time_bankFail k) _ h
  unfold failBanks
  exact (h1.frame (only_unloadPrograms (by decide))).ite h1

theorem time_gateOn {failed : BitVec 64} {n : Nat} (h : TimeStays s₀ s) :
    TimeStays s₀ (gateOn failed n s) := by
  unfold gateOn
  refine TimeStays.ite (h.frame fun k => ?_) (h.ite ?_)
  · exact only_ite_step (only_f_qos (by decide)) id (only_modPwr (by decide) k)
  extract_lets s1 q s2 s3
  have h3 : TimeStays s₀ s3 := time_failBanks (h.frame fun k =>
    only_ite_step (only_f_qos (by decide)) id (only_modPwr (by decide) k))
  refine TimeStays.ite ?_ h3
  split
  · exact h3.frame fun k => only_each (fun _ _ k => only_modPmc (by decide) k)
      (only_modTine (by decide) k)
  · exact h3

theorem time_pwrSetDomainsBody {failed : BitVec 64} {c : Call} (h : TimeStays s₀ s) :
    TimeStays s₀ (pwrSetDomainsBody failed c s).2 := by
  have ha : TimeStays s₀ (badArg 0 0 s).2 := h.frame (only_badArg (by decide))
  have h1 {on off : List Nat} {tag : BitVec 16} :
      TimeStays s₀ (each (gateOff tag) off (each (gateOn failed) on s)) :=
    time_each (fun _ _ k => k.frame (only_gateOff (by decide))) _
      (time_each (fun _ _ k => time_gateOn k) _ h)
  refine time_fixedCmd (fun p => ha.ite_snd (TimeStays.ite_snd (h.frame (only_stBusy (by decide)))
    (TimeStays.ite_snd (h.frame (only_notInState (by decide))) (TimeStays.ite_snd h1 h1)))) h

theorem time_latchPads {x : BitVec 8} (h : TimeStays s₀ s) : TimeStays s₀ (latchPads x s) := by
  unfold latchPads
  extract_lets p deep lit s1 s2 tm s3
  have h1 : TimeStays s₀ s1 := h.frame (only_modPwr (by decide))
  have h2 : TimeStays s₀ s2 :=
    (time_refLook (time_each (fun _ _ k => k.frame (only_laneDown (by decide))) _ h1)).ite h1
  have h3 : TimeStays s₀ s3 := h2.frame (only_ite_step (only_f_time (by decide)) id)
  exact h3.frame (only_gateLook (by decide))

theorem time_isolate (h : TimeStays s₀ s) : TimeStays s₀ (isolate s) := by
  unfold isolate
  extract_lets p low s1 s2 s3 c s4
  have h1 : TimeStays s₀ s1 :=
    (time_refLook (time_each (fun _ _ k => k.frame (only_servoLose (by decide))) _ h)).ite h
  have h3 : TimeStays s₀ s3 :=
    h1.frame fun k => only_modPwr (by decide) (only_accrue (by decide) k)
  have h4 : TimeStays s₀ s4 := TimeStays.ite h3 h3
  exact h4.frame (only_bump (by decide))

theorem time_reportGap (h : TimeStays s₀ s) : TimeStays s₀ (reportGap s) := by
  unfold reportGap
  exact TimeStays.ite (TimeStays.frame (s := { s with clk := { s.clk with tlGap := false } }) h
    fun k => only_raise (by decide) (only_f_life (by decide) k)) h

theorem time_completeWake {w : Wake} {failed : BitVec 64} (h : TimeStays s₀ s) :
    TimeStays s₀ (completeWake w failed s) := by
  unfold completeWake
  extract_lets st deep c s1 before ks bad s2 lost s3 s4 s5 s6 s7 s8 ops
  have h1 : TimeStays s₀ s1 := TimeStays.ite h h
  have h4 : TimeStays s₀ s4 := (time_failBanks h1).frame fun k =>
    only_each (fun _ _ k => only_laneUp (by decide) k) (only_modPwr (by decide) k)
  have h6 : TimeStays s₀ s6 := h4.frame fun k => only_modPwr (by decide)
    (only_accrue (by decide) (only_ite_step (only_wakeBins (by decide)) id k))
  have h8 : TimeStays s₀ s8 := (time_reportGap h6).frame fun k => only_modPwr (by decide)
    (only_pwrEvent (by decide) k)
  exact (time_refLook (h8.frame fun k =>
    only_each (fun _ _ k => only_queueNotice (by decide) k) k)).frame (only_timeLook (by decide))

/-! A snapshot of the peer. -/

theorem time_snapLane {l : Nat} {g : Option (BitVec 2)} (h : TimeStays s₀ s) :
    TimeStays s₀ (snapLane l g s) := by
  unfold snapLane
  extract_lets s1
  have h1 : TimeStays s₀ s1 := by
    unfold s1
    cases g with
    | none => exact h
    | some g => exact h.ite (time_assignGroup h)
  exact TimeStays.ite (h1.frame fun k => only_enableLane (by decide) (only_domainOn (by decide) k))
    (h1.ite (time_disableLane h1))

theorem time_applySnap {o0 o1 : Optics} {x : Snap} (h : TimeStays s₀ s) :
    TimeStays s₀ (applySnap o0 o1 x s) := by
  unfold applySnap
  extract_lets s1 s2 s3 s4 s5 s6 s7 s8 s9 s10
  have h1 : TimeStays s₀ s1 := time_each (fun _ _ k => time_snapLane k) _
    (h.frame (only_snapSettings (by decide)))
  have h3 : TimeStays s₀ s3 := h1.frame fun k => only_each
    (fun _ _ k => only_modUsLane (by decide) k)
    (only_snapAct (by decide) (only_each (fun _ _ => only_ite_step (only_enableLtx (by decide))
      (only_modUsLane (by decide))) k))
  have h5 : TimeStays s₀ s5 := h3.frame fun k => only_each (fun _ _ k => only_modSlot (by decide) k)
    (only_snapTables (by decide) (only_each (fun _ _ k => only_modPort (by decide) k) k))
  have h8 : TimeStays s₀ s8 := h5.frame fun k => only_selectDomain (by decide)
    (only_each (fun _ _ k => only_putFit (by decide) k)
      (only_each (fun _ _ k => only_snapDom (by decide) k) k))
  have h10 : TimeStays s₀ s10 := h8.frame fun k => only_modPair (by decide)
    (only_each (fun _ _ k => only_snapEmpty (by decide) k)
      (only_each (fun _ _ k => only_snapEmpty (by decide) k) k))
  exact (time_lockLook (h10.frame fun k => only_startOps (by decide) (only_keysLook (by decide)
    (only_portsLook (by decide) k)))).frame (only_supLook (by decide))

theorem time_applyLate {o0 o1 : Optics} {x : Held} (h : TimeStays s₀ s) :
    TimeStays s₀ (applyLate o0 o1 x s) := by
  unfold applyLate
  split
  · exact h
  · next b e => exact time_bodyOf e (h.frame (only_modPair (by decide)))

theorem time_takeSnapshot {o0 o1 : Optics} {sc : BitVec 48} {x : Snap} (h : TimeStays s₀ s) :
    TimeStays s₀ (takeSnapshot o0 o1 sc x s) := by
  unfold takeSnapshot
  extract_lets s1 s2 reached s3
  have h2 : TimeStays s₀ s2 := (time_applySnap h).frame (only_modPair (by decide))
  have h3 : TimeStays s₀ s3 := time_each (fun _ _ k => time_applyLate k) _ h2
  exact h3.frame fun k => only_bump (by decide) (only_setPair (by decide)
    (only_modPair (by decide) k))

/-! Resets keep the timeline and the era (R16, R20). -/

theorem time_deviceReset {sys : Bool} (h : TimeStays s₀ s) : TimeStays s₀ (deviceReset sys s) := h

theorem time_sysReset (h : TimeStays s₀ s) : TimeStays s₀ (sysReset s) :=
  (time_deviceReset (sys := true) h).frame (only_bootUp (by decide))

theorem time_enterReset (h : TimeStays s₀ s) : TimeStays s₀ (enterReset s) := h

theorem time_releaseReset (h : TimeStays s₀ s) : TimeStays s₀ (releaseReset s) :=
  (time_enterReset h).ite ((time_deviceReset (sys := false) h).frame (only_bootUp (by decide)))

theorem time_commandedReset (h : TimeStays s₀ s) : TimeStays s₀ (commandedReset s) :=
  time_sysReset (h.frame (only_checkpoint (by decide)))

theorem time_respAck (h : TimeStays s₀ s) : TimeStays s₀ (respAck s) :=
  h.ite ((time_commandedReset h).ite (h.frame fun k => only_busyLook (by decide)
    (only_postResponses (by decide) (only_modWin (by decide) k))))

theorem time_restartReeve (h : TimeStays s₀ s) : TimeStays s₀ (restartReeve s) :=
  (time_sysReset h).ite h

theorem time_windowWrite {a v : BitVec 8} (h : TimeStays s₀ s) :
    TimeStays s₀ (windowWrite a v s) := by
  have hw {f : Win → Win} : TimeStays s₀ (modWin f s) := h.frame (only_modWin (by decide))
  unfold windowWrite
  extract_lets one
  split
  · exact h.frame (only_clearInt (by decide))
  · exact (h.frame (only_popEvent (by decide))).ite h
  · exact (h.frame (only_doorbell (by decide))).ite h
  · exact hw
  · exact hw
  · exact h.frame (only_mbInWrite (by decide))
  · exact hw
  · exact hw
  · exact (time_respAck h).ite h
  · exact hw
  · exact hw
  · exact (h.frame (only_winCommit (by decide))).ite h
  · exact (time_restartReeve h).ite h
  · exact h.frame (only_keySelWrite (by decide))
  · exact h.frame (only_keyCtrlWrite (by decide))
  · exact (h.frame (only_keyDataWrite (by decide))).ite h

theorem time_addressed {f : State → State} (hf : ∀ s, TimeStays s₀ s → TimeStays s₀ (f s))
    (h : TimeStays s₀ s) : TimeStays s₀ (addressed f s) := by
  unfold addressed
  exact h.ite (TimeStays.ite (h.frame (only_wakeEvent (by decide))) (hf s h))

theorem time_tetherIn {ok : Bool} {f : State → State}
    (hf : ∀ s, TimeStays s₀ s → TimeStays s₀ (f s)) (h : TimeStays s₀ s) :
    TimeStays s₀ (tetherIn ok f s) := by
  unfold tetherIn
  exact h.ite (TimeStays.ite (h.frame (only_bump (by decide))) (hf s h))

end Sys2Proof.Machine

/-! What leaves the timeline and the era: every command but TIMELINE_WRAP and VDD_AON_POWER_ON. -/

namespace Sys2Proof.Machine
variable {s₀ s t u : State}

theorem time_of_next (k : TimeStays s₀ u) (h : (Host.Outcome.next u : Out) = .next t) :
    TimeStays s₀ t := Host.Outcome.next.inj h ▸ k

theorem time_of_ite {c : Prop} [Decidable c] {p q : Out} (hp : p = .next t → TimeStays s₀ t)
    (hq : q = .next t → TimeStays s₀ t) (h : (if c then p else q) = .next t) :
    TimeStays s₀ t := by
  split at h
  · exact hp h
  · exact hq h

/-! The commands of clocks, lanes and swaths. -/

theorem time_execRefclkLost (h : execRefclkLost s = .next t) : TimeStays s t := by
  unfold execRefclkLost at h
  extract_lets c s0 s1 at h
  have h0 : TimeStays s s0 := TimeStays.refl s
  have h1 : TimeStays s s1 := h0.frame (only_each fun _ _ k => only_modUsLane (by decide) k)
  refine time_of_ite (time_of_next (TimeStays.refl s)) (time_of_ite (time_of_next (h1.frame fun k =>
    only_gateLook (by decide) (only_raise (by decide) k))) (time_of_next ?_)) h
  exact h1

theorem time_execRefclkReturn (h : execRefclkReturn s = .next t) : TimeStays s t := by
  refine time_of_next (TimeStays.frame ?_ (only_each fun _ _ k => only_modUsLane (by decide) k)) h
  exact TimeStays.refl s

theorem time_execDiscardHoldover (h : execDiscardHoldover s = .next t) : TimeStays s t := by
  unfold execDiscardHoldover at h
  split at h
  · refine time_of_next (time_setRef ?_) h
    exact TimeStays.refl s
  · exact time_of_next (TimeStays.refl s) h

theorem time_execHrefclkLost (h : execHrefclkLost s = .next t) : TimeStays s t := by
  refine time_of_ite (time_of_next (TimeStays.refl s)) (time_of_next (TimeStays.frame ?_ fun k =>
    only_each (fun _ _ k => only_pcsFalse (by decide) (only_modPort (by decide) k))
      (only_raise (by decide) k))) h
  exact TimeStays.refl s

theorem time_execCodewordDecoded {l : Fin 4} {start : BitVec 64} {w : BitVec 5440}
    (h : execCodewordDecoded l start w s = .next t) : TimeStays s t := by
  have hs : (Host.Outcome.next s : Out) = .next t → TimeStays s t := time_of_next (TimeStays.refl s)
  have h0 : TimeStays s (lockedCw0 l start (decodeWord w) (catchUp l 1250 s)) :=
    time_lockedCw0 ((TimeStays.refl s).frame (only_catchUp (by decide)))
  unfold execCodewordDecoded at h
  refine time_of_ite hs (fun h => ?_) h
  split at h
  · exact hs h
  · exact hs h
  · exact hs h
  · exact time_of_next (time_verifyCodeword (TimeStays.refl s)) h
  · exact time_of_next (time_resumeCodeword (TimeStays.refl s)) h
  -- LOCK, MISS1 and MISS2 look for the codeword's place alike
  all_goals
    split at h
    · exact hs h
    · exact time_of_ite (time_of_next h0) (time_of_next (time_lockedCw (TimeStays.refl s))) h

theorem time_execCw0NotReceived {l : Fin 4} {start : BitVec 64}
    (h : execCw0NotReceived l start s = .next t) : TimeStays s t := by
  have hs : (Host.Outcome.next s : Out) = .next t → TimeStays s t := time_of_next (TimeStays.refl s)
  have hm : (Host.Outcome.next (missCw0 l (catchUp l 1250 s)) : Out) = .next t → TimeStays s t :=
    time_of_next (time_missCw0 ((TimeStays.refl s).frame (only_catchUp (by decide))))
  unfold execCw0NotReceived at h
  refine time_of_ite hs (fun h => ?_) h
  split at h
  · exact time_of_next ((TimeStays.refl s).frame fun k => only_putSlots (by decide)
      (only_bump (by decide) k)) h
  · exact time_of_ite hm hs h
  · exact time_of_ite hm hs h
  · exact time_of_ite hm hs h
  · exact hs h

theorem time_execSwathBoundary {g : Fin 4} {sc : BitVec 48} {o0 o1 : Optics}
    (h : execSwathBoundary g sc o0 o1 s = .next t) : TimeStays s t := by
  unfold execSwathBoundary at h
  extract_lets s0 timing s1 at h
  have h0 : TimeStays s s0 := (TimeStays.refl s).frame fun k => only_rejoinLanes (by decide)
    (only_bondSettle (by decide) k)
  have h1 : TimeStays s s1 := time_boundaryOps h0
  exact time_of_ite (time_of_next h0) (time_of_ite
    (time_of_next (time_each (fun _ _ k => time_applyDeferred k) _ h1)) (time_of_next h1)) h

/-! The commands of power states and of the pair. -/

theorem time_execEntryE4 {x : BitVec 8} (h : execEntryE4 x s = .next t) : TimeStays s t := by
  have hl : TimeStays s (latchPads x s) := time_latchPads (TimeStays.refl s)
  exact time_of_ite (time_of_next (hl.frame (only_reachPoint (by decide) fun _ k => k)))
    (time_of_next (TimeStays.refl s)) h

theorem time_execEntryE5 (h : execEntryE5 s = .next t) : TimeStays s t :=
  time_of_ite (time_of_ite (time_of_next ((TimeStays.refl s).frame (only_abandonEntry (by decide))))
    (time_of_next (time_isolate (TimeStays.refl s)))) (time_of_next (TimeStays.refl s)) h

theorem time_execWakeComplete {b : BitVec 64} (h : execWakeComplete b s = .next t) :
    TimeStays s t := by
  have hs : (Host.Outcome.next s : Out) = .next t → TimeStays s t := time_of_next (TimeStays.refl s)
  unfold execWakeComplete at h
  split at h
  · exact time_of_ite hs (time_of_next (time_completeWake (TimeStays.refl s))) h
  · exact hs h

theorem time_execLockYieldExpiry (h : execLockYieldExpiry s = .next t) : TimeStays s t :=
  time_of_ite (time_of_next ((TimeStays.refl s).frame fun k => only_startYield (by decide)
    (only_raise (by decide) k))) (time_of_next (TimeStays.refl s)) h

theorem time_execMirrorCmd {ok : Bool} {q n : BitVec 32} {sc : BitVec 48} {op : BitVec 16}
    {c : Cmd} (h : execMirrorCmd ok q n sc op c s = .next t) : TimeStays s t := by
  refine time_of_next (time_tetherIn (fun u hu => hu.ite (hu.frame fun k =>
    only_rejoinLook (by decide) (only_tetherSend (by decide) ?_))) (TimeStays.refl s)) h
  exact only_ite k (only_ite (only_modPair (by decide) k) (only_ite k (only_modPair (by decide) k)))

theorem time_execSnapEnd {ok : Bool} {q : BitVec 32} {sch : BitVec 16} {sc : BitVec 48}
    {n crc : BitVec 32} {o0 o1 : Optics} (h : execSnapEnd ok q sch sc n crc o0 o1 s = .next t) :
    TimeStays s t := by
  refine time_of_next (time_tetherIn (fun u hu => ?_) (TimeStays.refl s)) h
  have hf : TimeStays s (failAttempt u) := hu.frame (only_failAttempt (by decide))
  refine hu.ite (TimeStays.ite (hu.frame fun k => only_rejoinFails (by decide)
    (only_raiseGap (by decide) k)) (hf.ite ?_))
  split
  · exact hf
  · exact time_takeSnapshot hu

theorem time_pairYieldBody {c : Call} (h : TimeStays s₀ s) :
    TimeStays s₀ (pairYieldBody c s).2 := by
  have hn : TimeStays s₀ (notInState s).2 := h.frame (only_notInState (by decide))
  have hy {y : Yield} : TimeStays s₀ (startYield y s) := h.frame (only_startYield (by decide))
  have h0 {force : Bool} : TimeStays s₀ (yieldCmd force s).2 :=
    TimeStays.ite_snd (hn.ite_snd (TimeStays.ite_snd (h.frame (only_refuse (by decide))) hy))
      (TimeStays.ite_snd (h.frame (only_modPair (by decide))) hn)
  have h1 {force : Bool} : TimeStays s₀ (isolateCmd force s).2 := by
    unfold isolateCmd
    split
    · exact hy
    · exact h.frame fun k => only_setPair (by decide) (only_dropClaim (by decide)
        (only_modPair (by decide) k))
    · exact h.frame fun k => only_setPair (by decide) (only_dropClaim (by decide)
        (only_modPair (by decide) k))
    · exact hn
  refine time_fixedCmd (fun p => ?_) h
  dsimp only
  split
  · exact h0
  · exact h1
  · exact h.frame (only_badArg (by decide))

/-! Resets and the register window. -/

theorem time_execResetNRelease {a : BitVec 3} {m : Bool} (h : execResetNRelease a m s = .next t) :
    TimeStays s t := by
  unfold execResetNRelease at h
  refine time_of_next (TimeStays.ite (time_releaseReset ?_) (time_enterReset ?_)) h
  · exact TimeStays.refl s
  · exact TimeStays.refl s

theorem time_execPwrgoodRise {a : BitVec 3} {m : Bool} (h : execPwrgoodRise a m s = .next t) :
    TimeStays s t := by
  unfold execPwrgoodRise at h
  refine time_of_next (TimeStays.ite (time_releaseReset ?_) (time_enterReset ?_)) h
  · exact TimeStays.refl s
  · exact TimeStays.refl s

theorem time_execRegisterWrite {a v : BitVec 8} (h : execRegisterWrite a v s = .next t) :
    TimeStays s t :=
  time_of_next (time_addressed (fun _ k => k.ite ((time_windowWrite k).frame
    (only_modI3c (by decide)))) (TimeStays.refl s)) h

/-- No command but TIMELINE_WRAP and VDD_AON_POWER_ON moves the timeline or the era. -/
theorem time_exec {i : Instr} (hw : i ≠ .timelineWrap) (hv : i ≠ .vddAonPowerOn)
    (h : exec i s = .next t) : TimeStays s t := by
  have hs := TimeStays.refl s
  by_cases hc : Part.clk ∈ writes i
  · cases i
    case timelineWrap => exact absurd rfl hw
    case vddAonPowerOn => exact absurd rfl hv
    case rootPllLock =>
      refine time_of_ite (time_of_next (time_refLook ?_)) (time_of_next hs) h
      exact hs
    case discardHoldover => exact time_execDiscardHoldover h
    case refclkLost => exact time_execRefclkLost h
    case refclkReturn => exact time_execRefclkReturn h
    case hrefclkLost => exact time_execHrefclkLost h
    case hrefclkReturn =>
      refine time_of_next ?_ h
      exact hs
    case codewordDecoded => exact time_execCodewordDecoded h
    case cw0NotReceived => exact time_execCw0NotReceived h
    case resumeTimeout =>
      exact time_of_ite (time_of_next (time_loseLock hs)) (time_of_next hs) h
    case swathBoundary => exact time_execSwathBoundary h
    case entryE4 => exact time_execEntryE4 h
    case entryE5 => exact time_execEntryE5 h
    case wakeComplete => exact time_execWakeComplete h
    case lockYieldExpiry => exact time_execLockYieldExpiry h
    case mirrorCmd _ q _ _ _ _ => exact time_execMirrorCmd (q := q) h
    case snapEnd _ q _ _ _ _ _ _ => exact time_execSnapEnd (q := q) h
    case pwrSetDomains =>
      exact time_of_next (time_runCmd (fun _ _ k => time_pwrSetDomainsBody k) hs) h
    case lineConfigureLanes =>
      exact time_of_next (time_runCmd (fun _ _ k => time_lineConfigureLanesBody k) hs) h
    case lineSetGroup =>
      exact time_of_next (time_runCmd (fun _ _ k => time_lineSetGroupBody k) hs) h
    case actSetParenting =>
      exact time_of_next (time_runCmd (fun _ _ k => time_actSetParentingBody k) hs) h
    case pairYield => exact time_of_next (time_runCmd (fun _ _ k => time_pairYieldBody k) hs) h
    case resetNAssert =>
      refine time_of_next (time_enterReset ?_) h
      exact hs
    case pwrgoodFall =>
      refine time_of_next (time_enterReset ?_) h
      exact hs
    case resetNRelease => exact time_execResetNRelease h
    case pwrgoodRise => exact time_execPwrgoodRise h
    case sysResetDeferred => exact time_of_next ((time_commandedReset hs).ite hs) h
    case reeveRestart => exact time_of_next (time_addressed (fun _ k => time_restartReeve k) hs) h
    case mbRespAck => exact time_of_next (time_addressed (fun _ k => time_respAck k) hs) h
    case registerWrite => exact time_execRegisterWrite h
    all_goals exact absurd hc (by dsimp only [writes]; decide)
  · exact hs.same (only_exec i h .clk hc)

end Sys2Proof.Machine

/-! The timeline, the era and the passing of time (R18, R20, R22). -/

namespace Sys2Proof.Machine

/-! Comparison of timeline values (R22). -/

/-- A count of grains below 2^63 is its own signed value. -/
theorem toInt_grains {d : Nat} (h : d < 2 ^ 63) : (BitVec.ofNat 64 d).toInt = d := by
  rw [BitVec.toInt_ofNat', Int.bmod_eq_of_le (by omega) (by omega)]

theorem tlDiff_add (a x : BitVec 64) : tlDiff a (a + x) = x.toInt := by
  rw [tlDiff, add_sub_cancel_left]

theorem tlDiff_add_left (a x : BitVec 64) : tlDiff (a + x) a = (-x).toInt := by
  rw [tlDiff, sub_add_cancel_left]

/-- Settles O56: the value reached from `a` in `d` grains differs from it by `d` itself, since `d`
fits the positive half of 64 bits; the wrap of the sum cancels in the difference. -/
theorem timelineValuesCompareAsSignedDifferences :
    Obligations.TimelineValuesCompareAsSignedDifferences := by
  intro a b
  refine ⟨rfl, decide_eq_true_iff, fun d h0 h1 => ⟨?_, ?_⟩⟩
  · rw [tlAfter, tlDiff_add, toInt_grains h1]
    exact decide_eq_true (by omega)
  · have hd := toInt_grains h1
    rw [tlAfter, tlDiff_add_left, BitVec.toInt_neg, hd, Int.bmod_eq_of_le (by omega) (by omega)]
    exact decide_eq_false (by omega)

/-! The root cycle (R18, R20). -/

theorem advance_clk (d : Nat) (s : State) : (advance d s).clk = { s.clk with
    timeline := s.clk.timeline + BitVec.ofNat 64 d
    era := if 2 ^ 64 ≤ s.clk.timeline.toNat + d then s.clk.era + 1 else s.clk.era } := rfl

theorem advance_clk_wrap {d : Nat} {s : State} (h : 2 ^ 64 ≤ s.clk.timeline.toNat + d) :
    (advance d s).clk = { s.clk with
      timeline := s.clk.timeline + BitVec.ofNat 64 d, era := s.clk.era + 1 } := by
  rw [advance_clk, if_pos h]

theorem advance_zero (s : State) : advance 0 s = s := by
  have h : ¬ 2 ^ 64 ≤ s.clk.timeline.toNat + 0 := Nat.not_le.2 s.clk.timeline.isLt
  have hc : (advance 0 s).clk = s.clk := by rw [advance_clk, if_neg h, BitVec.add_zero]
  exact congrArg (fun c => { s with clk := c }) hc

theorem exec_timelineWrap {s : State} (h : 2 ^ 64 ≤ s.clk.timeline.toNat + stepGrains s) :
    exec .timelineWrap s = .next (advance (stepGrains s) s) := if_pos h

theorem exec_timelineWrap_none {s : State} (h : s.clk.timeline.toNat + stepGrains s < 2 ^ 64) :
    exec .timelineWrap s = .next s := if_neg (Nat.not_le.2 h)

/-- Settles O9: beside the two excepted rows, a command either leaves the clocks alone or writes
neither the timeline nor the era among them (`time_exec`). -/
theorem commandsLeaveTheTimeline : Obligations.CommandsLeaveTheTimeline := by
  refine ⟨fun _ _ _ hw hv h => time_exec hw hv h, fun s => ⟨fun hd => ?_, exec_timelineWrap_none⟩,
    fun s => ⟨_, rfl, rfl, rfl⟩⟩
  exact ⟨_, exec_timelineWrap hd, rfl, if_pos hd⟩

/-- Settles O55: the row advances the clocks by the root cycle due, and writes nothing else. -/
theorem eraCountsTheWrapsOfTheTimeline : Obligations.EraCountsTheWrapsOfTheTimeline := by
  intro s
  refine ⟨fun h => ⟨_, exec_timelineWrap h, ⟨advance_clk_wrap h, fun e => ?_, rfl⟩,
    only_exec .timelineWrap (exec_timelineWrap h)⟩, exec_timelineWrap_none⟩
  rw [advance_clk_wrap h, e]
  rfl

/-- A tick advances the clocks by the root cycle due; what happens besides leaves them, and the
queue. -/
theorem tick_advances (s : State) : (tick s).pending = s.pending ∧
    (tick s).clk = (advance (stepGrains s) s).clk := by
  have hw (d : Nat) : (windowLook (advance d s)).pending = s.pending ∧
      (windowLook (advance d s)).clk = (advance d s).clk :=
    ⟨(kept_windowLook (Kept.refl _)).1,
      only_windowLook (ps := offClk) (by decide) (Only.refl _) .clk (by decide)⟩
  unfold tick stepGrains
  split
  · extract_lets s1
    have h1 : s1.pending = s.pending ∧ s1.clk = (advance 25 s).clk :=
      ⟨(kept_each (fun _ _ h => kept_rxArrive h) (Kept.refl _)).1.trans (hw 25).1,
        (only_each (ps := offClk) (fun _ _ h => only_rxArrive (by decide) h) (Only.refl _) .clk
          (by decide)).trans (hw 25).2⟩
    split
    · exact ⟨(kept_coreCycle (Kept.refl s1)).1.trans h1.1,
        (only_coreCycle (ps := offClk) (by decide) (Only.refl s1) .clk (by decide)).trans h1.2⟩
    · exact h1
  · split
    · exact hw 500
    · rw [advance_zero]
      exact ⟨rfl, rfl⟩

/-- Settles O2. -/
theorem emptyQueueTicks : Obligations.EmptyQueueTicks := by
  intro s h
  obtain ⟨hq, hc⟩ := tick_advances s
  exact ⟨tick s, by rw [step, h], hq.trans h, tick_only s, hc⟩

end Sys2Proof.Machine

/-! The clocks' references (R12, R14, R122, R123, R231). -/

namespace Sys2Proof.Machine
variable {s : State}

/-! The root PLL and REFCLK. -/

theorem exec_rootPllLock (hr : s.clk.refclk = true) (hp : s.pins.inReset = false)
    (hd : s.pwr.st = .deepFallow → s.pwr.phase = .waking) :
    exec .rootPllLock s =
      .next (refLook { s with clk := { s.clk with pllRunning := true, onFio := false } }) := by
  have hs : (s.pwr.st == .deepFallow && s.pwr.phase != .waking) = false := by
    by_cases e : s.pwr.st = .deepFallow
    · simp [hd e]
    · simp [e]
  exact if_pos (by rw [hr, hp, hs]; rfl)

theorem exec_rootPllLock_none (h : s.clk.refclk = false ∨ s.pins.inReset = true ∨
    (s.pwr.st = .deepFallow ∧ s.pwr.phase ≠ .waking)) : exec .rootPllLock s = .next s := by
  refine if_neg ?_
  rcases h with h | h | ⟨h, k⟩
  · simp [h]
  · simp [h]
  · simp [h, k]

/-- `f` done to both upstream lanes. -/
def bothLtx (f : UsLane → UsLane) (s : State) : State :=
  each (fun x s => modUsLane x f s) [0, 1] s

theorem bothLtx_lane (f : UsLane → UsLane) (s : State) (x : Nat) :
    usLaneOf (bothLtx f s) x = if x < 2 then f (usLaneOf s x) else usLaneOf s x := by
  simp only [bothLtx, each, usLaneOf_modUsLane]
  rcases x with _ | _ | x <;> simp

theorem bothLtx_only (f : UsLane → UsLane) (s : State) : Only [.us] s (bothLtx f s) :=
  only_each (fun _ _ h => only_modUsLane (by decide) h) (Only.refl s)

/-- `s` as REFCLK goes: each watchdog watches a lane that is high (R123). -/
def refclkGone (s : State) : State :=
  bothLtx (fun l => { l with wdMonitor := l.ben }) { s with clk := { s.clk with refclk := false } }

theorem refclkGone_lane (s : State) (x : Nat) : usLaneOf (refclkGone s) x =
    if x < 2 then { usLaneOf s x with wdMonitor := (usLaneOf s x).ben } else usLaneOf s x :=
  bothLtx_lane _ _ x

theorem refclkGone_monitors {x : Nat} (hx : x < 2) :
    (usLaneOf (refclkGone s) x).wdMonitor = (usLaneOf s x).ben := by
  rw [refclkGone_lane, if_pos hx]

theorem refclkGone_bursts (s : State) (x : Nat) :
    (usLaneOf (refclkGone s) x).bursts = (usLaneOf s x).bursts := by
  rw [refclkGone_lane]; split <;> rfl

theorem refclkGone_kept (s : State) : Kept s (refclkGone s) :=
  kept_each (fun _ _ h => kept_modUsLane h fun _ e => e) (kept_clk (Kept.refl s) rfl)

theorem refclkGone_only (s : State) : Only [.clk, .us] s (refclkGone s) :=
  Only.step (qs := [.us]) (by decide) (only_f_clk (by decide) (Only.refl s)) (bothLtx_only _ _)

theorem exec_refclkLost_none (h : s.clk.refclk = false) : exec .refclkLost s = .next s :=
  if_pos (by rw [h]; rfl)

theorem exec_refclkLost_running (h : s.clk.refclk = true) (hp : s.clk.pllRunning = true) :
    exec .refclkLost s = .next (gateLook (raise 0x0602 0 0 (refclkGone s))) :=
  (if_neg (by rw [h]; decide)).trans (if_pos hp)

theorem exec_refclkLost_stopped (h : s.clk.refclk = true) (hp : s.clk.pllRunning = false) :
    exec .refclkLost s = .next { refclkGone s with
      clk := { (refclkGone s).clk with tlGap := true } } :=
  (if_neg (by rw [h]; decide)).trans (if_neg (by rw [hp]; decide))

theorem refclkLost_always (h : s.clk.refclk = true) : Answers .refclkLost s fun t =>
    t.clk = { s.clk with refclk := false, tlGap := s.clk.tlGap || !s.clk.pllRunning } ∧
    NoEnableRises s t ∧ Only (writes .refclkLost) s t := by
  cases hp : s.clk.pllRunning with
  | true =>
    have he := exec_refclkLost_running h hp
    have hc : (gateLook (raise 0x0602 0 0 (refclkGone s))).clk = (refclkGone s).clk :=
      only_gateLook (ps := offClk) (by decide) (only_raise (by decide) (Only.refl _)) .clk
        (by decide)
    obtain ⟨_, _, _, _, hn, _⟩ :=
      kept_gateLook (kept_raise (code := 0x0602) (idx := 0) (data := 0) (refclkGone_kept s))
    exact ⟨_, he, hc.trans (by rw [Bool.not_true, Bool.or_false]; rfl), hn, only_exec _ he⟩
  | false =>
    have he := exec_refclkLost_stopped h hp
    obtain ⟨_, _, _, _, hn, _⟩ := refclkGone_kept s
    exact ⟨_, he, by rw [Bool.not_false, Bool.or_true]; rfl, hn, only_exec _ he⟩

theorem refclkLost_running (h : s.clk.refclk = true) (hp : s.clk.pllRunning = true)
    (hb : ∀ x, (usLaneOf s x).bursts = []) (hr : s.reeve.events.length < 64) :
    Answers .refclkLost s fun t => t.clk.refclk = false ∧ t.clk.tlGap = s.clk.tlGap ∧
      (t.reeve.events.getLast?).map (·.code) = some 0x0602 ∧
      (∀ x < 2, (usLaneOf t x).wdMonitor = (usLaneOf s x).ben) ∧
      Only (raising ++ [.clk, .us]) s t := by
  have hg : gateLook (raise 0x0602 0 0 (refclkGone s)) = raise 0x0602 0 0 (refclkGone s) :=
    gateLook_none fun x => by rw [usLaneOf_raise, refclkGone_bursts, hb]
  have hc : (raise 0x0602 0 0 (refclkGone s)).clk = (refclkGone s).clk := by
    simp only [raise_rest]
  refine ⟨_, (exec_refclkLost_running h hp).trans (congrArg _ hg), ?_, ?_, ?_, fun x hx => ?_, ?_⟩
  · rw [hc]; rfl
  · rw [hc]; rfl
  · rw [last_raise (s := refclkGone s) hr]; rfl
  · rw [usLaneOf_raise, refclkGone_monitors hx]
  · exact only_raise (by decide) (Only.mono (by decide) (refclkGone_only s))

theorem refclkLost_stopped (h : s.clk.refclk = true) (hp : s.clk.pllRunning = false) :
    Answers .refclkLost s fun t => t.clk.refclk = false ∧ t.clk.tlGap = true ∧
      (∀ x < 2, (usLaneOf t x).wdMonitor = (usLaneOf s x).ben) ∧ Only [.clk, .us] s t :=
  ⟨_, exec_refclkLost_stopped h hp, rfl, rfl, fun _ hx => refclkGone_monitors hx,
    only_f_clk (by decide) (refclkGone_only s)⟩

theorem refclkReturn_facts (s : State) : Answers .refclkReturn s fun t => t.clk.refclk = true ∧
    (s.clk.refclk = false → s.clk.pllRunning = false → t.clk.resumed = s.clk.timeline) ∧
    (∀ x < 2, (usLaneOf t x).wdMonitor = false ∧ (usLaneOf t x).ben = (usLaneOf s x).ben) ∧
    Only [.clk, .us] s t := by
  have he : exec .refclkReturn s = .next (bothLtx (fun l => { l with wdMonitor := false })
      { s with clk := { s.clk with
        refclk := true
        resumed := if s.clk.refclk || s.clk.pllRunning then s.clk.resumed else now s } }) := rfl
  refine ⟨_, he, rfl, fun hr hp => ?_, fun x hx => ?_, only_exec _ he⟩
  · exact if_neg (by rw [hr, hp]; decide)
  · rw [bothLtx_lane, if_pos hx]
    exact ⟨rfl, rfl⟩

/-! Holdover and HREFCLK. -/

theorem discardHoldover_facts (h : s.clk.ref = .hold) (hr : s.reeve.events.length < 64) :
    Answers .discardHoldover s fun t => t.clk.ref = .free ∧ t.clk.corrWord = 0 ∧
      (t.reeve.events.getLast?).map (fun e => (e.code, e.data)) = some (0x0601, 0x0200) ∧
      Only (raising ++ [.clk]) s t := by
  have he : exec .discardHoldover s = .next (raise 0x0601 0 0x0200
      { s with clk := { s.clk with corrWord := 0, ref := .free } }) := by
    show execDiscardHoldover s = _
    simp [execDiscardHoldover, setRef, h, refCode]
  refine ⟨_, he, ?_, ?_, ?_, only_exec _ he⟩
  · simp only [raise_rest]
  · simp only [raise_rest]
  · rw [last_raise (by exact hr)]; rfl

theorem exec_discardHoldover_none (h : s.clk.ref ≠ .hold) : exec .discardHoldover s = .next s := by
  show execDiscardHoldover s = _
  unfold execDiscardHoldover
  split
  · next e => exact absurd e h
  · rfl

/-- Without HREFCLK a port has no PCS status and no block lock, and is down unless disabled. -/
def PortDark (x y : Port) : Prop :=
  y.pcsUp = false ∧ y.locks = 0 ∧ y.link = if x.link = .disabled then .disabled else .down

/-- What HREFCLK_LOST does to one port (R231). -/
def darken (p : Nat) (s : State) : State :=
  pcsFalse p (modPort p (fun x => { x with locks := 0 }) s)

theorem darken_other {p q : Nat} (hq : q ≠ p) : portOf (darken p s) q = portOf s q := by
  rw [darken, (pcsFalse_ports p q _).1 hq, portOf_modPort, if_neg hq]

theorem darken_dark (p : Nat) (s : State) : PortDark (portOf s p) (portOf (darken p s) p) := by
  obtain ⟨h1, h2, h3⟩ := (pcsFalse_ports p p (modPort p (fun x => { x with locks := 0 }) s)).2
  rw [portOf_modPort, if_pos rfl] at h2 h3
  exact ⟨h1, h2, h3⟩

theorem darken_clk (ps : List Nat) (s : State) : (each darken ps s).clk = s.clk :=
  only_each (ps := offClk) (fun _ _ k => only_pcsFalse (by decide) (only_modPort (by decide) k))
    (Only.refl s) .clk (by decide)

theorem exec_hrefclkLost (h : s.clk.hrefclk = true) : exec .hrefclkLost s =
    .next (each darken (List.range 8)
      (raise 0x0703 0 0 { s with clk := { s.clk with hrefclk := false } })) :=
  if_neg (by rw [h]; decide)

theorem hrefclkLost_facts (h : s.clk.hrefclk = true) : Answers .hrefclkLost s fun t =>
    t.clk.hrefclk = false ∧ (∀ p < 8, PortDark (portOf s p) (portOf t p)) ∧
    Only (writes .hrefclkLost) s t := by
  have he := exec_hrefclkLost h
  refine ⟨_, he, ?_, fun p hp => ?_, only_exec _ he⟩
  · rw [darken_clk]
    simp only [raise_rest]
  · have hd := (each_fun (get := portOf) (fun _ _ _ hq => darken_other hq) darken_dark
      (List.range 8) (raise 0x0703 0 0 { s with clk := { s.clk with hrefclk := false } })
      List.nodup_range).2 p (List.mem_range.2 hp)
    rw [portOf_raise] at hd
    exact hd

/-- Settles O14, clause by clause. -/
theorem clockReferencesComeAndGo : Obligations.ClockReferencesComeAndGo := by
  intro s
  refine ⟨fun hr hp hd => ?_, exec_rootPllLock_none, exec_refclkLost_none, refclkLost_always,
    refclkLost_running, refclkLost_stopped, refclkReturn_facts s, discardHoldover_facts,
    exec_discardHoldover_none, hrefclkLost_facts, ?_⟩
  · have he := exec_rootPllLock hr hp hd
    obtain ⟨h1, h2, h3⟩ :=
      refLook_clk { s with clk := { s.clk with pllRunning := true, onFio := false } }
    exact ⟨_, he, h1, h2, h3.trans hr, only_exec _ he⟩
  · exact ⟨_, rfl, rfl, only_exec .hrefclkReturn rfl⟩

end Sys2Proof.Machine

/-! The commands of the time block (R192-R219, R276-R278). -/

namespace Sys2Proof.Machine
variable {s : State}

/-! Sowing records (R191-R196). -/

/-- A record without a key passes the tag check; one that is valid and not late is accepted, and is
used where TAF is absent (Table 7-4). -/
theorem sowDomain_accepted {m : FieldMsg} {d : Nat} (hk : targetKey s 4 d 0 = none)
    (ht : (supDomOf s d).taf = false) (hg : field m.bytes 18 6 % 2 ^ 36 < 53125000000)
    (hl : (m.sc - BitVec.ofNat 48 (field m.bytes 6 6)).toNat ≤ 15) :
    sowDomain m d s = (true, sowUse m d true (sowAccepted d s)) := by
  have hv : ¬ (53125000000 ≤ field m.bytes 18 6 % 2 ^ 36 ∨
      15 < (m.sc - BitVec.ofNat 48 (field m.bytes 6 6)).toNat) := by
    rintro (h | h)
    · exact Nat.not_le.2 hg h
    · exact Nat.not_le.2 h hl
  unfold sowDomain
  simp only [hk, ht, if_neg hv, Bool.not_true, Bool.not_false, Bool.false_and, Bool.false_eq_true,
    if_false, Option.isNone_none, if_true]

theorem exec_timeSow_accepted {m : FieldMsg} {d : Nat} (ha : Admitted m s)
    (hty : msgType m = 0x40) (htid : msgTid m = 0xFFFF)
    (hds : ([0, 1].filter fun k => domEnabled s k &&
      domSrc s k == bit ((byteAt m.bytes 4).getLsbD 7) && timeGroup s k == m.group.val) = [d])
    (hd : sowDomain m d s = (true, sowUse m d true (sowAccepted d s))) :
    exec (.timeSow m) s = .next (msgDone m (groupOwner s m.group) false 0
      (sowUse m d true (sowAccepted d s))) := by
  have hact (i : Nat) : actSow m i s = (some 0, sowUse m d true (sowAccepted d s)) := by
    unfold actSow
    simp only [hds, hd, List.isEmpty_cons, List.foldl_cons, List.foldl_nil, Bool.or_true,
      Bool.false_eq_true, if_false, if_true]
  have hok := acceptMsg_ok (addr := .broadcast) (p := anyState) (ack := false)
    (act := actSow m) ha (by rw [if_pos htid]; exact .inl rfl)
    (by rw [hty]; rintro (h | h) <;> exact absurd h (by decide)) rfl
  rw [hact] at hok
  exact (if_neg (not_not.2 hty)).trans (congrArg _ hok)

/-- A message that is not acknowledged leaves what the time domains show. -/
theorem msgDone_domains (m : FieldMsg) (i r : Nat) (s : State) (d : Nat) :
    supDomOf (msgDone m i false r s) d = supDomOf s d ∧
    domOf (msgDone m i false r s) d = domOf s d := by
  unfold msgDone
  simp only [Bool.false_and, Bool.false_eq_true, if_false]
  split <;> simp only [supDomOf, domOf, modInst_rest, bump_sup_dom, bump_rest, and_self]

theorem timeSow_facts {m : FieldMsg} {d : Fin 2} (ha : Admitted m s) (hty : msgType m = 0x40)
    (htid : msgTid m = 0xFFFF)
    (hds : ([0, 1].filter fun k => domEnabled s k &&
      domSrc s k == bit ((byteAt m.bytes 4).getLsbD 7) && timeGroup s k == m.group.val) = [d.val])
    (hk : targetKey s 4 d 0 = none) (ht : (supDomOf s d).taf = false)
    (hg : field m.bytes 18 6 % 2 ^ 36 < 53125000000)
    (hl : (m.sc - BitVec.ofNat 48 (field m.bytes 6 6)).toNat ≤ 15) :
    Does (.timeSow m) s fun t => (supDomOf t d).lastAccepted = some (now s) ∧
      (∀ p a r, primaryOf s m.group.val (BitVec.ofNat 48 (field m.bytes 6 6)) = some p →
        arrivalOf s p (BitVec.ofNat 48 (field m.bytes 6 6)) = some a →
        rangingLane s d (BitVec.ofNat 48 (field m.bytes 6 6)) = some r →
        byteAt m.bytes 5 ≠ 0xF0 → (domOf t d).quality = byteAt m.bytes 5) := by
  have he := exec_timeSow_accepted ha hty htid hds (sowDomain_accepted hk ht hg hl)
  obtain ⟨hsup, hdom⟩ := msgDone_domains m (groupOwner s m.group) 0
    (sowUse m d true (sowAccepted d s)) d
  refine ⟨_, he, ?_, only_exec _ he⟩
  beta_reduce
  rw [hsup, hdom]
  exact sow_facts ht

/-! The timers of the time block (R203, R209, R210, R214). -/

theorem fitWindowEnd_facts (s : State) : Does .fitWindowEnd s fun t =>
    ∀ k l p, l < 4 → p < 4 → fitLaneOf t k l p =
      if (k = 0 ∨ k = 1) ∧ domEnabled s k = true then {} else fitLaneOf s k l p := by
  refine ⟨_, rfl, fun k l p hl hp => (fitLane_each k l p hl hp _ s).trans ?_, only_exec _ rfl⟩
  simp only [List.mem_filter, List.mem_cons, List.not_mem_nil, or_false]

theorem domOf_timeLook (s : State) (d : Nat) : domOf (timeLook s) d = domOf s d := by
  rw [domOf, timeLook_dom.2]; rfl

theorem holdValidExpiry_facts {d : Fin 2} (h : (domOf s d).st = .holdover) :
    Does (.holdValidExpiry d) s fun t => domOf t d = { domOf s d with holdExpired := true } := by
  have he : exec (.holdValidExpiry d) s =
      .next (timeLook (modDom d (fun x => { x with holdExpired := true }) s)) := if_pos h
  refine ⟨_, he, ?_, only_exec _ he⟩
  beta_reduce
  rw [domOf_timeLook, domOf_modDom, if_pos rfl]

theorem slewDone_facts (ho : s.time.offset ≠ 0) (hr : s.time.runOn = none)
    (hq : s.reeve.events.length < 64) : Does .slewDone s fun t =>
      t.time = { s.time with offset := 0, offsetAt := now s } ∧
      (t.reeve.events.getLast?).map (·.code) = some 0x0607 := by
  have he : exec .slewDone s = .next (raise 0x0607 0 0 (setOffset 0 s)) :=
    if_pos ⟨ho, by rw [hr]; rfl⟩
  refine ⟨_, he, ⟨raise_time, ?_⟩, only_exec _ he⟩
  rw [last_raise (s := setOffset 0 s) hq]; rfl

theorem exec_slewDone_none (h : s.time.offset = 0 ∨ s.time.runOn ≠ none) :
    exec .slewDone s = .next s := by
  refine if_neg ?_
  rintro ⟨ho, hr⟩
  exact h.elim ho fun k => k (Option.isNone_iff_eq_none.1 hr)

theorem usedRecordTimeout_facts {d : Fin 2} (h : (domOf s d).st = .locked) :
    Does (.usedRecordTimeout d) s fun t =>
      (domOf t d).st = .holdover ∧ supDomOf t d = supDomOf s d := by
  obtain ⟨h1, h2⟩ := servoLose_facts d s
  exact ⟨_, rfl, ⟨h2.trans (if_pos h), h1⟩, only_exec (.usedRecordTimeout d) rfl⟩

/-! PPS_IN (R218, R219). -/

theorem exec_ppsInEdge_off {edge : BitVec 64}
    (h : settingB s sPpsInEnable scDevice = false ∨ s.clk.onFio = true) :
    exec (.ppsInEdge edge) s = .next s := by
  refine if_pos ?_
  rcases h with h | h <;> rw [h]
  · rfl
  · exact Bool.or_true _

/-- The edge `t` comes less than half a second after the last one. -/
def edgeClose (last : Option (BitVec 64)) (t : BitVec 64) : Bool :=
  last.any fun p => decide (tlDiff p t < 26562500000)

theorem edgeClose_of_far {last : Option (BitVec 64)} {t : BitVec 64}
    (h : ∀ p, last = some p → 26562500000 ≤ tlDiff p t) : edgeClose last t = false := by
  cases last with
  | none => rfl
  | some p => exact decide_eq_false (Int.not_lt.2 (h p rfl))

theorem edgeClose_of_near {last : Option (BitVec 64)} {t : BitVec 64}
    (h : ∃ p, last = some p ∧ tlDiff p t < 26562500000) : edgeClose last t = true := by
  obtain ⟨p, rfl, hp⟩ := h
  exact decide_eq_true hp

/-- The capture of an edge on PPS_IN (R218). -/
def ppsCapture (s : State) (edge : BitVec 64) : PpsCapture :=
  { era := eraOf s edge, tl := edge
    off0 := if domValid s 0 then (domTime s 0 edge).map nearestSecond else none
    off1 := if domValid s 1 then (domTime s 1 edge).map nearestSecond else none
    offOut := (outTime s edge).map nearestSecond }

/-- Captures are kept newest first, at most 16 (R218). -/
def keepCapture (s : State) (edge : BitVec 64) : State :=
  { s with time := { s.time with
    captures := (ppsCapture s edge :: s.time.captures).take 16
    lastPpsIn := some edge
    ppsInLost := false } }

theorem exec_ppsInEdge_on {edge : BitVec 64} (hen : settingB s sPpsInEnable scDevice = true)
    (hf : s.clk.onFio = false) : exec (.ppsInEdge edge) s =
      .next (if edgeClose s.time.lastPpsIn edge then bump cPpsInGlitch scDevice 1 s
        else bump cPpsInEdges scDevice 1 (keepCapture s edge)) := by
  refine (if_neg (by rw [hen, hf]; decide)).trans ?_
  unfold keepCapture
  cases s.time.lastPpsIn with
  | none => rfl
  | some p => exact (apply_ite _ _ _ _).symm

theorem ppsInEdge_captured {edge : BitVec 64} (hen : settingB s sPpsInEnable scDevice = true)
    (hf : s.clk.onFio = false)
    (hc : ∀ p, s.time.lastPpsIn = some p → 26562500000 ≤ tlDiff p edge) :
    Does (.ppsInEdge edge) s fun t =>
      t.time.lastPpsIn = some edge ∧ t.time.ppsInLost = false ∧
      t.time.captures.length = min 16 (s.time.captures.length + 1) ∧
      (t.time.captures.head?).map (fun c => (c.era, c.tl)) = some (eraOf s edge, edge) ∧
      ctrOf t cPpsInEdges scDevice = ctrAdd (ctrOf s cPpsInEdges scDevice) 1 := by
  have he := exec_ppsInEdge_on hen hf (edge := edge)
  rw [edgeClose_of_far hc, if_neg Bool.false_ne_true] at he
  have ht : (bump cPpsInEdges scDevice 1 (keepCapture s edge)).time =
      (keepCapture s edge).time := by simp only [bump_rest]
  refine ⟨_, he, ?_, only_exec _ he⟩
  beta_reduce
  rw [ht, ctrOf_bump (cKey_ne (by decide) (by decide)) (by decide), if_pos rfl]
  exact ⟨rfl, rfl, List.length_take, rfl, rfl⟩

theorem ppsInEdge_glitch {edge : BitVec 64} (hen : settingB s sPpsInEnable scDevice = true)
    (hf : s.clk.onFio = false)
    (hc : ∃ p, s.time.lastPpsIn = some p ∧ tlDiff p edge < 26562500000) :
    Does (.ppsInEdge edge) s fun t => t.time = s.time ∧
      ctrOf t cPpsInGlitch scDevice = ctrAdd (ctrOf s cPpsInGlitch scDevice) 1 := by
  have he := exec_ppsInEdge_on hen hf (edge := edge)
  rw [edgeClose_of_near hc, if_pos rfl] at he
  refine ⟨_, he, ⟨?_, ?_⟩, only_exec _ he⟩
  · simp only [bump_rest]
  · rw [ctrOf_bump (cKey_ne (by decide) (by decide)) (by decide), if_pos rfl]

theorem ppsInLost_facts (hen : settingB s sPpsInEnable scDevice = true)
    (hl : s.time.ppsInLost = false) (hq : s.reeve.events.length < 64) :
    Does .ppsInLost s fun t => t.time = { s.time with ppsInLost := true } ∧
      (t.reeve.events.getLast?).map (·.code) = some 0x0609 := by
  have he : exec .ppsInLost s =
      .next (raise 0x0609 0 0 { s with time := { s.time with ppsInLost := true } }) :=
    if_pos (by rw [hen, hl]; rfl)
  refine ⟨_, he, ⟨raise_time, ?_⟩, only_exec _ he⟩
  rw [last_raise (by exact hq)]; rfl

theorem exec_ppsInLost_none
    (h : settingB s sPpsInEnable scDevice = false ∨ s.time.ppsInLost = true) :
    exec .ppsInLost s = .next s := by
  refine if_neg ?_
  rcases h with h | h <;> rw [h] <;> simp

/-! PPS_OUT and the ToD output (R217). -/

theorem exec_ppsOutEdge_fio (h : s.clk.onFio = true) : exec .ppsOutEdge s = .next s := by
  show execPpsOutEdge s = _
  unfold execPpsOutEdge
  split
  · rfl
  · exact if_pos (.inr h)

/-- PPS_OUT is to be raised: enabled, and not squelched for want of a valid time (R277). -/
def ppsPulse (s : State) : Bool :=
  settingB s sPpsOutEnable scDevice &&
    !(decide (setting s sPpsSquelch scDevice = 1) && !timeValid s)

theorem exec_ppsOutEdge {v : Int} (hv : outTime s (now s) = some v)
    (hd : s.pwr.st ≠ .deepFallow) (hf : s.clk.onFio = false)
    (hc : ∀ e, s.time.lastEdge = some e → 26562500000 ≤ tlDiff e (now s)) :
    ∃ msg, exec .ppsOutEdge s = .next (if settingB s sTodEnable scDevice then
        drawn { s with time := { s.time with
          lastEdge := some (now s), ppsLevel := s.time.ppsLevel || ppsPulse s
          pendingTod := some msg, todSeq := s.time.todSeq + 1, stepped := false } }
      else { s with time := { s.time with
          lastEdge := some (now s), ppsLevel := s.time.ppsLevel || ppsPulse s } }) := by
  refine ⟨todMessage s ((v - setting s sPpsOffset scDevice * 256 + secUnits / 2) / secUnits)
    (ppsPulse s), ?_⟩
  show execPpsOutEdge s = _
  unfold execPpsOutEdge
  rw [hv]
  refine (if_neg (by rw [hf]; simp [hd])).trans ((if_neg ?_).trans (apply_ite _ _ _ _).symm)
  have hn := edgeClose_of_far hc
  cases he : s.time.lastEdge with
  | none => exact Bool.false_ne_true
  | some e =>
    rw [he] at hn
    exact ne_true_of_eq_false hn

theorem ppsOutEdge_facts {v : Int} (hv : outTime s (now s) = some v)
    (hd : s.pwr.st ≠ .deepFallow) (hf : s.clk.onFio = false)
    (hc : ∀ e, s.time.lastEdge = some e → 26562500000 ≤ tlDiff e (now s)) :
    Does .ppsOutEdge s fun t => t.time.lastEdge = some (now s) ∧
      (settingB s sPpsOutEnable scDevice = true → setting s sPpsSquelch scDevice ≠ 1 →
        t.time.ppsLevel = true) ∧
      (settingB s sPpsOutEnable scDevice = false → t.time.ppsLevel = s.time.ppsLevel) ∧
      (settingB s sTodEnable scDevice = true → t.time.pendingTod.isSome = true ∧
        t.time.todSeq = s.time.todSeq + 1) ∧
      (settingB s sTodEnable scDevice = false → t.time.pendingTod = s.time.pendingTod) := by
  obtain ⟨msg, he⟩ := exec_ppsOutEdge hv hd hf hc
  have hup (he : settingB s sPpsOutEnable scDevice = true)
      (hs : setting s sPpsSquelch scDevice ≠ 1) : (s.time.ppsLevel || ppsPulse s) = true := by
    simp [ppsPulse, he, hs]
  have hstay (he : settingB s sPpsOutEnable scDevice = false) :
      (s.time.ppsLevel || ppsPulse s) = s.time.ppsLevel := by simp [ppsPulse, he]
  cases ht : settingB s sTodEnable scDevice with
  | true =>
    rw [ht, if_pos rfl] at he
    exact ⟨_, he, ⟨rfl, hup, hstay, fun _ => ⟨rfl, rfl⟩, fun k => Bool.noConfusion k⟩,
      only_exec _ he⟩
  | false =>
    rw [ht, if_neg Bool.false_ne_true] at he
    exact ⟨_, he, ⟨rfl, hup, hstay, fun k => Bool.noConfusion k, fun _ => rfl⟩, only_exec _ he⟩

theorem exec_todOutMessage_fio (h : s.clk.onFio = true) : exec .todOutMessage s = .next s := by
  show execTodOutMessage s = _
  unfold execTodOutMessage
  rw [h]
  cases s.time.pendingTod <;> rfl

theorem todOutMessage_facts {b : Bytes} (hb : s.time.pendingTod = some b)
    (hf : s.clk.onFio = false) : Does .todOutMessage s fun t =>
      t.time = { s.time with pendingTod := none, todSent := some b } := by
  have he : exec .todOutMessage s =
      .next { s with time := { s.time with pendingTod := none, todSent := some b } } := by
    show execTodOutMessage s = _
    unfold execTodOutMessage
    rw [hb, hf]
  exact ⟨_, he, rfl, only_exec _ he⟩

/-- Settles O26, row by row. -/
theorem timeIsKeptByItsEvents : Obligations.TimeIsKeptByItsEvents := by
  intro m d edge s
  refine ⟨fun h => ?_, timeSow_facts, fitWindowEnd_facts s, holdValidExpiry_facts,
    fun h => if_neg h, slewDone_facts, exec_slewDone_none,
    fun hen => ⟨ppsInEdge_captured hen, ppsInEdge_glitch hen, ppsInLost_facts hen,
      fun hl => exec_ppsInLost_none (.inr hl)⟩,
    fun hen => ⟨exec_ppsInEdge_off (.inl hen), exec_ppsInLost_none (.inl hen)⟩,
    fun hf => ⟨exec_ppsInEdge_off (.inr hf), exec_ppsOutEdge_fio hf, exec_todOutMessage_fio hf⟩,
    usedRecordTimeout_facts, fun v => ppsOutEdge_facts, ?_, fun b => todOutMessage_facts⟩
  · exact ⟨_, exec_timelineWrap h, advance_clk_wrap h, only_exec _ (exec_timelineWrap h)⟩
  · exact ⟨_, rfl, rfl, only_exec .ppsOutFall rfl⟩

end Sys2Proof.Machine

/-! Acquisition of a lane up to its candidate slots, and its equaliser (R30-R32, R47, R51, R53). -/

namespace Sys2Proof.Machine
variable {s : State} {l : Fin 4}

/-- A command that changes one lane by `f` changes nothing else. -/
theorem answers_modLane {i : Instr} {f : Lane → Lane} (h : exec i s = .next (modLane l f s)) :
    Answers i s fun t => laneOf t l = f (laneOf s l) ∧
      (∀ k, k ≠ l.val → laneOf t k = laneOf s k) ∧ Only [.lanes] s t :=
  ⟨_, h, (laneOf_modLane ..).trans (if_pos rfl),
    fun _ hk => (laneOf_modLane ..).trans (if_neg hk), only_modLane (List.Subset.refl _) (Only.refl s)⟩

/-! The clock recovery of the lane. -/

theorem exec_cdrLock {ppb : Int} (ho : (laneOf s l).st ≠ .off) (hd : (laneOf s l).st ≠ .dormant)
    (hlo : -100000 ≤ ppb) (hhi : ppb ≤ 100000) : exec (.cdrLock l ppb) s =
      .next (modLane l (fun x => { x with cdrLocked := true, ppb := ppb }) s) :=
  if_neg fun h => by
    rcases h with h | h | h | h
    · exact ho h
    · exact hd h
    · omega
    · omega

theorem exec_cdrUnlock :
    exec (.cdrUnlock l) s = .next (modLane l (fun x => { x with cdrLocked := false }) s) := rfl

/-! Matches of the marker. -/

theorem exec_rawMarkerMatch {b : BitVec 64}
    (h : (laneOf s l).st = .hunt ∨ (laneOf s l).st = .verify) : exec (.rawMarkerMatch l b) s =
      if (laneOf s l).slots.length < 8 then
        .next (putSlots l ((laneOf s l).slots ++ [{ start := b - 83, sc := (laneOf s l).sc }]) s)
      else .next (bump cCandOverflow (scLrx l) 1 s) := by
  show execRawMarkerMatch l b s = _
  unfold execRawMarkerMatch
  dsimp only
  rcases h with h | h <;> rw [h]

theorem exec_rawMarkerMatch_none {b : BitVec 64} (hh : (laneOf s l).st ≠ .hunt)
    (hv : (laneOf s l).st ≠ .verify) : exec (.rawMarkerMatch l b) s = .next s := by
  show execRawMarkerMatch l b s = _
  unfold execRawMarkerMatch
  dsimp only
  split
  · exact absurd ‹_› hh
  · exact absurd ‹_› hv
  · rfl

/-- One slot more is open, so the lane is in VERIFY. -/
theorem putSlots_append (ks : List Slot) (k : Slot) : putSlots l (ks ++ [k]) s =
    modLane l (fun x => { x with st := .verify, slots := ks ++ [k] }) s := by
  simp [putSlots]

theorem rawMarkerMatch_opens {b : BitVec 64}
    (h : (laneOf s l).st = .hunt ∨ (laneOf s l).st = .verify)
    (hr : (laneOf s l).slots.length < 8) : Answers (.rawMarkerMatch l b) s fun t =>
      laneOf t l = { laneOf s l with
        st := .verify
        slots := (laneOf s l).slots ++ [{ start := b - 83, sc := (laneOf s l).sc }] } ∧
      (∀ k, k ≠ l.val → laneOf t k = laneOf s k) ∧ Only [.lanes] s t :=
  answers_modLane ((exec_rawMarkerMatch h).trans ((if_pos hr).trans (by rw [putSlots_append])))

theorem scLrx_lt (l : Fin 4) : scLrx l < 67108864 := by revert l; decide

theorem rawMarkerMatch_overflows {b : BitVec 64}
    (h : (laneOf s l).st = .hunt ∨ (laneOf s l).st = .verify)
    (hr : 8 ≤ (laneOf s l).slots.length) : Answers (.rawMarkerMatch l b) s fun t =>
      ctrOf t cCandOverflow (scLrx l) = ctrAdd (ctrOf s cCandOverflow (scLrx l)) 1 ∧
      Only counting s t := by
  refine ⟨_, (exec_rawMarkerMatch h).trans (if_neg (Nat.not_lt.2 hr)), ?_,
    only_bump (by decide) (Only.refl s)⟩
  have hk : ctrKey cCandOverflow (scLrx l) ≠ lostKey := cKey_ne (scLrx_lt l) (by decide)
  rw [ctrOf_bump hk Nat.one_ne_zero, if_pos rfl]

/-! RESUME ends without a confirmation. -/

theorem dropAlignment_lane (st : LaneState) : (laneOf (dropAlignment l st s) l).st = st ∧
    (laneOf (dropAlignment l st s) l).slots = [] ∧
    ∀ k, k ≠ l.val → laneOf (dropAlignment l st s) k = laneOf s k := by
  have hd : ∀ k, k ≠ l.val → laneOf (dropPartial l s) k = laneOf s k :=
    fun k => (dropPartial_lane k).2.2
  unfold dropAlignment
  simp only [excludeLane_lane, laneOf_modLane, if_true, true_and]
  refine ⟨?_, ?_, fun k hk => ?_⟩
  · split <;> rfl
  · split <;> rfl
  · rw [if_neg fun e => hk e.1, if_neg hk, hd k hk]

theorem resumeTimeout_facts (h : (laneOf s l).st = .resume) :
    Answers (.resumeTimeout l) s fun t =>
      (laneOf t l).st = .hunt ∧ (laneOf t l).slots = [] ∧
      (∀ k, k ≠ l.val → laneOf t k = laneOf s k) ∧ Only (writes (.resumeTimeout l)) s t := by
  have he : exec (.resumeTimeout l) s = .next (loseLock l s) := if_pos h
  obtain ⟨hst, hsl, hk⟩ := dropAlignment_lane (s := s) (l := l) .hunt
  refine ⟨_, he, ?_, ?_, fun k e => ?_, only_exec _ he⟩
  · rw [loseLock_lane, hst]
  · rw [loseLock_lane, hsl]
  · rw [loseLock_lane, hk k e]

/-! The equaliser. -/

/-- The reading of R31 that log entry 21 notes: no step since codeword 0 of the swath, or, without
swath lock, none in a swath's time. -/
theorem adaptDue_iff {x : Lane} : adaptDue s x = true ↔ ∀ a, x.ctleAt = some a →
    if isLocked x = true then tlDiff x.cw0 a < 0 else (swathGrains : Int) ≤ tlDiff a (now s) := by
  unfold adaptDue
  cases x.ctleAt with
  | none => simp
  | some a => by_cases h : isLocked x = true <;> simp [h]

/-- The code is not at the host's bound on the side that a step moves it to (R30). -/
def ctleRoom (l : Nat) (up : Bool) (s : State) : Prop :=
  if up then (laneOf s l).ctleCode < settingN s sAdaptMax (scLrx l)
  else settingN s sAdaptMin (scLrx l) < (laneOf s l).ctleCode

theorem exec_ctleAdaptStep {up : Bool} (he : laneEnabled s l = true)
    (hc : (laneOf s l).cdrLocked = true) (hm : settingB s sCtleMode (scLrx l) = true)
    (hd : adaptDue s (laneOf s l) = true) (hr : ctleRoom l up s) :
    exec (.ctleAdaptStep l up) s = .next (modLane l (fun x => { x with
      ctleCode := if up then x.ctleCode + 1 else x.ctleCode - 1, ctleAt := some (now s) }) s) := by
  show execCtleAdaptStep l up s = _
  unfold execCtleAdaptStep
  cases up with
  | false =>
    have hr : settingN s sAdaptMin (scLrx l) < (laneOf s l).ctleCode := hr
    simp [he, hc, hm, hd, hr]
  | true =>
    have hr : (laneOf s l).ctleCode < settingN s sAdaptMax (scLrx l) := hr
    simp [he, hc, hm, hd, hr]

theorem exec_ctleAdaptStep_none {up : Bool}
    (h : laneEnabled s l = false ∨ (laneOf s l).cdrLocked = false ∨
      settingB s sCtleMode (scLrx l) = false ∨ ¬ adaptDue s (laneOf s l) = true ∨
      ¬ ctleRoom l up s) : exec (.ctleAdaptStep l up) s = .next s := by
  show execCtleAdaptStep l up s = _
  unfold execCtleAdaptStep
  rcases h with h | h | h | h | h
  · simp [h]
  · simp [h]
  · simp [h]
  · simp [h]
  · cases up with
    | false =>
      have h : ¬ settingN s sAdaptMin (scLrx l) < (laneOf s l).ctleCode := h
      simp [h]
    | true =>
      have h : ¬ (laneOf s l).ctleCode < settingN s sAdaptMax (scLrx l) := h
      simp [h]

theorem putEq_lane (items : List (Nat × Int)) (k : Nat) :
    laneOf (each (fun p s => putSetting (eqSpec p.1) (scLrx l) 0 p.2 s) items s) k = laneOf s k :=
  lanes_of_only (only_each (ps := [.settings])
    (fun _ _ h => only_putSetting (List.Subset.refl _) h) (Only.refl s)) (by decide) k

theorem applyEq_lane (items : List (Nat × Int)) :
    (laneOf (applyEq l items s) l).eqPending = (laneOf s l).eqPending ∧
    ∀ k, k ≠ l.val → laneOf (applyEq l items s) k = laneOf s k := by
  unfold applyEq ctleFollow
  refine ⟨?_, fun k hk => ?_⟩
  · rw [laneOf_modLane, if_pos rfl, putEq_lane]
  · rw [laneOf_modLane, if_neg hk, putEq_lane]

/-- The last of the settings put is in force; following them moves no setting. -/
theorem applyEq_last (pre : List (Nat × Int)) (r : Nat) (v : Int) :
    setting (applyEq l (pre ++ [(r, v)]) s) (eqSpec r) (scLrx l) = v :=
  each_put_last pre r v s

theorem lineSetEqApply_facts : Answers (.lineSetEqApply l) s fun t =>
    (laneOf t l).eqPending = [] ∧
    (∀ pre r v, (laneOf s l).eqPending = pre ++ [(r, v)] →
      setting t (eqSpec r) (scLrx l) = v) ∧
    (∀ k, k ≠ l.val → laneOf t k = laneOf s k) ∧ Only [.lanes, .settings] s t := by
  have he : exec (.lineSetEqApply l) s = .next (applyEq l (laneOf s l).eqPending
    (modLane l (fun x => { x with eqPending := [] }) s)) := rfl
  refine ⟨_, he, ?_, fun pre r v h => ?_, fun k hk => ?_, only_exec _ he⟩
  · rw [(applyEq_lane _).1, laneOf_modLane, if_pos rfl]
  · rw [h, applyEq_last]
  · rw [(applyEq_lane _).2 k hk, laneOf_modLane, if_neg hk]

/-- Settles O15, row by row. -/
theorem acquisitionStartsFromAMarker : Obligations.AcquisitionStartsFromAMarker := by
  intro l s
  refine ⟨fun ppb ho hd hlo hhi => answers_modLane (exec_cdrLock ho hd hlo hhi),
    fun ppb h => if_pos h, answers_modLane exec_cdrUnlock, fun b => rawMarkerMatch_opens,
    fun b => rawMarkerMatch_overflows, fun b => exec_rawMarkerMatch_none, resumeTimeout_facts,
    fun h => if_neg h, fun up => ⟨fun he hc hm hd hr =>
      answers_modLane (exec_ctleAdaptStep he hc hm (adaptDue_iff.2 hd) hr), fun h => ?_⟩,
    lineSetEqApply_facts⟩
  rw [← adaptDue_iff] at h
  exact exec_ctleAdaptStep_none h

end Sys2Proof.Machine

/-! Codewords of a lane, and codewords 0 that are missed (R11, R37, R41, R43, R44, R46, R47, R51). -/

namespace Sys2Proof.Machine
variable {s : State} {l : Fin 4} {start : BitVec 64} {word : BitVec 5440}

theorem isLocked_iff {x : Lane} :
    isLocked x = true ↔ x.st = .lock ∨ x.st = .miss1 ∨ x.st = .miss2 := by
  simp [isLocked, or_assoc]

/-! Which codewords have an effect. -/

theorem exec_codewordDecoded_none (h : (laneOf s l).cdrLocked = false ∨ s.clk.onFio = true ∨
    (laneOf s l).st = .off ∨ (laneOf s l).st = .hunt ∨ (laneOf s l).st = .dormant) :
    exec (.codewordDecoded l start word) s = .next s := by
  show execCodewordDecoded l start word s = _
  unfold execCodewordDecoded
  rcases h with h | h | h | h | h <;> simp [h]

theorem exec_codewordDecoded_verify (hc : (laneOf s l).cdrLocked = true)
    (hf : s.clk.onFio = false) (hv : (laneOf s l).st = .verify) :
    exec (.codewordDecoded l start word) s =
      .next (verifyCodeword l start (decodeWord word) s) := by
  show execCodewordDecoded l start word s = _
  unfold execCodewordDecoded
  simp [hc, hf, hv]

theorem exec_codewordDecoded_held {n : Nat} (hc : (laneOf s l).cdrLocked = true)
    (hf : s.clk.onFio = false) (hl : isLocked (laneOf s l) = true)
    (hn : heldPos (laneOf s l) start = some n) : exec (.codewordDecoded l start word) s =
      if n = 1250 then .next (lockedCw0 l start (decodeWord word) (catchUp l 1250 s))
      else .next (lockedCw l n (decodeWord word) s) := by
  show execCodewordDecoded l start word s = _
  unfold execCodewordDecoded
  rcases isLocked_iff.1 hl with h | h | h <;> simp [hc, hf, h, hn]

theorem pos_le_of_heldPos {x : Lane} {n : Nat} (h : heldPos x start = some n) : x.pos ≤ n := by
  simp only [heldPos, Option.ite_none_right_eq_some, Option.some.injEq] at h
  obtain ⟨⟨-, hp, -⟩, rfl⟩ := h
  exact hp

/-! Codewords 1 to 1,249 of a swath. -/

/-- Without listening a codeword leaves the clocks, which `listenEnd` alone can touch. -/
theorem lockedCw_only {n : Nat} {d : Option Decoded} (h : s.pwr.listening.getLsbD l = false) :
    Only (counting ++ [.lanes, .groups]) s (lockedCw l n d s) := by
  have hend {u : State} (hu : Only (counting ++ [.lanes, .groups]) s u) :
      Only (counting ++ [.lanes, .groups]) s (listenEnd l n u) := by
    have hp : u.pwr = s.pwr := hu .pwr (by decide)
    rw [listenEnd_off (hp ▸ h)]
    exact hu
  have hcount (e : Bool) : Only (counting ++ [.lanes, .groups]) s
      (countCodeword l d e true (catchUp l n s)) :=
    only_countCodeword (by decide) (only_catchUp (by decide) (Only.refl s))
  have hfeed (e : Bool) (f : Lane → Lane) (b : List (Option (BitVec 8))) :
      Only (counting ++ [.lanes, .groups]) s
        (feed l (640 * n) b (modLane l f (countCodeword l d e true (catchUp l n s)))) :=
    only_feed (by decide) (only_modLane (by decide) (hcount e))
  unfold lockedCw
  refine hend ?_
  split
  · exact only_ite (hfeed _ _ _) (hfeed _ _ _)
  · exact hfeed _ _ _

/-- The descrambler of a lane after codeword `n`: run over the payload, or past a gap of as many bits
where the word or its header failed (R37, R46). -/
def scrAfter (x : Lane) (n : Nat) : Option Decoded → BitVec 31
  | some c => if headerOk x n c then (scramble x.scr c.payload).2 else scrSkip 5120 x.scr
  | none => scrSkip 5120 x.scr

theorem codewordDecoded_inSwath {n : Nat} {d : Option Decoded} (hd : decodeWord word = d)
    (hc : (laneOf s l).cdrLocked = true)
    (hf : s.clk.onFio = false) (hl : isLocked (laneOf s l) = true)
    (hs : s.pwr.listening.getLsbD l = false) (hn : heldPos (laneOf s l) start = some n)
    (hlt : n < 1250) : Answers (.codewordDecoded l start word) s fun t =>
      (laneOf t l).pos = n + 1 ∧ (laneOf t l).st = (laneOf s l).st ∧
      (laneOf t l).cw0 = (laneOf s l).cw0 ∧ (laneOf t l).sc = (laneOf s l).sc ∧
      ((laneOf s l).pos = n → (laneOf t l).scr = scrAfter (laneOf s l) n d) ∧
      (∀ k, k ≠ l.val → laneOf t k = laneOf s k) ∧
      Only (counting ++ [.lanes, .groups]) s t := by
  obtain ⟨hacq, hscr, hk⟩ := lockedCw_facts (d := d) (pos_le_of_heldPos hn) hs
  obtain ⟨hst, -, -, hcw0, hpos, hsc⟩ := acq_congr hacq
  have he : exec (.codewordDecoded l start word) s = .next (lockedCw l n d s) := by
    rw [exec_codewordDecoded_held hc hf hl hn, if_neg (Nat.ne_of_lt hlt), hd]
  exact ⟨_, he, hpos, hst, hcw0, hsc, hscr, hk, lockedCw_only hs⟩

/-! The next codeword 0. -/

/-- Bringing a lane to a position leaves its state, codeword 0, SC and TX_LANE. -/
theorem catchUp_alignment (n : Nat) : (laneOf (catchUp l n s) l).st = (laneOf s l).st ∧
    (laneOf (catchUp l n s) l).txLane = (laneOf s l).txLane ∧
    (laneOf (catchUp l n s) l).cw0 = (laneOf s l).cw0 ∧
    (laneOf (catchUp l n s) l).sc = (laneOf s l).sc := by
  obtain ⟨hst, -, htx, hcw0, -, hsc⟩ := acq_congr (catchUp_lane (k := l) (n := n) (s := s)).1
  exact ⟨hst, htx, hcw0, hsc⟩

theorem catchUp_pwr (n : Nat) : (catchUp l n s).pwr = s.pwr :=
  only_catchUp (List.Subset.refl _) (Only.refl s) .pwr (by decide)

/-- The header check looks at the lane for its TX_LANE alone (R38). -/
theorem headerOk_congr {x y : Lane} (h : x.txLane = y.txLane) (n : Nat) (c : Decoded) :
    headerOk x n c = headerOk y n c := by
  simp only [headerOk, h]

theorem lockedCw0_confirmed {c : Decoded} (h : headerOk (laneOf s l) 0 c = true)
    (hm : c.payload.take 8 = markerBytes) : lockedCw0 l start (some c) s =
      countCodeword l (some c) false true
        (confirmCw0 l start (laneOf s l).txLane c.payload true s) := by
  simp [lockedCw0, h, hm]

theorem codewordDecoded_confirmsCw0 {c : Decoded} (hc : (laneOf s l).cdrLocked = true)
    (hf : s.clk.onFio = false) (hl : isLocked (laneOf s l) = true)
    (hs : s.pwr.listening.getLsbD l = false) (hn : heldPos (laneOf s l) start = some 1250)
    (hd : decodeWord word = some c) (hh : headerOk (laneOf s l) 0 c = true)
    (hm : c.payload.take 8 = markerBytes) : Answers (.codewordDecoded l start word) s fun t =>
      (laneOf t l).st = .lock ∧ (laneOf t l).cw0 = start ∧ (laneOf t l).pos = 1 ∧
      (let p := c.payload.take 8 ++
        (scramble (scrSeed (laneOf s l).txLane) (c.payload.drop 8)).1
       (laneOf t l).sc = if crc32 (slice p 8 12) = field p 20 4
        then BitVec.ofNat 48 (field p 8 6) else (laneOf s l).sc + 1) ∧
      Only (writes (.codewordDecoded l start word)) s t := by
  obtain ⟨-, htx, -, hsc⟩ := catchUp_alignment (s := s) (l := l) 1250
  have he : exec (.codewordDecoded l start word) s =
      .next (countCodeword l (some c) false true
        (confirmCw0 l start (laneOf s l).txLane c.payload true (catchUp l 1250 s))) := by
    rw [exec_codewordDecoded_held hc hf hl hn, if_pos rfl, hd,
      lockedCw0_confirmed ((headerOk_congr htx 0 c).trans hh) hm, htx]
  have hacq := confirmCw0_facts (start := start) (tx := (laneOf s l).txLane) (pl := c.payload)
    (j := true) (s := catchUp l 1250 s) (l := l) (by rw [catchUp_pwr, hs])
  simp only [acqOf, Prod.mk.injEq, hsc] at hacq
  obtain ⟨⟨hst, -, -⟩, hcw0, hpos, hsc'⟩ := hacq
  refine ⟨_, he, ?_, ?_, ?_, ?_, only_exec _ he⟩
  all_goals rw [countCodeword_lane]
  exacts [hst, hcw0, hpos, hsc']

/-! A codeword 0 missed while the CDR is unlocked. -/

theorem exec_cw0NotReceived (hc : (laneOf s l).cdrLocked = false)
    (hl : isLocked (laneOf s l) = true)
    (hs : start = (laneOf s l).cw0 + BitVec.ofNat 64 swathGrains) :
    exec (.cw0NotReceived l start) s = .next (missCw0 l (catchUp l 1250 s)) := by
  show execCw0NotReceived l start s = _
  unfold execCw0NotReceived
  rcases isLocked_iff.1 hl with h | h | h <;> simp [hc, h, hs]

theorem cw0NotReceived_misses (hc : (laneOf s l).cdrLocked = false)
    (hl : isLocked (laneOf s l) = true)
    (hs : start = (laneOf s l).cw0 + BitVec.ofNat 64 swathGrains) :
    Answers (.cw0NotReceived l start) s fun t =>
      (laneOf t l).st = (match (laneOf s l).st with
        | .lock => .miss1 | .miss1 => .miss2 | _ => .hunt) ∧
      ((laneOf s l).st ≠ .miss2 → (laneOf t l).cw0 = start ∧ (laneOf t l).pos = 1 ∧
        (laneOf t l).sc = (laneOf s l).sc + 1) ∧
      Only (writes (.cw0NotReceived l start)) s t := by
  have he := exec_cw0NotReceived hc hl hs
  obtain ⟨hst, -, hcw0, hsc⟩ := catchUp_alignment (s := s) (l := l) 1250
  have hmiss := missCw0_facts (l := l) (s := catchUp l 1250 s)
  rw [hst, hcw0, hsc, ← hs] at hmiss
  obtain ⟨hst', hkeep⟩ := hmiss
  refine ⟨_, he, hst'.trans ?_, hkeep, only_exec _ he⟩
  rcases isLocked_iff.1 hl with h | h | h <;> rw [h] <;> rfl

/-! VERIFY. -/

/-- Where no slot is confirmed for the second time, the slots are as their checks leave them; the
arrival that a first confirmation records leaves them so. -/
theorem verifyCodeword_unconfirmed {d : Option Decoded}
    (h : (runSlots start d (laneOf s l).slots).2.2 = none) :
    (laneOf (verifyCodeword l start d s) l).slots =
      (runSlots start d (laneOf s l).slots).1 ∧
    (laneOf (verifyCodeword l start d s) l).st =
      (if (runSlots start d (laneOf s l).slots).1 = [] then .hunt else .verify) ∧
    ∀ k, k ≠ l.val → laneOf (verifyCodeword l start d s) k = laneOf s k := by
  unfold verifyCodeword
  generalize runSlots start d (laneOf s l).slots = r at h ⊢
  obtain ⟨ks, freed, won⟩ := r
  cases h
  have huk {k : Nat} (hk : k ≠ l.val) :
      laneOf (putSlots l ks (bump cCandRejected (scLrx l) freed s)) k = laneOf s k := by
    rw [putSlots_lane, if_neg hk, laneOf_bump]
  have hu : laneOf (putSlots l ks (bump cCandRejected (scLrx l) freed s)) l =
      { laneOf s l with slots := ks, st := if ks = [] then .hunt else .verify } := by
    rw [putSlots_lane, if_pos rfl, laneOf_bump]
    simp only [List.isEmpty_iff]
  dsimp only
  generalize putSlots l ks (bump cCandRejected (scLrx l) freed s) = u at huk hu ⊢
  split
  · rename_i c _
    have harr (k : Nat) :=
      recordArrival_lane (l := l) (k := k) (a := ⟨c.sc, start + 20, false⟩) (s := u)
    obtain ⟨hacq, hslots, -⟩ := harr l
    refine ⟨?_, ?_, fun k hk => ?_⟩
    · rw [hslots, hu]
    · rw [(acq_congr hacq).1, hu]
    · rw [(harr k).2.2 hk, huk hk]
  · exact ⟨by rw [hu], by rw [hu], fun k => huk⟩

/-- Settles O16, clause by clause. -/
theorem codewordsKeepOrLoseTheAlignment : Obligations.CodewordsKeepOrLoseTheAlignment := by
  intro l start word s
  -- the statement's terms are compared without decoding the word
  generalize hd : decodeWord word = d
  refine ⟨exec_codewordDecoded_none, fun n => codewordDecoded_inSwath hd,
    fun c hc hf hl hs hn hw => codewordDecoded_confirmsCw0 hc hf hl hs hn (hd.trans hw),
    cw0NotReceived_misses, fun h => if_pos h, fun hc hf hv h => ?_⟩
  exact ⟨_, hd ▸ exec_codewordDecoded_verify hc hf hv, verifyCodeword_unconfirmed h⟩

end Sys2Proof.Machine

/-! The swath boundary of a group (R76, R78-R80, R84, R153, R609). -/

namespace Sys2Proof.Machine
variable {s t : State} {g l : Nat} {sc : BitVec 48}

theorem lanesOf_nodup : (lanesOf s g).Nodup := List.nodup_range.filter _

theorem laneGroup_of_mem (h : l ∈ lanesOf s g) : laneGroup s l = g := by
  simpa using (List.mem_filter.1 h).2

theorem bondSettle_closed (h : ∀ l ∈ lanesOf s g, (laneOf s l).cmpOpen = false) :
    bondSettle g s = s :=
  each_same fun l hl => by simp [h l hl]

/-! Lanes that rejoin (R84). -/

/-- A lane that rejoins its group at the boundary of SC `sc` (R84). -/
def rejoins (sc : BitVec 48) (x : Lane) : Bool :=
  !x.included && x.everIncluded && isLocked x && decide (2 ≤ okBefore x sc)

theorem rejoins_iff {x : Lane} : rejoins sc x = true ↔ x.included = false ∧
    x.everIncluded = true ∧ isLocked x = true ∧ 2 ≤ okBefore x sc := by
  simp [rejoins, and_assoc]

/-- A lane's turn at the boundary: it rejoins, or stays as it is. -/
def rejoinStep (sc : BitVec 48) (l : Nat) (s : State) : State :=
  if rejoins sc (laneOf s l) then includeLane l sc s else s

theorem rejoinLanes_eq : rejoinLanes g sc s = each (rejoinStep sc) (lanesOf s g) s := rfl

theorem rejoinStep_same (h : rejoins sc (laneOf s l) = false) : rejoinStep sc l s = s :=
  if_neg (by simp [h])

theorem rejoinLanes_none (h : ∀ l ∈ lanesOf s g, rejoins sc (laneOf s l) = false) :
    rejoinLanes g sc s = s :=
  rejoinLanes_eq.trans (each_same fun l hl => rejoinStep_same (h l hl))

/-- A lane without its waiting lots, which another lane's rejoining may clear. -/
def dropLots (x : Lane) : Lane := { x with waiting := [] }

theorem clearLots_lane {L : List Nat} (hn : L.Nodup) (k : Nat) :
    laneOf (each (fun k => modLane k dropLots) L s) k =
      if k ∈ L then dropLots (laneOf s k) else laneOf s k := by
  obtain ⟨hout, hin⟩ := each_fun (get := laneOf) (f := fun k => modLane k dropLots)
    (P := fun x y => y = dropLots x) (fun p q s hq => by rw [laneOf_modLane, if_neg hq])
    (fun p s => by rw [laneOf_modLane, if_pos rfl]) L s hn
  split
  · exact hin k ‹_›
  · exact hout k ‹_›

/-- The lots that lane `k` keeps waiting when lane `l` joins: where the group had no included lane
its lanes lose theirs. -/
def keptLots (s : State) (l k : Nat) : List Lot :=
  if includedOf s (laneGroup s l) = [] ∧ k ∈ lanesOf s (laneGroup s l) then []
  else (laneOf s k).waiting

/-- The state with the lots cleared that no lane keeps when lane `l` joins. -/
def lotsCleared (l : Nat) (s : State) : State :=
  if (includedOf s (laneGroup s l)).isEmpty then
    each (fun k => modLane k dropLots) (lanesOf s (laneGroup s l)) s
  else s

theorem lotsCleared_lane (k : Nat) :
    laneOf (lotsCleared l s) k = { laneOf s k with waiting := keptLots s l k } := by
  unfold lotsCleared keptLots
  by_cases he : includedOf s (laneGroup s l) = []
  · rw [if_pos (List.isEmpty_iff.2 he), clearLots_lane lanesOf_nodup]
    by_cases hk : k ∈ lanesOf s (laneGroup s l) <;> simp [he, hk, dropLots]
  · simp [he]

/-- The first SC of which lane `l` takes part when it joins at `sc` (R84). -/
def firstSc (s : State) (l : Nat) (sc : BitVec 48) : BitVec 48 :=
  match (groupOf s (laneGroup s l)).releasedSc with
  | some r => if scDiff r sc ≤ 0 then r + 1 else sc
  | none => sc

/-- A lane that takes part from SC `v` on. -/
def joinedFrom (v : BitVec 48) (x : Lane) : Lane :=
  { x with included := true, everIncluded := true, inclFrom := v }

theorem includeLane_eq : includeLane l sc s =
    raise 0x0305 l l (modLane l (joinedFrom (firstSc s l sc)) (lotsCleared l s)) := rfl

theorem includeLane_lane (k : Nat) : laneOf (includeLane l sc s) k =
    if k = l then joinedFrom (firstSc s l sc) { laneOf s l with waiting := keptLots s l l }
    else { laneOf s k with waiting := keptLots s l k } := by
  simp only [includeLane_eq, laneOf_raise, laneOf_modLane, lotsCleared_lane]

theorem includeLane_waiting (k : Nat) :
    (laneOf (includeLane l sc s) k).waiting = keptLots s l k := by
  rw [includeLane_lane]
  split
  · subst k; rfl
  · rfl

/-- Lane `l` without its waiting lots. -/
def lotless (s : State) (l : Nat) : Lane := dropLots (laneOf s l)

theorem rejoinStep_other {k : Nat} (h : k ≠ l) : lotless (rejoinStep sc l s) k = lotless s k := by
  unfold rejoinStep lotless
  split
  · rw [includeLane_lane, if_neg h]
    rfl
  · rfl

theorem rejoinStep_own : (lotless (rejoinStep sc l s) l).group = (lotless s l).group ∧
    (lotless (rejoinStep sc l s) l).included =
      ((lotless s l).included || rejoins sc (lotless s l)) := by
  have hr : rejoins sc (lotless s l) = rejoins sc (laneOf s l) := rfl
  rw [hr]
  unfold rejoinStep
  by_cases h : rejoins sc (laneOf s l) = true
  · rw [if_pos h, h, Bool.or_true]
    unfold lotless
    rw [includeLane_lane, if_pos rfl]
    exact ⟨rfl, rfl⟩
  · rw [if_neg h, Bool.eq_false_of_not_eq_true h, Bool.or_false]
    exact ⟨rfl, rfl⟩

theorem rejoinLanes_lotless :
    (∀ k, k ∉ lanesOf s g → lotless (rejoinLanes g sc s) k = lotless s k) ∧
    ∀ k, k ∈ lanesOf s g → (lotless (rejoinLanes g sc s) k).group = (lotless s k).group ∧
      (lotless (rejoinLanes g sc s) k).included =
        ((lotless s k).included || rejoins sc (lotless s k)) := by
  rw [rejoinLanes_eq]
  exact each_fun (get := lotless) (f := rejoinStep sc)
    (P := fun x y => y.group = x.group ∧ y.included = (x.included || rejoins sc x))
    (fun _ _ _ h => rejoinStep_other h) (fun _ _ => rejoinStep_own)
    (lanesOf s g) s lanesOf_nodup

theorem rejoinLanes_included (hl : l ∈ lanesOf s g) (h : rejoins sc (laneOf s l) = true) :
    (laneOf (rejoinLanes g sc s) l).included = true := by
  have hi := (rejoinLanes_lotless (sc := sc).2 l hl).2
  exact hi.trans (Bool.or_eq_true_iff.2 (.inr h))

theorem laneGroup_rejoinLanes (l : Nat) : laneGroup (rejoinLanes g sc s) l = laneGroup s l := by
  have h : (lotless (rejoinLanes g sc s) l).group = (lotless s l).group := by
    by_cases hl : l ∈ lanesOf s g
    · exact (rejoinLanes_lotless.2 l hl).1
    · rw [rejoinLanes_lotless.1 l hl]
  have h' : (laneOf (rejoinLanes g sc s) l).group = (laneOf s l).group := h
  unfold laneGroup
  rw [h']

theorem lanesOf_rejoinLanes (k : Nat) : lanesOf (rejoinLanes g sc s) k = lanesOf s k := by
  simp only [lanesOf, laneGroup_rejoinLanes]

theorem timingLane_rejoinLanes : timingLane (rejoinLanes g sc s) = timingLane s := by
  have h := only_rejoinLanes (g := g) (sc := sc) (List.Subset.refl _) (Only.refl s)
  have hact : (rejoinLanes g sc s).act = s.act := h .act (by decide)
  have hset : (rejoinLanes g sc s).settings = s.settings := h .settings (by decide)
  simp only [timingLane, instLanes, groupOwner, lastPrimary, settingN, setting_congr hset, hact,
    laneGroup_rejoinLanes, rejoinLanes_groups]

theorem rejoinStep_waiting {k : Nat} (h : (laneOf s l).waiting = []) :
    (laneOf (rejoinStep sc k s) l).waiting = [] := by
  unfold rejoinStep
  split
  · rw [includeLane_waiting, keptLots, h, ite_self]
  · exact h

/-- The first lane to rejoin a group without an included lane clears the lots of them all (the
model's log entry 97). -/
theorem rejoinLanes_waiting (hl : l ∈ lanesOf s g) (h : rejoins sc (laneOf s l) = true)
    (he : includedOf s g = []) : (laneOf (rejoinLanes g sc s) l).waiting = [] := by
  rw [rejoinLanes_eq]
  suffices hs : ∀ L, L ⊆ lanesOf s g → l ∈ L →
      (laneOf (each (rejoinStep sc) L s) l).waiting = [] from hs _ (List.Subset.refl _) hl
  intro L hsub hmem
  induction L with
  | nil => exact absurd hmem List.not_mem_nil
  | cons k L ih =>
    obtain ⟨hk, hsub'⟩ := List.cons_subset.1 hsub
    by_cases hr : rejoins sc (laneOf s k) = true
    · refine each_stay (P := fun u => (laneOf u l).waiting = [])
        (fun _ _ => rejoinStep_waiting) L _ ?_
      rw [rejoinStep, if_pos hr, includeLane_waiting, keptLots, laneGroup_of_mem hk,
        if_pos ⟨he, hl⟩]
    · rw [each, rejoinStep_same (Bool.eq_false_of_not_eq_true hr)]
      exact ih hsub' ((List.mem_cons.1 hmem).resolve_left fun e => hr (e ▸ h))

/-! The lanes of a boundary (R79). -/

/-- Every lane of `t` is that of `s`, but for its mark that a conflict of primaries was counted. -/
def LanesButMark (s t : State) : Prop :=
  ∀ l, { laneOf t l with priCounted := (laneOf s l).priCounted } = laneOf s l

theorem LanesButMark.of_lanes (h : t.lanes = s.lanes) : LanesButMark s t := fun l => by
  simp only [laneOf, h]

theorem LanesButMark.included (h : LanesButMark s t) :
    (laneOf t l).included = (laneOf s l).included := (congrArg Lane.included (h l) :)

theorem LanesButMark.waiting (h : LanesButMark s t) :
    (laneOf t l).waiting = (laneOf s l).waiting := (congrArg Lane.waiting (h l) :)

theorem countConflict_lanes (h : LanesButMark s t) : LanesButMark s (countConflict g l t) := by
  intro k
  unfold countConflict
  rw [laneOf_raise, laneOf_bump, laneOf_modLane]
  split
  · subst k; exact h l
  · exact h k

theorem priConflict_lanes (h : LanesButMark s t) : LanesButMark s (priConflict g sc t) := by
  unfold priConflict
  split
  · exact h
  · exact each_stay (P := LanesButMark s) (fun _ _ => countConflict_lanes) _ _ h

theorem recordPrimary_lanes : LanesButMark s (recordPrimary g sc s) := by
  have h : LanesButMark s (modGroup g (fun y =>
      { y with primaries := ((sc, primaryOf s g sc) :: y.primaries).take 16 }) s) :=
    .of_lanes rfl
  unfold recordPrimary
  dsimp only
  split
  · intro k
    rw [laneOf_bump]
    exact h k
  · exact priConflict_lanes h

/-! What the boundary itself records (R76, R79, R609), and what follows it. -/

/-- The state with the boundary of group `g` recorded: the primary lane of its SC, the boundary, and
one boundary more for the group's lots and contexts. -/
def recordBoundary (g : Nat) (sc : BitVec 48) (s : State) : State :=
  let s1 := recordPrimary g sc s
  reasmBoundary g (modGroup g (fun y => { y with boundary := some (sc, boundaryTime s1 g sc) }) s1)

theorem recordPrimary_group (k : Nat) : groupOf (recordPrimary g sc s) k =
    if k = g then { groupOf s g with
      primaries := ((sc, primaryOf s g sc) :: (groupOf s g).primaries).take 16 }
    else groupOf s k := by
  have hp (u : State) : groupOf (priConflict g sc u) k = groupOf u k := by
    have h : (priConflict g sc u).groups = u.groups :=
      only_priConflict (List.Subset.refl _) (Only.refl u) .groups (by decide)
    simp only [groupOf, h]
  unfold recordPrimary
  dsimp only
  split
  · rw [groupOf_bump, groupOf_modGroup]
  · rw [hp, groupOf_modGroup]

theorem recordBoundary_group (k : Nat) : groupOf (recordBoundary g sc s) k =
    if k = g then { groupOf s g with
      primaries := ((sc, primaryOf s g sc) :: (groupOf s g).primaries).take 16
      boundary := some (sc, boundaryTime (recordPrimary g sc s) g sc)
      released := (groupOf s g).released.map (fun r => { r with boundaries := r.boundaries + 1 }) }
    else groupOf s k := by
  have hr (v : Tab Reasm) (u : State) (j : Nat) :
      groupOf { u with reasm := v } j = groupOf u j := rfl
  unfold recordBoundary reasmBoundary
  simp only [groupOf_modGroup, hr, recordPrimary_group]
  by_cases hk : k = g
  · simp only [hk, if_true]
  · simp only [hk, if_false]

theorem recordBoundary_lanes : LanesButMark s (recordBoundary g sc s) := recordPrimary_lanes

/-- What follows the recording at a boundary. -/
def afterRecording : List Part :=
  [.clk, .lots, .reasm, .us, .act, .sup, .time, .qos, .ports, .pwr, .pair, .life, .win, .i3c,
   .reeve, .counters, .freeCtr]

theorem boundaryOps_only : Only afterRecording (recordBoundary g sc s) (boundaryOps g sc s) := by
  unfold boundaryOps
  extract_lets s1 s2 i s3 s4 s5
  have h4 : Only afterRecording (recordBoundary g sc s) s4 :=
    only_fitAccumulate (by decide) (only_foldEqd (by decide) (only_runTodo (by decide)
      (only_tagForm (by decide) (Only.refl _))))
  refine only_refLook (by decide) ?_
  unfold s5
  split
  · exact only_ite (only_switchParent (by decide) h4) h4
  · exact h4

theorem boundaryOps_lanes : LanesButMark s (boundaryOps g sc s) := by
  intro l
  have h : (boundaryOps g sc s).lanes = (recordBoundary g sc s).lanes :=
    boundaryOps_only .lanes (by decide)
  rw [laneOf, h]
  exact recordBoundary_lanes l

theorem boundaryOps_groups :
    (groupOf (boundaryOps g sc s) g).boundary.map Prod.fst = some sc ∧
    (groupOf (boundaryOps g sc s) g).primaries.head? = some (sc, primaryOf s g sc) ∧
    (groupOf (boundaryOps g sc s) g).released =
      (groupOf s g).released.map (fun r => { r with boundaries := r.boundaries + 1 }) ∧
    ∀ k, k ≠ g → groupOf (boundaryOps g sc s) k = groupOf s k := by
  have h : (boundaryOps g sc s).groups = (recordBoundary g sc s).groups :=
    boundaryOps_only .groups (by decide)
  have hg (k : Nat) : groupOf (boundaryOps g sc s) k = groupOf (recordBoundary g sc s) k := by
    rw [groupOf, h, groupOf]
  have hown := (hg g).trans ((recordBoundary_group g).trans (if_pos rfl))
  exact ⟨by rw [hown]; rfl, by rw [hown]; rfl, by rw [hown],
    fun k hk => (hg k).trans ((recordBoundary_group k).trans (if_neg hk))⟩

/-! A single-parented terminal without waiting messages (R153). -/

theorem recordBoundary_same {p : Part} (h : p ∉ [.groups, .reasm, .lanes, .sup, .life, .win, .i3c,
    .reeve, .counters]) : Same p s (recordBoundary g sc s) :=
  only_reasmBoundary (by decide) (only_modGroup (by decide)
    (only_recordPrimary (by decide) (Only.refl s))) p h

theorem recordBoundary_act : (recordBoundary g sc s).act = s.act :=
  recordBoundary_same (p := .act) (by decide)

theorem recordBoundary_us : (recordBoundary g sc s).us = s.us :=
  recordBoundary_same (p := .us) (by decide)

theorem recordBoundary_reasm (id : Nat) : reasmOf (recordBoundary g sc s) id =
    if (reasmOf s id).open_ = true ∧ (reasmOf s id).group = g
    then { reasmOf s id with boundaries := (reasmOf s id).boundaries + 1 } else reasmOf s id := by
  have hp : (recordPrimary g sc s).reasm = s.reasm :=
    only_recordPrimary (List.Subset.refl _) (Only.refl s) .reasm (by decide)
  have h : reasmOf (recordPrimary g sc s) id = reasmOf s id := by rw [reasmOf, hp, reasmOf]
  rw [← h]
  exact reasmBoundary_reasm g id _

/-- The state in which EqDs come into force: the form of the tags chosen and the messages that
waited for the boundary done. -/
def messagesDone (g : Nat) (sc : BitVec 48) (i : Nat) (s : State) : State :=
  runTodo g sc i (tagForm i s)

theorem messagesDone_none {i : Nat} (h : (instOf s i).todo = []) :
    Only [.act] s (messagesDone g sc i s) ∧ (messagesDone g sc i s).act.dual = s.act.dual := by
  have ht : (instOf (tagForm i s) i).todo = [] := by
    rw [tagForm, instOf_modInst, if_pos rfl]
    exact h
  unfold messagesDone runTodo
  simp only [ht, List.filter_nil, each]
  exact ⟨only_modInst (by decide) (only_tagForm (by decide) (Only.refl s)), rfl⟩

/-- The EqDs of an upstream lane at the boundary of SC `sc`: the last of those due is in force, the
others wait (R153). -/
def eqdFolded (sc : BitVec 48) (l : UsLane) : UsLane :=
  let due := l.eqdPending.filter (fun p => decide (0 ≤ scDiff p.1 sc))
  { l with eqd := (due.getLast?.map (·.2)).getD l.eqd
           eqdAssigned := l.eqdAssigned || !due.isEmpty
           eqdPending := l.eqdPending.filter (fun p => decide (scDiff p.1 sc < 0)) }

theorem foldEqd_single (hd : s.act.dual = false) :
    foldEqd 0 sc s = modUsLane 1 (eqdFolded sc) (modUsLane 0 (eqdFolded sc) s) := by
  have h : instLtx s 0 = [0, 1] := by
    unfold instLtx ltxOwner
    rw [hd]
    rfl
  unfold foldEqd
  rw [h]
  rfl

theorem foldEqd_lane (hd : s.act.dual = false) {x : Nat} (hx : x < 2) :
    usLaneOf (foldEqd 0 sc s) x = eqdFolded sc (usLaneOf s x) := by
  rw [foldEqd_single hd]
  obtain rfl | rfl : x = 0 ∨ x = 1 := by omega
  · simp only [usLaneOf_modUsLane, if_true, if_neg Nat.zero_ne_one]
  · simp only [usLaneOf_modUsLane, if_true, if_neg Nat.one_ne_zero]

section Single
variable (hd : s.act.dual = false) (ht : (instOf s 0).todo = [])
include hd ht

theorem messagesDone_single :
    Only [.act] (recordBoundary g sc s) (messagesDone g sc 0 (recordBoundary g sc s)) ∧
    (messagesDone g sc 0 (recordBoundary g sc s)).act.dual = false := by
  have ht' : (instOf (recordBoundary g sc s) 0).todo = [] := by
    rw [instOf, recordBoundary_act]
    exact ht
  obtain ⟨ho, hd'⟩ := messagesDone_none (g := g) (sc := sc) ht'
  exact ⟨ho, by rw [hd', recordBoundary_act, hd]⟩

/-- No parent is switched: what follows the EqDs leaves the upstream lanes and the contexts. -/
theorem boundaryOps_single : Only [.clk, .time, .win, .i3c, .reeve, .counters]
    (foldEqd 0 sc (messagesDone g sc 0 (recordBoundary g sc s))) (boundaryOps g sc s) := by
  have hdone := (messagesDone_single (g := g) (sc := sc) hd ht).2
  have hown : groupOwner (modGroup g (fun y => { y with
      boundary := some (sc, boundaryTime (recordPrimary g sc s) g sc) })
      (recordPrimary g sc s)) g = 0 := by
    have ha : (recordPrimary g sc s).act = s.act :=
      only_recordPrimary (List.Subset.refl _) (Only.refl s) .act (by decide)
    simp [groupOwner, ha, hd]
  unfold boundaryOps
  extract_lets s1 s2 i s3 s4 s5
  have h3 : s3 = foldEqd 0 sc (messagesDone g sc 0 (recordBoundary g sc s)) := by
    unfold s3
    rw [show i = 0 from hown]
    rfl
  have h4 : Only [.time] s3 s4 := only_fitAccumulate (by decide) (Only.refl s3)
  have hdual : s4.act.dual = false := by
    have h43 : s4.act = s3.act := h4 .act (by decide)
    rw [h43, h3, foldEqd_single hdone]
    exact hdone
  have h5 : s5 = s4 := by
    unfold s5
    split
    · rw [hdual]
      rfl
    · rfl
  rw [h5, ← h3]
  exact only_refLook (by decide) (Only.mono (by decide) h4)

theorem boundaryOps_reasm (id : Nat) :
    reasmOf (boundaryOps g sc s) id =
      if (reasmOf s id).open_ = true ∧ (reasmOf s id).group = g
      then { reasmOf s id with boundaries := (reasmOf s id).boundaries + 1 } else reasmOf s id := by
  have h : (boundaryOps g sc s).reasm = (recordBoundary g sc s).reasm :=
    Only.step (qs := [.clk, .time, .win, .i3c, .reeve, .counters])
      (ps := [.act, .us, .clk, .time, .win, .i3c, .reeve, .counters]) (by decide)
      (only_foldEqd (by decide) (Only.mono (by decide) (messagesDone_single hd ht).1))
      (boundaryOps_single hd ht) .reasm (by decide)
  rw [reasmOf, h]
  exact recordBoundary_reasm id

theorem boundaryOps_usLane {x : Nat} (hx : x < 2) :
    usLaneOf (boundaryOps g sc s) x = eqdFolded sc (usLaneOf s x) := by
  obtain ⟨ho, hdone⟩ := messagesDone_single (g := g) (sc := sc) hd ht
  have hu : (boundaryOps g sc s).us =
      (foldEqd 0 sc (messagesDone g sc 0 (recordBoundary g sc s))).us :=
    boundaryOps_single hd ht .us (by decide)
  have hm : (messagesDone g sc 0 (recordBoundary g sc s)).us = s.us :=
    (ho .us (by decide)).trans recordBoundary_us
  calc usLaneOf (boundaryOps g sc s) x
      = usLaneOf (foldEqd 0 sc (messagesDone g sc 0 (recordBoundary g sc s))) x := by
        simp only [usLaneOf, hu]
    _ = eqdFolded sc (usLaneOf (messagesDone g sc 0 (recordBoundary g sc s)) x) :=
        foldEqd_lane hdone hx
    _ = eqdFolded sc (usLaneOf s x) := by simp only [usLaneOf, hm]

theorem boundaryOps_eqd {x : Nat} (hx : x < 2) :
    (usLaneOf (boundaryOps g sc s) x).eqdPending =
      (usLaneOf s x).eqdPending.filter (fun p => decide (scDiff p.1 sc < 0)) ∧
    (usLaneOf (boundaryOps g sc s) x).eqd = ((((usLaneOf s x).eqdPending.filter
      (fun p => decide (0 ≤ scDiff p.1 sc))).getLast?).map (·.2)).getD (usLaneOf s x).eqd := by
  rw [boundaryOps_usLane hd ht hx]
  exact ⟨rfl, rfl⟩

end Single

/-! SWATH_BOUNDARY. -/

section Boundary
variable {g : Fin 4} {o0 o1 : Optics}

theorem exec_swathBoundary (hc : ∀ l ∈ lanesOf s g, (laneOf s l).cmpOpen = false)
    (hu : rejoinLanes g sc s = t) : exec (.swathBoundary g sc o0 o1) s =
      if includedOf t g = [] then .next t
      else if (lanesOf t g).contains (timingLane t) = true then
        .next (each (applyDeferred o0 o1 sc)
          ((boundaryOps g sc t).reeve.deferred.filter (deferredDue sc)) (boundaryOps g sc t))
      else .next (boundaryOps g sc t) := by
  show execSwathBoundary g sc o0 o1 s = _
  unfold execSwathBoundary
  simp only [bondSettle_closed hc, hu, List.isEmpty_iff]

theorem exec_swathBoundary_alone (hc : ∀ l ∈ lanesOf s g, (laneOf s l).cmpOpen = false)
    (hu : rejoinLanes g sc s = t) (hi : includedOf t g ≠ [])
    (hm : (lanesOf t g).contains (timingLane t) = false ∨
      (boundaryOps g sc t).reeve.deferred.filter (deferredDue sc) = []) :
    exec (.swathBoundary g sc o0 o1) s = .next (boundaryOps g sc t) := by
  rw [exec_swathBoundary hc hu, if_neg hi]
  rcases hm with hm | hm
  · rw [hm, if_neg Bool.false_ne_true]
  · rw [hm, each, ite_self]

theorem swathBoundary_rejoins {l : Nat} (hc : ∀ l ∈ lanesOf s g, (laneOf s l).cmpOpen = false)
    (hm : (lanesOf s g).contains (timingLane s) = false) (hl : l ∈ lanesOf s g)
    (hr : rejoins sc (laneOf s l) = true) : Answers (.swathBoundary g sc o0 o1) s fun t =>
      (laneOf t l).included = true ∧ (includedOf s g = [] → (laneOf t l).waiting = []) := by
  have hin := rejoinLanes_included hl hr
  have hi : includedOf (rejoinLanes g sc s) g ≠ [] := List.ne_nil_of_mem
    (List.mem_filter.2 ⟨(lanesOf_rejoinLanes g).symm ▸ hl, hin⟩)
  have he := exec_swathBoundary_alone (o0 := o0) (o1 := o1) hc rfl hi
    (.inl (by rw [lanesOf_rejoinLanes, timingLane_rejoinLanes, hm]))
  exact ⟨_, he, boundaryOps_lanes.included.trans hin,
    fun h => boundaryOps_lanes.waiting.trans (rejoinLanes_waiting hl hr h)⟩

end Boundary

/-- Settles O19: the lanes that rejoin come first, then what the boundary itself records, and last
the host's changes that are due. -/
theorem swathBoundariesApplyWhatWaits : Obligations.SwathBoundariesApplyWhatWaits := by
  intro g sc o0 o1 s
  have hclosed (h : ¬ ∃ l ∈ lanesOf s g, (laneOf s l).cmpOpen = true) :
      ∀ l ∈ lanesOf s g, (laneOf s l).cmpOpen = false :=
    fun l hl => Bool.eq_false_of_not_eq_true fun e => h ⟨l, hl, e⟩
  refine ⟨fun ho hn => ?_, fun ho hm l hl hr =>
    swathBoundary_rejoins (hclosed ho) hm hl (rejoins_iff.2 hr)⟩
  have hc := hclosed ho
  have hu : rejoinLanes g sc s = s := rejoinLanes_none fun l hl =>
    Bool.eq_false_of_not_eq_true fun e => hn l hl (rejoins_iff.1 e)
  refine ⟨fun hi => ?_, fun hi hm => ?_, fun hi hm => ?_⟩
  · rw [exec_swathBoundary hc hu, if_pos hi]
  · have he := exec_swathBoundary (o0 := o0) (o1 := o1) hc hu
    rw [if_neg hi, if_pos hm] at he
    exact ⟨_, he, rfl, only_exec _ he⟩
  · have he := exec_swathBoundary_alone (o0 := o0) (o1 := o1) hc hu hi hm
    obtain ⟨hbound, hprim, hrel, hother⟩ := boundaryOps_groups (g := g) (sc := sc) (s := s)
    exact ⟨_, he, hbound, hprim, hrel, hother, boundaryOps_lanes, only_exec _ he,
      fun hd ht => ⟨boundaryOps_reasm hd ht, fun x hx => boundaryOps_eqd hd ht hx⟩⟩

end Sys2Proof.Machine

/-! What leaves low every transmit enable that was low (R121, R122): an operation that keeps the
state (`Kept`), and one that writes no upstream lane. The commands of resets, clocks and lanes. -/

namespace Sys2Proof.Machine
variable {s₀ s t u : State}

theorem NoEnableRises.trans (h : NoEnableRises s₀ s) (k : NoEnableRises s t) :
    NoEnableRises s₀ t := fun x hx => h x (k x hx)

theorem Kept.noEnableRises (h : Kept s t) : NoEnableRises s t := by
  obtain ⟨_, _, _, _, hn, _⟩ := h
  exact hn

theorem noEnableRises_of_lane (h : t.us.lane = s.us.lane) : NoEnableRises s t := fun x hx => by
  rwa [usLaneOf, h] at hx

theorem kept_of_next (k : Kept s₀ u) (h : (Host.Outcome.next u : Out) = .next t) : Kept s₀ t :=
  Host.Outcome.next.inj h ▸ k

theorem kept_of_ite {c : Prop} [Decidable c] {p q : Out} (hp : p = .next t → Kept s₀ t)
    (hq : q = .next t → Kept s₀ t) (h : (if c then p else q) = .next t) : Kept s₀ t := by
  split at h
  · exact hp h
  · exact hq h

/-- A command that is turned away. -/
theorem kept_of_none (h : (Host.Outcome.next s : Out) = .next t) : Kept s t :=
  kept_of_next (Kept.refl s) h

/-! Resets and the register window. -/

theorem kept_execResetNRelease {a : BitVec 3} {m : Bool} (h : execResetNRelease a m s = .next t) :
    Kept s t := by
  have hp : Kept s { s with pins := { s.pins with resetN := true, addr := a, testHeld := m } } :=
    kept_pins (Kept.refl s)
  exact kept_of_next (kept_ite (kept_releaseReset hp) (kept_enterReset hp)) h

theorem kept_execPwrgoodRise {a : BitVec 3} {m : Bool} (h : execPwrgoodRise a m s = .next t) :
    Kept s t := by
  have hp : Kept s { s with pins := { s.pins with pwrGood := true } } := kept_pins (Kept.refl s)
  exact kept_of_next (kept_ite (kept_releaseReset (kept_pins hp)) (kept_enterReset hp)) h

theorem kept_execRegisterWrite {a v : BitVec 8} (h : execRegisterWrite a v s = .next t) :
    Kept s t :=
  kept_of_next (kept_addressed (fun _ k => kept_ite k (kept_modI3c (kept_windowWrite k)))
    (Kept.refl s)) h

/-! REFCLK, codewords, the swath. -/

theorem kept_execRefclkLost (h : execRefclkLost s = .next t) : Kept s t := by
  have h1 := refclkGone_kept s
  refine kept_of_ite kept_of_none (kept_of_ite (kept_of_next (kept_gateLook (kept_raise h1)))
    (kept_of_next ?_)) h
  exact kept_clk h1 rfl

theorem kept_execRefclkReturn (h : execRefclkReturn s = .next t) : Kept s t := by
  refine kept_of_next (kept_each (fun _ _ k => kept_modUsLane k ?_) ?_) h
  · exact fun _ e => e
  · exact kept_clk (Kept.refl s) rfl

theorem kept_execCodewordDecoded {l : Fin 4} {start : BitVec 64} {w : BitVec 5440}
    (h : execCodewordDecoded l start w s = .next t) : Kept s t := by
  have hk := Kept.refl s
  unfold execCodewordDecoded at h
  refine kept_of_ite kept_of_none (fun h => ?_) h
  split at h
  · exact kept_of_none h
  · exact kept_of_none h
  · exact kept_of_none h
  · exact kept_of_next (kept_verifyCodeword hk) h
  · exact kept_of_next (kept_resumeCodeword hk) h
  -- LOCK, MISS1 and MISS2 look for the codeword's place alike
  all_goals
    split at h
    · exact kept_of_none h
    · exact kept_of_ite (kept_of_next (kept_lockedCw0 (kept_catchUp hk)))
        (kept_of_next (kept_lockedCw hk)) h

theorem kept_execCw0NotReceived {l : Fin 4} {start : BitVec 64}
    (h : execCw0NotReceived l start s = .next t) : Kept s t := by
  have hk := Kept.refl s
  have hm : (Host.Outcome.next (missCw0 l (catchUp l 1250 s)) : Out) = .next t → Kept s t :=
    kept_of_next (kept_missCw0 (kept_catchUp hk))
  unfold execCw0NotReceived at h
  refine kept_of_ite kept_of_none (fun h => ?_) h
  split at h
  · exact kept_of_next (kept_putSlots (kept_bump hk)) h
  · exact kept_of_ite hm kept_of_none h
  · exact kept_of_ite hm kept_of_none h
  · exact kept_of_ite hm kept_of_none h
  · exact kept_of_none h

theorem kept_execSwathBoundary {g : Fin 4} {sc : BitVec 48} {o0 o1 : Optics}
    (h : execSwathBoundary g sc o0 o1 s = .next t) : Kept s t := by
  unfold execSwathBoundary at h
  extract_lets s0 timing s1 at h
  have h0 : Kept s s0 := kept_rejoinLanes (kept_bondSettle (Kept.refl s))
  have h1 : Kept s s1 := kept_boundaryOps h0
  exact kept_of_ite (kept_of_next h0) (kept_of_ite
    (kept_of_next (kept_each (fun _ _ k => kept_applyDeferred k) h1)) (kept_of_next h1)) h

theorem kept_execHrefclkLost (h : execHrefclkLost s = .next t) : Kept s t := by
  refine kept_of_ite kept_of_none (kept_of_next
    (kept_each (fun _ _ k => kept_pcsFalse (kept_modPort k)) (kept_raise ?_))) h
  exact kept_clk (Kept.refl s) rfl

end Sys2Proof.Machine

/-! Commands that leave low every transmit enable that was low: furrows, bursts, activation. -/

namespace Sys2Proof.Machine
variable {s t : State}

theorem kept_execFurrowMapEntry {g : Fin 4} {sc : BitVec 48} {e : BitVec 128}
    (h : execFurrowMapEntry g sc e s = .next t) : Kept s t := by
  have hk := Kept.refl s
  unfold execFurrowMapEntry at h
  split at h
  · exact kept_of_none h
  · split at h
    · exact kept_of_none h
    · exact kept_of_ite (kept_of_next (kept_bump hk)) (kept_of_ite kept_of_none
        (kept_of_ite (kept_of_next (kept_bump hk)) (kept_of_ite (kept_of_next (kept_bump hk))
          (kept_of_next (kept_storeFurrow hk))))) h

theorem kept_execHeaderSamplePoint {x : Fin 2} (h : execHeaderSamplePoint x s = .next t) :
    Kept s t := by
  unfold execHeaderSamplePoint at h
  split at h
  · exact kept_of_none h
  · next f _ =>
    have h1 : Kept s (setStage x f 1 s) := kept_setStage (Kept.refl s)
    exact kept_of_ite (kept_of_next (kept_announceSample h1)) (kept_of_ite
      (kept_of_next (kept_rangingSample h1)) (kept_of_next (kept_dataSample h1))) h

theorem kept_execFragAbandonTx {q : Fin 1024} (h : execFragAbandonTx q s = .next t) :
    Kept s t := by
  unfold execFragAbandonTx at h
  split at h
  · exact kept_of_ite (kept_of_next (kept_bump (kept_dropHead (Kept.refl s)))) kept_of_none h
  · exact kept_of_none h

/-- A field message whose action keeps the state keeps it. -/
theorem kept_of_acceptMsg {c : Prop} [Decidable c] {m : FieldMsg} {addr : Addressing}
    {p : ActState → Bool} {ack : Bool} {act : Nat → State → Option Nat × State}
    (ha : ∀ i u, Kept s u → Kept s (act i u).2)
    (h : (if c then .next s else .next (acceptMsg m addr p ack act s) : Out) = .next t) :
    Kept s t :=
  kept_of_ite kept_of_none (kept_of_next (kept_acceptMsg ha (Kept.refl s))) h

theorem kept_execDeactivate {m : FieldMsg} (h : execDeactivate m s = .next t) : Kept s t := by
  unfold execDeactivate at h
  refine kept_of_acceptMsg (fun _ _ k => ?_) h
  dsimp only
  exact kept_toListen (kept_modInst k)

theorem kept_execRelease {m : FieldMsg} (h : execRelease m s = .next t) : Kept s t := by
  unfold execRelease at h
  refine kept_of_acceptMsg (fun _ _ k => ?_) h
  dsimp only
  exact kept_endSilence k

/-- A timer of an activation that takes the instance, where it still waits for it, to LISTEN. -/
theorem kept_of_listenTimer {c w : Prop} [Decidable c] [Decidable w] {i : Nat} {f : Inst → Inst}
    (h : (if c then if w then .next (toListen i none (modInst i f s)) else .next (modInst i f s)
      else .next s : Out) = .next t) : Kept s t := by
  have h1 : Kept s (modInst i f s) := kept_modInst (Kept.refl s)
  exact kept_of_ite (kept_of_ite (kept_of_next (kept_toListen h1)) (kept_of_next h1)) kept_of_none h

theorem kept_execTunePoll {i : Fin 2} {st : TuneStatus} (h : execTunePoll i st s = .next t) :
    Kept s t := by
  have hk := Kept.refl s
  unfold execTunePoll at h
  refine kept_of_ite kept_of_none (fun h => ?_) h
  split at h
  · exact kept_of_none h
  · exact kept_of_next (kept_tuneFails hk) h
  · extract_lets s1 same s2 at h
    have h1 : Kept s s1 := kept_modUsLane hk fun _ e => e
    have h2 : Kept s s2 := kept_ite h1 (kept_modUsLane h1 fun _ e => e)
    exact kept_of_ite (kept_of_next (kept_leaveTuning (kept_tuneDone h2)))
      (kept_of_next (kept_leaveTuning (kept_raise (kept_tuneDone h1)))) h

end Sys2Proof.Machine

/-! Commands that leave low every transmit enable that was low: ports, packets, keys. -/

namespace Sys2Proof.Machine
variable {s t : State}

theorem kept_execPcsStatusChange {p : Fin 8} {up : Bool} {locks : BitVec 4}
    (h : execPcsStatusChange p up locks s = .next t) : Kept s t := by
  have h1 {f : Port → Port} : Kept s (modPort p f s) := kept_modPort (Kept.refl s)
  exact kept_of_ite kept_of_none (kept_of_ite (kept_of_next (kept_ite (kept_setLink h1) h1))
    (kept_of_next (kept_pcsFalse h1))) h

theorem kept_execFaultOrderedSetRx {p : Fin 8} {remote : Bool}
    (h : execFaultOrderedSetRx p remote s = .next t) : Kept s t := by
  have h1 {f : Port → Port} : Kept s (modPort p f s) := kept_modPort (Kept.refl s)
  exact kept_of_ite kept_of_none (kept_of_next (kept_ite (kept_setLink h1) h1)) h

theorem kept_execDsSchedulingDecision {p : Fin 8} (h : execDsSchedulingDecision p s = .next t) :
    Kept s t := by
  unfold execDsSchedulingDecision at h
  extract_lets s0 s1 at h
  have h0 : Kept s s0 := kept_startTime (Kept.refl s)
  have h1 : Kept s s1 := kept_each (fun _ _ k => kept_dropBad k) h0
  refine kept_of_ite (kept_of_next h0) (kept_of_ite (kept_of_next h1) fun h => ?_) h
  split at h
  · exact kept_of_next h1 h
  · exact kept_of_next (kept_startHead
      (kept_shaperCharge (kept_shaperCharge (kept_modPortArb h1)))) h

theorem kept_execCoulterWalk {r : Bool} (h : execCoulterWalk r s = .next t) : Kept s t := by
  have hk := Kept.refl s
  unfold execCoulterWalk at h
  refine kept_of_ite kept_of_none (kept_of_ite (fun h => ?_) fun h => ?_) h
  · split at h
    · exact kept_of_none h
    · exact kept_of_next (kept_walkTaken (kept_takePlace (kept_modCls hk))) h
  · split at h
    · exact kept_of_none h
    · exact kept_of_next (kept_walkTaken (kept_takePlace (kept_modCls (kept_inQ hk)))) h

theorem kept_execCipherOpComplete {c : Fin 3} (h : execCipherOpComplete c s = .next t) :
    Kept s t := by
  unfold execCipherOpComplete at h
  split at h
  · exact kept_of_none h
  · next o _ =>
    have h1 : Kept s (dropOp o s) := kept_dropOp (Kept.refl s)
    refine kept_of_next (kept_startOps ?_) h
    split
    · exact kept_ite (kept_cryNoOutput h1) (kept_cryDone h1)
    · exact kept_cryNoOutput h1

theorem kept_execEntropyExhausted (h : execEntropyExhausted s = .next t) : Kept s t := by
  refine kept_of_ite (kept_of_next (kept_each (fun _ _ k => kept_cryNoOutput k) ?_))
    kept_of_none h
  exact kept_cry (Kept.refl s) rfl

/-- KEY_REQUEST_COMMIT may load a key, which `Kept` rules out; it leaves the transmit lanes. -/
theorem noEnableRises_execKeyRequestCommit (h : execKeyRequestCommit s = .next t) :
    NoEnableRises s t := by
  unfold execKeyRequestCommit at h
  extract_lets fin at h
  have hw (r : BitVec 3) {u : State} (k : Kept s u) : NoEnableRises s (fin r (keyWritten u)) :=
    (kept_keyWritten k).noEnableRises
  split at h
  · exact (kept_of_none h).noEnableRises
  · next w z _ =>
    obtain ⟨x, hx⟩ := kept_loadKey (s := s) (w := w) (z := z)
    generalize loadKey w z s = p at h hx
    obtain ⟨r, s1⟩ := p
    have h1 : NoEnableRises s (fin r (if r = 0 then keyWritten s1 else s1)) :=
      (kept_ite (c := r = 0) (kept_keyWritten hx) hx).noEnableRises
    exact Host.Outcome.next.inj h ▸ h1
  · exact Host.Outcome.next.inj h ▸ hw 0 (kept_eraseSlots (Kept.refl s))
  · exact Host.Outcome.next.inj h ▸ hw 0 (kept_eraseAll (Kept.refl s))

end Sys2Proof.Machine

/-! Commands that leave low every transmit enable that was low: the instructions of a tine. What an
instruction does to the rest of the state is its body; `kept_issue` says the rest. -/

namespace Sys2Proof.Machine
variable {s t : State} {th : ThreadId} {f : TFields}

/-- An instruction whose body keeps the state keeps it. -/
theorem kept_of_issue {op : Nat} {body : Thread → State → TRes}
    (hb : ∀ x u, Kept s u → ResKept s (body x u))
    (h : (Host.Outcome.next (issue op th f body s) : Out) = .next t) : Kept s t :=
  kept_of_next (kept_issue hb (Kept.refl s)) h

theorem kept_of_aluOp {op : Nat} {g : BitVec 32 → BitVec 32 → BitVec 32}
    (h : (Host.Outcome.next (aluOp op th f g s) : Out) = .next t) : Kept s t :=
  kept_of_next (kept_aluOp (Kept.refl s)) h

theorem kept_execBmov (h : execBmov th f s = .next t) : Kept s t := by
  refine kept_of_issue (fun x u k => res_ite res_fault (res_ite res_fault ?_)) h
  dsimp only
  split
  · exact res_done k
  · exact res_done k

theorem kept_execLd (h : execLd th f s = .next t) : Kept s t :=
  kept_of_issue (fun _ _ k => res_ite (res_ite (res_done k) res_fault)
    (res_ite (res_ite (res_done k) res_fault) (res_ite (res_ite (res_done k) res_fault)
      (res_ite (res_done k) res_fault)))) h

theorem kept_execSt (h : execSt th f s = .next t) : Kept s t :=
  kept_of_issue (fun _ _ k => res_ite (res_ite (res_done k) res_fault)
    (res_ite (res_ite (res_done (kept_putScratch k)) res_fault) res_fault)) h

theorem kept_execAtom (h : execAtom th f s = .next t) : Kept s t :=
  kept_of_issue (fun _ _ k => res_ite res_fault (res_done (kept_putScratch k))) h

theorem kept_execSrd (h : execSrd th f s = .next t) : Kept s t := by
  refine kept_of_issue (fun x u k => ?_) h
  split
  · exact res_fault
  · exact res_wait (kept_nextAccess k)

theorem kept_execSwr (h : execSwr th f s = .next t) : Kept s t := by
  refine kept_of_issue (fun x u k => ?_) h
  split
  · exact res_fault
  · exact res_wait (kept_nextAccess k)

theorem kept_execMeter (h : execMeter th f s = .next t) : Kept s t := by
  refine kept_of_issue (fun x u k => ?_) h
  split
  · exact res_done k
  · exact res_ite res_fault (res_done (kept_meterPacket k))

theorem kept_execCipher (h : execCipher th f s = .next t) : Kept s t := by
  refine kept_of_issue (fun x u k => res_ite res_fault (res_ite res_fault ?_)) h
  extract_lets d b ks key draw
  have h1 {n : Nat} : Kept s (if draw then drawNonce n u else (some d.nonce, u)).2 :=
    kept_ite2 (kept_drawNonce k) k
  exact res_ite (res_wait h1) (res_wait (kept_issueOp h1))

theorem kept_execDrop (h : execDrop th f s = .next t) : Kept s t := by
  refine kept_of_issue (fun x u k => res_stop ?_) h
  split
  · exact kept_discardPkt (kept_bump k)
  · exact kept_bump k

theorem kept_execServiceResult {ecc : List (Bool × Bool)} {n : Nat}
    (h : execServiceResult th ecc s n = .next t) : Kept s t := by
  unfold execServiceResult at h
  extract_lets hw tn tr x prog s1 record done eccFault at h
  have hk := Kept.refl s
  have h1 : Kept s s1 := kept_bump hk
  have hr (b : Bool) (u : State) (k : Kept s u) : Kept s (record b u) := by
    unfold record
    split
    · exact kept_sampRecord k
    · exact k
  have hd (y : Thread) (u : State) (k : Kept s u) : Kept s (done y u) := hr _ _ (kept_putThread k)
  have he (a : Option Nat) : Kept s (eccFault a s1) :=
    hr _ _ (kept_freeThread (kept_faultPass (kept_pmcInstant h1)))
  refine kept_of_ite kept_of_none (fun h => ?_) h
  split at h
  · exact kept_of_none h
  · exact kept_of_ite (kept_of_next (hd _ _ h1)) (kept_of_next (he _)) h
  · exact kept_of_next (hd _ _ (kept_putSram hk)) h
  · exact kept_of_ite (kept_of_next (hd _ _ (kept_putSram h1))) (kept_of_next (he _)) h
  · exact kept_of_next (hd _ _ (kept_emLookupOp h1)) h
  · exact kept_of_next (hd _ _ hk) h
  · exact kept_of_none h

end Sys2Proof.Machine

/-! Commands that leave low every transmit enable that was low: power states and the pair. -/

namespace Sys2Proof.Machine
variable {s t : State}

theorem kept_execEntryE2 (h : execEntryE2 s = .next t) : Kept s t := by
  have h0 : Kept s (drainLook s) := kept_drainLook (Kept.refl s)
  exact kept_of_ite (kept_of_next (kept_reachPoint (fun _ k => kept_gateLook k)
    (kept_ite h0 (kept_checkpoint h0)))) (kept_of_next h0) h

theorem kept_execWakeComplete {b : BitVec 64} (h : execWakeComplete b s = .next t) : Kept s t := by
  unfold execWakeComplete at h
  split at h
  · exact kept_of_ite kept_of_none (kept_of_next (kept_completeWake (Kept.refl s))) h
  · exact kept_of_none h

theorem kept_execRoleDrop (h : execRoleDrop s = .next t) : Kept s t :=
  kept_of_ite (kept_of_next (kept_rejoinLook (kept_gateLook (kept_leaveActive
    (kept_modPair (kept_bump (Kept.refl s))))))) kept_of_none h

theorem kept_execRoleInChange {level : Bool} (h : execRoleInChange level s = .next t) :
    Kept s t := by
  have h1 {f : Pair → Pair} : Kept s (modPair f s) := kept_modPair (Kept.refl s)
  exact kept_of_next (kept_rejoinLook (kept_yieldLook (kept_gateLook
    (kept_ite (kept_bump (kept_modPair h1)) h1)))) h

theorem kept_execRoleClaim (h : execRoleClaim s = .next t) : Kept s t := by
  have hk := Kept.refl s
  unfold execRoleClaim at h
  extract_lets s1 at h
  have h1 : Kept s s1 := kept_ite (kept_setPair (kept_modPair hk)) hk
  exact kept_of_ite kept_of_none (kept_of_ite (kept_of_ite (kept_of_next (kept_raiseGap h1))
    (kept_of_next (kept_modPair h1))) (kept_of_next h1)) h

theorem kept_execTakeover (h : execTakeover s = .next t) : Kept s t := by
  refine kept_of_ite (kept_of_next (kept_raise (kept_setPair (kept_bump (kept_restartBseq ?_)))))
    kept_of_none h
  exact kept_us (kept_startLease (kept_modPair (Kept.refl s))) rfl

theorem kept_execLockYieldExpiry (h : execLockYieldExpiry s = .next t) : Kept s t :=
  kept_of_ite (kept_of_next (kept_startYield (kept_raise (Kept.refl s)))) kept_of_none h

theorem kept_execHello {ok : Bool} {q : BitVec 32} {b : HelloBody}
    (h : execHello ok q b s = .next t) : Kept s t := by
  refine kept_of_next (kept_tetherIn (fun u k => kept_ite ?_ (kept_raise k)) (Kept.refl s)) h
  have h1 {f : Pair → Pair} : Kept s (gapLook b.fwVersion (modPair f u)) :=
    kept_gapLook (kept_modPair k)
  exact kept_ite h1 (kept_tetherRise h1)

theorem kept_execHealth {ok : Bool} {q : BitVec 32} {b : HealthBody}
    (h : execHealth ok q b s = .next t) : Kept s t := by
  refine kept_of_next (kept_tetherIn (fun u k => kept_ite k ?_) (Kept.refl s)) h
  extract_lets s1 follower s2 s3 s4
  have h1 : Kept s s1 := kept_wiringLook (kept_gapLook (kept_modPair k))
  have h2 : Kept s s2 := kept_ite (kept_dropSent (kept_dropSent h1)) h1
  have h3 : Kept s s3 := kept_ite (kept_digestLook h2) h2
  have h4 : Kept s s4 := kept_ite (kept_modPair h3) h3
  exact kept_rejoinLook h4

theorem kept_execMirrorCmd {ok : Bool} {q n : BitVec 32} {sc : BitVec 48} {op : BitVec 16}
    {c : Cmd} (h : execMirrorCmd ok q n sc op c s = .next t) : Kept s t :=
  kept_of_next (kept_tetherIn (fun _ k => kept_ite k (kept_rejoinLook (kept_tetherSend
    (kept_ite k (kept_ite (kept_modPair k) (kept_ite k (kept_modPair k))))))) (Kept.refl s)) h

theorem kept_execSnapData {ok : Bool} {q : BitVec 32} {sch : BitVec 16} {off : BitVec 32}
    {b : Bytes} (h : execSnapData ok q sch off b s = .next t) : Kept s t :=
  kept_of_next (kept_tetherIn (fun _ k => kept_ite k (kept_ite (kept_modPair k)
    (kept_failAttempt k))) (Kept.refl s)) h

theorem kept_execSnapEnd {ok : Bool} {q : BitVec 32} {sch : BitVec 16} {sc : BitVec 48}
    {n crc : BitVec 32} {o0 o1 : Optics} (h : execSnapEnd ok q sch sc n crc o0 o1 s = .next t) :
    Kept s t := by
  refine kept_of_next (kept_tetherIn (fun u k => kept_ite k (kept_ite
    (kept_rejoinFails (kept_raiseGap k)) (kept_ite (kept_failAttempt k) ?_))) (Kept.refl s)) h
  split
  · exact kept_failAttempt k
  · exact kept_takeSnapshot k

/-- A command of Table 21-7 whose body keeps the state keeps it. -/
theorem kept_of_runCmd {op : Nat} {b : CmdBody} {c : Cmd}
    (hb : ∀ c u, Kept s u → Kept s (b c u).2)
    (h : (Host.Outcome.next (runCmd op b c s) : Out) = .next t) : Kept s t :=
  kept_of_next (kept_runCmd hb (Kept.refl s)) h

end Sys2Proof.Machine

/-! BEN0 and BEN1 rise by BURST_ENABLE alone (R121, R122). -/

namespace Sys2Proof.Machine
variable {s t : State}

/-- A command that may write the upstream lanes keeps the state, apart from BURST_ENABLE, from
KEY_REQUEST_COMMIT, which may load a key, and from VDD_AON_POWER_ON, which starts the timeline
again. -/
theorem kept_exec_of_us {i : Instr} (hu : Part.us ∈ writes i) (hb : ∀ x, i ≠ .burstEnable x)
    (hk : i ≠ .keyRequestCommit) (hv : i ≠ .vddAonPowerOn) (h : exec i s = .next t) :
    Kept s t := by
  have hs := Kept.refl s
  cases i
  case vddAonPowerOn => exact absurd rfl hv
  case keyRequestCommit => exact absurd rfl hk
  case burstEnable x => exact absurd rfl (hb x)
  -- resets and the register window
  case resetNAssert | pwrgoodFall => exact kept_of_next (kept_enterReset (kept_pins hs)) h
  case resetNRelease => exact kept_execResetNRelease h
  case pwrgoodRise => exact kept_execPwrgoodRise h
  case reeveRestart => exact kept_of_next (kept_addressed (fun _ k => kept_restartReeve k) hs) h
  case mbRespAck => exact kept_of_next (kept_addressed (fun _ k => kept_respAck k) hs) h
  case registerWrite => exact kept_execRegisterWrite h
  case sysResetDeferred => exact kept_of_next (kept_ite (kept_commandedReset hs) hs) h
  -- REFCLK, codewords, the swath
  case refclkLost => exact kept_execRefclkLost h
  case refclkReturn => exact kept_execRefclkReturn h
  case hrefclkLost => exact kept_execHrefclkLost h
  case codewordDecoded => exact kept_execCodewordDecoded h
  case cw0NotReceived => exact kept_execCw0NotReceived h
  case resumeTimeout => exact kept_of_ite (kept_of_next (kept_loseLock hs)) kept_of_none h
  case swathBoundary => exact kept_execSwathBoundary h
  -- furrows and bursts
  case furrowMapEntry => exact kept_execFurrowMapEntry h
  case headerSamplePoint => exact kept_execHeaderSamplePoint h
  case burstEnd => exact kept_of_next (kept_endBurst hs) h
  case laserWatchdog | watchdogRefclkTrip =>
    exact kept_of_ite (kept_of_next (kept_wdTripLane hs)) kept_of_none h
  case fragAbandonTx => exact kept_execFragAbandonTx h
  -- activation
  case heProfile => exact kept_of_acceptMsg (fun _ _ k => kept_actHeProfile k) h
  case assignId => exact kept_of_acceptMsg (fun _ _ k => kept_actAssignId k) h
  case rangingTime => exact kept_of_acceptMsg (fun _ _ k => kept_actRangingTime k) h
  case deactivate => exact kept_execDeactivate h
  case silence => exact kept_of_acceptMsg (fun _ _ k => kept_actSilence k) h
  case release => exact kept_execRelease h
  case tune => exact kept_of_acceptMsg (fun _ _ k => kept_actTune k) h
  case toProfileExpiry =>
    exact kept_of_ite (kept_of_next (kept_actLost (kept_modInst hs))) kept_of_none h
  case toRangeExpiry | toHoldExpiry => exact kept_of_listenTimer h
  case toTuneExpiry => exact kept_of_ite (kept_of_next (kept_tuneFails hs)) kept_of_none h
  case tunePoll => exact kept_execTunePoll h
  case silenceDurationExpiry =>
    exact kept_of_ite (kept_of_next (kept_endSilence hs)) kept_of_none h
  -- server ports
  case pcsStatusChange => exact kept_execPcsStatusChange h
  case linkUpDelayExpiry =>
    exact kept_of_ite (kept_of_next (kept_linkUpLook (kept_modPort hs))) kept_of_none h
  case faultOrderedSetRx => exact kept_execFaultOrderedSetRx h
  case faultCleared => exact kept_of_next (kept_linkUpLook (kept_modPort hs)) h
  case blockLockLoss =>
    exact kept_of_ite kept_of_none
      (kept_of_next (kept_pcsFalse (kept_bump (kept_modPort hs)))) h
  case hiBer =>
    exact kept_of_ite kept_of_none
      (kept_of_next (kept_pcsFalse (kept_bump (kept_modPort hs)))) h
  case dsSchedulingDecision => exact kept_execDsSchedulingDecision h
  -- packets and tines
  case coulterWalk => exact kept_execCoulterWalk h
  case add | sub | and | or | xor | shl | shr | sra | mul | minu | maxu | mov | cmp | csadd =>
    exact kept_of_aluOp h
  case nop | ext | ins | pmcread => exact kept_of_issue (fun _ _ k => res_done k) h
  case br => exact kept_of_issue (fun _ _ k => res_ite (res_ok k) (res_done k)) h
  case setQueue => exact kept_of_issue (fun _ _ k => res_ite (res_done k) (res_done k)) h
  case ldw | stw | push | pop | hash | tsread =>
    exact kept_of_issue (fun _ _ k => res_ite res_fault (res_done k)) h
  case bmov => exact kept_execBmov h
  case ld => exact kept_execLd h
  case st => exact kept_execSt h
  case atom => exact kept_execAtom h
  case srd => exact kept_execSrd h
  case swr => exact kept_execSwr h
  case satom =>
    exact kept_of_issue (fun _ _ k => res_ite res_fault (res_wait (kept_nextAccess k))) h
  case tlook =>
    exact kept_of_issue (fun _ _ k => res_ite res_fault
      (res_ite res_fault (res_done (kept_ternLookup k)))) h
  case elook =>
    exact kept_of_issue (fun _ _ k => res_ite res_fault (res_ite res_fault (res_wait k))) h
  case meter => exact kept_execMeter h
  case count =>
    exact kept_of_issue (fun _ _ k => res_ite res_fault (res_done (kept_countResult k))) h
  case cipher => exact kept_execCipher h
  case emit =>
    exact kept_of_issue (fun _ _ k => res_ite res_fault
      (res_stop (kept_emitPass (kept_bump k)))) h
  case drop => exact kept_execDrop h
  case recirculate =>
    exact kept_of_issue (fun _ _ k => res_ite res_fault
      (res_stop (kept_recirculatePass (kept_bump k)))) h
  case trap =>
    exact kept_of_issue (fun _ _ k => res_ite res_fault
      (res_stop (kept_trapPass (kept_bump k)))) h
  case serviceResult => exact kept_execServiceResult h
  -- keys
  case cipherOpComplete => exact kept_execCipherOpComplete h
  case entropyExhausted => exact kept_execEntropyExhausted h
  -- power states
  case entryE2 => exact kept_execEntryE2 h
  case entryE4 =>
    exact kept_of_ite (kept_of_next (kept_reachPoint (fun _ k => k) (kept_latchPads hs)))
      kept_of_none h
  case wakeComplete => exact kept_execWakeComplete h
  -- the pair
  case leaseExpiry =>
    exact kept_of_ite (kept_of_next (kept_yieldLook (kept_gateLook (kept_raise (kept_bump
      (kept_modPair hs)))))) kept_of_none h
  case roleDrop => exact kept_execRoleDrop h
  case roleInChange => exact kept_execRoleInChange h
  case roleClaim => exact kept_execRoleClaim h
  case takeover => exact kept_execTakeover h
  case lockYieldExpiry => exact kept_execLockYieldExpiry h
  case hello _ q _ => exact kept_execHello (q := q) h
  case health _ q _ => exact kept_execHealth (q := q) h
  case mirrorCmd _ q _ _ _ _ => exact kept_execMirrorCmd (q := q) h
  case snapData _ q _ _ _ => exact kept_execSnapData (q := q) h
  case snapEnd _ q _ _ _ _ _ _ => exact kept_execSnapEnd (q := q) h
  case snapTimeout => exact kept_of_next (kept_ite (kept_failAttempt hs) hs) h
  case tetherHealthTimeout | tetherBlockLockLoss => exact kept_of_next (kept_tetherFall hs) h
  case roleOutReadbackChange =>
    exact kept_of_next (kept_yieldLook (kept_gateLook (kept_modPair hs))) h
  -- commands of the host
  case pwrSetDomains => exact kept_of_runCmd (fun _ _ k => kept_pwrSetDomainsBody k) h
  case pwrReleasePads => exact kept_of_runCmd (fun _ _ k => kept_pwrReleasePadsBody k) h
  case lineConfigureLanes => exact kept_of_runCmd (fun _ _ k => kept_lineConfigureLanesBody k) h
  case lineSetGroup => exact kept_of_runCmd (fun _ _ k => kept_lineSetGroupBody k) h
  case actStop => exact kept_of_runCmd (fun _ _ k => kept_actStopBody k) h
  case actSetParenting => exact kept_of_runCmd (fun _ _ k => kept_actSetParentingBody k) h
  case portConfigure => exact kept_of_runCmd (fun _ _ k => kept_portConfigureBody k) h
  case qosSetQueue => exact kept_of_runCmd (fun _ _ k => kept_qosSetQueueBody k) h
  case qosGetQueue => exact kept_of_runCmd (fun _ _ k => kept_qosGetQueueBody k) h
  case cryBindSlot => exact kept_of_runCmd (fun _ _ k => kept_cryBindSlotBody k) h
  case secAdvance => exact kept_of_runCmd (fun _ _ k => kept_secAdvanceBody k) h
  case secDebugUnlock => exact kept_of_runCmd (fun _ _ k => kept_secDebugUnlockBody k) h
  case pairConfigure => exact kept_of_runCmd (fun _ _ k => kept_pairConfigureBody k) h
  case pairYield => exact kept_of_runCmd (fun _ _ k => kept_pairYieldBody k) h
  case pairRejoin => exact kept_of_runCmd (fun _ _ k => kept_pairRejoinBody k) h
  all_goals exact absurd hu (by dsimp only [writes]; decide)

/-- No command but BURST_ENABLE raises a transmit enable. -/
theorem noEnableRises_exec {i : Instr} (hb : ∀ x, i ≠ .burstEnable x) (h : exec i s = .next t) :
    NoEnableRises s t := by
  by_cases hu : Part.us ∈ writes i
  · by_cases hk : i = .keyRequestCommit
    · subst hk
      exact noEnableRises_execKeyRequestCommit h
    · by_cases hv : i = .vddAonPowerOn
      · subst hv
        cases h
        exact fun _ e => Bool.noConfusion e
      · exact (kept_exec_of_us hu hb hk hv h).noEnableRises
  · exact noEnableRises_of_lane (congrArg UpS.lane (only_exec i h .us hu))

/-- A tick lets time pass, which moves no transmit enable; what else it does keeps the state. -/
theorem noEnableRises_tick (s : State) : NoEnableRises s (tick s) := by
  have hw (d : Nat) : NoEnableRises s (windowLook (advance d s)) :=
    (kept_windowLook (Kept.refl (advance d s))).noEnableRises
  unfold tick
  split
  · extract_lets s1
    have h1 : NoEnableRises s s1 := (hw 25).trans
      (kept_each (fun _ _ k => kept_rxArrive k) (Kept.refl _)).noEnableRises
    split
    · exact h1.trans (kept_coreCycle (Kept.refl s1)).noEnableRises
    · exact h1
  · split
    · exact hw 500
    · exact (Kept.refl s).noEnableRises

/-- BURST_ENABLE of one lane raises no enable of another: only the start of the burst raises one,
and that is of its own lane. -/
theorem burstEnable_ben {x : Fin 2} (h : exec (.burstEnable x) s = .next t) {y : Nat}
    (hy : y ≠ x.val) (hb : (usLaneOf t y).ben = true) : (usLaneOf s y).ben = true := by
  replace h : execBurstEnable x s = .next t := h
  unfold execBurstEnable at h
  split at h
  · exact (kept_of_none h).noEnableRises y hb
  · next f _ =>
    have hk {u : State} (k : Kept s u) (e : (Host.Outcome.next u : Out) = .next t) :
        (usLaneOf s y).ben = true := (kept_of_next k e).noEnableRises y hb
    split at h
    · exact hk (Kept.refl s) h
    · extract_lets s0 at h
      have h0 : Kept s s0 := kept_setStage (kept_endBurst (Kept.refl s))
      split at h
      · exact hk (kept_skipFurrow h0) h
      · split at h
        · exact hk h0 h
        · rw [← Host.Outcome.next.inj h, (startBurst_lane y).1, if_neg hy] at hb
          exact h0.noEnableRises y hb

/-- Settles O7: a step runs one command or ticks (`noEnableRises_exec`, `noEnableRises_tick`). -/
theorem enablesRiseOnlyByBurstEnable : Obligations.EnablesRiseOnlyByBurstEnable := by
  refine ⟨fun s t hp h => ?_, fun x s t h y hy hb => burstEnable_ben h hy hb⟩
  unfold step at h
  split at h
  · exact Host.Outcome.next.inj h ▸ noEnableRises_tick s
  · next c rest e =>
    have hc : NoEnableRises { s with pending := rest } t :=
      noEnableRises_exec (fun x hc => hp x rest (hc ▸ e)) h
    exact hc

end Sys2Proof.Machine

/-! Entries of a furrow map (R92-R96, R98). -/

namespace Sys2Proof.Machine
variable {g : Fin 4} {sc : BitVec 48} {entry : BitVec 128} {s : State}

/-! The checks of an entry, in their order. -/

theorem exec_furrowMapEntry_noPrimary (h : primaryOf s g sc = none) :
    exec (.furrowMapEntry g sc entry) s = .next s := by
  show execFurrowMapEntry g sc entry s = _
  rw [execFurrowMapEntry, h]

theorem exec_furrowMapEntry_noArrival {l : Nat} (hl : primaryOf s g sc = some l)
    (h : arrivalOf s l sc = none) : exec (.furrowMapEntry g sc entry) s = .next s := by
  show execFurrowMapEntry g sc entry s = _
  rw [execFurrowMapEntry, hl]
  dsimp only
  rw [h]

theorem exec_furrowMapEntry {l : Nat} {a : BitVec 64} (hl : primaryOf s g sc = some l)
    (ha : arrivalOf s l sc = some a) :
    let e := entry.toNat
    let f := entryFurrow s g sc entry a
    exec (.furrowMapEntry g sc entry) s =
      if crc16 (bitsOfNat 112 (e / 65536)) ≠ bits e 15 0 then
        .next (bump cFmapCrcErr (scGroup g) 1 s)
      else if bits e 127 114 ≠ 0x3FFF ∧
          tabGet 0 s.act.plots (bits e 127 114) ≠ groupOwner s g + 1 then .next s
      else if entryInvalid (bits e 106 84) f.dur (bits e 127 114) f.so f.rw f.pre then
        .next (bump cFurrowInvalid (scGroup g) 1 s)
      else if s.act.dual ∧ bits e 113 113 ≠ groupOwner s g then
        .next (bump cFurrowWrongLane (scGroup g) 1 s)
      else .next (storeFurrow (bits e 113 113) f s) := by
  show execFurrowMapEntry g sc entry s = _
  rw [execFurrowMapEntry, hl]
  dsimp only
  rw [ha]

/-- An entry that a check turns away is counted, and the furrow stores stand. -/
theorem bump_group_counts {c : CtrId} (h : (c.ch * 32 + c.tbl) * 256 + c.num ≠
    (cEventsLost.ch * 32 + cEventsLost.tbl) * 256 + cEventsLost.num) :
    (bump c (scGroup g) 1 s).us = s.us ∧
      ctrOf (bump c (scGroup g) 1 s) c (scGroup g) = ctrAdd (ctrOf s c (scGroup g)) 1 ∧
      Only counting s (bump c (scGroup g) 1 s) := by
  refine ⟨?_, ?_, only_bump (by decide) (Only.refl s)⟩
  · simp only [bump_rest]
  · rw [ctrOf_bump (cKey_ne (scGroup_lt g) h) Nat.one_ne_zero, if_pos rfl]

/-! The furrow store. -/

/-- The furrows of a lane whose gate windows have not closed. -/
def openFurrows (s : State) (x : Nat) : List Furrow :=
  (usLaneOf s x).furrows.filter fun k => !windowClosed s k

theorem mem_openFurrows {x : Nat} {k : Furrow} :
    k ∈ openFurrows s x ↔ k ∈ (usLaneOf s x).furrows ∧ windowClosed s k = false := by
  rw [openFurrows, List.mem_filter, Bool.not_eq_true']

/-- A furrow that meets no open one goes in among the open ones, where the store has room; what
else stays are closed ones that it may yet need (R430). -/
theorem storeFurrow_apart {x : Nat} {f : Furrow} (hr : (openFurrows s x).length < 4096)
    (ha : ∀ k ∈ openFurrows s x, windowsOverlap f k = false) :
    ∃ old, storeFurrow x f s =
      modUsLane x (fun l => { l with furrows := insertFurrow f (old ++ openFurrows s x) }) s := by
  have hits : (openFurrows s x).filter (windowsOverlap f) = [] :=
    List.filter_eq_nil_iff.2 fun k hk => by rw [ha k hk]; exact Bool.false_ne_true
  have kept : (openFurrows s x).filter (fun k => !windowsOverlap f k) = openFurrows s x :=
    List.filter_eq_self.2 fun k hk => by rw [ha k hk]; rfl
  have hopen : (usLaneOf s x).furrows.filter (fun k => !windowClosed s k) = openFurrows s x := rfl
  unfold storeFurrow
  simp only [hopen, hits, kept]
  exact ⟨_, (if_neg Bool.false_ne_true).trans (if_neg (Nat.not_le.2 hr))⟩

theorem storeFurrow_stores {x : Nat} {f : Furrow} (hr : (openFurrows s x).length < 4096)
    (ha : ∀ k ∈ openFurrows s x, windowsOverlap f k = false) :
    f ∈ (usLaneOf (storeFurrow x f s) x).furrows ∧
    (∀ k ∈ openFurrows s x, k ∈ (usLaneOf (storeFurrow x f s) x).furrows) ∧
    ∀ y, y ≠ x → usLaneOf (storeFurrow x f s) y = usLaneOf s y := by
  obtain ⟨old, he⟩ := storeFurrow_apart hr ha
  rw [he]
  refine ⟨?_, fun k hk => ?_, fun y hy => ?_⟩
  · rw [usLaneOf_modUsLane, if_pos rfl]
    exact mem_insertFurrow.2 (.inl rfl)
  · rw [usLaneOf_modUsLane, if_pos rfl]
    exact mem_insertFurrow.2 (.inr (List.mem_append_right _ hk))
  · rw [usLaneOf_modUsLane, if_neg hy]

/-- Settles O20: each check in its turn (`exec_furrowMapEntry`), then the furrow store
(`storeFurrow_stores`). -/
theorem furrowMapEntriesAreCheckedThenStored :
    Obligations.FurrowMapEntriesAreCheckedThenStored := by
  intro g sc entry s
  refine ⟨exec_furrowMapEntry_noPrimary, fun l hl => ⟨exec_furrowMapEntry_noArrival hl,
    fun a ha => ?_⟩⟩
  have he := exec_furrowMapEntry (entry := entry) hl ha
  extract_lets e f at he
  extract_lets plot lane owner crcOk known valid rightLane
  have hknown (h : known) : ¬ (plot ≠ 0x3FFF ∧ tabGet 0 s.act.plots plot ≠ owner + 1) :=
    fun ⟨h1, h2⟩ => h.elim h1 h2
  have hvalid (h : valid) : ¬ entryInvalid (bits e 106 84) f.dur plot f.so f.rw f.pre = true := by
    rw [show _ = false from h]
    exact Bool.false_ne_true
  refine ⟨fun hc => ?_, fun hc hk => ?_, fun hc hk hv => ?_, fun hc hk hv hr => ?_,
    fun hc hk hv hr ⟨hroom, hapart⟩ => ?_⟩
  · rw [if_pos hc] at he
    exact ⟨_, he, bump_group_counts (by decide)⟩
  · rwa [if_neg (not_not_intro hc), if_pos (not_or.1 hk)] at he
  · rw [if_neg (not_not_intro hc), if_neg (hknown hk),
      if_pos (Bool.eq_true_of_not_eq_false hv)] at he
    exact ⟨_, he, bump_group_counts (by decide)⟩
  · rw [if_neg (not_not_intro hc), if_neg (hknown hk), if_neg (hvalid hv),
      if_pos (Classical.not_imp.1 hr)] at he
    exact ⟨_, he, bump_group_counts (by decide)⟩
  · rw [if_neg (not_not_intro hc), if_neg (hknown hk), if_neg (hvalid hv),
      if_neg (not_and_not_right.2 hr)] at he
    obtain ⟨hf, hopen, hother⟩ := storeFurrow_stores hroom hapart
    exact ⟨_, he, hf, fun k hk ho => hopen k (mem_openFurrows.2 ⟨hk, ho⟩), hother,
      only_exec _ he⟩

end Sys2Proof.Machine

/-! The checks of a downstream field message before it acts (R133-R138). -/

namespace Sys2Proof.Machine
variable {m : FieldMsg} {s t : State}

/-- Each activation message with its FM_TYPE (Table 5-2). -/
def activationMessages (m : FieldMsg) (o : Optics) : List (Instr × Nat) :=
  [(.heProfile m, 1), (.assignId m, 2), (.rangingTime m, 3), (.assignPlot m, 4), (.assignLot m, 5),
    (.deactivate m, 6), (.silence m, 7), (.release m, 8), (.tune m o, 9), (.switchParent m, 10)]

/-- An activation message of another FM_TYPE is ignored; one of its own goes through the checks. -/
theorem exec_activationMessage {o : Optics} {p : Instr × Nat} (hp : p ∈ activationMessages m o)
    (s : State) : ∃ addr states ack act, exec p.1 s =
      if msgType m ≠ p.2 then .next s else .next (acceptMsg m addr states ack act s) := by
  simp only [activationMessages, List.mem_cons, List.not_mem_nil, or_false] at hp
  rcases hp with rfl | rfl | rfl | rfl | rfl | rfl | rfl | rfl | rfl | rfl <;>
    exact ⟨_, _, _, _, rfl⟩

section Checks
variable {addr : Addressing} {states : ActState → Bool} {ack : Bool}
  {act : Nat → State → Option Nat × State}

/-- The message came where it may be heard, for this terminal or for all (R79, R136, R477). -/
def Heard (m : FieldMsg) (s : State) : Prop :=
  msgPrimary s m = true ∧ s.pwr.listening = 0 ∧
    (msgTid m = 0xFFFF ∨ msgTid m = (instOf s (groupOwner s m.group)).terminalId)

theorem Heard.not_turned_away (h : Heard m s) :
    ¬ (!msgPrimary s m || decide (s.pwr.listening ≠ 0)) = true ∧
    ¬ (!decide (msgTid m = 0xFFFF) &&
      msgTid m != (instOf s (groupOwner s m.group)).terminalId) = true := by
  obtain ⟨hp, hl, ht⟩ := h
  refine ⟨by simp [hp, hl], ?_⟩
  rcases ht with ht | ht <;> simp [ht]

theorem acceptMsg_tagErr (h : Heard m s) (hk : tagOk s (groupOwner s m.group) m = false) :
    acceptMsg m addr states ack act s = bump cFmsgTagErr (scInst (groupOwner s m.group)) 1 s := by
  obtain ⟨h1, h2⟩ := h.not_turned_away
  unfold acceptMsg
  dsimp only
  rw [if_neg h1, if_neg h2, if_pos (by rw [hk]; rfl)]

/-- A message to this terminal alone that is behind the last one accepted only counts (R138). -/
theorem acceptMsg_stale {q : BitVec 8} (h : Heard m s)
    (hk : tagOk s (groupOwner s m.group) m = true)
    (hc : msgTid m ≠ 0xFFFF) (hq : (instOf s (groupOwner s m.group)).lastSeq = some q)
    (hd : 128 ≤ (msgSeq m - q).toNat) : Only counting s (acceptMsg m addr states ack act s) := by
  obtain ⟨h1, h2⟩ := h.not_turned_away
  have hb {c : CtrId} {i : Nat} : Only counting s (bump c i 1 s) :=
    only_bump (by decide) (Only.refl s)
  have hd0 : ((msgSeq m - q).toNat == 0) = false := by rw [beq_eq_false_iff_ne]; omega
  unfold acceptMsg
  dsimp only
  rw [if_neg h1, if_neg h2, hk, decide_eq_false hc, hq]
  simp only [hd0, hd, decide_true, Bool.not_true, Bool.not_false, Bool.true_and, Bool.and_true,
    Bool.false_and, Bool.false_eq_true, if_false, if_true]
  exact only_ite hb (only_ite hb hb)

/-- Nothing is acted on: states, changes that wait, TERMINAL_IDs, plots and the working parent stand,
and beside counts only the activation part is written. -/
def Unheeded (s t : State) : Prop :=
  (∀ k, (instOf t k).st = (instOf s k).st ∧ (instOf t k).todo = (instOf s k).todo ∧
    (instOf t k).terminalId = (instOf s k).terminalId) ∧
  t.act.plots = s.act.plots ∧ t.act.working = s.act.working ∧ Only (counting ++ [.act]) s t

theorem unheeded_bump {c : CtrId} {i n : Nat} : Unheeded s (bump c i n s) := by
  refine ⟨fun k => ?_, ?_, ?_, only_bump (by decide) (Only.refl s)⟩
  · simp only [instOf_bump, and_self]
  · simp only [bump_rest]
  · simp only [bump_rest]

theorem Unheeded.queueMsg {i : Nat} {ty : BitVec 8} {b : Bytes} (h : Unheeded s t) :
    Unheeded s (queueMsg i ty b t) := by
  obtain ⟨hi, hp, hw, ho⟩ := h
  obtain ⟨-, -, hp', hw'⟩ := queueMsg_inst (i := i) (t := ty) (b := b) (s := t) i
  refine ⟨fun k => ?_, hp'.trans hp, hw'.trans hw, only_queueMsg (by decide) ho⟩
  obtain ⟨Q, hQ, -⟩ := queueMsg_inst (i := i) (t := ty) (b := b) (s := t) k
  rw [hQ]
  exact hi k

theorem unheeded_ite {c : Prop} [Decidable c] {u : State} (h : Unheeded s t) (k : Unheeded s u) :
    Unheeded s (if c then t else u) := by split <;> assumption

/-- A message to this terminal alone that repeats the last one is at most answered again (R138). -/
theorem acceptMsg_repeated (h : Heard m s)
    (hk : tagOk s (groupOwner s m.group) m = true)
    (hc : msgTid m ≠ 0xFFFF) (hq : (instOf s (groupOwner s m.group)).lastSeq = some (msgSeq m)) :
    Unheeded s (acceptMsg m addr states ack act s) := by
  obtain ⟨h1, h2⟩ := h.not_turned_away
  unfold acceptMsg
  dsimp only
  rw [if_neg h1, if_neg h2, hk, decide_eq_false hc, hq]
  simp only [BitVec.sub_self, BitVec.toNat_ofNat, Nat.zero_mod, beq_self_eq_true, Bool.not_true,
    Bool.not_false, Bool.true_and, Bool.and_true, Bool.false_and, Bool.false_eq_true, if_false,
    if_true]
  refine unheeded_ite unheeded_bump (unheeded_ite unheeded_bump ?_)
  split
  · exact unheeded_ite unheeded_bump.queueMsg unheeded_bump
  · exact unheeded_bump

end Checks

/-! UNDEFINED_FIELD_MESSAGE (R136). -/

theorem exec_undefinedFieldMessage_none (h : msgDefined (msgType m) = true ∨
    msgPrimary s m = false ∨ s.pwr.listening ≠ 0 ∨
    (msgTid m ≠ 0xFFFF ∧ msgTid m ≠ (instOf s (groupOwner s m.group)).terminalId)) :
    exec (.undefinedFieldMessage m) s = .next s := by
  show execUndefinedFieldMessage m s = _
  unfold execUndefinedFieldMessage
  dsimp only
  rcases h with h | h | h | h
  · rw [if_pos (by rw [h]; rfl)]
  · rw [if_pos (by rw [h, Bool.not_false, Bool.or_true, Bool.true_or])]
  · rw [if_pos (by rw [decide_eq_true h, Bool.or_true])]
  · exact ite_eq_left_iff.2 fun _ => if_pos h

theorem exec_undefinedFieldMessage (hd : msgDefined (msgType m) = false) (h : Heard m s)
    (hk : tagOk s (groupOwner s m.group) m = true) : exec (.undefinedFieldMessage m) s =
      .next (bump cFmsgUnknownType (scInst (groupOwner s m.group)) 1 s) := by
  obtain ⟨hp, hl, ht⟩ := h
  show execUndefinedFieldMessage m s = _
  unfold execUndefinedFieldMessage
  dsimp only
  rw [if_neg (by simp [hd, hp, hl]), if_neg fun e => ht.elim e.1 e.2, if_neg (by simp [hk])]

/-- A message that a check turns away is counted. -/
theorem bump_inst_counts {c : CtrId} {g : Nat} (h : (c.ch * 32 + c.tbl) * 256 + c.num ≠
    (cEventsLost.ch * 32 + cEventsLost.tbl) * 256 + cEventsLost.num) :
    ctrOf (bump c (scInst (groupOwner s g)) 1 s) c (scInst (groupOwner s g)) =
      ctrAdd (ctrOf s c (scInst (groupOwner s g))) 1 ∧
    Only counting s (bump c (scInst (groupOwner s g)) 1 s) := by
  refine ⟨?_, only_bump (by decide) (Only.refl s)⟩
  rw [ctrOf_bump (cKey_ne (scInst_lt s g) h) Nat.one_ne_zero, if_pos rfl]

/-- Settles O22: the ten messages pass the same checks (`exec_activationMessage`), each of which has
its lemma. -/
theorem fieldMessagesAreCheckedBeforeTheyAct :
    Obligations.FieldMessagesAreCheckedBeforeTheyAct := by
  intro m o s
  refine ⟨fun p hp => ?_, fun hd hm hl ht hk => ?_, exec_undefinedFieldMessage_none⟩
  · obtain ⟨addr, states, ack, act, he⟩ := exec_activationMessage (m := m) (o := o) hp s
    refine ⟨fun h => ?_, fun hty hm hl ht => ?_⟩
    · rcases h with h | h
      · rw [he, if_pos h]
      · rw [he, accept_same h, ite_self]
    · have hh : Heard m s := ⟨hm, hl, ht⟩
      rw [if_neg (not_not.2 hty)] at he
      refine ⟨fun hk => ?_, fun hk hc q hq hd => ⟨_, he, acceptMsg_stale hh hk hc hq hd⟩,
        fun hk hc hq => ⟨_, he, acceptMsg_repeated hh hk hc hq⟩⟩
      exact ⟨_, he, acceptMsg_tagErr (addr := addr) hh hk ▸ bump_inst_counts (by decide)⟩
  · exact ⟨_, exec_undefinedFieldMessage hd ⟨hm, hl, ht⟩ hk, bump_inst_counts (by decide)⟩

end Sys2Proof.Machine

/-! The timers of activation and the end of tuning (R143-R147, R154-R156, R163, R164). -/

namespace Sys2Proof.Machine
variable {i : Nat} {s : State}

/-! Where a change of state leaves the instance. -/

/-- A timer of Table 5-6 runs in RUN and DOZE only. -/
theorem actTimersRun_iff : actTimersRun s = true ↔ s.pwr.st = .run ∨ s.pwr.st = .doze := by
  simp only [actTimersRun, Bool.or_eq_true, beq_iff_eq]

theorem toListen_st {msg : Option Nat} : (instOf (toListen i msg s) i).st = .listen :=
  setAct_st

/-- Where the loss of lock, or of the profile, takes an instance (Table 5-5). -/
def lostState (s : State) (i : Nat) : ActState :=
  let st := (instOf s i).st
  if st = .announce ∨ st = .ranging then .listen
  else if st = .operating then if settingN s sToHold (scInst i) = 0 then .listen else .holdover
  else st

theorem actLost_inst (h : (instOf s i).toProfile = false) :
    (instOf (actLost i s) i).toProfile = false ∧ (instOf (actLost i s) i).st = lostState s i := by
  unfold actLost lostState
  obtain ⟨hp, -⟩ := toListen_none (i := i) (s := s)
  cases hst : (instOf s i).st with
  | announce | ranging => exact ⟨hp, toListen_st⟩
  | operating =>
    dsimp only
    have hset : settingN (setAct i .holdover none
        (modInst i (fun x => voidStop 2 { x with toHold := true }) s)) sToHold (scInst i) =
        settingN s sToHold (scInst i) :=
      congrArg Int.toNat (setting_congr setAct_settings _ _ _)
    rw [hset]
    split
    · exact ⟨toListen_none.1, by simpa using toListen_st⟩
    · obtain ⟨-, td, sb, tb, he, -⟩ := setAct_inst (i := i) (dest := .holdover) (msg := none)
        (s := modInst i (fun x => voidStop 2 { x with toHold := true }) s)
      rw [he, instOf_modInst, if_pos rfl]
      exact ⟨h, by simp⟩
  | listen | holdover | silenced | tuning => exact ⟨h, hst⟩

theorem exec_toProfileExpiry {n : Fin 2} (hr : s.pwr.st = .run ∨ s.pwr.st = .doze)
    (h : (instOf s n).toProfile = true) : exec (.toProfileExpiry n) s =
      .next (actLost n (modInst n (fun y => { y with toProfile := false }) s)) :=
  if_pos (by rw [actTimersRun_iff.2 hr, h]; rfl)

theorem toProfileExpiry_facts {n : Fin 2} (hr : s.pwr.st = .run ∨ s.pwr.st = .doze)
    (h : (instOf s n).toProfile = true) : Does (.toProfileExpiry n) s fun t =>
      (instOf t n).toProfile = false ∧ (instOf t n).st = lostState s n := by
  have he := exec_toProfileExpiry hr h
  obtain ⟨hp, hst⟩ := actLost_inst (i := n)
    (s := modInst n (fun y => { y with toProfile := false }) s) (by rw [instOf_modInst, if_pos rfl])
  refine ⟨_, he, ⟨hp, hst.trans ?_⟩, only_exec _ he⟩
  unfold lostState
  rw [instOf_modInst, if_pos rfl]
  rfl

/-- A timer that has run out while the instance waits in `w` takes it to LISTEN; in any other state
only its mark `run` goes. -/
def listenAfter (i : Nat) (w : ActState) (f : Inst → Inst) (s : State) : State :=
  if (instOf s i).st = w then toListen i none (modInst i f s) else modInst i f s

theorem listenAfter_facts {w : ActState} {f : Inst → Inst} {mark : Inst → Bool}
    (hst : ∀ x, (f x).st = x.st) (hf : ∀ x, mark (f x) = false)
    (hl : ∀ u, mark (instOf (toListen i none u) i) = false) :
    mark (instOf (listenAfter i w f s) i) = false ∧
    (instOf (listenAfter i w f s) i).st =
      (if (instOf s i).st = w then .listen else (instOf s i).st) ∧
    ((instOf s i).st = w → (instOf (listenAfter i w f s) i).terminalId = 0xFFFF) := by
  unfold listenAfter
  by_cases h : (instOf s i).st = w
  · rw [if_pos h, if_pos h]
    obtain ⟨h1, h2, -⟩ := toListen_inst (i := i) (msg := none) (s := modInst i f s)
    exact ⟨hl _, h1, fun _ => h2⟩
  · rw [if_neg h, if_neg h, instOf_modInst, if_pos rfl]
    exact ⟨hf _, hst _, fun e => absurd e h⟩

theorem toRangeExpiry_facts {n : Fin 2} (hr : s.pwr.st = .run ∨ s.pwr.st = .doze)
    (h : (instOf s n).toRange = true) : Does (.toRangeExpiry n) s fun t =>
      (instOf t n).toRange = false ∧
      (instOf t n).st = (if (instOf s n).st = .ranging then .listen else (instOf s n).st) ∧
      ((instOf s n).st = .ranging → (instOf t n).terminalId = 0xFFFF) := by
  have he : exec (.toRangeExpiry n) s =
      .next (listenAfter n .ranging (fun y => { y with toRange := false }) s) :=
    (if_pos (by rw [actTimersRun_iff.2 hr, h]; rfl)).trans (apply_ite Host.Outcome.next ..).symm
  exact ⟨_, he, listenAfter_facts (mark := Inst.toRange) (fun _ => rfl) (fun _ => rfl)
    (fun _ => toListen_none.2.1), only_exec _ he⟩

theorem toHoldExpiry_facts {n : Fin 2} (hr : s.pwr.st = .run ∨ s.pwr.st = .doze)
    (h : (instOf s n).toHold = true) : Does (.toHoldExpiry n) s fun t =>
      (instOf t n).toHold = false ∧
      (instOf t n).st = (if (instOf s n).st = .holdover then .listen else (instOf s n).st) ∧
      ((instOf s n).st = .holdover → (instOf t n).terminalId = 0xFFFF) := by
  have he : exec (.toHoldExpiry n) s =
      .next (listenAfter n .holdover (fun y => { y with toHold := false }) s) :=
    (if_pos (by rw [actTimersRun_iff.2 hr, h]; rfl)).trans (apply_ite Host.Outcome.next ..).symm
  exact ⟨_, he, listenAfter_facts (mark := Inst.toHold) (fun _ => rfl) (fun _ => rfl)
    (fun _ => toListen_none.2.2.1), only_exec _ he⟩

/-- A timer that does not run, or that runs in another power state, expires without effect. -/
theorem timer_idle {v : Bool} (h : ¬ (s.pwr.st = .run ∨ s.pwr.st = .doze) ∨ v = false) :
    ¬ (actTimersRun s && v) = true := by
  rw [Bool.and_eq_true, actTimersRun_iff]
  rintro ⟨hr, hv⟩
  rcases h with h | h
  · exact h hr
  · exact Bool.false_ne_true (h.symm.trans hv)

/-! Tuning. -/

theorem exec_toTuneExpiry_none {n : Fin 2} (h : ¬ (s.pwr.st = .run ∨ s.pwr.st = .doze) ∨
    (instOf s n).toTune = false ∨ (instOf s n).st ≠ .tuning) :
    exec (.toTuneExpiry n) s = .next s := by
  refine if_neg ?_
  rw [Bool.and_eq_true, beq_iff_eq]
  rintro ⟨hv, ht⟩
  rcases or_assoc.2 h with h | h
  · exact timer_idle h hv
  · exact h ht

/-- The wait that runs out and the poll that finds a fault are failures, with RESULT 2 and 1. -/
theorem exec_tuningFails {n : Fin 2} {p : Instr × BitVec 8}
    (hp : p ∈ [(Instr.toTuneExpiry n, (2 : BitVec 8)), (.tunePoll n .fault, 1)])
    (hr : p.2 = 2 → (s.pwr.st = .run ∨ s.pwr.st = .doze) ∧ (instOf s n).toTune = true)
    (hs : (instOf s n).st = .tuning)
    (h0 : (usLaneOf s (instOf s n).tuneLane).tuneStep ≠ 0) :
    exec p.1 s = .next (tuneFails n p.2 s) := by
  rcases List.mem_pair.1 hp with rfl | rfl
  · obtain ⟨hrun, ht⟩ := hr rfl
    exact if_pos (by rw [actTimersRun_iff.2 hrun, ht, hs]; rfl)
  · exact if_neg (not_or.2 ⟨not_not.2 hs, h0⟩)

/-- The first failure goes back to the previous channel and waits for it anew (R156). -/
theorem tuneFails_first {r : BitVec 8} (h : (usLaneOf s (instOf s i).tuneLane).tuneStep = 1) :
    (instOf (tuneFails i r s) i).toTune = true ∧
    (instOf (tuneFails i r s) i).st = (instOf s i).st ∧
    usLaneOf (tuneFails i r s) (instOf s i).tuneLane =
      { usLaneOf s (instOf s i).tuneLane with
        tuneStep := 2, tuneResult := r, grid := (usLaneOf s (instOf s i).tuneLane).prevGrid,
        channel := (usLaneOf s (instOf s i).tuneLane).prevChannel } := by
  unfold tuneFails
  dsimp only
  rw [if_pos h, instOf_modInst, if_pos rfl, usLaneOf_modInst, usLaneOf_modUsLane, if_pos rfl]
  exact ⟨rfl, rfl, rfl⟩

/-- Without a SILENCE that waits, tuning that leaves no channel in force ends in LISTEN, disabled
and cleared. -/
theorem leaveTuning_failed (h : (instOf s i).silencePending = none) :
    (instOf (leaveTuning i false s) i).st = .listen ∧
    (instOf (leaveTuning i false s) i).enabled = false ∧
    (instOf (leaveTuning i false s) i).toTune = false ∧
    (instOf (leaveTuning i false s) i).terminalId = 0xFFFF := by
  unfold leaveTuning
  dsimp only
  rw [h]
  simp only [Bool.false_eq_true, if_false]
  obtain ⟨-, td, sb, tb, he, -⟩ := setAct_inst (i := i) (dest := .listen) (msg := none)
    (s := modInst i (fun y => { y with enabled := false }) (actClear i none
      (modInst i (fun y => { y with toTune := false, silencePending := none }) s)))
  obtain ⟨htid, -⟩ := actClear_inst (i := i) (msg := none)
    (s := modInst i (fun y => { y with toTune := false, silencePending := none }) s)
  obtain ⟨-, -, -, htune⟩ := actClear_none (i := i)
    (s := modInst i (fun y => { y with toTune := false, silencePending := none }) s)
  rw [he, instOf_modInst, if_pos rfl]
  exact ⟨rfl, rfl, htune, htid⟩

theorem tuneFails_again {r : BitVec 8} (h : (usLaneOf s (instOf s i).tuneLane).tuneStep = 2)
    (hp : (instOf s i).silencePending = none) :
    (instOf (tuneFails i r s) i).st = .listen ∧ (instOf (tuneFails i r s) i).enabled = false ∧
    (instOf (tuneFails i r s) i).toTune = false ∧
    (instOf (tuneFails i r s) i).terminalId = 0xFFFF := by
  unfold tuneFails
  dsimp only
  rw [if_neg (by rw [h]; decide)]
  exact leaveTuning_failed (by rw [instOf_raise, instOf_modUsLane]; exact hp)

/-- Without a SILENCE that waits, tuning that leaves a channel in force ends in OPERATING while
the instance is locked. -/
theorem leaveTuning_tuned (h : (instOf s i).silencePending = none) (hl : instLocked s i = true) :
    (instOf (leaveTuning i true s) i).st = .operating ∧
    (instOf (leaveTuning i true s) i).toTune = false := by
  unfold leaveTuning
  dsimp only
  rw [h]
  simp only [if_true]
  rw [if_pos (by rw [instLocked_setAct]; exact hl)]
  obtain ⟨-, td, sb, tb, he, -⟩ := setAct_inst (i := i) (dest := .operating) (msg := none)
    (s := modInst i (fun y => { y with toTune := false, silencePending := none }) s)
  rw [he, instOf_modInst, if_pos rfl]
  exact ⟨rfl, rfl⟩

/-- TUNE_DONE writes the queue of messages, or counts. -/
theorem tuneDone_keeps {x r : Nat} {rev : Bool} :
    (instOf (tuneDone i x r rev s) i).silencePending = (instOf s i).silencePending ∧
    instLocked (tuneDone i x r rev s) i = instLocked s i := by
  unfold tuneDone
  obtain ⟨Q, hQ, -⟩ := queueMsg_inst (i := i) (t := 0x23) (s := s)
    (b := natBytes 1 (bit rev * 2 + x)
    ++ natBytes 1 r ++ [(usLaneOf s x).grid] ++ natBytes 2 (usLaneOf s x).channel.toNat ++
    natBytes 4 (usLaneOf s x).freq.toNat) i
  refine ⟨by rw [hQ], instLocked_congr ?_ ?_ i⟩
  · exact only_queueMsg (List.Subset.refl _) (Only.refl s) .lanes (by decide)
  · unfold queueMsg
    split <;> simp

theorem tunePoll_complete_facts {n : Fin 2} (hs : (instOf s n).st = .tuning)
    (h1 : (usLaneOf s (instOf s n).tuneLane).tuneStep = 1)
    (hp : (instOf s n).silencePending = none) (hl : instLocked s n = true) (f : BitVec 32) :
    Does (.tunePoll n (.complete f)) s fun t =>
      (instOf t n).st = .operating ∧ (instOf t n).toTune = false := by
  obtain ⟨u, hu, he⟩ : ∃ u, (instOf u n = instOf s n ∧ instLocked u n = instLocked s n) ∧
      exec (.tunePoll n (.complete f)) s =
        .next (leaveTuning n true (tuneDone n (instOf s n).tuneLane 0 false u)) := by
    refine ⟨_, ?_, (if_neg (not_or.2 ⟨not_not.2 hs, by rw [h1]; decide⟩)).trans (if_pos h1)⟩
    split <;> exact ⟨rfl, rfl⟩
  obtain ⟨hsil, hlock⟩ := tuneDone_keeps (i := n) (x := (instOf s n).tuneLane) (r := 0)
    (rev := false) (s := u)
  exact ⟨_, he, leaveTuning_tuned (by rw [hsil, hu.1, hp]) (by rw [hlock, hu.2, hl]),
    only_exec _ he⟩

theorem exec_tunePoll_inProgress {n : Fin 2} : exec (.tunePoll n .inProgress) s = .next s :=
  ite_self _

/-! The end of SILENCED. -/

/-- SILENCED ends in LISTEN, or in OPERATING where that was the prior state and the instance is
locked (Table 5-5). -/
theorem endSilence_inst {msg : Option Nat} :
    ((instOf s i).prior ≠ .operating → (instOf (endSilence i msg s) i).st = .listen) ∧
    ((instOf s i).prior = .operating → instLocked s i = true →
      (instOf (endSilence i msg s) i).st = .operating) := by
  unfold endSilence
  dsimp only
  rw [instOf_modInst, if_pos rfl]
  refine ⟨fun h => ?_, fun h hl => ?_⟩
  · rw [if_neg h]
    exact toListen_st
  · rw [if_pos h, if_pos (by rw [instLocked_setAct]; exact hl)]
    exact setAct_st

theorem silenceDurationExpiry_facts {n : Fin 2} (hd : (instOf s n).durRunning = true)
    (hs : (instOf s n).st = .silenced) : Does (.silenceDurationExpiry n) s fun t =>
      ((instOf s n).prior ≠ .operating → (instOf t n).st = .listen) ∧
      ((instOf s n).prior = .operating → instLocked s n = true →
        (instOf t n).st = .operating) := by
  have he : exec (.silenceDurationExpiry n) s = .next (endSilence n none s) :=
    if_pos (by rw [hd, hs]; rfl)
  exact ⟨_, he, endSilence_inst, only_exec _ he⟩

theorem exec_silenceDurationExpiry_none {n : Fin 2}
    (h : (instOf s n).durRunning = false ∨ (instOf s n).st ≠ .silenced) :
    exec (.silenceDurationExpiry n) s = .next s := by
  refine if_neg ?_
  rw [Bool.and_eq_true, beq_iff_eq]
  rintro ⟨hd, hs⟩
  rcases h with h | h
  · exact Bool.false_ne_true (h.symm.trans hd)
  · exact h hs

/-- Settles O24, timer by timer. -/
theorem activationTimersExpire : Obligations.ActivationTimersExpire := by
  intro n s
  refine ⟨toProfileExpiry_facts, toRangeExpiry_facts, toHoldExpiry_facts,
    fun h => if_neg (timer_idle h), fun h => if_neg (timer_idle h),
    fun h => if_neg (timer_idle h), exec_toTuneExpiry_none, fun hs p hp hr => ?_,
    tunePoll_complete_facts, exec_tunePoll_inProgress, silenceDurationExpiry_facts,
    exec_silenceDurationExpiry_none⟩
  refine ⟨fun h1 => ?_, fun h2 hsil => ?_⟩
  · have he := exec_tuningFails hp hr hs (by rw [h1]; decide)
    obtain ⟨ht, hst, hl⟩ := tuneFails_first (r := p.2) h1
    exact ⟨_, he, ⟨ht, hst.trans hs, hl⟩, only_exec _ he⟩
  · have he := exec_tuningFails hp hr hs (by rw [h2]; decide)
    exact ⟨_, he, tuneFails_again h2 hsil, only_exec _ he⟩

end Sys2Proof.Machine

/-! What an admitted activation message does (R139-R163). -/

namespace Sys2Proof.Machine
variable {m : FieldMsg} {i : Nat} {s t u : State}

/-! A message that acts, and how it is then counted and answered (R138, R139). -/

/-- An admitted message of its FM_TYPE, addressed as its row says, that finds its instance in one of
its states, and whose action answers a RESULT, acts and is done. -/
theorem exec_acts {c : Instr} {n r : Nat} {addr : Addressing} {states : ActState → Bool}
    {ack : Bool} {act : Nat → State → Option Nat × State}
    (he : exec c s =
      if msgType m ≠ n then .next s else .next (acceptMsg m addr states ack act s))
    (hty : msgType m = n) (ha : Admitted m s)
    (hto : if msgTid m = 0xFFFF
      then addr = .broadcast ∨ (addr = .serial ∨ addr = .either) ∧ serialMatches s m = true
      else addr = .addressed ∨ addr = .either)
    (hrev : (n ≠ 9 ∧ n ≠ 10) ∨ (instOf s (groupOwner s m.group)).opRev ≠ 0x0100)
    (hst : states (instOf s (groupOwner s m.group)).st = true)
    (hr : (act (groupOwner s m.group) s).1 = some r) :
    exec c s = .next (msgDone m (groupOwner s m.group) ack r (act (groupOwner s m.group) s).2) := by
  have hrev' : msgType m = 9 ∨ msgType m = 10 →
      (instOf s (groupOwner s m.group)).opRev ≠ 0x0100 := fun h => hrev.resolve_left fun hn =>
    h.elim (hty ▸ hn.1) (hty ▸ hn.2)
  rw [he, if_neg (not_not.2 hty), acceptMsg_ok ha hto hrev' hst, hr]
  rfl

/-- A message whose type is not answered: its FM_SEQ is noted, unless it went to all. -/
theorem msgDone_unanswered (m : FieldMsg) (i r : Nat) (s : State) : ∃ L A,
    instOf (msgDone m i false r s) i = { instOf s i with lastSeq := L, lastAck := A } ∧
    (msgTid m = 0xFFFF → L = (instOf s i).lastSeq) := by
  obtain ⟨Q, L, A, he, hall, hq, -⟩ := msgDone_inst (m := m) (i := i) (ack := false) (r := r)
    (s := s)
  exact ⟨L, A, by rw [he, hq rfl], fun h => (hall h).2.1⟩

/-- A message to this terminal whose type is answered: its FM_SEQ and its ACK are kept. -/
theorem msgDone_answered (i r : Nat) (s : State) (hc : msgTid m ≠ 0xFFFF) : ∃ Q,
    instOf (msgDone m i true r s) i = { instOf s i with
      txQueue := Q, lastSeq := some (msgSeq m)
      lastAck := some (BitVec.ofNat 8 (msgType m), msgSeq m, BitVec.ofNat 8 r) } ∧
    (msgDone m i true r s).act.plots = s.act.plots ∧
    (msgDone m i true r s).act.working = s.act.working ∧
    (msgDone m i true r s).act.pendingSwitch = s.act.pendingSwitch := by
  obtain ⟨Q, L, A, he, -, -, hown, hpl⟩ :=
    msgDone_inst (m := m) (i := i) (ack := true) (r := r) (s := s)
  obtain ⟨rfl, hA⟩ := hown hc
  exact ⟨Q, hA rfl ▸ he, hpl⟩

theorem usLaneOf_msgDone {ack : Bool} {r x : Nat} :
    usLaneOf (msgDone m i ack r s) x = usLaneOf s x := by
  have h : (msgDone m i ack r s).us = s.us := frame_msgDone .us (by decide)
  rw [usLaneOf, h, usLaneOf]

theorem lotOf_msgDone {ack : Bool} {r k : Nat} : lotOf (msgDone m i ack r s) k = lotOf s k := by
  have h : (msgDone m i ack r s).lots = s.lots := frame_msgDone .lots (by decide)
  rw [lotOf, h, lotOf]

/-! Operations of a message on its instance. -/

theorem instOf_leaveFor {g : Nat} {sc : Option (BitVec 48)} {w : ActDue} :
    instOf (leaveFor i g sc w s) i =
      { instOf s i with todo := (instOf s i).todo ++ [⟨g, sc, w⟩] } := by
  rw [leaveFor, instOf_modInst, if_pos rfl]

theorem addPlot_inst {p : Nat} : (addPlot i p s).act.inst = s.act.inst := by
  unfold addPlot
  dsimp only
  split
  · rfl
  · split <;> rfl

/-- A plot that is the instance's, or free with room, is the instance's afterwards. -/
theorem addPlot_plots {p : Nat} (h : tabGet 0 s.act.plots p = i + 1 ∨
    tabGet 0 s.act.plots p = 0 ∧ s.act.plots.length < 256) (k : Nat) :
    tabGet 0 (addPlot i p s).act.plots k =
      if k = p then i + 1 else tabGet 0 s.act.plots k := by
  unfold addPlot
  dsimp only
  rcases h with h | ⟨h, hl⟩
  · rw [if_pos h]
    split
    · next hk => rw [hk, h]
    · rfl
  · rw [if_neg (by omega), if_neg (by omega)]
    exact tabGet_set 0 s.act.plots k p (i + 1)

/-! HE_PROFILE (Table 5-5). -/

/-- The instance holds the HE_ID and the announce backoff of the message. -/
def Profiled (m : FieldMsg) (y : Inst) : Prop :=
  y.heId = BitVec.ofNat 32 (field m.bytes 4 4) ∧ y.annBackoff = (byteAt m.bytes 12).toNat % 16

theorem Profiled.leaveFor {g : Nat} {sc : Option (BitVec 48)} {w : ActDue}
    (h : Profiled m (instOf s i)) : Profiled m (instOf (leaveFor i g sc w s) i) := by
  rw [instOf_leaveFor]
  exact h

theorem Profiled.setAct {a : ActState} {g : Option Nat} (h : Profiled m (instOf s i)) :
    Profiled m (instOf (setAct i a g s) i) := by
  obtain ⟨-, td, sb, tb, he, -⟩ := setAct_inst (i := i) (dest := a) (msg := g) (s := s)
  rw [he]
  exact h

/-- The instance as the profile leaves it before Table 5-5 is looked at. -/
def profiled (m : FieldMsg) (i : Nat) (s : State) : State :=
  modInst i (fun x => { x with
    heId := BitVec.ofNat 32 (field m.bytes 4 4), annOpen := (byteAt m.bytes 12).getLsbD 7,
    annBackoff := (byteAt m.bytes 12).toNat % 16 }) s

theorem instOf_profiled : instOf (profiled m i s) i = { instOf s i with
    heId := BitVec.ofNat 32 (field m.bytes 4 4), annOpen := (byteAt m.bytes 12).getLsbD 7,
    annBackoff := (byteAt m.bytes 12).toNat % 16 } := by
  rw [profiled, instOf_modInst, if_pos rfl]

theorem instLocked_profiled : instLocked (profiled m i s) i = instLocked s i := instLocked_modInst

theorem actHeProfile_stores : (actHeProfile m i s).1 = some 0 ∧
    Profiled m (instOf (actHeProfile m i s).2 i) := by
  have h1 : Profiled m (instOf (profiled m i s) i) := by
    rw [instOf_profiled]
    exact ⟨rfl, rfl⟩
  unfold actHeProfile
  dsimp only
  rw [← profiled]
  split
  · split
    · exact ⟨rfl, by rw [instOf_raise, instOf_bump]; exact h1⟩
    · split
      · refine ⟨rfl, (Profiled.setAct ?_).leaveFor⟩
        rw [instOf_modInst, if_pos rfl]
        exact h1
      · exact ⟨rfl, h1⟩
  · exact ⟨rfl, h1.leaveFor⟩
  · exact ⟨rfl, h1.leaveFor⟩
  · exact ⟨rfl, h1.leaveFor⟩
  · split
    · exact ⟨rfl, h1.setAct.leaveFor.leaveFor⟩
    · exact ⟨rfl, h1.leaveFor⟩
  · exact ⟨rfl, h1⟩

theorem actHeProfile_listen (hs : (instOf s i).st = .listen) (hen : (instOf s i).enabled = true)
    (hl : instLocked s i = true) (hlo : field m.bytes 8 2 ≤ (revRange s).2)
    (hhi : (revRange s).1 ≤ field m.bytes 10 2) :
    (instOf (actHeProfile m i s).2 i).st = .announce := by
  unfold actHeProfile
  dsimp only
  rw [← profiled]
  rw [instOf_profiled, hs, instLocked_profiled, hen, hl, decide_eq_false (Nat.not_lt.2 hlo),
    decide_eq_false (Nat.not_lt.2 hhi)]
  simp only [Bool.or_self, Bool.and_self, Bool.false_eq_true, if_false, if_true]
  rw [instOf_leaveFor]
  exact setAct_st

theorem actHeProfile_holdover (hs : (instOf s i).st = .holdover) (hl : instLocked s i = true) :
    (instOf (actHeProfile m i s).2 i).st = .operating := by
  unfold actHeProfile
  dsimp only
  rw [← profiled]
  rw [instOf_profiled, hs, instLocked_profiled, hl]
  simp only [if_true]
  rw [instOf_leaveFor, instOf_leaveFor]
  exact setAct_st

theorem heProfile_acts (ha : Admitted m s) (hty : msgType m = 1) (hc : msgTid m = 0xFFFF) :
    let y := instOf s (groupOwner s m.group)
    Does (.heProfile m) s fun t =>
      (instOf t (groupOwner s m.group)).heId = BitVec.ofNat 32 (field m.bytes 4 4) ∧
      (instOf t (groupOwner s m.group)).annBackoff = (byteAt m.bytes 12).toNat % 16 ∧
      (y.st = .listen → y.enabled = true → instLocked s (groupOwner s m.group) = true →
        field m.bytes 8 2 ≤ (revRange s).2 → (revRange s).1 ≤ field m.bytes 10 2 →
        (instOf t (groupOwner s m.group)).st = .announce) ∧
      (y.st = .holdover → instLocked s (groupOwner s m.group) = true →
        (instOf t (groupOwner s m.group)).st = .operating) := by
  obtain ⟨hr, hid, hback⟩ := actHeProfile_stores (m := m) (i := groupOwner s m.group) (s := s)
  have he := exec_acts (c := .heProfile m) rfl hty ha (by rw [if_pos hc]; exact .inl rfl)
    (.inl (by decide)) rfl hr
  obtain ⟨L, A, hi, -⟩ := msgDone_unanswered m (groupOwner s m.group) 0
    (actHeProfile m (groupOwner s m.group) s).2
  refine ⟨_, he, ?_, only_exec _ he⟩
  beta_reduce
  rw [hi]
  exact ⟨hid, hback, actHeProfile_listen, actHeProfile_holdover⟩

/-! ASSIGN_ID (Table 5-5). -/

/-- The instance with the message's TERMINAL_ID, RANGE_PLOT and revision, and no FM_SEQ heard. -/
def assigned (m : FieldMsg) (i : Nat) (s : State) : State :=
  modInst i (fun x => { x with
    terminalId := BitVec.ofNat 16 (field m.bytes 12 2)
    rangePlot := BitVec.ofNat 14 (field m.bytes 14 2 % 16384)
    opRev := BitVec.ofNat 16 (field m.bytes 16 2), lastSeq := none }) s

theorem actAssignId_assigns (hid : field m.bytes 12 2 ≠ 0xFFFF)
    (hlo : (revRange s).1 ≤ field m.bytes 16 2) (hhi : field m.bytes 16 2 ≤ (revRange s).2) :
    (actAssignId m i s).1 = some 0 ∧
    let y := instOf (actAssignId m i s).2 i
    y.st = .ranging ∧ y.lastSeq = none ∧ y.terminalId = BitVec.ofNat 16 (field m.bytes 12 2) ∧
      y.opRev = BitVec.ofNat 16 (field m.bytes 16 2) ∧
      y.rangePlot = BitVec.ofNat 14 (field m.bytes 14 2 % 16384) := by
  have hne : ¬ BitVec.ofNat 16 (field m.bytes 12 2) = 0xFFFF := fun e => hid (by
    have hlt := field_lt m.bytes 12 2
    have := congrArg BitVec.toNat e
    exact (Nat.mod_eq_of_lt hlt).symm.trans this)
  unfold actAssignId
  dsimp only
  rw [if_neg hne, if_neg (by omega)]
  refine ⟨rfl, ?_⟩
  rw [instOf_leaveFor, ← assigned]
  obtain ⟨-, td, sb, tb, he, -⟩ := setAct_inst (i := i) (dest := .ranging)
    (msg := some m.group.val) (s := if field m.bytes 14 2 % 16384 = 0x3FFF then assigned m i s
      else addPlot i (field m.bytes 14 2 % 16384) (assigned m i s))
  have hv : instOf (if field m.bytes 14 2 % 16384 = 0x3FFF then assigned m i s
      else addPlot i (field m.bytes 14 2 % 16384) (assigned m i s)) i =
        instOf (assigned m i s) i := by
    split
    · rfl
    · exact inst_of_act addPlot_inst i
  rw [he, hv, assigned, instOf_modInst, if_pos rfl]
  exact ⟨rfl, rfl, rfl, rfl, rfl⟩

theorem assignId_acts (ha : Admitted m s) (hty : msgType m = 2) (hc : msgTid m = 0xFFFF)
    (hser : serialMatches s m = true) (hst : (instOf s (groupOwner s m.group)).st = .announce)
    (hid : field m.bytes 12 2 ≠ 0xFFFF) (hlo : (revRange s).1 ≤ field m.bytes 16 2)
    (hhi : field m.bytes 16 2 ≤ (revRange s).2) : Does (.assignId m) s fun t =>
      (instOf t (groupOwner s m.group)).st = .ranging ∧
      (instOf t (groupOwner s m.group)).lastSeq = none ∧
      (instOf t (groupOwner s m.group)).terminalId = BitVec.ofNat 16 (field m.bytes 12 2) ∧
      (instOf t (groupOwner s m.group)).opRev = BitVec.ofNat 16 (field m.bytes 16 2) ∧
      (instOf t (groupOwner s m.group)).rangePlot =
        BitVec.ofNat 14 (field m.bytes 14 2 % 16384) := by
  obtain ⟨hr, hy⟩ := actAssignId_assigns (i := groupOwner s m.group) hid hlo hhi
  have he := exec_acts (c := .assignId m) rfl hty ha
    (by rw [if_pos hc]; exact .inr ⟨.inl rfl, hser⟩) (.inl (by decide)) (by rw [hst]; rfl) hr
  obtain ⟨L, A, hi, hL⟩ := msgDone_unanswered m (groupOwner s m.group) 0
    (actAssignId m (groupOwner s m.group) s).2
  refine ⟨_, he, ?_, only_exec _ he⟩
  beta_reduce
  rw [hi, hL hc]
  exact hy

/-! RANGING_TIME, ASSIGN_PLOT and ASSIGN_LOT (R141, R153). -/

/-- What a change of one lane leaves of that lane, it leaves of every lane. -/
theorem usLaneOf_modUsLane_keeps {α : Type} {v : UsLane → α} {l : Nat} {f : UsLane → UsLane}
    (h : ∀ y, v (f y) = v y) (x : Nat) : v (usLaneOf (modUsLane l f s) x) = v (usLaneOf s x) := by
  rw [usLaneOf_modUsLane]
  split
  · next hx => rw [h, hx]
  · rfl

/-- The EqD in force stands until the boundary of the new one's SC. -/
theorem actRangingTime_eqd (x : Nat) :
    (usLaneOf (actRangingTime m i s).2 x).eqd = (usLaneOf s x).eqd ∧
    (usLaneOf (actRangingTime m i s).2 x).eqdAssigned = (usLaneOf s x).eqdAssigned := by
  have hl {g : Nat} {sc : Option (BitVec 48)} {w : ActDue} {v : State} :
      usLaneOf (leaveFor i g sc w v) x = usLaneOf v x := usLaneOf_modInst
  have hm {l : Nat} {f : UsLane → UsLane}
      (hf : ∀ y, ((f y).eqd, (f y).eqdAssigned) = (y.eqd, y.eqdAssigned)) :=
    Prod.mk.inj (usLaneOf_modUsLane_keeps (s := s) (l := l)
      (v := fun y => (y.eqd, y.eqdAssigned)) hf x)
  unfold actRangingTime
  dsimp only
  split
  · exact ⟨rfl, rfl⟩
  · split
    · rw [hl]
      exact hm (fun _ => rfl)
    · exact hm (fun _ => rfl)

theorem rangingTime_acts (ha : Admitted m s) (hty : msgType m = 3) (hc : msgTid m ≠ 0xFFFF)
    (hst : (instOf s (groupOwner s m.group)).st = .ranging ∨
      (instOf s (groupOwner s m.group)).st = .operating)
    (hq : field m.bytes 8 4 ≤ 95200000)
    (hx : ltxOwner s ((byteAt m.bytes 4).toNat % 2) = groupOwner s m.group) :
    let i := groupOwner s m.group
    let x := (byteAt m.bytes 4).toNat % 2
    let eff := laterSc (BitVec.ofNat 48 (field m.bytes 16 6)) (m.sc + 1)
    Does (.rangingTime m) s fun t =>
      (∀ z, z = instOf t i → z.lastSeq = some (msgSeq m) ∧
        z.lastAck = some (BitVec.ofNat 8 (msgType m), msgSeq m, 0)) ∧
      (instOf t i).st = (instOf s i).st ∧
      ((usLaneOf t x).eqd = (usLaneOf s x).eqd ∧
        (usLaneOf t x).eqdAssigned = (usLaneOf s x).eqdAssigned) ∧
      (eff, field m.bytes 8 4) ∈ (usLaneOf t x).eqdPending ∧
      ((byteAt m.bytes 4).getLsbD 1 = true → (instOf s i).st = .ranging →
        ⟨m.group.val, some eff, .operating⟩ ∈ (instOf t i).todo) := by
  intro i x eff
  obtain ⟨u, hu, hust, hpend, htodo, -⟩ := rangingTime_act (m := m) hq hx
  have heqd := actRangingTime_eqd (m := m) (i := i) (s := s) x
  rw [hu] at heqd
  have he := exec_acts (c := .rangingTime m) rfl hty ha (by rw [if_neg hc]; exact .inl rfl)
    (.inl (by decide)) (by rcases hst with h | h <;> rw [h] <;> rfl) (congrArg Prod.fst hu)
  rw [hu] at he
  obtain ⟨Q, hi, -⟩ := msgDone_answered i 0 u hc
  refine ⟨_, he, ?_, only_exec _ he⟩
  beta_reduce
  rw [hi, usLaneOf_msgDone]
  exact ⟨fun z hz => by rw [hz]; exact ⟨rfl, rfl⟩, hust, heqd, hpend, htodo⟩

/-- A plot that is the instance's, or free with room, is given or taken, and no other. -/
theorem actAssignPlot_assigns (hp : field m.bytes 6 2 % 16384 ≠ 0x3FFF)
    (ho : tabGet 0 s.act.plots (field m.bytes 6 2 % 16384) = i + 1 ∨
      tabGet 0 s.act.plots (field m.bytes 6 2 % 16384) = 0 ∧ s.act.plots.length < 256) :
    (actAssignPlot m i s).1 = some 0 ∧
    (actAssignPlot m i s).2.act.inst = s.act.inst ∧
    ∀ k, tabGet 0 (actAssignPlot m i s).2.act.plots k = if k = field m.bytes 6 2 % 16384 then
      (if (byteAt m.bytes 4).getLsbD 0 then i + 1 else 0) else tabGet 0 s.act.plots k := by
  unfold actAssignPlot
  dsimp only
  rw [if_neg hp, if_neg (by omega)]
  cases hadd : (byteAt m.bytes 4).getLsbD 0 with
  | true =>
    rw [if_pos rfl, if_neg (by omega)]
    exact ⟨rfl, addPlot_inst, addPlot_plots ho⟩
  | false => exact ⟨rfl, rfl, fun k => tabGet_set 0 s.act.plots k _ 0⟩

theorem assignPlot_acts (ha : Admitted m s) (hty : msgType m = 4) (hc : msgTid m ≠ 0xFFFF)
    (hst : (instOf s (groupOwner s m.group)).st = .ranging ∨
      (instOf s (groupOwner s m.group)).st = .operating)
    (hp : field m.bytes 6 2 % 16384 ≠ 0x3FFF)
    (ho : tabGet 0 s.act.plots (field m.bytes 6 2 % 16384) = groupOwner s m.group + 1 ∨
      tabGet 0 s.act.plots (field m.bytes 6 2 % 16384) = 0 ∧ s.act.plots.length < 256) :
    let i := groupOwner s m.group
    Does (.assignPlot m) s fun t =>
      (∀ z, z = instOf t i → z.lastSeq = some (msgSeq m) ∧
        z.lastAck = some (BitVec.ofNat 8 (msgType m), msgSeq m, 0)) ∧
      (instOf t i).st = (instOf s i).st ∧
      ∀ p, tabGet 0 t.act.plots p = if p = field m.bytes 6 2 % 16384 then
        (if (byteAt m.bytes 4).getLsbD 0 then i + 1 else 0) else tabGet 0 s.act.plots p := by
  intro i
  obtain ⟨hr, hin, hpl⟩ := actAssignPlot_assigns hp ho
  have he := exec_acts (c := .assignPlot m) rfl hty ha (by rw [if_neg hc]; exact .inl rfl)
    (.inl (by decide)) (by rcases hst with h | h <;> rw [h] <;> rfl) hr
  obtain ⟨Q, hi, hplots, -⟩ := msgDone_answered i 0 (actAssignPlot m i s).2 hc
  refine ⟨_, he, ?_, only_exec _ he⟩
  beta_reduce
  rw [hi, hplots, inst_of_act hin]
  exact ⟨fun z hz => by rw [hz]; exact ⟨rfl, rfl⟩, rfl, hpl⟩

/-- A valid entry that is the instance's, or new with room, is written, and no other. -/
theorem actAssignLot_assigns (hid : field m.bytes 6 2 ≠ 0xFFFF)
    (hadd : (byteAt m.bytes 4).getLsbD 0 = true) (hlab : byteAt m.bytes 8 ≠ 0)
    (hres : labelReserved (byteAt m.bytes 8).toNat = false)
    (ho : (lotOf s (field m.bytes 6 2)).present = true ∧
      (lotOf s (field m.bytes 6 2)).owner = i ∨
      (lotOf s (field m.bytes 6 2)).present = false ∧ s.lots.length < 4096) :
    (actAssignLot m i s).1 = some 0 ∧
    ∀ k, lotOf (actAssignLot m i s).2 k = if k = field m.bytes 6 2 then
      { present := true, expLabel := byteAt m.bytes 8, reqKey := (byteAt m.bytes 4).getLsbD 1,
        groupMask := ownMask s i (byteAt m.bytes 9).toNat,
        cls := BitVec.ofNat 8 ((byteAt m.bytes 10).toNat % 8), owner := i }
      else lotOf s k := by
  have hvalid : ¬ (field m.bytes 6 2 = 0xFFFF ∨ ((byteAt m.bytes 4).getLsbD 0 = true ∧
      (byteAt m.bytes 8 = 0 ∨ labelReserved (byteAt m.bytes 8).toNat = true))) := by
    rintro (h | ⟨-, h | h⟩)
    · exact hid h
    · exact hlab h
    · exact Bool.false_ne_true (hres.symm.trans h)
  have hown : ¬ ((lotOf s (field m.bytes 6 2)).present = true ∧
      (lotOf s (field m.bytes 6 2)).owner ≠ i) := by
    rintro ⟨hp, hn⟩
    rcases ho with ⟨-, h⟩ | ⟨h, -⟩
    · exact hn h
    · exact Bool.false_ne_true (h.symm.trans hp)
  have hroom : ¬ ((!(lotOf s (field m.bytes 6 2)).present) = true ∧ 4096 ≤ s.lots.length) := by
    rintro ⟨hp, hn⟩
    rcases ho with ⟨h, -⟩ | ⟨-, h⟩
    · rw [h] at hp
      exact Bool.false_ne_true hp
    · omega
  unfold actAssignLot
  dsimp only
  rw [if_neg hvalid, if_neg hown, if_neg (by simp [hadd]), if_neg hroom]
  refine ⟨rfl, fun k => ?_⟩
  have hs (v : State) : (supLook v).lots = v.lots :=
    only_supLook (List.Subset.refl _) (Only.refl v) .lots (by decide)
  rw [lotOf, hs]
  dsimp only
  rw [tabGet_set]
  rfl

theorem assignLot_acts (ha : Admitted m s) (hty : msgType m = 5) (hc : msgTid m ≠ 0xFFFF)
    (hst : (instOf s (groupOwner s m.group)).st = .ranging ∨
      (instOf s (groupOwner s m.group)).st = .operating)
    (hid : field m.bytes 6 2 ≠ 0xFFFF)
    (hadd : (byteAt m.bytes 4).getLsbD 0 = true) (hlab : byteAt m.bytes 8 ≠ 0)
    (hres : labelReserved (byteAt m.bytes 8).toNat = false)
    (ho : (lotOf s (field m.bytes 6 2)).present = true ∧
        (lotOf s (field m.bytes 6 2)).owner = groupOwner s m.group ∨
      (lotOf s (field m.bytes 6 2)).present = false ∧ s.lots.length < 4096) :
    let i := groupOwner s m.group
    Does (.assignLot m) s fun t =>
      (∀ z, z = instOf t i → z.lastSeq = some (msgSeq m) ∧
        z.lastAck = some (BitVec.ofNat 8 (msgType m), msgSeq m, 0)) ∧
      ∀ k, lotOf t k = if k = field m.bytes 6 2 then
        { present := true, expLabel := byteAt m.bytes 8, reqKey := (byteAt m.bytes 4).getLsbD 1,
          groupMask := ownMask s i (byteAt m.bytes 9).toNat,
          cls := BitVec.ofNat 8 ((byteAt m.bytes 10).toNat % 8), owner := i }
        else lotOf s k := by
  intro i
  obtain ⟨hr, hlots⟩ := actAssignLot_assigns hid hadd hlab hres ho
  have he := exec_acts (c := .assignLot m) rfl hty ha (by rw [if_neg hc]; exact .inl rfl)
    (.inl (by decide)) (by rcases hst with h | h <;> rw [h] <;> rfl) hr
  obtain ⟨Q, hi, -⟩ := msgDone_answered i 0 (actAssignLot m i s).2 hc
  refine ⟨_, he, ⟨fun z hz => ?_, fun k => lotOf_msgDone.trans (hlots k)⟩, only_exec _ he⟩
  rw [hz, hi]
  exact ⟨rfl, rfl⟩

/-! DEACTIVATE, SILENCE and RELEASE (Table 5-5). -/

/-- An instance cleared to LISTEN has no TERMINAL_ID and no message queued. -/
theorem toListen_cleared {msg : Option Nat} : (instOf (toListen i msg s) i).st = .listen ∧
    (instOf (toListen i msg s) i).terminalId = 0xFFFF ∧
    (instOf (toListen i msg s) i).txQueue = [] ∧
    (instOf (toListen i msg s) i).durRunning = (instOf s i).durRunning := by
  unfold toListen
  obtain ⟨-, td, sb, tb, he, -⟩ :=
    setAct_inst (i := i) (dest := .listen) (msg := msg) (s := actClear i msg s)
  obtain ⟨htid, htx, hdur, -⟩ := actClear_inst (i := i) (msg := msg) (s := s)
  rw [he]
  exact ⟨rfl, htid, htx, hdur⟩

theorem deactivate_acts (ha : Admitted m s) (hty : msgType m = 6) (hc : msgTid m ≠ 0xFFFF)
    (hst : (instOf s (groupOwner s m.group)).st = .ranging ∨
      (instOf s (groupOwner s m.group)).st = .operating ∨
      (instOf s (groupOwner s m.group)).st = .holdover ∨
      (instOf s (groupOwner s m.group)).st = .silenced) :
    let i := groupOwner s m.group
    Does (.deactivate m) s fun t =>
      (instOf t i).st = .listen ∧ (instOf t i).terminalId = 0xFFFF ∧
      (instOf t i).txQueue = [] ∧ (instOf t i).durRunning = false := by
  intro i
  have he := exec_acts (c := .deactivate m) (r := 0) rfl hty ha
    (by rw [if_neg hc]; exact .inl rfl) (.inl (by decide))
    (by rcases hst with h | h | h | h <;> rw [h] <;> rfl) rfl
  obtain ⟨L, A, hi, -⟩ := msgDone_unanswered m i 0
    (toListen i (some m.group.val) (modInst i (fun x => { x with durRunning := false }) s))
  obtain ⟨h1, h2, h3, h4⟩ := toListen_cleared (i := i) (msg := some m.group.val)
    (s := modInst i (fun x => { x with durRunning := false }) s)
  refine ⟨_, he, ?_, only_exec _ he⟩
  beta_reduce
  rw [hi]
  dsimp only
  exact ⟨h1, h2, h3, h4.trans (by rw [instOf_modInst, if_pos rfl])⟩

/-- SILENCE outside SILENCED and TUNING: the state before is kept, and the DURATION starts at the
boundary. -/
theorem actSilence_silences (hst : (instOf s i).st = .announce ∨ (instOf s i).st = .ranging ∨
    (instOf s i).st = .operating) :
    (actSilence m i s).1 = some 0 ∧
    let y := instOf (actSilence m i s).2 i
    y.st = .silenced ∧ y.prior = (instOf s i).st ∧
      ⟨m.group.val, none, .duration (BitVec.ofNat 16 (field m.bytes 12 2))⟩ ∈ y.todo := by
  obtain ⟨-, td, sb, tb, he, -⟩ := setAct_inst (i := i) (dest := .silenced)
    (msg := some m.group.val) (s := modInst i (fun x => { x with prior := (instOf s i).st }) s)
  rw [instOf_modInst, if_pos rfl] at he
  unfold actSilence
  dsimp only
  rcases hst with h | h | h
  all_goals
    rw [h] at he ⊢
    refine ⟨rfl, ?_⟩
    dsimp only
    rw [instOf_raise, instOf_leaveFor, he]
    exact ⟨rfl, rfl, List.mem_append_right _ (List.mem_singleton.2 rfl)⟩

/-- A message that may go to all with this serial number, or to this TERMINAL_ID alone. -/
theorem addressed_either (hser : msgTid m = 0xFFFF → serialMatches s m = true) :
    if msgTid m = 0xFFFF
      then Addressing.either = .broadcast ∨
        (Addressing.either = .serial ∨ Addressing.either = .either) ∧ serialMatches s m = true
      else Addressing.either = .addressed ∨ Addressing.either = .either := by
  split
  · next h => exact .inr ⟨.inr rfl, hser h⟩
  · exact .inr rfl

theorem silence_acts (ha : Admitted m s) (hty : msgType m = 7)
    (hser : msgTid m = 0xFFFF → serialMatches s m = true)
    (hst : (instOf s (groupOwner s m.group)).st = .announce ∨
      (instOf s (groupOwner s m.group)).st = .ranging ∨
      (instOf s (groupOwner s m.group)).st = .operating) :
    let i := groupOwner s m.group
    Does (.silence m) s fun t =>
      (instOf t i).st = .silenced ∧ (instOf t i).prior = (instOf s i).st ∧
      ⟨m.group.val, none, .duration (BitVec.ofNat 16 (field m.bytes 12 2))⟩ ∈
        (instOf t i).todo := by
  intro i
  obtain ⟨hr, hy⟩ := actSilence_silences (m := m) hst
  have he := exec_acts (c := .silence m) rfl hty ha (addressed_either hser) (.inl (by decide))
    (by rcases hst with h | h | h <;> rw [h] <;> rfl) hr
  obtain ⟨L, A, hi, -⟩ := msgDone_unanswered m i 0 (actSilence m i s).2
  refine ⟨_, he, ?_, only_exec _ he⟩
  beta_reduce
  rw [hi]
  exact hy

theorem release_acts (ha : Admitted m s) (hty : msgType m = 8)
    (hser : msgTid m = 0xFFFF → serialMatches s m = true)
    (hst : (instOf s (groupOwner s m.group)).st = .silenced) :
    let i := groupOwner s m.group
    Does (.release m) s fun t =>
      ((instOf s i).prior ≠ .operating → (instOf t i).st = .listen) ∧
      ((instOf s i).prior = .operating → instLocked s i = true →
        (instOf t i).st = .operating) := by
  intro i
  have he := exec_acts (c := .release m) (r := 0) rfl hty ha (addressed_either hser)
    (.inl (by decide)) (by rw [hst]; rfl) rfl
  obtain ⟨L, A, hi, -⟩ := msgDone_unanswered m i 0 (endSilence i (some m.group.val) s)
  refine ⟨_, he, ?_, only_exec _ he⟩
  beta_reduce
  rw [hi]
  exact endSilence_inst

/-! TUNE and SWITCH_PARENT (R154-R158). -/

theorem actTune_tunes {o : Optics} (hx : ltxOwner s ((byteAt m.bytes 4).toNat % 2) = i)
    (ht : o.tunable = true) (hg : ∃ g ∈ o.grids, g.1 = byteAt m.bytes 5 ∧
      g.2.1 ≤ (BitVec.ofNat 16 (field m.bytes 6 2)).toInt ∧
      (BitVec.ofNat 16 (field m.bytes 6 2)).toInt ≤ g.2.2) :
    (actTune m o i s).1 = some 0 ∧
    let y := instOf (actTune m o i s).2 i
    y.st = .tuning ∧ y.tuneLane = (byteAt m.bytes 4).toNat % 2 ∧
      ⟨m.group.val, none, .tune ((byteAt m.bytes 4).toNat % 2) (byteAt m.bytes 5)
        (BitVec.ofNat 16 (field m.bytes 6 2))⟩ ∈ y.todo := by
  obtain ⟨g, hmem, hg1, hg2, hg3⟩ := hg
  have hfits : o.grids.any (fun g => g.1 == byteAt m.bytes 5 &&
      decide (g.2.1 ≤ (BitVec.ofNat 16 (field m.bytes 6 2)).toInt) &&
      decide ((BitVec.ofNat 16 (field m.bytes 6 2)).toInt ≤ g.2.2)) = true :=
    List.any_eq_true.2 ⟨g, hmem, by simp [hg1, hg2, hg3]⟩
  have hne : o.grids.isEmpty = false := by
    rw [List.isEmpty_eq_false_iff]
    exact List.ne_nil_of_mem hmem
  unfold actTune
  dsimp only
  rw [decide_eq_true hx, ht, hne, hfits]
  refine ⟨rfl, ?_⟩
  simp only [Bool.not_false, Bool.and_self, if_true]
  rw [instOf_leaveFor, instOf_leaveFor]
  obtain ⟨-, td, sb, tb, he, -⟩ := setAct_inst (i := i) (dest := .tuning)
    (msg := some m.group.val) (s := modInst i (fun y => { y with
        tuneLane := (byteAt m.bytes 4).toNat % 2 })
      (modUsLane ((byteAt m.bytes 4).toNat % 2)
        (fun l => { l with tunable := true, freq := o.freq }) s))
  rw [he, instOf_modInst, if_pos rfl]
  exact ⟨rfl, rfl, List.mem_append_right _ (List.mem_singleton.2 rfl)⟩

theorem tune_acts {o : Optics} (ha : Admitted m s) (hty : msgType m = 9) (hc : msgTid m ≠ 0xFFFF)
    (hst : (instOf s (groupOwner s m.group)).st = .operating)
    (hrev : (instOf s (groupOwner s m.group)).opRev ≠ 0x0100)
    (hx : ltxOwner s ((byteAt m.bytes 4).toNat % 2) = groupOwner s m.group)
    (ht : o.tunable = true) (hg : ∃ g ∈ o.grids, g.1 = byteAt m.bytes 5 ∧
      g.2.1 ≤ (BitVec.ofNat 16 (field m.bytes 6 2)).toInt ∧
      (BitVec.ofNat 16 (field m.bytes 6 2)).toInt ≤ g.2.2) :
    let i := groupOwner s m.group
    Does (.tune m o) s fun t =>
      (instOf t i).st = .tuning ∧ (instOf t i).tuneLane = (byteAt m.bytes 4).toNat % 2 ∧
      ⟨m.group.val, none, .tune ((byteAt m.bytes 4).toNat % 2) (byteAt m.bytes 5)
        (BitVec.ofNat 16 (field m.bytes 6 2))⟩ ∈ (instOf t i).todo := by
  intro i
  obtain ⟨hr, hy⟩ := actTune_tunes hx ht hg
  have he := exec_acts (c := .tune m o) rfl hty ha (by rw [if_neg hc]; exact .inl rfl)
    (.inr hrev) (by rw [hst]; rfl) hr
  obtain ⟨L, A, hi, -⟩ := msgDone_unanswered m i 0 (actTune m o i s).2
  refine ⟨_, he, ?_, only_exec _ he⟩
  beta_reduce
  rw [hi]
  exact hy

theorem switchParent_acts (ha : Admitted m s) (hty : msgType m = 10) (hc : msgTid m ≠ 0xFFFF)
    (hst : (instOf s (groupOwner s m.group)).st = .operating)
    (hrev : (instOf s (groupOwner s m.group)).opRev ≠ 0x0100) (hd : s.act.dual = true)
    (hw : (byteAt m.bytes 4).toNat % 2 ≠ s.act.working)
    (hop : (instOf s ((byteAt m.bytes 4).toNat % 2)).st = .operating) :
    let i := groupOwner s m.group
    Does (.switchParent m) s fun t =>
      (∀ z, z = instOf t i → z.lastSeq = some (msgSeq m) ∧
        z.lastAck = some (BitVec.ofNat 8 (msgType m), msgSeq m, 0)) ∧
      t.act.pendingSwitch = some ((byteAt m.bytes 4).toNat % 2) ∧
      t.act.working = s.act.working ∧ (instOf t i).st = (instOf s i).st := by
  intro i
  have hreq : requestSwitch ((byteAt m.bytes 4).toNat % 2) false s =
      (true, { s with act := { s.act with
        pendingSwitch := some ((byteAt m.bytes 4).toNat % 2) } }) := by
    unfold requestSwitch
    rw [if_neg hw, if_neg (by simp [hop])]
  have he := exec_acts (c := .switchParent m) (r := 0) rfl hty ha
    (by rw [if_neg hc]; exact .inl rfl) (.inr hrev) (by rw [hst, hd]; rfl) (by rw [hreq]; rfl)
  rw [hreq] at he
  obtain ⟨Q, hi, -, hwork, hpend⟩ := msgDone_answered i 0 ({ s with act := { s.act with
    pendingSwitch := some ((byteAt m.bytes 4).toNat % 2) } }) hc
  refine ⟨_, he, ?_, only_exec _ he⟩
  exact ⟨fun z hz => by rw [hz, hi]; exact ⟨rfl, rfl⟩, hpend, hwork, by rw [hi]; rfl⟩

/-- Settles O23, message by message. -/
theorem admittedMessagesAct : Obligations.AdmittedMessagesAct := by
  intro m o s ha
  exact ⟨heProfile_acts ha, assignId_acts ha, rangingTime_acts ha, assignPlot_acts ha,
    assignLot_acts ha, deactivate_acts ha, silence_acts ha, release_acts ha, tune_acts ha,
    switchParent_acts ha⟩

end Sys2Proof.Machine

/-! What leaves the upstream lanes as they are: the queues, the ports and the pair, which a burst's
account looks at (R235, R503, R506). -/

namespace Sys2Proof.Machine
variable {s t : State}

/-- What every step of a walk over a list leaves, the walk leaves. -/
theorem each_keeps {α β : Type} {f : α → State → State} {v : State → β}
    (h : ∀ a u, v (f a u) = v u) (l : List α) (s : State) : v (each f l s) = v s := by
  induction l generalizing s with
  | nil => rfl
  | cons a l ih => exact (ih _).trans (h a s)

theorem freeBushels_us {n : Nat} : (freeBushels n s).us = s.us :=
  only_freeBushels (List.Subset.refl _) (Only.refl s) .us (by decide)

theorem modQueue_us {ds : Bool} {q : Nat} {f : Queue → Queue} :
    (modQueue ds q f s).us = s.us := by
  cases ds <;> rfl

theorem dropHead_us {ds : Bool} {q : Nat} : (dropHead ds q s).us = s.us := by
  unfold dropHead
  split
  · rfl
  · rw [freeBushels_us, modQueue_us]

theorem standbyFlush_us {ds : Bool} {q : Nat} : (standbyFlush ds q s).us = s.us := by
  unfold standbyFlush
  simp only [bump_rest, each_keeps (v := State.us) fun _ _ => dropHead_us]

theorem linkFlush_us {p q : Nat} : (linkFlush p q s).us = s.us := by
  unfold linkFlush
  dsimp only
  rw [each_keeps (v := State.us) fun _ _ => dropHead_us]
  simp only [bump_rest]

theorem portFlushLook_us {p : Nat} : (portFlushLook p s).us = s.us := by
  unfold portFlushLook
  split
  · exact each_keeps (v := State.us) (fun _ _ => linkFlush_us) _ s
  · rfl

theorem setLink_us {p : Nat} {dest : LinkState} : (setLink p dest s).us = s.us := by
  unfold setLink
  dsimp only
  split
  · rfl
  · split
    · simp only [raise_rest, bump_rest, modPort_rest]
    · rw [portFlushLook_us]
      split
      · split <;> simp only [raise_rest, bump_rest, modPort_rest]
      · simp only [modPort_rest]

theorem portLook_us {p : Nat} : (portLook p s).us = s.us := by
  unfold portLook
  split
  · split
    · rw [setLink_us]; simp only [modPort_rest]
    · rfl
  · split
    · rfl
    · rw [setLink_us]; simp only [modPort_rest]

theorem setPair_us {dest : PairState} : (setPair dest s).us = s.us := by
  have hp (u : State) : (portsLook u).us = u.us :=
    each_keeps (v := State.us) (fun _ _ => portLook_us) _ u
  unfold setPair
  dsimp only
  split
  · rfl
  · rw [hp]
    split <;> simp only [raise_rest, modPair_rest]

theorem leaveActive_us {dest : PairState} : (leaveActive dest s).us = s.us := by
  unfold leaveActive
  dsimp only
  rw [setPair_us, each_keeps (v := State.us) fun _ _ => standbyFlush_us,
    each_keeps (v := State.us) fun _ _ => standbyFlush_us]
  rfl

theorem yieldLook_us : (yieldLook s).us = s.us := by
  have hn (y : Yield) : (yieldNow y s).us = s.us := by
    unfold yieldNow
    dsimp only
    split
    · rw [setPair_us]; simp only [bump_rest, leaveActive_us, modPair_rest]
    · simp only [bump_rest, leaveActive_us, modPair_rest]
  unfold yieldLook
  split
  · rfl
  · split
    · rfl
    · exact hn _

theorem drainLook_us : (drainLook s).us = s.us :=
  only_drainLook (List.Subset.refl _) (Only.refl s) .us (by decide)

end Sys2Proof.Machine

/-! What numbering and accounting change in an upstream lane: the lots of its bursts alone (R118,
R119). -/

namespace Sys2Proof.Machine
variable {s t : State}

/-- A burst but for its lots. -/
def bareBurst (b : Burst) : Burst := { b with lots := [] }

/-- An upstream lane but for the lots of its bursts. -/
def bareLane (l : UsLane) : UsLane := { l with bursts := l.bursts.map bareBurst }

/-- The upstream lanes but for the lots of their bursts. -/
def bareLanes (s : State) : Nat → UsLane := fun x => bareLane (usLaneOf s x)

theorem bareLanes_of_lane (h : t.us.lane = s.us.lane) : bareLanes t = bareLanes s := by
  unfold bareLanes usLaneOf
  rw [h]

theorem bareLanes_of_us (h : t.us = s.us) : bareLanes t = bareLanes s :=
  bareLanes_of_lane (congrArg UpS.lane h)

theorem bareLanes_modUsLane {x : Nat} {f : UsLane → UsLane}
    (hf : ∀ l, bareLane (f l) = bareLane l) :
    bareLanes (modUsLane x f s) = bareLanes s := by
  funext k
  unfold bareLanes
  rw [usLaneOf_modUsLane]
  split
  · next h => rw [hf, h]
  · rfl

/-- A change of the lots of some bursts. -/
theorem bareLane_bursts {l : UsLane} {bs : List Burst}
    (h : bs.map bareBurst = l.bursts.map bareBurst) :
    bareLane { l with bursts := bs } = bareLane l := by
  simp only [bareLane, h]

theorem map_bareBurst {f : Burst → Burst} (hf : ∀ b, bareBurst (f b) = bareBurst b)
    (bs : List Burst) : (bs.map f).map bareBurst = bs.map bareBurst := by
  rw [List.map_map]
  exact List.map_congr_left fun b _ => hf b

theorem map_modify {α β : Type} {f : α → α} {g : α → β} (h : ∀ a, g (f a) = g a)
    (l : List α) (i : Nat) : (l.modify i f).map g = l.map g := by
  induction l generalizing i with
  | nil => rw [List.modify_nil]
  | cons a l ih =>
    cases i with
    | zero => rw [List.modify_zero_cons, List.map_cons, List.map_cons, h]
    | succ i => rw [List.modify_succ_cons, List.map_cons, List.map_cons, ih]

theorem bareLanes_modTxLot {x i j : Nat} {f : TxLot → TxLot} :
    bareLanes (modTxLot x i j f s) = bareLanes s := by
  refine bareLanes_modUsLane fun l => bareLane_bursts (map_modify (fun b => ?_) l.bursts i)
  rfl

theorem bareLanes_numberGroup {key : Nat} {xs : List Nat} {lim : BitVec 64} :
    bareLanes (numberGroup key xs lim s) = bareLanes s := by
  have htake (u : State) : bareLanes (takeBseq key u).2 = bareLanes u := by
    unfold takeBseq
    split <;> rfl
  unfold numberGroup
  refine (bareLanes_of_lane (s := each _ _ s) rfl).trans (each_keeps (fun w u => ?_) _ s)
  dsimp only
  split
  · rw [bareLanes_modTxLot, htake]
  · exact htake u

theorem bareLanes_numberUpTo {lim : BitVec 64} : bareLanes (numberUpTo lim s) = bareLanes s := by
  unfold numberUpTo
  split
  · rw [bareLanes_numberGroup, bareLanes_numberGroup]
  · exact bareLanes_numberGroup

theorem bareLanes_loseFrame {q : Nat} : bareLanes (loseFrame q s) = bareLanes s := by
  unfold loseFrame
  dsimp only
  split
  · refine each_keeps (fun _ u => bareLanes_modUsLane fun l => ?_) _ s
    refine bareLane_bursts (map_bareBurst (fun b => ?_) l.bursts)
    rfl
  · split
    · split
      · exact bareLanes_of_us freeBushels_us
      · rfl
    · rfl

theorem bareLanes_lotDone {sent : Bool} {l : TxLot} :
    bareLanes (lotDone sent l s) = bareLanes s := by
  have hf (n : Nat) (us : Tab Queue) : bareLanes { freeBushels n s with
      qos := { (freeBushels n s).qos with us := us } } = bareLanes s :=
    bareLanes_of_us freeBushels_us
  unfold lotDone
  dsimp only
  split
  · exact bareLanes_of_us freeBushels_us
  · split
    · split
      · exact bareLanes_of_us (by simp only [bump_rest, freeBushels_us])
      · exact hf ..
    · split
      · exact bareLanes_loseFrame.trans (hf ..)
      · exact hf ..

/-- Accounting for a burst that has left its lane. -/
theorem bareLanes_burstAccount {x g : Nat} {b : Burst} :
    bareLanes (burstAccount x b g s) = bareLanes s := by
  unfold burstAccount
  dsimp only
  rw [bareLanes_of_us yieldLook_us, bareLanes_of_us drainLook_us,
    each_keeps fun _ _ => bareLanes_loseFrame, each_keeps fun _ _ => bareLanes_lotDone]
  exact bareLanes_of_lane (by simp only [bump_rest])

end Sys2Proof.Machine

/-! Bursts laid out at the header sample point (R105-R115, R148-R151). -/

namespace Sys2Proof.Machine
variable {x : Nat} {f : Furrow} {s : State}

/-- The burst that is put in a lane's list stands there, numbered where it can be. -/
theorem addBurst_lays (b : Burst) :
    ∃ c ∈ (usLaneOf (addBurst x b s) x).bursts, bareBurst c = bareBurst b := by
  have hl : (usLaneOf (addBurst x b s) x).bursts.map bareBurst =
      ((usLaneOf s x).bursts ++ [b]).map bareBurst := by
    have h := congrArg UsLane.bursts (congrFun (bareLanes_numberUpTo
      (lim := if s.us.split then burstStart b + BitVec.ofNat 64 b.len else b.furrow.s)
      (s := modUsLane x (fun l => { l with bursts := l.bursts ++ [b] }) s)) x)
    refine h.trans ?_
    unfold bareLanes bareLane
    rw [usLaneOf_modUsLane, if_pos rfl]
  have hb : bareBurst b ∈ (usLaneOf (addBurst x b s) x).bursts.map bareBurst := by
    rw [hl]
    exact List.mem_map_of_mem (List.mem_append_right _ (List.mem_singleton.2 rfl))
  exact List.mem_map.1 hb

/-- What a burst is laid out with, but for its header, message and lots. -/
theorem bareBurst_fields {b c : Burst} (h : bareBurst c = bareBurst b) :
    c.furrow = b.furrow ∧ c.sending = b.sending ∧ (c.len, c.k, c.j) = (b.len, b.k, b.j) ∧
    c.announce = b.announce ∧ c.ranging = b.ranging ∧ c.delay = b.delay ∧
    c.statusOnly = b.statusOnly := by
  simp only [bareBurst, Burst.mk.injEq] at h
  obtain ⟨h1, -, -, -, -, -, h2, h3, h4, h5, h6, h7, h8, -, h9⟩ := h
  exact ⟨h1, h9, by rw [h2, h4, h5], h7, h8, h3, h6⟩

/-- A burst of the furrow's shape, not yet sending. -/
def LaidOut (x : Nat) (f : Furrow) (t : State) (b : Burst) : Prop :=
  b ∈ (usLaneOf t x).bursts ∧ b.furrow = f ∧ b.sending = false ∧
    (b.len, b.k, b.j) = burstShape f.pre f.dur f.so

theorem windowBurst_lays (announce : Bool) (delay : Nat) (type : BitVec 8) (body : Bytes) :
    ∃ b, LaidOut x f (windowBurst x f announce delay type body s) b ∧
      b.announce = announce ∧ b.ranging = !announce ∧ b.delay = delay := by
  unfold windowBurst
  dsimp only
  split
  all_goals
    obtain ⟨c, hmem, hbare⟩ := addBurst_lays (x := x) (s := _) _
    obtain ⟨h1, h2, h3, h4, h5, h6, -⟩ := bareBurst_fields hbare
    exact ⟨c, ⟨hmem, h1, h2, h3⟩, h4, h5, h6⟩

/-- Laying out a window's burst leaves the count of windows to let pass. -/
theorem windowBurst_backoff {announce : Bool} {delay : Nat} {type : BitVec 8} {body : Bytes}
    (k : Nat) : (instOf (windowBurst x f announce delay type body s) k).backoff =
      (instOf s k).backoff := by
  have hadd (b : Burst) (u : State) : instOf (addBurst x b u) k = instOf u k :=
    inst_of_act (congrArg Act.inst
      (only_addBurst (List.Subset.refl _) (Only.refl u) .act (by decide))) k
  have hop (o : CryOp) (u : State) : instOf (issueOp o u).2 k = instOf u k :=
    inst_of_act (congrArg Act.inst
      (only_issueOp (List.Subset.refl _) (Only.refl u) .act (by decide))) k
  have hmsg : (instOf (upMessage x f type body s).2 k).backoff = (instOf s k).backoff := by
    have hseq {i : Nat} :
        (instOf (modInst i (fun y => { y with txSeq := y.txSeq + 1 }) s) k).backoff =
        (instOf s k).backoff := by
      rw [instOf_modInst]
      split
      · next h => rw [h]
      · rfl
    unfold upMessage
    dsimp only
    split
    · exact hseq
    · rw [hop, hseq]
  unfold windowBurst
  dsimp only
  split
  · rw [hadd, hmsg]
  · rw [hadd]

/-- RAND_DELAY: a multiple of 64 grains that leaves the burst inside its window (R151). -/
theorem randDelay_le (d room : Nat) : 64 * (d % (room / 64 + 1)) ≤ room := by
  have h : d % (room / 64 + 1) < room / 64 + 1 := Nat.mod_lt d (Nat.succ_pos _)
  omega

theorem announceSample_lays (hu : windowUsable f = true)
    (hs : (instOf s (ltxOwner s x)).stBurst = .announce)
    (ho : (instOf s (ltxOwner s x)).annOpen = true)
    (hb : (instOf s (ltxOwner s x)).backoff = 0) :
    (instOf (announceSample x f s) (ltxOwner s x)).backoff ≤
      (instOf s (ltxOwner s x)).annBackoff ∧
    ∃ b, LaidOut x f (announceSample x f s) b ∧ b.announce = true ∧ b.delay % 64 = 0 ∧
      b.delay ≤ f.dur - (burstShape f.pre f.dur f.so).1 := by
  unfold announceSample
  dsimp only
  rw [hu, hs, ho, hb, if_neg (by decide), if_neg (not_not.2 rfl), if_neg (by decide),
    if_neg (Nat.lt_irrefl 0)]
  refine ⟨?_, ?_⟩
  · rw [windowBurst_backoff, instOf_modInst, if_pos rfl]
    exact Nat.le_of_lt_succ (Nat.mod_lt _ (Nat.succ_pos _))
  · obtain ⟨b, hlaid, hann, -, hdelay⟩ := windowBurst_lays (x := x) (f := f) (s := _) true _ _ _
    refine ⟨b, hlaid, hann, ?_, ?_⟩
    · rw [hdelay]
      exact Nat.mul_mod_right ..
    · rw [hdelay]
      exact randDelay_le ..

theorem rangingSample_lays (hu : windowUsable f = true)
    (hs : (instOf s (ltxOwner s x)).stBurst = .ranging ∨
      (instOf s (ltxOwner s x)).stBurst = .operating) :
    ∃ b, LaidOut x f (rangingSample x f s) b ∧ b.ranging = true ∧ b.delay = 0 := by
  have hst : ¬ ((instOf s (ltxOwner s x)).stBurst ≠ .ranging ∧
      (instOf s (ltxOwner s x)).stBurst ≠ .operating) := fun h => hs.elim h.1 h.2
  unfold rangingSample
  dsimp only
  rw [hu, if_neg (by decide), if_neg hst]
  obtain ⟨b, hlaid, -, hrng, hdelay⟩ := windowBurst_lays (x := x) (f := f) (s := s) false 0 0x21
    (lineSerial s ++ natBytes 4 f.eqd ++ natBytes 6 f.sc.toNat)
  exact ⟨b, hlaid, hrng, hdelay⟩

theorem dataSample_lays : ∃ b, LaidOut x f (dataSample x f s) b ∧ b.announce = false ∧
    b.ranging = false ∧ b.delay = 0 ∧ b.statusOnly = (decide (f.dur = 0) || f.so) := by
  unfold dataSample
  dsimp only
  obtain ⟨c, hmem, hbare⟩ := addBurst_lays (x := x) (s := _) _
  obtain ⟨h1, h2, h3, h4, h5, h6, h7⟩ := bareBurst_fields hbare
  exact ⟨c, ⟨hmem, h1, h2, h3⟩, h4, h5, h6, h7⟩

/-- A furrow of DURATION 0 carries the header of its moment and 24 idle bytes (R105). -/
theorem dataSample_status (hd : f.dur = 0) : dataSample x f s = addBurst x
    { furrow := f, hdr := burstHeader s x f (resyncDue s x) false false true, msg := none,
      lots := idleFill 24 24, len := preGrains f.pre + 704, k := 0, j := 1, statusOnly := true,
      resync := resyncDue s x } s := by
  have hshape : burstShape f.pre f.dur f.so = (preGrains f.pre + 704, 0, 1) := if_pos (.inl hd)
  unfold dataSample
  rw [hshape]
  dsimp only
  rw [decide_eq_true hd]
  simp only [Bool.true_or, Bool.not_true, Bool.and_false, Bool.false_and, Bool.false_eq_true,
    if_false, if_true]
  split <;> rfl

end Sys2Proof.Machine

/-! HEADER_SAMPLE_POINT (R109, R149-R151). -/

namespace Sys2Proof.Machine
variable {x : Fin 2} {f : Furrow} {s : State}

theorem exec_headerSamplePoint_none
    (h : (usLaneOf s x).furrows.find? (fun f => f.stage == 0) = none) :
    exec (.headerSamplePoint x) s = .next s := by
  show execHeaderSamplePoint x s = _
  rw [execHeaderSamplePoint, h]

theorem scInst_ltxOwner_lt (s : State) (x : Fin 2) : scInst (ltxOwner s x) < 67108864 := by
  unfold ltxOwner
  split
  · revert x; decide
  · decide

section Sampled
variable (hf : (usLaneOf s x).furrows.find? (fun f => f.stage == 0) = some f)
include hf

theorem exec_headerSamplePoint_announce (ha : isAnnounce f = true) :
    exec (.headerSamplePoint x) s = .next (announceSample x f (setStage x f 1 s)) := by
  show execHeaderSamplePoint x s = _
  rw [execHeaderSamplePoint, hf]
  exact if_pos ha

theorem exec_headerSamplePoint_ranging (ha : isAnnounce f = false) (hr : isRanging s x f = true) :
    exec (.headerSamplePoint x) s = .next (rangingSample x f (setStage x f 1 s)) := by
  show execHeaderSamplePoint x s = _
  rw [execHeaderSamplePoint, hf]
  exact (if_neg (Bool.eq_false_iff.1 ha)).trans (if_pos hr)

theorem exec_headerSamplePoint_data (ha : isAnnounce f = false) (hr : isRanging s x f = false) :
    exec (.headerSamplePoint x) s = .next (dataSample x f (setStage x f 1 s)) := by
  show execHeaderSamplePoint x s = _
  rw [execHeaderSamplePoint, hf]
  exact (if_neg (Bool.eq_false_iff.1 ha)).trans (if_neg (Bool.eq_false_iff.1 hr))

/-- A window that is too short, or without MP, is counted (R149). -/
theorem exec_headerSamplePoint_unusable (hw : isAnnounce f = true ∨ isRanging s x f = true)
    (hu : windowUsable f = false) : exec (.headerSamplePoint x) s =
      .next (bump cRngWindowUnusable (scInst (ltxOwner s x)) 1 (setStage x f 1 s)) := by
  have hu' : (!windowUsable f) = true := by rw [hu]; rfl
  cases ha : isAnnounce f with
  | true => exact (exec_headerSamplePoint_announce hf ha).trans (congrArg _ (if_pos hu'))
  | false =>
    have hr : isRanging s x f = true := hw.resolve_left (Bool.eq_false_iff.1 ha)
    exact (exec_headerSamplePoint_ranging hf ha hr).trans (congrArg _ (if_pos hu'))

theorem headerSamplePoint_unusable (hw : isAnnounce f = true ∨ isRanging s x f = true)
    (hu : windowUsable f = false) : Answers (.headerSamplePoint x) s fun t =>
      ctrOf t cRngWindowUnusable (scInst (ltxOwner s x)) =
        ctrAdd (ctrOf s cRngWindowUnusable (scInst (ltxOwner s x))) 1 ∧
      t.us = (setStage x f 1 s).us ∧ Only (counting ++ [.us]) s t := by
  refine ⟨_, exec_headerSamplePoint_unusable hf hw hu, ?_, ?_,
    only_bump (by decide) (only_setStage (by decide) (Only.refl s))⟩
  · rw [ctrOf_bump (cKey_ne (scInst_ltxOwner_lt s x) (by decide)) Nat.one_ne_zero, if_pos rfl]
    rfl
  · simp only [bump_rest]

/-- An announce window of an instance that does not announce, or may not yet, is marked (R149). -/
theorem exec_headerSamplePoint_notAnnouncing (ha : isAnnounce f = true)
    (hu : windowUsable f = true) (hs : (instOf s (ltxOwner s x)).stBurst ≠ .announce ∨
      (instOf s (ltxOwner s x)).annOpen = false) :
    exec (.headerSamplePoint x) s = .next (setStage x f 1 s) := by
  rw [exec_headerSamplePoint_announce hf ha]
  unfold announceSample
  dsimp only
  rw [hu, if_neg (by decide)]
  rcases hs with hs | hs
  · exact congrArg _ (if_pos hs)
  · refine congrArg _ (ite_eq_left_iff.2 fun _ => if_pos ?_)
    rw [Bool.not_eq_true']
    exact hs

theorem headerSamplePoint_backsOff (ha : isAnnounce f = true) (hu : windowUsable f = true)
    (hs : (instOf s (ltxOwner s x)).stBurst = .announce)
    (ho : (instOf s (ltxOwner s x)).annOpen = true)
    (hb : 0 < (instOf s (ltxOwner s x)).backoff) : Answers (.headerSamplePoint x) s fun t =>
      instOf t (ltxOwner s x) = { instOf s (ltxOwner s x) with
        backoff := (instOf s (ltxOwner s x)).backoff - 1 } ∧
      t.us = (setStage x f 1 s).us ∧ Only [.us, .act] s t := by
  have he : exec (.headerSamplePoint x) s = .next (modInst (ltxOwner s x)
      (fun y => { y with backoff := y.backoff - 1 }) (setStage x f 1 s)) := by
    have hs' : ¬ (instOf (setStage x f 1 s) (ltxOwner s x)).stBurst ≠ .announce := not_not.2 hs
    have ho' : ¬ (!(instOf (setStage x f 1 s) (ltxOwner s x)).annOpen) = true := by
      rw [show (instOf (setStage x f 1 s) (ltxOwner s x)).annOpen = true from ho]
      exact Bool.false_ne_true
    have hb' : 0 < (instOf (setStage x f 1 s) (ltxOwner s x)).backoff := hb
    rw [exec_headerSamplePoint_announce hf ha]
    unfold announceSample
    dsimp only
    rw [hu, if_neg (by decide)]
    exact congrArg _ ((if_neg hs').trans ((if_neg ho').trans (if_pos hb')))
  refine ⟨_, he, ?_, rfl, only_modInst (by decide) (only_setStage (by decide) (Only.refl s))⟩
  rw [instOf_modInst, if_pos rfl]
  rfl

theorem headerSamplePoint_announces (ha : isAnnounce f = true) (hu : windowUsable f = true)
    (hs : (instOf s (ltxOwner s x)).stBurst = .announce)
    (ho : (instOf s (ltxOwner s x)).annOpen = true)
    (hb : (instOf s (ltxOwner s x)).backoff = 0) : Answers (.headerSamplePoint x) s fun t =>
      (instOf t (ltxOwner s x)).backoff ≤ (instOf s (ltxOwner s x)).annBackoff ∧
      ∃ b, (b ∈ (usLaneOf t x).bursts ∧ b.furrow = f ∧ b.sending = false ∧
          (b.len, b.k, b.j) = burstShape f.pre f.dur f.so ∧
          Only (writes (.headerSamplePoint x)) s t) ∧
        b.announce = true ∧ b.delay % 64 = 0 ∧
        b.delay ≤ f.dur - (burstShape f.pre f.dur f.so).1 := by
  have he := exec_headerSamplePoint_announce hf ha
  obtain ⟨hback, b, ⟨h1, h2, h3, h4⟩, hb⟩ :=
    announceSample_lays (x := x) (s := setStage x f 1 s) hu hs ho hb
  exact ⟨_, he, hback, b, ⟨h1, h2, h3, h4, only_exec _ he⟩, hb⟩

theorem exec_headerSamplePoint_notRanging (ha : isAnnounce f = false)
    (hr : isRanging s x f = true) (hu : windowUsable f = true)
    (h1 : (instOf s (ltxOwner s x)).stBurst ≠ .ranging)
    (h2 : (instOf s (ltxOwner s x)).stBurst ≠ .operating) :
    exec (.headerSamplePoint x) s = .next (setStage x f 1 s) := by
  rw [exec_headerSamplePoint_ranging hf ha hr]
  unfold rangingSample
  dsimp only
  rw [hu, if_neg (by decide)]
  exact congrArg _ (if_pos ⟨h1, h2⟩)

theorem headerSamplePoint_ranges (ha : isAnnounce f = false) (hr : isRanging s x f = true)
    (hu : windowUsable f = true) (hs : (instOf s (ltxOwner s x)).stBurst = .ranging ∨
      (instOf s (ltxOwner s x)).stBurst = .operating) : Answers (.headerSamplePoint x) s fun t =>
      ∃ b, (b ∈ (usLaneOf t x).bursts ∧ b.furrow = f ∧ b.sending = false ∧
          (b.len, b.k, b.j) = burstShape f.pre f.dur f.so ∧
          Only (writes (.headerSamplePoint x)) s t) ∧ b.ranging = true ∧ b.delay = 0 := by
  have he := exec_headerSamplePoint_ranging hf ha hr
  obtain ⟨b, ⟨h1, h2, h3, h4⟩, hb⟩ :=
    rangingSample_lays (x := x) (s := setStage x f 1 s) hu hs
  exact ⟨_, he, b, ⟨h1, h2, h3, h4, only_exec _ he⟩, hb⟩

theorem headerSamplePoint_lays (ha : isAnnounce f = false) (hr : isRanging s x f = false) :
    Answers (.headerSamplePoint x) s fun t =>
      ∃ b, (b ∈ (usLaneOf t x).bursts ∧ b.furrow = f ∧ b.sending = false ∧
          (b.len, b.k, b.j) = burstShape f.pre f.dur f.so ∧
          Only (writes (.headerSamplePoint x)) s t) ∧ b.announce = false ∧ b.ranging = false ∧
        b.delay = 0 ∧ b.statusOnly = (decide (f.dur = 0) || f.so) := by
  have he := exec_headerSamplePoint_data hf ha hr
  obtain ⟨b, ⟨h1, h2, h3, h4⟩, hb⟩ := dataSample_lays (x := x) (f := f) (s := setStage x f 1 s)
  exact ⟨_, he, b, ⟨h1, h2, h3, h4, only_exec _ he⟩, hb⟩

theorem headerSamplePoint_status (ha : isAnnounce f = false) (hr : isRanging s x f = false)
    (hd : f.dur = 0) : Answers (.headerSamplePoint x) s fun t =>
      let s1 := setStage x f 1 s
      t = addBurst x { furrow := f, hdr := burstHeader s1 x f (resyncDue s x) false false true
                       msg := none, lots := idleFill 24 24
                       len := preGrains f.pre + 704, k := 0, j := 1, statusOnly := true
                       resync := resyncDue s x } s1 :=
  ⟨_, exec_headerSamplePoint_data hf ha hr, dataSample_status hd⟩

end Sampled
end Sys2Proof.Machine

/-! BURST_ENABLE and BURST_END (R120-R123). -/

namespace Sys2Proof.Machine
variable {x : Fin 2} {f : Furrow} {s : State}

theorem scLtx_lt (x : Fin 2) : scLtx x < 67108864 := by
  revert x
  decide

theorem endBurst_idle {x : Nat}
    (h : ∀ b, (usLaneOf s x).bursts.head? = some b → b.sending = false) : endBurst x s = s := by
  unfold endBurst
  cases hl : (usLaneOf s x).bursts with
  | nil => rfl
  | cons b rest =>
    dsimp only
    rw [h b (by rw [hl]; rfl)]
    rfl

/-- A furrow passed without a burst of its own is counted and numbers what stands before it. -/
theorem skipFurrow_none {x : Nat} (h : (usLaneOf s x).bursts = []) :
    skipFurrow x f s = bump cFurrowSkipped (scLtx x) 1 (numberUpTo (f.s - 8 + 53125) s) := by
  have hbare := congrArg UsLane.bursts
    (congrFun (bareLanes_numberUpTo (lim := f.s - 8 + 53125) (s := s)) x)
  have hn : (usLaneOf (numberUpTo (f.s - 8 + 53125) s) x).bursts = [] := by
    refine (List.map_eq_nil_iff (f := bareBurst)).1 (hbare.trans ?_)
    unfold bareLanes bareLane
    rw [h]
    rfl
  unfold skipFurrow burstOf
  dsimp only
  rw [usLaneOf_bump, hn]
  rfl

/-- A burst that starts is sending, and no other of the lane is changed. -/
theorem startBurst_bursts {x : Nat} (b : Burst) : (usLaneOf (startBurst x b s) x).bursts =
    (usLaneOf s x).bursts.map (fun c =>
      if c.furrow.s == b.furrow.s && c.furrow.sc == b.furrow.sc then { c with sending := true }
      else c) := by
  have hu (u : State) : usLaneOf { u with us :=
      if x = 0 then { u.us with resync0 := false } else { u.us with resync1 := false } } x =
        usLaneOf u x := by
    split <;> rfl
  unfold startBurst
  dsimp only
  simp only [usLaneOf_bump]
  split
  · rw [hu, usLaneOf_modUsLane, if_pos rfl]
  · rw [usLaneOf_modUsLane, if_pos rfl]

theorem startBurst_sends {x : Nat} {b c : Burst} (h : burstOf s x f = some b)
    (hc : c ∈ (usLaneOf (startBurst x b s) x).bursts) (hs : c.furrow.s = f.s)
    (hsc : c.furrow.sc = f.sc) : c.sending = true := by
  have hb := List.find?_some h
  rw [Bool.and_eq_true, beq_iff_eq, beq_iff_eq] at hb
  rw [startBurst_bursts] at hc
  obtain ⟨a, -, rfl⟩ := List.mem_map.1 hc
  rw [hb.1, hb.2] at hs hsc ⊢
  by_cases ha : (a.furrow.s == f.s && a.furrow.sc == f.sc) = true
  · rw [if_pos ha]
  · rw [if_neg ha] at hs hsc
    exact absurd (by rw [hs, hsc, beq_self_eq_true, beq_self_eq_true]; rfl) ha

theorem exec_burstEnable_none
    (h : (usLaneOf s x).furrows.find? (fun f => f.stage == 1) = none) :
    exec (.burstEnable x) s = .next s := by
  show execBurstEnable x s = _
  rw [execBurstEnable, h]

section Enabled
variable (hf : (usLaneOf s x).furrows.find? (fun f => f.stage == 1) = some f)
include hf

theorem exec_burstEnable_waits (hg : grainCome s (enableGrain s x f) = false) :
    exec (.burstEnable x) s = .next s := by
  show execBurstEnable x s = _
  rw [execBurstEnable, hf]
  exact if_pos (by rw [hg]; rfl)

theorem exec_burstEnable_skips (hg : grainCome s (enableGrain s x f) = true)
    (ho : gateOpen (setStage x f 2 (endBurst x s)) x f = false) :
    exec (.burstEnable x) s = .next (skipFurrow x f (setStage x f 2 (endBurst x s))) := by
  show execBurstEnable x s = _
  rw [execBurstEnable, hf]
  exact (if_neg (by rw [hg]; decide)).trans (if_pos (by rw [ho]; rfl))

theorem exec_burstEnable_starts {b : Burst} (hg : grainCome s (enableGrain s x f) = true)
    (ho : gateOpen (setStage x f 2 (endBurst x s)) x f = true)
    (hb : burstOf (setStage x f 2 (endBurst x s)) x f = some b) :
    exec (.burstEnable x) s = .next (startBurst x b (setStage x f 2 (endBurst x s))) := by
  show execBurstEnable x s = _
  rw [execBurstEnable, hf]
  refine (if_neg (by rw [hg]; decide)).trans ((if_neg (by rw [ho]; decide)).trans ?_)
  rw [hb]

theorem burstEnable_skips (hg : grainCome s (enableGrain s x f) = true)
    (ho : gateOpen (setStage x f 2 (endBurst x s)) x f = false)
    (hl : (usLaneOf s x).ben = false) : Answers (.burstEnable x) s fun t =>
      (usLaneOf t x).ben = false ∧ NoEnableRises s t ∧
      ((usLaneOf s x).bursts = [] → ctrOf t cFurrowSkipped (scLtx x) =
        ctrAdd (ctrOf s cFurrowSkipped (scLtx x)) 1) ∧ Only (writes (.burstEnable x)) s t := by
  have he := exec_burstEnable_skips hf hg ho
  have hk : Kept s (skipFurrow x f (setStage x f 2 (endBurst x s))) :=
    kept_skipFurrow (kept_setStage (kept_endBurst (Kept.refl s)))
  refine ⟨_, he, ben_low_of_kept hk hl, hk.noEnableRises, fun hn => ?_, only_exec _ he⟩
  have hend : endBurst x s = s := endBurst_idle (by rw [hn]; exact fun _ h => nomatch h)
  have hnone : (usLaneOf (setStage x f 2 s) x).bursts = [] :=
    (usLaneOf_modUsLane_keeps (v := UsLane.bursts) (fun _ => by rfl) x).trans hn
  rw [hend, skipFurrow_none hnone, ctrOf_bump (cKey_ne (scLtx_lt x) (by decide)) Nat.one_ne_zero,
    if_pos rfl]
  exact congrArg (ctrAdd · 1) (ctrOf_congr ((only_numberUpTo (List.Subset.refl _)
    (only_setStage (by decide) (Only.refl s))) .counters (by decide)) _ _)

theorem burstEnable_starts {b : Burst} (hg : grainCome s (enableGrain s x f) = true)
    (ho : gateOpen (setStage x f 2 (endBurst x s)) x f = true)
    (hb : burstOf (setStage x f 2 (endBurst x s)) x f = some b) :
    Answers (.burstEnable x) s fun t =>
      (usLaneOf t x).ben = true ∧ (usLaneOf t x).benSince = burstStart b - 8 ∧
      (∀ y, y ≠ x.val →
        (usLaneOf t y).ben = (usLaneOf (setStage x f 2 (endBurst x s)) y).ben) ∧
      (∀ c ∈ (usLaneOf t x).bursts, c.furrow.s = f.s → c.furrow.sc = f.sc →
        c.sending = true) ∧
      Only (writes (.burstEnable x)) s t := by
  have he := exec_burstEnable_starts hf hg ho hb
  refine ⟨_, he, ?_, (startBurst_lane x.val).2 rfl, fun y hy => ?_,
    fun c hc => startBurst_sends hb hc, only_exec _ he⟩
  · rw [(startBurst_lane x.val).1, if_pos rfl]
  · rw [(startBurst_lane y).1, if_neg hy]

end Enabled

theorem exec_burstEnd_idle (h : ∀ b, (usLaneOf s x).bursts.head? = some b → b.sending = false) :
    exec (.burstEnd x) s = .next s :=
  congrArg Host.Outcome.next (endBurst_idle h)

theorem burstEnd_lowers {b : Burst} {rest : List Burst} (h : (usLaneOf s x).bursts = b :: rest)
    (hb : b.sending = true) : Answers (.burstEnd x) s fun t =>
      (usLaneOf t x).ben = false ∧ NoEnableRises s t ∧ Only (writes (.burstEnd x)) s t :=
  have he : exec (.burstEnd x) s = .next (endBurst x s) := rfl
  ⟨_, he, endBurst_low h hb, noEnableRises_exec (fun _ => Instr.noConfusion) he, only_exec _ he⟩

end Sys2Proof.Machine

/-! The watchdogs of a lane's laser (R122, R123). -/

namespace Sys2Proof.Machine
variable {s t : State}

theorem wdTrip_of_bareLanes (h : bareLanes t = bareLanes s) (k : Nat) :
    (usLaneOf t k).wdTrip = (usLaneOf s k).wdTrip := by
  show (bareLanes t k).wdTrip = (bareLanes s k).wdTrip
  rw [h]

theorem benLow_wdTrip {x : Nat} (k : Nat) :
    (usLaneOf (benLow x s) k).wdTrip = (usLaneOf s k).wdTrip := by
  unfold benLow
  dsimp only
  split
  · rw [usLaneOf_bump]
    exact usLaneOf_modUsLane_keeps (v := UsLane.wdTrip) (fun _ => by rfl) k
  · rfl

theorem cutBurst_wdTrip {x : Nat} (k : Nat) :
    (usLaneOf (cutBurst x s) k).wdTrip = (usLaneOf s k).wdTrip := by
  unfold cutBurst
  dsimp only
  split
  · rfl
  · split
    · rw [usLaneOf_bump, wdTrip_of_bareLanes bareLanes_burstAccount, benLow_wdTrip]
      exact (usLaneOf_modUsLane_keeps (v := UsLane.wdTrip) (fun _ => by rfl) k).trans
        (wdTrip_of_bareLanes bareLanes_numberUpTo k)
    · rfl

/-- Cutting the bursts whose gate has closed latches and releases no trip. -/
theorem gateLook_wdTrip (k : Nat) :
    (usLaneOf (gateLook s) k).wdTrip = (usLaneOf s k).wdTrip := by
  unfold gateLook
  refine each_keeps (v := fun u => (usLaneOf u k).wdTrip) (fun x u => ?_) _ s
  split
  · split
    · exact cutBurst_wdTrip k
    · rfl
  · rfl

theorem wdTripLane_trips {x : Nat} : (usLaneOf (wdTripLane x s) x).ben = false ∧
    (usLaneOf (wdTripLane x s) x).wdTrip = true := by
  unfold wdTripLane
  dsimp only
  refine ⟨benLow_low, ?_⟩
  rw [benLow_wdTrip, gateLook_wdTrip, usLaneOf_raise, usLaneOf_bump, usLaneOf_modUsLane, if_pos rfl]

/-- A watchdog's row that trips its lane lowers BEN, latches the trip and raises no BEN. -/
theorem watchdog_trips {i : Instr} {x : Nat} (hb : ∀ y, i ≠ .burstEnable y)
    (he : exec i s = .next (wdTripLane x s)) : Answers i s fun t =>
      (usLaneOf t x).ben = false ∧ (usLaneOf t x).wdTrip = true ∧ NoEnableRises s t ∧
      Only (writes i) s t :=
  ⟨_, he, wdTripLane_trips.1, wdTripLane_trips.2, noEnableRises_exec hb he, only_exec _ he⟩

variable {x : Fin 2}

theorem laserWatchdog_trips (hb : (usLaneOf s x).ben = true) (hw : (usLaneOf s x).wdTrip = false) :
    exec (.laserWatchdog x) s = .next (wdTripLane x s) :=
  if_pos (by rw [hb, hw]; rfl)

theorem laserWatchdog_idle (h : (usLaneOf s x).ben = false ∨ (usLaneOf s x).wdTrip = true) :
    exec (.laserWatchdog x) s = .next s := by
  refine if_neg ?_
  rcases h with h | h <;> simp [h]

theorem watchdogRefclkTrip_trips (hw : (usLaneOf s x).wdMonitor = true ∨
      ((usLaneOf s x).ben = true ∧ s.clk.refclk = false)) (ht : (usLaneOf s x).wdTrip = false) :
    exec (.watchdogRefclkTrip x) s = .next (wdTripLane x s) := by
  refine if_pos ?_
  rcases hw with h | ⟨hb, hr⟩
  · simp [h, ht]
  · simp [hb, hr, ht]

theorem watchdogRefclkTrip_idle (h : (usLaneOf s x).wdTrip = true ∨
      (usLaneOf s x).wdMonitor = false ∧
        ((usLaneOf s x).ben = false ∨ s.clk.refclk = true)) :
    exec (.watchdogRefclkTrip x) s = .next s := by
  refine if_neg ?_
  rcases h with h | ⟨hm, h | h⟩
  · simp [h]
  · simp [hm, h]
  · simp [hm, h]

end Sys2Proof.Machine

/-! FRAG_ABANDON_TX. -/

namespace Sys2Proof.Machine
variable {q : Fin 1024} {s : State}

theorem scUsQueue_lt (q : Fin 1024) : scUsQueue q < 67108864 := by
  have hq := q.isLt
  unfold scUsQueue scopeCode
  omega

/-- Dropping the head of an upstream queue leaves the frames behind it and every other queue. -/
theorem dropHead_queues {k : Nat} {f : Frame} {rest : List Frame}
    (h : (usOf s k).frames = f :: rest) : (usOf (dropHead false k s) k).frames = rest ∧
    ∀ j, j ≠ k → usOf (dropHead false k s) j = usOf s j := by
  have hd : dropHead false k s = freeBushels f.bushels (modUs k (fun p => { p with
      frames := rest, bushels := p.bushels - f.bushels }) s) := by
    have hq : (queueOf s false k).frames = f :: rest := h
    unfold dropHead
    rw [hq]
    rfl
  rw [hd]
  refine ⟨?_, fun j hj => ?_⟩
  · rw [(freeBushels_queues k).1, usOf_modUs, if_pos rfl]
  · rw [(freeBushels_queues j).1, usOf_modUs, if_neg hj]

theorem fragAbandonTx_drops {f : Frame} {rest : List Frame} (h : (usOf s q).frames = f :: rest)
    (hs : 0 < f.sent) : Answers (.fragAbandonTx q) s fun t =>
      (usOf t q).frames = rest ∧ (∀ k, k ≠ q.val → usOf t k = usOf s k) ∧
      ctrOf t cFragAbandonTx (scUsQueue q) = ctrAdd (ctrOf s cFragAbandonTx (scUsQueue q)) 1 ∧
      Only (writes (.fragAbandonTx q)) s t := by
  have he : exec (.fragAbandonTx q) s =
      .next (bump cFragAbandonTx (scUsQueue q) 1 (dropHead false q s)) := by
    show execFragAbandonTx q s = _
    rw [execFragAbandonTx, h]
    exact if_pos hs
  obtain ⟨hrest, hothers⟩ := dropHead_queues h
  refine ⟨_, he, ?_, fun k hk => ?_, ?_, only_exec _ he⟩
  · rw [usOf_bump, hrest]
  · rw [usOf_bump, hothers k hk]
  · rw [ctrOf_bump (cKey_ne (scUsQueue_lt q) (by decide)) Nat.one_ne_zero, if_pos rfl]
    exact congrArg (ctrAdd · 1) (ctrOf_congr
      (only_dropHead (List.Subset.refl _) (Only.refl s) .counters (by decide)) _ _)

theorem fragAbandonTx_idle (h : ∀ f, (usOf s q).frames.head? = some f → f.sent = 0) :
    exec (.fragAbandonTx q) s = .next s := by
  show execFragAbandonTx q s = _
  unfold execFragAbandonTx
  split
  · next f rest hf => exact if_neg (by rw [h f (by rw [hf]; rfl)]; exact Nat.lt_irrefl 0)
  · rfl

end Sys2Proof.Machine

namespace Sys2Proof.Machine

/-- Settles O21: the head of the lane's furrows not yet sampled, and not yet enabled, decides the
row's case. -/
theorem burstsOpenAndCloseTheGate : Obligations.BurstsOpenAndCloseTheGate := by
  unfold Obligations.BurstsOpenAndCloseTheGate
  intro x s
  refine ⟨exec_headerSamplePoint_none, fun f hf => ⟨headerSamplePoint_unusable hf, ?_, ?_,
      headerSamplePoint_lays hf, headerSamplePoint_status hf⟩,
    exec_burstEnable_none, fun f hf => ⟨exec_burstEnable_waits hf, fun hg =>
      ⟨burstEnable_skips hf hg, fun _ => burstEnable_starts hf hg⟩⟩,
    exec_burstEnd_idle, fun _ _ => burstEnd_lowers,
    fun hb hw => watchdog_trips (fun _ => Instr.noConfusion) (laserWatchdog_trips hb hw),
    laserWatchdog_idle,
    fun hw ht => watchdog_trips (fun _ => Instr.noConfusion) (watchdogRefclkTrip_trips hw ht),
    watchdogRefclkTrip_idle,
    fun q => ⟨fun _ _ => fragAbandonTx_drops, fragAbandonTx_idle⟩⟩
  · exact fun ha hu => ⟨exec_headerSamplePoint_notAnnouncing hf ha hu,
      headerSamplePoint_backsOff hf ha hu, headerSamplePoint_announces hf ha hu⟩
  · exact fun ha hr hu => ⟨exec_headerSamplePoint_notRanging hf ha hr hu,
      headerSamplePoint_ranges hf ha hr hu⟩

end Sys2Proof.Machine

/-! The thresholds of supervision (R170). -/

namespace Sys2Proof.Machine
variable {c : Cmd} {s : State} {sc : Nat} {gs : List Given}

/-- A value for CLR, as it would be in force, exceeds the one for SET. -/
def thresholdsCross (s : State) (gs : List Given) (sc : Nat) : Prop :=
  given s gs sSdSet sc < given s gs sSdClr sc ∨ given s gs sSfSet sc < given s gs sSfClr sc

theorem supSetThresholdsBody_refuses (hc : Carries [0x00] (fun _ => thresholdSettings) c s sc gs)
    (hx : thresholdsCross s gs sc) : ∃ idx, ∀ v,
      supSetThresholdsBody { payload := c.payload, tag := c.tag } { s with reeve := v } =
        refuse 4 4 idx { s with reeve := v } := by
  by_cases hsd : given s gs sSdSet sc < given s gs sSdClr sc
  · refine ⟨firstOf gs [sSdSet, sSdClr], fun v => ?_⟩
    rw [supSetThresholdsBody, settingsCmd_runs hc v]
    exact if_pos hsd
  · refine ⟨firstOf gs [sSfSet, sSfClr], fun v => ?_⟩
    rw [supSetThresholdsBody, settingsCmd_runs hc v]
    exact (if_neg hsd).trans (if_pos (hx.resolve_left hsd))

theorem supSetThresholds_sets : Sets 0x0504 [0x00] (fun _ => thresholdSettings)
    (.supSetThresholds c) c s (fun sc gs => ¬ thresholdsCross s gs sc) fun _ _ _ => True := by
  refine sets_plain (fun _ => only_exec _) rfl (by decide) fun sc gs v _ hx => ?_
  refine ⟨each tcaLook gs (putGiven sc gs { s with reeve := v }), ?_,
    only_each (fun _ _ => only_tcaLook (by decide)) (Only.refl _), fun _ _ => trivial⟩
  exact (if_neg fun h => hx (.inl h)).trans (if_neg fun h => hx (.inr h))

/-- Settles O59: the two comparisons stand before anything is put, in `supSetThresholdsBody`. -/
theorem thresholdsBelowTheirClearAreRefused :
    Obligations.ThresholdsBelowTheirClearAreRefused := by
  intro c s ha sc gs hc
  refine ⟨List.mem_singleton.1 (carries_scope hc (by decide)).2, fun hx => ?_, fun hx => ?_⟩
  · obtain ⟨_, hb⟩ := supSetThresholdsBody_refuses hc hx
    exact fails rfl ha (by decide) hb
  · obtain ⟨t, he, ⟨hr, hf, -⟩, ho⟩ := supSetThresholds_sets ha sc gs hc hx
    exact ⟨t, he, ⟨hr, hf⟩, ho⟩

end Sys2Proof.Machine

/-! The rows of supervision (R165-R176, R178-R185, R571, R572, R593). -/

namespace Sys2Proof.Machine
variable {s t u : State}

/-! Defects of a lane (R165, R167, R171). -/

@[simp] theorem laneDefect_noteSecond (x : SupLane) (e : Nat) :
    laneDefect (noteSecond x) e = laneDefect x e := by
  unfold laneDefect; rfl

theorem laneDefect_withDefect {c : Nat} (hc : c ∈ laneCodes) (v : Bool) (x : SupLane) (e : Nat) :
    laneDefect (withDefect c v x) e = if e = c then v else laneDefect x e := by
  simp only [laneCodes, List.mem_cons, List.not_mem_nil, or_false] at hc
  rcases hc with rfl | rfl | rfl | rfl | rfl <;> unfold withDefect laneDefect <;> split <;> simp_all

/-- Setting or clearing a defect of a lane leaves its other defects. -/
theorem laneDefect_setLaneDefect {l c : Nat} (hc : c ∈ laneCodes) (v : Bool) (e : Nat) :
    laneDefect (supLaneOf (setLaneDefect l c v s) l) e =
      if e = c then v else laneDefect (supLaneOf s l) e := by
  obtain ⟨-, hsame, hset, -⟩ := setLaneDefect_sup (s := s) (l := l) (c := c) (v := v)
  by_cases h : laneDefect (supLaneOf s l) c = v
  · rw [hsame h]
    split
    · next he => rw [he, h]
    · rfl
  · rw [hset h, laneDefect_noteSecond, laneDefect_withDefect hc, laneDefect_noteSecond]

theorem supLook_reeve : (supLook s).reeve = s.reeve :=
  only_supLook (ps := [.sup]) (by decide) (Only.refl s) .reeve (by decide)

/-- LOS masks every other defect, so its entry raises its own event alone. -/
theorem defectEvents_losEnters {l : Nat} {b a : SupLane} (hb : b.los = false) (ha : a.los = true) :
    defectEvents l b a 1 s = raise 0x0501 l 1 s := by
  simp [defectEvents, laneCodes, each, laneDefect, laneMasked, hb, ha]

/-- Under a standing LOS no other defect raises an event. -/
theorem defectEvents_underLos {l c : Nat} {b a : SupLane} (hc : c ≠ 1) (hb : b.los = true)
    (ha : a.los = true) : defectEvents l b a c s = s := by
  simp [defectEvents, laneCodes, each, laneDefect, laneMasked, hb, ha, Ne.symm hc]

theorem setLaneDefect_losEnters_reeve {l : Nat} (h : (supLaneOf s l).los = false) : ∃ w,
    (setLaneDefect l 1 true s).reeve = (raise 0x0501 l 1 w).reeve ∧ w.reeve = s.reeve := by
  refine ⟨modSupLane l (fun _ => noteSecond (withDefect 1 true (noteSecond (supLaneOf s l)))) s,
    ?_, rfl⟩
  unfold setLaneDefect
  rw [if_neg (by rw [laneDefect, h]; decide), supLook_reeve, defectEvents_losEnters h rfl]

theorem setLaneDefect_underLos_reeve {l c : Nat} {v : Bool} (hc : c ∈ laneCodes) (h1 : c ≠ 1)
    (h : (supLaneOf s l).los = true) : (setLaneDefect l c v s).reeve = s.reeve := by
  have ha : (noteSecond (withDefect c v (noteSecond (supLaneOf s l)))).los = true :=
    ((laneDefect_withDefect hc v _ 1).trans (if_neg h1.symm)).trans h
  by_cases hv : laneDefect (supLaneOf s l) c = v
  · rw [setLaneDefect_sup.2.1 hv]
  · unfold setLaneDefect
    rw [if_neg hv, supLook_reeve, defectEvents_underLos h1 h ha]; rfl

/-- What LOS_DECLARE and LOS_CLEAR do on a lane in use: the signal's reading, and LOS (R165). -/
def withLos (l : Nat) (v : Bool) (s : State) : State :=
  setLaneDefect l 1 v (modLane l (fun x => { x with signal := !v }) s)

theorem exec_losDeclare {l : Fin 4} (he : laneEnabled s l = true) (hd : (laneOf s l).st ≠ .dormant) :
    exec (.losDeclare l) s = .next (withLos l true s) := if_pos (by simp [he, hd])

theorem exec_losClear {l : Fin 4} (he : laneEnabled s l = true) (hd : (laneOf s l).st ≠ .dormant) :
    exec (.losClear l) s = .next (withLos l false s) := if_pos (by simp [he, hd])

theorem withLos_lanes (l k : Nat) (v : Bool) : laneOf (withLos l v s) k =
    if k = l then { laneOf s l with signal := !v } else laneOf s k := by
  unfold withLos
  rw [laneOf, setLaneDefect_sup.2.2.2]
  exact laneOf_modLane l k _

theorem withLos_facts (l : Nat) (v : Bool) : (laneOf (withLos l v s) l).signal = !v ∧
    (supLaneOf (withLos l v s) l).los = v ∧
    (supLaneOf (withLos l v s) l).lof = (supLaneOf s l).lof ∧
    (supLaneOf (withLos l v s) l).lol = (supLaneOf s l).lol ∧
    ∀ k, k ≠ l → supLaneOf (withLos l v s) k = supLaneOf s k ∧
      laneOf (withLos l v s) k = laneOf s k := by
  refine ⟨by rw [withLos_lanes, if_pos rfl], laneDefect_setLaneDefect (by decide) v 1,
    laneDefect_setLaneDefect (by decide) v 2, laneDefect_setLaneDefect (by decide) v 3,
    fun k hk => ⟨setLaneDefect_sup.1 k hk, by rw [withLos_lanes, if_neg hk]⟩⟩

theorem withLos_newest {l : Nat} (h : (supLaneOf s l).los = false)
    (hr : s.reeve.events.length < 64) :
    ((withLos l true s).reeve.events.getLast?).map (fun e => (e.code, e.scope, e.data)) =
      some (0x0501, BitVec.ofNat 16 l, 1) := by
  obtain ⟨w, he, hw⟩ := setLaneDefect_losEnters_reeve (l := l)
    (s := modLane l (fun x => { x with signal := !true }) s) h
  rw [withLos, he, last_raise (by rw [hw]; exact hr)]
  rfl

theorem losDeclare_facts {l : Fin 4} (he : laneEnabled s l = true)
    (hd : (laneOf s l).st ≠ .dormant) (hl : (supLaneOf s l).los = false)
    (hr : s.reeve.events.length < 64) : Does (.losDeclare l) s fun t =>
      (laneOf t l).signal = false ∧ (supLaneOf t l).los = true ∧
      (supLaneOf t l).lof = (supLaneOf s l).lof ∧ (supLaneOf t l).lol = (supLaneOf s l).lol ∧
      (∀ k, k ≠ l.val → supLaneOf t k = supLaneOf s k ∧ laneOf t k = laneOf s k) ∧
      (t.reeve.events.getLast?).map (fun e => (e.code, e.scope, e.data)) =
        some (0x0501, BitVec.ofNat 16 l, 1) := by
  obtain ⟨hsig, hlos, hlof, hlol, hrest⟩ := withLos_facts (s := s) l true
  have hx := exec_losDeclare he hd
  exact ⟨_, hx, ⟨hsig, hlos, hlof, hlol, hrest, withLos_newest hl hr⟩, only_exec _ hx⟩

theorem losClear_facts {l : Fin 4} (he : laneEnabled s l = true)
    (hd : (laneOf s l).st ≠ .dormant) : Does (.losClear l) s fun t =>
      (laneOf t l).signal = true ∧ (supLaneOf t l).los = false ∧
      (supLaneOf t l).lof = (supLaneOf s l).lof ∧ (supLaneOf t l).lol = (supLaneOf s l).lol ∧
      (∀ k, k ≠ l.val → supLaneOf t k = supLaneOf s k ∧ laneOf t k = laneOf s k) := by
  have hx := exec_losClear he hd
  exact ⟨_, hx, withLos_facts l false, only_exec _ hx⟩

theorem exec_lolDeclare {l : Fin 4} (he : laneEnabled s l = true)
    (hl : isLocked (laneOf s l) = true)
    (hd : (laneOf s l).delin = .resync ∨ (laneOf s l).delin = .wait) :
    exec (.lolDeclare l) s = .next (setLaneDefect l 3 true s) :=
  if_pos (by rcases hd with hd | hd <;> simp [he, hl, hd])

theorem exec_lolClear {l : Fin 4} (he : laneEnabled s l = true)
    (hd : (laneOf s l).st ≠ .dormant) (hdel : (laneOf s l).delin = .delineated) :
    exec (.lolClear l) s = .next (setLaneDefect l 3 false s) := if_pos (by simp [he, hd, hdel])

theorem setLol_facts (l : Nat) (v : Bool) : (supLaneOf (setLaneDefect l 3 v s) l).lol = v ∧
    (supLaneOf (setLaneDefect l 3 v s) l).los = (supLaneOf s l).los ∧
    (supLaneOf (setLaneDefect l 3 v s) l).lof = (supLaneOf s l).lof ∧
    ∀ k, k ≠ l → supLaneOf (setLaneDefect l 3 v s) k = supLaneOf s k :=
  ⟨laneDefect_setLaneDefect (by decide) v 3, laneDefect_setLaneDefect (by decide) v 1,
    laneDefect_setLaneDefect (by decide) v 2, setLaneDefect_sup.1⟩

theorem lolDeclare_facts {l : Fin 4} (he : laneEnabled s l = true)
    (hl : isLocked (laneOf s l) = true)
    (hd : (laneOf s l).delin = .resync ∨ (laneOf s l).delin = .wait) :
    Does (.lolDeclare l) s fun t => (supLaneOf t l).lol = true ∧
      (supLaneOf t l).los = (supLaneOf s l).los ∧ (supLaneOf t l).lof = (supLaneOf s l).lof ∧
      (∀ k, k ≠ l.val → supLaneOf t k = supLaneOf s k) ∧
      ((supLaneOf s l).los = true → t.reeve = s.reeve) := by
  obtain ⟨hlol, hlos, hlof, hrest⟩ := setLol_facts (s := s) l true
  have hx := exec_lolDeclare he hl hd
  exact ⟨_, hx, ⟨hlol, hlos, hlof, hrest,
    setLaneDefect_underLos_reeve (by decide) (by decide)⟩, only_exec _ hx⟩

theorem lolClear_facts {l : Fin 4} (he : laneEnabled s l = true)
    (hd : (laneOf s l).st ≠ .dormant) (hdel : (laneOf s l).delin = .delineated) :
    Does (.lolClear l) s fun t => (supLaneOf t l).lol = false ∧
      (supLaneOf t l).los = (supLaneOf s l).los ∧ (supLaneOf t l).lof = (supLaneOf s l).lof ∧
      (∀ k, k ≠ l.val → supLaneOf t k = supLaneOf s k) := by
  have hx := exec_lolClear he hd hdel
  exact ⟨_, hx, setLol_facts l false, only_exec _ hx⟩

/-! LTM of a domain (R165, R209). -/

theorem setLtm_supDom {d : Nat} (h : (supDomOf s d).ltm = false) :
    supDomOf (setDomDefect d false true s) d =
      { supDomOf s d with ltm := true, secLtm := true } := by
  unfold setDomDefect
  simp only [Bool.false_eq_true, if_false, h]
  rw [supLook_dom, supDomOf, raise_sup]
  simp [modSupDom, tabGet_mod]

theorem setDomDefect_domOf {d k : Nat} {taf v : Bool} :
    domOf (setDomDefect d taf v s) k = domOf s k := by
  rw [domOf, only_setDomDefect (ps := raising ++ [.sup]) (by decide) (Only.refl s) .time (by decide)]
  rfl

theorem ltmDeclare_facts {d : Fin 2} (he : domEnabled s d = true) (hl : (supDomOf s d).ltm = false)
    (hr : actTimersRun s = true) : Does (.ltmDeclare d) s fun t => (supDomOf t d).ltm = true ∧
      (supDomOf t d).taf = (supDomOf s d).taf ∧
      (domOf t d).st = (if (domOf s d).st = .locked then .holdover
        else if (domOf s d).st = .acquiring then .freerun else (domOf s d).st) := by
  have hx : exec (.ltmDeclare d) s = .next (servoLose d (setDomDefect d false true s)) :=
    if_pos (by rw [he, hl, hr]; rfl)
  obtain ⟨hsup, hst⟩ := servoLose_facts d (setDomDefect d false true s)
  rw [setLtm_supDom hl] at hsup
  rw [setDomDefect_domOf] at hst
  exact ⟨_, hx, ⟨by rw [hsup], by rw [hsup], hst⟩, only_exec _ hx⟩

theorem exec_ltmDeclare_none {d : Fin 2} (h : (supDomOf s d).ltm = true) :
    exec (.ltmDeclare d) s = .next s := if_neg (by simp [h])

/-! Counting touches the running bins alone (R185). -/

/-- The supervision of `t` differs from that of `s` in the running bins at most. -/
def BinsOnly (s t : State) : Prop := ∃ o d, t.sup = { s.sup with open15 := o, openDay := d }

theorem BinsOnly.of_sup (h : t.sup = s.sup) : BinsOnly s t := ⟨s.sup.open15, s.sup.openDay, h⟩

theorem BinsOnly.trans (h : BinsOnly s t) (k : BinsOnly t u) : BinsOnly s u := by
  obtain ⟨o, d, h⟩ := h
  obtain ⟨p, q, k⟩ := k
  exact ⟨p, q, by rw [k, h]⟩

theorem BinsOnly.ite {c : Prop} [Decidable c] (h : BinsOnly s t) (k : BinsOnly s u) :
    BinsOnly s (if c then t else u) := by split <;> assumption

theorem BinsOnly.supInst (h : BinsOnly s t) (k : Nat) : supInstOf t k = supInstOf s k := by
  obtain ⟨_, _, h⟩ := h
  rw [supInstOf, h]; rfl

theorem raise_binsOnly {code : BitVec 16} {i n : Nat} : BinsOnly s (raise code i n s) :=
  .of_sup raise_sup

theorem tcaCheck_binsOnly {day : Bool} {n sc : Nat} : BinsOnly s (tcaCheck day n sc s) := by
  unfold tcaCheck
  extract_lets b
  refine .ite (BinsOnly.trans ?_ raise_binsOnly) (.of_sup rfl)
  cases day <;> exact ⟨_, _, rfl⟩

theorem binAdd_binsOnly {n sc a : Nat} : BinsOnly s (binAdd n sc a s) := by
  unfold binAdd
  exact (BinsOnly.trans (t := { s with sup := _ }) ⟨_, _, rfl⟩ tcaCheck_binsOnly).trans
    tcaCheck_binsOnly

theorem bump_binsOnly {c : CtrId} {a n : Nat} : BinsOnly s (bump c a n s) := by
  have hl : BinsOnly s (lifeTotal c a n (bumpRaw c a n s)) :=
    .of_sup (by simp only [lifeTotal_rest, bumpRaw_rest])
  unfold bump
  extract_lets old s1 s2
  have h2 : BinsOnly s s2 := .ite (hl.trans raise_binsOnly) hl
  refine .ite (.of_sup rfl) ?_
  cases c.bin with
  | none => exact h2
  | some k => exact h2.trans binAdd_binsOnly

/-! The hold-off and the request of a switch (R175, R176). -/

theorem requestSwitch_binsOnly {k : Nat} {host : Bool} :
    BinsOnly s (requestSwitch k host s).2 := by
  unfold requestSwitch
  split
  · exact .of_sup rfl
  · split
    · exact bump_binsOnly.trans raise_binsOnly
    · exact .of_sup rfl

theorem requestSwitch_dual {k : Nat} {host : Bool} :
    (requestSwitch k host s).2.act.dual = s.act.dual := by
  unfold requestSwitch
  split
  · rfl
  · split
    · simp only [raise_rest, bump_rest]
    · rfl

/-- Supervision's request of the other parent is granted when that one is OPERATING, and leaves
the working parent as it is. -/
theorem requestSwitch_other {k : Nat} (h : k ≠ s.act.working) :
    (requestSwitch k false s).1 = decide ((instOf s k).st = .operating) ∧
    (requestSwitch k false s).2.act = { s.act with
      pendingSwitch := if (instOf s k).st = .operating then some k else s.act.pendingSwitch } := by
  unfold requestSwitch
  rw [if_neg h]
  by_cases ho : (instOf s k).st = .operating
  · simp [ho]
  · simp [ho]

theorem holdOffRequest_eq (i : Nat) : holdOffRequest i s =
    modSupInst i (fun x => { x with holdStart := none, fired := true
                                    refused := !(requestSwitch (1 - i) false s).1 })
      (requestSwitch (1 - i) false s).2 := rfl

theorem holdOffRequest_supInst (i k : Nat) : supInstOf (holdOffRequest i s) k =
    if k = i then { supInstOf s i with holdStart := none, fired := true
                                       refused := !(requestSwitch (1 - i) false s).1 }
    else supInstOf s k := by
  have h := (requestSwitch_binsOnly (s := s) (k := 1 - i) (host := false)).supInst
  rw [holdOffRequest_eq, supInstOf_modSupInst, h, h]

theorem holdOffExpiry_facts {d : Fin 2} (hs : (supInstOf s d).holdStart.isSome = true)
    (hw : s.act.working = d) : Does (.holdOffExpiry d) s fun t =>
      (supInstOf t d).holdStart = none ∧ (supInstOf t d).fired = true ∧
      (supInstOf t d).refused = !decide ((instOf s (1 - d.val)).st = .operating) ∧
      t.act.working = s.act.working ∧ t.act.pendingSwitch =
        if (instOf s (1 - d.val)).st = .operating then some (1 - d.val)
        else s.act.pendingSwitch := by
  have hx : exec (.holdOffExpiry d) s = .next (holdOffRequest d s) := if_pos hs
  obtain ⟨hok, hact⟩ := requestSwitch_other (s := s) (k := 1 - d.val) (by omega)
  have hact' : (holdOffRequest d s).act = (requestSwitch (1 - d.val) false s).2.act := rfl
  refine ⟨_, hx, ?_, only_exec _ hx⟩
  beta_reduce
  rw [holdOffRequest_supInst, if_pos rfl, hok, hact', hact]
  exact ⟨rfl, rfl, rfl, rfl, rfl⟩

theorem exec_holdOffExpiry_none {d : Fin 2} (h : (supInstOf s d).holdStart = none) :
    exec (.holdOffExpiry d) s = .next s := if_neg (by simp [h])

/-! RDI (R174). -/

/-- What another look at the hold-off or the RDI of `i` leaves: the consequent actions of the other
parent, and what the RDI inputs read. -/
structure InputsKept (i : Nat) (s t : State) : Prop where
  supInst : ∀ k, k ≠ i → supInstOf t k = supInstOf s k
  input : ∀ k, rdiInput t k = rdiInput s k
  settings : t.settings = s.settings

theorem InputsKept.refl (i : Nat) (s : State) : InputsKept i s s :=
  ⟨fun _ _ => rfl, fun _ => rfl, rfl⟩

theorem InputsKept.trans {i : Nat} (h : InputsKept i s t) (k : InputsKept i t u) :
    InputsKept i s u :=
  ⟨fun j hj => (k.supInst j hj).trans (h.supInst j hj), fun j => (k.input j).trans (h.input j),
    k.settings.trans h.settings⟩

theorem holdOffRequest_inputsKept {i : Nat} : InputsKept i s (holdOffRequest i s) := by
  have ho := only_holdOffRequest (ps := counting ++ [.act]) (i := i) (by decide) (Only.refl s)
  obtain ⟨o, d, hb⟩ := requestSwitch_binsOnly (s := s) (k := 1 - i) (host := false)
  have hsup : (holdOffRequest i s).sup =
      { (requestSwitch (1 - i) false s).2.sup with inst := (holdOffRequest i s).sup.inst } := rfl
  rw [hb] at hsup
  have hdual : (holdOffRequest i s).act.dual = s.act.dual :=
    requestSwitch_dual (k := 1 - i) (host := false)
  exact ⟨fun k hk => by rw [holdOffRequest_supInst, if_neg hk],
    rdiInput_congr (ho .settings (by decide)) (ho .lots (by decide)) (by rw [hsup]) (by rw [hsup])
      (by rw [hsup]) hdual (ho .lanes (by decide)), ho .settings (by decide)⟩

theorem holdOffLook_cases (i : Nat) :
    holdOffLook i s = s ∨ holdOffLook i s = holdOffRequest i s := by
  unfold holdOffLook
  split
  · split
    · exact .inr rfl
    · exact .inl rfl
  · exact .inl rfl

theorem holdOffLook_inputsKept {i : Nat} : InputsKept i s (holdOffLook i s) := by
  rcases holdOffLook_cases (s := s) i with h | h <;> rw [h]
  · exact .refl i s
  · exact holdOffRequest_inputsKept

theorem holdOffLook_rdi (i : Nat) : (supInstOf (holdOffLook i s) i).rdi = (supInstOf s i).rdi := by
  rcases holdOffLook_cases (s := s) i with h | h <;> rw [h]
  rw [holdOffRequest_supInst, if_pos rfl]

theorem rdiEvaluate_inputsKept {i : Nat} : InputsKept i s (rdiEvaluate i s) := by
  obtain ⟨-, hinst, hin, hset⟩ := rdiEvaluate_facts i s
  exact ⟨hinst, hin, hset⟩

/-- RDI as an evaluation sets it: forced, seen since the last one, or held by an input now. -/
def rdiNew (s : State) (i : Nat) : Bool :=
  settingB s sForceRdi (scInst i) || (supInstOf s i).rdiSeen || rdiInput s i

theorem rdiNew_of_inputsKept {i k : Nat} (h : InputsKept i s t) (hk : k ≠ i) :
    rdiNew t k = rdiNew s k := by
  unfold rdiNew settingB
  rw [setting_congr h.settings, h.supInst k hk, h.input]

/-- RDI_EVALUATION's part for one of the parents. -/
def rdiStep (i : Nat) (s : State) : State := holdOffLook i (rdiEvaluate i s)

theorem rdiStep_inputsKept {i : Nat} : InputsKept i s (rdiStep i s) :=
  rdiEvaluate_inputsKept.trans holdOffLook_inputsKept

theorem rdiStep_rdi (i : Nat) : (supInstOf (rdiStep i s) i).rdi = rdiNew s i :=
  (holdOffLook_rdi i).trans (rdiEvaluate_facts i s).1

theorem rdiEvaluation_facts (s : State) : Does .rdiEvaluation s fun t =>
    (supInstOf t 0).rdi = rdiNew s 0 ∧
    (s.act.dual = true → (supInstOf t 1).rdi = rdiNew s 1) := by
  have hx : exec .rdiEvaluation s =
      .next (each rdiStep (if s.act.dual then [0, 1] else [0]) s) := rfl
  refine ⟨_, hx, ?_, only_exec _ hx⟩
  cases hd : s.act.dual with
  | false =>
    rw [if_neg Bool.false_ne_true]
    exact ⟨rdiStep_rdi 0, fun h => Bool.noConfusion h⟩
  | true =>
    rw [if_pos rfl]
    have h1 := rdiStep_inputsKept (s := rdiStep 0 s) (i := 1)
    refine ⟨?_, fun _ => (rdiStep_rdi 1).trans
      (rdiNew_of_inputsKept rdiStep_inputsKept Nat.one_ne_zero)⟩
    exact (congrArg (·.rdi) (h1.supInst 0 Nat.zero_ne_one)).trans (rdiStep_rdi 0)

/-! The slots of the lifetime store (R571). -/

section slots
variable {r k : Nat} {l : Life} {ms : List Bool}

/-- A record whose first write reads back: the ring's next slot moves, and nothing is retired. -/
theorem writeSlot_readsBack (h : (∃ more, ms = false :: more) ∨ ms = []) :
    (writeSlot r ms l).live = l.live ∧ (ringOf (writeSlot r ms l) r).remap = (ringOf l r).remap ∧
    (ringOf (writeSlot r ms l) r).skipped = (ringOf l r).skipped := by
  rcases h with ⟨more, rfl⟩ | rfl <;> unfold writeSlot <;> split <;>
    simp [ringOf, tabGet_mod]

theorem writeSlot_misread (h : nextSlot l r = some k) :
    writeSlot r (true :: ms) l = writeSlot r ms (retireSlot r k l) := by
  rw [writeSlot, h]; rfl

theorem retireSlot_badSlots : (retireSlot r k l).live.badSlots = l.live.badSlots + 1 := by
  unfold retireSlot
  extract_lets spare l1
  split <;> rfl

theorem retireSlot_spare (h : l.spareUsed + slotSize r ≤ 296960) :
    (k, l.spareUsed) ∈ (ringOf (retireSlot r k l) r).remap := by
  unfold retireSlot
  simp [ringOf, tabGet_mod, h]

theorem retireSlot_noSpare (h : 296960 < l.spareUsed + slotSize r) :
    k ∈ (ringOf (retireSlot r k l) r).skipped := by
  unfold retireSlot
  simp [ringOf, tabGet_mod, Nat.not_le.2 h]

/-- A slot that does not read back and is followed by one that does is retired, once. -/
theorem writeSlot_retires (h : nextSlot l r = some k) :
    (writeSlot r (true :: false :: ms) l).live.badSlots = l.live.badSlots + 1 ∧
    (l.spareUsed + slotSize r ≤ 296960 →
      (k, l.spareUsed) ∈ (ringOf (writeSlot r (true :: false :: ms) l) r).remap) ∧
    (296960 < l.spareUsed + slotSize r →
      k ∈ (ringOf (writeSlot r (true :: false :: ms) l) r).skipped) := by
  obtain ⟨hlive, hremap, hskip⟩ :=
    writeSlot_readsBack (r := r) (l := retireSlot r k l) (.inl ⟨ms, rfl⟩)
  rw [writeSlot_misread h, hlive, hremap, hskip]
  exact ⟨retireSlot_badSlots, retireSlot_spare, retireSlot_noSpare⟩

end slots

/-! Bins (R178, R182). -/

theorem checkpoint_sup {g : Bool} : (checkpoint g s).sup = s.sup :=
  only_checkpoint (ps := [.life]) (by decide) (Only.refl s) .sup (by decide)

/-- `c` closes the running bin `b`: its start and its counts (R179). -/
def Closes (b c : Bin) : Prop := (c.start, c.counts) = (b.start, b.counts)

theorem exec_binClose {day : Bool} {ms : List Bool} (hf : s.pwr.st ≠ .fallow)
    (hd : s.pwr.st ≠ .deepFallow) : exec (.binClose day ms) s =
      .next (closeBin day false false false s 0 { s with life := { s.life with misreads := ms } }) :=
  if_neg fun h => h.elim hf hd

theorem closeBin_15 {part step new : Bool} {s0 : State} {tail : Nat} : ∃ c n : Bin,
    Closes s.sup.open15 c ∧ n.counts = [] ∧ closeBin false part step new s0 tail s =
      checkpoint false { s with sup := { s.sup with
        open15 := n, closed15 := (c :: s.sup.closed15).take 96 } } :=
  ⟨_, _, by rfl, by rfl, rfl⟩

theorem closeBin_day {part step new : Bool} {s0 : State} {tail : Nat} : ∃ c n : Bin,
    Closes s.sup.openDay c ∧ n.counts = [] ∧ closeBin true part step new s0 tail s =
      storeDay c { s with sup := { s.sup with
        openDay := n, closedDay := (c :: s.sup.closedDay).take 31 } } :=
  ⟨_, _, by rfl, by rfl, rfl⟩

theorem binClose_15 (hf : s.pwr.st ≠ .fallow) (hd : s.pwr.st ≠ .deepFallow) (ms : List Bool) :
    Does (.binClose false ms) s fun t =>
      t.sup.closed15.length = min 96 (s.sup.closed15.length + 1) ∧
      (t.sup.closed15.head?).map (fun b => (b.start, b.counts)) =
        some (s.sup.open15.start, s.sup.open15.counts) ∧
      t.sup.open15.counts = [] ∧ t.sup.openDay = s.sup.openDay := by
  have hx := exec_binClose (day := false) (ms := ms) hf hd
  obtain ⟨c, n, hc, hn, he⟩ := closeBin_15 (part := false) (step := false) (new := false) (s0 := s)
    (tail := 0) (s := { s with life := { s.life with misreads := ms } })
  rw [he] at hx
  refine ⟨_, hx, ?_, only_exec _ hx⟩
  beta_reduce
  rw [checkpoint_sup]
  exact ⟨List.length_take, congrArg some hc, hn, rfl⟩

theorem storeDay_newest {b : Bin} (h : 0 < ringCap (storeDay b s).life 1) :
    ((storeDay b s).life.dayBins.head?).map (·.bin) = some b := by
  have hb : (storeDay b s).life.dayBins =
      ({ seq := nextSeq (s.life.dayBins.head?.map (·.seq)), bin := b } :: s.life.dayBins).take
        (ringCap (storeDay b s).life 1) := rfl
  rw [hb, List.head?_take, if_neg (Nat.ne_of_gt h)]
  rfl

theorem binClose_day (hf : s.pwr.st ≠ .fallow) (hd : s.pwr.st ≠ .deepFallow) (ms : List Bool) :
    Does (.binClose true ms) s fun t =>
      t.sup.closedDay.length = min 31 (s.sup.closedDay.length + 1) ∧
      (t.sup.closedDay.head?).map (fun b => (b.start, b.counts)) =
        some (s.sup.openDay.start, s.sup.openDay.counts) ∧
      (0 < ringCap t.life 1 → (t.life.dayBins.head?).map (·.bin) = t.sup.closedDay.head?) ∧
      (∀ more, ms = false :: more ∨ ms = [] → t.life.live.badSlots = s.life.live.badSlots) ∧
      (∀ more k, ms = true :: false :: more → nextSlot s.life 1 = some k →
        t.life.live.badSlots = s.life.live.badSlots + 1 ∧
        (s.life.spareUsed + 1024 ≤ 296960 →
          (k, s.life.spareUsed) ∈ (ringOf t.life 1).remap) ∧
        (296960 < s.life.spareUsed + 1024 → k ∈ (ringOf t.life 1).skipped)) ∧
      t.sup.openDay.counts = [] ∧ t.sup.open15 = s.sup.open15 := by
  have hx := exec_binClose (day := true) (ms := ms) hf hd
  obtain ⟨c, n, hc, hn, he⟩ := closeBin_day (part := false) (step := false) (new := false) (s0 := s)
    (tail := 0) (s := { s with life := { s.life with misreads := ms } })
  rw [he] at hx
  refine ⟨_, hx, ⟨List.length_take, congrArg some hc, storeDay_newest, fun more h => ?_,
    fun more k h hk => ?_, hn, rfl⟩, only_exec _ hx⟩
  · exact congrArg (·.badSlots) (writeSlot_readsBack (r := 1)
      (l := { s.life with misreads := ms }) (h.imp_left fun e => ⟨more, e⟩)).1
  · subst h
    exact writeSlot_retires (r := 1) (l := { s.life with misreads := true :: false :: more }) hk

theorem binSecondEnd_facts (s : State) : Does .binSecondEnd s fun t =>
    t.sup.open15.seconds = s.sup.open15.seconds + 1 ∧
    t.sup.openDay.seconds = s.sup.openDay.seconds + 1 ∧ t.sup.closed15 = s.sup.closed15 := by
  obtain ⟨u, ⟨h15, hday, hring⟩, hx⟩ := secondEnd s
  exact ⟨_, hx, ⟨congrArg (· + 1) h15, congrArg (· + 1) hday, hring⟩, only_exec .binSecondEnd hx⟩

/-! GASP_IN (R572, R593). -/

/-- A checkpoint that GASP_IN asks for is never skipped, and bears the present time. -/
theorem checkpoint_gasp : ∃ c : Checkpoint, c.tl = now s ∧ c.era = s.clk.era ∧
    (checkpoint true s).life.checkpoints =
      (c :: s.life.checkpoints).take (ringCap (checkpoint true s).life 0) := by
  unfold checkpoint
  rw [if_neg (by simp)]
  exact ⟨_, rfl, rfl, rfl⟩

theorem gaspInAssert_facts (h : s.pins.inReset = false) : Does .gaspInAssert s fun t =>
    t.pins = { s.pins with gasp := true } ∧
    (0 < ringCap t.life 0 →
      (t.life.checkpoints.head?).map (fun c => (c.tl, c.era)) = some (now s, s.clk.era)) ∧
    t.life.checkpoints.length = min (ringCap t.life 0) (s.life.checkpoints.length + 1) := by
  have hx : exec .gaspInAssert s =
      .next (checkpoint true { s with pins := { s.pins with gasp := true } }) :=
    if_neg (by rw [h]; decide)
  obtain ⟨c, htl, hera, hc⟩ :=
    checkpoint_gasp (s := { s with pins := { s.pins with gasp := true } })
  refine ⟨_, hx, ⟨?_, fun hr => ?_, ?_⟩, only_exec _ hx⟩
  · exact only_checkpoint (ps := [.life]) (by decide) (Only.refl _) .pins (by decide)
  · rw [hc, List.head?_take, if_neg (Nat.ne_of_gt hr)]
    exact congrArg some (Prod.ext htl hera)
  · rw [hc]; exact List.length_take

theorem exec_gaspInAssert_none (h : s.pins.inReset = true) : exec .gaspInAssert s = .next s :=
  if_pos h

/-- Settles O25, row by row. -/
theorem supervisionNotesDefects : Obligations.SupervisionNotesDefects := by
  intro l d s
  exact ⟨losDeclare_facts, losClear_facts, lolDeclare_facts, lolClear_facts, ltmDeclare_facts,
    exec_ltmDeclare_none, rdiEvaluation_facts s, holdOffExpiry_facts, exec_holdOffExpiry_none,
    fun hf hd ms => ⟨binClose_15 hf hd ms, binClose_day hf hd ms⟩, binSecondEnd_facts s,
    gaspInAssert_facts, exec_gaspInAssert_none, ⟨_, rfl, rfl, only_exec .gaspInClear rfl⟩⟩

end Sys2Proof.Machine

/-! PLANT_REPORT (R198, R199). -/

namespace Sys2Proof.Machine
variable {g : Fin 4} {s : State} {d : Delivered} {rest : List Delivered}

/-- The fits of both domains are looked at again, with no window ended (R199). -/
def refit (s : State) : State := each (fun d s => fitLook d none s) [0, 1] s

theorem refit_groups (s : State) : (refit s).groups = s.groups :=
  (fitLook_groups 1 none _).1.trans (fitLook_groups 0 none s).1

theorem refit_toTime (s : State) : (refit s).toTime = s.toTime :=
  (fitLook_groups 1 none _).2.trans (fitLook_groups 0 none s).2

theorem ctrOf_refit {c : CtrId} {a : Nat} (h : ctrKey c a ≠ lostKey) :
    ctrOf (refit s) c a = ctrOf s c a :=
  (ctrOf_fitLook (d := 1) (w := none) h).trans (ctrOf_fitLook (d := 0) (w := none) h)

/-- The report becomes the plant report in force of the group (R198). -/
def storePlant (g : Nat) (bytes : Bytes) (s : State) : State :=
  modGroup g (fun y => { y with plant := some { bytes := bytes } }) s

theorem groupOf_storePlant (g k : Nat) (b : Bytes) (s : State) : groupOf (storePlant g b s) k =
    if k = g then { groupOf s g with plant := some { bytes := b } } else groupOf s k :=
  groupOf_modGroup g k _

theorem exec_plantReport (h : takeLot g s.toTime = some (d, rest)) : exec (.plantReport g) s =
    if plantOk g d { s with toTime := rest } then
      .next (refit (bump cPlantOk (scGroup g) 1 (storePlant g d.bytes { s with toTime := rest })))
    else .next (bump cPlantAuthFail (scGroup g) 1 { s with toTime := rest }) := by
  show execPlantReport g s = _
  rw [execPlantReport, h]
  dsimp only
  cases plantOk g d { s with toTime := rest } <;> rfl

theorem plantReport_stores (h : takeLot g s.toTime = some (d, rest))
    (hok : plantOk g d { s with toTime := rest } = true) : Answers (.plantReport g) s fun t =>
      t.toTime = rest ∧ (groupOf t g).plant = some { bytes := d.bytes } ∧
      (∀ k, k ≠ g.val → groupOf t k = groupOf s k) ∧
      ctrOf t cPlantOk (scGroup g) = ctrAdd (ctrOf s cPlantOk (scGroup g)) 1 ∧
      Only (writes (.plantReport g)) s t := by
  have he := (exec_plantReport h).trans (if_pos hok)
  have hgroup (k : Nat) : groupOf (refit (bump cPlantOk (scGroup g) 1
      (storePlant g d.bytes { s with toTime := rest }))) k =
      if k = g.val then { groupOf s g with plant := some { bytes := d.bytes } }
      else groupOf s k := by
    rw [groupOf, refit_groups, ← groupOf, groupOf_bump, groupOf_storePlant]
    rfl
  refine ⟨_, he, ?_, ?_, fun k hk => (hgroup k).trans (if_neg hk), ?_, only_exec _ he⟩
  · rw [refit_toTime]
    simp only [bump_rest, storePlant, modGroup_rest]
  · rw [hgroup, if_pos rfl]
  · exact (ctrOf_refit (cKey_ne (scGroup_lt g) (by decide))).trans
      (bump_group_counts (by decide)).2.1

theorem plantReport_fails (h : takeLot g s.toTime = some (d, rest))
    (hbad : plantOk g d { s with toTime := rest } = false) : Answers (.plantReport g) s fun t =>
      t.toTime = rest ∧ ctrOf t cPlantAuthFail (scGroup g) =
        ctrAdd (ctrOf s cPlantAuthFail (scGroup g)) 1 ∧ Only (counting ++ [.toTime]) s t := by
  have he := (exec_plantReport h).trans (if_neg (by rw [hbad]; decide))
  refine ⟨_, he, ?_, (bump_group_counts (by decide)).2.1,
    only_bump (by decide) (only_f_toTime (by decide) (Only.refl s))⟩
  simp only [bump_rest]

end Sys2Proof.Machine

/-! MANAGEMENT_LOT (R543, R545). -/

namespace Sys2Proof.Machine
variable {g : Fin 4} {s : State} {d : Delivered} {rest : List Delivered}

theorem scLot_lt (x : BitVec 16) : scLot x.toNat < 67108864 := by
  have hx := x.isLt
  unfold scLot scopeCode
  omega

theorem groupOwner_cases (s : State) (g : Nat) : groupOwner s g = 0 ∨ groupOwner s g = 1 := by
  unfold groupOwner
  split
  · exact .inr rfl
  · exact .inl rfl

/-- A command joins the tail of an instance's queue (R545). -/
def queueMgmt (i : Nat) (m : MgmtCmd) (s : State) : State :=
  modReeve (fun v =>
    if i = 0 then { v with mgmt0 := v.mgmt0 ++ [m] } else { v with mgmt1 := v.mgmt1 ++ [m] }) s

theorem mgmtQueue_queueMgmt {i : Nat} (hi : i = 0 ∨ i = 1) (m : MgmtCmd) (s : State) :
    mgmtQueue (queueMgmt i m s) i = mgmtQueue s i ++ [m] ∧
      mgmtQueue (queueMgmt i m s) (1 - i) = mgmtQueue s (1 - i) := by
  rcases hi with rfl | rfl <;> exact ⟨rfl, rfl⟩

/-- A lot that the Reeve takes passes the checks in this order: its length, the clear lot, the room
in the queue. -/
theorem exec_managementLot (h : takeLot g s.toReeve = some (d, rest)) (hr : reeveRuns s = true)
    (hp : s.pair.st = .solo ∨ s.pair.st = .active) : exec (.managementLot g) s =
      if d.bytes.length < 8 ∨ 1024 < d.bytes.length then
        .next (bump cLenErr (scLot d.lotId.toNat) 1 { s with toReeve := rest })
      else if lifeCycle s = 2 ∧ d.keyIdx = 0 then
        .next (bump cMgmtClear (scInst (groupOwner s g)) 1 { s with toReeve := rest })
      else if 16 ≤ (mgmtQueue s (groupOwner s g)).length then
        .next (bump cMgmtOverflow (scInst (groupOwner s g)) 1 { s with toReeve := rest })
      else .next (queueMgmt (groupOwner s g) ⟨d.lotId, d.keyIdx, d.bytes⟩
        { s with toReeve := rest }) := by
  have hst : (!(s.pair.st == .solo || s.pair.st == .active)) = false := by
    rcases hp with hp | hp <;> rw [hp] <;> rfl
  show execManagementLot g s = _
  rw [execManagementLot, hr, h]
  dsimp only
  rw [hst]
  rfl

/-- A lot that a check turns away is gone and counted, and both queues stand. -/
theorem managementLot_refuses {c : CtrId} {scope : Nat} (hs : scope < 67108864)
    (hc : (c.ch * 32 + c.tbl) * 256 + c.num ≠
      (cEventsLost.ch * 32 + cEventsLost.tbl) * 256 + cEventsLost.num)
    (he : exec (.managementLot g) s = .next (bump c scope 1 { s with toReeve := rest })) :
    Answers (.managementLot g) s fun t => t.toReeve = rest ∧
      ctrOf t c scope = ctrAdd (ctrOf s c scope) 1 ∧
      t.reeve.mgmt0 = s.reeve.mgmt0 ∧ t.reeve.mgmt1 = s.reeve.mgmt1 := by
  refine ⟨_, he, ?_, ?_, bump_mgmt⟩
  · simp only [bump_rest]
  · rw [ctrOf_bump (cKey_ne hs hc) Nat.one_ne_zero, if_pos rfl]
    rfl

theorem managementLot_queues (he : exec (.managementLot g) s = .next
      (queueMgmt (groupOwner s g) ⟨d.lotId, d.keyIdx, d.bytes⟩ { s with toReeve := rest })) :
    Answers (.managementLot g) s fun t => t.toReeve = rest ∧
      mgmtQueue t (groupOwner s g) =
        mgmtQueue s (groupOwner s g) ++ [⟨d.lotId, d.keyIdx, d.bytes⟩] ∧
      mgmtQueue t (1 - groupOwner s g) = mgmtQueue s (1 - groupOwner s g) ∧
      Only [.toReeve, .reeve] s t := by
  obtain ⟨hown, hother⟩ := mgmtQueue_queueMgmt (groupOwner_cases s g)
    ⟨d.lotId, d.keyIdx, d.bytes⟩ { s with toReeve := rest }
  exact ⟨_, he, rfl, hown, hother,
    only_modReeve (by decide) (only_f_toReeve (by decide) (Only.refl s))⟩

/-- Settles O18: a plant report by its TAG, a management lot by its length, its key and the room in
the owner's queue. -/
theorem plantReportsAndManagementLotsAreTaken :
    Obligations.PlantReportsAndManagementLotsAreTaken := by
  intro g s d rest
  refine ⟨fun h => ⟨plantReport_stores h, plantReport_fails h⟩, fun h hr hp => ?_⟩
  have he := exec_managementLot h hr hp
  intro i good clear
  have hlen (hg : good) : ¬ (d.bytes.length < 8 ∨ 1024 < d.bytes.length) :=
    fun hbad => hbad.elim (Nat.not_lt.2 hg.1) (Nat.not_lt.2 hg.2)
  refine ⟨fun hg hc hq => ?_, fun hg => ?_, fun hg hc => ?_, fun hg hc hq => ?_⟩
  · rw [if_neg (hlen hg), if_neg hc, if_neg (Nat.not_le.2 hq)] at he
    exact managementLot_queues he
  · have hbad : d.bytes.length < 8 ∨ 1024 < d.bytes.length :=
      (not_and_or.1 hg).imp Nat.lt_of_not_le Nat.lt_of_not_le
    rw [if_pos hbad] at he
    exact managementLot_refuses (scLot_lt d.lotId) (by decide) he
  · rw [if_neg (hlen hg), if_pos hc] at he
    exact managementLot_refuses (scInst_lt s g) (by decide) he
  · rw [if_neg (hlen hg), if_neg hc, if_pos hq] at he
    exact managementLot_refuses (scInst_lt s g) (by decide) he

end Sys2Proof.Machine

/-! Link states of the server ports (R231-R235). -/

namespace Sys2Proof.Machine
variable {p : Fin 8} {s t u : State}

/-- Every server port but `p` stays. -/
def OthersStay (p : Nat) (s t : State) : Prop := ∀ q, q ≠ p → portOf t q = portOf s q

theorem OthersStay.refl (p : Nat) (s : State) : OthersStay p s s := fun _ _ => rfl

theorem OthersStay.trans {p : Nat} (h : OthersStay p s t) (k : OthersStay p t u) :
    OthersStay p s u := fun q hq => (k q hq).trans (h q hq)

theorem OthersStay.of_ports {p : Nat} (h : t.ports = s.ports) : OthersStay p s t := fun q _ => by
  rw [portOf, h, portOf]

theorem OthersStay.ite {p : Nat} {c : Prop} [Decidable c] (h : OthersStay p s t)
    (k : OthersStay p s u) : OthersStay p s (if c then t else u) := by split <;> assumption

theorem modPort_others (p : Nat) (f : Port → Port) (s : State) : OthersStay p s (modPort p f s) :=
  fun q hq => by rw [portOf_modPort, if_neg hq]

theorem setLink_others (p : Nat) (dest : LinkState) (s : State) :
    OthersStay p s (setLink p dest s) := (setLink_ports p dest s).1

theorem pcsFalse_others (p : Nat) (s : State) : OthersStay p s (pcsFalse p s) :=
  fun q hq => (pcsFalse_ports p q s).1 hq

theorem bump_others (p : Nat) (c : CtrId) (a n : Nat) (s : State) :
    OthersStay p s (bump c a n s) := fun _ _ => portOf_bump

theorem portOf_modPort_own (p : Nat) (f : Port → Port) (s : State) :
    portOf (modPort p f s) p = f (portOf s p) := by rw [portOf_modPort, if_pos rfl]

theorem pcsFalse_hiBer (p : Nat) (s : State) :
    (portOf (pcsFalse p s) p).hiBer = (portOf s p).hiBer := by
  unfold pcsFalse
  dsimp only
  split
  case h_4 => rw [portOf_modPort_own]
  all_goals
    obtain ⟨-, -, -, -, -, hb, -⟩ := setLink_ports p .down (modPort p (fun x => { x with
      pcsUp := false, faultSeen := false, owed := 0,
      rx := x.rx.map (fun r => { r with cut := true }) }) s)
    rw [hb, portOf_modPort_own]

/-! PCS_STATUS_CHANGE (R232, R233). -/

/-- Every lane of the port has block lock. -/
def AllLocked (s : State) (p : Nat) (locks : BitVec 4) : Prop :=
  ∀ i, i < (portLanes s p).length → locks.getLsbD i = true

theorem all_locks_iff {locks : BitVec 4} :
    (List.range (portLanes s p).length).all (fun i => locks.getLsbD i) = true ↔
      AllLocked s p locks := by
  simp only [List.all_eq_true, List.mem_range, AllLocked]

/-- The port with PCS status true and the locks reported. -/
def pcsRisen (p : Nat) (locks : BitVec 4) (s : State) : State :=
  modPort p (fun x => { x with pcsUp := true, hiBer := false, locks := locks }) s

theorem exec_pcsStatusChange_up {locks : BitVec 4} (hl : (portOf s p).link ≠ .disabled)
    (hc : s.clk.hrefclk = true) (ha : AllLocked s p locks) :
    exec (.pcsStatusChange p true locks) s =
      .next (if (portOf s p).link = .down then setLink p .rising (pcsRisen p locks s)
        else pcsRisen p locks s) := by
  show execPcsStatusChange p true locks s = _
  unfold execPcsStatusChange
  dsimp only
  rw [if_neg (by simp only [hl, hc]; decide), all_locks_iff.2 ha]
  rfl

theorem exec_pcsStatusChange_down {up : Bool} {locks : BitVec 4}
    (hl : (portOf s p).link ≠ .disabled) (hc : s.clk.hrefclk = true)
    (hd : up = false ∨ ¬ AllLocked s p locks) :
    exec (.pcsStatusChange p up locks) s = .next (pcsFalse p (modPort p (fun x => { x with
      locks := locks, hiBer := x.hiBer && !up }) s)) := by
  have hnot : ¬ (up && (List.range (portLanes s p).length).all (fun i => locks.getLsbD i)) = true :=
    fun h => by
      obtain ⟨hu, ha⟩ := Bool.and_eq_true _ _ ▸ h
      exact hd.elim (fun h => by rw [hu] at h; cases h) (fun h => h (all_locks_iff.1 ha))
  show execPcsStatusChange p up locks s = _
  unfold execPcsStatusChange
  dsimp only
  rw [if_neg (by simp only [hl, hc]; decide), if_neg hnot]

theorem exec_pcsStatusChange_none {up : Bool} {locks : BitVec 4}
    (h : (portOf s p).link = .disabled ∨ s.clk.hrefclk = false) :
    exec (.pcsStatusChange p up locks) s = .next s :=
  if_pos (h.imp id fun h => by rw [h]; rfl)

theorem pcsStatusChange_rises {locks : BitVec 4} (hl : (portOf s p).link ≠ .disabled)
    (hc : s.clk.hrefclk = true) (ha : AllLocked s p locks) :
    Does (.pcsStatusChange p true locks) s fun t => OthersStay p s t ∧
      (portOf t p).pcsUp = true ∧ (portOf t p).hiBer = false ∧ (portOf t p).locks = locks ∧
      (portOf t p).link =
        if (portOf s p).link = .down then .rising else (portOf s p).link := by
  have he := exec_pcsStatusChange_up hl hc ha
  have hown : portOf (pcsRisen p locks s) p =
      { portOf s p with pcsUp := true, hiBer := false, locks := locks } := portOf_modPort_own _ _ _
  have hothers : OthersStay p s (pcsRisen p locks s) := modPort_others _ _ _
  refine ⟨_, he, ?_, only_exec _ he⟩
  split
  · obtain ⟨-, hlink, hup, -, -, hber, hlocks, -⟩ := setLink_ports p .rising (pcsRisen p locks s)
    exact ⟨hothers.trans (setLink_others _ _ _), by rw [hup, hown], by rw [hber, hown],
      by rw [hlocks, hown], hlink⟩
  · rw [hown]
    exact ⟨hothers, rfl, rfl, rfl, rfl⟩

/-- A port that is not disabled loses its PCS status and is down (R233). -/
theorem pcsFalse_down {f : Port → Port} (hl : (f (portOf s p)).link ≠ .disabled) :
    OthersStay p s (pcsFalse p (modPort p f s)) ∧
      (portOf (pcsFalse p (modPort p f s)) p).pcsUp = false ∧
      (portOf (pcsFalse p (modPort p f s)) p).locks = (f (portOf s p)).locks ∧
      (portOf (pcsFalse p (modPort p f s)) p).hiBer = (f (portOf s p)).hiBer ∧
      (portOf (pcsFalse p (modPort p f s)) p).link = .down := by
  obtain ⟨hup, hlocks, hlink⟩ := (pcsFalse_ports p p (modPort p f s)).2
  have hber := pcsFalse_hiBer p (modPort p f s)
  rw [portOf_modPort_own] at hlocks hlink hber
  exact ⟨(modPort_others p f s).trans (pcsFalse_others p _), hup, hlocks, hber,
    hlink.trans (if_neg hl)⟩

theorem pcsStatusChange_falls {up : Bool} {locks : BitVec 4} (hl : (portOf s p).link ≠ .disabled)
    (hc : s.clk.hrefclk = true) (hd : up = false ∨ ¬ AllLocked s p locks) :
    Does (.pcsStatusChange p up locks) s fun t => OthersStay p s t ∧
      (portOf t p).pcsUp = false ∧ (portOf t p).locks = locks ∧ (portOf t p).link = .down := by
  have he := exec_pcsStatusChange_down hl hc hd
  obtain ⟨hothers, hup, hlocks, -, hlink⟩ := pcsFalse_down (p := p) (s := s)
    (f := fun x => { x with locks := locks, hiBer := x.hiBer && !up }) hl
  exact ⟨_, he, ⟨hothers, hup, hlocks, hlink⟩, only_exec _ he⟩

/-! LINK_UP_DELAY_EXPIRY and the fault ordered sets (Table 8-3). -/

/-- The three ways in which RISING or FAULT may end in UP. -/
theorem linkUpLook_port (p : Nat) (s : State) : OthersStay p s (linkUpLook p s) ∧
    (portOf (linkUpLook p s) p).faultSeen = (portOf s p).faultSeen ∧
    (portOf (linkUpLook p s) p).link =
      if (portOf s p).pcsUp = true ∧ (portOf s p).faultSeen = false ∧
        ((portOf s p).link = .fault ∨ (portOf s p).link = .rising ∧ (portOf s p).delayDone = true)
      then .up else (portOf s p).link := by
  unfold linkUpLook
  simp only [Bool.and_eq_true, Bool.or_eq_true, beq_iff_eq, Bool.not_eq_true', and_assoc]
  split
  · obtain ⟨hothers, hlink, -, hseen, -⟩ := setLink_ports p .up s
    exact ⟨hothers, hseen, hlink⟩
  · exact ⟨OthersStay.refl _ _, rfl, rfl⟩

theorem exec_linkUpDelayExpiry (h : (portOf s p).link = .rising) : exec (.linkUpDelayExpiry p) s =
    .next (linkUpLook p (modPort p (fun x => { x with delayDone := true }) s)) := if_pos h

theorem exec_linkUpDelayExpiry_none (h : (portOf s p).link ≠ .rising) :
    exec (.linkUpDelayExpiry p) s = .next s := if_neg h

theorem linkUpDelayExpiry_facts (h : (portOf s p).link = .rising) :
    Does (.linkUpDelayExpiry p) s fun t => OthersStay p s t ∧ (portOf t p).link =
      if (portOf s p).pcsUp = true ∧ (portOf s p).faultSeen = false then .up else .rising := by
  have he := exec_linkUpDelayExpiry h
  obtain ⟨hothers, -, hlink⟩ :=
    linkUpLook_port p (modPort p (fun x => { x with delayDone := true }) s)
  refine ⟨_, he, ⟨(modPort_others _ _ _).trans hothers, ?_⟩, only_exec _ he⟩
  rw [hlink, portOf_modPort_own]
  simp only [h, and_true, or_true]

/-- The port has met a fault ordered set. -/
def faultNoted (p : Nat) (remote : Bool) (s : State) : State :=
  modPort p (fun x => { x with faultSeen := true, remoteFault := remote }) s

theorem exec_faultOrderedSetRx {remote : Bool} (hl : (portOf s p).link ≠ .disabled)
    (hu : (portOf s p).pcsUp = true) : exec (.faultOrderedSetRx p remote) s =
      .next (if (portOf s p).link = .up then setLink p .fault (faultNoted p remote s)
        else faultNoted p remote s) := if_neg (by simp only [hl, hu]; decide)

theorem faultOrderedSetRx_facts {remote : Bool} (hl : (portOf s p).link ≠ .disabled)
    (hu : (portOf s p).pcsUp = true) : Does (.faultOrderedSetRx p remote) s fun t =>
      OthersStay p s t ∧ (portOf t p).faultSeen = true ∧ (portOf t p).remoteFault = remote ∧
      (portOf t p).link = (if (portOf s p).link = .up then .fault else (portOf s p).link) ∧
      ((portOf s p).link = .up → (portOf t p).timeQ = []) := by
  have he := exec_faultOrderedSetRx (remote := remote) hl hu
  have hown : portOf (faultNoted p remote s) p =
      { portOf s p with faultSeen := true, remoteFault := remote } := portOf_modPort_own _ _ _
  have hothers : OthersStay p s (faultNoted p remote s) := modPort_others _ _ _
  refine ⟨_, he, ?_, only_exec _ he⟩
  split
  · next hup =>
    obtain ⟨-, hlink, -, hseen, hremote, -, -, hq⟩ := setLink_ports p .fault (faultNoted p remote s)
    exact ⟨hothers.trans (setLink_others _ _ _), by rw [hseen, hown], by rw [hremote, hown], hlink,
      fun _ => hq (by rw [hown]; exact hup) (by decide)⟩
  · next hup =>
    rw [hown]
    exact ⟨hothers, rfl, rfl, rfl, fun h => absurd h hup⟩

theorem faultCleared_facts : Does (.faultCleared p) s fun t => OthersStay p s t ∧
    (portOf t p).faultSeen = false ∧
    ((portOf s p).link = .fault → (portOf s p).pcsUp = true → (portOf t p).link = .up) ∧
    ((portOf s p).link = .down ∨ (portOf s p).link = .disabled →
      (portOf t p).link = (portOf s p).link) := by
  have he : exec (.faultCleared p) s =
    .next (linkUpLook p (modPort p (fun x => { x with faultSeen := false }) s)) := rfl
  obtain ⟨hothers, hseen, hlink⟩ :=
    linkUpLook_port p (modPort p (fun x => { x with faultSeen := false }) s)
  rw [portOf_modPort_own] at hseen hlink
  refine ⟨_, he, ⟨(modPort_others _ _ _).trans hothers, hseen, fun hf hu => ?_, fun hd => ?_⟩,
    only_exec _ he⟩
  · exact hlink.trans (if_pos ⟨hu, rfl, .inl hf⟩)
  · refine hlink.trans (if_neg fun h => ?_)
    rcases hd with hd | hd <;> simp [hd] at h

/-! BLOCK_LOCK_LOSS and HI_BER (R234), PAUSE_EXPIRY (R242). -/

theorem exec_blockLockLoss {l : Fin 4} (hl : (portOf s p).link ≠ .disabled)
    (hn : l.val < (portLanes s p).length) (hk : (portOf s p).locks.getLsbD l = true) :
    exec (.blockLockLoss p l) s = .next (pcsFalse p (bump cBlockLockLoss (scPort p) 1
      (modPort p (fun x => { x with locks := x.locks &&& ~~~(1#4 <<< l.val) }) s))) :=
  if_neg (by simp only [hl, hk, Nat.not_le.2 hn]; decide)

theorem blockLockLoss_facts {l : Fin 4} (hl : (portOf s p).link ≠ .disabled)
    (hn : l.val < (portLanes s p).length) (hk : (portOf s p).locks.getLsbD l = true) :
    Does (.blockLockLoss p l) s fun t => OthersStay p s t ∧
      (portOf t p).locks = (portOf s p).locks &&& ~~~(1#4 <<< l.val) ∧
      (portOf t p).pcsUp = false ∧ (portOf t p).link = .down := by
  have he := exec_blockLockLoss hl hn hk
  obtain ⟨hup, hlocks, hlink⟩ := (pcsFalse_ports p p (bump cBlockLockLoss (scPort p) 1
      (modPort p (fun x => { x with locks := x.locks &&& ~~~(1#4 <<< l.val) }) s))).2
  rw [portOf_bump, portOf_modPort_own] at hlocks hlink
  exact ⟨_, he, ⟨((modPort_others _ _ _).trans (bump_others _ _ _ _ _)).trans
    (pcsFalse_others _ _), hlocks, hup, hlink.trans (if_neg hl)⟩, only_exec _ he⟩

theorem exec_hiBer (hl : (portOf s p).link ≠ .disabled) : exec (.hiBer p) s =
    .next (pcsFalse p (bump cHiBer (scPort p) 1
      (modPort p (fun x => { x with hiBer := true }) s))) := if_neg hl

theorem exec_hiBer_none (hl : (portOf s p).link = .disabled) : exec (.hiBer p) s = .next s :=
  if_pos hl

theorem hiBer_facts (hl : (portOf s p).link ≠ .disabled) : Does (.hiBer p) s fun t =>
    OthersStay p s t ∧ (portOf t p).hiBer = true ∧ (portOf t p).pcsUp = false ∧
    (portOf t p).link = .down := by
  have he := exec_hiBer hl
  obtain ⟨hup, -, hlink⟩ := (pcsFalse_ports p p (bump cHiBer (scPort p) 1
      (modPort p (fun x => { x with hiBer := true }) s))).2
  have hber := pcsFalse_hiBer p (bump cHiBer (scPort p) 1
      (modPort p (fun x => { x with hiBer := true }) s))
  rw [portOf_bump, portOf_modPort_own] at hlink hber
  exact ⟨_, he, ⟨((modPort_others _ _ _).trans (bump_others _ _ _ _ _)).trans
    (pcsFalse_others _ _), hber, hup, hlink.trans (if_neg hl)⟩, only_exec _ he⟩

theorem pauseExpiry_facts : Does (.pauseExpiry p) s fun t => OthersStay p s t ∧
    portOf t p = { portOf s p with pauseUntil := none } := by
  have he : exec (.pauseExpiry p) s =
    .next (modPort p (fun x => { x with pauseUntil := none }) s) := rfl
  exact ⟨_, he, ⟨modPort_others _ _ _, portOf_modPort_own _ _ _⟩, only_exec _ he⟩

end Sys2Proof.Machine

/-! RX_FRAME_START (R237, R244, R391, R392) and the equaliser of a server lane (R226). -/

namespace Sys2Proof.Machine
variable {p : Fin 8} {s : State}

/-- The receiver that a frame's first byte opens: the filters, default and limit then in force. -/
def rxOpened (s : State) (p : Nat) (cap : BitVec 64) : RxState :=
  let x := portOf s p
  { capture := cap, filters := x.filters, defaultDrop := x.defaultDrop,
    defaultClass := x.defaultClass, maxFrame := maxFrame s p,
    bushels := bit (floorOk s && !s.pwr.intakeStopped),
    noBuf := !floorOk s && !s.pwr.intakeStopped, begun := now s, refused := s.pwr.intakeStopped }

/-- The port holds that receiver; a capture on the FIO has drawn a free value. -/
def rxStarted (p : Nat) (capture : BitVec 64) (s : State) : State :=
  modPort p (fun x => { x with rx := some (rxOpened s p (rxCapture capture s).1) })
    (rxCapture capture s).2

theorem exec_rxFrameStart {capture : BitVec 64} (hl : (portOf s p).link ≠ .disabled)
    (hu : (portOf s p).pcsUp = true) (hr : (portOf s p).rx = none) :
    exec (.rxFrameStart p capture) s = .next (if s.pwr.intakeStopped then rxStarted p capture s
      else if floorOk s then takeBushels 1 (rxStarted p capture s)
      else bump cFloorDrop scDevice 1 (rxStarted p capture s)) :=
  if_neg (by simp only [hl, hu, hr]; decide)

theorem exec_rxFrameStart_none {capture : BitVec 64} (h : (portOf s p).link = .disabled ∨
    (portOf s p).pcsUp = false ∨ (portOf s p).rx ≠ none) :
    exec (.rxFrameStart p capture) s = .next s :=
  if_pos (h.imp id (Or.imp (fun h => by rw [h]; rfl) Option.isSome_iff_ne_none.2))

theorem rxCapture_rest (capture : BitVec 64) (s : State) :
    (rxCapture capture s).2.ports = s.ports ∧ (rxCapture capture s).2.qos = s.qos := by
  unfold rxCapture
  split <;> exact ⟨rfl, rfl⟩

theorem rxCapture_offFio (capture : BitVec 64) (h : s.clk.onFio = false) :
    (rxCapture capture s).1 = capture := by
  unfold rxCapture
  rw [h]
  rfl

theorem rxStarted_port (capture : BitVec 64) : OthersStay p s (rxStarted p capture s) ∧
    (portOf (rxStarted p capture s) p).rx = some (rxOpened s p (rxCapture capture s).1) ∧
    (rxStarted p capture s).qos = s.qos := by
  obtain ⟨hports, hqos⟩ := rxCapture_rest capture s
  refine ⟨(OthersStay.of_ports hports).trans (modPort_others _ _ _), ?_, hqos⟩
  rw [rxStarted, portOf_modPort_own]

theorem rxFrameStart_facts {capture : BitVec 64} (hl : (portOf s p).link ≠ .disabled)
    (hu : (portOf s p).pcsUp = true) (hr : (portOf s p).rx = none) :
    Does (.rxFrameStart p capture) s fun t => OthersStay p s t ∧
      (portOf t p).rx = some (rxOpened s p (rxCapture capture s).1) ∧
      t.qos.free = if floorOk s = true ∧ s.pwr.intakeStopped = false then s.qos.free - 1
        else s.qos.free := by
  have he := exec_rxFrameStart (capture := capture) hl hu hr
  obtain ⟨hothers, hrx, hqos⟩ := rxStarted_port (p := p) (s := s) capture
  refine ⟨_, he, ?_, only_exec _ he⟩
  cases hs : s.pwr.intakeStopped
  case true =>
    rw [if_pos rfl, if_neg (by simp)]
    exact ⟨hothers, hrx, congrArg Qos.free hqos⟩
  case false =>
    rw [if_neg Bool.false_ne_true]
    cases hf : floorOk s
    case true =>
      rw [if_pos rfl, if_pos ⟨rfl, rfl⟩]
      exact ⟨hothers, hrx, congrArg (fun q : Qos => q.free - 1) hqos⟩
    case false =>
      rw [if_neg Bool.false_ne_true, if_neg (by simp)]
      exact ⟨hothers.trans (bump_others _ _ _ _ _), (congrArg Port.rx portOf_bump).trans hrx,
        congrArg Qos.free (bump_qos.trans hqos)⟩

theorem exec_slCtleAdapt {l : Fin 8} {up : Bool}
    (hm : setting s sSlCtleMode (scSlane l) = 1)
    (hk : (portOf s (lanePort s l).1).locks.getLsbD (lanePort s l).2 = true)
    (hhi : up = true → (slaneOf s l).code < settingN s sSlAdaptMax (scSlane l))
    (hlo : up = false → settingN s sSlAdaptMin (scSlane l) < (slaneOf s l).code) :
    exec (.slCtleAdapt l up) s = .next (modSLane l (fun x => { x with
      code := if up then (slaneOf s l).code + 1 else (slaneOf s l).code - 1 }) s) := by
  have hroom : (if up then decide ((slaneOf s l).code < settingN s sSlAdaptMax (scSlane l))
      else decide (settingN s sSlAdaptMin (scSlane l) < (slaneOf s l).code)) = true := by
    cases up
    · exact decide_eq_true (hlo rfl)
    · exact decide_eq_true (hhi rfl)
  show execSlCtleAdapt l up s = _
  unfold execSlCtleAdapt
  dsimp only
  rw [hm, hk, hroom]
  rfl

theorem slCtleAdapt_facts {l : Fin 8} {up : Bool}
    (hm : setting s sSlCtleMode (scSlane l) = 1)
    (hk : (portOf s (lanePort s l).1).locks.getLsbD (lanePort s l).2 = true)
    (hhi : up = true → (slaneOf s l).code < settingN s sSlAdaptMax (scSlane l))
    (hlo : up = false → settingN s sSlAdaptMin (scSlane l) < (slaneOf s l).code) :
    Does (.slCtleAdapt l up) s fun t =>
      (slaneOf t l).code = (if up then (slaneOf s l).code + 1 else (slaneOf s l).code - 1) ∧
      ∀ k, k ≠ l.val → slaneOf t k = slaneOf s k := by
  have he := exec_slCtleAdapt hm hk hhi hlo
  refine ⟨_, he, ⟨?_, fun k hk => ?_⟩, only_exec _ he⟩
  · rw [slaneOf_modSLane, if_pos rfl]
  · rw [slaneOf_modSLane, if_neg hk]

/-- Settles O27, row by row. -/
theorem portsFollowTheirLinks : Obligations.PortsFollowTheirLinks := by
  intro p s
  refine ⟨fun hl hc locks => ⟨pcsStatusChange_rises hl hc, fun _ => pcsStatusChange_falls hl hc⟩,
    fun h _ _ => exec_pcsStatusChange_none h, linkUpDelayExpiry_facts, exec_linkUpDelayExpiry_none,
    fun hl hu _ => faultOrderedSetRx_facts hl hu, faultCleared_facts,
    fun _ => blockLockLoss_facts, hiBer_facts, exec_hiBer_none, pauseExpiry_facts,
    fun capture => ⟨fun hl hu hr => ?_, exec_rxFrameStart_none⟩, fun _ _ => slCtleAdapt_facts⟩
  obtain ⟨t, he, ⟨hothers, hrx, hfree⟩, ho⟩ := rxFrameStart_facts (capture := capture) hl hu hr
  exact ⟨t, he, ⟨hothers, ⟨_, hrx, rxCapture_offFio capture, rfl, rfl, rfl, rfl, rfl, rfl, rfl⟩,
    hfree⟩, ho⟩

end Sys2Proof.Machine

/-! A received frame leaves the receiver (R228, R236-R239, R391). -/

namespace Sys2Proof.Machine
variable {p : Fin 8} {f : RxFrame} {r : RxState} {s t u : State}

theorem settingB_congr (h : t.settings = s.settings) (q : SSpec) (a : Nat) :
    settingB t q a = settingB s q a := by
  unfold settingB
  rw [setting_congr h]

theorem timeOnly_congr (h : t.settings = s.settings) (hp : t.pair = s.pair) :
    timeOnly t = timeOnly s := by
  unfold timeOnly
  rw [hp, settingB_congr h]

theorem RxStays.refl (s : State) : RxStays s s := ⟨rfl, rfl, rfl, rfl, rfl⟩

theorem RxStays.trans (h : RxStays s t) (k : RxStays t u) : RxStays s u := by
  obtain ⟨h1, h2, h3, h4, h5⟩ := h
  obtain ⟨k1, k2, k3, k4, k5⟩ := k
  exact ⟨k1.trans h1, k2.trans h2, k3.trans h3, k4.trans h4, k5.trans h5⟩

theorem RxStays.settings (h : RxStays s t) : t.settings = s.settings := by
  obtain ⟨-, -, hset, -, -⟩ := h
  exact hset

theorem RxStays.pair (h : RxStays s t) : t.pair = s.pair := by
  obtain ⟨-, -, -, -, hpair⟩ := h
  exact hpair

/-- The columns of the gap before the frame that its port still owes. -/
def rxOwing (p : Nat) (f : RxFrame) (s : State) : Nat :=
  let asked := (portOf s p).owed + f.idleDeleted
  asked - min asked (deletable f)

theorem rxNoted_stays (p : Nat) (f : RxFrame) (s : State) :
    RxStays (modPort p (fun x => { x with owed := rxOwing p f s }) s) (rxNoted p f s) :=
  rx_bump (rx_bump (rx_bump (rx_bump (rx_bump (rx_bump (RxStays.refl _))))))

/-- The state in which a frame ends: an enabled port has noted what its receiver met. -/
def rxMet (p : Nat) (f : RxFrame) (s : State) : State :=
  if (portOf s p).link = .disabled then s else rxNoted p f s

/-- Of its port, what the receiver has met changes at most the columns owed. -/
theorem rxMet_port (p : Nat) (f : RxFrame) (s : State) : OthersStay p s (rxMet p f s) ∧
    { portOf (rxMet p f s) p with owed := (portOf s p).owed } = portOf s p := by
  unfold rxMet
  split
  · exact ⟨OthersStay.refl _ _, rfl⟩
  · have hports := (rxNoted_stays p f s).1
    refine ⟨(modPort_others _ _ _).trans (OthersStay.of_ports hports), ?_⟩
    rw [portOf, hports, ← portOf, portOf_modPort_own]

theorem rxMet_rest (p : Nat) (f : RxFrame) (s : State) : (rxMet p f s).inQ = s.inQ ∧
    (rxMet p f s).settings = s.settings ∧ (rxMet p f s).pair = s.pair ∧
    (rxMet p f s).qos = s.qos := by
  unfold rxMet
  split
  · exact ⟨rfl, rfl, rfl, rfl⟩
  · obtain ⟨-, hinQ, hset, -, hpair⟩ := rxNoted_stays p f s
    refine ⟨hinQ, hset, hpair, ?_⟩
    unfold rxNoted
    simp only [bump_rest, modPort_rest]

theorem rxMet_rx (p : Nat) (f : RxFrame) (s : State) :
    (portOf (rxMet p f s) p).rx = (portOf s p).rx := (congrArg Port.rx (rxMet_port p f s).2 :)

/-- The frame has ended: its port is as it was but for the receiver and the columns owed. -/
def RxEnded (p : Nat) (s t : State) : Prop := OthersStay p s t ∧
  { portOf t p with owed := (portOf s p).owed } = { portOf s p with rx := none }

/-- The frame has left the receiver, and no other command has yet run. -/
def RxLeft (p : Nat) (f : RxFrame) (s t : State) : Prop :=
  RxStays (modPort p (fun x => { x with rx := none }) (rxMet p f s)) t

theorem RxLeft.ended {p : Nat} (h : RxLeft p f s t) : RxEnded p s t ∧ t.inQ = s.inQ := by
  obtain ⟨hports, hinQ, -⟩ := h
  obtain ⟨hothers, hown⟩ := rxMet_port p f s
  refine ⟨⟨hothers.trans ((modPort_others _ _ _).trans (OthersStay.of_ports hports)), ?_⟩,
    hinQ.trans (rxMet_rest p f s).1⟩
  rw [portOf, hports, ← portOf, portOf_modPort_own]
  exact congrArg (fun x : Port => { x with rx := none }) hown

theorem RxLeft.settings {p : Nat} (h : RxLeft p f s t) : t.settings = s.settings :=
  (RxStays.settings h).trans (rxMet_rest p f s).2.1

theorem RxLeft.pair {p : Nat} (h : RxLeft p f s t) : t.pair = s.pair :=
  (RxStays.pair h).trans (rxMet_rest p f s).2.2.1

theorem rxTaken_left (p : Nat) (f : RxFrame) (r : RxState) (s : State) :
    RxLeft p f s (rxTaken p f r (rxMet p f s)).2 := (rxTaken_facts p f r (rxMet p f s)).1

/-- A receiver that wants no more than it holds and the pool has free takes what it wants. -/
theorem rxBushels_enough {n : Nat} (hb : r.noBuf = false) (hr : r.refused = false)
    (h : max 1 (bushelsOf (min n (r.maxFrame + 1))) ≤ r.bushels + s.qos.free) :
    (rxBushels r n s).1 =
      { r with bushels := max r.bushels (max 1 (bushelsOf (min n (r.maxFrame + 1)))) } := by
  unfold rxBushels takeUpTo
  rw [hb, hr, if_neg (by decide), if_neg (by omega)]

theorem rxTaken_enough {p : Nat} (hb : r.noBuf = false) (hr : r.refused = false)
    (h : max 1 (bushelsOf (min f.bytes.length (r.maxFrame + 1))) ≤ r.bushels + s.qos.free) :
    (rxTaken p f r s).1 =
      { r with bushels := max 1 (bushelsOf (min f.bytes.length (r.maxFrame + 1))) } := by
  unfold rxTaken
  dsimp only
  rw [rxBushels_enough hb hr (by rw [bump_qos]; exact h)]
  dsimp only
  rw [min_eq_right (le_max_right _ _)]

/-! RX_FRAME_END (R237, R239, R254). -/

theorem rxGood_iff : rxGood r f = true ↔
    f.blockErrs = 0 ∧ f.fecUncorrectable = 0 ∧ r.cut = false ∧ fcsOk f.bytes = true := by
  simp only [rxGood, Bool.and_eq_true, beq_iff_eq, Bool.not_eq_true', and_assoc]

/-- The checks of a frame that ends, in their order: too long, too short, in error. -/
def rxJudged (p : Nat) (f : RxFrame) (r0 r : RxState) (s : State) : State :=
  let sc := scPort p
  let n := f.bytes.length
  let good := rxGood r0 f
  if r.maxFrame < n then
    bump (if good then cRxOversize else cRxJabber) sc 1 (rxRelease r s)
  else if n < 64 then
    if n = 0 then rxRelease r s
    else bump (if good then cRxRunt else cRxFragment) sc 1 (rxRelease r s)
  else
    let s5 := bump (cRx64 (sizeBin n)) sc 1 s
    if good then acceptFrame p r f.bytes s5 else bump cRxFcsErr sc 1 (rxRelease r s5)

theorem exec_rxFrameEnd (h : (portOf s p).rx = some r) : exec (.rxFrameEnd p f) s =
    .next (rxJudged p f r (rxTaken p f r (rxMet p f s)).1 (rxTaken p f r (rxMet p f s)).2) := by
  have hrx := (rxMet_rx p f s).trans h
  show execRxFrameEnd p f s = _
  unfold execRxFrameEnd
  dsimp only
  rw [← rxMet, hrx]
  dsimp only
  unfold rxJudged
  dsimp only
  split
  · rfl
  · split <;> rfl

theorem exec_rxFrameEnd_none (h : (portOf s p).rx = none) :
    exec (.rxFrameEnd p f) s = .next (rxMet p f s) := by
  have hrx := (rxMet_rx p f s).trans h
  show execRxFrameEnd p f s = _
  unfold execRxFrameEnd
  dsimp only
  rw [← rxMet, hrx]

theorem rxJudged_bad {p : Nat} {r0 : RxState} (h : r.maxFrame < f.bytes.length ∨
    f.bytes.length < 64 ∨ ¬ rxGood r0 f = true) : RxStays s (rxJudged p f r0 r s) := by
  have hfree : RxStays s (rxRelease r s) := rx_release (RxStays.refl s)
  unfold rxJudged
  dsimp only
  split
  · exact rx_bump hfree
  · next hlong =>
    split
    · exact rx_ite hfree (rx_bump hfree)
    · next hshort =>
      rw [if_neg ((h.resolve_left hlong).resolve_left hshort)]
      exact rx_bump (rx_release (rx_bump (RxStays.refl s)))

theorem rxJudged_good {p : Nat} {r0 : RxState} (hlong : f.bytes.length ≤ r.maxFrame)
    (hshort : 64 ≤ f.bytes.length) (hg : rxGood r0 f = true) : rxJudged p f r0 r s =
      acceptFrame p r f.bytes (bump (cRx64 (sizeBin f.bytes.length)) (scPort p) 1 s) := by
  unfold rxJudged
  dsimp only
  rw [if_neg (Nat.not_lt.2 hlong), if_neg (Nat.not_lt.2 hshort), if_pos hg]

theorem rxFrameEnd_bad (h : (portOf s p).rx = some r)
    (hbad : r.maxFrame < f.bytes.length ∨ f.bytes.length < 64 ∨ ¬ rxGood r f = true) :
    Does (.rxFrameEnd p f) s fun t => RxEnded p s t ∧ t.inQ = s.inQ := by
  have he := exec_rxFrameEnd (f := f) h
  have hlim := (rxTaken_facts p f r (rxMet p f s)).2.1
  have hleft := (rxTaken_left p f r s).trans (rxJudged_bad (p := p) (r0 := r)
    (r := (rxTaken p f r (rxMet p f s)).1) (f := f) (by rw [hlim]; exact hbad))
  exact ⟨_, he, RxLeft.ended hleft, only_exec _ he⟩

/-! Frames of the first row of Table 8-4 (R242, R243, R246). -/

/-- A frame that reaches `acceptFrame`, with what has been counted of it. -/
theorem exec_rxFrameEnd_good (h : (portOf s p).rx = some r) (hshort : 64 ≤ f.bytes.length)
    (hlong : f.bytes.length ≤ r.maxFrame) (hg : rxGood r f = true) :
    ∃ u, RxLeft p f s u ∧ exec (.rxFrameEnd p f) s =
      .next (acceptFrame p (rxTaken p f r (rxMet p f s)).1 f.bytes u) := by
  refine ⟨bump (cRx64 (sizeBin f.bytes.length)) (scPort p) 1 (rxTaken p f r (rxMet p f s)).2,
    rx_bump (rxTaken_left p f r s), (exec_rxFrameEnd h).trans ?_⟩
  rw [rxJudged_good (by rw [(rxTaken_facts p f r (rxMet p f s)).2.1]; exact hlong) hshort hg]

/-- What a PAUSE of `n` leaves: with no frame being sent the pause runs, else it waits. -/
theorem takePause_port (p n : Nat) (s : State) : OthersStay p s (takePause p n s) ∧
    (takePause p n s).inQ = s.inQ ∧ (portOf (takePause p n s) p).rx = (portOf s p).rx ∧
    ((portOf s p).tx = none → n ≠ 0 → (portOf (takePause p n s) p).pauseUntil.isSome = true) ∧
    ((portOf s p).tx ≠ none → (portOf (takePause p n s) p).pauseNext = some n) := by
  unfold takePause startPause
  split
  · next htx =>
    rw [portOf_modPort_own]
    exact ⟨modPort_others _ _ _, rfl, rfl, fun h => by simp [h] at htx, fun _ => rfl⟩
  · next htx =>
    rw [portOf_modPort_own]
    refine ⟨modPort_others _ _ _, rfl, rfl, fun _ hn => ?_, fun h => ?_⟩
    · dsimp only
      rw [if_neg hn]
      rfl
    · exact absurd (Option.isSome_iff_ne_none.2 h) htx

/-- A frame without an error has been counted, whatever it holds. -/
def rxCounted (p : Nat) (b : Bytes) (s : State) : State :=
  bump cRxFramesOk (scPort p) 1 (bump cRxOctetsOk (scPort p) b.length s)

theorem rxCounted_stays (p : Nat) (b : Bytes) (s : State) : RxStays s (rxCounted p b s) :=
  rx_bump (rx_bump (RxStays.refl s))

theorem acceptFrame_control {p : Nat} {b : Bytes} (h : field b 12 2 = 0x8808) :
    ∃ v, RxStays s v ∧ acceptFrame p r b s =
      if field b 14 2 = 1 ∧ settingB s sPauseRx (scPort p) = true then takePause p (field b 16 2) v
      else v := by
  refine ⟨bump cRxPause (scPort p) 1 (rxRelease r (rxCounted p b s)),
    rx_bump (rx_release (rxCounted_stays p b s)), ?_⟩
  unfold acceptFrame
  dsimp only
  rw [if_pos h, ← rxCounted]

theorem rxFrameEnd_control (h : (portOf s p).rx = some r) (hshort : 64 ≤ f.bytes.length)
    (hlong : f.bytes.length ≤ r.maxFrame) (hg : rxGood r f = true)
    (hc : field f.bytes 12 2 = 0x8808) : Does (.rxFrameEnd p f) s fun t =>
      OthersStay p s t ∧ t.inQ = s.inQ ∧ (portOf t p).rx = none ∧
      (field f.bytes 14 2 = 1 → settingB s sPauseRx (scPort p) = true → field f.bytes 16 2 ≠ 0 →
        ((portOf s p).tx = none → (portOf t p).pauseUntil.isSome = true) ∧
        ((portOf s p).tx ≠ none → (portOf t p).pauseNext = some (field f.bytes 16 2))) := by
  obtain ⟨u, hu, he⟩ := exec_rxFrameEnd_good h hshort hlong hg
  obtain ⟨v, hv, hacc⟩ := acceptFrame_control (p := p)
    (r := (rxTaken p f r (rxMet p f s)).1) (s := u) hc
  rw [hacc, settingB_congr hu.settings] at he
  obtain ⟨⟨hothers, hown⟩, hinQ⟩ := RxLeft.ended (hu.trans hv)
  have hrx : (portOf v p).rx = none := (congrArg Port.rx hown :)
  have htx : (portOf v p).tx = (portOf s p).tx := (congrArg Port.tx hown :)
  refine ⟨_, he, ?_, only_exec _ he⟩
  obtain ⟨hpothers, hpinQ, hprx, hruns, hwaits⟩ := takePause_port p (field f.bytes 16 2) v
  rw [htx] at hruns hwaits
  split
  · exact ⟨hothers.trans hpothers, hpinQ.trans hinQ, hprx.trans hrx,
      fun _ _ hn => ⟨fun h => hruns h hn, hwaits⟩⟩
  · next hnot => exact ⟨hothers, hinQ, hrx, fun h1 h2 => absurd ⟨h1, h2⟩ hnot⟩

/-- The packet that a frame of a server port becomes. -/
def rxPacket (p : Nat) (r : RxState) (b : Bytes) : InPkt :=
  { line := false, port := p, group := 0, lotId := 0, label := 0, cls := r.defaultClass, bytes := b,
    fcsKept := true, bushels := r.bushels, capture := r.capture }

theorem filterFrame_default {p : Nat} {b : Bytes} (hf : filterFind s p b 0 r.filters = none)
    (hd : r.defaultDrop = false) (hr : r.refused = false) (hb : r.noBuf = false) :
    filterFrame p r b s = { s with inQ := s.inQ ++ [rxPacket p r b] } := by
  unfold filterFrame
  rw [hf]
  dsimp only
  rw [hd, hr, hb]
  rfl

theorem acceptFrame_data {p : Nat} {b : Bytes} (hc : field b 12 2 ≠ 0x8808)
    (hclaim : claimFrame p (b.take (b.length - 4))
      (tlAdd r.capture (-(setting s sTsBoardRx (scPort p)))) s = none)
    (ht : timeOnly s = false) (hf : filterFind s p b 0 r.filters = none)
    (hd : r.defaultDrop = false) (hr : r.refused = false) (hb : r.noBuf = false) :
    ∃ v, RxStays s v ∧ acceptFrame p r b s = { v with inQ := v.inQ ++ [rxPacket p r b] } := by
  have hcount := rxCounted_stays p b s
  have hv : RxStays s (bump (typeCtr true b) (scPort p) 1 (rxCounted p b s)) := rx_bump hcount
  refine ⟨_, hv, ?_⟩
  unfold acceptFrame
  dsimp only
  rw [if_neg hc, ← rxCounted, claimFrame_none hcount.settings hcount.pair hclaim]
  dsimp only
  rw [ht, if_neg Bool.false_ne_true,
    filterFrame_default (by rw [filterFind_congr hv.settings]; exact hf) hd hr hb]

theorem rxFrameEnd_data (h : (portOf s p).rx = some r) (hshort : 64 ≤ f.bytes.length)
    (hlong : f.bytes.length ≤ r.maxFrame) (hg : rxGood r f = true)
    (hc : field f.bytes 12 2 ≠ 0x8808)
    (hclaim : claimFrame p (f.bytes.take (f.bytes.length - 4))
      (tlAdd r.capture (-(setting s sTsBoardRx (scPort p)))) s = none)
    (ht : timeOnly s = false) (hf : filterFind s p f.bytes 0 r.filters = none)
    (hd : r.defaultDrop = false) (hr : r.refused = false) (hb : r.noBuf = false)
    (hn : bushelsOf f.bytes.length ≤ r.bushels + s.qos.free) :
    Does (.rxFrameEnd p f) s fun t => RxEnded p s t ∧ t.inQ = s.inQ ++
      [rxPacket p { r with bushels := bushelsOf f.bytes.length } f.bytes] := by
  have hwant :
      max 1 (bushelsOf (min f.bytes.length (r.maxFrame + 1))) = bushelsOf f.bytes.length := by
    unfold bushelsOf
    omega
  have htaken := rxTaken_enough (p := p) (f := f) (s := rxMet p f s) hb hr
    (by rw [hwant, (rxMet_rest p f s).2.2.2]; exact hn)
  obtain ⟨u, hu, he⟩ := exec_rxFrameEnd_good h hshort hlong hg
  rw [htaken, hwant] at he
  obtain ⟨v, hv, hacc⟩ := acceptFrame_data (p := p)
    (r := { r with bushels := bushelsOf f.bytes.length }) (s := u) hc
    (by rw [setting_congr hu.settings]; exact claimFrame_none hu.settings hu.pair hclaim)
    (by rw [timeOnly_congr hu.settings hu.pair]; exact ht)
    (by rw [filterFind_congr hu.settings]; exact hf) hd hr hb
  rw [hacc] at he
  obtain ⟨hended, hinQ⟩ := RxLeft.ended (hu.trans hv)
  exact ⟨_, he, ⟨hended, congrArg (· ++ _) hinQ⟩, only_exec _ he⟩

theorem exec_rxFrameEnd_disabled (h : (portOf s p).rx = none) (hl : (portOf s p).link = .disabled) :
    exec (.rxFrameEnd p f) s = .next s :=
  (exec_rxFrameEnd_none h).trans (congrArg _ (if_pos hl))

theorem rxFrameEnd_noReceiver (h : (portOf s p).rx = none) : Does (.rxFrameEnd p f) s fun t =>
    OthersStay p s t ∧ t.inQ = s.inQ ∧
    { portOf t p with owed := (portOf s p).owed } = portOf s p := by
  have he := exec_rxFrameEnd_none (f := f) h
  obtain ⟨hothers, hown⟩ := rxMet_port p f s
  exact ⟨_, he, ⟨hothers, (rxMet_rest p f s).1, hown⟩, only_exec _ he⟩

end Sys2Proof.Machine

/-! Transmission (R240, R242, R267, R406). -/

namespace Sys2Proof.Machine
variable {p : Fin 8} {s t u : State}

theorem startTime_noMessage {p : Nat} (h : (portOf s p).timeQ = []) : startTime p s = s := by
  unfold startTime
  dsimp only
  rw [h, if_neg (by simp)]

theorem startTime_stopped {p : Nat} (h : canStart s p = false) : startTime p s = s := by
  unfold startTime
  dsimp only
  rw [h, if_neg (by simp)]

/-- The message at the head of the queue leaves, if it may. -/
theorem startTime_sends {p : Nat} {m : TimeMsg} {rest : List TimeMsg} (hc : canStart s p = true)
    (hq : (portOf s p).timeQ = m :: rest) (hk : m.kind ≠ 0) (hm : mayLeave s p m = true) :
    startTime p s = modPort p (fun x => { x with
        tx := some { bytes := withFcs m.bytes, queue := none, kind := m.kind } })
      (modPort p (fun x => { x with timeQ := rest }) s) := by
  unfold startTime startTimeMsg
  dsimp only
  rw [hq, hc, if_pos (by simp), List.dropWhile_cons_of_neg (by simp [hm])]
  dsimp only
  rw [if_neg hk]

/-- The frame has left the transmitter, counted. -/
def txEnded (p : Nat) (n : TxNow) (s : State) : State :=
  countSent p n (modPort p (fun x => { x with tx := none }) s)

/-- The bushels of the frame's stored unit are free again. -/
def txReleased (n : TxNow) (s : State) : State :=
  match n.queue, n.ends with
  | some q, some len =>
    bump cDeqFrames (scDsQueue q) 1 (bump cDeqBytes (scDsQueue q) len
      (freeBushels n.bushels (modDs q (fun k => { k with bushels := k.bushels - n.bushels }) s)))
  | _, _ => s

/-- A pause that came while the frame was being sent starts. -/
def txPaused (p : Nat) (s : State) : State :=
  match (portOf s p).pauseNext with
  | some k => startPause p k s
  | none => s

theorem countSent_ports (p : Nat) (n : TxNow) (s : State) : (countSent p n s).ports = s.ports :=
  only_countSent (List.Subset.refl _) (Only.refl s) .ports (by decide)

theorem txReleased_ports (n : TxNow) (s : State) : (txReleased n s).ports = s.ports := by
  unfold txReleased
  split
  · simp only [bump_rest, freeBushels_facts, modDs_rest]
  · rfl

theorem exec_txFrameDone {n : TxNow} (h : (portOf s p).tx = some n) : exec (.txFrameDone p) s =
    .next (startTime p (txReleased n (txPaused p (txEnded p n s)))) := by
  show execTxFrameDone p s = _
  unfold execTxFrameDone
  rw [h]
  rfl

theorem exec_txFrameDone_none (h : (portOf s p).tx = none) : exec (.txFrameDone p) s = .next s := by
  show execTxFrameDone p s = _
  unfold execTxFrameDone
  rw [h]

theorem txEnded_port (p : Nat) (n : TxNow) (s : State) : OthersStay p s (txEnded p n s) ∧
    portOf (txEnded p n s) p = { portOf s p with tx := none } := by
  have hports : (txEnded p n s).ports = _ := countSent_ports p n _
  refine ⟨(modPort_others _ _ _).trans (OthersStay.of_ports hports), ?_⟩
  rw [portOf, hports, ← portOf, portOf_modPort_own]

/-- What is left of a port's pause once a frame has been sent. -/
theorem txPaused_port (p : Nat) (s : State) : OthersStay p s (txPaused p s) ∧
    (portOf (txPaused p s) p).timeQ = (portOf s p).timeQ ∧
    (portOf (txPaused p s) p).tx = (portOf s p).tx ∧
    ((portOf s p).pauseNext = none → portOf (txPaused p s) p = portOf s p) ∧
    ∀ k, (portOf s p).pauseNext = some k → (portOf (txPaused p s) p).pauseNext = none ∧
      (portOf (txPaused p s) p).pauseUntil.isSome = decide (k ≠ 0) := by
  unfold txPaused
  split
  · next k hk =>
    unfold startPause
    rw [portOf_modPort_own]
    refine ⟨modPort_others _ _ _, rfl, rfl, fun h => (Option.some_ne_none k (hk.symm.trans h)).elim,
      fun j hj => ⟨rfl, ?_⟩⟩
    obtain rfl : k = j := Option.some.inj (hk.symm.trans hj)
    dsimp only
    split <;> simp_all
  · next hk =>
    exact ⟨OthersStay.refl _ _, rfl, rfl, fun _ => rfl, fun j hj => by rw [hk] at hj; cases hj⟩

theorem txFrameDone_facts {n : TxNow} (h : (portOf s p).tx = some n)
    (hq : (portOf s p).timeQ = []) : Does (.txFrameDone p) s fun t => OthersStay p s t ∧
      ((portOf s p).pauseNext = none → portOf t p = { portOf s p with tx := none }) ∧
      ∀ k, (portOf s p).pauseNext = some k → (portOf t p).tx = none ∧
        (portOf t p).pauseNext = none ∧ (portOf t p).pauseUntil.isSome = decide (k ≠ 0) := by
  obtain ⟨heothers, heown⟩ := txEnded_port p n s
  obtain ⟨hpothers, hptime, hptx, hpnone, hpsome⟩ := txPaused_port p (txEnded p n s)
  have hports : portOf (txReleased n (txPaused p (txEnded p n s))) =
      portOf (txPaused p (txEnded p n s)) := by
    funext q
    rw [portOf, txReleased_ports, portOf]
  have he := exec_txFrameDone h
  rw [startTime_noMessage (by rw [hports, hptime, heown]; exact hq)] at he
  rw [heown] at hptx hpnone hpsome
  refine ⟨_, he, ?_, only_exec _ he⟩
  beta_reduce
  rw [hports]
  refine ⟨fun q hq => ?_, hpnone, fun k hk => ⟨hptx, hpsome k hk⟩⟩
  rw [hports]
  exact heothers.trans hpothers q hq

/-! DS_SCHEDULING_DECISION (R252, R267, R406, R407). -/

/-- The heads that must not leave are discarded from every queue of the port. -/
def badDropped (p : Nat) (s : State) : State :=
  each (fun q s => dropBad p q ((dsOf s q).frames.map (framesLeft s p)).sum s)
    ((List.range 8).map (fun c => p * 8 + c)) s

theorem dropBad_none {p q : Nat} (h : headBad s p q = none) (n : Nat) : dropBad p q n s = s := by
  cases n with
  | zero => rfl
  | succ n => rw [dropBad, h]

theorem badDropped_none {p : Nat} (h : ∀ c < 8, headBad s p (p * 8 + c) = none) :
    badDropped p s = s := by
  refine each_same fun q hq => ?_
  obtain ⟨c, hc, rfl⟩ := List.mem_map.1 hq
  exact dropBad_none (h c (List.mem_range.1 hc)) _

/-- The port's arbiter and the shapers have been charged with the frame selected. -/
def dsCharged (p q : Nat) (a : Arbiter) (s : State) : State :=
  shaperCharge (scPort p) (dsCharge s q) (shaperCharge (scDsQueue q) (dsCharge s q)
    (modPortArb p (fun _ => a) s))

theorem shaperCharge_rest (sc : Nat) (c : Int) (s : State) :
    (shaperCharge sc c s).ports = s.ports ∧ (shaperCharge sc c s).qos.ds = s.qos.ds := by
  unfold shaperCharge
  split <;> exact ⟨rfl, rfl⟩

theorem dsCharged_rest (p q : Nat) (a : Arbiter) (s : State) :
    (dsCharged p q a s).ports = s.ports ∧ (dsCharged p q a s).qos.ds = s.qos.ds := by
  obtain ⟨h1, h2⟩ := shaperCharge_rest (scPort p) (dsCharge s q)
    (shaperCharge (scDsQueue q) (dsCharge s q) (modPortArb p (fun _ => a) s))
  obtain ⟨k1, k2⟩ := shaperCharge_rest (scDsQueue q) (dsCharge s q) (modPortArb p (fun _ => a) s)
  exact ⟨h1.trans k1, h2.trans k2⟩

theorem exec_dsSchedulingDecision_stopped (h : canStart s p = false) :
    exec (.dsSchedulingDecision p) s = .next s := by
  show execDsSchedulingDecision p s = _
  unfold execDsSchedulingDecision
  dsimp only
  rw [startTime_stopped h, h]
  rfl

theorem exec_dsSchedulingDecision_busy (h : canStart (startTime p s) p = false) :
    exec (.dsSchedulingDecision p) s = .next (startTime p s) := by
  show execDsSchedulingDecision p s = _
  unfold execDsSchedulingDecision
  dsimp only
  rw [h]
  rfl

theorem exec_dsSchedulingDecision_queued {q : Nat} {a : Arbiter} (hc : canStart s p = true)
    (ht : (portOf s p).timeQ = []) (hb : ∀ c < 8, headBad s p (p * 8 + c) = none)
    (ho : shaperOpen s (scPort p) = true) (hp : dsPick s p = some (q, a)) :
    exec (.dsSchedulingDecision p) s = .next (startHead p q (dsCharged p q a s)) := by
  show execDsSchedulingDecision p s = _
  unfold execDsSchedulingDecision
  dsimp only
  rw [startTime_noMessage ht, hc, ← badDropped, badDropped_none hb, ho, hp]
  rfl

theorem dsSchedulingDecision_message {m : TimeMsg} {rest : List TimeMsg}
    (hc : canStart s p = true) (hq : (portOf s p).timeQ = m :: rest) (hk : m.kind ≠ 0)
    (hm : mayLeave s p m = true) : Does (.dsSchedulingDecision p) s fun t => OthersStay p s t ∧
      portOf t p = { portOf s p with
        timeQ := rest
        tx := some { bytes := withFcs m.bytes, queue := none, kind := m.kind } } := by
  have hst := startTime_sends hc hq hk hm
  have hown : portOf (startTime p s) p = { portOf s p with
      timeQ := rest
      tx := some { bytes := withFcs m.bytes, queue := none, kind := m.kind } } := by
    rw [hst, portOf_modPort_own, portOf_modPort_own]
  have he := exec_dsSchedulingDecision_busy (p := p) (s := s) (by
    unfold canStart
    rw [hown]
    simp)
  refine ⟨_, he, ⟨?_, hown⟩, only_exec _ he⟩
  rw [hst]
  exact (modPort_others _ _ _).trans (modPort_others _ _ _)

/-- What the transmitter holds while it sends the plain frame `f` of queue `q`. -/
def plainTx (s : State) (q : Nat) (f : Frame) : TxNow :=
  { bytes := (completed f).1, queue := some q, bushels := f.bushels,
    ends := some (frameL s true q f) }

/-- A plain frame at the head of its queue goes into transmission, completed (R240). -/
theorem startHead_plain {p q : Nat} {f : Frame} {rest : List Frame}
    (h : (dsOf s q).frames = f :: rest) (hf : f.sheaf = false) :
    OthersStay p s (startHead p q s) ∧
    (∃ n, (portOf (startHead p q s) p).tx = some n ∧ n.bytes = (completed f).1 ∧
      n.queue = some q) ∧
    (dsOf (startHead p q s) q).frames = rest ∧
    ∀ k, k ≠ q → (dsOf (startHead p q s) k).frames = (dsOf s k).frames := by
  have hstart : startHead p q s = modPort p (fun x => { x with tx := some (plainTx s q f) })
      (modDs q (fun k => { k with frames := rest })
        (if (completed f).2 then bump cTxPadded (scPort p) 1 s else s)) := by
    unfold startHead
    rw [h]
    dsimp only
    rw [hf]
    rfl
  have hpad : (if (completed f).2 then bump cTxPadded (scPort p) 1 s else s).ports = s.ports ∧
      (if (completed f).2 then bump cTxPadded (scPort p) 1 s else s).qos = s.qos := by
    split
    · simp only [bump_rest, and_self]
    · exact ⟨rfl, rfl⟩
  obtain ⟨hports, hqos⟩ := hpad
  have hds (k : Nat) : dsOf (startHead p q s) k =
      if k = q then { dsOf s q with frames := rest } else dsOf s k := by
    rw [hstart]
    refine (dsOf_modDs _ _ _).trans ?_
    simp only [dsOf, hqos]
  refine ⟨?_, ⟨plainTx s q f, ?_, rfl, rfl⟩, by rw [hds, if_pos rfl],
    fun k hk => by rw [hds, if_neg hk]⟩
  · rw [hstart]
    exact (OthersStay.of_ports (t := modDs _ _ _) hports).trans (modPort_others _ _ _)
  · rw [hstart, portOf_modPort_own]

theorem dsSchedulingDecision_frame {q : Nat} {a : Arbiter} {f : Frame} {rest : List Frame}
    (hc : canStart s p = true) (ht : (portOf s p).timeQ = [])
    (hb : ∀ c < 8, headBad s p (p * 8 + c) = none) (ho : shaperOpen s (scPort p) = true)
    (hp : dsPick s p = some (q, a)) (hq : (dsOf s q).frames = f :: rest) (hf : f.sheaf = false) :
    Does (.dsSchedulingDecision p) s fun t => OthersStay p s t ∧
      (∃ n, (portOf t p).tx = some n ∧ n.bytes = (completed f).1 ∧ n.queue = some q) ∧
      (dsOf t q).frames = rest ∧ ∀ k, k ≠ q → (dsOf t k).frames = (dsOf s k).frames := by
  have he := exec_dsSchedulingDecision_queued hc ht hb ho hp
  obtain ⟨hports, hds⟩ := dsCharged_rest p q a s
  have hdsOf (k : Nat) : dsOf (dsCharged p q a s) k = dsOf s k := by rw [dsOf, hds, dsOf]
  obtain ⟨hothers, htx, hown, hrest⟩ := startHead_plain (p := p) (s := dsCharged p q a s)
    (by rw [hdsOf]; exact hq) hf
  exact ⟨_, he, ⟨(OthersStay.of_ports hports).trans hothers, htx, hown,
    fun k hk => by rw [hrest k hk, hdsOf]⟩, only_exec _ he⟩

/-! TRAP_QUEUE_SERVICE (R328). -/

/-- The packet that a trapped packet becomes when it is injected again. -/
def reinjected (p : Pkt) : InPkt :=
  { line := p.osrc != 0, port := p.port, group := p.port, lotId := p.lotId, label := p.label,
    keyIdx := p.keyIdx, cls := BitVec.ofNat 8 p.cls,
    bytes := p.desc ++ p.body ++
      (if p.fcs.isEmpty then [] else if p.modified then fcsBytes p.body else p.fcs),
    fcsKept := !p.fcs.isEmpty, bushels := p.bushels, capture := p.tl }

theorem exec_trapQueueService_none (h : s.tine.trapQ = []) (b : Bool) :
    exec (.trapQueueService b) s = .next s := by
  show execTrapQueueService b s = _
  unfold execTrapQueueService
  rw [h]

theorem trapQueueService_drops {e : Trapped} {rest : List Trapped} (h : s.tine.trapQ = e :: rest) :
    Does (.trapQueueService false) s fun t => t.tine = { s.tine with trapQ := rest } ∧
      t.inQ = s.inQ := by
  have he : exec (.trapQueueService false) s = .next (freeBushels e.pkt.bushels
      (modTine (fun t => { t with trapQ := rest }) s)) := by
    show execTrapQueueService false s = _
    unfold execTrapQueueService
    rw [h]
    rfl
  obtain ⟨-, hinQ, -, -, htine, -⟩ := freeBushels_facts (n := e.pkt.bushels)
    (s := modTine (fun t => { t with trapQ := rest }) s)
  exact ⟨_, he, ⟨htine, hinQ⟩, only_exec _ he⟩

theorem trapQueueService_reinjects {e : Trapped} {rest : List Trapped}
    (h : s.tine.trapQ = e :: rest) : Does (.trapQueueService true) s fun t =>
      t.tine = { s.tine with trapQ := rest } ∧ t.inQ = s.inQ ++ [reinjected e.pkt] := by
  have he : exec (.trapQueueService true) s = .next { modTine (fun t => { t with trapQ := rest }) s
      with inQ := s.inQ ++ [reinjected e.pkt] } := by
    show execTrapQueueService true s = _
    unfold execTrapQueueService
    rw [h]
    rfl
  exact ⟨_, he, ⟨rfl, rfl⟩, only_exec _ he⟩

/-- Settles O28: reception, transmission and the trap queue, row by row. -/
theorem framesEnterAndLeavePorts : Obligations.FramesEnterAndLeavePorts := by
  intro p s
  refine ⟨fun f r hr => ⟨fun hbad => ?_, fun hshort hlong hg => ?_, ?_⟩,
    fun hr f => ⟨exec_rxFrameEnd_disabled hr, fun _ => rxFrameEnd_noReceiver hr⟩,
    fun _ => txFrameDone_facts, exec_txFrameDone_none,
    fun hc => ⟨fun _ _ => dsSchedulingDecision_message hc, fun _ _ _ _ =>
      dsSchedulingDecision_frame hc⟩,
    exec_dsSchedulingDecision_stopped,
    fun e rest h => ⟨trapQueueService_drops h, ?_⟩, exec_trapQueueService_none⟩
  · exact rxFrameEnd_bad hr (hbad.imp id (Or.imp id (mt rxGood_iff.1)))
  · exact rxFrameEnd_control hr hshort hlong (rxGood_iff.2 hg)
  · intro hshort hlong hg hc hclaim ht hf hd href hbuf hn
    obtain ⟨t, he, ⟨hended, hinQ⟩, ho⟩ :=
      rxFrameEnd_data hr hshort hlong (rxGood_iff.2 hg) hc hclaim ht hf hd href hbuf hn
    exact ⟨t, he, ⟨hended, _, hinQ, rfl, rfl, rfl, rfl, rfl, rfl, rfl⟩, ho⟩
  · obtain ⟨t, he, ⟨htine, hinQ⟩, ho⟩ := trapQueueService_reinjects h
    exact ⟨t, he, ⟨htine, _, hinQ, rfl, rfl, rfl, rfl⟩, ho⟩

end Sys2Proof.Machine

/-! CRY_SEAL with an operation queued under the number that comes next (R423, R441). -/

namespace Sys2Proof.Machine

/-- The operation of a CIPHER call that waits under the number 0. -/
def waitingOp : CryOp :=
  { id := 0, client := 2, slot := 3, use := 5, target := 0, keyIdx := 0, mode := .seal, nonce := [],
    aad := [], text := [], tag := [], dst := .tine 0 0 0 }

/-- A chip with a key in slot 3 for CRY_SEAL, whose next operation gets the number of the one that
waits. No run from reset leads here, but O54 asks nothing of the numbers in use. -/
def numberTaken : State :=
  { State.reset with
    clk := { State.reset.clk with onFio := false }
    reeve := { State.reset.reeve with halted := false }
    cry := { State.reset.cry with
      slots := [(3, { use := 5, loaded := true })], ops := [waitingOp], nextId := 0 } }

/-- CRY_SEAL of no data and no text on slot 3. -/
def sealNothing : Cmd :=
  { src := .mailbox, tag := 0, mirror := false, atSwath := false, rsvd := 0,
    payload := [3, 0, 0, 0, 0, 0, 0, 0] }

theorem sealNothing_accepted : Accepted 0x0D02 sealNothing numberTaken := by
  unfold Accepted
  decide

theorem sealNothing_finds_key : numberTaken.cry.stopped = false ∧ sealSlot numberTaken 3 = true ∧
    (slotOf numberTaken 3).ctr + 1 ≠ 0 := by decide

/-- Where the results of the operations go that are in the engine after a row. -/
def dstsAfter (i : Instr) (s : State) : List CryDst :=
  match exec i s with
  | .next t => t.cry.ops.map (·.dst)
  | _ => []

theorem dstsAfter_next {i : Instr} {s t : State} (h : exec i s = .next t) :
    dstsAfter i s = t.cry.ops.map (·.dst) := by
  unfold dstsAfter
  rw [h]

set_option maxRecDepth 8192 in
/-- The CIPHER call's operation starts, and its start, written to every operation of its number,
takes the place of the one that CRY_SEAL has queued. -/
theorem sealNothing_overwritten :
    dstsAfter (.crySeal sealNothing) numberTaken = [.tine 0 0 0, .tine 0 0 0] := by
  decide

/-- Refutes O54: with a CIPHER call's operation waiting under the number that comes next, CRY_SEAL's
own operation is overwritten when that one starts, and no operation answers the command. -/
theorem not_loadsKeysSelectionsAndRolesCommandsAct :
    ¬ Obligations.LoadsKeysSelectionsAndRolesCommandsAct := by
  intro h
  obtain ⟨hseals, -⟩ := h sealNothing numberTaken
  obtain ⟨hseal, -⟩ := hseals (by decide) (by decide)
  obtain ⟨-, -, hqueued⟩ := hseal sealNothing_accepted (by decide)
  obtain ⟨hrun, hkey, hctr⟩ := sealNothing_finds_key
  obtain ⟨t, he, ⟨-, -, -, -, o, ho, -, -, -, hdst, -⟩, -⟩ := hqueued hrun hkey hctr
  have hmem : o.dst ∈ t.cry.ops.map (·.dst) := List.mem_map_of_mem ho
  rw [← dstsAfter_next he, sealNothing_overwritten, hdst] at hmem
  exact absurd hmem (by decide)

end Sys2Proof.Machine


/-! The settings of precision time (R259, Table 9-1). -/

namespace Sys2Proof.Machine
variable {c : Cmd} {s t : State} {sc n : Nat} {gs acc : List Given}

/-- The settings of a port do not fit its profile: an IP_ADDR of another version or none, one
number for both domains, or a number outside the range of G8275_1. -/
def ptpMisfit (t : State) (sc : Nat) : Prop :=
  let p := scopeIndex sc
  let prof := ptpProfile t p
  let foreign (b : Bool) : Prop := ptpDomain t p b < 24 ∨ 43 < ptpDomain t p b
  (prof = 2 ∧ (portIp t p).length ≠ 4) ∨ (prof = 3 ∧ (portIp t p).length ≠ 16) ∨
    (prof ≠ 0 ∨ 0 ≤ setting t sDnA sc ∧ 0 ≤ setting t sDnB sc) ∧
      ptpDomain t p false = ptpDomain t p true ∨
    (prof = 1 ∧ (foreign false ∨ foreign true))

theorem ptpOffence_of_misfit (h : ptpMisfit t sc) (gs : List Given) :
    ∃ e, ptpOffence sc gs t = some e := by
  refine Option.ne_none_iff_exists'.1 fun hnone => ?_
  obtain ⟨-, hrange, hdiffer, haddress⟩ := four_none hnone
  rcases h with ⟨hv4, hlen⟩ | ⟨hv6, hlen⟩ | ⟨hboth, hsame⟩ | ⟨hg, hforeign⟩
  · simp only [hv4] at haddress
    exact haddress ⟨by decide, hlen⟩
  · simp only [hv6] at haddress
    exact haddress ⟨by decide, hlen⟩
  · simp only [hsame, beq_self_eq_true, Bool.and_true, Bool.or_eq_true, Bool.and_eq_true,
      decide_eq_true_eq] at hdiffer
    exact hdiffer hboth
  · simp only [hg, if_true, Bool.not_eq_true', Bool.not_eq_false, Bool.and_eq_true,
      decide_eq_true_eq] at hrange
    omega

theorem ptpOffence_putGiven_reeve (v : Reeve) :
    ptpOffence sc gs (putGiven sc gs { s with reeve := v }) =
      ptpOffence sc gs (putGiven sc gs s) := by
  rw [putGiven_reeve]
  rfl

theorem ptpConfigurePortBody_refuses (hc : Carries [0x06] (fun _ => settings901) c s sc gs)
    (h : ptpMisfit (putGiven sc gs s) sc) : ∃ code idx, ∀ v,
      ptpConfigurePortBody { payload := c.payload, tag := c.tag } { s with reeve := v } =
        refuse 4 code idx { s with reeve := v } := by
  obtain ⟨e, he⟩ := ptpOffence_of_misfit h gs
  by_cases hno : namesNoPort (mode100 s) sc = true
  · refine ⟨0, 0, fun v => ?_⟩
    rw [ptpConfigurePortBody, settingsCmd_runs hc v]
    exact if_pos hno
  · refine ⟨e.1, e.2, fun v => ?_⟩
    rw [ptpConfigurePortBody, settingsCmd_runs hc v]
    refine (if_neg hno).trans ?_
    rw [ptpOffence_putGiven_reeve, he]
    rfl

/-- Items pass only if each names a setting of the table and spells a value of it (R556). -/
theorem checkItems_decodes {specs : List SSpec} {is : List Item}
    (h : checkItems specs n acc is = .ok gs) :
    ∀ i ∈ is, ∃ p v, specs.find? (fun p => p.row == i.row && p.pos == i.pos) = some p ∧
      decodeValue p.kind i.val = some v := by
  induction is generalizing n acc with
  | nil => exact fun i hi => absurd hi List.not_mem_nil
  | cons j is ih =>
    unfold checkItems at h
    split at h
    · cases h
    next p hp =>
      split at h
      · cases h
      next v hv =>
        have hrest : ∃ n' acc', checkItems specs n' acc' is = .ok gs := by
          split at h
          · cases h
          · split at h
            · cases h
            · exact ⟨_, _, h⟩
        obtain ⟨_, _, hrest⟩ := hrest
        exact List.forall_mem_cons.2 ⟨⟨p, v, hp, hv⟩, ih hrest⟩

/-- A setting item of DN_A or DN_B above 127 names a setting of Table 9-1 but no value of it. -/
theorem checkItems_domain_above_127 {is : List Item} {i : Item} (hi : i ∈ is)
    (hrow : i.row = sDnA.row) (hpos : i.pos = sDnA.pos ∨ i.pos = sDnB.pos)
    (hv : 127 < beNat i.val) : ∃ e, checkItems settings901 n acc is = .error e := by
  cases h : checkItems settings901 n acc is with
  | error e => exact ⟨e, rfl⟩
  | ok gs =>
    exfalso
    obtain ⟨p, v, hp, hdec⟩ := checkItems_decodes h i hi
    have hkind : p.kind = .num 0 127 := by
      rcases hpos with hpos | hpos <;> rw [hrow, hpos] at hp <;> cases hp <;> rfl
    rw [hkind] at hdec
    have hout : ¬ (beNat i.val : Int) ≤ 127 := by omega
    simp [decodeValue, hout] at hdec

theorem settingsCmd_refuses {kinds : List Nat} {specs : Nat → List SSpec}
    {k : Nat → List Given → Call → State → Reply × State} {is : List Item} {e : Nat × Nat}
    (hlen : 4 ≤ c.payload.length) (hsc : scopeOf s kinds c.payload = some sc)
    (his : parseItems c.payload.length (c.payload.drop 4) = some is)
    (he : checkItems (specs (scopeKind sc)) 0 [] is = .error e) (v : Reeve) :
    settingsCmd kinds specs k { payload := c.payload, tag := c.tag } { s with reeve := v } =
      refuse 4 e.1 e.2 { s with reeve := v } := by
  have hsc' : scopeOf { s with reeve := v } kinds c.payload = some sc := hsc
  unfold settingsCmd
  simp only [Nat.not_lt.2 hlen, if_false, hsc', his, he]
  rfl

/-- Settles O60: settings that do not fit are found by `ptpOffence` before anything is put, and a
domain number above 127 is no value of its setting. -/
theorem preciseTimeSettingsMustFitTheProfile :
    Obligations.PreciseTimeSettingsMustFitTheProfile := by
  intro c s ha
  refine ⟨fun sc gs hc hmis => ?_, fun sc is hlen hsc his ⟨i, hi, hrow, hpos, hv⟩ => ?_⟩
  · obtain ⟨_, _, hb⟩ := ptpConfigurePortBody_refuses hc hmis
    exact fails rfl ha (by decide) hb
  · obtain ⟨e, he⟩ := checkItems_domain_above_127 hi hrow hpos hv
    exact fails rfl ha (by decide) fun v => settingsCmd_refuses hlen hsc his he v

end Sys2Proof.Machine

/-! The coulter takes up a packet and walks it (R289, R291). -/

namespace Sys2Proof.Machine
variable {s : State} {p : Pkt} {i : InPkt} {rest : List InPkt}

/-- The state in which the oldest waiting packet has left the input, counts in its generation and
has its place in the order stage (R282, R328, R340). -/
def takeUp (i : InPkt) (rest : List InPkt) (s : State) : State :=
  (takePlace (pktOf s i)
    (modCls (fun c => { c with inNew := c.inNew + 1 }) { s with inQ := rest })).2

theorem exec_coulterWalk_full (h : 1024 ≤ s.cls.dispatchQ.length ∨ 512 ≤ s.cls.emQ.length)
    (b : Bool) : exec (.coulterWalk b) s = .next s := if_pos h

theorem exec_coulterWalk_no_input (h : s.inQ = []) : exec (.coulterWalk false) s = .next s := by
  show execCoulterWalk false s = _
  unfold execCoulterWalk
  rw [h]
  exact ite_self _

theorem exec_coulterWalk_no_recirc (h : s.cls.recircQ = []) :
    exec (.coulterWalk true) s = .next s := by
  show execCoulterWalk true s = _
  unfold execCoulterWalk
  rw [h]
  exact ite_self _

theorem exec_coulterWalk_input (hd : s.cls.dispatchQ.length < 1024) (he : s.cls.emQ.length < 512)
    (h : s.inQ = i :: rest) :
    exec (.coulterWalk false) s = .next (walkTaken (pktOf s i) (takeUp i rest s)) := by
  show execCoulterWalk false s = _
  unfold execCoulterWalk
  rw [if_neg (not_or.2 ⟨Nat.not_le.2 hd, Nat.not_le.2 he⟩), h]
  rfl

theorem countWalk_cls (stop : Nat) (vec : BitVec 64) (s : State) :
    (countWalk stop vec s).cls = s.cls :=
  only_countWalk (ps := counting) (by decide) (Only.refl s) .cls (by decide)

/-- What a walk's ternary lookup leaves of the coulter and the tables: all of it. -/
theorem walk_ternLookup_cls (g : BitVec 8) (out : Nat × Walked) (s : State) :
    (ternLookup g out.2.key (countWalk out.1 out.2.pats s)).2.cls = s.cls :=
  cls_ternLookup.trans (countWalk_cls _ _ s)

/-- From `s` to `t` one packet more stands in the two queues, and none has been taken up. -/
def JoinsQueue (s t : State) : Prop :=
  t.cls.nextOrder = s.cls.nextOrder ∧ t.cls.inNew = s.cls.inNew ∧
    t.cls.dispatchQ.length + t.cls.emQ.length = s.cls.dispatchQ.length + s.cls.emQ.length + 1

theorem applyResult_joins {u : State} {w : Walked} {r : Nat} (h : u.cls = s.cls) :
    JoinsQueue s (applyResult w r u) := by
  obtain ⟨horder, hnew, hem, hdispatch⟩ := applyResult_cls (w := w) (r := r) (s := u)
  rw [h] at horder hnew hem hdispatch
  exact ⟨horder, hnew, by rw [hem, hdispatch, Nat.add_right_comm]⟩

theorem emWait_joins {u : State} (q : EmWait) (h : u.cls = s.cls) :
    JoinsQueue s (modCls (fun c => { c with emQ := c.emQ ++ [q] }) u) := by
  simp only [JoinsQueue, modCls, h, List.length_append, List.length_singleton, Nat.add_assoc,
    and_self]

/-- A packet that the graph starts and that does not end by a length failure joins one of the two
queues (R293, R304). -/
theorem walkTaken_joins_queue {img : Bytes} {n : Nat} (hgraph : (genOf s p.gen).graph = some img)
    (hstart : graphStart (some img) p.src = some n) (hnode : p.node = none)
    (hn : n < graphNodes img) (hstop : (walkPacket (genOf s p.gen) img p n).1 ≠ 4) :
    JoinsQueue s (walkTaken p s) := by
  have hcls := walk_ternLookup_cls p.gen (walkPacket (genOf s p.gen) img p n) s
  unfold walkTaken
  simp only [hgraph, hstart, hnode, Option.map_some, Option.getD_none, if_neg (Nat.not_le.2 hn),
    hstop, false_and, if_false]
  split
  · exact emWait_joins _ hcls
  · exact applyResult_joins hcls

theorem coulterWalk_takes (hd : s.cls.dispatchQ.length < 1024) (he : s.cls.emQ.length < 512)
    (h : s.inQ = i :: rest) : Does (.coulterWalk false) s fun t => t.inQ = rest :=
  does_of (fun _ => only_exec _) (exec_coulterWalk_input hd he h) walkTaken_inQ

theorem coulterWalk_joins_queue {img : Bytes} {n : Nat} (hd : s.cls.dispatchQ.length < 1024)
    (he : s.cls.emQ.length < 512) (h : s.inQ = i :: rest)
    (hgraph : (genOf s (pktOf s i).gen).graph = some img)
    (hstart : graphStart (some img) (pktOf s i).src = some n) (hn : n < graphNodes img)
    (hstop : (walkPacket (genOf s (pktOf s i).gen) img (pktOf s i) n).1 ≠ 4) :
    Does (.coulterWalk false) s fun t => t.inQ = rest ∧
      t.cls.nextOrder = s.cls.nextOrder + 1 ∧ t.cls.inNew = s.cls.inNew + 1 ∧
      t.cls.dispatchQ.length + t.cls.emQ.length =
        s.cls.dispatchQ.length + s.cls.emQ.length + 1 :=
  does_of (fun _ => only_exec _) (exec_coulterWalk_input hd he h) ⟨walkTaken_inQ,
    walkTaken_joins_queue (p := pktOf s i) (s := takeUp i rest s) hgraph hstart rfl hn hstop⟩

end Sys2Proof.Machine

/-! EM_LOOKUP and REHASH_DONE (R316-R323). -/

namespace Sys2Proof.Machine
variable {s : State} {n : Nat}

/-- The two queues that packets wait in behind the coulter. -/
def waiting (c : Cls) : List EmWait × List Walked := (c.emQ, c.dispatchQ)

theorem emPut_waiting (l : EmLoc) (e : EmEntry) (c : Cls) :
    waiting (emPut l e c) = waiting c := by
  cases l <;> rfl

theorem emFound_waiting {g : BitVec 8} {profile len : Nat} {k : BitVec 128} {bad : List EmLoc} :
    waiting (emFound g profile k len bad s).2.cls = waiting s.cls := by
  unfold emFound
  split
  · rfl
  next l _ =>
    cases l <;> simp only [bump_rest] <;> exact emPut_waiting _ _ _

theorem emLookupOp_waiting {g : BitVec 8} {profile len : Nat} {k : BitVec 128}
    {ecc : List (Bool × Bool)} :
    waiting (emLookupOp g profile k len ecc s).2.cls = waiting s.cls := by
  unfold emLookupOp
  refine emFound_waiting.trans ((each_keeps (v := fun u => waiting u.cls) ?_ _ _).trans ?_)
  · intro e u
    simp only [raise_rest, bump_rest]
    exact emPut_waiting _ _ _
  · simp only [bump_rest]

/-- The lookup of the oldest packet that waits for one, with the words corrected counted. -/
def oldestLookup (q : EmWait) (rest : List EmWait) (bad : List (Bool × Bool)) (n : Nat)
    (s : State) : Option Nat × State :=
  emLookupOp q.w.pkt.gen q.profile q.emKey (pktLen q.w.pkt) bad
    (bump cEmEccCorr scDevice n (modCls (fun c => { c with emQ := rest }) s))

theorem exec_emLookup_waits (h : s.cls.emQ = [] ∨ 1024 ≤ s.cls.dispatchQ.length)
    (b : List (Bool × Bool)) (n : Nat) : exec (.emLookup b n) s = .next s := by
  show execEmLookup b n s = _
  unfold execEmLookup
  split
  · rfl
  next q rest hq =>
    exact if_pos (h.resolve_left (by rw [hq]; exact List.cons_ne_nil q rest))

theorem exec_emLookup {q : EmWait} {rest : List EmWait} (b : List (Bool × Bool))
    (h : s.cls.emQ = q :: rest) (hd : s.cls.dispatchQ.length < 1024) :
    exec (.emLookup b n) s = .next (applyResult q.w
      ((oldestLookup q rest b n s).1.getD q.w.result) (oldestLookup q rest b n s).2) := by
  show execEmLookup b n s = _
  unfold execEmLookup
  rw [h]
  dsimp only
  rw [if_neg (Nat.not_le.2 hd)]
  split <;>
  next hlook => rw [oldestLookup, hlook]; rfl

theorem emLookup_moves {q : EmWait} {rest : List EmWait} (b : List (Bool × Bool))
    (h : s.cls.emQ = q :: rest) (hd : s.cls.dispatchQ.length < 1024) :
    Does (.emLookup b n) s fun t =>
      t.cls.emQ = rest ∧ t.cls.dispatchQ.length = s.cls.dispatchQ.length + 1 := by
  have hw : waiting (oldestLookup q rest b n s).2.cls = (rest, s.cls.dispatchQ) := by
    refine emLookupOp_waiting.trans ?_
    simp only [bump_rest]
    rfl
  obtain ⟨hem, hdispatch⟩ := Prod.ext_iff.1 hw
  obtain ⟨-, -, hsame, hlonger⟩ := applyResult_cls (w := q.w)
    (r := (oldestLookup q rest b n s).1.getD q.w.result) (s := (oldestLookup q rest b n s).2)
  exact does_of (fun _ => only_exec _) (exec_emLookup b h hd)
    ⟨hsame.trans hem, hlonger.trans (congrArg (·.length + 1) hdispatch)⟩

/-- The tables with new seeds and nothing in the other bank, into which a rehash copies
(R323). -/
def emptyBank (s : State) : Cls :=
  { s.cls with em := [], stash := [], bank := !s.cls.bank, seedA := BitVec.ofNat 32 (freeNat s),
               seedB := BitVec.ofNat 32 (freeNat (drawn s)), rehash := none }

/-- What a rehash copies: the occupied slots, and the inserts that waited for it. -/
def rehashEntries (r : Rehash) (c : Cls) : List EmEntry :=
  c.em.map (fun x => x.2) ++ c.stash.map (fun x => x.2) ++ r.inserts

/-- Two seeds have been drawn and asked of the generator (R323). -/
def seedsDrawn (s : State) : State :=
  { drawn (drawn s) with cry := { s.cry with requests := s.cry.requests + 2 } }

/-- A rehash ends: the copy in force, counted, and the commands that waited told. -/
def rehashEnds (r : Rehash) (c : Cls) (moves : Nat) (s : State) : State :=
  each (fun t s => raiseTag 0x0904 0 (bit c.bank) t.1 t.2 s) r.tags
    (bump cRehash scDevice 1 (bump cEmMoves scDevice moves (modCls (fun _ => c) s)))

theorem exec_rehashDone_none (h : s.cls.rehash = none) (n : Nat) :
    exec (.rehashDone n) s = .next s := by
  show execRehashDone s n = _
  unfold execRehashDone
  rw [h]

/-- The copy of a rehash, made in one step (log entry 50), and the entries that found no place. -/
def rehashCopy (r : Rehash) (s : State) : Cls × List EmEntry × Nat :=
  emPlaceAll (rehashEntries r s.cls) (emptyBank s)

theorem exec_rehashDone {r : Rehash} (h : s.cls.rehash = some r) (n : Nat) :
    exec (.rehashDone n) s =
      let u := bump cEmEccCorr scDevice n s
      .next (if (rehashCopy r u).2.1.isEmpty then
          rehashEnds r (rehashCopy r u).1 (rehashCopy r u).2.2 (seedsDrawn u)
        else seedsDrawn u) := by
  show execRehashDone s n = _
  unfold execRehashDone
  rw [h]
  exact (apply_ite Host.Outcome.next _ _ _).symm

theorem rehashEnds_cls (r : Rehash) (c : Cls) (m : Nat) (s : State) :
    (rehashEnds r c m s).cls = c := by
  refine (each_keeps (v := State.cls) (fun _ _ => ?_) _ _).trans ?_
  · simp only [raiseTag_rest]
  · simp only [bump_rest, modCls]

theorem rehashEnds_cry (r : Rehash) (c : Cls) (m : Nat) (s : State) :
    (rehashEnds r c m s).cry = s.cry := by
  refine (each_keeps (v := State.cry) (fun _ _ => ?_) _ _).trans ?_
  · simp only [raiseTag_rest]
  · simp only [bump_rest, modCls]

theorem rehashDone_does {r : Rehash} (h : s.cls.rehash = some r) (n : Nat) :
    Does (.rehashDone n) s fun t =>
      t.cry.requests = s.cry.requests + 2 ∧
      (t.cls = s.cls ∨ t.cls.rehash = none ∧ t.cls.bank = !s.cls.bank) ∧
      (s.cls.em = [] → s.cls.stash = [] → r.inserts = [] → t.cls.rehash = none) := by
  refine does_of (fun _ => only_exec _) (exec_rehashDone h n) ?_
  have hcls : (bump cEmEccCorr scDevice n s).cls = s.cls := bump_cls
  have hasked : (seedsDrawn (bump cEmEccCorr scDevice n s)).cry.requests =
      s.cry.requests + 2 := by
    simp only [seedsDrawn, bump_cry]
  generalize bump cEmEccCorr scDevice n s = u at hcls hasked ⊢
  have hcopy := placeAll_keeps (rehashEntries r u.cls) (emptyBank u)
  have hends : (rehashCopy r u).1.rehash = none := hcopy.1
  have hbank : (rehashCopy r u).1.bank = !s.cls.bank := by rw [← hcls]; exact hcopy.2
  split
  · rw [rehashEnds_cls, rehashEnds_cry]
    exact ⟨hasked, .inr ⟨hends, hbank⟩, fun _ _ _ => hends⟩
  next hleft =>
    refine ⟨hasked, .inl hcls, fun hem hstash hins => absurd ?_ hleft⟩
    rw [rehashCopy, rehashEntries, hcls, hem, hstash, hins]
    rfl

end Sys2Proof.Machine

/-! The generations: SWEEP_DONE, RETIRE_SLOW and a commit whose SC is extrapolated
(R325-R330). -/

namespace Sys2Proof.Machine
variable {s : State}

theorem raise_events_le (code : BitVec 16) (i d : Nat) (s : State) :
    (raise code i d s).reeve.events.length ≤ s.reeve.events.length + 1 := by
  by_cases h : s.reeve.events.length < 64
  · rw [raise_events h, List.length_append, List.length_singleton]
  · rw [raise_lost h]
    exact Nat.le_succ _

/-- A counter that no bin takes raises at most the event of its half range (R55). -/
theorem bump_events_le {c : CtrId} (hc : c.bin = none) (a n : Nat) (s : State) :
    (bump c a n s).reeve.events.length ≤ s.reeve.events.length + 1 := by
  have hraw : (lifeTotal c a n (bumpRaw c a n s)).reeve = s.reeve := by
    simp only [lifeTotal_rest, bumpRaw_rest]
  unfold bump
  simp only [hc]
  split
  · exact Nat.le_succ _
  · split
    · exact (raise_events_le _ _ _ _).trans (by rw [hraw])
    · rw [hraw]
      exact Nat.le_succ _

/-- The number and the rules of the newest generation. -/
def newestRules (c : Cls) : BitVec 8 × RuleGen := (c.newest, c.cur)

theorem emPut_newestRules (l : EmLoc) (e : EmEntry) (c : Cls) :
    newestRules (emPut l e c) = newestRules c := by
  cases l <;> rfl

/-- What every step of a fold leaves, the fold leaves. -/
theorem foldl_leaves {α β γ : Type} {f : β → α → β} {v : β → γ} (h : ∀ b a, v (f b a) = v b)
    (l : List α) (b : β) : v (l.foldl f b) = v b :=
  (List.foldl_hom v (g₂ := fun c _ => c) (fun b a => (h b a).symm)).symm.trans
    (List.foldl_fixed l)

theorem foldCounts_newestRules (g : BitVec 8) (f : Nat × BitVec 128) (c : Cls) :
    newestRules (foldCounts g f c) = newestRules c := by
  unfold foldCounts
  split
  · rfl
  · exact foldl_leaves (fun c _ => emPut_newestRules _ _ c) _ _

/-- The tables as the sweep leaves them, the folds applied (R324, R330). -/
def swept (c0 : Cls) : Cls :=
  let g := c0.newest
  let c := c0.folds.foldl (fun c f => foldCounts g f c) c0
  { c with
    st := .oneLive, folds := [], old := {}, em := sweepEm g c.em, stash := sweepEm g c.stash,
    tern := c.tern.filterMap (fun x =>
      let e : TernEntry := if sweptLive g x.2.live = 0 then {} else
        { x.2 with live := sweptLive g x.2.live }
      if e = {} then none else some (x.1, e)) }

theorem swept_newestRules (c : Cls) : newestRules (swept c) = newestRules c :=
  foldl_leaves (fun c f => foldCounts_newestRules _ f c) c.folds c

theorem exec_sweepDone_not (h : s.cls.st ≠ .sweeping ∨ s.cls.rehash.isSome = true) (n : Nat) :
    exec (.sweepDone n) s = .next s := if_pos h

theorem exec_sweepDone (hst : s.cls.st = .sweeping) (hr : s.cls.rehash = none) (n : Nat) :
    exec (.sweepDone n) s =
      let u := bump cEmEccCorr scDevice n s
      .next (raise 0x0902 0 (u.cls.newest - 1).toNat (modCls (fun _ => swept u.cls) u)) :=
  if_neg (not_or.2 ⟨not_not.2 hst, by rw [hr]; decide⟩)

theorem sweepDone_does (hst : s.cls.st = .sweeping) (hr : s.cls.rehash = none)
    (hroom : s.reeve.events.length < 63) (n : Nat) :
    Does (.sweepDone n) s fun t => t.cls.st = .oneLive ∧ t.cls.folds = [] ∧ t.cls.old = {} ∧
      t.cls.newest = s.cls.newest ∧ t.cls.cur = s.cls.cur ∧
      (t.reeve.events.getLast?).map (·.code) = some 0x0902 := by
  refine does_of (fun _ => only_exec _) (exec_sweepDone hst hr n) ?_
  have hcls : (bump cEmEccCorr scDevice n s).cls = s.cls := bump_cls
  have hev : (bump cEmEccCorr scDevice n s).reeve.events.length < 64 :=
    (bump_events_le rfl _ _ s).trans_lt (Nat.succ_lt_succ hroom)
  generalize bump cEmEccCorr scDevice n s = u at hcls hev ⊢
  obtain ⟨hnewest, hcur⟩ := Prod.ext_iff.1 (swept_newestRules s.cls)
  rw [last_raise (by exact hev), raise_cls]
  simp only [modCls, hcls]
  exact ⟨rfl, rfl, rfl, hnewest, hcur, rfl⟩

theorem exec_retireSlow_not (h : s.cls.st ≠ .twoLive ∨ s.cls.retireSlow = true) :
    exec .retireSlow s = .next s := by
  refine if_neg fun hslow => h.elim (· hslow.1) fun hraised => ?_
  rw [hraised] at hslow
  exact absurd hslow.2 (by decide)

theorem exec_retireSlow (hst : s.cls.st = .twoLive) (hslow : s.cls.retireSlow = false) :
    exec .retireSlow s = .next (raise 0x0903 0 (s.cls.newest - 1).toNat
      (modCls (fun c => { c with retireSlow := true }) s)) :=
  if_pos ⟨hst, by rw [hslow]; rfl⟩

theorem retireSlow_does (hst : s.cls.st = .twoLive) (hslow : s.cls.retireSlow = false)
    (hroom : s.reeve.events.length < 64) :
    Does .retireSlow s fun t => t.cls = { s.cls with retireSlow := true } ∧
      (t.reeve.events.getLast?).map (·.code) = some 0x0903 := by
  refine does_of (fun _ => only_exec _) (exec_retireSlow hst hslow) ⟨raise_cls, ?_⟩
  rw [last_raise (by exact hroom)]
  rfl

theorem retireLook_cls (s : State) : ∃ g, (retireLook s).cls = { s.cls with st := g } := by
  unfold retireLook
  split
  · exact ⟨.sweeping, bump_cls⟩
  · exact ⟨s.cls.st, rfl⟩

/-- The tables once the staged set is the newest generation (R325, Table 11-8). -/
def committed (c : Cls) : Cls :=
  { c with
    st := .twoLive, newest := c.newest + 1, old := c.cur,
    cur := { graph := if c.stGraph.isSome then c.stGraph else c.cur.graph,
             pats := c.stPats.getD c.cur.pats, deflt := c.stDeflt.getD c.cur.deflt },
    inOld := c.inNew, inNew := 0, stGraph := none, stPats := none, stDeflt := none,
    ternOps := 0, emOps := 0, commit := none, retireSlow := false }

/-- A commit that carries a tag leaves the staged set as newest generation; the old one may retire
at once. -/
theorem commitNow_tagged_cls (tag : BitVec 16 × Bool) (s : State) :
    ∃ g, (commitNow (some tag) s).cls = { committed s.cls with st := g } := by
  obtain ⟨g, hg⟩ := retireLook_cls (raiseTag 0x0901 0 (committed s.cls).newest.toNat tag.1 tag.2
    (bump cCommits scDevice 1 (modCls committed s)))
  simp only [raiseTag_rest, bump_rest] at hg
  exact ⟨g, hg⟩

theorem exec_arrival_none (hc : s.cls.commit = none) (hh : commitHeld s = none) :
    exec .atSwathExtrapolatedArrival s = .next s := by
  show execAtSwathExtrapolatedArrival s = _
  unfold execAtSwathExtrapolatedArrival
  rw [hc, hh]

theorem exec_arrival_commit {w : CommitWait} (hc : s.cls.commit = some w) :
    exec .atSwathExtrapolatedArrival s = .next (commitNow (some (w.tag, w.mgmt)) s) := by
  show execAtSwathExtrapolatedArrival s = _
  unfold execAtSwathExtrapolatedArrival
  rw [hc]

theorem exec_arrival_held {w : Held} (hc : s.cls.commit = none) (hh : commitHeld s = some w) :
    exec .atSwathExtrapolatedArrival s = .next (heldCommitDue w s) := by
  show execAtSwathExtrapolatedArrival s = _
  unfold execAtSwathExtrapolatedArrival
  rw [hc, hh]

theorem arrival_commits {w : CommitWait} (hc : s.cls.commit = some w) :
    Does .atSwathExtrapolatedArrival s fun t =>
      t.cls.newest = s.cls.newest + 1 ∧ t.cls.old = s.cls.cur ∧ t.cls.commit = none ∧
      t.cls.stGraph = none ∧ t.cls.stPats = none ∧ t.cls.stDeflt = none ∧
      t.cls.cur.graph = (if s.cls.stGraph.isSome then s.cls.stGraph else s.cls.cur.graph) ∧
      t.cls.cur.deflt = s.cls.stDeflt.getD s.cls.cur.deflt := by
  refine does_of (fun _ => only_exec _) (exec_arrival_commit hc) ?_
  obtain ⟨g, hg⟩ := commitNow_tagged_cls (w.tag, w.mgmt) s
  rw [hg]
  exact ⟨rfl, rfl, rfl, rfl, rfl, rfl, rfl, rfl⟩

/-- What stands before a held commit in MIRROR_SEQ is due with it (R510; log entry 114). -/
theorem arrival_makes_held_due {w : Held} (hc : s.cls.commit = none)
    (hh : commitHeld s = some w) :
    Does .atSwathExtrapolatedArrival s fun t =>
      t.cls = s.cls ∧ t.pair.held = s.pair.held.map (fun h =>
        if h.awaitAck = false ∧ h.mirrorSeq.toNat ≤ w.mirrorSeq.toNat then { h with due := true }
        else h) := by
  refine does_of (fun _ => only_exec _) (exec_arrival_held hc hh) ⟨rfl, ?_⟩
  simp only [heldCommitDue, Bool.and_eq_true, Bool.not_eq_true', decide_eq_true_eq]

end Sys2Proof.Machine

/-! TINE_DISPATCH (R338, R341). -/

namespace Sys2Proof.Machine
variable {s : State} {w : Walked} {rest : List Walked} {h k n : Nat}

/-- What a thread starts with on a packet under its program (R341, Table 12-3). -/
def passThread (s : State) (w : Walked) (h k n : Nat) : Thread :=
  let x := resOf s w.result
  let view := { progView s (resProg x) with param := resParam x }
  let b := walkBytes w.pkt
  { busy := true, pc := view.entry, win := b.take 256,
    tail := b.drop 256 ++ w.pkt.body.drop b.length, walked := some w, view := view,
    qValid := resQEn x, dir := resDir x, queue := resQueue x, colour := w.pkt.colour,
    modified := w.pkt.modified, priv := (threadOf s h k n).priv }

/-- The oldest packet has left the dispatch queue, is marked in the order stage, and its pass
counts. -/
def passBegun (s : State) (w : Walked) (rest : List Walked) : State :=
  bump cPasses (scProgram (resProg (resOf s w.result))) 1
    (modTine (fun t => { t with order := t.order.map (fun o =>
        if o.id == w.pkt.order then { o with given := true } else o) })
      (modCls (fun c => { c with dispatchQ := rest }) s))

theorem threadOf_putThread_same (h k n : Nat) (x : Thread) (s : State) :
    threadOf (putThread h k n x s) h k n = x :=
  (tabGet_set _ _ _ _ _).trans (if_pos rfl)

theorem threadOf_pmcInstant (h k n e a b c : Nat) (s : State) :
    threadOf (pmcInstant h k n e s) a b c = threadOf s a b c := by
  rw [threadOf, pmcInstant_threads, threadOf]

theorem pmcInstant_cls (h k n e : Nat) (s : State) : (pmcInstant h k n e s).cls = s.cls :=
  only_pmcInstant (List.Subset.refl _) (Only.refl s) .cls (by decide)

theorem exec_tineDispatch_none (h : s.cls.dispatchQ = []) : exec .tineDispatch s = .next s := by
  show execTineDispatch s = _
  unfold execTineDispatch
  rw [h]

theorem exec_tineDispatch (hq : s.cls.dispatchQ = w :: rest) (hrun : coreRuns s = true)
    (hroom : (s.tine.order.filter (fun o => o.given)).length < 4096)
    (hload : (progOf s (resProg (resOf s w.result))).loaded = true)
    (hon : (progOf s (resProg (resOf s w.result))).disabled = false)
    (hpick : pickThread s (settingB s sAffinity (scProgram (resProg (resOf s w.result)))) w.key =
      some (h, k, n)) :
    exec .tineDispatch s = .next (pmcInstant h k n 0x0E
      (putThread h k n (passThread s w h k n) (passBegun s w rest))) := by
  have hgo : (decide (4096 ≤ (s.tine.order.filter (fun o => o.given)).length) ||
      !coreRuns s) = false := by
    rw [hrun, decide_eq_false (Nat.not_le.2 hroom)]
    rfl
  show execTineDispatch s = _
  unfold execTineDispatch
  rw [hq]
  simp only [hload, hon, Bool.not_false, Bool.and_true, if_true, hgo, Bool.false_eq_true, if_false,
    hpick]
  rfl

theorem tineDispatch_does (hq : s.cls.dispatchQ = w :: rest) (hrun : coreRuns s = true)
    (hroom : (s.tine.order.filter (fun o => o.given)).length < 4096)
    (hload : (progOf s (resProg (resOf s w.result))).loaded = true)
    (hon : (progOf s (resProg (resOf s w.result))).disabled = false)
    (hpick : pickThread s (settingB s sAffinity (scProgram (resProg (resOf s w.result)))) w.key =
      some (h, k, n)) :
    Does .tineDispatch s fun t => t.cls = { s.cls with dispatchQ := rest } ∧
      (threadOf t h k n).busy = true ∧ (threadOf t h k n).walked = some w ∧
      (threadOf t h k n).pc = (progView s (resProg (resOf s w.result))).entry ∧
      (threadOf t h k n).priv = (threadOf s h k n).priv := by
  refine does_of (fun _ => only_exec _) (exec_tineDispatch hq hrun hroom hload hon hpick) ?_
  rw [threadOf_pmcInstant, threadOf_putThread_same]
  exact ⟨(pmcInstant_cls _ _ _ _ _).trans bump_cls, rfl, rfl, rfl, rfl⟩

/-- Settles O31, row by row. -/
theorem packetsAreClassified : Obligations.PacketsAreClassified := fun _ =>
  ⟨exec_coulterWalk_no_input, exec_coulterWalk_no_recirc, exec_coulterWalk_full,
    fun _ _ hin hd he => ⟨coulterWalk_takes hd he hin, fun _ _ => coulterWalk_joins_queue hd he hin⟩,
    exec_emLookup_waits, fun _ _ b _ => emLookup_moves b, exec_rehashDone_none,
    fun _ n hr => rehashDone_does hr n, fun n hst hr hroom => sweepDone_does hst hr hroom n,
    exec_sweepDone_not, retireSlow_does, exec_retireSlow_not, fun _ => arrival_commits,
    fun _ => arrival_makes_held_due, exec_arrival_none, exec_tineDispatch_none,
    fun _ _ _ _ _ => tineDispatch_does⟩

end Sys2Proof.Machine

/-! Key material enters the slots by KEY_REQUEST_COMMIT alone (R425, R435, R436): every other
command that may write the cipher engine keeps the state. -/

namespace Sys2Proof.Machine
variable {s t : State}

theorem Kept.noKeyLoaded (h : Kept s t) : NoKeyLoaded s t := by
  obtain ⟨_, _, _, _, _, hk⟩ := h
  exact hk

/-- What leaves the cipher engine as it is loads no key. -/
theorem noKeyLoaded_of_cry (h : t.cry = s.cry) : NoKeyLoaded s t := fun _ =>
  .inl (congrArg KeySlot.key (slotOf_cry (congrArg Cry.slots h)))

/-! The commands that write the cipher engine and no upstream lane; `kept_exec_of_us` has the
others. -/

theorem kept_execBootImageCheckDone {r : BootRead} (h : execBootImageCheckDone r s = .next t) :
    Kept s t := by
  have hk := Kept.refl s
  have hb {img fallback : Bool} {fw : BitVec 32} : Kept s (bootReady img fallback fw s) :=
    kept_bootReady hk
  refine kept_of_ite kept_of_none (kept_of_ite (kept_of_next hb)
    (kept_of_ite (kept_of_next (kept_raise hb)) (kept_of_next (kept_setBoot ?_)))) h
  exact kept_win hk rfl

/-- A rehash draws its two seeds and copies the table; both leave the key slots. -/
theorem kept_execRehashDone {n : Nat} (h : execRehashDone s n = .next t) : Kept s t := by
  unfold execRehashDone at h
  split at h
  · exact kept_of_none h
  · extract_lets u u1 all fresh at h
    have h1 : Kept s u1 := kept_drawn (kept_drawn (kept_bump (Kept.refl s)))
    have h2 : Kept s { u1 with cry := { u1.cry with requests := u1.cry.requests + 2 } } :=
      kept_cry h1 rfl
    exact kept_of_ite (kept_of_next (kept_each (fun _ _ k => kept_raiseTag k)
      (kept_bump (kept_bump (kept_modCls h2))))) (kept_of_next h2) h

theorem kept_execDrbgReseed {ok : Bool} (h : execDrbgReseed ok s = .next t) : Kept s t := by
  have hk := Kept.refl s
  refine kept_of_ite kept_of_none (kept_of_ite (kept_of_next (kept_startOps ?_))
    (kept_of_ite kept_of_none (kept_of_next (kept_raise (kept_bump ?_))))) h
  · exact kept_cry hk rfl
  · exact kept_cry hk rfl

/-- A command that may write the cipher engine and no upstream lane keeps the state. -/
theorem kept_exec_of_cry {i : Instr} (hc : Part.cry ∈ writes i) (hu : Part.us ∉ writes i)
    (h : exec i s = .next t) : Kept s t := by
  have hs := Kept.refl s
  cases i
  case bootImageCheckDone => exact kept_execBootImageCheckDone h
  case lotHeaderRelease =>
    exact kept_of_next (kept_relLook (kept_releaseHeader (kept_bondSettle hs))) h
  case rehashDone => exact kept_execRehashDone h
  case drbgReseed => exact kept_execDrbgReseed h
  case keySelWrite => exact kept_of_next (kept_keyAccess (fun _ k => kept_keySelWrite k) hs) h
  -- KEY_CTRL: the request waits, the slots stay (R436)
  case keyLoad | keyErase | keyEraseAll =>
    exact kept_of_next (kept_keyAccess (fun _ k => kept_keyWrite k rfl) hs) h
  case pmcSampleStart => exact kept_of_runCmd (fun _ _ k => kept_pmcSampleStartBody k) h
  case crySeal => exact kept_of_runCmd (fun _ _ k => kept_crySealBody k) h
  case cryUnseal => exact kept_of_runCmd (fun _ _ k => kept_cryUnsealBody k) h
  case secDebugChallenge => exact kept_of_runCmd (fun _ _ k => kept_secDebugChallengeBody k) h
  all_goals exact absurd (And.intro hc hu) (by dsimp only [writes]; decide)

/-- No command but KEY_REQUEST_COMMIT puts a key into a slot. -/
theorem noKeyLoaded_exec {i : Instr} (hk : i ≠ .keyRequestCommit) (h : exec i s = .next t) :
    NoKeyLoaded s t := by
  by_cases hc : Part.cry ∈ writes i
  · by_cases hu : Part.us ∈ writes i
    · by_cases hv : i = .vddAonPowerOn
      · subst hv
        cases h
        -- the engine is as after reset: every slot is empty
        exact fun _ => .inr rfl
      · have hb (x : Fin 2) : i ≠ .burstEnable x := fun e => by
          subst e
          exact absurd hc (by dsimp only [writes]; decide)
        exact (kept_exec_of_us hu hb hk hv h).noKeyLoaded
    · exact (kept_exec_of_cry hc hu h).noKeyLoaded
  · exact noKeyLoaded_of_cry (only_exec i h .cry hc)

/-- Settles O8: a step runs one command (`noKeyLoaded_exec`) or ticks, and a tick leaves the cipher
engine (`tick_only`). -/
theorem keysEnterOnlyByKeyRequestCommit : Obligations.KeysEnterOnlyByKeyRequestCommit := by
  intro s t hp h
  unfold step at h
  split at h
  · exact Host.Outcome.next.inj h ▸ noKeyLoaded_of_cry (tick_only s .cry (by decide))
  · next c rest e =>
    have hc : NoKeyLoaded { s with pending := rest } t :=
      noKeyLoaded_exec (fun hi => hp rest (hi ▸ e)) h
    exact hc

end Sys2Proof.Machine

/-! What every command keeps, for the rows that write neither the upstream lanes nor the cipher
engine; `kept_exec_of_us` and `kept_exec_of_cry` have the others. -/

namespace Sys2Proof.Machine
variable {s t : State}

/-! The clocks, the lanes and the lots. -/

theorem kept_execRootPllLock (h : execRootPllLock s = .next t) : Kept s t := by
  refine kept_of_ite (kept_of_next (kept_refLook ?_)) kept_of_none h
  exact kept_clk (Kept.refl s) rfl

theorem kept_execDiscardHoldover (h : execDiscardHoldover s = .next t) : Kept s t := by
  unfold execDiscardHoldover at h
  split at h
  · refine kept_of_next (kept_setRef ?_) h
    exact kept_clk (Kept.refl s) rfl
  · exact kept_of_none h

theorem kept_execRawMarkerMatch {l : Fin 4} {b : BitVec 64}
    (h : execRawMarkerMatch l b s = .next t) : Kept s t := by
  have hk := Kept.refl s
  have hm : (if (laneOf s l).slots.length < 8 then
      .next (putSlots l ((laneOf s l).slots ++ [{ start := b - 83, sc := (laneOf s l).sc }]) s)
      else .next (bump cCandOverflow (scLrx l) 1 s) : Out) = .next t → Kept s t :=
    kept_of_ite (kept_of_next (kept_putSlots hk)) (kept_of_next (kept_bump hk))
  unfold execRawMarkerMatch at h
  dsimp only at h
  split at h
  · exact hm h
  · exact hm h
  · exact kept_of_none h

theorem kept_execCtleAdaptStep {l : Fin 4} {up : Bool} (h : execCtleAdaptStep l up s = .next t) :
    Kept s t :=
  have hk := Kept.refl s
  kept_of_ite (kept_of_ite (kept_of_next (kept_modLane hk))
    (kept_of_ite (kept_of_next (kept_modLane hk)) kept_of_none)) kept_of_none h

theorem kept_execPlantReport {g : Fin 4} (h : execPlantReport g s = .next t) : Kept s t := by
  unfold execPlantReport at h
  split at h
  · exact kept_of_none h
  · extract_lets s1 at h
    have h1 : Kept s s1 := kept_toTime (Kept.refl s)
    exact kept_of_ite (kept_of_next (kept_bump h1)) (kept_of_next
      (kept_each (fun _ _ k => kept_fitLook k) (kept_bump (kept_modGroup h1)))) h

/-- A management command that finds room joins its queue (R545). -/
theorem kept_mgmtPush {i : Nat} {m : MgmtCmd} {s₀ : State} (hl : (mgmtQueue s i).length < 16)
    (h : Kept s₀ s) : Kept s₀ (modReeve (fun v =>
      if i = 0 then { v with mgmt0 := v.mgmt0 ++ [m] } else { v with mgmt1 := v.mgmt1 ++ [m] }) s) := by
  refine keep_reeve h fun ⟨he, h0, h1⟩ => ?_
  unfold mgmtQueue at hl
  split at hl
  · next e =>
    simp only [if_pos e, List.length_append, List.length_singleton]
    omega
  · next e =>
    simp only [if_neg e, List.length_append, List.length_singleton]
    omega

theorem kept_execManagementLot {g : Fin 4} (h : execManagementLot g s = .next t) : Kept s t := by
  unfold execManagementLot at h
  refine kept_of_ite kept_of_none (fun h => ?_) h
  split at h
  · exact kept_of_none h
  · extract_lets s1 i m at h
    have h1 : Kept s s1 := kept_toReeve (Kept.refl s)
    have hb {c : CtrId} {n : Nat} : Kept s (bump c n 1 s1) := kept_bump h1
    refine kept_of_ite (kept_of_next h1) (kept_of_ite (kept_of_next hb)
      (kept_of_ite (kept_of_next hb) fun h => ?_)) h
    split at h
    · exact kept_of_next hb h
    · next hl => exact kept_of_next (kept_mgmtPush (Nat.lt_of_not_le hl) h1) h

/-! Activation, supervision, time. -/

theorem kept_execSwitchParent {m : FieldMsg} (h : execSwitchParent m s = .next t) : Kept s t := by
  unfold execSwitchParent at h
  refine kept_of_acceptMsg (fun _ _ k => ?_) h
  exact kept_requestSwitch k

theorem kept_execCommandTaken (h : execCommandTaken s = .next t) : Kept s t := by
  have hk := Kept.refl s
  unfold execCommandTaken at h
  refine kept_of_ite kept_of_none (fun h => ?_) h
  split at h
  · exact kept_of_next (kept_ite (kept_takeMgmt hk) (kept_takeMailbox hk)) h
  · exact kept_of_next (kept_takeMailbox hk) h
  · exact kept_of_next (kept_takeMgmt hk) h
  · exact kept_of_none h

theorem kept_execLosDeclare {l : Fin 4} (h : execLosDeclare l s = .next t) : Kept s t :=
  have h1 := kept_modLane (Kept.refl s)
  kept_of_ite (kept_of_next (kept_setLaneDefect h1)) (kept_of_next h1) h

theorem kept_execLosClear {l : Fin 4} (h : execLosClear l s = .next t) : Kept s t :=
  have h1 := kept_modLane (Kept.refl s)
  kept_of_ite (kept_of_next (kept_setLaneDefect h1)) (kept_of_next h1) h

theorem kept_execBinSecondEnd (h : execBinSecondEnd s = .next t) : Kept s t := by
  have add {a b n : Nat} {c : Prop} [Decidable c] {u : State} (k : Kept s u) :
      Kept s (if c then binAdd a b n u else u) := kept_ite (kept_binAdd k) k
  unfold execBinSecondEnd at h
  extract_lets s1 s2 s3 low sec at h
  have h1 : Kept s s1 := kept_each (fun _ _ k => kept_laneSecond k) (Kept.refl s)
  have h2 : Kept s s2 := kept_each (fun _ _ k => kept_modSupInst (add (add k))) h1
  have h3 : Kept s s3 := kept_each (fun _ _ k => kept_modSupDom (add (add k))) h2
  clear_value s3
  refine kept_of_next ?_ h
  exact kept_sup h3 ⟨rfl, rfl⟩

theorem kept_execPpsInEdge {e : BitVec 64} (h : execPpsInEdge e s = .next t) : Kept s t := by
  have hk := Kept.refl s
  refine kept_of_ite kept_of_none (kept_of_ite (kept_of_next (kept_bump hk))
    (kept_of_next (kept_bump (keep_time hk fun _ => ?_)))) h
  simp only [List.length_take]
  omega

theorem kept_execBinClose {day : Bool} {bad : List Bool} (h : execBinClose day s bad = .next t) :
    Kept s t := by
  refine kept_of_ite kept_of_none (kept_of_next (kept_closeBin ?_)) h
  exact kept_life (Kept.refl s) ⟨rfl, rfl, rfl, rfl⟩

theorem kept_execFitWindowEnd (h : execFitWindowEnd s = .next t) : Kept s t := by
  refine kept_of_next (kept_each (fun _ _ k => kept_fitLook ?_) (Kept.refl s)) h
  exact kept_time k rfl

theorem kept_execPpsOutEdge (h : execPpsOutEdge s = .next t) : Kept s t := by
  have hk := Kept.refl s
  unfold execPpsOutEdge at h
  split at h
  · exact kept_of_none h
  · refine kept_of_ite kept_of_none (kept_of_ite (kept_of_next (kept_bump hk))
      (kept_of_ite (kept_of_next (kept_drawn ?_)) (kept_of_next ?_))) h
    · exact kept_time hk rfl
    · exact kept_time hk rfl

theorem kept_execTodOutMessage (h : execTodOutMessage s = .next t) : Kept s t := by
  unfold execTodOutMessage at h
  split at h
  · exact kept_of_none h
  · exact kept_of_none h
  · refine kept_of_next ?_ h
    exact kept_time (Kept.refl s) rfl

/-! Server ports and precise time. -/

theorem kept_execRxFrameStart {p : Fin 8} {b : BitVec 64} (h : execRxFrameStart p b s = .next t) :
    Kept s t := by
  unfold execRxFrameStart at h
  extract_lets x stopped ok at h
  refine kept_of_ite kept_of_none (fun h => ?_) h
  split at h
  next cap s0 e =>
  extract_lets rx s1 at h
  have h1 : Kept s s1 := kept_modPort (kept_snd e (kept_rxCapture (Kept.refl s)))
  exact kept_of_next (kept_ite h1 (kept_ite (kept_takeBushels h1) (kept_bump h1))) h

theorem kept_execRxFrameEnd {p : Fin 8} {f : RxFrame} (h : execRxFrameEnd p f s = .next t) :
    Kept s t := by
  unfold execRxFrameEnd at h
  extract_lets s0 sc b n at h
  have h0 : Kept s s0 := kept_ite (Kept.refl s) (kept_rxNoted (Kept.refl s))
  split at h
  · exact kept_of_next h0 h
  · extract_lets good at h
    split at h
    next r s4 e =>
    extract_lets s5 at h
    have h4 : Kept s s4 := kept_snd e (kept_rxTaken h0)
    have hr : Kept s (rxRelease r s4) := kept_rxRelease h4
    have h5 : Kept s s5 := kept_bump h4
    exact kept_of_ite (kept_of_next (kept_bump hr)) (kept_of_ite
      (kept_of_next (kept_ite hr (kept_bump hr)))
      (kept_of_next (kept_ite (kept_acceptFrame h5) (kept_bump (kept_rxRelease h5))))) h

theorem kept_execSlCtleAdapt {l : Fin 8} {up : Bool} (h : execSlCtleAdapt l up s = .next t) :
    Kept s t :=
  kept_of_ite (kept_of_next (kept_modSLane (Kept.refl s))) kept_of_none h

theorem kept_execTxFrameDone {p : Fin 8} (h : execTxFrameDone p s = .next t) : Kept s t := by
  unfold execTxFrameDone at h
  split at h
  · exact kept_of_none h
  · extract_lets s0 s1 s2 at h
    have h0 : Kept s s0 := kept_countSent (kept_modPort (Kept.refl s))
    have h1 : Kept s s1 := by
      unfold s1
      split
      · exact kept_startPause h0
      · exact h0
    have h2 : Kept s s2 := by
      unfold s2
      split
      · exact kept_bump (kept_bump (kept_freeBushels (kept_modDs h1)))
      · exact h1
    exact kept_of_next (kept_startTime h2) h

theorem kept_execDelayReq {p : Fin 8} (h : execDelayReq p s = .next t) : Kept s t := by
  unfold execDelayReq at h
  split at h
  · exact kept_of_none h
  · next c _ =>
    extract_lets s1 ignored uni ip recent at h
    have h1 : Kept s s1 := kept_unclaim (Kept.refl s)
    have hi : ignored = .next t → Kept s t := kept_of_next (kept_bump h1)
    split at h
    · exact hi h
    · next m b src _ =>
      extract_lets who above dst at h
      clear_value dst
      split at h
      · exact hi h
      · split at h
        next st s2 e =>
        have h2 : Kept s s2 := kept_snd e (kept_takeStamp h1)
        split at h
        · exact kept_of_next (kept_bump h2) h
        · refine kept_of_ite hi (kept_of_next ?_) h
          exact kept_ptpSend (kept_bump (kept_modPort h2))

theorem kept_signalTlvs {s₀ : State} {p : Nat} {b : Bool} {src : Option Nat} {mac : BitVec 48}
    {ip : BitVec 128} : ∀ (n : Nat) (x : Bytes) (s : State), Kept s₀ s →
      Kept s₀ (signalTlvs p b src mac ip n x s).2
  | 0, _, _, h => h
  | n + 1, x, s, h => by
    unfold signalTlvs
    split
    · exact h
    · dsimp only
      exact kept_signalTlvs n _ _ (kept_signalTlv h)

theorem kept_execSignaling {p : Fin 8} (h : execSignaling p s = .next t) : Kept s t := by
  unfold execSignaling at h
  split at h
  · exact kept_of_none h
  · extract_lets s1 ip mac at h
    have h1 : Kept s s1 := kept_unclaim (Kept.refl s)
    split at h
    · exact kept_of_next (kept_bump h1) h
    · extract_lets s2 len at h
      have h2 : Kept s s2 := kept_bump (kept_modPort h1)
      split at h
      next r s3 e =>
      have h3 : Kept s s3 := kept_snd e (kept_signalTlvs _ _ _ h2)
      refine kept_of_ite (kept_of_next h3) (fun h => ?_) h
      split at h
      next seq s4 e4 => exact kept_of_next (kept_ptpSend (kept_snd e4 (kept_takeSeq h3))) h

theorem kept_execArpRequest {p : Fin 8} (h : execArpRequest p s = .next t) : Kept s t := by
  unfold execArpRequest at h
  split at h
  · exact kept_of_none h
  · extract_lets s1 at h
    have h1 : Kept s s1 := kept_unclaim (Kept.refl s)
    exact kept_of_ite (kept_of_next h1) (kept_of_next (kept_sendTime h1)) h

theorem kept_execNeighborSolicitation {p : Fin 8} (h : execNeighborSolicitation p s = .next t) :
    Kept s t := by
  unfold execNeighborSolicitation at h
  split at h
  · exact kept_of_none h
  · extract_lets s1 at h
    have h1 : Kept s s1 := kept_unclaim (Kept.refl s)
    exact kept_of_ite (kept_of_next h1) (kept_of_next (kept_sendTime (kept_drawn h1))) h

theorem kept_execPtpAnnounceTx {p : Fin 8} {b : Bool} {c : Option (BitVec 128)}
    (h : execPtpAnnounceTx p b c s = .next t) : Kept s t := by
  unfold execPtpAnnounceTx at h
  split at h
  · split at h
    next flags body _ =>
    split at h
    next seq s1 e =>
    exact kept_of_next (kept_ptpSend (kept_snd e (kept_takeSeq (kept_drawn (Kept.refl s))))) h
  · exact kept_of_none h

theorem kept_execPtpSyncTx {p : Fin 8} {b : Bool} {c : Option (BitVec 128)}
    (h : execPtpSyncTx p b c s = .next t) : Kept s t := by
  unfold execPtpSyncTx at h
  split at h
  · exact kept_of_none h
  · extract_lets one at h
    split at h
    next seq s1 e =>
    exact kept_of_next (kept_ptpSend (kept_snd e (kept_takeSeq (Kept.refl s)))) h

theorem kept_execFollowUp {p : Fin 8} {b : Bool} {c : Option (BitVec 128)}
    (h : execFollowUp p b c s = .next t) : Kept s t := by
  unfold execFollowUp at h
  split at h
  · exact kept_of_none h
  · have h1 {f : Port → Port} : Kept s (modPort p f s) := kept_modPort (Kept.refl s)
    split at h
    · exact kept_of_next h1 h
    · exact kept_of_next (kept_ptpSend h1) h

/-! Packets and tines. -/

theorem kept_execEmLookup {bad : List (Bool × Bool)} {n : Nat}
    (h : execEmLookup bad n s = .next t) : Kept s t := by
  unfold execEmLookup at h
  split at h
  · exact kept_of_none h
  · refine kept_of_ite kept_of_none (fun h => ?_) h
    extract_lets s1 at h
    have h1 : Kept s s1 := kept_bump (kept_modCls (Kept.refl s))
    split at h
    · next e => exact kept_of_next (kept_applyResult (kept_snd e (kept_emLookupOp h1))) h
    · next e => exact kept_of_next (kept_applyResult (kept_snd e (kept_emLookupOp h1))) h

theorem kept_execTineDispatch (h : execTineDispatch s = .next t) : Kept s t := by
  unfold execTineDispatch at h
  split at h
  · exact kept_of_none h
  · extract_lets x named good prog flow p b src view s1 s2 s3 at h
    refine kept_of_ite kept_of_none (fun h => ?_) h
    split at h
    · exact kept_of_none h
    · extract_lets th at h
      have h2 : Kept s s2 := kept_modTine (kept_modCls (Kept.refl s)) ⟨rfl, rfl, rfl, rfl⟩
      have h3 : Kept s s3 := kept_ite h2 (kept_bump h2)
      exact kept_of_next (kept_pmcInstant (kept_putThread (kept_bump h3))) h

theorem kept_execPmcOverflow {a : Fin 12} {b : Fin 16} (h : execPmcOverflow a b s = .next t) :
    Kept s t :=
  kept_of_ite kept_of_none (kept_of_next (kept_pmcWrap (kept_modPmc (Kept.refl s)))) h

theorem kept_execTrapQueueService {b : Bool} (h : execTrapQueueService b s = .next t) :
    Kept s t := by
  unfold execTrapQueueService at h
  split at h
  · exact kept_of_none h
  · next e rest hq =>
    extract_lets s1 p at h
    have h1 : Kept s s1 := keep_tine (Kept.refl s) id fun ⟨hl, hf⟩ => by
      rw [hq, List.length_cons] at hl
      exact ⟨Nat.le_of_succ_le hl, hf⟩
    refine kept_of_ite (kept_of_next (kept_freeBushels h1)) (kept_of_next ?_) h
    exact kept_inQ h1

theorem kept_execAtSwathExtrapolatedArrival (h : execAtSwathExtrapolatedArrival s = .next t) :
    Kept s t := by
  unfold execAtSwathExtrapolatedArrival at h
  split at h
  · exact kept_of_next (kept_commitNow (Kept.refl s)) h
  · exact kept_of_next (kept_heldCommitDue (Kept.refl s)) h
  · exact kept_of_none h

/-! Power states and the pair. -/

theorem kept_execPwrWake {m : FieldMsg} (h : execPwrWake m s = .next t) : Kept s t := by
  have hk := Kept.refl s
  exact kept_of_ite kept_of_none (kept_of_ite
    (kept_of_next (kept_acceptMsg (fun _ _ k => kept_actPwrWake k) hk))
    (kept_of_ite (kept_of_next (kept_actPwrWake hk)) kept_of_none)) h

theorem kept_execRouseDecision {b : Bool} (h : execRouseDecision b s = .next t) : Kept s t := by
  unfold execRouseDecision at h
  refine kept_of_ite kept_of_none (fun h => ?_) h
  extract_lets s1 code at h
  have h1 : Kept s s1 := keep_pwr (Kept.refl s) fun _ => by
    simp only [List.length_take]
    omega
  exact kept_of_ite (kept_of_next (kept_wakeEvent (kept_bump h1))) (kept_of_next h1) h

theorem kept_execTimeCmpStart {x : BitVec 64} (h : execTimeCmpStart x s = .next t) :
    Kept s t := by
  unfold execTimeCmpStart at h
  refine kept_of_ite (fun h => ?_) kept_of_none h
  split at h
  · exact kept_of_next (kept_tetherSend (kept_modPair (Kept.refl s))) h
  · exact kept_of_none h

theorem kept_execMirrorAck {ok : Bool} {q n : BitVec 32} {st : BitVec 16}
    (h : execMirrorAck ok q n st s = .next t) : Kept s t := by
  refine kept_of_next (kept_tetherIn (fun u k => ?_) (Kept.refl s)) h
  split
  · exact k
  · refine kept_ite (kept_bump (kept_answer (kept_modPair k))) ?_
    have h1 {f : Pair → Pair} : Kept s (bump cMirrorRefused scDevice 1 (modPair f u)) :=
      kept_bump (kept_modPair k)
    exact kept_ite (kept_answer h1) (kept_raise (kept_answer h1))

theorem kept_execMirrorAckTimeout (h : execMirrorAckTimeout s = .next t) : Kept s t := by
  unfold execMirrorAckTimeout at h
  split at h
  · exact kept_of_next (kept_noAck (Kept.refl s)) h
  · exact kept_of_none h

theorem kept_execTimeCmp {ok : Bool} {q n : BitVec 32} {r : Option (Int × Int)} {a b : BitVec 64}
    (h : execTimeCmp ok q n r a b s = .next t) : Kept s t := by
  refine kept_of_next (kept_tetherIn (fun u k => kept_ite k ?_) (Kept.refl s)) h
  split
  · split
    · exact kept_tetherSend k
    · exact k
  · split
    · exact kept_ite (kept_takeOffset k) k
    · exact k

theorem kept_execSnapReq {ok : Bool} {q : BitVec 32} {a b : BitVec 16}
    (h : execSnapReq ok q a b s = .next t) : Kept s t :=
  kept_of_next (kept_tetherIn (fun _ k => kept_ite k (kept_ite
    (kept_each (fun _ _ k => kept_tetherSend k)
      (kept_tetherSend (kept_each (fun _ _ k => kept_tetherSend k) k)))
    (kept_raiseGap (kept_tetherSend k)))) (Kept.refl s)) h

/-! The Reeve, the window and the boot flash. -/

theorem kept_execIbiRetry {a : Bool} (h : execIbiRetry a s = .next t) : Kept s t := by
  unfold execIbiRetry at h
  refine kept_of_ite kept_of_none (fun h => ?_) h
  split at h
  · exact kept_of_next (kept_modI3c (Kept.refl s)) h
  · exact kept_of_none h

theorem kept_execFwEraseDone {ok : Bool} (h : execFwEraseDone ok s = .next t) : Kept s t := by
  unfold execFwEraseDone at h
  split at h
  · exact kept_of_none h
  · extract_lets x s1 s2 at h
    have h1 : Kept s s1 :=
      kept_modRegion (fun _ _ => tabWf_nil) (kept_flash (Kept.refl s) ⟨rfl, rfl⟩)
    have h2 : Kept s s2 := kept_ite (kept_setRegionFree h1) (kept_drawn (kept_setRegionFree h1))
    exact kept_of_next (kept_raiseTag h2) h

theorem kept_execDebugPortAccess {op : DebugOp} (h : execDebugPortAccess op s = .next t) :
    Kept s t := by
  have hs {x : Sec} : Kept s { s with sec := x } := kept_sec (Kept.refl s)
  have hi {c : Prop} [Decidable c] {x : Sec} : Kept s (if c then { s with sec := x } else s) :=
    kept_ite hs (Kept.refl s)
  refine kept_of_ite kept_of_none (fun h => ?_) h
  cases op <;> dsimp only at h
  case bypass | idcode | samplePreload => exact kept_of_next hs h
  case readSlot => exact kept_of_none h
  all_goals exact kept_of_next hi h

theorem kept_execUndefinedFieldMessage {m : FieldMsg}
    (h : execUndefinedFieldMessage m s = .next t) : Kept s t :=
  have hk := Kept.refl s
  kept_of_ite kept_of_none (kept_of_ite kept_of_none
    (kept_of_ite (kept_of_next (kept_bump hk)) (kept_of_next (kept_bump hk)))) h

/-- A command that writes neither the upstream lanes nor the cipher engine keeps the state, apart
from TIMELINE_WRAP, which moves the timeline. -/
theorem kept_exec_of_rest {i : Instr} (hu : Part.us ∉ writes i) (hc : Part.cry ∉ writes i)
    (hw : i ≠ .timelineWrap) (h : exec i s = .next t) : Kept s t := by
  have hk := Kept.refl s
  have hi {f : I3c → I3c} : ∀ u, Kept s u → Kept s (modI3c f u) := fun _ k => kept_modI3c k
  cases i
  case timelineWrap => exact absurd rfl hw
  -- the clocks, the lanes and the lots
  case rootPllLock => exact kept_execRootPllLock h
  case discardHoldover => exact kept_execDiscardHoldover h
  case hrefclkReturn =>
    refine kept_of_next ?_ h
    exact kept_clk hk rfl
  case cdrLock => exact kept_of_ite kept_of_none (kept_of_next (kept_modLane hk)) h
  case cdrUnlock => exact kept_of_next (kept_modLane hk) h
  case ctleAdaptStep => exact kept_execCtleAdaptStep h
  case listenPowerUp => exact kept_of_ite (kept_of_next (kept_laneUp hk)) kept_of_none h
  case rawMarkerMatch => exact kept_execRawMarkerMatch h
  case lineSetEqApply => exact kept_of_next (kept_applyEq (kept_modLane hk)) h
  case fragReassemblyTimeout =>
    exact kept_of_ite (kept_of_next (kept_bump (kept_dropReasm hk))) kept_of_none h
  case plantReport => exact kept_execPlantReport h
  case managementLot => exact kept_execManagementLot h
  -- activation, supervision, time
  case gaspInAssert =>
    exact kept_of_ite kept_of_none (kept_of_next (kept_checkpoint (kept_pins hk))) h
  case gaspInClear => exact kept_of_next (kept_pins hk) h
  case assignPlot => exact kept_of_acceptMsg (fun _ _ k => kept_actAssignPlot k) h
  case assignLot => exact kept_of_acceptMsg (fun _ _ k => kept_actAssignLot k) h
  case switchParent => exact kept_execSwitchParent h
  case holdOffExpiry => exact kept_of_ite (kept_of_next (kept_holdOffRequest hk)) kept_of_none h
  case commandTaken => exact kept_execCommandTaken h
  case losDeclare => exact kept_execLosDeclare h
  case losClear => exact kept_execLosClear h
  case lolDeclare | lolClear =>
    exact kept_of_ite (kept_of_next (kept_setLaneDefect hk)) kept_of_none h
  case binSecondEnd => exact kept_execBinSecondEnd h
  case rdiEvaluation =>
    exact kept_of_next (kept_each (fun _ _ k => kept_holdOffLook (kept_rdiEvaluate k)) hk) h
  case ltmDeclare =>
    exact kept_of_ite (kept_of_next (kept_servoLose (kept_setDomDefect hk))) kept_of_none h
  case ppsInEdge => exact kept_execPpsInEdge h
  case usedRecordTimeout => exact kept_of_next (kept_servoLose hk) h
  case binClose => exact kept_execBinClose h
  case timeSow => exact kept_of_acceptMsg (fun _ _ k => kept_actSow k) h
  case holdValidExpiry =>
    exact kept_of_ite (kept_of_next (kept_timeLook (kept_modDom hk))) kept_of_none h
  case fitWindowEnd => exact kept_execFitWindowEnd h
  case slewDone => exact kept_of_ite (kept_of_next (kept_raise (kept_setOffset hk))) kept_of_none h
  case ppsInLost =>
    refine kept_of_ite (kept_of_next (kept_raise ?_)) kept_of_none h
    exact kept_time hk rfl
  case ppsOutEdge => exact kept_execPpsOutEdge h
  case ppsOutFall =>
    refine kept_of_next ?_ h
    exact kept_time hk rfl
  case todOutMessage => exact kept_execTodOutMessage h
  case tempSample =>
    refine kept_of_next ?_ h
    exact kept_life hk ⟨rfl, rfl, rfl, rfl⟩
  -- server ports and precise time
  case rxFrameStart => exact kept_execRxFrameStart h
  case rxFrameEnd => exact kept_execRxFrameEnd h
  case pauseExpiry | grantExpiry => exact kept_of_next (kept_modPort hk) h
  case slCtleAdapt => exact kept_execSlCtleAdapt h
  case txFrameDone => exact kept_execTxFrameDone h
  case delayReq => exact kept_execDelayReq h
  case signaling => exact kept_execSignaling h
  case arpRequest => exact kept_execArpRequest h
  case neighborSolicitation => exact kept_execNeighborSolicitation h
  case ptpAnnounceTx => exact kept_execPtpAnnounceTx h
  case ptpSyncTx => exact kept_execPtpSyncTx h
  case followUp => exact kept_execFollowUp h
  -- packets and tines
  case emLookup => exact kept_execEmLookup h
  case sweepDone =>
    exact kept_of_ite kept_of_none
      (kept_of_next (kept_raise (kept_modCls (kept_bump hk)))) h
  case retireSlow => exact kept_of_ite (kept_of_next (kept_raise (kept_modCls hk))) kept_of_none h
  case tineDispatch => exact kept_execTineDispatch h
  case pmcOverflow => exact kept_execPmcOverflow h
  case sampleTag =>
    exact kept_of_ite (kept_of_next (kept_countdownZero (kept_modSamp hk))) kept_of_none h
  case trapQueueService => exact kept_execTrapQueueService h
  case atSwathExtrapolatedArrival => exact kept_execAtSwathExtrapolatedArrival h
  -- power states
  case noticeWaitExpiry =>
    refine kept_of_ite (kept_of_next (kept_drainLook (kept_modPwr (kept_bump
      (kept_each (fun _ _ k => kept_withdrawNotice k) hk)) rfl))) kept_of_none h
  case pwrWake => exact kept_execPwrWake h
  case drainWaitExpiry =>
    refine kept_of_next ?_ h
    exact kept_modPwr hk rfl
  case entryE3 =>
    refine kept_of_ite (kept_of_next (kept_reachPoint (fun _ k => ?_) hk)) kept_of_none h
    exact kept_modPwr k rfl
  case entryE5 =>
    exact kept_of_ite (kept_of_ite (kept_of_next (kept_abandonEntry hk))
      (kept_of_next (kept_isolate hk))) kept_of_none h
  case slSignal => exact kept_of_ite (kept_of_next (kept_wakeEvent hk)) kept_of_none h
  case wakeIn => exact kept_of_next (kept_wakeEvent hk) h
  case i3cWake => exact kept_of_ite kept_of_none (kept_of_next (kept_wakeEvent hk)) h
  case rouseDecision => exact kept_execRouseDecision h
  case lineLight | lineDark =>
    exact kept_of_ite (kept_of_next (kept_wakeEvent (kept_modLane hk))) kept_of_none h
  case bufBankGated =>
    refine kept_of_ite (kept_of_next (kept_raiseTag ?_)) kept_of_none h
    exact kept_modPwr hk rfl
  -- the pair
  case leaseRenewal => exact kept_of_next (kept_ite (kept_startLease hk) hk) h
  case helloTx | healthTx => exact kept_of_next (kept_ite (kept_tetherSend hk) hk) h
  case timeCmpStart => exact kept_execTimeCmpStart h
  case mirrorAck _ q _ _ => exact kept_execMirrorAck (q := q) h
  case mirrorAckTimeout => exact kept_execMirrorAckTimeout h
  case timeCmp _ q _ _ _ _ => exact kept_execTimeCmp (q := q) h
  case snapReq _ q _ _ => exact kept_execSnapReq (q := q) h
  -- the Reeve, the window and the I3C target
  case lockstepMismatch | reeveWatchdogExpiry =>
    exact kept_of_next (kept_ite hk (kept_reeveFault hk ⟨rfl, rfl, rfl⟩)) h
  case ibiRetry => exact kept_execIbiRetry h
  case mbDoorbell => exact kept_of_next (kept_addressed (fun _ k => kept_doorbell k) hk) h
  case mbInDataWrite =>
    exact kept_of_next (kept_addressed (fun _ k => kept_modI3c (kept_mbInWrite k)) hk) h
  case mbOutDataRead => exact kept_of_next (kept_addressed (fun _ k => kept_mbOutRead k) hk) h
  case evtPop => exact kept_of_next (kept_addressed (fun _ k => kept_popEvent k) hk) h
  case intStatClear => exact kept_of_next (kept_addressed (fun _ k => kept_clearInt k) hk) h
  case winCommit => exact kept_of_next (kept_addressed (fun _ k => kept_winCommit k) hk) h
  case setdasa => exact kept_of_next (kept_addressed hi hk) h
  case entdaa | rstdaa | enec | disec | setmwl | setmrl | enthdr0 =>
    exact kept_of_next (kept_broadcast hi hk) h
  case getmwl | getmrl | getpid | getbcr | getdcr =>
    exact kept_of_next (kept_addressed (fun _ k => kept_i3cAnswer k) hk) h
  case getstatus | getcaps =>
    exact kept_of_next (kept_addressed (fun _ k => kept_drawn (kept_i3cAnswer k)) hk) h
  case fwEraseDone => exact kept_execFwEraseDone h
  case debugPortAccess => exact kept_execDebugPortAccess h
  case undefinedFieldMessage => exact kept_execUndefinedFieldMessage h
  -- commands of the host
  case sysGetInfo => exact kept_of_runCmd (fun _ _ k => kept_sysGetInfoBody k) h
  case sysReset => exact kept_of_runCmd (fun _ _ k => kept_sysResetBody k) h
  case sysFwActivate => exact kept_of_runCmd (fun _ _ k => kept_sysFwActivateBody k) h
  case pwrSetState => exact kept_of_runCmd (fun _ _ k => kept_pwrSetStateBody k) h
  case pwrGetState => exact kept_of_runCmd (fun _ _ k => kept_pwrGetStateBody k) h
  case pwrGetWakeReport => exact kept_of_runCmd (fun _ _ k => kept_pwrGetWakeReportBody k) h
  case lineSetEq => exact kept_of_runCmd (fun _ _ k => kept_lineSetEqBody k) h
  case lineGetLock => exact kept_of_runCmd (fun _ _ k => kept_lineGetLockBody k) h
  case lineGetCounters => exact kept_of_runCmd (fun _ _ k => kept_lineGetCountersBody k) h
  case actStart => exact kept_of_runCmd (fun _ _ k => kept_actStartBody k) h
  case actGetState => exact kept_of_runCmd (fun _ _ k => kept_actGetStateBody k) h
  case supSetActions => exact kept_of_runCmd (fun _ _ k => kept_supSetActionsBody k) h
  case supGetDefects => exact kept_of_runCmd (fun _ _ k => kept_supGetDefectsBody k) h
  case supGetBins => exact kept_of_runCmd (fun _ _ k => kept_supGetBinsBody k) h
  case supSetThresholds => exact kept_of_runCmd (fun _ _ k => kept_supSetThresholdsBody k) h
  case timeSetDomains => exact kept_of_runCmd (fun _ _ k => kept_timeSetDomainsBody k) h
  case timeSelect => exact kept_of_runCmd (fun _ _ k => kept_timeSelectBody k) h
  case timeSetAsym => exact kept_of_runCmd (fun _ _ k => kept_timeSetAsymBody k) h
  case timeGetFit => exact kept_of_runCmd (fun _ _ k => kept_timeGetFitBody k) h
  case timeSetOutputs => exact kept_of_runCmd (fun _ _ k => kept_timeSetOutputsBody k) h
  case timeGetStatus => exact kept_of_runCmd (fun _ _ k => kept_timeGetStatusBody k) h
  case portSetFilters => exact kept_of_runCmd (fun _ _ k => kept_portSetFiltersBody k) h
  case portSetSheaf => exact kept_of_runCmd (fun _ _ k => kept_portSetSheafBody k) h
  case portGetStats => exact kept_of_runCmd (fun _ _ k => kept_portGetStatsBody k) h
  case ptpConfigurePort => exact kept_of_runCmd (fun _ _ k => kept_ptpConfigurePortBody k) h
  case ptpGetPort => exact kept_of_runCmd (fun _ _ k => kept_ptpGetPortBody k) h
  case clsLoadGraph => exact kept_of_runCmd (fun _ _ k => kept_clsLoadGraphBody k) h
  case clsSetPatterns => exact kept_of_runCmd (fun _ _ k => kept_clsSetPatternsBody k) h
  case clsStageRules => exact kept_of_runCmd (fun _ _ k => kept_clsStageRulesBody k) h
  case clsCommit => exact kept_of_runCmd (fun _ _ k => kept_clsCommitBody k) h
  case clsGetGeneration => exact kept_of_runCmd (fun _ _ k => kept_clsGetGenerationBody k) h
  case tineLoadProgram => exact kept_of_runCmd (fun _ _ k => kept_tineLoadProgramBody k) h
  case tineSetPerms => exact kept_of_runCmd (fun _ _ k => kept_tineSetPermsBody k) h
  case tineGetFaults => exact kept_of_runCmd (fun _ _ k => kept_tineGetFaultsBody k) h
  case pmcConfigure => exact kept_of_runCmd (fun _ _ k => kept_pmcConfigureBody k) h
  case pmcRead => exact kept_of_runCmd (fun _ _ k => kept_pmcReadBody k) h
  case pmcSampleRead => exact kept_of_runCmd (fun _ _ k => kept_pmcSampleReadBody k) h
  case qosSetSched => exact kept_of_runCmd (fun _ _ k => kept_qosSetSchedBody k) h
  case qosSetShaper => exact kept_of_runCmd (fun _ _ k => kept_qosSetShaperPortBody k) h
  case qosSetMeter => exact kept_of_runCmd (fun _ _ k => kept_qosSetMeterBody k) h
  case cryGetSlot => exact kept_of_runCmd (fun _ _ k => kept_cryGetSlotBody k) h
  case secGetLifecycle => exact kept_of_runCmd (fun _ _ k => kept_secGetLifecycleBody k) h
  case pairGetState => exact kept_of_runCmd (fun _ _ k => kept_pairGetStateBody k) h
  case lifeRead => exact kept_of_runCmd (fun _ _ k => kept_lifeReadBody k) h
  case lifeGetSummary => exact kept_of_runCmd (fun _ _ k => kept_lifeGetSummaryBody k) h
  case lifeMark => exact kept_of_runCmd (fun _ _ k => kept_lifeMarkBody k) h
  -- what is left writes the upstream lanes or the cipher engine
  case vddAonPowerOn | resetNAssert | pwrgoodFall | resetNRelease | pwrgoodRise | reeveRestart |
      mbRespAck | registerWrite | sysResetDeferred =>
    exact absurd (by dsimp only [writes]; decide) hu
  all_goals first
    | exact absurd (by dsimp only [writes]; decide) hu
    | exact absurd (by dsimp only [writes]; decide) hc

end Sys2Proof.Machine

/-! Every row of `exec` ends in a next state, whichever branch it takes. -/

namespace Sys2Proof.Machine

theorem exec_next (i : Instr) (s : State) : ∃ t, exec i s = .next t := by
  cases i
  case
      vddAonPowerOn | resetNAssert | pwrgoodFall | cdrUnlock | lotHeaderRelease | burstEnd |
      gaspInClear | rdiEvaluation | fitWindowEnd | pauseExpiry | faultCleared | hrefclkReturn |
      grantExpiry | ppsOutFall | nop | add | sub | and | or | xor | shl | shr | sra | mul |
      minu | maxu | mov | cmp | csadd | ext | ins | br | ldw | stw | push | pop | bmov | hash |
      ld | st | atom | srd | swr | satom | tlook | elook | meter | count | setQueue | tsread |
      pmcread | cipher | emit | drop | recirculate | trap | keySelWrite | keyLoad | keyErase |
      keyEraseAll | drainWaitExpiry | wakeIn | leaseRenewal | hello | helloTx | health |
      healthTx | mirrorCmd | mirrorAck | timeCmp | snapReq | snapData | snapEnd | snapTimeout |
      tetherHealthTimeout | tetherBlockLockLoss | lockstepMismatch | reeveWatchdogExpiry |
      reeveRestart | mbDoorbell | mbInDataWrite | mbOutDataRead | mbRespAck | evtPop |
      intStatClear | winCommit | registerWrite | sysResetDeferred | entdaa | setdasa | rstdaa |
      enec | disec | setmwl | setmrl | getmwl | getmrl | getpid | getbcr | getdcr | getstatus |
      getcaps | enthdr0 | sysGetInfo | sysReset | sysFwActivate | pwrSetState | pwrGetState |
      pwrSetDomains | pwrReleasePads | pwrGetWakeReport | lineConfigureLanes | lineSetEq |
      lineSetGroup | lineGetLock | lineGetCounters | actStart | actStop | actGetState |
      actSetParenting | supSetActions | supGetDefects | supGetBins | supSetThresholds |
      timeSetDomains | timeSelect | timeSetAsym | timeGetFit | timeSetOutputs | timeGetStatus |
      portConfigure | portSetFilters | portSetSheaf | portGetStats | ptpConfigurePort |
      ptpGetPort | clsLoadGraph | clsSetPatterns | clsStageRules | clsCommit | clsGetGeneration |
      tineLoadProgram | tineSetPerms | tineGetFaults | pmcConfigure | pmcRead | pmcSampleStart |
      pmcSampleRead | qosSetQueue | qosSetSched | qosSetShaper | qosSetMeter | qosGetQueue |
      cryBindSlot | crySeal | cryUnseal | cryGetSlot | secGetLifecycle | secAdvance |
      secDebugChallenge | secDebugUnlock | pairConfigure | pairGetState | pairYield |
      pairRejoin | lifeRead | lifeGetSummary | lifeMark | usedRecordTimeout |
      roleOutReadbackChange =>
    exact ⟨_, rfl⟩
  all_goals
    dsimp only [exec,
      execResetNRelease, execPwrgoodRise, execBootImageCheckDone, execRootPllLock,
      execRefclkLost, execRefclkReturn, execTimelineWrap, execCdrLock, execResumeTimeout,
      execCtleAdaptStep, execLineSetEqApply, execSwathBoundary, execFragReassemblyTimeout,
      execLaserWatchdog, execWatchdogRefclkTrip, execGaspInAssert, execHeProfile, execAssignId,
      execRangingTime, execAssignPlot, execAssignLot, execDeactivate, execSilence, execRelease,
      execTune, execSwitchParent, execToProfileExpiry, execToRangeExpiry, execToHoldExpiry,
      execToTuneExpiry, execSilenceDurationExpiry, execLosDeclare, execLosClear, execLolDeclare,
      execLolClear, execLtmDeclare, execHoldOffExpiry, execBinClose, execBinSecondEnd,
      execTimeSow, execHoldValidExpiry, execSlewDone, execPpsInLost, execRxFrameStart,
      execPcsStatusChange, execLinkUpDelayExpiry, execFaultOrderedSetRx, execBlockLockLoss,
      execHiBer, execSlCtleAdapt, execHrefclkLost, execSweepDone, execRetireSlow,
      execPmcOverflow, execSampleTag, execDrbgReseed, execEntropyExhausted, execEntryE2,
      execNoticeWaitExpiry, execEntryE3, execEntryE4, execEntryE5, execSlSignal, execLineLight,
      execLineDark, execI3cWake, execPwrWake, execRouseDecision, execListenPowerUp,
      execBufBankGated, execLeaseExpiry, execRoleDrop, execRoleInChange, execRoleClaim,
      execTakeover, execTempSample, execUndefinedFieldMessage, execDiscardHoldover,
      execRawMarkerMatch, execCodewordDecoded, execCw0NotReceived, execPlantReport,
      execManagementLot, execFurrowMapEntry, execHeaderSamplePoint, execBurstEnable,
      execFragAbandonTx, execTunePoll, execPpsInEdge, execRxFrameEnd, execDsSchedulingDecision,
      execTxFrameDone, execDelayReq, execSignaling, execArpRequest, execNeighborSolicitation,
      execPtpAnnounceTx, execPtpSyncTx, execFollowUp, execPpsOutEdge, execTodOutMessage,
      execCoulterWalk, execEmLookup, execRehashDone, execTineDispatch, execServiceResult,
      execCipherOpComplete, execKeyRequestCommit, execWakeComplete, execLockYieldExpiry,
      execMirrorAckTimeout, execTimeCmpStart, execCommandTaken, execIbiRetry, execFwEraseDone,
      execAtSwathExtrapolatedArrival, execDebugPortAccess, execTrapQueueService]
    repeat' split
    all_goals exact ⟨_, rfl⟩

end Sys2Proof.Machine

/-! What every command does to the queue, to soundness and to the fuses. -/

namespace Sys2Proof.Machine
variable {s t : State}

/-- `t` comes from `s` by operations that leave the queue of commands, keep soundness and burn
fuses only. -/
def Steady (s t : State) : Prop :=
  t.pending = s.pending ∧ (Sound s → Sound t) ∧ FusesKept s.fuses t.fuses

theorem Kept.steady (h : Kept s t) : Steady s t := by
  obtain ⟨hp, -, hs, hf, -⟩ := h
  exact ⟨hp, hs, hf⟩

theorem Steady.trans {u : State} (h : Steady s t) (k : Steady t u) : Steady s u := by
  obtain ⟨hp, hs, f1, f2, f3, f4, f5, f6, f7⟩ := h
  obtain ⟨kp, ks, g1, g2, g3, g4, g5, g6, g7⟩ := k
  have tr {w : Nat} {x y z : BitVec w} (p : x &&& y = x) (q : y &&& z = y) : x &&& z = x := by
    rw [← p, BitVec.and_assoc, q]
  exact ⟨kp.trans hp, ks ∘ hs, tr f1 g1, tr f2 g2, tr f3 g3, tr f4 g4, tr f5 g5, tr f6 g6,
    tr f7 g7⟩

theorem Steady.refl (s : State) : Steady s s := (Kept.refl s).steady

/-- The clocks are no part of what `Steady` reads. -/
theorem steady_advance (d : Nat) : Steady s (advance d s) := Steady.refl s

theorem steady_execBurstEnable {x : Fin 2} (h : execBurstEnable x s = .next t) : Steady s t := by
  unfold execBurstEnable at h
  split at h
  · exact (kept_of_none h).steady
  · next f _ =>
    split at h
    · exact (kept_of_none h).steady
    · extract_lets s0 at h
      have h0 : Kept s s0 := kept_setStage (kept_endBurst (Kept.refl s))
      split at h
      · exact (kept_of_next (kept_skipFurrow h0) h).steady
      · split at h
        · exact (kept_of_next h0 h).steady
        · next b _ =>
          obtain ⟨g, hg⟩ := kept_startBurst (s := s0) (x := x) (b := b)
          have h1 : Steady s (modUsLane x g s0) := h0.steady.trans (Steady.refl s0)
          exact Host.Outcome.next.inj h ▸ h1.trans hg.steady

theorem steady_execKeyRequestCommit (h : execKeyRequestCommit s = .next t) : Steady s t := by
  unfold execKeyRequestCommit at h
  extract_lets fin at h
  have hw (r : BitVec 3) {u : State} (k : Steady s u) : Steady s (fin r (keyWritten u)) :=
    k.trans (kept_keyWritten (Kept.refl u)).steady
  split at h
  · exact (kept_of_none h).steady
  · next w z _ =>
    obtain ⟨x, hx⟩ := kept_loadKey (s := s) (w := w) (z := z)
    generalize loadKey w z s = p at h hx
    obtain ⟨r, s1⟩ := p
    have h1 : Kept { s with cry := x } (fin r (if r = 0 then keyWritten s1 else s1)) :=
      kept_ite (c := r = 0) (kept_keyWritten hx) hx
    have h0 : Steady s { s with cry := x } := Steady.refl s
    exact Host.Outcome.next.inj h ▸ h0.trans h1.steady
  · exact Host.Outcome.next.inj h ▸ hw 0 (kept_eraseSlots (Kept.refl s)).steady
  · exact Host.Outcome.next.inj h ▸ hw 0 (kept_eraseAll (Kept.refl s)).steady

/-- The stores of the reset state are empty, and so are its queues and rings. -/
theorem sound_reset : Sound State.reset := ⟨by decide, by decide, by decide⟩

/-- The first power of VDD_AON leaves the reset state with the fuses, the boot flash and the
lifetime store as they were. -/
theorem steady_execVddAonPowerOn (h : execVddAonPowerOn s = .next t) : Steady s t := by
  cases h
  refine ⟨rfl, fun hs => ?_, (Steady.refl s).2.2⟩
  rw [sound_iff] at hs ⊢
  obtain ⟨⟨-, -, -, -, -, ha, hb⟩, -, -, -, hl⟩ := hs
  obtain ⟨⟨r1, r2, r3, r4, r5, -⟩, r6, r7, r8, -⟩ := sound_iff.1 sound_reset
  exact ⟨⟨r1, r2, r3, r4, r5, ha, hb⟩, r6, r7, r8, hl⟩

theorem steady_exec {i : Instr} (h : exec i s = .next t) : Steady s t := by
  by_cases hu : Part.us ∈ writes i
  · by_cases hb : ∃ x, i = .burstEnable x
    · obtain ⟨x, rfl⟩ := hb
      exact steady_execBurstEnable h
    · by_cases hk : i = .keyRequestCommit
      · subst hk
        exact steady_execKeyRequestCommit h
      · by_cases hv : i = .vddAonPowerOn
        · subst hv
          exact steady_execVddAonPowerOn h
        · exact (kept_exec_of_us hu (not_exists.1 hb) hk hv h).steady
  · by_cases hc : Part.cry ∈ writes i
    · exact (kept_exec_of_cry hc hu h).steady
    · by_cases hw : i = .timelineWrap
      · subst hw
        replace h : execTimelineWrap s = .next t := h
        unfold execTimelineWrap at h
        split at h
        · exact Host.Outcome.next.inj h ▸ steady_advance _
        · exact (kept_of_none h).steady
      · exact (kept_exec_of_rest hu hc hw h).steady

theorem steady_tick (s : State) : Steady s (tick s) := by
  have hw (d : Nat) : Steady s (windowLook (advance d s)) :=
    (steady_advance d).trans (kept_windowLook (Kept.refl _)).steady
  unfold tick
  split
  · extract_lets s1
    have h1 : Steady s s1 :=
      (hw 25).trans (kept_each (fun _ _ k => kept_rxArrive k) (Kept.refl _)).steady
    split
    · exact h1.trans (kept_coreCycle (Kept.refl s1)).steady
    · exact h1
  · split
    · exact hw 500
    · exact Steady.refl s

/-- A step keeps soundness and fuses: it runs one command or ticks. The queue, which a step
shortens, is no part of either. -/
theorem step_keeps (h : step s = .next t) : (Sound s → Sound t) ∧ FusesKept s.fuses t.fuses := by
  unfold step at h
  split at h
  · exact Host.Outcome.next.inj h ▸ (steady_tick s).2
  · next c rest _ =>
    have hc : Steady { s with pending := rest } t := steady_exec h
    exact hc.2

/-- Settles O6: a step runs one command or ticks, and neither clears a fuse (`step_keeps`). -/
theorem fusesOnlyGainBits : Obligations.FusesOnlyGainBits := fun _ _ h => (step_keeps h).2

/-- Settles O5: soundness is kept by every command and by a tick (`step_keeps`). -/
theorem everyStepKeepsSoundness : Obligations.EveryStepKeepsSoundness :=
  fun _ _ hs h => (step_keeps h).1 hs

/-- Settles O10: `only_exec` takes every row apart. -/
theorem everyCommandWritesOnlyItsParts : Obligations.EveryCommandWritesOnlyItsParts :=
  fun i _ _ h => only_exec i h

/-- Settles O4: every row ends in a next state (`exec_next`), and none touches the queue. -/
theorem everyCommandAnswersANextState : Obligations.EveryCommandAnswersANextState := by
  intro i s
  obtain ⟨t, h⟩ := exec_next i s
  exact ⟨t, h, (steady_exec h).1⟩

/-- Settles O1. -/
theorem stepRunsFrontCommand : Obligations.StepRunsFrontCommand := by
  intro c rest s h
  unfold step
  rw [h]

/-- Settles O3. -/
theorem resetStateIsSound : Obligations.ResetStateIsSound :=
  ⟨sound_reset, fun _ => rfl, fun _ => rfl, rfl⟩

end Sys2Proof.Machine

/-! Transfers on I3C (spec/20): what reaches a device, and the rows that answer one. -/

namespace Sys2Proof.Machine
variable {s t : State} {f : State → State}

/-- A row that ends in a state with the property does what is said, for the frame holds of every
row. -/
theorem does_next {i : Instr} {P : State → Prop} (h : exec i s = .next t) (p : P t) :
    Does i s P :=
  ⟨t, h, p, only_exec i h⟩

/-- A transfer reaches a device that is out of reset and not in DEEP_FALLOW. -/
theorem addressed_up (hr : s.pins.inReset = false) (hd : s.pwr.st ≠ .deepFallow) :
    addressed f s = f s := by
  simp only [addressed, i3cUp, hr, if_neg hd, Bool.not_false, Bool.not_true, Bool.false_eq_true,
    if_false]

theorem addressed_inReset (hr : s.pins.inReset = true) : addressed f s = s := by
  simp only [addressed, i3cUp, hr, Bool.not_true, Bool.not_false, if_true]

/-- In DEEP_FALLOW a transfer is a wake event (R467). -/
theorem addressed_deepFallow (hr : s.pins.inReset = false) (hd : s.pwr.st = .deepFallow) :
    addressed f s = wakeEvent 7 0 s := by
  simp only [addressed, i3cUp, hr, if_pos hd, Bool.not_false, Bool.not_true, Bool.false_eq_true,
    if_false]

theorem broadcast_up (hr : s.pins.inReset = false) (hd : s.pwr.st ≠ .deepFallow) :
    broadcast f s = f s := by
  have hb : (s.pwr.st == .deepFallow) = false := beq_eq_false_iff_ne.2 hd
  simp only [broadcast, i3cUp, hr, hb, Bool.not_false, Bool.not_true, Bool.or_self,
    Bool.false_eq_true, if_false]

theorem broadcast_inReset (hr : s.pins.inReset = true) : broadcast f s = s := by
  simp only [broadcast, i3cUp, hr, Bool.not_true, Bool.not_false, Bool.true_or, if_true]

theorem broadcast_deepFallow (hd : s.pwr.st = .deepFallow) : broadcast f s = s := by
  simp only [broadcast, hd, beq_self_eq_true, Bool.or_true, if_true]

/-- A row that is one operation on an addressed device does that operation. -/
theorem does_addressed {i : Instr} {P : State → Prop} (hr : s.pins.inReset = false)
    (hd : s.pwr.st ≠ .deepFallow) (he : exec i s = .next (addressed f s)) (p : P (f s)) :
    Does i s P :=
  does_next (he.trans (congrArg _ (addressed_up hr hd))) p

/-- A row that is one operation by a broadcast does that operation. -/
theorem does_broadcast {i : Instr} {P : State → Prop} (hr : s.pins.inReset = false)
    (hd : s.pwr.st ≠ .deepFallow) (he : exec i s = .next (broadcast f s)) (p : P (f s)) :
    Does i s P :=
  does_next (he.trans (congrArg _ (broadcast_up hr hd))) p

/-- An event that finds no room is counted (R537). -/
theorem raise_full {code : BitVec 16} {idx data : Nat} (h : ¬ s.reeve.events.length < 64) :
    raise code idx data s =
      bumpRaw cEventsLost scDevice 1 { s with reeve := { s.reeve with lost := s.reeve.lost + 1 } } :=
  if_neg h

/-- An event that finds room joins the queue, and its interrupts are requested. -/
theorem raise_queued {code : BitVec 16} {idx data : Nat} (h : s.reeve.events.length < 64) :
    raise code idx data s = pushEvent (mkEvent s code idx data none false) s :=
  if_pos h

/-- Settles O48. -/
theorem eventsQueueInOrderAndLossesAreCounted :
    Obligations.EventsQueueInOrderAndLossesAreCounted := by
  refine fun code idx data s => ⟨fun h => ?_, fun h => ?_⟩
  · have hr := raise_queued (code := code) (idx := idx) (data := data) h
    refine ⟨raise_events h, ?_, ?_, ?_, only_raise (List.Subset.refl _) (Only.refl s), ?_⟩
    · simp only [hr, pushEvent, setInt_rest]
    · simp only [hr, pushEvent, setInt_rest]
    · rw [hr, pushEvent, setInt_win, BitVec.or_assoc]
      simp only [List.isEmpty_iff]
      rfl
    · simp only [hr, pushEvent, setInt_rest]
  · rw [raise_full (Nat.not_lt.2 h)]
    exact ⟨rfl, (ctrOf_bumpRaw _ _ _ _ _).trans (if_pos rfl),
      only_bumpRaw (by decide) (only_f_reeve (by decide) (Only.refl s))⟩

/-- A restart of a Reeve that has met a fault is a reset (R525). -/
theorem restartReeve_faulted (h : s.reeve.lockstepErr = true ∨ s.reeve.wdog = true) :
    restartReeve s = sysReset s :=
  if_pos (Bool.or_eq_true_iff.2 h)

theorem restartReeve_sound (hl : s.reeve.lockstepErr = false) (hw : s.reeve.wdog = false) :
    restartReeve s = s := by
  simp only [restartReeve, hl, hw, Bool.or_self, Bool.false_eq_true, if_false]

/-- REEVE_CTRL written through the window restarts the Reeve and moves the window address on. -/
theorem reeveCtrlWrite_does {P : State → Prop} (hr : s.pins.inReset = false)
    (hd : s.pwr.st ≠ .deepFallow) (hh : s.i3c.hdr = false)
    (p : P (modI3c (fun i => { i with winAddr := 0x54 }) (restartReeve s))) :
    Does (.registerWrite 0x53 1) s P := by
  refine does_addressed hr hd rfl ?_
  simp only [hh, Bool.false_and, Bool.false_eq_true, if_false]
  exact p

/-- Settles O58: `restartReeve` is a reset of a faulted Reeve and nothing of another. -/
theorem onlyAFaultedReeveIsRestarted : Obligations.OnlyAFaultedReeveIsRestarted := by
  refine fun s hr hd => ⟨fun hf => ?_, fun hl hw => ?_⟩
  · have e := restartReeve_faulted hf
    obtain ⟨ha, ht, he, hu, hl, hw, hh⟩ := sysReset_keeps s
    refine ⟨does_addressed hr hd rfl ?_, fun hn => reeveCtrlWrite_does hr hd hn (by rw [e])⟩
    rw [e]
    exact ⟨rfl, hl, hw, hh, ha, ht, he, hu⟩
  · have e := restartReeve_sound hl hw
    exact ⟨does_addressed hr hd rfl e, fun hn => reeveCtrlWrite_does hr hd hn (by rw [e])⟩

/-- GETCAPS sets bit 0 of its first byte and answers as many bytes as it draws. -/
theorem capsBytes_facts (b : Bytes) (h : b.length = 4) :
    ((byteAt b 0 ||| 1) :: b.drop 1).length = 4 ∧
      (byteAt ((byteAt b 0 ||| 1) :: b.drop 1) 0).getLsbD 0 = true := by
  refine ⟨by rw [List.length_cons, List.length_drop, h], ?_⟩
  change (byteAt b 0 ||| 1).getLsbD 0 = true
  rw [BitVec.getLsbD_or]
  exact Bool.or_true _

/-- Settles O49: each code is one operation by a broadcast or on an addressed device. -/
theorem commonCommandCodesActAsTabled : Obligations.CommonCommandCodesActAsTabled := by
  refine fun s => ⟨fun hr hd => ?_, fun hr => ?_, fun hr hd => ⟨?_, ?_⟩⟩
  · refine ⟨fun a i hi => ?_, does_broadcast hr hd rfl rfl, does_broadcast hr hd rfl rfl,
      does_broadcast hr hd rfl rfl,
      fun n => ⟨does_broadcast hr hd rfl rfl, does_broadcast hr hd rfl rfl⟩,
      does_addressed hr hd rfl rfl, does_addressed hr hd rfl rfl, does_addressed hr hd rfl rfl,
      does_addressed hr hd rfl rfl, does_addressed hr hd rfl rfl,
      does_addressed hr hd rfl ⟨rfl, freeBytes_length s 2, rfl, rfl⟩, ?_,
      does_broadcast hr hd rfl rfl⟩
    · rcases hi with rfl | rfl
      · exact does_broadcast hr hd rfl rfl
      · exact does_addressed hr hd rfl rfl
    · obtain ⟨hl, hb⟩ := capsBytes_facts (freeBytes s 4) (freeBytes_length s 4)
      exact does_addressed hr hd rfl ⟨rfl, hl, hb, rfl⟩
  · have ha {g : State → State} : (Host.Outcome.next (addressed g s) : Out) = .next s :=
      congrArg _ (addressed_inReset hr)
    have hb {g : State → State} : (Host.Outcome.next (broadcast g s) : Out) = .next s :=
      congrArg _ (broadcast_inReset hr)
    simp only [List.forall_mem_cons]
    exact ⟨hb, hb, hb, ha, ha, ha, ha, ha, ha, ha, hb, List.forall_mem_nil _⟩
  · have hb {g : State → State} : (Host.Outcome.next (broadcast g s) : Out) = .next s :=
      congrArg _ (broadcast_deepFallow hd)
    simp only [List.forall_mem_cons]
    exact ⟨hb, hb, hb, hb, List.forall_mem_nil _⟩
  · have hw : exec .i3cWake s = .next (wakeEvent 7 0 s) :=
      if_neg (by rw [hr]; exact Bool.false_ne_true)
    have ha {g : State → State} : (Host.Outcome.next (addressed g s) : Out) = exec .i3cWake s :=
      (congrArg _ (addressed_deepFallow hr hd)).trans hw.symm
    simp only [List.forall_mem_cons]
    exact ⟨ha, ha, ha, ha, ha, ha, ha, List.forall_mem_nil _⟩

end Sys2Proof.Machine

/-! Reset and boot (spec/17, spec/23): what the reset lines and the ROM do. -/

namespace Sys2Proof.Machine
variable {s t : State}

/-- A release of reset with the lines as they are: TEST_MODE holds the device in reset, and
otherwise the ROM starts with the life cycle decoded. -/
theorem releaseReset_facts (s : State) :
    (releaseReset s).pins = { s.pins with gasp := false, inReset := s.pins.testHeld } ∧
    (releaseReset s).win.bootStatus = 0 ∧ (releaseReset s).fuses = s.fuses ∧
    (releaseReset s).clk.timeline = s.clk.timeline ∧
    (s.pins.testHeld = false → (releaseReset s).sec.lc = fuseState s) := by
  unfold releaseReset
  split
  · next h => exact ⟨by rw [h]; rfl, rfl, rfl, rfl, fun e => absurd (h.symm.trans e) (by decide)⟩
  · next h =>
    obtain ⟨hp, hf, hc, hb, hl⟩ := bootUp_facts (sys := false) (s := deviceReset false s)
    rw [hp, hf, hc, hb, hl, Bool.eq_false_iff.2 h]
    exact ⟨rfl, rfl, rfl, rfl, fun _ => rfl⟩

/-- Settles O12: the block enters reset with `enterReset`, and `releaseReset_facts` says what a
release does. -/
theorem resetLinesHoldAndReleaseTheBlock : Obligations.ResetLinesHoldAndReleaseTheBlock := by
  refine fun s => ⟨fun i hi => ?_, fun a m => ⟨_, rfl, ?_⟩, fun a m => ⟨_, rfl, ?_⟩, ?_⟩
  · rcases hi with rfl | rfl
    · exact ⟨_, rfl, rfl, (Bool.and_false _).symm, (Bool.and_true _).symm, fun _ => rfl, rfl, rfl,
        rfl, rfl, rfl, rfl, rfl, rfl⟩
    · exact ⟨_, rfl, rfl, (Bool.and_true _).symm, (Bool.and_false _).symm, fun _ => rfl, rfl, rfl,
        rfl, rfl, rfl, rfl, rfl, rfl⟩
  · cases s.pins.pwrGood with
    | true =>
      obtain ⟨hp, hb, hf, hc, hl⟩ := releaseReset_facts
        { s with pins := { s.pins with resetN := true, addr := a, testHeld := m } }
      rw [if_pos rfl, hp]
      exact ⟨rfl, rfl, rfl, hb, hf, hc, hl⟩
    | false =>
      rw [if_neg Bool.false_ne_true]
      exact ⟨rfl, rfl, rfl, rfl, rfl, rfl, fun e => Bool.noConfusion e⟩
  · cases s.pins.resetN with
    | true =>
      obtain ⟨hp, hb, hf, hc, hl⟩ := releaseReset_facts
        { s with pins := { s.pins with pwrGood := true, addr := a, testHeld := m } }
      rw [if_pos rfl, hp]
      exact ⟨rfl, rfl, rfl, hb, hf, hc, hl⟩
    | false =>
      rw [if_neg Bool.false_ne_true]
      exact ⟨rfl, rfl, rfl, rfl, rfl, rfl, fun e => Bool.noConfusion e⟩
  · exact ⟨_, rfl, rfl, rfl, rfl, rfl, rfl, rfl, rfl, rfl, fun _ => rfl⟩

/-- BOOT_STATUS becomes READY with the image taken; the vendor programs and the seeds touch neither
the window nor the Reeve. -/
theorem bootReady_facts {img fb : Bool} {fw : BitVec 32} (h : s.win.bootStatus ≠ 2) :
    (bootReady img fb fw s).win.bootStatus = 2 ∧ (bootReady img fb fw s).win.image = img ∧
    (bootReady img fb fw s).win.fallback = fb ∧ (bootReady img fb fw s).win.fwVersion = fw ∧
    (bootReady img fb fw s).reeve = s.reeve := by
  have hr : Only [.cry, .freeCtr] s (rngDraw (rngDraw s).2).2 :=
    only_rngDraw (List.Subset.refl _) (only_rngDraw (List.Subset.refl _) (Only.refl s))
  unfold bootReady
  generalize (rngDraw (rngDraw s).2).2 = r at hr ⊢
  generalize (rngDraw s).1 = a, (rngDraw (rngDraw s).2).1 = b
  have hv : Only [.tine, .settings] (bootTake img fb fw a b r)
      (vendorPrograms img fw (bootTake img fb fw a b r)) :=
    only_vendorPrograms (List.Subset.refl _) (Only.refl _)
  generalize vendorPrograms img fw (bootTake img fb fw a b r) = v at hv ⊢
  have hw : v.win = { r.win with image := img, fallback := fb, cmdFree := true, fwVersion := fw } :=
    hv .win (by decide)
  have hv' : v.reeve = r.reeve := hv .reeve (by decide)
  have hb : v.win.bootStatus ≠ 2 := by
    rw [hw, show r.win = s.win from hr .win (by decide)]
    exact h
  obtain ⟨h1, h2, h3, h4, -, h6⟩ := setBoot_facts hb
  rw [h1, h2, h3, h4, h6, hv', hw]
  exact ⟨rfl, rfl, rfl, rfl, hr .reeve (by decide)⟩

/-- Settles O13: `bootReady_facts` for each of the two images, `setBoot_facts` for neither. -/
theorem bootTriesTheNamedImageThenTheOther : Obligations.BootTriesTheNamedImageThenTheOther := by
  intro read s hs hr hc
  have hn (v : BitVec 8) (hv : 1 < v.toNat) : s.win.bootStatus ≠ v := fun e => by
    rw [e] at hs
    omega
  have hgo : ¬ (decide (1 < s.win.bootStatus.toNat) || s.pins.inReset || !s.clk.refclk) = true := by
    simp only [hr, hc, Bool.or_false, Bool.not_true, decide_eq_true_eq]
    omega
  obtain ⟨t, ht⟩ := exec_next (.bootImageCheckDone read) s
  refine ⟨t, ht, only_exec _ ht, ?_⟩
  replace ht : execBootImageCheckDone read s = .next t := ht
  unfold execBootImageCheckDone at ht
  rw [if_neg hgo] at ht
  split at ht
  · next h1 =>
    obtain ⟨f1, f2, f3, f4, -⟩ := bootReady_facts (img := s.flash.active.getD false) (fb := false)
      (fw := (bootCheck read s (s.flash.active.getD false)).fwVersion) (hn 2 (by decide))
    cases ht
    exact ⟨fun _ => ⟨f1, f2, f3, f4⟩, fun e => absurd h1 e, fun e => absurd h1 e⟩
  · next h1 =>
    refine ⟨fun e => absurd e h1, ?_⟩
    split at ht
    · next h2 =>
      obtain ⟨f1, f2, f3, f4, f5⟩ := bootReady_facts (img := !s.flash.active.getD false)
        (fb := true) (fw := (bootCheck read s (!s.flash.active.getD false)).fwVersion)
        (hn 2 (by decide))
      cases ht
      rw [raise_win]
      refine ⟨fun _ _ => ⟨f1, f2, f3, f4, fun hq => ?_⟩, fun _ e => absurd h2 e⟩
      rw [raise_events (by rw [f5]; exact hq), List.getLast?_concat]
      rfl
    · next h2 =>
      cases ht
      refine ⟨fun _ e => absurd e h2, fun _ _ => ?_⟩
      obtain ⟨f1, -, -, -, f5, -⟩ := setBoot_facts (v := 3)
        (s := { s with win := { s.win with recovery := true, cmdFree := true } }) (hn 3 (by decide))
      exact ⟨f1, f5⟩

end Sys2Proof.Machine

/-! Power states (spec/18): the points of an entry, the wake sources, the end of a wake. -/

namespace Sys2Proof.Machine
variable {s t : State} {n : Nat} {f : State → State}

/-- The block has left its entry at point `n`, in the state it came from (R474). -/
def LeftAt (n : Nat) (p : Pwr) (t : State) : Prop :=
  t.pwr.phase = .stable ∧ t.pwr.st = p.st ∧ t.pwr.point = n ∧ t.pwr.wake = none ∧
    t.pwr.latched = p.latchedWas ∧ t.pwr.on = p.on

/-- Where a wake event has latched, reaching a point abandons the entry. -/
theorem reachPoint_left (h : s.pwr.wake ≠ none) : LeftAt n s.pwr (reachPoint n f s) := by
  rw [reachPoint, if_pos (Option.isSome_iff_ne_none.2 h)]
  exact abandonEntry_pwr n s

theorem reachPoint_reached (h : s.pwr.wake = none) :
    reachPoint n f s = f (modPwr (fun p => { p with point := n }) s) := by
  rw [reachPoint, h]
  rfl

/-- What an entry leaves by is the same after work that leaves the power state, as
`PwrStays` says it. -/
theorem LeftAt.of_stays {u : State} (k : PwrStays s u) (h : LeftAt n u.pwr t) :
    LeftAt n s.pwr t := by
  obtain ⟨-, -, -, k4, k5, -, -, k8, -⟩ := k.get
  simpa only [LeftAt, k4, k5, k8] using h

/-- E2 with the work drained reaches point 2, the checkpoint of a deeper state written. -/
theorem execEntryE2_reaches (hp : s.pwr.phase = .entering) (h1 : s.pwr.point = 1)
    (hd : drained (drainLook s) = true) :
    ∃ u, PwrStays s u ∧ exec .entryE2 s = .next (reachPoint 2 gateLook u) := by
  have hk : PwrStays s (drainLook s) := pk_drainLook
  refine ⟨if pwrCode (drainLook s).pwr.target < 2 then drainLook s
    else checkpoint false (drainLook s), ?_, ?_⟩
  · split
    · exact hk
    · exact hk.tr (.only (ps := [.life]) (by decide) (only_checkpoint (by decide) (Only.refl _)))
  · obtain ⟨kp, kn, -⟩ := hk.get
    exact if_pos ⟨kp.trans hp, kn.trans h1, hd⟩

/-- At point 1 `drainLook` ends the wait for notices where it finds nothing to wait for. -/
theorem drainLook_noticeWait (h : s.pwr.noticeWait = false) :
    (drainLook s).pwr.noticeWait = false := by
  unfold drainLook
  split
  · split
    · rfl
    · rfl
  · exact h

/-- NOTICE_WAIT's end withdraws what is queued and goes on with the work of point 1. -/
theorem noticeWaitExpiry_facts (hp : s.pwr.phase = .entering) (h1 : s.pwr.point = 1)
    (hw : s.pwr.noticeWait = true) : Does .noticeWaitExpiry s fun t =>
      t.pwr.noticeWait = false ∧ t.pwr.phase = .entering ∧ t.pwr.point = 1 := by
  refine does_next (if_pos ⟨hp, h1, hw⟩) ?_
  have hb (l : List Nat) (k : Nat) :
      (bump cNoticeUnsent scDevice k (each withdrawNotice l s)).pwr = s.pwr :=
    only_bump (ps := .act :: counting) (by decide)
      (only_each (fun _ _ k => only_withdrawNotice (by decide) k) (Only.refl s)) .pwr (by decide)
  refine ⟨drainLook_noticeWait rfl, ?_, ?_⟩
  · exact pk_drainLook.get.1.trans ((congrArg Pwr.phase (hb _ _)).trans hp)
  · exact pk_drainLook.get.2.1.trans ((congrArg Pwr.point (hb _ _)).trans h1)

/-- E4 latches the pads of what goes into retention and notes what the detectors read. -/
theorem entryE4_facts {sl : BitVec 8} (hp : s.pwr.phase = .entering) (h3 : s.pwr.point = 3) :
    (s.pwr.wake = none → Does (.entryE4 sl) s fun t => t.pwr.phase = .entering ∧
      t.pwr.point = 4 ∧ t.pwr.target = s.pwr.target ∧ t.pwr.st = s.pwr.st ∧ t.pwr.on = s.pwr.on ∧
      t.pwr.latched = s.pwr.latched ||| (s.pwr.on &&& retDomains s.pwr.target &&& padDomains) ∧
      t.pwr.slAtE4 = sl ∧ ∀ l : Fin 4, t.pwr.lrxAtE4.getLsbD l = (laneOf s l).signal) ∧
    (s.pwr.wake ≠ none → Does (.entryE4 sl) s (LeftAt 4 s.pwr)) := by
  obtain ⟨u, hk, hu⟩ := latchPads_pk sl s
  obtain ⟨k1, -, k3, k4, k5, k6, k7, k8, k9, k10⟩ := hk.get
  have hw : (latchPads sl s).pwr.wake = s.pwr.wake := by rw [k6, hu]
  have he : exec (.entryE4 sl) s = .next (reachPoint 4 id (latchPads sl s)) := if_pos ⟨hp, h3⟩
  refine ⟨fun h => does_next he ?_, fun h => does_next he ?_⟩
  · rw [reachPoint_reached (hw.trans h)]
    simp only [id, modPwr, k1, k3, k4, k5, k7, k9, k10, hu]
    exact ⟨hp, trivial, trivial, trivial, trivial, trivial, trivial, foldl_lit _⟩
  · have hl : LeftAt 4 (latchPads sl s).pwr (reachPoint 4 id (latchPads sl s)) :=
      reachPoint_left (by rw [hw]; exact h)
    simpa only [LeftAt, k4, k5, k8, hu] using hl

/-- Settles O41: each point goes through `reachPoint`, and E5 through `isolate`. -/
theorem entryPointsFollowInOrder : Obligations.EntryPointsFollowInOrder := by
  refine fun s => ⟨fun hp => ⟨fun h1 hd => ?_, fun h1 hw => noticeWaitExpiry_facts hp h1 hw,
    fun h2 => ?_, fun h3 sl => entryE4_facts hp h3, fun h4 hr => ?_⟩, fun h => ?_, fun h sl => ?_,
    fun h => ?_, does_next rfl rfl⟩
  · obtain ⟨u, hk, he⟩ := execEntryE2_reaches hp h1 hd
    obtain ⟨k1, -, k3, k4, k5, k6, -⟩ := hk.get
    refine ⟨fun hw => does_next he ?_, fun hw => does_next he ?_⟩
    · rw [reachPoint_reached (k6.trans hw)]
      obtain ⟨g1, g2, g3, g4, g5, -⟩ :=
        (pk_gateLook (s := modPwr (fun p => { p with point := 2 }) u)).get
      rw [g1, g2, g3, g4, g5]
      exact ⟨k1.trans hp, rfl, k3, k4, k5⟩
    · exact (reachPoint_left (by rw [k6]; exact hw)).of_stays hk
  · have he : exec .entryE3 s = .next (reachPoint 3 (modPwr (fun p => { p with sigs := true })) s) :=
      if_pos ⟨hp, h2⟩
    exact ⟨fun hw => does_next he (reachPoint_reached hw), fun hw => does_next he
      (reachPoint_left hw)⟩
  · have hc : s.pwr.phase = .entering ∧ s.pwr.point = 4 ∧ s.clk.refclk = true := ⟨hp, h4, hr⟩
    refine ⟨fun hw => does_next (t := isolate s) ?_ (isolate_facts s),
      fun hw => does_next (t := abandonEntry 5 s) ?_ (abandonEntry_pwr 5 s)⟩
    · exact (if_pos hc).trans (if_neg (by rw [hw]; exact Bool.false_ne_true))
    · exact (if_pos hc).trans (if_pos (Option.isSome_iff_ne_none.2 hw))
  · exact if_neg (not_and_or.2 h)
  · exact if_neg (not_and_or.2 h)
  · refine if_neg fun ⟨a, b, c⟩ => ?_
    rcases h with h | h | h
    · exact h a
    · exact h b
    · exact Bool.false_ne_true (h.symm.trans c)

end Sys2Proof.Machine

/-! The wake sources and the end of a wake (spec/18). -/

namespace Sys2Proof.Machine
variable {s t : State}

/-- A wake event of source `code` has been noted, as the first or among the others (R480). -/
def Noted (code index : Nat) (s t : State) : Prop :=
  (s.pwr.wake = none →
    t.pwr.wake = some { source := code, index := BitVec.ofNat 8 index, others := 0,
                        era := s.clk.era, tl := now s } ∧
    t.pwr.phase = (if s.pwr.phase = .stable then .waking else s.pwr.phase)) ∧
  (∀ w, s.pwr.wake = some w → t.pwr.phase = s.pwr.phase ∧ t.pwr.wake = some (
    if w.source = code ∨ w.others.getLsbD code = true then w
    else { w with others := w.others ||| (1#16 <<< code) }))

/-- PWR_WAKE in a listening swath is the addressee's wake event. -/
theorem pwrWake_facts {m : FieldMsg} (hm : msgType m = 0x80)
    (hl : s.pwr.listening.getLsbD m.lane = true) (hb : msgTid m = 0xFFFF)
    (ht : tagOk s (groupOwner s m.group) m = true)
    (hs : (byteAt m.bytes 12).getLsbD 7 = true ∨ serialMatches s m = true)
    (ha : wakeArmed s 4 = true) : Does (.pwrWake m) s (Noted 4 m.group s) := by
  have h0 : s.pwr.listening ≠ 0 := fun e => by
    rw [e] at hl
    exact Bool.false_ne_true (BitVec.getLsbD_zero.symm.trans hl)
  have hc : (s.pwr.listening.getLsbD m.lane && msgTid m == 0xFFFF &&
      tagOk s (groupOwner s m.group) m) = true := by
    rw [hl, hb, ht, beq_self_eq_true]
    rfl
  have hact : actPwrWake m 0 s = (some 0, wakeEvent 4 m.group.val s) :=
    if_pos (Bool.or_eq_true_iff.2 hs)
  refine does_next (t := wakeEvent 4 m.group.val s) ?_ (wakeEvent_pwr ha)
  refine (if_neg (not_not_intro hm)).trans ((if_neg h0).trans ((if_pos hc).trans ?_))
  rw [hact]

/-- The state with the rouse correlator's decisions, and a match counted where `hit`. -/
def withChips (cs : List Bool) (s : State) : State := modPwr (fun p => { p with chips := cs }) s

/-- A decision of the rouse correlator is kept with the last 159, and wakes where the code is met. -/
theorem execRouseDecision_low (hp : s.pwr.st ≠ .run ∨ s.pwr.phase = .entering) (chip : Bool) :
    let s1 := withChips ((chip :: s.pwr.chips).take 160) s
    let code := settingN s sRouseCode scDevice
    exec (.rouseDecision chip) s =
      if code ≠ 0 ∧ rouseDistance code 32 0 ((chip :: s.pwr.chips).take 160) ≤
          settingN s sRouseErr scDevice then
        .next (wakeEvent 5 0 (bump cRouseMatch scDevice 1 s1)) else .next s1 := by
  refine if_neg fun ⟨h1, h2⟩ => ?_
  rcases hp with h | h
  · exact h h1
  · exact h2 h

/-- Counting a match leaves what a wake event reads: the clock, the power state, the settings. -/
theorem rouseMatch_noted {cs : List Bool} (ha : wakeArmed s 5 = true) :
    Noted 5 0 s (wakeEvent 5 0 (bump cRouseMatch scDevice 1 (withChips cs s))) ∧
    (wakeEvent 5 0 (bump cRouseMatch scDevice 1 (withChips cs s))).pwr.chips = cs := by
  have ho : Only counting (withChips cs s) (bump cRouseMatch scDevice 1 (withChips cs s)) :=
    only_bump (by decide) (Only.refl _)
  generalize bump cRouseMatch scDevice 1 (withChips cs s) = u at ho ⊢
  have hp : u.pwr = { s.pwr with chips := cs } := ho .pwr (by decide)
  have hc : u.clk = s.clk := ho .clk (by decide)
  have hs : u.settings = s.settings := ho .settings (by decide)
  have hu : wakeArmed u 5 = true := by
    rw [← ha]
    simp only [wakeArmed, pwrAim, settingN, setting, hp, hc, hs]
  refine ⟨?_, by rw [wakeEvent_chips, hp]⟩
  have hw := wakeEvent_pwr (index := 0) hu
  simp only [now, hp, hc] at hw
  exact hw

/-- LISTEN_POWER_UP takes the dormant listening lane to RESUME and no other. -/
theorem listenPowerUp_facts {l : Fin 4} (hf : s.pwr.st = .fallow)
    (hl : s.pwr.listening.getLsbD l = true) (hd : (laneOf s l).st = .dormant) :
    Does (.listenPowerUp l) s fun t => laneOf t l = { laneOf s l with st := .resume } ∧
      ∀ k, k ≠ l.val → laneOf t k = laneOf s k := by
  have he : exec (.listenPowerUp l) s = .next (laneUp l s) := if_pos ⟨hf, hl⟩
  have hlane (k : Nat) : laneOf (laneUp l s) k =
      if k = l.val then { laneOf s l with st := .resume } else laneOf s k := by
    rw [laneUp, if_pos hd]
    exact Eq.trans (b := laneOf (modLane l (fun x => { x with st := .resume }) s) k) rfl
      (laneOf_modLane _ _ _)
  exact does_next he ⟨(hlane _).trans (if_pos rfl), fun k hk => (hlane k).trans (if_neg hk)⟩

/-- Settles O42: each row is `wakeEvent` of its source where its own condition holds. -/
theorem wakeSourcesLatch : Obligations.WakeSourcesLatch := by
  refine fun s => ⟨fun l hp hn ha => ?_, fun l he hn ha => ?_, fun l he hn ha => ?_,
    fun ha => does_next rfl (wakeEvent_pwr ha), fun hr ha => ?_,
    fun m hm hl hb ht hs ha => pwrWake_facts hm hl hb ht hs ha, fun hp chip => ⟨?_, ?_⟩,
    fun hr hp chip => if_pos ⟨hr, hp⟩, fun ha => ?_, fun l hf hl hd => listenPowerUp_facts hf hl hd⟩
  · refine does_next (if_pos ?_) (wakeEvent_pwr (index := l) ha)
    rw [hp, hn]
    rfl
  · obtain ⟨hw, hl⟩ := wake_lane (index := l) (l := l)
      (f := fun x => { x with signal := true }) ha
    refine does_next (if_pos ?_) ⟨hw, (hl l).trans (if_pos rfl)⟩
    rw [he, hn]
    rfl
  · obtain ⟨hw, hl⟩ := wake_lane (index := l) (l := l)
      (f := fun x => { x with signal := false }) ha
    refine does_next (if_pos ?_) ⟨hw, (hl l).trans (if_pos rfl)⟩
    rw [he, hn]
    rfl
  · exact does_next (if_neg (by rw [hr]; exact Bool.false_ne_true)) (wakeEvent_pwr ha)
  · exact fun hc hd ha =>
      does_next ((execRouseDecision_low hp chip).trans (if_pos ⟨hc, hd⟩)) (rouseMatch_noted ha)
  · refine fun h => does_next ((execRouseDecision_low hp chip).trans (if_neg fun ⟨hc, hd⟩ => ?_)) rfl
    rcases h with h | h
    · exact hc h
    · omega
  · refine congrArg Host.Outcome.next (if_pos ?_)
    rw [ha]
    rfl

/-- BUF_BANK_GATED is of a bank being gated off that holds nothing (R487). -/
theorem bufBankGated_facts {b : Fin 24} (hg : s.pwr.gating.getLsbD (20 + b.val) = true)
    (hh : tabGet 0 s.pwr.bufHeld b.val = 0) : Does (.bufBankGated b) s fun t =>
      t.pwr = { s.pwr with
        gating := s.pwr.gating &&& ~~~(1#64 <<< (20 + b.val))
        on := s.pwr.on &&& ~~~(1#64 <<< (20 + b.val))
        gatingTag := tabSet 0 s.pwr.gatingTag b.val 0 } := by
  refine does_next (if_pos ?_) ?_
  · rw [hg, hh]
    rfl
  · exact only_raiseTag (ps := raising) (by decide) (Only.refl _) .pwr (by decide)

/-- What the end of a wake leaves of the power state: the domains, the report and the sequence
number come from the banks' check, `u`, and the rest is RUN's. -/
theorem completeWake_pwr (w : Wake) (failed : BitVec 64) (s : State) :
    let s1 := if s.pwr.st == .deepFallow then
      { s with clk := { s.clk with pllRunning := true, onFio := false } } else s
    let d := retDomains s.pwr.st &&& s1.pwr.onAtE1
    let u := failBanks failed d s1
    let bad := ((banksOf d).filter (fun k => failed.getLsbD k)).foldl
      (fun (m : BitVec 64) k => m ||| (1#64 <<< k)) 0
    let lost := ((ctrOf u cRetDiscard scDevice).value - (ctrOf s1 cRetDiscard scDevice).value).toNat
    (completeWake w failed s).pwr = { u.pwr with
      on := u.pwr.on ||| u.pwr.onAtE1, listening := 0, report := wakeReport u w bad lost
      wrSeq := u.pwr.wrSeq + 1, st := .run, phase := .stable, target := .run, wake := none
      intakeStopped := false, sigs := false, noticeP := false, noticeS := false
      stTags := [], runTags := [] } := by
  have hl (v : State) : (timeLook v).pwr = v.pwr :=
    only_timeLook (ps := counting ++ [.time]) (by decide) (Only.refl v) .pwr (by decide)
  have hr (v : State) : (refLook v).pwr = v.pwr :=
    only_refLook (ps := .clk :: raising) (by decide) (Only.refl v) .pwr (by decide)
  have hq (l : List Nat) (x : Nat) (v : State) : (each (queueNotice .run false x) l v).pwr = v.pwr :=
    only_each (ps := .act :: counting) (fun _ _ k => only_queueNotice (by decide) k)
      (Only.refl v) .pwr (by decide)
  have he (c : BitVec 16) (n : Nat) (ts : List (BitVec 16)) (v : State) :
      (pwrEvent c n ts v).pwr = v.pwr :=
    only_pwrEvent (ps := raising) (by decide) (Only.refl v) .pwr (by decide)
  have hg (v : State) : (reportGap v).pwr = v.pwr :=
    only_reportGap (ps := .clk :: counting) (by decide) (Only.refl v) .pwr (by decide)
  have ha (v : State) : (accrue v).pwr = v.pwr :=
    only_accrue (ps := [.life]) (by decide) (Only.refl v) .pwr (by decide)
  have hb (c : Prop) [Decidable c] (v : State) : (if c then wakeBins v else v).pwr = v.pwr := by
    split
    · exact only_wakeBins (ps := .sec :: counting) (by decide) (Only.refl v) .pwr (by decide)
    · rfl
  have hu (l : List Nat) (v : State) : (each laneUp l v).pwr = v.pwr :=
    only_each (ps := [.lanes, .sup]) (fun _ _ k => only_laneUp (by decide) k)
      (Only.refl v) .pwr (by decide)
  intro s1 d u bad lost
  unfold completeWake
  dsimp only
  rw [hl, hr, hq]
  simp only [modPwr, he, hg, ha, hb, hu]
  rfl

/-- Settles O43: `completeWake_pwr`, with no bank failing where the statement asks for more. -/
theorem wakingRestoresRun : Obligations.WakingRestoresRun := by
  refine fun s => ⟨fun w failed hp hw hr => ?_, fun failed h => ?_,
    fun b hg hh => bufBankGated_facts hg hh, fun b h => ?_⟩
  · have he : exec (.wakeComplete failed) s = .next (completeWake w failed s) := by
      change execWakeComplete failed s = _
      rw [execWakeComplete, hp, hw]
      refine if_neg fun ⟨h1, h2, h3⟩ => ?_
      rcases hr with h | h | h
      · exact h h1
      · simp only [h, Bool.not_true, Bool.false_eq_true] at h2
      · simp only [h, Bool.not_true, Bool.false_eq_true] at h3
    refine does_next he ?_
    rw [completeWake_pwr]
    refine ⟨rfl, rfl, rfl, rfl, rfl, rfl, rfl, rfl, rfl, rfl, fun hf => ?_⟩
    subst hf
    have hn (d : BitVec 64) : (banksOf d).filter (fun k => (0 : BitVec 64).getLsbD k) = [] :=
      List.filter_eq_nil_iff.2 fun k _ e =>
        Bool.false_ne_true (BitVec.getLsbD_zero.symm.trans e)
    have h1 : (if (s.pwr.st == .deepFallow) = true then
        { s with clk := { s.clk with pllRunning := true, onFio := false } } else s).pwr = s.pwr := by
      split
      · rfl
      · rfl
    simp only [failBanks_none, h1]
    refine ⟨trivial, trivial, trivial, fun hd => ?_⟩
    rw [hn, if_neg (by rw [beq_iff_eq]; exact hd), BitVec.sub_self]
    rfl
  · change execWakeComplete failed s = _
    unfold execWakeComplete
    split
    · next w hp hw =>
      rcases h with h | h
      · exact absurd hp h
      · exact nomatch hw.symm.trans h
    · rfl
  · refine if_neg fun hc => ?_
    obtain ⟨h1, h2⟩ := Bool.and_eq_true_iff.1 hc
    rcases h with h | h
    · exact Bool.false_ne_true (h.symm.trans h1)
    · exact h (beq_iff_eq.1 h2)

end Sys2Proof.Machine

/-! The redundant pair (spec/19): the lease, the role wires, claims, takeover and yields. -/

namespace Sys2Proof.Machine
variable {s t : State}

/-- Where the chip does not yield, the looks after a change of the wires leave the pair. -/
theorem yieldGate_pair (h : s.pair.yielding = none) : (yieldLook (gateLook s)).pair = s.pair := by
  have hg := gateLook_pair h
  rw [yieldLook_none (by rw [hg]; exact h), hg]

/-- ROLE_DROP leaves ACTIVE out of step, and rejoins at once where it can (R497). -/
theorem roleDrop_facts (ha : s.pair.st = .active) (hl : leaseValid s = false) :
    Does .roleDrop s fun t =>
      t.pair.lease = none ∧ t.pair.roleOut = false ∧ t.pair.yielding = none ∧
      t.pair.outOfStep = true ∧
      t.pair.st = (if s.pair.claim = false ∧ s.pair.tetherUp = true ∧ s.pair.roleIn = true then
        .rejoining else .standby) := by
  refine does_next (if_pos (by rw [ha, hl]; rfl)) ?_
  generalize hu : leaveActive .standby (modPair (fun p => { p with
    yielding := none, outOfStep := true }) (bump cRoleDrop scDevice 1 s)) = u
  have hp : u.pair = { s.pair with
      yielding := none, outOfStep := true, lease := none, roleOut := false, st := .standby } := by
    rw [← hu, leaveActive_pair]
    simp only [modPair, bump_pair]
  have hg : (gateLook u).pair = u.pair := gateLook_pair (by rw [hp])
  obtain ⟨q, n, a, b, c, d, e⟩ := rejoinLook_pair (gateLook u)
  rw [e, hg, hp]
  refine ⟨rfl, rfl, rfl, rfl, ?_⟩
  simp only [Bool.true_or, true_and, and_true]

/-- ROLE_IN is read: a claiming chip of side 1 gives its claim up when it rises (R498). -/
def roleRead (level : Bool) (s : State) : State :=
  let s1 := modPair (fun p => { p with roleIn := level, forcePeer := p.forcePeer && !level }) s
  if level && s1.pair.claim && settingB s1 sSide scDevice then
    bump cClaimBackoff scDevice 1 (modPair (fun p => { p with claim := false, roleOut := false }) s1)
  else s1

theorem execRoleInChange_eq (level : Bool) (s : State) : exec (.roleInChange level) s =
    .next (rejoinLook (yieldLook (gateLook (roleRead level s)))) := rfl

theorem roleRead_pair (level : Bool) (s : State) :
    let back := level = true ∧ s.pair.claim = true ∧ settingB s sSide scDevice = true
    (roleRead level s).pair = { s.pair with
      roleIn := level, forcePeer := s.pair.forcePeer && !level
      claim := if back then false else s.pair.claim
      roleOut := if back then false else s.pair.roleOut } := by
  unfold roleRead
  dsimp only
  split
  · next h =>
    rw [Bool.and_eq_true, Bool.and_eq_true, and_assoc] at h
    replace h : level = true ∧ s.pair.claim = true ∧ settingB s sSide scDevice = true := h
    rw [bump_pair, if_pos h, if_pos h]
    rfl
  · next h =>
    rw [Bool.and_eq_true, Bool.and_eq_true, and_assoc] at h
    replace h : ¬ (level = true ∧ s.pair.claim = true ∧ settingB s sSide scDevice = true) := h
    rw [if_neg h, if_neg h]
    rfl

/-- ROLE_IN as read, of a chip that does not yield (R495, R498). -/
theorem roleInChange_facts (hy : s.pair.yielding = none) (level : Bool) :
    Does (.roleInChange level) s fun t =>
      let back := level = true ∧ s.pair.claim = true ∧ settingB s sSide scDevice = true
      t.pair.roleIn = level ∧ t.pair.forcePeer = (s.pair.forcePeer && !level) ∧
      t.pair.claim = (if back then false else s.pair.claim) ∧
      t.pair.roleOut = (if back then false else s.pair.roleOut) := by
  refine does_next (execRoleInChange_eq level s) ?_
  have hp := roleRead_pair level s
  generalize roleRead level s = u at hp ⊢
  obtain ⟨q, n, a, b, c, d, e⟩ := rejoinLook_pair (yieldLook (gateLook u))
  rw [e, yieldGate_pair (by rw [hp]; exact hy), hp]
  exact ⟨rfl, rfl, rfl, rfl⟩

/-- A claim of a STANDBY chip whose renewal conditions hold: with a version gap and no FORCE the
gap is told instead (R498, R520). -/
theorem roleClaim_standby (hr : s.pair.roleIn = false) (hs : s.pair.st = .standby)
    (hc : s.pair.claim = false) (hn : renewable s = true) :
    exec .roleClaim s = if (s.pair.versionGap && !s.pair.forceArmed) = true then .next (raiseGap s)
      else .next (modPair (fun p => { p with claim := true, roleOut := true }) s) := by
  change execRoleClaim s = _
  unfold execRoleClaim
  rw [if_neg (by rw [hr]; exact Bool.false_ne_true)]
  simp only [hs, reduceCtorEq, if_false, hc, hn, beq_self_eq_true, Bool.not_false, Bool.and_self,
    if_true]

/-- A REJOINING chip that could claim gives its rejoin up first (Table 19-3). -/
theorem roleClaim_rejoining (hr : s.pair.roleIn = false) (hs : s.pair.st = .rejoining) :
    Does .roleClaim s fun t => t.pair.st = .standby ∧ t.pair.stale = true ∧
      t.pair.snapping = false ∧ t.pair.snapshot = [] ∧ t.pair.attempts = 0 := by
  obtain ⟨t, ht⟩ := exec_next .roleClaim s
  refine does_next ht ?_
  change execRoleClaim s = .next t at ht
  unfold execRoleClaim at ht
  rw [if_neg (by rw [hr]; exact Bool.false_ne_true), if_pos hs] at ht
  generalize hu : setPair .standby (modPair (fun p => { p with
      stale := true, snapping := false, snapshot := [], attempts := 0 }) s) = u at ht
  have hp : u.pair = { s.pair with
      stale := true, snapping := false, snapshot := [], attempts := 0, st := .standby } := by
    rw [← hu, setPair_pair]
    rfl
  dsimp only at ht
  split at ht
  · split at ht
    · cases ht
      rw [raiseGap, raise_pair, hp]
      exact ⟨rfl, rfl, rfl, rfl, rfl⟩
    · cases ht
      simp only [modPair, hp, and_self]
  · cases ht
    rw [hp]
    exact ⟨rfl, rfl, rfl, rfl, rfl⟩

/-- A claiming chip becomes ACTIVE with a fresh lease (R502). -/
theorem takeover_facts (hs : s.pair.st = .standby) (hc : s.pair.claim = true)
    (hr : s.pair.roleIn = false) : Does .takeover s fun t => t.pair = { s.pair with
      st := .active, claim := false, forceArmed := false
      mirrorSeq := s.pair.lastApplied.getD 0
      lease := some (now s + BitVec.ofNat 64 (leaseGrains s)) } := by
  refine does_next (if_pos (by rw [hs, hc, hr]; rfl)) ?_
  rw [raise_pair, setPair_pair, bump_pair]
  rfl

/-- The lock yield of an ACTIVE chip without a lock: at once where no burst is being sent, and
noted where one is (R506, R507). -/
theorem lockYield_facts (ha : s.pair.st = .active) (hh : settingN s sLockYieldHold scDevice ≠ 0)
    (hp : peerReady s = true) (hv : s.pair.versionGap = false) (hy : s.pair.yielding = none)
    (hl : groupLocks s = 0) (hk : ∃ h, s.pair.health = some h ∧ h.locked ≠ 0) :
    let quiet := ∀ x ∈ [0, 1], ∀ b ∈ (usLaneOf s x).bursts.head?, b.sending = false
    (quiet → Does .lockYieldExpiry s fun t => t.pair = { s.pair with
      st := .standby, lease := none, roleOut := false, outOfStep := false
      forceArmed := false, forcePeer := false }) ∧
    (¬ quiet → Does .lockYieldExpiry s fun t => t.pair = { s.pair with
      yielding := some { force := false, isolate := false } }) := by
  obtain ⟨h, hh1, hh2⟩ := hk
  have he : exec .lockYieldExpiry s =
      .next (startYield { force := false, isolate := false } (raise 0x0F05 0 0 s)) := by
    refine if_pos ?_
    simp only [ha, hp, hv, hy, hl, hh1, bne_iff_ne, beq_self_eq_true, Bool.true_and, Bool.and_eq_true,
      Option.isNone_none, Bool.not_false, decide_eq_true_eq, and_true]
    exact ⟨hh, hh2⟩
  generalize hu : modPair (fun p => { p with
    yielding := some { force := false, isolate := false } }) (raise 0x0F05 0 0 s) = u
  have hpair : u.pair = { s.pair with
      yielding := some { force := false, isolate := false } } := by
    rw [← hu, modPair, raise_pair]
  have hus (x : Nat) : usLaneOf u x = usLaneOf s x := by
    simp only [← hu, usLaneOf, modPair, raise_rest]
  refine ⟨fun hq => does_next he ?_, fun hq => does_next he ?_⟩
  · rw [startYield, hu, yieldLook_quiet (by rw [hpair]) (by simpa only [hus] using hq), yieldNow]
    simp only [Bool.false_eq_true, if_false]
    rw [bump_pair, leaveActive_pair]
    simp only [modPair, hpair, hy]
  · rw [startYield, hu, yieldLook_busy (by simpa only [hus] using hq), hpair]

/-- Settles O44: one lemma for each row of the lease and the wires. -/
theorem rolesFollowLeaseAndWires : Obligations.RolesFollowLeaseAndWires := by
  refine fun s => ⟨fun ha hr => does_next (t := startLease s)
    (congrArg Host.Outcome.next (if_pos ?_)) rfl, fun h => ?_,
    fun ha hl hy => ?_, fun h => ?_, fun ha hl => roleDrop_facts ha hl, fun h => ?_,
    fun hy level => ⟨roleInChange_facts hy level, does_next rfl (yieldGate_pair hy)⟩,
    fun hr hs hc hn => ⟨fun h => ?_, fun h1 h2 => ?_⟩, fun hr hs => roleClaim_rejoining hr hs,
    fun hr => if_pos hr, fun hs hc hr => takeover_facts hs hc hr, fun h => ?_,
    fun ha hh hp hv hy hl hk => lockYield_facts ha hh hp hv hy hl hk⟩
  · rw [ha, hr]
    rfl
  · refine congrArg Host.Outcome.next (if_neg fun hc => ?_)
    simp only [Bool.and_eq_true, beq_iff_eq] at hc
    rcases h with h | h
    · exact h hc.1
    · exact Bool.false_ne_true (h.symm.trans hc.2)
  · refine does_next (if_pos ?_) ?_
    · rw [ha, Option.isSome_iff_ne_none.2 hl]
      rfl
    · have hp (u : State) : (raise 0x0F03 0 0 (bump cLeaseLapse scDevice 1 u)).pair = u.pair := by
        rw [raise_pair, bump_pair]
      rw [yieldGate_pair (by rw [hp]; exact hy), hp]
      rfl
  · refine if_neg fun hc => ?_
    simp only [Bool.and_eq_true, beq_iff_eq, Option.isSome_iff_ne_none] at hc
    rcases h with h | h
    · exact h hc.1
    · exact hc.2 h
  · refine if_neg fun hc => ?_
    simp only [Bool.and_eq_true, beq_iff_eq, Bool.not_eq_true'] at hc
    rcases h with h | h
    · exact h hc.1
    · exact Bool.false_ne_true (hc.2.symm.trans h)
  · refine does_next ((roleClaim_standby hr hs hc hn).trans (if_neg ?_)) rfl
    rcases h with h | h
    · simp only [h, Bool.false_and, Bool.false_eq_true, not_false_iff]
    · simp only [h, Bool.not_true, Bool.and_false, Bool.false_eq_true, not_false_iff]
  · refine does_next ((roleClaim_standby hr hs hc hn).trans (if_pos ?_)) rfl
    rw [h1, h2]
    rfl
  · refine if_neg fun hc => ?_
    simp only [Bool.and_eq_true, beq_iff_eq, Bool.not_eq_true'] at hc
    obtain ⟨⟨h1, h2⟩, h3⟩ := hc
    rcases h with h | h | h
    · exact h h1
    · exact Bool.false_ne_true (h.symm.trans h2)
    · exact Bool.false_ne_true (h3.symm.trans h)

end Sys2Proof.Machine

/-! The tether (spec/19): hellos, health, mirrored commands and the comparison of time. -/

namespace Sys2Proof.Machine
variable {s t : State}

/-! What an attempt to rejoin leaves of the pair. -/

/-- A pair, but for what an attempt to rejoin changes. -/
def pairKey (p : Pair) : Pair :=
  { p with sent := [], txSeq := 0, snapping := false, attempts := 0, snapshot := [], digestRun := 0
           st := .solo, outOfStep := false }

/-- Two states' pairs agree in `pairKey`. -/
def PairStays (s t : State) : Prop := pairKey t.pair = pairKey s.pair

theorem PairStays.trans {u : State} (h : PairStays s t) (k : PairStays t u) : PairStays s u :=
  Eq.trans k h

theorem PairStays.get (h : PairStays s t) : t.pair.hello = s.pair.hello ∧
    t.pair.health = s.pair.health ∧ t.pair.tetherUp = s.pair.tetherUp ∧
    t.pair.versionGap = s.pair.versionGap ∧ t.pair.cmpT1 = s.pair.cmpT1 ∧
    t.pair.wiringRun = s.pair.wiringRun :=
  have h' : pairKey t.pair = pairKey s.pair := h
  ⟨(congrArg Pair.hello h' : (pairKey t.pair).hello = _),
    (congrArg Pair.health h' : (pairKey t.pair).health = _),
    (congrArg Pair.tetherUp h' : (pairKey t.pair).tetherUp = _),
    (congrArg Pair.versionGap h' : (pairKey t.pair).versionGap = _),
    (congrArg Pair.cmpT1 h' : (pairKey t.pair).cmpT1 = _),
    (congrArg Pair.wiringRun h' : (pairKey t.pair).wiringRun = _)⟩

theorem stays_startAttempt : PairStays s (startAttempt s) := by
  unfold startAttempt
  split
  · rfl
  · rfl

theorem stays_rejoinFails : PairStays s (rejoinFails s) := by
  rw [PairStays, rejoinFails, raise_pair, bump_pair, setPair_pair]
  rfl

theorem stays_failAttempt : PairStays s (failAttempt s) := by
  unfold failAttempt
  split
  · exact stays_startAttempt
  · exact stays_rejoinFails

theorem stays_rejoinLook : PairStays s (rejoinLook s) := by
  obtain ⟨q, n, a, b, c, d, e⟩ := rejoinLook_pair s
  rw [PairStays, e]
  rfl

/-! Messages of the tether. -/

section
variable {f : State → State} {ok : Bool}

theorem tetherIn_off (h : tetherOn s = false) : tetherIn ok f s = s := by
  simp only [tetherIn, h, Bool.not_false, if_true]

theorem tetherIn_crc (h : tetherOn s = true) :
    tetherIn false f s = bump cTetherCrcErr scDevice 1 s := by
  simp only [tetherIn, h, Bool.not_false, Bool.not_true, if_true, Bool.false_eq_true, if_false]

theorem tetherIn_good (h : tetherOn s = true) : tetherIn true f s = f s := by
  simp only [tetherIn, h, Bool.not_true, Bool.false_eq_true, if_false]

/-- A row that is one operation on a whole message does that operation. -/
theorem does_tetherIn {i : Instr} {P : State → Prop} (h : tetherOn s = true)
    (he : exec i s = .next (tetherIn true f s)) (p : P (f s)) : Does i s P :=
  does_next (he.trans (congrArg _ (tetherIn_good h))) p

end

/-- The tether comes up: what has been heard of the peer stays. -/
theorem tetherRise_facts (s : State) : (tetherRise s).pair.hello = s.pair.hello ∧
    (tetherRise s).pair.tetherUp = true ∧ (tetherRise s).pair.versionGap = s.pair.versionGap := by
  unfold tetherRise
  generalize hu : raise 0x0F06 0 1 (modPair (fun p => { p with tetherUp := true }) s) = u
  have hp : u.pair = { s.pair with tetherUp := true } := by
    rw [← hu, raise_pair]
    rfl
  have hk {v : State} (k : PairStays u v) : v.pair.hello = s.pair.hello ∧
      v.pair.tetherUp = true ∧ v.pair.versionGap = s.pair.versionGap := by
    obtain ⟨k1, -, k3, k4, -⟩ := k.get
    rw [k1, k3, k4, hp]
    exact ⟨rfl, rfl, rfl⟩
  dsimp only
  split
  · exact hk stays_startAttempt
  · exact hk stays_rejoinLook

/-- A matching HELLO is kept and brings the tether up (R516). -/
theorem hello_facts {q : BitVec 32} {b : HelloBody} (h : tetherOn s = true)
    (hm : helloMatches b s = true) : Does (.hello true q b) s fun t =>
      t.pair.hello = some b ∧ t.pair.tetherUp = true ∧
      t.pair.versionGap = (b.fwVersion != s.win.fwVersion) := by
  refine does_tetherIn h rfl ?_
  simp only [hm, if_true]
  split
  · next hu => exact ⟨rfl, hu, rfl⟩
  · exact tetherRise_facts _

theorem wiringLook_pair (b : HealthBody) (s : State) : (wiringLook b s).pair = { s.pair with
    wiringRun := if b.roleOut = s.pair.roleIn then 0 else s.pair.wiringRun + 1 } := by
  unfold wiringLook
  dsimp only
  rw [apply_ite State.pair, raise_pair, ite_self]
  rfl

/-- A HEALTH is kept and compared: with this chip's firmware, with ROLE_IN, and, from an active peer
at a STANDBY chip, with what the instances have sent (R499, R512, R520). -/
theorem health_facts {q : BitVec 32} {b : HealthBody} (h : tetherOn s = true)
    (hu : s.pair.tetherUp = true) : Does (.health true q b) s fun t =>
      t.pair.health = some b ∧ t.pair.versionGap = (b.fwVersion != s.win.fwVersion) ∧
      t.pair.wiringRun = (if b.roleOut = s.pair.roleIn then 0 else s.pair.wiringRun + 1) ∧
      (s.pair.st = .standby → b.state = 1 →
        (instOf t 0).txSeq = b.fmSeqP + 1 ∧ (instOf t 1).txSeq = b.fmSeqS + 1) := by
  refine does_tetherIn h rfl ?_
  simp only [hu, Bool.not_true, Bool.false_eq_true, if_false]
  generalize h1 : wiringLook b (gapLook b.fwVersion (modPair (fun p => { p with health := some b }) s))
    = s1
  have hp : s1.pair = { s.pair with
      health := some b, versionGap := b.fwVersion != s.win.fwVersion
      wiringRun := if b.roleOut = s.pair.roleIn then 0 else s.pair.wiringRun + 1 } := by
    rw [← h1, wiringLook_pair]
    rfl
  generalize h2 : (if (s1.pair.st == .standby && decide (b.state = 1)) = true then
    dropSent 1 b.fmSeqS (dropSent 0 b.fmSeqP s1) else s1) = s2
  have hp2 : s2.pair = s1.pair := by
    rw [← h2]
    split
    · rfl
    · rfl
  have ha2 (hs : s.pair.st = .standby) (hb : b.state = 1) :
      (instOf s2 0).txSeq = b.fmSeqP + 1 ∧ (instOf s2 1).txSeq = b.fmSeqS + 1 := by
    rw [← h2, if_pos (by rw [hp, hs, hb]; rfl)]
    simp only [dropSent, instOf_modInst, if_true, Nat.zero_ne_one, if_false, and_self]
  generalize h3 : (if (s1.pair.st == .standby && decide (b.state = 1)) = true then
    digestLook b s2 else s2) = s3
  have hk3 : PairStays s2 s3 ∧ s3.act = s2.act := by
    rw [← h3]
    split
    · obtain ⟨ha, o, a, d, n, e, g, hd⟩ := digestLook_facts b s2
      refine ⟨?_, ha⟩
      rw [PairStays, hd]
      rfl
    · exact ⟨rfl, rfl⟩
  generalize h4 : (if (b.forcePeer && !(s.pair.health.any fun h => h.forcePeer) &&
    s3.pair.st == .standby) = true then modPair (fun p => { p with forceArmed := true }) s3 else s3)
    = s4
  have hk4 : s4.act = s3.act ∧ s4.pair.health = s3.pair.health ∧
      s4.pair.versionGap = s3.pair.versionGap ∧ s4.pair.wiringRun = s3.pair.wiringRun := by
    rw [← h4]
    split
    · exact ⟨rfl, rfl, rfl, rfl⟩
    · exact ⟨rfl, rfl, rfl, rfl⟩
  obtain ⟨a4, b4, c4, d4⟩ := hk4
  obtain ⟨-, k2, -, k4, -, k6⟩ := (stays_rejoinLook (s := s4)).get
  obtain ⟨-, m2, -, m4, -, m6⟩ := hk3.1.get
  refine ⟨?_, ?_, ?_, fun hs hb => ?_⟩
  · rw [k2, b4, m2, hp2, hp]
  · rw [k4, c4, m4, hp2, hp]
  · rw [k6, d4, m6, hp2, hp]
  · simp only [instOf, rejoinLook_act, a4, hk3.2]
    exact ha2 hs hb

/-- The waits for acknowledgements end without touching the rest of the pair. -/
theorem noAck_pair (h : Held) (s : State) : (noAck h s).pair = { s.pair with
    held := s.pair.held.map (fun x => if x = h then { x with awaitAck := false } else x) } := by
  rw [noAck, bump_pair, answer_pair]
  rfl

theorem each_noAck_pair : ∀ (l : List Held) (s : State), ∃ h,
    (each noAck l s).pair = { s.pair with held := h }
  | [], s => ⟨s.pair.held, rfl⟩
  | x :: l, s => by
    obtain ⟨h, e⟩ := each_noAck_pair l (noAck x s)
    exact ⟨h, by rw [each, e, noAck_pair]⟩

/-- The tether falls (R516). -/
theorem tetherFall_facts (hu : s.pair.tetherUp = true) : (tetherFall s).pair.tetherUp = false ∧
    (tetherFall s).pair.cmpT1 = none ∧ (tetherFall s).pair.wiringRun = 0 := by
  unfold tetherFall
  rw [if_neg (by rw [hu]; exact Bool.false_ne_true)]
  dsimp only
  generalize h1 : raise 0x0F06 0 0 (bump cTetherDown scDevice 1 (modPair (fun p => { p with
    tetherUp := false, cmpT1 := none, wiringRun := 0, digestRun := 0 }) s)) = s1
  have hp1 : s1.pair = { s.pair with
      tetherUp := false, cmpT1 := none, wiringRun := 0, digestRun := 0 } := by
    rw [← h1, raise_pair, bump_pair]
    rfl
  obtain ⟨held, h2⟩ := each_noAck_pair (s1.pair.held.filter (fun h => h.awaitAck)) s1
  generalize each noAck (s1.pair.held.filter (fun h => h.awaitAck)) s1 = s2 at h2 ⊢
  split
  · obtain ⟨-, -, k3, -, k5, k6⟩ := (stays_failAttempt (s := s2)).get
    rw [k3, k5, k6, h2, hp1]
    exact ⟨rfl, rfl, rfl⟩
  · rw [h2, hp1]
    exact ⟨rfl, rfl, rfl⟩

/-- A mirrored command whose check gave `st` is held, or marks the chip out of step (R510). -/
def mirrorTaken (known : Bool) (st : Nat) (h : Held) (s : State) : State :=
  if known then s
  else if st = 0 then modPair (fun p => { p with held := p.held ++ [h] }) s
  else if st = 8 then s
  else modPair (fun p => { p with outOfStep := true }) s

theorem mirrorTaken_pair (known : Bool) (st : Nat) (h : Held) (s : State) :
    (mirrorTaken known st h s).pair.sent = s.pair.sent ∧
    (mirrorTaken known st h s).pair.txSeq = s.pair.txSeq ∧
    (mirrorTaken known st h s).pair.held =
      if known = false ∧ st = 0 then s.pair.held ++ [h] else s.pair.held := by
  unfold mirrorTaken
  cases known with
  | true => exact ⟨rfl, rfl, (if_neg fun e => Bool.noConfusion e.1).symm⟩
  | false =>
    rw [if_neg Bool.false_ne_true]
    by_cases h0 : st = 0
    · rw [if_pos h0]
      exact ⟨rfl, rfl, (if_pos ⟨rfl, h0⟩).symm⟩
    · rw [if_neg h0]
      split
      · exact ⟨rfl, rfl, (if_neg fun e => h0 e.2).symm⟩
      · exact ⟨rfl, rfl, (if_neg fun e => h0 e.2).symm⟩

/-- A mirrored command is answered with the status of its check, and held where that is OK and it is
not held already (R510). -/
theorem mirrorCmd_facts {q seq : BitVec 32} {sc : BitVec 48} {op : BitVec 16} {c : Cmd}
    (h : tetherOn s = true) (hu : s.pair.tetherUp = true)
    (hs : s.pair.st = .standby ∨ s.pair.st = .rejoining) :
    let known := s.pair.held.any (fun h => h.fromPeer && h.mirrorSeq == seq)
    let st := if known = true then 0 else mirrorCheck op.toNat c s
    Does (.mirrorCmd true q seq sc op c) s fun t =>
      (∃ more, t.pair.sent =
        s.pair.sent ++ (s.pair.txSeq, .mirrorAck seq (BitVec.ofNat 16 st)) :: more) ∧
      t.pair.held = if known = false ∧ st = 0 then
        s.pair.held ++ [{ mirrorSeq := seq, applySc := sc, opcode := op,
                          cmd := { c with src := .mirror true }, awaitAck := false
                          fromPeer := true }]
        else s.pair.held := by
  intro known st
  have hg : (!s.pair.tetherUp || !(s.pair.st == .standby || s.pair.st == .rejoining)) = false := by
    rcases hs with hs | hs
    · rw [hu, hs]
      rfl
    · rw [hu, hs]
      rfl
  obtain ⟨p1, p2, p3⟩ := mirrorTaken_pair known st
    { mirrorSeq := seq, applySc := sc, opcode := op, cmd := { c with src := .mirror true }
      awaitAck := false, fromPeer := true } s
  have he : exec (.mirrorCmd true q seq sc op c) s = .next (rejoinLook (tetherSend
      (.mirrorAck seq (BitVec.ofNat 16 st)) (mirrorTaken known st
        { mirrorSeq := seq, applySc := sc, opcode := op, cmd := { c with src := .mirror true }
          awaitAck := false, fromPeer := true } s))) :=
    congrArg Host.Outcome.next ((tetherIn_good h).trans (if_neg (by rw [hg]; exact Bool.false_ne_true)))
  refine does_next he ?_
  generalize mirrorTaken known st _ s = s1 at p1 p2 p3 ⊢
  obtain ⟨more, n, a, b, d, e, g, hr⟩ :=
    rejoinLook_pair' (tetherSend (.mirrorAck seq (BitVec.ofNat 16 st)) s1)
  rw [hr]
  refine ⟨⟨more, ?_⟩, p3⟩
  change (s1.pair.sent ++ [(s1.pair.txSeq, _)]) ++ more = _
  rw [p1, p2, List.append_assoc]
  rfl

/-- The peer's answer ends the wait of the command it names: with another status than OK the
command is dropped (Table 19-7). -/
theorem mirrorAck_facts {q seq : BitVec 32} {st : BitVec 16} {h : Held} (ho : tetherOn s = true)
    (hf : s.pair.held.find? (fun h => h.awaitAck && h.mirrorSeq == seq) = some h) :
    Does (.mirrorAck true q seq st) s fun t => t.pair.held = if st = 0 then
      s.pair.held.map (fun x => if x = h then { x with awaitAck := false } else x)
      else s.pair.held.erase h := by
  refine does_tetherIn ho rfl ?_
  simp only [hf]
  split
  · rw [bump_pair, answer_pair]
    rfl
  · split
    · rw [answer_pair, bump_pair]
      rfl
    · rw [raise_pair, answer_pair, bump_pair]
      rfl

/-- An offset measured joins the seven before it (R517). -/
theorem takeOffset_pair (d : Int) (s : State) :
    let ds := (d :: s.pair.offsets).take 8
    (takeOffset d s).pair = { s.pair with
      offsets := ds, timeDiff := meanOffset ds, cmpT1 := none
      timeAlarmed := decide ((settingN s sTimeDiffLimit scDevice : Int) * 256 <
        (meanOffset ds).natAbs) } := by
  unfold takeOffset
  dsimp only
  rw [apply_ite State.pair, raise_pair, ite_self]
  rfl

/-- Settles O45: one lemma for each message of the tether. -/
theorem theTetherKeepsThePairInStep : Obligations.TheTetherKeepsThePairInStep := by
  refine fun s q => ⟨fun h ok b x => ⟨congrArg _ (tetherIn_off h), congrArg _ (tetherIn_off h)⟩,
    fun h b x => ⟨does_next rfl (tetherIn_crc h), does_next rfl (tetherIn_crc h)⟩,
    fun h b => ⟨fun hm => hello_facts h hm, fun hm => does_tetherIn h rfl ?_⟩,
    fun h hu => does_next (t := tetherSend (.hello (ownHello s)) s) (congrArg _ (if_pos ?_)) rfl,
    fun ⟨h, hu⟩ b => health_facts h hu,
    fun ⟨h, hu⟩ => does_next (t := tetherSend (.health (ownHealth s)) s) (congrArg _ (if_pos ?_)) rfl,
    fun hu i hi => ?_, fun hu i hi => ?_, fun ⟨h, hu⟩ hs seq sc op c => mirrorCmd_facts h hu hs,
    fun h seq st x hf => mirrorAck_facts h hf, fun h hf => ?_, fun hf => ?_,
    fun ⟨h, hu⟩ left t1 ht => ?_, fun ⟨h, hu⟩ n capture left => ⟨fun t2 t3 h2 h3 => ?_,
      fun t1 t2 t3 t4 h1 h4 hn => ?_⟩⟩
  · simp only [hm, Bool.false_eq_true, if_false]
  · rw [h, hu]
    rfl
  · rw [h, hu]
    rfl
  · rcases hi with rfl | rfl
    · exact does_next rfl (tetherFall_facts hu)
    · exact does_next rfl (tetherFall_facts hu)
  · have e : tetherFall s = s := if_pos (by rw [hu]; rfl)
    rcases hi with rfl | rfl
    · exact congrArg Host.Outcome.next e
    · exact congrArg Host.Outcome.next e
  · have he : exec .mirrorAckTimeout s = .next (noAck h s) := by
      change execMirrorAckTimeout s = _
      rw [execMirrorAckTimeout, hf]
    refine does_next he ?_
    rw [noAck_pair]
  · change execMirrorAckTimeout s = _
    rw [execMirrorAckTimeout, hf]
  · have he : exec (.timeCmpStart left) s = .next (tetherSend (.timeCmp (s.pair.exchange + 1) none)
        (modPair (fun p => { p with exchange := s.pair.exchange + 1, cmpT1 := some t1 }) s)) := by
      change execTimeCmpStart left s = _
      rw [execTimeCmpStart, if_pos (by rw [h, hu]; rfl), ht]
    exact does_next he rfl
  · have he : exec (.timeCmp true q n none capture left) s =
        .next (tetherSend (.timeCmp n (some (t2, t3))) s) := by
      change Host.Outcome.next (tetherIn true _ s) = _
      rw [tetherIn_good h]
      simp only [hu, Bool.not_true, Bool.false_eq_true, if_false, h2, h3]
    exact does_next he rfl
  · have he : exec (.timeCmp true q n (some (t2, t3)) capture left) s = .next (takeOffset
        ((t2 - t1) - (t4 - t3) - 512 * setting s sTetherAsym scDevice) s) := by
      change Host.Outcome.next (tetherIn true _ s) = _
      rw [tetherIn_good h]
      simp only [hu, Bool.not_true, Bool.false_eq_true, if_false, h1, h4, hn, if_true]
    exact does_next he (takeOffset_pair _ s)

end Sys2Proof.Machine

/-! Snapshots (spec/19): the active's answer, the chunks, and the end of an attempt. -/

namespace Sys2Proof.Machine
variable {s t : State}

/-- Where a rejoin ends for good the chip is ISOLATED with nothing kept of the attempt. -/
theorem rejoinFails_facts (s : State) : (rejoinFails s).pair.st = .isolated ∧
    (rejoinFails s).pair.snapping = false ∧ (rejoinFails s).pair.snapshot = [] ∧
    (rejoinFails s).pair.attempts = 0 := by
  rw [rejoinFails, raise_pair, bump_pair, setPair_pair]
  exact ⟨rfl, rfl, rfl, rfl⟩

/-- A snapshot taken makes the chip STANDBY, in step and not stale (R518). -/
theorem takeSnapshot_facts (o0 o1 : Optics) (sc : BitVec 48) (x : Snap) (s : State) :
    (takeSnapshot o0 o1 sc x s).pair.st = .standby ∧
    (takeSnapshot o0 o1 sc x s).pair.outOfStep = false ∧
    (takeSnapshot o0 o1 sc x s).pair.stale = false := by
  rw [takeSnapshot, bump_pair, setPair_pair]
  exact ⟨rfl, rfl, rfl⟩

/-- The active sends its snapshot, the end of it, and the commands that follow it (R518). -/
theorem snapReq_answered {q : BitVec 32} {lo hi : BitVec 16} (h : tetherOn s = true)
    (hu : s.pair.tetherUp = true) (hs : s.pair.st = .active) (hlo : lo.toNat ≤ 1)
    (hhi : 1 ≤ hi.toNat) : Does (.snapReq true q lo hi) s fun t =>
      let x := takeSnap s
      let b := Config.snapEncode x
      t.pair.sent.map (·.2) = s.pair.sent.map (·.2) ++ snapMessages b ++
        [.snapEnd 1 x.sc (BitVec.ofNat 32 b.length) (BitVec.ofNat 32 (crc32 b))] ++
        (s.pair.held.filter (fun h => decide (0 < scDiff x.sc h.applySc))).map
          (fun h => .mirrorCmd h.mirrorSeq h.applySc h.opcode h.cmd) := by
  refine does_tetherIn h rfl ?_
  have hg : ¬ (s.pair.st ≠ .active ∨ (!s.pair.tetherUp) = true) := by
    rw [hs, hu]
    simp only [ne_eq, not_true_eq_false, Bool.not_true, Bool.false_eq_true, or_self, not_false_iff]
  simp only [if_neg hg, if_pos (And.intro hlo hhi)]
  generalize takeSnap s = x
  obtain ⟨h1, h2⟩ := each_send id (snapMessages (Config.snapEncode x)) s
  rw [List.map_id] at h1
  obtain ⟨h3, -⟩ := each_send (fun h : Held => .mirrorCmd h.mirrorSeq h.applySc h.opcode h.cmd)
    (s.pair.held.filter (fun h => decide (0 < scDiff x.sc h.applySc)))
    (tetherSend (.snapEnd 1 x.sc (BitVec.ofNat 32 (Config.snapEncode x).length)
      (BitVec.ofNat 32 (crc32 (Config.snapEncode x))))
      (each tetherSend (snapMessages (Config.snapEncode x)) s))
  have h2' : (each tetherSend (snapMessages (Config.snapEncode x)) s).pair.held = s.pair.held := h2
  have h1' : (each tetherSend (snapMessages (Config.snapEncode x)) s).pair.sent.map (·.2) =
      s.pair.sent.map (·.2) ++ snapMessages (Config.snapEncode x) := h1
  generalize each tetherSend (snapMessages (Config.snapEncode x)) s = u at h1' h2' h3 ⊢
  have hsent (m : TetherMsg) : (tetherSend m u).pair.sent.map (·.2) =
      u.pair.sent.map (·.2) ++ [m] := by
    change (u.pair.sent ++ [(u.pair.txSeq, m)]).map (·.2) = _
    rw [List.map_append]
    rfl
  rw [hsent, h1'] at h3
  have hheld (m : TetherMsg) : (tetherSend m u).pair.held = s.pair.held := h2'
  rw [hheld]
  exact h3

/-- Settles O46: a failed attempt is `failAttempt`, a whole snapshot `takeSnapshot`. -/
theorem snapshotsBringARejoinerBack : Obligations.SnapshotsBringARejoinerBack := by
  refine fun s q => ⟨fun h hu hs lo hi => ⟨fun hlo hhi => snapReq_answered h hu hs hlo hhi,
      fun hb => ?_⟩,
    fun h hn schema off bytes => ⟨fun h1 h2 => ?_, fun hb => ?_⟩,
    fun h hn schema sc len crc o0 o1 => ⟨fun h0 => ?_, fun h0 hb => ?_, fun h0 h1 h2 h3 => ?_⟩,
    fun hs hn => ?_, fun hb => ?_, fun hn ok schema off bytes hok => ?_⟩
  · refine does_tetherIn h rfl ?_
    have hg : ¬ (s.pair.st ≠ .active ∨ (!s.pair.tetherUp) = true) := by
      rw [hs, hu]
      simp only [ne_eq, not_true_eq_false, Bool.not_true, Bool.false_eq_true, or_self, not_false_iff]
    have hv : ¬ (lo.toNat ≤ 1 ∧ 1 ≤ hi.toNat) := by omega
    simp only [if_neg hg, if_neg hv, raiseGap, raise_pair]
    rfl
  · refine does_tetherIn h rfl ?_
    have hg : ¬ (!s.pair.snapping) = true := by rw [hn]; exact Bool.false_ne_true
    simp only [if_neg hg, if_pos (And.intro h1 h2)]
    rfl
  · refine does_tetherIn h rfl ?_
    have hv : ¬ (schema = 1 ∧ off.toNat = s.pair.snapshot.length) := not_and_or.2 hb
    simp only [hn, Bool.not_true, Bool.false_eq_true, if_false, if_neg hv]
    exact failAttempt_facts s
  · refine does_tetherIn h rfl ?_
    simp only [hn, Bool.not_true, Bool.false_eq_true, if_false, if_pos h0]
    exact rejoinFails_facts _
  · refine does_tetherIn h rfl ?_
    simp only [hn, Bool.not_true, Bool.false_eq_true, if_false, if_neg h0, if_pos hb]
    exact failAttempt_facts s
  · refine does_tetherIn h rfl ?_
    have hv : ¬ (schema ≠ 1 ∨ len.toNat ≠ s.pair.snapshot.length ∨
        crc.toNat ≠ crc32 s.pair.snapshot) := by
      simp only [h1, h2, h3, ne_eq, not_true_eq_false, or_self, not_false_iff]
    simp only [hn, Bool.not_true, Bool.false_eq_true, if_false, if_neg h0, if_neg hv]
    cases hd : Config.snapDecode s.pair.snapshot with
    | none => exact failAttempt_facts s
    | some x => exact takeSnapshot_facts o0 o1 sc x s
  · have he : exec .snapTimeout s = .next (failAttempt s) :=
      congrArg Host.Outcome.next (if_pos (by rw [hs, hn]; rfl))
    exact does_next he (failAttempt_facts s)
  · refine congrArg Host.Outcome.next (if_neg fun hc => ?_)
    rw [Bool.and_eq_true, beq_iff_eq] at hc
    rcases hb with h | h
    · exact h hc.1
    · exact Bool.false_ne_true (h.symm.trans hc.2)
  · subst hok
    cases h : tetherOn s with
    | false => exact congrArg Host.Outcome.next (tetherIn_off h)
    | true =>
      refine congrArg Host.Outcome.next ((tetherIn_good h).trans (if_pos ?_))
      rw [hn]
      rfl

end Sys2Proof.Machine

/-! The window, the mailbox and the Reeve's side of the host interface (spec/20, spec/22). -/

namespace Sys2Proof.Machine
variable {s t : State}

/-- A reset that keeps what a commanded one does (R549, R525). -/
def ResetAgain (s t : State) : Prop :=
  t.settings = [] ∧ t.fuses = s.fuses ∧ t.clk.timeline = s.clk.timeline ∧
    t.i3c.dynAddr = s.i3c.dynAddr ∧ t.reeve.halted = false ∧ t.win.bootStatus = 0

/-- The acknowledgement of a response releases the window to the next one (R535). -/
theorem respAck_next {r : Resp} {rest : List Resp} (hv : s.win.respValid = true)
    (hp : resetPosted s = false) (hr : s.reeve.responses = r :: rest) :
    (respAck s).win.outbound = respBytes r ∧ (respAck s).win.respValid = true ∧
      (respAck s).reeve.responses = rest := by
  have he : respAck s = busyLook (setInt intResp (modWin (fun w => { w with
      outbound := respBytes r, respValid := true }) (modReeve (fun v => { v with responses := rest })
      (modWin (fun w => { w with respValid := false }) s)))) := by
    simp only [respAck, hv, hp, Bool.not_true, Bool.false_eq_true, if_false, postResponses, modWin,
      hr]
  rw [he]
  obtain ⟨hw, hre⟩ := setInt_facts intResp (modWin (fun w => { w with
      outbound := respBytes r, respValid := true }) (modReeve (fun v => { v with responses := rest })
      (modWin (fun w => { w with respValid := false }) s)))
  generalize setInt intResp _ = u at hw hre ⊢
  simp only [busyLook, modWin, hw, hre]
  exact ⟨trivial, trivial, rfl⟩

theorem respAck_empty (hv : s.win.respValid = true) (hp : resetPosted s = false)
    (hr : s.reeve.responses = []) :
    (respAck s).win.respValid = false ∧ (respAck s).win.outbound = s.win.outbound := by
  simp only [respAck, hv, hp, Bool.not_true, Bool.false_eq_true, if_false, postResponses, modWin,
    hr, busyLook, and_self]

theorem respAck_reset (hp : resetPosted s = true) (hv : s.win.respValid = true) :
    respAck s = commandedReset s := by
  simp only [respAck, hv, hp, Bool.not_true, Bool.false_eq_true, if_false, if_true]

/-- The response that asks for a reset stands in a valid window. -/
theorem resetPosted_valid (h : resetPosted s = true) : s.win.respValid = true := by
  unfold resetPosted at h
  split at h
  · exact (Bool.and_eq_true_iff.1 (Bool.and_eq_true_iff.1 h).1).1
  · exact absurd h Bool.false_ne_true

/-- An event placed in the FIFO stands at its tail with the next sequence number (R537). -/
theorem pushEvent_reeve (e : Event) (s : State) : (pushEvent e s).reeve = { s.reeve with
    events := s.reeve.events ++ [{ e with seq := s.reeve.evSeq }], evSeq := s.reeve.evSeq + 1 } := by
  rw [pushEvent, (setInt_facts _ _).2]

/-- A pop removes the head; where events were lost, the place takes the event that tells them
(R537). -/
theorem popEvent_facts {e : Event} {rest : List Event} (h : s.reeve.events = e :: rest) :
    (s.reeve.lost = 0 → popEvent s = { s with reeve := { s.reeve with events := rest } }) ∧
    (s.reeve.lost ≠ 0 → (popEvent s).reeve.lost = 0 ∧
      ∃ n, (popEvent s).reeve.events = rest ++ [n] ∧ n.code = 0x0101 ∧
        n.data = BitVec.ofNat 32 s.reeve.lost) := by
  have hs : popEvent s = if s.reeve.lost = 0 then modReeve (fun v => { v with events := rest }) s
      else pushEvent (mkEvent s 0x0101 0 s.reeve.lost none false)
        (modReeve (fun v => { v with events := rest, lost := 0 }) s) := by
    rw [popEvent, h]
    rfl
  refine ⟨fun h0 => hs.trans (if_pos h0), fun h0 => ?_⟩
  rw [hs, if_neg h0, pushEvent_reeve]
  exact ⟨rfl, _, rfl, rfl, rfl⟩

/-- A fault halts both cores (R524). -/
theorem reeveFault_facts (f : Reeve → Reeve) (s : State) :
    (reeveFault f s).reeve = { f s.reeve with halted := true } ∧
    (reeveFault f s).win.cmdFree = false ∧
    (reeveFault f s).win.intStat = s.win.intStat ||| intReeveFault := by
  obtain ⟨hw, hr⟩ := setInt_facts intReeveFault (modWin (fun w => { w with cmdFree := false })
    (modReeve (fun v => { f v with halted := true }) s))
  rw [reeveFault, hw, hr]
  exact ⟨rfl, rfl, rfl⟩

/-- A well-formed command joins those that firmware has taken. -/
theorem takeCommand_taken {src : CmdSrc} {b : Bytes} {fits : Nat → Bool}
    (hl : field b 2 2 ≤ 1016) (hf : fits (field b 2 2) = true) (ho : opDefined (field b 0 2) = true)
    (hr : BitVec.ofNat 14 (field b 6 2) = 0) : takeCommand src b fits s =
      modReeve (fun v => { v with taken := v.taken ++ [{
        opcode := BitVec.ofNat 16 (field b 0 2)
        cmd := { src := src, tag := BitVec.ofNat 16 (field b 4 2)
                 mirror := (field b 6 2).testBit 15, atSwath := (field b 6 2).testBit 14, rsvd := 0
                 payload := slice b 8 (field b 2 2) } }] }) s := by
  have h1 : ¬ (1016 < field b 2 2 ∨ (!fits (field b 2 2)) = true) := by
    rw [hf]
    simp only [Bool.not_true, Bool.false_eq_true, or_false]
    omega
  simp only [takeCommand, if_neg h1, ho, hr, bne_self_eq_false, Bool.not_true, Bool.or_self,
    Bool.false_eq_true, if_false]

/-- The mailbox's command, where no management command waits (R533). -/
theorem commandTaken_mailbox (hr : reeveRuns s = true) (hn : s.pins.inReset = false)
    (hu : s.win.rung = true) (hm : nextMgmt s = none) {b : Bytes}
    (hb : (List.range 1024).map (fun i => tabGet (0 : BitVec 8) s.win.inbound i) = b) :
    field b 2 2 ≤ 1016 → 8 + field b 2 2 ≤ s.win.inHigh → opDefined (field b 0 2) = true →
    BitVec.ofNat 14 (field b 6 2) = 0 →
    Does .commandTaken s fun t => t.win.cmdFree = true ∧ t.win.rung = false ∧
      t.win.inbound = [] ∧ t.reeve.taken = s.reeve.taken ++
        [{ opcode := BitVec.ofNat 16 (field b 0 2)
           cmd := { src := .mailbox, tag := BitVec.ofNat 16 (field b 4 2)
                    mirror := (field b 6 2).testBit 15, atSwath := (field b 6 2).testBit 14
                    rsvd := 0, payload := slice b 8 (field b 2 2) } }] := by
  intro hl hf ho hz
  have he : exec .commandTaken s = .next (takeMailbox s) := by
    change execCommandTaken s = _
    simp only [execCommandTaken, hr, hn, hu, hm, Bool.not_true, Bool.or_self, Bool.false_eq_true,
      if_false]
  refine does_next he ?_
  unfold takeMailbox
  dsimp only
  rw [hb, takeCommand_taken hl (decide_eq_true hf) ho hz]
  exact ⟨rfl, rfl, rfl, rfl⟩

/-- The oldest management command of its queue, where the mailbox has not rung (R545). -/
theorem commandTaken_mgmt {i : Fin 2} {m : MgmtCmd} (hr : reeveRuns s = true)
    (hn : s.pins.inReset = false) (hu : s.win.rung = false) (hm : nextMgmt s = some (i, m))
    (hp : m.payload.length = 8 + field m.payload 2 2) (hl : field m.payload 2 2 ≤ 1016)
    (ho : opDefined (field m.payload 0 2) = true) (hz : BitVec.ofNat 14 (field m.payload 6 2) = 0) :
    Does .commandTaken s fun t =>
      t.reeve.mgmt0 = (if i = 0 then s.reeve.mgmt0.drop 1 else s.reeve.mgmt0) ∧
      t.reeve.mgmt1 = (if i = 1 then s.reeve.mgmt1.drop 1 else s.reeve.mgmt1) ∧
      ∃ c : Cmd, c.src = .mgmt i m.lotId m.keyIdx ∧ c.payload = m.payload.drop 8 ∧
        t.reeve.taken = s.reeve.taken ++
          [{ opcode := BitVec.ofNat 16 (field m.payload 0 2), cmd := c }] := by
  have he : exec .commandTaken s = .next (takeMgmt i m s) := by
    change execCommandTaken s = _
    simp only [execCommandTaken, hr, hn, hu, hm, Bool.not_true, Bool.or_self, Bool.false_eq_true,
      if_false]
  refine does_next he ?_
  have hb (u : State) := bump_ext (c := cMgmtRx) (a := scInst i) (n := 1) (s := u) rfl
  unfold takeMgmt
  dsimp only
  rw [takeCommand_taken hl (decide_eq_true hp) ho hz]
  obtain ⟨h0, h1, h2⟩ := hb (modReeve (fun v => { v with
    lastFromMailbox := false
    mgmt0 := if i = 0 then v.mgmt0.drop 1 else v.mgmt0
    mgmt1 := if i = 1 then v.mgmt1.drop 1 else v.mgmt1 }) s)
  have hd : (m.payload.drop 8).length = field m.payload 2 2 := by
    rw [List.length_drop, hp]
    omega
  have hslice : slice m.payload 8 (field m.payload 2 2) = m.payload.drop 8 := by
    rw [slice, ← hd, List.take_length, Nat.sub_self, List.replicate_zero, List.append_nil]
  exact ⟨h0, h1, _, rfl, hslice, congrArg (· ++ _) h2⟩

/-- An accepted IBI is no longer pending (R539). -/
theorem ibiRetry_facts {b : Nat} {v : BitVec 8} (hr : s.pins.inReset = false)
    (hc : s.win.intCfg.getLsbD 1 = true) (he : s.i3c.ibiEnabled = true)
    (hn : nextIbi s = some (b, v)) : Does (.ibiRetry true) s fun t => t.i3c = { s.i3c with
      ibiPending := s.i3c.ibiPending &&& ~~~(1#5 <<< b), lastIbi := some v } := by
  have h : exec (.ibiRetry true) s = .next (modI3c (fun i => { i with
      ibiPending := i.ibiPending &&& ~~~(1#5 <<< b), lastIbi := some v }) s) := by
    change execIbiRetry true s = _
    simp only [execIbiRetry, i3cUp, hr, hc, he, hn, Bool.not_true, Bool.not_false, Bool.or_self,
      Bool.false_eq_true, if_false]
  exact does_next h rfl

/-- An erase that ends leaves the region erased, and one that fails leaves its bytes free
(R550). -/
theorem fwEraseDone_facts {img : Bool} {tag : BitVec 16} (h : s.flash.erasing = some (img, tag)) :
    (Does (.fwEraseDone true) s fun t => t.flash.erasing = none ∧
      (if img then t.flash.b = [] ∧ t.flash.freeB = none
       else t.flash.a = [] ∧ t.flash.freeA = none)) ∧
    (Does (.fwEraseDone false) s fun t => t.flash.erasing = none ∧
      (if img then t.flash.freeB = some s.freeCtr else t.flash.freeA = some s.freeCtr)) := by
  have hf (c : BitVec 16) (i d : Nat) (g : BitVec 16) (m : Bool) (u : State) :
      (raiseTag c i d g m u).flash = u.flash :=
    only_raiseTag (ps := raising) (by decide) (Only.refl u) .flash (by decide)
  have he (ok : Bool) : exec (.fwEraseDone ok) s = .next (raiseTag 0x0102 (bit img) (bit (!ok)) tag
      false (if ok then setRegionFree img none
          (modRegion img (fun _ => []) { s with flash := { s.flash with erasing := none } })
        else drawn (setRegionFree img (some s.freeCtr)
          (modRegion img (fun _ => []) { s with flash := { s.flash with erasing := none } })))) := by
    change execFwEraseDone ok s = _
    rw [execFwEraseDone, h]
    rfl
  refine ⟨does_next (he true) ?_, does_next (he false) ?_⟩
  · rw [hf]
    cases img with
    | false => exact ⟨rfl, rfl, rfl⟩
    | true => exact ⟨rfl, rfl, rfl⟩
  · rw [hf]
    cases img with
    | false => exact ⟨rfl, rfl⟩
    | true => exact ⟨rfl, rfl⟩

/-- COMMIT takes over what is staged; what it asks of the bus is no part of the window (R531). -/
theorem winCommit_win (s : State) : (winCommit s).win =
    { s.win with intEn := s.win.intEnStg, intCfg := s.win.intCfgStg } := by
  unfold winCommit
  dsimp only
  exact only_requestIbi (ps := [.i3c]) (by decide) (Only.refl _) .win (by decide)

/-- A write of the window's registers, outside HDR, is `windowWrite` with the address moved on. -/
theorem registerWrite_does {a v : BitVec 8} {P : State → Prop} (hr : s.pins.inReset = false)
    (hd : s.pwr.st ≠ .deepFallow) (hh : s.i3c.hdr = false)
    (p : P (modI3c (fun i => { i with winAddr := nextAddr false a }) (windowWrite a v s))) :
    Does (.registerWrite a v) s P := by
  refine does_addressed hr hd rfl ?_
  simp only [hh, Bool.false_and, Bool.false_eq_true, if_false]
  exact p

/-- MB_IN_DATA stores while CMD_FREE is 1 (R533). -/
theorem mbInWrite_free (h : s.win.cmdFree = true) (v : BitVec 8) : mbInWrite v s =
    modWin (fun w => { w with
      inbound := tabSet 0 w.inbound w.mbInPtr.toNat v
      inHigh := max w.inHigh (w.mbInPtr.toNat + 1), mbInPtr := w.mbInPtr + 1 }) s :=
  if_neg (by rw [h]; exact Bool.false_ne_true)

theorem mbInWrite_busy (h : s.win.cmdFree = false) (v : BitVec 8) : mbInWrite v s = s :=
  if_pos (by rw [h]; rfl)

/-- What a fault leaves set is the fault that came and those before it. -/
theorem faults_do (hr : s.pins.inReset = false) (i : Instr)
    (hi : i = .lockstepMismatch ∨ i = .reeveWatchdogExpiry) :
    Does i s fun t => t.reeve.halted = true ∧ t.win.cmdFree = false ∧
      t.win.intStat = s.win.intStat ||| intReeveFault ∧
      t.reeve.lockstepErr = (s.reeve.lockstepErr || i == .lockstepMismatch) ∧
      t.reeve.wdog = (s.reeve.wdog || i == .reeveWatchdogExpiry) := by
  have hn : ¬ s.pins.inReset = true := Bool.eq_false_iff.1 hr
  rcases hi with rfl | rfl
  · obtain ⟨h1, h2, h3⟩ := reeveFault_facts (fun v => { v with lockstepErr := true }) s
    refine does_next (congrArg Host.Outcome.next (if_neg hn)) ?_
    rw [h1]
    exact ⟨rfl, h2, h3, (Bool.or_true _).symm, (Bool.or_false _).symm⟩
  · obtain ⟨h1, h2, h3⟩ := reeveFault_facts (fun v => { v with wdog := true }) s
    refine does_next (congrArg Host.Outcome.next (if_neg hn)) ?_
    rw [h1]
    exact ⟨rfl, h2, h3, (Bool.or_false _).symm, (Bool.or_true _).symm⟩

/-- Settles O47: one lemma for each register and each of firmware's rows. -/
theorem windowAndMailboxFollowTheirRegisters : Obligations.WindowAndMailboxFollowTheirRegisters := by
  refine fun s => ⟨fun hr hd => ⟨fun hc => does_addressed hr hd rfl (if_pos hc),
      fun hc => does_addressed hr hd rfl (if_neg (Bool.eq_false_iff.1 hc)),
      fun v => ⟨fun hc => does_addressed hr hd rfl ?_, fun hc => does_addressed hr hd rfl ?_⟩,
      does_addressed hr hd rfl ⟨rfl, rfl, rfl⟩, fun hv => ?_, fun hv hp => ⟨fun r rest h =>
        does_addressed hr hd rfl (respAck_next hv hp h), fun h =>
        does_addressed hr hd rfl (respAck_empty hv hp h)⟩, fun hp => does_addressed hr hd rfl ?_,
      fun e rest h => ⟨fun h0 => does_addressed hr hd rfl ((popEvent_facts h).1 h0),
        fun h0 => does_addressed hr hd rfl ((popEvent_facts h).2 h0)⟩, fun h => ?_,
      fun b => does_addressed hr hd rfl rfl, does_addressed hr hd rfl (winCommit_win s),
      fun v hh => ⟨registerWrite_does hr hd hh ⟨rfl, rfl⟩, registerWrite_does hr hd hh ⟨rfl, rfl⟩,
        registerWrite_does hr hd hh ⟨rfl, fun hc => ?_⟩, registerWrite_does hr hd hh rfl⟩,
      fun hf => does_addressed hr hd rfl ?_, fun hl hw => ?_⟩,
    fun hp => does_next (t := commandedReset s) (congrArg Host.Outcome.next (if_pos hp))
      (commandedReset_again s),
    fun hp => congrArg Host.Outcome.next (if_neg (Bool.eq_false_iff.1 hp)),
    fun hr i hi => faults_do hr i hi,
    fun hr hn => ⟨fun hu hm hl hf ho hz => commandTaken_mailbox hr hn hu hm rfl hl hf ho hz,
      fun hu i m hm hp hl ho hz => commandTaken_mgmt hr hn hu hm hp hl ho hz⟩,
    fun hr hc he b v hn => ibiRetry_facts hr hc he hn, if_pos (by simp only [Bool.not_false, Bool.or_true]),
    fun img tag h => fwEraseDone_facts h, fun h ok => ?_, fun c => does_next rfl ⟨rfl, rfl⟩⟩
  · rw [mbInWrite_free hc]
    rfl
  · rw [mbInWrite_busy hc]
    rfl
  · refine congrArg Host.Outcome.next ((addressed_up hr hd).trans (if_pos ?_))
    rw [hv]
    rfl
  · rw [respAck_reset hp (resetPosted_valid hp)]
    exact commandedReset_again s
  · refine congrArg Host.Outcome.next ((addressed_up hr hd).trans ?_)
    rw [popEvent, h]
  · change (mbInWrite v s).win.inbound = _
    rw [mbInWrite_free hc]
    rfl
  · rw [restartReeve_faulted hf]
    exact sysReset_again s s ⟨rfl, rfl, rfl⟩
  · exact congrArg Host.Outcome.next ((addressed_up hr hd).trans (restartReeve_sound hl hw))
  · change execFwEraseDone ok s = _
    rw [execFwEraseDone, h]

end Sys2Proof.Machine

/-! The common checks of a command from the mailbox (spec/21). -/

namespace Sys2Proof.Machine
variable {s t : State} {op : Nat} {c : Cmd}

/-- A command without the mirror flag is no mirrored one. -/
theorem asMirrored_plain (hm : c.src = .mailbox) (h : c.mirror = false) :
    asMirrored op c s = false := by
  simp only [asMirrored, hm, h, Bool.and_false]

/-- The checks of a mailbox command of right length and zero RSVD bits, in their order; the last,
where nothing waits for a boundary, is `lateCheck`. -/
theorem cmdCheck_chain (hm : c.src = .mailbox) (hl : c.payload.length ≤ 1016) (hr : c.rsvd = 0)
    (v : Reeve) : ∃ r, cmdCheck op c { s with reeve := v } =
      (if s.win.recovery && !(op == 0x0101 || op == 0x0103) then some 6
       else if c.mirror && isLocalOp op && (s.pair.st != .solo || op == 0x0E02) then some 4
       else if s.pair.st != .solo && !isLocalOp op && !asMirrored op c s then some 5
       else if c.atSwath &&
         !(op == 0x0301 || op == 0x0303 || op == 0x0904 || asMirrored op c s) then some 4
       else r) ∧
      (c.atSwath = false → asMirrored op c s = false → r = lateCheck op c.payload s) := by
  have hmgmt : (splitCall c).mgmt = false := by
    rw [splitCall, hm]
    split
    · rfl
    · rfl
  have hlen : ¬ 1016 < c.payload.length := Nat.not_lt.2 hl
  unfold cmdCheck
  dsimp only
  rw [hmgmt, if_neg hlen, if_neg (not_not_intro hr)]
  simp only [Bool.false_and, Bool.false_eq_true, if_false, Bool.not_false, Bool.and_true]
  refine ⟨_, rfl, fun ha hn => ?_⟩
  have hn' : asMirrored op c { s with reeve := v } = false := hn
  simp only [ha, hn', Bool.false_and, Bool.or_self, Bool.false_eq_true, if_false, splitCall]
  rfl

theorem mem_of_or {a x y z : Nat} : a ∈ [x, y, z] ↔ (a == x || a == y || a == z) = true := by
  simp only [List.mem_cons, List.not_mem_nil, or_false, Bool.or_eq_true, beq_iff_eq, or_assoc]

/-- Settles O11: `declines` for the status that `cmdCheck_chain` gives. -/
theorem commandsThatFailACheckApplyNothing : Obligations.CommandsThatFailACheckApplyNothing := by
  intro i op c s hi hr hm
  obtain ⟨b, hb⟩ := asCommand_runs hi
  have hdec {st : Nat} (h2 : 2 ≤ st ∧ st ≤ 7)
      (hc : ∀ v, cmdCheck op c { s with reeve := v } = some st) : Declines i op c st s :=
    declines (hb s) hr hm h2 hc
  refine ⟨fun h => hdec (by decide) fun v => if_pos h,
    fun h h1 => hdec (by decide) fun v => (if_neg (Nat.not_lt.2 h)).trans (if_pos h1),
    fun hl hz => ?_⟩
  have hch := cmdCheck_chain (op := op) (s := s) hm hl hz
  refine ⟨fun hrec h1 h2 => hdec (by decide) fun v => ?_, fun hrec =>
    ⟨fun hmi hlo hp => hdec (by decide) fun v => ?_, fun hmi => ?_⟩⟩
  · obtain ⟨r, hr, -⟩ := hch v
    refine hr.trans (if_pos ?_)
    rw [hrec, beq_eq_false_iff_ne.2 h1, beq_eq_false_iff_ne.2 h2]
    rfl
  · obtain ⟨r, hr, -⟩ := hch v
    have hp' : (s.pair.st != .solo || op == 0x0E02) = true := by
      rw [Bool.or_eq_true, bne_iff_ne, beq_iff_eq]
      exact hp
    rw [hr, hrec, hmi, hlo, hp']
    rfl
  have hmir : asMirrored op c s = false := asMirrored_plain hm hmi
  simp only [hrec, hmi, hmir, Bool.false_and, Bool.false_eq_true, if_false, Bool.not_false,
    Bool.and_true, Bool.or_false] at hch
  refine ⟨fun hp hlo => hdec (by decide) fun v => ?_, fun hp => ?_⟩
  · obtain ⟨r, hr, -⟩ := hch v
    refine hr.trans (if_pos ?_)
    rw [hlo, bne_iff_ne.2 hp]
    rfl
  have hp' : ¬ (s.pair.st != .solo && !isLocalOp op) = true := by
    rw [Bool.and_eq_true, bne_iff_ne, Bool.not_eq_true']
    rintro ⟨h1, h2⟩
    rcases hp with h | h
    · exact h1 h
    · exact Bool.false_ne_true (h2.symm.trans h)
  simp only [if_neg hp'] at hch
  refine ⟨fun ha ho => hdec (by decide) fun v => ?_, fun ha => ?_⟩
  · obtain ⟨r, hr, -⟩ := hch v
    refine hr.trans (if_pos ?_)
    rw [ha, Bool.eq_false_iff.2 (mt mem_of_or.2 ho)]
    rfl
  simp only [ha, Bool.false_and, Bool.false_eq_true, if_false, true_implies] at hch
  have hlate (v : Reeve) : cmdCheck op c { s with reeve := v } = lateCheck op c.payload s := by
    obtain ⟨r, hr, hl⟩ := hch v
    rw [hr, hl]
  refine ⟨fun h => hdec (by decide) fun v => ?_, fun hn ho hc => ?_⟩
  · refine (hlate v).trans (if_pos ?_)
    rw [notReady, Bool.or_eq_true, decide_eq_true_eq, Bool.and_eq_true, waitsForPll,
      List.contains_iff_mem]
    exact h
  · have hw : waitsForPll op = false := by
      simp only [List.mem_cons, List.not_mem_nil, or_false] at ho
      rcases ho with rfl | rfl | rfl | rfl
      · rfl
      · rfl
      · rfl
      · rfl
    have hn : notReady op c.payload s = false := by
      simp only [notReady, hn, ne_eq, not_true_eq_false, decide_false, hw, Bool.and_false,
        Bool.or_self]
    have hb : commitBusy op s = true := by
      rw [commitBusy, hc, List.contains_iff_mem.2 ho]
      rfl
    refine hdec (by decide) fun v => (hlate v).trans ?_
    rw [lateCheck, hn, hb]
    rfl

end Sys2Proof.Machine

/-! System, lifetime, life-cycle, debug and power commands (spec/17, spec/18, spec/20, spec/22). -/

namespace Sys2Proof.Machine
variable {s t : State} {op : Nat} {b : CmdBody} {c : Cmd} {i : Instr} {st : Nat} {out : Bytes}
  {P : State → Prop}

/-- An accepted command answers and does as its own part says, whatever the Reeve still holds. -/
theorem does_command (hi : exec i s = .next (runCmd op b c s)) (ha : Accepted op c s)
    (hb : ∀ v, ∃ s1, b { payload := c.payload, tag := c.tag } { s with reeve := v } =
        ({ status := st, payload := out }, s1) ∧
      ∀ t q, Only [.win, .i3c, .reeve] s1 t → t.reeve = { s1.reeve with responses := q } → P t) :
    Does i s fun t => Replied op c st out t ∧ P t := by
  obtain ⟨v, hv⟩ := untake_reeve op c s
  obtain ⟨s1, h1, hP⟩ := hb v
  exact answers (fun _ h => only_exec _ h) hi ha hv h1 hP

/-- An accepted command that leaves the state answers and changes the host interface alone. -/
theorem does_answer (hi : exec i s = .next (runCmd op b c s)) (ha : Accepted op c s)
    (hb : ∀ v, b { payload := c.payload, tag := c.tag } { s with reeve := v } =
      ({ status := st, payload := out }, { s with reeve := v })) :
    Does i s fun t => Replied op c st out t ∧ Only [.win, .i3c, .reeve] s t :=
  does_command hi ha fun v => ⟨_, hb v, fun _ _ ho _ => host_of ho⟩

/-- SYS_RESET asks for the reset (R549). -/
theorem sysReset_does (hp : c.payload = []) (ha : Accepted 0x0102 c s) :
    Does (.sysReset c) s fun t => Replied 0x0102 c 0 [] t ∧
      Only [.win, .i3c, .reeve] s t ∧ t.reeve.resetBy = some (0x0102, c.tag) :=
  does_command rfl ha fun _ => ⟨_, fixed_ok (by rw [hp]; rfl), fun _ _ ho hr =>
    ⟨host_of (v := _) ho, by rw [hr]; rfl⟩⟩

/-- SYS_FW_ACTIVATE of eight bytes and a region that exists goes on to its operation. -/
theorem fwActivate_eight {p : Bytes} {g : BitVec 16} (hl : p.length = 8)
    (h1 : (byteAt p 0).toNat ≠ 1) (h3 : (byteAt p 0).toNat ≤ 3) (hr : (byteAt p 1).toNat ≤ 1) :
    let img := byteAt p 1 == 1
    let c : Call := { payload := p, tag := g }
    sysFwActivateBody c s =
      if (byteAt p 0).toNat ≤ 1 ∧ regionRuns s img = true then stDenied s
      else if (byteAt p 0).toNat = 0 then
        if s.flash.erasing.isSome then stBusy s
        else stPending { s with flash := { s.flash with load := none, erasing := some (img, g) } }
      else if (byteAt p 0).toNat = 2 then
        stOk ([(imageCheck s img).result, 0, 0, 0] ++ natBytes 4 (imageCheck s img).fwVersion.toNat) s
      else if s.pwr.phase ≠ .stable then stBusy s
      else if (imageCheck s img).result ≠ 0 then badArg 0 0 s
      else stOk [] (setBoot 4 (askReset 0x0103 c
        { s with flash := { s.flash with active := some img } })) := by
  intro img c
  have h8 : ¬ (p.length < 8 ∨ if (byteAt p 0).toNat = 1 then p.length < 16 ∨ 1016 < p.length
      else p.length ≠ 8) := by
    rw [if_neg h1, hl]
    decide
  have hb : ¬ (3 < (byteAt p 0).toNat ∨ 1 < (byteAt p 1).toNat) := by omega
  unfold sysFwActivateBody
  dsimp only
  rw [if_neg h8, if_neg hb, if_neg h1]

/-- The region's operations: ERASE, CHECK, ACTIVATE (R550). -/
theorem sysFwActivate_does (hl : c.payload.length = 8) (hr : (byteAt c.payload 1).toNat ≤ 1) :
    let p := c.payload
    let img := byteAt p 1 == 1
    let k := imageCheck s img
    ((byteAt p 0).toNat = 0 → regionRuns s img = false → s.flash.erasing = none →
      Accepted 0x0103 c s → Does (.sysFwActivate c) s fun t => Replied 0x0103 c 1 [] t ∧
        t.flash.load = none ∧ t.flash.erasing = some (img, c.tag)) ∧
    ((byteAt p 0).toNat = 2 → Accepted 0x0103 c s → Does (.sysFwActivate c) s fun t =>
      Replied 0x0103 c 0 ([k.result, 0, 0, 0] ++ natBytes 4 k.fwVersion.toNat) t ∧
        Only [.win, .i3c, .reeve] s t) ∧
    ((byteAt p 0).toNat = 3 → s.pwr.phase = .stable →
      Accepted 0x0103 c s → Does (.sysFwActivate c) s fun t =>
        Replied 0x0103 c (if k.result ≠ 0 then 4 else 0)
          (if k.result ≠ 0 then [0, 0, 0, 0] else []) t ∧
        (k.result = 0 →
          t.flash.active = some img ∧ t.reeve.resetBy = some (0x0103, c.tag))) := by
  intro p img k
  have hbody (h1 : (byteAt p 0).toNat ≠ 1) (h3 : (byteAt p 0).toNat ≤ 3) (u : State) :=
    fwActivate_eight (s := u) (p := p) (g := c.tag) hl h1 h3 hr
  refine ⟨fun h0 hrun he ha => does_command rfl ha fun v => ⟨{ s with
      reeve := v, flash := { s.flash with load := none, erasing := some (img, c.tag) } }, ?_,
      fun t q ho _ => ?_⟩, fun h2 ha => does_answer rfl ha fun v => ?_, fun h3 hp ha => ?_⟩
  · have hn : ¬ ((byteAt p 0).toNat ≤ 1 ∧ regionRuns { s with reeve := v } img = true) := fun h =>
      Bool.false_ne_true (hrun.symm.trans h.2)
    rw [hbody (by omega) (by omega), if_neg hn, if_pos h0, if_neg (by rw [he]; exact Bool.false_ne_true)]
    rfl
  · rw [ho .flash (by decide)]
    exact ⟨rfl, rfl⟩
  · rw [hbody (by omega) (by omega), if_neg (by omega), if_neg (by omega), if_pos h2]
    rfl
  · by_cases hk : k.result = 0
    · rw [if_neg (not_not_intro hk), if_neg (not_not_intro hk)]
      refine does_command rfl ha fun v => ⟨setBoot 4 (askReset 0x0103 { payload := p, tag := c.tag }
        { s with reeve := v, flash := { s.flash with active := some img } }), ?_,
        fun t q ho hq _ => ?_⟩
      · rw [hbody (by omega) (by omega), if_neg (by omega), if_neg (by omega), if_neg (by omega),
          if_neg (not_not_intro hp)]
        exact if_neg (not_not_intro hk)
      · have hb (u : State) : Only [.win, .i3c] u (setBoot 4 u) :=
          only_setBoot (by decide) (Only.refl u)
        rw [ho .flash (by decide), hq, (hb _) .flash (by decide), (hb _) .reeve (by decide)]
        exact ⟨rfl, rfl⟩
    · rw [if_pos hk, if_pos hk]
      refine does_command rfl ha fun v => ⟨{ s with reeve := v }, ?_, fun t q _ _ hz => absurd hz hk⟩
      rw [hbody (by omega) (by omega), if_neg (by omega), if_neg (by omega), if_neg (by omega),
        if_neg (not_not_intro hp)]
      exact if_pos hk

/-! The lifetime store. -/

/-- Writing a record moves the ring; of the totals it counts slots that went bad alone. -/
theorem writeSlot_marks (r : Nat) : ∀ (ms : List Bool) (l : Life),
    (writeSlot r ms l).live.marks = l.live.marks
  | [], l => by
    unfold writeSlot
    split
    · rfl
    · rfl
  | bad :: ms, l => by
    unfold writeSlot
    split
    · rfl
    · split
      · refine (writeSlot_marks r ms _).trans ?_
        unfold retireSlot
        dsimp only
        split
        · rfl
        · rfl
      · rfl

/-- LIFE_MARK puts its mark first in its region, as far as the region has slots (R578). -/
theorem lifeMark_does (hl : c.payload.length = 32) (hm : markRecent s = false) (ms : List Bool)
    (ha : Accepted 0x1003 c s) :
    let tod := if timeValid s then outTod s else none
    let stamp := natBytes 2 s.clk.era.toNat ++ natBytes 8 (now s).toNat
    Does (.lifeMark c ms) s fun t => Replied 0x1003 c 0 stamp t ∧
      t.life.lastMark = some (now s) ∧ t.life.live.marks = s.life.live.marks + 1 ∧
      t.life.marks = ({ seq := nextSeq (s.life.marks.head?.map (fun m => m.seq))
                        body := stamp ++ todOptBytes tod ++ natBytes 1 (bit tod.isSome * 128) ++
                          [0] ++ c.payload ++ natBytes 8 0 } :: s.life.marks).take
                            (ringCap t.life 3) := by
  intro tod stamp
  refine does_command rfl ha fun v => ⟨_, (fixed_ok hl).trans (if_neg ?_), fun t q ho _ => ?_⟩
  · exact Bool.eq_false_iff.1 hm
  · rw [ho .life (by decide)]
    exact ⟨rfl, congrArg (· + 1) (writeSlot_marks 3 _ _), rfl⟩

/-! The life cycle and debug sessions. -/

/-- The fuses of SEC_ADVANCE are burned and the reset is asked for; what erases key slots on the way
leaves fuses as they are. -/
theorem secAdvance_does {took : BitVec 16} {f : Fuses} (ha : Accepted 0x0E02 c s)
    (hb : ∀ v, ∃ u, Only [.groups, .reasm, .toTime, .toReeve, .inQ, .us, .act, .sup, .qos, .cry,
        .tine, .pwr, .life, .win, .i3c, .reeve, .counters, .freeCtr] { s with fuses := f } u ∧
      secAdvanceBody took { payload := c.payload, tag := c.tag } { s with reeve := v } =
        advanced { payload := c.payload, tag := c.tag } u) :
    Does (.secAdvance c took) s fun t =>
      Replied 0x0E02 c 0 (natBytes 1 (fuseWeak { s with fuses := f })) t ∧
      t.fuses = f ∧ t.reeve.resetBy = some (0x0E02, c.tag) := by
  refine does_command rfl ha fun v => ?_
  obtain ⟨u, hu, he⟩ := hb v
  have hf : u.fuses = f := hu .fuses (by decide)
  refine ⟨askReset 0x0E02 { payload := c.payload, tag := c.tag } u, ?_, fun t q ho hq => ?_⟩
  · rw [he, advanced, stOk]
    simp only [fuseWeak, hf]
  · rw [ho .fuses (by decide), hq]
    exact ⟨hf, rfl⟩

/-- SEC_ADVANCE to the next state of the life cycle, from a stable RUN, past its checks (R447). -/
theorem secAdvance_passes {took : BitVec 16} {p : Bytes} {g : BitVec 16}
    (hl : p.length = if (byteAt p 0).toNat = 1 then 104 else 8) (hp : s.pwr.phase = .stable)
    (hr : s.pwr.st = .run) (hf : field p 4 4 = 0x4C434144)
    (ht : ((byteAt p 0).toNat == 1 && lifeCycle s == 0 ||
      ((byteAt p 0).toNat == 2 && lifeCycle s == 1) ||
      ((byteAt p 0).toNat == 3 && decide (lifeCycle s < 3))) = true) :
    let c : Call := { payload := p, tag := g }
    let x := slotOf s 127
    secAdvanceBody took c s =
      if (byteAt p 0).toNat = 1 then
        if !x.loaded || !x.size256 || x.use != 0 || burnConflict s.fuses (provisionFuses s p took)
        then stDenied s
        else advanced c (eraseSlots [127] { s with fuses := provisionFuses s p took })
      else if (byteAt p 0).toNat = 2 then
        if s.sec.debug ≠ .locked ∨ !kekValid s then stDenied s
        else advanced c { s with fuses := { s.fuses with sec := s.fuses.sec ||| took } }
      else advanced c (eraseAll { s with fuses := { s.fuses with ret := s.fuses.ret ||| took } }) := by
  intro c x
  have hbad : ¬ (field p 4 4 ≠ 0x4C434144 ∨ (!((byteAt p 0).toNat == 1 && lifeCycle s == 0 ||
      ((byteAt p 0).toNat == 2 && lifeCycle s == 1) ||
      ((byteAt p 0).toNat == 3 && decide (lifeCycle s < 3)))) = true) := by
    rw [ht, hf]
    simp only [ne_eq, not_true_eq_false, Bool.not_true, Bool.false_eq_true, or_self, not_false_iff]
  unfold secAdvanceBody
  dsimp only
  rw [if_neg (not_not_intro hl), if_neg (not_not_intro hp), if_neg (not_not_intro hr), if_neg hbad]

/-- SEC_ADVANCE of its three targets (R447, R449, R451). -/
theorem secAdvance_targets (hp : s.pwr.phase = .stable) (hr : s.pwr.st = .run)
    (hf : field c.payload 4 4 = 0x4C434144) (took : BitVec 16) :
    let p := c.payload
    let x := slotOf s 127
    let adv (f : Fuses) : Prop := Accepted 0x0E02 c s → Does (.secAdvance c took) s fun t =>
      Replied 0x0E02 c 0 (natBytes 1 (fuseWeak { s with fuses := f })) t ∧
      t.fuses = f ∧ t.reeve.resetBy = some (0x0E02, c.tag)
    ((byteAt p 0).toNat = 1 → p.length = 104 → lifeCycle s = 0 → x.loaded = true →
      x.size256 = true → x.use = 0 → burnConflict s.fuses (provisionFuses s p took) = false →
      adv (provisionFuses s p took)) ∧
    ((byteAt p 0).toNat = 2 → p.length = 8 → lifeCycle s = 1 → s.sec.debug = .locked →
      kekValid s = true → adv { s.fuses with sec := s.fuses.sec ||| took }) ∧
    ((byteAt p 0).toNat = 3 → p.length = 8 → lifeCycle s < 3 →
      adv { s.fuses with ret := s.fuses.ret ||| took }) := by
  intro p x adv
  have hlc (v : Reeve) : lifeCycle { s with reeve := v } = lifeCycle s := rfl
  have hu (f : Fuses) (v : Reeve) : Only [.groups, .reasm, .toTime, .toReeve, .inQ, .us, .act, .sup,
      .qos, .cry, .tine, .pwr, .life, .win, .i3c, .reeve, .counters, .freeCtr] { s with fuses := f }
      { s with reeve := v, fuses := f } :=
    only_f_reeve (by decide) (Only.refl { s with fuses := f })
  refine ⟨fun h1 hl hc hx1 hx2 hx3 hb ha => secAdvance_does ha fun v => ⟨eraseSlots [127] { s with
      reeve := v, fuses := provisionFuses s p took }, only_eraseSlots (by decide) (hu _ v), ?_⟩,
    fun h2 hl hc hd hk ha => secAdvance_does ha fun v => ⟨{ s with
      reeve := v, fuses := { s.fuses with sec := s.fuses.sec ||| took } }, hu _ v, ?_⟩,
    fun h3 hl hc ha => secAdvance_does ha fun v => ⟨eraseAll { s with
      reeve := v, fuses := { s.fuses with ret := s.fuses.ret ||| took } },
      only_eraseAll (by decide) (hu _ v), ?_⟩⟩
  · have hx : ¬ (!x.loaded || !x.size256 || x.use != 0 ||
        burnConflict s.fuses (provisionFuses s p took)) = true := by
      rw [hx1, hx2, hx3, hb]
      decide
    exact ((secAdvance_passes (s := { s with reeve := v }) (by rw [if_pos h1]; exact hl) hp hr hf
      (by rw [hlc, h1, hc]; rfl)).trans (if_pos h1)).trans (if_neg hx)
  · have h1 : ¬ (byteAt p 0).toNat = 1 := by omega
    have hx : ¬ (s.sec.debug ≠ .locked ∨ (!kekValid s) = true) := by
      rw [hd, hk]
      decide
    exact (((secAdvance_passes (s := { s with reeve := v }) (by rw [if_neg h1]; exact hl) hp hr hf
      (by rw [hlc, h2, hc]; rfl)).trans (if_neg h1)).trans (if_pos h2)).trans (if_neg hx)
  · have h1 : ¬ (byteAt p 0).toNat = 1 := by omega
    have h2 : ¬ (byteAt p 0).toNat = 2 := by omega
    exact ((secAdvance_passes (s := { s with reeve := v }) (by rw [if_neg h1]; exact hl) hp hr hf
      (by rw [hlc, h3, decide_eq_true hc]; rfl)).trans (if_neg h1)).trans (if_neg h2)

/-- SEC_DEBUG_CHALLENGE gives and keeps a challenge (R458). -/
theorem secDebugChallenge_does (hp : c.payload = []) (hf : s.sec.unlockFail.toNat < 8)
    (ha : Accepted 0x0E03 c s) : Does (.secDebugChallenge c) s fun t =>
      Replied 0x0E03 c 0 (freeBytes s 32) t ∧
      t.sec.challenge = some (freeBytes s 32, now s) := by
  refine does_command rfl ha fun v => ⟨_, (fixed_ok (by rw [hp]; rfl)).trans
    (if_neg (Nat.not_le.2 hf)), fun t q ho _ => ?_⟩
  rw [ho .sec (by decide)]
  rfl

/-- SEC_DEBUG_UNLOCK of a stable block goes on to its two forms (R458, R461). -/
theorem debugUnlock_passes {p : Bytes} {g : BitVec 16}
    (hl : p.length = if (byteAt p 0).getLsbD 0 = true then 4 else 197)
    (hp : s.pwr.phase = .stable) (hd : s.pwr.st ≠ .deepFallow) :
    secDebugUnlockBody { payload := p, tag := g } s =
      if (byteAt p 0).getLsbD 0 then
        if s.sec.debug ≠ .authenticated then notInState s
        else stOk [] (raise 0x0E04 0 0 { s with sec := { s.sec with debug := .locked } })
      else if s.sec.debug ≠ .locked then notInState s
      else if unlockValid s p then stOk [] (openDebug { s with sec := { s.sec with challenge := none } })
      else stDenied { s with sec := { s.sec with
        challenge := none
        unlockFail := if s.sec.unlockFail = 0xFF then 0xFF else s.sec.unlockFail + 1 } } := by
  unfold secDebugUnlockBody
  dsimp only
  rw [if_neg (not_not_intro hl), if_neg (not_not_intro hp), if_neg hd]

/-- SEC_DEBUG_UNLOCK ends a session (R461). -/
theorem debugUnlock_ends (hp : s.pwr.phase = .stable) (hd : s.pwr.st ≠ .deepFallow)
    (he : (byteAt c.payload 0).getLsbD 0 = true) (hl : c.payload.length = 4)
    (hs : s.sec.debug = .authenticated) (ha : Accepted 0x0E04 c s) :
    Does (.secDebugUnlock c) s fun t => Replied 0x0E04 c 0 [] t ∧ t.sec.debug = .locked := by
  have hr (u : State) : (raise 0x0E04 0 0 u).sec = u.sec :=
    only_raise (ps := raising) (by decide) (Only.refl u) .sec (by decide)
  refine does_command rfl ha fun v => ⟨_, ((debugUnlock_passes (s := { s with reeve := v })
    (by rw [if_pos he]; exact hl) hp hd).trans (if_pos he)).trans (if_neg (not_not_intro hs)),
    fun t q ho _ => ?_⟩
  rw [ho .sec (by decide), hr]

/-- SEC_DEBUG_UNLOCK opens a session where the unlock is valid, and counts the failure where it is
not (R458, R459). -/
theorem debugUnlock_opens (hp : s.pwr.phase = .stable) (hd : s.pwr.st ≠ .deepFallow)
    (he : (byteAt c.payload 0).getLsbD 0 = false) (hl : c.payload.length = 197)
    (hs : s.sec.debug = .locked) (ha : Accepted 0x0E04 c s) :
    Does (.secDebugUnlock c) s fun t =>
      Replied 0x0E04 c (if unlockValid s c.payload then 0 else 5)
        (if unlockValid s c.payload then [] else [0, 0, 0, 0]) t ∧
      t.sec.challenge = none ∧
      t.sec.debug = (if unlockValid s c.payload then .authenticated else .locked) ∧
      (unlockValid s c.payload = false → t.sec.unlockFail =
        if s.sec.unlockFail = 0xFF then 0xFF else s.sec.unlockFail + 1) := by
  have hne : ¬ (byteAt c.payload 0).getLsbD 0 = true := Bool.eq_false_iff.1 he
  have hbody (v : Reeve) := (((debugUnlock_passes (s := { s with reeve := v }) (g := c.tag)
    (by rw [if_neg hne]; exact hl) hp hd).trans (if_neg hne)).trans (if_neg (not_not_intro hs)))
  cases hv : unlockValid s c.payload with
  | true =>
    refine does_command rfl ha fun v => ⟨_, (hbody v).trans (if_pos hv), fun t q ho _ => ?_⟩
    obtain ⟨h1, h2⟩ := openDebug_sec
      { s with reeve := v, sec := { s.sec with challenge := none } }
    rw [ho .sec (by decide)]
    exact ⟨h1, h2, fun e => Bool.noConfusion e⟩
  | false =>
    refine does_command rfl ha fun v => ⟨_, (hbody v).trans (if_neg (Bool.eq_false_iff.1 hv)),
      fun t q ho _ => ?_⟩
    rw [ho .sec (by decide)]
    exact ⟨rfl, hs, fun _ => rfl⟩

end Sys2Proof.Machine

/-! Commands of power (spec/18), and the commands of O53 together. -/

namespace Sys2Proof.Machine
variable {s t : State} {c : Cmd}

/-- PWR_RELEASE_PADS without bursts releases the pads named (R484). -/
theorem pwrReleasePads_does (hl : c.payload.length = 8) (hp : pwrChanging s = false)
    (hr : BitVec.ofNat 64 (field c.payload 0 8) &&& 0x3FFFFFFFFFFFF &&& inRetention s = 0)
    (hb : ∀ x, (usLaneOf s x).bursts = []) (ha : Accepted 0x0204 c s) :
    Does (.pwrReleasePads c) s fun t => Replied 0x0204 c 0 [] t ∧ t.pwr.latched =
      s.pwr.latched &&& ~~~(BitVec.ofNat 64 (field c.payload 0 8) &&& 0x3FFFFFFFFFFFF) := by
  refine does_command rfl ha fun v => ⟨_, ((fixed_ok hl).trans (if_neg ?_)).trans
    (if_neg (not_not_intro hr)), fun t q ho _ => ?_⟩
  · exact Bool.eq_false_iff.1 hp
  · have hg (u : State) (hu : u.us = s.us) : gateLook u = u :=
      gateLook_none fun x => by simpa only [usLaneOf, hu] using hb x
    rw [ho .pwr (by decide)]
    exact congrArg (fun u : State => u.pwr.latched) (hg (modPwr _ { s with reeve := v }) rfl)

/-- The target that a PWR_SET_STATE asks for. -/
def pwrTarget (gs : List Given) (s : State) : PwrState :=
  match gs.find? (fun g => g.1 == sPwrTarget) with
  | some g => pwrOfCode g.2.2.toNat
  | none => s.pwr.st

/-- PWR_SET_STATE of a deeper state starts the entry at point E1 with its settings in force (R468,
R470). -/
theorem pwrSetState_does {sc : Nat} {gs : List Given} (ha : Accepted 0x0201 c s)
    (hc : Carries [0x00] (fun _ => settings1803) c s sc gs)
    (hr : given s gs sRouseCode scDevice ≠ 0 →
      12 ≤ popNat 32 (given s gs sRouseCode scDevice).toNat ∧
        popNat 32 (given s gs sRouseCode scDevice).toNat ≤ 20)
    (hp : pwrChanging s = false) (hd : pwrCode s.pwr.st < pwrCode (pwrTarget gs s))
    (hs : s.pair.st = .solo ∨ s.pair.st = .isolated) (hn : rangingOrTuning s = false)
    (hdeep : pwrTarget gs s = .deepFallow → s.sec.debug ≠ .authenticated ∧ s.clk.refclk = true) :
    Does (.pwrSetState c) s fun t => Replied 0x0201 c 1 [] t ∧ InForce gs sc t ∧
      t.pwr.phase = .entering ∧ t.pwr.point = 1 ∧ t.pwr.target = pwrTarget gs s ∧
      t.pwr.tag = some c.tag := by
  have hrouse : ¬ (given s gs sRouseCode scDevice ≠ 0 ∧
      (popNat 32 (given s gs sRouseCode scDevice).toNat < 12 ∨
        20 < popNat 32 (given s gs sRouseCode scDevice).toNat)) := fun ⟨h0, h1⟩ => by
    have := hr h0
    omega
  have hne : pwrTarget gs s ≠ s.pwr.st := fun e => by
    rw [e] at hd
    omega
  have hnr : pwrTarget gs s ≠ .run := fun e => by
    rw [e] at hd
    exact Nat.not_lt_zero _ hd
  have hpair : ¬ (s.pair.st ≠ .solo ∧ s.pair.st ≠ .isolated) := fun ⟨h1, h2⟩ => hs.elim h1 h2
  have hauth : ¬ (pwrTarget gs s == .deepFallow && s.sec.debug == .authenticated) = true := by
    rw [Bool.and_eq_true, beq_iff_eq, beq_iff_eq]
    exact fun ⟨h1, h2⟩ => (hdeep h1).1 h2
  have href : ¬ (pwrTarget gs s == .deepFallow && !s.clk.refclk) = true := by
    rw [Bool.and_eq_true, beq_iff_eq, Bool.not_eq_true']
    exact fun ⟨h1, h2⟩ => Bool.false_ne_true (h2.symm.trans (hdeep h1).2)
  refine does_command rfl ha fun v => ⟨enterState (pwrTarget gs s) c.tag
    (putGiven sc gs { s with reeve := v }), ?_, fun t q ho _ => ?_⟩
  · refine (settingsCmd_runs hc v).trans ?_
    exact ((((((((if_neg hrouse).trans (if_neg (Bool.eq_false_iff.1 hp))).trans
      (if_neg hne)).trans (if_neg hnr)).trans (if_neg (Nat.lt_asymm hd))).trans
      (if_neg hpair)).trans (if_neg (Bool.eq_false_iff.1 hn))).trans (if_neg hauth)).trans
      (if_neg href)
  · have he : (enterState (pwrTarget gs s) c.tag (putGiven sc gs { s with reeve := v })).settings =
        (putGiven sc gs { s with reeve := v }).settings :=
      only_enterState (ps := [.act, .sup, .pwr, .life, .win, .i3c, .reeve, .counters]) (by decide)
        (Only.refl _) .settings (by decide)
    rw [ho .pwr (by decide)]
    exact ⟨putGiven_inForce hc sc (carries_scope hc (by decide)).1
      ((ho .settings (by decide)).trans he), enterState_pwr _ _ _⟩

/-! PWR_SET_DOMAINS of the domains with pads. -/

/-- The lanes, quads and the tether, as Table 21-6 numbers them. -/
def padGated : BitVec 64 := 0x8000000000FF

theorem padGated_bit {n : Nat} (hn : n < 64) (h : padGated.getLsbD n = true) : n < 8 ∨ n = 47 := by
  have h' : ∀ k : Fin 64, padGated.getLsbD k = true → k.val < 8 ∨ k.val = 47 := by decide
  exact h' ⟨n, hn⟩ h

/-- A bit of a mask that lies within another is one of the other's. -/
theorem getLsbD_of_masked {a m : BitVec 64} (h : a &&& ~~~m = 0) {n : Nat} (hn : n < 64)
    (ha : a.getLsbD n = true) : m.getLsbD n = true := by
  have hb := congrArg (fun x : BitVec 64 => x.getLsbD n) h
  simp only [BitVec.getLsbD_and, BitVec.getLsbD_not, hn, ha, decide_true, Bool.true_and,
    BitVec.ofNat_eq_ofNat, BitVec.getLsbD_zero, Bool.not_eq_false'] at hb
  exact hb

/-- A mask within one that has no bit of another has none of it either. -/
theorem and_eq_zero_of_masked {a m g : BitVec 64} (h : a &&& ~~~m = 0) (hg : g &&& m = 0) :
    a &&& g = 0 := by
  refine BitVec.eq_of_getLsbD_eq fun n hn => ?_
  have hb := congrArg (fun x : BitVec 64 => x.getLsbD n) hg
  simp only [BitVec.getLsbD_and, BitVec.ofNat_eq_ofNat, BitVec.getLsbD_zero] at hb ⊢
  cases ha : a.getLsbD n with
  | false => rfl
  | true =>
    rw [getLsbD_of_masked h hn ha, Bool.and_true] at hb
    rw [hb, Bool.true_and]

/-- PWR_SET_DOMAINS powers lanes, quads and the tether on and off (R485, Table 18-1). -/
theorem pwrSetDomains_does (on off : BitVec 64)
    (hon : BitVec.ofNat 64 (field c.payload 0 8) &&& 0x3FFFFFFFFFFFF = on)
    (hoff : BitVec.ofNat 64 (field c.payload 8 8) &&& 0x3FFFFFFFFFFFF = off)
    (hl : c.payload.length = 16) (hd : on &&& off = 0) (hm : (on ||| off) &&& ~~~padGated = 0)
    (hr : s.pwr.st = .run) (hp : s.pwr.phase = .stable) (hg : s.pwr.gating &&& padGated = 0)
    (hok : ∀ n, n < 64 → off.getLsbD n = true → gateOk s n = true) (ha : Accepted 0x0203 c s) :
    Does (.pwrSetDomains c 0) s fun t => Replied 0x0203 c 0 [] t ∧
      t.pwr.on = (s.pwr.on ||| on) &&& ~~~off := by
  have hor (a : BitVec 64) (h : ∀ n, n < 64 → a.getLsbD n = true → (on ||| off).getLsbD n = true) :
      ∀ n ∈ maskBits a, n < 8 ∨ n = 47 := fun n hn => by
    obtain ⟨h1, h2⟩ := mem_maskBits.1 hn
    exact padGated_bit h1 (getLsbD_of_masked hm h1 (h n h1 h2))
  have hOn := hor on fun n _ h => by rw [BitVec.getLsbD_or, h, Bool.true_or]
  have hOff := hor off fun n _ h => by rw [BitVec.getLsbD_or, h, Bool.or_true]
  have hbad : ¬ (on &&& off ≠ 0 ∨ (on ||| off) &&& ~~~gateable ≠ 0) := by
    rintro (h | h)
    · exact h hd
    · exact h (and_eq_zero_of_masked hm (by decide))
  have hany (v : Reeve) : ¬ (s.pwr.st ≠ .run ∨
      ((maskBits off).any fun n => !gateOk { s with reeve := v } n) = true) := by
    rintro (h | h)
    · exact h hr
    · obtain ⟨n, hn, hx⟩ := List.any_eq_true.1 h
      obtain ⟨h1, h2⟩ := mem_maskBits.1 hn
      have hk : gateOk { s with reeve := v } n = true := hok n h1 h2
      rw [hk] at hx
      exact Bool.false_ne_true hx
  have hch (v : Reeve) : ¬ pwrChanging { s with reeve := v } = true := by
    simp only [pwrChanging, hp, bne_self_eq_false, Bool.false_eq_true, not_false_iff]
  have hmOff : off &&& ~~~padGated = 0 := by
    refine BitVec.eq_of_getLsbD_eq fun n hn => ?_
    have hb := congrArg (fun x : BitVec 64 => x.getLsbD n) hm
    simp only [BitVec.getLsbD_and, BitVec.getLsbD_or, BitVec.ofNat_eq_ofNat,
      BitVec.getLsbD_zero] at hb ⊢
    cases ho : off.getLsbD n with
    | false => rfl
    | true => rwa [ho, Bool.or_true, Bool.true_and] at hb
  refine does_command rfl ha fun v => ?_
  obtain ⟨g1, o1⟩ := gateOn_each (failed := 0) rfl (maskBits on) { s with reeve := v } hOn hg
  obtain ⟨g2, o2⟩ := gateOff_each (tag := c.tag) (maskBits off)
    (each (gateOn 0) (maskBits on) { s with reeve := v }) hOff (by rw [g1]; exact hg)
  refine ⟨each (gateOff c.tag) (maskBits off) (each (gateOn 0) (maskBits on) { s with reeve := v }),
    ?_, fun t q ho _ => ?_⟩
  · have hw : ¬ (off &&& (each (gateOff c.tag) (maskBits off)
        (each (gateOn 0) (maskBits on) { s with reeve := v })).pwr.gating) >>> 20 ≠ 0 := by
      rw [g2, g1, and_eq_zero_of_masked hmOff hg]
      decide
    refine (fixed_ok hl).trans ?_
    dsimp only
    rw [hon, hoff, if_neg hbad, if_neg (hch v), if_neg (hany v), if_neg hw]
    rfl
  · rw [ho .pwr (by decide)]
    refine BitVec.eq_of_getLsbD_eq fun n hn => ?_
    rw [o2 n hn, o1 n hn]
    have hmem (m : BitVec 64) : decide (n ∈ maskBits m) = m.getLsbD n := by
      rw [Bool.eq_iff_iff, decide_eq_true_eq, mem_maskBits]
      exact and_iff_right hn
    simp only [hmem, BitVec.getLsbD_and, BitVec.getLsbD_or, BitVec.getLsbD_not, hn, decide_true,
      Bool.true_and]

/-- LIFE_READ answers whole records of a kind (R579). -/
theorem lifeRead_does (hl : c.payload.length = 6) (size : Nat) (rs : List Bytes)
    (hk : (byteAt c.payload 0).toNat = 1 ∧ size = 872 ∧
        rs = s.life.dayBins.map (fun r => dayRecord r.bin) ∨
      (byteAt c.payload 0).toNat = 2 ∧ size = 32 ∧ rs = s.life.gaps.map (fun r => r.body) ∨
      (byteAt c.payload 0).toNat = 3 ∧ size = 64 ∧ rs = s.life.marks.map (fun r => r.body))
    (ha : Accepted 0x1001 c s) :
    Does (.lifeRead c) s fun t => Replied 0x1001 c 0 ((rs.drop (field c.payload 2 2)).take
        (min (field c.payload 4 2) (1016 / size))).flatten t ∧
      Only [.win, .i3c, .reeve] s t := by
  refine does_answer rfl ha fun v => (fixed_ok hl).trans ?_
  rcases hk with ⟨h, rfl, rfl⟩ | ⟨h, rfl, rfl⟩ | ⟨h, rfl, rfl⟩
  · rw [h]
    rfl
  · rw [h]
    rfl
  · rw [h]
    rfl

/-- SUP_GET_BINS of a bin that can be read answers it (R182). -/
theorem supGetBins_does {sc : Nat} {b : Bin} (hl : c.payload.length = 8)
    (hs : scopeOf s [0x01, 0x02, 0x03, 0x04, 0x05] c.payload = some sc)
    (hk : (byteAt c.payload 4).toNat ≤ 1)
    (hi : (byteAt c.payload 5).toNat < (if (byteAt c.payload 4).toNat = 0 then 97 else 32))
    (hb : binRead s (byteAt c.payload 4).toNat (byteAt c.payload 5).toNat = some b)
    (ha : Accepted 0x0503 c s) :
    Does (.supGetBins c) s fun t => Replied 0x0503 c 0 (binHeader b ++ binCounts b sc) t ∧
      Only [.win, .i3c, .reeve] s t := by
  refine does_answer rfl ha fun v => (fixed_ok hl).trans ?_
  have hs' : scopeOf { s with reeve := v } [0x01, 0x02, 0x03, 0x04, 0x05] c.payload = some sc := hs
  have hb' : binRead { s with reeve := v } (byteAt c.payload 4).toNat (byteAt c.payload 5).toNat =
      some b := hb
  simp only [hs', hb', if_neg (Nat.not_le.2 (Nat.lt_succ_of_le hk)), if_neg (Nat.not_le.2 hi)]
  rfl

/-- Settles O53: one lemma for each command, or its record as it stands. -/
theorem systemLifeSecurityAndPowerCommandsAct :
    Obligations.SystemLifeSecurityAndPowerCommandsAct := by
  refine fun c s => ⟨fun hp ha => does_answer rfl ha fun v => fixed_ok (by rw [hp]; rfl),
    fun hp ha => sysReset_does hp ha, fun hl hr => sysFwActivate_does hl hr,
    fun hl => ⟨fun h ha => lifeRead_does hl _ _ (.inl ⟨h, rfl, rfl⟩) ha,
      fun h ha => lifeRead_does hl _ _ (.inr (.inl ⟨h, rfl, rfl⟩)) ha,
      fun h ha => lifeRead_does hl _ _ (.inr (.inr ⟨h, rfl, rfl⟩)) ha⟩,
    fun hp ha => does_answer rfl ha fun v => fixed_ok (by rw [hp]; rfl),
    fun hl hm ms ha => lifeMark_does hl hm ms ha,
    fun hp ha => does_answer rfl ha fun v => fixed_ok (by rw [hp]; rfl),
    fun hp hr hf took => secAdvance_targets hp hr hf took,
    fun hp hf ha => secDebugChallenge_does hp hf ha,
    fun hp hd => ⟨fun he hl hs ha => debugUnlock_ends hp hd he hl hs ha,
      fun he hl hs ha => debugUnlock_opens hp hd he hl hs ha⟩,
    fun hp ha => does_answer rfl ha fun v => fixed_ok (by rw [hp]; rfl),
    fun hl hp hr hb ha => pwrReleasePads_does hl hp hr hb ha,
    fun ha sc gs hc hr hp hd hs hn hdeep => pwrSetState_does ha hc hr hp hd hs hn hdeep,
    fun hl hd hm hr hp hg hok ha => pwrSetDomains_does _ _ rfl rfl hl hd hm hr hp hg hok ha,
    fun sc hl hs b hk hi hb ha => supGetBins_does hl hs hk hi hb ha⟩

end Sys2Proof.Machine

/-! Read commands (spec/21, R558, R608). -/

namespace Sys2Proof.Machine
variable {s t : State} {c : Cmd}

/-- TIME_GET_STATUS reads the status and, where an offset is wide, takes draws of the model's. -/
theorem timeGetStatusBody_reads (r : Call) : ∃ k, timeGetStatusBody r s =
    ((readCmd [] [(7, 14)] 0 timeBlock (fun _ _ s => s) r s).1,
      { (readCmd [] [(7, 14)] 0 timeBlock (fun _ _ s => s) r s).2 with freeCtr := k }) := by
  obtain ⟨a, u, hr⟩ : ∃ a u, readCmd [] [(7, 14)] 0 timeBlock (fun _ _ s => s) r s = (a, u) :=
    ⟨_, _, rfl⟩
  unfold timeGetStatusBody
  rw [hr]
  dsimp only
  split
  · exact ⟨u.freeCtr + 48, rfl⟩
  · exact ⟨u.freeCtr, rfl⟩

/-- A body that is the reading itself takes no draw of the model's. -/
theorem same_reads {b r : CmdBody} {q : Call} (h : b q s = r q s) :
    ∃ k, b q s = ((r q s).1, { (r q s).2 with freeCtr := k }) :=
  ⟨(r q s).2.freeCtr, h⟩

theorem ptpGetPort_reads {p : Bytes} {g : BitVec 16}
    (hport : namesNoPort (mode100 s) (scopeField p) = false)
    (h : (byteAt p 9).toNat ≤ 1) : ptpGetPortBody { payload := p, tag := g } s =
      readCmd [] [(9, 8)] 4 ptpBlock (fun _ _ s => s) { payload := p, tag := g } s := by
  have hn : ¬ (p.length = 12 ∧ 1 < (byteAt p 9).toNat) := fun hn => absurd hn.2 (by omega)
  unfold ptpGetPortBody
  rw [portRead_ok (c := { payload := p, tag := g }) hport]
  exact if_neg hn

theorem clsGetGeneration_reads {p : Bytes} {g : BitVec 16}
    (h : ¬ (((byteAt p 0).toNat = 0x11 ∨ (byteAt p 0).toNat = 0x12) ∧ field p 4 2 = 0)) :
    clsGetGenerationBody { payload := p, tag := g } s =
      readCmd [0x11, 0x12] [(10, 10), (11, 10)] (if (byteAt p 0).toNat = 0x12 then 20 else 0) clsBlock
        (fun _ _ s => s) { payload := p, tag := g } s :=
  if_neg fun hn => h ⟨hn.1, hn.2.1⟩

theorem pmcSampleRead_reads {p : Bytes} {g : BitVec 16} (h : (byteAt p 8).toNat ≤ 31) :
    pmcSampleReadBody { payload := p, tag := g } s =
      readCmd [0x0D] [(14, 6)] 4 (fun sc p s => recordBlock p (sampOf s (harrowOfScope sc)).buffer)
        (fun sc p s => modSamp (harrowOfScope sc) (fun x =>
          let rest := x.buffer.drop (byteAt p 8).toNat
          { x with buffer := rest, halfArmed := x.halfArmed || decide (rest.length < 128) }) s)
        { payload := p, tag := g } s :=
  if_neg fun hn => absurd hn.1 (by dsimp only; omega)

/-- The tables a queue's read serves follow the kind of its scope. -/
theorem qosGetQueue_reads {p : Bytes} {g : BitVec 16} (h : p.length = 8) :
    qosGetQueueBody { payload := p, tag := g } s =
      readCmd [] (if (byteAt p 0).toNat = 0x0B then [(15, 11), (4, 7)] else [(15, 11)]) 0 qosBlock
        qosClear { payload := p, tag := g } s := by
  unfold qosGetQueueBody
  by_cases hk : (byteAt p 0).toNat = 0x0B
  · rw [if_pos ⟨h, hk⟩, if_pos hk]
  · rw [if_neg fun hn => hk hn.2, if_neg hk]

theorem qosClear_marks {sc : Nat} {p : Bytes} :
    (queueOf (qosClear sc p s) (blockQueue sc).1 (blockQueue sc).2).high =
      (queueOf s (blockQueue sc).1 (blockQueue sc).2).bushels ∧
    (qosClear sc p s).qos.low = s.qos.free := by
  obtain ⟨ds, q, hb⟩ : ∃ ds q, blockQueue sc = (ds, q) := ⟨_, _, rfl⟩
  obtain ⟨hhigh, hfree⟩ := queue_reset ds q s
  unfold qosClear
  rw [hb]
  exact ⟨hhigh, (congrArg Qos.free hfree :)⟩

theorem qosClear_counters {sc : Nat} {p : Bytes} : (qosClear sc p s).counters = s.counters := by
  unfold qosClear modQueue
  dsimp only
  split <;> rfl

/-- TINE_GET_FAULTS of at most 24 records reads the log; with RC it removes what it returned, and
without it notes that much as read (R353, R558). -/
theorem tineGetFaults_runs {p : Bytes} {g : BitVec 16} (h : (byteAt p 8).toNat ≤ 24) :
    let r := readCmd [] [(12, 9)] 4 (fun _ p s => recordBlock p s.tine.faultLog)
      (fun _ p s => modTine (fun t => { t with
        faultLog := t.faultLog.drop (byteAt p 8).toNat,
        faultRead := t.faultRead - (byteAt p 8).toNat }) s) { payload := p, tag := g } s
    tineGetFaultsBody { payload := p, tag := g } s =
      if isError r.1 || rcBit p then r else (r.1, faultsSeen p r.2) :=
  if_neg fun hn => absurd hn.1 (by dsimp only; omega)

theorem tineGetFaults_does (ha : Accepted 0x0A03 c s) (sc : Nat)
    (hm : (byteAt c.payload 8).toNat ≤ 24)
    (hq : Asks [] [(12, 9)] 4 (fun _ p s => recordBlock p s.tine.faultLog) c s sc) :
    let p := c.payload
    let x := s.tine
    let m := (byteAt p 8).toNat
    let ch := (byteAt p 4).toNat
    let tbl := (byteAt p 5).toNat
    let first := (byteAt p 6).toNat
    let n := (byteAt p 7).toNat % 128
    Does (.tineGetFaults c) s fun t =>
      Replied 0x0A03 c 0 (recordBlock p x.faultLog ++ readCounters s ch tbl sc first n) t ∧
      (rcBit p = false → Only [.win, .i3c, .reeve, .tine, .freeCtr] s t ∧
        t.tine = { x with faultRead := max x.faultRead (min m x.faultLog.length) }) ∧
      (rcBit p = true →
        t.tine = { x with faultLog := x.faultLog.drop m, faultRead := x.faultRead - m } ∧
        ∀ j, j < n →
          let k := (ctrKinds ch tbl).getD (first + j) 0
          kindServes ch tbl (first + j) k (scopeKind sc) = true →
          ctrOf t (readKey ch tbl (first + j)) (readScope k sc) = {}) := by
  intro p x m ch tbl first n
  by_cases hrc : rcBit p = true
  · refine does_command rfl ha fun v => ?_
    obtain ⟨u, hu⟩ := clearCounters_keeps ch tbl sc first n { s with reeve := v }
    refine ⟨_, (tineGetFaults_runs hm).trans ((if_pos (by rw [hrc, Bool.or_true])).trans
      ((readCmd_runs hq v rfl).trans (congrArg (Prod.mk _) (if_pos hrc)))),
      fun t q ho _ => ⟨fun hn => absurd (hn.symm.trans hrc) Bool.false_ne_true, fun _ => ⟨?_, ?_⟩⟩⟩
    · rw [ho .tine (by decide)]
      change (modTine _ (clearCounters ch tbl sc first n { s with reeve := v })).tine = _
      rw [hu]
      rfl
    · intro j hj k hk
      unfold ctrOf
      rw [ho .counters (by decide)]
      exact clearCounters_zero hk { s with reeve := v } hj
  · have hrc := Bool.eq_false_iff.mpr hrc
    refine does_command rfl ha fun v => ⟨{ s with
        reeve := v, tine := { x with faultRead := max x.faultRead (min m x.faultLog.length) } }, ?_,
        fun t q ho _ => ⟨fun _ => ⟨?_, ho .tine (by decide)⟩,
          fun hn => absurd (hrc.symm.trans hn) Bool.false_ne_true⟩⟩
    · rw [tineGetFaults_runs hm, readCmd_runs hq v rfl]
      change (if false || rcBit p then _ else _) = _
      rw [hrc]
      rfl
    · exact Only.step (s := modTine (fun z => { z with
          faultRead := max x.faultRead (min m x.faultLog.length) }) { s with reeve := v })
        (by decide) (only_modTine (by decide) ((Only.of_reeve s v).mono (by decide))) ho

/-- Settles O50: each request that a command serves runs the one reading of R558. -/
theorem readCommandsAnswerAsAsked : Obligations.ReadCommandsAnswerAsAsked := by
  unfold Obligations.ReadCommandsAnswerAsAsked
  intro c s p no all port kind own
  have hf (i : Instr) (t : State) (h : exec i s = .next t) : Only (writes i) s t := only_exec i h
  refine ⟨inquires_plain (hf _) rfl fun _ _ => rfl, inquires_plain (hf _) rfl fun _ _ => rfl,
    inquires_plain (hf _) rfl fun _ _ => rfl, inquires_plain (hf _) rfl fun _ _ => rfl,
    inquires_plain (hf _) rfl fun _ _ => rfl, inquires_plain (hf _) rfl fun _ _ => rfl,
    ?time, ?port, ?ptp, ?cls, tineGetFaults_does, ?pmc, ?sample, ?queue,
    inquires_plain (hf _) rfl fun _ _ => rfl, inquires_plain (hf _) rfl fun _ _ => rfl⟩
  case time =>
    exact inquires (hf _) rfl (fun _ v _ _ => timeGetStatusBody_reads (s := { s with reeve := v }) _)
      (fun _ _ => rfl) (fun _ _ => rfl) fun _ _ _ _ _ => trivial
  case port =>
    exact inquires (hf _) rfl
      (fun _ v h _ => same_reads (portRead_ok (s := { s with reeve := v }) h))
      (fun _ _ => rfl) (fun _ _ => rfl) fun _ _ _ _ _ => trivial
  case ptp =>
    exact inquires (hf _) rfl
      (fun _ v h _ => same_reads (ptpGetPort_reads (s := { s with reeve := v }) h.1 h.2))
      (fun _ _ => rfl) (fun _ _ => rfl) fun _ _ _ _ _ => trivial
  case cls =>
    exact inquires (hf _) rfl
      (fun _ v h _ => same_reads (clsGetGeneration_reads (s := { s with reeve := v }) h))
      (fun _ _ => rfl) (fun _ _ => rfl) fun _ _ _ _ _ => trivial
  case pmc =>
    exact inquires (hf _) rfl (fun _ _ _ _ => same_reads rfl) (fun _ _ => rfl) (fun _ _ => rfl)
      fun sc v u t ho => by
        have h := pmcClear_reads (tineOfScope sc).1 (tineOfScope sc).2 { s with reeve := v, counters := u }
        unfold cycOf pmcOf at h ⊢
        rw [ho .tine (by decide)]
        exact h
  case sample =>
    exact inquires (hf _) rfl
      (fun _ v h _ => same_reads (pmcSampleRead_reads (s := { s with reeve := v }) h))
      (fun _ _ => rfl) (fun _ _ => rfl) fun sc v u t ho => by
        unfold sampOf
        rw [ho .tine (by decide)]
        exact congrArg Samp.buffer sampOf_mod
  case queue =>
    exact inquires (hf _) rfl
      (fun _ v _ hq => same_reads (qosGetQueue_reads (s := { s with reeve := v }) hq.1))
      (fun _ _ => rfl) (fun _ _ => qosClear_counters) fun sc v u t ho => by
        unfold queueOf dsOf usOf
        rw [ho .qos (by decide)]
        exact qosClear_marks (s := { s with reeve := v, counters := u })

end Sys2Proof.Machine

/-! Settings commands of supervision, time, ports, queues, tines and sampling (spec/21, R554-R556). -/

namespace Sys2Proof.Machine
variable {s t : State} {c : Cmd} {op : Nat} {i : Instr} {kinds : List Nat}
  {specs : Nat → List SSpec} {k : Nat → List Given → Call → State → Reply × State}
  {ok : Nat → List Given → Prop} {more : Nat → List Given → State → Prop}

/-- A settings command that, with the settings put, does `f` of its own. -/
theorem sets_then (f : Nat → List Given → State → State)
    (hi : exec i s = .next (runCmd op (settingsCmd kinds specs k) c s)) (hk : ∀ k ∈ kinds, k < 64)
    (hK : ∀ sc gs v, Carries kinds specs c s sc gs → ok sc gs →
      k sc gs { payload := c.payload, tag := c.tag } { s with reeve := v } =
        ({ status := 0 }, f sc gs (putGiven sc gs { s with reeve := v })))
    (hf : ∀ sc gs u, Only noset u (f sc gs u))
    (hm : ∀ sc gs v t, Carries kinds specs c s sc gs → ok sc gs →
      Only [.win, .i3c, .reeve] (f sc gs { putGiven sc gs s with reeve := v }) t → more sc gs t) :
    Sets op kinds specs i c s ok more :=
  sets_plain (fun _ => only_exec _) hi hk fun sc gs v hc ho =>
    ⟨_, hK sc gs v hc ho, hf sc gs _, fun t ht => hm sc gs v t hc ho (by
      rw [putGiven_reeve] at ht
      exact ht)⟩

theorem supSetActions_sets : Sets 0x0501 [0x04] (fun _ => settings603) (.supSetActions c) c s
    (fun _ _ => True) fun _ _ _ => True :=
  sets_then (fun sc _ u => holdOffLook (scopeIndex sc) (supLook u)) rfl (by decide)
    (fun _ _ _ _ _ => rfl)
    (fun _ _ u => only_holdOffLook (by decide) (only_supLook (by decide) (Only.refl u)))
    fun _ _ _ _ _ _ _ => trivial

theorem timeSetAsym_sets : Sets 0x0603 [0x00] (fun _ => settings709) (.timeSetAsym c) c s
    (fun _ _ => True) fun _ _ _ => True :=
  sets_then (fun _ _ u => fitLook 1 none (fitLook 0 none u)) rfl (by decide)
    (fun _ _ _ _ _ => rfl)
    (fun _ _ u => only_fitLook (by decide) (only_fitLook (by decide) (Only.refl u)))
    fun _ _ _ _ _ _ _ => trivial

theorem timeSetDomains_sets : Sets 0x0601 [0x05] (fun _ => settings702 ++ [sDomSrc])
    (.timeSetDomains c) c s (fun _ _ => True) fun _ _ _ => True :=
  sets_then (fun sc _ u => autoSelect (holdLook (scopeIndex sc) (enableDomLook (scopeIndex sc)
      (slewRebase (outOffset s (now s)) u)))) rfl (by decide) (fun _ _ _ _ _ => rfl)
    (fun _ _ u => only_autoSelect (by decide) (only_holdLook (by decide)
      (only_enableDomLook (by decide) (only_slewRebase (by decide) (Only.refl u)))))
    fun _ _ _ _ _ _ _ => trivial

/-- What a change of PPS_IN_ENABLE forgets (R275). -/
def forgetPps (s0 u : State) : State :=
  if settingB s0 sPpsInEnable scDevice == settingB u sPpsInEnable scDevice then u
  else { u with time := { u.time with lastPpsIn := none, ppsInLost := false } }

theorem forgetPps_only (s0 u : State) : Only noset u (forgetPps s0 u) := by
  unfold forgetPps
  split
  · exact Only.refl u
  · exact only_f_time (by decide) (Only.refl u)

theorem forgetPps_forgets {s0 : State}
    (h : settingB s0 sPpsInEnable scDevice ≠ settingB s sPpsInEnable scDevice) :
    (forgetPps s0 s).time.lastPpsIn = none ∧ (forgetPps s0 s).time.ppsInLost = false := by
  unfold forgetPps
  rw [if_neg fun he => h (eq_of_beq he)]
  exact ⟨rfl, rfl⟩

theorem timeSetOutputs_sets : Sets 0x0605 [0x00] (fun _ => settings906) (.timeSetOutputs c) c s
    (fun _ _ => True) fun sc gs t =>
      settingB s sPpsInEnable scDevice ≠ settingB (putGiven sc gs s) sPpsInEnable scDevice →
        t.time.lastPpsIn = none ∧ t.time.ppsInLost = false :=
  sets_then (fun _ _ => forgetPps s) rfl (by decide) (fun _ _ _ _ _ => rfl)
    (fun _ _ => forgetPps_only s) fun sc gs v t _ _ ht hne => by
      rw [ht .time (by decide)]
      exact forgetPps_forgets (s := { putGiven sc gs s with reeve := v }) hne

theorem portSetSheaf_sets : Sets 0x0703 [0x06] (fun _ => settings806) (.portSetSheaf c) c s
    (fun sc _ => namesNoPort (mode100 s) sc = false) fun _ _ _ => True :=
  sets_then (fun _ _ u => u) rfl (by decide)
    (fun _ _ _ _ hn => if_neg (Bool.eq_false_iff.1 hn)) (fun _ _ u => Only.refl u)
    fun _ _ _ _ _ _ _ => trivial

/-- A port's grants go with a change of its profile. -/
theorem grantsLook_none {p : Nat} {s0 : State} (h : ptpProfile s p ≠ ptpProfile s0 p) :
    (portOf (grantsLook p s0 s) p).grants = [] := by
  unfold grantsLook modPort portOf
  dsimp only
  rw [tabGet_mod, if_pos rfl]
  refine List.filter_eq_nil_iff.2 fun g _ => ?_
  rw [beq_eq_false_iff_ne.2 h, Bool.and_false]
  exact Bool.false_ne_true

theorem ptpConfigurePort_sets : Sets 0x0801 [0x06] (fun _ => settings901) (.ptpConfigurePort c) c s
    (fun sc gs => namesNoPort (mode100 s) sc = false ∧ ptpOffence sc gs (putGiven sc gs s) = none)
    fun sc gs t => ptpProfile (putGiven sc gs s) (scopeIndex sc) ≠ ptpProfile s (scopeIndex sc) →
      (portOf t (scopeIndex sc)).grants = [] :=
  sets_then (fun sc _ => grantsLook (scopeIndex sc) s) rfl (by decide)
    (fun sc gs v _ ho => by
      have hoff : ptpOffence sc gs (putGiven sc gs { s with reeve := v }) = none := by
        rw [putGiven_reeve]
        exact ho.2
      have hn : ¬ namesNoPort (mode100 { s with reeve := v }) sc = true := Bool.eq_false_iff.1 ho.1
      dsimp only
      rw [if_neg hn, hoff]
      rfl)
    (fun _ _ u => only_grantsLook (by decide) (Only.refl u)) fun sc gs v t _ _ ht hne => by
      unfold portOf
      rw [ht .ports (by decide)]
      exact grantsLook_none (s := { putGiven sc gs s with reeve := v }) hne

/-- What QOS_SET_QUEUE does with the settings put: a queue that has moved is active where it now
stands, and one no longer enabled is emptied. -/
def requeue (s0 : State) (sc : Nat) (s1 : State) : State :=
  let ds := scopeKind sc == 0x0A
  let q := scopeIndex sc
  let moved := queuePlots s0 q != queuePlots s1 q || queueGroup s0 q != queueGroup s1 q
  let s2 := if !ds && moved && !(usOf s0 q).frames.isEmpty then queueActivate false q s1 else s1
  if queueEnabled s2 ds q then s2 else flushQueue ds q s2

theorem requeue_only (s0 : State) (sc : Nat) (u : State) : Only noset u (requeue s0 sc u) := by
  have h2 (b : Bool) : Only noset u (if b then queueActivate false (scopeIndex sc) u else u) :=
    only_ite (only_queueActivate (by decide) (Only.refl u)) (Only.refl u)
  exact only_ite (h2 _) (only_flushQueue (by decide) (h2 _))

theorem requeue_empty {s0 : State} {sc : Nat}
    (h : queueEnabled s (scopeKind sc == 0x0A) (scopeIndex sc) = false) :
    (queueOf (requeue s0 sc s) (scopeKind sc == 0x0A) (scopeIndex sc)).frames = [] := by
  have h2 (b : Bool) : queueEnabled (if b then queueActivate false (scopeIndex sc) s else s)
      (scopeKind sc == 0x0A) (scopeIndex sc) = false := by
    split
    · have he : (queueActivate false (scopeIndex sc) s).settings = s.settings :=
        only_queueActivate (ps := [.qos]) (by decide) (Only.refl s) .settings (by decide)
      unfold queueEnabled setting at h ⊢
      rw [he]
      exact h
    · exact h
  unfold requeue
  dsimp only
  rw [if_neg (Bool.eq_false_iff.1 (h2 _))]
  exact flushQueue_empty _ _ _

theorem qosSetQueue_sets : Sets 0x0C01 [0x0A, 0x0B]
    (fun k => if k = 0x0A then dsQueueSettings else usQueueSettings) (.qosSetQueue c) c s
    (fun sc gs => (carried gs sPlotS = true → s.act.dual = true) ∧
      given s gs sQMaxR sc ≤ given s gs sQMaxY sc ∧ given s gs sQMaxY sc ≤ given s gs sQMaxG sc)
    fun sc gs t => queueEnabled (putGiven sc gs s) (scopeKind sc == 0x0A) (scopeIndex sc) = false →
      (queueOf t (scopeKind sc == 0x0A) (scopeIndex sc)).frames = [] :=
  sets_then (fun sc _ => requeue s sc) rfl (by decide)
    (fun sc gs v _ ⟨hd, hry, hyg⟩ => by
      have hp : ¬ (carried gs sPlotS && !s.act.dual) = true := fun hn => by
        obtain ⟨h1, h2⟩ := Bool.and_eq_true_iff.1 hn
        rw [hd h1] at h2
        exact Bool.false_ne_true h2
      have ho : ¬ (given s gs sQMaxG sc < given s gs sQMaxY sc ∨
          given s gs sQMaxY sc < given s gs sQMaxR sc) := by omega
      exact (if_neg hp).trans (if_neg ho))
    (fun sc _ => requeue_only s sc) fun sc gs v t _ _ ht he => by
      unfold queueOf dsOf usOf
      rw [ht .qos (by decide)]
      exact requeue_empty (s := { putGiven sc gs s with reeve := v }) he

/-- What QOS_SET_SCHED does with the settings put: the arbiters of a plot that has changed between
flat and grouped begin anew. -/
def rearbitrate (s0 : State) (sc : Nat) (s1 : State) : State :=
  if scopeKind sc = 0 ∨ plotFlat s0 (scopeIndex sc) == plotFlat s1 (scopeIndex sc) then s1
  else each (fun g s => modGroupArb (scopeIndex sc) g (fun _ => {}) s) (List.range 8)
    (modPlotArb (scopeIndex sc) (fun _ => {}) s1)

theorem rearbitrate_only (s0 : State) (sc : Nat) (u : State) :
    Only noset u (rearbitrate s0 sc u) := by
  unfold rearbitrate
  split
  · exact Only.refl u
  · exact only_each (fun _ _ h => only_modGroupArb (by decide) h)
      (only_modPlotArb (by decide) (Only.refl u))

theorem qosSetSched_sets : Sets 0x0C02 [0x00, 0x09]
    (fun k => if k = 0 then settings1502 else settings1505) (.qosSetSched c) c s
    (fun sc gs => scopeKind sc = 0 → given s gs sPoolFloorY sc ≤ given s gs sPoolFloorR sc)
    fun _ _ _ => True :=
  sets_then (fun sc _ => rearbitrate s sc) rfl (by decide)
    (fun sc gs v _ ho => by
      by_cases h0 : scopeKind sc = 0
      · have hx : ¬ given s gs sPoolFloorR sc < given s gs sPoolFloorY sc := Int.not_lt.2 (ho h0)
        exact (if_pos h0).trans ((if_neg hx).trans
          (congrArg (Prod.mk _) (if_pos (.inl h0)).symm))
      · refine (if_neg h0).trans (congrArg (Prod.mk _) ?_)
        by_cases hf : plotFlat s (scopeIndex sc) ==
            plotFlat (putGiven sc gs { s with reeve := v }) (scopeIndex sc)
        · exact (if_pos hf).trans (if_pos (.inr hf)).symm
        · exact (if_neg hf).trans (if_neg (not_or.2 ⟨h0, hf⟩)).symm)
    (fun sc _ => rearbitrate_only s sc) fun _ _ _ _ _ _ _ => trivial

/-- The bucket of a shaper just set, at the time of `s0`. -/
def freshBucket (s0 s : State) (sc : Nat) : Bucket :=
  { t := if settingB s sShResetFull sc then shaperBurst s sc else 0, last := now s0, live := true }

theorem qosSetShaper_sets : Sets 0x0C03 [0x0A, 0x06, 0x0B, 0x0C] (fun _ => settings1507)
    (.qosSetShaper c) c s
    (fun sc _ => namesNoPort (mode100 s) (scopeField c.payload) = false ∧
      (scopeKind sc = 0x0C → (tabGet ({} : Bucket) s.qos.shapers sc).live = true ∨
        classShapers s < 2048))
    fun sc gs t => tabGet ({} : Bucket) t.qos.shapers sc =
      { t := if settingB (putGiven sc gs s) sShResetFull sc then shaperBurst (putGiven sc gs s) sc else 0,
        last := now s, live := true } := by
  refine sets (b := qosSetShaperPortBody) (fun _ => only_exec _) rfl
    (fun sc gs v _ ho => portRead_ok (s := { s with reeve := v }) ho.1) (by decide)
    fun sc gs v _ ho => ⟨putBucket sc (freshBucket s (putGiven sc gs s) sc)
      { putGiven sc gs s with reeve := v }, ?_, ?_, fun t ht => ?_⟩
  · have hn : ¬ (scopeKind sc = 0x0C ∧ !(tabGet ({} : Bucket) s.qos.shapers sc).live ∧
        2048 ≤ classShapers s) := fun ⟨h1, h2, h3⟩ => by
      rcases ho.2 h1 with hl | hl
      · rw [hl] at h2
        exact Bool.false_ne_true h2
      · omega
    refine (if_neg hn).trans ?_
    dsimp only
    rw [putGiven_reeve (v := v)]
    rfl
  · rw [putGiven_reeve (v := v)]
    rfl
  · rw [ht .qos (by decide)]
    exact (tabGet_set ..).trans (if_pos rfl)

/-- What QOS_SET_METER does with a meter's settings put: both buckets are full (R415). -/
def fillMeter (s0 : State) (sc : Nat) (s1 : State) : State :=
  if scopeKind sc ≠ 0x10 then s1
  else putMeter (scopeIndex sc)
    { tc := setting s1 sCbs sc * 2 ^ 32, te := setting s1 sEbs sc * 2 ^ 32, last := now s0 } s1

theorem qosSetMeter_sets : Sets 0x0C04 [0x10, 0x14, 0x15]
    (fun k => if k = 0x10 then settings1508 else [{ sMapEntry with idx := if k = 0x14 then 17 else 65 }])
    (.qosSetMeter c) c s
    (fun sc gs => scopeKind sc = 0x10 →
      ¬(given s gs sMtMode sc = 2 ∧ given s gs sPir sc < given s gs sCir sc) ∧
      ¬(given s gs sMtMode sc = 1 ∧ given s gs sCbs sc = 0 ∧ given s gs sEbs sc = 0))
    fun sc gs t => scopeKind sc = 0x10 →
      tabGet ({} : Meter) t.qos.meters (scopeIndex sc) =
        { tc := setting (putGiven sc gs s) sCbs sc * 2 ^ 32,
          te := setting (putGiven sc gs s) sEbs sc * 2 ^ 32, last := now s } :=
  sets_then (fun sc _ => fillMeter s sc) rfl (by decide)
    (fun sc gs v _ ho => by
      by_cases hk : scopeKind sc = 0x10
      · obtain ⟨h2, h1⟩ := ho hk
        exact (if_neg (not_not_intro hk)).trans ((if_neg h2).trans ((if_neg h1).trans
          (congrArg (Prod.mk _) (if_neg (not_not_intro hk)).symm)))
      · exact (if_pos hk).trans (congrArg (Prod.mk _) (if_pos hk).symm))
    (fun sc _ u => by
      unfold fillMeter
      split
      · exact Only.refl u
      · exact only_putMeter (ps := noset) (by decide) (Only.refl u))
    fun sc gs v t _ _ ht hk => by
      rw [ht .qos (by decide)]
      unfold fillMeter
      rw [if_neg (not_not_intro hk)]
      exact (tabGet_set ..).trans (if_pos rfl)

theorem progOf_mod {p : Nat} {f : Prog → Prog} : progOf (modProg p f s) p = f (progOf s p) :=
  (tabGet_mod ..).trans (if_pos rfl)

theorem tineSetPerms_sets : Sets 0x0A02 [0x0F] (fun _ => permSettings) (.tineSetPerms c) c s
    (fun sc gs => (∀ g ∈ gs, blockRanges.contains g.1 = true → g.2.2 % 64 = 0) ∧
      given s gs sScrBase sc + given s gs sScrLen sc ≤ 131072 ∧
      given s gs sSramBase sc + given s gs sSramLen sc ≤ 16777216)
    fun sc _ t => (progOf t (scopeIndex sc)).disabled = false :=
  sets_then (fun sc _ => modProg (scopeIndex sc) (fun p => { p with disabled := false })) rfl
    (by decide)
    (fun sc gs v _ ⟨hodd, hscr, hsram⟩ => by
      have ho : ¬ gs.findIdx (fun g => blockRanges.contains g.1 && decide (g.2.2 % 64 ≠ 0)) <
          gs.length := fun hn => by
        obtain ⟨g, hg, hb⟩ := List.findIdx_lt_length.1 hn
        obtain ⟨h1, h2⟩ := Bool.and_eq_true_iff.1 hb
        exact of_decide_eq_true h2 (hodd g hg h1)
      exact (if_neg ho).trans ((if_neg (Int.not_lt.2 hscr)).trans (if_neg (Int.not_lt.2 hsram))))
    (fun _ _ u => only_modProg (by decide) (Only.refl u)) fun sc gs v t _ _ ht => by
      unfold progOf
      rw [ht .tine (by decide)]
      exact congrArg Prog.disabled (progOf_mod (f := fun p => { p with disabled := false }))

/-- What PMC_SAMPLE_START does with the settings put: the mask stands, each tine of it has a
countdown drawn, and a full buffer that stops takes the mask back (R385). -/
def beginSampling (sc : Nat) (s1 : State) : State :=
  let h := scopeIndex sc
  let mask := settingN s1 sTineMask sc
  let s2 := modSamp h (fun x => { x with mask := BitVec.ofNat 16 mask, armed := 0 }) s1
  if mask = 0 then s2
  else sampFullLook h (each (drawCountdown h) ((List.range 16).filter (fun t => mask.testBit t))
    (rngDraw s2).2)

theorem beginSampling_only (sc : Nat) (u : State) : Only noset u (beginSampling sc u) := by
  have h2 (f : Samp → Samp) : Only noset u (modSamp (scopeIndex sc) f u) :=
    only_modSamp (by decide) (Only.refl u)
  unfold beginSampling
  dsimp only
  split
  · exact h2 _
  · exact only_sampFullLook (by decide) (only_each (fun _ _ h => only_drawCountdown (by decide) h)
      (only_rngDraw (by decide) (h2 _)))

theorem drawCountdowns_samp {h : Nat} (L : List Nat) (u : State) :
    (sampOf (each (drawCountdown h) L u) h).mask = (sampOf u h).mask ∧
    (sampOf (each (drawCountdown h) L u) h).buffer = (sampOf u h).buffer := by
  refine each_stay (P := fun w => (sampOf w h).mask = (sampOf u h).mask ∧
    (sampOf w h).buffer = (sampOf u h).buffer) (fun t w ⟨hm, hb⟩ => ?_) L u ⟨rfl, rfl⟩
  refine ⟨(drawCountdown_mask h t w).trans hm, Eq.trans ?_ hb⟩
  unfold drawCountdown
  dsimp only
  rw [sampOf_mod]
  rfl

/-- The mask that stands once a full buffer has been looked at. -/
theorem sampFullLook_mask {h : Nat} : (sampOf (sampFullLook h s) h).mask =
    if settingB s sBufMode (scHarrow h) = true ∧ 256 ≤ (sampOf s h).buffer.length then 0
    else (sampOf s h).mask := by
  unfold sampFullLook
  by_cases hf : settingB s sBufMode (scHarrow h) = true ∧ 256 ≤ (sampOf s h).buffer.length
  · rw [if_pos hf]
    split
    · have ht : ∀ u : State, (raise 0x0B03 h 0 u).tine = u.tine := fun u =>
        only_raise (ps := raising) (by decide) (Only.refl u) .tine (by decide)
      unfold sampOf
      rw [ht]
      exact congrArg Samp.mask sampOf_mod
    · next hn => simpa [hf.1, hf.2] using hn
  · rw [if_neg hf, if_neg fun hn => hf (by simpa using (Bool.and_eq_true_iff.1 hn).1)]

/-- The scope of a command of harrows is its harrow's. -/
theorem carries_harrow {sc : Nat} {gs : List Given} (h : Carries [0x0D] specs c s sc gs) :
    sc = scHarrow (scopeIndex sc) := by
  obtain ⟨-, h, -⟩ := h
  unfold scopeOf at h
  split at h
  · next hc =>
    cases h
    simp only [Bool.and_eq_true, List.contains_iff_mem, List.mem_singleton] at hc
    obtain ⟨hk, hr⟩ := hc
    unfold scopeInRange at hr
    dsimp only at hr
    rw [hk] at hr
    simp only [Bool.and_eq_true, decide_eq_true_eq] at hr
    have hi : field c.payload 2 2 < 65536 := field_lt _ _ 2
    unfold scopeIndex scopeField scHarrow scopeCode
    rw [hk, hr.2]
    omega
  · cases h

theorem beginSampling_mask {sc : Nat} (h : sc = scHarrow (scopeIndex sc)) :
    (sampOf (beginSampling sc s) (scopeIndex sc)).mask =
      if settingB s sBufMode sc = true ∧ 256 ≤ (sampOf s (scopeIndex sc)).buffer.length then 0
      else BitVec.ofNat 16 (settingN s sTineMask sc) := by
  obtain ⟨mask, hmask⟩ : ∃ m, settingN s sTineMask sc = m := ⟨_, rfl⟩
  obtain ⟨s2, hs2⟩ : ∃ u, modSamp (scopeIndex sc)
    (fun x => { x with mask := BitVec.ofNat 16 mask, armed := 0 }) s = u := ⟨_, rfl⟩
  have hm : (sampOf s2 (scopeIndex sc)).mask = BitVec.ofNat 16 mask := by
    rw [← hs2, sampOf_mod]
  unfold beginSampling
  dsimp only
  rw [hmask, hs2]
  by_cases h0 : mask = 0
  · rw [if_pos h0, hm, h0]
    exact (ite_self _).symm
  · obtain ⟨L, hL⟩ : ∃ L, (List.range 16).filter (fun t => mask.testBit t) = L := ⟨_, rfl⟩
    have hset : (each (drawCountdown (scopeIndex sc)) L (rngDraw s2).2).settings = s.settings := by
      rw [← hs2]
      exact only_each (ps := [.tine, .freeCtr, .cry]) (fun _ _ h => only_drawCountdown (by decide) h)
        (only_rngDraw (by decide) (only_modSamp (by decide) (Only.refl s))) .settings (by decide)
    obtain ⟨hdm, hdb⟩ := drawCountdowns_samp (h := scopeIndex sc) L (rngDraw s2).2
    have hb : (sampOf (rngDraw s2).2 (scopeIndex sc)).buffer = (sampOf s (scopeIndex sc)).buffer := by
      rw [show sampOf (rngDraw s2).2 (scopeIndex sc) = sampOf s2 (scopeIndex sc) from rfl, ← hs2,
        sampOf_mod]
    rw [if_neg h0, hL, sampFullLook_mask, hdm, hdb, hb, ← h]
    unfold settingB setting
    rw [hset]
    exact congrArg _ hm

theorem pmcSampleStart_sets : Sets 0x0B03 [0x0D] (fun _ => settings1404) (.pmcSampleStart c) c s
    (fun _ _ => True) fun sc gs t => (sampOf t (scopeIndex sc)).mask =
      if settingB (putGiven sc gs s) sBufMode sc = true ∧ 256 ≤ (sampOf s (scopeIndex sc)).buffer.length
      then 0 else BitVec.ofNat 16 (settingN (putGiven sc gs s) sTineMask sc) :=
  sets_then (fun sc _ => beginSampling sc) rfl (by decide) (fun sc gs v _ _ => by
      by_cases h0 : settingN (putGiven sc gs { s with reeve := v }) sTineMask sc = 0
      · exact (if_pos h0).trans (congrArg (Prod.mk _) (if_pos h0).symm)
      · exact (if_neg h0).trans (congrArg (Prod.mk _) (if_neg h0).symm))
    (fun sc _ => beginSampling_only sc) fun sc gs v t hc _ ht => by
      unfold sampOf
      rw [ht .tine (by decide)]
      exact (beginSampling_mask (s := { putGiven sc gs s with reeve := v }) (carries_harrow hc)).trans
        (by
          unfold sampOf
          rw [show ({ putGiven sc gs s with reeve := v } : State).tine = s.tine from putGiven_tine]
          rfl)

/-- Settles O51: each command's lemma by its side. -/
theorem settingsCommandsPutTheirSettings : Obligations.SettingsCommandsPutTheirSettings := by
  unfold Obligations.SettingsCommandsPutTheirSettings
  intro c s no all held port
  exact ⟨supSetActions_sets, fun ha sc gs hc ⟨hsd, hsf⟩ => supSetThresholds_sets ha sc gs hc
      (not_or.2 ⟨Int.not_lt.2 hsd, Int.not_lt.2 hsf⟩), timeSetDomains_sets, timeSetAsym_sets,
    timeSetOutputs_sets, portSetSheaf_sets, ptpConfigurePort_sets, qosSetQueue_sets,
    qosSetSched_sets, qosSetShaper_sets, qosSetMeter_sets, tineSetPerms_sets, pmcSampleStart_sets⟩

end Sys2Proof.Machine

/-! Settings commands of lanes, groups, activation, ports, performance counters and the pair
(spec/21, R77, R128, R129, R381, R499). -/

namespace Sys2Proof.Machine
variable {s t : State} {c : Cmd} {sc : Nat} {gs : List Given}

/-- An accepted command that carries settings and does more than put them. -/
theorem does_settings {op : Nat} {i : Instr} {kinds : List Nat} {specs : Nat → List SSpec}
    {k : Nat → List Given → Call → State → Reply × State} {P : State → Prop}
    (f : Reeve → State) (hi : exec i s = .next (runCmd op (settingsCmd kinds specs k) c s))
    (ha : Accepted op c s) (hc : Carries kinds specs c s sc gs)
    (hK : ∀ v, k sc gs { payload := c.payload, tag := c.tag } { s with reeve := v } =
      ({ status := 0 }, f v))
    (hP : ∀ v t, Only [.win, .i3c, .reeve] (f v) t → P t) :
    Does i s fun t => Replied op c 0 [] t ∧ P t :=
  does_command hi ha fun v => ⟨f v, (settingsCmd_runs hc v).trans (hK v), fun t _ ho _ => hP v t ho⟩

/-! LINE_CONFIGURE_LANES. -/

/-- What LINE_CONFIGURE_LANES does with the settings put. -/
def relane (o0 o1 : Optics) (sc : Nat) (gs : List Given) (on : Bool) (s1 : State) : State :=
  let x := scopeIndex sc
  if scopeKind sc = 0x00 then lockLook s1
  else if !carried gs sLaneEnable then s1
  else if scopeKind sc = 0x01 then supLook (if on then enableLane x (domainOn x s1) else disableLane x s1)
  else gateLook (roleOutLook (if on then enableLtx x (if x = 0 then o0 else o1) s1
    else modUsLane x (fun l => { l with enabled := false }) s1))

theorem relane_only {o0 o1 : Optics} {on : Bool} (u : State) :
    Only noset u (relane o0 o1 sc gs on u) := by
  have hr := Only.refl (ps := noset) u
  unfold relane
  dsimp only
  exact only_ite (only_lockLook (by decide) hr) (only_ite hr (only_ite
    (only_supLook (by decide) (only_ite (only_enableLane (by decide) (only_domainOn (by decide) hr))
      (only_disableLane (by decide) hr)))
    (only_gateLook (by decide) (only_roleOutLook (by decide)
      (only_ite (only_enableLtx (by decide) hr) (only_modUsLane (by decide) hr))))))

/-- A receive lane given LANE_ENABLE is OFF exactly where it is not to be on. -/
theorem relane_lrx {o0 o1 : Optics} {on : Bool} (hcar : carried gs sLaneEnable = true)
    (hk : scopeKind sc = 1) :
    (laneOf (relane o0 o1 sc gs on s) (scopeIndex sc)).st = .off ↔ on = false := by
  have hs (w : State) : (supLook w).lanes = w.lanes :=
    only_supLook (ps := [.sup]) (by decide) (Only.refl w) .lanes (by decide)
  have h0 : ¬ scopeKind sc = 0 := by omega
  have h1 : ¬ (!carried gs sLaneEnable) = true := by rw [hcar]; exact Bool.false_ne_true
  unfold relane laneOf
  dsimp only
  rw [if_neg h0, if_neg h1, if_pos hk, hs]
  cases on
  · exact iff_of_true (disableLane_off _ s) rfl
  · exact iff_of_false (enableLane_on _ (domainOn _ s)) (Ne.symm Bool.false_ne_true)

theorem enableLtx_noBursts {x : Nat} {o : Optics} (h : ∀ x, (usLaneOf s x).bursts = []) (y : Nat) :
    (usLaneOf (enableLtx x o s) y).bursts = [] := by
  unfold enableLtx
  dsimp only
  split
  · exact h y
  · unfold domainOn
    exact usBursts_mod (f := fun l => { l with
      enabled := true, wdTrip := false, tunable := o.tunable && !o.grids.isEmpty,
      freq := if o.tunable && !o.grids.isEmpty then o.freq else 0 }) (fun _ => rfl) h y

/-- A transmit lane given LANE_ENABLE is enabled exactly where it is to be on, where no lane has
bursts that the gates could cut. -/
theorem relane_ltx {o0 o1 : Optics} {on : Bool} (hcar : carried gs sLaneEnable = true)
    (hk : scopeKind sc = 2) (hb : ∀ x, (usLaneOf s x).bursts = []) :
    (usLaneOf (relane o0 o1 sc gs on s) (scopeIndex sc)).enabled = on := by
  obtain ⟨s2, hs2⟩ : ∃ u, (if on then enableLtx (scopeIndex sc) (if scopeIndex sc = 0 then o0 else o1) s
    else modUsLane (scopeIndex sc) (fun l => { l with enabled := false }) s) = u := ⟨_, rfl⟩
  have hen : (usLaneOf s2 (scopeIndex sc)).enabled = on := by
    rw [← hs2]
    cases on
    · exact congrArg UsLane.enabled ((usLaneOf_modUsLane ..).trans (if_pos rfl) :)
    · exact enableLtx_on ..
  have hb2 (x : Nat) : (usLaneOf s2 x).bursts = [] := by
    rw [← hs2]
    cases on
    · exact usBursts_mod (f := fun l => { l with enabled := false }) (fun _ => rfl) hb x
    · exact enableLtx_noBursts hb x
  have hr : (roleOutLook s2).us = s2.us :=
    only_roleOutLook (ps := [.pair]) (by decide) (Only.refl s2) .us (by decide)
  have h0 : ¬ scopeKind sc = 0 := by omega
  have h1 : ¬ (!carried gs sLaneEnable) = true := by rw [hcar]; exact Bool.false_ne_true
  have h2 : ¬ scopeKind sc = 1 := by omega
  unfold relane
  dsimp only
  rw [if_neg h0, if_neg h1, if_neg h2, hs2, gateLook_none fun x => by
    unfold usLaneOf at hb2 ⊢
    rw [hr]
    exact hb2 x]
  unfold usLaneOf at hen ⊢
  rw [hr]
  exact hen

theorem lineConfigureLanes_sets (o0 o1 : Optics) : Sets 0x0301 [0x00, 0x01, 0x02]
    (fun k => if k = 0 then [sTimingLane] else [sLaneEnable, sMediaLane])
    (.lineConfigureLanes c o0 o1) c s (fun _ _ => True) fun sc gs t =>
      carried gs sLaneEnable = true →
        (scopeKind sc = 1 → ((laneOf t (scopeIndex sc)).st = .off ↔ given s gs sLaneEnable sc ≠ 1)) ∧
        (scopeKind sc = 2 → (∀ x, (usLaneOf s x).bursts = []) →
          ((usLaneOf t (scopeIndex sc)).enabled = true ↔ given s gs sLaneEnable sc = 1)) :=
  sets_then (fun sc gs => relane o0 o1 sc gs (decide (given s gs sLaneEnable sc = 1))) rfl (by decide)
    (fun sc gs v _ _ => by
      unfold relane
      dsimp only
      split
      · rfl
      · split
        · rfl
        · split <;> rfl)
    (fun _ _ u => relane_only u) fun sc gs v t _ _ ht hcar => by
      have hus : (putGiven sc gs s).us = s.us := putGiven_only .us (by decide)
      refine ⟨fun hk => ?_, fun hk hb => ?_⟩
      · unfold laneOf
        rw [ht .lanes (by decide)]
        exact (relane_lrx hcar hk).trans decide_eq_false_iff_not
      · unfold usLaneOf
        rw [ht .us (by decide)]
        have h := relane_ltx (o0 := o0) (o1 := o1) (on := decide (given s gs sLaneEnable sc = 1))
          (s := { putGiven sc gs s with reeve := v }) hcar hk (by
            unfold usLaneOf at hb ⊢
            exact hus ▸ hb)
        unfold usLaneOf at h
        rw [h]
        exact decide_eq_true_iff

/-! LINE_SET_EQ. -/

theorem lineSetEq_unlocked : Sets 0x0302 [0x01] (fun _ => [sCtleMode, sCtleCode, sAdaptMin, sAdaptMax])
    (.lineSetEq c) c s
    (fun sc gs => eqValue s sc gs sAdaptMin ≤ eqValue s sc gs sAdaptMax ∧
      isLocked (laneOf s (scopeIndex sc)) = false) fun _ _ _ => True := by
  refine sets (fun _ => only_exec _) rfl (fun _ _ _ _ _ => rfl) (by decide)
    fun sc gs v hc ⟨ho, hl⟩ =>
      ⟨_, (if_neg (Int.not_lt.2 ho)).trans (if_neg (Bool.eq_false_iff.1 hl)), ?_, fun _ _ => trivial⟩
  have hput : each (fun (p : Nat × Int) s => putSetting (eqSpec p.1) (scLrx (scopeIndex sc)) 0 p.2 s)
      (gs.map fun g => (g.1.row, g.2.2)) { s with reeve := v } = putGiven sc gs { s with reeve := v } := by
    rw [eachEq (carries_facts hc).1, ← carries_line hc]
  unfold applyEq
  rw [hput]
  exact only_ctleFollow (ps := [.lanes]) (by decide) (Only.refl _) .settings (by decide)

theorem lineSetEq_locked (ha : Accepted 0x0302 c s)
    (hc : Carries [0x01] (fun _ => [sCtleMode, sCtleCode, sAdaptMin, sAdaptMax]) c s sc gs)
    (ho : eqValue s sc gs sAdaptMin ≤ eqValue s sc gs sAdaptMax)
    (hl : isLocked (laneOf s (scopeIndex sc)) = true) : Does (.lineSetEq c) s fun t =>
      Replied 0x0302 c 0 [] t ∧ t.settings = s.settings ∧
      (laneOf t (scopeIndex sc)).eqPending =
        (laneOf s (scopeIndex sc)).eqPending ++ gs.map (fun g => (g.1.row, g.2.2)) :=
  does_settings _ rfl ha hc (fun v => (if_neg (Int.not_lt.2 ho)).trans (if_pos hl)) fun v t ht => by
    refine ⟨ht .settings (by decide), ?_⟩
    rw [laneOf, ht .lanes (by decide)]
    exact congrArg Lane.eqPending
      ((laneOf_modLane (s := { s with reeve := v }) ..).trans (if_pos rfl) :)

/-! LINE_SET_GROUP. -/

/-- What LINE_SET_GROUP does with the settings put. -/
def regroup (sc : Nat) (gs : List Given) (s1 : State) : State :=
  match gs.head? with
  | none => s1
  | some g =>
    if scopeKind sc = 0 then setUsMode (decide (g.2.2 = 1)) s1
    else assignGroup (scopeIndex sc) (BitVec.ofInt 2 g.2.2) s1

theorem assignGroup_group {l : Nat} {g : BitVec 2} : (laneOf (assignGroup l g s) l).group = some g := by
  have hs (w : State) : (supLook (lockLook w)).lanes = w.lanes :=
    only_supLook (ps := noset.erase .lanes) (by decide)
      (only_lockLook (by decide) (Only.refl w)) .lanes (by decide)
  unfold assignGroup
  dsimp only
  rw [laneOf, hs]
  exact congrArg Lane.group ((laneOf_modLane ..).trans (if_pos rfl) :)

theorem lineSetGroup_sets : Sets 0x0303 [0x00, 0x01] (fun k => if k = 0 then [sUsMode] else [sLaneGroup])
    (.lineSetGroup c) c s
    (fun sc gs => ∀ g, gs.head? = some g → s.act.dual = true → if scopeKind sc = 0 then g.2.2 ≠ 0 else
      dualGroups (fun i => if i = scopeIndex sc then g.2.2.toNat else laneGroup s i) = true)
    fun sc gs t => ∀ g, gs.head? = some g → scopeKind sc = 1 →
      (laneOf t (scopeIndex sc)).group = some (BitVec.ofInt 2 g.2.2) :=
  sets_then regroup rfl (by decide) (fun sc gs v _ ho => by
      unfold regroup
      cases gs with
      | nil => rfl
      | cons g gs =>
        have ho := ho g rfl
        refine (if_neg Bool.false_ne_true).trans ?_
        by_cases hk : scopeKind sc = 0
        · have hn : ¬ (s.act.dual && decide (g.2.2 = 0)) = true := fun hn => by
            obtain ⟨hd, hz⟩ := Bool.and_eq_true_iff.1 hn
            have := ho hd
            rw [if_pos hk] at this
            exact this (of_decide_eq_true hz)
          exact (if_pos hk).trans ((if_neg hn).trans (congrArg (Prod.mk _) (if_pos hk).symm))
        · have hn : ¬ (s.act.dual && !dualGroups (fun i =>
              if i = scopeIndex sc then g.2.2.toNat else laneGroup s i)) = true := fun hn => by
            obtain ⟨hd, hz⟩ := Bool.and_eq_true_iff.1 hn
            have := ho hd
            rw [if_neg hk] at this
            rw [this] at hz
            exact Bool.false_ne_true hz
          exact (if_neg hk).trans ((if_neg hn).trans (congrArg (Prod.mk _) (if_neg hk).symm)))
    (fun sc gs u => by
      unfold regroup
      split
      · exact Only.refl u
      · exact only_ite (only_setUsMode (by decide) (Only.refl u))
          (only_assignGroup (by decide) (Only.refl u)))
    fun sc gs v t _ _ ht g hg hk => by
      unfold laneOf
      rw [ht .lanes (by decide)]
      unfold regroup
      rw [hg]
      dsimp only
      rw [if_neg (by omega)]
      exact assignGroup_group

/-! ACT_START and ACT_SET_PARENTING. -/

theorem scopeInsts_bound (h : scopeKind sc = 4 → scopeIndex sc < 65536) :
    (scopeInsts s sc).Nodup ∧ ∀ i ∈ scopeInsts s sc, i < 65536 := by
  unfold scopeInsts instances
  split
  · next hk => simpa using h hk
  · split <;> decide

/-- A mask that leaves no reserved bit clear is not refused. -/
theorem mgmtMask_fits (h : ∀ g ∈ gs, g.1 = sMgmtMask → g.2.2.toNat ||| mgmtMaskAll = mgmtMaskAll) :
    gs.find? (fun g => g.1 == sMgmtMask && decide (g.2.2.toNat ||| mgmtMaskAll ≠ mgmtMaskAll)) =
      none := by
  refine List.find?_eq_none.2 fun g hg hn => ?_
  obtain ⟨he, hm⟩ := Bool.and_eq_true_iff.1 hn
  exact of_decide_eq_true hm (h g hg (eq_of_beq he))

/-- The instances named are enabled with the settings, one after the other. -/
def startInsts (is : List Nat) (gs : List Given) (s : State) : State :=
  let mask := (gs.find? (fun g => g.1 == sMgmtMask)).map (fun g => BitVec.ofInt 16 g.2.2)
  each (fun i s => modInst i (fun x => { x with enabled := true, mgmtMask := mask.getD x.mgmtMask })
    (putGiven (scInst i) gs s)) is s

theorem actStart_does (ha : Accepted 0x0401 c s)
    (hc : Carries [0x00, 0x04] (fun _ => settings506 ++ [sMgmtMask]) c s sc gs)
    (hm : ∀ g ∈ gs, g.1 = sMgmtMask → g.2.2.toNat ||| mgmtMaskAll = mgmtMaskAll) :
    Does (.actStart c) s fun t => Replied 0x0401 c 0 [] t ∧ ∀ i ∈ scopeInsts s sc,
      (instOf t i).enabled = true ∧ InForce gs (scInst i) t := by
  refine does_settings (fun v => startInsts (scopeInsts s sc) gs { s with reeve := v }) rfl ha hc
    (fun v => ?_) fun v t ht i hi => ?_
  · dsimp only
    rw [if_neg Bool.false_ne_true, mgmtMask_fits hm]
    rfl
  · obtain ⟨hnodup, hlt⟩ := scopeInsts_bound (s := s) (sc := sc) fun _ => by unfold scopeIndex; omega
    have h := startEach (mask := fun x => ((gs.find? (fun g => g.1 == sMgmtMask)).map
      (fun g => BitVec.ofInt 16 g.2.2)).getD x.mgmtMask) hc (scopeInsts s sc) { s with reeve := v }
      hnodup hlt i hi
    unfold InForce setting instOf
    rw [ht .act (by decide), ht .settings (by decide)]
    exact h

/-- What ACT_SET_PARENTING does, with the settings of `s0`: the parenting changes where it is another,
and a working parent given is switched to. -/
def reparent (s0 : State) (sc : Nat) (gs : List Given) (dual : Bool) (s : State) : State :=
  let s1 := if dual = s0.act.dual then s else setParenting dual s
  let s2 := if carried gs sParenting then
    putSetting sParenting scDevice 0 (if dual then 1 else 0) s1 else s1
  if carried gs sWorking then (requestSwitch (given s0 gs sWorking sc).toNat true s2).2 else s2

theorem reparent_dual {s0 : State} {dual : Bool} (h : s.act.dual = s0.act.dual) :
    (reparent s0 sc gs dual s).act.dual = dual := by
  obtain ⟨s1, hs1⟩ : ∃ u, (if dual = s0.act.dual then s else setParenting dual s) = u := ⟨_, rfl⟩
  have hd1 : s1.act.dual = dual := by
    rw [← hs1]
    split
    · next he => exact h.trans he.symm
    · exact setParenting_dual _ _
  have hd2 : (if carried gs sParenting then
      putSetting sParenting scDevice 0 (if dual then 1 else 0) s1 else s1).act.dual = dual := by
    split <;> exact hd1
  unfold reparent
  rw [hs1]
  dsimp only
  by_cases hw : carried gs sWorking = true
  · rw [if_pos hw]
    exact requestSwitch_dual.trans hd2
  · rw [if_neg hw]
    exact hd2

theorem actSetParenting_does (ha : Accepted 0x0404 c s)
    (hc : Carries [0x00] (fun _ => [sParenting, sWorking]) c s sc gs) :
    let dual := if carried gs sParenting then decide (given s gs sParenting sc = 1) else s.act.dual
    (dual = s.act.dual ∨ allStopped s = true ∧ (dual = true → dualGroups (laneGroup s) = true)) →
    (carried gs sWorking = true → dual = true ∨ (given s gs sWorking sc).toNat = 0) →
    Does (.actSetParenting c) s fun t => Replied 0x0404 c 0 [] t ∧ t.act.dual = dual := by
  intro dual hd hw
  have h1 : ¬ (dual ≠ s.act.dual ∧ (!allStopped s || (dual && !dualGroups (laneGroup s))) = true) := by
    rintro ⟨hne, hor⟩
    obtain ⟨hst, hg⟩ := hd.resolve_left hne
    rw [hst] at hor
    obtain ⟨hdual, hn⟩ := Bool.and_eq_true_iff.1 hor
    rw [hg hdual] at hn
    exact Bool.false_ne_true hn
  have h2 : ¬ (carried gs sWorking = true ∧ (!dual) = true ∧ (given s gs sWorking sc).toNat ≠ 0) := by
    rintro ⟨hcw, hnd, h0⟩
    refine (hw hcw).elim (fun hdual => ?_) h0
    rw [hdual] at hnd
    exact Bool.false_ne_true hnd
  refine does_settings (fun v => reparent s sc gs dual { s with reeve := v }) rfl ha hc
    (fun v => (if_neg h1).trans (if_neg h2)) fun v t ht => ?_
  rw [ht .act (by decide)]
  exact reparent_dual rfl

/-! PORT_CONFIGURE and PMC_CONFIGURE. -/

/-- What PORT_CONFIGURE does with the settings put: its lanes follow, its domain is on where the port
is enabled, and the links are looked at. -/
def report (sc : Nat) (s1 : State) : State :=
  let p := scopeIndex sc
  let s2 := each slFollow (portLanes s1 p) s1
  let s3 := if settingB s2 sPortEnable sc then domainOn (if p < 4 then 6 else 7) s2 else s2
  portFlushLook p (portsLook s3)

theorem report_settings : (report sc s).settings = s.settings := by
  have hfollow (L : List Nat) : Only noset s (each slFollow L s) :=
    only_each (fun _ _ h => only_slFollow (by decide) h) (Only.refl s)
  exact only_portFlushLook (ps := noset) (by decide) (only_portsLook (by decide)
    (only_ite (only_domainOn (by decide) (hfollow _)) (hfollow _))) .settings (by decide)

theorem portConfigure_does (ha : Accepted 0x0701 c s)
    (hc : Carries [0x06] (fun _ => settings802) c s sc gs) (hp : namesNoPort (mode100 s) sc = false)
    (ho : portOffence sc gs (putPort sc gs s) = none)
    (hm : setting s sPortMode scDevice = setting (putPort sc gs s) sPortMode scDevice ∨
      ∀ p, p < 8 → (portOf s p).link = .disabled) :
    Does (.portConfigure c) s fun t => Replied 0x0701 c 0 [] t ∧ ∀ g ∈ gs,
      if laneSettings.contains g.1 then setting t g.1 (scSlane g.2.1) = g.2.2
      else setting t g.1 sc g.2.1 = g.2.2 := by
  have h1 (v : Reeve) : ¬ namesNoPort (mode100 { s with reeve := v }) sc = true :=
    Bool.eq_false_iff.1 hp
  have h3 (v : Reeve) : ¬ (decide (setting s sPortMode scDevice ≠
      setting (putPort sc gs s) sPortMode scDevice) &&
      (List.range 8).any (fun i => (portOf s i).link != .disabled)) = true := fun hn => by
    obtain ⟨hne, hany⟩ := Bool.and_eq_true_iff.1 hn
    obtain ⟨i, hi, hl⟩ := List.any_eq_true.1 hany
    rw [hm.resolve_left (of_decide_eq_true hne) i (List.mem_range.1 hi)] at hl
    exact Bool.false_ne_true hl
  have h2 (v : Reeve) : portOffence sc gs (putPort sc gs { s with reeve := v }) = none := by
    rw [putPort_reeve]
    exact ho
  refine does_settings (fun v => report sc (putPort sc gs { s with reeve := v })) rfl ha hc
    (fun v => (if_neg (h1 v)).trans ?_) fun v t ht g hg => ?_
  · rw [h2 v]
    refine if_neg ?_
    rw [putPort_reeve]
    exact h3 v
  · have hput := putPort_puts hc { s with reeve := v } g hg
    rw [← report_settings, ← ht .settings (by decide)] at hput
    have hdev : ∀ p ∈ laneSettings, p.dev = false := by decide
    unfold setting
    by_cases hl : laneSettings.contains g.1 = true
    · rw [if_pos hl] at hput ⊢
      rw [hdev g.1 (List.contains_iff_mem.1 hl), if_neg Bool.false_ne_true, hput]
      rfl
    · rw [if_neg hl] at hput ⊢
      rw [hput]
      rfl

theorem pmcConfigure_does (ha : Accepted 0x0B01 c s)
    (hc : Carries [0x0D] (fun _ => sPmcTineMask :: settings1402) c s sc gs) :
    Does (.pmcConfigure c) s fun t => Replied 0x0B01 c 0 [] t ∧
      ∀ n, n < 16 → (given s gs sPmcTineMask sc).toNat.testBit n = true →
        (∀ g ∈ gs, pmcKept.contains g.1 = true →
          setting t g.1 (scTine (scopeIndex sc) n) g.2.1 = g.2.2) ∧
        ((∃ g ∈ gs, g.1 = sPmcClear ∧ g.2.2 = 1) → (pmcOf t (scopeIndex sc) n).count = [] ∧
          cycOf t (scopeIndex sc) n = 0) := by
  obtain ⟨L, hL⟩ : ∃ L, (List.range 16).filter
    (fun n => (given s gs sPmcTineMask sc).toNat.testBit n) = L := ⟨_, rfl⟩
  refine does_settings (fun v => each (pmcOne sc gs) L
    (putGiven sc (gs.filter (fun g => g.1 == sPmcTineMask)) { s with reeve := v })) rfl ha hc
    (fun v => by rw [← hL]; rfl) fun v t ht n hn hbit => ?_
  have h := pmcEach hc (putGiven sc (gs.filter (fun g => g.1 == sPmcTineMask)) { s with reeve := v })
    L (fun m hm => by
      rw [← hL] at hm
      exact List.mem_range.1 (List.mem_filter.1 hm).1) n
    (by rw [← hL]; exact List.mem_filter.2 ⟨List.mem_range.2 hn, hbit⟩)
  refine ⟨fun g hg hk => ?_, fun hcl => ?_⟩
  · rw [setting, ht .settings (by decide)]
    exact h.1 g hg hk
  · have h2 := h.2 hcl
    simp only [pmcOf, cycOf] at h2 ⊢
    rw [ht .tine (by decide)]
    exact h2

/-! PAIR_CONFIGURE. -/

/-- What PAIR_CONFIGURE does with the settings put: a chip enters the pair or leaves it (R499). -/
def setPaired (st : PairState) (paired : Int) (s1 : State) : State :=
  let s2 := modPair (fun p => { p with forceArmed := false }) s1
  if st == .solo && paired == 1 then enterPair s2
  else if !(st == .solo) && paired == 0 then leavePair s2
  else portsLook s2

theorem setPaired_only {st : PairState} {p : Int} (u : State) : Only noset u (setPaired st p u) := by
  have h1 (f : Pair → Pair) : Only noset u (modPair f u) := only_modPair (by decide) (Only.refl u)
  exact only_ite (only_enterPair (by decide) (h1 _)) (only_ite (only_leavePair (by decide) (h1 _))
    (only_portsLook (by decide) (h1 _)))

theorem setPaired_enters {st : PairState} {p : Int} (h : st = .solo) (hp : p = 1)
    (hy : s.pair.yielding = none) : (setPaired st p s).pair.st = .standby := by
  unfold setPaired
  dsimp only
  rw [if_pos (by rw [h, hp]; rfl)]
  exact enterPair_st hy

theorem setPaired_leaves {st : PairState} {p : Int} (h : s.pair.st = st) (hp : p = 0) :
    (setPaired st p s).pair.st = .solo := by
  subst h
  have h1 : ¬ (s.pair.st == .solo && p == 1) = true := by rw [hp]; simp
  unfold setPaired
  dsimp only
  rw [if_neg h1]
  by_cases hs : s.pair.st = .solo
  · have h2 : ¬ (!(s.pair.st == .solo) && p == 0) = true := by rw [hs]; exact Bool.false_ne_true
    rw [if_neg h2]
    have hkeep (w : State) : (portsLook w).pair = w.pair :=
      only_portsLook (ps := noset.erase .pair) (by decide) (Only.refl w) .pair (by decide)
    rw [hkeep]
    exact hs
  · rw [if_pos (by simpa [hp] using hs)]
    exact leavePair_st _

theorem pairConfigure_sets : Sets 0x0F01 [0x00] (fun _ => settings1901) (.pairConfigure c) c s
    (fun sc gs =>
      (carried gs sPaired = true → given s gs sPaired sc = 1 →
        pairSerialValid (given s gs sPairSerial sc) = true) ∧
      (given s gs sPaired sc = 0 → s.pair.st = .solo ∨ s.pair.st = .active ∨ s.pair.roleIn = false))
    fun sc gs t => s.pair.yielding = none →
      (s.pair.st = .solo ∧ given s gs sPaired sc = 1 → t.pair.st = .standby) ∧
      (given s gs sPaired sc = 0 → t.pair.st = .solo) :=
  sets_then (fun sc gs => setPaired s.pair.st (given s gs sPaired sc)) rfl (by decide)
    (fun sc gs v _ ⟨hser, hst⟩ => by
      have h1 : ¬ (carried gs sPaired && given s gs sPaired sc == 1 &&
          !pairSerialValid (given s gs sPairSerial sc)) = true := fun hn => by
        obtain ⟨hcp, hn⟩ := Bool.and_eq_true_iff.1 hn
        obtain ⟨hcar, hone⟩ := Bool.and_eq_true_iff.1 hcp
        rw [hser hcar (eq_of_beq hone)] at hn
        exact Bool.false_ne_true hn
      have h2 : ¬ (given s gs sPaired sc = 0 ∧ (!(s.pair.st == .solo)) = true ∧
          (!(s.pair.st == .active || !s.pair.roleIn)) = true) := by
        rintro ⟨h0, hs, ha⟩
        rcases hst h0 with h | h | h
        · rw [h] at hs
          exact Bool.false_ne_true hs
        · rw [h] at ha
          exact Bool.false_ne_true ha
        · rw [h, Bool.not_false, Bool.or_true] at ha
          exact Bool.false_ne_true ha
      refine (if_neg h1).trans ((if_neg h2).trans ?_)
      by_cases hin : (s.pair.st == .solo && given s gs sPaired sc == 1) = true
      · exact (if_pos hin).trans (congrArg (Prod.mk _) (if_pos hin).symm)
      · refine (if_neg hin).trans (Eq.trans ?_ (congrArg (Prod.mk _) (if_neg hin).symm))
        by_cases hout : (!(s.pair.st == .solo) && given s gs sPaired sc == 0) = true
        · exact (if_pos hout).trans (congrArg (Prod.mk _) (if_pos hout).symm)
        · exact (if_neg hout).trans (congrArg (Prod.mk _) (if_neg hout).symm))
    (fun _ _ u => setPaired_only u) fun sc gs v t _ _ ht hy => by
      have hpair : (putGiven sc gs s).pair = s.pair := putGiven_only .pair (by decide)
      rw [ht .pair (by decide)]
      exact ⟨fun ⟨hs, h1⟩ => setPaired_enters hs h1 (hpair ▸ hy),
        fun h0 => setPaired_leaves (congrArg Pair.st hpair) h0⟩

/-- Settles O52: each command's lemma by its side. -/
theorem lineActivationAndPairSettingsTakeEffect :
    Obligations.LineActivationAndPairSettingsTakeEffect := by
  unfold Obligations.LineActivationAndPairSettingsTakeEffect
  intro c s all eq ordered
  exact ⟨lineConfigureLanes_sets, lineSetEq_unlocked,
    fun ha _ _ hc ho hl => lineSetEq_locked ha hc ho hl, lineSetGroup_sets,
    fun ha _ _ hc hm => actStart_does ha hc hm, fun ha _ _ hc => actSetParenting_does ha hc,
    fun ha _ _ hc => portConfigure_does ha hc, fun ha _ _ hc => pmcConfigure_does ha hc,
    pairConfigure_sets⟩

end Sys2Proof.Machine

/-! Lots are released in key order (R76, R82-R84). -/

namespace Sys2Proof.Machine
variable {s t : State} {g l : Nat} {lot : Lot}

/-! The first waiting lot. -/

/-- The better of two candidates for release. -/
def earlier (best : Option (Nat × Lot)) (w : Nat × Lot) : Option (Nat × Lot) :=
  match best with
  | none => some w
  | some b => if keyBefore w.2.key b.2.key then some w else best

theorem firstWaiting_eq : firstWaiting s g =
    ((lanesOf s g).flatMap fun l => (laneOf s l).waiting.map fun w => (l, w)).foldl earlier none := rfl

theorem earlier_mem : ∀ (ws : List (Nat × Lot)) (best : Option (Nat × Lot)) (w : Nat × Lot),
    ws.foldl earlier best = some w → w ∈ ws ∨ best = some w
  | [], _, _, h => .inr h
  | v :: ws, best, w, h => by
    rcases earlier_mem ws _ w h with hm | hb
    · exact .inl (List.mem_cons_of_mem _ hm)
    · unfold earlier at hb
      split at hb
      · exact .inl (by rw [Option.some.inj hb]; exact List.mem_cons_self)
      · split at hb
        · exact .inl (by rw [Option.some.inj hb]; exact List.mem_cons_self)
        · exact .inr hb

/-- A candidate before every other stays the best, once it is. -/
theorem earlier_stays {x : Nat × Lot} : ∀ (ws : List (Nat × Lot)),
    (∀ w ∈ ws, w ≠ x → keyBefore w.2.key x.2.key = false) → ws.foldl earlier (some x) = some x
  | [], _ => rfl
  | v :: ws, h => by
    have hstep : earlier (some x) v = some x := by
      unfold earlier
      by_cases hv : v = x
      · rw [hv]
        exact ite_self _
      · exact if_neg (Bool.eq_false_iff.1 (h v List.mem_cons_self hv))
    rw [List.foldl_cons, hstep]
    exact earlier_stays ws fun w hw => h w (List.mem_cons_of_mem _ hw)

/-- A candidate before every other is the one taken. -/
theorem earlier_takes {x : Nat × Lot} : ∀ (ws : List (Nat × Lot)) (best : Option (Nat × Lot)),
    x ∈ ws → (∀ w ∈ ws, w ≠ x → keyBefore x.2.key w.2.key = true ∧ keyBefore w.2.key x.2.key = false) →
    (∀ b, best = some b → b ≠ x → keyBefore x.2.key b.2.key = true) →
    ws.foldl earlier best = some x
  | v :: ws, best, hx, h, hb => by
    have hrest := fun w hw => h w (List.mem_cons_of_mem _ hw)
    rw [List.foldl_cons]
    by_cases hv : v = x
    · have hstep : earlier best v = some x := by
        subst hv
        unfold earlier
        split
        · rfl
        · next b =>
          by_cases hbv : b = v
          · rw [hbv]
            exact ite_self _
          · exact if_pos (hb b rfl hbv)
      rw [hstep]
      exact earlier_stays ws fun w hw hne => (hrest w hw hne).2
    · refine earlier_takes ws _ ((List.mem_cons.1 hx).resolve_left (Ne.symm hv)) hrest fun b he hne => ?_
      unfold earlier at he
      split at he
      · exact Option.some.inj he ▸ (h v List.mem_cons_self hv).1
      · split at he
        · exact Option.some.inj he ▸ (h v List.mem_cons_self hv).1
        · exact hb b he hne

theorem mem_waiting {m : Nat} {w : Lot} : (m, w) ∈ (lanesOf s g).flatMap (fun l =>
    (laneOf s l).waiting.map fun w => (l, w)) ↔ m ∈ lanesOf s g ∧ w ∈ (laneOf s m).waiting := by
  simp [List.mem_flatMap]

theorem firstWaiting_mem {m : Nat} {w : Lot} (h : firstWaiting s g = some (m, w)) :
    m ∈ lanesOf s g ∧ w ∈ (laneOf s m).waiting := by
  rw [firstWaiting_eq] at h
  exact mem_waiting.1 ((earlier_mem _ _ _ h).resolve_right (Option.some_ne_none _).symm)

theorem firstWaiting_takes (hl : l ∈ lanesOf s g) (hlot : lot ∈ (laneOf s l).waiting)
    (h : ∀ m ∈ lanesOf s g, ∀ w ∈ (laneOf s m).waiting, (m, w) ≠ (l, lot) →
      keyBefore lot.key w.key = true ∧ keyBefore w.key lot.key = false) :
    firstWaiting s g = some (l, lot) := by
  rw [firstWaiting_eq]
  refine earlier_takes _ none (mem_waiting.2 ⟨hl, hlot⟩) (fun ⟨m, w⟩ hw hne => ?_)
    fun b hb => absurd hb (Option.some_ne_none b).symm
  obtain ⟨hm, hw⟩ := mem_waiting.1 hw
  exact h m hm w hw hne

/-! The next release. -/

theorem lanePassed_not {k : LotKey} (hi : 0 ≤ scDiff (laneOf s l).inclFrom k.sc)
    (h : scDiff k.sc (laneOf s l).sc < 0 ∨
      scDiff k.sc (laneOf s l).sc = 0 ∧ (laneOf s l).pos ≤ k.cw) : lanePassed s l k = false := by
  unfold lanePassed
  dsimp only
  rw [if_neg (by omega)]
  rcases h with h | ⟨h, hp⟩
  · simp [show ¬ 0 < scDiff k.sc (laneOf s l).sc by omega,
      show ¬ scDiff k.sc (laneOf s l).sc = 0 by omega]
  · simp [h, hp]

theorem lanePassed_of {k : LotKey} (ho : (laneOf s l).cmpOpen = false)
    (h : scDiff (laneOf s l).inclFrom k.sc < 0 ∨ 0 < scDiff k.sc (laneOf s l).sc ∨
      scDiff k.sc (laneOf s l).sc = 0 ∧ k.cw < (laneOf s l).pos) : lanePassed s l k = true := by
  unfold lanePassed
  dsimp only
  split
  · rfl
  · next hi =>
    rcases h with h | h | ⟨h, hp⟩
    · exact absurd h hi
    · simp [h]
    · simp [h, hp, ho]

theorem nextRelease_none (h : includedOf s g = [] ∨ (∀ l ∈ lanesOf s g, (laneOf s l).waiting = []) ∨
    (∃ l ∈ includedOf s g, ∀ m ∈ lanesOf s g, ∀ w ∈ (laneOf s m).waiting,
      lanePassed s l w.key = false)) : nextRelease s g = none := by
  unfold nextRelease
  split
  · rfl
  · next hin =>
    split
    · rfl
    · next w hw =>
      obtain ⟨hm, hw⟩ := firstWaiting_mem (m := w.1) (w := w.2) hw
      rcases h with h | h | ⟨l, hl, h⟩
      · rw [h] at hin
        exact absurd rfl hin
      · rw [h _ hm] at hw
        exact absurd hw List.not_mem_nil
      · exact if_neg fun hall => Bool.false_ne_true
          ((h _ hm _ hw).symm.trans (List.all_eq_true.1 hall l hl))

theorem nextRelease_some (hin : includedOf s g ≠ []) (hf : firstWaiting s g = some (l, lot))
    (h : ∀ m ∈ includedOf s g, lanePassed s m lot.key = true) : nextRelease s g = some (l, lot) := by
  unfold nextRelease
  rw [if_neg (by simpa using hin), hf]
  exact if_pos (List.all_eq_true.2 h)

/-! The released lots of a group. -/

/-- What released lots write as they pass the steps of Table 3-3. -/
def lotSteps : List Part := [.reasm, .toTime, .toReeve, .inQ, .sup, .qos, .cry, .pwr, .life, .win,
  .i3c, .reeve, .counters, .freeCtr]

/-- Looking at the released lots changes of the lanes and groups the list alone. -/
theorem relLook_facts : (∀ k, laneOf (relLook g s) k = laneOf s k) ∧
    (∃ rs, groupOf (relLook g s) g = { groupOf s g with released := rs }) ∧
    ∀ k, k ≠ g → groupOf (relLook g s) k = groupOf s k := by
  obtain ⟨rs, s1, h1⟩ : ∃ rs s1, relStart g (groupOf s g).released s = (rs, s1) := ⟨_, _, rfl⟩
  obtain ⟨rs', s2, h2⟩ : ∃ rs' s2, relDrain g rs s1 = (rs', s2) := ⟨_, _, rfl⟩
  have ho : Only lotSteps s s2 := only_snd h2 (only_relDrain (by decide)
    (only_snd h1 (only_relStart (by decide) (Only.refl s))))
  have hg (k : Nat) : groupOf s2 k = groupOf s k := by
    unfold groupOf
    rw [ho .groups (by decide)]
  have he : relLook g s = modGroup g (fun y => { y with released := rs' }) s2 := by
    unfold relLook
    rw [h1]
    dsimp only
    rw [h2]
  rw [he]
  refine ⟨fun k => ?_, ⟨rs', ?_⟩, fun k hk => ?_⟩
  · exact lanes_of_only ho (by decide) k
  · rw [groupOf_modGroup, if_pos rfl, hg]
  · rw [groupOf_modGroup, if_neg hk, hg]

/-- Where no lot is released, looking at them changes nothing to be read. -/
theorem relLook_none (h : (groupOf s g).released = []) :
    (∀ k, groupOf (relLook g s) k = groupOf s k) ∧ Only [.groups] s (relLook g s) := by
  have he : relLook g s = modGroup g (fun y => { y with released := [] }) s := by
    unfold relLook
    rw [h]
    rfl
  rw [he]
  refine ⟨fun k => ?_, only_modGroup (by decide) (Only.refl s)⟩
  rw [groupOf_modGroup]
  split
  · next hk =>
    rw [hk, ← h]
  · rfl

/-- A lot that still arrives waits as the group's one released lot. -/
theorem relLook_arriving (h : (groupOf s g).released = [{ lot := lot }]) (hw : lot.whole = false) :
    relLook g s = modGroup g (fun y => { y with released := [{ lot := lot }] }) s := by
  have hs : relStart g [{ lot := lot }] s = ([{ lot := lot }], s) := by
    unfold relStart
    dsimp only
    rw [if_neg fun hn => Bool.false_ne_true (hw.symm.trans hn.1)]
    rfl
  unfold relLook
  rw [h, hs]
  rfl

theorem exec_lotHeaderRelease {g : Fin 4} (h : ∀ l ∈ lanesOf s g, (laneOf s l).cmpOpen = false) :
    exec (.lotHeaderRelease g) s = .next (relLook g (releaseHeader g s)) := by
  show Host.Outcome.next (relLook g (releaseHeader g (bondSettle g s))) = _
  rw [bondSettle_closed h]

/-- No lot is taken: the clauses of a release that finds none. -/
theorem lotHeaderRelease_none {g : Fin 4} (ho : ∀ l ∈ lanesOf s g, (laneOf s l).cmpOpen = false)
    (h : nextRelease s g = none) : Answers (.lotHeaderRelease g) s fun t =>
      (∀ l, laneOf t l = laneOf s l) ∧ (groupOf t g).expected = (groupOf s g).expected ∧
      (groupOf t g).releasedSc = (groupOf s g).releasedSc ∧
      ((groupOf s g).released = [] → (∀ k, groupOf t k = groupOf s k) ∧ Only [.groups] s t) ∧
      Only (writes (.lotHeaderRelease g)) s t := by
  have he := exec_lotHeaderRelease ho
  have hr : releaseHeader g s = s := by
    unfold releaseHeader
    rw [h]
  rw [hr] at he
  obtain ⟨hlanes, ⟨rs, hg⟩, -⟩ := relLook_facts (s := s) (g := g.val)
  exact ⟨_, he, hlanes, by rw [hg], by rw [hg], fun hrel => relLook_none hrel, only_exec _ he⟩

/-- The lot taken leaves its lane, its time of release noted. -/
def taken (g l : Nat) (lot : Lot) (s : State) : State :=
  bseqRelease g { lot with released := now s }
    (modLane l (fun x => { x with waiting := x.waiting.erase lot }) s)

/-- A lot is taken: the clauses of a release that finds one. -/
theorem lotHeaderRelease_some {g : Fin 4} {l : Nat} {lot : Lot}
    (ho : ∀ l ∈ lanesOf s g, (laneOf s l).cmpOpen = false)
    (h : nextRelease s g = some (l, lot)) : Answers (.lotHeaderRelease g) s fun t =>
      let d := bseqAhead (groupOf s g) lot
      (laneOf t l).waiting = (laneOf s l).waiting.erase lot ∧
      (∀ k, k ≠ l → laneOf t k = laneOf s k) ∧
      (groupOf t g).releasedSc = some (maxSc (groupOf s g) lot.key.sc) ∧
      (∀ k, k ≠ g.val → groupOf t k = groupOf s k) ∧
      (d < 2048 → (groupOf t g).expected = some (BitVec.ofNat 12 (bits lot.hdr.toNat 21 10) + 1) ∧
        (d = 0 → (groupOf s g).released = [] → lot.whole = false → t.reasm = s.reasm ∧
          (groupOf t g).released = [{ lot := { lot with released := now s } }])) ∧
      (2048 ≤ d → (groupOf t g).expected = (groupOf s g).expected ∧
        ((groupOf s g).released = [] → (groupOf t g).released = [] ∧
          ctrOf t cBseqLate (scGroup g) = ctrAdd (ctrOf s cBseqLate (scGroup g)) 1 ∧
          Only (counting ++ [.lanes, .groups]) s t)) ∧
      Only (writes (.lotHeaderRelease g)) s t := by
  have he := exec_lotHeaderRelease ho
  obtain ⟨s1, hs1⟩ : ∃ u, modLane l (fun x => { x with waiting := x.waiting.erase lot }) s = u :=
    ⟨_, rfl⟩
  obtain ⟨s2, hs2⟩ : ∃ u, bseqRelease g { lot with released := now s } s1 = u := ⟨_, rfl⟩
  have hr : releaseHeader g s = s2 := by
    unfold releaseHeader
    rw [h]
    dsimp only
    rw [hs1, hs2]
  have hg1 (k : Nat) : groupOf s1 k = groupOf s k := by rw [← hs1]; rfl
  have hl1 (k : Nat) : laneOf s1 k = if k = l then
      { laneOf s l with waiting := (laneOf s l).waiting.erase lot } else laneOf s k := by
    rw [← hs1, laneOf_modLane]
  obtain ⟨hbl, hbg, hbo, hlate⟩ :=
    bseqRelease_facts (g := g.val) (x := { lot with released := now s }) (u := s1)
  rw [hs2] at hbl hbg hbo hlate
  have hd : bseqAhead (groupOf s1 g) { lot with released := now s } = bseqAhead (groupOf s g) lot := by
    rw [hg1]
    rfl
  rw [hd, hg1] at hbg
  rw [hd] at hlate
  rw [hr] at he
  obtain ⟨hlanes, ⟨rs, hg⟩, hother⟩ := relLook_facts (s := s2) (g := g.val)
  refine ⟨_, he, ?_, fun k hk => ?_, ?_, fun k hk => ?_, fun hlt => ⟨?_, fun h0 hrel hw => ?_⟩,
    fun hge => ⟨?_, fun hrel => ?_⟩, only_exec _ he⟩
  · rw [hlanes, hbl, hl1, if_pos rfl]
  · rw [hlanes, hbl, hl1, if_neg hk]
  · rw [hg, hbg]
  · rw [hother k hk, hbo k hk, hg1]
  · rw [hg, hbg]
    exact if_pos hlt
  · have hrel2 : (groupOf s2 g).released = [{ lot := { lot with released := now s } }] := by
      rw [hbg]
      dsimp only
      rw [if_pos hlt, hrel, h0]
      rfl
    rw [relLook_arriving hrel2 hw]
    refine ⟨?_, by rw [groupOf_modGroup, if_pos rfl]⟩
    have hb : Only (counting ++ [.groups, .lanes]) s s2 := by
      rw [← hs2, ← hs1]
      exact only_bseqRelease (by decide) (only_modLane (by decide) (Only.refl s))
    exact hb .reasm (by decide)
  · rw [hg, hbg]
    exact if_neg (by omega)
  · have hrel2 : (groupOf s2 g).released = [] := by
      rw [hbg]
      dsimp only
      rw [if_neg (by omega)]
      exact hrel
    obtain ⟨hsame, honly⟩ := relLook_none hrel2
    have hcount : ctrOf (relLook g s2) cBseqLate (scGroup g) = ctrOf s2 cBseqLate (scGroup g) := by
      unfold ctrOf
      rw [honly .counters (by decide)]
    refine ⟨(congrArg Group.released (hsame g)).trans hrel2, ?_, ?_⟩
    · rw [hcount, hlate hge, (bump_group_counts (by decide)).2.1, ← hs1]
      rfl
    · refine Only.step (by decide) ?_ honly
      rw [← hs2, ← hs1]
      exact only_bseqRelease (by decide) (only_modLane (by decide) (Only.refl s))

/-! FRAG_REASSEMBLY_TIMEOUT. -/

theorem reasmOf_dropReasm {id k : Nat} :
    reasmOf (dropReasm id s) k = if k = id then {} else reasmOf s k := by
  have hf : (freeBushels (reasmOf s id).bushels s).reasm = s.reasm :=
    only_freeBushels (ps := [.qos, .pwr, .freeCtr]) (by decide) (Only.refl s) .reasm (by decide)
  unfold dropReasm setReasm reasmOf
  dsimp only
  rw [tabGet_set]
  split
  · rfl
  · unfold reasmOf at hf
    rw [hf]

theorem fragReassemblyTimeout_drops {id : BitVec 16} (ho : (reasmOf s id.toNat).open_ = true)
    (h8 : 8 ≤ (reasmOf s id.toNat).boundaries) : Answers (.fragReassemblyTimeout id) s fun t =>
      reasmOf t id.toNat = {} ∧ (∀ k, k ≠ id.toNat → reasmOf t k = reasmOf s k) ∧
      ctrOf t cFragAbandon (scLot id.toNat) = ctrAdd (ctrOf s cFragAbandon (scLot id.toNat)) 1 ∧
      Only (writes (.fragReassemblyTimeout id)) s t := by
  have he : exec (.fragReassemblyTimeout id) s =
      .next (bump cFragAbandon (scLot id.toNat) 1 (dropReasm id.toNat s)) := if_pos (by
    rw [ho]
    exact decide_eq_true h8)
  have hc : (dropReasm id.toNat s).counters = s.counters :=
    only_dropReasm (ps := [.reasm, .qos, .pwr, .freeCtr]) (by decide) (Only.refl s) .counters (by decide)
  refine ⟨_, he, ?_, fun k hk => ?_, ?_, only_exec _ he⟩
  · rw [reasmOf_bump, reasmOf_dropReasm, if_pos rfl]
  · rw [reasmOf_bump, reasmOf_dropReasm, if_neg hk]
  · rw [ctrOf_bump (cKey_ne (scLot_lt id) (by decide)) (by decide), if_pos rfl]
    unfold ctrOf
    rw [hc]

theorem fragReassemblyTimeout_keeps {id : BitVec 16}
    (h : (reasmOf s id.toNat).open_ = false ∨ (reasmOf s id.toNat).boundaries < 8) :
    exec (.fragReassemblyTimeout id) s = .next s :=
  if_neg fun hn => by
    obtain ⟨ho, h8⟩ := Bool.and_eq_true_iff.1 hn
    rcases h with h | h
    · exact Bool.false_ne_true (h.symm.trans ho)
    · exact absurd (of_decide_eq_true h8) (by omega)

/-- Settles O17: the first waiting lot is the one before every other, whatever order the lists are
read in. -/
theorem lotsAreReleasedInKeyOrder : Obligations.LotsAreReleasedInKeyOrder := by
  intro g s
  refine ⟨fun hopen => ⟨fun h => lotHeaderRelease_none hopen (nextRelease_none ?_),
    fun l hl lot hlot hin hfirst hpass => ?_⟩, fun id =>
      ⟨fragReassemblyTimeout_drops, fragReassemblyTimeout_keeps⟩⟩
  · exact h.imp_right (Or.imp_right fun ⟨l, hl, hn⟩ => ⟨l, hl, fun m hm w hw =>
      lanePassed_not (hn m hm w hw).1 (hn m hm w hw).2⟩)
  · exact lotHeaderRelease_some hopen (nextRelease_some hin (firstWaiting_takes hl hlot hfirst)
      fun m hm => lanePassed_of (hopen m (List.mem_filter.1 hm).1) (hpass m hm))

end Sys2Proof.Machine

/-! Precise-time messages sent (spec/09, R260-R273). -/

namespace Sys2Proof.Machine
variable {s t v : State} {port : Fin 8} {instB : Bool} {client : Option (BitVec 128)}
  {dst : Option (BitVec 48 × BitVec 128)}

/-- The message that waits at its port for the destination, built under the settings of `s`. -/
def timeMsg (s : State) (port : Nat) (instB : Bool) (client : Option (BitVec 128)) (kind : Nat)
    (one : Bool) (f : Nat × Bytes) : TimeMsg :=
  { kind := kind, bytes := f.2, ptpAt := f.1, instB := instB, ip := client, oneStep := one
    src := ptpSource s port instB, board := setting s sTsBoardTx (scPort port)
    v6 := decide (ptpProfile s port = 3) }

/-- A message handed to a busy port, from a state whose ports are as `x` says, joins its queue. -/
theorem ptpSend_queued {kind : Nat} {event one : Bool} {m : Bytes} {x : Port} {p : Nat}
    (hk : kind ≠ 4) (hv : v.settings = s.settings) (hx : portOf v p = x) (hup : x.link = .up)
    (htx : x.tx.isSome = true) (ho : ∀ q, q ≠ p → portOf v q = portOf s q) :
    ∃ u f, u.settings = s.settings ∧ ptpFrame u p dst event one m = f ∧
      portOf (ptpSend p kind instB event one client dst m v) p =
        { x with timeQ := x.timeQ ++ [timeMsg s p instB client kind one f] } ∧
      ∀ q, q ≠ p → portOf (ptpSend p kind instB event one client dst m v) q = portOf s q := by
  subst hx
  obtain ⟨h1, h2⟩ := ptpSend_facts (kind := kind) (b := instB) (event := event) (one := one)
    (client := client) (dst := dst) (m := m) hup htx
  refine ⟨v, _, hv, rfl, h1.trans ?_, fun q hq => (h2 q hq).trans (ho q hq)⟩
  obtain ⟨hsrc, hboard, hprof⟩ := source_congr hv p instB
  unfold timeMsg
  rw [if_neg hk, hsrc, hboard, hprof]

theorem exec_ptpAnnounceTx {src : Option Nat} (hd : ptpDest s port instB client 11 = some dst)
    (hs : ptpSource s port instB = some src) : exec (.ptpAnnounceTx port instB client) s =
      .next (ptpSend port 2 instB false false client dst
        (ptpMessage port 11 (ptpDomain s port instB) ((announceBody s port src).1 + uniFlag dst) 0
          (takeSeq port instB 11 client s).1.toNat (logField dst 0xFD) (announceBody s port src).2)
        (takeSeq port instB 11 client (drawn s)).2) := by
  change execPtpAnnounceTx port instB client s = _
  unfold execPtpAnnounceTx
  rw [hd, hs]
  rfl

theorem exec_ptpAnnounceTx_none (hd : ptpDest s port instB client 11 = none) :
    exec (.ptpAnnounceTx port instB client) s = .next s := by
  change execPtpAnnounceTx port instB client s = _
  unfold execPtpAnnounceTx
  rw [hd]

theorem exec_ptpSyncTx (hd : ptpDest s port instB client 0 = some dst) :
    let one := decide (setting s sStepMode (scPort port) = 0)
    exec (.ptpSyncTx port instB client) s = .next (ptpSend port 0 instB true one client dst
      (ptpMessage port 0 (ptpDomain s port instB) (uniFlag dst + (if one then 0 else 0x0200)) 0
        (takeSeq port instB 0 client s).1.toNat (logField dst 0xFC) (List.replicate 10 0))
      (takeSeq port instB 0 client s).2) := by
  intro one
  change execPtpSyncTx port instB client s = _
  unfold execPtpSyncTx
  rw [hd]

theorem exec_ptpSyncTx_none (hd : ptpDest s port instB client 0 = none) :
    exec (.ptpSyncTx port instB client) s = .next s := by
  change execPtpSyncTx port instB client s = _
  unfold execPtpSyncTx
  rw [hd]

theorem exec_followUp_none (h : (portOf s port).follow.find?
    (fun f => f.instB == instB && f.ip == client) = none) :
    exec (.followUp port instB client) s = .next s := by
  change execFollowUp port instB client s = _
  unfold execFollowUp
  rw [h]

/-- A Follow_Up without a destination is due no more. -/
theorem exec_followUp_forgets {f : FollowDue} (h : (portOf s port).follow.find?
    (fun f => f.instB == instB && f.ip == client) = some f)
    (hd : ptpDest s port instB client 0 = none) : exec (.followUp port instB client) s =
      .next (modPort port (fun x => { x with follow := x.follow.erase f }) s) := by
  change execFollowUp port instB client s = _
  unfold execFollowUp
  rw [h]
  dsimp only
  rw [hd]

theorem exec_followUp {f : FollowDue} (h : (portOf s port).follow.find?
    (fun f => f.instB == instB && f.ip == client) = some f)
    (hd : ptpDest s port instB client 0 = some dst) : exec (.followUp port instB client) s =
      .next (ptpSend port 1 instB false false client dst
        (ptpMessage port 8 (ptpDomain s port instB) (uniFlag dst) f.frac.toNat f.seq.toNat
          (logField dst 0xFC) (stampBytes f.sec.toNat f.ns.toNat))
        (modPort port (fun x => { x with follow := x.follow.erase f }) s)) := by
  change execFollowUp port instB client s = _
  unfold execFollowUp
  rw [h]
  dsimp only
  rw [hd]

/-- Settles O29: each message is handed to its port from a state with the same settings. -/
theorem preciseTimeMessagesAreSentWhenDue : Obligations.PreciseTimeMessagesAreSentWhenDue := by
  intro s port instB client p at_ busy seq taken queued
  refine ⟨exec_ptpAnnounceTx_none, fun ⟨hup, htx⟩ dst src hd hs =>
      does_next (exec_ptpAnnounceTx hd hs) ?_, exec_ptpSyncTx_none,
    fun ⟨hup, htx⟩ dst hd => does_next (exec_ptpSyncTx hd) ?_,
    fun f hf => ⟨fun hd => ?_, fun ⟨hup, htx⟩ dst hd => ?_⟩, exec_followUp_none,
    fun ip ty => does_next rfl ⟨?_, fun q hq => ?_⟩⟩
  · exact queued_take hup htx rfl rfl
  · exact queued_take hup htx rfl rfl
  · refine does_next (exec_followUp_forgets hf hd) ?_
    change portOf (modPort _ _ s) _ = _
    rw [portOf_mod, if_pos rfl]
  · refine does_next (exec_followUp hf hd) (ptpSend_queued (by decide) rfl ?_ hup htx fun q hq => ?_)
    · rw [portOf_mod, if_pos rfl]
    · rw [portOf_mod, if_neg hq]
  · change portOf (modPort _ _ s) _ = _
    rw [portOf_mod, if_pos rfl]
  · rw [portOf_mod, if_neg hq]

end Sys2Proof.Machine

/-! Precise-time messages received and the port's address (spec/09, R262-R270). -/

namespace Sys2Proof.Machine
variable {s t v : State} {port : Fin 8} {c : Claimed} {b : Bool} {src : Option Nat} {m : Bytes}
  {dst : Option (BitVec 48 × BitVec 128)}

/-- The port of `t` is the port of `s` but for a message more in its queue; its link is up. -/
def SentTo (port : Nat) (s t : State) (m : TimeMsg) : Prop :=
  (portOf t port).timeQ = (portOf s port).timeQ ++ [m] ∧ (portOf t port).link = .up ∧
    (portOf t port).tx = (portOf s port).tx

/-- What a port has for its messages is as it was. -/
def SameQueue (port : Nat) (s v : State) : Prop :=
  (portOf v port).timeQ = (portOf s port).timeQ ∧ (portOf v port).link = (portOf s port).link ∧
    (portOf v port).tx = (portOf s port).tx

theorem sendTime_sent {p : Nat} {x : TimeMsg} (hq : SameQueue p s v) (hup : (portOf s p).link = .up)
    (htx : (portOf s p).tx.isSome = true) : SentTo p s (sendTime p x v) x ∧
      (portOf (sendTime p x v) p).timeIn = (portOf v p).timeIn ∧
      (portOf (sendTime p x v) p).grants = (portOf v p).grants := by
  obtain ⟨hqueue, hlink, htxv⟩ := hq
  have hl : (portOf v p).link = .up := hlink.trans hup
  rw [send_busy hl (by rw [htxv]; exact htx)]
  have hp := (portOf_mod (p := p) (f := fun y => { y with timeQ := y.timeQ ++ [x] }) (s := v)).trans
    (if_pos rfl)
  unfold SentTo
  rw [hp, ← hqueue, ← htxv]
  exact ⟨⟨rfl, hl, rfl⟩, rfl, rfl⟩

/-- An answer handed to a busy port joins its queue, with the rest of the port as it was handed. -/
theorem ptpSend_sent {p kind : Nat} {event one : Bool} {client : Option (BitVec 128)}
    (hs : v.settings = s.settings) (hq : SameQueue p s v) (hup : (portOf s p).link = .up)
    (htx : (portOf s p).tx.isSome = true) :
    (∃ u x, SentTo p s (ptpSend p kind b event one client dst m v) x ∧ x.kind = kind ∧
      x.instB = b ∧ x.ip = client ∧ u.settings = s.settings ∧
      (x.ptpAt, x.bytes) = ptpFrame u p dst event one m) ∧
    (portOf (ptpSend p kind b event one client dst m v) p).timeIn = (portOf v p).timeIn ∧
    (portOf (ptpSend p kind b event one client dst m v) p).grants = (portOf v p).grants := by
  obtain ⟨hsent, hin, hgrants⟩ := sendTime_sent (v := drawn v) hq hup htx
  exact ⟨⟨v, _, hsent, rfl, rfl, rfl, hs, rfl⟩, hin, hgrants⟩

theorem unclaim_sameQueue : SameQueue port s (unclaim port c s) := by
  unfold SameQueue
  rw [unclaim_port]
  exact ⟨rfl, rfl, rfl⟩

/-! DELAY_REQ. -/

/-- Whom an answer to a Delay_Req goes to: nobody (none), the multicast address, or the client that
holds the grant (R266). -/
def delayDst (s : State) (port : Nat) (b : Bool) (ip : BitVec 128) :
    Option (Option (BitVec 48 × BitVec 128)) :=
  if decide (ptpProfile s port ≠ 1) then (grantOf s port b ip 9).map (fun g => some (g.mac, g.ip))
  else some none

/-- The Delay_Reqs answered in the second before the request. -/
def recentAnswers (s : State) (port : Nat) (c : Claimed) : List (BitVec 80 × BitVec 64) :=
  (portOf s port).answered.filter (fun a => decide (tlDiff a.2 c.capture < secGrains))

theorem exec_delayReq_none (h : claimedOf s port 0 = none) : exec (.delayReq port) s = .next s := by
  change execDelayReq port s = _
  unfold execDelayReq
  rw [h]

/-- A Delay_Req that is no message for the port, or has nobody to go to, is counted as ignored. -/
theorem exec_delayReq_ignored (h : claimedOf s port 0 = some c)
    (hm : ∀ m b src, claimedMsg s port c.bytes = some (m, b, src) →
      delayDst s port b (clientIp s port c.bytes) = none) :
    exec (.delayReq port) s = .next (bump cPtpRxIgnored (scPort port) 1 (unclaim port c s)) := by
  change execDelayReq port s = _
  unfold execDelayReq
  rw [h]
  dsimp only
  split
  · rfl
  · next m b src hc =>
    have hd := hm m b src hc
    unfold delayDst at hd
    rw [hd]

/-- A Delay_Req that arrived when its source had no value is counted as ignored. -/
theorem exec_delayReq_untimed (h : claimedOf s port 0 = some c)
    (hm : claimedMsg s port c.bytes = some (m, b, src))
    (hd : delayDst s port b (clientIp s port c.bytes) = some dst)
    (hst : takeStamp port src c.capture (unclaim port c s) = (none, v)) :
    exec (.delayReq port) s = .next (bump cPtpRxIgnored (scPort port) 1 v) := by
  change execDelayReq port s = _
  unfold execDelayReq
  rw [h]
  dsimp only
  rw [hm]
  dsimp only
  unfold delayDst at hd
  rw [hd]
  dsimp only
  rw [hst]

/-- The state from which a Delay_Resp is sent: the request is counted, and a multicast one is noted
among the answers. -/
def delayNoted (s v : State) (port : Nat) (c : Claimed) (m : Bytes) : State :=
  bump cPtpDelayReqRx (scPort port) 1 (modPort port (fun x => { x with
    answered := if decide (ptpProfile s port ≠ 1) then x.answered
      else (BitVec.ofNat 80 (field m 20 10), c.capture) :: recentAnswers s port c }) v)

theorem exec_delayReq (h : claimedOf s port 0 = some c)
    (hm : claimedMsg s port c.bytes = some (m, b, src))
    (hd : delayDst s port b (clientIp s port c.bytes) = some dst) {st : Nat × Nat × Nat}
    (hst : takeStamp port src c.capture (unclaim port c s) = (some st, v))
    (hfew : ptpProfile s port = 1 → ((recentAnswers s port c).filter
      (fun a => a.1 == BitVec.ofNat 80 (field m 20 10))).length < 128) :
    exec (.delayReq port) s = .next (ptpSend port 3 b false false
      (if decide (ptpProfile s port ≠ 1) then some (clientIp s port c.bytes) else none) dst
      (ptpMessage port 9 (byteAt m 4).toNat (uniFlag dst)
        (unsigned 64 (signed 64 (field m 8 8) - (st.2.2 : Int))) (field m 30 2)
        (logField dst 0xFC) (stampBytes st.1 st.2.1 ++ slice m 20 10))
      (delayNoted s v port c m)) := by
  have habove : ¬ (!decide (ptpProfile s port ≠ 1) && decide (128 ≤ ((recentAnswers s port c).filter
      (fun a => a.1 == BitVec.ofNat 80 (field m 20 10))).length)) = true := fun hn => by
    obtain ⟨hp, hl⟩ := Bool.and_eq_true_iff.1 hn
    have := hfew (by simpa using hp)
    have := of_decide_eq_true hl
    omega
  change execDelayReq port s = _
  unfold execDelayReq
  rw [h]
  dsimp only
  rw [hm]
  dsimp only
  unfold delayDst at hd
  rw [hd]
  dsimp only
  rw [hst]
  exact if_neg habove

theorem delayNoted_port : portOf (delayNoted s v port c m) port = { portOf v port with
    answered := (portOf (delayNoted s v port c m) port).answered } := by
  unfold delayNoted
  rw [bump_port, portOf_mod, if_pos rfl]

/-! SIGNALING. -/

theorem exec_signaling_none (h : claimedOf s port 1 = none) : exec (.signaling port) s = .next s := by
  change execSignaling port s = _
  unfold execSignaling
  rw [h]

theorem exec_signaling_ignored (h : claimedOf s port 1 = some c)
    (hm : claimedMsg s port c.bytes = none) : exec (.signaling port) s =
      .next (bump cPtpRxIgnored (scPort port) 1 (unclaim port c s)) := by
  change execSignaling port s = _
  unfold execSignaling
  rw [h]
  dsimp only
  rw [hm]

/-- The state in which a Signaling message's TLVs are taken: the client's grants have the address it
came from, and the message is counted. -/
def signalMet (s : State) (port : Nat) (c : Claimed) (b : Bool) : State :=
  bump cPtpSignalRx (scPort port) 1 (modPort port (fun x => { x with
    grants := x.grants.map (fun g =>
      if g.instB == b && g.ip == clientIp s port c.bytes then
        { g with mac := BitVec.ofNat 48 (field c.bytes 6 6) } else g) }) (unclaim port c s))

/-- The answers to a Signaling message, and the state they leave. -/
def signalAnswers (s : State) (port : Nat) (c : Claimed) (m : Bytes) (b : Bool) (src : Option Nat) :
    Bytes × State :=
  signalTlvs port b src (BitVec.ofNat 48 (field c.bytes 6 6)) (clientIp s port c.bytes) (field m 2 2)
    ((m.take (field m 2 2)).drop 44) (signalMet s port c b)

theorem exec_signaling (h : claimedOf s port 1 = some c)
    (hm : claimedMsg s port c.bytes = some (m, b, src)) :
    let r := signalAnswers s port c m b src
    let ip := clientIp s port c.bytes
    let dst := some (BitVec.ofNat 48 (field c.bytes 6 6), ip)
    exec (.signaling port) s = .next (if r.1.isEmpty then r.2 else
      ptpSend port 4 b false false (some ip) dst
        (ptpMessage port 12 (byteAt m 4).toNat (uniFlag dst) 0
          (takeSeq port b 12 (some ip) r.2).1.toNat 0x7F (slice m 20 10 ++ r.1))
        (takeSeq port b 12 (some ip) r.2).2) := by
  intro r ip dst
  change execSignaling port s = _
  unfold execSignaling
  rw [h]
  dsimp only
  rw [hm]
  change (if r.1.isEmpty then _ else _) = _
  split <;> rfl

theorem signalAnswers_sameQueue : SameQueue port s (signalAnswers s port c m b src).2 ∧
    (signalAnswers s port c m b src).2.settings = s.settings := by
  obtain ⟨hq, hl, ht, hs⟩ := signalTlvs_keeps (p := port) (b := b) (src := src)
    (mac := BitVec.ofNat 48 (field c.bytes 6 6)) (ip := clientIp s port c.bytes) (field m 2 2)
    ((m.take (field m 2 2)).drop 44) (signalMet s port c b)
  have hmet : portOf (signalMet s port c b) port = { portOf (unclaim port c s) port with
      grants := (portOf (signalMet s port c b) port).grants } := by
    unfold signalMet
    rw [bump_port, portOf_mod, if_pos rfl]
  obtain ⟨uq, ul, ut⟩ := unclaim_sameQueue (s := s) (c := c) (port := port)
  refine ⟨⟨hq.trans ?_, hl.trans ?_, ht.trans ?_⟩, hs.trans bump_set⟩ <;> rw [hmet]
  · exact uq
  · exact ul
  · exact ut

/-! ARP_REQUEST and NEIGHBOR_SOLICITATION. -/

theorem exec_arpRequest_none (h : claimedOf s port 2 = none) :
    exec (.arpRequest port) s = .next s := by
  change execArpRequest port s = _
  unfold execArpRequest
  rw [h]

theorem exec_arpRequest_other (h : claimedOf s port 2 = some c) (ha : isArp s port c.bytes = false) :
    exec (.arpRequest port) s = .next (unclaim port c s) := by
  change execArpRequest port s = _
  unfold execArpRequest
  rw [h]
  dsimp only
  rw [ha]
  rfl

theorem exec_arpRequest (h : claimedOf s port 2 = some c) (ha : isArp s port c.bytes = true) :
    exec (.arpRequest port) s = .next (sendTime port
      { kind := 4
        bytes := slice c.bytes 22 6 ++ portMac s port ++
          [0x08, 0x06, 0x00, 0x01, 0x08, 0x00, 0x06, 0x04, 0x00, 0x02] ++ portMac s port ++
          portIp s port ++ slice c.bytes 22 6 ++ slice c.bytes 28 4 } (unclaim port c s)) := by
  change execArpRequest port s = _
  unfold execArpRequest
  rw [h]
  dsimp only
  rw [ha]
  rfl

theorem exec_neighborSolicitation_none (h : claimedOf s port 3 = none) :
    exec (.neighborSolicitation port) s = .next s := by
  change execNeighborSolicitation port s = _
  unfold execNeighborSolicitation
  rw [h]

theorem exec_neighborSolicitation_other (h : claimedOf s port 3 = some c)
    (ha : isNs s port c.bytes = false) :
    exec (.neighborSolicitation port) s = .next (unclaim port c s) := by
  change execNeighborSolicitation port s = _
  unfold execNeighborSolicitation
  rw [h]
  dsimp only
  rw [ha]
  rfl

/-- A Neighbor Solicitation is answered with the port's address, from its own; an answer to the
unspecified address goes to all nodes, unsolicited. -/
theorem exec_neighborSolicitation (h : claimedOf s port 3 = some c)
    (ha : isNs s port c.bytes = true) : ∃ mid ck, exec (.neighborSolicitation port) s =
      .next (sendTime port
        { kind := 4
          bytes := (if field c.bytes 22 16 = 0 then [0x33, 0x33, 0, 0, 0, 1]
              else slice c.bytes 6 6) ++ portMac s port ++ [0x86, 0xDD] ++ mid ++ [136, 0] ++
            natBytes 2 ck ++ [if field c.bytes 22 16 = 0 then 0x20 else 0x60, 0, 0, 0] ++
            portIp s port ++ [2, 1] ++ portMac s port } (drawn (unclaim port c s))) := by
  change ∃ mid ck, execNeighborSolicitation port s = _
  unfold execNeighborSolicitation
  rw [h]
  dsimp only
  rw [ha]
  refine ⟨[0x60 ||| (byteAt (freeBytes s 4) 0 &&& 0x0F)] ++ (freeBytes s 4).drop 1 ++
    natBytes 2 32 ++ [58, 255] ++ portIp s port ++ (if field c.bytes 22 16 = 0 then
      [0xFF, 0x02] ++ List.replicate 13 0 ++ [1] else slice c.bytes 22 16), ?ck, ?_⟩
  swap
  · simp only [Bool.not_true, Bool.false_eq_true, if_false, decide_eq_true_eq, List.append_assoc]
    rfl

/-- Settles O30: what a claimed message is answered with joins the queue of a port that transmits. -/
theorem claimedMessagesAreAnswered : Obligations.ClaimedMessagesAreAnswered := by
  intro s port p busy without sent
  have hclaim (c : Claimed) {k : CtrId} {n : Nat} :
      portOf (bump k (scPort port) n (unclaim port c s)) port = without c := by
    rw [bump_port, unclaim_port]
  refine ⟨exec_delayReq_none, exec_signaling_none, exec_arpRequest_none,
    exec_neighborSolicitation_none, fun c hc => ⟨fun hm => ?_, fun m b src hm => ?_⟩,
    fun c hc => ⟨fun hm => does_next (exec_signaling_ignored hc hm) (hclaim c),
      fun m b src hm => ?_⟩,
    fun c hc => ⟨fun ha => does_next (exec_arpRequest_other hc ha) unclaim_port,
      fun ha ⟨hup, htx⟩ => does_next (exec_arpRequest hc ha) ?_⟩,
    fun c hc => ⟨fun ha => does_next (exec_neighborSolicitation_other hc ha) unclaim_port,
      fun ha ⟨hup, htx⟩ => ?_⟩⟩
  · exact does_next (exec_delayReq_ignored hc fun m b src h =>
      absurd (hm.symm.trans h) (Option.some_ne_none _).symm) (hclaim c)
  · intro uni ip who before dst
    have hdst (hd : uni = true → dst.isSome = true) :
        delayDst s port b ip = some (if uni then dst else none) := by
      unfold delayDst
      by_cases hu : uni = true
      · obtain ⟨g, hg⟩ := Option.isSome_iff_exists.1 (hd hu)
        rw [if_pos hu, if_pos hu, hg]
        obtain ⟨y, hy, hyg⟩ := Option.map_eq_some_iff.1 hg
        rw [hy, ← hyg]
        rfl
      · rw [if_neg hu, if_neg hu]
    obtain ⟨v, hv, hvp, hvs⟩ := takeStamp_unclaim (p := port) (c := c) (s := s) (src := src)
      (x := c.capture)
    refine ⟨fun hu hd => does_next (exec_delayReq_ignored hc fun m' b' src' h => ?_) (hclaim c),
      fun hst hd => ?_, fun st hst ⟨hup, htx⟩ hd hfew => ?_⟩
    · cases hm.symm.trans h
      unfold delayDst
      rw [if_pos hu]
      exact Option.map_eq_none_iff.2 (Option.map_eq_none_iff.1 hd)
    · rw [hst] at hv
      refine does_next (exec_delayReq_untimed hc hm (hdst hd) hv) ?_
      rw [bump_port, hvp, unclaim_port]
    · rw [hst] at hv
      have hfew' (h1 : ptpProfile s port = 1) : ((recentAnswers s port c).filter
          (fun a => a.1 == who)).length < 128 := by
        unfold recentAnswers
        rw [List.filter_filter]
        have := hfew (by simp [uni, h1])
        simpa only [before, p, Bool.and_comm] using this
      have hport : portOf (delayNoted s v port c m) port = { without c with
          answered := (portOf (delayNoted s v port c m) port).answered } := by
        have h := delayNoted_port (s := s) (v := v) (port := port) (c := c) (m := m)
        rw [hvp, unclaim_port] at h
        exact h
      obtain ⟨⟨u, x, hsent, hkind, hinst, -, hset, hframe⟩, hin, -⟩ :=
        ptpSend_sent (s := s) (v := delayNoted s v port c m) (p := port) (kind := 3) (b := b)
          (event := false) (one := false)
          (client := if uni then some ip else none) (dst := if uni then dst else none)
          (m := ptpMessage port 9 (byteAt m 4).toNat (uniFlag (if uni then dst else none))
            (unsigned 64 (signed 64 (field m 8 8) - (st.2.2 : Int))) (field m 30 2)
            (logField (if uni then dst else none) 0xFC) (stampBytes st.1 st.2.1 ++ slice m 20 10))
          (bump_set.trans hvs) (by unfold SameQueue; rw [hport]; exact ⟨rfl, rfl, rfl⟩) hup htx
      refine does_next (exec_delayReq hc hm (hdst hd) hv hfew')
        ⟨hin.trans ?_, u, x, hsent, hkind, hinst, hset, hframe⟩
      rw [hport]
  · intro ip mac met r
    have he := exec_signaling hc hm
    dsimp only at he
    refine ⟨fun hr => ?_, fun hr ⟨hup, htx⟩ => ?_⟩
    · refine does_next (he.trans (congrArg Host.Outcome.next (if_pos ?_))) rfl
      exact List.isEmpty_iff.2 hr
    · obtain ⟨hq, hs⟩ := signalAnswers_sameQueue (s := s) (port := port) (c := c) (m := m) (b := b)
        (src := src)
      obtain ⟨hseq, -, hseqs⟩ := takeSeq_facts (p := port) (ty := 12) (b := b) (ip := some ip)
        (s := r.2)
      obtain ⟨⟨u, x, hsent, hkind, -, hip, hset, hframe⟩, -, hgrants⟩ :=
        ptpSend_sent (s := s) (v := (takeSeq port b 12 (some ip) r.2).2) (p := port) (kind := 4)
          (b := b) (event := false) (one := false) (client := some ip) (dst := some (mac, ip))
          (m := ptpMessage port 12 (byteAt m 4).toNat (uniFlag (some (mac, ip))) 0
            (takeSeq port b 12 (some ip) r.2).1.toNat 0x7F (slice m 20 10 ++ r.1))
          (hseqs.trans hs) (by unfold SameQueue; rw [hseq]; exact hq) hup htx
      refine does_next (he.trans (congrArg Host.Outcome.next (if_neg ?_)))
        ⟨hgrants.trans ?_, u, _, x, hsent, hkind, hip, hset, hframe⟩
      · exact fun hn => hr (List.isEmpty_iff.1 hn)
      · rw [hseq]
  · obtain ⟨hsent, hin, -⟩ := sendTime_sent (s := s) (v := unclaim port c s) unclaim_sameQueue hup htx
    refine ⟨hin.trans ?_, _, hsent, rfl, rfl⟩
    rw [unclaim_port]
  · obtain ⟨mid, ck, he⟩ := exec_neighborSolicitation hc ha
    obtain ⟨hsent, hin, -⟩ := sendTime_sent (s := s) (v := drawn (unclaim port c s))
      unclaim_sameQueue hup htx
    refine does_next he ⟨hin.trans ?_, _, hsent, rfl, mid, ck, rfl⟩
    exact congrArg Port.timeIn unclaim_port

end Sys2Proof.Machine

/-! The ALU instructions (spec/13). -/

namespace Sys2Proof.Machine
variable {op : Nat} {th : ThreadId} {f : TFields} {i : Instr} {g : Thread → Thread}
  {body : Thread → State → TRes}

/-- An instruction whose body always completes and changes its thread alone. -/
theorem advances (hi : ∀ s, exec i s = .next (issue op th f body s))
    (hb : ∀ x u, body x u = .ok { g x with pc := x.pc + 1 } u false) : Advances op th f i g :=
  fun s hI => does_next (hi s) (issue_runs hI fun u _ => ⟨_, false, rfl, .inl (hb _ u)⟩)

/-- Settles O32: every body but the branch's is a function of the thread in hand. -/
theorem aluInstructionsWriteTheirRegister : Obligations.AluInstructionsWriteTheirRegister := by
  intro th f vd
  refine ⟨advances (fun _ => rfl) fun _ _ => rfl, advances (fun _ => rfl) fun _ _ => rfl,
    advances (fun _ => rfl) fun _ _ => rfl, advances (fun _ => rfl) fun _ _ => rfl,
    advances (fun _ => rfl) fun _ _ => rfl, advances (fun _ => rfl) fun _ _ => rfl,
    advances (fun _ => rfl) fun _ _ => rfl, advances (fun _ => rfl) fun _ _ => rfl,
    advances (fun _ => rfl) fun _ _ => rfl, advances (fun _ => rfl) fun _ _ => rfl,
    advances (fun _ => rfl) fun _ _ => rfl, advances (fun _ => rfl) fun _ _ => rfl,
    advances (fun _ => rfl) fun _ _ => rfl, advances (fun _ => rfl) fun _ _ => rfl,
    advances (fun _ => rfl) fun _ _ => rfl, advances (fun _ => rfl) fun _ _ => rfl,
    advances (fun _ => rfl) fun _ _ => rfl, fun s hI => ?_, advances (fun _ => rfl) fun x u => ?_⟩
  · refine does_next rfl (issue_runs hI fun u _ => ?_)
    by_cases h : condHolds f.fn.toNat (vReg (fetched 0x20 th f s) f.va) (brB f (fetched 0x20 th f s)) = true
    · exact ⟨_, true, by rw [if_pos h], .inl (if_pos h)⟩
    · exact ⟨_, false, by rw [if_neg h], .inl (if_neg h)⟩
  · by_cases h : f.fn = 2
    · simp only [if_pos h]
      rfl
    · simp only [if_neg h]
      rfl

end Sys2Proof.Machine

/-! The memory instructions (spec/13). -/

namespace Sys2Proof.Machine
variable {s u : State} {op : Nat} {th : ThreadId} {f : TFields} {i : Instr} {code : Nat}
  {ok : Thread → Bool} {g : State → Thread → Thread} {body : Thread → State → TRes}

theorem ite_not_pos {α : Type} {b : Bool} {x y : α} (h : b = true) : (if !b then x else y) = y := by
  rw [h]
  rfl

theorem ite_not_neg {α : Type} {b : Bool} {x y : α} (h : b = false) : (if !b then x else y) = x := by
  rw [h]
  rfl

/-- An instruction that faults where its range is not valid, and otherwise changes its thread. -/
theorem reads_guarded (addr : Thread → Option Nat) (hc : code < 256)
    (hi : ∀ s, exec i s = .next (issue op th f body s))
    (hpos : ∀ s u, Pre s u → ∀ x, ok x = true → body x u = tDone (g s x) u)
    (hneg : ∀ x u, ok x = false → body x u = .fault code (addr x))
    (hpc : ∀ s x, (g s x).pc = x.pc) : Reads op th f i ok g code :=
  reads addr hc (fun _ _ => only_exec _) hi
    (fun s u hu ho => (hpos s u hu _ ho).trans (by rw [tDone, hpc]))
    fun s u _ ho => hneg _ u ho

theorem spaceBytes_pre (h : Pre s u) (sp : Space) (x : Thread) (off n : Nat) :
    spaceBytes u sp x off n = spaceBytes s sp x off n := by
  cases sp
  · rfl
  · unfold spaceBytes
    rw [h.post.2.2.1]
  · rfl

theorem scratch_pre (h : Pre s u) : u.tine.scratch = s.tine.scratch := h.post.1

/-! The window. -/

theorem push_reads :
    let n := nBytes f
    let all := fun (x : Thread) =>
      x.win.take (winOff f x) ++ List.replicate n 0 ++ x.win.drop (winOff f x)
    Reads 0x32 th f (.push th f)
      (fun x => decide (winOff f x ≤ x.win.length ∧ ((all x).drop 256 ++ x.spill).length ≤ 64))
      (fun _ x => { x with
        win := (all x).take 256, spill := (all x).drop 256 ++ x.spill, modified := true }) 0x02 := by
  intro n all
  have hg (x : Thread) : (decide (x.win.length < winOff f x) ||
      decide (64 < ((all x).drop 256 ++ x.spill).length)) =
      !decide (winOff f x ≤ x.win.length ∧ ((all x).drop 256 ++ x.spill).length ≤ 64) := by
    rw [Bool.eq_iff_iff]
    simp only [Bool.or_eq_true, Bool.not_eq_true', decide_eq_true_eq, decide_eq_false_iff_not]
    omega
  exact reads_guarded (fun x => some (winOff f x)) (by decide) (fun _ => rfl)
    (fun s u _ x ho => if_neg (by rw [hg x, ho]; decide))
    (fun x u ho => if_pos (by rw [hg x, ho]; rfl)) fun _ _ => rfl

/-! BMOV. -/

theorem bmov_does (hI : Issues 0x34 th f s) :
    let n := nBytes f
    let x := fetched 0x34 th f s
    let from_ := (bmovSpaces f.fn.toNat).1
    let dest := (bmovSpaces f.fn.toNat).2
    let src := plusVB f x (bits f.imm.toNat 31 16)
    let dst := plusVA f x (bits f.imm.toNat 15 0)
    let b := spaceBytes s from_ x src n
    (inSpace from_ x src n = false → Does (.bmov th f) s (Faulted th (spaceFault from_) s)) ∧
    (inSpace from_ x src n = true → inSpace dest x dst n = false →
      Does (.bmov th f) s (Faulted th (spaceFault dest) s)) ∧
    (inSpace from_ x src n = true → inSpace dest x dst n = true →
      let y := match dest with
        | .window => { x with win := patch x.win dst b, modified := true }
        | _ => putPriv dst b x
      Does (.bmov th f) s (Runs th { y with pc := x.pc + 1 } s)) := by
  intro n x from_ dest src dst b
  have hcode (sp : Space) : spaceFault sp < 256 := by cases sp <;> decide
  refine ⟨fun h => does_next rfl (issue_faults (addr := fun _ => some src) (hcode _)
      (fun u _ => ite_not_neg h) hI),
    fun h1 h2 => does_next rfl (issue_faults (addr := fun _ => some dst) (hcode _)
      (fun u _ => (ite_not_pos h1).trans (ite_not_neg h2)) hI),
    fun h1 h2 => does_next rfl (issue_runs hI fun u hu => ⟨_, false, rfl, .inl ?_⟩)⟩
  refine (ite_not_pos h1).trans ((ite_not_pos h2).trans ?_)
  rw [spaceBytes_pre hu]
  dsimp only [dest]
  generalize (bmovSpaces f.fn.toNat).2 = d
  cases d <;> rfl

/-! LD, ST and ATOM. -/

/-- A scratch access that changes the scratch memory alone, of the bytes at its address. -/
theorem scratch_acts {ok : Thread → Bool} {g : State → Thread → Thread} {addr : Thread → Nat}
    {bytes : State → Thread → Bytes} (off : Thread → Nat) (hc : code < 256)
    (hi : ∀ s, exec i s = .next (issue op th f body s))
    (hpos : ∀ s u, Pre s u → ∀ x, ok x = true → body x u = .ok (g s x)
      (modTine (fun t => { t with scratch := tabPut 0 t.scratch (addr x) (bytes s x) }) u) false)
    (hneg : ∀ x u, ok x = false → body x u = .fault code (some (off x))) :
    Acts op th f i ok g (fun s x => tabPut 0 s.tine.scratch (addr x) (bytes s x))
      (fun s _ => s.tine.sram) code :=
  acts (fun x => some (off x)) hc (fun _ _ => only_exec _) hi
    (fun s u hu ho => ⟨_, .inl (hpos s u hu _ ho), by
        show tabPut 0 u.tine.scratch _ _ = _
        rw [hu.post.1], hu.post.2.1, rfl, only_modTine_tine⟩)
    fun s u _ ho => hneg _ u ho

/-- Settles O33: the range is checked before anything is read or written. -/
theorem memoryInstructionsKeepToTheirSpace : Obligations.MemoryInstructionsKeepToTheirSpace := by
  intro th f vd n scr sram at_ val
  refine ⟨reads_guarded (fun x => some (winOff f x)) (by decide) (fun _ => rfl)
      (fun _ _ _ _ => ite_not_pos) (fun _ _ => ite_not_neg) fun _ _ => rfl,
    reads_guarded (fun x => some (winOff f x)) (by decide) (fun _ => rfl)
      (fun _ _ _ _ => ite_not_pos) (fun _ _ => ite_not_neg) fun _ _ => rfl,
    push_reads,
    reads_guarded (fun x => some (winOff f x)) (by decide) (fun _ => rfl)
      (fun _ _ _ _ => ite_not_pos) (fun _ _ => ite_not_neg) fun _ _ => rfl,
    fun s hI => bmov_does hI, ?hash, ?ldPriv, ?ldConst, ?ldScratch, ?ldMeta, ?stPriv, ?stScratch,
    ?stMeta, ?atom⟩
  case hash =>
    intro sp off
    refine reads_guarded (fun x => some (off x)) (by cases sp <;> decide) (fun _ => rfl)
      (fun s u hu x ho => ?_) (fun _ _ => ite_not_neg) fun _ _ => rfl
    refine (ite_not_pos ho).trans ?_
    dsimp only
    rw [spaceBytes_pre hu]
  case ldPriv =>
    exact fun h0 => reads_guarded (fun x => some (at_ x)) (by decide) (fun _ => rfl)
      (fun _ _ _ _ ho => (if_pos h0).trans (if_pos ho))
      (fun _ _ ho => (if_pos h0).trans (if_neg (Bool.eq_false_iff.1 ho))) fun _ _ => rfl
  case ldConst =>
    intro h1
    have h0 : ¬ f.fn = 0 := by rw [h1]; decide
    refine reads_guarded (fun x => some (at_ x)) (by decide) (fun _ => rfl)
      (fun s u hu _ ho => (if_neg h0).trans ((if_pos h1).trans ((if_pos ho).trans ?_)))
      (fun _ _ ho => (if_neg h0).trans ((if_pos h1).trans (if_neg (Bool.eq_false_iff.1 ho))))
      fun _ _ => rfl
    rw [spaceBytes_pre hu]
  case ldScratch =>
    intro h2
    have h0 : ¬ f.fn = 0 := by rw [h2]; decide
    have h1 : ¬ f.fn = 1 := by rw [h2]; decide
    refine reads_guarded (fun x => some (at_ x)) (by decide) (fun _ => rfl)
      (fun s u hu _ ho => (if_neg h0).trans ((if_neg h1).trans ((if_pos h2).trans
        ((if_pos ho).trans ?_))))
      (fun _ _ ho => (if_neg h0).trans ((if_neg h1).trans ((if_pos h2).trans
        (if_neg (Bool.eq_false_iff.1 ho))))) fun _ _ => rfl
    rw [hu.post.1]
  case ldMeta =>
    intro h3
    have h0 : ¬ f.fn = 0 := by rw [h3]; decide
    have h1 : ¬ f.fn = 1 := by rw [h3]; decide
    have h2 : ¬ f.fn = 2 := by rw [h3]; decide
    exact reads_guarded (fun x => some (at_ x)) (by decide) (fun _ => rfl)
      (fun _ _ _ _ ho => (if_neg h0).trans ((if_neg h1).trans ((if_neg h2).trans
        (if_pos (of_decide_eq_true ho)))))
      (fun _ _ ho => (if_neg h0).trans ((if_neg h1).trans ((if_neg h2).trans
        (if_neg (of_decide_eq_false ho))))) fun _ _ => rfl
  case stPriv =>
    exact fun h0 => reads_guarded (fun x => some (at_ x)) (by decide) (fun _ => rfl)
      (fun _ _ _ _ ho => (if_pos h0).trans (if_pos ho))
      (fun _ _ ho => (if_pos h0).trans (if_neg (Bool.eq_false_iff.1 ho))) fun _ _ => rfl
  case stScratch =>
    intro h2
    have h0 : ¬ f.fn = 0 := by rw [h2]; decide
    exact scratch_acts at_ (by decide) (fun _ => rfl)
      (fun _ _ _ _ ho => (if_neg h0).trans ((if_pos h2).trans (if_pos ho)))
      fun _ _ ho => (if_neg h0).trans ((if_pos h2).trans (if_neg (Bool.eq_false_iff.1 ho)))
  case stMeta =>
    intro h3 s hI
    have h0 : ¬ f.fn = 0 := by rw [h3]; decide
    have h2 : ¬ f.fn = 2 := by rw [h3]; decide
    exact does_next rfl (issue_faults (addr := fun _ => some (at_ (fetched 0x41 th f s)))
      (by decide) (fun _ _ => (if_neg h0).trans (if_neg h2)) hI)
  case atom =>
    intro word old
    refine scratch_acts word (by decide) (fun _ => rfl) (fun s u hu x ho => ?_)
      fun _ _ => ite_not_neg
    refine (ite_not_pos ho).trans ?_
    dsimp only
    rw [hu.post.1]
    rfl

end Sys2Proof.Machine

/-! Program-region accesses, lookups, metering, counting, time and cipher calls (spec/12, spec/13). -/

namespace Sys2Proof.Machine
variable {s u v z : State} {op : Nat} {th : ThreadId} {f : TFields} {body : Thread → State → TRes}

/-! Issue. -/

/-- An instruction that waits for an access to the program region; the order of issue goes on. -/
theorem issue_accesses {y : Thread} (hI : Issues op th f s)
    (hb : ∀ u, Pre s u → body (fetched op th f s) u = .wait y (nextAccess u)) :
    Runs th y s (issue op th f body s) := by
  obtain ⟨u, hp, -, hw⟩ := issue_ends (body := body) hI
  obtain ⟨hy, hother, hpost, ho⟩ := hw y (nextAccess u) (hb u hp) rfl
  have hn : Post u (nextAccess u) := ⟨rfl, rfl, rfl, rfl, rfl, rfl, rfl, rfl⟩
  obtain ⟨p1, p2, p3, p4, p5, p6, p7, p8⟩ := (hp.post.trans hn).trans hpost
  exact ⟨⟨hy, hother, p1, p2, p3, p4⟩, p5, p6, p7, p8,
    (only_trans (only_trans hp.2 only_modTine_tine) ho).mono (by decide)⟩

theorem sramSeq_pre (h : Pre s u) : u.tine.sramSeq = s.tine.sramSeq :=
  (congrArg Tine.sramSeq h.1 : _)

/-! METER, COUNT and the counters that a program reads. -/

theorem userPmc_pre {h t fn : Nat} (hu : Pre s u) : userPmc u h t fn = userPmc s h t fn := by
  have hpmc : u.tine.pmc = s.tine.pmc := (congrArg Tine.pmc hu.1 : _)
  have hgate : u.tine.gatedAt = s.tine.gatedAt := (congrArg Tine.gatedAt hu.1 : _)
  have hcyc : u.tine.cycles = s.tine.cycles := (congrArg Tine.cycles hu.1 : _)
  unfold userPmc settingB setting cycOf pmcVal pmcOf
  rw [hu.same.1, hpmc, hgate, hcyc]

theorem lookupDone_cls {w : State} {vd k r : Nat} {hit : Bool} {x : Thread} (h : w.cls = s.cls) :
    lookupDone w vd k hit r x = lookupDone s vd k hit r x := by
  unfold lookupDone resOf
  rw [h]

theorem countResult_cls {k n : Nat} (h : k < 32768) : (countResult k n s).cls = { s.cls with
    rcount := tabMod (0, 0) s.cls.rcount k fun y => (y.1 + 1, y.2 + BitVec.ofNat 64 n) } := by
  unfold countResult modCls
  rw [Nat.mod_eq_of_lt h]

/-! Results of services. -/

/-- A thread put back by a service, with whatever record its sampling makes. -/
theorem service_puts {ps : List Part} {y : Thread} {scr sram : Tab (BitVec 8)}
    (hz : Pre (putThread th.harrow.val th.tine.val th.thread.val y v) z)
    (hv : { v.tine with scratch := s.tine.scratch, sram := s.tine.sram } = s.tine)
    (hscr : v.tine.scratch = scr) (hsram : v.tine.sram = sram)
    (ho : Only (counting ++ [.tine, .freeCtr] ++ ps) s v) :
    RanIn ps th y scr sram s z ∧ Only (counting ++ [.tine, .freeCtr]) v z := by
  have hthreads := hz.threads
  have hvz : Only (counting ++ [.tine, .freeCtr]) v z :=
    only_trans (only_putThread (by decide) (Only.refl _)) hz.2
  obtain ⟨p1, p2, p3, p4, p5, p6, p7, p8⟩ := (post_put (h := th.harrow.val) (t := th.tine.val)
    (n := th.thread.val) (x := y) (v := v)).trans hz.post
  have hsame {β : Type} (g : Tine → β)
      (hg : ∀ (w : Tine) (a b : Tab (BitVec 8)), g { w with scratch := a, sram := b } = g w) :
      g v.tine = g s.tine := (hg v.tine _ _).symm.trans (congrArg g hv)
  refine ⟨⟨⟨?_, fun o hne => ?_, p1.trans hscr, p2.trans hsram,
      p3.trans (hsame Tine.const_ fun _ _ _ => rfl), p4.trans (hsame Tine.imem fun _ _ _ => rfl)⟩,
    p5.trans (hsame Tine.progs fun _ _ _ => rfl), p6.trans (hsame Tine.order fun _ _ _ => rfl),
    p7.trans (hsame Tine.trapQ fun _ _ _ => rfl), p8.trans (hsame Tine.faultLog fun _ _ _ => rfl),
    only_trans ho (hvz.mono fun p h => List.mem_append_left _ h)⟩, hvz⟩
  · unfold threadAt
    rw [hthreads]
    exact congrArg still (put_ran (th := th)).1
  · unfold threadAt
    rw [hthreads]
    refine (congrArg still ((put_ran (th := th)).2 o hne)).trans ?_
    unfold threadAt threadOf
    rw [hsame Tine.threads fun _ _ _ => rfl]

/-- The state in which a served thread has gone on. -/
def servedAt (th : ThreadId) (x' : Thread) (s v : State) : State :=
  let x := threadAt s th
  let w := putThread th.harrow.val th.tine.val th.thread.val
    { x' with pc := x.pc + 1, wait := none, tagged := none } v
  match x.tagged with
  | some g => sampRecord th.harrow.val th.tine.val th.thread.val x.view.prog g false false false true
      (some ((now w - g.tl).toNat / 50)) w
  | none => w

/-- A served thread has gone on; nothing else of the tines has changed but what the access wrote. -/
theorem servedAt_ran {ps : List Part} {y : Thread} {sram : Tab (BitVec 8)}
    (hv : { v.tine with sram := s.tine.sram } = s.tine) (hsram : v.tine.sram = sram)
    (ho : Only (counting ++ [.tine, .freeCtr] ++ ps) s v) :
    RanIn ps th { y with pc := (threadAt s th).pc + 1, wait := none } s.tine.scratch sram s
      (servedAt th y s v) ∧ Only (counting ++ [.tine, .freeCtr]) v (servedAt th y s v) := by
  have hscr : v.tine.scratch = s.tine.scratch := (congrArg Tine.scratch hv : _)
  have hv' : { v.tine with scratch := s.tine.scratch, sram := s.tine.sram } = s.tine := by
    rw [← hscr]
    exact hv
  have hz : Pre (putThread th.harrow.val th.tine.val th.thread.val
      { y with pc := (threadAt s th).pc + 1, wait := none, tagged := none } v) (servedAt th y s v) := by
    unfold servedAt
    dsimp only
    split
    · exact pre_sampRecord
    · exact Pre.refl _
  obtain ⟨hran, hvz⟩ := service_puts hz hv' hscr hsram ho
  exact ⟨hran.still rfl, hvz⟩

theorem cyc_pmcInstant {h t n e : Nat} : Cyc u (pmcInstant h t n e u) := by
  unfold pmcInstant
  refine cyc_each (fun i w => cyc_ite ?_ (Cyc.refl w)) _ u
  exact cyc_ite (cyc_modPmc.trans cyc_pmcWrap) cyc_modPmc

/-- A pass that ends because its access met a word that could not be corrected. -/
theorem service_ecc {x : Thread} {addr : Option Nat} (hv : v.tine = s.tine)
    (hz : Pre (freeThread th.harrow.val th.tine.val th.thread.val (faultPass th.harrow.val th.tine.val
      th.thread.val x 0x06 addr (pmcInstant th.harrow.val th.tine.val th.thread.val 0x13 v))) z) :
    Faulted th 0x06 s z := by
  have hc := cyc_pmcInstant (u := v) (h := th.harrow.val) (t := th.tine.val) (n := th.thread.val)
    (e := 0x13)
  generalize pmcInstant th.harrow.val th.tine.val th.thread.val 0x13 v = w at hc hz
  obtain ⟨f1, f2, f3, f4, f5, f6⟩ := faultPass_facts (h := th.harrow.val) (t := th.tine.val)
    (n := th.thread.val) (x := x) (code := 0x06) (addr := addr) (u := w) (by decide)
  generalize faultPass th.harrow.val th.tine.val th.thread.val x 0x06 addr w = y at f1 f2 f3 f4 f5 f6 hz
  have hpost : Post v w := hc.post
  have hthread (o : ThreadId) : still (threadAt y o) = still (threadAt s o) := by
    have h1 : threadAt y o = threadAt w o := by
      unfold threadAt threadOf
      rw [f1]
    have h2 : threadAt v o = threadAt s o := by
      unfold threadAt threadOf
      rw [hv]
    rw [h1, ← h2]
    exact hc.2.1 ..
  have hfree (o : ThreadId) : threadAt z o =
      threadAt (freeThread th.harrow.val th.tine.val th.thread.val y) o := hz.threads ..
  obtain ⟨g1, g2, g3⟩ := freeThread_facts (th := th) (v := y)
  obtain ⟨p1, p2, p3, p4, -, -, -, p8⟩ := g3.trans hz.post
  obtain ⟨q1, q2, q3, q4, -⟩ := hpost
  rw [hv] at q1 q2 q3 q4
  refine ⟨⟨?_, fun o ho => ?_, p1.trans (f2.trans q1), p2.trans (f3.trans q2), p3.trans (f4.trans q3),
    p4.trans (f5.trans q4)⟩, by rw [p8]; exact f6⟩
  · have hpriv := congrArg Thread.priv (hthread th)
    rw [still_priv, still_priv] at hpriv
    rw [hfree, g1, hpriv]
  · rw [hfree, g2 o ho]
    exact hthread o

/-- An access that its thread waits for, with no earlier one outstanding, is served. -/
theorem exec_serviceResult_waits {ecc : List (Bool × Bool)} {n : Nat}
    (h : accessWaits s (threadAt s th) = true ∨ (threadAt s th).wait = none) :
    exec (.serviceResult th ecc n) s = .next s := by
  change execServiceResult th ecc s n = _
  unfold execServiceResult
  dsimp only
  by_cases ha : accessWaits s (threadAt s th) = true
  · exact if_pos ha
  · have hw := h.resolve_left ha
    unfold threadAt at ha hw
    rw [if_neg ha, hw]

/-- The state in which a thread's pass has ended in the fault of an uncorrectable word. -/
def eccEnded (th : ThreadId) (addr : Option Nat) (s v : State) : State :=
  let x := threadAt s th
  let w := freeThread th.harrow.val th.tine.val th.thread.val (faultPass th.harrow.val th.tine.val
    th.thread.val x 0x06 addr (pmcInstant th.harrow.val th.tine.val th.thread.val 0x13 v))
  match x.tagged with
  | some g => sampRecord th.harrow.val th.tine.val th.thread.val x.view.prog g false true false true
      (some ((now w - g.tl).toNat / 50)) w
  | none => w

theorem eccEnded_faulted {addr : Option Nat} (hv : v.tine = s.tine) :
    Faulted th 0x06 s (eccEnded th addr s v) :=
  service_ecc hv (by
    unfold eccEnded
    dsimp only
    split
    · exact pre_sampRecord
    · exact Pre.refl _)

/-- What a service makes of the access that its thread waits for (R344). -/
def served (th : ThreadId) (ecc : List (Bool × Bool)) (n : Nat) (s : State) : Wait → State
  | .load dst a len _ =>
    let s1 := bump cEmEccCorr scDevice n s
    if ecc.isEmpty then
      servedAt th (putPriv dst (tabRange 0 s1.tine.sram a len) (threadAt s th)) s s1
    else eccEnded th (some (a - (threadAt s th).view.sramCh * 2 ^ 24 - (threadAt s th).view.sramBase))
      s s1
  | .store a b _ => servedAt th (threadAt s th) s
      (modTine (fun t => { t with sram := tabPut 0 t.sram a b }) s)
  | .atom vd a _ =>
    let s1 := bump cEmEccCorr scDevice n s
    let x := threadAt s th
    let f := insnFields x.word
    let w := BitVec.ofNat 64 (beNat (tabRange 0 s1.tine.sram a 8))
    let w' := atomicWord f.fn.toNat w (vReg x f.vb) (vReg x f.vd)
    if ecc.isEmpty then servedAt th (setV vd (w.setWidth 32) x) s
      (modTine (fun t => { t with sram := tabPut 0 t.sram a (natBytes 8 w'.toNat) }) s1)
    else eccEnded th (some (a - x.view.sramCh * 2 ^ 24 - x.view.sramBase)) s s1
  | .elook vd k profile =>
    let s1 := bump cEmEccCorr scDevice n s
    let x := threadAt s th
    let r := emLookupOp (genOfThread x) profile (emKeyOf s1 profile (privBytes x k 40))
      (threadBytes x).length ecc s1
    let res := match r.1 with
      | some v => v
      | none => (genOf s1 (genOfThread x)).deflt
    servedAt th (lookupDone r.2 vd k r.1.isSome res x) s r.2
  | .cipher vd _ _ _ _ (some st) => servedAt th (setV vd (BitVec.ofNat 32 st) (threadAt s th)) s s
  | .cipher _ _ _ _ _ none => s

theorem exec_serviceResult {ecc : List (Bool × Bool)} {n : Nat} {w : Wait}
    (ha : accessWaits s (threadAt s th) = false) (hw : (threadAt s th).wait = some w) :
    exec (.serviceResult th ecc n) s = .next (served th ecc n s w) := by
  change execServiceResult th ecc s n = _
  unfold execServiceResult
  unfold threadAt at ha hw
  dsimp only
  rw [if_neg (Bool.eq_false_iff.1 ha), hw]
  cases w with
  | load dst a len q =>
    dsimp only
    by_cases he : ecc.isEmpty = true
    · rw [if_pos he]
      exact congrArg Host.Outcome.next (if_pos he).symm
    · rw [if_neg he]
      exact congrArg Host.Outcome.next (if_neg he).symm
  | store a b q => rfl
  | atom vd a q =>
    dsimp only
    by_cases he : ecc.isEmpty = true
    · rw [if_pos he]
      exact congrArg Host.Outcome.next (if_pos he).symm
    · rw [if_neg he]
      exact congrArg Host.Outcome.next (if_neg he).symm
  | elook vd k p => rfl
  | cipher vd fn p q l st => cases st <;> rfl

/-- The corrected words of a lookup are counted; the tines are as they were. -/
theorem eccBump (n : Nat) : (bump cEmEccCorr scDevice n s).tine = s.tine ∧
    (bump cEmEccCorr scDevice n s).cls = s.cls ∧
    Only counting s (bump cEmEccCorr scDevice n s) :=
  ⟨bump_tine, bump_cls, only_bump (by decide) (Only.refl s)⟩

theorem serviceResult_load {ecc : List (Bool × Bool)} {n p a l q : Nat}
    (ha : accessWaits s (threadAt s th) = false)
    (hw : (threadAt s th).wait = some (.load p a l q)) :
    (ecc = [] → Does (.serviceResult th ecc n) s (Runs th
      { putPriv p (tabRange 0 s.tine.sram a l) (threadAt s th) with
        pc := (threadAt s th).pc + 1, wait := none } s)) ∧
    (ecc ≠ [] → Does (.serviceResult th ecc n) s (Faulted th 0x06 s)) := by
  have he := exec_serviceResult (ecc := ecc) (n := n) ha hw
  obtain ⟨htine, -, ho⟩ := eccBump (s := s) n
  refine ⟨fun h => ?_, fun h => ?_⟩
  · have hran := servedAt_ran (ps := []) (s := s) (th := th) (v := bump cEmEccCorr scDevice n s)
      (y := putPriv p (tabRange 0 s.tine.sram a l) (threadAt s th)) (sram := s.tine.sram)
      (by rw [htine]) (by rw [htine]) (ho.mono (by decide))
    refine does_next (he.trans (congrArg Host.Outcome.next ?_)) hran.1
    unfold served
    dsimp only
    rw [if_pos (List.isEmpty_iff.2 h), htine]
  · refine does_next (he.trans (congrArg Host.Outcome.next (if_neg fun hn => h (List.isEmpty_iff.1 hn))))
      (eccEnded_faulted htine)

theorem serviceResult_store {ecc : List (Bool × Bool)} {n a q : Nat} {b : Bytes}
    (ha : accessWaits s (threadAt s th) = false)
    (hw : (threadAt s th).wait = some (.store a b q)) :
    Does (.serviceResult th ecc n) s (RanIn [] th
      { threadAt s th with pc := (threadAt s th).pc + 1, wait := none } s.tine.scratch
      (tabPut 0 s.tine.sram a b) s) := by
  have hran := servedAt_ran (ps := []) (s := s) (th := th) (y := threadAt s th)
    (v := modTine (fun t => { t with sram := tabPut 0 t.sram a b }) s) rfl rfl only_modTine_tine
  exact does_next (exec_serviceResult ha hw) hran.1

theorem serviceResult_atom {ecc : List (Bool × Bool)} {n vd a q : Nat}
    (ha : accessWaits s (threadAt s th) = false)
    (hw : (threadAt s th).wait = some (.atom vd a q)) :
    let x := threadAt s th
    let g := insnFields x.word
    let old := BitVec.ofNat 64 (beNat (tabRange 0 s.tine.sram a 8))
    let new := atomicWord g.fn.toNat old (vReg x g.vb) (vReg x g.vd)
    (ecc = [] → Does (.serviceResult th ecc n) s (RanIn [] th
      { setV vd (old.setWidth 32) x with pc := x.pc + 1, wait := none } s.tine.scratch
      (tabPut 0 s.tine.sram a (natBytes 8 new.toNat)) s)) ∧
    (ecc ≠ [] → Does (.serviceResult th ecc n) s (Faulted th 0x06 s)) := by
  intro x g old new
  have he := exec_serviceResult (ecc := ecc) (n := n) ha hw
  obtain ⟨htine, -, ho⟩ := eccBump (s := s) n
  refine ⟨fun h => ?_, fun h => ?_⟩
  · have hran := servedAt_ran (ps := []) (s := s) (th := th)
      (v := modTine (fun t => { t with sram := tabPut 0 t.sram a (natBytes 8 new.toNat) })
        (bump cEmEccCorr scDevice n s))
      (y := setV vd (old.setWidth 32) x) (sram := tabPut 0 s.tine.sram a (natBytes 8 new.toNat))
      (by
        unfold modTine
        dsimp only
        rw [htine])
      (by
        unfold modTine
        dsimp only
        rw [htine])
      (only_modTine (by decide) (ho.mono (by decide)))
    refine does_next (he.trans (congrArg Host.Outcome.next ?_)) hran.1
    unfold served
    dsimp only
    rw [if_pos (List.isEmpty_iff.2 h), htine]
  · refine does_next (he.trans (congrArg Host.Outcome.next (if_neg fun hn => h (List.isEmpty_iff.1 hn))))
      (eccEnded_faulted htine)

theorem serviceResult_cipher {ecc : List (Bool × Bool)} {n v p q l g : Nat} :
    ((threadAt s th).wait = some (.cipher v p q l g none) →
      Does (.serviceResult th ecc n) s (Runs th (threadAt s th) s)) ∧
    (∀ st, (threadAt s th).wait = some (.cipher v p q l g (some st)) →
      Does (.serviceResult th ecc n) s (Runs th
        { setV v (BitVec.ofNat 32 st) (threadAt s th) with
          pc := (threadAt s th).pc + 1, wait := none } s)) := by
  have hacc {st : Option Nat} (h : (threadAt s th).wait = some (.cipher v p q l g st)) :
      accessWaits s (threadAt s th) = false := by
    unfold accessWaits accessOf
    rw [h]
  exact ⟨fun h => does_next (exec_serviceResult (hacc h) h)
      ⟨⟨rfl, fun _ _ => rfl, rfl, rfl, rfl, rfl⟩, rfl, rfl, rfl, rfl, Only.refl s⟩,
    fun st h => does_next (exec_serviceResult (hacc h) h) (servedAt_ran rfl rfl (Only.refl s)).1⟩

theorem serviceResult_elook {ecc : List (Bool × Bool)} {n v k p : Nat}
    (hw : (threadAt s th).wait = some (.elook v k p)) :
    let x := threadAt s th
    let r := emLookupOp (genOfThread x) p (emKeyOf s p (privBytes x k 40)) (threadBytes x).length
      ecc (bump cEmEccCorr scDevice n s)
    let hit := match r.1 with
      | some y => y
      | none => (genOf s (genOfThread x)).deflt
    Does (.serviceResult th ecc n) s fun t =>
      RanIn [.cls] th { lookupDone r.2 v k r.1.isSome hit x with pc := x.pc + 1, wait := none }
        s.tine.scratch s.tine.sram s t ∧ t.cls = r.2.cls := by
  intro x r hit
  have hacc : accessWaits s (threadAt s th) = false := by
    unfold accessWaits accessOf
    rw [hw]
  obtain ⟨htine, hcls, ho⟩ := eccBump (s := s) n
  have he := exec_serviceResult (ecc := ecc) (n := n) hacc hw
  have hkey : emKeyOf (bump cEmEccCorr scDevice n s) p (privBytes x k 40) =
      emKeyOf s p (privBytes x k 40) := by
    unfold emKeyOf
    rw [hcls]
  have hgen : genOf (bump cEmEccCorr scDevice n s) (genOfThread x) = genOf s (genOfThread x) := by
    unfold genOf
    rw [hcls]
  have hlook := only_emLookup (g := genOfThread x) (p := p) (k := emKeyOf s p (privBytes x k 40))
    (l := (threadBytes x).length) (e := ecc) (u := bump cEmEccCorr scDevice n s)
  have hr : r.2.tine = s.tine := (hlook .tine (by decide)).trans htine
  have hran := servedAt_ran (ps := [.cls]) (s := s) (th := th) (v := r.2)
    (y := lookupDone r.2 v k r.1.isSome hit x) (sram := s.tine.sram) (by rw [hr]) (by rw [hr])
    (only_trans (ho.mono (by decide)) (hlook.mono (by decide)))
  refine does_next (he.trans (congrArg Host.Outcome.next ?_))
    ⟨hran.1, hran.2 .cls (by decide)⟩
  unfold served
  dsimp only
  rw [hkey, hgen]

end Sys2Proof.Machine

/-! The services' instructions: issue (spec/12, spec/13). -/

namespace Sys2Proof.Machine
variable {s u v : State} {op : Nat} {th : ThreadId} {f : TFields}

/-! The program region. -/

theorem srd_does (hI : Issues 0x43 th f s) : let x := fetched 0x43 th f s
    match regionArgs f x with
    | .error e => Does (.srd th f) s (Faulted th e.1 s)
    | .ok (r, p) => Does (.srd th f) s (Runs th
      { x with wait := some (.load p (sramAt x r) (nBytes f * 8) s.tine.sramSeq) } s) := by
  intro x
  cases hr : regionArgs f x with
  | error e =>
    refine does_next rfl (issue_faults (addr := fun _ => some e.2) (regionArgs_code hr)
      (fun u _ => ?_) hI)
    change (match regionArgs f x with
      | .error e => TRes.fault e.1 (some e.2)
      | .ok (r, p) => _) = _
    rw [hr]
  | ok rp =>
    refine does_next rfl (issue_accesses hI fun u hu => ?_)
    change (match regionArgs f x with
      | .error e => TRes.fault e.1 (some e.2)
      | .ok (r, p) => _) = _
    rw [hr, ← sramSeq_pre hu]

theorem swr_does (hI : Issues 0x44 th f s) : let x := fetched 0x44 th f s
    match regionArgs f x with
    | .error e => Does (.swr th f) s (Faulted th e.1 s)
    | .ok (r, p) => Does (.swr th f) s (Runs th { x with
      wait := some (.store (sramAt x r) (privBytes x p (nBytes f * 8)) s.tine.sramSeq) } s) := by
  intro x
  cases hr : regionArgs f x with
  | error e =>
    refine does_next rfl (issue_faults (addr := fun _ => some e.2) (regionArgs_code hr)
      (fun u _ => ?_) hI)
    change (match regionArgs f x with
      | .error e => TRes.fault e.1 (some e.2)
      | .ok (r, p) => _) = _
    rw [hr]
  | ok rp =>
    refine does_next rfl (issue_accesses hI fun u hu => ?_)
    change (match regionArgs f x with
      | .error e => TRes.fault e.1 (some e.2)
      | .ok (r, p) => _) = _
    rw [hr, ← sramSeq_pre hu]

theorem satom_acts :
    let word := fun (x : Thread) => plusVA f x (bits f.imm.toNat 23 0) / 8 * 8
    Acts 0x45 th f (.satom th f) (fun x => decide (word x + 8 ≤ x.view.sramLen))
      (fun s x => { x with wait := some (.atom f.vd.toNat (sramAt x (word x)) s.tine.sramSeq) })
      (fun s _ => s.tine.scratch) (fun s _ => s.tine.sram) 0x05 := by
  intro word s hI x
  refine ⟨fun ho => does_next rfl (issue_accesses hI fun u hu => ?_),
    fun ho => does_next rfl (issue_faults (addr := fun _ => some (word x)) (by decide)
      (fun u _ => if_pos ?_) hI)⟩
  · refine (if_neg (Nat.not_lt.2 (of_decide_eq_true ho))).trans ?_
    rw [sramSeq_pre hu]
  · exact Nat.not_le.1 (of_decide_eq_false ho)

/-! Lookups. -/

theorem tDone_lookupDone {k r vd : Nat} {hit : Bool} {x : Thread} (h : u.cls = s.cls) :
    tDone (lookupDone u vd k hit r x) v =
      .ok { lookupDone s vd k hit r x with pc := x.pc + 1 } v false := by
  unfold tDone
  rw [lookupDone_cls h, lookupDone_pc]

theorem tlook_does (hI : Issues 0x50 th f s) : let x := fetched 0x50 th f s
    let k := bits f.imm.toNat 9 0
    let r := (ternLookup (genOfThread x) (privBytes x k 40) s).1
    (allowed x 2 = false → Does (.tlook th f) s (Faulted th 0x07 s)) ∧
    (allowed x 2 = true → 1024 < k + 56 → Does (.tlook th f) s (Faulted th 0x0B s)) ∧
    (allowed x 2 = true → k + 56 ≤ 1024 → Does (.tlook th f) s
      (Runs th { lookupDone s f.vd.toNat k r.1 r.2 x with pc := x.pc + 1 } s)) := by
  intro x k r
  refine ⟨fun h => does_next rfl (issue_faults (addr := fun _ => none) (by decide)
      (fun _ _ => ite_not_neg h) hI),
    fun h hk => does_next rfl (issue_faults (addr := fun _ => some k) (by decide)
      (fun _ _ => (ite_not_pos h).trans (if_pos hk)) hI),
    fun h hk => does_next rfl (issue_ran hI fun u hu => ?_)⟩
  have hcls : u.cls = s.cls := hu.same.2.2.2.1
  have hl : Only (counting ++ [.tine, .freeCtr] ++ []) u
      (ternLookup (genOfThread x) (privBytes x k 40) u).2 := only_ternLookup (by decide) (Only.refl u)
  refine ⟨_, (ternLookup (genOfThread x) (privBytes x k 40) u).2, false, rfl,
    .inl ((ite_not_pos h).trans ((if_neg (by omega)).trans ?_)), ?_, ?_, ?_, hl⟩
  · rw [tDone_lookupDone (cls_ternLookup.trans hcls), tern_congr hcls]
  · rw [tine_ternLookup]
    exact hu.post.1
  · rw [tine_ternLookup]
    exact hu.post.2.1
  · rw [tine_ternLookup]

theorem elook_does (hI : Issues 0x51 th f s) : let x := fetched 0x51 th f s
    let k := bits f.imm.toNat 9 0
    (allowed x 2 = false → Does (.elook th f) s (Faulted th 0x07 s)) ∧
    (allowed x 2 = true → 1024 < k + 56 → Does (.elook th f) s (Faulted th 0x0B s)) ∧
    (allowed x 2 = true → k + 56 ≤ 1024 → Does (.elook th f) s
      (Runs th { x with wait := some (.elook f.vd.toNat k f.fn.toNat) } s)) := by
  intro x k
  exact ⟨fun h => does_next rfl (issue_faults (addr := fun _ => none) (by decide)
      (fun _ _ => ite_not_neg h) hI),
    fun h hk => does_next rfl (issue_faults (addr := fun _ => some k) (by decide)
      (fun _ _ => (ite_not_pos h).trans (if_pos hk)) hI),
    fun h hk => does_next rfl (issue_runs hI fun u _ => ⟨_, false, rfl,
      .inr ((ite_not_pos h).trans (if_neg (by omega)))⟩)⟩

/-! METER, COUNT, TSREAD and PMCREAD. -/

/-- What METER does for a packet that was walked. -/
theorem meter_body {x : Thread} {w : Walked} (hw : x.walked = some w) (body : Walked → TRes) :
    (match x.walked with
      | none => tDone x u
      | some w => body w) = body w := by
  rw [hw]

theorem meter_does (hI : Issues 0x52 th f s) : let x := fetched 0x52 th f s
    ∀ w, x.walked = some w →
    let m := plusVA f x (bits f.imm.toNat 15 0) % 65536
    let r := meterPacket m w.pkt (threadBytes x) x.colour (chargedLen f x) s
    (allowed x 1 = false → Does (.meter th f) s (Faulted th 0x07 s)) ∧
    (allowed x 1 = true → Does (.meter th f) s fun t =>
      RanIn [.qos] th { setV f.vd.toNat (BitVec.ofNat 32 r.1) x with pc := x.pc + 1, colour := r.1 }
        s.tine.scratch s.tine.sram s t ∧ t.qos = r.2.qos) := by
  intro x w hw m r
  refine ⟨fun h => does_next rfl (issue_faults (addr := fun _ => none) (by decide)
      (fun u _ => ?_) hI), fun h => does_next rfl (issue_ran2 (P := fun t => t.qos = r.2.qos) hI
      fun u hu => ?_)⟩
  · exact (meter_body hw _).trans (ite_not_neg h)
  · obtain ⟨hset, hclk, hqos, -, -⟩ := hu.same
    obtain ⟨hcol, hq⟩ := meterPacket_congr (m := m) (p := w.pkt) (b := threadBytes x) (c := x.colour)
      (n := chargedLen f x) hset hclk hqos
    have ho := tine_meterPacket (m := m) (p := w.pkt) (b := threadBytes x) (c := x.colour)
      (n := chargedLen f x) (u := u)
    have ht := ho .tine (by decide)
    refine ⟨_, (meterPacket m w.pkt (threadBytes x) x.colour (chargedLen f x) u).2, false, rfl,
      .inl ?_, ?_, ?_, ?_, ho.mono (by decide), fun t hvt => (hvt .qos (by decide)).trans hq⟩
    · refine (meter_body hw _).trans ((ite_not_pos h).trans ?_)
      dsimp only
      rw [hcol]
      rfl
    · rw [ht]
      exact hu.post.1
    · rw [ht]
      exact hu.post.2.1
    · rw [ht]

theorem count_does (hI : Issues 0x53 th f s) : let x := fetched 0x53 th f s
    let c := plusVA f x (bits f.imm.toNat 15 0) % 32768
    (allowed x 1 = false → Does (.count th f) s (Faulted th 0x07 s)) ∧
    (allowed x 1 = true → Does (.count th f) s fun t =>
      RanIn [.cls] th { x with pc := x.pc + 1 } s.tine.scratch s.tine.sram s t ∧
      t.cls = { s.cls with rcount := tabMod (0, 0) s.cls.rcount c fun y =>
        (y.1 + 1, y.2 + BitVec.ofNat 64 (chargedLen f x)) }) := by
  intro x c
  refine ⟨fun h => does_next rfl (issue_faults (addr := fun _ => none) (by decide)
      (fun _ _ => ite_not_neg h) hI),
    fun h => does_next rfl (issue_ran2 (P := fun t => t.cls = { s.cls with
        rcount := tabMod (0, 0) s.cls.rcount c fun y =>
          (y.1 + 1, y.2 + BitVec.ofNat 64 (chargedLen f x)) }) hI fun u hu => ?_)⟩
  refine ⟨_, countResult c (chargedLen f x) u, false, rfl, .inl (ite_not_pos h), hu.post.1,
    hu.post.2.1, rfl, only_countResult (by decide) (Only.refl u), fun t ht => ?_⟩
  rw [ht .cls (by decide), countResult_cls (Nat.mod_lt _ (by decide)), hu.same.2.2.2.1]

theorem tsread_does (hI : Issues 0x58 th f s) : let x := fetched 0x58 th f s
    let vd := f.vd.toNat
    (allowed x 0 = false → Does (.tsread th f) s (Faulted th 0x07 s)) ∧
    (allowed x 0 = true → Does (.tsread th f) s (Runs th
      { setV (vd + 2) (BitVec.ofNat 32 (now s).toNat)
          (setV (vd + 1) (BitVec.ofNat 32 ((now s).toNat / 2 ^ 32))
            (setV vd (BitVec.ofNat 32 s.clk.era.toNat) x)) with pc := x.pc + 1 } s)) := by
  intro x vd
  refine ⟨fun h => does_next rfl (issue_faults (addr := fun _ => none) (by decide)
      (fun _ _ => ite_not_neg h) hI),
    fun h => does_next rfl (issue_runs hI fun u hu => ⟨_, false, rfl, .inl ?_⟩)⟩
  refine (ite_not_pos h).trans ?_
  unfold now
  rw [hu.same.2.1]
  rfl

theorem pmcread_does (hI : Issues 0x59 th f s) : let x := fetched 0x59 th f s
    let v := userPmc s th.harrow.val th.tine.val f.fn.toNat
    Does (.pmcread th f) s (Runs th
      { setV (f.vd.toNat + 1) (BitVec.ofNat 32 v)
        (setV f.vd.toNat (BitVec.ofNat 32 (v / 2 ^ 32)) x) with pc := x.pc + 1 } s) := by
  intro x v
  refine does_next rfl (issue_runs hI fun u hu => ⟨_, false, rfl, .inl ?_⟩)
  dsimp only
  rw [userPmc_pre hu]
  rfl

/-! CIPHER. -/

/-- A key of slot `k` that serves a CIPHER of function `fn`. -/
def cipherKey (fn : Nat) (k : KeySlot) : Bool :=
  k.loaded && k.use == 5 && k.cmacAlg == decide (4 ≤ fn)

/-- A CIPHER whose nonce is not drawn waits: with its status where it cannot run, and with a new
operation of the engine where it can. -/
def cipherWaits (th : ThreadId) (f : TFields) (x : Thread) (slot st : Nat) (d : CipherDesc)
    (u : State) : TRes :=
  let w (status : Option Nat) : Thread :=
    { x with wait := some (.cipher f.vd.toNat f.fn.toNat d.txtOff d.tagOff d.tagLen status) }
  if st ≠ 0 then .wait (w (some st)) u
  else .wait (w none) (issueOp (cipherOp th f.fn.toNat slot (threadBytes x) d d.nonce) u).2

theorem execCipher_undrawn {x : Thread} (s : State) :
    let slot := plusVA f x (bits f.imm.toNat 6 0) % 128
    let at_ := bits f.imm.toNat 25 16
    let d := cipherDesc (privBytes x at_ 32)
    let key := cipherKey f.fn.toNat (slotOf s slot)
    x.view.keyMask.testBit slot = true → at_ + 32 ≤ 1024 →
    (d.drawn = false ∨ key = false ∨ 4 ≤ f.fn.toNat) →
    ∃ body, exec (.cipher th f) s = .next (issue 0x60 th f body s) ∧ ∀ u, Pre s u → body x u =
      cipherWaits th f x slot (cipherStatus f.fn.toNat (threadBytes x).length d key) d u := by
  intro slot at_ d key h ha hd
  have hdraw : (key && d.drawn && decide (f.fn.toNat < 4)) = false := by
    rcases hd with hd | hd | hd
    · rw [hd, Bool.and_false, Bool.false_and]
    · rw [hd, Bool.false_and, Bool.false_and]
    · rw [decide_eq_false (by omega), Bool.and_false]
  refine ⟨_, rfl, fun u hu => (ite_not_pos h).trans ((if_neg (by omega)).trans ?_)⟩
  extract_lets d' b' k' key' draw'
  have hkey : key' = key := by
    have hslot : k' = slotOf s slot := by
      change slotOf u slot = _
      unfold slotOf
      rw [hu.same.2.2.2.2]
    change cipherKey f.fn.toNat k' = _
    rw [hslot]
  have hdraw' : draw' = false := by
    change (key' && d.drawn && decide (f.fn.toNat < 4)) = false
    rw [hkey, hdraw]
  clear_value draw' key'
  subst hdraw' hkey
  unfold cipherWaits
  rw [if_neg Bool.false_ne_true]
  dsimp only [Option.isSome, Option.getD]
  rw [Bool.and_true]

theorem cipher_does (hI : Issues 0x60 th f s) : let x := fetched 0x60 th f s
    let vd := f.vd.toNat
    let slot := plusVA f x (bits f.imm.toNat 6 0) % 128
    let at_ := bits f.imm.toNat 25 16
    let d := cipherDesc (privBytes x at_ 32)
    let fn := f.fn.toNat
    let key := cipherKey fn (slotOf s slot)
    let st := cipherStatus fn (threadBytes x).length d key
    (x.view.keyMask.testBit slot = false → Does (.cipher th f) s (Faulted th 0x07 s)) ∧
    (x.view.keyMask.testBit slot = true → 1024 < at_ + 32 →
      Does (.cipher th f) s (Faulted th 0x0B s)) ∧
    (x.view.keyMask.testBit slot = true → at_ + 32 ≤ 1024 →
      (d.drawn = false ∨ key = false ∨ 4 ≤ fn) →
      (st ≠ 0 → Does (.cipher th f) s (Runs th
        { x with wait := some (.cipher vd fn d.txtOff d.tagOff d.tagLen (some st)) } s)) ∧
      (st = 0 → Does (.cipher th f) s fun t =>
        RanIn [.cry] th { x with wait := some (.cipher vd fn d.txtOff d.tagOff d.tagLen none) }
          s.tine.scratch s.tine.sram s t ∧
        t.cry.ops.map (·.id) = s.cry.ops.map (·.id) ++ [s.cry.nextId] ∧
        t.cry.slots = s.cry.slots)) := by
  intro x vd slot at_ d fn key st
  refine ⟨fun h => does_next rfl (issue_faults (addr := fun _ => some slot) (by decide)
      (fun _ _ => ite_not_neg h) hI),
    fun h ha => does_next rfl (issue_faults (addr := fun _ => some at_) (by decide)
      (fun _ _ => (ite_not_pos h).trans (if_pos ha)) hI), fun h ha hd => ?_⟩
  obtain ⟨body, he, hb⟩ := execCipher_undrawn (th := th) s h ha hd
  refine ⟨fun hst => does_next he (issue_runs hI fun u hu =>
      ⟨_, false, rfl, .inr ((hb u hu).trans (if_pos hst))⟩),
    fun hst => does_next he (issue_ran2 (P := fun t =>
      t.cry.ops.map (·.id) = s.cry.ops.map (·.id) ++ [s.cry.nextId] ∧ t.cry.slots = s.cry.slots) hI
        fun u hu => ?_)⟩
  obtain ⟨hids, hslots, ho⟩ := issueOp_facts
    (o := cipherOp th fn slot (threadBytes x) d d.nonce) (s := u)
  have hcry : u.cry = s.cry := hu.same.2.2.2.2
  have htine := ho .tine (by decide)
  rw [hcry] at hids hslots
  refine ⟨_, _, false, rfl, .inr ((hb u hu).trans (if_neg (not_not.2 hst))),
    (congrArg Tine.scratch htine).trans hu.post.1, (congrArg Tine.sram htine).trans hu.post.2.1,
    by rw [htine], ho.mono (by decide), fun t ht => ?_⟩
  rw [ht .cry (by decide)]
  exact ⟨hids, hslots⟩

/-- Settles O34. -/
theorem servicesServeTheirThreads : Obligations.ServicesServeTheirThreads := by
  intro th f vd n word
  refine ⟨fun s hI => srd_does hI, fun s hI => swr_does hI, satom_acts,
    ⟨fun s hI => tlook_does hI, fun s hI => elook_does hI⟩, fun s hI => meter_does hI,
    fun s hI => count_does hI, fun s hI => tsread_does hI, fun s hI => pmcread_does hI,
    fun s hI => cipher_does hI, fun s ecc n => ?_⟩
  exact ⟨exec_serviceResult_waits, fun ha => ⟨fun p a l q hw => serviceResult_load ha hw,
    fun a b q hw => serviceResult_store ha hw, fun v a q hw => serviceResult_atom ha hw⟩,
    fun v p q l g hw => serviceResult_cipher.1 hw, fun v p q l g st hw => serviceResult_cipher.2 st hw,
    fun v k p hw => serviceResult_elook hw⟩

end Sys2Proof.Machine

/-! Past its limit, or on an undefined encoding, an instruction only ends the pass (spec/12, spec/13). -/

namespace Sys2Proof.Machine

/-- Every opcode of Table 13-4 goes through `issue`. -/
theorem tineOps_issue : ∀ p ∈ tineOps, ∀ th f, ∃ body, ∀ s,
    exec (p.2 th f) s = .next (issue p.1 th f body s) := by
  unfold tineOps
  repeat' refine List.forall_mem_cons.2 ⟨fun th f => ⟨_, fun s => rfl⟩, ?_⟩
  exact List.forall_mem_nil _

/-- Settles O35: what `issue` looks at before it looks at the instruction, opcode by opcode. -/
theorem limitAndEncodingFaultFirst : Obligations.LimitAndEncodingFaultFirst := by
  intro p hp th f s
  obtain ⟨body, he⟩ := tineOps_issue p hp th f
  exact issue_first (fun t ht => only_exec _ ht) (he s)

end Sys2Proof.Machine

/-! EMIT, DROP, RECIRCULATE and TRAP (spec/12, spec/13). -/

namespace Sys2Proof.Machine
variable {s u : State} {op : Nat} {th : ThreadId} {f : TFields} {body : Thread → State → TRes}

/-- What is left of the order of the packets once its first ones have gone on. -/
def orderLooked (s : State) (o : List OrderEnt) : List OrderEnt :=
  (orderLook { s with tine := { s.tine with order := o } }).tine.order

/-- The order of the packets once packet `p` has given up its place. -/
def orderLeft (s : State) (p : Pkt) : List OrderEnt :=
  orderLooked s (s.tine.order.filter fun o => o.id != p.order)

/-- An instruction that ends its pass and settles its packet in `settle`. -/
theorem issue_settles {event : Nat} {settle : State → State} (hI : Issues op th f s)
    (hb : ∀ u, body (fetched op th f s) u = .stop event (settle u))
    (ho : ∀ u, Ord u (settle u) ∨ ∃ q, Ord { u with tine := { u.tine with trapQ := q } } (settle u)) :
    ∃ u, Pre s u ∧ Ended th s (issue op th f body s) ∧
      (issue op th f body s).tine.faultLog = s.tine.faultLog ∧
      (issue op th f body s).tine.order = (settle u).tine.order ∧
      (issue op th f body s).tine.trapQ = (settle u).tine.trapQ ∧
      (issue op th f body s).cls = (settle u).cls := by
  obtain ⟨u, hu, h⟩ := issue_stops (body := body) hI
  have hthreads : (settle u).tine.threads = u.tine.threads := by
    rcases ho u with h | ⟨q, h⟩
    · exact h.get (·.threads) fun _ _ => rfl
    · exact h.get (·.threads) fun _ _ => rfl
  obtain ⟨hth, hother, hpost, hv⟩ := h event (settle u) (hb u) hthreads
  obtain ⟨hend, hlog, horder, htrap⟩ := pass_ended hu (ho u) hth hother hpost
  exact ⟨u, hu, hend, hlog, horder, htrap, hv .cls (by decide)⟩

theorem tine_order_pre (h : Pre s u) : u.tine.order = s.tine.order :=
  (congrArg Tine.order h.1 : _)

theorem tine_trapQ_pre (h : Pre s u) : u.tine.trapQ = s.tine.trapQ :=
  (congrArg Tine.trapQ h.1 : _)

theorem bump_order {c : CtrId} {a n : Nat} (h : Pre s u) :
    (bump c a n u).tine.order = s.tine.order := by
  rw [bump_tine, tine_order_pre h]

theorem orderLeave_order {p : Pkt} (h : u.tine.order = s.tine.order) :
    (orderLeave p.order u).tine.order = orderLeft s p :=
  orderLook_congr (by
    dsimp only
    rw [h])

/-! EMIT. -/

theorem emit_does (hI : Issues 0xF0 th f s) : let x := fetched 0xF0 th f s
    ((x.qValid = false ∨ x.dir = true ∧ allowed x 3 = false) →
      Does (.emit th f) s (Faulted th 0x08 s)) ∧
    (x.qValid = true → (x.dir = true → allowed x 3 = true) → Does (.emit th f) s fun t =>
      Ended th s t ∧ t.tine.trapQ = s.tine.trapQ ∧ t.tine.faultLog = s.tine.faultLog ∧
      ∀ w, x.walked = some w →
        let e := emitBytes s x w.pkt (f.fn == 1)
        let need := bushelsOf e.1.length
        let out : Emitted :=
          ⟨!x.dir, x.queue, x.colour, w.pkt.gen, e.1, e.2.1, e.2.2, x.modified, need⟩
        t.tine.order = if w.pkt.bushels + s.qos.free < need then orderLeft s w.pkt
          else orderLooked s (s.tine.order.map fun o =>
            if o.id == w.pkt.order then { o with frame := some out } else o)) := by
  intro x
  refine ⟨fun h => does_next rfl (issue_faults (addr := fun _ => some x.queue) (by decide)
    (fun _ _ => if_pos ?_) hI), fun hq hd => ?_⟩
  · rcases h with h | ⟨h, ha⟩
    · rw [h]
      rfl
    · rw [h, ha, Bool.not_false, Bool.and_self, Bool.or_true]
  · have hgo : (!x.qValid || (x.dir && !allowed x 3)) = false := by
      rw [hq]
      cases hdir : x.dir
      · rfl
      · rw [hd hdir]
        rfl
    obtain ⟨u, hu, hend, hlog, horder, htrap, -⟩ := issue_settles hI
      (body := fun x s => if !x.qValid || (x.dir && !allowed x 3) then .fault 0x08 (some x.queue)
        else .stop 0x0F (emitPass x (f.fn == 1) (bump cEmits (scProgram x.view.prog) 1 s)))
      (settle := fun u => emitPass x (f.fn == 1) (bump cEmits (scProgram x.view.prog) 1 u))
      (fun u => if_neg (Bool.eq_false_iff.1 hgo)) (fun u => .inl (ord_bump.trans ord_emitPass))
    refine does_next rfl ⟨hend, htrap.trans ?_, hlog, fun w hw => horder.trans ?_⟩
    · exact ((ord_bump.trans ord_emitPass).get (·.trapQ) fun _ _ => rfl).trans (tine_trapQ_pre hu)
    · exact emitPass_order hw (bump_order hu) (bump_settings.trans hu.same.1)
        (bump_qos.trans hu.same.2.2.1)

/-! DROP. -/

theorem drop_does (hI : Issues 0xF1 th f s) : let x := fetched 0xF1 th f s
    Does (.drop th f) s fun t => Ended th s t ∧ t.tine.trapQ = s.tine.trapQ ∧
      t.tine.faultLog = s.tine.faultLog ∧
      ∀ w, x.walked = some w → t.tine.order = orderLeft s w.pkt := by
  intro x
  have ho (u : State) : Ord u (match x.walked with
      | some w => discardPkt w.pkt (bump cDrops (scProgram x.view.prog) 1 u)
      | none => bump cDrops (scProgram x.view.prog) 1 u) := by
    split
    · exact ord_bump.trans ord_discardPkt
    · exact ord_bump
  obtain ⟨u, hu, hend, hlog, horder, htrap, -⟩ := issue_settles hI (event := 0x10)
    (body := fun x s => .stop 0x10 (match x.walked with
      | some w => discardPkt w.pkt (bump cDrops (scProgram x.view.prog) 1 s)
      | none => bump cDrops (scProgram x.view.prog) 1 s))
    (fun u => rfl) (fun u => .inl (ho u))
  refine does_next rfl ⟨hend, htrap.trans ?_, hlog, fun w hw => horder.trans ?_⟩
  · exact ((ho u).get (·.trapQ) fun _ _ => rfl).trans (tine_trapQ_pre hu)
  · rw [hw]
    exact discard_order (bump_order hu)

/-! RECIRCULATE. -/

theorem recirculatePass_order {x : Thread} {p : Pkt} {sheaf : Bool} {node : Option Nat}
    (hp : threadPkt x = some p) (h : u.tine.order = s.tine.order) :
    (recirculatePass x sheaf node u).tine.order = orderLeft s p := by
  unfold recirculatePass
  rw [hp]
  dsimp only
  split
  · rw [bump_tine]
    exact discard_order h
  · exact orderLeave_order h

theorem ord_recirculatePass {x : Thread} {sheaf : Bool} {node : Option Nat} :
    Ord u (recirculatePass x sheaf node u) := by
  unfold recirculatePass
  split
  · exact Ord.refl u
  · dsimp only
    split
    · exact ord_discardPkt.trans ord_bump
    · exact ord_orderLeave.trans (ord_of_same rfl)

theorem recirculatePass_queue {x : Thread} {p : Pkt} {sheaf : Bool} {node : Option Nat}
    (hp : threadPkt x = some p) (hr : p.recirc = false) :
    ∃ q, (recirculatePass x sheaf node u).cls.recircQ = u.cls.recircQ ++ [q] ∧ q.recirc = true ∧
      q.src = (if sheaf then 2 else 4) ∧ q.body = (if sheaf then p.body.drop 16 else p.body) ∧
      q.node = node := by
  unfold recirculatePass
  rw [hp]
  dsimp only
  rw [if_neg (Bool.eq_false_iff.1 hr)]
  refine ⟨_, congrArg (· ++ [_]) ?_, rfl, rfl, rfl, rfl⟩
  exact recirc_orderLook

theorem recirculate_does (hI : Issues 0xF2 th f s) : let x := fetched 0xF2 th f s
    (allowed x 4 = false → Does (.recirculate th f) s (Faulted th 0x07 s)) ∧
    (allowed x 4 = true → ∀ p, threadPkt x = some p → Does (.recirculate th f) s fun t =>
      Ended th s t ∧ t.tine.order = orderLeft s p ∧
      (p.recirc = false → ∃ q, t.cls.recircQ = s.cls.recircQ ++ [q] ∧ q.recirc = true ∧
        q.src = (if f.fn.getLsbD 1 then 2 else 4) ∧
        q.body = (if f.fn.getLsbD 1 then p.body.drop 16 else p.body) ∧
        q.node = if f.fn.getLsbD 0 then none else some (bits f.imm.toNat 5 0))) := by
  intro x
  refine ⟨fun h => does_next rfl (issue_faults (addr := fun _ => none) (by decide)
      (fun _ _ => ite_not_neg h) hI), fun h p hp => ?_⟩
  obtain ⟨u, hu, hend, -, horder, -, hcls⟩ := issue_settles hI (event := 0x11)
    (body := fun x s => if !allowed x 4 then .fault 0x07 none
      else .stop 0x11 (recirculatePass x (f.fn.getLsbD 1)
        (if f.fn.getLsbD 0 then none else some (bits f.imm.toNat 5 0))
        (bump cRecircs (scProgram x.view.prog) 1 s)))
    (fun u => ite_not_pos h) (fun u => .inl (ord_bump.trans ord_recirculatePass))
  refine does_next rfl ⟨hend, horder.trans (recirculatePass_order hp (bump_order hu)), fun hr => ?_⟩
  have hq : (bump cRecircs (scProgram x.view.prog) 1 u).cls.recircQ = s.cls.recircQ := by
    rw [bump_cls, hu.same.2.2.2.1]
  rw [hcls, ← hq]
  exact recirculatePass_queue hp hr

/-! TRAP. -/

theorem trapPass_settles {x : Thread} {p : Pkt} {r : BitVec 8} (hp : threadPkt x = some p)
    (ho : u.tine.order = s.tine.order) (hq : u.tine.trapQ = s.tine.trapQ) :
    (trapPass x r u).tine.order = orderLeft s p ∧
    (trapPass x r u).tine.trapQ = if 256 ≤ s.tine.trapQ.length then s.tine.trapQ
      else s.tine.trapQ ++ [⟨p, x.win, x.spill, x.tail, metaBytes x, r⟩] := by
  unfold trapPass
  rw [hp]
  dsimp only
  rw [hq]
  by_cases h : 256 ≤ s.tine.trapQ.length
  · rw [if_pos h, if_pos h, bump_tine]
    exact ⟨discard_order ho, (ord_discardPkt.get (·.trapQ) fun _ _ => rfl).trans hq⟩
  · rw [if_neg h, if_neg h]
    refine ⟨orderLeave_order ?_, (ord_orderLeave.get (·.trapQ) fun _ _ => rfl).trans ?_⟩
    · rw [tine_genLeave]
      exact ho
    · rw [tine_genLeave]
      exact congrArg (· ++ [_]) hq

theorem ord_trapped {g : BitVec 8} {e : Trapped} :
    Ord { u with tine := { u.tine with trapQ := u.tine.trapQ ++ [e] } }
      (genLeave g (modTine (fun t => { t with trapQ := t.trapQ ++ [e] }) u)) :=
  ord_of_same (by
    rw [tine_genLeave]
    rfl)

theorem ord_trapPass {x : Thread} {r : BitVec 8} : Ord u (trapPass x r u) ∨
    ∃ q, Ord { u with tine := { u.tine with trapQ := q } } (trapPass x r u) := by
  unfold trapPass
  split
  · exact .inl (Ord.refl u)
  · split
    · exact .inl (ord_discardPkt.trans ord_bump)
    · exact .inr ⟨_, ord_trapped.trans ord_orderLeave⟩

theorem trap_does (hI : Issues 0xF3 th f s) : let x := fetched 0xF3 th f s
    (allowed x 5 = false → Does (.trap th f) s (Faulted th 0x07 s)) ∧
    (allowed x 5 = true → ∀ p, threadPkt x = some p → Does (.trap th f) s fun t =>
      Ended th s t ∧ t.tine.order = orderLeft s p ∧
      t.tine.trapQ = if 256 ≤ s.tine.trapQ.length then s.tine.trapQ
        else s.tine.trapQ ++ [⟨p, x.win, x.spill, x.tail, metaBytes x, BitVec.ofNat 8 f.imm.toNat⟩]) := by
  intro x
  refine ⟨fun h => does_next rfl (issue_faults (addr := fun _ => none) (by decide)
      (fun _ _ => ite_not_neg h) hI), fun h p hp => ?_⟩
  have ho (u : State) : Ord u (trapPass x (BitVec.ofNat 8 f.imm.toNat)
        (bump cTraps (scProgram x.view.prog) 1 u)) ∨
      ∃ q, Ord { u with tine := { u.tine with trapQ := q } } (trapPass x (BitVec.ofNat 8 f.imm.toNat)
        (bump cTraps (scProgram x.view.prog) 1 u)) := by
    rcases ord_trapPass (u := bump cTraps (scProgram x.view.prog) 1 u) (x := x)
      (r := BitVec.ofNat 8 f.imm.toNat) with h | ⟨q, h⟩
    · exact .inl (ord_bump.trans h)
    · refine .inr ⟨q, Ord.trans (ord_of_same ?_) h⟩
      dsimp only
      rw [bump_tine]
  obtain ⟨u, hu, hend, -, horder, htrap, -⟩ := issue_settles hI (event := 0x12)
    (body := fun x s => if !allowed x 5 then .fault 0x07 none
      else .stop 0x12 (trapPass x (BitVec.ofNat 8 f.imm.toNat)
        (bump cTraps (scProgram x.view.prog) 1 s)))
    (fun u => ite_not_pos h) ho
  obtain ⟨hleft, hq⟩ := trapPass_settles (r := BitVec.ofNat 8 f.imm.toNat) hp
    (bump_order (c := cTraps) (a := scProgram x.view.prog) (n := 1) hu)
    ((congrArg Tine.trapQ bump_tine).trans (tine_trapQ_pre hu))
  exact does_next rfl ⟨hend, horder.trans hleft, htrap.trans hq⟩

/-- Settles O36. -/
theorem passesEndAsTheProgramSays : Obligations.PassesEndAsTheProgramSays := by
  intro th f s order left
  exact ⟨emit_does, drop_does, recirculate_does, trap_does⟩

end Sys2Proof.Machine

/-! PMCs that wrap, and tagged sampling (spec/14). -/

namespace Sys2Proof.Machine
variable {s : State} {h t : Nat}

/-! PMC_OVERFLOW. -/

/-- One of the PMCs of the mask has the overflow action FREEZE (R381). -/
def freezes (s : State) (h t : Nat) (mask : BitVec 6) : Bool :=
  (List.range 6).any fun i => mask.getLsbD i && settingB s sOvfAction (scTine h t) i

theorem freezes_zero : freezes s h t 0 = false := by
  unfold freezes
  rw [List.any_eq_false]
  intro i _
  rw [show BitVec.getLsbD (0 : BitVec 6) i = false from BitVec.getLsbD_zero, Bool.false_and]
  exact Bool.false_ne_true

theorem freezes_iff {mask : BitVec 6} : freezes s h t mask = true ↔
    ∃ i : Fin 6, mask.getLsbD i = true ∧ settingB s sOvfAction (scTine h t) i = true := by
  unfold freezes
  rw [List.any_eq_true]
  constructor
  · rintro ⟨i, hi, hm⟩
    obtain ⟨hmask, hset⟩ := Bool.and_eq_true_iff.1 hm
    exact ⟨⟨i, List.mem_range.1 hi⟩, hmask, hset⟩
  · rintro ⟨i, hmask, hset⟩
    exact ⟨i, List.mem_range.2 i.2, Bool.and_eq_true_iff.2 ⟨hmask, hset⟩⟩

theorem pmcOf_tine {u : State} (hu : u.tine = s.tine) : pmcOf u h t = pmcOf s h t := by
  unfold pmcOf
  rw [hu]

theorem pmcWrap_pmc {mask : BitVec 6} : (pmcOf (pmcWrap h t mask s) h t).count = (pmcOf s h t).count ∧
    (pmcOf (pmcWrap h t mask s) h t).ovf = (pmcOf s h t).ovf ||| mask ∧
    (pmcOf (pmcWrap h t mask s) h t).frozen = ((pmcOf s h t).frozen || freezes s h t mask) := by
  unfold pmcWrap
  by_cases hm : mask = 0
  · rw [if_pos hm, hm, freezes_zero, Bool.or_false]
    exact ⟨rfl, BitVec.or_zero.symm, rfl⟩
  · rw [if_neg hm]
    extract_lets freeze x quiet s1
    by_cases hq : quiet = true
    · rw [if_pos hq, pmcOf_mod]
      exact ⟨rfl, rfl, rfl⟩
    · rw [if_neg hq, pmcOf_tine raise_tine, pmcOf_mod]
      exact ⟨rfl, rfl, rfl⟩

/-- A PMC with an event that stands at its maximum. -/
def pmcAtMax (s : State) (h t i : Nat) : Bool :=
  decide (settingN s sPmcEvent (scTine h t) i ≠ 0) && pmcVal s h t i == 0xFFFFFFFFFFFF

theorem pmcAtMax_iff {i : Nat} : pmcAtMax s h t i = true ↔
    settingN s sPmcEvent (scTine h t) i ≠ 0 ∧ pmcVal s h t i = 0xFFFFFFFFFFFF := by
  unfold pmcAtMax
  rw [Bool.and_eq_true, decide_eq_true_iff, beq_iff_eq]

/-- The PMCs of a tine that stand at their maximum. -/
def pmcsAtMax (s : State) (h t : Nat) : List Nat := (List.range 6).filter (pmcAtMax s h t)

theorem mem_pmcsAtMax {i : Fin 6} : i.val ∈ pmcsAtMax s h t ↔ pmcAtMax s h t i = true := by
  unfold pmcsAtMax
  rw [List.mem_filter, List.mem_range]
  exact and_iff_right i.2

/-- The tine after its PMCs have wrapped. -/
def overflowed (s : State) (h t : Nat) : State :=
  pmcWrap h t ((pmcsAtMax s h t).foldl (fun (m : BitVec 6) i => m ||| (1#6 <<< i)) 0)
    (modPmc h t (fun x => { x with
      count := (pmcsAtMax s h t).foldl (fun c i => tabSet 0 c i 0) x.count }) s)

theorem overflowed_pmcVal {i : Fin 6} : pmcVal (overflowed s h t) h t i =
    if pmcAtMax s h t i = true then 0 else pmcVal s h t i := by
  unfold pmcVal overflowed
  rw [pmcWrap_pmc.1, pmcOf_mod, foldl_set]
  exact if_congr mem_pmcsAtMax rfl rfl

theorem overflowed_ovf {i : Fin 6} : (pmcOf (overflowed s h t) h t).ovf.getLsbD i =
    ((pmcOf s h t).ovf.getLsbD i || pmcAtMax s h t i) := by
  unfold overflowed pmcsAtMax
  rw [pmcWrap_pmc.2.1, pmcOf_mod, BitVec.getLsbD_or, foldl_mask]

theorem overflowed_frozen (hf : (pmcOf s h t).frozen = false) :
    (pmcOf (overflowed s h t) h t).frozen = true ↔
    ∃ i : Fin 6, pmcAtMax s h t i = true ∧ settingB s sOvfAction (scTine h t) i = true := by
  unfold overflowed pmcsAtMax
  rw [pmcWrap_pmc.2.2, pmcOf_mod, hf, Bool.false_or, freezes_iff]
  exact exists_congr fun i => by
    rw [foldl_mask]
    rfl

theorem pmcOverflow_does {h : Fin 12} {t : Fin 16} :
    let x := pmcOf s h t
    let at_ := fun (i : Nat) => settingN s sPmcEvent (scTine h t) i ≠ 0 ∧ pmcVal s h t i = 0xFFFFFFFFFFFF
    ((x.frozen = true ∨ harrowOn s h = false) → exec (.pmcOverflow h t) s = .next s) ∧
    (x.frozen = false → harrowOn s h = true → Does (.pmcOverflow h t) s fun u =>
      (∀ i : Fin 6, (at_ i → pmcVal u h t i = 0 ∧ (pmcOf u h t).ovf.getLsbD i = true) ∧
        (¬ at_ i → pmcVal u h t i = pmcVal s h t i ∧
          (pmcOf u h t).ovf.getLsbD i = x.ovf.getLsbD i)) ∧
      ((pmcOf u h t).frozen = true ↔
        ∃ i : Fin 6, at_ i ∧ settingB s sOvfAction (scTine h t) i = true)) := by
  intro x at_
  have hat (i : Nat) : at_ i ↔ pmcAtMax s h t i = true := pmcAtMax_iff.symm
  refine ⟨fun hx => if_pos ?_, fun hf hh => ?_⟩
  · rcases hx with hx | hx
    · rw [hx, Bool.true_or]
    · rw [hx, Bool.not_false, Bool.or_true]
  · refine does_next (t := overflowed s h t) (if_neg ?_) ⟨fun i => ⟨fun ha => ?_, fun ha => ?_⟩, ?_⟩
    · rw [hf, hh]
      exact Bool.false_ne_true
    · rw [hat] at ha
      rw [overflowed_pmcVal, if_pos ha, overflowed_ovf, ha, Bool.or_true]
      exact ⟨rfl, rfl⟩
    · rw [hat, Bool.not_eq_true] at ha
      rw [overflowed_pmcVal, if_neg (Bool.eq_false_iff.1 ha), overflowed_ovf, ha, Bool.or_false]
      exact ⟨rfl, rfl⟩
    · rw [overflowed_frozen hf]
      exact exists_congr fun i => and_congr_left' (hat i).symm

/-! SAMPLE_TAG. -/

theorem drawCountdown_samp : (sampOf (drawCountdown h t s) h).armed = (sampOf s h).armed ∧
    (sampOf (drawCountdown h t s) h).buffer = (sampOf s h).buffer ∧
    (drawCountdown h t s).tine.threads = s.tine.threads := by
  unfold drawCountdown
  dsimp only
  rw [sampOf_mod]
  exact ⟨rfl, rfl, rfl⟩

theorem sampleTag_does {h : Fin 12} {t : Fin 16} :
    let x := sampOf s h
    let runs := sampling s h t = true ∧ harrowOn s h = true ∧ x.armed.getLsbD t = false
    let tagged := (List.range 8).any (fun n => (threadOf s h t n).tagged.isSome)
    (¬ runs → exec (.sampleTag h t) s = .next s) ∧
    (runs → tagged = false → Does (.sampleTag h t) s fun u =>
      (sampOf u h).armed.getLsbD t = true ∧ tabGet 0 (sampOf u h).countdown t = 0 ∧
      (sampOf u h).buffer = x.buffer ∧ u.tine.threads = s.tine.threads) ∧
    (runs → tagged = true → Does (.sampleTag h t) s fun u =>
      (sampOf u h).armed = x.armed ∧ (sampOf u h).buffer = x.buffer ∧
      u.tine.threads = s.tine.threads) := by
  intro x runs tagged
  have hruns : runs ↔ (sampling s h t && harrowOn s h && !x.armed.getLsbD t) = true := by
    rw [Bool.and_eq_true, Bool.and_eq_true, Bool.not_eq_true', and_assoc]
  let zero : State := modSamp h (fun x => { x with countdown := tabSet 0 x.countdown t 0 }) s
  have hzero : sampOf zero h = { x with countdown := tabSet 0 x.countdown t 0 } := sampOf_mod
  have hexec (hr : runs) : exec (.sampleTag h t) s = .next (countdownZero h t zero) :=
    if_pos (hruns.1 hr)
  refine ⟨fun hr => if_neg (mt hruns.2 hr), fun hr ht => ?_, fun hr ht => ?_⟩
  · refine does_next ((hexec hr).trans (congrArg Host.Outcome.next (if_neg (Bool.eq_false_iff.1 ht)))) ?_
    rw [sampOf_mod, hzero]
    refine ⟨?_, (tabGet_set 0 x.countdown t t 0).trans (if_pos rfl), rfl, rfl⟩
    rw [BitVec.getLsbD_or, BitVec.getLsbD_shiftLeft]
    simp
  · have hdraw := drawCountdown_samp (h := h) (t := t) (s := bump cSampleCollide (scHarrow h) 1 zero)
    have hsamp : sampOf (bump cSampleCollide (scHarrow h) 1 zero) h = sampOf zero h := by
      unfold sampOf
      rw [bump_tine]
    rw [hsamp, hzero, bump_tine] at hdraw
    exact does_next ((hexec hr).trans (congrArg Host.Outcome.next (if_pos ht))) hdraw

/-- Settles O37. -/
theorem countersWrapAndSamplesAreTagged : Obligations.CountersWrapAndSamplesAreTagged :=
  ⟨fun _ _ _ => pmcOverflow_does, fun _ _ _ => sampleTag_does⟩

end Sys2Proof.Machine

/-! Key registers, key requests and the debug port (spec/16, spec/17). -/

namespace Sys2Proof.Machine
variable {s : State} {f : Cry → Cry}

/-! The registers. -/

/-- A write of a key register on an addressed device: it acts in SDR, and records BUSY while a
request stands. -/
theorem keyAccess_writes {i : Instr} (he : exec i s = .next (keyAccess (keyWrite f) s)) :
    (i3cUp s = true ∧ s.pwr.st ≠ .deepFallow ∧ s.i3c.hdr = false → s.cry.req = none →
      Does i s fun t => t.cry = f s.cry) ∧
    (i3cUp s = true ∧ s.pwr.st ≠ .deepFallow ∧ s.i3c.hdr = false → s.cry.req.isSome = true →
      Does i s fun t => t.cry = { s.cry with result := 1 }) ∧
    (i3cUp s = false ∨ s.pwr.st ≠ .deepFallow ∧ s.i3c.hdr = true → exec i s = .next s) := by
  have hup (hi : i3cUp s = true) (hd : s.pwr.st ≠ .deepFallow) : keyAccess (keyWrite f) s =
      if s.i3c.hdr then s else keyWrite f s := addressed_up (by
    unfold i3cUp at hi
    rwa [Bool.not_eq_true'] at hi) hd
  refine ⟨fun ⟨hi, hd, hh⟩ hr => does_next (he.trans (congrArg _ (hup hi hd))) ?_,
    fun ⟨hi, hd, hh⟩ hr => does_next (he.trans (congrArg _ (hup hi hd))) ?_, fun h => ?_⟩
  · rw [if_neg (Bool.eq_false_iff.1 hh)]
    exact if_neg (by
      rw [hr]
      exact Bool.false_ne_true)
  · rw [if_neg (Bool.eq_false_iff.1 hh)]
    exact if_pos hr
  · refine he.trans (congrArg _ ?_)
    by_cases hi : i3cUp s = true
    · obtain ⟨hd, hh⟩ := h.resolve_left (by
        rw [hi]
        exact Bool.noConfusion)
      rw [hup hi hd, if_pos hh]
    · unfold i3cUp at hi
      rw [Bool.not_eq_true, Bool.not_eq_false'] at hi
      exact addressed_inReset hi

/-! A request's commit. -/

/-- The state in which a key request has ended with RESULT `r`. -/
def keyDone (r : BitVec 3) (s : State) : State :=
  { s with cry := { s.cry with req := none, result := r, data := List.replicate 40 0 } }

theorem keyDone_fin {r : BitVec 3} : (keyDone r s).cry.req = none ∧ (keyDone r s).cry.result = r ∧
    (keyDone r s).cry.data = List.replicate 40 0 := ⟨rfl, rfl, rfl⟩

theorem slotOf_keyDone {r : BitVec 3} {j : Nat} : slotOf (keyDone r s) j = slotOf s j := rfl

theorem slotOf_keyWritten {j : Nat} : slotOf (keyWritten s) j = slotOf s j := rfl

/-- The bytes that a LOAD brings: those of KEY_DATA, unwrapped where they are wrapped (R437). -/
def loadBytes (wrapped size256 : Bool) (s : State) : Option Bytes :=
  let n := if size256 then 32 else 16
  if wrapped then kwUnwrap (natBytes 32 s.fuses.kek.toNat) (s.cry.data.take (n + 8))
  else some (s.cry.data.take n)

theorem loadKey_denied {w z : Bool} (h : loadDenied s w = true) : loadKey w z s = (2, s) := if_pos h

theorem loadKey_unwraps {w z : Bool} (h : loadDenied s w = false) : loadKey w z s =
    match loadBytes w z s with
    | none => (3, bump cKeyUnwrapFail scDevice 1 s)
    | some b =>
      if 2 ≤ (oldGens s s.cry.sel.toNat).length then (5, s)
      else (0, startOps (keysLook (bump cKeyLoads scDevice 1 (modSlot s.cry.sel.toNat
        (fun x => { x.withKey b (natBytes b.length (Config.maskBits (rngDraw s).2.cry.masks).toNat) with
          loaded := true, size256 := z, gen := x.gen + 1,
          salt := BitVec.ofNat 32 (rngDraw s).1, ctr := 0 }) (maskDraw 1 (rngDraw s).2))))) :=
  if_neg (Bool.eq_false_iff.1 h)

theorem natBytes_length (n v : Nat) : (natBytes n v).length = n := by
  induction n with
  | zero => rfl
  | succ n ih => exact congrArg Nat.succ ih

/-- Masking twice with the same bits gives the key back (R425). -/
theorem xorShares_twice : ∀ {k m : Bytes}, m.length = k.length → xorShares (xorShares k m) m = k
  | [], _, _ => rfl
  | a :: k, b :: m, h => by
    have ih := xorShares_twice (Nat.succ.inj h)
    unfold xorShares at ih ⊢
    rw [List.zipWith_cons_cons, List.zipWith_cons_cons, ih, BitVec.xor_assoc, BitVec.xor_self,
      BitVec.xor_zero]

theorem loadKey_slots {w z : Bool} {b : Bytes} (h : loadDenied s w = false)
    (hb : loadBytes w z s = some b) (ho : (oldGens s s.cry.sel.toNat).length < 2) :
    ∃ u, loadKey w z s = (0, u) ∧ (∀ j, j ≠ s.cry.sel.toNat → slotOf u j = slotOf s j) ∧
      ∃ m salt, m.length = b.length ∧ slotOf u s.cry.sel.toNat =
        { (slotOf s s.cry.sel.toNat).withKey b m with
          loaded := true, size256 := z, gen := (slotOf s s.cry.sel.toNat).gen + 1, salt := salt,
          ctr := 0 } := by
  have hslot (n j : Nat) (g : KeySlot → KeySlot) (v : State) :
      slotOf (startOps (keysLook (bump cKeyLoads scDevice n (modSlot s.cry.sel.toNat g v)))) j =
        if j = s.cry.sel.toNat then g (slotOf v s.cry.sel.toNat) else slotOf v j := by
    rw [slotOf_startOps, slotOf_cry (congrArg Cry.slots slots_keysLook),
      slotOf_cry (congrArg Cry.slots bump_cry), slotOf_mod]
  rw [loadKey_unwraps h, hb]
  refine ⟨_, if_neg (Nat.not_le.2 ho), fun j hj => ?_, natBytes b.length
    (Config.maskBits (rngDraw s).2.cry.masks).toNat, BitVec.ofNat 32 (rngDraw s).1,
    natBytes_length .., ?_⟩
  · rw [hslot, if_neg hj]
    rfl
  · rw [hslot, if_pos rfl]
    rfl

theorem exec_keyRequestCommit_load {w z : Bool} {r : BitVec 3} {u : State}
    (hq : s.cry.req = some (.load w z)) (hl : loadKey w z s = (r, u)) :
    exec .keyRequestCommit s = .next (keyDone r (if r = 0 then keyWritten u else u)) := by
  change execKeyRequestCommit s = _
  unfold execKeyRequestCommit
  rw [hq]
  dsimp only
  rw [hl]
  rfl

theorem keyRequestCommit_load {w z : Bool} (hq : s.cry.req = some (.load w z)) :
    let k := s.cry.sel.toNat
    let fin := fun (t : State) (r : BitVec 3) => t.cry.req = none ∧ t.cry.result = r ∧
      t.cry.data = List.replicate 40 0
    (loadDenied s w = true → Does .keyRequestCommit s fun t =>
      fin t 2 ∧ ∀ j, slotOf t j = slotOf s j) ∧
    (loadDenied s w = false → loadBytes w z s = none → Does .keyRequestCommit s fun t =>
      fin t 3 ∧ ∀ j, slotOf t j = slotOf s j) ∧
    (loadDenied s w = false → ∀ b, loadBytes w z s = some b → 2 ≤ (oldGens s k).length →
      Does .keyRequestCommit s fun t => fin t 5 ∧ ∀ j, slotOf t j = slotOf s j) ∧
    (loadDenied s w = false → ∀ b, loadBytes w z s = some b → (oldGens s k).length < 2 →
      Does .keyRequestCommit s fun t => fin t 0 ∧ (∀ j, j ≠ k → slotOf t j = slotOf s j) ∧
        (slotOf t k).key = b ∧ slotOf t k = { slotOf s k with
          share0 := (slotOf t k).share0, share1 := (slotOf t k).share1, loaded := true,
          size256 := z, ctr := 0, gen := (slotOf s k).gen + 1, salt := (slotOf t k).salt }) := by
  intro k fin
  refine ⟨fun h => does_next (exec_keyRequestCommit_load hq (loadKey_denied h))
      ⟨keyDone_fin, fun j => rfl⟩, fun h hb => ?_, fun h b hb ho => ?_, fun h b hb ho => ?_⟩
  · have hl := loadKey_unwraps (z := z) h
    rw [hb] at hl
    exact does_next (exec_keyRequestCommit_load hq hl)
      ⟨keyDone_fin, fun j => (slotOf_cry (congrArg Cry.slots bump_cry) :
        slotOf (bump cKeyUnwrapFail scDevice 1 s) j = slotOf s j)⟩
  · have hl := loadKey_unwraps (z := z) h
    rw [hb] at hl
    exact does_next (exec_keyRequestCommit_load hq (hl.trans (if_pos ho)))
      ⟨keyDone_fin, fun j => rfl⟩
  · obtain ⟨u, hl, hother, m, salt, hm, hk⟩ := loadKey_slots h hb ho
    have hslot (j : Nat) : slotOf (keyDone 0 (if (0 : BitVec 3) = 0 then keyWritten u else u)) j =
        slotOf u j := rfl
    refine does_next (exec_keyRequestCommit_load hq hl)
      ⟨keyDone_fin, fun j hj => (hslot j).trans (hother j hj), ?_, ?_⟩
    · rw [hslot, hk]
      exact xorShares_twice hm
    · rw [hslot, hk]
      rfl

/-- Settles O39. -/
theorem keyRegistersAndKeyRequests : Obligations.KeyRegistersAndKeyRequests := by
  intro s c up deaf writes fin blank
  refine ⟨fun v => keyAccess_writes
      (f := fun c => { c with sel := v.setWidth 7, data := List.replicate 40 0 }) rfl,
    fun w z => keyAccess_writes (f := fun c => { c with req := some (.load w z) }) rfl,
    keyAccess_writes (f := fun c => { c with req := some .erase }) rfl,
    keyAccess_writes (f := fun c => { c with req := some .eraseAll }) rfl,
    fun h => ?_, fun w z hq => keyRequestCommit_load hq, fun hq => ?_, fun hq => ?_⟩
  · change execKeyRequestCommit s = _
    unfold execKeyRequestCommit
    rw [show s.cry.req = none from h]
  · refine does_next (t := keyDone 0 (keyWritten (eraseSlots [s.cry.sel.toNat] s))) ?_
      ⟨keyDone_fin, fun j => ?_⟩
    · change execKeyRequestCommit s = _
      unfold execKeyRequestCommit
      rw [show s.cry.req = some .erase from hq]
      rfl
    · rw [slotOf_keyDone, slotOf_keyWritten, eraseSlots_slots (List.nodup_singleton _)]
      exact if_congr List.mem_singleton rfl rfl
  · refine does_next (t := keyDone 0 (keyWritten (eraseAll s))) ?_ ⟨keyDone_fin, fun j => ?_⟩
    · change execKeyRequestCommit s = _
      unfold execKeyRequestCommit
      rw [show s.cry.req = some .eraseAll from hq]
      rfl
    · rw [slotOf_keyDone, slotOf_keyWritten]
      exact (eraseSlots_slots List.nodup_range).trans (if_congr List.mem_range rfl rfl)

/-! The debug port. -/

/-- Settles O40, access by access. -/
theorem debugPortAnswersByItsState : Obligations.DebugPortAnswersByItsState := by
  intro s op sec gives
  have hgo (hd : s.pwr.st ≠ .deepFallow) {out : Out}
      (h : (if s.pwr.st = .deepFallow then .next s else out) = exec (.debugPortAccess op) s) :
      exec (.debugPortAccess op) s = out := h.symm.trans (if_neg hd)
  refine ⟨fun hd => if_pos hd, fun hd => ⟨?_, ?_, fun hopen => ?_, fun hlock hb hs hi => ?_, ?_⟩⟩
  · rintro (rfl | rfl)
    · exact does_next (hgo hd rfl) rfl
    · exact does_next (hgo hd rfl) rfl
  · rintro rfl
    exact does_next (hgo hd rfl) rfl
  · have ho : (s.sec.debug != .locked) = true := bne_iff_ne.2 hopen
    have gave {x : Sec} (h : exec (.debugPortAccess op) s =
        .next (if (s.sec.debug != .locked) = true then { s with sec := x } else s)) : gives x :=
      does_next (h.trans (congrArg _ (if_pos ho))) rfl
    refine ⟨?_, ?_, ?_, fun h t => ?_, fun h t => ?_, fun h t n r => ?_⟩
    all_goals
      rintro rfl
      exact gave (hgo hd rfl)
  · have ho : ¬ (s.sec.debug != .locked) = true := fun h => bne_iff_ne.1 h hlock
    have kept {x : Sec} (h : exec (.debugPortAccess op) s =
        .next (if (s.sec.debug != .locked) = true then { s with sec := x } else s)) :
        exec (.debugPortAccess op) s = .next s := h.trans (congrArg _ (if_neg ho))
    cases op with
    | bypass => exact absurd rfl hb
    | samplePreload => exact absurd rfl hs
    | idcode => exact absurd rfl hi
    | readSlot k => exact hgo hd rfl
    | _ => exact kept (hgo hd rfl)
  · rintro k rfl
    exact hgo hd rfl

end Sys2Proof.Machine

/-! The ends of cipher operations (spec/16). -/

namespace Sys2Proof.Machine
variable {s u v : State} {o : CryOp} {client : Fin 3} {P : State → Prop}

/-! An operation leaves the engine. -/

/-- The state in which operation `o` has ended, before the next ones start. -/
def opEnded (o : CryOp) (s : State) : State :=
  match o.started with
  | some k => if s.cry.stopped then cryNoOutput true o (dropOp o s) else cryDone o k.key (dropOp o s)
  | none => cryNoOutput s.cry.stopped o (dropOp o s)

theorem opEnded_unstarted (h : o.started = none) :
    opEnded o s = cryNoOutput s.cry.stopped o (dropOp o s) := by
  unfold opEnded
  rw [h]

theorem opEnded_stopped {k : CryStart} (h : o.started = some k) (hs : s.cry.stopped = true) :
    opEnded o s = cryNoOutput true o (dropOp o s) := by
  unfold opEnded
  rw [h]
  exact if_pos hs

theorem opEnded_ran {k : CryStart} (h : o.started = some k) (hs : s.cry.stopped = false) :
    opEnded o s = cryDone o k.key (dropOp o s) := by
  unfold opEnded
  rw [h]
  exact if_neg (Bool.eq_false_iff.1 hs)

theorem exec_cipherOpComplete (ho : nextOp s client = some o) :
    exec (.cipherOpComplete client) s = .next (startOps (opEnded o s)) := by
  change execCipherOpComplete client s = _
  unfold execCipherOpComplete
  rw [ho]
  rfl

/-- The engine's operations are those but `o`. -/
def OpGone (o : CryOp) (s u : State) : Prop :=
  u.cry.ops.map (·.id) = (s.cry.ops.filter (fun p => p.id != o.id)).map (·.id)

/-- What an operation's end leaves in the crypto block is what its leaving the engine left. -/
theorem op_ends (ho : nextOp s client = some o) (he : opEnded o s = v)
    (hc : v.cry = (dropOp o s).cry) (hP : P (startOps v)) :
    Does (.cipherOpComplete client) s fun u => OpGone o s u ∧ P u := by
  refine does_next (exec_cipherOpComplete ho) ?_
  rw [he]
  refine ⟨startOps_ids.1.trans ?_, hP⟩
  rw [hc]
  rfl

/-! CIPHER calls. -/

/-- The bytes `b` put at `i` of a thread's packet. -/
def putPacket (i : Nat) (b : Bytes) (y : Thread) : Thread :=
  setThreadBytes (decide (i < y.win.length) && !b.isEmpty) (patch (threadBytes y) i b) y

section
variable {h t n st vd fn txt tag len : Nat} {f : Thread → Thread}

theorem tine_ends (ho : nextOp s client = some o)
    (hw : (threadOf s h t n).wait = some (.cipher vd fn txt tag len none))
    (he : opEnded o s = tineAnswer h t n st f v) (hc : v.cry = (dropOp o s).cry)
    (ht : threadOf v = threadOf s) : Does (.cipherOpComplete client) s fun u => OpGone o s u ∧
      threadOf u h t n =
        { f (threadOf s h t n) with wait := some (.cipher vd fn txt tag len (some st)) } := by
  obtain ⟨hids, hth⟩ := cipher_ends (s := s) (v := v) (o := o) (st := st) (f := f) (by rw [hc]; rfl) ht hw
  refine does_next (exec_cipherOpComplete ho) ?_
  rw [he]
  exact ⟨hids, hth⟩

theorem cryNoOutput_tine {abort : Bool} (hd : o.dst = .tine h t n) : cryNoOutput abort o s =
    tineAnswer h t n (if abort then 3 else 2) id
      (if abort then bump cCryAborted scDevice 1 s else s) := by
  unfold cryNoOutput
  rw [hd]

/-- A call that ends without output answers its status. -/
theorem tine_noOutput {abort : Bool} (ho : nextOp s client = some o) (hd : o.dst = .tine h t n)
    (hw : (threadOf s h t n).wait = some (.cipher vd fn txt tag len none))
    (he : opEnded o s = cryNoOutput abort o (dropOp o s)) :
    Does (.cipherOpComplete client) s fun u => OpGone o s u ∧ threadOf u h t n =
      { threadOf s h t n with
        wait := some (.cipher vd fn txt tag len (some (if abort then 3 else 2))) } := by
  refine tine_ends (f := id) ho hw (he.trans (cryNoOutput_tine hd)) ?_ ?_
  · cases abort
    · rfl
    · exact (bump_cry : (bump cCryAborted scDevice 1 (dropOp o s)).cry = _)
  · cases abort
    · rfl
    · exact (threadOf_bump : threadOf (bump cCryAborted scDevice 1 (dropOp o s)) = _)

theorem cryDone_tine {key : Bytes} (hd : o.dst = .tine h t n)
    (hw : (threadOf s h t n).wait = some (.cipher vd fn txt tag len none)) :
    cryDone o key s = match runOp o key with
      | none => tineAnswer h t n 1 id s
      | some (text, g) =>
        if fn = 0 then
          tineAnswer h t n 0 (fun x => putPacket tag (g.take len) (putPacket txt text x)) s
        else if fn = 1 then tineAnswer h t n 0 (putPacket txt text) s
        else if fn = 2 ∨ fn = 4 then tineAnswer h t n 0 (putPacket tag (g.take len)) s
        else if fn = 3 then tineAnswer h t n 0 id s
        else tineAnswer h t n (if g.take len = o.tag then 0 else 1) id s := by
  unfold cryDone
  rw [hd]
  dsimp only
  unfold tineCipherDone
  rw [hw]
  rfl

/-- What each CIPHER call leaves in its thread (Tables 13-8 and 13-9). -/
theorem tine_completes (ho : nextOp s client = some o) (hd : o.dst = .tine h t n)
    (hw : (threadOf s h t n).wait = some (.cipher vd fn txt tag len none)) :
    let x := threadOf s h t n
    let ends := fun (st : Nat) (y : Thread) => Does (.cipherOpComplete client) s fun u =>
      OpGone o s u ∧ threadOf u h t n = { y with wait := some (.cipher vd fn txt tag len (some st)) }
    (o.started = none → ends (if s.cry.stopped then 3 else 2) x) ∧
    (∀ k, o.started = some k →
      (s.cry.stopped = true → ends 3 x) ∧
      (s.cry.stopped = false → runOp o k.key = none → ends 1 x) ∧
      (s.cry.stopped = false → ∀ text mac, runOp o k.key = some (text, mac) →
        (fn = 0 → ends 0 (putPacket tag (mac.take len) (putPacket txt text x))) ∧
        (fn = 1 → ends 0 (putPacket txt text x)) ∧
        (fn = 2 ∨ fn = 4 → ends 0 (putPacket tag (mac.take len) x)) ∧
        (fn = 3 → ends 0 x) ∧
        (fn = 5 → ends (if mac.take len = o.tag then 0 else 1) x))) := by
  intro x ends
  have hran {k : CryStart} (hk : o.started = some k) (hs : s.cry.stopped = false) :=
    (opEnded_ran hk hs).trans (cryDone_tine (s := dropOp o s) (key := k.key) hd hw)
  have done {st : Nat} {f : Thread → Thread}
      (he : opEnded o s = tineAnswer h t n st f (dropOp o s)) : ends st (f x) :=
    tine_ends ho hw he rfl rfl
  refine ⟨fun hk => tine_noOutput ho hd hw (opEnded_unstarted hk), fun k hk =>
    ⟨fun hs => tine_noOutput ho hd hw (opEnded_stopped hk hs), fun hs hr => ?_,
      fun hs text mac hr => ?_⟩⟩
  · have he := hran hk hs
    rw [hr] at he
    exact done (f := id) he
  · have he := hran hk hs
    rw [hr] at he
    refine ⟨?_, ?_, ?_, ?_, ?_⟩
    · rintro rfl
      exact done (f := fun x => putPacket tag (mac.take len) (putPacket txt text x)) he
    · rintro rfl
      exact done (f := putPacket txt text) he
    · rintro (rfl | rfl)
      · exact done (f := putPacket tag (mac.take len)) he
      · exact done (f := putPacket tag (mac.take len)) he
    · rintro rfl
      exact done (f := id) he
    · rintro rfl
      exact done (f := id) he

end

/-! Downstream lots. -/

section
variable {g : Nat} {r : Rel}

/-- The group when its one released lot has gone on. -/
theorem relLook_single {st : RelStep} (hr : (groupOf s g).released = [{ r with step := st }])
    (hgap : r.gap = false) :
    (st = .gone → relLook g s = modGroup g (fun y => { y with released := [] }) s) ∧
    (∀ b, st = .clear b → relLook g s = modGroup g (fun y => { y with released := [] })
      (lotClear g r.lot b r.boundaries s)) := by
  have hdrain (b : Bool) (w : State) (hb : b = false) :
      (if b = true then abandonContexts g w else w) = w := if_neg (Bool.eq_false_iff.1 hb)
  have hstart (hst : st ≠ .arriving) :
      relStart g [{ r with step := st }] s = ([{ r with step := st }], s) := by
    unfold relStart
    rw [if_neg fun hc => hst hc.2]
    rfl
  refine ⟨?_, ?_⟩
  · rintro rfl
    unfold relLook
    rw [hr, hstart (fun h => nomatch h)]
    dsimp only
    unfold relDrain
    dsimp only
    rw [hdrain _ _ hgap]
    rfl
  · rintro b rfl
    unfold relLook
    rw [hr, hstart (fun h => nomatch h)]
    dsimp only
    unfold relDrain
    dsimp only
    rw [hdrain _ _ hgap]
    rfl

theorem released_stepped {key : LotKey} {st : RelStep} (hr : (groupOf s g).released = [r])
    (hkey : r.lot.key = key) (hstep : r.step = .cipher) :
    (groupOf (modGroup g (fun y => { y with released := y.released.map (fun r =>
      if r.lot.key = key ∧ r.step = .cipher then { r with step := st } else r) }) s) g).released =
      [{ r with step := st }] := by
  rw [groupOf_modGroup, if_pos rfl]
  dsimp only
  rw [hr, List.map_singleton, if_pos ⟨hkey, hstep⟩]

/-- A lot that the engine discards leaves its group, and nothing else happens of it. -/
theorem relCipherDone_gone {key : LotKey} (hr : (groupOf s g).released = [r])
    (hkey : r.lot.key = key) (hstep : r.step = .cipher) (hgap : r.gap = false) :
    (groupOf (relCipherDone g key .gone s) g).released = [] ∧
    Only [.groups] s (relCipherDone g key .gone s) := by
  unfold relCipherDone
  rw [(relLook_single (released_stepped hr hkey hstep) hgap).1 rfl]
  refine ⟨?_, only_modGroup (by decide) (only_modGroup (by decide) (Only.refl s))⟩
  rw [groupOf_modGroup, if_pos rfl]

/-- A lot in the clear leaves its group for what waits for it. -/
theorem relCipherDone_clear {key : LotKey} {b : Bytes} (hr : (groupOf s g).released = [r])
    (hkey : r.lot.key = key) (hstep : r.step = .cipher) (hgap : r.gap = false) :
    (groupOf (relCipherDone g key (.clear b) s) g).released = [] ∧
    (relCipherDone g key (.clear b) s).cry = s.cry := by
  unfold relCipherDone
  rw [(relLook_single (released_stepped hr hkey hstep) hgap).2 b rfl]
  refine ⟨?_, ?_⟩
  · rw [groupOf_modGroup, if_pos rfl]
  · exact only_modGroup (ps := [.groups, .reasm, .toTime, .toReeve, .inQ, .sup, .qos, .pwr, .life, .win,
      .i3c, .reeve, .counters, .freeCtr]) (by decide) (only_lotClear (by decide)
        (only_modGroup (by decide) (Only.refl s))) .cry (by decide)

theorem groupOf_startOps {j : Nat} : groupOf (startOps s) j = groupOf s j := by
  unfold groupOf
  rw [startOps_rest .groups (by decide)]

/-- The end of a lot's operation whose lot is discarded; `w` is the state with the reason counted. -/
theorem rxLot_gone {lot : Lot} {w : State} (ho : nextOp s client = some o)
    (hr : (groupOf s g).released = [r]) (hkey : r.lot.key = lot.key) (hstep : r.step = .cipher)
    (hgap : r.gap = false) (hw : Only counting (dropOp o s) w)
    (he : opEnded o s = relCipherDone g lot.key .gone w) :
    Does (.cipherOpComplete client) s fun u => OpGone o s u ∧ (groupOf u g).released = [] ∧
      u.reasm = s.reasm ∧ u.toTime = s.toTime ∧ u.toReeve = s.toReeve ∧ u.inQ = s.inQ := by
  have hgroup : (groupOf w g).released = [r] := by
    unfold groupOf
    rw [hw .groups (by decide)]
    exact hr
  obtain ⟨hrel, ho'⟩ := relCipherDone_gone hgroup hkey hstep hgap
  have hall : Only (.groups :: counting) (dropOp o s) (relCipherDone g lot.key .gone w) :=
    only_trans (hw.mono (by decide)) (ho'.mono (by decide))
  refine op_ends ho he (hall .cry (by decide)) ⟨?_, ?_, ?_, ?_, ?_⟩
  · rw [groupOf_startOps, hrel]
  · exact (startOps_rest .reasm (by decide)).trans (hall .reasm (by decide))
  · exact (startOps_rest .toTime (by decide)).trans (hall .toTime (by decide))
  · exact (startOps_rest .toReeve (by decide)).trans (hall .toReeve (by decide))
  · exact (startOps_rest .inQ (by decide)).trans (hall .inQ (by decide))

theorem rxLot_completes {lot : Lot} {k : CryStart} (ho : nextOp s client = some o)
    (hd : o.dst = .rxLot g lot) (hk : o.started = some k) (hr : (groupOf s g).released = [r])
    (hkey : r.lot.key = lot.key) (hstep : r.step = .cipher) (hgap : r.gap = false) :
    (s.cry.stopped = true ∨ runOp o k.key = none →
      Does (.cipherOpComplete client) s fun u => OpGone o s u ∧ (groupOf u g).released = [] ∧
        u.reasm = s.reasm ∧ u.toTime = s.toTime ∧ u.toReeve = s.toReeve ∧ u.inQ = s.inQ) ∧
    (s.cry.stopped = false → ∀ b, runOp o k.key = some b →
      Does (.cipherOpComplete client) s fun u => OpGone o s u ∧ (groupOf u g).released = []) := by
  refine ⟨fun h => ?_, fun hs b hb => ?_⟩
  · by_cases hs : s.cry.stopped = true
    · refine rxLot_gone (w := bump cNoKey (scLot (bits lot.hdr.toNat 63 48)) 1
        (bump cCryAborted scDevice 1 (dropOp o s))) ho hr hkey hstep hgap
        (only_bump (by decide) (only_bump (by decide) (Only.refl _))) ((opEnded_stopped hk hs).trans ?_)
      unfold cryNoOutput
      rw [hd]
      rfl
    · refine rxLot_gone (w := bump cAuthFail (scLot (bits lot.hdr.toNat 63 48)) 1 (dropOp o s))
        ho hr hkey hstep hgap (only_bump (by decide) (Only.refl _))
        ((opEnded_ran hk (Bool.eq_false_iff.2 hs)).trans ?_)
      unfold cryDone
      rw [hd, h.resolve_left hs]
  · obtain ⟨hrel, hcry⟩ := relCipherDone_clear (s := dropOp o s) (b := b.1) hr hkey hstep hgap
    refine op_ends ho ((opEnded_ran hk hs).trans ?_) hcry ?_
    · unfold cryDone
      rw [hd, hb]
    · rw [groupOf_startOps, hrel]

end

/-! Upstream lots and messages. -/

theorem usLaneOf_startOps {x : Nat} : usLaneOf (startOps s) x = usLaneOf s x := by
  unfold usLaneOf
  rw [startOps_rest .us (by decide)]

/-- No lot of lane `x` waits for operation `id`. -/
def LotsFree (x id : Nat) (s : State) : Prop :=
  ∀ b ∈ (usLaneOf s x).bursts, ∀ l ∈ b.lots, l.cipher ≠ some id

theorem LotsFree.lanes {x id : Nat} (h : LotsFree x id s) (hu : u.us.lane = s.us.lane) :
    LotsFree x id u := by
  unfold LotsFree usLaneOf
  rw [hu]
  exact h

theorem LotsFree.startOps {x id : Nat} (h : LotsFree x id s) : LotsFree x id (startOps s) :=
  h.lanes (congrArg (·.lane) (startOps_rest .us (by decide)))

/-- Lots changed one by one, none of which comes to wait for the operation. -/
theorem LotsFree.map {x id y : Nat} {f : TxLot → TxLot} (h : LotsFree x id s)
    (hf : ∀ l, l.cipher ≠ some id → (f l).cipher ≠ some id) :
    LotsFree x id (modUsLane y (fun l => { l with bursts := l.bursts.map (fun b =>
      { b with lots := b.lots.map f }) }) s) := by
  intro b hb l hl
  rw [usLaneOf_modUsLane] at hb
  by_cases hxy : x = y
  · rw [if_pos hxy] at hb
    obtain ⟨b', hb', rfl⟩ := List.mem_map.1 hb
    obtain ⟨l', hl', rfl⟩ := List.mem_map.1 hl
    exact hf l' (h b' (by rw [hxy]; exact hb') l' hl')
  · rw [if_neg hxy] at hb
    exact h b hb l hl

theorem LotsFree.loseFrame {x id q : Nat} (h : LotsFree x id s) : LotsFree x id (loseFrame q s) := by
  have hends {y : Nat} {w : State} (hw : LotsFree x id w) : LotsFree x id (modUsLane y (fun l =>
      { l with bursts := l.bursts.map (fun b => { b with lots := b.lots.map (fun t =>
        if t.queue == some q && decide (bits t.hdr.toNat 25 24 = 1) then { t with ends := none }
        else t) }) }) w) := by
    refine hw.map fun l hl => ?_
    split
    · exact hl
    · exact hl
  unfold Machine.loseFrame
  dsimp only
  split
  · exact hends (hends h)
  · split
    · split
      · exact h.lanes (congrArg (·.lane) (only_freeBushels (ps := [.qos, .pwr, .freeCtr]) (by decide)
          (Only.refl _) .us (by decide)))
      · exact h
    · exact h

/-- What is made of the lot that waits for an operation waits for it no more. -/
theorem modTxCipher_free {x id : Nat} {f : TxLot → TxLot} (hf : ∀ t, (f t).cipher = none) :
    LotsFree x id (modTxCipher x id f s) := by
  intro b hb l hl
  unfold modTxCipher at hb
  rw [usLaneOf_modUsLane, if_pos rfl] at hb
  obtain ⟨b', hb', rfl⟩ := List.mem_map.1 hb
  obtain ⟨l', hl', rfl⟩ := List.mem_map.1 hl
  split
  · rw [hf]
    exact (Option.some_ne_none id).symm
  · rename_i hne
    exact fun he => hne (beq_iff_eq.2 he)

theorem loseTxLot_free {x id : Nat} : LotsFree x id (loseTxLot x id s) := by
  have heach (L : List (BitVec 64 × TxLot)) (w : State) (hw : LotsFree x id w) :
      LotsFree x id (each (fun (p : BitVec 64 × TxLot) s =>
        let s' := if p.2.num then s
          else { s with us := { s.us with ghosts := s.us.ghosts ++ [(x, p.1)] } }
        match p.2.queue with
        | some q => if bits p.2.hdr.toNat 25 24 % 2 = 0 then Machine.loseFrame q s' else s'
        | none => s') L w) := by
    induction L generalizing w with
    | nil => exact hw
    | cons p L ih =>
      refine ih _ ?_
      have hs' : LotsFree x id (if p.2.num then w
          else { w with us := { w.us with ghosts := w.us.ghosts ++ [(x, p.1)] } }) := by
        split
        · exact hw
        · exact hw
      dsimp only
      split
      · split
        · exact hs'.loseFrame
        · exact hs'
      · exact hs'
  unfold loseTxLot
  exact heach _ _ (modTxCipher_free fun _ => rfl)

/-- The lot with its payload encrypted under the operation's key; a number it has is put in. -/
def sealedLot (key nonce : Bytes) (t : TxLot) : TxLot :=
  let t' := { t with cipher := none, ready := true, keyNonce := some (key, nonce) }
  if t.num then numberLot (bits t.hdr.toNat 21 10) t' else t'

theorem sealedLot_facts {key nonce : Bytes} {t : TxLot} : (sealedLot key nonce t).cipher = none ∧
    (sealedLot key nonce t).queue = t.queue ∧ (sealedLot key nonce t).ends = t.ends := by
  unfold sealedLot
  dsimp only
  split
  · exact ⟨numberLot_facts.2.2, numberLot_facts.1, numberLot_facts.2.1⟩
  · exact ⟨rfl, rfl, rfl⟩

theorem modTxCipher_kept {x id : Nat} {f : TxLot → TxLot}
    (hf : ∀ t, (f t).queue = t.queue ∧ (f t).ends = t.ends) :
    (usLaneOf (modTxCipher x id f s) x).bursts.map (·.lots.map fun l => (l.queue, l.ends)) =
      (usLaneOf s x).bursts.map (·.lots.map fun l => (l.queue, l.ends)) := by
  unfold modTxCipher
  rw [usLaneOf_modUsLane, if_pos rfl, List.map_map]
  refine List.map_congr_left fun b _ => ?_
  dsimp only [Function.comp]
  rw [List.map_map]
  refine List.map_congr_left fun t _ => ?_
  dsimp only [Function.comp]
  split
  · rw [(hf t).1, (hf t).2]
  · rfl

theorem txLot_completes {x : Nat} {k : CryStart} (ho : nextOp s client = some o)
    (hd : o.dst = .txLot x) (hk : o.started = some k) (hs : s.cry.stopped = false) :
    Does (.cipherOpComplete client) s fun u => OpGone o s u ∧
      (∀ b ∈ (usLaneOf u x).bursts, ∀ l ∈ b.lots, l.cipher ≠ some o.id) ∧
      (txCipherLate s x o.id = false → (usLaneOf u x).bursts.map (·.lots.map (fun l =>
        (l.queue, l.ends))) = (usLaneOf s x).bursts.map (·.lots.map (fun l => (l.queue, l.ends)))) := by
  have he : opEnded o s = if txCipherLate s x o.id then
      loseTxLot x o.id (bump cCryTxLate (scLtx x) 1 (dropOp o s))
      else modTxCipher x o.id (sealedLot k.key o.nonce) (dropOp o s) := by
    refine (opEnded_ran hk hs).trans ?_
    unfold cryDone
    rw [hd]
    rfl
  by_cases hl : txCipherLate s x o.id = true
  · rw [if_pos hl] at he
    refine op_ends ho he ?_ ⟨LotsFree.startOps loseTxLot_free,
      fun h => Bool.noConfusion (hl.symm.trans h)⟩
    exact (only_loseTxLot (ps := [.us, .qos, .pwr, .freeCtr]) (by decide) (Only.refl _) .cry
        (by decide)).trans bump_cry
  · rw [if_neg hl] at he
    refine op_ends ho he rfl ⟨LotsFree.startOps (modTxCipher_free fun t => sealedLot_facts.1),
      fun _ => ?_⟩
    rw [usLaneOf_startOps]
    exact modTxCipher_kept fun t => sealedLot_facts.2

theorem txMsg_completes {x : Nat} {k : CryStart} {a b : Bytes} (ho : nextOp s client = some o)
    (hd : o.dst = .txMsg x) (hk : o.started = some k) (hs : s.cry.stopped = false)
    (hr : runOp o k.key = some (a, b)) :
    Does (.cipherOpComplete client) s fun u => OpGone o s u ∧
      (usLaneOf u x).bursts = (usLaneOf s x).bursts.map (fun y =>
        if y.msgOp = some o.id then
          { y with msg := y.msg.map (· ++ b.take 8), msgOp := none, msgBack := none }
        else y) := by
  refine op_ends (v := tagTxMsg x o.id b (dropOp o s)) ho ((opEnded_ran hk hs).trans ?_) rfl ?_
  · unfold cryDone
    rw [hd, hr]
    rfl
  · rw [usLaneOf_startOps]
    unfold tagTxMsg modTxMsg
    rw [usLaneOf_modUsLane, if_pos rfl]
    exact List.map_congr_left fun y _ => if_congr beq_iff_eq rfl rfl

/-! CRY_SEAL and CRY_UNSEAL. -/

/-- The command as an answer that waited for the engine names it. -/
def sealCmd (tag : BitVec 16) : Cmd :=
  { src := .mailbox, tag := tag, mirror := false, atSwath := false, rsvd := 0, payload := [] }

theorem Replied.startOps {op st : Nat} {c : Cmd} {p : Bytes} (h : Replied op c st p s) :
    Replied op c st p (startOps s) := by
  unfold Replied
  rw [startOps_rest .win (by decide), startOps_rest .reeve (by decide)]
  exact h

theorem sealAnswer_replied {op tag : BitVec 16} {r : Reply} {id : Nat}
    (hf : s.reeve.sealing.find? (fun p => p.1 == id) = some (id, op, tag)) :
    Replied op.toNat (sealCmd tag) r.status r.payload (sealAnswer id r s) ∧
    (sealAnswer id r s).cry = s.cry := by
  have hcry : (sealAnswer id r s).cry = s.cry :=
    only_sealAnswer (ps := [.act, .win, .i3c, .reeve]) (by decide) (Only.refl s) .cry (by decide)
  refine ⟨?_, hcry⟩
  unfold sealAnswer
  rw [hf]
  exact (answer_mailbox rfl).1

theorem command_ends {op tag : BitVec 16} {r : Reply} (ho : nextOp s client = some o)
    (hf : s.reeve.sealing.find? (fun p => p.1 == o.id) = some (o.id, op, tag))
    (hv : Only counting (dropOp o s) v) (hq : v.reeve.sealing = s.reeve.sealing)
    (he : opEnded o s = sealAnswer o.id r v) :
    Does (.cipherOpComplete client) s fun u => OpGone o s u ∧
      Replied op.toNat (sealCmd tag) r.status r.payload u := by
  obtain ⟨hrep, hcry⟩ := sealAnswer_replied (s := v) (r := r) (by rw [hq]; exact hf)
  exact op_ends ho he (hcry.trans (hv .cry (by decide))) hrep.startOps

theorem raise_sealing {code : BitVec 16} {i d : Nat} :
    (raise code i d s).reeve.sealing = s.reeve.sealing := by
  unfold raise
  rw [postEvent_reeve]

theorem bump_sealing {c : CtrId} {a n : Nat} (hb : c.bin = none) :
    (bump c a n s).reeve.sealing = s.reeve.sealing := by
  have hlife : (lifeTotal c a n (bumpRaw c a n s)).reeve = s.reeve :=
    only_lifeTotal (ps := [.counters, .life]) (by decide) (only_bumpRaw (by decide) (Only.refl s)) .reeve
      (by decide)
  unfold bump
  dsimp only
  split
  · rfl
  · rw [hb]
    dsimp only
    split
    · rw [raise_sealing, hlife]
    · rw [hlife]

theorem command_completes {op tag : BitVec 16} (ho : nextOp s client = some o)
    (hd : o.dst = .command)
    (hf : s.reeve.sealing.find? (fun p => p.1 == o.id) = some (o.id, op, tag)) :
    let answers := fun (st : Nat) (p : Bytes) => Does (.cipherOpComplete client) s fun u =>
      OpGone o s u ∧ Replied op.toNat (sealCmd tag) st p u
    (o.started = none → answers 5 [if s.cry.stopped then 3 else 2, 0, 0, 0]) ∧
    (∀ k, o.started = some k →
      (s.cry.stopped = true → answers 5 [3, 0, 0, 0]) ∧
      (s.cry.stopped = false → runOp o k.key = none → answers 5 [1, 0, 0, 0]) ∧
      (s.cry.stopped = false → ∀ b g, runOp o k.key = some (b, g) →
        answers 0 (if o.mode = .seal then o.nonce ++ b ++ g else b))) := by
  intro answers
  have hstop (he : opEnded o s = cryNoOutput true o (dropOp o s)) : answers 5 [3, 0, 0, 0] := by
    refine command_ends (v := bump cCryAborted scDevice 1 (dropOp o s)) (r := ⟨5, [3, 0, 0, 0], false⟩)
      ho hf (only_bump (by decide) (Only.refl _)) (bump_sealing rfl) (he.trans ?_)
    unfold cryNoOutput
    rw [hd]
    rfl
  refine ⟨fun hk => ?_, fun k hk => ⟨fun hs => hstop (opEnded_stopped hk hs), fun hs hr => ?_,
    fun hs b g hr => ?_⟩⟩
  · have he := opEnded_unstarted (s := s) hk
    by_cases hs : s.cry.stopped = true
    · rw [hs] at he
      rw [if_pos hs]
      exact hstop he
    · rw [Bool.not_eq_true] at hs
      rw [hs] at he ⊢
      refine command_ends (v := dropOp o s) (r := ⟨5, [2, 0, 0, 0], false⟩) ho hf (Only.refl _) rfl
        (he.trans ?_)
      unfold cryNoOutput
      rw [hd]
      rfl
  · refine command_ends (v := dropOp o s) (r := ⟨5, [1, 0, 0, 0], false⟩) ho hf (Only.refl _) rfl
      ((opEnded_ran hk hs).trans ?_)
    unfold cryDone
    rw [hd, hr]
    rfl
  · refine command_ends (v := dropOp o s)
      (r := { status := 0, payload := if o.mode = .seal then o.nonce ++ b ++ g else b }) ho hf
      (Only.refl _) rfl ((opEnded_ran hk hs).trans ?_)
    unfold cryDone
    rw [hd, hr]

end Sys2Proof.Machine

/-! The random bit generator, and the end of entropy (spec/16). -/

namespace Sys2Proof.Machine
variable {s t u : State}

/-! Starting operations. -/

theorem each_fixed {α : Type} {f : α → State → State} (hf : ∀ x, f x s = s) :
    ∀ l : List α, each f l s = s
  | [] => rfl
  | x :: l => (congrArg (each f l) (hf x)).trans (each_fixed hf l)

/-- A start of operations moves neither the generator's state nor the next number. -/
def Generator (s t : State) : Prop :=
  t.cry.reseedAt = s.cry.reseedAt ∧ t.cry.entropyFailed = s.cry.entropyFailed ∧
  t.cry.stopped = s.cry.stopped

theorem Generator.trans (h : Generator s t) (h' : Generator t u) : Generator s u := by
  obtain ⟨h1, h2, h3⟩ := h
  obtain ⟨k1, k2, k3⟩ := h'
  exact ⟨k1.trans h1, k2.trans h2, k3.trans h3⟩

theorem startOp_generator {o : CryOp} : Generator s (startOp o s) := by
  unfold startOp
  split
  · exact ⟨rfl, rfl, rfl⟩
  · split
    · exact ⟨rfl, rfl, rfl⟩
    · exact ⟨rfl, rfl, rfl⟩

theorem startNext_generator {c : Nat} : Generator s (match nextOp s c with
    | some o => startOp o s
    | none => s) := by
  split
  · exact startOp_generator
  · exact ⟨rfl, rfl, rfl⟩

theorem startOps_generator : Generator s (startOps s) :=
  (startNext_generator.trans startNext_generator).trans startNext_generator

theorem startOps_stopped (h : s.cry.stopped = true) : startOps s = s :=
  each_fixed (fun c => by
    split
    · exact if_pos (Bool.or_eq_true_iff.2 (.inr h))
    · rfl) _

theorem startOps_empty (h : s.cry.ops = []) : startOps s = s :=
  each_fixed (fun c => by
    have hc : nextOp s c = none := by
      unfold nextOp clientOps
      rw [h]
      rfl
    rw [hc]) _

/-! DRBG_RESEED. -/

/-- The state after a reseed, before the operations that waited for it start. -/
def reseeded (s : State) : State :=
  { s with cry := { s.cry with
      requests := 0, reseedAt := now s, entropyFailed := false, stopped := false } }

theorem drbgReseed_due (hd : reseedDue s = true) :
    (Does (.drbgReseed true) s fun t => t.cry.reseedAt = now s ∧ t.cry.entropyFailed = false ∧
      t.cry.stopped = false ∧ t.cry.slots = s.cry.slots ∧
      t.cry.ops.map (·.id) = s.cry.ops.map (·.id) ∧ (s.cry.ops = [] → t.cry.requests = 0)) ∧
    (s.cry.entropyFailed = false → Does (.drbgReseed false) s fun t =>
      t.cry = { s.cry with entropyFailed := true }) ∧
    (s.cry.entropyFailed = true → exec (.drbgReseed false) s = .next s) := by
  have hdue {out : Out} {ok : Bool}
      (h : (if !reseedDue s then .next s else out) = exec (.drbgReseed ok) s) :
      exec (.drbgReseed ok) s = out := h.symm.trans (if_neg (by
    rw [hd]
    exact Bool.false_ne_true))
  refine ⟨?_, fun hf => ?_, fun hf => (hdue rfl).trans ((if_neg Bool.false_ne_true).trans (if_pos hf))⟩
  · obtain ⟨h1, h2, h3⟩ := startOps_generator (s := reseeded s)
    refine does_next ((hdue rfl).trans (if_pos rfl)) ⟨h1, h2, h3, startOps_ids.2, startOps_ids.1,
      fun he => congrArg (·.cry.requests) (startOps_empty (s := reseeded s) he)⟩
  · refine does_next ((hdue rfl).trans ((if_neg Bool.false_ne_true).trans
      (if_neg (Bool.eq_false_iff.1 hf)))) ?_
    rw [only_raise (ps := raising) (by decide) (Only.refl _) .cry (by decide), bump_cry]

/-! ENTROPY_EXHAUSTED. -/

/-- The engine has stopped, and every operation that it has was handed to it as number `n` or later. -/
def StoppedFrom (n : Nat) (s : State) : Prop :=
  s.cry.stopped = true ∧ n ≤ s.cry.nextId ∧ ∀ o ∈ s.cry.ops, n ≤ o.id

section
variable {n : Nat}

theorem StoppedFrom.only {ps : List Part} (h : StoppedFrom n s) (ho : Only ps s t) (hp : .cry ∉ ps) :
    StoppedFrom n t := by
  unfold StoppedFrom
  rw [ho .cry hp]
  exact h

theorem StoppedFrom.ite {p : Prop} [Decidable p] (h : StoppedFrom n s) (h' : StoppedFrom n t) :
    StoppedFrom n (if p then s else t) := by
  split
  · exact h
  · exact h'

theorem StoppedFrom.bump {c : CtrId} {a k : Nat} (h : StoppedFrom n s) :
    StoppedFrom n (bump c a k s) :=
  h.only (ps := counting) (only_bump (by decide) (Only.refl s)) (by decide)

theorem StoppedFrom.issueOp {o : CryOp} (h : StoppedFrom n s) : StoppedFrom n (issueOp o s).2 := by
  obtain ⟨hs, hn, hops⟩ := h
  unfold Machine.issueOp
  dsimp only
  rw [startOps_stopped (s := { s with cry := { s.cry with
    ops := s.cry.ops ++ [{ o with id := s.cry.nextId }], nextId := s.cry.nextId + 1 } }) hs]
  refine ⟨hs, Nat.le_succ_of_le hn, fun p hp => ?_⟩
  rcases List.mem_append.1 hp with hp | hp
  · exact hops p hp
  · rw [List.mem_singleton.1 hp]
    exact hn

theorem StoppedFrom.lotCipher {g : Nat} {lot : Lot} (h : StoppedFrom n s) :
    StoppedFrom n (lotCipher g lot s).2 := by
  unfold Machine.lotCipher
  dsimp only
  split
  · exact h.bump
  · split
    · exact h.bump
    · split
      · exact h.bump
      · exact h.issueOp

theorem StoppedFrom.plmLot {i : Nat} {b : Bool} (h : StoppedFrom n s) : StoppedFrom n (plmLot i b s) :=
  h.only (ps := [.sup, .life, .win, .i3c, .reeve, .counters])
    (only_plmLot (by decide) (Only.refl s)) (by decide)

theorem StoppedFrom.processLot {g : Nat} {lot : Lot} (h : StoppedFrom n s) :
    StoppedFrom n (processLot g lot s).2 := by
  unfold Machine.processLot
  dsimp only
  split
  · exact h.bump
  · split
    · exact h.bump
    · split
      · exact h.bump
      · split
        · exact h.bump.bump.plmLot
        · split
          · exact h.bump.plmLot
          · split
            · exact h.plmLot.bump
            · split
              · exact h.plmLot.lotCipher
              · split
                · exact h.plmLot.bump
                · exact h.plmLot

theorem StoppedFrom.relStart {g : Nat} : ∀ {L : List Rel} {s : State}, StoppedFrom n s →
    StoppedFrom n (relStart g L s).2
  | [], _, h => h
  | r :: L, s, h => by
    unfold Machine.relStart
    have hr : StoppedFrom n
        (if r.lot.whole = true ∧ r.step = .arriving then Machine.processLot g r.lot s else (r.step, s)).2 := by
      split
      · exact h.processLot
      · exact h
    exact hr.relStart

theorem StoppedFrom.relLook {g : Nat} (h : StoppedFrom n s) : StoppedFrom n (relLook g s) := by
  unfold Machine.relLook
  exact (h.relStart (g := g) (L := (groupOf s g).released)).only (ps := [.groups, .reasm, .toTime,
    .toReeve, .inQ, .sup, .qos, .pwr, .life, .win, .i3c, .reeve, .counters, .freeCtr])
    (only_modGroup (by decide) (only_relDrain (by decide) (Only.refl _))) (by decide)

theorem StoppedFrom.cryNoOutput {o : CryOp} (h : StoppedFrom n s) :
    StoppedFrom n (cryNoOutput true o s) := by
  have hb : StoppedFrom n (Machine.bump cCryAborted scDevice 1 s) := h.bump
  unfold Machine.cryNoOutput
  dsimp only
  rw [if_pos rfl]
  generalize Machine.bump cCryAborted scDevice 1 s = u at hb
  cases o.dst with
  | rxLot g lot =>
    have hg : StoppedFrom n (modGroup g (fun y => { y with released := y.released.map (fun r =>
        if r.lot.key = lot.key ∧ r.step = .cipher then { r with step := .gone } else r) })
        (Machine.bump cNoKey (scLot (bits lot.hdr.toNat 63 48)) 1 u)) :=
      hb.bump.only (ps := [.groups]) (only_modGroup (by decide) (Only.refl _)) (by decide)
    exact hg.relLook
  | txLot x =>
    exact hb.only (ps := [.us, .qos, .pwr, .freeCtr]) (only_loseTxLot (by decide) (Only.refl u)) (by decide)
  | txMsg x => exact hb.only (ps := [.us, .act]) (only_loseTxMsg (by decide) (Only.refl u)) (by decide)
  | tine h t n => exact hb.only (ps := [.tine]) (only_tineAnswer (by decide) (Only.refl u)) (by decide)
  | command =>
    exact hb.only (ps := [.act, .win, .i3c, .reeve]) (only_sealAnswer (by decide) (Only.refl u)) (by decide)

theorem StoppedFrom.aborts : ∀ {L : List CryOp} {s : State}, StoppedFrom n s →
    StoppedFrom n (each (Machine.cryNoOutput true) L s)
  | [], _, h => h
  | _ :: _, _, h => h.cryNoOutput.aborts

end

theorem slots_aborts : ∀ (L : List CryOp) (s : State),
    (each (cryNoOutput true) L s).cry.slots = s.cry.slots
  | [], _ => rfl
  | _ :: L, _ => (slots_aborts L _).trans slots_cryNoOutput

theorem entropyExhausted_stops (hf : s.cry.entropyFailed = true) (hs : s.cry.stopped = false)
    (hr : 2 ^ 24 ≤ s.cry.requests) : Does .entropyExhausted s fun t => t.cry.stopped = true ∧
      t.cry.slots = s.cry.slots ∧ ∀ o ∈ t.cry.ops, s.cry.nextId ≤ o.id := by
  obtain ⟨hstop, -, hops⟩ := StoppedFrom.aborts (n := s.cry.nextId) (L := s.cry.ops)
    (s := { s with cry := { s.cry with stopped := true, ops := [] } })
    ⟨rfl, Nat.le_refl _, fun o ho => absurd ho List.not_mem_nil⟩
  refine does_next (if_pos ?_) ⟨hstop, slots_aborts _ _, hops⟩
  rw [hf, hs, decide_eq_true hr]
  rfl

theorem entropyExhausted_waits
    (h : s.cry.entropyFailed = false ∨ s.cry.stopped = true ∨ s.cry.requests < 2 ^ 24) :
    exec .entropyExhausted s = .next s := by
  refine if_neg fun hc => ?_
  obtain ⟨hc, hr⟩ := Bool.and_eq_true_iff.1 hc
  obtain ⟨hf, hs⟩ := Bool.and_eq_true_iff.1 hc
  rcases h with h | h | h
  · exact Bool.noConfusion (h.symm.trans hf)
  · rw [h] at hs
    exact Bool.noConfusion hs
  · exact Nat.not_le.2 h (of_decide_eq_true hr)

/-- Settles O38. -/
theorem cipherOperationsEndAsTheyRan : Obligations.CipherOperationsEndAsTheyRan := by
  refine ⟨fun s client => ⟨fun h => ?_, fun o ho => ?_⟩, fun s => ⟨fun hd ok => if_pos ?_, fun hd =>
    drbgReseed_due hd, entropyExhausted_stops, entropyExhausted_waits⟩⟩
  · change execCipherOpComplete client s = _
    unfold execCipherOpComplete
    rw [h]
  · exact ⟨fun h t n vd fn txt tag len hd hw => tine_completes ho hd hw,
      fun g lot k r hd hk hr hkey hstep hgap => rxLot_completes ho hd hk hr hkey hstep hgap,
      fun x k hd hk hs => txLot_completes ho hd hk hs,
      fun x k a b hd hk hs hr => txMsg_completes ho hd hk hs hr,
      fun op tag hd hf => command_completes ho hd hf⟩
  · rw [hd]
    rfl

end Sys2Proof.Machine
